-- ==== Sys2Proof/Word.lean ====
section
/-!
DEFINITION. Word.lean: the word types of the block. Every register is 64 bits wide (R8); memory is held by bytes (R9).
-/
namespace Sys2Proof

/-- One 64-bit register, descriptor word or record word (R8, R310). -/
abbrev Word := BitVec 64

/-- One byte of local DRAM or of a buffer (R9: everything is little-endian). -/
abbrev Byte := BitVec 8

end Sys2Proof
end

