-- ==== Sys2Proof/Syntax.lean ====
section
/-!
DEFINITION. Syntax.lean: the commands the block takes from outside, one constructor for each row of
spec/opcode_table.json, with the operands the row needs. Data that come from outside the block (host memory, pins, links,
sensors, the board's devices) are operands.
-/
namespace Sys2Proof

/-- Where an event comes from: the source ranks of R57, highest first. -/
inductive Src
  /-- a hardware condition of the device itself -/
  | hw
  /-- a raising -/
  | raising
  /-- a sequencer -/
  | seq (s : Nat)
  /-- an Oluel arrival on a port -/
  | oluel (p : Nat)
  /-- core firmware -/
  | core (c : Nat)
  /-- host software, by the ring (or 64 for BAR0) -/
  | host (q : Nat)
  /-- a GPIO or external trigger input -/
  | pin (i : Nat)
deriving DecidableEq, Repr

/-- Who accesses the device's registers: the five requesters of R11 — host software through BAR0, and each control core through the
alias — and host software through BAR2 (R298) and through the function's configuration space (R295, R296). -/
inductive Requester
  /-- host software through BAR0 -/
  | host
  /-- host software through BAR2: doorbell pages -/
  | bar2
  /-- a configuration request -/
  | config
  /-- core `c` through the register alias -/
  | core (c : Nat)
deriving DecidableEq, Repr

/-- What PCI Express reports of a transfer (R297, R306). -/
inductive PcieErr
  /-- on one of the device's own reads -/
  | timeout
  | completerAbort
  | unsupported
  | poisonedCompletion
  /-- in a request received -/
  | malformed
  | poisonedRequest
  /-- correctable errors of the link -/
  | receiver
  | badTlp
  | badDllp
  | replayRollover
  | replayTimeout
deriving DecidableEq, Repr

/-- One 64-byte Oluel frame: the header of R278 and the 52 payload bytes (R282). -/
structure Frame where
  cls     : Nat
  seq     : Nat := 0
  ackSeq  : Nat := 0
  ackValid : Bool := false
  nak     : Bool := false
  src     : Nat := 0
  dst     : Nat := 0
  bcast   : Bool := false
  ttl     : Nat := 0
  creditClass : Nat := 0
  credits : Nat := 0
  sub     : Nat := 0
  payload : List Nat := []
deriving DecidableEq, Repr

/-- What takes an ACTIVE link down (R276): blocks received on a lane, by sync header and first byte; loss of signal on a lane; loss of
alignment. -/
inductive LinkLoss
  | blocks (lane : Nat) (window : List (Nat × Nat))
  | signal (lane : Nat)
  | alignment
deriving DecidableEq, Repr

/-- What takes the link of a port down. -/
structure PortLoss where
  port : Nat
  loss : LinkLoss
deriving DecidableEq, Repr

/-- The 64 bytes that a port receives as a frame. -/
structure PortBytes where
  port : Nat
  raw  : List Nat
deriving DecidableEq, Repr

/-- A training state that a port leaves, with the mask of the lanes whose receive polarity is found inverted (R267). -/
structure PortExit where
  port     : Nat
  inverted : Nat
deriving DecidableEq, Repr

/-- How a marker group arrives (R271, R272): its ALIGN blocks `skew` block times apart, `drift` blocks more than were read since the
last group. -/
structure GroupTiming where
  skew  : Nat
  drift : Int
deriving DecidableEq, Repr

/-- An edge of REFCLK, in core ticks after the present boundary (R39): the last before its edges stop, or the first after they return. -/
structure RefEdge where
  returned : Bool
  ct       : Nat
deriving DecidableEq, Repr

/-- A transfer that fails (R297, R306): a descriptor read (kind 1), a record write (2) or another, and how PCI Express reports it. -/
structure DmaFail where
  kind  : Nat
  cause : PcieErr
deriving DecidableEq, Repr

/-- The bytes that the buffer of a ring's descriptor holds (R322). -/
structure RingData where
  ring : Nat
  data : List Nat
deriving DecidableEq, Repr

/-- The commands: one constructor for each row of the table, in the table's order. -/
inductive Instr
  /-- REGISTER_WRITE (R10): A host or core write to a register that has no row of its own; 32-bit halves are combined per requester under R11 and the write is sampled at an event tick. -/
  | registerWrite (req : Requester) (off : Nat) (bytes : Nat) (data : Word)
  /-- W1C_CLEAR (R13): A write of 1 to a W1C bit is a class 3 clear at the tick in which it is sampled. -/
  | w1cClear (off : Nat) (bits : Word)
  /-- BAYMAP_COMMIT (R26): A write of GLOBAL.BAYMAP is a configuration commit; each changed bay takes its new assignment or is refused. -/
  | baymapCommit (value : Word) (src : Src)
  /-- REFCLK_DROPOUT (R39): REFCLK edges stop and the root PLL holds over; a dropout of 4 µs or less increments DROPOUT_COUNT. -/
  | refclkDropout (edge : RefEdge)
  /-- REF_LOST (R40): A REFCLK loss passes 4 µs; REF_LOST is set, REF_LOST stops become pending, time-interval results are marked INVALID and calibrations abort. -/
  | refLost
  /-- REF_RESTORED (R42): After 100 µs of continuous REFCLK the root PLL re-acquires lock; REF_LOST clears and REF_RESTORED is posted. -/
  | refRestored (ct : Nat)
  /-- ROOT_LOCK (R38): The root PLL achieves lock after REFCLK is present, and the derived clocks start. -/
  | rootLock
  /-- REFMON_CLEAR (R44): CLK.REFMON.CLEAR zeroes both reference-disturbance counts. -/
  | refmonClear
  /-- ALIGN_ARM (R47): CLK.ALIGN.ARM arms an align or verify operation, or is refused in align mode. -/
  | alignArm (verify : Bool) (syncDrive : Bool) (src : Src)
  /-- ALIGN_DISARM (R51): CLK.ALIGN.DISARM cancels an armed operation. -/
  | alignDisarm (src : Src)
  /-- SYNC_DRIVE (R45): 1 µs after its arm, a device with SYNC_DRIVE drives SYNC_OUT high for 4 REFCLK periods. -/
  | syncDrive
  /-- SYNC_CAPTURE (R46): An armed device samples SYNC high on a rising REFCLK edge, which becomes the capture edge. -/
  | syncCapture
  /-- ALIGNMENT_EDGE (R46): At the fourth rising edge after capture, the dividers are set, ETCOUNT is loaded and TICK_ALIGNED is set, or the verify result is stored. -/
  | alignmentEdge (ct : Nat)
  /-- PREC_STATS_CLEAR (R58): CLK.PREC_STATS.CLEAR zeroes SUPERSEDED_COUNT. -/
  | precStatsClear
  /-- GPIO_EDGE (R54): A GPIO or external-trigger input delivers its level and edge event at an event-tick boundary. -/
  | gpioEdge (pin : Nat) (level : Bool) (rose : Bool) (fell : Bool)
  /-- SEQ_START (R71): SEQ[s].CTRL.START is accepted or refused; an accepted start clears the run state and launches the first record. -/
  | seqStart (q : Nat) (src : Src)
  /-- SEQ_RESUME (R72): SEQ[s].CTRL.RESUME continues a PAUSED sequencer where it paused. -/
  | seqResume (q : Nat) (src : Src)
  /-- PAUSE_REQUEST (R74): SEQ[s].CTRL.PAUSE becomes a pending peg-point action that pauses the sequencer. -/
  | pauseRequest (q : Nat) (src : Src)
  /-- ABORT (R116): SEQ[s].CTRL.ABORT becomes pending and stops the sequencer at its next peg point, or at once if it is stopped or paused. -/
  | abort (q : Nat) (src : Src)
  /-- FAULT_CLEAR (R120): SEQ[s].CTRL.FAULT_CLEAR clears the fault status, class 3. -/
  | faultClear (q : Nat) (src : Src)
  /-- NOP (R68): A NOP record issues its vectors, and the next record follows. -/
  | nopRec (q : Nat)
  /-- LOOP (R75): A LOOP record opens a loop level with its count. -/
  | loopRec (q : Nat)
  /-- ENDLOOP (R76): An ENDLOOP record iterates or closes the innermost loop, or judges and decides a match level. -/
  | endloop (q : Nat)
  /-- REPEAT (R77): A REPEAT record is issued COUNT times in succession. -/
  | repeatRec (q : Nat)
  /-- CALL (R78): A CALL record pushes a return entry and continues at TARGET, or faults on overflow. -/
  | callRec (q : Nat)
  /-- RET (R79): A RET record pops a return entry and continues at its address, or faults. -/
  | ret (q : Nat)
  /-- JUMP (R82): A JUMP record pops POP levels and continues at TARGET. -/
  | jump (q : Nat)
  /-- JUMPIF (R83): A JUMPIF record acts as JUMP when COND holds at its decode. -/
  | jumpif (q : Nat)
  /-- MATCH (R92): A MATCH record opens a match level whose passes repeat until COND or TIMEOUT. -/
  | matchRec (q : Nat)
  /-- FLAGSET (R97): A FLAGSET record sets a local flag, a global flag or the forced fail. -/
  | flagset (q : Nat)
  /-- FLAGCLR (R97): A FLAGCLR record clears a local flag, a global flag or the fail accumulators. -/
  | flagclr (q : Nat)
  /-- WAITRAISE (R98): A WAITRAISE record issues hold repetitions until a raising releases it. -/
  | waitraise (q : Nat)
  /-- BARRIER (R103): A BARRIER record arrives at barrier i and holds until the barrier releases. -/
  | barrier (q : Nat)
  /-- TRIGGER (R106): A TRIGGER record delivers a trigger to the acquisition engines of the named bays. -/
  | trigger (q : Nat)
  /-- MEASURE (R107): A MEASURE record opens, closes or reopens accumulation windows, or makes an urgent ADC request. -/
  | measure (q : Nat)
  /-- TIMARM (R108): A TIMARM record arms the named time-interval units. -/
  | timarm (q : Nat)
  /-- FEAPPLY (R109): A FEAPPLY record starts or queues a front-end command list on the named bays. -/
  | feapply (q : Nat)
  /-- PAGEHINT (R110): A PAGEHINT record names a page to the lookahead. -/
  | pagehint (q : Nat)
  /-- STOPIFFAIL (R111): A STOPIFFAIL record stops the sequencer after itself when COND holds. -/
  | stopiffail (q : Nat)
  /-- HALT (R111): A HALT record pauses the sequencer after itself. -/
  | halt (q : Nat)
  /-- END (R111): An END record stops the sequencer after itself. -/
  | endRec (q : Nat)
  /-- EDGE_APPLY (R137): A queued drive or compare event reaches its nominal time and is applied on its path. -/
  | edgeApply (c : Nat) (high : List (Nat × Bool)) (low : List (Nat × Bool))
  /-- COMPARE_RESULT (R31): Compare and mask complete for a strobe or window, and the outcome reaches counters, flags, accumulators and the fail log. -/
  | compareResult (c : Nat)
  /-- PEG_WATCHDOG (R118): The peg watchdog expires, and the pending stop is forced at the next record. -/
  | pegWatchdog (q : Nat)
  /-- HOLD_TIMEOUT (R102): A hold's TIMEOUT expires, and the hold ends with HOLD_TIMEOUT set. -/
  | holdTimeout (q : Nat)
  /-- BARRIER_RELEASE (R103): All participants of a barrier have arrived, and the barrier releases and advances GEN. -/
  | barrierRelease (q : Nat) (i : Nat)
  /-- PARK (R112): After the last record's events, channels take park state and STATE becomes STOPPED or PAUSED. -/
  | park (q : Nat)
  /-- TABLE_COMMIT (R123): SEQ[s].TS_CTRL.COMMIT transfers dirty timing sets to the active copy, at once or at a peg point. -/
  | tableCommit (q : Nat) (src : Src)
  /-- DCLK_START (R144): DCLK_CTRL.START starts a FREE DUT clock generator. -/
  | dclkStart (b : Nat) (g : Nat) (src : Src)
  /-- DCLK_DISABLE (R144): DCLK_CTRL.DISABLE stops a DUT clock generator after its next falling edge. -/
  | dclkDisable (b : Nat) (g : Nat) (src : Src)
  /-- FREQUENCY_COMMIT (R144): DCLK_CTRL.COMMIT loads the staged generator settings. -/
  | frequencyCommit (b : Nat) (g : Nat) (src : Src)
  /-- EDGE_STAT_CLEAR (R149): EDGE_STAT.CLEAR zeroes the collision and overflow counts. -/
  | edgeStatClear (b : Nat) (i : Nat)
  /-- FAIL_SNAP (R163): FAIL_SNAP.SNAP copies the bay's fail counters into FAIL_SHADOW. -/
  | failSnap (b : Nat)
  /-- FAIL_COUNT_CLEAR (R162): FAIL_SNAP.CLEAR zeroes the bay's sixteen fail counters. -/
  | failCountClear (b : Nat)
  /-- CMP_STAT_CLEAR (R157): CMP_STAT.CLEAR zeroes the window counts. -/
  | cmpStatClear (b : Nat)
  /-- LOG_WRITE (R170): The log writer drains a queued fail record or summary into the DRAM log ring when there is room. -/
  | logWrite
  /-- MIRROR (R174): A record or word is copied from the DRAM write path into its host mirror ring when the host ring has room. -/
  | mirror (which : Nat) (i : Nat)
  /-- LOG_CFG_WRITE (R175): A write of SEQ[s].LOG_CFG enables or disables the log ring and takes its settings. -/
  | logCfgWrite (q : Nat) (value : Word)
  /-- LOG_STAT_CLEAR (R172): LOG_STAT.CLEAR zeroes COALESCED_COUNT. -/
  | logStatClear (q : Nat)
  /-- CAPTURE_BLOCK_WRITE (R177): A capture block closes and is written to the capture ring. -/
  | captureBlockWrite (q : Nat)
  /-- CAP_CFG_WRITE (R179): A write of SEQ[s].CAP_CFG enables or disables the capture ring and takes its settings. -/
  | capCfgWrite (q : Nat) (value : Word)
  /-- CAP_STAT_CLEAR (R178): CAP_STAT.CLEAR zeroes LOST_COUNT. -/
  | capStatClear (q : Nat)
  /-- REBUILD (R192): PGT.CTRL.REBUILD starts a page-table rebuild, or is refused. -/
  | rebuild
  /-- REBUILD_DONE (R192): A rebuild finishes, and REBUILD_BUSY clears. -/
  | rebuildDone
  /-- WIN_READ (R216): PGT.WIN_CMD.READ copies a page-table entry into WIN_DATA. -/
  | winRead (page : Nat)
  /-- WIN_WRITE (R190): PGT.WIN_CMD.WRITE applies WIN_DATA to an entry as a flags-only write, full map or unmap, or is refused. -/
  | winWrite (page : Nat)
  /-- LOAD_START (R194): With a slot and a frame free, the engine starts the oldest highest-level page load request. -/
  | loadStart
  /-- LOAD_COMPLETE (R195): A page load's last byte arrives; its check word is verified and the page becomes resident, is retried, or is marked BAD. -/
  | loadComplete (page : Nat) (data : List Nat)
  /-- LOOKAHEAD (R198): The lookahead visits a flow table that has arrived and requests the pages on its path. -/
  | lookahead (q : Nat) (arrived : List Nat)
  /-- PREFETCH_FILL (R201): The fill engine fetches records into the prefetch buffer, side paths and loop cache along the predicted path. -/
  | prefetchFill (q : Nat)
  /-- STALL_RESUME (R209): The records from W become available, and the stalled sequencer decodes W after RESUME_DELAY. -/
  | stallResume (q : Nat) (ct : Nat)
  /-- STALL_LIMIT (R211): A stall reaches STALL_CTRL.LIMIT, and the sequencer stops with UNDERRUN_ABORT. -/
  | stallLimit (q : Nat)
  /-- UNDERRUN_CLEAR (R208): SEQ[s].UNDERRUN.CLEAR zeroes the under-run count. -/
  | underrunClear (q : Nat)
  /-- STALL_TIME_CLEAR (R209): STALL_TIME.CLEAR zeroes the stall time. -/
  | stallTimeClear (q : Nat)
  /-- LCACHE_STAT_CLEAR (R203): LCACHE_STAT.CLEAR zeroes the hit count. -/
  | lcacheStatClear (q : Nat)
  /-- LOAD_STAT_CLEAR (R195): PGT.LOAD_STAT.CLEAR zeroes the load and eviction counts. -/
  | loadStatClear
  /-- PGT_ERR_STAT_CLEAR (R195): PGT.ERR_STAT.CLEAR zeroes the load failure counts. -/
  | pgtErrStatClear
  /-- SITE_COMMIT (R220): SITE.CTRL.COMMIT judges dirty sites and copies the accepted ones to the active map. -/
  | siteCommit
  /-- RETIRE (R229): A write of SITE[k].CTRL.RETIRE = 1 retires the site and parks its channels. -/
  | retire (k : Nat)
  /-- SITE_END (R231): Once every outcome of a site's run has been delivered, SITE[k].RESULT is written and the end is signalled. -/
  | siteEnd (k : Nat)
  /-- SAMPLE_OFFSET (R240): A write of SAMPLE_OFFSET submits a servo sample, which is rejected, used for a PI update or used for a step. -/
  | sampleOffset (d : Nat) (theta : Int)
  /-- DOMAIN_STEP (R245): A write of TIME.DOM[d].STEP steps the domain, or is refused under R247. -/
  | domainStep (d : Nat) (ns : Int)
  /-- INT_CLEAR (R240): DOM[d].CTRL.INT_CLEAR zeroes the servo integrator. -/
  | intClear (d : Nat)
  /-- DOMAIN_SWITCH (R243): A change of TIME.CTRL.SELECT switches domains with a continuous slew of Δ. -/
  | domainSwitch (d : Nat)
  /-- SERVO_HOLDOVER (R242): No sample is accepted for HOLD_ET event ticks, and the servo enters HOLDOVER. -/
  | servoHoldover (d : Nat)
  /-- REJECT_COUNT_CLEAR (R239): DOM[d].STATUS.CLEAR zeroes REJECT_COUNT. -/
  | rejectCountClear (d : Nat)
  /-- LATCH (R256): SNAP_SEC[i].LATCH latches the station or domain time of the tick. -/
  | latch (i : Nat) (source : Nat)
  /-- CHECK_MESSAGE_SEND (R249): Every 2^20 event ticks, a lockstep leader sends a check message. -/
  | checkMessageSend
  /-- LOCKSTEP_LOST (R251): No check message arrives within 2^21 event ticks, and the follower leaves lockstep. -/
  | lockstepLost
  /-- TIMEPORT_RX (R253): A frame received on the time port is stamped, classified and delivered to the TIMERX ring, or discarded. -/
  | timeportRx (frame : List Nat) (fcsOk : Bool) (ct : Nat)
  /-- PPS_OUT (R257): The chosen time passes a whole second, and PPS_OUT rises. -/
  | ppsOut
  /-- PPS_IN (R258): A rising edge on PPS_IN is stamped and posted. -/
  | ppsIn (ct : Nat)
  /-- RAISE_FIRE (R262): Station time reaches a scheduled entry's instant, and the entry launches, resumes or releases its sequencers. -/
  | raiseFire (e : Nat)
  /-- OLU_ENABLE (R273): A write of OLU[p].CTRL.ENABLE = 1 begins training of the port. -/
  | oluEnable (p : Nat)
  /-- OLU_DISABLE (R277): A write of ENABLE = 0 puts the port in DISABLED and discards its frames. -/
  | oluDisable (p : Nat)
  /-- RETRAIN (R277): OLU[p].CTRL.RETRAIN takes an ACTIVE link down and retrains it. -/
  | retrain (p : Nat)
  /-- TRAINING_ATTEMPT (R274): A port's wait ends and a new training attempt begins. -/
  | trainingAttempt (p : Nat)
  /-- TRAINING_FAIL (R274): A training attempt fails; the port waits, or sets LINK_ABSENT after the eighth failure. -/
  | trainingFail (p : Nat)
  /-- LINK_UP (R274): A training attempt completes CONFIG, and the link becomes ACTIVE with HOP_LAT set. -/
  | linkUp (p : Nat) (partner : Nat) (echoes : List (Nat × Nat))
  /-- LINK_DOWN (R276): An ACTIVE link goes down on invalid blocks, loss of signal or alignment, or the retry limit. -/
  | linkDown (e : PortLoss)
  /-- LINK_FRAME (R280): An acknowledgement-and-credit frame arrives and advances ACKSEQ, triggers resend on NAK, or returns credits. -/
  | linkFrame (p : Nat) (raw : List Nat)
  /-- RETRY_TIMEOUT (R280): 2 µs pass without ACKSEQ advancing, and every unacknowledged frame is resent. -/
  | retryTimeout (p : Nat)
  /-- FLAG (R284): A FLAG frame arrives, and its entries act on global flags, resets and barrier arrivals and are forwarded. -/
  | flagMsg (p : Nat) (raw : List Nat)
  /-- RAISE (R261): A RAISE frame arrives and is treated as a schedule or cancel of this device's entry. -/
  | raiseMsg (p : Nat) (raw : List Nat)
  /-- MAIL (R287): A MAIL frame addressed here is written to the mail inbox and sets an event flag. -/
  | mailMsg (p : Nat) (raw : List Nat)
  /-- BULK_START (R288): A BULK START frame arrives and is accepted into the bulk window or rejected. -/
  | bulkStart (p : Nat) (raw : List Nat)
  /-- BULK_DATA (R288): A BULK DATA frame is written through PORT_PAGE, and DONE is returned after the last one. -/
  | bulkData (p : Nat) (raw : List Nat)
  /-- BULK_DONE (R288): A BULK DONE frame reaches the originator, which sets STATUS and DONE and posts BULK_DONE. -/
  | bulkDone (p : Nat) (raw : List Nat)
  /-- ETCHECK (R286): An ETCHECK frame arrives, and the receiver stores ET_DIFF and reports a slip. -/
  | etcheck (p : Nat) (raw : List Nat) (partnerAligned : Bool)
  /-- ETCHECK_SEND (R286): Every 2^16 event ticks, an ACTIVE awake port sends an ETCHECK to its partner. -/
  | etcheckSend (p : Nat)
  /-- CHANGE (R250): A TICK CHANGE message arrives, and a follower applies it at the named boundary. -/
  | changeMsg (p : Nat) (raw : List Nat)
  /-- CHECK (R250): A CHECK_A and CHECK_B pair arrives; a follower loads or compares its state. -/
  | checkMsg (p : Nat) (raw : List Nat)
  /-- DIRECTION_SLEEP (R293): After SLEEP_IDLE event ticks idle, a transmit direction sends SLEEP and enters electrical idle. -/
  | directionSleep (p : Nat)
  /-- DIRECTION_WAKE (R294): A frame becomes ready in a sleeping direction, which wakes and sends it. -/
  | directionWake (p : Nat)
  /-- GF_SET (R284): OLU.GF_OP.SET sets a global flag, which is broadcast. -/
  | gfSet (i : Nat) (src : Src)
  /-- GF_CLEAR (R284): OLU.GF_OP.CLEAR clears a global flag, which is broadcast. -/
  | gfClear (i : Nat) (src : Src)
  /-- GF_RESET (R284): OLU.GF_OP.RESET performs a peer-domain flag reset of all 64 flags. -/
  | gfReset (src : Src)
  /-- BULK_GO (R288): OLU.BULK_CTRL.GO starts a BULK transfer on a transfer channel. -/
  | bulkGo (i : Nat) (length : Nat)
  /-- OLU_ERR_STAT_CLEAR (R276): OLU[p].ERR_STAT.CLEAR zeroes the port's error counts. -/
  | oluErrStatClear (p : Nat)
  /-- DOORBELL (R302): A doorbell write announces new descriptors, or returns space on a device-produced ring. -/
  | doorbell (q : Nat) (value : BitVec 32)
  /-- RING_ENABLE (R300): RING[q].CTRL.ENABLE zeroes the indices and makes the ring ENABLED. -/
  | ringEnable (q : Nat) (src : Src)
  /-- RING_DISABLE (R304): RING[q].CTRL.DISABLE stops fetching and drains the ring to DISABLED. -/
  | ringDisable (q : Nat) (src : Src)
  /-- RING_RESET (R305): RING[q].CTRL.RESET makes the ring DISABLED at once. -/
  | ringReset (q : Nat) (src : Src)
  /-- DESCRIPTOR_READ (R301): A descriptor read completes and the descriptor becomes available for execution. -/
  | descriptorRead (q : Nat) (w0 : Word) (w1 : Word) (w2 : Word) (w3 : Word)
  /-- DMA_ERROR (R306): A descriptor read or record write of a ring fails, and the ring stops. -/
  | dmaError (q : Nat) (fail : DmaFail)
  /-- RING_INTERRUPT (R309): A ring's interrupt condition or hold-off is met, and its MSI-X message is sent after the index write-back. -/
  | ringInterrupt (q : Nat)
  /-- COMPLETION_RECORD (R314): A completed command's completion record is written when its COMPLETION ring has room. -/
  | completionRecord (q : Nat)
  /-- CMD_NOP (R316): CMD_NOP completes OK at once. -/
  | cmdNop (q : Nat)
  /-- CMD_TABLE_LOAD (R317): CMD_TABLE_LOAD reads items from host memory and writes them as register writes. -/
  | cmdTableLoad (q : Nat)
  /-- TABLE_LOAD_DATA (R317): The host data of a CMD_TABLE_LOAD arrive and are written, or the read fails with DMA_ERROR. -/
  | tableLoadData (q : Nat) (words : List Word) (ok : Bool)
  /-- CMD_COMMIT_AT_PEG (R123): CMD_COMMIT_AT_PEG makes a table commit of the named sequencer. -/
  | cmdCommitAtPeg (q : Nat)
  /-- CMD_PAGE_MAP (R190): CMD_PAGE_MAP performs a page-table window write. -/
  | cmdPageMap (q : Nat)
  /-- CMD_STREAM_PAGE (R205): CMD_STREAM_PAGE maps a page and requests its load at level 4. -/
  | cmdStreamPage (q : Nat)
  /-- CMD_RAISE (R260): CMD_RAISE schedules or cancels a raising entry, and forwards it when asked. -/
  | cmdRaise (q : Nat)
  /-- CMD_ABORT (R316): CMD_ABORT aborts each named sequencer and completes when each abort has its outcome. -/
  | cmdAbort (q : Nat)
  /-- CMD_SITE_SET (R220): CMD_SITE_SET performs a site-map commit. -/
  | cmdSiteSet (q : Nat)
  /-- CMD_CAL_RUN (R438): CMD_CAL_RUN starts a calibration procedure on the named bays. -/
  | cmdCalRun (q : Nat)
  /-- CMD_COUNTERS_READ (R318): CMD_COUNTERS_READ snapshots the named bays' fail counters and writes them to host memory. -/
  | cmdCountersRead (q : Nat)
  /-- FUSE_ARM (R319): A CMD_FUSE_LOCK arm opens a 1 ms confirm window. -/
  | fuseArm (q : Nat)
  /-- FUSE_CONFIRM (R319): A CMD_FUSE_LOCK confirm within a live window blows the debug-lock fuse. -/
  | fuseConfirm (q : Nat)
  /-- FUSE_LOCKED (R473): The debug-lock fuse is blown, and debug access is locked permanently. -/
  | fuseLocked
  /-- CMD_BARRIER (R320): CMD_BARRIER holds its ring until earlier descriptors of the named rings are written back. -/
  | cmdBarrier (q : Nat)
  /-- CMD_MAIL (R322): CMD_MAIL sends mail to the local inbox or to a peer chip. -/
  | cmdMail (q : Nat)
  /-- UNSUPPORTED_OPCODE (R315): A command descriptor with an unknown opcode completes UNSUPPORTED. -/
  | unsupportedOpcode (q : Nat)
  /-- STREAM_DESCRIPTOR (R205): A STREAM ring descriptor maps and pushes a page. -/
  | streamDescriptor (q : Nat)
  /-- TIMETX_DESCRIPTOR (R322): A TIMETX descriptor sends a frame on the time port, stamped if requested. -/
  | timetxDescriptor (b : RingData)
  /-- TIMERX_DESCRIPTOR (R322): A TIMERX descriptor supplies a buffer for the next received frame. -/
  | timerxDescriptor (q : Nat)
  /-- MAIL_DESCRIPTOR (R322): A MAIL ring descriptor writes mail to the local inbox or sends it to a peer. -/
  | mailDescriptor (q : Nat)
  /-- EVENT_STAT_CLEAR (R324): HIF.EVENT_STAT.CLEAR zeroes UNROUTED. -/
  | eventStatClear
  /-- RING_STATUS_CLEAR (R324): RING[q].STATUS.CLEAR zeroes DROPPED. -/
  | ringStatusClear (q : Nat)
  /-- CORE_RUN (R335): A write of CORE.CTRL.RUN releases cores from reset at ENTRY, or puts cores in reset. -/
  | coreRun (mask : Nat)
  /-- FIRMWARE_LOAD (R334): CORE.LOAD_CTRL.GO starts fetching and checking a firmware image. -/
  | firmwareLoad (length : Nat)
  /-- LOAD_DONE (R334): A firmware load ends with OK, FORMAT, AUTH_FAIL or DMA_ERROR. -/
  | loadDone (image : List Nat) (readOk : Bool) (key : List Nat) (signature : List Nat)
  /-- MAKEREADY (R337): The dispatcher operation MAKEREADY makes a thread READY. -/
  | makeready (j : Nat) (src : Src)
  /-- CANCEL (R337): The dispatcher operation CANCEL makes a thread IDLE. -/
  | cancel (j : Nat) (src : Src)
  /-- SETFLAGS (R342): The dispatcher operation SETFLAGS sets event flags, which may satisfy a wait. -/
  | setflags (j : Nat) (flags : Nat) (src : Src)
  /-- CLRFLAGS (R342): The dispatcher operation CLRFLAGS clears event flags. -/
  | clrflags (j : Nat) (flags : Nat) (src : Src)
  /-- SLOT_RESET (R337): The dispatcher operation RESET resets a thread slot. -/
  | slotReset (j : Nat) (src : Src)
  /-- SETWAIT (R346): The dispatcher operation SETWAIT sets the caller's wait mask. -/
  | setwait (c : Nat) (mask : Nat)
  /-- WAIT (R340): The dispatcher operation WAIT puts the caller's thread to wait and returns the core's next thread. -/
  | waitOp (c : Nat)
  /-- YIELD (R340): The dispatcher operation YIELD returns the thread to the tail of its level and switches. -/
  | yield (c : Nat)
  /-- SWITCH (R340): The dispatcher operation SWITCH makes the core's target thread RUNNING. -/
  | switch (c : Nat)
  /-- TAKEFLAGS (R346): The dispatcher operation TAKEFLAGS returns and clears the caller's masked flags. -/
  | takeflags (c : Nat)
  /-- SUBMIT (R351): The dispatcher operation SUBMIT creates an item in an ordered flow and wakes a worker. -/
  | submit (fl : Nat) (handle : Nat) (src : Src)
  /-- TAKE (R352): The dispatcher operation TAKE returns the oldest queued item of a flow. -/
  | take (c : Nat) (fl : Nat)
  /-- RELEASE (R353): The dispatcher operation RELEASE copies an item's record into the reorder buffer, or discards it. -/
  | release (c : Nat) (fl : Nat) (slot : Nat) (record : Nat) (discard : Bool)
  /-- SENDMAIL (R356): The dispatcher operation SENDMAIL puts a mail block into the local inbox or sends it to a peer. -/
  | sendmail (c : Nat) (block : Nat)
  /-- WAIT_TIMEOUT (R343): A waiting thread's TIMEOUT expires, and it becomes READY with TIMEDOUT. -/
  | waitTimeout (j : Nat)
  /-- SLICE_END (R339): A running thread reaches SLICE event ticks, and it may be replaced or migrated. -/
  | sliceEnd (c : Nat)
  /-- THR_CFG_WRITE (R350): A write of DISP.THR_CFG changes priority, affinity or wait settings, moving a READY thread. -/
  | thrCfgWrite (j : Nat) (value : Word)
  /-- FLOW_OUTPUT (R353): Released items leave in sequence order for their ring or peer when the destination has room. -/
  | flowOutput (fl : Nat)
  /-- FLOW_ENABLE (R351): Writing FLOW_CFG.ENABLE = 1 enables a flow. -/
  | flowEnable (fl : Nat) (value : Word)
  /-- FLOW_DISABLE (R354): Writing FLOW_CFG.ENABLE = 0 refuses later submissions. -/
  | flowDisable (fl : Nat) (src : Src)
  /-- FLOW_RESET (R354): FLOW_CFG.RESET discards every item of the flow and restarts its sequence. -/
  | flowReset (fl : Nat) (src : Src)
  /-- FLOW_STAT_CLEAR (R353): FLOW_STAT.CLEAR zeroes REFUSED. -/
  | flowStatClear (fl : Nat)
  /-- THR_WAIT_CLEAR (R357): THR_WAIT.CLEAR zeroes MAX. -/
  | thrWaitClear (j : Nat)
  /-- MAIL_NOROUTE_CLEAR (R356): CORE.STATUS.CLEAR zeroes MAIL_NOROUTE. -/
  | mailNorouteClear
  /-- INBOX_WRITE (R355): A held mail is written into the inbox once it has room, and its event flag is set. -/
  | inboxWrite
  /-- LOAD_WINDOW (R357): A load window of WINDOW event ticks completes, and each core's busy count is recorded. -/
  | loadWindow
  /-- ADC_OUTPUT (R371): A filter-chain output is delivered to the accumulators and the acquisition engine, advancing the visit. -/
  | adcOutput (b : Nat) (codes : List Int) (code : Int)
  /-- SEQUENCE_TRIGGER (R364): ADC_CTRL.TRIG starts an IDLE ADC sequence, or restarts or is counted as an overrun. -/
  | sequenceTrigger (b : Nat) (src : Src)
  /-- ADC_STOP (R365): ADC_CTRL.STOP ends the present visit and makes the sequence IDLE. -/
  | adcStop (b : Nat) (src : Src)
  /-- ACC_CLEAR (R375): ADC_CTRL.ACC_CLEAR zeroes the running accumulators. -/
  | accClear (b : Nat) (src : Src)
  /-- SEQUENCE_COMMIT (R378): ADC_CTRL.COMMIT applies the staged converter configuration. -/
  | sequenceCommit (b : Nat) (src : Src)
  /-- URGENT_REQUEST (R366): ADC_CTRL.URGENT pre-empts the sequence with an urgent visit of an entry. -/
  | urgentRequest (b : Nat) (e : Nat) (src : Src)
  /-- URGENT_CANCEL (R366): ADC_CTRL.URGENT_CANCEL ends the urgent visit at once. -/
  | urgentCancel (b : Nat) (src : Src)
  /-- BANK_REQUEST (R374): ADC_CTRL.BANK_REQ asks for a coefficient bank, swapped or faded at the next output. -/
  | bankRequest (b : Nat) (bank : Nat)
  /-- COEF_WRITE (R373): A write of ADC_COEF_DATA writes a coefficient of the inactive bank, or is refused. -/
  | coefWrite (b : Nat) (data : Word)
  /-- REF_READY (R361): A changed reference settles, and REF_READY is set. -/
  | refReady (b : Nat)
  /-- SLICE_ROTATION (R359): Every 2 ms the spare slice replaces one slice, which is calibrated; a failure uses the spare or degrades the converter. -/
  | sliceRotation (b : Nat) (failed : Bool)
  /-- ADC_WINDOW (R377): An accumulation window closes, and the accumulators are copied into the result registers. -/
  | adcWindow (b : Nat)
  /-- ADC_COUNTS_CLEAR (R364): ADC_COUNTS.CLEAR zeroes the converter counts. -/
  | adcCountsClear (b : Nat)
  /-- REARM (R384): ACQ_CTRL.REARM applies staged settings and puts the acquisition engine in FILLING. -/
  | rearm (b : Nat) (src : Src)
  /-- ACQ_STOP (R392): ACQ_CTRL.STOP makes the acquisition engine IDLE, ending any capture with END = STOPPED. -/
  | acqStop (b : Nat) (src : Src)
  /-- FORCE (R388): ACQ_CTRL.FORCE is a trigger counted as condition 4. -/
  | force (b : Nat) (src : Src)
  /-- AUTO_TRIGGER (R385): In AUTO mode, AUTO_ET event ticks pass without a trigger record, and a forced trigger is sampled. -/
  | autoTrigger (b : Nat)
  /-- HOLDOFF_END (R385): HOLDOFF event ticks pass after a capture, and the engine re-arms itself. -/
  | holdoffEnd (b : Nat)
  /-- ACQ_COUNTS_CLEAR (R392): ACQ_COUNTS.CLEAR is a ring status clear that zeroes TRIG_MISSED and DROPPED. -/
  | acqCountsClear (b : Nat) (src : Src)
  /-- ACQ_RING_WRITE (R394): A write of ACQ_RING enables or disables the acquisition ring and takes its settings. -/
  | acqRingWrite (b : Nat) (value : Word)
  /-- TIM_ARM (R407): TIM_CTRL.ARM applies the staged configuration and begins a measurement. -/
  | timArm (m : Nat) (src : Src)
  /-- TIM_DISARM (R407): TIM_CTRL.DISARM ends the measurement without a result. -/
  | timDisarm (m : Nat) (src : Src)
  /-- TIM_RESULT_CLEAR (R407): TIM_CTRL.CLEAR zeroes RESULT and AUX and clears DONE. -/
  | timResultClear (m : Nat) (src : Src)
  /-- TIM_EDGE (R401): A qualifying edge reaches a time-interval input and is accepted or ignored by hold-off. -/
  | timEdge (m : Nat) (edge : Nat) (rising : Bool) (p : Int)
  /-- TIM_COMPLETE (R404): A measurement completes, and RESULT, AUX and DONE are written. -/
  | timComplete (m : Nat)
  /-- TIM_TIMEOUT (R405): TIMEOUT event ticks pass without completion, and the measurement completes with TIMEDOUT. -/
  | timTimeout (m : Nat)
  /-- SERIES_ENTRY (R408): A series entry of up to three stamps is written when full, after 10 µs, or at the end of the series. -/
  | seriesEntry (m : Nat)
  /-- TIM_STAT_CLEAR (R410): TIM_STAT.CLEAR zeroes LOST and BUSY_DISCARD. -/
  | timStatClear (m : Nat)
  /-- DRAM_ENABLE (R416): A write of DRM.CTRL.ENABLE = 1 initialises every populated channel into training mode. -/
  | dramEnable
  /-- DRAM_INIT_DONE (R416): The JESD79-5 power-up sequence completes, and each channel waits in training mode. -/
  | dramInitDone
  /-- DRAM_DISABLE (R417): A write of DRM.CTRL.ENABLE = 0 resets the DRAM and returns resident pages to HOST, or is refused. -/
  | dramDisable
  /-- TRAIN (R416): A write of MCH[m].CTRL.TRAIN puts a channel in training mode or in service. -/
  | train (m : Nat) (v : Bool)
  /-- APPLY (R419): DLY_APPLY.APPLY marks the shadow delays for transfer at the next refresh boundary. -/
  | apply (m : Nat)
  /-- MRW (R420): TRAIN_CMD GO with OP MRW writes a mode register. -/
  | mrw (m : Nat)
  /-- MRR (R420): TRAIN_CMD GO with OP MRR reads a mode register. -/
  | mrr (m : Nat) (data : Nat)
  /-- READ_CMP (R420): TRAIN_CMD GO with OP READ_CMP reads a burst and compares it with TRAIN_PAT. -/
  | readCmp (m : Nat) (failbits : Nat)
  /-- WRITE_READ_CMP (R420): TRAIN_CMD GO with OP WRITE_READ_CMP writes, reads and compares the pattern. -/
  | writeReadCmp (m : Nat) (failbits : Nat)
  /-- WLEVEL (R420): TRAIN_CMD GO with OP WLEVEL samples each lane's DQS against CK. -/
  | wlevel (m : Nat) (bits : Nat)
  /-- REFRESH (R427): A rank's refresh interval expires, and it is refreshed, or postponed under PANIC. -/
  | refresh (m : Nat) (r : Nat)
  /-- MR4_POLL (R428): Every 32 ms, mode register 4 of every rank is read to adjust refresh rate. -/
  | mr4Poll (fast : List Nat)
  /-- PATROL_SCRUB (R432): Patrol scrub reads an installed word and records any error. -/
  | patrolScrub (corrected : Bool) (uncorrectable : Bool)
  /-- SR_ENTER (R433): DRM.CTRL.SR_ENTER puts every channel in self-refresh, or is refused. -/
  | srEnter
  /-- AUTO_SELF_REFRESH (R433): With AUTO_SR, SR.IDLE_ET event ticks pass without a request, and self-refresh entry begins. -/
  | autoSelfRefresh
  /-- SR_EXIT (R434): DRM.CTRL.SR_EXIT, a port request or a sequencer start ends self-refresh. -/
  | srExit
  /-- OUT_OF_RANGE_CLEAR (R415): DRM.INFO.CLEAR zeroes OUT_OF_RANGE. -/
  | outOfRangeClear
  /-- PANIC_CLEAR (R425): DRM.PANIC.CLEAR zeroes the panic count. -/
  | panicClear
  /-- SR_CLEAR (R433): DRM.SR.CLEAR zeroes the self-refresh entry count. -/
  | srClear
  /-- ECC_STAT_CLEAR (R432): ECC_STAT.CLEAR zeroes the DRAM error counts and ECC_ADDR. -/
  | eccStatClear (m : Nat)
  /-- TIM_OFFSET (R437): Calibration procedure 0x01 measures each unit's input offsets. -/
  | timOffset (b : Nat) (offsets : List (Int × Int))
  /-- FINE_LINEARITY (R437): Calibration procedure 0x02 measures the fine delay lines' linearity points. -/
  | fineLinearity (b : Nat) (images : List Word)
  /-- DRIVE_DESKEW (R442): Calibration procedure 0x03 measures DRV and DEN deskews. -/
  | driveDeskew (b : Nat) (raw : List (Int × Int)) (residual : List (Nat × Nat))
  /-- ROUND_TRIP (R437): Calibration procedure 0x04 measures the PE round-trip delay. -/
  | roundTrip (b : Nat) (m : Nat)
  /-- ROUND_TRIP_TIMEOUT (R441): Procedure 0x04 finds no return edge within 4,095 ct, and the run aborts. -/
  | roundTripTimeout (b : Nat)
  /-- COMPARE_DESKEW (R442): Calibration procedure 0x05 measures CMPH and CMPL deskews. -/
  | compareDeskew (b : Nat) (raw : List (Int × Int)) (residual : List (Nat × Nat)) (eyes : List (Nat × Nat))
  /-- ADC (R437): Calibration procedure 0x06 measures converter offset and gain corrections. -/
  | adc (b : Nat) (values : List (Int × Int)) (residual : List Nat)
  /-- DCLK_DUTY (R437): Calibration procedure 0x07 measures DUT clock duty corrections. -/
  | dclkDuty (b : Nat) (dutyA : Int) (dutyB : Int)
  /-- BAY_FULL (R437): Calibration procedure 0x0F runs procedures 0x01 to 0x07 in order. -/
  | bayFull (b : Nat)
  /-- TIME_TRIM (R445): Procedure 0x10 captures ADDEND − NOMINAL of the selected domain. -/
  | timeTrim
  /-- CAL_DONE (R440): A calibration run ends successfully, and its values and quality figures are applied in one tick. -/
  | calDone (b : Nat)
  /-- CAL_ABORT (R441): CAL.CTRL.ABORT aborts the named bays' runs, keeping the values in force. -/
  | calAbort (mask : Nat) (src : Src)
  /-- STORE_COMMIT (R450): CAL.CTRL.STORE_COMMIT snapshots calibrated values and writes them to the inactive bank. -/
  | storeCommit
  /-- CAL_STORE (R450): A store commit ends, making the new bank active or reporting STORE_FAIL. -/
  | calStore (ok : Bool)
  /-- DRIFT_UPDATE (R453): Every 10 ms, each bay's DRIFT is updated and TEMP_WARN judged. -/
  | driftUpdate
  /-- EYE_MEASURE (R451): Every 1 s on an ACTIVE awake link, each Oluel lane's eye width is measured. -/
  | eyeMeasure (p : Nat) (eyes : BitVec 32)
  /-- SEQ_RESET (R461): RAS.RESET.SEQ_RESET stops and resets a sequencer. -/
  | seqReset (q : Nat) (src : Src)
  /-- SEQ_RESET_DONE (R461): A sequencer reset's buffers and paging state are emptied, and RESETTING clears. -/
  | seqResetDone (q : Nat)
  /-- BAY_RESET (R462): RAS.RESET.BAY_RESET resets a bay's registers and memories. -/
  | bayReset (b : Nat) (src : Src)
  /-- BAY_RESET_DONE (R462): A bay reset completes, and its calibration is reloaded. -/
  | bayResetDone (b : Nat) (slices : Nat) (failed : List Nat)
  /-- WARM (R460): RAS.RESET.WARM with KEY performs a host warm reset. -/
  | warm (key : Nat)
  /-- FUNCTION_LEVEL_RESET (R295): A PCI Express Function Level Reset performs a host warm reset. -/
  | functionLevelReset
  /-- D3HOT_TO_D0 (R295): A return from D3hot to D0 performs a host warm reset. -/
  | d3hotToD0
  /-- PERST (R460): PERST# resets the device and its PCI Express link. -/
  | perst
  /-- POWER_ON (R465): Release of PORST_N begins the power-on sequence. -/
  | powerOn
  /-- HOST_READY (R465): Reset initialisation completes, and HOST_READY is set. -/
  | hostReady (slices : List Nat) (failed : List Nat)
  /-- RAIL_FAULT (R467): A rail leaves its band for more than 2 µs, and the device parks and holds itself in reset. -/
  | railFault (rail : Nat)
  /-- RAS_UE (R456): An uncorrectable on-chip memory error is contained to its bay, sequencer, page, slot or core. -/
  | rasUe (unit : Nat) (index : Nat) (memory : Nat) (address : Nat)
  /-- RAS_ERR_STAT_CLEAR (R456): RAS.ERR_STAT.CLEAR zeroes the on-chip error counts and ERR_LOG. -/
  | rasErrStatClear
  /-- TEMP_UPDATE (R470): Every 10 µs the sensors update, and the hottest reading sets warnings, thermal stops or a trip. -/
  | tempUpdate (readings : List Int)
  /-- PEAK_CLEAR (R469): THERM.TEMP.CLEAR sets PEAK to TEMP. -/
  | peakClear (i : Nat)
  /-- FE_START (R490): FE_CTRL.START starts or queues a front-end command list. -/
  | feStart (b : Nat) (list : Nat)
  /-- FE_ABORT (R490): FE_CTRL.ABORT ends the running list after the word in progress. -/
  | feAbort (b : Nat)
  /-- FE_WRITE (R489): A list WRITE word shifts DATA out on the SPI bus and captures MISO bits. -/
  | feWrite (b : Nat) (miso : Nat)
  /-- FE_DELAY (R489): A list DELAY word pauses the list for COUNT event ticks. -/
  | feDelay (b : Nat)
  /-- FE_DELAY_EXPIRY (R489): A DELAY's count expires, and the list resumes. -/
  | feDelayExpiry (b : Nat)
  /-- WAITALERT (R489): A list WAITALERT word waits for FE_ALERT_N low. -/
  | waitalert (b : Nat)
  /-- FE_TIMEOUT (R489): A WAITALERT's TIMEOUT passes, and the list ends with TIMEOUT set. -/
  | feTimeout (b : Nat)
  /-- FE_LIST_END (R489): A list END word, or word 31, ends the list and starts any queued request. -/
  | feListEnd (b : Nat)
  /-- FE_ALERT (R491): A falling edge of FE_ALERT_N sets ALERT_SEEN and may post an event, set a flag or resume a WAITALERT. -/
  | feAlert (b : Nat) (low : Bool) (fell : Bool)
  /-- FE_LDATA_WRITE (R491): A write of FE_LDATA stores a list word, or is ignored with LIST_BUSY. -/
  | feLdataWrite (b : Nat) (data : Word)
  /-- FE_STAT_CLEAR (R490): FE_STAT.CLEAR zeroes OVERRUN. -/
  | feStatClear (b : Nat)
  /-- REGISTER_READ (R507): A host or core register read is sampled at an event tick; a 32-bit lower-half read captures the upper half for its requester, and an AUTOINC data read advances its index. -/
  | registerRead (req : Requester) (off : Nat) (bytes : Nat)
  /-- CRC_ERR (R279): An Oluel frame arrives whose CRC fails; it is discarded with its header, CRC_ERR increments and a NAK is sent. -/
  | crcErr (b : PortBytes)
  /-- FORWARDING (R289): A unicast MAIL or BULK frame for another chip arrives and is forwarded on its route with TTL decremented, or is discarded and counted. -/
  | forwarding (p : Nat) (raw : List Nat)
  /-- ACK_LINK_FRAME (R280): With no frame to send, a receiver sends a LINK frame within 64 slots of the oldest unacknowledged frame it has received. -/
  | ackLinkFrame (p : Nat)
  /-- MARKER_GROUP (R271): A marker group arrives; the receiver deskews the lanes, matches rates by FILLER, and counts BIP_ERR on a parity mismatch. -/
  | markerGroup (p : Nat) (parityOk : Bool) (timing : GroupTiming)
  /-- TRAINING_STATE_EXIT (R273): Both partners reach the exit condition of DETECT, EQUALISE or ALIGN, and the port moves to the next training state. -/
  | trainingStateExit (e : PortExit)
  /-- SLEEP_BLOCK (R293): The partner's SLEEP block arrives; the receiver holds its equaliser state and sets RX_ASLEEP. -/
  | sleepBlock (p : Nat)
  /-- PARTNER_WAKE (R294): The partner's TRAIN burst arrives on a sleeping receive direction; the receiver relocks with its held coefficients and RX_ASLEEP clears. -/
  | partnerWake (p : Nat)
  /-- PIN_EVENT (R388): An oversample shows CMPH or CMPL of a local channel rising, and an acquisition pin-event condition of kind 1 or 2 is sampled and assigned to a record. -/
  | pinEvent (b : Nat) (chan : Nat) (kind : Nat)
  /-- LOAD_ERR (R195): A page-load read completion returns an error status, is poisoned, or times out, and the load attempt fails and is retried or the page is marked BAD. -/
  | loadErr (page : Nat) (cause : Nat)
  /-- TIMETX_COMPLETE (R322): The last bit of a TIMETX frame leaves the time port, and its descriptor completes with its transmit stamp. -/
  | timetxComplete (ago : Nat)
  /-- TIME_PORT_LINK (R252): The time port's 1000BASE-X or SGMII link comes up or goes down, and PORT_CFG.LINK changes. -/
  | timePortLink (up : Bool)
  /-- PCIE_LINK (R295): The PCI Express link trains, retrains or goes down, and HIF.LINK speed, width and DL_UP change. -/
  | pcieLink (speed : Nat) (width : Nat) (up : Bool)
  /-- SLEW_COMPLETE (R243): The slewed difference Δ reaches zero after a domain switch, and SLEWING clears. -/
  | slewComplete
deriving DecidableEq, Repr

end Sys2Proof
end

