-- ==== Sys2Proof/Decode.lean ====
section
/-!
DEFINITION. Decode.lean: the command that a word of the opcode table spells. No row of spec/opcode_table.json gives bits (every
row's list of fields is empty): no word spells a command.
-/
namespace Sys2Proof

/-- The command a table word spells: none, for every width and word. (DEDUCED, log entry 29.) -/
def decodeTableWord (_nbits _w : Nat) : Option Instr := none

end Sys2Proof
end

