-- ==== Sys2Proof/Machine/Assoc.lean ====
section
/-!
DEFINITION. Assoc.lean: sparse tables in one canonical form: keys strictly rising, no entry equal to what an unlisted
key reads as. Local DRAM (R185), the register file (R499) and the indexed units are held in this form.
-/
namespace Sys2Proof.Machine

/-- What the list holds at `k`. -/
def Assoc.find {K V : Type} [DecidableEq K] (k : K) : List (K × V) → Option V
  | [] => none
  | e :: l => if e.1 = k then some e.2 else Assoc.find k l

/-- The value at `k`: the listed one, or the default `d k`. -/
def Assoc.rd {K V : Type} [DecidableEq K] (d : K → V) (l : List (K × V)) (k : K) : V :=
  match Assoc.find k l with
  | some v => v
  | none => d k

/-- `l` without key `k`. -/
def Assoc.drop {K V : Type} [DecidableEq K] (k : K) : List (K × V) → List (K × V)
  | [] => []
  | e :: l => if e.1 = k then Assoc.drop k l else e :: Assoc.drop k l

/-- `l` with `v` at key `k`, in the place that `lt` gives it. -/
def Assoc.put {K V : Type} [DecidableEq K] (lt : K → K → Bool) (k : K) (v : V) : List (K × V) → List (K × V)
  | [] => [(k, v)]
  | e :: l =>
    if e.1 = k then (k, v) :: l
    else if lt k e.1 then (k, v) :: e :: l
    else e :: Assoc.put lt k v l

/-- Writes `v` at `k`, keeping the canonical form: writing the default removes the entry. -/
def Assoc.wr {K V : Type} [DecidableEq K] [DecidableEq V] (lt : K → K → Bool) (d : K → V) (l : List (K × V)) (k : K)
    (v : V) : List (K × V) :=
  if v = d k then Assoc.drop k l else Assoc.put lt k v l

/-- The canonical form. -/
abbrev Assoc.Wf {K V : Type} (lt : K → K → Bool) (d : K → V) (l : List (K × V)) : Prop :=
  l.Pairwise (fun a b => lt a.1 b.1 = true) ∧ ∀ e ∈ l, e.2 ≠ d e.1

/-- The order of natural-number keys. -/
def natLt (a b : Nat) : Bool := decide (a < b)

end Sys2Proof.Machine
end

