-- ==== Sys2Proof/Config.lean ====
section
/-!
DEFINITION. Config.lean: what one device fixes and the free values. None of these constants has a body, so no proof
can lean on a value of it (log entries 4 and 5).
-/
namespace Sys2Proof
namespace Config

/-- GLOBAL.IDENT.GRADE, "Per device" (R3): even on the -48 grade (0x01), odd on the -32 grade (0x02). (DESIGN CHOICE, log entry 4.) -/
opaque gradeCode : Nat

/-- GLOBAL.IDENT.STEPPING modulo 256, "Per device" (R3). (DESIGN CHOICE, log entry 4.) -/
opaque stepping : Nat

/-- CORE.STATUS.AUTH_REQUIRED modulo 2, "Fuse" (R333). (DESIGN CHOICE, log entry 4.) -/
opaque authRequired : Nat

/-- CORE.KEYHASH[i].HASH, "Fuse" (R333). (DESIGN CHOICE, log entry 4.) -/
opaque keyHash : Nat → Nat

/-- Coefficient `i` of the default response of the converter filters, "Default response" (R373). (DESIGN CHOICE, log entry 4.) -/
opaque defaultCoef : Nat → Nat

/-- One output of a half-band stage from its 11 inputs, the oldest first, whose taps the spec does not give (R369). (DESIGN CHOICE, log entry 4.) -/
opaque halfBand : List Int → Int

/-- Word `j` of what calibration record `i` holds in the bank that the device is shipped with (R449). (DESIGN CHOICE, log entry 4.) -/
opaque shippedCal : Nat → Nat → Nat

/-- The device's serial number, "from fuses" (R295). (DESIGN CHOICE, log entry 4.) -/
opaque serialNumber : Nat

/-- The receive and the transmit pipeline of an Oluel port together, in ps, which the spec does not give (R292). (DESIGN CHOICE, log entry 4.) -/
opaque linkPipelines : Nat

/-- Double word `i` of configuration space, where R295 names a structure whose contents it does not give. (DESIGN CHOICE, log entry 69.) -/
opaque configWord : Nat → Nat

/-- The `n`-th value that the spec leaves open: a different, unconstrained value at every use. (DESIGN CHOICE, log entry 5.) -/
opaque freeValue : Nat → Nat

end Config
end Sys2Proof
end

