-- ==== Sys2Proof/Machine/State.lean ====
section
/-!
DEFINITION. State.lean: everything the spec gives the block, as plain data, and the block right after reset.
-/
namespace Sys2Proof.Machine

/-- The register names of BAR0, in the order of R499 (19_register_index.md): 232 names, of which ADC_URGENT_RES is two
registers here. -/
inductive RegName
  | globalIdent
  | globalBaymap
  | globalBaymapStatus
  | globalGpioCfg
  | globalGpioOut
  | globalGpioIn
  | clkStatus
  | clkRefmon
  | clkAlign
  | clkAlignLoad
  | clkEtcount
  | clkAlignResult
  | clkPrecStats
  | hifLink
  | hifEventStat
  | ringBase
  | ringCfg
  | ringCtrl
  | ringIndex
  | ringIdxwb
  | ringStatus
  | ringEvmask
  | timeCtrl
  | timeStatus
  | timeDelta
  | timeDomDiff
  | timePortCfg
  | timePortLat
  | timePortMac
  | timePpsCfg
  | timePpsInSec
  | timePpsInNs
  | timeSnapSec
  | timeSnapNs
  | timeRaisePeermask
  | timeRaiseSec
  | timeRaiseNs
  | domCtrl
  | domNominal
  | domAddend
  | domGain
  | domLock
  | domSampleDelay
  | domSampleOffset
  | domStep
  | domStatus
  | oluChip
  | oluBcast
  | oluGflags
  | oluGfOp
  | oluBulkWin
  | oluRoute
  | oluBulkSrc
  | oluBulkDst
  | oluBulkCtrl
  | olupCtrl
  | olupStatus
  | olupErrStat
  | olupTickchk
  | drmCtrl
  | drmOrg
  | drmInfo
  | drmPrio
  | drmPanic
  | drmSr
  | drmScrub
  | mchCtrl
  | mchTimingA
  | mchTimingB
  | mchDlySel
  | mchDlyData
  | mchDlyApply
  | mchTrainCmd
  | mchTrainAddr
  | mchTrainPat
  | mchTrainRes
  | mchEccStat
  | mchEccAddr
  | pgtCtrl
  | pgtStatus
  | pgtFrames
  | pgtWinCmd
  | pgtWinData
  | pgtLoadStat
  | pgtErrStat
  | pgtLookahead
  | dispCtrl
  | dispOp
  | dispLevelDepth
  | dispCoreStat
  | dispGpioRoute
  | dispFlowCfg
  | dispFlowStat
  | dispThrCfg
  | dispThrState
  | dispThrWait
  | coreCtrl
  | coreStatus
  | coreLoadAddr
  | coreLoadCtrl
  | coreKeyhash
  | coreDramwin
  | coreMailbox
  | coreMailIdx
  | calCtrl
  | calStatus
  | calChUncal
  | calBayCfg
  | calBayStat
  | calRefpath
  | calTimeTrim
  | calOluEye
  | rasReset
  | rasCtrl
  | rasStatus
  | rasErrStat
  | rasErrLog
  | thermCfg
  | thermStatus
  | thermTemp
  | bayPark
  | bayDeskew
  | bayEdgeStat
  | bayDclkCtrl
  | bayDclkPeriod
  | bayStaticMask
  | bayFailCount
  | bayFailSnap
  | bayFailShadow
  | bayCmpStat
  | bayFdlin
  | bayAdcCtrl
  | bayAdcCfg
  | bayAdcFilt
  | bayAdcRatio
  | bayAdcEnt
  | bayAdcDelay
  | bayAdcStat
  | bayAdcCounts
  | bayAdcAccCfg
  | bayAdcWin
  | bayAdcWinOpen
  | bayAdcWinClose
  | bayAdcResSum
  | bayAdcResCnt
  | bayAdcResMinmax
  | bayAdcUrgentRes
  | bayAdcUrgentMm
  | bayAdcCoefSel
  | bayAdcCoefData
  | bayAcqCtrl
  | bayAcqCfg
  | bayAcqTime
  | bayAcqRing
  | bayAcqPtr
  | bayAcqStat
  | bayAcqCounts
  | bayAcqCond
  | bayAcqLevel
  | bayTimCtrl
  | bayTimCfg
  | bayTimCount
  | bayTimTime
  | bayTimNotify
  | bayTimResult
  | bayTimAux
  | bayTimStat
  | bayFeCfg
  | bayFeCtrl
  | bayFeStat
  | bayFeLsel
  | bayFeLdata
  | bayFeRx
  | bayCalBay
  | bayTimOfs
  | bayAdcCal
  | bayCalQual
  | bayAdcQual
  | seqCtrl
  | seqEntry
  | seqStatus
  | seqFaultInfo
  | seqFaultCycle
  | seqCycle
  | seqPosition
  | seqCondLatency
  | seqCondCtrl
  | seqCondGfsel
  | seqPegWatchdog
  | seqLaunchDelay
  | seqLflags
  | seqMatchCtrl
  | seqBarrier
  | seqLoopAddr
  | seqLoopCount
  | seqStack
  | seqTsCtrl
  | seqTsDirty
  | seqTsSel
  | seqTsEdge
  | seqTsWave
  | seqTsPeriod
  | seqMask
  | seqSiteFail
  | seqFailstop
  | seqFailGf
  | seqFfseq
  | seqFfsite
  | seqLogCfg
  | seqLogPtr
  | seqLogStat
  | seqCapCfg
  | seqCapPtr
  | seqCapStat
  | seqCapSel
  | seqUnderrun
  | seqUnderrunInfo
  | seqUnderrunCycle
  | seqResumeDelay
  | seqStallCtrl
  | seqStallTime
  | seqLcacheStat
  | seqNostallStart
  | seqNostallEnd
  | siteCtrl
  | siteStatus
  | siteDirty
  | siteEpoch
  | sitekCfg
  | sitekCtrl
  | sitekStatus
  | sitekResult
  | sitekPinmap
deriving DecidableEq, Repr

/-- A register of BAR0: its name, the instance index of its block and its element index (R8, R501). -/
structure RegKey where
  name : RegName
  inst : Nat
  elem : Nat
deriving DecidableEq, Repr

/-- The objects of R62 on which same-tick events are judged. -/
inductive Obj
  | seq (s : Nat)
  | store (s : Nat)
  | bay (b : Nat)
  /-- one W1C status bit, or one count cleared by a CLEAR bit -/
  | field (k : RegKey) (lo : Nat)
  | gf (i : Nat)
  | thread (j : Nat)
  | threadFlag (j i : Nat)
  | flow (f : Nat)
  | ring (q : Nat)
  | raise (e : Nat)
  | tim (m : Nat)
  | acq (b : Nat)
  | adcSeq (b : Nat)
  | adcUrgent (b : Nat)
  | dclk (b g : Nat)
  | align
deriving DecidableEq, Repr

/-- The event that decides an object in the present tick: its class, its source rank (R57) and its effect. -/
structure TickEvent where
  obj  : Obj
  cls  : Nat
  rank : Nat
  eff  : Nat
deriving DecidableEq, Repr

/-- One requester's held lower half and captured upper half (R10, R11). -/
structure Halves where
  /-- the register offset and the 32 bits held for it -/
  held : Option (Nat × Nat) := none
  /-- the register offset and the upper 32 bits captured from it -/
  captured : Option (Nat × Nat) := none
  /-- the value the requester's last read returned -/
  lastRead : Word := 0
deriving DecidableEq, Repr

/-- What the block sends out at its pins and links: host writes, interrupts, frames, levels. -/
inductive Output
  /-- a posted write of words to host memory (R308) -/
  | hostWrite (addr : Nat) (words : List Word)
  /-- a posted write of single bytes to host memory (frame buffers) -/
  | hostBytes (addr : Nat) (bytes : List Nat)
  /-- a read of host memory is asked for: address and bytes -/
  | hostRead (addr bytes : Nat)
  /-- `count` reads of 4,096 bytes each, in ascending order from a 4 KiB-aligned address on (R193) -/
  | pageReads (addr count : Nat)
  /-- a configuration request completes: its data, or Configuration Request Retry Status (R296) -/
  | configReply (value : Nat)
  | configRetry
  /-- an error message to the root complex: 0 correctable, 1 non-fatal, 2 fatal (R297) -/
  | errorMessage (kind : Nat)
  /-- an MSI-X message of a vector: its address and its data -/
  | msix (vector addr data : Nat)
  /-- a frame of an Oluel port takes its slot (R270) -/
  | frame (p : Nat) (f : Frame)
  /-- a scrambled block of 66 bits, its sync header in bits 1 and 0, on a ball pair of OLU_TX (R267, R268) -/
  | block (pair word : Nat)
  /-- the lanes of an Oluel port go to electrical idle; leave it with a burst of TRAIN blocks and a marker group (R277, R293, R294) -/
  | oluIdle (p : Nat)
  | oluWake (p : Nat)
  /-- SYNC_OUT driven high for 4 REFCLK periods (R45) -/
  | syncPulse
  /-- PPS_OUT rises `at_` fu (1,024 to the core tick) after the present boundary, corrected for `lat` ps of output latency; PPS_OUT
  falls (R257) -/
  | pps (at_ lat : Nat)
  | ppsLow
  /-- a frame leaves the time port: its octets, padding and FCS included (R322) -/
  | timeFrame (octets : List Nat)
  /-- a transition of DRV (path 0) or DEN (path 1) of channel `c`, placed at `at_` taps (1,024 to the core tick) (R130, R141) -/
  | edge (c path at_ : Nat) (level : Bool)
  /-- an edge of DUT_CLK of generator `g` of bay `b`, at `at_` fu (R143) -/
  | dclkEdge (b g at_ : Nat) (level : Bool)
  /-- CMPH and CMPL of channel `c` are sampled at these taps, round trip included (R152) -/
  | sample (c atH atL : Nat)
  /-- a WRITE of the front-end master of bay `b` on a chip select: mode, divider, bits, data, and the instant (half event
  ticks) of its first SCLK edge (R487, R489) -/
  | spi (b cs mode div bits data at_ : Nat)
  /-- MEM_RESET_N is asserted (R417) -/
  | memReset
  /-- THERMTRIP_N is asserted (R467, R471) -/
  | thermtrip
deriving DecidableEq, Repr

/-- The clocks as they stand at one core tick (R235, R236, R243), in units of 2⁻³² ns: both domains with their addends, Δ with what it
slews in a core tick, and the selection. -/
structure Clocks where
  dom0  : Int := 0
  dom1  : Int := 0
  add0  : Nat := 3579139413
  add1  : Nat := 3579139413
  delta : Int := 0
  slew  : Nat := 715800
  sel   : Nat := 0
deriving DecidableEq, Repr

/-- A change of the timebase (R246, R249): what a leader sends and a follower applies at a named boundary. -/
inductive TimeChange
  /-- a new ADDEND of domain `d` -/
  | addend (d a : Nat)
  /-- KP, KI and ILIMIT of domain `d`; no message carries them -/
  | gain (d kp ki ilimit : Nat)
  /-- a step of domain `d` by `ns` nanoseconds -/
  | step (d : Nat) (ns : Int)
  /-- a selection of domain `d`; Δ keeps station time continuous -/
  | select (d : Nat)
  /-- a selection alone, as a follower receives it -/
  | selectOnly (d : Nat)
  /-- Δ (2⁻³² ns) at the start of a slew, as a follower receives it -/
  | slew (delta : Int)
deriving DecidableEq, Repr

/-- What the present tick has brought to the timebase (R246), besides what no order is stated for. -/
inductive TimeAsk
  /-- an accepted sample of domain `d`: θ in units of 2⁻¹⁶ ns (R239) -/
  | sample (d : Nat) (theta : Int)
  /-- INT_CLEAR of domain `d` -/
  | clearI (d : Nat)
  /-- a step of domain `d` by `ns` nanoseconds -/
  | step (d : Nat) (ns : Int)
  /-- a write of ADDEND or of GAIN -/
  | write (c : TimeChange)
  /-- a selection -/
  | select (d : Nat)
deriving DecidableEq, Repr

/-- The servo of one domain (R239 to R242). -/
structure Servo where
  /-- I of R240, in units of 2⁻¹⁶ ns -/
  integ : Int := 0
  /-- path delays of the last 16 samples submitted, newest first (R239) -/
  delays : List Nat := []
  /-- consecutive accepted samples within LOCK_NS -/
  good : Nat := 0
  /-- tick of the last accepted sample, or of the entry into ACQUIRING (R242) -/
  lastAccept : Nat := 0
deriving DecidableEq, Repr

/-- The name of a descriptor that waits for its end: its ring, the ring's generation and its index. -/
structure Token where
  ring : Nat
  gen  : Nat
  idx  : Nat
deriving DecidableEq, Repr

/-- A frame handed to the time port whose last bit has not left it (R322). -/
structure TxFrame where
  tok   : Token
  buf   : Nat
  len   : Nat
  stamp : Bool
deriving DecidableEq, Repr

/-- The station timebase (R235 to R258). -/
structure TimeX where
  /-- core ticks counted -/
  ct : Nat := 0
  /-- the clocks from a core tick on, the newest first: a change of the timebase adds an entry -/
  timeline : List (Nat × Clocks) := [(0, {})]
  /-- what the present tick has brought, oldest first (R246) -/
  asks : List TimeAsk := []
  servo0 : Servo := {}
  servo1 : Servo := {}
  /-- changes waiting for the boundary (ETCOUNT) named with each (R249, R250) -/
  pendingChanges : List (Nat × TimeChange) := []
  /-- a follower waits for the next check message (R250) -/
  joining : Bool := false
  /-- CHECK_A waiting for its CHECK_B: the boundary (ETCOUNT) and both domain clocks (R250, R282) -/
  checkA : Option (Nat × Int × Int) := none
  /-- CHECK_B waiting for its CHECK_A: the boundary, both addends, Δ and the selection (R250, R282) -/
  checkB : Option (Nat × Nat × Nat × Int × Nat) := none
  /-- tick of the last check message (R251) -/
  lastCheck : Nat := 0
  /-- core tick (counted from reset) of the last accepted PPS_IN edge (R258) -/
  lastPps : Option Nat := none
  /-- PPS_OUT is high until this core tick (R257) -/
  ppsFalls : Option Nat := none
  /-- frames handed to the time port, oldest first (R322) -/
  txQueue : List TxFrame := []
deriving DecidableEq, Repr

/-- One transmit lane: its scrambler's last 58 bits and the parity of its blocks since the last ALIGN (R268). -/
structure LaneX where
  scr : Nat := 0
  bip : Nat := 0
deriving DecidableEq, Repr

/-- What the transmit direction of an Oluel port sends at block times (R268, R270, R271). -/
structure TxLine where
  lanes : List LaneX := List.replicate 4 {}
  /-- block times since the link came up, and what is left over of the core ticks, in 33rds of a block time -/
  time : Nat := 0
  rest : Nat := 0
  /-- the second half of the slot in progress: the blocks of the four lanes -/
  half : List (Nat × List Nat) := []
  /-- FILLER blocks of the marker group in progress that are still to be sent -/
  fill : Nat := 0
  /-- the block time at which the next group falls due, and its number -/
  due : Nat := 16384
  mark : Nat := 0
deriving DecidableEq, Repr

/-- What OLU[p] holds beside its registers (R267 to R281, R293). -/
structure PortX where
  /-- tick at which the present training attempt began (R274) -/
  attemptStart : Nat := 0
  /-- tick at which the wait between attempts ends (R274) -/
  waitUntil : Nat := 0
  /-- tick at which the eyes were last measured (R451) -/
  eyeAt : Nat := 0
  /-- partner chip ID the retry buffer belongs to (R276) -/
  bufferPartner : Option Nat := none
  /-- records of link-ups and link-downs of the present tick: code and detail (R277) -/
  reports : List (Nat × Nat) := []
  /-- receive lanes whose polarity is inverted, and corrected (R267) -/
  inverted : Nat := 0
  /-- the four lanes are aligned (R271) -/
  aligned : Bool := false
  /-- equaliser coefficients of the four lanes: receive, and transmit as the partner requests them (R269) -/
  rxCoef : List Nat := []
  txCoef : List Nat := []
  /-- blocks by which the receiver's elastic buffer is fuller than at the link-up (R272) -/
  elastic : Int := 0
  line : TxLine := {}
  /-- frames that wait to be sent: each with the token that its sending completes, where it has one -/
  queue : List (Frame × Option Token) := []
  /-- the retry buffer: frames sent and not acknowledged, oldest first (R280) -/
  retry : List (Frame × Option Token) := []
  /-- how many frames, the newest of the retry buffer, are still to be resent (R280) -/
  again : Nat := 0
  txSeq : Nat := 0
  rxExpect : Nat := 0
  /-- a frame has been received since the link came up: ACKSEQ is valid -/
  rxAny : Bool := false
  /-- a NAK has been decided and the expected frame has not arrived (R280) -/
  nakSent : Bool := false
  /-- a LINK frame waits for a slot; it carries a NAK (R280) -/
  linkOwed : Bool := false
  nakOwed : Bool := false
  /-- a sequenced frame has been received and not yet acknowledged, since this tick (R280) -/
  ackOwed : Option Nat := none
  /-- consecutive resends that have not advanced ACKSEQ (R280) -/
  resends : Nat := 0
  /-- tick at which ACKSEQ last advanced or the buffer stopped being empty (R280) -/
  ackTick : Nat := 0
  /-- credits the partner has granted (R281) -/
  creditRaise : Nat := 0
  creditMail : Nat := 0
  creditBulk : Nat := 0
  /-- frames of each credited class freed here and not yet returned -/
  owedRaise : Nat := 0
  owedMail : Nat := 0
  owedBulk : Nat := 0
  /-- tick of the last frame sent (R293) -/
  lastSent : Nat := 0
deriving DecidableEq, Repr

/-- A BULK transfer that this device sends, one for each channel (R288). -/
structure BulkTx where
  chan : Nat
  chip : Nat
  port : Nat
  src  : Nat
  len  : Nat
  /-- next DATA INDEX, while frames are left to send -/
  next : Option Nat := some 0
deriving DecidableEq, Repr

/-- A BULK transfer that this device receives, one for each originator chip and TAG (R288). -/
structure BulkRx where
  chip : Nat
  tag  : Nat
  port : Nat
  base : Nat
  len  : Nat
  /-- next DATA INDEX -/
  next : Nat := 0
deriving DecidableEq, Repr

/-- Oluel state beside the registers. -/
structure OluX where
  ports : List (Nat × PortX) := []
  bulkTx : List BulkTx := []
  bulkRx : List BulkRx := []
  /-- entries of the FLAG frames of the present tick, oldest first (R283) -/
  flagOut : List Nat := []
deriving DecidableEq, Repr

/-- A descriptor read from host memory: its ring index and its four words (R310). -/
structure Desc where
  idx : Nat
  w0  : Word
  w1  : Word
  w2  : Word
  w3  : Word
deriving DecidableEq, Repr

/-- A descriptor that has begun: its write-back status and words once it has completed (R311). -/
structure Run where
  d    : Desc
  done : Option (Nat × Word × Word × Word) := none
deriving DecidableEq, Repr

/-- A completion record that waits for room in the COMPLETION ring (R314). -/
structure CompRec where
  opcode : Nat
  status : Nat
  cookie : Nat
  idx    : Nat
  stamp  : Nat
deriving DecidableEq, Repr

/-- What RING[q] holds beside its registers (R299 to R320). -/
structure RingX where
  /-- generation, advanced by a ring reset: what began before it is never written back (R305) -/
  gen : Nat := 0
  /-- index of the next descriptor to be read -/
  readIdx : Nat := 0
  /-- descriptors read and not begun, oldest first -/
  fetched : List Desc := []
  /-- receive buffers of a TIMERX ring that have been supplied and not used, oldest first (R322) -/
  ready : List Desc := []
  /-- descriptors begun and not written back, oldest first -/
  running : List Run := []
  /-- the completed command whose record is not yet written (R314) -/
  recWait : Option CompRec := none
  /-- write-backs a barrier still waits for, by ring; `none` where no barrier waits (R320) -/
  barrier : Option (List (Nat × Nat)) := none
  /-- entries were written in this tick: an index write-back is due (R308) -/
  wrote : Bool := false
  /-- entries not yet signalled, and the tick of the first of them (R309) -/
  unsignalled : Nat := 0
  firstUnsignalled : Nat := 0
  /-- a write-back with header IRQ = 1 is not yet signalled (R309) -/
  irqAsked : Bool := false
  /-- the ring's MSI-X message is sent in this tick, after its index write-back (R308, R309) -/
  irqNow : Bool := false
  /-- a ring reset was sampled in this tick: nothing is written for the ring from the next on (R305) -/
  ending : Bool := false
  /-- event records dropped since the ring last had room (R324) -/
  lost : Nat := 0
  /-- tick of the last index of a completion record: the next command begins after it (R313) -/
  lastRecord : Option Nat := none
deriving DecidableEq, Repr

/-- The function's configuration space (R295): what software has written there and what the device reports there (R297). -/
structure PcieX where
  /-- Command register: bit 2 is Bus Master Enable -/
  command : Nat := 0
  cacheLine : Nat := 0
  intLine : Nat := 0
  /-- bases of BAR0 and BAR2 -/
  bar0 : Nat := 0
  bar2 : Nat := 0
  /-- power state: 0 D0, 3 D3hot -/
  power : Nat := 0
  /-- MSI-X Enable (bit 1) and Function Mask (bit 0) -/
  msixCtl : Nat := 0
  /-- Device Control: error reporting, Maximum Payload Size, Maximum Read Request Size -/
  devCtl : Nat := 0x2000
  /-- Device Control 2: completion timeout, 10-bit tags -/
  devCtl2 : Nat := 0
  linkCtl : Nat := 0
  linkCtl2 : Nat := 0
  /-- Device Status [3:0]: correctable, non-fatal, fatal, unsupported request -/
  devStatus : Nat := 0
  /-- AER: uncorrectable status, mask and severity, correctable status and mask -/
  uncor : Nat := 0
  uncorMask : Nat := 0
  uncorSev : Nat := 0x462030
  cor : Nat := 0
  corMask : Nat := 0x2000
deriving DecidableEq, Repr

/-- Host interface state beside the registers. -/
structure HostX where
  rings : List (Nat × RingX) := []
  /-- pairs (naming field, its index, named ring) whose mismatch has been reported (R307) -/
  typeReported : List (Nat × Nat × Nat) := []
  /-- MSI-X table entries by vector: address, data, mask bit (R504) -/
  msixTable : List (Nat × (Nat × Nat × Nat)) := []
  /-- MSI-X vectors pending (R504) -/
  msixPending : List Nat := []
  /-- tick of the live fuse arm (R319) -/
  fuseArm : Option Nat := none
  /-- fuse confirms that have been accepted and not ended (R319) -/
  fuseBlow : List Token := []
  /-- CMD_ABORT commands in progress: for each sequencer named, the outcome of its abort once it has one (R316) -/
  parts : List (Token × List (Nat × Option Nat)) := []
  /-- rings in the order in which their last commands completed (R314) -/
  recOrder : List Nat := []
  /-- rings whose failed record write is not yet reported (R306) -/
  failed : List Nat := []
  pcie : PcieX := {}
deriving DecidableEq, Repr

/-- A dispatcher operation of a control core (R346): of a store its argument, of a load none; `none` is an operation that is ignored. -/
inductive CoreOp
  | makeready (j : Nat)
  | cancel (j : Nat)
  | setflags (j flags : Nat)
  | clrflags (j flags : Nat)
  | reset (j : Nat)
  | setwait (mask : Nat)
  | wait
  | yield
  | switch
  | takeflags
  | submit (f handle : Nat)
  | take (f : Nat)
  /-- flow, item slot, record offset ÷ 32 in shared SRAM, DISCARD -/
  | release (f slot record : Nat) (discard : Bool)
  /-- offset ÷ 64 in shared SRAM of a block -/
  | sendmail (block : Nat)
deriving DecidableEq, Repr

/-- An entry of a core's operation queue (R347): the register that a load returns into (32 and up are f0 to f31), and whether the access
completes on entering the queue. -/
structure CoreEntry where
  op : CoreOp
  rd : Option Nat := none
  posted : Bool := true
deriving DecidableEq, Repr

/-- What a core waits for before its next instruction (R328, R347). -/
inductive CoreWait
  | no
  /-- a register load, to be sampled at the next boundary: destination and offset -/
  | load (rd off : Nat)
  /-- an operation that has entered the queue and has not completed -/
  | op
  /-- a place in the full operation queue -/
  | full (e : CoreEntry)
deriving DecidableEq, Repr

/-- One RV32IMAFC core (R326): its registers and its control and status registers; what its reset does not define holds zero. -/
structure CpuX where
  pc : BitVec 32 := 0
  /-- x1 to x31, f0 to f31, where they are not zero -/
  x : List (Nat × BitVec 32) := []
  f : List (Nat × BitVec 32) := []
  user : Bool := false
  mstatus : BitVec 32 := 0
  mie : BitVec 32 := 0
  mtvec : BitVec 32 := 0
  mcounteren : BitVec 32 := 0
  mscratch : BitVec 32 := 0
  mepc : BitVec 32 := 0
  mcause : BitVec 32 := 0
  mtval : BitVec 32 := 0
  fcsr : BitVec 32 := 0
  mcycle : BitVec 64 := 0
  minstret : BitVec 64 := 0
  /-- configuration byte and address register of each PMP region -/
  pmpcfg : List (Nat × Nat) := []
  pmpaddr : List (Nat × BitVec 32) := []
  /-- what etcounth has captured (R331) -/
  etHigh : BitVec 32 := 0
  /-- the word of a load-reserved whose reservation is held -/
  reserved : Option Nat := none
  /-- core clocks until the access in progress answers (R328) -/
  stall : Nat := 0
  wait : CoreWait := .no
deriving DecidableEq, Repr

/-- What one core holds (R326 to R341, R347). -/
structure CoreX where
  /-- the thread the core runs -/
  thread : Option Nat := none
  /-- tick at which that thread's slice began (R339) -/
  sliceStart : Nat := 0
  /-- mdispstat reason: 0 pre-emption, 1 cancel, 2 slice end, 3 migration (R331) -/
  reason : Nat := 0
  /-- what the core's last dispatcher load returned (R346) -/
  result : Nat := 0
  /-- ENTRY of the last accepted image (R332, R334) -/
  entry : Nat := 0
  /-- busy event ticks of the window in progress (R357) -/
  busy : Nat := 0
  /-- merrinfo (R331) -/
  errInfo : Nat := 0
  /-- the operation queue, oldest first (R347) -/
  queue : List CoreEntry := []
  /-- an operation of this core has been sampled in the present tick (R347) -/
  sampled : Bool := false
  /-- the own-thread operation that has been sampled and acts behind the tick's class events (R349) -/
  now : Option CoreEntry := none
  /-- the SENDMAIL whose block waits for the inbox (R356) -/
  mail : Option CoreEntry := none
  /-- register stores of this core that the next boundary samples: offset, bytes and word, oldest first (R327, R507) -/
  stores : List (Nat × Nat × Nat) := []
  cpu : CpuX := {}
deriving DecidableEq, Repr

/-- An item of an ordered flow (R351 to R353): its output is the record, or nothing where it is discarded. -/
structure Item where
  seq    : Nat
  handle : Nat
  taken  : Bool := false
  released : Option (Option (List Word)) := none
deriving DecidableEq, Repr

/-- FLOW[f] beside its registers. -/
structure FlowX where
  nextSeq : Nat := 0
  items : List Item := []
deriving DecidableEq, Repr

/-- Who waits for a mail to be written. -/
inductive MailFrom
  | link (p : Nat)
  | ring (t : Token)
  | core (c : Nat)
deriving DecidableEq, Repr

/-- A mail block (R355): the entry's fields, its data, and who brought it. -/
structure Mail where
  thread : Nat
  flag   : Nat
  len    : Nat
  chip   : Nat
  data   : List Nat
  source : MailFrom
deriving DecidableEq, Repr

/-- The dispatcher and the cores beside their registers. -/
structure DispX where
  /-- ready lists by level, head first (R338) -/
  ready : List (Nat × List Nat) := []
  /-- boundary at which each thread last became READY (R357) -/
  readyAt : List (Nat × Nat) := []
  /-- boundary at which each WAITING thread's timeout expires (R343) -/
  deadline : List (Nat × Nat) := []
  cores : List (Nat × CoreX) := []
  flows : List (Nat × FlowX) := []
  /-- mail held back while the inbox is full, oldest first (R287, R355) -/
  heldMail : List Mail := []
  /-- tick at which the present load window began (R357) -/
  windowStart : Nat := 0
  /-- ITCM, DTCM and shared SRAM by their alias addresses: bytes the device has written (R327, R332, R355) -/
  sram : List Host.Cell := []
  /-- uncorrectable words of shared SRAM: their alias addresses ÷ 4 (R456) -/
  badWords : List Nat := []
deriving DecidableEq, Repr

/-- The local DRAM controller and its devices beside the registers (R412 to R434). -/
structure DramX where
  /-- 64-bit words (by word address) that read uncorrectable until they are written (R431) -/
  poison : List Nat := []
  /-- shadow and active delays by signal: ((m·2 + sub)·2 + rank)·2 + write)·64 + lane (R419) -/
  shadow : List (Nat × Nat) := []
  active : List (Nat × Nat) := []
  /-- ranks whose refresh a pending APPLY still waits for, by channel (R419) -/
  waitRanks : List (Nat × List Nat) := []
  /-- mode registers written, by ((m·2 + sub)·2 + rank)·256 + address (R420) -/
  modeRegs : List (Nat × Nat) := []
  /-- postponed refreshes of rank r of MCH[m], by 2·m + r (R429) -/
  postponed : List (Nat × Nat) := []
  /-- ranks that report a refresh-rate requirement above 1x (R428) -/
  fast : List Nat := []
  /-- tick at which each rank's refresh interval began, by 2·m + r (R427), and that of the last poll of mode register 4 (R428) -/
  refreshed : List (Nat × Nat) := []
  polled : Nat := 0
  /-- word address that patrol scrub reads next (R432) -/
  scrubAt : Nat := 0
  /-- tick of the last port request (R433) -/
  lastReq : Nat := 0
  /-- tick at which self-refresh was entered -/
  srSince : Nat := 0
  /-- sequencers whose prefetch buffer was low when PANIC was set, or since (R425) -/
  low : List Nat := []
deriving DecidableEq, Repr

/-- What a sequencer's record asks of the bays at the first boundary at or after its cycle start (R105), and of flags and
barriers (R55, R103). -/
inductive SeqAct
  | gf (i : Nat) (set : Bool)
  /-- a trigger for the acquisition engine of bay `b`, and the record's start (fu) -/
  | trigger (b start : Nat)
  /-- a window edge of bay `b`: action of R107 and the record's start (fu) -/
  | window (b action start : Nat)
  | urgent (b entry : Nat)
  | timArm (m : Nat)
  | feStart (b list : Nat)
  | arrive (i : Nat)
  /-- the sequencer enters STALLED (R208) -/
  | stall
  /-- FAIL_GF sets GF[i]: the flag is seen by records that start at or after `bound`, fu (R182, R183) -/
  | failGf (i bound : Nat)
  /-- the last pass of a match block that times out has ended (R95) -/
  | matchTimeout
  /-- a pass that would have satisfied the condition of a timed-out block is resolved (R95) -/
  | matchLate
deriving DecidableEq, Repr

/-- An open loop or match level (R75, R92). -/
structure Level where
  body : Nat
  isMatch : Bool := false
  rem : Nat := 0
  iter : Nat := 0
  /-- match block, its condition and what a time-out does (R68) -/
  blk : Nat := 0
  cond : Nat := 0
  toFlag : Option Nat := none
  toStop : Bool := false
deriving DecidableEq, Repr

/-- One pass of a match block (R93). -/
structure Pass where
  n : Nat
  /-- the latest instant t + RTD + 96 ct of its compares that have their outcomes, in fu -/
  vis : Nat := 0
  /-- sites with a fail; 32 for the sequencer -/
  fails : List Nat := []
  judged : Bool := false
  /-- its ENDLOOP has been decoded -/
  closed : Bool := false
deriving DecidableEq, Repr

/-- A match block: open, or timed out and kept for MATCH_LATE (R94, R95). -/
structure Block where
  id : Nat
  cond : Nat
  timedOut : Bool := false
  passes : List Pass := []
deriving DecidableEq, Repr

/-- A hold (R98 to R103). -/
structure Hold where
  /-- WAITRAISE; else BARRIER `bar` -/
  raise : Bool
  bar : Nat := 0
  /-- cycle start of the first repetition, fu, and TIMEOUT, which counts from the first boundary at or after it (R102) -/
  since : Nat := 0
  timeout : Nat := 0
  toFlag : Option Nat := none
  /-- boundary at which a release or time-out ended the hold -/
  release : Option Nat := none
  /-- instant (fu) at which a raising starts the record after the hold -/
  start : Option Nat := none
  /-- tick in which the releasing raising fired, and its outcome (R262) -/
  firedAt : Nat := 0
  fired : Nat := 0
  /-- a repetition was not issued, for an expected raising (R100, R508) -/
  withheld : Bool := false
  /-- length of the hold record in words -/
  words : Nat := 0
deriving DecidableEq, Repr

/-- A stop action that waits for a peg point: its STOP_REASON, its tick, the command it completes (R115, R116). -/
structure Pend where
  reason : Nat
  tick : Nat
  tok : Option Token := none
deriving DecidableEq, Repr

/-- The end of a run: what is written at the park boundary (R112). -/
structure Ending where
  reason : Nat
  paused : Bool
  /-- end of the last vector cycle issued, in fu -/
  endAt : Nat
  /-- code, detail, address and cycle of a fault (R119) -/
  fault : Option (Nat × Nat × Nat × Nat) := none
deriving DecidableEq, Repr

/-- A record in a buffer: its address and its words. -/
abbrev Fetched := Nat × List Nat

/-- A shadow level of the fill engine (R201, R203): its body start, the remaining count of a loop level, bytes fetched in its
first pass, whether a later pass has begun, and whether it bypasses the loop cache. -/
structure Shadow where
  body : Nat
  rem : Option Nat
  bytes : Nat := 0
  later : Bool := false
  bypass : Bool := false
deriving DecidableEq, Repr

/-- The fill engine of a sequencer (R201 to R204). -/
structure FillX where
  /-- the next record to be fetched; `none`: fill has stopped -/
  pc : Option Nat := none
  /-- shadow levels, innermost first -/
  levels : List Shadow := []
  /-- shadow return stack, newest first -/
  stack : List Nat := []
  /-- prefetch buffer, oldest first -/
  buf : List Fetched := []
  /-- side-path buffers by the address of their conditional record -/
  side : List (Nat × List Fetched) := []
  /-- loop-cache lines (32 words each) by line address, most recently used first -/
  cache : List (Nat × List Nat) := []
deriving DecidableEq, Repr

/-- The lookahead of a sequencer (R198, R199). -/
structure LookX where
  /-- where the lookahead is; `none`: its path has ended or not begun -/
  addr : Option Nat := none
  stack : List Nat := []
  /-- pages on the path behind the current page, nearest first -/
  path : List Nat := []
deriving DecidableEq, Repr

/-- What a vector gives its events (R156, R168). -/
structure VecInfo where
  seq : Nat
  run : Nat
  cycle : Nat
  vaddr : Nat
  epoch : Nat
  inner : Nat
  outer : Nat
  cap : Bool
  /-- inside a match block with LOG = 0: the outcome feeds its pass alone (R93) -/
  quiet : Bool
  /-- match block and pass -/
  blk : Option (Nat × Nat)
deriving DecidableEq, Repr

/-- A vector that is decoded and whose cycle start is to come (R29, R66). -/
structure PlanVec where
  start : Nat
  /-- its start is an instant of R132: it does not follow from the vector before it -/
  fixed : Bool
  tset : Nat
  /-- number of the vector in its record, and the record's words -/
  vi : Nat
  words : List Nat
  /-- a later hold repetition: compares are suppressed (R98) -/
  later : Bool
  /-- MASK[MASKSEL] and the bays' STATIC_MASK at the decode (R160) -/
  mask : Nat
  static : List Nat
  vec : VecInfo
deriving DecidableEq, Repr

/-- A sequencer beside its registers. -/
structure SeqX where
  /-- runs since reset: R113 tells results of one run from another's -/
  run : Nat := 0
  /-- address of the next record -/
  pc : Nat := 0
  /-- nominal start of the next vector, in fu since reset: C(u) + P(u) (R131), or a launch instant -/
  nextAt : Nat := 0
  /-- end of the last vector cycle issued, in fu -/
  lastEnd : Nat := 0
  /-- period of the last vector; `none` where the next vector starts with a zero fraction (R132) -/
  period : Option Nat := none
  levels : List Level := []
  /-- return stack, newest first: address and loop depth -/
  stack : List (Nat × Nat) := []
  /-- executions of the REPEAT in progress that remain -/
  rep : Nat := 0
  /-- words of the last record decoded: what a REPEAT or a hold issues again -/
  cur : List Nat := []
  hold : Option Hold := none
  /-- the end of the last record is a peg point -/
  peg : Bool := false
  pend : List Pend := []
  /-- table commits that wait: tick, and the command each completes -/
  commits : List (Nat × Option Token) := []
  /-- tick in which the first stop action became pending (R118) -/
  watch : Option Nat := none
  /-- the boundary (fu) at which the watchdog expired: the first record decoded after it is not issued (R118) -/
  forced : Option Nat := none
  ending : Option Ending := none
  /-- fail accumulators: site (32: the sequencer) and the earliest start that sees it, in fu (R85, R88) -/
  acc : List (Nat × Nat) := []
  /-- results of earlier cycles are discarded from the accumulators (R86) -/
  accFrom : Nat := 0
  blocks : List Block := []
  nextBlk : Nat := 0
  /-- vectors decoded whose cycle start is to come, oldest first -/
  plan : List PlanVec := []
  /-- end (fu) and period of the last vector whose cycle has begun -/
  issued : Nat × Nat := (0, 0)
  /-- peg points to come that apply table commits: their instants (fu), and the command each commit completes (R116, R124) -/
  pegs : List (Nat × List (Option Token)) := []
  /-- actions that wait for the first boundary at or after an instant (fu) -/
  due : List (Nat × SeqAct) := []
  /-- flags that FAIL_GF has set, with the start from which a record sees them (R183) -/
  gfBounds : List (Nat × Nat) := []
  /-- tick of the entry into STALLED -/
  stallAt : Nat := 0
  /-- an under-run is in progress (R208) and, where its records have become available, W's start has been fixed (R209) -/
  under : Bool := false
  resumed : Bool := false
  /-- UNDERRUN_INFO records the under-run in progress -/
  underRec : Bool := false
  /-- the next record is the first of a pass of the open match level -/
  newPass : Bool := false
  /-- call-target cache: pages, most recently called first (R197) -/
  targets : List Nat := []
  /-- pages fetched while a level is open (tier B of R196) -/
  tierB : List Nat := []
  fill : FillX := {}
  look : LookX := {}
  /-- starts (fu) and cycle counts of the vectors whose cycle began last, oldest first -/
  begun : List (Nat × Nat) := []
deriving DecidableEq, Repr

/-- Barrier i of SEQ[s]: arrivals not yet used by a release (R103). -/
structure BarX where
  own : Nat := 0
  /-- arrivals of local sequencers -/
  loc : List (Nat × Nat) := []
  /-- remote arrivals by generation -/
  rem : List (Nat × Nat) := []
deriving DecidableEq, Repr

/-- A queued drive or compare event of a channel (R128, R130, R135). -/
structure Ev where
  /-- nominal time, fu -/
  time : Nat
  slot : Nat
  code : Nat
  site : Nat
  /-- the compare is active (R159) -/
  active : Bool
  /-- path times on DRV and DEN, or on CMPH and CMPL without the round-trip delay (R130) -/
  pathA : Nat
  pathB : Nat
  /-- the same after the linearity correction of R141, in taps -/
  fineA : Nat
  fineB : Nat
  /-- round-trip delay of the bay, ct -/
  rtd : Nat
  vec : VecInfo
deriving DecidableEq, Repr

/-- An open window: its opening event and its opening samples (R155). -/
structure Win where
  ev : Ev
  high : Bool
  low : Bool
deriving DecidableEq, Repr

/-- The outcome of a strobe or window on its way to compare and mask (R153). -/
structure Flight where
  vec : VecInfo
  slot : Nat
  site : Nat
  window : Bool
  /-- a CX strobe compares nothing -/
  compares : Bool
  active : Bool
  fail : Bool
  /-- codes of R169 -/
  expected : Nat
  actual : Nat
  /-- programmed instant t, fu, and round-trip delay, ct -/
  at_ : Nat
  rtd : Nat
deriving DecidableEq, Repr

/-- A channel. -/
structure ChanX where
  queue : List Ev := []
  win : Option Win := none
  flight : List Flight := []
  drv : Bool := false
  den : Bool := false
  /-- the channel is in its park state -/
  parked : Bool := true
  /-- end (fu) of the last vector cycle before its park (R112) -/
  parkAt : Option Nat := none
  /-- latest nominal time of an event entered in the run -/
  lastEv : Nat := 0
  /-- DESKEW before the writes of the last ticks, with the tick of each (R148) -/
  deskews : List (Nat × Word) := []
deriving DecidableEq, Repr

/-- One timing set (R122): period, offsets by 8·channel + slot, nano-words by 16·channel + entry. -/
structure TSet where
  period : Nat := 49152
  edges : List (Nat × Nat) := []
  waves : List (Nat × Nat) := []
deriving DecidableEq, Repr

/-- The timing store of a sequencer (R123). -/
structure TsStore where
  staging : List (Nat × TSet) := []
  active : List (Nat × TSet) := []
deriving DecidableEq, Repr

/-- A fail record being formed (R166, R168). -/
structure Group where
  run : Nat
  cycle : Nat
  slot : Nat
  bay : Nat
  site : Nat
  window : Bool
  vec : VecInfo
  mask : Nat := 0
  expected : Nat := 0
  actual : Nat := 0
deriving DecidableEq, Repr

/-- An open burst summary (R171). -/
structure Summary where
  word0 : Word
  word1 : Word
  word2 : Word
  cycle : Nat
  site : Nat
  merged : Nat := 0
  span : Nat := 0
deriving DecidableEq, Repr

/-- A capture step being formed (R176). -/
structure CapStep where
  run : Nat
  cycle : Nat
  slot : Nat
  epoch : Nat
  word : Nat := 0
  present : Nat := 0
deriving DecidableEq, Repr

/-- A capture block (R177). -/
structure CapBlk where
  cycle : Nat
  slot : Nat
  epoch : Nat
  present : Nat
  slots : Nat
  lost : Bool
  /-- cycle and slot of the last step -/
  lastCycle : Nat
  lastSlot : Nat
  run : Nat
  words : List Nat
  /-- tick in which the block was opened -/
  opened : Nat
deriving DecidableEq, Repr

/-- The fail log and capture of a sequencer (R166 to R179). -/
structure LogX where
  groups : List Group := []
  /-- first-fail records to be filled: bit, and run, cycle and site of the fail that set it (R165) -/
  ffWant : List (Nat × Nat × Nat × Nat) := []
  /-- run of the records entered last (R172) -/
  run : Nat := 0
  queue : List (List Word) := []
  /-- entries at the head of the queue that ENABLE = 0 has condemned (R175) -/
  doomed : Nat := 0
  summaries : List (Nat × Summary) := []
  /-- LOG_FULL has been posted since ENABLE was set (R173) -/
  fullPosted : Bool := false
  steps : List CapStep := []
  capOpen : Option CapBlk := none
  capClosed : List CapBlk := []
  /-- what is left of a block that the ring cannot hold as a whole -/
  capRest : List Nat := []
  /-- records, and capture words, written to DRAM and not yet mirrored (R33, R174, R179) -/
  mirror : List (List Word) := []
  capMirror : List Nat := []
  capDoomed : Nat := 0
  /-- steps were discarded since the previous block -/
  capLost : Bool := false
deriving DecidableEq, Repr

/-- The pin map of a site (R218): its sequencer and its PINMAP words. -/
structure SiteMap where
  seq : Nat := 0
  pins : List (Nat × Nat) := []
deriving DecidableEq, Repr

/-- A run of a site (R223 to R231). -/
structure SiteRun where
  site : Nat
  run : Nat
  epoch : Nat
  /-- vectors that start at or after this instant (fu), or that have this cycle count or a later one, are not issued to the
  site -/
  bound : Option Nat := none
  boundCycle : Option Nat := none
  /-- tick of a stop by a fail (R230) -/
  failTick : Nat := 0
  /-- its sequencer; fails of earlier cycles do not reach its accumulator (R86) -/
  seq : Nat := 0
  accFrom : Nat := 0
  /-- cycle count of the first vector not issued, once known -/
  stopCycle : Option Nat := none
  /-- the site's accumulator, as the outcomes of this run leave it (R231) -/
  failed : Bool := false
  /-- a later start has begun: RESULT is the new run's -/
  old : Bool := false
deriving DecidableEq, Repr

/-- The site map (R220) and the runs whose end is not yet signalled (R231). -/
structure SiteMapX where
  staging : List (Nat × SiteMap) := []
  active : List (Nat × SiteMap) := []
  runs : List SiteRun := []
deriving DecidableEq, Repr

/-- A page-table entry (R188). -/
structure PgEntry where
  state : Nat := 0
  pin : Bool := false
  noStall : Bool := false
  pclass : Nat := 0
  flowTab : Bool := false
  bad : Bool := false
  eccErr : Bool := false
  frame : Nat := 0
  crc : Nat := 0
  /-- HOST_ADDR, bits 63 to 12 of the host address -/
  host : Nat := 0
deriving DecidableEq, Repr

/-- Who asks for a page (R194): a fill engine's demand; a lookahead or a PAGEHINT; a push; PIN; an eager page, or the target of an
unhinted JUMPIF. -/
inductive PgWant
  | demand
  | look
  | push
  | pin
  | eager
deriving DecidableEq, Repr

/-- A page-load request (R194): page, level, who asks, and the sequencer whose lookahead asked (4: none). -/
structure PgReq where
  page : Nat
  level : Nat
  want : PgWant
  dist : Nat := 0
  by_ : Nat := 4
deriving DecidableEq, Repr

/-- A load in flight: its page, its level, whether its first attempt failed. -/
structure PgLoad where
  page : Nat
  level : Nat
  again : Bool := false
  /-- the flow table has arrived (R193) -/
  table : Bool := false
deriving DecidableEq, Repr

/-- Paging beside its registers (R184 to R205). -/
structure PageX where
  table : List (Nat × PgEntry) := []
  /-- requests, oldest first -/
  reqs : List PgReq := []
  loads : List PgLoad := []
  /-- pages in the order of their last fetch, most recent first (R196) -/
  lru : List Nat := []
  /-- pushes that wait for a page: page, the descriptor, and whether its load has started (R205) -/
  pushes : List (Nat × Token × Bool) := []
  /-- the sequencer the lookahead served last at equal distance (R194) -/
  turn : Nat := 0
deriving DecidableEq, Repr
/-- A DUT clock generator (R143 to R146). Instants are in units of 2⁻¹⁷ fu. -/
structure DclkX where
  /-- settings in force: PERIOD, LOCKED, SEQSEL, OFFSET (fu), DUTY_TRIM (fu), and the duty that follows from it -/
  period : Nat := 0x30000000
  locked : Bool := false
  seqsel : Nat := 0
  offset : Nat := 0
  trim : Int := 0
  duty : Int := 0
  /-- PERIOD and duty of the present run (R144) -/
  runPeriod : Nat := 0x30000000
  runDuty : Int := 0
  /-- first rising edge of the present run -/
  start : Option Nat := none
  /-- the falling edge at which the run ends -/
  stopAt : Option Nat := none
  /-- first rising edge of the run that follows -/
  next : Option Nat := none
deriving DecidableEq, Repr

/-- A running accumulator of an entry (R375). -/
structure Acc where
  sum : Int := 0
  sumSat : Bool := false
  cnt : Nat := 0
  cntSat : Bool := false
  least : Int := 0x7FFFFF
  most : Int := -0x800000
deriving DecidableEq, Repr

/-- The visit that has the converter (R363): its entry, its change instant X (R372), its valid outputs delivered. -/
structure Visit where
  entry : Nat
  change : Nat
  got : Nat := 0
deriving DecidableEq, Repr

/-- The converter of a bay and its filter chain (R358 to R378). Instants are in units of 1/10,240 fu since reset; a sample
interval of 4 ns is 50,331,648 of them. -/
structure AdcX where
  /-- the settings in force: ADC_CFG, ADC_FILT, ADC_RATIO, ADC_ENT and ADC_DELAY as last committed (R378) -/
  act : List (RegKey × Word) := []
  /-- the sequence runs, its visit pre-empted or not, and the entry it is in -/
  run : Bool := false
  seqEntry : Nat := 0
  visit : Option Visit := none
  /-- tick in which the urgent visit in progress was requested (R366) -/
  urgent : Option Nat := none
  urgentAcc : Acc := {}
  /-- tags whose outputs are not delivered, oldest first: instant and cycle count (R370) -/
  tags : List (Nat × Nat) := []
  /-- the next tag instant of FREE mode -/
  nextTag : Option Nat := none
  /-- the last tag instant, and the last that yields an output -/
  lastTag : Option Nat := none
  lastOut : Option Nat := none
  /-- the cycle count of the last tag -/
  lastCyc : Nat := 0
  /-- window edges not yet acted on: instant, action of R107 (4: the close of a sequencer's stop), and ETCOUNT in TIME
  mode -/
  edges : List (Nat × Nat × Option Nat) := []
  /-- tag cycle count or ETCOUNT of the present window's opening -/
  opened : Nat := 0
  accs : List (Nat × Acc) := []
  /-- a bank request that waits for the next output (R374) -/
  bankWant : Option Nat := none
  /-- the fade in progress: outputs made, its length, the new bank -/
  fade : Option (Nat × Nat × Nat) := none
  held : Option Nat := none
  /-- corrected codes in 1/2^21 of a code, newest first, and the instant of the newest (R362, R368, R454) -/
  codes : List Int := []
  codeAt : Option Nat := none
  /-- what has been converted from which sample on: instant and index of ADC_CAL, newest first (R363, R454) -/
  inputs : List (Nat × Nat) := []
  /-- coefficients by 1,024·bank + index, where they differ from the default response (R373) -/
  coefs : List (Nat × Nat) := []
  /-- WIN_MODE in force is TIME, and the boundary of its next edge -/
  winTime : Bool := false
  winAt : Nat := 0
deriving DecidableEq, Repr

/-- A record of the acquisition engine (R381): sum, count, extremes, first tag instant and cycle count, the limit it closes
at, its RSHIFT; the event conditions assigned to it, each with its position and its stamp (R388). -/
structure AcqRec where
  tag : Nat
  cycle : Nat
  limit : Nat
  rshift : Nat
  gap : Bool
  sum : Int := 0
  cnt : Nat := 0
  least : Int := 0x7FFFFF
  most : Int := -0x800000
  evs : List (Nat × Nat × Nat) := []
  /-- ETCOUNT at its close -/
  et : Nat := 0
deriving DecidableEq, Repr

/-- A capture in progress (R394, R396): its number, records closed and to come, entries dropped, whether the last data
record was dropped. -/
structure Cap where
  num : Nat
  done : Nat := 0
  post : Nat
  dropped : Nat := 0
  lastDropped : Bool := false
deriving DecidableEq, Repr

/-- The acquisition engine of a bay (R380 to R396). -/
structure AcqX where
  /-- ACQ_CFG, ACQ_TIME, ACQ_COND and ACQ_LEVEL as the last re-arm applied them (R384) -/
  act : List (RegKey × Word) := []
  rec_ : Option AcqRec := none
  /-- the pre-trigger buffer, oldest first -/
  pre : List AcqRec := []
  /-- the record closed last since arming -/
  prev : Option AcqRec := none
  /-- the next record follows a short one -/
  gapNext : Bool := false
  /-- armed conditions: bit i rising, enter or exit of COND[i]; bit 4 + i falling (R387) -/
  armed : Nat := 0
  /-- event conditions sampled and not assigned: condition, reference instant, stamp (R388) -/
  evs : List (Nat × Nat × Nat) := []
  /-- pin events that wait for their boundary: tick and condition -/
  due : List (Nat × Nat) := []
  cap : Option Cap := none
  /-- tick of the entry into FILLING or HOLDOFF -/
  since : Nat := 0
  /-- the forced trigger of AUTO mode has been sampled since FILLING was entered -/
  forced : Bool := false
  /-- entries written to DRAM and not yet mirrored (R33, R394) -/
  mirror : List (List Nat) := []
deriving DecidableEq, Repr

/-- The front-end master of a bay (R487 to R491). Instants are in half event ticks since reset. -/
structure FeX where
  /-- list words by 32·list + word; an unlisted word is END -/
  lists : List (Nat × Nat) := []
  /-- the word in progress of the running list; 32: past the last -/
  word : Nat := 0
  /-- end of the previous word -/
  at_ : Nat := 0
  /-- the first instant at which a chip select may be asserted again -/
  csFree : Nat := 0
  /-- the chip select that a HOLD keeps asserted -/
  held : Option Nat := none
  /-- the DELAY or WAITALERT in progress has begun -/
  begun : Bool := false
  /-- boundary at which it ends by itself -/
  wait : Option Nat := none
  /-- the list ends after the word in progress -/
  abort : Bool := false
  /-- list words of a table load that wait for the running list's end (R317) -/
  deferred : List (Nat × Nat) := []
deriving DecidableEq, Repr

/-- A series stamp (R408): its input, polarity and position in fu, and whether REF_LOST was set. -/
structure Stamp where
  stop : Bool
  rising : Bool
  pos : Nat
  bad : Bool
deriving DecidableEq, Repr

/-- A time-interval unit (R398 to R410). Positions are in fu from the boundary of the arm. -/
structure TimX where
  /-- TIM_CFG, TIM_COUNT and TIM_TIME as the last arm applied them (R407) -/
  act : List (RegKey × Word) := []
  /-- tick of the arm, and CLK.ETCOUNT there -/
  armTick : Nat := 0
  base : Nat := 0
  /-- position of the last accepted edge of each input (R401) -/
  lastStart : Option Nat := none
  lastStop : Option Nat := none
  /-- edges whose new level has not persisted for 256 fu yet: source, polarity, position (R400) -/
  held : List (Nat × Bool × Int) := []
  /-- accepted edges counted of each input -/
  starts : Nat := 0
  stops : Nat := 0
  /-- the first edge used, its polarity, and the last edge used -/
  first : Option Nat := none
  firstRising : Bool := false
  final : Option Nat := none
  /-- duty cycle: the level after the last accepted edge, the edge's position, and the time at 1 so far -/
  level : Bool := false
  prev : Nat := 0
  high : Nat := 0
  /-- boundary at which the measurement completes (R404) -/
  due : Option Nat := none
  /-- REF_LOST was set during the measurement (R409) -/
  bad : Bool := false
  /-- series: stamps that wait, the tick of the first of them, stamps written, lost, and lost since the last entry (R408) -/
  queue : List Stamp := []
  since : Nat := 0
  written : Nat := 0
  lost : Nat := 0
  lostNew : Nat := 0
deriving DecidableEq, Repr

/-! ### Calibration (R437 to R455) -/

/-- A calibration run of a bay (R437 to R441). -/
structure CalRun where
  /-- PROC of the start -/
  proc : Nat
  /-- the procedure that gathers data, 1 to 7 -/
  step : Nat
  /-- nothing is left but the update of R440 -/
  ready : Bool := false
  /-- procedures completed -/
  done : List Nat := []
  /-- the start the run belongs to -/
  batch : Nat
  /-- the assigned sequencer and its mode, the timing set in use, and the period of the run's edges (R439, R441) -/
  seq : Option Nat
  mode : Nat
  tset : Option Nat
  period : Nat
  /-- values held until the update: register, lowest bit, width, value (R440) -/
  held : List (RegKey × Nat × Nat × Nat) := []
  /-- local channels with a deskew that was clamped (R442) -/
  range : Nat := 0
  /-- REFPATH was not set where 0x03 or 0x05 used it (R443) -/
  refDefault : Option Bool := none
deriving DecidableEq, Repr

/-- A calibration start (R438, R440): the commands it completes, what became of each bay (`none`: it runs), commits of the
store that have not ended, and the store outcome. -/
structure CalBatch where
  id : Nat
  toks : List Token
  store : Bool
  bays : List (Nat × Option Nat)
  commits : Nat := 0
  out : Nat := 0
deriving DecidableEq, Repr

/-- What a channel record holds beside register images (R447). -/
structure CalInfo where
  /-- 1/16 °C -/
  temp : Int := 0
  period : Nat := 0
  stamp : Nat := 0
  refDefault : Bool := false
deriving DecidableEq, Repr

/-- A bank of the MRAM store (R446 to R449). -/
inductive Bank
  | empty
  /-- bank A as the device is shipped (R449) -/
  | shipped
  /-- GENERATION, STAMP, and the 136 records, each a number of 2,048 bits -/
  | image (gen stamp : Nat) (recs : List Nat)
deriving DecidableEq, Repr

/-- A store commit that writes (R450): the snapshot, and the starts that asked for it. -/
structure StoreJob where
  gen : Nat
  stamp : Nat
  recs : List Nat
  batches : List Nat
deriving DecidableEq, Repr

/-- Calibration beside its registers. -/
structure CalX where
  /-- runs by bay -/
  runs : List (Nat × CalRun) := []
  batches : List CalBatch := []
  nextBatch : Nat := 0
  bankA : Bank := .shipped
  bankB : Bank := .empty
  job : Option StoreJob := none
  /-- a commit waits: the starts that asked for it -/
  wait : Option (List Nat) := none
  /-- by channel -/
  info : List (Nat × CalInfo) := []
  /-- TEMP of the bay records in force -/
  bayTemp : List (Nat × Int) := []
  /-- tick of the last update of DRIFT (R453) -/
  driftAt : Nat := 0
deriving DecidableEq, Repr

/-- Resets and containment beside their registers (R456 to R471). -/
structure RasX where
  /-- bays that take no part until the next accepted start of their sequencer (R462) -/
  out : List Nat := []
  /-- bays whose automatic reset follows in the next event tick (R457), with the tick of the containment -/
  auto_ : List (Nat × Nat) := []
  /-- the bay reset in progress was automatic (R475) -/
  byAuto : List Nat := []
  /-- RESET_DONE is to be posted at the first EVENT ring enabled (R475) -/
  doneDue : Bool := false
  /-- the device holds itself in reset until power-on (R467, R471) -/
  halted : Bool := false
  /-- tick of the last update of the sensors (R469) -/
  sensedAt : Nat := 0
  /-- sequencer resets in progress, with the tick by which they are complete (R461) -/
  resets : List (Nat × Nat) := []
deriving DecidableEq, Repr

/-- What stood before the present tick and no register shows: what a write that takes effect only in some state of its object is judged
by (R506). -/
structure Was where
  /-- sequencers whose log queue, and whose capture queue, held something (R175, R179) -/
  log : List Nat := []
  cap : List Nat := []
  /-- flows that held an item (DISP.FLOW_CFG) -/
  flow : List Nat := []
  /-- a page-table entry held a frame (R215) -/
  framed : Bool := false
deriving DecidableEq, Repr

/-- The reference and tick alignment beside their registers (R42, R45, R46). Instants are in core ticks since reset. -/
structure ClkX where
  /-- the last REFCLK edge before the loss or dropout in progress -/
  refLast : Option Nat := none
  /-- the first edge of the continuous REFCLK that has followed it -/
  refBack : Option Nat := none
  /-- an instant of a rising edge of REFCLK: they follow every 12 core ticks (R36) -/
  refAt : Nat := 0
  /-- tick of the arm whose SYNC_OUT has not been driven -/
  driveDue : Option Nat := none
  /-- the capture edge of the operation in progress -/
  capture : Nat := 0
  was : Was := {}
deriving DecidableEq, Repr


/-- The block. -/
structure State where
  /-- commands that wait, first in, first out -/
  pending : List Instr := []
  /-- the registers that differ from their reset values, in canonical form (R499) -/
  regs : List (RegKey × Word) := []
  /-- event ticks since reset; the model's own clock for durations, while CLK.ETCOUNT is a register -/
  ticks : Nat := 0
  /-- the events that decide the objects of the present tick (R56 to R58) -/
  events : List TickEvent := []
  /-- the registers as they stood before the present tick (R163, R506) -/
  startOfTick : List (RegKey × Word) := []
  /-- halves of the host and of cores 0 to 3 (R10, R11) -/
  halvesHost : Halves := {}
  halvesCore : List (Nat × Halves) := []
  /-- what the block has sent out, oldest first -/
  out : List Output := []
  /-- how many free values have been used: the model's own field -/
  free : Nat := 0
  /-- local DRAM in canonical form: bytes at byte addresses (R185) -/
  mem : List Host.Cell := []
  time : TimeX := {}
  olu : OluX := {}
  host : HostX := {}
  disp : DispX := {}
  /-- GF[63:0] as the previous event tick left it: what a decode of this tick reads (R90) -/
  gfPrev : Nat := 0
  /-- the sequencers beside their registers -/
  seqs : List (Nat × SeqX) := []
  /-- barriers by 8·s + i -/
  bars : List (Nat × BarX) := []
  /-- the channels CH[0..127] -/
  chans : List (Nat × ChanX) := []
  /-- timing stores by sequencer -/
  stores : List (Nat × TsStore) := []
  /-- fail logs and captures by sequencer -/
  logs : List (Nat × LogX) := []
  /-- sequencer the log writer served last (R170) -/
  logTurn : Nat := 3
  /-- DUT clock generators by 2·b + g -/
  dclks : List (Nat × DclkX) := []
  dram : DramX := {}
  site : SiteMapX := {}
  page : PageX := {}
  /-- the front-end masters by bay -/
  fes : List (Nat × FeX) := []
  /-- the converters by bay -/
  adcs : List (Nat × AdcX) := []
  /-- the acquisition engines by bay -/
  acqs : List (Nat × AcqX) := []
  /-- the time-interval units -/
  tims : List (Nat × TimX) := []
  cal : CalX := {}
  ras : RasX := {}
  clk : ClkX := {}
deriving DecidableEq, Repr

/-- Why the block can stop. No command of the table stops it: the type is kept for the interface. -/
inductive Fault
  /-- never raised: the spec gives every command an effect (safe) -/
  | none
deriving DecidableEq, Repr

/-- Why the model can refuse a command. -/
inductive Refusal
  /-- the command has no meaning in the model yet (safe: the model stops) -/
  | notModelled (mnemonic : String)
deriving DecidableEq, Repr

/-- The block right after reset: every register at its reset value (no register is listed), every unit idle.
(DESIGN CHOICE, log entry 3, for what is no register.) -/
def State.reset : State := {}

end Sys2Proof.Machine
end

