-- ==== Sys2Proof/Machine/RegMap.lean ====
section
/-!
DEFINITION. RegMap.lean: the register space of R499 to R501: where every register lies, its fields with their access codes
(R12) and clamps (R16, R17), and its reset value, as the field tables of the owning chapters give them.
-/
namespace Sys2Proof.Machine

/-- The access codes of R12. -/
inductive Access
  | ro | rw | wo | w1c | rs
  /-- RW from the host only (R443, R504) -/
  | rwHost
deriving DecidableEq, Repr

/-- The "Range and clamp" entries (R16, R17). -/
inductive Clamp
  /-- every encoding is legal -/
  | any
  /-- the nearer bound is stored -/
  | range (lo hi : Nat)
  /-- two's complement, from −lo to hi: the nearer bound is stored -/
  | srange (lo hi : Nat)
  /-- values above `max` store `fallback` -/
  | above (max fallback : Nat)
  /-- the low `n` bits store 0 -/
  | align (n : Nat)
  /-- the nearer bound, with the low `n` bits 0 -/
  | rangeAlign (lo hi n : Nat)
  /-- 0 stores `v` -/
  | zeroTo (v : Nat)
  /-- six 4-bit event fields; a reserved event stores NONE (R122) -/
  | nibbles
  /-- sixteen 4-bit fields whose bit 3 is reserved (R14) -/
  | routes
deriving DecidableEq, Repr

/-- One field of a register. -/
structure FieldDesc where
  lo     : Nat
  width  : Nat
  access : Access
  clamp  : Clamp

/-- One register name: base offset, instances and their stride, elements and their stride, reset value, fields. -/
structure RegDesc where
  base   : Nat
  insts  : Nat
  istride : Nat
  elems  : Nat
  estride : Nat
  reset  : Nat
  fields : List FieldDesc

/-- The field tables of the spec. -/
def RegName.desc : RegName → RegDesc
  | .globalIdent => ⟨0x0, 1, 0x0, 1, 0x8, 16680 + (1 + Config.gradeCode % 2) * 65536 + (Config.stepping % 256) * 16777216,
      [⟨0, 16, .ro, .any⟩, ⟨16, 8, .ro, .any⟩, ⟨24, 8, .ro, .any⟩]⟩
  | .globalBaymap => ⟨0x40, 1, 0x0, 1, 0x8, 0,
      [⟨0, 16, .rw, .any⟩, ⟨16, 8, .rw, .any⟩]⟩
  | .globalBaymapStatus => ⟨0x48, 1, 0x0, 1, 0x8, 0,
      [⟨0, 8, .w1c, .any⟩, ⟨8, 8, .ro, .any⟩, ⟨16, 4, .ro, .any⟩]⟩
  | .globalGpioCfg => ⟨0x80, 1, 0x0, 1, 0x8, 0,
      [⟨0, 32, .rw, .any⟩, ⟨32, 32, .rw, .any⟩]⟩
  | .globalGpioOut => ⟨0x88, 1, 0x0, 1, 0x8, 0,
      [⟨0, 32, .rw, .any⟩]⟩
  | .globalGpioIn => ⟨0x90, 1, 0x0, 1, 0x8, 0,
      [⟨0, 32, .ro, .any⟩]⟩
  | .clkStatus => ⟨0x1000, 1, 0x0, 1, 0x8, 0,
      [⟨0, 1, .ro, .any⟩, ⟨1, 1, .ro, .any⟩, ⟨2, 1, .ro, .any⟩, ⟨3, 1, .w1c, .any⟩, ⟨4, 1, .ro, .any⟩, ⟨5, 2, .ro, .any⟩, ⟨7, 1, .w1c, .any⟩]⟩
  | .clkRefmon => ⟨0x1008, 1, 0x0, 1, 0x8, 0,
      [⟨0, 16, .ro, .any⟩, ⟨16, 1, .ro, .any⟩, ⟨32, 16, .ro, .any⟩, ⟨48, 1, .ro, .any⟩, ⟨63, 1, .wo, .any⟩]⟩
  | .clkAlign => ⟨0x1010, 1, 0x0, 1, 0x8, 0,
      [⟨0, 1, .wo, .any⟩, ⟨1, 1, .rw, .any⟩, ⟨2, 1, .rw, .any⟩, ⟨3, 1, .wo, .any⟩]⟩
  | .clkAlignLoad => ⟨0x1018, 1, 0x0, 1, 0x8, 0,
      [⟨0, 64, .rw, .any⟩]⟩
  | .clkEtcount => ⟨0x1020, 1, 0x0, 1, 0x8, 0,
      [⟨0, 64, .ro, .any⟩]⟩
  | .clkAlignResult => ⟨0x1028, 1, 0x0, 1, 0x8, 0,
      [⟨0, 48, .ro, .any⟩, ⟨48, 3, .ro, .any⟩, ⟨51, 1, .ro, .any⟩]⟩
  | .clkPrecStats => ⟨0x1030, 1, 0x0, 1, 0x8, 0,
      [⟨0, 32, .ro, .any⟩, ⟨32, 1, .ro, .any⟩, ⟨63, 1, .wo, .any⟩]⟩
  | .hifLink => ⟨0x4000, 1, 0x0, 1, 0x8, 0,
      [⟨0, 3, .ro, .any⟩, ⟨4, 4, .ro, .any⟩, ⟨8, 1, .ro, .any⟩]⟩
  | .hifEventStat => ⟨0x4008, 1, 0x0, 1, 0x8, 0,
      [⟨0, 32, .ro, .any⟩, ⟨32, 1, .ro, .any⟩, ⟨63, 1, .wo, .any⟩]⟩
  | .ringBase => ⟨0x4400, 64, 0x40, 1, 0x8, 0,
      [⟨12, 52, .rw, .any⟩]⟩
  | .ringCfg => ⟨0x4408, 64, 0x40, 1, 0x8, 0x1000000000080,
      [⟨0, 4, .rw, .above 9 0⟩, ⟨4, 5, .rw, .range 4 16⟩, ⟨10, 6, .rw, .any⟩, ⟨16, 6, .rw, .any⟩, ⟨22, 1, .rw, .any⟩, ⟨32, 16, .rw, .any⟩, ⟨48, 16, .rw, .any⟩]⟩
  | .ringCtrl => ⟨0x4410, 64, 0x40, 1, 0x8, 0,
      [⟨0, 1, .wo, .any⟩, ⟨1, 1, .wo, .any⟩, ⟨2, 1, .wo, .any⟩]⟩
  | .ringIndex => ⟨0x4418, 64, 0x40, 1, 0x8, 0,
      [⟨0, 16, .ro, .any⟩, ⟨16, 16, .ro, .any⟩]⟩
  | .ringIdxwb => ⟨0x4420, 64, 0x40, 1, 0x8, 0,
      [⟨0, 1, .rw, .any⟩, ⟨3, 61, .rw, .any⟩]⟩
  | .ringStatus => ⟨0x4428, 64, 0x40, 1, 0x8, 0,
      [⟨0, 2, .ro, .any⟩, ⟨2, 1, .w1c, .any⟩, ⟨3, 1, .w1c, .any⟩, ⟨4, 1, .w1c, .any⟩, ⟨5, 1, .ro, .any⟩, ⟨16, 32, .ro, .any⟩, ⟨48, 1, .ro, .any⟩, ⟨63, 1, .wo, .any⟩]⟩
  | .ringEvmask => ⟨0x4430, 64, 0x40, 1, 0x8, 0,
      [⟨0, 64, .rw, .any⟩]⟩
  | .timeCtrl => ⟨0x8000, 1, 0x0, 1, 0x8, 0x400c800,
      [⟨0, 1, .rw, .any⟩, ⟨1, 1, .rw, .any⟩, ⟨8, 8, .rw, .range 1 200⟩, ⟨16, 2, .rw, .above 2 0⟩, ⟨20, 12, .rw, .range 16 4095⟩]⟩
  | .timeStatus => ⟨0x8008, 1, 0x0, 1, 0x8, 0,
      [⟨0, 1, .ro, .any⟩, ⟨1, 1, .ro, .any⟩, ⟨2, 1, .w1c, .any⟩, ⟨3, 1, .ro, .any⟩, ⟨4, 1, .w1c, .any⟩, ⟨5, 1, .ro, .any⟩]⟩
  | .timeDelta => ⟨0x8010, 1, 0x0, 1, 0x8, 0,
      [⟨0, 64, .ro, .any⟩]⟩
  | .timeDomDiff => ⟨0x8018, 1, 0x0, 1, 0x8, 0,
      [⟨0, 64, .ro, .any⟩]⟩
  | .timePortCfg => ⟨0x8400, 1, 0x0, 1, 0x8, 4,
      [⟨0, 1, .rw, .any⟩, ⟨1, 1, .rw, .any⟩, ⟨2, 1, .rw, .any⟩, ⟨3, 1, .rw, .any⟩, ⟨4, 1, .rw, .any⟩, ⟨5, 1, .ro, .any⟩, ⟨8, 6, .rw, .any⟩, ⟨16, 6, .rw, .any⟩]⟩
  | .timePortLat => ⟨0x8408, 1, 0x0, 1, 0x8, 0x48000000700000,
      [⟨0, 32, .rw, .any⟩, ⟨32, 32, .rw, .any⟩]⟩
  | .timePortMac => ⟨0x8410, 1, 0x0, 1, 0x8, 0,
      [⟨0, 48, .rw, .any⟩]⟩
  | .timePpsCfg => ⟨0x8480, 1, 0x0, 1, 0x8, 0x9c4186a0000,
      [⟨0, 1, .rw, .any⟩, ⟨1, 2, .rw, .above 2 0⟩, ⟨3, 1, .rw, .any⟩, ⟨4, 2, .rw, .above 2 0⟩, ⟨12, 20, .rw, .range 1 999999⟩, ⟨32, 16, .rw, .any⟩]⟩
  | .timePpsInSec => ⟨0x8488, 1, 0x0, 1, 0x8, 0,
      [⟨0, 48, .ro, .any⟩]⟩
  | .timePpsInNs => ⟨0x8490, 1, 0x0, 1, 0x8, 0,
      [⟨0, 30, .ro, .any⟩, ⟨30, 16, .ro, .any⟩, ⟨46, 1, .ro, .any⟩, ⟨47, 1, .ro, .any⟩, ⟨48, 15, .ro, .any⟩, ⟨63, 1, .ro, .any⟩]⟩
  | .timeSnapSec => ⟨0x8100, 1, 0x0, 8, 0x10, 0,
      [⟨0, 48, .ro, .any⟩, ⟨48, 2, .rw, .above 2 0⟩, ⟨63, 1, .wo, .any⟩]⟩
  | .timeSnapNs => ⟨0x8108, 1, 0x0, 8, 0x10, 0,
      [⟨0, 30, .ro, .any⟩, ⟨30, 16, .ro, .any⟩, ⟨46, 1, .ro, .any⟩, ⟨47, 1, .ro, .any⟩]⟩
  | .timeRaisePeermask => ⟨0x8500, 1, 0x0, 4, 0x8, 0,
      [⟨0, 64, .rw, .any⟩]⟩
  | .timeRaiseSec => ⟨0x8600, 1, 0x0, 16, 0x10, 0,
      [⟨0, 48, .ro, .any⟩, ⟨48, 16, .ro, .any⟩]⟩
  | .timeRaiseNs => ⟨0x8608, 1, 0x0, 16, 0x10, 0,
      [⟨0, 30, .ro, .any⟩, ⟨30, 16, .ro, .any⟩, ⟨46, 4, .ro, .any⟩, ⟨50, 1, .ro, .any⟩, ⟨52, 6, .ro, .any⟩]⟩
  | .domCtrl => ⟨0x8200, 2, 0x100, 1, 0x8, 0xf424000000002,
      [⟨0, 1, .rw, .any⟩, ⟨1, 1, .rw, .any⟩, ⟨2, 1, .wo, .any⟩, ⟨16, 16, .rw, .any⟩, ⟨32, 32, .rw, .range 1 4294967295⟩]⟩
  | .domNominal => ⟨0x8208, 2, 0x100, 1, 0x8, 0xd5555555,
      [⟨0, 32, .rw, .range 3575560274 3582718552⟩]⟩
  | .domAddend => ⟨0x8210, 2, 0x100, 1, 0x8, 0xd5555555,
      [⟨0, 32, .rw, .range 3575560274 3582718552⟩]⟩
  | .domGain => ⟨0x8218, 2, 0x100, 1, 0x8, 0x271000390394,
      [⟨0, 16, .rw, .any⟩, ⟨16, 16, .rw, .any⟩, ⟨32, 32, .rw, .any⟩]⟩
  | .domLock => ⟨0x8220, 2, 0x100, 1, 0x8, 0x8f0d18000100064,
      [⟨0, 16, .rw, .range 1 65535⟩, ⟨16, 8, .rw, .range 1 255⟩, ⟨32, 32, .rw, .range 1500 4294967295⟩]⟩
  | .domSampleDelay => ⟨0x8228, 2, 0x100, 1, 0x8, 0,
      [⟨0, 48, .rw, .any⟩]⟩
  | .domSampleOffset => ⟨0x8230, 2, 0x100, 1, 0x8, 0,
      [⟨0, 64, .wo, .any⟩]⟩
  | .domStep => ⟨0x8238, 2, 0x100, 1, 0x8, 0,
      [⟨0, 64, .wo, .any⟩]⟩
  | .domStatus => ⟨0x8240, 2, 0x100, 1, 0x8, 0,
      [⟨0, 16, .ro, .any⟩, ⟨16, 1, .ro, .any⟩, ⟨17, 2, .ro, .any⟩, ⟨19, 1, .w1c, .any⟩, ⟨20, 1, .w1c, .any⟩, ⟨21, 1, .w1c, .any⟩, ⟨63, 1, .wo, .any⟩]⟩
  | .oluChip => ⟨0xA000, 1, 0x0, 1, 0x8, 0,
      [⟨0, 6, .rw, .any⟩]⟩
  | .oluBcast => ⟨0xA008, 1, 0x0, 1, 0x8, 0x3f00000,
      [⟨0, 4, .rw, .any⟩, ⟨4, 16, .rw, .any⟩, ⟨20, 6, .rw, .range 1 63⟩]⟩
  | .oluGflags => ⟨0xA010, 1, 0x0, 1, 0x8, 0,
      [⟨0, 64, .ro, .any⟩]⟩
  | .oluGfOp => ⟨0xA018, 1, 0x0, 1, 0x8, 0,
      [⟨0, 6, .wo, .any⟩, ⟨6, 1, .wo, .any⟩, ⟨7, 1, .wo, .any⟩, ⟨8, 1, .wo, .any⟩]⟩
  | .oluBulkWin => ⟨0xA020, 1, 0x0, 1, 0x8, 0,
      [⟨0, 25, .rw, .any⟩, ⟨25, 25, .rw, .any⟩]⟩
  | .oluRoute => ⟨0xA040, 1, 0x0, 4, 0x8, 0,
      [⟨0, 64, .rw, .routes⟩]⟩
  | .oluBulkSrc => ⟨0xA080, 1, 0x0, 4, 0x20, 0,
      [⟨0, 40, .rw, .align 4⟩]⟩
  | .oluBulkDst => ⟨0xA088, 1, 0x0, 4, 0x20, 0,
      [⟨0, 40, .rw, .align 4⟩, ⟨40, 6, .rw, .any⟩]⟩
  | .oluBulkCtrl => ⟨0xA090, 1, 0x0, 4, 0x20, 16,
      [⟨0, 25, .rw, .rangeAlign 16 16777216 4⟩, ⟨25, 1, .wo, .any⟩, ⟨26, 1, .ro, .any⟩, ⟨27, 3, .ro, .any⟩, ⟨30, 1, .w1c, .any⟩]⟩
  | .olupCtrl => ⟨0xA400, 4, 0x100, 1, 0x8, 0x5dc0000,
      [⟨0, 1, .rw, .any⟩, ⟨1, 1, .wo, .any⟩, ⟨2, 1, .rw, .any⟩, ⟨16, 16, .rw, .range 1 65535⟩]⟩
  | .olupStatus => ⟨0xA408, 4, 0x100, 1, 0x8, 0,
      [⟨0, 3, .ro, .any⟩, ⟨3, 1, .ro, .any⟩, ⟨4, 4, .ro, .any⟩, ⟨8, 6, .ro, .any⟩, ⟨14, 1, .ro, .any⟩, ⟨15, 1, .ro, .any⟩, ⟨16, 12, .ro, .any⟩, ⟨28, 1, .w1c, .any⟩]⟩
  | .olupErrStat => ⟨0xA410, 4, 0x100, 1, 0x8, 0,
      [⟨0, 16, .ro, .any⟩, ⟨16, 8, .ro, .any⟩, ⟨24, 16, .ro, .any⟩, ⟨40, 16, .ro, .any⟩, ⟨56, 1, .ro, .any⟩, ⟨57, 1, .ro, .any⟩, ⟨58, 1, .ro, .any⟩, ⟨59, 1, .ro, .any⟩, ⟨63, 1, .wo, .any⟩]⟩
  | .olupTickchk => ⟨0xA418, 4, 0x100, 1, 0x8, 0,
      [⟨0, 8, .ro, .any⟩, ⟨8, 1, .w1c, .any⟩, ⟨9, 1, .ro, .any⟩]⟩
  | .drmCtrl => ⟨0xC000, 1, 0x0, 1, 0x8, 0,
      [⟨0, 1, .rw, .any⟩, ⟨1, 1, .wo, .any⟩, ⟨2, 1, .wo, .any⟩, ⟨3, 1, .rw, .any⟩]⟩
  | .drmOrg => ⟨0xC008, 1, 0x0, 1, 0x8, 289,
      [⟨0, 2, .rw, .range 1 1⟩, ⟨2, 2, .rw, .above 2 0⟩, ⟨4, 1, .rw, .any⟩, ⟨5, 1, .rw, .any⟩, ⟨6, 4, .rw, .range 0 8⟩]⟩
  | .drmInfo => ⟨0xC010, 1, 0x0, 1, 0x8, 0,
      [⟨0, 12, .ro, .any⟩, ⟨12, 2, .ro, .any⟩, ⟨14, 2, .ro, .any⟩, ⟨16, 1, .w1c, .any⟩, ⟨32, 16, .ro, .any⟩, ⟨48, 1, .ro, .any⟩, ⟨63, 1, .wo, .any⟩]⟩
  | .drmPrio => ⟨0xC018, 1, 0x0, 1, 0x8, 17090,
      [⟨0, 3, .rw, .any⟩, ⟨3, 3, .rw, .any⟩, ⟨6, 3, .rw, .any⟩, ⟨9, 3, .rw, .any⟩, ⟨12, 3, .rw, .any⟩]⟩
  | .drmPanic => ⟨0xC020, 1, 0x0, 1, 0x8, 0x10040,
      [⟨0, 9, .rw, .range 16 240⟩, ⟨9, 9, .rw, .any⟩, ⟨18, 1, .ro, .any⟩, ⟨32, 16, .ro, .any⟩, ⟨48, 1, .ro, .any⟩, ⟨63, 1, .wo, .any⟩]⟩
  | .drmSr => ⟨0xC028, 1, 0x0, 1, 0x8, 0x249f0,
      [⟨0, 32, .rw, .range 1500 4294967295⟩, ⟨32, 16, .ro, .any⟩, ⟨48, 1, .ro, .any⟩, ⟨49, 1, .w1c, .any⟩, ⟨63, 1, .wo, .any⟩]⟩
  | .drmScrub => ⟨0xC030, 1, 0x0, 1, 0x8, 6145,
      [⟨0, 1, .rw, .any⟩, ⟨8, 8, .rw, .range 1 255⟩]⟩
  | .mchCtrl => ⟨0xC400, 2, 0x200, 1, 0x8, 0x108201,
      [⟨0, 1, .rw, .any⟩, ⟨1, 1, .rw, .any⟩, ⟨2, 1, .rw, .any⟩, ⟨3, 10, .rw, .any⟩, ⟨13, 3, .rw, .range 0 4⟩, ⟨16, 8, .rw, .range 1 255⟩, ⟨24, 1, .w1c, .any⟩]⟩
  | .mchTimingA => ⟨0xC408, 2, 0x200, 1, 0x8, 0x6067343434,
      [⟨0, 8, .rw, .range 22 255⟩, ⟨8, 8, .rw, .range 8 255⟩, ⟨16, 8, .rw, .range 8 255⟩, ⟨24, 8, .rw, .range 16 255⟩, ⟨32, 8, .rw, .range 16 255⟩]⟩
  | .mchTimingB => ⟨0xC410, 2, 0x200, 1, 0x8, 0x30c0260520,
      [⟨0, 12, .rw, .range 64 4095⟩, ⟨12, 12, .rw, .range 64 4095⟩, ⟨24, 16, .rw, .range 1024 65535⟩]⟩
  | .mchDlySel => ⟨0xC418, 2, 0x200, 1, 0x8, 0,
      [⟨0, 1, .rw, .any⟩, ⟨1, 1, .rw, .any⟩, ⟨2, 1, .rw, .any⟩, ⟨3, 6, .rw, .range 0 60⟩]⟩
  | .mchDlyData => ⟨0xC420, 2, 0x200, 1, 0x8, 16448,
      [⟨0, 8, .rw, .any⟩, ⟨8, 8, .ro, .any⟩]⟩
  | .mchDlyApply => ⟨0xC428, 2, 0x200, 1, 0x8, 0,
      [⟨0, 1, .wo, .any⟩, ⟨1, 1, .ro, .any⟩]⟩
  | .mchTrainCmd => ⟨0xC430, 2, 0x200, 1, 0x8, 0x200000,
      [⟨0, 3, .rw, .above 4 0⟩, ⟨3, 1, .rw, .any⟩, ⟨4, 1, .rw, .any⟩, ⟨5, 8, .rw, .any⟩, ⟨13, 8, .rw, .any⟩, ⟨21, 16, .rw, .range 1 65535⟩, ⟨63, 1, .wo, .any⟩]⟩
  | .mchTrainAddr => ⟨0xC438, 2, 0x200, 1, 0x8, 0,
      [⟨0, 40, .rw, .align 6⟩]⟩
  | .mchTrainPat => ⟨0xC440, 2, 0x200, 1, 0x8, 0x5555aaaa3333cccc,
      [⟨0, 64, .rw, .any⟩]⟩
  | .mchTrainRes => ⟨0xC448, 2, 0x200, 1, 0x8, 0,
      [⟨0, 40, .ro, .any⟩, ⟨40, 8, .ro, .any⟩, ⟨48, 1, .ro, .any⟩, ⟨49, 1, .ro, .any⟩]⟩
  | .mchEccStat => ⟨0xC450, 2, 0x200, 1, 0x8, 0,
      [⟨0, 32, .ro, .any⟩, ⟨32, 16, .ro, .any⟩, ⟨48, 1, .ro, .any⟩, ⟨49, 1, .ro, .any⟩, ⟨63, 1, .wo, .any⟩]⟩
  | .mchEccAddr => ⟨0xC458, 2, 0x200, 1, 0x8, 0,
      [⟨0, 40, .ro, .any⟩, ⟨40, 1, .ro, .any⟩, ⟨41, 1, .ro, .any⟩, ⟨42, 1, .ro, .any⟩]⟩
  | .pgtCtrl => ⟨0x10000, 1, 0x0, 1, 0x8, 8,
      [⟨0, 1, .wo, .any⟩, ⟨1, 4, .rw, .range 1 8⟩]⟩
  | .pgtStatus => ⟨0x10008, 1, 0x0, 1, 0x8, 0,
      [⟨0, 1, .ro, .any⟩, ⟨1, 1, .w1c, .any⟩, ⟨2, 1, .ro, .any⟩, ⟨3, 1, .w1c, .any⟩, ⟨4, 12, .ro, .any⟩, ⟨16, 4, .ro, .any⟩]⟩
  | .pgtFrames => ⟨0x10010, 1, 0x0, 1, 0x8, 0,
      [⟨0, 11, .rw, .any⟩, ⟨16, 12, .rw, .any⟩]⟩
  | .pgtWinCmd => ⟨0x10020, 1, 0x0, 1, 0x8, 0x40000,
      [⟨0, 15, .rw, .any⟩, ⟨16, 1, .wo, .any⟩, ⟨17, 1, .wo, .any⟩, ⟨18, 1, .ro, .any⟩, ⟨19, 1, .w1c, .any⟩, ⟨20, 1, .ro, .any⟩]⟩
  | .pgtWinData => ⟨0x10028, 1, 0x0, 2, 0x8, 0,
      [⟨0, 64, .rw, .any⟩]⟩
  | .pgtLoadStat => ⟨0x10040, 1, 0x0, 1, 0x8, 0,
      [⟨0, 30, .ro, .any⟩, ⟨30, 1, .ro, .any⟩, ⟨32, 30, .ro, .any⟩, ⟨62, 1, .ro, .any⟩, ⟨63, 1, .wo, .any⟩]⟩
  | .pgtErrStat => ⟨0x10048, 1, 0x0, 1, 0x8, 0,
      [⟨0, 16, .ro, .any⟩, ⟨16, 1, .ro, .any⟩, ⟨32, 16, .ro, .any⟩, ⟨48, 1, .ro, .any⟩, ⟨63, 1, .wo, .any⟩]⟩
  | .pgtLookahead => ⟨0x10080, 1, 0x0, 4, 0x8, 56,
      [⟨0, 4, .rw, .range 0 8⟩, ⟨4, 1, .rw, .any⟩, ⟨5, 1, .rw, .any⟩]⟩
  | .dispCtrl => ⟨0x20000, 1, 0x0, 1, 0x8, 0x249f00000,
      [⟨0, 16, .rw, .any⟩, ⟨16, 32, .rw, .range 150 4294967295⟩]⟩
  | .dispOp => ⟨0x20008, 1, 0x0, 1, 0x8, 0,
      [⟨0, 4, .wo, .any⟩, ⟨4, 14, .wo, .any⟩, ⟨32, 32, .wo, .any⟩]⟩
  | .dispLevelDepth => ⟨0x20040, 1, 0x0, 16, 0x8, 0,
      [⟨0, 64, .ro, .any⟩]⟩
  | .dispCoreStat => ⟨0x20100, 1, 0x0, 4, 0x8, 1024,
      [⟨0, 10, .ro, .any⟩, ⟨10, 1, .ro, .any⟩, ⟨11, 1, .ro, .any⟩, ⟨12, 1, .ro, .any⟩, ⟨32, 32, .ro, .any⟩]⟩
  | .dispGpioRoute => ⟨0x20200, 1, 0x0, 32, 0x8, 0,
      [⟨0, 1, .rw, .any⟩, ⟨1, 2, .rw, .above 2 0⟩, ⟨4, 10, .rw, .any⟩, ⟨14, 5, .rw, .any⟩]⟩
  | .dispFlowCfg => ⟨0x20400, 1, 0x0, 16, 0x10, 0,
      [⟨0, 1, .rw, .any⟩, ⟨1, 1, .wo, .any⟩, ⟨2, 2, .rw, .above 2 0⟩, ⟨4, 6, .rw, .any⟩, ⟨10, 6, .rw, .any⟩, ⟨16, 10, .rw, .any⟩, ⟨26, 5, .rw, .any⟩, ⟨31, 10, .rw, .any⟩, ⟨41, 7, .rw, .range 0 64⟩, ⟨48, 5, .rw, .any⟩]⟩
  | .dispFlowStat => ⟨0x20408, 1, 0x0, 16, 0x10, 0,
      [⟨0, 10, .ro, .any⟩, ⟨10, 10, .ro, .any⟩, ⟨20, 1, .ro, .any⟩, ⟨32, 16, .ro, .any⟩, ⟨48, 1, .ro, .any⟩, ⟨63, 1, .wo, .any⟩]⟩
  | .dispThrCfg => ⟨0x22000, 1, 0x0, 1024, 0x8, 3903,
      [⟨0, 6, .rw, .any⟩, ⟨6, 1, .rw, .any⟩, ⟨8, 4, .rw, .zeroTo 15⟩, ⟨12, 20, .rw, .any⟩, ⟨32, 32, .rw, .any⟩]⟩
  | .dispThrState => ⟨0x24000, 1, 0x0, 1024, 0x8, 0,
      [⟨0, 2, .ro, .any⟩, ⟨2, 1, .ro, .any⟩, ⟨3, 1, .ro, .any⟩, ⟨4, 1, .ro, .any⟩, ⟨6, 2, .ro, .any⟩, ⟨32, 32, .ro, .any⟩]⟩
  | .dispThrWait => ⟨0x26000, 1, 0x0, 1024, 0x8, 0,
      [⟨0, 30, .ro, .any⟩, ⟨30, 1, .ro, .any⟩, ⟨32, 30, .ro, .any⟩, ⟨62, 1, .ro, .any⟩, ⟨63, 1, .wo, .any⟩]⟩
  | .coreCtrl => ⟨0x28000, 1, 0x0, 1, 0x8, 0,
      [⟨0, 4, .rw, .any⟩]⟩
  | .coreStatus => ⟨0x28008, 1, 0x0, 1, 0x8, (Config.authRequired % 2) * 16,
      [⟨0, 4, .ro, .any⟩, ⟨4, 1, .ro, .any⟩, ⟨16, 16, .ro, .any⟩, ⟨32, 1, .ro, .any⟩, ⟨63, 1, .wo, .any⟩]⟩
  | .coreLoadAddr => ⟨0x28010, 1, 0x0, 1, 0x8, 0,
      [⟨2, 62, .rw, .any⟩]⟩
  | .coreLoadCtrl => ⟨0x28018, 1, 0x0, 1, 0x8, 512,
      [⟨0, 23, .rw, .rangeAlign 512 4194304 2⟩, ⟨23, 1, .wo, .any⟩, ⟨24, 3, .ro, .any⟩]⟩
  | .coreKeyhash => ⟨0x28020, 1, 0x0, 4, 0x8, 0,
      [⟨0, 64, .ro, .any⟩]⟩
  | .coreDramwin => ⟨0x28040, 1, 0x0, 1, 0x8, 0,
      [⟨0, 11, .rw, .range 0 2032⟩]⟩
  | .coreMailbox => ⟨0x28048, 1, 0x0, 1, 0x8, 0x1007c00,
      [⟨0, 15, .rw, .any⟩, ⟨16, 9, .rw, .range 2 256⟩]⟩
  | .coreMailIdx => ⟨0x28050, 1, 0x0, 1, 0x8, 0,
      [⟨0, 8, .ro, .any⟩, ⟨8, 8, .rw, .any⟩]⟩
  | .calCtrl => ⟨0x30000, 1, 0x0, 1, 0x8, 3840,
      [⟨0, 8, .rw, .any⟩, ⟨8, 8, .rw, .any⟩, ⟨16, 1, .rw, .any⟩, ⟨17, 1, .wo, .any⟩, ⟨18, 1, .wo, .any⟩, ⟨19, 1, .wo, .any⟩]⟩
  | .calStatus => ⟨0x30008, 1, 0x0, 1, 0x8, 0,
      [⟨0, 8, .ro, .any⟩, ⟨8, 8, .w1c, .any⟩, ⟨16, 8, .w1c, .any⟩, ⟨24, 2, .ro, .any⟩, ⟨26, 1, .ro, .any⟩, ⟨27, 1, .w1c, .any⟩, ⟨28, 1, .ro, .any⟩, ⟨32, 32, .ro, .any⟩]⟩
  | .calChUncal => ⟨0x30010, 1, 0x0, 2, 0x8, 0,
      [⟨0, 64, .w1c, .any⟩]⟩
  | .calBayCfg => ⟨0x30040, 1, 0x0, 8, 0x8, 0,
      [⟨0, 4, .rw, .any⟩, ⟨4, 6, .rw, .any⟩, ⟨10, 6, .rw, .any⟩, ⟨16, 1, .rw, .any⟩, ⟨17, 6, .rw, .any⟩, ⟨23, 1, .rw, .any⟩]⟩
  | .calBayStat => ⟨0x30080, 1, 0x0, 8, 0x8, 0,
      [⟨0, 5, .ro, .any⟩, ⟨5, 3, .ro, .any⟩, ⟨8, 1, .ro, .any⟩, ⟨9, 1, .ro, .any⟩, ⟨16, 12, .ro, .any⟩]⟩
  | .calRefpath => ⟨0x30100, 1, 0x0, 8, 0x8, 0,
      [⟨0, 16, .rwHost, .srange 2048 2047⟩, ⟨16, 1, .ro, .any⟩]⟩
  | .calTimeTrim => ⟨0x30140, 1, 0x0, 1, 0x8, 0,
      [⟨0, 32, .rwHost, .srange 3579139 3579139⟩, ⟨32, 32, .ro, .any⟩]⟩
  | .calOluEye => ⟨0x30180, 1, 0x0, 4, 0x8, 0,
      [⟨0, 32, .ro, .any⟩, ⟨32, 1, .ro, .any⟩]⟩
  | .rasReset => ⟨0x38000, 1, 0x0, 1, 0x8, 0,
      [⟨0, 4, .wo, .any⟩, ⟨4, 8, .wo, .any⟩, ⟨12, 1, .wo, .any⟩, ⟨16, 16, .wo, .any⟩]⟩
  | .rasCtrl => ⟨0x38008, 1, 0x0, 1, 0x8, 1,
      [⟨0, 1, .rw, .any⟩]⟩
  | .rasStatus => ⟨0x38010, 1, 0x0, 1, 0x8, 0,
      [⟨0, 1, .ro, .any⟩, ⟨1, 1, .ro, .any⟩, ⟨2, 3, .ro, .any⟩, ⟨5, 3, .ro, .any⟩, ⟨8, 8, .w1c, .any⟩, ⟨16, 8, .ro, .any⟩]⟩
  | .rasErrStat => ⟨0x38018, 1, 0x0, 1, 0x8, 0,
      [⟨0, 32, .ro, .any⟩, ⟨32, 16, .ro, .any⟩, ⟨48, 1, .ro, .any⟩, ⟨49, 1, .ro, .any⟩, ⟨63, 1, .wo, .any⟩]⟩
  | .rasErrLog => ⟨0x38020, 1, 0x0, 1, 0x8, 0,
      [⟨0, 4, .ro, .any⟩, ⟨4, 10, .ro, .any⟩, ⟨14, 8, .ro, .any⟩, ⟨22, 24, .ro, .any⟩, ⟨46, 1, .ro, .any⟩]⟩
  | .thermCfg => ⟨0x38100, 1, 0x0, 1, 0x8, 105,
      [⟨0, 8, .rw, .range 60 105⟩]⟩
  | .thermStatus => ⟨0x38108, 1, 0x0, 1, 0x8, 0,
      [⟨0, 1, .ro, .any⟩, ⟨1, 1, .ro, .any⟩, ⟨2, 1, .w1c, .any⟩, ⟨3, 1, .w1c, .any⟩, ⟨16, 12, .ro, .any⟩]⟩
  | .thermTemp => ⟨0x38140, 1, 0x0, 16, 0x8, 0,
      [⟨0, 12, .ro, .any⟩, ⟨12, 12, .ro, .any⟩, ⟨63, 1, .wo, .any⟩]⟩
  | .bayPark => ⟨0x40100, 8, 0x8000, 1, 0x8, 0,
      [⟨0, 32, .rw, .any⟩]⟩
  | .bayDeskew => ⟨0x40200, 8, 0x8000, 16, 0x8, 0,
      [⟨0, 13, .rw, .any⟩, ⟨16, 13, .rw, .any⟩, ⟨32, 13, .rw, .any⟩, ⟨48, 13, .rw, .any⟩]⟩
  | .bayEdgeStat => ⟨0x40280, 8, 0x8000, 16, 0x8, 0,
      [⟨0, 32, .ro, .any⟩, ⟨32, 1, .ro, .any⟩, ⟨40, 16, .ro, .any⟩, ⟨56, 1, .ro, .any⟩, ⟨63, 1, .wo, .any⟩]⟩
  | .bayDclkCtrl => ⟨0x40300, 8, 0x8000, 2, 0x10, 0,
      [⟨0, 1, .wo, .any⟩, ⟨1, 1, .wo, .any⟩, ⟨2, 1, .wo, .any⟩, ⟨3, 1, .rw, .any⟩, ⟨4, 2, .rw, .any⟩, ⟨6, 1, .ro, .any⟩, ⟨8, 8, .rw, .any⟩, ⟨16, 20, .rw, .any⟩]⟩
  | .bayDclkPeriod => ⟨0x40308, 8, 0x8000, 2, 0x10, 0x30000000,
      [⟨0, 40, .rw, .range 134217728 80530636800⟩]⟩
  | .bayStaticMask => ⟨0x40400, 8, 0x8000, 1, 0x8, 0,
      [⟨0, 16, .rw, .any⟩]⟩
  | .bayFailCount => ⟨0x40480, 8, 0x8000, 16, 0x8, 0,
      [⟨0, 32, .ro, .any⟩, ⟨32, 1, .ro, .any⟩]⟩
  | .bayFailSnap => ⟨0x40500, 8, 0x8000, 1, 0x8, 0,
      [⟨0, 1, .wo, .any⟩, ⟨1, 1, .wo, .any⟩, ⟨2, 1, .ro, .any⟩, ⟨16, 48, .ro, .any⟩]⟩
  | .bayFailShadow => ⟨0x40580, 8, 0x8000, 16, 0x8, 0,
      [⟨0, 32, .ro, .any⟩, ⟨32, 1, .ro, .any⟩]⟩
  | .bayCmpStat => ⟨0x40600, 8, 0x8000, 1, 0x8, 0,
      [⟨0, 16, .ro, .any⟩, ⟨16, 1, .ro, .any⟩, ⟨32, 16, .ro, .any⟩, ⟨48, 1, .ro, .any⟩, ⟨63, 1, .wo, .any⟩]⟩
  | .bayFdlin => ⟨0x41000, 8, 0x8000, 128, 0x8, 0,
      [⟨0, 64, .rw, .any⟩]⟩
  | .bayAdcCtrl => ⟨0x42000, 8, 0x8000, 1, 0x8, 0,
      [⟨0, 1, .wo, .any⟩, ⟨1, 1, .wo, .any⟩, ⟨2, 1, .wo, .any⟩, ⟨3, 1, .wo, .any⟩, ⟨4, 1, .wo, .any⟩, ⟨5, 1, .wo, .any⟩, ⟨6, 4, .wo, .any⟩, ⟨10, 1, .wo, .any⟩, ⟨11, 1, .wo, .any⟩]⟩
  | .bayAdcCfg => ⟨0x42008, 8, 0x8000, 1, 0x8, 0x10004,
      [⟨0, 1, .rw, .any⟩, ⟨1, 1, .rw, .any⟩, ⟨2, 5, .rw, .range 1 16⟩, ⟨7, 2, .rw, .above 2 0⟩, ⟨9, 5, .rw, .any⟩, ⟨14, 2, .rw, .above 2 0⟩, ⟨16, 1, .rw, .any⟩]⟩
  | .bayAdcFilt => ⟨0x42010, 8, 0x8000, 1, 0x8, 0x10008,
      [⟨0, 3, .rw, .range 0 4⟩, ⟨3, 4, .rw, .any⟩, ⟨7, 3, .rw, .range 0 6⟩, ⟨10, 1, .rw, .any⟩, ⟨16, 16, .rw, .range 1 65535⟩, ⟨32, 16, .rw, .any⟩]⟩
  | .bayAdcRatio => ⟨0x42018, 8, 0x8000, 1, 0x8, 0x10000,
      [⟨0, 24, .rw, .range 65536 16777215⟩]⟩
  | .bayAdcEnt => ⟨0x42040, 8, 0x8000, 16, 0x8, 0x100000000,
      [⟨0, 4, .rw, .above 13 0⟩, ⟨4, 2, .rw, .any⟩, ⟨16, 16, .rw, .any⟩, ⟨32, 16, .rw, .any⟩]⟩
  | .bayAdcDelay => ⟨0x420C0, 8, 0x8000, 16, 0x8, 0,
      [⟨0, 8, .rw, .any⟩, ⟨8, 8, .rw, .any⟩]⟩
  | .bayAdcStat => ⟨0x42140, 8, 0x8000, 1, 0x8, 0,
      [⟨0, 2, .ro, .any⟩, ⟨2, 4, .ro, .any⟩, ⟨6, 1, .ro, .any⟩, ⟨7, 1, .ro, .any⟩, ⟨8, 1, .ro, .any⟩, ⟨9, 1, .ro, .any⟩, ⟨10, 1, .ro, .any⟩, ⟨11, 1, .rs, .any⟩, ⟨12, 1, .rs, .any⟩, ⟨13, 1, .w1c, .any⟩, ⟨32, 24, .ro, .any⟩]⟩
  | .bayAdcCounts => ⟨0x42148, 8, 0x8000, 1, 0x8, 0,
      [⟨0, 10, .ro, .any⟩, ⟨10, 10, .ro, .any⟩, ⟨20, 10, .ro, .any⟩, ⟨30, 10, .ro, .any⟩, ⟨40, 8, .ro, .any⟩, ⟨48, 8, .ro, .any⟩, ⟨56, 1, .ro, .any⟩, ⟨63, 1, .wo, .any⟩]⟩
  | .bayAdcAccCfg => ⟨0x42150, 8, 0x8000, 1, 0x8, 0x249f000000000,
      [⟨0, 1, .rw, .any⟩, ⟨1, 1, .rw, .any⟩, ⟨2, 1, .rw, .any⟩, ⟨3, 5, .rw, .any⟩, ⟨8, 10, .rw, .any⟩, ⟨32, 32, .rw, .range 150 4294967295⟩]⟩
  | .bayAdcWin => ⟨0x42158, 8, 0x8000, 1, 0x8, 0,
      [⟨0, 1, .ro, .any⟩, ⟨1, 15, .ro, .any⟩, ⟨16, 16, .ro, .any⟩]⟩
  | .bayAdcWinOpen => ⟨0x42160, 8, 0x8000, 1, 0x8, 0,
      [⟨0, 64, .ro, .any⟩]⟩
  | .bayAdcWinClose => ⟨0x42168, 8, 0x8000, 1, 0x8, 0,
      [⟨0, 64, .ro, .any⟩]⟩
  | .bayAdcResSum => ⟨0x42200, 8, 0x8000, 16, 0x8, 0,
      [⟨0, 48, .ro, .any⟩, ⟨48, 1, .ro, .any⟩, ⟨49, 1, .ro, .any⟩, ⟨50, 1, .ro, .any⟩]⟩
  | .bayAdcResCnt => ⟨0x42280, 8, 0x8000, 16, 0x8, 0,
      [⟨0, 32, .ro, .any⟩, ⟨32, 1, .ro, .any⟩]⟩
  | .bayAdcResMinmax => ⟨0x42300, 8, 0x8000, 16, 0x8, 0,
      [⟨0, 24, .ro, .any⟩, ⟨32, 24, .ro, .any⟩]⟩
  | .bayAdcUrgentRes => ⟨0x42380, 8, 0x8000, 1, 0x8, 0,
      [⟨0, 24, .ro, .any⟩, ⟨24, 16, .ro, .any⟩, ⟨40, 4, .ro, .any⟩, ⟨44, 1, .w1c, .any⟩, ⟨45, 1, .ro, .any⟩]⟩
  | .bayAdcUrgentMm => ⟨0x42388, 8, 0x8000, 1, 0x8, 0,
      [⟨0, 24, .ro, .any⟩, ⟨32, 24, .ro, .any⟩]⟩
  | .bayAdcCoefSel => ⟨0x42400, 8, 0x8000, 1, 0x8, 2048,
      [⟨0, 10, .rw, .any⟩, ⟨10, 1, .rw, .any⟩, ⟨11, 1, .rw, .any⟩]⟩
  | .bayAdcCoefData => ⟨0x42408, 8, 0x8000, 1, 0x8, (Config.defaultCoef 0) * 1,
      [⟨0, 18, .rw, .any⟩]⟩
  | .bayAcqCtrl => ⟨0x43000, 8, 0x8000, 1, 0x8, 0,
      [⟨0, 1, .wo, .any⟩, ⟨1, 1, .wo, .any⟩, ⟨2, 1, .wo, .any⟩]⟩
  | .bayAcqCfg => ⟨0x43008, 8, 0x8000, 1, 0x8, 64,
      [⟨0, 2, .rw, .above 2 0⟩, ⟨2, 4, .rw, .any⟩, ⟨6, 11, .rw, .range 1 1024⟩, ⟨17, 10, .rw, .any⟩, ⟨27, 16, .rw, .any⟩]⟩
  | .bayAcqTime => ⟨0x43010, 8, 0x8000, 1, 0x8, 0x249f00000,
      [⟨0, 16, .rw, .any⟩, ⟨16, 32, .rw, .range 150 4294967295⟩]⟩
  | .bayAcqRing => ⟨0x43018, 8, 0x8000, 1, 0x8, 0x180000000020,
      [⟨0, 1, .rw, .any⟩, ⟨1, 5, .rw, .range 10 28⟩, ⟨6, 1, .rw, .any⟩, ⟨8, 6, .rw, .any⟩, ⟨16, 25, .rw, .any⟩, ⟨41, 4, .rw, .range 1 15⟩]⟩
  | .bayAcqPtr => ⟨0x43020, 8, 0x8000, 1, 0x8, 0,
      [⟨0, 32, .ro, .any⟩, ⟨32, 32, .rw, .any⟩]⟩
  | .bayAcqStat => ⟨0x43028, 8, 0x8000, 1, 0x8, 0,
      [⟨0, 3, .ro, .any⟩, ⟨3, 3, .ro, .any⟩, ⟨6, 1, .ro, .any⟩, ⟨7, 1, .ro, .any⟩, ⟨8, 10, .ro, .any⟩, ⟨18, 16, .ro, .any⟩]⟩
  | .bayAcqCounts => ⟨0x43030, 8, 0x8000, 1, 0x8, 0,
      [⟨0, 16, .ro, .any⟩, ⟨16, 1, .ro, .any⟩, ⟨32, 16, .ro, .any⟩, ⟨48, 1, .ro, .any⟩, ⟨63, 1, .wo, .any⟩]⟩
  | .bayAcqCond => ⟨0x43040, 8, 0x8000, 4, 0x10, 0,
      [⟨0, 4, .rw, .above 8 0⟩, ⟨4, 2, .rw, .above 2 0⟩, ⟨6, 2, .rw, .above 2 0⟩, ⟨8, 4, .rw, .any⟩, ⟨12, 16, .rw, .any⟩, ⟨28, 6, .rw, .any⟩, ⟨34, 1, .rw, .any⟩]⟩
  | .bayAcqLevel => ⟨0x43048, 8, 0x8000, 4, 0x10, 0,
      [⟨0, 24, .rw, .any⟩, ⟨32, 24, .rw, .any⟩]⟩
  | .bayTimCtrl => ⟨0x44000, 8, 0x8000, 4, 0x40, 0,
      [⟨0, 1, .wo, .any⟩, ⟨1, 1, .wo, .any⟩, ⟨2, 1, .wo, .any⟩]⟩
  | .bayTimCfg => ⟨0x44008, 8, 0x8000, 4, 0x40, 0x1000100000,
      [⟨0, 3, .rw, .above 5 0⟩, ⟨3, 6, .rw, .above 34 0⟩, ⟨9, 6, .rw, .above 34 0⟩, ⟨15, 2, .rw, .above 2 0⟩, ⟨17, 2, .rw, .above 2 0⟩, ⟨19, 1, .rw, .any⟩, ⟨20, 16, .rw, .range 1 65535⟩, ⟨36, 16, .rw, .range 1 65535⟩, ⟨52, 1, .rw, .any⟩]⟩
  | .bayTimCount => ⟨0x44010, 8, 0x8000, 4, 0x40, 0x493e0000001,
      [⟨0, 25, .rw, .range 1 16777216⟩, ⟨25, 32, .rw, .range 1 4294967295⟩]⟩
  | .bayTimTime => ⟨0x44018, 8, 0x8000, 4, 0x40, 0,
      [⟨0, 16, .rw, .any⟩, ⟨16, 16, .rw, .any⟩, ⟨32, 32, .rw, .any⟩]⟩
  | .bayTimNotify => ⟨0x44020, 8, 0x8000, 4, 0x40, 0,
      [⟨0, 1, .rw, .any⟩, ⟨1, 1, .rw, .any⟩, ⟨2, 5, .rw, .any⟩, ⟨7, 10, .rw, .any⟩]⟩
  | .bayTimResult => ⟨0x44028, 8, 0x8000, 4, 0x40, 0,
      [⟨0, 64, .ro, .any⟩]⟩
  | .bayTimAux => ⟨0x44030, 8, 0x8000, 4, 0x40, 0,
      [⟨0, 64, .ro, .any⟩]⟩
  | .bayTimStat => ⟨0x44038, 8, 0x8000, 4, 0x40, 0,
      [⟨0, 2, .ro, .any⟩, ⟨2, 1, .ro, .any⟩, ⟨3, 1, .ro, .any⟩, ⟨4, 1, .ro, .any⟩, ⟨5, 1, .ro, .any⟩, ⟨6, 1, .ro, .any⟩, ⟨7, 1, .ro, .any⟩, ⟨8, 1, .ro, .any⟩, ⟨16, 16, .ro, .any⟩, ⟨32, 16, .ro, .any⟩, ⟨48, 1, .ro, .any⟩, ⟨63, 1, .wo, .any⟩]⟩
  | .bayFeCfg => ⟨0x45000, 8, 0x8000, 1, 0x8, 0x111006,
      [⟨0, 8, .rw, .range 3 255⟩, ⟨8, 2, .rw, .any⟩, ⟨10, 2, .rw, .any⟩, ⟨12, 4, .rw, .range 1 15⟩, ⟨16, 4, .rw, .range 1 15⟩, ⟨20, 4, .rw, .range 1 15⟩, ⟨24, 1, .rw, .any⟩, ⟨25, 1, .rw, .any⟩, ⟨26, 5, .rw, .any⟩, ⟨31, 10, .rw, .any⟩]⟩
  | .bayFeCtrl => ⟨0x45008, 8, 0x8000, 1, 0x8, 0,
      [⟨0, 1, .wo, .any⟩, ⟨1, 6, .wo, .any⟩, ⟨7, 1, .wo, .any⟩]⟩
  | .bayFeStat => ⟨0x45010, 8, 0x8000, 1, 0x8, 0,
      [⟨0, 1, .ro, .any⟩, ⟨1, 6, .ro, .any⟩, ⟨7, 1, .ro, .any⟩, ⟨8, 6, .ro, .any⟩, ⟨14, 1, .ro, .any⟩, ⟨15, 1, .w1c, .any⟩, ⟨16, 1, .w1c, .any⟩, ⟨17, 1, .w1c, .any⟩, ⟨32, 16, .ro, .any⟩, ⟨48, 1, .ro, .any⟩, ⟨63, 1, .wo, .any⟩]⟩
  | .bayFeLsel => ⟨0x45018, 8, 0x8000, 1, 0x8, 2048,
      [⟨0, 6, .rw, .any⟩, ⟨6, 5, .rw, .any⟩, ⟨11, 1, .rw, .any⟩]⟩
  | .bayFeLdata => ⟨0x45020, 8, 0x8000, 1, 0x8, 0,
      [⟨0, 64, .rw, .any⟩]⟩
  | .bayFeRx => ⟨0x45040, 8, 0x8000, 8, 0x8, 0,
      [⟨0, 48, .ro, .any⟩, ⟨48, 1, .ro, .any⟩]⟩
  | .bayCalBay => ⟨0x46000, 8, 0x8000, 1, 0x8, 0,
      [⟨0, 12, .rw, .any⟩, ⟨16, 8, .rw, .any⟩, ⟨24, 8, .rw, .any⟩, ⟨32, 10, .rw, .any⟩]⟩
  | .bayTimOfs => ⟨0x46008, 8, 0x8000, 4, 0x8, 0,
      [⟨0, 16, .rw, .any⟩, ⟨16, 16, .rw, .any⟩]⟩
  | .bayAdcCal => ⟨0x46040, 8, 0x8000, 48, 0x8, 0,
      [⟨0, 16, .rw, .any⟩, ⟨16, 16, .rw, .any⟩]⟩
  | .bayCalQual => ⟨0x46200, 8, 0x8000, 16, 0x8, 0,
      [⟨0, 32, .ro, .any⟩, ⟨32, 8, .ro, .any⟩, ⟨40, 8, .ro, .any⟩, ⟨48, 1, .ro, .any⟩, ⟨49, 1, .ro, .any⟩, ⟨50, 1, .ro, .any⟩]⟩
  | .bayAdcQual => ⟨0x46280, 8, 0x8000, 1, 0x8, 0,
      [⟨0, 56, .ro, .any⟩, ⟨56, 1, .ro, .any⟩, ⟨57, 1, .ro, .any⟩]⟩
  | .seqCtrl => ⟨0x80000, 4, 0x10000, 1, 0x8, 4096,
      [⟨0, 1, .wo, .any⟩, ⟨1, 1, .wo, .any⟩, ⟨2, 1, .wo, .any⟩, ⟨3, 1, .wo, .any⟩, ⟨4, 1, .wo, .any⟩, ⟨8, 2, .rw, .above 2 0⟩, ⟨10, 3, .rw, .range 0 4⟩]⟩
  | .seqEntry => ⟨0x80008, 4, 0x10000, 1, 0x8, 0,
      [⟨0, 38, .rw, .any⟩]⟩
  | .seqStatus => ⟨0x80010, 4, 0x10000, 1, 0x8, 0,
      [⟨0, 3, .ro, .any⟩, ⟨4, 4, .ro, .any⟩, ⟨8, 4, .ro, .any⟩, ⟨12, 1, .w1c, .any⟩, ⟨13, 1, .w1c, .any⟩, ⟨14, 1, .w1c, .any⟩, ⟨15, 1, .w1c, .any⟩, ⟨16, 1, .w1c, .any⟩, ⟨17, 1, .ro, .any⟩]⟩
  | .seqFaultInfo => ⟨0x80018, 4, 0x10000, 1, 0x8, 0,
      [⟨0, 38, .ro, .any⟩, ⟨40, 4, .ro, .any⟩]⟩
  | .seqFaultCycle => ⟨0x80020, 4, 0x10000, 1, 0x8, 0,
      [⟨0, 64, .ro, .any⟩]⟩
  | .seqCycle => ⟨0x80028, 4, 0x10000, 1, 0x8, 0,
      [⟨0, 64, .ro, .any⟩]⟩
  | .seqPosition => ⟨0x80030, 4, 0x10000, 1, 0x8, 0,
      [⟨0, 38, .ro, .any⟩, ⟨40, 5, .ro, .any⟩, ⟨45, 6, .ro, .any⟩, ⟨51, 1, .ro, .any⟩, ⟨52, 5, .ro, .any⟩]⟩
  | .seqCondLatency => ⟨0x80038, 4, 0x10000, 1, 0x8, 0x740060,
      [⟨0, 13, .ro, .any⟩, ⟨16, 14, .ro, .any⟩]⟩
  | .seqCondCtrl => ⟨0x80040, 4, 0x10000, 1, 0x8, 0,
      [⟨0, 5, .rw, .any⟩, ⟨8, 6, .rw, .any⟩]⟩
  | .seqCondGfsel => ⟨0x80048, 4, 0x10000, 1, 0x8, 0,
      [⟨0, 48, .rw, .any⟩]⟩
  | .seqPegWatchdog => ⟨0x80050, 4, 0x10000, 1, 0x8, 0x8f0d180,
      [⟨0, 32, .rw, .range 1500 4294967295⟩]⟩
  | .seqLaunchDelay => ⟨0x80058, 4, 0x10000, 1, 0x8, 128,
      [⟨0, 16, .rw, .range 64 65535⟩]⟩
  | .seqLflags => ⟨0x80060, 4, 0x10000, 1, 0x8, 0,
      [⟨0, 16, .rw, .any⟩, ⟨16, 16, .rw, .any⟩]⟩
  | .seqMatchCtrl => ⟨0x80068, 4, 0x10000, 1, 0x8, 0,
      [⟨0, 1, .rw, .any⟩]⟩
  | .seqBarrier => ⟨0x80080, 4, 0x10000, 8, 0x8, 0,
      [⟨0, 4, .rw, .any⟩, ⟨4, 6, .rw, .any⟩, ⟨10, 1, .rw, .any⟩, ⟨16, 4, .ro, .any⟩, ⟨20, 6, .ro, .any⟩]⟩
  | .seqLoopAddr => ⟨0x80100, 4, 0x10000, 16, 0x8, 0,
      [⟨0, 38, .ro, .any⟩, ⟨38, 1, .ro, .any⟩]⟩
  | .seqLoopCount => ⟨0x80180, 4, 0x10000, 16, 0x8, 0,
      [⟨0, 32, .ro, .any⟩, ⟨32, 32, .ro, .any⟩]⟩
  | .seqStack => ⟨0x80200, 4, 0x10000, 32, 0x8, 0,
      [⟨0, 38, .ro, .any⟩, ⟨40, 5, .ro, .any⟩]⟩
  | .seqTsCtrl => ⟨0x80400, 4, 0x10000, 1, 0x8, 0,
      [⟨0, 1, .wo, .any⟩, ⟨1, 1, .rw, .any⟩, ⟨2, 1, .ro, .any⟩, ⟨3, 1, .w1c, .any⟩]⟩
  | .seqTsDirty => ⟨0x80408, 4, 0x10000, 1, 0x8, 0,
      [⟨0, 64, .ro, .any⟩]⟩
  | .seqTsSel => ⟨0x80410, 4, 0x10000, 1, 0x8, 0,
      [⟨0, 6, .rw, .any⟩, ⟨8, 7, .rw, .any⟩]⟩
  | .seqTsEdge => ⟨0x80420, 4, 0x10000, 6, 0x8, 0,
      [⟨0, 44, .rw, .any⟩]⟩
  | .seqTsWave => ⟨0x80480, 4, 0x10000, 16, 0x8, 0,
      [⟨0, 24, .rw, .nibbles⟩]⟩
  | .seqTsPeriod => ⟨0x80600, 4, 0x10000, 64, 0x8, 49152,
      [⟨0, 42, .rw, .any⟩]⟩
  | .seqMask => ⟨0x80800, 4, 0x10000, 16, 0x8, 0,
      [⟨0, 64, .rw, .any⟩]⟩
  | .seqSiteFail => ⟨0x80880, 4, 0x10000, 1, 0x8, 0,
      [⟨0, 32, .w1c, .any⟩, ⟨32, 1, .w1c, .any⟩]⟩
  | .seqFailstop => ⟨0x80888, 4, 0x10000, 1, 0x8, 0,
      [⟨0, 2, .rw, .above 2 0⟩, ⟨2, 1, .rw, .any⟩, ⟨8, 6, .rw, .any⟩]⟩
  | .seqFailGf => ⟨0x80890, 4, 0x10000, 1, 0x8, 0,
      [⟨0, 1, .rw, .any⟩, ⟨1, 1, .rw, .any⟩, ⟨2, 5, .rw, .any⟩, ⟨8, 6, .rw, .any⟩]⟩
  | .seqFfseq => ⟨0x808C0, 4, 0x10000, 4, 0x8, 0,
      [⟨0, 64, .ro, .any⟩]⟩
  | .seqFfsite => ⟨0x80A00, 4, 0x10000, 128, 0x8, 0,
      [⟨0, 64, .ro, .any⟩]⟩
  | .seqLogCfg => ⟨0x80E00, 4, 0x10000, 1, 0x8, 32,
      [⟨0, 1, .rw, .any⟩, ⟨1, 5, .rw, .range 10 28⟩, ⟨6, 1, .rw, .any⟩, ⟨8, 6, .rw, .any⟩, ⟨16, 25, .rw, .any⟩]⟩
  | .seqLogPtr => ⟨0x80E08, 4, 0x10000, 1, 0x8, 0,
      [⟨0, 32, .ro, .any⟩, ⟨32, 32, .rw, .any⟩]⟩
  | .seqLogStat => ⟨0x80E10, 4, 0x10000, 1, 0x8, 0,
      [⟨0, 12, .ro, .any⟩, ⟨12, 1, .ro, .any⟩, ⟨13, 1, .w1c, .any⟩, ⟨16, 32, .ro, .any⟩, ⟨48, 1, .ro, .any⟩, ⟨63, 1, .wo, .any⟩]⟩
  | .seqCapCfg => ⟨0x80E20, 4, 0x10000, 1, 0x8, 32,
      [⟨0, 1, .rw, .any⟩, ⟨1, 5, .rw, .range 10 28⟩, ⟨6, 1, .rw, .any⟩, ⟨8, 6, .rw, .any⟩, ⟨16, 25, .rw, .any⟩]⟩
  | .seqCapPtr => ⟨0x80E28, 4, 0x10000, 1, 0x8, 0,
      [⟨0, 32, .ro, .any⟩, ⟨32, 32, .rw, .any⟩]⟩
  | .seqCapStat => ⟨0x80E30, 4, 0x10000, 1, 0x8, 0,
      [⟨0, 13, .ro, .any⟩, ⟨13, 1, .w1c, .any⟩, ⟨16, 32, .ro, .any⟩, ⟨48, 1, .ro, .any⟩, ⟨63, 1, .wo, .any⟩]⟩
  | .seqCapSel => ⟨0x80E40, 4, 0x10000, 4, 0x8, 0,
      [⟨0, 64, .rw, .any⟩]⟩
  | .seqUnderrun => ⟨0x80F00, 4, 0x10000, 1, 0x8, 0,
      [⟨0, 1, .w1c, .any⟩, ⟨1, 1, .ro, .any⟩, ⟨16, 32, .ro, .any⟩, ⟨48, 1, .ro, .any⟩, ⟨63, 1, .wo, .any⟩]⟩
  | .seqUnderrunInfo => ⟨0x80F08, 4, 0x10000, 1, 0x8, 0,
      [⟨0, 38, .ro, .any⟩, ⟨38, 1, .ro, .any⟩]⟩
  | .seqUnderrunCycle => ⟨0x80F10, 4, 0x10000, 1, 0x8, 0,
      [⟨0, 64, .ro, .any⟩]⟩
  | .seqResumeDelay => ⟨0x80F18, 4, 0x10000, 1, 0x8, 128,
      [⟨0, 16, .rw, .range 64 65535⟩]⟩
  | .seqStallCtrl => ⟨0x80F20, 4, 0x10000, 1, 0x8, 128,
      [⟨0, 9, .rw, .range 1 256⟩, ⟨32, 32, .rw, .any⟩]⟩
  | .seqStallTime => ⟨0x80F28, 4, 0x10000, 1, 0x8, 0,
      [⟨0, 63, .ro, .any⟩, ⟨63, 1, .wo, .any⟩]⟩
  | .seqLcacheStat => ⟨0x80F30, 4, 0x10000, 1, 0x8, 0,
      [⟨0, 14, .ro, .any⟩, ⟨14, 1, .ro, .any⟩, ⟨16, 32, .ro, .any⟩, ⟨48, 1, .ro, .any⟩, ⟨63, 1, .wo, .any⟩]⟩
  | .seqNostallStart => ⟨0x80F40, 4, 0x10000, 4, 0x8, 0,
      [⟨0, 38, .rw, .any⟩, ⟨63, 1, .rw, .any⟩]⟩
  | .seqNostallEnd => ⟨0x80F60, 4, 0x10000, 4, 0x8, 0,
      [⟨0, 38, .rw, .any⟩]⟩
  | .siteCtrl => ⟨0xC0000, 1, 0x0, 1, 0x8, 0,
      [⟨0, 1, .wo, .any⟩, ⟨1, 1, .rw, .any⟩]⟩
  | .siteStatus => ⟨0xC0008, 1, 0x0, 1, 0x8, 0,
      [⟨0, 32, .w1c, .any⟩, ⟨32, 3, .ro, .any⟩]⟩
  | .siteDirty => ⟨0xC0010, 1, 0x0, 1, 0x8, 0,
      [⟨0, 32, .ro, .any⟩]⟩
  | .siteEpoch => ⟨0xC0018, 1, 0x0, 1, 0x8, 0,
      [⟨0, 32, .ro, .any⟩]⟩
  | .sitekCfg => ⟨0xC1000, 32, 0x100, 1, 0x8, 0,
      [⟨0, 2, .rw, .any⟩]⟩
  | .sitekCtrl => ⟨0xC1008, 32, 0x100, 1, 0x8, 0,
      [⟨0, 1, .rw, .any⟩, ⟨1, 1, .rw, .any⟩, ⟨2, 1, .rw, .any⟩, ⟨3, 1, .rw, .any⟩, ⟨4, 1, .rw, .any⟩, ⟨8, 6, .rw, .any⟩, ⟨16, 10, .rw, .any⟩, ⟨26, 5, .rw, .any⟩]⟩
  | .sitekStatus => ⟨0xC1010, 32, 0x100, 1, 0x8, 0,
      [⟨0, 3, .ro, .any⟩, ⟨4, 2, .ro, .any⟩, ⟨8, 8, .ro, .any⟩, ⟨16, 8, .ro, .any⟩]⟩
  | .sitekResult => ⟨0xC1018, 32, 0x100, 1, 0x8, 0,
      [⟨0, 48, .ro, .any⟩, ⟨48, 8, .ro, .any⟩, ⟨56, 1, .ro, .any⟩, ⟨57, 1, .ro, .any⟩]⟩
  | .sitekPinmap => ⟨0xC1040, 32, 0x100, 16, 0x8, 0,
      [⟨0, 64, .rw, .any⟩]⟩

/-- Every register name, in the order of the index. -/
def RegName.all : List RegName :=
  ([.globalIdent, .globalBaymap, .globalBaymapStatus, .globalGpioCfg, .globalGpioOut, .globalGpioIn, .clkStatus, .clkRefmon] : List RegName)
  ++ ([.clkAlign, .clkAlignLoad, .clkEtcount, .clkAlignResult, .clkPrecStats, .hifLink, .hifEventStat, .ringBase] : List RegName)
  ++ ([.ringCfg, .ringCtrl, .ringIndex, .ringIdxwb, .ringStatus, .ringEvmask, .timeCtrl, .timeStatus] : List RegName)
  ++ ([.timeDelta, .timeDomDiff, .timePortCfg, .timePortLat, .timePortMac, .timePpsCfg, .timePpsInSec, .timePpsInNs] : List RegName)
  ++ ([.timeSnapSec, .timeSnapNs, .timeRaisePeermask, .timeRaiseSec, .timeRaiseNs, .domCtrl, .domNominal, .domAddend] : List RegName)
  ++ ([.domGain, .domLock, .domSampleDelay, .domSampleOffset, .domStep, .domStatus, .oluChip, .oluBcast] : List RegName)
  ++ ([.oluGflags, .oluGfOp, .oluBulkWin, .oluRoute, .oluBulkSrc, .oluBulkDst, .oluBulkCtrl, .olupCtrl] : List RegName)
  ++ ([.olupStatus, .olupErrStat, .olupTickchk, .drmCtrl, .drmOrg, .drmInfo, .drmPrio, .drmPanic] : List RegName)
  ++ ([.drmSr, .drmScrub, .mchCtrl, .mchTimingA, .mchTimingB, .mchDlySel, .mchDlyData, .mchDlyApply] : List RegName)
  ++ ([.mchTrainCmd, .mchTrainAddr, .mchTrainPat, .mchTrainRes, .mchEccStat, .mchEccAddr, .pgtCtrl, .pgtStatus] : List RegName)
  ++ ([.pgtFrames, .pgtWinCmd, .pgtWinData, .pgtLoadStat, .pgtErrStat, .pgtLookahead, .dispCtrl, .dispOp] : List RegName)
  ++ ([.dispLevelDepth, .dispCoreStat, .dispGpioRoute, .dispFlowCfg, .dispFlowStat, .dispThrCfg, .dispThrState, .dispThrWait] : List RegName)
  ++ ([.coreCtrl, .coreStatus, .coreLoadAddr, .coreLoadCtrl, .coreKeyhash, .coreDramwin, .coreMailbox, .coreMailIdx] : List RegName)
  ++ ([.calCtrl, .calStatus, .calChUncal, .calBayCfg, .calBayStat, .calRefpath, .calTimeTrim, .calOluEye] : List RegName)
  ++ ([.rasReset, .rasCtrl, .rasStatus, .rasErrStat, .rasErrLog, .thermCfg, .thermStatus, .thermTemp] : List RegName)
  ++ ([.bayPark, .bayDeskew, .bayEdgeStat, .bayDclkCtrl, .bayDclkPeriod, .bayStaticMask, .bayFailCount, .bayFailSnap] : List RegName)
  ++ ([.bayFailShadow, .bayCmpStat, .bayFdlin, .bayAdcCtrl, .bayAdcCfg, .bayAdcFilt, .bayAdcRatio, .bayAdcEnt] : List RegName)
  ++ ([.bayAdcDelay, .bayAdcStat, .bayAdcCounts, .bayAdcAccCfg, .bayAdcWin, .bayAdcWinOpen, .bayAdcWinClose, .bayAdcResSum] : List RegName)
  ++ ([.bayAdcResCnt, .bayAdcResMinmax, .bayAdcUrgentRes, .bayAdcUrgentMm, .bayAdcCoefSel, .bayAdcCoefData, .bayAcqCtrl, .bayAcqCfg] : List RegName)
  ++ ([.bayAcqTime, .bayAcqRing, .bayAcqPtr, .bayAcqStat, .bayAcqCounts, .bayAcqCond, .bayAcqLevel, .bayTimCtrl] : List RegName)
  ++ ([.bayTimCfg, .bayTimCount, .bayTimTime, .bayTimNotify, .bayTimResult, .bayTimAux, .bayTimStat, .bayFeCfg] : List RegName)
  ++ ([.bayFeCtrl, .bayFeStat, .bayFeLsel, .bayFeLdata, .bayFeRx, .bayCalBay, .bayTimOfs, .bayAdcCal] : List RegName)
  ++ ([.bayCalQual, .bayAdcQual, .seqCtrl, .seqEntry, .seqStatus, .seqFaultInfo, .seqFaultCycle, .seqCycle] : List RegName)
  ++ ([.seqPosition, .seqCondLatency, .seqCondCtrl, .seqCondGfsel, .seqPegWatchdog, .seqLaunchDelay, .seqLflags, .seqMatchCtrl] : List RegName)
  ++ ([.seqBarrier, .seqLoopAddr, .seqLoopCount, .seqStack, .seqTsCtrl, .seqTsDirty, .seqTsSel, .seqTsEdge] : List RegName)
  ++ ([.seqTsWave, .seqTsPeriod, .seqMask, .seqSiteFail, .seqFailstop, .seqFailGf, .seqFfseq, .seqFfsite] : List RegName)
  ++ ([.seqLogCfg, .seqLogPtr, .seqLogStat, .seqCapCfg, .seqCapPtr, .seqCapStat, .seqCapSel, .seqUnderrun] : List RegName)
  ++ ([.seqUnderrunInfo, .seqUnderrunCycle, .seqResumeDelay, .seqStallCtrl, .seqStallTime, .seqLcacheStat, .seqNostallStart, .seqNostallEnd] : List RegName)
  ++ ([.siteCtrl, .siteStatus, .siteDirty, .siteEpoch, .sitekCfg, .sitekCtrl, .sitekStatus, .sitekResult] : List RegName)
  ++ ([.sitekPinmap] : List RegName)

/-- A field: its register, its lowest bit and its width. -/
structure Fld where
  reg   : RegName
  lo    : Nat
  width : Nat
deriving DecidableEq, Repr

namespace F

abbrev globalIdentPart : Fld := ⟨.globalIdent, 0, 16⟩
abbrev globalIdentGrade : Fld := ⟨.globalIdent, 16, 8⟩
abbrev globalIdentStepping : Fld := ⟨.globalIdent, 24, 8⟩
abbrev globalBaymapSeqsel : Fld := ⟨.globalBaymap, 0, 16⟩
abbrev globalBaymapAssigned : Fld := ⟨.globalBaymap, 16, 8⟩
abbrev globalBaymapStatusRefused : Fld := ⟨.globalBaymapStatus, 0, 8⟩
abbrev globalBaymapStatusBusy : Fld := ⟨.globalBaymapStatus, 8, 8⟩
abbrev globalBaymapStatusRunning : Fld := ⟨.globalBaymapStatus, 16, 4⟩
abbrev globalGpioCfgDir : Fld := ⟨.globalGpioCfg, 0, 32⟩
abbrev globalGpioCfgOd : Fld := ⟨.globalGpioCfg, 32, 32⟩
abbrev globalGpioOutLevel : Fld := ⟨.globalGpioOut, 0, 32⟩
abbrev globalGpioInLevel : Fld := ⟨.globalGpioIn, 0, 32⟩
abbrev clkStatusRootLock : Fld := ⟨.clkStatus, 0, 1⟩
abbrev clkStatusHoldover : Fld := ⟨.clkStatus, 1, 1⟩
abbrev clkStatusRefLost : Fld := ⟨.clkStatus, 2, 1⟩
abbrev clkStatusRefLostSeen : Fld := ⟨.clkStatus, 3, 1⟩
abbrev clkStatusTickAligned : Fld := ⟨.clkStatus, 4, 1⟩
abbrev clkStatusAlignState : Fld := ⟨.clkStatus, 5, 2⟩
abbrev clkStatusAlignRefused : Fld := ⟨.clkStatus, 7, 1⟩
abbrev clkRefmonDropoutCount : Fld := ⟨.clkRefmon, 0, 16⟩
abbrev clkRefmonDropoutSaturated : Fld := ⟨.clkRefmon, 16, 1⟩
abbrev clkRefmonLostCount : Fld := ⟨.clkRefmon, 32, 16⟩
abbrev clkRefmonLostSaturated : Fld := ⟨.clkRefmon, 48, 1⟩
abbrev clkRefmonClear : Fld := ⟨.clkRefmon, 63, 1⟩
abbrev clkAlignArm : Fld := ⟨.clkAlign, 0, 1⟩
abbrev clkAlignMode : Fld := ⟨.clkAlign, 1, 1⟩
abbrev clkAlignSyncDrive : Fld := ⟨.clkAlign, 2, 1⟩
abbrev clkAlignDisarm : Fld := ⟨.clkAlign, 3, 1⟩
abbrev clkAlignLoadValue : Fld := ⟨.clkAlignLoad, 0, 64⟩
abbrev clkEtcountCount : Fld := ⟨.clkEtcount, 0, 64⟩
abbrev clkAlignResultEtcountLow : Fld := ⟨.clkAlignResult, 0, 48⟩
abbrev clkAlignResultPhase : Fld := ⟨.clkAlignResult, 48, 3⟩
abbrev clkAlignResultValid : Fld := ⟨.clkAlignResult, 51, 1⟩
abbrev clkPrecStatsSupersededCount : Fld := ⟨.clkPrecStats, 0, 32⟩
abbrev clkPrecStatsSaturated : Fld := ⟨.clkPrecStats, 32, 1⟩
abbrev clkPrecStatsClear : Fld := ⟨.clkPrecStats, 63, 1⟩
abbrev hifLinkSpeed : Fld := ⟨.hifLink, 0, 3⟩
abbrev hifLinkWidth : Fld := ⟨.hifLink, 4, 4⟩
abbrev hifLinkDlUp : Fld := ⟨.hifLink, 8, 1⟩
abbrev hifEventStatUnrouted : Fld := ⟨.hifEventStat, 0, 32⟩
abbrev hifEventStatSaturated : Fld := ⟨.hifEventStat, 32, 1⟩
abbrev hifEventStatClear : Fld := ⟨.hifEventStat, 63, 1⟩
abbrev ringBaseAddress : Fld := ⟨.ringBase, 12, 52⟩
abbrev ringCfgType : Fld := ⟨.ringCfg, 0, 4⟩
abbrev ringCfgSize : Fld := ⟨.ringCfg, 4, 5⟩
abbrev ringCfgPair : Fld := ⟨.ringCfg, 10, 6⟩
abbrev ringCfgVector : Fld := ⟨.ringCfg, 16, 6⟩
abbrev ringCfgIrqEn : Fld := ⟨.ringCfg, 22, 1⟩
abbrev ringCfgIrqHoldoff : Fld := ⟨.ringCfg, 32, 16⟩
abbrev ringCfgIrqCount : Fld := ⟨.ringCfg, 48, 16⟩
abbrev ringCtrlEnable : Fld := ⟨.ringCtrl, 0, 1⟩
abbrev ringCtrlDisable : Fld := ⟨.ringCtrl, 1, 1⟩
abbrev ringCtrlReset : Fld := ⟨.ringCtrl, 2, 1⟩
abbrev ringIndexProd : Fld := ⟨.ringIndex, 0, 16⟩
abbrev ringIndexCons : Fld := ⟨.ringIndex, 16, 16⟩
abbrev ringIdxwbEn : Fld := ⟨.ringIdxwb, 0, 1⟩
abbrev ringIdxwbAddress : Fld := ⟨.ringIdxwb, 3, 61⟩
abbrev ringStatusState : Fld := ⟨.ringStatus, 0, 2⟩
abbrev ringStatusDbOverrun : Fld := ⟨.ringStatus, 2, 1⟩
abbrev ringStatusDbClamped : Fld := ⟨.ringStatus, 3, 1⟩
abbrev ringStatusDmaErr : Fld := ⟨.ringStatus, 4, 1⟩
abbrev ringStatusFull : Fld := ⟨.ringStatus, 5, 1⟩
abbrev ringStatusDropped : Fld := ⟨.ringStatus, 16, 32⟩
abbrev ringStatusSaturated : Fld := ⟨.ringStatus, 48, 1⟩
abbrev ringStatusClear : Fld := ⟨.ringStatus, 63, 1⟩
abbrev ringEvmaskGroups : Fld := ⟨.ringEvmask, 0, 64⟩
abbrev timeCtrlSelect : Fld := ⟨.timeCtrl, 0, 1⟩
abbrev timeCtrlAutoswitch : Fld := ⟨.timeCtrl, 1, 1⟩
abbrev timeCtrlSlew : Fld := ⟨.timeCtrl, 8, 8⟩
abbrev timeCtrlLockstep : Fld := ⟨.timeCtrl, 16, 2⟩
abbrev timeCtrlLead : Fld := ⟨.timeCtrl, 20, 12⟩
abbrev timeStatusSelected : Fld := ⟨.timeStatus, 0, 1⟩
abbrev timeStatusSlewing : Fld := ⟨.timeStatus, 1, 1⟩
abbrev timeStatusSwitched : Fld := ⟨.timeStatus, 2, 1⟩
abbrev timeStatusLockstepOk : Fld := ⟨.timeStatus, 3, 1⟩
abbrev timeStatusLockstepLost : Fld := ⟨.timeStatus, 4, 1⟩
abbrev timeStatusRaisePending : Fld := ⟨.timeStatus, 5, 1⟩
abbrev timeDeltaDelta : Fld := ⟨.timeDelta, 0, 64⟩
abbrev timeDomDiffDiff : Fld := ⟨.timeDomDiff, 0, 64⟩
abbrev timePortCfgEnable : Fld := ⟨.timePortCfg, 0, 1⟩
abbrev timePortCfgMode : Fld := ⟨.timePortCfg, 1, 1⟩
abbrev timePortCfgAnEn : Fld := ⟨.timePortCfg, 2, 1⟩
abbrev timePortCfgPromisc : Fld := ⟨.timePortCfg, 3, 1⟩
abbrev timePortCfgDomain : Fld := ⟨.timePortCfg, 4, 1⟩
abbrev timePortCfgLink : Fld := ⟨.timePortCfg, 5, 1⟩
abbrev timePortCfgTxRing : Fld := ⟨.timePortCfg, 8, 6⟩
abbrev timePortCfgRxRing : Fld := ⟨.timePortCfg, 16, 6⟩
abbrev timePortLatRxLat : Fld := ⟨.timePortLat, 0, 32⟩
abbrev timePortLatTxLat : Fld := ⟨.timePortLat, 32, 32⟩
abbrev timePortMacAddress : Fld := ⟨.timePortMac, 0, 48⟩
abbrev timePpsCfgOutEn : Fld := ⟨.timePpsCfg, 0, 1⟩
abbrev timePpsCfgOutSource : Fld := ⟨.timePpsCfg, 1, 2⟩
abbrev timePpsCfgInEn : Fld := ⟨.timePpsCfg, 3, 1⟩
abbrev timePpsCfgInSource : Fld := ⟨.timePpsCfg, 4, 2⟩
abbrev timePpsCfgWidth : Fld := ⟨.timePpsCfg, 12, 20⟩
abbrev timePpsCfgOutLat : Fld := ⟨.timePpsCfg, 32, 16⟩
abbrev timePpsInSecSeconds : Fld := ⟨.timePpsInSec, 0, 48⟩
abbrev timePpsInNsNanoseconds : Fld := ⟨.timePpsInNs, 0, 30⟩
abbrev timePpsInNsFraction : Fld := ⟨.timePpsInNs, 30, 16⟩
abbrev timePpsInNsHoldover : Fld := ⟨.timePpsInNs, 46, 1⟩
abbrev timePpsInNsValid : Fld := ⟨.timePpsInNs, 47, 1⟩
abbrev timePpsInNsEdges : Fld := ⟨.timePpsInNs, 48, 15⟩
abbrev timePpsInNsSaturated : Fld := ⟨.timePpsInNs, 63, 1⟩
abbrev timeSnapSecSeconds : Fld := ⟨.timeSnapSec, 0, 48⟩
abbrev timeSnapSecSource : Fld := ⟨.timeSnapSec, 48, 2⟩
abbrev timeSnapSecLatch : Fld := ⟨.timeSnapSec, 63, 1⟩
abbrev timeSnapNsNanoseconds : Fld := ⟨.timeSnapNs, 0, 30⟩
abbrev timeSnapNsFraction : Fld := ⟨.timeSnapNs, 30, 16⟩
abbrev timeSnapNsHoldover : Fld := ⟨.timeSnapNs, 46, 1⟩
abbrev timeSnapNsValid : Fld := ⟨.timeSnapNs, 47, 1⟩
abbrev timeRaisePeermaskMask : Fld := ⟨.timeRaisePeermask, 0, 64⟩
abbrev timeRaiseSecSeconds : Fld := ⟨.timeRaiseSec, 0, 48⟩
abbrev timeRaiseSecTag : Fld := ⟨.timeRaiseSec, 48, 16⟩
abbrev timeRaiseNsNanoseconds : Fld := ⟨.timeRaiseNs, 0, 30⟩
abbrev timeRaiseNsFraction : Fld := ⟨.timeRaiseNs, 30, 16⟩
abbrev timeRaiseNsSeqmask : Fld := ⟨.timeRaiseNs, 46, 4⟩
abbrev timeRaiseNsScheduled : Fld := ⟨.timeRaiseNs, 50, 1⟩
abbrev timeRaiseNsOrigin : Fld := ⟨.timeRaiseNs, 52, 6⟩
abbrev domCtrlEnable : Fld := ⟨.domCtrl, 0, 1⟩
abbrev domCtrlStepAuto : Fld := ⟨.domCtrl, 1, 1⟩
abbrev domCtrlIntClear : Fld := ⟨.domCtrl, 2, 1⟩
abbrev domCtrlGate : Fld := ⟨.domCtrl, 16, 16⟩
abbrev domCtrlStepNs : Fld := ⟨.domCtrl, 32, 32⟩
abbrev domNominalNominal : Fld := ⟨.domNominal, 0, 32⟩
abbrev domAddendAddend : Fld := ⟨.domAddend, 0, 32⟩
abbrev domGainKp : Fld := ⟨.domGain, 0, 16⟩
abbrev domGainKi : Fld := ⟨.domGain, 16, 16⟩
abbrev domGainIlimit : Fld := ⟨.domGain, 32, 32⟩
abbrev domLockLockNs : Fld := ⟨.domLock, 0, 16⟩
abbrev domLockLockCount : Fld := ⟨.domLock, 16, 8⟩
abbrev domLockHoldEt : Fld := ⟨.domLock, 32, 32⟩
abbrev domSampleDelayDelay : Fld := ⟨.domSampleDelay, 0, 48⟩
abbrev domSampleOffsetTheta : Fld := ⟨.domSampleOffset, 0, 64⟩
abbrev domStepStep : Fld := ⟨.domStep, 0, 64⟩
abbrev domStatusRejectCount : Fld := ⟨.domStatus, 0, 16⟩
abbrev domStatusSaturated : Fld := ⟨.domStatus, 16, 1⟩
abbrev domStatusState : Fld := ⟨.domStatus, 17, 2⟩
abbrev domStatusStepRefused : Fld := ⟨.domStatus, 19, 1⟩
abbrev domStatusClamped : Fld := ⟨.domStatus, 20, 1⟩
abbrev domStatusStepped : Fld := ⟨.domStatus, 21, 1⟩
abbrev domStatusClear : Fld := ⟨.domStatus, 63, 1⟩
abbrev oluChipId : Fld := ⟨.oluChip, 0, 6⟩
abbrev oluBcastOrig : Fld := ⟨.oluBcast, 0, 4⟩
abbrev oluBcastFwd : Fld := ⟨.oluBcast, 4, 16⟩
abbrev oluBcastTtl : Fld := ⟨.oluBcast, 20, 6⟩
abbrev oluGflagsGf : Fld := ⟨.oluGflags, 0, 64⟩
abbrev oluGfOpIndex : Fld := ⟨.oluGfOp, 0, 6⟩
abbrev oluGfOpSet : Fld := ⟨.oluGfOp, 6, 1⟩
abbrev oluGfOpClear : Fld := ⟨.oluGfOp, 7, 1⟩
abbrev oluGfOpReset : Fld := ⟨.oluGfOp, 8, 1⟩
abbrev oluBulkWinBasePage : Fld := ⟨.oluBulkWin, 0, 25⟩
abbrev oluBulkWinPages : Fld := ⟨.oluBulkWin, 25, 25⟩
abbrev oluRouteRoute : Fld := ⟨.oluRoute, 0, 64⟩
abbrev oluBulkSrcAddress : Fld := ⟨.oluBulkSrc, 0, 40⟩
abbrev oluBulkDstAddress : Fld := ⟨.oluBulkDst, 0, 40⟩
abbrev oluBulkDstChip : Fld := ⟨.oluBulkDst, 40, 6⟩
abbrev oluBulkCtrlLength : Fld := ⟨.oluBulkCtrl, 0, 25⟩
abbrev oluBulkCtrlGo : Fld := ⟨.oluBulkCtrl, 25, 1⟩
abbrev oluBulkCtrlBusy : Fld := ⟨.oluBulkCtrl, 26, 1⟩
abbrev oluBulkCtrlStatus : Fld := ⟨.oluBulkCtrl, 27, 3⟩
abbrev oluBulkCtrlDone : Fld := ⟨.oluBulkCtrl, 30, 1⟩
abbrev olupCtrlEnable : Fld := ⟨.olupCtrl, 0, 1⟩
abbrev olupCtrlRetrain : Fld := ⟨.olupCtrl, 1, 1⟩
abbrev olupCtrlSleepEn : Fld := ⟨.olupCtrl, 2, 1⟩
abbrev olupCtrlSleepIdle : Fld := ⟨.olupCtrl, 16, 16⟩
abbrev olupStatusState : Fld := ⟨.olupStatus, 0, 3⟩
abbrev olupStatusLinkAbsent : Fld := ⟨.olupStatus, 3, 1⟩
abbrev olupStatusAttempts : Fld := ⟨.olupStatus, 4, 4⟩
abbrev olupStatusPartnerId : Fld := ⟨.olupStatus, 8, 6⟩
abbrev olupStatusTxAsleep : Fld := ⟨.olupStatus, 14, 1⟩
abbrev olupStatusRxAsleep : Fld := ⟨.olupStatus, 15, 1⟩
abbrev olupStatusHopLat : Fld := ⟨.olupStatus, 16, 12⟩
abbrev olupStatusLinkDownSeen : Fld := ⟨.olupStatus, 28, 1⟩
abbrev olupErrStatCrcErr : Fld := ⟨.olupErrStat, 0, 16⟩
abbrev olupErrStatRetrains : Fld := ⟨.olupErrStat, 16, 8⟩
abbrev olupErrStatDiscarded : Fld := ⟨.olupErrStat, 24, 16⟩
abbrev olupErrStatBipErr : Fld := ⟨.olupErrStat, 40, 16⟩
abbrev olupErrStatCrcSaturated : Fld := ⟨.olupErrStat, 56, 1⟩
abbrev olupErrStatRetrainSaturated : Fld := ⟨.olupErrStat, 57, 1⟩
abbrev olupErrStatDiscardSaturated : Fld := ⟨.olupErrStat, 58, 1⟩
abbrev olupErrStatBipSaturated : Fld := ⟨.olupErrStat, 59, 1⟩
abbrev olupErrStatClear : Fld := ⟨.olupErrStat, 63, 1⟩
abbrev olupTickchkEtDiff : Fld := ⟨.olupTickchk, 0, 8⟩
abbrev olupTickchkSlip : Fld := ⟨.olupTickchk, 8, 1⟩
abbrev olupTickchkValid : Fld := ⟨.olupTickchk, 9, 1⟩
abbrev drmCtrlEnable : Fld := ⟨.drmCtrl, 0, 1⟩
abbrev drmCtrlSrEnter : Fld := ⟨.drmCtrl, 1, 1⟩
abbrev drmCtrlSrExit : Fld := ⟨.drmCtrl, 2, 1⟩
abbrev drmCtrlAutoSr : Fld := ⟨.drmCtrl, 3, 1⟩
abbrev drmOrgWidth : Fld := ⟨.drmOrg, 0, 2⟩
abbrev drmOrgDensity : Fld := ⟨.drmOrg, 2, 2⟩
abbrev drmOrgRanks : Fld := ⟨.drmOrg, 4, 1⟩
abbrev drmOrgDual : Fld := ⟨.drmOrg, 5, 1⟩
abbrev drmOrgGrain : Fld := ⟨.drmOrg, 6, 4⟩
abbrev drmInfoFrames : Fld := ⟨.drmInfo, 0, 12⟩
abbrev drmInfoState : Fld := ⟨.drmInfo, 12, 2⟩
abbrev drmInfoSrState : Fld := ⟨.drmInfo, 14, 2⟩
abbrev drmInfoDisableRefused : Fld := ⟨.drmInfo, 16, 1⟩
abbrev drmInfoOutOfRange : Fld := ⟨.drmInfo, 32, 16⟩
abbrev drmInfoSaturated : Fld := ⟨.drmInfo, 48, 1⟩
abbrev drmInfoClear : Fld := ⟨.drmInfo, 63, 1⟩
abbrev drmPrioPat : Fld := ⟨.drmPrio, 0, 3⟩
abbrev drmPrioLog : Fld := ⟨.drmPrio, 3, 3⟩
abbrev drmPrioAcq : Fld := ⟨.drmPrio, 6, 3⟩
abbrev drmPrioPage : Fld := ⟨.drmPrio, 9, 3⟩
abbrev drmPrioCore : Fld := ⟨.drmPrio, 12, 3⟩
abbrev drmPanicLow : Fld := ⟨.drmPanic, 0, 9⟩
abbrev drmPanicHigh : Fld := ⟨.drmPanic, 9, 9⟩
abbrev drmPanicPanic : Fld := ⟨.drmPanic, 18, 1⟩
abbrev drmPanicCount : Fld := ⟨.drmPanic, 32, 16⟩
abbrev drmPanicSaturated : Fld := ⟨.drmPanic, 48, 1⟩
abbrev drmPanicClear : Fld := ⟨.drmPanic, 63, 1⟩
abbrev drmSrIdleEt : Fld := ⟨.drmSr, 0, 32⟩
abbrev drmSrEntries : Fld := ⟨.drmSr, 32, 16⟩
abbrev drmSrSaturated : Fld := ⟨.drmSr, 48, 1⟩
abbrev drmSrRefused : Fld := ⟨.drmSr, 49, 1⟩
abbrev drmSrClear : Fld := ⟨.drmSr, 63, 1⟩
abbrev drmScrubEn : Fld := ⟨.drmScrub, 0, 1⟩
abbrev drmScrubHours : Fld := ⟨.drmScrub, 8, 8⟩
abbrev mchCtrlTrain : Fld := ⟨.mchCtrl, 0, 1⟩
abbrev mchCtrlRefSame : Fld := ⟨.mchCtrl, 1, 1⟩
abbrev mchCtrlFgr : Fld := ⟨.mchCtrl, 2, 1⟩
abbrev mchCtrlIdleTimer : Fld := ⟨.mchCtrl, 3, 10⟩
abbrev mchCtrlPostMax : Fld := ⟨.mchCtrl, 13, 3⟩
abbrev mchCtrlStarveCap : Fld := ⟨.mchCtrl, 16, 8⟩
abbrev mchCtrlTrainRefused : Fld := ⟨.mchCtrl, 24, 1⟩
abbrev mchTimingACl : Fld := ⟨.mchTimingA, 0, 8⟩
abbrev mchTimingATrcd : Fld := ⟨.mchTimingA, 8, 8⟩
abbrev mchTimingATrp : Fld := ⟨.mchTimingA, 16, 8⟩
abbrev mchTimingATras : Fld := ⟨.mchTimingA, 24, 8⟩
abbrev mchTimingATwr : Fld := ⟨.mchTimingA, 32, 8⟩
abbrev mchTimingBTrfcAb : Fld := ⟨.mchTimingB, 0, 12⟩
abbrev mchTimingBTrfcSb : Fld := ⟨.mchTimingB, 12, 12⟩
abbrev mchTimingBTrefi : Fld := ⟨.mchTimingB, 24, 16⟩
abbrev mchDlySelSub : Fld := ⟨.mchDlySel, 0, 1⟩
abbrev mchDlySelRank : Fld := ⟨.mchDlySel, 1, 1⟩
abbrev mchDlySelWrite : Fld := ⟨.mchDlySel, 2, 1⟩
abbrev mchDlySelLane : Fld := ⟨.mchDlySel, 3, 6⟩
abbrev mchDlyDataShadow : Fld := ⟨.mchDlyData, 0, 8⟩
abbrev mchDlyDataActive : Fld := ⟨.mchDlyData, 8, 8⟩
abbrev mchDlyApplyApply : Fld := ⟨.mchDlyApply, 0, 1⟩
abbrev mchDlyApplyPending : Fld := ⟨.mchDlyApply, 1, 1⟩
abbrev mchTrainCmdOp : Fld := ⟨.mchTrainCmd, 0, 3⟩
abbrev mchTrainCmdSub : Fld := ⟨.mchTrainCmd, 3, 1⟩
abbrev mchTrainCmdRank : Fld := ⟨.mchTrainCmd, 4, 1⟩
abbrev mchTrainCmdMrAddr : Fld := ⟨.mchTrainCmd, 5, 8⟩
abbrev mchTrainCmdMrData : Fld := ⟨.mchTrainCmd, 13, 8⟩
abbrev mchTrainCmdRepeat : Fld := ⟨.mchTrainCmd, 21, 16⟩
abbrev mchTrainCmdGo : Fld := ⟨.mchTrainCmd, 63, 1⟩
abbrev mchTrainAddrAddress : Fld := ⟨.mchTrainAddr, 0, 40⟩
abbrev mchTrainPatPattern : Fld := ⟨.mchTrainPat, 0, 64⟩
abbrev mchTrainResFailbits : Fld := ⟨.mchTrainRes, 0, 40⟩
abbrev mchTrainResMrData : Fld := ⟨.mchTrainRes, 40, 8⟩
abbrev mchTrainResDone : Fld := ⟨.mchTrainRes, 48, 1⟩
abbrev mchTrainResRefused : Fld := ⟨.mchTrainRes, 49, 1⟩
abbrev mchEccStatCeCount : Fld := ⟨.mchEccStat, 0, 32⟩
abbrev mchEccStatUeCount : Fld := ⟨.mchEccStat, 32, 16⟩
abbrev mchEccStatCeSaturated : Fld := ⟨.mchEccStat, 48, 1⟩
abbrev mchEccStatUeSaturated : Fld := ⟨.mchEccStat, 49, 1⟩
abbrev mchEccStatClear : Fld := ⟨.mchEccStat, 63, 1⟩
abbrev mchEccAddrAddress : Fld := ⟨.mchEccAddr, 0, 40⟩
abbrev mchEccAddrUe : Fld := ⟨.mchEccAddr, 40, 1⟩
abbrev mchEccAddrScrub : Fld := ⟨.mchEccAddr, 41, 1⟩
abbrev mchEccAddrValid : Fld := ⟨.mchEccAddr, 42, 1⟩
abbrev pgtCtrlRebuild : Fld := ⟨.pgtCtrl, 0, 1⟩
abbrev pgtCtrlMaxInflight : Fld := ⟨.pgtCtrl, 1, 4⟩
abbrev pgtStatusRebuildBusy : Fld := ⟨.pgtStatus, 0, 1⟩
abbrev pgtStatusRebuildRefused : Fld := ⟨.pgtStatus, 1, 1⟩
abbrev pgtStatusFrameStarved : Fld := ⟨.pgtStatus, 2, 1⟩
abbrev pgtStatusStarvedSeen : Fld := ⟨.pgtStatus, 3, 1⟩
abbrev pgtStatusFreeFrames : Fld := ⟨.pgtStatus, 4, 12⟩
abbrev pgtStatusInFlight : Fld := ⟨.pgtStatus, 16, 4⟩
abbrev pgtFramesFirst : Fld := ⟨.pgtFrames, 0, 11⟩
abbrev pgtFramesCount : Fld := ⟨.pgtFrames, 16, 12⟩
abbrev pgtWinCmdPage : Fld := ⟨.pgtWinCmd, 0, 15⟩
abbrev pgtWinCmdRead : Fld := ⟨.pgtWinCmd, 16, 1⟩
abbrev pgtWinCmdWrite : Fld := ⟨.pgtWinCmd, 17, 1⟩
abbrev pgtWinCmdDone : Fld := ⟨.pgtWinCmd, 18, 1⟩
abbrev pgtWinCmdRefused : Fld := ⟨.pgtWinCmd, 19, 1⟩
abbrev pgtWinCmdFlagsOnly : Fld := ⟨.pgtWinCmd, 20, 1⟩
abbrev pgtWinDataWord : Fld := ⟨.pgtWinData, 0, 64⟩
abbrev pgtLoadStatLoads : Fld := ⟨.pgtLoadStat, 0, 30⟩
abbrev pgtLoadStatLoadsSaturated : Fld := ⟨.pgtLoadStat, 30, 1⟩
abbrev pgtLoadStatEvictions : Fld := ⟨.pgtLoadStat, 32, 30⟩
abbrev pgtLoadStatEvictSaturated : Fld := ⟨.pgtLoadStat, 62, 1⟩
abbrev pgtLoadStatClear : Fld := ⟨.pgtLoadStat, 63, 1⟩
abbrev pgtErrStatCrcFail : Fld := ⟨.pgtErrStat, 0, 16⟩
abbrev pgtErrStatCrcSaturated : Fld := ⟨.pgtErrStat, 16, 1⟩
abbrev pgtErrStatLoadErr : Fld := ⟨.pgtErrStat, 32, 16⟩
abbrev pgtErrStatErrSaturated : Fld := ⟨.pgtErrStat, 48, 1⟩
abbrev pgtErrStatClear : Fld := ⟨.pgtErrStat, 63, 1⟩
abbrev pgtLookaheadDepth : Fld := ⟨.pgtLookahead, 0, 4⟩
abbrev pgtLookaheadSecondary : Fld := ⟨.pgtLookahead, 4, 1⟩
abbrev pgtLookaheadSideEn : Fld := ⟨.pgtLookahead, 5, 1⟩
abbrev dispCtrlSlice : Fld := ⟨.dispCtrl, 0, 16⟩
abbrev dispCtrlWindow : Fld := ⟨.dispCtrl, 16, 32⟩
abbrev dispOpOp : Fld := ⟨.dispOp, 0, 4⟩
abbrev dispOpOperand : Fld := ⟨.dispOp, 4, 14⟩
abbrev dispOpData : Fld := ⟨.dispOp, 32, 32⟩
abbrev dispLevelDepthDepth : Fld := ⟨.dispLevelDepth, 0, 64⟩
abbrev dispCoreStatThread : Fld := ⟨.dispCoreStat, 0, 10⟩
abbrev dispCoreStatIdle : Fld := ⟨.dispCoreStat, 10, 1⟩
abbrev dispCoreStatPending : Fld := ⟨.dispCoreStat, 11, 1⟩
abbrev dispCoreStatValid : Fld := ⟨.dispCoreStat, 12, 1⟩
abbrev dispCoreStatBusy : Fld := ⟨.dispCoreStat, 32, 32⟩
abbrev dispGpioRouteEn : Fld := ⟨.dispGpioRoute, 0, 1⟩
abbrev dispGpioRouteEdge : Fld := ⟨.dispGpioRoute, 1, 2⟩
abbrev dispGpioRouteThread : Fld := ⟨.dispGpioRoute, 4, 10⟩
abbrev dispGpioRouteFlag : Fld := ⟨.dispGpioRoute, 14, 5⟩
abbrev dispFlowCfgEnable : Fld := ⟨.dispFlowCfg, 0, 1⟩
abbrev dispFlowCfgReset : Fld := ⟨.dispFlowCfg, 1, 1⟩
abbrev dispFlowCfgDest : Fld := ⟨.dispFlowCfg, 2, 2⟩
abbrev dispFlowCfgRing : Fld := ⟨.dispFlowCfg, 4, 6⟩
abbrev dispFlowCfgChip : Fld := ⟨.dispFlowCfg, 10, 6⟩
abbrev dispFlowCfgMailThread : Fld := ⟨.dispFlowCfg, 16, 10⟩
abbrev dispFlowCfgMailFlag : Fld := ⟨.dispFlowCfg, 26, 5⟩
abbrev dispFlowCfgWorkerFirst : Fld := ⟨.dispFlowCfg, 31, 10⟩
abbrev dispFlowCfgWorkerCount : Fld := ⟨.dispFlowCfg, 41, 7⟩
abbrev dispFlowCfgWakeFlag : Fld := ⟨.dispFlowCfg, 48, 5⟩
abbrev dispFlowStatHeld : Fld := ⟨.dispFlowStat, 0, 10⟩
abbrev dispFlowStatQueued : Fld := ⟨.dispFlowStat, 10, 10⟩
abbrev dispFlowStatStalled : Fld := ⟨.dispFlowStat, 20, 1⟩
abbrev dispFlowStatRefused : Fld := ⟨.dispFlowStat, 32, 16⟩
abbrev dispFlowStatSaturated : Fld := ⟨.dispFlowStat, 48, 1⟩
abbrev dispFlowStatClear : Fld := ⟨.dispFlowStat, 63, 1⟩
abbrev dispThrCfgPrio : Fld := ⟨.dispThrCfg, 0, 6⟩
abbrev dispThrCfgWaitAll : Fld := ⟨.dispThrCfg, 6, 1⟩
abbrev dispThrCfgAffinity : Fld := ⟨.dispThrCfg, 8, 4⟩
abbrev dispThrCfgTimeout : Fld := ⟨.dispThrCfg, 12, 20⟩
abbrev dispThrCfgWaitmask : Fld := ⟨.dispThrCfg, 32, 32⟩
abbrev dispThrStateState : Fld := ⟨.dispThrState, 0, 2⟩
abbrev dispThrStateTimedout : Fld := ⟨.dispThrState, 2, 1⟩
abbrev dispThrStateForced : Fld := ⟨.dispThrState, 3, 1⟩
abbrev dispThrStateLost : Fld := ⟨.dispThrState, 4, 1⟩
abbrev dispThrStateCore : Fld := ⟨.dispThrState, 6, 2⟩
abbrev dispThrStateFlags : Fld := ⟨.dispThrState, 32, 32⟩
abbrev dispThrWaitLast : Fld := ⟨.dispThrWait, 0, 30⟩
abbrev dispThrWaitLastSaturated : Fld := ⟨.dispThrWait, 30, 1⟩
abbrev dispThrWaitMax : Fld := ⟨.dispThrWait, 32, 30⟩
abbrev dispThrWaitMaxSaturated : Fld := ⟨.dispThrWait, 62, 1⟩
abbrev dispThrWaitClear : Fld := ⟨.dispThrWait, 63, 1⟩
abbrev coreCtrlRun : Fld := ⟨.coreCtrl, 0, 4⟩
abbrev coreStatusRunning : Fld := ⟨.coreStatus, 0, 4⟩
abbrev coreStatusAuthRequired : Fld := ⟨.coreStatus, 4, 1⟩
abbrev coreStatusMailNoroute : Fld := ⟨.coreStatus, 16, 16⟩
abbrev coreStatusSaturated : Fld := ⟨.coreStatus, 32, 1⟩
abbrev coreStatusClear : Fld := ⟨.coreStatus, 63, 1⟩
abbrev coreLoadAddrAddress : Fld := ⟨.coreLoadAddr, 2, 62⟩
abbrev coreLoadCtrlLength : Fld := ⟨.coreLoadCtrl, 0, 23⟩
abbrev coreLoadCtrlGo : Fld := ⟨.coreLoadCtrl, 23, 1⟩
abbrev coreLoadCtrlStatus : Fld := ⟨.coreLoadCtrl, 24, 3⟩
abbrev coreKeyhashHash : Fld := ⟨.coreKeyhash, 0, 64⟩
abbrev coreDramwinBase : Fld := ⟨.coreDramwin, 0, 11⟩
abbrev coreMailboxBase : Fld := ⟨.coreMailbox, 0, 15⟩
abbrev coreMailboxEntries : Fld := ⟨.coreMailbox, 16, 9⟩
abbrev coreMailIdxProd : Fld := ⟨.coreMailIdx, 0, 8⟩
abbrev coreMailIdxCons : Fld := ⟨.coreMailIdx, 8, 8⟩
abbrev calCtrlBaymask : Fld := ⟨.calCtrl, 0, 8⟩
abbrev calCtrlProc : Fld := ⟨.calCtrl, 8, 8⟩
abbrev calCtrlStore : Fld := ⟨.calCtrl, 16, 1⟩
abbrev calCtrlGo : Fld := ⟨.calCtrl, 17, 1⟩
abbrev calCtrlAbort : Fld := ⟨.calCtrl, 18, 1⟩
abbrev calCtrlStoreCommit : Fld := ⟨.calCtrl, 19, 1⟩
abbrev calStatusBusy : Fld := ⟨.calStatus, 0, 8⟩
abbrev calStatusAborted : Fld := ⟨.calStatus, 8, 8⟩
abbrev calStatusBayUncal : Fld := ⟨.calStatus, 16, 8⟩
abbrev calStatusStoreState : Fld := ⟨.calStatus, 24, 2⟩
abbrev calStatusActiveBank : Fld := ⟨.calStatus, 26, 1⟩
abbrev calStatusStoreFail : Fld := ⟨.calStatus, 27, 1⟩
abbrev calStatusStoreEmpty : Fld := ⟨.calStatus, 28, 1⟩
abbrev calStatusGeneration : Fld := ⟨.calStatus, 32, 32⟩
abbrev calChUncalUncal : Fld := ⟨.calChUncal, 0, 64⟩
abbrev calBayCfgRefChan : Fld := ⟨.calBayCfg, 0, 4⟩
abbrev calBayCfgFePre : Fld := ⟨.calBayCfg, 4, 6⟩
abbrev calBayCfgFePost : Fld := ⟨.calBayCfg, 10, 6⟩
abbrev calBayCfgFeEn : Fld := ⟨.calBayCfg, 16, 1⟩
abbrev calBayCfgTset : Fld := ⟨.calBayCfg, 17, 6⟩
abbrev calBayCfgTsetEn : Fld := ⟨.calBayCfg, 23, 1⟩
abbrev calBayStatProc : Fld := ⟨.calBayStat, 0, 5⟩
abbrev calBayStatCause : Fld := ⟨.calBayStat, 5, 3⟩
abbrev calBayStatRefDefault : Fld := ⟨.calBayStat, 8, 1⟩
abbrev calBayStatTempWarn : Fld := ⟨.calBayStat, 9, 1⟩
abbrev calBayStatDrift : Fld := ⟨.calBayStat, 16, 12⟩
abbrev calRefpathDelay : Fld := ⟨.calRefpath, 0, 16⟩
abbrev calRefpathSet : Fld := ⟨.calRefpath, 16, 1⟩
abbrev calTimeTrimTrim : Fld := ⟨.calTimeTrim, 0, 32⟩
abbrev calTimeTrimCapture : Fld := ⟨.calTimeTrim, 32, 32⟩
abbrev calOluEyeEye : Fld := ⟨.calOluEye, 0, 32⟩
abbrev calOluEyeValid : Fld := ⟨.calOluEye, 32, 1⟩
abbrev rasResetSeqReset : Fld := ⟨.rasReset, 0, 4⟩
abbrev rasResetBayReset : Fld := ⟨.rasReset, 4, 8⟩
abbrev rasResetWarm : Fld := ⟨.rasReset, 12, 1⟩
abbrev rasResetKey : Fld := ⟨.rasReset, 16, 16⟩
abbrev rasCtrlAutoBayReset : Fld := ⟨.rasCtrl, 0, 1⟩
abbrev rasStatusHostReady : Fld := ⟨.rasStatus, 0, 1⟩
abbrev rasStatusDebugLocked : Fld := ⟨.rasStatus, 1, 1⟩
abbrev rasStatusLastReset : Fld := ⟨.rasStatus, 2, 3⟩
abbrev rasStatusFaultRail : Fld := ⟨.rasStatus, 5, 3⟩
abbrev rasStatusContained : Fld := ⟨.rasStatus, 8, 8⟩
abbrev rasStatusBayResetting : Fld := ⟨.rasStatus, 16, 8⟩
abbrev rasErrStatCeCount : Fld := ⟨.rasErrStat, 0, 32⟩
abbrev rasErrStatUeCount : Fld := ⟨.rasErrStat, 32, 16⟩
abbrev rasErrStatCeSaturated : Fld := ⟨.rasErrStat, 48, 1⟩
abbrev rasErrStatUeSaturated : Fld := ⟨.rasErrStat, 49, 1⟩
abbrev rasErrStatClear : Fld := ⟨.rasErrStat, 63, 1⟩
abbrev rasErrLogUnit : Fld := ⟨.rasErrLog, 0, 4⟩
abbrev rasErrLogIndex : Fld := ⟨.rasErrLog, 4, 10⟩
abbrev rasErrLogMemory : Fld := ⟨.rasErrLog, 14, 8⟩
abbrev rasErrLogAddress : Fld := ⟨.rasErrLog, 22, 24⟩
abbrev rasErrLogValid : Fld := ⟨.rasErrLog, 46, 1⟩
abbrev thermCfgWarnC : Fld := ⟨.thermCfg, 0, 8⟩
abbrev thermStatusWarn : Fld := ⟨.thermStatus, 0, 1⟩
abbrev thermStatusHot : Fld := ⟨.thermStatus, 1, 1⟩
abbrev thermStatusWarnSeen : Fld := ⟨.thermStatus, 2, 1⟩
abbrev thermStatusHotSeen : Fld := ⟨.thermStatus, 3, 1⟩
abbrev thermStatusMaxTemp : Fld := ⟨.thermStatus, 16, 12⟩
abbrev thermTempTemp : Fld := ⟨.thermTemp, 0, 12⟩
abbrev thermTempPeak : Fld := ⟨.thermTemp, 12, 12⟩
abbrev thermTempClear : Fld := ⟨.thermTemp, 63, 1⟩
abbrev bayParkState : Fld := ⟨.bayPark, 0, 32⟩
abbrev bayDeskewDrv : Fld := ⟨.bayDeskew, 0, 13⟩
abbrev bayDeskewDen : Fld := ⟨.bayDeskew, 16, 13⟩
abbrev bayDeskewCmph : Fld := ⟨.bayDeskew, 32, 13⟩
abbrev bayDeskewCmpl : Fld := ⟨.bayDeskew, 48, 13⟩
abbrev bayEdgeStatEdgeCollision : Fld := ⟨.bayEdgeStat, 0, 32⟩
abbrev bayEdgeStatCollisionSaturated : Fld := ⟨.bayEdgeStat, 32, 1⟩
abbrev bayEdgeStatQueueOverflow : Fld := ⟨.bayEdgeStat, 40, 16⟩
abbrev bayEdgeStatOverflowSaturated : Fld := ⟨.bayEdgeStat, 56, 1⟩
abbrev bayEdgeStatClear : Fld := ⟨.bayEdgeStat, 63, 1⟩
abbrev bayDclkCtrlStart : Fld := ⟨.bayDclkCtrl, 0, 1⟩
abbrev bayDclkCtrlDisable : Fld := ⟨.bayDclkCtrl, 1, 1⟩
abbrev bayDclkCtrlCommit : Fld := ⟨.bayDclkCtrl, 2, 1⟩
abbrev bayDclkCtrlMode : Fld := ⟨.bayDclkCtrl, 3, 1⟩
abbrev bayDclkCtrlSeqsel : Fld := ⟨.bayDclkCtrl, 4, 2⟩
abbrev bayDclkCtrlRunning : Fld := ⟨.bayDclkCtrl, 6, 1⟩
abbrev bayDclkCtrlDutyTrim : Fld := ⟨.bayDclkCtrl, 8, 8⟩
abbrev bayDclkCtrlOffset : Fld := ⟨.bayDclkCtrl, 16, 20⟩
abbrev bayDclkPeriodPeriod : Fld := ⟨.bayDclkPeriod, 0, 40⟩
abbrev bayStaticMaskMask : Fld := ⟨.bayStaticMask, 0, 16⟩
abbrev bayFailCountCount : Fld := ⟨.bayFailCount, 0, 32⟩
abbrev bayFailCountSaturated : Fld := ⟨.bayFailCount, 32, 1⟩
abbrev bayFailSnapSnap : Fld := ⟨.bayFailSnap, 0, 1⟩
abbrev bayFailSnapClear : Fld := ⟨.bayFailSnap, 1, 1⟩
abbrev bayFailSnapValid : Fld := ⟨.bayFailSnap, 2, 1⟩
abbrev bayFailSnapEtcountLow : Fld := ⟨.bayFailSnap, 16, 48⟩
abbrev bayFailShadowCount : Fld := ⟨.bayFailShadow, 0, 32⟩
abbrev bayFailShadowSaturated : Fld := ⟨.bayFailShadow, 32, 1⟩
abbrev bayCmpStatWindowReopen : Fld := ⟨.bayCmpStat, 0, 16⟩
abbrev bayCmpStatReopenSaturated : Fld := ⟨.bayCmpStat, 16, 1⟩
abbrev bayCmpStatWindowOrphan : Fld := ⟨.bayCmpStat, 32, 16⟩
abbrev bayCmpStatOrphanSaturated : Fld := ⟨.bayCmpStat, 48, 1⟩
abbrev bayCmpStatClear : Fld := ⟨.bayCmpStat, 63, 1⟩
abbrev bayFdlinPoints : Fld := ⟨.bayFdlin, 0, 64⟩
abbrev bayAdcCtrlTrig : Fld := ⟨.bayAdcCtrl, 0, 1⟩
abbrev bayAdcCtrlStop : Fld := ⟨.bayAdcCtrl, 1, 1⟩
abbrev bayAdcCtrlAccClear : Fld := ⟨.bayAdcCtrl, 2, 1⟩
abbrev bayAdcCtrlCommit : Fld := ⟨.bayAdcCtrl, 3, 1⟩
abbrev bayAdcCtrlUrgent : Fld := ⟨.bayAdcCtrl, 4, 1⟩
abbrev bayAdcCtrlUrgentCancel : Fld := ⟨.bayAdcCtrl, 5, 1⟩
abbrev bayAdcCtrlUrgentEntry : Fld := ⟨.bayAdcCtrl, 6, 4⟩
abbrev bayAdcCtrlBankReq : Fld := ⟨.bayAdcCtrl, 10, 1⟩
abbrev bayAdcCtrlBank : Fld := ⟨.bayAdcCtrl, 11, 1⟩
abbrev bayAdcCfgMode : Fld := ⟨.bayAdcCfg, 0, 1⟩
abbrev bayAdcCfgRestart : Fld := ⟨.bayAdcCfg, 1, 1⟩
abbrev bayAdcCfgLen : Fld := ⟨.bayAdcCfg, 2, 5⟩
abbrev bayAdcCfgTrigSrc : Fld := ⟨.bayAdcCfg, 7, 2⟩
abbrev bayAdcCfgTrigGpio : Fld := ⟨.bayAdcCfg, 9, 5⟩
abbrev bayAdcCfgRefSel : Fld := ⟨.bayAdcCfg, 14, 2⟩
abbrev bayAdcCfgBgcalEn : Fld := ⟨.bayAdcCfg, 16, 1⟩
abbrev bayAdcFiltW : Fld := ⟨.bayAdcFilt, 0, 3⟩
abbrev bayAdcFiltR : Fld := ⟨.bayAdcFilt, 3, 4⟩
abbrev bayAdcFiltK : Fld := ⟨.bayAdcFilt, 7, 3⟩
abbrev bayAdcFiltRsMode : Fld := ⟨.bayAdcFilt, 10, 1⟩
abbrev bayAdcFiltOutVectors : Fld := ⟨.bayAdcFilt, 16, 16⟩
abbrev bayAdcFiltFade : Fld := ⟨.bayAdcFilt, 32, 16⟩
abbrev bayAdcRatioRatio : Fld := ⟨.bayAdcRatio, 0, 24⟩
abbrev bayAdcEntInput : Fld := ⟨.bayAdcEnt, 0, 4⟩
abbrev bayAdcEntGain : Fld := ⟨.bayAdcEnt, 4, 2⟩
abbrev bayAdcEntDwell : Fld := ⟨.bayAdcEnt, 16, 16⟩
abbrev bayAdcEntCount : Fld := ⟨.bayAdcEnt, 32, 16⟩
abbrev bayAdcDelayDint : Fld := ⟨.bayAdcDelay, 0, 8⟩
abbrev bayAdcDelayDfrac : Fld := ⟨.bayAdcDelay, 8, 8⟩
abbrev bayAdcStatState : Fld := ⟨.bayAdcStat, 0, 2⟩
abbrev bayAdcStatEntry : Fld := ⟨.bayAdcStat, 2, 4⟩
abbrev bayAdcStatSettling : Fld := ⟨.bayAdcStat, 6, 1⟩
abbrev bayAdcStatRefReady : Fld := ⟨.bayAdcStat, 7, 1⟩
abbrev bayAdcStatBank : Fld := ⟨.bayAdcStat, 8, 1⟩
abbrev bayAdcStatFading : Fld := ⟨.bayAdcStat, 9, 1⟩
abbrev bayAdcStatSwapHeld : Fld := ⟨.bayAdcStat, 10, 1⟩
abbrev bayAdcStatSpareUsed : Fld := ⟨.bayAdcStat, 11, 1⟩
abbrev bayAdcStatDegraded : Fld := ⟨.bayAdcStat, 12, 1⟩
abbrev bayAdcStatCoefRefused : Fld := ⟨.bayAdcStat, 13, 1⟩
abbrev bayAdcStatRatioNow : Fld := ⟨.bayAdcStat, 32, 24⟩
abbrev bayAdcCountsTrigOverrun : Fld := ⟨.bayAdcCounts, 0, 10⟩
abbrev bayAdcCountsUrgentBusy : Fld := ⟨.bayAdcCounts, 10, 10⟩
abbrev bayAdcCountsBusyDiscard : Fld := ⟨.bayAdcCounts, 20, 10⟩
abbrev bayAdcCountsSkipped : Fld := ⟨.bayAdcCounts, 30, 10⟩
abbrev bayAdcCountsClip : Fld := ⟨.bayAdcCounts, 40, 8⟩
abbrev bayAdcCountsOverrange : Fld := ⟨.bayAdcCounts, 48, 8⟩
abbrev bayAdcCountsSaturated : Fld := ⟨.bayAdcCounts, 56, 1⟩
abbrev bayAdcCountsClear : Fld := ⟨.bayAdcCounts, 63, 1⟩
abbrev bayAdcAccCfgWinMode : Fld := ⟨.bayAdcAccCfg, 0, 1⟩
abbrev bayAdcAccCfgResultEvent : Fld := ⟨.bayAdcAccCfg, 1, 1⟩
abbrev bayAdcAccCfgResultFlagEn : Fld := ⟨.bayAdcAccCfg, 2, 1⟩
abbrev bayAdcAccCfgResultFlag : Fld := ⟨.bayAdcAccCfg, 3, 5⟩
abbrev bayAdcAccCfgResultThread : Fld := ⟨.bayAdcAccCfg, 8, 10⟩
abbrev bayAdcAccCfgWinEt : Fld := ⟨.bayAdcAccCfg, 32, 32⟩
abbrev bayAdcWinOpen : Fld := ⟨.bayAdcWin, 0, 1⟩
abbrev bayAdcWinWinOrphan : Fld := ⟨.bayAdcWin, 1, 15⟩
abbrev bayAdcWinWindowSeq : Fld := ⟨.bayAdcWin, 16, 16⟩
abbrev bayAdcWinOpenCycle : Fld := ⟨.bayAdcWinOpen, 0, 64⟩
abbrev bayAdcWinCloseCycle : Fld := ⟨.bayAdcWinClose, 0, 64⟩
abbrev bayAdcResSumSum : Fld := ⟨.bayAdcResSum, 0, 48⟩
abbrev bayAdcResSumSaturated : Fld := ⟨.bayAdcResSum, 48, 1⟩
abbrev bayAdcResSumValid : Fld := ⟨.bayAdcResSum, 49, 1⟩
abbrev bayAdcResSumStale : Fld := ⟨.bayAdcResSum, 50, 1⟩
abbrev bayAdcResCntCount : Fld := ⟨.bayAdcResCnt, 0, 32⟩
abbrev bayAdcResCntSaturated : Fld := ⟨.bayAdcResCnt, 32, 1⟩
abbrev bayAdcResMinmaxMin : Fld := ⟨.bayAdcResMinmax, 0, 24⟩
abbrev bayAdcResMinmaxMax : Fld := ⟨.bayAdcResMinmax, 32, 24⟩
abbrev bayAdcUrgentResMean : Fld := ⟨.bayAdcUrgentRes, 0, 24⟩
abbrev bayAdcUrgentResCount : Fld := ⟨.bayAdcUrgentRes, 24, 16⟩
abbrev bayAdcUrgentResEntry : Fld := ⟨.bayAdcUrgentRes, 40, 4⟩
abbrev bayAdcUrgentResDone : Fld := ⟨.bayAdcUrgentRes, 44, 1⟩
abbrev bayAdcUrgentResStale : Fld := ⟨.bayAdcUrgentRes, 45, 1⟩
abbrev bayAdcUrgentMmMin : Fld := ⟨.bayAdcUrgentMm, 0, 24⟩
abbrev bayAdcUrgentMmMax : Fld := ⟨.bayAdcUrgentMm, 32, 24⟩
abbrev bayAdcCoefSelIndex : Fld := ⟨.bayAdcCoefSel, 0, 10⟩
abbrev bayAdcCoefSelBank : Fld := ⟨.bayAdcCoefSel, 10, 1⟩
abbrev bayAdcCoefSelAutoinc : Fld := ⟨.bayAdcCoefSel, 11, 1⟩
abbrev bayAdcCoefDataCoef : Fld := ⟨.bayAdcCoefData, 0, 18⟩
abbrev bayAcqCtrlRearm : Fld := ⟨.bayAcqCtrl, 0, 1⟩
abbrev bayAcqCtrlStop : Fld := ⟨.bayAcqCtrl, 1, 1⟩
abbrev bayAcqCtrlForce : Fld := ⟨.bayAcqCtrl, 2, 1⟩
abbrev bayAcqCfgMode : Fld := ⟨.bayAcqCfg, 0, 2⟩
abbrev bayAcqCfgEntry : Fld := ⟨.bayAcqCfg, 2, 4⟩
abbrev bayAcqCfgRecOutputs : Fld := ⟨.bayAcqCfg, 6, 11⟩
abbrev bayAcqCfgPre : Fld := ⟨.bayAcqCfg, 17, 10⟩
abbrev bayAcqCfgPost : Fld := ⟨.bayAcqCfg, 27, 16⟩
abbrev bayAcqTimeHoldoff : Fld := ⟨.bayAcqTime, 0, 16⟩
abbrev bayAcqTimeAutoEt : Fld := ⟨.bayAcqTime, 16, 32⟩
abbrev bayAcqRingEnable : Fld := ⟨.bayAcqRing, 0, 1⟩
abbrev bayAcqRingSize : Fld := ⟨.bayAcqRing, 1, 5⟩
abbrev bayAcqRingMirrorEn : Fld := ⟨.bayAcqRing, 6, 1⟩
abbrev bayAcqRingMirrorRing : Fld := ⟨.bayAcqRing, 8, 6⟩
abbrev bayAcqRingBasePage : Fld := ⟨.bayAcqRing, 16, 25⟩
abbrev bayAcqRingHighMark : Fld := ⟨.bayAcqRing, 41, 4⟩
abbrev bayAcqPtrWr : Fld := ⟨.bayAcqPtr, 0, 32⟩
abbrev bayAcqPtrRd : Fld := ⟨.bayAcqPtr, 32, 32⟩
abbrev bayAcqStatState : Fld := ⟨.bayAcqStat, 0, 3⟩
abbrev bayAcqStatRshift : Fld := ⟨.bayAcqStat, 3, 3⟩
abbrev bayAcqStatRateReduced : Fld := ⟨.bayAcqStat, 6, 1⟩
abbrev bayAcqStatFull : Fld := ⟨.bayAcqStat, 7, 1⟩
abbrev bayAcqStatPreNow : Fld := ⟨.bayAcqStat, 8, 10⟩
abbrev bayAcqStatCaptures : Fld := ⟨.bayAcqStat, 18, 16⟩
abbrev bayAcqCountsTrigMissed : Fld := ⟨.bayAcqCounts, 0, 16⟩
abbrev bayAcqCountsMissedSaturated : Fld := ⟨.bayAcqCounts, 16, 1⟩
abbrev bayAcqCountsDropped : Fld := ⟨.bayAcqCounts, 32, 16⟩
abbrev bayAcqCountsDroppedSaturated : Fld := ⟨.bayAcqCounts, 48, 1⟩
abbrev bayAcqCountsClear : Fld := ⟨.bayAcqCounts, 63, 1⟩
abbrev bayAcqCondType : Fld := ⟨.bayAcqCond, 0, 4⟩
abbrev bayAcqCondSource : Fld := ⟨.bayAcqCond, 4, 2⟩
abbrev bayAcqCondPinKind : Fld := ⟨.bayAcqCond, 6, 2⟩
abbrev bayAcqCondChan : Fld := ⟨.bayAcqCond, 8, 4⟩
abbrev bayAcqCondChmask : Fld := ⟨.bayAcqCond, 12, 16⟩
abbrev bayAcqCondGfIndex : Fld := ⟨.bayAcqCond, 28, 6⟩
abbrev bayAcqCondGfEdge : Fld := ⟨.bayAcqCond, 34, 1⟩
abbrev bayAcqLevelLevel : Fld := ⟨.bayAcqLevel, 0, 24⟩
abbrev bayAcqLevelHyst : Fld := ⟨.bayAcqLevel, 32, 24⟩
abbrev bayTimCtrlArm : Fld := ⟨.bayTimCtrl, 0, 1⟩
abbrev bayTimCtrlDisarm : Fld := ⟨.bayTimCtrl, 1, 1⟩
abbrev bayTimCtrlClear : Fld := ⟨.bayTimCtrl, 2, 1⟩
abbrev bayTimCfgMode : Fld := ⟨.bayTimCfg, 0, 3⟩
abbrev bayTimCfgStartSrc : Fld := ⟨.bayTimCfg, 3, 6⟩
abbrev bayTimCfgStopSrc : Fld := ⟨.bayTimCfg, 9, 6⟩
abbrev bayTimCfgStartEdge : Fld := ⟨.bayTimCfg, 15, 2⟩
abbrev bayTimCfgStopEdge : Fld := ⟨.bayTimCfg, 17, 2⟩
abbrev bayTimCfgSigned : Fld := ⟨.bayTimCfg, 19, 1⟩
abbrev bayTimCfgNstart : Fld := ⟨.bayTimCfg, 20, 16⟩
abbrev bayTimCfgNstop : Fld := ⟨.bayTimCfg, 36, 16⟩
abbrev bayTimCfgSeriesStop : Fld := ⟨.bayTimCfg, 52, 1⟩
abbrev bayTimCountN : Fld := ⟨.bayTimCount, 0, 25⟩
abbrev bayTimCountGate : Fld := ⟨.bayTimCount, 25, 32⟩
abbrev bayTimTimeHoldoffStart : Fld := ⟨.bayTimTime, 0, 16⟩
abbrev bayTimTimeHoldoffStop : Fld := ⟨.bayTimTime, 16, 16⟩
abbrev bayTimTimeTimeout : Fld := ⟨.bayTimTime, 32, 32⟩
abbrev bayTimNotifyEventEn : Fld := ⟨.bayTimNotify, 0, 1⟩
abbrev bayTimNotifyFlagEn : Fld := ⟨.bayTimNotify, 1, 1⟩
abbrev bayTimNotifyFlag : Fld := ⟨.bayTimNotify, 2, 5⟩
abbrev bayTimNotifyThread : Fld := ⟨.bayTimNotify, 7, 10⟩
abbrev bayTimResultResult : Fld := ⟨.bayTimResult, 0, 64⟩
abbrev bayTimAuxAux : Fld := ⟨.bayTimAux, 0, 64⟩
abbrev bayTimStatState : Fld := ⟨.bayTimStat, 0, 2⟩
abbrev bayTimStatDone : Fld := ⟨.bayTimStat, 2, 1⟩
abbrev bayTimStatOrder : Fld := ⟨.bayTimStat, 3, 1⟩
abbrev bayTimStatCoincident : Fld := ⟨.bayTimStat, 4, 1⟩
abbrev bayTimStatSaturated : Fld := ⟨.bayTimStat, 5, 1⟩
abbrev bayTimStatTimedout : Fld := ⟨.bayTimStat, 6, 1⟩
abbrev bayTimStatInvalid : Fld := ⟨.bayTimStat, 7, 1⟩
abbrev bayTimStatStale : Fld := ⟨.bayTimStat, 8, 1⟩
abbrev bayTimStatLost : Fld := ⟨.bayTimStat, 16, 16⟩
abbrev bayTimStatBusyDiscard : Fld := ⟨.bayTimStat, 32, 16⟩
abbrev bayTimStatCountSaturated : Fld := ⟨.bayTimStat, 48, 1⟩
abbrev bayTimStatClear : Fld := ⟨.bayTimStat, 63, 1⟩
abbrev bayFeCfgDiv : Fld := ⟨.bayFeCfg, 0, 8⟩
abbrev bayFeCfgModeA : Fld := ⟨.bayFeCfg, 8, 2⟩
abbrev bayFeCfgModeB : Fld := ⟨.bayFeCfg, 10, 2⟩
abbrev bayFeCfgCsLead : Fld := ⟨.bayFeCfg, 12, 4⟩
abbrev bayFeCfgCsLag : Fld := ⟨.bayFeCfg, 16, 4⟩
abbrev bayFeCfgCsGap : Fld := ⟨.bayFeCfg, 20, 4⟩
abbrev bayFeCfgAlertEvent : Fld := ⟨.bayFeCfg, 24, 1⟩
abbrev bayFeCfgAlertFlagEn : Fld := ⟨.bayFeCfg, 25, 1⟩
abbrev bayFeCfgAlertFlag : Fld := ⟨.bayFeCfg, 26, 5⟩
abbrev bayFeCfgAlertThread : Fld := ⟨.bayFeCfg, 31, 10⟩
abbrev bayFeCtrlStart : Fld := ⟨.bayFeCtrl, 0, 1⟩
abbrev bayFeCtrlList : Fld := ⟨.bayFeCtrl, 1, 6⟩
abbrev bayFeCtrlAbort : Fld := ⟨.bayFeCtrl, 7, 1⟩
abbrev bayFeStatRunning : Fld := ⟨.bayFeStat, 0, 1⟩
abbrev bayFeStatList : Fld := ⟨.bayFeStat, 1, 6⟩
abbrev bayFeStatQueued : Fld := ⟨.bayFeStat, 7, 1⟩
abbrev bayFeStatQueuedList : Fld := ⟨.bayFeStat, 8, 6⟩
abbrev bayFeStatAlert : Fld := ⟨.bayFeStat, 14, 1⟩
abbrev bayFeStatAlertSeen : Fld := ⟨.bayFeStat, 15, 1⟩
abbrev bayFeStatTimeout : Fld := ⟨.bayFeStat, 16, 1⟩
abbrev bayFeStatListBusy : Fld := ⟨.bayFeStat, 17, 1⟩
abbrev bayFeStatOverrun : Fld := ⟨.bayFeStat, 32, 16⟩
abbrev bayFeStatSaturated : Fld := ⟨.bayFeStat, 48, 1⟩
abbrev bayFeStatClear : Fld := ⟨.bayFeStat, 63, 1⟩
abbrev bayFeLselList : Fld := ⟨.bayFeLsel, 0, 6⟩
abbrev bayFeLselWord : Fld := ⟨.bayFeLsel, 6, 5⟩
abbrev bayFeLselAutoinc : Fld := ⟨.bayFeLsel, 11, 1⟩
abbrev bayFeLdataWord : Fld := ⟨.bayFeLdata, 0, 64⟩
abbrev bayFeRxData : Fld := ⟨.bayFeRx, 0, 48⟩
abbrev bayFeRxValid : Fld := ⟨.bayFeRx, 48, 1⟩
abbrev bayCalBayRtd : Fld := ⟨.bayCalBay, 0, 12⟩
abbrev bayCalBayDutyA : Fld := ⟨.bayCalBay, 16, 8⟩
abbrev bayCalBayDutyB : Fld := ⟨.bayCalBay, 24, 8⟩
abbrev bayCalBayRtdFrac : Fld := ⟨.bayCalBay, 32, 10⟩
abbrev bayTimOfsStart : Fld := ⟨.bayTimOfs, 0, 16⟩
abbrev bayTimOfsStop : Fld := ⟨.bayTimOfs, 16, 16⟩
abbrev bayAdcCalOffset : Fld := ⟨.bayAdcCal, 0, 16⟩
abbrev bayAdcCalGain : Fld := ⟨.bayAdcCal, 16, 16⟩
abbrev bayCalQualResidual : Fld := ⟨.bayCalQual, 0, 32⟩
abbrev bayCalQualEyeH : Fld := ⟨.bayCalQual, 32, 8⟩
abbrev bayCalQualEyeL : Fld := ⟨.bayCalQual, 40, 8⟩
abbrev bayCalQualValid : Fld := ⟨.bayCalQual, 48, 1⟩
abbrev bayCalQualStale : Fld := ⟨.bayCalQual, 49, 1⟩
abbrev bayCalQualRange : Fld := ⟨.bayCalQual, 50, 1⟩
abbrev bayAdcQualResidual : Fld := ⟨.bayAdcQual, 0, 56⟩
abbrev bayAdcQualValid : Fld := ⟨.bayAdcQual, 56, 1⟩
abbrev bayAdcQualStale : Fld := ⟨.bayAdcQual, 57, 1⟩
abbrev seqCtrlStart : Fld := ⟨.seqCtrl, 0, 1⟩
abbrev seqCtrlResume : Fld := ⟨.seqCtrl, 1, 1⟩
abbrev seqCtrlPause : Fld := ⟨.seqCtrl, 2, 1⟩
abbrev seqCtrlAbort : Fld := ⟨.seqCtrl, 3, 1⟩
abbrev seqCtrlFaultClear : Fld := ⟨.seqCtrl, 4, 1⟩
abbrev seqCtrlMode : Fld := ⟨.seqCtrl, 8, 2⟩
abbrev seqCtrlWidth : Fld := ⟨.seqCtrl, 10, 3⟩
abbrev seqEntryAddress : Fld := ⟨.seqEntry, 0, 38⟩
abbrev seqStatusState : Fld := ⟨.seqStatus, 0, 3⟩
abbrev seqStatusStopReason : Fld := ⟨.seqStatus, 4, 4⟩
abbrev seqStatusFault : Fld := ⟨.seqStatus, 8, 4⟩
abbrev seqStatusPegForced : Fld := ⟨.seqStatus, 12, 1⟩
abbrev seqStatusMatchTimeout : Fld := ⟨.seqStatus, 13, 1⟩
abbrev seqStatusMatchLate : Fld := ⟨.seqStatus, 14, 1⟩
abbrev seqStatusRaiseMissed : Fld := ⟨.seqStatus, 15, 1⟩
abbrev seqStatusHoldTimeout : Fld := ⟨.seqStatus, 16, 1⟩
abbrev seqStatusResetting : Fld := ⟨.seqStatus, 17, 1⟩
abbrev seqFaultInfoAddress : Fld := ⟨.seqFaultInfo, 0, 38⟩
abbrev seqFaultInfoDetail : Fld := ⟨.seqFaultInfo, 40, 4⟩
abbrev seqFaultCycleCycle : Fld := ⟨.seqFaultCycle, 0, 64⟩
abbrev seqCycleCount : Fld := ⟨.seqCycle, 0, 64⟩
abbrev seqPositionPc : Fld := ⟨.seqPosition, 0, 38⟩
abbrev seqPositionLoopDepth : Fld := ⟨.seqPosition, 40, 5⟩
abbrev seqPositionStackDepth : Fld := ⟨.seqPosition, 45, 6⟩
abbrev seqPositionMatchOpen : Fld := ⟨.seqPosition, 51, 1⟩
abbrev seqPositionUnresolved : Fld := ⟨.seqPosition, 52, 5⟩
abbrev seqCondLatencyLocalCt : Fld := ⟨.seqCondLatency, 0, 13⟩
abbrev seqCondLatencyRemoteCt : Fld := ⟨.seqCondLatency, 16, 14⟩
abbrev seqCondCtrlSite : Fld := ⟨.seqCondCtrl, 0, 5⟩
abbrev seqCondCtrlRemoteHops : Fld := ⟨.seqCondCtrl, 8, 6⟩
abbrev seqCondGfselSlot : Fld := ⟨.seqCondGfsel, 0, 48⟩
abbrev seqPegWatchdogLimit : Fld := ⟨.seqPegWatchdog, 0, 32⟩
abbrev seqLaunchDelayDelay : Fld := ⟨.seqLaunchDelay, 0, 16⟩
abbrev seqLflagsLf : Fld := ⟨.seqLflags, 0, 16⟩
abbrev seqLflagsLfInit : Fld := ⟨.seqLflags, 16, 16⟩
abbrev seqMatchCtrlLog : Fld := ⟨.seqMatchCtrl, 0, 1⟩
abbrev seqBarrierLocal : Fld := ⟨.seqBarrier, 0, 4⟩
abbrev seqBarrierRemote : Fld := ⟨.seqBarrier, 4, 6⟩
abbrev seqBarrierBroadcast : Fld := ⟨.seqBarrier, 10, 1⟩
abbrev seqBarrierGen : Fld := ⟨.seqBarrier, 16, 4⟩
abbrev seqBarrierArrived : Fld := ⟨.seqBarrier, 20, 6⟩
abbrev seqLoopAddrBody : Fld := ⟨.seqLoopAddr, 0, 38⟩
abbrev seqLoopAddrMatch : Fld := ⟨.seqLoopAddr, 38, 1⟩
abbrev seqLoopCountRemaining : Fld := ⟨.seqLoopCount, 0, 32⟩
abbrev seqLoopCountIteration : Fld := ⟨.seqLoopCount, 32, 32⟩
abbrev seqStackReturn : Fld := ⟨.seqStack, 0, 38⟩
abbrev seqStackLoopDepth : Fld := ⟨.seqStack, 40, 5⟩
abbrev seqTsCtrlCommit : Fld := ⟨.seqTsCtrl, 0, 1⟩
abbrev seqTsCtrlView : Fld := ⟨.seqTsCtrl, 1, 1⟩
abbrev seqTsCtrlPending : Fld := ⟨.seqTsCtrl, 2, 1⟩
abbrev seqTsCtrlClamped : Fld := ⟨.seqTsCtrl, 3, 1⟩
abbrev seqTsDirtyDirty : Fld := ⟨.seqTsDirty, 0, 64⟩
abbrev seqTsSelTset : Fld := ⟨.seqTsSel, 0, 6⟩
abbrev seqTsSelChannel : Fld := ⟨.seqTsSel, 8, 7⟩
abbrev seqTsEdgeOffset : Fld := ⟨.seqTsEdge, 0, 44⟩
abbrev seqTsWaveNano : Fld := ⟨.seqTsWave, 0, 24⟩
abbrev seqTsPeriodPeriod : Fld := ⟨.seqTsPeriod, 0, 42⟩
abbrev seqMaskPins : Fld := ⟨.seqMask, 0, 64⟩
abbrev seqSiteFailSite : Fld := ⟨.seqSiteFail, 0, 32⟩
abbrev seqSiteFailSeq : Fld := ⟨.seqSiteFail, 32, 1⟩
abbrev seqFailstopMode : Fld := ⟨.seqFailstop, 0, 2⟩
abbrev seqFailstopGfEn : Fld := ⟨.seqFailstop, 2, 1⟩
abbrev seqFailstopFlag : Fld := ⟨.seqFailstop, 8, 6⟩
abbrev seqFailGfEnable : Fld := ⟨.seqFailGf, 0, 1⟩
abbrev seqFailGfSource : Fld := ⟨.seqFailGf, 1, 1⟩
abbrev seqFailGfSite : Fld := ⟨.seqFailGf, 2, 5⟩
abbrev seqFailGfFlag : Fld := ⟨.seqFailGf, 8, 6⟩
abbrev seqFfseqWord : Fld := ⟨.seqFfseq, 0, 64⟩
abbrev seqFfsiteWord : Fld := ⟨.seqFfsite, 0, 64⟩
abbrev seqLogCfgEnable : Fld := ⟨.seqLogCfg, 0, 1⟩
abbrev seqLogCfgSize : Fld := ⟨.seqLogCfg, 1, 5⟩
abbrev seqLogCfgMirrorEn : Fld := ⟨.seqLogCfg, 6, 1⟩
abbrev seqLogCfgMirrorRing : Fld := ⟨.seqLogCfg, 8, 6⟩
abbrev seqLogCfgBasePage : Fld := ⟨.seqLogCfg, 16, 25⟩
abbrev seqLogPtrWr : Fld := ⟨.seqLogPtr, 0, 32⟩
abbrev seqLogPtrRd : Fld := ⟨.seqLogPtr, 32, 32⟩
abbrev seqLogStatQueue : Fld := ⟨.seqLogStat, 0, 12⟩
abbrev seqLogStatFull : Fld := ⟨.seqLogStat, 12, 1⟩
abbrev seqLogStatCoalesced : Fld := ⟨.seqLogStat, 13, 1⟩
abbrev seqLogStatCoalescedCount : Fld := ⟨.seqLogStat, 16, 32⟩
abbrev seqLogStatSaturated : Fld := ⟨.seqLogStat, 48, 1⟩
abbrev seqLogStatClear : Fld := ⟨.seqLogStat, 63, 1⟩
abbrev seqCapCfgEnable : Fld := ⟨.seqCapCfg, 0, 1⟩
abbrev seqCapCfgSize : Fld := ⟨.seqCapCfg, 1, 5⟩
abbrev seqCapCfgMirrorEn : Fld := ⟨.seqCapCfg, 6, 1⟩
abbrev seqCapCfgMirrorRing : Fld := ⟨.seqCapCfg, 8, 6⟩
abbrev seqCapCfgBasePage : Fld := ⟨.seqCapCfg, 16, 25⟩
abbrev seqCapPtrWr : Fld := ⟨.seqCapPtr, 0, 32⟩
abbrev seqCapPtrRd : Fld := ⟨.seqCapPtr, 32, 32⟩
abbrev seqCapStatQueue : Fld := ⟨.seqCapStat, 0, 13⟩
abbrev seqCapStatLost : Fld := ⟨.seqCapStat, 13, 1⟩
abbrev seqCapStatLostCount : Fld := ⟨.seqCapStat, 16, 32⟩
abbrev seqCapStatSaturated : Fld := ⟨.seqCapStat, 48, 1⟩
abbrev seqCapStatClear : Fld := ⟨.seqCapStat, 63, 1⟩
abbrev seqCapSelSlot : Fld := ⟨.seqCapSel, 0, 64⟩
abbrev seqUnderrunUnderrun : Fld := ⟨.seqUnderrun, 0, 1⟩
abbrev seqUnderrunStall : Fld := ⟨.seqUnderrun, 1, 1⟩
abbrev seqUnderrunCount : Fld := ⟨.seqUnderrun, 16, 32⟩
abbrev seqUnderrunSaturated : Fld := ⟨.seqUnderrun, 48, 1⟩
abbrev seqUnderrunClear : Fld := ⟨.seqUnderrun, 63, 1⟩
abbrev seqUnderrunInfoAddress : Fld := ⟨.seqUnderrunInfo, 0, 38⟩
abbrev seqUnderrunInfoAborted : Fld := ⟨.seqUnderrunInfo, 38, 1⟩
abbrev seqUnderrunCycleCycle : Fld := ⟨.seqUnderrunCycle, 0, 64⟩
abbrev seqResumeDelayDelay : Fld := ⟨.seqResumeDelay, 0, 16⟩
abbrev seqStallCtrlFill : Fld := ⟨.seqStallCtrl, 0, 9⟩
abbrev seqStallCtrlLimit : Fld := ⟨.seqStallCtrl, 32, 32⟩
abbrev seqStallTimeEt : Fld := ⟨.seqStallTime, 0, 63⟩
abbrev seqStallTimeClear : Fld := ⟨.seqStallTime, 63, 1⟩
abbrev seqLcacheStatLines : Fld := ⟨.seqLcacheStat, 0, 14⟩
abbrev seqLcacheStatBypass : Fld := ⟨.seqLcacheStat, 14, 1⟩
abbrev seqLcacheStatHits : Fld := ⟨.seqLcacheStat, 16, 32⟩
abbrev seqLcacheStatSaturated : Fld := ⟨.seqLcacheStat, 48, 1⟩
abbrev seqLcacheStatClear : Fld := ⟨.seqLcacheStat, 63, 1⟩
abbrev seqNostallStartAddress : Fld := ⟨.seqNostallStart, 0, 38⟩
abbrev seqNostallStartEnable : Fld := ⟨.seqNostallStart, 63, 1⟩
abbrev seqNostallEndAddress : Fld := ⟨.seqNostallEnd, 0, 38⟩
abbrev siteCtrlCommit : Fld := ⟨.siteCtrl, 0, 1⟩
abbrev siteCtrlView : Fld := ⟨.siteCtrl, 1, 1⟩
abbrev siteStatusRefused : Fld := ⟨.siteStatus, 0, 32⟩
abbrev siteStatusResult : Fld := ⟨.siteStatus, 32, 3⟩
abbrev siteDirtyDirty : Fld := ⟨.siteDirty, 0, 32⟩
abbrev siteEpochEpoch : Fld := ⟨.siteEpoch, 0, 32⟩
abbrev sitekCfgSeq : Fld := ⟨.sitekCfg, 0, 2⟩
abbrev sitekCtrlEnable : Fld := ⟨.sitekCtrl, 0, 1⟩
abbrev sitekCtrlStopOnFail : Fld := ⟨.sitekCtrl, 1, 1⟩
abbrev sitekCtrlGfStopEn : Fld := ⟨.sitekCtrl, 2, 1⟩
abbrev sitekCtrlRetire : Fld := ⟨.sitekCtrl, 3, 1⟩
abbrev sitekCtrlResultEn : Fld := ⟨.sitekCtrl, 4, 1⟩
abbrev sitekCtrlGfStopFlag : Fld := ⟨.sitekCtrl, 8, 6⟩
abbrev sitekCtrlResultThread : Fld := ⟨.sitekCtrl, 16, 10⟩
abbrev sitekCtrlResultFlag : Fld := ⟨.sitekCtrl, 26, 5⟩
abbrev sitekStatusState : Fld := ⟨.sitekStatus, 0, 3⟩
abbrev sitekStatusStopCause : Fld := ⟨.sitekStatus, 4, 2⟩
abbrev sitekStatusMapped : Fld := ⟨.sitekStatus, 8, 8⟩
abbrev sitekStatusDropped : Fld := ⟨.sitekStatus, 16, 8⟩
abbrev sitekResultStopCycle : Fld := ⟨.sitekResult, 0, 48⟩
abbrev sitekResultEpochLow : Fld := ⟨.sitekResult, 48, 8⟩
abbrev sitekResultFailed : Fld := ⟨.sitekResult, 56, 1⟩
abbrev sitekResultValid : Fld := ⟨.sitekResult, 57, 1⟩
abbrev sitekPinmapPin : Fld := ⟨.sitekPinmap, 0, 64⟩

end F

end Sys2Proof.Machine
end

