-- ==== Sys2Proof/Machine/Events.lean ====
section
/-!
DEFINITION. Events.lean: which events of R62 a command stands for: its object, its class (R56), the rank of its source (R57) and
its effect. Commands that wait together are sampled at one event tick, so an event is judged against those that still wait.
-/
namespace Sys2Proof.Machine

/-! ### Bits of words -/

/-- The bits `lo … lo+w-1` of a word (R9). -/
def bitsOf (v : Word) (lo w : Nat) : Nat := v.toNat / 2 ^ lo % 2 ^ w

/-- Bit `n` of a mask. -/
def testBit (m n : Nat) : Bool := decide (m / 2 ^ n % 2 = 1)

/-- The positions of the bits of a mask below `n`. -/
def bitsBelow (n m : Nat) : List Nat := (List.range n).filter (testBit m)

/-! ### Where registers lie (R501) -/

/-- The element of a register name that lies at a BAR0 offset. -/
def RegName.at_ (n : RegName) (off : Nat) : Option RegKey :=
  let d := n.desc
  if off < d.base then none
  else
    let o := off - d.base
    let i := if d.insts ≤ 1 then 0 else o / d.istride
    let r := o - i * d.istride
    if i < d.insts ∧ r / d.estride < d.elems ∧ r % d.estride = 0 then some ⟨n, i, r / d.estride⟩ else none

/-- The register at a BAR0 offset, where one lies there (R499). -/
def regAt (off : Nat) : Option RegKey := RegName.all.findSome? fun n => n.at_ off

/-- The register is one of BAY[b]. -/
def RegKey.ofBay (k : RegKey) (b : Nat) : Bool :=
  decide (0x40000 ≤ k.name.desc.base) && decide (k.name.desc.base < 0x80000) && decide (k.inst = b)

/-! ### Sources (R57) -/

/-- The source ranks of R57: hardware conditions, raisings, the object's own sequencer, Oluel arrivals, core firmware,
host software, GPIO and external triggers; within one source the lower instance first. -/
def srcRank : Src → Nat
  | .hw => 0
  | .raising => 1000
  | .seq n => 2000 + n
  | .oluel n => 3000 + n
  | .core n => 4000 + n
  | .host n => 5000 + n
  | .pin n => 6000 + n

/-- The source of a requester's events (R57): 64 is host software through BAR0. -/
def requesterSrc : Requester → Src
  | .core c => .core c
  | .host => .host 64
  | .config => .host 64
  | .bar2 => .host 64

/-! ### Events of register writes -/

/-- The W1C bits and, with a CLEAR bit [63], the counts of a register that a write of `d` clears: class 3 (R13, R62). -/
def clearEvents (k : RegKey) (d : Word) : List TickEvent :=
  k.name.desc.fields.flatMap fun f =>
    match f.access with
    | .w1c => ((List.range f.width).filter fun n => testBit d.toNat (f.lo + n)).map fun n => ⟨.field k (f.lo + n), 3, 0, 0⟩
    | .ro => if testBit d.toNat 63 ∧ (k.name.desc.fields.any fun g => g.access = .wo ∧ g.lo = 63) then
        [⟨.field k f.lo, 3, 0, 0⟩] else []
    | _ => []

/-- The events that the action bits of a written register stand for (R62). -/
def actionEvents (k : RegKey) (r : Nat) (d : Word) : List TickEvent :=
  let i := k.inst
  let j := k.elem
  let on (n : Nat) (o : Obj) (cls eff : Nat) : List TickEvent := if testBit d.toNat n then [⟨o, cls, r, eff⟩] else []
  match k.name with
  | .seqCtrl => on 3 (.seq i) 2 1 ++ on 2 (.seq i) 2 5 ++ on 4 (.seq i) 3 1 ++ on 0 (.seq i) 5 1 ++ on 1 (.seq i) 5 2
  | .seqTsCtrl => on 0 (.store i) 4 1
  | .clkAlign => on 3 .align 2 0
  | .ringCtrl => on 2 (.ring i) 1 0 ++ on 1 (.ring i) 2 0 ++ on 0 (.ring i) 4 1
  | .bayDclkCtrl => on 1 (.dclk i j) 2 0 ++ on 2 (.dclk i j) 4 2 ++ on 0 (.dclk i j) 5 1
  | .bayAdcCtrl => on 1 (.adcSeq i) 2 3 ++ on 2 (.adcSeq i) 3 1 ++ on 3 (.adcSeq i) 4 1 ++ on 0 (.adcSeq i) 5 1
      ++ on 5 (.adcUrgent i) 2 2 ++ on 4 (.adcUrgent i) 5 (bitsOf d 6 4 + 1)
  | .bayAcqCtrl => on 1 (.acq i) 2 3 ++ on 0 (.acq i) 4 2 ++ on 2 (.acq i) 5 1
  | .bayAcqCounts => on 63 (.acq i) 3 3
  | .bayTimCtrl => on 1 (.tim (4 * i + j)) 2 0 ++ on 2 (.tim (4 * i + j)) 3 2 ++ on 0 (.tim (4 * i + j)) 4 1
  | .oluGfOp => on 7 (.gf (bitsOf d 0 6)) 3 1 ++ on 6 (.gf (bitsOf d 0 6)) 4 1
      ++ (List.range 64).flatMap fun n => on 8 (.gf n) 1 1
  | .dispOp =>
    let t := bitsOf d 4 10
    if bitsOf d 0 4 = 0 then [⟨.thread t, 4, r, 1⟩]
    else if bitsOf d 0 4 = 1 then [⟨.thread t, 2, r, 2⟩]
    else if bitsOf d 0 4 = 2 then (bitsBelow 32 (bitsOf d 32 32)).map fun n => ⟨.threadFlag t n, 4, r, 1⟩
    else if bitsOf d 0 4 = 3 then (bitsBelow 32 (bitsOf d 32 32)).map fun n => ⟨.threadFlag t n, 3, r, 1⟩
    else if bitsOf d 0 4 = 4 then ⟨.thread t, 1, r, 0⟩ :: (List.range 32).map fun n => ⟨.threadFlag t n, 1, r, 0⟩
    else []
  | .dispFlowCfg => on 1 (.flow j) 1 0 ++ (if testBit d.toNat 0 then [] else [⟨.flow j, 2, r, 0⟩])
  | .calCtrl => (bitsBelow 8 (bitsOf d 0 8)).flatMap fun b => on 18 (.bay b) 2 1
  | .rasReset => (bitsBelow 4 (bitsOf d 0 4)).flatMap (fun q => [⟨.seq q, 1, r, 0⟩, ⟨.store q, 1, r, 0⟩])
      ++ (bitsBelow 8 (bitsOf d 4 8)).map fun b => ⟨.bay b, 1, r, 0⟩
  | _ => []

/-- The events of a write of the whole register at an offset. -/
def writeEvents (req : Requester) (off : Nat) (d : Word) : List TickEvent :=
  match regAt off with
  | some k => clearEvents k d ++ actionEvents k (srcRank (requesterSrc req)) d
  | none => []

/-- The events that a CLEAR bit of register `n` stands for. -/
def clearBit (n : RegName) (i j : Nat) : List TickEvent := clearEvents ⟨n, i, j⟩ (BitVec.ofNat 64 (2 ^ 63))

/-! ### Events of commands -/

/-- The events that a command stands for, where they can decide over an event of another command of the same tick (R56, R57). -/
def Instr.events : Instr → List TickEvent
  | .registerWrite req off bytes data => if bytes = 8 ∧ off % 8 = 0 then writeEvents req off data else []
  | .w1cClear off bits =>
    match regAt off with
    | some k => (clearEvents k bits).filter fun e => match e.obj with
      | .field _ n => testBit bits.toNat n
      | _ => false
    | none => []
  | .baymapCommit value src => (List.range 8).map fun b => ⟨.bay b, 4, srcRank src, 1 + value.toNat % 2 ^ 24⟩
  | .refmonClear => clearBit .clkRefmon 0 0
  | .alignDisarm src => [⟨.align, 2, srcRank src, 0⟩]
  | .precStatsClear => clearBit .clkPrecStats 0 0
  | .seqStart q src => [⟨.seq q, 5, srcRank src, 1⟩]
  | .seqResume q src => [⟨.seq q, 5, srcRank src, 2⟩]
  | .pauseRequest q src => [⟨.seq q, 2, srcRank src, 5⟩]
  | .abort q src => [⟨.seq q, 2, srcRank src, 1⟩]
  | .faultClear q src => [⟨.seq q, 3, srcRank src, 1⟩]
  | .tableCommit q src => [⟨.store q, 4, srcRank src, 1⟩]
  | .dclkStart b g src => [⟨.dclk b g, 5, srcRank src, 1⟩]
  | .dclkDisable b g src => [⟨.dclk b g, 2, srcRank src, 0⟩]
  | .frequencyCommit b g src => [⟨.dclk b g, 4, srcRank src, 2⟩]
  | .edgeStatClear b i => clearBit .bayEdgeStat b i
  | .failCountClear b => (List.range 16).map fun i => ⟨.field ⟨.bayFailCount, b, i⟩ 0, 3, 0, 0⟩
  | .cmpStatClear b => clearBit .bayCmpStat b 0
  | .logStatClear q => clearBit .seqLogStat q 0
  | .capStatClear q => clearBit .seqCapStat q 0
  | .underrunClear q => clearBit .seqUnderrun q 0
  | .stallTimeClear q => clearBit .seqStallTime q 0
  | .lcacheStatClear q => clearBit .seqLcacheStat q 0
  | .loadStatClear => clearBit .pgtLoadStat 0 0
  | .pgtErrStatClear => clearBit .pgtErrStat 0 0
  | .rejectCountClear d => clearBit .domStatus d 0
  | .oluErrStatClear p => clearBit .olupErrStat p 0
  | .gfSet i src => [⟨.gf i, 4, srcRank src, 1⟩]
  | .gfClear i src => [⟨.gf i, 3, srcRank src, 1⟩]
  | .gfReset src => (List.range 64).map fun i => ⟨.gf i, 1, srcRank src, 1⟩
  | .doorbell q .. => [⟨.ring q, 5, srcRank (.host q), 1⟩]
  | .ringEnable q src => [⟨.ring q, 4, srcRank src, 1⟩]
  | .ringDisable q src => [⟨.ring q, 2, srcRank src, 0⟩]
  | .ringReset q src => [⟨.ring q, 1, srcRank src, 0⟩]
  | .eventStatClear => clearBit .hifEventStat 0 0
  | .ringStatusClear q => clearBit .ringStatus q 0
  | .makeready j src => [⟨.thread j, 4, srcRank src, 1⟩]
  | .cancel j src => [⟨.thread j, 2, srcRank src, 2⟩]
  | .setflags j flags src => (bitsBelow 32 flags).map fun n => ⟨.threadFlag j n, 4, srcRank src, 1⟩
  | .clrflags j flags src => (bitsBelow 32 flags).map fun n => ⟨.threadFlag j n, 3, srcRank src, 1⟩
  | .slotReset j src => ⟨.thread j, 1, srcRank src, 0⟩ :: (List.range 32).map fun n => ⟨.threadFlag j n, 1, srcRank src, 0⟩
  | .flowDisable fl src => [⟨.flow fl, 2, srcRank src, 0⟩]
  | .flowReset fl src => [⟨.flow fl, 1, srcRank src, 0⟩]
  | .flowStatClear fl => clearBit .dispFlowStat 0 fl
  | .thrWaitClear j => clearBit .dispThrWait 0 j
  | .mailNorouteClear => clearBit .coreStatus 0 0
  | .sequenceTrigger b src => [⟨.adcSeq b, 5, srcRank src, 1⟩]
  | .adcStop b src => [⟨.adcSeq b, 2, srcRank src, 3⟩]
  | .accClear b src => [⟨.adcSeq b, 3, srcRank src, 1⟩]
  | .sequenceCommit b src => [⟨.adcSeq b, 4, srcRank src, 1⟩]
  | .urgentRequest b e src => [⟨.adcUrgent b, 5, srcRank src, e + 1⟩]
  | .urgentCancel b src => [⟨.adcUrgent b, 2, srcRank src, 2⟩]
  | .adcCountsClear b => clearBit .bayAdcCounts b 0
  | .rearm b src => [⟨.acq b, 4, srcRank src, 2⟩]
  | .acqStop b src => [⟨.acq b, 2, srcRank src, 3⟩]
  | .force b src => [⟨.acq b, 5, srcRank src, 1⟩]
  | .acqCountsClear b src => ⟨.acq b, 3, srcRank src, 3⟩ :: clearBit .bayAcqCounts b 0
  | .timArm m src => [⟨.tim m, 4, srcRank src, 1⟩]
  | .timDisarm m src => [⟨.tim m, 2, srcRank src, 0⟩]
  | .timResultClear m src => [⟨.tim m, 3, srcRank src, 2⟩]
  | .timStatClear m => clearBit .bayTimStat (m / 4) (m % 4)
  | .outOfRangeClear => clearBit .drmInfo 0 0
  | .panicClear => clearBit .drmPanic 0 0
  | .srClear => clearBit .drmSr 0 0
  | .eccStatClear m => clearBit .mchEccStat m 0
  | .calAbort mask src => (bitsBelow 8 mask).map fun b => ⟨.bay b, 2, srcRank src, 1⟩
  | .seqReset q src => [⟨.seq q, 1, srcRank src, 0⟩, ⟨.store q, 1, srcRank src, 0⟩]
  | .bayReset b src => [⟨.bay b, 1, srcRank src, 0⟩]
  | .rasErrStatClear => clearBit .rasErrStat 0 0
  | .peakClear i => clearBit .thermTemp 0 i
  | .feStatClear b => clearBit .bayFeStat b 0
  | _ => []

/-- The event that an action of SEQ[q] stands for at its boundary (R55, R105). -/
def SeqAct.event (q : Nat) : SeqAct → Option TickEvent
  | .gf i set => some ⟨.gf i, if set then 4 else 3, srcRank (.seq q), 1⟩
  | .failGf i _ => some ⟨.gf i, 4, srcRank (.seq q), 1⟩
  | .trigger b _ => some ⟨.acq b, 5, srcRank (.seq q), 1⟩
  | .urgent b e => some ⟨.adcUrgent b, 5, srcRank (.seq q), e + 1⟩
  | .timArm m => some ⟨.tim m, 4, srcRank (.seq q), 1⟩
  | _ => none

/-- The bay whose block an object belongs to: a reset of that block is its class 1 event (R62). -/
def Obj.block : Obj → Option Nat
  | .acq b => some b
  | .adcSeq b => some b
  | .adcUrgent b => some b
  | .dclk b _ => some b
  | .tim m => some (m / 4)
  | .field k _ => if k.ofBay k.inst then some k.inst else none
  | .seq _ => none
  | .store _ => none
  | .bay _ => none
  | .gf _ => none
  | .thread _ => none
  | .threadFlag _ _ => none
  | .flow _ => none
  | .ring _ => none
  | .raise _ => none
  | .align => none

/-- An event acts on the object, be it as the reset of its block. -/
def TickEvent.on (e : TickEvent) (o : Obj) : Bool :=
  decide (e.obj = o) || match o.block with
    | some b => decide (e.cls = 1) && decide (e.obj = .bay b)
    | none => false

/-- How many events one that has been sampled stands for: increments of a count add up (R62), all else is one. -/
def TickEvent.weight (e : TickEvent) : Nat :=
  match e.obj with
  | .field _ _ => if e.cls = 6 then e.eff else 1
  | _ => 1

/-- The events of the present tick that have not acted: those of the commands that wait, and those of the sequencers' actions whose
boundary this is (R56). (DESIGN CHOICE, log entry 9.) -/
def State.waiting (s : State) (o : Obj) : List TickEvent :=
  ((s.pending.flatMap Instr.events) ++ s.seqs.flatMap fun e =>
    e.2.due.filterMap fun a => if a.1 ≤ s.ticks * 8192 then SeqAct.event e.1 a.2 else none).filter fun e => e.on o

/-- Event `w` decides an object over an event of class `cls`, rank `rank` and effect `eff` (R56, R57). -/
def TickEvent.beats (w : TickEvent) (cls rank eff : Nat) : Bool :=
  decide (w.cls < cls)
  || (decide (w.cls = cls) && decide (w.eff ≠ eff) && (if cls = 2 then decide (w.eff < eff) else decide (w.rank < rank)))

end Sys2Proof.Machine
end

