-- ==== Sys2Proof/Machine/Ops.lean ====
section
/-!
DEFINITION. Ops.lean: the operations every meaning is written with: registers and their fields, counts and sticky bits
(R12, R13, R19), the same-tick precedence of R56 to R60, local DRAM, outputs, free values, and station time (R235 to R238).
-/
namespace Sys2Proof.Machine

/-! ### Registers -/

/-- The order of register keys in the canonical form. -/
def RegKey.before (a b : RegKey) : Bool :=
  decide (a.name.ctorIdx < b.name.ctorIdx)
  || (decide (a.name = b.name)
      && (decide (a.inst < b.inst) || (decide (a.inst = b.inst) && decide (a.elem < b.elem))))

/-- The reset value of a register (R502). -/
def resetWord (k : RegKey) : Word :=
  match k.name with
  | .coreKeyhash => BitVec.ofNat 64 (Config.keyHash k.elem)
  | n => BitVec.ofNat 64 n.desc.reset

/-- The value of a register. (DESIGN CHOICE, log entry 2.) -/
def State.rd (s : State) (k : RegKey) : Word := Assoc.rd resetWord s.regs k

/-- Stores a register. -/
def State.wr (s : State) (k : RegKey) (v : Word) : State :=
  { s with regs := Assoc.wr RegKey.before resetWord s.regs k v }

/-- The word `v` with bits `lo … lo+w-1` set to `x` modulo 2^w (R9). -/
def withBits (v : Word) (lo w x : Nat) : Word :=
  BitVec.ofNat 64 (v.toNat / 2 ^ (lo + w) * 2 ^ (lo + w) + x % 2 ^ w * 2 ^ lo + v.toNat % 2 ^ lo)

/-- The key of a field's register. -/
def Fld.key (f : Fld) (i j : Nat) : RegKey := ⟨f.reg, i, j⟩

/-- The value of a field of instance `i`, element `j`. -/
def State.get (s : State) (f : Fld) (i : Nat := 0) (j : Nat := 0) : Nat := bitsOf (s.rd (f.key i j)) f.lo f.width

/-- Stores a field. -/
def State.set (s : State) (f : Fld) (i j : Nat) (v : Nat) : State :=
  s.wr (f.key i j) (withBits (s.rd (f.key i j)) f.lo f.width v)

/-- A one-bit field. -/
def State.bit (s : State) (f : Fld) (i : Nat := 0) (j : Nat := 0) : Bool := decide (s.get f i j = 1)

/-- Stores a one-bit field. -/
def State.setBit (s : State) (f : Fld) (i j : Nat) (b : Bool) : State := s.set f i j b.toNat

/-- The two's complement value of the low `w` bits of `n`. -/
def signed (w n : Nat) : Int := if n % 2 ^ w < 2 ^ (w - 1) then (n % 2 ^ w : Nat) else (n % 2 ^ w : Nat) - (2 : Int) ^ w

/-- The `w`-bit two's complement encoding of `x`. -/
def unsigned (w : Nat) (x : Int) : Nat := (x % (2 : Int) ^ w).toNat

/-- A field read as two's complement. -/
def State.getS (s : State) (f : Fld) (i : Nat := 0) (j : Nat := 0) : Int := signed f.width (s.get f i j)

/-- The mask `m` with bit `n` set to `b`. -/
def putBit (m n : Nat) (b : Bool) : Nat := m - (m / 2 ^ n % 2) * 2 ^ n + b.toNat * 2 ^ n

/-! ### Indexed units -/

/-- An indexed unit, `d` where the list holds none. -/
def unitAt {V : Type} (d : V) (l : List (Nat × V)) (n : Nat) : V := Assoc.rd (fun _ => d) l n

/-- Stores an indexed unit. -/
def putUnit {V : Type} [DecidableEq V] (d : V) (l : List (Nat × V)) (n : Nat) (v : V) : List (Nat × V) :=
  Assoc.wr natLt (fun _ => d) l n v

/-! ### Outputs and free values -/

/-- Sends something out. -/
def State.emit (s : State) (o : Output) : State := { s with out := s.out ++ [o] }

/-- A free value: nothing constrains it (log entry 5). -/
def State.freeVal (s : State) : Nat := Config.freeValue s.free

/-- Marks the present free value as used. -/
def State.useFree (s : State) : State := { s with free := s.free + 1 }

/-! ### Local DRAM (bytes; an unlisted byte reads as 0, log entry 6) -/

/-- What an unlisted byte of local DRAM reads as. (DESIGN CHOICE, log entry 6.) -/
def memDefault (_ : Nat) : Byte := 0

/-- The canonical form of a memory. -/
abbrev Memory.wf (m : List Host.Cell) : Prop := Assoc.Wf natLt memDefault m

/-- One byte of local DRAM. -/
def State.memByte (s : State) (a : Nat) : Byte := Assoc.rd memDefault s.mem a

/-- Writes one byte of local DRAM. -/
def State.putByte (s : State) (a : Nat) (b : Byte) : State := { s with mem := Assoc.wr natLt memDefault s.mem a b }

/-- Writes bytes from address `a` on. -/
def State.putBytes (s : State) (a : Nat) : List Nat → State
  | [] => s
  | b :: bs => State.putBytes (s.putByte a (BitVec.ofNat 8 b)) (a + 1) bs

/-- The `n` bytes from address `a` on. -/
def State.memBytes (s : State) (a : Nat) : Nat → List Nat
  | 0 => []
  | n + 1 => (s.memByte a).toNat :: State.memBytes s (a + 1) n

/-- The `n` bytes of a number, little-endian (R9). -/
def bytesOf (v : Nat) : Nat → List Nat
  | 0 => []
  | n + 1 => v % 256 :: bytesOf (v / 256) n

/-- The number that bytes hold, little-endian (R9). -/
def ofBytes : List Nat → Nat
  | [] => 0
  | b :: bs => b % 256 + 256 * ofBytes bs

/-- Bytes `from … from+n-1` of a list, as a number. -/
def field (l : List Nat) (start n : Nat) : Nat := ofBytes ((l.drop start).take n)

/-- The bytes of words, little-endian. -/
def wordBytes : List Word → List Nat
  | [] => []
  | w :: ws => bytesOf w.toNat 8 ++ wordBytes ws

/-! ### Same-tick precedence (R56 to R60) -/

/-- What becomes of an event on its object. -/
inductive Verdict
  /-- it decides the object: it acts -/
  | acts
  /-- it has the effect of the event that decided: both see success (R57) -/
  | merged
  /-- it is discarded (R58) -/
  | superseded
deriving DecidableEq, Repr

/-- The event that decides `o` in this tick. -/
def State.decider (s : State) (o : Obj) : Option TickEvent := s.events.find? (fun e => decide (e.obj = o))

/-- Records `e` as the event that decides its object. -/
def State.note (s : State) (e : TickEvent) : State :=
  { s with events := e :: s.events.filter (fun x => decide (x.obj ≠ e.obj)) }

/-- Host-ready (R465): a device reset has completed. -/
def State.hostReady (s : State) : Bool := s.bit F.rasStatusHostReady

/-- A bay reset of BAY[b] is in progress. -/
def State.bayResetting (s : State) (b : Nat) : Bool := testBit (s.get F.rasStatusBayResetting) b

/-- The object is in a reset that has not completed (R59): every object is until HOST_READY (R465), what belongs to a bay, its
status bits and counts included, while the bay is (R62), a sequencer and its timing store while the sequencer is. -/
def State.inReset (s : State) (o : Obj) : Bool :=
  !s.hostReady || match o with
  | .seq n => s.bit F.seqStatusResetting n
  | .store n => s.bit F.seqStatusResetting n
  | .bay b => s.bayResetting b
  | .acq b => s.bayResetting b
  | .adcSeq b => s.bayResetting b
  | .adcUrgent b => s.bayResetting b
  | .dclk b _ => s.bayResetting b
  | .tim m => s.bayResetting (m / 4)
  | .field k _ => k.ofBay k.inst && s.bayResetting k.inst
  | _ => false

/-- A clear of the count or bit at `lo` of register `k` is sampled in this tick, or its block is in reset (R13, R59, R62). -/
def State.clearedNow (s : State) (k : RegKey) (lo : Nat) : Bool :=
  s.inReset (.field k lo) || (s.waiting (.field k lo)).any (fun w => decide (w.cls ≤ 3)) || match s.decider (.field k lo) with
  | some e => decide (e.cls ≤ 3)
  | none => false

/-- Adds `n` to a saturating count (R19). -/
def State.addCount (s : State) (f sat : Fld) (i j n : Nat) : State :=
  if s.get f i j + n < 2 ^ f.width then s.set f i j (s.get f i j + n)
  else (s.set f i j (2 ^ f.width - 1)).setBit sat i j true

/-- Counts `n` discarded events (R58), where no clear of the count is sampled in this tick. -/
def State.supersede (s : State) (n : Nat) : State :=
  if n = 0 ∨ s.clearedNow (F.clkPrecStatsSupersededCount.key 0 0) F.clkPrecStatsSupersededCount.lo then s
  else s.addCount F.clkPrecStatsSupersededCount F.clkPrecStatsSaturated 0 0 n

/-- Counts a discarded event (R58). -/
def State.superseded (s : State) : State := s.supersede 1

/-- Events of this tick on the count or bit at `lo` of register `k` that a clear discards: class 4 is a hardware set, class 6 an
increment (R62). -/
def State.lostToClear (s : State) (k : RegKey) (lo : Nat) : Nat :=
  match s.decider (.field k lo) with
  | some e => if 3 < e.cls then e.weight else 0
  | none => 0

/-- Adds `n` to a saturating count (R19); an increment in the tick of a clear, or during a reset of its block, is discarded
(R59, R62). -/
def State.count (s : State) (f sat : Fld) (i j n : Nat) : State :=
  if s.clearedNow (f.key i j) f.lo then s.superseded
  else (s.addCount f sat i j n).note ⟨.field (f.key i j) f.lo, 6, 0, s.lostToClear (f.key i j) f.lo + 1⟩

/-- What register `k` held before the present tick (R163, R506). (DEDUCED, log entry 11.) -/
def State.atStart (s : State) (k : RegKey) : Word := Assoc.rd resetWord s.startOfTick k

/-- What a field held before the present tick. -/
def State.before (s : State) (f : Fld) (i : Nat := 0) (j : Nat := 0) : Nat := bitsOf (s.atStart (f.key i j)) f.lo f.width

/-- Hardware sets a W1C bit; a clear in the same tick decides, and the set is discarded (R13, R58). -/
def State.hwSet (s : State) (f : Fld) (i j : Nat) : State :=
  if s.clearedNow (f.key i j) f.lo then s.superseded else (s.setBit f i j true).note ⟨.field (f.key i j) f.lo, 4, 0, 1⟩

/-- Hardware sets bit `n` of a mask of W1C bits; a clear in the same tick decides, and the set is discarded (R13, R58). -/
def State.hwSetBit (s : State) (f : Fld) (i j n : Nat) : State :=
  if s.clearedNow (f.key i j) (f.lo + n) then s.superseded
  else (s.set f i j (putBit (s.get f i j) n true)).note ⟨.field (f.key i j) (f.lo + n), 4, 0, 1⟩

/-- Bit `n` of a mask field becomes `b`. -/
def State.putMask (s : State) (f : Fld) (i j n : Nat) (b : Bool) : State := s.set f i j (putBit (s.get f i j) n b)

/-- A class 3 clear, `t`, of the count or bit at `lo` of register `k`: what arrives in this tick is lost for it (R13, R62), and a
reset of its block discards it (R59). -/
def State.clearing (s t : State) (k : RegKey) (lo : Nat) : State :=
  if s.inReset (.field k lo) || (s.waiting (.field k lo)).any (fun w => decide (w.cls = 1)) then s.superseded
  else (t.note ⟨.field k lo, 3, 0, 0⟩).supersede (s.lostToClear k lo)

/-- A class 3 clear of a field: it reads zero. -/
def State.clear (s : State) (f : Fld) (i j : Nat) : State := s.clearing (s.set f i j 0) (f.key i j) f.lo

/-- Judges an event of class `cls`, source rank `rank` and effect `eff` on `o` against the event that has decided it in this
tick and those that wait (R56, R57, R59). Within class 2 the effect numbers rank finality: disable 0, abort 1, cancel 2,
thermal stop 3, REF_LOST stop 4, pause 5. A thermal stop and a REF_LOST stop are equally final, and both come from the
device's own conditions; R57 does not say which decides, and here the thermal stop does. (DESIGN CHOICE, log entry 9.) -/
def State.judge (s : State) (o : Obj) (cls rank eff : Nat) : Verdict × Nat :=
  if s.inReset o then (.superseded, 0)
  else if (s.waiting o).any (fun w => w.beats cls rank eff) then (.superseded, 0)
  else
    match s.decider o with
    | none => (.acts, 0)
    | some d =>
      if d.cls < cls then (.superseded, 0)
      else if cls < d.cls then (.acts, 1)
      else if d.eff = eff then (.merged, 0)
      else if cls = 2 then (if eff < d.eff then (.acts, 1) else (.superseded, 0))
      else if rank < d.rank then (.acts, 1)
      else (.superseded, 0)

/-- Samples an event on `o`: its verdict, and the state with the event recorded and what is discarded counted (R58).
(DESIGN CHOICE, log entry 9.) -/
def State.decideEvent (s : State) (o : Obj) (cls rank eff : Nat) : Verdict × State :=
  match s.judge o cls rank eff with
  | (.acts, 0) => (.acts, s.note ⟨o, cls, rank, eff⟩)
  | (.acts, _) => (.acts, (s.note ⟨o, cls, rank, eff⟩).superseded)
  | (.merged, _) => (.merged, s)
  | (.superseded, _) => (.superseded, s.superseded)

/-- Samples an event whose effect is `f`. -/
def State.onObj (s : State) (o : Obj) (cls rank eff : Nat) (f : State → State) : State :=
  match s.decideEvent o cls rank eff with
  | (.acts, t) => f t
  | (_, t) => t

/-- The event of class `cls` of this tick on `o` is discarded, where an event of a higher class has decided `o` or waits (R58): for
what a higher class has already taken away. -/
def State.discardAt (s : State) (o : Obj) (cls : Nat) : State :=
  if (match s.decider o with
    | some d => decide (d.cls < cls)
    | none => false) || (s.waiting o).any (fun w => decide (w.cls < cls)) then s.superseded else s

/-! ### Station time (R235 to R238) -/

/-- One second in units of 2⁻³² ns. -/
def secondUnits : Int := 1000000000 * 4294967296

/-- Δ after its slew by `step` units towards zero (R243). -/
def slewBy (delta : Int) (step : Nat) : Int :=
  if 0 ≤ delta then max 0 (delta - step) else min 0 (delta + step)

/-- The clocks `n` core ticks later (R235, R236, R243). -/
def Clocks.pass (c : Clocks) (n : Nat) : Clocks :=
  { c with dom0 := c.dom0 + n * c.add0, dom1 := c.dom1 + n * c.add1, delta := slewBy c.delta (n * c.slew) }

/-- The clock of domain `d`. -/
def Clocks.dom (c : Clocks) (d : Nat) : Int := if d = 0 then c.dom0 else c.dom1

/-- The addend of domain `d`. -/
def Clocks.add (c : Clocks) (d : Nat) : Nat := if d = 0 then c.add0 else c.add1

/-- Station time: the selected domain plus Δ (R236). -/
def Clocks.station (c : Clocks) : Int := c.dom c.sel + c.delta

/-- The time of a source: 0 station, 1 DOM[0], 2 DOM[1]. -/
def Clocks.source (c : Clocks) (source : Nat) : Int := if source = 0 then c.station else c.dom (source - 1)

/-- The domain whose stamp the time of a source carries (R237). -/
def Clocks.sourceDom (c : Clocks) (source : Nat) : Nat := if source = 0 then c.sel else source - 1

/-- The clocks at core tick `t`: the newest entry of the timeline that is not later, and the ticks since then (R236). -/
def State.clocksAt (s : State) (t : Nat) : Clocks :=
  match s.time.timeline.find? fun e => decide (e.1 ≤ t) with
  | some e => e.2.pass (t - e.1)
  | none => {}

/-- The clocks at the present boundary. -/
def State.clocks (s : State) : Clocks := s.clocksAt s.time.ct

/-- The core tick of the newest change, or the present boundary. -/
def State.timeFront (s : State) : Nat := max s.time.ct ((s.time.timeline.head?.map (·.1)).getD 0)

/-- The clocks with every change so far. -/
def State.newClocks (s : State) : Clocks := s.clocksAt s.timeFront

/-- The clock of domain `d` at the present boundary, in units of 2⁻³² ns. -/
def State.domain (s : State) (d : Nat) : Int := s.clocks.dom d

/-- Station time at the present boundary: S(k) of R238. -/
def State.station (s : State) : Int := s.clocks.station

/-- Seconds, nanoseconds and 16-bit fraction of an instant (R235, R236). -/
def timeSec (t : Int) : Nat := (t / secondUnits % 281474976710656).toNat
def timeNs (t : Int) : Nat := (t % secondUnits / 4294967296).toNat
def timeFrac (t : Int) : Nat := (t % 4294967296 / 65536).toNat

/-- HOLDOVER of a stamp of domain `d` (R237). -/
def State.holdover (s : State) (d : Nat) : Bool := decide (s.get F.domStatusState d = 3) || s.bit F.clkStatusRefLost

/-- The 12-byte stamp of R237 as a number. -/
def State.stampOf (s : State) (t : Int) (d : Nat) : Nat :=
  timeSec t + (timeNs t + d % 2 * 1073741824 + (s.holdover d).toNat * 2147483648) * 2 ^ 48 + timeFrac t * 2 ^ 80

/-- The event-tick stamp of the present tick (R238). -/
def State.stamp (s : State) : Nat := s.stampOf s.station s.clocks.sel

/-- The instant that seconds, nanoseconds and a 16-bit fraction name. -/
def instant (sec ns frac : Nat) : Int := sec * secondUnits + ns * 4294967296 + frac * 65536

/-- The clocks `ct` core ticks after the present boundary (R236). -/
def State.clocksIn (s : State) (ct : Nat) : Clocks := s.clocksAt (s.time.ct + ct)

/-- Word `i` of a record whose 32 bytes are the number `n`. -/
def recWord (n i : Nat) : Word := BitVec.ofNat 64 (n / 2 ^ (64 * i))

/-! ### Cyclic redundancy checks (R195, R279, R322) -/

/-- One bit of a reflected CRC-32 of polynomial `poly`. -/
def crcBit (poly c : Nat) : Nat := if c % 2 = 1 then Nat.xor (c / 2) poly else c / 2

/-- One byte of a reflected CRC-32. -/
def crcByte (poly c b : Nat) : Nat :=
  let f := crcBit poly
  f (f (f (f (f (f (f (f (Nat.xor c (b % 256)))))))))

/-- The polynomials, reflected: CRC-32C and that of IEEE 802.3. -/
def polyC : Nat := 0x82F63B78
def polyE : Nat := 0xEDB88320

/-- The CRC-32 of bytes, from and into the complement of its register. -/
def crc32 (poly : Nat) (l : List Nat) : Nat := Nat.xor (l.foldl (crcByte poly) 0xFFFFFFFF) 0xFFFFFFFF

end Sys2Proof.Machine
end

