-- ==== Sys2Proof/Machine/OpsHost.lean ====
section
/-!
DEFINITION. OpsHost.lean: the operations over host rings that other blocks use: records, write-backs, completions, event
records, index write-backs and MSI-X messages (R299 to R325, R504).
-/
namespace Sys2Proof.Machine

/-- What RING[q] holds beside its registers. -/
def State.ringX (s : State) (q : Nat) : RingX := unitAt {} s.host.rings q

/-- Stores what RING[q] holds beside its registers. -/
def State.setRingX (s : State) (q : Nat) (r : RingX) : State :=
  { s with host := { s.host with rings := putUnit {} s.host.rings q r } }

/-- 2^SIZE (R299). -/
def State.ringSize (s : State) (q : Nat) : Nat := 2 ^ s.get F.ringCfgSize q

/-- Bytes of an entry: 8 in a CAPTURE ring, else 32 (R299). -/
def State.ringEntry (s : State) (q : Nat) : Nat := if s.get F.ringCfgType q = 4 then 8 else 32

/-- The host address of entry `i`. -/
def State.ringAddr (s : State) (q i : Nat) : Nat := s.get F.ringBaseAddress q * 4096 + i * s.ringEntry q

/-- STATE is ENABLED. -/
def State.ringEnabled (s : State) (q : Nat) : Bool := decide (s.get F.ringStatusState q = 1)

/-- Host software produces the entries of this ring type (R299). -/
def hostProduced (t : Nat) : Bool := t == 0 || t == 6 || t == 7 || t == 8 || t == 9

/-- A device-produced ring has room for one more entry (R299). -/
def State.ringRoom (s : State) (q : Nat) : Bool :=
  decide ((s.get F.ringIndexProd q + 1) % s.ringSize q ≠ s.get F.ringIndexCons q)

/-- An entry or a write-back of RING[q] has been written: it is due for an index write-back and a signal (R308, R309). -/
def State.wroteEntry (s : State) (q : Nat) (irq : Bool) : State :=
  let r := s.ringX q
  s.setRingX q { r with
    wrote := true
    firstUnsignalled := if r.unsignalled = 0 then s.ticks else r.firstUnsignalled
    unsignalled := r.unsignalled + 1
    irqAsked := r.irqAsked || irq }

/-- Bus Master Enable of the function (R306). -/
def State.busMaster (s : State) : Bool := testBit s.host.pcie.command 2

/-- A posted write to host memory, which the function makes only while it is a bus master. (PRESUMED, log entry 69.) -/
def State.hostWrite (s : State) (o : Output) : State := if s.busMaster then s.emit o else s

/-- Lowers by one what barriers wait for on RING[q] (R320). -/
def lowerBarrier (q : Nat) (l : List (Nat × Nat)) : List (Nat × Nat) :=
  l.map fun e => if e.1 = q then (e.1, e.2 - 1) else e

/-- Applies `f` to the waiting barrier of every ring (R320). -/
def State.mapBarriers (s : State) (f : List (Nat × Nat) → List (Nat × Nat)) : State :=
  { s with host := { s.host with rings := s.host.rings.map fun e => (e.1, { e.2 with barrier := e.2.barrier.map f }) } }

/-- Waiting barriers wait for at most `n` write-backs of RING[q] (R320). -/
def State.capBarriers (s : State) (q n : Nat) : State :=
  s.mapBarriers fun l => l.map fun e => if e.1 = q then (q, min e.2 n) else e

/-- The ring is DISABLED, and nothing more is written for it (R305, R306). -/
def State.cutRing (s : State) (q : Nat) : State :=
  ((s.set F.ringStatusState q 0 0).setRingX q { gen := (s.ringX q).gen + 1 }).capBarriers q 0

/-- A record write of RING[q] fails (R306): the ring is DISABLED at once; its DMA_ERROR record follows at the end of the tick.
(DEDUCED, log entry 64.) -/
def State.recordFail (s : State) (q : Nat) : State :=
  let t := (s.hwSet F.ringStatusDmaErr q 0).cutRing q
  { t with host := { t.host with failed := t.host.failed ++ [q] } }

/-- Writes one entry of a device-produced ring that has room; the write fails while the function is no bus master (R306). -/
def State.pushEntry (s : State) (q : Nat) (ws : List Word) : State :=
  if s.busMaster then
    let p := s.get F.ringIndexProd q
    ((s.emit (.hostWrite (s.ringAddr q p) ws)).set F.ringIndexProd q 0 ((p + 1) % s.ringSize q)).wroteEntry q false
  else s.recordFail q

/-- The four words of an event record (R323). -/
def State.eventWords (s : State) (code src detail : Nat) : List Word :=
  let n := code % 65536 + src % 65536 * 2 ^ 16 + s.stamp % 2 ^ 96 * 2 ^ 32 + detail % 2 ^ 128 * 2 ^ 128
  [recWord n 0, recWord n 1, recWord n 2, recWord n 3]

/-- What an EVENT ring dropped while it was full is reported by one EVENTS_LOST record once it has space (R324). -/
def State.reportLost (s : State) (q : Nat) : State :=
  let r := s.ringX q
  if r.lost = 0 ∨ s.ringRoom q = false then s
  else (s.setRingX q { r with lost := 0 }).pushEntry q (s.eventWords 0x0801 q (min r.lost 4294967295))

/-- Writes a record to a device-produced ring, or drops and counts it at a full ring (R324). -/
def State.pushRecord (s : State) (q : Nat) (ws : List Word) : State :=
  let t := s.reportLost q
  if t.ringRoom q then t.pushEntry q ws
  else
    let u := t.count F.ringStatusDropped F.ringStatusSaturated q 0 1
    u.setRingX q { (u.ringX q) with lost := if u.get F.ringCfgType q = 2 then (u.ringX q).lost + 1 else 0 }

/-- The EVENT rings that take group `g` (R324). -/
def State.eventRings (s : State) (g : Nat) : List Nat :=
  (List.range 64).filter fun q =>
    s.ringEnabled q && (s.get F.ringCfgType q == 2) && testBit (s.get F.ringEvmaskGroups q) (if g < 63 then g else 63)

/-- Posts an event record (R323, R324). -/
def State.post (s : State) (code src detail : Nat) : State :=
  match s.eventRings (code / 256) with
  | [] => s.count F.hifEventStatUnrouted F.hifEventStatSaturated 0 0 1
  | qs => qs.foldl (fun t q => t.pushRecord q (s.eventWords code src detail)) s

/-- A block looks at the ring `q` that field `kind` of unit `idx` names, which must have type `ty` and not be `self`
(R307): whether the ring can be used as an ENABLED ring, and the state with the first mismatch reported. -/
def State.namedRing (s : State) (kind idx q ty : Nat) (self : Bool) : Bool × State :=
  if s.get F.ringCfgType q = ty ∧ self = false then (s.ringEnabled q, s)
  else if (kind, idx, q) ∈ s.host.typeReported then (false, s)
  else (false, ({ s with host := { s.host with typeReported := (kind, idx, q) :: s.host.typeReported } }).post
    0x0804 q (kind + idx * 256))

/-- An accepted write of the register that holds naming field `kind` of unit `idx` (R307): its mismatches count as new.
(DEDUCED, log entry 49.) -/
def State.rearm (s : State) (kind idx : Nat) : State :=
  { s with host := { s.host with typeReported := s.host.typeReported.filter fun e => decide (e.1 ≠ kind) || decide (e.2.1 ≠ idx) } }

/-- An accepted write of RING[q].CFG (R307): what names the ring counts as new. -/
def State.rearmRing (s : State) (q : Nat) : State :=
  { s with host := { s.host with typeReported := s.host.typeReported.filter fun e => decide (e.2.2 ≠ q) } }

/-- The words of a completion record (R314). -/
def CompRec.words (c : CompRec) (q : Nat) : List Word :=
  [BitVec.ofNat 64 (c.opcode % 256 + c.status % 256 * 2 ^ 8 + q % 64 * 2 ^ 16 + c.cookie % 2 ^ 32 * 2 ^ 32),
   BitVec.ofNat 64 (c.idx % 65536), recWord c.stamp 0, BitVec.ofNat 64 (c.stamp / 2 ^ 64 % 2 ^ 32)]

/-- A ring that drains becomes DISABLED once nothing it began is left (R304). -/
def State.drained (s : State) (q : Nat) : State :=
  if s.get F.ringStatusState q = 2 ∧ (s.ringX q).running = [] ∧ (s.ringX q).recWait = none then
    s.set F.ringStatusState q 0 0
  else s

/-- Writes the waiting completion record of RING[q] when its COMPLETION ring has room (R314). -/
def State.writeOwnRecord (s : State) (q : Nat) : State :=
  match (s.ringX q).recWait with
  | none => s
  | some c =>
    let p := s.get F.ringCfgPair q
    match s.namedRing 1 q p 1 (decide (p = q)) with
    | (true, t) =>
      if t.ringRoom p then
        let u := t.pushEntry p (c.words q)
        (u.setRingX q { (u.ringX q) with recWait := none, lastRecord := some u.ticks }).drained q
      else t
    | (false, t) => t

/-- The rings whose commands completed before that of RING[q] and name the same COMPLETION ring, in that order. -/
def State.completedBefore (s : State) (q : Nat) : List Nat :=
  (s.host.recOrder.takeWhile fun r => decide (r ≠ q)).filter fun r => decide (s.get F.ringCfgPair r = s.get F.ringCfgPair q)

/-- Writes the waiting completion record of RING[q] when its COMPLETION ring has room, after those of the commands that completed
before it (R314). -/
def State.writeCompletion (s : State) (q : Nat) : State :=
  ((s.completedBefore q).foldl (fun (t : State) r => t.writeOwnRecord r) s).writeOwnRecord q

/-- Writes a completed descriptor back in place: STATUS, DONE, and the write-back words (R310, R311). -/
def State.writeBack (s : State) (q : Nat) (d : Desc) (st : Nat) (w1 w2 w3 : Word) : State :=
  let hdr := withBits (withBits d.w0 16 8 st) 24 1 1
  (((s.emit (.hostWrite (s.ringAddr q d.idx) [hdr, w1, w2, w3])).set F.ringIndexCons q 0
      ((d.idx + 1) % s.ringSize q)).wroteEntry q (decide (bitsOf d.w0 8 1 = 1))).mapBarriers (lowerBarrier q)

/-- Writes back, in ring order, the completed descriptors at the head of what RING[q] is executing (R311); a completed
command of a COMMAND ring leaves its completion record to be written (R314). (DEDUCED, log entry 68.) -/
def State.flushRuns (s : State) (q : Nat) : List Run → State
  | [] => s.setRingX q { (s.ringX q) with running := [] }
  | r :: rs =>
    match r.done with
    | none => s.setRingX q { (s.ringX q) with running := r :: rs }
    | some (st, w1, w2, w3) =>
      let t := s.writeBack q r.d st w1 w2 w3
      let u := if s.get F.ringCfgType q = 0 then
          let v := t.setRingX q { (t.ringX q) with
            recWait := some ⟨bitsOf r.d.w0 0 8, st, bitsOf r.d.w0 32 32, r.d.idx, t.stamp⟩ }
          { v with host := { v.host with recOrder := (v.host.recOrder.filter fun p => decide (p ≠ q)) ++ [q] } }
        else t
      u.flushRuns q rs

/-- Marks the run of index `i` as completed. -/
def markDone (i st : Nat) (w1 w2 w3 : Word) (l : List Run) : List Run :=
  l.map fun r => if r.d.idx = i ∧ r.done = none then { r with done := some (st, w1, w2, w3) } else r

/-- What a descriptor's end writes on its own ring: write-backs and the completion record. -/
def State.endRun (s : State) (q i st : Nat) (w1 w2 w3 : Word) : State :=
  if s.busMaster then
    let t := s.flushRuns q (markDone i st w1 w2 w3 (s.ringX q).running)
    (t.writeCompletion q).drained q
  else s.recordFail q

/-- The run of a barrier that waits for nothing more: its ring and the barrier descriptor (R320). -/
def State.freeBarriers (s : State) : List (Nat × Desc) :=
  s.host.rings.filterMap fun e =>
    match e.2.barrier, e.2.running with
    | some l, r :: _ => if l.all (fun x => x.2 == 0) then some (e.1, r.d) else none
    | _, _ => none

/-- Completes every barrier that waits for nothing more (R320). -/
def State.releaseBarriers (s : State) : State :=
  s.freeBarriers.foldl (fun t e =>
    (t.setRingX e.1 { (t.ringX e.1) with barrier := none }).endRun e.1 e.2.idx 0 e.2.w1 e.2.w2 e.2.w3) s

/-- A descriptor that began on RING[t.ring] completes with a status and its write-back words; what a ring reset or a failed
write has ended is never written (R305, R306, R311, R313). -/
def State.complete (s : State) (t : Token) (st : Nat) (w1 w2 w3 : Word) : State :=
  if (s.ringX t.ring).gen = t.gen then (s.endRun t.ring t.idx st w1 w2 w3).releaseBarriers else s

/-- The descriptor that a token names, while its ring still executes it. -/
def State.runDesc (s : State) (t : Token) : Option Desc :=
  if (s.ringX t.ring).gen = t.gen then
    ((s.ringX t.ring).running.find? (fun r => decide (r.d.idx = t.idx ∧ r.done = none))).map (·.d)
  else none

/-- A descriptor completes with a status and with its own words unchanged. -/
def State.completeSame (s : State) (t : Token) (st : Nat) : State :=
  match s.runDesc t with
  | some d => s.complete t st d.w1 d.w2 d.w3
  | none => s

/-- The next descriptor of RING[q] begins, when the ring is ENABLED, has type `ty`, and — on a COMMAND ring — executes
nothing and wrote its last completion record before this tick (R313). -/
def State.begin (s : State) (q ty : Nat) : Option (Desc × Token × State) :=
  let r := s.ringX q
  match r.fetched with
  | [] => none
  | d :: ds =>
    if s.ringEnabled q ∧ s.get F.ringCfgType q = ty
        ∧ (ty ≠ 0 ∨ (r.running = [] ∧ r.recWait = none ∧ r.lastRecord ≠ some s.ticks)) then
      some (d, ⟨q, r.gen, d.idx⟩, s.setRingX q { r with fetched := ds, running := r.running ++ [⟨d, none⟩] })
    else none

/-- A supplied receive buffer of the TIMERX ring RING[q] is used (R322). -/
def State.beginRx (s : State) (q : Nat) : Option (Desc × Token × State) :=
  let r := s.ringX q
  match r.ready with
  | [] => none
  | d :: ds =>
    if s.ringEnabled q ∧ s.get F.ringCfgType q = 8 then
      some (d, ⟨q, r.gen, d.idx⟩, s.setRingX q { r with ready := ds, running := r.running ++ [⟨d, none⟩] })
    else none

/-- The next command of a COMMAND ring begins, when its opcode is `op`. (DEDUCED, log entry 66.) -/
def State.beginCommand (s : State) (q op : Nat) : Option (Desc × Token × State) :=
  match (s.ringX q).fetched with
  | [] => none
  | d :: _ => if bitsOf d.w0 0 8 = op then s.begin q 0 else none

/-- Sends the MSI-X message of a vector, or makes it pending while the vector or the function is masked (R309, R504); a function
whose MSI-X is not enabled sends none. (PRESUMED, log entry 18.) -/
def State.msix (s : State) (v : Nat) : State :=
  let e := unitAt (0, 0, 1) s.host.msixTable v
  if testBit s.host.pcie.msixCtl 1 = false then s
  else if e.2.2 % 2 = 1 ∨ testBit s.host.pcie.msixCtl 0 then
    if v ∈ s.host.msixPending then s
    else { s with host := { s.host with msixPending := s.host.msixPending ++ [v] } }
  else s.hostWrite (.msix v e.1 e.2.1)

/-- A pending vector sends its message once its masks have been cleared (R504). -/
def State.msixUnmask (s : State) (v : Nat) : State :=
  if v ∈ s.host.msixPending then
    ({ s with host := { s.host with msixPending := s.host.msixPending.filter fun n => decide (n ≠ v) } }).msix v
  else s

/-- The index write-back of RING[q], due once after the entries of a tick (R308). -/
def State.indexWriteBack (s : State) (q : Nat) : State :=
  let r := s.ringX q
  if r.wrote then
    let t := s.setRingX q { r with wrote := false }
    if s.bit F.ringIdxwbEn q then t.hostWrite (.hostWrite (s.get F.ringIdxwbAddress q * 8) [s.rd ⟨.ringIndex, q, 0⟩]) else t
  else s

/-- The end of a tick for RING[q]: its index write-back, then its MSI-X message; what a ring reset of the tick ended is written no
more (R305, R308, R309). -/
def State.ringTick (s : State) (q : Nat) : State :=
  let t := s.indexWriteBack q
  let t := if (t.ringX q).irqNow then (t.setRingX q { (t.ringX q) with irqNow := false }).msix (t.get F.ringCfgVector q) else t
  if (t.ringX q).ending then t.cutRing q else t

/-- The rings with something due at the end of a tick. -/
def State.ringsDue (s : State) : List Nat := (s.host.rings.filter (fun e => e.2.wrote || e.2.irqNow || e.2.ending)).map (·.1)

/-- Posts the DMA_ERROR records of failed record writes, each on the EVENT rings left (R306): at most `n` of them. -/
def State.reportFailed (s : State) : Nat → State
  | 0 => s
  | n + 1 =>
    match s.host.failed with
    | [] => s
    | q :: qs => (({ s with host := { s.host with failed := qs } }).post 0x0803 q 2).reportFailed n

/-- What the end of a tick does for the rings: failed writes are reported, barriers that a ring no longer holds complete, and each
ring's index write-back and interrupt follow (R306, R308, R320). -/
def State.endRings (s : State) : State :=
  let t := if s.host.failed = [] then s else (s.reportFailed 64).releaseBarriers
  t.ringsDue.foldl (fun u q => u.ringTick q) t

end Sys2Proof.Machine
end

