-- ==== Sys2Proof/Machine/OpsThread.lean ====
section
/-!
DEFINITION. OpsThread.lean: the operations over thread slots, event flags and ready lists that other blocks use
(R336 to R345, R349).
-/
namespace Sys2Proof.Machine

/-- What core `c` holds for the dispatcher. -/
def State.coreX (s : State) (c : Nat) : CoreX := unitAt {} s.disp.cores c

/-- Stores what core `c` holds. -/
def State.setCoreX (s : State) (c : Nat) (x : CoreX) : State :=
  { s with disp := { s.disp with cores := putUnit {} s.disp.cores c x } }

/-- A result reaches register `r` of a core; x0 discards it, 32 and up are f0 to f31 (R326). A written f register makes mstatus.FS dirty.
(PRESUMED, log entry 115.) -/
def CpuX.wx (u : CpuX) (r : Nat) (v : BitVec 32) : CpuX :=
  if r = 0 then u
  else if r < 32 then { u with x := putUnit 0 u.x r v }
  else { u with f := putUnit 0 u.f (r - 32) v, mstatus := u.mstatus ||| 0x6000 }

/-- The ready list of a level (R338). -/
def State.readyList (s : State) (l : Nat) : List Nat := unitAt [] s.disp.ready l

/-- Stores the ready list of a level. -/
def State.setReadyList (s : State) (l : Nat) (ts : List Nat) : State :=
  { s with disp := { s.disp with ready := putUnit [] s.disp.ready l ts } }

/-- Takes a thread out of the ready lists. -/
def State.unready (s : State) (j : Nat) : State :=
  { s with disp := { s.disp with ready := s.disp.ready.map fun e => (e.1, e.2.filter (fun t => t != j)) } }

/-- The thread becomes READY at the head or the tail of its level (R337, R338). -/
def State.makeReady (s : State) (j : Nat) (head : Bool) : State :=
  let l := s.get F.dispThrCfgPrio 0 j
  let u := s.unready j
  let ts := u.readyList l
  let t := (u.setReadyList l (if head then j :: ts else ts ++ [j])).set F.dispThrStateState 0 j 1
  { t with disp := { t.disp with
      readyAt := putUnit 0 t.disp.readyAt j t.ticks
      deadline := putUnit 0 t.disp.deadline j 0 } }

/-- The wait of THR[j] is satisfied (R342). -/
def State.satisfied (s : State) (j : Nat) : Bool :=
  let m := s.get F.dispThrCfgWaitmask 0 j
  let f := Nat.land (s.get F.dispThrStateFlags 0 j) m
  if m = 0 then false else if s.bit F.dispThrCfgWaitAll 0 j then decide (f = m) else decide (f ≠ 0)

/-- The effect number of the events that make a thread ready: they merge (R349). -/
def effReady : Nat := 1

/-- A set flag may make a WAITING thread ready (R342); in the tick of a make-ready or a timeout it is the flag that counts
(R349). -/
def State.wakeByFlags (s : State) (j : Nat) (rank : Nat) : State :=
  if s.satisfied j then
    if s.get F.dispThrStateState 0 j = 3 then
      s.onObj (.thread j) 4 rank effReady (fun t => t.makeReady j false)
    else if s.get F.dispThrStateState 0 j = 1 ∧ unitAt 0 s.disp.readyAt j = s.ticks
        ∧ (s.decider (.thread j)).isSome then
      (s.setBit F.dispThrStateForced 0 j false).setBit F.dispThrStateTimedout 0 j false
    else s
  else s

/-- Event flag `i` of THR[j] is set, unless a clear or a slot reset of this tick decides (R62, R349). -/
def State.setFlag (s : State) (j rank i : Nat) : State :=
  match s.decider (.thread j) with
  | some e =>
    if e.cls = 1 then s.superseded
    else s.onObj (.threadFlag j i) 4 rank 1 fun t =>
      t.set F.dispThrStateFlags 0 j (putBit (t.get F.dispThrStateFlags 0 j) i true)
  | none =>
    s.onObj (.threadFlag j i) 4 rank 1 fun t =>
      t.set F.dispThrStateFlags 0 j (putBit (t.get F.dispThrStateFlags 0 j) i true)

/-- Event flags are set in THR[j] by a source (R344), which may satisfy its wait. -/
def State.setFlags (s : State) (j mask : Nat) (src : Src) : State :=
  ((bitsBelow 32 mask).foldl (fun t i => t.setFlag j (srcRank src) i) s).wakeByFlags j (srcRank src)

/-! ### The mail inbox (R355) -/

/-- Writes bytes into the cores' memories. (DEDUCED, log entry 70.) -/
def State.putSramBytes (s : State) (a : Nat) : List Nat → State
  | [] => s
  | b :: bs => State.putSramBytes
      { s with disp := { s.disp with sram := Assoc.wr natLt memDefault s.disp.sram a (BitVec.ofNat 8 b) } } (a + 1) bs

/-- The word with number `w` (alias address ÷ 4) is none of those that hold the `n` bytes from alias address `a` on. -/
def outsideWords (a n w : Nat) : Bool := decide (w < a / 4) || decide ((a + n + 3) / 4 ≤ w)

/-- A core's reservation on a word of the `n` bytes from alias address `a` on is lost (R328). -/
def State.unreserve (s : State) (a n c : Nat) : State :=
  let x := s.coreX c
  match x.cpu.reserved with
  | some w => if outsideWords a n w then s else s.setCoreX c { x with cpu := { x.cpu with reserved := none } }
  | none => s

/-- A write into the cores' memories, by core `by_` or by the device: the words are correctable again (R456), and the other cores'
reservations on them are lost (R328). -/
def State.storeSram (s : State) (by_ : Option Nat) (a : Nat) (bytes : List Nat) : State :=
  let t := s.putSramBytes a bytes
  ((List.range 4).filter fun c => by_ ≠ some c).foldl (fun (v : State) c => v.unreserve a bytes.length c)
    { t with disp := { t.disp with badWords := t.disp.badWords.filter (outsideWords a bytes.length) } }

/-- A write of the device into the cores' memories (R332, R355). -/
def State.putSram (s : State) (a : Nat) (bytes : List Nat) : State := s.storeSram none a bytes

/-- A word of the `n` bytes from alias address `a` on is uncorrectable (R456). -/
def State.badSram (s : State) (a n : Nat) : Bool := s.disp.badWords.any fun w => decide (a < 4 * w + 4) && decide (4 * w < a + n)

/-- The `n` bytes of the cores' memories from alias address `a` on. -/
def State.sramBytes (s : State) (a : Nat) : Nat → List Nat
  | 0 => []
  | n + 1 => (Assoc.rd memDefault s.disp.sram a).toNat :: State.sramBytes s (a + 1) n

/-- Where shared SRAM begins (R327). -/
def sramBase : Nat := 0x20000000

/-- The inbox has room (R355). -/
def State.inboxRoom (s : State) : Bool :=
  decide ((s.get F.coreMailIdxProd + 1) % s.get F.coreMailboxEntries ≠ s.get F.coreMailIdxCons)

/-- Byte 3 of an entry: the originating chip, and how the mail came. -/
def Mail.origin (m : Mail) : Nat :=
  m.chip % 64 + (match m.source with | .link _ => 64 | .ring _ => 128 | .core _ => 0)

/-- The 64 bytes of an inbox entry. -/
def State.mailEntry (s : State) (m : Mail) : List Nat :=
  bytesOf (m.thread % 1024 + m.flag % 32 * 1024 + m.len % 256 * 2 ^ 16 + m.origin * 2 ^ 24) 4 ++ bytesOf s.stamp 12
    ++ (m.data ++ List.replicate 48 0).take 48

/-- Writes a mail into the inbox, which has room: the entry, PROD, then the event flag, in one tick (R355). -/
def State.inboxPut (s : State) (m : Mail) : State :=
  let p := s.get F.coreMailIdxProd
  let a := sramBase + (s.get F.coreMailboxBase + p) * 64
  let t := (s.putSram a (s.mailEntry m)).set F.coreMailIdxProd 0 0 ((p + 1) % s.get F.coreMailboxEntries)
  t.setFlags m.thread (2 ^ m.flag)
    (match m.source with | .link p => .oluel p | .ring t => .host t.ring | .core c => .core c)

end Sys2Proof.Machine
end

