-- ==== Sys2Proof/Machine/OpsLink.lean ====
section
/-!
DEFINITION. OpsLink.lean: the operations over Oluel ports and global flags that other blocks use: queues, credits, the
retry buffer, routing, broadcasts, and the training states (R273 to R294).
-/
namespace Sys2Proof.Machine

/-- What OLU[p] holds beside its registers. -/
def State.portX (s : State) (p : Nat) : PortX := unitAt {} s.olu.ports p

/-- Stores what OLU[p] holds. -/
def State.setPortX (s : State) (p : Nat) (x : PortX) : State :=
  { s with olu := { s.olu with ports := putUnit {} s.olu.ports p x } }

/-- The link of OLU[p] is ACTIVE (R273). -/
def State.linkActive (s : State) (p : Nat) : Bool := decide (s.get F.olupStatusState p = 5)

/-! ### The 64 bytes of a frame (R278, R279) -/

/-- The header word of a frame. -/
def frameHeader (f : Frame) : Nat :=
  f.cls % 16 + f.seq % 4096 * 2 ^ 4 + f.ackSeq % 4096 * 2 ^ 16 + f.ackValid.toNat * 2 ^ 28 + f.nak.toNat * 2 ^ 29
    + f.src % 64 * 2 ^ 30 + f.dst % 64 * 2 ^ 36 + f.bcast.toNat * 2 ^ 42 + f.ttl % 64 * 2 ^ 43 + f.creditClass % 8 * 2 ^ 49
    + f.credits % 256 * 2 ^ 52 + f.sub % 16 * 2 ^ 60

/-- The 52 bytes of the payload: those not listed are zero (R282). -/
def frameBody (f : Frame) : List Nat := ((f.payload.map (· % 256)) ++ List.replicate 52 0).take 52

/-- The 64 bytes of a frame: header, payload, CRC-32C. -/
def frameBytes (f : Frame) : List Nat :=
  let l := bytesOf (frameHeader f) 8 ++ frameBody f
  l ++ bytesOf (crc32 polyC l) 4

/-- The frame that 64 bytes hold, where their CRC is right. -/
def frameOf (raw : List Nat) : Option Frame :=
  let h := field raw 0 8
  let bit (n : Nat) : Bool := testBit h n
  let bits (lo w : Nat) : Nat := h / 2 ^ lo % 2 ^ w
  if raw.length = 64 ∧ field raw 60 4 = crc32 polyC (raw.take 60) then
    some { cls := bits 0 4, seq := bits 4 12, ackSeq := bits 16 12, ackValid := bit 28, nak := bit 29, src := bits 30 6,
           dst := bits 36 6, bcast := bit 42, ttl := bits 43 6, creditClass := bits 49 3, credits := bits 52 8, sub := bits 60 4,
           payload := ((raw.drop 8).take 52).map (· % 256) }
  else none

/-! ### Queues and credits (R280, R281) -/

/-- FLAG and TICK frames are express (R281). -/
def expressFrame (f : Frame) : Bool := f.cls == 1 || f.cls == 5

/-- The class has a credit left (R281). -/
def PortX.hasCredit (x : PortX) (f : Frame) : Bool :=
  if f.cls = 2 then decide (0 < x.creditRaise)
  else if f.cls = 3 then decide (0 < x.creditMail)
  else if f.cls = 4 then decide (0 < x.creditBulk)
  else true

/-- The port after a frame of class `c` has used a credit. -/
def PortX.useCredit (x : PortX) (c : Nat) : PortX :=
  if c = 2 then { x with creditRaise := x.creditRaise - 1 }
  else if c = 3 then { x with creditMail := x.creditMail - 1 }
  else if c = 4 then { x with creditBulk := x.creditBulk - 1 }
  else x

/-- `n` credits of class `c` come back from the partner, up to what it has granted (R278, R281). -/
def PortX.gainCredit (x : PortX) (c n : Nat) : PortX :=
  if c = 2 then { x with creditRaise := min 8 (x.creditRaise + n) }
  else if c = 3 then { x with creditMail := min 64 (x.creditMail + n) }
  else if c = 4 then { x with creditBulk := min 256 (x.creditBulk + n) }
  else x

/-- A buffer of class `c` has been freed here: its credit is owed to the partner (R281). -/
def PortX.oweCredit (x : PortX) (c : Nat) : PortX :=
  if c = 2 then { x with owedRaise := x.owedRaise + 1 }
  else if c = 3 then { x with owedMail := x.owedMail + 1 }
  else if c = 4 then { x with owedBulk := x.owedBulk + 1 }
  else x

/-- The class whose credits the next header returns, and how many (R278): one class a frame, at most 255. -/
def PortX.creditReturn (x : PortX) : Nat × Nat :=
  if x.owedRaise ≠ 0 then (2, min 255 x.owedRaise)
  else if x.owedMail ≠ 0 then (3, min 255 x.owedMail)
  else if x.owedBulk ≠ 0 then (4, min 255 x.owedBulk)
  else (0, 0)

/-- The port after a header has returned its credits and its acknowledgement. -/
def PortX.returned (x : PortX) : PortX :=
  let (c, n) := x.creditReturn
  { x with
    owedRaise := if c = 2 then x.owedRaise - n else x.owedRaise
    owedMail := if c = 3 then x.owedMail - n else x.owedMail
    owedBulk := if c = 4 then x.owedBulk - n else x.owedBulk
    ackOwed := none }

/-- A frame with the acknowledgement and credit fields that the port puts into every header (R278, R280). -/
def PortX.header (x : PortX) (f : Frame) (nak : Bool) : Frame :=
  { f with ackSeq := (x.rxExpect + 4095) % 4096, ackValid := x.rxAny, nak := nak,
           creditClass := x.creditReturn.1, credits := x.creditReturn.2 }

/-- A frame of the retry buffer as it is sent again: with the present acknowledgement, and the credits that it returned the first time
(R280, R281). (DEDUCED, log entry 114.) -/
def PortX.restamp (x : PortX) (f : Frame) : Frame := { f with ackSeq := (x.rxExpect + 4095) % 4096, ackValid := x.rxAny }

/-- Counts `n` discarded frames of a port. -/
def State.discardFrames (s : State) (p n : Nat) : State :=
  s.count F.olupErrStatDiscarded F.olupErrStatDiscardSaturated p 0 n

/-- Hands a frame to a port. A port that is DISABLED or in CONFLICT carries no express frame: it is discarded and counted
(R277); a credited frame waits. (DEDUCED, log entry 61.) -/
def State.enqueue (s : State) (p : Nat) (f : Frame) (tok : Option Token) : State :=
  if expressFrame f ∧ (s.get F.olupStatusState p = 0 ∨ s.get F.olupStatusState p = 7) then s.discardFrames p 1
  else s.setPortX p { (s.portX p) with queue := (s.portX p).queue ++ [(f, tok)] }

/-- Sends a frame on every port of a 4-bit mask. -/
def State.enqueueMask (s : State) (mask : Nat) (f : Frame) : State :=
  (bitsBelow 4 mask).foldl (fun t p => t.enqueue p f none) s

/-- A broadcast that this chip originates (R289). -/
def State.originate (s : State) (cls sub : Nat) (payload : List Nat) : State :=
  s.enqueueMask (s.get F.oluBcastOrig)
    { cls := cls, sub := sub, bcast := true, src := s.get F.oluChipId, ttl := s.get F.oluBcastTtl, payload := payload }

/-- The port that OLU.ROUTE names for a chip (R289). -/
def State.route (s : State) (chip : Nat) : Option Nat :=
  let r := s.get F.oluRouteRoute 0 (chip / 16) / 16 ^ (chip % 16) % 16
  if testBit r 2 then some (r % 4) else none

/-- A unicast frame that this chip originates for `chip`, on port `p`. -/
def State.unicast (s : State) (p chip cls sub : Nat) (payload : List Nat) (tok : Option Token) : State :=
  s.enqueue p
    { cls := cls, sub := sub, dst := chip, src := s.get F.oluChipId, ttl := s.get F.oluBcastTtl, payload := payload } tok

/-- Forwards a broadcast that arrived on port `p` (R289): FWD without the arrival port, TTL lowered by one. -/
def State.forwardBcast (s : State) (p : Nat) (f : Frame) : State :=
  let mask := (bitsBelow 4 (s.get F.oluBcastFwd / 16 ^ p % 16)).filter (fun q => q != p)
  if mask = [] then s
  else if f.ttl ≤ 1 then s.discardFrames p 1
  else mask.foldl (fun t q => t.enqueue q { f with ttl := f.ttl - 1 } none) s

/-! ### FLAG entries (R283) -/

/-- A FLAG entry of TYPE 0 to 2. -/
def flagEntry (ty i : Nat) : Nat := ty + i % 64 * 4

/-- A barrier arrival entry. -/
def barrierEntry (seq bar gen : Nat) : Nat := 3 + seq % 4 * 256 + bar % 8 * 1024 + gen % 16 * 8192

/-- An operation of this device is carried in the FLAG frames of its tick; operations that merge are one entry (R283). -/
def State.broadcastOp (s : State) (e : Nat) : State :=
  if e ∈ s.olu.flagOut then s else { s with olu := { s.olu with flagOut := s.olu.flagOut ++ [e] } }

/-- Splits a list into pieces of 12; `n` bounds the number of pieces. -/
def pieces : Nat → List Nat → List (List Nat)
  | 0, _ => []
  | n + 1, l => if l = [] then [] else l.take 12 :: pieces n (l.drop 12)

/-- The payload of a FLAG frame. -/
def flagPayload (es : List Nat) : List Nat :=
  es.length :: 0 :: 0 :: 0 :: (es.flatMap fun e => bytesOf e 4)

/-- Sends the FLAG frames of the tick that ends (R283). -/
def State.sendFlags (s : State) : State :=
  let es := s.olu.flagOut
  (pieces (es.length + 1) es).foldl (fun t g => t.originate 1 0 (flagPayload g))
    { s with olu := { s.olu with flagOut := [] } }

/-- A set or clear of GF[i] is sampled (R284): it acts on this device's copy under R56 and R57, and what comes from this
device is broadcast whether or not it is discarded here. -/
def State.gfOp (s : State) (i : Nat) (set : Bool) (src : Src) (forward : Bool) : State :=
  let t := if forward then s.broadcastOp (flagEntry (if set then 0 else 1) i) else s
  t.onObj (.gf i) (if set then 4 else 3) (srcRank src) 1 fun u =>
    u.set F.oluGflagsGf 0 0 (putBit (u.get F.oluGflagsGf) i set)

/-- A peer-domain flag reset: class 1 for all 64 flags (R284). -/
def State.gfResetOp (s : State) (src : Src) (forward : Bool) : State :=
  let t := if forward then s.broadcastOp (flagEntry 2 0) else s
  (List.range 64).foldl (fun u i => u.note ⟨.gf i, 1, srcRank src, 1⟩) (t.set F.oluGflagsGf 0 0 0)

/-! ### The link -/

/-- Distance from `a` up to `b` modulo 4,096. -/
def seqDist (a b : Nat) : Nat := (b + 4096 - a % 4096) % 4096

/-- The tokens of MAIL frames that an acknowledgement of `k` frames ends with OK (R322). -/
def State.ackFrames (s : State) (p k : Nat) : State :=
  let x := s.portX p
  let gone := x.retry.take k
  let rest := x.retry.drop k
  let t := s.setPortX p { x with
    retry := rest
    again := min x.again rest.length
    resends := if k = 0 then x.resends else 0
    ackTick := if k = 0 then x.ackTick else s.ticks }
  gone.foldl (fun u e => match e.2 with | some tok => u.completeSame tok 0 | none => u) t

/-- How many frames of the retry buffer ACKSEQ acknowledges. -/
def ackCount (ack : Nat) (l : List (Frame × Option Token)) : Nat :=
  match l with
  | [] => 0
  | e :: _ => if seqDist e.1.seq ack < l.length then seqDist e.1.seq ack + 1 else 0

/-- A port reports a link-up or a link-down of this tick (R274, R276, R277). -/
def State.report (s : State) (p code detail : Nat) : State :=
  s.setPortX p { (s.portX p) with reports := (s.portX p).reports ++ [(code, detail)] }

/-- The reports of the tick are posted; those of a port that it has disabled are gone (R277). -/
def State.linkReports (s : State) : State :=
  (List.range 4).foldl (fun (t : State) p =>
    (t.portX p).reports.foldl (fun (u : State) e => u.post e.1 p e.2) (t.setPortX p { (t.portX p) with reports := [] })) s

/-- An ACTIVE link goes down (R276): the port begins attempt 1 at once and keeps its retry buffer. -/
def State.linkDown (s : State) (p : Nat) : State :=
  let t := ((s.hwSet F.olupStatusLinkDownSeen p 0).count F.olupErrStatRetrains F.olupErrStatRetrainSaturated p 0 1).report
    p 0x0702 0
  let u := (((t.set F.olupStatusState p 0 1).set F.olupStatusAttempts p 0 0).set F.olupStatusTxAsleep p 0 0).set
    F.olupStatusRxAsleep p 0 0
  u.setPortX p { (u.portX p) with
    attemptStart := u.ticks, aligned := false, resends := 0, again := 0, nakSent := false, nakOwed := false, linkOwed := false }

/-- Every unacknowledged frame is to be resent in order; where sixteen resends have not advanced ACKSEQ, the link goes down instead
(R280). -/
def State.resend (s : State) (p : Nat) : State :=
  let x := s.portX p
  if 16 ≤ x.resends then s.linkDown p
  else s.setPortX p { x with resends := x.resends + 1, again := x.retry.length, ackTick := s.ticks }

/-- The acknowledgement and NAK of an arriving header (R278, R280). -/
def State.rxHeader (s : State) (p : Nat) (f : Frame) : State :=
  let t := if f.ackValid then s.ackFrames p (ackCount f.ackSeq (s.portX p).retry) else s
  if f.nak ∧ (t.portX p).retry ≠ [] then t.resend p else t

/-- A frame fails its CRC: it is discarded with its header, and one NAK is owed until the expected frame arrives (R279, R280). -/
def State.badFrame (s : State) (p : Nat) : State :=
  let t := s.count F.olupErrStatCrcErr F.olupErrStatCrcSaturated p 0 1
  let x := t.portX p
  if x.nakSent then t else t.setPortX p { x with nakSent := true, nakOwed := true }

/-- A frame arrives on an ACTIVE port, its 64 bytes read (R278 to R280): the frame where it is accepted in sequence, and the state.
The credits of a header count where its frame is accepted, and in a LINK frame (R281). (DEDUCED, log entry 114.) -/
def State.rxFrame (s : State) (p : Nat) (raw : List Nat) : Option Frame × State :=
  if s.linkActive p then
    match frameOf raw with
    | none => (none, s.badFrame p)
    | some f =>
      let t := s.rxHeader p f
      let x := t.portX p
      let y := x.gainCredit f.creditClass f.credits
      if f.cls = 0 then (none, t.setPortX p y)
      else if 6 ≤ f.cls then (none, t)
      else if f.seq = x.rxExpect then
        (some f, t.setPortX p { y with
          rxExpect := (x.rxExpect + 1) % 4096, rxAny := true, nakSent := false, ackOwed := some (x.ackOwed.getD t.ticks) })
      else if seqDist f.seq x.rxExpect ≤ 2048 then
        (none, t.setPortX p { x with ackOwed := some (x.ackOwed.getD t.ticks) })
      else if x.nakSent then (none, t)
      else (none, t.setPortX p { x with nakSent := true, nakOwed := true })
  else (none, s)

/-- A frame of a credited class has been consumed: its buffer is freed (R281). -/
def State.freeBuffer (s : State) (p c : Nat) : State := s.setPortX p ((s.portX p).oweCredit c)

/-! ### BULK transfers (R288) -/

/-- The frame is a START or a DATA of channel `i` to `chip`. -/
def bulkFrame (chip i : Nat) (f : Frame) : Bool :=
  f.cls == 4 && f.dst == chip && (f.sub == 0 || f.sub == 1) && field f.payload 0 1 % 4 == i

/-- Ends the originator's transfer on channel `i`: none of its frames is left to send. -/
def State.bulkEnd (s : State) (i st : Nat) : State :=
  let t := (s.olu.bulkTx.filter fun b => b.chan == i).foldl (fun (u : State) b =>
    u.setPortX b.port { (u.portX b.port) with queue := (u.portX b.port).queue.filter fun e => !bulkFrame b.chip i e.1 }) s
  let u := { t with olu := { t.olu with bulkTx := t.olu.bulkTx.filter fun b => b.chan != i } }
  (((u.set F.oluBulkCtrlBusy 0 i 0).set F.oluBulkCtrlStatus 0 i st).hwSet F.oluBulkCtrlDone 0 i).post 0x0706 i st

/-- Returns a BULK DONE to the originator (R282, R288). -/
def State.bulkReply (s : State) (chip tag st written : Nat) : State :=
  match s.route chip with
  | some p => s.unicast p chip 4 2 (tag :: st :: 0 :: 0 :: bytesOf written 4) none
  | none => s

/-- A port has left ACTIVE without a successful retrain: transfers through it end with ABORTED on both devices (R288). -/
def State.bulkAbort (s : State) (p : Nat) : State :=
  let t := (s.olu.bulkTx.filter fun b => b.port == p).foldl (fun (u : State) b => u.bulkEnd b.chan 3) s
  let gone := t.olu.bulkRx.filter fun b => b.port == p
  gone.foldl (fun (u : State) b => u.bulkReply b.chip b.tag 3 (48 * b.next))
    { t with olu := { t.olu with bulkRx := t.olu.bulkRx.filter fun b => b.port != p } }

/-- Discards and counts what a port holds to send (R276, R277). -/
def State.dropBuffers (s : State) (p : Nat) (queueToo : Bool) : State :=
  let x := s.portX p
  let n := x.retry.length + (if queueToo then x.queue.length else 0)
  (if n = 0 then s else s.discardFrames p n).setPortX p
    { x with retry := [], again := 0, queue := if queueToo then [] else x.queue }

end Sys2Proof.Machine
end

