-- ==== Sys2Proof/Machine/OpsReg.lean ====
section
/-!
DEFINITION. OpsReg.lean: what a write stores in the fields of a register (R12 to R17).
-/
namespace Sys2Proof.Machine

/-- Applies `f` to each of the first `n` 4-bit fields of `v`. -/
def mapNibbles (f : Nat → Nat) : Nat → Nat → Nat
  | 0, _ => 0
  | n + 1, v => f (v % 16) + 16 * mapNibbles f n (v / 16)

/-- The value that a written value `v` of a `w`-bit field stores (R16, R17). -/
def Clamp.apply (c : Clamp) (w v : Nat) : Nat :=
  match c with
  | .any => v
  | .range lo hi => max lo (min v hi)
  | .srange lo hi => unsigned w (max (-(lo : Int)) (min (signed w v) hi))
  | .above m fallback => if m < v then fallback else v
  | .align n => v / 2 ^ n * 2 ^ n
  | .rangeAlign lo hi n => max lo (min v hi) / 2 ^ n * 2 ^ n
  | .zeroTo d => if v = 0 then d else v
  | .nibbles => mapNibbles (fun e => if 11 < e then 0 else e) 6 v
  | .routes => mapNibbles (fun e => e % 8) 16 v

/-- One field of a written word, from host software (`host`) or from a core (R12). -/
def FieldDesc.store (f : FieldDesc) (host : Bool) (data v : Word) : Word :=
  let d := bitsOf data f.lo f.width
  match f.access with
  | .rw => withBits v f.lo f.width (f.clamp.apply f.width d)
  | .rwHost => if host then withBits v f.lo f.width (f.clamp.apply f.width d) else v
  | .rs => v
  | .ro => v
  | .wo => v
  | .w1c => v

/-- The word that a register holds after a write, action bits and W1C bits apart. -/
def storeFields (host : Bool) (data : Word) (fs : List FieldDesc) (old : Word) : Word :=
  fs.foldl (fun v f => f.store host data v) old

/-- Stores the writable fields of a register. -/
def State.storeRw (s : State) (k : RegKey) (host : Bool) (data : Word) : State :=
  s.wr k (storeFields host data k.name.desc.fields (s.rd k))

end Sys2Proof.Machine
end

