-- ==== Sys2Proof/Machine/OpsChan.lean ====
section
/-!
DEFINITION. OpsChan.lean: sequencers, bays, sites and channels as records reach them: the timing store, the placing and
queueing of events, the linearity correction, and the DUT clock generators (R20 to R24, R63 to R66, R114, R122 to R149,
R218, R219).
-/
namespace Sys2Proof.Machine

/-! ### Access -/

/-- A sequencer beside its registers. -/
def State.seqX (s : State) (q : Nat) : SeqX := unitAt {} s.seqs q

/-- Stores a sequencer. -/
def State.setSeqX (s : State) (q : Nat) (x : SeqX) : State := { s with seqs := putUnit {} s.seqs q x }

/-- A channel. -/
def State.chan (s : State) (c : Nat) : ChanX := unitAt {} s.chans c

/-- Stores a channel. -/
def State.setChan (s : State) (c : Nat) (x : ChanX) : State := { s with chans := putUnit {} s.chans c x }

/-- SEQ[q].STATUS.STATE: 0 STOPPED, 1 RUNNING, 2 HOLDING, 3 STALLED, 4 PAUSED. -/
def State.seqState (s : State) (q : Nat) : Nat := s.get F.seqStatusState q

/-- STATE is written; what it was at the start of the tick is kept (R506). (DEDUCED, log entry 10.) -/
def State.setSeqState (s : State) (q v : Nat) : State :=
  s.set F.seqStatusState q 0 v

/-- STATE as it stood before the present tick (R26, R62, R220, R506). -/
def State.seqBefore (s : State) (q : Nat) : Nat := s.before F.seqStatusState q

/-- The present boundary in fu since reset: one event tick is 8 ct of 1,024 fu. -/
def State.nowFu (s : State) : Nat := s.ticks * 8192

/-- The first boundary at or after an instant, as a tick. -/
def tickAt (fu : Nat) : Nat := (fu + 8191) / 8192

/-- Actions of a record reach the bays, flags and barriers at the first boundary at or after the instant `c` (R55, R105). -/
def State.defer (s : State) (q c : Nat) (l : List SeqAct) : State :=
  let x := s.seqX q
  s.setSeqX q { x with due := x.due ++ l.map fun a => (c, a) }

/-- The first core-tick boundary at or after an instant, in fu. -/
def ceilCt (fu : Nat) : Nat := (fu + 1023) / 1024 * 1024

/-- The sequencer a bay is assigned to (R21, R25). -/
def State.bayOf (s : State) (b : Nat) : Option Nat :=
  if testBit (s.get F.globalBaymapAssigned) b then some (s.get F.globalBaymapSeqsel / 4 ^ b % 4) else none

/-- The bays assigned to a sequencer. -/
def State.baysOf (s : State) (q : Nat) : List Nat := (List.range 8).filter (fun b => decide (s.bayOf b = some q))

/-- The bay is calibrating or in bay reset (R26, R28). -/
def State.bayBusy (s : State) (b : Nat) : Bool :=
  testBit (s.get F.calStatusBusy) b || s.bayResetting b

/-- The bay was calibrating or in bay reset before the present tick (R26). -/
def State.bayBusyBefore (s : State) (b : Nat) : Bool :=
  testBit (s.before F.calStatusBusy) b || testBit (s.before F.rasStatusBayResetting) b

/-- The round-trip delay of a bay, ct (R30). -/
def State.rtd (s : State) (b : Nat) : Nat := s.get F.bayCalBayRtd b

/-! ### Records (R63, R64) -/

/-- Vectors in a record of mode `m`. -/
def vectors (m : Nat) : Nat := if m = 1 then 2 else if m = 2 then 4 else 1

/-- Bits of a code in mode `m`. -/
def codeBits (m : Nat) : Nat := if m = 2 then 2 else 4

/-- Pattern width N of a WIDTH field. -/
def patternWidth (w : Nat) : Nat := 8 * 2 ^ w

/-- Words of a record. -/
def recordWords (m w : Nat) : Nat := 1 + (vectors m * patternWidth w * codeBits m + 63) / 64

/-- The code of pattern pin `p` for vector `v`. -/
def codeOf (m w : Nat) (words : List Nat) (v p : Nat) : Nat :=
  let i := v * patternWidth w + p
  let per := 64 / codeBits m
  words.getD (1 + i / per) 0 / 2 ^ (codeBits m * (i % per)) % 2 ^ codeBits m

/-- The slots a vector uses (R129). -/
def slotsUsed (m : Nat) : Nat := if m = 1 then 3 else if m = 2 then 2 else 6

/-! ### Sites (R218, R219, R223) -/

/-- The map of a site in one of the two copies. -/
def State.siteMap (s : State) (k : Nat) : SiteMap := unitAt {} s.site.active k

/-- The PINMAP field of pattern pin `p`. -/
def SiteMap.pin (m : SiteMap) (p : Nat) : Nat := unitAt 0 m.pins (p / 8) / 256 ^ (p % 8) % 256

/-- The channel that a site maps a pattern pin to. -/
def SiteMap.chan (m : SiteMap) (p : Nat) : Option Nat := if testBit (m.pin p) 7 then some (m.pin p % 128) else none

/-- The mapped pins below `n`, with their channels. -/
def SiteMap.mapped (m : SiteMap) (n : Nat) : List (Nat × Nat) :=
  (List.range n).filterMap fun p => (m.chan p).map fun c => (p, c)

/-- The sites of a sequencer. -/
def State.sitesOf (s : State) (q : Nat) : List Nat :=
  (List.range 32).filter fun k => decide ((s.siteMap k).seq = q)

/-- The site counts as enabled: ACTIVE or STOPPED (R225). -/
def State.siteEnabled (s : State) (k : Nat) : Bool :=
  decide (s.get F.sitekStatusState k = 1) || decide (s.get F.sitekStatusState k = 2)

/-- The run of a site that has not been replaced by a later start. -/
def State.siteRun (s : State) (k : Nat) : Option SiteRun :=
  s.site.runs.find? fun r => decide (r.site = k) && !r.old

/-- Changes the present run of a site. -/
def State.modSiteRun (s : State) (k : Nat) (f : SiteRun → SiteRun) : State :=
  { s with site := { s.site with runs := s.site.runs.map fun r => if r.site = k ∧ r.old = false then f r else r } }

/-- A vector that starts at `c` and has cycle count `n` lies before what bounds the run of a site (R180, R228, R229). -/
def SiteRun.within (r : SiteRun) (c n : Nat) : Bool :=
  (match r.bound with
    | some b => decide (c < b)
    | none => true) &&
  match r.boundCycle with
  | some m => decide (n < m)
  | none => true

/-- A vector that starts at `c` and has cycle count `n` is issued to site `k` (R180, R228, R229). -/
def State.reaches (s : State) (k c n : Nat) : Bool :=
  match s.siteRun k with
  | some r => r.within c n
  | none => false

/-- The routed pins of a site: below N, in a bay of the sequencer that is in service (R219, R223, R462). -/
def State.routed (s : State) (q k : Nat) : List (Nat × Nat) :=
  ((s.siteMap k).mapped (patternWidth (s.get F.seqCtrlWidth q))).filter fun e =>
    decide (s.bayOf (e.2 / 16) = some q) && !s.ras.out.contains (e.2 / 16)

/-- The channels that the sites of a sequencer run. -/
def State.channelsOf (s : State) (q : Nat) : List Nat :=
  (((s.sitesOf q).filter s.siteEnabled).flatMap fun k => (s.routed q k).map (·.2)).eraseDups

/-! ### The timing store (R122 to R127) -/

/-- The timing store of a sequencer. -/
def State.store (s : State) (q : Nat) : TsStore := unitAt {} s.stores q

/-- Stores a timing store. -/
def State.setStore (s : State) (q : Nat) (t : TsStore) : State := { s with stores := putUnit {} s.stores q t }

/-- Timing set `t` of the active copy. -/
def State.tset (s : State) (q t : Nat) : TSet := unitAt {} (s.store q).active t

/-- Least period of a mode in the device's grade (R127): grade 0x02 is the -32 grade. -/
def minPeriod (m : Nat) : Nat :=
  (if Config.gradeCode % 2 = 1 then 1536 else 1024) / (if m = 1 then 2 else if m = 2 then 4 else 1)

/-- A period clamped to its range (R127). -/
def clampPeriod (m p : Nat) : Nat := max (minPeriod m) (min p 4398046510080)

/-- A timing set clamped under R125. -/
def TSet.clamp (t : TSet) (m : Nat) : TSet :=
  let p := clampPeriod m t.period
  { t with period := p, edges := t.edges.map fun e => (e.1, min e.2 (4 * p - 1)) }

/-- A write of the staging copy (R123): the set becomes dirty. -/
def State.stage (s : State) (q t : Nat) (f : TSet → TSet) : State :=
  let st := s.store q
  (s.setStore q { st with staging := putUnit {} st.staging t (f (unitAt {} st.staging t)) }).set F.seqTsDirtyDirty q 0
    (putBit (s.get F.seqTsDirtyDirty q) t true)

/-- A write of TS_PERIOD[t] (R123). -/
def State.stagePeriod (s : State) (q t v : Nat) : State := s.stage q t fun x => { x with period := v % 2 ^ 42 }

/-- A write of TS_EDGE[i] for channel `c` of TSET[t]. -/
def State.stageEdge (s : State) (q t c i v : Nat) : State :=
  s.stage q t fun x => { x with edges := putUnit 0 x.edges (8 * c + i) (v % 2 ^ 44) }

/-- A write of TS_WAVE[i] for channel `c` of TSET[t]: a reserved event stores NONE (R128). -/
def State.stageWave (s : State) (q t c i v : Nat) : State :=
  s.stage q t fun x => { x with waves := putUnit 0 x.waves (16 * c + i) (Clamp.nibbles.apply 24 v) }

/-- One dirty set is transferred (R123, R125). -/
def State.transfer (s : State) (q t : Nat) : State :=
  let st := s.store q
  let old := unitAt {} st.staging t
  let new := old.clamp (s.get F.seqCtrlMode q)
  let u := s.setStore q { st with staging := putUnit {} st.staging t new, active := putUnit {} st.active t new }
  if new = old then u else u.hwSet F.seqTsCtrlClamped q 0

/-- A table commit is applied (R123, R147). -/
def State.applyCommit (s : State) (q : Nat) : State :=
  (((List.range 64).filter (testBit (s.get F.seqTsDirtyDirty q))).foldl (fun u t => u.transfer q t) s).set
    F.seqTsDirtyDirty q 0 0

/-- Timing set `t` for a vector that starts at `at_`: behind a peg point that is to apply a table commit, a dirty set as it is
staged now; the commit transfers what is staged when it is applied (R116, R123, R124). -/
def State.tsetAt (s : State) (q t at_ : Nat) : TSet :=
  if ((s.seqX q).pegs.any fun e => decide (e.1 ≤ at_)) && testBit (s.get F.seqTsDirtyDirty q) t then
    (unitAt {} (s.store q).staging t).clamp (s.get F.seqCtrlMode q)
  else s.tset q t

/-- The clamps of an accepted start on one timing set (R126). -/
def State.clampSet (s : State) (q t : Nat) : State :=
  let st := s.store q
  let old := unitAt {} st.active t
  let new := old.clamp (s.get F.seqCtrlMode q)
  if new = old then s
  else
    let keep := testBit (s.get F.seqTsDirtyDirty q) t
    (s.setStore q { st with
      staging := if keep then st.staging else putUnit {} st.staging t new
      active := putUnit {} st.active t new }).hwSet F.seqTsCtrlClamped q 0

/-- The clamps of an accepted start (R126). -/
def State.clampAll (s : State) (q : Nat) : State := (List.range 64).foldl (fun u t => u.clampSet q t) s

/-- Offset of a slot of a channel. -/
def TSet.offset (t : TSet) (c slot : Nat) : Nat := unitAt 0 t.edges (8 * c + slot)

/-- Nano-word of a waveform entry of a channel. -/
def TSet.nano (t : TSet) (c entry : Nat) : Nat := unitAt 0 t.waves (16 * c + entry)

/-! ### Placing an event (R130, R141) -/

/-- Linearity point `k` (0 to 15; 16 is point 0) of a path (0 DRV, 1 DEN, 2 CMPH, 3 CMPL) of a channel. -/
def State.linPoint (s : State) (c path k : Nat) : Int :=
  let m := k % 16
  signed 8 (s.get F.bayFdlinPoints (c / 16) (c % 16 * 8 + path * 2 + m / 8) / 256 ^ (m % 8))

/-- The correction c(f) of a fine-delay code. -/
def State.linCorr (s : State) (c path f : Nat) : Int :=
  let a := s.linPoint c path (f / 64)
  let b := s.linPoint c path (f / 64 + 1)
  (64 * a + (b - a) * (f % 64 : Nat) + 32) / 64

/-- The tap position of a path time: a tap below 0 or above 1,023 moves to the neighbouring core tick. -/
def State.tapOf (s : State) (c path t : Nat) : Nat := ((t : Int) + s.linCorr c path (t % 1024)).toNat

/-- DESKEW of a channel for the events of a vector, or a park transition, at the instant `at_` (R148): a write sampled at boundary
j applies from 64 ct after j on. -/
def State.deskewWord (s : State) (c at_ : Nat) : Word :=
  match (s.chan c).deskews.find? fun e => decide (at_ < e.1 * 8192 + 65536) with
  | some e => e.2
  | none => s.rd ⟨.bayDeskew, c / 16, c % 16⟩

/-- The deskew of a path (0 DRV, 1 DEN, 2 CMPH, 3 CMPL) of a channel at an instant (R148). -/
def State.deskew (s : State) (c path at_ : Nat) : Nat := bitsOf (s.deskewWord c at_) (16 * path) 13

/-- The DESKEW of a channel is about to be written: its value is kept for what lies less than 64 ct after this boundary (R148). -/
def State.keepDeskew (s : State) (c : Nat) : State :=
  let x := s.chan c
  s.setChan c { x with deskews := (x.deskews.filter fun e => decide (s.ticks < e.1 + 16)) ++
    [(s.ticks, s.rd ⟨.bayDeskew, c / 16, c % 16⟩)] }

/-- A drive event (R128). -/
def isDrive (code : Nat) : Bool := decide (1 ≤ code ∧ code ≤ 3)

/-- A compare event. -/
def isCompare (code : Nat) : Bool := decide (4 ≤ code ∧ code ≤ 11)

/-- An event of channel `c` at nominal time `t`, of a vector that starts at `start`. -/
def State.mkEv (s : State) (c start t slot code site : Nat) (active : Bool) (v : VecInfo) : Ev :=
  let pa := if isDrive code then 0 else 2
  let ta := t + s.deskew c pa start
  let tb := t + s.deskew c (pa + 1) start
  { time := t, slot := slot, code := code, site := site, active := active, pathA := ta, pathB := tb,
    fineA := s.tapOf c pa ta, fineB := s.tapOf c (pa + 1) tb, rtd := s.rtd (c / 16), vec := v }

/-- Puts an event behind every event that is not later (R137). -/
def insertEv (e : Ev) : List Ev → List Ev
  | [] => [e]
  | x :: xs => if x.time ≤ e.time then x :: insertEv e xs else e :: x :: xs

/-- Events pending at an instant: those whose nominal time lies after it (R135). -/
def pendingAt (at_ : Nat) (l : List Ev) : Nat := (l.filter fun e => decide (at_ < e.time)).length

/-- Changes one pass of a match block of a sequencer. -/
def State.modPass (s : State) (q blk n : Nat) (f : Pass → Pass) : State :=
  let x := s.seqX q
  s.setSeqX q { x with blocks := x.blocks.map fun b =>
    if b.id = blk then { b with passes := b.passes.map fun p => if p.n = n then f p else p } else b }

/-- An event enters the queue of its channel at the cycle start of its vector, unless 24 are pending (R135).
(DEDUCED, log entry 36.) -/
def State.enter (s : State) (c start : Nat) (e : Ev) : State :=
  let x := s.chan c
  if 24 ≤ pendingAt start x.queue then
    s.count F.bayEdgeStatQueueOverflow F.bayEdgeStatOverflowSaturated (c / 16) (c % 16) 1
  else s.setChan c { x with queue := insertEv e x.queue, lastEv := max x.lastEv e.time }

/-- The events of one vector for one channel, in order of nominal time, ties in slot order. -/
def slotOrder (l : List (Nat × Nat × Nat)) : List (Nat × Nat × Nat) :=
  l.foldl (fun acc e => (acc.filter fun x => decide (x.1 ≤ e.1)) ++ [e] ++ (acc.filter fun x => decide (e.1 < x.1))) []

/-- The compare of pattern pin `p` on channel `c` is masked by MASK[MASKSEL] or by STATIC_MASK, as they stood at the decode of the
record (R159, R160). -/
def PlanVec.masked (v : PlanVec) (p c : Nat) : Bool := testBit v.mask p || testBit (v.static.getD (c / 16) 0) (c % 16)

/-- The time, slot and code of each event of a vector for pattern pin `p` on channel `c` (R131, R133). In a later hold repetition
compare events are suppressed (R98). -/
def State.vectorEvents (s : State) (q p c : Nat) (v : PlanVec) : List (Nat × Nat × Nat) :=
  let ts := s.tsetAt q v.tset v.start
  let m := s.get F.seqCtrlMode q
  let nano := ts.nano c (codeOf m (s.get F.seqCtrlWidth q) v.words v.vi p)
  slotOrder ((List.range (slotsUsed m)).filterMap fun i =>
    let e := nano / 16 ^ i % 16
    if e = 0 ∨ 11 < e ∨ (v.later ∧ isCompare e) then none else some (v.start + ts.offset c i, i, e))

/-- The events of a vector: its copies on the sites that it is issued to, each with its channel (R219). -/
def State.vectorEvs (s : State) (q : Nat) (v : PlanVec) : List (Nat × Ev) :=
  ((s.sitesOf q).filter fun k => s.reaches k v.start v.vec.cycle).flatMap fun k =>
    (s.routed q k).flatMap fun e =>
      (s.vectorEvents q e.1 e.2 v).map fun x =>
        (e.2, s.mkEv e.2 v.start x.1 x.2.1 x.2.2 k (decide (x.2.2 ≠ 7) && !v.masked e.1 e.2) v.vec)

/-- One vector is issued to every channel its codes are delivered to (R133, R135, R219). -/
def State.issueVector (s : State) (q : Nat) (v : PlanVec) : State :=
  (s.vectorEvs q v).foldl (fun u e => u.enter e.1 v.start e.2) s

/-! ### Applying events and park states (R112, R114, R137, R138) -/

/-- The levels of a channel become `drv` and `den`; only a change is a transition. -/
def State.driveTo (s : State) (c : Nat) (drv den : Bool) (atDrv atDen : Nat) : State :=
  let x := s.chan c
  let t := s.setChan c { x with drv := drv, den := den }
  let u := if x.drv = drv then t else t.emit (.edge c 0 atDrv drv)
  if x.den = den then u else u.emit (.edge c 1 atDen den)

/-- A drive event takes effect (R128). -/
def State.applyDrive (s : State) (c : Nat) (e : Ev) : State :=
  let x := s.chan c
  if e.code = 3 then s.driveTo c x.drv false e.fineA e.fineB
  else s.driveTo c (decide (e.code = 2)) true e.fineA e.fineB

/-- The kerf (R138): another drive event lies at or after `e` and less than 128 fu after it. (DEDUCED, log entry 44.) -/
def kerfHit (e : Ev) (rest : List Ev) : Bool := rest.any fun x => isDrive x.code && decide (x.time < e.time + 128)

/-- A window that is open when its channel parks is abandoned (R158). -/
def State.abandonWindow (s : State) (c : Nat) : State :=
  let x := s.chan c
  match x.win with
  | none => s
  | some _ =>
    (s.setChan c { x with win := none }).count F.bayCmpStatWindowOrphan F.bayCmpStatOrphanSaturated (c / 16) 0 1

/-- A channel takes the levels of its park state, its transitions at nominal time `t` (R112, R114). -/
def State.parkLevels (s : State) (c t : Nat) : State :=
  let x := s.chan c
  let st := s.get F.bayParkState (c / 16) / 4 ^ (c % 16) % 4
  let ta := s.tapOf c 0 (t + s.deskew c 0 t)
  let tb := s.tapOf c 1 (t + s.deskew c 1 t)
  if st = 0 then s.driveTo c x.drv false ta tb
  else if st = 1 then s.driveTo c false true ta tb
  else if st = 2 then s.driveTo c true true ta tb
  else s

/-- A channel parks. -/
def State.parkChan (s : State) (c t : Nat) : State :=
  let u := (s.abandonWindow c).parkLevels c t
  u.setChan c { (u.chan c) with parked := true, parkAt := none }

/-- The park instant of a channel whose last vector cycle ends at `endAt`: that end, or its last queued event plus 128 fu, the
later of the two (R112). -/
def ChanX.parkInstant (x : ChanX) (endAt : Nat) : Nat := max endAt (x.lastEv + 128)

/-- The last vector cycle of a channel ends at `endAt`. -/
def State.setPark (s : State) (c endAt : Nat) : State := s.setChan c { (s.chan c) with parkAt := some endAt }

/-- The channels of `cs` whose park instant is reached, with nothing queued, park (R112). -/
def State.parkDue (s : State) (cs : List Nat) : State :=
  cs.foldl (fun u c =>
    let x := u.chan c
    match x.parkAt with
    | some t => if x.parkInstant t ≤ u.nowFu ∧ x.queue = [] then u.parkChan c (x.parkInstant t) else u
    | none => u) s

/-- The channels run: they leave their park state. -/
def State.unpark (s : State) (cs : List Nat) : State :=
  cs.foldl (fun u c => u.setChan c { (u.chan c) with parked := false, parkAt := none, lastEv := 0 }) s

/-! ### DUT clock generators (R143 to R146); instants in units of 2⁻¹⁷ fu -/

/-- Generator `g` of bay `b`. -/
def State.dclk (s : State) (b g : Nat) : DclkX := unitAt {} s.dclks (2 * b + g)

/-- Stores a generator. -/
def State.setDclk (s : State) (b g : Nat) (x : DclkX) : State := { s with dclks := putUnit {} s.dclks (2 * b + g) x }

/-- Rising edge `n` of a run that starts at `st` (R143). -/
def DclkX.rise (x : DclkX) (st n : Nat) : Nat := st + n * (2 * x.runPeriod)

/-- The falling edge that follows it: half a period plus the duty later. -/
def DclkX.fall (x : DclkX) (st n : Nat) : Nat := (x.rise st n + x.runPeriod + x.runDuty * 131072).toNat

/-- The first falling edge after `t`. -/
def DclkX.nextFall (x : DclkX) (st t : Nat) : Nat :=
  let f := x.fall st 0
  if t < f then f else x.fall st ((t - f) / (2 * x.runPeriod) + 1)

/-- The instant of an edge, rounded to the nearest fu, ties upward. -/
def edgeFu (t : Nat) : Nat := (t + 65536) / 131072

/-- The present boundary. -/
def State.now17 (s : State) : Nat := s.nowFu * 131072

/-- A run begins at `st`, with the settings in force. -/
def DclkX.begin (x : DclkX) (st : Option Nat) : DclkX :=
  { x with start := st, runPeriod := x.period, runDuty := x.duty, stopAt := none, next := none }

/-- The generator with a run that has ended by `t` replaced by the one that follows. -/
def DclkX.settle (x : DclkX) (t : Nat) : DclkX :=
  match x.stopAt with
  | some f => if f ≤ t then x.begin x.next else x
  | none => x

/-- The edges of the present run at or after `a` and before `b`, in fu, with the level that each brings; the run's last is the falling
edge at which it stops (R143, R144). -/
def DclkX.edges (x : DclkX) (a b : Nat) : List (Nat × Bool) :=
  match x.start with
  | none => []
  | some st =>
    let n0 := (a - st) / (2 * max 1 x.runPeriod) - 1
    let last := x.stopAt.getD b
    (List.range 7).flatMap fun i =>
      let r := x.rise st (n0 + i)
      let f := x.fall st (n0 + i)
      (if a ≤ r ∧ r < b ∧ r < last then [(edgeFu r, true)] else [])
        ++ (if a ≤ f ∧ f < b ∧ f ≤ last then [(edgeFu f, false)] else [])

/-- The output toggles at `t`. -/
def DclkX.running (x : DclkX) (t : Nat) : Bool :=
  match (x.settle t).start with
  | some st => decide (st ≤ t)
  | none => false

/-- The output level at `t`: low while stopped (R143). -/
def DclkX.level (x : DclkX) (t : Nat) : Bool :=
  match x.start with
  | none => false
  | some st =>
    let n := (t - st) / (2 * max 1 x.runPeriod)
    decide (st ≤ t) && decide (t < x.fall st n) && decide (x.fall st n ≤ x.stopAt.getD (x.fall st n))

/-- The generator stops after its next falling edge. -/
def DclkX.halt (x : DclkX) (t : Nat) : DclkX :=
  let y := x.settle t
  match y.start with
  | some st => { y with stopAt := some (y.nextFall st t), next := none }
  | none => { y with next := none }

/-- The launch of a LOCKED generator with a first cycle start at `c` fu (R145): where it still runs then, it completes the cycle that
contains the instant, and rises again a whole number of periods later, at least half a period after that cycle's falling edge. -/
def DclkX.launch (x : DclkX) (t c : Nat) : DclkX :=
  let y := x.settle t
  let X := (c + y.offset) * 131072
  match y.start with
  | none => y.begin (some X)
  | some st =>
    let f := y.stopAt.getD (y.fall st ((X - st) / (2 * max 1 y.runPeriod)))
    let n := (f + y.period - X + (2 * y.period - 1)) / (2 * max 1 y.period)
    { y with stopAt := some f, next := some (if y.stopAt.isSome ∧ f ≤ X then X else X + n * (2 * y.period)) }

/-- The duty of generator `g` at its next commit or launch: its DUTY_TRIM in force and the duty correction of its bay (R143,
R454). -/
def State.dutyOf (s : State) (b g : Nat) (trim : Int) : Int :=
  trim + s.getS (if g = 0 then F.bayCalBayDutyA else F.bayCalBayDutyB) b

/-- The LOCKED generators of a sequencer launch at its accepted start (R145, R146). (DEDUCED, log entry 43.) -/
def State.dclkLaunch (s : State) (q c : Nat) : State :=
  (List.range 16).foldl (fun u i =>
    let x := u.dclk (i / 2) (i % 2)
    if x.locked ∧ x.seqsel = q then
      u.onObj (.dclk (i / 2) (i % 2)) 5 0 1 (fun w => w.setDclk (i / 2) (i % 2)
        (({ x with duty := w.dutyOf (i / 2) (i % 2) x.trim } : DclkX).launch w.now17 c))
    else u) s

/-- The edges of every generator over the event tick that ends (R143). -/
def State.dclkEdges (s : State) : State :=
  (List.range 16).foldl (fun u i =>
    let x := u.dclk (i / 2) (i % 2)
    let a := u.now17
    let b := a + 1073741824
    let y := x.settle b
    let l := x.edges a b ++ (if y = x then [] else y.edges a b)
    l.foldl (fun v e => v.emit (.dclkEdge (i / 2) (i % 2) e.1 e.2)) (if y = x then u else u.setDclk (i / 2) (i % 2) y)) s

/-- The LOCKED generators of a sequencer stop after their next falling edge (R145). -/
def State.dclkHalt (s : State) (q : Nat) : State :=
  (List.range 16).foldl (fun u i =>
    let x := u.dclk (i / 2) (i % 2)
    if x.locked ∧ x.seqsel = q then u.setDclk (i / 2) (i % 2) (x.halt u.now17) else u) s

end Sys2Proof.Machine
end

