-- ==== Sys2Proof/Machine/OpsDram.lean ====
section
/-!
DEFINITION. OpsDram.lean: local DRAM as the other blocks use it: the address space, port reads and writes, uncorrectable
words, and self-refresh (R412 to R418, R431 to R434).
-/
namespace Sys2Proof.Machine

/-- The controller is READY: ports are served (R416, R418). -/
def State.dramReady (s : State) : Bool := decide (s.get F.drmInfoState = 3)

/-- The installed frames of an organisation (R412). -/
def State.installedFrames (s : State) : Nat :=
  (16 + 8 * s.get F.drmOrgDensity) * 16 * (1 + s.get F.drmOrgRanks) * (1 + s.get F.drmOrgDual)

/-- First byte address beyond the installed DRAM. -/
def State.dramEnd (s : State) : Nat := s.get F.drmInfoFrames * 67108864

/-- The populated channels. -/
def State.mchs (s : State) : List Nat := if s.get F.drmOrgDual = 1 then [0, 1] else [0]

/-- The channel of a local byte address (R415). -/
def State.mchOf (s : State) (a : Nat) : Nat :=
  if s.get F.drmOrgDual = 1 then a / (256 * 2 ^ s.get F.drmOrgGrain) % 2 else 0

/-- Ends self-refresh (R434): 1 port request, 2 SR_EXIT, 3 sequencer start. -/
def State.srExit (s : State) (cause : Nat) : State :=
  if s.get F.drmInfoSrState = 0 then s
  else (s.set F.drmInfoSrState 0 0 0).post 0x0E02 0
    (cause + min 4294967295 ((s.ticks - s.dram.srSince) / 150) * 2 ^ 32)

/-- A port request: it ends self-refresh and the idle time before it (R433, R434). -/
def State.portRequest (s : State) : State :=
  let t := s.srExit 1
  { t with dram := { t.dram with lastReq := t.ticks } }

/-- Bytes `a … a+n-1` lie in the installed DRAM (R415). -/
def State.inDram (s : State) (a n : Nat) : Bool := decide (a + n ≤ s.dramEnd)

/-- An access beyond the installed capacity is counted (R415). -/
def State.outOfRange (s : State) : State := s.count F.drmInfoOutOfRange F.drmInfoSaturated 0 0 1

/-- A port write (R415, R431): beyond capacity it is discarded and counted; a written word is no longer uncorrectable. -/
def State.dramWrite (s : State) (a : Nat) (bytes : List Nat) : State :=
  let t := s.portRequest
  if t.inDram a bytes.length then
    let u := t.putBytes a bytes
    { u with dram := { u.dram with
        poison := u.dram.poison.filter fun w => decide (w < a / 8) || decide ((a + bytes.length + 7) / 8 ≤ w) } }
  else t.outOfRange

/-- An uncorrectable word is recorded (R431, R432): 1 port read, 2 patrol scrub. -/
def State.recordUe (s : State) (w by_ : Nat) : State :=
  let m := s.mchOf (8 * w)
  let t := s.count F.mchEccStatUeCount F.mchEccStatUeSaturated m 0 1
  let u := ((t.set F.mchEccAddrAddress m 0 (8 * w)).set F.mchEccAddrUe m 0 1).set F.mchEccAddrScrub m 0 (by_ - 1)
  (u.set F.mchEccAddrValid m 0 1).post 0x0E01 m (8 * w + by_ * 2 ^ 64)

/-- A port read: the bytes, or nothing where a word is uncorrectable or beyond capacity: the data are poisoned (R415,
R431). -/
def State.dramRead (s : State) (a n : Nat) : Option (List Nat) × State :=
  let t := s.portRequest
  if t.inDram a n then
    match t.dram.poison.find? (fun w => decide (a / 8 ≤ w) && decide (w < (a + n + 7) / 8)) with
    | some w => (none, t.recordUe w 1)
    | none => (some (t.memBytes a n), t)
  else (none, t.outOfRange)

/-! ### Delays and refresh (R419, R427, R429) -/

/-- The channel of a signal's key: ((m·2 + sub)·2 + rank)·2 + write)·64 + lane. -/
def delayChannel (k : Nat) : Nat := k / 512

/-- The shadow delays of channel `m` are transferred, and PENDING clears (R419). -/
def State.transferDelays (s : State) (m : Nat) : State :=
  let mine := s.dram.shadow.filter fun e => decide (delayChannel e.1 = m)
  let act := mine.foldl (fun l e => putUnit 64 l e.1 e.2) (s.dram.active.filter fun e => decide (delayChannel e.1 ≠ m))
  ({ s with dram := { s.dram with
      active := act, waitRanks := s.dram.waitRanks.filter fun e => decide (e.1 ≠ m) } }).set F.mchDlyApplyPending m 0 0

/-- Rank `r` of MCH[m] is refreshed: once every rank has been, a pending APPLY takes place (R419). -/
def State.refreshRank (s : State) (m r : Nat) : State :=
  if s.bit F.mchDlyApplyPending m then
    let l := (unitAt [] s.dram.waitRanks m).filter fun x => decide (x ≠ r)
    if l = [] then s.transferDelays m
    else { s with dram := { s.dram with waitRanks := putUnit [] s.dram.waitRanks m l } }
  else s

/-- The postponed refreshes are issued back to back (R429). -/
def State.issuePostponed (s : State) : State :=
  s.dram.postponed.foldl (fun t e => t.refreshRank (e.1 / 2) (e.1 % 2)) { s with dram := { s.dram with postponed := [] } }

/-- Every sequencer is STOPPED. -/
def State.allStopped (s : State) : Bool := (List.range 4).all fun q => decide (s.get F.seqStatusState q = 0)

end Sys2Proof.Machine
end

