-- ==== Sys2Proof/Machine/OpsAcq.lean ====
section
/-!
DEFINITION. OpsAcq.lean: the acquisition engines: records, conditions, captures, and their rings (R380 to R396). Instants
are in units of 1/10,240 fu.
-/
namespace Sys2Proof.Machine

/-- A sample interval, 4 ns. -/
def sampleUnits : Nat := 50331648

/-- An event tick. -/
def tickUnits : Nat := 83886080

/-- An instant in fu. -/
def fuUnits (fu : Nat) : Nat := fu * 10240

/-- `x / n` rounded to nearest, ties away from zero. -/
def roundAway (x : Int) (n : Nat) : Int :=
  if 0 ≤ x then (2 * x + n) / (2 * max 1 n) else -((2 * (-x) + n) / (2 * max 1 n))

/-- The acquisition engine of a bay. -/
def State.acq (s : State) (b : Nat) : AcqX := unitAt {} s.acqs b

/-- Stores an acquisition engine. -/
def State.setAcq (s : State) (b : Nat) (x : AcqX) : State := { s with acqs := putUnit {} s.acqs b x }

/-- A field in force of bay `b` (R384). -/
def AcqX.get (x : AcqX) (f : Fld) (b : Nat) (j : Nat := 0) : Nat :=
  bitsOf (Assoc.rd resetWord x.act (f.key b j)) f.lo f.width

/-- ACQ_STAT.STATE: 0 IDLE, 1 FILLING, 2 ARMED, 3 POST, 4 HOLDOFF. -/
def State.acqState (s : State) (b : Nat) : Nat := s.get F.bayAcqStatState b

/-! ### The ring (R173 to R175, R394, R395) -/

/-- Rate reduction when a write brings occupancy from below the mark to it or above (R395). -/
def State.acqRate (s : State) (b before after : Nat) : State :=
  let mark := s.get F.bayAcqRingHighMark b * 2 ^ s.get F.bayAcqRingSize b / 16
  let r := s.get F.bayAcqStatRshift b
  if before < mark ∧ mark ≤ after ∧ r < 6 then
    ((s.set F.bayAcqStatRshift b 0 (r + 1)).set F.bayAcqStatRateReduced b 0 1).post 0x0B11 b (r + 1)
  else s

/-- What becomes of an entry of an acquisition ring. -/
inductive Put
  | written
  /-- the ring is full, or the local DRAM is not READY (R418) -/
  | full
  /-- ENABLE is 0: the entry is discarded (R175) -/
  | discarded
deriving DecidableEq, Repr

/-- An entry is written to the ring of a bay, where it has room (R394). (DEDUCED, log entry 79.) -/
def State.ringPut (s : State) (b : Nat) (ws : List Nat) : Put × State :=
  let n := 2 ^ s.get F.bayAcqRingSize b
  let wr := s.get F.bayAcqPtrWr b
  let rd := s.get F.bayAcqPtrRd b
  if s.bit F.bayAcqRingEnable b = false then (.discarded, s)
  else if (wr + 1) % n = rd ∨ s.dramReady = false then (.full, s)
  else
    let t := s.dramWrite (s.get F.bayAcqRingBasePage b * 4096 + wr * 32) (ws.flatMap fun w => bytesOf w 8)
    let t := if t.bit F.bayAcqRingMirrorEn b then t.setAcq b { t.acq b with mirror := (t.acq b).mirror ++ [ws] } else t
    let u := t.set F.bayAcqPtrWr b 0 ((wr + 1) % n)
    (.written, u.acqRate b ((wr + n - rd) % n) ((wr + 1 + n - rd) % n))

/-- An entry of the engine: one that finds the ring full is dropped and counted (R394). -/
def State.acqWrite (s : State) (b : Nat) (ws : List Nat) : Put × State :=
  match s.ringPut b ws with
  | (.full, t) => (.full, t.count F.bayAcqCountsDropped F.bayAcqCountsDroppedSaturated b 0 1)
  | r => r

/-- An entry of the capture in progress. -/
def State.capEntry (s : State) (b : Nat) (data : Bool) (ws : List Nat) : State :=
  match s.acqWrite b ws with
  | (r, t) =>
    let x := t.acq b
    t.setAcq b { x with cap := x.cap.map fun c =>
      { c with dropped := if r = .full then min 4294967295 (c.dropped + 1) else c.dropped,
               lastDropped := if data then decide (r = .full) else c.lastDropped } }

/-- The words of a record whose 256 bits are `n`. -/
def fourWords (n : Nat) : List Nat := (List.range 4).map fun i => n / 2 ^ (64 * i) % 2 ^ 64

/-- MEAN of a record. -/
def AcqRec.mean (r : AcqRec) : Int := roundAway r.sum r.cnt

/-- A data record (R396). -/
def AcqRec.words (r : AcqRec) (gap trigger : Bool) (index : Int) : List Nat :=
  fourWords (0x2 * 2 ^ 60 + unsigned 24 r.mean + unsigned 24 r.least * 2 ^ 24
    + (unsigned 24 r.most + r.cnt % 2 ^ 17 * 2 ^ 24 + r.rshift * 2 ^ 41 + (r.gap || gap).toNat * 2 ^ 44
        + trigger.toNat * 2 ^ 45) * 2 ^ 64
    + r.cycle % 2 ^ 48 * 2 ^ 128 + (unsigned 32 index + r.et % 2 ^ 32 * 2 ^ 32) * 2 ^ 192)

/-- A data record of the capture in progress is written. -/
def State.capData (s : State) (b : Nat) (r : AcqRec) (trigger : Bool) (index : Int) : State :=
  let gap := ((s.acq b).cap.map fun c => c.lastDropped).getD false
  s.capEntry b true (r.words gap trigger index)

/-- The capture in progress ends (R383, R384, R392, R393): its trailer, and an ACQ_CAPTURE event record. END: 0 COMPLETE,
1 STOPPED, 2 REARMED, 3 CALIBRATION. -/
def State.endCapture (s : State) (b how : Nat) : State :=
  match (s.acq b).cap with
  | none => s
  | some c =>
    let w := fourWords (0x3 * 2 ^ 60 + c.num + how * 2 ^ 16 + c.done % 2 ^ 16 * 2 ^ 24 + c.dropped * 2 ^ 64
      + s.stamp % 2 ^ 96 * 2 ^ 128)
    let t := s.capEntry b false w
    (t.setAcq b { (t.acq b) with cap := none }).post 0x0B10 b (c.num + how * 2 ^ 16 + c.dropped * 2 ^ 32)

/-! ### States (R383 to R385) -/

/-- The engine forms no more records, and forgets what it holds. -/
def State.acqDrop (s : State) (b : Nat) : State :=
  (s.setAcq b { (s.acq b) with rec_ := none, pre := [], prev := none, gapNext := false, armed := 0, evs := [] }).set
    F.bayAcqStatPreNow b 0 0

/-- The engine enters FILLING (R384). -/
def State.acqFill (s : State) (b : Nat) : State :=
  let t := s.acqDrop b
  (t.setAcq b { (t.acq b) with since := t.ticks, forced := false }).set F.bayAcqStatState b 0 1

/-- The registers that a re-arm applies. -/
def acqStaged (b : Nat) : List RegKey :=
  ([⟨.bayAcqCfg, b, 0⟩, ⟨.bayAcqTime, b, 0⟩] : List RegKey)
    ++ (List.range 4).map (fun i => (⟨.bayAcqCond, b, i⟩ : RegKey)) ++ (List.range 4).map (fun i => ⟨.bayAcqLevel, b, i⟩)

/-- What a staged register puts in force (R384): the HYST of a level type is at most 0x7FFFFF, a range that the staged TYPE gives,
so it is clamped when it takes effect (R16). -/
def State.acqInForce (s : State) (k : RegKey) : Word :=
  let ty := s.get F.bayAcqCondType k.inst k.elem
  if k.name = .bayAcqLevel ∧ 1 ≤ ty ∧ ty ≤ 3 then
    withBits (s.rd k) F.bayAcqLevelHyst.lo F.bayAcqLevelHyst.width
      (min 0x7FFFFF (bitsOf (s.rd k) F.bayAcqLevelHyst.lo F.bayAcqLevelHyst.width))
  else s.rd k

/-- A re-arm from ACQ_CTRL (R384). -/
def State.acqRearm (s : State) (b : Nat) : State :=
  let t := s.endCapture b 2
  let u := t.setAcq b { (t.acq b) with
    act := (acqStaged b).foldl (fun l k => Assoc.wr RegKey.before resetWord l k (t.acqInForce k)) [] }
  ((u.acqFill b).set F.bayAcqStatRshift b 0 0).set F.bayAcqStatRateReduced b 0 0

/-- The engine becomes IDLE; a capture in progress ends with `how` (R392, R393). -/
def State.acqIdle (s : State) (b how : Nat) : State := ((s.endCapture b how).acqDrop b).set F.bayAcqStatState b 0 0

/-- A trigger in POST or HOLDOFF (R389). (DEDUCED, log entry 80.) -/
def State.trigMissed (s : State) (b n : Nat) : State :=
  s.count F.bayAcqCountsTrigMissed F.bayAcqCountsMissedSaturated b 0 n

/-- The capture has all its records (R385): SINGLE becomes IDLE, the other modes enter HOLDOFF, where conditions sampled and
not assigned count as missed. -/
def State.capDone (s : State) (b : Nat) : State :=
  let t := s.endCapture b 0
  if (t.acq b).get F.bayAcqCfgMode b = 1 then (t.acqDrop b).set F.bayAcqStatState b 0 0
  else
    let n := (((t.acq b).evs.map (·.1)).eraseDups).length
    let u := if n = 0 then t else t.trigMissed b n
    let v := u.acqDrop b
    (v.setAcq b { (v.acq b) with since := v.ticks }).set F.bayAcqStatState b 0 4

/-! ### Conditions (R386 to R390) -/

/-- The value of a record that a condition looks at. -/
def AcqX.value (x : AcqX) (b i : Nat) (r : AcqRec) : Int :=
  let k := x.get F.bayAcqCondSource b i
  if k = 1 then r.least else if k = 2 then r.most else r.mean

/-- LEVEL or LOW, and HYST or HIGH. -/
def AcqX.level (x : AcqX) (b i : Nat) : Int := signed 24 (x.get F.bayAcqLevelLevel b i)
def AcqX.hyst (x : AcqX) (b i : Nat) : Int := signed 24 (x.get F.bayAcqLevelHyst b i)

/-- The two arms of COND[i] for a value: bit 0 rising, enter or exit; bit 1 falling. Whether each arms, and whether each is
met, at a record (R386, R387). -/
def AcqX.judge (x : AcqX) (b i : Nat) (v : Int) : (Bool × Bool) × (Bool × Bool) :=
  let ty := x.get F.bayAcqCondType b i
  let l := x.level b i
  let h := x.hyst b i
  let inside := decide (l ≤ v) && decide (v ≤ h)
  if ty = 1 ∨ ty = 2 ∨ ty = 3 then
    let up := decide (ty ≠ 2)
    let dn := decide (ty ≠ 1)
    ((up && decide (v < l - h), dn && decide (l + h < v)), (up && decide (l ≤ v), dn && decide (v ≤ l)))
  else if ty = 4 then ((!inside, false), (inside, false))
  else if ty = 5 then ((inside, false), (!inside, false))
  else ((false, false), (false, false))

/-- Level and window conditions at a closed record: those met, and the arms after it. A condition that the record arms can be
met by a later one only. -/
def AcqX.levels (x : AcqX) (b : Nat) (r : AcqRec) : List Nat × Nat :=
  (List.range 4).foldl (fun (acc : List Nat × Nat) i =>
    match x.judge b i (x.value b i r) with
    | ((a0, a1), (m0, m1)) =>
      let met0 := testBit x.armed i && m0
      let met1 := testBit x.armed (4 + i) && m1
      let arms := putBit (putBit acc.2 i ((testBit x.armed i || a0) && !met0)) (4 + i)
        ((testBit x.armed (4 + i) || a1) && !met1)
      (if met0 || met1 then acc.1 ++ [i] else acc.1, arms)) ([], x.armed)

/-- The bound of a condition that the value crossed between two records (R390). -/
def AcqX.bound (x : AcqX) (b i : Nat) (v0 v1 : Int) : Int :=
  let ty := x.get F.bayAcqCondType b i
  let v := if ty = 4 then v0 else v1
  if ty = 4 ∨ ty = 5 then (if v < x.level b i then x.level b i else x.hyst b i) else x.level b i

/-- TRIG_FRAC of a record whose cause is `c` (R390). -/
def AcqX.frac (x : AcqX) (b c : Nat) (r : AcqRec) : Nat :=
  match r.evs.find? (fun e => decide (e.1 = c)) with
  | some e => 256 * e.2.1 / max 1 r.cnt
  | none =>
    match x.prev with
    | none => 0
    | some p =>
      if r.gap then 0
      else
        let v0 := x.value b c p
        let v1 := x.value b c r
        let num := 256 * (x.bound b c v0 v1 - v0)
        let den := v1 - v0
        let q := if den = 0 then 0 else if 0 < den then num / den else (-num) / (-den)
        (max 0 (min 255 q)).toNat

/-- The header of a capture whose trigger record is `r` (R389, R396). -/
def State.header (s : State) (b num cause : Nat) (met : List Nat) (r : AcqRec) (stamp : Nat) : List Nat :=
  let x := s.acq b
  let mask := (met.filter fun i => decide (i < 4)).foldl (fun m i => m + 2 ^ i) 0
  fourWords (0x1 * 2 ^ 60 + num + mask * 2 ^ 16 + cause * 2 ^ 20 + r.rshift * 2 ^ 23
    + s.get F.bayAcqStatRateReduced b * 2 ^ 26 + x.pre.length * 2 ^ 27 + x.get F.bayAcqCfgPost b * 2 ^ 37
    + x.get F.bayAcqCfgEntry b * 2 ^ 53 + b * 2 ^ 57
    + (x.frac b cause r + r.cycle % 2 ^ 48 * 2 ^ 16) * 2 ^ 64 + stamp % 2 ^ 96 * 2 ^ 128)

/-- A trigger record is found (R386, R391, R394): the header, the buffered records and the trigger record are written. -/
def State.capBegin (s : State) (b : Nat) (met : List Nat) (r : AcqRec) : State :=
  let x := s.acq b
  let cause := met.foldl min 4
  let stamp := ((r.evs.find? fun e => decide (e.1 = cause)).map (·.2.2)).getD s.stamp
  let num := s.get F.bayAcqStatCaptures b
  let n := x.pre.length
  let t := s.setAcq b { x with cap := some { num := num, post := x.get F.bayAcqCfgPost b } }
  let t := t.capEntry b false (s.header b num cause met r stamp)
  let t := if t.bit F.bayAcqRingEnable b ∧ ((t.acq b).cap.map fun c => c.dropped).getD 0 = 0 then t.set F.bayAcqStatCaptures b 0 ((num + 1) % 65536) else t
  let t := (List.range n).foldl (fun (u : State) (i : Nat) =>
    match x.pre[i]? with
    | some p => u.capData b p false ((i : Int) - n)
    | none => u) t
  let t := ((t.capData b r true 0).set F.bayAcqStatState b 0 3).set F.bayAcqStatPreNow b 0 0
  let t := t.setAcq b { (t.acq b) with pre := [] }
  if x.get F.bayAcqCfgPost b = 0 then t.capDone b else t

/-- A record has closed (R383, R386, R389). -/
def State.acqClosed (s : State) (b : Nat) (r : AcqRec) : State :=
  let x := s.acq b
  let st := s.acqState b
  match x.levels b r with
  | (lv, arms) =>
    -- a level or window condition is a trigger sampled now, and judged with the others of the tick (R388, R392)
    let (lv, s) : List Nat × State := if lv = [] then ([], s)
      else match s.decideEvent (.acq b) 5 0 1 with
        | (.superseded, t) => ([], t)
        | (_, t) => (lv, t)
    let met := (lv ++ r.evs.map (·.1)).eraseDups
    let t := s.setAcq b { x with armed := arms, rec_ := none }
    let keep := fun (u : State) => u.setAcq b { (u.acq b) with prev := some r }
    if st = 3 then
      let u := if met = [] then t else t.trigMissed b met.length
      let n := ((u.acq b).cap.map fun c => c.done).getD 0 + 1
      let u := (keep u).capData b r false n
      let u := u.setAcq b { (u.acq b) with cap := (u.acq b).cap.map fun c => { c with done := n } }
      if ((u.acq b).cap.map fun c => c.post).getD 0 ≤ n then u.capDone b else u
    else if met ≠ [] then
      match t.capBegin b met r with
      | u => if u.acqState b = 3 then keep u else u
    else
      let k := x.get F.bayAcqCfgPre b
      let pre := if x.pre.length < k then x.pre ++ [r] else (x.pre ++ [r]).drop (x.pre.length + 1 - k)
      let u := (keep t).setAcq b { (keep t).acq b with pre := pre }
      let u := u.set F.bayAcqStatPreNow b 0 pre.length
      if st = 1 ∧ k ≤ pre.length then u.set F.bayAcqStatState b 0 2 else u

/-- The engine forms records. -/
def State.acqForms (s : State) (b : Nat) : Bool := decide (1 ≤ s.acqState b ∧ s.acqState b ≤ 3)

/-- The visit that supplied the open record's last output ends: the record is short, and the next has GAP = 1 (R381). -/
def State.acqShort (s : State) (b : Nat) : State :=
  let x := s.acq b
  match x.rec_ with
  | none => s
  | some r =>
    let t := s.acqClosed b { r with et := s.get F.clkEtcountCount }
    t.setAcq b { (t.acq b) with gapNext := true }

/-- An output of entry `e`, with its tag instant and cycle count, reaches the engine (R380, R381, R388). -/
def State.acqTake (s : State) (b e tag cyc : Nat) (v : Int) : State :=
  let x := s.acq b
  if s.acqForms b = false ∨ e ≠ x.get F.bayAcqCfgEntry b then s
  else
    let sh := s.get F.bayAcqStatRshift b
    let r : AcqRec := x.rec_.getD
      { tag := tag, cycle := cyc, limit := x.get F.bayAcqCfgRecOutputs b * 2 ^ sh, rshift := sh, gap := x.gapNext }
    let now := x.evs.filter fun ev => decide (ev.2.1 ≤ tag)
    let add := now.map fun ev => (ev.1, r.cnt, ev.2.2)
    let r' := { r with
      sum := r.sum + v, cnt := r.cnt + 1, least := min r.least v, most := max r.most v
      evs := r.evs ++ add.filter fun ev => !(r.evs.any fun w => decide (w.1 = ev.1)) }
    let t := s.setAcq b { x with
      rec_ := some r', gapNext := false, evs := x.evs.filter fun ev => !decide (ev.2.1 ≤ tag) }
    if r'.limit ≤ r'.cnt then t.acqClosed b { r' with et := t.get F.clkEtcountCount } else t

/-! ### Event conditions (R388, R389, R392) -/

/-- A trigger on the engine (R392): those of one tick merge, and each acts. -/
def State.onAcq (s : State) (b : Nat) (src : Src) (f : State → State) : State :=
  match s.decideEvent (.acq b) 5 (srcRank src) 1 with
  | (.superseded, t) => t
  | (_, t) => f t

/-- Condition `i` is sampled at the present boundary, with a reference instant. -/
def State.acqEvent (s : State) (b i ref : Nat) (src : Src) : State :=
  if s.acqState b = 0 then s.discardAt (.acq b) 5
  else
    s.onAcq b src fun t =>
      if t.acqState b = 4 then t.trigMissed b 1
      else
        let x := t.acq b
        if x.evs.any (fun e => decide (e.1 = i ∧ e.2.1 = ref)) then t
        else t.setAcq b { x with evs := x.evs ++ [(i, ref, t.stamp)] }

/-- The conditions of a bay's engine in force with a type. -/
def State.acqConds (s : State) (b ty : Nat) : List Nat :=
  (List.range 4).filter fun i => decide ((s.acq b).get F.bayAcqCondType b i = ty)

/-- A TRIGGER record that started at `start` (fu) reaches the engine (R106). -/
def State.acqTrigger (s : State) (b start q : Nat) : State :=
  (s.acqConds b 6).foldl (fun (t : State) i => t.acqEvent b i (fuUnits start) (.seq q)) s

/-- GF[g] changes (R388). -/
def State.acqGf (s : State) (g : Nat) (set : Bool) : State :=
  (List.range 8).foldl (fun (t : State) b =>
    ((t.acqConds b 8).filter fun i => decide ((t.acq b).get F.bayAcqCondGfIndex b i = g)
        && decide ((t.acq b).get F.bayAcqCondGfEdge b i = (!set).toNat)).foldl
      (fun (u : State) i => u.acqEvent b i (u.ticks * tickUnits) .hw) t) s

/-- A fail outcome reaches the fail counter of channel `c`; the condition is sampled at tick `k` (R388). -/
def State.acqFail (s : State) (c k : Nat) : State :=
  let b := c / 16
  let l := (s.acqConds b 7).filter fun i => decide ((s.acq b).get F.bayAcqCondPinKind b i = 0)
    && testBit ((s.acq b).get F.bayAcqCondChmask b i) (c % 16)
  if s.acqState b = 0 ∨ l = [] then s
  else s.setAcq b { (s.acq b) with due := (s.acq b).due ++ l.map fun i => (k, i) }

/-- The pin events of a bay whose boundary is reached are sampled. -/
def State.acqDue (s : State) (b : Nat) : State :=
  let x := s.acq b
  let l := x.due.filter fun e => decide (e.1 ≤ s.ticks)
  l.foldl (fun (t : State) e => t.acqEvent b e.2 (e.1 * tickUnits) .hw)
    (s.setAcq b { x with due := x.due.filter fun e => decide (s.ticks < e.1) })

end Sys2Proof.Machine
end

