-- ==== Sys2Proof/Machine/Acq.lean ====
section
/-!
DEFINITION. Acq.lean: the commands of the acquisition engines (13_acquisition_and_triggers.md).
-/
namespace Sys2Proof.Machine

/-- ACQ_CTRL.REARM (R384). -/
def execRearm (b : Nat) (src : Src) (s : State) : Host.Outcome State Fault Refusal :=
  .next (s.onObj (.acq b) 4 (srcRank src) 2 fun t => t.acqRearm b)

/-- ACQ_CTRL.STOP (R392). -/
def execAcqStop (b : Nat) (src : Src) (s : State) : Host.Outcome State Fault Refusal :=
  .next (s.onObj (.acq b) 2 (srcRank src) 3 fun t => if t.acqState b = 0 then t else t.acqIdle b 1)

/-- ACQ_CTRL.FORCE: a trigger that counts as condition 4 (R388, R389). -/
def execForce (b : Nat) (src : Src) (s : State) : Host.Outcome State Fault Refusal :=
  .next (s.acqEvent b 4 (s.ticks * tickUnits) src)

/-- AUTO_ET event ticks after the entry into FILLING no trigger record has been found: a forced trigger (R385). -/
def execAutoTrigger (b : Nat) (s : State) : Host.Outcome State Fault Refusal :=
  let x := s.acq b
  if x.get F.bayAcqCfgMode b = 2 ∧ (s.acqState b = 1 ∨ s.acqState b = 2) ∧ x.forced = false
      ∧ x.since + x.get F.bayAcqTimeAutoEt b ≤ s.ticks then
    .next ((s.setAcq b { x with forced := true }).acqEvent b 4 (s.ticks * tickUnits) .hw)
  else .next s

/-- HOLDOFF event ticks have passed: the engine re-arms itself, RSHIFT and the settings in force kept (R385). -/
def execHoldoffEnd (b : Nat) (s : State) : Host.Outcome State Fault Refusal :=
  let x := s.acq b
  .next (if s.acqState b = 4 ∧ x.since + x.get F.bayAcqTimeHoldoff b ≤ s.ticks then s.acqFill b else s)

/-- ACQ_COUNTS.CLEAR: class 3 on the engine (R392). -/
def execAcqCountsClear (b : Nat) (src : Src) (s : State) : Host.Outcome State Fault Refusal :=
  .next (s.onObj (.acq b) 3 (srcRank src) 3 fun t =>
    (((t.clear F.bayAcqCountsTrigMissed b 0).clear F.bayAcqCountsDropped b 0).set F.bayAcqCountsMissedSaturated b 0 0).set
      F.bayAcqCountsDroppedSaturated b 0 0)

/-- A write of ACQ_RING (R175, R394): while ENABLE is 1 only ENABLE is written; setting it zeroes WR and RD. -/
def State.acqRingWrite (s : State) (b : Nat) (v : Word) (host : Bool) : State :=
  let was := s.bit F.bayAcqRingEnable b
  let now := testBit v.toNat 0
  let s := s.rearm 4 b
  let t := if s.before F.bayAcqRingEnable b = 1 then
      (s.setBit F.bayAcqRingEnable b 0 now).set F.bayAcqRingHighMark b 0 (max 1 (bitsOf v 41 4))
    else s.storeRw ⟨.bayAcqRing, b, 0⟩ host v
  if now ∧ was = false then (t.setAcq b { t.acq b with mirror := [] }).wr ⟨.bayAcqPtr, b, 0⟩ 0 else t

/-- ACQ_RING. -/
def execAcqRingWrite (b : Nat) (value : Word) (s : State) : Host.Outcome State Fault Refusal :=
  .next (s.acqRingWrite b value true)

/-- CMPH (kind 1) or CMPL (kind 2) of local channel `chan` has risen, and the event's boundary is reached (R388). -/
def execPinEvent (b chan kind : Nat) (s : State) : Host.Outcome State Fault Refusal :=
  .next (((s.acqConds b 7).filter fun i => decide (kind ≠ 0)
      && decide ((s.acq b).get F.bayAcqCondPinKind b i = kind) && decide ((s.acq b).get F.bayAcqCondChan b i = chan)).foldl
    (fun (t : State) i => t.acqEvent b i (t.ticks * tickUnits) .hw) s)

end Sys2Proof.Machine
end

