-- ==== Sys2Proof/Machine/OpsAdc.lean ====
section
/-!
DEFINITION. OpsAdc.lean: the converters: settings in force, samples and tags, visits and settling, banks, accumulators and
windows (R358 to R378). Instants are in units of 1/10,240 fu.
-/
namespace Sys2Proof.Machine

/-- The converter of a bay. -/
def State.adc (s : State) (b : Nat) : AdcX := unitAt {} s.adcs b

/-- Stores a converter. -/
def State.setAdc (s : State) (b : Nat) (x : AdcX) : State := { s with adcs := putUnit {} s.adcs b x }

/-! ### Settings in force (R378) -/

/-- A field in force of bay `b`. -/
def AdcX.get (x : AdcX) (f : Fld) (b : Nat) (j : Nat := 0) : Nat :=
  bitsOf (Assoc.rd resetWord x.act (f.key b j)) f.lo f.width

/-- The staged registers of a bay's converter. -/
def adcStaged (b : Nat) : List RegKey :=
  ([⟨.bayAdcCfg, b, 0⟩, ⟨.bayAdcFilt, b, 0⟩, ⟨.bayAdcRatio, b, 0⟩] : List RegKey)
    ++ (List.range 16).map (fun e => (⟨.bayAdcEnt, b, e⟩ : RegKey)) ++ (List.range 16).map (fun i => ⟨.bayAdcDelay, b, i⟩)

/-- D: the decimation (R369). -/
def AdcX.dec (x : AdcX) (b : Nat) : Nat := 2 ^ x.get F.bayAdcFiltK b

/-- h + G + 8·D, in converter samples (R368 to R370). -/
def AdcX.lag (x : AdcX) (b : Nat) : Nat := x.get F.bayAdcFiltW b + 5 * (x.dec b - 1) + 8 * x.dec b

/-- S: suppressed decimated intervals of a visit of entry `e` (R372). -/
def AdcX.settle (x : AdcX) (b e : Nat) : Nat := (x.get F.bayAdcEntDwell b e + x.lag b + x.dec b - 1) / x.dec b

/-- A decimated interval. (DEDUCED, log entry 76.) -/
def AdcX.decStep (x : AdcX) (b : Nat) : Nat := x.dec b * sampleUnits

/-- RS_MODE is LOCKED. -/
def AdcX.locked (x : AdcX) (b : Nat) : Bool := decide (x.get F.bayAdcFiltRsMode b = 1)

/-! ### Samples (R358) -/

/-- The first sample after the instant `v`: samples are taken where CLK.ETCOUNT is a multiple of 3, and every 4 ns between. -/
def State.nextSample (s : State) (v : Nat) : Nat :=
  let ph := (s.ticks + 3 - s.get F.clkEtcountCount % 3) * tickUnits % sampleUnits
  ph + ((v + sampleUnits - ph) / sampleUnits) * sampleUnits

/-! ### Codes and the filter chain (R362, R368 to R374, R454) -/

/-- The index of ADC_CAL for entry `e`: 4·input + gain. -/
def AdcX.calIndex (x : AdcX) (b e : Nat) : Nat := 4 * x.get F.bayAdcEntInput b e + x.get F.bayAdcEntGain b e

/-- A raw code corrected, in 1/2^21 of a code (R454); inputs 12 and 13 have no correction. (DEDUCED, log entry 75.) -/
def State.correctCode (s : State) (b k : Nat) (raw : Int) : Int :=
  if k < 48 then
    (16 * raw - signed 16 (s.get F.bayAdcCalOffset b k)) * (2 ^ 17 + signed 16 (s.get F.bayAdcCalGain b k))
  else 16 * raw * 2 ^ 17

/-- The samples from the first after `v` on are of the entry `e` (R363). -/
def State.noteInput (s : State) (b e v : Nat) : State :=
  let x := s.adc b
  s.setAdc b { x with inputs := (s.nextSample v, x.calIndex b e) :: x.inputs }

/-- The index of ADC_CAL that holds for the sample at an instant. -/
def AdcX.inputAt (x : AdcX) (v : Nat) : Nat := ((x.inputs.find? fun e => decide (e.1 ≤ v)).map (·.2)).getD 48

/-- The instant of the sample after the last one that is held: the first of the present visit where none is. -/
def AdcX.nextCode (x : AdcX) (v : Visit) : Nat :=
  match x.codeAt with
  | some u => u + sampleUnits
  | none => v.change

/-- The codes of the samples that follow are taken in, corrected; a code at either end of the range counts (R362). -/
def State.takeCodes (s : State) (b : Nat) (v : Visit) : List Int → State
  | [] => s
  | c :: cs =>
    let x := s.adc b
    let u := x.nextCode v
    let t := s.setAdc b { x with codes := s.correctCode b (x.inputAt u) c :: x.codes, codeAt := some u }
    (if c ≤ -32768 ∨ 32767 ≤ c then t.count F.bayAdcCountsOverrange F.bayAdcCountsSaturated b 0 1 else t).takeCodes b v cs

/-- Samples that no output still waiting can depend on are forgotten. -/
def State.trimCodes (s : State) (b : Nat) : State :=
  let x := s.adc b
  match x.codeAt with
  | some u =>
    let v := min u ((x.tags.head?.map (·.1)).getD u)
    let old := x.inputs.find? fun e => decide (e.1 ≤ v)
    s.setAdc b { x with
      codes := x.codes.take ((u - v) / sampleUnits + 2048)
      inputs := x.inputs.filter (fun e => decide (v < e.1)) ++ old.toList }
  | none => s

/-- The corrected code of sample number `n`; one that has not been given is open. -/
def AdcX.code (x : AdcX) (free n : Int) : Int :=
  let k := ((x.codeAt.getD 0) / sampleUnits : Int) - n
  if k < 0 then free else x.codes.getD k.toNat free

/-- A number into its place in a rising list. -/
def insertInt (v : Int) : List Int → List Int
  | [] => [v]
  | a :: l => if v ≤ a then v :: a :: l else a :: insertInt v l

/-- The rank filter (R368): of the W codes around sample `n`, the R-th smallest. -/
def AdcX.rank (x : AdcX) (b : Nat) (free n : Int) : Int :=
  let h := x.get F.bayAdcFiltW b
  (((List.range (2 * h + 1)).map fun (i : Nat) => x.code free (n - h + i)).foldr insertInt []).getD (x.get F.bayAdcFiltR b - 1) 0

/-- A half-band stage (R369): an output for every second input, from the 11 inputs around it. -/
def halve : List Int → List Int
  | a :: c :: l => Config.halfBand ((a :: c :: l).take 11) :: halve l
  | _ => []

/-- The outputs `lo` to `lo + n − 1` of a cascade of half-band stages behind the rank filter; each stage is 5 of its inputs deep. -/
def AdcX.decimated (x : AdcX) (b : Nat) (free : Int) : Nat → Int → Nat → List Int
  | 0, lo, n => (List.range n).map fun (i : Nat) => x.rank b free (lo + i)
  | k + 1, lo, n => (halve (x.decimated b free k (2 * lo - 5) (2 * n + 9))).take n

/-- Coefficient `i` of a bank of a bay (R373). -/
def State.coef (s : State) (b bank i : Nat) : Nat :=
  Assoc.rd (fun k => Config.defaultCoef (k % 1024) % 2 ^ 18) (s.adc b).coefs (bank * 1024 + i)

/-- The resampler with the coefficients of a bank (R370): the 16 taps of phase `p` over decimated samples, newest first. -/
def State.polyphase (s : State) (b bank p : Nat) (d : List Int) : Int :=
  (List.zipWith (fun (i : Nat) (v : Int) => signed 18 (s.coef b bank (16 * p + i)) * v) (List.range 16) d).sum

/-- How the next output mixes the banks (R374): `j` of `n` parts of bank `k`, the rest of the active one. -/
def State.bankMix (s : State) (b : Nat) : Nat × Nat × Nat :=
  let x := s.adc b
  let bank := s.get F.bayAdcStatBank b
  match x.fade, x.bankWant with
  | some (j, n, k), _ => (j + 1, n, k)
  | none, some k => if k ≠ bank ∧ x.get F.bayAdcFiltFade b ≠ 0 then (1, x.get F.bayAdcFiltFade b, k) else (0, 1, bank)
  | none, none => (0, 1, bank)

/-- The output of the filter chain for the signal instant `t`, before R362 clips it: at the nearest of 64 positions between the decimated
samples, of which one lies at every sample whose number is a multiple of D. (DEDUCED, log entry 75.) -/
def State.chainValue (s : State) (b t : Nat) : Int :=
  let x := s.adc b
  let ph := x.codeAt.getD 0 % sampleUnits
  let pos := (128 * (t - ph) + x.decStep b) / (2 * x.decStep b)
  let d := (x.decimated b s.freeVal (x.get F.bayAdcFiltK b) ((pos / 64 : Nat) - 7) 16).reverse
  let (j, n, k) := s.bankMix b
  roundAway ((n - j : Nat) * s.polyphase b (s.get F.bayAdcStatBank b) (pos % 64) d + j * s.polyphase b k (pos % 64) d) (n * 2 ^ 30)

/-! ### Tags (R370) -/

/-- Interval of FREE tags. -/
def AdcX.freeStep (x : AdcX) (b : Nat) : Nat := x.get F.bayAdcRatioRatio b * x.dec b * 768

/-- A tag of cycle count `cyc`: it yields an output unless it lies less than one decimated interval after the last that
does. -/
def State.addTag (s : State) (b u cyc : Nat) : State :=
  let x := s.adc b
  let near : Bool := match x.lastOut with
    | some v => decide (u < v + x.decStep b)
    | none => false
  let now : Nat := match x.lastTag with
    | some v => min 0xFFFFFF ((u - v) * 65536 / x.decStep b)
    | none => 0
  let t := if x.locked b ∧ x.lastTag.isSome then s.set F.bayAdcStatRatioNow b 0 now else s
  let y := { x with lastTag := some u, lastCyc := cyc }
  if near then (t.setAdc b y).count F.bayAdcCountsSkipped F.bayAdcCountsSaturated b 0 1
  else t.setAdc b { y with tags := y.tags ++ [(u, cyc)], lastOut := some u }

/-- Vectors of a sequencer begin, at their starts (fu) and with their cycle counts: LOCKED bays tag them (R370), and FREE bays read
their cycle counts. -/
def State.tagVectors (s : State) (q : Nat) (l : List (Nat × Nat)) : State :=
  let x := s.seqX q
  let old := x.begun.filter fun e => decide (s.nowFu < e.1 + 16384)
  let last := (x.begun.filter fun e => decide (e.1 + 16384 ≤ s.nowFu)).getLast?.toList
  let t := s.setSeqX q { x with begun := last ++ old ++ l }
  (t.baysOf q).foldl (fun (u : State) b =>
    if (u.adc b).locked b ∧ (u.adc b).visit.isSome then
      l.foldl (fun (v : State) e =>
        if e.2 % max 1 ((v.adc b).get F.bayAdcFiltOutVectors b) = 0 then v.addTag b (fuUnits e.1) e.2 else v) u
    else u) t

/-- The cycle count of the last vector begun at or before an instant; 0 where the sequencer is STOPPED (R370). -/
def State.cycleAt (s : State) (b v : Nat) : Nat :=
  match s.bayOf b with
  | none => 0
  | some q =>
    if s.seqState q = 0 then 0
    else ((((s.seqX q).begun.filter fun e => decide (fuUnits e.1 ≤ v)).getLast?).map (·.2)).getD 0

/-- The FREE tags of a bay up to the present boundary; `n` bounds their number. (DEDUCED, log entry 77.) -/
def State.freeTags (s : State) (b : Nat) : Nat → State
  | 0 => s
  | n + 1 =>
    let x := s.adc b
    match x.nextTag with
    | some u =>
      if x.locked b = false ∧ x.visit.isSome ∧ u ≤ s.ticks * tickUnits then
        let t := s.setAdc b { x with nextTag := some (u + x.freeStep b) }
        (t.addTag b u (t.cycleAt b u)).freeTags b n
      else s
    | none => s

/-! ### Visits (R363 to R366, R372) -/

/-- ADC_STAT.STATE and ENTRY as the visit in progress gives them. -/
def State.showVisit (s : State) (b : Nat) : State :=
  let x := s.adc b
  let st := if x.urgent.isSome then 2 else if x.run then 1 else 0
  let t := s.set F.bayAdcStatState b 0 st
  match x.visit with
  | some v => t.set F.bayAdcStatEntry b 0 v.entry
  | none => t

/-- A change at the first sample after `v` (R372): outputs are suppressed until the chain has settled. -/
def State.adcChange (s : State) (b v : Nat) : State :=
  let x := s.adc b
  match x.visit with
  | some w =>
    ((s.setAdc b { x with visit := some { w with change := s.nextSample v } }).noteInput b w.entry v).set F.bayAdcStatSettling b 0 1
  | none => s

/-- The converter leaves an idle time behind: its history begins with the visit. -/
def State.freshCodes (s : State) (b : Nat) : State :=
  if (s.adc b).visit.isSome then s else s.setAdc b { (s.adc b) with codes := [], codeAt := none, inputs := [] }

/-- A visit of entry `e` begins with the first sample after `v`. -/
def State.beginVisit (s0 : State) (b e v : Nat) : State :=
  let s := if (s0.adc b).visit.isSome then s0.acqShort b else s0
  let t := s.freshCodes b
  (((t.setAdc b { (t.adc b) with visit := some { entry := e, change := t.nextSample v } }).noteInput b e v).set
    F.bayAdcStatSettling b 0 1).showVisit b

/-- Tags begin again at the first sample of a start or resumption in FREE mode; what was not delivered is discarded. -/
def State.restartTags (s : State) (b v : Nat) : State :=
  s.setAdc b { (s.adc b) with tags := [], nextTag := some (s.nextSample v) }

/-- The converter has no visit. -/
def State.adcIdle (s0 : State) (b : Nat) : State :=
  let s := if (s0.adc b).visit.isSome then s0.acqShort b else s0
  ((s.setAdc b { (s.adc b) with visit := none, tags := [], nextTag := none }).set F.bayAdcStatSettling b 0 0).showVisit b

/-- The sequence begins at ENT[0] (R364); while an urgent visit has the converter it begins after that. -/
def State.startSequence (s : State) (b v : Nat) : State :=
  let x := s.adc b
  let t := s.setAdc b { x with run := true, seqEntry := 0 }
  if x.urgent.isSome then t.showVisit b else (t.restartTags b v).beginVisit b 0 v

/-- The bay calibrates (R367). -/
def State.calibrating (s : State) (b : Nat) : Bool := testBit (s.get F.calStatusBusy) b

/-- Counts a discard during calibration (R367). -/
def State.adcBusy (s : State) (b : Nat) : State := s.count F.bayAdcCountsBusyDiscard F.bayAdcCountsSaturated b 0 1

/-- A sequence trigger (R364). -/
def State.seqTrigger (s : State) (b : Nat) (src : Src) : State :=
  if s.calibrating b then s.adcBusy b
  else
    s.onObj (.adcSeq b) 5 (srcRank src) 1 fun t =>
      let x := t.adc b
      if x.run = false ∨ x.get F.bayAdcCfgRestart b = 1 then t.startSequence b (t.ticks * tickUnits)
      else t.count F.bayAdcCountsTrigOverrun F.bayAdcCountsSaturated b 0 1

/-- A stop of the sequence (R365). -/
def State.adcStop (s : State) (b : Nat) : State :=
  let x := s.adc b
  let t := s.setAdc b { x with run := false }
  if x.urgent.isSome then t.showVisit b else t.adcIdle b

/-- The urgent visit has ended at `v`: a running sequence resumes (R366). -/
def State.endUrgent (s : State) (b v : Nat) : State :=
  let x := s.adc b
  let t := s.setAdc b { x with urgent := none, urgentAcc := {} }
  if x.run then (t.restartTags b v).beginVisit b x.seqEntry v else t.adcIdle b

/-- An urgent request (R366). -/
def State.urgentRequest (s : State) (b e : Nat) (src : Src) : State :=
  if s.calibrating b then s.adcBusy b
  else
    let x := s.adc b
    let running : Bool := match x.urgent with
      | some k => decide (k < s.ticks)
      | none => false
    if running then s.count F.bayAdcCountsUrgentBusy F.bayAdcCountsSaturated b 0 1
    else
      s.onObj (.adcUrgent b) 5 (srcRank src) (e + 1) fun t =>
        let y := t.adc b
        let v := t.ticks * tickUnits
        let u := t.setAdc b { y with urgent := some t.ticks, urgentAcc := {} }
        (if y.visit.isSome then u else u.restartTags b v).beginVisit b e v

/-- An urgent cancel (R366). -/
def State.urgentCancel (s : State) (b : Nat) (src : Src) : State :=
  s.onObj (.adcUrgent b) 2 (srcRank src) 2 fun t =>
    if (t.adc b).urgent.isSome then t.endUrgent b (t.ticks * tickUnits) else t

/-- What R372 names among the settings in force, for a visit of entry `e`. -/
def AdcX.chain (x : AdcX) (b e : Nat) : List Nat :=
  let i := x.get F.bayAdcEntInput b e
  [i, x.get F.bayAdcEntGain b e, x.get F.bayAdcEntDwell b e, x.get F.bayAdcFiltW b, x.get F.bayAdcFiltR b,
    x.get F.bayAdcFiltK b, x.get F.bayAdcFiltRsMode b, x.get F.bayAdcFiltOutVectors b, x.get F.bayAdcRatioRatio b,
    x.get F.bayAdcDelayDint b i, x.get F.bayAdcDelayDfrac b i]

/-- The settings that the staged registers give. -/
def State.stagedAdc (s : State) (b : Nat) : List (RegKey × Word) :=
  (adcStaged b).foldl (fun l k => Assoc.wr RegKey.before resetWord l k (s.rd k)) []

/-- A sequence commit (R378). -/
def State.adcCommit (s : State) (b : Nat) : State :=
  let x := s.adc b
  let y := { x with act := s.stagedAdc b }
  let v := s.ticks * tickUnits
  let t := s.setAdc b y
  let t := if y.get F.bayAdcCfgRefSel b ≠ x.get F.bayAdcCfgRefSel b then
      (t.set F.bayAdcStatRefReady b 0 0).set F.bayAdcStatSettling b 0 1
    else t
  let mode := y.get F.bayAdcFiltRsMode b
  let t := if mode = x.get F.bayAdcFiltRsMode b then t
    else t.setAdc b { (t.adc b) with tags := [], nextTag := if mode = 0 then some (t.nextSample v) else none }
  let e := if x.seqEntry < y.get F.bayAdcCfgLen b then x.seqEntry else 0
  let t := t.setAdc b { (t.adc b) with seqEntry := e }
  match x.visit with
  | none => t
  | some w =>
    let e' := if x.urgent.isSome then w.entry else e
    if e' = w.entry ∧ y.chain b e' = x.chain b w.entry then t
    else if x.urgent.isSome then t.adcChange b v
    else t.beginVisit b e' v

/-! ### Outputs (R370 to R372) -/

/-- The tag instant and cycle count, the signal instant and the delivery of the first output not delivered of a visit of
entry `e`, once they are known (R371). -/
def AdcX.nextOutput (x : AdcX) (b e : Nat) : Option (Nat × Nat × Nat × Nat) :=
  let i := x.get F.bayAdcEntInput b e
  let n := x.get F.bayAdcDelayDint b i
  let f := x.get F.bayAdcDelayDfrac b i
  match x.tags, x.tags[n]? with
  | (tag, cyc) :: _, some (u, _) =>
    let next : Option Nat := match x.tags[n + 1]? with
      | some (v, _) => some v
      | none => if x.locked b then none else some (u + x.freeStep b)
    let out := fun (t v : Nat) =>
      let d := t + (12 + x.lag b) * sampleUnits + fuUnits 16384
      some (tag, cyc, t, if x.locked b then max d (v - fuUnits 49152) else d)
    if f = 0 then out u u
    else
      match next with
      | some v => out (u + (v - u) * f / 256) v
      | none => none
  | _, _ => none

/-- A value as the filter chain stores it: beyond ±(2^23 − 1) the nearer bound (R362). -/
def clipValue (v : Int) : Int := max (-8388607) (min 8388607 v)

/-- An output added to an accumulator (R375). -/
def Acc.add (a : Acc) (v : Int) : Acc :=
  let n := a.sum + v
  let m := max (-140737488355328) (min 140737488355327 n)
  { sum := m, sumSat := a.sumSat || decide (m ≠ n), cnt := min 4294967295 (a.cnt + 1),
    cntSat := a.cntSat || decide (a.cnt = 4294967295), least := min a.least v, most := max a.most v }

/-! ### Windows (R376, R377) -/

/-- The running accumulator of an entry. -/
def State.acc (s : State) (b e : Nat) : Acc := unitAt {} (s.adc b).accs e

/-- The result registers of an entry are written from its accumulator (R377). -/
def State.writeResult (s : State) (b e : Nat) : State :=
  let a := s.acc b e
  let t := (s.set F.bayAdcResSumSum b e (unsigned 48 a.sum)).setBit F.bayAdcResSumSaturated b e a.sumSat
  let t := (t.set F.bayAdcResSumValid b e 1).set F.bayAdcResSumStale b e 0
  let t := (t.set F.bayAdcResCntCount b e a.cnt).setBit F.bayAdcResCntSaturated b e a.cntSat
  (t.set F.bayAdcResMinmaxMin b e (unsigned 24 a.least)).set F.bayAdcResMinmaxMax b e (unsigned 24 a.most)

/-- The window closes with the tag cycle count, or ETCOUNT, `cyc` (R377). -/
def State.closeAdcWindow (s : State) (b cyc : Nat) : State :=
  let t := (List.range 16).foldl (fun (u : State) e => u.writeResult b e) s
  let n := (t.get F.bayAdcWinWindowSeq b + 1) % 65536
  let t := (t.setAdc b { (t.adc b) with accs := [] }).set F.bayAdcWinWindowSeq b 0 n
  let t := (t.set F.bayAdcWinOpenCycle b 0 (t.adc b).opened).set F.bayAdcWinCloseCycle b 0 cyc
  let t := t.set F.bayAdcWinOpen b 0 0
  let t := if t.bit F.bayAdcAccCfgResultEvent b then t.post 0x0B01 b (n + cyc % 2 ^ 64 * 2 ^ 32) else t
  if t.bit F.bayAdcAccCfgResultFlagEn b then
    t.setFlags (t.get F.bayAdcAccCfgResultThread b) (2 ^ t.get F.bayAdcAccCfgResultFlag b) .hw
  else t

/-- The window opens. -/
def State.openAdcWindow (s : State) (b cyc : Nat) : State :=
  (s.setAdc b { (s.adc b) with opened := cyc, accs := [] }).set F.bayAdcWinOpen b 0 1

/-- An open of an open window, or a close of a closed one. -/
def State.winOrphan (s : State) (b : Nat) : State :=
  s.set F.bayAdcWinWinOrphan b 0 (min 32767 (s.get F.bayAdcWinWinOrphan b + 1))

/-- An edge acts at the output of tag cycle count `cyc` (R376). -/
def State.windowEdge (s : State) (b action cyc : Nat) : State :=
  let o := s.bit F.bayAdcWinOpen b
  if action = 0 then (if o then s.winOrphan b else s.openAdcWindow b cyc)
  else if action = 1 then (if o then s.closeAdcWindow b cyc else s.winOrphan b)
  else if action = 2 then (if o then s.closeAdcWindow b cyc else s.winOrphan b).openAdcWindow b cyc
  else (if o then s.closeAdcWindow b cyc else s)

/-- The edges at or before the tag instant `u` act, in order. -/
def State.edgesTo (s : State) (b u cyc : Nat) : List (Nat × Nat × Option Nat) → State
  | [] => s.setAdc b { (s.adc b) with edges := [] }
  | (v, a, et) :: es =>
    if v ≤ u then (s.windowEdge b a (et.getD cyc)).edgesTo b u cyc es
    else s.setAdc b { (s.adc b) with edges := (v, a, et) :: es }

/-- A window edge is placed. -/
def State.addEdge (s : State) (b v a : Nat) (et : Option Nat) : State :=
  s.setAdc b { (s.adc b) with edges := (s.adc b).edges ++ [(v, a, et)] }

/-- A MEASURE record's edge (R107, R376); with TRIG_SRC = 1 an opening record is a sequence trigger too (R364). -/
def State.measureEdge (s : State) (b a start q : Nat) : State :=
  let t := if (s.adc b).winTime then s else s.addEdge b (fuUnits start) a none
  if (a = 0 ∨ a = 2) ∧ (t.adc b).get F.bayAdcCfgTrigSrc b = 1 then t.seqTrigger b (.seq q) else t

/-- A sequencer's stop closes the open windows of its bays after their last tagged outputs (R376). -/
def State.stopWindows (s : State) (q endFu : Nat) : State :=
  (s.baysOf q).foldl (fun (t : State) b => if (t.adc b).winTime then t else t.addEdge b (fuUnits endFu) 4 (some (t.adc b).lastCyc)) s

/-- WIN_MODE is committed at a boundary, and TIME windows close and reopen (R376). -/
def State.timeWindow (s : State) (b : Nat) : State :=
  let x := s.adc b
  let want := s.bit F.bayAdcAccCfgWinMode b
  let et := s.get F.clkEtcountCount
  let v := s.ticks * tickUnits
  let next := s.ticks + s.get F.bayAdcAccCfgWinEt b
  if want = false then (if x.winTime then s.setAdc b { x with winTime := false } else s)
  else if x.winTime = false then
    (s.setAdc b { x with winTime := true, winAt := next }).addEdge b v 0 (some et)
  else if x.winAt ≤ s.ticks then (s.setAdc b { x with winAt := next }).addEdge b v 2 (some et)
  else s

/-! ### Banks (R373, R374) -/

/-- A bank request. (DEDUCED, log entry 78.) -/
def State.bankRequest (s : State) (b bank : Nat) : State :=
  let x := s.adc b
  if x.fade.isSome then (s.setAdc b { x with held := some bank }).set F.bayAdcStatSwapHeld b 0 1
  else s.setAdc b { x with bankWant := some bank }

/-- A bank request is handled at an output delivered at `d`: whether the banks have swapped there. -/
def State.bankStep (s : State) (b d : Nat) : Bool × State :=
  let x := s.adc b
  let bank := s.get F.bayAdcStatBank b
  let step := fun (t : State) (j n k : Nat) =>
    if n ≤ j + 1 then
      ((((t.setAdc b { (t.adc b) with fade := none, bankWant := (t.adc b).held, held := none }).set F.bayAdcStatBank b 0 k).set
        F.bayAdcStatFading b 0 0).set F.bayAdcStatSwapHeld b 0 0)
    else (t.setAdc b { (t.adc b) with fade := some (j + 1, n, k) }).set F.bayAdcStatFading b 0 1
  match x.fade with
  | some (j, n, k) => (false, step s j n k)
  | none =>
    match x.bankWant with
    | none => (false, s)
    | some k =>
      let t := s.setAdc b { x with bankWant := none }
      if k = bank then (false, t)
      else if x.get F.bayAdcFiltFade b = 0 then (true, (t.set F.bayAdcStatBank b 0 k).adcChange b d)
      else (false, step t 0 (x.get F.bayAdcFiltFade b) k)

/-! ### Calibration, alignment and reset -/

/-- Calibration of the bay begins (R367): the sequence stops, an urgent visit ends, and the results read STALE. -/
def State.adcCalibrate (s : State) (b : Nat) : State :=
  let t := (s.setAdc b { (s.adc b) with run := false, urgent := none, urgentAcc := {} }).adcIdle b
  (List.range 16).foldl (fun (u : State) e => u.set F.bayAdcResSumStale b e 1) (t.set F.bayAdcUrgentResStale b 0 1)

/-- An alignment edge in align mode re-phases the sampling clocks (R358): what is in flight is discarded, and visits in
progress restart their dwells. -/
def State.adcRephase (s : State) : State :=
  (List.range 8).foldl (fun (t : State) b =>
    let x := t.adc b
    let v := t.ticks * tickUnits
    (t.setAdc b { x with tags := [], codes := [], codeAt := none, nextTag := x.nextTag.map fun _ => t.nextSample v }).adcChange b v) s

end Sys2Proof.Machine
end

