-- ==== Sys2Proof/Machine/OpsTime.lean ====
section
/-!
DEFINITION. OpsTime.lean: the timebase: domain clocks and servos, switches and steps, lockstep, and the raising schedule
(08_station_time_and_raisings.md, R235 to R264).
-/
namespace Sys2Proof.Machine

/-- The servo of domain `d`. -/
def State.servo (s : State) (d : Nat) : Servo := if d = 0 then s.time.servo0 else s.time.servo1

/-- Stores the servo of domain `d`. -/
def State.setServo (s : State) (d : Nat) (v : Servo) : State :=
  if d = 0 then { s with time := { s.time with servo0 := v } } else { s with time := { s.time with servo1 := v } }

/-- `x` clamped to lo … hi. -/
def clampInt (lo hi x : Int) : Int := max lo (min hi x)

/-- `x / n` rounded to the nearest integer, ties away from zero (R240); `n` positive. -/
def roundDiv (x : Int) (n : Nat) : Int :=
  if 0 ≤ x then (2 * x + n) / (2 * n) else -((2 * -x + n) / (2 * n))

/-- NOMINAL + TRIM, clamped to the range of the NOMINAL field: what R240 and R242 use for NOMINAL (R444). -/
def State.nominal (s : State) (d : Nat) : Int :=
  clampInt 3575560274 3582718552 (s.get F.domNominalNominal d + s.getS F.calTimeTrimTrim)

/-- The bounds of ADDEND: NOMINAL ± 1,000 ppm (R240). -/
def State.addendBounds (s : State) (d : Nat) : Int × Int :=
  let n : Int := s.nominal d
  (n - n / 1000, n + n / 1000)

/-- The addend for a correction `c`, which is in units of 2⁻²⁴ of an addend unit (8 fractional bits of gain, 16 of θ).
(DEDUCED, log entry 57.) -/
def State.addendFor (s : State) (d : Nat) (c : Int) : Int × Bool :=
  let n : Int := s.nominal d
  let raw := roundDiv (n * 16777216 - c) 16777216
  let a := clampInt (s.addendBounds d).1 (s.addendBounds d).2 raw
  (a, decide (a ≠ raw))

/-- KP, KI and ILIMIT of domain `d` as the changes in order leave them: the last write that waits for its boundary, or the register
(R246). -/
def State.gains (s : State) (d : Nat) : Nat × Nat × Nat :=
  s.time.pendingChanges.foldl (fun g e => match e.2 with
    | .gain n kp ki lim => if n = d then (kp, ki, lim) else g
    | _ => g) (s.get F.domGainKp d, s.get F.domGainKi d, s.get F.domGainIlimit d)

/-- The correction of R240 from the integrator and a sample. -/
def State.correction (s : State) (d : Nat) (theta integ : Int) : Int :=
  (s.gains d).1 * theta + (s.gains d).2.1 * integ

/-- The addend of the state HOLDOVER, NOMINAL − KI × I, and whether it is clamped (R242). -/
def State.holdoverAddend (s : State) (d : Nat) : Int × Bool := s.addendFor d (s.correction d 0 (s.servo d).integ)

/-- The device is a lockstep follower: it ignores writes to its domain registers and selections (R250). -/
def State.isFollower (s : State) : Bool := decide (s.get F.timeCtrlLockstep = 2)

/-- The device is a follower in lockstep: its clocks are its leader's (R250). -/
def State.inLockstep (s : State) : Bool := s.isFollower && s.bit F.timeStatusLockstepOk

/-- The device is a lockstep leader (R249). -/
def State.isLeader (s : State) : Bool := decide (s.get F.timeCtrlLockstep = 1)

/-- Any raising schedule entry is SCHEDULED (R247, R259). -/
def State.anyScheduled (s : State) : Bool := (List.range 16).any (fun e => s.bit F.timeRaiseNsScheduled 0 e)

/-! ### Changes of the timebase (R243, R245, R246, R249) -/

/-- The clocks after a change: a switch keeps station time continuous (R243), a step moves one domain (R245). -/
def Clocks.change (c : Clocks) : TimeChange → Clocks
  | .addend d a => if d = 0 then { c with add0 := a } else { c with add1 := a }
  | .gain _ _ _ _ => c
  | .step d ns => if d = 0 then { c with dom0 := c.dom0 + ns * 4294967296 } else { c with dom1 := c.dom1 + ns * 4294967296 }
  | .select d => { c with sel := d, delta := c.station - c.dom d }
  | .selectOnly d => { c with sel := d }
  | .slew v => { c with delta := v }

/-- The entries of a timeline that tell the clocks of core tick `u` and of all later ones. -/
def timelineFrom (u : Nat) : List (Nat × Clocks) → List (Nat × Clocks)
  | [] => []
  | e :: es => if e.1 ≤ u then [e] else e :: timelineFrom u es

/-- The clocks are `f` of themselves from core tick `u` on. What is older than the longest wait for a check message, 2²¹ event ticks
(R251), is forgotten. -/
def State.changeAt (s : State) (u : Nat) (f : Clocks → Clocks) : State :=
  let v := max u s.timeFront
  let c := f (s.clocksAt v)
  let l := (v, c) :: timelineFrom (v - 16777216) (s.time.timeline.filter fun e => decide (e.1 < v))
  ({ s with time := { s.time with timeline := l } }).setBit F.timeStatusSlewing 0 0 (decide (c.delta ≠ 0))

/-- A change of R246 acts at core tick `u`. -/
def State.applyChange (s : State) (u : Nat) (c : TimeChange) : State :=
  let t := s.changeAt u fun k => k.change c
  match c with
  | .addend d a => t.set F.domAddendAddend d 0 a
  | .gain d kp ki lim => ((s.set F.domGainKp d 0 kp).set F.domGainKi d 0 ki).set F.domGainIlimit d 0 lim
  | .step d _ => t.hwSet F.domStatusStepped d 0
  | .select d => t.set F.timeStatusSelected 0 0 d
  | .selectOnly d => (t.set F.timeStatusSelected 0 0 d).set F.timeCtrlSelect 0 0 d
  | .slew _ => t

/-- The core tick of the boundary at which ETCOUNT reads, or read, `b`. -/
def State.boundaryCt (s : State) (b : Nat) : Nat :=
  let n := s.get F.clkEtcountCount
  s.time.ct + 8 * (b - n) - 8 * (n - b)

/-- The clocks at the coming boundary `b`, with the changes that wait for a boundary up to it (R249). -/
def State.foresee (s : State) (b : Nat) : Clocks :=
  let r := s.time.pendingChanges.foldl (fun (e : Nat × Clocks) p =>
    if p.1 ≤ b then
      let u := max e.1 (s.boundaryCt p.1)
      (u, (e.2.pass (u - e.1)).change p.2)
    else e) (s.timeFront, s.newClocks)
  r.2.pass (s.boundaryCt b - r.1)

/-- The selection as the changes in order leave it: the last one that waits for its boundary, or SELECTED (R246). -/
def State.lastSelect (s : State) : Nat :=
  s.time.pendingChanges.foldl (fun m e => match e.2 with
    | .select d => d
    | .selectOnly d => d
    | _ => m) (s.get F.timeStatusSelected)

/-- The payload of a TICK CHANGE frame (R282). -/
def changePayload (kind d boundary : Nat) (value : Int) : List Nat :=
  0 :: kind :: d :: 0 :: 0 :: 0 :: 0 :: 0 :: (bytesOf boundary 8 ++ bytesOf (unsigned 96 value) 12)

/-- The CHANGE frames of a change at boundary `b`: kind, domain and value (R249, R282); a switch sends its Δ, that of the start of its
slew, in a frame of its own. -/
def State.changeFrames (s : State) (b : Nat) : TimeChange → List (Nat × Nat × Int)
  | .addend d a => [(0, d, a)]
  | .gain _ _ _ _ => []
  | .step d ns => [(1, d, ns)]
  | .select d => [(2, d, d), (3, d, ((s.foresee b).change (.select d)).delta)]
  | .selectOnly d => [(2, d, d)]
  | .slew v => [(3, 0, v)]

/-- A change sampled at event tick j acts at the first core tick after boundary j, or at boundary j + LEAD on a lockstep leader, which
also sends it (R246, R249). -/
def State.makeChange (s : State) (c : TimeChange) : State :=
  if s.isLeader then
    let b := s.get F.clkEtcountCount + s.get F.timeCtrlLead
    (s.changeFrames b c).foldl (fun (t : State) e => t.originate 5 1 (changePayload e.1 e.2.1 b e.2.2))
      { s with time := { s.time with pendingChanges := s.time.pendingChanges ++ [(b, c)] } }
  else s.applyChange (s.time.ct + 1) c

/-- Requests a step of domain `d` (R245, R247). (DEDUCED, log entry 110.) -/
def State.requestStep (s : State) (d : Nat) (ns : Int) : Bool × State :=
  if s.lastSelect = d ∧ (10000 < ns ∨ ns < -10000) ∧ s.anyScheduled then
    (false, s.hwSet F.domStatusStepRefused d 0)
  else (true, s.makeChange (.step d ns))

/-- A selection of domain `d`, which SELECT shows (R243); selecting the domain that is selected changes nothing more. -/
def State.requestSelect (s : State) (d : Nat) : State :=
  let t := s.set F.timeCtrlSelect 0 0 d
  if t.lastSelect = d then t else t.makeChange (.select d)

/-! ### Servos (R239 to R242, R244) -/

/-- A servo's new addend; a clamp sets CLAMPED (R240, R242). -/
def State.newAddend (s : State) (d : Nat) (a : Int × Bool) : State :=
  let t := s.makeChange (.addend d a.1.toNat)
  if a.2 then t.hwSet F.domStatusClamped d 0 else t

/-- A domain servo enters HOLDOVER (R242). A follower in lockstep keeps its leader's addend (R250). -/
def State.servoHold (s : State) (d : Nat) : State :=
  let t := s.set F.domStatusState d 0 3
  if s.inLockstep then t else t.newAddend d (t.holdoverAddend d)

/-- A domain servo enters HOLDOVER by itself (R242), and the selection moves to a LOCKED other domain under AUTOSWITCH (R244); in
lockstep the selection is the leader's (R250). -/
def State.enterHoldover (s : State) (d : Nat) : State :=
  let t := s.servoHold d
  let o := 1 - d
  if t.bit F.timeCtrlAutoswitch ∧ t.lastSelect = d ∧ t.get F.domStatusState o = 2 ∧ t.inLockstep = false then
    ((t.requestSelect o).hwSet F.timeStatusSwitched 0 0).post 0x0601 o 0
  else t

/-- The path-delay gate rejects a sample (R239). -/
def State.gated (s : State) (d delay : Nat) : Bool :=
  let g := s.get F.domCtrlGate d
  let ds := (s.servo d).delays
  decide (g ≠ 0) && !ds.isEmpty && decide (ds.foldl min (ds.headD 0) + g * 65536 < delay)

/-- The state of the servo after an accepted sample (R242). -/
def State.servoState (s : State) (d : Nat) (theta : Int) (good : Nat) : Nat :=
  let st := s.get F.domStatusState d
  if s.get F.domLockLockCount d ≤ good then 2
  else if st = 3 then 1
  else if st = 2 ∧ 4 * s.get F.domLockLockNs d * 65536 < theta.natAbs then 1
  else if st = 0 then 1
  else st

/-- What an accepted sample means for the servo's state (R242). -/
def State.countSample (s : State) (d : Nat) (theta : Int) : State :=
  let sv := s.servo d
  let good := if theta.natAbs ≤ s.get F.domLockLockNs d * 65536 then sv.good + 1 else 0
  (s.setServo d { sv with good := good, lastAccept := s.ticks }).set F.domStatusState d 0 (s.servoState d theta good)

/-- An accepted sample (R240, R241, R242): beyond STEP_NS it requests a step, and has no further effect where that is refused. -/
def State.acceptSample (s : State) (d : Nat) (theta : Int) : State :=
  if s.get F.domCtrlStepNs d * 65536 < theta.natAbs ∧ s.bit F.domCtrlStepAuto d then
    match s.requestStep d (-(roundDiv theta 65536)) with
    | (true, u) =>
      let v := u.countSample d theta
      v.setServo d { (v.servo d) with integ := 0 }
    | (false, u) => u
  else
    let lim : Int := (s.gains d).2.2 * 65536
    let i := clampInt (-lim) lim ((s.servo d).integ + theta)
    let t := s.countSample d theta
    (t.setServo d { (t.servo d) with integ := i }).newAddend d (t.addendFor d (t.correction d theta i))

/-- Something reaches the timebase (R246). -/
def State.ask (s : State) (a : TimeAsk) : State := { s with time := { s.time with asks := s.time.asks ++ [a] } }

/-- A write of SAMPLE_OFFSET submits a sample with the present SAMPLE_DELAY (R239): it is rejected and counted, or it reaches the
servo. -/
def State.submitSample (s : State) (d : Nat) (theta : Int) : State :=
  if s.isFollower then s
  else
    let delay := s.get F.domSampleDelayDelay d
    let sv := s.servo d
    let t := s.setServo d { sv with delays := (delay :: sv.delays).take 16 }
    if s.bit F.domCtrlEnable d = false ∨ s.bit F.clkStatusRefLost ∨ s.gated d delay then
      t.count F.domStatusRejectCount F.domStatusSaturated d 0 1
    else t.ask (.sample d theta)

/-- DOM[d].CTRL.INT_CLEAR zeroes I (R240). -/
def State.intClear (s : State) (d : Nat) : State := s.setServo d { (s.servo d) with integ := 0 }

/-- What has reached the timebase acts, one at a time and in order, after the tick's schedules and cancels (R246, R247). -/
def State.timeActs (s : State) : State :=
  s.time.asks.foldl (fun (t : State) a => match a with
    | .sample d theta => t.acceptSample d theta
    | .clearI d => t.intClear d
    | .step d ns => (t.requestStep d ns).2
    | .write c => t.makeChange c
    | .select d => t.requestSelect d) { s with time := { s.time with asks := [] } }

/-! ### Followers (R250, R251) -/

/-- A follower leaves lockstep (R251): its domains go on in HOLDOVER from its own copy, addends included. (DEDUCED, log entry 27.) -/
def State.loseLockstep (s : State) : State :=
  if s.bit F.timeStatusLockstepOk then
    let t := (s.setBit F.timeStatusLockstepOk 0 0 false).hwSet F.timeStatusLockstepLost 0 0
    let u := ((t.set F.domStatusState 0 0 3).set F.domStatusState 1 0 3)
    { u with time := { u.time with pendingChanges := [], checkA := none, checkB := none } }
  else s

/-- The clocks of a check message, at the boundary that it names (R249). -/
def checkClocks (a : Nat × Int × Int) (b : Nat × Nat × Nat × Int × Nat) : Clocks :=
  { dom0 := a.2.1, dom1 := a.2.2, add0 := b.2.1, add1 := b.2.2.1, delta := b.2.2.2.1, sel := b.2.2.2.2 }

/-- A joining follower loads the state of a check message, and the changes of the boundaries since then (R250). -/
def State.joinLockstep (s : State) (bound : Nat) (c : Clocks) : State :=
  let n := s.get F.clkEtcountCount
  let l := s.time.pendingChanges
  let t := { s with time := { s.time with joining := false, pendingChanges := l.filter (fun e => decide (n < e.1))
                                          timeline := [(s.boundaryCt bound, { c with slew := s.newClocks.slew })] } }
  let t := (t.set F.domAddendAddend 0 0 c.add0).set F.domAddendAddend 1 0 c.add1
  let t := ((t.set F.timeStatusSelected 0 0 c.sel).set F.timeCtrlSelect 0 0 c.sel).setBit F.timeStatusSlewing 0 0
    (decide (c.delta ≠ 0))
  ((l.filter fun e => decide (bound < e.1) && decide (e.1 ≤ n)).foldl
    (fun (u : State) e => u.applyChange (u.boundaryCt e.1) e.2) t).set F.timeStatusLockstepOk 0 0 1

/-- Both halves of a check message are there (R250, R251, R282): a joining follower loads the state, if it is tick-aligned (R248); a
follower in lockstep compares it with its own state at the boundary that it names. -/
def State.applyCheck (s : State) (a : Nat × Int × Int) (b : Nat × Nat × Nat × Int × Nat) : State :=
  let t := { s with time := { s.time with checkA := none, checkB := none, lastCheck := s.ticks } }
  let c := checkClocks a b
  if t.time.joining then (if t.bit F.clkStatusTickAligned then t.joinLockstep a.1 c else t)
  else if t.bit F.timeStatusLockstepOk then
    let own := t.clocksAt (t.boundaryCt a.1)
    if { own with slew := c.slew } = c then t else t.loseLockstep
  else t

/-- A check message whose boundary is reached is taken (R250, R251). -/
def State.takeCheck (s : State) : State :=
  match s.time.checkA, s.time.checkB with
  | some a, some b => if a.1 = b.1 ∧ a.1 ≤ s.get F.clkEtcountCount then s.applyCheck a b else s
  | _, _ => s

/-- Changes of the timebase whose boundary is reached act (R249, R250); while a follower joins, they wait for the check message. -/
def State.dueChanges (s : State) : State :=
  let n := s.get F.clkEtcountCount
  if s.time.joining then s.takeCheck
  else
    ((s.time.pendingChanges.filter fun e => decide (e.1 ≤ n)).foldl (fun (t : State) e => t.applyChange t.time.ct e.2)
      { s with time := { s.time with pendingChanges := s.time.pendingChanges.filter fun e => decide (n < e.1) } }).takeCheck

/-! ### Pulse per second (R257) -/

/-- PPS_OUT falls. -/
def State.ppsLow (s : State) : State :=
  if s.time.ppsFalls.isNone then s else ({ s with time := { s.time with ppsFalls := none } }).emit .ppsLow

/-- The second that a time lies in. -/
def wholeSecond (t : Int) : Int := t / secondUnits

/-- Where within the present event tick the time of a source passes a whole second, in fu after its boundary (R257): where it runs over
it, or the core tick after the one at which a step or a switch carries it past. -/
def State.ppsEdge (s : State) (source : Nat) : Option Nat :=
  (List.range 8).findSome? fun i =>
    let a := (s.clocksIn i).source source
    let n := ((s.clocksIn i).pass 1).source source
    if wholeSecond a < wholeSecond n then
      some (i * 1024 + ((wholeSecond n * secondUnits - a) * 1024 / (n - a)).toNat)
    else if wholeSecond a < wholeSecond ((s.clocksIn (i + 1)).source source) then some ((i + 2) * 1024)
    else none

/-! ### The raising schedule (R259 to R264) -/

/-- The instant T of entry `e`. -/
def State.raiseInstant (s : State) (e : Nat) : Int :=
  instant (s.get F.timeRaiseSecSeconds 0 e) (s.get F.timeRaiseNsNanoseconds 0 e) (s.get F.timeRaiseNsFraction 0 e)

/-- RAISE_PENDING of TIME.STATUS (R259). -/
def State.updatePending (s : State) : State := s.setBit F.timeStatusRaisePending 0 0 s.anyScheduled

/-- A raising operation: its entry, tag, instant, participants and origin. -/
structure RaiseOp where
  entry : Nat
  tag   : Nat
  sec   : Nat
  ns    : Nat
  frac  : Nat
  mask  : Nat
  origin : Nat

/-- The effect number of a schedule: same tag and instant merge (R264). -/
def RaiseOp.effect (r : RaiseOp) : Nat := 2 + r.tag + r.frac * 2 ^ 16 + r.ns * 2 ^ 32 + r.sec * 2 ^ 64

/-- Sets entry `e` to SCHEDULED. -/
def State.putRaise (s : State) (r : RaiseOp) : State :=
  let e := r.entry
  let t := (s.set F.timeRaiseSecSeconds 0 e r.sec).set F.timeRaiseSecTag 0 e r.tag
  let u := ((t.set F.timeRaiseNsNanoseconds 0 e r.ns).set F.timeRaiseNsFraction 0 e r.frac).set F.timeRaiseNsSeqmask 0 e r.mask
  ((u.set F.timeRaiseNsScheduled 0 e 1).set F.timeRaiseNsOrigin 0 e r.origin).updatePending

/-- A schedule sampled at the present boundary (R260): its completion status. -/
def State.schedule (s : State) (r : RaiseOp) (src : Src) : Nat × State :=
  if instant r.sec r.ns r.frac ≤ s.station then (0x0A, s)
  else if s.bit F.timeRaiseNsScheduled 0 r.entry ∧ s.get F.timeRaiseSecTag 0 r.entry ≠ r.tag then (0x0B, s)
  else
    match s.decideEvent (.raise r.entry) 4 (srcRank src) r.effect with
    | (.acts, t) => (0, t.putRaise r)
    | (.merged, t) => (0, t)
    | (.superseded, t) => (2, t)

/-- A cancel sampled at the present boundary (R260): its completion status. -/
def State.cancelRaise (s : State) (e tag : Nat) (src : Src) : Nat × State :=
  if s.bit F.timeRaiseNsScheduled 0 e ∧ s.get F.timeRaiseSecTag 0 e = tag then
    match s.decideEvent (.raise e) 2 (srcRank src) 2 with
    | (.acts, t) => (0, (t.set F.timeRaiseNsScheduled 0 e 0).updatePending)
    | (.merged, t) => (0, t)
    | (.superseded, t) => (2, t)
  else
    match s.decider (.raise e) with
    | some d => if d.cls = 2 ∧ s.get F.timeRaiseSecTag 0 e = tag then (0, s) else (0x0C, s)
    | none => (0x0C, s)

/-- The payload of a RAISE frame (R282). -/
def State.raisePayload (s : State) (cancel : Bool) (r : RaiseOp) : List Nat :=
  cancel.toNat :: r.entry :: (bytesOf r.tag 2 ++ bytesOf r.sec 6 ++ bytesOf r.ns 4 ++ bytesOf r.frac 2
    ++ (List.range 4).flatMap (fun i => bytesOf (s.get F.timeRaisePeermaskMask 0 i) 8))

end Sys2Proof.Machine
end

