-- ==== Sys2Proof/Machine/OpsGlobal.lean ====
section
/-!
DEFINITION. OpsGlobal.lean: global flags with what watches their changes, and remote arrivals at barriers (R103, R284, R388).
-/
namespace Sys2Proof.Machine

/-- The acquisition engines see the flags that the events of a tick have changed since the tick before (R56, R388). -/
def State.gfChanged (s : State) : State :=
  let new := s.get F.oluGflagsGf
  ((List.range 64).filter fun i => testBit s.gfPrev i != testBit new i).foldl
    (fun (t : State) i => t.acqGf i (testBit new i)) s

/-- Barrier `i` of SEQ[q] (R103). -/
def State.bar (s : State) (q i : Nat) : BarX := unitAt {} s.bars (8 * q + i)

/-- Stores a barrier. -/
def State.setBar (s : State) (q i : Nat) (b : BarX) : State := { s with bars := putUnit {} s.bars (8 * q + i) b }

/-- ARRIVED shows the remote arrivals of the present generation. -/
def State.showArrived (s : State) (q i : Nat) : State :=
  s.set F.seqBarrierArrived q i (min 63 (unitAt 0 (s.bar q i).rem (s.get F.seqBarrierGen q i)))

/-- A remote arrival at barrier `i` for generation `gen` counts for that barrier of every sequencer whose BARRIER register requires remote
arrivals (R284). It is kept for whatever generation it names. (DESIGN CHOICE, log entry 105.) -/
def State.remoteArrive (s : State) (i gen : Nat) : State :=
  ((List.range 4).filter fun n => decide (s.get F.seqBarrierRemote n i ≠ 0)).foldl (fun (u : State) n =>
    let b := u.bar n i
    (u.setBar n i { b with rem := putUnit 0 b.rem (gen % 16) (unitAt 0 b.rem (gen % 16) + 1) }).showArrived n i) s

end Sys2Proof.Machine
end

