-- ==== Sys2Proof/Machine/OpsCmp.lean ====
section
/-!
DEFINITION. OpsCmp.lean: strobes and windows, the delivery of their outcomes, the forming of fail records, the log queue and
its summaries, and capture (R85, R86, R93, R151 to R182).
-/
namespace Sys2Proof.Machine

/-! ### Outcomes (R151 to R158) -/

/-- The 2-bit code of R151. -/
def stateCode (high low : Bool) : Nat := 2 * high.toNat + low.toNat

/-- EXPECTED of a compare event (R169): 1 low, 2 high, 3 between thresholds, 0 none. -/
def expectedCode (code : Nat) : Nat :=
  if code = 4 ∨ code = 8 then 1 else if code = 5 ∨ code = 9 then 2 else if code = 6 ∨ code = 10 then 3 else 0

/-- The actual state that meets an expectation (R152). -/
def metBy (expected : Nat) : Nat := if expected = 3 then 0 else expected

/-- A sample of a comparator: its path time, round trip included, in fu, and its value. -/
abbrev Sample := Nat × Bool

/-- The value of the sample an event takes at its own path time. -/
def firstValue (l : List Sample) : Bool :=
  match l with
  | [] => false
  | e :: _ => e.2

/-- The grid oversamples of a path that a window includes (R155): after the opening path time, at or before the closing. -/
def included (opened closed : Nat) (l : List Sample) : List Sample :=
  l.filter fun e => decide (e.1 % 256 = 0) && decide (opened < e.1) && decide (e.1 ≤ closed)

/-- The earliest sample that differs from `want`. -/
def firstBad (want : Bool) (l : List Sample) : Option Nat :=
  l.foldl (fun m e => if e.2 = want then m else match m with
    | some t => some (min t e.1)
    | none => some e.1) none

/-- The latest sample at or before `t`, or `d`. -/
def lastBy (t : Nat) (d : Bool) (l : List Sample) : Bool :=
  (l.foldl (fun (m : Nat × Bool) e => if e.1 ≤ t ∧ m.1 ≤ e.1 then e else m) (0, d)).2

/-- A window's outcome (R155, R169): whether it fails, and ACTUAL. -/
def windowOutcome (w : Win) (closing : Ev) (high low : List Sample) : Bool × Nat :=
  let rt := w.ev.rtd * 1024
  let want := metBy (expectedCode w.ev.code)
  let a := (w.ev.pathA + rt, w.high) :: included (w.ev.pathA + rt) (closing.pathA + rt) high
  let b := (w.ev.pathB + rt, w.low) :: included (w.ev.pathB + rt) (closing.pathB + rt) low
  match firstBad (decide (want = 2)) a, firstBad (decide (want = 1)) b with
  | none, none => (false, stateCode (lastBy (closing.pathA + rt) w.high a) (lastBy (closing.pathB + rt) w.low b))
  | some t, none => (true, stateCode (lastBy t w.high a) (lastBy t w.low b))
  | none, some t => (true, stateCode (lastBy t w.high a) (lastBy t w.low b))
  | some t, some t' =>
    let u := min t t'
    (true, stateCode (lastBy u w.high a) (lastBy u w.low b))

/-- An outcome starts on its way to compare and mask. -/
def State.fly (s : State) (c : Nat) (f : Flight) : State :=
  s.setChan c { (s.chan c) with flight := (s.chan c).flight ++ [f] }

/-- A strobe samples CMPH and CMPL (R152). -/
def State.strobe (s : State) (c : Nat) (e : Ev) (high low : Bool) : State :=
  let act := stateCode high low
  let ex := expectedCode e.code
  (s.emit (.sample c (e.fineA + e.rtd * 1024) (e.fineB + e.rtd * 1024))).fly c
    { vec := e.vec, slot := e.slot, site := e.site, window := false, compares := decide (e.code ≠ 7),
      active := e.active, fail := decide (e.code ≠ 7) && decide (act ≠ metBy ex), expected := ex, actual := act,
      at_ := e.time, rtd := e.rtd }

/-- The open window of a channel closes at `e` and belongs to the vector of `e` (R156, R157). -/
def State.closeWindow (s : State) (c : Nat) (w : Win) (e : Ev) (high low : List Sample) : State :=
  let (bad, act) := windowOutcome w e high low
  (s.setChan c { (s.chan c) with win := none }).fly c
    { vec := e.vec, slot := e.slot, site := e.site, window := true, compares := true, active := e.active, fail := bad,
      expected := expectedCode w.ev.code, actual := act, at_ := e.time, rtd := e.rtd }

/-- A compare event is applied (R152 to R157). (DEDUCED, log entry 45.) -/
def State.applyCompare (s : State) (c : Nat) (e : Ev) (high low : List Sample) : State :=
  if e.code ≤ 7 then s.strobe c e (firstValue high) (firstValue low)
  else if e.code = 11 then
    match (s.chan c).win with
    | some w => s.closeWindow c w e high low
    | none => s.count F.bayCmpStatWindowOrphan F.bayCmpStatOrphanSaturated (c / 16) 0 1
  else
    let t := match (s.chan c).win with
      | some w => (s.closeWindow c w e high low).count F.bayCmpStatWindowReopen F.bayCmpStatReopenSaturated (c / 16) 0 1
      | none => s
    t.setChan c { (t.chan c) with win := some ⟨e, firstValue high, firstValue low⟩ }

/-! ### The log queue (R168 to R172) -/

/-- The log and capture of a sequencer. -/
def State.logX (s : State) (q : Nat) : LogX := unitAt {} s.logs q

/-- Stores the log and capture of a sequencer. -/
def State.setLogX (s : State) (q : Nat) (x : LogX) : State := { s with logs := putUnit {} s.logs q x }

/-- Places `e` in an ascending list. -/
def insertBy {A : Type} (key : A → Nat) (e : A) : List A → List A
  | [] => [e]
  | x :: xs => if key x ≤ key e then x :: insertBy key e xs else e :: x :: xs

/-- A list in ascending order of `key`. -/
def sortBy {A : Type} (key : A → Nat) (l : List A) : List A := l.foldl (fun acc e => insertBy key e acc) []

/-- The four words of a fail record (R168). -/
def Group.words (g : Group) : List Word :=
  [BitVec.ofNat 64 (g.cycle % 2 ^ 48 + g.vec.seq % 4 * 2 ^ 48 + g.bay % 8 * 2 ^ 50 + g.site % 32 * 2 ^ 53
      + g.slot % 8 * 2 ^ 58 + g.window.toNat * 2 ^ 63),
   BitVec.ofNat 64 (g.vec.vaddr % 2 ^ 38 + g.vec.epoch % 256 * 2 ^ 38 + g.mask % 65536 * 2 ^ 48),
   BitVec.ofNat 64 (g.expected % 2 ^ 32 + g.actual % 2 ^ 32 * 2 ^ 32),
   BitVec.ofNat 64 (g.vec.inner % 2 ^ 32 + g.vec.outer % 2 ^ 32 * 2 ^ 32)]

/-- The four words of a closed summary (R171). -/
def Summary.words (x : Summary) : List Word :=
  [x.word0, x.word1, x.word2, BitVec.ofNat 64 (min x.merged 4294967295 + min x.span 4294967295 * 2 ^ 32)]

/-- Opens a summary with record `g`. -/
def Group.summary (g : Group) : Summary :=
  { word0 := withBits (withBits (withBits (g.words.getD 0 0) 61 1 g.window.toNat) 62 1 g.window.toNat) 63 1 0
    word1 := withBits (g.words.getD 1 0) 46 2 1
    word2 := g.words.getD 2 0, cycle := g.cycle, site := g.site, merged := 1 }

/-- Merges record `g` into an open summary. -/
def Summary.merge (x : Summary) (g : Group) : Summary :=
  { x with
    word0 := (if g.site = x.site then x.word0 else withBits x.word0 63 1 1) |||
      (if g.window then withBits 0 62 1 1 else 0)
    word1 := x.word1 ||| withBits 0 48 16 g.mask
    merged := x.merged + 1
    span := g.cycle - x.cycle }

/-- A record enters the log queue, or is merged (R170); with ENABLE = 0 it is discarded (R175). -/
def State.enterLog (s : State) (q : Nat) (g : Group) : State :=
  if s.bit F.seqLogCfgEnable q = false then s
  else
    let x := s.logX q
    match x.summaries.find? (fun e => decide (e.1 = g.bay)) with
    | some _ => s.setLogX q { x with
        summaries := x.summaries.map fun e => if e.1 = g.bay then (e.1, e.2.merge g) else e }
    | none =>
      if x.queue.length < 1536 then s.setLogX q { x with queue := x.queue ++ [g.words] }
      else s.setLogX q { x with summaries := x.summaries ++ [(g.bay, g.summary)] }

/-- Open summaries close, in order of their first cycle (R172). -/
def State.closeSummaries (s : State) (q : Nat) : State :=
  let x := s.logX q
  (sortBy (fun e => e.2.cycle) x.summaries).foldl (fun t e =>
    let y := t.logX q
    let u := t.setLogX q { y with queue := y.queue ++ [e.2.words] }
    (u.hwSet F.seqLogStatCoalesced q 0).count F.seqLogStatCoalescedCount F.seqLogStatSaturated q 0 (min e.2.merged 4294967295))
    (s.setLogX q { x with summaries := [] })

/-- The first-fail records that a fail record fills (R165): those of the fail's vector and site. -/
def State.firstFail (s : State) (q : Nat) (g : Group) : State :=
  let x := s.logX q
  let mine := fun (e : Nat × Nat × Nat × Nat) => decide (e.2 = (g.run, g.cycle, g.site))
  (x.ffWant.filter mine).foldl (fun t e =>
    (List.range 4).foldl (fun u i =>
      let w := (g.words.getD i 0).toNat
      if e.1 = 32 then u.set F.seqFfseqWord q i w else u.set F.seqFfsiteWord q (4 * g.site + i) w) t)
    (s.setLogX q { x with ffWant := x.ffWant.filter fun e => !mine e })

/-! ### Capture (R176 to R178) -/

/-- Words of capture queued (R178). -/
def LogX.capWords (x : LogX) : Nat :=
  (x.capClosed.map fun b => b.words.length + 2).foldl (· + ·) x.capRest.length
    + match x.capOpen with
      | some b => b.words.length + 2
      | none => 0

/-- Free words of the capture ring, as the indices of CAP_PTR stand (R173). -/
def State.capFree (s : State) (q : Nat) : Nat :=
  let n := 2 ^ s.get F.seqCapCfgSize q
  n - 1 - (s.get F.seqCapPtrWr q + n - s.get F.seqCapPtrRd q) % n

/-- The capture ring is full under the indices of CAP_PTR (R173, R178). -/
def State.capFull (s : State) (q : Nat) : Bool := decide (s.capFree q = 0)

/-- The open block closes (R177). -/
def State.closeBlock (s : State) (q : Nat) : State :=
  let x := s.logX q
  match x.capOpen with
  | some b => s.setLogX q { x with capOpen := none, capClosed := x.capClosed ++ [b] }
  | none => s

/-- The slot of `mask` that follows `slot` in one vector. -/
def nextSlot (mask slot : Nat) : Option Nat := (List.range 6).find? fun i => testBit mask i && decide (slot < i)

/-- The first slot of a mask. -/
def firstSlot (mask : Nat) : Nat := ((List.range 6).find? (testBit mask)).getD 0

/-- A step continues an open block (R177). -/
def CapBlk.continues (b : CapBlk) (st : CapStep) (slots : Nat) : Bool :=
  decide (b.slots = slots) && decide (Nat.land b.present st.present = b.present) && decide (b.words.length < 2047)
    && decide (b.epoch = st.epoch) && decide (b.run = st.run)
    && match nextSlot slots b.lastSlot with
      | some i => decide (st.cycle = b.lastCycle ∧ st.slot = i)
      | none => decide (st.cycle = b.lastCycle + 1 ∧ st.slot = firstSlot slots)

/-- A block of 2,047 steps closes (R177). -/
def State.closeFull (s : State) (q : Nat) : State :=
  match (s.logX q).capOpen with
  | some b => if 2047 ≤ b.words.length then s.closeBlock q else s
  | none => s

/-- A capture step is queued, or is discarded where the queue or the ring is full (R178); with ENABLE = 0 it is discarded
without a count (R175, R179). -/
def State.addStep (s : State) (q : Nat) (st : CapStep) (slots : Nat) : State :=
  if s.bit F.seqCapCfgEnable q = false then s
  else
    let x := s.logX q
    let cont := match x.capOpen with
      | some b => b.continues st slots
      | none => false
    if 4096 < x.capWords + (if cont then 1 else 3) ∨ s.capFull q then
      ((s.setLogX q { x with capLost := true }).hwSet F.seqCapStatLost q 0).count
        F.seqCapStatLostCount F.seqCapStatSaturated q 0 1
    else
      let t := if cont then s else s.closeBlock q
      let y := t.logX q
      match y.capOpen with
      | some b => (t.setLogX q { y with capOpen := some { b with
          lastCycle := st.cycle, lastSlot := st.slot, words := b.words ++ [st.word] } }).closeFull q
      | none =>
        let b : CapBlk := { cycle := st.cycle, slot := st.slot, epoch := st.epoch, present := st.present, slots := slots,
                            lost := y.capLost, lastCycle := st.cycle, lastSlot := st.slot, run := st.run, words := [st.word],
                            opened := t.ticks }
        t.setLogX q { y with capLost := false, capOpen := some b }

/-- The header and state words of a block (R177). -/
def CapBlk.all (b : CapBlk) (q : Nat) : List Nat :=
  [b.cycle % 2 ^ 48 + b.slot % 8 * 2 ^ 48 + b.words.length % 2048 * 2 ^ 53,
   b.present % 2 ^ 32 + b.epoch % 256 * 2 ^ 32 + q % 4 * 2 ^ 40 + b.lost.toNat * 2 ^ 42 + b.slots % 64 * 2 ^ 43]
    ++ b.words

/-- The capture slots that are enabled for channel `c` (R176). -/
def State.capSlots (s : State) (q c : Nat) : List Nat :=
  (List.range 32).filter fun j =>
    decide (s.get F.seqCapSelSlot q (j / 8) / 256 ^ (j % 8) % 256 = 128 + c)

/-- The sampled state of a strobe goes into its capture step (R176). -/
def State.capture (s : State) (c : Nat) (f : Flight) : State :=
  let q := f.vec.seq
  let js := s.capSlots q c
  if f.window ∨ js = [] ∨ (f.vec.cap = false ∧ f.compares) then s
  else
    let x := s.logX q
    let add := fun (st : CapStep) => js.foldl (fun (w : CapStep) j =>
      { w with word := w.word - (w.word / 4 ^ j % 4) * 4 ^ j + f.actual * 4 ^ j, present := putBit w.present j true }) st
    let is := fun (st : CapStep) => decide (st.run = f.vec.run ∧ st.cycle = f.vec.cycle ∧ st.slot = f.slot)
    let l := if x.steps.any is then x.steps.map (fun st => if is st then add st else st)
      else x.steps ++ [add { run := f.vec.run, cycle := f.vec.cycle, slot := f.slot, epoch := f.vec.epoch }]
    s.setLogX q { x with steps := l }

/-! ### Delivery (R85, R93, R161 to R167, R180 to R182) -/

/-- Run and cycle as one number. -/
def orderKey (run cycle : Nat) : Nat := run * 2 ^ 64 + cycle

/-- The events of a channel's queue that will give an outcome (R88, R153, R156): strobes, and what closes a window. `win`: a window
is open. -/
def outcomes (win : Bool) : List Ev → List Ev
  | [] => []
  | e :: es =>
    if e.code < 4 then outcomes win es
    else if e.code ≤ 7 then e :: outcomes win es
    else if win then e :: outcomes (decide (e.code ≠ 11)) es
    else outcomes (decide (e.code ≠ 11)) es

/-- The compares of a sequencer whose outcome is awaited: their run and cycle. -/
def State.awaited (s : State) (q : Nat) : List VecInfo :=
  s.chans.flatMap fun e =>
    ((outcomes e.2.win.isSome e.2.queue).map (·.vec) ++ e.2.flight.map (·.vec)).filter fun v => decide (v.seq = q)

/-- The match blocks and passes of a sequencer that wait for the outcome of a compare, be it of a vector that is decoded and not yet
issued (R93). CX compares nothing (R128). -/
def State.passesAwaited (s : State) (q : Nat) : List (Nat × Nat) :=
  let plan := (s.seqX q).plan.flatMap fun v => if v.vec.blk.isSome then s.vectorEvs q v else []
  let of_ := fun (v : VecInfo) => if v.seq = q then v.blk else none
  (((s.chans.map (·.1)) ++ plan.map (·.1)).eraseDups.flatMap fun c =>
    let x := s.chan c
    let l := (plan.filter fun e => decide (e.1 = c)).foldl (fun l e => insertEv e.2 l) x.queue
    ((outcomes x.win.isSome l).filterMap fun e => if e.code = 7 then none else of_ e.vec)
      ++ x.flight.filterMap fun f => if f.compares then of_ f.vec else none).eraseDups

/-- A pass counts as unresolved for a record that starts at `c`, `l` being the passes that wait for an outcome (R93, R96). -/
def Pass.unresolved (p : Pass) (l : List (Nat × Nat)) (blk c : Nat) : Bool :=
  !p.closed || l.contains (blk, p.n) || decide (c < p.vis)

/-- Every compare of the run and cycle, and of those before, has its outcome (R167). -/
def State.settledTo (s : State) (q run cycle : Nat) : Bool :=
  (s.awaited q).all fun v => decide (orderKey run cycle < orderKey v.run v.cycle)

/-- The place of a record in the log order (R167). -/
def Group.key (g : Group) : Nat :=
  (((orderKey g.run g.cycle * 8 + g.slot) * 8 + g.bay) * 32 + g.site) * 2 + g.window.toNat

/-- A run of a sequencer has stopped and every outcome of it has been delivered. -/
def State.runOver (s : State) (q run : Nat) : Bool :=
  (decide (s.seqState q = 0) || decide ((s.seqX q).run ≠ run)) && (s.awaited q).all fun v => decide (v.run ≠ run)

/-- A record enters the log queue; before the first of a run, the summaries of the run before it close (R172). -/
def State.enterOrdered (s : State) (q : Nat) (g : Group) : State :=
  let t := if (s.logX q).run = g.run then s else s.closeSummaries q
  ((t.setLogX q { (t.logX q) with run := g.run }).firstFail q g).enterLog q g

/-- Records and capture steps whose outcomes are complete leave for the log and the capture queue (R167, R176). After the
last record of a stopped run, summaries and the open block close (R172, R177). (DEDUCED, log entry 46.) -/
def State.flushLog (s : State) (q : Nat) : State :=
  let x := s.logX q
  let ready := sortBy Group.key (x.groups.filter fun g => s.settledTo q g.run g.cycle)
  let steps := sortBy (fun (st : CapStep) => orderKey st.run st.cycle * 8 + st.slot)
    (x.steps.filter fun st => s.settledTo q st.run st.cycle)
  let t := s.setLogX q { x with
    groups := x.groups.filter fun g => !s.settledTo q g.run g.cycle
    steps := x.steps.filter fun st => !s.settledTo q st.run st.cycle }
  let u := (ready.filter fun g => decide (g.mask ≠ 0)).foldl (fun u g => u.enterOrdered q g) t
  let v := steps.foldl (fun v st =>
    v.addStep q st (steps.foldl (fun m y => if y.run = st.run ∧ y.cycle = st.cycle then putBit m y.slot true else m) 0)) u
  let w := if v.runOver q (v.logX q).run then v.closeSummaries q else v
  match (w.logX q).capOpen with
  | some b => if w.runOver q b.run then w.closeBlock q else w
  | none => w

/-- The outcome of an active compare goes into its fail record (R166, R169). (DEDUCED, log entry 47.) -/
def State.group (s : State) (c : Nat) (f : Flight) : State :=
  let q := f.vec.seq
  let x := s.logX q
  let b := c / 16
  let i := c % 16
  let is := fun (g : Group) => decide (g.run = f.vec.run ∧ g.cycle = f.vec.cycle ∧ g.slot = f.slot ∧ g.bay = b ∧
    g.site = f.site ∧ g.window = f.window)
  let add := fun (g : Group) => { g with
    mask := if f.fail then putBit g.mask i true else g.mask
    expected := g.expected + f.expected * 4 ^ i
    actual := g.actual + f.actual * 4 ^ i }
  let l := if x.groups.any is then x.groups.map (fun g => if is g then add g else g)
    else x.groups ++ [add { run := f.vec.run, cycle := f.vec.cycle, slot := f.slot, bay := b, site := f.site,
                            window := f.window, vec := f.vec }]
  s.setLogX q { x with groups := l }

/-- A fail accumulator is set; the earliest start that sees it is kept (R85, R88). -/
def setAcc (k vis : Nat) (l : List (Nat × Nat)) : List (Nat × Nat) :=
  match l.find? (fun e => decide (e.1 = k)) with
  | some e => if vis < e.2 then (k, vis) :: l.filter (fun e => decide (e.1 ≠ k)) else l
  | none => (k, vis) :: l

/-- SITE_FAIL bit `k` (32: the sequencer's) is set by a fail of site `site`; a change from 0 asks for the first-fail record (R164,
R165). -/
def State.siteFail (s : State) (q k site : Nat) (v : VecInfo) : State :=
  let old := if k = 32 then s.bit F.seqSiteFailSeq q else testBit (s.get F.seqSiteFailSite q) k
  if old ∨ s.clearedNow (F.seqSiteFailSite.key q 0) k then s
  else
    let t := if k = 32 then s.setBit F.seqSiteFailSeq q 0 true
      else s.set F.seqSiteFailSite q 0 (putBit (s.get F.seqSiteFailSite q) k true)
    t.setLogX q { (t.logX q) with ffWant := (t.logX q).ffWant ++ [(k, v.run, v.cycle, site)] }

/-- The instant at which a site's or the sequencer's result is first seen: t + RTD + 96 ct (R88, R183). -/
def Flight.visible (f : Flight) : Nat := f.at_ + (f.rtd + 96) * 1024

/-- Compare and mask complete: t + RTD + 24 ct (R161). -/
def Flight.done (f : Flight) : Nat := f.at_ + (f.rtd + 24) * 1024

/-- FAIL_GF (R182): the flag is set at the first boundary at least 2 ct later; a record of this device sees it from the start
t + RTD + 116 ct on (R183). -/
def State.failGf (s : State) (f : Flight) : State :=
  let q := f.vec.seq
  let src := s.bit F.seqFailGfSource q
  let k := s.get F.seqFailGfSite q
  if s.bit F.seqFailGfEnable q ∧ (src = false ∨ (f.site = k ∧ (s.siteMap k).seq = q)) then
    s.defer q (f.done + 2048) [.failGf (s.get F.seqFailGfFlag q) (f.visible + 20480)]
  else s

/-- Stop-on-fail of a site (R180, R227): more final stops of the same site stand (R230). -/
def State.siteStopOnFail (s : State) (k : Nat) (f : Flight) : State :=
  if s.bit F.sitekCtrlStopOnFail k ∧ s.get F.sitekStatusState k = 1 then
    ((s.set F.sitekStatusState k 0 2).set F.sitekStatusStopCause k 0 1).modSiteRun k
      (fun r => { r with bound := some f.visible, failTick := s.ticks })
  else s

/-- A fail reaches the accumulator of its site, as RESULT.FAILED of its run will show it (R231). -/
def State.runFails (s : State) (f : Flight) : State :=
  { s with site := { s.site with runs := s.site.runs.map fun r =>
    if r.site = f.site ∧ r.seq = f.vec.seq ∧ r.run = f.vec.run ∧ r.accFrom ≤ f.vec.cycle then { r with failed := true } else r } }

/-- What a fail outcome does beyond its record: the counter, and — in its own run — the flags, accumulators and stops
(R85, R113, R161, R164, R180, R182). -/
def State.failEffects (s : State) (c : Nat) (f : Flight) : State :=
  let q := f.vec.seq
  let t := s.count F.bayFailCountCount F.bayFailCountSaturated (c / 16) (c % 16) 1
  let w := (t.acqFail c (tickAt (f.done + 2048))).runFails f
  let x := w.seqX q
  if x.run ≠ f.vec.run then w
  else
    let u := (w.siteFail q f.site f.site f.vec).siteFail q 32 f.site f.vec
    let u := if x.accFrom ≤ f.vec.cycle then
        u.setSeqX q { (u.seqX q) with acc := setAcc f.site f.visible (setAcc 32 f.visible (u.seqX q).acc) }
      else u
    (u.failGf f).siteStopOnFail f.site f

/-- A pass that would have satisfied its condition after the time-out sets MATCH_LATE (R95); the conditions are those of
R87 on the pass's accumulators. -/
def State.passHolds (s : State) (q cond : Nat) (fails : List Nat) : Bool :=
  let en := (s.sitesOf q).filter s.siteEnabled
  let all := !en.isEmpty && en.all fun k => fails.contains k
  let k := s.get F.seqCondCtrlSite q
  let sf := decide ((s.siteMap k).seq = q) && fails.contains k
  if cond = 2 then fails.contains 32
  else if cond = 3 then !fails.contains 32
  else if cond = 4 then all
  else if cond = 5 then !all
  else if cond = 6 then sf
  else if cond = 7 then !sf
  else false

/-- The passes of timed-out blocks whose compares all have their outcomes are resolved, and each that would have satisfied its
condition sets MATCH_LATE, at t + RTD + 32 ct of the last of them; a block with no other pass is done with (R93, R95). -/
def State.judgeLate (s : State) (q : Nat) : State :=
  let x := s.seqX q
  if x.blocks.any (fun b => b.timedOut) = false then s
  else
    let l := s.passesAwaited q
    let done := fun (b : Block) (p : Pass) => b.timedOut && !p.judged && !l.contains (b.id, p.n)
    let late := x.blocks.flatMap fun b => (b.passes.filter fun p => done b p && s.passHolds q b.cond p.fails).map (·.vis)
    let blocks := x.blocks.map fun b =>
      { b with passes := b.passes.map fun p => if done b p then { p with judged := true } else p }
    late.foldl (fun t vis => t.defer q (vis - 65536) [.matchLate])
      (s.setSeqX q { x with blocks := blocks.filter fun b => !(b.timedOut && b.passes.all fun p => p.judged) })

/-- The outcome of a compare reaches the pass of its match block (R93); a block that has timed out goes on with its passes, whatever
starts meanwhile (R95). -/
def State.passOutcome (s : State) (f : Flight) : State :=
  match f.vec.blk with
  | none => s
  | some (b, n) =>
    if f.compares = false then s
    else
      s.modPass f.vec.seq b n (fun p => { p with
        vis := max p.vis f.visible
        fails := if f.active ∧ f.fail then (p.fails ++ [f.site, 32]).eraseDups else p.fails })

/-- A compare event has been applied, or an outcome delivered or discarded: passes, records and capture steps that waited for it
alone go on (R93, R95, R167). -/
def State.compared (s : State) (q : Nat) : State := (s.judgeLate q).flushLog q

/-- Compare and mask complete for one outcome of channel `c` (R31, R153). -/
def State.deliver (s : State) (c : Nat) (f : Flight) : State :=
  let t := (s.capture c f).passOutcome f
  let on := f.active && f.compares && !f.vec.quiet
  let u := if on then t.group c f else t
  (if on ∧ f.fail then u.failEffects c f else u).compared f.vec.seq

end Sys2Proof.Machine
end

