-- ==== Sys2Proof/Machine/OpsPage.lean ====
section
/-!
DEFINITION. OpsPage.lean: the page table, requests and loads, the fill engine, the loop cache, the lookahead and PANIC
(R184 to R205, R425).
-/
namespace Sys2Proof.Machine

/-! ### The page table (R184 to R192) -/

/-- The entry of a page. -/
def State.entry (s : State) (g : Nat) : PgEntry := unitAt {} s.page.table g

/-- Stores an entry. -/
def State.setEntry (s : State) (g : Nat) (e : PgEntry) : State :=
  { s with page := { s.page with table := putUnit {} s.page.table g e } }

/-- Words of a page. -/
def pageWords : Nat := 8388608

/-- The page of a vector address. -/
def pageOf (a : Nat) : Nat := a / pageWords

/-- LOCAL or PINNED: the content occupies a frame (R185). -/
def PgEntry.resident (e : PgEntry) : Bool := decide (e.state = 3) || decide (e.state = 4)

/-- A frame is allocated to the page. -/
def PgEntry.framed (e : PgEntry) : Bool := decide (2 ≤ e.state)

/-- The frames in use. -/
def State.usedFrames (s : State) : List Nat := (s.page.table.filter fun e => e.2.framed).map fun e => e.2.frame

/-- The frames granted and unallocated (R185). -/
def State.freeFrames (s : State) : List Nat :=
  ((List.range (s.get F.pgtFramesCount)).map (· + s.get F.pgtFramesFirst)).filter fun f => !s.usedFrames.contains f

/-- The page of a sequencer's current record; that of its first record until one has been decoded in the run. -/
def State.currentPage (s : State) (q : Nat) : Nat :=
  pageOf (if (s.seqX q).cur = [] then (s.seqX q).pc else s.get F.seqPositionPc q)

/-- A sequencer or its lookahead uses the page, apart from the page's own state: tier A (R196). -/
def State.inUse (s : State) (g : Nat) : Bool :=
  (List.range 4).any fun q =>
    let x := s.seqX q
    decide (s.seqState q ≠ 0) &&
      (decide (s.currentPage q = g) || x.fill.buf.any (fun r => decide (pageOf r.1 = g))
        || x.fill.side.any (fun d => d.2.any fun r => decide (pageOf r.1 = g))
        || x.stack.any (fun r => decide (pageOf r.1 = g)) || x.targets.contains g || x.look.path.contains g)

/-- The page is held by an open level of a sequencer: tier B (R196). (DEDUCED, log entry 54.) -/
def State.inTierB (s : State) (g : Nat) : Bool := (List.range 4).any fun q => (s.seqX q).tierB.contains g

/-- HELD (R188). -/
def State.held (s : State) (g : Nat) : Bool := s.inUse g || s.inTierB g

/-- The two words of an entry (R188). -/
def State.entryWords (s : State) (g : Nat) : Nat × Nat :=
  let e := s.entry g
  (e.state + e.pin.toNat * 2 ^ 3 + e.noStall.toNat * 2 ^ 4 + e.pclass * 2 ^ 5 + e.flowTab.toNat * 2 ^ 7
    + e.bad.toNat * 2 ^ 8 + e.eccErr.toNat * 2 ^ 9 + (s.held g).toNat * 2 ^ 10
    + (if e.framed then e.frame else 0) * 2 ^ 12 + e.crc * 2 ^ 32, e.host * 2 ^ 12)

/-- The RW fields of a write (R188): PCLASS 0b11 stores 0b00. -/
def PgEntry.withFields (e : PgEntry) (w0 : Nat) : PgEntry :=
  { e with pin := testBit w0 3, noStall := testBit w0 4, pclass := if w0 / 32 % 4 = 3 then 0 else w0 / 32 % 4,
           flowTab := testBit w0 7 }

/-- A request still has a page to load (R194, R195): the page is in host memory and not BAD; a lazy page is loaded on a demand or a
push alone; PIN and the eager class still hold. -/
def PgReq.valid (r : PgReq) (e : PgEntry) : Bool :=
  decide (e.state = 1) && !e.bad && match r.want with
    | .demand => true
    | .push => true
    | .look => decide (e.pclass ≠ 2)
    | .pin => e.pin && decide (e.pclass ≠ 2)
    | .eager => decide (e.pclass = 1) || (decide (r.by_ < 4) && decide (e.pclass ≠ 2))

/-- A request for a page's load (R194): dropped where the page is not to be loaded; repeated by the same asker it keeps the higher
level. The load that starts for a page serves every request for it. -/
def State.request (s : State) (r : PgReq) : State :=
  if r.valid (s.entry r.page) = false then s
  else
    let l := s.page.reqs
    let is := fun (x : PgReq) => decide (x.page = r.page ∧ x.want = r.want ∧ x.by_ = r.by_)
    let l' := if l.any is then
        l.map fun x => if is x ∧ r.level < x.level then { x with level := r.level, dist := r.dist } else x
      else l ++ [r]
    { s with page := { s.page with reqs := l' } }

/-- The requests that a HOST page makes of itself: PIN at level 4, eager at level 5 (R194). -/
def State.selfRequest (s : State) (g : Nat) : State :=
  let e := s.entry g
  let t := if e.pin then s.request { page := g, level := 4, want := .pin } else s
  if e.pclass = 1 then t.request { page := g, level := 5, want := .eager } else t

/-- The loop-cache lines of a page are invalidated in every sequencer (R190). -/
def State.dropLines (s : State) (g : Nat) : State :=
  (List.range 4).foldl (fun t q =>
    let x := t.seqX q
    t.setSeqX q { x with fill := { x.fill with cache := x.fill.cache.filter fun l => decide (pageOf (l.1 * 32) ≠ g) } }) s

/-- A push completes: the write-back holds the entry as it reads then (R205, R316). -/
def State.completePush (s : State) (tok : Token) (g st : Nat) : State :=
  match s.runDesc tok with
  | some d => s.complete tok st d.w1 (BitVec.ofNat 64 (s.entryWords g).1) (BitVec.ofNat 64 (s.entryWords g).2)
  | none => s

/-- Pushes that wait for a load of the page which has not started complete with PAGE_BUSY (R205). (DEDUCED, log entry 52.) -/
def State.dropPushes (s : State) (g : Nat) : State :=
  let l := s.page.pushes.filter fun p => decide (p.1 = g) && !p.2.2
  l.foldl (fun t p => t.completePush p.2.1 g 8)
    { s with page := { s.page with pushes := s.page.pushes.filter fun p => !(decide (p.1 = g) && !p.2.2) } }

/-- What a page-table write did (R190). -/
inductive PgWrite
  | flagsOnly
  | full
  | refused
deriving DecidableEq, Repr

/-- A flags-only write of an entry (R190). -/
def State.flagsWrite (s : State) (g w0 : Nat) : State :=
  let e := s.entry g
  let n := e.withFields w0
  let n := if e.resident then { n with state := if n.pin then 4 else 3 } else n
  (s.setEntry g n).selfRequest g

/-- A full map or an unmap (R190, R191): refused for a LOADING or a held page, and during a rebuild (R192). -/
def State.fullWrite (s : State) (g w0 w1 : Nat) : PgWrite × State :=
  let e := s.entry g
  if s.bit F.pgtStatusRebuildBusy ∨ e.state = 2 ∨ (e.resident ∧ s.held g) then (.refused, s)
  else
    let n := (({} : PgEntry).withFields w0)
    let t := (s.dropLines g).setEntry g
      { n with state := if w0 % 8 = 0 then 0 else 1, crc := w0 / 2 ^ 32 % 2 ^ 32, host := w1 / 2 ^ 12 % 2 ^ 52 }
    let u := { t with page := { t.page with
      reqs := t.page.reqs.filter fun r => decide (r.page ≠ g), lru := t.page.lru.filter fun p => decide (p ≠ g) } }
    (.full, (u.dropPushes g).selfRequest g)

/-- The address and the check word of a write are the entry's (R190). -/
def PgEntry.sameContent (e : PgEntry) (w0 w1 : Nat) : Bool :=
  decide (w1 / 2 ^ 12 % 2 ^ 52 = e.host) && decide (w0 / 2 ^ 32 % 2 ^ 32 = e.crc)

/-- A page-table write (R190, R191, R192), by the window or by a command. -/
def State.writeEntry (s : State) (g w0 w1 : Nat) : PgWrite × State :=
  let e := s.entry g
  if s.bit F.pgtStatusRebuildBusy then (.refused, s)
  else if w0 % 8 ≠ 0 ∧ e.sameContent w0 w1 ∧ e.state ≠ 0 then (.flagsOnly, s.flagsWrite g w0)
  else s.fullWrite g w0 w1

/-- A window write, which CMD_PAGE_MAP performs too: WIN_CMD shows what it did (R190, R216). -/
def State.windowWrite (s : State) (g w0 w1 : Nat) : PgWrite × State :=
  match s.writeEntry g w0 w1 with
  | (.flagsOnly, t) => (.flagsOnly, t.set F.pgtWinCmdFlagsOnly 0 0 1)
  | (.full, t) => (.full, t.set F.pgtWinCmdFlagsOnly 0 0 0)
  | (.refused, t) => (.refused, t.hwSet F.pgtWinCmdRefused 0 0)

/-- A push of a page (R205): flags alone for a resident page of the same content, else a full map and a load at level 4. -/
def State.pushPage (s : State) (tok : Token) (g w0 w1 : Nat) : State :=
  let e := s.entry g
  if s.bit F.pgtStatusRebuildBusy = false ∧ e.resident ∧ e.sameContent w0 w1 then
    (s.flagsWrite g w0).completePush tok g 0
  else
    match s.fullWrite g (w0 / 8 * 8 + 1) w1 with
    | (.full, t) =>
      ({ t with page := { t.page with pushes := t.page.pushes ++ [(g, tok, false)] } }).request { page := g, level := 4, want := .push }
    | (_, t) => t.completePush tok g 8

/-! ### Loads (R193 to R196) -/

/-- `n` zero bytes of CRC-32C. -/
def crcZeros (c : Nat) : Nat → Nat
  | 0 => c
  | n + 1 => crcZeros (crcByte polyC c 0) n

/-- The check word of a page whose bytes are `data`, followed by zeros (R195). -/
def checkWord (data : List Nat) : Nat :=
  Nat.xor (crcZeros (data.foldl (crcByte polyC) 0xFFFFFFFF) (67108864 - data.length)) 0xFFFFFFFF

/-- The request the engine starts (R194): the highest level, then the nearer page, then the older; at equal distance the
sequencers rotate. (DEDUCED, log entry 51.) -/
def State.nextRequest (s : State) : Option PgReq :=
  (s.page.reqs.filter fun r => r.valid (s.entry r.page)).foldl (fun m r =>
    match m with
    | none => some r
    | some x =>
      if r.level < x.level then some r
      else if r.level = x.level ∧ r.level = 3 ∧ (r.dist < x.dist
          ∨ (r.dist = x.dist ∧ (r.by_ + 3 - s.page.turn) % 4 < (x.by_ + 3 - s.page.turn) % 4)) then some r
      else some x) none

/-- How long ago a page was fetched: its place in the order of fetches. -/
def State.fetchAge (s : State) (g : Nat) : Nat := (s.page.lru.findIdx? (fun p => decide (p = g))).getD s.page.lru.length

/-- The least recently fetched page of a list. -/
def State.oldest (s : State) (l : List Nat) : Option Nat :=
  l.foldl (fun m g => match m with
    | none => some g
    | some h => if s.fetchAge h < s.fetchAge g then some g else some h) none

/-- The page that is evicted for a frame (R196): tier C first, then tier B; tier A never. -/
def State.victim (s : State) : Option Nat :=
  let l := ((s.page.table.filter fun e => decide (e.2.state = 3)).map (·.1)).filter fun g => !s.inUse g
  match s.oldest (l.filter fun g => !s.inTierB g) with
  | some g => some g
  | none => s.oldest l

/-- A frame for a load, with the page evicted for it where none is free. -/
def State.takeFrame (s : State) : Option (Nat × State) :=
  match s.freeFrames with
  | f :: _ => some (f, s)
  | [] =>
    match s.victim with
    | some g =>
      let e := s.entry g
      some (e.frame, (((s.setEntry g { e with state := 1 }).count F.pgtLoadStatEvictions F.pgtLoadStatEvictSaturated 0 0
        1).selfRequest g))
    | none => none

/-- The reads of a page (R193): 4,096 bytes each, in ascending order, the flow table first. -/
def State.readPage (s : State) (g : Nat) : State :=
  let a := (s.entry g).host * 4096
  if (s.entry g).flowTab then (s.emit (.pageReads (a + 0x7FFE00 * 8) 1)).emit (.pageReads a 16383)
  else s.emit (.pageReads a 16384)

/-- The engine starts the load of a request (R194, R196); a load that finds no frame waits. -/
def State.startLoad (s : State) (r : PgReq) : State :=
  match s.takeFrame with
  | none => s.hwSet F.pgtStatusStarvedSeen 0 0
  | some (f, t) =>
    let u := t.setEntry r.page { (t.entry r.page) with state := 2, frame := f }
    let v := { u with page := { u.page with
      reqs := u.page.reqs.filter fun x => decide (x.page ≠ r.page)
      loads := u.page.loads ++ [({ page := r.page, level := r.level } : PgLoad)]
      pushes := u.page.pushes.map fun (p : Nat × Token × Bool) => if p.1 = r.page then (p.1, p.2.1, true) else p
      turn := if r.by_ < 4 then r.by_ else u.page.turn } }
    v.readPage r.page

/-- A slot is free for a load (R194). -/
def State.loadSlot (s : State) : Bool := s.dramReady && decide (s.page.loads.length < s.get F.pgtCtrlMaxInflight)

/-- A load waits for a frame (R196). -/
def State.frameStarved (s : State) : Bool := s.loadSlot && s.nextRequest.isSome && s.takeFrame.isNone

/-- The load of a page ends: its pushes complete with a status. -/
def State.endLoad (s : State) (g st : Nat) : State :=
  let l := s.page.pushes.filter fun p => decide (p.1 = g)
  l.foldl (fun t p => t.completePush p.2.1 g st)
    { s with page := { s.page with
        loads := s.page.loads.filter fun x => decide (x.page ≠ g)
        pushes := s.page.pushes.filter fun p => decide (p.1 ≠ g) } }

/-- The content of a frame is replaced by `data` followed by zeros. -/
def State.fillFrame (s : State) (f : Nat) (data : List Nat) : State :=
  let t := { s with
    mem := s.mem.filter fun e => decide (e.1 < f * 67108864) || decide ((f + 1) * 67108864 ≤ e.1)
    dram := { s.dram with poison := s.dram.poison.filter fun w => decide (w / 8388608 ≠ f) } }
  t.portRequest.putBytes (f * 67108864) (data.take 67108864)

/-- A page has been loaded and verified (R189). -/
def State.loaded (s : State) (g : Nat) (data : List Nat) : State :=
  let e := s.entry g
  ((((s.fillFrame e.frame data).setEntry g { e with state := if e.pin then 4 else 3 }).count
    F.pgtLoadStatLoads F.pgtLoadStatLoadsSaturated 0 0 1)).endLoad g 0

/-- A load attempt fails (R195): 1 check word, 2 completion error, 3 time-out, 4 poisoned. -/
def State.loadFailed (s : State) (g cause : Nat) : State :=
  let t := if cause = 1 then s.count F.pgtErrStatCrcFail F.pgtErrStatCrcSaturated 0 0 1
    else s.count F.pgtErrStatLoadErr F.pgtErrStatErrSaturated 0 0 1
  match t.page.loads.find? (fun x => decide (x.page = g)) with
  | none => t
  | some x =>
    if x.again then
      (((t.post 0x0501 g cause).setEntry g { (t.entry g) with state := 1, bad := true })).endLoad g 9
    else ({ t with page := { t.page with
        loads := t.page.loads.map fun (y : PgLoad) => if y.page = g then { y with again := true, table := false } else y } }).readPage g

/-! ### Records in the pattern space (R63, R65, R186, R189) -/

/-- Words of a record of a sequencer in its present format. -/
def State.recWords (s : State) (q : Nat) : Nat := recordWords (s.get F.seqCtrlMode q) (s.get F.seqCtrlWidth q)

/-- A record at `a` of `n` words crosses its page's end. -/
def crosses (a n : Nat) : Bool := decide (pageWords < a % pageWords + n)

/-- The PAGE_FAULT detail of a record whose page cannot be fetched (R186, R189, R195). -/
def State.pageFault (s : State) (a n : Nat) : Option Nat :=
  let e := s.entry (pageOf a)
  if e.bad then some 1
  else if e.eccErr then some 2
  else if e.state = 0 then some 0
  else if e.flowTab ∧ 0x7FFE00 < a % pageWords + n then some 3
  else none

/-- Groups bytes into 64-bit words. -/
def wordsOf : Nat → List Nat → List Nat
  | 0, _ => []
  | n + 1, l => ofBytes (l.take 8) :: wordsOf n (l.drop 8)

/-- The byte address in local DRAM of a vector address whose page is resident. -/
def State.dramAddr (s : State) (a : Nat) : Nat := (s.entry (pageOf a)).frame * 67108864 + a % pageWords * 8

/-- A vector control word's fields (R67). -/
def vcwOp (w : Nat) : Nat := w / 2 ^ 58 % 64
def vcwTset (w : Nat) : Nat := w / 2 ^ 52 % 64
def vcwPeg (w : Nat) : Bool := testBit w 51
def vcwCap (w : Nat) : Bool := testBit w 50
def vcwMask (w : Nat) : Nat := w / 2 ^ 47 % 8
def vcwCond (w : Nat) : Nat := w / 2 ^ 41 % 64
def vcwHint (w : Nat) : Bool := testBit w 40
def vcwOperand (w : Nat) : Nat := w % 2 ^ 40
/-- TARGET and POP of a jump (R68). -/
def vcwTarget (w : Nat) : Nat := w % 2 ^ 38
def vcwPop (w : Nat) : Nat := w / 2 ^ 38 % 4
/-- A count field: 0 is clamped to 1 (R68). -/
def vcwCount (w : Nat) : Nat := max 1 (w % 2 ^ 32)

/-! ### The fill engine (R201 to R204) -/

/-- Bytes of records in a buffer. -/
def bufBytes (n : Nat) (l : List Fetched) : Nat := l.length * (n * 8)

/-- The loop-cache lines that a record overlaps. -/
def linesOf (a n : Nat) : List Nat := (List.range ((a + n - 1) / 32 - a / 32 + 1)).map (· + a / 32)

/-- The words of a record from the loop cache, where every line is present. -/
def FillX.cached (f : FillX) (a n : Nat) : Option (List Nat) :=
  let ls := (linesOf a n).map fun l => (f.cache.find? fun e => decide (e.1 = l)).map (·.2)
  if ls.all Option.isSome then some (((ls.flatMap fun o => o.getD []).drop (a % 32)).take n) else none

/-- Lines become the most recently used; the cache keeps 8,192. -/
def FillX.touch (f : FillX) (new : List (Nat × List Nat)) : FillX :=
  { f with cache := (new ++ f.cache.filter fun e => !(new.any fun d => decide (d.1 = e.1))).take 8192 }

/-- The lines of a record that hit. -/
def FillX.hitLines (f : FillX) (a n : Nat) : List (Nat × List Nat) :=
  (linesOf a n).filterMap fun l => f.cache.find? fun e => decide (e.1 = l)

/-- The level in which a fetched record falls is open, and the record is stored in the loop cache (R203). -/
def FillX.stores (f : FillX) : Bool :=
  match f.levels with
  | [] => false
  | l :: _ => !(l.bypass && l.later)

/-- `b` bytes have been fetched within the open levels: a first pass of more than 2 MiB makes its level bypass (R203). -/
def FillX.fetched (f : FillX) (b : Nat) : FillX :=
  { f with levels := f.levels.map fun l =>
    if l.later then l else { l with bytes := l.bytes + b, bypass := l.bypass || decide (2097152 < l.bytes + b) } }

/-- The predicted record after the record `words` at `a` (R201), `other`: after a path that the prediction does not take
(R202). -/
def FillX.predict (f : FillX) (a : Nat) (words : List Nat) (other : Bool) : FillX :=
  let w := words.getD 0 0
  let n := words.length
  let next := some (a + n)
  let jump := { f with levels := f.levels.drop (vcwPop w), pc := some (vcwTarget w) }
  match vcwOp w with
  | 0x01 => { f with levels := { body := a + n, rem := some (vcwCount w - 1) } :: f.levels, pc := next }
  | 0x08 => { f with levels := { body := a + n, rem := none } :: f.levels, pc := next }
  | 0x02 =>
    match f.levels with
    | [] => { f with pc := next }
    | l :: ls =>
      match l.rem with
      | some 0 => { f with levels := ls, pc := next }
      | some (r + 1) => { f with levels := { l with rem := some r, later := true } :: ls, pc := some l.body }
      | none =>
        if other then { f with levels := ls, pc := next }
        else { f with levels := { l with later := true } :: ls, pc := some l.body }
  | 0x04 => { f with stack := (a + n) :: f.stack, pc := some (vcwTarget w) }
  | 0x05 =>
    match f.stack with
    | [] => { f with pc := none }
    | r :: rs => { f with stack := rs, pc := some r }
  | 0x06 => jump
  | 0x07 => if vcwHint w = other then { f with pc := next } else jump
  | 0x14 => { f with pc := none }
  | _ => { f with pc := next }

/-- The record has a side path (R202): a JUMPIF, or the ENDLOOP of a match level. -/
def FillX.conditional (f : FillX) (words : List Nat) : Bool :=
  let op := vcwOp (words.getD 0 0)
  op == 7 || (op == 2 && match f.levels with
    | l :: _ => l.rem.isNone
    | [] => false)

/-- A page is fetched: it is the most recent, and it is held while a level of the sequencer is open (R196). -/
def State.touchPage (s : State) (q g : Nat) : State :=
  let x := s.seqX q
  let t := { s with page := { s.page with lru := g :: s.page.lru.filter fun p => decide (p ≠ g) } }
  if (x.levels ≠ [] ∨ x.fill.levels ≠ []) ∧ !x.tierB.contains g then t.setSeqX q { x with tierB := g :: x.tierB } else t

/-- The lines of a record as local DRAM holds them; a line with an uncorrectable word is not among them (R214). -/
def State.readLines (s : State) (a n : Nat) : List (Nat × List Nat) :=
  ((linesOf a n).filter fun l =>
      let w := s.dramAddr (l * 32) / 8
      !(s.dram.poison.any fun p => decide (w ≤ p) && decide (p < w + 32))).map
    fun l => (l, wordsOf 32 (s.memBytes (s.dramAddr (l * 32)) 256))

/-- A record is fetched: from the loop cache, else from a resident page; with `stores` its lines enter the cache (R196, R203). Its words
(none where one is uncorrectable, R431), and whether DRAM was read. -/
def State.fetchRecord (s : State) (q a n : Nat) (stores : Bool) : Option (List Nat × Bool × State) :=
  let x := s.seqX q
  match x.fill.cached a n with
  | some w =>
    some (w, false, (s.setSeqX q { x with fill := x.fill.touch (x.fill.hitLines a n) }).count
      F.seqLcacheStatHits F.seqLcacheStatSaturated q 0 (linesOf a n).length)
  | none =>
    if (s.entry (pageOf a)).resident ∧ s.dramReady then
      let (r, t) := s.dramRead (s.dramAddr a) (n * 8)
      let u := t.touchPage q (pageOf a)
      let y := u.seqX q
      let lines := if stores ∧ r.isSome then u.readLines a n else []
      some ((r.map (wordsOf n)).getD [], true, u.setSeqX q { y with fill := y.fill.touch lines })
    else none

/-- The record at `a` cannot be fetched, whatever is loaded. -/
def State.unfetchable (s : State) (a n : Nat) : Bool := crosses a n || (s.pageFault a n).isSome

/-- The records of a side path: up to 16 KiB, in resident pages or the loop cache; the first argument bounds their number
(R202). -/
def State.sidePath (s : State) (q n : Nat) : Nat → FillX → Nat → List Fetched × State
  | 0, _, _ => ([], s)
  | k + 1, f, bytes =>
    match f.pc with
    | none => ([], s)
    | some a =>
      if 16384 < bytes + n * 8 ∨ s.unfetchable a n then ([], s)
      else
        match s.fetchRecord q a n f.stores with
        | none => ([], s)
        | some ([], _, t) => ([(a, [])], t)
        | some (w, _, t) =>
          let (l, u) := t.sidePath q n k (f.predict a w false) (bytes + n * 8)
          ((a, w) :: l, u)

/-- The side path of a conditional record that enters the buffer (R202): one already held is refreshed; of sixteen, the one not
refreshed for longest goes whose record has left the buffer. -/
def State.addSide (s : State) (q a : Nat) (words : List Nat) : State :=
  let x := s.seqX q
  let f := x.fill
  if s.bit F.pgtLookaheadSideEn 0 q = false ∨ f.conditional words = false then s
  else
    match f.side.find? fun d => decide (d.1 = a) with
    | some d => s.setSeqX q { x with fill := { f with side := (f.side.filter fun e => decide (e.1 ≠ a)) ++ [d] } }
    | none =>
      let room := if f.side.length < 16 then some f.side
        else match f.side.find? (fun d => !(f.buf.any fun r => decide (r.1 = d.1))) with
          | some d => some (f.side.filter fun e => decide (e.1 ≠ d.1))
          | none => none
      match room with
      | none => s
      | some l =>
        let (path, t) := s.sidePath q words.length 1024 (f.predict a words true) 0
        let y := t.seqX q
        t.setSeqX q { y with fill := { y.fill with side := l ++ [(a, path)] } }

/-- A record is placed in the prefetch buffer, and the fill engine goes on along the predicted path. -/
def State.buffer (s : State) (q a : Nat) (words : List Nat) : State :=
  let t := s.addSide q a words
  let x := t.seqX q
  let f := { x.fill with buf := x.fill.buf ++ [(a, words)] }
  t.setSeqX q { x with fill := if words = [] then { f with pc := none } else f.predict a words false }

/-- The fill engine fetches its next record (R201): from the loop cache, else from a resident page; a page in host memory is
demanded (R194). An uncorrectable record is buffered without words (R431). -/
def State.fillStep (s : State) (q : Nat) : State :=
  let x := s.seqX q
  let n := s.recWords q
  match x.fill.pc with
  | none => s
  | some a =>
    if s.seqState q = 0 ∨ 262144 < bufBytes n x.fill.buf + n * 8 ∨ s.unfetchable a n then s
    else
      match s.fetchRecord q a n x.fill.stores with
      | none => s.request { page := pageOf a, level := 1, want := .demand }
      | some (w, read, t) =>
        let y := t.seqX q
        (if read then t.setSeqX q { y with fill := y.fill.fetched (n * 8) } else t).buffer q a w

/-- The shadow levels that copy the sequencer's (R201); a level that `old` holds at the same depth keeps what is known of its first
pass (R203). -/
def shadowOf (old : List Shadow) (l : List Level) : List Shadow :=
  (List.range l.length).filterMap fun i =>
    (l[i]?).map fun x =>
      let was := (old.reverse[l.length - 1 - i]?).bind fun o => if o.body = x.body then some o else none
      { body := x.body, rem := if x.isMatch then none else some x.rem, later := decide (x.iter ≠ 0)
        bytes := (was.map (·.bytes)).getD 0, bypass := (was.map (·.bypass)).getD false }

/-- The fill engine and the lookahead re-steer to `a` (R199, R201): the lookahead's requests that have not started are
dropped, except those at levels 1 and 4. -/
def State.resteer (s : State) (q a : Nat) : State :=
  let x := s.seqX q
  let t := s.setSeqX q { x with
    fill := { x.fill with pc := some a, buf := [], levels := shadowOf x.fill.levels x.levels, stack := x.stack.map (·.1) }
    look := { addr := some a, stack := x.stack.map (·.1), path := [] } }
  let l := t.page.reqs.filter fun r => decide (r.by_ ≠ q) || decide (r.level = 1) || decide (r.level = 4)
  { t with page := { t.page with reqs := l } }

/-- The sequencer is idle: buffers, loop cache, call targets and lookahead are emptied (R197, R199, R204). -/
def State.dropPath (s : State) (q : Nat) : State :=
  let t := s.resteer q 0
  t.setSeqX q { (t.seqX q) with fill := {}, look := {}, targets := [], tierB := [] }

/-- Records already fetched follow in the prefetch buffer, as far as the prediction goes along them. -/
def FillX.replay (f : FillX) : List Fetched → FillX
  | [] => f
  | (b, w) :: l =>
    if f.pc ≠ some b then f
    else if w = [] then { f with buf := f.buf ++ [(b, w)], pc := none }
    else FillX.replay { f.predict b w false with buf := f.buf ++ [(b, w)] } l

/-- Records that a buffer holds from the record at `a` on: the side path of the record just decoded, another one, or the prefetch
buffer behind its head (R202, R206). -/
def State.fetchedFrom (s : State) (q a : Nat) : Option (List Fetched) :=
  let f := (s.seqX q).fill
  let own := f.side.filter fun d => decide (d.1 = s.get F.seqPositionPc q)
  ((own.map (·.2) ++ f.side.map (·.2) ++ [f.buf]).map fun l => l.dropWhile fun r => decide (r.1 ≠ a)).find? fun l => l ≠ []

/-- The record at `a` where it is available at its decode (R206): its words, and the state with it taken. Where it is not what the fill
engine predicted, the engine and the lookahead re-steer (R199, R202). (DEDUCED, log entry 50.) -/
def State.takeRecord (s : State) (q a n : Nat) : Option (List Nat × State) :=
  let x := s.seqX q
  match x.fill.buf with
  | (b, w) :: rest =>
    if b = a then some (w, s.setSeqX q { x with fill := { x.fill with buf := rest } }) else other x
  | [] => other x
where
  other (x : SeqX) : Option (List Nat × State) :=
    match s.fetchedFrom q a with
    | some ((b, w) :: rest) =>
      let t := s.resteer q a
      let y := t.seqX q
      let f := y.fill.replay ((b, w) :: rest)
      some (w, t.setSeqX q { y with
        fill := { f with buf := f.buf.drop 1 }, look := { y.look with addr := f.pc, stack := f.stack } })
    | _ =>
      match x.fill.cached a n with
      | some w =>
        let t := (if x.fill.buf = [] ∧ x.fill.pc = some a then s else s.resteer q a).count
          F.seqLcacheStatHits F.seqLcacheStatSaturated q 0 (linesOf a n).length
        let y := t.seqX q
        some (w, t.setSeqX q { y with fill := (y.fill.touch (y.fill.hitLines a n)).predict a w false })
      | none => none

/-- What the fill engine has from `a` onwards reaches one of the limits of R209, or the buffer holds no further record; nothing is to be
had where the record at `a` itself lies in a page that cannot be fetched. -/
def State.fillReady (s : State) (q a n : Nat) : Bool :=
  let f := (s.seqX q).fill
  match f.buf with
  | (b, _) :: _ =>
    decide (b = a) && (decide (s.get F.seqStallCtrlFill q * 1024 ≤ bufBytes n f.buf)
      || decide (262144 < bufBytes n f.buf + n * 8) ||
      match f.pc with
      | none => true
      | some c => s.unfetchable c n)
  | [] => s.unfetchable a n

/-! ### The lookahead (R198 to R200) -/

/-- One entry of a flow table (R187). -/
structure FlowEntry where
  record : Nat
  op     : Nat
  hint   : Bool
  target : Nat

/-- The entries of a flow table given by its words, for page `g`: up to COUNT, and to the first whose RECORD is out of order
or outside the page. -/
def flowEntries (g : Nat) (words : List Nat) : List FlowEntry :=
  (((List.range (words.getD 0 0 % 256)).foldl (fun (acc : List FlowEntry × Bool) i =>
    let a := words.getD (2 + 2 * i) 0
    let e : FlowEntry := ⟨a % 2 ^ 38, a / 2 ^ 38 % 64, testBit a 44, words.getD (3 + 2 * i) 0 % 2 ^ 38⟩
    let ok := acc.2 && decide (pageOf e.record = g) && match acc.1.getLast? with
      | some p => decide (p.record < e.record)
      | none => true
    if ok then (acc.1 ++ [e], true) else (acc.1, false)) ([], true))).1

/-- The lookahead enters the page of `a` (R198): it is requested at the level of its distance, and the path ends at an ABSENT
page, at a lazy page that is not resident, and at a page already on the path. -/
def State.enterPage (s : State) (q a : Nat) (stack : List Nat) : State :=
  let x := s.seqX q
  let g := pageOf a
  let e := s.entry g
  let d := x.look.path.length + 1
  if e.state = 0 ∨ (e.pclass = 2 ∧ e.resident = false) ∨ x.look.path.contains g
      ∨ g = s.currentPage q then
    s.setSeqX q { x with look := { x.look with addr := none, stack := stack } }
  else
    (s.setSeqX q { x with look := { addr := some a, stack := stack, path := x.look.path ++ [g] } }).request
      { page := g, level := if d = 1 then 2 else 3, want := .look, dist := d, by_ := q }

/-- The lookahead visits the entries of a page's flow table in order (R198). -/
def State.visit (s : State) (q g : Nat) (stack : List Nat) : List FlowEntry → State
  | [] => s.enterPage q ((g + 1) * pageWords) stack
  | e :: es =>
    match e.op with
    | 0x04 => s.enterPage q e.target ((e.record + s.recWords q) :: stack)
    | 0x05 =>
      match stack with
      | [] => s.setSeqX q { (s.seqX q) with look := { (s.seqX q).look with addr := none } }
      | r :: rs => s.enterPage q r rs
    | 0x06 => s.enterPage q e.target stack
    | 0x07 =>
      if e.hint then s.enterPage q e.target stack
      else
        (if s.bit F.pgtLookaheadSecondary 0 q then
            s.request { page := pageOf e.target, level := 5, want := .eager, by_ := q }
          else s).visit q g stack es
    | 0x11 =>
      let d := (s.seqX q).look.path.length + 1
      (s.request { page := e.target % 32768, level := if e.hint then 2 else 3, want := .look, dist := d, by_ := q }).visit
        q g stack es
    | 0x14 => s.setSeqX q { (s.seqX q) with look := { (s.seqX q).look with addr := none } }
    | _ => s.visit q g stack es

/-- The flow table of a page: from its frame, or as it has arrived ahead of a load's verification (R193). -/
def State.flowTable (s : State) (g : Nat) (arrived : List Nat) : Option (List Nat) :=
  let e := s.entry g
  if e.resident then
    let base := e.frame * 67108864 + 0x7FFE00 * 8
    if s.dram.poison.any (fun w => decide (base / 8 ≤ w) && decide (w < base / 8 + 512)) then some [0]
    else some (wordsOf 512 (s.memBytes base 4096))
  else if e.state = 2 ∧ arrived ≠ [] then some arrived
  else none

/-- One page of the lookahead of a sequencer (R198). (DEDUCED, log entry 55.) -/
def State.lookStep (s : State) (q : Nat) (arrived : List Nat) : State :=
  let x := s.seqX q
  if s.seqState q = 0 ∨ s.get F.pgtLookaheadDepth 0 q ≤ x.look.path.length then s
  else
    match x.look.addr with
    | none => s
    | some a =>
      let g := pageOf a
      if (s.entry g).flowTab then
        match s.flowTable g arrived with
        | some w => s.visit q g x.look.stack ((flowEntries g w).filter fun e => decide (a ≤ e.record))
        | none => s
      else s.visit q g x.look.stack []

/-- The sequencer reaches a record at `a`: its page and those before it leave the lookahead path. -/
def State.reachPage (s : State) (q a : Nat) : State :=
  let x := s.seqX q
  if x.look.path.contains (pageOf a) then
    let l := (x.look.path.dropWhile fun g => g != pageOf a).drop 1
    s.setSeqX q { x with look := { x.look with path := l } }
  else s

/-! ### PANIC (R425) -/

/-- The prefetch buffer of a sequencer counts for PANIC: it is not STOPPED and has a record to fetch from a frame. -/
def State.panicCounts (s : State) (q : Nat) : Bool :=
  decide (s.seqState q ≠ 0) && match (s.seqX q).fill.pc with
    | some a => (s.entry (pageOf a)).resident && (s.pageFault a (s.recWords q)).isNone
    | none => false

/-- Bytes in the prefetch buffer. -/
def State.prefetched (s : State) (q : Nat) : Nat := bufBytes (s.recWords q) (s.seqX q).fill.buf

/-- PANIC as it stands after a change of buffers, states or frames. (DEDUCED, log entry 87.) -/
def State.updatePanic (s : State) : State :=
  let low := (List.range 4).filter fun q => s.panicCounts q && decide (s.prefetched q < s.get F.drmPanicLow * 1024)
  let still := s.dram.low.filter fun q => s.panicCounts q && decide (s.prefetched q < s.get F.drmPanicHigh * 1024)
  let all := (still ++ low).eraseDups
  let t := { s with dram := { s.dram with low := all } }
  let u := t.setBit F.drmPanicPanic 0 0 (!all.isEmpty)
  if all ≠ [] ∧ s.bit F.drmPanicPanic = false then u.count F.drmPanicCount F.drmPanicSaturated 0 0 1
  else if all = [] then u.issuePostponed
  else u

end Sys2Proof.Machine
end

