-- ==== Sys2Proof/Machine/OpsSite.lean ====
section
/-!
DEFINITION. OpsSite.lean: sites: the commit of the site map, their states at a start and a stop, their stops and their ends
(R218 to R231).
-/
namespace Sys2Proof.Machine

/-- The channels a map names. -/
def SiteMap.channels (m : SiteMap) : List Nat := (m.mapped 128).map (·.2)

/-- The map that a commit would leave for a site: staged where accepted. -/
def State.candidate (s : State) (accepted : List Nat) (k : Nat) : SiteMap :=
  if accepted.contains k then unitAt {} s.site.staging k else s.siteMap k

/-- One site names a channel twice, or two sites of one sequencer name one channel (R220). -/
def State.duplicates (s : State) (accepted : List Nat) : Bool :=
  (List.range 4).any fun q =>
    let cs := (List.range 32).flatMap fun k =>
      let m := s.candidate accepted k
      if m.seq = q then m.channels else []
    decide (cs.eraseDups.length ≠ cs.length)

/-- Some site names 1 to 3 distinct channels (R220). -/
def State.tooFew (s : State) (accepted : List Nat) : Bool :=
  (List.range 32).any fun k =>
    let n := (s.candidate accepted k).channels.eraseDups.length
    decide (1 ≤ n ∧ n ≤ 3)

/-- A dirty site is accepted in step 1: its current and its staged sequencer were STOPPED before the tick
(R220, R222). -/
def State.siteFree (s : State) (k : Nat) : Bool :=
  decide (s.seqBefore (s.siteMap k).seq = 0) && decide (s.seqBefore (unitAt {} s.site.staging k).seq = 0)

/-- A site-map commit (R220, R221): its result (1 ACCEPTED, 2 PARTIAL, 3 DUPLICATE, 4 TOO_FEW). (DEDUCED, log entry 56.) -/
def State.siteCommit (s : State) : Nat × State :=
  let dirty := (List.range 32).filter (testBit (s.get F.siteDirtyDirty))
  let acc := dirty.filter s.siteFree
  let ref := dirty.filter fun k => !s.siteFree k
  let t := ref.foldl (fun (u : State) k =>
    u.hwSetBit F.siteStatusRefused 0 0 k) s
  if s.duplicates acc then (3, t.set F.siteStatusResult 0 0 3)
  else if s.tooFew acc then (4, t.set F.siteStatusResult 0 0 4)
  else
    let changed := acc.any fun k => decide (unitAt {} s.site.staging k ≠ s.siteMap k)
    let u := acc.foldl (fun (u : State) k =>
      ({ u with site := { u.site with active := putUnit {} u.site.active k (unitAt {} u.site.staging k) } }).set
        F.siteDirtyDirty 0 0 (putBit (u.get F.siteDirtyDirty) k false)) t
    let v := if changed then u.set F.siteEpochEpoch 0 0 (u.get F.siteEpochEpoch + 1) else u
    let r := if ref = [] then 1 else 2
    (r, v.set F.siteStatusResult 0 0 r)

/-- The completion status of a site-map commit (R312). -/
def siteStatus (r : Nat) : Nat := if r = 2 then 0x0E else if r = 3 then 0x0F else if r = 4 then 0x10 else 0

/-- A write of the staging copy makes the site dirty (R220). -/
def State.stageSite (s : State) (k : Nat) (f : SiteMap → SiteMap) : State :=
  ({ s with site := { s.site with staging := putUnit {} s.site.staging k (f (unitAt {} s.site.staging k)) } }).set
    F.siteDirtyDirty 0 0 (putBit (s.get F.siteDirtyDirty) k true)

/-- A site at an accepted start of its sequencer (R223). A run whose end is not yet signalled becomes an old run. -/
def State.startSite (s : State) (q run k : Nat) : State :=
  let old := s.site.runs.map fun r => if r.site = k ∧ r.old = false then { r with old := true } else r
  let n := patternWidth (s.get F.seqCtrlWidth q)
  let all := (s.siteMap k).mapped n
  let kept := s.routed q k
  let t := ({ s with site := { s.site with runs := old } }).set F.sitekResultValid k 0 0
  if s.bit F.sitekCtrlRetire k then t.set F.sitekStatusState k 0 3
  else if s.bit F.sitekCtrlEnable k ∧ (s.siteMap k).channels ≠ [] then
    let u := (((t.set F.sitekStatusState k 0 1).set F.sitekStatusStopCause k 0 0).set F.sitekStatusMapped k 0 kept.length).set
      F.sitekStatusDropped k 0 (all.length - kept.length)
    { u with site := { u.site with runs := u.site.runs ++ [{ site := k, seq := q, run := run, epoch := s.get F.siteEpochEpoch }] } }
  else t.set F.sitekStatusState k 0 4

/-- The sites of a sequencer at its accepted start (R223). -/
def State.startSites (s : State) (q run : Nat) : State := (s.sitesOf q).foldl (fun t k => t.startSite q run k) s

/-- Cycle count of the next vector of a sequencer. -/
def State.cycle (s : State) (q : Nat) : Nat := s.get F.seqCycleCount q

/-- The vectors of a site end before cycle `n`: its channels park after what is queued (R112, R229, R231). -/
def State.endSite (s : State) (q k n endAt : Nat) : State :=
  let t := s.modSiteRun k fun r => { r with stopCycle := some (n % 2 ^ 48) }
  ((s.routed q k).map (·.2)).foldl (fun u c => if (u.chan c).parked then u else u.setPark c endAt) t

/-- A site that the vector of cycle `n`, which starts at `c`, does not reach has had its last vector (R180, R228, R229).
(DEDUCED, log entry 42.) -/
def State.settleSite (s : State) (q c n endAt k : Nat) : State :=
  match s.siteRun k with
  | some r => if r.stopCycle.isNone ∧ r.within c n = false then s.endSite q k n endAt else s
  | none => s

/-- The same for the sites of a sequencer. -/
def State.settleSites (s : State) (q c n endAt : Nat) : State :=
  (s.sitesOf q).foldl (fun t k => t.settleSite q c n endAt k) s

/-- A site becomes RETIRED (R229): no record decoded from now on reaches it. Once its vectors have all begun, its channels are to park
after the last of them. -/
def State.retire (s : State) (k : Nat) : State :=
  let st := s.get F.sitekStatusState k
  let q := (s.siteMap k).seq
  let t := s.set F.sitekStatusState k 0 3
  if st = 1 ∨ st = 2 then
    let u := (t.set F.sitekStatusStopCause k 0 3).modSiteRun k fun r =>
      { r with boundCycle := some (min (s.cycle q) (r.boundCycle.getD (s.cycle q))) }
    let x := u.seqX q
    if x.plan = [] then u.settleSite q x.nextAt (s.cycle q) x.lastEnd k else u
  else t

/-- The sites of a sequencer when it stops (R226, R231). -/
def State.stopSites (s : State) (q : Nat) : State :=
  (s.sitesOf q).foldl (fun t k =>
    let st := t.get F.sitekStatusState k
    let u := if st = 1 ∨ st = 2 ∨ (st = 3 ∧ t.bit F.sitekCtrlRetire k = false) then t.set F.sitekStatusState k 0 0 else t
    u.modSiteRun k fun r => { r with stopCycle := some (r.stopCycle.getD (s.cycle q % 2 ^ 48)) }) s

/-- A global flag as the decode of a record that starts at `c` reads it (R90): as the boundary before the present one left it; what
FAIL_GF of this device has set is seen from its bound on (R183). -/
def State.gfSeen (s : State) (i c : Nat) : Bool :=
  testBit s.gfPrev i && !(s.seqs.any fun e => e.2.gfBounds.any fun b => decide (b.1 = i) && decide (c < b.2))

/-- A GF stop may take the site: it is ACTIVE, or a fail of this very tick has stopped it, which is less final (R230). -/
def State.gfMayStop (s : State) (k : Nat) : Bool :=
  decide (s.get F.sitekStatusState k = 1)
  || (decide (s.get F.sitekStatusState k = 2) && decide (s.get F.sitekStatusStopCause k = 1)
      && match s.siteRun k with
        | some r => decide (r.failTick = s.ticks)
        | none => false)

/-- GF stops at the decode of a record that starts at `c` (R228, R230): the record and all later ones do not reach the site. -/
def State.gfStops (s : State) (q c : Nat) : State :=
  ((s.sitesOf q).filter fun k => s.gfMayStop k && s.bit F.sitekCtrlGfStopEn k
      && s.gfSeen (s.get F.sitekCtrlGfStopFlag k) c).foldl (fun t k =>
    ((t.set F.sitekStatusState k 0 2).set F.sitekStatusStopCause k 0 2).modSiteRun k fun r =>
      { r with bound := none, boundCycle := some (s.cycle q) }) s

/-- A compare of a run of a site still has no outcome. -/
def State.siteAwaits (s : State) (r : SiteRun) : Bool :=
  s.chans.any fun e =>
    ((outcomes e.2.win.isSome e.2.queue).any fun x => decide (x.site = r.site ∧ x.vec.seq = r.seq ∧ x.vec.run = r.run))
      || (e.2.flight.any fun x => decide (x.site = r.site ∧ x.vec.seq = r.seq ∧ x.vec.run = r.run))

/-- The end of a site's run is signalled (R231). -/
def State.siteEnd (s : State) (r : SiteRun) (stop : Nat) : State :=
  let w := stop % 2 ^ 48 + r.epoch % 256 * 2 ^ 48 + r.failed.toNat * 2 ^ 56 + 2 ^ 57
  let t := { s with site := { s.site with runs := s.site.runs.filter fun y => decide (y ≠ r) } }
  let u := if r.old then t else t.wr ⟨.sitekResult, r.site, 0⟩ (BitVec.ofNat 64 w)
  let v := if u.bit F.sitekCtrlResultEn r.site then
      u.setFlags (u.get F.sitekCtrlResultThread r.site) (2 ^ u.get F.sitekCtrlResultFlag r.site) .hw
    else u
  v.post 0x0301 r.site w

end Sys2Proof.Machine
end

