-- ==== Sys2Proof/Machine/OpsIssue.lean ====
section
/-!
DEFINITION. OpsIssue.lean: the issue of vectors at their cycle starts, and the table commits that take effect between them (R29,
R66, R116, R123, R124, R131 to R135).
-/
namespace Sys2Proof.Machine

/-! ### Table commits (R116, R117, R123, R124) -/

/-- The commands of table commits complete with status `st`. -/
def State.commitsDone (s : State) (st : Nat) (l : List (Option Token)) : State :=
  l.foldl (fun t c => match c with
    | some tok => t.completeSame tok st
    | none => t) s

/-- Table commits are applied, and their commands complete; PENDING reads 1 while another waits (R116, R124). -/
def State.commitNow (s : State) (q : Nat) (toks : List (Option Token)) : State :=
  let x := s.seqX q
  let t := s.applyCommit q
  (if x.commits = [] ∧ x.pegs = [] then t.set F.seqTsCtrlPending q 0 0 else t).commitsDone 0 toks

/-- Pending table commits are applied (R116, R117, R124). -/
def State.applyCommits (s : State) (q : Nat) : State :=
  let x := s.seqX q
  if x.commits = [] then s else (s.setSeqX q { x with commits := [] }).commitNow q (x.commits.map (·.2))

/-- The peg point at the end of the last record decoded serves the table commits `toks`: it is to apply them when it comes, with what
is staged then (R116, R124). -/
def State.pegCommit (s : State) (q : Nat) (toks : List (Option Token)) : State :=
  let x := s.seqX q
  if toks = [] then s
  else if x.lastEnd ≤ s.nowFu then s.commitNow q toks
  else s.setSeqX q { x with pegs := x.pegs ++ [(x.lastEnd, toks)] }

/-! ### Starts that a commit moves (R131) -/

/-- The starts of planned vectors that follow a vector which ends at `e` and has period `p`; `per` gives the period of each. -/
def replan (per : PlanVec → Nat) : Nat × Nat → List PlanVec → List PlanVec
  | _, [] => []
  | (e, p), v :: vs =>
    let p' := per v
    let c := if v.fixed then v.start else if v.vi ≠ 0 ∨ p' = p then e else ceilCt e
    { v with start := c } :: replan per (c + p', p') vs

/-- The instant that stands for `t` once the vectors of `old` start where those of `new` do. -/
def movedTo (old new : List PlanVec) (t : Nat) : Nat :=
  match (old.zip new).find? fun e => decide (e.1.start = t) with
  | some e => e.2.start
  | none => t

/-- The period of the last planned vector and its end. -/
def State.planEnd (s : State) (q : Nat) (l : List PlanVec) : Nat × Nat :=
  match l.getLast? with
  | some v =>
    let p := (s.tsetAt q v.tset v.start).period
    (v.start + p, p)
  | none => (s.seqX q).issued

/-- After a table commit the vectors that are decoded and have not begun start where their committed periods put them, and what
hangs on their starts and on the end of the last moves with them (R116, R124, R131). (DEDUCED, log entry 31.) -/
def State.retime (s : State) (q : Nat) : State :=
  let x := s.seqX q
  let new := replan (fun v => (s.tsetAt q v.tset v.start).period) x.issued x.plan
  let (e, p) := s.planEnd q new
  if x.plan = [] ∨ (new = x.plan ∧ e = x.lastEnd) then s
  else
    let at_ := fun t => if t = x.lastEnd then e else t
    let begins := movedTo x.plan new
    let act := fun (a : Nat × SeqAct) => match a.2 with
      | .trigger b c => (begins a.1, SeqAct.trigger b (begins c))
      | .window b k c => (begins a.1, SeqAct.window b k (begins c))
      | .stall => (at_ a.1, a.2)
      | .matchTimeout => (at_ a.1, a.2)
      | .failGf .. => a
      | .matchLate => a
      | b => (begins a.1, b)
    let t := s.setSeqX q { x with
      plan := new, lastEnd := e, nextAt := if x.nextAt = x.lastEnd then e else x.nextAt
      period := x.period.map fun _ => p
      pegs := x.pegs.map fun g => (at_ (begins g.1), g.2)
      due := x.due.map act
      hold := x.hold.map fun h => { h with since := begins h.since }
      ending := x.ending.map fun g => { g with endAt := at_ g.endAt } }
    (t.channelsOf q).foldl (fun u c => u.setChan c { (u.chan c) with parkAt := (u.chan c).parkAt.map at_ }) t

/-! ### Issue -/

/-- A vector's cycle begins: its events enter their channels' queues (R133, R135), sites that it does not reach have had their last
vector, and LOCKED bays tag it (R370). -/
def State.issueOne (s : State) (q : Nat) (v : PlanVec) : State :=
  let t := s.settleSites q v.start v.vec.cycle (s.seqX q).issued.1
  let u := (t.issueVector q v).tagVectors q [(v.start, v.vec.cycle)]
  let p := (s.tset q v.tset).period
  u.setSeqX q { u.seqX q with issued := (v.start + p, p) }

/-- What comes first among the peg points up to the present boundary that apply commits, and the planned vectors that start before
`lim`; `n` bounds their number. -/
def State.issueTo (s : State) (q lim : Nat) : Nat → State
  | 0 => s
  | n + 1 =>
    let x := s.seqX q
    let vec := match x.plan with
      | v :: vs => if v.start < lim then some (v, vs) else none
      | [] => none
    let peg := match x.pegs with
      | g :: gs => if g.1 ≤ s.nowFu then some (g, gs) else none
      | [] => none
    let byPeg := fun (g : Nat × List (Option Token)) gs =>
      ((s.setSeqX q { x with pegs := gs }).commitNow q g.2).retime q
    let byVec := fun v vs => (s.setSeqX q { x with plan := vs }).issueOne q v
    match peg, vec with
    | some (g, gs), some (v, vs) =>
      if g.1 ≤ v.start then (byPeg g gs).issueTo q lim n else (byVec v vs).issueTo q lim n
    | some (g, gs), none => (byPeg g gs).issueTo q lim n
    | none, some (v, vs) => (byVec v vs).issueTo q lim n
    | none, none => s

/-- Every sequencer issues the vectors that start before `lim`. -/
def State.issueAll (s : State) (lim : Nat) : State :=
  (List.range 4).foldl (fun (t : State) q =>
    t.issueTo q lim ((t.seqX q).plan.length + (t.seqX q).pegs.length)) s

end Sys2Proof.Machine
end

