-- ==== Sys2Proof/Machine/OpsSeq.lean ====
section
/-!
DEFINITION. OpsSeq.lean: sequencers: starts, resumes and launches, stop actions and peg points, park and the end of a run,
under-runs, conditions, and the decode and issue of one record (R65 to R119, R206 to R213).
-/
namespace Sys2Proof.Machine

/-! ### Commands of several parts -/

/-- The statuses of a CMD_ABORT as its write-back word 2 gives them (R316). -/
def abortWord (l : List (Nat × Option Nat)) : Nat := l.foldl (fun n e => n + e.2.getD 0 * 256 ^ e.1) 0

/-- STATUS: the first non-OK of them, in ascending sequencer. -/
def abortStatus (l : List (Nat × Option Nat)) : Nat :=
  ((l.find? fun e => e.2.getD 0 != 0).map fun e => e.2.getD 0).getD 0

/-- The abort of SEQ[q] has its outcome; the command completes with the last (R316). -/
def State.partDone (s : State) (tok : Token) (q st : Nat) : State :=
  match s.host.parts.find? (fun p => decide (p.1 = tok)) with
  | none => s
  | some (_, l) =>
    let l' := l.map fun e => if e.1 = q then (q, some st) else e
    let rest := s.host.parts.filter fun p => decide (p.1 ≠ tok)
    if l'.all fun e => e.2.isSome then
      let t := { s with host := { s.host with parts := rest } }
      match t.runDesc tok with
      | some d => t.complete tok (abortStatus l') d.w1 (BitVec.ofNat 64 (abortWord l')) d.w3
      | none => t
    else { s with host := { s.host with parts := rest ++ [(tok, l')] } }

/-- The same for an operation that may belong to no command. -/
def State.partDone? (s : State) (tok : Option Token) (q st : Nat) : State :=
  match tok with
  | some t => s.partDone t q st
  | none => s

/-! ### Stops (R111 to R119) -/

/-- Finality of a stop reason at a peg point (R116): aborts, then thermal and REF_LOST stops, then pauses. -/
def finality (reason : Nat) : Nat := if reason = 4 ∨ reason = 9 then 0 else if reason = 7 ∨ reason = 8 then 1 else 2

/-- The most final of the pending actions, the first of equals. -/
def mostFinal (l : List Pend) : Option Pend :=
  l.foldl (fun m p => match m with
    | none => some p
    | some b => if finality p.reason < finality b.reason then some p else some b) none

/-- The outcome of each stop action that was pending when a run ended (R116): aborts succeed when it ends STOPPED. -/
def State.endPends (s : State) (q : Nat) (paused : Bool) (reason : Nat) (l : List Pend) : State :=
  l.foldl (fun t p => t.partDone? p.tok q
    (if p.reason = reason ∨ (!paused ∧ p.reason = 4) ∨ (paused ∧ p.reason = 3) then 0 else 2)) s

/-- STATE becomes STOPPED or PAUSED, and STOP_REASON is written (R112, R117). -/
def State.finishStop (s : State) (q : Nat) (e : Ending) : State :=
  let t := s.applyCommits q
  let x := t.seqX q
  let stops := x.pend.filter fun p => decide (p.reason ≠ 3)
  let (paused, reason) : Bool × Nat := match e.paused, mostFinal stops with
    | true, some p => (false, p.reason)
    | b, _ => (b, e.reason)
  let u := (t.setSeqState q (if paused then 4 else 0)).set F.seqStatusStopReason q 0 reason
  let u := if reason = 9 ∧ x.underRec ∧ x.under then u.set F.seqUnderrunInfoAborted q 0 1 else u
  let v := match e.fault with
    | some (code, detail, a, c) =>
      ((((u.set F.seqStatusFault q 0 code).set F.seqFaultInfoAddress q 0 a).set F.seqFaultInfoDetail q 0 detail).set
        F.seqFaultCycleCycle q 0 c).post 0x0202 q (code + detail * 2 ^ 8 + a % 2 ^ 38 * 2 ^ 32)
    | none => u
  let w := v.setSeqX q { (v.seqX q) with
    pend := [], watch := none, forced := none, ending := none,
    hold := if paused then x.hold else none, rep := if paused then x.rep else 0,
    under := false, resumed := false }
  let w := w.set F.seqUnderrunStall q 0 0
  let y := if paused then w.resteer q (w.seqX q).pc else (((w.stopSites q).dclkHalt q).dropPath q).stopWindows q e.endAt
  ((y.endPends q paused reason x.pend).flushLog q).post 0x0201 q (reason + t.cycle q * 2 ^ 32)

/-- Channels whose park instant is reached park; when a run is ending and the last of its channels has parked, STATE is
written (R112). -/
def State.tryPark (s : State) (q : Nat) : State :=
  let x := s.seqX q
  let u := if x.plan = [] then s.settleSites q x.nextAt (s.cycle q) x.issued.1 else s
  let cs := ((u.sitesOf q).flatMap fun k => ((u.siteMap k).mapped 128).map (·.2)).eraseDups
  let t := u.parkDue cs
  match x.ending with
  | some e => if e.endAt ≤ t.nowFu ∧ (cs.all fun c => (t.chan c).parkAt.isNone) then t.finishStop q e else t
  | none => t

/-- Where a run that ends now has its end: the end of the last vector cycle issued (R112). Where that lies before the present
tick (the sequencer is STALLED, or nothing has been issued since it was started or resumed) drive states have held up to
now (R208, R212), and it is the present boundary. (DEDUCED, log entry 32.) -/
def State.stopEnd (s : State) (q : Nat) : Nat :=
  let e := (s.seqX q).lastEnd
  if e + 8192 ≤ s.nowFu then s.nowFu else e

/-- The run ends after the last vector cycle issued: channels are to park, and STATE follows (R112). The channels of a site that
has had its last vector keep the end of that one. -/
def State.beginStop (s : State) (q reason : Nat) (paused : Bool) (fault : Option (Nat × Nat × Nat × Nat)) : State :=
  let e := s.stopEnd q
  let t := (s.channelsOf q).foldl (fun u c =>
    if (u.chan c).parked ∨ (u.chan c).parkAt.isSome then u else u.setPark c e) s
  (t.setSeqX q { (t.seqX q) with ending := some ⟨reason, paused, e, fault⟩ }).tryPark q

/-- A program error at the record at `a` (R81, R119). -/
def State.fault (s : State) (q a code detail : Nat) : State :=
  s.beginStop q 6 false (some (code, detail, a, s.cycle q))

/-- The stop actions that are pending at a peg point decide (R116). -/
def State.servePends (s : State) (q : Nat) (l : List Pend) : Option State :=
  (mostFinal l).map fun p => s.beginStop q p.reason (decide (p.reason = 3)) none

/-- A stop action is sampled (R74, R115, R117, R212): the effect numbers rank finality within class 2. -/
def State.requestStop (s : State) (q reason : Nat) (src : Src) (tok : Option Token) : State :=
  let eff := if reason = 4 ∨ reason = 9 then 1 else if reason = 7 then 3 else if reason = 8 then 4 else 5
  match s.decideEvent (.seq q) 2 (srcRank src) eff with
  | (.superseded, t) => t.partDone? tok q 2
  | (_, t) =>
    let st := t.seqState q
    let x := t.seqX q
    if x.ending.isSome then t.setSeqX q { x with pend := x.pend ++ [⟨reason, t.ticks, tok⟩] }
    else if st = 0 then t.partDone? tok q 0
    else if st = 4 then
      if reason = 3 then t.partDone? tok q 0
      else (t.setSeqX q { x with pend := [⟨reason, t.ticks, tok⟩] }).finishStop q ⟨reason, false, t.nowFu, none⟩
    else
      let u := t.setSeqX q { x with
        pend := x.pend ++ [⟨reason, t.ticks, tok⟩], watch := some (x.watch.getD t.ticks) }
      if st = 3 then ((u.applyCommits q).servePends q (u.seqX q).pend).getD u else u

/-- A table commit is sampled (R123, R117, R212): its object is the timing store. On a sequencer that was STOPPED or PAUSED before
the tick it is applied at once (R62). -/
def State.tableCommit (s : State) (q : Nat) (src : Src) (tok : Option Token) : State :=
  match s.decideEvent (.store q) 4 (srcRank src) 1 with
  | (.superseded, t) => match tok with
    | some k => t.completeSame k 2
    | none => t
  | (_, t) =>
    let st := t.seqState q
    let x := t.seqX q
    let u := (t.setSeqX q { x with commits := x.commits ++ [(t.ticks, tok)] }).set F.seqTsCtrlPending q 0 1
    let b := t.seqBefore q
    if (st = 0 ∨ st = 4 ∨ st = 3 ∨ b = 0 ∨ b = 4) ∧ x.ending.isNone then u.applyCommits q else u

/-! ### Starts, resumes and launches (R70 to R73, R100, R101, R262, R263) -/

/-- The status with which the state of the device refuses a start (R28, R41, R70); 0 where it is accepted. Where several refuse it,
the spec does not say which status is given; here NOT_STOPPED goes before FAULT_PENDING, and that before BAY_BUSY and
REF_LOST. (DESIGN CHOICE, log entry 104.) -/
def State.startRefusal (s : State) (q : Nat) : Nat :=
  if s.seqState q ≠ 0 then 3
  else if s.get F.seqStatusFault q ≠ 0 then 5
  else if (s.baysOf q).any s.bayBusy then 6
  else if s.bit F.clkStatusRefLost then 7
  else 0

/-- The instant of a launch at the present boundary: LAUNCH_DELAY later (R71, R72, R100). -/
def State.launchAt (s : State) (q : Nat) : Nat := s.nowFu + s.get F.seqLaunchDelayDelay q * 1024

/-- The bits that an accepted start clears of the sequencer's registers (R71, R164). -/
def State.clearRun (s : State) (q : Nat) : State :=
  ((((s.set F.seqLflagsLf q 0 (s.get F.seqLflagsLfInit q)).set F.seqCycleCount q 0 0).set F.seqStatusStopReason q 0 0).set
    F.seqSiteFailSite q 0 0).set F.seqSiteFailSeq q 0 0

/-- An accepted start (R71, R126, R145, R223). A thermal stop becomes pending at once while HOT (R470).
(DEDUCED, log entry 37.) -/
def State.startRun (s0 : State) (q : Nat) : State :=
  let s := { s0 with ras := { s0.ras with out := s0.ras.out.filter fun b => decide (s0.bayOf b ≠ some q) } }
  let x := s.seqX q
  let run := x.run + 1
  let at0 := s.launchAt q
  let a := s.get F.seqEntryAddress q
  let t := ((s.clampAll q).startSites q run).clearRun q
  let u := (t.setLogX q { (t.logX q) with ffWant := [] }).setSeqX q {
    run := run, pc := a, nextAt := at0, lastEnd := s.nowFu, nextBlk := x.nextBlk, issued := (s.nowFu, 0),
    blocks := x.blocks.filter (·.timedOut), due := x.due.filter (fun e => decide (e.2 ≠ .stall)), gfBounds := x.gfBounds,
    pend := if s.bit F.thermStatusHot then [⟨7, s.ticks, none⟩] else [],
    watch := if s.bit F.thermStatusHot then some s.ticks else none,
    fill := { pc := some a }, look := { addr := some a } }
  let v := ((u.setSeqState q 1).unpark (u.channelsOf q)).dclkLaunch q at0
  v.srExit 3

/-- A start (R70): its status. -/
def State.start (s : State) (q : Nat) (src : Src) : Nat × State :=
  match s.judge (.seq q) 5 (srcRank src) 1 with
  | (.superseded, _) => (2, s.superseded)
  | (.merged, _) => (0, s)
  | (.acts, _) =>
    if s.startRefusal q ≠ 0 then (s.startRefusal q, s)
    else (0, (s.decideEvent (.seq q) 5 (srcRank src) 1).2.startRun q)

/-- A PAUSED sequencer continues (R72). -/
def State.resumeRun (s : State) (q : Nat) : State :=
  let x := s.seqX q
  let t := s.setSeqX q { x with
    nextAt := s.launchAt q, period := none, peg := false,
    hold := x.hold.map fun h => { h with withheld := false } }
  ((t.setSeqState q (if x.hold.isSome then 2 else 1)).unpark
    (((t.sitesOf q).filter fun k => decide (t.get F.sitekStatusState k = 1)).flatMap fun k => (t.routed q k).map (·.2))).resteer
      q x.pc

/-- A resume (R72): its status. -/
def State.resume (s : State) (q : Nat) (src : Src) : Nat × State :=
  match s.judge (.seq q) 5 (srcRank src) 2 with
  | (.superseded, _) => (2, s.superseded)
  | (.merged, _) => (0, s)
  | (.acts, _) =>
    if s.seqState q ≠ 4 then (4, s)
    else (0, (s.decideEvent (.seq q) 5 (srcRank src) 2).2.resumeRun q)

/-- A raising finds a sequencer that it cannot launch (R101). -/
def State.raiseMissed (s : State) (q : Nat) : Nat × State := (0x21, s.hwSet F.seqStatusRaiseMissed q 0)

/-- A raising releases a WAITRAISE (R100, R263). (DEDUCED, log entry 32.) -/
def State.releaseHold (s : State) (q : Nat) (h : Hold) : Nat × State :=
  let x := s.seqX q
  match h.start, h.release with
  | some _, _ => if h.firedAt = s.ticks then (h.fired, s) else s.raiseMissed q
  | none, some _ => s.raiseMissed q
  | none, none =>
    let i := s.launchAt q
    let late := decide (i < x.nextAt) && !h.withheld
    let st := if late then 0x20 else 0
    (st, s.setSeqX q { x with hold := some { h with
      start := some (if late then ceilCt x.nextAt else i), firedAt := s.ticks, fired := st, withheld := false } })

/-- A raising launch of a sequencer (R262): the outcome of its RAISE_DONE record. What it does follows from the state before the tick:
a start, a resume, or the release of a WAITRAISE; one that a start or resume of the same tick has already made merges with it (R57,
R101). -/
def State.launch (s : State) (q : Nat) : Nat × State :=
  let st := s.seqState q
  let was := s.seqBefore q
  let x := s.seqX q
  let refuse := if (s.baysOf q).any s.bayBusy then 6 else if s.bit F.clkStatusRefLost then 7 else 0
  let eff := if was = 4 then 2 else if was = 0 then 1 else 3
  match s.judge (.seq q) 5 (srcRank .raising) eff with
  | (.superseded, _) => (2, s.superseded)
  | (v, _) =>
    if v = .merged ∧ eff ≠ 3 then (0, s)
    else if x.ending.isSome then s.raiseMissed q
    else if st = 0 then s.start q .raising
    else if st = 4 then (if refuse ≠ 0 then (refuse, s) else s.resume q .raising)
    else if st = 2 then
      match x.hold with
      | some h =>
        if h.raise then
          (if refuse ≠ 0 then (refuse, s) else (s.decideEvent (.seq q) 5 (srcRank .raising) 3).2.releaseHold q h)
        else s.raiseMissed q
      | none => s.raiseMissed q
    else s.raiseMissed q

/-! ### Barriers (R103) -/

/-- SEQ[q] arrives at barrier `i`: its own arrival, a local arrival for every other sequencer, and a message to the peer
domain where BROADCAST is set. An arrival stays until a release uses it: the spec does not say that the end of the hold by a
timeout, a stop or a start withdraws it. (DESIGN CHOICE, log entry 105.) -/
def State.arrive (s : State) (q i : Nat) : State :=
  let b := s.bar q i
  let t := s.setBar q i { b with own := b.own + 1 }
  let u := (List.range 4).foldl (fun u n =>
    if n = q then u
    else
      let c := u.bar n i
      u.setBar n i { c with loc := putUnit 0 c.loc q (unitAt 0 c.loc q + 1) }) t
  if s.bit F.seqBarrierBroadcast q i then u.broadcastOp (barrierEntry q i ((s.get F.seqBarrierGen q i + b.own) % 16)) else u

/-- All participants of a barrier have arrived for one generation. -/
def State.barrierMet (s : State) (q i : Nat) : Bool :=
  let b := s.bar q i
  decide (1 ≤ b.own)
  && ((List.range 4).all fun n => n == q || !testBit (s.get F.seqBarrierLocal q i) n || decide (1 ≤ unitAt 0 b.loc n))
  && decide (s.get F.seqBarrierRemote q i ≤ unitAt 0 b.rem (s.get F.seqBarrierGen q i))

/-- The barrier releases: GEN advances, the arrivals are used, and a hold in that barrier ends at this boundary. -/
def State.barrierRelease (s : State) (q i : Nat) : State :=
  let b := s.bar q i
  let gen := s.get F.seqBarrierGen q i
  let loc := (List.range 4).foldl (fun l n =>
    if n ≠ q ∧ testBit (s.get F.seqBarrierLocal q i) n then putUnit 0 l n (unitAt 0 l n - 1) else l) b.loc
  let t := ((s.setBar q i { own := b.own - 1, loc := loc, rem := putUnit 0 b.rem gen 0 }).set F.seqBarrierGen q i
    ((gen + 1) % 16)).showArrived q i
  let x := t.seqX q
  match x.hold with
  | some h =>
    if h.raise = false ∧ h.bar = i ∧ h.release.isNone then
      t.setSeqX q { x with hold := some { h with release := some t.ticks } }
    else t
  | none => t

/-! ### Under-runs (R208 to R213) -/

/-- The record lies in a no-stall page or range (R210, R217). -/
def State.noStallAt (s : State) (q a : Nat) : Bool :=
  (s.entry (pageOf a)).noStall
  || (List.range 4).any fun i => s.bit F.seqNostallStartEnable q i
      && decide (s.get F.seqNostallStartAddress q i ≤ a) && decide (a ≤ s.get F.seqNostallEndAddress q i)

/-- The sequencer enters STALLED, and what is pending acts at once (R208, R212). -/
def State.enterStall (s : State) (q : Nat) : State :=
  let x := s.seqX q
  if x.under ∧ x.ending.isNone ∧ (s.seqState q = 1 ∨ s.seqState q = 2) then
    let t := ((s.set F.seqStatusState q 0 3).setSeqX q { x with stallAt := s.ticks }).applyCommits q
    (t.servePends q (t.seqX q).pend).getD t
  else s

/-- The record at `a` is not available at its decode (R208, R210). -/
def State.underrun (s : State) (q a : Nat) : State :=
  let c := s.cycle q
  let first := !s.bit F.seqUnderrunUnderrun q
  let t := if first then
      (((((s.hwSet F.seqUnderrunUnderrun q 0).set F.seqUnderrunInfoAddress q 0 a).set F.seqUnderrunInfoAborted q 0 0).set
        F.seqUnderrunCycleCycle q 0 c)).post 0x0204 q (a % 2 ^ 38 + c % 2 ^ 64 * 2 ^ 64)
    else s
  let u := t.count F.seqUnderrunCount F.seqUnderrunSaturated q 0 1
  let x := u.seqX q
  let u := (if x.fill.buf = [] ∧ x.fill.pc = some a then u else u.resteer q a).request
    { page := pageOf a, level := 1, want := .demand }
  if s.noStallAt q a then
    (if first then u.set F.seqUnderrunInfoAborted q 0 1 else u).beginStop q 9 false none
  else
    let x := u.seqX q
    let v := (u.set F.seqUnderrunStall q 0 1).setSeqX q { x with under := true, underRec := first, peg := true }
    if x.lastEnd ≤ v.nowFu then v.enterStall q else v.defer q x.lastEnd [.stall]

/-! ### Conditions (R85 to R91) -/

/-- A record that starts at `c` sees the accumulator of site `k` (32: the sequencer's) set (R88). -/
def State.accSeen (s : State) (q k c : Nat) : Bool :=
  match (s.seqX q).acc.find? (fun e => decide (e.1 = k)) with
  | some e => decide (e.2 ≤ c)
  | none => false

/-- The accumulators that a record starting at `c` sees. -/
def State.seen (s : State) (q c : Nat) : List Nat := (List.range 33).filter fun k => s.accSeen q k c

/-- The condition of a record that starts at `c` (R87). -/
def State.condHolds (s : State) (q cond c : Nat) : Bool :=
  if cond = 0 then true
  else if cond = 1 then false
  else if cond < 8 then s.passHolds q cond (s.seen q c)
  else if cond < 0x20 then testBit (s.get F.seqLflagsLf q) (cond - 0x10)
  else if cond < 0x30 then !testBit (s.get F.seqLflagsLf q) (cond - 0x20)
  else if cond < 0x38 then s.gfSeen (s.get F.seqCondGfselSlot q / 64 ^ (cond - 0x30) % 64) c
  else !s.gfSeen (s.get F.seqCondGfselSlot q / 64 ^ (cond - 0x38) % 64) c

/-- FAILSTOP (R181). -/
def State.failStop (s : State) (q c : Nat) : Bool :=
  let m := s.get F.seqFailstopMode q
  (decide (m = 1) && s.condHolds q 2 c) || (decide (m = 2) && s.condHolds q 4 c)
    || (s.bit F.seqFailstopGfEn q && s.gfSeen (s.get F.seqFailstopFlag q) c)

/-! ### One record (R65 to R99) -/

/-- The base loop depth of the present call frame (R80). -/
def SeqX.frame (x : SeqX) : Nat :=
  match x.stack with
  | (_, d) :: _ => d
  | [] => 0

/-- The block of the open match level. -/
def SeqX.openBlock (x : SeqX) : Option Block :=
  match x.levels.find? (·.isMatch) with
  | some l => x.blocks.find? fun b => decide (b.id = l.blk)
  | none => none

/-- A program error of the record with control word `w`, starting at `c` (R67, R75 to R82, R92, R96, R119). Where a record meets several,
the spec does not say which is reported; here the first of this list is: a reserved code, a 17th unresolved pass, a nested
MATCH, then the levels and stacks. (DESIGN CHOICE, log entry 39.) -/
def State.recordFault (s : State) (q w c : Nat) : Option (Nat × Nat) :=
  let x := s.seqX q
  let n := x.levels.length
  let pop := vcwPop w
  let jump : Option (Nat × Nat) :=
    if pop + x.frame ≤ n then none else if pop ≤ n then some (2, 2) else some (2, 3)
  let op := vcwOp w
  if 0x14 < op then some (4, 0)
  else if (op = 7 ∨ op = 8 ∨ op = 0x12) ∧ 8 ≤ vcwCond w ∧ vcwCond w < 0x10 then some (4, 1)
  else if (op = 9 ∨ op = 0x0A) ∧ w / 64 % 4 = 3 then some (4, 2)
  else if x.newPass ∧ 16 < ((x.openBlock.map fun b => (b.passes.filter fun p => p.unresolved (s.passesAwaited q) b.id c).length).getD 0) + 1
      then some (3, 1)
  else if op = 8 ∧ x.levels.any (·.isMatch) then some (3, 0)
  else if (op = 1 ∨ op = 8) ∧ 16 ≤ n then some (2, 0)
  else if op = 2 ∧ n = 0 then some (2, 1)
  else if op = 2 ∧ n ≤ x.frame then some (2, 2)
  else if op = 4 ∧ 32 ≤ x.stack.length then some (1, 0)
  else if op = 5 ∧ x.stack = [] then some (1, 1)
  else if op = 5 ∧ x.frame < n then some (2, 2)
  else if op = 6 then jump
  else if op = 7 ∧ s.condHolds q (vcwCond w) c then jump
  else none

/-- The nominal start of a record in timing set `t` (R131, R132): a change of period resets the phase. -/
def State.startOf (s : State) (q t : Nat) : Nat :=
  let x := s.seqX q
  match x.period with
  | none => x.nextAt
  | some p => if (s.tsetAt q t x.nextAt).period = p then x.nextAt else ceilCt x.nextAt

/-- The vectors of one record are issued, the first to start at `c` (R66, R69, R131, R160); `later`: a later hold repetition (R98).
What the spec gives a record at its decode is taken now: the masks, the loop iterations, and MATCH_CTRL.LOG, of which the spec does
not say when it is sampled (DESIGN CHOICE, log entry 106). (DEDUCED, log entry 30.) -/
def State.issue (s : State) (q a w : Nat) (words : List Nat) (c : Nat) (later : Bool) : State :=
  let p := (s.tsetAt q (vcwTset w) c).period
  let n0 := s.cycle q
  let x := s.seqX q
  let m := x.levels.find? (·.isMatch)
  let it := fun i => match x.levels[i]? with
    | some (l : Level) => l.iter
    | none => 4294967295
  let info : VecInfo := {
    seq := q, run := x.run, cycle := n0, vaddr := a, epoch := s.get F.siteEpochEpoch,
    inner := it 0, outer := it 1, cap := vcwCap w, quiet := m.isSome && !s.bit F.seqMatchCtrlLog q,
    blk := m.map fun l => (l.blk, l.iter) }
  let k := vectors (s.get F.seqCtrlMode q)
  let first : PlanVec := {
    start := c, fixed := x.period.isNone, tset := vcwTset w, vi := 0, words := words, later := later
    mask := s.get F.seqMaskPins q (2 * vcwMask w) + s.get F.seqMaskPins q (2 * vcwMask w + 1) * 2 ^ 64
    static := (List.range 8).map fun b => s.get F.bayStaticMaskMask b
    vec := info }
  let plan := (List.range k).map fun v =>
    { first with start := c + v * p, fixed := first.fixed && v == 0, vi := v, vec := { info with cycle := n0 + v } }
  (((s.setSeqX q { x with
    plan := x.plan ++ plan
    nextAt := c + k * p, lastEnd := c + k * p, period := some p, cur := words, peg := vcwPeg w, under := false,
    resumed := false, newPass := false }).set F.seqCycleCount q 0 (n0 + k)).set F.seqPositionPc q 0 a).set
    F.seqUnderrunStall q 0 0

/-- A new pass of the open match level begins with the record that is decoded (R92). -/
def State.openPass (s : State) (q : Nat) : State :=
  let x := s.seqX q
  match x.newPass, x.levels.find? (·.isMatch) with
  | true, some l => s.setSeqX q { x with blocks := x.blocks.map fun b =>
      if b.id = l.blk then { b with passes := b.passes ++ [{ n := l.iter }] } else b }
  | _, _ => s

/-- What a peg point, the watchdog or FAILSTOP does before the next record, whose start `start` gives (R116, R118, R181): the state
after the commits, or the state in which the run ends. (DEDUCED, log entry 31.) -/
def State.beforeRecord (s : State) (q : Nat) (start : State → Nat) : Bool × State :=
  let x := s.seqX q
  let dec := start s - 65536
  let t := if x.peg then
      (s.setSeqX q { x with commits := x.commits.filter fun e => decide (dec < e.1 * 8192) }).pegCommit q
        ((x.commits.filter fun e => decide (e.1 * 8192 ≤ dec)).map (·.2))
    else s
  let ready := if x.peg then x.pend.filter fun p => decide (p.tick * 8192 ≤ dec) else []
  match t.servePends q ready with
  | some u => (true, u)
  | none =>
    let forced : Option Pend := match x.forced, x.pend with
      | some e, p :: _ => if e < dec then some p else none
      | _, _ => none
    match forced with
    | some p => (true, ((t.hwSet F.seqStatusPegForced q 0).post 0x0203 q p.reason).beginStop q p.reason
        (decide (p.reason = 3)) none)
    | none =>
    if t.failStop q (start t) then (true, t.beginStop q 5 false none)
    else (false, t)

/-- The event ticks until clocks reach an instant (R262): Δ slews to zero and then stays there, so that the later of the two lines decides
for a negative Δ, the earlier for a positive one (R243). -/
def Clocks.ticksTo (c : Clocks) (t : Int) : Nat :=
  let up (x rate : Int) : Nat := ((x + rate - 1) / max 1 rate).toNat
  let a : Int := 8 * c.add c.sel
  let w : Int := 8 * c.slew
  if 0 ≤ c.delta then min (up (t - c.dom c.sel) a) (up (t - c.station) (a - w))
  else max (up (t - c.dom c.sel) a) (up (t - c.station) (a + w))

/-- The boundary at which a scheduled entry is expected to fire, from the present clocks. (DEDUCED, log entry 28.) -/
def State.expectedTick (s : State) (e : Nat) : Nat := s.ticks + s.clocks.ticksTo (s.raiseInstant e)

/-- The instant at which a raising is expected to release a WAITRAISE of SEQ[q] (R100). -/
def State.expectedRelease (s : State) (q : Nat) : Option Nat :=
  ((List.range 16).filter fun e => s.bit F.timeRaiseNsScheduled 0 e && testBit (s.get F.timeRaiseNsSeqmask 0 e) q).foldl
    (fun m e =>
      let i := s.expectedTick e * 8192 + s.get F.seqLaunchDelayDelay q * 1024
      some (match m with
        | some j => min i j
        | none => i)) none

/-- The sequencer can decode a record in the present tick: it runs, no end is under way, and the decode, 64 ct before the
record's start, lies in this tick or before it (R29). -/
def State.canDecode (s : State) (q : Nat) : Bool :=
  let x := s.seqX q
  let st := s.seqState q
  let start := match x.hold with
    | some h => h.start.getD x.nextAt
    | none => x.nextAt
  (if x.under then decide (st = 3) && x.resumed else decide (st = 1) || decide (st = 2)) && x.ending.isNone
    && !s.inReset (.seq q) && decide (start < s.nowFu + 65536 + 8192)

/-- The hold in force has ended for a record that would start where the next repetition would (R99, R100). -/
def SeqX.released (x : SeqX) : Bool :=
  match x.hold with
  | none => true
  | some h => h.start.isSome || match h.release with
    | some b => decide (b * 8192 + 65536 ≤ x.nextAt)
    | none => false

/-- The record's effect on flow and on the bays: from its address, its control word and its start. -/
abbrev Effect := Nat → Nat → Nat → State → State

/-- The record that is decoded is issued, and takes its effect. The next record follows it unless the effect says otherwise; behind the
last record of page 32,767 the spec names none, and the address runs on past the pattern space, where the next decode
faults. (DESIGN CHOICE, log entry 107.) -/
def State.go (s : State) (q a : Nat) (words : List Nat) (c : Nat) (later : Bool) (eff : Effect) : State :=
  let w := words.getD 0 0
  let t := (s.openPass q).issue q a w words c later
  eff a w c (((t.setSeqX q { (t.seqX q) with pc := a + words.length }).set F.seqStatusState q 0 1).reachPage q a)

/-- A further execution of the record in progress: a REPEAT execution or a hold repetition (R77, R98). -/
def State.again (s : State) (q op : Nat) (later : Bool) (eff : Effect) : State :=
  let x := s.seqX q
  let w := x.cur.getD 0 0
  let a := s.get F.seqPositionPc q
  if vcwOp w ≠ op then s
  else
    match s.beforeRecord q (fun t => t.startOf q (vcwTset w)) with
    | (true, t) => t
    | (false, t) => (t.gfStops q (t.startOf q (vcwTset w))).go q a x.cur (t.startOf q (vcwTset w)) later eff

/-- The next record at `a`, taken from the buffers with its words (R81). Its start follows from the timing sets that are in
force for it (R131). -/
def State.decodeAt (s : State) (q a op : Nat) (words : List Nat) (eff : Effect) : State :=
  let w := words.getD 0 0
  match s.beforeRecord q (fun t => t.startOf q (vcwTset w)) with
  | (true, t) => t
  | (false, t) =>
    let c := t.startOf q (vcwTset w)
    if words = [] then t.fault q a 5 4
    else
      match t.recordFault q w c with
      | some (code, detail) => t.fault q a code detail
      | none => if vcwOp w = op then (t.gfStops q c).go q a words c false eff else t

/-- The next record of a sequencer is decoded (R65, R186, R189, R206, R208). A record whose opcode is another one than `op` is
not decoded by this command. -/
def State.decodeNext (s : State) (q op : Nat) (eff : Effect) : State :=
  let x := s.seqX q
  let n := s.recWords q
  let a := x.pc
  let held := match x.hold with
    | some h => h.start
    | none => none
  -- a release by a raising starts the record at its instant, with a zero fraction (R100, R132)
  let s1 := s.setSeqX q { x with hold := none, nextAt := held.getD x.nextAt, period := if held.isSome then none else x.period }
  if crosses a n then
    match s1.beforeRecord q (fun t => (t.seqX q).nextAt) with
    | (true, t) => t
    | (false, t) => t.fault q a 4 3
  else
    match s1.takeRecord q a n with
    | some (words, t) =>
      let w := words.getD 0 0
      if words ≠ [] ∧ vcwOp w ≠ op ∧ vcwOp w ≤ 0x14 then s
      else t.decodeAt q a op words eff
    | none =>
      match s1.beforeRecord q (fun t => (t.seqX q).nextAt) with
      | (true, t) => t
      | (false, t) =>
        match t.pageFault a n with
        | some d => t.fault q a 5 d
        | none => t.underrun q a

/-- After a gap in which a hold issued no repetition, what follows starts at the later of the end of the last one and 64 ct from the
present boundary, rounded up, with a zero fraction (R99, R508). -/
def State.endGap (s : State) (q : Nat) : State :=
  let x := s.seqX q
  match x.hold with
  | some h =>
    if h.withheld ∧ x.nextAt < s.nowFu + 65536 then
      s.setSeqX q { x with nextAt := max (ceilCt x.nextAt) (s.nowFu + 65536), period := none }
    else s
  | none => s

/-- A later repetition of a hold (R98, R100, R508): not issued where it would end after the instant of an expected raising. -/
def State.repeatHold (s : State) (q op : Nat) (h : Hold) (eff : Effect) : State :=
  let x := s.seqX q
  let w := x.cur.getD 0 0
  let c := s.startOf q (vcwTset w)
  let len := vectors (s.get F.seqCtrlMode q) * (s.tsetAt q (vcwTset w) c).period
  let t := s.setSeqX q { x with hold := some { h with withheld := false } }
  match h.raise, s.expectedRelease q with
  | true, some i =>
    if i < c + len then s.setSeqX q { x with hold := some { h with withheld := true } } else t.again q op true eff
  | _, _ => t.again q op true eff

/-- The record command of opcode `op` on SEQ[q]: the sequencer decodes the record that is due, where it is of that opcode.
(DEDUCED, log entry 38.) -/
def State.record (s : State) (q op : Nat) (eff : Effect) : State :=
  if s.canDecode q = false then s
  else
    let x := s.seqX q
    if 0 < x.rep then s.again q op false eff
    else
      match x.hold with
      | some h =>
        let t := s.endGap q
        if (t.seqX q).released then t.decodeNext q op eff else t.repeatHold q op h eff
      | none => s.decodeNext q op eff

/-! ### Effects shared by records -/

/-- The next record follows. -/
def noEffect : Effect := fun _ _ _ s => s

/-- Levels are replaced; when the outermost is popped, its pages are no longer held (R196). -/
def State.setLevels (s : State) (q : Nat) (l : List Level) : State :=
  let x := s.seqX q
  let gone := (x.levels.filter fun v => v.isMatch && !l.any (fun u => u.isMatch && decide (u.blk = v.blk))).map (·.blk)
  s.setSeqX q { x with
    levels := l, tierB := if l = [] then [] else x.tierB
    blocks := x.blocks.filter fun b => b.timedOut || !gone.contains b.id }

/-- The next record is at `a`. -/
def State.goTo (s : State) (q a : Nat) : State := s.setSeqX q { (s.seqX q) with pc := a }

/-- A jump taken (R82). -/
def State.jump (s : State) (q w : Nat) : State :=
  (s.setLevels q ((s.seqX q).levels.drop (vcwPop w))).goTo q (vcwTarget w)

/-- A page becomes the most recently called target (R197). -/
def callTarget (g : Nat) (l : List Nat) : List Nat := (g :: l.filter fun p => decide (p ≠ g)).take 64

/-- A local flag is written (R89). -/
def State.setLf (s : State) (q i : Nat) (b : Bool) : State :=
  s.set F.seqLflagsLf q 0 (putBit (s.get F.seqLflagsLf q) (min i 15) b)

/-- The bays of an 8-bit mask that are assigned to the sequencer (R105). -/
def State.ownBays (s : State) (q mask : Nat) : List Nat := (s.baysOf q).filter (testBit mask)

end Sys2Proof.Machine
end

