-- ==== Sys2Proof/Machine/OpsCmd.lean ====
section
/-!
DEFINITION. OpsCmd.lean: doorbells and the states of rings, barriers, mail of the host, and the items of a table load
(R300 to R306, R317, R320, R322).
-/
namespace Sys2Proof.Machine

/-! ### Doorbells (R302, R303) -/

/-- Asks for the descriptors of `n` entries from entry `i` on. (DEDUCED, log entry 65.) -/
def State.askDescriptors (s : State) (q i : Nat) : Nat → State
  | 0 => s
  | n + 1 => State.askDescriptors (s.emit (.hostRead (s.ringAddr q i) 32)) q ((i + 1) % s.ringSize q) n

/-- A discarded doorbell (R302). -/
def State.dbOverrun (s : State) (q idx : Nat) : State := (s.hwSet F.ringStatusDbOverrun q 0).post 0x0802 q idx

/-- PROD and CONS as the start of the tick had them. -/
def State.startProd (s : State) (q : Nat) : Nat := s.before F.ringIndexProd q
def State.startCons (s : State) (q : Nat) : Nat := s.before F.ringIndexCons q

/-- A doorbell with a clamped index acts (R302): several of one tick count from the indices at its start (R303). -/
def State.ringDoorbell (s : State) (q idx : Nat) : State :=
  let n := s.ringSize q
  if hostProduced (s.get F.ringCfgType q) then
    let p := s.startProd q
    let used := (p + n - s.get F.ringIndexCons q) % n
    let add := (idx + n - p) % n
    if n - 1 < used + add then s.dbOverrun q idx
    else
      let had := (s.get F.ringIndexProd q + n - p) % n
      (s.set F.ringIndexProd q 0 idx).askDescriptors q (s.get F.ringIndexProd q) (add - had)
  else
    let c := s.startCons q
    if (s.get F.ringIndexProd q + n - c) % n < (idx + n - c) % n then s.dbOverrun q idx
    else (s.set F.ringIndexCons q 0 idx).reportLost q

/-- A doorbell write (R298, R302, R303): class 5; ignored where the ring is not ENABLED. -/
def State.doorbell (s : State) (q value : Nat) : State :=
  let i := value % 65536
  match s.judge (.ring q) 5 (srcRank (.host q)) 1 with
  | (.superseded, _) => s.superseded
  | _ =>
    if s.ringEnabled q = false then s
    else
      let t := (s.decideEvent (.ring q) 5 (srcRank (.host q)) 1).2
      let m := t.ringSize q - 1
      if m < i then (t.hwSet F.ringStatusDbClamped q 0).ringDoorbell q m else t.ringDoorbell q i

/-! ### Ring states (R300, R304 to R306) -/

/-- RESET_DONE is posted at the first EVENT ring enabled after host-ready (R475). -/
def State.resetDone (s : State) (q : Nat) : State :=
  if s.ras.doneDue ∧ s.get F.ringCfgType q = 2 then
    ({ s with ras := { s.ras with doneDue := false } }).post 0x0907 0 (s.get F.rasStatusLastReset)
  else s

/-- An ENABLE of a DISABLED ring (R300). -/
def State.ringEnableOp (s : State) (q : Nat) : State :=
  if s.get F.ringStatusState q = 0 then
    ((((s.set F.ringIndexProd q 0 0).set F.ringIndexCons q 0 0).set F.ringStatusState q 0 1).setRingX q
      { gen := (s.ringX q).gen + 1, lastRecord := (s.ringX q).lastRecord }).resetDone q
  else s

/-- Fetching stops: the ring drains what it is executing (R304). -/
def State.drain (s : State) (q : Nat) : State :=
  if s.get F.ringStatusState q = 1 then
    let r := s.ringX q
    let t := ((s.set F.ringStatusState q 0 2).setRingX q { r with fetched := [], ready := [] }).drained q
    (t.capBarriers q r.running.length).releaseBarriers
  else s

/-- A ring reset: the ring is DISABLED at once; what it writes in this tick is still written, and nothing from the next on (R303,
R305). (DEDUCED, log entry 64.) -/
def State.ringResetOp (s : State) (q : Nat) : State :=
  let t := (s.set F.ringStatusState q 0 0).setRingX q { (s.ringX q) with fetched := [], ready := [], ending := true }
  (t.capBarriers q 0).releaseBarriers

/-! ### Barriers (R320) -/

/-- What RING[r] makes a barrier of RING[q] wait for: descriptors announced before the tick and not written back, unless the
ring is itself held. -/
def State.barrierCount (s : State) (q r : Nat) : Nat :=
  let n := s.ringSize r
  if r = q ∨ hostProduced (s.get F.ringCfgType r) = false ∨ s.ringEnabled r = false ∨ (s.ringX r).barrier.isSome then 0
  else (s.startProd r + n - s.get F.ringIndexCons r) % n

/-- A CMD_BARRIER of RING[q] with its mask begins to wait; other barriers no longer wait for what stands behind it. -/
def State.holdBarrier (s : State) (q mask : Nat) : State :=
  let l := (bitsBelow 64 mask).map fun r => (r, s.barrierCount q r)
  let t := s.capBarriers q 0
  (t.setRingX q { (t.ringX q) with barrier := some l }).releaseBarriers

/-! ### Mail (R322, R355) -/

/-- The mail of a MAIL descriptor. -/
def State.descMail (s : State) (d : Desc) (tok : Token) : Mail :=
  { thread := bitsOf d.w1 0 10, flag := bitsOf d.w1 10 5, len := min 16 (bitsOf d.w1 24 5), chip := s.get F.oluChipId,
    data := wordBytes [d.w2, d.w3], source := .ring tok }

/-- A MAIL descriptor or a CMD_MAIL that has begun. -/
def State.hostMail (s : State) (d : Desc) (tok : Token) : State :=
  let m := s.descMail d tok
  if bitsOf d.w1 22 1 = 0 then
    if s.inboxRoom ∧ s.disp.heldMail = [] then (s.inboxPut m).completeSame tok 0
    else { s with disp := { s.disp with heldMail := s.disp.heldMail ++ [m] } }
  else
    match s.route (bitsOf d.w1 16 6) with
    | none => s.completeSame tok 0x0D
    | some p =>
      s.unicast p (bitsOf d.w1 16 6) 3 0 (bytesOf (m.thread + m.flag * 1024 + m.len * 65536) 4 ++ m.data) (some tok)

/-! ### Table loads (R317) -/

/-- Items of a table and words per item; 0 items: no such table. -/
def tableShape (t : Nat) : Nat × Nat :=
  if t = 1 then (64, 1) else if t = 2 then (8192, 6) else if t = 3 then (8192, 16) else if t = 4 then (16, 1)
  else if t = 5 then (32, 17) else if t = 6 then (64, 32) else (0, 0)

/-- TABLE, UNIT, FIRST and COUNT of a CMD_TABLE_LOAD, clamped (R316). -/
def tableFields (w2 : Word) : Nat × Nat × Nat × Nat :=
  let t := bitsOf w2 0 8
  let items := (tableShape t).1
  let unit := if t = 6 then min 7 (bitsOf w2 8 8) else if t = 5 then bitsOf w2 8 8 else min 3 (bitsOf w2 8 8)
  let first := min (items - 1) (bitsOf w2 16 16)
  (t, unit, first, max 1 (min (bitsOf w2 32 16) (items - first)))

end Sys2Proof.Machine
end

