-- ==== Sys2Proof/Machine/OpsFe.lean ====
section
/-!
DEFINITION. OpsFe.lean: the front-end masters: list words, requests, and the progress of a list (R109, R487 to R491).
-/
namespace Sys2Proof.Machine

/-- The front-end master of a bay. -/
def State.fe (s : State) (b : Nat) : FeX := unitAt {} s.fes b

/-- Stores a front-end master. -/
def State.setFe (s : State) (b : Nat) (x : FeX) : State := { s with fes := putUnit {} s.fes b x }

/-- OP of a list word (R488). -/
def feOp (w : Nat) : Nat := w / 2 ^ 60 % 16

/-- BITS of a WRITE. -/
def feBits (w : Nat) : Nat := w / 2 ^ 48 % 64

/-- A list word as it is stored (R488): reserved values of OP store 0, BITS is clamped to 1 to 48. -/
def feStore (w : Nat) : Nat :=
  if 3 < feOp w then w % 2 ^ 60
  else if feOp w = 1 then w - feBits w * 2 ^ 48 + max 1 (min 48 (feBits w)) * 2 ^ 48
  else w

/-- The word in progress of the running list. -/
def State.feWord (s : State) (b : Nat) : Nat :=
  if 32 ≤ (s.fe b).word then 0 else unitAt 0 (s.fe b).lists (32 * s.get F.bayFeStatList b + (s.fe b).word)

/-- A list runs. -/
def State.feRuns (s : State) (b : Nat) : Bool := s.bit F.bayFeStatRunning b

/-- The master is running this list. -/
def State.feListBusy (s : State) (b list : Nat) : Bool := s.feRuns b && decide (s.get F.bayFeStatList b = list)

/-- Stores list words, each by its place in the store. -/
def State.fePut (s : State) (b : Nat) (ws : List (Nat × Nat)) : State :=
  s.setFe b { (s.fe b) with lists := ws.foldl (fun l e => putUnit 0 l e.1 (feStore e.2)) (s.fe b).lists }

/-- An item of a table load (R317): a list that runs is written when it completes. -/
def State.feStage (s : State) (b list : Nat) (words : List Nat) : State :=
  let ws := (List.range words.length).map fun i => (32 * list + i, words.getD i 0)
  if s.feListBusy b list then s.setFe b { (s.fe b) with deferred := (s.fe b).deferred ++ ws } else s.fePut b ws

/-- A list starts; its first WRITE may assert its chip select from the boundary `k` on (R489). -/
def State.feBegin (s : State) (b list k : Nat) : State :=
  ((s.set F.bayFeStatRunning b 0 1).set F.bayFeStatList b 0 list).setFe b
    { (s.fe b) with word := 0, at_ := 2 * k, held := none, begun := false, wait := none, abort := false }

/-- A request discarded and counted (R109, R490). -/
def State.feOverrun (s : State) (b : Nat) : State := s.count F.bayFeStatOverrun F.bayFeStatSaturated b 0 1

/-- A request for a list (R109, R490). `cal`: by a calibration procedure. -/
def State.feRequest (s : State) (b list : Nat) (cal : Bool) : State :=
  if testBit (s.get F.calStatusBusy) b ∧ cal = false then s.feOverrun b
  else if s.feRuns b = false then s.feBegin b list (s.ticks + 1)
  else if s.bit F.bayFeStatQueued b then s.feOverrun b
  else (s.set F.bayFeStatQueued b 0 1).set F.bayFeStatQueuedList b 0 list

/-- The list that runs ends: what was staged for it is written, and a queued request starts at the next boundary (R317,
R489). -/
def State.feEnd (s : State) (b : Nat) : State :=
  let d := (s.fe b).deferred
  let t := ((s.set F.bayFeStatRunning b 0 0).setFe b
    { (s.fe b) with word := 0, held := none, begun := false, wait := none, abort := false, deferred := [] }).fePut b d
  if t.bit F.bayFeStatQueued b then
    (t.set F.bayFeStatQueued b 0 0).feBegin b (t.get F.bayFeStatQueuedList b) (t.ticks + 1)
  else t

/-- The word in progress has ended at `at_`: the next word follows, or the list ends after an ABORT (R489, R490).
(DEDUCED, log entry 100.) -/
def State.feNext (s : State) (b at_ : Nat) : State :=
  let x := s.fe b
  if x.abort then s.feEnd b
  else s.setFe b { x with word := x.word + 1, at_ := at_, begun := false, wait := none }

/-- Half a period of SCLK is DIV half event ticks (R487). -/
def State.feDiv (s : State) (b : Nat) : Nat := s.get F.bayFeCfgDiv b

/-- The instant of the first SCLK edge of the WRITE in progress: CS_LEAD half-periods behind its chip select, or one
half-period behind the last edge where HOLD has kept the chip select asserted. -/
def State.feEdge (s : State) (b w : Nat) : Nat :=
  let x := s.fe b
  if x.held = some (w / 2 ^ 59 % 2) then x.at_ + s.feDiv b
  else max x.at_ x.csFree + s.get F.bayFeCfgCsLead b * s.feDiv b

/-- The end of the WRITE in progress: its last edge with HOLD, else the deassertion of its chip select. -/
def State.feWriteEnd (s : State) (b w : Nat) : Nat :=
  s.feEdge b w + (2 * feBits w - 1) * s.feDiv b + (if testBit w 58 then 0 else s.get F.bayFeCfgCsLag b * s.feDiv b)

/-- A word of the running list with this OP is due: the previous word has ended before the next boundary. -/
def State.feDue (s : State) (b op : Nat) : Bool :=
  s.feRuns b && decide ((s.fe b).word < 32) && decide (feOp (s.feWord b) = op) && !(s.fe b).begun
    && decide ((s.fe b).at_ < 2 * s.ticks + 2)

/-- An ABORT (R490): the running list ends after the word in progress, and the queued request is discarded. -/
def State.feAbort (s : State) (b : Nat) : State :=
  let t := s.set F.bayFeStatQueued b 0 0
  let x := t.fe b
  let busy := x.begun || (decide (x.word < 32) && decide (feOp (t.feWord b) = 1) && decide (x.at_ ≤ 2 * t.ticks))
  if t.feRuns b = false then t
  else if busy then t.setFe b { x with abort := true }
  else t.feEnd b

/-- The master of a bay in reset: its list ends at once, both chip selects deasserted (R490). -/
def State.feReset (s : State) (b : Nat) : State := s.setFe b {}

end Sys2Proof.Machine
end

