-- ==== Sys2Proof/Machine/OpsTim.lean ====
section
/-!
DEFINITION. OpsTim.lean: the time-interval units: arms, edges, results and series (R398 to R410).
-/
namespace Sys2Proof.Machine

/-- A time-interval unit. -/
def State.tim (s : State) (m : Nat) : TimX := unitAt {} s.tims m

/-- Stores a time-interval unit. -/
def State.setTim (s : State) (m : Nat) (x : TimX) : State := { s with tims := putUnit {} s.tims m x }

/-- A field in force of TIM[m] (R407). -/
def TimX.get (x : TimX) (f : Fld) (m : Nat) : Nat := bitsOf (Assoc.rd resetWord x.act (f.key (m / 4) (m % 4))) f.lo f.width

/-- A register field of TIM[m]. -/
def State.timGet (s : State) (f : Fld) (m : Nat) : Nat := s.get f (m / 4) (m % 4)
def State.timSet (s : State) (f : Fld) (m v : Nat) : State := s.set f (m / 4) (m % 4) v

/-- TIM_STAT.STATE: 0 IDLE, 1 MEASURING, 2 SERIES. -/
def State.timState (s : State) (m : Nat) : Nat := s.timGet F.bayTimStatState m

/-- Counts for TIM[m]. -/
def State.timCount (s : State) (f : Fld) (m n : Nat) : State := s.count f F.bayTimStatCountSaturated (m / 4) (m % 4) n

/-! ### Arm (R407, R410) -/

/-- The status bits that an arm clears. -/
def timFlags : List Fld :=
  [F.bayTimStatDone, F.bayTimStatOrder, F.bayTimStatCoincident, F.bayTimStatSaturated, F.bayTimStatTimedout,
    F.bayTimStatInvalid, F.bayTimStatStale]

/-- An arm acts: the staged configuration and the deskews are in force for the measurement that begins (R148, R407). -/
def State.timBegin (s : State) (m : Nat) : State :=
  let keys : List RegKey := ([⟨.bayTimCfg, m / 4, m % 4⟩, ⟨.bayTimCount, m / 4, m % 4⟩, ⟨.bayTimTime, m / 4, m % 4⟩,
    ⟨.bayTimOfs, m / 4, m % 4⟩] : List RegKey) ++ (List.range 16).map fun i => (⟨.bayDeskew, m / 4, i⟩ : RegKey)
  let act := keys.foldl (fun l k => Assoc.wr RegKey.before resetWord l k (s.rd k)) []
  let x : TimX := { act := act, armTick := s.ticks, base := s.get F.clkEtcountCount, bad := s.bit F.clkStatusRefLost,
                    lostNew := (s.tim m).lostNew }
  let mode := x.get F.bayTimCfgMode m
  let y := if mode = 4 then { x with due := some (s.ticks + x.get F.bayTimCountGate m) } else x
  (timFlags.foldl (fun (t : State) f => t.timSet f m 0) (s.setTim m y)).timSet F.bayTimStatState m
    (if mode = 5 then 2 else 1)

/-- An arm of TIM[m] (R407); while the bay calibrates it is discarded and counted (R410). -/
def State.timArm (s : State) (m : Nat) (src : Src) : State :=
  if testBit (s.get F.calStatusBusy) (m / 4) then s.timCount F.bayTimStatBusyDiscard m 1
  else s.onObj (.tim m) 4 (srcRank src) 1 fun t => t.timBegin m

/-- The arms of TIM[m] by TIMARM records whose boundary is reached act (R108): after what the boundary samples (R56, R506). -/
def State.armsDue (s : State) (m : Nat) : State :=
  (List.range 4).foldl (fun (t : State) q =>
    let x := t.seqX q
    if x.due.any fun e => decide (tickAt e.1 ≤ t.ticks ∧ e.2 = .timArm m) then
      (t.setSeqX q { x with due := x.due.filter fun e => decide (¬(tickAt e.1 ≤ t.ticks ∧ e.2 = .timArm m)) }).timArm m (.seq q)
    else t) s

/-! ### Results (R402 to R405) -/

/-- A quotient rounded to nearest, ties upward. -/
def roundUp (x : Int) (n : Nat) : Int := (2 * x + n) / (2 * max 1 n)

/-- RESULT of a signed value in 2⁻¹⁶ fu: beyond 2⁴⁷ fu the nearer bound (R404), and whether it is beyond. -/
def boundResult (v : Int) : Nat × Bool :=
  (unsigned 64 (max (-(2 ^ 63 : Int)) (min (2 ^ 63 - 1) v)), decide ((2 : Int) ^ 63 < v) || decide (v < -(2 : Int) ^ 63))

/-- RESULT and AUX of the measurement that completes, and the state with the bits ORDER, COINCIDENT and SATURATED that they
set. A duty cycle of the whole time does not fit its field: its result is a free value. (DEDUCED, log entry 83.) -/
def State.timValues (s : State) (m : Nat) : (Nat × Nat) × State :=
  let x := s.tim m
  let mode := x.get F.bayTimCfgMode m
  let a := x.first.getD 0
  let z := x.final.getD 0
  let n := x.get F.bayTimCountN m
  if mode = 0 then
    let d : Int := (z : Int) - a
    let t := if d < 0 then s.timSet F.bayTimStatOrder m 1 else s
    if d.natAbs ≤ 2 then ((0, a), t.timSet F.bayTimStatCoincident m 1)
    else
      match boundResult (d * 65536) with
      | (r, big) => ((r, a), if big then t.timSet F.bayTimStatSaturated m 1 else t)
  else if mode = 1 then
    match boundResult (roundUp (((z : Int) - a) * 65536) n) with
    | (r, big) => ((r, a), if big then s.timSet F.bayTimStatSaturated m 1 else s)
  else if mode = 2 then
    match boundResult (((z : Int) - a) * 65536) with
    | (r, big) => ((r, a), if big then s.timSet F.bayTimStatSaturated m 1 else s)
  else if mode = 3 then
    let aux := unsigned 64 (roundUp (((z : Int) - a) * 65536) n)
    if z - a ≤ x.high then ((s.freeVal % 2 ^ 32, aux), s.useFree) else ((x.high * 2 ^ 32 / (z - a), aux), s)
  else if mode = 4 then
    ((min 4294967295 x.starts, 0), if 4294967295 ≤ x.starts then s.timSet F.bayTimStatSaturated m 1 else s)
  else ((x.written % 2 ^ 48, min 4294967295 x.lost), s)

/-- TIM[m] has completed with these results (R407, R409). -/
def State.timDone (s : State) (m result aux : Nat) : State :=
  let t := ((s.timSet F.bayTimResultResult m result).timSet F.bayTimAuxAux m aux).timSet F.bayTimStatDone m 1
  let t := (t.timSet F.bayTimStatState m 0).timSet F.bayTimStatStale m 0
  let t := if (t.tim m).bad ∨ t.bit F.clkStatusRefLost then t.timSet F.bayTimStatInvalid m 1 else t
  let t := t.setTim m { (t.tim m) with due := none }
  let stat := bitsOf (t.rd ⟨.bayTimStat, m / 4, m % 4⟩) 0 16
  let t := if t.timGet F.bayTimNotifyEventEn m = 1 then t.post 0x0C01 m (stat + result % 2 ^ 64 * 2 ^ 32) else t
  if t.timGet F.bayTimNotifyFlagEn m = 1 then
    t.setFlags (t.timGet F.bayTimNotifyThread m) (2 ^ t.timGet F.bayTimNotifyFlag m) .hw
  else t

/-- The measurement of TIM[m] ends without a result. -/
def State.timIdle (s : State) (m : Nat) : State :=
  (s.setTim m { (s.tim m) with due := none, queue := [] }).timSet F.bayTimStatState m 0

/-! ### Series (R408) -/

/-- Stamps are lost: LOST and AUX count them. -/
def State.timLost (s : State) (m n : Nat) : State :=
  let x := s.tim m
  let t := s.setTim m { x with lost := x.lost + n, lostNew := min 4294967295 (x.lostNew + n) }
  (t.timSet F.bayTimAuxAux m (min 4294967295 (x.lost + n))).timCount F.bayTimStatLost m n

/-- A stamp enters the queue of 64, or is lost. -/
def State.addStamp (s : State) (m : Nat) (st : Stamp) : State :=
  let x := s.tim m
  if 64 ≤ x.queue.length then s.timLost m 1
  else s.setTim m { x with queue := x.queue ++ [st], since := if x.queue = [] then s.ticks else x.since }

/-- A word of a stamp. -/
def Stamp.word (st : Stamp) : Nat := st.stop.toNat + st.rising.toNat * 2 + st.pos % 2 ^ 62 * 4

/-- The entry of KIND 0x9 that reports losses, where there were any. -/
def State.lossEntry (s : State) (m : Nat) : State :=
  let n := (s.tim m).lostNew
  if n = 0 then s
  else
    match s.ringPut (m / 4) [m * 2 ^ 40 + 0x9 * 2 ^ 60, n, 0, 0] with
    | (.full, t) => t
    | (_, t) => (t.setTim m { (t.tim m) with lostNew := 0 }).post 0x0C02 m n

/-- One entry of up to three stamps is written. -/
def State.seriesEntry (s : State) (m : Nat) : State :=
  let l := (s.tim m).queue.take 3
  if l = [] then s
  else
    let t := s.lossEntry m
    let x := t.tim m
    let w0 := x.base % 2 ^ 40 + m * 2 ^ 40 + l.length * 2 ^ 45 + (l.any (·.bad)).toNat * 2 ^ 47 + 0x8 * 2 ^ 60
    let ws := (l.map Stamp.word ++ [0, 0, 0]).take 3
    let y := { x with queue := x.queue.drop 3, since := t.ticks }
    match t.ringPut (m / 4) (w0 :: ws) with
    | (.written, u) => u.setTim m { y with written := x.written + l.length }
    | (.full, u) => (u.setTim m y).timLost m l.length
    | (.discarded, u) => u.setTim m y

/-- Every entry left is written; `n` bounds their number. -/
def State.flushSeries (s : State) (m : Nat) : Nat → State
  | 0 => s
  | n + 1 => if (s.tim m).queue = [] then s else (s.seriesEntry m).flushSeries m n

/-- A series ends after its last entry (R405, R407). -/
def State.endSeries (s : State) (m : Nat) : State :=
  let t := s.flushSeries m 22
  match t.timValues m with
  | ((r, a), u) => u.timDone m r a

/-! ### Edges (R399 to R403) -/

/-- The position of an edge of source `src` with what R399 removes: the deskew of a channel's path, and the unit's offset, both as its
arm took them (R148, R454). -/
def State.position (s : State) (m src : Nat) (stop : Bool) (p : Int) : Int :=
  let b := m / 4
  let act := fun (f : Fld) i => bitsOf (Assoc.rd resetWord (s.tim m).act (f.key b i)) f.lo f.width
  let d := if src < 16 then act F.bayDeskewCmph src else if src < 32 then act F.bayDeskewCmpl (src - 16) else 0
  p - d - signed 16 ((s.tim m).get (if stop then F.bayTimOfsStop else F.bayTimOfsStart) m)

/-- The edge lies outside the hold-off of `h` ct behind the last accepted edge (R401). -/
def outside (last : Option Nat) (h : Nat) (p : Int) : Bool :=
  match last with
  | some l => decide ((l + h * 1024 : Int) ≤ p)
  | none => true

/-- A polarity qualifies under an EDGE field. -/
def qualifies (edge : Nat) (rising : Bool) : Bool := if edge = 0 then rising else if edge = 1 then !rising else true

/-- The measurement uses its last edge at `p`: it completes at the first boundary at least 24 ct later (R404). -/
def TimX.completeAt (x : TimX) (p : Nat) : TimX := { x with due := some (x.armTick + (p + 24576 + 8191) / 8192) }

/-- An accepted start edge (R402). -/
def TimX.start (x : TimX) (m : Nat) (rising : Bool) (p : Nat) : TimX :=
  let mode := x.get F.bayTimCfgMode m
  let y := { x with lastStart := some p, starts := x.starts + 1 }
  if x.due.isSome ∧ mode ≠ 4 then { x with lastStart := some p }
  else if mode = 0 then
    if y.starts = x.get F.bayTimCfgNstart m then
      let z := { y with first := some p }
      match z.final with
      | some q => z.completeAt (max p q)
      | none => z
    else y
  else if mode = 1 then
    if x.starts = 0 then { y with first := some p }
    else if y.starts = x.get F.bayTimCountN m + 1 then ({ y with final := some p }).completeAt p
    else y
  else if mode = 2 then
    match x.first with
    | none =>
      if qualifies (x.get F.bayTimCfgStartEdge m) rising then
        if y.starts = x.get F.bayTimCfgNstart m then { y with first := some p, firstRising := rising } else y
      else { x with lastStart := some p }
    | some _ => if rising ≠ x.firstRising then ({ y with final := some p }).completeAt p else { x with lastStart := some p }
  else if mode = 3 then
    match x.first with
    | none =>
      if rising then { x with lastStart := some p, first := some p, level := true, prev := p, starts := 0 }
      else { x with lastStart := some p }
    | some _ =>
      let z := { x with lastStart := some p, level := rising, prev := p, high := if x.level then x.high + (p - x.prev) else x.high }
      if rising then
        if x.starts + 1 = x.get F.bayTimCountN m then ({ z with starts := x.starts + 1, final := some p }).completeAt p
        else { z with starts := x.starts + 1 }
      else z
  else if mode = 4 then (if p < x.get F.bayTimCountGate m * 8192 then y else x)
  else y

/-- An accepted stop edge (R402, R403); `counts`: stop edges are counted. -/
def TimX.stopEdge (x : TimX) (m p : Nat) (counts : Bool) : TimX :=
  if x.get F.bayTimCfgMode m = 0 ∧ counts ∧ x.final.isNone ∧ x.due.isNone then
    let y := { x with stops := x.stops + 1 }
    if y.stops = x.get F.bayTimCfgNstop m then
      let z := { y with final := some p }
      match z.first with
      | some q => z.completeAt (max p q)
      | none => z
    else y
  else x

/-- An edge of source `src` reaches TIM[m], its ball crossed at `p` fu from the boundary of the arm, the device's uniform
latency removed (R399 to R403, R408). (DEDUCED, log entry 82.) -/
def State.timEdge (s : State) (m src : Nat) (rising : Bool) (p : Int) : State :=
  let x := s.tim m
  let mode := x.get F.bayTimCfgMode m
  let both := mode = 2 ∨ mode = 3
  let same := decide (x.get F.bayTimCfgStartSrc m = x.get F.bayTimCfgStopSrc m)
  let p0 := s.position m src false p
  let p1 := s.position m src true p
  let h0 := x.get F.bayTimTimeHoldoffStart m
  let isStart := decide (x.get F.bayTimCfgStartSrc m = src) && decide (0 ≤ p0) && outside x.lastStart h0 p0
    && (decide both || qualifies (x.get F.bayTimCfgStartEdge m) rising)
  let isStop := (decide (mode = 0) || (decide (mode = 5) && decide (x.get F.bayTimCfgSeriesStop m = 1)))
    && decide (x.get F.bayTimCfgStopSrc m = src) && decide (0 ≤ p1) && qualifies (x.get F.bayTimCfgStopEdge m) rising
    && (if same then outside x.lastStart h0 p1 else outside x.lastStop (x.get F.bayTimTimeHoldoffStop m) p1)
  let counts := decide (x.get F.bayTimCfgSigned m = 1) || x.first.isSome
  let bad := s.bit F.clkStatusRefLost
  if s.timState m = 0 then s
  else
    let t := if isStart then s.setTim m (x.start m rising p0.toNat) else s
    let t := if isStart ∧ mode = 5 then t.addStamp m { stop := false, rising := rising, pos := p0.toNat, bad := bad } else t
    if isStop then
      let y := (t.tim m).stopEdge m p1.toNat counts
      let z := if same then { y with lastStart := some p1.toNat } else { y with lastStop := some p1.toNat }
      let u := t.setTim m z
      if mode = 5 then u.addStamp m { stop := true, rising := rising, pos := p1.toNat, bad := bad } else u
    else t

/-- Edges whose new level has persisted for 256 fu at the position `now` are detected (R400). -/
def State.timSettle (s : State) (m : Nat) (now : Int) : State :=
  let x := s.tim m
  let l := x.held.filter fun e => decide (e.2.2 + 256 ≤ now)
  l.foldl (fun (t : State) e => t.timEdge m e.1 e.2.1 e.2.2)
    (s.setTim m { x with held := x.held.filter fun e => decide (now < e.2.2 + 256) })

/-- The position of the present boundary, from the boundary of the arm. -/
def State.timNow (s : State) (m : Nat) : Int := ((s.ticks : Int) - (s.tim m).armTick) * 8192

/-- A crossing of source `src` (R400): it ends a pulse shorter than 256 fu, of which neither edge is detected, or it waits until its level has
persisted. -/
def State.timCross (s : State) (m src : Nat) (rising : Bool) (p : Int) : State :=
  let t := s.timSettle m p
  let x := t.tim m
  if t.timState m = 0 then t
  else if x.held.any (fun e => e.1 == src) then t.setTim m { x with held := x.held.filter fun e => !(e.1 == src) }
  else t.setTim m { x with held := x.held ++ [(src, rising, p)] }

/-! ### Reference loss and calibration (R409, R410) -/

/-- REF_LOST is set: what is measured is INVALID. -/
def State.timRefLost (s : State) : State :=
  (List.range 32).foldl (fun (t : State) m =>
    if t.timState m = 0 then t else t.setTim m { (t.tim m) with bad := true }) s

/-- Calibration of a bay begins: its measurements are abandoned, and the results read STALE. -/
def State.timCalibrate (s : State) (b : Nat) : State :=
  (List.range 4).foldl (fun (t : State) i => (t.timIdle (4 * b + i)).timSet F.bayTimStatStale (4 * b + i) 1) s

end Sys2Proof.Machine
end

