-- ==== Sys2Proof/Machine/OpsCal.lean ====
section
/-!
DEFINITION. OpsCal.lean: calibration: starts, the procedures' values, the update and the aborts, the MRAM store and its
records, and staleness (16_calibration.md, R437 to R455).
-/
namespace Sys2Proof.Machine

/-! ### Records of the store (R446 to R449) -/

/-- One bit of the CRC-32 of R448, reflected. -/
def crc32Bit (c : Nat) : Nat := if c % 2 = 1 then Nat.xor (c / 2) 0xEDB88320 else c / 2

/-- One byte of it. -/
def crc32Byte (c b : Nat) : Nat :=
  crc32Bit (crc32Bit (crc32Bit (crc32Bit (crc32Bit (crc32Bit (crc32Bit (crc32Bit (Nat.xor c (b % 256)))))))))

/-- CHECK of a record: over bytes 0 to 251 (R448). -/
def recordCheck (n : Nat) : Nat := Nat.xor ((bytesOf n 252).foldl crc32Byte 0xFFFFFFFF) 0xFFFFFFFF

/-- Numbers of `w` bits, the first lowest. -/
def packBits (w : Nat) : List Nat → Nat
  | [] => 0
  | x :: xs => x % 2 ^ w + 2 ^ w * packBits w xs

/-- `n` bytes of a record from byte `a` on. -/
def recBytes (r a n : Nat) : Nat := r / 256 ^ a % 256 ^ n

/-- A channel record without CHECK (R447). -/
def chanRecord (c flags deskew : Nat) (fdlin : List Nat) (qual temp period stamp : Nat) : Nat :=
  1 + c * 2 ^ 16 + flags * 2 ^ 24 + deskew * 2 ^ 32 + packBits 64 fdlin * 2 ^ 96 + qual * 2 ^ 608 + temp * 2 ^ 672
    + period % 2 ^ 42 * 2 ^ 688 + stamp % 2 ^ 96 * 2 ^ 736

/-- A bay record without CHECK (R447). -/
def bayRecord (b flags calBay : Nat) (tim adc : List Nat) (qual temp : Nat) : Nat :=
  1 + (0x80 + b) * 2 ^ 16 + flags * 2 ^ 24 + calBay * 2 ^ 32 + packBits 64 tim * 2 ^ 96 + packBits 32 adc * 2 ^ 352
    + qual * 2 ^ 1888 + temp * 2 ^ 1952

/-- A record with its CHECK. -/
def sealRecord (n : Nat) : Nat := n + recordCheck n * 2 ^ 2016

/-- Record `i` as the device is shipped (R449): calibrated at 25 °C with REFPATH 0, RTD 0. -/
def shippedRecord (i : Nat) : Nat :=
  let w := Config.shippedCal i
  if i < 128 then
    chanRecord i 3 (packBits 16 ((List.range 4).map fun k => w k % 8192)) ((List.range 8).map fun k => w (4 + k))
      (w 12 % 2 ^ 48 + 2 ^ 48) 400 (w 13) (w 14)
  else
    bayRecord (i - 128) 3 (w 0 % 2 ^ 16 * 2 ^ 16 + w 1 % 2 ^ 10 * 2 ^ 32) ((List.range 4).map fun k => w (2 + k) % 2 ^ 32)
      ((List.range 48).map fun k => w (6 + k)) (w 54 % 2 ^ 56 + 2 ^ 56) 400

/-- Record `i` of a bank: channels 0 to 127, then bays. -/
def Bank.record : Bank → Nat → Option Nat
  | .empty, _ => none
  | .shipped, i => some (shippedRecord i)
  | .image _ _ recs, i => recs[i]?

/-- A record passes CHECK, and carries its FORMAT, its index and CALIBRATED = 1 (R449). -/
def recordGood (i r : Nat) : Bool :=
  decide (recBytes r 252 4 = recordCheck r) && decide (recBytes r 0 2 = 1) && decide (recBytes r 2 1 = i)
    && testBit (recBytes r 3 1) 0

/-- The record that is loaded for `i`; `failed`: records whose cells have failed. -/
def Bank.good (k : Bank) (failed : List Nat) (i : Nat) : Option Nat :=
  if failed.contains i then none
  else
    match k with
    | .image _ _ _ => (k.record i).filter (recordGood i)
    | _ => k.record i

/-- GENERATION of a valid bank. -/
def Bank.gen? : Bank → Option Nat
  | .empty => none
  | .shipped => some 1
  | .image g _ _ => some g

/-- The active bank: 0 A, 1 B (R446). -/
def CalX.active (x : CalX) : Option Nat :=
  match x.bankA.gen?, x.bankB.gen? with
  | none, none => none
  | some _, none => some 0
  | none, some _ => some 1
  | some a, some b => if (b + 2 ^ 32 - a) % 2 ^ 32 = 0 ∨ 2 ^ 31 ≤ (b + 2 ^ 32 - a) % 2 ^ 32 then some 0 else some 1

/-- The content of the active bank. -/
def CalX.bank (x : CalX) : Bank :=
  match x.active with
  | some 0 => x.bankA
  | some _ => x.bankB
  | none => .empty

/-- Stores the bank that is not active. -/
def CalX.putOther (x : CalX) (k : Bank) : CalX := if x.active = some 0 then { x with bankB := k } else { x with bankA := k }

/-- ACTIVE_BANK, STORE_EMPTY and GENERATION as the store gives them. -/
def State.showStore (s : State) : State :=
  let t := s.set F.calStatusActiveBank 0 0 (s.cal.active.getD 0)
  (t.setBit F.calStatusStoreEmpty 0 0 s.cal.active.isNone).set F.calStatusGeneration 0 0 (s.cal.bank.gen?.getD 0)

/-! ### Loads (R449) -/

/-- CALIBRATED's opposite: the UNCALIBRATED bit of a channel, and of a bay. -/
def State.chUncal (s : State) (c : Nat) : Bool := testBit (s.get F.calChUncalUncal 0 (c / 64)) (c % 64)
def State.bayUncal (s : State) (b : Nat) : Bool := testBit (s.get F.calStatusBayUncal) b

/-- A load marks bit `n` of a mask as UNCALIBRATED: before HOST_READY as a value that the reset itself gives (R465), later as a
hardware set. -/
def State.uncal (s : State) (f : Fld) (i j n : Nat) : State :=
  if s.hostReady then s.hwSetBit f i j n else s.putMask f i j n true

/-- A channel record that passes is loaded; another leaves the channel UNCALIBRATED. -/
def State.loadChan (s : State) (failed : List Nat) (c : Nat) : State :=
  let b := c / 16
  let i := c % 16
  match s.cal.bank.good failed c with
  | none => s.uncal F.calChUncalUncal 0 (c / 64) (c % 64)
  | some r =>
    let t := s.wr ⟨.bayDeskew, b, i⟩ (BitVec.ofNat 64 (recBytes r 4 8))
    let t := (List.range 8).foldl (fun (u : State) k =>
      u.wr ⟨.bayFdlin, b, i * 8 + k⟩ (BitVec.ofNat 64 (recBytes r (12 + 8 * k) 8))) t
    let t := t.wr ⟨.bayCalQual, b, i⟩ (withBits (withBits (BitVec.ofNat 64 (recBytes r 76 8)) 49 1 0) 48 1 1)
    let m : CalInfo := { temp := signed 16 (recBytes r 84 2), period := recBytes r 86 6 % 2 ^ 42, stamp := recBytes r 92 12,
                         refDefault := testBit (recBytes r 3 1) 1 }
    ({ t with cal := { t.cal with info := putUnit {} t.cal.info c m } }).putMask F.calChUncalUncal 0 (c / 64) (c % 64) false

/-- A bay record that passes is loaded; another leaves the bay UNCALIBRATED. -/
def State.loadBay (s : State) (failed : List Nat) (b : Nat) : State :=
  match s.cal.bank.good failed (128 + b) with
  | none => s.uncal F.calStatusBayUncal 0 0 b
  | some r =>
    let t := s.wr ⟨.bayCalBay, b, 0⟩ (BitVec.ofNat 64 (recBytes r 4 8))
    let t := (List.range 4).foldl (fun (u : State) k =>
      u.wr ⟨.bayTimOfs, b, k⟩ (BitVec.ofNat 64 (recBytes r (12 + 8 * k) 8))) t
    let t := (List.range 48).foldl (fun (u : State) k =>
      u.wr ⟨.bayAdcCal, b, k⟩ (BitVec.ofNat 64 (recBytes r (44 + 4 * k) 4))) t
    let t := t.wr ⟨.bayAdcQual, b, 0⟩ (withBits (withBits (BitVec.ofNat 64 (recBytes r 236 8)) 57 1 0) 56 1 1)
    let t := t.setBit F.calBayStatRefDefault 0 b (testBit (recBytes r 3 1) 1)
    ({ t with cal := { t.cal with bayTemp := putUnit 0 t.cal.bayTemp b (signed 16 (recBytes r 244 2)) } }).putMask
      F.calStatusBayUncal 0 0 b false

/-- The records of a bay are loaded; those that are not are reported in a CAL_UNCAL event record. -/
def State.loadCal (s : State) (failed : List Nat) (b : Nat) : State :=
  let k := s.cal.bank
  let chans := (List.range 16).map fun i => 16 * b + i
  let t := (chans.foldl (fun (u : State) c => u.loadChan failed c) s).loadBay failed b
  let lost := (List.range 16).foldl (fun n i => if (k.good failed (16 * b + i)).isNone then n + 2 ^ i else n) 0
  let bay := (k.good failed (128 + b)).isNone
  if lost = 0 ∧ bay = false then t else t.post 0x0A04 b (lost + bay.toNat * 2 ^ 16)

/-! ### Store commits (R450) -/

/-- The channel record of the live values. (DEDUCED, log entry 90.) -/
def State.chanImage (s : State) (c : Nat) : Nat :=
  let b := c / 16
  let i := c % 16
  let m : CalInfo := unitAt {} s.cal.info c
  let q := s.rd ⟨.bayCalQual, b, i⟩
  let flags := (!s.chUncal c).toNat + m.refDefault.toNat * 2 + bitsOf q 50 1 * 4
  sealRecord (chanRecord c flags (s.rd ⟨.bayDeskew, b, i⟩).toNat
    ((List.range 8).map fun k => (s.rd ⟨.bayFdlin, b, i * 8 + k⟩).toNat) (withBits q 49 1 0).toNat (unsigned 16 m.temp)
    m.period m.stamp)

/-- The bay record of the live values. -/
def State.bayImage (s : State) (b : Nat) : Nat :=
  let flags := (!s.bayUncal b).toNat + s.get F.calBayStatRefDefault 0 b * 2
  sealRecord (bayRecord b flags (s.rd ⟨.bayCalBay, b, 0⟩).toNat
    ((List.range 4).map fun k => (s.rd ⟨.bayTimOfs, b, k⟩).toNat) ((List.range 48).map fun k => (s.rd ⟨.bayAdcCal, b, k⟩).toNat)
    (withBits (s.rd ⟨.bayAdcQual, b, 0⟩) 57 1 0).toNat (unsigned 16 (unitAt 0 s.cal.bayTemp b)))

/-- A commit begins: it takes its snapshot in this tick. -/
def State.beginCommit (s : State) (ids : List Nat) : State :=
  let j : StoreJob := {
    gen := (s.cal.bank.gen?.getD 0 + 1) % 2 ^ 32, stamp := s.stamp
    recs := (List.range 128).map s.chanImage ++ (List.range 8).map s.bayImage, batches := ids }
  ({ s with cal := { s.cal with job := some j } }).set F.calStatusStoreState 0 0 1

/-- A commit is requested by the starts `ids`: it begins, waits, or merges with the one that waits. -/
def State.storeRequest (s : State) (ids : List Nat) : State :=
  match s.cal.job with
  | none => s.beginCommit ids
  | some _ =>
    ({ s with cal := { s.cal with wait := some (s.cal.wait.getD [] ++ ids) } }).set F.calStatusStoreState 0 0 2

/-! ### Starts and their ends (R438, R440) -/

/-- The run of a bay. -/
def State.calRun (s : State) (b : Nat) : Option CalRun := Assoc.find b s.cal.runs

/-- Changes the run of a bay. -/
def State.modRun (s : State) (b : Nat) (f : CalRun → CalRun) : State :=
  { s with cal := { s.cal with runs := s.cal.runs.map fun e => if e.1 = b then (b, f e.2) else e } }

/-- Changes a batch. -/
def State.modBatch (s : State) (id : Nat) (f : CalBatch → CalBatch) : State :=
  { s with cal := { s.cal with batches := s.cal.batches.map fun k => if k.id = id then f k else k } }

/-- Word 2 of the write-back: the status of each bay. -/
def CalBatch.word (k : CalBatch) : Nat := k.bays.foldl (fun n e => n + e.2.getD 0 * 256 ^ e.1) 0

/-- A start whose bays and commits have all ended completes its commands (R440). -/
def State.endBatch (s : State) (k : CalBatch) : State :=
  if (k.bays.all fun e => e.2.isSome) ∧ k.commits = 0 then
    let st := if k.bays.any (fun e => e.2.getD 0 != 0) then 0x11 else 0
    k.toks.foldl (fun (t : State) tok =>
      match t.runDesc tok with
      | some d => t.complete tok st d.w1 (BitVec.ofNat 64 k.word) (BitVec.ofNat 64 k.out)
      | none => t)
      { s with cal := { s.cal with batches := s.cal.batches.filter fun j => decide (j.id ≠ k.id) } }
  else s

/-- Every start that is complete completes. -/
def State.endBatches (s : State) : State := s.cal.batches.foldl (fun (t : State) k => t.endBatch k) s

/-- A commit ends (R450): the header makes the bank active, or a read-back mismatch leaves the active bank as it was.
(DEDUCED, log entry 93.) -/
def State.endCommit (s : State) (ok : Bool) : State :=
  match s.cal.job with
  | none => s
  | some j =>
    let other := if s.cal.active = some 0 then s.cal.bankB else s.cal.bankA
    let left : Bank := match other with
      | .empty => .empty
      | .shipped => .image 1 0 j.recs
      | .image g st _ => .image g st j.recs
    let x := s.cal.putOther (if ok then .image j.gen j.stamp j.recs else left)
    let t := { s with cal := { x with job := none, wait := none } }
    let t := (if ok then t else t.hwSet F.calStatusStoreFail 0 0).showStore.set F.calStatusStoreState 0 0 0
    let t := t.post 0x0A03 0 ((if ok then 1 else 2) + t.get F.calStatusGeneration * 2 ^ 32)
    let t := j.batches.foldl (fun (u : State) i =>
      u.modBatch i fun k => { k with commits := k.commits - 1, out := max k.out (if ok then 1 else 2) }) t
    let t := match s.cal.wait with
      | some l => t.beginCommit l
      | none => t
    t.endBatches

/-- The procedures of a run of PROC `p`. -/
def calSteps (p : Nat) : List Nat := if p = 0x0F then [1, 2, 3, 4, 5, 6, 7] else [p]

/-- PROC values of the table of R437, 0x10 apart. -/
def calKnown (p : Nat) : Bool := decide (1 ≤ p ∧ p ≤ 7) || decide (p = 0x0F)

/-- Every channel of a bay holds drive enable low (R439, R457). -/
def State.denLow (s : State) (b : Nat) : State :=
  ((List.range 16).map fun i => 16 * b + i).foldl (fun (t : State) c =>
    t.driveTo c (t.chan c).drv false (t.nowFu) (t.nowFu)) s

/-- STALE of a bay's quality figures (R452). -/
def State.setStale (s : State) (b : Nat) (v : Bool) : State :=
  ((List.range 16).foldl (fun (t : State) i => t.setBit F.bayCalQualStale b i v) s).setBit F.bayAdcQualStale b 0 v

/-- Procedure `p` of a run begins: FE_PRE runs before the first edge of 0x04 (R439). -/
def State.calBegin (s : State) (b p : Nat) : State :=
  if p = 4 ∧ s.bit F.calBayCfgFeEn 0 b then s.feRequest b (s.get F.calBayCfgFePre 0 b) true else s

/-- A run is accepted on a bay (R438, R439, R452). -/
def State.startRunOn (s : State) (b p batch : Nat) : State :=
  let q := s.bayOf b
  let ts : Option Nat := if s.bit F.calBayCfgTsetEn 0 b ∧ q.isSome then some (s.get F.calBayCfgTset 0 b) else none
  let per := match q, ts with
    | some k, some t => (s.tset k t).period
    | _, _ => 8192
  let r : CalRun := { proc := p, step := (calSteps p).headD p, batch := batch, seq := q,
                      mode := (q.map fun k => s.get F.seqCtrlMode k).getD 0, tset := ts, period := per }
  let t := ({ s with cal := { s.cal with runs := s.cal.runs ++ [(b, r)] } }).putMask F.calStatusBusy 0 0 b true
  let t := ((t.set F.calBayStatProc 0 b p).denLow b).setStale b true
  let t := if (calSteps p).contains 7 then
      [0, 1].foldl (fun (u : State) g => u.setDclk b g ((u.dclk b g).halt u.now17)) t
    else t
  (((t.adcCalibrate b).acqIdle b 3).timCalibrate b).calBegin b r.step

/-- The status with which the state before the tick refuses a start (R438). -/
def State.calRefusal (s : State) (bays : List Nat) : Nat :=
  if bays.any (fun b => match s.bayOf b with
    | some q => decide (s.seqBefore q ≠ 0)
    | none => false) then 3
  else if bays.any s.bayBusy then 6
  else if s.bit F.clkStatusRefLost then 7
  else 0

/-- PROC 0x10: CAPTURE := ADDEND − NOMINAL of the selected domain, which must be LOCKED (R441, R445): its status. -/
def State.timeTrim (s : State) : Nat × State :=
  let d := s.get F.timeStatusSelected
  if s.get F.domStatusState d = 2 then
    (0, (s.set F.calTimeTrimCapture 0 0 (unsigned 32 ((s.get F.domAddendAddend d : Int) - s.get F.domNominalNominal d))).post
      0x0A01 0 0x10)
  else (0x11, s.post 0x0A02 0 (0x10 + 7 * 256))

/-- A calibration start (R438): its status at once, or `none` where it runs. (DEDUCED, log entry 89.) -/
def State.calStart (s : State) (mask p : Nat) (store : Bool) (src : Src) (tok : Option Token) : Option Nat × State :=
  if p = 0x10 then
    if s.bit F.clkStatusRefLost then (some 7, s)
    else match s.timeTrim with
    | (st, t) => (some st, t)
  else if calKnown p = false then (some 1, s)
  else
    let bays := bitsBelow 8 mask
    let eff := 1 + p + 32 * store.toNat + 64 * mask
    let vs := bays.map fun b => (s.judge (.bay b) 5 (srcRank src) eff).1
    if vs.contains .superseded then (some 2, s.superseded)
    else if bays ≠ [] ∧ (vs.all fun v => decide (v = .merged)) then
      match bays.head?.bind s.calRun with
      | some r => (none, s.modBatch r.batch fun k => { k with toks := k.toks ++ tok.toList })
      | none => (some (s.calRefusal bays), s)
    else if s.calRefusal bays ≠ 0 then (some (s.calRefusal bays), s)
    else
      let id := s.cal.nextBatch
      let k : CalBatch := { id := id, toks := tok.toList, store := store, bays := bays.map fun b => (b, none) }
      let t := { s with cal := { s.cal with nextBatch := id + 1, batches := s.cal.batches ++ [k] } }
      let t := bays.foldl (fun (u : State) b => ((u.decideEvent (.bay b) 5 (srcRank src) eff).2).startRunOn b p id) t
      (none, t.endBatches)

/-! ### Data (R437, R442) -/

/-- Data of procedure `p` for a bay whose run gathers them: the values are held, and a single procedure is complete.
(DEDUCED, log entry 88.) -/
def State.calData (s : State) (b p : Nat) (f : CalRun → CalRun) : State :=
  match s.calRun b with
  | none => s
  | some r =>
    if r.step = p ∧ r.ready = false ∧ r.done.contains p = false then
      let t := s.modRun b fun r => { f r with done := r.done ++ [p], ready := decide (r.proc ≠ 0x0F) }
      if p = 4 ∧ t.bit F.calBayCfgFeEn 0 b then t.feRequest b (t.get F.calBayCfgFePost 0 b) true else t
    else s

/-- BAY_FULL goes on with its next procedure, or is complete. -/
def State.calNext (s : State) (b : Nat) : State :=
  match s.calRun b with
  | none => s
  | some r =>
    if r.proc = 0x0F ∧ r.done.contains r.step ∧ r.ready = false then
      if r.step = 7 then s.modRun b fun r => { r with ready := true }
      else (s.modRun b fun r => { r with step := r.step + 1 }).calBegin b (r.step + 1)
    else s

/-- A value held for a field. -/
def heldFld (f : Fld) (i j v : Nat) : RegKey × Nat × Nat × Nat := (f.key i j, f.lo, f.width, v)

/-- D of a path (R442), and whether it was clamped: the nearer bound. -/
def State.deskewFor (s : State) (b : Nat) (raw extra : Int) : Nat × Bool :=
  let ref : Int := if s.bit F.calRefpathSet 0 b then s.getS F.calRefpathDelay 0 b else 0
  let d := 4096 + ref - raw + extra
  ((clampInt 0 8191 d).toNat, decide (d < 0) || decide (8191 < d))

/-- A number stored in `w` bits of two's complement: the nearer bound. (DEDUCED, log entry 91.) -/
def fitSigned (w : Nat) (v : Int) : Nat := unsigned w (clampInt (-(2 ^ (w - 1) : Int)) (2 ^ (w - 1) - 1) v)

/-- The two deskews of each channel that a procedure gives: fields `fa` and `fb`, with quality figures. -/
def State.holdDeskews (s : State) (b : Nat) (fa fb : Fld) (extra : Int) (raw : List (Int × Int)) (r : CalRun) : CalRun :=
  (List.range raw.length).foldl (fun (x : CalRun) i =>
    match raw[i]? with
    | none => x
    | some (ra, rb) =>
      let a := s.deskewFor b ra extra
      let c := s.deskewFor b rb extra
      { x with
        held := x.held ++ [heldFld fa b i a.1, heldFld fb b i c.1]
        range := if a.2 || c.2 then putBit x.range i true else x.range })
    { r with refDefault := some (r.refDefault.getD false || !s.bit F.calRefpathSet 0 b) }

/-- Residuals of two paths of each channel, from bit `lo` of CAL_QUAL on, each saturating at 255 (R451). -/
def heldResiduals (b lo : Nat) (l : List (Nat × Nat)) : List (RegKey × Nat × Nat × Nat) :=
  (List.range l.length).flatMap fun i =>
    match l[i]? with
    | some (x, y) =>
      [((⟨.bayCalQual, b, i⟩ : RegKey), lo, 8, min 255 x), ((⟨.bayCalQual, b, i⟩ : RegKey), lo + 8, 8, min 255 y)]
    | none => []

/-- RTD_FRAC that procedure 0x05 adds: of this run's 0x04, or in force (R437). -/
def State.runFrac (s : State) (b : Nat) (r : CalRun) : Nat :=
  match r.held.find? (fun e => decide (e.1 = F.bayCalBayRtdFrac.key b 0 ∧ e.2.1 = F.bayCalBayRtdFrac.lo)) with
  | some e => e.2.2.2
  | none => s.get F.bayCalBayRtdFrac b

/-! ### Ends (R440, R441) -/

/-- A run of a bay is over: it no longer runs, its figures are not STALE, its channels return to PARK. -/
def State.calOver (s : State) (b st : Nat) (park : Bool) : State :=
  match s.calRun b with
  | none => s
  | some r =>
    let t := { s with cal := { s.cal with runs := s.cal.runs.filter fun e => decide (e.1 ≠ b) } }
    let t := ((t.putMask F.calStatusBusy 0 0 b false).set F.calBayStatProc 0 b 0).setStale b false
    let t := if park then
        ((List.range 16).map fun i => 16 * b + i).foldl (fun (u : State) c => u.parkLevels c u.nowFu) t
      else t
    t.modBatch r.batch fun k => { k with bays := k.bays.map fun e => if e.1 = b then (b, some st) else e }

/-- A run of a bay ends CAL_ABORTED with a cause (R441). -/
def State.calAbort (s : State) (b cause : Nat) : State :=
  match s.calRun b with
  | none => s
  | some r =>
    let t := (s.calOver b 0x11 (decide (cause ≠ 6))).hwSetBit F.calStatusAborted 0 0 b
    let t := t.set F.calBayStatCause 0 b cause
    (if cause = 6 then t else t.post 0x0A02 b (r.proc + cause * 256)).endBatches

/-- The runs that gather data and meet `p` abort with a cause. -/
def State.calAbortWhere (s : State) (cause : Nat) (p : Nat → CalRun → Bool) : State :=
  (s.cal.runs.filter fun e => !e.2.ready && p e.1 e.2).foldl (fun (t : State) e => t.calAbort e.1 cause) s

/-- A commit has changed the period of the timing set in use, or the mode of the assigned sequencer (R441). -/
def State.calWatch (s : State) : State :=
  s.calAbortWhere 3 fun _ r =>
    match r.seq with
    | none => false
    | some q => decide (s.get F.seqCtrlMode q ≠ r.mode) || match r.tset with
      | some t => decide ((s.tset q t).period ≠ r.period)
      | none => false

/-- REF_LOST is set (R40, R441). -/
def State.calRefLost (s : State) : State := s.calAbortWhere 2 fun _ _ => true

/-- A committed change of REF_SEL during procedure 0x06 (R441). -/
def State.calRefSel (s : State) (b : Nat) : State := s.calAbortWhere 4 fun c r => decide (c = b) && decide (r.step = 6)

/-- The runs that commands of RING[q] started abort: the ring is reset (R441). -/
def State.calRing (s : State) (q : Nat) : State :=
  let l := s.cal.runs.filter fun e =>
    s.cal.batches.any fun k => decide (k.id = e.2.batch) && k.toks.any fun t => decide (t.ring = q)
  l.foldl (fun (t : State) e => t.calAbort e.1 1) s

/-- The values of a run are written into the live registers. -/
def State.applyHeld (s : State) (l : List (RegKey × Nat × Nat × Nat)) : State :=
  l.foldl (fun (t : State) e => t.wr e.1 (withBits (t.rd e.1) e.2.1 e.2.2.1 e.2.2.2)) s

/-- The records of a channel that a run computed (R440, R447). -/
def State.updateChan (s : State) (r : CalRun) (b i : Nat) : State :=
  let c := 16 * b + i
  let did := fun p => r.done.contains p
  let m : CalInfo := unitAt {} s.cal.info c
  let n : CalInfo := { m with
    temp := 4 * s.getS F.thermTempTemp 0 (8 + b)
    period := if did 3 || did 5 then r.period else m.period
    stamp := s.stamp
    refDefault := r.refDefault.getD m.refDefault }
  let t := { s with cal := { s.cal with info := putUnit {} s.cal.info c n } }
  let t := t.setBit F.bayCalQualValid b i true
  let t := if did 3 || did 5 then
      t.setBit F.bayCalQualRange b i (testBit r.range i || (!(did 3 && did 5) && t.bit F.bayCalQualRange b i))
    else t
  if did 2 && did 3 && did 5 then t.putMask F.calChUncalUncal 0 (c / 64) (c % 64) false else t

/-- The quality figure update of a bay's run (R440): everything in one event tick. -/
def State.calUpdate (s : State) (b : Nat) : State :=
  match s.calRun b with
  | none => s
  | some r =>
    let did := fun p => r.done.contains p
    let t := s.applyHeld r.held
    let t := if did 2 || did 3 || did 5 then (List.range 16).foldl (fun (u : State) i => u.updateChan r b i) t else t
    let t := if did 1 || did 4 || did 6 || did 7 then
        { t with cal := { t.cal with bayTemp := putUnit 0 t.cal.bayTemp b (4 * t.getS F.thermTempTemp 0 (8 + b)) } }
      else t
    let t := if did 6 then t.setBit F.bayAdcQualValid b 0 true else t
    let t := match r.refDefault with
      | some v => t.setBit F.calBayStatRefDefault 0 b v
      | none => t
    let t := if did 1 && did 4 && did 6 && did 7 then t.putMask F.calStatusBayUncal 0 0 b false else t
    let t := (t.calOver b 0 true).post 0x0A01 b r.proc
    let t := if t.cal.batches.any (fun k => decide (k.id = r.batch) && k.store) then
        (t.modBatch r.batch fun k => { k with commits := k.commits + 1 }).storeRequest [r.batch]
      else t
    t.endBatches

end Sys2Proof.Machine
end

