-- ==== Sys2Proof/Machine/Adc.lean ====
section
/-!
DEFINITION. Adc.lean: the commands of the converters, filters and accumulators (12_analogue_measurement_path.md).
-/
namespace Sys2Proof.Machine

/-- The first output waiting is suppressed: its signal instant lies before the chain has settled, or the reference is not
ready (R361, R372). -/
def State.suppressed (s : State) (b : Nat) (v : Visit) (t : Nat) : Bool :=
  let x := s.adc b
  decide (t < v.change + x.settle b v.entry * x.decStep b) || !s.bit F.bayAdcStatRefReady b

/-- The first tag is used up: window edges at or before it act. -/
def State.popTag (s : State) (b tag cyc : Nat) : State :=
  let t := s.edgesTo b tag cyc (s.adc b).edges
  t.setAdc b { (t.adc b) with tags := (t.adc b).tags.drop 1 }

/-- Suppressed outputs whose delivery is due are discarded; `n` bounds their number. -/
def State.dropSuppressed (s : State) (b : Nat) : Nat → State
  | 0 => s
  | n + 1 =>
    let x := s.adc b
    match x.visit with
    | none => s
    | some v =>
      match x.nextOutput b v.entry with
      | some (tag, cyc, t, d) =>
        if d ≤ s.ticks * tickUnits ∧ s.suppressed b v t then (s.popTag b tag cyc).dropSuppressed b n else s
      | none => s

/-- The urgent visit has its outputs (R366). -/
def State.urgentDone (s : State) (b e d : Nat) : State :=
  let a := (s.adc b).urgentAcc
  let m := unsigned 24 (roundAway a.sum a.cnt)
  let t := ((s.set F.bayAdcUrgentResMean b 0 m).set F.bayAdcUrgentResCount b 0 (min 65535 a.cnt)).set F.bayAdcUrgentResEntry b 0 e
  let t := (t.set F.bayAdcUrgentResStale b 0 0).hwSet F.bayAdcUrgentResDone b 0
  let t := (t.set F.bayAdcUrgentMmMin b 0 (unsigned 24 a.least)).set F.bayAdcUrgentMmMax b 0 (unsigned 24 a.most)
  (t.post 0x0B03 b (e + m * 2 ^ 32)).endUrgent b d

/-- A visit of the sequence has its COUNT outputs, the last delivered at `d` (R363). -/
def State.nextEntry (s : State) (b d : Nat) : State :=
  let x := s.adc b
  let e := x.seqEntry + 1
  if e < x.get F.bayAdcCfgLen b then (s.setAdc b { x with seqEntry := e }).beginVisit b e d
  else if x.get F.bayAdcCfgMode b = 0 then (s.setAdc b { x with seqEntry := 0 }).beginVisit b 0 d
  else (s.setAdc b { x with run := false }).adcIdle b

/-- A valid output, delivered at `d`, counts in its visit (R363, R366). -/
def State.countOutput (s : State) (b d : Nat) (w : Visit) (v : Int) : State :=
  let x := s.adc b
  let n := w.got + 1
  let c := x.get F.bayAdcEntCount b w.entry
  let t := s.setAdc b { x with
    visit := some { w with got := n }, urgentAcc := if x.urgent.isSome then x.urgentAcc.add v else x.urgentAcc }
  if x.urgent.isSome then (if max 1 c ≤ n then t.urgentDone b w.entry d else t)
  else if c ≠ 0 ∧ c ≤ n then t.nextEntry b d
  else t

/-- A valid output reaches the accumulators and the acquisition engine (R371, R375, R380). (DEDUCED, log entry 75.) -/
def State.deliverOutput (s : State) (b tag cyc d : Nat) (w : Visit) (value : Int) : State :=
  let v := clipValue value
  let t := if v = value then s else s.count F.bayAdcCountsClip F.bayAdcCountsSaturated b 0 1
  let t := t.set F.bayAdcStatSettling b 0 0
  let t := if t.bit F.bayAdcWinOpen b then
      t.setAdc b { (t.adc b) with accs := putUnit {} (t.adc b).accs w.entry ((t.acc b w.entry).add v) }
    else t
  (t.acqTake b w.entry tag cyc v).countOutput b d w v

/-- The next output of the filter chain of a bay that is not suppressed is delivered, where it is due (R362, R371, R374, R375). -/
def State.nextDelivery (s : State) (b : Nat) : State :=
  let t := s.dropSuppressed b (s.adc b).tags.length
  let x := t.adc b
  match x.visit with
  | none => t
  | some w =>
    match x.nextOutput b w.entry with
    | some (tag, cyc, i, d) =>
      if t.ticks * tickUnits < d ∨ t.suppressed b w i then t
      else
        match ((t.popTag b tag cyc).bankStep b d) with
        | (true, u) => u
        | (false, u) => u.useFree.deliverOutput b tag cyc d w (t.chainValue b i)
    | none => t

/-- ADC_OUTPUT: the codes of the samples since the last, the oldest first and the newest by itself, and the next output delivered. -/
def execAdcOutput (b : Nat) (codes : List Int) (code : Int) (s : State) : Host.Outcome State Fault Refusal :=
  match (s.adc b).visit with
  | none => .next s
  | some w =>
    if s.bit F.bayAdcStatDegraded b then .next s
    else .next (((s.takeCodes b w (codes ++ [code])).nextDelivery b).trimCodes b)

/-- ADC_CTRL.TRIG (R364). -/
def execSequenceTrigger (b : Nat) (src : Src) (s : State) : Host.Outcome State Fault Refusal := .next (s.seqTrigger b src)

/-- ADC_CTRL.STOP (R365). -/
def execAdcStop (b : Nat) (src : Src) (s : State) : Host.Outcome State Fault Refusal :=
  .next (s.onObj (.adcSeq b) 2 (srcRank src) 3 fun t => t.adcStop b)

/-- ADC_CTRL.ACC_CLEAR (R375). -/
def execAccClear (b : Nat) (src : Src) (s : State) : Host.Outcome State Fault Refusal :=
  .next (s.onObj (.adcSeq b) 3 (srcRank src) 1 fun t => t.setAdc b { (t.adc b) with accs := [] })

/-- ADC_CTRL.COMMIT (R378); a change of REF_SEL ends a calibration of the converter (R441). -/
def execSequenceCommit (b : Nat) (src : Src) (s : State) : Host.Outcome State Fault Refusal :=
  .next (s.onObj (.adcSeq b) 4 (srcRank src) 1 fun t =>
    let u := t.adcCommit b
    if (u.adc b).get F.bayAdcCfgRefSel b = (t.adc b).get F.bayAdcCfgRefSel b then u else u.calRefSel b)

/-- ADC_CTRL.URGENT (R366). -/
def execUrgentRequest (b e : Nat) (src : Src) (s : State) : Host.Outcome State Fault Refusal := .next (s.urgentRequest b e src)

/-- ADC_CTRL.URGENT_CANCEL (R366). -/
def execUrgentCancel (b : Nat) (src : Src) (s : State) : Host.Outcome State Fault Refusal := .next (s.urgentCancel b src)

/-- ADC_CTRL.BANK_REQ (R374). -/
def execBankRequest (b bank : Nat) (s : State) : Host.Outcome State Fault Refusal := .next (s.bankRequest b (bank % 2))

/-- INDEX of ADC_COEF_SEL advances after an access to ADC_COEF_DATA, wrapping at 1,023. -/
def State.coefAutoinc (s : State) (b : Nat) : State :=
  if s.bit F.bayAdcCoefSelAutoinc b then s.set F.bayAdcCoefSelIndex b 0 ((s.get F.bayAdcCoefSelIndex b + 1) % 1024) else s

/-- A write of ADC_COEF_DATA (R373): the active bank, and both banks of a fade, refuse it. -/
def execCoefWrite (b : Nat) (data : Word) (s : State) : Host.Outcome State Fault Refusal :=
  let k := s.get F.bayAdcCoefSelBank b
  let x := s.adc b
  let t := if k = s.get F.bayAdcStatBank b ∨ x.fade.isSome then s.hwSet F.bayAdcStatCoefRefused b 0
    else s.setAdc b { x with
      coefs := Assoc.wr natLt (fun i => Config.defaultCoef (i % 1024) % 2 ^ 18) x.coefs
        (k * 1024 + s.get F.bayAdcCoefSelIndex b) (bitsOf data 0 18) }
  .next (t.coefAutoinc b)

/-- A changed reference has settled (R361): the present visit restarts its dwell. -/
def execRefReady (b : Nat) (s : State) : Host.Outcome State Fault Refusal :=
  if s.bit F.bayAdcStatRefReady b then .next s
  else .next ((s.set F.bayAdcStatRefReady b 0 1).adcChange b (s.ticks * tickUnits))

/-- The spare slice has replaced a slice, which is calibrated while it is out, and passes or fails (R359). -/
def execSliceRotation (b : Nat) (failed : Bool) (s : State) : Host.Outcome State Fault Refusal :=
  if (s.adc b).get F.bayAdcCfgBgcalEn b = 0 ∨ s.bit F.bayAdcStatDegraded b ∨ failed = false then .next s
  else if s.bit F.bayAdcStatSpareUsed b then .next ((s.set F.bayAdcStatDegraded b 0 1).post 0x0B02 b 2)
  else .next ((s.set F.bayAdcStatSpareUsed b 0 1).post 0x0B02 b 1)

/-- The edges that carry their own count and that no waiting output precedes. -/
def State.ownEdges (s : State) (b : Nat) : List (Nat × Nat × Option Nat) → State
  | [] => s.setAdc b { (s.adc b) with edges := [] }
  | (v, a, some et) :: es =>
    if v ≤ s.ticks * tickUnits then (s.windowEdge b a et).ownEdges b es
    else s.setAdc b { (s.adc b) with edges := (v, a, some et) :: es }
  | es => s.setAdc b { (s.adc b) with edges := es }

/-- A window closes once every output tagged before its close has been delivered or discarded (R377). -/
def execAdcWindow (b : Nat) (s : State) : Host.Outcome State Fault Refusal :=
  let t := s.dropSuppressed b (s.adc b).tags.length
  let x := t.adc b
  match x.tags with
  | (u, cyc) :: _ => .next (t.edgesTo b u cyc x.edges)
  | [] => .next (t.ownEdges b x.edges)

/-- ADC_COUNTS.CLEAR. -/
def execAdcCountsClear (b : Nat) (s : State) : Host.Outcome State Fault Refusal :=
  .next (([F.bayAdcCountsTrigOverrun, F.bayAdcCountsUrgentBusy, F.bayAdcCountsBusyDiscard, F.bayAdcCountsSkipped,
    F.bayAdcCountsClip, F.bayAdcCountsOverrange].foldl (fun (t : State) f => t.clear f b 0) s).set
      F.bayAdcCountsSaturated b 0 0)

end Sys2Proof.Machine
end

