-- ==== Sys2Proof/Machine/Compare.lean ====
section
/-!
DEFINITION. Compare.lean: the commands of compares, fail counters, the fail log and capture
(05_compare_fail_and_capture.md).
-/
namespace Sys2Proof.Machine

/-- Compare and mask complete for the first outcome under way of channel `c` (R31, R153, R161); an outcome that completes
after the present tick waits. (DEDUCED, log entry 12.) -/
def execCompareResult (c : Nat) (s : State) : Host.Outcome State Fault Refusal :=
  match (s.chan c).flight with
  | [] => .next s
  | f :: rest =>
    if f.done < s.nowFu + 8192 then .next ((s.setChan c { (s.chan c) with flight := rest }).deliver c f)
    else .next s

/-! ### Fail counters (R161 to R163) -/

/-- FAIL_SNAP.SNAP: the bay's counters as they stood at the start of the tick (R163). -/
def State.failSnap (s : State) (b : Nat) : State :=
  let t := (List.range 16).foldl (fun (u : State) i =>
    u.wr ⟨.bayFailShadow, b, i⟩ (s.atStart ⟨.bayFailCount, b, i⟩)) s
  (t.set F.bayFailSnapEtcountLow b 0 (t.get F.clkEtcountCount % 2 ^ 48)).set F.bayFailSnapValid b 0 1

/-- FAIL_SNAP.SNAP. -/
def execFailSnap (b : Nat) (s : State) : Host.Outcome State Fault Refusal := .next (s.failSnap b)

/-- FAIL_SNAP.CLEAR: class 3 on each of the bay's sixteen counters (R162). -/
def State.failCountClear (s : State) (b : Nat) : State :=
  (List.range 16).foldl (fun (u : State) i =>
    (u.clear F.bayFailCountCount b i).set F.bayFailCountSaturated b i 0) s

/-- FAIL_SNAP.CLEAR. -/
def execFailCountClear (b : Nat) (s : State) : Host.Outcome State Fault Refusal := .next (s.failCountClear b)

/-- CMP_STAT.CLEAR (R157, R158). -/
def execCmpStatClear (b : Nat) (s : State) : Host.Outcome State Fault Refusal :=
  .next ((((s.clear F.bayCmpStatWindowReopen b 0).clear F.bayCmpStatWindowOrphan b 0).set F.bayCmpStatReopenSaturated b 0 0).set
    F.bayCmpStatOrphanSaturated b 0 0)

/-! ### The log ring (R170 to R175) -/

/-- The ring in local DRAM is full (R173). -/
def State.logFull (s : State) (q : Nat) : Bool :=
  decide ((s.get F.seqLogPtrWr q + 1) % 2 ^ s.get F.seqLogCfgSize q = s.get F.seqLogPtrRd q)

/-- The log writer can serve a queue: it holds an entry to be discarded, or one that the ring has room for. -/
def State.logServable (s : State) (q : Nat) : Bool :=
  let x := s.logX q
  !x.queue.isEmpty && (decide (0 < x.doomed) || (!s.logFull q && s.dramReady))

/-- The next servable queue in rotation (R170). -/
def State.logNext (s : State) : Option Nat :=
  ((List.range 4).map fun i => (s.logTurn + 1 + i) % 4).find? s.logServable

/-- The first time that the ring is full since ENABLE was set, LOG_FULL is posted (R173). -/
def State.tellFull (s : State) (q : Nat) : State :=
  if s.logFull q ∧ s.bit F.seqLogCfgEnable q ∧ (s.logX q).fullPosted = false then
    (s.setLogX q { (s.logX q) with fullPosted := true }).post 0x0401 q 0
  else s

/-- Writes one record to the ring of SEQ[q] (R173); a mirror takes it from this path (R33, R174). -/
def State.writeLog (s : State) (q : Nat) (ws : List Word) : State :=
  let wr := s.get F.seqLogPtrWr q
  let t := (s.dramWrite (s.get F.seqLogCfgBasePage q * 4096 + wr * 32) (wordBytes ws)).set F.seqLogPtrWr q 0
    ((wr + 1) % 2 ^ s.get F.seqLogCfgSize q)
  let u := if t.bit F.seqLogCfgMirrorEn q then t.setLogX q { t.logX q with mirror := (t.logX q).mirror ++ [ws] } else t
  u.tellFull q

/-- The log writer takes the head of the queue of SEQ[q]: it is written, or discarded where ENABLE = 0 has condemned it
(R175); summaries close once the queue has fallen to 512 entries (R172). -/
def State.serveLog (s : State) (q : Nat) : State :=
  let x := s.logX q
  match x.queue with
  | [] => s
  | w :: rest =>
    let t := s.setLogX q { x with queue := rest, doomed := x.doomed - 1 }
    let u := if 0 < x.doomed then t else t.writeLog q w
    if (u.logX q).queue.length ≤ 512 ∧ (u.logX q).summaries ≠ [] then u.closeSummaries q else u

/-- The log writer drains one entry (R170). -/
def execLogWrite (s : State) : Host.Outcome State Fault Refusal :=
  match s.logNext with
  | some q => .next ({ s with logTurn := q }.serveLog q)
  | none => .next s

/-- A mirror copies an entry, as it was written to a ring in local DRAM, into the host ring `q` of type `ty`, where that has room:
whether it did (R33, R174). (DEDUCED, log entry 48.) -/
def State.mirrorCopy (s : State) (kind sq q ty : Nat) (entry : List Word) : Bool × State :=
  match s.namedRing kind sq q ty false with
  | (true, t) => if t.ringRoom q then (true, t.pushEntry q entry) else (false, t)
  | (false, t) => (false, t)

/-- The fail-log mirror copies a record and advances RD (R174). -/
def State.mirrorLog (s : State) (q : Nat) : State :=
  let rd := s.get F.seqLogPtrRd q
  match s.bit F.seqLogCfgEnable q && s.bit F.seqLogCfgMirrorEn q, (s.logX q).mirror with
  | true, ws :: rest =>
    match s.mirrorCopy 2 q (s.get F.seqLogCfgMirrorRing q) 3 ws with
    | (true, t) => (t.setLogX q { t.logX q with mirror := rest }).set F.seqLogPtrRd q 0
        ((rd + 1) % 2 ^ s.get F.seqLogCfgSize q)
    | (false, t) => t
  | _, _ => s

/-- The capture mirror copies a word and advances RD (R179). -/
def State.mirrorCap (s : State) (q : Nat) : State :=
  let rd := s.get F.seqCapPtrRd q
  match s.bit F.seqCapCfgEnable q && s.bit F.seqCapCfgMirrorEn q, (s.logX q).capMirror with
  | true, w :: rest =>
    match s.mirrorCopy 3 q (s.get F.seqCapCfgMirrorRing q) 4 [BitVec.ofNat 64 w] with
    | (true, t) => (t.setLogX q { t.logX q with capMirror := rest }).set F.seqCapPtrRd q 0
        ((rd + 1) % 2 ^ s.get F.seqCapCfgSize q)
    | (false, t) => t
  | _, _ => s

/-- The mirror of an acquisition ring (R394). -/
def State.mirrorAcq (s : State) (b : Nat) : State :=
  let rd := s.get F.bayAcqPtrRd b
  match s.bit F.bayAcqRingEnable b && s.bit F.bayAcqRingMirrorEn b, (s.acq b).mirror with
  | true, ws :: rest =>
    match s.mirrorCopy 4 b (s.get F.bayAcqRingMirrorRing b) 5 (ws.map (BitVec.ofNat 64)) with
    | (true, t) => (t.setAcq b { t.acq b with mirror := rest }).set F.bayAcqPtrRd b 0
        ((rd + 1) % 2 ^ s.get F.bayAcqRingSize b)
    | (false, t) => t
  | _, _ => s

/-- One entry is mirrored: of a fail log (`which` 0), of a capture (1), of an acquisition ring (2). -/
def execMirror (which i : Nat) (s : State) : Host.Outcome State Fault Refusal :=
  .next (if which = 0 then s.mirrorLog i else if which = 1 then s.mirrorCap i else s.mirrorAcq i)

/-- ENABLE is cleared (R175): what the log queue holds, and the open summaries behind it, are to leave through the log writer, unwritten
and uncounted. -/
def State.doomLog (s : State) (q : Nat) : State :=
  let x := s.logX q
  let l := x.queue ++ (sortBy (fun e => e.2.cycle) x.summaries).map (·.2.words)
  s.setLogX q { x with queue := l, summaries := [], doomed := l.length }

/-- A write of LOG_CFG (R175): while ENABLE is 1 or the queue is not empty, only ENABLE is written. -/
def State.logCfgWrite (s : State) (q : Nat) (v : Word) (host : Bool) : State :=
  let was := s.bit F.seqLogCfgEnable q
  let now := testBit v.toNat 0
  let open_ := s.before F.seqLogCfgEnable q = 0 ∧ s.clk.was.log.contains q = false
  let s := s.rearm 2 q
  let t := if open_ then s.storeRw ⟨.seqLogCfg, q, 0⟩ host v else s.setBit F.seqLogCfgEnable q 0 now
  if now ∧ was = false then
    ((t.set F.seqLogPtrWr q 0 0).set F.seqLogPtrRd q 0 0).setLogX q { (t.logX q) with fullPosted := false, mirror := [] }
  else if now = false ∧ was then t.doomLog q
  else t

/-- LOG_CFG. -/
def execLogCfgWrite (q : Nat) (value : Word) (s : State) : Host.Outcome State Fault Refusal :=
  .next (s.logCfgWrite q value true)

/-- LOG_STAT.CLEAR (R172). -/
def execLogStatClear (q : Nat) (s : State) : Host.Outcome State Fault Refusal :=
  .next ((s.clear F.seqLogStatCoalescedCount q 0).set F.seqLogStatSaturated q 0 0)

/-! ### The capture ring (R176 to R179) -/

/-- Writes words to the capture ring of SEQ[q]; it may wrap at the end (R177). -/
def State.writeCap (s : State) (q : Nat) : List Nat → State
  | [] => s
  | w :: ws =>
    let wr := s.get F.seqCapPtrWr q
    let t := (s.dramWrite (s.get F.seqCapCfgBasePage q * 4096 + wr * 8) (bytesOf w 8)).set F.seqCapPtrWr q 0
      ((wr + 1) % 2 ^ s.get F.seqCapCfgSize q)
    State.writeCap (if t.bit F.seqCapCfgMirrorEn q then
      t.setLogX q { t.logX q with capMirror := (t.logX q).capMirror ++ [w] } else t) q ws

/-- The open block closes when it has been open for 10 µs, or when the sequencer has stopped and its outcomes are complete
(R177). -/
def State.capTimeout (s : State) (q : Nat) : State :=
  match (s.logX q).capOpen with
  | some b => if b.opened + 1500 ≤ s.ticks ∨ s.runOver q b.run then s.closeBlock q else s
  | none => s

/-- The capture writer writes what is left of a block that the ring cannot hold as a whole, as far as the ring has room. -/
def State.writeRest (s : State) (q : Nat) : State :=
  let x := s.logX q
  let n := if s.dramReady then s.capFree q else 0
  (s.setLogX q { x with capRest := x.capRest.drop n }).writeCap q (x.capRest.take n)

/-- The capture writer writes the first closed block of SEQ[q] whole, or discards it where ENABLE = 0 has condemned it. A block longer
than the ring can hold goes out as the ring is read. (DESIGN CHOICE, log entry 108.) -/
def State.captureBlockWrite (s : State) (q : Nat) : State :=
  let t := s.capTimeout q
  let x := t.logX q
  match x.capRest, x.capClosed with
  | _ :: _, _ => t.writeRest q
  | [], [] => t
  | [], b :: rest =>
    if 0 < x.capDoomed then t.setLogX q { x with capClosed := rest, capDoomed := x.capDoomed - 1 }
    else if t.dramReady ∧ b.words.length + 2 ≤ t.capFree q then
      (t.setLogX q { x with capClosed := rest }).writeCap q (b.all q)
    else if 2 ^ t.get F.seqCapCfgSize q ≤ b.words.length + 2 then
      (t.setLogX q { x with capClosed := rest, capRest := b.all q }).writeRest q
    else t

/-- A capture block is written. -/
def execCaptureBlockWrite (q : Nat) (s : State) : Host.Outcome State Fault Refusal := .next (s.captureBlockWrite q)

/-- A write of CAP_CFG (R179). -/
def State.capCfgWrite (s : State) (q : Nat) (v : Word) (host : Bool) : State :=
  let was := s.bit F.seqCapCfgEnable q
  let now := testBit v.toNat 0
  let open_ := s.before F.seqCapCfgEnable q = 0 ∧ s.clk.was.cap.contains q = false
  let s := s.rearm 3 q
  let t := if open_ then s.storeRw ⟨.seqCapCfg, q, 0⟩ host v else s.setBit F.seqCapCfgEnable q 0 now
  if now ∧ was = false then
    ((t.set F.seqCapPtrWr q 0 0).set F.seqCapPtrRd q 0 0).setLogX q { (t.logX q) with capMirror := [] }
  else if now = false ∧ was then
    let u := t.closeBlock q
    u.setLogX q { (u.logX q) with capDoomed := (u.logX q).capClosed.length, capRest := [] }
  else t

/-- CAP_CFG. -/
def execCapCfgWrite (q : Nat) (value : Word) (s : State) : Host.Outcome State Fault Refusal :=
  .next (s.capCfgWrite q value true)

/-- CAP_STAT.CLEAR (R178). -/
def execCapStatClear (q : Nat) (s : State) : Host.Outcome State Fault Refusal :=
  .next ((s.clear F.seqCapStatLostCount q 0).set F.seqCapStatSaturated q 0 0)

end Sys2Proof.Machine
end

