-- ==== Sys2Proof/Machine/OpsPcie.lean ====
section
/-!
DEFINITION. OpsPcie.lean: the PCI Express function: its configuration space (R295) and the errors it reports (R297). R295 names the
structures; their registers and bits are those of PCI Express. (PRESUMED, log entry 69.)
-/
namespace Sys2Proof.Machine

/-! ### Errors (R297) -/

/-- The AER status bit of an error, and whether it is correctable. -/
def aerBit : PcieErr → Bool × Nat
  | .timeout => (false, 14)
  | .completerAbort => (false, 15)
  | .unsupported => (false, 20)
  | .poisonedCompletion => (false, 12)
  | .malformed => (false, 18)
  | .poisonedRequest => (false, 12)
  | .receiver => (true, 0)
  | .badTlp => (true, 6)
  | .badDllp => (true, 7)
  | .replayRollover => (true, 8)
  | .replayTimeout => (true, 12)

/-- Stores what the function holds in its configuration space. -/
def State.setPcie (s : State) (x : PcieX) : State := { s with host := { s.host with pcie := x } }

/-- An error is reported through AER: its status bit, the device status, and the message where it is unmasked and enabled. -/
def State.pcieError (s : State) (e : PcieErr) : State :=
  let x := s.host.pcie
  match aerBit e with
  | (true, n) =>
    let t := s.setPcie { x with cor := putBit x.cor n true, devStatus := putBit x.devStatus 0 true }
    if testBit x.corMask n = false ∧ testBit x.devCtl 0 then t.emit (.errorMessage 0) else t
  | (false, n) =>
    let k := if testBit x.uncorSev n then 2 else 1
    let t := s.setPcie { x with uncor := putBit x.uncor n true, devStatus := putBit x.devStatus k true }
    if testBit x.uncorMask n = false ∧ testBit x.devCtl k then t.emit (.errorMessage k) else t

/-! ### Configuration space (R295) -/

/-- Double word `i` of the configuration space: the Type 0 header; Power Management at 0x40, MSI-X at 0x50, PCI Express at 0x70, AER
at 0x100, the serial number at 0x150, Secondary PCI Express at 0x160, Data Link Feature at 0x190, Physical Layer 16.0 and 32.0 GT/s at
0x1A0 and 0x1D0, Lane Margining at 0x200. (DESIGN CHOICE, log entry 69.) -/
def State.configDword (s : State) (i : Nat) : Nat :=
  let x := s.host.pcie
  let ident := s.rd ⟨.globalIdent, 0, 0⟩
  match i with
  | 0x00 => 0x41281F4D
  | 0x01 => x.command % 2 ^ 16 + 0x0010 * 2 ^ 16
  | 0x02 => s.get F.globalIdentStepping % 2 ^ 8 + 0x118000 * 2 ^ 8
  | 0x03 => x.cacheLine % 2 ^ 8
  | 0x04 => x.bar0 % 2 ^ 32 / 2 ^ 20 * 2 ^ 20 + 4
  | 0x05 => x.bar0 / 2 ^ 32 % 2 ^ 32
  | 0x06 => x.bar2 % 2 ^ 32 / 2 ^ 18 * 2 ^ 18 + 4
  | 0x07 => x.bar2 / 2 ^ 32 % 2 ^ 32
  | 0x0B => 0x1F4D + bitsOf ident F.globalIdentGrade.lo F.globalIdentGrade.width * 2 ^ 16
  | 0x0D => 0x40
  | 0x0F => x.intLine % 2 ^ 8
  | 0x10 => 0x00035001
  | 0x11 => x.power % 4
  | 0x14 => 0x0011 + 0x70 * 2 ^ 8 + (63 + x.msixCtl % 4 * 2 ^ 14) * 2 ^ 16
  | 0x15 => 0x6000
  | 0x16 => 0x6400
  | 0x1C => 0x00020010
  | 0x1D => 0x10008022
  | 0x1E => x.devCtl % 2 ^ 15 + x.devStatus % 16 * 2 ^ 16
  | 0x1F => 5 + 8 * 2 ^ 4 + 2 * 2 ^ 10
  | 0x20 => x.linkCtl % 2 ^ 16 + (s.get F.hifLinkSpeed % 16 + s.get F.hifLinkWidth * 2 ^ 4 + s.get F.hifLinkDlUp * 2 ^ 13) * 2 ^ 16
  | 0x25 => 0x0003001F
  | 0x26 => x.devCtl2 % 2 ^ 16
  | 0x27 => 0x3E
  | 0x28 => x.linkCtl2 % 2 ^ 16
  | 0x40 => 0x15020001
  | 0x41 => x.uncor
  | 0x42 => x.uncorMask
  | 0x43 => x.uncorSev
  | 0x44 => x.cor
  | 0x45 => x.corMask
  | 0x54 => 0x16010003
  | 0x55 => Config.serialNumber % 2 ^ 32
  | 0x56 => Config.serialNumber / 2 ^ 32 % 2 ^ 32
  | 0x58 => 0x19010019
  | 0x64 => 0x1A010025
  | 0x68 => 0x1D010026
  | 0x74 => 0x2001002A
  | 0x80 => 0x00010027
  | _ => Config.configWord i % 2 ^ 32

/-- A configuration request of `bytes` bytes within one double word. -/
def configAccess (off bytes : Nat) : Bool :=
  (bytes == 1 || bytes == 2 || bytes == 4) && decide (off % 4 + bytes ≤ 4) && decide (off < 4096)

/-- The word `old` with the bytes that a configuration write covers. -/
def mergeBytes (old off bytes d : Nat) : Nat :=
  let lo := 8 * (off % 4)
  old / 2 ^ (lo + 8 * bytes) * 2 ^ (lo + 8 * bytes) + d % 2 ^ (8 * bytes) * 2 ^ lo + old % 2 ^ lo

/-- The bits of `m` that `d` does not have: what a write of ones to W1C bits leaves. -/
def clearOnes (w m d : Nat) : Nat := (bitsBelow w m).foldl (fun n i => if testBit d i then n else n + 2 ^ i) 0

/-- What a write of double word `i` stores: `v` is the word with the written bytes, `w1` the written bytes alone. -/
def PcieX.write (x : PcieX) (i v w1 : Nat) : PcieX :=
  match i with
  | 0x01 => { x with command := v % 2 ^ 16 % 2 ^ 11 }
  | 0x03 => { x with cacheLine := v % 2 ^ 8 }
  | 0x04 => { x with bar0 := x.bar0 / 2 ^ 32 * 2 ^ 32 + v / 2 ^ 20 * 2 ^ 20 }
  | 0x05 => { x with bar0 := x.bar0 % 2 ^ 32 + v * 2 ^ 32 }
  | 0x06 => { x with bar2 := x.bar2 / 2 ^ 32 * 2 ^ 32 + v / 2 ^ 18 * 2 ^ 18 }
  | 0x07 => { x with bar2 := x.bar2 % 2 ^ 32 + v * 2 ^ 32 }
  | 0x0F => { x with intLine := v % 2 ^ 8 }
  | 0x11 => { x with power := if v % 4 = 0 ∨ v % 4 = 3 then v % 4 else x.power }
  | 0x14 => { x with msixCtl := v / 2 ^ 30 % 4 }
  | 0x1E => { x with devCtl := v % 2 ^ 15, devStatus := clearOnes 4 x.devStatus (w1 / 2 ^ 16) }
  | 0x20 => { x with linkCtl := v % 2 ^ 16 }
  | 0x26 => { x with devCtl2 := v % 2 ^ 16 }
  | 0x28 => { x with linkCtl2 := v % 2 ^ 16 }
  | 0x41 => { x with uncor := clearOnes 32 x.uncor w1 }
  | 0x42 => { x with uncorMask := v }
  | 0x43 => { x with uncorSev := v }
  | 0x44 => { x with cor := clearOnes 32 x.cor w1 }
  | 0x45 => { x with corMask := v }
  | _ => x

/-- What a Function Level Reset or a return from D3hot leaves of the configuration space: what PCI Express calls sticky, the link's
own settings, and the Maximum Payload Size. (PRESUMED, log entry 69.) -/
def PcieX.functionReset (x : PcieX) : PcieX :=
  { linkCtl := x.linkCtl, linkCtl2 := x.linkCtl2, devCtl := 0x2000 + x.devCtl / 2 ^ 5 % 2 ^ 3 * 2 ^ 5
    uncor := x.uncor, uncorMask := x.uncorMask, uncorSev := x.uncorSev, cor := x.cor, corMask := x.corMask }

/-- A configuration read: its data, or Configuration Request Retry Status until host-ready (R296). -/
def State.configRead (s : State) (off bytes : Nat) : State :=
  if s.hostReady = false then s.emit .configRetry
  else s.emit (.configReply (if configAccess off bytes then s.configDword (off / 4) / 2 ^ (8 * (off % 4)) % 2 ^ (8 * bytes) else 0))

/-- A configuration write stores: the state, and the double word's new value. -/
def State.configStore (s : State) (off bytes d : Nat) : Nat × State :=
  let v := mergeBytes (s.configDword (off / 4)) off bytes d
  (v, s.setPcie (s.host.pcie.write (off / 4) v (mergeBytes 0 off bytes d)))

/-- The vectors that wait are looked at once their masks may have gone (R504). -/
def State.msixUnmaskAll (s : State) : State := s.host.msixPending.foldl (fun (t : State) v => t.msixUnmask v) s

end Sys2Proof.Machine
end

