-- ==== Sys2Proof/Machine/Host.lean ====
section
/-!
DEFINITION. Host.lean: the commands of the host interface: doorbells, rings, descriptors and the commands in them
(10_host_interface_and_rings.md).
-/
namespace Sys2Proof.Machine

/-! ### Rings (R298 to R306, R309) -/

/-- A doorbell write to the page of RING[q] (R298, R302, R303). -/
def execDoorbell (q : Nat) (value : BitVec 32) (s : State) : Host.Outcome State Fault Refusal :=
  .next (s.doorbell q value.toNat)

/-- RING[q].CTRL.ENABLE (R300). -/
def execRingEnable (q : Nat) (src : Src) (s : State) : Host.Outcome State Fault Refusal :=
  .next (s.onObj (.ring q) 4 (srcRank src) 1 fun t => t.ringEnableOp q)

/-- A ring is disabled (R304): a host-produced ring drains, a device-produced ring stops at once. -/
def State.ringDisableOp (s : State) (q : Nat) : State :=
  if hostProduced (s.get F.ringCfgType q) then s.drain q
  else if s.ringEnabled q then s.set F.ringStatusState q 0 0 else s

/-- RING[q].CTRL.DISABLE (R304). -/
def execRingDisable (q : Nat) (src : Src) (s : State) : Host.Outcome State Fault Refusal :=
  .next (s.onObj (.ring q) 2 (srcRank src) 0 fun t => t.ringDisableOp q)

/-- RING[q].CTRL.RESET (R305): calibrations that its commands have started abort (R441). -/
def execRingReset (q : Nat) (src : Src) (s : State) : Host.Outcome State Fault Refusal :=
  .next (s.onObj (.ring q) 1 (srcRank src) 0 fun t => (t.calRing q).ringResetOp q)

/-- A descriptor read completes (R301, R310): the next descriptor that doorbells have announced becomes available. -/
def execDescriptorRead (q : Nat) (w0 w1 w2 w3 : Word) (s : State) : Host.Outcome State Fault Refusal :=
  let r := s.ringX q
  if s.ringEnabled q ∧ hostProduced (s.get F.ringCfgType q) ∧ r.readIdx ≠ s.get F.ringIndexProd q then
    .next (s.setRingX q { r with
      readIdx := (r.readIdx + 1) % s.ringSize q
      fetched := r.fetched ++ [({ idx := r.readIdx, w0 := w0, w1 := w1, w2 := w2, w3 := w3 } : Desc)] })
  else .next s

/-- A transfer fails, as PCI Express reports it (R297): the descriptor read (kind 1) or, where the function is no bus master, a record
write (kind 2) of RING[q], which stops the ring (R306), or one of another kind, which no ring is stopped by. -/
def execDmaError (q : Nat) (fail : DmaFail) (s : State) : Host.Outcome State Fault Refusal :=
  let s := s.pcieError fail.cause
  if s.get F.ringStatusState q = 0 then .next s
  else if fail.kind = 1 then .next (((s.hwSet F.ringStatusDmaErr q 0).drain q).post 0x0803 q 1)
  else if fail.kind = 2 ∧ s.busMaster = false then .next (s.recordFail q)
  else .next s

/-- The interrupt condition of RING[q] holds (R309). -/
def State.interruptDue (s : State) (q : Nat) : Bool :=
  let r := s.ringX q
  let n := s.get F.ringCfgIrqCount q
  let h := s.get F.ringCfgIrqHoldoff q
  s.bit F.ringCfgIrqEn q && (r.irqAsked || (decide (n ≠ 0) && decide (n ≤ r.unsignalled))
    || (decide (r.unsignalled ≠ 0) && (decide (h = 0) || decide (r.firstUnsignalled + h ≤ s.ticks))))

/-- A ring's MSI-X message is due in this tick: it is sent after the ring's index write-back (R308, R309). -/
def execRingInterrupt (q : Nat) (s : State) : Host.Outcome State Fault Refusal :=
  .next (if s.interruptDue q then s.setRingX q { (s.ringX q) with irqAsked := false, unsignalled := 0, irqNow := true } else s)

/-- A waiting completion record is written, where its ring has room (R314). -/
def execCompletionRecord (q : Nat) (s : State) : Host.Outcome State Fault Refusal := .next (s.writeCompletion q)

/-- RING[q].STATUS.CLEAR. -/
def execRingStatusClear (q : Nat) (s : State) : Host.Outcome State Fault Refusal :=
  .next ((s.clear F.ringStatusDropped q 0).set F.ringStatusSaturated q 0 0)

/-- HIF.EVENT_STAT.CLEAR. -/
def execEventStatClear (s : State) : Host.Outcome State Fault Refusal :=
  .next ((s.clear F.hifEventStatUnrouted 0 0).set F.hifEventStatSaturated 0 0 0)

/-- The PCI Express link trains, retrains or goes down (R295): HIF.LINK shows it. (DEDUCED, log entry 69.) -/
def execPcieLink (speed width : Nat) (up : Bool) (s : State) : Host.Outcome State Fault Refusal :=
  .next (((s.set F.hifLinkSpeed 0 0 speed).set F.hifLinkWidth 0 0 width).setBit F.hifLinkDlUp 0 0 up)

/-! ### Commands (R313 to R320) -/

/-- The command of opcode `op` at the head of RING[q] begins, where it is due (R313). -/
def State.command (s : State) (q op : Nat) (f : Desc → Token → State → State) : Host.Outcome State Fault Refusal :=
  match s.beginCommand q op with
  | some (d, tok, t) => .next (f d tok t)
  | none => .next s

/-- CMD_NOP. -/
def execCmdNop (q : Nat) (s : State) : Host.Outcome State Fault Refusal :=
  s.command q 0x00 fun _ tok t => t.completeSame tok 0

/-- The HOST_ADDR of a command: its low three bits are stored as zero. -/
def hostAddr (w : Word) : Word := withBits w 0 3 0

/-- Word 2 of a CMD_TABLE_LOAD with its clamps. -/
def tableWord (w : Word) : Word :=
  match tableFields w with
  | (t, unit, first, n) =>
    withBits (withBits (withBits w 8 8 (if t = 5 then bitsOf w 8 8 else unit)) 16 16 first) 32 16 n

/-- CMD_TABLE_LOAD begins (R316, R317): an unknown table completes UNSUPPORTED; else the items are read. -/
def execCmdTableLoad (q : Nat) (s : State) : Host.Outcome State Fault Refusal :=
  s.command q 0x01 fun d tok t =>
    match tableFields d.w2 with
    | (tbl, _, _, n) =>
      if (tableShape tbl).1 = 0 then t.complete tok 1 (hostAddr d.w1) d.w2 d.w3
      else t.emit (.hostRead (hostAddr d.w1).toNat (n * (tableShape tbl).2 * 8))

/-- Words from index `i` on are handed to `f` with their index. -/
def eachWord (f : Nat → Nat → State → State) : Nat → List Nat → State → State
  | _, [], s => s
  | i, w :: ws, s => eachWord f (i + 1) ws (f i w s)

/-- One item of a table load is written as register writes would write it (R317). -/
def State.loadItem (s : State) (tbl unit item : Nat) (words : List Nat) : State :=
  if tbl = 1 then eachWord (fun _ w (t : State) => t.stagePeriod unit item w) 0 words s
  else if tbl = 2 then eachWord (fun i w (t : State) => t.stageEdge unit (item / 128) (item % 128) i w) 0 words s
  else if tbl = 3 then eachWord (fun i w (t : State) => t.stageWave unit (item / 128) (item % 128) i w) 0 words s
  else if tbl = 4 then
    eachWord (fun _ w (t : State) => t.storeRw ⟨.seqMask, unit, item⟩ false (BitVec.ofNat 64 w)) 0 words s
  else if tbl = 5 then
    eachWord (fun i w (t : State) => t.stageSite item fun m =>
      if i = 0 then { m with seq := w % 4 } else { m with pins := putUnit 0 m.pins (i - 1) w }) 0 words s
  else s.feStage unit item words

/-- The items that `words` hold whole, from item `item` on. -/
def State.loadItems (s : State) (tbl unit per item : Nat) : Nat → List Nat → State
  | 0, _ => s
  | n + 1, words =>
    if words.length < per then s
    else (s.loadItem tbl unit item (words.take per)).loadItems tbl unit per (item + 1) n (words.drop per)

/-- The command of opcode `op` that RING[q] executes. -/
def State.runningCommand (s : State) (q op : Nat) : Option (Desc × Token) :=
  match (s.ringX q).running with
  | r :: _ =>
    if s.get F.ringCfgType q = 0 ∧ bitsOf r.d.w0 0 8 = op ∧ r.done = none then
      some (r.d, { ring := q, gen := (s.ringX q).gen, idx := r.d.idx })
    else none
  | [] => none

/-- The host data of a CMD_TABLE_LOAD arrive (R306, R317). `ok = false`, or fewer words than were asked for: the read failed
after these. -/
def execTableLoadData (q : Nat) (words : List Word) (ok : Bool) (s : State) : Host.Outcome State Fault Refusal :=
  match s.runningCommand q 0x01 with
  | none => .next s
  | some (d, tok) =>
    match tableFields d.w2 with
    | (tbl, unit, first, n) =>
      let per := (tableShape tbl).2
      let t := s.loadItems tbl unit per first n (words.map BitVec.toNat)
      if ok ∧ n * per ≤ words.length then .next (t.complete tok 0 (hostAddr d.w1) (tableWord d.w2) d.w3)
      else .next ((t.post 0x0803 q 3).complete tok 0x14 (hostAddr d.w1) (tableWord d.w2) d.w3)

/-- CMD_COMMIT_AT_PEG (R117, R123). -/
def execCmdCommitAtPeg (q : Nat) (s : State) : Host.Outcome State Fault Refusal :=
  s.command q 0x02 fun d tok t => (t.tableCommit (bitsOf d.w1 0 2) (.host q) (some tok)).calWatch

/-- CMD_PAGE_MAP (R190): the write-back holds the entry as read after the write. (DEDUCED, log entry 53.) -/
def execCmdPageMap (q : Nat) (s : State) : Host.Outcome State Fault Refusal :=
  s.command q 0x03 fun d tok t =>
    let g := bitsOf d.w1 0 15
    match t.windowWrite g d.w2.toNat d.w3.toNat with
    | (r, u) =>
      let w := u.entryWords g
      u.complete tok (if r = .refused then 8 else 0) d.w1 (BitVec.ofNat 64 w.1) (BitVec.ofNat 64 w.2)

/-- CMD_STREAM_PAGE (R205). -/
def execCmdStreamPage (q : Nat) (s : State) : Host.Outcome State Fault Refusal :=
  s.command q 0x04 fun d tok t => t.pushPage tok (bitsOf d.w1 0 15) d.w2.toNat d.w3.toNat

/-- Word 2 of a CMD_RAISE with NANOSECONDS clamped. -/
def raiseWord (w : Word) : Word := withBits w 0 30 (min 999999999 (bitsOf w 0 30))

/-- The raising operation of a CMD_RAISE. -/
def State.raiseCommand (s : State) (d : Desc) : RaiseOp :=
  { entry := bitsOf d.w2 50 4, tag := bitsOf d.w1 48 16, sec := bitsOf d.w1 0 48, ns := bitsOf (raiseWord d.w2) 0 30,
    frac := bitsOf d.w2 30 16, mask := bitsOf d.w2 46 4, origin := s.get F.oluChipId }

/-- CMD_RAISE (R260, R261): an accepted operation with FORWARD = 1 is sent to the peers. -/
def execCmdRaise (q : Nat) (s : State) : Host.Outcome State Fault Refusal :=
  s.command q 0x05 fun d tok t =>
    let r := t.raiseCommand d
    let cancel := decide (bitsOf d.w2 54 1 = 1)
    match (if cancel then t.cancelRaise r.entry r.tag (.host q) else t.schedule r (.host q)) with
    | (st, u) =>
      let v := if st = 0 ∧ bitsOf d.w2 55 1 = 1 then u.originate 2 0 (u.raisePayload cancel r) else u
      v.complete tok st d.w1 (raiseWord d.w2) d.w3

/-- CMD_ABORT (R115, R316). -/
def execCmdAbort (q : Nat) (s : State) : Host.Outcome State Fault Refusal :=
  s.command q 0x06 fun d tok t =>
    let l := bitsBelow 4 (bitsOf d.w1 0 4)
    if l = [] then t.complete tok 0 d.w1 0 d.w3
    else
      let u := { t with host := { t.host with parts := t.host.parts ++ [(tok, l.map fun k => (k, none))] } }
      l.foldl (fun (v : State) k => v.requestStop k 4 (.host q) (some tok)) u

/-- CMD_SITE_SET (R220). -/
def execCmdSiteSet (q : Nat) (s : State) : Host.Outcome State Fault Refusal :=
  s.command q 0x07 fun d tok t =>
    match t.siteCommit with
    | (r, u) => u.complete tok (siteStatus r) d.w1
        (BitVec.ofNat 64 (u.get F.siteStatusRefused + u.get F.siteEpochEpoch * 2 ^ 32)) d.w3

/-- The fail counters of a bay are snapshot, and cleared where asked (R163, R318); a bay in bay reset discards it (R59). -/
def State.snapBay (s : State) (clear : Bool) (b : Nat) : State :=
  if s.inReset (.bay b) then s.superseded
  else if clear then (s.failSnap b).failCountClear b else s.failSnap b

/-- The 17 words of a bay that CMD_COUNTERS_READ writes. -/
def State.counterWords (s : State) (b : Nat) : List Word :=
  s.rd ⟨.bayFailSnap, b, 0⟩ :: (List.range 16).map fun i => s.rd ⟨.bayFailShadow, b, i⟩

/-- CMD_COUNTERS_READ (R318). -/
def execCmdCountersRead (q : Nat) (s : State) : Host.Outcome State Fault Refusal :=
  s.command q 0x09 fun d tok t =>
    let l := bitsBelow 8 (bitsOf d.w1 0 8)
    let u := l.foldl (fun (v : State) b => v.snapBay (decide (bitsOf d.w1 8 1 = 1)) b) t
    (u.hostWrite (.hostWrite (hostAddr d.w2).toNat (l.flatMap u.counterWords))).complete tok 0 d.w1 (hostAddr d.w2) d.w3

/-- The head of RING[q] is a CMD_FUSE_LOCK with this STEP: it begins (R319). (DEDUCED, log entry 67.) -/
def State.fuseCommand (s : State) (q step : Nat) (f : Desc → Token → State → State) : Host.Outcome State Fault Refusal :=
  match (s.ringX q).fetched with
  | [] => .next s
  | d :: _ => if bitsOf d.w1 0 1 = step then s.command q 0x0A f else .next s

/-- The CODE of a CMD_FUSE_LOCK is right. -/
def fuseCode (d : Desc) : Bool := decide (bitsOf d.w1 16 16 = 0x4C4B)

/-- An arm of CMD_FUSE_LOCK opens a confirm window (R319). -/
def execFuseArm (q : Nat) (s : State) : Host.Outcome State Fault Refusal :=
  s.fuseCommand q 0 fun d tok t =>
    if t.bit F.rasStatusDebugLocked then t.completeSame tok 0x13
    else if fuseCode d then ({ t with host := { t.host with fuseArm := some t.ticks } }).completeSame tok 0
    else t.completeSame tok 0x12

/-- The confirm window is live: 150,000 event ticks from the arm's tick, that tick apart (R319). -/
def State.fuseLive (s : State) : Bool :=
  match s.host.fuseArm with
  | some k => decide (k < s.ticks) && decide (s.ticks ≤ k + 150000)
  | none => false

/-- A confirm of CMD_FUSE_LOCK (R319): it completes once the fuse is blown. -/
def execFuseConfirm (q : Nat) (s : State) : Host.Outcome State Fault Refusal :=
  s.fuseCommand q 1 fun d tok t =>
    if t.bit F.rasStatusDebugLocked then t.completeSame tok 0x13
    else if fuseCode d ∧ t.fuseLive then { t with host := { t.host with fuseBlow := t.host.fuseBlow ++ [tok] } }
    else t.completeSame tok 0x12

/-- The debug-lock fuse is blown (R319): the confirms that wait for it complete OK. -/
def execFuseLocked (s : State) : Host.Outcome State Fault Refusal :=
  match s.host.fuseBlow with
  | [] => .next s
  | l =>
    let t := ({ s with host := { s.host with fuseBlow := [] } }).set F.rasStatusDebugLocked 0 0 1
    .next ((l.foldl (fun (u : State) tok => u.completeSame tok 0) t).post 0x0906 0 0)

/-- CMD_BARRIER (R320). -/
def execCmdBarrier (q : Nat) (s : State) : Host.Outcome State Fault Refusal :=
  s.command q 0x0B fun d _ t => t.holdBarrier q d.w1.toNat

/-- A mail descriptor with its LENGTH clamped. -/
def mailDesc (d : Desc) : Desc := { d with w1 := withBits d.w1 24 5 (min 16 (bitsOf d.w1 24 5)) }

/-- A mail descriptor begins: its words as written back have LENGTH clamped (R311, R322). -/
def State.beginMail (s : State) (q : Nat) (d : Desc) (tok : Token) : State :=
  let r := s.ringX q
  (s.setRingX q { r with running := r.running.map fun (x : Run) =>
    if x.d.idx = d.idx ∧ x.done = none then { x with d := mailDesc d } else x }).hostMail (mailDesc d) tok

/-- CMD_MAIL (R322). -/
def execCmdMail (q : Nat) (s : State) : Host.Outcome State Fault Refusal :=
  s.command q 0x0C fun d tok t => t.beginMail q d tok

/-- An opcode from 0x0D to 0xFF completes UNSUPPORTED (R315). -/
def execUnsupportedOpcode (q : Nat) (s : State) : Host.Outcome State Fault Refusal :=
  match (s.ringX q).fetched with
  | [] => .next s
  | d :: _ =>
    if bitsOf d.w0 0 8 < 0x0D then .next s
    else s.command q (bitsOf d.w0 0 8) fun _ tok t => t.completeSame tok 1

/-! ### Descriptors of the other host-produced rings (R322) -/

/-- The next descriptor of a ring of type `ty` begins, where it is due. -/
def State.descriptor (s : State) (q ty : Nat) (f : Desc → Token → State → State) : Host.Outcome State Fault Refusal :=
  match s.begin q ty with
  | some (d, tok, t) => .next (f d tok t)
  | none => .next s

/-- A STREAM descriptor (R205). -/
def execStreamDescriptor (q : Nat) (s : State) : Host.Outcome State Fault Refusal :=
  s.descriptor q 6 fun d tok t => t.pushPage tok (bitsOf d.w1 0 15) d.w2.toNat d.w3.toNat

/-- A MAIL descriptor. -/
def execMailDescriptor (q : Nat) (s : State) : Host.Outcome State Fault Refusal :=
  s.descriptor q 9 fun d tok t => t.beginMail q d tok

/-- The octets that the time port sends for a frame (R322): padded to 60, which the FCS makes 64, and the CRC-32 of IEEE 802.3, its low
byte first. What the padding holds is open: free values. (DESIGN CHOICE, log entry 112.) -/
def State.wireFrame (s : State) (data : List Nat) : List Nat :=
  let l := data ++ (List.range (60 - data.length)).map fun i => Config.freeValue (s.free + i) % 256
  l ++ bytesOf (crc32 polyE l) 4

/-- A TIMETX descriptor, with the bytes that its BUFFER holds (R322): its frame is read from host memory and sent on the enabled time
port, where TX_RING names its ring. (DEDUCED, log entry 59.) -/
def execTimetxDescriptor (b : RingData) (s : State) : Host.Outcome State Fault Refusal :=
  let q := b.ring
  if s.bit F.timePortCfgEnable = false then .next s
  else
    match s.namedRing 5 0 (s.get F.timePortCfgTxRing) 7 false with
    | (ok, s1) =>
      if ok ∧ s1.get F.timePortCfgTxRing = q then
        s1.descriptor q 7 fun d tok t =>
          let len := max 14 (min 1518 (bitsOf d.w2 0 11))
          let x : TxFrame := { tok := tok, buf := d.w1.toNat, len := len, stamp := decide (bitsOf d.w2 16 1 = 1) }
          let f := (b.data.take len).map fun n => n % 256
          { ((({ t with time := { t.time with txQueue := t.time.txQueue ++ [x] } }).emit (.hostRead d.w1.toNat len)).emit
            (.timeFrame (t.wireFrame f))) with free := t.free + (60 - f.length) }
      else .next s1

/-- A TIMERX descriptor supplies a buffer for a received frame (R322). -/
def execTimerxDescriptor (q : Nat) (s : State) : Host.Outcome State Fault Refusal :=
  let r := s.ringX q
  match r.fetched with
  | [] => .next s
  | d :: ds =>
    if s.ringEnabled q ∧ s.get F.ringCfgType q = 8 then
      .next (s.setRingX q { r with fetched := ds, ready := r.ready ++ [d] })
    else .next s

end Sys2Proof.Machine
end

