-- ==== Sys2Proof/Machine/Cal.lean ====
section
/-!
DEFINITION. Cal.lean: the commands of calibration (16_calibration.md). The measured data of a procedure are operands: they
come from the bay's analogue circuits.
-/
namespace Sys2Proof.Machine

/-- CMD_CAL_RUN (R316, R438, R440): refused at once, or completed when its last bay and its commit have ended. -/
def execCmdCalRun (q : Nat) (s : State) : Host.Outcome State Fault Refusal :=
  s.command q 0x08 fun d tok t =>
    let p := bitsOf d.w1 8 8
    match t.calStart (bitsOf d.w1 0 8) p (decide (bitsOf d.w1 16 1 = 1)) (.host q) (some tok) with
    | (some st, u) => if p = 0x10 then u.complete tok st d.w1 0 0 else u.completeSame tok st
    | (none, u) => u

/-- Procedure 0x01 (R437): START and STOP offsets of the four units. -/
def execTimOffset (b : Nat) (offsets : List (Int × Int)) (s : State) : Host.Outcome State Fault Refusal :=
  .next (s.calData b 1 fun r => { r with
    held := r.held ++ (List.range 4).flatMap fun u =>
      [heldFld F.bayTimOfsStart b u (fitSigned 16 (offsets.getD u (0, 0)).1),
       heldFld F.bayTimOfsStop b u (fitSigned 16 (offsets.getD u (0, 0)).2)] })

/-- Procedure 0x02 (R141, R437): the linearity points of the 64 fine delay lines, as FDLIN images. -/
def execFineLinearity (b : Nat) (images : List Word) (s : State) : Host.Outcome State Fault Refusal :=
  .next (s.calData b 2 fun r => { r with
    held := r.held ++ (List.range 128).map fun j => heldFld F.bayFdlinPoints b j (images.getD j 0).toNat })

/-- Procedure 0x03 (R437, R442): raw latencies of DRV and DEN of each channel, and the residuals of both paths. -/
def execDriveDeskew (b : Nat) (raw : List (Int × Int)) (residual : List (Nat × Nat)) (s : State) :
    Host.Outcome State Fault Refusal :=
  .next (s.calData b 3 fun r =>
    let x := s.holdDeskews b F.bayDeskewDrv F.bayDeskewDen 0 (raw.take 16) r
    { x with held := x.held ++ heldResiduals b 0 (residual.take 16) })

/-- Procedure 0x04 finds no return edge (R441). (DEDUCED, log entry 92.) -/
def State.roundTripLost (s : State) (b : Nat) : State :=
  match s.calRun b with
  | none => s
  | some r =>
    if r.step = 4 ∧ r.ready = false ∧ r.done.contains 4 = false then
      let t := s.calAbort b 5
      if t.bit F.calBayCfgFeEn 0 b then t.feRequest b (t.get F.calBayCfgFePost 0 b) true else t
    else s

/-- Procedure 0x04 (R437): the delay `m` in fu gives RTD and RTD_FRAC. -/
def execRoundTrip (b m : Nat) (s : State) : Host.Outcome State Fault Refusal :=
  .next (if 4095 * 1024 < m then s.roundTripLost b
    else s.calData b 4 fun r => { r with
      held := r.held ++ [heldFld F.bayCalBayRtd b 0 (m / 1024), heldFld F.bayCalBayRtdFrac b 0 (m % 1024)] })

/-- No return edge within 4,095 ct. -/
def execRoundTripTimeout (b : Nat) (s : State) : Host.Outcome State Fault Refusal := .next (s.roundTripLost b)

/-- Procedure 0x05 (R437, R442, R451): raw latencies of CMPH and CMPL of each channel, the residuals of both paths, and the
eye widths in fu. -/
def execCompareDeskew (b : Nat) (raw : List (Int × Int)) (residual eyes : List (Nat × Nat)) (s : State) :
    Host.Outcome State Fault Refusal :=
  .next (s.calData b 5 fun r =>
    let x := s.holdDeskews b F.bayDeskewCmph F.bayDeskewCmpl (s.runFrac b r) (raw.take 16) r
    { x with held := x.held ++ heldResiduals b 16 (residual.take 16) ++ heldResiduals b 32 (eyes.take 16) })

/-- Procedure 0x06 (R437, R451): OFFSET and GAIN of each input code at each gain, and the residual of each external input. -/
def execAdc (b : Nat) (values : List (Int × Int)) (residual : List Nat) (s : State) : Host.Outcome State Fault Refusal :=
  .next (s.calData b 6 fun r => { r with
    held := r.held
      ++ (List.range 48).flatMap (fun k =>
        [heldFld F.bayAdcCalOffset b k (fitSigned 16 (values.getD k (0, 0)).1),
         heldFld F.bayAdcCalGain b k (fitSigned 16 (values.getD k (0, 0)).2)])
      ++ (List.range 8).map fun i => ((⟨.bayAdcQual, b, 0⟩ : RegKey), 7 * i, 7, min 127 (residual.getD i 0)) })

/-- Procedure 0x07 (R437): the duty corrections of the two generators. -/
def execDclkDuty (b : Nat) (dutyA dutyB : Int) (s : State) : Host.Outcome State Fault Refusal :=
  .next (s.calData b 7 fun r => { r with
    held := r.held ++ [heldFld F.bayCalBayDutyA b 0 (fitSigned 8 dutyA), heldFld F.bayCalBayDutyB b 0 (fitSigned 8 dutyB)] })

/-- Procedure 0x0F goes on with its next procedure (R437). -/
def execBayFull (b : Nat) (s : State) : Host.Outcome State Fault Refusal := .next (s.calNext b)

/-- Procedure 0x10 (R41, R445). -/
def execTimeTrim (s : State) : Host.Outcome State Fault Refusal := .next (if s.bit F.clkStatusRefLost then s else s.timeTrim.2)

/-- The run of a bay ends successfully (R440): class 6 on the bay. -/
def execCalDone (b : Nat) (s : State) : Host.Outcome State Fault Refusal :=
  match s.calRun b with
  | none => .next s
  | some r => .next (if r.ready then s.onObj (.bay b) 6 0 1 fun t => t.calUpdate b else s)

/-- CAL.CTRL.ABORT (R441): class 2 on each bay. -/
def execCalAbort (mask : Nat) (src : Src) (s : State) : Host.Outcome State Fault Refusal :=
  .next ((bitsBelow 8 mask).foldl (fun (t : State) b => t.onObj (.bay b) 2 (srcRank src) 1 fun u => u.calAbort b 1) s)

/-- CAL.CTRL.STORE_COMMIT (R450). -/
def execStoreCommit (s : State) : Host.Outcome State Fault Refusal := .next (s.storeRequest [])

/-- A store commit ends (R450); `ok = false`: a read-back did not match. -/
def execCalStore (ok : Bool) (s : State) : Host.Outcome State Fault Refusal := .next (s.endCommit ok)

/-- DRIFT of a bay, in 0.25 °C: its die temperature less TEMP of its record in force (R453). -/
def State.drift (s : State) (b : Nat) : Int :=
  if s.bayUncal b then 0
  else clampInt (-2048) 2047 ((4 * s.getS F.thermTempTemp 0 (8 + b) - unitAt 0 s.cal.bayTemp b) / 4)

/-- DRIFT and TEMP_WARN of a bay. -/
def State.updateDrift (s : State) (b : Nat) : State :=
  let d := s.drift b
  let warn := decide (20 < d.natAbs)
  let t := (s.set F.calBayStatDrift 0 b (unsigned 12 d)).setBit F.calBayStatTempWarn 0 b warn
  if warn && !s.bit F.calBayStatTempWarn 0 b then t.post 0x0A05 b (unsigned 16 d) else t

/-- The 10 ms update (R453), 1,500,000 event ticks after the last. -/
def execDriftUpdate (s : State) : Host.Outcome State Fault Refusal :=
  .next (if s.cal.driftAt + 1500000 ≤ s.ticks then
      (List.range 8).foldl (fun (t : State) b => t.updateDrift b) { s with cal := { s.cal with driftAt := s.ticks } }
    else s)

/-- The eye monitors of OLU[p] measure (R451): at the exit from EQUALISE, or on an ACTIVE link whose receive direction is
awake once every second, 150,000,000 event ticks. `eyes`: four 8-bit widths. -/
def execEyeMeasure (p : Nat) (eyes : BitVec 32) (s : State) : Host.Outcome State Fault Refusal :=
  if s.get F.olupStatusState p = 3 ∨ (s.linkActive p ∧ s.bit F.olupStatusRxAsleep p = false
      ∧ (s.portX p).eyeAt + 150000000 ≤ s.ticks) then
    .next (((s.set F.calOluEyeEye 0 p eyes.toNat).set F.calOluEyeValid 0 p 1).setPortX p
      { (s.portX p) with eyeAt := s.ticks })
  else .next s

end Sys2Proof.Machine
end

