-- ==== Sys2Proof/Machine/OpsLane.lean ====
section
/-!
DEFINITION. OpsLane.lean: the transmit direction of an Oluel port: blocks, the scrambler, frame slots, marker groups, and which frame
takes a slot (R267, R268, R270, R271, R280, R281, R288).
-/
namespace Sys2Proof.Machine

/-! ### Blocks (R268) -/

/-- The sync headers of a data block and of a control block. -/
def syncData : Nat := 1
def syncControl : Nat := 2

/-- The types of control blocks. -/
def blkIdle : Nat := 0x33
def blkAlign : Nat := 0x4B
def blkFiller : Nat := 0x55
def blkSleep : Nat := 0x66
def blkTrain : Nat := 0x78

/-- A block as received, by its sync header and its first byte, is invalid. -/
def invalidBlock (b : Nat × Nat) : Bool :=
  !(b.1 == syncData) && !(b.1 == syncControl && [blkIdle, blkAlign, blkFiller, blkSleep, blkTrain].contains b.2)

/-- A control block: its type and bytes 1 to 7, zero where none are given. -/
def control (ty : Nat) (l : List Nat) : Nat × List Nat := (syncControl, ty :: (l ++ List.replicate 7 0).take 7)

/-- `n` bits through the self-synchronising scrambler x⁵⁸ + x³⁹ + 1, low bit first, from the last 58 bits sent, the latest in bit 0: the
scrambled bits and the last 58 bits then. -/
def scramble : Nat → Nat → Nat → Nat × Nat
  | 0, st, _ => (0, st)
  | n + 1, st, d =>
    let b := (d + st / 2 ^ 38 + st / 2 ^ 57) % 2
    let r := scramble n ((2 * st + b) % 2 ^ 58) (d / 2)
    (b + 2 * r.1, r.2)

/-- The bit-interleaved parity of bytes, on top of `n` (R268). (DESIGN CHOICE, log entry 113.) -/
def bip8 (n : Nat) (l : List Nat) : Nat := l.foldl (fun m b => Nat.xor m (b % 256)) n

/-- A block through a lane: the 66 bits, and the lane after it; the parity begins anew behind an ALIGN. -/
def LaneX.send (x : LaneX) (b : Nat × List Nat) : Nat × LaneX :=
  let r := scramble 64 x.scr (ofBytes b.2)
  (b.1 + 4 * r.1, { scr := r.2, bip := if b.1 = syncControl ∧ b.2.head? = some blkAlign then 0 else bip8 x.bip b.2 })

/-- The ball pair of lane `l` of port `p` (R267). -/
def oluPair (p l : Nat) : Nat := 4 * p + l

/-- One block time of OLU[p]: a block on each lane. -/
def State.sendBlocks (s : State) (p : Nat) (bs : List (Nat × List Nat)) : State :=
  let x := s.portX p
  let r := (x.line.lanes.zip bs).map fun e => e.1.send e.2
  ((List.range 4).zip r).foldl (fun (t : State) e => t.emit (.block (oluPair p e.1) e.2.1))
    (s.setPortX p { x with line := { x.line with lanes := r.map (·.2), time := x.line.time + 1 } })

/-- The same control block on every lane. -/
def State.sendControl (s : State) (p ty : Nat) : State := s.sendBlocks p (List.replicate 4 (control ty []))

/-- The blocks of block time `t` of the slot of a frame: bytes 8i to 8i + 7 on lane i mod 4 at block time i div 4 (R270). -/
def slotBlocks (bytes : List Nat) (t : Nat) : List (Nat × List Nat) :=
  (List.range 4).map fun l => (syncData, (bytes.drop (8 * (4 * t + l))).take 8)

/-! ### Which frame takes a slot (R280, R281) -/

/-- The first waiting frame that `ok` allows, and the others. -/
def takeFirst (ok : Frame → Bool) : List (Frame × Option Token) → Option ((Frame × Option Token) × List (Frame × Option Token))
  | [] => none
  | e :: es => if ok e.1 then some (e, es) else (takeFirst ok es).map fun r => (r.1, e :: r.2)

/-- A LINK frame: acknowledgement and credits, or a NAK (R280). -/
def State.linkFrame (s : State) (p : Nat) (nak : Bool) : Frame × State :=
  let x := s.portX p
  (x.header { cls := 0, src := s.get F.oluChipId } nak,
    s.setPortX p { x.returned with nakOwed := false, linkOwed := false, lastSent := s.ticks })

/-- A sequenced frame is formed and kept in the retry buffer (R280); an ETCHECK carries ETCOUNT as it then is (R286). -/
def State.formFrame (s : State) (p : Nat) (e : Frame × Option Token) : Frame × State :=
  let x := s.portX p
  let f := if e.1.cls = 5 ∧ e.1.sub = 0 then
      { e.1 with payload := List.replicate 8 0 ++ bytesOf (s.get F.clkEtcountCount) 8 }
    else e.1
  let g := x.header { f with seq := x.txSeq } false
  (g, s.setPortX p { (x.returned.useCredit f.cls) with
    txSeq := (x.txSeq + 1) % 4096
    retry := x.retry ++ [(g, e.2)]
    linkOwed := false
    ackTick := if x.retry = [] then s.ticks else x.ackTick
    lastSent := s.ticks })

/-- The next DATA frame of a transfer, whose bytes are read as the frame is formed; an uncorrectable word ends the transfer with ABORTED
on both devices (R288, R431). -/
def State.bulkData (s : State) (b : BulkTx) (k : Nat) : Option Frame × State :=
  let n := min 48 (b.len - 48 * k)
  match s.dramRead (b.src + 48 * k) n with
  | (some l, t) =>
    let u := { t with olu := { t.olu with bulkTx := t.olu.bulkTx.map fun (c : BulkTx) =>
      if c.chan = b.chan then { c with next := if b.len ≤ 48 * (k + 1) then none else some (k + 1) } else c } }
    (some { cls := 4, sub := 1, dst := b.chip, src := u.get F.oluChipId, ttl := u.get F.oluBcastTtl,
            payload := b.chan :: (bytesOf k 3 ++ l) }, u)
  | (none, t) => (none, (t.bulkEnd b.chan 3).unicast b.port b.chip 4 2 (b.chan :: 3 :: 0 :: 0 :: bytesOf (48 * k) 4) none)

/-- The transfer that sends through a port and has frames left, once no frame of its class waits. -/
def State.bulkNext (s : State) (p : Nat) : Option (BulkTx × Nat) :=
  let x := s.portX p
  if x.creditBulk = 0 ∨ x.queue.any (fun e => e.1.cls == 4) then none
  else s.olu.bulkTx.findSome? fun b => if b.port = p then b.next.map fun k => (b, k) else none

/-- What a port that has nothing else to send does with a slot: a LINK frame, where one is asked for or an acknowledgement is owed since 64
event ticks, within the 64 slots of R280. -/
def State.idleFrame (s : State) (p : Nat) : Option Frame × State :=
  let x := s.portX p
  if x.linkOwed ∨ x.ackOwed.any fun t => decide (t + 64 ≤ s.ticks) then
    let r := s.linkFrame p false
    (some r.1, r.2)
  else (none, s)

/-- The frame that takes the next slot of OLU[p]: a NAK, the frames to be resent in order, express frames, the other classes that have
credit, BULK data; no new sequenced frame while 512 are unacknowledged (R280, R281). -/
def State.nextFrame (s : State) (p : Nat) : Option Frame × State :=
  let x := s.portX p
  if x.nakOwed then
    let r := s.linkFrame p true
    (some r.1, r.2)
  else
    match (if x.again = 0 then none else (x.retry.drop (x.retry.length - x.again)).head?) with
    | some e => (some (x.restamp e.1), s.setPortX p { x with again := x.again - 1, ackOwed := none, lastSent := s.ticks })
    | none =>
      if 512 ≤ x.retry.length then s.idleFrame p
      else
        match (match takeFirst expressFrame x.queue with
          | some r => some r
          | none => takeFirst x.hasCredit x.queue) with
        | some (e, rest) =>
          let r := (s.setPortX p { x with queue := rest }).formFrame p e
          (some r.1, r.2)
        | none =>
          match s.bulkNext p with
          | none => s.idleFrame p
          | some (b, k) =>
            match s.bulkData b k with
            | (some f, t) =>
              let r := t.formFrame p (f, none)
              (some r.1, r.2)
            | (none, t) => (none, t)

/-! ### Block times (R270, R271) -/

/-- A slot begins: a frame in eight data blocks, or eight IDLE blocks (R270). -/
def State.sendSlot (s : State) (p : Nat) : State :=
  match s.nextFrame p with
  | (some f, t) =>
    let u := (t.emit (.frame p f)).sendBlocks p (slotBlocks (frameBytes f) 0)
    u.setPortX p { (u.portX p) with line := { (u.portX p).line with half := slotBlocks (frameBytes f) 1 } }
  | (none, t) =>
    let u := t.sendControl p blkIdle
    u.setPortX p { (u.portX p) with line := { (u.portX p).line with half := List.replicate 4 (control blkIdle []) } }

/-- What is left of the slot in progress is sent. -/
def State.endSlot (s : State) (p : Nat) : State :=
  let l := (s.portX p).line
  if l.half = [] then s
  else (s.setPortX p { (s.portX p) with line := { l with half := [] } }).sendBlocks p l.half

/-- The ALIGN of a marker group on each lane: lane, marker count, parity (R268, R271). -/
def State.sendAlign (s : State) (p : Nat) : State :=
  let l := (s.portX p).line
  (s.setPortX p { (s.portX p) with line := { l with fill := 15, due := l.due + 16384, mark := l.mark + 1 } }).sendBlocks p
    (((List.range 4).zip l.lanes).map fun e => control blkAlign (e.1 :: (bytesOf (l.mark % 65536) 2 ++ [e.2.bip])))

/-- One block time of an awake transmit direction: the second half of a slot, a FILLER of a marker group, a new group where it is due and
not deferred for an express frame, by 8 block times at most, or a new slot (R270, R271). -/
def State.blockTime (s : State) (p : Nat) : State :=
  let x := s.portX p
  let l := x.line
  if l.half ≠ [] then s.endSlot p
  else if l.fill ≠ 0 then
    (s.setPortX p { x with line := { l with fill := l.fill - 1 } }).sendControl p blkFiller
  else if l.due ≤ l.time ∧ (l.due + 8 ≤ l.time ∨ !x.queue.any fun e => expressFrame e.1) then s.sendAlign p
  else s.sendSlot p

/-- `k` block times of a port. -/
def State.blockTimes (s : State) (p : Nat) : Nat → State
  | 0 => s
  | k + 1 => (s.blockTime p).blockTimes p k

/-- What OLU[p] sends in `n` core ticks, if it is ACTIVE and its transmit direction awake: 8 block times, of 66 bits at 19.2 Gb/s, fall on
33 core ticks (R36, R268). -/
def State.transmit (s : State) (n p : Nat) : State :=
  if s.linkActive p ∧ s.bit F.olupStatusTxAsleep p = false then
    let x := s.portX p
    let r := x.line.rest + 8 * n
    (s.setPortX p { x with line := { x.line with rest := r % 33 } }).blockTimes p (r / 33)
  else s

/-- What the four ports send in `n` core ticks. -/
def State.transmitAll (s : State) (n : Nat) : State := (List.range 4).foldl (fun (t : State) p => t.transmit n p) s

end Sys2Proof.Machine
end

