-- ==== Sys2Proof/Machine/OpsAuth.lean ====
section
/-!
DEFINITION. OpsAuth.lean: the checks of a firmware image (R333): SHA-256, and ECDSA P-256 verification as FIPS 186-5 defines it.
(PRESUMED, log entry 117: the constants and the steps of the algorithms that the spec names are those of their standards.)
-/
namespace Sys2Proof.Machine

/-! ### SHA-256 -/

/-- The round constants of SHA-256. -/
def shaK : List (BitVec 32) :=
  [0x428a2f98, 0x71374491, 0xb5c0fbcf, 0xe9b5dba5, 0x3956c25b, 0x59f111f1, 0x923f82a4, 0xab1c5ed5,
   0xd807aa98, 0x12835b01, 0x243185be, 0x550c7dc3, 0x72be5d74, 0x80deb1fe, 0x9bdc06a7, 0xc19bf174,
   0xe49b69c1, 0xefbe4786, 0x0fc19dc6, 0x240ca1cc, 0x2de92c6f, 0x4a7484aa, 0x5cb0a9dc, 0x76f988da,
   0x983e5152, 0xa831c66d, 0xb00327c8, 0xbf597fc7, 0xc6e00bf3, 0xd5a79147, 0x06ca6351, 0x14292967] ++
  [0x27b70a85, 0x2e1b2138, 0x4d2c6dfc, 0x53380d13, 0x650a7354, 0x766a0abb, 0x81c2c92e, 0x92722c85,
   0xa2bfe8a1, 0xa81a664b, 0xc24b8b70, 0xc76c51a3, 0xd192e819, 0xd6990624, 0xf40e3585, 0x106aa070,
   0x19a4c116, 0x1e376c08, 0x2748774c, 0x34b0bcb5, 0x391c0cb3, 0x4ed8aa4a, 0x5b9cca4f, 0x682e6ff3,
   0x748f82ee, 0x78a5636f, 0x84c87814, 0x8cc70208, 0x90befffa, 0xa4506ceb, 0xbef9a3f7, 0xc67178f2]

/-- The initial hash value of SHA-256. -/
def shaInit : List (BitVec 32) :=
  [0x6a09e667, 0xbb67ae85, 0x3c6ef372, 0xa54ff53a, 0x510e527f, 0x9b05688c, 0x1f83d9ab, 0x5be0cd19]

/-- A sum of two rotations and a shift or a third rotation, by exclusive or. -/
def shaMix (x : BitVec 32) (a b : Nat) (c : BitVec 32) : BitVec 32 := x.rotateRight a ^^^ x.rotateRight b ^^^ c

/-- The message schedule, newest word first: `n` further words. -/
def shaExtend : Nat → List (BitVec 32) → List (BitVec 32)
  | 0, w => w
  | n + 1, w =>
    let a := w.getD 1 0
    let b := w.getD 14 0
    shaExtend n ((shaMix a 17 19 (a >>> 10) + w.getD 6 0 + shaMix b 7 18 (b >>> 3) + w.getD 15 0) :: w)

/-- One round of SHA-256 on the eight working words. -/
def shaRound (h : List (BitVec 32)) (kw : BitVec 32) : List (BitVec 32) :=
  match h with
  | [a, b, c, d, e, f, g, z] =>
    let t1 := z + shaMix e 6 11 (e.rotateRight 25) + ((e &&& f) ^^^ (~~~e &&& g)) + kw
    let t2 := shaMix a 2 13 (a.rotateRight 22) + ((a &&& b) ^^^ (a &&& c) ^^^ (b &&& c))
    [t1 + t2, a, b, c, d + t1, e, f, g]
  | _ => h

/-- The big-endian 32-bit words of a byte string. -/
def shaWords : List Nat → List (BitVec 32)
  | a :: b :: c :: d :: bs => BitVec.ofNat 32 (a * 2 ^ 24 + b * 2 ^ 16 + c * 2 ^ 8 + d) :: shaWords bs
  | _ => []

/-- The hash value after one block of 64 bytes. -/
def shaBlock (h : List (BitVec 32)) (block : List Nat) : List (BitVec 32) :=
  let w := (shaExtend 48 (shaWords block).reverse).reverse
  List.zipWith (· + ·) h ((List.zipWith (· + ·) shaK w).foldl shaRound h)

/-- The hash value after `n` blocks. -/
def shaBlocks : Nat → List (BitVec 32) → List Nat → List (BitVec 32)
  | 0, h, _ => h
  | n + 1, h, m => shaBlocks n (shaBlock h (m.take 64)) (m.drop 64)

/-- A number as `n` bytes, the most significant first. -/
def bytesBE (v n : Nat) : List Nat := (bytesOf v n).reverse

/-- The number that bytes hold, the most significant first. -/
def ofBE (l : List Nat) : Nat := ofBytes l.reverse

/-- The SHA-256 digest of a byte string, 32 bytes. -/
def sha256 (m : List Nat) : List Nat :=
  let p := m ++ [0x80] ++ List.replicate ((119 - m.length % 64) % 64) 0 ++ bytesBE (8 * m.length) 8
  (shaBlocks (p.length / 64) shaInit p).flatMap fun h => bytesBE h.toNat 4

/-! ### ECDSA P-256 -/

/-- The prime of the field of P-256. -/
def p256P : Nat := 0xffffffff00000001000000000000000000000000ffffffffffffffffffffffff

/-- The order of the base point. -/
def p256N : Nat := 0xffffffff00000000ffffffffffffffffbce6faada7179e84f3b9cac2fc632551

/-- The coefficient b of the curve y² = x³ − 3x + b. -/
def p256B : Nat := 0x5ac635d8aa3a93e7b3ebbd55769886bc651d06b0cc53b0f63bce3c3e27d2604b

/-- The base point. -/
def p256G : Nat × Nat := (0x6b17d1f2e12c4247f8bce6e563a440f277037d812deb33a0f4a13945d898c296,
  0x4fe342e2fe1a7f9b8ee7eb4a7c0f9e162bce33576b315ececbb6406837bf51f5)

/-- `b` to the power of the lowest `n` bits of `e`, modulo `m`. -/
def powMod (m : Nat) : Nat → Nat → Nat → Nat
  | 0, _, _ => 1
  | n + 1, b, e => (if e % 2 = 1 then b else 1) * powMod m n (b * b % m) (e / 2) % m

/-- The inverse of `x` modulo a prime of 256 bits. -/
def invMod (m x : Nat) : Nat := powMod m 256 (x % m) (m - 2)

/-- The point with slope `l` through (x1, y1) and a point of abscissa x2, reflected. -/
def ecThird (l x1 y1 x2 : Nat) : Nat × Nat :=
  let x := (l * l + 2 * p256P - x1 - x2) % p256P
  (x, (l * (x1 + p256P - x) + p256P - y1) % p256P)

/-- The sum of two points; `none` is the point at infinity. -/
def ecAdd : Option (Nat × Nat) → Option (Nat × Nat) → Option (Nat × Nat)
  | none, q => q
  | p, none => p
  | some (x1, y1), some (x2, y2) =>
    if x1 = x2 then
      if (y1 + y2) % p256P = 0 then none
      else some (ecThird ((3 * x1 * x1 + p256P - 3) * invMod p256P (2 * y1) % p256P) x1 y1 x2)
    else some (ecThird ((y2 + p256P - y1) * invMod p256P (x2 + p256P - x1) % p256P) x1 y1 x2)

/-- The multiple of a point by the lowest `n` bits of `k`. -/
def ecMul : Nat → Nat → Option (Nat × Nat) → Option (Nat × Nat)
  | 0, _, _ => none
  | n + 1, k, p =>
    let r := ecMul n (k / 2) (ecAdd p p)
    if k % 2 = 1 then ecAdd p r else r

/-- The point lies on the curve. -/
def onCurve (x y : Nat) : Bool :=
  decide (x < p256P) && decide (y < p256P) && decide (y * y % p256P = (x * x * x + (p256P - 3) * x + p256B) % p256P)

/-- (r, s) is a valid ECDSA P-256 signature, under the public key (x, y), of a message with digest `e`. -/
def ecdsaValid (x y r s e : Nat) : Bool :=
  if onCurve x y ∧ 0 < r ∧ r < p256N ∧ 0 < s ∧ s < p256N then
    let w := invMod p256N s
    match ecAdd (ecMul 256 (e * w % p256N) (some p256G)) (ecMul 256 (r * w % p256N) (some (x, y))) with
    | some p => decide (p.1 % p256N = r)
    | none => false
  else false

/-- The checks of R333 on a signed image of `n` bytes against a key hash. -/
def signedOk (img : List Nat) (n : Nat) (hash : List Nat) : Bool :=
  let key := (img.drop (n - 128)).take 64
  let sig := (img.drop (n - 64)).take 64
  decide (sha256 key = hash)
    && ecdsaValid (ofBE (key.take 32)) (ofBE (key.drop 32)) (ofBE (sig.take 32)) (ofBE (sig.drop 32))
      (ofBE (sha256 (img.take (n - 128))))

end Sys2Proof.Machine
end

