-- ==== Sys2Proof/Machine/Dispatcher.lean ====
section
/-!
DEFINITION. Dispatcher.lean: the control cores' loading and release, thread slots, ordered flows and the mail inbox
(11_control_cores_and_dispatcher.md, R326 to R357).
-/
namespace Sys2Proof.Machine

/-! ### Choosing threads (R339, R340) -/

/-- Core `c` is out of reset. -/
def State.coreRuns (s : State) (c : Nat) : Bool := testBit (s.get F.coreStatusRunning) c

/-- The thread that core `c` runs, when its slot is RUNNING there: a cancelled thread does not count. -/
def State.runningOn (s : State) (c : Nat) : Option Nat :=
  match (s.coreX c).thread with
  | some j => if s.get F.dispThrStateState 0 j = 2 ∧ s.get F.dispThrStateCore 0 j = c then some j else none
  | none => none

/-- The slice of the thread on core `c` has ended: it has run SLICE ticks, or its affinity excludes the core and SLICE is
0 (R339, R350). -/
def State.sliceEnded (s : State) (c : Nat) : Bool :=
  decide (s.get F.dispCtrlSlice ≠ 0) && decide (s.get F.dispCtrlSlice ≤ s.ticks - (s.coreX c).sliceStart)

/-- The thread on core `c` is excluded by its affinity (R350). -/
def State.excluded (s : State) (c : Nat) : Bool :=
  match s.runningOn c with
  | some j => !testBit (s.get F.dispThrCfgAffinity 0 j) c
  | none => false

/-- The excluded thread is due to move (R350). -/
def State.migrationDue (s : State) (c : Nat) : Bool :=
  s.excluded c && (s.sliceEnded c || decide (s.get F.dispCtrlSlice = 0))

/-- Among cores `cs`, the one whose RUNNING thread has the largest priority above `lvl`; the lower core on ties. -/
def State.preemptCore (s : State) (lvl : Nat) : List Nat → Option Nat
  | [] => none
  | c :: cs =>
    let rest := s.preemptCore lvl cs
    match s.runningOn c with
    | none => rest
    | some j =>
      let p := s.get F.dispThrCfgPrio 0 j
      if p ≤ lvl then rest
      else
        match rest with
        | none => some c
        | some c' =>
          match s.runningOn c' with
          | some j' => if p < s.get F.dispThrCfgPrio 0 j' then some c' else some c
          | none => some c

/-- best_core of R339 for thread `t` of level `lvl`; `idle` are the cores that count as idle in this tick. -/
def State.bestCore (s : State) (idle claimed : List Nat) (lvl t : Nat) : Option Nat :=
  let cs := (List.range 4).filter fun c =>
    s.coreRuns c && !claimed.contains c && testBit (s.get F.dispThrCfgAffinity 0 t) c
  match cs.find? (fun c => idle.contains c || (s.runningOn c).isNone) with
  | some c => some c
  | none =>
    match s.preemptCore lvl cs with
    | some c => some c
    | none => cs.find? fun c =>
        match s.runningOn c with
        | some j => decide (s.get F.dispThrCfgPrio 0 j = lvl) && s.sliceEnded c
        | none => false

/-- The targets of the cores (R339): pairs of core and thread, levels in order, each list head first. -/
def State.targets (s : State) (idle : List Nat) : List (Nat × Nat) :=
  (List.range 64).foldl (fun acc lvl =>
    (s.readyList lvl).foldl (fun acc t =>
      match s.bestCore idle (acc.map (·.1)) lvl t with
      | some c => acc ++ [(c, t)]
      | none => acc) acc) []

/-- The target of core `c`. -/
def State.targetOf (s : State) (idle : List Nat) (c : Nat) : Option Nat :=
  ((s.targets idle).find? (fun e => decide (e.1 = c))).map (·.2)

/-- DISP becomes pending at core `c`, with its reason (R330, R331, R340). -/
def State.setPending (s : State) (c reason : Nat) : State :=
  (s.setCoreX c { (s.coreX c) with reason := reason }).set F.dispCoreStatPending 0 c 1

/-- DISP of core `c` after the choice of a tick (R340, R350). -/
def State.refreshCore (s : State) (c : Nat) : State :=
  if s.coreRuns c = false ∨ s.bit F.dispCoreStatPending 0 c then s
  else if s.migrationDue c then s.setPending c 3
  else
    match s.targetOf [] c with
    | some _ => s.setPending c (if (s.runningOn c).isSome ∧ s.sliceEnded c then 2 else 0)
    | none => s

/-- DISP of every core after the choice of a tick. (DEDUCED, log entry 74.) -/
def State.refreshCores (s : State) : State := (List.range 4).foldl (fun t c => t.refreshCore c) s

/-- The wait-time sample of R357: LAST and MAX of THR[j]. -/
def State.waitSample (s : State) (j : Nat) : State :=
  let n := s.ticks - unitAt 0 s.disp.readyAt j
  let m := min n 1073741823
  let big := decide (1073741823 < n)
  let t := (s.set F.dispThrWaitLast 0 j m).setBit F.dispThrWaitLastSaturated 0 j big
  if t.clearedNow (F.dispThrWaitMax.key 0 j) F.dispThrWaitMax.lo then t
  else if t.get F.dispThrWaitMax 0 j < m then
    (t.set F.dispThrWaitMax 0 j m).setBit F.dispThrWaitMaxSaturated 0 j (big || t.bit F.dispThrWaitMaxSaturated 0 j)
  else t.setBit F.dispThrWaitMaxSaturated 0 j (big || t.bit F.dispThrWaitMaxSaturated 0 j)

/-- Core `c` runs no thread. -/
def State.coreIdle (s : State) (c : Nat) : State :=
  ((s.setCoreX c { (s.coreX c) with thread := none }).set F.dispCoreStatIdle 0 c 1).set F.dispCoreStatThread 0 c 0

/-- Core `c` takes thread `j` (R337, R340). -/
def State.coreTakes (s : State) (c j : Nat) : State :=
  let t := (((s.waitSample j).unready j).set F.dispThrStateState 0 j 2).set F.dispThrStateCore 0 j c
  ((t.setCoreX c { (t.coreX c) with thread := some j, sliceStart := t.ticks }).set F.dispCoreStatIdle 0 c 0).set
    F.dispCoreStatThread 0 c j

/-- The switch of core `c` takes the target `tg` of the tick's choice (R340): the result word has the slot, SAME and IDLE (R346). -/
def State.switchTo (s : State) (c : Nat) (own tg : Option Nat) : Nat × State :=
  let t := s.set F.dispCoreStatPending 0 c 0
  match tg with
  | some j => (j + (if own = some j then 2 ^ 30 else 0), t.coreTakes c j)
  | none => (2 ^ 31, t.coreIdle c)

/-! ### Dispatcher operations -/

/-- MAKEREADY (R337, R346, R349). -/
def State.makeReadyOp (s : State) (j : Nat) (src : Src) : State :=
  match s.decideEvent (.thread j) 4 (srcRank src) effReady with
  | (.acts, t) =>
    if t.get F.dispThrStateState 0 j = 0 then t.makeReady j false
    else if t.get F.dispThrStateState 0 j = 3 then (t.makeReady j false).setBit F.dispThrStateForced 0 j true
    else t
  | (.merged, t) =>
    if t.bit F.dispThrStateTimedout 0 j ∧ unitAt 0 t.disp.readyAt j = t.ticks ∧ t.satisfied j = false then
      (t.setBit F.dispThrStateTimedout 0 j false).setBit F.dispThrStateForced 0 j true
    else t
  | (.superseded, t) => t

/-- The core that runs THR[j], if one does. -/
def State.coreOf (s : State) (j : Nat) : Option Nat := (List.range 4).find? (fun c => decide (s.runningOn c = some j))

/-- A RUNNING thread has been taken from its core by a cancel: a switch is pending there, reason cancel (R340). -/
def State.cancelPending (s : State) (j : Nat) : State :=
  match s.coreOf j with
  | some c => s.setPending c 1
  | none => s

/-- CANCEL (R337, R346): the thread becomes IDLE, its wait mask is cleared, its flags are kept. -/
def State.cancelOp (s : State) (j : Nat) (src : Src) : State :=
  s.onObj (.thread j) 2 (srcRank src) 2 fun t =>
    if t.get F.dispThrStateState 0 j = 0 then t
    else (((t.cancelPending j).unready j).set F.dispThrStateState 0 j 0).set F.dispThrCfgWaitmask 0 j 0

/-- Slot reset (R337, R346): class 1 for the slot and its flags. -/
def State.slotResetOp (s : State) (j : Nat) (src : Src) : State :=
  s.onObj (.thread j) 1 (srcRank src) 0 fun t =>
    let u := (((t.cancelPending j).unready j).set F.dispThrStateState 0 j 0).set F.dispThrCfgWaitmask 0 j 0
    (((u.set F.dispThrStateFlags 0 j 0).set F.dispThrStateTimedout 0 j 0).set F.dispThrStateForced 0 j 0).set
      F.dispThrStateLost 0 j 0

/-- CLRFLAGS (R342, R349): each flag is an object of its own. -/
def State.clrFlagsOp (s : State) (j mask : Nat) (src : Src) : State :=
  (bitsBelow 32 mask).foldl (fun t i => t.onObj (.threadFlag j i) 3 (srcRank src) 1 fun u =>
    u.set F.dispThrStateFlags 0 j (putBit (u.get F.dispThrStateFlags 0 j) i false)) s

/-! ### Ordered flows (R351 to R354) -/

/-- What FLOW[f] holds. -/
def State.flowX (s : State) (f : Nat) : FlowX := unitAt {} s.disp.flows f

/-- Stores what FLOW[f] holds. -/
def State.setFlowX (s : State) (f : Nat) (x : FlowX) : State :=
  { s with disp := { s.disp with flows := putUnit {} s.disp.flows f x } }

/-- The lowest worker slot that is WAITING with WAKE_FLAG in its wait mask and not set (R351). -/
def State.flowWorker (s : State) (f : Nat) : Option Nat :=
  let w := s.get F.dispFlowCfgWakeFlag 0 f
  ((List.range (s.get F.dispFlowCfgWorkerCount 0 f)).map (· + s.get F.dispFlowCfgWorkerFirst 0 f)).find? fun j =>
    decide (s.get F.dispThrStateState 0 j = 3) && testBit (s.get F.dispThrCfgWaitmask 0 j) w
      && !testBit (s.get F.dispThrStateFlags 0 j) w

/-- The flow wakes a worker (R351). -/
def State.wakeWorker (s : State) (f : Nat) (src : Src) : State :=
  match s.flowWorker f with
  | some j => s.setFlags j (2 ^ s.get F.dispFlowCfgWakeFlag 0 f) src
  | none => s

/-- Items not yet taken. -/
def FlowX.queued (x : FlowX) : List Item := x.items.filter (fun i => !i.taken)

/-- SUBMIT (R351): a new item at the end of the flow. (DEDUCED, log entry 72.) -/
def State.submitItem (s : State) (f handle : Nat) (src : Src) : State :=
  let x := s.flowX f
  (s.setFlowX f { nextSeq := (x.nextSeq + 1) % 2 ^ 32
                  items := x.items ++ [{ seq := x.nextSeq, handle := handle % 2 ^ 22 }] }).wakeWorker f src

/-- A host submission is refused or a release is refused: REFUSED counts it (R348, R353). -/
def State.refuseFlow (s : State) (f : Nat) : State := s.count F.dispFlowStatRefused F.dispFlowStatSaturated 0 f 1

/-- The submission comes from host software. -/
def srcIsHost : Src → Bool
  | .host _ => true
  | _ => false

/-- SUBMIT of a source (R348, R351, R354). -/
def State.submitOp (s : State) (f handle : Nat) (src : Src) : State :=
  match s.decideEvent (.flow f) 4 (srcRank src) 1 with
  | (.superseded, t) => t
  | (_, t) =>
    if t.bit F.dispFlowCfgEnable 0 f = false then (if srcIsHost src then t.refuseFlow f else t)
    else if 512 ≤ (t.flowX f).items.length then (if srcIsHost src then t.refuseFlow f else t)
    else t.submitItem f handle src

/-- The released record at the head of a flow leaves for its destination (R353): `none` while it must wait. -/
def State.flowSend (s : State) (f : Nat) (rec : List Word) : Option State × State :=
  if s.get F.dispFlowCfgDest 0 f = 0 then (some s, s)
  else if s.get F.dispFlowCfgDest 0 f = 1 then
    let q := s.get F.dispFlowCfgRing 0 f
    let (ok, t) := s.namedRing 7 f q (if s.get F.ringCfgType q = 5 then 5 else 2) false
    if ok ∧ t.ringRoom q then (some (t.pushEntry q rec), t) else (none, t)
  else
    let chip := s.get F.dispFlowCfgChip 0 f
    match s.route chip with
    | none => (some s, s)
    | some p =>
      if s.linkActive p ∧ ((s.portX p).queue.filter fun e => e.1.cls == 3).length < (s.portX p).creditMail then
        let head := bytesOf (s.get F.dispFlowCfgMailThread 0 f + s.get F.dispFlowCfgMailFlag 0 f * 1024 + 32 * 65536) 4
        (some (s.unicast p chip 3 0 (head ++ wordBytes rec) none), s)
      else (none, s)

/-- The consecutively released items at the head of a flow leave in sequence order (R353). -/
def State.flowDrain (s : State) (f : Nat) : List Item → State
  | [] => (s.setFlowX f { (s.flowX f) with items := [] }).set F.dispFlowStatStalled 0 f 0
  | i :: is =>
    match i.released with
    | none => (s.setFlowX f { (s.flowX f) with items := i :: is }).set F.dispFlowStatStalled 0 f 0
    | some none => s.flowDrain f is
    | some (some rec) =>
      match s.flowSend f rec with
      | (some t, _) => t.flowDrain f is
      | (none, t) => (t.setFlowX f { (t.flowX f) with items := i :: is }).set F.dispFlowStatStalled 0 f 1

/-- RELEASE of the taken item of a slot (R353). -/
def State.releaseOp (s : State) (f slot : Nat) (out : Option (List Word)) : State :=
  let x := s.flowX f
  if x.items.any (fun i => decide (i.seq % 512 = slot) && i.taken && i.released.isNone) then
    s.flowDrain f (x.items.map fun i =>
      if i.seq % 512 = slot ∧ i.taken ∧ i.released = none then { i with released := some out } else i)
  else s.refuseFlow f

/-! ### Operations of the cores (R346, R347, R349) -/

/-- The operation is a load, which returns a value. -/
def CoreOp.isLoad : CoreOp → Bool
  | .wait => true
  | .yield => true
  | .switch => true
  | .takeflags => true
  | .take _ => true
  | _ => false

/-- An operation completes with the value `v`: a load returns it, and a core that waits for the operation goes on. -/
def State.opDone (s : State) (c : Nat) (e : CoreEntry) (v : Nat) : State :=
  let x := s.coreX c
  let u := match e.rd with
    | some r => x.cpu.wx r (BitVec.ofNat 32 v)
    | none => x.cpu
  s.setCoreX c { x with
    result := if e.op.isLoad then v else x.result
    cpu := if e.posted then u else { u with wait := .no } }

/-- An operation enters the queue of its core; one that finds 16 entries stalls the core until a place frees (R347). -/
def State.queueOp (s : State) (c : Nat) (e : CoreEntry) : State :=
  let x := s.coreX c
  if x.queue.length < 16 then
    s.setCoreX c { x with queue := x.queue ++ [e], cpu := if e.posted then x.cpu else { x.cpu with wait := .op } }
  else s.setCoreX c { x with cpu := { x.cpu with wait := .full e } }

/-- The mail that a 64-byte block of shared SRAM holds (R355, R356). -/
def State.blockMail (s : State) (c : Nat) (l : List Nat) : Mail :=
  { thread := field l 0 2 % 1024, flag := field l 0 2 / 1024 % 32, len := min 48 (field l 2 1),
    chip := s.get F.oluChipId, data := l.drop 16, source := .core c }

/-- SENDMAIL (R356): the block goes to the local inbox, or as an Oluel MAIL message to the chip it names; a block without a route is
dropped and counted, one with an uncorrectable word is not sent (R456). Without MAIL credit on its port it is not sampled, and the answer is `none`; it completes when the inbox has
taken it, or when its frame is queued. (DEDUCED, log entry 71.) -/
def State.sendmailOp (s : State) (c : Nat) (e : CoreEntry) (block : Nat) : Option State :=
  let l := s.sramBytes (sramBase + 64 * block) 64
  let chip := field l 3 1 % 64
  let m := s.blockMail c l
  if s.badSram (sramBase + 64 * block) 64 then some (s.opDone c e 0)
  else if chip = s.get F.oluChipId then
    if s.inboxRoom ∧ s.disp.heldMail = [] then some ((s.inboxPut m).opDone c e 0)
    else
      let t := s.setCoreX c { (s.coreX c) with mail := some e }
      some { t with disp := { t.disp with heldMail := t.disp.heldMail ++ [m] } }
  else
    match s.route chip with
    | none => some ((s.count F.coreStatusMailNoroute F.coreStatusSaturated 0 0 1).opDone c e 0)
    | some p =>
      if s.linkActive p ∧ ((s.portX p).queue.filter fun g => g.1.cls == 3).length < (s.portX p).creditMail then
        some ((s.unicast p chip 3 0 (bytesOf (m.thread + m.flag * 1024 + m.len * 65536) 4 ++ m.data.take 48) none).opDone c e 0)
      else none

/-- An operation of core `c` is sampled (R347): events on slots and flows act at once, an operation of its own thread behind them (R349); a
SUBMIT to a flow that holds 512 items, and a SENDMAIL without credit, stay unsampled (R351, R356): `none`. -/
def State.sampleOp (s : State) (c : Nat) (e : CoreEntry) : Option State :=
  match e.op with
  | .makeready j => some ((s.makeReadyOp j (.core c)).opDone c e 0)
  | .cancel j => some ((s.cancelOp j (.core c)).opDone c e 0)
  | .setflags j m => some ((s.setFlags j m (.core c)).opDone c e 0)
  | .clrflags j m => some ((s.clrFlagsOp j m (.core c)).opDone c e 0)
  | .reset j => some ((s.slotResetOp j (.core c)).opDone c e 0)
  | .submit f h =>
    if s.bit F.dispFlowCfgEnable 0 f ∧ 512 ≤ (s.flowX f).items.length then none
    else some ((s.submitOp f h (.core c)).opDone c e 0)
  | .sendmail b => s.sendmailOp c e b
  | _ => some (s.setCoreX c { (s.coreX c) with now := some e })

/-- An operation has been sampled from core `c` in the present tick. -/
def State.opSampled (s : State) (c : Nat) : State := s.setCoreX c { (s.coreX c) with sampled := true }

/-- The head of a core's queue is sampled, where it can be; a store that the full queue has held enters the free place (R347). -/
def State.sampleNext (s : State) (c : Nat) : State :=
  match (s.coreX c).queue with
  | [] => s
  | e :: es =>
    match s.sampleOp c e with
    | none => s
    | some t =>
      let u := (t.setCoreX c { (t.coreX c) with queue := es }).opSampled c
      match (u.coreX c).cpu.wait with
      | .full g => (u.setCoreX c { (u.coreX c) with cpu := { (u.coreX c).cpu with wait := .no } }).queueOp c g
      | _ => u

/-- A boundary samples one operation of each core, in program order (R347). -/
def State.sampleCores (s : State) : State :=
  (List.range 4).foldl (fun (t : State) c => (t.setCoreX c { (t.coreX c) with sampled := false }).sampleNext c) s

/-- Core `c` issues an operation that reaches the dispatcher in the present tick: it is sampled, unless one of this core has been or waits
before it (R347). -/
def State.coreIssues (s : State) (c : Nat) (op : CoreOp) : State :=
  let x := s.coreX c
  let e : CoreEntry := { op := op }
  if x.sampled = false ∧ x.queue = [] then
    match s.sampleOp c e with
    | some t => t.opSampled c
    | none => s.queueOp c e
  else s.queueOp c e

/-- WAIT of a thread (R337, R340, R343): TIMEDOUT and FORCED are cleared; a wait already satisfied counts as READY at the head; else the
thread is WAITING, with its deadline. -/
def State.waitThread (s : State) (j : Nat) : State :=
  let t := (s.set F.dispThrStateTimedout 0 j 0).set F.dispThrStateForced 0 j 0
  if t.satisfied j then t.makeReady j true
  else
    let d := t.get F.dispThrCfgTimeout 0 j
    let u := t.set F.dispThrStateState 0 j 3
    { u with disp := { u.disp with deadline := putUnit 0 u.disp.deadline j (if d = 0 then 0 else u.ticks + d * 256) } }

/-- The thread of a core that issues WAIT, YIELD or SWITCH returns to its list or waits: SWITCH to the head of its level, or to the tail at
the end of its slice or when it migrates (R337, R339, R350). -/
def State.leaveThread (s : State) (c j : Nat) : CoreOp → State
  | .wait => s.waitThread j
  | .yield => s.makeReady j false
  | _ => s.makeReady j (!(s.sliceEnded c || s.excluded c))

/-- TAKE: the oldest queued item of a flow, or zero (R352); a TAKE that leaves items queued wakes a worker (R351). -/
def State.takeOp (s : State) (c f : Nat) : Nat × State :=
  let x := s.flowX f
  match x.queued with
  | [] => (0, s)
  | i :: rest =>
    let t := s.setFlowX f { x with items := x.items.map fun k => if k.seq = i.seq then { k with taken := true } else k }
    (2 ^ 31 + i.seq % 512 * 2 ^ 22 + i.handle, if rest = [] then t else t.wakeWorker f (.core c))

/-- The 32 bytes of a record of shared SRAM, as words (R353). -/
def State.sramRecord (s : State) (record : Nat) : List Word :=
  (List.range 4).map fun i => BitVec.ofNat 64 (ofBytes (s.sramBytes (sramBase + 32 * record + 8 * i) 8))

/-- TAKEFLAGS: the caller's flags under its wait mask, which are cleared (R342, R346). -/
def State.takeFlagsOp (s : State) (c : Nat) : Nat × State :=
  match s.runningOn c with
  | none => (0, s)
  | some j =>
    let f := s.get F.dispThrStateFlags 0 j
    let got := Nat.land f (s.get F.dispThrCfgWaitmask 0 j)
    (got, s.set F.dispThrStateFlags 0 j (f - got))

/-- The own-thread operation that a core has had sampled acts, but for the choice that ends a switch (R346, R349). From a core with no
thread, SETWAIT is ignored. A record with an uncorrectable word is not sent (R456). -/
def State.ownOp (s : State) (c : Nat) (e : CoreEntry) : State :=
  match e.op with
  | .setwait m => (match s.runningOn c with
    | some j => s.set F.dispThrCfgWaitmask 0 j m
    | none => s).opDone c e 0
  | .takeflags =>
    let r := s.takeFlagsOp c
    r.2.opDone c e r.1
  | .take f =>
    let r := s.takeOp c f
    r.2.opDone c e r.1
  | .release f slot rec discard =>
    (s.releaseOp f slot (if discard || s.badSram (sramBase + 32 * rec) 32 then none else some (s.sramRecord rec))).opDone c e 0
  | op =>
    match s.runningOn c with
    | some j => s.leaveThread c j op
    | none => s

/-- The operation is a switch of its core. -/
def CoreOp.isSwitch : CoreOp → Bool
  | .wait => true
  | .yield => true
  | .switch => true
  | _ => false

/-- What a tick's own-thread operations do, in ascending core order, and then the choice of R339 for the cores that switch: each takes its
target and its switch result (R340, R349). -/
def State.ownActs (s : State) : State :=
  let l := (List.range 4).filterMap fun c => ((s.coreX c).now).map fun e => (c, e)
  if l = [] then s
  else
    let owns := l.map fun e => (e.1, s.runningOn e.1)
    let t := l.foldl (fun (u : State) e => (u.setCoreX e.1 { (u.coreX e.1) with now := none }).ownOp e.1 e.2) s
    let sw := l.filter fun e => e.2.op.isSwitch
    let tg := t.targets (sw.map (·.1))
    sw.foldl (fun (u : State) e =>
      let r := u.switchTo e.1 ((owns.find? fun o => o.1 == e.1).bind (·.2)) ((tg.find? fun o => o.1 == e.1).map (·.2))
      r.2.opDone e.1 e.2 r.1) t

/-! ### Meanings -/

/-- An operation of R346 by a source: a core's goes through its queue (R347), another's acts at once. -/
def State.dispatch (s : State) (src : Src) (op : CoreOp) (direct : State → State) : Host.Outcome State Fault Refusal :=
  .next (match src with
    | .core c => s.coreIssues c op
    | _ => direct s)

/-- MAKEREADY. -/
def execMakeready (j : Nat) (src : Src) (s : State) : Host.Outcome State Fault Refusal :=
  s.dispatch src (.makeready j) fun t => t.makeReadyOp j src

/-- CANCEL. -/
def execCancel (j : Nat) (src : Src) (s : State) : Host.Outcome State Fault Refusal :=
  s.dispatch src (.cancel j) fun t => t.cancelOp j src

/-- SETFLAGS: sets flags, which may satisfy a wait (R342, R346). -/
def execSetflags (j flags : Nat) (src : Src) (s : State) : Host.Outcome State Fault Refusal :=
  s.dispatch src (.setflags j flags) fun t => t.setFlags j flags src

/-- CLRFLAGS. -/
def execClrflags (j flags : Nat) (src : Src) (s : State) : Host.Outcome State Fault Refusal :=
  s.dispatch src (.clrflags j flags) fun t => t.clrFlagsOp j flags src

/-- RESET of a thread slot. -/
def execSlotReset (j : Nat) (src : Src) (s : State) : Host.Outcome State Fault Refusal :=
  s.dispatch src (.reset j) fun t => t.slotResetOp j src

/-- SETWAIT: the caller's wait mask; ignored from a core with no thread (R346). -/
def execSetwait (c mask : Nat) (s : State) : Host.Outcome State Fault Refusal := .next (s.coreIssues c (.setwait mask))

/-- WAIT (R337, R340, R343). -/
def execWaitOp (c : Nat) (s : State) : Host.Outcome State Fault Refusal := .next (s.coreIssues c .wait)

/-- YIELD: the thread returns to the tail of its level (R337, R340). -/
def execYield (c : Nat) (s : State) : Host.Outcome State Fault Refusal := .next (s.coreIssues c .yield)

/-- SWITCH. -/
def execSwitch (c : Nat) (s : State) : Host.Outcome State Fault Refusal := .next (s.coreIssues c .switch)

/-- TAKEFLAGS: returns and clears the caller's flags under its wait mask (R342, R346). -/
def execTakeflags (c : Nat) (s : State) : Host.Outcome State Fault Refusal := .next (s.coreIssues c .takeflags)

/-- SUBMIT. -/
def execSubmit (fl handle : Nat) (src : Src) (s : State) : Host.Outcome State Fault Refusal :=
  s.dispatch src (.submit fl handle) fun t => t.submitOp fl handle src

/-- TAKE. -/
def execTake (c fl : Nat) (s : State) : Host.Outcome State Fault Refusal := .next (s.coreIssues c (.take fl))

/-- RELEASE of an item slot, with the record at RECORD × 32 of shared SRAM (R353). -/
def execRelease (c fl slot record : Nat) (discard : Bool) (s : State) : Host.Outcome State Fault Refusal :=
  .next (s.coreIssues c (.release fl slot record discard))

/-- SENDMAIL of the 64-byte block at `block` × 64 of shared SRAM (R356). -/
def execSendmail (c block : Nat) (s : State) : Host.Outcome State Fault Refusal := .next (s.coreIssues c (.sendmail block))

/-- A waiting thread's timeout expires (R343): class 4, with the rank of a hardware condition. -/
def execWaitTimeout (j : Nat) (s : State) : Host.Outcome State Fault Refusal :=
  let d := unitAt 0 s.disp.deadline j
  if s.get F.dispThrStateState 0 j = 3 ∧ d ≠ 0 ∧ d ≤ s.ticks then
    .next (s.onObj (.thread j) 4 (srcRank .hw) effReady fun t =>
      (t.makeReady j false).setBit F.dispThrStateTimedout 0 j true)
  else .next s

/-- A running thread reaches SLICE event ticks (R339, R350): the choice may replace or migrate it. -/
def execSliceEnd (c : Nat) (s : State) : Host.Outcome State Fault Refusal := .next (s.refreshCore c)

/-- The fields of THR_CFG that a write stores; an AFFINITY of 0 stores 0xF (R350). -/
def State.storeThrCfg (s : State) (j : Nat) (v : Word) : State :=
  let a := bitsOf v 8 4
  (((((s.set F.dispThrCfgPrio 0 j (bitsOf v 0 6)).set F.dispThrCfgWaitAll 0 j (bitsOf v 6 1)).set F.dispThrCfgAffinity 0 j
    (if a = 0 then 15 else a)).set F.dispThrCfgTimeout 0 j (bitsOf v 12 20)).set F.dispThrCfgWaitmask 0 j (bitsOf v 32 32))

/-- A write of DISP.THR_CFG (R338, R350): a READY thread whose PRIO changes moves to the tail of its new level. -/
def State.thrCfgOp (s : State) (j : Nat) (v : Word) : State :=
  let old := s.get F.dispThrCfgPrio 0 j
  let t := s.storeThrCfg j v
  if s.get F.dispThrStateState 0 j = 1 ∧ old ≠ bitsOf v 0 6 then
    let u := t.unready j
    u.setReadyList (bitsOf v 0 6) (u.readyList (bitsOf v 0 6) ++ [j])
  else t

/-- THR_CFG_WRITE. -/
def execThrCfgWrite (j : Nat) (value : Word) (s : State) : Host.Outcome State Fault Refusal := .next (s.thrCfgOp j value)

/-- Released items that waited leave when their destination has room (R353). -/
def execFlowOutput (fl : Nat) (s : State) : Host.Outcome State Fault Refusal :=
  .next (s.flowDrain fl (s.flowX fl).items)

/-- The fields of FLOW_CFG that a write stores: the destination fields only where ENABLE was 0 and the
flow held no item before the tick (R506). -/
def State.storeFlowCfg (s : State) (f : Nat) (v : Word) : State :=
  let s := s.rearm 7 f
  let free := decide (s.before F.dispFlowCfgEnable 0 f = 0) && !s.clk.was.flow.contains f
  let t := if free then
      ((((s.set F.dispFlowCfgDest 0 f (if bitsOf v 2 2 = 3 then 0 else bitsOf v 2 2)).set F.dispFlowCfgRing 0 f
        (bitsOf v 4 6)).set F.dispFlowCfgChip 0 f (bitsOf v 10 6)).set F.dispFlowCfgMailThread 0 f (bitsOf v 16 10)).set
        F.dispFlowCfgMailFlag 0 f (bitsOf v 26 5)
    else s
  ((t.set F.dispFlowCfgWorkerFirst 0 f (bitsOf v 31 10)).set F.dispFlowCfgWorkerCount 0 f (min 64 (bitsOf v 41 7))).set
    F.dispFlowCfgWakeFlag 0 f (bitsOf v 48 5)

/-- Writing FLOW_CFG with ENABLE = 1 enables the flow; the write's other fields are stored (R349, R351). -/
def execFlowEnable (fl : Nat) (value : Word) (s : State) : Host.Outcome State Fault Refusal :=
  .next ((s.storeFlowCfg fl value).set F.dispFlowCfgEnable 0 fl 1)

/-- Flow disable, class 2 (R354). -/
def State.flowDisableOp (s : State) (f : Nat) (src : Src) : State :=
  s.onObj (.flow f) 2 (srcRank src) 0 fun t => t.set F.dispFlowCfgEnable 0 f 0

/-- FLOW_DISABLE: a write of FLOW_CFG[f] (R307). -/
def execFlowDisable (fl : Nat) (src : Src) (s : State) : Host.Outcome State Fault Refusal :=
  .next ((s.rearm 7 fl).flowDisableOp fl src)

/-- A SUBMIT to FLOW[f] that is stalled at the head of core `c`'s queue completes with no item (R354). -/
def State.dropStalled (s : State) (f c : Nat) : State :=
  let x := s.coreX c
  match x.queue with
  | e :: es =>
    match e.op with
    | .submit g _ => if g = f ∧ x.sampled = false then ((s.setCoreX c { x with queue := es }).opDone c e 0).opSampled c else s
    | _ => s
  | [] => s

/-- Flow reset, class 1 (R354): every item is discarded and the sequence restarts at 0. -/
def State.flowResetOp (s : State) (f : Nat) (src : Src) : State :=
  s.onObj (.flow f) 1 (srcRank src) 0 fun t =>
    (List.range 4).foldl (fun (u : State) c => u.dropStalled f c) ((t.setFlowX f {}).set F.dispFlowStatStalled 0 f 0)

/-- FLOW_RESET: a write of FLOW_CFG[f] (R307). -/
def execFlowReset (fl : Nat) (src : Src) (s : State) : Host.Outcome State Fault Refusal :=
  .next ((s.rearm 7 fl).flowResetOp fl src)

/-- FLOW_STAT.CLEAR (R353). -/
def execFlowStatClear (fl : Nat) (s : State) : Host.Outcome State Fault Refusal :=
  .next ((s.clear F.dispFlowStatRefused 0 fl).set F.dispFlowStatSaturated 0 fl 0)

/-- THR_WAIT.CLEAR (R357). -/
def execThrWaitClear (j : Nat) (s : State) : Host.Outcome State Fault Refusal :=
  .next ((s.clear F.dispThrWaitMax 0 j).set F.dispThrWaitMaxSaturated 0 j 0)

/-- CORE.STATUS.CLEAR (R356). -/
def execMailNorouteClear (s : State) : Host.Outcome State Fault Refusal :=
  .next ((s.clear F.coreStatusMailNoroute 0 0).set F.coreStatusSaturated 0 0 0)

/-- Who brought a mail hears that it has been written: a link's buffer is freed, a descriptor completes OK. -/
def State.mailWritten (s : State) : MailFrom → State
  | .link p => s.freeBuffer p 3
  | .ring t => s.completeSame t 0
  | .core c =>
    match (s.coreX c).mail with
    | some e => (s.setCoreX c { (s.coreX c) with mail := none }).opDone c e 0
    | none => s

/-- The oldest held mail is written into the inbox once it has room (R355). -/
def execInboxWrite (s : State) : Host.Outcome State Fault Refusal :=
  match s.disp.heldMail with
  | [] => .next s
  | m :: ms =>
    if s.inboxRoom then
      .next (({ s with disp := { s.disp with heldMail := ms } }.inboxPut m).mailWritten m.source)
    else .next s

/-- A load window of WINDOW event ticks completes (R357): each core's busy count is recorded. -/
def execLoadWindow (s : State) : Host.Outcome State Fault Refusal :=
  if s.get F.dispCtrlWindow ≤ s.ticks - s.disp.windowStart then
    let t := (List.range 4).foldl (fun t c =>
      ((t.set F.dispCoreStatBusy 0 c (t.coreX c).busy).set F.dispCoreStatValid 0 c 1).setCoreX c
        { (t.coreX c) with busy := 0 }) s
    .next { t with disp := { t.disp with windowStart := t.ticks } }
  else .next s

/-! ### Cores and firmware (R332 to R335) -/

/-- Core `c` is put in reset (R335): its thread is IDLE with LOST set. -/
def State.coreStop (s : State) (c : Nat) : State :=
  let t := match s.runningOn c with
    | some j => (s.set F.dispThrStateState 0 j 0).set F.dispThrStateLost 0 j 1
    | none => s
  let u := ((t.set F.coreStatusRunning 0 0 (putBit (t.get F.coreStatusRunning) c false)).coreIdle c).set F.dispCoreStatPending 0 c 0
  u.setCoreX c { (u.coreX c) with queue := [], now := none, mail := none, stores := [], errInfo := 0, cpu := {} }

/-- Core `c` is released from reset at its ENTRY (R335): machine mode, and every register that its reset does not define at zero.
(DEDUCED, log entry 73; DESIGN CHOICE, log entry 116.) -/
def State.coreStart (s : State) (c : Nat) : State :=
  let x := s.coreX c
  (s.setCoreX c { x with cpu := { pc := BitVec.ofNat 32 x.entry } }).set F.coreStatusRunning 0 0
    (putBit (s.get F.coreStatusRunning) c true)

/-- A write of CORE.CTRL.RUN. -/
def State.coreRunOp (s : State) (mask : Nat) : State :=
  (List.range 4).foldl (fun t c =>
    if testBit mask c = t.coreRuns c then t else if testBit mask c then t.coreStart c else t.coreStop c)
    (s.set F.coreCtrlRun 0 0 mask)

/-- CORE_RUN. -/
def execCoreRun (mask : Nat) (s : State) : Host.Outcome State Fault Refusal := .next (s.coreRunOp mask)

/-- CORE.LOAD_CTRL.GO (R334): accepted only while every core is in reset and no load is busy. -/
def State.firmwareGo (s : State) (length : Nat) : State :=
  let t := s.set F.coreLoadCtrlLength 0 0 (min 4194304 (max 512 length) / 4 * 4)
  if s.get F.coreStatusRunning ≠ 0 ∨ s.get F.coreLoadCtrlStatus = 1 then t.set F.coreLoadCtrlStatus 0 0 6
  else (t.set F.coreLoadCtrlStatus 0 0 1).emit
    (.hostRead (t.get F.coreLoadAddrAddress * 4) (t.get F.coreLoadCtrlLength))

/-- FIRMWARE_LOAD. -/
def execFirmwareLoad (length : Nat) (s : State) : Host.Outcome State Fault Refusal := .next (s.firmwareGo length)

/-- A segment of an image (R332): offset, destination, size. -/
def imageSegment (img : List Nat) (i : Nat) : Nat × Nat × Nat :=
  (field img (32 + 16 * i) 4, field img (36 + 16 * i) 4, field img (40 + 16 * i) 4)

/-- The memory that holds an alias address (R327): its base and its size, or nothing. -/
def coreMemory (a : Nat) : Option (Nat × Nat) :=
  if 0x20000000 ≤ a ∧ a < 0x20200000 then some (0x20000000, 0x200000)
  else if 0x04000000 ≤ a ∧ a < 0x05000000 then
    let b := 0x04000000 + (a - 0x04000000) / 0x400000 * 0x400000
    if a - b < 0x40000 then some (b, 0x40000)
    else if 0x100000 ≤ a - b ∧ a - b < 0x140000 then some (b + 0x100000, 0x40000)
    else none
  else none

/-- A segment lies in the image and wholly within one memory. -/
def segmentOk (img : List Nat) (sg : Nat × Nat × Nat) : Bool :=
  match coreMemory sg.2.1 with
  | some (b, n) => decide (sg.2.1 + sg.2.2 ≤ b + n) && decide (sg.1 + sg.2.2 ≤ img.length)
  | none => false

/-- The segments of an image that its header names. -/
def imageSegments (img : List Nat) : List (Nat × Nat × Nat) :=
  (List.range (min 16 (field img 6 2))).map (imageSegment img)

/-- The format of R332 holds. -/
def imageOk (img : List Nat) (len : Nat) : Bool :=
  decide (field img 0 4 = 0x4D465742) && decide (field img 4 2 = 1) && decide (1 ≤ field img 6 2)
    && decide (field img 6 2 ≤ 16) && decide (field img 8 4 = len) && decide (field img 12 4 < 2)
    && (List.range 4).all (fun c => decide (field img (16 + 4 * c) 4 < 0x40000))
    && (imageSegments img).all (segmentOk img)

/-- Zeroes the memory that holds an alias address (R334). -/
def State.zeroMemory (s : State) (a : Nat) : State :=
  match coreMemory a with
  | some (b, n) => { s with disp := { s.disp with
      sram := s.disp.sram.filter fun e => !(decide (b ≤ e.1) && decide (e.1 < b + n))
      badWords := s.disp.badWords.filter (outsideWords b n) } }
  | none => s

/-- The status with which a load ends (R333, R334). -/
def State.loadStatus (s : State) (img : List Nat) (readOk : Bool) : Nat :=
  if readOk = false then 5
  else if imageOk img (s.get F.coreLoadCtrlLength) = false then 3
  else if field img 12 4 = 1 then
    (if signedOk img (s.get F.coreLoadCtrlLength) ((List.range 4).flatMap fun i => bytesOf (s.get F.coreKeyhashHash 0 i) 8)
     then 2 else 4)
  else if s.bit F.coreStatusAuthRequired then 4
  else 2

/-- A firmware load ends (R332, R334): the bytes read, of which the last may stand apart as KEY and SIGNATURE, and whether the read
succeeded. -/
def execLoadDone (image : List Nat) (readOk : Bool) (key signature : List Nat) (s : State) : Host.Outcome State Fault Refusal :=
  let image := image ++ key ++ signature
  if s.get F.coreLoadCtrlStatus = 1 then
    let st := s.loadStatus image readOk
    let t := if st = 2 then
        (List.range 4).foldl (fun t c => t.setCoreX c { (t.coreX c) with entry := field image (16 + 4 * c) 4 })
          ((imageSegments image).foldl (fun t sg => t.putSram sg.2.1 ((image.drop sg.1).take sg.2.2)) s)
      else (imageSegments image).foldl (fun t sg => t.zeroMemory sg.2.1) s
    .next ((t.set F.coreLoadCtrlStatus 0 0 st).post 0x0D01 0 st)
  else .next s

end Sys2Proof.Machine
end

