-- ==== Sys2Proof/Machine/OpsRas.lean ====
section
/-!
DEFINITION. OpsRas.lean: containment, the resets and the thermal limits (17_reliability_reset_power_thermal.md, R456 to R475).
-/
namespace Sys2Proof.Machine

/-! ### Channels -/

/-- Every event queued on a channel and every outcome on its way are discarded, without an outcome; an open window is
abandoned (R158, R457, R461). `which`: those of a vector. -/
def State.dropChan (s : State) (c : Nat) (which : VecInfo → Bool) : State :=
  let x := s.chan c
  let t := match x.win with
    | some w => if which w.ev.vec then s.abandonWindow c else s
    | none => s
  t.setChan c { (t.chan c) with
    queue := x.queue.filter fun e => !which e.vec, flight := x.flight.filter fun f => !which f.vec }

/-- The channels of a bay. -/
def chansOf (b : Nat) : List Nat := (List.range 16).map fun i => 16 * b + i

/-! ### Sequencer reset (R461) -/

/-- What a sequencer has pending completes SUPERSEDED: table commits, pauses and aborts. -/
def State.dropPends (s : State) (q : Nat) : State :=
  let x := s.seqX q
  let t := s.commitsDone 2 (x.pegs.flatMap (·.2) ++ x.commits.map (·.2))
  (x.pend.foldl (fun (u : State) p => u.partDone? p.tok q 2) t).set F.seqTsCtrlPending q 0 0

/-- A sequencer stops at once for `reason`: it issues nothing more, what it has issued and is not applied is discarded, its
channels park, and its stacks, accumulators and queues are emptied; records in the log queue stay. (DEDUCED, log entry 95.) -/
def State.halt (s : State) (q reason : Nat) : State :=
  let t := s.dropPends q
  let chans := ((t.chans.map (·.1)) ++ (t.baysOf q).flatMap chansOf).eraseDups
  let t := chans.foldl (fun (u : State) c => u.dropChan c fun v => decide (v.seq = q)) t
  let t := ((t.baysOf q).flatMap chansOf).foldl (fun (u : State) c =>
    if (u.chan c).parked then u else u.parkChan c u.nowFu) t
  let ran := decide (t.seqState q ≠ 0)
  let t := if ran then ((t.stopSites q).dclkHalt q).stopWindows q t.nowFu else t
  let t := (((t.setSeqState q 0).set F.seqStatusStopReason q 0 reason).set F.seqStatusFault q 0 0).set
    F.seqUnderrunStall q 0 0
  let t := (t.dropPath q).setSeqX q { run := (t.seqX q).run, nextBlk := (t.seqX q).nextBlk }
  let l := t.logX q
  let t := t.setLogX q { queue := l.queue, doomed := l.doomed, fullPosted := l.fullPosted, capLost := l.capLost }
  if ran then t.post 0x0201 q (reason + t.cycle q * 2 ^ 32) else t

/-- A sequencer reset (R461): class 1 on the sequencer and on its timing store, which keeps its contents. -/
def State.seqReset (s : State) (q : Nat) (src : Src) : State :=
  s.onObj (.seq q) 1 (srcRank src) 0 fun t =>
    let u := (((t.decideEvent (.store q) 1 (srcRank src) 0).2).halt q 11).set F.seqStatusResetting q 0 1
    { u with ras := { u.ras with resets := putUnit 0 u.ras.resets q (u.ticks + 1500) } }

/-- A sequencer reset completes (R461): its buffers are empty. -/
def State.seqResetDone (s : State) (q : Nat) : State :=
  if s.bit F.seqStatusResetting q then
    ({ s with ras := { s.ras with resets := putUnit 0 s.ras.resets q 0 } }.dropPath q).set F.seqStatusResetting q 0 0
  else s

/-- Sequencer resets are complete no later than 10 µs, 1,500 event ticks, after they were sampled (R461). -/
def State.seqResetsEnd (s : State) : State :=
  (s.ras.resets.filter fun e => decide (e.2 ≤ s.ticks)).foldl (fun (t : State) e => t.seqResetDone e.1) s

/-! ### Bay containment and bay reset (R457, R462) -/

/-- The ACTIVE sites that name a channel of a bay. -/
def State.sitesNaming (s : State) (b : Nat) : List Nat :=
  (List.range 32).filter fun k => decide (s.get F.sitekStatusState k = 1)
    && (s.siteMap k).channels.any fun c => decide (c / 16 = b)

/-- An ACTIVE site stops for containment: its accumulator and its SITE_FAIL bit are set. (DEDUCED, log entry 99.) -/
def State.failSite (s : State) (k : Nat) : State :=
  let q := (s.siteMap k).seq
  let t := s.hwSetBit F.seqSiteFailSite q 0 k
  let t := t.setSeqX q { (t.seqX q) with acc := setAcc k t.nowFu (t.seqX q).acc }
  ((t.set F.sitekStatusState k 0 2).set F.sitekStatusStopCause k 0 1).modSiteRun k fun r =>
    { r with boundCycle := some (min (t.cycle q) (r.boundCycle.getD (t.cycle q))), failed := true, failTick := t.ticks }

/-- The sites of a bay fail and stop, and the bay takes no further part in the run of its sequencer. -/
def State.failBay (s : State) (b : Nat) : State :=
  let t := (s.sitesNaming b).foldl (fun (u : State) k => u.failSite k) s
  match t.bayOf b with
  | some q =>
    if t.seqState q = 0 ∨ t.ras.out.contains b then t
    else { t with ras := { t.ras with out := t.ras.out ++ [b] } }
  | none => t

/-- Every channel of a bay takes drive enable low; what is queued is discarded, and open windows are abandoned. -/
def State.quietBay (s : State) (b : Nat) : State :=
  (List.range 4).foldl (fun (u : State) q => u.compared q) ((chansOf b).foldl (fun (u : State) c =>
    let v := u.dropChan c fun _ => true
    v.setChan c { (v.chan c) with parked := true, parkAt := none }) (s.denLow b))

/-- Containment of a bay (R457): a bay disable from a hardware source. (DEDUCED, log entry 94.) -/
def State.contain (s : State) (b : Nat) : State :=
  s.onObj (.bay b) 2 (srcRank .hw) 0 fun t =>
    let mask := (t.sitesNaming b).foldl (fun m k => m + 2 ^ k) 0
    let u := (((t.quietBay b).failBay b).hwSetBit F.rasStatusContained 0 0 b).post 0x0902 b mask
    if u.bit F.rasCtrlAutoBayReset then { u with ras := { u.ras with auto_ := u.ras.auto_ ++ [(b, u.ticks)] } } else u

/-- The events of this tick on objects of BAY[b] that its reset discards (R58, R62). -/
def State.lostToReset (s : State) (b : Nat) : Nat :=
  (s.events.filter fun e => decide (e.obj.block = some b) && decide (1 < e.cls)).foldl (fun n e => n + e.weight) 0

/-- A bay reset (R460, R462, R464): every register of the bay, its memories, converter, acquisition engine, units, generators
and front-end master are reset; a calibration ends; while its sequencer runs it acts on its sites as containment does. -/
def State.bayReset (s : State) (b : Nat) (src : Src) (byHw : Bool) : State :=
  s.onObj (.bay b) 1 (srcRank src) 0 fun s =>
    let t := s.supersede (s.lostToReset b)
    let running : Bool := match t.bayOf b with
      | some q => decide (t.seqState q ≠ 0)
      | none => false
    let t := (t.calAbort b 6).quietBay b
    let t := if running then t.failBay b else t
    let t := { t with
      regs := t.regs.filter fun e => !e.1.ofBay b
      adcs := putUnit {} t.adcs b {}
      acqs := putUnit {} t.acqs b {}
      fes := putUnit {} t.fes b {}
      tims := (List.range 4).foldl (fun l i => putUnit {} l (4 * b + i) {}) t.tims
      dclks := putUnit {} (putUnit {} t.dclks (2 * b) {}) (2 * b + 1) {}
      cal := { t.cal with
        info := (chansOf b).foldl (fun l c => putUnit {} l c {}) t.cal.info
        bayTemp := putUnit 0 t.cal.bayTemp b 0 }
      ras := { t.ras with byAuto := (t.ras.byAuto.filter fun c => decide (c ≠ b)) ++ (if byHw then [b] else []) } }
    t.putMask F.rasStatusBayResetting 0 0 b true

/-- Slice test of a converter (R359): how many of the 17 slices fail. -/
def State.sliceTest (s : State) (b n : Nat) : State :=
  (s.setBit F.bayAdcStatSpareUsed b 0 (decide (1 ≤ n))).setBit F.bayAdcStatDegraded b 0 (decide (2 ≤ n))

/-- The automatic bay resets that follow a containment in an earlier tick (R457). -/
def State.autoResets (s : State) : State :=
  let l := s.ras.auto_.filter fun e => decide (e.2 < s.ticks)
  l.foldl (fun (t : State) e => t.bayReset e.1 .hw true)
    { s with ras := { s.ras with auto_ := s.ras.auto_.filter fun e => !decide (e.2 < s.ticks) } }

/-! ### Resets of the device (R460, R463 to R465) -/

/-- Reach of a device reset by its LAST_RESET code: host warm 1, PERST# 2, power-on 3. -/
def reach (code : Nat) : Nat := if code = 1 then 2 else if code = 0 ∨ code = 5 then 3 else 1

/-- What an interrupted fuse programming and store commit leave (R464, R450): either of two, by a free value each. -/
def State.interrupted (s : State) : State :=
  let t := if s.host.fuseBlow = [] then s
    else (if s.freeVal % 2 = 1 then s.set F.rasStatusDebugLocked 0 0 1 else s).useFree
  match t.cal.job with
  | none => t
  | some j =>
    (if t.freeVal % 2 = 1 then { t with cal := t.cal.putOther (.image j.gen j.stamp j.recs) } else t).useFree

/-- Drive enable goes low on every channel. -/
def State.allDenLow (s : State) : State := (List.range 8).foldl (fun (t : State) b => t.denLow b) s

/-- The lanes of every Oluel port that is enabled go to electrical idle (R277, R471). -/
def State.lanesIdle (s : State) : State :=
  (List.range 4).foldl (fun (t : State) p => if t.get F.olupStatusState p = 0 then t else t.emit (.oluIdle p)) s

/-- The fields that a reset of the device keeps: the clocks that run, and what else is given. (DEDUCED, log entry 22.) -/
def State.keepFields (s t : State) (l : List Fld) : State := l.foldl (fun (u : State) f => u.set f 0 0 (s.get f)) t

/-- The device in reset: everything at its reset value but the fuses, the MRAM store, LAST_RESET and — apart from a power-on —
the state of the root PLL; a host warm reset keeps the PCI Express link. (DEDUCED, log entry 97.) -/
def State.deviceReset (s0 : State) (code : Nat) : State :=
  let s := s0.interrupted.allDenLow.lanesIdle
  let base : State := { State.reset with
    pending := s.pending, ticks := s.ticks, out := s.out, free := s.free, events := s.events
    clk := if reach code = 3 then {} else { refLast := s.clk.refLast, refBack := s.clk.refBack, refAt := s.clk.refAt }
    cal := { ({} : CalX) with bankA := s.cal.bankA, bankB := s.cal.bankB }
    host := { pcie := if code = 2 then s.host.pcie else if reach code = 1 then s.host.pcie.functionReset else {} } }
  let clocks := if reach code = 3 then [] else [F.clkStatusRootLock, F.clkStatusHoldover, F.clkStatusRefLost]
  let link := if reach code = 1 then [F.hifLinkSpeed, F.hifLinkWidth, F.hifLinkDlUp] else []
  (s.keepFields base (F.rasStatusDebugLocked :: F.rasStatusFaultRail :: (clocks ++ link))).set F.rasStatusLastReset 0 0 code

/-- A request for a device reset (R463): discarded while one of the same or wider reach is in progress, or while the device
holds itself in reset. -/
def State.requestReset (s : State) (code : Nat) : State :=
  if s.ras.halted ∨ (s.bit F.rasStatusHostReady = false ∧ reach code ≤ reach (s.get F.rasStatusLastReset)) then s.superseded
  else s.deviceReset code

/-- The device holds itself in reset until power-on (R467, R471). -/
def State.holdReset (s : State) (code : Nat) : State :=
  let t := (s.emit .thermtrip).deviceReset code
  { t with ras := { t.ras with halted := true } }

/-! ### Temperatures (R469 to R471) -/

/-- A reading of sensor `i`, in 0.25 °C. -/
def State.reading (s : State) (i : Nat) (v : Int) : State :=
  let v := clampInt (-2048) 2047 v
  let t := s.set F.thermTempTemp 0 i (unsigned 12 v)
  if t.getS F.thermTempPeak 0 i < v ∧ t.clearedNow (F.thermTempPeak.key 0 i) F.thermTempPeak.lo = false then
    t.set F.thermTempPeak 0 i (unsigned 12 v)
  else t

/-- The hottest of the sensors, the lowest of equals. -/
def State.hottest (s : State) : Nat × Int :=
  (List.range 16).foldl (fun (m : Nat × Int) i =>
    if m.2 < s.getS F.thermTempTemp 0 i then (i, s.getS F.thermTempTemp 0 i) else m) (0, s.getS F.thermTempTemp 0 0)

/-- WARN (R470). -/
def State.judgeWarn (s : State) (i : Nat) (m : Int) : State :=
  let w : Int := s.get F.thermCfgWarnC * 4
  if s.bit F.thermStatusWarn = false ∧ w ≤ m then
    ((s.set F.thermStatusWarn 0 0 1).hwSet F.thermStatusWarnSeen 0 0).post 0x0904 i (unsigned 16 m)
  else if s.bit F.thermStatusWarn ∧ m < w - 12 then s.set F.thermStatusWarn 0 0 0
  else s

/-- HOT (R470): at 115 °C a thermal stop becomes pending on every sequencer that is not STOPPED. -/
def State.judgeHot (s : State) (i : Nat) (m : Int) : State :=
  if s.bit F.thermStatusHot = false ∧ 460 ≤ m then
    let t := ((s.set F.thermStatusHot 0 0 1).hwSet F.thermStatusHotSeen 0 0).post 0x0905 i (unsigned 16 m)
    (List.range 4).foldl (fun (u : State) q => if u.seqState q = 0 then u else u.requestStop q 7 .hw none) t
  else if s.bit F.thermStatusHot ∧ m < 440 then s.set F.thermStatusHot 0 0 0
  else s

/-- A thermal trip (R471). (DEDUCED, log entry 98.) -/
def State.trip (s : State) : State :=
  let t := s.allDenLow
  ((List.range 4).foldl (fun (u : State) q => if u.seqState q = 0 then u else u.halt q 7) t).holdReset 0

/-- The sensors update (R470). -/
def State.temperatures (s : State) (l : List Int) : State :=
  let t := (List.range 16).foldl (fun (u : State) i => u.reading i (l.getD i 0)) s
  match t.hottest with
  | (i, m) =>
    let u := t.set F.thermStatusMaxTemp 0 0 (unsigned 12 m)
    if 500 ≤ m then u.trip else (u.judgeWarn i m).judgeHot i m

end Sys2Proof.Machine
end

