-- ==== Sys2Proof/Machine/RvFloat.lean ====
section
/-!
DEFINITION. RvFloat.lean: IEEE 754 single precision as RV32F has it (R326): unpacking, one rounding of exact results, and the
operations of the F extension. (PRESUMED, log entry 115.)
-/
namespace Sys2Proof.Machine

/-- A register of a control core. -/
abbrev W32 := BitVec 32

/-- Exception flags of fflags: inexact, underflow, overflow, division by zero, invalid. -/
def flNX : Nat := 1
def flUF : Nat := 2
def flOF : Nat := 4
def flDZ : Nat := 8
def flNV : Nat := 16

/-- What a single-precision word holds: a finite value is (−1)^neg · m · 2^e. -/
inductive Single
  | nan (signalling : Bool)
  | inf (neg : Bool)
  | fin (neg : Bool) (m : Nat) (e : Int)

/-- Reads a word. -/
def unpack (x : W32) : Single :=
  let n := x.toNat
  let neg := testBit n 31
  let ex : Nat := n / 2 ^ 23 % 256
  let fr := n % 2 ^ 23
  if ex = 255 then (if fr = 0 then .inf neg else .nan (!testBit n 22))
  else if ex = 0 then .fin neg fr (-149)
  else .fin neg (2 ^ 23 + fr) ((ex : Int) - 150)

/-- The canonical NaN. -/
def nanWord : W32 := 0x7FC00000#32

/-- Sign bit. -/
def signBit (neg : Bool) : Nat := neg.toNat * 2 ^ 31

/-- An infinity, and a zero. -/
def infWord (neg : Bool) : W32 := BitVec.ofNat 32 (signBit neg + 0x7F800000)
def zeroWord (neg : Bool) : W32 := BitVec.ofNat 32 (signBit neg)

/-- Rounding modes: 0 nearest even, 1 towards zero, 2 down, 3 up, 4 nearest with ties to the larger magnitude. Whether a magnitude
`q` plus a rest is rounded up: `half` compares the rest with one half (0 below, 1 equal, 2 above), `inexact` says that it is not 0. -/
def roundsUp (rm : Nat) (neg : Bool) (q half : Nat) (inexact : Bool) : Bool :=
  if rm = 0 then decide (half = 2) || (decide (half = 1) && decide (q % 2 = 1))
  else if rm = 2 then neg && inexact
  else if rm = 3 then !neg && inexact
  else if rm = 4 then decide (1 ≤ half)
  else false

/-- `m` shifted right by `d` bits and rounded, with a rest below the last bit of `m` where `sticky`: the integer, and whether it is
inexact. -/
def shiftRound (rm : Nat) (neg : Bool) (m d : Nat) (sticky : Bool) : Nat × Bool :=
  let q := m / 2 ^ d
  let r := 2 * (m % 2 ^ d) + sticky.toNat
  let one := 2 * 2 ^ d
  let half := if 2 * r < one then 0 else if 2 * r = one then 1 else 2
  (q + (roundsUp rm neg q half (decide (r ≠ 0))).toNat, decide (r ≠ 0))

/-- (−1)^neg · m · 2^e rounded to single precision, with a rest below `m` where `sticky`: the word and its flags; `m` is not 0.
Tininess is detected after rounding. -/
def packRound (rm : Nat) (neg : Bool) (m : Nat) (e : Int) (sticky : Bool) : W32 × Nat :=
  let free : Int := e + Nat.log2 m - 23
  let at_ (q : Int) : Nat × Bool :=
    if q ≤ e then (if sticky then shiftRound rm neg (m * 2 ^ ((e - q).toNat + 2)) 2 true else (m * 2 ^ (e - q).toNat, false))
    else shiftRound rm neg m (q - e).toNat sticky
  let q : Int := max (-149) free
  let (sig, inexact) := at_ q
  let unbounded := (at_ free).1
  let tiny : Bool := decide (free < -150) || (decide (free = -150) && decide (unbounded < 2 ^ 24))
  let flags := (if inexact then flNX else 0) + (if tiny && inexact then flUF else 0)
  let (sig, q) := if 2 ^ 24 ≤ sig then (sig / 2, q + 1) else (sig, q)
  if sig < 2 ^ 23 then (BitVec.ofNat 32 (signBit neg + sig), flags)
  else
    let ex := (q + 150).toNat
    if 255 ≤ ex then
      let toInf : Bool := rm = 0 ∨ rm = 4 ∨ (rm = 2 ∧ neg) ∨ (rm = 3 ∧ !neg)
      (if toInf then infWord neg else BitVec.ofNat 32 (signBit neg + 0x7F7FFFFF), flOF + flNX)
    else (BitVec.ofNat 32 (signBit neg + ex * 2 ^ 23 + (sig - 2 ^ 23)), flags)

/-- An operand is a signalling NaN. -/
def Single.signals : Single → Bool
  | .nan b => b
  | _ => false

/-- An operand is a NaN. -/
def Single.isNan : Single → Bool
  | .nan _ => true
  | _ => false

/-- The NaN result of an operation with a NaN operand, or an invalid one. -/
def nanResult (invalid : Bool) : W32 × Nat := (nanWord, if invalid then flNV else 0)

/-- The exact sum of two finite values, rounded. -/
def addFinite (rm : Nat) (na : Bool) (ma : Nat) (ea : Int) (nb : Bool) (mb : Nat) (eb : Int) : W32 × Nat :=
  let e := min ea eb
  let v (neg : Bool) (m : Nat) (x : Int) : Int := (if neg then -1 else 1) * (m * 2 ^ (x - e).toNat : Nat)
  let t := v na ma ea + v nb mb eb
  if t = 0 then
    (zeroWord (if ma = 0 ∧ mb = 0 ∧ na = nb then na else decide (rm = 2)), 0)
  else packRound rm (decide (t < 0)) t.natAbs e false

/-- A sign changed where `b`. -/
def Single.flip (b : Bool) : Single → Single
  | .nan s => .nan s
  | .inf n => .inf (n != b)
  | .fin n m e => .fin (n != b) m e

/-- a + b (FADD.S, FSUB.S). -/
def addF (rm : Nat) (a b : Single) : W32 × Nat :=
  match a, b with
  | .fin na ma ea, .fin nb mb eb => addFinite rm na ma ea nb mb eb
  | .inf n, .inf k => if n = k then (infWord n, 0) else nanResult true
  | .inf n, .fin _ _ _ => (infWord n, 0)
  | .fin _ _ _, .inf n => (infWord n, 0)
  | x, y => nanResult (x.signals || y.signals)

/-- a · b (FMUL.S). -/
def mulF (rm : Nat) (a b : Single) : W32 × Nat :=
  match a, b with
  | .fin na ma ea, .fin nb mb eb =>
    if ma * mb = 0 then (zeroWord (na != nb), 0) else packRound rm (na != nb) (ma * mb) (ea + eb) false
  | .inf n, .inf k => (infWord (n != k), 0)
  | .inf n, .fin k m _ => if m = 0 then nanResult true else (infWord (n != k), 0)
  | .fin k m _, .inf n => if m = 0 then nanResult true else (infWord (n != k), 0)
  | x, y => nanResult (x.signals || y.signals)

/-- a / b (FDIV.S). -/
def divF (rm : Nat) (a b : Single) : W32 × Nat :=
  match a, b with
  | .fin na ma ea, .fin nb mb eb =>
    if mb = 0 then (if ma = 0 then nanResult true else (infWord (na != nb), flDZ))
    else if ma = 0 then (zeroWord (na != nb), 0)
    else
      let n := ma * 2 ^ 56
      packRound rm (na != nb) (n / mb) (ea - eb - 56) (decide (n % mb ≠ 0))
  | .inf _, .inf _ => nanResult true
  | .inf n, .fin k _ _ => (infWord (n != k), 0)
  | .fin k _ _, .inf n => (zeroWord (n != k), 0)
  | x, y => nanResult (x.signals || y.signals)

/-- The integer square root, bit by bit from bit `k` down, above `r`. -/
def isqrt (n : Nat) : Nat → Nat → Nat
  | 0, r => r
  | k + 1, r => isqrt n k (if (r + 2 ^ k) * (r + 2 ^ k) ≤ n then r + 2 ^ k else r)

/-- √a (FSQRT.S). -/
def sqrtF (rm : Nat) (a : Single) : W32 × Nat :=
  match a with
  | .nan b => nanResult b
  | .inf n => if n then nanResult true else (infWord false, 0)
  | .fin n m e =>
    if m = 0 then (zeroWord n, 0)
    else if n then nanResult true
    else
      let x := m * (if e % 2 = 0 then 2 ^ 60 else 2 ^ 61)
      let r := isqrt x 43 0
      packRound rm false r ((if e % 2 = 0 then e - 60 else e - 61) / 2) (decide (r * r ≠ x))

/-- a · b + c, rounded once (FMADD.S and its kin). -/
def fmaF (rm : Nat) (a b c : Single) : W32 × Nat :=
  let zeroInf : Bool := match a, b with
    | .inf _, .fin _ m _ => decide (m = 0)
    | .fin _ m _, .inf _ => decide (m = 0)
    | _, _ => false
  if zeroInf then nanResult true
  else if a.isNan || b.isNan || c.isNan then nanResult (a.signals || b.signals || c.signals)
  else
    match a, b, c with
    | .fin na ma ea, .fin nb mb eb, .fin nc mc ec => addFinite rm (na != nb) (ma * mb) (ea + eb) nc mc ec
    | .fin _ _ _, .fin _ _ _, .inf n => (infWord n, 0)
    | x, y, .inf n =>
      let neg := (match x with | .inf k => k | .fin k _ _ => k | _ => false) != (match y with | .inf k => k | .fin k _ _ => k | _ => false)
      if neg = n then (infWord n, 0) else nanResult true
    | x, y, _ =>
      (infWord ((match x with | .inf k => k | .fin k _ _ => k | _ => false) != (match y with | .inf k => k | .fin k _ _ => k | _ => false)), 0)

/-- Two values that are not NaN compared: −1, 0 or 1; zeros of both signs are equal. -/
def compareF (a b : Single) : Int :=
  let key : Single → Int × Nat × Int
    | .fin n m e => if m = 0 then (0, 0, 0) else (if n then -1 else 1, m, e)
    | .inf n => (if n then -2 else 2, 0, 0)
    | .nan _ => (0, 0, 0)
  let (ca, ma, ea) := key a
  let (cb, mb, eb) := key b
  if ca ≠ cb then (if ca < cb then -1 else 1)
  else
    let e := min ea eb
    let x := ma * 2 ^ (ea - e).toNat
    let y := mb * 2 ^ (eb - e).toNat
    if x = y then 0 else if (x < y) = (0 < ca) then -1 else 1

/-- FLE.S, FLT.S, FEQ.S by their funct3 0, 1, 2: the result and the flags. -/
def cmpF (f3 : Nat) (a b : Single) : Nat × Nat :=
  if a.isNan || b.isNan then (0, if f3 ≠ 2 ∨ a.signals ∨ b.signals then flNV else 0)
  else
    let r := compareF a b
    ((if f3 = 2 then decide (r = 0) else if f3 = 1 then decide (r < 0) else decide (r ≤ 0)).toNat, 0)

/-- FMIN.S and FMAX.S: a NaN operand gives the other one; −0 is less than +0. -/
def minmaxF (isMax : Bool) (x y : W32) : W32 × Nat :=
  let a := unpack x
  let b := unpack y
  let fl := if a.signals || b.signals then flNV else 0
  if a.isNan && b.isNan then (nanWord, fl)
  else if a.isNan then (y, fl)
  else if b.isNan then (x, fl)
  else
    let r := compareF a b
    let less : Bool := decide (r < 0) || (decide (r = 0) && testBit x.toNat 31)
    (if less != isMax then x else y, fl)

/-- FCLASS.S. -/
def classF (x : W32) : Nat :=
  match unpack x with
  | .nan s => if s then 256 else 512
  | .inf n => if n then 1 else 128
  | .fin n m _ =>
    if m = 0 then (if n then 8 else 16)
    else if m < 2 ^ 23 then (if n then 4 else 32)
    else if n then 2 else 64

/-- FCVT.W.S and FCVT.WU.S: out of range, the nearest bound and NV; a NaN gives the largest. -/
def toIntF (rm : Nat) (sgn : Bool) (a : Single) : W32 × Nat :=
  let lo : Int := if sgn then -2147483648 else 0
  let hi : Int := if sgn then 2147483647 else 4294967295
  let put (x : Int) : W32 := BitVec.ofInt 32 x
  match a with
  | .nan _ => (put hi, flNV)
  | .inf n => (put (if n then lo else hi), flNV)
  | .fin n m e =>
    let r := if 0 ≤ e then (m * 2 ^ e.toNat, false) else shiftRound rm n m (-e).toNat false
    let v : Int := if n then -(r.1 : Int) else r.1
    if v < lo then (put lo, flNV) else if hi < v then (put hi, flNV) else (put v, if r.2 then flNX else 0)

/-- FCVT.S.W and FCVT.S.WU. -/
def ofIntF (rm : Nat) (v : Int) : W32 × Nat := if v = 0 then (zeroWord false, 0) else packRound rm (decide (v < 0)) v.natAbs 0 false

/-- FSGNJ.S, FSGNJN.S, FSGNJX.S by funct3 0, 1, 2. -/
def sgnjF (f3 : Nat) (x y : W32) : W32 :=
  let s := testBit y.toNat 31
  let n := if f3 = 0 then s else if f3 = 1 then !s else s != testBit x.toNat 31
  BitVec.ofNat 32 (x.toNat % 2 ^ 31 + signBit n)

end Sys2Proof.Machine
end

