-- ==== Sys2Proof/Machine/Rv32.lean ====
section
/-!
DEFINITION. Rv32.lean: the instructions of a control core as data: fields and immediates of RV32I words, the expansion of compressed
instructions, the integer, multiply, atomic and floating-point computations, and the PMP (R326). The encodings and results are those of
the RISC-V architecture that the spec names. (PRESUMED, log entry 115.)
-/
namespace Sys2Proof.Machine

/-! ### Fields -/

/-- Bits lo to lo + w − 1 of an instruction. -/
def ib (i lo w : Nat) : Nat := i / 2 ^ lo % 2 ^ w

/-- A `w`-bit field, sign-extended to 32 bits. -/
def sx (w v : Nat) : W32 := BitVec.ofInt 32 (signed w v)

def rdOf (i : Nat) : Nat := ib i 7 5
def rs1Of (i : Nat) : Nat := ib i 15 5
def rs2Of (i : Nat) : Nat := ib i 20 5
def f3Of (i : Nat) : Nat := ib i 12 3
def f7Of (i : Nat) : Nat := ib i 25 7
def immI (i : Nat) : W32 := sx 12 (ib i 20 12)
def immS (i : Nat) : W32 := sx 12 (ib i 25 7 * 32 + ib i 7 5)
def immB (i : Nat) : W32 := sx 13 (ib i 31 1 * 2 ^ 12 + ib i 7 1 * 2 ^ 11 + ib i 25 6 * 2 ^ 5 + ib i 8 4 * 2)
def immU (i : Nat) : W32 := BitVec.ofNat 32 (ib i 12 20 * 2 ^ 12)
def immJ (i : Nat) : W32 := sx 21 (ib i 31 1 * 2 ^ 20 + ib i 12 8 * 2 ^ 12 + ib i 20 1 * 2 ^ 11 + ib i 21 10 * 2)

/-! ### Integer results -/

/-- A truth value in a register. -/
def flag32 (b : Bool) : W32 := BitVec.ofNat 32 b.toNat

/-- OP and OP-IMM by funct3; `alt` is bit 30. -/
def aluOp (f3 : Nat) (alt : Bool) (a b : W32) : W32 :=
  if f3 = 0 then (if alt then a - b else a + b)
  else if f3 = 1 then a <<< (b.toNat % 32)
  else if f3 = 2 then flag32 (BitVec.slt a b)
  else if f3 = 3 then flag32 (BitVec.ult a b)
  else if f3 = 4 then a ^^^ b
  else if f3 = 5 then (if alt then a.sshiftRight (b.toNat % 32) else a >>> (b.toNat % 32))
  else if f3 = 6 then a ||| b
  else a &&& b

/-- The M extension by funct3. -/
def mulDiv (f3 : Nat) (a b : W32) : W32 :=
  if f3 = 0 then a * b
  else if f3 = 1 then BitVec.ofInt 32 (a.toInt * b.toInt / 2 ^ 32)
  else if f3 = 2 then BitVec.ofInt 32 (a.toInt * b.toNat / 2 ^ 32)
  else if f3 = 3 then BitVec.ofNat 32 (a.toNat * b.toNat / 2 ^ 32)
  else if f3 = 4 then (if b = 0 then BitVec.ofInt 32 (-1) else a.sdiv b)
  else if f3 = 5 then (if b = 0 then BitVec.ofInt 32 (-1) else a / b)
  else if f3 = 6 then (if b = 0 then a else a.srem b)
  else (if b = 0 then a else a % b)

/-- Whether a branch is taken, by funct3; `none` is no branch. -/
def branchTaken (f3 : Nat) (a b : W32) : Option Bool :=
  if f3 = 0 then some (a == b)
  else if f3 = 1 then some (a != b)
  else if f3 = 4 then some (BitVec.slt a b)
  else if f3 = 5 then some (!BitVec.slt a b)
  else if f3 = 6 then some (BitVec.ult a b)
  else if f3 = 7 then some (!BitVec.ult a b)
  else none

/-- An AMO by funct5: what memory receives. -/
def amoOp (f5 : Nat) (m b : W32) : Option W32 :=
  if f5 = 0 then some (m + b)
  else if f5 = 1 then some b
  else if f5 = 4 then some (m ^^^ b)
  else if f5 = 8 then some (m ||| b)
  else if f5 = 12 then some (m &&& b)
  else if f5 = 16 then some (if BitVec.slt m b then m else b)
  else if f5 = 20 then some (if BitVec.slt m b then b else m)
  else if f5 = 24 then some (if BitVec.ult m b then m else b)
  else if f5 = 28 then some (if BitVec.ult m b then b else m)
  else none

/-- What a load of `funct3` delivers from the bytes it has read; `none` is no load. -/
def loadValue (f3 v : Nat) : Option W32 :=
  if f3 = 0 then some (sx 8 v)
  else if f3 = 1 then some (sx 16 v)
  else if f3 = 2 then some (BitVec.ofNat 32 v)
  else if f3 = 4 then some (BitVec.ofNat 32 (v % 2 ^ 8))
  else if f3 = 5 then some (BitVec.ofNat 32 (v % 2 ^ 16))
  else none

/-! ### The compressed instructions -/

/-- Words of the base formats. -/
def encI (imm rs1 f3 rd op : Nat) : Nat := imm % 2 ^ 12 * 2 ^ 20 + rs1 * 2 ^ 15 + f3 * 2 ^ 12 + rd * 2 ^ 7 + op
def encR (f7 rs2 rs1 f3 rd op : Nat) : Nat := encI (f7 * 32 + rs2) rs1 f3 rd op
def encS (imm rs2 rs1 f3 op : Nat) : Nat := encI (ib imm 5 7 * 32 + rs2) rs1 f3 (ib imm 0 5) op
def encB (imm rs1 f3 : Nat) : Nat :=
  encI ((ib imm 12 1 * 64 + ib imm 5 6) * 32) rs1 f3 (ib imm 1 4 * 2 + ib imm 11 1) 0x63
def encJ (imm rd : Nat) : Nat :=
  (ib imm 20 1 * 2 ^ 19 + ib imm 1 10 * 2 ^ 9 + ib imm 11 1 * 2 ^ 8 + ib imm 12 8) * 2 ^ 12 + rd * 2 ^ 7 + 0x6F

/-- The 6-bit immediate of quadrants 1 and 2, its sign in bit 5. -/
def cImm6 (h : Nat) : Nat := ib h 12 1 * 32 + ib h 2 5

/-- A `w`-bit two's-complement field as a number modulo 2^32. -/
def ext (w v : Nat) : Nat := (sx w v).toNat

/-- The jump offset of C.J and C.JAL. -/
def cJump (h : Nat) : Nat :=
  ext 12 (ib h 12 1 * 2 ^ 11 + ib h 11 1 * 2 ^ 4 + ib h 9 2 * 2 ^ 8 + ib h 8 1 * 2 ^ 10 + ib h 7 1 * 2 ^ 6 + ib h 6 1 * 2 ^ 7
    + ib h 3 3 * 2 + ib h 2 1 * 2 ^ 5)

/-- The branch offset of C.BEQZ and C.BNEZ. -/
def cBranch (h : Nat) : Nat :=
  ext 9 (ib h 12 1 * 2 ^ 8 + ib h 10 2 * 2 ^ 3 + ib h 5 2 * 2 ^ 6 + ib h 3 2 * 2 + ib h 2 1 * 2 ^ 5)

/-- Quadrant 0. -/
def expandC0 (h : Nat) : Option Nat :=
  let rd := 8 + ib h 2 3
  let rs := 8 + ib h 7 3
  let off := ib h 10 3 * 8 + ib h 6 1 * 4 + ib h 5 1 * 64
  let sp := ib h 11 2 * 16 + ib h 7 4 * 64 + ib h 6 1 * 4 + ib h 5 1 * 8
  match ib h 13 3 with
  | 0 => if sp = 0 then none else some (encI sp 2 0 rd 0x13)
  | 2 => some (encI off rs 2 rd 0x03)
  | 3 => some (encI off rs 2 rd 0x07)
  | 6 => some (encS off rd rs 2 0x23)
  | 7 => some (encS off rd rs 2 0x27)
  | _ => none

/-- C.SRLI, C.SRAI, C.ANDI and the register operations of quadrant 1. -/
def expandArith (h : Nat) : Option Nat :=
  let r := 8 + ib h 7 3
  let r2 := 8 + ib h 2 3
  if ib h 10 2 = 2 then some (encI (ext 6 (cImm6 h)) r 7 r 0x13)
  else if ib h 12 1 = 1 then none
  else
    match ib h 10 2 with
    | 0 => some (encI (ib h 2 5) r 5 r 0x13)
    | 1 => some (encI (0x400 + ib h 2 5) r 5 r 0x13)
    | _ =>
      match ib h 5 2 with
      | 0 => some (encR 0x20 r2 r 0 r 0x33)
      | 1 => some (encR 0 r2 r 4 r 0x33)
      | 2 => some (encR 0 r2 r 6 r 0x33)
      | _ => some (encR 0 r2 r 7 r 0x33)

/-- Quadrant 1. -/
def expandC1 (h : Nat) : Option Nat :=
  let rd := ib h 7 5
  match ib h 13 3 with
  | 0 => some (encI (ext 6 (cImm6 h)) rd 0 rd 0x13)
  | 1 => some (encJ (cJump h) 1)
  | 2 => some (encI (ext 6 (cImm6 h)) 0 0 rd 0x13)
  | 3 =>
    if cImm6 h = 0 then none
    else if rd = 2 then
      some (encI (ext 10 (ib h 12 1 * 2 ^ 9 + ib h 6 1 * 2 ^ 4 + ib h 5 1 * 2 ^ 6 + ib h 3 2 * 2 ^ 7 + ib h 2 1 * 2 ^ 5)) 2 0 2 0x13)
    else some (ib (ext 6 (cImm6 h)) 0 20 * 2 ^ 12 + rd * 2 ^ 7 + 0x37)
  | 4 => expandArith h
  | 5 => some (encJ (cJump h) 0)
  | 6 => some (encB (cBranch h) (8 + ib h 7 3) 0)
  | _ => some (encB (cBranch h) (8 + ib h 7 3) 1)

/-- Quadrant 2. -/
def expandC2 (h : Nat) : Option Nat :=
  let rd := ib h 7 5
  let rs2 := ib h 2 5
  let ld := ib h 12 1 * 32 + ib h 4 3 * 4 + ib h 2 2 * 64
  let st := ib h 9 4 * 4 + ib h 7 2 * 64
  match ib h 13 3 with
  | 0 => if ib h 12 1 = 1 then none else some (encI rs2 rd 1 rd 0x13)
  | 2 => if rd = 0 then none else some (encI ld 2 2 rd 0x03)
  | 3 => some (encI ld 2 2 rd 0x07)
  | 4 =>
    if rs2 = 0 then
      (if rd = 0 then (if ib h 12 1 = 1 then some 0x00100073 else none) else some (encI 0 rd 0 (ib h 12 1) 0x67))
    else if ib h 12 1 = 0 then some (encR 0 rs2 0 0 rd 0x33) else some (encR 0 rs2 rd 0 rd 0x33)
  | 6 => some (encS st rs2 2 2 0x23)
  | 7 => some (encS st rs2 2 2 0x27)
  | _ => none

/-- The 32-bit instruction that a compressed one stands for. -/
def expandC (h : Nat) : Option Nat :=
  match h % 4 with
  | 0 => expandC0 h
  | 1 => expandC1 h
  | _ => expandC2 h

/-! ### The registers of a core -/

/-- An x register; 32 and up are f0 to f31. -/
def CpuX.rx (u : CpuX) (r : Nat) : W32 := if r < 32 then unitAt 0 u.x r else unitAt 0 u.f (r - 32)

/-- mstatus.FS is not Off. -/
def CpuX.fpOn (u : CpuX) : Bool := decide (ib u.mstatus.toNat 13 2 ≠ 0)

/-- Floating-point flags accrue in fcsr. -/
def CpuX.accrue (u : CpuX) (fl : Nat) : CpuX :=
  if fl = 0 then u else { u with fcsr := u.fcsr ||| BitVec.ofNat 32 fl, mstatus := u.mstatus ||| 0x6000 }

/-! ### Floating point -/

/-- The rounding mode of an instruction: its rm field, or frm; `none` is reserved. -/
def CpuX.rounding (u : CpuX) (i : Nat) : Option Nat :=
  let m := if f3Of i = 7 then ib u.fcsr.toNat 5 3 else f3Of i
  if m < 5 then some m else none

/-- FMADD.S, FMSUB.S, FNMSUB.S and FNMADD.S by their opcode. -/
def fusedOp (op rm : Nat) (a b c : Single) : W32 × Nat :=
  if op = 0x43 then fmaF rm a b c
  else if op = 0x47 then fmaF rm a b (c.flip true)
  else if op = 0x4B then fmaF rm (a.flip true) b c
  else fmaF rm (a.flip true) b (c.flip true)

/-- A rounded result of OP-FP into an f register. -/
def fpRounded (f7 rm : Nat) (a b : W32) : Option (W32 × Nat) :=
  if f7 = 0x00 then some (addF rm (unpack a) (unpack b))
  else if f7 = 0x04 then some (addF rm (unpack a) ((unpack b).flip true))
  else if f7 = 0x08 then some (mulF rm (unpack a) (unpack b))
  else if f7 = 0x0C then some (divF rm (unpack a) (unpack b))
  else none

/-- OP-FP: the destination, 32 and up for f registers, the result and its flags; `none` is an illegal instruction. -/
def CpuX.opFp (u : CpuX) (i : Nat) : Option (Nat × W32 × Nat) :=
  let f7 := f7Of i
  let f3 := f3Of i
  let r2 := rs2Of i
  let a := u.rx (32 + rs1Of i)
  let b := u.rx (32 + r2)
  let x := u.rx (rs1Of i)
  let rd := rdOf i
  match f7 with
  | 0x2C => if r2 = 0 then (u.rounding i).map fun rm => let r := sqrtF rm (unpack a); (32 + rd, r.1, r.2) else none
  | 0x10 => if f3 < 3 then some (32 + rd, sgnjF f3 a b, 0) else none
  | 0x14 => if f3 < 2 then (let r := minmaxF (f3 == 1) a b; some (32 + rd, r.1, r.2)) else none
  | 0x50 => if f3 < 3 then (let r := cmpF f3 (unpack a) (unpack b); some (rd, BitVec.ofNat 32 r.1, r.2)) else none
  | 0x60 => if r2 < 2 then (u.rounding i).map fun rm => let r := toIntF rm (r2 == 0) (unpack a); (rd, r.1, r.2) else none
  | 0x68 =>
    if r2 < 2 then (u.rounding i).map fun rm => let r := ofIntF rm (if r2 = 0 then x.toInt else x.toNat); (32 + rd, r.1, r.2)
    else none
  | 0x70 =>
    if r2 = 0 ∧ f3 = 0 then some (rd, a, 0) else if r2 = 0 ∧ f3 = 1 then some (rd, BitVec.ofNat 32 (classF a), 0) else none
  | 0x78 => if r2 = 0 ∧ f3 = 0 then some (32 + rd, x, 0) else none
  | _ => match u.rounding i with
    | some rm => (fpRounded f7 rm a b).map fun r => (32 + rd, r.1, r.2)
    | none => none

/-- A floating-point instruction without memory access. -/
def CpuX.fpResult (u : CpuX) (i : Nat) : Option (Nat × W32 × Nat) :=
  if u.fpOn = false then none
  else if i % 128 = 0x53 then u.opFp i
  else if ib i 25 2 = 0 then
    (u.rounding i).map fun rm =>
      let r := fusedOp (i % 128) rm (unpack (u.rx (32 + rs1Of i))) (unpack (u.rx (32 + rs2Of i))) (unpack (u.rx (32 + ib i 27 5)))
      (32 + rdOf i, r.1, r.2)
  else none

/-! ### Physical memory protection: 16 regions of 32-byte grain -/

/-- What an access does. -/
inductive RvKind
  | fetch
  | load
  | store
  | lr
  | amo
deriving DecidableEq, Repr

/-- The cause of an access fault. -/
def RvKind.fault : RvKind → Nat
  | .fetch => 1
  | .load => 5
  | .lr => 5
  | .store => 7
  | .amo => 7

/-- The permission bits of a PMP configuration that an access needs. -/
def RvKind.allowed (k : RvKind) (cfg : Nat) : Bool :=
  match k with
  | .fetch => testBit cfg 2
  | .load => testBit cfg 0
  | .lr => testBit cfg 0
  | .store => testBit cfg 1
  | .amo => testBit cfg 0 && testBit cfg 1

/-- PMP region `r` holds address `a`: TOR, or NAPOT, the address registers read with a grain of 32 bytes. -/
def CpuX.pmpHit (u : CpuX) (a r : Nat) : Bool :=
  let ad := (unitAt 0 u.pmpaddr r).toNat
  let below := if r = 0 then 0 else (unitAt 0 u.pmpaddr (r - 1)).toNat / 8 * 32
  match ib (unitAt 0 u.pmpcfg r) 3 2 with
  | 1 => decide (below ≤ a) && decide (a < ad / 8 * 32)
  | 3 =>
    let x := Nat.lor ad 3
    let m := Nat.xor x (x + 1)
    decide (Nat.lor (a / 4) m = Nat.lor x m)
  | _ => false

/-- The PMP lets an access of a mode pass: the first region that holds the address decides. -/
def CpuX.pmpOk (u : CpuX) (user : Bool) (k : RvKind) (a : Nat) : Bool :=
  match (List.range 16).find? (u.pmpHit a) with
  | some r => let cfg := unitAt 0 u.pmpcfg r; (!user && !testBit cfg 7) || k.allowed cfg
  | none => !user

/-- The mode in which loads and stores are checked (mstatus.MPRV). -/
def CpuX.dataUser (u : CpuX) : Bool :=
  if !u.user && testBit u.mstatus.toNat 17 then decide (ib u.mstatus.toNat 11 2 = 0) else u.user

/-- Writes a PMP configuration byte: a locked one keeps its value; NA4, which the grain excludes, stores OFF, and W without R stores W = 0. -/
def CpuX.pmpcfgPut (u : CpuX) (r b : Nat) : CpuX :=
  if testBit (unitAt 0 u.pmpcfg r) 7 then u
  else
    let b := b - ib b 5 2 * 32
    let b := if ib b 3 2 = 2 then b - 16 else b
    let b := if b % 4 = 2 then b - 2 else b
    { u with pmpcfg := putUnit 0 u.pmpcfg r b }

/-- Writes a PMP address register, unless its region is locked, or the next one is a locked TOR region. -/
def CpuX.pmpaddrPut (u : CpuX) (r : Nat) (v : W32) : CpuX :=
  let next := unitAt 0 u.pmpcfg (r + 1)
  if testBit (unitAt 0 u.pmpcfg r) 7 || (testBit next 7 && decide (ib next 3 2 = 1)) then u
  else { u with pmpaddr := putUnit 0 u.pmpaddr r v }

/-- What a PMP address register reads as: its low bits follow the grain. -/
def CpuX.pmpaddrGet (u : CpuX) (r : Nat) : W32 :=
  let v := unitAt 0 u.pmpaddr r
  if ib (unitAt 0 u.pmpcfg r) 4 1 = 1 then v ||| 3 else v &&& 0xFFFFFFF8

end Sys2Proof.Machine
end

