-- ==== Sys2Proof/Machine/RvCore.lean ====
section
/-!
DEFINITION. RvCore.lean: the control cores run: the address map, control and status registers, traps, and one instruction
(R326 to R331, R341, R346, R347). (PRESUMED, log entry 115: what the spec leaves to the RISC-V architecture that it names.)
-/
namespace Sys2Proof.Machine

/-- The registers of core `c`. -/
def State.cpu (s : State) (c : Nat) : CpuX := (s.coreX c).cpu

/-- Stores the registers of core `c`. -/
def State.setCpu (s : State) (c : Nat) (u : CpuX) : State := s.setCoreX c { (s.coreX c) with cpu := u }

/-! ### The address map (R327) -/

/-- What stands at a core address: a memory of the device, by its alias address, and how it answers (0 in one clock, 1 as shared
SRAM, 2 in a time that the spec does not give); local DRAM beyond the window's base; a register; the operation window. -/
inductive CoreMem
  | ram (alias_ answers : Nat)
  | dram (x : Nat)
  | reg (off : Nat)
  | op (off : Nat)
deriving DecidableEq, Repr

/-- What an access of a kind by core `c` reaches; `none` is an access that the table does not allow. -/
def coreMem (c a : Nat) (k : RvKind) : Option CoreMem :=
  let loads := k == .load
  let moves := k == .load || k == .store
  if a < 0x40000 then (if k = .fetch ∨ k = .load then some (.ram (0x04000000 + 0x400000 * c + a) 0) else none)
  else if 0x100000 ≤ a ∧ a < 0x140000 then (if k = .fetch then none else some (.ram (0x04000000 + 0x400000 * c + a) 0))
  else if 0x04000000 ≤ a ∧ a < 0x05000000 then
    let o := (a - 0x04000000) % 0x400000
    if o < 0x40000 ∧ loads then some (.ram a 2)
    else if 0x100000 ≤ o ∧ o < 0x140000 ∧ moves then some (.ram a 2)
    else none
  else if 0x20000000 ≤ a ∧ a < 0x20200000 then some (.ram a 1)
  else if 0x30000000 ≤ a ∧ a < 0x30100000 ∧ moves then some (.reg (a - 0x30000000))
  else if 0x31000000 ≤ a ∧ a < 0x31100000 ∧ moves then some (.op (a - 0x31000000))
  else if 0x80000000 ≤ a ∧ a < 0xC0000000 ∧ (k = .fetch ∨ moves) then some (.dram (a - 0x80000000))
  else none

/-- The address lies in the register alias or the operation window. -/
def inWindow (a : Nat) : Bool := (decide (0x30000000 ≤ a) && decide (a < 0x30100000)) || (decide (0x31000000 ≤ a) && decide (a < 0x31100000))

/-- Core clocks beyond the first until a memory answers (R328): 5 to 9 for shared SRAM; where the spec gives no bound, any number.
(DESIGN CHOICE, log entry 116: a free value.) -/
def State.memStall (s : State) (c answers : Nat) : State :=
  if answers = 0 then s
  else
    let n := if answers = 1 then 5 + s.freeVal % 5 else s.freeVal
    let u := s.cpu c
    (s.setCpu c { u with stall := u.stall + n }).useFree

/-- The local DRAM byte of the window (R329). -/
def State.dramByte (s : State) (x : Nat) : Nat := s.get F.coreDramwinBase * 67108864 + x

/-- The bytes that core `c` reads from a memory: nothing for an access that the map does not allow, an uncorrectable word (R329, R456), an
access beyond the installed DRAM, or one while the controller is not READY (R418). -/
def State.rvRead (s : State) (c a n : Nat) (k : RvKind) : Option Nat × State :=
  match coreMem c a k with
  | some (.ram al w) => if s.badSram al n then (none, s) else (some (ofBytes (s.sramBytes al n)), s.memStall c w)
  | some (.dram x) =>
    if s.dramReady then
      match s.dramRead (s.dramByte x) n with
      | (some l, t) => (some (ofBytes l), t.memStall c 2)
      | (none, t) => (none, t)
    else (none, s)
  | _ => (none, s)

/-- Core `c` writes bytes to a memory; `none` where the access faults. -/
def State.rvWrite (s : State) (c a n v : Nat) : Option State × State :=
  match coreMem c a .store with
  | some (.ram al w) => (some ((s.storeSram (some c) al (bytesOf v n)).memStall c w), s)
  | some (.dram x) =>
    if s.dramReady then
      (if s.inDram (s.dramByte x) n then (some ((s.dramWrite (s.dramByte x) (bytesOf v n)).memStall c 2), s) else (none, s.outOfRange))
    else (none, s)
  | _ => (none, s)

/-! ### Control and status registers (R326, R330, R331) -/

/-- mip of core `c`: DISP and ERR (R330). -/
def State.mip (s : State) (c : Nat) : W32 :=
  BitVec.ofNat 32 ((s.bit F.dispCoreStatPending 0 c).toNat * 2 ^ 16 + (decide ((s.coreX c).errInfo % 4 ≠ 0)).toNat * 2 ^ 17)

/-- mstatus as it reads: SD sums up FS. -/
def CpuX.mstatusWord (u : CpuX) : W32 := if ib u.mstatus.toNat 13 2 = 3 then u.mstatus ||| 0x80000000 else u.mstatus

/-- thrid: the slot of the thread that the core runs, or bit 31 (R331). -/
def State.thrid (s : State) (c : Nat) : W32 :=
  match s.runningOn c with
  | some j => BitVec.ofNat 32 j
  | none => 0x80000000

/-- The four PMP configuration bytes of a register. -/
def CpuX.pmpcfgWord (u : CpuX) (n : Nat) : W32 :=
  BitVec.ofNat 32 (ofBytes ((List.range 4).map fun i => unitAt 0 u.pmpcfg (4 * n + i)))

/-- A counter is open to user mode (mcounteren), or the core is in machine mode. -/
def CpuX.counts (u : CpuX) (bit : Nat) : Bool := !u.user || testBit u.mcounteren.toNat bit

/-- The floating-point registers of the standard, the counters, and the user-mode registers of R331. -/
def State.csrUser (s : State) (c n : Nat) : Option W32 :=
  let u := s.cpu c
  let lo (v : BitVec 64) : W32 := v.extractLsb' 0 32
  let hi (v : BitVec 64) : W32 := v.extractLsb' 32 32
  let fp (v : W32) : Option W32 := if u.fpOn then some v else none
  match n with
  | 0x001 => fp (u.fcsr &&& 0x1F)
  | 0x002 => fp ((u.fcsr >>> 5) &&& 7)
  | 0x003 => fp (u.fcsr &&& 0xFF)
  | 0xC00 => if u.counts 0 then some (lo u.mcycle) else none
  | 0xC80 => if u.counts 0 then some (hi u.mcycle) else none
  | 0xC02 => if u.counts 2 then some (lo u.minstret) else none
  | 0xC82 => if u.counts 2 then some (hi u.minstret) else none
  | 0xCC0 => some (s.thrid c)
  | 0xCC1 => some (BitVec.ofNat 32 (s.get F.clkEtcountCount))
  | 0xCC2 => some u.etHigh
  | _ => none

/-- The machine-mode registers; `none` is a register that the cores do not have. -/
def State.csrMachine (s : State) (c n : Nat) : Option W32 :=
  let u := s.cpu c
  let lo (v : BitVec 64) : W32 := v.extractLsb' 0 32
  let hi (v : BitVec 64) : W32 := v.extractLsb' 32 32
  match n with
  | 0x300 => some u.mstatusWord
  | 0x301 => some 0x40101125
  | 0x304 => some u.mie
  | 0x305 => some u.mtvec
  | 0x306 => some u.mcounteren
  | 0x340 => some u.mscratch
  | 0x341 => some u.mepc
  | 0x342 => some u.mcause
  | 0x343 => some u.mtval
  | 0x344 => some (s.mip c)
  | 0xB00 => some (lo u.mcycle)
  | 0xB80 => some (hi u.mcycle)
  | 0xB02 => some (lo u.minstret)
  | 0xB82 => some (hi u.minstret)
  | 0xF14 => some (BitVec.ofNat 32 c)
  | 0x7C0 => some (BitVec.ofNat 32 ((s.bit F.dispCoreStatPending 0 c).toNat + (s.coreX c).reason % 4 * 2))
  | 0x7C1 => some (BitVec.ofNat 32 (s.coreX c).errInfo)
  | _ =>
    if 0x3A0 ≤ n ∧ n < 0x3A4 then some (u.pmpcfgWord (n - 0x3A0))
    else if 0x3B0 ≤ n ∧ n < 0x3C0 then some (u.pmpaddrGet (n - 0x3B0))
    else if n ∈ [0x30A, 0x310, 0x31A, 0x320, 0xF11, 0xF12, 0xF13, 0xF15] ∨ (0x323 ≤ n ∧ n < 0x340) ∨ (0xB03 ≤ n ∧ n < 0xB20)
        ∨ (0xB83 ≤ n ∧ n < 0xBA0) then some 0
    else none

/-- What a read of a control and status register gives; `none` is an illegal instruction: no register of that number, time and timeh
among them, or no access in the present mode (R326). -/
def State.csrGet (s : State) (c n : Nat) : Option W32 :=
  match s.csrUser c n with
  | some v => some v
  | none => if (s.cpu c).user then none else s.csrMachine c n

/-- The bits of mstatus that a write stores: MIE, MPIE, MPP, FS, MPRV and TW; MPP stores machine mode, or user mode for any other value. -/
def mstatusWrite (v : W32) : W32 :=
  let m := v &&& 0x00226088
  if ib v.toNat 11 2 = 3 then m ||| 0x1800 else m

/-- Sixty-four bits with one half replaced. -/
def withHalf (v : BitVec 64) (high : Bool) (h : W32) : BitVec 64 :=
  if high then h ++ v.extractLsb' 0 32 else v.extractLsb' 32 32 ++ h

/-- The floating-point registers of the standard. -/
def CpuX.fcsrPut (u : CpuX) (v : Nat) : CpuX := { u with fcsr := BitVec.ofNat 32 (v % 256), mstatus := u.mstatus ||| 0x6000 }

/-- A write of a control and status register that exists; a field that holds no other value keeps its own. -/
def State.csrPut (s : State) (c n : Nat) (v : W32) : State :=
  let u := s.cpu c
  match n with
  | 0x001 => s.setCpu c (u.fcsrPut (ib u.fcsr.toNat 5 3 * 32 + v.toNat % 32))
  | 0x002 => s.setCpu c (u.fcsrPut (v.toNat % 8 * 32 + u.fcsr.toNat % 32))
  | 0x003 => s.setCpu c (u.fcsrPut v.toNat)
  | 0x300 => s.setCpu c { u with mstatus := mstatusWrite v }
  | 0x304 => s.setCpu c { u with mie := v &&& 0x00030888 }
  | 0x305 => s.setCpu c { u with mtvec := v &&& 0xFFFFFFFD }
  | 0x306 => s.setCpu c { u with mcounteren := v &&& 5 }
  | 0x340 => s.setCpu c { u with mscratch := v }
  | 0x341 => s.setCpu c { u with mepc := v &&& 0xFFFFFFFE }
  | 0x342 => s.setCpu c { u with mcause := v }
  | 0x343 => s.setCpu c { u with mtval := v }
  | 0xB00 => s.setCpu c { u with mcycle := withHalf u.mcycle false v }
  | 0xB80 => s.setCpu c { u with mcycle := withHalf u.mcycle true v }
  | 0xB02 => s.setCpu c { u with minstret := withHalf u.minstret false v }
  | 0xB82 => s.setCpu c { u with minstret := withHalf u.minstret true v }
  | 0x7C1 => s.setCoreX c { (s.coreX c) with errInfo := v.toNat }
  | _ =>
    if 0x3A0 ≤ n ∧ n < 0x3A4 then
      s.setCpu c ((List.range 4).foldl (fun w i => w.pmpcfgPut (4 * (n - 0x3A0) + i) (ib v.toNat (8 * i) 8)) u)
    else if 0x3B0 ≤ n ∧ n < 0x3C0 then s.setCpu c (u.pmpaddrPut (n - 0x3B0) v)
    else s

/-- A read of etcount captures the upper half of CLK.ETCOUNT for etcounth (R331). -/
def State.csrSeen (s : State) (c n : Nat) : State :=
  if n = 0xCC1 then s.setCpu c { (s.cpu c) with etHigh := BitVec.ofNat 32 (s.get F.clkEtcountCount / 2 ^ 32) } else s

/-! ### Traps -/

/-- Core `c` enters its trap handler (R341): the pc and the mode are saved, interrupts are disabled. -/
def CpuX.trap (u : CpuX) (pc : W32) (cause : Nat) (tval : W32) (interrupt : Bool) : CpuX :=
  let st := u.mstatus.toNat
  let base := u.mtvec &&& 0xFFFFFFFC
  { u with
    mepc := pc, mtval := tval, user := false
    mcause := BitVec.ofNat 32 (cause + interrupt.toNat * 2 ^ 31)
    mstatus := (u.mstatus &&& 0xFFFFE777) ||| BitVec.ofNat 32 (ib st 3 1 * 2 ^ 7 + (if u.user then 0 else 0x1800))
    pc := if interrupt ∧ ib u.mtvec.toNat 0 2 = 1 then base + BitVec.ofNat 32 (4 * cause) else base }

/-- MRET: the saved mode, interrupt enable and pc return; MPRV clears on the way to user mode. -/
def CpuX.mret (u : CpuX) : CpuX :=
  let st := u.mstatus.toNat
  let toUser := decide (ib st 11 2 = 0)
  { u with
    pc := u.mepc, user := toUser
    mstatus := ((u.mstatus &&& 0xFFFFE777) ||| BitVec.ofNat 32 (ib st 7 1 * 2 ^ 3 + 2 ^ 7))
      &&& (if toUser then 0xFFFDFFFF else 0xFFFFFFFF) }

/-- The local interrupt that core `c` takes: pending, enabled, and machine mode with MIE, or user mode; DISP before ERR (R330, R341).
(DESIGN CHOICE, log entry 116.) -/
def State.takenInterrupt (s : State) (c : Nat) : Option Nat :=
  let u := s.cpu c
  let m := Nat.land (s.mip c).toNat u.mie.toNat
  if u.user || testBit u.mstatus.toNat 3 then
    (if testBit m 16 then some 16 else if testBit m 17 then some 17 else none)
  else none

/-! ### The register alias and the operation window (R327, R346) -/

/-- The operation that a store at an offset of the window performs; `none` where the store has no effect. -/
def opOfStore (off d : Nat) : Option CoreOp :=
  let x := off % 0x10000 / 4
  match off / 0x10000 with
  | 0x0 => some (.makeready (x % 1024))
  | 0x1 => some (.cancel (x % 1024))
  | 0x2 => some (.setflags (x % 1024) d)
  | 0x3 => some (.clrflags (x % 1024) d)
  | 0x4 => some (.reset (x % 1024))
  | 0x5 => some (.setwait d)
  | 0xA => some (.submit (x % 16) (d % 2 ^ 22))
  | 0xC => some (.release (x % 16) (x / 16 % 512) (d % 2 ^ 16) (testBit d 31))
  | 0xD => some (.sendmail (d % 2 ^ 15))
  | _ => none

/-- The operation that a load at an offset of the window performs; `none` where it returns zero. -/
def opOfLoad (off : Nat) : Option CoreOp :=
  match off / 0x10000 with
  | 0x6 => some .wait
  | 0x7 => some .yield
  | 0x8 => some .switch
  | 0x9 => some .takeflags
  | 0xB => some (.take (off % 0x10000 / 4 % 16))
  | _ => none

/-- The store completes only when it is sampled, or later (R346, R347). -/
def CoreOp.nonPosted : CoreOp → Bool
  | .submit _ _ => true
  | .sendmail _ => true
  | _ => false

/-- A fault in an access through the register alias is recorded in merrinfo (R330, R331). What the core's accesses hold or have captured is
discarded as R11 says of an access of another size. -/
def State.aliasFault (s : State) (c a : Nat) (k : RvKind) : State :=
  if 0x30000000 ≤ a ∧ a < 0x30100000 then
    let x := s.coreX c
    let h : Halves := unitAt {} s.halvesCore c
    let t := s.setCoreX c { x with
      errInfo := 2 + a / 4 * 4
      stores := if k = .store ∨ k = .amo then x.stores ++ [(a - 0x30000000, 0, 0)] else x.stores }
    if k = .load ∨ k = .lr then { t with halvesCore := putUnit {} t.halvesCore c { h with captured := none } } else t
  else s

/-! ### One instruction -/

/-- What an instruction does: the state after it, and the exception that it raises instead, with its value for mtval. -/
abbrev RvStep := State × Option (Nat × Nat)

/-- An illegal instruction. -/
def State.illegal (s : State) (i : Nat) : RvStep := (s, some (2, i))

/-- A result, and on to the next instruction. -/
def State.rvGo (s : State) (c rd : Nat) (v next : W32) : RvStep := (s.setCpu c { (s.cpu c).wx rd v with pc := next }, none)

/-- Exceptions of a data access of `n` bytes at `a`, in the order misaligned, PMP; windows take aligned words only (R327, R346). -/
def State.rvCheck (s : State) (c a n : Nat) (k : RvKind) : Option (Nat × Nat) :=
  let u := s.cpu c
  if inWindow a then (if n = 4 ∧ a % 4 = 0 ∧ u.pmpOk u.dataUser k a then none else some (k.fault, a))
  else if a % n ≠ 0 then some (k.fault - 1, a)
  else if u.pmpOk u.dataUser k a then none
  else some (k.fault, a)

/-- A load of `n` bytes into `rd` (32 and up f registers). -/
def State.rvLoad (s : State) (c rd a f3 : Nat) (next : W32) : RvStep :=
  let n := 2 ^ (f3 % 4)
  match s.rvCheck c a n .load with
  | some e => (s.aliasFault c a .load, some e)
  | none =>
    match coreMem c a .load with
    | some (.reg off) => (s.setCpu c { (s.cpu c) with pc := next, wait := .load rd off }, none)
    | some (.op off) =>
      match opOfLoad off with
      | some op => ((s.setCpu c { (s.cpu c) with pc := next }).queueOp c { op := op, rd := some rd, posted := false }, none)
      | none => s.rvGo c rd 0 next
    | _ =>
      match s.rvRead c a n .load with
      | (some v, t) => t.rvGo c rd ((loadValue f3 v).getD 0) next
      | (none, t) => (t, some (5, a))

/-- A store of `n` bytes. -/
def State.rvStore (s : State) (c a n : Nat) (v next : W32) : RvStep :=
  match s.rvCheck c a n .store with
  | some e => (s.aliasFault c a .store, some e)
  | none =>
    match coreMem c a .store with
    | some (.reg off) =>
      let x := s.coreX c
      (s.setCoreX c { x with stores := x.stores ++ [(off, 4, v.toNat)], cpu := { x.cpu with pc := next } }, none)
    | some (.op off) =>
      let t := s.setCpu c { (s.cpu c) with pc := next }
      match opOfStore off v.toNat with
      | some op => (t.queueOp c { op := op, posted := !op.nonPosted }, none)
      | none => (t, none)
    | _ =>
      match s.rvWrite c a n v.toNat with
      | (some t, _) => (t.setCpu c { (t.cpu c) with pc := next }, none)
      | (none, t) => (t, some (7, a))

/-- The memory that LR, SC and AMOs of core `c` reach at `a`, if they may: its alias address and how it answers (R327). -/
def State.rvAtomic (s : State) (c a : Nat) (k : RvKind) : Except (Nat × Nat) (Nat × Nat) :=
  match s.rvCheck c a 4 k with
  | some e => .error e
  | none =>
    match coreMem c a k with
    | some (.ram al w) => .ok (al, w)
    | _ => .error (k.fault, a)

/-- LR.W: the word, and a reservation on it (R328). -/
def State.rvLr (s : State) (c rd a : Nat) (next : W32) : RvStep :=
  match s.rvAtomic c a .lr with
  | .error e => (s.aliasFault c a .lr, some e)
  | .ok (al, w) =>
    if s.badSram al 4 then (s, some (5, a))
    else
      let t := s.memStall c w
      (t.setCpu c { (t.cpu c) with reserved := some (al / 4) }).rvGo c rd (BitVec.ofNat 32 (ofBytes (s.sramBytes al 4))) next

/-- SC.W: it stores, and returns 0, where the core's reservation on the word is held; else it returns 1 (R328). -/
def State.rvSc (s : State) (c rd a : Nat) (v next : W32) : RvStep :=
  match s.rvAtomic c a .amo with
  | .error e => (s.aliasFault c a .amo, some e)
  | .ok (al, w) =>
    let held := decide ((s.cpu c).reserved = some (al / 4))
    let t := (s.setCpu c { (s.cpu c) with reserved := none }).memStall c w
    (if held then t.storeSram (some c) al (bytesOf v.toNat 4) else t).rvGo c rd (if held then 0 else 1) next

/-- An AMO: one access that no other core's comes between (R328). -/
def State.rvAmo (s : State) (c i rd a : Nat) (v next : W32) : RvStep :=
  match s.rvAtomic c a .amo with
  | .error e => (s.aliasFault c a .amo, some e)
  | .ok (al, w) =>
    if s.badSram al 4 then (s, some (7, a))
    else
      let m := BitVec.ofNat 32 (ofBytes (s.sramBytes al 4))
      match amoOp (ib i 27 5) m v with
      | some x => ((s.memStall c w).storeSram (some c) al (bytesOf x.toNat 4)).rvGo c rd m next
      | none => s.illegal i

/-- Zicsr by funct3: the old value is read, and written over, set or cleared. -/
def State.rvCsr (s : State) (c i word : Nat) (next : W32) : RvStep :=
  let n := ib i 20 12
  let f := f3Of i % 4
  let x : W32 := if f3Of i < 4 then (s.cpu c).rx (rs1Of i) else BitVec.ofNat 32 (rs1Of i)
  let writes := decide (f = 1) || decide (rs1Of i ≠ 0)
  match s.csrGet c n with
  | none => s.illegal word
  | some old =>
    if writes ∧ n / 1024 = 3 ∨ writes ∧ n = 0x7C0 then s.illegal word
    else
      let t := s.csrSeen c n
      let u := if writes then t.csrPut c n (if f = 1 then x else if f = 2 then old ||| x else old &&& ~~~x) else t
      u.rvGo c (rdOf i) old next

/-- ECALL, EBREAK, MRET and WFI, which is over at once. -/
def State.rvSystem (s : State) (c i word : Nat) (next : W32) : RvStep :=
  let u := s.cpu c
  if i = 0x00000073 then (s, some (if u.user then 8 else 11, 0))
  else if i = 0x00100073 then (s, some (3, u.pc.toNat))
  else if i = 0x30200073 ∧ u.user = false then (s.setCpu c u.mret, none)
  else if i = 0x10500073 ∧ (u.user && testBit u.mstatus.toNat 21) = false then (s.setCpu c { u with pc := next }, none)
  else s.illegal word

/-- Register operations: OP-IMM, OP and M. -/
def regResult (u : CpuX) (i : Nat) : Option W32 :=
  let a := u.rx (rs1Of i)
  let b := u.rx (rs2Of i)
  let f3 := f3Of i
  let f7 := f7Of i
  if i % 128 = 0x13 then
    if f3 = 1 then (if f7 = 0 then some (aluOp 1 false a (BitVec.ofNat 32 (rs2Of i))) else none)
    else if f3 = 5 then (if f7 = 0 ∨ f7 = 0x20 then some (aluOp 5 (f7 == 0x20) a (BitVec.ofNat 32 (rs2Of i))) else none)
    else some (aluOp f3 false a (immI i))
  else if f7 = 0 then some (aluOp f3 false a b)
  else if f7 = 0x20 ∧ (f3 = 0 ∨ f3 = 5) then some (aluOp f3 true a b)
  else if f7 = 1 then some (mulDiv f3 a b)
  else none

/-- Loads, stores and the A extension. -/
def State.rvMemory (s : State) (c i word : Nat) (next : W32) : RvStep :=
  let u := s.cpu c
  let a := u.rx (rs1Of i)
  let la := (a + immI i).toNat
  let sa := (a + immS i).toNat
  let f3 := f3Of i
  match i % 128 with
  | 0x03 => if f3 = 3 ∨ 5 < f3 then s.illegal word else s.rvLoad c (rdOf i) la f3 next
  | 0x23 => if 2 < f3 then s.illegal word else s.rvStore c sa (2 ^ f3) (u.rx (rs2Of i)) next
  | 0x07 => if f3 = 2 ∧ u.fpOn then s.rvLoad c (32 + rdOf i) la 2 next else s.illegal word
  | 0x27 => if f3 = 2 ∧ u.fpOn then s.rvStore c sa 4 (u.rx (32 + rs2Of i)) next else s.illegal word
  | _ =>
    if f3 ≠ 2 then s.illegal word
    else if ib i 27 5 = 2 then (if rs2Of i = 0 then s.rvLr c (rdOf i) a.toNat next else s.illegal word)
    else if ib i 27 5 = 3 then s.rvSc c (rdOf i) a.toNat (u.rx (rs2Of i)) next
    else if (amoOp (ib i 27 5) 0 0).isNone then s.illegal word
    else s.rvAmo c i (rdOf i) a.toNat (u.rx (rs2Of i)) next

/-- Jumps and branches. -/
def State.rvJump (s : State) (c i word : Nat) (next : W32) : RvStep :=
  let u := s.cpu c
  match i % 128 with
  | 0x6F => s.rvGo c (rdOf i) next (u.pc + immJ i)
  | 0x67 => if f3Of i = 0 then s.rvGo c (rdOf i) next ((u.rx (rs1Of i) + immI i) &&& 0xFFFFFFFE) else s.illegal word
  | _ =>
    match branchTaken (f3Of i) (u.rx (rs1Of i)) (u.rx (rs2Of i)) with
    | some b => (s.setCpu c { u with pc := if b then u.pc + immB i else next }, none)
    | none => s.illegal word

/-- One instruction `i` of core `c`; `word` is its encoding as fetched, `next` the address behind it. -/
def State.rvExec (s : State) (c i word : Nat) (next : W32) : RvStep :=
  let u := s.cpu c
  let op := i % 128
  if op = 0x37 then s.rvGo c (rdOf i) (immU i) next
  else if op = 0x17 then s.rvGo c (rdOf i) (u.pc + immU i) next
  else if op = 0x6F ∨ op = 0x67 ∨ op = 0x63 then s.rvJump c i word next
  else if op = 0x03 ∨ op = 0x23 ∨ op = 0x07 ∨ op = 0x27 ∨ op = 0x2F then s.rvMemory c i word next
  else if op = 0x13 ∨ op = 0x33 then
    match regResult u i with
    | some v => s.rvGo c (rdOf i) v next
    | none => s.illegal word
  else if op = 0x0F ∧ f3Of i = 0 then (s.setCpu c { u with pc := next }, none)
  else if op = 0x73 then
    (if f3Of i = 0 then s.rvSystem c i word next else if f3Of i = 4 then s.illegal word else s.rvCsr c i word next)
  else if op = 0x43 ∨ op = 0x47 ∨ op = 0x4B ∨ op = 0x4F ∨ op = 0x53 then
    match u.fpResult i with
    | some r => (s.setCpu c { ((u.wx r.1 r.2.1).accrue r.2.2) with pc := next }, none)
    | none => s.illegal word
  else s.illegal word

/-! ### Core clocks -/

/-- Core `c` fetches two bytes (R327). -/
def State.rvFetch (s : State) (c a : Nat) : Option Nat × State :=
  let u := s.cpu c
  if u.pmpOk u.user .fetch a then s.rvRead c a 2 .fetch else (none, s)

/-- The instruction has written minstret itself. -/
def writesMinstret (i : Nat) : Bool :=
  i % 128 == 0x73 && decide (f3Of i % 4 ≠ 0) && (ib i 20 12 == 0xB02 || ib i 20 12 == 0xB82)

/-- The end of an instruction: it retires, or the core traps to its handler. -/
def State.rvEnd (c : Nat) (pc : W32) (i : Nat) (r : RvStep) : State :=
  match r with
  | (t, some e) => t.setCpu c ((t.cpu c).trap pc e.1 (BitVec.ofNat 32 e.2) false)
  | (t, none) => if writesMinstret i then t else t.setCpu c { (t.cpu c) with minstret := (t.cpu c).minstret + 1 }

/-- Core `c` fetches and performs the instruction at its pc; the two halves of a 32-bit one answer together. -/
def State.rvStep (s : State) (c : Nat) : State :=
  let pc := (s.cpu c).pc
  match s.rvFetch c pc.toNat with
  | (none, t) => State.rvEnd c pc 0 (t, some (1, pc.toNat))
  | (some h, t) =>
    if h % 4 = 3 then
      let n := (t.cpu c).stall
      match t.rvFetch c (pc + 2).toNat with
      | (none, t) => State.rvEnd c pc 0 (t, some (1, (pc + 2).toNat))
      | (some g, t) =>
        let t := t.setCpu c { (t.cpu c) with stall := n }
        State.rvEnd c pc (h + g * 2 ^ 16) (t.rvExec c (h + g * 2 ^ 16) (h + g * 2 ^ 16) (pc + 4))
    else
      match expandC h with
      | some i => State.rvEnd c pc i (t.rvExec c i h (pc + 2))
      | none => State.rvEnd c pc 0 (t.illegal h)

/-- One core clock of core `c` (R328): mcycle counts; a core that waits for an access waits on; a local interrupt is taken (R341); else one
instruction. (DESIGN CHOICE, log entry 116.) -/
def State.coreClock (s : State) (c : Nat) : State :=
  if s.coreRuns c = false then s
  else
    let u := { (s.cpu c) with mcycle := (s.cpu c).mcycle + 1 }
    let t := s.setCpu c u
    if u.stall ≠ 0 then t.setCpu c { u with stall := u.stall - 1 }
    else if u.wait ≠ .no then t
    else
      match t.takenInterrupt c with
      | some n => t.setCpu c (u.trap u.pc n 0 true)
      | none => t.rvStep c

/-- One core clock of the four cores. (DESIGN CHOICE, log entry 116: in ascending order.) -/
def State.coresClock (s : State) : State := (List.range 4).foldl (fun (t : State) c => t.coreClock c) s

/-- The four core clocks of an event tick (R326, R341). -/
def State.coreClocks (s : State) : State := s.coresClock.coresClock.coresClock.coresClock

end Sys2Proof.Machine
end

