-- ==== Sys2Proof/Machine/OpsTick.lean ====
section
/-!
DEFINITION. OpsTick.lean: what an event tick does by itself (R52, R53): step performs it where no command waits.
-/
namespace Sys2Proof.Machine

/-- The sequencer enters STALLED (R208). Where the end of its last vector cycle lies before the present boundary, this
boundary is passed while STALLED and counts (R209). -/
def State.stallNow (s : State) (q : Nat) : State :=
  let t := s.enterStall q
  if s.seqState q ≠ 3 ∧ t.seqState q = 3 ∧ (s.seqX q).lastEnd < s.nowFu then
    t.set F.seqStallTimeEt q 0 (t.get F.seqStallTimeEt q + 1)
  else t

/-- FAIL_GF of SEQ[q] sets GF[i] (R182): records see it from `bound` on, unless it was set already (R183). -/
def State.failFlag (s : State) (q i bound : Nat) : State :=
  let old := testBit (s.get F.oluGflagsGf) i
  let t := s.gfOp i true (.seq q) true
  let x := t.seqX q
  if old ∨ testBit (t.get F.oluGflagsGf) i = false then t
  else t.setSeqX q { x with gfBounds := (x.gfBounds.filter fun b => decide (t.nowFu < b.2)) ++ [(i, bound)] }

/-- An action of a sequencer's record at its boundary (R55, R105). -/
def State.seqAct (s : State) (q : Nat) : SeqAct → State
  | .gf i set => s.gfOp i set (.seq q) true
  | .trigger b start => s.acqTrigger b start q
  | .window b action start => s.measureEdge b action start q
  | .urgent b entry => s.urgentRequest b entry (.seq q)
  | .timArm m => s.timArm m (.seq q)
  | .feStart b list => s.feRequest b list false
  | .arrive i => s.arrive q i
  | .stall => s.stallNow q
  | .failGf i bound => s.failFlag q i bound
  | .matchTimeout => s.hwSet F.seqStatusMatchTimeout q 0
  | .matchLate => s.hwSet F.seqStatusMatchLate q 0

/-- The action is an event on a unit of a bay: it acts after what its boundary samples (R56, R506). -/
def SeqAct.late : SeqAct → Bool
  | .trigger .. => true
  | .window .. => true
  | .urgent .. => true
  | .timArm _ => true
  | _ => false

/-- The actions of a sequencer whose boundary is reached: those on units of bays, or the others. -/
def State.seqActs (s : State) (late : Bool) (q : Nat) : State :=
  let x := s.seqX q
  let l := x.due.filter fun e => decide (tickAt e.1 ≤ s.ticks) && e.2.late == late
  l.foldl (fun (t : State) e => t.seqAct q e.2)
    (s.setSeqX q { x with due := x.due.filter fun e => !(decide (tickAt e.1 ≤ s.ticks) && e.2.late == late) })

/-- What a bay does at a boundary by itself: pin events, TIME windows and tags in FREE mode (R370, R376, R388). -/
def State.bayTick (s : State) (b : Nat) : State := ((s.acqDue b).timeWindow b).freeTags b 3

/-- What the present boundary does after everything that it samples (R55, R56, R105, R388, R506): vectors that begin at it, the
sequencers' events on units of bays, the flags that changed, and each bay's own work. (DEDUCED, log entry 10.) -/
def State.lateActs (s0 : State) : State :=
  let s := if s0.frameStarved then s0.hwSet F.pgtStatusStarvedSeen 0 0 else s0
  let t := (List.range 4).foldl (fun (u : State) q => u.seqActs true q) (s.timeActs.issueAll (s.nowFu + 1))
  (List.range 8).foldl (fun (u : State) b => u.bayTick b) t.gfChanged.linkReports.ownActs

/-- What no register shows of the state before the next tick (R506). -/
def State.was (s : State) : Was :=
  { log := (List.range 4).filter fun q => decide ((s.logX q).queue ≠ [])
    cap := (List.range 4).filter fun q => decide ((s.logX q).capWords ≠ 0)
    flow := (List.range 16).filter fun f => decide ((s.flowX f).items ≠ [])
    framed := s.page.table.any fun e => e.2.framed }

/-- What the event tick that ends leaves: its late actions, FLAG frames and index write-backs; what belongs to one tick is dropped
(R62, R90, R163, R283, R308). (DEDUCED, log entry 13.) -/
def State.endTick (s : State) : State :=
  let t := s.lateActs.sendFlags.endRings
  { t with events := [], startOfTick := t.regs, gfPrev := t.get F.oluGflagsGf, clk := { t.clk with was := t.was } }

/-- PPS_OUT falls where its width has passed (R257). -/
def State.ppsEnds (s : State) : State :=
  match s.time.ppsFalls with
  | some u => if u ≤ s.time.ct then s.ppsLow else s
  | none => s

/-- SLEWING reads 0 where Δ has reached zero (R243). -/
def State.slewEnds (s : State) : State := if s.newClocks.delta = 0 then s.set F.timeStatusSlewing 0 0 0 else s

/-- The boundary `n` core ticks later. -/
def State.later (s : State) (n : Nat) : State :=
  { s with ticks := s.ticks + 1, time := { s.time with ct := s.time.ct + n } }

/-- `n` core ticks pass to the next boundary: the Oluel ports send, the station clocks run on (R236, R243).
(DEDUCED, log entry 24.) -/
def State.passCt (s : State) (n : Nat) : State := ((s.transmitAll n).later n).ppsEnds.slewEnds

/-- The clocks over one event tick, 8 core ticks (R51, R235, R243). -/
def State.advanceClocks (s : State) : State :=
  let t := s.passCt 8
  t.set F.clkEtcountCount 0 0 (t.get F.clkEtcountCount + 1)

/-- Counts that grow by one in each event tick: a stalled sequencer's stall time, a busy core's load (R209, R357). -/
def State.tickCounts (s : State) : State :=
  let t := (List.range 4).foldl (fun (u : State) q =>
    if u.seqState q = 3 then u.set F.seqStallTimeEt q 0 (u.get F.seqStallTimeEt q + 1) else u) s
  (List.range 4).foldl (fun (u : State) c =>
    if (u.runningOn c).isSome then u.setCoreX c { (u.coreX c) with busy := (u.coreX c).busy + 1 } else u) t

/-- The next event tick begins, while the root PLL is locked and the derived clocks run (R38, R52). (DEDUCED, log entry 14.)
(DEDUCED, log entry 103) -/
def State.tick (s : State) : State :=
  if s.bit F.clkStatusRootLock then
    let t := s.endTick.coreClocks.dclkEdges.advanceClocks.dueChanges.tickCounts
    let t := t.issueAll t.nowFu
    let t := (List.range 4).foldl (fun (u : State) q => u.seqActs false q) t
    t.autoResets.seqResetsEnd.updatePanic.refreshCores.sampleCores
  else { s with events := [], startOfTick := s.regs, clk := { s.clk with was := s.was } }

end Sys2Proof.Machine
end

