-- ==== Sys2Proof/Machine/Time.lean ====
section
/-!
DEFINITION. Time.lean: the commands of the station timebase and the time port (08_station_time_and_raisings.md).
-/
namespace Sys2Proof.Machine

/-- A write of SAMPLE_OFFSET (R239 to R242). -/
def execSampleOffset (d : Nat) (theta : Int) (s : State) : Host.Outcome State Fault Refusal :=
  .next (s.submitSample d theta)

/-- A write of TIME.DOM[d].STEP (R245, R247); a follower ignores it (R250). -/
def execDomainStep (d : Nat) (ns : Int) (s : State) : Host.Outcome State Fault Refusal :=
  .next (if s.isFollower then s else s.ask (.step d ns))

/-- INT_CLEAR (R240). -/
def execIntClear (d : Nat) (s : State) : Host.Outcome State Fault Refusal :=
  .next (if s.isFollower then s else s.ask (.clearI d))

/-- A change of TIME.CTRL.SELECT (R243); a follower ignores it (R250). -/
def execDomainSwitch (d : Nat) (s : State) : Host.Outcome State Fault Refusal :=
  .next (if s.isFollower then s else s.ask (.select (d % 2)))

/-- The slewed difference has reached zero (R243): SLEWING reads 0. -/
def execSlewComplete (s : State) : Host.Outcome State Fault Refusal :=
  .next (if s.newClocks.delta = 0 then s.set F.timeStatusSlewing 0 0 0 else s)

/-- No sample has been accepted for HOLD_ET event ticks while ACQUIRING or LOCKED (R242). -/
def execServoHoldover (d : Nat) (s : State) : Host.Outcome State Fault Refusal :=
  let st := s.get F.domStatusState d
  if (st = 1 ∨ st = 2) ∧ s.get F.domLockHoldEt d ≤ s.ticks - (s.servo d).lastAccept then .next (s.enterHoldover d)
  else .next s

/-- DOM[d].STATUS.CLEAR (R239); a follower ignores writes to its domain registers (R250). -/
def execRejectCountClear (d : Nat) (s : State) : Host.Outcome State Fault Refusal :=
  .next (if s.isFollower then s else (s.clear F.domStatusRejectCount d 0).set F.domStatusSaturated d 0 0)

/-- SNAP_SEC[i].LATCH (R256): the time of SOURCE at the present boundary. -/
def State.latch (s : State) (i source : Nat) : State :=
  let src := if 2 < source then 0 else source
  let t := s.clocks.source src
  let d := s.clocks.sourceDom src
  let u := (s.set F.timeSnapSecSeconds 0 i (timeSec t)).set F.timeSnapSecSource 0 i src
  (((u.set F.timeSnapNsNanoseconds 0 i (timeNs t)).set F.timeSnapNsFraction 0 i (timeFrac t)).setBit
    F.timeSnapNsHoldover 0 i (s.holdover d)).set F.timeSnapNsValid 0 i 1

/-- LATCH. -/
def execLatch (i source : Nat) (s : State) : Host.Outcome State Fault Refusal := .next (s.latch i source)

/-- The bytes of a domain clock in a CHECK_A message (R282): seconds, nanoseconds, 32-bit fraction. -/
def domainBytes (t : Int) : List Nat :=
  bytesOf (timeSec t) 6 ++ bytesOf (timeNs t) 4 ++ bytesOf (t % 4294967296).toNat 4

/-- Every 2^20 event ticks, a leader sends a check message: CHECK_A and CHECK_B at one boundary (R249, R282). -/
def execCheckMessageSend (s : State) : Host.Outcome State Fault Refusal :=
  if s.isLeader then
    let b := bytesOf (s.get F.clkEtcountCount) 8
    let z := List.replicate 8 0
    let c := s.clocks
    let t := s.originate 5 2 (z ++ b ++ domainBytes c.dom0 ++ domainBytes c.dom1)
    .next (t.originate 5 3 (z ++ b ++ bytesOf c.add0 4 ++ bytesOf c.add1 4 ++ bytesOf (unsigned 96 c.delta) 12 ++ [c.sel]))
  else .next s

/-- No check message within 2^21 event ticks: the follower leaves lockstep (R251). -/
def execLockstepLost (s : State) : Host.Outcome State Fault Refusal :=
  .next (if s.isFollower ∧ 2097152 ≤ s.ticks - s.time.lastCheck then s.loseLockstep else s)

/-- Offset of the EtherType: behind one optional IEEE 802.1Q tag (R252). -/
def etherOffset (f : List Nat) : Nat := if field f 12 2 = 0x0081 then 16 else 12

/-- The class of a received frame (R252, R322): 0 PTP event, of a messageType of 0 to 3, 1 PTP general, 2 other. Multi-byte fields of a
frame are big-endian on the wire; `field` reads little-endian. -/
def frameClass (f : List Nat) : Nat :=
  let o := etherOffset f
  if field f o 2 = 0xF788 then (if field f (o + 2) 1 % 16 ≤ 3 then 0 else 1)
  else if field f o 2 = 0x0008 ∧ field f (o + 11) 1 = 17 then
    let p := o + 2 + field f (o + 2) 1 % 16 * 4
    let port := field f (p + 2) 1 * 256 + field f (p + 3) 1
    if port = 319 then (if field f (p + 8) 1 % 16 ≤ 3 then 0 else 1) else if port = 320 then 1 else 2
  else 2

/-- The receive address filter (R252). (DEDUCED, log entry 58.) -/
def State.frameWanted (s : State) (f : List Nat) : Bool :=
  let d := f.take 6
  s.bit F.timePortCfgPromisc || decide (ofBytes d = s.get F.timePortMacAddress) || d == [255, 255, 255, 255, 255, 255]
    || d == [1, 0x1B, 0x19, 0, 0, 0] || d == [1, 0x80, 0xC2, 0, 0, 0x0E] || d == [1, 0, 0x5E, 0, 1, 0x81]
    || d == [1, 0, 0x5E, 0, 0, 0x6B]

/-- A MAC PAUSE frame: EtherType 0x8808, opcode 0x0001, tagged or not; discarded (R252). -/
def isPause (f : List Nat) : Bool := decide (field f (etherOffset f) 2 = 0x0888) && decide (field f (etherOffset f + 2) 2 = 0x0100)

/-- A frame arrives on the time port, without its FCS, the bit after its start-of-frame delimiter `ct` core ticks after the present
boundary (R252 to R254, R322): it goes to the oldest descriptor of the TIMERX ring, with its stamp, or is dropped and counted.
With its FCS it has 1,522 bytes at most; the MAC takes no longer one. (DEDUCED, log entry 58.) -/
def execTimeportRx (frame : List Nat) (fcsOk : Bool) (ct : Nat) (s : State) : Host.Outcome State Fault Refusal :=
  let q := s.get F.timePortCfgRxRing
  if s.bit F.timePortCfgEnable = false then .next s
  else
    match s.namedRing 6 0 q 8 false with
    | (ok, t) =>
      if fcsOk = false then .next (t.count F.ringStatusDropped F.ringStatusSaturated q 0 1)
      else if t.frameWanted frame = false ∨ isPause frame ∨ 1518 < frame.length then .next t
      else if ok = false then .next (t.count F.ringStatusDropped F.ringStatusSaturated q 0 1)
      else
        match t.beginRx q with
        | none => .next (t.count F.ringStatusDropped F.ringStatusSaturated q 0 1)
        | some (d, tok, u) =>
          let dom := u.get F.timePortCfgDomain
          let st := u.stampOf ((u.timeActs.clocksIn ct).dom dom - u.get F.timePortLatRxLat * 65536) dom
          let n := st + frame.length % 65536 * 2 ^ 96 + frameClass frame * 2 ^ 112
            + (if field frame 12 2 = 0x0081 then 2 ^ 120 else 0)
          let v := u.hostWrite (.hostBytes (d.w1.toNat / 64 * 64) frame)
          .next (v.complete tok 0 (recWord n 0) (recWord n 1) 0)

/-- The last bit of the oldest time-port frame leaves; the bit after its start-of-frame delimiter left the PCS `ago` core ticks before the
present boundary (R254, R322). -/
def execTimetxComplete (ago : Nat) (s : State) : Host.Outcome State Fault Refusal :=
  match s.time.txQueue with
  | [] => .next s
  | x :: xs =>
    let t := { s with time := { s.time with txQueue := xs } }
    let dom := t.get F.timePortCfgDomain
    let st := if x.stamp then t.stampOf ((t.clocksAt (t.time.ct - ago)).dom dom + t.get F.timePortLatTxLat * 65536) dom else 0
    let n := st + x.len * 2 ^ 96
    .next (t.complete x.tok 0 (recWord n 0) (recWord n 1) 0)

/-- PPS_OUT rises where the time of OUT_SOURCE passes a whole second in the present event tick, with OUT_EN, and stays high for WIDTH µs
(R257). It is low while REF_LOST is set. (DEDUCED, log entry 111.) -/
def execPpsOut (s : State) : Host.Outcome State Fault Refusal :=
  match s.timeActs.ppsEdge (s.get F.timePpsCfgOutSource) with
  | some e =>
    if s.bit F.timePpsCfgOutEn ∧ s.bit F.clkStatusRefLost = false then
      .next (({ s with time := { s.time with ppsFalls := some (s.time.ct + e / 1024 + 1200 * s.get F.timePpsCfgWidth) } }).emit
        (.pps e (s.get F.timePpsCfgOutLat)))
    else .next s
  | none => .next s

/-- A rising edge on PPS_IN, `ct` core ticks after the present boundary (R258): ignored within 0.5 s of an accepted edge. -/
def execPpsIn (ct : Nat) (s : State) : Host.Outcome State Fault Refusal :=
  let now := s.time.ct + ct
  let early : Bool := match s.time.lastPps with
    | some l => decide (now < l + 600000000)
    | none => false
  if s.bit F.timePpsCfgInEn = false ∨ early then .next s
  else
    let src := s.get F.timePpsCfgInSource
    let c := s.timeActs.clocksIn ct
    let t := c.source src
    let d := c.sourceDom src
    let u := (s.set F.timePpsInSecSeconds 0 0 (timeSec t)).set F.timePpsInNsNanoseconds 0 0 (timeNs t)
    let v := ((u.set F.timePpsInNsFraction 0 0 (timeFrac t)).setBit F.timePpsInNsHoldover 0 0 (s.holdover d)).set
      F.timePpsInNsValid 0 0 1
    let w := v.count F.timePpsInNsEdges F.timePpsInNsSaturated 0 0 1
    .next (({ w with time := { w.time with lastPps := some now } }).post 0x0602 0 (s.stampOf t d))

/-- The time port's link comes up or goes down (R252): an enabled port shows it. -/
def execTimePortLink (up : Bool) (s : State) : Host.Outcome State Fault Refusal :=
  .next (s.setBit F.timePortCfgLink 0 0 (up && s.bit F.timePortCfgEnable))

end Sys2Proof.Machine
end

