-- ==== Sys2Proof/Machine/Clock.lean ====
section
/-!
DEFINITION. Clock.lean: the bay assignment (R25 to R28), the reference monitor and tick alignment (R38 to R51), and GPIO edges
(R54, R345, R364).
-/
namespace Sys2Proof.Machine

/-! ### GLOBAL.BAYMAP (R26) -/

/-- A sequencer that a BAYMAP word names for a bay was not STOPPED before the tick (R26, R27). -/
def State.namesRunning (s : State) (v : Word) (b : Nat) : Bool :=
  testBit (bitsOf v 16 8) b && decide (s.seqBefore (bitsOf v 0 16 / 4 ^ b % 4) ≠ 0)

/-- The bits of a bay in a BAYMAP word. -/
def bayField (v : Word) (b : Nat) : Nat × Bool := (bitsOf v 0 16 / 4 ^ b % 4, testBit (bitsOf v 16 8) b)

/-- One bay of a BAYMAP commit: it takes the new value, or keeps its own and is reported in REFUSED; R26 judges the state before the
tick, and has a bay that was in bay reset report its refusal (R462). -/
def State.assignBay (s : State) (v : Word) (src : Src) (b : Nat) : State :=
  let old := s.rd ⟨.globalBaymap, 0, 0⟩
  if bayField v b = bayField old b then s
  else if testBit (s.before F.rasStatusBayResetting) b then s.hwSetBit F.globalBaymapStatusRefused 0 0 b
  else
    s.onObj (.bay b) 4 (srcRank src) (1 + v.toNat % 2 ^ 24) fun t =>
      if t.namesRunning old b ∨ t.namesRunning v b ∨ t.bayBusyBefore b then t.hwSetBit F.globalBaymapStatusRefused 0 0 b
      else
        let w := t.rd ⟨.globalBaymap, 0, 0⟩
        t.wr ⟨.globalBaymap, 0, 0⟩ (withBits (withBits w (2 * b) 2 (bayField v b).1) (16 + b) 1 (bayField v b).2.toNat)

/-- GLOBAL.BAYMAP is written (R26): bay by bay. -/
def State.baymapCommit (s : State) (v : Word) (src : Src) : State :=
  (List.range 8).foldl (fun (t : State) b => t.assignBay v src b) s

/-- BAYMAP_COMMIT. -/
def execBaymapCommit (value : Word) (src : Src) (s : State) : Host.Outcome State Fault Refusal :=
  .next (s.baymapCommit value src)

/-! ### The reference (R38 to R44) -/

/-- The present boundary in core ticks since reset. -/
def State.nowCt (s : State) : Nat := 8 * s.ticks

/-- The root PLL has locked, and the derived clocks run, their boundary on an edge of REFCLK (R36, R38). -/
def execRootLock (s : State) : Host.Outcome State Fault Refusal :=
  .next ({ s with clk := { s.clk with refAt := s.nowCt } }.set F.clkStatusRootLock 0 0 1)

/-- REFCLK edges stop, the last one `ct` core ticks after the present boundary (R39): HOLDOVER at once. While REF_LOST is set, a
brief return has ended (R42). -/
def State.refStops (s : State) (ct : Nat) : State :=
  if s.bit F.clkStatusRefLost then { s with clk := { s.clk with refBack := none } }
  else { s with clk := { s.clk with refLast := some (s.nowCt + ct), refBack := none } }.set F.clkStatusHoldover 0 0 1

/-- REFCLK edges return, the first one `ct` core ticks after the present boundary (R39, R42): a dropout of 4 µs (4,800 ct) or less
ends and is counted. -/
def State.refReturns (s : State) (ct : Nat) : State :=
  let back := s.nowCt + ct
  if s.bit F.clkStatusRefLost then { s with clk := { s.clk with refBack := some back } }
  else if s.bit F.clkStatusHoldover ∧ back ≤ s.clk.refLast.getD back + 4800 then
    ((s.set F.clkStatusHoldover 0 0 0).count F.clkRefmonDropoutCount F.clkRefmonDropoutSaturated 0 0 1)
  else s

/-- REFCLK_DROPOUT: the edges of REFCLK stop, or return. (DEDUCED, log entry 21.) -/
def execRefclkDropout (edge : RefEdge) (s : State) : Host.Outcome State Fault Refusal :=
  .next (if edge.returned then s.refReturns edge.ct else s.refStops edge.ct)

/-- The enabled servos enter HOLDOVER, all at once, so that none is left to switch to (R40, R242, R244); a follower in lockstep leaves
lockstep instead (R251). -/
def State.servosHold (s : State) : State :=
  if s.inLockstep then s.loseLockstep
  else ([0, 1].filter fun d => s.bit F.domCtrlEnable d && decide (s.get F.domStatusState d ≠ 3)).foldl
    (fun (t : State) d => t.servoHold d) s

/-- A REF_LOST stop becomes pending on every sequencer that is not STOPPED (R40). -/
def State.stopAllRefLost (s : State) : State :=
  (List.range 4).foldl (fun (t : State) q => if t.seqState q = 0 then t else t.requestStop q 8 .hw none) s

/-- REFCLK has stopped for more than 4 µs (R40, R41). -/
def execRefLost (s : State) : Host.Outcome State Fault Refusal :=
  if s.bit F.clkStatusRefLost then .next s
  else
    let s := { s with clk := { s.clk with refLast := some (s.clk.refLast.getD (s.nowCt - 4800)), refBack := none } }
    let t := ((s.set F.clkStatusRefLost 0 0 1).set F.clkStatusHoldover 0 0 1).hwSet F.clkStatusRefLostSeen 0 0
    let t := (t.set F.clkStatusTickAligned 0 0 0).count F.clkRefmonLostCount F.clkRefmonLostSaturated 0 0 1
    let t := (t.post 0x0101 0 0).stopAllRefLost
    .next (t.timRefLost.calRefLost.servosHold.ppsLow)

/-- The whole microseconds of a loss, in the held-over root's time: from the last edge before it to the first edge of the continuous
REFCLK that ended it (R42). -/
def State.lossUs (s : State) (back : Nat) : Nat := (back - s.clk.refLast.getD back) / 1200

/-- The root PLL has re-acquired REFCLK, which at `ct` core ticks after the present boundary has been present for 100 µs (R42). -/
def execRefRestored (ct : Nat) (s : State) : Host.Outcome State Fault Refusal :=
  match s.clk.refBack with
  | some back =>
    if s.bit F.clkStatusRefLost ∧ back + 120000 ≤ s.nowCt + ct then
      let t := { s with clk := { s.clk with refLast := none, refBack := none } }
      .next (((t.set F.clkStatusRefLost 0 0 0).set F.clkStatusHoldover 0 0 0).post 0x0102 0 (min 4294967295 (s.lossUs back)))
    else .next s
  | none => .next s

/-- CLK.REFMON.CLEAR (R44). -/
def execRefmonClear (s : State) : Host.Outcome State Fault Refusal :=
  .next ((((s.clear F.clkRefmonDropoutCount 0 0).clear F.clkRefmonLostCount 0 0).set F.clkRefmonDropoutSaturated 0 0 0).set
    F.clkRefmonLostSaturated 0 0 0)

/-- CLK.PREC_STATS.CLEAR. -/
def execPrecStatsClear (s : State) : Host.Outcome State Fault Refusal :=
  .next ((s.clear F.clkPrecStatsSupersededCount 0 0).set F.clkPrecStatsSaturated 0 0 0)

/-! ### Tick alignment (R45 to R51) -/

/-- An arm in align mode is accepted only with every sequencer STOPPED, no bay calibrating and no raising SCHEDULED (R47). -/
def State.alignFree (s : State) : Bool := s.allStopped && decide (s.get F.calStatusBusy = 0) && !s.anyScheduled

/-- CLK.ALIGN.ARM with MODE and SYNC_DRIVE as they stand: ignored while armed. (DEDUCED, log entry 23.) -/
def State.alignArm (s : State) (src : Src) : State :=
  if s.get F.clkStatusAlignState = 1 ∨ s.get F.clkStatusAlignState = 2 then s
  else
    s.onObj .align 4 (srcRank src) 1 fun t =>
      if t.bit F.clkAlignMode ∨ t.alignFree then
        ({ t with clk := { t.clk with driveDue := some t.ticks } }.set F.clkStatusAlignState 0 0 1).set F.clkAlignResultValid 0 0 0
      else t.hwSet F.clkStatusAlignRefused 0 0

/-- CLK.ALIGN.DISARM (R51). -/
def State.alignDisarm (s : State) (src : Src) : State :=
  s.onObj .align 2 (srcRank src) 0 fun t =>
    if t.get F.clkStatusAlignState = 1 ∨ t.get F.clkStatusAlignState = 2 then
      { t with clk := { t.clk with driveDue := none } }.set F.clkStatusAlignState 0 0 0
    else t

/-- ALIGN_ARM: a write of CLK.ALIGN with ARM = 1. -/
def execAlignArm (verify syncDrive : Bool) (src : Src) (s : State) : Host.Outcome State Fault Refusal :=
  .next (((s.setBit F.clkAlignMode 0 0 verify).setBit F.clkAlignSyncDrive 0 0 syncDrive).alignArm src)

/-- ALIGN_DISARM. -/
def execAlignDisarm (src : Src) (s : State) : Host.Outcome State Fault Refusal := .next (s.alignDisarm src)

/-- 1 µs (150 event ticks) after its arm a device with SYNC_DRIVE set drives SYNC_OUT, once (R45); an operation that another SYNC
has moved on does not hold it back. -/
def execSyncDrive (s : State) : Host.Outcome State Fault Refusal :=
  match s.clk.driveDue with
  | some k =>
    if k + 150 ≤ s.ticks ∧ s.bit F.clkAlignSyncDrive then
      .next ({ s with clk := { s.clk with driveDue := none } }.emit .syncPulse)
    else .next s
  | none => .next s

/-- The rising edge of REFCLK in the present event tick, in core ticks since reset: edges are 12 core ticks apart (R36). -/
def State.refEdge (s : State) : Option Nat :=
  let c := s.nowCt + (s.clk.refAt + 12 * s.nowCt - s.nowCt) % 12
  if c < s.nowCt + 8 then some c else none

/-- SYNC is sampled high in an armed device at the rising edge of REFCLK in this tick (R46): class 5. -/
def execSyncCapture (s : State) : Host.Outcome State Fault Refusal :=
  match s.refEdge with
  | some c =>
    .next (if s.get F.clkStatusAlignState = 1 then
        s.onObj .align 5 (srcRank .hw) 1 fun t => { t with clk := { t.clk with capture := c } }.set F.clkStatusAlignState 0 0 2
      else s.discardAt .align 5)
  | none => .next s

/-- The event-tick boundary is moved to the alignment edge, `n` core ticks into the present event tick (R46): that tick ends there,
and the next begins. -/
def State.cutTick (s : State) (n : Nat) : State := if n = 0 then s else s.endTick.passCt n

/-- The alignment edge, the fourth rising edge of REFCLK (48 core ticks) after the capture edge, has come by `ct` core ticks after the
present boundary: in verify mode ETCOUNT and the edge's
core-tick phase within the event tick are reported (R48); in align mode the dividers are set to it, ETCOUNT is loaded and the
converter clock is re-phased (R46). CLK.ALIGN.MODE is obeyed as it stands at this edge: R43 and R46 do not say when it is
sampled. (DESIGN CHOICE, log entry 23.) -/
def execAlignmentEdge (ct : Nat) (s : State) : Host.Outcome State Fault Refusal :=
  let edge := s.clk.capture + 48
  if s.get F.clkStatusAlignState = 2 ∧ edge ≤ s.nowCt + ct then
    let t := s.set F.clkStatusAlignState 0 0 3
    if s.bit F.clkAlignMode then
      .next (((t.set F.clkAlignResultEtcountLow 0 0 (s.get F.clkEtcountCount)).set F.clkAlignResultPhase 0 0 (edge % 8)).set
        F.clkAlignResultValid 0 0 1)
    else
      let u := t.cutTick (edge % 8)
      .next (({ u with clk := { u.clk with refAt := u.nowCt } }.set F.clkEtcountCount 0 0
        (s.get F.clkAlignLoadValue)).adcRephase.set F.clkStatusTickAligned 0 0 1)
  else .next s

/-! ### GPIO (R54, R345, R364, R495) -/

/-- DISP.GPIO_ROUTE selects an edge: 0 rising, 1 falling, 2 both. -/
def edgeSelected (sel : Nat) (rose fell : Bool) : Bool :=
  if sel = 0 then rose else if sel = 1 then fell else rose || fell

/-- An edge routed to an event flag (R345). -/
def State.gpioRoute (s : State) (pin : Nat) (rose fell : Bool) : State :=
  if s.bit F.dispGpioRouteEn 0 pin ∧ edgeSelected (s.get F.dispGpioRouteEdge 0 pin) rose fell then
    s.setFlags (s.get F.dispGpioRouteThread 0 pin) (2 ^ s.get F.dispGpioRouteFlag 0 pin) (.pin pin)
  else s

/-- An edge is a sequence trigger of the bays whose TRIG_SRC in force is 2 and whose TRIG_GPIO is this one (R364). -/
def State.gpioTrigger (s : State) (pin : Nat) (edge : Bool) : State :=
  (List.range 8).foldl (fun (t : State) b =>
    let x := t.adc b
    if edge ∧ x.get F.bayAdcCfgTrigSrc b = 2 ∧ x.get F.bayAdcCfgTrigGpio b = pin then t.seqTrigger b (.pin pin) else t) s

/-- What R54 delivers at a boundary for a GPIO: its level, and whether it rose or fell since the boundary before.
(DEDUCED, log entry 102.) -/
def execGpioEdge (pin : Nat) (level rose fell : Bool) (s : State) : Host.Outcome State Fault Refusal :=
  .next (((s.putMask F.globalGpioInLevel 0 0 pin level).gpioRoute pin rose fell).gpioTrigger pin (rose || fell))

end Sys2Proof.Machine
end

