-- ==== Sys2Proof/Machine/Dram.lean ====
section
/-!
DEFINITION. Dram.lean: the commands of the local DRAM controller (15_dram_controller.md). What the devices answer (mode
registers, mismatches, levelling samples, errors) are operands.
-/
namespace Sys2Proof.Machine

/-! ### Enable and training (R416 to R420) -/

/-- DRM.CTRL.ENABLE = 1 (R416): the initialisation sequence starts. -/
def execDramEnable (s : State) : Host.Outcome State Fault Refusal :=
  .next (if s.bit F.drmCtrlEnable then s else (s.set F.drmCtrlEnable 0 0 1).set F.drmInfoState 0 0 1)

/-- Any populated channel is in training mode. -/
def State.anyTraining (s : State) : Bool := s.mchs.any fun m => s.bit F.mchCtrlTrain m

/-- STATE follows the TRAIN bits of the populated channels; FRAMES is valid from READY (R416). -/
def State.dramState (s : State) : State :=
  if s.get F.drmInfoState = 2 ∨ s.get F.drmInfoState = 3 then
    if s.anyTraining then s.set F.drmInfoState 0 0 2
    else (s.set F.drmInfoState 0 0 3).set F.drmInfoFrames 0 0 s.installedFrames
  else s

/-- The power-up sequence completes: every populated channel waits in training mode (R416). -/
def execDramInitDone (s : State) : Host.Outcome State Fault Refusal :=
  .next (if s.get F.drmInfoState = 1 then
      s.mchs.foldl (fun (t : State) m => t.set F.mchCtrlTrain m 0 1)
        ({ s with dram := { s.dram with
            refreshed := (List.range 4).map fun k => (k, s.ticks), polled := s.ticks } }.set F.drmInfoState 0 0 2)
    else s)

/-- A disable is accepted (R417). -/
def State.disableOk (s : State) : Bool :=
  s.allStopped && s.page.loads.isEmpty && !((List.range 4).any fun i => s.bit F.oluBulkCtrlBusy 0 i) && s.olu.bulkRx.isEmpty
    && (List.range 4).all (fun q => !s.bit F.seqLogCfgEnable q && !s.bit F.seqCapCfgEnable q)
    && (List.range 8).all fun b => !s.bit F.bayAcqRingEnable b

/-- Every resident page returns to HOST with its frame freed (R417). -/
def State.returnPages (s : State) : State :=
  ((s.page.table.filter fun e => e.2.resident).map (·.1)).foldl (fun (t : State) g =>
    (t.setEntry g { (t.entry g) with state := 1, frame := 0 }).selfRequest g) s

/-- An accepted disable (R417): the contents of local DRAM and of its devices' registers are lost. -/
def State.dramDisable (s : State) : State :=
  let t := { s.returnPages with
    mem := []
    dram := { s.dram with poison := [], modeRegs := [], postponed := [], fast := [], waitRanks := [], low := [] } }
  let u := (List.range 4).foldl (fun (u : State) q =>
    let x := u.seqX q
    u.setSeqX q { x with targets := [], fill := { x.fill with cache := [] } }) t
  let v := (((u.set F.drmCtrlEnable 0 0 0).set F.drmInfoState 0 0 0).set F.drmInfoFrames 0 0 0).set F.drmInfoSrState 0 0 0
  ((v.set F.mchDlyApplyPending 0 0 0).set F.mchDlyApplyPending 1 0 0).updatePanic.emit .memReset

/-- DRM.CTRL.ENABLE = 0. -/
def execDramDisable (s : State) : Host.Outcome State Fault Refusal :=
  .next (if s.bit F.drmCtrlEnable = false then s
    else if s.disableOk then s.dramDisable
    else s.hwSet F.drmInfoDisableRefused 0 0)

/-- A write of MCH[m].CTRL.TRAIN (R416): training mode is entered only while every sequencer is STOPPED. -/
def State.writeTrain (s : State) (m : Nat) (v : Bool) : State :=
  if v ∧ s.allStopped = false then s.hwSet F.mchCtrlTrainRefused m 0 else (s.setBit F.mchCtrlTrain m 0 v).dramState

/-- TRAIN. -/
def execTrain (m : Nat) (v : Bool) (s : State) : Host.Outcome State Fault Refusal := .next (s.writeTrain m v)

/-- The channel is in training mode: its controller has been initialised and TRAIN is 1. -/
def State.inTraining (s : State) (m : Nat) : Bool :=
  s.bit F.mchCtrlTrain m && decide (2 ≤ s.get F.drmInfoState)

/-- DLY_APPLY.APPLY (R419): at once in training mode, else at the next refresh of every rank. -/
def State.apply (s : State) (m : Nat) : State :=
  if s.inTraining m then s.transferDelays m
  else
    ({ s with dram := { s.dram with
        waitRanks := putUnit [] s.dram.waitRanks m (List.range (1 + s.get F.drmOrgRanks)) } }).set F.mchDlyApplyPending m 0 1

/-- APPLY. -/
def execApply (m : Nat) (s : State) : Host.Outcome State Fault Refusal := .next (s.apply m)

/-- A TRAIN_CMD operation ends: DONE, and whether it was refused. -/
def State.trainDone (s : State) (m : Nat) (refused : Bool) : State :=
  (s.set F.mchTrainResDone m 0 1).setBit F.mchTrainResRefused m 0 refused

/-- The key of a mode register. -/
def State.modeKey (s : State) (m : Nat) : Nat :=
  ((m * 2 + s.get F.mchTrainCmdSub m) * 2 + s.get F.mchTrainCmdRank m) * 256 + s.get F.mchTrainCmdMrAddr m

/-- MRW (R420): refused outside training mode. -/
def State.mrw (s : State) (m : Nat) : State :=
  if s.inTraining m then
    ({ s with dram := { s.dram with
        modeRegs := putUnit 256 s.dram.modeRegs (s.modeKey m) (s.get F.mchTrainCmdMrData m) } }).trainDone m false
  else s.trainDone m true

/-- MRW. -/
def execMrw (m : Nat) (s : State) : Host.Outcome State Fault Refusal := .next (s.mrw m)

/-- MRR (R420): a mode register that MRW has written; of another, `data` is what the devices answer. -/
def execMrr (m data : Nat) (s : State) : Host.Outcome State Fault Refusal :=
  .next (if s.inTraining m then
      (s.set F.mchTrainResMrData m 0 (if unitAt 256 s.dram.modeRegs (s.modeKey m) = 256 then data else unitAt 256 s.dram.modeRegs (s.modeKey m))).trainDone m false
    else s.trainDone m true)

/-- A compare can run: in training mode, or as a PORT_CORE request of a READY controller (R418, R420). -/
def State.canCompare (s : State) (m : Nat) : Bool := s.inTraining m || s.dramReady

/-- READ_CMP (R420): `failbits` are the mismatches of any repetition. -/
def State.readCmp (s : State) (m failbits : Nat) : State :=
  if s.canCompare m then
    let t := if s.inTraining m then s else s.portRequest
    (t.set F.mchTrainResFailbits m 0 failbits).trainDone m false
  else s

/-- READ_CMP. -/
def execReadCmp (m failbits : Nat) (s : State) : Host.Outcome State Fault Refusal := .next (s.readCmp m failbits)

/-- The 64 bytes of the training pattern: a word on two beats, inverted on the odd one (R420, R430). -/
def trainBurst (pat : Nat) : List Nat :=
  (List.range 8).flatMap fun _ => bytesOf (pat % 2 ^ 32) 4 ++ bytesOf (2 ^ 32 - 1 - pat / 2 ^ 32 % 2 ^ 32) 4

/-- WRITE_READ_CMP (R420): writes the burst at TRAIN_ADDR, then compares. In training mode FRAMES may still be 0: the burst
goes to the installed devices. -/
def State.writeReadCmp (s : State) (m failbits : Nat) : State :=
  if s.canCompare m then
    let a := s.get F.mchTrainAddrAddress m / 64 * 64
    let b := trainBurst (s.get F.mchTrainPatPattern m)
    let t := if s.inTraining m then (if a + 64 ≤ s.installedFrames * 67108864 then s.putBytes a b else s.outOfRange)
      else s.dramWrite a b
    (t.set F.mchTrainResFailbits m 0 failbits).trainDone m false
  else s

/-- WRITE_READ_CMP. -/
def execWriteReadCmp (m failbits : Nat) (s : State) : Host.Outcome State Fault Refusal :=
  .next (s.writeReadCmp m failbits)

/-- WLEVEL (R420): `bits` are the lane bits that sample CK high. -/
def execWlevel (m bits : Nat) (s : State) : Host.Outcome State Fault Refusal :=
  .next (if s.inTraining m then (s.set F.mchTrainResFailbits m 0 bits).trainDone m false else s.trainDone m true)

/-! ### Refresh and scrub (R427 to R432) -/

/-- Refresh runs on rank `r` of MCH[m]: it is populated, initialised and not in self-refresh. -/
def State.refreshes (s : State) (m r : Nat) : Bool :=
  s.mchs.contains m && decide (r ≤ s.get F.drmOrgRanks) && decide (2 ≤ s.get F.drmInfoState)
    && decide (s.get F.drmInfoSrState = 0)

/-- The refresh interval of rank `r` of MCH[m], in DRAM clocks: halved by FGR, and while the rank reports a requirement above 1x (R427,
R428). -/
def State.refreshInterval (s : State) (m r : Nat) : Nat :=
  s.get F.mchTimingBTrefi m / (if s.bit F.mchCtrlFgr m then 2 else 1) / (if s.dram.fast.contains (2 * m + r) then 2 else 1)

/-- The refresh interval of a rank has expired; an event tick is 64/3 DRAM clocks. -/
def State.refreshDue (s : State) (m r : Nat) : Bool :=
  decide (3 * s.refreshInterval m r ≤ 64 * (s.ticks - unitAt 0 s.dram.refreshed (2 * m + r)))

/-- A refresh falls due: issued, or postponed under PANIC up to POST_MAX (R427, R429). (DEDUCED, log entry 85.) -/
def State.refresh (s0 : State) (m r : Nat) : State :=
  let s := { s0 with dram := { s0.dram with refreshed := putUnit 0 s0.dram.refreshed (2 * m + r) s0.ticks } }
  let n := unitAt 0 s.dram.postponed (2 * m + r)
  if s.refreshes m r = false then s0
  else if s0.refreshDue m r = false then s0
  else if s.bit F.drmPanicPanic ∧ n < s.get F.mchCtrlPostMax m then
    { s with dram := { s.dram with postponed := putUnit 0 s.dram.postponed (2 * m + r) (n + 1) } }
  else s.refreshRank m r

/-- REFRESH. -/
def execRefresh (m r : Nat) (s : State) : Host.Outcome State Fault Refusal := .next (s.refresh m r)

/-- MR4 of every rank is read every 32 ms (R428): `fast` names the ranks, 2·m + r, that ask for more than 1x. -/
def execMr4Poll (fast : List Nat) (s : State) : Host.Outcome State Fault Refusal :=
  .next (if s.dram.polled + 4800000 ≤ s.ticks ∧ 2 ≤ s.get F.drmInfoState then
      { s with dram := { s.dram with fast := fast.filter fun k => s.refreshes (k / 2) (k % 2), polled := s.ticks } }
    else s)

/-- A corrected word is counted and recorded; a recorded uncorrectable error stands (R430, R432). -/
def State.recordCe (s : State) (w : Nat) : State :=
  let m := s.mchOf (8 * w)
  let t := s.count F.mchEccStatCeCount F.mchEccStatCeSaturated m 0 1
  if t.bit F.mchEccAddrValid m ∧ t.bit F.mchEccAddrUe m then t
  else
    (((t.set F.mchEccAddrAddress m 0 (8 * w)).set F.mchEccAddrUe m 0 0).set F.mchEccAddrScrub m 0 1).set F.mchEccAddrValid m 0 1

/-- Patrol scrub reads the next word, in ascending order (R432): `err` 0 none, 1 corrected, 2 uncorrectable.
(DESIGN CHOICE, log entry 86.) -/
def State.scrub (s0 : State) (err : Nat) : State :=
  let w := if 8 * s0.dram.scrubAt < s0.dramEnd then s0.dram.scrubAt else 0
  let s := { s0 with dram := { s0.dram with scrubAt := w + 1 } }
  if s.bit F.drmScrubEn = false ∨ s.dramReady = false ∨ s.get F.drmInfoSrState ≠ 0 then s0
  else
    if err = 2 ∨ w ∈ s.dram.poison then
      ({ s with dram := { s.dram with poison := if w ∈ s.dram.poison then s.dram.poison else w :: s.dram.poison } }).recordUe w 2
    else if err = 1 then s.recordCe w
    else s

/-- PATROL_SCRUB: what the check of the word finds. -/
def execPatrolScrub (corrected uncorrectable : Bool) (s : State) : Host.Outcome State Fault Refusal :=
  .next (s.scrub (if uncorrectable then 2 else corrected.toNat))

/-! ### Self-refresh (R433 to R435) -/

/-- Self-refresh may be entered (R433). -/
def State.srOk (s : State) : Bool :=
  s.allStopped && s.dramReady && !s.anyTraining && !(s.mchs.any fun m => s.bit F.mchDlyApplyPending m)

/-- Self-refresh is entered. -/
def State.srEnter (s : State) : State :=
  ({ s with dram := { s.dram with srSince := s.ticks } }).set F.drmInfoSrState 0 0 2 |>.count
    F.drmSrEntries F.drmSrSaturated 0 0 1

/-- DRM.CTRL.SR_ENTER. -/
def execSrEnter (s : State) : Host.Outcome State Fault Refusal :=
  .next (if s.srOk = false then s.hwSet F.drmSrRefused 0 0
    else if s.get F.drmInfoSrState = 0 then s.srEnter
    else s)

/-- SR.IDLE_ET event ticks have passed with no port request (R433). -/
def execAutoSelfRefresh (s : State) : Host.Outcome State Fault Refusal :=
  .next (if s.bit F.drmCtrlAutoSr ∧ s.srOk ∧ s.get F.drmInfoSrState = 0
      ∧ s.dram.lastReq + s.get F.drmSrIdleEt ≤ s.ticks then s.srEnter else s)

/-- DRM.CTRL.SR_EXIT (R434). -/
def execSrExit (s : State) : Host.Outcome State Fault Refusal := .next (s.srExit 2)

/-! ### Clears -/

/-- DRM.INFO.CLEAR (R415). -/
def execOutOfRangeClear (s : State) : Host.Outcome State Fault Refusal :=
  .next ((s.clear F.drmInfoOutOfRange 0 0).set F.drmInfoSaturated 0 0 0)

/-- DRM.PANIC.CLEAR (R425). -/
def execPanicClear (s : State) : Host.Outcome State Fault Refusal :=
  .next ((s.clear F.drmPanicCount 0 0).set F.drmPanicSaturated 0 0 0)

/-- DRM.SR.CLEAR (R433). -/
def execSrClear (s : State) : Host.Outcome State Fault Refusal :=
  .next ((s.clear F.drmSrEntries 0 0).set F.drmSrSaturated 0 0 0)

/-- MCH[m].ECC_STAT.CLEAR: the counts and ECC_ADDR (R432). -/
def execEccStatClear (m : Nat) (s : State) : Host.Outcome State Fault Refusal :=
  .next (((((s.clear F.mchEccStatCeCount m 0).clear F.mchEccStatUeCount m 0).set F.mchEccStatCeSaturated m 0 0).set
    F.mchEccStatUeSaturated m 0 0).wr ⟨.mchEccAddr, m, 0⟩ 0)

end Sys2Proof.Machine
end

