-- ==== Sys2Proof/Machine/Fe.lean ====
section
/-!
DEFINITION. Fe.lean: the commands of the front-end masters (18_package_pins_and_electrical.md, R487 to R491).
-/
namespace Sys2Proof.Machine

/-- FE_CTRL.START (R490). -/
def execFeStart (b list : Nat) (s : State) : Host.Outcome State Fault Refusal := .next (s.feRequest b list false)

/-- FE_CTRL.ABORT (R490). -/
def execFeAbort (b : Nat) (s : State) : Host.Outcome State Fault Refusal := .next (s.feAbort b)

/-- The WRITE in progress has shifted its bits out by the next boundary, and `miso` in (R487 to R489). -/
def execFeWrite (b miso : Nat) (s : State) : Host.Outcome State Fault Refusal :=
  let w := s.feWord b
  if s.feDue b 1 ∧ s.feWriteEnd b w < 2 * s.ticks + 2 then
    let cs := w / 2 ^ 59 % 2
    let e := s.feWriteEnd b w
    let mode := if cs = 0 then s.get F.bayFeCfgModeA b else s.get F.bayFeCfgModeB b
    let t := s.emit (.spi b cs mode (s.feDiv b) (feBits w) (w % 2 ^ 48 % 2 ^ feBits w) (s.feEdge b w))
    let i := w / 2 ^ 54 % 8
    let u := if testBit w 57 then (t.set F.bayFeRxData b i (miso % 2 ^ feBits w)).set F.bayFeRxValid b i 1 else t
    let x := u.fe b
    let v := if testBit w 58 then u.setFe b { x with held := some cs }
      else u.setFe b { x with held := none, csFree := e + s.get F.bayFeCfgCsGap b * s.feDiv b }
    .next (v.feNext b e)
  else .next s

/-- A DELAY begins (R489). -/
def execFeDelay (b : Nat) (s : State) : Host.Outcome State Fault Refusal :=
  if s.feDue b 2 then
    let x := s.fe b
    .next (s.setFe b { x with begun := true, wait := some ((x.at_ + 1) / 2 + s.feWord b % 2 ^ 32) })
  else .next s

/-- The count of a DELAY expires, and the list resumes (R489). -/
def execFeDelayExpiry (b : Nat) (s : State) : Host.Outcome State Fault Refusal :=
  let x := s.fe b
  match x.wait with
  | some k => if s.feRuns b ∧ x.begun ∧ feOp (s.feWord b) = 2 ∧ k ≤ s.ticks then .next (s.feNext b (2 * k)) else .next s
  | none => .next s

/-- A WAITALERT begins; the list resumes at the first boundary at which FE_ALERT_N is low (R489). -/
def execWaitalert (b : Nat) (s : State) : Host.Outcome State Fault Refusal :=
  let x := s.fe b
  if s.feDue b 3 ∧ x.at_ ≤ 2 * s.ticks then
    if s.bit F.bayFeStatAlert b then .next (s.feNext b (2 * s.ticks))
    else
      let n := s.feWord b % 2 ^ 32
      .next (s.setFe b { x with begun := true, wait := if n = 0 then none else some ((x.at_ + 1) / 2 + n) })
  else .next s

/-- The TIMEOUT of a WAITALERT passes: the list ends (R489). -/
def execFeTimeout (b : Nat) (s : State) : Host.Outcome State Fault Refusal :=
  let x := s.fe b
  match x.wait with
  | some k =>
    if s.feRuns b ∧ x.begun ∧ feOp (s.feWord b) = 3 ∧ k ≤ s.ticks then
      .next (((s.hwSet F.bayFeStatTimeout b 0).post 0x0F02 b (s.get F.bayFeStatList b + x.word * 256)).feEnd b)
    else .next s
  | none => .next s

/-- The list ends at an END, or after word 31 (R489). -/
def execFeListEnd (b : Nat) (s : State) : Host.Outcome State Fault Refusal :=
  .next (if s.feRuns b ∧ (s.feDue b 0 ∨ 32 ≤ (s.fe b).word) then s.feEnd b else s)

/-- A boundary delivers FE_ALERT_N under R54: its level (`low`), and a falling edge (`fell`) (R489, R491).
(DEDUCED, log entry 101.) -/
def execFeAlert (b : Nat) (low fell : Bool) (s : State) : Host.Outcome State Fault Refusal :=
  let t := s.setBit F.bayFeStatAlert b 0 low
  let u :=
    if fell then
      let v := t.hwSet F.bayFeStatAlertSeen b 0
      let w := if v.bit F.bayFeCfgAlertEvent b then v.post 0x0F01 b 0 else v
      if w.bit F.bayFeCfgAlertFlagEn b then
        w.setFlags (w.get F.bayFeCfgAlertThread b) (2 ^ w.get F.bayFeCfgAlertFlag b) (.pin (32 + b))
      else w
    else t
  .next (if low ∧ u.feRuns b ∧ (u.fe b).begun ∧ feOp (u.feWord b) = 3 then u.feNext b (2 * u.ticks) else u)

/-- WORD of FE_LSEL advances after an access to FE_LDATA, wrapping at 31. -/
def State.feAutoinc (s : State) (b : Nat) : State :=
  if s.bit F.bayFeLselAutoinc b then s.set F.bayFeLselWord b 0 ((s.get F.bayFeLselWord b + 1) % 32) else s

/-- A write of FE_LDATA: ignored, with LIST_BUSY, for a list that the master is running (R488, R491). -/
def execFeLdataWrite (b : Nat) (data : Word) (s : State) : Host.Outcome State Fault Refusal :=
  let l := s.get F.bayFeLselList b
  let t := if s.feListBusy b l then s.hwSet F.bayFeStatListBusy b 0
    else s.fePut b [(32 * l + s.get F.bayFeLselWord b, data.toNat)]
  .next (t.feAutoinc b)

/-- FE_STAT.CLEAR. -/
def execFeStatClear (b : Nat) (s : State) : Host.Outcome State Fault Refusal :=
  .next ((s.clear F.bayFeStatOverrun b 0).set F.bayFeStatSaturated b 0 0)

end Sys2Proof.Machine
end

