-- ==== Sys2Proof/Machine/Link.lean ====
section
/-!
DEFINITION. Link.lean: the commands of the Oluel ports, the global flags and BULK transfers
(09_oluel_peer_links.md, R267 to R294).
-/
namespace Sys2Proof.Machine

/-! ### Training and link state -/

/-- ENABLE = 1: attempt 1 begins (R273). -/
def State.oluEnableOp (s : State) (p : Nat) : State :=
  if s.bit F.olupCtrlEnable p then s
  else
    let t := (((s.set F.olupCtrlEnable p 0 1).set F.olupStatusState p 0 1).set F.olupStatusAttempts p 0 0).set
      F.olupStatusLinkAbsent p 0 0
    t.setPortX p { (t.portX p) with attemptStart := t.ticks, aligned := false }

/-- OLU_ENABLE. -/
def execOluEnable (p : Nat) (s : State) : Host.Outcome State Fault Refusal := .next (s.oluEnableOp p)

/-- ENABLE = 0: DISABLED, with the lanes in electrical idle; queued and unacknowledged frames are discarded and counted, what the port
would have reported in this tick is not reported, and transfers over the port end (R277, R288). -/
def State.oluDisableOp (s : State) (p : Nat) : State :=
  let t := (s.dropBuffers p true).set F.olupCtrlEnable p 0 0
  let u := ((t.set F.olupStatusState p 0 0).set F.olupStatusTxAsleep p 0 0).set F.olupStatusRxAsleep p 0 0
  ((u.setPortX p {}).emit (.oluIdle p)).bulkAbort p

/-- OLU_DISABLE. -/
def execOluDisable (p : Nat) (s : State) : Host.Outcome State Fault Refusal := .next (s.oluDisableOp p)

/-- RETRAIN on an ACTIVE port acts as a link-down (R277). -/
def execRetrain (p : Nat) (s : State) : Host.Outcome State Fault Refusal :=
  .next (if s.linkActive p then s.linkDown p else s)

/-- A wait ends and a new attempt begins (R274). -/
def execTrainingAttempt (p : Nat) (s : State) : Host.Outcome State Fault Refusal :=
  if s.get F.olupStatusState p = 6 ∧ (s.portX p).waitUntil ≤ s.ticks then
    .next ((s.set F.olupStatusState p 0 1).setPortX p { (s.portX p) with attemptStart := s.ticks, aligned := false })
  else .next s

/-- One millisecond in event ticks. -/
def msTicks : Nat := 150000

/-- The port is in an attempt: DETECT, EQUALISE, ALIGN or CONFIG. (DEDUCED, log entry 60.) -/
def State.training (s : State) (p : Nat) : Bool :=
  decide (1 ≤ s.get F.olupStatusState p) && decide (s.get F.olupStatusState p ≤ 4)

/-- The attempt of OLU[p] is within its 50 ms (R273, R274). -/
def State.inTime (s : State) (p : Nat) : Bool := decide (s.ticks - (s.portX p).attemptStart ≤ 50 * msTicks)

/-- What a retraining that does not succeed loses: the frames of the retry buffer, and the transfers through the port (R276, R288). -/
def State.lostLink (s : State) (p : Nat) : State :=
  let t := s.dropBuffers p false
  (t.setPortX p { (t.portX p) with bufferPartner := none }).bulkAbort p

/-- A training attempt fails (R274): 2^(n−1) ms of WAIT after failures 1 to 7, LINK_ABSENT after the eighth, and from then
on an attempt 1,000 ms after the eighth failure and after the start of each later attempt. -/
def State.trainingFail (s : State) (p : Nat) : State :=
  let x := s.portX p
  let n := s.get F.olupStatusAttempts p + 1
  let t := ((s.lostLink p).set F.olupStatusState p 0 6).set F.olupStatusAttempts p 0 (min 8 n)
  let wait := if n ≤ 7 then s.ticks + 2 ^ (n - 1) * msTicks
    else if n = 8 then s.ticks + 1000 * msTicks else x.attemptStart + 1000 * msTicks
  let u := t.setPortX p { (t.portX p) with waitUntil := wait }
  if n = 8 then (u.set F.olupStatusLinkAbsent p 0 1).post 0x0703 p 0 else u

/-- TRAINING_FAIL: the limit has passed, signal is lost, or the partner is back in DETECT (R274). -/
def execTrainingFail (p : Nat) (s : State) : Host.Outcome State Fault Refusal :=
  .next (if s.training p then s.trainingFail p else s)

/-- The coefficients that adaptation finds for the four lanes (R269): the spec gives no value, so free ones. (DESIGN CHOICE, log entry 5.) -/
def State.fourFree (s : State) : List Nat := (List.range 4).map fun l => Config.freeValue (s.free + l)

/-- The receive equalisers of a port adapt (R269). -/
def State.adapt (s : State) (p : Nat) : State :=
  { s.setPortX p { (s.portX p) with rxCoef := s.fourFree } with free := s.free + 4 }

/-- The transmit equalisers take what the partner's receiver has requested (R269). -/
def State.adaptTx (s : State) (p : Nat) : State :=
  { s.setPortX p { (s.portX p) with txCoef := s.fourFree } with free := s.free + 4 }

/-- Both partners reach the exit condition of DETECT, EQUALISE or ALIGN (R273): DETECT finds the polarity of the receive lanes (R267),
EQUALISE has adapted the equalisers (R269), ALIGN ends only with the four lanes aligned (R271). An attempt beyond its 50 ms has
failed instead (R274). -/
def execTrainingStateExit (e : PortExit) (s : State) : Host.Outcome State Fault Refusal :=
  let p := e.port
  let st := s.get F.olupStatusState p
  .next (
    if st = 0 ∨ 3 < st then s
    else if s.inTime p = false then s.trainingFail p
    else if st = 3 ∧ (s.portX p).aligned = false then s
    else
      let t := if st = 1 then s.setPortX p { (s.portX p) with inverted := e.inverted }
        else if st = 2 then (s.adapt p).adaptTx p else s
      t.set F.olupStatusState p 0 (st + 1))

/-- Twice the cable's one-way delay, in ps, by the echo frames of CONFIG, each with its round trip and the partner's turnaround: the
largest difference, less both pipelines of the device (R292). -/
def twoWayDelay (echoes : List (Nat × Nat)) : Nat :=
  echoes.foldl (fun m e => max m (e.1 - e.2)) 0 - 2 * Config.linkPipelines

/-- HOP_LAT for a cable of `ps` picoseconds both ways: ceil((38 ns + delay) / ct), at most 4,095 (R292). -/
def hopLat (ps : Nat) : Nat := min 4095 (((76000 + ps) * 6 + 9999) / 10000)

/-- The frames of class `c` in a retry buffer. -/
def classCount (c : Nat) (l : List (Frame × Option Token)) : Nat := (l.filter fun e => e.1.cls == c).length

/-- The link is ACTIVE (R273, R276, R281): with the same partner the retry buffer is kept and resent, else it is discarded and numbering
begins anew. The grants are new; the frames of the retry buffer have used theirs. (DEDUCED, log entry 114.) -/
def State.linkUp (s : State) (p partner hop : Nat) : State :=
  let same := decide ((s.portX p).bufferPartner = some partner)
  let s1 := if same then s else s.lostLink p
  let t := (((((s1.set F.olupStatusState p 0 5).set F.olupStatusAttempts p 0 0).set F.olupStatusLinkAbsent p 0 0).set
    F.olupStatusPartnerId p 0 partner).set F.olupStatusHopLat p 0 hop).set F.calOluEyeValid 0 p 0
  let x := t.portX p
  let u := { t.setPortX p { x with
    bufferPartner := some partner
    txSeq := if same then x.txSeq else 0
    rxExpect := if same then x.rxExpect else 0
    rxAny := same && x.rxAny
    again := x.retry.length
    nakSent := false, nakOwed := false, linkOwed := false, ackOwed := none, resends := 0, ackTick := t.ticks
    creditRaise := 8 - classCount 2 x.retry, creditMail := 64 - classCount 3 x.retry
    creditBulk := 256 - classCount 4 x.retry
    owedRaise := 0, owedMail := 0, owedBulk := 0, lastSent := t.ticks, elastic := 0
    line := { lanes := t.fourFree.map fun n => { scr := n % 2 ^ 58 } } } with free := t.free + 4 }
  u.report p 0x0701 hop

/-- A training attempt completes CONFIG (R273 to R276, R292): a partner with this device's chip ID is a CONFLICT, in which the attempt
does not succeed; an attempt beyond its 50 ms has failed instead. -/
def execLinkUp (p partner : Nat) (echoes : List (Nat × Nat)) (s : State) : Host.Outcome State Fault Refusal :=
  .next (
    if s.get F.olupStatusState p ≠ 4 then s
    else if s.inTime p = false then s.trainingFail p
    else if partner = s.get F.oluChipId then
      (((s.lostLink p).set F.olupStatusState p 0 7).set F.olupStatusPartnerId p 0 partner).post 0x0704 p 0
    else s.linkUp p partner (hopLat (twoWayDelay echoes)))

/-- What takes an ACTIVE link down (R276): 16 invalid blocks among 64 consecutive blocks of a lane, loss of signal on a lane that is not
asleep (R294), loss of alignment. -/
def State.loses (s : State) (p : Nat) : LinkLoss → Bool
  | .blocks _ w => decide (16 ≤ ((w.take 64).filter invalidBlock).length)
  | .signal _ => !s.bit F.olupStatusRxAsleep p
  | .alignment => true

/-- LINK_DOWN (R276). -/
def execLinkDown (e : PortLoss) (s : State) : Host.Outcome State Fault Refusal :=
  .next (if s.linkActive e.port ∧ s.loses e.port e.loss then s.linkDown e.port else s)

/-- 2 µs (300 event ticks) without progress: every unacknowledged frame is resent (R280). -/
def execRetryTimeout (p : Nat) (s : State) : Host.Outcome State Fault Refusal :=
  .next (if s.linkActive p ∧ (s.portX p).retry ≠ [] ∧ 300 ≤ s.ticks - (s.portX p).ackTick then s.resend p else s)

/-- A LINK frame is to acknowledge what has been received, or to return the credits of buffers that have been freed (R280, R281): it takes
the next slot that no frame wants, or one behind a wake (R293). -/
def execAckLinkFrame (p : Nat) (s : State) : Host.Outcome State Fault Refusal :=
  let x := s.portX p
  .next (if s.linkActive p ∧ (x.ackOwed.isSome ∨ x.creditReturn ≠ (0, 0)) then s.setPortX p { x with linkOwed := true } else s)

/-- A frame whose CRC fails (R279, R280): it is discarded with its header, CRC_ERR counts, and one NAK is sent. -/
def execCrcErr (b : PortBytes) (s : State) : Host.Outcome State Fault Refusal :=
  .next (if s.linkActive b.port ∧ (frameOf b.raw).isNone then s.badFrame b.port else s)

/-- What rate matching does at a marker group to a buffer that is fuller by `n` blocks than at the link-up: FILLER blocks are deleted, or
inserted for a negative `n`, in pairs and at most 14 (R272). -/
def rateMatch (n : Int) : Int := max (-14) (min 14 (n / 2 * 2))

/-- A marker group arrives (R271, R272): a parity mismatch counts BIP_ERR; rate matching deletes or inserts FILLER; in ALIGN the lanes are aligned, unless the skew is
more than 16; on an ACTIVE link that is a loss of alignment, and else its awake receive lanes adapt (R269). -/
def execMarkerGroup (p : Nat) (parityOk : Bool) (timing : GroupTiming) (s : State) : Host.Outcome State Fault Refusal :=
  if s.get F.olupStatusState p = 3 ∨ s.linkActive p then
    let t := if parityOk then s else s.count F.olupErrStatBipErr F.olupErrStatBipSaturated p 0 1
    let x := t.portX p
    let n := x.elastic + timing.drift
    let u := t.setPortX p { x with elastic := n - rateMatch n, aligned := decide (timing.skew ≤ 16) }
    .next (if t.linkActive p = false then u
      else if 16 < timing.skew then u.linkDown p
      else if u.bit F.olupStatusRxAsleep p then u else u.adapt p)
  else .next s

/-- The partner's SLEEP block (R293): its coefficients are held. -/
def execSleepBlock (p : Nat) (s : State) : Host.Outcome State Fault Refusal :=
  .next (if s.linkActive p then s.set F.olupStatusRxAsleep p 0 1 else s)

/-- The partner's TRAIN burst on a sleeping receive direction (R294). -/
def execPartnerWake (p : Nat) (s : State) : Host.Outcome State Fault Refusal :=
  .next (if s.linkActive p then s.set F.olupStatusRxAsleep p 0 0 else s)

/-- An ETCHECK to the partner (R286): link-local, carrying ETCOUNT. -/
def State.sendEtcheck (s : State) (p : Nat) : State :=
  s.enqueue p { cls := 5, sub := 0, src := s.get F.oluChipId, ttl := 1 } none

/-- The port has something to send: a frame, a resend, an acknowledgement or a credit return (R293). -/
def PortX.wantsSlot (x : PortX) : Bool :=
  x.nakOwed || x.linkOwed || decide (x.again ≠ 0) || decide (x.queue ≠ []) || x.ackOwed.isSome || decide (x.creditReturn ≠ (0, 0))

/-- A transmit direction idle for SLEEP_IDLE event ticks, owing nothing, sends a SLEEP block on every lane and goes to electrical idle
(R293). (DEDUCED, log entry 63.) -/
def execDirectionSleep (p : Nat) (s : State) : Host.Outcome State Fault Refusal :=
  let x := s.portX p
  if s.linkActive p ∧ s.bit F.olupCtrlSleepEn p ∧ s.bit F.olupStatusTxAsleep p = false ∧ x.wantsSlot = false
      ∧ (s.bulkNext p).isNone ∧ s.get F.olupCtrlSleepIdle p ≤ s.ticks - x.lastSent then
    .next ((((s.endSlot p).sendControl p blkSleep).set F.olupStatusTxAsleep p 0 1).emit (.oluIdle p))
  else .next s

/-- A frame is ready in a sleeping direction (R294): it wakes with a TRAIN burst and a marker group, and an ETCHECK goes out (R286). -/
def execDirectionWake (p : Nat) (s : State) : Host.Outcome State Fault Refusal :=
  if s.linkActive p ∧ s.bit F.olupStatusTxAsleep p ∧ ((s.portX p).wantsSlot ∨ (s.bulkNext p).isSome) then
    .next (((s.set F.olupStatusTxAsleep p 0 0).emit (.oluWake p)).sendEtcheck p)
  else .next s

/-- OLU[p].ERR_STAT.CLEAR (R276). -/
def execOluErrStatClear (p : Nat) (s : State) : Host.Outcome State Fault Refusal :=
  let t := (((s.clear F.olupErrStatCrcErr p 0).clear F.olupErrStatRetrains p 0).clear F.olupErrStatDiscarded p 0).clear
    F.olupErrStatBipErr p 0
  .next ((((t.set F.olupErrStatCrcSaturated p 0 0).set F.olupErrStatRetrainSaturated p 0 0).set
    F.olupErrStatDiscardSaturated p 0 0).set F.olupErrStatBipSaturated p 0 0)

/-! ### Frames -/

/-- An acknowledgement-and-credit frame (R280). -/
def execLinkFrame (p : Nat) (raw : List Nat) (s : State) : Host.Outcome State Fault Refusal := .next (s.rxFrame p raw).2

/-- Acts on one FLAG entry (R283, R284). -/
def State.flagEntryOp (s : State) (p e : Nat) : State :=
  if e % 4 = 0 then s.gfOp (e / 4 % 64) true (.oluel p) false
  else if e % 4 = 1 then s.gfOp (e / 4 % 64) false (.oluel p) false
  else if e % 4 = 2 then s.gfResetOp (.oluel p) false
  else s.remoteArrive (e / 1024 % 8) (e / 8192 % 16)

/-- The entries of a FLAG frame. -/
def flagEntries (f : Frame) : List Nat :=
  (List.range (min 12 (field f.payload 0 1))).map fun e => field f.payload (4 + 4 * e) 4

/-- A FLAG frame arrives (R284, R289): forwarded unchanged, then its entries act here. -/
def execFlagMsg (p : Nat) (raw : List Nat) (s : State) : Host.Outcome State Fault Refusal :=
  match s.rxFrame p raw with
  | (some f, t) =>
    if f.cls = 1 then .next ((flagEntries f).foldl (fun u e => u.flagEntryOp p e) (t.forwardBcast p f)) else .next t
  | (none, t) => .next t

/-- The raising operation that a RAISE frame carries for this chip (R261, R282). -/
def State.raiseOf (s : State) (f : Frame) : RaiseOp :=
  let c := s.get F.oluChipId
  { entry := field f.payload 1 1 % 16, tag := field f.payload 2 2, sec := field f.payload 4 6,
    ns := min 999999999 (field f.payload 10 4 % 2 ^ 30), frac := field f.payload 14 2,
    mask := field f.payload (16 + 8 * (c / 16)) 8 / 16 ^ (c % 16) % 16, origin := f.src }

/-- A RAISE frame arrives (R261): a schedule or cancel of this device's entry, when its mask here is not 0; a refusal is
posted. -/
def execRaiseMsg (p : Nat) (raw : List Nat) (s : State) : Host.Outcome State Fault Refusal :=
  match s.rxFrame p raw with
  | (some f, t) =>
    if f.cls = 2 then
      let u := (t.forwardBcast p f).freeBuffer p 2
      let r := u.raiseOf f
      if r.mask = 0 ∨ f.src = u.get F.oluChipId then .next u
      else
        let (st, v) := if field f.payload 0 1 = 1 then u.cancelRaise r.entry r.tag (.oluel p) else u.schedule r (.oluel p)
        .next (if st = 0 then v else v.post 0x0604 r.entry (r.tag + st * 65536))
    else .next t
  | (none, t) => .next t

/-- The mail that a MAIL frame carries (R282). -/
def mailOf (p : Nat) (f : Frame) : Mail :=
  { thread := field f.payload 0 2 % 1024, flag := field f.payload 0 2 / 1024 % 32, len := min 48 (field f.payload 2 1),
    chip := f.src, data := f.payload.drop 4, source := .link p }

/-- A MAIL frame addressed here (R287): written to the inbox, or held with its credit while the inbox is full. -/
def execMailMsg (p : Nat) (raw : List Nat) (s : State) : Host.Outcome State Fault Refusal :=
  match s.rxFrame p raw with
  | (some f, t) =>
    if f.cls = 3 ∧ f.dst = t.get F.oluChipId then
      if t.inboxRoom ∧ t.disp.heldMail = [] then .next ((t.inboxPut (mailOf p f)).freeBuffer p 3)
      else .next { t with disp := { t.disp with heldMail := t.disp.heldMail ++ [mailOf p f] } }
    else .next t
  | (none, t) => .next t

/-- A unicast MAIL or BULK frame for another chip (R289): forwarded with TTL lowered, or discarded and counted. -/
def execForwarding (p : Nat) (raw : List Nat) (s : State) : Host.Outcome State Fault Refusal :=
  match s.rxFrame p raw with
  | (some f, t) =>
    if (f.cls = 3 ∨ f.cls = 4) ∧ f.dst ≠ t.get F.oluChipId then
      let u := t.freeBuffer p f.cls
      match u.route f.dst with
      | some q => .next (if f.ttl ≤ 1 then u.discardFrames p 1 else u.enqueue q { f with ttl := f.ttl - 1 } none)
      | none => .next (u.discardFrames p 1)
    else .next t
  | (none, t) => .next t

/-- The bulk window holds a START (R288). -/
def State.inBulkWin (s : State) (base len : Nat) : Bool :=
  let lo := s.get F.oluBulkWinBasePage * 4096
  decide (lo ≤ base) && decide (base + len ≤ lo + s.get F.oluBulkWinPages * 4096)

/-- A BULK START frame (R288): accepted into the window, or answered REJECTED, as while the DRAM is not READY (R418). -/
def execBulkStart (p : Nat) (raw : List Nat) (s : State) : Host.Outcome State Fault Refusal :=
  match s.rxFrame p raw with
  | (some f, t) =>
    if f.cls = 4 ∧ f.sub = 0 ∧ f.dst = t.get F.oluChipId then
      let u := t.freeBuffer p 4
      let tag := field f.payload 0 1 % 4
      let base := field f.payload 4 5
      let len := field f.payload 12 4
      let others := u.olu.bulkRx.filter (fun b => !(decide (b.chip = f.src) && decide (b.tag = tag)))
      if u.dramReady ∧ u.inBulkWin base len then
        .next { u with olu := { u.olu with bulkRx := others ++ [{ chip := f.src, tag := tag, port := p, base := base, len := len }] } }
      else .next (({ u with olu := { u.olu with bulkRx := others } }).bulkReply f.src tag 2 0)
    else .next t
  | (none, t) => .next t

/-- A BULK DATA frame (R288): the next 48 bytes of its transfer are written; after the last, DONE goes back with OK. -/
def execBulkData (p : Nat) (raw : List Nat) (s : State) : Host.Outcome State Fault Refusal :=
  match s.rxFrame p raw with
  | (some f, t) =>
    if f.cls = 4 ∧ f.sub = 1 ∧ f.dst = t.get F.oluChipId then
      let u := t.freeBuffer p 4
      let tag := field f.payload 0 1 % 4
      let k := field f.payload 1 3
      match u.olu.bulkRx.find? (fun b => decide (b.chip = f.src) && decide (b.tag = tag) && decide (b.next = k)) with
      | none => .next u
      | some b =>
        let n := min 48 (b.len - 48 * k)
        let v := u.dramWrite (b.base + 48 * k) ((f.payload.drop 4).take n)
        let others := v.olu.bulkRx.filter (fun x => !(decide (x.chip = f.src) && decide (x.tag = tag)))
        if b.len ≤ 48 * (k + 1) then
          .next (({ v with olu := { v.olu with bulkRx := others } }).bulkReply f.src tag 1 b.len)
        else .next { v with olu := { v.olu with bulkRx := others ++ [{ b with next := k + 1 }] } }
    else .next t
  | (none, t) => .next t

/-- A BULK DONE frame reaches the originator (R288); one with ABORTED from the originator of a transfer into this device ends
that transfer here (R431). -/
def execBulkDone (p : Nat) (raw : List Nat) (s : State) : Host.Outcome State Fault Refusal :=
  match s.rxFrame p raw with
  | (some f, t) =>
    if f.cls = 4 ∧ f.sub = 2 ∧ f.dst = t.get F.oluChipId then
      let u := t.freeBuffer p 4
      let i := field f.payload 0 1 % 4
      let st := field f.payload 1 1 % 8
      let mine := fun (b : BulkRx) => decide (b.chip = f.src) && decide (b.tag = i)
      if st = 3 ∧ u.olu.bulkRx.any mine then
        .next { u with olu := { u.olu with bulkRx := u.olu.bulkRx.filter fun b => !mine b } }
      else .next (if u.bit F.oluBulkCtrlBusy 0 i then u.bulkEnd i st else u)
    else .next t
  | (none, t) => .next t

/-- An ETCHECK arrives (R286): when both partners are tick-aligned, ET_DIFF is stored and a slip reported. -/
def execEtcheck (p : Nat) (raw : List Nat) (partnerAligned : Bool) (s : State) : Host.Outcome State Fault Refusal :=
  match s.rxFrame p raw with
  | (some f, t) =>
    if f.cls = 5 ∧ f.sub = 0 ∧ partnerAligned ∧ t.bit F.clkStatusTickAligned then
      let diff : Int := (t.get F.clkEtcountCount : Int) - (field f.payload 8 8 : Nat)
      let d := min 255 diff.toNat
      let want := (t.get F.olupStatusHopLat p + 7) / 8
      let u := (t.set F.olupTickchkEtDiff p 0 d).set F.olupTickchkValid p 0 1
      .next (if d = want ∨ d = want + 1 then u else (u.hwSet F.olupTickchkSlip p 0).post 0x0705 p d)
    else .next t
  | (none, t) => .next t

/-- Every 2^16 event ticks an ACTIVE, awake port sends an ETCHECK (R286). -/
def execEtcheckSend (p : Nat) (s : State) : Host.Outcome State Fault Refusal :=
  .next (if s.linkActive p ∧ s.bit F.olupStatusTxAsleep p = false then s.sendEtcheck p else s)

/-- The change that a TICK CHANGE frame carries (R282). -/
def changeOf (f : Frame) : TimeChange :=
  let d := field f.payload 2 1 % 2
  let v := signed 96 (field f.payload 16 12)
  match field f.payload 1 1 with
  | 0 => .addend d v.toNat
  | 1 => .step d v
  | 2 => .selectOnly (v.toNat % 2)
  | _ => .slew v

/-- A TICK CHANGE arrives (R249 to R251): a follower applies it at the boundary it names; one that comes too late ends
lockstep. A follower that waits for its first check message keeps the changes. -/
def execChangeMsg (p : Nat) (raw : List Nat) (s : State) : Host.Outcome State Fault Refusal :=
  match s.rxFrame p raw with
  | (some f, t) =>
    if f.cls = 5 ∧ f.sub = 1 then
      let u := t.forwardBcast p f
      let b := field f.payload 8 8
      let n := u.get F.clkEtcountCount
      let keep := { u with time := { u.time with pendingChanges := u.time.pendingChanges ++ [(b, changeOf f)] } }
      if u.isFollower ∧ u.time.joining then .next keep
      else if u.inLockstep then
        if b < n then .next u.loseLockstep
        else if b = n then .next (u.applyChange u.time.ct (changeOf f))
        else .next keep
      else .next u
    else .next t
  | (none, t) => .next t

/-- A domain clock carried in a CHECK_A message (R282). -/
def checkClock (l : List Nat) (start : Nat) : Int :=
  field l start 6 * secondUnits + field l (start + 6) 4 * 4294967296 + field l (start + 10) 4

/-- A CHECK_A or CHECK_B frame arrives (R250, R282). -/
def execCheckMsg (p : Nat) (raw : List Nat) (s : State) : Host.Outcome State Fault Refusal :=
  match s.rxFrame p raw with
  | (some f, t) =>
    if f.cls = 5 ∧ (f.sub = 2 ∨ f.sub = 3) then
      let u := t.forwardBcast p f
      if u.isFollower then
        let bnd := field f.payload 8 8
        let a := if f.sub = 2 then some (bnd, checkClock f.payload 16, checkClock f.payload 30) else u.time.checkA
        let b := if f.sub = 3 then
            some (bnd, field f.payload 16 4, field f.payload 20 4, signed 96 (field f.payload 24 12), field f.payload 36 1 % 2)
          else u.time.checkB
        .next ({ u with time := { u.time with checkA := a, checkB := b } }).takeCheck
      else .next u
    else .next t
  | (none, t) => .next t

/-! ### Global flags and bulk transfers of this device -/

/-- OLU.GF_OP.SET (R284). -/
def execGfSet (i : Nat) (src : Src) (s : State) : Host.Outcome State Fault Refusal := .next (s.gfOp i true src true)

/-- OLU.GF_OP.CLEAR (R284). -/
def execGfClear (i : Nat) (src : Src) (s : State) : Host.Outcome State Fault Refusal := .next (s.gfOp i false src true)

/-- OLU.GF_OP.RESET (R284). -/
def execGfReset (src : Src) (s : State) : Host.Outcome State Fault Refusal := .next (s.gfResetOp src true)

/-- OLU.BULK_CTRL.GO (R288, R289): ignored while BUSY; NO_ROUTE where no route names the chip; ABORTED while the DRAM is not
READY (R418); else START is queued on the route, and the DATA frames follow it. (DEDUCED, log entry 62.) -/
def State.bulkGo (s : State) (i length : Nat) : State :=
  if s.bit F.oluBulkCtrlBusy 0 i then s
  else
    let len := min 16777216 (max 16 length) / 16 * 16
    let t := s.set F.oluBulkCtrlLength 0 i len
    let chip := t.get F.oluBulkDstChip 0 i
    if t.dramReady = false then t.bulkEnd i 3
    else
      match t.route chip with
      | none => t.bulkEnd i 4
      | some p =>
        let u := (t.set F.oluBulkCtrlBusy 0 i 1).set F.oluBulkCtrlStatus 0 i 0
        let start := i :: 0 :: 0 :: 0 :: (bytesOf (u.get F.oluBulkDstAddress 0 i) 8 ++ bytesOf len 4)
        let b : BulkTx := { chan := i, chip := chip, port := p, src := u.get F.oluBulkSrcAddress 0 i, len := len }
        ({ u with olu := { u.olu with bulkTx := u.olu.bulkTx ++ [b] } }).unicast p chip 4 0 start none

/-- BULK_GO. -/
def execBulkGo (i length : Nat) (s : State) : Host.Outcome State Fault Refusal := .next (s.bulkGo i length)

end Sys2Proof.Machine
end

