-- ==== Sys2Proof/Machine/Paging.lean ====
section
/-!
DEFINITION. Paging.lean: the commands of the pattern space, paging and under-runs
(06_pattern_space_paging_and_streaming.md).
-/
namespace Sys2Proof.Machine

/-! ### The page table (R188 to R192, R216) -/

/-- An accepted rebuild (R192): every entry is ABSENT with all fields zero, every frame is free; what waits for a load of a
page is dropped. -/
def State.rebuild (s : State) : State :=
  let l := s.page.pushes
  let t := { s with page := { s.page with table := [], reqs := [], lru := [], pushes := [] } }
  (l.foldl (fun u p => u.completePush p.2.1 p.1 8) t).set F.pgtStatusRebuildBusy 0 0 1

/-- PGT.CTRL.REBUILD: accepted when every sequencer is STOPPED and no load is in flight (R192). -/
def execRebuild (s : State) : Host.Outcome State Fault Refusal :=
  .next (if s.allStopped ∧ s.page.loads = [] then s.rebuild else s.hwSet F.pgtStatusRebuildRefused 0 0)

/-- A rebuild finishes. -/
def execRebuildDone (s : State) : Host.Outcome State Fault Refusal := .next (s.set F.pgtStatusRebuildBusy 0 0 0)

/-- PGT.WIN_CMD.READ: the two words of an entry (R216); no effect during a rebuild (R192). -/
def State.winRead (s : State) (g : Nat) : State :=
  if s.bit F.pgtStatusRebuildBusy then s
  else
    (s.wr ⟨.pgtWinData, 0, 0⟩ (BitVec.ofNat 64 (s.entryWords g).1)).wr ⟨.pgtWinData, 0, 1⟩
      (BitVec.ofNat 64 (s.entryWords g).2)

/-- WIN_CMD.READ. -/
def execWinRead (page : Nat) (s : State) : Host.Outcome State Fault Refusal := .next (s.winRead page)

/-- PGT.WIN_CMD.WRITE (R190, R216). -/
def State.winWrite (s : State) (g : Nat) : State :=
  (s.windowWrite g (s.rd ⟨.pgtWinData, 0, 0⟩).toNat (s.rd ⟨.pgtWinData, 0, 1⟩).toNat).2

/-- WIN_CMD.WRITE. -/
def execWinWrite (page : Nat) (s : State) : Host.Outcome State Fault Refusal := .next (s.winWrite page)

/-! ### Loads (R193 to R196) -/

/-- With a slot free, the engine starts the oldest request of the highest level (R194), once the controller is READY (R418). -/
def execLoadStart (s : State) : Host.Outcome State Fault Refusal :=
  .next (if s.loadSlot then
      match s.nextRequest with
      | some r => s.startLoad r
      | none => s
    else s)

/-- A load of the page is under way. -/
def State.loading (s : State) (g : Nat) : Bool :=
  (s.page.loads.any fun x => decide (x.page = g)) && decide ((s.entry g).state = 2)

/-- The last byte of a page has arrived: `data`, followed by zeros up to 64 MiB (R195). -/
def execLoadComplete (page : Nat) (data : List Nat) (s : State) : Host.Outcome State Fault Refusal :=
  .next (if s.loading page ∧ s.dramReady then
      (if checkWord data = (s.entry page).crc then s.loaded page data else s.loadFailed page 1)
    else s)

/-- A completion of a page load fails (R195): cause 2 error status, 3 time-out, 4 poisoned. -/
def execLoadErr (page cause : Nat) (s : State) : Host.Outcome State Fault Refusal :=
  .next (if s.loading page then s.loadFailed page (max 2 (min cause 4)) else s)

/-- One page of the lookahead of SEQ[q] (R198); `arrived`: the flow table of a page whose load is under way (R193). -/
def execLookahead (q : Nat) (arrived : List Nat) (s : State) : Host.Outcome State Fault Refusal :=
  .next (s.lookStep q arrived)

/-- The fill engine of SEQ[q] fetches a record (R201), and PANIC follows (R425). -/
def execPrefetchFill (q : Nat) (s : State) : Host.Outcome State Fault Refusal := .next (s.fillStep q).updatePanic

/-! ### Under-runs (R206 to R213) -/

/-- The records from W on are available (R209) at core tick `ct` of the present event tick: W starts RESUME_DELAY after that
core tick, and not before the instant it already has (R213); its fraction is zero. -/
def State.stallResume (s : State) (q ct : Nat) : State :=
  let x := s.seqX q
  if x.under ∧ x.resumed = false ∧ x.ending.isNone ∧ s.fillReady q x.pc (s.recWords q) then
    s.setSeqX q { x with
      resumed := true, period := none
      nextAt := max (ceilCt x.nextAt) (s.nowFu + (ct % 8 + s.get F.seqResumeDelayDelay q) * 1024) }
  else s

/-- The stalled sequencer can go on. -/
def execStallResume (q ct : Nat) (s : State) : Host.Outcome State Fault Refusal := .next (s.stallResume q ct)

/-- A stall has lasted STALL_CTRL.LIMIT event ticks (R211): an under-run abort, as a hardware condition. -/
def execStallLimit (q : Nat) (s : State) : Host.Outcome State Fault Refusal :=
  let lim := s.get F.seqStallCtrlLimit q
  .next (if s.seqState q = 3 ∧ lim ≠ 0 ∧ (s.seqX q).stallAt + lim ≤ s.ticks then s.requestStop q 9 .hw none else s)

/-- UNDERRUN.CLEAR (R208). -/
def execUnderrunClear (q : Nat) (s : State) : Host.Outcome State Fault Refusal :=
  .next ((s.clear F.seqUnderrunCount q 0).set F.seqUnderrunSaturated q 0 0)

/-- STALL_TIME.CLEAR (R209). -/
def execStallTimeClear (q : Nat) (s : State) : Host.Outcome State Fault Refusal := .next (s.clear F.seqStallTimeEt q 0)

/-- LCACHE_STAT.CLEAR (R203). -/
def execLcacheStatClear (q : Nat) (s : State) : Host.Outcome State Fault Refusal :=
  .next ((s.clear F.seqLcacheStatHits q 0).set F.seqLcacheStatSaturated q 0 0)

/-- PGT.LOAD_STAT.CLEAR (R195). -/
def execLoadStatClear (s : State) : Host.Outcome State Fault Refusal :=
  .next ((((s.clear F.pgtLoadStatLoads 0 0).clear F.pgtLoadStatEvictions 0 0).set F.pgtLoadStatLoadsSaturated 0 0 0).set
    F.pgtLoadStatEvictSaturated 0 0 0)

/-- PGT.ERR_STAT.CLEAR (R195). -/
def execPgtErrStatClear (s : State) : Host.Outcome State Fault Refusal :=
  .next ((((s.clear F.pgtErrStatCrcFail 0 0).clear F.pgtErrStatLoadErr 0 0).set F.pgtErrStatCrcSaturated 0 0 0).set
    F.pgtErrStatErrSaturated 0 0 0)

end Sys2Proof.Machine
end

