-- ==== Sys2Proof/Machine/Ras.lean ====
section
/-!
DEFINITION. Ras.lean: the commands of resets, containment and temperatures (17_reliability_reset_power_thermal.md).
-/
namespace Sys2Proof.Machine

/-- RAS.RESET.SEQ_RESET (R461). -/
def execSeqReset (q : Nat) (src : Src) (s : State) : Host.Outcome State Fault Refusal := .next (s.seqReset q src)

/-- A sequencer reset completes (R461): its buffers are empty. -/
def execSeqResetDone (q : Nat) (s : State) : Host.Outcome State Fault Refusal :=
  .next (s.seqResetDone q)

/-- RAS.RESET.BAY_RESET (R462). -/
def execBayReset (b : Nat) (src : Src) (s : State) : Host.Outcome State Fault Refusal := .next (s.bayReset b src false)

/-- A bay reset completes (R449, R462): its calibration is loaded. `slices`: converter slices that fail their test; `failed`:
records of the store that fail. -/
def execBayResetDone (b slices : Nat) (failed : List Nat) (s : State) : Host.Outcome State Fault Refusal :=
  if testBit (s.get F.rasStatusBayResetting) b then
    let t := ((s.putMask F.rasStatusBayResetting 0 0 b false).loadCal failed b).sliceTest b slices
    .next (t.post 0x0903 b (if t.ras.byAuto.contains b then 2 else 1))
  else .next s

/-- RAS.RESET.WARM (R460, R474): it acts only with its KEY. -/
def execWarm (key : Nat) (s : State) : Host.Outcome State Fault Refusal :=
  .next (if key = 0x5752 then s.requestReset 2 else s)

/-- Function Level Reset (R295, R460). -/
def execFunctionLevelReset (s : State) : Host.Outcome State Fault Refusal := .next (s.requestReset 3)

/-- D3hot to D0 (R295, R460). -/
def execD3hotToD0 (s : State) : Host.Outcome State Fault Refusal := .next (s.requestReset 4)

/-- PERST# (R460). -/
def execPerst (s : State) : Host.Outcome State Fault Refusal := .next (s.requestReset 1)

/-- PORST_N is released (R460, R465): a power-on reset. LAST_RESET tells a rail fault before it (R467). -/
def execPowerOn (s : State) : Host.Outcome State Fault Refusal :=
  .next (s.deviceReset (if s.ras.halted ∧ s.get F.rasStatusLastReset = 5 then 5 else 0))

/-- Reset initialisation completes (R449, R465): every record is loaded, the slices are tested, and HOST_READY is set. -/
def execHostReady (slices : List Nat) (failed : List Nat) (s : State) : Host.Outcome State Fault Refusal :=
  if s.bit F.rasStatusHostReady ∨ s.ras.halted then .next s
  else
    let t := (List.range 8).foldl (fun (u : State) b => (u.loadCal failed b).sliceTest b (slices.getD b 0)) s.showStore
    .next { (t.set F.rasStatusHostReady 0 0 1) with ras := { t.ras with doneDue := true } }

/-- A rail leaves its band (R467): every channel parks, and the device holds itself in reset. -/
def execRailFault (rail : Nat) (s : State) : Host.Outcome State Fault Refusal :=
  if s.ras.halted then .next s
  else
    let t := (List.range 128).foldl (fun (u : State) c => u.parkLevels c u.nowFu) s
    .next ((t.set F.rasStatusFaultRail 0 0 rail).holdReset 5)

/-- The outcome of an uncorrectable error in a unit (R456, R192, R330). (DEDUCED, log entry 96.) -/
def State.ueOutcome (s : State) (unit index memory address : Nat) : State :=
  if unit = 1 then s.contain index
  else if unit = 2 then s.seqReset index .hw
  else if unit = 3 then
    let e := s.entry index
    ((s.setEntry index { e with state := 0, eccErr := true, frame := 0 }).dropLines index).endLoad index 9
  else if unit = 4 then
    let q := (s.siteMap index).seq
    (({ s with site := { s.site with active := putUnit {} s.site.active index { seq := q } } }).seqReset q .hw)
  else if unit = 5 then (if memory = 0 then s.slotResetOp index .hw else s.flowResetOp index .hw)
  else if unit = 6 then
    if memory = 0 then
      ((s.coreStop index).set F.coreCtrlRun 0 0 (putBit (s.get F.coreCtrlRun) index false)).post 0x0D02 index
        (1 + address % 2 ^ 32 * 2 ^ 32)
    else s.setCoreX index { (s.coreX index) with errInfo := 1 + address % 2 ^ 30 * 4 }
  else if unit = 7 then { s with disp := { s.disp with badWords := (sramBase / 4 + address % 2 ^ 19) :: s.disp.badWords } }
  else s

/-- An on-chip memory error (R456): unit 0 is a corrected error, which is counted; another is uncorrectable, logged, reported
and contained. -/
def execRasUe (unit index memory address : Nat) (s : State) : Host.Outcome State Fault Refusal :=
  if unit = 0 then .next (s.count F.rasErrStatCeCount F.rasErrStatCeSaturated 0 0 1)
  else
    let t := s.count F.rasErrStatUeCount F.rasErrStatUeSaturated 0 0 1
    let t := ((((t.set F.rasErrLogUnit 0 0 unit).set F.rasErrLogIndex 0 0 index).set F.rasErrLogMemory 0 0 memory).set
      F.rasErrLogAddress 0 0 address).setBit F.rasErrLogValid 0 0 true
    .next ((t.post 0x0901 index (t.rd ⟨.rasErrLog, 0, 0⟩).toNat).ueOutcome unit index memory address)

/-- RAS.ERR_STAT.CLEAR (R474). -/
def execRasErrStatClear (s : State) : Host.Outcome State Fault Refusal :=
  .next (((((s.clear F.rasErrStatCeCount 0 0).clear F.rasErrStatUeCount 0 0).set F.rasErrStatCeSaturated 0 0 0).set
    F.rasErrStatUeSaturated 0 0 0).set F.rasErrLogValid 0 0 0)

/-- The sensors update (R469 to R471), 10 µs (1,500 event ticks) after the last: 16 readings in 0.25 °C. -/
def execTempUpdate (readings : List Int) (s : State) : Host.Outcome State Fault Refusal :=
  .next (if s.ras.halted ∨ s.ticks < s.ras.sensedAt + 1500 then s
    else ({ s with ras := { s.ras with sensedAt := s.ticks } }).temperatures readings)

/-- THERM.TEMP[i].CLEAR (R474): PEAK becomes TEMP, class 3. -/
def execPeakClear (i : Nat) (s : State) : Host.Outcome State Fault Refusal :=
  .next ((s.clear F.thermTempPeak 0 i).set F.thermTempPeak 0 i (s.get F.thermTempTemp 0 i))

end Sys2Proof.Machine
end

