-- ==== Sys2Proof/Machine/OpsView.lean ====
section
/-!
DEFINITION. OpsView.lean: where the registers of BAR0 lie (R499 to R501), and what a read of each returns: the stored word, or
what a field that shows other state shows (R12, R507).
-/
namespace Sys2Proof.Machine

/-! ### Fields that show other state -/

/-- A word with a field replaced. -/
def Fld.put (f : Fld) (v : Word) (x : Nat) : Word := withBits v f.lo f.width x

/-- A number as a 64-bit word in two's complement. -/
def intWord (x : Int) : Word := BitVec.ofNat 64 (unsigned 64 x)

/-- GLOBAL.BAYMAP_STATUS: BUSY and RUNNING (R28). -/
def State.viewBaymap (s : State) (w : Word) : Word :=
  F.globalBaymapStatusRunning.put
    (F.globalBaymapStatusBusy.put w ((List.range 8).foldl (fun m b => if s.bayBusy b then m + 2 ^ b else m) 0))
    ((List.range 4).foldl (fun m q => if s.seqState q = 0 then m else m + 2 ^ q) 0)

/-- Unresolved passes of the open match level (R93): as a record decoded now, 64 ct before its start, would count them.
(DEDUCED, log entry 40.) -/
def State.unresolvedNow (s : State) (q : Nat) : Nat :=
  match (s.seqX q).openBlock with
  | some b => (b.passes.filter fun p => p.unresolved (s.passesAwaited q) b.id (s.nowFu + 65536)).length
  | none => 0

/-- SEQ[q].POSITION (R121). -/
def State.viewPosition (s : State) (q : Nat) (w : Word) : Word :=
  let x := s.seqX q
  let w := F.seqPositionStackDepth.put (F.seqPositionLoopDepth.put w x.levels.length) x.stack.length
  F.seqPositionUnresolved.put (F.seqPositionMatchOpen.put w (x.levels.any fun l => l.isMatch).toNat) (s.unresolvedNow q)

/-- SEQ[q].COND_LATENCY.LOCAL_CT: 96 ct plus the largest round-trip delay of the bays of SEQ[q] (R88). -/
def State.localCt (s : State) (q : Nat) : Nat := 96 + ((s.baysOf q).map s.rtd).foldl max 0

/-- SEQ[q].COND_LATENCY.REMOTE_CT (R91): with the largest one-hop latency of the trained ports. (DEDUCED, log entry 41.) -/
def State.remoteCt (s : State) (q : Nat) : Nat :=
  let hop := (((List.range 4).filter s.linkActive).map fun p => s.get F.olupStatusHopLat p).foldl max 0
  min 16383 (116 + s.localCt q - 96 + s.get F.seqCondCtrlRemoteHops q * hop)

/-- LOOP_ADDR[i] and LOOP_COUNT[i]: open level `i`, the outermost being 0. -/
def State.levelAt (s : State) (q i : Nat) : Option Level := ((s.seqX q).levels.reverse)[i]?

/-- SEQ[q].LOOP_ADDR[i]. -/
def State.viewLoopAddr (s : State) (q i : Nat) : Word :=
  match s.levelAt q i with
  | some l => BitVec.ofNat 64 (l.body % 2 ^ 38 + l.isMatch.toNat * 2 ^ 38)
  | none => 0

/-- SEQ[q].LOOP_COUNT[i]. -/
def State.viewLoopCount (s : State) (q i : Nat) : Word :=
  match s.levelAt q i with
  | some l => BitVec.ofNat 64 (l.rem % 2 ^ 32 + l.iter % 2 ^ 32 * 2 ^ 32)
  | none => 0

/-- SEQ[q].STACK[i], entry 0 being the oldest. -/
def State.viewStack (s : State) (q i : Nat) : Word :=
  match ((s.seqX q).stack.reverse)[i]? with
  | some e => BitVec.ofNat 64 (e.1 % 2 ^ 38 + e.2 % 32 * 2 ^ 40)
  | none => 0

/-- The copy of timing set `t` that TS_CTRL.VIEW selects (R147). -/
def State.viewSet (s : State) (q t : Nat) : TSet :=
  unitAt {} (if s.bit F.seqTsCtrlView q then (s.store q).active else (s.store q).staging) t

/-- TS_EDGE[i] of the selected channel and timing set. -/
def State.viewEdge (s : State) (q i : Nat) : Nat :=
  unitAt 0 (s.viewSet q (s.get F.seqTsSelTset q)).edges (8 * s.get F.seqTsSelChannel q + i)

/-- TS_WAVE[i] of the selected channel and timing set. -/
def State.viewWave (s : State) (q i : Nat) : Nat :=
  unitAt 0 (s.viewSet q (s.get F.seqTsSelTset q)).waves (16 * s.get F.seqTsSelChannel q + i)

/-- The copy of the map of SITE[k] that SITE.CTRL.VIEW selects. -/
def State.viewSite (s : State) (k : Nat) : SiteMap :=
  unitAt {} (if s.bit F.siteCtrlView then s.site.active else s.site.staging) k

/-- The acquisition ring of a bay is full. -/
def State.acqFull (s : State) (b : Nat) : Bool :=
  decide ((s.get F.bayAcqPtrWr b + 1) % 2 ^ s.get F.bayAcqRingSize b = s.get F.bayAcqPtrRd b)

/-- The delay that MCH[m].DLY_SEL addresses (R419). -/
def State.delayKey (s : State) (m : Nat) : Nat :=
  (((m * 2 + s.get F.mchDlySelSub m) * 2 + s.get F.mchDlySelRank m) * 2 + s.get F.mchDlySelWrite m) * 64 + s.get F.mchDlySelLane m

/-- DISP.LEVEL_DEPTH[i]: READY threads of levels 4i to 4i + 3 (R338). -/
def State.viewDepth (s : State) (i : Nat) : Word :=
  BitVec.ofNat 64 ((List.range 4).foldl (fun n m => n + (s.readyList (4 * i + m)).length % 2 ^ 11 * 2 ^ (16 * m)) 0)

/-- What a read of a whole register returns (R507). -/
def State.view (s : State) (k : RegKey) : Word :=
  let w := s.rd k
  let i := k.inst
  let j := k.elem
  match k.name with
  | .globalBaymapStatus => s.viewBaymap w
  | .seqPosition => s.viewPosition i w
  | .seqCondLatency => F.seqCondLatencyRemoteCt.put (F.seqCondLatencyLocalCt.put w (s.localCt i)) (s.remoteCt i)
  | .seqLoopAddr => s.viewLoopAddr i j
  | .seqLoopCount => s.viewLoopCount i j
  | .seqStack => s.viewStack i j
  | .seqTsPeriod => BitVec.ofNat 64 (s.viewSet i j).period
  | .seqTsEdge => BitVec.ofNat 64 (s.viewEdge i j)
  | .seqTsWave => BitVec.ofNat 64 (s.viewWave i j)
  | .seqLogStat => F.seqLogStatFull.put (F.seqLogStatQueue.put w (s.logX i).queue.length) (s.logFull i).toNat
  | .seqCapStat => F.seqCapStatQueue.put w (s.logX i).capWords
  | .seqLcacheStat =>
    let f := (s.seqX i).fill
    F.seqLcacheStatBypass.put (F.seqLcacheStatLines.put w f.cache.length) (f.levels.any fun l => l.bypass).toNat
  | .bayDclkCtrl => F.bayDclkCtrlRunning.put w ((s.dclk i j).running s.now17).toNat
  | .pgtStatus => F.pgtStatusFrameStarved.put (F.pgtStatusInFlight.put (F.pgtStatusFreeFrames.put w s.freeFrames.length)
    s.page.loads.length) s.frameStarved.toNat
  | .sitekCfg => BitVec.ofNat 64 (s.viewSite i).seq
  | .sitekPinmap => BitVec.ofNat 64 (unitAt 0 (s.viewSite i).pins j)
  | .timeDelta => intWord (s.newClocks.delta / 65536)
  | .timeDomDiff => intWord ((s.newClocks.dom1 - s.newClocks.dom0) / 65536)
  | .ringStatus => F.ringStatusFull.put w (!hostProduced (s.get F.ringCfgType i) && !s.ringRoom i).toNat
  | .dispLevelDepth => s.viewDepth j
  | .dispFlowStat =>
    F.dispFlowStatQueued.put (F.dispFlowStatHeld.put w (s.flowX j).items.length) (s.flowX j).queued.length
  | .mchDlyData =>
    BitVec.ofNat 64 (unitAt 64 s.dram.shadow (s.delayKey i) % 256 + unitAt 64 s.dram.active (s.delayKey i) % 256 * 256)
  | .bayAcqStat => F.bayAcqStatFull.put w (s.acqFull i).toNat
  | .bayAdcCoefData => BitVec.ofNat 64 (s.coef i (s.get F.bayAdcCoefSelBank i) (s.get F.bayAdcCoefSelIndex i))
  | .bayFeLdata => BitVec.ofNat 64 (unitAt 0 (s.fe i).lists (32 * s.get F.bayFeLselList i + s.get F.bayFeLselWord i))
  | _ => w

end Sys2Proof.Machine
end

