-- ==== Sys2Proof/Machine/Seq.lean ====
section
/-!
DEFINITION. Seq.lean: the sequencers' control actions and the 21 records (03_sequencer_control_words.md), and the firing of a
raising (08_station_time_and_raisings.md, R262). A record command is the decode of the record that is due on SEQ[q]: it acts
where that record has its opcode.
-/
namespace Sys2Proof.Machine

/-! ### Control -/

/-- SEQ[q].CTRL.START (R70, R71). -/
def execSeqStart (q : Nat) (src : Src) (s : State) : Host.Outcome State Fault Refusal := .next (s.start q src).2

/-- SEQ[q].CTRL.RESUME (R72). -/
def execSeqResume (q : Nat) (src : Src) (s : State) : Host.Outcome State Fault Refusal := .next (s.resume q src).2

/-- SEQ[q].CTRL.PAUSE (R74): STOP_REASON 3. -/
def execPauseRequest (q : Nat) (src : Src) (s : State) : Host.Outcome State Fault Refusal :=
  .next (s.requestStop q 3 src none)

/-- SEQ[q].CTRL.ABORT (R116, R117): STOP_REASON 4. -/
def execAbort (q : Nat) (src : Src) (s : State) : Host.Outcome State Fault Refusal := .next (s.requestStop q 4 src none)

/-- SEQ[q].CTRL.FAULT_CLEAR (R120), class 3. -/
def State.faultClear (s : State) (q : Nat) (src : Src) : State :=
  s.onObj (.seq q) 3 (srcRank src) 1 fun t => t.set F.seqStatusFault q 0 0

/-- FAULT_CLEAR. -/
def execFaultClear (q : Nat) (src : Src) (s : State) : Host.Outcome State Fault Refusal := .next (s.faultClear q src)

/-! ### Flow records -/

/-- NOP (R68). -/
def execNopRec (q : Nat) (s : State) : Host.Outcome State Fault Refusal := .next (s.record q 0x00 noEffect)

/-- LOOP opens a level: REMAINING = count − 1, ITERATION = 0 (R75). -/
def loopEffect (q : Nat) : Effect := fun a w _ s =>
  s.setLevels q ({ body := a + s.recWords q, rem := vcwCount w - 1 } :: (s.seqX q).levels)

/-- LOOP. -/
def execLoopRec (q : Nat) (s : State) : Host.Outcome State Fault Refusal := .next (s.record q 0x01 (loopEffect q))

/-- The passes of a block that are judged at an ENDLOOP that starts at `c` (R94): resolved and not yet judged. -/
def Block.toJudge (b : Block) (l : List (Nat × Nat)) (c : Nat) : List Pass :=
  b.passes.filter fun p => !p.judged && !p.unresolved l b.id c

/-- The present pass has ended (R94). -/
def closePass (blk n : Nat) (l : List Block) : List Block :=
  l.map fun (b : Block) => if b.id = blk then
    { b with passes := b.passes.map fun (p : Pass) => if p.n = n then { p with closed := true } else p } else b

/-- The resolved passes are judged. -/
def markJudged (blk c : Nat) (waits : List (Nat × Nat)) (l : List Block) : List Block :=
  l.map fun (b : Block) => if b.id = blk then
    { b with passes := b.passes.map fun (p : Pass) => if p.unresolved waits blk c then p else { p with judged := true } }
  else b

/-- A match block times out (R95): MATCH_TIMEOUT is set at the end of the last pass. (DEDUCED, log entry 35.) -/
def State.matchTimeout (s : State) (q : Nat) (l : Level) (rest : List Level) : State :=
  let x := s.seqX q
  let t := s.setSeqX q { x with blocks := x.blocks.map fun (b : Block) => if b.id = l.blk then { b with timedOut := true } else b }
  let u := (t.setLevels q rest).defer q x.nextAt [.matchTimeout]
  let v := match l.toFlag with
    | some i => u.setLf q i true
    | none => u
  let w := v.judgeLate q
  if l.toStop then w.beginStop q 10 false none else w

/-- ENDLOOP of a match level that starts at `c` (R94, R95). -/
def State.endMatch (s : State) (q c : Nat) (l : Level) (rest : List Level) : State :=
  let x := s.seqX q
  let blocks := closePass l.blk l.iter x.blocks
  let judged := match blocks.find? (fun (b : Block) => decide (b.id = l.blk)) with
    | some b => b.toJudge (s.passesAwaited q) c
    | none => []
  let exit := if 2 ≤ l.cond ∧ l.cond ≤ 7 then judged.any fun p => s.passHolds q l.cond p.fails
    else s.condHolds q l.cond c
  let t := s.setSeqX q { x with blocks := markJudged l.blk c (s.passesAwaited q) blocks }
  if exit then t.setLevels q rest
  else
    match l.rem with
    | 0 => t.matchTimeout q l rest
    | r + 1 =>
      let u := (t.setLevels q ({ l with rem := r, iter := l.iter + 1 } :: rest)).goTo q l.body
      u.setSeqX q { (u.seqX q) with newPass := true }

/-- ENDLOOP iterates or closes the innermost level (R76). -/
def endLoopEffect (q : Nat) : Effect := fun _ _ c s =>
  match (s.seqX q).levels with
  | [] => s
  | l :: rest =>
    if l.isMatch then s.endMatch q c l rest
    else
      match l.rem with
      | 0 => s.setLevels q rest
      | r + 1 => (s.setLevels q ({ l with rem := r, iter := l.iter + 1 } :: rest)).goTo q l.body

/-- ENDLOOP. -/
def execEndloop (q : Nat) (s : State) : Host.Outcome State Fault Refusal := .next (s.record q 0x02 (endLoopEffect q))

/-- REPEAT: COUNT executions in succession (R77). -/
def repeatEffect (q : Nat) : Effect := fun _ w _ s =>
  let x := s.seqX q
  s.setSeqX q { x with rep := if x.rep = 0 then vcwCount w - 1 else x.rep - 1 }

/-- REPEAT: one execution. -/
def execRepeatRec (q : Nat) (s : State) : Host.Outcome State Fault Refusal := .next (s.record q 0x03 (repeatEffect q))

/-- CALL pushes the address of the next record and the loop depth (R78, R197). -/
def callEffect (q : Nat) : Effect := fun a w _ s =>
  let x := s.seqX q
  s.setSeqX q { x with
    stack := (a + s.recWords q, x.levels.length) :: x.stack
    pc := vcwTarget w
    targets := callTarget (pageOf (vcwTarget w)) x.targets }

/-- CALL. -/
def execCallRec (q : Nat) (s : State) : Host.Outcome State Fault Refusal := .next (s.record q 0x04 (callEffect q))

/-- RET pops an entry (R79). -/
def retEffect (q : Nat) : Effect := fun _ _ _ s =>
  let x := s.seqX q
  match x.stack with
  | [] => s
  | (r, _) :: rest => s.setSeqX q { x with stack := rest, pc := r }

/-- RET. -/
def execRet (q : Nat) (s : State) : Host.Outcome State Fault Refusal := .next (s.record q 0x05 (retEffect q))

/-- JUMP (R82). -/
def execJump (q : Nat) (s : State) : Host.Outcome State Fault Refusal :=
  .next (s.record q 0x06 fun _ w _ t => t.jump q w)

/-- JUMPIF acts as JUMP when COND holds at its decode (R83). -/
def jumpIfEffect (q : Nat) : Effect := fun _ w c s => if s.condHolds q (vcwCond w) c then s.jump q w else s

/-- JUMPIF. -/
def execJumpif (q : Nat) (s : State) : Host.Outcome State Fault Refusal := .next (s.record q 0x07 (jumpIfEffect q))

/-- MATCH opens a match level; its passes are counted from 0 (R92). -/
def matchEffect (q : Nat) : Effect := fun a w _ s =>
  let x := s.seqX q
  let l : Level := { body := a + s.recWords q, isMatch := true, rem := vcwCount w - 1, blk := x.nextBlk, cond := vcwCond w,
                     toFlag := if testBit w 36 then some (w / 2 ^ 32 % 16) else none, toStop := testBit w 37 }
  s.setSeqX q { x with levels := l :: x.levels, blocks := x.blocks ++ [{ id := x.nextBlk, cond := vcwCond w }],
                       nextBlk := x.nextBlk + 1, newPass := true }

/-- MATCH. -/
def execMatchRec (q : Nat) (s : State) : Host.Outcome State Fault Refusal := .next (s.record q 0x08 (matchEffect q))

/-! ### Flags (R86, R89, R97) -/

/-- The cycle count of the record's first vector. -/
def State.firstCycle (s : State) (q : Nat) : Nat := s.cycle q - vectors (s.get F.seqCtrlMode q)

/-- Changes the runs of sites that belong to the present run of SEQ[q]. -/
def State.modRuns (s : State) (q : Nat) (f : SiteRun → SiteRun) : State :=
  { s with site := { s.site with runs := s.site.runs.map fun r =>
    if r.seq = q ∧ r.run = (s.seqX q).run then f r else r } }

/-- The forced fail (R86): the sequencer's accumulator and every site's. (DEDUCED, log entry 34.) -/
def State.forceFail (s : State) (q : Nat) : State :=
  let x := s.seqX q
  (s.setSeqX q { x with acc := (32 :: s.sitesOf q).foldl (fun l k => setAcc k 0 l) x.acc }).modRuns q fun r =>
    { r with failed := true }

/-- The accumulators are cleared in the order of the vector stream (R86). -/
def State.clearAcc (s : State) (q n : Nat) : State :=
  (s.setSeqX q { (s.seqX q) with acc := [], accFrom := n }).modRuns q fun r => { r with failed := false, accFrom := n }

/-- FLAGSET. -/
def flagSetEffect (q : Nat) : Effect := fun _ w c s =>
  let sp := w / 64 % 4
  if sp = 0 then s.setLf q (w % 64) true
  else if sp = 1 then s.defer q c [.gf (w % 64) true]
  else if sp = 2 then s.forceFail q
  else s

/-- FLAGSET (R97). -/
def execFlagset (q : Nat) (s : State) : Host.Outcome State Fault Refusal := .next (s.record q 0x09 (flagSetEffect q))

/-- FLAGCLR. -/
def flagClrEffect (q : Nat) : Effect := fun _ w c s =>
  let sp := w / 64 % 4
  if sp = 0 then s.setLf q (w % 64) false
  else if sp = 1 then s.defer q c [.gf (w % 64) false]
  else if sp = 2 then s.clearAcc q (s.firstCycle q)
  else s

/-- FLAGCLR (R97). -/
def execFlagclr (q : Nat) (s : State) : Host.Outcome State Fault Refusal := .next (s.record q 0x0A (flagClrEffect q))

/-! ### Holds (R98 to R104) -/

/-- The first repetition of a hold; its TIMEOUT counts from the first boundary at or after its start (R102). -/
def openHold (raise : Bool) (w c : Nat) : Hold :=
  { raise := raise, bar := if raise then 0 else w / 2 ^ 37 % 8
    since := c, timeout := w % 2 ^ 32
    toFlag := if testBit w 36 then some (w / 2 ^ 32 % 16) else none }

/-- A hold repetition: HOLDING, and its end is a peg point (R98). -/
def State.holding (s : State) (q : Nat) (h : Hold) : State :=
  (s.setSeqX q { (s.seqX q) with hold := some h, peg := true }).set F.seqStatusState q 0 2

/-- WAITRAISE. -/
def waitRaiseEffect (q : Nat) : Effect := fun _ w c s => s.holding q (((s.seqX q).hold).getD (openHold true w c))

/-- WAITRAISE: one hold repetition (R98). -/
def execWaitraise (q : Nat) (s : State) : Host.Outcome State Fault Refusal := .next (s.record q 0x0B (waitRaiseEffect q))

/-- BARRIER: the first repetition is the sequencer's arrival (R103). -/
def barrierEffect (q : Nat) : Effect := fun _ w c s =>
  match (s.seqX q).hold with
  | some h => s.holding q h
  | none => (s.holding q (openHold false w c)).defer q c [.arrive (w / 2 ^ 37 % 8)]

/-- BARRIER: one hold repetition (R98). -/
def execBarrier (q : Nat) (s : State) : Host.Outcome State Fault Refusal := .next (s.record q 0x0C (barrierEffect q))

/-! ### Actions on the bays (R105 to R110) -/

/-- TRIGGER (R106). -/
def triggerEffect (q : Nat) : Effect := fun _ w c s => s.defer q c ((s.ownBays q (w % 256)).map fun b => .trigger b c)

/-- TRIGGER. -/
def execTrigger (q : Nat) (s : State) : Host.Outcome State Fault Refusal := .next (s.record q 0x0D (triggerEffect q))

/-- MEASURE (R107): a window edge tied to the record's first vector, or an urgent request. -/
def measureEffect (q : Nat) : Effect := fun _ w c s =>
  let act := w / 256 % 4
  s.defer q c ((s.ownBays q (w % 256)).map fun b =>
    if act = 3 then .urgent b (w / 1024 % 16) else .window b act c)

/-- MEASURE. -/
def execMeasure (q : Nat) (s : State) : Host.Outcome State Fault Refusal := .next (s.record q 0x0E (measureEffect q))

/-- TIMARM (R108): units of bays of the sequencer. -/
def timArmEffect (q : Nat) : Effect := fun _ w c s =>
  s.defer q c (((bitsBelow 32 (w % 2 ^ 32)).filter fun m => decide (s.bayOf (m / 4) = some q)).map .timArm)

/-- TIMARM. -/
def execTimarm (q : Nat) (s : State) : Host.Outcome State Fault Refusal := .next (s.record q 0x0F (timArmEffect q))

/-- FEAPPLY (R109). -/
def feApplyEffect (q : Nat) : Effect := fun _ w c s =>
  s.defer q c ((s.ownBays q (w % 256)).map fun b => .feStart b (w / 256 % 64))

/-- FEAPPLY. -/
def execFeapply (q : Nat) (s : State) : Host.Outcome State Fault Refusal := .next (s.record q 0x10 (feApplyEffect q))

/-- PAGEHINT names a page to the lookahead, at its decode too where the lookahead has not requested it (R110, R200). -/
def pageHintEffect (q : Nat) : Effect := fun _ w _ s =>
  let d := (s.seqX q).look.path.length + 1
  if s.page.reqs.any fun r => decide (r.page = w % 32768 ∧ r.want = .look ∧ r.by_ = q) then s
  else s.request { page := w % 32768, level := if vcwHint w then 2 else 3, want := .look, dist := d, by_ := q }

/-- PAGEHINT. -/
def execPagehint (q : Nat) (s : State) : Host.Outcome State Fault Refusal := .next (s.record q 0x11 (pageHintEffect q))

/-! ### Last records (R111) -/

/-- STOPIFFAIL: STOP_REASON 5. -/
def stopIfFailEffect (q : Nat) : Effect := fun _ w c s =>
  if s.condHolds q (vcwCond w) c then s.beginStop q 5 false none else s

/-- STOPIFFAIL. -/
def execStopiffail (q : Nat) (s : State) : Host.Outcome State Fault Refusal := .next (s.record q 0x12 (stopIfFailEffect q))

/-- HALT: PAUSED with STOP_REASON 2. -/
def execHalt (q : Nat) (s : State) : Host.Outcome State Fault Refusal :=
  .next (s.record q 0x13 fun _ _ _ t => t.beginStop q 2 true none)

/-- END: STOPPED with STOP_REASON 1. -/
def execEndRec (q : Nat) (s : State) : Host.Outcome State Fault Refusal :=
  .next (s.record q 0x14 fun _ _ _ t => t.beginStop q 1 false none)

/-! ### Watchdog, time-outs, releases, park -/

/-- The peg watchdog expires (R118): LIMIT event ticks since the first stop action became pending, with no peg point.
(DEDUCED, log entry 33.) -/
def execPegWatchdog (q : Nat) (s : State) : Host.Outcome State Fault Refusal :=
  let x := s.seqX q
  match x.watch with
  | some t =>
    if t + s.get F.seqPegWatchdogLimit q ≤ s.ticks ∧ x.pend ≠ [] ∧ x.ending.isNone then
      .next (s.setSeqX q { x with forced := some ((t + s.get F.seqPegWatchdogLimit q) * 8192) })
    else .next s
  | none => .next s

/-- A raising whose instant falls at the present boundary releases a WAITRAISE of SEQ[q]: none of the tick's cancels or stops
prevents it, and the device does not refuse it (R100, R102). -/
def State.releasedNow (s : State) (q : Nat) : Bool :=
  ((List.range 16).any fun e => s.bit F.timeRaiseNsScheduled 0 e && testBit (s.get F.timeRaiseNsSeqmask 0 e) q
    && decide (s.raiseInstant e ≤ s.station) && decide ((s.judge (.raise e) 5 (srcRank .hw) 1).1 ≠ .superseded))
  && !(s.baysOf q).any s.bayBusy && !s.bit F.clkStatusRefLost
  && decide ((s.judge (.seq q) 5 (srcRank .raising) 3).1 ≠ .superseded)

/-- A hold's TIMEOUT expires (R99, R102): the hold ends at this boundary, unless a raising of this boundary releases it. -/
def execHoldTimeout (q : Nat) (s : State) : Host.Outcome State Fault Refusal :=
  let x := s.seqX q
  match x.hold with
  | none => .next s
  | some h =>
    if h.timeout ≠ 0 ∧ tickAt h.since + h.timeout ≤ s.ticks ∧ h.release.isNone ∧ h.start.isNone
        ∧ (h.raise = false ∨ s.releasedNow q = false) then
      let t := (s.setSeqX q { x with hold := some { h with release := some s.ticks } }).hwSet F.seqStatusHoldTimeout q 0
      .next (match h.toFlag with
        | some i => t.setLf q i true
        | none => t)
    else .next s

/-- All participants of barrier `i` of SEQ[q] have arrived (R103). -/
def execBarrierRelease (q i : Nat) (s : State) : Host.Outcome State Fault Refusal :=
  .next (if s.barrierMet q i then s.barrierRelease q i else s)

/-- Channels whose park instant has come park, and STATE follows (R112). -/
def execPark (q : Nat) (s : State) : Host.Outcome State Fault Refusal := .next (s.tryPark q)

/-- The outcomes of a raising on the named sequencers, and the state after their launches (R262). -/
def State.launchAll (s : State) (mask : Nat) : Nat × State :=
  (List.range 4).foldl (fun (acc : Nat × State) q =>
    if testBit mask q then
      let r := acc.2.launch q
      (acc.1 + r.1 * 256 ^ q, r.2)
    else (acc.1 + 0xFF * 256 ^ q, acc.2)) (0, s)

/-- Station time reaches the instant of a SCHEDULED entry (R262): it becomes FREE and launches, resumes or releases the
sequencers of SEQMASK; a RAISE_DONE record reports the outcomes. -/
def execRaiseFire (e : Nat) (s : State) : Host.Outcome State Fault Refusal :=
  if s.bit F.timeRaiseNsScheduled 0 e ∧ s.raiseInstant e ≤ s.station then
    .next (s.onObj (.raise e) 5 (srcRank .hw) 1 fun t =>
      let u := (t.set F.timeRaiseNsScheduled 0 e 0).updatePending
      let r := u.launchAll (t.get F.timeRaiseNsSeqmask 0 e)
      r.2.post 0x0603 e (t.get F.timeRaiseSecTag 0 e + r.1 * 2 ^ 32))
  else .next (s.discardAt (.raise e) 5)

end Sys2Proof.Machine
end

