-- ==== Sys2Proof/Machine/Site.lean ====
section
/-!
DEFINITION. Site.lean: the commands of sites (07_sites_replication_and_isolation.md).
-/
namespace Sys2Proof.Machine

/-- SITE.CTRL.COMMIT (R220). -/
def execSiteCommit (s : State) : Host.Outcome State Fault Refusal := .next s.siteCommit.2

/-- A write of SITE[k].CTRL.RETIRE = 1 (R229): the bit stays set, and the site becomes RETIRED. -/
def execRetire (k : Nat) (s : State) : Host.Outcome State Fault Refusal :=
  .next ((s.set F.sitekCtrlRetire k 0 1).retire k)

/-- The run of site `k` whose end is to be signalled: every outcome has been delivered after its last vector (R231). -/
def State.endedRun (s : State) (k : Nat) : Option (SiteRun × Nat) :=
  s.site.runs.findSome? fun r =>
    match r.stopCycle with
    | some n => if r.site = k ∧ s.siteAwaits r = false then some (r, n) else none
    | none => none

/-- The end of a run of site `k` (R231). -/
def execSiteEnd (k : Nat) (s : State) : Host.Outcome State Fault Refusal :=
  .next (match s.endedRun k with
    | some (r, n) => s.siteEnd r n
    | none => s)

end Sys2Proof.Machine
end

