-- ==== Sys2Proof/Machine/Tim.lean ====
section
/-!
DEFINITION. Tim.lean: the commands of the time-interval units (14_time_interval_measurement.md).
-/
namespace Sys2Proof.Machine

/-- TIM_CTRL.ARM (R407). -/
def execTimArm (m : Nat) (src : Src) (s : State) : Host.Outcome State Fault Refusal := .next (s.timArm m src)

/-- TIM_CTRL.DISARM (R407): a measurement ends without a result, a series after its last entry. -/
def execTimDisarm (m : Nat) (src : Src) (s : State) : Host.Outcome State Fault Refusal :=
  .next (s.onObj (.tim m) 2 (srcRank src) 0 fun t =>
    if t.timState m = 2 then (t.timSettle m (t.timNow m)).endSeries m else if t.timState m = 1 then t.timIdle m else t)

/-- TIM_CTRL.CLEAR (R407). -/
def execTimResultClear (m : Nat) (src : Src) (s : State) : Host.Outcome State Fault Refusal :=
  .next (s.onObj (.tim m) 3 (srcRank src) 2 fun t =>
    ((t.timSet F.bayTimResultResult m 0).timSet F.bayTimAuxAux m 0).timSet F.bayTimStatDone m 0)

/-- A crossing of source `src` reaches TIM[m] (R399 to R403): its polarity, and its position. What sequencers have
armed at the present boundary has begun. -/
def execTimEdge (m src : Nat) (rising : Bool) (p : Int) (s : State) : Host.Outcome State Fault Refusal :=
  .next ((s.armsDue m).timCross m src rising p)

/-- A measurement completes (R404, R407): class 6; discarded, it is lost. -/
def execTimComplete (m : Nat) (s : State) : Host.Outcome State Fault Refusal :=
  let s := s.timSettle m (s.timNow m)
  match (s.tim m).due with
  | some k =>
    if s.timState m = 1 ∧ k ≤ s.ticks then
      match s.decideEvent (.tim m) 6 0 3 with
      | (.superseded, t) => .next (t.timIdle m)
      | (_, t) =>
        match t.timValues m with
        | ((r, a), u) => .next (u.timDone m r a)
    else .next (s.discardAt (.tim m) 6)
  | none => .next (s.discardAt (.tim m) 6)

/-- AUX of a measurement that times out: the position of its start where it has one; else the spec states no value. -/
def State.timeoutAux (s : State) (m : Nat) : Nat × State :=
  match (s.tim m).first, decide ((s.tim m).get F.bayTimCfgMode m = 3) with
  | some p, false => (p, s)
  | _, _ => (s.freeVal, s.useFree)

/-- TIMEOUT event ticks pass after the arm (R405). -/
def execTimTimeout (m : Nat) (s : State) : Host.Outcome State Fault Refusal :=
  let s := s.timSettle m (s.timNow m)
  let x := s.tim m
  let n := x.get F.bayTimTimeTimeout m
  if n ≠ 0 ∧ x.armTick + n ≤ s.ticks ∧ s.timState m ≠ 0 ∧ x.get F.bayTimCfgMode m ≠ 4 then
    match s.decideEvent (.tim m) 6 0 3 with
    | (.superseded, t) => .next (t.timIdle m)
    | (_, t) =>
      if t.timState m = 2 then .next (t.endSeries m)
      else
        match t.timeoutAux m with
        | (a, u) => .next ((u.timSet F.bayTimStatTimedout m 1).timDone m 0 a)
  else .next s

/-- A series entry is written: it holds three stamps, or 10 µs (1,500 event ticks) have passed since its first (R408). -/
def execSeriesEntry (m : Nat) (s : State) : Host.Outcome State Fault Refusal :=
  let s := s.timSettle m (s.timNow m)
  let x := s.tim m
  .next (if s.timState m = 2 ∧ (3 ≤ x.queue.length ∨ (x.queue ≠ [] ∧ x.since + 1500 ≤ s.ticks)) then s.seriesEntry m else s)

/-- TIM_STAT.CLEAR. -/
def execTimStatClear (m : Nat) (s : State) : Host.Outcome State Fault Refusal :=
  .next (((s.clear F.bayTimStatLost (m / 4) (m % 4)).clear F.bayTimStatBusyDiscard (m / 4) (m % 4)).timSet
    F.bayTimStatCountSaturated m 0)

end Sys2Proof.Machine
end

