-- ==== Sys2Proof/Machine/Timing.lean ====
section
/-!
DEFINITION. Timing.lean: the commands of timing sets, edges and the DUT clock generators
(04_timing_sets_edges_and_waveforms.md).
-/
namespace Sys2Proof.Machine

/-- SEQ[q].TS_CTRL.COMMIT (R123, R124); a changed period ends a calibration that uses it (R441). -/
def execTableCommit (q : Nat) (src : Src) (s : State) : Host.Outcome State Fault Refusal :=
  .next (s.tableCommit q src none).calWatch

/-- A start of a FREE generator (R144): the first rising edge is at the next boundary. A generator that runs goes on; one that
stops after its next falling edge restarts at the first boundary after that edge. -/
def State.dclkStart (s : State) (b g : Nat) : State :=
  let x := { ((s.dclk b g).settle s.now17) with duty := s.dutyOf b g (s.dclk b g).trim }
  let k := (s.ticks + 1) * 8192 * 131072
  match x.start, x.stopAt with
  | none, _ => s.setDclk b g (x.begin (some k))
  | some _, none => s
  | some _, some f => s.setDclk b g { x with next := some (max k ((f / 1073741824 + 1) * 1073741824)) }

/-- DCLK_CTRL.START: no effect in LOCKED mode (R145). -/
def execDclkStart (b g : Nat) (src : Src) (s : State) : Host.Outcome State Fault Refusal :=
  .next (if (s.dclk b g).locked then s else s.onObj (.dclk b g) 5 (srcRank src) 1 fun t => t.dclkStart b g)

/-- DCLK_CTRL.DISABLE: the generator stops after its next falling edge (R144). -/
def execDclkDisable (b g : Nat) (src : Src) (s : State) : Host.Outcome State Fault Refusal :=
  .next (s.onObj (.dclk b g) 2 (srcRank src) 0 fun t => t.setDclk b g ((t.dclk b g).halt t.now17))

/-- A frequency commit (R144, R145): the staged settings are loaded for the next run; a running generator stops at its next falling edge,
and restarts at the first boundary after that edge. The spec does not say which mode decides where the commit changes MODE, nor what
a commit does between a disable and the falling edge that ends the run: here the mode that is loaded decides, and the generator
restarts in FREE mode. (DESIGN CHOICE, log entry 109.) -/
def State.dclkCommit (s : State) (b g : Nat) : State :=
  let x := (s.dclk b g).halt s.now17
  let locked := s.bit F.bayDclkCtrlMode b g
  s.setDclk b g { x with
    period := s.get F.bayDclkPeriodPeriod b g
    locked := locked
    seqsel := s.get F.bayDclkCtrlSeqsel b g
    offset := s.get F.bayDclkCtrlOffset b g
    trim := s.getS F.bayDclkCtrlDutyTrim b g
    duty := s.dutyOf b g (s.getS F.bayDclkCtrlDutyTrim b g)
    next := match x.stopAt with
      | some f => if locked then none else some ((f / 1073741824 + 1) * 1073741824)
      | none => none }

/-- DCLK_CTRL.COMMIT. -/
def execFrequencyCommit (b g : Nat) (src : Src) (s : State) : Host.Outcome State Fault Refusal :=
  .next (s.onObj (.dclk b g) 4 (srcRank src) 2 fun t => t.dclkCommit b g)

/-- A drive event is applied, or suppressed and counted under the kerf rule (R137, R138). -/
def State.driveEvent (s : State) (c : Nat) (e : Ev) (rest : List Ev) : State :=
  if kerfHit e rest then
    s.count F.bayEdgeStatEdgeCollision F.bayEdgeStatCollisionSaturated (c / 16) (c % 16) 1
  else s.applyDrive c e

/-- The first queued event of channel `c` takes effect (R137): a drive event acts on DRV and DEN (R128, R138), a compare event on
CMPH and CMPL, whose samples are operands. An event waits until every vector that could put another into its kerf has
begun. (DEDUCED, log entry 8.) -/
def execEdgeApply (c : Nat) (high low : List (Nat × Bool)) (s : State) : Host.Outcome State Fault Refusal :=
  match (s.chan c).queue with
  | [] => .next s
  | e :: rest =>
    if e.time + 128 ≤ s.nowFu then
      let t := s.setChan c { (s.chan c) with queue := rest }
      .next (if isDrive e.code then t.driveEvent c e rest else (t.applyCompare c e high low).compared e.vec.seq)
    else .next s

/-- EDGE_STAT[i].CLEAR (R149). -/
def execEdgeStatClear (b i : Nat) (s : State) : Host.Outcome State Fault Refusal :=
  .next ((((s.clear F.bayEdgeStatEdgeCollision b i).clear F.bayEdgeStatQueueOverflow b i).set
    F.bayEdgeStatCollisionSaturated b i 0).set F.bayEdgeStatOverflowSaturated b i 0)

end Sys2Proof.Machine
end

