-- ==== Sys2Proof/Machine/OpsWrite.lean ====
section
/-!
DEFINITION. OpsWrite.lean: what a write of a whole register does: configuration fields are in place first (R506), then the
W1C clears and action bits act, in the order of their classes (R56).
-/
namespace Sys2Proof.Machine

/-! ### Parts of a write -/

/-- The state that a command's meaning leaves. -/
def State.doing (s : State) (f : State → Host.Outcome State Fault Refusal) : State :=
  match f s with
  | .next t => t
  | _ => s

/-- Where bit `n` of a written word is 1, `f` acts. (DEDUCED, log entry 20.) -/
def State.act (s : State) (d : Word) (n : Nat) (f : State → State) : State := if testBit d.toNat n then f s else s

/-- Where bit `n` of a written word is 1, the command `f` is performed. -/
def State.actDo (s : State) (d : Word) (n : Nat) (f : State → Host.Outcome State Fault Refusal) : State :=
  s.act d n fun t => t.doing f

/-- Bit `n` of a register is W1C. -/
def w1cAt (fs : List FieldDesc) (n : Nat) : Bool :=
  fs.any fun f => decide (f.access = .w1c) && decide (f.lo ≤ n) && decide (n < f.lo + f.width)

/-- A W1C write of one bit: a class 3 clear (R13). -/
def State.w1cBit (s : State) (k : RegKey) (n : Nat) : State :=
  s.clearing (s.wr k (withBits (s.rd k) n 1 0)) k n

/-- The W1C bits of a register that are written 1 (R12, R13). -/
def State.w1c (s : State) (k : RegKey) (d : Word) : State :=
  ((List.range 64).filter fun n => testBit d.toNat n && w1cAt k.name.desc.fields n).foldl (fun (t : State) n => t.w1cBit k n) s

/-- A write of a register whose fields have no further effect. -/
def State.plainWrite (s : State) (k : RegKey) (host : Bool) (d : Word) : State := (s.storeRw k host d).w1c k d

/-- The field `f` keeps the value it had in `old`: its write does not store it. -/
def State.keep (s old : State) (f : Fld) (i j : Nat) : State := s.set f i j (old.get f i j)

/-! ### Time (R243, R248 to R251, R266) -/

/-- TIME.CTRL: a follower ignores SELECT and AUTOSWITCH; LOCKSTEP = follower waits for the next check message (R250). -/
def State.timeCtrlWrite (s : State) (k : RegKey) (host : Bool) (d : Word) : State :=
  let t := s.plainWrite k host d
  let t := if s.isFollower then (t.keep s F.timeCtrlSelect 0 0).keep s F.timeCtrlAutoswitch 0 0 else t
  let t :=
    if t.isFollower then
      (if s.bit F.timeStatusLockstepOk then t
        else { t with time := { t.time with joining := true, lastCheck := t.ticks, pendingChanges := [], checkA := none, checkB := none } })
    else if s.isFollower then
      ({ t with time := { t.time with joining := false, checkA := none, checkB := none } }).set F.timeStatusLockstepOk 0 0 0
    else t
  let t := t.changeAt t.time.ct fun c => { c with slew := t.get F.timeCtrlSlew * 3579 }
  if s.isFollower then t else t.ask (.select (bitsOf d 0 1))

/-- TIME.DOM[d].CTRL: ENABLE starts and stops the servo (R242). (DEDUCED, log entry 26.) -/
def State.domCtrlWrite (s : State) (k : RegKey) (host : Bool) (d : Word) : State :=
  let n := k.inst
  let t := (s.plainWrite k host d).act d 2 fun u => u.ask (.clearI n)
  let on := t.bit F.domCtrlEnable n
  if on = s.bit F.domCtrlEnable n then t
  else if on then
    let u := (t.setServo n { (t.servo n) with good := 0, lastAccept := t.ticks }).set F.domStatusState n 0 1
    if u.bit F.clkStatusRefLost then u.servoHold n else u
  else t.set F.domStatusState n 0 0

/-- A register of TIME.DOM[d]: a follower ignores it (R250). (DEDUCED, log entry 25.) -/
def State.domWrite (s : State) (k : RegKey) (host : Bool) (d : Word) : State :=
  let n := k.inst
  if s.isFollower then s
  else
    match k.name with
    | .domCtrl => s.domCtrlWrite k host d
    | .domAddend =>
      if s.before F.domStatusState n = 0 then
        s.ask (.write (.addend n ((s.plainWrite k host d).get F.domAddendAddend n)))
      else s
    | .domGain =>
      let t := s.plainWrite k host d
      s.ask (.write (.gain n (t.get F.domGainKp n) (t.get F.domGainKi n) (t.get F.domGainIlimit n)))
    | .domSampleOffset => s.submitSample n (signed 64 d.toNat)
    | .domStep => s.ask (.step n (signed 64 d.toNat))
    | .domStatus => (s.w1c k d).actDo d 63 (execRejectCountClear n)
    | _ => s.plainWrite k host d

/-- TIME.PORT_CFG: a disabled port has no link. -/
def State.portCfgWrite (s : State) (k : RegKey) (host : Bool) (d : Word) : State :=
  let t := ((s.plainWrite k host d).rearm 5 0).rearm 6 0
  if t.bit F.timePortCfgEnable then t else t.set F.timePortCfgLink 0 0 0

/-! ### Oluel (R273, R277, R294) -/

/-- OLU[p].CTRL. -/
def State.olupCtrlWrite (s : State) (k : RegKey) (host : Bool) (d : Word) : State :=
  let p := k.inst
  let t := (s.plainWrite k host d).keep s F.olupCtrlEnable p 0
  let t := if testBit d.toNat 0 then t.oluEnableOp p else if t.bit F.olupCtrlEnable p then t.oluDisableOp p else t
  t.actDo d 1 (execRetrain p)

/-- OLU.GF_OP (R284). -/
def State.gfOpWrite (s : State) (src : Src) (d : Word) : State :=
  let i := bitsOf d 0 6
  ((s.act d 8 fun t => t.gfResetOp src true).act d 7 fun t => t.gfOp i false src true).act d 6 fun t => t.gfOp i true src true

/-- OLU.BULK_CTRL[i]: the write-back of LENGTH is in place before GO acts. -/
def State.bulkCtrlWrite (s : State) (k : RegKey) (host : Bool) (d : Word) : State :=
  (s.plainWrite k host d).act d 25 fun t => t.bulkGo k.elem (bitsOf d 0 25)

/-! ### Host rings (R300, R307) -/

/-- RING[q].BASE, CFG, IDXWB and EVMASK: only where the ring was DISABLED before the tick (R300, R506). -/
def State.ringSetup (s : State) (k : RegKey) (host : Bool) (d : Word) : State :=
  if s.before F.ringStatusState k.inst = 0 then
    let t := s.plainWrite k host d
    if k.name = .ringCfg then (t.rearm 1 k.inst).rearmRing k.inst else t
  else s

/-- RING[q].CTRL. -/
def State.ringCtrlWrite (s : State) (q : Nat) (src : Src) (d : Word) : State :=
  ((s.actDo d 2 (execRingReset q src)).actDo d 1 (execRingDisable q src)).actDo d 0 (execRingEnable q src)

/-! ### DRAM (R414 to R420, R433, R435) -/

/-- DRM.CTRL. -/
def State.drmCtrlWrite (s : State) (k : RegKey) (host : Bool) (d : Word) : State :=
  let t := (s.plainWrite k host d).keep s F.drmCtrlEnable 0 0
  let t := if testBit d.toNat 0 then t.doing execDramEnable else t.doing execDramDisable
  (t.actDo d 1 execSrEnter).actDo d 2 execSrExit

/-- DRM.PANIC: HIGH is clamped to LOW + 16 … 256. -/
def State.panicWrite (s : State) (k : RegKey) (host : Bool) (d : Word) : State :=
  let t := s.plainWrite k host d
  let t := t.set F.drmPanicHigh 0 0 (max (t.get F.drmPanicLow + 16) (min 256 (bitsOf d 9 9)))
  (t.actDo d 63 execPanicClear).updatePanic

/-- MCH[m].CTRL. -/
def State.mchCtrlWrite (s : State) (k : RegKey) (host : Bool) (d : Word) : State :=
  ((s.plainWrite k host d).keep s F.mchCtrlTrain k.inst 0).writeTrain k.inst (testBit d.toNat 0)

/-- MCH[m].DLY_DATA writes the shadow delay that DLY_SEL addresses (R419). -/
def State.shadowWrite (s : State) (m v : Nat) : State :=
  { s with dram := { s.dram with shadow := putUnit 64 s.dram.shadow (s.delayKey m) v } }

/-- TRAIN_CMD.GO (R420): an MRW is performed; MRR and WLEVEL are refused outside training mode; what the devices must answer
is awaited. (DEDUCED, log entry 84.) -/
def State.trainGo (s : State) (m : Nat) : State :=
  let op := s.get F.mchTrainCmdOp m
  if op = 0 then s.mrw m
  else if (op = 1 ∨ op = 4) ∧ s.inTraining m = false then s.trainDone m true
  else (s.set F.mchTrainResDone m 0 0).set F.mchTrainResRefused m 0 0

/-! ### Paging (R215, R216) -/

/-- PGT.FRAMES: ignored while any entry holds a frame; COUNT is clamped to the index range and to the installed DRAM. -/
def State.framesWrite (s : State) (d : Word) : State :=
  if s.clk.was.framed then s
  else
    let first := bitsOf d 0 11
    (s.set F.pgtFramesFirst 0 0 first).set F.pgtFramesCount 0 0
      (min (bitsOf d 16 12) (min (2048 - first) (s.get F.drmInfoFrames - first)))

/-- PGT.WIN_CMD: a write is performed before a read (R216). -/
def State.winCmdWrite (s : State) (k : RegKey) (host : Bool) (d : Word) : State :=
  let t := s.plainWrite k host d
  (t.act d 17 fun u => u.winWrite (bitsOf d 0 15)).act d 16 fun u => u.winRead (bitsOf d 0 15)

/-! ### Dispatcher and cores (R334, R348, R355, R357) -/

/-- DISP.OP: one store operation of OP 0x0 to 0x4 or 0xA (R348). -/
def State.dispOpWrite (s : State) (src : Src) (d : Word) : State :=
  let op := bitsOf d 0 4
  let j := bitsOf d 4 10
  let v := bitsOf d 32 32
  if op = 0 then s.makeReadyOp j src
  else if op = 1 then s.cancelOp j src
  else if op = 2 then s.setFlags j v src
  else if op = 3 then s.clrFlagsOp j v src
  else if op = 4 then s.slotResetOp j src
  else if op = 10 then s.submitOp (bitsOf d 4 4) (v % 2 ^ 22) src
  else s

/-- DISP.FLOW_CFG[f]. -/
def State.flowCfgWrite (s : State) (f : Nat) (src : Src) (d : Word) : State :=
  let t := s.storeFlowCfg f d
  let t := t.act d 1 fun u => u.flowResetOp f src
  if testBit d.toNat 0 then t.set F.dispFlowCfgEnable 0 f 1 else t.flowDisableOp f src

/-- CORE.MAILBOX: only while PROD = CONS; BASE + ENTRIES stays below 32,768. -/
def State.mailboxWrite (s : State) (k : RegKey) (host : Bool) (d : Word) : State :=
  if s.before F.coreMailIdxProd = s.before F.coreMailIdxCons then
    let t := s.plainWrite k host d
    t.set F.coreMailboxBase 0 0 (min (32767 - t.get F.coreMailboxEntries) (bitsOf d 0 15))
  else s

/-! ### Sequencers (R121, R147, R175, R179) -/

/-- SEQ[q].CTRL: MODE and WIDTH only where it was STOPPED before the tick (R121, R506); a changed mode ends a calibration that uses it (R441). -/
def State.seqCtrlWrite (s : State) (k : RegKey) (host : Bool) (src : Src) (d : Word) : State :=
  let q := k.inst
  let t := if s.seqBefore q = 0 then (s.plainWrite k host d).calWatch else s
  let t := (t.actDo d 3 (execAbort q src)).actDo d 2 (execPauseRequest q src)
  ((t.act d 4 fun u => u.faultClear q src).actDo d 0 (execSeqStart q src)).actDo d 1 (execSeqResume q src)

/-- SEQ[q].LFLAGS: LF only while STOPPED or PAUSED. -/
def State.lflagsWrite (s : State) (k : RegKey) (host : Bool) (d : Word) : State :=
  let t := s.plainWrite k host d
  if s.seqBefore k.inst = 0 ∨ s.seqBefore k.inst = 4 then t else t.keep s F.seqLflagsLf k.inst 0

/-- SEQ[q].TS_CTRL. -/
def State.tsCtrlWrite (s : State) (k : RegKey) (host : Bool) (src : Src) (d : Word) : State :=
  (s.plainWrite k host d).actDo d 0 (execTableCommit k.inst src)

/-- The read index of a ring in DRAM: at most 2^SIZE − 1 (R175); ignored while a mirror consumes the ring (R174). -/
def State.rdWrite (s : State) (mirror : Bool) (f : Fld) (b size : Nat) (d : Word) : State :=
  if mirror then s else s.set f b 0 (min (2 ^ size - 1) (bitsOf d 32 32))

/-- SITE[k].CTRL: RETIRE written 1 retires the site (R229). -/
def State.siteCtrlWrite (s : State) (k : RegKey) (host : Bool) (d : Word) : State :=
  (s.plainWrite k host d).act d 3 fun t => t.retire k.inst

/-! ### Bays -/

/-- BAY[b].PARK is in force at once on parked channels (R114); a calibrating bay drives its own levels. -/
def State.parkWrite (s : State) (k : RegKey) (host : Bool) (d : Word) : State :=
  let b := k.inst
  let t := s.plainWrite k host d
  if t.calibrating b then t
  else (chansOf b).foldl (fun (u : State) c => if (u.chan c).parked then u.parkLevels c u.nowFu else u) t

/-- A calibrated value: ignored where the bay calibrated before the tick (R454, R506). -/
def State.calValueWrite (s : State) (k : RegKey) (host : Bool) (d : Word) : State :=
  if testBit (s.before F.calStatusBusy) k.inst then s else s.plainWrite k host d

/-- BAY[b].CAL_BAY: ignored while the bay calibrates or its sequencer is not STOPPED (R454). -/
def State.calBayWrite (s : State) (k : RegKey) (host : Bool) (d : Word) : State :=
  let running : Bool := match s.bayOf k.inst with
    | some q => decide (s.seqBefore q ≠ 0)
    | none => false
  if running then s else s.calValueWrite k host d

/-- DCLK_CTRL[g]. -/
def State.dclkCtrlWrite (s : State) (k : RegKey) (host : Bool) (src : Src) (d : Word) : State :=
  let b := k.inst
  let g := k.elem
  (((s.plainWrite k host d).actDo d 1 (execDclkDisable b g src)).actDo d 2 (execFrequencyCommit b g src)).actDo d 0
    (execDclkStart b g src)

/-- ADC_FILT: R is 1 to W. -/
def State.adcFiltWrite (s : State) (k : RegKey) (host : Bool) (d : Word) : State :=
  let t := s.plainWrite k host d
  t.set F.bayAdcFiltR k.inst 0 (max 1 (min (2 * t.get F.bayAdcFiltW k.inst + 1) (bitsOf d 3 4)))

/-- ADC_CTRL. -/
def State.adcCtrlWrite (s : State) (b : Nat) (src : Src) (d : Word) : State :=
  let t := (s.actDo d 1 (execAdcStop b src)).act d 5 fun u => u.urgentCancel b src
  let t := (t.actDo d 2 (execAccClear b src)).actDo d 3 (execSequenceCommit b src)
  let t := t.act d 10 fun u => u.bankRequest b (bitsOf d 11 1)
  (t.act d 0 fun u => u.seqTrigger b src).act d 4 fun u => u.urgentRequest b (bitsOf d 6 4) src

/-- ACQ_CTRL. -/
def State.acqCtrlWrite (s : State) (b : Nat) (src : Src) (d : Word) : State :=
  ((s.actDo d 1 (execAcqStop b src)).actDo d 0 (execRearm b src)).actDo d 2 (execForce b src)

/-- ACQ_LEVEL[i]: the hysteresis of a level type is at most 0x7FFFFF. (DEDUCED, log entry 81.) -/
def State.acqLevelWrite (s : State) (k : RegKey) (host : Bool) (d : Word) : State :=
  let t := s.plainWrite k host d
  let ty := t.get F.bayAcqCondType k.inst k.elem
  if 1 ≤ ty ∧ ty ≤ 3 then t.set F.bayAcqLevelHyst k.inst k.elem (min 0x7FFFFF (bitsOf d 32 24)) else t

/-- TIM_CTRL of TIM[m]. -/
def State.timCtrlWrite (s : State) (m : Nat) (src : Src) (d : Word) : State :=
  ((s.actDo d 1 (execTimDisarm m src)).actDo d 2 (execTimResultClear m src)).actDo d 0 (execTimArm m src)

/-- FE_CTRL (R490): an abort and a request of one write are taken in this order. -/
def State.feCtrlWrite (s : State) (b : Nat) (d : Word) : State :=
  (s.act d 7 fun t => t.feAbort b).act d 0 fun t => t.feRequest b (bitsOf d 1 6) false

/-! ### Calibration and resets (R438, R443, R444, R474) -/

/-- CAL.CTRL. -/
def State.calCtrlWrite (s : State) (k : RegKey) (host : Bool) (src : Src) (d : Word) : State :=
  let t := s.plainWrite k host d
  let t := t.actDo d 18 (execCalAbort (bitsOf d 0 8) src)
  let t := t.act d 17 fun u => (u.calStart (bitsOf d 0 8) (bitsOf d 8 8) (testBit d.toNat 16) src none).2
  t.actDo d 19 execStoreCommit

/-- CAL.REFPATH[b] (R443). -/
def State.refpathWrite (s : State) (k : RegKey) (host : Bool) (d : Word) : State :=
  if host then (s.plainWrite k host d).set F.calRefpathSet k.inst k.elem 1 else s

/-- CAL.TIME_TRIM.TRIM: only while both servos are FREE (R444). -/
def State.trimWrite (s : State) (k : RegKey) (host : Bool) (d : Word) : State :=
  if s.before F.domStatusState 0 = 0 ∧ s.before F.domStatusState 1 = 0 then s.plainWrite k host d else s

/-- RAS.RESET (R474): a host warm reset takes the narrower ones into it (R463). -/
def State.resetWrite (s : State) (src : Src) (d : Word) : State :=
  if testBit d.toNat 12 ∧ bitsOf d 16 16 = 0x5752 then s.requestReset 2
  else
    let t := (bitsBelow 4 (bitsOf d 0 4)).foldl (fun (u : State) q => u.seqReset q src) s
    (bitsBelow 8 (bitsOf d 4 8)).foldl (fun (u : State) b => u.bayReset b src false) t

/-! ### The register space -/

/-- A write of a whole register of BAY[b]. -/
def State.bayWrite (s : State) (k : RegKey) (host : Bool) (src : Src) (d : Word) : State :=
  let b := k.inst
  let j := k.elem
  match k.name with
  | .bayPark => s.parkWrite k host d
  | .bayDeskew => (s.keepDeskew (16 * b + j)).calValueWrite k host d
  | .bayFdlin => s.calValueWrite k host d
  | .bayTimOfs => s.calValueWrite k host d
  | .bayAdcCal => s.calValueWrite k host d
  | .bayCalBay => s.calBayWrite k host d
  | .bayEdgeStat => s.actDo d 63 (execEdgeStatClear b j)
  | .bayDclkCtrl => s.dclkCtrlWrite k host src d
  | .bayFailSnap => (s.act d 1 fun t => t.failCountClear b).act d 0 fun t => t.failSnap b
  | .bayCmpStat => s.actDo d 63 (execCmpStatClear b)
  | .bayAdcCtrl => s.adcCtrlWrite b src d
  | .bayAdcFilt => s.adcFiltWrite k host d
  | .bayAdcCounts => s.actDo d 63 (execAdcCountsClear b)
  | .bayAdcCoefData => s.doing (execCoefWrite b d)
  | .bayAcqCtrl => s.acqCtrlWrite b src d
  | .bayAcqRing => s.acqRingWrite b d host
  | .bayAcqPtr => s.rdWrite (s.bit F.bayAcqRingMirrorEn b) F.bayAcqPtrRd b (s.get F.bayAcqRingSize b) d
  | .bayAcqCounts => s.actDo d 63 (execAcqCountsClear b src)
  | .bayAcqLevel => s.acqLevelWrite k host d
  | .bayTimCtrl => s.timCtrlWrite (4 * b + j) src d
  | .bayTimStat => s.actDo d 63 (execTimStatClear (4 * b + j))
  | .bayFeCtrl => s.feCtrlWrite b d
  | .bayFeStat => (s.w1c k d).actDo d 63 (execFeStatClear b)
  | .bayFeLdata => s.doing (execFeLdataWrite b d)
  | _ => s.plainWrite k host d

/-- A write of a whole register of SEQ[q]. -/
def State.seqWrite (s : State) (k : RegKey) (host : Bool) (src : Src) (d : Word) : State :=
  let q := k.inst
  let j := k.elem
  match k.name with
  | .seqCtrl => s.seqCtrlWrite k host src d
  | .seqLflags => s.lflagsWrite k host d
  | .seqTsCtrl => s.tsCtrlWrite k host src d
  | .seqTsPeriod => s.stagePeriod q j d.toNat
  | .seqTsEdge => s.stageEdge q (s.get F.seqTsSelTset q) (s.get F.seqTsSelChannel q) j d.toNat
  | .seqTsWave => s.stageWave q (s.get F.seqTsSelTset q) (s.get F.seqTsSelChannel q) j d.toNat
  | .seqLogCfg => s.logCfgWrite q d host
  | .seqLogPtr => (s.rdWrite (s.bit F.seqLogCfgMirrorEn q) F.seqLogPtrRd q (s.get F.seqLogCfgSize q) d).tellFull q
  | .seqLogStat => (s.w1c k d).actDo d 63 (execLogStatClear q)
  | .seqCapCfg => s.capCfgWrite q d host
  | .seqCapPtr => s.rdWrite (s.bit F.seqCapCfgMirrorEn q) F.seqCapPtrRd q (s.get F.seqCapCfgSize q) d
  | .seqCapStat => (s.w1c k d).actDo d 63 (execCapStatClear q)
  | .seqCapSel => if s.seqBefore q = 0 then s.plainWrite k host d else s
  | .seqUnderrun => (s.w1c k d).actDo d 63 (execUnderrunClear q)
  | .seqStallTime => s.actDo d 63 (execStallTimeClear q)
  | .seqLcacheStat => s.actDo d 63 (execLcacheStatClear q)
  | _ => s.plainWrite k host d

/-- A write of a whole register of the blocks GLOBAL, CLK, TIME, OLU, HIF and RING. -/
def State.linkWrite (s : State) (k : RegKey) (host : Bool) (src : Src) (d : Word) : State :=
  let i := k.inst
  let j := k.elem
  match k.name with
  | .globalBaymap => s.baymapCommit d src
  | .clkRefmon => s.actDo d 63 execRefmonClear
  | .clkAlign => ((s.plainWrite k host d).act d 3 fun t => t.alignDisarm src).act d 0 fun t => t.alignArm src
  | .clkPrecStats => s.actDo d 63 execPrecStatsClear
  | .hifEventStat => s.actDo d 63 execEventStatClear
  | .ringBase => s.ringSetup k host d
  | .ringCfg => s.ringSetup k host d
  | .ringIdxwb => s.ringSetup k host d
  | .ringEvmask => s.ringSetup k host d
  | .ringCtrl => s.ringCtrlWrite i src d
  | .ringStatus => (s.w1c k d).actDo d 63 (execRingStatusClear i)
  | .timeCtrl => s.timeCtrlWrite k host d
  | .timePortCfg => s.portCfgWrite k host d
  | .timeSnapSec => (s.plainWrite k host d).act d 63 fun t => t.latch j (t.get F.timeSnapSecSource 0 j)
  | .oluChip => if (List.range 4).all fun p => decide (s.before F.olupStatusState p = 0) then s.plainWrite k host d else s
  | .oluGfOp => s.gfOpWrite src d
  | .oluBulkCtrl => s.bulkCtrlWrite k host d
  | .olupCtrl => s.olupCtrlWrite k host d
  | .olupErrStat => s.actDo d 63 (execOluErrStatClear i)
  | .domCtrl => s.domWrite k host d
  | .domNominal => s.domWrite k host d
  | .domAddend => s.domWrite k host d
  | .domGain => s.domWrite k host d
  | .domLock => s.domWrite k host d
  | .domSampleDelay => s.domWrite k host d
  | .domSampleOffset => s.domWrite k host d
  | .domStep => s.domWrite k host d
  | .domStatus => s.domWrite k host d
  | _ => s.plainWrite k host d

/-- A write of a whole register of the other blocks. -/
def State.blockWrite (s : State) (k : RegKey) (host : Bool) (src : Src) (d : Word) : State :=
  let i := k.inst
  let j := k.elem
  match k.name with
  | .drmCtrl => s.drmCtrlWrite k host d
  | .drmOrg => if s.before F.drmCtrlEnable = 1 then s else s.plainWrite k host d
  | .drmInfo => (s.w1c k d).actDo d 63 execOutOfRangeClear
  | .drmPanic => s.panicWrite k host d
  | .drmSr => (s.plainWrite k host d).actDo d 63 execSrClear
  | .mchCtrl => s.mchCtrlWrite k host d
  | .mchDlyData => s.shadowWrite i (bitsOf d 0 8)
  | .mchDlyApply => s.act d 0 fun t => t.apply i
  | .mchTrainCmd => (s.plainWrite k host d).act d 63 fun t => t.trainGo i
  | .mchEccStat => s.actDo d 63 (execEccStatClear i)
  | .pgtCtrl => (s.plainWrite k host d).actDo d 0 execRebuild
  | .pgtFrames => s.framesWrite d
  | .pgtWinCmd => s.winCmdWrite k host d
  | .pgtLoadStat => s.actDo d 63 execLoadStatClear
  | .pgtErrStat => s.actDo d 63 execPgtErrStatClear
  | .dispOp => s.dispOpWrite src d
  | .dispFlowCfg => s.flowCfgWrite j src d
  | .dispFlowStat => s.actDo d 63 (execFlowStatClear j)
  | .dispThrCfg => s.thrCfgOp j d
  | .dispThrWait => s.actDo d 63 (execThrWaitClear j)
  | .coreCtrl => s.coreRunOp (bitsOf d 0 4)
  | .coreStatus => s.actDo d 63 execMailNorouteClear
  | .coreLoadCtrl => (s.plainWrite k host d).act d 23 fun t => t.firmwareGo (bitsOf d 0 23)
  | .coreMailbox => s.mailboxWrite k host d
  | .coreMailIdx => s.set F.coreMailIdxCons 0 0 (min (s.get F.coreMailboxEntries - 1) (bitsOf d 8 8))
  | .calCtrl => s.calCtrlWrite k host src d
  | .calRefpath => s.refpathWrite k host d
  | .calTimeTrim => s.trimWrite k host d
  | .rasReset => s.resetWrite src d
  | .rasErrStat => s.actDo d 63 execRasErrStatClear
  | .thermTemp => s.actDo d 63 (execPeakClear j)
  | .siteCtrl => (s.plainWrite k host d).actDo d 0 execSiteCommit
  | .sitekCfg => s.stageSite i fun m => { m with seq := bitsOf d 0 2 }
  | .sitekPinmap => s.stageSite i fun m => { m with pins := putUnit 0 m.pins j d.toNat }
  | .sitekCtrl => s.siteCtrlWrite k host d
  | _ => s.plainWrite k host d

/-- A write of a whole register from host software or a core. -/
def State.regWrite (s : State) (k : RegKey) (host : Bool) (src : Src) (d : Word) : State :=
  let a := k.name.desc.base
  if a < 0xC000 then s.linkWrite k host src d
  else if 0x40000 ≤ a ∧ a < 0x80000 then s.bayWrite k host src d
  else if 0x80000 ≤ a ∧ a < 0xC0000 then s.seqWrite k host src d
  else s.blockWrite k host src d

end Sys2Proof.Machine
end

