-- ==== Sys2Proof/Machine/Registers.lean ====
section
/-!
DEFINITION. Registers.lean: accesses to BAR0 and to its core alias: sizes and halves (R10, R11), the restricted ranges (R503 to
R505), W1C clears (R13), and the MSI-X structures (R504).
-/
namespace Sys2Proof.Machine

/-! ### Requesters (R11) -/

/-- The halves of a requester. -/
def State.halvesOf (s : State) : Requester → Halves
  | .host => s.halvesHost
  | .core c => unitAt {} s.halvesCore c
  | .bar2 => s.halvesHost
  | .config => s.halvesHost

/-- Stores the halves of a requester. -/
def State.setHalves (s : State) (r : Requester) (h : Halves) : State :=
  match r with
  | .host => { s with halvesHost := h }
  | .core c => { s with halvesCore := putUnit {} s.halvesCore c h }
  | .bar2 => { s with halvesHost := h }
  | .config => { s with halvesHost := h }

/-- The requester is host software. -/
def fromHost : Requester → Bool
  | .host => true
  | .core _ => false
  | .bar2 => true
  | .config => true

/-! ### The MSI-X structures (R504) -/

/-- The offset lies in the range that only host software reaches. -/
def inMsix (off : Nat) : Bool := decide (0x6000 ≤ off) && decide (off < 0x6800)

/-- The 32-bit word `n` of the MSI-X table: address low and high, data, vector control. (PRESUMED, log entry 18.) -/
def State.msixWord (s : State) (n : Nat) : Nat :=
  let e := unitAt (0, 0, 1) s.host.msixTable (n / 4)
  if n % 4 = 0 then e.1 % 2 ^ 32
  else if n % 4 = 1 then e.1 / 2 ^ 32
  else if n % 4 = 2 then e.2.1
  else e.2.2 % 2

/-- A write of 32-bit word `n` of the MSI-X table. -/
def State.msixPut (s : State) (n x : Nat) : State :=
  let v := n / 4
  let e := unitAt (0, 0, 1) s.host.msixTable v
  let a := if n % 4 = 0 then (e.1 / 2 ^ 32 * 2 ^ 32 + x, e.2.1, e.2.2)
    else if n % 4 = 1 then (e.1 % 2 ^ 32 + x * 2 ^ 32, e.2.1, e.2.2)
    else if n % 4 = 2 then (e.1, x, e.2.2)
    else (e.1, e.2.1, x % 2)
  ({ s with host := { s.host with msixTable := putUnit (0, 0, 1) s.host.msixTable v a } }).msixUnmask v

/-- The 32-bit word at an offset of the MSI-X range: the table, the pending bits, nothing. -/
def State.msixRead (s : State) (off : Nat) : Nat :=
  if off < 0x6400 then s.msixWord ((off - 0x6000) / 4)
  else if off < 0x6408 then
    (List.range 32).foldl (fun m i => if (off - 0x6400) * 8 + i ∈ s.host.msixPending then m + 2 ^ i else m) 0
  else 0

/-- A naturally aligned 32-bit or 64-bit access. -/
def aligned (off bytes : Nat) : Bool := (bytes == 4 && off % 4 == 0) || (bytes == 8 && off % 8 == 0)

/-- A host write in the MSI-X range. -/
def State.msixAccess (s : State) (off bytes : Nat) (d : Word) : State :=
  if aligned off bytes ∧ off < 0x6400 then
    let t := s.msixPut ((off - 0x6000) / 4) (bitsOf d 0 32)
    if bytes = 8 then t.msixPut ((off - 0x6000) / 4 + 1) (bitsOf d 32 32) else t
  else s

/-! ### Whole registers -/

/-- The register lies in a bay that is in bay reset: it reads zero, and writes to it are ignored (R503). -/
def State.inBayReset (s : State) (k : RegKey) : Bool :=
  k.ofBay k.inst && testBit (s.get F.rasStatusBayResetting) k.inst

/-- The offset lies in the TEST block (R505). (DEDUCED, log entry 19.) -/
def inTest (off : Nat) : Bool := decide (0xF0000 ≤ off) && decide (off < 0x100000)

/-- What a 64-bit read at an aligned offset returns: the state after what else its boundary does (R507); the TEST block of an unlocked
device has no meaning: a free value. (DESIGN CHOICE, log entry 9.) -/
def State.readAt (s : State) (off : Nat) : Word × State :=
  if inTest off then
    (if s.bit F.rasStatusDebugLocked then (0, s) else (BitVec.ofNat 64 s.freeVal, s.useFree))
  else
    match regAt off with
    | some k => (if s.inBayReset k then 0 else s.lateActs.view k, s)
    | none => (0, s)

/-- An access to a data register with AUTOINC advances its index (R378, R491). (DEDUCED, log entry 17.) -/
def State.advance (s : State) (off : Nat) : State :=
  match regAt off with
  | some k =>
    if s.inBayReset k then s
    else if k.name = .bayAdcCoefData then s.coefAutoinc k.inst
    else if k.name = .bayFeLdata then s.feAutoinc k.inst
    else s
  | none => s

/-- A 64-bit write at an aligned offset; the events of a write to a bay that is in bay reset are discarded and counted (R58, R59). -/
def State.writeAt (s : State) (r : Requester) (off : Nat) (d : Word) : State :=
  match regAt off with
  | some k =>
    if s.inBayReset k then s.supersede (writeEvents r off d).length
    else if (fromHost r = false ∧ (k.name = .calRefpath ∨ k.name = .calTimeTrim)) then s
    else s.regWrite k (fromHost r) (requesterSrc r) d
  | none => s

/-- The lower half that a lone upper half is written with (R11): the present read value, its W1C fields zero. -/
def State.lowerHalf (s : State) (off : Nat) : Nat :=
  match regAt off with
  | some k =>
    (k.name.desc.fields.foldl (fun (w : Word) f =>
      if f.access = .w1c ∧ f.lo < 32 then withBits w f.lo (min f.width (32 - f.lo)) 0 else w) (s.readAt off).1).toNat % 2 ^ 32
  | none => 0

/-! ### Accesses -/

/-- The size that an access counts as: a core's that is not of 32 bits is one of another size (R11, R327). (DEDUCED, log entry 16.) -/
def accessSize (r : Requester) (bytes : Nat) : Nat := if fromHost r ∨ bytes = 4 then bytes else 0

/-- A write of `bytes` bytes at an offset (R10, R11). -/
def State.writeAccess (s : State) (r : Requester) (off bytes : Nat) (d : Word) : State :=
  let h := s.halvesOf r
  let t := s.setHalves r { h with held := none }
  if s.hostReady = false then t
  else if inMsix off then (if fromHost r then t.msixAccess off bytes d else t)
  else if bytes = 8 ∧ off % 8 = 0 then t.writeAt r off d
  else if bytes = 4 ∧ off % 8 = 0 then s.setHalves r { h with held := some (off, bitsOf d 0 32) }
  else if bytes = 4 ∧ off % 8 = 4 then
    match h.held with
    | some (o, l) =>
      if o + 4 = off then t.writeAt r o (BitVec.ofNat 64 (l + bitsOf d 0 32 * 2 ^ 32))
      else t.writeAt r (off - 4) (BitVec.ofNat 64 (t.lowerHalf (off - 4) + bitsOf d 0 32 * 2 ^ 32))
    | none => t.writeAt r (off - 4) (BitVec.ofNat 64 (t.lowerHalf (off - 4) + bitsOf d 0 32 * 2 ^ 32))
  else t

/-- A write to BAR2 (R298): the doorbell of RING[q] is the word at offset 0 of its page. -/
def State.bar2Write (s : State) (off bytes : Nat) (d : Word) : State :=
  if s.hostReady ∧ off % 4096 = 0 ∧ off / 4096 < 64 ∧ (bytes = 4 ∨ bytes = 8) then s.doorbell (off / 4096) (bitsOf d 0 32)
  else s

/-- A configuration write (R295, R296): a power state of D0 after D3hot, and Initiate Function Level Reset, reset the device. -/
def State.configWrite (s : State) (off bytes : Nat) (d : Word) : State :=
  if s.hostReady = false then s.emit .configRetry
  else if configAccess off bytes = false then s
  else
    match s.configStore off bytes (bitsOf d 0 32) with
    | (v, t) =>
      if off / 4 = 0x1E ∧ testBit v 15 then t.requestReset 3
      else if off / 4 = 0x11 ∧ s.host.pcie.power = 3 ∧ t.host.pcie.power = 0 then t.requestReset 4
      else if off / 4 = 0x14 then t.msixUnmaskAll
      else t

/-- REGISTER_WRITE. -/
def execRegisterWrite (req : Requester) (off bytes : Nat) (data : Word) (s : State) : Host.Outcome State Fault Refusal :=
  match req with
  | .host => .next (s.writeAccess .host off bytes data)
  | .core c => .next (s.writeAccess (.core c) off (accessSize (.core c) bytes) data)
  | .bar2 => .next (s.bar2Write off bytes data)
  | .config => .next (s.configWrite off bytes data)

/-- What a read of `bytes` bytes at an offset returns, the upper half it captures, and the state after it (R10, R11). -/
def State.readAccess (s : State) (r : Requester) (off bytes : Nat) : Word × Option (Nat × Nat) × State :=
  if s.hostReady = false then (0, none, s)
  else if inMsix off then
    if fromHost r ∧ aligned off bytes then
      (BitVec.ofNat 64 (s.msixRead off + if bytes = 8 then s.msixRead (off + 4) * 2 ^ 32 else 0), none, s)
    else (0, none, s)
  else if bytes = 8 ∧ off % 8 = 0 then
    match s.readAt off with
    | (v, t) => (v, none, t.advance off)
  else if bytes = 4 ∧ off % 8 = 0 then
    match s.readAt off with
    | (v, t) => (BitVec.ofNat 64 (bitsOf v 0 32), some (off, bitsOf v 32 32), t.advance off)
  else if bytes = 4 ∧ off % 8 = 4 then
    match (s.halvesOf r).captured with
    | some (o, u) =>
      if o + 4 = off then (BitVec.ofNat 64 u, none, s)
      else match s.readAt (off - 4) with
        | (v, t) => (BitVec.ofNat 64 (bitsOf v 32 32), none, t)
    | none => match s.readAt (off - 4) with
      | (v, t) => (BitVec.ofNat 64 (bitsOf v 32 32), none, t)
  else (0, none, s)

/-- A register read of a requester of R11: what it reads is kept as its last read (R507). -/
def State.readBy (s : State) (r : Requester) (off bytes : Nat) : State :=
  match s.readAccess r off (accessSize r bytes) with
  | (v, c, t) => t.setHalves r { (t.halvesOf r) with captured := c, lastRead := v }

/-- REGISTER_READ: BAR2 reads as zero (R298). -/
def execRegisterRead (req : Requester) (off bytes : Nat) (s : State) : Host.Outcome State Fault Refusal :=
  match req with
  | .host => .next (s.readBy .host off bytes)
  | .core c => .next (s.readBy (.core c) off bytes)
  | .bar2 => .next (s.setHalves .bar2 { (s.halvesOf .bar2) with lastRead := 0 })
  | .config => .next (s.configRead off bytes)

/-! ### Accesses of the control cores (R327, R507) -/

/-- A register load that core `c` waits for returns what the present boundary gives it. -/
def State.answerLoad (s : State) (c : Nat) : State :=
  match (s.cpu c).wait with
  | .load rd off =>
    let t := s.readBy (.core c) off 4
    t.setCpu c { (t.cpu c).wx rd (BitVec.ofNat 32 (t.halvesOf (.core c)).lastRead.toNat) with wait := .no }
  | _ => s

/-- The register stores of the cores, in ascending core order, wait as writes that the boundary samples. (DEDUCED, log entry 71.) -/
def State.takeStores (s : State) : State :=
  let l := (List.range 4).flatMap fun c => (s.coreX c).stores.map fun w => Instr.registerWrite (.core c) w.1 w.2.1 (BitVec.ofNat 64 w.2.2)
  if l = [] then s
  else { (List.range 4).foldl (fun (t : State) c => t.setCoreX c { (t.coreX c) with stores := [] }) s with pending := s.pending ++ l }

/-- An event tick passes, with the accesses of the cores: loads sampled at the boundary that ends return, stores issued before the one that
begins wait at it (R52, R327, R507). -/
def State.idle (s : State) : State := ((List.range 4).foldl (fun (t : State) c => t.answerLoad c) s).tick.takeStores

/-- W1C_CLEAR: bits of a register written 1 are cleared where they are W1C (R12, R13). -/
def execW1cClear (off : Nat) (bits : Word) (s : State) : Host.Outcome State Fault Refusal :=
  match regAt off with
  | some k => .next (if s.hostReady = false then s
      else if s.inBayReset k then s.supersede (Instr.events (.w1cClear off bits)).length else s.w1c k bits)
  | none => .next s

end Sys2Proof.Machine
end

