-- ==== Sys2Proof/Machine/Dispatch.lean ====
section
/-!
DEFINITION. Dispatch.lean: one arm for each command.
-/
namespace Sys2Proof.Machine

def exec (i : Instr) (s : State) : Host.Outcome State Fault Refusal :=
  match i with
  | .registerWrite req off bytes data => Sys2Proof.Machine.execRegisterWrite req off bytes data s
  | .w1cClear off bits => Sys2Proof.Machine.execW1cClear off bits s
  | .baymapCommit value src => Sys2Proof.Machine.execBaymapCommit value src s
  | .refclkDropout edge => Sys2Proof.Machine.execRefclkDropout edge s
  | .refLost => Sys2Proof.Machine.execRefLost s
  | .refRestored ct => Sys2Proof.Machine.execRefRestored ct s
  | .rootLock => Sys2Proof.Machine.execRootLock s
  | .refmonClear => Sys2Proof.Machine.execRefmonClear s
  | .alignArm verify syncDrive src => Sys2Proof.Machine.execAlignArm verify syncDrive src s
  | .alignDisarm src => Sys2Proof.Machine.execAlignDisarm src s
  | .syncDrive => Sys2Proof.Machine.execSyncDrive s
  | .syncCapture => Sys2Proof.Machine.execSyncCapture s
  | .alignmentEdge ct => Sys2Proof.Machine.execAlignmentEdge ct s
  | .precStatsClear => Sys2Proof.Machine.execPrecStatsClear s
  | .gpioEdge pin level rose fell => Sys2Proof.Machine.execGpioEdge pin level rose fell s
  | .seqStart q src => Sys2Proof.Machine.execSeqStart q src s
  | .seqResume q src => Sys2Proof.Machine.execSeqResume q src s
  | .pauseRequest q src => Sys2Proof.Machine.execPauseRequest q src s
  | .abort q src => Sys2Proof.Machine.execAbort q src s
  | .faultClear q src => Sys2Proof.Machine.execFaultClear q src s
  | .nopRec q => Sys2Proof.Machine.execNopRec q s
  | .loopRec q => Sys2Proof.Machine.execLoopRec q s
  | .endloop q => Sys2Proof.Machine.execEndloop q s
  | .repeatRec q => Sys2Proof.Machine.execRepeatRec q s
  | .callRec q => Sys2Proof.Machine.execCallRec q s
  | .ret q => Sys2Proof.Machine.execRet q s
  | .jump q => Sys2Proof.Machine.execJump q s
  | .jumpif q => Sys2Proof.Machine.execJumpif q s
  | .matchRec q => Sys2Proof.Machine.execMatchRec q s
  | .flagset q => Sys2Proof.Machine.execFlagset q s
  | .flagclr q => Sys2Proof.Machine.execFlagclr q s
  | .waitraise q => Sys2Proof.Machine.execWaitraise q s
  | .barrier q => Sys2Proof.Machine.execBarrier q s
  | .trigger q => Sys2Proof.Machine.execTrigger q s
  | .measure q => Sys2Proof.Machine.execMeasure q s
  | .timarm q => Sys2Proof.Machine.execTimarm q s
  | .feapply q => Sys2Proof.Machine.execFeapply q s
  | .pagehint q => Sys2Proof.Machine.execPagehint q s
  | .stopiffail q => Sys2Proof.Machine.execStopiffail q s
  | .halt q => Sys2Proof.Machine.execHalt q s
  | .endRec q => Sys2Proof.Machine.execEndRec q s
  | .edgeApply c high low => Sys2Proof.Machine.execEdgeApply c high low s
  | .compareResult c => Sys2Proof.Machine.execCompareResult c s
  | .pegWatchdog q => Sys2Proof.Machine.execPegWatchdog q s
  | .holdTimeout q => Sys2Proof.Machine.execHoldTimeout q s
  | .barrierRelease q n => Sys2Proof.Machine.execBarrierRelease q n s
  | .park q => Sys2Proof.Machine.execPark q s
  | .tableCommit q src => Sys2Proof.Machine.execTableCommit q src s
  | .dclkStart b g src => Sys2Proof.Machine.execDclkStart b g src s
  | .dclkDisable b g src => Sys2Proof.Machine.execDclkDisable b g src s
  | .frequencyCommit b g src => Sys2Proof.Machine.execFrequencyCommit b g src s
  | .edgeStatClear b n => Sys2Proof.Machine.execEdgeStatClear b n s
  | .failSnap b => Sys2Proof.Machine.execFailSnap b s
  | .failCountClear b => Sys2Proof.Machine.execFailCountClear b s
  | .cmpStatClear b => Sys2Proof.Machine.execCmpStatClear b s
  | .logWrite => Sys2Proof.Machine.execLogWrite s
  | .mirror which n => Sys2Proof.Machine.execMirror which n s
  | .logCfgWrite q value => Sys2Proof.Machine.execLogCfgWrite q value s
  | .logStatClear q => Sys2Proof.Machine.execLogStatClear q s
  | .captureBlockWrite q => Sys2Proof.Machine.execCaptureBlockWrite q s
  | .capCfgWrite q value => Sys2Proof.Machine.execCapCfgWrite q value s
  | .capStatClear q => Sys2Proof.Machine.execCapStatClear q s
  | .rebuild => Sys2Proof.Machine.execRebuild s
  | .rebuildDone => Sys2Proof.Machine.execRebuildDone s
  | .winRead page => Sys2Proof.Machine.execWinRead page s
  | .winWrite page => Sys2Proof.Machine.execWinWrite page s
  | .loadStart => Sys2Proof.Machine.execLoadStart s
  | .loadComplete page data => Sys2Proof.Machine.execLoadComplete page data s
  | .lookahead q arrived => Sys2Proof.Machine.execLookahead q arrived s
  | .prefetchFill q => Sys2Proof.Machine.execPrefetchFill q s
  | .stallResume q ct => Sys2Proof.Machine.execStallResume q ct s
  | .stallLimit q => Sys2Proof.Machine.execStallLimit q s
  | .underrunClear q => Sys2Proof.Machine.execUnderrunClear q s
  | .stallTimeClear q => Sys2Proof.Machine.execStallTimeClear q s
  | .lcacheStatClear q => Sys2Proof.Machine.execLcacheStatClear q s
  | .loadStatClear => Sys2Proof.Machine.execLoadStatClear s
  | .pgtErrStatClear => Sys2Proof.Machine.execPgtErrStatClear s
  | .siteCommit => Sys2Proof.Machine.execSiteCommit s
  | .retire k => Sys2Proof.Machine.execRetire k s
  | .siteEnd k => Sys2Proof.Machine.execSiteEnd k s
  | .sampleOffset d theta => Sys2Proof.Machine.execSampleOffset d theta s
  | .domainStep d ns => Sys2Proof.Machine.execDomainStep d ns s
  | .intClear d => Sys2Proof.Machine.execIntClear d s
  | .domainSwitch d => Sys2Proof.Machine.execDomainSwitch d s
  | .servoHoldover d => Sys2Proof.Machine.execServoHoldover d s
  | .rejectCountClear d => Sys2Proof.Machine.execRejectCountClear d s
  | .latch n source => Sys2Proof.Machine.execLatch n source s
  | .checkMessageSend => Sys2Proof.Machine.execCheckMessageSend s
  | .lockstepLost => Sys2Proof.Machine.execLockstepLost s
  | .timeportRx frame fcsOk ct => Sys2Proof.Machine.execTimeportRx frame fcsOk ct s
  | .ppsOut => Sys2Proof.Machine.execPpsOut s
  | .ppsIn ct => Sys2Proof.Machine.execPpsIn ct s
  | .raiseFire e => Sys2Proof.Machine.execRaiseFire e s
  | .oluEnable p => Sys2Proof.Machine.execOluEnable p s
  | .oluDisable p => Sys2Proof.Machine.execOluDisable p s
  | .retrain p => Sys2Proof.Machine.execRetrain p s
  | .trainingAttempt p => Sys2Proof.Machine.execTrainingAttempt p s
  | .trainingFail p => Sys2Proof.Machine.execTrainingFail p s
  | .linkUp p partner echoes => Sys2Proof.Machine.execLinkUp p partner echoes s
  | .linkDown e => Sys2Proof.Machine.execLinkDown e s
  | .linkFrame p raw => Sys2Proof.Machine.execLinkFrame p raw s
  | .retryTimeout p => Sys2Proof.Machine.execRetryTimeout p s
  | .flagMsg p raw => Sys2Proof.Machine.execFlagMsg p raw s
  | .raiseMsg p raw => Sys2Proof.Machine.execRaiseMsg p raw s
  | .mailMsg p raw => Sys2Proof.Machine.execMailMsg p raw s
  | .bulkStart p raw => Sys2Proof.Machine.execBulkStart p raw s
  | .bulkData p raw => Sys2Proof.Machine.execBulkData p raw s
  | .bulkDone p raw => Sys2Proof.Machine.execBulkDone p raw s
  | .etcheck p raw partnerAligned => Sys2Proof.Machine.execEtcheck p raw partnerAligned s
  | .etcheckSend p => Sys2Proof.Machine.execEtcheckSend p s
  | .changeMsg p raw => Sys2Proof.Machine.execChangeMsg p raw s
  | .checkMsg p raw => Sys2Proof.Machine.execCheckMsg p raw s
  | .directionSleep p => Sys2Proof.Machine.execDirectionSleep p s
  | .directionWake p => Sys2Proof.Machine.execDirectionWake p s
  | .gfSet n src => Sys2Proof.Machine.execGfSet n src s
  | .gfClear n src => Sys2Proof.Machine.execGfClear n src s
  | .gfReset src => Sys2Proof.Machine.execGfReset src s
  | .bulkGo n length => Sys2Proof.Machine.execBulkGo n length s
  | .oluErrStatClear p => Sys2Proof.Machine.execOluErrStatClear p s
  | .doorbell q value => Sys2Proof.Machine.execDoorbell q value s
  | .ringEnable q src => Sys2Proof.Machine.execRingEnable q src s
  | .ringDisable q src => Sys2Proof.Machine.execRingDisable q src s
  | .ringReset q src => Sys2Proof.Machine.execRingReset q src s
  | .descriptorRead q w0 w1 w2 w3 => Sys2Proof.Machine.execDescriptorRead q w0 w1 w2 w3 s
  | .dmaError q fail => Sys2Proof.Machine.execDmaError q fail s
  | .ringInterrupt q => Sys2Proof.Machine.execRingInterrupt q s
  | .completionRecord q => Sys2Proof.Machine.execCompletionRecord q s
  | .cmdNop q => Sys2Proof.Machine.execCmdNop q s
  | .cmdTableLoad q => Sys2Proof.Machine.execCmdTableLoad q s
  | .tableLoadData q words ok => Sys2Proof.Machine.execTableLoadData q words ok s
  | .cmdCommitAtPeg q => Sys2Proof.Machine.execCmdCommitAtPeg q s
  | .cmdPageMap q => Sys2Proof.Machine.execCmdPageMap q s
  | .cmdStreamPage q => Sys2Proof.Machine.execCmdStreamPage q s
  | .cmdRaise q => Sys2Proof.Machine.execCmdRaise q s
  | .cmdAbort q => Sys2Proof.Machine.execCmdAbort q s
  | .cmdSiteSet q => Sys2Proof.Machine.execCmdSiteSet q s
  | .cmdCalRun q => Sys2Proof.Machine.execCmdCalRun q s
  | .cmdCountersRead q => Sys2Proof.Machine.execCmdCountersRead q s
  | .fuseArm q => Sys2Proof.Machine.execFuseArm q s
  | .fuseConfirm q => Sys2Proof.Machine.execFuseConfirm q s
  | .fuseLocked => Sys2Proof.Machine.execFuseLocked s
  | .cmdBarrier q => Sys2Proof.Machine.execCmdBarrier q s
  | .cmdMail q => Sys2Proof.Machine.execCmdMail q s
  | .unsupportedOpcode q => Sys2Proof.Machine.execUnsupportedOpcode q s
  | .streamDescriptor q => Sys2Proof.Machine.execStreamDescriptor q s
  | .timetxDescriptor b => Sys2Proof.Machine.execTimetxDescriptor b s
  | .timerxDescriptor q => Sys2Proof.Machine.execTimerxDescriptor q s
  | .mailDescriptor q => Sys2Proof.Machine.execMailDescriptor q s
  | .eventStatClear => Sys2Proof.Machine.execEventStatClear s
  | .ringStatusClear q => Sys2Proof.Machine.execRingStatusClear q s
  | .coreRun mask => Sys2Proof.Machine.execCoreRun mask s
  | .firmwareLoad length => Sys2Proof.Machine.execFirmwareLoad length s
  | .loadDone image readOk key signature => Sys2Proof.Machine.execLoadDone image readOk key signature s
  | .makeready j src => Sys2Proof.Machine.execMakeready j src s
  | .cancel j src => Sys2Proof.Machine.execCancel j src s
  | .setflags j flags src => Sys2Proof.Machine.execSetflags j flags src s
  | .clrflags j flags src => Sys2Proof.Machine.execClrflags j flags src s
  | .slotReset j src => Sys2Proof.Machine.execSlotReset j src s
  | .setwait c mask => Sys2Proof.Machine.execSetwait c mask s
  | .waitOp c => Sys2Proof.Machine.execWaitOp c s
  | .yield c => Sys2Proof.Machine.execYield c s
  | .switch c => Sys2Proof.Machine.execSwitch c s
  | .takeflags c => Sys2Proof.Machine.execTakeflags c s
  | .submit fl handle src => Sys2Proof.Machine.execSubmit fl handle src s
  | .take c fl => Sys2Proof.Machine.execTake c fl s
  | .release c fl slot record discard => Sys2Proof.Machine.execRelease c fl slot record discard s
  | .sendmail c block => Sys2Proof.Machine.execSendmail c block s
  | .waitTimeout j => Sys2Proof.Machine.execWaitTimeout j s
  | .sliceEnd c => Sys2Proof.Machine.execSliceEnd c s
  | .thrCfgWrite j value => Sys2Proof.Machine.execThrCfgWrite j value s
  | .flowOutput fl => Sys2Proof.Machine.execFlowOutput fl s
  | .flowEnable fl value => Sys2Proof.Machine.execFlowEnable fl value s
  | .flowDisable fl src => Sys2Proof.Machine.execFlowDisable fl src s
  | .flowReset fl src => Sys2Proof.Machine.execFlowReset fl src s
  | .flowStatClear fl => Sys2Proof.Machine.execFlowStatClear fl s
  | .thrWaitClear j => Sys2Proof.Machine.execThrWaitClear j s
  | .mailNorouteClear => Sys2Proof.Machine.execMailNorouteClear s
  | .inboxWrite => Sys2Proof.Machine.execInboxWrite s
  | .loadWindow => Sys2Proof.Machine.execLoadWindow s
  | .adcOutput b codes code => Sys2Proof.Machine.execAdcOutput b codes code s
  | .sequenceTrigger b src => Sys2Proof.Machine.execSequenceTrigger b src s
  | .adcStop b src => Sys2Proof.Machine.execAdcStop b src s
  | .accClear b src => Sys2Proof.Machine.execAccClear b src s
  | .sequenceCommit b src => Sys2Proof.Machine.execSequenceCommit b src s
  | .urgentRequest b e src => Sys2Proof.Machine.execUrgentRequest b e src s
  | .urgentCancel b src => Sys2Proof.Machine.execUrgentCancel b src s
  | .bankRequest b bank => Sys2Proof.Machine.execBankRequest b bank s
  | .coefWrite b data => Sys2Proof.Machine.execCoefWrite b data s
  | .refReady b => Sys2Proof.Machine.execRefReady b s
  | .sliceRotation b failed => Sys2Proof.Machine.execSliceRotation b failed s
  | .adcWindow b => Sys2Proof.Machine.execAdcWindow b s
  | .adcCountsClear b => Sys2Proof.Machine.execAdcCountsClear b s
  | .rearm b src => Sys2Proof.Machine.execRearm b src s
  | .acqStop b src => Sys2Proof.Machine.execAcqStop b src s
  | .force b src => Sys2Proof.Machine.execForce b src s
  | .autoTrigger b => Sys2Proof.Machine.execAutoTrigger b s
  | .holdoffEnd b => Sys2Proof.Machine.execHoldoffEnd b s
  | .acqCountsClear b src => Sys2Proof.Machine.execAcqCountsClear b src s
  | .acqRingWrite b value => Sys2Proof.Machine.execAcqRingWrite b value s
  | .timArm m src => Sys2Proof.Machine.execTimArm m src s
  | .timDisarm m src => Sys2Proof.Machine.execTimDisarm m src s
  | .timResultClear m src => Sys2Proof.Machine.execTimResultClear m src s
  | .timEdge m edge rising p => Sys2Proof.Machine.execTimEdge m edge rising p s
  | .timComplete m => Sys2Proof.Machine.execTimComplete m s
  | .timTimeout m => Sys2Proof.Machine.execTimTimeout m s
  | .seriesEntry m => Sys2Proof.Machine.execSeriesEntry m s
  | .timStatClear m => Sys2Proof.Machine.execTimStatClear m s
  | .dramEnable => Sys2Proof.Machine.execDramEnable s
  | .dramInitDone => Sys2Proof.Machine.execDramInitDone s
  | .dramDisable => Sys2Proof.Machine.execDramDisable s
  | .train m v => Sys2Proof.Machine.execTrain m v s
  | .apply m => Sys2Proof.Machine.execApply m s
  | .mrw m => Sys2Proof.Machine.execMrw m s
  | .mrr m data => Sys2Proof.Machine.execMrr m data s
  | .readCmp m failbits => Sys2Proof.Machine.execReadCmp m failbits s
  | .writeReadCmp m failbits => Sys2Proof.Machine.execWriteReadCmp m failbits s
  | .wlevel m bits => Sys2Proof.Machine.execWlevel m bits s
  | .refresh m r => Sys2Proof.Machine.execRefresh m r s
  | .mr4Poll fast => Sys2Proof.Machine.execMr4Poll fast s
  | .patrolScrub corrected uncorrectable => Sys2Proof.Machine.execPatrolScrub corrected uncorrectable s
  | .srEnter => Sys2Proof.Machine.execSrEnter s
  | .autoSelfRefresh => Sys2Proof.Machine.execAutoSelfRefresh s
  | .srExit => Sys2Proof.Machine.execSrExit s
  | .outOfRangeClear => Sys2Proof.Machine.execOutOfRangeClear s
  | .panicClear => Sys2Proof.Machine.execPanicClear s
  | .srClear => Sys2Proof.Machine.execSrClear s
  | .eccStatClear m => Sys2Proof.Machine.execEccStatClear m s
  | .timOffset b offsets => Sys2Proof.Machine.execTimOffset b offsets s
  | .fineLinearity b images => Sys2Proof.Machine.execFineLinearity b images s
  | .driveDeskew b raw residual => Sys2Proof.Machine.execDriveDeskew b raw residual s
  | .roundTrip b m => Sys2Proof.Machine.execRoundTrip b m s
  | .roundTripTimeout b => Sys2Proof.Machine.execRoundTripTimeout b s
  | .compareDeskew b raw residual eyes => Sys2Proof.Machine.execCompareDeskew b raw residual eyes s
  | .adc b values residual => Sys2Proof.Machine.execAdc b values residual s
  | .dclkDuty b dutyA dutyB => Sys2Proof.Machine.execDclkDuty b dutyA dutyB s
  | .bayFull b => Sys2Proof.Machine.execBayFull b s
  | .timeTrim => Sys2Proof.Machine.execTimeTrim s
  | .calDone b => Sys2Proof.Machine.execCalDone b s
  | .calAbort mask src => Sys2Proof.Machine.execCalAbort mask src s
  | .storeCommit => Sys2Proof.Machine.execStoreCommit s
  | .calStore ok => Sys2Proof.Machine.execCalStore ok s
  | .driftUpdate => Sys2Proof.Machine.execDriftUpdate s
  | .eyeMeasure p eyes => Sys2Proof.Machine.execEyeMeasure p eyes s
  | .seqReset q src => Sys2Proof.Machine.execSeqReset q src s
  | .seqResetDone q => Sys2Proof.Machine.execSeqResetDone q s
  | .bayReset b src => Sys2Proof.Machine.execBayReset b src s
  | .bayResetDone b slices failed => Sys2Proof.Machine.execBayResetDone b slices failed s
  | .warm key => Sys2Proof.Machine.execWarm key s
  | .functionLevelReset => Sys2Proof.Machine.execFunctionLevelReset s
  | .d3hotToD0 => Sys2Proof.Machine.execD3hotToD0 s
  | .perst => Sys2Proof.Machine.execPerst s
  | .powerOn => Sys2Proof.Machine.execPowerOn s
  | .hostReady slices failed => Sys2Proof.Machine.execHostReady slices failed s
  | .railFault rail => Sys2Proof.Machine.execRailFault rail s
  | .rasUe unit index memory address => Sys2Proof.Machine.execRasUe unit index memory address s
  | .rasErrStatClear => Sys2Proof.Machine.execRasErrStatClear s
  | .tempUpdate readings => Sys2Proof.Machine.execTempUpdate readings s
  | .peakClear n => Sys2Proof.Machine.execPeakClear n s
  | .feStart b list => Sys2Proof.Machine.execFeStart b list s
  | .feAbort b => Sys2Proof.Machine.execFeAbort b s
  | .feWrite b miso => Sys2Proof.Machine.execFeWrite b miso s
  | .feDelay b => Sys2Proof.Machine.execFeDelay b s
  | .feDelayExpiry b => Sys2Proof.Machine.execFeDelayExpiry b s
  | .waitalert b => Sys2Proof.Machine.execWaitalert b s
  | .feTimeout b => Sys2Proof.Machine.execFeTimeout b s
  | .feListEnd b => Sys2Proof.Machine.execFeListEnd b s
  | .feAlert b low fell => Sys2Proof.Machine.execFeAlert b low fell s
  | .feLdataWrite b data => Sys2Proof.Machine.execFeLdataWrite b data s
  | .feStatClear b => Sys2Proof.Machine.execFeStatClear b s
  | .registerRead req off bytes => Sys2Proof.Machine.execRegisterRead req off bytes s
  | .crcErr b => Sys2Proof.Machine.execCrcErr b s
  | .forwarding p raw => Sys2Proof.Machine.execForwarding p raw s
  | .ackLinkFrame p => Sys2Proof.Machine.execAckLinkFrame p s
  | .markerGroup p parityOk timing => Sys2Proof.Machine.execMarkerGroup p parityOk timing s
  | .trainingStateExit e => Sys2Proof.Machine.execTrainingStateExit e s
  | .sleepBlock p => Sys2Proof.Machine.execSleepBlock p s
  | .partnerWake p => Sys2Proof.Machine.execPartnerWake p s
  | .pinEvent b chan kind => Sys2Proof.Machine.execPinEvent b chan kind s
  | .loadErr page cause => Sys2Proof.Machine.execLoadErr page cause s
  | .timetxComplete ago => Sys2Proof.Machine.execTimetxComplete ago s
  | .timePortLink up => Sys2Proof.Machine.execTimePortLink up s
  | .pcieLink speed width up => Sys2Proof.Machine.execPcieLink speed width up s
  | .slewComplete => Sys2Proof.Machine.execSlewComplete s

end Sys2Proof.Machine
end

