-- ==== Sys2Proof/Machine/Package.lean ====
section
/-! DEFINITION. The ball map of the package: which signal each of the 2,304 balls carries (R476 to R481), and the
dimensions and rails that the same rules give. No command reads it. -/

namespace Sys2Proof.Machine

/-- The rails and the ground of R481. -/
inductive Rail where
  | vddCore | vddSram | vddaPe | vddaPll | vddqMem | vddaAdc | vddIo | vss
deriving DecidableEq, Repr

/-- What a ball carries. `neg` is the _N ball of a differential pair; single balls without an index are `named`. -/
inductive BallSignal where
  /-- PE_DRV, PE_DEN, PE_CMPH or PE_CMPL (`fn` 0 to 3) of channel `c` -/
  | pe (fn c : Nat) (neg : Bool)
  | dutClk (i : Nat) (neg : Bool)
  | ain (i : Nat) (neg : Bool)
  | vref (b : Nat) (neg : Bool)
  | memDq (i : Nat)
  | memDqs (i : Nat) (neg : Bool)
  | memCa (i : Nat)
  | memCsN (i : Nat)
  | memCk (i : Nat) (neg : Bool)
  | memZq (i : Nat)
  | memResetN (m : Nat)
  | memAlertN (m : Nat)
  | oluTx (l : Nat) (neg : Bool)
  | oluRx (l : Nat) (neg : Bool)
  | pcieTx (l : Nat) (neg : Bool)
  | pcieRx (l : Nat) (neg : Bool)
  /-- FE_SCLK, FE_MOSI, FE_MISO, FE_CS0_N, FE_CS1_N, FE_ALERT_N (`fn` 0 to 5) of bay `b` -/
  | fe (fn b : Nat)
  | gpio (i : Nat)
  | rsvd (i : Nat)
  | named (name : String)
  | rail (r : Rail)
deriving DecidableEq, Repr

/-- The names of the ball rows: the row of index `k`, 1 to 48 (R477). -/
def ballRowName (k : Nat) : String :=
  let letters := ["A", "B", "C", "D", "E", "F", "G", "H", "J", "K", "L", "M", "N", "P", "T", "U", "V", "W", "Y"]
  if k ≤ 19 then letters.getD (k - 1) ""
  else if k ≤ 38 then "A" ++ letters.getD (k - 20) ""
  else "B" ++ letters.getD (k - 39) ""

/-- The name of the ball in row `k` and column `col`, such as E29 (R477). -/
def ballName (k col : Nat) : String := ballRowName k ++ toString col

/-- What slot `q` of the PE band of bay `b` carries (R479). -/
def peSlot (b q : Nat) (neg : Bool) : BallSignal :=
  if q < 64 then .pe (q % 4) (16 * b + q / 4) neg else .dutClk (2 * b + (q - 64)) neg

/-- The signal row of the band row at distance `d` from the package edge; none for d = 4, 8 and 12 (R479). -/
def signalRow (d : Nat) : Option Nat :=
  if d = 4 ∨ d = 8 ∨ d = 12 then none else some (d - 1 - (if d > 4 then 1 else 0) - (if d > 8 then 1 else 0) - (if d > 12 then 1 else 0))

/-- A ball of a PE band: `d` its distance from the edge, `top` the band of bays 0 to 3 (R479). -/
def peBall (top : Bool) (d col : Nat) : BallSignal :=
  let b := (col - 1) / 12 + if top then 0 else 4
  let x := (col - 1) % 12
  match signalRow d with
  | some s => peSlot b (6 * s + x / 2) (x % 2 = 1)
  | none => if d = 8 ∧ col % 2 = 1 then .rail .vddaPe else .rail .vss

/-- Ball `n`, 0 to 19, of the analogue strip of bay `b` (R480). -/
def analogueBall (b n : Nat) : BallSignal :=
  if n < 16 then .ain (8 * b + n / 2) (n % 2 = 1) else if n < 18 then .vref b (n = 17) else .rail .vss

/-- A ball of an analogue strip: rows T to AT are `r` = 0 to 19, `x` the place within the row, 0 to 3 (R480). -/
def analogueStrip (right : Bool) (r x : Nat) : BallSignal :=
  let b := (if r < 10 then r / 5 else 4 + (r - 10) / 5) + if right then 2 else 0
  analogueBall b (4 * (r % 5) + x)

/-- Ball `n`, 0 to 69, of sub-channel `u` of channel `m` of the DRAM (R480). -/
def memBall (m u n : Nat) : BallSignal :=
  if n < 40 then .memDq (80 * m + 40 * u + n)
  else if n < 50 then .memDqs (10 * m + 5 * u + (n - 40) / 2) (n % 2 = 1)
  else if n < 64 then .memCa (28 * m + 14 * u + (n - 50))
  else if n < 66 then .memCsN (4 * m + 2 * u + (n - 64))
  else if n < 68 then .memCk (2 * m + u) (n = 67)
  else if n = 68 then .memZq (2 * m + u)
  else if u = 0 then .memResetN m else .memAlertN m

/-- A ball of a DRAM strip, `x` the place within the row, 0 to 6 (R480). -/
def memStrip (m r x : Nat) : BallSignal := memBall m (r / 10) (7 * (r % 10) + x)

/-- The control and test balls, in the order of R480. -/
def controlBalls : List BallSignal :=
  [.named "TCK", .named "TMS", .named "TDI", .named "TDO", .named "TRST_N", .named "PORST_N", .named "THERMTRIP_N",
   .named "THERM_DA", .named "THERM_DC", .named "SENSE_CORE_P", .named "SENSE_CORE_N", .named "SENSE_SRAM_P",
   .named "SENSE_SRAM_N", .named "SENSE_PE_P", .named "SENSE_PE_N", .named "SENSE_MEM_P", .named "SENSE_MEM_N",
   .named "PE_RCAL", .named "TESTEN", .named "ATEST_P", .named "ATEST_N", .rsvd 0, .rsvd 1, .rsvd 2, .rsvd 3]

/-- Row Y of the centre field, from column 13 (R480). -/
def rowYBalls : List BallSignal :=
  [.named "TP_TX_P", .named "TP_TX_N", .named "TP_RX_P", .named "TP_RX_N", .named "TP_MDC", .named "TP_MDIO",
   .named "REFCLK_P", .named "REFCLK_N", .named "SYNC_P", .named "SYNC_N", .named "SYNC_OUT_P", .named "SYNC_OUT_N",
   .named "PPS_IN", .named "PPS_OUT", .rail .vss, .rail .vss, .named "PCIE_REFCLK_P", .named "PCIE_REFCLK_N",
   .named "PERST_N", .named "CLKREQ_N", .named "PCIE_RESREF", .rail .vss, .rail .vss, .rail .vss]

/-- A serial-lane row of the centre field: `l` the place from column 13 (R480). -/
def laneBall (r l : Nat) : BallSignal :=
  let neg : Bool := r % 2 = 1
  if l < 16 then (if r < 2 then .oluTx l neg else .oluRx l neg)
  else if r < 2 then .pcieTx (l - 16) neg else .pcieRx (l - 16) neg

/-- A ball of the centre field: rows T to AT are `r` = 0 to 19 (R480). -/
def centreBall (r col : Nat) : BallSignal :=
  let l := col - 13
  if r < 4 then laneBall r l
  else if r = 4 then rowYBalls.getD l (.rail .vss)
  else if r < 7 then .fe (l % 6) (l / 6 + 4 * (r - 5))
  else if r = 7 then (if l < 16 then .gpio l else controlBalls.getD (l - 16) (.rail .vss))
  else if r = 8 then (if l < 16 then .gpio (16 + l) else controlBalls.getD (8 + (l - 16)) (.rail .vss))
  else if r = 9 then
    if l < 12 then .rail .vddIo else if l < 16 then .rail .vddaPll else controlBalls.getD (16 + (l - 16)) (.rail .vss)
  else if r = 10 then
    if col ≤ 14 then .rail .vddaPll
    else if col = 29 then controlBalls.getD 24 (.rail .vss)
    else if col ≤ 31 then .rail .vddaAdc else .rail .vss
  else if col = 13 ∨ col = 36 then .rail .vddSram
  else if col % 4 = 2 then .rail .vss
  else .rail .vddCore

/-- What the ball of row index `k` and column `col`, each 1 to 48, carries (R478 to R480). -/
def ball (k col : Nat) : BallSignal :=
  if k ≤ 14 then peBall true k col
  else if 35 ≤ k then peBall false (49 - k) col
  else
    let r := k - 15
    if col ≤ 4 then analogueStrip false r (col - 1)
    else if 45 ≤ col then analogueStrip true r (48 - col)
    else if col = 12 ∨ col = 37 then .rail .vddqMem
    else if col ≤ 11 then memStrip 0 r (col - 5)
    else if 38 ≤ col then memStrip 1 r (44 - col)
    else centreBall r col

/-- How many balls carry rail `r`: the sum over the array (R481). -/
def railBalls (r : Rail) : Nat :=
  ((List.range 48).map fun k => ((List.range 48).filter fun c => ball (k + 1) (c + 1) = .rail r).length).sum

/-- Step of the power-up order in which the rail rises; the rails of one step may rise together (R466). -/
def Rail.step : Rail → Nat
  | .vddCore => 1
  | .vddSram => 2
  | .vddaPll | .vddaPe => 3
  | .vddqMem => 4
  | .vddIo | .vddaAdc => 5
  | .vss => 0

/-- Nominal voltage of the rail in mV (R466). -/
def Rail.millivolts : Rail → Nat
  | .vddCore => 750
  | .vddSram => 800
  | .vddaPll | .vddaPe => 900
  | .vddqMem => 1100
  | .vddIo | .vddaAdc => 1800
  | .vss => 0

/-- The band of the rail at the balls, in units of 100 µV (R466). -/
def Rail.band : Rail → Nat × Nat
  | .vddCore => (7275, 7725)
  | .vddSram => (7760, 8240)
  | .vddaPll | .vddaPe => (8820, 9180)
  | .vddqMem => (10670, 11330)
  | .vddIo | .vddaAdc => (17460, 18540)
  | .vss => (0, 0)

/-- Maximum current of the rail in mA (R481). -/
def Rail.milliamps : Rail → Nat
  | .vddCore => 46000
  | .vddSram => 6000
  | .vddaPe => 12000
  | .vddaPll => 1000
  | .vddqMem => 3000
  | .vddaAdc => 1500
  | .vddIo => 500
  | .vss => 0

end Sys2Proof.Machine
end

