-- ==== Sys2Proof/Safety.lean ====
section
/-!
DEFINITION. Safety.lean: what counts as a sound state of the block: its sparse tables are in canonical form, so that equal
contents are equal data (R185, R499); and the terms that claims use: a command completes, and it meets no other event of its
tick on its object (R56 to R62).
-/
namespace Sys2Proof.Machine

/-- The register file and local DRAM are in canonical form: keys strictly rising, no entry at its default. -/
abbrev Canon (s : State) : Prop := Assoc.Wf RegKey.before resetWord s.regs ∧ Memory.wf s.mem

/-- A run step does not stop: the outcome is a next state. -/
def Continues (o : Host.Outcome State Fault Refusal) : Prop := ∃ t, o = .next t

/-- The command completes: it answers a next state, and that state has the property `P`. -/
def Completes (c : Instr) (s : State) (P : State → Prop) : Prop := ∃ t, exec c s = .next t ∧ P t

/-- No other event of this tick bears on the object `o` — none has decided it, none waits — and `o` is in no reset (R56, R59): an
event on it acts. -/
abbrev Alone (s : State) (o : Obj) : Prop := s.decider o = none ∧ s.waiting o = [] ∧ s.inReset o = false

/-- A clear of the count or bit at `lo` of register `k` acts: no reset of its block is in progress or waits (R59, R62). -/
abbrev ClearActs (s : State) (k : RegKey) (lo : Nat) : Prop :=
  (s.inReset (.field k lo) || (s.waiting (.field k lo)).any fun w => decide (w.cls = 1)) = false

/-- No clear of the field is sampled in this tick, and its block is in no reset (R13, R59, R62): hardware sets of it and increments of
it take effect. -/
abbrev Unclear (s : State) (f : Fld) (i j : Nat) : Prop := s.clearedNow (f.key i j) f.lo = false

/-- Every byte of local DRAM reads as before. -/
def SameMemory (s t : State) : Prop := ∀ a, t.memByte a = s.memByte a

/-- Every register whose name is not in the list reads as before. -/
def SameRegs (l : List RegName) (s t : State) : Prop := ∀ k : RegKey, k.name ∉ l → t.rd k = s.rd k

end Sys2Proof.Machine
end

