-- ==== Sys2Proof/Certificates/Slice0/Obligations.lean ====
section
/-!
DEFINITION. Obligations.lean: the statements about the block, for the provers. A command's completion is said with `Completes`:
under hypotheses on the state and the operands alone it answers a next state, and that state holds what the rules give.
-/
open Sys2Proof Sys2Proof.Machine

/-! ### The step, the queue, reset, and the state's form -/

/-- A step with command `c` at the front of the queue is `c` performed on the state with the queue's rest. -/
def Obligations.FrontCommandIsPerformed : Prop :=
  ∀ (s : State) (c : Instr) (rest : List Instr), s.pending = c :: rest → step s = exec c { s with pending := rest }

/-- With an empty queue and the root PLL locked, an event tick passes: ticks and CLK.ETCOUNT advance by one; with the PLL not locked no
tick passes. What waits then is the register stores that the control cores have issued, as writes. The tick on an empty queue is the
model's choice (log entry 1), the stores' place in the queue too (log entry 71); R52 gives the count. -/
def Obligations.EmptyQueueIsATick : Prop :=
  ∀ s : State, s.pending = [] →
    ∃ t, step s = .next t
      ∧ (s.bit F.clkStatusRootLock = true → t.ticks = s.ticks + 1
          ∧ t.get F.clkEtcountCount = (s.get F.clkEtcountCount + 1) % 2 ^ F.clkEtcountCount.width)
      ∧ (s.bit F.clkStatusRootLock = false → t.ticks = s.ticks ∧ t.get F.clkEtcountCount = s.get F.clkEtcountCount)
      ∧ ∀ c ∈ t.pending, ∃ core off bytes data, c = .registerWrite (.core core) off bytes data

/-- No command stops the block, and none touches the queue: each answers a next state, whatever the state and the operands, and
the commands that wait are as they were. -/
def Obligations.EveryCommandContinues : Prop :=
  ∀ (c : Instr) (s : State), Completes c s fun t => t.pending = s.pending

/-- The register file and local DRAM stay in canonical form over every step, from every state in that form: the keys of both are
strictly rising and no entry holds what an unlisted key reads as. -/
def Obligations.StepKeepsCanonicalForm : Prop :=
  ∀ s t : State, Canon s → step s = .next t → Canon t

/-- The state after reset is in canonical form. -/
def Obligations.ResetIsCanonical : Prop := Canon State.reset

/-- What reset leaves: GLOBAL.IDENT.PART, every sequencer STOPPED with no fault, no bay assigned, ALIGN state idle, ROOT_LOCK and
HOST_READY 0, the addend and nominal addend of both domains, and every ring DISABLED. -/
def Obligations.ResetValues : Prop :=
  State.reset.get F.globalIdentPart = 0x4128
  ∧ (∀ q < 4, State.reset.get F.seqStatusState q = 0 ∧ State.reset.get F.seqStatusFault q = 0)
  ∧ State.reset.get F.globalBaymapAssigned = 0
  ∧ State.reset.get F.clkStatusAlignState = 0 ∧ State.reset.get F.clkStatusRootLock = 0
  ∧ State.reset.get F.rasStatusHostReady = 0
  ∧ (∀ d < 2, State.reset.get F.domAddendAddend d = 0xD5555555 ∧ State.reset.get F.domNominalNominal d = 0xD5555555)
  ∧ (∀ q < 64, State.reset.get F.ringStatusState q = 0)

/-! ### Clears of counts (R13, R19, R62) -/

/-- The counts that a CLEAR command clears, each with the bit that says the count is saturated. -/
def clearedCounts : Instr → List (Fld × Fld × Nat × Nat)
  | .refmonClear => [(F.clkRefmonDropoutCount, F.clkRefmonDropoutSaturated, 0, 0), (F.clkRefmonLostCount, F.clkRefmonLostSaturated, 0, 0)]
  | .precStatsClear => [(F.clkPrecStatsSupersededCount, F.clkPrecStatsSaturated, 0, 0)]
  | .edgeStatClear b i => [(F.bayEdgeStatEdgeCollision, F.bayEdgeStatCollisionSaturated, b, i),
      (F.bayEdgeStatQueueOverflow, F.bayEdgeStatOverflowSaturated, b, i)]
  | .cmpStatClear b => [(F.bayCmpStatWindowReopen, F.bayCmpStatReopenSaturated, b, 0),
      (F.bayCmpStatWindowOrphan, F.bayCmpStatOrphanSaturated, b, 0)]
  | .logStatClear q => [(F.seqLogStatCoalescedCount, F.seqLogStatSaturated, q, 0)]
  | .capStatClear q => [(F.seqCapStatLostCount, F.seqCapStatSaturated, q, 0)]
  | .underrunClear q => [(F.seqUnderrunCount, F.seqUnderrunSaturated, q, 0)]
  | .lcacheStatClear q => [(F.seqLcacheStatHits, F.seqLcacheStatSaturated, q, 0)]
  | .loadStatClear => [(F.pgtLoadStatLoads, F.pgtLoadStatLoadsSaturated, 0, 0),
      (F.pgtLoadStatEvictions, F.pgtLoadStatEvictSaturated, 0, 0)]
  | .pgtErrStatClear => [(F.pgtErrStatCrcFail, F.pgtErrStatCrcSaturated, 0, 0), (F.pgtErrStatLoadErr, F.pgtErrStatErrSaturated, 0, 0)]
  | .oluErrStatClear p => [(F.olupErrStatCrcErr, F.olupErrStatCrcSaturated, p, 0),
      (F.olupErrStatRetrains, F.olupErrStatRetrainSaturated, p, 0), (F.olupErrStatDiscarded, F.olupErrStatDiscardSaturated, p, 0),
      (F.olupErrStatBipErr, F.olupErrStatBipSaturated, p, 0)]
  | .eventStatClear => [(F.hifEventStatUnrouted, F.hifEventStatSaturated, 0, 0)]
  | .ringStatusClear q => [(F.ringStatusDropped, F.ringStatusSaturated, q, 0)]
  | .flowStatClear f => [(F.dispFlowStatRefused, F.dispFlowStatSaturated, 0, f)]
  | .thrWaitClear j => [(F.dispThrWaitMax, F.dispThrWaitMaxSaturated, 0, j)]
  | .mailNorouteClear => [(F.coreStatusMailNoroute, F.coreStatusSaturated, 0, 0)]
  | .outOfRangeClear => [(F.drmInfoOutOfRange, F.drmInfoSaturated, 0, 0)]
  | .panicClear => [(F.drmPanicCount, F.drmPanicSaturated, 0, 0)]
  | .srClear => [(F.drmSrEntries, F.drmSrSaturated, 0, 0)]
  | .eccStatClear m => [(F.mchEccStatCeCount, F.mchEccStatCeSaturated, m, 0), (F.mchEccStatUeCount, F.mchEccStatUeSaturated, m, 0)]
  | .rasErrStatClear => [(F.rasErrStatCeCount, F.rasErrStatCeSaturated, 0, 0), (F.rasErrStatUeCount, F.rasErrStatUeSaturated, 0, 0)]
  | .feStatClear b => [(F.bayFeStatOverrun, F.bayFeStatSaturated, b, 0)]
  | .adcCountsClear b => [(F.bayAdcCountsTrigOverrun, F.bayAdcCountsSaturated, b, 0), (F.bayAdcCountsUrgentBusy, F.bayAdcCountsSaturated, b, 0),
      (F.bayAdcCountsBusyDiscard, F.bayAdcCountsSaturated, b, 0), (F.bayAdcCountsSkipped, F.bayAdcCountsSaturated, b, 0),
      (F.bayAdcCountsClip, F.bayAdcCountsSaturated, b, 0), (F.bayAdcCountsOverrange, F.bayAdcCountsSaturated, b, 0)]
  | .timStatClear m => [(F.bayTimStatLost, F.bayTimStatCountSaturated, m / 4, m % 4),
      (F.bayTimStatBusyDiscard, F.bayTimStatCountSaturated, m / 4, m % 4)]
  | .failCountClear b => (List.range 16).map fun i => (F.bayFailCountCount, F.bayFailCountSaturated, b, i)
  | _ => []

/-- A CLEAR command that no reset of the counts' block discards completes: each of its counts and its saturated bit read 0, and an
increment of the count that arrives in the same tick is lost for it (R13, R19, R59, R62). -/
def ClearsZeroTheirCounts : Prop :=
  ∀ (c : Instr) (s : State), clearedCounts c ≠ [] →
    (∀ e ∈ clearedCounts c, ClearActs s (e.1.key e.2.2.1 e.2.2.2) e.1.lo) →
    Completes c s fun t => ∀ e ∈ clearedCounts c,
      t.get e.1 e.2.2.1 e.2.2.2 = 0 ∧ t.get e.2.1 e.2.2.1 e.2.2.2 = 0
      ∧ ∀ n, (t.count e.1 e.2.1 e.2.2.1 e.2.2.2 n).get e.1 e.2.2.1 e.2.2.2 = 0

/-- The register of a logged address that a CLEAR clears too. -/
def clearedAddress : Instr → Option RegKey
  | .eccStatClear m => some ⟨.mchEccAddr, m, 0⟩
  | .rasErrStatClear => some ⟨.rasErrLog, 0, 0⟩
  | _ => none

/-- The frame of the CLEAR commands: every register but the one that holds the counts (and MCH[m].ECC_ADDR, RAS.ERR_LOG for the
two that clear a logged address, and CLK.PREC_STATS, which counts what the clear discards), every byte of local DRAM and every other
part of the state are as before. -/
def ClearsTouchNothingElse : Prop :=
  ∀ (c : Instr) (s t : State), clearedCounts c ≠ [] → exec c s = .next t →
    (∀ k : RegKey, (∀ e ∈ clearedCounts c, k ≠ e.1.key e.2.2.1 e.2.2.2) → clearedAddress c ≠ some k → k.name ≠ .clkPrecStats →
      t.rd k = s.rd k)
    ∧ SameMemory s t
    ∧ t = { s with regs := t.regs, events := t.events }

/-- All that `ClearsZeroTheirCounts` and `ClearsTouchNothingElse` say. -/
def Obligations.Clears : Prop := ClearsZeroTheirCounts ∧ ClearsTouchNothingElse

/-! ### Clocks, alignment, bay assignment, GPIO (01_clocks…) -/

/-- The reference monitor: ROOT_LOCK rises; a dropout of 4 µs (4,800 ct) or less sets HOLDOVER while it lasts and is counted once when
the reference resumes; a longer stop sets REF_LOST and HOLDOVER, clears TICK_ALIGNED and is counted; REF_RESTORED clears both where
REFCLK has been back for 100 µs (120,000 ct). -/
def ReferenceMonitor : Prop :=
  (∀ s : State, Completes .rootLock s fun t => t.get F.clkStatusRootLock = 1)
  ∧ (∀ s : State, s.bit F.clkStatusRefLost = false →
      ∀ ct, Completes (.refclkDropout ⟨false, ct⟩) s fun t => t.get F.clkStatusHoldover = 1
        ∧ t.get F.clkRefmonDropoutCount = s.get F.clkRefmonDropoutCount)
  ∧ (∀ (ct : Nat) (s : State), s.bit F.clkStatusRefLost = false → s.bit F.clkStatusHoldover = true →
      Unclear s F.clkRefmonDropoutCount 0 0 → s.nowCt + ct ≤ s.clk.refLast.getD (s.nowCt + ct) + 4800 →
      Completes (.refclkDropout ⟨true, ct⟩) s fun t => t.get F.clkStatusHoldover = 0
        ∧ t.get F.clkRefmonDropoutCount = min 65535 (s.get F.clkRefmonDropoutCount + 1))
  ∧ (∀ s : State, s.bit F.clkStatusRefLost = false → Unclear s F.clkRefmonLostCount 0 0 →
      Completes .refLost s fun t => t.get F.clkStatusRefLost = 1 ∧ t.get F.clkStatusHoldover = 1
        ∧ t.get F.clkStatusTickAligned = 0 ∧ t.get F.clkRefmonLostCount = min 65535 (s.get F.clkRefmonLostCount + 1))
  ∧ (∀ (back ct : Nat) (s : State), s.bit F.clkStatusRefLost = true → s.clk.refBack = some back → back + 120000 ≤ s.nowCt + ct →
      Completes (.refRestored ct) s fun t => t.get F.clkStatusRefLost = 0 ∧ t.get F.clkStatusHoldover = 0)

/-- A BAYMAP commit with every sequencer STOPPED and no bay calibrating or in reset before the tick assigns all eight bays as the
written word says (R26, R27). -/
def BaymapCommitAssigns : Prop :=
  ∀ (v : Word) (src : Src) (s : State), (∀ q < 4, s.seqBefore q = 0) →
    (∀ b < 8, s.bayBusyBefore b = false ∧ Alone s (.bay b)) →
    Completes (.baymapCommit v src) s fun t =>
      t.get F.globalBaymapSeqsel = bitsOf v 0 16 ∧ t.get F.globalBaymapAssigned = bitsOf v 16 8
      ∧ t.get F.globalBaymapStatusRefused = s.get F.globalBaymapStatusRefused

/-- A BAYMAP commit that would change a bay of a sequencer that was not STOPPED before the tick leaves that bay as it is and reports it in
BAYMAP_STATUS.REFUSED. -/
def BaymapCommitRefusesRunningBays : Prop :=
  ∀ (v : Word) (src : Src) (s : State) (b q : Nat), b < 8 → s.bayOf b = some q → s.seqBefore q ≠ 0 →
    bayField v b ≠ bayField (s.rd ⟨.globalBaymap, 0, 0⟩) b → Alone s (.bay b) →
    s.clearedNow (F.globalBaymapStatusRefused.key 0 0) (F.globalBaymapStatusRefused.lo + b) = false →
    Completes (.baymapCommit v src) s fun t => t.bayOf b = some q ∧ testBit (t.get F.globalBaymapStatusRefused) b = true

/-- All that `BaymapCommitAssigns` and `BaymapCommitRefusesRunningBays` say. -/
def Obligations.BaymapCommit : Prop := BaymapCommitAssigns ∧ BaymapCommitRefusesRunningBays

/-- Tick alignment: an arm in verify mode, or in align mode with every sequencer STOPPED, no bay calibrating and no raising
scheduled, arms the device and records MODE and SYNC_DRIVE; otherwise it is refused. With SYNC_DRIVE, SYNC_OUT is driven 150 event
ticks after the arm; the capture at an edge of REFCLK and the alignment edge 48 core ticks behind it follow; in align mode ETCOUNT is
loaded and TICK_ALIGNED set, in verify mode ETCOUNT and the phase of that edge are reported; a disarm returns to idle. -/
def TickAlignment : Prop :=
  (∀ (verify drive : Bool) (src : Src) (s : State), s.get F.clkStatusAlignState ≠ 1 → s.get F.clkStatusAlignState ≠ 2 →
      Alone s .align → verify = true ∨ s.alignFree = true →
      Completes (.alignArm verify drive src) s fun t => t.get F.clkStatusAlignState = 1 ∧ t.get F.clkAlignResultValid = 0
        ∧ t.bit F.clkAlignMode = verify ∧ t.bit F.clkAlignSyncDrive = drive)
  ∧ (∀ (drive : Bool) (src : Src) (s : State), s.get F.clkStatusAlignState ≠ 1 → s.get F.clkStatusAlignState ≠ 2 →
      Alone s .align → s.alignFree = false → Unclear s F.clkStatusAlignRefused 0 0 →
      Completes (.alignArm false drive src) s fun t => t.get F.clkStatusAlignRefused = 1
        ∧ t.get F.clkStatusAlignState = s.get F.clkStatusAlignState)
  ∧ (∀ (src : Src) (s : State), s.get F.clkStatusAlignState = 1 ∨ s.get F.clkStatusAlignState = 2 → Alone s .align →
      Completes (.alignDisarm src) s fun t => t.get F.clkStatusAlignState = 0)
  ∧ (∀ (k : Nat) (s : State), s.clk.driveDue = some k → k + 150 ≤ s.ticks → s.bit F.clkAlignSyncDrive = true →
      Completes .syncDrive s fun t => t.out = s.out ++ [.syncPulse] ∧ t.clk.driveDue = none)
  ∧ (∀ (c : Nat) (s : State), s.refEdge = some c → s.get F.clkStatusAlignState = 1 → Alone s .align →
      Completes .syncCapture s fun t => t.get F.clkStatusAlignState = 2 ∧ t.clk.capture = c)
  ∧ (∀ (ct : Nat) (s : State), s.get F.clkStatusAlignState = 2 → s.clk.capture + 48 ≤ s.nowCt + ct → s.bit F.clkAlignMode = false →
      Completes (.alignmentEdge ct) s fun t => t.get F.clkStatusAlignState = 3 ∧ t.get F.clkStatusTickAligned = 1
        ∧ t.get F.clkEtcountCount = s.get F.clkAlignLoadValue)
  ∧ (∀ (ct : Nat) (s : State), s.get F.clkStatusAlignState = 2 → s.clk.capture + 48 ≤ s.nowCt + ct → s.bit F.clkAlignMode = true →
      Completes (.alignmentEdge ct) s fun t => t.get F.clkStatusAlignState = 3 ∧ t.get F.clkAlignResultValid = 1
        ∧ t.get F.clkAlignResultEtcountLow = s.get F.clkEtcountCount % 2 ^ 48 ∧ t.get F.clkAlignResultPhase = s.clk.capture % 8
        ∧ t.get F.clkEtcountCount = s.get F.clkEtcountCount)

/-- An arm and a disarm of CLK.ALIGN in one event tick, in either order of presentation, leave the operation disarmed: it is
neither armed nor has it captured (R51). -/
def Obligations.ArmAndDisarmLeaveDisarmed : Prop :=
  ∀ (verify drive : Bool) (src src2 : Src) (s : State), Alone s .align →
    (∃ t, exec (.alignArm verify drive src) s = .next t ∧
      Completes (.alignDisarm src2) t fun u => u.get F.clkStatusAlignState ≠ 1 ∧ u.get F.clkStatusAlignState ≠ 2)
    ∧ (∃ t, exec (.alignDisarm src2) s = .next t ∧
      Completes (.alignArm verify drive src) t fun u => u.get F.clkStatusAlignState ≠ 1 ∧ u.get F.clkStatusAlignState ≠ 2)

/-- A GPIO edge at a boundary: GPIO_IN shows the level; where GPIO_ROUTE[pin] is enabled for that edge and the flag is not
otherwise decided, the event flag of the routed thread is set. -/
def GpioEdges : Prop :=
  ∀ (pin : Nat) (level rose fell : Bool) (s : State), pin < 32 →
    Completes (.gpioEdge pin level rose fell) s fun t => testBit (t.get F.globalGpioInLevel) pin = level
      ∧ (∀ p < 32, p ≠ pin → testBit (t.get F.globalGpioInLevel) p = testBit (s.get F.globalGpioInLevel) p)
      ∧ (s.bit F.dispGpioRouteEn 0 pin = true → edgeSelected (s.get F.dispGpioRouteEdge 0 pin) rose fell = true →
          ∀ j i, j = s.get F.dispGpioRouteThread 0 pin → i = s.get F.dispGpioRouteFlag 0 pin →
          s.decider (.thread j) = none → Alone s (.threadFlag j i) → testBit (t.get F.dispThrStateFlags 0 j) i = true)

/-- All that `ReferenceMonitor` and `TickAlignment` and `GpioEdges` say. -/
def Obligations.ClockAndPins : Prop := ReferenceMonitor ∧ TickAlignment ∧ GpioEdges

/-! ### Sequencers: control (02_…, 03_sequencer_control_words.md) -/

/-- A start that nothing refuses (R70, R71): SEQ[q] runs from ENTRY with a new run, LAUNCH_DELAY after the present boundary; its
local flags take LF_INIT, and CYCLE, STOP_REASON and SITE_FAIL read 0. A start of a sequencer that is not STOPPED, has a fault,
has a bay that calibrates or is in reset, or comes while REF_LOST is set, changes nothing (R28, R41). -/
def Obligations.StartRunsTheSequencer : Prop :=
  ∀ (q : Nat) (src : Src) (s : State), Alone s (.seq q) →
    (s.startRefusal q ≠ 0 → Completes (.seqStart q src) s fun t => t = s)
    ∧ (s.startRefusal q = 0 → Completes (.seqStart q src) s fun t => t.seqState q = 1 ∧ (t.seqX q).pc = s.get F.seqEntryAddress q
      ∧ (t.seqX q).nextAt = s.nowFu + s.get F.seqLaunchDelayDelay q * 1024 ∧ (t.seqX q).run = (s.seqX q).run + 1
      ∧ (t.seqX q).levels = [] ∧ (t.seqX q).stack = []
      ∧ t.get F.seqLflagsLf q = s.get F.seqLflagsLfInit q ∧ t.get F.seqCycleCount q = 0 ∧ t.get F.seqStatusStopReason q = 0
      ∧ t.get F.seqSiteFailSite q = 0 ∧ t.get F.seqSiteFailSeq q = 0)

/-- The other control actions of a sequencer: a PAUSED sequencer resumes, into its hold where it has one; a pause or an abort of
a sequencer that runs becomes pending for its next peg point with the present tick; an abort of a PAUSED sequencer stops it with
STOP_REASON 4; FAULT_CLEAR clears FAULT. -/
def Obligations.SequencerControl : Prop :=
  (∀ (q : Nat) (src : Src) (s : State), Alone s (.seq q) → s.seqState q = 4 →
      Completes (.seqResume q src) s fun t => t.seqState q = (if (s.seqX q).hold.isSome then 2 else 1)
        ∧ (t.seqX q).nextAt = s.launchAt q ∧ (t.seqX q).pc = (s.seqX q).pc)
  ∧ (∀ (q : Nat) (src : Src) (s : State), Alone s (.seq q) → s.seqState q = 1 ∨ s.seqState q = 2 →
      Completes (.pauseRequest q src) s fun t => t.seqState q = s.seqState q
        ∧ (t.seqX q).pend = (s.seqX q).pend ++ [⟨3, s.ticks, none⟩])
  ∧ (∀ (q : Nat) (src : Src) (s : State), Alone s (.seq q) → s.seqState q = 1 ∨ s.seqState q = 2 →
      Completes (.abort q src) s fun t => t.seqState q = s.seqState q
        ∧ (t.seqX q).pend = (s.seqX q).pend ++ [⟨4, s.ticks, none⟩])
  ∧ (∀ (q : Nat) (src : Src) (s : State), Alone s (.seq q) → s.seqState q = 4 → (s.seqX q).ending = none →
      Completes (.abort q src) s fun t => t.seqState q = 0 ∧ t.get F.seqStatusStopReason q = 4)
  ∧ (∀ (q : Nat) (src : Src) (s : State), Alone s (.seq q) →
      Completes (.faultClear q src) s fun t => t.get F.seqStatusFault q = 0 ∧ t.seqState q = s.seqState q)

/-- What ends by itself: the peg watchdog forces the end of a run whose stop action has found no peg point for LIMIT ticks, from the
boundary of its expiry on; a hold's TIMEOUT ends the hold at the present boundary, with its flag, unless a raising of this boundary
releases it; a barrier that is met advances GEN, uses one arrival of its own and ends the hold in it; the park boundary of an ended
run, with nothing queued and no other action pending, makes the sequencer STOPPED or PAUSED with its STOP_REASON. -/
def SequencerTimers : Prop :=
  (∀ (q t0 : Nat) (s : State), (s.seqX q).watch = some t0 → t0 + s.get F.seqPegWatchdogLimit q ≤ s.ticks →
      (s.seqX q).pend ≠ [] → (s.seqX q).ending = none →
      Completes (.pegWatchdog q) s fun t => (t.seqX q).forced = some ((t0 + s.get F.seqPegWatchdogLimit q) * 8192))
  ∧ (∀ (q : Nat) (h : Hold) (s : State), (s.seqX q).hold = some h → h.timeout ≠ 0 → tickAt h.since + h.timeout ≤ s.ticks →
      h.release = none → h.start = none → h.raise = false ∨ s.releasedNow q = false → Unclear s F.seqStatusHoldTimeout q 0 →
      Completes (.holdTimeout q) s fun t => (t.seqX q).hold = some { h with release := some s.ticks }
        ∧ t.get F.seqStatusHoldTimeout q = 1
        ∧ ∀ i < 16, h.toFlag = some i → testBit (t.get F.seqLflagsLf q) i = true)
  ∧ (∀ (q i : Nat) (s : State), s.barrierMet q i = true →
      Completes (.barrierRelease q i) s fun t => t.get F.seqBarrierGen q i = (s.get F.seqBarrierGen q i + 1) % 16
        ∧ (t.bar q i).own = (s.bar q i).own - 1
        ∧ ∀ h, (s.seqX q).hold = some h → h.raise = false → h.bar = i → h.release = none →
            (t.seqX q).hold = some { h with release := some s.ticks })
  ∧ (∀ (q : Nat) (e : Ending) (s : State), (s.seqX q).ending = some e → e.endAt ≤ s.nowFu → (s.seqX q).pend = [] →
      (∀ r ∈ s.site.runs, r.stopCycle ≠ none) →
      (∀ c < 128, (s.chan c).queue = [] ∧ ∀ p, (s.chan c).parkAt = some p → (s.chan c).parkInstant p ≤ s.nowFu) →
      Completes (.park q) s fun t => t.seqState q = (if e.paused then 4 else 0) ∧ t.get F.seqStatusStopReason q = e.reason % 16)

/-- A raising whose instant has come (R262) becomes FREE; where SEQMASK names one STOPPED sequencer whose start nothing refuses,
that sequencer runs, LAUNCH_DELAY after the present boundary. -/
def RaiseFires : Prop :=
  (∀ (e : Nat) (s : State), s.bit F.timeRaiseNsScheduled 0 e = true → s.raiseInstant e ≤ s.station → Alone s (.raise e) →
      Completes (.raiseFire e) s fun t => t.get F.timeRaiseNsScheduled 0 e = 0)
  ∧ (∀ (e q : Nat) (s : State), s.bit F.timeRaiseNsScheduled 0 e = true → s.raiseInstant e ≤ s.station → Alone s (.raise e) →
      q < 4 → s.get F.timeRaiseNsSeqmask 0 e = 2 ^ q → Alone s (.seq q) → s.seqBefore q = 0 → s.startRefusal q = 0 → (s.seqX q).ending = none →
      Completes (.raiseFire e) s fun t => t.seqState q = 1 ∧ (t.seqX q).nextAt = s.launchAt q)

/-- All that `SequencerTimers` and `RaiseFires` say. -/
def Obligations.TimersAndRaisings : Prop := SequencerTimers ∧ RaiseFires

/-! ### Sequencers: records (R63 to R111) -/

/-- The next record of SEQ[q], of opcode `op` with words `words`, is decoded now and starts at `c`: the sequencer can decode, no
repetition and no hold is in force, the record is available, and neither a stop, a commit's peg point nor a program error comes
before it; `t` is the state in which it is issued. -/
def DecodesNow (s : State) (q op : Nat) (words : List Nat) (c : Nat) (t : State) : Prop :=
  s.canDecode q = true ∧ (s.seqX q).rep = 0 ∧ (s.seqX q).hold = none
  ∧ crosses (s.seqX q).pc (s.recWords q) = false ∧ words ≠ [] ∧ vcwOp (words.getD 0 0) = op
  ∧ ∃ u, (s.setSeqX q { (s.seqX q) with hold := none }).takeRecord q (s.seqX q).pc (s.recWords q) = some (words, u)
      ∧ u.beforeRecord q (fun v => v.startOf q (vcwTset (words.getD 0 0))) = (false, t)
      ∧ c = t.startOf q (vcwTset (words.getD 0 0))
      ∧ t.recordFault q (words.getD 0 0) c = none

/-- The state with the record issued, before its effect on flow, flags and bays. -/
def issued (t : State) (q a c : Nat) (words : List Nat) : State := (t.gfStops q c).go q a words c false noEffect

/-- What issuing a record does, whatever its opcode (R66, R69, R131): the sequencer is RUNNING, POSITION.PC is the record's
address, CYCLE advances by the vectors of the mode, the next record follows, the last cycle ends one period a vector after the
record's start; open levels and the return stack are as before. -/
def Obligations.RecordIsIssued : Prop :=
  ∀ (q a c : Nat) (words : List Nat) (t v : State), v = issued t q a c words →
    v.seqState q = 1 ∧ v.get F.seqPositionPc q = a % 2 ^ F.seqPositionPc.width
    ∧ v.get F.seqCycleCount q = (t.get F.seqCycleCount q + vectors (t.get F.seqCtrlMode q)) % 2 ^ F.seqCycleCount.width
    ∧ (v.seqX q).pc = a + words.length ∧ (v.seqX q).levels = (t.seqX q).levels ∧ (v.seqX q).stack = (t.seqX q).stack
    ∧ (v.seqX q).period = some (t.tsetAt q (vcwTset (words.getD 0 0)) c).period
    ∧ (v.seqX q).lastEnd = c + vectors (t.get F.seqCtrlMode q) * (t.tsetAt q (vcwTset (words.getD 0 0)) c).period

/-- NOP, LOOP, ENDLOOP of a loop level, REPEAT, CALL, RET, JUMP and JUMPIF: what each does to levels, stack, count of executions
and the next record's address, on top of its issue; a further execution of a REPEAT leaves one fewer to come (R68, R75 to R83). -/
def Obligations.FlowRecords : Prop :=
  ∀ (q c : Nat) (words : List Nat) (s t v : State) (a w : Nat), a = (s.seqX q).pc → w = words.getD 0 0 → v = issued t q a c words →
    (DecodesNow s q 0x00 words c t → Completes (.nopRec q) s fun r => r = v)
    ∧ (DecodesNow s q 0x01 words c t → Completes (.loopRec q) s fun r =>
        (r.seqX q).levels = { body := a + s.recWords q, rem := vcwCount w - 1 } :: (v.seqX q).levels)
    ∧ (∀ (l : Level) (rest : List Level), (v.seqX q).levels = l :: rest → l.isMatch = false →
        DecodesNow s q 0x02 words c t → Completes (.endloop q) s fun r =>
          (l.rem = 0 → (r.seqX q).levels = rest ∧ (r.seqX q).pc = a + words.length)
          ∧ (∀ n, l.rem = n + 1 → (r.seqX q).levels = { l with rem := n, iter := l.iter + 1 } :: rest ∧ (r.seqX q).pc = l.body))
    ∧ (DecodesNow s q 0x03 words c t → Completes (.repeatRec q) s fun r => (r.seqX q).rep = vcwCount w - 1)
    ∧ (∀ n, s.canDecode q = true → (s.seqX q).rep = n + 1 → vcwOp ((s.seqX q).cur.getD 0 0) = 0x03 →
        s.beforeRecord q (fun v => v.startOf q (vcwTset ((s.seqX q).cur.getD 0 0))) = (false, t) →
        Completes (.repeatRec q) s fun r => (r.seqX q).rep = n)
    ∧ (DecodesNow s q 0x04 words c t → Completes (.callRec q) s fun r =>
        (r.seqX q).pc = vcwTarget w ∧ (r.seqX q).stack = (a + s.recWords q, (v.seqX q).levels.length) :: (v.seqX q).stack)
    ∧ (∀ (b d : Nat) (rest : List (Nat × Nat)), (v.seqX q).stack = (b, d) :: rest →
        DecodesNow s q 0x05 words c t → Completes (.ret q) s fun r => (r.seqX q).pc = b ∧ (r.seqX q).stack = rest)
    ∧ (DecodesNow s q 0x06 words c t → Completes (.jump q) s fun r =>
        (r.seqX q).pc = vcwTarget w ∧ (r.seqX q).levels = (v.seqX q).levels.drop (vcwPop w))
    ∧ (DecodesNow s q 0x07 words c t → Completes (.jumpif q) s fun r =>
        if v.condHolds q (vcwCond w) c then
          (r.seqX q).pc = vcwTarget w ∧ (r.seqX q).levels = (v.seqX q).levels.drop (vcwPop w)
        else r = v)

/-- MATCH opens a match level with its block and its first pass; FLAGSET and FLAGCLR write a local flag at once, and put a global
flag's change to the first boundary at or after the record's start; FLAGCLR of the fail space clears the accumulators (R86, R89,
R92, R97). -/
def MatchAndFlagRecords : Prop :=
  ∀ (q c : Nat) (words : List Nat) (s t v : State) (a w : Nat), a = (s.seqX q).pc → w = words.getD 0 0 → v = issued t q a c words →
    (DecodesNow s q 0x08 words c t → Completes (.matchRec q) s fun r =>
        (∃ l, (r.seqX q).levels = l :: (v.seqX q).levels ∧ l.isMatch = true ∧ l.body = a + s.recWords q
          ∧ l.rem = vcwCount w - 1 ∧ l.cond = vcwCond w ∧ l.blk = (v.seqX q).nextBlk)
        ∧ (r.seqX q).newPass = true)
    ∧ (DecodesNow s q 0x09 words c t → Completes (.flagset q) s fun r =>
        (w / 64 % 4 = 0 → testBit (r.get F.seqLflagsLf q) (min (w % 64) 15) = true)
        ∧ (w / 64 % 4 = 1 → (r.seqX q).due = (v.seqX q).due ++ [(c, .gf (w % 64) true)])
        ∧ (w / 64 % 4 = 2 → (r.seqX q).acc.find? (fun e => decide (e.1 = 32)) = some (32, 0)))
    ∧ (DecodesNow s q 0x0A words c t → Completes (.flagclr q) s fun r =>
        (w / 64 % 4 = 0 → testBit (r.get F.seqLflagsLf q) (min (w % 64) 15) = false)
        ∧ (w / 64 % 4 = 1 → (r.seqX q).due = (v.seqX q).due ++ [(c, .gf (w % 64) false)])
        ∧ (w / 64 % 4 = 2 → (r.seqX q).acc = []))

/-- WAITRAISE and BARRIER hold (R98, R102, R103): HOLDING, a peg point at the end of the repetition, the hold as the record
gives it; the arrival at the barrier waits for the first boundary at or after the record's start. -/
def HoldRecords : Prop :=
  ∀ (q c : Nat) (words : List Nat) (s t v : State) (a w : Nat), a = (s.seqX q).pc → w = words.getD 0 0 → v = issued t q a c words →
    (DecodesNow s q 0x0B words c t → Completes (.waitraise q) s fun r =>
        r.seqState q = 2 ∧ (r.seqX q).peg = true ∧ (r.seqX q).hold = some (openHold true w c))
    ∧ (DecodesNow s q 0x0C words c t → Completes (.barrier q) s fun r =>
        r.seqState q = 2 ∧ (r.seqX q).peg = true ∧ (r.seqX q).hold = some (openHold false w c)
        ∧ (r.seqX q).due = (v.seqX q).due ++ [(c, .arrive (w / 2 ^ 37 % 8))])

/-- All that `MatchAndFlagRecords` and `HoldRecords` say. -/
def Obligations.MatchFlagAndHoldRecords : Prop := MatchAndFlagRecords ∧ HoldRecords

/-- TRIGGER, MEASURE, TIMARM and FEAPPLY act on the bays of the sequencer that the record names, at the first boundary at or
after the record's start (R105 to R109). -/
def BayRecords : Prop :=
  ∀ (q c : Nat) (words : List Nat) (s t v : State) (a w : Nat), a = (s.seqX q).pc → w = words.getD 0 0 → v = issued t q a c words →
    (DecodesNow s q 0x0D words c t → Completes (.trigger q) s fun r =>
        (r.seqX q).due = (v.seqX q).due ++ (v.ownBays q (w % 256)).map fun b => (c, .trigger b c))
    ∧ (w / 256 % 4 ≠ 3 → DecodesNow s q 0x0E words c t → Completes (.measure q) s fun r =>
        (r.seqX q).due = (v.seqX q).due ++ (v.ownBays q (w % 256)).map fun b => (c, .window b (w / 256 % 4) c))
    ∧ (w / 256 % 4 = 3 → DecodesNow s q 0x0E words c t → Completes (.measure q) s fun r =>
        (r.seqX q).due = (v.seqX q).due ++ (v.ownBays q (w % 256)).map fun b => (c, .urgent b (w / 1024 % 16)))
    ∧ (DecodesNow s q 0x0F words c t → Completes (.timarm q) s fun r => ∀ m < 32, testBit (w % 2 ^ 32) m = true →
        v.bayOf (m / 4) = some q → (c, SeqAct.timArm m) ∈ (r.seqX q).due)
    ∧ (DecodesNow s q 0x10 words c t → Completes (.feapply q) s fun r =>
        (r.seqX q).due = (v.seqX q).due ++ (v.ownBays q (w % 256)).map fun b => (c, .feStart b (w / 256 % 64)))

/-- The last records (R111, R112), where the cycle issued ends after the present boundary: STOPIFFAIL whose condition holds, HALT
and END end the run with their STOP_REASON, HALT as PAUSED; STOPIFFAIL whose condition does not hold goes on. -/
def LastRecords : Prop :=
  ∀ (q c : Nat) (words : List Nat) (s t v : State) (a w : Nat), a = (s.seqX q).pc → w = words.getD 0 0 → v = issued t q a c words →
    v.nowFu < (v.seqX q).lastEnd →
    (DecodesNow s q 0x12 words c t → Completes (.stopiffail q) s fun r =>
        if v.condHolds q (vcwCond w) c then (r.seqX q).ending = some ⟨5, false, (v.seqX q).lastEnd, none⟩ else r = v)
    ∧ (DecodesNow s q 0x13 words c t → Completes (.halt q) s fun r => (r.seqX q).ending = some ⟨2, true, (v.seqX q).lastEnd, none⟩)
    ∧ (DecodesNow s q 0x14 words c t → Completes (.endRec q) s fun r => (r.seqX q).ending = some ⟨1, false, (v.seqX q).lastEnd, none⟩)

/-- All that `BayRecords` and `LastRecords` say. -/
def Obligations.BayAndLastRecords : Prop := BayRecords ∧ LastRecords

/-! ### Timing sets, edges and DUT clock generators (04_…) -/

/-- A table commit is applied at once on a sequencer that does not run: it is STOPPED, PAUSED or STALLED, or it was STOPPED or
PAUSED before the tick (R62, R117, R212). -/
abbrev CommitsAtOnce (s : State) (q : Nat) : Prop :=
  s.seqState q = 0 ∨ s.seqState q = 4 ∨ s.seqState q = 3 ∨ s.seqBefore q = 0 ∨ s.seqBefore q = 4

/-- A table commit of a sequencer that does not run is applied at once: every dirty set takes its staged values, clamped for the
mode, and TS_DIRTY and PENDING read 0; of a sequencer that runs, it waits and PENDING reads 1 (R123 to R125). -/
def TableCommit : Prop :=
  ∀ (q : Nat) (src : Src) (s : State), Alone s (.store q) →
    (CommitsAtOnce s q → (s.seqX q).ending = none → (s.seqX q).commits = [] → (s.seqX q).pegs = [] →
      Completes (.tableCommit q src) s fun t => t.get F.seqTsDirtyDirty q = 0 ∧ t.get F.seqTsCtrlPending q = 0
        ∧ (∀ n < 64, testBit (s.get F.seqTsDirtyDirty q) n = true →
            t.tset q n = (unitAt {} (s.store q).staging n).clamp (s.get F.seqCtrlMode q))
        ∧ (∀ n < 64, testBit (s.get F.seqTsDirtyDirty q) n = false → t.tset q n = s.tset q n))
    ∧ (¬CommitsAtOnce s q →
      Completes (.tableCommit q src) s fun t => t.get F.seqTsCtrlPending q = 1
        ∧ t.get F.seqTsDirtyDirty q = s.get F.seqTsDirtyDirty q ∧ t.store q = s.store q)

/-- The DUT clock generators: a start of a FREE generator that does not run places its first rising edge at the next boundary; a
disable stops a generator that runs after its next falling edge; a frequency commit loads the staged settings, and stops a generator
that runs after its next falling edge, to restart at the first boundary after that edge where the loaded mode is FREE (R143 to R145). -/
def DutClocks : Prop :=
  (∀ (b g : Nat) (src : Src) (s : State), Alone s (.dclk b g) → (s.dclk b g).locked = false → (s.dclk b g).start = none →
      (s.dclk b g).stopAt = none →
      Completes (.dclkStart b g src) s fun t => (t.dclk b g).start = some ((s.ticks + 1) * 8192 * 131072)
        ∧ (t.dclk b g).stopAt = none)
  ∧ (∀ (b g st : Nat) (src : Src) (s : State), Alone s (.dclk b g) → (s.dclk b g).start = some st → (s.dclk b g).stopAt = none →
      Completes (.dclkDisable b g src) s fun t => (t.dclk b g).stopAt = some ((s.dclk b g).nextFall st s.now17)
        ∧ (t.dclk b g).next = none)
  ∧ (∀ (b g : Nat) (src : Src) (s : State), Alone s (.dclk b g) →
      Completes (.frequencyCommit b g src) s fun t => (t.dclk b g).period = s.get F.bayDclkPeriodPeriod b g
        ∧ (t.dclk b g).locked = s.bit F.bayDclkCtrlMode b g ∧ (t.dclk b g).seqsel = s.get F.bayDclkCtrlSeqsel b g
        ∧ (t.dclk b g).offset = s.get F.bayDclkCtrlOffset b g ∧ (t.dclk b g).trim = s.getS F.bayDclkCtrlDutyTrim b g
        ∧ ∀ st f, (s.dclk b g).start = some st → (s.dclk b g).stopAt = none → f = (s.dclk b g).nextFall st s.now17 →
            (t.dclk b g).stopAt = some f
            ∧ (t.dclk b g).next = if s.bit F.bayDclkCtrlMode b g then none else some ((f / 1073741824 + 1) * 1073741824))

/-- All that `TableCommit` and `DutClocks` say. -/
def Obligations.TimingStoreAndDutClocks : Prop := TableCommit ∧ DutClocks

/-- The first queued event of a channel, once its instant and the kerf behind it have passed (R128, R137, R138, R152, R154, R156): a
drive event less than 128 fu before another is suppressed and counted, any other drives the channel's levels; a strobe samples both
comparators and its outcome, pass or fail against the expectation, starts on its way; a window event opens a window where none is
open, and a WC closes an open one, whose outcome starts on its way. -/
def Obligations.EdgesActOnChannels : Prop :=
  ∀ (c : Nat) (high low : List (Nat × Bool)) (e : Ev) (rest : List Ev) (s : State), (s.chan c).queue = e :: rest →
    e.time + 128 ≤ s.nowFu →
    (isDrive e.code = true → kerfHit e rest = false →
      Completes (.edgeApply c high low) s fun t => (t.chan c).queue = rest
        ∧ (t.chan c).den = decide (e.code ≠ 3) ∧ (e.code = 1 → (t.chan c).drv = false) ∧ (e.code = 2 → (t.chan c).drv = true)
        ∧ (e.code = 3 → (t.chan c).drv = (s.chan c).drv))
    ∧ (isDrive e.code = true → kerfHit e rest = true → Unclear s F.bayEdgeStatEdgeCollision (c / 16) (c % 16) →
      Completes (.edgeApply c high low) s fun t => (t.chan c).queue = rest ∧ (t.chan c).drv = (s.chan c).drv
        ∧ (t.chan c).den = (s.chan c).den
        ∧ (s.get F.bayEdgeStatEdgeCollision (c / 16) (c % 16) + 1 < 2 ^ F.bayEdgeStatEdgeCollision.width →
            t.get F.bayEdgeStatEdgeCollision (c / 16) (c % 16) = s.get F.bayEdgeStatEdgeCollision (c / 16) (c % 16) + 1))
    ∧ (4 ≤ e.code → e.code ≤ 7 →
      Completes (.edgeApply c high low) s fun t => (t.chan c).queue = rest
        ∧ ∃ f, (t.chan c).flight = (s.chan c).flight ++ [f] ∧ f.vec = e.vec ∧ f.at_ = e.time
          ∧ f.actual = stateCode (firstValue high) (firstValue low)
          ∧ f.fail = (decide (e.code ≠ 7) && decide (f.actual ≠ metBy (expectedCode e.code))))
    ∧ (8 ≤ e.code → e.code ≤ 10 → (s.chan c).win = none →
      Completes (.edgeApply c high low) s fun t => (t.chan c).queue = rest
        ∧ (t.chan c).win = some ⟨e, firstValue high, firstValue low⟩ ∧ (t.chan c).flight = (s.chan c).flight)
    ∧ (∀ w, e.code = 11 → (s.chan c).win = some w →
      Completes (.edgeApply c high low) s fun t => (t.chan c).queue = rest ∧ (t.chan c).win = none
        ∧ ∃ f, (t.chan c).flight = (s.chan c).flight ++ [f] ∧ f.window = true ∧ f.vec = e.vec ∧ f.at_ = e.time
          ∧ f.fail = (windowOutcome w e high low).1 ∧ f.actual = (windowOutcome w e high low).2)

/-! ### Compares, the fail log and capture (05_…) -/

/-- An outcome that completes in the present tick is delivered: it leaves its channel, and a fail of an active compare outside a
quiet match block counts in FAIL_COUNT of the channel and, in its own run, sets SITE_FAIL.SEQ (R153, R161, R164). -/
def OutcomesAreDelivered : Prop :=
  ∀ (c : Nat) (f : Flight) (rest : List Flight) (s : State), (s.chan c).flight = f :: rest → f.done < s.nowFu + 8192 →
    Completes (.compareResult c) s fun t => (t.chan c).flight = rest
      ∧ (f.active = true → f.compares = true → f.vec.quiet = false → f.fail = true →
          (Unclear s F.bayFailCountCount (c / 16) (c % 16) →
            t.get F.bayFailCountCount (c / 16) (c % 16) = min 4294967295 (s.get F.bayFailCountCount (c / 16) (c % 16) + 1))
          ∧ ((s.seqX f.vec.seq).run = f.vec.run → s.clearedNow (F.seqSiteFailSite.key f.vec.seq 0) 32 = false →
            t.get F.seqSiteFailSeq f.vec.seq = 1))
      ∧ (f.fail = false → t.get F.bayFailCountCount (c / 16) (c % 16) = s.get F.bayFailCountCount (c / 16) (c % 16))

/-- FAIL_SNAP copies the sixteen counters of its bay as they stood at the start of the tick, and the low bits of ETCOUNT
(R163). -/
def FailSnapshot : Prop :=
  ∀ (b : Nat) (s : State), Completes (.failSnap b) s fun t => (∀ i < 16, t.rd ⟨.bayFailShadow, b, i⟩ = s.atStart ⟨.bayFailCount, b, i⟩)
    ∧ t.get F.bayFailSnapValid b = 1 ∧ t.get F.bayFailSnapEtcountLow b = s.get F.clkEtcountCount % 2 ^ 48

/-- All that `OutcomesAreDelivered` and `FailSnapshot` say. -/
def Obligations.OutcomesAndSnapshots : Prop := OutcomesAreDelivered ∧ FailSnapshot

/-- The log writer (R170, R173): the head of the first queue that can be served, in rotation after the sequencer served last,
goes to entry WR of that sequencer's ring in local DRAM, WR advances, and every other byte is as before. -/
def LogWriterWritesOneRecord : Prop :=
  ∀ (q a : Nat) (w : List Word) (rest : List (List Word)) (s : State), s.logNext = some q → (s.logX q).queue = w :: rest →
    (s.logX q).doomed = 0 → (s.logX q).summaries = [] → w.length = 4 →
    a = s.get F.seqLogCfgBasePage q * 4096 + s.get F.seqLogPtrWr q * 32 → s.inDram a 32 = true →
    Completes .logWrite s fun t => t.memBytes a 32 = wordBytes w ∧ (t.logX q).queue = rest
      ∧ t.get F.seqLogPtrWr q = (s.get F.seqLogPtrWr q + 1) % 2 ^ s.get F.seqLogCfgSize q ∧ t.logTurn = q
      ∧ ∀ x, x < a ∨ a + 32 ≤ x → t.memByte x = s.memByte x

/-- A mirror copies the oldest entry that has been written to its ring in local DRAM and not mirrored, as it was written, to the host
ring it names, where that ring is ENABLED, has the mirror's type and has room, and the function is a bus master: the entry is written
at PROD, and PROD and RD advance (R33, R174, R179, R394). -/
def MirrorsCopyOneEntry : Prop :=
  (∀ (q r : Nat) (ws : List Word) (rest : List (List Word)) (s : State), s.bit F.seqLogCfgEnable q = true →
      s.bit F.seqLogCfgMirrorEn q = true → (s.logX q).mirror = ws :: rest → r = s.get F.seqLogCfgMirrorRing q →
      s.get F.ringCfgType r = 3 → s.ringEnabled r = true → s.ringRoom r = true → s.busMaster = true →
      Completes (.mirror 0 q) s fun t => t.get F.seqLogPtrRd q = (s.get F.seqLogPtrRd q + 1) % 2 ^ s.get F.seqLogCfgSize q
        ∧ (t.logX q).mirror = rest ∧ t.out = s.out ++ [.hostWrite (s.ringAddr r (s.get F.ringIndexProd r)) ws]
        ∧ t.get F.ringIndexProd r = (s.get F.ringIndexProd r + 1) % s.ringSize r % 65536)
  ∧ (∀ (q r w : Nat) (rest : List Nat) (s : State), s.bit F.seqCapCfgEnable q = true → s.bit F.seqCapCfgMirrorEn q = true →
      (s.logX q).capMirror = w :: rest → r = s.get F.seqCapCfgMirrorRing q →
      s.get F.ringCfgType r = 4 → s.ringEnabled r = true → s.ringRoom r = true → s.busMaster = true →
      Completes (.mirror 1 q) s fun t => t.get F.seqCapPtrRd q = (s.get F.seqCapPtrRd q + 1) % 2 ^ s.get F.seqCapCfgSize q
        ∧ (t.logX q).capMirror = rest
        ∧ t.out = s.out ++ [.hostWrite (s.ringAddr r (s.get F.ringIndexProd r)) [BitVec.ofNat 64 w]]
        ∧ t.get F.ringIndexProd r = (s.get F.ringIndexProd r + 1) % s.ringSize r % 65536)
  ∧ (∀ (b r : Nat) (ws : List Nat) (rest : List (List Nat)) (s : State), s.bit F.bayAcqRingEnable b = true →
      s.bit F.bayAcqRingMirrorEn b = true → (s.acq b).mirror = ws :: rest → r = s.get F.bayAcqRingMirrorRing b →
      s.get F.ringCfgType r = 5 → s.ringEnabled r = true → s.ringRoom r = true → s.busMaster = true →
      Completes (.mirror 2 b) s fun t => t.get F.bayAcqPtrRd b = (s.get F.bayAcqPtrRd b + 1) % 2 ^ s.get F.bayAcqRingSize b
        ∧ (t.acq b).mirror = rest
        ∧ t.out = s.out ++ [.hostWrite (s.ringAddr r (s.get F.ringIndexProd r)) (ws.map (BitVec.ofNat 64))]
        ∧ t.get F.ringIndexProd r = (s.get F.ringIndexProd r + 1) % s.ringSize r % 65536)

/-- The configuration writes and the capture writer, where nothing stands against them (R175, R177, R179): LOG_CFG and CAP_CFG enable
their rings with zeroed indices, and the block that a closed capture block makes is written, WR past it. -/
def LogAndCaptureCommandsAct : Prop :=
  (∀ (q : Nat) (v : Word) (s : State), s.bit F.seqLogCfgEnable q = false → s.before F.seqLogCfgEnable q = 0 →
      s.clk.was.log.contains q = false → testBit v.toNat 0 = true →
      Completes (.logCfgWrite q v) s fun t => t.bit F.seqLogCfgEnable q = true ∧ t.get F.seqLogPtrWr q = 0 ∧ t.get F.seqLogPtrRd q = 0)
  ∧ (∀ (q : Nat) (v : Word) (s : State), s.bit F.seqCapCfgEnable q = false → s.before F.seqCapCfgEnable q = 0 →
      s.clk.was.cap.contains q = false → testBit v.toNat 0 = true →
      Completes (.capCfgWrite q v) s fun t => t.bit F.seqCapCfgEnable q = true ∧ t.get F.seqCapPtrWr q = 0 ∧ t.get F.seqCapPtrRd q = 0)
  ∧ (∀ (q : Nat) (b : CapBlk) (rest : List CapBlk) (s : State), (s.logX q).capOpen = none → (s.logX q).capRest = [] →
      (s.logX q).capClosed = b :: rest → (s.logX q).capDoomed = 0 → s.dramReady = true → b.words.length + 2 ≤ s.capFree q →
      Completes (.captureBlockWrite q) s fun t => (t.logX q).capClosed = rest
        ∧ t.get F.seqCapPtrWr q = (s.get F.seqCapPtrWr q + (b.words.length + 2)) % 2 ^ s.get F.seqCapCfgSize q)

/-- All that `LogWriterWritesOneRecord`, `MirrorsCopyOneEntry` and `LogAndCaptureCommandsAct` say. -/
def Obligations.LogWriterAndMirrors : Prop := LogWriterWritesOneRecord ∧ MirrorsCopyOneEntry ∧ LogAndCaptureCommandsAct

/-- LOG_CFG (R175): setting ENABLE where it was 0 with the queue empty before the tick stores the register and zeroes WR and RD;
clearing ENABLE closes the open summaries behind what is queued, and condemns all of it; while ENABLE was 1 before the tick a write
that leaves it set changes nothing in the register, and one with ENABLE = 0 throughout and an empty queue stores the register. -/
def LogEnable : Prop :=
  (∀ (q : Nat) (v : Word) (s : State), s.bit F.seqLogCfgEnable q = false → s.before F.seqLogCfgEnable q = 0 →
      s.clk.was.log.contains q = false → testBit v.toNat 0 = true →
      Completes (.logCfgWrite q v) s fun t => t.bit F.seqLogCfgEnable q = true ∧ t.get F.seqLogPtrWr q = 0
        ∧ t.get F.seqLogPtrRd q = 0 ∧ t.get F.seqLogCfgBasePage q = bitsOf v 16 25 ∧ (t.logX q).queue = (s.logX q).queue)
  ∧ (∀ (q : Nat) (v : Word) (s : State), s.bit F.seqLogCfgEnable q = true → testBit v.toNat 0 = false →
      Completes (.logCfgWrite q v) s fun t => t.bit F.seqLogCfgEnable q = false ∧ (t.logX q).summaries = []
        ∧ (∃ l, (t.logX q).queue = (s.logX q).queue ++ l ∧ l.length = (s.logX q).summaries.length)
        ∧ (t.logX q).doomed = (t.logX q).queue.length)
  ∧ (∀ (q : Nat) (v : Word) (s : State), s.bit F.seqLogCfgEnable q = true → s.before F.seqLogCfgEnable q = 1 →
      testBit v.toNat 0 = true →
      Completes (.logCfgWrite q v) s fun t => t.rd ⟨.seqLogCfg, q, 0⟩ = s.rd ⟨.seqLogCfg, q, 0⟩ ∧ t.logX q = s.logX q)
  ∧ (∀ (q : Nat) (v : Word) (s : State), s.bit F.seqLogCfgEnable q = false → s.before F.seqLogCfgEnable q = 0 →
      s.clk.was.log.contains q = false → testBit v.toNat 0 = false →
      Completes (.logCfgWrite q v) s fun t => t.bit F.seqLogCfgEnable q = false
        ∧ t.get F.seqLogCfgBasePage q = bitsOf v 16 25 ∧ t.logX q = s.logX q)

/-- CAP_CFG (R179): the same, of the capture queue and its open block. -/
def CaptureEnable : Prop :=
  (∀ (q : Nat) (v : Word) (s : State), s.bit F.seqCapCfgEnable q = false → s.before F.seqCapCfgEnable q = 0 →
      s.clk.was.cap.contains q = false → testBit v.toNat 0 = true →
      Completes (.capCfgWrite q v) s fun t => t.bit F.seqCapCfgEnable q = true ∧ t.get F.seqCapPtrWr q = 0
        ∧ t.get F.seqCapPtrRd q = 0 ∧ t.get F.seqCapCfgBasePage q = bitsOf v 16 25)
  ∧ (∀ (q : Nat) (v : Word) (s : State), s.bit F.seqCapCfgEnable q = true → testBit v.toNat 0 = false →
      Completes (.capCfgWrite q v) s fun t => t.bit F.seqCapCfgEnable q = false ∧ (t.logX q).capOpen = none
        ∧ (t.logX q).capClosed = (s.logX q).capClosed ++ (s.logX q).capOpen.toList
        ∧ (t.logX q).capDoomed = (t.logX q).capClosed.length)
  ∧ (∀ (q : Nat) (v : Word) (s : State), s.bit F.seqCapCfgEnable q = true → s.before F.seqCapCfgEnable q = 1 →
      testBit v.toNat 0 = true →
      Completes (.capCfgWrite q v) s fun t => t.rd ⟨.seqCapCfg, q, 0⟩ = s.rd ⟨.seqCapCfg, q, 0⟩ ∧ t.logX q = s.logX q)
  ∧ (∀ (q : Nat) (v : Word) (s : State), s.bit F.seqCapCfgEnable q = false → s.before F.seqCapCfgEnable q = 0 →
      s.clk.was.cap.contains q = false → testBit v.toNat 0 = false →
      Completes (.capCfgWrite q v) s fun t => t.bit F.seqCapCfgEnable q = false
        ∧ t.get F.seqCapCfgBasePage q = bitsOf v 16 25 ∧ t.logX q = s.logX q)

/-- LOG_CFG and CAP_CFG: all that `LogEnable` and `CaptureEnable` say. -/
def LogAndCaptureEnables : Prop := LogEnable ∧ CaptureEnable

/-- The address of word `i` of the block that the capture writer of SEQ[q] writes next (R177). -/
def capAddr (s : State) (q i : Nat) : Nat :=
  s.get F.seqCapCfgBasePage q * 4096 + (s.get F.seqCapPtrWr q + i) % 2 ^ s.get F.seqCapCfgSize q * 8

/-- The capture writer (R177): the first closed block that the ring has room for is written whole, two header words and its state
words, from WR on, modulo the ring's size; WR advances by their number, and every other byte is as before. With nothing closed, and no
open block that is due to close, nothing is written. -/
def CaptureWriterWritesOneBlock : Prop :=
  (∀ (q : Nat) (b : CapBlk) (rest : List CapBlk) (s : State), (s.logX q).capOpen = none → (s.logX q).capRest = [] →
      (s.logX q).capClosed = b :: rest → (s.logX q).capDoomed = 0 → s.dramReady = true → b.words.length + 2 ≤ s.capFree q →
      s.get F.seqCapPtrWr q < 2 ^ s.get F.seqCapCfgSize q → (∀ i, s.inDram (capAddr s q i) 8 = true) →
      Completes (.captureBlockWrite q) s fun t => (t.logX q).capClosed = rest
        ∧ t.get F.seqCapPtrWr q = (s.get F.seqCapPtrWr q + (b.words.length + 2)) % 2 ^ s.get F.seqCapCfgSize q
        ∧ (∀ i < b.words.length + 2, t.memBytes (capAddr s q i) 8 = bytesOf ((b.all q).getD i 0) 8)
        ∧ ∀ a, (∀ i < b.words.length + 2, a < capAddr s q i ∨ capAddr s q i + 8 ≤ a) → t.memByte a = s.memByte a)
  ∧ (∀ (q : Nat) (s : State), (s.logX q).capOpen = none → (s.logX q).capRest = [] → (s.logX q).capClosed = [] →
      Completes (.captureBlockWrite q) s fun t => t = s)

/-- All that `LogAndCaptureEnables` and `CaptureWriterWritesOneBlock` say. -/
def Obligations.LogAndCaptureSetup : Prop := LogAndCaptureEnables ∧ CaptureWriterWritesOneBlock

/-! ### The pattern space (06_…) -/

/-- The page table (R188 to R192, R216): a rebuild with every sequencer STOPPED and no load in flight empties it, and any other
rebuild is refused; a rebuild's end clears BUSY; a window read shows an entry's two words; a window write of an entry that is
not LOADING, not held while resident, maps the page anew, in host memory; one with the address and check word of a mapped entry
writes its flags alone; one of a LOADING page with other content is refused and leaves the page table as it is. -/
def Obligations.PageTable : Prop :=
  (∀ s : State, s.allStopped = true → s.page.loads = [] →
      Completes .rebuild s fun t => t.page.table = [] ∧ t.page.reqs = [] ∧ t.get F.pgtStatusRebuildBusy = 1)
  ∧ (∀ s : State, s.allStopped = false ∨ s.page.loads ≠ [] → Unclear s F.pgtStatusRebuildRefused 0 0 →
      Completes .rebuild s fun t => t.page = s.page ∧ t.get F.pgtStatusRebuildRefused = 1)
  ∧ (∀ s : State, Completes .rebuildDone s fun t => t.get F.pgtStatusRebuildBusy = 0)
  ∧ (∀ (g : Nat) (s : State), s.bit F.pgtStatusRebuildBusy = false →
      Completes (.winRead g) s fun t => t.rd ⟨.pgtWinData, 0, 0⟩ = BitVec.ofNat 64 (s.entryWords g).1
        ∧ t.rd ⟨.pgtWinData, 0, 1⟩ = BitVec.ofNat 64 (s.entryWords g).2)
  ∧ (∀ (g w0 w1 : Nat) (s : State), w0 = (s.rd ⟨.pgtWinData, 0, 0⟩).toNat → w1 = (s.rd ⟨.pgtWinData, 0, 1⟩).toNat →
      s.bit F.pgtStatusRebuildBusy = false →
      ((w0 % 8 ≠ 0 → ((s.entry g).sameContent w0 w1 = false ∨ (s.entry g).state = 0) → (s.entry g).state ≠ 2 →
          ((s.entry g).resident = false ∨ s.held g = false) →
        Completes (.winWrite g) s fun t => t.get F.pgtWinCmdFlagsOnly = 0 ∧ (t.entry g).state = 1
          ∧ (t.entry g).host = w1 / 2 ^ 12 % 2 ^ 52 ∧ (t.entry g).crc = w0 / 2 ^ 32 % 2 ^ 32 ∧ (t.entry g).pin = testBit w0 3
          ∧ ∀ h, h ≠ g → t.entry h = s.entry h)
      ∧ (w0 % 8 ≠ 0 → (s.entry g).sameContent w0 w1 = true → (s.entry g).state ≠ 0 →
        Completes (.winWrite g) s fun t => t.get F.pgtWinCmdFlagsOnly = 1 ∧ (t.entry g).pin = testBit w0 3
          ∧ (t.entry g).noStall = testBit w0 4 ∧ (t.entry g).flowTab = testBit w0 7
          ∧ (t.entry g).host = (s.entry g).host ∧ (t.entry g).crc = (s.entry g).crc
          ∧ ((s.entry g).resident = true → (t.entry g).state = if testBit w0 3 then 4 else 3))
      ∧ ((s.entry g).state = 2 → (s.entry g).sameContent w0 w1 = false → Unclear s F.pgtWinCmdRefused 0 0 →
        Completes (.winWrite g) s fun t => t.get F.pgtWinCmdRefused = 1 ∧ t.page = s.page)))

/-- The reads of a page (R193): its flow table first where it has one, then the data in ascending order, 4,096 bytes each. -/
def pageReadsOf (e : PgEntry) : List Output :=
  if e.flowTab then [.pageReads (e.host * 4096 + 0x3FFF000) 1, .pageReads (e.host * 4096) 16383]
  else [.pageReads (e.host * 4096) 16384]

/-- Page loads (R193 to R195): the engine starts the first request with a free frame and reads the page from host memory; a page
whose check word is right becomes LOCAL or PINNED, its frame holds the data followed by zeros, and no other byte changes; a
failed attempt is counted and read again, a second failure makes the page BAD in host memory. -/
def Obligations.PageLoads : Prop :=
  (∀ (r : PgReq) (f : Nat) (fs : List Nat) (s : State), s.dramReady = true → s.page.loads.length < s.get F.pgtCtrlMaxInflight →
      s.nextRequest = some r → s.freeFrames = f :: fs →
      Completes .loadStart s fun t => (t.entry r.page).state = 2 ∧ (t.entry r.page).frame = f
        ∧ t.page.loads = s.page.loads ++ [{ page := r.page, level := r.level }]
        ∧ t.out = s.out ++ pageReadsOf (s.entry r.page))
  ∧ (∀ (g : Nat) (data : List Nat) (s : State), s.loading g = true → s.dramReady = true → checkWord data = (s.entry g).crc →
      Completes (.loadComplete g data) s fun t => (t.entry g).state = (if (s.entry g).pin then 4 else 3)
        ∧ (∀ x ∈ t.page.loads, x.page ≠ g)
        ∧ (∀ i < 67108864, t.memByte ((s.entry g).frame * 67108864 + i) = BitVec.ofNat 8 (data.getD i 0))
        ∧ (∀ a, a < (s.entry g).frame * 67108864 ∨ ((s.entry g).frame + 1) * 67108864 ≤ a → t.memByte a = s.memByte a))
  ∧ (∀ (g cause : Nat) (x : PgLoad) (s : State), s.loading g = true →
      s.page.loads.find? (fun y => decide (y.page = g)) = some x → Unclear s F.pgtErrStatLoadErr 0 0 →
      Completes (.loadErr g cause) s fun t =>
        t.get F.pgtErrStatLoadErr = min 65535 (s.get F.pgtErrStatLoadErr + 1)
        ∧ (x.again = false → (t.entry g).state = 2 ∧ t.out = s.out ++ pageReadsOf (s.entry g))
        ∧ (x.again = true → (t.entry g).state = 1 ∧ (t.entry g).bad = true ∧ ∀ y ∈ t.page.loads, y.page ≠ g))

/-- The lookahead and the fill engine (R198, R201, R425): a lookahead at a page with no flow table goes on to the next page, which
joins its path and is requested; the fill engine takes its next record from the loop cache, or from a resident page, into the
prefetch buffer; PAGEHINT requests the page it names. -/
def LookaheadAndFill : Prop :=
  (∀ (q a : Nat) (arrived : List Nat) (s : State), s.seqState q ≠ 0 → (s.seqX q).look.path.length < s.get F.pgtLookaheadDepth 0 q →
      (s.seqX q).look.addr = some a → (s.entry (pageOf a)).flowTab = false →
      (s.entry (pageOf a + 1)).state = 1 → (s.entry (pageOf a + 1)).bad = false → (s.entry (pageOf a + 1)).pclass ≠ 2 →
      pageOf a + 1 ∉ (s.seqX q).look.path → pageOf a + 1 ≠ s.currentPage q →
      Completes (.lookahead q arrived) s fun t => (t.seqX q).look.path = (s.seqX q).look.path ++ [pageOf a + 1]
        ∧ ∃ r ∈ t.page.reqs, r.page = pageOf a + 1)
  ∧ (∀ (q a n : Nat) (s : State), (s.seqX q).fill.pc = some a → n = s.recWords q → s.seqState q ≠ 0 →
      bufBytes n (s.seqX q).fill.buf + n * 8 ≤ 262144 → crosses a n = false → s.pageFault a n = none →
      (∀ w, (s.seqX q).fill.cached a n = some w →
        Completes (.prefetchFill q) s fun t => (t.seqX q).fill.buf = (s.seqX q).fill.buf ++ [(a, w)])
      ∧ ((s.seqX q).fill.cached a n = none → (s.entry (pageOf a)).resident = true → s.dramReady = true →
          s.inDram (s.dramAddr a) (n * 8) = true → s.dram.poison = [] →
        Completes (.prefetchFill q) s fun t => (t.seqX q).fill.buf
          = (s.seqX q).fill.buf ++ [(a, wordsOf n (s.memBytes (s.dramAddr a) (n * 8)))]))
  ∧ (∀ (q c : Nat) (words : List Nat) (s t v : State) (w : Nat), w = words.getD 0 0 →
      v = issued t q (s.seqX q).pc c words → (v.entry (w % 32768)).state = 1 → (v.entry (w % 32768)).bad = false →
      (v.entry (w % 32768)).pclass ≠ 2 → DecodesNow s q 0x11 words c t →
      Completes (.pagehint q) s fun r => ∃ x ∈ r.page.reqs, x.page = w % 32768)

/-- Under-runs (R209, R211, R213): a stalled sequencer whose records have become available resumes, RESUME_DELAY after the core
tick at which they became available, and not before the instant the record already has; a stall of LIMIT ticks is an under-run abort with STOP_REASON 9;
STALL_TIME clears. -/
def Underruns : Prop :=
  (∀ (q ct : Nat) (s : State), ct < 8 → (s.seqX q).under = true → (s.seqX q).resumed = false → (s.seqX q).ending = none →
      s.fillReady q (s.seqX q).pc (s.recWords q) = true →
      Completes (.stallResume q ct) s fun t => (t.seqX q).resumed = true ∧ (t.seqX q).period = none
        ∧ (t.seqX q).nextAt = max (ceilCt (s.seqX q).nextAt) (s.nowFu + (ct + s.get F.seqResumeDelayDelay q) * 1024))
  ∧ (∀ (q : Nat) (s : State), s.seqState q = 3 → s.get F.seqStallCtrlLimit q ≠ 0 →
      (s.seqX q).stallAt + s.get F.seqStallCtrlLimit q ≤ s.ticks → Alone s (.seq q) → (s.seqX q).ending = none →
      (s.seqX q).pend = [] →
      Completes (.stallLimit q) s fun t => (t.seqState q = 0 ∧ t.get F.seqStatusStopReason q = 9)
        ∨ (t.seqX q).ending = some ⟨9, false, s.stopEnd q, none⟩)
  ∧ (∀ (q : Nat) (s : State), Completes (.stallTimeClear q) s fun t => t.get F.seqStallTimeEt q = 0)

/-- All that `LookaheadAndFill` and `Underruns` say. -/
def Obligations.LookaheadAndUnderruns : Prop := LookaheadAndFill ∧ Underruns

/-! ### Sites (07_…) -/

/-- Sites (R220, R229, R231): a commit whose dirty sites are all free, and which makes no duplicate and no site of 1 to 3
channels, takes every staged map; a retired site is RETIRED with its RETIRE bit set; the end of a site's present run writes
RESULT with the first cycle not issued to it, its epoch and its accumulator, and the run is gone. -/
def Obligations.Sites : Prop :=
  (∀ (d : List Nat) (s : State), d = (List.range 32).filter (testBit (s.get F.siteDirtyDirty)) → (∀ k ∈ d, s.siteFree k = true) →
      s.duplicates d = false → s.tooFew d = false →
      Completes .siteCommit s fun t => t.get F.siteStatusResult = 1 ∧ t.get F.siteDirtyDirty = 0
        ∧ (∀ k ∈ d, t.siteMap k = unitAt {} s.site.staging k) ∧ (∀ k < 32, k ∉ d → t.siteMap k = s.siteMap k))
  ∧ (∀ (k : Nat) (s : State), Completes (.retire k) s fun t => t.get F.sitekStatusState k = 3 ∧ t.get F.sitekCtrlRetire k = 1)
  ∧ (∀ (k n : Nat) (r : SiteRun) (s : State), s.endedRun k = some (r, n) → r.old = false →
      Completes (.siteEnd k) s fun t => t.get F.sitekResultValid k = 1 ∧ t.get F.sitekResultStopCycle k = n % 2 ^ 48
        ∧ t.get F.sitekResultEpochLow k = r.epoch % 256
        ∧ t.get F.sitekResultFailed k = r.failed.toNat ∧ r ∉ t.site.runs)

/-! ### Station time (08_…) -/

/-- The servo (R239 to R242), on a device that is no lockstep follower: a sample of a disabled domain is rejected and counted; an
accepted one acts at the end of its tick (`State.timeActs`): within the step threshold it moves the integrator, clamped to ILIMIT, and
on a device that is no leader sets ADDEND from it; INT_CLEAR zeroes the integrator, the CLEAR of the reject count zeroes that count; a
domain without an accepted sample for HOLD_ET ticks enters HOLDOVER with the addend of the integrator alone. -/
def DomainServo : Prop :=
  (∀ (d : Nat) (theta : Int) (s : State), s.isFollower = false → s.bit F.domCtrlEnable d = false → Unclear s F.domStatusRejectCount d 0 →
      Completes (.sampleOffset d theta) s fun t => t.get F.domStatusRejectCount d = min 65535 (s.get F.domStatusRejectCount d + 1)
        ∧ t.get F.domAddendAddend d = s.get F.domAddendAddend d ∧ (t.servo d).integ = (s.servo d).integ
        ∧ t.time.asks = s.time.asks)
  ∧ (∀ (d : Nat) (theta i lim : Int) (s : State), s.isFollower = false → s.isLeader = false → s.bit F.domCtrlEnable d = true →
      s.bit F.clkStatusRefLost = false → s.gated d (s.get F.domSampleDelayDelay d) = false → s.time.asks = [] →
      theta.natAbs ≤ s.get F.domCtrlStepNs d * 65536 → lim = (s.gains d).2.2 * 65536 →
      i = clampInt (-lim) lim ((s.servo d).integ + theta) →
      Completes (.sampleOffset d theta) s fun t => (t.timeActs.servo d).integ = i
        ∧ t.timeActs.get F.domAddendAddend d = (s.addendFor d (s.correction d theta i)).1.toNat % 2 ^ 32)
  ∧ (∀ (d : Nat) (s : State), s.isFollower = false → s.time.asks = [] →
      Completes (.intClear d) s fun t => (t.timeActs.servo d).integ = 0
        ∧ t.timeActs.get F.domAddendAddend d = s.get F.domAddendAddend d)
  ∧ (∀ (d : Nat) (s : State), s.isFollower = false → ClearActs s (F.domStatusRejectCount.key d 0) F.domStatusRejectCount.lo →
      Completes (.rejectCountClear d) s fun t => t.get F.domStatusRejectCount d = 0 ∧ t.get F.domStatusSaturated d = 0)
  ∧ (∀ (d : Nat) (s : State), s.get F.domStatusState d = 1 ∨ s.get F.domStatusState d = 2 →
      s.get F.domLockHoldEt d ≤ s.ticks - (s.servo d).lastAccept → s.isLeader = false → s.inLockstep = false →
      Completes (.servoHoldover d) s fun t => t.get F.domStatusState d = 3
        ∧ t.get F.domAddendAddend d = (s.holdoverAddend d).1.toNat % 2 ^ 32)

/-- The first core tick after the present boundary at which a change of the timebase can act (R246). -/
def changeTick (s : State) : Nat := max (s.time.ct + 1) s.timeFront

/-- Steps, switches and the slew (R243, R245 to R247), on a device that is neither leader nor follower, where nothing else has reached
the timebase in the tick: at the end of the tick a step moves the domain's clock, from the first core tick after the boundary on, and
sets STEPPED, unless the domain is the selected one, the step is over 10 µs and a raising is scheduled, when it is refused and the
clocks go on; a switch selects the other domain and leaves station time where it was; with Δ = 0 the slew has ended and SLEWING
reads 0. -/
def StepsAndSwitches : Prop :=
  (∀ (d n : Nat) (ns : Int) (s : State), d < 2 → s.isFollower = false → s.isLeader = false → Unclear s F.domStatusStepped d 0 →
      ¬(s.lastSelect = d ∧ (10000 < ns ∨ ns < -10000) ∧ s.anyScheduled = true) → s.time.asks = [] → changeTick s ≤ n →
      Completes (.domainStep d ns) s fun t => t.timeActs.get F.domStatusStepped d = 1
        ∧ (t.timeActs.clocksAt n).dom d = ((s.clocksAt (changeTick s)).pass (n - changeTick s)).dom d + ns * 4294967296
        ∧ (t.timeActs.clocksAt n).dom (1 - d) = ((s.clocksAt (changeTick s)).pass (n - changeTick s)).dom (1 - d))
  ∧ (∀ (d : Nat) (ns : Int) (s : State), s.isFollower = false → s.lastSelect = d → 10000 < ns ∨ ns < -10000 →
      s.anyScheduled = true → Unclear s F.domStatusStepRefused d 0 → s.time.asks = [] →
      Completes (.domainStep d ns) s fun t => t.timeActs.time = s.time ∧ t.timeActs.get F.domStatusStepRefused d = 1)
  ∧ (∀ (d : Nat) (s : State), d < 2 → s.isFollower = false → s.isLeader = false → s.lastSelect ≠ d → s.time.asks = [] →
      Completes (.domainSwitch d) s fun t => t.timeActs.get F.timeStatusSelected = d ∧ t.timeActs.get F.timeCtrlSelect = d
        ∧ (t.timeActs.clocksAt (changeTick s)).sel = d
        ∧ (t.timeActs.clocksAt (changeTick s)).station = (s.clocksAt (changeTick s)).station)
  ∧ (∀ s : State, s.newClocks.delta = 0 →
      Completes .slewComplete s fun t => t.get F.timeStatusSlewing = 0 ∧ t.time = s.time)

/-- Time in and out (R252 to R258): LATCH stores the time of SOURCE; PPS_OUT rises, where enabled with the reference present, at the
instant at which the time of OUT_SOURCE passes a whole second; an accepted PPS_IN edge is stamped and counted; a frame with a good FCS
that the filter wants goes to the oldest receive buffer and to host memory, one with a bad FCS is dropped and counted; the oldest frame
handed to the time port leaves the queue; an enabled port shows its link. -/
def TimeInAndOut : Prop :=
  (∀ (i src : Nat) (s : State), src ≤ 2 →
      Completes (.latch i src) s fun t =>
        t.get F.timeSnapSecSeconds 0 i = timeSec (s.clocks.source src) % 2 ^ F.timeSnapSecSeconds.width
        ∧ t.get F.timeSnapNsNanoseconds 0 i = timeNs (s.clocks.source src) % 2 ^ F.timeSnapNsNanoseconds.width
        ∧ t.get F.timeSnapNsFraction 0 i = timeFrac (s.clocks.source src) % 2 ^ F.timeSnapNsFraction.width
        ∧ t.get F.timeSnapNsValid 0 i = 1 ∧ t.get F.timeSnapSecSource 0 i = src)
  ∧ (∀ (e : Nat) (s : State), s.timeActs.ppsEdge (s.get F.timePpsCfgOutSource) = some e → s.bit F.timePpsCfgOutEn = true →
      s.bit F.clkStatusRefLost = false →
      Completes .ppsOut s fun t => t.out = s.out ++ [.pps e (s.get F.timePpsCfgOutLat)]
        ∧ t.time.ppsFalls = some (s.time.ct + e / 1024 + 1200 * s.get F.timePpsCfgWidth))
  ∧ (∀ (ct src : Nat) (u : Int) (s : State), s.bit F.timePpsCfgInEn = true → src = s.get F.timePpsCfgInSource →
      u = (s.timeActs.clocksIn ct).source src →
      (∀ l, s.time.lastPps = some l → l + 600000000 ≤ s.time.ct + ct) → Unclear s F.timePpsInNsEdges 0 0 →
      s.get F.timePpsInNsEdges + 1 < 2 ^ F.timePpsInNsEdges.width →
      Completes (.ppsIn ct) s fun t => t.get F.timePpsInSecSeconds = timeSec u % 2 ^ F.timePpsInSecSeconds.width
        ∧ t.get F.timePpsInNsNanoseconds = timeNs u % 2 ^ F.timePpsInNsNanoseconds.width
        ∧ t.get F.timePpsInNsValid = 1 ∧ t.get F.timePpsInNsEdges = s.get F.timePpsInNsEdges + 1
        ∧ t.time.lastPps = some (s.time.ct + ct))
  ∧ (∀ (frame : List Nat) (ct q : Nat) (d : Desc) (ds : List Desc) (s : State), s.bit F.timePortCfgEnable = true →
      q = s.get F.timePortCfgRxRing → s.get F.ringCfgType q = 8 → s.ringEnabled q = true → s.frameWanted frame = true →
      isPause frame = false → frame.length ≤ 1518 → s.busMaster = true → (s.ringX q).ready = d :: ds →
      Completes (.timeportRx frame true ct) s fun t => .hostBytes (d.w1.toNat / 64 * 64) frame ∈ t.out ∧ (t.ringX q).ready = ds)
  ∧ (∀ (frame : List Nat) (ct q : Nat) (s : State), s.bit F.timePortCfgEnable = true → q = s.get F.timePortCfgRxRing →
      s.get F.ringCfgType q = 8 → Unclear s F.ringStatusDropped q 0 →
      s.get F.ringStatusDropped q + 1 < 2 ^ F.ringStatusDropped.width →
      Completes (.timeportRx frame false ct) s fun t => t.get F.ringStatusDropped q = s.get F.ringStatusDropped q + 1
        ∧ (t.ringX q).ready = (s.ringX q).ready)
  ∧ (∀ (ago : Nat) (x : TxFrame) (xs : List TxFrame) (s : State), s.time.txQueue = x :: xs →
      Completes (.timetxComplete ago) s fun t => t.time.txQueue = xs)
  ∧ (∀ (up : Bool) (s : State), s.bit F.timePortCfgEnable = true → Completes (.timePortLink up) s fun t => t.bit F.timePortCfgLink = up)

/-- All that `StepsAndSwitches` and `TimeInAndOut` say. -/
def Obligations.TimeStepsAndStamps : Prop := StepsAndSwitches ∧ TimeInAndOut

/-- Lockstep (R249 to R251): a leader's check message goes to every port that originates broadcasts, as CHECK_A and CHECK_B; a
follower in lockstep that has had none for 2^21 ticks loses lockstep and goes on in HOLDOVER. -/
def Lockstep : Prop :=
  (∀ (p : Nat) (s : State), p < 4 → s.isLeader = true → s.get F.oluBcastOrig = 2 ^ p →
      s.get F.olupStatusState p ≠ 0 → s.get F.olupStatusState p ≠ 7 →
      Completes .checkMessageSend s fun t => ∃ a b, (t.portX p).queue = (s.portX p).queue ++ [(a, none), (b, none)]
        ∧ a.cls = 5 ∧ a.sub = 2 ∧ b.cls = 5 ∧ b.sub = 3 ∧ a.bcast = true ∧ b.bcast = true
        ∧ a.payload = List.replicate 8 0 ++ bytesOf (s.get F.clkEtcountCount) 8 ++ domainBytes s.clocks.dom0 ++ domainBytes s.clocks.dom1
        ∧ b.payload = List.replicate 8 0 ++ bytesOf (s.get F.clkEtcountCount) 8 ++ bytesOf s.clocks.add0 4 ++ bytesOf s.clocks.add1 4
          ++ bytesOf (unsigned 96 s.clocks.delta) 12 ++ [s.clocks.sel])
  ∧ (∀ s : State, s.isFollower = true → 2097152 ≤ s.ticks - s.time.lastCheck → s.bit F.timeStatusLockstepOk = true →
      Unclear s F.timeStatusLockstepLost 0 0 →
      Completes .lockstepLost s fun t => t.get F.timeStatusLockstepOk = 0 ∧ t.get F.timeStatusLockstepLost = 1
        ∧ t.get F.domStatusState 0 = 3 ∧ t.get F.domStatusState 1 = 3 ∧ t.time.pendingChanges = [])

/-- All that `DomainServo` and `Lockstep` say. -/
def Obligations.ServoAndLockstep : Prop := DomainServo ∧ Lockstep

/-! ### Oluel links (09_…) -/

/-- Training (R267, R273 to R277, R292): the states of a port from an enable to ACTIVE, to CONFLICT, to a wait after a failed attempt,
and to link-down. -/
def LinkTraining : Prop :=
  (∀ (p : Nat) (s : State), s.bit F.olupCtrlEnable p = false →
      Completes (.oluEnable p) s fun t => t.get F.olupCtrlEnable p = 1 ∧ t.get F.olupStatusState p = 1
        ∧ t.get F.olupStatusAttempts p = 0 ∧ (t.portX p).attemptStart = s.ticks)
  ∧ (∀ (p : Nat) (s : State), (∀ b ∈ s.olu.bulkRx, b.port ≠ p) →
      Completes (.oluDisable p) s fun t => t.get F.olupCtrlEnable p = 0 ∧ t.get F.olupStatusState p = 0
        ∧ t.portX p = {} ∧ .oluIdle p ∈ t.out)
  ∧ (∀ (p : Nat) (s : State), s.linkActive p = true →
      Completes (.retrain p) s fun t => t.get F.olupStatusState p = 1 ∧ t.get F.olupStatusAttempts p = 0
        ∧ (t.portX p).retry = (s.portX p).retry)
  ∧ (∀ (p : Nat) (s : State), s.get F.olupStatusState p = 6 → (s.portX p).waitUntil ≤ s.ticks →
      Completes (.trainingAttempt p) s fun t => t.get F.olupStatusState p = 1 ∧ (t.portX p).attemptStart = s.ticks)
  ∧ (∀ (p : Nat) (s : State), s.training p = true →
      Completes (.trainingFail p) s fun t => t.get F.olupStatusState p = 6
        ∧ t.get F.olupStatusAttempts p = min 8 (s.get F.olupStatusAttempts p + 1)
        ∧ (t.portX p).retry = [] ∧ (t.portX p).bufferPartner = none
        ∧ (s.get F.olupStatusAttempts p < 7 → (t.portX p).waitUntil = s.ticks + 2 ^ s.get F.olupStatusAttempts p * 150000)
        ∧ (s.get F.olupStatusAttempts p = 7 → t.get F.olupStatusLinkAbsent p = 1))
  ∧ (∀ (p inverted : Nat) (s : State), 1 ≤ s.get F.olupStatusState p → s.get F.olupStatusState p ≤ 3 →
      (s.inTime p = true → (s.get F.olupStatusState p = 3 → (s.portX p).aligned = true) →
        Completes (.trainingStateExit ⟨p, inverted⟩) s fun t => t.get F.olupStatusState p = s.get F.olupStatusState p + 1
          ∧ (s.get F.olupStatusState p = 1 → (t.portX p).inverted = inverted))
      ∧ (s.inTime p = false → Completes (.trainingStateExit ⟨p, inverted⟩) s fun t => t.get F.olupStatusState p = 6))
  ∧ (∀ (p partner : Nat) (echoes : List (Nat × Nat)) (s : State), s.get F.olupStatusState p = 4 → partner < 64 → s.inTime p = true →
      (partner ≠ s.get F.oluChipId → Completes (.linkUp p partner echoes) s fun t => t.get F.olupStatusState p = 5
        ∧ t.get F.olupStatusPartnerId p = partner ∧ t.get F.olupStatusHopLat p = hopLat (twoWayDelay echoes)
        ∧ t.get F.olupStatusAttempts p = 0
        ∧ ((s.portX p).bufferPartner = some partner →
            (t.portX p).retry = (s.portX p).retry ∧ (t.portX p).again = (s.portX p).retry.length)
        ∧ ((s.portX p).bufferPartner ≠ some partner → (t.portX p).retry = [] ∧ (t.portX p).txSeq = 0))
      ∧ (partner = s.get F.oluChipId → Completes (.linkUp p partner echoes) s fun t => t.get F.olupStatusState p = 7
        ∧ t.get F.olupStatusPartnerId p = partner))
  ∧ (∀ (p : Nat) (loss : LinkLoss) (s : State), s.linkActive p = true → s.loses p loss = true → Unclear s F.olupErrStatRetrains p 0 →
      Unclear s F.olupStatusLinkDownSeen p 0 → s.get F.olupErrStatRetrains p + 1 < 2 ^ F.olupErrStatRetrains.width →
      Completes (.linkDown ⟨p, loss⟩) s fun t => t.get F.olupStatusState p = 1 ∧ t.get F.olupStatusLinkDownSeen p = 1
        ∧ t.get F.olupErrStatRetrains p = s.get F.olupErrStatRetrains p + 1)

/-- The link protocol of an ACTIVE port (R271, R272, R276, R279 to R281, R286, R293, R294): acknowledgements, NAKs and resends, marker
errors and rate matching, sleep and wake. What is owed goes out with the port's next slots (`FramesTakeSlots`). -/
def LinkProtocol : Prop :=
  ∀ (p : Nat) (s : State), s.linkActive p = true →
    (∀ (raw : List Nat) (f : Frame), frameOf raw = some f → f.cls = 0 → f.nak = false → f.ackValid = false → f.creditClass = 3 →
      Completes (.linkFrame p raw) s fun t => (t.portX p).creditMail = min 64 ((s.portX p).creditMail + f.credits))
    ∧ ((s.portX p).retry ≠ [] → 300 ≤ s.ticks - (s.portX p).ackTick → (s.portX p).resends < 16 →
      Completes (.retryTimeout p) s fun t => (t.portX p).again = (s.portX p).retry.length
        ∧ (t.portX p).resends = (s.portX p).resends + 1 ∧ (t.portX p).retry = (s.portX p).retry)
    ∧ ((s.portX p).retry ≠ [] → 300 ≤ s.ticks - (s.portX p).ackTick → 16 ≤ (s.portX p).resends →
      Completes (.retryTimeout p) s fun t => t.get F.olupStatusState p = 1 ∧ (t.portX p).retry = (s.portX p).retry)
    ∧ ((s.portX p).ackOwed ≠ none → Completes (.ackLinkFrame p) s fun t => (t.portX p).linkOwed = true)
    ∧ (∀ raw, frameOf raw = none → Unclear s F.olupErrStatCrcErr p 0 → (s.portX p).nakSent = false →
      Completes (.crcErr ⟨p, raw⟩) s fun t => t.get F.olupErrStatCrcErr p = min 65535 (s.get F.olupErrStatCrcErr p + 1)
        ∧ (t.portX p).nakSent = true ∧ (t.portX p).nakOwed = true)
    ∧ (∀ skew drift, Unclear s F.olupErrStatBipErr p 0 → s.get F.olupErrStatBipErr p + 1 < 2 ^ F.olupErrStatBipErr.width →
      Completes (.markerGroup p false ⟨skew, drift⟩) s fun t => t.get F.olupErrStatBipErr p = s.get F.olupErrStatBipErr p + 1
        ∧ t.get F.olupStatusState p = (if 16 < skew then 1 else 5)
        ∧ (t.portX p).elastic = (s.portX p).elastic + drift - rateMatch ((s.portX p).elastic + drift))
    ∧ Completes (.sleepBlock p) s (fun t => t.get F.olupStatusRxAsleep p = 1)
    ∧ Completes (.partnerWake p) s (fun t => t.get F.olupStatusRxAsleep p = 0)
    ∧ (s.bit F.olupCtrlSleepEn p = true → s.bit F.olupStatusTxAsleep p = false → (s.portX p).wantsSlot = false →
      s.bulkNext p = none → s.get F.olupCtrlSleepIdle p ≤ s.ticks - (s.portX p).lastSent →
      Completes (.directionSleep p) s fun t => t.get F.olupStatusTxAsleep p = 1 ∧ .oluIdle p ∈ t.out)
    ∧ (s.bit F.olupStatusTxAsleep p = true → (s.portX p).wantsSlot = true →
      Completes (.directionWake p) s fun t => t.get F.olupStatusTxAsleep p = 0 ∧ t.out = s.out ++ [.oluWake p]
        ∧ ∃ g, (t.portX p).queue = (s.portX p).queue ++ [(g, none)] ∧ g.cls = 5 ∧ g.sub = 0)
    ∧ (s.bit F.olupStatusTxAsleep p = false →
      Completes (.etcheckSend p) s fun t => ∃ g, (t.portX p).queue = (s.portX p).queue ++ [(g, none)] ∧ g.cls = 5 ∧ g.sub = 0)

/-- Which frame takes the next slot of a port (R280, R281, R286): a LINK frame with NAK = 1 where one is owed; else the oldest frame still
to be resent; else, with the retry buffer not full, the first waiting express frame, which is numbered, kept in the retry buffer and
carries the acknowledgement, an ETCHECK with ETCOUNT as it is then. -/
def FramesTakeSlots : Prop :=
  ∀ (p : Nat) (s : State),
    ((s.portX p).nakOwed = true → ∃ g t, s.nextFrame p = (some g, t) ∧ g.cls = 0 ∧ g.nak = true
      ∧ g.ackSeq = ((s.portX p).rxExpect + 4095) % 4096 ∧ (t.portX p).nakOwed = false ∧ (t.portX p).retry = (s.portX p).retry)
    ∧ (∀ n e, (s.portX p).nakOwed = false → (s.portX p).again = n + 1 →
      (s.portX p).retry[(s.portX p).retry.length - (n + 1)]? = some e → ∃ g t, s.nextFrame p = (some g, t) ∧ g.seq = e.1.seq
        ∧ g.cls = e.1.cls ∧ g.payload = e.1.payload ∧ g.ackSeq = ((s.portX p).rxExpect + 4095) % 4096 ∧ (t.portX p).again = n)
    ∧ (∀ e rest, (s.portX p).nakOwed = false → (s.portX p).again = 0 → (s.portX p).retry.length < 512 →
      takeFirst expressFrame (s.portX p).queue = some (e, rest) → ∃ g t, s.nextFrame p = (some g, t) ∧ g.cls = e.1.cls
        ∧ g.seq = (s.portX p).txSeq ∧ g.ackSeq = ((s.portX p).rxExpect + 4095) % 4096 ∧ (t.portX p).queue = rest
        ∧ (t.portX p).retry = (s.portX p).retry ++ [(g, e.2)] ∧ (t.portX p).txSeq = ((s.portX p).txSeq + 1) % 4096
        ∧ (e.1.cls = 5 → e.1.sub = 0 → g.payload = List.replicate 8 0 ++ bytesOf (s.get F.clkEtcountCount) 8))

/-- All that `LinkTraining`, `LinkProtocol` and `FramesTakeSlots` say. -/
def Obligations.LinkTrainingAndProtocol : Prop := LinkTraining ∧ LinkProtocol ∧ FramesTakeSlots

/-- Frames accepted in sequence (R249, R250, R261, R282 to R287, R289): 64 bytes `raw` that hold `f`; `t`: the state after the
acceptance. A FLAG entry sets its global flag; a RAISE schedules an entry; a MAIL goes to the inbox that has room; an ETCHECK stores
the difference; a change acts on a follower in lockstep at the boundary it names, or waits for it; the second half of a check message
whose boundary has come brings a joining follower into lockstep; a frame for another chip goes to the port that leads there. -/
def Obligations.FramesAct : Prop :=
  ∀ (p : Nat) (raw : List Nat) (f : Frame) (s t : State), s.rxFrame p raw = (some f, t) →
    (∀ i < 64, f.cls = 1 → flagEntries f = [flagEntry 0 i] → Alone t (.gf i) →
      Completes (.flagMsg p raw) s fun u => testBit (u.get F.oluGflagsGf) i = true)
    ∧ (∀ r : RaiseOp, f.cls = 2 → r = t.raiseOf f → r.mask ≠ 0 → f.src ≠ t.get F.oluChipId → field f.payload 0 1 ≠ 1 →
      Alone t (.raise r.entry) → t.station < instant r.sec r.ns r.frac → t.bit F.timeRaiseNsScheduled 0 r.entry = false →
      Completes (.raiseMsg p raw) s fun u => u.get F.timeRaiseNsScheduled 0 r.entry = 1
        ∧ u.get F.timeRaiseSecTag 0 r.entry = r.tag % 2 ^ 16 ∧ u.get F.timeRaiseNsSeqmask 0 r.entry = r.mask % 16)
    ∧ (f.cls = 3 → f.dst = t.get F.oluChipId → t.inboxRoom = true → t.disp.heldMail = [] →
      Completes (.mailMsg p raw) s fun u => u.get F.coreMailIdxProd = (t.get F.coreMailIdxProd + 1) % t.get F.coreMailboxEntries % 2 ^ F.coreMailIdxProd.width)
    ∧ (f.cls = 3 → f.dst = t.get F.oluChipId → t.inboxRoom = false →
      Completes (.mailMsg p raw) s fun u => u.disp.heldMail = t.disp.heldMail ++ [mailOf p f])
    ∧ (f.cls = 5 → f.sub = 0 → t.bit F.clkStatusTickAligned = true →
      Completes (.etcheck p raw true) s fun u => u.get F.olupTickchkValid p = 1
        ∧ u.get F.olupTickchkEtDiff p = min 255 ((t.get F.clkEtcountCount : Int) - (field f.payload 8 8 : Nat)).toNat)
    ∧ (f.cls = 5 → f.sub = 1 → t.isFollower = true → t.time.joining = false → t.bit F.timeStatusLockstepOk = true →
      (t.get F.clkEtcountCount < field f.payload 8 8 →
        Completes (.changeMsg p raw) s fun u => u.time.pendingChanges = t.time.pendingChanges ++ [(field f.payload 8 8, changeOf f)])
      ∧ (∀ d a, field f.payload 8 8 = t.get F.clkEtcountCount → changeOf f = .addend d a →
        Completes (.changeMsg p raw) s fun u => u.get F.domAddendAddend d = a % 2 ^ 32))
    ∧ (∀ x : Nat × Int × Int, f.cls = 5 → f.sub = 3 → t.isFollower = true → t.time.joining = true → t.bit F.clkStatusTickAligned = true →
      t.time.checkA = some x → x.1 = field f.payload 8 8 → x.1 ≤ t.get F.clkEtcountCount → t.time.pendingChanges = [] →
      Completes (.checkMsg p raw) s fun u => u.get F.timeStatusLockstepOk = 1 ∧ u.time.joining = false
        ∧ u.get F.domAddendAddend 0 = field f.payload 16 4 % 2 ^ 32 ∧ u.get F.domAddendAddend 1 = field f.payload 20 4 % 2 ^ 32)
    ∧ (∀ q, f.cls = 3 ∨ f.cls = 4 → f.dst ≠ t.get F.oluChipId → t.route f.dst = some q → 1 < f.ttl →
      Completes (.forwarding p raw) s fun u => (u.portX q).queue = (t.portX q).queue ++ [({ f with ttl := f.ttl - 1 }, none)])

/-- Global flags of this device (R284): a set and a clear act on their flag and no other, a reset clears all; each is carried in
the FLAG frames of its tick. -/
def GlobalFlags : Prop :=
  (∀ (i : Nat) (src : Src) (s : State), i < 64 → Alone s (.gf i) →
      Completes (.gfSet i src) s fun t => (∀ n < 64, testBit (t.get F.oluGflagsGf) n = (if n = i then true else testBit (s.get F.oluGflagsGf) n))
        ∧ flagEntry 0 i ∈ t.olu.flagOut)
  ∧ (∀ (i : Nat) (src : Src) (s : State), i < 64 → Alone s (.gf i) →
      Completes (.gfClear i src) s fun t => (∀ n < 64, testBit (t.get F.oluGflagsGf) n = (if n = i then false else testBit (s.get F.oluGflagsGf) n))
        ∧ flagEntry 1 i ∈ t.olu.flagOut)
  ∧ (∀ (src : Src) (s : State), Completes (.gfReset src) s fun t => t.get F.oluGflagsGf = 0 ∧ flagEntry 2 0 ∈ t.olu.flagOut)

/-- BULK transfers (R288): GO with a route and the controller READY makes the channel BUSY with its length in whole 16-byte units; an
accepted START opens a transfer into the window; the last DATA frame's bytes are in local DRAM, and no other byte has changed; DONE
ends the originator's transfer with the status it carries. -/
def BulkTransfers : Prop :=
  (∀ (i len n p : Nat) (s : State), s.bit F.oluBulkCtrlBusy 0 i = false → s.dramReady = true →
      n = min 16777216 (max 16 len) / 16 * 16 → s.route (s.get F.oluBulkDstChip 0 i) = some p →
      Completes (.bulkGo i len) s fun t => t.get F.oluBulkCtrlBusy 0 i = 1 ∧ t.get F.oluBulkCtrlLength 0 i = n
        ∧ ∃ b ∈ t.olu.bulkTx, b.chan = i ∧ b.port = p ∧ b.len = n ∧ b.src = s.get F.oluBulkSrcAddress 0 i ∧ b.next = some 0)
  ∧ (∀ (p : Nat) (raw : List Nat) (f : Frame) (s t : State), s.rxFrame p raw = (some f, t) → f.cls = 4 → f.sub = 0 →
      f.dst = t.get F.oluChipId → t.dramReady = true → t.inBulkWin (field f.payload 4 5) (field f.payload 12 4) = true →
      Completes (.bulkStart p raw) s fun u => (⟨f.src, field f.payload 0 1 % 4, p, field f.payload 4 5, field f.payload 12 4, 0⟩ : BulkRx) ∈ u.olu.bulkRx)
  ∧ (∀ (p a n : Nat) (raw : List Nat) (f : Frame) (b : BulkRx) (s t : State), s.rxFrame p raw = (some f, t) → f.cls = 4 → f.sub = 1 →
      f.dst = t.get F.oluChipId →
      t.olu.bulkRx.find? (fun b => decide (b.chip = f.src) && decide (b.tag = field f.payload 0 1 % 4)
        && decide (b.next = field f.payload 1 3)) = some b →
      a = b.base + 48 * b.next → n = ((f.payload.drop 4).take (min 48 (b.len - 48 * b.next))).length → t.inDram a n = true →
      Completes (.bulkData p raw) s fun u => (∀ i < n, u.memByte (a + i) = BitVec.ofNat 8 ((f.payload.drop 4).getD i 0))
        ∧ (∀ x, x < a ∨ a + n ≤ x → u.memByte x = s.memByte x))
  ∧ (∀ (p i st : Nat) (raw : List Nat) (f : Frame) (s t : State), s.rxFrame p raw = (some f, t) → f.cls = 4 → f.sub = 2 →
      f.dst = t.get F.oluChipId → i = field f.payload 0 1 % 4 → st = field f.payload 1 1 % 8 → st ≠ 3 →
      t.bit F.oluBulkCtrlBusy 0 i = true → Unclear t F.oluBulkCtrlDone 0 i →
      Completes (.bulkDone p raw) s fun u => u.get F.oluBulkCtrlBusy 0 i = 0 ∧ u.get F.oluBulkCtrlStatus 0 i = st
        ∧ u.get F.oluBulkCtrlDone 0 i = 1)

/-- All that `GlobalFlags` and `BulkTransfers` say. -/
def Obligations.FlagsAndBulk : Prop := GlobalFlags ∧ BulkTransfers


/-! ### The host interface (10_host_interface_and_rings.md) -/

/-- Doorbells (R298, R302, R303), the first of the tick for their ring: on an ENABLED ring, a host-produced one takes the index into
PROD where the descriptors announced still fit, and a device-produced one into CONS where the entries exist; one that does not fit sets
DB_OVERRUN; one beyond the ring sets DB_CLAMPED; a ring that is not ENABLED ignores it. -/
def Obligations.Doorbells : Prop :=
  ∀ (q i n p c : Nat) (v : BitVec 32) (s : State), Alone s (.ring q) → i = v.toNat % 65536 → n = s.ringSize q →
    p = s.get F.ringIndexProd q → c = s.get F.ringIndexCons q → s.startProd q = p → s.startCons q = c →
    (s.get F.ringStatusState q ≠ 1 → Completes (.doorbell q v) s fun t => t = s)
    ∧ (s.get F.ringStatusState q = 1 → i < n → hostProduced (s.get F.ringCfgType q) = true →
        (p + n - c) % n + (i + n - p) % n ≤ n - 1 →
        Completes (.doorbell q v) s fun t => t.get F.ringIndexProd q = i ∧ t.get F.ringIndexCons q = c)
    ∧ (s.get F.ringStatusState q = 1 → i < n → hostProduced (s.get F.ringCfgType q) = false →
        (i + n - c) % n ≤ (p + n - c) % n →
        Completes (.doorbell q v) s fun t => t.get F.ringIndexCons q = i
          ∧ ((s.ringX q).lost = 0 → t.get F.ringIndexProd q = p))
    ∧ (s.get F.ringStatusState q = 1 → i < n → hostProduced (s.get F.ringCfgType q) = false →
        (p + n - c) % n < (i + n - c) % n → Unclear s F.ringStatusDbOverrun q 0 →
        Completes (.doorbell q v) s fun t => t.get F.ringStatusDbOverrun q = 1 ∧ t.get F.ringIndexCons q = c)
    ∧ (s.get F.ringStatusState q = 1 → i < n → hostProduced (s.get F.ringCfgType q) = true →
        n - 1 < (p + n - c) % n + (i + n - p) % n → Unclear s F.ringStatusDbOverrun q 0 →
        Completes (.doorbell q v) s fun t => t.get F.ringStatusDbOverrun q = 1 ∧ t.get F.ringIndexProd q = p)
    ∧ (s.get F.ringStatusState q = 1 → n ≤ i → Unclear s F.ringStatusDbClamped q 0 →
        Completes (.doorbell q v) s fun t => t.get F.ringStatusDbClamped q = 1)

/-- No ring is held at a barrier. -/
abbrev NoBarrier (s : State) : Prop := ∀ e ∈ s.host.rings, e.2.barrier = none

/-- Rings (R300, R301, R304 to R306): an enable starts a DISABLED ring with empty indices; a disable stops a device-produced ring
at once, and drains a host-produced one; a reset disables the ring and forgets the descriptors that have not begun, and what has begun
is forgotten with the end of the tick, up to which it may still be written; a descriptor read makes the next announced descriptor
available; a failed read drains, a record write that fails while the function is no bus master disables, and both set DMA_ERR; any
other failure of a transfer stops no ring. -/
def RingControl : Prop :=
  (∀ (q : Nat) (src : Src) (s : State), Alone s (.ring q) → s.get F.ringStatusState q = 0 → s.ras.doneDue = false →
      Completes (.ringEnable q src) s fun t => t.get F.ringStatusState q = 1 ∧ t.get F.ringIndexProd q = 0
        ∧ t.get F.ringIndexCons q = 0 ∧ (t.ringX q).fetched = [] ∧ (t.ringX q).running = [] ∧ (t.ringX q).readIdx = 0)
  ∧ (∀ (q : Nat) (src : Src) (s : State), Alone s (.ring q) → s.get F.ringStatusState q = 1 →
      hostProduced (s.get F.ringCfgType q) = false →
      Completes (.ringDisable q src) s fun t => t.get F.ringStatusState q = 0)
  ∧ (∀ (q : Nat) (src : Src) (s : State), Alone s (.ring q) → s.get F.ringStatusState q = 1 →
      hostProduced (s.get F.ringCfgType q) = true → NoBarrier s →
      Completes (.ringDisable q src) s fun t => (t.ringX q).fetched = [] ∧ (t.ringX q).running = (s.ringX q).running
        ∧ t.get F.ringStatusState q = (if (s.ringX q).running = [] ∧ (s.ringX q).recWait = none then 0 else 2))
  ∧ (∀ (q : Nat) (src : Src) (s : State), Alone s (.ring q) → NoBarrier s →
      Completes (.ringReset q src) s fun t => t.get F.ringStatusState q = 0 ∧ (t.ringX q).fetched = []
        ∧ (t.ringX q).ready = [] ∧ (t.ringX q).ending = true)
  ∧ (∀ (q : Nat) (s : State), (s.ringX q).ending = true →
      ((s.ringTick q).ringX q).running = [] ∧ ((s.ringTick q).ringX q).recWait = none
        ∧ ((s.ringTick q).ringX q).gen = (s.ringX q).gen + 1)
  ∧ (∀ (q : Nat) (w0 w1 w2 w3 : Word) (s : State), s.get F.ringStatusState q = 1 → hostProduced (s.get F.ringCfgType q) = true →
      (s.ringX q).readIdx ≠ s.get F.ringIndexProd q →
      Completes (.descriptorRead q w0 w1 w2 w3) s fun t =>
        (t.ringX q).fetched = (s.ringX q).fetched ++ [⟨(s.ringX q).readIdx, w0, w1, w2, w3⟩]
        ∧ (t.ringX q).readIdx = ((s.ringX q).readIdx + 1) % s.ringSize q)
  ∧ (∀ (q kind : Nat) (cause : PcieErr) (s : State), s.get F.ringStatusState q = 1 → Unclear s F.ringStatusDmaErr q 0 →
      (kind = 1 → Completes (.dmaError q ⟨kind, cause⟩) s fun t => t.get F.ringStatusDmaErr q = 1 ∧ t.get F.ringStatusState q ≠ 1
        ∧ (t.ringX q).fetched = [])
      ∧ (kind = 2 → s.busMaster = false → Completes (.dmaError q ⟨kind, cause⟩) s fun t => t.get F.ringStatusDmaErr q = 1
        ∧ t.get F.ringStatusState q = 0 ∧ (t.ringX q).fetched = [] ∧ (t.ringX q).running = [])
      ∧ (kind ≠ 1 → kind ≠ 2 ∨ s.busMaster = true → Completes (.dmaError q ⟨kind, cause⟩) s fun t => t = s.pcieError cause))

/-- What rings send (R308, R309, R314): a ring whose interrupt is due signals what it has written; with the end of the tick it writes
its index back where that waits, and then sends the message of its vector, or makes the masked vector pending; a waiting completion
record that no earlier one precedes goes to the paired COMPLETION ring that has room. HIF.LINK shows what the link trained to (R295). -/
def RingOutputs : Prop :=
  (∀ (q : Nat) (s : State), s.interruptDue q = true →
      Completes (.ringInterrupt q) s fun t => (t.ringX q).unsignalled = 0 ∧ (t.ringX q).irqAsked = false
        ∧ (t.ringX q).irqNow = true)
  ∧ (∀ (q v a d m : Nat) (s : State), v = s.get F.ringCfgVector q → unitAt (0, 0, 1) s.host.msixTable v = (a, d, m) →
      s.busMaster = true →
      ((s.ringX q).wrote = true → s.bit F.ringIdxwbEn q = true →
          Output.hostWrite (s.get F.ringIdxwbAddress q * 8) [s.rd ⟨.ringIndex, q, 0⟩] ∈ (s.ringTick q).out)
      ∧ ((s.ringX q).irqNow = true → testBit s.host.pcie.msixCtl 1 = true → testBit s.host.pcie.msixCtl 0 = false →
          (m % 2 = 0 → Output.msix v a d ∈ (s.ringTick q).out) ∧ (m % 2 = 1 → v ∈ (s.ringTick q).host.msixPending))
      ∧ ((s.ringTick q).ringX q).wrote = false ∧ ((s.ringTick q).ringX q).irqNow = false)
  ∧ (∀ (q p : Nat) (c : CompRec) (s : State), (s.ringX q).recWait = some c → p = s.get F.ringCfgPair q → p ≠ q →
      s.get F.ringCfgType p = 1 → s.get F.ringStatusState p = 1 → s.ringRoom p = true → s.busMaster = true →
      s.completedBefore q = [] →
      Completes (.completionRecord q) s fun t => (t.ringX q).recWait = none
        ∧ t.out = s.out ++ [.hostWrite (s.ringAddr p (s.get F.ringIndexProd p)) (c.words q)]
        ∧ t.get F.ringIndexProd p = (s.get F.ringIndexProd p + 1) % s.ringSize p % 2 ^ F.ringIndexProd.width)
  ∧ (∀ (speed width : Nat) (up : Bool) (s : State), Completes (.pcieLink speed width up) s fun t =>
      t.get F.hifLinkSpeed = speed % 2 ^ F.hifLinkSpeed.width ∧ t.get F.hifLinkWidth = width % 2 ^ F.hifLinkWidth.width
        ∧ t.bit F.hifLinkDlUp = up)

/-- All that `RingControl` and `RingOutputs` say. -/
def Obligations.RingsRun : Prop := RingControl ∧ RingOutputs

/-- The descriptor `d` of RING[q] is written back with status `st` and words `w1`, `w2`, `w3`, DONE set, and the ring is past
it (R310, R311): what follows where the function is a bus master (R306). -/
def WrittenBack (s r : State) (q : Nat) (d : Desc) (st : Nat) (w1 w2 w3 : Word) : Prop :=
  Output.hostWrite (s.ringAddr q d.idx) [withBits (withBits d.w0 16 8 st) 24 1 1, w1, w2, w3] ∈ r.out
  ∧ (r.ringX q).running = []
  ∧ r.get F.ringIndexCons q = (d.idx + 1) % s.ringSize q % 2 ^ F.ringIndexCons.width

/-- A descriptor of a COMMAND ring whose opcode is 0x0D to 0xFF completes where it begins, in the same tick, with status
UNSUPPORTED, and words 1 to 3 of its write-back are those it was fetched with (R315). -/
def Obligations.UnknownOpcodes : Prop :=
  ∀ (q op : Nat) (d : Desc) (tok : Token) (s t : State), s.beginCommand q op = some (d, tok, t) → 0x0D ≤ op → s.busMaster = true →
    Completes (.unsupportedOpcode q) s fun r => WrittenBack s r q d 1 d.w1 d.w2 d.w3

/-- Commands that end where they begin (R316, R317, R320): NOP completes OK; a load of an unknown table UNSUPPORTED; a barrier whose rings owe no write-back completes OK, another waits for what each of them owes. A TABLE_LOAD of a
known table asks for its items. -/
def PlainCommands : Prop :=
  ∀ (q op : Nat) (d : Desc) (tok : Token) (s t : State), s.beginCommand q op = some (d, tok, t) → s.busMaster = true →
    (op = 0x00 → Completes (.cmdNop q) s fun r => WrittenBack s r q d 0 d.w1 d.w2 d.w3)
    ∧ (op = 0x01 → (tableShape (bitsOf d.w2 0 8)).1 = 0 →
        Completes (.cmdTableLoad q) s fun r => WrittenBack s r q d 1 (hostAddr d.w1) d.w2 d.w3)
    ∧ (∀ tbl unit first n, op = 0x01 → tableFields d.w2 = (tbl, unit, first, n) → (tableShape tbl).1 ≠ 0 →
        Completes (.cmdTableLoad q) s fun r => (r.ringX q).running = [⟨d, none⟩]
          ∧ r.out = s.out ++ [.hostRead (hostAddr d.w1).toNat (n * (tableShape tbl).2 * 8)])
    ∧ (op = 0x0B → NoBarrier s →
        Completes (.cmdBarrier q) s fun r =>
          ((∀ k < 64, testBit d.w1.toNat k = true → t.barrierCount q k = 0) → WrittenBack s r q d 0 d.w1 d.w2 d.w3)
          ∧ (∀ k < 64, testBit d.w1.toNat k = true → t.barrierCount q k ≠ 0 → (r.ringX q).running = [⟨d, none⟩]
              ∧ ∃ l, (r.ringX q).barrier = some l ∧ (k, t.barrierCount q k) ∈ l))

/-- The data of a TABLE_LOAD (R317): all of them complete it OK, and the items of the mask table hold them; a failed read
completes it with HOST_READ_ERROR. -/
def TableLoadData : Prop :=
  ∀ (q tbl unit first n : Nat) (words : List Word) (ok : Bool) (d : Desc) (tok : Token) (s : State),
    s.runningCommand q 0x01 = some (d, tok) → (s.ringX q).running = [⟨d, none⟩] → NoBarrier s → s.busMaster = true →
    tableFields d.w2 = (tbl, unit, first, n) → (tableShape tbl).1 ≠ 0 →
    (ok = true → words.length = n * (tableShape tbl).2 →
      Completes (.tableLoadData q words ok) s fun r => WrittenBack s r q d 0 (hostAddr d.w1) (tableWord d.w2) d.w3
        ∧ (tbl = 4 → ∀ i < n, r.rd ⟨.seqMask, unit, first + i⟩ = words.getD i 0))
    ∧ (ok = false → Completes (.tableLoadData q words ok) s fun r =>
        WrittenBack s r q d 0x14 (hostAddr d.w1) (tableWord d.w2) d.w3)

/-- All that `PlainCommands` and `TableLoadData` say. -/
def Obligations.PlainAndTableCommands : Prop := PlainCommands ∧ TableLoadData

/-- COMMIT_AT_PEG and ABORT (R115, R117, R123, R316): a commit of a sequencer that does not run is applied and completes OK; of
one that runs it waits with its descriptor. An abort of no sequencer completes OK, of a STOPPED one too; of one that runs, it waits
for the peg point. -/
def SequencerCommands : Prop :=
  ∀ (q k : Nat) (d : Desc) (tok : Token) (s t : State), NoBarrier s → s.busMaster = true →
    (s.beginCommand q 0x02 = some (d, tok, t) → k = bitsOf d.w1 0 2 → Alone s (.store k) →
      (CommitsAtOnce s k → (s.seqX k).ending = none → (s.seqX k).commits = [] → (s.seqX k).pegs = [] →
        Completes (.cmdCommitAtPeg q) s fun r => WrittenBack s r q d 0 d.w1 d.w2 d.w3
          ∧ r.get F.seqTsDirtyDirty k = 0 ∧ r.get F.seqTsCtrlPending k = 0)
      ∧ (¬CommitsAtOnce s k →
        Completes (.cmdCommitAtPeg q) s fun r => r.get F.seqTsCtrlPending k = 1
          ∧ (r.seqX k).commits = (s.seqX k).commits ++ [(s.ticks, some tok)]))
    ∧ (s.beginCommand q 0x06 = some (d, tok, t) →
      (bitsOf d.w1 0 4 = 0 → Completes (.cmdAbort q) s fun r => WrittenBack s r q d 0 d.w1 0 d.w3)
      ∧ (k < 4 → bitsOf d.w1 0 4 = 2 ^ k → Alone s (.seq k) → (s.seqX k).ending = none → (∀ p ∈ s.host.parts, p.1 ≠ tok) →
        (s.seqState k = 0 → Completes (.cmdAbort q) s fun r => WrittenBack s r q d 0 d.w1 0 d.w3)
        ∧ (s.seqState k = 1 → Completes (.cmdAbort q) s fun r => r.seqState k = 1
            ∧ (r.seqX k).pend = (s.seqX k).pend ++ [⟨4, s.ticks, some tok⟩]
            ∧ r.host.parts = s.host.parts ++ [(tok, [(k, none)])])))

/-- PAGE_MAP and the pushes of pages (R190, R205): a map completes with the entry as it then reads, OK or PAGE_BUSY, and WIN_CMD shows what it did; a push of a
page that is neither LOADING nor resident maps it, asks for its load, and waits; a push of a LOADING page completes PAGE_BUSY. -/
def PageCommands : Prop :=
  ∀ (q g : Nat) (d : Desc) (tok : Token) (s t : State), NoBarrier s → s.busMaster = true → g = bitsOf d.w1 0 15 → (s.ringX q).running = [] →
    (s.beginCommand q 0x03 = some (d, tok, t) → (∀ p ∈ s.page.pushes, p.2.1.ring ≠ q) →
      Completes (.cmdPageMap q) s fun r => WrittenBack s r q d
        (if (t.writeEntry g d.w2.toNat d.w3.toNat).1 = .refused then 8 else 0) d.w1
        (BitVec.ofNat 64 (r.entryWords g).1) (BitVec.ofNat 64 (r.entryWords g).2)
        ∧ ((t.writeEntry g d.w2.toNat d.w3.toNat).1 = .flagsOnly → r.get F.pgtWinCmdFlagsOnly = 1)
        ∧ ((t.writeEntry g d.w2.toNat d.w3.toNat).1 = .full → r.get F.pgtWinCmdFlagsOnly = 0)
        ∧ ((t.writeEntry g d.w2.toNat d.w3.toNat).1 = .refused → Unclear s F.pgtWinCmdRefused 0 0 →
            r.get F.pgtWinCmdRefused = 1))
    ∧ (∀ c, (c = Instr.cmdStreamPage q ∧ s.beginCommand q 0x04 = some (d, tok, t))
        ∨ (c = Instr.streamDescriptor q ∧ s.begin q 6 = some (d, tok, t)) →
      (s.bit F.pgtStatusRebuildBusy = false → (s.entry g).state ≠ 2 → (s.entry g).resident = false →
        Completes c s fun r => (r.entry g).state = 1 ∧ (r.entry g).host = d.w3.toNat / 2 ^ 12 % 2 ^ 52
          ∧ (r.entry g).crc = d.w2.toNat / 2 ^ 32 % 2 ^ 32 ∧ (g, tok, false) ∈ r.page.pushes ∧ ∃ x ∈ r.page.reqs, x.page = g)
      ∧ ((s.entry g).state = 2 → Completes c s fun r => r.page = s.page ∧ WrittenBack s r q d 8 d.w1
          (BitVec.ofNat 64 (s.entryWords g).1) (BitVec.ofNat 64 (s.entryWords g).2)))

/-- All that `SequencerCommands` and `PageCommands` say. -/
def Obligations.SequencerAndPageCommands : Prop := SequencerCommands ∧ PageCommands

/-- RAISE (R260, R261): a raising of a later instant on a FREE entry is SCHEDULED with its tag, mask and origin, and completes OK;
one whose instant is past completes TIME_PAST; a cancel with the tag of a SCHEDULED entry makes it FREE; any other cancel completes
NO_RAISE. -/
def RaiseCommand : Prop :=
  ∀ (q : Nat) (d : Desc) (tok : Token) (x : RaiseOp) (s t : State), s.beginCommand q 0x05 = some (d, tok, t) →
    x = s.raiseCommand d → Alone s (.raise x.entry) → s.busMaster = true →
    (bitsOf d.w2 54 1 = 0 → s.station < instant x.sec x.ns x.frac → s.bit F.timeRaiseNsScheduled 0 x.entry = false →
      Completes (.cmdRaise q) s fun r => WrittenBack s r q d 0 d.w1 (raiseWord d.w2) d.w3
        ∧ r.get F.timeRaiseNsScheduled 0 x.entry = 1 ∧ r.get F.timeRaiseSecTag 0 x.entry = x.tag
        ∧ r.get F.timeRaiseSecSeconds 0 x.entry = x.sec ∧ r.get F.timeRaiseNsNanoseconds 0 x.entry = x.ns
        ∧ r.get F.timeRaiseNsSeqmask 0 x.entry = x.mask ∧ r.get F.timeRaiseNsOrigin 0 x.entry = s.get F.oluChipId)
    ∧ (bitsOf d.w2 54 1 = 0 → instant x.sec x.ns x.frac ≤ s.station →
      Completes (.cmdRaise q) s fun r => WrittenBack s r q d 0x0A d.w1 (raiseWord d.w2) d.w3)
    ∧ (bitsOf d.w2 54 1 = 1 → s.bit F.timeRaiseNsScheduled 0 x.entry = true → s.get F.timeRaiseSecTag 0 x.entry = x.tag →
      Completes (.cmdRaise q) s fun r => WrittenBack s r q d 0 d.w1 (raiseWord d.w2) d.w3
        ∧ r.get F.timeRaiseNsScheduled 0 x.entry = 0)
    ∧ (bitsOf d.w2 54 1 = 1 → s.bit F.timeRaiseNsScheduled 0 x.entry = false →
      Completes (.cmdRaise q) s fun r => WrittenBack s r q d 0x0C d.w1 (raiseWord d.w2) d.w3)

/-- SITE_SET commits the staged site maps and completes with its result (R220); COUNTERS_READ writes 17 words for a bay, the
counts at the start of the tick, and clears them where it says so (R163, R318). -/
def SiteAndCounterCommands : Prop :=
  ∀ (q : Nat) (d : Desc) (tok : Token) (s t : State), s.busMaster = true →
    (s.beginCommand q 0x07 = some (d, tok, t) →
      Completes (.cmdSiteSet q) s fun r => r.site = t.siteCommit.2.site ∧ WrittenBack s r q d (siteStatus t.siteCommit.1) d.w1
        (BitVec.ofNat 64 (r.get F.siteStatusRefused + r.get F.siteEpochEpoch * 2 ^ 32)) d.w3)
    ∧ (∀ b < 8, s.beginCommand q 0x09 = some (d, tok, t) → bitsOf d.w1 0 8 = 2 ^ b → s.inReset (.bay b) = false →
      Completes (.cmdCountersRead q) s fun r => WrittenBack s r q d 0 d.w1 (hostAddr d.w2) d.w3
        ∧ (∃ ws, Output.hostWrite (hostAddr d.w2).toNat ws ∈ r.out ∧ ws.length = 17
            ∧ ∀ i < 16, ws.getD (i + 1) 0 = s.atStart ⟨.bayFailCount, b, i⟩)
        ∧ (bitsOf d.w1 8 1 = 1 → (∀ i < 16, ClearActs s (F.bayFailCountCount.key b i) F.bayFailCountCount.lo) →
            ∀ i < 16, r.get F.bayFailCountCount b i = 0)
        ∧ (bitsOf d.w1 8 1 = 0 → ∀ i < 16, r.get F.bayFailCountCount b i = s.get F.bayFailCountCount b i))

/-- All that `RaiseCommand` and `SiteAndCounterCommands` say. -/
def Obligations.RaiseSiteAndCounterCommands : Prop := RaiseCommand ∧ SiteAndCounterCommands

/-- FUSE_LOCK (R319): with the fuse blown, both steps complete FUSE_LOCKED; an arm with the right code opens the confirm window; a
confirm with the right code, after the arm's tick and within 150,000 ticks of it, blows the fuse; any other completes
FUSE_REFUSED. The blown fuse sets DEBUG_LOCKED. -/
def FuseCommands : Prop :=
  (∀ (q : Nat) (d : Desc) (tok : Token) (s t : State), s.beginCommand q 0x0A = some (d, tok, t) → s.busMaster = true →
    (bitsOf d.w1 0 1 = 0 →
      (s.bit F.rasStatusDebugLocked = true → Completes (.fuseArm q) s fun r => WrittenBack s r q d 0x13 d.w1 d.w2 d.w3)
      ∧ (s.bit F.rasStatusDebugLocked = false → bitsOf d.w1 16 16 = 0x4C4B → Completes (.fuseArm q) s fun r =>
          WrittenBack s r q d 0 d.w1 d.w2 d.w3 ∧ r.host.fuseArm = some s.ticks)
      ∧ (s.bit F.rasStatusDebugLocked = false → bitsOf d.w1 16 16 ≠ 0x4C4B → Completes (.fuseArm q) s fun r =>
          WrittenBack s r q d 0x12 d.w1 d.w2 d.w3 ∧ r.host.fuseArm = s.host.fuseArm))
    ∧ (bitsOf d.w1 0 1 = 1 →
      (s.bit F.rasStatusDebugLocked = true → Completes (.fuseConfirm q) s fun r => WrittenBack s r q d 0x13 d.w1 d.w2 d.w3)
      ∧ (∀ k, s.bit F.rasStatusDebugLocked = false → bitsOf d.w1 16 16 = 0x4C4B → s.host.fuseArm = some k → k < s.ticks →
          s.ticks ≤ k + 150000 → Completes (.fuseConfirm q) s fun r => r.host.fuseBlow = s.host.fuseBlow ++ [tok])
      ∧ (s.bit F.rasStatusDebugLocked = false →
          (∀ k, s.host.fuseArm = some k → s.ticks ≤ k ∨ k + 150000 < s.ticks) ∨ bitsOf d.w1 16 16 ≠ 0x4C4B →
          Completes (.fuseConfirm q) s fun r => WrittenBack s r q d 0x12 d.w1 d.w2 d.w3 ∧ r.host.fuseBlow = s.host.fuseBlow)))
  ∧ (∀ s : State, s.host.fuseBlow ≠ [] →
      Completes .fuseLocked s fun r => r.host.fuseBlow = [] ∧ r.get F.rasStatusDebugLocked = 1)

/-- Mail of the host and frames of the time port (R322, R355): mail for this chip, where the inbox has room, advances the inbox's
PROD and completes OK with its LENGTH at most 16; mail for a chip without a route completes NO_ROUTE; a TIMETX descriptor of the
ring that TX_RING names reads its frame and sends it, padded and with its FCS; a TIMERX descriptor supplies a buffer. -/
def MailAndTimeDescriptors : Prop :=
  (∀ (q : Nat) (c : Instr) (d : Desc) (tok : Token) (s t : State), (s.ringX q).running = [] → s.busMaster = true →
      (c = .cmdMail q ∧ s.beginCommand q 0x0C = some (d, tok, t)) ∨ (c = .mailDescriptor q ∧ s.begin q 9 = some (d, tok, t)) →
      (bitsOf d.w1 22 1 = 0 → s.inboxRoom = true → s.disp.heldMail = [] →
        Completes c s fun r => WrittenBack s r q d 0 (withBits d.w1 24 5 (min 16 (bitsOf d.w1 24 5))) d.w2 d.w3
          ∧ r.get F.coreMailIdxProd
            = (s.get F.coreMailIdxProd + 1) % s.get F.coreMailboxEntries % 2 ^ F.coreMailIdxProd.width)
      ∧ (bitsOf d.w1 22 1 = 1 → s.route (bitsOf d.w1 16 6) = none →
        Completes c s fun r => WrittenBack s r q d 0x0D (withBits d.w1 24 5 (min 16 (bitsOf d.w1 24 5))) d.w2 d.w3))
  ∧ (∀ (q len : Nat) (data : List Nat) (d : Desc) (tok : Token) (s t : State), s.bit F.timePortCfgEnable = true →
      s.get F.timePortCfgTxRing = q → s.begin q 7 = some (d, tok, t) → len = max 14 (min 1518 (bitsOf d.w2 0 11)) →
      Completes (.timetxDescriptor ⟨q, data⟩) s fun r =>
        r.out = s.out ++ [.hostRead d.w1.toNat len, .timeFrame (s.wireFrame ((data.take len).map fun n => n % 256))]
        ∧ ∃ x, r.time.txQueue = s.time.txQueue ++ [x] ∧ x.tok = tok)
  ∧ (∀ (q : Nat) (d : Desc) (rest : List Desc) (s : State), (s.ringX q).fetched = d :: rest → s.get F.ringStatusState q = 1 →
      s.get F.ringCfgType q = 8 →
      Completes (.timerxDescriptor q) s fun r => (r.ringX q).ready = (s.ringX q).ready ++ [d] ∧ (r.ringX q).fetched = rest)

/-- All that `FuseCommands` and `MailAndTimeDescriptors` say. -/
def Obligations.FuseMailAndTimeCommands : Prop := FuseCommands ∧ MailAndTimeDescriptors

/-! ### Control cores and the dispatcher (11_control_cores_and_dispatcher.md) -/

/-- An operation of source `src` is sampled in the present tick (R347): where it is a core's, no operation of that core has been in this
tick, and none waits in its queue. Another source's operation acts at once. -/
abbrev Reaches (s : State) (src : Src) : Prop :=
  ∀ c, src = .core c → (s.coreX c).sampled = false ∧ (s.coreX c).queue = []

/-- An own-thread operation of core `c` is sampled in the present tick (R347) and is the only one that acts behind its class events
(R349). -/
abbrev Samples (s : State) (c : Nat) : Prop := c < 4 ∧ Reaches s (.core c) ∧ ∀ k, (s.coreX k).now = none

/-- Threads (R337, R338, R342, R343, R346, R347, R349, R350): MAKEREADY puts an IDLE thread at the tail of its level, and a WAITING one
with FORCED; CANCEL and slot reset make a thread IDLE and out of every list; SETFLAGS sets flags and readies a thread that waits
for one of them; CLRFLAGS clears flags; SETWAIT, with the own-thread operations of its tick, writes the caller's mask, and TAKEFLAGS
returns the caller's masked flags and clears them; an operation of a core that has had one sampled in this tick waits in its queue; a
timeout readies its thread with TIMEDOUT; a new PRIO moves a READY thread to the tail of its level. -/
def Threads : Prop :=
  (∀ (j : Nat) (src : Src) (s : State), Reaches s src → Alone s (.thread j) →
      s.get F.dispThrStateState 0 j = 0 ∨ s.get F.dispThrStateState 0 j = 3 →
      Completes (.makeready j src) s fun t => t.get F.dispThrStateState 0 j = 1
        ∧ t.readyList (s.get F.dispThrCfgPrio 0 j) = ((s.readyList (s.get F.dispThrCfgPrio 0 j)).filter fun k => k != j) ++ [j]
        ∧ (s.get F.dispThrStateState 0 j = 3 → t.get F.dispThrStateForced 0 j = 1))
  ∧ (∀ (j : Nat) (src : Src) (s : State), Reaches s src → Alone s (.thread j) → s.get F.dispThrStateState 0 j ≠ 0 →
      Completes (.cancel j src) s fun t => t.get F.dispThrStateState 0 j = 0 ∧ t.get F.dispThrCfgWaitmask 0 j = 0
        ∧ t.get F.dispThrStateFlags 0 j = s.get F.dispThrStateFlags 0 j ∧ ∀ l, j ∉ t.readyList l)
  ∧ (∀ (j : Nat) (src : Src) (s : State), Reaches s src → Alone s (.thread j) →
      Completes (.slotReset j src) s fun t => t.get F.dispThrStateState 0 j = 0 ∧ t.get F.dispThrCfgWaitmask 0 j = 0
        ∧ t.get F.dispThrStateFlags 0 j = 0 ∧ t.get F.dispThrStateTimedout 0 j = 0 ∧ t.get F.dispThrStateForced 0 j = 0
        ∧ t.get F.dispThrStateLost 0 j = 0 ∧ ∀ l, j ∉ t.readyList l)
  ∧ (∀ (j flags : Nat) (src : Src) (s : State), Reaches s src → Alone s (.thread j) → (∀ i < 32, Alone s (.threadFlag j i)) →
      Completes (.setflags j flags src) s fun t =>
        (∀ i < 32, testBit (t.get F.dispThrStateFlags 0 j) i = (testBit (s.get F.dispThrStateFlags 0 j) i || testBit flags i))
        ∧ (∀ i < 32, testBit flags i = true → testBit (s.get F.dispThrCfgWaitmask 0 j) i = true →
            s.bit F.dispThrCfgWaitAll 0 j = false → s.get F.dispThrStateState 0 j = 3 → t.get F.dispThrStateState 0 j = 1))
  ∧ (∀ (j flags : Nat) (src : Src) (s : State), Reaches s src → (∀ i < 32, Alone s (.threadFlag j i)) →
      Completes (.clrflags j flags src) s fun t => t.get F.dispThrStateState 0 j = s.get F.dispThrStateState 0 j
        ∧ ∀ i < 32, testBit (t.get F.dispThrStateFlags 0 j) i = (testBit (s.get F.dispThrStateFlags 0 j) i && !testBit flags i))
  ∧ (∀ (c j mask : Nat) (s : State), Samples s c → s.runningOn c = some j →
      Completes (.setwait c mask) s fun t => t.ownActs.get F.dispThrCfgWaitmask 0 j = mask % 2 ^ 32)
  ∧ (∀ (c j : Nat) (s : State), Samples s c → s.runningOn c = some j →
      Completes (.takeflags c) s fun t =>
        (t.ownActs.coreX c).result = Nat.land (s.get F.dispThrStateFlags 0 j) (s.get F.dispThrCfgWaitmask 0 j)
        ∧ t.ownActs.get F.dispThrStateFlags 0 j = s.get F.dispThrStateFlags 0 j - (t.ownActs.coreX c).result)
  ∧ (∀ (c mask : Nat) (s : State), (s.coreX c).sampled = true → (s.coreX c).queue.length < 16 →
      Completes (.setwait c mask) s fun t => (t.coreX c).queue = (s.coreX c).queue ++ [{ op := .setwait mask }]
        ∧ (t.coreX c).now = (s.coreX c).now ∧ t.regs = s.regs)
  ∧ (∀ (j : Nat) (s : State), Alone s (.thread j) → s.get F.dispThrStateState 0 j = 3 → unitAt 0 s.disp.deadline j ≠ 0 →
      unitAt 0 s.disp.deadline j ≤ s.ticks →
      Completes (.waitTimeout j) s fun t => t.get F.dispThrStateState 0 j = 1 ∧ t.get F.dispThrStateTimedout 0 j = 1)
  ∧ (∀ (j : Nat) (v : Word) (s : State),
      Completes (.thrCfgWrite j v) s fun t => t.get F.dispThrCfgPrio 0 j = bitsOf v 0 6
        ∧ t.get F.dispThrCfgAffinity 0 j = (if bitsOf v 8 4 = 0 then 15 else bitsOf v 8 4)
        ∧ t.get F.dispThrCfgTimeout 0 j = bitsOf v 12 20 ∧ t.get F.dispThrCfgWaitmask 0 j = bitsOf v 32 32
        ∧ (s.get F.dispThrStateState 0 j = 1 → s.get F.dispThrCfgPrio 0 j ≠ bitsOf v 0 6 →
            t.readyList (bitsOf v 0 6) = ((s.readyList (bitsOf v 0 6)).filter fun k => k != j) ++ [j]))

/-- What core `c` runs in `t` after a switch by its thread `j`, where `u` is the state with that thread returned (R339, R340, R346): the
target of the core, RUNNING there, which the result word names, with SAME where it is the same thread; with no target the core is idle
and its result word says so. -/
def Switched (u t : State) (c j : Nat) : Prop :=
  t.get F.dispCoreStatPending 0 c = 0
  ∧ (∀ k, u.targetOf [c] c = some k → t.get F.dispThrStateState 0 k = 2
      ∧ t.get F.dispThrStateCore 0 k = c ∧ (t.coreX c).thread = some k ∧ t.get F.dispCoreStatIdle 0 c = 0
      ∧ (t.coreX c).result = k + (if k = j then 2 ^ 30 else 0) ∧ ∀ l, k ∉ t.readyList l)
  ∧ (u.targetOf [c] c = none → (t.coreX c).thread = none ∧ t.get F.dispCoreStatIdle 0 c = 1 ∧ (t.coreX c).result = 2 ^ 31)

/-- Switches (R337, R339, R340, R346, R350), which act with the own-thread operations of their tick: YIELD returns the caller to the tail
of its level, SWITCH to its head, or to its tail at the end of its slice or off its affinity, and WAIT leaves it WAITING with its
deadline where nothing satisfies the wait, and at the head of its level where the wait is satisfied; then the core takes its target. A
due migration, or a target, makes a switch pending. -/
def Switches : Prop :=
  (∀ (c j : Nat) (s : State), Samples s c → s.runningOn c = some j →
      Completes (.yield c) s fun t => Switched (s.makeReady j false) t.ownActs c j)
  ∧ (∀ (c j : Nat) (s : State), Samples s c → s.runningOn c = some j →
      Completes (.switch c) s fun t => Switched (s.makeReady j (!(s.sliceEnded c || s.excluded c))) t.ownActs c j)
  ∧ (∀ (c j : Nat) (s : State), Samples s c → s.runningOn c = some j → s.satisfied j = true →
      Completes (.waitOp c) s fun t =>
        Switched (((s.set F.dispThrStateTimedout 0 j 0).set F.dispThrStateForced 0 j 0).makeReady j true) t.ownActs c j)
  ∧ (∀ (c j : Nat) (s : State), Samples s c → s.runningOn c = some j → s.satisfied j = false → (∀ l, j ∉ s.readyList l) →
      Completes (.waitOp c) s fun r => ∃ t, t = r.ownActs ∧ t.get F.dispThrStateState 0 j = 3
        ∧ t.get F.dispThrStateTimedout 0 j = 0 ∧ t.get F.dispThrStateForced 0 j = 0 ∧ t.get F.dispCoreStatPending 0 c = 0
        ∧ unitAt 0 t.disp.deadline j
          = (if s.get F.dispThrCfgTimeout 0 j = 0 then 0 else s.ticks + s.get F.dispThrCfgTimeout 0 j * 256))
  ∧ (∀ (c : Nat) (s : State), s.coreRuns c = true → s.bit F.dispCoreStatPending 0 c = false →
      (s.migrationDue c = true → Completes (.sliceEnd c) s fun t => t.get F.dispCoreStatPending 0 c = 1 ∧ (t.coreX c).reason = 3)
      ∧ (s.migrationDue c = false → (s.targetOf [] c).isSome = true →
          Completes (.sliceEnd c) s fun t => t.get F.dispCoreStatPending 0 c = 1))

/-- All that `Threads` and `Switches` say. -/
def Obligations.ThreadsAndSwitches : Prop := Threads ∧ Switches

/-- A TAKE, which acts with the own-thread operations of its tick, returns the oldest item of the flow that is not taken, VALID in bit
31, its slot in bits 30 to 22 and its handle in bits 21 to 0, and that item is taken; of a flow with no such item it returns zero, and
no item changes (R349, R352). -/
def Obligations.TakesReturnTheOldestItem : Prop :=
  ∀ (c f : Nat) (s : State), Samples s c →
    (∀ (i : Item) (old new : List Item), (s.flowX f).items = old ++ i :: new → (∀ k ∈ old, k.taken = true) → i.taken = false →
      (∀ k ∈ old ++ new, k.seq ≠ i.seq) →
      Completes (.take c f) s fun t => (t.ownActs.coreX c).result = 2 ^ 31 + i.seq % 512 * 2 ^ 22 + i.handle
        ∧ (t.ownActs.flowX f).items = old ++ { i with taken := true } :: new)
    ∧ ((∀ k ∈ (s.flowX f).items, k.taken = true) →
      Completes (.take c f) s fun t => (t.ownActs.coreX c).result = 0 ∧ t.ownActs.flowX f = s.flowX f)

/-- Flows (R348, R351 to R354): a submission to an enabled flow with room is its last item, one to a disabled flow or a full flow
from the host is refused and counted; the release of the head lets it leave in order, the release of
what is not taken is refused, both with the own-thread operations of their tick; a record for a ring with room is written there; enable, disable and reset. -/
def Flows : Prop :=
  (∀ (f handle : Nat) (src : Src) (s : State), Reaches s src → Alone s (.flow f) → s.bit F.dispFlowCfgEnable 0 f = true → (s.flowX f).items.length < 512 →
      Completes (.submit f handle src) s fun t => (t.flowX f).nextSeq = ((s.flowX f).nextSeq + 1) % 2 ^ 32
        ∧ ∃ i, (t.flowX f).items = (s.flowX f).items ++ [i] ∧ i.handle = handle % 2 ^ 22 ∧ i.seq = (s.flowX f).nextSeq
            ∧ i.taken = false)
  ∧ (∀ (f handle n : Nat) (s : State), Alone s (.flow f) →
      s.bit F.dispFlowCfgEnable 0 f = false ∨ 512 ≤ (s.flowX f).items.length → Unclear s F.dispFlowStatRefused 0 f →
      Completes (.submit f handle (.host n)) s fun t => t.flowX f = s.flowX f
        ∧ t.get F.dispFlowStatRefused 0 f = min 65535 (s.get F.dispFlowStatRefused 0 f + 1))
  ∧ (∀ (c f : Nat) (i : Item) (rest : List Item) (record : Nat) (discard : Bool) (s : State), Samples s c →
      (s.flowX f).items = i :: rest → i.taken = true → i.released = none → s.get F.dispFlowCfgDest 0 f = 0 →
      (∀ k ∈ rest, k.released = none ∧ k.seq % 512 ≠ i.seq % 512) →
      Completes (.release c f (i.seq % 512) record discard) s fun t => (t.ownActs.flowX f).items = rest
        ∧ t.ownActs.get F.dispFlowStatStalled 0 f = 0)
  ∧ (∀ (c f slot record : Nat) (discard : Bool) (s : State), Samples s c → Unclear s F.dispFlowStatRefused 0 f →
      (∀ i ∈ (s.flowX f).items, i.seq % 512 = slot → i.taken = false ∨ i.released ≠ none) →
      Completes (.release c f slot record discard) s fun t => t.ownActs.flowX f = s.flowX f
        ∧ t.ownActs.get F.dispFlowStatRefused 0 f = min 65535 (s.get F.dispFlowStatRefused 0 f + 1))
  ∧ (∀ (f q : Nat) (i : Item) (rest : List Item) (rec : List Word) (s : State), (s.flowX f).items = i :: rest →
      i.released = some (some rec) → (∀ k ∈ rest, k.released = none) → s.get F.dispFlowCfgDest 0 f = 1 →
      q = s.get F.dispFlowCfgRing 0 f → s.get F.ringCfgType q = 2 ∨ s.get F.ringCfgType q = 5 → s.get F.ringStatusState q = 1 →
      s.ringRoom q = true → s.busMaster = true →
      Completes (.flowOutput f) s fun t => (t.flowX f).items = rest
        ∧ t.out = s.out ++ [.hostWrite (s.ringAddr q (s.get F.ringIndexProd q)) rec])
  ∧ (∀ (f : Nat) (v : Word) (s : State), Completes (.flowEnable f v) s fun t => t.get F.dispFlowCfgEnable 0 f = 1
      ∧ t.get F.dispFlowCfgWorkerFirst 0 f = bitsOf v 31 10 ∧ t.get F.dispFlowCfgWorkerCount 0 f = min 64 (bitsOf v 41 7)
      ∧ t.get F.dispFlowCfgWakeFlag 0 f = bitsOf v 48 5
      ∧ (s.before F.dispFlowCfgEnable 0 f = 0 → s.clk.was.flow.contains f = false → t.get F.dispFlowCfgRing 0 f = bitsOf v 4 6
          ∧ t.get F.dispFlowCfgDest 0 f = if bitsOf v 2 2 = 3 then 0 else bitsOf v 2 2)
      ∧ (s.before F.dispFlowCfgEnable 0 f = 1 → t.get F.dispFlowCfgDest 0 f = s.get F.dispFlowCfgDest 0 f))
  ∧ (∀ (f : Nat) (src : Src) (s : State), Alone s (.flow f) →
      Completes (.flowDisable f src) s fun t => t.get F.dispFlowCfgEnable 0 f = 0 ∧ t.flowX f = s.flowX f)
  ∧ (∀ (f : Nat) (src : Src) (s : State), Alone s (.flow f) →
      Completes (.flowReset f src) s fun t => (t.flowX f).items = [] ∧ (t.flowX f).nextSeq = 0
        ∧ t.get F.dispFlowStatStalled 0 f = 0)

/-- Cores, firmware, mail and load (R333 to R335, R355 to R357): a write of RUN starts and stops cores, a stopped core's thread is
IDLE with LOST, and a started one begins at its ENTRY; a load is read from host memory while every core is in reset, and ends with its status, the entries taken where it
is OK; mail of a core for this chip goes to the inbox, or waits; held mail is written once there is room; mail without a route is
counted; a load window records each core's busy count. -/
def CoresAndMail : Prop :=
  (∀ (mask : Nat) (s : State), Completes (.coreRun mask) s fun t => (∀ c < 4, t.coreRuns c = testBit mask c)
      ∧ ∀ c < 4, ∀ j, s.coreRuns c = true → testBit mask c = false → s.runningOn c = some j →
          t.get F.dispThrStateState 0 j = 0 ∧ t.get F.dispThrStateLost 0 j = 1 ∧ (t.coreX c).thread = none)
  ∧ (∀ (mask c : Nat) (s : State), c < 4 → s.coreRuns c = false → testBit mask c = true →
      Completes (.coreRun mask) s fun t => t.cpu c = { pc := BitVec.ofNat 32 (s.coreX c).entry })
  ∧ (∀ (length n : Nat) (s : State), n = min 4194304 (max 512 length) / 4 * 4 → s.get F.coreStatusRunning = 0 →
      s.get F.coreLoadCtrlStatus ≠ 1 →
      Completes (.firmwareLoad length) s fun t => t.get F.coreLoadCtrlStatus = 1 ∧ t.get F.coreLoadCtrlLength = n
        ∧ t.out = s.out ++ [.hostRead (s.get F.coreLoadAddrAddress * 4) n])
  ∧ (∀ (length : Nat) (s : State), s.get F.coreStatusRunning ≠ 0 ∨ s.get F.coreLoadCtrlStatus = 1 →
      Completes (.firmwareLoad length) s fun t => t.get F.coreLoadCtrlStatus = 6 ∧ t.out = s.out)
  ∧ (∀ (image body key signature : List Nat) (readOk : Bool) (s : State), image = body ++ key ++ signature →
      s.get F.coreLoadCtrlStatus = 1 → Completes (.loadDone body readOk key signature) s fun t =>
        t.get F.coreLoadCtrlStatus = s.loadStatus image readOk
        ∧ (s.loadStatus image readOk = 2 → ∀ c < 4, (t.coreX c).entry = field image (16 + 4 * c) 4))
  ∧ (∀ (c block : Nat) (l : List Nat) (s : State), Reaches s (.core c) → s.badSram (sramBase + 64 * block) 64 = false →
      l = s.sramBytes (sramBase + 64 * block) 64 → field l 3 1 % 64 = s.get F.oluChipId →
      (s.inboxRoom = true → s.disp.heldMail = [] → Completes (.sendmail c block) s fun t => t.get F.coreMailIdxProd
          = (s.get F.coreMailIdxProd + 1) % s.get F.coreMailboxEntries % 2 ^ F.coreMailIdxProd.width)
      ∧ (s.inboxRoom = false → Completes (.sendmail c block) s fun t => t.get F.coreMailIdxProd = s.get F.coreMailIdxProd
          ∧ ∃ m, t.disp.heldMail = s.disp.heldMail ++ [m] ∧ m.data = l.drop 16))
  ∧ (∀ (c block : Nat) (l : List Nat) (s : State), Reaches s (.core c) → s.badSram (sramBase + 64 * block) 64 = false →
      l = s.sramBytes (sramBase + 64 * block) 64 → field l 3 1 % 64 ≠ s.get F.oluChipId →
      s.route (field l 3 1 % 64) = none → Unclear s F.coreStatusMailNoroute 0 0 →
      Completes (.sendmail c block) s fun t => t.get F.coreStatusMailNoroute = min 65535 (s.get F.coreStatusMailNoroute + 1))
  ∧ (∀ (m : Mail) (ms : List Mail) (s : State), s.disp.heldMail = m :: ms → s.inboxRoom = true →
      Completes .inboxWrite s fun t => t.disp.heldMail = ms ∧ t.get F.coreMailIdxProd
          = (s.get F.coreMailIdxProd + 1) % s.get F.coreMailboxEntries % 2 ^ F.coreMailIdxProd.width)
  ∧ (∀ s : State, s.get F.dispCtrlWindow ≤ s.ticks - s.disp.windowStart →
      Completes .loadWindow s fun t => t.disp.windowStart = s.ticks ∧ ∀ c < 4, (t.coreX c).busy = 0
        ∧ t.get F.dispCoreStatValid 0 c = 1 ∧ t.get F.dispCoreStatBusy 0 c = (s.coreX c).busy % 2 ^ 32)

/-- The instructions of a core (R326, R328, R341), as the RISC-V manuals define them (PRESUMED, log entry 115): ADD writes the sum into its
destination, x0 keeping nothing; BEQ goes on at its target where its registers are equal; a trap saves the pc, the cause and the mode and
goes to the handler in machine mode, and MRET returns to the saved pc and mode; LR.W reserves a word of shared SRAM, SC.W stores to it
and answers 0 where the reservation is held, and else answers 1 and stores nothing. -/
def CoresExecute : Prop :=
  (∀ (c i word : Nat) (next : W32) (s t : State) (u : CpuX), u = s.cpu c → i % 128 = 0x33 → f3Of i = 0 → f7Of i = 0 →
      s.rvExec c i word next = (t, none) →
      (t.cpu c).pc = next ∧ ∀ r < 32, (t.cpu c).rx r = if r = rdOf i ∧ r ≠ 0 then u.rx (rs1Of i) + u.rx (rs2Of i) else u.rx r)
  ∧ (∀ (c i word : Nat) (next : W32) (s : State) (u : CpuX), u = s.cpu c → i % 128 = 0x63 → f3Of i = 0 →
      s.rvExec c i word next = (s.setCpu c { u with pc := if u.rx (rs1Of i) = u.rx (rs2Of i) then u.pc + immB i else next }, none))
  ∧ (∀ (u : CpuX) (pc tval : W32) (cause : Nat), (u.trap pc cause tval false).mepc = pc
      ∧ (u.trap pc cause tval false).mcause = BitVec.ofNat 32 cause ∧ (u.trap pc cause tval false).user = false
      ∧ (u.trap pc cause tval false).pc = u.mtvec &&& 0xFFFFFFFC
      ∧ (u.trap pc cause tval false).mret.pc = pc ∧ (u.trap pc cause tval false).mret.user = u.user)
  ∧ (∀ (c rd a al w : Nat) (v next : W32) (s : State), s.rvAtomic c a .amo = .ok (al, w) →
      ((s.cpu c).reserved = some (al / 4) → al % 4 = 0 →
        (s.rvSc c rd a v next).2 = none ∧ (s.rvSc c rd a v next).1.sramBytes al 4 = bytesOf v.toNat 4
        ∧ ((s.rvSc c rd a v next).1.cpu c).reserved = none
        ∧ ∀ k < 4, k ≠ c → ((s.rvSc c rd a v next).1.cpu k).reserved ≠ some (al / 4))
      ∧ ((s.cpu c).reserved ≠ some (al / 4) →
        (s.rvSc c rd a v next).2 = none ∧ (s.rvSc c rd a v next).1.disp.sram = s.disp.sram
        ∧ ((s.rvSc c rd a v next).1.cpu c).reserved = none))

/-- All that `Flows`, `CoresAndMail` and `CoresExecute` say. -/
def Obligations.FlowsCoresAndMail : Prop := Flows ∧ CoresAndMail ∧ CoresExecute

/-! ### The analogue measurement path (12_analogue_measurement_path.md) -/

/-- Visits (R363 to R366): a trigger starts the sequence at ENT[0], one of a running sequence without RESTART is counted; a stop
idles the converter; an urgent request visits its entry, one during an urgent visit is counted; a cancel resumes the running
sequence at its entry, or idles. -/
def ConverterVisits : Prop :=
  (∀ (b : Nat) (src : Src) (s : State), s.calibrating b = false → Alone s (.adcSeq b) → (s.adc b).run = false →
      (s.adc b).urgent = none →
      Completes (.sequenceTrigger b src) s fun t => (t.adc b).run = true ∧ (t.adc b).seqEntry = 0 ∧ (t.adc b).tags = []
        ∧ (t.adc b).visit = some { entry := 0, change := s.nextSample (s.ticks * tickUnits) }
        ∧ t.get F.bayAdcStatState b = 1 ∧ t.get F.bayAdcStatSettling b = 1)
  ∧ (∀ (b : Nat) (src : Src) (s : State), s.calibrating b = false → Alone s (.adcSeq b) → (s.adc b).run = true →
      (s.adc b).get F.bayAdcCfgRestart b = 0 → Unclear s F.bayAdcCountsTrigOverrun b 0 →
      Completes (.sequenceTrigger b src) s fun t => t.adc b = s.adc b
        ∧ t.get F.bayAdcCountsTrigOverrun b = min 1023 (s.get F.bayAdcCountsTrigOverrun b + 1))
  ∧ (∀ (b : Nat) (src : Src) (s : State), Alone s (.adcSeq b) → (s.adc b).urgent = none →
      Completes (.adcStop b src) s fun t => (t.adc b).run = false ∧ (t.adc b).visit = none ∧ t.get F.bayAdcStatState b = 0)
  ∧ (∀ (b e : Nat) (src : Src) (s : State), s.calibrating b = false → Alone s (.adcUrgent b) → (s.adc b).urgent = none →
      Completes (.urgentRequest b e src) s fun t => (t.adc b).urgent = some s.ticks ∧ (t.adc b).run = (s.adc b).run
        ∧ (t.adc b).visit.map (·.entry) = some e ∧ t.get F.bayAdcStatState b = 2 ∧ t.get F.bayAdcStatEntry b = e % 16)
  ∧ (∀ (b e k : Nat) (src : Src) (s : State), s.calibrating b = false → (s.adc b).urgent = some k → k < s.ticks →
      Unclear s F.bayAdcCountsUrgentBusy b 0 →
      Completes (.urgentRequest b e src) s fun t => t.adc b = s.adc b
        ∧ t.get F.bayAdcCountsUrgentBusy b = min 1023 (s.get F.bayAdcCountsUrgentBusy b + 1))
  ∧ (∀ (b k : Nat) (src : Src) (s : State), Alone s (.adcUrgent b) → (s.adc b).urgent = some k →
      Completes (.urgentCancel b src) s fun t => (t.adc b).urgent = none
        ∧ ((s.adc b).run = true → (t.adc b).visit.map (·.entry) = some (s.adc b).seqEntry ∧ t.get F.bayAdcStatState b = 1)
        ∧ ((s.adc b).run = false → (t.adc b).visit = none ∧ t.get F.bayAdcStatState b = 0))

/-- Settings, banks and slices (R359, R361, R373 to R375, R378): a commit puts every staged register in force; a coefficient is
written into the inactive bank only; a bank request waits for the next output, or for the fade; a changed reference becomes ready; a
failed slice uses the spare, a second degrades the converter; ACC_CLEAR empties the accumulators. -/
def ConverterSettings : Prop :=
  (∀ (b : Nat) (src : Src) (s : State), Alone s (.adcSeq b) →
      Completes (.sequenceCommit b src) s fun t => ∀ k ∈ adcStaged b, Assoc.rd resetWord (t.adc b).act k = s.rd k)
  ∧ (∀ (b k i : Nat) (data : Word) (s : State), k = s.get F.bayAdcCoefSelBank b → i = s.get F.bayAdcCoefSelIndex b →
      (k ≠ s.get F.bayAdcStatBank b → (s.adc b).fade = none →
        Completes (.coefWrite b data) s fun t => t.coef b k i = bitsOf data 0 18
          ∧ ∀ j, j ≠ k * 1024 + i → t.coef b 0 j = s.coef b 0 j)
      ∧ (k = s.get F.bayAdcStatBank b ∨ (s.adc b).fade.isSome = true → Unclear s F.bayAdcStatCoefRefused b 0 →
        Completes (.coefWrite b data) s fun t => t.adc b = s.adc b ∧ t.get F.bayAdcStatCoefRefused b = 1)
      ∧ Completes (.coefWrite b data) s fun t => t.get F.bayAdcCoefSelIndex b
          = if s.bit F.bayAdcCoefSelAutoinc b then (i + 1) % 1024 else i)
  ∧ (∀ (b bank : Nat) (s : State), Completes (.bankRequest b bank) s fun t =>
      ((s.adc b).fade = none → (t.adc b).bankWant = some (bank % 2))
      ∧ ((s.adc b).fade.isSome = true → (t.adc b).held = some (bank % 2) ∧ t.get F.bayAdcStatSwapHeld b = 1))
  ∧ (∀ (b : Nat) (s : State), s.get F.bayAdcStatRefReady b = 0 →
      Completes (.refReady b) s fun t => t.get F.bayAdcStatRefReady b = 1)
  ∧ (∀ (b : Nat) (s : State), (s.adc b).get F.bayAdcCfgBgcalEn b = 1 → s.get F.bayAdcStatDegraded b = 0 →
      Completes (.sliceRotation b true) s fun t => if s.bit F.bayAdcStatSpareUsed b then t.get F.bayAdcStatDegraded b = 1
        else t.get F.bayAdcStatSpareUsed b = 1 ∧ t.get F.bayAdcStatDegraded b = 0)
  ∧ (∀ (b : Nat) (src : Src) (s : State), Alone s (.adcSeq b) →
      Completes (.accClear b src) s fun t => (t.adc b).accs = [])

/-- All that `ConverterVisits` and `ConverterSettings` say. -/
def Obligations.ConverterControl : Prop := ConverterVisits ∧ ConverterSettings

/-- An output (R362, R363, R370, R371, R373, R375, R454): a sample's code is corrected with the OFFSET and GAIN of its entry's input and
gain and joins those held; with no edge, fade or urgent visit waiting, the output that is due is that of the filter chain, clipped; it
is added to its entry's accumulator while a window is open, counts in its visit, and the visit that has COUNT outputs goes on to the
next entry. A window that is open closes at its edge: every entry's results are written, valid, and WINDOW_SEQ advances (R377). -/
def Obligations.OutputsAndWindows : Prop :=
  (∀ (b : Nat) (code : Int) (w : Visit) (s : State), (s.adc b).visit = some w → s.get F.bayAdcStatDegraded b = 0 → (s.adc b).tags = [] →
      Completes (.adcOutput b [] code) s fun t => (t.adc b).codeAt = some ((s.adc b).nextCode w)
        ∧ (t.adc b).codes.head? = some (s.correctCode b ((s.adc b).inputAt ((s.adc b).nextCode w)) code))
  ∧ (∀ (b tag cyc i d : Nat) (codes : List Int) (code v : Int) (w : Visit) (s : State), (s.adc b).visit = some w →
      s.get F.bayAdcStatDegraded b = 0 →
      (s.adc b).nextOutput b w.entry = some (tag, cyc, i, d) → d ≤ s.ticks * tickUnits → s.suppressed b w i = false →
      (s.adc b).edges = [] → (s.adc b).fade = none → (s.adc b).bankWant = none → (s.adc b).urgent = none →
      v = clipValue ((s.takeCodes b w (codes ++ [code])).chainValue b i) →
      Completes (.adcOutput b codes code) s fun t =>
        (s.bit F.bayAdcWinOpen b = true → t.acc b w.entry = (s.acc b w.entry).add v)
        ∧ (s.bit F.bayAdcWinOpen b = false → (t.adc b).accs = (s.adc b).accs)
        ∧ ((s.adc b).get F.bayAdcEntCount b w.entry = 0 → (t.adc b).tags = (s.adc b).tags.drop 1
            ∧ (t.adc b).visit = some { w with got := w.got + 1 } ∧ t.get F.bayAdcStatSettling b = 0)
        ∧ ((s.adc b).get F.bayAdcEntCount b w.entry ≠ 0 → (s.adc b).get F.bayAdcEntCount b w.entry ≤ w.got + 1 →
            (s.adc b).seqEntry + 1 < (s.adc b).get F.bayAdcCfgLen b →
            (t.adc b).visit.map (·.entry) = some ((s.adc b).seqEntry + 1) ∧ (t.adc b).seqEntry = (s.adc b).seqEntry + 1))
  ∧ (∀ (b v et : Nat) (s : State), (s.adc b).tags = [] → (s.adc b).edges = [(v, 1, some et)] → v ≤ s.ticks * tickUnits →
      s.get F.bayAdcWinOpen b = 1 →
      Completes (.adcWindow b) s fun t => t.get F.bayAdcWinOpen b = 0 ∧ (t.adc b).accs = []
        ∧ t.get F.bayAdcWinWindowSeq b = (s.get F.bayAdcWinWindowSeq b + 1) % 65536
        ∧ t.get F.bayAdcWinCloseCycle b = et % 2 ^ 64
        ∧ ∀ e < 16, t.get F.bayAdcResSumValid b e = 1 ∧ t.get F.bayAdcResSumStale b e = 0
            ∧ t.get F.bayAdcResSumSum b e = unsigned 48 (s.acc b e).sum ∧ t.get F.bayAdcResCntCount b e = (s.acc b e).cnt % 2 ^ 32
            ∧ t.get F.bayAdcResMinmaxMin b e = unsigned 24 (s.acc b e).least
            ∧ t.get F.bayAdcResMinmaxMax b e = unsigned 24 (s.acc b e).most)
  ∧ (∀ (b v et : Nat) (s : State), (s.adc b).tags = [] → (s.adc b).edges = [(v, 0, some et)] → v ≤ s.ticks * tickUnits →
      s.get F.bayAdcWinOpen b = 0 →
      Completes (.adcWindow b) s fun t => t.get F.bayAdcWinOpen b = 1 ∧ (t.adc b).accs = [] ∧ (t.adc b).opened = et)

/-! ### Acquisition and triggers (13_acquisition_and_triggers.md) -/

/-- The acquisition engine (R384, R385, R388, R389, R392, R394): a re-arm ends a capture, applies the staged settings and fills;
a stop idles; a force, an automatic trigger and a pin event of a condition in force are sampled, or missed in HOLDOFF, or nothing in
IDLE; the end of HOLDOFF fills again; enabling the ring zeroes its pointers. -/
def Obligations.AcquisitionEngine : Prop :=
  (∀ (b : Nat) (src : Src) (s : State), Alone s (.acq b) →
      Completes (.rearm b src) s fun t => t.acqState b = 1 ∧ (t.acq b).cap = none ∧ (t.acq b).pre = []
        ∧ t.get F.bayAcqStatRshift b = 0 ∧ t.get F.bayAcqStatRateReduced b = 0
        ∧ ∀ k ∈ acqStaged b, Assoc.rd resetWord (t.acq b).act k = s.acqInForce k)
  ∧ (∀ (b : Nat) (src : Src) (s : State), Alone s (.acq b) → s.acqState b ≠ 0 →
      Completes (.acqStop b src) s fun t => t.acqState b = 0 ∧ (t.acq b).cap = none ∧ (t.acq b).rec_ = none)
  ∧ (∀ (b : Nat) (src : Src) (s : State), Alone s (.acq b) →
      (s.acqState b = 0 → Completes (.force b src) s fun t => t = s)
      ∧ (s.acqState b = 4 → Unclear s F.bayAcqCountsTrigMissed b 0 → Completes (.force b src) s fun t =>
          t.get F.bayAcqCountsTrigMissed b = min 65535 (s.get F.bayAcqCountsTrigMissed b + 1))
      ∧ (1 ≤ s.acqState b → s.acqState b ≤ 3 → (∀ e ∈ (s.acq b).evs, e.1 ≠ 4) → Completes (.force b src) s fun t =>
          (t.acq b).evs = (s.acq b).evs ++ [(4, s.ticks * tickUnits, s.stamp)]))
  ∧ (∀ (b : Nat) (s : State), Alone s (.acq b) → (s.acq b).get F.bayAcqCfgMode b = 2 → s.acqState b = 1 ∨ s.acqState b = 2 →
      (s.acq b).forced = false → (s.acq b).since + (s.acq b).get F.bayAcqTimeAutoEt b ≤ s.ticks →
      Completes (.autoTrigger b) s fun t => (t.acq b).forced = true ∧ ∃ e ∈ (t.acq b).evs, e.1 = 4)
  ∧ (∀ (b : Nat) (s : State), s.acqState b = 4 → (s.acq b).since + (s.acq b).get F.bayAcqTimeHoldoff b ≤ s.ticks →
      Completes (.holdoffEnd b) s fun t => t.acqState b = 1 ∧ (t.acq b).pre = [] ∧ (t.acq b).since = s.ticks
        ∧ t.get F.bayAcqStatRshift b = s.get F.bayAcqStatRshift b)
  ∧ (∀ (b chan kind i : Nat) (s : State), Alone s (.acq b) → i < 4 → kind ≠ 0 → (s.acq b).get F.bayAcqCondType b i = 7 →
      (s.acq b).get F.bayAcqCondPinKind b i = kind → (s.acq b).get F.bayAcqCondChan b i = chan →
      1 ≤ s.acqState b → s.acqState b ≤ 3 →
      Completes (.pinEvent b chan kind) s fun t => ∃ e ∈ (t.acq b).evs, e.1 = i)
  ∧ (∀ (b : Nat) (src : Src) (s : State), Alone s (.acq b) →
      ClearActs s (F.bayAcqCountsTrigMissed.key b 0) F.bayAcqCountsTrigMissed.lo →
      ClearActs s (F.bayAcqCountsDropped.key b 0) F.bayAcqCountsDropped.lo →
      Completes (.acqCountsClear b src) s fun t => t.get F.bayAcqCountsTrigMissed b = 0 ∧ t.get F.bayAcqCountsDropped b = 0
        ∧ t.get F.bayAcqCountsMissedSaturated b = 0 ∧ t.get F.bayAcqCountsDroppedSaturated b = 0)
  ∧ (∀ (b : Nat) (v : Word) (s : State), Completes (.acqRingWrite b v) s fun t => t.get F.bayAcqRingEnable b = bitsOf v 0 1
      ∧ (s.before F.bayAcqRingEnable b = 0 → t.get F.bayAcqRingBasePage b = bitsOf v 16 25
          ∧ t.get F.bayAcqRingSize b = max 10 (min (bitsOf v 1 5) 28))
      ∧ (s.before F.bayAcqRingEnable b = 1 → t.get F.bayAcqRingBasePage b = s.get F.bayAcqRingBasePage b
          ∧ t.get F.bayAcqRingSize b = s.get F.bayAcqRingSize b)
      ∧ t.rd ⟨.bayAcqPtr, b, 0⟩ = if s.get F.bayAcqRingEnable b = 0 ∧ bitsOf v 0 1 = 1 then 0 else s.rd ⟨.bayAcqPtr, b, 0⟩)

/-! ### Time-interval measurement (14_time_interval_measurement.md) -/

/-- Arms and ends (R405, R407, R410): an arm puts the staged configuration in force and measures, or runs a series, with its status
bits 0; while the bay calibrates it is discarded and counted; a disarm ends a measurement without a result, a series with one; CLEAR
zeroes the result; TIMEOUT ticks after the arm a measurement is DONE with RESULT 0 and TIMEDOUT. -/
def IntervalArms : Prop :=
  (∀ (m : Nat) (src : Src) (s : State), testBit (s.get F.calStatusBusy) (m / 4) = false → Alone s (.tim m) →
      Completes (.timArm m src) s fun t => t.timState m = (if s.timGet F.bayTimCfgMode m = 5 then 2 else 1)
        ∧ t.timGet F.bayTimStatDone m = 0 ∧ t.timGet F.bayTimStatTimedout m = 0 ∧ (t.tim m).armTick = s.ticks
        ∧ (t.tim m).get F.bayTimCfgMode m = s.timGet F.bayTimCfgMode m ∧ (t.tim m).get F.bayTimCountN m = s.timGet F.bayTimCountN m
        ∧ (t.tim m).get F.bayTimTimeTimeout m = s.timGet F.bayTimTimeTimeout m ∧ (t.tim m).starts = 0 ∧ (t.tim m).first = none)
  ∧ (∀ (m : Nat) (src : Src) (s : State), testBit (s.get F.calStatusBusy) (m / 4) = true →
      Unclear s F.bayTimStatBusyDiscard (m / 4) (m % 4) →
      Completes (.timArm m src) s fun t => t.tim m = s.tim m
        ∧ t.timGet F.bayTimStatBusyDiscard m = min 65535 (s.timGet F.bayTimStatBusyDiscard m + 1))
  ∧ (∀ (m : Nat) (src : Src) (s : State), Alone s (.tim m) →
      (s.timState m = 1 → Completes (.timDisarm m src) s fun t => t.timState m = 0
        ∧ t.timGet F.bayTimStatDone m = s.timGet F.bayTimStatDone m ∧ t.timGet F.bayTimResultResult m = s.timGet F.bayTimResultResult m)
      ∧ (s.timState m = 2 → Completes (.timDisarm m src) s fun t => t.timState m = 0 ∧ t.timGet F.bayTimStatDone m = 1))
  ∧ (∀ (m : Nat) (src : Src) (s : State), Alone s (.tim m) →
      Completes (.timResultClear m src) s fun t => t.timGet F.bayTimResultResult m = 0 ∧ t.timGet F.bayTimAuxAux m = 0
        ∧ t.timGet F.bayTimStatDone m = 0 ∧ t.timState m = s.timState m)
  ∧ (∀ (m : Nat) (s : State), (s.tim m).get F.bayTimTimeTimeout m ≠ 0 →
      (s.tim m).armTick + (s.tim m).get F.bayTimTimeTimeout m ≤ s.ticks → s.timState m = 1 →
      (s.tim m).get F.bayTimCfgMode m ≠ 4 → Alone s (.tim m) →
      Completes (.timTimeout m) s fun t => t.timState m = 0 ∧ t.timGet F.bayTimStatDone m = 1 ∧ t.timGet F.bayTimStatTimedout m = 1
        ∧ t.timGet F.bayTimResultResult m = 0)

/-- Intervals (R399 to R404, R408): a crossing is held until its level has persisted for 256 fu, and one that follows another of its
source sooner ends a pulse of which neither edge is detected; in INTERVAL mode with two sources, the accepted first start edge and the
accepted stop edge are used, and the measurement completes at the first boundary at least 24 ct after the later; its RESULT is the
signed difference in 2⁻¹⁶ fu with ORDER, or 0 with COINCIDENT where they differ by at most 2 fu, and AUX the start; COUNT mode gives the
edges counted; a series entry takes three stamps. -/
def IntervalResults : Prop :=
  (∀ (m src : Nat) (rising : Bool) (p : Int) (s : State), (∀ q < 4, ∀ e ∈ (s.seqX q).due, e.2 ≠ .timArm m) → s.timState m ≠ 0 →
      ((s.tim m).held = [] → Completes (.timEdge m src rising p) s fun t => t.tim m = { s.tim m with held := [(src, rising, p)] })
      ∧ (∀ r₀ p₀, (s.tim m).held = [(src, r₀, p₀)] → p < p₀ + 256 →
          Completes (.timEdge m src rising p) s fun t => t.tim m = { s.tim m with held := [] }))
  ∧ (∀ (m src src' a : Nat) (rising r' : Bool) (p p' : Int) (x : TimX) (s : State), x = s.tim m → s.timState m = 1 →
      (∀ q < 4, ∀ e ∈ (s.seqX q).due, e.2 ≠ .timArm m) → x.get F.bayTimCfgMode m = 0 →
      x.get F.bayTimCfgStartSrc m ≠ x.get F.bayTimCfgStopSrc m → x.due = none → x.held = [(src, rising, p)] → p + 256 ≤ p' →
      (x.get F.bayTimCfgStartSrc m = src → s.position m src false p = a →
        outside x.lastStart (x.get F.bayTimTimeHoldoffStart m) a = true →
        qualifies (x.get F.bayTimCfgStartEdge m) rising = true → x.starts + 1 = x.get F.bayTimCfgNstart m → x.final = none →
        Completes (.timEdge m src' r' p') s fun t => (t.tim m).first = some a ∧ (t.tim m).starts = x.starts + 1
          ∧ (t.tim m).lastStart = some a ∧ (t.tim m).due = none ∧ (t.tim m).held = [(src', r', p')])
      ∧ (∀ b, x.get F.bayTimCfgStopSrc m = src → s.position m src true p = a →
        outside x.lastStop (x.get F.bayTimTimeHoldoffStop m) a = true →
        qualifies (x.get F.bayTimCfgStopEdge m) rising = true → x.stops + 1 = x.get F.bayTimCfgNstop m → x.final = none →
        x.first = some b →
        Completes (.timEdge m src' r' p') s fun t => (t.tim m).final = some a
          ∧ (t.tim m).due = some (x.armTick + (max a b + 24576 + 8191) / 8192)))
  ∧ (∀ (m k a z : Nat) (s : State), (s.tim m).due = some k → k ≤ s.ticks → s.timState m = 1 → (s.tim m).held = [] →
      Alone s (.tim m) → (s.tim m).get F.bayTimCfgMode m = 0 → (s.tim m).first = some a → (s.tim m).final = some z →
      (2 < ((z : Int) - a).natAbs → ((z : Int) - a).natAbs < 2 ^ 47 → Completes (.timComplete m) s fun t =>
        t.timState m = 0 ∧ t.timGet F.bayTimStatDone m = 1 ∧ t.timGet F.bayTimAuxAux m = a % 2 ^ 64
          ∧ t.timGet F.bayTimResultResult m = unsigned 64 (((z : Int) - a) * 65536)
          ∧ (z < a → t.timGet F.bayTimStatOrder m = 1))
      ∧ (((z : Int) - a).natAbs ≤ 2 → Completes (.timComplete m) s fun t =>
        t.timState m = 0 ∧ t.timGet F.bayTimStatDone m = 1 ∧ t.timGet F.bayTimResultResult m = 0
          ∧ t.timGet F.bayTimStatCoincident m = 1))
  ∧ (∀ (m k : Nat) (s : State), (s.tim m).due = some k → k ≤ s.ticks → s.timState m = 1 → (s.tim m).held = [] →
      Alone s (.tim m) → (s.tim m).get F.bayTimCfgMode m = 4 →
      Completes (.timComplete m) s fun t => t.timState m = 0 ∧ t.timGet F.bayTimStatDone m = 1
        ∧ t.timGet F.bayTimResultResult m = min 4294967295 (s.tim m).starts)
  ∧ (∀ (m : Nat) (s : State), s.timState m = 2 → (s.tim m).held = [] → 3 ≤ (s.tim m).queue.length → (s.tim m).lostNew = 0 →
      s.bit F.bayAcqRingEnable (m / 4) = true → s.dramReady = true →
      (s.get F.bayAcqPtrWr (m / 4) + 1) % 2 ^ s.get F.bayAcqRingSize (m / 4) ≠ s.get F.bayAcqPtrRd (m / 4) →
      Completes (.seriesEntry m) s fun t => (t.tim m).queue = (s.tim m).queue.drop 3 ∧ (t.tim m).written = (s.tim m).written + 3
        ∧ t.get F.bayAcqPtrWr (m / 4) = (s.get F.bayAcqPtrWr (m / 4) + 1) % 2 ^ s.get F.bayAcqRingSize (m / 4))

/-- All that `IntervalArms` and `IntervalResults` say. -/
def Obligations.IntervalUnits : Prop := IntervalArms ∧ IntervalResults

/-- A bay whose ring a command may write. -/
def ringOwner : Instr → Option Nat
  | .adcOutput b _ _ => some b
  | .sequenceTrigger b _ => some b
  | .adcStop b _ => some b
  | .sequenceCommit b _ => some b
  | .urgentRequest b _ _ => some b
  | .urgentCancel b _ => some b
  | .rearm b _ => some b
  | .acqStop b _ => some b
  | .seriesEntry m => some (m / 4)
  | .timDisarm m _ => some (m / 4)
  | .timTimeout m => some (m / 4)
  | _ => none

/-- The frame of memory for the commands of a bay's converter, acquisition engine and interval units (R175, R394): where the bay's
ring is enabled they store in its slots, the one at WR and those below 2^SIZE, each of 32 bytes from BASE_PAGE on; every other byte,
and where the ring is disabled every byte, is as before. -/
def Obligations.AcquisitionRingFrame : Prop :=
  ∀ (c : Instr) (b : Nat) (s t : State), ringOwner c = some b → exec c s = .next t →
    (s.bit F.bayAcqRingEnable b = false → SameMemory s t)
    ∧ ∀ a, (∀ k, k = s.get F.bayAcqPtrWr b ∨ k < 2 ^ s.get F.bayAcqRingSize b →
        a < s.get F.bayAcqRingBasePage b * 4096 + k * 32 ∨ s.get F.bayAcqRingBasePage b * 4096 + k * 32 + 32 ≤ a) →
      t.memByte a = s.memByte a

/-! ### Local DRAM (15_dram_controller.md) -/

/-- Enable, training mode and delays (R416, R417, R419): an enable initialises, and at its end every populated channel trains; with
no channel training the controller is READY with its frames; training is entered only with every sequencer STOPPED; an accepted disable
loses the pages and DISABLES, another is refused; APPLY transfers the channel's shadow delays at once in training, else when the last rank that waits is refreshed; a refresh that is
due is postponed, up to POST_MAX, while PANIC is set. -/
def DramStates : Prop :=
  (∀ s : State, s.get F.drmCtrlEnable = 0 → Completes .dramEnable s fun t => t.get F.drmCtrlEnable = 1 ∧ t.get F.drmInfoState = 1)
  ∧ (∀ s : State, s.get F.drmInfoState = 1 → Completes .dramInitDone s fun t => t.get F.drmInfoState = 2
      ∧ ∀ m ∈ s.mchs, t.get F.mchCtrlTrain m = 1)
  ∧ (∀ s : State, s.get F.drmCtrlEnable = 1 → s.disableOk = true →
      Completes .dramDisable s fun t => t.get F.drmCtrlEnable = 0 ∧ t.get F.drmInfoState = 0 ∧ t.get F.drmInfoFrames = 0
        ∧ t.mem = [] ∧ ∀ g, (t.entry g).resident = false)
  ∧ (∀ s : State, s.get F.drmCtrlEnable = 1 → s.disableOk = false → Unclear s F.drmInfoDisableRefused 0 0 →
      Completes .dramDisable s fun t => t.get F.drmInfoDisableRefused = 1 ∧ t.get F.drmCtrlEnable = 1 ∧ t.mem = s.mem)
  ∧ (∀ (m : Nat) (s : State), s.allStopped = false → Unclear s F.mchCtrlTrainRefused m 0 →
      Completes (.train m true) s fun t => t.get F.mchCtrlTrainRefused m = 1 ∧ t.get F.mchCtrlTrain m = s.get F.mchCtrlTrain m)
  ∧ (∀ (m : Nat) (s : State), s.allStopped = true → s.get F.drmInfoState = 3 → m ∈ s.mchs →
      Completes (.train m true) s fun t => t.get F.mchCtrlTrain m = 1 ∧ t.get F.drmInfoState = 2)
  ∧ (∀ (m : Nat) (s : State), s.get F.drmInfoState = 2 → (∀ k ∈ s.mchs, k ≠ m → s.get F.mchCtrlTrain k = 0) →
      Completes (.train m false) s fun t => t.get F.mchCtrlTrain m = 0 ∧ t.get F.drmInfoState = 3
        ∧ t.get F.drmInfoFrames = s.installedFrames % 2 ^ F.drmInfoFrames.width)
  ∧ (∀ (m : Nat) (s : State),
      (s.inTraining m = true → (s.dram.shadow.map (·.1)).Nodup → Completes (.apply m) s fun t => t.get F.mchDlyApplyPending m = 0
        ∧ ∀ k, unitAt 64 t.dram.active k = if delayChannel k = m then unitAt 64 s.dram.shadow k else unitAt 64 s.dram.active k)
      ∧ (s.inTraining m = false → Completes (.apply m) s fun t => t.get F.mchDlyApplyPending m = 1
        ∧ t.dram.active = s.dram.active))
  ∧ (∀ (m r : Nat) (s : State), s.refreshes m r = true → s.refreshDue m r = true →
      (s.bit F.drmPanicPanic = true → unitAt 0 s.dram.postponed (2 * m + r) < s.get F.mchCtrlPostMax m →
        Completes (.refresh m r) s fun t =>
          unitAt 0 t.dram.postponed (2 * m + r) = unitAt 0 s.dram.postponed (2 * m + r) + 1)
      ∧ (s.bit F.drmPanicPanic = false → s.get F.mchDlyApplyPending m = 1 → unitAt [] s.dram.waitRanks m = [r] →
          (s.dram.shadow.map (·.1)).Nodup →
        Completes (.refresh m r) s fun t => t.get F.mchDlyApplyPending m = 0
          ∧ ∀ k, unitAt 64 t.dram.active k = if delayChannel k = m then unitAt 64 s.dram.shadow k else unitAt 64 s.dram.active k))

/-- The controller's own commands, each where nothing stands against it (R416 to R419, R427, R428, R432 to R434): what it does. -/
def DramCommandsAct : Prop :=
  (∀ s : State, s.get F.drmCtrlEnable = 0 →
      Completes .dramEnable s fun t => t.get F.drmCtrlEnable = 1 ∧ t.get F.drmInfoState = 1)
  ∧ (∀ s : State, s.get F.drmInfoState = 1 →
      Completes .dramInitDone s fun t => t.get F.drmInfoState = 2 ∧ ∀ m ∈ s.mchs, t.get F.mchCtrlTrain m = 1)
  ∧ (∀ s : State, s.get F.drmCtrlEnable = 1 → s.disableOk = true →
      Completes .dramDisable s fun t => t.get F.drmCtrlEnable = 0 ∧ t.get F.drmInfoState = 0 ∧ t.mem = [])
  ∧ (∀ (m : Nat) (s : State), s.allStopped = true → s.get F.drmInfoState = 3 → m ∈ s.mchs →
      Completes (.train m true) s fun t => t.get F.mchCtrlTrain m = 1 ∧ t.get F.drmInfoState = 2)
  ∧ (∀ (m : Nat) (s : State), s.inTraining m = false →
      Completes (.apply m) s fun t => t.get F.mchDlyApplyPending m = 1 ∧ t.dram.active = s.dram.active)
  ∧ (∀ (m r : Nat) (s : State), s.refreshes m r = true → s.refreshDue m r = true → s.bit F.drmPanicPanic = false →
      Completes (.refresh m r) s fun t => unitAt 0 t.dram.refreshed (2 * m + r) = s.ticks ∧ t.dram.postponed = s.dram.postponed)
  ∧ (∀ s : State, s.bit F.drmScrubEn = true → s.dramReady = true → s.get F.drmInfoSrState = 0 → 8 * s.dram.scrubAt < s.dramEnd →
      s.dram.scrubAt ∉ s.dram.poison → Completes (.patrolScrub false false) s fun t => t.dram.scrubAt = s.dram.scrubAt + 1 ∧ t.mem = s.mem)
  ∧ (∀ (fast : List Nat) (s : State), s.dram.polled + 4800000 ≤ s.ticks → 2 ≤ s.get F.drmInfoState →
      Completes (.mr4Poll fast) s fun t => t.dram.polled = s.ticks)
  ∧ (∀ s : State, s.srOk = true → s.get F.drmInfoSrState = 0 → Completes .srEnter s fun t => t.get F.drmInfoSrState = 2)
  ∧ (∀ s : State, s.srOk = true → s.get F.drmInfoSrState = 0 → s.bit F.drmCtrlAutoSr = true →
      s.dram.lastReq + s.get F.drmSrIdleEt ≤ s.ticks → Completes .autoSelfRefresh s fun t => t.get F.drmInfoSrState = 2)
  ∧ (∀ s : State, s.get F.drmInfoSrState = 2 → Completes .srExit s fun t => t.get F.drmInfoSrState = 0)

/-- Training operations (R418, R420): in training mode MRW writes the addressed mode register, MRR returns what MRW has written, or
what the device answers, the compares and levelling return their fail bits, and each is DONE; outside it MRW, MRR and WLEVEL are refused. WRITE_READ_CMP first
stores the 64 bytes of its pattern at TRAIN_ADDR, and no other byte. -/
def TrainingOperations : Prop :=
  ∀ (m x : Nat) (s : State),
    (s.inTraining m = true →
      (Completes (.mrw m) s fun t => t.get F.mchTrainResDone m = 1 ∧ t.get F.mchTrainResRefused m = 0
        ∧ unitAt 0 t.dram.modeRegs (s.modeKey m) = s.get F.mchTrainCmdMrData m)
      ∧ (Completes (.mrr m x) s fun t => t.get F.mchTrainResDone m = 1 ∧ t.get F.mchTrainResRefused m = 0
        ∧ t.get F.mchTrainResMrData m = (if unitAt 256 s.dram.modeRegs (s.modeKey m) = 256 then x
            else unitAt 256 s.dram.modeRegs (s.modeKey m)) % 2 ^ 8)
      ∧ (Completes (.wlevel m x) s fun t => t.get F.mchTrainResDone m = 1 ∧ t.get F.mchTrainResRefused m = 0
        ∧ t.get F.mchTrainResFailbits m = x % 2 ^ 40)
      ∧ (s.get F.mchTrainAddrAddress m / 64 * 64 + 64 ≤ s.installedFrames * 67108864 →
        Completes (.writeReadCmp m x) s fun t =>
          (∀ i < 64, t.memByte (s.get F.mchTrainAddrAddress m / 64 * 64 + i)
            = BitVec.ofNat 8 ((trainBurst (s.get F.mchTrainPatPattern m)).getD i 0))
          ∧ ∀ a, a < s.get F.mchTrainAddrAddress m / 64 * 64 ∨ s.get F.mchTrainAddrAddress m / 64 * 64 + 64 ≤ a →
              t.memByte a = s.memByte a))
    ∧ (s.inTraining m = false → ∀ c, c = Instr.mrw m ∨ c = Instr.mrr m x ∨ c = Instr.wlevel m x →
        Completes c s fun t => t.get F.mchTrainResDone m = 1 ∧ t.get F.mchTrainResRefused m = 1)
    ∧ (s.canCompare m = true → ∀ c, c = Instr.readCmp m x ∨ c = Instr.writeReadCmp m x →
        Completes c s fun t => t.get F.mchTrainResDone m = 1 ∧ t.get F.mchTrainResRefused m = 0
          ∧ t.get F.mchTrainResFailbits m = x % 2 ^ 40)

/-- The controller's commands and its training operations: all that `TrainingOperations` and `DramCommandsAct` say. -/
def Obligations.DramTraining : Prop := TrainingOperations ∧ DramCommandsAct

/-- Scrub, refresh rate and self-refresh (R428, R431 to R434): scrub goes on word by word; a corrected word counts and is recorded, an uncorrectable one stays so,
counts, and is recorded; MR4 names the fast ranks; an entry into self-refresh that is allowed is made and counted, another is refused;
the idle time enters it; an exit leaves it. -/
def DramUpkeep : Prop :=
  (∀ (w m : Nat) (s : State), w = (if 8 * s.dram.scrubAt < s.dramEnd then s.dram.scrubAt else 0) → m = s.mchOf (8 * w) →
      s.bit F.drmScrubEn = true → s.dramReady = true → s.get F.drmInfoSrState = 0 →
      Unclear s F.mchEccStatCeCount m 0 → Unclear s F.mchEccStatUeCount m 0 →
      (w ∉ s.dram.poison → Completes (.patrolScrub false false) s fun t => t = { s with dram := { s.dram with scrubAt := w + 1 } })
      ∧ (w ∉ s.dram.poison → s.get F.mchEccAddrUe m = 0 → Completes (.patrolScrub true false) s fun t => t.dram.scrubAt = w + 1 ∧
        t.get F.mchEccAddrAddress m = 8 * w % 2 ^ 40 ∧ t.get F.mchEccAddrValid m = 1 ∧ t.get F.mchEccAddrUe m = 0
          ∧ (s.get F.mchEccStatCeCount m + 1 < 2 ^ 32 → t.get F.mchEccStatCeCount m = s.get F.mchEccStatCeCount m + 1))
      ∧ (∀ corrected, Completes (.patrolScrub corrected true) s fun t => t.dram.scrubAt = w + 1 ∧ w ∈ t.dram.poison ∧ t.get F.mchEccAddrAddress m = 8 * w % 2 ^ 40
        ∧ t.get F.mchEccAddrUe m = 1 ∧ t.get F.mchEccAddrScrub m = 1 ∧ t.get F.mchEccAddrValid m = 1
        ∧ t.get F.mchEccStatUeCount m = min 65535 (s.get F.mchEccStatUeCount m + 1)))
  ∧ (∀ (fast : List Nat) (s : State), s.dram.polled + 4800000 ≤ s.ticks → 2 ≤ s.get F.drmInfoState →
      Completes (.mr4Poll fast) s fun t => t.dram.polled = s.ticks ∧
      ∀ k, k ∈ t.dram.fast ↔ k ∈ fast ∧ s.refreshes (k / 2) (k % 2) = true)
  ∧ (∀ s : State, s.srOk = true → s.get F.drmInfoSrState = 0 → Unclear s F.drmSrEntries 0 0 →
      (Completes .srEnter s fun t => t.get F.drmInfoSrState = 2 ∧ t.get F.drmSrEntries = min 65535 (s.get F.drmSrEntries + 1))
      ∧ (s.bit F.drmCtrlAutoSr = true → s.dram.lastReq + s.get F.drmSrIdleEt ≤ s.ticks →
        Completes .autoSelfRefresh s fun t => t.get F.drmInfoSrState = 2 ∧ t.dram.srSince = s.ticks))
  ∧ (∀ s : State, s.srOk = false → Unclear s F.drmSrRefused 0 0 →
      Completes .srEnter s fun t => t.get F.drmSrRefused = 1 ∧ t.get F.drmInfoSrState = s.get F.drmInfoSrState)
  ∧ (∀ s : State, s.get F.drmInfoSrState ≠ 0 → Completes .srExit s fun t => t.get F.drmInfoSrState = 0)

/-- All that `DramStates` and `DramUpkeep` say. -/
def Obligations.DramStatesAndUpkeep : Prop := DramStates ∧ DramUpkeep

/-! ### Calibration (16_calibration.md) -/

/-- The run of bay `b` gathers the data of procedure `p`, alone in its start. -/
def Gathers (s : State) (b p : Nat) (r : CalRun) : Prop :=
  s.calRun b = some r ∧ r.step = p ∧ r.proc = p ∧ p ≠ 0x0F ∧ r.ready = false ∧ r.done.contains p = false

/-- The run of bay `b` has the data of procedure `p`, is complete, and holds the values `l`. -/
def Gathered (t : State) (b p : Nat) (l : List (RegKey × Nat × Nat × Nat)) : Prop :=
  ∃ r, t.calRun b = some r ∧ r.ready = true ∧ p ∈ r.done ∧ ∀ e ∈ l, e ∈ r.held

/-- The data of a procedure are held until the run's update (R437, R440, R442): offsets of the time-interval units, linearity points,
deskews of the drive and the compare paths of each channel, the round trip, the converter's corrections and the duty corrections. -/
def CalibrationData : Prop :=
  ∀ (b : Nat) (r : CalRun) (s : State),
    (∀ o : List (Int × Int), Gathers s b 1 r → Completes (.timOffset b o) s fun t => Gathered t b 1
      ((List.range 4).flatMap fun u => [heldFld F.bayTimOfsStart b u (fitSigned 16 (o.getD u (0, 0)).1),
        heldFld F.bayTimOfsStop b u (fitSigned 16 (o.getD u (0, 0)).2)]))
    ∧ (∀ im : List Word, Gathers s b 2 r → Completes (.fineLinearity b im) s fun t => Gathered t b 2
      ((List.range 128).map fun j => heldFld F.bayFdlinPoints b j (im.getD j 0).toNat))
    ∧ (∀ (raw : List (Int × Int)) (res : List (Nat × Nat)) (i : Nat) (x : Int × Int), Gathers s b 3 r → raw[i]? = some x → i < 16 →
      Completes (.driveDeskew b raw res) s fun t => Gathered t b 3
        [heldFld F.bayDeskewDrv b i (s.deskewFor b x.1 0).1, heldFld F.bayDeskewDen b i (s.deskewFor b x.2 0).1])
    ∧ (∀ m : Nat, Gathers s b 4 r → m ≤ 4095 * 1024 → Completes (.roundTrip b m) s fun t => Gathered t b 4
      [heldFld F.bayCalBayRtd b 0 (m / 1024), heldFld F.bayCalBayRtdFrac b 0 (m % 1024)])
    ∧ (∀ (raw : List (Int × Int)) (res eyes : List (Nat × Nat)) (i : Nat) (x : Int × Int), Gathers s b 5 r → raw[i]? = some x → i < 16 →
      Completes (.compareDeskew b raw res eyes) s fun t => Gathered t b 5
        [heldFld F.bayDeskewCmph b i (s.deskewFor b x.1 (s.runFrac b r)).1,
         heldFld F.bayDeskewCmpl b i (s.deskewFor b x.2 (s.runFrac b r)).1])
    ∧ (∀ (v : List (Int × Int)) (res : List Nat), Gathers s b 6 r → Completes (.adc b v res) s fun t => Gathered t b 6
      ((List.range 48).flatMap fun k => [heldFld F.bayAdcCalOffset b k (fitSigned 16 (v.getD k (0, 0)).1),
        heldFld F.bayAdcCalGain b k (fitSigned 16 (v.getD k (0, 0)).2)]))
    ∧ (∀ x y : Int, Gathers s b 7 r → Completes (.dclkDuty b x y) s fun t => Gathered t b 7
      [heldFld F.bayCalBayDutyA b 0 (fitSigned 8 x), heldFld F.bayCalBayDutyB b 0 (fitSigned 8 y)])

/-- Runs (R437, R440, R441): a round trip with no return edge, and an abort, end the run with its cause and ABORTED; BAY_FULL goes on
with its next procedure, and is complete after the seventh; a complete run's values are written, and the bay is BUSY no more. -/
def CalibrationRuns : Prop :=
  ∀ (b : Nat) (r : CalRun) (s : State), b < 8 → s.calRun b = some r → Alone s (.bay b) →
    s.clearedNow (F.calStatusAborted.key 0 0) (F.calStatusAborted.lo + b) = false →
    (∀ c m, c = Instr.roundTripTimeout b ∨ (c = Instr.roundTrip b m ∧ 4095 * 1024 < m) → r.step = 4 → r.ready = false →
      r.done.contains 4 = false →
      Completes c s fun t => t.calRun b = none ∧ t.get F.calBayStatCause 0 b = 5
        ∧ testBit (t.get F.calStatusAborted) b = true ∧ testBit (t.get F.calStatusBusy) b = false)
    ∧ (∀ src, Completes (.calAbort (2 ^ b) src) s fun t => t.calRun b = none ∧ t.get F.calBayStatCause 0 b = 1
        ∧ testBit (t.get F.calStatusAborted) b = true ∧ testBit (t.get F.calStatusBusy) b = false)
    ∧ (r.proc = 0x0F → r.done.contains r.step = true → r.ready = false →
      Completes (.bayFull b) s fun t => ∃ x, t.calRun b = some x
        ∧ (if r.step = 7 then x = { r with ready := true } else x = { r with step := r.step + 1 }))
    ∧ (∀ x y, r.ready = true → r.proc = 7 → r.done = [7] → r.refDefault = none →
      r.held = [heldFld F.bayCalBayDutyA b 0 x, heldFld F.bayCalBayDutyB b 0 y] →
      Completes (.calDone b) s fun t => t.calRun b = none ∧ testBit (t.get F.calStatusBusy) b = false
        ∧ t.get F.bayCalBayDutyA b = x % 2 ^ 8 ∧ t.get F.bayCalBayDutyB b = y % 2 ^ 8)

/-- All that `CalibrationData` and `CalibrationRuns` say. -/
def Obligations.CalibrationProcedures : Prop := CalibrationData ∧ CalibrationRuns

/-- CAL_RUN (R41, R316, R438, R445): TIME_TRIM ends at once, refused while REF_LOST is set, else with CAPTURE the difference of ADDEND and NOMINAL where the selected domain is
LOCKED; an unknown procedure completes UNSUPPORTED; a refused start completes with its reason; an accepted start runs, and the bay is
BUSY. The procedure itself and the other measurements: TIME_TRIM, drift once 10 ms have passed, and the eyes of a port in EQUALISE, or after a second on an ACTIVE link that is
awake (R445, R451, R453). -/
def CalibrationStarts : Prop :=
  (∀ (q b p : Nat) (d : Desc) (tok : Token) (s t : State), s.beginCommand q 0x08 = some (d, tok, t) → p = bitsOf d.w1 8 8 →
      s.busMaster = true →
      (p = 0x10 → s.bit F.clkStatusRefLost = true → Completes (.cmdCalRun q) s fun u => WrittenBack s u q d 7 d.w1 0 0)
      ∧ (p = 0x10 → s.bit F.clkStatusRefLost = false → s.get F.domStatusState (s.get F.timeStatusSelected) = 2 →
        Completes (.cmdCalRun q) s fun u => WrittenBack s u q d 0 d.w1 0 0
          ∧ u.get F.calTimeTrimCapture = unsigned 32 ((s.get F.domAddendAddend (s.get F.timeStatusSelected) : Int)
              - s.get F.domNominalNominal (s.get F.timeStatusSelected)))
      ∧ (p ≠ 0x10 → calKnown p = false → Completes (.cmdCalRun q) s fun u => WrittenBack s u q d 1 d.w1 d.w2 d.w3)
      ∧ (calKnown p = true → b < 8 → bitsOf d.w1 0 8 = 2 ^ b → Alone s (.bay b) → s.calRun b = none →
        (s.calRefusal [b] ≠ 0 → Completes (.cmdCalRun q) s fun u => WrittenBack s u q d (s.calRefusal [b]) d.w1 d.w2 d.w3)
        ∧ (s.calRefusal [b] = 0 → Completes (.cmdCalRun q) s fun u => (u.calRun b).map (·.proc) = some p
            ∧ testBit (u.get F.calStatusBusy) b = true ∧ u.get F.calBayStatProc 0 b = p % 2 ^ F.calBayStatProc.width)))
  ∧ (∀ s : State, s.bit F.clkStatusRefLost = false → s.get F.domStatusState (s.get F.timeStatusSelected) = 2 →
      Completes .timeTrim s fun t => t.get F.calTimeTrimCapture
        = unsigned 32 ((s.get F.domAddendAddend (s.get F.timeStatusSelected) : Int)
            - s.get F.domNominalNominal (s.get F.timeStatusSelected)))
  ∧ (∀ s : State, s.cal.driftAt + 1500000 ≤ s.ticks →
      Completes .driftUpdate s fun t => t.cal.driftAt = s.ticks ∧ ∀ b < 8, t.get F.calBayStatDrift 0 b = unsigned 12 (s.drift b)
      ∧ t.get F.calBayStatTempWarn 0 b = if 20 < (s.drift b).natAbs then 1 else 0)
  ∧ (∀ (p : Nat) (eyes : BitVec 32) (s : State), s.get F.olupStatusState p = 3
        ∨ (s.linkActive p = true ∧ s.bit F.olupStatusRxAsleep p = false ∧ (s.portX p).eyeAt + 150000000 ≤ s.ticks) →
      Completes (.eyeMeasure p eyes) s fun t => t.get F.calOluEyeEye 0 p = eyes.toNat ∧ t.get F.calOluEyeValid 0 p = 1
        ∧ (t.portX p).eyeAt = s.ticks)

/-- The store (R446, R450): a commit takes its snapshot with the next GENERATION, or waits behind the one in progress; a commit that
ends well makes its bank the active one, a read-back mismatch leaves the active bank and sets STORE_FAIL. -/
def CalibrationStore : Prop :=
  (∀ s : State, s.cal.job = none → Completes .storeCommit s fun t => t.get F.calStatusStoreState = 1
      ∧ t.cal.job.map (·.gen) = some ((s.cal.bank.gen?.getD 0 + 1) % 2 ^ 32))
  ∧ (∀ s : State, s.cal.job.isSome = true → Completes .storeCommit s fun t => t.get F.calStatusStoreState = 2
      ∧ t.cal.job = s.cal.job ∧ t.cal.wait.isSome = true)
  ∧ (∀ (j : StoreJob) (s : State), s.cal.job = some j → s.cal.wait = none → s.cal.bank.gen?.getD 0 < 2 ^ 32 →
      j.gen = (s.cal.bank.gen?.getD 0 + 1) % 2 ^ 32 →
      Completes (.calStore true) s fun t => t.get F.calStatusStoreState = 0 ∧ t.cal.job = none
        ∧ t.cal.bank = .image j.gen j.stamp j.recs ∧ t.get F.calStatusGeneration = j.gen)
  ∧ (∀ (j : StoreJob) (s : State), s.cal.job = some j → s.cal.wait = none → Unclear s F.calStatusStoreFail 0 0 →
      Completes (.calStore false) s fun t => t.get F.calStatusStoreFail = 1 ∧ t.cal.job = none
        ∧ t.cal.active = s.cal.active ∧ t.cal.bank = s.cal.bank)

/-- All that `CalibrationStarts` and `CalibrationStore` say. -/
def Obligations.CalibrationStartsAndStore : Prop := CalibrationStarts ∧ CalibrationStore

/-! ### Reliability, reset, power and temperature (17_…) -/

/-- Block resets (R461, R462): a sequencer reset stops the sequencer with STOP_REASON 11 and no fault, RESETTING until it completes, 1,500 ticks on at the latest; a
bay reset brings every register of the bay to its reset value, its converter, engine and master to theirs, BAY_RESETTING until it
completes. -/
def BlockResets : Prop :=
  (∀ (q : Nat) (src : Src) (s : State), Alone s (.seq q) →
      Completes (.seqReset q src) s fun t => t.seqState q = 0 ∧ t.get F.seqStatusStopReason q = 11 ∧ t.get F.seqStatusFault q = 0
        ∧ t.get F.seqStatusResetting q = 1 ∧ (t.seqX q).levels = [] ∧ (t.seqX q).stack = [] ∧ (t.seqX q).acc = []
        ∧ unitAt 0 t.ras.resets q = s.ticks + 1500)
  ∧ (∀ (q : Nat) (s : State), s.get F.seqStatusResetting q = 1 →
      Completes (.seqResetDone q) s fun t => t.get F.seqStatusResetting q = 0 ∧ t.seqState q = s.seqState q)
  ∧ (∀ (b : Nat) (src : Src) (s : State), b < 8 → Alone s (.bay b) →
      Completes (.bayReset b src) s fun t => testBit (t.get F.rasStatusBayResetting) b = true
        ∧ (∀ k : RegKey, k.ofBay b = true → t.rd k = resetWord k) ∧ t.adc b = {} ∧ t.acq b = {} ∧ t.fe b = {}
        ∧ t.calRun b = none)
  ∧ (∀ (b n : Nat) (failed : List Nat) (s : State), b < 8 → testBit (s.get F.rasStatusBayResetting) b = true →
      Completes (.bayResetDone b n failed) s fun t => testBit (t.get F.rasStatusBayResetting) b = false
        ∧ t.get F.bayAdcStatSpareUsed b = (if 1 ≤ n then 1 else 0) ∧ t.get F.bayAdcStatDegraded b = (if 2 ≤ n then 1 else 0))

/-- A reset of the device that is performed (R460, R463 to R465): every sequencer STOPPED, HOST_READY 0, nothing in local DRAM, no
queue of the host, and LAST_RESET says which. -/
def WasReset (s t : State) (code : Nat) : Prop :=
  t.get F.rasStatusLastReset = code ∧ t.get F.rasStatusHostReady = 0 ∧ (∀ q < 4, t.seqState q = 0) ∧ t.mem = []
  ∧ t.host.rings = [] ∧ t.seqs = [] ∧ t.ras.halted = false ∧ t.pending = s.pending

/-- Device resets (R460, R463, R465): warm with its KEY, Function Level Reset, D3hot to D0 and PERST# reset a ready device; a warm
request without the KEY does nothing; power-on resets always; the end of initialisation sets HOST_READY. A reset keeps the fuses and,
with no commit in progress, the MRAM banks. -/
def DeviceResets : Prop :=
  (∀ (c : Instr) (code : Nat) (s : State), s.get F.rasStatusHostReady = 1 → s.ras.halted = false → s.host.fuseBlow = [] → s.cal.job = none →
      (c = .warm 0x5752 ∧ code = 2) ∨ (c = .functionLevelReset ∧ code = 3) ∨ (c = .d3hotToD0 ∧ code = 4) ∨ (c = .perst ∧ code = 1) →
      Completes c s fun t => WasReset s t code ∧ t.get F.rasStatusDebugLocked = s.get F.rasStatusDebugLocked
        ∧ t.cal.bankA = s.cal.bankA ∧ t.cal.bankB = s.cal.bankB)
  ∧ (∀ (key : Nat) (s : State), key ≠ 0x5752 → Completes (.warm key) s fun t => t = s)
  ∧ (∀ s : State, s.ras.halted = false → s.host.fuseBlow = [] → s.cal.job = none →
      Completes .powerOn s fun t => WasReset s t 0 ∧ t.get F.clkStatusRootLock = 0
        ∧ t.get F.rasStatusDebugLocked = s.get F.rasStatusDebugLocked ∧ t.cal.bankA = s.cal.bankA ∧ t.cal.bankB = s.cal.bankB)
  ∧ (∀ (slices failed : List Nat) (s : State), s.get F.rasStatusHostReady = 0 → s.ras.halted = false →
      Completes (.hostReady slices failed) s fun t => t.get F.rasStatusHostReady = 1 ∧ t.ras.doneDue = true)

/-- All that `BlockResets` and `DeviceResets` say. -/
def Obligations.Resets : Prop := BlockResets ∧ DeviceResets

/-- Faults and temperatures (R456, R467, R469 to R471, R474): a rail fault and a reading of 125 °C hold the device in reset with
THERMTRIP_N; a corrected memory error counts, an uncorrectable one counts and is logged, and a word of shared SRAM stays so until it is written; the sensors' readings, 10 µs after
the last, are TEMP; CLEAR of a
sensor makes PEAK its TEMP. -/
def Obligations.FaultsAndTemperatures : Prop :=
  (∀ (rail : Nat) (s : State), s.ras.halted = false →
      Completes (.railFault rail) s fun t => t.ras.halted = true ∧ t.get F.rasStatusLastReset = 5
        ∧ t.get F.rasStatusFaultRail = rail % 2 ^ F.rasStatusFaultRail.width ∧ t.get F.rasStatusHostReady = 0
        ∧ Output.thermtrip ∈ t.out)
  ∧ (∀ (i mem a : Nat) (s : State), Unclear s F.rasErrStatCeCount 0 0 → s.get F.rasErrStatCeCount + 1 < 2 ^ 32 →
      Completes (.rasUe 0 i mem a) s fun t => t.get F.rasErrStatCeCount = s.get F.rasErrStatCeCount + 1)
  ∧ (∀ (unit i mem a : Nat) (s : State), unit ≠ 0 → Unclear s F.rasErrStatUeCount 0 0 →
      Completes (.rasUe unit i mem a) s fun t => t.get F.rasErrStatUeCount = min 65535 (s.get F.rasErrStatUeCount + 1)
        ∧ t.get F.rasErrLogUnit = unit % 2 ^ F.rasErrLogUnit.width ∧ t.get F.rasErrLogIndex = i % 2 ^ F.rasErrLogIndex.width
        ∧ t.get F.rasErrLogMemory = mem % 2 ^ F.rasErrLogMemory.width
        ∧ t.get F.rasErrLogAddress = a % 2 ^ F.rasErrLogAddress.width ∧ t.get F.rasErrLogValid = 1)
  ∧ (∀ (i mem a : Nat) (s : State),
      Completes (.rasUe 7 i mem a) s fun t => sramBase / 4 + a % 2 ^ 19 ∈ t.disp.badWords)
  ∧ (∀ (l : List Int) (s : State), s.ras.halted = false → s.ras.sensedAt + 1500 ≤ s.ticks →
      ((∀ i < 16, l.getD i 0 < 500) → Completes (.tempUpdate l) s fun t =>
        (∀ i < 16, t.get F.thermTempTemp 0 i = unsigned 12 (clampInt (-2048) 2047 (l.getD i 0))) ∧ t.ras.halted = false)
      ∧ ((∃ i < 16, 500 ≤ l.getD i 0) → Completes (.tempUpdate l) s fun t => t.ras.halted = true ∧ Output.thermtrip ∈ t.out))
  ∧ (∀ (i : Nat) (s : State), Completes (.peakClear i) s fun t => t.get F.thermTempPeak 0 i = s.get F.thermTempTemp 0 i
      ∧ t.get F.thermTempTemp 0 i = s.get F.thermTempTemp 0 i)

/-! ### Front-end masters (18_…) -/

/-- Lists (R109, R488, R490, R491): a start of an idle master runs the list from its first word, one of a running master waits, and a
third, or one while the bay calibrates, is counted; an abort drops the queued list, and ends the list at once or after the word in
progress; a write of FE_LDATA stores the word, or is refused for the list that runs. -/
def FrontEndLists : Prop :=
  (∀ (b l : Nat) (s : State), testBit (s.get F.calStatusBusy) b = false →
      (s.feRuns b = false → Completes (.feStart b l) s fun t => t.feRuns b = true ∧ t.get F.bayFeStatList b = l % 64
        ∧ (t.fe b).word = 0 ∧ (t.fe b).at_ = 2 * (s.ticks + 1) ∧ (t.fe b).lists = (s.fe b).lists)
      ∧ (s.feRuns b = true → s.bit F.bayFeStatQueued b = false → Completes (.feStart b l) s fun t =>
          t.bit F.bayFeStatQueued b = true ∧ t.get F.bayFeStatQueuedList b = l % 64 ∧ t.fe b = s.fe b)
      ∧ (s.feRuns b = true → s.bit F.bayFeStatQueued b = true → Unclear s F.bayFeStatOverrun b 0 → Completes (.feStart b l) s fun t =>
          t.get F.bayFeStatOverrun b = min 65535 (s.get F.bayFeStatOverrun b + 1) ∧ t.fe b = s.fe b))
  ∧ (∀ (b l : Nat) (s : State), testBit (s.get F.calStatusBusy) b = true → Unclear s F.bayFeStatOverrun b 0 →
      Completes (.feStart b l) s fun t => t.get F.bayFeStatOverrun b = min 65535 (s.get F.bayFeStatOverrun b + 1) ∧ t.fe b = s.fe b)
  ∧ (∀ (b : Nat) (s : State), s.feRuns b = true →
      ((s.fe b).begun = true → Completes (.feAbort b) s fun t => t.bit F.bayFeStatQueued b = false ∧ (t.fe b).abort = true
          ∧ t.feRuns b = true)
      ∧ ((s.fe b).begun = false → (s.fe b).word < 32 → feOp (s.feWord b) ≠ 1 → Completes (.feAbort b) s fun t =>
          t.bit F.bayFeStatQueued b = false ∧ t.feRuns b = false))
  ∧ (∀ (b l w : Nat) (data : Word) (s : State), l = s.get F.bayFeLselList b → w = s.get F.bayFeLselWord b →
      (s.feListBusy b l = false → Completes (.feLdataWrite b data) s fun t =>
        unitAt 0 (t.fe b).lists (32 * l + w) = feStore data.toNat
          ∧ ∀ k, k ≠ 32 * l + w → unitAt 0 (t.fe b).lists k = unitAt 0 (s.fe b).lists k)
      ∧ (s.feListBusy b l = true → Unclear s F.bayFeStatListBusy b 0 → Completes (.feLdataWrite b data) s fun t =>
        t.get F.bayFeStatListBusy b = 1 ∧ t.fe b = s.fe b))

/-- The words of a running list (R487 to R489): a WRITE that is due is sent and stores what came in, and the next word follows; a
DELAY counts from its boundary and the next word follows its expiry; a WAITALERT goes on while the alert is low, waits otherwise, and
at its timeout the list ends; an END ends the list; the alert's fall is seen. -/
def FrontEndWords : Prop :=
  (∀ (b miso w : Nat) (s : State), w = s.feWord b → s.feDue b 1 = true → s.feWriteEnd b w < 2 * s.ticks + 2 → (s.fe b).abort = false →
      Completes (.feWrite b miso) s fun t => (t.fe b).word = (s.fe b).word + 1 ∧ (t.fe b).at_ = s.feWriteEnd b w
        ∧ t.out = s.out ++ [.spi b (w / 2 ^ 59 % 2)
            (if w / 2 ^ 59 % 2 = 0 then s.get F.bayFeCfgModeA b else s.get F.bayFeCfgModeB b) (s.feDiv b) (feBits w)
            (w % 2 ^ 48 % 2 ^ feBits w) (s.feEdge b w)]
        ∧ (testBit w 57 = true → feBits w ≤ 48 → t.get F.bayFeRxData b (w / 2 ^ 54 % 8) = miso % 2 ^ feBits w
            ∧ t.get F.bayFeRxValid b (w / 2 ^ 54 % 8) = 1))
  ∧ (∀ (b : Nat) (s : State), s.feDue b 2 = true →
      Completes (.feDelay b) s fun t => (t.fe b).begun = true
        ∧ (t.fe b).wait = some (((s.fe b).at_ + 1) / 2 + s.feWord b % 2 ^ 32) ∧ (t.fe b).word = (s.fe b).word)
  ∧ (∀ (b k : Nat) (s : State), (s.fe b).wait = some k → s.feRuns b = true → (s.fe b).begun = true → (s.fe b).abort = false →
      k ≤ s.ticks →
      (feOp (s.feWord b) = 2 → Completes (.feDelayExpiry b) s fun t => (t.fe b).word = (s.fe b).word + 1 ∧ (t.fe b).at_ = 2 * k
        ∧ (t.fe b).begun = false)
      ∧ (feOp (s.feWord b) = 3 → s.bit F.bayFeStatQueued b = false → Unclear s F.bayFeStatTimeout b 0 →
          Completes (.feTimeout b) s fun t => t.get F.bayFeStatTimeout b = 1 ∧ t.feRuns b = false))
  ∧ (∀ (b : Nat) (s : State), s.feDue b 3 = true → (s.fe b).at_ ≤ 2 * s.ticks → (s.fe b).abort = false →
      (s.bit F.bayFeStatAlert b = true → Completes (.waitalert b) s fun t => (t.fe b).word = (s.fe b).word + 1)
      ∧ (s.bit F.bayFeStatAlert b = false → Completes (.waitalert b) s fun t => (t.fe b).begun = true
          ∧ (t.fe b).wait = if s.feWord b % 2 ^ 32 = 0 then none else some (((s.fe b).at_ + 1) / 2 + s.feWord b % 2 ^ 32)))
  ∧ (∀ (b : Nat) (s : State), s.feDue b 0 = true ∨ (s.feRuns b = true ∧ 32 ≤ (s.fe b).word) →
      (s.bit F.bayFeStatQueued b = false → Completes (.feListEnd b) s fun t => t.feRuns b = false)
      ∧ (s.bit F.bayFeStatQueued b = true → Completes (.feListEnd b) s fun t => t.feRuns b = true
          ∧ t.get F.bayFeStatList b = s.get F.bayFeStatQueuedList b ∧ t.bit F.bayFeStatQueued b = false ∧ (t.fe b).word = 0))
  ∧ (∀ (b : Nat) (low fell : Bool) (s : State), s.feRuns b = false →
      Completes (.feAlert b low fell) s fun t => t.bit F.bayFeStatAlert b = low
        ∧ (fell = true → Unclear s F.bayFeStatAlertSeen b 0 → t.get F.bayFeStatAlertSeen b = 1))

/-- All that `FrontEndLists` and `FrontEndWords` say. -/
def Obligations.FrontEnd : Prop := FrontEndLists ∧ FrontEndWords
/-! ### Registers (R10 to R17, R297, R503, R507) -/

/-- The registers whose fields hold configuration or data and nothing else: none has an action bit or a W1C bit, and no rule
gives a write of one an effect beside what its fields then hold. -/
def plainRegs : List RegName :=
  [.globalGpioCfg, .globalGpioOut, .clkAlignLoad, .timePortLat, .timePortMac, .timePpsCfg, .timeRaisePeermask, .oluBcast,
   .oluBulkWin, .oluRoute, .oluBulkSrc, .oluBulkDst, .drmPrio, .drmScrub, .mchTimingA, .mchTimingB, .mchDlySel, .mchTrainAddr,
   .mchTrainPat, .pgtWinData, .pgtLookahead, .dispCtrl, .dispGpioRoute, .coreLoadAddr, .coreDramwin, .calBayCfg, .rasCtrl,
   .thermCfg, .bayDclkPeriod, .bayStaticMask, .bayAdcCfg, .bayAdcRatio, .bayAdcEnt, .bayAdcDelay, .bayAdcAccCfg,
   .bayAdcCoefSel, .bayAcqCfg, .bayAcqTime, .bayAcqCond, .bayTimCfg, .bayTimCount, .bayTimTime, .bayTimNotify, .bayFeCfg,
   .bayFeLsel, .seqEntry, .seqCondCtrl, .seqCondGfsel, .seqPegWatchdog, .seqLaunchDelay, .seqMatchCtrl, .seqBarrier,
   .seqTsSel, .seqMask, .seqFailstop, .seqFailGf, .seqResumeDelay, .seqStallCtrl, .seqNostallStart, .seqNostallEnd]

/-- The fields of register `k` after a write of `d` to it: a writable field holds the written value, clamped into its range (R16,
R17); a read-only field is as it was. -/
def HoldsFields (s t : State) (k : RegKey) (d : Word) : Prop :=
  ∀ f ∈ k.name.desc.fields, bitsOf (t.rd k) f.lo f.width =
    if f.access = .ro then bitsOf (s.rd k) f.lo f.width else f.clamp.apply f.width (bitsOf d f.lo f.width)

/-- The requester reaches registers at their offsets: host software through BAR0, or a core through its alias (R11, R327). -/
abbrev OnBar0 (r : Requester) : Prop := r ≠ .bar2 ∧ r ≠ .config

/-- A 64-bit register write of the host: a register of `plainRegs` holds the written fields, clamped, and nothing else changes
beside the host's held half. Before host-ready and where no register lies a write changes nothing beside the requester's held half; in
a bay that is in bay reset it is ignored, and its events are counted as discarded. A core's writes of CAL.REFPATH and CAL.TIME_TRIM are
ignored (R10, R16, R59, R296, R443, R444, R503). -/
def RegisterWrites : Prop :=
  (∀ (off : Nat) (k : RegKey) (d : Word) (s : State), s.hostReady = true → inMsix off = false → off % 8 = 0 → regAt off = some k →
      s.inBayReset k = false → k.name ∈ plainRegs →
      Completes (.registerWrite .host off 8 d) s fun t => HoldsFields s t k d ∧ (∀ j, j ≠ k → t.rd j = s.rd j)
        ∧ SameMemory s t ∧ t.out = s.out ∧ t.pending = s.pending)
  ∧ (∀ (r : Requester) (off bytes : Nat) (d : Word) (s : State), OnBar0 r → inMsix off = false →
      s.hostReady = false ∨ regAt off = none → off % 8 = 0 →
      Completes (.registerWrite r off bytes d) s fun t => ∃ h, t = s.setHalves r h)
  ∧ (∀ (off : Nat) (k : RegKey) (d : Word) (s : State), s.hostReady = true → inMsix off = false → off % 8 = 0 → regAt off = some k →
      s.inBayReset k = true →
      Completes (.registerWrite .host off 8 d) s fun t => ∃ h, t = (s.setHalves .host h).supersede (writeEvents .host off d).length)
  ∧ (∀ (c off : Nat) (k : RegKey) (hi : Word) (s : State), off % 8 = 0 → inMsix off = false → regAt off = some k →
      k.name = .calRefpath ∨ k.name = .calTimeTrim →
      Completes (.registerWrite (.core c) (off + 4) 4 hi) s fun t => ∃ h, t = s.setHalves (.core c) h)

/-- What a 64-bit register read of the host returns: the register's view once what else its boundary does is in place; zero before
host-ready, where no register lies, and of a bay in bay reset (R297, R503, R507). A read of a core leaves the host's halves, a read of
the host those of the cores (R11). -/
def RegisterReads : Prop :=
  ∀ (off : Nat) (s : State), off % 8 = 0 → inMsix off = false → inTest off = false →
    (∀ k, s.hostReady = true → regAt off = some k → s.inBayReset k = false →
      Completes (.registerRead .host off 8) s fun t => t.halvesHost.lastRead = s.lateActs.view k)
    ∧ (s.hostReady = false ∨ regAt off = none ∨ (∃ k, regAt off = some k ∧ s.inBayReset k = true) →
      Completes (.registerRead .host off 8) s fun t => t.halvesHost.lastRead = 0)
    ∧ (∀ (c bytes : Nat), Completes (.registerRead (.core c) off bytes) s fun t => t.halvesHost = s.halvesHost)
    ∧ (∀ (c bytes : Nat), Completes (.registerRead .host off bytes) s fun t => t.halvesOf (.core c) = s.halvesOf (.core c))

/-- The other windows of the host (R296, R298): a configuration access before host-ready is answered with Configuration Request Retry
Status and stores nothing; a read of BAR2 is zero; a write at offset 0 of page q of BAR2 is the doorbell of RING[q] with its lower 32
bits, and a write elsewhere in BAR2, or before host-ready, has no effect. -/
def OtherWindows : Prop :=
  ∀ (off bytes : Nat) (d : Word) (s : State),
    (s.hostReady = false → Completes (.registerRead .config off bytes) s (fun t => t = s.emit .configRetry)
      ∧ Completes (.registerWrite .config off bytes d) s fun t => t = s.emit .configRetry)
    ∧ Completes (.registerRead .bar2 off bytes) s (fun t => t.halvesHost.lastRead = 0 ∧ t = { s with halvesHost := t.halvesHost })
    ∧ (s.hostReady = true → off % 4096 = 0 → off / 4096 < 64 → bytes = 4 ∨ bytes = 8 →
        exec (.registerWrite .bar2 off bytes d) s = exec (.doorbell (off / 4096) (BitVec.ofNat 32 (bitsOf d 0 32))) s)
    ∧ (s.hostReady = false ∨ off % 4096 ≠ 0 ∨ 64 ≤ off / 4096 → Completes (.registerWrite .bar2 off bytes d) s fun t => t = s)

/-- All that `RegisterWrites`, `RegisterReads` and `OtherWindows` say. -/
def Obligations.RegisterAccesses : Prop := RegisterWrites ∧ RegisterReads ∧ OtherWindows

/-- 32-bit and 64-bit accesses (R10, R11), at the offset of a register: a 64-bit write writes a register of `plainRegs` whole, a 64-bit
read returns it whole; a lower half written is held, and with the next upper half acts as one 64-bit write; a lower half read
captures the upper half, which the next read of the upper half returns, whatever changed in between; any other access — for a core,
also every one that is not of 32 bits — changes nothing beside the requester's halves, drops what they held and captured, and reads
zero. -/
def Obligations.HalfAccesses : Prop :=
  (∀ (off : Nat) (s : State), off % 8 = 0 → inMsix off = false → s.hostReady = true →
    (∀ k, regAt off = some k → s.inBayReset k = false →
      (inTest off = false → Completes (.registerRead .host off 8) s fun t => t.halvesHost.lastRead = s.lateActs.view k)
      ∧ (k.name ∈ plainRegs → ∀ d, Completes (.registerWrite .host off 8 d) s fun t => HoldsFields s t k d)
      ∧ (inTest off = false → ∀ r, OnBar0 r → Completes (.registerRead r off 4) s fun t =>
          (t.halvesOf r).lastRead = BitVec.ofNat 64 (bitsOf (s.lateActs.view k) 0 32)
          ∧ ∀ v : State, v.halvesOf r = t.halvesOf r → v.hostReady = true →
            Completes (.registerRead r (off + 4) 4) v fun w =>
              (w.halvesOf r).lastRead = BitVec.ofNat 64 (bitsOf (s.lateActs.view k) 32 32)))
    ∧ (∀ (r : Requester) (lo : Word), OnBar0 r → Completes (.registerWrite r off 4 lo) s fun t => (∃ h, t = s.setHalves r h)
        ∧ ∀ hi d : Word, d = BitVec.ofNat 64 (bitsOf lo 0 32 + bitsOf hi 0 32 * 2 ^ 32) →
          (r = .host → exec (.registerWrite .host (off + 4) 4 hi) t = exec (.registerWrite .host off 8 d) s)
          ∧ exec (.registerWrite r (off + 4) 4 hi) t
            = .next ((s.setHalves r { (s.halvesOf r) with held := none }).writeAt r off d)))
  ∧ (∀ (r : Requester) (off bytes : Nat) (d : Word) (s : State), OnBar0 r →
      aligned off bytes = false ∨ (fromHost r = false ∧ bytes ≠ 4) →
    Completes (.registerWrite r off bytes d) s (fun t => ∃ h, t = s.setHalves r h ∧ h.held = none)
    ∧ Completes (.registerRead r off bytes) s fun t =>
        ∃ h, t = s.setHalves r h ∧ h.captured = none ∧ (t.halvesOf r).lastRead = 0)

/-- A W1C clear (R12, R13): each W1C bit of the register that is written 1 reads 0, unless a reset of its block discards the clear,
and a set of it by hardware in this tick is lost; every other bit of the register, and every other register but CLK.PREC_STATS, which
counts the events that are discarded, is as it was. Before host-ready and where no register lies it has no effect; in a bay that is in
bay reset its events are counted as discarded. -/
def Obligations.W1cClears : Prop :=
  ∀ (off : Nat) (bits : Word) (s : State),
    (∀ k, regAt off = some k → s.hostReady = true → s.inBayReset k = false →
      Completes (.w1cClear off bits) s fun t =>
        (∀ n < 64, ClearActs s k n → testBit (t.rd k).toNat n =
          (testBit (s.rd k).toNat n && !(testBit bits.toNat n && w1cAt k.name.desc.fields n)))
        ∧ (∀ n < 64, testBit bits.toNat n = false ∨ w1cAt k.name.desc.fields n = false ∨ ¬ ClearActs s k n →
          testBit (t.rd k).toNat n = testBit (s.rd k).toNat n)
        ∧ (∀ n < 64, testBit bits.toNat n = true → w1cAt k.name.desc.fields n = true → ClearActs s k n → t.clearedNow k n = true)
        ∧ (∀ j, j ≠ k → j.name ≠ .clkPrecStats → t.rd j = s.rd j) ∧ SameMemory s t ∧ t.out = s.out)
    ∧ (regAt off = none ∨ s.hostReady = false → Completes (.w1cClear off bits) s fun t => t = s)
    ∧ (∀ k, regAt off = some k → s.hostReady = true → s.inBayReset k = true →
      Completes (.w1cClear off bits) s fun t => t = s.supersede (Instr.events (.w1cClear off bits)).length)
/-! ### Frames: what a command can change -/

/-- The registers that a posted event record changes: the counts of HIF.EVENT_STAT, and the index and status of the event rings
(R324). -/
def posts : List RegName := [.hifEventStat, .ringIndex, .ringStatus]

/-- A part of the state beside the registers and the queue. -/
inductive StatePart
  | ticks
  | events
  | startOfTick
  | halvesHost
  | halvesCore
  | out
  | free
  | mem
  | time
  | olu
  | host
  | disp
  | gfPrev
  | seqs
  | bars
  | chans
  | stores
  | logs
  | logTurn
  | dclks
  | dram
  | site
  | page
  | fes
  | adcs
  | acqs
  | tims
  | cal
  | ras
  | clk
deriving DecidableEq, Repr

/-- The part is as it was. -/
def StatePart.Same (s t : State) : StatePart → Prop
  | .ticks => t.ticks = s.ticks
  | .events => t.events = s.events
  | .startOfTick => t.startOfTick = s.startOfTick
  | .halvesHost => t.halvesHost = s.halvesHost
  | .halvesCore => t.halvesCore = s.halvesCore
  | .out => t.out = s.out
  | .free => t.free = s.free
  | .mem => t.mem = s.mem
  | .time => t.time = s.time
  | .olu => t.olu = s.olu
  | .host => t.host = s.host
  | .disp => t.disp = s.disp
  | .gfPrev => t.gfPrev = s.gfPrev
  | .seqs => t.seqs = s.seqs
  | .bars => t.bars = s.bars
  | .chans => t.chans = s.chans
  | .stores => t.stores = s.stores
  | .logs => t.logs = s.logs
  | .logTurn => t.logTurn = s.logTurn
  | .dclks => t.dclks = s.dclks
  | .dram => t.dram = s.dram
  | .site => t.site = s.site
  | .page => t.page = s.page
  | .fes => t.fes = s.fes
  | .adcs => t.adcs = s.adcs
  | .acqs => t.acqs = s.acqs
  | .tims => t.tims = s.tims
  | .cal => t.cal = s.cal
  | .ras => t.ras = s.ras
  | .clk => t.clk = s.clk

/-- The registers, by name, and the other parts of the state that a command can change; none for the commands that can change all
of it (a register write or a W1C clear of any register, the resets, power, and what ends in a reset or a calibrated store). -/
def footprint : Instr → Option (List RegName × List StatePart)
  | .baymapCommit .. =>
    some ([.globalBaymap, .globalBaymapStatus, .clkPrecStats], [.events])
  | .refclkDropout .. =>
    some ([.clkStatus, .clkRefmon, .clkPrecStats], [.events, .clk])
  | .refLost =>
    some (posts ++ [.clkStatus, .clkRefmon, .clkPrecStats, .timeCtrl, .timeStatus, .domAddend, .domGain, .domStatus,
      .olupErrStat, .calStatus, .calBayStat, .bayCmpStat, .bayCalQual, .bayAdcQual, .seqStatus, .seqFaultInfo, .seqFaultCycle,
      .seqTsCtrl, .seqTsDirty, .seqFfseq, .seqFfsite, .seqLogStat, .seqCapStat, .seqUnderrun, .seqUnderrunInfo, .sitekStatus],
      [.events, .out, .time, .olu, .host, .seqs, .chans, .stores, .logs, .dclks, .site, .page, .adcs, .tims, .cal, .clk])
  | .refRestored .. =>
    some (posts ++ [.clkStatus, .clkPrecStats], [.events, .out, .host, .clk])
  | .rootLock =>
    some ([.clkStatus], [.clk])
  | .refmonClear =>
    some ([.clkRefmon, .clkPrecStats], [.events])
  | .alignArm .. =>
    some ([.clkStatus, .clkAlign, .clkAlignResult, .clkPrecStats], [.events, .clk])
  | .alignDisarm .. | .syncCapture =>
    some ([.clkStatus, .clkPrecStats], [.events, .clk])
  | .syncDrive =>
    some ([], [.out, .clk])
  | .alignmentEdge .. =>
    some (posts ++ [.clkStatus, .clkEtcount, .clkAlignResult, .clkPrecStats, .timeCtrl, .timeStatus, .domAddend, .domGain,
      .domStatus, .oluGflags, .oluBulkCtrl, .olupErrStat, .drmInfo, .mchEccStat, .mchEccAddr, .pgtStatus, .dispCoreStat,
      .dispFlowStat, .dispThrCfg, .dispThrState, .dispThrWait, .bayEdgeStat, .bayCmpStat, .bayAdcStat, .bayAdcCounts,
      .bayAcqPtr, .bayAcqStat, .bayAcqCounts, .bayTimStat, .bayFeStat, .seqStatus, .seqFaultInfo, .seqFaultCycle, .seqTsCtrl,
      .seqTsDirty, .seqFfseq, .seqFfsite, .seqLogStat, .seqCapStat, .seqUnderrun, .seqUnderrunInfo, .seqStallTime,
      .sitekStatus], [.ticks, .events, .startOfTick, .out, .mem, .time, .olu, .host, .disp, .gfPrev, .seqs, .bars, .chans,
      .stores, .logs, .dclks, .dram, .site, .page, .fes, .adcs, .acqs, .tims, .clk])
  | .precStatsClear =>
    some ([.clkPrecStats], [.events])
  | .gpioEdge .. =>
    some (posts ++ [.globalGpioIn, .clkPrecStats, .drmInfo, .dispThrState, .bayAdcStat, .bayAdcCounts, .bayAcqPtr,
      .bayAcqStat, .bayAcqCounts], [.events, .out, .mem, .host, .disp, .dram, .adcs, .acqs])
  | .seqStart .. =>
    some (posts ++ [.clkPrecStats, .drmInfo, .seqStatus, .seqCycle, .seqLflags, .seqTsCtrl, .seqSiteFail, .sitekStatus,
      .sitekResult], [.events, .out, .host, .seqs, .chans, .stores, .logs, .dclks, .site, .ras])
  | .seqResume .. =>
    some ([.clkPrecStats, .seqStatus], [.events, .seqs, .chans, .page])
  | .pauseRequest .. | .abort .. | .park .. | .stallLimit .. | .cmdAbort .. =>
    some (posts ++ [.clkPrecStats, .bayCmpStat, .seqStatus, .seqFaultInfo, .seqFaultCycle, .seqTsCtrl, .seqTsDirty, .seqFfseq,
      .seqFfsite, .seqLogStat, .seqCapStat, .seqUnderrun, .seqUnderrunInfo, .sitekStatus], [.events, .out, .host, .seqs,
      .chans, .stores, .logs, .dclks, .site, .page, .adcs])
  | .faultClear .. =>
    some ([.clkPrecStats, .seqStatus], [.events])
  | .nopRec .. | .loopRec .. | .repeatRec .. | .callRec .. | .ret .. | .jump .. | .jumpif .. | .matchRec ..
  | .waitraise .. | .barrier .. | .trigger .. | .measure .. | .timarm .. | .feapply .. | .pagehint .. | .stopiffail ..
  | .halt .. | .endRec .. =>
    some (posts ++ [.clkPrecStats, .bayCmpStat, .seqStatus, .seqFaultInfo, .seqFaultCycle, .seqCycle, .seqPosition,
      .seqTsCtrl, .seqTsDirty, .seqFfseq, .seqFfsite, .seqLogStat, .seqCapStat, .seqUnderrun, .seqUnderrunInfo,
      .seqUnderrunCycle, .seqLcacheStat, .sitekStatus], [.events, .out, .host, .seqs, .chans, .stores, .logs, .dclks, .site,
      .page, .adcs])
  | .endloop .. | .flagset .. | .flagclr .. =>
    some (posts ++ [.clkPrecStats, .bayCmpStat, .seqStatus, .seqFaultInfo, .seqFaultCycle, .seqCycle, .seqPosition,
      .seqLflags, .seqTsCtrl, .seqTsDirty, .seqFfseq, .seqFfsite, .seqLogStat, .seqCapStat, .seqUnderrun, .seqUnderrunInfo,
      .seqUnderrunCycle, .seqLcacheStat, .sitekStatus], [.events, .out, .host, .seqs, .chans, .stores, .logs, .dclks, .site,
      .page, .adcs])
  | .edgeApply .. =>
    some ([.clkPrecStats, .bayEdgeStat, .bayCmpStat, .seqFfseq, .seqFfsite, .seqLogStat, .seqCapStat], [.events, .out, .seqs,
      .chans, .logs])
  | .compareResult .. =>
    some ([.clkPrecStats, .bayFailCount, .seqSiteFail, .seqFfseq, .seqFfsite, .seqLogStat, .seqCapStat, .sitekStatus],
      [.events, .seqs, .chans, .logs, .site, .acqs])
  | .pegWatchdog .. | .stallResume .. =>
    some ([], [.seqs])
  | .holdTimeout .. =>
    some ([.clkPrecStats, .seqStatus, .seqLflags], [.events, .seqs])
  | .barrierRelease .. =>
    some ([.seqBarrier], [.seqs, .bars])
  | .tableCommit .. | .cmdCommitAtPeg .. =>
    some (posts ++ [.clkPrecStats, .calStatus, .calBayStat, .bayCalQual, .bayAdcQual, .seqTsCtrl, .seqTsDirty], [.events,
      .out, .host, .seqs, .chans, .stores, .cal])
  | .dclkStart .. | .dclkDisable .. | .frequencyCommit .. =>
    some ([.clkPrecStats], [.events, .dclks])
  | .edgeStatClear .. =>
    some ([.clkPrecStats, .bayEdgeStat], [.events])
  | .failSnap .. =>
    some ([.bayFailSnap, .bayFailShadow], [])
  | .failCountClear .. =>
    some ([.clkPrecStats, .bayFailCount], [.events])
  | .cmpStatClear .. =>
    some ([.clkPrecStats, .bayCmpStat], [.events])
  | .logWrite =>
    some (posts ++ [.clkPrecStats, .drmInfo, .seqLogPtr, .seqLogStat], [.events, .out, .mem, .host, .logs, .logTurn, .dram])
  | .mirror .. =>
    some (posts ++ [.clkPrecStats, .bayAcqPtr, .seqLogPtr, .seqCapPtr], [.events, .out, .host, .logs, .acqs])
  | .logCfgWrite .. =>
    some ([.seqLogCfg, .seqLogPtr], [.host, .logs])
  | .logStatClear .. =>
    some ([.clkPrecStats, .seqLogStat], [.events])
  | .captureBlockWrite .. =>
    some (posts ++ [.clkPrecStats, .drmInfo, .seqCapPtr], [.events, .out, .mem, .host, .logs, .dram])
  | .capCfgWrite .. =>
    some ([.seqCapCfg, .seqCapPtr], [.host, .logs])
  | .capStatClear .. =>
    some ([.clkPrecStats, .seqCapStat], [.events])
  | .rebuild =>
    some (posts ++ [.clkPrecStats, .pgtStatus], [.events, .out, .host, .page])
  | .rebuildDone =>
    some ([.pgtStatus], [])
  | .winRead .. =>
    some ([.pgtWinData], [])
  | .winWrite .. | .cmdPageMap .. =>
    some (posts ++ [.clkPrecStats, .pgtWinCmd], [.events, .out, .host, .seqs, .page])
  | .loadStart =>
    some ([.clkPrecStats, .pgtStatus, .pgtLoadStat], [.events, .out, .page])
  | .loadComplete .. =>
    some (posts ++ [.clkPrecStats, .drmInfo, .pgtLoadStat, .pgtErrStat], [.events, .out, .mem, .host, .dram, .page])
  | .lookahead .. =>
    some ([], [.seqs, .page])
  | .prefetchFill .. =>
    some (posts ++ [.clkPrecStats, .drmInfo, .drmPanic, .mchDlyApply, .mchEccStat, .mchEccAddr, .seqLcacheStat], [.events,
      .out, .host, .seqs, .dram, .page])
  | .underrunClear .. =>
    some ([.clkPrecStats, .seqUnderrun], [.events])
  | .stallTimeClear .. =>
    some ([.clkPrecStats, .seqStallTime], [.events])
  | .lcacheStatClear .. =>
    some ([.clkPrecStats, .seqLcacheStat], [.events])
  | .loadStatClear =>
    some ([.clkPrecStats, .pgtLoadStat], [.events])
  | .pgtErrStatClear =>
    some ([.clkPrecStats, .pgtErrStat], [.events])
  | .siteCommit =>
    some ([.clkPrecStats, .siteStatus, .siteDirty, .siteEpoch], [.events, .site])
  | .retire .. =>
    some ([.sitekCtrl, .sitekStatus], [.chans, .site])
  | .siteEnd .. =>
    some (posts ++ [.clkPrecStats, .dispThrState, .sitekResult], [.events, .out, .host, .disp, .site])
  | .sampleOffset .. =>
    some ([.clkPrecStats, .domStatus], [.events, .time])
  | .domainStep .. | .intClear .. | .domainSwitch .. =>
    some ([], [.time])
  | .servoHoldover .. | .timeportRx .. =>
    some (posts ++ [.clkPrecStats, .timeCtrl, .timeStatus, .domAddend, .domGain, .domStatus, .olupErrStat], [.events, .out,
      .time, .olu, .host])
  | .rejectCountClear .. =>
    some ([.clkPrecStats, .domStatus], [.events])
  | .latch .. =>
    some ([.timeSnapSec, .timeSnapNs], [])
  | .checkMessageSend | .etcheckSend .. | .crcErr .. =>
    some ([.clkPrecStats, .olupErrStat], [.events, .olu])
  | .lockstepLost =>
    some ([.clkPrecStats, .timeStatus, .domStatus], [.events, .time])
  | .ppsOut =>
    some ([.clkPrecStats, .timeCtrl, .timeStatus, .domAddend, .domGain, .domStatus, .olupErrStat], [.events, .out, .time,
      .olu])
  | .ppsIn .. =>
    some (posts ++ [.clkPrecStats, .timeCtrl, .timeStatus, .timePpsInSec, .timePpsInNs, .domAddend, .domGain, .domStatus,
      .olupErrStat], [.events, .out, .time, .olu, .host])
  | .raiseFire .. =>
    some (posts ++ [.clkPrecStats, .timeStatus, .timeRaiseNs, .drmInfo, .seqStatus, .seqCycle, .seqLflags, .seqTsCtrl,
      .seqSiteFail, .sitekStatus, .sitekResult], [.events, .out, .host, .seqs, .chans, .stores, .logs, .dclks, .site, .page,
      .ras])
  | .oluEnable .. =>
    some ([.olupCtrl, .olupStatus], [.olu])
  | .oluDisable .. =>
    some (posts ++ [.clkPrecStats, .oluBulkCtrl, .olupCtrl, .olupStatus, .olupErrStat], [.events, .out, .olu, .host])
  | .retrain .. | .linkDown .. | .retryTimeout .. =>
    some ([.clkPrecStats, .olupStatus, .olupErrStat], [.events, .olu])
  | .trainingAttempt .. =>
    some ([.olupStatus], [.olu])
  | .trainingFail .. | .bulkDone .. =>
    some (posts ++ [.clkPrecStats, .oluBulkCtrl, .olupStatus, .olupErrStat], [.events, .out, .olu, .host])
  | .linkUp .. =>
    some (posts ++ [.clkPrecStats, .oluBulkCtrl, .olupStatus, .olupErrStat, .calOluEye], [.events, .out, .free, .olu, .host])
  | .linkFrame .. | .bulkStart .. | .forwarding .. =>
    some (posts ++ [.clkPrecStats, .olupStatus, .olupErrStat], [.events, .out, .olu, .host])
  | .flagMsg .. =>
    some (posts ++ [.clkPrecStats, .oluGflags, .olupStatus, .olupErrStat, .seqBarrier], [.events, .out, .olu, .host, .bars])
  | .raiseMsg .. =>
    some (posts ++ [.clkPrecStats, .timeStatus, .timeRaiseSec, .timeRaiseNs, .olupStatus, .olupErrStat], [.events, .out, .olu,
      .host])
  | .mailMsg .. =>
    some (posts ++ [.clkPrecStats, .olupStatus, .olupErrStat, .dispThrState, .coreMailIdx], [.events, .out, .olu, .host,
      .disp])
  | .bulkData .. =>
    some (posts ++ [.clkPrecStats, .olupStatus, .olupErrStat, .drmInfo], [.events, .out, .mem, .olu, .host, .dram])
  | .etcheck .. =>
    some (posts ++ [.clkPrecStats, .olupStatus, .olupErrStat, .olupTickchk], [.events, .out, .olu, .host])
  | .changeMsg .. | .checkMsg .. =>
    some (posts ++ [.clkPrecStats, .timeCtrl, .timeStatus, .domAddend, .domGain, .domStatus, .olupStatus, .olupErrStat],
      [.events, .out, .time, .olu, .host])
  | .directionSleep .. =>
    some ([.olupStatus], [.out, .olu])
  | .directionWake .. =>
    some ([.clkPrecStats, .olupStatus, .olupErrStat], [.events, .out, .olu])
  | .gfSet .. | .gfClear .. =>
    some ([.clkPrecStats, .oluGflags], [.events, .olu])
  | .gfReset .. =>
    some ([.oluGflags], [.events, .olu])
  | .bulkGo .. =>
    some (posts ++ [.clkPrecStats, .oluBulkCtrl, .olupErrStat], [.events, .out, .olu, .host])
  | .oluErrStatClear .. =>
    some ([.clkPrecStats, .olupErrStat], [.events])
  | .doorbell .. | .ringDisable .. | .dmaError .. | .completionRecord .. | .cmdNop .. | .cmdTableLoad .. | .fuseArm ..
  | .fuseConfirm .. | .cmdBarrier .. | .unsupportedOpcode .. =>
    some (posts ++ [.clkPrecStats], [.events, .out, .host])
  | .ringEnable .. =>
    some (posts ++ [.clkPrecStats], [.events, .out, .host, .ras])
  | .ringReset .. | .calAbort .. =>
    some (posts ++ [.clkPrecStats, .calStatus, .calBayStat, .bayCalQual, .bayAdcQual], [.events, .out, .host, .chans, .cal])
  | .descriptorRead .. | .ringInterrupt .. | .timerxDescriptor .. =>
    some ([], [.host])
  | .tableLoadData .. =>
    some (posts ++ [.clkPrecStats, .seqTsDirty, .seqMask, .siteDirty], [.events, .out, .host, .stores, .site, .fes])
  | .cmdStreamPage .. | .streamDescriptor .. =>
    some (posts ++ [.clkPrecStats], [.events, .out, .host, .seqs, .page])
  | .cmdRaise .. =>
    some (posts ++ [.clkPrecStats, .timeStatus, .timeRaiseSec, .timeRaiseNs, .olupErrStat], [.events, .out, .olu, .host])
  | .cmdSiteSet .. =>
    some (posts ++ [.clkPrecStats, .siteStatus, .siteDirty, .siteEpoch], [.events, .out, .host, .site])
  | .cmdCalRun .. =>
    some (posts ++ [.clkPrecStats, .drmInfo, .calStatus, .calBayStat, .calTimeTrim, .bayAdcStat, .bayAdcResSum,
      .bayAdcUrgentRes, .bayAcqPtr, .bayAcqStat, .bayAcqCounts, .bayTimStat, .bayFeStat, .bayCalQual, .bayAdcQual], [.events,
      .out, .mem, .host, .chans, .dclks, .dram, .fes, .adcs, .acqs, .tims, .cal])
  | .cmdCountersRead .. =>
    some (posts ++ [.clkPrecStats, .bayFailCount, .bayFailSnap, .bayFailShadow], [.events, .out, .host])
  | .fuseLocked =>
    some (posts ++ [.clkPrecStats, .rasStatus], [.events, .out, .host])
  | .cmdMail .. | .mailDescriptor .. =>
    some (posts ++ [.clkPrecStats, .olupErrStat, .dispThrState, .coreMailIdx], [.events, .out, .olu, .host, .disp])
  | .timetxDescriptor .. =>
    some (posts ++ [.clkPrecStats], [.events, .out, .free, .time, .host])
  | .eventStatClear =>
    some ([.clkPrecStats, .hifEventStat], [.events])
  | .ringStatusClear .. =>
    some ([.clkPrecStats, .ringStatus], [.events])
  | .coreRun .. =>
    some ([.dispCoreStat, .dispThrState, .coreCtrl, .coreStatus], [.disp])
  | .firmwareLoad .. =>
    some ([.coreLoadCtrl], [.out])
  | .loadDone .. =>
    some (posts ++ [.clkPrecStats, .coreLoadCtrl], [.events, .out, .host, .disp])
  | .makeready .. | .cancel .. | .setflags .. | .clrflags .. | .slotReset .. | .setwait .. | .waitOp .. | .yield ..
  | .switch .. | .takeflags .. | .submit .. | .take .. | .release .. | .sendmail .. =>
    some ([.clkPrecStats, .olupErrStat, .dispCoreStat, .dispFlowStat, .dispThrCfg, .dispThrState, .coreStatus, .coreMailIdx],
      [.events, .olu, .disp])
  | .waitTimeout .. =>
    some ([.clkPrecStats, .dispThrState], [.events, .disp])
  | .sliceEnd .. | .loadWindow =>
    some ([.dispCoreStat], [.disp])
  | .thrCfgWrite .. =>
    some ([.dispThrCfg], [.disp])
  | .flowOutput .. =>
    some (posts ++ [.clkPrecStats, .olupErrStat, .dispFlowStat], [.events, .out, .olu, .host, .disp])
  | .flowEnable .. =>
    some ([.dispFlowCfg], [.host])
  | .flowDisable .. =>
    some ([.clkPrecStats, .dispFlowCfg], [.events, .host])
  | .flowReset .. =>
    some ([.clkPrecStats, .dispFlowStat], [.events, .host, .disp])
  | .flowStatClear .. =>
    some ([.clkPrecStats, .dispFlowStat], [.events])
  | .thrWaitClear .. =>
    some ([.clkPrecStats, .dispThrWait], [.events])
  | .mailNorouteClear =>
    some ([.clkPrecStats, .coreStatus], [.events])
  | .inboxWrite =>
    some (posts ++ [.clkPrecStats, .dispThrState, .coreMailIdx], [.events, .out, .olu, .host, .disp])
  | .adcOutput .. =>
    some (posts ++ [.clkPrecStats, .drmInfo, .dispThrState, .bayAdcStat, .bayAdcCounts, .bayAdcWin, .bayAdcWinOpen,
      .bayAdcWinClose, .bayAdcResSum, .bayAdcResCnt, .bayAdcResMinmax, .bayAdcUrgentRes, .bayAdcUrgentMm, .bayAcqPtr,
      .bayAcqStat, .bayAcqCounts], [.events, .out, .free, .mem, .host, .disp, .dram, .adcs, .acqs])
  | .sequenceTrigger .. | .urgentRequest .. =>
    some (posts ++ [.clkPrecStats, .drmInfo, .bayAdcStat, .bayAdcCounts, .bayAcqPtr, .bayAcqStat, .bayAcqCounts], [.events,
      .out, .mem, .host, .dram, .adcs, .acqs])
  | .adcStop .. | .urgentCancel .. =>
    some (posts ++ [.clkPrecStats, .drmInfo, .bayAdcStat, .bayAcqPtr, .bayAcqStat, .bayAcqCounts], [.events, .out, .mem,
      .host, .dram, .adcs, .acqs])
  | .accClear .. =>
    some ([.clkPrecStats], [.events, .adcs])
  | .sequenceCommit .. =>
    some (posts ++ [.clkPrecStats, .drmInfo, .calStatus, .calBayStat, .bayAdcStat, .bayAcqPtr, .bayAcqStat, .bayAcqCounts,
      .bayCalQual, .bayAdcQual], [.events, .out, .mem, .host, .chans, .dram, .adcs, .acqs, .cal])
  | .bankRequest .. | .refReady .. =>
    some ([.bayAdcStat], [.adcs])
  | .coefWrite .. =>
    some ([.clkPrecStats, .bayAdcStat, .bayAdcCoefSel], [.events, .adcs])
  | .sliceRotation .. =>
    some (posts ++ [.clkPrecStats, .bayAdcStat], [.events, .out, .host])
  | .adcWindow .. =>
    some (posts ++ [.clkPrecStats, .dispThrState, .bayAdcWin, .bayAdcWinOpen, .bayAdcWinClose, .bayAdcResSum, .bayAdcResCnt,
      .bayAdcResMinmax], [.events, .out, .host, .disp, .adcs])
  | .adcCountsClear .. =>
    some ([.clkPrecStats, .bayAdcCounts], [.events])
  | .rearm .. | .acqStop .. =>
    some (posts ++ [.clkPrecStats, .drmInfo, .bayAcqPtr, .bayAcqStat, .bayAcqCounts], [.events, .out, .mem, .host, .dram,
      .acqs])
  | .force .. | .autoTrigger .. | .pinEvent .. =>
    some ([.clkPrecStats, .bayAcqCounts], [.events, .acqs])
  | .holdoffEnd .. =>
    some ([.bayAcqStat], [.acqs])
  | .acqCountsClear .. =>
    some ([.clkPrecStats, .bayAcqCounts], [.events])
  | .acqRingWrite .. =>
    some ([.bayAcqRing, .bayAcqPtr], [.host, .acqs])
  | .timArm .. =>
    some ([.clkPrecStats, .bayTimStat], [.events, .tims])
  | .timDisarm .. | .timTimeout .. =>
    some (posts ++ [.clkPrecStats, .drmInfo, .dispThrState, .bayAcqPtr, .bayAcqStat, .bayTimResult, .bayTimAux, .bayTimStat],
      [.events, .out, .free, .mem, .host, .disp, .dram, .acqs, .tims])
  | .timResultClear .. =>
    some ([.clkPrecStats, .bayTimResult, .bayTimAux, .bayTimStat], [.events])
  | .timEdge .. =>
    some ([.clkPrecStats, .bayTimAux, .bayTimStat], [.events, .seqs, .tims])
  | .timComplete .. =>
    some (posts ++ [.clkPrecStats, .dispThrState, .bayTimResult, .bayTimAux, .bayTimStat], [.events, .out, .free, .host,
      .disp, .tims])
  | .seriesEntry .. =>
    some (posts ++ [.clkPrecStats, .drmInfo, .bayAcqPtr, .bayAcqStat, .bayTimAux, .bayTimStat], [.events, .out, .mem, .host,
      .dram, .acqs, .tims])
  | .timStatClear .. =>
    some ([.clkPrecStats, .bayTimStat], [.events])
  | .dramEnable =>
    some ([.drmCtrl, .drmInfo], [])
  | .dramInitDone =>
    some ([.drmInfo, .mchCtrl], [.dram])
  | .dramDisable =>
    some ([.clkPrecStats, .drmCtrl, .drmInfo, .drmPanic, .mchDlyApply], [.events, .out, .mem, .seqs, .dram, .page])
  | .train .. =>
    some ([.clkPrecStats, .drmInfo, .mchCtrl], [.events])
  | .apply .. | .refresh .. =>
    some ([.mchDlyApply], [.dram])
  | .mrw .. =>
    some ([.mchTrainRes], [.dram])
  | .mrr .. | .wlevel .. =>
    some ([.mchTrainRes], [])
  | .readCmp .. =>
    some (posts ++ [.clkPrecStats, .drmInfo, .mchTrainRes], [.events, .out, .host, .dram])
  | .writeReadCmp .. =>
    some (posts ++ [.clkPrecStats, .drmInfo, .mchTrainRes], [.events, .out, .mem, .host, .dram])
  | .mr4Poll .. =>
    some ([], [.dram])
  | .patrolScrub .. =>
    some (posts ++ [.clkPrecStats, .mchEccStat, .mchEccAddr], [.events, .out, .host, .dram])
  | .srEnter | .autoSelfRefresh =>
    some ([.clkPrecStats, .drmInfo, .drmSr], [.events, .dram])
  | .srExit =>
    some (posts ++ [.clkPrecStats, .drmInfo], [.events, .out, .host])
  | .outOfRangeClear =>
    some ([.clkPrecStats, .drmInfo], [.events])
  | .panicClear =>
    some ([.clkPrecStats, .drmPanic], [.events])
  | .srClear =>
    some ([.clkPrecStats, .drmSr], [.events])
  | .eccStatClear .. =>
    some ([.clkPrecStats, .mchEccStat, .mchEccAddr], [.events])
  | .timOffset .. | .fineLinearity .. | .driveDeskew .. | .compareDeskew .. | .adc .. | .dclkDuty .. | .bayFull .. =>
    some ([.clkPrecStats, .bayFeStat], [.events, .fes, .cal])
  | .roundTrip .. | .roundTripTimeout .. =>
    some (posts ++ [.clkPrecStats, .calStatus, .calBayStat, .bayFeStat, .bayCalQual, .bayAdcQual], [.events, .out, .host,
      .chans, .fes, .cal])
  | .timeTrim =>
    some (posts ++ [.clkPrecStats, .calTimeTrim], [.events, .out, .host])
  | .storeCommit =>
    some ([.calStatus], [.cal])
  | .calStore .. =>
    some (posts ++ [.clkPrecStats, .calStatus], [.events, .out, .host, .cal])
  | .driftUpdate =>
    some (posts ++ [.clkPrecStats, .calBayStat], [.events, .out, .host, .cal])
  | .eyeMeasure .. =>
    some ([.calOluEye], [.olu])
  | .seqReset .. =>
    some (posts ++ [.clkPrecStats, .bayCmpStat, .seqStatus, .seqTsCtrl, .seqUnderrun, .sitekStatus], [.events, .out, .host,
      .seqs, .chans, .logs, .dclks, .site, .page, .adcs, .ras])
  | .seqResetDone .. =>
    some ([.seqStatus], [.seqs, .page, .ras])
  | .bayReset .. =>
    some (posts ++ [.clkPrecStats, .calStatus, .calBayStat, .rasStatus, .bayPark, .bayDeskew, .bayEdgeStat, .bayDclkCtrl,
      .bayDclkPeriod, .bayStaticMask, .bayFailCount, .bayFailSnap, .bayFailShadow, .bayCmpStat, .bayFdlin, .bayAdcCtrl,
      .bayAdcCfg, .bayAdcFilt, .bayAdcRatio, .bayAdcEnt, .bayAdcDelay, .bayAdcStat, .bayAdcCounts, .bayAdcAccCfg, .bayAdcWin,
      .bayAdcWinOpen, .bayAdcWinClose, .bayAdcResSum, .bayAdcResCnt, .bayAdcResMinmax, .bayAdcUrgentRes, .bayAdcUrgentMm,
      .bayAdcCoefSel, .bayAdcCoefData, .bayAcqCtrl, .bayAcqCfg, .bayAcqTime, .bayAcqRing, .bayAcqPtr, .bayAcqStat,
      .bayAcqCounts, .bayAcqCond, .bayAcqLevel, .bayTimCtrl, .bayTimCfg, .bayTimCount, .bayTimTime, .bayTimNotify,
      .bayTimResult, .bayTimAux, .bayTimStat, .bayFeCfg, .bayFeCtrl, .bayFeStat, .bayFeLsel, .bayFeLdata, .bayFeRx,
      .bayCalBay, .bayTimOfs, .bayAdcCal, .bayCalQual, .bayAdcQual, .seqSiteFail, .seqFfseq, .seqFfsite, .seqLogStat,
      .seqCapStat, .sitekStatus], [.events, .out, .host, .seqs, .chans, .logs, .dclks, .site, .fes, .adcs, .acqs, .tims, .cal,
      .ras])
  | .bayResetDone .. =>
    some (posts ++ [.clkPrecStats, .calStatus, .calChUncal, .calBayStat, .rasStatus, .bayDeskew, .bayFdlin, .bayAdcStat,
      .bayCalBay, .bayTimOfs, .bayAdcCal, .bayCalQual, .bayAdcQual], [.events, .out, .host, .cal])
  | .hostReady .. =>
    some (posts ++ [.clkPrecStats, .calStatus, .calChUncal, .calBayStat, .rasStatus, .bayDeskew, .bayFdlin, .bayAdcStat,
      .bayCalBay, .bayTimOfs, .bayAdcCal, .bayCalQual, .bayAdcQual], [.events, .out, .host, .cal, .ras])
  | .rasUe .. =>
    some (posts ++ [.clkPrecStats, .dispCoreStat, .dispFlowStat, .dispThrCfg, .dispThrState, .coreCtrl, .coreStatus,
      .rasStatus, .rasErrStat, .rasErrLog, .bayCmpStat, .seqStatus, .seqTsCtrl, .seqSiteFail, .seqFfseq, .seqFfsite,
      .seqLogStat, .seqCapStat, .seqUnderrun, .sitekStatus], [.events, .out, .host, .disp, .seqs, .chans, .logs, .dclks,
      .site, .page, .adcs, .ras])
  | .rasErrStatClear =>
    some ([.clkPrecStats, .rasErrStat, .rasErrLog], [.events])
  | .peakClear .. =>
    some ([.clkPrecStats, .thermTemp], [.events])
  | .feStart .. =>
    some ([.clkPrecStats, .bayFeStat], [.events, .fes])
  | .feAbort .. | .feDelayExpiry .. | .waitalert .. | .feListEnd .. =>
    some ([.bayFeStat], [.fes])
  | .feWrite .. =>
    some ([.bayFeStat, .bayFeRx], [.out, .fes])
  | .feDelay .. =>
    some ([], [.fes])
  | .feTimeout .. =>
    some (posts ++ [.clkPrecStats, .bayFeStat], [.events, .out, .host, .fes])
  | .feAlert .. =>
    some (posts ++ [.clkPrecStats, .dispThrState, .bayFeStat], [.events, .out, .host, .disp, .fes])
  | .feLdataWrite .. =>
    some ([.clkPrecStats, .bayFeStat, .bayFeLsel], [.events, .fes])
  | .feStatClear .. =>
    some ([.clkPrecStats, .bayFeStat], [.events])
  | .registerRead .. =>
    some (posts ++ [.clkPrecStats, .timeCtrl, .timeStatus, .domAddend, .domGain, .domStatus, .oluGflags, .olupErrStat,
      .drmInfo, .pgtStatus, .dispCoreStat, .dispFlowStat, .dispThrCfg, .dispThrState, .dispThrWait, .bayEdgeStat, .bayCmpStat,
      .bayAdcStat, .bayAdcCounts, .bayAdcCoefSel, .bayAcqPtr, .bayAcqStat, .bayAcqCounts, .bayTimStat, .bayFeStat, .bayFeLsel,
      .seqStatus, .seqFaultInfo, .seqFaultCycle, .seqTsCtrl, .seqTsDirty, .seqFfseq, .seqFfsite, .seqLogStat, .seqCapStat,
      .seqUnderrun, .seqUnderrunInfo, .seqStallTime, .sitekStatus], [.events, .halvesHost, .halvesCore, .out, .free, .mem,
      .time, .olu, .host, .disp, .seqs, .bars, .chans, .stores, .logs, .dclks, .dram, .site, .page, .fes, .adcs, .acqs,
      .tims])
  | .ackLinkFrame .. =>
    some ([], [.olu])
  | .markerGroup .. =>
    some ([.clkPrecStats, .olupStatus, .olupErrStat], [.events, .free, .olu])
  | .trainingStateExit .. =>
    some (posts ++ [.clkPrecStats, .oluBulkCtrl, .olupStatus, .olupErrStat], [.events, .out, .free, .olu, .host])
  | .sleepBlock .. | .partnerWake .. =>
    some ([.olupStatus], [])
  | .loadErr .. =>
    some (posts ++ [.clkPrecStats, .pgtErrStat], [.events, .out, .host, .page])
  | .timetxComplete .. =>
    some (posts ++ [.clkPrecStats], [.events, .out, .time, .host])
  | .timePortLink .. =>
    some ([.timePortCfg], [])
  | .pcieLink .. =>
    some ([.hifLink], [])
  | .slewComplete =>
    some ([.timeStatus], [])
  | .registerWrite .. | .w1cClear .. | .calDone .. | .tempUpdate .. | .warm .. | .functionLevelReset
  | .d3hotToD0 | .perst | .powerOn | .railFault .. => none

/-- Frames of the commands: whatever the state and the operands, a command leaves as they are the queue, every register whose
name its footprint does not list, and every other part of the state that it does not list; where the footprint does not list
memory, every byte of local DRAM reads as before. -/
def Obligations.CommandsChangeTheirFootprint : Prop :=
  ∀ (c : Instr) (names : List RegName) (parts : List StatePart) (s t : State), footprint c = some (names, parts) → exec c s = .next t →
    SameRegs names s t ∧ t.pending = s.pending ∧ (∀ p : StatePart, p ∉ parts → p.Same s t) ∧ (StatePart.mem ∉ parts → SameMemory s t)

/-- The bay of a command of a bay's units: its counters, converter, acquisition engine, interval units, front end, and a
procedure of its calibration. -/
def bayCommand : Instr → Option Nat
  | .edgeStatClear b _ | .failSnap b | .failCountClear b | .cmpStatClear b | .adcOutput b _ _ | .sequenceTrigger b _
  | .adcStop b _ | .accClear b _ | .urgentRequest b _ _ | .urgentCancel b _ | .bankRequest b _ | .coefWrite b _
  | .refReady b | .sliceRotation b _ | .adcWindow b | .adcCountsClear b | .rearm b _ | .acqStop b _ | .force b _
  | .autoTrigger b | .holdoffEnd b | .acqCountsClear b _ | .acqRingWrite b _ | .pinEvent b _ _ | .timOffset b _
  | .fineLinearity b _ | .driveDeskew b _ _ | .compareDeskew b _ _ _ | .adc b _ _ | .dclkDuty b _ _ | .bayFull b
  | .feStart b _ | .feAbort b | .feWrite b _ | .feDelay b | .feDelayExpiry b | .waitalert b | .feTimeout b | .feListEnd b
  | .feAlert b _ _ | .feLdataWrite b _ | .feStatClear b => some b
  | .timArm m _ | .timDisarm m _ | .timResultClear m _ | .timEdge m _ _ _ | .timComplete m | .timTimeout m
  | .seriesEntry m | .timStatClear m => some (m / 4)
  | _ => none

/-- A command of a bay's units leaves every register of the other bays as it is. -/
def Obligations.BayCommandsStayInTheirBay : Prop :=
  ∀ (c : Instr) (b : Nat) (k : RegKey) (s t : State), bayCommand c = some b → exec c s = .next t →
    0x40000 ≤ k.name.desc.base → k.name.desc.base < 0x80000 → k.inst ≠ b → t.rd k = s.rd k

/-- The sequencer of a record, of a command of a sequencer, and of its logs and paging. -/
def sequencerCommand : Instr → Option Nat
  | .nopRec q | .loopRec q | .endloop q | .repeatRec q | .callRec q | .ret q | .jump q | .jumpif q | .matchRec q
  | .flagset q | .flagclr q | .waitraise q | .barrier q | .trigger q | .measure q | .timarm q | .feapply q | .pagehint q
  | .stopiffail q | .halt q | .endRec q | .seqStart q _ | .seqResume q _ | .pauseRequest q _ | .abort q _
  | .faultClear q _ | .pegWatchdog q | .holdTimeout q | .barrierRelease q _ | .park q | .tableCommit q _
  | .logCfgWrite q _ | .logStatClear q | .captureBlockWrite q | .capCfgWrite q _ | .capStatClear q | .lookahead q _
  | .prefetchFill q | .stallResume q _ | .stallLimit q | .underrunClear q | .stallTimeClear q | .lcacheStatClear q
  | .seqReset q _ | .seqResetDone q => some q
  | _ => none

/-- A record, and a command of a sequencer, leaves every register of the other sequencers as it is. -/
def Obligations.SequencerCommandsStayInTheirSequencer : Prop :=
  ∀ (c : Instr) (q : Nat) (k : RegKey) (s t : State), sequencerCommand c = some q → exec c s = .next t →
    0x80000 ≤ k.name.desc.base → k.name.desc.base < 0xC0000 → k.inst ≠ q → t.rd k = s.rd k

/-! ### The package -/

/-- The rows at distance 4 and 12 from the package edge of a PE band are VSS; in the row at distance 8, odd columns carry
VDDA_PE and even columns VSS. -/
abbrev PeBandSupplies : Prop :=
  (∀ d ∈ [4, 12], ∀ x < 48, ball d (x + 1) = .rail .vss ∧ ball (49 - d) (x + 1) = .rail .vss) ∧
  ∀ x < 48, ball 8 (x + 1) = .rail (if x % 2 = 0 then .vddaPe else .vss) ∧
    ball 41 (x + 1) = .rail (if x % 2 = 0 then .vddaPe else .vss)

/-- Slot q = 6s + j of bay b lies in signal row s, the s-th of the distances 1, 2, 3, 5, 6, 7, 9, 10, 11, 13 and 14, and
places its _P ball in column 12 (b mod 4) + 2j + 1 and its _N ball in the next; it carries DRV, DEN, CMPH or CMPL (q mod 4) of
local channel q div 4, and slots 64 and 65 carry DUT_CLK[2b] and DUT_CLK[2b + 1]. -/
abbrev PeBandSlots : Prop :=
  ∀ b < 8, ∀ s < 11, ∀ j < 6, ∀ neg : Bool,
    let q := 6 * s + j
    let d := [1, 2, 3, 5, 6, 7, 9, 10, 11, 13, 14].getD s 0
    ball (if b < 4 then d else 49 - d) (12 * (b % 4) + 2 * j + 1 + neg.toNat) =
      if q < 64 then .pe (q % 4) (16 * b + q / 4) neg else .dutClk (2 * b + (q - 64)) neg

/-- The balls of the PE bands: supplies and pair slots. -/
def Obligations.PeBandBalls : Prop := PeBandSupplies ∧ PeBandSlots
end

