-- ==== Sys2Proof/Laws/Assoc.lean ====
section
/-!
SUPPORT. Assoc.lean: the laws of sparse tables: a read after a write, and the canonical form, which every write keeps.
-/
namespace Sys2Proof.Machine
set_option Elab.async false

section
variable {K V : Type} [DecidableEq K]

theorem Assoc.find_drop (k k' : K) (l : List (K × V)) :
    Assoc.find k' (Assoc.drop k l) = if k' = k then none else Assoc.find k' l := by
  induction l with
  | nil => simp [Assoc.drop, Assoc.find]
  | cons e l ih => by_cases h : e.1 = k <;> by_cases h' : e.1 = k' <;> simp_all [Assoc.drop, Assoc.find]

theorem Assoc.find_put (lt : K → K → Bool) (k k' : K) (v : V) (l : List (K × V)) :
    Assoc.find k' (Assoc.put lt k v l) = if k' = k then some v else Assoc.find k' l := by
  induction l with
  | nil =>
    by_cases h : k' = k
    · simp [Assoc.put, Assoc.find, h]
    · simp [Assoc.put, Assoc.find, h, Ne.symm h]
  | cons e l ih =>
    unfold Assoc.put
    split
    · by_cases h : k' = k
      · simp [Assoc.find, h]
      · simp_all [Assoc.find, eq_comm]
    · split
      · by_cases h : k' = k
        · simp [Assoc.find, h]
        · simp [Assoc.find, h, Ne.symm h]
      · by_cases h : e.1 = k'
        · simp_all [Assoc.find]
        · simp_all [Assoc.find]

/-- A read after a write: the value written at its key, and what stood before at every other. -/
theorem Assoc.rd_wr [DecidableEq V] (lt : K → K → Bool) (d : K → V) (l : List (K × V)) (k k' : K) (v : V) :
    Assoc.rd d (Assoc.wr lt d l k v) k' = if k' = k then v else Assoc.rd d l k' := by
  unfold Assoc.wr
  split
  · unfold Assoc.rd
    rw [Assoc.find_drop]
    by_cases h : k' = k <;> simp_all
  · unfold Assoc.rd
    rw [Assoc.find_put]
    by_cases h : k' = k <;> simp_all

theorem Assoc.mem_drop (k : K) (e : K × V) (l : List (K × V)) (h : e ∈ Assoc.drop k l) : e ∈ l := by
  induction l with
  | nil => simp [Assoc.drop] at h
  | cons a l ih =>
    unfold Assoc.drop at h
    split at h
    · exact List.mem_cons_of_mem _ (ih h)
    · rcases List.mem_cons.1 h with h | h
      · exact h ▸ List.mem_cons_self
      · exact List.mem_cons_of_mem _ (ih h)

theorem Assoc.mem_put (lt : K → K → Bool) (k : K) (v : V) (e : K × V) (l : List (K × V)) (h : e ∈ Assoc.put lt k v l) :
    e = (k, v) ∨ e ∈ l := by
  induction l with
  | nil => simpa [Assoc.put] using h
  | cons a l ih =>
    unfold Assoc.put at h
    split at h
    · rcases List.mem_cons.1 h with h | h
      · exact .inl h
      · exact .inr (List.mem_cons_of_mem _ h)
    · split at h
      · rcases List.mem_cons.1 h with h | h
        · exact .inl h
        · exact .inr h
      · rcases List.mem_cons.1 h with h | h
        · exact .inr (h ▸ List.mem_cons_self)
        · rcases ih h with h | h
          · exact .inl h
          · exact .inr (List.mem_cons_of_mem _ h)

theorem Assoc.Wf_drop {lt : K → K → Bool} {d : K → V} {l : List (K × V)} (k : K) (h : Assoc.Wf lt d l) :
    Assoc.Wf lt d (Assoc.drop k l) := by
  refine ⟨?_, fun e he => h.2 e (Assoc.mem_drop k e l he)⟩
  have h1 := h.1
  clear h
  induction l with
  | nil => simp [Assoc.drop]
  | cons a l ih =>
    rw [List.pairwise_cons] at h1
    unfold Assoc.drop
    split
    · exact ih h1.2
    · exact List.pairwise_cons.2 ⟨fun e he => h1.1 e (Assoc.mem_drop k e l he), ih h1.2⟩

/-- A strict total order, as a test. -/
structure StrictOrder (lt : K → K → Bool) : Prop where
  trans : ∀ a b c, lt a b = true → lt b c = true → lt a c = true
  total : ∀ a b, a = b ∨ lt a b = true ∨ lt b a = true

theorem Assoc.Wf_put {lt : K → K → Bool} {d : K → V} {l : List (K × V)} (ho : StrictOrder lt) (k : K) (v : V)
    (hv : v ≠ d k) (h : Assoc.Wf lt d l) : Assoc.Wf lt d (Assoc.put lt k v l) := by
  constructor
  · have h1 := h.1
    clear h
    induction l with
    | nil => simp [Assoc.put]
    | cons a l ih =>
      rw [List.pairwise_cons] at h1
      unfold Assoc.put
      split
      · next hk => exact List.pairwise_cons.2 ⟨fun e he => hk ▸ h1.1 e he, h1.2⟩
      · split
        · next hk hl =>
          refine List.pairwise_cons.2 ⟨fun e he => ?_, List.pairwise_cons.2 h1⟩
          rcases List.mem_cons.1 he with he | he
          · exact he ▸ hl
          · exact ho.trans _ _ _ hl (h1.1 e he)
        · next hk hl =>
          refine List.pairwise_cons.2 ⟨fun e he => ?_, ih h1.2⟩
          rcases Assoc.mem_put lt k v e l he with he | he
          · rcases ho.total a.1 k with h | h | h
            · exact absurd h hk
            · exact he ▸ h
            · exact absurd h hl
          · exact h1.1 e he
  · intro e he
    rcases Assoc.mem_put lt k v e l he with he | he
    · exact he ▸ hv
    · exact h.2 e he

/-- A write keeps the canonical form. -/
theorem Assoc.Wf_wr [DecidableEq V] {lt : K → K → Bool} {d : K → V} {l : List (K × V)} (ho : StrictOrder lt) (k : K) (v : V)
    (h : Assoc.Wf lt d l) : Assoc.Wf lt d (Assoc.wr lt d l k v) := by
  unfold Assoc.wr
  split
  · exact Assoc.Wf_drop k h
  · next hv => exact Assoc.Wf_put ho k v hv h

omit [DecidableEq K] in
/-- A selection of entries keeps the canonical form. -/
theorem Assoc.Wf_filter {lt : K → K → Bool} {d : K → V} {l : List (K × V)} (p : K × V → Bool) (h : Assoc.Wf lt d l) :
    Assoc.Wf lt d (l.filter p) :=
  ⟨h.1.filter p, fun e he => h.2 e (List.mem_filter.1 he).1⟩

omit [DecidableEq K] in
theorem Assoc.Wf_nil (lt : K → K → Bool) (d : K → V) : Assoc.Wf lt d [] := ⟨List.Pairwise.nil, by simp⟩

end

theorem natLt_order : StrictOrder natLt where
  trans a b c := by simp [natLt]; omega
  total a b := by simp [natLt]; omega

theorem RegName.eq_of_idx {a b : RegName} (h : a.ctorIdx = b.ctorIdx) : a = b := by rw [← RegName.ofNat_ctorIdx a, ← RegName.ofNat_ctorIdx b, h]

theorem before_order : StrictOrder RegKey.before where
  trans a b c := by
    simp only [RegKey.before, Bool.or_eq_true, Bool.and_eq_true, decide_eq_true_eq]
    rintro (h | ⟨h, h'⟩) (g | ⟨g, g'⟩)
    · exact .inl (by omega)
    · exact .inl (g ▸ h)
    · exact .inl (h ▸ g)
    · exact .inr ⟨h.trans g, by omega⟩
  total a b := by
    simp only [RegKey.before, Bool.or_eq_true, Bool.and_eq_true, decide_eq_true_eq]
    rcases Nat.lt_trichotomy a.name.ctorIdx b.name.ctorIdx with h | h | h
    · exact .inr (.inl (.inl h))
    · have hn := RegName.eq_of_idx h
      rcases Nat.lt_trichotomy a.inst b.inst with g | g | g
      · exact .inr (.inl (.inr ⟨hn, .inl g⟩))
      · rcases Nat.lt_trichotomy a.elem b.elem with e | e | e
        · exact .inr (.inl (.inr ⟨hn, .inr ⟨g, e⟩⟩))
        · exact .inl (by cases a; cases b; simp_all)
        · exact .inr (.inr (.inr ⟨hn.symm, .inr ⟨g.symm, e⟩⟩))
      · exact .inr (.inr (.inr ⟨hn.symm, .inl g⟩))
    · exact .inr (.inr (.inl h))

end Sys2Proof.Machine
end

