-- ==== Sys2Proof/Laws/Only.lean ====
section
/-!
SUPPORT. Only.lean: what an operation can change, said once: `Only N s t` holds where `t` keeps the canonical form of `s`, every
register whose name is not in the set `N`, and every field of the state that is not in `N`. A set is a number: bit n stands for
the n-th register name (R499), bits 240 on for the fields of State.
-/
namespace Sys2Proof.Machine
set_option Elab.async false

/-- `t` differs from `s` only in what the set `N` holds. -/
structure Only (N : Nat) (s t : State) : Prop where
  canon : Canon s → Canon t
  reg : ∀ k : RegKey, N.testBit k.name.ctorIdx = false → t.rd k = s.rd k
  pending : N.testBit 240 = false → t.pending = s.pending
  ticks : N.testBit 241 = false → t.ticks = s.ticks
  events : N.testBit 242 = false → t.events = s.events
  startOfTick : N.testBit 243 = false → t.startOfTick = s.startOfTick
  halvesHost : N.testBit 244 = false → t.halvesHost = s.halvesHost
  halvesCore : N.testBit 245 = false → t.halvesCore = s.halvesCore
  out : N.testBit 246 = false → t.out = s.out
  free : N.testBit 247 = false → t.free = s.free
  mem : N.testBit 248 = false → t.mem = s.mem
  time : N.testBit 249 = false → t.time = s.time
  olu : N.testBit 250 = false → t.olu = s.olu
  host : N.testBit 251 = false → t.host = s.host
  disp : N.testBit 252 = false → t.disp = s.disp
  gfPrev : N.testBit 253 = false → t.gfPrev = s.gfPrev
  seqs : N.testBit 254 = false → t.seqs = s.seqs
  bars : N.testBit 255 = false → t.bars = s.bars
  chans : N.testBit 256 = false → t.chans = s.chans
  stores : N.testBit 257 = false → t.stores = s.stores
  logs : N.testBit 258 = false → t.logs = s.logs
  logTurn : N.testBit 259 = false → t.logTurn = s.logTurn
  dclks : N.testBit 260 = false → t.dclks = s.dclks
  dram : N.testBit 261 = false → t.dram = s.dram
  site : N.testBit 262 = false → t.site = s.site
  page : N.testBit 263 = false → t.page = s.page
  fes : N.testBit 264 = false → t.fes = s.fes
  adcs : N.testBit 265 = false → t.adcs = s.adcs
  acqs : N.testBit 266 = false → t.acqs = s.acqs
  tims : N.testBit 267 = false → t.tims = s.tims
  cal : N.testBit 268 = false → t.cal = s.cal
  ras : N.testBit 269 = false → t.ras = s.ras
  clk : N.testBit 270 = false → t.clk = s.clk

theorem Only.refl (N : Nat) (s : State) : Only N s s := by
  constructor <;> intros <;> first | rfl | assumption

/-- A subset of bits has no bit that the set lacks. -/
theorem bit_of_sub {M N n : Nat} (h : M ||| N = N) (hn : N.testBit n = false) : M.testBit n = false := by
  rw [← h, Nat.testBit_or] at hn
  simp_all

/-- One more operation within the set. -/
theorem Only.step {M N : Nat} {s t u : State} (h : Only N s t) (g : Only M t u) (hs : M ||| N = N) : Only N s u where
  canon c := g.canon (h.canon c)
  reg k hk := (g.reg k (bit_of_sub hs hk)).trans (h.reg k hk)
  pending hk := (g.pending (bit_of_sub hs hk)).trans (h.pending hk)
  ticks hk := (g.ticks (bit_of_sub hs hk)).trans (h.ticks hk)
  events hk := (g.events (bit_of_sub hs hk)).trans (h.events hk)
  startOfTick hk := (g.startOfTick (bit_of_sub hs hk)).trans (h.startOfTick hk)
  halvesHost hk := (g.halvesHost (bit_of_sub hs hk)).trans (h.halvesHost hk)
  halvesCore hk := (g.halvesCore (bit_of_sub hs hk)).trans (h.halvesCore hk)
  out hk := (g.out (bit_of_sub hs hk)).trans (h.out hk)
  free hk := (g.free (bit_of_sub hs hk)).trans (h.free hk)
  mem hk := (g.mem (bit_of_sub hs hk)).trans (h.mem hk)
  time hk := (g.time (bit_of_sub hs hk)).trans (h.time hk)
  olu hk := (g.olu (bit_of_sub hs hk)).trans (h.olu hk)
  host hk := (g.host (bit_of_sub hs hk)).trans (h.host hk)
  disp hk := (g.disp (bit_of_sub hs hk)).trans (h.disp hk)
  gfPrev hk := (g.gfPrev (bit_of_sub hs hk)).trans (h.gfPrev hk)
  seqs hk := (g.seqs (bit_of_sub hs hk)).trans (h.seqs hk)
  bars hk := (g.bars (bit_of_sub hs hk)).trans (h.bars hk)
  chans hk := (g.chans (bit_of_sub hs hk)).trans (h.chans hk)
  stores hk := (g.stores (bit_of_sub hs hk)).trans (h.stores hk)
  logs hk := (g.logs (bit_of_sub hs hk)).trans (h.logs hk)
  logTurn hk := (g.logTurn (bit_of_sub hs hk)).trans (h.logTurn hk)
  dclks hk := (g.dclks (bit_of_sub hs hk)).trans (h.dclks hk)
  dram hk := (g.dram (bit_of_sub hs hk)).trans (h.dram hk)
  site hk := (g.site (bit_of_sub hs hk)).trans (h.site hk)
  page hk := (g.page (bit_of_sub hs hk)).trans (h.page hk)
  fes hk := (g.fes (bit_of_sub hs hk)).trans (h.fes hk)
  adcs hk := (g.adcs (bit_of_sub hs hk)).trans (h.adcs hk)
  acqs hk := (g.acqs (bit_of_sub hs hk)).trans (h.acqs hk)
  tims hk := (g.tims (bit_of_sub hs hk)).trans (h.tims hk)
  cal hk := (g.cal (bit_of_sub hs hk)).trans (h.cal hk)
  ras hk := (g.ras (bit_of_sub hs hk)).trans (h.ras hk)
  clk hk := (g.clk (bit_of_sub hs hk)).trans (h.clk hk)

theorem Only.mono {M N : Nat} {s t : State} (g : Only M s t) (hs : M ||| N = N) : Only N s t := (Only.refl N s).step g hs

theorem Only.ite {N : Nat} {s t u : State} {p : Prop} [Decidable p] (h : p → Only N s t) (g : ¬p → Only N s u) :
    Only N s (if p then t else u) := by
  split
  · exact h ‹_›
  · exact g ‹_›

theorem Only.foldl {α : Type} {N : Nat} {s0 s : State} {f : State → α → State} {l : List α} (h : Only N s0 s)
    (g : ∀ t a, Only N t (f t a)) : Only N s0 (l.foldl f s) := by
  induction l generalizing s with
  | nil => exact h
  | cons a l ih => exact ih (h.step (g s a) (Nat.or_self N))

theorem Only.foldlSnd {α β : Type} {N : Nat} {s0 : State} {f : α × State → β → α × State} {l : List β} {x : α × State}
    (h : Only N s0 x.2) (g : ∀ y b, Only N y.2 (f y b).2) : Only N s0 (l.foldl f x).2 := by
  induction l generalizing x with
  | nil => exact h
  | cons a l ih => exact ih (h.step (g x a) (Nat.or_self N))

/-- A record update that leaves the register file, memory and the queue as they stand. -/
theorem Only.fields {N : Nat} {s t : State} {v_regs : List (RegKey × Word)} {v_ticks : Nat} {v_events : List TickEvent} {v_startOfTick : List (RegKey × Word)} {v_halvesHost : Halves} {v_halvesCore : List (Nat × Halves)} {v_out : List Output} {v_free : Nat} {v_mem : List Host.Cell} {v_time : TimeX} {v_olu : OluX} {v_host : HostX} {v_disp : DispX} {v_gfPrev : Nat} {v_seqs : List (Nat × SeqX)} {v_bars : List (Nat × BarX)} {v_chans : List (Nat × ChanX)} {v_stores : List (Nat × TsStore)} {v_logs : List (Nat × LogX)} {v_logTurn : Nat} {v_dclks : List (Nat × DclkX)} {v_dram : DramX} {v_site : SiteMapX} {v_page : PageX} {v_fes : List (Nat × FeX)} {v_adcs : List (Nat × AdcX)} {v_acqs : List (Nat × AcqX)} {v_tims : List (Nat × TimX)} {v_cal : CalX} {v_ras : RasX} {v_clk : ClkX} (h : Only N s t)
    (hr : v_regs = t.regs) (hm : v_mem = t.mem)
    (h_ticks : N.testBit 241 = false → v_ticks = t.ticks := by
      intro h; first | exact absurd h (by decide) | rfl)
    (h_events : N.testBit 242 = false → v_events = t.events := by
      intro h; first | exact absurd h (by decide) | rfl)
    (h_startOfTick : N.testBit 243 = false → v_startOfTick = t.startOfTick := by
      intro h; first | exact absurd h (by decide) | rfl)
    (h_halvesHost : N.testBit 244 = false → v_halvesHost = t.halvesHost := by
      intro h; first | exact absurd h (by decide) | rfl)
    (h_halvesCore : N.testBit 245 = false → v_halvesCore = t.halvesCore := by
      intro h; first | exact absurd h (by decide) | rfl)
    (h_out : N.testBit 246 = false → v_out = t.out := by
      intro h; first | exact absurd h (by decide) | rfl)
    (h_free : N.testBit 247 = false → v_free = t.free := by
      intro h; first | exact absurd h (by decide) | rfl)
    (h_time : N.testBit 249 = false → v_time = t.time := by
      intro h; first | exact absurd h (by decide) | rfl)
    (h_olu : N.testBit 250 = false → v_olu = t.olu := by
      intro h; first | exact absurd h (by decide) | rfl)
    (h_host : N.testBit 251 = false → v_host = t.host := by
      intro h; first | exact absurd h (by decide) | rfl)
    (h_disp : N.testBit 252 = false → v_disp = t.disp := by
      intro h; first | exact absurd h (by decide) | rfl)
    (h_gfPrev : N.testBit 253 = false → v_gfPrev = t.gfPrev := by
      intro h; first | exact absurd h (by decide) | rfl)
    (h_seqs : N.testBit 254 = false → v_seqs = t.seqs := by
      intro h; first | exact absurd h (by decide) | rfl)
    (h_bars : N.testBit 255 = false → v_bars = t.bars := by
      intro h; first | exact absurd h (by decide) | rfl)
    (h_chans : N.testBit 256 = false → v_chans = t.chans := by
      intro h; first | exact absurd h (by decide) | rfl)
    (h_stores : N.testBit 257 = false → v_stores = t.stores := by
      intro h; first | exact absurd h (by decide) | rfl)
    (h_logs : N.testBit 258 = false → v_logs = t.logs := by
      intro h; first | exact absurd h (by decide) | rfl)
    (h_logTurn : N.testBit 259 = false → v_logTurn = t.logTurn := by
      intro h; first | exact absurd h (by decide) | rfl)
    (h_dclks : N.testBit 260 = false → v_dclks = t.dclks := by
      intro h; first | exact absurd h (by decide) | rfl)
    (h_dram : N.testBit 261 = false → v_dram = t.dram := by
      intro h; first | exact absurd h (by decide) | rfl)
    (h_site : N.testBit 262 = false → v_site = t.site := by
      intro h; first | exact absurd h (by decide) | rfl)
    (h_page : N.testBit 263 = false → v_page = t.page := by
      intro h; first | exact absurd h (by decide) | rfl)
    (h_fes : N.testBit 264 = false → v_fes = t.fes := by
      intro h; first | exact absurd h (by decide) | rfl)
    (h_adcs : N.testBit 265 = false → v_adcs = t.adcs := by
      intro h; first | exact absurd h (by decide) | rfl)
    (h_acqs : N.testBit 266 = false → v_acqs = t.acqs := by
      intro h; first | exact absurd h (by decide) | rfl)
    (h_tims : N.testBit 267 = false → v_tims = t.tims := by
      intro h; first | exact absurd h (by decide) | rfl)
    (h_cal : N.testBit 268 = false → v_cal = t.cal := by
      intro h; first | exact absurd h (by decide) | rfl)
    (h_ras : N.testBit 269 = false → v_ras = t.ras := by
      intro h; first | exact absurd h (by decide) | rfl)
    (h_clk : N.testBit 270 = false → v_clk = t.clk := by
      intro h; first | exact absurd h (by decide) | rfl) :
    Only N s ⟨t.pending, v_regs, v_ticks, v_events, v_startOfTick, v_halvesHost, v_halvesCore, v_out, v_free, v_mem, v_time, v_olu, v_host, v_disp, v_gfPrev, v_seqs, v_bars, v_chans, v_stores, v_logs, v_logTurn, v_dclks, v_dram, v_site, v_page, v_fes, v_adcs, v_acqs, v_tims, v_cal, v_ras, v_clk⟩ where
  canon c := by
    have := h.canon c
    unfold Canon at *
    subst hr hm
    exact this
  reg k hk := by
    rw [← h.reg k hk]
    subst hr
    rfl
  pending hk := h.pending hk
  mem hk := hm.trans (h.mem hk)
  ticks hk := (h_ticks hk).trans (h.ticks hk)
  events hk := (h_events hk).trans (h.events hk)
  startOfTick hk := (h_startOfTick hk).trans (h.startOfTick hk)
  halvesHost hk := (h_halvesHost hk).trans (h.halvesHost hk)
  halvesCore hk := (h_halvesCore hk).trans (h.halvesCore hk)
  out hk := (h_out hk).trans (h.out hk)
  free hk := (h_free hk).trans (h.free hk)
  time hk := (h_time hk).trans (h.time hk)
  olu hk := (h_olu hk).trans (h.olu hk)
  host hk := (h_host hk).trans (h.host hk)
  disp hk := (h_disp hk).trans (h.disp hk)
  gfPrev hk := (h_gfPrev hk).trans (h.gfPrev hk)
  seqs hk := (h_seqs hk).trans (h.seqs hk)
  bars hk := (h_bars hk).trans (h.bars hk)
  chans hk := (h_chans hk).trans (h.chans hk)
  stores hk := (h_stores hk).trans (h.stores hk)
  logs hk := (h_logs hk).trans (h.logs hk)
  logTurn hk := (h_logTurn hk).trans (h.logTurn hk)
  dclks hk := (h_dclks hk).trans (h.dclks hk)
  dram hk := (h_dram hk).trans (h.dram hk)
  site hk := (h_site hk).trans (h.site hk)
  page hk := (h_page hk).trans (h.page hk)
  fes hk := (h_fes hk).trans (h.fes hk)
  adcs hk := (h_adcs hk).trans (h.adcs hk)
  acqs hk := (h_acqs hk).trans (h.acqs hk)
  tims hk := (h_tims hk).trans (h.tims hk)
  cal hk := (h_cal hk).trans (h.cal hk)
  ras hk := (h_ras hk).trans (h.ras hk)
  clk hk := (h_clk hk).trans (h.clk hk)

/-- Cells of memory are dropped, and `dram` changes. -/
theorem Only.fillCells {N : Nat} {s t : State} (h : Only N s t) (p : Host.Cell → Bool) (d : DramX)
    (hN : 0x200100000000000000000000000000000000000000000000000000000000000000 ||| N = N) : Only N s { t with mem := t.mem.filter p, dram := d } where
  canon c := ⟨(h.canon c).1, Assoc.Wf_filter p (h.canon c).2⟩
  reg k hk := h.reg k hk
  mem hk := absurd (bit_of_sub hN hk) (by decide)
  dram hk := absurd (bit_of_sub hN hk) (by decide)
  pending hk := h.pending hk
  ticks hk := h.ticks hk
  events hk := h.events hk
  startOfTick hk := h.startOfTick hk
  halvesHost hk := h.halvesHost hk
  halvesCore hk := h.halvesCore hk
  out hk := h.out hk
  free hk := h.free hk
  time hk := h.time hk
  olu hk := h.olu hk
  host hk := h.host hk
  disp hk := h.disp hk
  gfPrev hk := h.gfPrev hk
  seqs hk := h.seqs hk
  bars hk := h.bars hk
  chans hk := h.chans hk
  stores hk := h.stores hk
  logs hk := h.logs hk
  logTurn hk := h.logTurn hk
  dclks hk := h.dclks hk
  site hk := h.site hk
  page hk := h.page hk
  fes hk := h.fes hk
  adcs hk := h.adcs hk
  acqs hk := h.acqs hk
  tims hk := h.tims hk
  cal hk := h.cal hk
  ras hk := h.ras hk
  clk hk := h.clk hk

/-- Memory is emptied, and `dram` changes. -/
theorem Only.noCells {N : Nat} {s t : State} (h : Only N s t) (d : DramX)
    (hN : 0x200100000000000000000000000000000000000000000000000000000000000000 ||| N = N) : Only N s { t with mem := [], dram := d } where
  canon c := ⟨(h.canon c).1, Assoc.Wf_nil ..⟩
  reg k hk := h.reg k hk
  mem hk := absurd (bit_of_sub hN hk) (by decide)
  dram hk := absurd (bit_of_sub hN hk) (by decide)
  pending hk := h.pending hk
  ticks hk := h.ticks hk
  events hk := h.events hk
  startOfTick hk := h.startOfTick hk
  halvesHost hk := h.halvesHost hk
  halvesCore hk := h.halvesCore hk
  out hk := h.out hk
  free hk := h.free hk
  time hk := h.time hk
  olu hk := h.olu hk
  host hk := h.host hk
  disp hk := h.disp hk
  gfPrev hk := h.gfPrev hk
  seqs hk := h.seqs hk
  bars hk := h.bars hk
  chans hk := h.chans hk
  stores hk := h.stores hk
  logs hk := h.logs hk
  logTurn hk := h.logTurn hk
  dclks hk := h.dclks hk
  site hk := h.site hk
  page hk := h.page hk
  fes hk := h.fes hk
  adcs hk := h.adcs hk
  acqs hk := h.acqs hk
  tims hk := h.tims hk
  cal hk := h.cal hk
  ras hk := h.ras hk
  clk hk := h.clk hk

theorem State.rd_wr (s : State) (k k' : RegKey) (v : Word) : (s.wr k v).rd k' = if k' = k then v else s.rd k' :=
  Assoc.rd_wr ..

theorem State.wr_within (s : State) (k : RegKey) (v : Word) : Only (2 ^ k.name.ctorIdx) s (s.wr k v) where
  canon c := ⟨Assoc.Wf_wr before_order k v c.1, c.2⟩
  reg k' hk := by
    rw [State.rd_wr, if_neg]
    rintro rfl
    rw [Nat.testBit_two_pow_self] at hk
    exact Bool.noConfusion hk
  pending _ := rfl
  ticks _ := rfl
  events _ := rfl
  startOfTick _ := rfl
  halvesHost _ := rfl
  halvesCore _ := rfl
  out _ := rfl
  free _ := rfl
  mem _ := rfl
  time _ := rfl
  olu _ := rfl
  host _ := rfl
  disp _ := rfl
  gfPrev _ := rfl
  seqs _ := rfl
  bars _ := rfl
  chans _ := rfl
  stores _ := rfl
  logs _ := rfl
  logTurn _ := rfl
  dclks _ := rfl
  dram _ := rfl
  site _ := rfl
  page _ := rfl
  fes _ := rfl
  adcs _ := rfl
  acqs _ := rfl
  tims _ := rfl
  cal _ := rfl
  ras _ := rfl
  clk _ := rfl

theorem State.putByte_within (s : State) (a : Nat) (b : Byte) : Only (2 ^ 248) s (s.putByte a b) where
  canon c := ⟨c.1, Assoc.Wf_wr natLt_order a b c.2⟩
  reg _ _ := rfl
  mem h := by rw [Nat.testBit_two_pow_self] at h; exact Bool.noConfusion h
  pending _ := rfl
  ticks _ := rfl
  events _ := rfl
  startOfTick _ := rfl
  halvesHost _ := rfl
  halvesCore _ := rfl
  out _ := rfl
  free _ := rfl
  time _ := rfl
  olu _ := rfl
  host _ := rfl
  disp _ := rfl
  gfPrev _ := rfl
  seqs _ := rfl
  bars _ := rfl
  chans _ := rfl
  stores _ := rfl
  logs _ := rfl
  logTurn _ := rfl
  dclks _ := rfl
  dram _ := rfl
  site _ := rfl
  page _ := rfl
  fes _ := rfl
  adcs _ := rfl
  acqs _ := rfl
  tims _ := rfl
  cal _ := rfl
  ras _ := rfl
  clk _ := rfl

/-- The queue changes. -/
theorem Only.queue {N : Nat} {s t : State} (l : List Instr) (h : Only N s t) (hN : 2 ^ 240 ||| N = N) :
    Only N s { t with pending := l } where
  canon c := h.canon c
  reg k hk := h.reg k hk
  pending hk := absurd (bit_of_sub hN hk) (by rw [Nat.testBit_two_pow_self]; decide)
  ticks hk := h.ticks hk
  events hk := h.events hk
  startOfTick hk := h.startOfTick hk
  halvesHost hk := h.halvesHost hk
  halvesCore hk := h.halvesCore hk
  out hk := h.out hk
  free hk := h.free hk
  mem hk := h.mem hk
  time hk := h.time hk
  olu hk := h.olu hk
  host hk := h.host hk
  disp hk := h.disp hk
  gfPrev hk := h.gfPrev hk
  seqs hk := h.seqs hk
  bars hk := h.bars hk
  chans hk := h.chans hk
  stores hk := h.stores hk
  logs hk := h.logs hk
  logTurn hk := h.logTurn hk
  dclks hk := h.dclks hk
  dram hk := h.dram hk
  site hk := h.site hk
  page hk := h.page hk
  fes hk := h.fes hk
  adcs hk := h.adcs hk
  acqs hk := h.acqs hk
  tims hk := h.tims hk
  cal hk := h.cal hk
  ras hk := h.ras hk
  clk hk := h.clk hk

end Sys2Proof.Machine
end

