-- ==== Sys2Proof/Laws/Ops.lean ====
section
/-!
SUPPORT. Ops.lean: what the operations of Machine/Ops.lean can do: fields, counts, sticky bits, same-tick events, memory,
outputs. Every later frame lemma rests on these.
-/
namespace Sys2Proof.Machine
set_option Elab.async false

/-! ### Frames -/

/-- The set of one field's register. -/
abbrev Fld.mask (f : Fld) : Nat := 2 ^ f.reg.ctorIdx

theorem sub_left (a b : Nat) : a ||| (a ||| b) = a ||| b := by rw [← Nat.or_assoc, Nat.or_self]

theorem sub_right (a b : Nat) : b ||| (a ||| b) = a ||| b := by rw [Nat.or_comm a b, sub_left]

theorem sub_trans_left {a b N : Nat} (h : a ||| b ||| N = N) : a ||| N = N := by
  rw [← h, Nat.or_assoc, ← Nat.or_assoc, Nat.or_self]

theorem sub_trans_right {a b N : Nat} (h : a ||| b ||| N = N) : b ||| N = N := sub_trans_left (Nat.or_comm a b ▸ h)

theorem sub_of {a b N : Nat} (h : a ||| b = b) (hN : b ||| N = N) : a ||| N = N := by
  rw [← hN, ← Nat.or_assoc, h]

/-- The set of all registers. -/
abbrev allRegs : Nat := 0x1ffffffffffffffffffffffffffffffffffffffffffffffffffffffffff

theorem name_sub (n : RegName) : 2 ^ n.ctorIdx ||| allRegs = allRegs := by cases n <;> rfl

/-- A set that holds every register holds the register of `k`. -/
theorem anyReg (k : RegKey) {N : Nat} (h : allRegs ||| N = N) : 2 ^ k.name.ctorIdx ||| N = N := sub_of (name_sub _) h

theorem anyFld (f : Fld) {N : Nat} (h : allRegs ||| N = N) : f.mask ||| N = N := anyReg (f.key 0 0) h

theorem Only.snd {α : Type} {M : Nat} {s t : State} {v : α} {x : α × State} (h : x = (v, t)) (g : Only M s x.2) : Only M s t := by
  rw [h] at g
  exact g

theorem Only.fst {α : Type} {M : Nat} {s t : State} {v : α} {x : State × α} (h : x = (t, v)) (g : Only M s x.1) : Only M s t := by
  rw [h] at g
  exact g

theorem Only.third {α β : Type} {M : Nat} {s t : State} {v : α} {w : β} {x : α × β × State} (h : x = (v, w, t))
    (g : Only M s x.2.2) : Only M s t := by
  rw [h] at g
  exact g

/-- Every next state that an outcome answers differs from `s` only in what the set `N` holds. -/
def OnlyOut (N : Nat) (s : State) (o : Host.Outcome State Fault Refusal) : Prop := ∀ t, o = .next t → Only N s t

theorem OnlyOut.next {N : Nat} {s t : State} (h : Only N s t) : OnlyOut N s (.next t) := by
  intro u hu
  cases hu
  exact h

theorem Only.outcome {M N : Nat} {s t : State} {o : Host.Outcome State Fault Refusal} (h : Only N s t) (g : OnlyOut M t o)
    (hs : M ||| N = N) : OnlyOut N s o := fun u hu => h.step (g u hu) hs

theorem OnlyOut.ite {N : Nat} {s : State} {p : Prop} [Decidable p] {a b : Host.Outcome State Fault Refusal}
    (h : p → OnlyOut N s a) (g : ¬p → OnlyOut N s b) : OnlyOut N s (if p then a else b) := by
  split
  · exact h ‹_›
  · exact g ‹_›

section
variable {N : Nat} {s0 s : State}

theorem State.wr_only (k : RegKey) (v : Word) (h : Only N s0 s) (hN : 2 ^ k.name.ctorIdx ||| N = N) : Only N s0 (s.wr k v) :=
  h.step (s.wr_within k v) hN

theorem State.putByte_only (a : Nat) (b : Byte) (h : Only N s0 s) (hN : 2 ^ 248 ||| N = N) : Only N s0 (s.putByte a b) :=
  h.step (s.putByte_within a b) hN

theorem State.set_only (f : Fld) (i j v : Nat) (h : Only N s0 s) (hN : f.mask ||| N = N) : Only N s0 (s.set f i j v) :=
  State.wr_only (f.key i j) _ h hN

theorem State.setBit_only (f : Fld) (i j : Nat) (b : Bool) (h : Only N s0 s) (hN : f.mask ||| N = N) :
    Only N s0 (s.setBit f i j b) := State.wr_only (f.key i j) _ h hN

theorem State.putMask_only (f : Fld) (i j n : Nat) (b : Bool) (h : Only N s0 s) (hN : f.mask ||| N = N) :
    Only N s0 (s.putMask f i j n b) := State.wr_only (f.key i j) _ h hN

theorem State.storeRw_only (k : RegKey) (host : Bool) (d : Word) (h : Only N s0 s) (hN : 2 ^ k.name.ctorIdx ||| N = N) :
    Only N s0 (s.storeRw k host d) := State.wr_only k _ h hN

theorem State.note_only (e : TickEvent) (h : Only N s0 s) (hN : 2 ^ 242 ||| N = N) : Only N s0 (s.note e) :=
  h.step ((Only.refl _ s).fields rfl rfl) hN

theorem State.addCount_only (f sat : Fld) (i j n : Nat) (h : Only N s0 s) (hN : f.mask ||| sat.mask ||| N = N) :
    Only N s0 (s.addCount f sat i j n) := by
  unfold State.addCount
  split
  · exact State.set_only _ _ _ _ h (sub_trans_left hN)
  · exact State.setBit_only _ _ _ _ (State.set_only _ _ _ _ h (sub_trans_left hN)) (sub_trans_right hN)

/-- The set of what counting a discarded event can change: CLK.PREC_STATS. -/
abbrev precMask : Nat := F.clkPrecStatsSupersededCount.mask

/-- The set of what judging an event can change: CLK.PREC_STATS and the events of the tick. -/
abbrev evMask : Nat := precMask ||| 2 ^ 242

theorem State.supersede_only (n : Nat) (h : Only N s0 s) (hN : precMask ||| N = N) : Only N s0 (s.supersede n) := by
  unfold State.supersede
  split
  · exact h
  · exact State.addCount_only _ _ _ _ _ h (sub_of (by decide) hN)

theorem State.superseded_only (h : Only N s0 s) (hN : precMask ||| N = N) : Only N s0 s.superseded := State.supersede_only 1 h hN

theorem State.hwSet_only (f : Fld) (i j : Nat) (h : Only N s0 s) (hN : f.mask ||| evMask ||| N = N) :
    Only N s0 (s.hwSet f i j) := by
  unfold State.hwSet
  split
  · exact State.superseded_only h (sub_of (by decide) (sub_trans_right hN))
  · exact State.note_only _ (State.wr_only (f.key i j) _ h (sub_trans_left hN)) (sub_of (by decide) (sub_trans_right hN))

theorem State.hwSetBit_only (f : Fld) (i j n : Nat) (h : Only N s0 s) (hN : f.mask ||| evMask ||| N = N) :
    Only N s0 (s.hwSetBit f i j n) := by
  unfold State.hwSetBit
  split
  · exact State.superseded_only h (sub_of (by decide) (sub_trans_right hN))
  · exact State.note_only _ (State.wr_only (f.key i j) _ h (sub_trans_left hN)) (sub_of (by decide) (sub_trans_right hN))

theorem State.count_only (f sat : Fld) (i j n : Nat) (h : Only N s0 s) (hN : f.mask ||| sat.mask ||| evMask ||| N = N) :
    Only N s0 (s.count f sat i j n) := by
  unfold State.count
  split
  · exact State.superseded_only h (sub_of (by decide) (sub_trans_right hN))
  · exact State.note_only _ (State.addCount_only _ _ _ _ _ h (sub_trans_left hN)) (sub_of (by decide) (sub_trans_right hN))

/-- A clear that acts leaves `t`, one that is discarded leaves `s`; either can count. -/
theorem State.clearing_only {t : State} (k : RegKey) (lo : Nat) (h : Only N s0 s) (g : Only N s0 t) (hN : evMask ||| N = N) :
    Only N s0 (s.clearing t k lo) := by
  unfold State.clearing
  split
  · exact State.superseded_only h (sub_of (by decide) hN)
  · exact State.supersede_only _ (State.note_only _ g (sub_of (by decide) hN)) (sub_of (by decide) hN)

theorem State.clear_only (f : Fld) (i j : Nat) (h : Only N s0 s) (hN : f.mask ||| evMask ||| N = N) :
    Only N s0 (s.clear f i j) :=
  State.clearing_only _ _ h (State.set_only _ _ _ _ h (sub_trans_left hN)) (sub_trans_right hN)

end

end Sys2Proof.Machine
end

