-- ==== Sys2Proof/Laws/Frame/Ops.lean ====
section
/-!
SUPPORT. Ops.lean: what each operation of Machine/Ops.lean can change (see Only).
-/
namespace Sys2Proof.Machine
set_option Elab.async false

theorem State.emit_within (s : State) (o : Output) :
    Only 0x40000000000000000000000000000000000000000000000000000000000000 s (State.emit s o) := by
  unfold State.emit
  repeat' first
    | with_reducible exact Only.refl _ _
    | with_reducible refine Only.ite (fun _ => ?_) (fun _ => ?_)
    | with_reducible refine Only.foldl ?_ (fun _ _ => ?_)
    | fail_if_no_progress with_reducible refine Only.fields ?_ rfl rfl

theorem State.emit_only {N : Nat} {σ s : State} (o : Output) (hσ : Only N σ s)
    (hN : 0x40000000000000000000000000000000000000000000000000000000000000 ||| N = N) : Only N σ (State.emit s o) := hσ.step (State.emit_within s o) hN

theorem State.useFree_within (s : State) :
    Only 0x80000000000000000000000000000000000000000000000000000000000000 s (State.useFree s) := by
  unfold State.useFree
  repeat' first
    | with_reducible exact Only.refl _ _
    | with_reducible refine Only.ite (fun _ => ?_) (fun _ => ?_)
    | with_reducible refine Only.foldl ?_ (fun _ _ => ?_)
    | fail_if_no_progress with_reducible refine Only.fields ?_ rfl rfl

theorem State.useFree_only {N : Nat} {σ s : State}  (hσ : Only N σ s)
    (hN : 0x80000000000000000000000000000000000000000000000000000000000000 ||| N = N) : Only N σ (State.useFree s) := hσ.step (State.useFree_within s) hN

theorem State.putBytes_only {N : Nat} {s0 s : State} (a : Nat) (l : List Nat) (h : Only N s0 s) (hN : 0x100000000000000000000000000000000000000000000000000000000000000 ||| N = N) :
    Only N s0 (s.putBytes a l) := by
  induction l generalizing s a with
  | nil => exact h
  | cons b l ih => exact ih _ (State.putByte_only _ _ h hN)

theorem State.decideEvent_within (s : State) (o : Obj) (cls : Nat) (rank : Nat) (eff : Nat) :
    Only 0x4000000000000000000000000000000000000000000000000000000001000 s (State.decideEvent s o cls rank eff).2 := by
  unfold State.decideEvent
  repeat' first
    | with_reducible exact Only.refl _ _
    | with_reducible refine Only.ite (fun _ => ?_) (fun _ => ?_)
    | with_reducible refine Only.foldl ?_ (fun _ _ => ?_)
    | with_reducible refine OnlyOut.next ?_
    | with_reducible refine OnlyOut.ite (fun _ => ?_) (fun _ => ?_)
    | with_reducible refine State.note_only _ ?_ (by decide)
    | with_reducible refine State.superseded_only ?_ (by decide)
    | split

theorem State.decideEvent_only {N : Nat} {σ s : State} (o : Obj) (cls : Nat) (rank : Nat) (eff : Nat) (hσ : Only N σ s)
    (hN : 0x4000000000000000000000000000000000000000000000000000000001000 ||| N = N) : Only N σ (State.decideEvent s o cls rank eff).2 := hσ.step (State.decideEvent_within s o cls rank eff) hN

theorem State.decideEvent_only_eq {N : Nat} {σ s t : State} {o : Obj} {cls : Nat} {rank : Nat} {eff : Nat} {v : Verdict} (heq : State.decideEvent s o cls rank eff = (v, t)) (hσ : Only N σ s)
    (hN : 0x4000000000000000000000000000000000000000000000000000000001000 ||| N = N) : Only N σ t := hσ.step (Only.snd heq (State.decideEvent_within s o cls rank eff)) hN

theorem Only.onObj {N : Nat} {s0 s : State} {o : Obj} {cls rank eff : Nat} {f : State → State} (h : Only N s0 s)
    (hf : ∀ t, Only N t (f t)) (hN : 0x4000000000000000000000000000000000000000000000000000000001000 ||| N = N) : Only N s0 (s.onObj o cls rank eff f) := by
  unfold State.onObj
  split
  · next heq => exact (State.decideEvent_only_eq heq h hN).step (hf _) (Nat.or_self N)
  · next heq => exact State.decideEvent_only_eq heq h hN

theorem State.discardAt_within (s : State) (o : Obj) (cls : Nat) :
    Only 0x1000 s (State.discardAt s o cls) := by
  unfold State.discardAt
  repeat' first
    | with_reducible exact Only.refl _ _
    | with_reducible refine Only.ite (fun _ => ?_) (fun _ => ?_)
    | with_reducible refine Only.foldl ?_ (fun _ _ => ?_)
    | with_reducible refine State.superseded_only ?_ (by decide)

theorem State.discardAt_only {N : Nat} {σ s : State} (o : Obj) (cls : Nat) (hσ : Only N σ s)
    (hN : 0x1000 ||| N = N) : Only N σ (State.discardAt s o cls) := hσ.step (State.discardAt_within s o cls) hN

end Sys2Proof.Machine
end

