-- ==== Sys2Proof/Laws/Frame/OpsHost.lean ====
section
/-!
SUPPORT. OpsHost.lean: what each operation of Machine/OpsHost.lean can change (see Only).
-/
namespace Sys2Proof.Machine
set_option Elab.async false

theorem State.setRingX_within (s : State) (q : Nat) (r : RingX) :
    Only 0x800000000000000000000000000000000000000000000000000000000000000 s (State.setRingX s q r) := by
  unfold State.setRingX
  repeat' first
    | with_reducible exact Only.refl _ _
    | with_reducible refine Only.ite (fun _ => ?_) (fun _ => ?_)
    | with_reducible refine Only.foldl ?_ (fun _ _ => ?_)
    | fail_if_no_progress with_reducible refine Only.fields ?_ rfl rfl

theorem State.setRingX_only {N : Nat} {σ s : State} (q : Nat) (r : RingX) (hσ : Only N σ s)
    (hN : 0x800000000000000000000000000000000000000000000000000000000000000 ||| N = N) : Only N σ (State.setRingX s q r) := hσ.step (State.setRingX_within s q r) hN

theorem State.wroteEntry_within (s : State) (q : Nat) (irq : Bool) :
    Only 0x800000000000000000000000000000000000000000000000000000000000000 s (State.wroteEntry s q irq) := by
  unfold State.wroteEntry
  repeat' first
    | with_reducible exact Only.refl _ _
    | with_reducible refine Only.ite (fun _ => ?_) (fun _ => ?_)
    | with_reducible refine Only.foldl ?_ (fun _ _ => ?_)
    | with_reducible refine State.setRingX_only _ _ ?_ (by decide)

theorem State.wroteEntry_only {N : Nat} {σ s : State} (q : Nat) (irq : Bool) (hσ : Only N σ s)
    (hN : 0x800000000000000000000000000000000000000000000000000000000000000 ||| N = N) : Only N σ (State.wroteEntry s q irq) := hσ.step (State.wroteEntry_within s q irq) hN

theorem State.hostWrite_within (s : State) (o : Output) :
    Only 0x40000000000000000000000000000000000000000000000000000000000000 s (State.hostWrite s o) := by
  unfold State.hostWrite
  repeat' first
    | with_reducible exact Only.refl _ _
    | with_reducible refine Only.ite (fun _ => ?_) (fun _ => ?_)
    | with_reducible refine Only.foldl ?_ (fun _ _ => ?_)
    | with_reducible refine State.emit_only _ ?_ (by decide)

theorem State.hostWrite_only {N : Nat} {σ s : State} (o : Output) (hσ : Only N σ s)
    (hN : 0x40000000000000000000000000000000000000000000000000000000000000 ||| N = N) : Only N σ (State.hostWrite s o) := hσ.step (State.hostWrite_within s o) hN

theorem State.mapBarriers_within (s : State) (f : List (Nat × Nat) → List (Nat × Nat)) :
    Only 0x800000000000000000000000000000000000000000000000000000000000000 s (State.mapBarriers s f) := by
  unfold State.mapBarriers
  repeat' first
    | with_reducible exact Only.refl _ _
    | with_reducible refine Only.ite (fun _ => ?_) (fun _ => ?_)
    | with_reducible refine Only.foldl ?_ (fun _ _ => ?_)
    | fail_if_no_progress with_reducible refine Only.fields ?_ rfl rfl

theorem State.mapBarriers_only {N : Nat} {σ s : State} (f : List (Nat × Nat) → List (Nat × Nat)) (hσ : Only N σ s)
    (hN : 0x800000000000000000000000000000000000000000000000000000000000000 ||| N = N) : Only N σ (State.mapBarriers s f) := hσ.step (State.mapBarriers_within s f) hN

theorem State.capBarriers_within (s : State) (q : Nat) (n : Nat) :
    Only 0x800000000000000000000000000000000000000000000000000000000000000 s (State.capBarriers s q n) := by
  unfold State.capBarriers
  repeat' first
    | with_reducible exact Only.refl _ _
    | with_reducible refine Only.ite (fun _ => ?_) (fun _ => ?_)
    | with_reducible refine Only.foldl ?_ (fun _ _ => ?_)
    | with_reducible refine State.mapBarriers_only _ ?_ (by decide)

theorem State.capBarriers_only {N : Nat} {σ s : State} (q : Nat) (n : Nat) (hσ : Only N σ s)
    (hN : 0x800000000000000000000000000000000000000000000000000000000000000 ||| N = N) : Only N σ (State.capBarriers s q n) := hσ.step (State.capBarriers_within s q n) hN

theorem State.cutRing_within (s : State) (q : Nat) :
    Only 0x800000000000000000000000000000000000000000000000000000000100000 s (State.cutRing s q) := by
  unfold State.cutRing
  repeat' first
    | with_reducible exact Only.refl _ _
    | with_reducible refine Only.ite (fun _ => ?_) (fun _ => ?_)
    | with_reducible refine Only.foldl ?_ (fun _ _ => ?_)
    | with_reducible refine State.capBarriers_only _ _ ?_ (by decide)
    | with_reducible refine State.setRingX_only _ _ ?_ (by decide)
    | with_reducible refine State.set_only _ _ _ _ ?_ (by decide)

theorem State.cutRing_only {N : Nat} {σ s : State} (q : Nat) (hσ : Only N σ s)
    (hN : 0x800000000000000000000000000000000000000000000000000000000100000 ||| N = N) : Only N σ (State.cutRing s q) := hσ.step (State.cutRing_within s q) hN

theorem State.recordFail_within (s : State) (q : Nat) :
    Only 0x804000000000000000000000000000000000000000000000000000000101000 s (State.recordFail s q) := by
  unfold State.recordFail
  repeat' first
    | with_reducible exact Only.refl _ _
    | with_reducible refine Only.ite (fun _ => ?_) (fun _ => ?_)
    | with_reducible refine Only.foldl ?_ (fun _ _ => ?_)
    | fail_if_no_progress with_reducible refine Only.fields ?_ rfl rfl
    | with_reducible refine State.cutRing_only _ ?_ (by decide)
    | with_reducible refine State.hwSet_only _ _ _ ?_ (by decide)

theorem State.recordFail_only {N : Nat} {σ s : State} (q : Nat) (hσ : Only N σ s)
    (hN : 0x804000000000000000000000000000000000000000000000000000000101000 ||| N = N) : Only N σ (State.recordFail s q) := hσ.step (State.recordFail_within s q) hN

theorem State.pushEntry_within (s : State) (q : Nat) (ws : List Word) :
    Only 0x844000000000000000000000000000000000000000000000000000000141000 s (State.pushEntry s q ws) := by
  unfold State.pushEntry
  repeat' first
    | with_reducible exact Only.refl _ _
    | with_reducible refine Only.ite (fun _ => ?_) (fun _ => ?_)
    | with_reducible refine Only.foldl ?_ (fun _ _ => ?_)
    | with_reducible refine State.recordFail_only _ ?_ (by decide)
    | with_reducible refine State.wroteEntry_only _ _ ?_ (by decide)
    | with_reducible refine State.emit_only _ ?_ (by decide)
    | with_reducible refine State.set_only _ _ _ _ ?_ (by decide)

theorem State.pushEntry_only {N : Nat} {σ s : State} (q : Nat) (ws : List Word) (hσ : Only N σ s)
    (hN : 0x844000000000000000000000000000000000000000000000000000000141000 ||| N = N) : Only N σ (State.pushEntry s q ws) := hσ.step (State.pushEntry_within s q ws) hN

theorem State.reportLost_within (s : State) (q : Nat) :
    Only 0x844000000000000000000000000000000000000000000000000000000141000 s (State.reportLost s q) := by
  unfold State.reportLost
  repeat' first
    | with_reducible exact Only.refl _ _
    | with_reducible refine Only.ite (fun _ => ?_) (fun _ => ?_)
    | with_reducible refine Only.foldl ?_ (fun _ _ => ?_)
    | with_reducible refine State.pushEntry_only _ _ ?_ (by decide)
    | with_reducible refine State.setRingX_only _ _ ?_ (by decide)

theorem State.reportLost_only {N : Nat} {σ s : State} (q : Nat) (hσ : Only N σ s)
    (hN : 0x844000000000000000000000000000000000000000000000000000000141000 ||| N = N) : Only N σ (State.reportLost s q) := hσ.step (State.reportLost_within s q) hN

theorem State.pushRecord_within (s : State) (q : Nat) (ws : List Word) :
    Only 0x844000000000000000000000000000000000000000000000000000000141000 s (State.pushRecord s q ws) := by
  unfold State.pushRecord
  repeat' first
    | with_reducible exact Only.refl _ _
    | with_reducible refine Only.ite (fun _ => ?_) (fun _ => ?_)
    | with_reducible refine Only.foldl ?_ (fun _ _ => ?_)
    | with_reducible refine State.reportLost_only _ ?_ (by decide)
    | with_reducible refine State.pushEntry_only _ _ ?_ (by decide)
    | with_reducible refine State.setRingX_only _ _ ?_ (by decide)
    | with_reducible refine State.count_only _ _ _ _ _ ?_ (by decide)

theorem State.pushRecord_only {N : Nat} {σ s : State} (q : Nat) (ws : List Word) (hσ : Only N σ s)
    (hN : 0x844000000000000000000000000000000000000000000000000000000141000 ||| N = N) : Only N σ (State.pushRecord s q ws) := hσ.step (State.pushRecord_within s q ws) hN

theorem State.post_within (s : State) (code : Nat) (src : Nat) (detail : Nat) :
    Only 0x844000000000000000000000000000000000000000000000000000000145000 s (State.post s code src detail) := by
  unfold State.post
  repeat' first
    | with_reducible exact Only.refl _ _
    | with_reducible refine Only.ite (fun _ => ?_) (fun _ => ?_)
    | with_reducible refine Only.foldl ?_ (fun _ _ => ?_)
    | with_reducible refine State.pushRecord_only _ _ ?_ (by decide)
    | with_reducible refine State.count_only _ _ _ _ _ ?_ (by decide)
    | split

theorem State.post_only {N : Nat} {σ s : State} (code : Nat) (src : Nat) (detail : Nat) (hσ : Only N σ s)
    (hN : 0x844000000000000000000000000000000000000000000000000000000145000 ||| N = N) : Only N σ (State.post s code src detail) := hσ.step (State.post_within s code src detail) hN

theorem State.namedRing_within (s : State) (kind : Nat) (idx : Nat) (q : Nat) (ty : Nat) (self : Bool) :
    Only 0x844000000000000000000000000000000000000000000000000000000145000 s (State.namedRing s kind idx q ty self).2 := by
  unfold State.namedRing
  repeat' first
    | with_reducible exact Only.refl _ _
    | with_reducible refine Only.ite (fun _ => ?_) (fun _ => ?_)
    | with_reducible refine Only.foldl ?_ (fun _ _ => ?_)
    | fail_if_no_progress with_reducible refine Only.fields ?_ rfl rfl
    | with_reducible refine State.post_only _ _ _ ?_ (by decide)
    | split

theorem State.namedRing_only {N : Nat} {σ s : State} (kind : Nat) (idx : Nat) (q : Nat) (ty : Nat) (self : Bool) (hσ : Only N σ s)
    (hN : 0x844000000000000000000000000000000000000000000000000000000145000 ||| N = N) : Only N σ (State.namedRing s kind idx q ty self).2 := hσ.step (State.namedRing_within s kind idx q ty self) hN

theorem State.namedRing_only_eq {N : Nat} {σ s t : State} {kind : Nat} {idx : Nat} {q : Nat} {ty : Nat} {self : Bool} {v : Bool} (heq : State.namedRing s kind idx q ty self = (v, t)) (hσ : Only N σ s)
    (hN : 0x844000000000000000000000000000000000000000000000000000000145000 ||| N = N) : Only N σ t := hσ.step (Only.snd heq (State.namedRing_within s kind idx q ty self)) hN

theorem State.rearm_within (s : State) (kind : Nat) (idx : Nat) :
    Only 0x800000000000000000000000000000000000000000000000000000000000000 s (State.rearm s kind idx) := by
  unfold State.rearm
  repeat' first
    | with_reducible exact Only.refl _ _
    | with_reducible refine Only.ite (fun _ => ?_) (fun _ => ?_)
    | with_reducible refine Only.foldl ?_ (fun _ _ => ?_)
    | fail_if_no_progress with_reducible refine Only.fields ?_ rfl rfl

theorem State.rearm_only {N : Nat} {σ s : State} (kind : Nat) (idx : Nat) (hσ : Only N σ s)
    (hN : 0x800000000000000000000000000000000000000000000000000000000000000 ||| N = N) : Only N σ (State.rearm s kind idx) := hσ.step (State.rearm_within s kind idx) hN

theorem State.rearmRing_within (s : State) (q : Nat) :
    Only 0x800000000000000000000000000000000000000000000000000000000000000 s (State.rearmRing s q) := by
  unfold State.rearmRing
  repeat' first
    | with_reducible exact Only.refl _ _
    | with_reducible refine Only.ite (fun _ => ?_) (fun _ => ?_)
    | with_reducible refine Only.foldl ?_ (fun _ _ => ?_)
    | fail_if_no_progress with_reducible refine Only.fields ?_ rfl rfl

theorem State.rearmRing_only {N : Nat} {σ s : State} (q : Nat) (hσ : Only N σ s)
    (hN : 0x800000000000000000000000000000000000000000000000000000000000000 ||| N = N) : Only N σ (State.rearmRing s q) := hσ.step (State.rearmRing_within s q) hN

theorem State.drained_within (s : State) (q : Nat) :
    Only 0x100000 s (State.drained s q) := by
  unfold State.drained
  repeat' first
    | with_reducible exact Only.refl _ _
    | with_reducible refine Only.ite (fun _ => ?_) (fun _ => ?_)
    | with_reducible refine Only.foldl ?_ (fun _ _ => ?_)
    | with_reducible refine State.set_only _ _ _ _ ?_ (by decide)

theorem State.drained_only {N : Nat} {σ s : State} (q : Nat) (hσ : Only N σ s)
    (hN : 0x100000 ||| N = N) : Only N σ (State.drained s q) := hσ.step (State.drained_within s q) hN

theorem State.writeOwnRecord_within (s : State) (q : Nat) :
    Only 0x844000000000000000000000000000000000000000000000000000000145000 s (State.writeOwnRecord s q) := by
  unfold State.writeOwnRecord
  repeat' first
    | with_reducible exact Only.refl _ _
    | with_reducible refine Only.ite (fun _ => ?_) (fun _ => ?_)
    | with_reducible refine Only.foldl ?_ (fun _ _ => ?_)
    | with_reducible refine State.drained_only _ ?_ (by decide)
    | with_reducible refine State.namedRing_only _ _ _ _ _ ?_ (by decide)
    | with_reducible refine State.namedRing_only_eq (by assumption) ?_ (by decide)
    | with_reducible refine State.pushEntry_only _ _ ?_ (by decide)
    | with_reducible refine State.setRingX_only _ _ ?_ (by decide)
    | split
    | extract_lets

theorem State.writeOwnRecord_only {N : Nat} {σ s : State} (q : Nat) (hσ : Only N σ s)
    (hN : 0x844000000000000000000000000000000000000000000000000000000145000 ||| N = N) : Only N σ (State.writeOwnRecord s q) := hσ.step (State.writeOwnRecord_within s q) hN

theorem State.writeCompletion_within (s : State) (q : Nat) :
    Only 0x844000000000000000000000000000000000000000000000000000000145000 s (State.writeCompletion s q) := by
  unfold State.writeCompletion
  repeat' first
    | with_reducible exact Only.refl _ _
    | with_reducible refine Only.ite (fun _ => ?_) (fun _ => ?_)
    | with_reducible refine Only.foldl ?_ (fun _ _ => ?_)
    | with_reducible refine State.writeOwnRecord_only _ ?_ (by decide)

theorem State.writeCompletion_only {N : Nat} {σ s : State} (q : Nat) (hσ : Only N σ s)
    (hN : 0x844000000000000000000000000000000000000000000000000000000145000 ||| N = N) : Only N σ (State.writeCompletion s q) := hσ.step (State.writeCompletion_within s q) hN

theorem State.writeBack_within (s : State) (q : Nat) (d : Desc) (st : Nat) (w1 : Word) (w2 : Word) (w3 : Word) :
    Only 0x840000000000000000000000000000000000000000000000000000000040000 s (State.writeBack s q d st w1 w2 w3) := by
  unfold State.writeBack
  repeat' first
    | with_reducible exact Only.refl _ _
    | with_reducible refine Only.ite (fun _ => ?_) (fun _ => ?_)
    | with_reducible refine Only.foldl ?_ (fun _ _ => ?_)
    | with_reducible refine State.mapBarriers_only _ ?_ (by decide)
    | with_reducible refine State.wroteEntry_only _ _ ?_ (by decide)
    | with_reducible refine State.emit_only _ ?_ (by decide)
    | with_reducible refine State.set_only _ _ _ _ ?_ (by decide)

theorem State.writeBack_only {N : Nat} {σ s : State} (q : Nat) (d : Desc) (st : Nat) (w1 : Word) (w2 : Word) (w3 : Word) (hσ : Only N σ s)
    (hN : 0x840000000000000000000000000000000000000000000000000000000040000 ||| N = N) : Only N σ (State.writeBack s q d st w1 w2 w3) := hσ.step (State.writeBack_within s q d st w1 w2 w3) hN

theorem State.flushRuns_within (s : State) (q : Nat) (y0 : List Run) :
    Only 0x840000000000000000000000000000000000000000000000000000000040000 s (State.flushRuns s q y0) := by
  induction y0 generalizing s q with
  | nil =>
    unfold State.flushRuns
    repeat' first
      | with_reducible exact Only.refl _ _
      | with_reducible refine Only.ite (fun _ => ?_) (fun _ => ?_)
      | with_reducible refine Only.foldl ?_ (fun _ _ => ?_)
      | fail_if_no_progress with_reducible refine Only.fields ?_ rfl rfl
      | with_reducible refine State.writeBack_only _ _ _ _ _ _ ?_ (by decide)
      | with_reducible refine State.setRingX_only _ _ ?_ (by decide)

  | cons a l ih =>
    unfold State.flushRuns
    repeat' first
      | with_reducible exact Only.refl _ _
      | with_reducible refine Only.ite (fun _ => ?_) (fun _ => ?_)
      | with_reducible refine Only.foldl ?_ (fun _ _ => ?_)
      | fail_if_no_progress with_reducible refine Only.fields ?_ rfl rfl
      | with_reducible refine State.writeBack_only _ _ _ _ _ _ ?_ (by decide)
      | with_reducible refine State.setRingX_only _ _ ?_ (by decide)
      | exact ih ..
      | refine Only.step ?_ (ih ..) (by decide)
      | split


theorem State.flushRuns_only {N : Nat} {σ s : State} (q : Nat) (y0 : List Run) (hσ : Only N σ s)
    (hN : 0x840000000000000000000000000000000000000000000000000000000040000 ||| N = N) : Only N σ (State.flushRuns s q y0) := hσ.step (State.flushRuns_within s q y0) hN

theorem State.endRun_within (s : State) (q : Nat) (i : Nat) (st : Nat) (w1 : Word) (w2 : Word) (w3 : Word) :
    Only 0x844000000000000000000000000000000000000000000000000000000145000 s (State.endRun s q i st w1 w2 w3) := by
  unfold State.endRun
  repeat' first
    | with_reducible exact Only.refl _ _
    | with_reducible refine Only.ite (fun _ => ?_) (fun _ => ?_)
    | with_reducible refine Only.foldl ?_ (fun _ _ => ?_)
    | with_reducible refine State.flushRuns_only _ _ ?_ (by decide)
    | with_reducible refine State.writeCompletion_only _ ?_ (by decide)
    | with_reducible refine State.drained_only _ ?_ (by decide)
    | with_reducible refine State.recordFail_only _ ?_ (by decide)

theorem State.endRun_only {N : Nat} {σ s : State} (q : Nat) (i : Nat) (st : Nat) (w1 : Word) (w2 : Word) (w3 : Word) (hσ : Only N σ s)
    (hN : 0x844000000000000000000000000000000000000000000000000000000145000 ||| N = N) : Only N σ (State.endRun s q i st w1 w2 w3) := hσ.step (State.endRun_within s q i st w1 w2 w3) hN

theorem State.releaseBarriers_within (s : State) :
    Only 0x844000000000000000000000000000000000000000000000000000000145000 s (State.releaseBarriers s) := by
  unfold State.releaseBarriers
  repeat' first
    | with_reducible exact Only.refl _ _
    | with_reducible refine Only.ite (fun _ => ?_) (fun _ => ?_)
    | with_reducible refine Only.foldl ?_ (fun _ _ => ?_)
    | with_reducible refine State.endRun_only _ _ _ _ _ _ ?_ (by decide)
    | with_reducible refine State.setRingX_only _ _ ?_ (by decide)

theorem State.releaseBarriers_only {N : Nat} {σ s : State}  (hσ : Only N σ s)
    (hN : 0x844000000000000000000000000000000000000000000000000000000145000 ||| N = N) : Only N σ (State.releaseBarriers s) := hσ.step (State.releaseBarriers_within s) hN

theorem State.complete_within (s : State) (t : Token) (st : Nat) (w1 : Word) (w2 : Word) (w3 : Word) :
    Only 0x844000000000000000000000000000000000000000000000000000000145000 s (State.complete s t st w1 w2 w3) := by
  unfold State.complete
  repeat' first
    | with_reducible exact Only.refl _ _
    | with_reducible refine Only.ite (fun _ => ?_) (fun _ => ?_)
    | with_reducible refine Only.foldl ?_ (fun _ _ => ?_)
    | with_reducible refine State.releaseBarriers_only  ?_ (by decide)
    | with_reducible refine State.endRun_only _ _ _ _ _ _ ?_ (by decide)

theorem State.complete_only {N : Nat} {σ s : State} (t : Token) (st : Nat) (w1 : Word) (w2 : Word) (w3 : Word) (hσ : Only N σ s)
    (hN : 0x844000000000000000000000000000000000000000000000000000000145000 ||| N = N) : Only N σ (State.complete s t st w1 w2 w3) := hσ.step (State.complete_within s t st w1 w2 w3) hN

theorem State.completeSame_within (s : State) (t : Token) (st : Nat) :
    Only 0x844000000000000000000000000000000000000000000000000000000145000 s (State.completeSame s t st) := by
  unfold State.completeSame
  repeat' first
    | with_reducible exact Only.refl _ _
    | with_reducible refine Only.ite (fun _ => ?_) (fun _ => ?_)
    | with_reducible refine Only.foldl ?_ (fun _ _ => ?_)
    | with_reducible refine State.complete_only _ _ _ _ _ ?_ (by decide)
    | split

theorem State.completeSame_only {N : Nat} {σ s : State} (t : Token) (st : Nat) (hσ : Only N σ s)
    (hN : 0x844000000000000000000000000000000000000000000000000000000145000 ||| N = N) : Only N σ (State.completeSame s t st) := hσ.step (State.completeSame_within s t st) hN

theorem State.begin_only {N : Nat} {s0 s t : State} {q ty : Nat} {d : Desc} {tok : Token} (h : s.begin q ty = some (d, tok, t))
    (g : Only N s0 s) (hN : 0x800000000000000000000000000000000000000000000000000000000000000 ||| N = N) : Only N s0 t := by
  unfold State.begin at h
  dsimp only at h
  split at h
  · cases h
  · split at h
    · cases h
      exact State.setRingX_only _ _ g hN
    · cases h

theorem State.beginRx_only {N : Nat} {s0 s t : State} {q : Nat} {d : Desc} {tok : Token} (h : s.beginRx q = some (d, tok, t))
    (g : Only N s0 s) (hN : 0x800000000000000000000000000000000000000000000000000000000000000 ||| N = N) : Only N s0 t := by
  unfold State.beginRx at h
  dsimp only at h
  split at h
  · cases h
  · split at h
    · cases h
      exact State.setRingX_only _ _ g hN
    · cases h

theorem State.beginCommand_only {N : Nat} {s0 s t : State} {q op : Nat} {d : Desc} {tok : Token}
    (h : s.beginCommand q op = some (d, tok, t))
    (g : Only N s0 s) (hN : 0x800000000000000000000000000000000000000000000000000000000000000 ||| N = N) : Only N s0 t := by
  unfold State.beginCommand at h
  split at h
  · cases h
  · split at h
    · exact State.begin_only h g hN
    · cases h

theorem State.msix_within (s : State) (v : Nat) :
    Only 0x840000000000000000000000000000000000000000000000000000000000000 s (State.msix s v) := by
  unfold State.msix
  repeat' first
    | with_reducible exact Only.refl _ _
    | with_reducible refine Only.ite (fun _ => ?_) (fun _ => ?_)
    | with_reducible refine Only.foldl ?_ (fun _ _ => ?_)
    | fail_if_no_progress with_reducible refine Only.fields ?_ rfl rfl
    | with_reducible refine State.hostWrite_only _ ?_ (by decide)

theorem State.msix_only {N : Nat} {σ s : State} (v : Nat) (hσ : Only N σ s)
    (hN : 0x840000000000000000000000000000000000000000000000000000000000000 ||| N = N) : Only N σ (State.msix s v) := hσ.step (State.msix_within s v) hN

theorem State.msixUnmask_within (s : State) (v : Nat) :
    Only 0x840000000000000000000000000000000000000000000000000000000000000 s (State.msixUnmask s v) := by
  unfold State.msixUnmask
  repeat' first
    | with_reducible exact Only.refl _ _
    | with_reducible refine Only.ite (fun _ => ?_) (fun _ => ?_)
    | with_reducible refine Only.foldl ?_ (fun _ _ => ?_)
    | fail_if_no_progress with_reducible refine Only.fields ?_ rfl rfl
    | with_reducible refine State.msix_only _ ?_ (by decide)

theorem State.msixUnmask_only {N : Nat} {σ s : State} (v : Nat) (hσ : Only N σ s)
    (hN : 0x840000000000000000000000000000000000000000000000000000000000000 ||| N = N) : Only N σ (State.msixUnmask s v) := hσ.step (State.msixUnmask_within s v) hN

theorem State.indexWriteBack_within (s : State) (q : Nat) :
    Only 0x840000000000000000000000000000000000000000000000000000000000000 s (State.indexWriteBack s q) := by
  unfold State.indexWriteBack
  repeat' first
    | with_reducible exact Only.refl _ _
    | with_reducible refine Only.ite (fun _ => ?_) (fun _ => ?_)
    | with_reducible refine Only.foldl ?_ (fun _ _ => ?_)
    | with_reducible refine State.hostWrite_only _ ?_ (by decide)
    | with_reducible refine State.setRingX_only _ _ ?_ (by decide)

theorem State.indexWriteBack_only {N : Nat} {σ s : State} (q : Nat) (hσ : Only N σ s)
    (hN : 0x840000000000000000000000000000000000000000000000000000000000000 ||| N = N) : Only N σ (State.indexWriteBack s q) := hσ.step (State.indexWriteBack_within s q) hN

theorem State.ringTick_within (s : State) (q : Nat) :
    Only 0x840000000000000000000000000000000000000000000000000000000100000 s (State.ringTick s q) := by
  unfold State.ringTick
  repeat' first
    | with_reducible exact Only.refl _ _
    | with_reducible refine Only.ite (fun _ => ?_) (fun _ => ?_)
    | with_reducible refine Only.foldl ?_ (fun _ _ => ?_)
    | with_reducible refine State.indexWriteBack_only _ ?_ (by decide)
    | with_reducible refine State.msix_only _ ?_ (by decide)
    | with_reducible refine State.cutRing_only _ ?_ (by decide)
    | with_reducible refine State.setRingX_only _ _ ?_ (by decide)

theorem State.ringTick_only {N : Nat} {σ s : State} (q : Nat) (hσ : Only N σ s)
    (hN : 0x840000000000000000000000000000000000000000000000000000000100000 ||| N = N) : Only N σ (State.ringTick s q) := hσ.step (State.ringTick_within s q) hN

theorem State.reportFailed_within (s : State) (y0 : Nat) :
    Only 0x844000000000000000000000000000000000000000000000000000000145000 s (State.reportFailed s y0) := by
  induction y0 generalizing s with
  | zero =>
    unfold State.reportFailed
    repeat' first
      | with_reducible exact Only.refl _ _

  | succ n ih =>
    unfold State.reportFailed
    repeat' first
      | with_reducible exact Only.refl _ _
      | with_reducible refine Only.ite (fun _ => ?_) (fun _ => ?_)
      | with_reducible refine Only.foldl ?_ (fun _ _ => ?_)
      | fail_if_no_progress with_reducible refine Only.fields ?_ rfl rfl
      | with_reducible refine State.post_only _ _ _ ?_ (by decide)
      | exact ih ..
      | refine Only.step ?_ (ih ..) (by decide)
      | split


theorem State.reportFailed_only {N : Nat} {σ s : State} (y0 : Nat) (hσ : Only N σ s)
    (hN : 0x844000000000000000000000000000000000000000000000000000000145000 ||| N = N) : Only N σ (State.reportFailed s y0) := hσ.step (State.reportFailed_within s y0) hN

theorem State.endRings_within (s : State) :
    Only 0x844000000000000000000000000000000000000000000000000000000145000 s (State.endRings s) := by
  unfold State.endRings
  repeat' first
    | with_reducible exact Only.refl _ _
    | with_reducible refine Only.ite (fun _ => ?_) (fun _ => ?_)
    | with_reducible refine Only.foldl ?_ (fun _ _ => ?_)
    | with_reducible refine State.reportFailed_only _ ?_ (by decide)
    | with_reducible refine State.ringTick_only _ ?_ (by decide)
    | with_reducible refine State.releaseBarriers_only  ?_ (by decide)

theorem State.endRings_only {N : Nat} {σ s : State}  (hσ : Only N σ s)
    (hN : 0x844000000000000000000000000000000000000000000000000000000145000 ||| N = N) : Only N σ (State.endRings s) := hσ.step (State.endRings_within s) hN

end Sys2Proof.Machine
end

