-- ==== Sys2Proof/Laws/Frame/OpsThread.lean ====
section
/-!
SUPPORT. OpsThread.lean: what each operation of Machine/OpsThread.lean can change (see Only).
-/
namespace Sys2Proof.Machine
set_option Elab.async false

theorem State.setCoreX_within (s : State) (c : Nat) (x : CoreX) :
    Only 0x1000000000000000000000000000000000000000000000000000000000000000 s (State.setCoreX s c x) := by
  unfold State.setCoreX
  repeat' first
    | with_reducible exact Only.refl _ _
    | with_reducible refine Only.ite (fun _ => ?_) (fun _ => ?_)
    | with_reducible refine Only.foldl ?_ (fun _ _ => ?_)
    | fail_if_no_progress with_reducible refine Only.fields ?_ rfl rfl

theorem State.setCoreX_only {N : Nat} {σ s : State} (c : Nat) (x : CoreX) (hσ : Only N σ s)
    (hN : 0x1000000000000000000000000000000000000000000000000000000000000000 ||| N = N) : Only N σ (State.setCoreX s c x) := hσ.step (State.setCoreX_within s c x) hN

theorem State.setReadyList_within (s : State) (l : Nat) (ts : List Nat) :
    Only 0x1000000000000000000000000000000000000000000000000000000000000000 s (State.setReadyList s l ts) := by
  unfold State.setReadyList
  repeat' first
    | with_reducible exact Only.refl _ _
    | with_reducible refine Only.ite (fun _ => ?_) (fun _ => ?_)
    | with_reducible refine Only.foldl ?_ (fun _ _ => ?_)
    | fail_if_no_progress with_reducible refine Only.fields ?_ rfl rfl

theorem State.setReadyList_only {N : Nat} {σ s : State} (l : Nat) (ts : List Nat) (hσ : Only N σ s)
    (hN : 0x1000000000000000000000000000000000000000000000000000000000000000 ||| N = N) : Only N σ (State.setReadyList s l ts) := hσ.step (State.setReadyList_within s l ts) hN

theorem State.unready_within (s : State) (j : Nat) :
    Only 0x1000000000000000000000000000000000000000000000000000000000000000 s (State.unready s j) := by
  unfold State.unready
  repeat' first
    | with_reducible exact Only.refl _ _
    | with_reducible refine Only.ite (fun _ => ?_) (fun _ => ?_)
    | with_reducible refine Only.foldl ?_ (fun _ _ => ?_)
    | fail_if_no_progress with_reducible refine Only.fields ?_ rfl rfl

theorem State.unready_only {N : Nat} {σ s : State} (j : Nat) (hσ : Only N σ s)
    (hN : 0x1000000000000000000000000000000000000000000000000000000000000000 ||| N = N) : Only N σ (State.unready s j) := hσ.step (State.unready_within s j) hN

theorem State.makeReady_within (s : State) (j : Nat) (head : Bool) :
    Only 0x1000000000000000000000000000000000000000400000000000000000000000 s (State.makeReady s j head) := by
  unfold State.makeReady
  repeat' first
    | with_reducible exact Only.refl _ _
    | with_reducible refine Only.ite (fun _ => ?_) (fun _ => ?_)
    | with_reducible refine Only.foldl ?_ (fun _ _ => ?_)
    | fail_if_no_progress with_reducible refine Only.fields ?_ rfl rfl
    | with_reducible refine State.unready_only _ ?_ (by decide)
    | with_reducible refine State.setReadyList_only _ _ ?_ (by decide)
    | with_reducible refine State.set_only _ _ _ _ ?_ (by decide)

theorem State.makeReady_only {N : Nat} {σ s : State} (j : Nat) (head : Bool) (hσ : Only N σ s)
    (hN : 0x1000000000000000000000000000000000000000400000000000000000000000 ||| N = N) : Only N σ (State.makeReady s j head) := hσ.step (State.makeReady_within s j head) hN

theorem State.wakeByFlags_within (s : State) (j : Nat) (rank : Nat) :
    Only 0x1004000000000000000000000000000000000000400000000000000000001000 s (State.wakeByFlags s j rank) := by
  unfold State.wakeByFlags
  repeat' first
    | with_reducible exact Only.refl _ _
    | with_reducible refine Only.ite (fun _ => ?_) (fun _ => ?_)
    | with_reducible refine Only.foldl ?_ (fun _ _ => ?_)
    | with_reducible refine State.makeReady_only _ _ ?_ (by decide)
    | with_reducible refine Only.onObj ?_ (fun _ => ?_) (by decide)
    | with_reducible refine State.setBit_only _ _ _ _ ?_ (by decide)

theorem State.wakeByFlags_only {N : Nat} {σ s : State} (j : Nat) (rank : Nat) (hσ : Only N σ s)
    (hN : 0x1004000000000000000000000000000000000000400000000000000000001000 ||| N = N) : Only N σ (State.wakeByFlags s j rank) := hσ.step (State.wakeByFlags_within s j rank) hN

theorem State.setFlag_within (s : State) (j : Nat) (rank : Nat) (i : Nat) :
    Only 0x4000000000000000000000000000000000000400000000000000000001000 s (State.setFlag s j rank i) := by
  unfold State.setFlag
  repeat' first
    | with_reducible exact Only.refl _ _
    | with_reducible refine Only.ite (fun _ => ?_) (fun _ => ?_)
    | with_reducible refine Only.foldl ?_ (fun _ _ => ?_)
    | with_reducible refine Only.onObj ?_ (fun _ => ?_) (by decide)
    | with_reducible refine State.set_only _ _ _ _ ?_ (by decide)
    | with_reducible refine State.superseded_only ?_ (by decide)
    | split

theorem State.setFlag_only {N : Nat} {σ s : State} (j : Nat) (rank : Nat) (i : Nat) (hσ : Only N σ s)
    (hN : 0x4000000000000000000000000000000000000400000000000000000001000 ||| N = N) : Only N σ (State.setFlag s j rank i) := hσ.step (State.setFlag_within s j rank i) hN

theorem State.setFlags_within (s : State) (j : Nat) (mask : Nat) (src : Src) :
    Only 0x1004000000000000000000000000000000000000400000000000000000001000 s (State.setFlags s j mask src) := by
  unfold State.setFlags
  repeat' first
    | with_reducible exact Only.refl _ _
    | with_reducible refine Only.ite (fun _ => ?_) (fun _ => ?_)
    | with_reducible refine Only.foldl ?_ (fun _ _ => ?_)
    | with_reducible refine State.setFlag_only _ _ _ ?_ (by decide)
    | with_reducible refine State.wakeByFlags_only _ _ ?_ (by decide)

theorem State.setFlags_only {N : Nat} {σ s : State} (j : Nat) (mask : Nat) (src : Src) (hσ : Only N σ s)
    (hN : 0x1004000000000000000000000000000000000000400000000000000000001000 ||| N = N) : Only N σ (State.setFlags s j mask src) := hσ.step (State.setFlags_within s j mask src) hN

theorem State.putSramBytes_within (s : State) (a : Nat) (y0 : List Nat) :
    Only 0x1000000000000000000000000000000000000000000000000000000000000000 s (State.putSramBytes s a y0) := by
  induction y0 generalizing s a with
  | nil =>
    unfold State.putSramBytes
    repeat' first
      | with_reducible exact Only.refl _ _

  | cons a l ih =>
    unfold State.putSramBytes
    repeat' first
      | with_reducible exact Only.refl _ _
      | with_reducible refine Only.ite (fun _ => ?_) (fun _ => ?_)
      | with_reducible refine Only.foldl ?_ (fun _ _ => ?_)
      | fail_if_no_progress with_reducible refine Only.fields ?_ rfl rfl
      | with_reducible refine State.wr_only _ _ ?_ (by exact anyReg _ (by decide))
      | exact ih ..
      | refine Only.step ?_ (ih ..) (by decide)


theorem State.putSramBytes_only {N : Nat} {σ s : State} (a : Nat) (y0 : List Nat) (hσ : Only N σ s)
    (hN : 0x1000000000000000000000000000000000000000000000000000000000000000 ||| N = N) : Only N σ (State.putSramBytes s a y0) := hσ.step (State.putSramBytes_within s a y0) hN

theorem State.unreserve_within (s : State) (a : Nat) (n : Nat) (c : Nat) :
    Only 0x1000000000000000000000000000000000000000000000000000000000000000 s (State.unreserve s a n c) := by
  unfold State.unreserve
  repeat' first
    | with_reducible exact Only.refl _ _
    | with_reducible refine Only.ite (fun _ => ?_) (fun _ => ?_)
    | with_reducible refine Only.foldl ?_ (fun _ _ => ?_)
    | with_reducible refine State.setCoreX_only _ _ ?_ (by decide)
    | split
    | extract_lets

theorem State.unreserve_only {N : Nat} {σ s : State} (a : Nat) (n : Nat) (c : Nat) (hσ : Only N σ s)
    (hN : 0x1000000000000000000000000000000000000000000000000000000000000000 ||| N = N) : Only N σ (State.unreserve s a n c) := hσ.step (State.unreserve_within s a n c) hN

theorem State.storeSram_within (s : State) (by_ : Option Nat) (a : Nat) (bytes : List Nat) :
    Only 0x1000000000000000000000000000000000000000000000000000000000000000 s (State.storeSram s by_ a bytes) := by
  unfold State.storeSram
  repeat' first
    | with_reducible exact Only.refl _ _
    | with_reducible refine Only.ite (fun _ => ?_) (fun _ => ?_)
    | with_reducible refine Only.foldl ?_ (fun _ _ => ?_)
    | fail_if_no_progress with_reducible refine Only.fields ?_ rfl rfl
    | with_reducible refine State.unreserve_only _ _ _ ?_ (by decide)
    | with_reducible refine State.putSramBytes_only _ _ ?_ (by decide)

theorem State.storeSram_only {N : Nat} {σ s : State} (by_ : Option Nat) (a : Nat) (bytes : List Nat) (hσ : Only N σ s)
    (hN : 0x1000000000000000000000000000000000000000000000000000000000000000 ||| N = N) : Only N σ (State.storeSram s by_ a bytes) := hσ.step (State.storeSram_within s by_ a bytes) hN

theorem State.putSram_within (s : State) (a : Nat) (bytes : List Nat) :
    Only 0x1000000000000000000000000000000000000000000000000000000000000000 s (State.putSram s a bytes) := by
  unfold State.putSram
  repeat' first
    | with_reducible exact Only.refl _ _
    | with_reducible refine Only.ite (fun _ => ?_) (fun _ => ?_)
    | with_reducible refine Only.foldl ?_ (fun _ _ => ?_)
    | with_reducible refine State.storeSram_only _ _ _ ?_ (by decide)

theorem State.putSram_only {N : Nat} {σ s : State} (a : Nat) (bytes : List Nat) (hσ : Only N σ s)
    (hN : 0x1000000000000000000000000000000000000000000000000000000000000000 ||| N = N) : Only N σ (State.putSram s a bytes) := hσ.step (State.putSram_within s a bytes) hN

theorem State.inboxPut_within (s : State) (m : Mail) :
    Only 0x1004000000000000000000000000000000000080400000000000000000001000 s (State.inboxPut s m) := by
  unfold State.inboxPut
  repeat' first
    | with_reducible exact Only.refl _ _
    | with_reducible refine Only.ite (fun _ => ?_) (fun _ => ?_)
    | with_reducible refine Only.foldl ?_ (fun _ _ => ?_)
    | with_reducible refine State.putSram_only _ _ ?_ (by decide)
    | with_reducible refine State.setFlags_only _ _ _ ?_ (by decide)
    | with_reducible refine State.set_only _ _ _ _ ?_ (by decide)

theorem State.inboxPut_only {N : Nat} {σ s : State} (m : Mail) (hσ : Only N σ s)
    (hN : 0x1004000000000000000000000000000000000080400000000000000000001000 ||| N = N) : Only N σ (State.inboxPut s m) := hσ.step (State.inboxPut_within s m) hN

end Sys2Proof.Machine
end

