-- ==== Sys2Proof/Laws/Frame/OpsLink.lean ====
section
/-!
SUPPORT. OpsLink.lean: what each operation of Machine/OpsLink.lean can change (see Only).
-/
namespace Sys2Proof.Machine
set_option Elab.async false

theorem State.setPortX_within (s : State) (p : Nat) (x : PortX) :
    Only 0x400000000000000000000000000000000000000000000000000000000000000 s (State.setPortX s p x) := by
  unfold State.setPortX
  repeat' first
    | with_reducible exact Only.refl _ _
    | with_reducible refine Only.ite (fun _ => ?_) (fun _ => ?_)
    | with_reducible refine Only.foldl ?_ (fun _ _ => ?_)
    | fail_if_no_progress with_reducible refine Only.fields ?_ rfl rfl

theorem State.setPortX_only {N : Nat} {σ s : State} (p : Nat) (x : PortX) (hσ : Only N σ s)
    (hN : 0x400000000000000000000000000000000000000000000000000000000000000 ||| N = N) : Only N σ (State.setPortX s p x) := hσ.step (State.setPortX_within s p x) hN

theorem State.discardFrames_within (s : State) (p : Nat) (n : Nat) :
    Only 0x4000000000000000000000000000000000000000000000200000000001000 s (State.discardFrames s p n) := by
  unfold State.discardFrames
  repeat' first
    | with_reducible exact Only.refl _ _
    | with_reducible refine Only.ite (fun _ => ?_) (fun _ => ?_)
    | with_reducible refine Only.foldl ?_ (fun _ _ => ?_)
    | with_reducible refine State.count_only _ _ _ _ _ ?_ (by decide)

theorem State.discardFrames_only {N : Nat} {σ s : State} (p : Nat) (n : Nat) (hσ : Only N σ s)
    (hN : 0x4000000000000000000000000000000000000000000000200000000001000 ||| N = N) : Only N σ (State.discardFrames s p n) := hσ.step (State.discardFrames_within s p n) hN

theorem State.enqueue_within (s : State) (p : Nat) (f : Frame) (tok : Option Token) :
    Only 0x404000000000000000000000000000000000000000000000200000000001000 s (State.enqueue s p f tok) := by
  unfold State.enqueue
  repeat' first
    | with_reducible exact Only.refl _ _
    | with_reducible refine Only.ite (fun _ => ?_) (fun _ => ?_)
    | with_reducible refine Only.foldl ?_ (fun _ _ => ?_)
    | with_reducible refine State.discardFrames_only _ _ ?_ (by decide)
    | with_reducible refine State.setPortX_only _ _ ?_ (by decide)

theorem State.enqueue_only {N : Nat} {σ s : State} (p : Nat) (f : Frame) (tok : Option Token) (hσ : Only N σ s)
    (hN : 0x404000000000000000000000000000000000000000000000200000000001000 ||| N = N) : Only N σ (State.enqueue s p f tok) := hσ.step (State.enqueue_within s p f tok) hN

theorem State.enqueueMask_within (s : State) (mask : Nat) (f : Frame) :
    Only 0x404000000000000000000000000000000000000000000000200000000001000 s (State.enqueueMask s mask f) := by
  unfold State.enqueueMask
  repeat' first
    | with_reducible exact Only.refl _ _
    | with_reducible refine Only.ite (fun _ => ?_) (fun _ => ?_)
    | with_reducible refine Only.foldl ?_ (fun _ _ => ?_)
    | with_reducible refine State.enqueue_only _ _ _ ?_ (by decide)

theorem State.enqueueMask_only {N : Nat} {σ s : State} (mask : Nat) (f : Frame) (hσ : Only N σ s)
    (hN : 0x404000000000000000000000000000000000000000000000200000000001000 ||| N = N) : Only N σ (State.enqueueMask s mask f) := hσ.step (State.enqueueMask_within s mask f) hN

theorem State.originate_within (s : State) (cls : Nat) (sub : Nat) (payload : List Nat) :
    Only 0x404000000000000000000000000000000000000000000000200000000001000 s (State.originate s cls sub payload) := by
  unfold State.originate
  repeat' first
    | with_reducible exact Only.refl _ _
    | with_reducible refine Only.ite (fun _ => ?_) (fun _ => ?_)
    | with_reducible refine Only.foldl ?_ (fun _ _ => ?_)
    | with_reducible refine State.enqueueMask_only _ _ ?_ (by decide)

theorem State.originate_only {N : Nat} {σ s : State} (cls : Nat) (sub : Nat) (payload : List Nat) (hσ : Only N σ s)
    (hN : 0x404000000000000000000000000000000000000000000000200000000001000 ||| N = N) : Only N σ (State.originate s cls sub payload) := hσ.step (State.originate_within s cls sub payload) hN

theorem State.unicast_within (s : State) (p : Nat) (chip : Nat) (cls : Nat) (sub : Nat) (payload : List Nat) (tok : Option Token) :
    Only 0x404000000000000000000000000000000000000000000000200000000001000 s (State.unicast s p chip cls sub payload tok) := by
  unfold State.unicast
  repeat' first
    | with_reducible exact Only.refl _ _
    | with_reducible refine Only.ite (fun _ => ?_) (fun _ => ?_)
    | with_reducible refine Only.foldl ?_ (fun _ _ => ?_)
    | with_reducible refine State.enqueue_only _ _ _ ?_ (by decide)

theorem State.unicast_only {N : Nat} {σ s : State} (p : Nat) (chip : Nat) (cls : Nat) (sub : Nat) (payload : List Nat) (tok : Option Token) (hσ : Only N σ s)
    (hN : 0x404000000000000000000000000000000000000000000000200000000001000 ||| N = N) : Only N σ (State.unicast s p chip cls sub payload tok) := hσ.step (State.unicast_within s p chip cls sub payload tok) hN

theorem State.forwardBcast_within (s : State) (p : Nat) (f : Frame) :
    Only 0x404000000000000000000000000000000000000000000000200000000001000 s (State.forwardBcast s p f) := by
  unfold State.forwardBcast
  repeat' first
    | with_reducible exact Only.refl _ _
    | with_reducible refine Only.ite (fun _ => ?_) (fun _ => ?_)
    | with_reducible refine Only.foldl ?_ (fun _ _ => ?_)
    | with_reducible refine State.enqueue_only _ _ _ ?_ (by decide)
    | with_reducible refine State.discardFrames_only _ _ ?_ (by decide)

theorem State.forwardBcast_only {N : Nat} {σ s : State} (p : Nat) (f : Frame) (hσ : Only N σ s)
    (hN : 0x404000000000000000000000000000000000000000000000200000000001000 ||| N = N) : Only N σ (State.forwardBcast s p f) := hσ.step (State.forwardBcast_within s p f) hN

theorem State.broadcastOp_within (s : State) (e : Nat) :
    Only 0x400000000000000000000000000000000000000000000000000000000000000 s (State.broadcastOp s e) := by
  unfold State.broadcastOp
  repeat' first
    | with_reducible exact Only.refl _ _
    | with_reducible refine Only.ite (fun _ => ?_) (fun _ => ?_)
    | with_reducible refine Only.foldl ?_ (fun _ _ => ?_)
    | fail_if_no_progress with_reducible refine Only.fields ?_ rfl rfl

theorem State.broadcastOp_only {N : Nat} {σ s : State} (e : Nat) (hσ : Only N σ s)
    (hN : 0x400000000000000000000000000000000000000000000000000000000000000 ||| N = N) : Only N σ (State.broadcastOp s e) := hσ.step (State.broadcastOp_within s e) hN

theorem State.sendFlags_within (s : State) :
    Only 0x404000000000000000000000000000000000000000000000200000000001000 s (State.sendFlags s) := by
  unfold State.sendFlags
  repeat' first
    | with_reducible exact Only.refl _ _
    | with_reducible refine Only.ite (fun _ => ?_) (fun _ => ?_)
    | with_reducible refine Only.foldl ?_ (fun _ _ => ?_)
    | fail_if_no_progress with_reducible refine Only.fields ?_ rfl rfl
    | with_reducible refine State.originate_only _ _ _ ?_ (by decide)

theorem State.sendFlags_only {N : Nat} {σ s : State}  (hσ : Only N σ s)
    (hN : 0x404000000000000000000000000000000000000000000000200000000001000 ||| N = N) : Only N σ (State.sendFlags s) := hσ.step (State.sendFlags_within s) hN

theorem State.gfOp_within (s : State) (i : Nat) (set : Bool) (src : Src) (forward : Bool) :
    Only 0x404000000000000000000000000000000000000000000000001000000001000 s (State.gfOp s i set src forward) := by
  unfold State.gfOp
  repeat' first
    | with_reducible exact Only.refl _ _
    | with_reducible refine Only.ite (fun _ => ?_) (fun _ => ?_)
    | with_reducible refine Only.foldl ?_ (fun _ _ => ?_)
    | with_reducible refine State.broadcastOp_only _ ?_ (by decide)
    | with_reducible refine Only.onObj ?_ (fun _ => ?_) (by decide)
    | with_reducible refine State.set_only _ _ _ _ ?_ (by decide)

theorem State.gfOp_only {N : Nat} {σ s : State} (i : Nat) (set : Bool) (src : Src) (forward : Bool) (hσ : Only N σ s)
    (hN : 0x404000000000000000000000000000000000000000000000001000000001000 ||| N = N) : Only N σ (State.gfOp s i set src forward) := hσ.step (State.gfOp_within s i set src forward) hN

theorem State.gfResetOp_within (s : State) (src : Src) (forward : Bool) :
    Only 0x404000000000000000000000000000000000000000000000001000000000000 s (State.gfResetOp s src forward) := by
  unfold State.gfResetOp
  repeat' first
    | with_reducible exact Only.refl _ _
    | with_reducible refine Only.ite (fun _ => ?_) (fun _ => ?_)
    | with_reducible refine Only.foldl ?_ (fun _ _ => ?_)
    | with_reducible refine State.broadcastOp_only _ ?_ (by decide)
    | with_reducible refine State.set_only _ _ _ _ ?_ (by decide)
    | with_reducible refine State.note_only _ ?_ (by decide)

theorem State.gfResetOp_only {N : Nat} {σ s : State} (src : Src) (forward : Bool) (hσ : Only N σ s)
    (hN : 0x404000000000000000000000000000000000000000000000001000000000000 ||| N = N) : Only N σ (State.gfResetOp s src forward) := hσ.step (State.gfResetOp_within s src forward) hN

theorem State.ackFrames_within (s : State) (p : Nat) (k : Nat) :
    Only 0xc44000000000000000000000000000000000000000000000000000000145000 s (State.ackFrames s p k) := by
  unfold State.ackFrames
  repeat' first
    | with_reducible exact Only.refl _ _
    | with_reducible refine Only.ite (fun _ => ?_) (fun _ => ?_)
    | with_reducible refine Only.foldl ?_ (fun _ _ => ?_)
    | with_reducible refine State.setPortX_only _ _ ?_ (by decide)
    | with_reducible refine State.completeSame_only _ _ ?_ (by decide)
    | split

theorem State.ackFrames_only {N : Nat} {σ s : State} (p : Nat) (k : Nat) (hσ : Only N σ s)
    (hN : 0xc44000000000000000000000000000000000000000000000000000000145000 ||| N = N) : Only N σ (State.ackFrames s p k) := hσ.step (State.ackFrames_within s p k) hN

theorem State.report_within (s : State) (p : Nat) (code : Nat) (detail : Nat) :
    Only 0x400000000000000000000000000000000000000000000000000000000000000 s (State.report s p code detail) := by
  unfold State.report
  repeat' first
    | with_reducible exact Only.refl _ _
    | with_reducible refine Only.ite (fun _ => ?_) (fun _ => ?_)
    | with_reducible refine Only.foldl ?_ (fun _ _ => ?_)
    | with_reducible refine State.setPortX_only _ _ ?_ (by decide)

theorem State.report_only {N : Nat} {σ s : State} (p : Nat) (code : Nat) (detail : Nat) (hσ : Only N σ s)
    (hN : 0x400000000000000000000000000000000000000000000000000000000000000 ||| N = N) : Only N σ (State.report s p code detail) := hσ.step (State.report_within s p code detail) hN

theorem State.linkReports_within (s : State) :
    Only 0xc44000000000000000000000000000000000000000000000000000000145000 s (State.linkReports s) := by
  unfold State.linkReports
  repeat' first
    | with_reducible exact Only.refl _ _
    | with_reducible refine Only.ite (fun _ => ?_) (fun _ => ?_)
    | with_reducible refine Only.foldl ?_ (fun _ _ => ?_)
    | with_reducible refine State.setPortX_only _ _ ?_ (by decide)
    | with_reducible refine State.post_only _ _ _ ?_ (by decide)

theorem State.linkReports_only {N : Nat} {σ s : State}  (hσ : Only N σ s)
    (hN : 0xc44000000000000000000000000000000000000000000000000000000145000 ||| N = N) : Only N σ (State.linkReports s) := hσ.step (State.linkReports_within s) hN

theorem State.linkDown_within (s : State) (p : Nat) :
    Only 0x404000000000000000000000000000000000000000000000300000000001000 s (State.linkDown s p) := by
  unfold State.linkDown
  repeat' first
    | with_reducible exact Only.refl _ _
    | with_reducible refine Only.ite (fun _ => ?_) (fun _ => ?_)
    | with_reducible refine Only.foldl ?_ (fun _ _ => ?_)
    | with_reducible refine State.report_only _ _ _ ?_ (by decide)
    | with_reducible refine State.setPortX_only _ _ ?_ (by decide)
    | with_reducible refine State.set_only _ _ _ _ ?_ (by decide)
    | with_reducible refine State.hwSet_only _ _ _ ?_ (by decide)
    | with_reducible refine State.count_only _ _ _ _ _ ?_ (by decide)

theorem State.linkDown_only {N : Nat} {σ s : State} (p : Nat) (hσ : Only N σ s)
    (hN : 0x404000000000000000000000000000000000000000000000300000000001000 ||| N = N) : Only N σ (State.linkDown s p) := hσ.step (State.linkDown_within s p) hN

theorem State.resend_within (s : State) (p : Nat) :
    Only 0x404000000000000000000000000000000000000000000000300000000001000 s (State.resend s p) := by
  unfold State.resend
  repeat' first
    | with_reducible exact Only.refl _ _
    | with_reducible refine Only.ite (fun _ => ?_) (fun _ => ?_)
    | with_reducible refine Only.foldl ?_ (fun _ _ => ?_)
    | with_reducible refine State.linkDown_only _ ?_ (by decide)
    | with_reducible refine State.setPortX_only _ _ ?_ (by decide)

theorem State.resend_only {N : Nat} {σ s : State} (p : Nat) (hσ : Only N σ s)
    (hN : 0x404000000000000000000000000000000000000000000000300000000001000 ||| N = N) : Only N σ (State.resend s p) := hσ.step (State.resend_within s p) hN

theorem State.rxHeader_within (s : State) (p : Nat) (f : Frame) :
    Only 0xc44000000000000000000000000000000000000000000000300000000145000 s (State.rxHeader s p f) := by
  unfold State.rxHeader
  repeat' first
    | with_reducible exact Only.refl _ _
    | with_reducible refine Only.ite (fun _ => ?_) (fun _ => ?_)
    | with_reducible refine Only.foldl ?_ (fun _ _ => ?_)
    | with_reducible refine State.resend_only _ ?_ (by decide)
    | with_reducible refine State.ackFrames_only _ _ ?_ (by decide)

theorem State.rxHeader_only {N : Nat} {σ s : State} (p : Nat) (f : Frame) (hσ : Only N σ s)
    (hN : 0xc44000000000000000000000000000000000000000000000300000000145000 ||| N = N) : Only N σ (State.rxHeader s p f) := hσ.step (State.rxHeader_within s p f) hN

theorem State.badFrame_within (s : State) (p : Nat) :
    Only 0x404000000000000000000000000000000000000000000000200000000001000 s (State.badFrame s p) := by
  unfold State.badFrame
  repeat' first
    | with_reducible exact Only.refl _ _
    | with_reducible refine Only.ite (fun _ => ?_) (fun _ => ?_)
    | with_reducible refine Only.foldl ?_ (fun _ _ => ?_)
    | with_reducible refine State.setPortX_only _ _ ?_ (by decide)
    | with_reducible refine State.count_only _ _ _ _ _ ?_ (by decide)

theorem State.badFrame_only {N : Nat} {σ s : State} (p : Nat) (hσ : Only N σ s)
    (hN : 0x404000000000000000000000000000000000000000000000200000000001000 ||| N = N) : Only N σ (State.badFrame s p) := hσ.step (State.badFrame_within s p) hN

theorem State.rxFrame_within (s : State) (p : Nat) (raw : List Nat) :
    Only 0xc44000000000000000000000000000000000000000000000300000000145000 s (State.rxFrame s p raw).2 := by
  unfold State.rxFrame
  repeat' first
    | with_reducible exact Only.refl _ _
    | with_reducible refine Only.ite (fun _ => ?_) (fun _ => ?_)
    | with_reducible refine Only.foldl ?_ (fun _ _ => ?_)
    | with_reducible refine State.badFrame_only _ ?_ (by decide)
    | with_reducible refine State.rxHeader_only _ _ ?_ (by decide)
    | with_reducible refine State.setPortX_only _ _ ?_ (by decide)
    | split
    | extract_lets

theorem State.rxFrame_only {N : Nat} {σ s : State} (p : Nat) (raw : List Nat) (hσ : Only N σ s)
    (hN : 0xc44000000000000000000000000000000000000000000000300000000145000 ||| N = N) : Only N σ (State.rxFrame s p raw).2 := hσ.step (State.rxFrame_within s p raw) hN

theorem State.rxFrame_only_eq {N : Nat} {σ s t : State} {p : Nat} {raw : List Nat} {v : Option Frame} (heq : State.rxFrame s p raw = (v, t)) (hσ : Only N σ s)
    (hN : 0xc44000000000000000000000000000000000000000000000300000000145000 ||| N = N) : Only N σ t := hσ.step (Only.snd heq (State.rxFrame_within s p raw)) hN

theorem State.freeBuffer_within (s : State) (p : Nat) (c : Nat) :
    Only 0x400000000000000000000000000000000000000000000000000000000000000 s (State.freeBuffer s p c) := by
  unfold State.freeBuffer
  repeat' first
    | with_reducible exact Only.refl _ _
    | with_reducible refine Only.ite (fun _ => ?_) (fun _ => ?_)
    | with_reducible refine Only.foldl ?_ (fun _ _ => ?_)
    | with_reducible refine State.setPortX_only _ _ ?_ (by decide)

theorem State.freeBuffer_only {N : Nat} {σ s : State} (p : Nat) (c : Nat) (hσ : Only N σ s)
    (hN : 0x400000000000000000000000000000000000000000000000000000000000000 ||| N = N) : Only N σ (State.freeBuffer s p c) := hσ.step (State.freeBuffer_within s p c) hN

theorem State.bulkEnd_within (s : State) (i : Nat) (st : Nat) :
    Only 0xc44000000000000000000000000000000000000000000000040000000145000 s (State.bulkEnd s i st) := by
  unfold State.bulkEnd
  repeat' first
    | with_reducible exact Only.refl _ _
    | with_reducible refine Only.ite (fun _ => ?_) (fun _ => ?_)
    | with_reducible refine Only.foldl ?_ (fun _ _ => ?_)
    | fail_if_no_progress with_reducible refine Only.fields ?_ rfl rfl
    | with_reducible refine State.setPortX_only _ _ ?_ (by decide)
    | with_reducible refine State.post_only _ _ _ ?_ (by decide)
    | with_reducible refine State.set_only _ _ _ _ ?_ (by decide)
    | with_reducible refine State.hwSet_only _ _ _ ?_ (by decide)

theorem State.bulkEnd_only {N : Nat} {σ s : State} (i : Nat) (st : Nat) (hσ : Only N σ s)
    (hN : 0xc44000000000000000000000000000000000000000000000040000000145000 ||| N = N) : Only N σ (State.bulkEnd s i st) := hσ.step (State.bulkEnd_within s i st) hN

theorem State.bulkReply_within (s : State) (chip : Nat) (tag : Nat) (st : Nat) (written : Nat) :
    Only 0x404000000000000000000000000000000000000000000000200000000001000 s (State.bulkReply s chip tag st written) := by
  unfold State.bulkReply
  repeat' first
    | with_reducible exact Only.refl _ _
    | with_reducible refine Only.ite (fun _ => ?_) (fun _ => ?_)
    | with_reducible refine Only.foldl ?_ (fun _ _ => ?_)
    | with_reducible refine State.unicast_only _ _ _ _ _ _ ?_ (by decide)
    | split

theorem State.bulkReply_only {N : Nat} {σ s : State} (chip : Nat) (tag : Nat) (st : Nat) (written : Nat) (hσ : Only N σ s)
    (hN : 0x404000000000000000000000000000000000000000000000200000000001000 ||| N = N) : Only N σ (State.bulkReply s chip tag st written) := hσ.step (State.bulkReply_within s chip tag st written) hN

theorem State.bulkAbort_within (s : State) (p : Nat) :
    Only 0xc44000000000000000000000000000000000000000000000240000000145000 s (State.bulkAbort s p) := by
  unfold State.bulkAbort
  repeat' first
    | with_reducible exact Only.refl _ _
    | with_reducible refine Only.ite (fun _ => ?_) (fun _ => ?_)
    | with_reducible refine Only.foldl ?_ (fun _ _ => ?_)
    | fail_if_no_progress with_reducible refine Only.fields ?_ rfl rfl
    | with_reducible refine State.bulkReply_only _ _ _ _ ?_ (by decide)
    | with_reducible refine State.bulkEnd_only _ _ ?_ (by decide)

theorem State.bulkAbort_only {N : Nat} {σ s : State} (p : Nat) (hσ : Only N σ s)
    (hN : 0xc44000000000000000000000000000000000000000000000240000000145000 ||| N = N) : Only N σ (State.bulkAbort s p) := hσ.step (State.bulkAbort_within s p) hN

theorem State.dropBuffers_within (s : State) (p : Nat) (queueToo : Bool) :
    Only 0x404000000000000000000000000000000000000000000000200000000001000 s (State.dropBuffers s p queueToo) := by
  unfold State.dropBuffers
  repeat' first
    | with_reducible exact Only.refl _ _
    | with_reducible refine Only.ite (fun _ => ?_) (fun _ => ?_)
    | with_reducible refine Only.foldl ?_ (fun _ _ => ?_)
    | with_reducible refine State.discardFrames_only _ _ ?_ (by decide)
    | with_reducible refine State.setPortX_only _ _ ?_ (by decide)

theorem State.dropBuffers_only {N : Nat} {σ s : State} (p : Nat) (queueToo : Bool) (hσ : Only N σ s)
    (hN : 0x404000000000000000000000000000000000000000000000200000000001000 ||| N = N) : Only N σ (State.dropBuffers s p queueToo) := hσ.step (State.dropBuffers_within s p queueToo) hN

end Sys2Proof.Machine
end

