-- ==== Sys2Proof/Laws/Frame/OpsReg.lean ====
section
/-!
SUPPORT. OpsReg.lean: what each operation of Machine/OpsReg.lean can change (see Only).
-/
namespace Sys2Proof.Machine
set_option Elab.async false

end Sys2Proof.Machine
end

