-- ==== Sys2Proof/Laws/Frame/OpsChan.lean ====
section
/-!
SUPPORT. OpsChan.lean: what each operation of Machine/OpsChan.lean can change (see Only).
-/
namespace Sys2Proof.Machine
set_option Elab.async false

theorem State.setSeqX_within (s : State) (q : Nat) (x : SeqX) :
    Only 0x4000000000000000000000000000000000000000000000000000000000000000 s (State.setSeqX s q x) := by
  unfold State.setSeqX
  repeat' first
    | with_reducible exact Only.refl _ _
    | with_reducible refine Only.ite (fun _ => ?_) (fun _ => ?_)
    | with_reducible refine Only.foldl ?_ (fun _ _ => ?_)
    | fail_if_no_progress with_reducible refine Only.fields ?_ rfl rfl

theorem State.setSeqX_only {N : Nat} {σ s : State} (q : Nat) (x : SeqX) (hσ : Only N σ s)
    (hN : 0x4000000000000000000000000000000000000000000000000000000000000000 ||| N = N) : Only N σ (State.setSeqX s q x) := hσ.step (State.setSeqX_within s q x) hN

theorem State.setChan_within (s : State) (c : Nat) (x : ChanX) :
    Only 0x10000000000000000000000000000000000000000000000000000000000000000 s (State.setChan s c x) := by
  unfold State.setChan
  repeat' first
    | with_reducible exact Only.refl _ _
    | with_reducible refine Only.ite (fun _ => ?_) (fun _ => ?_)
    | with_reducible refine Only.foldl ?_ (fun _ _ => ?_)
    | fail_if_no_progress with_reducible refine Only.fields ?_ rfl rfl

theorem State.setChan_only {N : Nat} {σ s : State} (c : Nat) (x : ChanX) (hσ : Only N σ s)
    (hN : 0x10000000000000000000000000000000000000000000000000000000000000000 ||| N = N) : Only N σ (State.setChan s c x) := hσ.step (State.setChan_within s c x) hN

theorem State.setSeqState_within (s : State) (q : Nat) (v : Nat) :
    Only 0x1000000000000000000000000000000000000000000000 s (State.setSeqState s q v) := by
  unfold State.setSeqState
  repeat' first
    | with_reducible exact Only.refl _ _
    | with_reducible refine Only.ite (fun _ => ?_) (fun _ => ?_)
    | with_reducible refine Only.foldl ?_ (fun _ _ => ?_)
    | with_reducible refine State.set_only _ _ _ _ ?_ (by decide)

theorem State.setSeqState_only {N : Nat} {σ s : State} (q : Nat) (v : Nat) (hσ : Only N σ s)
    (hN : 0x1000000000000000000000000000000000000000000000 ||| N = N) : Only N σ (State.setSeqState s q v) := hσ.step (State.setSeqState_within s q v) hN

theorem State.defer_within (s : State) (q : Nat) (c : Nat) (l : List SeqAct) :
    Only 0x4000000000000000000000000000000000000000000000000000000000000000 s (State.defer s q c l) := by
  unfold State.defer
  repeat' first
    | with_reducible exact Only.refl _ _
    | with_reducible refine Only.ite (fun _ => ?_) (fun _ => ?_)
    | with_reducible refine Only.foldl ?_ (fun _ _ => ?_)
    | with_reducible refine State.setSeqX_only _ _ ?_ (by decide)

theorem State.defer_only {N : Nat} {σ s : State} (q : Nat) (c : Nat) (l : List SeqAct) (hσ : Only N σ s)
    (hN : 0x4000000000000000000000000000000000000000000000000000000000000000 ||| N = N) : Only N σ (State.defer s q c l) := hσ.step (State.defer_within s q c l) hN

theorem State.modSiteRun_within (s : State) (k : Nat) (f : SiteRun → SiteRun) :
    Only 0x400000000000000000000000000000000000000000000000000000000000000000 s (State.modSiteRun s k f) := by
  unfold State.modSiteRun
  repeat' first
    | with_reducible exact Only.refl _ _
    | with_reducible refine Only.ite (fun _ => ?_) (fun _ => ?_)
    | with_reducible refine Only.foldl ?_ (fun _ _ => ?_)
    | fail_if_no_progress with_reducible refine Only.fields ?_ rfl rfl

theorem State.modSiteRun_only {N : Nat} {σ s : State} (k : Nat) (f : SiteRun → SiteRun) (hσ : Only N σ s)
    (hN : 0x400000000000000000000000000000000000000000000000000000000000000000 ||| N = N) : Only N σ (State.modSiteRun s k f) := hσ.step (State.modSiteRun_within s k f) hN

theorem State.setStore_within (s : State) (q : Nat) (t : TsStore) :
    Only 0x20000000000000000000000000000000000000000000000000000000000000000 s (State.setStore s q t) := by
  unfold State.setStore
  repeat' first
    | with_reducible exact Only.refl _ _
    | with_reducible refine Only.ite (fun _ => ?_) (fun _ => ?_)
    | with_reducible refine Only.foldl ?_ (fun _ _ => ?_)
    | fail_if_no_progress with_reducible refine Only.fields ?_ rfl rfl

theorem State.setStore_only {N : Nat} {σ s : State} (q : Nat) (t : TsStore) (hσ : Only N σ s)
    (hN : 0x20000000000000000000000000000000000000000000000000000000000000000 ||| N = N) : Only N σ (State.setStore s q t) := hσ.step (State.setStore_within s q t) hN

theorem State.stage_within (s : State) (q : Nat) (t : Nat) (f : TSet → TSet) :
    Only 0x20000000000000020000000000000000000000000000000000000000000000000 s (State.stage s q t f) := by
  unfold State.stage
  repeat' first
    | with_reducible exact Only.refl _ _
    | with_reducible refine Only.ite (fun _ => ?_) (fun _ => ?_)
    | with_reducible refine Only.foldl ?_ (fun _ _ => ?_)
    | with_reducible refine State.setStore_only _ _ ?_ (by decide)
    | with_reducible refine State.set_only _ _ _ _ ?_ (by decide)

theorem State.stage_only {N : Nat} {σ s : State} (q : Nat) (t : Nat) (f : TSet → TSet) (hσ : Only N σ s)
    (hN : 0x20000000000000020000000000000000000000000000000000000000000000000 ||| N = N) : Only N σ (State.stage s q t f) := hσ.step (State.stage_within s q t f) hN

theorem State.stagePeriod_within (s : State) (q : Nat) (t : Nat) (v : Nat) :
    Only 0x20000000000000020000000000000000000000000000000000000000000000000 s (State.stagePeriod s q t v) := by
  unfold State.stagePeriod
  repeat' first
    | with_reducible exact Only.refl _ _
    | with_reducible refine Only.ite (fun _ => ?_) (fun _ => ?_)
    | with_reducible refine Only.foldl ?_ (fun _ _ => ?_)
    | with_reducible refine State.stage_only _ _ _ ?_ (by decide)

theorem State.stagePeriod_only {N : Nat} {σ s : State} (q : Nat) (t : Nat) (v : Nat) (hσ : Only N σ s)
    (hN : 0x20000000000000020000000000000000000000000000000000000000000000000 ||| N = N) : Only N σ (State.stagePeriod s q t v) := hσ.step (State.stagePeriod_within s q t v) hN

theorem State.stageEdge_within (s : State) (q : Nat) (t : Nat) (c : Nat) (i : Nat) (v : Nat) :
    Only 0x20000000000000020000000000000000000000000000000000000000000000000 s (State.stageEdge s q t c i v) := by
  unfold State.stageEdge
  repeat' first
    | with_reducible exact Only.refl _ _
    | with_reducible refine Only.ite (fun _ => ?_) (fun _ => ?_)
    | with_reducible refine Only.foldl ?_ (fun _ _ => ?_)
    | with_reducible refine State.stage_only _ _ _ ?_ (by decide)

theorem State.stageEdge_only {N : Nat} {σ s : State} (q : Nat) (t : Nat) (c : Nat) (i : Nat) (v : Nat) (hσ : Only N σ s)
    (hN : 0x20000000000000020000000000000000000000000000000000000000000000000 ||| N = N) : Only N σ (State.stageEdge s q t c i v) := hσ.step (State.stageEdge_within s q t c i v) hN

theorem State.stageWave_within (s : State) (q : Nat) (t : Nat) (c : Nat) (i : Nat) (v : Nat) :
    Only 0x20000000000000020000000000000000000000000000000000000000000000000 s (State.stageWave s q t c i v) := by
  unfold State.stageWave
  repeat' first
    | with_reducible exact Only.refl _ _
    | with_reducible refine Only.ite (fun _ => ?_) (fun _ => ?_)
    | with_reducible refine Only.foldl ?_ (fun _ _ => ?_)
    | with_reducible refine State.stage_only _ _ _ ?_ (by decide)

theorem State.stageWave_only {N : Nat} {σ s : State} (q : Nat) (t : Nat) (c : Nat) (i : Nat) (v : Nat) (hσ : Only N σ s)
    (hN : 0x20000000000000020000000000000000000000000000000000000000000000000 ||| N = N) : Only N σ (State.stageWave s q t c i v) := hσ.step (State.stageWave_within s q t c i v) hN

theorem State.transfer_within (s : State) (q : Nat) (t : Nat) :
    Only 0x20004000000000010000000000000000000000000000000000000000000001000 s (State.transfer s q t) := by
  unfold State.transfer
  repeat' first
    | with_reducible exact Only.refl _ _
    | with_reducible refine Only.ite (fun _ => ?_) (fun _ => ?_)
    | with_reducible refine Only.foldl ?_ (fun _ _ => ?_)
    | with_reducible refine OnlyOut.next ?_
    | with_reducible refine OnlyOut.ite (fun _ => ?_) (fun _ => ?_)
    | with_reducible refine State.setStore_only _ _ ?_ (by decide)
    | with_reducible refine State.hwSet_only _ _ _ ?_ (by decide)

theorem State.transfer_only {N : Nat} {σ s : State} (q : Nat) (t : Nat) (hσ : Only N σ s)
    (hN : 0x20004000000000010000000000000000000000000000000000000000000001000 ||| N = N) : Only N σ (State.transfer s q t) := hσ.step (State.transfer_within s q t) hN

theorem State.applyCommit_within (s : State) (q : Nat) :
    Only 0x20004000000000030000000000000000000000000000000000000000000001000 s (State.applyCommit s q) := by
  unfold State.applyCommit
  repeat' first
    | with_reducible exact Only.refl _ _
    | with_reducible refine Only.ite (fun _ => ?_) (fun _ => ?_)
    | with_reducible refine Only.foldl ?_ (fun _ _ => ?_)
    | with_reducible refine State.transfer_only _ _ ?_ (by decide)
    | with_reducible refine State.set_only _ _ _ _ ?_ (by decide)

theorem State.applyCommit_only {N : Nat} {σ s : State} (q : Nat) (hσ : Only N σ s)
    (hN : 0x20004000000000030000000000000000000000000000000000000000000001000 ||| N = N) : Only N σ (State.applyCommit s q) := hσ.step (State.applyCommit_within s q) hN

theorem State.clampSet_within (s : State) (q : Nat) (t : Nat) :
    Only 0x20004000000000010000000000000000000000000000000000000000000001000 s (State.clampSet s q t) := by
  unfold State.clampSet
  repeat' first
    | with_reducible exact Only.refl _ _
    | with_reducible refine Only.ite (fun _ => ?_) (fun _ => ?_)
    | with_reducible refine Only.foldl ?_ (fun _ _ => ?_)
    | with_reducible refine OnlyOut.next ?_
    | with_reducible refine OnlyOut.ite (fun _ => ?_) (fun _ => ?_)
    | with_reducible refine State.setStore_only _ _ ?_ (by decide)
    | with_reducible refine State.hwSet_only _ _ _ ?_ (by decide)

theorem State.clampSet_only {N : Nat} {σ s : State} (q : Nat) (t : Nat) (hσ : Only N σ s)
    (hN : 0x20004000000000010000000000000000000000000000000000000000000001000 ||| N = N) : Only N σ (State.clampSet s q t) := hσ.step (State.clampSet_within s q t) hN

theorem State.clampAll_within (s : State) (q : Nat) :
    Only 0x20004000000000010000000000000000000000000000000000000000000001000 s (State.clampAll s q) := by
  unfold State.clampAll
  repeat' first
    | with_reducible exact Only.refl _ _
    | with_reducible refine Only.ite (fun _ => ?_) (fun _ => ?_)
    | with_reducible refine Only.foldl ?_ (fun _ _ => ?_)
    | with_reducible refine State.clampSet_only _ _ ?_ (by decide)

theorem State.clampAll_only {N : Nat} {σ s : State} (q : Nat) (hσ : Only N σ s)
    (hN : 0x20004000000000010000000000000000000000000000000000000000000001000 ||| N = N) : Only N σ (State.clampAll s q) := hσ.step (State.clampAll_within s q) hN

theorem State.keepDeskew_within (s : State) (c : Nat) :
    Only 0x10000000000000000000000000000000000000000000000000000000000000000 s (State.keepDeskew s c) := by
  unfold State.keepDeskew
  repeat' first
    | with_reducible exact Only.refl _ _
    | with_reducible refine Only.ite (fun _ => ?_) (fun _ => ?_)
    | with_reducible refine Only.foldl ?_ (fun _ _ => ?_)
    | with_reducible refine State.setChan_only _ _ ?_ (by decide)

theorem State.keepDeskew_only {N : Nat} {σ s : State} (c : Nat) (hσ : Only N σ s)
    (hN : 0x10000000000000000000000000000000000000000000000000000000000000000 ||| N = N) : Only N σ (State.keepDeskew s c) := hσ.step (State.keepDeskew_within s c) hN

theorem State.modPass_within (s : State) (q : Nat) (blk : Nat) (n : Nat) (f : Pass → Pass) :
    Only 0x4000000000000000000000000000000000000000000000000000000000000000 s (State.modPass s q blk n f) := by
  unfold State.modPass
  repeat' first
    | with_reducible exact Only.refl _ _
    | with_reducible refine Only.ite (fun _ => ?_) (fun _ => ?_)
    | with_reducible refine Only.foldl ?_ (fun _ _ => ?_)
    | with_reducible refine State.setSeqX_only _ _ ?_ (by decide)

theorem State.modPass_only {N : Nat} {σ s : State} (q : Nat) (blk : Nat) (n : Nat) (f : Pass → Pass) (hσ : Only N σ s)
    (hN : 0x4000000000000000000000000000000000000000000000000000000000000000 ||| N = N) : Only N σ (State.modPass s q blk n f) := hσ.step (State.modPass_within s q blk n f) hN

theorem State.enter_within (s : State) (c : Nat) (start : Nat) (e : Ev) :
    Only 0x10004000000000000000000000000000004000000000000000000000000001000 s (State.enter s c start e) := by
  unfold State.enter
  repeat' first
    | with_reducible exact Only.refl _ _
    | with_reducible refine Only.ite (fun _ => ?_) (fun _ => ?_)
    | with_reducible refine Only.foldl ?_ (fun _ _ => ?_)
    | with_reducible refine State.setChan_only _ _ ?_ (by decide)
    | with_reducible refine State.count_only _ _ _ _ _ ?_ (by decide)

theorem State.enter_only {N : Nat} {σ s : State} (c : Nat) (start : Nat) (e : Ev) (hσ : Only N σ s)
    (hN : 0x10004000000000000000000000000000004000000000000000000000000001000 ||| N = N) : Only N σ (State.enter s c start e) := hσ.step (State.enter_within s c start e) hN

theorem State.issueVector_within (s : State) (q : Nat) (v : PlanVec) :
    Only 0x10004000000000000000000000000000004000000000000000000000000001000 s (State.issueVector s q v) := by
  unfold State.issueVector
  repeat' first
    | with_reducible exact Only.refl _ _
    | with_reducible refine Only.ite (fun _ => ?_) (fun _ => ?_)
    | with_reducible refine Only.foldl ?_ (fun _ _ => ?_)
    | with_reducible refine State.enter_only _ _ _ ?_ (by decide)

theorem State.issueVector_only {N : Nat} {σ s : State} (q : Nat) (v : PlanVec) (hσ : Only N σ s)
    (hN : 0x10004000000000000000000000000000004000000000000000000000000001000 ||| N = N) : Only N σ (State.issueVector s q v) := hσ.step (State.issueVector_within s q v) hN

theorem State.driveTo_within (s : State) (c : Nat) (drv : Bool) (den : Bool) (atDrv : Nat) (atDen : Nat) :
    Only 0x10040000000000000000000000000000000000000000000000000000000000000 s (State.driveTo s c drv den atDrv atDen) := by
  unfold State.driveTo
  repeat' first
    | with_reducible exact Only.refl _ _
    | with_reducible refine Only.ite (fun _ => ?_) (fun _ => ?_)
    | with_reducible refine Only.foldl ?_ (fun _ _ => ?_)
    | with_reducible refine State.setChan_only _ _ ?_ (by decide)
    | with_reducible refine State.emit_only _ ?_ (by decide)

theorem State.driveTo_only {N : Nat} {σ s : State} (c : Nat) (drv : Bool) (den : Bool) (atDrv : Nat) (atDen : Nat) (hσ : Only N σ s)
    (hN : 0x10040000000000000000000000000000000000000000000000000000000000000 ||| N = N) : Only N σ (State.driveTo s c drv den atDrv atDen) := hσ.step (State.driveTo_within s c drv den atDrv atDen) hN

theorem State.applyDrive_within (s : State) (c : Nat) (e : Ev) :
    Only 0x10040000000000000000000000000000000000000000000000000000000000000 s (State.applyDrive s c e) := by
  unfold State.applyDrive
  repeat' first
    | with_reducible exact Only.refl _ _
    | with_reducible refine Only.ite (fun _ => ?_) (fun _ => ?_)
    | with_reducible refine Only.foldl ?_ (fun _ _ => ?_)
    | with_reducible refine State.driveTo_only _ _ _ _ _ ?_ (by decide)

theorem State.applyDrive_only {N : Nat} {σ s : State} (c : Nat) (e : Ev) (hσ : Only N σ s)
    (hN : 0x10040000000000000000000000000000000000000000000000000000000000000 ||| N = N) : Only N σ (State.applyDrive s c e) := hσ.step (State.applyDrive_within s c e) hN

theorem State.abandonWindow_within (s : State) (c : Nat) :
    Only 0x10004000000000000000000000000000200000000000000000000000000001000 s (State.abandonWindow s c) := by
  unfold State.abandonWindow
  repeat' first
    | with_reducible exact Only.refl _ _
    | with_reducible refine Only.ite (fun _ => ?_) (fun _ => ?_)
    | with_reducible refine Only.foldl ?_ (fun _ _ => ?_)
    | with_reducible refine State.setChan_only _ _ ?_ (by decide)
    | with_reducible refine State.count_only _ _ _ _ _ ?_ (by decide)
    | split
    | extract_lets

theorem State.abandonWindow_only {N : Nat} {σ s : State} (c : Nat) (hσ : Only N σ s)
    (hN : 0x10004000000000000000000000000000200000000000000000000000000001000 ||| N = N) : Only N σ (State.abandonWindow s c) := hσ.step (State.abandonWindow_within s c) hN

theorem State.parkLevels_within (s : State) (c : Nat) (t : Nat) :
    Only 0x10040000000000000000000000000000000000000000000000000000000000000 s (State.parkLevels s c t) := by
  unfold State.parkLevels
  repeat' first
    | with_reducible exact Only.refl _ _
    | with_reducible refine Only.ite (fun _ => ?_) (fun _ => ?_)
    | with_reducible refine Only.foldl ?_ (fun _ _ => ?_)
    | with_reducible refine State.driveTo_only _ _ _ _ _ ?_ (by decide)

theorem State.parkLevels_only {N : Nat} {σ s : State} (c : Nat) (t : Nat) (hσ : Only N σ s)
    (hN : 0x10040000000000000000000000000000000000000000000000000000000000000 ||| N = N) : Only N σ (State.parkLevels s c t) := hσ.step (State.parkLevels_within s c t) hN

theorem State.parkChan_within (s : State) (c : Nat) (t : Nat) :
    Only 0x10044000000000000000000000000000200000000000000000000000000001000 s (State.parkChan s c t) := by
  unfold State.parkChan
  repeat' first
    | with_reducible exact Only.refl _ _
    | with_reducible refine Only.ite (fun _ => ?_) (fun _ => ?_)
    | with_reducible refine Only.foldl ?_ (fun _ _ => ?_)
    | with_reducible refine State.parkLevels_only _ _ ?_ (by decide)
    | with_reducible refine State.abandonWindow_only _ ?_ (by decide)
    | with_reducible refine State.setChan_only _ _ ?_ (by decide)

theorem State.parkChan_only {N : Nat} {σ s : State} (c : Nat) (t : Nat) (hσ : Only N σ s)
    (hN : 0x10044000000000000000000000000000200000000000000000000000000001000 ||| N = N) : Only N σ (State.parkChan s c t) := hσ.step (State.parkChan_within s c t) hN

theorem State.setPark_within (s : State) (c : Nat) (endAt : Nat) :
    Only 0x10000000000000000000000000000000000000000000000000000000000000000 s (State.setPark s c endAt) := by
  unfold State.setPark
  repeat' first
    | with_reducible exact Only.refl _ _
    | with_reducible refine Only.ite (fun _ => ?_) (fun _ => ?_)
    | with_reducible refine Only.foldl ?_ (fun _ _ => ?_)
    | with_reducible refine State.setChan_only _ _ ?_ (by decide)

theorem State.setPark_only {N : Nat} {σ s : State} (c : Nat) (endAt : Nat) (hσ : Only N σ s)
    (hN : 0x10000000000000000000000000000000000000000000000000000000000000000 ||| N = N) : Only N σ (State.setPark s c endAt) := hσ.step (State.setPark_within s c endAt) hN

theorem State.parkDue_within (s : State) (cs : List Nat) :
    Only 0x10044000000000000000000000000000200000000000000000000000000001000 s (State.parkDue s cs) := by
  unfold State.parkDue
  repeat' first
    | with_reducible exact Only.refl _ _
    | with_reducible refine Only.ite (fun _ => ?_) (fun _ => ?_)
    | with_reducible refine Only.foldl ?_ (fun _ _ => ?_)
    | with_reducible refine State.parkChan_only _ _ ?_ (by decide)
    | split
    | extract_lets

theorem State.parkDue_only {N : Nat} {σ s : State} (cs : List Nat) (hσ : Only N σ s)
    (hN : 0x10044000000000000000000000000000200000000000000000000000000001000 ||| N = N) : Only N σ (State.parkDue s cs) := hσ.step (State.parkDue_within s cs) hN

theorem State.unpark_within (s : State) (cs : List Nat) :
    Only 0x10000000000000000000000000000000000000000000000000000000000000000 s (State.unpark s cs) := by
  unfold State.unpark
  repeat' first
    | with_reducible exact Only.refl _ _
    | with_reducible refine Only.ite (fun _ => ?_) (fun _ => ?_)
    | with_reducible refine Only.foldl ?_ (fun _ _ => ?_)
    | with_reducible refine State.setChan_only _ _ ?_ (by decide)

theorem State.unpark_only {N : Nat} {σ s : State} (cs : List Nat) (hσ : Only N σ s)
    (hN : 0x10000000000000000000000000000000000000000000000000000000000000000 ||| N = N) : Only N σ (State.unpark s cs) := hσ.step (State.unpark_within s cs) hN

theorem State.setDclk_within (s : State) (b : Nat) (g : Nat) (x : DclkX) :
    Only 0x100000000000000000000000000000000000000000000000000000000000000000 s (State.setDclk s b g x) := by
  unfold State.setDclk
  repeat' first
    | with_reducible exact Only.refl _ _
    | with_reducible refine Only.ite (fun _ => ?_) (fun _ => ?_)
    | with_reducible refine Only.foldl ?_ (fun _ _ => ?_)
    | fail_if_no_progress with_reducible refine Only.fields ?_ rfl rfl

theorem State.setDclk_only {N : Nat} {σ s : State} (b : Nat) (g : Nat) (x : DclkX) (hσ : Only N σ s)
    (hN : 0x100000000000000000000000000000000000000000000000000000000000000000 ||| N = N) : Only N σ (State.setDclk s b g x) := hσ.step (State.setDclk_within s b g x) hN

theorem State.dclkLaunch_within (s : State) (q : Nat) (c : Nat) :
    Only 0x100004000000000000000000000000000000000000000000000000000000001000 s (State.dclkLaunch s q c) := by
  unfold State.dclkLaunch
  repeat' first
    | with_reducible exact Only.refl _ _
    | with_reducible refine Only.ite (fun _ => ?_) (fun _ => ?_)
    | with_reducible refine Only.foldl ?_ (fun _ _ => ?_)
    | with_reducible refine State.setDclk_only _ _ _ ?_ (by decide)
    | with_reducible refine Only.onObj ?_ (fun _ => ?_) (by decide)

theorem State.dclkLaunch_only {N : Nat} {σ s : State} (q : Nat) (c : Nat) (hσ : Only N σ s)
    (hN : 0x100004000000000000000000000000000000000000000000000000000000001000 ||| N = N) : Only N σ (State.dclkLaunch s q c) := hσ.step (State.dclkLaunch_within s q c) hN

theorem State.dclkEdges_within (s : State) :
    Only 0x100040000000000000000000000000000000000000000000000000000000000000 s (State.dclkEdges s) := by
  unfold State.dclkEdges
  repeat' first
    | with_reducible exact Only.refl _ _
    | with_reducible refine Only.ite (fun _ => ?_) (fun _ => ?_)
    | with_reducible refine Only.foldl ?_ (fun _ _ => ?_)
    | with_reducible refine State.setDclk_only _ _ _ ?_ (by decide)
    | with_reducible refine State.emit_only _ ?_ (by decide)

theorem State.dclkEdges_only {N : Nat} {σ s : State}  (hσ : Only N σ s)
    (hN : 0x100040000000000000000000000000000000000000000000000000000000000000 ||| N = N) : Only N σ (State.dclkEdges s) := hσ.step (State.dclkEdges_within s) hN

theorem State.dclkHalt_within (s : State) (q : Nat) :
    Only 0x100000000000000000000000000000000000000000000000000000000000000000 s (State.dclkHalt s q) := by
  unfold State.dclkHalt
  repeat' first
    | with_reducible exact Only.refl _ _
    | with_reducible refine Only.ite (fun _ => ?_) (fun _ => ?_)
    | with_reducible refine Only.foldl ?_ (fun _ _ => ?_)
    | with_reducible refine State.setDclk_only _ _ _ ?_ (by decide)

theorem State.dclkHalt_only {N : Nat} {σ s : State} (q : Nat) (hσ : Only N σ s)
    (hN : 0x100000000000000000000000000000000000000000000000000000000000000000 ||| N = N) : Only N σ (State.dclkHalt s q) := hσ.step (State.dclkHalt_within s q) hN

end Sys2Proof.Machine
end

