-- ==== Sys2Proof/Laws/Frame/OpsDram.lean ====
section
/-!
SUPPORT. OpsDram.lean: what each operation of Machine/OpsDram.lean can change (see Only).
-/
namespace Sys2Proof.Machine
set_option Elab.async false

theorem State.srExit_within (s : State) (cause : Nat) :
    Only 0x844000000000000000000000000000000000000000000002000000000145000 s (State.srExit s cause) := by
  unfold State.srExit
  repeat' first
    | with_reducible exact Only.refl _ _
    | with_reducible refine Only.ite (fun _ => ?_) (fun _ => ?_)
    | with_reducible refine Only.foldl ?_ (fun _ _ => ?_)
    | with_reducible refine State.post_only _ _ _ ?_ (by decide)
    | with_reducible refine State.set_only _ _ _ _ ?_ (by decide)

theorem State.srExit_only {N : Nat} {σ s : State} (cause : Nat) (hσ : Only N σ s)
    (hN : 0x844000000000000000000000000000000000000000000002000000000145000 ||| N = N) : Only N σ (State.srExit s cause) := hσ.step (State.srExit_within s cause) hN

theorem State.portRequest_within (s : State) :
    Only 0x200844000000000000000000000000000000000000000000002000000000145000 s (State.portRequest s) := by
  unfold State.portRequest
  repeat' first
    | with_reducible exact Only.refl _ _
    | with_reducible refine Only.ite (fun _ => ?_) (fun _ => ?_)
    | with_reducible refine Only.foldl ?_ (fun _ _ => ?_)
    | fail_if_no_progress with_reducible refine Only.fields ?_ rfl rfl
    | with_reducible refine State.srExit_only _ ?_ (by decide)

theorem State.portRequest_only {N : Nat} {σ s : State}  (hσ : Only N σ s)
    (hN : 0x200844000000000000000000000000000000000000000000002000000000145000 ||| N = N) : Only N σ (State.portRequest s) := hσ.step (State.portRequest_within s) hN

theorem State.outOfRange_within (s : State) :
    Only 0x4000000000000000000000000000000000000000000002000000000001000 s (State.outOfRange s) := by
  unfold State.outOfRange
  repeat' first
    | with_reducible exact Only.refl _ _
    | with_reducible refine Only.ite (fun _ => ?_) (fun _ => ?_)
    | with_reducible refine Only.foldl ?_ (fun _ _ => ?_)
    | with_reducible refine State.count_only _ _ _ _ _ ?_ (by decide)

theorem State.outOfRange_only {N : Nat} {σ s : State}  (hσ : Only N σ s)
    (hN : 0x4000000000000000000000000000000000000000000002000000000001000 ||| N = N) : Only N σ (State.outOfRange s) := hσ.step (State.outOfRange_within s) hN

theorem State.dramWrite_within (s : State) (a : Nat) (bytes : List Nat) :
    Only 0x200944000000000000000000000000000000000000000000002000000000145000 s (State.dramWrite s a bytes) := by
  unfold State.dramWrite
  repeat' first
    | with_reducible exact Only.refl _ _
    | with_reducible refine Only.ite (fun _ => ?_) (fun _ => ?_)
    | with_reducible refine Only.foldl ?_ (fun _ _ => ?_)
    | fail_if_no_progress with_reducible refine Only.fields ?_ rfl rfl
    | with_reducible refine State.outOfRange_only  ?_ (by decide)
    | with_reducible refine State.portRequest_only  ?_ (by decide)
    | with_reducible refine State.putBytes_only _ _ ?_ (by decide)

theorem State.dramWrite_only {N : Nat} {σ s : State} (a : Nat) (bytes : List Nat) (hσ : Only N σ s)
    (hN : 0x200944000000000000000000000000000000000000000000002000000000145000 ||| N = N) : Only N σ (State.dramWrite s a bytes) := hσ.step (State.dramWrite_within s a bytes) hN

theorem State.recordUe_within (s : State) (w : Nat) (by_ : Nat) :
    Only 0x844000000000000000000000000000000000000000030000000000000145000 s (State.recordUe s w by_) := by
  unfold State.recordUe
  repeat' first
    | with_reducible exact Only.refl _ _
    | with_reducible refine Only.ite (fun _ => ?_) (fun _ => ?_)
    | with_reducible refine Only.foldl ?_ (fun _ _ => ?_)
    | with_reducible refine State.post_only _ _ _ ?_ (by decide)
    | with_reducible refine State.set_only _ _ _ _ ?_ (by decide)
    | with_reducible refine State.count_only _ _ _ _ _ ?_ (by decide)

theorem State.recordUe_only {N : Nat} {σ s : State} (w : Nat) (by_ : Nat) (hσ : Only N σ s)
    (hN : 0x844000000000000000000000000000000000000000030000000000000145000 ||| N = N) : Only N σ (State.recordUe s w by_) := hσ.step (State.recordUe_within s w by_) hN

theorem State.dramRead_within (s : State) (a : Nat) (n : Nat) :
    Only 0x200844000000000000000000000000000000000000000030002000000000145000 s (State.dramRead s a n).2 := by
  unfold State.dramRead
  repeat' first
    | with_reducible exact Only.refl _ _
    | with_reducible refine Only.ite (fun _ => ?_) (fun _ => ?_)
    | with_reducible refine Only.foldl ?_ (fun _ _ => ?_)
    | with_reducible refine State.recordUe_only _ _ ?_ (by decide)
    | with_reducible refine State.outOfRange_only  ?_ (by decide)
    | with_reducible refine State.portRequest_only  ?_ (by decide)
    | split
    | extract_lets

theorem State.dramRead_only {N : Nat} {σ s : State} (a : Nat) (n : Nat) (hσ : Only N σ s)
    (hN : 0x200844000000000000000000000000000000000000000030002000000000145000 ||| N = N) : Only N σ (State.dramRead s a n).2 := hσ.step (State.dramRead_within s a n) hN

theorem State.dramRead_only_eq {N : Nat} {σ s t : State} {a : Nat} {n : Nat} {v : Option (List Nat)} (heq : State.dramRead s a n = (v, t)) (hσ : Only N σ s)
    (hN : 0x200844000000000000000000000000000000000000000030002000000000145000 ||| N = N) : Only N σ t := hσ.step (Only.snd heq (State.dramRead_within s a n)) hN

theorem State.transferDelays_within (s : State) (m : Nat) :
    Only 0x200000000000000000000000000000000000000000000000800000000000000000 s (State.transferDelays s m) := by
  unfold State.transferDelays
  repeat' first
    | with_reducible exact Only.refl _ _
    | with_reducible refine Only.ite (fun _ => ?_) (fun _ => ?_)
    | with_reducible refine Only.foldl ?_ (fun _ _ => ?_)
    | fail_if_no_progress with_reducible refine Only.fields ?_ rfl rfl
    | with_reducible refine OnlyOut.next ?_
    | with_reducible refine OnlyOut.ite (fun _ => ?_) (fun _ => ?_)
    | with_reducible refine State.set_only _ _ _ _ ?_ (by decide)

theorem State.transferDelays_only {N : Nat} {σ s : State} (m : Nat) (hσ : Only N σ s)
    (hN : 0x200000000000000000000000000000000000000000000000800000000000000000 ||| N = N) : Only N σ (State.transferDelays s m) := hσ.step (State.transferDelays_within s m) hN

theorem State.refreshRank_within (s : State) (m : Nat) (r : Nat) :
    Only 0x200000000000000000000000000000000000000000000000800000000000000000 s (State.refreshRank s m r) := by
  unfold State.refreshRank
  repeat' first
    | with_reducible exact Only.refl _ _
    | with_reducible refine Only.ite (fun _ => ?_) (fun _ => ?_)
    | with_reducible refine Only.foldl ?_ (fun _ _ => ?_)
    | fail_if_no_progress with_reducible refine Only.fields ?_ rfl rfl
    | with_reducible refine State.transferDelays_only _ ?_ (by decide)

theorem State.refreshRank_only {N : Nat} {σ s : State} (m : Nat) (r : Nat) (hσ : Only N σ s)
    (hN : 0x200000000000000000000000000000000000000000000000800000000000000000 ||| N = N) : Only N σ (State.refreshRank s m r) := hσ.step (State.refreshRank_within s m r) hN

theorem State.issuePostponed_within (s : State) :
    Only 0x200000000000000000000000000000000000000000000000800000000000000000 s (State.issuePostponed s) := by
  unfold State.issuePostponed
  repeat' first
    | with_reducible exact Only.refl _ _
    | with_reducible refine Only.ite (fun _ => ?_) (fun _ => ?_)
    | with_reducible refine Only.foldl ?_ (fun _ _ => ?_)
    | fail_if_no_progress with_reducible refine Only.fields ?_ rfl rfl
    | with_reducible refine State.refreshRank_only _ _ ?_ (by decide)

theorem State.issuePostponed_only {N : Nat} {σ s : State}  (hσ : Only N σ s)
    (hN : 0x200000000000000000000000000000000000000000000000800000000000000000 ||| N = N) : Only N σ (State.issuePostponed s) := hσ.step (State.issuePostponed_within s) hN

end Sys2Proof.Machine
end

