-- ==== Sys2Proof/Laws/Frame/OpsAcq.lean ====
section
/-!
SUPPORT. OpsAcq.lean: what each operation of Machine/OpsAcq.lean can change (see Only).
-/
namespace Sys2Proof.Machine
set_option Elab.async false

theorem State.setAcq_within (s : State) (b : Nat) (x : AcqX) :
    Only 0x4000000000000000000000000000000000000000000000000000000000000000000 s (State.setAcq s b x) := by
  unfold State.setAcq
  repeat' first
    | with_reducible exact Only.refl _ _
    | with_reducible refine Only.ite (fun _ => ?_) (fun _ => ?_)
    | with_reducible refine Only.foldl ?_ (fun _ _ => ?_)
    | fail_if_no_progress with_reducible refine Only.fields ?_ rfl rfl

theorem State.setAcq_only {N : Nat} {σ s : State} (b : Nat) (x : AcqX) (hσ : Only N σ s)
    (hN : 0x4000000000000000000000000000000000000000000000000000000000000000000 ||| N = N) : Only N σ (State.setAcq s b x) := hσ.step (State.setAcq_within s b x) hN

theorem State.acqRate_within (s : State) (b : Nat) (before : Nat) (after : Nat) :
    Only 0x844000000000000000000000800000000000000000000000000000000145000 s (State.acqRate s b before after) := by
  unfold State.acqRate
  repeat' first
    | with_reducible exact Only.refl _ _
    | with_reducible refine Only.ite (fun _ => ?_) (fun _ => ?_)
    | with_reducible refine Only.foldl ?_ (fun _ _ => ?_)
    | with_reducible refine State.post_only _ _ _ ?_ (by decide)
    | with_reducible refine State.set_only _ _ _ _ ?_ (by decide)

theorem State.acqRate_only {N : Nat} {σ s : State} (b : Nat) (before : Nat) (after : Nat) (hσ : Only N σ s)
    (hN : 0x844000000000000000000000800000000000000000000000000000000145000 ||| N = N) : Only N σ (State.acqRate s b before after) := hσ.step (State.acqRate_within s b before after) hN

theorem State.ringPut_within (s : State) (b : Nat) (ws : List Nat) :
    Only 0x4200944000000000000000000000c00000000000000000000002000000000145000 s (State.ringPut s b ws).2 := by
  unfold State.ringPut
  repeat' first
    | with_reducible exact Only.refl _ _
    | with_reducible refine Only.ite (fun _ => ?_) (fun _ => ?_)
    | with_reducible refine Only.foldl ?_ (fun _ _ => ?_)
    | with_reducible refine State.acqRate_only _ _ _ ?_ (by decide)
    | with_reducible refine State.setAcq_only _ _ ?_ (by decide)
    | with_reducible refine State.dramWrite_only _ _ ?_ (by decide)
    | with_reducible refine State.set_only _ _ _ _ ?_ (by decide)
    | split
    | extract_lets

theorem State.ringPut_only {N : Nat} {σ s : State} (b : Nat) (ws : List Nat) (hσ : Only N σ s)
    (hN : 0x4200944000000000000000000000c00000000000000000000002000000000145000 ||| N = N) : Only N σ (State.ringPut s b ws).2 := hσ.step (State.ringPut_within s b ws) hN

theorem State.ringPut_only_eq {N : Nat} {σ s t : State} {b : Nat} {ws : List Nat} {v : Put} (heq : State.ringPut s b ws = (v, t)) (hσ : Only N σ s)
    (hN : 0x4200944000000000000000000000c00000000000000000000002000000000145000 ||| N = N) : Only N σ t := hσ.step (Only.snd heq (State.ringPut_within s b ws)) hN

theorem State.acqWrite_within (s : State) (b : Nat) (ws : List Nat) :
    Only 0x4200944000000000000000000001c00000000000000000000002000000000145000 s (State.acqWrite s b ws).2 := by
  unfold State.acqWrite
  repeat' first
    | with_reducible exact Only.refl _ _
    | with_reducible refine Only.ite (fun _ => ?_) (fun _ => ?_)
    | with_reducible refine Only.foldl ?_ (fun _ _ => ?_)
    | with_reducible refine State.ringPut_only _ _ ?_ (by decide)
    | with_reducible refine State.ringPut_only_eq (by assumption) ?_ (by decide)
    | with_reducible refine State.count_only _ _ _ _ _ ?_ (by decide)
    | split

theorem State.acqWrite_only {N : Nat} {σ s : State} (b : Nat) (ws : List Nat) (hσ : Only N σ s)
    (hN : 0x4200944000000000000000000001c00000000000000000000002000000000145000 ||| N = N) : Only N σ (State.acqWrite s b ws).2 := hσ.step (State.acqWrite_within s b ws) hN

theorem State.acqWrite_only_eq {N : Nat} {σ s t : State} {b : Nat} {ws : List Nat} {v : Put} (heq : State.acqWrite s b ws = (v, t)) (hσ : Only N σ s)
    (hN : 0x4200944000000000000000000001c00000000000000000000002000000000145000 ||| N = N) : Only N σ t := hσ.step (Only.snd heq (State.acqWrite_within s b ws)) hN

theorem State.capEntry_within (s : State) (b : Nat) (data : Bool) (ws : List Nat) :
    Only 0x4200944000000000000000000001c00000000000000000000002000000000145000 s (State.capEntry s b data ws) := by
  unfold State.capEntry
  repeat' first
    | with_reducible exact Only.refl _ _
    | with_reducible refine Only.ite (fun _ => ?_) (fun _ => ?_)
    | with_reducible refine Only.foldl ?_ (fun _ _ => ?_)
    | with_reducible refine State.acqWrite_only _ _ ?_ (by decide)
    | with_reducible refine State.acqWrite_only_eq (by assumption) ?_ (by decide)
    | with_reducible refine State.setAcq_only _ _ ?_ (by decide)

theorem State.capEntry_only {N : Nat} {σ s : State} (b : Nat) (data : Bool) (ws : List Nat) (hσ : Only N σ s)
    (hN : 0x4200944000000000000000000001c00000000000000000000002000000000145000 ||| N = N) : Only N σ (State.capEntry s b data ws) := hσ.step (State.capEntry_within s b data ws) hN

theorem State.capData_within (s : State) (b : Nat) (r : AcqRec) (trigger : Bool) (index : Int) :
    Only 0x4200944000000000000000000001c00000000000000000000002000000000145000 s (State.capData s b r trigger index) := by
  unfold State.capData
  repeat' first
    | with_reducible exact Only.refl _ _
    | with_reducible refine Only.ite (fun _ => ?_) (fun _ => ?_)
    | with_reducible refine Only.foldl ?_ (fun _ _ => ?_)
    | with_reducible refine State.capEntry_only _ _ _ ?_ (by decide)

theorem State.capData_only {N : Nat} {σ s : State} (b : Nat) (r : AcqRec) (trigger : Bool) (index : Int) (hσ : Only N σ s)
    (hN : 0x4200944000000000000000000001c00000000000000000000002000000000145000 ||| N = N) : Only N σ (State.capData s b r trigger index) := hσ.step (State.capData_within s b r trigger index) hN

theorem State.endCapture_within (s : State) (b : Nat) (how : Nat) :
    Only 0x4200944000000000000000000001c00000000000000000000002000000000145000 s (State.endCapture s b how) := by
  unfold State.endCapture
  repeat' first
    | with_reducible exact Only.refl _ _
    | with_reducible refine Only.ite (fun _ => ?_) (fun _ => ?_)
    | with_reducible refine Only.foldl ?_ (fun _ _ => ?_)
    | with_reducible refine State.capEntry_only _ _ _ ?_ (by decide)
    | with_reducible refine State.setAcq_only _ _ ?_ (by decide)
    | with_reducible refine State.post_only _ _ _ ?_ (by decide)
    | split

theorem State.endCapture_only {N : Nat} {σ s : State} (b : Nat) (how : Nat) (hσ : Only N σ s)
    (hN : 0x4200944000000000000000000001c00000000000000000000002000000000145000 ||| N = N) : Only N σ (State.endCapture s b how) := hσ.step (State.endCapture_within s b how) hN

theorem State.acqDrop_within (s : State) (b : Nat) :
    Only 0x4000000000000000000000000000800000000000000000000000000000000000000 s (State.acqDrop s b) := by
  unfold State.acqDrop
  repeat' first
    | with_reducible exact Only.refl _ _
    | with_reducible refine Only.ite (fun _ => ?_) (fun _ => ?_)
    | with_reducible refine Only.foldl ?_ (fun _ _ => ?_)
    | with_reducible refine State.setAcq_only _ _ ?_ (by decide)
    | with_reducible refine State.set_only _ _ _ _ ?_ (by decide)

theorem State.acqDrop_only {N : Nat} {σ s : State} (b : Nat) (hσ : Only N σ s)
    (hN : 0x4000000000000000000000000000800000000000000000000000000000000000000 ||| N = N) : Only N σ (State.acqDrop s b) := hσ.step (State.acqDrop_within s b) hN

theorem State.acqFill_within (s : State) (b : Nat) :
    Only 0x4000000000000000000000000000800000000000000000000000000000000000000 s (State.acqFill s b) := by
  unfold State.acqFill
  repeat' first
    | with_reducible exact Only.refl _ _
    | with_reducible refine Only.ite (fun _ => ?_) (fun _ => ?_)
    | with_reducible refine Only.foldl ?_ (fun _ _ => ?_)
    | with_reducible refine State.acqDrop_only _ ?_ (by decide)
    | with_reducible refine State.setAcq_only _ _ ?_ (by decide)
    | with_reducible refine State.set_only _ _ _ _ ?_ (by decide)

theorem State.acqFill_only {N : Nat} {σ s : State} (b : Nat) (hσ : Only N σ s)
    (hN : 0x4000000000000000000000000000800000000000000000000000000000000000000 ||| N = N) : Only N σ (State.acqFill s b) := hσ.step (State.acqFill_within s b) hN

theorem State.acqRearm_within (s : State) (b : Nat) :
    Only 0x4200944000000000000000000001c00000000000000000000002000000000145000 s (State.acqRearm s b) := by
  unfold State.acqRearm
  repeat' first
    | with_reducible exact Only.refl _ _
    | with_reducible refine Only.ite (fun _ => ?_) (fun _ => ?_)
    | with_reducible refine Only.foldl ?_ (fun _ _ => ?_)
    | with_reducible refine OnlyOut.next ?_
    | with_reducible refine OnlyOut.ite (fun _ => ?_) (fun _ => ?_)
    | with_reducible refine State.acqFill_only _ ?_ (by decide)
    | with_reducible refine State.endCapture_only _ _ ?_ (by decide)
    | with_reducible refine State.setAcq_only _ _ ?_ (by decide)
    | with_reducible refine State.set_only _ _ _ _ ?_ (by decide)

theorem State.acqRearm_only {N : Nat} {σ s : State} (b : Nat) (hσ : Only N σ s)
    (hN : 0x4200944000000000000000000001c00000000000000000000002000000000145000 ||| N = N) : Only N σ (State.acqRearm s b) := hσ.step (State.acqRearm_within s b) hN

theorem State.acqIdle_within (s : State) (b : Nat) (how : Nat) :
    Only 0x4200944000000000000000000001c00000000000000000000002000000000145000 s (State.acqIdle s b how) := by
  unfold State.acqIdle
  repeat' first
    | with_reducible exact Only.refl _ _
    | with_reducible refine Only.ite (fun _ => ?_) (fun _ => ?_)
    | with_reducible refine Only.foldl ?_ (fun _ _ => ?_)
    | with_reducible refine State.acqDrop_only _ ?_ (by decide)
    | with_reducible refine State.endCapture_only _ _ ?_ (by decide)
    | with_reducible refine State.set_only _ _ _ _ ?_ (by decide)

theorem State.acqIdle_only {N : Nat} {σ s : State} (b : Nat) (how : Nat) (hσ : Only N σ s)
    (hN : 0x4200944000000000000000000001c00000000000000000000002000000000145000 ||| N = N) : Only N σ (State.acqIdle s b how) := hσ.step (State.acqIdle_within s b how) hN

theorem State.trigMissed_within (s : State) (b : Nat) (n : Nat) :
    Only 0x4000000000000000000001000000000000000000000000000000000001000 s (State.trigMissed s b n) := by
  unfold State.trigMissed
  repeat' first
    | with_reducible exact Only.refl _ _
    | with_reducible refine Only.ite (fun _ => ?_) (fun _ => ?_)
    | with_reducible refine Only.foldl ?_ (fun _ _ => ?_)
    | with_reducible refine State.count_only _ _ _ _ _ ?_ (by decide)

theorem State.trigMissed_only {N : Nat} {σ s : State} (b : Nat) (n : Nat) (hσ : Only N σ s)
    (hN : 0x4000000000000000000001000000000000000000000000000000000001000 ||| N = N) : Only N σ (State.trigMissed s b n) := hσ.step (State.trigMissed_within s b n) hN

theorem State.capDone_within (s : State) (b : Nat) :
    Only 0x4200944000000000000000000001c00000000000000000000002000000000145000 s (State.capDone s b) := by
  unfold State.capDone
  repeat' first
    | with_reducible exact Only.refl _ _
    | with_reducible refine Only.ite (fun _ => ?_) (fun _ => ?_)
    | with_reducible refine Only.foldl ?_ (fun _ _ => ?_)
    | with_reducible refine State.trigMissed_only _ _ ?_ (by decide)
    | with_reducible refine State.acqDrop_only _ ?_ (by decide)
    | with_reducible refine State.endCapture_only _ _ ?_ (by decide)
    | with_reducible refine State.setAcq_only _ _ ?_ (by decide)
    | with_reducible refine State.set_only _ _ _ _ ?_ (by decide)

theorem State.capDone_only {N : Nat} {σ s : State} (b : Nat) (hσ : Only N σ s)
    (hN : 0x4200944000000000000000000001c00000000000000000000002000000000145000 ||| N = N) : Only N σ (State.capDone s b) := hσ.step (State.capDone_within s b) hN

theorem State.capBegin_within (s : State) (b : Nat) (met : List Nat) (r : AcqRec) :
    Only 0x4200944000000000000000000001c00000000000000000000002000000000145000 s (State.capBegin s b met r) := by
  unfold State.capBegin
  repeat' first
    | with_reducible exact Only.refl _ _
    | with_reducible refine Only.ite (fun _ => ?_) (fun _ => ?_)
    | with_reducible refine Only.foldl ?_ (fun _ _ => ?_)
    | with_reducible refine State.capDone_only _ ?_ (by decide)
    | with_reducible refine State.capData_only _ _ _ _ ?_ (by decide)
    | with_reducible refine State.capEntry_only _ _ _ ?_ (by decide)
    | with_reducible refine State.setAcq_only _ _ ?_ (by decide)
    | with_reducible refine State.set_only _ _ _ _ ?_ (by decide)
    | split

theorem State.capBegin_only {N : Nat} {σ s : State} (b : Nat) (met : List Nat) (r : AcqRec) (hσ : Only N σ s)
    (hN : 0x4200944000000000000000000001c00000000000000000000002000000000145000 ||| N = N) : Only N σ (State.capBegin s b met r) := hσ.step (State.capBegin_within s b met r) hN

theorem State.acqClosed_within (s : State) (b : Nat) (r : AcqRec) :
    Only 0x4200944000000000000000000001c00000000000000000000002000000000145000 s (State.acqClosed s b r) := by
  unfold State.acqClosed
  repeat' first
    | with_reducible exact Only.refl _ _
    | with_reducible refine Only.ite (fun _ => ?_) (fun _ => ?_)
    | with_reducible refine Only.foldl ?_ (fun _ _ => ?_)
    | with_reducible refine State.capBegin_only _ _ _ ?_ (by decide)
    | with_reducible refine State.capDone_only _ ?_ (by decide)
    | with_reducible refine State.trigMissed_only _ _ ?_ (by decide)
    | with_reducible refine State.capData_only _ _ _ _ ?_ (by decide)
    | with_reducible refine State.setAcq_only _ _ ?_ (by decide)
    | with_reducible refine State.decideEvent_only _ _ _ _ ?_ (by decide)
    | with_reducible refine State.decideEvent_only_eq (by assumption) ?_ (by decide)
    | with_reducible refine State.set_only _ _ _ _ ?_ (by decide)
    | with_reducible refine State.superseded_only ?_ (by decide)
    | split

theorem State.acqClosed_only {N : Nat} {σ s : State} (b : Nat) (r : AcqRec) (hσ : Only N σ s)
    (hN : 0x4200944000000000000000000001c00000000000000000000002000000000145000 ||| N = N) : Only N σ (State.acqClosed s b r) := hσ.step (State.acqClosed_within s b r) hN

theorem State.acqShort_within (s : State) (b : Nat) :
    Only 0x4200944000000000000000000001c00000000000000000000002000000000145000 s (State.acqShort s b) := by
  unfold State.acqShort
  repeat' first
    | with_reducible exact Only.refl _ _
    | with_reducible refine Only.ite (fun _ => ?_) (fun _ => ?_)
    | with_reducible refine Only.foldl ?_ (fun _ _ => ?_)
    | with_reducible refine State.acqClosed_only _ _ ?_ (by decide)
    | with_reducible refine State.setAcq_only _ _ ?_ (by decide)
    | split
    | extract_lets

theorem State.acqShort_only {N : Nat} {σ s : State} (b : Nat) (hσ : Only N σ s)
    (hN : 0x4200944000000000000000000001c00000000000000000000002000000000145000 ||| N = N) : Only N σ (State.acqShort s b) := hσ.step (State.acqShort_within s b) hN

theorem State.acqTake_within (s : State) (b : Nat) (e : Nat) (tag : Nat) (cyc : Nat) (v : Int) :
    Only 0x4200944000000000000000000001c00000000000000000000002000000000145000 s (State.acqTake s b e tag cyc v) := by
  unfold State.acqTake
  repeat' first
    | with_reducible exact Only.refl _ _
    | with_reducible refine Only.ite (fun _ => ?_) (fun _ => ?_)
    | with_reducible refine Only.foldl ?_ (fun _ _ => ?_)
    | with_reducible refine State.acqClosed_only _ _ ?_ (by decide)
    | with_reducible refine State.setAcq_only _ _ ?_ (by decide)

theorem State.acqTake_only {N : Nat} {σ s : State} (b : Nat) (e : Nat) (tag : Nat) (cyc : Nat) (v : Int) (hσ : Only N σ s)
    (hN : 0x4200944000000000000000000001c00000000000000000000002000000000145000 ||| N = N) : Only N σ (State.acqTake s b e tag cyc v) := hσ.step (State.acqTake_within s b e tag cyc v) hN

theorem Only.onAcq {N : Nat} {s0 s : State} {b : Nat} {src : Src} {f : State → State} (h : Only N s0 s)
    (hf : ∀ t, Only N t (f t)) (hN : 0x4000000000000000000000000000000000000000000000000000000001000 ||| N = N) : Only N s0 (s.onAcq b src f) := by
  unfold State.onAcq
  split
  · next heq => exact State.decideEvent_only_eq heq h hN
  · next _ heq => exact (State.decideEvent_only_eq heq h hN).step (hf _) (Nat.or_self N)

theorem State.acqEvent_within (s : State) (b : Nat) (i : Nat) (ref : Nat) (src : Src) :
    Only 0x4000004000000000000000000001000000000000000000000000000000000001000 s (State.acqEvent s b i ref src) := by
  unfold State.acqEvent
  repeat' first
    | with_reducible exact Only.refl _ _
    | with_reducible refine Only.ite (fun _ => ?_) (fun _ => ?_)
    | with_reducible refine Only.foldl ?_ (fun _ _ => ?_)
    | with_reducible refine Only.onAcq ?_ (fun _ => ?_) (by decide)
    | with_reducible refine State.trigMissed_only _ _ ?_ (by decide)
    | with_reducible refine State.setAcq_only _ _ ?_ (by decide)
    | with_reducible refine State.discardAt_only _ _ ?_ (by decide)

theorem State.acqEvent_only {N : Nat} {σ s : State} (b : Nat) (i : Nat) (ref : Nat) (src : Src) (hσ : Only N σ s)
    (hN : 0x4000004000000000000000000001000000000000000000000000000000000001000 ||| N = N) : Only N σ (State.acqEvent s b i ref src) := hσ.step (State.acqEvent_within s b i ref src) hN

theorem State.acqTrigger_within (s : State) (b : Nat) (start : Nat) (q : Nat) :
    Only 0x4000004000000000000000000001000000000000000000000000000000000001000 s (State.acqTrigger s b start q) := by
  unfold State.acqTrigger
  repeat' first
    | with_reducible exact Only.refl _ _
    | with_reducible refine Only.ite (fun _ => ?_) (fun _ => ?_)
    | with_reducible refine Only.foldl ?_ (fun _ _ => ?_)
    | with_reducible refine State.acqEvent_only _ _ _ _ ?_ (by decide)

theorem State.acqTrigger_only {N : Nat} {σ s : State} (b : Nat) (start : Nat) (q : Nat) (hσ : Only N σ s)
    (hN : 0x4000004000000000000000000001000000000000000000000000000000000001000 ||| N = N) : Only N σ (State.acqTrigger s b start q) := hσ.step (State.acqTrigger_within s b start q) hN

theorem State.acqGf_within (s : State) (g : Nat) (set : Bool) :
    Only 0x4000004000000000000000000001000000000000000000000000000000000001000 s (State.acqGf s g set) := by
  unfold State.acqGf
  repeat' first
    | with_reducible exact Only.refl _ _
    | with_reducible refine Only.ite (fun _ => ?_) (fun _ => ?_)
    | with_reducible refine Only.foldl ?_ (fun _ _ => ?_)
    | with_reducible refine State.acqEvent_only _ _ _ _ ?_ (by decide)

theorem State.acqGf_only {N : Nat} {σ s : State} (g : Nat) (set : Bool) (hσ : Only N σ s)
    (hN : 0x4000004000000000000000000001000000000000000000000000000000000001000 ||| N = N) : Only N σ (State.acqGf s g set) := hσ.step (State.acqGf_within s g set) hN

theorem State.acqFail_within (s : State) (c : Nat) (k : Nat) :
    Only 0x4000000000000000000000000000000000000000000000000000000000000000000 s (State.acqFail s c k) := by
  unfold State.acqFail
  repeat' first
    | with_reducible exact Only.refl _ _
    | with_reducible refine Only.ite (fun _ => ?_) (fun _ => ?_)
    | with_reducible refine Only.foldl ?_ (fun _ _ => ?_)
    | with_reducible refine State.setAcq_only _ _ ?_ (by decide)

theorem State.acqFail_only {N : Nat} {σ s : State} (c : Nat) (k : Nat) (hσ : Only N σ s)
    (hN : 0x4000000000000000000000000000000000000000000000000000000000000000000 ||| N = N) : Only N σ (State.acqFail s c k) := hσ.step (State.acqFail_within s c k) hN

theorem State.acqDue_within (s : State) (b : Nat) :
    Only 0x4000004000000000000000000001000000000000000000000000000000000001000 s (State.acqDue s b) := by
  unfold State.acqDue
  repeat' first
    | with_reducible exact Only.refl _ _
    | with_reducible refine Only.ite (fun _ => ?_) (fun _ => ?_)
    | with_reducible refine Only.foldl ?_ (fun _ _ => ?_)
    | with_reducible refine State.acqEvent_only _ _ _ _ ?_ (by decide)
    | with_reducible refine State.setAcq_only _ _ ?_ (by decide)

theorem State.acqDue_only {N : Nat} {σ s : State} (b : Nat) (hσ : Only N σ s)
    (hN : 0x4000004000000000000000000001000000000000000000000000000000000001000 ||| N = N) : Only N σ (State.acqDue s b) := hσ.step (State.acqDue_within s b) hN

end Sys2Proof.Machine
end

