-- ==== Sys2Proof/Laws/Frame/Acq.lean ====
section
/-!
SUPPORT. Acq.lean: what each operation of Machine/Acq.lean can change (see Only).
-/
namespace Sys2Proof.Machine
set_option Elab.async false

theorem execRearm_within (b : Nat) (src : Src) (s : State) :
    OnlyOut 0x4200944000000000000000000001c00000000000000000000002000000000145000 s (execRearm b src s) := by
  unfold execRearm
  repeat' first
    | with_reducible exact Only.refl _ _
    | with_reducible refine Only.ite (fun _ => ?_) (fun _ => ?_)
    | with_reducible refine Only.foldl ?_ (fun _ _ => ?_)
    | with_reducible refine OnlyOut.next ?_
    | with_reducible refine OnlyOut.ite (fun _ => ?_) (fun _ => ?_)
    | with_reducible refine State.acqRearm_only _ ?_ (by decide)
    | with_reducible refine Only.onObj ?_ (fun _ => ?_) (by decide)

theorem execRearm_only {N : Nat} {σ s : State} (b : Nat) (src : Src) (hσ : Only N σ s)
    (hN : 0x4200944000000000000000000001c00000000000000000000002000000000145000 ||| N = N) : OnlyOut N σ (execRearm b src s) := hσ.outcome (execRearm_within b src s) hN

theorem execAcqStop_within (b : Nat) (src : Src) (s : State) :
    OnlyOut 0x4200944000000000000000000001c00000000000000000000002000000000145000 s (execAcqStop b src s) := by
  unfold execAcqStop
  repeat' first
    | with_reducible exact Only.refl _ _
    | with_reducible refine Only.ite (fun _ => ?_) (fun _ => ?_)
    | with_reducible refine Only.foldl ?_ (fun _ _ => ?_)
    | with_reducible refine OnlyOut.next ?_
    | with_reducible refine OnlyOut.ite (fun _ => ?_) (fun _ => ?_)
    | with_reducible refine State.acqIdle_only _ _ ?_ (by decide)
    | with_reducible refine Only.onObj ?_ (fun _ => ?_) (by decide)

theorem execAcqStop_only {N : Nat} {σ s : State} (b : Nat) (src : Src) (hσ : Only N σ s)
    (hN : 0x4200944000000000000000000001c00000000000000000000002000000000145000 ||| N = N) : OnlyOut N σ (execAcqStop b src s) := hσ.outcome (execAcqStop_within b src s) hN

theorem execForce_within (b : Nat) (src : Src) (s : State) :
    OnlyOut 0x4000004000000000000000000001000000000000000000000000000000000001000 s (execForce b src s) := by
  unfold execForce
  repeat' first
    | with_reducible exact Only.refl _ _
    | with_reducible refine Only.ite (fun _ => ?_) (fun _ => ?_)
    | with_reducible refine Only.foldl ?_ (fun _ _ => ?_)
    | with_reducible refine OnlyOut.next ?_
    | with_reducible refine OnlyOut.ite (fun _ => ?_) (fun _ => ?_)
    | with_reducible refine State.acqEvent_only _ _ _ _ ?_ (by decide)

theorem execForce_only {N : Nat} {σ s : State} (b : Nat) (src : Src) (hσ : Only N σ s)
    (hN : 0x4000004000000000000000000001000000000000000000000000000000000001000 ||| N = N) : OnlyOut N σ (execForce b src s) := hσ.outcome (execForce_within b src s) hN

theorem execAutoTrigger_within (b : Nat) (s : State) :
    OnlyOut 0x4000004000000000000000000001000000000000000000000000000000000001000 s (execAutoTrigger b s) := by
  unfold execAutoTrigger
  repeat' first
    | with_reducible exact Only.refl _ _
    | with_reducible refine Only.ite (fun _ => ?_) (fun _ => ?_)
    | with_reducible refine Only.foldl ?_ (fun _ _ => ?_)
    | with_reducible refine OnlyOut.next ?_
    | with_reducible refine OnlyOut.ite (fun _ => ?_) (fun _ => ?_)
    | with_reducible refine State.acqEvent_only _ _ _ _ ?_ (by decide)
    | with_reducible refine State.setAcq_only _ _ ?_ (by decide)

theorem execAutoTrigger_only {N : Nat} {σ s : State} (b : Nat) (hσ : Only N σ s)
    (hN : 0x4000004000000000000000000001000000000000000000000000000000000001000 ||| N = N) : OnlyOut N σ (execAutoTrigger b s) := hσ.outcome (execAutoTrigger_within b s) hN

theorem execHoldoffEnd_within (b : Nat) (s : State) :
    OnlyOut 0x4000000000000000000000000000800000000000000000000000000000000000000 s (execHoldoffEnd b s) := by
  unfold execHoldoffEnd
  repeat' first
    | with_reducible exact Only.refl _ _
    | with_reducible refine Only.ite (fun _ => ?_) (fun _ => ?_)
    | with_reducible refine Only.foldl ?_ (fun _ _ => ?_)
    | with_reducible refine OnlyOut.next ?_
    | with_reducible refine OnlyOut.ite (fun _ => ?_) (fun _ => ?_)
    | with_reducible refine State.acqFill_only _ ?_ (by decide)

theorem execHoldoffEnd_only {N : Nat} {σ s : State} (b : Nat) (hσ : Only N σ s)
    (hN : 0x4000000000000000000000000000800000000000000000000000000000000000000 ||| N = N) : OnlyOut N σ (execHoldoffEnd b s) := hσ.outcome (execHoldoffEnd_within b s) hN

theorem execAcqCountsClear_within (b : Nat) (src : Src) (s : State) :
    OnlyOut 0x4000000000000000000001000000000000000000000000000000000001000 s (execAcqCountsClear b src s) := by
  unfold execAcqCountsClear
  repeat' first
    | with_reducible exact Only.refl _ _
    | with_reducible refine Only.ite (fun _ => ?_) (fun _ => ?_)
    | with_reducible refine Only.foldl ?_ (fun _ _ => ?_)
    | with_reducible refine OnlyOut.next ?_
    | with_reducible refine OnlyOut.ite (fun _ => ?_) (fun _ => ?_)
    | with_reducible refine Only.onObj ?_ (fun _ => ?_) (by decide)
    | with_reducible refine State.set_only _ _ _ _ ?_ (by decide)
    | with_reducible refine State.clear_only _ _ _ ?_ (by decide)

theorem execAcqCountsClear_only {N : Nat} {σ s : State} (b : Nat) (src : Src) (hσ : Only N σ s)
    (hN : 0x4000000000000000000001000000000000000000000000000000000001000 ||| N = N) : OnlyOut N σ (execAcqCountsClear b src s) := hσ.outcome (execAcqCountsClear_within b src s) hN

theorem State.acqRingWrite_within (s : State) (b : Nat) (v : Word) (host : Bool) :
    Only 0x4000800000000000000000000000600000000000000000000000000000000000000 s (State.acqRingWrite s b v host) := by
  unfold State.acqRingWrite
  repeat' first
    | with_reducible exact Only.refl _ _
    | with_reducible refine Only.ite (fun _ => ?_) (fun _ => ?_)
    | with_reducible refine Only.foldl ?_ (fun _ _ => ?_)
    | with_reducible refine State.setAcq_only _ _ ?_ (by decide)
    | with_reducible refine State.rearm_only _ _ ?_ (by decide)
    | with_reducible refine State.set_only _ _ _ _ ?_ (by decide)
    | with_reducible refine State.setBit_only _ _ _ _ ?_ (by decide)
    | with_reducible refine State.wr_only _ _ ?_ (by first | (dsimp only; decide) | exact anyReg _ (by decide))
    | with_reducible refine State.storeRw_only _ _ _ ?_ (by (dsimp only; decide))

theorem State.acqRingWrite_only {N : Nat} {σ s : State} (b : Nat) (v : Word) (host : Bool) (hσ : Only N σ s)
    (hN : 0x4000800000000000000000000000600000000000000000000000000000000000000 ||| N = N) : Only N σ (State.acqRingWrite s b v host) := hσ.step (State.acqRingWrite_within s b v host) hN

theorem execAcqRingWrite_within (b : Nat) (value : Word) (s : State) :
    OnlyOut 0x4000800000000000000000000000600000000000000000000000000000000000000 s (execAcqRingWrite b value s) := by
  unfold execAcqRingWrite
  repeat' first
    | with_reducible exact Only.refl _ _
    | with_reducible refine Only.ite (fun _ => ?_) (fun _ => ?_)
    | with_reducible refine Only.foldl ?_ (fun _ _ => ?_)
    | with_reducible refine OnlyOut.next ?_
    | with_reducible refine OnlyOut.ite (fun _ => ?_) (fun _ => ?_)
    | with_reducible refine State.acqRingWrite_only _ _ _ ?_ (by decide)

theorem execAcqRingWrite_only {N : Nat} {σ s : State} (b : Nat) (value : Word) (hσ : Only N σ s)
    (hN : 0x4000800000000000000000000000600000000000000000000000000000000000000 ||| N = N) : OnlyOut N σ (execAcqRingWrite b value s) := hσ.outcome (execAcqRingWrite_within b value s) hN

theorem execPinEvent_within (b : Nat) (chan : Nat) (kind : Nat) (s : State) :
    OnlyOut 0x4000004000000000000000000001000000000000000000000000000000000001000 s (execPinEvent b chan kind s) := by
  unfold execPinEvent
  repeat' first
    | with_reducible exact Only.refl _ _
    | with_reducible refine Only.ite (fun _ => ?_) (fun _ => ?_)
    | with_reducible refine Only.foldl ?_ (fun _ _ => ?_)
    | with_reducible refine OnlyOut.next ?_
    | with_reducible refine OnlyOut.ite (fun _ => ?_) (fun _ => ?_)
    | with_reducible refine State.acqEvent_only _ _ _ _ ?_ (by decide)

theorem execPinEvent_only {N : Nat} {σ s : State} (b : Nat) (chan : Nat) (kind : Nat) (hσ : Only N σ s)
    (hN : 0x4000004000000000000000000001000000000000000000000000000000000001000 ||| N = N) : OnlyOut N σ (execPinEvent b chan kind s) := hσ.outcome (execPinEvent_within b chan kind s) hN

end Sys2Proof.Machine
end

