-- ==== Sys2Proof/Laws/Frame/OpsAdc.lean ====
section
/-!
SUPPORT. OpsAdc.lean: what each operation of Machine/OpsAdc.lean can change (see Only).
-/
namespace Sys2Proof.Machine
set_option Elab.async false

theorem State.setAdc_within (s : State) (b : Nat) (x : AdcX) :
    Only 0x2000000000000000000000000000000000000000000000000000000000000000000 s (State.setAdc s b x) := by
  unfold State.setAdc
  repeat' first
    | with_reducible exact Only.refl _ _
    | with_reducible refine Only.ite (fun _ => ?_) (fun _ => ?_)
    | with_reducible refine Only.foldl ?_ (fun _ _ => ?_)
    | fail_if_no_progress with_reducible refine Only.fields ?_ rfl rfl

theorem State.setAdc_only {N : Nat} {σ s : State} (b : Nat) (x : AdcX) (hσ : Only N σ s)
    (hN : 0x2000000000000000000000000000000000000000000000000000000000000000000 ||| N = N) : Only N σ (State.setAdc s b x) := hσ.step (State.setAdc_within s b x) hN

theorem State.noteInput_within (s : State) (b : Nat) (e : Nat) (v : Nat) :
    Only 0x2000000000000000000000000000000000000000000000000000000000000000000 s (State.noteInput s b e v) := by
  unfold State.noteInput
  repeat' first
    | with_reducible exact Only.refl _ _
    | with_reducible refine Only.ite (fun _ => ?_) (fun _ => ?_)
    | with_reducible refine Only.foldl ?_ (fun _ _ => ?_)
    | with_reducible refine State.setAdc_only _ _ ?_ (by decide)

theorem State.noteInput_only {N : Nat} {σ s : State} (b : Nat) (e : Nat) (v : Nat) (hσ : Only N σ s)
    (hN : 0x2000000000000000000000000000000000000000000000000000000000000000000 ||| N = N) : Only N σ (State.noteInput s b e v) := hσ.step (State.noteInput_within s b e v) hN

theorem State.takeCodes_within (s : State) (b : Nat) (v : Visit) (y0 : List Int) :
    Only 0x2000004000000000000000000000000040000000000000000000000000000001000 s (State.takeCodes s b v y0) := by
  induction y0 generalizing s b v with
  | nil =>
    unfold State.takeCodes
    repeat' first
      | with_reducible exact Only.refl _ _

  | cons a l ih =>
    unfold State.takeCodes
    repeat' first
      | with_reducible exact Only.refl _ _
      | with_reducible refine Only.ite (fun _ => ?_) (fun _ => ?_)
      | with_reducible refine Only.foldl ?_ (fun _ _ => ?_)
      | with_reducible refine State.setAdc_only _ _ ?_ (by decide)
      | with_reducible refine State.count_only _ _ _ _ _ ?_ (by decide)
      | exact ih ..
      | refine Only.step ?_ (ih ..) (by decide)


theorem State.takeCodes_only {N : Nat} {σ s : State} (b : Nat) (v : Visit) (y0 : List Int) (hσ : Only N σ s)
    (hN : 0x2000004000000000000000000000000040000000000000000000000000000001000 ||| N = N) : Only N σ (State.takeCodes s b v y0) := hσ.step (State.takeCodes_within s b v y0) hN

theorem State.trimCodes_within (s : State) (b : Nat) :
    Only 0x2000000000000000000000000000000000000000000000000000000000000000000 s (State.trimCodes s b) := by
  unfold State.trimCodes
  repeat' first
    | with_reducible exact Only.refl _ _
    | with_reducible refine Only.ite (fun _ => ?_) (fun _ => ?_)
    | with_reducible refine Only.foldl ?_ (fun _ _ => ?_)
    | with_reducible refine State.setAdc_only _ _ ?_ (by decide)
    | split
    | extract_lets

theorem State.trimCodes_only {N : Nat} {σ s : State} (b : Nat) (hσ : Only N σ s)
    (hN : 0x2000000000000000000000000000000000000000000000000000000000000000000 ||| N = N) : Only N σ (State.trimCodes s b) := hσ.step (State.trimCodes_within s b) hN

theorem State.addTag_within (s : State) (b : Nat) (u : Nat) (cyc : Nat) :
    Only 0x2000004000000000000000000000000060000000000000000000000000000001000 s (State.addTag s b u cyc) := by
  unfold State.addTag
  repeat' first
    | with_reducible exact Only.refl _ _
    | with_reducible refine Only.ite (fun _ => ?_) (fun _ => ?_)
    | with_reducible refine Only.foldl ?_ (fun _ _ => ?_)
    | with_reducible refine State.setAdc_only _ _ ?_ (by decide)
    | with_reducible refine State.set_only _ _ _ _ ?_ (by decide)
    | with_reducible refine State.count_only _ _ _ _ _ ?_ (by decide)

theorem State.addTag_only {N : Nat} {σ s : State} (b : Nat) (u : Nat) (cyc : Nat) (hσ : Only N σ s)
    (hN : 0x2000004000000000000000000000000060000000000000000000000000000001000 ||| N = N) : Only N σ (State.addTag s b u cyc) := hσ.step (State.addTag_within s b u cyc) hN

theorem State.tagVectors_within (s : State) (q : Nat) (l : List (Nat × Nat)) :
    Only 0x2004004000000000000000000000000060000000000000000000000000000001000 s (State.tagVectors s q l) := by
  unfold State.tagVectors
  repeat' first
    | with_reducible exact Only.refl _ _
    | with_reducible refine Only.ite (fun _ => ?_) (fun _ => ?_)
    | with_reducible refine Only.foldl ?_ (fun _ _ => ?_)
    | with_reducible refine State.addTag_only _ _ _ ?_ (by decide)
    | with_reducible refine State.setSeqX_only _ _ ?_ (by decide)

theorem State.tagVectors_only {N : Nat} {σ s : State} (q : Nat) (l : List (Nat × Nat)) (hσ : Only N σ s)
    (hN : 0x2004004000000000000000000000000060000000000000000000000000000001000 ||| N = N) : Only N σ (State.tagVectors s q l) := hσ.step (State.tagVectors_within s q l) hN

theorem State.freeTags_within (s : State) (b : Nat) (y0 : Nat) :
    Only 0x2000004000000000000000000000000060000000000000000000000000000001000 s (State.freeTags s b y0) := by
  induction y0 generalizing s b with
  | zero =>
    unfold State.freeTags
    repeat' first
      | with_reducible exact Only.refl _ _

  | succ n ih =>
    unfold State.freeTags
    repeat' first
      | with_reducible exact Only.refl _ _
      | with_reducible refine Only.ite (fun _ => ?_) (fun _ => ?_)
      | with_reducible refine Only.foldl ?_ (fun _ _ => ?_)
      | with_reducible refine State.addTag_only _ _ _ ?_ (by decide)
      | with_reducible refine State.setAdc_only _ _ ?_ (by decide)
      | exact ih ..
      | refine Only.step ?_ (ih ..) (by decide)
      | split
      | extract_lets


theorem State.freeTags_only {N : Nat} {σ s : State} (b : Nat) (y0 : Nat) (hσ : Only N σ s)
    (hN : 0x2000004000000000000000000000000060000000000000000000000000000001000 ||| N = N) : Only N σ (State.freeTags s b y0) := hσ.step (State.freeTags_within s b y0) hN

theorem State.showVisit_within (s : State) (b : Nat) :
    Only 0x20000000000000000000000000000000000 s (State.showVisit s b) := by
  unfold State.showVisit
  repeat' first
    | with_reducible exact Only.refl _ _
    | with_reducible refine Only.ite (fun _ => ?_) (fun _ => ?_)
    | with_reducible refine Only.foldl ?_ (fun _ _ => ?_)
    | with_reducible refine State.set_only _ _ _ _ ?_ (by decide)
    | split
    | extract_lets

theorem State.showVisit_only {N : Nat} {σ s : State} (b : Nat) (hσ : Only N σ s)
    (hN : 0x20000000000000000000000000000000000 ||| N = N) : Only N σ (State.showVisit s b) := hσ.step (State.showVisit_within s b) hN

theorem State.adcChange_within (s : State) (b : Nat) (v : Nat) :
    Only 0x2000000000000000000000000000000020000000000000000000000000000000000 s (State.adcChange s b v) := by
  unfold State.adcChange
  repeat' first
    | with_reducible exact Only.refl _ _
    | with_reducible refine Only.ite (fun _ => ?_) (fun _ => ?_)
    | with_reducible refine Only.foldl ?_ (fun _ _ => ?_)
    | with_reducible refine State.noteInput_only _ _ _ ?_ (by decide)
    | with_reducible refine State.setAdc_only _ _ ?_ (by decide)
    | with_reducible refine State.set_only _ _ _ _ ?_ (by decide)
    | split
    | extract_lets

theorem State.adcChange_only {N : Nat} {σ s : State} (b : Nat) (v : Nat) (hσ : Only N σ s)
    (hN : 0x2000000000000000000000000000000020000000000000000000000000000000000 ||| N = N) : Only N σ (State.adcChange s b v) := hσ.step (State.adcChange_within s b v) hN

theorem State.freshCodes_within (s : State) (b : Nat) :
    Only 0x2000000000000000000000000000000000000000000000000000000000000000000 s (State.freshCodes s b) := by
  unfold State.freshCodes
  repeat' first
    | with_reducible exact Only.refl _ _
    | with_reducible refine Only.ite (fun _ => ?_) (fun _ => ?_)
    | with_reducible refine Only.foldl ?_ (fun _ _ => ?_)
    | with_reducible refine State.setAdc_only _ _ ?_ (by decide)

theorem State.freshCodes_only {N : Nat} {σ s : State} (b : Nat) (hσ : Only N σ s)
    (hN : 0x2000000000000000000000000000000000000000000000000000000000000000000 ||| N = N) : Only N σ (State.freshCodes s b) := hσ.step (State.freshCodes_within s b) hN

theorem State.beginVisit_within (s0 : State) (b : Nat) (e : Nat) (v : Nat) :
    Only 0x6200944000000000000000000001c00020000000000000000002000000000145000 s0 (State.beginVisit s0 b e v) := by
  unfold State.beginVisit
  repeat' first
    | with_reducible exact Only.refl _ _
    | with_reducible refine Only.ite (fun _ => ?_) (fun _ => ?_)
    | with_reducible refine Only.foldl ?_ (fun _ _ => ?_)
    | with_reducible refine State.freshCodes_only _ ?_ (by decide)
    | with_reducible refine State.showVisit_only _ ?_ (by decide)
    | with_reducible refine State.noteInput_only _ _ _ ?_ (by decide)
    | with_reducible refine State.setAdc_only _ _ ?_ (by decide)
    | with_reducible refine State.acqShort_only _ ?_ (by decide)
    | with_reducible refine State.set_only _ _ _ _ ?_ (by decide)

theorem State.beginVisit_only {N : Nat} {σ s0 : State} (b : Nat) (e : Nat) (v : Nat) (hσ : Only N σ s0)
    (hN : 0x6200944000000000000000000001c00020000000000000000002000000000145000 ||| N = N) : Only N σ (State.beginVisit s0 b e v) := hσ.step (State.beginVisit_within s0 b e v) hN

theorem State.restartTags_within (s : State) (b : Nat) (v : Nat) :
    Only 0x2000000000000000000000000000000000000000000000000000000000000000000 s (State.restartTags s b v) := by
  unfold State.restartTags
  repeat' first
    | with_reducible exact Only.refl _ _
    | with_reducible refine Only.ite (fun _ => ?_) (fun _ => ?_)
    | with_reducible refine Only.foldl ?_ (fun _ _ => ?_)
    | with_reducible refine State.setAdc_only _ _ ?_ (by decide)

theorem State.restartTags_only {N : Nat} {σ s : State} (b : Nat) (v : Nat) (hσ : Only N σ s)
    (hN : 0x2000000000000000000000000000000000000000000000000000000000000000000 ||| N = N) : Only N σ (State.restartTags s b v) := hσ.step (State.restartTags_within s b v) hN

theorem State.adcIdle_within (s0 : State) (b : Nat) :
    Only 0x6200944000000000000000000001c00020000000000000000002000000000145000 s0 (State.adcIdle s0 b) := by
  unfold State.adcIdle
  repeat' first
    | with_reducible exact Only.refl _ _
    | with_reducible refine Only.ite (fun _ => ?_) (fun _ => ?_)
    | with_reducible refine Only.foldl ?_ (fun _ _ => ?_)
    | with_reducible refine State.showVisit_only _ ?_ (by decide)
    | with_reducible refine State.setAdc_only _ _ ?_ (by decide)
    | with_reducible refine State.acqShort_only _ ?_ (by decide)
    | with_reducible refine State.set_only _ _ _ _ ?_ (by decide)

theorem State.adcIdle_only {N : Nat} {σ s0 : State} (b : Nat) (hσ : Only N σ s0)
    (hN : 0x6200944000000000000000000001c00020000000000000000002000000000145000 ||| N = N) : Only N σ (State.adcIdle s0 b) := hσ.step (State.adcIdle_within s0 b) hN

theorem State.startSequence_within (s : State) (b : Nat) (v : Nat) :
    Only 0x6200944000000000000000000001c00020000000000000000002000000000145000 s (State.startSequence s b v) := by
  unfold State.startSequence
  repeat' first
    | with_reducible exact Only.refl _ _
    | with_reducible refine Only.ite (fun _ => ?_) (fun _ => ?_)
    | with_reducible refine Only.foldl ?_ (fun _ _ => ?_)
    | with_reducible refine State.restartTags_only _ _ ?_ (by decide)
    | with_reducible refine State.beginVisit_only _ _ _ ?_ (by decide)
    | with_reducible refine State.showVisit_only _ ?_ (by decide)
    | with_reducible refine State.setAdc_only _ _ ?_ (by decide)

theorem State.startSequence_only {N : Nat} {σ s : State} (b : Nat) (v : Nat) (hσ : Only N σ s)
    (hN : 0x6200944000000000000000000001c00020000000000000000002000000000145000 ||| N = N) : Only N σ (State.startSequence s b v) := hσ.step (State.startSequence_within s b v) hN

theorem State.adcBusy_within (s : State) (b : Nat) :
    Only 0x4000000000000000000000000040000000000000000000000000000001000 s (State.adcBusy s b) := by
  unfold State.adcBusy
  repeat' first
    | with_reducible exact Only.refl _ _
    | with_reducible refine Only.ite (fun _ => ?_) (fun _ => ?_)
    | with_reducible refine Only.foldl ?_ (fun _ _ => ?_)
    | with_reducible refine State.count_only _ _ _ _ _ ?_ (by decide)

theorem State.adcBusy_only {N : Nat} {σ s : State} (b : Nat) (hσ : Only N σ s)
    (hN : 0x4000000000000000000000000040000000000000000000000000000001000 ||| N = N) : Only N σ (State.adcBusy s b) := hσ.step (State.adcBusy_within s b) hN

theorem State.seqTrigger_within (s : State) (b : Nat) (src : Src) :
    Only 0x6200944000000000000000000001c00060000000000000000002000000000145000 s (State.seqTrigger s b src) := by
  unfold State.seqTrigger
  repeat' first
    | with_reducible exact Only.refl _ _
    | with_reducible refine Only.ite (fun _ => ?_) (fun _ => ?_)
    | with_reducible refine Only.foldl ?_ (fun _ _ => ?_)
    | with_reducible refine State.adcBusy_only _ ?_ (by decide)
    | with_reducible refine State.startSequence_only _ _ ?_ (by decide)
    | with_reducible refine Only.onObj ?_ (fun _ => ?_) (by decide)
    | with_reducible refine State.count_only _ _ _ _ _ ?_ (by decide)

theorem State.seqTrigger_only {N : Nat} {σ s : State} (b : Nat) (src : Src) (hσ : Only N σ s)
    (hN : 0x6200944000000000000000000001c00060000000000000000002000000000145000 ||| N = N) : Only N σ (State.seqTrigger s b src) := hσ.step (State.seqTrigger_within s b src) hN

theorem State.adcStop_within (s : State) (b : Nat) :
    Only 0x6200944000000000000000000001c00020000000000000000002000000000145000 s (State.adcStop s b) := by
  unfold State.adcStop
  repeat' first
    | with_reducible exact Only.refl _ _
    | with_reducible refine Only.ite (fun _ => ?_) (fun _ => ?_)
    | with_reducible refine Only.foldl ?_ (fun _ _ => ?_)
    | with_reducible refine State.adcIdle_only _ ?_ (by decide)
    | with_reducible refine State.showVisit_only _ ?_ (by decide)
    | with_reducible refine State.setAdc_only _ _ ?_ (by decide)

theorem State.adcStop_only {N : Nat} {σ s : State} (b : Nat) (hσ : Only N σ s)
    (hN : 0x6200944000000000000000000001c00020000000000000000002000000000145000 ||| N = N) : Only N σ (State.adcStop s b) := hσ.step (State.adcStop_within s b) hN

theorem State.endUrgent_within (s : State) (b : Nat) (v : Nat) :
    Only 0x6200944000000000000000000001c00020000000000000000002000000000145000 s (State.endUrgent s b v) := by
  unfold State.endUrgent
  repeat' first
    | with_reducible exact Only.refl _ _
    | with_reducible refine Only.ite (fun _ => ?_) (fun _ => ?_)
    | with_reducible refine Only.foldl ?_ (fun _ _ => ?_)
    | with_reducible refine State.adcIdle_only _ ?_ (by decide)
    | with_reducible refine State.restartTags_only _ _ ?_ (by decide)
    | with_reducible refine State.beginVisit_only _ _ _ ?_ (by decide)
    | with_reducible refine State.setAdc_only _ _ ?_ (by decide)

theorem State.endUrgent_only {N : Nat} {σ s : State} (b : Nat) (v : Nat) (hσ : Only N σ s)
    (hN : 0x6200944000000000000000000001c00020000000000000000002000000000145000 ||| N = N) : Only N σ (State.endUrgent s b v) := hσ.step (State.endUrgent_within s b v) hN

theorem State.urgentRequest_within (s : State) (b : Nat) (e : Nat) (src : Src) :
    Only 0x6200944000000000000000000001c00060000000000000000002000000000145000 s (State.urgentRequest s b e src) := by
  unfold State.urgentRequest
  repeat' first
    | with_reducible exact Only.refl _ _
    | with_reducible refine Only.ite (fun _ => ?_) (fun _ => ?_)
    | with_reducible refine Only.foldl ?_ (fun _ _ => ?_)
    | with_reducible refine State.adcBusy_only _ ?_ (by decide)
    | with_reducible refine State.restartTags_only _ _ ?_ (by decide)
    | with_reducible refine State.beginVisit_only _ _ _ ?_ (by decide)
    | with_reducible refine State.setAdc_only _ _ ?_ (by decide)
    | with_reducible refine Only.onObj ?_ (fun _ => ?_) (by decide)
    | with_reducible refine State.count_only _ _ _ _ _ ?_ (by decide)

theorem State.urgentRequest_only {N : Nat} {σ s : State} (b : Nat) (e : Nat) (src : Src) (hσ : Only N σ s)
    (hN : 0x6200944000000000000000000001c00060000000000000000002000000000145000 ||| N = N) : Only N σ (State.urgentRequest s b e src) := hσ.step (State.urgentRequest_within s b e src) hN

theorem State.urgentCancel_within (s : State) (b : Nat) (src : Src) :
    Only 0x6200944000000000000000000001c00020000000000000000002000000000145000 s (State.urgentCancel s b src) := by
  unfold State.urgentCancel
  repeat' first
    | with_reducible exact Only.refl _ _
    | with_reducible refine Only.ite (fun _ => ?_) (fun _ => ?_)
    | with_reducible refine Only.foldl ?_ (fun _ _ => ?_)
    | with_reducible refine State.endUrgent_only _ _ ?_ (by decide)
    | with_reducible refine Only.onObj ?_ (fun _ => ?_) (by decide)

theorem State.urgentCancel_only {N : Nat} {σ s : State} (b : Nat) (src : Src) (hσ : Only N σ s)
    (hN : 0x6200944000000000000000000001c00020000000000000000002000000000145000 ||| N = N) : Only N σ (State.urgentCancel s b src) := hσ.step (State.urgentCancel_within s b src) hN

theorem State.adcCommit_within (s : State) (b : Nat) :
    Only 0x6200944000000000000000000001c00020000000000000000002000000000145000 s (State.adcCommit s b) := by
  unfold State.adcCommit
  repeat' first
    | with_reducible exact Only.refl _ _
    | with_reducible refine Only.ite (fun _ => ?_) (fun _ => ?_)
    | with_reducible refine Only.foldl ?_ (fun _ _ => ?_)
    | with_reducible refine OnlyOut.next ?_
    | with_reducible refine OnlyOut.ite (fun _ => ?_) (fun _ => ?_)
    | with_reducible refine State.beginVisit_only _ _ _ ?_ (by decide)
    | with_reducible refine State.adcChange_only _ _ ?_ (by decide)
    | with_reducible refine State.setAdc_only _ _ ?_ (by decide)
    | with_reducible refine State.set_only _ _ _ _ ?_ (by decide)
    | split
    | extract_lets

theorem State.adcCommit_only {N : Nat} {σ s : State} (b : Nat) (hσ : Only N σ s)
    (hN : 0x6200944000000000000000000001c00020000000000000000002000000000145000 ||| N = N) : Only N σ (State.adcCommit s b) := hσ.step (State.adcCommit_within s b) hN

theorem State.writeResult_within (s : State) (b : Nat) (e : Nat) :
    Only 0x3800000000000000000000000000000000000 s (State.writeResult s b e) := by
  unfold State.writeResult
  repeat' first
    | with_reducible exact Only.refl _ _
    | with_reducible refine Only.ite (fun _ => ?_) (fun _ => ?_)
    | with_reducible refine Only.foldl ?_ (fun _ _ => ?_)
    | with_reducible refine State.set_only _ _ _ _ ?_ (by decide)
    | with_reducible refine State.setBit_only _ _ _ _ ?_ (by decide)

theorem State.writeResult_only {N : Nat} {σ s : State} (b : Nat) (e : Nat) (hσ : Only N σ s)
    (hN : 0x3800000000000000000000000000000000000 ||| N = N) : Only N σ (State.writeResult s b e) := hσ.step (State.writeResult_within s b e) hN

theorem State.closeAdcWindow_within (s : State) (b : Nat) (cyc : Nat) :
    Only 0x2001844000000000000000000000003f00000000000400000000000000000145000 s (State.closeAdcWindow s b cyc) := by
  unfold State.closeAdcWindow
  repeat' first
    | with_reducible exact Only.refl _ _
    | with_reducible refine Only.ite (fun _ => ?_) (fun _ => ?_)
    | with_reducible refine Only.foldl ?_ (fun _ _ => ?_)
    | with_reducible refine State.writeResult_only _ _ ?_ (by decide)
    | with_reducible refine State.setAdc_only _ _ ?_ (by decide)
    | with_reducible refine State.setFlags_only _ _ _ ?_ (by decide)
    | with_reducible refine State.post_only _ _ _ ?_ (by decide)
    | with_reducible refine State.set_only _ _ _ _ ?_ (by decide)

theorem State.closeAdcWindow_only {N : Nat} {σ s : State} (b : Nat) (cyc : Nat) (hσ : Only N σ s)
    (hN : 0x2001844000000000000000000000003f00000000000400000000000000000145000 ||| N = N) : Only N σ (State.closeAdcWindow s b cyc) := hσ.step (State.closeAdcWindow_within s b cyc) hN

theorem State.openAdcWindow_within (s : State) (b : Nat) (cyc : Nat) :
    Only 0x2000000000000000000000000000000100000000000000000000000000000000000 s (State.openAdcWindow s b cyc) := by
  unfold State.openAdcWindow
  repeat' first
    | with_reducible exact Only.refl _ _
    | with_reducible refine Only.ite (fun _ => ?_) (fun _ => ?_)
    | with_reducible refine Only.foldl ?_ (fun _ _ => ?_)
    | with_reducible refine State.setAdc_only _ _ ?_ (by decide)
    | with_reducible refine State.set_only _ _ _ _ ?_ (by decide)

theorem State.openAdcWindow_only {N : Nat} {σ s : State} (b : Nat) (cyc : Nat) (hσ : Only N σ s)
    (hN : 0x2000000000000000000000000000000100000000000000000000000000000000000 ||| N = N) : Only N σ (State.openAdcWindow s b cyc) := hσ.step (State.openAdcWindow_within s b cyc) hN

theorem State.winOrphan_within (s : State) (b : Nat) :
    Only 0x100000000000000000000000000000000000 s (State.winOrphan s b) := by
  unfold State.winOrphan
  repeat' first
    | with_reducible exact Only.refl _ _
    | with_reducible refine Only.ite (fun _ => ?_) (fun _ => ?_)
    | with_reducible refine Only.foldl ?_ (fun _ _ => ?_)
    | with_reducible refine State.set_only _ _ _ _ ?_ (by decide)

theorem State.winOrphan_only {N : Nat} {σ s : State} (b : Nat) (hσ : Only N σ s)
    (hN : 0x100000000000000000000000000000000000 ||| N = N) : Only N σ (State.winOrphan s b) := hσ.step (State.winOrphan_within s b) hN

theorem State.windowEdge_within (s : State) (b : Nat) (action : Nat) (cyc : Nat) :
    Only 0x2001844000000000000000000000003f00000000000400000000000000000145000 s (State.windowEdge s b action cyc) := by
  unfold State.windowEdge
  repeat' first
    | with_reducible exact Only.refl _ _
    | with_reducible refine Only.ite (fun _ => ?_) (fun _ => ?_)
    | with_reducible refine Only.foldl ?_ (fun _ _ => ?_)
    | with_reducible refine OnlyOut.next ?_
    | with_reducible refine OnlyOut.ite (fun _ => ?_) (fun _ => ?_)
    | with_reducible refine State.winOrphan_only _ ?_ (by decide)
    | with_reducible refine State.openAdcWindow_only _ _ ?_ (by decide)
    | with_reducible refine State.closeAdcWindow_only _ _ ?_ (by decide)

theorem State.windowEdge_only {N : Nat} {σ s : State} (b : Nat) (action : Nat) (cyc : Nat) (hσ : Only N σ s)
    (hN : 0x2001844000000000000000000000003f00000000000400000000000000000145000 ||| N = N) : Only N σ (State.windowEdge s b action cyc) := hσ.step (State.windowEdge_within s b action cyc) hN

theorem State.edgesTo_within (s : State) (b : Nat) (u : Nat) (cyc : Nat) (y0 : List (Nat × Nat × Option Nat)) :
    Only 0x2001844000000000000000000000003f00000000000400000000000000000145000 s (State.edgesTo s b u cyc y0) := by
  induction y0 generalizing s b u cyc with
  | nil =>
    unfold State.edgesTo
    repeat' first
      | with_reducible exact Only.refl _ _
      | with_reducible refine Only.ite (fun _ => ?_) (fun _ => ?_)
      | with_reducible refine Only.foldl ?_ (fun _ _ => ?_)
      | with_reducible refine State.windowEdge_only _ _ _ ?_ (by decide)
      | with_reducible refine State.setAdc_only _ _ ?_ (by decide)

  | cons a l ih =>
    unfold State.edgesTo
    repeat' first
      | with_reducible exact Only.refl _ _
      | with_reducible refine Only.ite (fun _ => ?_) (fun _ => ?_)
      | with_reducible refine Only.foldl ?_ (fun _ _ => ?_)
      | with_reducible refine State.windowEdge_only _ _ _ ?_ (by decide)
      | with_reducible refine State.setAdc_only _ _ ?_ (by decide)
      | exact ih ..
      | refine Only.step ?_ (ih ..) (by decide)


theorem State.edgesTo_only {N : Nat} {σ s : State} (b : Nat) (u : Nat) (cyc : Nat) (y0 : List (Nat × Nat × Option Nat)) (hσ : Only N σ s)
    (hN : 0x2001844000000000000000000000003f00000000000400000000000000000145000 ||| N = N) : Only N σ (State.edgesTo s b u cyc y0) := hσ.step (State.edgesTo_within s b u cyc y0) hN

theorem State.addEdge_within (s : State) (b : Nat) (v : Nat) (a : Nat) (et : Option Nat) :
    Only 0x2000000000000000000000000000000000000000000000000000000000000000000 s (State.addEdge s b v a et) := by
  unfold State.addEdge
  repeat' first
    | with_reducible exact Only.refl _ _
    | with_reducible refine Only.ite (fun _ => ?_) (fun _ => ?_)
    | with_reducible refine Only.foldl ?_ (fun _ _ => ?_)
    | with_reducible refine State.setAdc_only _ _ ?_ (by decide)

theorem State.addEdge_only {N : Nat} {σ s : State} (b : Nat) (v : Nat) (a : Nat) (et : Option Nat) (hσ : Only N σ s)
    (hN : 0x2000000000000000000000000000000000000000000000000000000000000000000 ||| N = N) : Only N σ (State.addEdge s b v a et) := hσ.step (State.addEdge_within s b v a et) hN

theorem State.measureEdge_within (s : State) (b : Nat) (a : Nat) (start : Nat) (q : Nat) :
    Only 0x6200944000000000000000000001c00060000000000000000002000000000145000 s (State.measureEdge s b a start q) := by
  unfold State.measureEdge
  repeat' first
    | with_reducible exact Only.refl _ _
    | with_reducible refine Only.ite (fun _ => ?_) (fun _ => ?_)
    | with_reducible refine Only.foldl ?_ (fun _ _ => ?_)
    | with_reducible refine State.addEdge_only _ _ _ _ ?_ (by decide)
    | with_reducible refine State.seqTrigger_only _ _ ?_ (by decide)

theorem State.measureEdge_only {N : Nat} {σ s : State} (b : Nat) (a : Nat) (start : Nat) (q : Nat) (hσ : Only N σ s)
    (hN : 0x6200944000000000000000000001c00060000000000000000002000000000145000 ||| N = N) : Only N σ (State.measureEdge s b a start q) := hσ.step (State.measureEdge_within s b a start q) hN

theorem State.stopWindows_within (s : State) (q : Nat) (endFu : Nat) :
    Only 0x2000000000000000000000000000000000000000000000000000000000000000000 s (State.stopWindows s q endFu) := by
  unfold State.stopWindows
  repeat' first
    | with_reducible exact Only.refl _ _
    | with_reducible refine Only.ite (fun _ => ?_) (fun _ => ?_)
    | with_reducible refine Only.foldl ?_ (fun _ _ => ?_)
    | with_reducible refine State.addEdge_only _ _ _ _ ?_ (by decide)

theorem State.stopWindows_only {N : Nat} {σ s : State} (q : Nat) (endFu : Nat) (hσ : Only N σ s)
    (hN : 0x2000000000000000000000000000000000000000000000000000000000000000000 ||| N = N) : Only N σ (State.stopWindows s q endFu) := hσ.step (State.stopWindows_within s q endFu) hN

theorem State.timeWindow_within (s : State) (b : Nat) :
    Only 0x2000000000000000000000000000000000000000000000000000000000000000000 s (State.timeWindow s b) := by
  unfold State.timeWindow
  repeat' first
    | with_reducible exact Only.refl _ _
    | with_reducible refine Only.ite (fun _ => ?_) (fun _ => ?_)
    | with_reducible refine Only.foldl ?_ (fun _ _ => ?_)
    | with_reducible refine State.addEdge_only _ _ _ _ ?_ (by decide)
    | with_reducible refine State.setAdc_only _ _ ?_ (by decide)

theorem State.timeWindow_only {N : Nat} {σ s : State} (b : Nat) (hσ : Only N σ s)
    (hN : 0x2000000000000000000000000000000000000000000000000000000000000000000 ||| N = N) : Only N σ (State.timeWindow s b) := hσ.step (State.timeWindow_within s b) hN

theorem State.bankRequest_within (s : State) (b : Nat) (bank : Nat) :
    Only 0x2000000000000000000000000000000020000000000000000000000000000000000 s (State.bankRequest s b bank) := by
  unfold State.bankRequest
  repeat' first
    | with_reducible exact Only.refl _ _
    | with_reducible refine Only.ite (fun _ => ?_) (fun _ => ?_)
    | with_reducible refine Only.foldl ?_ (fun _ _ => ?_)
    | with_reducible refine State.setAdc_only _ _ ?_ (by decide)
    | with_reducible refine State.set_only _ _ _ _ ?_ (by decide)

theorem State.bankRequest_only {N : Nat} {σ s : State} (b : Nat) (bank : Nat) (hσ : Only N σ s)
    (hN : 0x2000000000000000000000000000000020000000000000000000000000000000000 ||| N = N) : Only N σ (State.bankRequest s b bank) := hσ.step (State.bankRequest_within s b bank) hN

theorem State.bankStep_within (s : State) (b : Nat) (d : Nat) :
    Only 0x2000000000000000000000000000000020000000000000000000000000000000000 s (State.bankStep s b d).2 := by
  unfold State.bankStep
  repeat' first
    | with_reducible exact Only.refl _ _
    | with_reducible refine Only.ite (fun _ => ?_) (fun _ => ?_)
    | with_reducible refine Only.foldl ?_ (fun _ _ => ?_)
    | with_reducible refine State.adcChange_only _ _ ?_ (by decide)
    | with_reducible refine State.setAdc_only _ _ ?_ (by decide)
    | with_reducible refine State.set_only _ _ _ _ ?_ (by decide)
    | split
    | extract_lets

theorem State.bankStep_only {N : Nat} {σ s : State} (b : Nat) (d : Nat) (hσ : Only N σ s)
    (hN : 0x2000000000000000000000000000000020000000000000000000000000000000000 ||| N = N) : Only N σ (State.bankStep s b d).2 := hσ.step (State.bankStep_within s b d) hN

theorem State.bankStep_only_eq {N : Nat} {σ s t : State} {b : Nat} {d : Nat} {v : Bool} (heq : State.bankStep s b d = (v, t)) (hσ : Only N σ s)
    (hN : 0x2000000000000000000000000000000020000000000000000000000000000000000 ||| N = N) : Only N σ t := hσ.step (Only.snd heq (State.bankStep_within s b d)) hN

theorem State.adcCalibrate_within (s : State) (b : Nat) :
    Only 0x6200944000000000000000000001c04820000000000000000002000000000145000 s (State.adcCalibrate s b) := by
  unfold State.adcCalibrate
  repeat' first
    | with_reducible exact Only.refl _ _
    | with_reducible refine Only.ite (fun _ => ?_) (fun _ => ?_)
    | with_reducible refine Only.foldl ?_ (fun _ _ => ?_)
    | with_reducible refine State.adcIdle_only _ ?_ (by decide)
    | with_reducible refine State.setAdc_only _ _ ?_ (by decide)
    | with_reducible refine State.set_only _ _ _ _ ?_ (by decide)

theorem State.adcCalibrate_only {N : Nat} {σ s : State} (b : Nat) (hσ : Only N σ s)
    (hN : 0x6200944000000000000000000001c04820000000000000000002000000000145000 ||| N = N) : Only N σ (State.adcCalibrate s b) := hσ.step (State.adcCalibrate_within s b) hN

theorem State.adcRephase_within (s : State) :
    Only 0x2000000000000000000000000000000020000000000000000000000000000000000 s (State.adcRephase s) := by
  unfold State.adcRephase
  repeat' first
    | with_reducible exact Only.refl _ _
    | with_reducible refine Only.ite (fun _ => ?_) (fun _ => ?_)
    | with_reducible refine Only.foldl ?_ (fun _ _ => ?_)
    | with_reducible refine State.adcChange_only _ _ ?_ (by decide)
    | with_reducible refine State.setAdc_only _ _ ?_ (by decide)

theorem State.adcRephase_only {N : Nat} {σ s : State}  (hσ : Only N σ s)
    (hN : 0x2000000000000000000000000000000020000000000000000000000000000000000 ||| N = N) : Only N σ (State.adcRephase s) := hσ.step (State.adcRephase_within s) hN

end Sys2Proof.Machine
end

