-- ==== Sys2Proof/Laws/Frame/OpsTime.lean ====
section
/-!
SUPPORT. OpsTime.lean: what each operation of Machine/OpsTime.lean can change (see Only).
-/
namespace Sys2Proof.Machine
set_option Elab.async false

theorem State.setServo_within (s : State) (d : Nat) (v : Servo) :
    Only 0x200000000000000000000000000000000000000000000000000000000000000 s (State.setServo s d v) := by
  unfold State.setServo
  repeat' first
    | with_reducible exact Only.refl _ _
    | with_reducible refine Only.ite (fun _ => ?_) (fun _ => ?_)
    | with_reducible refine Only.foldl ?_ (fun _ _ => ?_)
    | fail_if_no_progress with_reducible refine Only.fields ?_ rfl rfl

theorem State.setServo_only {N : Nat} {σ s : State} (d : Nat) (v : Servo) (hσ : Only N σ s)
    (hN : 0x200000000000000000000000000000000000000000000000000000000000000 ||| N = N) : Only N σ (State.setServo s d v) := hσ.step (State.setServo_within s d v) hN

theorem State.changeAt_within (s : State) (u : Nat) (f : Clocks → Clocks) :
    Only 0x200000000000000000000000000000000000000000000000000000000800000 s (State.changeAt s u f) := by
  unfold State.changeAt
  repeat' first
    | with_reducible exact Only.refl _ _
    | with_reducible refine Only.ite (fun _ => ?_) (fun _ => ?_)
    | with_reducible refine Only.foldl ?_ (fun _ _ => ?_)
    | fail_if_no_progress with_reducible refine Only.fields ?_ rfl rfl
    | with_reducible refine State.setBit_only _ _ _ _ ?_ (by decide)

theorem State.changeAt_only {N : Nat} {σ s : State} (u : Nat) (f : Clocks → Clocks) (hσ : Only N σ s)
    (hN : 0x200000000000000000000000000000000000000000000000000000000800000 ||| N = N) : Only N σ (State.changeAt s u f) := hσ.step (State.changeAt_within s u f) hN

theorem State.applyChange_within (s : State) (u : Nat) (c : TimeChange) :
    Only 0x204000000000000000000000000000000000000000000000000218000c01000 s (State.applyChange s u c) := by
  unfold State.applyChange
  repeat' first
    | with_reducible exact Only.refl _ _
    | with_reducible refine Only.ite (fun _ => ?_) (fun _ => ?_)
    | with_reducible refine Only.foldl ?_ (fun _ _ => ?_)
    | with_reducible refine State.changeAt_only _ _ ?_ (by decide)
    | with_reducible refine State.set_only _ _ _ _ ?_ (by decide)
    | with_reducible refine State.hwSet_only _ _ _ ?_ (by decide)
    | split

theorem State.applyChange_only {N : Nat} {σ s : State} (u : Nat) (c : TimeChange) (hσ : Only N σ s)
    (hN : 0x204000000000000000000000000000000000000000000000000218000c01000 ||| N = N) : Only N σ (State.applyChange s u c) := hσ.step (State.applyChange_within s u c) hN

theorem State.makeChange_within (s : State) (c : TimeChange) :
    Only 0x604000000000000000000000000000000000000000000000200218000c01000 s (State.makeChange s c) := by
  unfold State.makeChange
  repeat' first
    | with_reducible exact Only.refl _ _
    | with_reducible refine Only.ite (fun _ => ?_) (fun _ => ?_)
    | with_reducible refine Only.foldl ?_ (fun _ _ => ?_)
    | fail_if_no_progress with_reducible refine Only.fields ?_ rfl rfl
    | with_reducible refine State.applyChange_only _ _ ?_ (by decide)
    | with_reducible refine State.originate_only _ _ _ ?_ (by decide)

theorem State.makeChange_only {N : Nat} {σ s : State} (c : TimeChange) (hσ : Only N σ s)
    (hN : 0x604000000000000000000000000000000000000000000000200218000c01000 ||| N = N) : Only N σ (State.makeChange s c) := hσ.step (State.makeChange_within s c) hN

theorem State.requestStep_within (s : State) (d : Nat) (ns : Int) :
    Only 0x604000000000000000000000000000000000000000000000200218000c01000 s (State.requestStep s d ns).2 := by
  unfold State.requestStep
  repeat' first
    | with_reducible exact Only.refl _ _
    | with_reducible refine Only.ite (fun _ => ?_) (fun _ => ?_)
    | with_reducible refine Only.foldl ?_ (fun _ _ => ?_)
    | with_reducible refine State.makeChange_only _ ?_ (by decide)
    | with_reducible refine State.hwSet_only _ _ _ ?_ (by decide)
    | split

theorem State.requestStep_only {N : Nat} {σ s : State} (d : Nat) (ns : Int) (hσ : Only N σ s)
    (hN : 0x604000000000000000000000000000000000000000000000200218000c01000 ||| N = N) : Only N σ (State.requestStep s d ns).2 := hσ.step (State.requestStep_within s d ns) hN

theorem State.requestStep_only_eq {N : Nat} {σ s t : State} {d : Nat} {ns : Int} {v : Bool} (heq : State.requestStep s d ns = (v, t)) (hσ : Only N σ s)
    (hN : 0x604000000000000000000000000000000000000000000000200218000c01000 ||| N = N) : Only N σ t := hσ.step (Only.snd heq (State.requestStep_within s d ns)) hN

theorem State.requestSelect_within (s : State) (d : Nat) :
    Only 0x604000000000000000000000000000000000000000000000200218000c01000 s (State.requestSelect s d) := by
  unfold State.requestSelect
  repeat' first
    | with_reducible exact Only.refl _ _
    | with_reducible refine Only.ite (fun _ => ?_) (fun _ => ?_)
    | with_reducible refine Only.foldl ?_ (fun _ _ => ?_)
    | with_reducible refine State.makeChange_only _ ?_ (by decide)
    | with_reducible refine State.set_only _ _ _ _ ?_ (by decide)

theorem State.requestSelect_only {N : Nat} {σ s : State} (d : Nat) (hσ : Only N σ s)
    (hN : 0x604000000000000000000000000000000000000000000000200218000c01000 ||| N = N) : Only N σ (State.requestSelect s d) := hσ.step (State.requestSelect_within s d) hN

theorem State.newAddend_within (s : State) (d : Nat) (a : Int × Bool) :
    Only 0x604000000000000000000000000000000000000000000000200218000c01000 s (State.newAddend s d a) := by
  unfold State.newAddend
  repeat' first
    | with_reducible exact Only.refl _ _
    | with_reducible refine Only.ite (fun _ => ?_) (fun _ => ?_)
    | with_reducible refine Only.foldl ?_ (fun _ _ => ?_)
    | with_reducible refine State.makeChange_only _ ?_ (by decide)
    | with_reducible refine State.hwSet_only _ _ _ ?_ (by decide)

theorem State.newAddend_only {N : Nat} {σ s : State} (d : Nat) (a : Int × Bool) (hσ : Only N σ s)
    (hN : 0x604000000000000000000000000000000000000000000000200218000c01000 ||| N = N) : Only N σ (State.newAddend s d a) := hσ.step (State.newAddend_within s d a) hN

theorem State.servoHold_within (s : State) (d : Nat) :
    Only 0x604000000000000000000000000000000000000000000000200218000c01000 s (State.servoHold s d) := by
  unfold State.servoHold
  repeat' first
    | with_reducible exact Only.refl _ _
    | with_reducible refine Only.ite (fun _ => ?_) (fun _ => ?_)
    | with_reducible refine Only.foldl ?_ (fun _ _ => ?_)
    | with_reducible refine State.newAddend_only _ _ ?_ (by decide)
    | with_reducible refine State.set_only _ _ _ _ ?_ (by decide)

theorem State.servoHold_only {N : Nat} {σ s : State} (d : Nat) (hσ : Only N σ s)
    (hN : 0x604000000000000000000000000000000000000000000000200218000c01000 ||| N = N) : Only N σ (State.servoHold s d) := hσ.step (State.servoHold_within s d) hN

theorem State.enterHoldover_within (s : State) (d : Nat) :
    Only 0xe44000000000000000000000000000000000000000000000200218000d45000 s (State.enterHoldover s d) := by
  unfold State.enterHoldover
  repeat' first
    | with_reducible exact Only.refl _ _
    | with_reducible refine Only.ite (fun _ => ?_) (fun _ => ?_)
    | with_reducible refine Only.foldl ?_ (fun _ _ => ?_)
    | with_reducible refine State.servoHold_only _ ?_ (by decide)
    | with_reducible refine State.requestSelect_only _ ?_ (by decide)
    | with_reducible refine State.post_only _ _ _ ?_ (by decide)
    | with_reducible refine State.hwSet_only _ _ _ ?_ (by decide)

theorem State.enterHoldover_only {N : Nat} {σ s : State} (d : Nat) (hσ : Only N σ s)
    (hN : 0xe44000000000000000000000000000000000000000000000200218000d45000 ||| N = N) : Only N σ (State.enterHoldover s d) := hσ.step (State.enterHoldover_within s d) hN

theorem State.countSample_within (s : State) (d : Nat) (theta : Int) :
    Only 0x200000000000000000000000000000000000000000000000000200000000000 s (State.countSample s d theta) := by
  unfold State.countSample
  repeat' first
    | with_reducible exact Only.refl _ _
    | with_reducible refine Only.ite (fun _ => ?_) (fun _ => ?_)
    | with_reducible refine Only.foldl ?_ (fun _ _ => ?_)
    | with_reducible refine State.setServo_only _ _ ?_ (by decide)
    | with_reducible refine State.set_only _ _ _ _ ?_ (by decide)

theorem State.countSample_only {N : Nat} {σ s : State} (d : Nat) (theta : Int) (hσ : Only N σ s)
    (hN : 0x200000000000000000000000000000000000000000000000000200000000000 ||| N = N) : Only N σ (State.countSample s d theta) := hσ.step (State.countSample_within s d theta) hN

theorem State.acceptSample_within (s : State) (d : Nat) (theta : Int) :
    Only 0x604000000000000000000000000000000000000000000000200218000c01000 s (State.acceptSample s d theta) := by
  unfold State.acceptSample
  repeat' first
    | with_reducible exact Only.refl _ _
    | with_reducible refine Only.ite (fun _ => ?_) (fun _ => ?_)
    | with_reducible refine Only.foldl ?_ (fun _ _ => ?_)
    | with_reducible refine State.countSample_only _ _ ?_ (by decide)
    | with_reducible refine State.newAddend_only _ _ ?_ (by decide)
    | with_reducible refine State.requestStep_only _ _ ?_ (by decide)
    | with_reducible refine State.requestStep_only_eq (by assumption) ?_ (by decide)
    | with_reducible refine State.setServo_only _ _ ?_ (by decide)
    | split

theorem State.acceptSample_only {N : Nat} {σ s : State} (d : Nat) (theta : Int) (hσ : Only N σ s)
    (hN : 0x604000000000000000000000000000000000000000000000200218000c01000 ||| N = N) : Only N σ (State.acceptSample s d theta) := hσ.step (State.acceptSample_within s d theta) hN

theorem State.ask_within (s : State) (a : TimeAsk) :
    Only 0x200000000000000000000000000000000000000000000000000000000000000 s (State.ask s a) := by
  unfold State.ask
  repeat' first
    | with_reducible exact Only.refl _ _
    | with_reducible refine Only.ite (fun _ => ?_) (fun _ => ?_)
    | with_reducible refine Only.foldl ?_ (fun _ _ => ?_)
    | fail_if_no_progress with_reducible refine Only.fields ?_ rfl rfl

theorem State.ask_only {N : Nat} {σ s : State} (a : TimeAsk) (hσ : Only N σ s)
    (hN : 0x200000000000000000000000000000000000000000000000000000000000000 ||| N = N) : Only N σ (State.ask s a) := hσ.step (State.ask_within s a) hN

theorem State.submitSample_within (s : State) (d : Nat) (theta : Int) :
    Only 0x204000000000000000000000000000000000000000000000000200000001000 s (State.submitSample s d theta) := by
  unfold State.submitSample
  repeat' first
    | with_reducible exact Only.refl _ _
    | with_reducible refine Only.ite (fun _ => ?_) (fun _ => ?_)
    | with_reducible refine Only.foldl ?_ (fun _ _ => ?_)
    | with_reducible refine State.ask_only _ ?_ (by decide)
    | with_reducible refine State.setServo_only _ _ ?_ (by decide)
    | with_reducible refine State.count_only _ _ _ _ _ ?_ (by decide)

theorem State.submitSample_only {N : Nat} {σ s : State} (d : Nat) (theta : Int) (hσ : Only N σ s)
    (hN : 0x204000000000000000000000000000000000000000000000000200000001000 ||| N = N) : Only N σ (State.submitSample s d theta) := hσ.step (State.submitSample_within s d theta) hN

theorem State.intClear_within (s : State) (d : Nat) :
    Only 0x200000000000000000000000000000000000000000000000000000000000000 s (State.intClear s d) := by
  unfold State.intClear
  repeat' first
    | with_reducible exact Only.refl _ _
    | with_reducible refine Only.ite (fun _ => ?_) (fun _ => ?_)
    | with_reducible refine Only.foldl ?_ (fun _ _ => ?_)
    | with_reducible refine State.setServo_only _ _ ?_ (by decide)

theorem State.intClear_only {N : Nat} {σ s : State} (d : Nat) (hσ : Only N σ s)
    (hN : 0x200000000000000000000000000000000000000000000000000000000000000 ||| N = N) : Only N σ (State.intClear s d) := hσ.step (State.intClear_within s d) hN

theorem State.timeActs_within (s : State) :
    Only 0x604000000000000000000000000000000000000000000000200218000c01000 s (State.timeActs s) := by
  unfold State.timeActs
  repeat' first
    | with_reducible exact Only.refl _ _
    | with_reducible refine Only.ite (fun _ => ?_) (fun _ => ?_)
    | with_reducible refine Only.foldl ?_ (fun _ _ => ?_)
    | fail_if_no_progress with_reducible refine Only.fields ?_ rfl rfl
    | with_reducible refine State.intClear_only _ ?_ (by decide)
    | with_reducible refine State.acceptSample_only _ _ ?_ (by decide)
    | with_reducible refine State.requestSelect_only _ ?_ (by decide)
    | with_reducible refine State.requestStep_only _ _ ?_ (by decide)
    | with_reducible refine State.requestStep_only_eq (by assumption) ?_ (by decide)
    | with_reducible refine State.makeChange_only _ ?_ (by decide)
    | split

theorem State.timeActs_only {N : Nat} {σ s : State}  (hσ : Only N σ s)
    (hN : 0x604000000000000000000000000000000000000000000000200218000c01000 ||| N = N) : Only N σ (State.timeActs s) := hσ.step (State.timeActs_within s) hN

theorem State.loseLockstep_within (s : State) :
    Only 0x204000000000000000000000000000000000000000000000000200000801000 s (State.loseLockstep s) := by
  unfold State.loseLockstep
  repeat' first
    | with_reducible exact Only.refl _ _
    | with_reducible refine Only.ite (fun _ => ?_) (fun _ => ?_)
    | with_reducible refine Only.foldl ?_ (fun _ _ => ?_)
    | fail_if_no_progress with_reducible refine Only.fields ?_ rfl rfl
    | with_reducible refine State.set_only _ _ _ _ ?_ (by decide)
    | with_reducible refine State.setBit_only _ _ _ _ ?_ (by decide)
    | with_reducible refine State.hwSet_only _ _ _ ?_ (by decide)

theorem State.loseLockstep_only {N : Nat} {σ s : State}  (hσ : Only N σ s)
    (hN : 0x204000000000000000000000000000000000000000000000000200000801000 ||| N = N) : Only N σ (State.loseLockstep s) := hσ.step (State.loseLockstep_within s) hN

theorem State.joinLockstep_within (s : State) (bound : Nat) (c : Clocks) :
    Only 0x204000000000000000000000000000000000000000000000000218000c01000 s (State.joinLockstep s bound c) := by
  unfold State.joinLockstep
  repeat' first
    | with_reducible exact Only.refl _ _
    | with_reducible refine Only.ite (fun _ => ?_) (fun _ => ?_)
    | with_reducible refine Only.foldl ?_ (fun _ _ => ?_)
    | fail_if_no_progress with_reducible refine Only.fields ?_ rfl rfl
    | with_reducible refine State.applyChange_only _ _ ?_ (by decide)
    | with_reducible refine State.set_only _ _ _ _ ?_ (by decide)
    | with_reducible refine State.setBit_only _ _ _ _ ?_ (by decide)

theorem State.joinLockstep_only {N : Nat} {σ s : State} (bound : Nat) (c : Clocks) (hσ : Only N σ s)
    (hN : 0x204000000000000000000000000000000000000000000000000218000c01000 ||| N = N) : Only N σ (State.joinLockstep s bound c) := hσ.step (State.joinLockstep_within s bound c) hN

theorem State.applyCheck_within (s : State) (a : Nat × Int × Int) (b : Nat × Nat × Nat × Int × Nat) :
    Only 0x204000000000000000000000000000000000000000000000000218000c01000 s (State.applyCheck s a b) := by
  unfold State.applyCheck
  repeat' first
    | with_reducible exact Only.refl _ _
    | with_reducible refine Only.ite (fun _ => ?_) (fun _ => ?_)
    | with_reducible refine Only.foldl ?_ (fun _ _ => ?_)
    | fail_if_no_progress with_reducible refine Only.fields ?_ rfl rfl
    | with_reducible refine State.joinLockstep_only _ _ ?_ (by decide)
    | with_reducible refine State.loseLockstep_only  ?_ (by decide)

theorem State.applyCheck_only {N : Nat} {σ s : State} (a : Nat × Int × Int) (b : Nat × Nat × Nat × Int × Nat) (hσ : Only N σ s)
    (hN : 0x204000000000000000000000000000000000000000000000000218000c01000 ||| N = N) : Only N σ (State.applyCheck s a b) := hσ.step (State.applyCheck_within s a b) hN

theorem State.takeCheck_within (s : State) :
    Only 0x204000000000000000000000000000000000000000000000000218000c01000 s (State.takeCheck s) := by
  unfold State.takeCheck
  repeat' first
    | with_reducible exact Only.refl _ _
    | with_reducible refine Only.ite (fun _ => ?_) (fun _ => ?_)
    | with_reducible refine Only.foldl ?_ (fun _ _ => ?_)
    | with_reducible refine State.applyCheck_only _ _ ?_ (by decide)
    | split

theorem State.takeCheck_only {N : Nat} {σ s : State}  (hσ : Only N σ s)
    (hN : 0x204000000000000000000000000000000000000000000000000218000c01000 ||| N = N) : Only N σ (State.takeCheck s) := hσ.step (State.takeCheck_within s) hN

theorem State.dueChanges_within (s : State) :
    Only 0x204000000000000000000000000000000000000000000000000218000c01000 s (State.dueChanges s) := by
  unfold State.dueChanges
  repeat' first
    | with_reducible exact Only.refl _ _
    | with_reducible refine Only.ite (fun _ => ?_) (fun _ => ?_)
    | with_reducible refine Only.foldl ?_ (fun _ _ => ?_)
    | fail_if_no_progress with_reducible refine Only.fields ?_ rfl rfl
    | with_reducible refine State.takeCheck_only  ?_ (by decide)
    | with_reducible refine State.applyChange_only _ _ ?_ (by decide)

theorem State.dueChanges_only {N : Nat} {σ s : State}  (hσ : Only N σ s)
    (hN : 0x204000000000000000000000000000000000000000000000000218000c01000 ||| N = N) : Only N σ (State.dueChanges s) := hσ.step (State.dueChanges_within s) hN

theorem State.ppsLow_within (s : State) :
    Only 0x240000000000000000000000000000000000000000000000000000000000000 s (State.ppsLow s) := by
  unfold State.ppsLow
  repeat' first
    | with_reducible exact Only.refl _ _
    | with_reducible refine Only.ite (fun _ => ?_) (fun _ => ?_)
    | with_reducible refine Only.foldl ?_ (fun _ _ => ?_)
    | fail_if_no_progress with_reducible refine Only.fields ?_ rfl rfl
    | with_reducible refine State.emit_only _ ?_ (by decide)

theorem State.ppsLow_only {N : Nat} {σ s : State}  (hσ : Only N σ s)
    (hN : 0x240000000000000000000000000000000000000000000000000000000000000 ||| N = N) : Only N σ (State.ppsLow s) := hσ.step (State.ppsLow_within s) hN

theorem State.updatePending_within (s : State) :
    Only 0x800000 s (State.updatePending s) := by
  unfold State.updatePending
  repeat' first
    | with_reducible exact Only.refl _ _
    | with_reducible refine Only.ite (fun _ => ?_) (fun _ => ?_)
    | with_reducible refine Only.foldl ?_ (fun _ _ => ?_)
    | with_reducible refine State.setBit_only _ _ _ _ ?_ (by decide)

theorem State.updatePending_only {N : Nat} {σ s : State}  (hσ : Only N σ s)
    (hN : 0x800000 ||| N = N) : Only N σ (State.updatePending s) := hσ.step (State.updatePending_within s) hN

theorem State.putRaise_within (s : State) (r : RaiseOp) :
    Only 0x1800800000 s (State.putRaise s r) := by
  unfold State.putRaise
  repeat' first
    | with_reducible exact Only.refl _ _
    | with_reducible refine Only.ite (fun _ => ?_) (fun _ => ?_)
    | with_reducible refine Only.foldl ?_ (fun _ _ => ?_)
    | with_reducible refine OnlyOut.next ?_
    | with_reducible refine OnlyOut.ite (fun _ => ?_) (fun _ => ?_)
    | with_reducible refine State.updatePending_only  ?_ (by decide)
    | with_reducible refine State.set_only _ _ _ _ ?_ (by decide)

theorem State.putRaise_only {N : Nat} {σ s : State} (r : RaiseOp) (hσ : Only N σ s)
    (hN : 0x1800800000 ||| N = N) : Only N σ (State.putRaise s r) := hσ.step (State.putRaise_within s r) hN

theorem State.schedule_within (s : State) (r : RaiseOp) (src : Src) :
    Only 0x4000000000000000000000000000000000000000000000000001800801000 s (State.schedule s r src).2 := by
  unfold State.schedule
  repeat' first
    | with_reducible exact Only.refl _ _
    | with_reducible refine Only.ite (fun _ => ?_) (fun _ => ?_)
    | with_reducible refine Only.foldl ?_ (fun _ _ => ?_)
    | with_reducible refine OnlyOut.next ?_
    | with_reducible refine OnlyOut.ite (fun _ => ?_) (fun _ => ?_)
    | with_reducible refine State.putRaise_only _ ?_ (by decide)
    | with_reducible refine State.decideEvent_only _ _ _ _ ?_ (by decide)
    | with_reducible refine State.decideEvent_only_eq (by assumption) ?_ (by decide)
    | with_reducible refine State.superseded_only ?_ (by decide)
    | split

theorem State.schedule_only {N : Nat} {σ s : State} (r : RaiseOp) (src : Src) (hσ : Only N σ s)
    (hN : 0x4000000000000000000000000000000000000000000000000001800801000 ||| N = N) : Only N σ (State.schedule s r src).2 := hσ.step (State.schedule_within s r src) hN

theorem State.schedule_only_eq {N : Nat} {σ s t : State} {r : RaiseOp} {src : Src} {v : Nat} (heq : State.schedule s r src = (v, t)) (hσ : Only N σ s)
    (hN : 0x4000000000000000000000000000000000000000000000000001800801000 ||| N = N) : Only N σ t := hσ.step (Only.snd heq (State.schedule_within s r src)) hN

theorem State.cancelRaise_within (s : State) (e : Nat) (tag : Nat) (src : Src) :
    Only 0x4000000000000000000000000000000000000000000000000001000801000 s (State.cancelRaise s e tag src).2 := by
  unfold State.cancelRaise
  repeat' first
    | with_reducible exact Only.refl _ _
    | with_reducible refine Only.ite (fun _ => ?_) (fun _ => ?_)
    | with_reducible refine Only.foldl ?_ (fun _ _ => ?_)
    | with_reducible refine OnlyOut.next ?_
    | with_reducible refine OnlyOut.ite (fun _ => ?_) (fun _ => ?_)
    | with_reducible refine State.updatePending_only  ?_ (by decide)
    | with_reducible refine State.decideEvent_only _ _ _ _ ?_ (by decide)
    | with_reducible refine State.decideEvent_only_eq (by assumption) ?_ (by decide)
    | with_reducible refine State.set_only _ _ _ _ ?_ (by decide)
    | with_reducible refine State.superseded_only ?_ (by decide)
    | split

theorem State.cancelRaise_only {N : Nat} {σ s : State} (e : Nat) (tag : Nat) (src : Src) (hσ : Only N σ s)
    (hN : 0x4000000000000000000000000000000000000000000000000001000801000 ||| N = N) : Only N σ (State.cancelRaise s e tag src).2 := hσ.step (State.cancelRaise_within s e tag src) hN

theorem State.cancelRaise_only_eq {N : Nat} {σ s t : State} {e : Nat} {tag : Nat} {src : Src} {v : Nat} (heq : State.cancelRaise s e tag src = (v, t)) (hσ : Only N σ s)
    (hN : 0x4000000000000000000000000000000000000000000000000001000801000 ||| N = N) : Only N σ t := hσ.step (Only.snd heq (State.cancelRaise_within s e tag src)) hN

end Sys2Proof.Machine
end

