-- ==== Sys2Proof/Laws/Frame/OpsGlobal.lean ====
section
/-!
SUPPORT. OpsGlobal.lean: what each operation of Machine/OpsGlobal.lean can change (see Only).
-/
namespace Sys2Proof.Machine
set_option Elab.async false

theorem State.gfChanged_within (s : State) :
    Only 0x4000004000000000000000000001000000000000000000000000000000000001000 s (State.gfChanged s) := by
  unfold State.gfChanged
  repeat' first
    | with_reducible exact Only.refl _ _
    | with_reducible refine Only.ite (fun _ => ?_) (fun _ => ?_)
    | with_reducible refine Only.foldl ?_ (fun _ _ => ?_)
    | with_reducible refine State.acqGf_only _ _ ?_ (by decide)

theorem State.gfChanged_only {N : Nat} {σ s : State}  (hσ : Only N σ s)
    (hN : 0x4000004000000000000000000001000000000000000000000000000000000001000 ||| N = N) : Only N σ (State.gfChanged s) := hσ.step (State.gfChanged_within s) hN

theorem State.setBar_within (s : State) (q : Nat) (i : Nat) (b : BarX) :
    Only 0x8000000000000000000000000000000000000000000000000000000000000000 s (State.setBar s q i b) := by
  unfold State.setBar
  repeat' first
    | with_reducible exact Only.refl _ _
    | with_reducible refine Only.ite (fun _ => ?_) (fun _ => ?_)
    | with_reducible refine Only.foldl ?_ (fun _ _ => ?_)
    | fail_if_no_progress with_reducible refine Only.fields ?_ rfl rfl

theorem State.setBar_only {N : Nat} {σ s : State} (q : Nat) (i : Nat) (b : BarX) (hσ : Only N σ s)
    (hN : 0x8000000000000000000000000000000000000000000000000000000000000000 ||| N = N) : Only N σ (State.setBar s q i b) := hσ.step (State.setBar_within s q i b) hN

theorem State.showArrived_within (s : State) (q : Nat) (i : Nat) :
    Only 0x1000000000000000000000000000000000000000000000000 s (State.showArrived s q i) := by
  unfold State.showArrived
  repeat' first
    | with_reducible exact Only.refl _ _
    | with_reducible refine Only.ite (fun _ => ?_) (fun _ => ?_)
    | with_reducible refine Only.foldl ?_ (fun _ _ => ?_)
    | with_reducible refine State.set_only _ _ _ _ ?_ (by decide)

theorem State.showArrived_only {N : Nat} {σ s : State} (q : Nat) (i : Nat) (hσ : Only N σ s)
    (hN : 0x1000000000000000000000000000000000000000000000000 ||| N = N) : Only N σ (State.showArrived s q i) := hσ.step (State.showArrived_within s q i) hN

theorem State.remoteArrive_within (s : State) (i : Nat) (gen : Nat) :
    Only 0x8000000000000001000000000000000000000000000000000000000000000000 s (State.remoteArrive s i gen) := by
  unfold State.remoteArrive
  repeat' first
    | with_reducible exact Only.refl _ _
    | with_reducible refine Only.ite (fun _ => ?_) (fun _ => ?_)
    | with_reducible refine Only.foldl ?_ (fun _ _ => ?_)
    | with_reducible refine State.showArrived_only _ _ ?_ (by decide)
    | with_reducible refine State.setBar_only _ _ _ ?_ (by decide)

theorem State.remoteArrive_only {N : Nat} {σ s : State} (i : Nat) (gen : Nat) (hσ : Only N σ s)
    (hN : 0x8000000000000001000000000000000000000000000000000000000000000000 ||| N = N) : Only N σ (State.remoteArrive s i gen) := hσ.step (State.remoteArrive_within s i gen) hN

end Sys2Proof.Machine
end

