-- ==== Sys2Proof/Laws/Frame/OpsCmp.lean ====
section
/-!
SUPPORT. OpsCmp.lean: what each operation of Machine/OpsCmp.lean can change (see Only).
-/
namespace Sys2Proof.Machine
set_option Elab.async false

theorem State.fly_within (s : State) (c : Nat) (f : Flight) :
    Only 0x10000000000000000000000000000000000000000000000000000000000000000 s (State.fly s c f) := by
  unfold State.fly
  repeat' first
    | with_reducible exact Only.refl _ _
    | with_reducible refine Only.ite (fun _ => ?_) (fun _ => ?_)
    | with_reducible refine Only.foldl ?_ (fun _ _ => ?_)
    | with_reducible refine State.setChan_only _ _ ?_ (by decide)

theorem State.fly_only {N : Nat} {σ s : State} (c : Nat) (f : Flight) (hσ : Only N σ s)
    (hN : 0x10000000000000000000000000000000000000000000000000000000000000000 ||| N = N) : Only N σ (State.fly s c f) := hσ.step (State.fly_within s c f) hN

theorem State.strobe_within (s : State) (c : Nat) (e : Ev) (high : Bool) (low : Bool) :
    Only 0x10040000000000000000000000000000000000000000000000000000000000000 s (State.strobe s c e high low) := by
  unfold State.strobe
  repeat' first
    | with_reducible exact Only.refl _ _
    | with_reducible refine Only.ite (fun _ => ?_) (fun _ => ?_)
    | with_reducible refine Only.foldl ?_ (fun _ _ => ?_)
    | with_reducible refine OnlyOut.next ?_
    | with_reducible refine OnlyOut.ite (fun _ => ?_) (fun _ => ?_)
    | with_reducible refine State.fly_only _ _ ?_ (by decide)
    | with_reducible refine State.emit_only _ ?_ (by decide)

theorem State.strobe_only {N : Nat} {σ s : State} (c : Nat) (e : Ev) (high : Bool) (low : Bool) (hσ : Only N σ s)
    (hN : 0x10040000000000000000000000000000000000000000000000000000000000000 ||| N = N) : Only N σ (State.strobe s c e high low) := hσ.step (State.strobe_within s c e high low) hN

theorem State.closeWindow_within (s : State) (c : Nat) (w : Win) (e : Ev) (high : List Sample) (low : List Sample) :
    Only 0x10000000000000000000000000000000000000000000000000000000000000000 s (State.closeWindow s c w e high low) := by
  unfold State.closeWindow
  repeat' first
    | with_reducible exact Only.refl _ _
    | with_reducible refine Only.ite (fun _ => ?_) (fun _ => ?_)
    | with_reducible refine Only.foldl ?_ (fun _ _ => ?_)
    | with_reducible refine OnlyOut.next ?_
    | with_reducible refine OnlyOut.ite (fun _ => ?_) (fun _ => ?_)
    | with_reducible refine State.fly_only _ _ ?_ (by decide)
    | with_reducible refine State.setChan_only _ _ ?_ (by decide)

theorem State.closeWindow_only {N : Nat} {σ s : State} (c : Nat) (w : Win) (e : Ev) (high : List Sample) (low : List Sample) (hσ : Only N σ s)
    (hN : 0x10000000000000000000000000000000000000000000000000000000000000000 ||| N = N) : Only N σ (State.closeWindow s c w e high low) := hσ.step (State.closeWindow_within s c w e high low) hN

theorem State.applyCompare_within (s : State) (c : Nat) (e : Ev) (high : List Sample) (low : List Sample) :
    Only 0x10044000000000000000000000000000200000000000000000000000000001000 s (State.applyCompare s c e high low) := by
  unfold State.applyCompare
  repeat' first
    | with_reducible exact Only.refl _ _
    | with_reducible refine Only.ite (fun _ => ?_) (fun _ => ?_)
    | with_reducible refine Only.foldl ?_ (fun _ _ => ?_)
    | with_reducible refine State.closeWindow_only _ _ _ _ _ ?_ (by decide)
    | with_reducible refine State.strobe_only _ _ _ _ ?_ (by decide)
    | with_reducible refine State.setChan_only _ _ ?_ (by decide)
    | with_reducible refine State.count_only _ _ _ _ _ ?_ (by decide)
    | split

theorem State.applyCompare_only {N : Nat} {σ s : State} (c : Nat) (e : Ev) (high : List Sample) (low : List Sample) (hσ : Only N σ s)
    (hN : 0x10044000000000000000000000000000200000000000000000000000000001000 ||| N = N) : Only N σ (State.applyCompare s c e high low) := hσ.step (State.applyCompare_within s c e high low) hN

theorem State.setLogX_within (s : State) (q : Nat) (x : LogX) :
    Only 0x40000000000000000000000000000000000000000000000000000000000000000 s (State.setLogX s q x) := by
  unfold State.setLogX
  repeat' first
    | with_reducible exact Only.refl _ _
    | with_reducible refine Only.ite (fun _ => ?_) (fun _ => ?_)
    | with_reducible refine Only.foldl ?_ (fun _ _ => ?_)
    | fail_if_no_progress with_reducible refine Only.fields ?_ rfl rfl

theorem State.setLogX_only {N : Nat} {σ s : State} (q : Nat) (x : LogX) (hσ : Only N σ s)
    (hN : 0x40000000000000000000000000000000000000000000000000000000000000000 ||| N = N) : Only N σ (State.setLogX s q x) := hσ.step (State.setLogX_within s q x) hN

theorem State.enterLog_within (s : State) (q : Nat) (g : Group) :
    Only 0x40000000000000000000000000000000000000000000000000000000000000000 s (State.enterLog s q g) := by
  unfold State.enterLog
  repeat' first
    | with_reducible exact Only.refl _ _
    | with_reducible refine Only.ite (fun _ => ?_) (fun _ => ?_)
    | with_reducible refine Only.foldl ?_ (fun _ _ => ?_)
    | with_reducible refine State.setLogX_only _ _ ?_ (by decide)
    | split
    | extract_lets

theorem State.enterLog_only {N : Nat} {σ s : State} (q : Nat) (g : Group) (hσ : Only N σ s)
    (hN : 0x40000000000000000000000000000000000000000000000000000000000000000 ||| N = N) : Only N σ (State.enterLog s q g) := hσ.step (State.enterLog_within s q g) hN

theorem State.closeSummaries_within (s : State) (q : Nat) :
    Only 0x40004000000040000000000000000000000000000000000000000000000001000 s (State.closeSummaries s q) := by
  unfold State.closeSummaries
  repeat' first
    | with_reducible exact Only.refl _ _
    | with_reducible refine Only.ite (fun _ => ?_) (fun _ => ?_)
    | with_reducible refine Only.foldl ?_ (fun _ _ => ?_)
    | with_reducible refine State.setLogX_only _ _ ?_ (by decide)
    | with_reducible refine State.hwSet_only _ _ _ ?_ (by decide)
    | with_reducible refine State.count_only _ _ _ _ _ ?_ (by decide)

theorem State.closeSummaries_only {N : Nat} {σ s : State} (q : Nat) (hσ : Only N σ s)
    (hN : 0x40004000000040000000000000000000000000000000000000000000000001000 ||| N = N) : Only N σ (State.closeSummaries s q) := hσ.step (State.closeSummaries_within s q) hN

theorem State.firstFail_within (s : State) (q : Nat) (g : Group) :
    Only 0x4000000000000c000000000000000000000000000000000000000000000000000 s (State.firstFail s q g) := by
  unfold State.firstFail
  repeat' first
    | with_reducible exact Only.refl _ _
    | with_reducible refine Only.ite (fun _ => ?_) (fun _ => ?_)
    | with_reducible refine Only.foldl ?_ (fun _ _ => ?_)
    | with_reducible refine State.setLogX_only _ _ ?_ (by decide)
    | with_reducible refine State.set_only _ _ _ _ ?_ (by decide)

theorem State.firstFail_only {N : Nat} {σ s : State} (q : Nat) (g : Group) (hσ : Only N σ s)
    (hN : 0x4000000000000c000000000000000000000000000000000000000000000000000 ||| N = N) : Only N σ (State.firstFail s q g) := hσ.step (State.firstFail_within s q g) hN

theorem State.closeBlock_within (s : State) (q : Nat) :
    Only 0x40000000000000000000000000000000000000000000000000000000000000000 s (State.closeBlock s q) := by
  unfold State.closeBlock
  repeat' first
    | with_reducible exact Only.refl _ _
    | with_reducible refine Only.ite (fun _ => ?_) (fun _ => ?_)
    | with_reducible refine Only.foldl ?_ (fun _ _ => ?_)
    | with_reducible refine State.setLogX_only _ _ ?_ (by decide)
    | split
    | extract_lets

theorem State.closeBlock_only {N : Nat} {σ s : State} (q : Nat) (hσ : Only N σ s)
    (hN : 0x40000000000000000000000000000000000000000000000000000000000000000 ||| N = N) : Only N σ (State.closeBlock s q) := hσ.step (State.closeBlock_within s q) hN

theorem State.closeFull_within (s : State) (q : Nat) :
    Only 0x40000000000000000000000000000000000000000000000000000000000000000 s (State.closeFull s q) := by
  unfold State.closeFull
  repeat' first
    | with_reducible exact Only.refl _ _
    | with_reducible refine Only.ite (fun _ => ?_) (fun _ => ?_)
    | with_reducible refine Only.foldl ?_ (fun _ _ => ?_)
    | with_reducible refine State.closeBlock_only _ ?_ (by decide)
    | split

theorem State.closeFull_only {N : Nat} {σ s : State} (q : Nat) (hσ : Only N σ s)
    (hN : 0x40000000000000000000000000000000000000000000000000000000000000000 ||| N = N) : Only N σ (State.closeFull s q) := hσ.step (State.closeFull_within s q) hN

theorem State.addStep_within (s : State) (q : Nat) (st : CapStep) (slots : Nat) :
    Only 0x40004000000200000000000000000000000000000000000000000000000001000 s (State.addStep s q st slots) := by
  unfold State.addStep
  repeat' first
    | with_reducible exact Only.refl _ _
    | with_reducible refine Only.ite (fun _ => ?_) (fun _ => ?_)
    | with_reducible refine Only.foldl ?_ (fun _ _ => ?_)
    | with_reducible refine State.closeFull_only _ ?_ (by decide)
    | with_reducible refine State.closeBlock_only _ ?_ (by decide)
    | with_reducible refine State.setLogX_only _ _ ?_ (by decide)
    | with_reducible refine State.hwSet_only _ _ _ ?_ (by decide)
    | with_reducible refine State.count_only _ _ _ _ _ ?_ (by decide)
    | split
    | extract_lets

theorem State.addStep_only {N : Nat} {σ s : State} (q : Nat) (st : CapStep) (slots : Nat) (hσ : Only N σ s)
    (hN : 0x40004000000200000000000000000000000000000000000000000000000001000 ||| N = N) : Only N σ (State.addStep s q st slots) := hσ.step (State.addStep_within s q st slots) hN

theorem State.capture_within (s : State) (c : Nat) (f : Flight) :
    Only 0x40000000000000000000000000000000000000000000000000000000000000000 s (State.capture s c f) := by
  unfold State.capture
  repeat' first
    | with_reducible exact Only.refl _ _
    | with_reducible refine Only.ite (fun _ => ?_) (fun _ => ?_)
    | with_reducible refine Only.foldl ?_ (fun _ _ => ?_)
    | with_reducible refine OnlyOut.next ?_
    | with_reducible refine OnlyOut.ite (fun _ => ?_) (fun _ => ?_)
    | with_reducible refine State.setLogX_only _ _ ?_ (by decide)

theorem State.capture_only {N : Nat} {σ s : State} (c : Nat) (f : Flight) (hσ : Only N σ s)
    (hN : 0x40000000000000000000000000000000000000000000000000000000000000000 ||| N = N) : Only N σ (State.capture s c f) := hσ.step (State.capture_within s c f) hN

theorem State.enterOrdered_within (s : State) (q : Nat) (g : Group) :
    Only 0x4000400000004c000000000000000000000000000000000000000000000001000 s (State.enterOrdered s q g) := by
  unfold State.enterOrdered
  repeat' first
    | with_reducible exact Only.refl _ _
    | with_reducible refine Only.ite (fun _ => ?_) (fun _ => ?_)
    | with_reducible refine Only.foldl ?_ (fun _ _ => ?_)
    | with_reducible refine State.firstFail_only _ _ ?_ (by decide)
    | with_reducible refine State.closeSummaries_only _ ?_ (by decide)
    | with_reducible refine State.enterLog_only _ _ ?_ (by decide)
    | with_reducible refine State.setLogX_only _ _ ?_ (by decide)

theorem State.enterOrdered_only {N : Nat} {σ s : State} (q : Nat) (g : Group) (hσ : Only N σ s)
    (hN : 0x4000400000004c000000000000000000000000000000000000000000000001000 ||| N = N) : Only N σ (State.enterOrdered s q g) := hσ.step (State.enterOrdered_within s q g) hN

theorem State.flushLog_within (s : State) (q : Nat) :
    Only 0x4000400000024c000000000000000000000000000000000000000000000001000 s (State.flushLog s q) := by
  unfold State.flushLog
  repeat' first
    | with_reducible exact Only.refl _ _
    | with_reducible refine Only.ite (fun _ => ?_) (fun _ => ?_)
    | with_reducible refine Only.foldl ?_ (fun _ _ => ?_)
    | with_reducible refine State.enterOrdered_only _ _ ?_ (by decide)
    | with_reducible refine State.addStep_only _ _ _ ?_ (by decide)
    | with_reducible refine State.closeBlock_only _ ?_ (by decide)
    | with_reducible refine State.closeSummaries_only _ ?_ (by decide)
    | with_reducible refine State.setLogX_only _ _ ?_ (by decide)
    | split
    | extract_lets

theorem State.flushLog_only {N : Nat} {σ s : State} (q : Nat) (hσ : Only N σ s)
    (hN : 0x4000400000024c000000000000000000000000000000000000000000000001000 ||| N = N) : Only N σ (State.flushLog s q) := hσ.step (State.flushLog_within s q) hN

theorem State.group_within (s : State) (c : Nat) (f : Flight) :
    Only 0x40000000000000000000000000000000000000000000000000000000000000000 s (State.group s c f) := by
  unfold State.group
  repeat' first
    | with_reducible exact Only.refl _ _
    | with_reducible refine Only.ite (fun _ => ?_) (fun _ => ?_)
    | with_reducible refine Only.foldl ?_ (fun _ _ => ?_)
    | with_reducible refine OnlyOut.next ?_
    | with_reducible refine OnlyOut.ite (fun _ => ?_) (fun _ => ?_)
    | with_reducible refine State.setLogX_only _ _ ?_ (by decide)

theorem State.group_only {N : Nat} {σ s : State} (c : Nat) (f : Flight) (hσ : Only N σ s)
    (hN : 0x40000000000000000000000000000000000000000000000000000000000000000 ||| N = N) : Only N σ (State.group s c f) := hσ.step (State.group_within s c f) hN

theorem State.siteFail_within (s : State) (q : Nat) (k : Nat) (site : Nat) (v : VecInfo) :
    Only 0x40000000000000800000000000000000000000000000000000000000000000000 s (State.siteFail s q k site v) := by
  unfold State.siteFail
  repeat' first
    | with_reducible exact Only.refl _ _
    | with_reducible refine Only.ite (fun _ => ?_) (fun _ => ?_)
    | with_reducible refine Only.foldl ?_ (fun _ _ => ?_)
    | with_reducible refine State.setLogX_only _ _ ?_ (by decide)
    | with_reducible refine State.set_only _ _ _ _ ?_ (by decide)
    | with_reducible refine State.setBit_only _ _ _ _ ?_ (by decide)

theorem State.siteFail_only {N : Nat} {σ s : State} (q : Nat) (k : Nat) (site : Nat) (v : VecInfo) (hσ : Only N σ s)
    (hN : 0x40000000000000800000000000000000000000000000000000000000000000000 ||| N = N) : Only N σ (State.siteFail s q k site v) := hσ.step (State.siteFail_within s q k site v) hN

theorem State.failGf_within (s : State) (f : Flight) :
    Only 0x4000000000000000000000000000000000000000000000000000000000000000 s (State.failGf s f) := by
  unfold State.failGf
  repeat' first
    | with_reducible exact Only.refl _ _
    | with_reducible refine Only.ite (fun _ => ?_) (fun _ => ?_)
    | with_reducible refine Only.foldl ?_ (fun _ _ => ?_)
    | with_reducible refine State.defer_only _ _ _ ?_ (by decide)

theorem State.failGf_only {N : Nat} {σ s : State} (f : Flight) (hσ : Only N σ s)
    (hN : 0x4000000000000000000000000000000000000000000000000000000000000000 ||| N = N) : Only N σ (State.failGf s f) := hσ.step (State.failGf_within s f) hN

theorem State.siteStopOnFail_within (s : State) (k : Nat) (f : Flight) :
    Only 0x400000004000000000000000000000000000000000000000000000000000000000 s (State.siteStopOnFail s k f) := by
  unfold State.siteStopOnFail
  repeat' first
    | with_reducible exact Only.refl _ _
    | with_reducible refine Only.ite (fun _ => ?_) (fun _ => ?_)
    | with_reducible refine Only.foldl ?_ (fun _ _ => ?_)
    | with_reducible refine State.modSiteRun_only _ _ ?_ (by decide)
    | with_reducible refine State.set_only _ _ _ _ ?_ (by decide)

theorem State.siteStopOnFail_only {N : Nat} {σ s : State} (k : Nat) (f : Flight) (hσ : Only N σ s)
    (hN : 0x400000004000000000000000000000000000000000000000000000000000000000 ||| N = N) : Only N σ (State.siteStopOnFail s k f) := hσ.step (State.siteStopOnFail_within s k f) hN

theorem State.runFails_within (s : State) (f : Flight) :
    Only 0x400000000000000000000000000000000000000000000000000000000000000000 s (State.runFails s f) := by
  unfold State.runFails
  repeat' first
    | with_reducible exact Only.refl _ _
    | with_reducible refine Only.ite (fun _ => ?_) (fun _ => ?_)
    | with_reducible refine Only.foldl ?_ (fun _ _ => ?_)
    | fail_if_no_progress with_reducible refine Only.fields ?_ rfl rfl

theorem State.runFails_only {N : Nat} {σ s : State} (f : Flight) (hσ : Only N σ s)
    (hN : 0x400000000000000000000000000000000000000000000000000000000000000000 ||| N = N) : Only N σ (State.runFails s f) := hσ.step (State.runFails_within s f) hN

theorem State.failEffects_within (s : State) (c : Nat) (f : Flight) :
    Only 0x4444004004000000800000000000000000040000000000000000000000000001000 s (State.failEffects s c f) := by
  unfold State.failEffects
  repeat' first
    | with_reducible exact Only.refl _ _
    | with_reducible refine Only.ite (fun _ => ?_) (fun _ => ?_)
    | with_reducible refine Only.foldl ?_ (fun _ _ => ?_)
    | with_reducible refine State.runFails_only _ ?_ (by decide)
    | with_reducible refine State.siteStopOnFail_only _ _ ?_ (by decide)
    | with_reducible refine State.failGf_only _ ?_ (by decide)
    | with_reducible refine State.siteFail_only _ _ _ _ ?_ (by decide)
    | with_reducible refine State.acqFail_only _ _ ?_ (by decide)
    | with_reducible refine State.setSeqX_only _ _ ?_ (by decide)
    | with_reducible refine State.count_only _ _ _ _ _ ?_ (by decide)

theorem State.failEffects_only {N : Nat} {σ s : State} (c : Nat) (f : Flight) (hσ : Only N σ s)
    (hN : 0x4444004004000000800000000000000000040000000000000000000000000001000 ||| N = N) : Only N σ (State.failEffects s c f) := hσ.step (State.failEffects_within s c f) hN

theorem State.judgeLate_within (s : State) (q : Nat) :
    Only 0x4000000000000000000000000000000000000000000000000000000000000000 s (State.judgeLate s q) := by
  unfold State.judgeLate
  repeat' first
    | with_reducible exact Only.refl _ _
    | with_reducible refine Only.ite (fun _ => ?_) (fun _ => ?_)
    | with_reducible refine Only.foldl ?_ (fun _ _ => ?_)
    | with_reducible refine State.defer_only _ _ _ ?_ (by decide)
    | with_reducible refine State.setSeqX_only _ _ ?_ (by decide)

theorem State.judgeLate_only {N : Nat} {σ s : State} (q : Nat) (hσ : Only N σ s)
    (hN : 0x4000000000000000000000000000000000000000000000000000000000000000 ||| N = N) : Only N σ (State.judgeLate s q) := hσ.step (State.judgeLate_within s q) hN

theorem State.passOutcome_within (s : State) (f : Flight) :
    Only 0x4000000000000000000000000000000000000000000000000000000000000000 s (State.passOutcome s f) := by
  unfold State.passOutcome
  repeat' first
    | with_reducible exact Only.refl _ _
    | with_reducible refine Only.ite (fun _ => ?_) (fun _ => ?_)
    | with_reducible refine Only.foldl ?_ (fun _ _ => ?_)
    | with_reducible refine OnlyOut.next ?_
    | with_reducible refine OnlyOut.ite (fun _ => ?_) (fun _ => ?_)
    | with_reducible refine State.modPass_only _ _ _ _ ?_ (by decide)
    | split

theorem State.passOutcome_only {N : Nat} {σ s : State} (f : Flight) (hσ : Only N σ s)
    (hN : 0x4000000000000000000000000000000000000000000000000000000000000000 ||| N = N) : Only N σ (State.passOutcome s f) := hσ.step (State.passOutcome_within s f) hN

theorem State.compared_within (s : State) (q : Nat) :
    Only 0x4400400000024c000000000000000000000000000000000000000000000001000 s (State.compared s q) := by
  unfold State.compared
  repeat' first
    | with_reducible exact Only.refl _ _
    | with_reducible refine Only.ite (fun _ => ?_) (fun _ => ?_)
    | with_reducible refine Only.foldl ?_ (fun _ _ => ?_)
    | with_reducible refine State.judgeLate_only _ ?_ (by decide)
    | with_reducible refine State.flushLog_only _ ?_ (by decide)

theorem State.compared_only {N : Nat} {σ s : State} (q : Nat) (hσ : Only N σ s)
    (hN : 0x4400400000024c000000000000000000000000000000000000000000000001000 ||| N = N) : Only N σ (State.compared s q) := hσ.step (State.compared_within s q) hN

theorem State.deliver_within (s : State) (c : Nat) (f : Flight) :
    Only 0x444400400400024c800000000000000000040000000000000000000000000001000 s (State.deliver s c f) := by
  unfold State.deliver
  repeat' first
    | with_reducible exact Only.refl _ _
    | with_reducible refine Only.ite (fun _ => ?_) (fun _ => ?_)
    | with_reducible refine Only.foldl ?_ (fun _ _ => ?_)
    | with_reducible refine OnlyOut.next ?_
    | with_reducible refine OnlyOut.ite (fun _ => ?_) (fun _ => ?_)
    | with_reducible refine State.compared_only _ ?_ (by decide)
    | with_reducible refine State.passOutcome_only _ ?_ (by decide)
    | with_reducible refine State.failEffects_only _ _ ?_ (by decide)
    | with_reducible refine State.group_only _ _ ?_ (by decide)
    | with_reducible refine State.capture_only _ _ ?_ (by decide)

theorem State.deliver_only {N : Nat} {σ s : State} (c : Nat) (f : Flight) (hσ : Only N σ s)
    (hN : 0x444400400400024c800000000000000000040000000000000000000000000001000 ||| N = N) : Only N σ (State.deliver s c f) := hσ.step (State.deliver_within s c f) hN

end Sys2Proof.Machine
end

