-- ==== Sys2Proof/Laws/Frame/OpsPage.lean ====
section
/-!
SUPPORT. OpsPage.lean: what each operation of Machine/OpsPage.lean can change (see Only).
-/
namespace Sys2Proof.Machine
set_option Elab.async false

theorem State.setEntry_within (s : State) (g : Nat) (e : PgEntry) :
    Only 0x800000000000000000000000000000000000000000000000000000000000000000 s (State.setEntry s g e) := by
  unfold State.setEntry
  repeat' first
    | with_reducible exact Only.refl _ _
    | with_reducible refine Only.ite (fun _ => ?_) (fun _ => ?_)
    | with_reducible refine Only.foldl ?_ (fun _ _ => ?_)
    | fail_if_no_progress with_reducible refine Only.fields ?_ rfl rfl

theorem State.setEntry_only {N : Nat} {σ s : State} (g : Nat) (e : PgEntry) (hσ : Only N σ s)
    (hN : 0x800000000000000000000000000000000000000000000000000000000000000000 ||| N = N) : Only N σ (State.setEntry s g e) := hσ.step (State.setEntry_within s g e) hN

theorem State.request_within (s : State) (r : PgReq) :
    Only 0x800000000000000000000000000000000000000000000000000000000000000000 s (State.request s r) := by
  unfold State.request
  repeat' first
    | with_reducible exact Only.refl _ _
    | with_reducible refine Only.ite (fun _ => ?_) (fun _ => ?_)
    | with_reducible refine Only.foldl ?_ (fun _ _ => ?_)
    | fail_if_no_progress with_reducible refine Only.fields ?_ rfl rfl

theorem State.request_only {N : Nat} {σ s : State} (r : PgReq) (hσ : Only N σ s)
    (hN : 0x800000000000000000000000000000000000000000000000000000000000000000 ||| N = N) : Only N σ (State.request s r) := hσ.step (State.request_within s r) hN

theorem State.selfRequest_within (s : State) (g : Nat) :
    Only 0x800000000000000000000000000000000000000000000000000000000000000000 s (State.selfRequest s g) := by
  unfold State.selfRequest
  repeat' first
    | with_reducible exact Only.refl _ _
    | with_reducible refine Only.ite (fun _ => ?_) (fun _ => ?_)
    | with_reducible refine Only.foldl ?_ (fun _ _ => ?_)
    | with_reducible refine State.request_only _ ?_ (by decide)

theorem State.selfRequest_only {N : Nat} {σ s : State} (g : Nat) (hσ : Only N σ s)
    (hN : 0x800000000000000000000000000000000000000000000000000000000000000000 ||| N = N) : Only N σ (State.selfRequest s g) := hσ.step (State.selfRequest_within s g) hN

theorem State.dropLines_within (s : State) (g : Nat) :
    Only 0x4000000000000000000000000000000000000000000000000000000000000000 s (State.dropLines s g) := by
  unfold State.dropLines
  repeat' first
    | with_reducible exact Only.refl _ _
    | with_reducible refine Only.ite (fun _ => ?_) (fun _ => ?_)
    | with_reducible refine Only.foldl ?_ (fun _ _ => ?_)
    | with_reducible refine State.setSeqX_only _ _ ?_ (by decide)

theorem State.dropLines_only {N : Nat} {σ s : State} (g : Nat) (hσ : Only N σ s)
    (hN : 0x4000000000000000000000000000000000000000000000000000000000000000 ||| N = N) : Only N σ (State.dropLines s g) := hσ.step (State.dropLines_within s g) hN

theorem State.completePush_within (s : State) (tok : Token) (g : Nat) (st : Nat) :
    Only 0x844000000000000000000000000000000000000000000000000000000145000 s (State.completePush s tok g st) := by
  unfold State.completePush
  repeat' first
    | with_reducible exact Only.refl _ _
    | with_reducible refine Only.ite (fun _ => ?_) (fun _ => ?_)
    | with_reducible refine Only.foldl ?_ (fun _ _ => ?_)
    | with_reducible refine State.complete_only _ _ _ _ _ ?_ (by decide)
    | split

theorem State.completePush_only {N : Nat} {σ s : State} (tok : Token) (g : Nat) (st : Nat) (hσ : Only N σ s)
    (hN : 0x844000000000000000000000000000000000000000000000000000000145000 ||| N = N) : Only N σ (State.completePush s tok g st) := hσ.step (State.completePush_within s tok g st) hN

theorem State.dropPushes_within (s : State) (g : Nat) :
    Only 0x800844000000000000000000000000000000000000000000000000000000145000 s (State.dropPushes s g) := by
  unfold State.dropPushes
  repeat' first
    | with_reducible exact Only.refl _ _
    | with_reducible refine Only.ite (fun _ => ?_) (fun _ => ?_)
    | with_reducible refine Only.foldl ?_ (fun _ _ => ?_)
    | fail_if_no_progress with_reducible refine Only.fields ?_ rfl rfl
    | with_reducible refine State.completePush_only _ _ _ ?_ (by decide)

theorem State.dropPushes_only {N : Nat} {σ s : State} (g : Nat) (hσ : Only N σ s)
    (hN : 0x800844000000000000000000000000000000000000000000000000000000145000 ||| N = N) : Only N σ (State.dropPushes s g) := hσ.step (State.dropPushes_within s g) hN

theorem State.flagsWrite_within (s : State) (g : Nat) (w0 : Nat) :
    Only 0x800000000000000000000000000000000000000000000000000000000000000000 s (State.flagsWrite s g w0) := by
  unfold State.flagsWrite
  repeat' first
    | with_reducible exact Only.refl _ _
    | with_reducible refine Only.ite (fun _ => ?_) (fun _ => ?_)
    | with_reducible refine Only.foldl ?_ (fun _ _ => ?_)
    | with_reducible refine State.selfRequest_only _ ?_ (by decide)
    | with_reducible refine State.setEntry_only _ _ ?_ (by decide)

theorem State.flagsWrite_only {N : Nat} {σ s : State} (g : Nat) (w0 : Nat) (hσ : Only N σ s)
    (hN : 0x800000000000000000000000000000000000000000000000000000000000000000 ||| N = N) : Only N σ (State.flagsWrite s g w0) := hσ.step (State.flagsWrite_within s g w0) hN

theorem State.fullWrite_within (s : State) (g : Nat) (w0 : Nat) (w1 : Nat) :
    Only 0x804844000000000000000000000000000000000000000000000000000000145000 s (State.fullWrite s g w0 w1).2 := by
  unfold State.fullWrite
  repeat' first
    | with_reducible exact Only.refl _ _
    | with_reducible refine Only.ite (fun _ => ?_) (fun _ => ?_)
    | with_reducible refine Only.foldl ?_ (fun _ _ => ?_)
    | fail_if_no_progress with_reducible refine Only.fields ?_ rfl rfl
    | with_reducible refine State.dropPushes_only _ ?_ (by decide)
    | with_reducible refine State.dropLines_only _ ?_ (by decide)
    | with_reducible refine State.selfRequest_only _ ?_ (by decide)
    | with_reducible refine State.setEntry_only _ _ ?_ (by decide)
    | split
    | extract_lets

theorem State.fullWrite_only {N : Nat} {σ s : State} (g : Nat) (w0 : Nat) (w1 : Nat) (hσ : Only N σ s)
    (hN : 0x804844000000000000000000000000000000000000000000000000000000145000 ||| N = N) : Only N σ (State.fullWrite s g w0 w1).2 := hσ.step (State.fullWrite_within s g w0 w1) hN

theorem State.fullWrite_only_eq {N : Nat} {σ s t : State} {g : Nat} {w0 : Nat} {w1 : Nat} {v : PgWrite} (heq : State.fullWrite s g w0 w1 = (v, t)) (hσ : Only N σ s)
    (hN : 0x804844000000000000000000000000000000000000000000000000000000145000 ||| N = N) : Only N σ t := hσ.step (Only.snd heq (State.fullWrite_within s g w0 w1)) hN

theorem State.writeEntry_within (s : State) (g : Nat) (w0 : Nat) (w1 : Nat) :
    Only 0x804844000000000000000000000000000000000000000000000000000000145000 s (State.writeEntry s g w0 w1).2 := by
  unfold State.writeEntry
  repeat' first
    | with_reducible exact Only.refl _ _
    | with_reducible refine Only.ite (fun _ => ?_) (fun _ => ?_)
    | with_reducible refine Only.foldl ?_ (fun _ _ => ?_)
    | with_reducible refine State.fullWrite_only _ _ _ ?_ (by decide)
    | with_reducible refine State.fullWrite_only_eq (by assumption) ?_ (by decide)
    | with_reducible refine State.flagsWrite_only _ _ ?_ (by decide)
    | split
    | extract_lets

theorem State.writeEntry_only {N : Nat} {σ s : State} (g : Nat) (w0 : Nat) (w1 : Nat) (hσ : Only N σ s)
    (hN : 0x804844000000000000000000000000000000000000000000000000000000145000 ||| N = N) : Only N σ (State.writeEntry s g w0 w1).2 := hσ.step (State.writeEntry_within s g w0 w1) hN

theorem State.writeEntry_only_eq {N : Nat} {σ s t : State} {g : Nat} {w0 : Nat} {w1 : Nat} {v : PgWrite} (heq : State.writeEntry s g w0 w1 = (v, t)) (hσ : Only N σ s)
    (hN : 0x804844000000000000000000000000000000000000000000000000000000145000 ||| N = N) : Only N σ t := hσ.step (Only.snd heq (State.writeEntry_within s g w0 w1)) hN

theorem State.windowWrite_within (s : State) (g : Nat) (w0 : Nat) (w1 : Nat) :
    Only 0x804844000000000000000000000000000000000000000200000000000000145000 s (State.windowWrite s g w0 w1).2 := by
  unfold State.windowWrite
  repeat' first
    | with_reducible exact Only.refl _ _
    | with_reducible refine Only.ite (fun _ => ?_) (fun _ => ?_)
    | with_reducible refine Only.foldl ?_ (fun _ _ => ?_)
    | with_reducible refine State.writeEntry_only _ _ _ ?_ (by decide)
    | with_reducible refine State.writeEntry_only_eq (by assumption) ?_ (by decide)
    | with_reducible refine State.set_only _ _ _ _ ?_ (by decide)
    | with_reducible refine State.hwSet_only _ _ _ ?_ (by decide)
    | split

theorem State.windowWrite_only {N : Nat} {σ s : State} (g : Nat) (w0 : Nat) (w1 : Nat) (hσ : Only N σ s)
    (hN : 0x804844000000000000000000000000000000000000000200000000000000145000 ||| N = N) : Only N σ (State.windowWrite s g w0 w1).2 := hσ.step (State.windowWrite_within s g w0 w1) hN

theorem State.windowWrite_only_eq {N : Nat} {σ s t : State} {g : Nat} {w0 : Nat} {w1 : Nat} {v : PgWrite} (heq : State.windowWrite s g w0 w1 = (v, t)) (hσ : Only N σ s)
    (hN : 0x804844000000000000000000000000000000000000000200000000000000145000 ||| N = N) : Only N σ t := hσ.step (Only.snd heq (State.windowWrite_within s g w0 w1)) hN

theorem State.pushPage_within (s : State) (tok : Token) (g : Nat) (w0 : Nat) (w1 : Nat) :
    Only 0x804844000000000000000000000000000000000000000000000000000000145000 s (State.pushPage s tok g w0 w1) := by
  unfold State.pushPage
  repeat' first
    | with_reducible exact Only.refl _ _
    | with_reducible refine Only.ite (fun _ => ?_) (fun _ => ?_)
    | with_reducible refine Only.foldl ?_ (fun _ _ => ?_)
    | fail_if_no_progress with_reducible refine Only.fields ?_ rfl rfl
    | with_reducible refine State.fullWrite_only _ _ _ ?_ (by decide)
    | with_reducible refine State.fullWrite_only_eq (by assumption) ?_ (by decide)
    | with_reducible refine State.flagsWrite_only _ _ ?_ (by decide)
    | with_reducible refine State.completePush_only _ _ _ ?_ (by decide)
    | with_reducible refine State.request_only _ ?_ (by decide)
    | split

theorem State.pushPage_only {N : Nat} {σ s : State} (tok : Token) (g : Nat) (w0 : Nat) (w1 : Nat) (hσ : Only N σ s)
    (hN : 0x804844000000000000000000000000000000000000000000000000000000145000 ||| N = N) : Only N σ (State.pushPage s tok g w0 w1) := hσ.step (State.pushPage_within s tok g w0 w1) hN

theorem State.takeFrame_only {N : Nat} {s0 s t : State} {f : Nat} (h : s.takeFrame = some (f, t)) (g : Only N s0 s)
    (hN : 0x800004000000000000000000000000000000000000000800000000000000001000 ||| N = N) : Only N s0 t := by
  unfold State.takeFrame at h
  split at h
  · cases h
    exact g
  · split at h
    · cases h
      exact State.selfRequest_only _ (State.count_only _ _ _ _ _ (State.setEntry_only _ _ g (sub_of (by decide) hN))
        (sub_of (by decide) hN)) (sub_of (by decide) hN)
    · cases h

theorem State.readPage_within (s : State) (g : Nat) :
    Only 0x40000000000000000000000000000000000000000000000000000000000000 s (State.readPage s g) := by
  unfold State.readPage
  repeat' first
    | with_reducible exact Only.refl _ _
    | with_reducible refine Only.ite (fun _ => ?_) (fun _ => ?_)
    | with_reducible refine Only.foldl ?_ (fun _ _ => ?_)
    | with_reducible refine State.emit_only _ ?_ (by decide)

theorem State.readPage_only {N : Nat} {σ s : State} (g : Nat) (hσ : Only N σ s)
    (hN : 0x40000000000000000000000000000000000000000000000000000000000000 ||| N = N) : Only N σ (State.readPage s g) := hσ.step (State.readPage_within s g) hN

theorem State.startLoad_within (s : State) (r : PgReq) :
    Only 0x800044000000000000000000000000000000000000000880000000000000001000 s (State.startLoad s r) := by
  unfold State.startLoad
  repeat' first
    | with_reducible exact Only.refl _ _
    | with_reducible refine Only.ite (fun _ => ?_) (fun _ => ?_)
    | with_reducible refine Only.foldl ?_ (fun _ _ => ?_)
    | fail_if_no_progress with_reducible refine Only.fields ?_ rfl rfl
    | with_reducible refine State.readPage_only _ ?_ (by decide)
    | with_reducible refine State.takeFrame_only (by assumption) ?_ (by decide)
    | with_reducible refine State.setEntry_only _ _ ?_ (by decide)
    | with_reducible refine State.hwSet_only _ _ _ ?_ (by decide)
    | split

theorem State.startLoad_only {N : Nat} {σ s : State} (r : PgReq) (hσ : Only N σ s)
    (hN : 0x800044000000000000000000000000000000000000000880000000000000001000 ||| N = N) : Only N σ (State.startLoad s r) := hσ.step (State.startLoad_within s r) hN

theorem State.endLoad_within (s : State) (g : Nat) (st : Nat) :
    Only 0x800844000000000000000000000000000000000000000000000000000000145000 s (State.endLoad s g st) := by
  unfold State.endLoad
  repeat' first
    | with_reducible exact Only.refl _ _
    | with_reducible refine Only.ite (fun _ => ?_) (fun _ => ?_)
    | with_reducible refine Only.foldl ?_ (fun _ _ => ?_)
    | fail_if_no_progress with_reducible refine Only.fields ?_ rfl rfl
    | with_reducible refine State.completePush_only _ _ _ ?_ (by decide)

theorem State.endLoad_only {N : Nat} {σ s : State} (g : Nat) (st : Nat) (hσ : Only N σ s)
    (hN : 0x800844000000000000000000000000000000000000000000000000000000145000 ||| N = N) : Only N σ (State.endLoad s g st) := hσ.step (State.endLoad_within s g st) hN

theorem State.fillFrame_only {N : Nat} {σ s : State} (f : Nat) (data : List Nat) (h : Only N σ s) (hN : 0x200944000000000000000000000000000000000000000000002000000000145000 ||| N = N) :
    Only N σ (s.fillFrame f data) := by
  unfold State.fillFrame
  refine State.putBytes_only _ _ (State.portRequest_only ?_ (sub_of (by decide) hN)) (sub_of (by decide) hN)
  exact h.fillCells _ _ (sub_of (by decide) hN)

theorem State.loaded_within (s : State) (g : Nat) (data : List Nat) :
    Only 0xa00944000000000000000000000000000000000000000800002000000000145000 s (State.loaded s g data) := by
  unfold State.loaded
  repeat' first
    | with_reducible exact Only.refl _ _
    | with_reducible refine Only.ite (fun _ => ?_) (fun _ => ?_)
    | with_reducible refine Only.foldl ?_ (fun _ _ => ?_)
    | with_reducible refine State.fillFrame_only _ _ ?_ (by decide)
    | with_reducible refine State.endLoad_only _ _ ?_ (by decide)
    | with_reducible refine State.setEntry_only _ _ ?_ (by decide)
    | with_reducible refine State.count_only _ _ _ _ _ ?_ (by decide)

theorem State.loaded_only {N : Nat} {σ s : State} (g : Nat) (data : List Nat) (hσ : Only N σ s)
    (hN : 0xa00944000000000000000000000000000000000000000800002000000000145000 ||| N = N) : Only N σ (State.loaded s g data) := hσ.step (State.loaded_within s g data) hN

theorem State.loadFailed_within (s : State) (g : Nat) (cause : Nat) :
    Only 0x800844000000000000000000000000000000000000001000000000000000145000 s (State.loadFailed s g cause) := by
  unfold State.loadFailed
  repeat' first
    | with_reducible exact Only.refl _ _
    | with_reducible refine Only.ite (fun _ => ?_) (fun _ => ?_)
    | with_reducible refine Only.foldl ?_ (fun _ _ => ?_)
    | fail_if_no_progress with_reducible refine Only.fields ?_ rfl rfl
    | with_reducible refine State.endLoad_only _ _ ?_ (by decide)
    | with_reducible refine State.readPage_only _ ?_ (by decide)
    | with_reducible refine State.setEntry_only _ _ ?_ (by decide)
    | with_reducible refine State.post_only _ _ _ ?_ (by decide)
    | with_reducible refine State.count_only _ _ _ _ _ ?_ (by decide)
    | split
    | extract_lets

theorem State.loadFailed_only {N : Nat} {σ s : State} (g : Nat) (cause : Nat) (hσ : Only N σ s)
    (hN : 0x800844000000000000000000000000000000000000001000000000000000145000 ||| N = N) : Only N σ (State.loadFailed s g cause) := hσ.step (State.loadFailed_within s g cause) hN

theorem State.touchPage_within (s : State) (q : Nat) (g : Nat) :
    Only 0x804000000000000000000000000000000000000000000000000000000000000000 s (State.touchPage s q g) := by
  unfold State.touchPage
  repeat' first
    | with_reducible exact Only.refl _ _
    | with_reducible refine Only.ite (fun _ => ?_) (fun _ => ?_)
    | with_reducible refine Only.foldl ?_ (fun _ _ => ?_)
    | fail_if_no_progress with_reducible refine Only.fields ?_ rfl rfl
    | with_reducible refine State.setSeqX_only _ _ ?_ (by decide)

theorem State.touchPage_only {N : Nat} {σ s : State} (q : Nat) (g : Nat) (hσ : Only N σ s)
    (hN : 0x804000000000000000000000000000000000000000000000000000000000000000 ||| N = N) : Only N σ (State.touchPage s q g) := hσ.step (State.touchPage_within s q g) hN

theorem State.fetchRecord_only {N : Nat} {s0 s t : State} {q a n : Nat} {st b : Bool} {w : List Nat}
    (h : s.fetchRecord q a n st = some (w, b, t)) (g : Only N s0 s) (hN : 0xa04844000020000000000000000000000000000000000030002000000000145000 ||| N = N) : Only N s0 t := by
  unfold State.fetchRecord at h
  extract_lets x at h
  split at h
  · simp only [Option.some.injEq, Prod.mk.injEq] at h
    obtain ⟨-, -, rfl⟩ := h
    exact State.count_only _ _ _ _ _ (State.setSeqX_only _ _ g (sub_of (by decide) hN)) (sub_of (by decide) hN)
  · split at h
    · split at h
      next hd =>
      extract_lets u y lines at h
      simp only [Option.some.injEq, Prod.mk.injEq] at h
      obtain ⟨-, -, rfl⟩ := h
      exact State.setSeqX_only _ _ (State.touchPage_only _ _ (State.dramRead_only_eq hd g (sub_of (by decide) hN))
        (sub_of (by decide) hN)) (sub_of (by decide) hN)
    · cases h

theorem State.sidePath_within (s : State) (q n k : Nat) (f : FillX) (bytes : Nat) :
    Only 0xa04844000020000000000000000000000000000000000030002000000000145000 s (s.sidePath q n k f bytes).2 := by
  induction k generalizing s f bytes with
  | zero => exact .refl ..
  | succ k ih =>
    unfold State.sidePath
    split
    · exact .refl ..
    · split
      · exact .refl ..
      · split
        · exact .refl ..
        · next h => exact State.fetchRecord_only h (.refl ..) (by decide)
        · next h => exact (State.fetchRecord_only h (.refl ..) (by decide)).step (ih ..) (Nat.or_self _)

theorem State.sidePath_only {N : Nat} {σ s : State} (q n k : Nat) (f : FillX) (bytes : Nat) (hσ : Only N σ s)
    (hN : 0xa04844000020000000000000000000000000000000000030002000000000145000 ||| N = N) : Only N σ (s.sidePath q n k f bytes).2 := hσ.step (State.sidePath_within ..) hN

theorem State.sidePath_only_eq {N : Nat} {σ s t : State} {q n k : Nat} {f : FillX} {bytes : Nat} {v : List Fetched}
    (heq : s.sidePath q n k f bytes = (v, t)) (hσ : Only N σ s) (hN : 0xa04844000020000000000000000000000000000000000030002000000000145000 ||| N = N) : Only N σ t :=
  hσ.step (Only.snd heq (State.sidePath_within ..)) hN

theorem State.addSide_within (s : State) (q : Nat) (a : Nat) (words : List Nat) :
    Only 0xa04844000020000000000000000000000000000000000030002000000000145000 s (State.addSide s q a words) := by
  unfold State.addSide
  repeat' first
    | with_reducible exact Only.refl _ _
    | with_reducible refine Only.ite (fun _ => ?_) (fun _ => ?_)
    | with_reducible refine Only.foldl ?_ (fun _ _ => ?_)
    | with_reducible refine State.sidePath_only _ _ _ _ _ ?_ (by decide)
    | with_reducible refine State.sidePath_only_eq (by assumption) ?_ (by decide)
    | with_reducible refine State.setSeqX_only _ _ ?_ (by decide)
    | split

theorem State.addSide_only {N : Nat} {σ s : State} (q : Nat) (a : Nat) (words : List Nat) (hσ : Only N σ s)
    (hN : 0xa04844000020000000000000000000000000000000000030002000000000145000 ||| N = N) : Only N σ (State.addSide s q a words) := hσ.step (State.addSide_within s q a words) hN

theorem State.buffer_within (s : State) (q : Nat) (a : Nat) (words : List Nat) :
    Only 0xa04844000020000000000000000000000000000000000030002000000000145000 s (State.buffer s q a words) := by
  unfold State.buffer
  repeat' first
    | with_reducible exact Only.refl _ _
    | with_reducible refine Only.ite (fun _ => ?_) (fun _ => ?_)
    | with_reducible refine Only.foldl ?_ (fun _ _ => ?_)
    | with_reducible refine State.addSide_only _ _ _ ?_ (by decide)
    | with_reducible refine State.setSeqX_only _ _ ?_ (by decide)

theorem State.buffer_only {N : Nat} {σ s : State} (q : Nat) (a : Nat) (words : List Nat) (hσ : Only N σ s)
    (hN : 0xa04844000020000000000000000000000000000000000030002000000000145000 ||| N = N) : Only N σ (State.buffer s q a words) := hσ.step (State.buffer_within s q a words) hN

theorem State.fillStep_within (s : State) (q : Nat) :
    Only 0xa04844000020000000000000000000000000000000000030002000000000145000 s (State.fillStep s q) := by
  unfold State.fillStep
  repeat' first
    | with_reducible exact Only.refl _ _
    | with_reducible refine Only.ite (fun _ => ?_) (fun _ => ?_)
    | with_reducible refine Only.foldl ?_ (fun _ _ => ?_)
    | with_reducible refine State.buffer_only _ _ _ ?_ (by decide)
    | with_reducible refine State.fetchRecord_only (by assumption) ?_ (by decide)
    | with_reducible refine State.request_only _ ?_ (by decide)
    | with_reducible refine State.setSeqX_only _ _ ?_ (by decide)
    | split
    | extract_lets

theorem State.fillStep_only {N : Nat} {σ s : State} (q : Nat) (hσ : Only N σ s)
    (hN : 0xa04844000020000000000000000000000000000000000030002000000000145000 ||| N = N) : Only N σ (State.fillStep s q) := hσ.step (State.fillStep_within s q) hN

theorem State.resteer_within (s : State) (q : Nat) (a : Nat) :
    Only 0x804000000000000000000000000000000000000000000000000000000000000000 s (State.resteer s q a) := by
  unfold State.resteer
  repeat' first
    | with_reducible exact Only.refl _ _
    | with_reducible refine Only.ite (fun _ => ?_) (fun _ => ?_)
    | with_reducible refine Only.foldl ?_ (fun _ _ => ?_)
    | fail_if_no_progress with_reducible refine Only.fields ?_ rfl rfl
    | with_reducible refine State.setSeqX_only _ _ ?_ (by decide)

theorem State.resteer_only {N : Nat} {σ s : State} (q : Nat) (a : Nat) (hσ : Only N σ s)
    (hN : 0x804000000000000000000000000000000000000000000000000000000000000000 ||| N = N) : Only N σ (State.resteer s q a) := hσ.step (State.resteer_within s q a) hN

theorem State.dropPath_within (s : State) (q : Nat) :
    Only 0x804000000000000000000000000000000000000000000000000000000000000000 s (State.dropPath s q) := by
  unfold State.dropPath
  repeat' first
    | with_reducible exact Only.refl _ _
    | with_reducible refine Only.ite (fun _ => ?_) (fun _ => ?_)
    | with_reducible refine Only.foldl ?_ (fun _ _ => ?_)
    | with_reducible refine State.resteer_only _ _ ?_ (by decide)
    | with_reducible refine State.setSeqX_only _ _ ?_ (by decide)

theorem State.dropPath_only {N : Nat} {σ s : State} (q : Nat) (hσ : Only N σ s)
    (hN : 0x804000000000000000000000000000000000000000000000000000000000000000 ||| N = N) : Only N σ (State.dropPath s q) := hσ.step (State.dropPath_within s q) hN

theorem State.takeRecord_other_only {N : Nat} {s0 s t : State} {q a n : Nat} {x : SeqX} {w : List Nat}
    (h : State.takeRecord.other s q a n x = some (w, t)) (g : Only N s0 s) (hN : 0x804004000020000000000000000000000000000000000000000000000000001000 ||| N = N) : Only N s0 t := by
  unfold State.takeRecord.other at h
  split at h
  · cases h
    exact State.setSeqX_only _ _ (State.resteer_only _ _ g (sub_of (by decide) hN)) (sub_of (by decide) hN)
  · split at h
    · cases h
      exact State.setSeqX_only _ _ (State.count_only _ _ _ _ _
        (.ite (fun _ => g) (fun _ => State.resteer_only _ _ g (sub_of (by decide) hN)))
        (sub_of (by decide) hN)) (sub_of (by decide) hN)
    · cases h

theorem State.takeRecord_only {N : Nat} {s0 s t : State} {q a n : Nat} {w : List Nat}
    (h : s.takeRecord q a n = some (w, t)) (g : Only N s0 s) (hN : 0x804004000020000000000000000000000000000000000000000000000000001000 ||| N = N) : Only N s0 t := by
  unfold State.takeRecord at h
  dsimp only at h
  split at h
  · split at h
    · cases h
      exact State.setSeqX_only _ _ g (sub_of (by decide) hN)
    · exact State.takeRecord_other_only h g hN
  · exact State.takeRecord_other_only h g hN

theorem State.enterPage_within (s : State) (q : Nat) (a : Nat) (stack : List Nat) :
    Only 0x804000000000000000000000000000000000000000000000000000000000000000 s (State.enterPage s q a stack) := by
  unfold State.enterPage
  repeat' first
    | with_reducible exact Only.refl _ _
    | with_reducible refine Only.ite (fun _ => ?_) (fun _ => ?_)
    | with_reducible refine Only.foldl ?_ (fun _ _ => ?_)
    | with_reducible refine State.request_only _ ?_ (by decide)
    | with_reducible refine State.setSeqX_only _ _ ?_ (by decide)

theorem State.enterPage_only {N : Nat} {σ s : State} (q : Nat) (a : Nat) (stack : List Nat) (hσ : Only N σ s)
    (hN : 0x804000000000000000000000000000000000000000000000000000000000000000 ||| N = N) : Only N σ (State.enterPage s q a stack) := hσ.step (State.enterPage_within s q a stack) hN

theorem State.visit_within (s : State) (q : Nat) (g : Nat) (stack : List Nat) (y0 : List FlowEntry) :
    Only 0x804000000000000000000000000000000000000000000000000000000000000000 s (State.visit s q g stack y0) := by
  induction y0 generalizing s q g stack with
  | nil =>
    unfold State.visit
    repeat' first
      | with_reducible exact Only.refl _ _
      | with_reducible refine Only.ite (fun _ => ?_) (fun _ => ?_)
      | with_reducible refine Only.foldl ?_ (fun _ _ => ?_)
      | with_reducible refine State.enterPage_only _ _ _ ?_ (by decide)

  | cons a l ih =>
    unfold State.visit
    repeat' first
      | with_reducible exact Only.refl _ _
      | with_reducible refine Only.ite (fun _ => ?_) (fun _ => ?_)
      | with_reducible refine Only.foldl ?_ (fun _ _ => ?_)
      | with_reducible refine State.enterPage_only _ _ _ ?_ (by decide)
      | with_reducible refine State.request_only _ ?_ (by decide)
      | with_reducible refine State.setSeqX_only _ _ ?_ (by decide)
      | exact ih ..
      | refine Only.step ?_ (ih ..) (by decide)
      | split


theorem State.visit_only {N : Nat} {σ s : State} (q : Nat) (g : Nat) (stack : List Nat) (y0 : List FlowEntry) (hσ : Only N σ s)
    (hN : 0x804000000000000000000000000000000000000000000000000000000000000000 ||| N = N) : Only N σ (State.visit s q g stack y0) := hσ.step (State.visit_within s q g stack y0) hN

theorem State.lookStep_within (s : State) (q : Nat) (arrived : List Nat) :
    Only 0x804000000000000000000000000000000000000000000000000000000000000000 s (State.lookStep s q arrived) := by
  unfold State.lookStep
  repeat' first
    | with_reducible exact Only.refl _ _
    | with_reducible refine Only.ite (fun _ => ?_) (fun _ => ?_)
    | with_reducible refine Only.foldl ?_ (fun _ _ => ?_)
    | with_reducible refine State.visit_only _ _ _ _ ?_ (by decide)
    | split

theorem State.lookStep_only {N : Nat} {σ s : State} (q : Nat) (arrived : List Nat) (hσ : Only N σ s)
    (hN : 0x804000000000000000000000000000000000000000000000000000000000000000 ||| N = N) : Only N σ (State.lookStep s q arrived) := hσ.step (State.lookStep_within s q arrived) hN

theorem State.reachPage_within (s : State) (q : Nat) (a : Nat) :
    Only 0x4000000000000000000000000000000000000000000000000000000000000000 s (State.reachPage s q a) := by
  unfold State.reachPage
  repeat' first
    | with_reducible exact Only.refl _ _
    | with_reducible refine Only.ite (fun _ => ?_) (fun _ => ?_)
    | with_reducible refine Only.foldl ?_ (fun _ _ => ?_)
    | with_reducible refine State.setSeqX_only _ _ ?_ (by decide)

theorem State.reachPage_only {N : Nat} {σ s : State} (q : Nat) (a : Nat) (hσ : Only N σ s)
    (hN : 0x4000000000000000000000000000000000000000000000000000000000000000 ||| N = N) : Only N σ (State.reachPage s q a) := hσ.step (State.reachPage_within s q a) hN

theorem State.updatePanic_within (s : State) :
    Only 0x200004000000000000000000000000000000000000000000808000000000001000 s (State.updatePanic s) := by
  unfold State.updatePanic
  repeat' first
    | with_reducible exact Only.refl _ _
    | with_reducible refine Only.ite (fun _ => ?_) (fun _ => ?_)
    | with_reducible refine Only.foldl ?_ (fun _ _ => ?_)
    | fail_if_no_progress with_reducible refine Only.fields ?_ rfl rfl
    | with_reducible refine State.issuePostponed_only  ?_ (by decide)
    | with_reducible refine State.setBit_only _ _ _ _ ?_ (by decide)
    | with_reducible refine State.count_only _ _ _ _ _ ?_ (by decide)

theorem State.updatePanic_only {N : Nat} {σ s : State}  (hσ : Only N σ s)
    (hN : 0x200004000000000000000000000000000000000000000000808000000000001000 ||| N = N) : Only N σ (State.updatePanic s) := hσ.step (State.updatePanic_within s) hN

end Sys2Proof.Machine
end

