-- ==== Sys2Proof/Laws/Frame/OpsSite.lean ====
section
/-!
SUPPORT. OpsSite.lean: what each operation of Machine/OpsSite.lean can change (see Only).
-/
namespace Sys2Proof.Machine
set_option Elab.async false

theorem State.siteCommit_within (s : State) :
    Only 0x400004000e00000000000000000000000000000000000000000000000000001000 s (State.siteCommit s).2 := by
  unfold State.siteCommit
  repeat' first
    | with_reducible exact Only.refl _ _
    | with_reducible refine Only.ite (fun _ => ?_) (fun _ => ?_)
    | with_reducible refine Only.foldl ?_ (fun _ _ => ?_)
    | fail_if_no_progress with_reducible refine Only.fields ?_ rfl rfl
    | with_reducible refine OnlyOut.next ?_
    | with_reducible refine OnlyOut.ite (fun _ => ?_) (fun _ => ?_)
    | with_reducible refine State.set_only _ _ _ _ ?_ (by decide)
    | with_reducible refine State.hwSetBit_only _ _ _ _ ?_ (by decide)
    | split
    | extract_lets

theorem State.siteCommit_only {N : Nat} {σ s : State}  (hσ : Only N σ s)
    (hN : 0x400004000e00000000000000000000000000000000000000000000000000001000 ||| N = N) : Only N σ (State.siteCommit s).2 := hσ.step (State.siteCommit_within s) hN

theorem State.siteCommit_only_eq {N : Nat} {σ s t : State}  {v : Nat} (heq : State.siteCommit s = (v, t)) (hσ : Only N σ s)
    (hN : 0x400004000e00000000000000000000000000000000000000000000000000001000 ||| N = N) : Only N σ t := hσ.step (Only.snd heq (State.siteCommit_within s)) hN

theorem State.stageSite_within (s : State) (k : Nat) (f : SiteMap → SiteMap) :
    Only 0x400000000400000000000000000000000000000000000000000000000000000000 s (State.stageSite s k f) := by
  unfold State.stageSite
  repeat' first
    | with_reducible exact Only.refl _ _
    | with_reducible refine Only.ite (fun _ => ?_) (fun _ => ?_)
    | with_reducible refine Only.foldl ?_ (fun _ _ => ?_)
    | fail_if_no_progress with_reducible refine Only.fields ?_ rfl rfl
    | with_reducible refine State.set_only _ _ _ _ ?_ (by decide)

theorem State.stageSite_only {N : Nat} {σ s : State} (k : Nat) (f : SiteMap → SiteMap) (hσ : Only N σ s)
    (hN : 0x400000000400000000000000000000000000000000000000000000000000000000 ||| N = N) : Only N σ (State.stageSite s k f) := hσ.step (State.stageSite_within s k f) hN

theorem State.startSite_within (s : State) (q : Nat) (run : Nat) (k : Nat) :
    Only 0x40000000c000000000000000000000000000000000000000000000000000000000 s (State.startSite s q run k) := by
  unfold State.startSite
  repeat' first
    | with_reducible exact Only.refl _ _
    | with_reducible refine Only.ite (fun _ => ?_) (fun _ => ?_)
    | with_reducible refine Only.foldl ?_ (fun _ _ => ?_)
    | fail_if_no_progress with_reducible refine Only.fields ?_ rfl rfl
    | with_reducible refine State.set_only _ _ _ _ ?_ (by decide)

theorem State.startSite_only {N : Nat} {σ s : State} (q : Nat) (run : Nat) (k : Nat) (hσ : Only N σ s)
    (hN : 0x40000000c000000000000000000000000000000000000000000000000000000000 ||| N = N) : Only N σ (State.startSite s q run k) := hσ.step (State.startSite_within s q run k) hN

theorem State.startSites_within (s : State) (q : Nat) (run : Nat) :
    Only 0x40000000c000000000000000000000000000000000000000000000000000000000 s (State.startSites s q run) := by
  unfold State.startSites
  repeat' first
    | with_reducible exact Only.refl _ _
    | with_reducible refine Only.ite (fun _ => ?_) (fun _ => ?_)
    | with_reducible refine Only.foldl ?_ (fun _ _ => ?_)
    | with_reducible refine State.startSite_only _ _ _ ?_ (by decide)

theorem State.startSites_only {N : Nat} {σ s : State} (q : Nat) (run : Nat) (hσ : Only N σ s)
    (hN : 0x40000000c000000000000000000000000000000000000000000000000000000000 ||| N = N) : Only N σ (State.startSites s q run) := hσ.step (State.startSites_within s q run) hN

theorem State.endSite_within (s : State) (q : Nat) (k : Nat) (n : Nat) (endAt : Nat) :
    Only 0x410000000000000000000000000000000000000000000000000000000000000000 s (State.endSite s q k n endAt) := by
  unfold State.endSite
  repeat' first
    | with_reducible exact Only.refl _ _
    | with_reducible refine Only.ite (fun _ => ?_) (fun _ => ?_)
    | with_reducible refine Only.foldl ?_ (fun _ _ => ?_)
    | with_reducible refine State.setPark_only _ _ ?_ (by decide)
    | with_reducible refine State.modSiteRun_only _ _ ?_ (by decide)

theorem State.endSite_only {N : Nat} {σ s : State} (q : Nat) (k : Nat) (n : Nat) (endAt : Nat) (hσ : Only N σ s)
    (hN : 0x410000000000000000000000000000000000000000000000000000000000000000 ||| N = N) : Only N σ (State.endSite s q k n endAt) := hσ.step (State.endSite_within s q k n endAt) hN

theorem State.settleSite_within (s : State) (q : Nat) (c : Nat) (n : Nat) (endAt : Nat) (k : Nat) :
    Only 0x410000000000000000000000000000000000000000000000000000000000000000 s (State.settleSite s q c n endAt k) := by
  unfold State.settleSite
  repeat' first
    | with_reducible exact Only.refl _ _
    | with_reducible refine Only.ite (fun _ => ?_) (fun _ => ?_)
    | with_reducible refine Only.foldl ?_ (fun _ _ => ?_)
    | with_reducible refine State.endSite_only _ _ _ _ ?_ (by decide)
    | split

theorem State.settleSite_only {N : Nat} {σ s : State} (q : Nat) (c : Nat) (n : Nat) (endAt : Nat) (k : Nat) (hσ : Only N σ s)
    (hN : 0x410000000000000000000000000000000000000000000000000000000000000000 ||| N = N) : Only N σ (State.settleSite s q c n endAt k) := hσ.step (State.settleSite_within s q c n endAt k) hN

theorem State.settleSites_within (s : State) (q : Nat) (c : Nat) (n : Nat) (endAt : Nat) :
    Only 0x410000000000000000000000000000000000000000000000000000000000000000 s (State.settleSites s q c n endAt) := by
  unfold State.settleSites
  repeat' first
    | with_reducible exact Only.refl _ _
    | with_reducible refine Only.ite (fun _ => ?_) (fun _ => ?_)
    | with_reducible refine Only.foldl ?_ (fun _ _ => ?_)
    | with_reducible refine State.settleSite_only _ _ _ _ _ ?_ (by decide)

theorem State.settleSites_only {N : Nat} {σ s : State} (q : Nat) (c : Nat) (n : Nat) (endAt : Nat) (hσ : Only N σ s)
    (hN : 0x410000000000000000000000000000000000000000000000000000000000000000 ||| N = N) : Only N σ (State.settleSites s q c n endAt) := hσ.step (State.settleSites_within s q c n endAt) hN

theorem State.retire_within (s : State) (k : Nat) :
    Only 0x410000004000000000000000000000000000000000000000000000000000000000 s (State.retire s k) := by
  unfold State.retire
  repeat' first
    | with_reducible exact Only.refl _ _
    | with_reducible refine Only.ite (fun _ => ?_) (fun _ => ?_)
    | with_reducible refine Only.foldl ?_ (fun _ _ => ?_)
    | with_reducible refine State.settleSite_only _ _ _ _ _ ?_ (by decide)
    | with_reducible refine State.modSiteRun_only _ _ ?_ (by decide)
    | with_reducible refine State.set_only _ _ _ _ ?_ (by decide)

theorem State.retire_only {N : Nat} {σ s : State} (k : Nat) (hσ : Only N σ s)
    (hN : 0x410000004000000000000000000000000000000000000000000000000000000000 ||| N = N) : Only N σ (State.retire s k) := hσ.step (State.retire_within s k) hN

theorem State.stopSites_within (s : State) (q : Nat) :
    Only 0x400000004000000000000000000000000000000000000000000000000000000000 s (State.stopSites s q) := by
  unfold State.stopSites
  repeat' first
    | with_reducible exact Only.refl _ _
    | with_reducible refine Only.ite (fun _ => ?_) (fun _ => ?_)
    | with_reducible refine Only.foldl ?_ (fun _ _ => ?_)
    | with_reducible refine State.modSiteRun_only _ _ ?_ (by decide)
    | with_reducible refine State.set_only _ _ _ _ ?_ (by decide)

theorem State.stopSites_only {N : Nat} {σ s : State} (q : Nat) (hσ : Only N σ s)
    (hN : 0x400000004000000000000000000000000000000000000000000000000000000000 ||| N = N) : Only N σ (State.stopSites s q) := hσ.step (State.stopSites_within s q) hN

theorem State.gfStops_within (s : State) (q : Nat) (c : Nat) :
    Only 0x400000004000000000000000000000000000000000000000000000000000000000 s (State.gfStops s q c) := by
  unfold State.gfStops
  repeat' first
    | with_reducible exact Only.refl _ _
    | with_reducible refine Only.ite (fun _ => ?_) (fun _ => ?_)
    | with_reducible refine Only.foldl ?_ (fun _ _ => ?_)
    | with_reducible refine State.modSiteRun_only _ _ ?_ (by decide)
    | with_reducible refine State.set_only _ _ _ _ ?_ (by decide)

theorem State.gfStops_only {N : Nat} {σ s : State} (q : Nat) (c : Nat) (hσ : Only N σ s)
    (hN : 0x400000004000000000000000000000000000000000000000000000000000000000 ||| N = N) : Only N σ (State.gfStops s q c) := hσ.step (State.gfStops_within s q c) hN

theorem State.siteEnd_within (s : State) (r : SiteRun) (stop : Nat) :
    Only 0x401844008000000000000000000000000000000000400000000000000000145000 s (State.siteEnd s r stop) := by
  unfold State.siteEnd
  repeat' first
    | with_reducible exact Only.refl _ _
    | with_reducible refine Only.ite (fun _ => ?_) (fun _ => ?_)
    | with_reducible refine Only.foldl ?_ (fun _ _ => ?_)
    | fail_if_no_progress with_reducible refine Only.fields ?_ rfl rfl
    | with_reducible refine State.setFlags_only _ _ _ ?_ (by decide)
    | with_reducible refine State.post_only _ _ _ ?_ (by decide)
    | with_reducible refine State.wr_only _ _ ?_ (by (dsimp only; decide))

theorem State.siteEnd_only {N : Nat} {σ s : State} (r : SiteRun) (stop : Nat) (hσ : Only N σ s)
    (hN : 0x401844008000000000000000000000000000000000400000000000000000145000 ||| N = N) : Only N σ (State.siteEnd s r stop) := hσ.step (State.siteEnd_within s r stop) hN

end Sys2Proof.Machine
end

