-- ==== Sys2Proof/Laws/Frame/OpsIssue.lean ====
section
/-!
SUPPORT. OpsIssue.lean: what each operation of Machine/OpsIssue.lean can change (see Only).
-/
namespace Sys2Proof.Machine
set_option Elab.async false

theorem State.commitsDone_within (s : State) (st : Nat) (l : List (Option Token)) :
    Only 0x844000000000000000000000000000000000000000000000000000000145000 s (State.commitsDone s st l) := by
  unfold State.commitsDone
  repeat' first
    | with_reducible exact Only.refl _ _
    | with_reducible refine Only.ite (fun _ => ?_) (fun _ => ?_)
    | with_reducible refine Only.foldl ?_ (fun _ _ => ?_)
    | with_reducible refine State.completeSame_only _ _ ?_ (by decide)
    | split

theorem State.commitsDone_only {N : Nat} {σ s : State} (st : Nat) (l : List (Option Token)) (hσ : Only N σ s)
    (hN : 0x844000000000000000000000000000000000000000000000000000000145000 ||| N = N) : Only N σ (State.commitsDone s st l) := hσ.step (State.commitsDone_within s st l) hN

theorem State.commitNow_within (s : State) (q : Nat) (toks : List (Option Token)) :
    Only 0x20844000000000030000000000000000000000000000000000000000000145000 s (State.commitNow s q toks) := by
  unfold State.commitNow
  repeat' first
    | with_reducible exact Only.refl _ _
    | with_reducible refine Only.ite (fun _ => ?_) (fun _ => ?_)
    | with_reducible refine Only.foldl ?_ (fun _ _ => ?_)
    | with_reducible refine State.commitsDone_only _ _ ?_ (by decide)
    | with_reducible refine State.applyCommit_only _ ?_ (by decide)
    | with_reducible refine State.set_only _ _ _ _ ?_ (by decide)

theorem State.commitNow_only {N : Nat} {σ s : State} (q : Nat) (toks : List (Option Token)) (hσ : Only N σ s)
    (hN : 0x20844000000000030000000000000000000000000000000000000000000145000 ||| N = N) : Only N σ (State.commitNow s q toks) := hσ.step (State.commitNow_within s q toks) hN

theorem State.applyCommits_within (s : State) (q : Nat) :
    Only 0x24844000000000030000000000000000000000000000000000000000000145000 s (State.applyCommits s q) := by
  unfold State.applyCommits
  repeat' first
    | with_reducible exact Only.refl _ _
    | with_reducible refine Only.ite (fun _ => ?_) (fun _ => ?_)
    | with_reducible refine Only.foldl ?_ (fun _ _ => ?_)
    | with_reducible refine State.commitNow_only _ _ ?_ (by decide)
    | with_reducible refine State.setSeqX_only _ _ ?_ (by decide)

theorem State.applyCommits_only {N : Nat} {σ s : State} (q : Nat) (hσ : Only N σ s)
    (hN : 0x24844000000000030000000000000000000000000000000000000000000145000 ||| N = N) : Only N σ (State.applyCommits s q) := hσ.step (State.applyCommits_within s q) hN

theorem State.pegCommit_within (s : State) (q : Nat) (toks : List (Option Token)) :
    Only 0x24844000000000030000000000000000000000000000000000000000000145000 s (State.pegCommit s q toks) := by
  unfold State.pegCommit
  repeat' first
    | with_reducible exact Only.refl _ _
    | with_reducible refine Only.ite (fun _ => ?_) (fun _ => ?_)
    | with_reducible refine Only.foldl ?_ (fun _ _ => ?_)
    | with_reducible refine State.commitNow_only _ _ ?_ (by decide)
    | with_reducible refine State.setSeqX_only _ _ ?_ (by decide)

theorem State.pegCommit_only {N : Nat} {σ s : State} (q : Nat) (toks : List (Option Token)) (hσ : Only N σ s)
    (hN : 0x24844000000000030000000000000000000000000000000000000000000145000 ||| N = N) : Only N σ (State.pegCommit s q toks) := hσ.step (State.pegCommit_within s q toks) hN

theorem State.retime_within (s : State) (q : Nat) :
    Only 0x14000000000000000000000000000000000000000000000000000000000000000 s (State.retime s q) := by
  unfold State.retime
  repeat' first
    | with_reducible exact Only.refl _ _
    | with_reducible refine Only.ite (fun _ => ?_) (fun _ => ?_)
    | with_reducible refine Only.foldl ?_ (fun _ _ => ?_)
    | with_reducible refine OnlyOut.next ?_
    | with_reducible refine OnlyOut.ite (fun _ => ?_) (fun _ => ?_)
    | with_reducible refine State.setChan_only _ _ ?_ (by decide)
    | with_reducible refine State.setSeqX_only _ _ ?_ (by decide)

theorem State.retime_only {N : Nat} {σ s : State} (q : Nat) (hσ : Only N σ s)
    (hN : 0x14000000000000000000000000000000000000000000000000000000000000000 ||| N = N) : Only N σ (State.retime s q) := hσ.step (State.retime_within s q) hN

theorem State.issueOne_within (s : State) (q : Nat) (v : PlanVec) :
    Only 0x2414004000000000000000000000000060004000000000000000000000000001000 s (State.issueOne s q v) := by
  unfold State.issueOne
  repeat' first
    | with_reducible exact Only.refl _ _
    | with_reducible refine Only.ite (fun _ => ?_) (fun _ => ?_)
    | with_reducible refine Only.foldl ?_ (fun _ _ => ?_)
    | with_reducible refine State.tagVectors_only _ _ ?_ (by decide)
    | with_reducible refine State.settleSites_only _ _ _ _ ?_ (by decide)
    | with_reducible refine State.issueVector_only _ _ ?_ (by decide)
    | with_reducible refine State.setSeqX_only _ _ ?_ (by decide)

theorem State.issueOne_only {N : Nat} {σ s : State} (q : Nat) (v : PlanVec) (hσ : Only N σ s)
    (hN : 0x2414004000000000000000000000000060004000000000000000000000000001000 ||| N = N) : Only N σ (State.issueOne s q v) := hσ.step (State.issueOne_within s q v) hN

theorem State.issueTo_within (s : State) (q lim n : Nat) : Only 0x2434844000000000030000000000000060004000000000000000000000000145000 s (s.issueTo q lim n) := by
  induction n generalizing s with
  | zero => exact .refl ..
  | succ n ih =>
    unfold State.issueTo
    extract_lets x vec peg byPeg byVec
    have hp : ∀ g gs, Only 0x2434844000000000030000000000000060004000000000000000000000000145000 s ((byPeg g gs).issueTo q lim n) := fun g gs =>
      (State.retime_only _ (State.commitNow_only _ _ (State.setSeqX_only _ _ (.refl ..) (by decide)) (by decide))
        (by decide)).step (ih _) (Nat.or_self _)
    have hv : ∀ v vs, Only 0x2434844000000000030000000000000060004000000000000000000000000145000 s ((byVec v vs).issueTo q lim n) := fun v vs =>
      (State.issueOne_only _ _ (State.setSeqX_only _ _ (.refl ..) (by decide)) (by decide)).step (ih _) (Nat.or_self _)
    clear_value byPeg byVec peg vec
    split
    · exact .ite (fun _ => hp ..) (fun _ => hv ..)
    · exact hp ..
    · exact hv ..
    · exact .refl ..

theorem State.issueTo_only {N : Nat} {σ s : State} (q lim n : Nat) (hσ : Only N σ s) (hN : 0x2434844000000000030000000000000060004000000000000000000000000145000 ||| N = N) :
    Only N σ (s.issueTo q lim n) := hσ.step (State.issueTo_within s q lim n) hN

theorem State.issueAll_within (s : State) (lim : Nat) :
    Only 0x2434844000000000030000000000000060004000000000000000000000000145000 s (State.issueAll s lim) := by
  unfold State.issueAll
  repeat' first
    | with_reducible exact Only.refl _ _
    | with_reducible refine Only.ite (fun _ => ?_) (fun _ => ?_)
    | with_reducible refine Only.foldl ?_ (fun _ _ => ?_)
    | with_reducible refine State.issueTo_only _ _ _ ?_ (by decide)

theorem State.issueAll_only {N : Nat} {σ s : State} (lim : Nat) (hσ : Only N σ s)
    (hN : 0x2434844000000000030000000000000060004000000000000000000000000145000 ||| N = N) : Only N σ (State.issueAll s lim) := hσ.step (State.issueAll_within s lim) hN

end Sys2Proof.Machine
end

