-- ==== Sys2Proof/Laws/Frame/OpsSeq.lean ====
section
/-!
SUPPORT. OpsSeq.lean: what each operation of Machine/OpsSeq.lean can change (see Only).
-/
namespace Sys2Proof.Machine
set_option Elab.async false

theorem State.partDone_within (s : State) (tok : Token) (q : Nat) (st : Nat) :
    Only 0x844000000000000000000000000000000000000000000000000000000145000 s (State.partDone s tok q st) := by
  unfold State.partDone
  repeat' first
    | with_reducible exact Only.refl _ _
    | with_reducible refine Only.ite (fun _ => ?_) (fun _ => ?_)
    | with_reducible refine Only.foldl ?_ (fun _ _ => ?_)
    | fail_if_no_progress with_reducible refine Only.fields ?_ rfl rfl
    | with_reducible refine State.complete_only _ _ _ _ _ ?_ (by decide)
    | split
    | extract_lets

theorem State.partDone_only {N : Nat} {σ s : State} (tok : Token) (q : Nat) (st : Nat) (hσ : Only N σ s)
    (hN : 0x844000000000000000000000000000000000000000000000000000000145000 ||| N = N) : Only N σ (State.partDone s tok q st) := hσ.step (State.partDone_within s tok q st) hN

theorem State.partDone?_within (s : State) (tok : Option Token) (q : Nat) (st : Nat) :
    Only 0x844000000000000000000000000000000000000000000000000000000145000 s (State.partDone? s tok q st) := by
  unfold State.partDone?
  repeat' first
    | with_reducible exact Only.refl _ _
    | with_reducible refine Only.ite (fun _ => ?_) (fun _ => ?_)
    | with_reducible refine Only.foldl ?_ (fun _ _ => ?_)
    | with_reducible refine State.partDone_only _ _ _ ?_ (by decide)
    | split

theorem State.partDone?_only {N : Nat} {σ s : State} (tok : Option Token) (q : Nat) (st : Nat) (hσ : Only N σ s)
    (hN : 0x844000000000000000000000000000000000000000000000000000000145000 ||| N = N) : Only N σ (State.partDone? s tok q st) := hσ.step (State.partDone?_within s tok q st) hN

theorem State.endPends_within (s : State) (q : Nat) (paused : Bool) (reason : Nat) (l : List Pend) :
    Only 0x844000000000000000000000000000000000000000000000000000000145000 s (State.endPends s q paused reason l) := by
  unfold State.endPends
  repeat' first
    | with_reducible exact Only.refl _ _
    | with_reducible refine Only.ite (fun _ => ?_) (fun _ => ?_)
    | with_reducible refine Only.foldl ?_ (fun _ _ => ?_)
    | with_reducible refine State.partDone?_only _ _ _ ?_ (by decide)

theorem State.endPends_only {N : Nat} {σ s : State} (q : Nat) (paused : Bool) (reason : Nat) (l : List Pend) (hσ : Only N σ s)
    (hN : 0x844000000000000000000000000000000000000000000000000000000145000 ||| N = N) : Only N σ (State.endPends s q paused reason l) := hσ.step (State.endPends_within s q paused reason l) hN

theorem State.finishStop_within (s : State) (q : Nat) (e : Ending) :
    Only 0x2d64844004001a4c030007000000000000000000000000000000000000000145000 s (State.finishStop s q e) := by
  unfold State.finishStop
  repeat' first
    | with_reducible exact Only.refl _ _
    | with_reducible refine Only.ite (fun _ => ?_) (fun _ => ?_)
    | with_reducible refine Only.foldl ?_ (fun _ _ => ?_)
    | with_reducible refine State.endPends_only _ _ _ _ ?_ (by decide)
    | with_reducible refine State.applyCommits_only _ ?_ (by decide)
    | with_reducible refine State.stopWindows_only _ _ ?_ (by decide)
    | with_reducible refine State.stopSites_only _ ?_ (by decide)
    | with_reducible refine State.dropPath_only _ ?_ (by decide)
    | with_reducible refine State.resteer_only _ _ ?_ (by decide)
    | with_reducible refine State.flushLog_only _ ?_ (by decide)
    | with_reducible refine State.dclkHalt_only _ ?_ (by decide)
    | with_reducible refine State.setSeqState_only _ _ ?_ (by decide)
    | with_reducible refine State.setSeqX_only _ _ ?_ (by decide)
    | with_reducible refine State.post_only _ _ _ ?_ (by decide)
    | with_reducible refine State.set_only _ _ _ _ ?_ (by decide)
    | split

theorem State.finishStop_only {N : Nat} {σ s : State} (q : Nat) (e : Ending) (hσ : Only N σ s)
    (hN : 0x2d64844004001a4c030007000000000000000000000000000000000000000145000 ||| N = N) : Only N σ (State.finishStop s q e) := hσ.step (State.finishStop_within s q e) hN

theorem State.tryPark_within (s : State) (q : Nat) :
    Only 0x2d74844004001a4c030007000000000000200000000000000000000000000145000 s (State.tryPark s q) := by
  unfold State.tryPark
  repeat' first
    | with_reducible exact Only.refl _ _
    | with_reducible refine Only.ite (fun _ => ?_) (fun _ => ?_)
    | with_reducible refine Only.foldl ?_ (fun _ _ => ?_)
    | with_reducible refine State.finishStop_only _ _ ?_ (by decide)
    | with_reducible refine State.settleSites_only _ _ _ _ ?_ (by decide)
    | with_reducible refine State.parkDue_only _ ?_ (by decide)
    | split
    | extract_lets

theorem State.tryPark_only {N : Nat} {σ s : State} (q : Nat) (hσ : Only N σ s)
    (hN : 0x2d74844004001a4c030007000000000000200000000000000000000000000145000 ||| N = N) : Only N σ (State.tryPark s q) := hσ.step (State.tryPark_within s q) hN

theorem State.beginStop_within (s : State) (q : Nat) (reason : Nat) (paused : Bool) (fault : Option (Nat × Nat × Nat × Nat)) :
    Only 0x2d74844004001a4c030007000000000000200000000000000000000000000145000 s (State.beginStop s q reason paused fault) := by
  unfold State.beginStop
  repeat' first
    | with_reducible exact Only.refl _ _
    | with_reducible refine Only.ite (fun _ => ?_) (fun _ => ?_)
    | with_reducible refine Only.foldl ?_ (fun _ _ => ?_)
    | with_reducible refine State.tryPark_only _ ?_ (by decide)
    | with_reducible refine State.setPark_only _ _ ?_ (by decide)
    | with_reducible refine State.setSeqX_only _ _ ?_ (by decide)

theorem State.beginStop_only {N : Nat} {σ s : State} (q : Nat) (reason : Nat) (paused : Bool) (fault : Option (Nat × Nat × Nat × Nat)) (hσ : Only N σ s)
    (hN : 0x2d74844004001a4c030007000000000000200000000000000000000000000145000 ||| N = N) : Only N σ (State.beginStop s q reason paused fault) := hσ.step (State.beginStop_within s q reason paused fault) hN

theorem State.fault_within (s : State) (q : Nat) (a : Nat) (code : Nat) (detail : Nat) :
    Only 0x2d74844004001a4c030007000000000000200000000000000000000000000145000 s (State.fault s q a code detail) := by
  unfold State.fault
  repeat' first
    | with_reducible exact Only.refl _ _
    | with_reducible refine Only.ite (fun _ => ?_) (fun _ => ?_)
    | with_reducible refine Only.foldl ?_ (fun _ _ => ?_)
    | with_reducible refine State.beginStop_only _ _ _ _ ?_ (by decide)

theorem State.fault_only {N : Nat} {σ s : State} (q : Nat) (a : Nat) (code : Nat) (detail : Nat) (hσ : Only N σ s)
    (hN : 0x2d74844004001a4c030007000000000000200000000000000000000000000145000 ||| N = N) : Only N σ (State.fault s q a code detail) := hσ.step (State.fault_within s q a code detail) hN

theorem State.servePends_only {N : Nat} {s0 s t : State} {q : Nat} {l : List Pend} (h : s.servePends q l = some t)
    (g : Only N s0 s) (hN : 0x2d74844004001a4c030007000000000000200000000000000000000000000145000 ||| N = N) : Only N s0 t := by
  unfold State.servePends at h
  rw [Option.map_eq_some_iff] at h
  obtain ⟨p, -, rfl⟩ := h
  exact State.beginStop_only _ _ _ _ g (sub_of (by decide) hN)

theorem State.servePends_getD_only {N : Nat} {s0 s u : State} (q : Nat) (l : List Pend) (g : Only N s0 s) (gu : Only N s0 u)
    (hN : 0x2d74844004001a4c030007000000000000200000000000000000000000000145000 ||| N = N) : Only N s0 ((s.servePends q l).getD u) := by
  cases h : s.servePends q l with
  | none => exact gu
  | some t => exact State.servePends_only h g hN

theorem State.requestStop_within (s : State) (q : Nat) (reason : Nat) (src : Src) (tok : Option Token) :
    Only 0x2d74844004001a4c030007000000000000200000000000000000000000000145000 s (State.requestStop s q reason src tok) := by
  unfold State.requestStop
  repeat' first
    | with_reducible exact Only.refl _ _
    | with_reducible refine Only.ite (fun _ => ?_) (fun _ => ?_)
    | with_reducible refine Only.foldl ?_ (fun _ _ => ?_)
    | with_reducible refine State.servePends_getD_only _ _ ?_ ?_ (by decide)
    | with_reducible refine State.servePends_only (by assumption) ?_ (by decide)
    | with_reducible refine State.finishStop_only _ _ ?_ (by decide)
    | with_reducible refine State.partDone?_only _ _ _ ?_ (by decide)
    | with_reducible refine State.applyCommits_only _ ?_ (by decide)
    | with_reducible refine State.setSeqX_only _ _ ?_ (by decide)
    | with_reducible refine State.decideEvent_only _ _ _ _ ?_ (by decide)
    | with_reducible refine State.decideEvent_only_eq (by assumption) ?_ (by decide)
    | with_reducible refine State.superseded_only ?_ (by decide)
    | split
    | extract_lets

theorem State.requestStop_only {N : Nat} {σ s : State} (q : Nat) (reason : Nat) (src : Src) (tok : Option Token) (hσ : Only N σ s)
    (hN : 0x2d74844004001a4c030007000000000000200000000000000000000000000145000 ||| N = N) : Only N σ (State.requestStop s q reason src tok) := hσ.step (State.requestStop_within s q reason src tok) hN

theorem State.tableCommit_within (s : State) (q : Nat) (src : Src) (tok : Option Token) :
    Only 0x24844000000000030000000000000000000000000000000000000000000145000 s (State.tableCommit s q src tok) := by
  unfold State.tableCommit
  repeat' first
    | with_reducible exact Only.refl _ _
    | with_reducible refine Only.ite (fun _ => ?_) (fun _ => ?_)
    | with_reducible refine Only.foldl ?_ (fun _ _ => ?_)
    | with_reducible refine State.applyCommits_only _ ?_ (by decide)
    | with_reducible refine State.setSeqX_only _ _ ?_ (by decide)
    | with_reducible refine State.completeSame_only _ _ ?_ (by decide)
    | with_reducible refine State.decideEvent_only _ _ _ _ ?_ (by decide)
    | with_reducible refine State.decideEvent_only_eq (by assumption) ?_ (by decide)
    | with_reducible refine State.set_only _ _ _ _ ?_ (by decide)
    | with_reducible refine State.superseded_only ?_ (by decide)
    | split

theorem State.tableCommit_only {N : Nat} {σ s : State} (q : Nat) (src : Src) (tok : Option Token) (hσ : Only N σ s)
    (hN : 0x24844000000000030000000000000000000000000000000000000000000145000 ||| N = N) : Only N σ (State.tableCommit s q src tok) := hσ.step (State.tableCommit_within s q src tok) hN

theorem State.clearRun_within (s : State) (q : Nat) :
    Only 0x800409000000000000000000000000000000000000000000000 s (State.clearRun s q) := by
  unfold State.clearRun
  repeat' first
    | with_reducible exact Only.refl _ _
    | with_reducible refine Only.ite (fun _ => ?_) (fun _ => ?_)
    | with_reducible refine Only.foldl ?_ (fun _ _ => ?_)
    | with_reducible refine State.set_only _ _ _ _ ?_ (by decide)

theorem State.clearRun_only {N : Nat} {σ s : State} (q : Nat) (hσ : Only N σ s)
    (hN : 0x800409000000000000000000000000000000000000000000000 ||| N = N) : Only N σ (State.clearRun s q) := hσ.step (State.clearRun_within s q) hN

theorem State.startRun_within (s0 : State) (q : Nat) :
    Only 0x2057484400c000000810409000000000000000000000000000002000000000145000 s0 (State.startRun s0 q) := by
  unfold State.startRun
  repeat' first
    | with_reducible exact Only.refl _ _
    | with_reducible refine Only.ite (fun _ => ?_) (fun _ => ?_)
    | with_reducible refine Only.foldl ?_ (fun _ _ => ?_)
    | fail_if_no_progress with_reducible refine Only.fields ?_ rfl rfl
    | with_reducible refine State.clearRun_only _ ?_ (by decide)
    | with_reducible refine State.startSites_only _ _ ?_ (by decide)
    | with_reducible refine State.setLogX_only _ _ ?_ (by decide)
    | with_reducible refine State.srExit_only _ ?_ (by decide)
    | with_reducible refine State.dclkLaunch_only _ _ ?_ (by decide)
    | with_reducible refine State.unpark_only _ ?_ (by decide)
    | with_reducible refine State.clampAll_only _ ?_ (by decide)
    | with_reducible refine State.setSeqState_only _ _ ?_ (by decide)
    | with_reducible refine State.setSeqX_only _ _ ?_ (by decide)

theorem State.startRun_only {N : Nat} {σ s0 : State} (q : Nat) (hσ : Only N σ s0)
    (hN : 0x2057484400c000000810409000000000000000000000000000002000000000145000 ||| N = N) : Only N σ (State.startRun s0 q) := hσ.step (State.startRun_within s0 q) hN

theorem State.start_within (s : State) (q : Nat) (src : Src) :
    Only 0x2057484400c000000810409000000000000000000000000000002000000000145000 s (State.start s q src).2 := by
  unfold State.start
  repeat' first
    | with_reducible exact Only.refl _ _
    | with_reducible refine Only.ite (fun _ => ?_) (fun _ => ?_)
    | with_reducible refine Only.foldl ?_ (fun _ _ => ?_)
    | with_reducible refine OnlyOut.next ?_
    | with_reducible refine OnlyOut.ite (fun _ => ?_) (fun _ => ?_)
    | with_reducible refine State.startRun_only _ ?_ (by decide)
    | with_reducible refine State.decideEvent_only _ _ _ _ ?_ (by decide)
    | with_reducible refine State.decideEvent_only_eq (by assumption) ?_ (by decide)
    | with_reducible refine State.superseded_only ?_ (by decide)
    | split

theorem State.start_only {N : Nat} {σ s : State} (q : Nat) (src : Src) (hσ : Only N σ s)
    (hN : 0x2057484400c000000810409000000000000000000000000000002000000000145000 ||| N = N) : Only N σ (State.start s q src).2 := hσ.step (State.start_within s q src) hN

theorem State.start_only_eq {N : Nat} {σ s t : State} {q : Nat} {src : Src} {v : Nat} (heq : State.start s q src = (v, t)) (hσ : Only N σ s)
    (hN : 0x2057484400c000000810409000000000000000000000000000002000000000145000 ||| N = N) : Only N σ t := hσ.step (Only.snd heq (State.start_within s q src)) hN

theorem State.resumeRun_within (s : State) (q : Nat) :
    Only 0x814000000000000000001000000000000000000000000000000000000000000000 s (State.resumeRun s q) := by
  unfold State.resumeRun
  repeat' first
    | with_reducible exact Only.refl _ _
    | with_reducible refine Only.ite (fun _ => ?_) (fun _ => ?_)
    | with_reducible refine Only.foldl ?_ (fun _ _ => ?_)
    | with_reducible refine State.resteer_only _ _ ?_ (by decide)
    | with_reducible refine State.unpark_only _ ?_ (by decide)
    | with_reducible refine State.setSeqState_only _ _ ?_ (by decide)
    | with_reducible refine State.setSeqX_only _ _ ?_ (by decide)

theorem State.resumeRun_only {N : Nat} {σ s : State} (q : Nat) (hσ : Only N σ s)
    (hN : 0x814000000000000000001000000000000000000000000000000000000000000000 ||| N = N) : Only N σ (State.resumeRun s q) := hσ.step (State.resumeRun_within s q) hN

theorem State.resume_within (s : State) (q : Nat) (src : Src) :
    Only 0x814004000000000000001000000000000000000000000000000000000000001000 s (State.resume s q src).2 := by
  unfold State.resume
  repeat' first
    | with_reducible exact Only.refl _ _
    | with_reducible refine Only.ite (fun _ => ?_) (fun _ => ?_)
    | with_reducible refine Only.foldl ?_ (fun _ _ => ?_)
    | with_reducible refine OnlyOut.next ?_
    | with_reducible refine OnlyOut.ite (fun _ => ?_) (fun _ => ?_)
    | with_reducible refine State.resumeRun_only _ ?_ (by decide)
    | with_reducible refine State.decideEvent_only _ _ _ _ ?_ (by decide)
    | with_reducible refine State.decideEvent_only_eq (by assumption) ?_ (by decide)
    | with_reducible refine State.superseded_only ?_ (by decide)
    | split

theorem State.resume_only {N : Nat} {σ s : State} (q : Nat) (src : Src) (hσ : Only N σ s)
    (hN : 0x814004000000000000001000000000000000000000000000000000000000001000 ||| N = N) : Only N σ (State.resume s q src).2 := hσ.step (State.resume_within s q src) hN

theorem State.resume_only_eq {N : Nat} {σ s t : State} {q : Nat} {src : Src} {v : Nat} (heq : State.resume s q src = (v, t)) (hσ : Only N σ s)
    (hN : 0x814004000000000000001000000000000000000000000000000000000000001000 ||| N = N) : Only N σ t := hσ.step (Only.snd heq (State.resume_within s q src)) hN

theorem State.raiseMissed_within (s : State) (q : Nat) :
    Only 0x4000000000000001000000000000000000000000000000000000000001000 s (State.raiseMissed s q).2 := by
  unfold State.raiseMissed
  repeat' first
    | with_reducible exact Only.refl _ _
    | with_reducible refine Only.ite (fun _ => ?_) (fun _ => ?_)
    | with_reducible refine Only.foldl ?_ (fun _ _ => ?_)
    | with_reducible refine State.hwSet_only _ _ _ ?_ (by decide)

theorem State.raiseMissed_only {N : Nat} {σ s : State} (q : Nat) (hσ : Only N σ s)
    (hN : 0x4000000000000001000000000000000000000000000000000000000001000 ||| N = N) : Only N σ (State.raiseMissed s q).2 := hσ.step (State.raiseMissed_within s q) hN

theorem State.raiseMissed_only_eq {N : Nat} {σ s t : State} {q : Nat} {v : Nat} (heq : State.raiseMissed s q = (v, t)) (hσ : Only N σ s)
    (hN : 0x4000000000000001000000000000000000000000000000000000000001000 ||| N = N) : Only N σ t := hσ.step (Only.snd heq (State.raiseMissed_within s q)) hN

theorem State.releaseHold_within (s : State) (q : Nat) (h : Hold) :
    Only 0x4004000000000000001000000000000000000000000000000000000000001000 s (State.releaseHold s q h).2 := by
  unfold State.releaseHold
  repeat' first
    | with_reducible exact Only.refl _ _
    | with_reducible refine Only.ite (fun _ => ?_) (fun _ => ?_)
    | with_reducible refine Only.foldl ?_ (fun _ _ => ?_)
    | with_reducible refine State.raiseMissed_only _ ?_ (by decide)
    | with_reducible refine State.raiseMissed_only_eq (by assumption) ?_ (by decide)
    | with_reducible refine State.setSeqX_only _ _ ?_ (by decide)
    | split

theorem State.releaseHold_only {N : Nat} {σ s : State} (q : Nat) (h : Hold) (hσ : Only N σ s)
    (hN : 0x4004000000000000001000000000000000000000000000000000000000001000 ||| N = N) : Only N σ (State.releaseHold s q h).2 := hσ.step (State.releaseHold_within s q h) hN

theorem State.releaseHold_only_eq {N : Nat} {σ s t : State} {q : Nat} {h : Hold} {v : Nat} (heq : State.releaseHold s q h = (v, t)) (hσ : Only N σ s)
    (hN : 0x4004000000000000001000000000000000000000000000000000000000001000 ||| N = N) : Only N σ t := hσ.step (Only.snd heq (State.releaseHold_within s q h)) hN

theorem State.launch_within (s : State) (q : Nat) :
    Only 0x20d7484400c000000810409000000000000000000000000000002000000000145000 s (State.launch s q).2 := by
  unfold State.launch
  repeat' first
    | with_reducible exact Only.refl _ _
    | with_reducible refine Only.ite (fun _ => ?_) (fun _ => ?_)
    | with_reducible refine Only.foldl ?_ (fun _ _ => ?_)
    | with_reducible refine State.releaseHold_only _ _ ?_ (by decide)
    | with_reducible refine State.releaseHold_only_eq (by assumption) ?_ (by decide)
    | with_reducible refine State.raiseMissed_only _ ?_ (by decide)
    | with_reducible refine State.raiseMissed_only_eq (by assumption) ?_ (by decide)
    | with_reducible refine State.resume_only _ _ ?_ (by decide)
    | with_reducible refine State.resume_only_eq (by assumption) ?_ (by decide)
    | with_reducible refine State.start_only _ _ ?_ (by decide)
    | with_reducible refine State.start_only_eq (by assumption) ?_ (by decide)
    | with_reducible refine State.decideEvent_only _ _ _ _ ?_ (by decide)
    | with_reducible refine State.decideEvent_only_eq (by assumption) ?_ (by decide)
    | with_reducible refine State.superseded_only ?_ (by decide)
    | split
    | extract_lets

theorem State.launch_only {N : Nat} {σ s : State} (q : Nat) (hσ : Only N σ s)
    (hN : 0x20d7484400c000000810409000000000000000000000000000002000000000145000 ||| N = N) : Only N σ (State.launch s q).2 := hσ.step (State.launch_within s q) hN

theorem State.launch_only_eq {N : Nat} {σ s t : State} {q : Nat} {v : Nat} (heq : State.launch s q = (v, t)) (hσ : Only N σ s)
    (hN : 0x20d7484400c000000810409000000000000000000000000000002000000000145000 ||| N = N) : Only N σ t := hσ.step (Only.snd heq (State.launch_within s q)) hN

theorem State.arrive_within (s : State) (q : Nat) (i : Nat) :
    Only 0x8400000000000000000000000000000000000000000000000000000000000000 s (State.arrive s q i) := by
  unfold State.arrive
  repeat' first
    | with_reducible exact Only.refl _ _
    | with_reducible refine Only.ite (fun _ => ?_) (fun _ => ?_)
    | with_reducible refine Only.foldl ?_ (fun _ _ => ?_)
    | with_reducible refine State.setBar_only _ _ _ ?_ (by decide)
    | with_reducible refine State.broadcastOp_only _ ?_ (by decide)

theorem State.arrive_only {N : Nat} {σ s : State} (q : Nat) (i : Nat) (hσ : Only N σ s)
    (hN : 0x8400000000000000000000000000000000000000000000000000000000000000 ||| N = N) : Only N σ (State.arrive s q i) := hσ.step (State.arrive_within s q i) hN

theorem State.barrierRelease_within (s : State) (q : Nat) (i : Nat) :
    Only 0xc000000000000001000000000000000000000000000000000000000000000000 s (State.barrierRelease s q i) := by
  unfold State.barrierRelease
  repeat' first
    | with_reducible exact Only.refl _ _
    | with_reducible refine Only.ite (fun _ => ?_) (fun _ => ?_)
    | with_reducible refine Only.foldl ?_ (fun _ _ => ?_)
    | with_reducible refine State.showArrived_only _ _ ?_ (by decide)
    | with_reducible refine State.setBar_only _ _ _ ?_ (by decide)
    | with_reducible refine State.setSeqX_only _ _ ?_ (by decide)
    | with_reducible refine State.set_only _ _ _ _ ?_ (by decide)
    | split
    | extract_lets

theorem State.barrierRelease_only {N : Nat} {σ s : State} (q : Nat) (i : Nat) (hσ : Only N σ s)
    (hN : 0xc000000000000001000000000000000000000000000000000000000000000000 ||| N = N) : Only N σ (State.barrierRelease s q i) := hσ.step (State.barrierRelease_within s q i) hN

theorem State.enterStall_within (s : State) (q : Nat) :
    Only 0x2d74844004001a4c030007000000000000200000000000000000000000000145000 s (State.enterStall s q) := by
  unfold State.enterStall
  repeat' first
    | with_reducible exact Only.refl _ _
    | with_reducible refine Only.ite (fun _ => ?_) (fun _ => ?_)
    | with_reducible refine Only.foldl ?_ (fun _ _ => ?_)
    | with_reducible refine State.servePends_getD_only _ _ ?_ ?_ (by decide)
    | with_reducible refine State.servePends_only (by assumption) ?_ (by decide)
    | with_reducible refine State.applyCommits_only _ ?_ (by decide)
    | with_reducible refine State.setSeqX_only _ _ ?_ (by decide)
    | with_reducible refine State.set_only _ _ _ _ ?_ (by decide)

theorem State.enterStall_only {N : Nat} {σ s : State} (q : Nat) (hσ : Only N σ s)
    (hN : 0x2d74844004001a4c030007000000000000200000000000000000000000000145000 ||| N = N) : Only N σ (State.enterStall s q) := hσ.step (State.enterStall_within s q) hN

theorem State.underrun_within (s : State) (q : Nat) (a : Nat) :
    Only 0x2d74844004003a4c030007000000000000200000000000000000000000000145000 s (State.underrun s q a) := by
  unfold State.underrun
  repeat' first
    | with_reducible exact Only.refl _ _
    | with_reducible refine Only.ite (fun _ => ?_) (fun _ => ?_)
    | with_reducible refine Only.foldl ?_ (fun _ _ => ?_)
    | with_reducible refine State.enterStall_only _ ?_ (by decide)
    | with_reducible refine State.beginStop_only _ _ _ _ ?_ (by decide)
    | with_reducible refine State.resteer_only _ _ ?_ (by decide)
    | with_reducible refine State.request_only _ ?_ (by decide)
    | with_reducible refine State.defer_only _ _ _ ?_ (by decide)
    | with_reducible refine State.setSeqX_only _ _ ?_ (by decide)
    | with_reducible refine State.post_only _ _ _ ?_ (by decide)
    | with_reducible refine State.set_only _ _ _ _ ?_ (by decide)
    | with_reducible refine State.hwSet_only _ _ _ ?_ (by decide)
    | with_reducible refine State.count_only _ _ _ _ _ ?_ (by decide)

theorem State.underrun_only {N : Nat} {σ s : State} (q : Nat) (a : Nat) (hσ : Only N σ s)
    (hN : 0x2d74844004003a4c030007000000000000200000000000000000000000000145000 ||| N = N) : Only N σ (State.underrun s q a) := hσ.step (State.underrun_within s q a) hN

theorem State.issue_within (s : State) (q : Nat) (a : Nat) (w : Nat) (words : List Nat) (c : Nat) (later : Bool) :
    Only 0x4000000000800000018000000000000000000000000000000000000000000000 s (State.issue s q a w words c later) := by
  unfold State.issue
  repeat' first
    | with_reducible exact Only.refl _ _
    | with_reducible refine Only.ite (fun _ => ?_) (fun _ => ?_)
    | with_reducible refine Only.foldl ?_ (fun _ _ => ?_)
    | with_reducible refine State.setSeqX_only _ _ ?_ (by decide)
    | with_reducible refine State.set_only _ _ _ _ ?_ (by decide)

theorem State.issue_only {N : Nat} {σ s : State} (q : Nat) (a : Nat) (w : Nat) (words : List Nat) (c : Nat) (later : Bool) (hσ : Only N σ s)
    (hN : 0x4000000000800000018000000000000000000000000000000000000000000000 ||| N = N) : Only N σ (State.issue s q a w words c later) := hσ.step (State.issue_within s q a w words c later) hN

theorem State.openPass_within (s : State) (q : Nat) :
    Only 0x4000000000000000000000000000000000000000000000000000000000000000 s (State.openPass s q) := by
  unfold State.openPass
  repeat' first
    | with_reducible exact Only.refl _ _
    | with_reducible refine Only.ite (fun _ => ?_) (fun _ => ?_)
    | with_reducible refine Only.foldl ?_ (fun _ _ => ?_)
    | with_reducible refine State.setSeqX_only _ _ ?_ (by decide)
    | split
    | extract_lets

theorem State.openPass_only {N : Nat} {σ s : State} (q : Nat) (hσ : Only N σ s)
    (hN : 0x4000000000000000000000000000000000000000000000000000000000000000 ||| N = N) : Only N σ (State.openPass s q) := hσ.step (State.openPass_within s q) hN

theorem State.beforeRecord_within (s : State) (q : Nat) (start : State → Nat) : Only 0x2d74844004001a4c030007000000000000200000000000000000000000000145000 s (s.beforeRecord q start).2 := by
  unfold State.beforeRecord
  extract_lets x dec t ready forced
  have ht : Only 0x2d74844004001a4c030007000000000000200000000000000000000000000145000 s t :=
    .ite (fun _ => State.pegCommit_only _ _ (State.setSeqX_only _ _ (.refl ..) (by decide)) (by decide)) (fun _ => .refl ..)
  clear_value t ready forced
  split
  · next h => exact State.servePends_only h ht (by decide)
  · split
    · dsimp only
      refine State.beginStop_only _ _ _ _ (State.post_only _ _ _ (State.hwSet_only _ _ _ ht ?_) ?_) ?_ <;> decide
    · split
      · dsimp only
        exact State.beginStop_only _ _ _ _ ht (by decide)
      · exact ht

theorem State.beforeRecord_only {N : Nat} {σ s : State} (q : Nat) (start : State → Nat) (hσ : Only N σ s)
    (hN : 0x2d74844004001a4c030007000000000000200000000000000000000000000145000 ||| N = N) : Only N σ (s.beforeRecord q start).2 := hσ.step (State.beforeRecord_within s q start) hN

theorem State.beforeRecord_only_eq {N : Nat} {σ s t : State} {q : Nat} {start : State → Nat} {v : Bool}
    (heq : s.beforeRecord q start = (v, t)) (hσ : Only N σ s) (hN : 0x2d74844004001a4c030007000000000000200000000000000000000000000145000 ||| N = N) : Only N σ t :=
  hσ.step (Only.snd heq (State.beforeRecord_within s q start)) hN

theorem State.go_only {N : Nat} {σ s : State} (q : Nat) (a : Nat) (words : List Nat) (c : Nat) (later : Bool) (eff : Effect) (heff : ∀ a w c t, Only N t (eff a w c t)) (hσ : Only N σ s)
    (hN : 0x4000000000800000019000000000000000000000000000000000000000000000 ||| N = N) : Only N σ (State.go s q a words c later eff) := by
  unfold State.go
  repeat' first
    | with_reducible exact hσ
    | with_reducible refine Only.ite (fun _ => ?_) (fun _ => ?_)
    | with_reducible refine Only.foldl ?_ (fun _ _ => ?_)
    | with_reducible refine State.openPass_only _ ?_ (sub_of (by decide) hN)
    | with_reducible refine State.issue_only _ _ _ _ _ _ ?_ (sub_of (by decide) hN)
    | with_reducible refine State.reachPage_only _ _ ?_ (sub_of (by decide) hN)
    | with_reducible refine State.setSeqX_only _ _ ?_ (sub_of (by decide) hN)
    | with_reducible refine State.set_only _ _ _ _ ?_ (sub_of (by decide) hN)
    | with_reducible refine Only.step ?_ (heff _ _ _ _) (Nat.or_self _)

theorem State.again_only {N : Nat} {σ s : State} (q : Nat) (op : Nat) (later : Bool) (eff : Effect) (heff : ∀ a w c t, Only N t (eff a w c t)) (hσ : Only N σ s)
    (hN : 0x2d74844004001a4c03001f000000000000200000000000000000000000000145000 ||| N = N) : Only N σ (State.again s q op later eff) := by
  unfold State.again
  repeat' first
    | with_reducible exact hσ
    | with_reducible refine Only.ite (fun _ => ?_) (fun _ => ?_)
    | with_reducible refine Only.foldl ?_ (fun _ _ => ?_)
    | with_reducible refine State.go_only _ _ _ _ _ _ heff ?_ (sub_of (by decide) hN)
    | with_reducible refine State.beforeRecord_only _ _ ?_ (sub_of (by decide) hN)
    | with_reducible refine State.beforeRecord_only_eq (by assumption) ?_ (sub_of (by decide) hN)
    | with_reducible refine State.gfStops_only _ _ ?_ (sub_of (by decide) hN)
    | with_reducible refine Only.step ?_ (heff _ _ _ _) (Nat.or_self _)
    | split

theorem State.decodeAt_only {N : Nat} {σ s : State} (q : Nat) (a : Nat) (op : Nat) (words : List Nat) (eff : Effect) (heff : ∀ a w c t, Only N t (eff a w c t)) (hσ : Only N σ s)
    (hN : 0x2d74844004001a4c03001f000000000000200000000000000000000000000145000 ||| N = N) : Only N σ (State.decodeAt s q a op words eff) := by
  unfold State.decodeAt
  repeat' first
    | with_reducible exact hσ
    | with_reducible refine Only.ite (fun _ => ?_) (fun _ => ?_)
    | with_reducible refine Only.foldl ?_ (fun _ _ => ?_)
    | with_reducible refine State.go_only _ _ _ _ _ _ heff ?_ (sub_of (by decide) hN)
    | with_reducible refine State.beforeRecord_only _ _ ?_ (sub_of (by decide) hN)
    | with_reducible refine State.beforeRecord_only_eq (by assumption) ?_ (sub_of (by decide) hN)
    | with_reducible refine State.fault_only _ _ _ _ ?_ (sub_of (by decide) hN)
    | with_reducible refine State.gfStops_only _ _ ?_ (sub_of (by decide) hN)
    | with_reducible refine Only.step ?_ (heff _ _ _ _) (Nat.or_self _)
    | split
    | extract_lets

theorem State.decodeNext_only {N : Nat} {σ s : State} (q : Nat) (op : Nat) (eff : Effect) (heff : ∀ a w c t, Only N t (eff a w c t)) (hσ : Only N σ s)
    (hN : 0x2d74844004023a4c03001f000000000000200000000000000000000000000145000 ||| N = N) : Only N σ (State.decodeNext s q op eff) := by
  unfold State.decodeNext
  repeat' first
    | with_reducible exact hσ
    | with_reducible refine Only.ite (fun _ => ?_) (fun _ => ?_)
    | with_reducible refine Only.foldl ?_ (fun _ _ => ?_)
    | with_reducible refine State.decodeAt_only _ _ _ _ _ heff ?_ (sub_of (by decide) hN)
    | with_reducible refine State.beforeRecord_only _ _ ?_ (sub_of (by decide) hN)
    | with_reducible refine State.beforeRecord_only_eq (by assumption) ?_ (sub_of (by decide) hN)
    | with_reducible refine State.underrun_only _ _ ?_ (sub_of (by decide) hN)
    | with_reducible refine State.fault_only _ _ _ _ ?_ (sub_of (by decide) hN)
    | with_reducible refine State.takeRecord_only (by assumption) ?_ (sub_of (by decide) hN)
    | with_reducible refine State.setSeqX_only _ _ ?_ (sub_of (by decide) hN)
    | with_reducible refine Only.step ?_ (heff _ _ _ _) (Nat.or_self _)
    | split

theorem State.endGap_within (s : State) (q : Nat) :
    Only 0x4000000000000000000000000000000000000000000000000000000000000000 s (State.endGap s q) := by
  unfold State.endGap
  repeat' first
    | with_reducible exact Only.refl _ _
    | with_reducible refine Only.ite (fun _ => ?_) (fun _ => ?_)
    | with_reducible refine Only.foldl ?_ (fun _ _ => ?_)
    | with_reducible refine State.setSeqX_only _ _ ?_ (by decide)
    | split
    | extract_lets

theorem State.endGap_only {N : Nat} {σ s : State} (q : Nat) (hσ : Only N σ s)
    (hN : 0x4000000000000000000000000000000000000000000000000000000000000000 ||| N = N) : Only N σ (State.endGap s q) := hσ.step (State.endGap_within s q) hN

theorem State.repeatHold_only {N : Nat} {σ s : State} (q : Nat) (op : Nat) (h : Hold) (eff : Effect) (heff : ∀ a w c t, Only N t (eff a w c t)) (hσ : Only N σ s)
    (hN : 0x2d74844004001a4c03001f000000000000200000000000000000000000000145000 ||| N = N) : Only N σ (State.repeatHold s q op h eff) := by
  unfold State.repeatHold
  repeat' first
    | with_reducible exact hσ
    | with_reducible refine Only.ite (fun _ => ?_) (fun _ => ?_)
    | with_reducible refine Only.foldl ?_ (fun _ _ => ?_)
    | with_reducible refine State.again_only _ _ _ _ heff ?_ (sub_of (by decide) hN)
    | with_reducible refine State.setSeqX_only _ _ ?_ (sub_of (by decide) hN)
    | with_reducible refine Only.step ?_ (heff _ _ _ _) (Nat.or_self _)
    | split

theorem State.record_only {N : Nat} {σ s : State} (q : Nat) (op : Nat) (eff : Effect) (heff : ∀ a w c t, Only N t (eff a w c t)) (hσ : Only N σ s)
    (hN : 0x2d74844004023a4c03001f000000000000200000000000000000000000000145000 ||| N = N) : Only N σ (State.record s q op eff) := by
  unfold State.record
  repeat' first
    | with_reducible exact hσ
    | with_reducible refine Only.ite (fun _ => ?_) (fun _ => ?_)
    | with_reducible refine Only.foldl ?_ (fun _ _ => ?_)
    | with_reducible refine State.repeatHold_only _ _ _ _ heff ?_ (sub_of (by decide) hN)
    | with_reducible refine State.endGap_only _ ?_ (sub_of (by decide) hN)
    | with_reducible refine State.decodeNext_only _ _ _ heff ?_ (sub_of (by decide) hN)
    | with_reducible refine State.again_only _ _ _ _ heff ?_ (sub_of (by decide) hN)
    | with_reducible refine Only.step ?_ (heff _ _ _ _) (Nat.or_self _)
    | split

theorem noEffect_within (y0 : Nat) (y1 : Nat) (y2 : Nat) (y3 : State) :
    Only 0x0 y3 (noEffect y0 y1 y2 y3) := by
  unfold noEffect
  repeat' first
    | with_reducible exact Only.refl _ _

theorem noEffect_only {N : Nat} {σ y3 : State} (y0 : Nat) (y1 : Nat) (y2 : Nat) (hσ : Only N σ y3)
    (hN : 0x0 ||| N = N) : Only N σ (noEffect y0 y1 y2 y3) := hσ.step (noEffect_within y0 y1 y2 y3) hN

theorem State.setLevels_within (s : State) (q : Nat) (l : List Level) :
    Only 0x4000000000000000000000000000000000000000000000000000000000000000 s (State.setLevels s q l) := by
  unfold State.setLevels
  repeat' first
    | with_reducible exact Only.refl _ _
    | with_reducible refine Only.ite (fun _ => ?_) (fun _ => ?_)
    | with_reducible refine Only.foldl ?_ (fun _ _ => ?_)
    | with_reducible refine State.setSeqX_only _ _ ?_ (by decide)

theorem State.setLevels_only {N : Nat} {σ s : State} (q : Nat) (l : List Level) (hσ : Only N σ s)
    (hN : 0x4000000000000000000000000000000000000000000000000000000000000000 ||| N = N) : Only N σ (State.setLevels s q l) := hσ.step (State.setLevels_within s q l) hN

theorem State.goTo_within (s : State) (q : Nat) (a : Nat) :
    Only 0x4000000000000000000000000000000000000000000000000000000000000000 s (State.goTo s q a) := by
  unfold State.goTo
  repeat' first
    | with_reducible exact Only.refl _ _
    | with_reducible refine Only.ite (fun _ => ?_) (fun _ => ?_)
    | with_reducible refine Only.foldl ?_ (fun _ _ => ?_)
    | with_reducible refine State.setSeqX_only _ _ ?_ (by decide)

theorem State.goTo_only {N : Nat} {σ s : State} (q : Nat) (a : Nat) (hσ : Only N σ s)
    (hN : 0x4000000000000000000000000000000000000000000000000000000000000000 ||| N = N) : Only N σ (State.goTo s q a) := hσ.step (State.goTo_within s q a) hN

theorem State.jump_within (s : State) (q : Nat) (w : Nat) :
    Only 0x4000000000000000000000000000000000000000000000000000000000000000 s (State.jump s q w) := by
  unfold State.jump
  repeat' first
    | with_reducible exact Only.refl _ _
    | with_reducible refine Only.ite (fun _ => ?_) (fun _ => ?_)
    | with_reducible refine Only.foldl ?_ (fun _ _ => ?_)
    | with_reducible refine State.goTo_only _ _ ?_ (by decide)
    | with_reducible refine State.setLevels_only _ _ ?_ (by decide)

theorem State.jump_only {N : Nat} {σ s : State} (q : Nat) (w : Nat) (hσ : Only N σ s)
    (hN : 0x4000000000000000000000000000000000000000000000000000000000000000 ||| N = N) : Only N σ (State.jump s q w) := hσ.step (State.jump_within s q w) hN

theorem State.setLf_within (s : State) (q : Nat) (i : Nat) (b : Bool) :
    Only 0x400000000000000000000000000000000000000000000000 s (State.setLf s q i b) := by
  unfold State.setLf
  repeat' first
    | with_reducible exact Only.refl _ _
    | with_reducible refine Only.ite (fun _ => ?_) (fun _ => ?_)
    | with_reducible refine Only.foldl ?_ (fun _ _ => ?_)
    | with_reducible refine State.set_only _ _ _ _ ?_ (by decide)

theorem State.setLf_only {N : Nat} {σ s : State} (q : Nat) (i : Nat) (b : Bool) (hσ : Only N σ s)
    (hN : 0x400000000000000000000000000000000000000000000000 ||| N = N) : Only N σ (State.setLf s q i b) := hσ.step (State.setLf_within s q i b) hN

end Sys2Proof.Machine
end

