-- ==== Sys2Proof/Laws/Frame/OpsCmd.lean ====
section
/-!
SUPPORT. OpsCmd.lean: what each operation of Machine/OpsCmd.lean can change (see Only).
-/
namespace Sys2Proof.Machine
set_option Elab.async false

theorem State.askDescriptors_within (s : State) (q : Nat) (i : Nat) (y0 : Nat) :
    Only 0x40000000000000000000000000000000000000000000000000000000000000 s (State.askDescriptors s q i y0) := by
  induction y0 generalizing s q i with
  | zero =>
    unfold State.askDescriptors
    repeat' first
      | with_reducible exact Only.refl _ _

  | succ n ih =>
    unfold State.askDescriptors
    repeat' first
      | with_reducible exact Only.refl _ _
      | with_reducible refine Only.ite (fun _ => ?_) (fun _ => ?_)
      | with_reducible refine Only.foldl ?_ (fun _ _ => ?_)
      | with_reducible refine State.emit_only _ ?_ (by decide)
      | exact ih ..
      | refine Only.step ?_ (ih ..) (by decide)


theorem State.askDescriptors_only {N : Nat} {σ s : State} (q : Nat) (i : Nat) (y0 : Nat) (hσ : Only N σ s)
    (hN : 0x40000000000000000000000000000000000000000000000000000000000000 ||| N = N) : Only N σ (State.askDescriptors s q i y0) := hσ.step (State.askDescriptors_within s q i y0) hN

theorem State.dbOverrun_within (s : State) (q : Nat) (idx : Nat) :
    Only 0x844000000000000000000000000000000000000000000000000000000145000 s (State.dbOverrun s q idx) := by
  unfold State.dbOverrun
  repeat' first
    | with_reducible exact Only.refl _ _
    | with_reducible refine Only.ite (fun _ => ?_) (fun _ => ?_)
    | with_reducible refine Only.foldl ?_ (fun _ _ => ?_)
    | with_reducible refine State.post_only _ _ _ ?_ (by decide)
    | with_reducible refine State.hwSet_only _ _ _ ?_ (by decide)

theorem State.dbOverrun_only {N : Nat} {σ s : State} (q : Nat) (idx : Nat) (hσ : Only N σ s)
    (hN : 0x844000000000000000000000000000000000000000000000000000000145000 ||| N = N) : Only N σ (State.dbOverrun s q idx) := hσ.step (State.dbOverrun_within s q idx) hN

theorem State.ringDoorbell_within (s : State) (q : Nat) (idx : Nat) :
    Only 0x844000000000000000000000000000000000000000000000000000000145000 s (State.ringDoorbell s q idx) := by
  unfold State.ringDoorbell
  repeat' first
    | with_reducible exact Only.refl _ _
    | with_reducible refine Only.ite (fun _ => ?_) (fun _ => ?_)
    | with_reducible refine Only.foldl ?_ (fun _ _ => ?_)
    | with_reducible refine State.dbOverrun_only _ _ ?_ (by decide)
    | with_reducible refine State.askDescriptors_only _ _ _ ?_ (by decide)
    | with_reducible refine State.reportLost_only _ ?_ (by decide)
    | with_reducible refine State.set_only _ _ _ _ ?_ (by decide)

theorem State.ringDoorbell_only {N : Nat} {σ s : State} (q : Nat) (idx : Nat) (hσ : Only N σ s)
    (hN : 0x844000000000000000000000000000000000000000000000000000000145000 ||| N = N) : Only N σ (State.ringDoorbell s q idx) := hσ.step (State.ringDoorbell_within s q idx) hN

theorem State.doorbell_within (s : State) (q : Nat) (value : Nat) :
    Only 0x844000000000000000000000000000000000000000000000000000000145000 s (State.doorbell s q value) := by
  unfold State.doorbell
  repeat' first
    | with_reducible exact Only.refl _ _
    | with_reducible refine Only.ite (fun _ => ?_) (fun _ => ?_)
    | with_reducible refine Only.foldl ?_ (fun _ _ => ?_)
    | with_reducible refine State.ringDoorbell_only _ _ ?_ (by decide)
    | with_reducible refine State.decideEvent_only _ _ _ _ ?_ (by decide)
    | with_reducible refine State.decideEvent_only_eq (by assumption) ?_ (by decide)
    | with_reducible refine State.hwSet_only _ _ _ ?_ (by decide)
    | with_reducible refine State.superseded_only ?_ (by decide)
    | split

theorem State.doorbell_only {N : Nat} {σ s : State} (q : Nat) (value : Nat) (hσ : Only N σ s)
    (hN : 0x844000000000000000000000000000000000000000000000000000000145000 ||| N = N) : Only N σ (State.doorbell s q value) := hσ.step (State.doorbell_within s q value) hN

theorem State.resetDone_within (s : State) (q : Nat) :
    Only 0x20000844000000000000000000000000000000000000000000000000000000145000 s (State.resetDone s q) := by
  unfold State.resetDone
  repeat' first
    | with_reducible exact Only.refl _ _
    | with_reducible refine Only.ite (fun _ => ?_) (fun _ => ?_)
    | with_reducible refine Only.foldl ?_ (fun _ _ => ?_)
    | fail_if_no_progress with_reducible refine Only.fields ?_ rfl rfl
    | with_reducible refine State.post_only _ _ _ ?_ (by decide)

theorem State.resetDone_only {N : Nat} {σ s : State} (q : Nat) (hσ : Only N σ s)
    (hN : 0x20000844000000000000000000000000000000000000000000000000000000145000 ||| N = N) : Only N σ (State.resetDone s q) := hσ.step (State.resetDone_within s q) hN

theorem State.ringEnableOp_within (s : State) (q : Nat) :
    Only 0x20000844000000000000000000000000000000000000000000000000000000145000 s (State.ringEnableOp s q) := by
  unfold State.ringEnableOp
  repeat' first
    | with_reducible exact Only.refl _ _
    | with_reducible refine Only.ite (fun _ => ?_) (fun _ => ?_)
    | with_reducible refine Only.foldl ?_ (fun _ _ => ?_)
    | with_reducible refine State.resetDone_only _ ?_ (by decide)
    | with_reducible refine State.setRingX_only _ _ ?_ (by decide)
    | with_reducible refine State.set_only _ _ _ _ ?_ (by decide)

theorem State.ringEnableOp_only {N : Nat} {σ s : State} (q : Nat) (hσ : Only N σ s)
    (hN : 0x20000844000000000000000000000000000000000000000000000000000000145000 ||| N = N) : Only N σ (State.ringEnableOp s q) := hσ.step (State.ringEnableOp_within s q) hN

theorem State.drain_within (s : State) (q : Nat) :
    Only 0x844000000000000000000000000000000000000000000000000000000145000 s (State.drain s q) := by
  unfold State.drain
  repeat' first
    | with_reducible exact Only.refl _ _
    | with_reducible refine Only.ite (fun _ => ?_) (fun _ => ?_)
    | with_reducible refine Only.foldl ?_ (fun _ _ => ?_)
    | with_reducible refine State.releaseBarriers_only  ?_ (by decide)
    | with_reducible refine State.drained_only _ ?_ (by decide)
    | with_reducible refine State.capBarriers_only _ _ ?_ (by decide)
    | with_reducible refine State.setRingX_only _ _ ?_ (by decide)
    | with_reducible refine State.set_only _ _ _ _ ?_ (by decide)

theorem State.drain_only {N : Nat} {σ s : State} (q : Nat) (hσ : Only N σ s)
    (hN : 0x844000000000000000000000000000000000000000000000000000000145000 ||| N = N) : Only N σ (State.drain s q) := hσ.step (State.drain_within s q) hN

theorem State.ringResetOp_within (s : State) (q : Nat) :
    Only 0x844000000000000000000000000000000000000000000000000000000145000 s (State.ringResetOp s q) := by
  unfold State.ringResetOp
  repeat' first
    | with_reducible exact Only.refl _ _
    | with_reducible refine Only.ite (fun _ => ?_) (fun _ => ?_)
    | with_reducible refine Only.foldl ?_ (fun _ _ => ?_)
    | with_reducible refine State.releaseBarriers_only  ?_ (by decide)
    | with_reducible refine State.capBarriers_only _ _ ?_ (by decide)
    | with_reducible refine State.setRingX_only _ _ ?_ (by decide)
    | with_reducible refine State.set_only _ _ _ _ ?_ (by decide)

theorem State.ringResetOp_only {N : Nat} {σ s : State} (q : Nat) (hσ : Only N σ s)
    (hN : 0x844000000000000000000000000000000000000000000000000000000145000 ||| N = N) : Only N σ (State.ringResetOp s q) := hσ.step (State.ringResetOp_within s q) hN

theorem State.holdBarrier_within (s : State) (q : Nat) (mask : Nat) :
    Only 0x844000000000000000000000000000000000000000000000000000000145000 s (State.holdBarrier s q mask) := by
  unfold State.holdBarrier
  repeat' first
    | with_reducible exact Only.refl _ _
    | with_reducible refine Only.ite (fun _ => ?_) (fun _ => ?_)
    | with_reducible refine Only.foldl ?_ (fun _ _ => ?_)
    | with_reducible refine State.releaseBarriers_only  ?_ (by decide)
    | with_reducible refine State.capBarriers_only _ _ ?_ (by decide)
    | with_reducible refine State.setRingX_only _ _ ?_ (by decide)

theorem State.holdBarrier_only {N : Nat} {σ s : State} (q : Nat) (mask : Nat) (hσ : Only N σ s)
    (hN : 0x844000000000000000000000000000000000000000000000000000000145000 ||| N = N) : Only N σ (State.holdBarrier s q mask) := hσ.step (State.holdBarrier_within s q mask) hN

theorem State.hostMail_within (s : State) (d : Desc) (tok : Token) :
    Only 0x1c44000000000000000000000000000000000080400000000200000000145000 s (State.hostMail s d tok) := by
  unfold State.hostMail
  repeat' first
    | with_reducible exact Only.refl _ _
    | with_reducible refine Only.ite (fun _ => ?_) (fun _ => ?_)
    | with_reducible refine Only.foldl ?_ (fun _ _ => ?_)
    | fail_if_no_progress with_reducible refine Only.fields ?_ rfl rfl
    | with_reducible refine State.unicast_only _ _ _ _ _ _ ?_ (by decide)
    | with_reducible refine State.inboxPut_only _ ?_ (by decide)
    | with_reducible refine State.completeSame_only _ _ ?_ (by decide)
    | split

theorem State.hostMail_only {N : Nat} {σ s : State} (d : Desc) (tok : Token) (hσ : Only N σ s)
    (hN : 0x1c44000000000000000000000000000000000080400000000200000000145000 ||| N = N) : Only N σ (State.hostMail s d tok) := hσ.step (State.hostMail_within s d tok) hN

end Sys2Proof.Machine
end

