-- ==== Sys2Proof/Laws/Frame/OpsFe.lean ====
section
/-!
SUPPORT. OpsFe.lean: what each operation of Machine/OpsFe.lean can change (see Only).
-/
namespace Sys2Proof.Machine
set_option Elab.async false

theorem State.setFe_within (s : State) (b : Nat) (x : FeX) :
    Only 0x1000000000000000000000000000000000000000000000000000000000000000000 s (State.setFe s b x) := by
  unfold State.setFe
  repeat' first
    | with_reducible exact Only.refl _ _
    | with_reducible refine Only.ite (fun _ => ?_) (fun _ => ?_)
    | with_reducible refine Only.foldl ?_ (fun _ _ => ?_)
    | fail_if_no_progress with_reducible refine Only.fields ?_ rfl rfl

theorem State.setFe_only {N : Nat} {σ s : State} (b : Nat) (x : FeX) (hσ : Only N σ s)
    (hN : 0x1000000000000000000000000000000000000000000000000000000000000000000 ||| N = N) : Only N σ (State.setFe s b x) := hσ.step (State.setFe_within s b x) hN

theorem State.fePut_within (s : State) (b : Nat) (ws : List (Nat × Nat)) :
    Only 0x1000000000000000000000000000000000000000000000000000000000000000000 s (State.fePut s b ws) := by
  unfold State.fePut
  repeat' first
    | with_reducible exact Only.refl _ _
    | with_reducible refine Only.ite (fun _ => ?_) (fun _ => ?_)
    | with_reducible refine Only.foldl ?_ (fun _ _ => ?_)
    | with_reducible refine State.setFe_only _ _ ?_ (by decide)

theorem State.fePut_only {N : Nat} {σ s : State} (b : Nat) (ws : List (Nat × Nat)) (hσ : Only N σ s)
    (hN : 0x1000000000000000000000000000000000000000000000000000000000000000000 ||| N = N) : Only N σ (State.fePut s b ws) := hσ.step (State.fePut_within s b ws) hN

theorem State.feStage_within (s : State) (b : Nat) (list : Nat) (words : List Nat) :
    Only 0x1000000000000000000000000000000000000000000000000000000000000000000 s (State.feStage s b list words) := by
  unfold State.feStage
  repeat' first
    | with_reducible exact Only.refl _ _
    | with_reducible refine Only.ite (fun _ => ?_) (fun _ => ?_)
    | with_reducible refine Only.foldl ?_ (fun _ _ => ?_)
    | with_reducible refine State.fePut_only _ _ ?_ (by decide)
    | with_reducible refine State.setFe_only _ _ ?_ (by decide)

theorem State.feStage_only {N : Nat} {σ s : State} (b : Nat) (list : Nat) (words : List Nat) (hσ : Only N σ s)
    (hN : 0x1000000000000000000000000000000000000000000000000000000000000000000 ||| N = N) : Only N σ (State.feStage s b list words) := hσ.step (State.feStage_within s b list words) hN

theorem State.feBegin_within (s : State) (b : Nat) (list : Nat) (k : Nat) :
    Only 0x1000000000000000000000002000000000000000000000000000000000000000000 s (State.feBegin s b list k) := by
  unfold State.feBegin
  repeat' first
    | with_reducible exact Only.refl _ _
    | with_reducible refine Only.ite (fun _ => ?_) (fun _ => ?_)
    | with_reducible refine Only.foldl ?_ (fun _ _ => ?_)
    | with_reducible refine State.setFe_only _ _ ?_ (by decide)
    | with_reducible refine State.set_only _ _ _ _ ?_ (by decide)

theorem State.feBegin_only {N : Nat} {σ s : State} (b : Nat) (list : Nat) (k : Nat) (hσ : Only N σ s)
    (hN : 0x1000000000000000000000002000000000000000000000000000000000000000000 ||| N = N) : Only N σ (State.feBegin s b list k) := hσ.step (State.feBegin_within s b list k) hN

theorem State.feOverrun_within (s : State) (b : Nat) :
    Only 0x4000000000000000002000000000000000000000000000000000000001000 s (State.feOverrun s b) := by
  unfold State.feOverrun
  repeat' first
    | with_reducible exact Only.refl _ _
    | with_reducible refine Only.ite (fun _ => ?_) (fun _ => ?_)
    | with_reducible refine Only.foldl ?_ (fun _ _ => ?_)
    | with_reducible refine State.count_only _ _ _ _ _ ?_ (by decide)

theorem State.feOverrun_only {N : Nat} {σ s : State} (b : Nat) (hσ : Only N σ s)
    (hN : 0x4000000000000000002000000000000000000000000000000000000001000 ||| N = N) : Only N σ (State.feOverrun s b) := hσ.step (State.feOverrun_within s b) hN

theorem State.feRequest_within (s : State) (b : Nat) (list : Nat) (cal : Bool) :
    Only 0x1000004000000000000000002000000000000000000000000000000000000001000 s (State.feRequest s b list cal) := by
  unfold State.feRequest
  repeat' first
    | with_reducible exact Only.refl _ _
    | with_reducible refine Only.ite (fun _ => ?_) (fun _ => ?_)
    | with_reducible refine Only.foldl ?_ (fun _ _ => ?_)
    | with_reducible refine State.feOverrun_only _ ?_ (by decide)
    | with_reducible refine State.feBegin_only _ _ _ ?_ (by decide)
    | with_reducible refine State.set_only _ _ _ _ ?_ (by decide)

theorem State.feRequest_only {N : Nat} {σ s : State} (b : Nat) (list : Nat) (cal : Bool) (hσ : Only N σ s)
    (hN : 0x1000004000000000000000002000000000000000000000000000000000000001000 ||| N = N) : Only N σ (State.feRequest s b list cal) := hσ.step (State.feRequest_within s b list cal) hN

theorem State.feEnd_within (s : State) (b : Nat) :
    Only 0x1000000000000000000000002000000000000000000000000000000000000000000 s (State.feEnd s b) := by
  unfold State.feEnd
  repeat' first
    | with_reducible exact Only.refl _ _
    | with_reducible refine Only.ite (fun _ => ?_) (fun _ => ?_)
    | with_reducible refine Only.foldl ?_ (fun _ _ => ?_)
    | with_reducible refine State.feBegin_only _ _ _ ?_ (by decide)
    | with_reducible refine State.fePut_only _ _ ?_ (by decide)
    | with_reducible refine State.setFe_only _ _ ?_ (by decide)
    | with_reducible refine State.set_only _ _ _ _ ?_ (by decide)

theorem State.feEnd_only {N : Nat} {σ s : State} (b : Nat) (hσ : Only N σ s)
    (hN : 0x1000000000000000000000002000000000000000000000000000000000000000000 ||| N = N) : Only N σ (State.feEnd s b) := hσ.step (State.feEnd_within s b) hN

theorem State.feNext_within (s : State) (b : Nat) (at_ : Nat) :
    Only 0x1000000000000000000000002000000000000000000000000000000000000000000 s (State.feNext s b at_) := by
  unfold State.feNext
  repeat' first
    | with_reducible exact Only.refl _ _
    | with_reducible refine Only.ite (fun _ => ?_) (fun _ => ?_)
    | with_reducible refine Only.foldl ?_ (fun _ _ => ?_)
    | with_reducible refine State.feEnd_only _ ?_ (by decide)
    | with_reducible refine State.setFe_only _ _ ?_ (by decide)

theorem State.feNext_only {N : Nat} {σ s : State} (b : Nat) (at_ : Nat) (hσ : Only N σ s)
    (hN : 0x1000000000000000000000002000000000000000000000000000000000000000000 ||| N = N) : Only N σ (State.feNext s b at_) := hσ.step (State.feNext_within s b at_) hN

theorem State.feAbort_within (s : State) (b : Nat) :
    Only 0x1000000000000000000000002000000000000000000000000000000000000000000 s (State.feAbort s b) := by
  unfold State.feAbort
  repeat' first
    | with_reducible exact Only.refl _ _
    | with_reducible refine Only.ite (fun _ => ?_) (fun _ => ?_)
    | with_reducible refine Only.foldl ?_ (fun _ _ => ?_)
    | with_reducible refine State.feEnd_only _ ?_ (by decide)
    | with_reducible refine State.setFe_only _ _ ?_ (by decide)
    | with_reducible refine State.set_only _ _ _ _ ?_ (by decide)

theorem State.feAbort_only {N : Nat} {σ s : State} (b : Nat) (hσ : Only N σ s)
    (hN : 0x1000000000000000000000002000000000000000000000000000000000000000000 ||| N = N) : Only N σ (State.feAbort s b) := hσ.step (State.feAbort_within s b) hN

theorem State.feReset_within (s : State) (b : Nat) :
    Only 0x1000000000000000000000000000000000000000000000000000000000000000000 s (State.feReset s b) := by
  unfold State.feReset
  repeat' first
    | with_reducible exact Only.refl _ _
    | with_reducible refine Only.ite (fun _ => ?_) (fun _ => ?_)
    | with_reducible refine Only.foldl ?_ (fun _ _ => ?_)
    | with_reducible refine State.setFe_only _ _ ?_ (by decide)

theorem State.feReset_only {N : Nat} {σ s : State} (b : Nat) (hσ : Only N σ s)
    (hN : 0x1000000000000000000000000000000000000000000000000000000000000000000 ||| N = N) : Only N σ (State.feReset s b) := hσ.step (State.feReset_within s b) hN

end Sys2Proof.Machine
end

