-- ==== Sys2Proof/Laws/Frame/OpsTim.lean ====
section
/-!
SUPPORT. OpsTim.lean: what each operation of Machine/OpsTim.lean can change (see Only).
-/
namespace Sys2Proof.Machine
set_option Elab.async false

theorem State.setTim_within (s : State) (m : Nat) (x : TimX) :
    Only 0x8000000000000000000000000000000000000000000000000000000000000000000 s (State.setTim s m x) := by
  unfold State.setTim
  repeat' first
    | with_reducible exact Only.refl _ _
    | with_reducible refine Only.ite (fun _ => ?_) (fun _ => ?_)
    | with_reducible refine Only.foldl ?_ (fun _ _ => ?_)
    | fail_if_no_progress with_reducible refine Only.fields ?_ rfl rfl

theorem State.setTim_only {N : Nat} {σ s : State} (m : Nat) (x : TimX) (hσ : Only N σ s)
    (hN : 0x8000000000000000000000000000000000000000000000000000000000000000000 ||| N = N) : Only N σ (State.setTim s m x) := hσ.step (State.setTim_within s m x) hN

theorem State.timSet_only {N : Nat} {σ s : State} (f : Fld) (m v : Nat) (h : Only N σ s) (hN : f.mask ||| N = N) :
    Only N σ (s.timSet f m v) := State.set_only _ _ _ _ h hN

theorem State.timCount_only {N : Nat} {σ s : State} (f : Fld) (m n : Nat) (h : Only N σ s)
    (hN : f.mask ||| F.bayTimStatCountSaturated.mask ||| evMask ||| N = N) : Only N σ (s.timCount f m n) := State.count_only _ _ _ _ _ h hN

theorem State.timBegin_within (s : State) (m : Nat) :
    Only 0x8000000000000000000000000400000000000000000000000000000000000000000 s (State.timBegin s m) := by
  unfold State.timBegin
  simp only [timFlags, List.foldl_cons, List.foldl_nil]
  repeat' first
    | with_reducible exact Only.refl _ _
    | with_reducible refine Only.ite (fun _ => ?_) (fun _ => ?_)
    | with_reducible refine Only.foldl ?_ (fun _ _ => ?_)
    | with_reducible refine OnlyOut.next ?_
    | with_reducible refine OnlyOut.ite (fun _ => ?_) (fun _ => ?_)
    | with_reducible refine State.timSet_only _ _ _ ?_ (by decide)
    | with_reducible refine State.setTim_only _ _ ?_ (by decide)

theorem State.timBegin_only {N : Nat} {σ s : State} (m : Nat) (hσ : Only N σ s)
    (hN : 0x8000000000000000000000000400000000000000000000000000000000000000000 ||| N = N) : Only N σ (State.timBegin s m) := hσ.step (State.timBegin_within s m) hN

theorem State.timArm_within (s : State) (m : Nat) (src : Src) :
    Only 0x8000004000000000000000000400000000000000000000000000000000000001000 s (State.timArm s m src) := by
  unfold State.timArm
  repeat' first
    | with_reducible exact Only.refl _ _
    | with_reducible refine Only.ite (fun _ => ?_) (fun _ => ?_)
    | with_reducible refine Only.foldl ?_ (fun _ _ => ?_)
    | with_reducible refine State.timBegin_only _ ?_ (by decide)
    | with_reducible refine State.timCount_only _ _ _ ?_ (by decide)
    | with_reducible refine Only.onObj ?_ (fun _ => ?_) (by decide)

theorem State.timArm_only {N : Nat} {σ s : State} (m : Nat) (src : Src) (hσ : Only N σ s)
    (hN : 0x8000004000000000000000000400000000000000000000000000000000000001000 ||| N = N) : Only N σ (State.timArm s m src) := hσ.step (State.timArm_within s m src) hN

theorem State.armsDue_within (s : State) (m : Nat) :
    Only 0x8004004000000000000000000400000000000000000000000000000000000001000 s (State.armsDue s m) := by
  unfold State.armsDue
  repeat' first
    | with_reducible exact Only.refl _ _
    | with_reducible refine Only.ite (fun _ => ?_) (fun _ => ?_)
    | with_reducible refine Only.foldl ?_ (fun _ _ => ?_)
    | with_reducible refine State.timArm_only _ _ ?_ (by decide)
    | with_reducible refine State.setSeqX_only _ _ ?_ (by decide)

theorem State.armsDue_only {N : Nat} {σ s : State} (m : Nat) (hσ : Only N σ s)
    (hN : 0x8004004000000000000000000400000000000000000000000000000000000001000 ||| N = N) : Only N σ (State.armsDue s m) := hσ.step (State.armsDue_within s m) hN

theorem State.timValues_within (s : State) (m : Nat) :
    Only 0x80000000000000000000400000000000000000000000000000000000000000 s (State.timValues s m).2 := by
  unfold State.timValues
  repeat' first
    | with_reducible exact Only.refl _ _
    | with_reducible refine Only.ite (fun _ => ?_) (fun _ => ?_)
    | with_reducible refine Only.foldl ?_ (fun _ _ => ?_)
    | with_reducible refine State.timSet_only _ _ _ ?_ (by decide)
    | with_reducible refine State.useFree_only  ?_ (by decide)
    | split
    | extract_lets

theorem State.timValues_only {N : Nat} {σ s : State} (m : Nat) (hσ : Only N σ s)
    (hN : 0x80000000000000000000400000000000000000000000000000000000000000 ||| N = N) : Only N σ (State.timValues s m).2 := hσ.step (State.timValues_within s m) hN

theorem State.timValues_only_eq {N : Nat} {σ s t : State} {m : Nat} {v : (Nat × Nat)} (heq : State.timValues s m = (v, t)) (hσ : Only N σ s)
    (hN : 0x80000000000000000000400000000000000000000000000000000000000000 ||| N = N) : Only N σ t := hσ.step (Only.snd heq (State.timValues_within s m)) hN

theorem State.timDone_within (s : State) (m : Nat) (result : Nat) (aux : Nat) :
    Only 0x8001844000000000000000000700000000000000000400000000000000000145000 s (State.timDone s m result aux) := by
  unfold State.timDone
  repeat' first
    | with_reducible exact Only.refl _ _
    | with_reducible refine Only.ite (fun _ => ?_) (fun _ => ?_)
    | with_reducible refine Only.foldl ?_ (fun _ _ => ?_)
    | with_reducible refine State.timSet_only _ _ _ ?_ (by decide)
    | with_reducible refine State.setTim_only _ _ ?_ (by decide)
    | with_reducible refine State.setFlags_only _ _ _ ?_ (by decide)
    | with_reducible refine State.post_only _ _ _ ?_ (by decide)

theorem State.timDone_only {N : Nat} {σ s : State} (m : Nat) (result : Nat) (aux : Nat) (hσ : Only N σ s)
    (hN : 0x8001844000000000000000000700000000000000000400000000000000000145000 ||| N = N) : Only N σ (State.timDone s m result aux) := hσ.step (State.timDone_within s m result aux) hN

theorem State.timIdle_within (s : State) (m : Nat) :
    Only 0x8000000000000000000000000400000000000000000000000000000000000000000 s (State.timIdle s m) := by
  unfold State.timIdle
  repeat' first
    | with_reducible exact Only.refl _ _
    | with_reducible refine Only.ite (fun _ => ?_) (fun _ => ?_)
    | with_reducible refine Only.foldl ?_ (fun _ _ => ?_)
    | with_reducible refine State.timSet_only _ _ _ ?_ (by decide)
    | with_reducible refine State.setTim_only _ _ ?_ (by decide)

theorem State.timIdle_only {N : Nat} {σ s : State} (m : Nat) (hσ : Only N σ s)
    (hN : 0x8000000000000000000000000400000000000000000000000000000000000000000 ||| N = N) : Only N σ (State.timIdle s m) := hσ.step (State.timIdle_within s m) hN

theorem State.timLost_within (s : State) (m : Nat) (n : Nat) :
    Only 0x8000004000000000000000000600000000000000000000000000000000000001000 s (State.timLost s m n) := by
  unfold State.timLost
  repeat' first
    | with_reducible exact Only.refl _ _
    | with_reducible refine Only.ite (fun _ => ?_) (fun _ => ?_)
    | with_reducible refine Only.foldl ?_ (fun _ _ => ?_)
    | with_reducible refine State.timCount_only _ _ _ ?_ (by decide)
    | with_reducible refine State.timSet_only _ _ _ ?_ (by decide)
    | with_reducible refine State.setTim_only _ _ ?_ (by decide)

theorem State.timLost_only {N : Nat} {σ s : State} (m : Nat) (n : Nat) (hσ : Only N σ s)
    (hN : 0x8000004000000000000000000600000000000000000000000000000000000001000 ||| N = N) : Only N σ (State.timLost s m n) := hσ.step (State.timLost_within s m n) hN

theorem State.addStamp_within (s : State) (m : Nat) (st : Stamp) :
    Only 0x8000004000000000000000000600000000000000000000000000000000000001000 s (State.addStamp s m st) := by
  unfold State.addStamp
  repeat' first
    | with_reducible exact Only.refl _ _
    | with_reducible refine Only.ite (fun _ => ?_) (fun _ => ?_)
    | with_reducible refine Only.foldl ?_ (fun _ _ => ?_)
    | with_reducible refine State.timLost_only _ _ ?_ (by decide)
    | with_reducible refine State.setTim_only _ _ ?_ (by decide)

theorem State.addStamp_only {N : Nat} {σ s : State} (m : Nat) (st : Stamp) (hσ : Only N σ s)
    (hN : 0x8000004000000000000000000600000000000000000000000000000000000001000 ||| N = N) : Only N σ (State.addStamp s m st) := hσ.step (State.addStamp_within s m st) hN

theorem State.lossEntry_within (s : State) (m : Nat) :
    Only 0xc200944000000000000000000000c00000000000000000000002000000000145000 s (State.lossEntry s m) := by
  unfold State.lossEntry
  repeat' first
    | with_reducible exact Only.refl _ _
    | with_reducible refine Only.ite (fun _ => ?_) (fun _ => ?_)
    | with_reducible refine Only.foldl ?_ (fun _ _ => ?_)
    | with_reducible refine State.setTim_only _ _ ?_ (by decide)
    | with_reducible refine State.ringPut_only _ _ ?_ (by decide)
    | with_reducible refine State.ringPut_only_eq (by assumption) ?_ (by decide)
    | with_reducible refine State.post_only _ _ _ ?_ (by decide)
    | split

theorem State.lossEntry_only {N : Nat} {σ s : State} (m : Nat) (hσ : Only N σ s)
    (hN : 0xc200944000000000000000000000c00000000000000000000002000000000145000 ||| N = N) : Only N σ (State.lossEntry s m) := hσ.step (State.lossEntry_within s m) hN

theorem State.seriesEntry_within (s : State) (m : Nat) :
    Only 0xc200944000000000000000000600c00000000000000000000002000000000145000 s (State.seriesEntry s m) := by
  unfold State.seriesEntry
  repeat' first
    | with_reducible exact Only.refl _ _
    | with_reducible refine Only.ite (fun _ => ?_) (fun _ => ?_)
    | with_reducible refine Only.foldl ?_ (fun _ _ => ?_)
    | with_reducible refine State.lossEntry_only _ ?_ (by decide)
    | with_reducible refine State.timLost_only _ _ ?_ (by decide)
    | with_reducible refine State.setTim_only _ _ ?_ (by decide)
    | with_reducible refine State.ringPut_only _ _ ?_ (by decide)
    | with_reducible refine State.ringPut_only_eq (by assumption) ?_ (by decide)
    | split
    | extract_lets

theorem State.seriesEntry_only {N : Nat} {σ s : State} (m : Nat) (hσ : Only N σ s)
    (hN : 0xc200944000000000000000000600c00000000000000000000002000000000145000 ||| N = N) : Only N σ (State.seriesEntry s m) := hσ.step (State.seriesEntry_within s m) hN

theorem State.flushSeries_within (s : State) (m : Nat) (y0 : Nat) :
    Only 0xc200944000000000000000000600c00000000000000000000002000000000145000 s (State.flushSeries s m y0) := by
  induction y0 generalizing s m with
  | zero =>
    unfold State.flushSeries
    repeat' first
      | with_reducible exact Only.refl _ _

  | succ n ih =>
    unfold State.flushSeries
    repeat' first
      | with_reducible exact Only.refl _ _
      | with_reducible refine Only.ite (fun _ => ?_) (fun _ => ?_)
      | with_reducible refine Only.foldl ?_ (fun _ _ => ?_)
      | with_reducible refine State.seriesEntry_only _ ?_ (by decide)
      | exact ih ..
      | refine Only.step ?_ (ih ..) (by decide)


theorem State.flushSeries_only {N : Nat} {σ s : State} (m : Nat) (y0 : Nat) (hσ : Only N σ s)
    (hN : 0xc200944000000000000000000600c00000000000000000000002000000000145000 ||| N = N) : Only N σ (State.flushSeries s m y0) := hσ.step (State.flushSeries_within s m y0) hN

theorem State.endSeries_within (s : State) (m : Nat) :
    Only 0xc2019c4000000000000000000700c00000000000000400000002000000000145000 s (State.endSeries s m) := by
  unfold State.endSeries
  repeat' first
    | with_reducible exact Only.refl _ _
    | with_reducible refine Only.ite (fun _ => ?_) (fun _ => ?_)
    | with_reducible refine Only.foldl ?_ (fun _ _ => ?_)
    | with_reducible refine State.flushSeries_only _ _ ?_ (by decide)
    | with_reducible refine State.timDone_only _ _ _ ?_ (by decide)
    | with_reducible refine State.timValues_only _ ?_ (by decide)

theorem State.endSeries_only {N : Nat} {σ s : State} (m : Nat) (hσ : Only N σ s)
    (hN : 0xc2019c4000000000000000000700c00000000000000400000002000000000145000 ||| N = N) : Only N σ (State.endSeries s m) := hσ.step (State.endSeries_within s m) hN

theorem State.timEdge_within (s : State) (m : Nat) (src : Nat) (rising : Bool) (p : Int) :
    Only 0x8000004000000000000000000600000000000000000000000000000000000001000 s (State.timEdge s m src rising p) := by
  unfold State.timEdge
  repeat' first
    | with_reducible exact Only.refl _ _
    | with_reducible refine Only.ite (fun _ => ?_) (fun _ => ?_)
    | with_reducible refine Only.foldl ?_ (fun _ _ => ?_)
    | with_reducible refine State.addStamp_only _ _ ?_ (by decide)
    | with_reducible refine State.setTim_only _ _ ?_ (by decide)

theorem State.timEdge_only {N : Nat} {σ s : State} (m : Nat) (src : Nat) (rising : Bool) (p : Int) (hσ : Only N σ s)
    (hN : 0x8000004000000000000000000600000000000000000000000000000000000001000 ||| N = N) : Only N σ (State.timEdge s m src rising p) := hσ.step (State.timEdge_within s m src rising p) hN

theorem State.timSettle_within (s : State) (m : Nat) (now : Int) :
    Only 0x8000004000000000000000000600000000000000000000000000000000000001000 s (State.timSettle s m now) := by
  unfold State.timSettle
  repeat' first
    | with_reducible exact Only.refl _ _
    | with_reducible refine Only.ite (fun _ => ?_) (fun _ => ?_)
    | with_reducible refine Only.foldl ?_ (fun _ _ => ?_)
    | with_reducible refine State.timEdge_only _ _ _ _ ?_ (by decide)
    | with_reducible refine State.setTim_only _ _ ?_ (by decide)

theorem State.timSettle_only {N : Nat} {σ s : State} (m : Nat) (now : Int) (hσ : Only N σ s)
    (hN : 0x8000004000000000000000000600000000000000000000000000000000000001000 ||| N = N) : Only N σ (State.timSettle s m now) := hσ.step (State.timSettle_within s m now) hN

theorem State.timCross_within (s : State) (m : Nat) (src : Nat) (rising : Bool) (p : Int) :
    Only 0x8000004000000000000000000600000000000000000000000000000000000001000 s (State.timCross s m src rising p) := by
  unfold State.timCross
  repeat' first
    | with_reducible exact Only.refl _ _
    | with_reducible refine Only.ite (fun _ => ?_) (fun _ => ?_)
    | with_reducible refine Only.foldl ?_ (fun _ _ => ?_)
    | with_reducible refine State.timSettle_only _ _ ?_ (by decide)
    | with_reducible refine State.setTim_only _ _ ?_ (by decide)

theorem State.timCross_only {N : Nat} {σ s : State} (m : Nat) (src : Nat) (rising : Bool) (p : Int) (hσ : Only N σ s)
    (hN : 0x8000004000000000000000000600000000000000000000000000000000000001000 ||| N = N) : Only N σ (State.timCross s m src rising p) := hσ.step (State.timCross_within s m src rising p) hN

theorem State.timRefLost_within (s : State) :
    Only 0x8000000000000000000000000000000000000000000000000000000000000000000 s (State.timRefLost s) := by
  unfold State.timRefLost
  repeat' first
    | with_reducible exact Only.refl _ _
    | with_reducible refine Only.ite (fun _ => ?_) (fun _ => ?_)
    | with_reducible refine Only.foldl ?_ (fun _ _ => ?_)
    | with_reducible refine State.setTim_only _ _ ?_ (by decide)

theorem State.timRefLost_only {N : Nat} {σ s : State}  (hσ : Only N σ s)
    (hN : 0x8000000000000000000000000000000000000000000000000000000000000000000 ||| N = N) : Only N σ (State.timRefLost s) := hσ.step (State.timRefLost_within s) hN

theorem State.timCalibrate_within (s : State) (b : Nat) :
    Only 0x8000000000000000000000000400000000000000000000000000000000000000000 s (State.timCalibrate s b) := by
  unfold State.timCalibrate
  repeat' first
    | with_reducible exact Only.refl _ _
    | with_reducible refine Only.ite (fun _ => ?_) (fun _ => ?_)
    | with_reducible refine Only.foldl ?_ (fun _ _ => ?_)
    | with_reducible refine State.timIdle_only _ ?_ (by decide)
    | with_reducible refine State.timSet_only _ _ _ ?_ (by decide)

theorem State.timCalibrate_only {N : Nat} {σ s : State} (b : Nat) (hσ : Only N σ s)
    (hN : 0x8000000000000000000000000400000000000000000000000000000000000000000 ||| N = N) : Only N σ (State.timCalibrate s b) := hσ.step (State.timCalibrate_within s b) hN

end Sys2Proof.Machine
end

