-- ==== Sys2Proof/Laws/Frame/OpsCal.lean ====
section
/-!
SUPPORT. OpsCal.lean: what each operation of Machine/OpsCal.lean can change (see Only).
-/
namespace Sys2Proof.Machine
set_option Elab.async false

theorem State.showStore_within (s : State) :
    Only 0x200000000000000000000000000 s (State.showStore s) := by
  unfold State.showStore
  repeat' first
    | with_reducible exact Only.refl _ _
    | with_reducible refine Only.ite (fun _ => ?_) (fun _ => ?_)
    | with_reducible refine Only.foldl ?_ (fun _ _ => ?_)
    | with_reducible refine OnlyOut.next ?_
    | with_reducible refine OnlyOut.ite (fun _ => ?_) (fun _ => ?_)
    | with_reducible refine State.set_only _ _ _ _ ?_ (by decide)
    | with_reducible refine State.setBit_only _ _ _ _ ?_ (by decide)

theorem State.showStore_only {N : Nat} {σ s : State}  (hσ : Only N σ s)
    (hN : 0x200000000000000000000000000 ||| N = N) : Only N σ (State.showStore s) := hσ.step (State.showStore_within s) hN

theorem State.uncal_only {N : Nat} {σ s : State} (f : Fld) (i j n : Nat) (h : Only N σ s)
    (hN : f.mask ||| evMask ||| N = N) : Only N σ (s.uncal f i j n) :=
  .ite (fun _ => State.hwSetBit_only _ _ _ _ h hN) (fun _ => State.putMask_only _ _ _ _ _ h (sub_trans_left hN))

theorem State.loadChan_within (s : State) (failed : List Nat) (c : Nat) :
    Only 0x10000004000000000000000100000000000402000400000000000000000000001000 s (State.loadChan s failed c) := by
  unfold State.loadChan
  repeat' first
    | with_reducible exact Only.refl _ _
    | with_reducible refine Only.ite (fun _ => ?_) (fun _ => ?_)
    | with_reducible refine Only.foldl ?_ (fun _ _ => ?_)
    | fail_if_no_progress with_reducible refine Only.fields ?_ rfl rfl
    | with_reducible refine State.uncal_only _ _ _ _ ?_ (by decide)
    | with_reducible refine State.putMask_only _ _ _ _ _ ?_ (by decide)
    | with_reducible refine State.wr_only _ _ ?_ (by first | (dsimp only; decide) | exact anyReg _ (by decide))
    | split

theorem State.loadChan_only {N : Nat} {σ s : State} (failed : List Nat) (c : Nat) (hσ : Only N σ s)
    (hN : 0x10000004000000000000000100000000000402000400000000000000000000001000 ||| N = N) : Only N σ (State.loadChan s failed c) := hσ.step (State.loadChan_within s failed c) hN

theorem State.loadBay_within (s : State) (failed : List Nat) (b : Nat) :
    Only 0x100000040000000000000002e0000000000000001200000000000000000000001000 s (State.loadBay s failed b) := by
  unfold State.loadBay
  repeat' first
    | with_reducible exact Only.refl _ _
    | with_reducible refine Only.ite (fun _ => ?_) (fun _ => ?_)
    | with_reducible refine Only.foldl ?_ (fun _ _ => ?_)
    | fail_if_no_progress with_reducible refine Only.fields ?_ rfl rfl
    | with_reducible refine State.uncal_only _ _ _ _ ?_ (by decide)
    | with_reducible refine State.setBit_only _ _ _ _ ?_ (by decide)
    | with_reducible refine State.putMask_only _ _ _ _ _ ?_ (by decide)
    | with_reducible refine State.wr_only _ _ ?_ (by first | (dsimp only; decide) | exact anyReg _ (by decide))
    | split

theorem State.loadBay_only {N : Nat} {σ s : State} (failed : List Nat) (b : Nat) (hσ : Only N σ s)
    (hN : 0x100000040000000000000002e0000000000000001200000000000000000000001000 ||| N = N) : Only N σ (State.loadBay s failed b) := hσ.step (State.loadBay_within s failed b) hN

theorem State.loadCal_within (s : State) (failed : List Nat) (b : Nat) :
    Only 0x100008440000000000000003e0000000000402001600000000000000000000145000 s (State.loadCal s failed b) := by
  unfold State.loadCal
  repeat' first
    | with_reducible exact Only.refl _ _
    | with_reducible refine Only.ite (fun _ => ?_) (fun _ => ?_)
    | with_reducible refine Only.foldl ?_ (fun _ _ => ?_)
    | with_reducible refine State.loadBay_only _ _ ?_ (by decide)
    | with_reducible refine State.loadChan_only _ _ ?_ (by decide)
    | with_reducible refine State.post_only _ _ _ ?_ (by decide)

theorem State.loadCal_only {N : Nat} {σ s : State} (failed : List Nat) (b : Nat) (hσ : Only N σ s)
    (hN : 0x100008440000000000000003e0000000000402001600000000000000000000145000 ||| N = N) : Only N σ (State.loadCal s failed b) := hσ.step (State.loadCal_within s failed b) hN

theorem State.beginCommit_within (s : State) (ids : List Nat) :
    Only 0x10000000000000000000000000000000000000000200000000000000000000000000 s (State.beginCommit s ids) := by
  unfold State.beginCommit
  repeat' first
    | with_reducible exact Only.refl _ _
    | with_reducible refine Only.ite (fun _ => ?_) (fun _ => ?_)
    | with_reducible refine Only.foldl ?_ (fun _ _ => ?_)
    | fail_if_no_progress with_reducible refine Only.fields ?_ rfl rfl
    | with_reducible refine State.set_only _ _ _ _ ?_ (by decide)

theorem State.beginCommit_only {N : Nat} {σ s : State} (ids : List Nat) (hσ : Only N σ s)
    (hN : 0x10000000000000000000000000000000000000000200000000000000000000000000 ||| N = N) : Only N σ (State.beginCommit s ids) := hσ.step (State.beginCommit_within s ids) hN

theorem State.storeRequest_within (s : State) (ids : List Nat) :
    Only 0x10000000000000000000000000000000000000000200000000000000000000000000 s (State.storeRequest s ids) := by
  unfold State.storeRequest
  repeat' first
    | with_reducible exact Only.refl _ _
    | with_reducible refine Only.ite (fun _ => ?_) (fun _ => ?_)
    | with_reducible refine Only.foldl ?_ (fun _ _ => ?_)
    | fail_if_no_progress with_reducible refine Only.fields ?_ rfl rfl
    | with_reducible refine State.beginCommit_only _ ?_ (by decide)
    | with_reducible refine State.set_only _ _ _ _ ?_ (by decide)
    | split

theorem State.storeRequest_only {N : Nat} {σ s : State} (ids : List Nat) (hσ : Only N σ s)
    (hN : 0x10000000000000000000000000000000000000000200000000000000000000000000 ||| N = N) : Only N σ (State.storeRequest s ids) := hσ.step (State.storeRequest_within s ids) hN

theorem State.modRun_within (s : State) (b : Nat) (f : CalRun → CalRun) :
    Only 0x10000000000000000000000000000000000000000000000000000000000000000000 s (State.modRun s b f) := by
  unfold State.modRun
  repeat' first
    | with_reducible exact Only.refl _ _
    | with_reducible refine Only.ite (fun _ => ?_) (fun _ => ?_)
    | with_reducible refine Only.foldl ?_ (fun _ _ => ?_)
    | fail_if_no_progress with_reducible refine Only.fields ?_ rfl rfl

theorem State.modRun_only {N : Nat} {σ s : State} (b : Nat) (f : CalRun → CalRun) (hσ : Only N σ s)
    (hN : 0x10000000000000000000000000000000000000000000000000000000000000000000 ||| N = N) : Only N σ (State.modRun s b f) := hσ.step (State.modRun_within s b f) hN

theorem State.modBatch_within (s : State) (id : Nat) (f : CalBatch → CalBatch) :
    Only 0x10000000000000000000000000000000000000000000000000000000000000000000 s (State.modBatch s id f) := by
  unfold State.modBatch
  repeat' first
    | with_reducible exact Only.refl _ _
    | with_reducible refine Only.ite (fun _ => ?_) (fun _ => ?_)
    | with_reducible refine Only.foldl ?_ (fun _ _ => ?_)
    | fail_if_no_progress with_reducible refine Only.fields ?_ rfl rfl

theorem State.modBatch_only {N : Nat} {σ s : State} (id : Nat) (f : CalBatch → CalBatch) (hσ : Only N σ s)
    (hN : 0x10000000000000000000000000000000000000000000000000000000000000000000 ||| N = N) : Only N σ (State.modBatch s id f) := hσ.step (State.modBatch_within s id f) hN

theorem State.endBatch_within (s : State) (k : CalBatch) :
    Only 0x10000844000000000000000000000000000000000000000000000000000000145000 s (State.endBatch s k) := by
  unfold State.endBatch
  repeat' first
    | with_reducible exact Only.refl _ _
    | with_reducible refine Only.ite (fun _ => ?_) (fun _ => ?_)
    | with_reducible refine Only.foldl ?_ (fun _ _ => ?_)
    | fail_if_no_progress with_reducible refine Only.fields ?_ rfl rfl
    | with_reducible refine State.complete_only _ _ _ _ _ ?_ (by decide)
    | split

theorem State.endBatch_only {N : Nat} {σ s : State} (k : CalBatch) (hσ : Only N σ s)
    (hN : 0x10000844000000000000000000000000000000000000000000000000000000145000 ||| N = N) : Only N σ (State.endBatch s k) := hσ.step (State.endBatch_within s k) hN

theorem State.endBatches_within (s : State) :
    Only 0x10000844000000000000000000000000000000000000000000000000000000145000 s (State.endBatches s) := by
  unfold State.endBatches
  repeat' first
    | with_reducible exact Only.refl _ _
    | with_reducible refine Only.ite (fun _ => ?_) (fun _ => ?_)
    | with_reducible refine Only.foldl ?_ (fun _ _ => ?_)
    | with_reducible refine State.endBatch_only _ ?_ (by decide)

theorem State.endBatches_only {N : Nat} {σ s : State}  (hσ : Only N σ s)
    (hN : 0x10000844000000000000000000000000000000000000000000000000000000145000 ||| N = N) : Only N σ (State.endBatches s) := hσ.step (State.endBatches_within s) hN

theorem State.endCommit_within (s : State) (ok : Bool) :
    Only 0x10000844000000000000000000000000000000000200000000000000000000145000 s (State.endCommit s ok) := by
  unfold State.endCommit
  repeat' first
    | with_reducible exact Only.refl _ _
    | with_reducible refine Only.ite (fun _ => ?_) (fun _ => ?_)
    | with_reducible refine Only.foldl ?_ (fun _ _ => ?_)
    | fail_if_no_progress with_reducible refine Only.fields ?_ rfl rfl
    | with_reducible refine OnlyOut.next ?_
    | with_reducible refine OnlyOut.ite (fun _ => ?_) (fun _ => ?_)
    | with_reducible refine State.endBatches_only  ?_ (by decide)
    | with_reducible refine State.modBatch_only _ _ ?_ (by decide)
    | with_reducible refine State.beginCommit_only _ ?_ (by decide)
    | with_reducible refine State.showStore_only  ?_ (by decide)
    | with_reducible refine State.post_only _ _ _ ?_ (by decide)
    | with_reducible refine State.set_only _ _ _ _ ?_ (by decide)
    | with_reducible refine State.hwSet_only _ _ _ ?_ (by decide)
    | split

theorem State.endCommit_only {N : Nat} {σ s : State} (ok : Bool) (hσ : Only N σ s)
    (hN : 0x10000844000000000000000000000000000000000200000000000000000000145000 ||| N = N) : Only N σ (State.endCommit s ok) := hσ.step (State.endCommit_within s ok) hN

theorem State.denLow_within (s : State) (b : Nat) :
    Only 0x10040000000000000000000000000000000000000000000000000000000000000 s (State.denLow s b) := by
  unfold State.denLow
  repeat' first
    | with_reducible exact Only.refl _ _
    | with_reducible refine Only.ite (fun _ => ?_) (fun _ => ?_)
    | with_reducible refine Only.foldl ?_ (fun _ _ => ?_)
    | with_reducible refine State.driveTo_only _ _ _ _ _ ?_ (by decide)

theorem State.denLow_only {N : Nat} {σ s : State} (b : Nat) (hσ : Only N σ s)
    (hN : 0x10040000000000000000000000000000000000000000000000000000000000000 ||| N = N) : Only N σ (State.denLow s b) := hσ.step (State.denLow_within s b) hN

theorem State.setStale_within (s : State) (b : Nat) (v : Bool) :
    Only 0x300000000000000000000000000000000000000000000 s (State.setStale s b v) := by
  unfold State.setStale
  repeat' first
    | with_reducible exact Only.refl _ _
    | with_reducible refine Only.ite (fun _ => ?_) (fun _ => ?_)
    | with_reducible refine Only.foldl ?_ (fun _ _ => ?_)
    | with_reducible refine State.setBit_only _ _ _ _ ?_ (by decide)

theorem State.setStale_only {N : Nat} {σ s : State} (b : Nat) (v : Bool) (hσ : Only N σ s)
    (hN : 0x300000000000000000000000000000000000000000000 ||| N = N) : Only N σ (State.setStale s b v) := hσ.step (State.setStale_within s b v) hN

theorem State.calBegin_within (s : State) (b : Nat) (p : Nat) :
    Only 0x1000004000000000000000002000000000000000000000000000000000000001000 s (State.calBegin s b p) := by
  unfold State.calBegin
  repeat' first
    | with_reducible exact Only.refl _ _
    | with_reducible refine Only.ite (fun _ => ?_) (fun _ => ?_)
    | with_reducible refine Only.foldl ?_ (fun _ _ => ?_)
    | with_reducible refine State.feRequest_only _ _ _ ?_ (by decide)

theorem State.calBegin_only {N : Nat} {σ s : State} (b : Nat) (p : Nat) (hσ : Only N σ s)
    (hN : 0x1000004000000000000000002000000000000000000000000000000000000001000 ||| N = N) : Only N σ (State.calBegin s b p) := hσ.step (State.calBegin_within s b p) hN

theorem State.startRunOn_within (s : State) (b : Nat) (p : Nat) (batch : Nat) :
    Only 0x1f310944000000000000000302401c04820000001200000000002000000000145000 s (State.startRunOn s b p batch) := by
  unfold State.startRunOn
  repeat' first
    | with_reducible exact Only.refl _ _
    | with_reducible refine Only.ite (fun _ => ?_) (fun _ => ?_)
    | with_reducible refine Only.foldl ?_ (fun _ _ => ?_)
    | fail_if_no_progress with_reducible refine Only.fields ?_ rfl rfl
    | with_reducible refine State.calBegin_only _ _ ?_ (by decide)
    | with_reducible refine State.setStale_only _ _ ?_ (by decide)
    | with_reducible refine State.denLow_only _ ?_ (by decide)
    | with_reducible refine State.timCalibrate_only _ ?_ (by decide)
    | with_reducible refine State.adcCalibrate_only _ ?_ (by decide)
    | with_reducible refine State.acqIdle_only _ _ ?_ (by decide)
    | with_reducible refine State.setDclk_only _ _ _ ?_ (by decide)
    | with_reducible refine State.set_only _ _ _ _ ?_ (by decide)
    | with_reducible refine State.putMask_only _ _ _ _ _ ?_ (by decide)

theorem State.startRunOn_only {N : Nat} {σ s : State} (b : Nat) (p : Nat) (batch : Nat) (hσ : Only N σ s)
    (hN : 0x1f310944000000000000000302401c04820000001200000000002000000000145000 ||| N = N) : Only N σ (State.startRunOn s b p batch) := hσ.step (State.startRunOn_within s b p batch) hN

theorem State.timeTrim_within (s : State) :
    Only 0x844000000000000000000000000000000004000000000000000000000145000 s (State.timeTrim s).2 := by
  unfold State.timeTrim
  repeat' first
    | with_reducible exact Only.refl _ _
    | with_reducible refine Only.ite (fun _ => ?_) (fun _ => ?_)
    | with_reducible refine Only.foldl ?_ (fun _ _ => ?_)
    | with_reducible refine State.post_only _ _ _ ?_ (by decide)
    | with_reducible refine State.set_only _ _ _ _ ?_ (by decide)
    | split
    | extract_lets

theorem State.timeTrim_only {N : Nat} {σ s : State}  (hσ : Only N σ s)
    (hN : 0x844000000000000000000000000000000004000000000000000000000145000 ||| N = N) : Only N σ (State.timeTrim s).2 := hσ.step (State.timeTrim_within s) hN

theorem State.timeTrim_only_eq {N : Nat} {σ s t : State}  {v : Nat} (heq : State.timeTrim s = (v, t)) (hσ : Only N σ s)
    (hN : 0x844000000000000000000000000000000004000000000000000000000145000 ||| N = N) : Only N σ t := hσ.step (Only.snd heq (State.timeTrim_within s)) hN

theorem State.calStart_within (s : State) (mask : Nat) (p : Nat) (store : Bool) (src : Src) (tok : Option Token) :
    Only 0x1f310944000000000000000302401c04820000005200000000002000000000145000 s (State.calStart s mask p store src tok).2 := by
  unfold State.calStart
  repeat' first
    | with_reducible exact Only.refl _ _
    | with_reducible refine Only.ite (fun _ => ?_) (fun _ => ?_)
    | with_reducible refine Only.foldl ?_ (fun _ _ => ?_)
    | fail_if_no_progress with_reducible refine Only.fields ?_ rfl rfl
    | with_reducible refine State.timeTrim_only  ?_ (by decide)
    | with_reducible refine State.timeTrim_only_eq (by assumption) ?_ (by decide)
    | with_reducible refine State.startRunOn_only _ _ _ ?_ (by decide)
    | with_reducible refine State.endBatches_only  ?_ (by decide)
    | with_reducible refine State.modBatch_only _ _ ?_ (by decide)
    | with_reducible refine State.decideEvent_only _ _ _ _ ?_ (by decide)
    | with_reducible refine State.decideEvent_only_eq (by assumption) ?_ (by decide)
    | with_reducible refine State.superseded_only ?_ (by decide)
    | split
    | extract_lets

theorem State.calStart_only {N : Nat} {σ s : State} (mask : Nat) (p : Nat) (store : Bool) (src : Src) (tok : Option Token) (hσ : Only N σ s)
    (hN : 0x1f310944000000000000000302401c04820000005200000000002000000000145000 ||| N = N) : Only N σ (State.calStart s mask p store src tok).2 := hσ.step (State.calStart_within s mask p store src tok) hN

theorem State.calStart_only_eq {N : Nat} {σ s t : State} {mask : Nat} {p : Nat} {store : Bool} {src : Src} {tok : Option Token} {v : Option Nat} (heq : State.calStart s mask p store src tok = (v, t)) (hσ : Only N σ s)
    (hN : 0x1f310944000000000000000302401c04820000005200000000002000000000145000 ||| N = N) : Only N σ t := hσ.step (Only.snd heq (State.calStart_within s mask p store src tok)) hN

theorem State.calData_within (s : State) (b : Nat) (p : Nat) (f : CalRun → CalRun) :
    Only 0x11000004000000000000000002000000000000000000000000000000000000001000 s (State.calData s b p f) := by
  unfold State.calData
  repeat' first
    | with_reducible exact Only.refl _ _
    | with_reducible refine Only.ite (fun _ => ?_) (fun _ => ?_)
    | with_reducible refine Only.foldl ?_ (fun _ _ => ?_)
    | with_reducible refine State.modRun_only _ _ ?_ (by decide)
    | with_reducible refine State.feRequest_only _ _ _ ?_ (by decide)
    | split

theorem State.calData_only {N : Nat} {σ s : State} (b : Nat) (p : Nat) (f : CalRun → CalRun) (hσ : Only N σ s)
    (hN : 0x11000004000000000000000002000000000000000000000000000000000000001000 ||| N = N) : Only N σ (State.calData s b p f) := hσ.step (State.calData_within s b p f) hN

theorem State.calNext_within (s : State) (b : Nat) :
    Only 0x11000004000000000000000002000000000000000000000000000000000000001000 s (State.calNext s b) := by
  unfold State.calNext
  repeat' first
    | with_reducible exact Only.refl _ _
    | with_reducible refine Only.ite (fun _ => ?_) (fun _ => ?_)
    | with_reducible refine Only.foldl ?_ (fun _ _ => ?_)
    | with_reducible refine State.calBegin_only _ _ ?_ (by decide)
    | with_reducible refine State.modRun_only _ _ ?_ (by decide)
    | split

theorem State.calNext_only {N : Nat} {σ s : State} (b : Nat) (hσ : Only N σ s)
    (hN : 0x11000004000000000000000002000000000000000000000000000000000000001000 ||| N = N) : Only N σ (State.calNext s b) := hσ.step (State.calNext_within s b) hN

theorem State.calOver_within (s : State) (b : Nat) (st : Nat) (park : Bool) :
    Only 0x10010040000000000000000300000000000000001200000000000000000000000000 s (State.calOver s b st park) := by
  unfold State.calOver
  repeat' first
    | with_reducible exact Only.refl _ _
    | with_reducible refine Only.ite (fun _ => ?_) (fun _ => ?_)
    | with_reducible refine Only.foldl ?_ (fun _ _ => ?_)
    | fail_if_no_progress with_reducible refine Only.fields ?_ rfl rfl
    | with_reducible refine State.setStale_only _ _ ?_ (by decide)
    | with_reducible refine State.modBatch_only _ _ ?_ (by decide)
    | with_reducible refine State.parkLevels_only _ _ ?_ (by decide)
    | with_reducible refine State.set_only _ _ _ _ ?_ (by decide)
    | with_reducible refine State.putMask_only _ _ _ _ _ ?_ (by decide)
    | split

theorem State.calOver_only {N : Nat} {σ s : State} (b : Nat) (st : Nat) (park : Bool) (hσ : Only N σ s)
    (hN : 0x10010040000000000000000300000000000000001200000000000000000000000000 ||| N = N) : Only N σ (State.calOver s b st park) := hσ.step (State.calOver_within s b st park) hN

theorem State.calAbort_within (s : State) (b : Nat) (cause : Nat) :
    Only 0x10010844000000000000000300000000000000001200000000000000000000145000 s (State.calAbort s b cause) := by
  unfold State.calAbort
  repeat' first
    | with_reducible exact Only.refl _ _
    | with_reducible refine Only.ite (fun _ => ?_) (fun _ => ?_)
    | with_reducible refine Only.foldl ?_ (fun _ _ => ?_)
    | with_reducible refine State.calOver_only _ _ _ ?_ (by decide)
    | with_reducible refine State.endBatches_only  ?_ (by decide)
    | with_reducible refine State.post_only _ _ _ ?_ (by decide)
    | with_reducible refine State.set_only _ _ _ _ ?_ (by decide)
    | with_reducible refine State.hwSetBit_only _ _ _ _ ?_ (by decide)
    | split

theorem State.calAbort_only {N : Nat} {σ s : State} (b : Nat) (cause : Nat) (hσ : Only N σ s)
    (hN : 0x10010844000000000000000300000000000000001200000000000000000000145000 ||| N = N) : Only N σ (State.calAbort s b cause) := hσ.step (State.calAbort_within s b cause) hN

theorem State.calAbortWhere_within (s : State) (cause : Nat) (p : Nat → CalRun → Bool) :
    Only 0x10010844000000000000000300000000000000001200000000000000000000145000 s (State.calAbortWhere s cause p) := by
  unfold State.calAbortWhere
  repeat' first
    | with_reducible exact Only.refl _ _
    | with_reducible refine Only.ite (fun _ => ?_) (fun _ => ?_)
    | with_reducible refine Only.foldl ?_ (fun _ _ => ?_)
    | with_reducible refine State.calAbort_only _ _ ?_ (by decide)

theorem State.calAbortWhere_only {N : Nat} {σ s : State} (cause : Nat) (p : Nat → CalRun → Bool) (hσ : Only N σ s)
    (hN : 0x10010844000000000000000300000000000000001200000000000000000000145000 ||| N = N) : Only N σ (State.calAbortWhere s cause p) := hσ.step (State.calAbortWhere_within s cause p) hN

theorem State.calWatch_within (s : State) :
    Only 0x10010844000000000000000300000000000000001200000000000000000000145000 s (State.calWatch s) := by
  unfold State.calWatch
  repeat' first
    | with_reducible exact Only.refl _ _
    | with_reducible refine Only.ite (fun _ => ?_) (fun _ => ?_)
    | with_reducible refine Only.foldl ?_ (fun _ _ => ?_)
    | with_reducible refine State.calAbortWhere_only _ _ ?_ (by decide)

theorem State.calWatch_only {N : Nat} {σ s : State}  (hσ : Only N σ s)
    (hN : 0x10010844000000000000000300000000000000001200000000000000000000145000 ||| N = N) : Only N σ (State.calWatch s) := hσ.step (State.calWatch_within s) hN

theorem State.calRefLost_within (s : State) :
    Only 0x10010844000000000000000300000000000000001200000000000000000000145000 s (State.calRefLost s) := by
  unfold State.calRefLost
  repeat' first
    | with_reducible exact Only.refl _ _
    | with_reducible refine Only.ite (fun _ => ?_) (fun _ => ?_)
    | with_reducible refine Only.foldl ?_ (fun _ _ => ?_)
    | with_reducible refine State.calAbortWhere_only _ _ ?_ (by decide)

theorem State.calRefLost_only {N : Nat} {σ s : State}  (hσ : Only N σ s)
    (hN : 0x10010844000000000000000300000000000000001200000000000000000000145000 ||| N = N) : Only N σ (State.calRefLost s) := hσ.step (State.calRefLost_within s) hN

theorem State.calRefSel_within (s : State) (b : Nat) :
    Only 0x10010844000000000000000300000000000000001200000000000000000000145000 s (State.calRefSel s b) := by
  unfold State.calRefSel
  repeat' first
    | with_reducible exact Only.refl _ _
    | with_reducible refine Only.ite (fun _ => ?_) (fun _ => ?_)
    | with_reducible refine Only.foldl ?_ (fun _ _ => ?_)
    | with_reducible refine State.calAbortWhere_only _ _ ?_ (by decide)

theorem State.calRefSel_only {N : Nat} {σ s : State} (b : Nat) (hσ : Only N σ s)
    (hN : 0x10010844000000000000000300000000000000001200000000000000000000145000 ||| N = N) : Only N σ (State.calRefSel s b) := hσ.step (State.calRefSel_within s b) hN

theorem State.calRing_within (s : State) (q : Nat) :
    Only 0x10010844000000000000000300000000000000001200000000000000000000145000 s (State.calRing s q) := by
  unfold State.calRing
  repeat' first
    | with_reducible exact Only.refl _ _
    | with_reducible refine Only.ite (fun _ => ?_) (fun _ => ?_)
    | with_reducible refine Only.foldl ?_ (fun _ _ => ?_)
    | with_reducible refine State.calAbort_only _ _ ?_ (by decide)

theorem State.calRing_only {N : Nat} {σ s : State} (q : Nat) (hσ : Only N σ s)
    (hN : 0x10010844000000000000000300000000000000001200000000000000000000145000 ||| N = N) : Only N σ (State.calRing s q) := hσ.step (State.calRing_within s q) hN

theorem State.applyHeld_within (s : State) (l : List (RegKey × Nat × Nat × Nat)) :
    Only 0x1ffffffffffffffffffffffffffffffffffffffffffffffffffffffffff s (State.applyHeld s l) := by
  unfold State.applyHeld
  repeat' first
    | with_reducible exact Only.refl _ _
    | with_reducible refine Only.ite (fun _ => ?_) (fun _ => ?_)
    | with_reducible refine Only.foldl ?_ (fun _ _ => ?_)
    | with_reducible refine State.wr_only _ _ ?_ (by exact anyReg _ (by decide))

theorem State.applyHeld_only {N : Nat} {σ s : State} (l : List (RegKey × Nat × Nat × Nat)) (hσ : Only N σ s)
    (hN : 0x1ffffffffffffffffffffffffffffffffffffffffffffffffffffffffff ||| N = N) : Only N σ (State.applyHeld s l) := hσ.step (State.applyHeld_within s l) hN

theorem State.updateChan_within (s : State) (r : CalRun) (b : Nat) (i : Nat) :
    Only 0x10000000000000000000000100000000000000000400000000000000000000000000 s (State.updateChan s r b i) := by
  unfold State.updateChan
  repeat' first
    | with_reducible exact Only.refl _ _
    | with_reducible refine Only.ite (fun _ => ?_) (fun _ => ?_)
    | with_reducible refine Only.foldl ?_ (fun _ _ => ?_)
    | fail_if_no_progress with_reducible refine Only.fields ?_ rfl rfl
    | with_reducible refine State.setBit_only _ _ _ _ ?_ (by decide)
    | with_reducible refine State.putMask_only _ _ _ _ _ ?_ (by decide)

theorem State.updateChan_only {N : Nat} {σ s : State} (r : CalRun) (b : Nat) (i : Nat) (hσ : Only N σ s)
    (hN : 0x10000000000000000000000100000000000000000400000000000000000000000000 ||| N = N) : Only N σ (State.updateChan s r b i) := hσ.step (State.updateChan_within s r b i) hN

theorem State.calUpdate_within (s : State) (b : Nat) :
    Only 0x1001084401ffffffffffffffffffffffffffffffffffffffffffffffffffffffffff s (State.calUpdate s b) := by
  unfold State.calUpdate
  repeat' first
    | with_reducible exact Only.refl _ _
    | with_reducible refine Only.ite (fun _ => ?_) (fun _ => ?_)
    | with_reducible refine Only.foldl ?_ (fun _ _ => ?_)
    | fail_if_no_progress with_reducible refine Only.fields ?_ rfl rfl
    | with_reducible refine State.updateChan_only _ _ _ ?_ (by decide)
    | with_reducible refine State.applyHeld_only _ ?_ (by decide)
    | with_reducible refine State.calOver_only _ _ _ ?_ (by decide)
    | with_reducible refine State.endBatches_only  ?_ (by decide)
    | with_reducible refine State.modBatch_only _ _ ?_ (by decide)
    | with_reducible refine State.storeRequest_only _ ?_ (by decide)
    | with_reducible refine State.post_only _ _ _ ?_ (by decide)
    | with_reducible refine State.setBit_only _ _ _ _ ?_ (by decide)
    | with_reducible refine State.putMask_only _ _ _ _ _ ?_ (by decide)
    | split

theorem State.calUpdate_only {N : Nat} {σ s : State} (b : Nat) (hσ : Only N σ s)
    (hN : 0x1001084401ffffffffffffffffffffffffffffffffffffffffffffffffffffffffff ||| N = N) : Only N σ (State.calUpdate s b) := hσ.step (State.calUpdate_within s b) hN

end Sys2Proof.Machine
end

