-- ==== Sys2Proof/Laws/Frame/Adc.lean ====
section
/-!
SUPPORT. Adc.lean: what each operation of Machine/Adc.lean can change (see Only).
-/
namespace Sys2Proof.Machine
set_option Elab.async false

theorem State.popTag_within (s : State) (b : Nat) (tag : Nat) (cyc : Nat) :
    Only 0x2001844000000000000000000000003f00000000000400000000000000000145000 s (State.popTag s b tag cyc) := by
  unfold State.popTag
  repeat' first
    | with_reducible exact Only.refl _ _
    | with_reducible refine Only.ite (fun _ => ?_) (fun _ => ?_)
    | with_reducible refine Only.foldl ?_ (fun _ _ => ?_)
    | with_reducible refine State.edgesTo_only _ _ _ _ ?_ (by decide)
    | with_reducible refine State.setAdc_only _ _ ?_ (by decide)

theorem State.popTag_only {N : Nat} {σ s : State} (b : Nat) (tag : Nat) (cyc : Nat) (hσ : Only N σ s)
    (hN : 0x2001844000000000000000000000003f00000000000400000000000000000145000 ||| N = N) : Only N σ (State.popTag s b tag cyc) := hσ.step (State.popTag_within s b tag cyc) hN

theorem State.dropSuppressed_within (s : State) (b : Nat) (y0 : Nat) :
    Only 0x2001844000000000000000000000003f00000000000400000000000000000145000 s (State.dropSuppressed s b y0) := by
  induction y0 generalizing s b with
  | zero =>
    unfold State.dropSuppressed
    repeat' first
      | with_reducible exact Only.refl _ _

  | succ n ih =>
    unfold State.dropSuppressed
    repeat' first
      | with_reducible exact Only.refl _ _
      | with_reducible refine Only.ite (fun _ => ?_) (fun _ => ?_)
      | with_reducible refine Only.foldl ?_ (fun _ _ => ?_)
      | with_reducible refine State.popTag_only _ _ _ ?_ (by decide)
      | exact ih ..
      | refine Only.step ?_ (ih ..) (by decide)
      | split
      | extract_lets


theorem State.dropSuppressed_only {N : Nat} {σ s : State} (b : Nat) (y0 : Nat) (hσ : Only N σ s)
    (hN : 0x2001844000000000000000000000003f00000000000400000000000000000145000 ||| N = N) : Only N σ (State.dropSuppressed s b y0) := hσ.step (State.dropSuppressed_within s b y0) hN

theorem State.urgentDone_within (s : State) (b : Nat) (e : Nat) (d : Nat) :
    Only 0x6200944000000000000000000001c0c020000000000000000002000000000145000 s (State.urgentDone s b e d) := by
  unfold State.urgentDone
  repeat' first
    | with_reducible exact Only.refl _ _
    | with_reducible refine Only.ite (fun _ => ?_) (fun _ => ?_)
    | with_reducible refine Only.foldl ?_ (fun _ _ => ?_)
    | with_reducible refine State.endUrgent_only _ _ ?_ (by decide)
    | with_reducible refine State.post_only _ _ _ ?_ (by decide)
    | with_reducible refine State.set_only _ _ _ _ ?_ (by decide)
    | with_reducible refine State.hwSet_only _ _ _ ?_ (by decide)

theorem State.urgentDone_only {N : Nat} {σ s : State} (b : Nat) (e : Nat) (d : Nat) (hσ : Only N σ s)
    (hN : 0x6200944000000000000000000001c0c020000000000000000002000000000145000 ||| N = N) : Only N σ (State.urgentDone s b e d) := hσ.step (State.urgentDone_within s b e d) hN

theorem State.nextEntry_within (s : State) (b : Nat) (d : Nat) :
    Only 0x6200944000000000000000000001c00020000000000000000002000000000145000 s (State.nextEntry s b d) := by
  unfold State.nextEntry
  repeat' first
    | with_reducible exact Only.refl _ _
    | with_reducible refine Only.ite (fun _ => ?_) (fun _ => ?_)
    | with_reducible refine Only.foldl ?_ (fun _ _ => ?_)
    | with_reducible refine State.adcIdle_only _ ?_ (by decide)
    | with_reducible refine State.beginVisit_only _ _ _ ?_ (by decide)
    | with_reducible refine State.setAdc_only _ _ ?_ (by decide)

theorem State.nextEntry_only {N : Nat} {σ s : State} (b : Nat) (d : Nat) (hσ : Only N σ s)
    (hN : 0x6200944000000000000000000001c00020000000000000000002000000000145000 ||| N = N) : Only N σ (State.nextEntry s b d) := hσ.step (State.nextEntry_within s b d) hN

theorem State.countOutput_within (s : State) (b : Nat) (d : Nat) (w : Visit) (v : Int) :
    Only 0x6200944000000000000000000001c0c020000000000000000002000000000145000 s (State.countOutput s b d w v) := by
  unfold State.countOutput
  repeat' first
    | with_reducible exact Only.refl _ _
    | with_reducible refine Only.ite (fun _ => ?_) (fun _ => ?_)
    | with_reducible refine Only.foldl ?_ (fun _ _ => ?_)
    | with_reducible refine State.nextEntry_only _ _ ?_ (by decide)
    | with_reducible refine State.urgentDone_only _ _ _ ?_ (by decide)
    | with_reducible refine State.setAdc_only _ _ ?_ (by decide)

theorem State.countOutput_only {N : Nat} {σ s : State} (b : Nat) (d : Nat) (w : Visit) (v : Int) (hσ : Only N σ s)
    (hN : 0x6200944000000000000000000001c0c020000000000000000002000000000145000 ||| N = N) : Only N σ (State.countOutput s b d w v) := hσ.step (State.countOutput_within s b d w v) hN

theorem State.deliverOutput_within (s : State) (b : Nat) (tag : Nat) (cyc : Nat) (d : Nat) (w : Visit) (value : Int) :
    Only 0x6200944000000000000000000001c0c060000000000000000002000000000145000 s (State.deliverOutput s b tag cyc d w value) := by
  unfold State.deliverOutput
  repeat' first
    | with_reducible exact Only.refl _ _
    | with_reducible refine Only.ite (fun _ => ?_) (fun _ => ?_)
    | with_reducible refine Only.foldl ?_ (fun _ _ => ?_)
    | with_reducible refine State.countOutput_only _ _ _ _ ?_ (by decide)
    | with_reducible refine State.setAdc_only _ _ ?_ (by decide)
    | with_reducible refine State.acqTake_only _ _ _ _ _ ?_ (by decide)
    | with_reducible refine State.set_only _ _ _ _ ?_ (by decide)
    | with_reducible refine State.count_only _ _ _ _ _ ?_ (by decide)

theorem State.deliverOutput_only {N : Nat} {σ s : State} (b : Nat) (tag : Nat) (cyc : Nat) (d : Nat) (w : Visit) (value : Int) (hσ : Only N σ s)
    (hN : 0x6200944000000000000000000001c0c060000000000000000002000000000145000 ||| N = N) : Only N σ (State.deliverOutput s b tag cyc d w value) := hσ.step (State.deliverOutput_within s b tag cyc d w value) hN

theorem State.nextDelivery_within (s : State) (b : Nat) :
    Only 0x62019c4000000000000000000001c0ff60000000000400000002000000000145000 s (State.nextDelivery s b) := by
  unfold State.nextDelivery
  repeat' first
    | with_reducible exact Only.refl _ _
    | with_reducible refine Only.ite (fun _ => ?_) (fun _ => ?_)
    | with_reducible refine Only.foldl ?_ (fun _ _ => ?_)
    | with_reducible refine State.deliverOutput_only _ _ _ _ _ _ ?_ (by decide)
    | with_reducible refine State.dropSuppressed_only _ _ ?_ (by decide)
    | with_reducible refine State.popTag_only _ _ _ ?_ (by decide)
    | with_reducible refine State.bankStep_only _ _ ?_ (by decide)
    | with_reducible refine State.bankStep_only_eq (by assumption) ?_ (by decide)
    | with_reducible refine State.useFree_only  ?_ (by decide)
    | split
    | extract_lets

theorem State.nextDelivery_only {N : Nat} {σ s : State} (b : Nat) (hσ : Only N σ s)
    (hN : 0x62019c4000000000000000000001c0ff60000000000400000002000000000145000 ||| N = N) : Only N σ (State.nextDelivery s b) := hσ.step (State.nextDelivery_within s b) hN

theorem execAdcOutput_within (b : Nat) (codes : List Int) (code : Int) (s : State) :
    OnlyOut 0x62019c4000000000000000000001c0ff60000000000400000002000000000145000 s (execAdcOutput b codes code s) := by
  unfold execAdcOutput
  repeat' first
    | with_reducible exact Only.refl _ _
    | with_reducible refine Only.ite (fun _ => ?_) (fun _ => ?_)
    | with_reducible refine Only.foldl ?_ (fun _ _ => ?_)
    | with_reducible refine OnlyOut.next ?_
    | with_reducible refine OnlyOut.ite (fun _ => ?_) (fun _ => ?_)
    | with_reducible refine State.nextDelivery_only _ ?_ (by decide)
    | with_reducible refine State.trimCodes_only _ ?_ (by decide)
    | with_reducible refine State.takeCodes_only _ _ _ ?_ (by decide)
    | split

theorem execAdcOutput_only {N : Nat} {σ s : State} (b : Nat) (codes : List Int) (code : Int) (hσ : Only N σ s)
    (hN : 0x62019c4000000000000000000001c0ff60000000000400000002000000000145000 ||| N = N) : OnlyOut N σ (execAdcOutput b codes code s) := hσ.outcome (execAdcOutput_within b codes code s) hN

theorem execSequenceTrigger_within (b : Nat) (src : Src) (s : State) :
    OnlyOut 0x6200944000000000000000000001c00060000000000000000002000000000145000 s (execSequenceTrigger b src s) := by
  unfold execSequenceTrigger
  repeat' first
    | with_reducible exact Only.refl _ _
    | with_reducible refine Only.ite (fun _ => ?_) (fun _ => ?_)
    | with_reducible refine Only.foldl ?_ (fun _ _ => ?_)
    | with_reducible refine OnlyOut.next ?_
    | with_reducible refine OnlyOut.ite (fun _ => ?_) (fun _ => ?_)
    | with_reducible refine State.seqTrigger_only _ _ ?_ (by decide)

theorem execSequenceTrigger_only {N : Nat} {σ s : State} (b : Nat) (src : Src) (hσ : Only N σ s)
    (hN : 0x6200944000000000000000000001c00060000000000000000002000000000145000 ||| N = N) : OnlyOut N σ (execSequenceTrigger b src s) := hσ.outcome (execSequenceTrigger_within b src s) hN

theorem execAdcStop_within (b : Nat) (src : Src) (s : State) :
    OnlyOut 0x6200944000000000000000000001c00020000000000000000002000000000145000 s (execAdcStop b src s) := by
  unfold execAdcStop
  repeat' first
    | with_reducible exact Only.refl _ _
    | with_reducible refine Only.ite (fun _ => ?_) (fun _ => ?_)
    | with_reducible refine Only.foldl ?_ (fun _ _ => ?_)
    | with_reducible refine OnlyOut.next ?_
    | with_reducible refine OnlyOut.ite (fun _ => ?_) (fun _ => ?_)
    | with_reducible refine State.adcStop_only _ ?_ (by decide)
    | with_reducible refine Only.onObj ?_ (fun _ => ?_) (by decide)

theorem execAdcStop_only {N : Nat} {σ s : State} (b : Nat) (src : Src) (hσ : Only N σ s)
    (hN : 0x6200944000000000000000000001c00020000000000000000002000000000145000 ||| N = N) : OnlyOut N σ (execAdcStop b src s) := hσ.outcome (execAdcStop_within b src s) hN

theorem execAccClear_within (b : Nat) (src : Src) (s : State) :
    OnlyOut 0x2000004000000000000000000000000000000000000000000000000000000001000 s (execAccClear b src s) := by
  unfold execAccClear
  repeat' first
    | with_reducible exact Only.refl _ _
    | with_reducible refine Only.ite (fun _ => ?_) (fun _ => ?_)
    | with_reducible refine Only.foldl ?_ (fun _ _ => ?_)
    | with_reducible refine OnlyOut.next ?_
    | with_reducible refine OnlyOut.ite (fun _ => ?_) (fun _ => ?_)
    | with_reducible refine State.setAdc_only _ _ ?_ (by decide)
    | with_reducible refine Only.onObj ?_ (fun _ => ?_) (by decide)

theorem execAccClear_only {N : Nat} {σ s : State} (b : Nat) (src : Src) (hσ : Only N σ s)
    (hN : 0x2000004000000000000000000000000000000000000000000000000000000001000 ||| N = N) : OnlyOut N σ (execAccClear b src s) := hσ.outcome (execAccClear_within b src s) hN

theorem execSequenceCommit_within (b : Nat) (src : Src) (s : State) :
    OnlyOut 0x16210944000000000000000300001c00020000001200000000002000000000145000 s (execSequenceCommit b src s) := by
  unfold execSequenceCommit
  repeat' first
    | with_reducible exact Only.refl _ _
    | with_reducible refine Only.ite (fun _ => ?_) (fun _ => ?_)
    | with_reducible refine Only.foldl ?_ (fun _ _ => ?_)
    | with_reducible refine OnlyOut.next ?_
    | with_reducible refine OnlyOut.ite (fun _ => ?_) (fun _ => ?_)
    | with_reducible refine State.calRefSel_only _ ?_ (by decide)
    | with_reducible refine State.adcCommit_only _ ?_ (by decide)
    | with_reducible refine Only.onObj ?_ (fun _ => ?_) (by decide)

theorem execSequenceCommit_only {N : Nat} {σ s : State} (b : Nat) (src : Src) (hσ : Only N σ s)
    (hN : 0x16210944000000000000000300001c00020000001200000000002000000000145000 ||| N = N) : OnlyOut N σ (execSequenceCommit b src s) := hσ.outcome (execSequenceCommit_within b src s) hN

theorem execUrgentRequest_within (b : Nat) (e : Nat) (src : Src) (s : State) :
    OnlyOut 0x6200944000000000000000000001c00060000000000000000002000000000145000 s (execUrgentRequest b e src s) := by
  unfold execUrgentRequest
  repeat' first
    | with_reducible exact Only.refl _ _
    | with_reducible refine Only.ite (fun _ => ?_) (fun _ => ?_)
    | with_reducible refine Only.foldl ?_ (fun _ _ => ?_)
    | with_reducible refine OnlyOut.next ?_
    | with_reducible refine OnlyOut.ite (fun _ => ?_) (fun _ => ?_)
    | with_reducible refine State.urgentRequest_only _ _ _ ?_ (by decide)

theorem execUrgentRequest_only {N : Nat} {σ s : State} (b : Nat) (e : Nat) (src : Src) (hσ : Only N σ s)
    (hN : 0x6200944000000000000000000001c00060000000000000000002000000000145000 ||| N = N) : OnlyOut N σ (execUrgentRequest b e src s) := hσ.outcome (execUrgentRequest_within b e src s) hN

theorem execUrgentCancel_within (b : Nat) (src : Src) (s : State) :
    OnlyOut 0x6200944000000000000000000001c00020000000000000000002000000000145000 s (execUrgentCancel b src s) := by
  unfold execUrgentCancel
  repeat' first
    | with_reducible exact Only.refl _ _
    | with_reducible refine Only.ite (fun _ => ?_) (fun _ => ?_)
    | with_reducible refine Only.foldl ?_ (fun _ _ => ?_)
    | with_reducible refine OnlyOut.next ?_
    | with_reducible refine OnlyOut.ite (fun _ => ?_) (fun _ => ?_)
    | with_reducible refine State.urgentCancel_only _ _ ?_ (by decide)

theorem execUrgentCancel_only {N : Nat} {σ s : State} (b : Nat) (src : Src) (hσ : Only N σ s)
    (hN : 0x6200944000000000000000000001c00020000000000000000002000000000145000 ||| N = N) : OnlyOut N σ (execUrgentCancel b src s) := hσ.outcome (execUrgentCancel_within b src s) hN

theorem execBankRequest_within (b : Nat) (bank : Nat) (s : State) :
    OnlyOut 0x2000000000000000000000000000000020000000000000000000000000000000000 s (execBankRequest b bank s) := by
  unfold execBankRequest
  repeat' first
    | with_reducible exact Only.refl _ _
    | with_reducible refine Only.ite (fun _ => ?_) (fun _ => ?_)
    | with_reducible refine Only.foldl ?_ (fun _ _ => ?_)
    | with_reducible refine OnlyOut.next ?_
    | with_reducible refine OnlyOut.ite (fun _ => ?_) (fun _ => ?_)
    | with_reducible refine State.bankRequest_only _ _ ?_ (by decide)

theorem execBankRequest_only {N : Nat} {σ s : State} (b : Nat) (bank : Nat) (hσ : Only N σ s)
    (hN : 0x2000000000000000000000000000000020000000000000000000000000000000000 ||| N = N) : OnlyOut N σ (execBankRequest b bank s) := hσ.outcome (execBankRequest_within b bank s) hN

theorem State.coefAutoinc_within (s : State) (b : Nat) :
    Only 0x10000000000000000000000000000000000000 s (State.coefAutoinc s b) := by
  unfold State.coefAutoinc
  repeat' first
    | with_reducible exact Only.refl _ _
    | with_reducible refine Only.ite (fun _ => ?_) (fun _ => ?_)
    | with_reducible refine Only.foldl ?_ (fun _ _ => ?_)
    | with_reducible refine State.set_only _ _ _ _ ?_ (by decide)

theorem State.coefAutoinc_only {N : Nat} {σ s : State} (b : Nat) (hσ : Only N σ s)
    (hN : 0x10000000000000000000000000000000000000 ||| N = N) : Only N σ (State.coefAutoinc s b) := hσ.step (State.coefAutoinc_within s b) hN

theorem execCoefWrite_within (b : Nat) (data : Word) (s : State) :
    OnlyOut 0x2000004000000000000000000000010020000000000000000000000000000001000 s (execCoefWrite b data s) := by
  unfold execCoefWrite
  repeat' first
    | with_reducible exact Only.refl _ _
    | with_reducible refine Only.ite (fun _ => ?_) (fun _ => ?_)
    | with_reducible refine Only.foldl ?_ (fun _ _ => ?_)
    | with_reducible refine OnlyOut.next ?_
    | with_reducible refine OnlyOut.ite (fun _ => ?_) (fun _ => ?_)
    | with_reducible refine State.coefAutoinc_only _ ?_ (by decide)
    | with_reducible refine State.setAdc_only _ _ ?_ (by decide)
    | with_reducible refine State.hwSet_only _ _ _ ?_ (by decide)

theorem execCoefWrite_only {N : Nat} {σ s : State} (b : Nat) (data : Word) (hσ : Only N σ s)
    (hN : 0x2000004000000000000000000000010020000000000000000000000000000001000 ||| N = N) : OnlyOut N σ (execCoefWrite b data s) := hσ.outcome (execCoefWrite_within b data s) hN

theorem execRefReady_within (b : Nat) (s : State) :
    OnlyOut 0x2000000000000000000000000000000020000000000000000000000000000000000 s (execRefReady b s) := by
  unfold execRefReady
  repeat' first
    | with_reducible exact Only.refl _ _
    | with_reducible refine Only.ite (fun _ => ?_) (fun _ => ?_)
    | with_reducible refine Only.foldl ?_ (fun _ _ => ?_)
    | with_reducible refine OnlyOut.next ?_
    | with_reducible refine OnlyOut.ite (fun _ => ?_) (fun _ => ?_)
    | with_reducible refine State.adcChange_only _ _ ?_ (by decide)
    | with_reducible refine State.set_only _ _ _ _ ?_ (by decide)

theorem execRefReady_only {N : Nat} {σ s : State} (b : Nat) (hσ : Only N σ s)
    (hN : 0x2000000000000000000000000000000020000000000000000000000000000000000 ||| N = N) : OnlyOut N σ (execRefReady b s) := hσ.outcome (execRefReady_within b s) hN

theorem execSliceRotation_within (b : Nat) (failed : Bool) (s : State) :
    OnlyOut 0x844000000000000000000000000020000000000000000000000000000145000 s (execSliceRotation b failed s) := by
  unfold execSliceRotation
  repeat' first
    | with_reducible exact Only.refl _ _
    | with_reducible refine Only.ite (fun _ => ?_) (fun _ => ?_)
    | with_reducible refine Only.foldl ?_ (fun _ _ => ?_)
    | with_reducible refine OnlyOut.next ?_
    | with_reducible refine OnlyOut.ite (fun _ => ?_) (fun _ => ?_)
    | with_reducible refine State.post_only _ _ _ ?_ (by decide)
    | with_reducible refine State.set_only _ _ _ _ ?_ (by decide)

theorem execSliceRotation_only {N : Nat} {σ s : State} (b : Nat) (failed : Bool) (hσ : Only N σ s)
    (hN : 0x844000000000000000000000000020000000000000000000000000000145000 ||| N = N) : OnlyOut N σ (execSliceRotation b failed s) := hσ.outcome (execSliceRotation_within b failed s) hN

theorem State.ownEdges_within (s : State) (b : Nat) (y0 : List (Nat × Nat × Option Nat)) :
    Only 0x2001844000000000000000000000003f00000000000400000000000000000145000 s (State.ownEdges s b y0) := by
  induction y0 generalizing s b with
  | nil =>
    unfold State.ownEdges
    repeat' first
      | with_reducible exact Only.refl _ _
      | with_reducible refine Only.ite (fun _ => ?_) (fun _ => ?_)
      | with_reducible refine Only.foldl ?_ (fun _ _ => ?_)
      | with_reducible refine State.windowEdge_only _ _ _ ?_ (by decide)
      | with_reducible refine State.setAdc_only _ _ ?_ (by decide)

  | cons a l ih =>
    unfold State.ownEdges
    repeat' first
      | with_reducible exact Only.refl _ _
      | with_reducible refine Only.ite (fun _ => ?_) (fun _ => ?_)
      | with_reducible refine Only.foldl ?_ (fun _ _ => ?_)
      | with_reducible refine State.windowEdge_only _ _ _ ?_ (by decide)
      | with_reducible refine State.setAdc_only _ _ ?_ (by decide)
      | exact ih ..
      | refine Only.step ?_ (ih ..) (by decide)
      | split
      | extract_lets
      | dsimp only
      | (cases ‹_ :: _ = _ :: _›)


theorem State.ownEdges_only {N : Nat} {σ s : State} (b : Nat) (y0 : List (Nat × Nat × Option Nat)) (hσ : Only N σ s)
    (hN : 0x2001844000000000000000000000003f00000000000400000000000000000145000 ||| N = N) : Only N σ (State.ownEdges s b y0) := hσ.step (State.ownEdges_within s b y0) hN

theorem execAdcWindow_within (b : Nat) (s : State) :
    OnlyOut 0x2001844000000000000000000000003f00000000000400000000000000000145000 s (execAdcWindow b s) := by
  unfold execAdcWindow
  repeat' first
    | with_reducible exact Only.refl _ _
    | with_reducible refine Only.ite (fun _ => ?_) (fun _ => ?_)
    | with_reducible refine Only.foldl ?_ (fun _ _ => ?_)
    | with_reducible refine OnlyOut.next ?_
    | with_reducible refine OnlyOut.ite (fun _ => ?_) (fun _ => ?_)
    | with_reducible refine State.ownEdges_only _ _ ?_ (by decide)
    | with_reducible refine State.dropSuppressed_only _ _ ?_ (by decide)
    | with_reducible refine State.edgesTo_only _ _ _ _ ?_ (by decide)
    | split
    | extract_lets

theorem execAdcWindow_only {N : Nat} {σ s : State} (b : Nat) (hσ : Only N σ s)
    (hN : 0x2001844000000000000000000000003f00000000000400000000000000000145000 ||| N = N) : OnlyOut N σ (execAdcWindow b s) := hσ.outcome (execAdcWindow_within b s) hN

theorem execAdcCountsClear_within (b : Nat) (s : State) :
    OnlyOut 0x4000000000000000000000000040000000000000000000000000000001000 s (execAdcCountsClear b s) := by
  unfold execAdcCountsClear
  simp only [List.foldl_cons, List.foldl_nil]
  repeat' first
    | with_reducible exact Only.refl _ _
    | with_reducible refine Only.ite (fun _ => ?_) (fun _ => ?_)
    | with_reducible refine Only.foldl ?_ (fun _ _ => ?_)
    | with_reducible refine OnlyOut.next ?_
    | with_reducible refine OnlyOut.ite (fun _ => ?_) (fun _ => ?_)
    | with_reducible refine State.set_only _ _ _ _ ?_ (by decide)
    | with_reducible refine State.clear_only _ _ _ ?_ (by decide)

theorem execAdcCountsClear_only {N : Nat} {σ s : State} (b : Nat) (hσ : Only N σ s)
    (hN : 0x4000000000000000000000000040000000000000000000000000000001000 ||| N = N) : OnlyOut N σ (execAdcCountsClear b s) := hσ.outcome (execAdcCountsClear_within b s) hN

end Sys2Proof.Machine
end

