-- ==== Sys2Proof/Laws/Frame/Compare.lean ====
section
/-!
SUPPORT. Compare.lean: what each operation of Machine/Compare.lean can change (see Only).
-/
namespace Sys2Proof.Machine
set_option Elab.async false

theorem execCompareResult_within (c : Nat) (s : State) :
    OnlyOut 0x445400400400024c800000000000000000040000000000000000000000000001000 s (execCompareResult c s) := by
  unfold execCompareResult
  repeat' first
    | with_reducible exact Only.refl _ _
    | with_reducible refine Only.ite (fun _ => ?_) (fun _ => ?_)
    | with_reducible refine Only.foldl ?_ (fun _ _ => ?_)
    | with_reducible refine OnlyOut.next ?_
    | with_reducible refine OnlyOut.ite (fun _ => ?_) (fun _ => ?_)
    | with_reducible refine State.deliver_only _ _ ?_ (by decide)
    | with_reducible refine State.setChan_only _ _ ?_ (by decide)
    | split

theorem execCompareResult_only {N : Nat} {σ s : State} (c : Nat) (hσ : Only N σ s)
    (hN : 0x445400400400024c800000000000000000040000000000000000000000000001000 ||| N = N) : OnlyOut N σ (execCompareResult c s) := hσ.outcome (execCompareResult_within c s) hN

theorem State.failSnap_within (s : State) (b : Nat) :
    Only 0x180000000000000000000000000000000 s (State.failSnap s b) := by
  unfold State.failSnap
  repeat' first
    | with_reducible exact Only.refl _ _
    | with_reducible refine Only.ite (fun _ => ?_) (fun _ => ?_)
    | with_reducible refine Only.foldl ?_ (fun _ _ => ?_)
    | with_reducible refine State.set_only _ _ _ _ ?_ (by decide)
    | with_reducible refine State.wr_only _ _ ?_ (by (dsimp only; decide))

theorem State.failSnap_only {N : Nat} {σ s : State} (b : Nat) (hσ : Only N σ s)
    (hN : 0x180000000000000000000000000000000 ||| N = N) : Only N σ (State.failSnap s b) := hσ.step (State.failSnap_within s b) hN

theorem execFailSnap_within (b : Nat) (s : State) :
    OnlyOut 0x180000000000000000000000000000000 s (execFailSnap b s) := by
  unfold execFailSnap
  repeat' first
    | with_reducible exact Only.refl _ _
    | with_reducible refine Only.ite (fun _ => ?_) (fun _ => ?_)
    | with_reducible refine Only.foldl ?_ (fun _ _ => ?_)
    | with_reducible refine OnlyOut.next ?_
    | with_reducible refine OnlyOut.ite (fun _ => ?_) (fun _ => ?_)
    | with_reducible refine State.failSnap_only _ ?_ (by decide)

theorem execFailSnap_only {N : Nat} {σ s : State} (b : Nat) (hσ : Only N σ s)
    (hN : 0x180000000000000000000000000000000 ||| N = N) : OnlyOut N σ (execFailSnap b s) := hσ.outcome (execFailSnap_within b s) hN

theorem State.failCountClear_within (s : State) (b : Nat) :
    Only 0x4000000000000000000000000000040000000000000000000000000001000 s (State.failCountClear s b) := by
  unfold State.failCountClear
  repeat' first
    | with_reducible exact Only.refl _ _
    | with_reducible refine Only.ite (fun _ => ?_) (fun _ => ?_)
    | with_reducible refine Only.foldl ?_ (fun _ _ => ?_)
    | with_reducible refine State.set_only _ _ _ _ ?_ (by decide)
    | with_reducible refine State.clear_only _ _ _ ?_ (by decide)

theorem State.failCountClear_only {N : Nat} {σ s : State} (b : Nat) (hσ : Only N σ s)
    (hN : 0x4000000000000000000000000000040000000000000000000000000001000 ||| N = N) : Only N σ (State.failCountClear s b) := hσ.step (State.failCountClear_within s b) hN

theorem execFailCountClear_within (b : Nat) (s : State) :
    OnlyOut 0x4000000000000000000000000000040000000000000000000000000001000 s (execFailCountClear b s) := by
  unfold execFailCountClear
  repeat' first
    | with_reducible exact Only.refl _ _
    | with_reducible refine Only.ite (fun _ => ?_) (fun _ => ?_)
    | with_reducible refine Only.foldl ?_ (fun _ _ => ?_)
    | with_reducible refine OnlyOut.next ?_
    | with_reducible refine OnlyOut.ite (fun _ => ?_) (fun _ => ?_)
    | with_reducible refine State.failCountClear_only _ ?_ (by decide)

theorem execFailCountClear_only {N : Nat} {σ s : State} (b : Nat) (hσ : Only N σ s)
    (hN : 0x4000000000000000000000000000040000000000000000000000000001000 ||| N = N) : OnlyOut N σ (execFailCountClear b s) := hσ.outcome (execFailCountClear_within b s) hN

theorem execCmpStatClear_within (b : Nat) (s : State) :
    OnlyOut 0x4000000000000000000000000000200000000000000000000000000001000 s (execCmpStatClear b s) := by
  unfold execCmpStatClear
  repeat' first
    | with_reducible exact Only.refl _ _
    | with_reducible refine Only.ite (fun _ => ?_) (fun _ => ?_)
    | with_reducible refine Only.foldl ?_ (fun _ _ => ?_)
    | with_reducible refine OnlyOut.next ?_
    | with_reducible refine OnlyOut.ite (fun _ => ?_) (fun _ => ?_)
    | with_reducible refine State.set_only _ _ _ _ ?_ (by decide)
    | with_reducible refine State.clear_only _ _ _ ?_ (by decide)

theorem execCmpStatClear_only {N : Nat} {σ s : State} (b : Nat) (hσ : Only N σ s)
    (hN : 0x4000000000000000000000000000200000000000000000000000000001000 ||| N = N) : OnlyOut N σ (execCmpStatClear b s) := hσ.outcome (execCmpStatClear_within b s) hN

theorem State.tellFull_within (s : State) (q : Nat) :
    Only 0x40844000000000000000000000000000000000000000000000000000000145000 s (State.tellFull s q) := by
  unfold State.tellFull
  repeat' first
    | with_reducible exact Only.refl _ _
    | with_reducible refine Only.ite (fun _ => ?_) (fun _ => ?_)
    | with_reducible refine Only.foldl ?_ (fun _ _ => ?_)
    | with_reducible refine State.setLogX_only _ _ ?_ (by decide)
    | with_reducible refine State.post_only _ _ _ ?_ (by decide)

theorem State.tellFull_only {N : Nat} {σ s : State} (q : Nat) (hσ : Only N σ s)
    (hN : 0x40844000000000000000000000000000000000000000000000000000000145000 ||| N = N) : Only N σ (State.tellFull s q) := hσ.step (State.tellFull_within s q) hN

theorem State.writeLog_within (s : State) (q : Nat) (ws : List Word) :
    Only 0x240944000000020000000000000000000000000000000000002000000000145000 s (State.writeLog s q ws) := by
  unfold State.writeLog
  repeat' first
    | with_reducible exact Only.refl _ _
    | with_reducible refine Only.ite (fun _ => ?_) (fun _ => ?_)
    | with_reducible refine Only.foldl ?_ (fun _ _ => ?_)
    | with_reducible refine State.tellFull_only _ ?_ (by decide)
    | with_reducible refine State.setLogX_only _ _ ?_ (by decide)
    | with_reducible refine State.dramWrite_only _ _ ?_ (by decide)
    | with_reducible refine State.set_only _ _ _ _ ?_ (by decide)

theorem State.writeLog_only {N : Nat} {σ s : State} (q : Nat) (ws : List Word) (hσ : Only N σ s)
    (hN : 0x240944000000020000000000000000000000000000000000002000000000145000 ||| N = N) : Only N σ (State.writeLog s q ws) := hσ.step (State.writeLog_within s q ws) hN

theorem State.serveLog_within (s : State) (q : Nat) :
    Only 0x240944000000060000000000000000000000000000000000002000000000145000 s (State.serveLog s q) := by
  unfold State.serveLog
  repeat' first
    | with_reducible exact Only.refl _ _
    | with_reducible refine Only.ite (fun _ => ?_) (fun _ => ?_)
    | with_reducible refine Only.foldl ?_ (fun _ _ => ?_)
    | with_reducible refine State.writeLog_only _ _ ?_ (by decide)
    | with_reducible refine State.closeSummaries_only _ ?_ (by decide)
    | with_reducible refine State.setLogX_only _ _ ?_ (by decide)
    | split
    | extract_lets

theorem State.serveLog_only {N : Nat} {σ s : State} (q : Nat) (hσ : Only N σ s)
    (hN : 0x240944000000060000000000000000000000000000000000002000000000145000 ||| N = N) : Only N σ (State.serveLog s q) := hσ.step (State.serveLog_within s q) hN

theorem execLogWrite_within (s : State) :
    OnlyOut 0x2c0944000000060000000000000000000000000000000000002000000000145000 s (execLogWrite s) := by
  unfold execLogWrite
  repeat' first
    | with_reducible exact Only.refl _ _
    | with_reducible refine Only.ite (fun _ => ?_) (fun _ => ?_)
    | with_reducible refine Only.foldl ?_ (fun _ _ => ?_)
    | fail_if_no_progress with_reducible refine Only.fields ?_ rfl rfl
    | with_reducible refine OnlyOut.next ?_
    | with_reducible refine OnlyOut.ite (fun _ => ?_) (fun _ => ?_)
    | with_reducible refine State.serveLog_only _ ?_ (by decide)
    | split

theorem execLogWrite_only {N : Nat} {σ s : State}  (hσ : Only N σ s)
    (hN : 0x2c0944000000060000000000000000000000000000000000002000000000145000 ||| N = N) : OnlyOut N σ (execLogWrite s) := hσ.outcome (execLogWrite_within s) hN

theorem State.mirrorCopy_within (s : State) (kind : Nat) (sq : Nat) (q : Nat) (ty : Nat) (entry : List Word) :
    Only 0x844000000000000000000000000000000000000000000000000000000145000 s (State.mirrorCopy s kind sq q ty entry).2 := by
  unfold State.mirrorCopy
  repeat' first
    | with_reducible exact Only.refl _ _
    | with_reducible refine Only.ite (fun _ => ?_) (fun _ => ?_)
    | with_reducible refine Only.foldl ?_ (fun _ _ => ?_)
    | with_reducible refine State.namedRing_only _ _ _ _ _ ?_ (by decide)
    | with_reducible refine State.namedRing_only_eq (by assumption) ?_ (by decide)
    | with_reducible refine State.pushEntry_only _ _ ?_ (by decide)
    | split

theorem State.mirrorCopy_only {N : Nat} {σ s : State} (kind : Nat) (sq : Nat) (q : Nat) (ty : Nat) (entry : List Word) (hσ : Only N σ s)
    (hN : 0x844000000000000000000000000000000000000000000000000000000145000 ||| N = N) : Only N σ (State.mirrorCopy s kind sq q ty entry).2 := hσ.step (State.mirrorCopy_within s kind sq q ty entry) hN

theorem State.mirrorCopy_only_eq {N : Nat} {σ s t : State} {kind : Nat} {sq : Nat} {q : Nat} {ty : Nat} {entry : List Word} {v : Bool} (heq : State.mirrorCopy s kind sq q ty entry = (v, t)) (hσ : Only N σ s)
    (hN : 0x844000000000000000000000000000000000000000000000000000000145000 ||| N = N) : Only N σ t := hσ.step (Only.snd heq (State.mirrorCopy_within s kind sq q ty entry)) hN

theorem State.mirrorLog_within (s : State) (q : Nat) :
    Only 0x40844000000020000000000000000000000000000000000000000000000145000 s (State.mirrorLog s q) := by
  unfold State.mirrorLog
  repeat' first
    | with_reducible exact Only.refl _ _
    | with_reducible refine Only.ite (fun _ => ?_) (fun _ => ?_)
    | with_reducible refine Only.foldl ?_ (fun _ _ => ?_)
    | with_reducible refine State.mirrorCopy_only _ _ _ _ _ ?_ (by decide)
    | with_reducible refine State.mirrorCopy_only_eq (by assumption) ?_ (by decide)
    | with_reducible refine State.setLogX_only _ _ ?_ (by decide)
    | with_reducible refine State.set_only _ _ _ _ ?_ (by decide)
    | split

theorem State.mirrorLog_only {N : Nat} {σ s : State} (q : Nat) (hσ : Only N σ s)
    (hN : 0x40844000000020000000000000000000000000000000000000000000000145000 ||| N = N) : Only N σ (State.mirrorLog s q) := hσ.step (State.mirrorLog_within s q) hN

theorem State.mirrorCap_within (s : State) (q : Nat) :
    Only 0x40844000000100000000000000000000000000000000000000000000000145000 s (State.mirrorCap s q) := by
  unfold State.mirrorCap
  repeat' first
    | with_reducible exact Only.refl _ _
    | with_reducible refine Only.ite (fun _ => ?_) (fun _ => ?_)
    | with_reducible refine Only.foldl ?_ (fun _ _ => ?_)
    | with_reducible refine State.mirrorCopy_only _ _ _ _ _ ?_ (by decide)
    | with_reducible refine State.mirrorCopy_only_eq (by assumption) ?_ (by decide)
    | with_reducible refine State.setLogX_only _ _ ?_ (by decide)
    | with_reducible refine State.set_only _ _ _ _ ?_ (by decide)
    | split

theorem State.mirrorCap_only {N : Nat} {σ s : State} (q : Nat) (hσ : Only N σ s)
    (hN : 0x40844000000100000000000000000000000000000000000000000000000145000 ||| N = N) : Only N σ (State.mirrorCap s q) := hσ.step (State.mirrorCap_within s q) hN

theorem State.mirrorAcq_within (s : State) (b : Nat) :
    Only 0x4000844000000000000000000000400000000000000000000000000000000145000 s (State.mirrorAcq s b) := by
  unfold State.mirrorAcq
  repeat' first
    | with_reducible exact Only.refl _ _
    | with_reducible refine Only.ite (fun _ => ?_) (fun _ => ?_)
    | with_reducible refine Only.foldl ?_ (fun _ _ => ?_)
    | with_reducible refine State.mirrorCopy_only _ _ _ _ _ ?_ (by decide)
    | with_reducible refine State.mirrorCopy_only_eq (by assumption) ?_ (by decide)
    | with_reducible refine State.setAcq_only _ _ ?_ (by decide)
    | with_reducible refine State.set_only _ _ _ _ ?_ (by decide)
    | split

theorem State.mirrorAcq_only {N : Nat} {σ s : State} (b : Nat) (hσ : Only N σ s)
    (hN : 0x4000844000000000000000000000400000000000000000000000000000000145000 ||| N = N) : Only N σ (State.mirrorAcq s b) := hσ.step (State.mirrorAcq_within s b) hN

theorem execMirror_within (which : Nat) (i : Nat) (s : State) :
    OnlyOut 0x4040844000000120000000000000400000000000000000000000000000000145000 s (execMirror which i s) := by
  unfold execMirror
  repeat' first
    | with_reducible exact Only.refl _ _
    | with_reducible refine Only.ite (fun _ => ?_) (fun _ => ?_)
    | with_reducible refine Only.foldl ?_ (fun _ _ => ?_)
    | with_reducible refine OnlyOut.next ?_
    | with_reducible refine OnlyOut.ite (fun _ => ?_) (fun _ => ?_)
    | with_reducible refine State.mirrorAcq_only _ ?_ (by decide)
    | with_reducible refine State.mirrorCap_only _ ?_ (by decide)
    | with_reducible refine State.mirrorLog_only _ ?_ (by decide)

theorem execMirror_only {N : Nat} {σ s : State} (which : Nat) (i : Nat) (hσ : Only N σ s)
    (hN : 0x4040844000000120000000000000400000000000000000000000000000000145000 ||| N = N) : OnlyOut N σ (execMirror which i s) := hσ.outcome (execMirror_within which i s) hN

theorem State.doomLog_within (s : State) (q : Nat) :
    Only 0x40000000000000000000000000000000000000000000000000000000000000000 s (State.doomLog s q) := by
  unfold State.doomLog
  repeat' first
    | with_reducible exact Only.refl _ _
    | with_reducible refine Only.ite (fun _ => ?_) (fun _ => ?_)
    | with_reducible refine Only.foldl ?_ (fun _ _ => ?_)
    | with_reducible refine State.setLogX_only _ _ ?_ (by decide)

theorem State.doomLog_only {N : Nat} {σ s : State} (q : Nat) (hσ : Only N σ s)
    (hN : 0x40000000000000000000000000000000000000000000000000000000000000000 ||| N = N) : Only N σ (State.doomLog s q) := hσ.step (State.doomLog_within s q) hN

theorem State.logCfgWrite_within (s : State) (q : Nat) (v : Word) (host : Bool) :
    Only 0x40800000000030000000000000000000000000000000000000000000000000000 s (State.logCfgWrite s q v host) := by
  unfold State.logCfgWrite
  repeat' first
    | with_reducible exact Only.refl _ _
    | with_reducible refine Only.ite (fun _ => ?_) (fun _ => ?_)
    | with_reducible refine Only.foldl ?_ (fun _ _ => ?_)
    | with_reducible refine State.doomLog_only _ ?_ (by decide)
    | with_reducible refine State.setLogX_only _ _ ?_ (by decide)
    | with_reducible refine State.rearm_only _ _ ?_ (by decide)
    | with_reducible refine State.set_only _ _ _ _ ?_ (by decide)
    | with_reducible refine State.setBit_only _ _ _ _ ?_ (by decide)
    | with_reducible refine State.storeRw_only _ _ _ ?_ (by (dsimp only; decide))

theorem State.logCfgWrite_only {N : Nat} {σ s : State} (q : Nat) (v : Word) (host : Bool) (hσ : Only N σ s)
    (hN : 0x40800000000030000000000000000000000000000000000000000000000000000 ||| N = N) : Only N σ (State.logCfgWrite s q v host) := hσ.step (State.logCfgWrite_within s q v host) hN

theorem execLogCfgWrite_within (q : Nat) (value : Word) (s : State) :
    OnlyOut 0x40800000000030000000000000000000000000000000000000000000000000000 s (execLogCfgWrite q value s) := by
  unfold execLogCfgWrite
  repeat' first
    | with_reducible exact Only.refl _ _
    | with_reducible refine Only.ite (fun _ => ?_) (fun _ => ?_)
    | with_reducible refine Only.foldl ?_ (fun _ _ => ?_)
    | with_reducible refine OnlyOut.next ?_
    | with_reducible refine OnlyOut.ite (fun _ => ?_) (fun _ => ?_)
    | with_reducible refine State.logCfgWrite_only _ _ _ ?_ (by decide)

theorem execLogCfgWrite_only {N : Nat} {σ s : State} (q : Nat) (value : Word) (hσ : Only N σ s)
    (hN : 0x40800000000030000000000000000000000000000000000000000000000000000 ||| N = N) : OnlyOut N σ (execLogCfgWrite q value s) := hσ.outcome (execLogCfgWrite_within q value s) hN

theorem execLogStatClear_within (q : Nat) (s : State) :
    OnlyOut 0x4000000040000000000000000000000000000000000000000000000001000 s (execLogStatClear q s) := by
  unfold execLogStatClear
  repeat' first
    | with_reducible exact Only.refl _ _
    | with_reducible refine Only.ite (fun _ => ?_) (fun _ => ?_)
    | with_reducible refine Only.foldl ?_ (fun _ _ => ?_)
    | with_reducible refine OnlyOut.next ?_
    | with_reducible refine OnlyOut.ite (fun _ => ?_) (fun _ => ?_)
    | with_reducible refine State.set_only _ _ _ _ ?_ (by decide)
    | with_reducible refine State.clear_only _ _ _ ?_ (by decide)

theorem execLogStatClear_only {N : Nat} {σ s : State} (q : Nat) (hσ : Only N σ s)
    (hN : 0x4000000040000000000000000000000000000000000000000000000001000 ||| N = N) : OnlyOut N σ (execLogStatClear q s) := hσ.outcome (execLogStatClear_within q s) hN

theorem State.writeCap_within (s : State) (q : Nat) (y0 : List Nat) :
    Only 0x240944000000100000000000000000000000000000000000002000000000145000 s (State.writeCap s q y0) := by
  induction y0 generalizing s q with
  | nil =>
    unfold State.writeCap
    repeat' first
      | with_reducible exact Only.refl _ _

  | cons a l ih =>
    unfold State.writeCap
    repeat' first
      | with_reducible exact Only.refl _ _
      | with_reducible refine Only.ite (fun _ => ?_) (fun _ => ?_)
      | with_reducible refine Only.foldl ?_ (fun _ _ => ?_)
      | with_reducible refine State.setLogX_only _ _ ?_ (by decide)
      | with_reducible refine State.dramWrite_only _ _ ?_ (by decide)
      | with_reducible refine State.set_only _ _ _ _ ?_ (by decide)
      | exact ih ..
      | refine Only.step ?_ (ih ..) (by decide)


theorem State.writeCap_only {N : Nat} {σ s : State} (q : Nat) (y0 : List Nat) (hσ : Only N σ s)
    (hN : 0x240944000000100000000000000000000000000000000000002000000000145000 ||| N = N) : Only N σ (State.writeCap s q y0) := hσ.step (State.writeCap_within s q y0) hN

theorem State.capTimeout_within (s : State) (q : Nat) :
    Only 0x40000000000000000000000000000000000000000000000000000000000000000 s (State.capTimeout s q) := by
  unfold State.capTimeout
  repeat' first
    | with_reducible exact Only.refl _ _
    | with_reducible refine Only.ite (fun _ => ?_) (fun _ => ?_)
    | with_reducible refine Only.foldl ?_ (fun _ _ => ?_)
    | with_reducible refine State.closeBlock_only _ ?_ (by decide)
    | split

theorem State.capTimeout_only {N : Nat} {σ s : State} (q : Nat) (hσ : Only N σ s)
    (hN : 0x40000000000000000000000000000000000000000000000000000000000000000 ||| N = N) : Only N σ (State.capTimeout s q) := hσ.step (State.capTimeout_within s q) hN

theorem State.writeRest_within (s : State) (q : Nat) :
    Only 0x240944000000100000000000000000000000000000000000002000000000145000 s (State.writeRest s q) := by
  unfold State.writeRest
  repeat' first
    | with_reducible exact Only.refl _ _
    | with_reducible refine Only.ite (fun _ => ?_) (fun _ => ?_)
    | with_reducible refine Only.foldl ?_ (fun _ _ => ?_)
    | with_reducible refine State.writeCap_only _ _ ?_ (by decide)
    | with_reducible refine State.setLogX_only _ _ ?_ (by decide)

theorem State.writeRest_only {N : Nat} {σ s : State} (q : Nat) (hσ : Only N σ s)
    (hN : 0x240944000000100000000000000000000000000000000000002000000000145000 ||| N = N) : Only N σ (State.writeRest s q) := hσ.step (State.writeRest_within s q) hN

theorem State.captureBlockWrite_within (s : State) (q : Nat) :
    Only 0x240944000000100000000000000000000000000000000000002000000000145000 s (State.captureBlockWrite s q) := by
  unfold State.captureBlockWrite
  repeat' first
    | with_reducible exact Only.refl _ _
    | with_reducible refine Only.ite (fun _ => ?_) (fun _ => ?_)
    | with_reducible refine Only.foldl ?_ (fun _ _ => ?_)
    | with_reducible refine State.writeRest_only _ ?_ (by decide)
    | with_reducible refine State.capTimeout_only _ ?_ (by decide)
    | with_reducible refine State.writeCap_only _ _ ?_ (by decide)
    | with_reducible refine State.setLogX_only _ _ ?_ (by decide)
    | split
    | extract_lets

theorem State.captureBlockWrite_only {N : Nat} {σ s : State} (q : Nat) (hσ : Only N σ s)
    (hN : 0x240944000000100000000000000000000000000000000000002000000000145000 ||| N = N) : Only N σ (State.captureBlockWrite s q) := hσ.step (State.captureBlockWrite_within s q) hN

theorem execCaptureBlockWrite_within (q : Nat) (s : State) :
    OnlyOut 0x240944000000100000000000000000000000000000000000002000000000145000 s (execCaptureBlockWrite q s) := by
  unfold execCaptureBlockWrite
  repeat' first
    | with_reducible exact Only.refl _ _
    | with_reducible refine Only.ite (fun _ => ?_) (fun _ => ?_)
    | with_reducible refine Only.foldl ?_ (fun _ _ => ?_)
    | with_reducible refine OnlyOut.next ?_
    | with_reducible refine OnlyOut.ite (fun _ => ?_) (fun _ => ?_)
    | with_reducible refine State.captureBlockWrite_only _ ?_ (by decide)

theorem execCaptureBlockWrite_only {N : Nat} {σ s : State} (q : Nat) (hσ : Only N σ s)
    (hN : 0x240944000000100000000000000000000000000000000000002000000000145000 ||| N = N) : OnlyOut N σ (execCaptureBlockWrite q s) := hσ.outcome (execCaptureBlockWrite_within q s) hN

theorem State.capCfgWrite_within (s : State) (q : Nat) (v : Word) (host : Bool) :
    Only 0x40800000000180000000000000000000000000000000000000000000000000000 s (State.capCfgWrite s q v host) := by
  unfold State.capCfgWrite
  repeat' first
    | with_reducible exact Only.refl _ _
    | with_reducible refine Only.ite (fun _ => ?_) (fun _ => ?_)
    | with_reducible refine Only.foldl ?_ (fun _ _ => ?_)
    | with_reducible refine State.closeBlock_only _ ?_ (by decide)
    | with_reducible refine State.setLogX_only _ _ ?_ (by decide)
    | with_reducible refine State.rearm_only _ _ ?_ (by decide)
    | with_reducible refine State.set_only _ _ _ _ ?_ (by decide)
    | with_reducible refine State.setBit_only _ _ _ _ ?_ (by decide)
    | with_reducible refine State.storeRw_only _ _ _ ?_ (by (dsimp only; decide))

theorem State.capCfgWrite_only {N : Nat} {σ s : State} (q : Nat) (v : Word) (host : Bool) (hσ : Only N σ s)
    (hN : 0x40800000000180000000000000000000000000000000000000000000000000000 ||| N = N) : Only N σ (State.capCfgWrite s q v host) := hσ.step (State.capCfgWrite_within s q v host) hN

theorem execCapCfgWrite_within (q : Nat) (value : Word) (s : State) :
    OnlyOut 0x40800000000180000000000000000000000000000000000000000000000000000 s (execCapCfgWrite q value s) := by
  unfold execCapCfgWrite
  repeat' first
    | with_reducible exact Only.refl _ _
    | with_reducible refine Only.ite (fun _ => ?_) (fun _ => ?_)
    | with_reducible refine Only.foldl ?_ (fun _ _ => ?_)
    | with_reducible refine OnlyOut.next ?_
    | with_reducible refine OnlyOut.ite (fun _ => ?_) (fun _ => ?_)
    | with_reducible refine State.capCfgWrite_only _ _ _ ?_ (by decide)

theorem execCapCfgWrite_only {N : Nat} {σ s : State} (q : Nat) (value : Word) (hσ : Only N σ s)
    (hN : 0x40800000000180000000000000000000000000000000000000000000000000000 ||| N = N) : OnlyOut N σ (execCapCfgWrite q value s) := hσ.outcome (execCapCfgWrite_within q value s) hN

theorem execCapStatClear_within (q : Nat) (s : State) :
    OnlyOut 0x4000000200000000000000000000000000000000000000000000000001000 s (execCapStatClear q s) := by
  unfold execCapStatClear
  repeat' first
    | with_reducible exact Only.refl _ _
    | with_reducible refine Only.ite (fun _ => ?_) (fun _ => ?_)
    | with_reducible refine Only.foldl ?_ (fun _ _ => ?_)
    | with_reducible refine OnlyOut.next ?_
    | with_reducible refine OnlyOut.ite (fun _ => ?_) (fun _ => ?_)
    | with_reducible refine State.set_only _ _ _ _ ?_ (by decide)
    | with_reducible refine State.clear_only _ _ _ ?_ (by decide)

theorem execCapStatClear_only {N : Nat} {σ s : State} (q : Nat) (hσ : Only N σ s)
    (hN : 0x4000000200000000000000000000000000000000000000000000000001000 ||| N = N) : OnlyOut N σ (execCapStatClear q s) := hσ.outcome (execCapStatClear_within q s) hN

end Sys2Proof.Machine
end

