-- ==== Sys2Proof/Laws/Frame/OpsPcie.lean ====
section
/-!
SUPPORT. OpsPcie.lean: what each operation of Machine/OpsPcie.lean can change (see Only).
-/
namespace Sys2Proof.Machine
set_option Elab.async false

theorem State.setPcie_within (s : State) (x : PcieX) :
    Only 0x800000000000000000000000000000000000000000000000000000000000000 s (State.setPcie s x) := by
  unfold State.setPcie
  repeat' first
    | with_reducible exact Only.refl _ _
    | with_reducible refine Only.ite (fun _ => ?_) (fun _ => ?_)
    | with_reducible refine Only.foldl ?_ (fun _ _ => ?_)
    | fail_if_no_progress with_reducible refine Only.fields ?_ rfl rfl

theorem State.setPcie_only {N : Nat} {σ s : State} (x : PcieX) (hσ : Only N σ s)
    (hN : 0x800000000000000000000000000000000000000000000000000000000000000 ||| N = N) : Only N σ (State.setPcie s x) := hσ.step (State.setPcie_within s x) hN

theorem State.pcieError_within (s : State) (e : PcieErr) :
    Only 0x840000000000000000000000000000000000000000000000000000000000000 s (State.pcieError s e) := by
  unfold State.pcieError
  repeat' first
    | with_reducible exact Only.refl _ _
    | with_reducible refine Only.ite (fun _ => ?_) (fun _ => ?_)
    | with_reducible refine Only.foldl ?_ (fun _ _ => ?_)
    | with_reducible refine State.setPcie_only _ ?_ (by decide)
    | with_reducible refine State.emit_only _ ?_ (by decide)
    | split

theorem State.pcieError_only {N : Nat} {σ s : State} (e : PcieErr) (hσ : Only N σ s)
    (hN : 0x840000000000000000000000000000000000000000000000000000000000000 ||| N = N) : Only N σ (State.pcieError s e) := hσ.step (State.pcieError_within s e) hN

theorem State.configRead_within (s : State) (off : Nat) (bytes : Nat) :
    Only 0x40000000000000000000000000000000000000000000000000000000000000 s (State.configRead s off bytes) := by
  unfold State.configRead
  repeat' first
    | with_reducible exact Only.refl _ _
    | with_reducible refine Only.ite (fun _ => ?_) (fun _ => ?_)
    | with_reducible refine Only.foldl ?_ (fun _ _ => ?_)
    | with_reducible refine State.emit_only _ ?_ (by decide)

theorem State.configRead_only {N : Nat} {σ s : State} (off : Nat) (bytes : Nat) (hσ : Only N σ s)
    (hN : 0x40000000000000000000000000000000000000000000000000000000000000 ||| N = N) : Only N σ (State.configRead s off bytes) := hσ.step (State.configRead_within s off bytes) hN

theorem State.configStore_within (s : State) (off : Nat) (bytes : Nat) (d : Nat) :
    Only 0x800000000000000000000000000000000000000000000000000000000000000 s (State.configStore s off bytes d).2 := by
  unfold State.configStore
  repeat' first
    | with_reducible exact Only.refl _ _
    | with_reducible refine Only.ite (fun _ => ?_) (fun _ => ?_)
    | with_reducible refine Only.foldl ?_ (fun _ _ => ?_)
    | with_reducible refine State.setPcie_only _ ?_ (by decide)

theorem State.configStore_only {N : Nat} {σ s : State} (off : Nat) (bytes : Nat) (d : Nat) (hσ : Only N σ s)
    (hN : 0x800000000000000000000000000000000000000000000000000000000000000 ||| N = N) : Only N σ (State.configStore s off bytes d).2 := hσ.step (State.configStore_within s off bytes d) hN

theorem State.configStore_only_eq {N : Nat} {σ s t : State} {off : Nat} {bytes : Nat} {d : Nat} {v : Nat} (heq : State.configStore s off bytes d = (v, t)) (hσ : Only N σ s)
    (hN : 0x800000000000000000000000000000000000000000000000000000000000000 ||| N = N) : Only N σ t := hσ.step (Only.snd heq (State.configStore_within s off bytes d)) hN

theorem State.msixUnmaskAll_within (s : State) :
    Only 0x840000000000000000000000000000000000000000000000000000000000000 s (State.msixUnmaskAll s) := by
  unfold State.msixUnmaskAll
  repeat' first
    | with_reducible exact Only.refl _ _
    | with_reducible refine Only.ite (fun _ => ?_) (fun _ => ?_)
    | with_reducible refine Only.foldl ?_ (fun _ _ => ?_)
    | with_reducible refine State.msixUnmask_only _ ?_ (by decide)

theorem State.msixUnmaskAll_only {N : Nat} {σ s : State}  (hσ : Only N σ s)
    (hN : 0x840000000000000000000000000000000000000000000000000000000000000 ||| N = N) : Only N σ (State.msixUnmaskAll s) := hσ.step (State.msixUnmaskAll_within s) hN

end Sys2Proof.Machine
end

