-- ==== Sys2Proof/Laws/Frame/Host.lean ====
section
/-!
SUPPORT. Host.lean: what each operation of Machine/Host.lean can change (see Only).
-/
namespace Sys2Proof.Machine
set_option Elab.async false

theorem execDoorbell_within (q : Nat) (value : BitVec 32) (s : State) :
    OnlyOut 0x844000000000000000000000000000000000000000000000000000000145000 s (execDoorbell q value s) := by
  unfold execDoorbell
  repeat' first
    | with_reducible exact Only.refl _ _
    | with_reducible refine Only.ite (fun _ => ?_) (fun _ => ?_)
    | with_reducible refine Only.foldl ?_ (fun _ _ => ?_)
    | with_reducible refine OnlyOut.next ?_
    | with_reducible refine OnlyOut.ite (fun _ => ?_) (fun _ => ?_)
    | with_reducible refine State.doorbell_only _ _ ?_ (by decide)

theorem execDoorbell_only {N : Nat} {σ s : State} (q : Nat) (value : BitVec 32) (hσ : Only N σ s)
    (hN : 0x844000000000000000000000000000000000000000000000000000000145000 ||| N = N) : OnlyOut N σ (execDoorbell q value s) := hσ.outcome (execDoorbell_within q value s) hN

theorem execRingEnable_within (q : Nat) (src : Src) (s : State) :
    OnlyOut 0x20000844000000000000000000000000000000000000000000000000000000145000 s (execRingEnable q src s) := by
  unfold execRingEnable
  repeat' first
    | with_reducible exact Only.refl _ _
    | with_reducible refine Only.ite (fun _ => ?_) (fun _ => ?_)
    | with_reducible refine Only.foldl ?_ (fun _ _ => ?_)
    | with_reducible refine OnlyOut.next ?_
    | with_reducible refine OnlyOut.ite (fun _ => ?_) (fun _ => ?_)
    | with_reducible refine State.ringEnableOp_only _ ?_ (by decide)
    | with_reducible refine Only.onObj ?_ (fun _ => ?_) (by decide)

theorem execRingEnable_only {N : Nat} {σ s : State} (q : Nat) (src : Src) (hσ : Only N σ s)
    (hN : 0x20000844000000000000000000000000000000000000000000000000000000145000 ||| N = N) : OnlyOut N σ (execRingEnable q src s) := hσ.outcome (execRingEnable_within q src s) hN

theorem State.ringDisableOp_within (s : State) (q : Nat) :
    Only 0x844000000000000000000000000000000000000000000000000000000145000 s (State.ringDisableOp s q) := by
  unfold State.ringDisableOp
  repeat' first
    | with_reducible exact Only.refl _ _
    | with_reducible refine Only.ite (fun _ => ?_) (fun _ => ?_)
    | with_reducible refine Only.foldl ?_ (fun _ _ => ?_)
    | with_reducible refine State.drain_only _ ?_ (by decide)
    | with_reducible refine State.set_only _ _ _ _ ?_ (by decide)

theorem State.ringDisableOp_only {N : Nat} {σ s : State} (q : Nat) (hσ : Only N σ s)
    (hN : 0x844000000000000000000000000000000000000000000000000000000145000 ||| N = N) : Only N σ (State.ringDisableOp s q) := hσ.step (State.ringDisableOp_within s q) hN

theorem execRingDisable_within (q : Nat) (src : Src) (s : State) :
    OnlyOut 0x844000000000000000000000000000000000000000000000000000000145000 s (execRingDisable q src s) := by
  unfold execRingDisable
  repeat' first
    | with_reducible exact Only.refl _ _
    | with_reducible refine Only.ite (fun _ => ?_) (fun _ => ?_)
    | with_reducible refine Only.foldl ?_ (fun _ _ => ?_)
    | with_reducible refine OnlyOut.next ?_
    | with_reducible refine OnlyOut.ite (fun _ => ?_) (fun _ => ?_)
    | with_reducible refine State.ringDisableOp_only _ ?_ (by decide)
    | with_reducible refine Only.onObj ?_ (fun _ => ?_) (by decide)

theorem execRingDisable_only {N : Nat} {σ s : State} (q : Nat) (src : Src) (hσ : Only N σ s)
    (hN : 0x844000000000000000000000000000000000000000000000000000000145000 ||| N = N) : OnlyOut N σ (execRingDisable q src s) := hσ.outcome (execRingDisable_within q src s) hN

theorem execRingReset_within (q : Nat) (src : Src) (s : State) :
    OnlyOut 0x10010844000000000000000300000000000000001200000000000000000000145000 s (execRingReset q src s) := by
  unfold execRingReset
  repeat' first
    | with_reducible exact Only.refl _ _
    | with_reducible refine Only.ite (fun _ => ?_) (fun _ => ?_)
    | with_reducible refine Only.foldl ?_ (fun _ _ => ?_)
    | with_reducible refine OnlyOut.next ?_
    | with_reducible refine OnlyOut.ite (fun _ => ?_) (fun _ => ?_)
    | with_reducible refine State.calRing_only _ ?_ (by decide)
    | with_reducible refine State.ringResetOp_only _ ?_ (by decide)
    | with_reducible refine Only.onObj ?_ (fun _ => ?_) (by decide)

theorem execRingReset_only {N : Nat} {σ s : State} (q : Nat) (src : Src) (hσ : Only N σ s)
    (hN : 0x10010844000000000000000300000000000000001200000000000000000000145000 ||| N = N) : OnlyOut N σ (execRingReset q src s) := hσ.outcome (execRingReset_within q src s) hN

theorem execDescriptorRead_within (q : Nat) (w0 : Word) (w1 : Word) (w2 : Word) (w3 : Word) (s : State) :
    OnlyOut 0x800000000000000000000000000000000000000000000000000000000000000 s (execDescriptorRead q w0 w1 w2 w3 s) := by
  unfold execDescriptorRead
  repeat' first
    | with_reducible exact Only.refl _ _
    | with_reducible refine Only.ite (fun _ => ?_) (fun _ => ?_)
    | with_reducible refine Only.foldl ?_ (fun _ _ => ?_)
    | with_reducible refine OnlyOut.next ?_
    | with_reducible refine OnlyOut.ite (fun _ => ?_) (fun _ => ?_)
    | with_reducible refine State.setRingX_only _ _ ?_ (by decide)

theorem execDescriptorRead_only {N : Nat} {σ s : State} (q : Nat) (w0 : Word) (w1 : Word) (w2 : Word) (w3 : Word) (hσ : Only N σ s)
    (hN : 0x800000000000000000000000000000000000000000000000000000000000000 ||| N = N) : OnlyOut N σ (execDescriptorRead q w0 w1 w2 w3 s) := hσ.outcome (execDescriptorRead_within q w0 w1 w2 w3 s) hN

theorem execDmaError_within (q : Nat) (fail : DmaFail) (s : State) :
    OnlyOut 0x844000000000000000000000000000000000000000000000000000000145000 s (execDmaError q fail s) := by
  unfold execDmaError
  repeat' first
    | with_reducible exact Only.refl _ _
    | with_reducible refine Only.ite (fun _ => ?_) (fun _ => ?_)
    | with_reducible refine Only.foldl ?_ (fun _ _ => ?_)
    | with_reducible refine OnlyOut.next ?_
    | with_reducible refine OnlyOut.ite (fun _ => ?_) (fun _ => ?_)
    | with_reducible refine State.pcieError_only _ ?_ (by decide)
    | with_reducible refine State.drain_only _ ?_ (by decide)
    | with_reducible refine State.post_only _ _ _ ?_ (by decide)
    | with_reducible refine State.recordFail_only _ ?_ (by decide)
    | with_reducible refine State.hwSet_only _ _ _ ?_ (by decide)

theorem execDmaError_only {N : Nat} {σ s : State} (q : Nat) (fail : DmaFail) (hσ : Only N σ s)
    (hN : 0x844000000000000000000000000000000000000000000000000000000145000 ||| N = N) : OnlyOut N σ (execDmaError q fail s) := hσ.outcome (execDmaError_within q fail s) hN

theorem execRingInterrupt_within (q : Nat) (s : State) :
    OnlyOut 0x800000000000000000000000000000000000000000000000000000000000000 s (execRingInterrupt q s) := by
  unfold execRingInterrupt
  repeat' first
    | with_reducible exact Only.refl _ _
    | with_reducible refine Only.ite (fun _ => ?_) (fun _ => ?_)
    | with_reducible refine Only.foldl ?_ (fun _ _ => ?_)
    | with_reducible refine OnlyOut.next ?_
    | with_reducible refine OnlyOut.ite (fun _ => ?_) (fun _ => ?_)
    | with_reducible refine State.setRingX_only _ _ ?_ (by decide)

theorem execRingInterrupt_only {N : Nat} {σ s : State} (q : Nat) (hσ : Only N σ s)
    (hN : 0x800000000000000000000000000000000000000000000000000000000000000 ||| N = N) : OnlyOut N σ (execRingInterrupt q s) := hσ.outcome (execRingInterrupt_within q s) hN

theorem execCompletionRecord_within (q : Nat) (s : State) :
    OnlyOut 0x844000000000000000000000000000000000000000000000000000000145000 s (execCompletionRecord q s) := by
  unfold execCompletionRecord
  repeat' first
    | with_reducible exact Only.refl _ _
    | with_reducible refine Only.ite (fun _ => ?_) (fun _ => ?_)
    | with_reducible refine Only.foldl ?_ (fun _ _ => ?_)
    | with_reducible refine OnlyOut.next ?_
    | with_reducible refine OnlyOut.ite (fun _ => ?_) (fun _ => ?_)
    | with_reducible refine State.writeCompletion_only _ ?_ (by decide)

theorem execCompletionRecord_only {N : Nat} {σ s : State} (q : Nat) (hσ : Only N σ s)
    (hN : 0x844000000000000000000000000000000000000000000000000000000145000 ||| N = N) : OnlyOut N σ (execCompletionRecord q s) := hσ.outcome (execCompletionRecord_within q s) hN

theorem execRingStatusClear_within (q : Nat) (s : State) :
    OnlyOut 0x4000000000000000000000000000000000000000000000000000000101000 s (execRingStatusClear q s) := by
  unfold execRingStatusClear
  repeat' first
    | with_reducible exact Only.refl _ _
    | with_reducible refine Only.ite (fun _ => ?_) (fun _ => ?_)
    | with_reducible refine Only.foldl ?_ (fun _ _ => ?_)
    | with_reducible refine OnlyOut.next ?_
    | with_reducible refine OnlyOut.ite (fun _ => ?_) (fun _ => ?_)
    | with_reducible refine State.set_only _ _ _ _ ?_ (by decide)
    | with_reducible refine State.clear_only _ _ _ ?_ (by decide)

theorem execRingStatusClear_only {N : Nat} {σ s : State} (q : Nat) (hσ : Only N σ s)
    (hN : 0x4000000000000000000000000000000000000000000000000000000101000 ||| N = N) : OnlyOut N σ (execRingStatusClear q s) := hσ.outcome (execRingStatusClear_within q s) hN

theorem execEventStatClear_within (s : State) :
    OnlyOut 0x4000000000000000000000000000000000000000000000000000000005000 s (execEventStatClear s) := by
  unfold execEventStatClear
  repeat' first
    | with_reducible exact Only.refl _ _
    | with_reducible refine Only.ite (fun _ => ?_) (fun _ => ?_)
    | with_reducible refine Only.foldl ?_ (fun _ _ => ?_)
    | with_reducible refine OnlyOut.next ?_
    | with_reducible refine OnlyOut.ite (fun _ => ?_) (fun _ => ?_)
    | with_reducible refine State.set_only _ _ _ _ ?_ (by decide)
    | with_reducible refine State.clear_only _ _ _ ?_ (by decide)

theorem execEventStatClear_only {N : Nat} {σ s : State}  (hσ : Only N σ s)
    (hN : 0x4000000000000000000000000000000000000000000000000000000005000 ||| N = N) : OnlyOut N σ (execEventStatClear s) := hσ.outcome (execEventStatClear_within s) hN

theorem execPcieLink_within (speed : Nat) (width : Nat) (up : Bool) (s : State) :
    OnlyOut 0x2000 s (execPcieLink speed width up s) := by
  unfold execPcieLink
  repeat' first
    | with_reducible exact Only.refl _ _
    | with_reducible refine Only.ite (fun _ => ?_) (fun _ => ?_)
    | with_reducible refine Only.foldl ?_ (fun _ _ => ?_)
    | with_reducible refine OnlyOut.next ?_
    | with_reducible refine OnlyOut.ite (fun _ => ?_) (fun _ => ?_)
    | with_reducible refine State.set_only _ _ _ _ ?_ (by decide)
    | with_reducible refine State.setBit_only _ _ _ _ ?_ (by decide)

theorem execPcieLink_only {N : Nat} {σ s : State} (speed : Nat) (width : Nat) (up : Bool) (hσ : Only N σ s)
    (hN : 0x2000 ||| N = N) : OnlyOut N σ (execPcieLink speed width up s) := hσ.outcome (execPcieLink_within speed width up s) hN

theorem OnlyOut.command {N : Nat} {σ s : State} {q op : Nat} {f : Desc → Token → State → State} (hσ : Only N σ s)
    (hf : ∀ d tok t, Only N t (f d tok t)) (hN : 0x800000000000000000000000000000000000000000000000000000000000000 ||| N = N) : OnlyOut N σ (s.command q op f) := by
  unfold State.command
  split
  · next heq => exact OnlyOut.next ((State.beginCommand_only heq hσ hN).step (hf _ _ _) (Nat.or_self N))
  · exact OnlyOut.next hσ

theorem execCmdNop_within (q : Nat) (s : State) :
    OnlyOut 0x844000000000000000000000000000000000000000000000000000000145000 s (execCmdNop q s) := by
  unfold execCmdNop
  repeat' first
    | with_reducible exact Only.refl _ _
    | with_reducible refine Only.ite (fun _ => ?_) (fun _ => ?_)
    | with_reducible refine Only.foldl ?_ (fun _ _ => ?_)
    | with_reducible refine OnlyOut.next ?_
    | with_reducible refine OnlyOut.ite (fun _ => ?_) (fun _ => ?_)
    | with_reducible refine OnlyOut.command ?_ (fun _ _ _ => ?_) (by decide)
    | with_reducible refine State.completeSame_only _ _ ?_ (by decide)

theorem execCmdNop_only {N : Nat} {σ s : State} (q : Nat) (hσ : Only N σ s)
    (hN : 0x844000000000000000000000000000000000000000000000000000000145000 ||| N = N) : OnlyOut N σ (execCmdNop q s) := hσ.outcome (execCmdNop_within q s) hN

theorem execCmdTableLoad_within (q : Nat) (s : State) :
    OnlyOut 0x844000000000000000000000000000000000000000000000000000000145000 s (execCmdTableLoad q s) := by
  unfold execCmdTableLoad
  repeat' first
    | with_reducible exact Only.refl _ _
    | with_reducible refine Only.ite (fun _ => ?_) (fun _ => ?_)
    | with_reducible refine Only.foldl ?_ (fun _ _ => ?_)
    | with_reducible refine OnlyOut.next ?_
    | with_reducible refine OnlyOut.ite (fun _ => ?_) (fun _ => ?_)
    | with_reducible refine OnlyOut.command ?_ (fun _ _ _ => ?_) (by decide)
    | with_reducible refine State.complete_only _ _ _ _ _ ?_ (by decide)
    | with_reducible refine State.emit_only _ ?_ (by decide)

theorem execCmdTableLoad_only {N : Nat} {σ s : State} (q : Nat) (hσ : Only N σ s)
    (hN : 0x844000000000000000000000000000000000000000000000000000000145000 ||| N = N) : OnlyOut N σ (execCmdTableLoad q s) := hσ.outcome (execCmdTableLoad_within q s) hN

theorem Only.eachWord {N : Nat} {σ s : State} {f : Nat → Nat → State → State} {i : Nat} {l : List Nat} (hσ : Only N σ s)
    (hf : ∀ i w t, Only N t (f i w t)) : Only N σ (eachWord f i l s) := by
  induction l generalizing i s with
  | nil => exact hσ
  | cons w l ih => exact ih (hσ.step (hf _ _ _) (Nat.or_self N))

theorem State.loadItem_within (s : State) (tbl : Nat) (unit : Nat) (item : Nat) (words : List Nat) :
    Only 0x1420000000400000420000000000000000000000000000000000000000000000000 s (State.loadItem s tbl unit item words) := by
  unfold State.loadItem
  repeat' first
    | with_reducible exact Only.refl _ _
    | with_reducible refine Only.ite (fun _ => ?_) (fun _ => ?_)
    | with_reducible refine Only.foldl ?_ (fun _ _ => ?_)
    | with_reducible refine Only.eachWord ?_ (fun _ _ _ => ?_)
    | with_reducible refine State.feStage_only _ _ _ ?_ (by decide)
    | with_reducible refine State.stageSite_only _ _ ?_ (by decide)
    | with_reducible refine State.stageWave_only _ _ _ _ _ ?_ (by decide)
    | with_reducible refine State.stageEdge_only _ _ _ _ _ ?_ (by decide)
    | with_reducible refine State.stagePeriod_only _ _ _ ?_ (by decide)
    | with_reducible refine State.storeRw_only _ _ _ ?_ (by (dsimp only; decide))

theorem State.loadItem_only {N : Nat} {σ s : State} (tbl : Nat) (unit : Nat) (item : Nat) (words : List Nat) (hσ : Only N σ s)
    (hN : 0x1420000000400000420000000000000000000000000000000000000000000000000 ||| N = N) : Only N σ (State.loadItem s tbl unit item words) := hσ.step (State.loadItem_within s tbl unit item words) hN

theorem State.loadItems_within (s : State) (tbl : Nat) (unit : Nat) (per : Nat) (item : Nat) (y0 : Nat) (y1 : List Nat) :
    Only 0x1420000000400000420000000000000000000000000000000000000000000000000 s (State.loadItems s tbl unit per item y0 y1) := by
  induction y0 generalizing s tbl unit per item y1 with
  | zero =>
    unfold State.loadItems
    repeat' first
      | with_reducible exact Only.refl _ _

  | succ n ih =>
    unfold State.loadItems
    repeat' first
      | with_reducible exact Only.refl _ _
      | with_reducible refine Only.ite (fun _ => ?_) (fun _ => ?_)
      | with_reducible refine Only.foldl ?_ (fun _ _ => ?_)
      | with_reducible refine State.loadItem_only _ _ _ _ ?_ (by decide)
      | exact ih ..
      | refine Only.step ?_ (ih ..) (by decide)


theorem State.loadItems_only {N : Nat} {σ s : State} (tbl : Nat) (unit : Nat) (per : Nat) (item : Nat) (y0 : Nat) (y1 : List Nat) (hσ : Only N σ s)
    (hN : 0x1420000000400000420000000000000000000000000000000000000000000000000 ||| N = N) : Only N σ (State.loadItems s tbl unit per item y0 y1) := hσ.step (State.loadItems_within s tbl unit per item y0 y1) hN

theorem execTableLoadData_within (q : Nat) (words : List Word) (ok : Bool) (s : State) :
    OnlyOut 0x1420844000400000420000000000000000000000000000000000000000000145000 s (execTableLoadData q words ok s) := by
  unfold execTableLoadData
  repeat' first
    | with_reducible exact Only.refl _ _
    | with_reducible refine Only.ite (fun _ => ?_) (fun _ => ?_)
    | with_reducible refine Only.foldl ?_ (fun _ _ => ?_)
    | with_reducible refine OnlyOut.next ?_
    | with_reducible refine OnlyOut.ite (fun _ => ?_) (fun _ => ?_)
    | with_reducible refine State.loadItems_only _ _ _ _ _ _ ?_ (by decide)
    | with_reducible refine State.complete_only _ _ _ _ _ ?_ (by decide)
    | with_reducible refine State.post_only _ _ _ ?_ (by decide)
    | split

theorem execTableLoadData_only {N : Nat} {σ s : State} (q : Nat) (words : List Word) (ok : Bool) (hσ : Only N σ s)
    (hN : 0x1420844000400000420000000000000000000000000000000000000000000145000 ||| N = N) : OnlyOut N σ (execTableLoadData q words ok s) := hσ.outcome (execTableLoadData_within q words ok s) hN

theorem execCmdCommitAtPeg_within (q : Nat) (s : State) :
    OnlyOut 0x10034844000000000030000300000000000000001200000000000000000000145000 s (execCmdCommitAtPeg q s) := by
  unfold execCmdCommitAtPeg
  repeat' first
    | with_reducible exact Only.refl _ _
    | with_reducible refine Only.ite (fun _ => ?_) (fun _ => ?_)
    | with_reducible refine Only.foldl ?_ (fun _ _ => ?_)
    | with_reducible refine OnlyOut.next ?_
    | with_reducible refine OnlyOut.ite (fun _ => ?_) (fun _ => ?_)
    | with_reducible refine OnlyOut.command ?_ (fun _ _ _ => ?_) (by decide)
    | with_reducible refine State.calWatch_only  ?_ (by decide)
    | with_reducible refine State.tableCommit_only _ _ _ ?_ (by decide)

theorem execCmdCommitAtPeg_only {N : Nat} {σ s : State} (q : Nat) (hσ : Only N σ s)
    (hN : 0x10034844000000000030000300000000000000001200000000000000000000145000 ||| N = N) : OnlyOut N σ (execCmdCommitAtPeg q s) := hσ.outcome (execCmdCommitAtPeg_within q s) hN

theorem execCmdPageMap_within (q : Nat) (s : State) :
    OnlyOut 0x804844000000000000000000000000000000000000000200000000000000145000 s (execCmdPageMap q s) := by
  unfold execCmdPageMap
  repeat' first
    | with_reducible exact Only.refl _ _
    | with_reducible refine Only.ite (fun _ => ?_) (fun _ => ?_)
    | with_reducible refine Only.foldl ?_ (fun _ _ => ?_)
    | with_reducible refine OnlyOut.next ?_
    | with_reducible refine OnlyOut.ite (fun _ => ?_) (fun _ => ?_)
    | with_reducible refine OnlyOut.command ?_ (fun _ _ _ => ?_) (by decide)
    | with_reducible refine State.windowWrite_only _ _ _ ?_ (by decide)
    | with_reducible refine State.windowWrite_only_eq (by assumption) ?_ (by decide)
    | with_reducible refine State.complete_only _ _ _ _ _ ?_ (by decide)

theorem execCmdPageMap_only {N : Nat} {σ s : State} (q : Nat) (hσ : Only N σ s)
    (hN : 0x804844000000000000000000000000000000000000000200000000000000145000 ||| N = N) : OnlyOut N σ (execCmdPageMap q s) := hσ.outcome (execCmdPageMap_within q s) hN

theorem execCmdStreamPage_within (q : Nat) (s : State) :
    OnlyOut 0x804844000000000000000000000000000000000000000000000000000000145000 s (execCmdStreamPage q s) := by
  unfold execCmdStreamPage
  repeat' first
    | with_reducible exact Only.refl _ _
    | with_reducible refine Only.ite (fun _ => ?_) (fun _ => ?_)
    | with_reducible refine Only.foldl ?_ (fun _ _ => ?_)
    | with_reducible refine OnlyOut.next ?_
    | with_reducible refine OnlyOut.ite (fun _ => ?_) (fun _ => ?_)
    | with_reducible refine OnlyOut.command ?_ (fun _ _ _ => ?_) (by decide)
    | with_reducible refine State.pushPage_only _ _ _ _ ?_ (by decide)

theorem execCmdStreamPage_only {N : Nat} {σ s : State} (q : Nat) (hσ : Only N σ s)
    (hN : 0x804844000000000000000000000000000000000000000000000000000000145000 ||| N = N) : OnlyOut N σ (execCmdStreamPage q s) := hσ.outcome (execCmdStreamPage_within q s) hN

theorem execCmdRaise_within (q : Nat) (s : State) :
    OnlyOut 0xc44000000000000000000000000000000000000000000000200001800945000 s (execCmdRaise q s) := by
  unfold execCmdRaise
  repeat' first
    | with_reducible exact Only.refl _ _
    | with_reducible refine Only.ite (fun _ => ?_) (fun _ => ?_)
    | with_reducible refine Only.foldl ?_ (fun _ _ => ?_)
    | with_reducible refine OnlyOut.next ?_
    | with_reducible refine OnlyOut.ite (fun _ => ?_) (fun _ => ?_)
    | with_reducible refine OnlyOut.command ?_ (fun _ _ _ => ?_) (by decide)
    | with_reducible refine State.cancelRaise_only _ _ _ ?_ (by decide)
    | with_reducible refine State.cancelRaise_only_eq (by assumption) ?_ (by decide)
    | with_reducible refine State.schedule_only _ _ ?_ (by decide)
    | with_reducible refine State.schedule_only_eq (by assumption) ?_ (by decide)
    | with_reducible refine State.originate_only _ _ _ ?_ (by decide)
    | with_reducible refine State.complete_only _ _ _ _ _ ?_ (by decide)
    | split

theorem execCmdRaise_only {N : Nat} {σ s : State} (q : Nat) (hσ : Only N σ s)
    (hN : 0xc44000000000000000000000000000000000000000000000200001800945000 ||| N = N) : OnlyOut N σ (execCmdRaise q s) := hσ.outcome (execCmdRaise_within q s) hN

theorem execCmdAbort_within (q : Nat) (s : State) :
    OnlyOut 0x2d74844004001a4c030007000000000000200000000000000000000000000145000 s (execCmdAbort q s) := by
  unfold execCmdAbort
  repeat' first
    | with_reducible exact Only.refl _ _
    | with_reducible refine Only.ite (fun _ => ?_) (fun _ => ?_)
    | with_reducible refine Only.foldl ?_ (fun _ _ => ?_)
    | fail_if_no_progress with_reducible refine Only.fields ?_ rfl rfl
    | with_reducible refine OnlyOut.next ?_
    | with_reducible refine OnlyOut.ite (fun _ => ?_) (fun _ => ?_)
    | with_reducible refine OnlyOut.command ?_ (fun _ _ _ => ?_) (by decide)
    | with_reducible refine State.requestStop_only _ _ _ _ ?_ (by decide)
    | with_reducible refine State.complete_only _ _ _ _ _ ?_ (by decide)

theorem execCmdAbort_only {N : Nat} {σ s : State} (q : Nat) (hσ : Only N σ s)
    (hN : 0x2d74844004001a4c030007000000000000200000000000000000000000000145000 ||| N = N) : OnlyOut N σ (execCmdAbort q s) := hσ.outcome (execCmdAbort_within q s) hN

theorem execCmdSiteSet_within (q : Nat) (s : State) :
    OnlyOut 0x400844000e00000000000000000000000000000000000000000000000000145000 s (execCmdSiteSet q s) := by
  unfold execCmdSiteSet
  repeat' first
    | with_reducible exact Only.refl _ _
    | with_reducible refine Only.ite (fun _ => ?_) (fun _ => ?_)
    | with_reducible refine Only.foldl ?_ (fun _ _ => ?_)
    | with_reducible refine OnlyOut.next ?_
    | with_reducible refine OnlyOut.ite (fun _ => ?_) (fun _ => ?_)
    | with_reducible refine OnlyOut.command ?_ (fun _ _ _ => ?_) (by decide)
    | with_reducible refine State.siteCommit_only  ?_ (by decide)
    | with_reducible refine State.siteCommit_only_eq (by assumption) ?_ (by decide)
    | with_reducible refine State.complete_only _ _ _ _ _ ?_ (by decide)

theorem execCmdSiteSet_only {N : Nat} {σ s : State} (q : Nat) (hσ : Only N σ s)
    (hN : 0x400844000e00000000000000000000000000000000000000000000000000145000 ||| N = N) : OnlyOut N σ (execCmdSiteSet q s) := hσ.outcome (execCmdSiteSet_within q s) hN

theorem State.snapBay_within (s : State) (clear : Bool) (b : Nat) :
    Only 0x40000000000000000000000000001c0000000000000000000000000001000 s (State.snapBay s clear b) := by
  unfold State.snapBay
  repeat' first
    | with_reducible exact Only.refl _ _
    | with_reducible refine Only.ite (fun _ => ?_) (fun _ => ?_)
    | with_reducible refine Only.foldl ?_ (fun _ _ => ?_)
    | with_reducible refine State.failCountClear_only _ ?_ (by decide)
    | with_reducible refine State.failSnap_only _ ?_ (by decide)
    | with_reducible refine State.superseded_only ?_ (by decide)

theorem State.snapBay_only {N : Nat} {σ s : State} (clear : Bool) (b : Nat) (hσ : Only N σ s)
    (hN : 0x40000000000000000000000000001c0000000000000000000000000001000 ||| N = N) : Only N σ (State.snapBay s clear b) := hσ.step (State.snapBay_within s clear b) hN

theorem execCmdCountersRead_within (q : Nat) (s : State) :
    OnlyOut 0x8440000000000000000000000000001c0000000000000000000000000145000 s (execCmdCountersRead q s) := by
  unfold execCmdCountersRead
  repeat' first
    | with_reducible exact Only.refl _ _
    | with_reducible refine Only.ite (fun _ => ?_) (fun _ => ?_)
    | with_reducible refine Only.foldl ?_ (fun _ _ => ?_)
    | with_reducible refine OnlyOut.next ?_
    | with_reducible refine OnlyOut.ite (fun _ => ?_) (fun _ => ?_)
    | with_reducible refine State.snapBay_only _ _ ?_ (by decide)
    | with_reducible refine OnlyOut.command ?_ (fun _ _ _ => ?_) (by decide)
    | with_reducible refine State.complete_only _ _ _ _ _ ?_ (by decide)
    | with_reducible refine State.hostWrite_only _ ?_ (by decide)

theorem execCmdCountersRead_only {N : Nat} {σ s : State} (q : Nat) (hσ : Only N σ s)
    (hN : 0x8440000000000000000000000000001c0000000000000000000000000145000 ||| N = N) : OnlyOut N σ (execCmdCountersRead q s) := hσ.outcome (execCmdCountersRead_within q s) hN

theorem OnlyOut.fuseCommand {N : Nat} {σ s : State} {q step : Nat} {f : Desc → Token → State → State} (hσ : Only N σ s)
    (hf : ∀ d tok t, Only N t (f d tok t)) (hN : 0x800000000000000000000000000000000000000000000000000000000000000 ||| N = N) : OnlyOut N σ (s.fuseCommand q step f) := by
  unfold State.fuseCommand
  split
  · exact OnlyOut.next hσ
  · split
    · exact OnlyOut.command hσ hf hN
    · exact OnlyOut.next hσ

theorem execFuseArm_within (q : Nat) (s : State) :
    OnlyOut 0x844000000000000000000000000000000000000000000000000000000145000 s (execFuseArm q s) := by
  unfold execFuseArm
  repeat' first
    | with_reducible exact Only.refl _ _
    | with_reducible refine Only.ite (fun _ => ?_) (fun _ => ?_)
    | with_reducible refine Only.foldl ?_ (fun _ _ => ?_)
    | fail_if_no_progress with_reducible refine Only.fields ?_ rfl rfl
    | with_reducible refine OnlyOut.next ?_
    | with_reducible refine OnlyOut.ite (fun _ => ?_) (fun _ => ?_)
    | with_reducible refine OnlyOut.fuseCommand ?_ (fun _ _ _ => ?_) (by decide)
    | with_reducible refine State.completeSame_only _ _ ?_ (by decide)

theorem execFuseArm_only {N : Nat} {σ s : State} (q : Nat) (hσ : Only N σ s)
    (hN : 0x844000000000000000000000000000000000000000000000000000000145000 ||| N = N) : OnlyOut N σ (execFuseArm q s) := hσ.outcome (execFuseArm_within q s) hN

theorem execFuseConfirm_within (q : Nat) (s : State) :
    OnlyOut 0x844000000000000000000000000000000000000000000000000000000145000 s (execFuseConfirm q s) := by
  unfold execFuseConfirm
  repeat' first
    | with_reducible exact Only.refl _ _
    | with_reducible refine Only.ite (fun _ => ?_) (fun _ => ?_)
    | with_reducible refine Only.foldl ?_ (fun _ _ => ?_)
    | fail_if_no_progress with_reducible refine Only.fields ?_ rfl rfl
    | with_reducible refine OnlyOut.next ?_
    | with_reducible refine OnlyOut.ite (fun _ => ?_) (fun _ => ?_)
    | with_reducible refine OnlyOut.fuseCommand ?_ (fun _ _ _ => ?_) (by decide)
    | with_reducible refine State.completeSame_only _ _ ?_ (by decide)

theorem execFuseConfirm_only {N : Nat} {σ s : State} (q : Nat) (hσ : Only N σ s)
    (hN : 0x844000000000000000000000000000000000000000000000000000000145000 ||| N = N) : OnlyOut N σ (execFuseConfirm q s) := hσ.outcome (execFuseConfirm_within q s) hN

theorem execFuseLocked_within (s : State) :
    OnlyOut 0x844000000000000000000000000000000040000000000000000000000145000 s (execFuseLocked s) := by
  unfold execFuseLocked
  repeat' first
    | with_reducible exact Only.refl _ _
    | with_reducible refine Only.ite (fun _ => ?_) (fun _ => ?_)
    | with_reducible refine Only.foldl ?_ (fun _ _ => ?_)
    | fail_if_no_progress with_reducible refine Only.fields ?_ rfl rfl
    | with_reducible refine OnlyOut.next ?_
    | with_reducible refine OnlyOut.ite (fun _ => ?_) (fun _ => ?_)
    | with_reducible refine State.completeSame_only _ _ ?_ (by decide)
    | with_reducible refine State.post_only _ _ _ ?_ (by decide)
    | with_reducible refine State.set_only _ _ _ _ ?_ (by decide)
    | split

theorem execFuseLocked_only {N : Nat} {σ s : State}  (hσ : Only N σ s)
    (hN : 0x844000000000000000000000000000000040000000000000000000000145000 ||| N = N) : OnlyOut N σ (execFuseLocked s) := hσ.outcome (execFuseLocked_within s) hN

theorem execCmdBarrier_within (q : Nat) (s : State) :
    OnlyOut 0x844000000000000000000000000000000000000000000000000000000145000 s (execCmdBarrier q s) := by
  unfold execCmdBarrier
  repeat' first
    | with_reducible exact Only.refl _ _
    | with_reducible refine Only.ite (fun _ => ?_) (fun _ => ?_)
    | with_reducible refine Only.foldl ?_ (fun _ _ => ?_)
    | with_reducible refine OnlyOut.next ?_
    | with_reducible refine OnlyOut.ite (fun _ => ?_) (fun _ => ?_)
    | with_reducible refine OnlyOut.command ?_ (fun _ _ _ => ?_) (by decide)
    | with_reducible refine State.holdBarrier_only _ _ ?_ (by decide)

theorem execCmdBarrier_only {N : Nat} {σ s : State} (q : Nat) (hσ : Only N σ s)
    (hN : 0x844000000000000000000000000000000000000000000000000000000145000 ||| N = N) : OnlyOut N σ (execCmdBarrier q s) := hσ.outcome (execCmdBarrier_within q s) hN

theorem State.beginMail_within (s : State) (q : Nat) (d : Desc) (tok : Token) :
    Only 0x1c44000000000000000000000000000000000080400000000200000000145000 s (State.beginMail s q d tok) := by
  unfold State.beginMail
  repeat' first
    | with_reducible exact Only.refl _ _
    | with_reducible refine Only.ite (fun _ => ?_) (fun _ => ?_)
    | with_reducible refine Only.foldl ?_ (fun _ _ => ?_)
    | with_reducible refine State.hostMail_only _ _ ?_ (by decide)
    | with_reducible refine State.setRingX_only _ _ ?_ (by decide)

theorem State.beginMail_only {N : Nat} {σ s : State} (q : Nat) (d : Desc) (tok : Token) (hσ : Only N σ s)
    (hN : 0x1c44000000000000000000000000000000000080400000000200000000145000 ||| N = N) : Only N σ (State.beginMail s q d tok) := hσ.step (State.beginMail_within s q d tok) hN

theorem execCmdMail_within (q : Nat) (s : State) :
    OnlyOut 0x1c44000000000000000000000000000000000080400000000200000000145000 s (execCmdMail q s) := by
  unfold execCmdMail
  repeat' first
    | with_reducible exact Only.refl _ _
    | with_reducible refine Only.ite (fun _ => ?_) (fun _ => ?_)
    | with_reducible refine Only.foldl ?_ (fun _ _ => ?_)
    | with_reducible refine OnlyOut.next ?_
    | with_reducible refine OnlyOut.ite (fun _ => ?_) (fun _ => ?_)
    | with_reducible refine State.beginMail_only _ _ _ ?_ (by decide)
    | with_reducible refine OnlyOut.command ?_ (fun _ _ _ => ?_) (by decide)

theorem execCmdMail_only {N : Nat} {σ s : State} (q : Nat) (hσ : Only N σ s)
    (hN : 0x1c44000000000000000000000000000000000080400000000200000000145000 ||| N = N) : OnlyOut N σ (execCmdMail q s) := hσ.outcome (execCmdMail_within q s) hN

theorem execUnsupportedOpcode_within (q : Nat) (s : State) :
    OnlyOut 0x844000000000000000000000000000000000000000000000000000000145000 s (execUnsupportedOpcode q s) := by
  unfold execUnsupportedOpcode
  repeat' first
    | with_reducible exact Only.refl _ _
    | with_reducible refine Only.ite (fun _ => ?_) (fun _ => ?_)
    | with_reducible refine Only.foldl ?_ (fun _ _ => ?_)
    | with_reducible refine OnlyOut.next ?_
    | with_reducible refine OnlyOut.ite (fun _ => ?_) (fun _ => ?_)
    | with_reducible refine OnlyOut.command ?_ (fun _ _ _ => ?_) (by decide)
    | with_reducible refine State.completeSame_only _ _ ?_ (by decide)
    | split

theorem execUnsupportedOpcode_only {N : Nat} {σ s : State} (q : Nat) (hσ : Only N σ s)
    (hN : 0x844000000000000000000000000000000000000000000000000000000145000 ||| N = N) : OnlyOut N σ (execUnsupportedOpcode q s) := hσ.outcome (execUnsupportedOpcode_within q s) hN

theorem OnlyOut.descriptor {N : Nat} {σ s : State} {q op : Nat} {f : Desc → Token → State → State} (hσ : Only N σ s)
    (hf : ∀ d tok t, Only N t (f d tok t)) (hN : 0x800000000000000000000000000000000000000000000000000000000000000 ||| N = N) : OnlyOut N σ (s.descriptor q op f) := by
  unfold State.descriptor
  split
  · next heq => exact OnlyOut.next ((State.begin_only heq hσ hN).step (hf _ _ _) (Nat.or_self N))
  · exact OnlyOut.next hσ

theorem execStreamDescriptor_within (q : Nat) (s : State) :
    OnlyOut 0x804844000000000000000000000000000000000000000000000000000000145000 s (execStreamDescriptor q s) := by
  unfold execStreamDescriptor
  repeat' first
    | with_reducible exact Only.refl _ _
    | with_reducible refine Only.ite (fun _ => ?_) (fun _ => ?_)
    | with_reducible refine Only.foldl ?_ (fun _ _ => ?_)
    | with_reducible refine OnlyOut.next ?_
    | with_reducible refine OnlyOut.ite (fun _ => ?_) (fun _ => ?_)
    | with_reducible refine OnlyOut.descriptor ?_ (fun _ _ _ => ?_) (by decide)
    | with_reducible refine State.pushPage_only _ _ _ _ ?_ (by decide)

theorem execStreamDescriptor_only {N : Nat} {σ s : State} (q : Nat) (hσ : Only N σ s)
    (hN : 0x804844000000000000000000000000000000000000000000000000000000145000 ||| N = N) : OnlyOut N σ (execStreamDescriptor q s) := hσ.outcome (execStreamDescriptor_within q s) hN

theorem execMailDescriptor_within (q : Nat) (s : State) :
    OnlyOut 0x1c44000000000000000000000000000000000080400000000200000000145000 s (execMailDescriptor q s) := by
  unfold execMailDescriptor
  repeat' first
    | with_reducible exact Only.refl _ _
    | with_reducible refine Only.ite (fun _ => ?_) (fun _ => ?_)
    | with_reducible refine Only.foldl ?_ (fun _ _ => ?_)
    | with_reducible refine OnlyOut.next ?_
    | with_reducible refine OnlyOut.ite (fun _ => ?_) (fun _ => ?_)
    | with_reducible refine OnlyOut.descriptor ?_ (fun _ _ _ => ?_) (by decide)
    | with_reducible refine State.beginMail_only _ _ _ ?_ (by decide)

theorem execMailDescriptor_only {N : Nat} {σ s : State} (q : Nat) (hσ : Only N σ s)
    (hN : 0x1c44000000000000000000000000000000000080400000000200000000145000 ||| N = N) : OnlyOut N σ (execMailDescriptor q s) := hσ.outcome (execMailDescriptor_within q s) hN

theorem execTimetxDescriptor_within (b : RingData) (s : State) :
    OnlyOut 0xac4000000000000000000000000000000000000000000000000000000145000 s (execTimetxDescriptor b s) := by
  unfold execTimetxDescriptor
  repeat' first
    | with_reducible exact Only.refl _ _
    | with_reducible refine Only.ite (fun _ => ?_) (fun _ => ?_)
    | with_reducible refine Only.foldl ?_ (fun _ _ => ?_)
    | fail_if_no_progress with_reducible refine Only.fields ?_ rfl rfl
    | with_reducible refine OnlyOut.next ?_
    | with_reducible refine OnlyOut.ite (fun _ => ?_) (fun _ => ?_)
    | with_reducible refine OnlyOut.descriptor ?_ (fun _ _ _ => ?_) (by decide)
    | with_reducible refine State.namedRing_only _ _ _ _ _ ?_ (by decide)
    | with_reducible refine State.namedRing_only_eq (by assumption) ?_ (by decide)
    | with_reducible refine State.emit_only _ ?_ (by decide)

theorem execTimetxDescriptor_only {N : Nat} {σ s : State} (b : RingData) (hσ : Only N σ s)
    (hN : 0xac4000000000000000000000000000000000000000000000000000000145000 ||| N = N) : OnlyOut N σ (execTimetxDescriptor b s) := hσ.outcome (execTimetxDescriptor_within b s) hN

theorem execTimerxDescriptor_within (q : Nat) (s : State) :
    OnlyOut 0x800000000000000000000000000000000000000000000000000000000000000 s (execTimerxDescriptor q s) := by
  unfold execTimerxDescriptor
  repeat' first
    | with_reducible exact Only.refl _ _
    | with_reducible refine Only.ite (fun _ => ?_) (fun _ => ?_)
    | with_reducible refine Only.foldl ?_ (fun _ _ => ?_)
    | with_reducible refine OnlyOut.next ?_
    | with_reducible refine OnlyOut.ite (fun _ => ?_) (fun _ => ?_)
    | with_reducible refine State.setRingX_only _ _ ?_ (by decide)
    | split
    | extract_lets

theorem execTimerxDescriptor_only {N : Nat} {σ s : State} (q : Nat) (hσ : Only N σ s)
    (hN : 0x800000000000000000000000000000000000000000000000000000000000000 ||| N = N) : OnlyOut N σ (execTimerxDescriptor q s) := hσ.outcome (execTimerxDescriptor_within q s) hN

end Sys2Proof.Machine
end

