-- ==== Sys2Proof/Laws/Frame/Cal.lean ====
section
/-!
SUPPORT. Cal.lean: what each operation of Machine/Cal.lean can change (see Only).
-/
namespace Sys2Proof.Machine
set_option Elab.async false

theorem execCmdCalRun_within (q : Nat) (s : State) :
    OnlyOut 0x1f310944000000000000000302401c04820000005200000000002000000000145000 s (execCmdCalRun q s) := by
  unfold execCmdCalRun
  repeat' first
    | with_reducible exact Only.refl _ _
    | with_reducible refine Only.ite (fun _ => ?_) (fun _ => ?_)
    | with_reducible refine Only.foldl ?_ (fun _ _ => ?_)
    | with_reducible refine OnlyOut.next ?_
    | with_reducible refine OnlyOut.ite (fun _ => ?_) (fun _ => ?_)
    | with_reducible refine OnlyOut.command ?_ (fun _ _ _ => ?_) (by decide)
    | with_reducible refine State.calStart_only _ _ _ _ _ ?_ (by decide)
    | with_reducible refine State.calStart_only_eq (by assumption) ?_ (by decide)
    | with_reducible refine State.completeSame_only _ _ ?_ (by decide)
    | with_reducible refine State.complete_only _ _ _ _ _ ?_ (by decide)
    | split
    | extract_lets

theorem execCmdCalRun_only {N : Nat} {σ s : State} (q : Nat) (hσ : Only N σ s)
    (hN : 0x1f310944000000000000000302401c04820000005200000000002000000000145000 ||| N = N) : OnlyOut N σ (execCmdCalRun q s) := hσ.outcome (execCmdCalRun_within q s) hN

theorem execTimOffset_within (b : Nat) (offsets : List (Int × Int)) (s : State) :
    OnlyOut 0x11000004000000000000000002000000000000000000000000000000000000001000 s (execTimOffset b offsets s) := by
  unfold execTimOffset
  repeat' first
    | with_reducible exact Only.refl _ _
    | with_reducible refine Only.ite (fun _ => ?_) (fun _ => ?_)
    | with_reducible refine Only.foldl ?_ (fun _ _ => ?_)
    | with_reducible refine OnlyOut.next ?_
    | with_reducible refine OnlyOut.ite (fun _ => ?_) (fun _ => ?_)
    | with_reducible refine State.calData_only _ _ _ ?_ (by decide)

theorem execTimOffset_only {N : Nat} {σ s : State} (b : Nat) (offsets : List (Int × Int)) (hσ : Only N σ s)
    (hN : 0x11000004000000000000000002000000000000000000000000000000000000001000 ||| N = N) : OnlyOut N σ (execTimOffset b offsets s) := hσ.outcome (execTimOffset_within b offsets s) hN

theorem execFineLinearity_within (b : Nat) (images : List Word) (s : State) :
    OnlyOut 0x11000004000000000000000002000000000000000000000000000000000000001000 s (execFineLinearity b images s) := by
  unfold execFineLinearity
  repeat' first
    | with_reducible exact Only.refl _ _
    | with_reducible refine Only.ite (fun _ => ?_) (fun _ => ?_)
    | with_reducible refine Only.foldl ?_ (fun _ _ => ?_)
    | with_reducible refine OnlyOut.next ?_
    | with_reducible refine OnlyOut.ite (fun _ => ?_) (fun _ => ?_)
    | with_reducible refine State.calData_only _ _ _ ?_ (by decide)

theorem execFineLinearity_only {N : Nat} {σ s : State} (b : Nat) (images : List Word) (hσ : Only N σ s)
    (hN : 0x11000004000000000000000002000000000000000000000000000000000000001000 ||| N = N) : OnlyOut N σ (execFineLinearity b images s) := hσ.outcome (execFineLinearity_within b images s) hN

theorem execDriveDeskew_within (b : Nat) (raw : List (Int × Int)) (residual : List (Nat × Nat)) (s : State) :
    OnlyOut 0x11000004000000000000000002000000000000000000000000000000000000001000 s (execDriveDeskew b raw residual s) := by
  unfold execDriveDeskew
  repeat' first
    | with_reducible exact Only.refl _ _
    | with_reducible refine Only.ite (fun _ => ?_) (fun _ => ?_)
    | with_reducible refine Only.foldl ?_ (fun _ _ => ?_)
    | with_reducible refine OnlyOut.next ?_
    | with_reducible refine OnlyOut.ite (fun _ => ?_) (fun _ => ?_)
    | with_reducible refine State.calData_only _ _ _ ?_ (by decide)

theorem execDriveDeskew_only {N : Nat} {σ s : State} (b : Nat) (raw : List (Int × Int)) (residual : List (Nat × Nat)) (hσ : Only N σ s)
    (hN : 0x11000004000000000000000002000000000000000000000000000000000000001000 ||| N = N) : OnlyOut N σ (execDriveDeskew b raw residual s) := hσ.outcome (execDriveDeskew_within b raw residual s) hN

theorem State.roundTripLost_within (s : State) (b : Nat) :
    Only 0x11010844000000000000000302000000000000001200000000000000000000145000 s (State.roundTripLost s b) := by
  unfold State.roundTripLost
  repeat' first
    | with_reducible exact Only.refl _ _
    | with_reducible refine Only.ite (fun _ => ?_) (fun _ => ?_)
    | with_reducible refine Only.foldl ?_ (fun _ _ => ?_)
    | with_reducible refine State.calAbort_only _ _ ?_ (by decide)
    | with_reducible refine State.feRequest_only _ _ _ ?_ (by decide)
    | split

theorem State.roundTripLost_only {N : Nat} {σ s : State} (b : Nat) (hσ : Only N σ s)
    (hN : 0x11010844000000000000000302000000000000001200000000000000000000145000 ||| N = N) : Only N σ (State.roundTripLost s b) := hσ.step (State.roundTripLost_within s b) hN

theorem execRoundTrip_within (b : Nat) (m : Nat) (s : State) :
    OnlyOut 0x11010844000000000000000302000000000000001200000000000000000000145000 s (execRoundTrip b m s) := by
  unfold execRoundTrip
  repeat' first
    | with_reducible exact Only.refl _ _
    | with_reducible refine Only.ite (fun _ => ?_) (fun _ => ?_)
    | with_reducible refine Only.foldl ?_ (fun _ _ => ?_)
    | with_reducible refine OnlyOut.next ?_
    | with_reducible refine OnlyOut.ite (fun _ => ?_) (fun _ => ?_)
    | with_reducible refine State.roundTripLost_only _ ?_ (by decide)
    | with_reducible refine State.calData_only _ _ _ ?_ (by decide)

theorem execRoundTrip_only {N : Nat} {σ s : State} (b : Nat) (m : Nat) (hσ : Only N σ s)
    (hN : 0x11010844000000000000000302000000000000001200000000000000000000145000 ||| N = N) : OnlyOut N σ (execRoundTrip b m s) := hσ.outcome (execRoundTrip_within b m s) hN

theorem execRoundTripTimeout_within (b : Nat) (s : State) :
    OnlyOut 0x11010844000000000000000302000000000000001200000000000000000000145000 s (execRoundTripTimeout b s) := by
  unfold execRoundTripTimeout
  repeat' first
    | with_reducible exact Only.refl _ _
    | with_reducible refine Only.ite (fun _ => ?_) (fun _ => ?_)
    | with_reducible refine Only.foldl ?_ (fun _ _ => ?_)
    | with_reducible refine OnlyOut.next ?_
    | with_reducible refine OnlyOut.ite (fun _ => ?_) (fun _ => ?_)
    | with_reducible refine State.roundTripLost_only _ ?_ (by decide)

theorem execRoundTripTimeout_only {N : Nat} {σ s : State} (b : Nat) (hσ : Only N σ s)
    (hN : 0x11010844000000000000000302000000000000001200000000000000000000145000 ||| N = N) : OnlyOut N σ (execRoundTripTimeout b s) := hσ.outcome (execRoundTripTimeout_within b s) hN

theorem execCompareDeskew_within (b : Nat) (raw : List (Int × Int)) (residual : List (Nat × Nat)) (eyes : List (Nat × Nat)) (s : State) :
    OnlyOut 0x11000004000000000000000002000000000000000000000000000000000000001000 s (execCompareDeskew b raw residual eyes s) := by
  unfold execCompareDeskew
  repeat' first
    | with_reducible exact Only.refl _ _
    | with_reducible refine Only.ite (fun _ => ?_) (fun _ => ?_)
    | with_reducible refine Only.foldl ?_ (fun _ _ => ?_)
    | with_reducible refine OnlyOut.next ?_
    | with_reducible refine OnlyOut.ite (fun _ => ?_) (fun _ => ?_)
    | with_reducible refine State.calData_only _ _ _ ?_ (by decide)

theorem execCompareDeskew_only {N : Nat} {σ s : State} (b : Nat) (raw : List (Int × Int)) (residual : List (Nat × Nat)) (eyes : List (Nat × Nat)) (hσ : Only N σ s)
    (hN : 0x11000004000000000000000002000000000000000000000000000000000000001000 ||| N = N) : OnlyOut N σ (execCompareDeskew b raw residual eyes s) := hσ.outcome (execCompareDeskew_within b raw residual eyes s) hN

theorem execAdc_within (b : Nat) (values : List (Int × Int)) (residual : List Nat) (s : State) :
    OnlyOut 0x11000004000000000000000002000000000000000000000000000000000000001000 s (execAdc b values residual s) := by
  unfold execAdc
  repeat' first
    | with_reducible exact Only.refl _ _
    | with_reducible refine Only.ite (fun _ => ?_) (fun _ => ?_)
    | with_reducible refine Only.foldl ?_ (fun _ _ => ?_)
    | with_reducible refine OnlyOut.next ?_
    | with_reducible refine OnlyOut.ite (fun _ => ?_) (fun _ => ?_)
    | with_reducible refine State.calData_only _ _ _ ?_ (by decide)

theorem execAdc_only {N : Nat} {σ s : State} (b : Nat) (values : List (Int × Int)) (residual : List Nat) (hσ : Only N σ s)
    (hN : 0x11000004000000000000000002000000000000000000000000000000000000001000 ||| N = N) : OnlyOut N σ (execAdc b values residual s) := hσ.outcome (execAdc_within b values residual s) hN

theorem execDclkDuty_within (b : Nat) (dutyA : Int) (dutyB : Int) (s : State) :
    OnlyOut 0x11000004000000000000000002000000000000000000000000000000000000001000 s (execDclkDuty b dutyA dutyB s) := by
  unfold execDclkDuty
  repeat' first
    | with_reducible exact Only.refl _ _
    | with_reducible refine Only.ite (fun _ => ?_) (fun _ => ?_)
    | with_reducible refine Only.foldl ?_ (fun _ _ => ?_)
    | with_reducible refine OnlyOut.next ?_
    | with_reducible refine OnlyOut.ite (fun _ => ?_) (fun _ => ?_)
    | with_reducible refine State.calData_only _ _ _ ?_ (by decide)

theorem execDclkDuty_only {N : Nat} {σ s : State} (b : Nat) (dutyA : Int) (dutyB : Int) (hσ : Only N σ s)
    (hN : 0x11000004000000000000000002000000000000000000000000000000000000001000 ||| N = N) : OnlyOut N σ (execDclkDuty b dutyA dutyB s) := hσ.outcome (execDclkDuty_within b dutyA dutyB s) hN

theorem execBayFull_within (b : Nat) (s : State) :
    OnlyOut 0x11000004000000000000000002000000000000000000000000000000000000001000 s (execBayFull b s) := by
  unfold execBayFull
  repeat' first
    | with_reducible exact Only.refl _ _
    | with_reducible refine Only.ite (fun _ => ?_) (fun _ => ?_)
    | with_reducible refine Only.foldl ?_ (fun _ _ => ?_)
    | with_reducible refine OnlyOut.next ?_
    | with_reducible refine OnlyOut.ite (fun _ => ?_) (fun _ => ?_)
    | with_reducible refine State.calNext_only _ ?_ (by decide)

theorem execBayFull_only {N : Nat} {σ s : State} (b : Nat) (hσ : Only N σ s)
    (hN : 0x11000004000000000000000002000000000000000000000000000000000000001000 ||| N = N) : OnlyOut N σ (execBayFull b s) := hσ.outcome (execBayFull_within b s) hN

theorem execTimeTrim_within (s : State) :
    OnlyOut 0x844000000000000000000000000000000004000000000000000000000145000 s (execTimeTrim s) := by
  unfold execTimeTrim
  repeat' first
    | with_reducible exact Only.refl _ _
    | with_reducible refine Only.ite (fun _ => ?_) (fun _ => ?_)
    | with_reducible refine Only.foldl ?_ (fun _ _ => ?_)
    | with_reducible refine OnlyOut.next ?_
    | with_reducible refine OnlyOut.ite (fun _ => ?_) (fun _ => ?_)
    | with_reducible refine State.timeTrim_only  ?_ (by decide)

theorem execTimeTrim_only {N : Nat} {σ s : State}  (hσ : Only N σ s)
    (hN : 0x844000000000000000000000000000000004000000000000000000000145000 ||| N = N) : OnlyOut N σ (execTimeTrim s) := hσ.outcome (execTimeTrim_within s) hN

theorem execCalDone_within (b : Nat) (s : State) :
    OnlyOut 0x1001084401ffffffffffffffffffffffffffffffffffffffffffffffffffffffffff s (execCalDone b s) := by
  unfold execCalDone
  repeat' first
    | with_reducible exact Only.refl _ _
    | with_reducible refine Only.ite (fun _ => ?_) (fun _ => ?_)
    | with_reducible refine Only.foldl ?_ (fun _ _ => ?_)
    | with_reducible refine OnlyOut.next ?_
    | with_reducible refine OnlyOut.ite (fun _ => ?_) (fun _ => ?_)
    | with_reducible refine State.calUpdate_only _ ?_ (by decide)
    | with_reducible refine Only.onObj ?_ (fun _ => ?_) (by decide)
    | split

theorem execCalDone_only {N : Nat} {σ s : State} (b : Nat) (hσ : Only N σ s)
    (hN : 0x1001084401ffffffffffffffffffffffffffffffffffffffffffffffffffffffffff ||| N = N) : OnlyOut N σ (execCalDone b s) := hσ.outcome (execCalDone_within b s) hN

theorem execCalAbort_within (mask : Nat) (src : Src) (s : State) :
    OnlyOut 0x10010844000000000000000300000000000000001200000000000000000000145000 s (execCalAbort mask src s) := by
  unfold execCalAbort
  repeat' first
    | with_reducible exact Only.refl _ _
    | with_reducible refine Only.ite (fun _ => ?_) (fun _ => ?_)
    | with_reducible refine Only.foldl ?_ (fun _ _ => ?_)
    | with_reducible refine OnlyOut.next ?_
    | with_reducible refine OnlyOut.ite (fun _ => ?_) (fun _ => ?_)
    | with_reducible refine State.calAbort_only _ _ ?_ (by decide)
    | with_reducible refine Only.onObj ?_ (fun _ => ?_) (by decide)

theorem execCalAbort_only {N : Nat} {σ s : State} (mask : Nat) (src : Src) (hσ : Only N σ s)
    (hN : 0x10010844000000000000000300000000000000001200000000000000000000145000 ||| N = N) : OnlyOut N σ (execCalAbort mask src s) := hσ.outcome (execCalAbort_within mask src s) hN

theorem execStoreCommit_within (s : State) :
    OnlyOut 0x10000000000000000000000000000000000000000200000000000000000000000000 s (execStoreCommit s) := by
  unfold execStoreCommit
  repeat' first
    | with_reducible exact Only.refl _ _
    | with_reducible refine Only.ite (fun _ => ?_) (fun _ => ?_)
    | with_reducible refine Only.foldl ?_ (fun _ _ => ?_)
    | with_reducible refine OnlyOut.next ?_
    | with_reducible refine OnlyOut.ite (fun _ => ?_) (fun _ => ?_)
    | with_reducible refine State.storeRequest_only _ ?_ (by decide)

theorem execStoreCommit_only {N : Nat} {σ s : State}  (hσ : Only N σ s)
    (hN : 0x10000000000000000000000000000000000000000200000000000000000000000000 ||| N = N) : OnlyOut N σ (execStoreCommit s) := hσ.outcome (execStoreCommit_within s) hN

theorem execCalStore_within (ok : Bool) (s : State) :
    OnlyOut 0x10000844000000000000000000000000000000000200000000000000000000145000 s (execCalStore ok s) := by
  unfold execCalStore
  repeat' first
    | with_reducible exact Only.refl _ _
    | with_reducible refine Only.ite (fun _ => ?_) (fun _ => ?_)
    | with_reducible refine Only.foldl ?_ (fun _ _ => ?_)
    | with_reducible refine OnlyOut.next ?_
    | with_reducible refine OnlyOut.ite (fun _ => ?_) (fun _ => ?_)
    | with_reducible refine State.endCommit_only _ ?_ (by decide)

theorem execCalStore_only {N : Nat} {σ s : State} (ok : Bool) (hσ : Only N σ s)
    (hN : 0x10000844000000000000000000000000000000000200000000000000000000145000 ||| N = N) : OnlyOut N σ (execCalStore ok s) := hσ.outcome (execCalStore_within ok s) hN

theorem State.updateDrift_within (s : State) (b : Nat) :
    Only 0x844000000000000000000000000000000001000000000000000000000145000 s (State.updateDrift s b) := by
  unfold State.updateDrift
  repeat' first
    | with_reducible exact Only.refl _ _
    | with_reducible refine Only.ite (fun _ => ?_) (fun _ => ?_)
    | with_reducible refine Only.foldl ?_ (fun _ _ => ?_)
    | with_reducible refine State.post_only _ _ _ ?_ (by decide)
    | with_reducible refine State.set_only _ _ _ _ ?_ (by decide)
    | with_reducible refine State.setBit_only _ _ _ _ ?_ (by decide)

theorem State.updateDrift_only {N : Nat} {σ s : State} (b : Nat) (hσ : Only N σ s)
    (hN : 0x844000000000000000000000000000000001000000000000000000000145000 ||| N = N) : Only N σ (State.updateDrift s b) := hσ.step (State.updateDrift_within s b) hN

theorem execDriftUpdate_within (s : State) :
    OnlyOut 0x10000844000000000000000000000000000000001000000000000000000000145000 s (execDriftUpdate s) := by
  unfold execDriftUpdate
  repeat' first
    | with_reducible exact Only.refl _ _
    | with_reducible refine Only.ite (fun _ => ?_) (fun _ => ?_)
    | with_reducible refine Only.foldl ?_ (fun _ _ => ?_)
    | fail_if_no_progress with_reducible refine Only.fields ?_ rfl rfl
    | with_reducible refine OnlyOut.next ?_
    | with_reducible refine OnlyOut.ite (fun _ => ?_) (fun _ => ?_)
    | with_reducible refine State.updateDrift_only _ ?_ (by decide)

theorem execDriftUpdate_only {N : Nat} {σ s : State}  (hσ : Only N σ s)
    (hN : 0x10000844000000000000000000000000000000001000000000000000000000145000 ||| N = N) : OnlyOut N σ (execDriftUpdate s) := hσ.outcome (execDriftUpdate_within s) hN

theorem execEyeMeasure_within (p : Nat) (eyes : BitVec 32) (s : State) :
    OnlyOut 0x400000000000000000000000000000000008000000000000000000000000000 s (execEyeMeasure p eyes s) := by
  unfold execEyeMeasure
  repeat' first
    | with_reducible exact Only.refl _ _
    | with_reducible refine Only.ite (fun _ => ?_) (fun _ => ?_)
    | with_reducible refine Only.foldl ?_ (fun _ _ => ?_)
    | with_reducible refine OnlyOut.next ?_
    | with_reducible refine OnlyOut.ite (fun _ => ?_) (fun _ => ?_)
    | with_reducible refine State.setPortX_only _ _ ?_ (by decide)
    | with_reducible refine State.set_only _ _ _ _ ?_ (by decide)

theorem execEyeMeasure_only {N : Nat} {σ s : State} (p : Nat) (eyes : BitVec 32) (hσ : Only N σ s)
    (hN : 0x400000000000000000000000000000000008000000000000000000000000000 ||| N = N) : OnlyOut N σ (execEyeMeasure p eyes s) := hσ.outcome (execEyeMeasure_within p eyes s) hN

end Sys2Proof.Machine
end

