-- ==== Sys2Proof/Laws/Frame/OpsLane.lean ====
section
/-!
SUPPORT. OpsLane.lean: what each operation of Machine/OpsLane.lean can change (see Only).
-/
namespace Sys2Proof.Machine
set_option Elab.async false

theorem State.sendBlocks_within (s : State) (p : Nat) (bs : List (Nat × List Nat)) :
    Only 0x440000000000000000000000000000000000000000000000000000000000000 s (State.sendBlocks s p bs) := by
  unfold State.sendBlocks
  repeat' first
    | with_reducible exact Only.refl _ _
    | with_reducible refine Only.ite (fun _ => ?_) (fun _ => ?_)
    | with_reducible refine Only.foldl ?_ (fun _ _ => ?_)
    | with_reducible refine State.setPortX_only _ _ ?_ (by decide)
    | with_reducible refine State.emit_only _ ?_ (by decide)

theorem State.sendBlocks_only {N : Nat} {σ s : State} (p : Nat) (bs : List (Nat × List Nat)) (hσ : Only N σ s)
    (hN : 0x440000000000000000000000000000000000000000000000000000000000000 ||| N = N) : Only N σ (State.sendBlocks s p bs) := hσ.step (State.sendBlocks_within s p bs) hN

theorem State.sendControl_within (s : State) (p : Nat) (ty : Nat) :
    Only 0x440000000000000000000000000000000000000000000000000000000000000 s (State.sendControl s p ty) := by
  unfold State.sendControl
  repeat' first
    | with_reducible exact Only.refl _ _
    | with_reducible refine Only.ite (fun _ => ?_) (fun _ => ?_)
    | with_reducible refine Only.foldl ?_ (fun _ _ => ?_)
    | with_reducible refine State.sendBlocks_only _ _ ?_ (by decide)

theorem State.sendControl_only {N : Nat} {σ s : State} (p : Nat) (ty : Nat) (hσ : Only N σ s)
    (hN : 0x440000000000000000000000000000000000000000000000000000000000000 ||| N = N) : Only N σ (State.sendControl s p ty) := hσ.step (State.sendControl_within s p ty) hN

theorem State.linkFrame_within (s : State) (p : Nat) (nak : Bool) :
    Only 0x400000000000000000000000000000000000000000000000000000000000000 s (State.linkFrame s p nak).2 := by
  unfold State.linkFrame
  repeat' first
    | with_reducible exact Only.refl _ _
    | with_reducible refine Only.ite (fun _ => ?_) (fun _ => ?_)
    | with_reducible refine Only.foldl ?_ (fun _ _ => ?_)
    | with_reducible refine State.setPortX_only _ _ ?_ (by decide)

theorem State.linkFrame_only {N : Nat} {σ s : State} (p : Nat) (nak : Bool) (hσ : Only N σ s)
    (hN : 0x400000000000000000000000000000000000000000000000000000000000000 ||| N = N) : Only N σ (State.linkFrame s p nak).2 := hσ.step (State.linkFrame_within s p nak) hN

theorem State.linkFrame_only_eq {N : Nat} {σ s t : State} {p : Nat} {nak : Bool} {v : Frame} (heq : State.linkFrame s p nak = (v, t)) (hσ : Only N σ s)
    (hN : 0x400000000000000000000000000000000000000000000000000000000000000 ||| N = N) : Only N σ t := hσ.step (Only.snd heq (State.linkFrame_within s p nak)) hN

theorem State.formFrame_within (s : State) (p : Nat) (e : Frame × Option Token) :
    Only 0x400000000000000000000000000000000000000000000000000000000000000 s (State.formFrame s p e).2 := by
  unfold State.formFrame
  repeat' first
    | with_reducible exact Only.refl _ _
    | with_reducible refine Only.ite (fun _ => ?_) (fun _ => ?_)
    | with_reducible refine Only.foldl ?_ (fun _ _ => ?_)
    | with_reducible refine State.setPortX_only _ _ ?_ (by decide)

theorem State.formFrame_only {N : Nat} {σ s : State} (p : Nat) (e : Frame × Option Token) (hσ : Only N σ s)
    (hN : 0x400000000000000000000000000000000000000000000000000000000000000 ||| N = N) : Only N σ (State.formFrame s p e).2 := hσ.step (State.formFrame_within s p e) hN

theorem State.formFrame_only_eq {N : Nat} {σ s t : State} {p : Nat} {e : Frame × Option Token} {v : Frame} (heq : State.formFrame s p e = (v, t)) (hσ : Only N σ s)
    (hN : 0x400000000000000000000000000000000000000000000000000000000000000 ||| N = N) : Only N σ t := hσ.step (Only.snd heq (State.formFrame_within s p e)) hN

theorem State.bulkData_within (s : State) (b : BulkTx) (k : Nat) :
    Only 0x200c44000000000000000000000000000000000000000030002240000000145000 s (State.bulkData s b k).2 := by
  unfold State.bulkData
  repeat' first
    | with_reducible exact Only.refl _ _
    | with_reducible refine Only.ite (fun _ => ?_) (fun _ => ?_)
    | with_reducible refine Only.foldl ?_ (fun _ _ => ?_)
    | fail_if_no_progress with_reducible refine Only.fields ?_ rfl rfl
    | with_reducible refine State.dramRead_only _ _ ?_ (by decide)
    | with_reducible refine State.dramRead_only_eq (by assumption) ?_ (by decide)
    | with_reducible refine State.bulkEnd_only _ _ ?_ (by decide)
    | with_reducible refine State.unicast_only _ _ _ _ _ _ ?_ (by decide)
    | split
    | extract_lets

theorem State.bulkData_only {N : Nat} {σ s : State} (b : BulkTx) (k : Nat) (hσ : Only N σ s)
    (hN : 0x200c44000000000000000000000000000000000000000030002240000000145000 ||| N = N) : Only N σ (State.bulkData s b k).2 := hσ.step (State.bulkData_within s b k) hN

theorem State.bulkData_only_eq {N : Nat} {σ s t : State} {b : BulkTx} {k : Nat} {v : Option Frame} (heq : State.bulkData s b k = (v, t)) (hσ : Only N σ s)
    (hN : 0x200c44000000000000000000000000000000000000000030002240000000145000 ||| N = N) : Only N σ t := hσ.step (Only.snd heq (State.bulkData_within s b k)) hN

theorem State.idleFrame_within (s : State) (p : Nat) :
    Only 0x400000000000000000000000000000000000000000000000000000000000000 s (State.idleFrame s p).2 := by
  unfold State.idleFrame
  repeat' first
    | with_reducible exact Only.refl _ _
    | with_reducible refine Only.ite (fun _ => ?_) (fun _ => ?_)
    | with_reducible refine Only.foldl ?_ (fun _ _ => ?_)
    | with_reducible refine State.linkFrame_only _ _ ?_ (by decide)
    | with_reducible refine State.linkFrame_only_eq (by assumption) ?_ (by decide)
    | split
    | extract_lets

theorem State.idleFrame_only {N : Nat} {σ s : State} (p : Nat) (hσ : Only N σ s)
    (hN : 0x400000000000000000000000000000000000000000000000000000000000000 ||| N = N) : Only N σ (State.idleFrame s p).2 := hσ.step (State.idleFrame_within s p) hN

theorem State.idleFrame_only_eq {N : Nat} {σ s t : State} {p : Nat} {v : Option Frame} (heq : State.idleFrame s p = (v, t)) (hσ : Only N σ s)
    (hN : 0x400000000000000000000000000000000000000000000000000000000000000 ||| N = N) : Only N σ t := hσ.step (Only.snd heq (State.idleFrame_within s p)) hN

theorem State.nextFrame_within (s : State) (p : Nat) :
    Only 0x200c44000000000000000000000000000000000000000030002240000000145000 s (State.nextFrame s p).2 := by
  unfold State.nextFrame
  repeat' first
    | with_reducible exact Only.refl _ _
    | with_reducible refine Only.ite (fun _ => ?_) (fun _ => ?_)
    | with_reducible refine Only.foldl ?_ (fun _ _ => ?_)
    | with_reducible refine State.idleFrame_only _ ?_ (by decide)
    | with_reducible refine State.idleFrame_only_eq (by assumption) ?_ (by decide)
    | with_reducible refine State.bulkData_only _ _ ?_ (by decide)
    | with_reducible refine State.bulkData_only_eq (by assumption) ?_ (by decide)
    | with_reducible refine State.formFrame_only _ _ ?_ (by decide)
    | with_reducible refine State.formFrame_only_eq (by assumption) ?_ (by decide)
    | with_reducible refine State.linkFrame_only _ _ ?_ (by decide)
    | with_reducible refine State.linkFrame_only_eq (by assumption) ?_ (by decide)
    | with_reducible refine State.setPortX_only _ _ ?_ (by decide)
    | split
    | extract_lets

theorem State.nextFrame_only {N : Nat} {σ s : State} (p : Nat) (hσ : Only N σ s)
    (hN : 0x200c44000000000000000000000000000000000000000030002240000000145000 ||| N = N) : Only N σ (State.nextFrame s p).2 := hσ.step (State.nextFrame_within s p) hN

theorem State.nextFrame_only_eq {N : Nat} {σ s t : State} {p : Nat} {v : Option Frame} (heq : State.nextFrame s p = (v, t)) (hσ : Only N σ s)
    (hN : 0x200c44000000000000000000000000000000000000000030002240000000145000 ||| N = N) : Only N σ t := hσ.step (Only.snd heq (State.nextFrame_within s p)) hN

theorem State.sendSlot_within (s : State) (p : Nat) :
    Only 0x200c44000000000000000000000000000000000000000030002240000000145000 s (State.sendSlot s p) := by
  unfold State.sendSlot
  repeat' first
    | with_reducible exact Only.refl _ _
    | with_reducible refine Only.ite (fun _ => ?_) (fun _ => ?_)
    | with_reducible refine Only.foldl ?_ (fun _ _ => ?_)
    | with_reducible refine State.nextFrame_only _ ?_ (by decide)
    | with_reducible refine State.nextFrame_only_eq (by assumption) ?_ (by decide)
    | with_reducible refine State.sendControl_only _ _ ?_ (by decide)
    | with_reducible refine State.sendBlocks_only _ _ ?_ (by decide)
    | with_reducible refine State.setPortX_only _ _ ?_ (by decide)
    | with_reducible refine State.emit_only _ ?_ (by decide)
    | split

theorem State.sendSlot_only {N : Nat} {σ s : State} (p : Nat) (hσ : Only N σ s)
    (hN : 0x200c44000000000000000000000000000000000000000030002240000000145000 ||| N = N) : Only N σ (State.sendSlot s p) := hσ.step (State.sendSlot_within s p) hN

theorem State.endSlot_within (s : State) (p : Nat) :
    Only 0x440000000000000000000000000000000000000000000000000000000000000 s (State.endSlot s p) := by
  unfold State.endSlot
  repeat' first
    | with_reducible exact Only.refl _ _
    | with_reducible refine Only.ite (fun _ => ?_) (fun _ => ?_)
    | with_reducible refine Only.foldl ?_ (fun _ _ => ?_)
    | with_reducible refine State.sendBlocks_only _ _ ?_ (by decide)
    | with_reducible refine State.setPortX_only _ _ ?_ (by decide)

theorem State.endSlot_only {N : Nat} {σ s : State} (p : Nat) (hσ : Only N σ s)
    (hN : 0x440000000000000000000000000000000000000000000000000000000000000 ||| N = N) : Only N σ (State.endSlot s p) := hσ.step (State.endSlot_within s p) hN

theorem State.sendAlign_within (s : State) (p : Nat) :
    Only 0x440000000000000000000000000000000000000000000000000000000000000 s (State.sendAlign s p) := by
  unfold State.sendAlign
  repeat' first
    | with_reducible exact Only.refl _ _
    | with_reducible refine Only.ite (fun _ => ?_) (fun _ => ?_)
    | with_reducible refine Only.foldl ?_ (fun _ _ => ?_)
    | with_reducible refine State.sendBlocks_only _ _ ?_ (by decide)
    | with_reducible refine State.setPortX_only _ _ ?_ (by decide)

theorem State.sendAlign_only {N : Nat} {σ s : State} (p : Nat) (hσ : Only N σ s)
    (hN : 0x440000000000000000000000000000000000000000000000000000000000000 ||| N = N) : Only N σ (State.sendAlign s p) := hσ.step (State.sendAlign_within s p) hN

theorem State.blockTime_within (s : State) (p : Nat) :
    Only 0x200c44000000000000000000000000000000000000000030002240000000145000 s (State.blockTime s p) := by
  unfold State.blockTime
  repeat' first
    | with_reducible exact Only.refl _ _
    | with_reducible refine Only.ite (fun _ => ?_) (fun _ => ?_)
    | with_reducible refine Only.foldl ?_ (fun _ _ => ?_)
    | with_reducible refine State.sendAlign_only _ ?_ (by decide)
    | with_reducible refine State.endSlot_only _ ?_ (by decide)
    | with_reducible refine State.sendSlot_only _ ?_ (by decide)
    | with_reducible refine State.sendControl_only _ _ ?_ (by decide)
    | with_reducible refine State.setPortX_only _ _ ?_ (by decide)

theorem State.blockTime_only {N : Nat} {σ s : State} (p : Nat) (hσ : Only N σ s)
    (hN : 0x200c44000000000000000000000000000000000000000030002240000000145000 ||| N = N) : Only N σ (State.blockTime s p) := hσ.step (State.blockTime_within s p) hN

theorem State.blockTimes_within (s : State) (p : Nat) (y0 : Nat) :
    Only 0x200c44000000000000000000000000000000000000000030002240000000145000 s (State.blockTimes s p y0) := by
  induction y0 generalizing s p with
  | zero =>
    unfold State.blockTimes
    repeat' first
      | with_reducible exact Only.refl _ _

  | succ n ih =>
    unfold State.blockTimes
    repeat' first
      | with_reducible exact Only.refl _ _
      | with_reducible refine Only.ite (fun _ => ?_) (fun _ => ?_)
      | with_reducible refine Only.foldl ?_ (fun _ _ => ?_)
      | with_reducible refine State.blockTime_only _ ?_ (by decide)
      | exact ih ..
      | refine Only.step ?_ (ih ..) (by decide)


theorem State.blockTimes_only {N : Nat} {σ s : State} (p : Nat) (y0 : Nat) (hσ : Only N σ s)
    (hN : 0x200c44000000000000000000000000000000000000000030002240000000145000 ||| N = N) : Only N σ (State.blockTimes s p y0) := hσ.step (State.blockTimes_within s p y0) hN

theorem State.transmit_within (s : State) (n : Nat) (p : Nat) :
    Only 0x200c44000000000000000000000000000000000000000030002240000000145000 s (State.transmit s n p) := by
  unfold State.transmit
  repeat' first
    | with_reducible exact Only.refl _ _
    | with_reducible refine Only.ite (fun _ => ?_) (fun _ => ?_)
    | with_reducible refine Only.foldl ?_ (fun _ _ => ?_)
    | with_reducible refine State.blockTimes_only _ _ ?_ (by decide)
    | with_reducible refine State.setPortX_only _ _ ?_ (by decide)

theorem State.transmit_only {N : Nat} {σ s : State} (n : Nat) (p : Nat) (hσ : Only N σ s)
    (hN : 0x200c44000000000000000000000000000000000000000030002240000000145000 ||| N = N) : Only N σ (State.transmit s n p) := hσ.step (State.transmit_within s n p) hN

theorem State.transmitAll_within (s : State) (n : Nat) :
    Only 0x200c44000000000000000000000000000000000000000030002240000000145000 s (State.transmitAll s n) := by
  unfold State.transmitAll
  repeat' first
    | with_reducible exact Only.refl _ _
    | with_reducible refine Only.ite (fun _ => ?_) (fun _ => ?_)
    | with_reducible refine Only.foldl ?_ (fun _ _ => ?_)
    | with_reducible refine State.transmit_only _ _ ?_ (by decide)

theorem State.transmitAll_only {N : Nat} {σ s : State} (n : Nat) (hσ : Only N σ s)
    (hN : 0x200c44000000000000000000000000000000000000000030002240000000145000 ||| N = N) : Only N σ (State.transmitAll s n) := hσ.step (State.transmitAll_within s n) hN

end Sys2Proof.Machine
end

