-- ==== Sys2Proof/Laws/Frame/OpsAuth.lean ====
section
/-!
SUPPORT. OpsAuth.lean: what each operation of Machine/OpsAuth.lean can change (see Only).
-/
namespace Sys2Proof.Machine
set_option Elab.async false

end Sys2Proof.Machine
end

