-- ==== Sys2Proof/Laws/Frame/Dispatcher.lean ====
section
/-!
SUPPORT. Dispatcher.lean: what each operation of Machine/Dispatcher.lean can change (see Only).
-/
namespace Sys2Proof.Machine
set_option Elab.async false

theorem State.setPending_within (s : State) (c : Nat) (reason : Nat) :
    Only 0x1000000000000000000000000000000000000000020000000000000000000000 s (State.setPending s c reason) := by
  unfold State.setPending
  repeat' first
    | with_reducible exact Only.refl _ _
    | with_reducible refine Only.ite (fun _ => ?_) (fun _ => ?_)
    | with_reducible refine Only.foldl ?_ (fun _ _ => ?_)
    | with_reducible refine State.setCoreX_only _ _ ?_ (by decide)
    | with_reducible refine State.set_only _ _ _ _ ?_ (by decide)

theorem State.setPending_only {N : Nat} {σ s : State} (c : Nat) (reason : Nat) (hσ : Only N σ s)
    (hN : 0x1000000000000000000000000000000000000000020000000000000000000000 ||| N = N) : Only N σ (State.setPending s c reason) := hσ.step (State.setPending_within s c reason) hN

theorem State.refreshCore_within (s : State) (c : Nat) :
    Only 0x1000000000000000000000000000000000000000020000000000000000000000 s (State.refreshCore s c) := by
  unfold State.refreshCore
  repeat' first
    | with_reducible exact Only.refl _ _
    | with_reducible refine Only.ite (fun _ => ?_) (fun _ => ?_)
    | with_reducible refine Only.foldl ?_ (fun _ _ => ?_)
    | with_reducible refine State.setPending_only _ _ ?_ (by decide)
    | split

theorem State.refreshCore_only {N : Nat} {σ s : State} (c : Nat) (hσ : Only N σ s)
    (hN : 0x1000000000000000000000000000000000000000020000000000000000000000 ||| N = N) : Only N σ (State.refreshCore s c) := hσ.step (State.refreshCore_within s c) hN

theorem State.refreshCores_within (s : State) :
    Only 0x1000000000000000000000000000000000000000020000000000000000000000 s (State.refreshCores s) := by
  unfold State.refreshCores
  repeat' first
    | with_reducible exact Only.refl _ _
    | with_reducible refine Only.ite (fun _ => ?_) (fun _ => ?_)
    | with_reducible refine Only.foldl ?_ (fun _ _ => ?_)
    | with_reducible refine State.refreshCore_only _ ?_ (by decide)

theorem State.refreshCores_only {N : Nat} {σ s : State}  (hσ : Only N σ s)
    (hN : 0x1000000000000000000000000000000000000000020000000000000000000000 ||| N = N) : Only N σ (State.refreshCores s) := hσ.step (State.refreshCores_within s) hN

theorem State.waitSample_within (s : State) (j : Nat) :
    Only 0x800000000000000000000000 s (State.waitSample s j) := by
  unfold State.waitSample
  repeat' first
    | with_reducible exact Only.refl _ _
    | with_reducible refine Only.ite (fun _ => ?_) (fun _ => ?_)
    | with_reducible refine Only.foldl ?_ (fun _ _ => ?_)
    | with_reducible refine State.set_only _ _ _ _ ?_ (by decide)
    | with_reducible refine State.setBit_only _ _ _ _ ?_ (by decide)

theorem State.waitSample_only {N : Nat} {σ s : State} (j : Nat) (hσ : Only N σ s)
    (hN : 0x800000000000000000000000 ||| N = N) : Only N σ (State.waitSample s j) := hσ.step (State.waitSample_within s j) hN

theorem State.coreIdle_within (s : State) (c : Nat) :
    Only 0x1000000000000000000000000000000000000000020000000000000000000000 s (State.coreIdle s c) := by
  unfold State.coreIdle
  repeat' first
    | with_reducible exact Only.refl _ _
    | with_reducible refine Only.ite (fun _ => ?_) (fun _ => ?_)
    | with_reducible refine Only.foldl ?_ (fun _ _ => ?_)
    | with_reducible refine State.setCoreX_only _ _ ?_ (by decide)
    | with_reducible refine State.set_only _ _ _ _ ?_ (by decide)

theorem State.coreIdle_only {N : Nat} {σ s : State} (c : Nat) (hσ : Only N σ s)
    (hN : 0x1000000000000000000000000000000000000000020000000000000000000000 ||| N = N) : Only N σ (State.coreIdle s c) := hσ.step (State.coreIdle_within s c) hN

theorem State.coreTakes_within (s : State) (c : Nat) (j : Nat) :
    Only 0x1000000000000000000000000000000000000000c20000000000000000000000 s (State.coreTakes s c j) := by
  unfold State.coreTakes
  repeat' first
    | with_reducible exact Only.refl _ _
    | with_reducible refine Only.ite (fun _ => ?_) (fun _ => ?_)
    | with_reducible refine Only.foldl ?_ (fun _ _ => ?_)
    | with_reducible refine State.waitSample_only _ ?_ (by decide)
    | with_reducible refine State.unready_only _ ?_ (by decide)
    | with_reducible refine State.setCoreX_only _ _ ?_ (by decide)
    | with_reducible refine State.set_only _ _ _ _ ?_ (by decide)

theorem State.coreTakes_only {N : Nat} {σ s : State} (c : Nat) (j : Nat) (hσ : Only N σ s)
    (hN : 0x1000000000000000000000000000000000000000c20000000000000000000000 ||| N = N) : Only N σ (State.coreTakes s c j) := hσ.step (State.coreTakes_within s c j) hN

theorem State.switchTo_within (s : State) (c : Nat) (own : Option Nat) (tg : Option Nat) :
    Only 0x1000000000000000000000000000000000000000c20000000000000000000000 s (State.switchTo s c own tg).2 := by
  unfold State.switchTo
  repeat' first
    | with_reducible exact Only.refl _ _
    | with_reducible refine Only.ite (fun _ => ?_) (fun _ => ?_)
    | with_reducible refine Only.foldl ?_ (fun _ _ => ?_)
    | with_reducible refine State.coreTakes_only _ _ ?_ (by decide)
    | with_reducible refine State.coreIdle_only _ ?_ (by decide)
    | with_reducible refine State.set_only _ _ _ _ ?_ (by decide)
    | split

theorem State.switchTo_only {N : Nat} {σ s : State} (c : Nat) (own : Option Nat) (tg : Option Nat) (hσ : Only N σ s)
    (hN : 0x1000000000000000000000000000000000000000c20000000000000000000000 ||| N = N) : Only N σ (State.switchTo s c own tg).2 := hσ.step (State.switchTo_within s c own tg) hN

theorem State.switchTo_only_eq {N : Nat} {σ s t : State} {c : Nat} {own : Option Nat} {tg : Option Nat} {v : Nat} (heq : State.switchTo s c own tg = (v, t)) (hσ : Only N σ s)
    (hN : 0x1000000000000000000000000000000000000000c20000000000000000000000 ||| N = N) : Only N σ t := hσ.step (Only.snd heq (State.switchTo_within s c own tg)) hN

theorem State.makeReadyOp_within (s : State) (j : Nat) (src : Src) :
    Only 0x1004000000000000000000000000000000000000400000000000000000001000 s (State.makeReadyOp s j src) := by
  unfold State.makeReadyOp
  repeat' first
    | with_reducible exact Only.refl _ _
    | with_reducible refine Only.ite (fun _ => ?_) (fun _ => ?_)
    | with_reducible refine Only.foldl ?_ (fun _ _ => ?_)
    | with_reducible refine OnlyOut.next ?_
    | with_reducible refine OnlyOut.ite (fun _ => ?_) (fun _ => ?_)
    | with_reducible refine State.makeReady_only _ _ ?_ (by decide)
    | with_reducible refine State.decideEvent_only _ _ _ _ ?_ (by decide)
    | with_reducible refine State.decideEvent_only_eq (by assumption) ?_ (by decide)
    | with_reducible refine State.setBit_only _ _ _ _ ?_ (by decide)
    | with_reducible refine State.superseded_only ?_ (by decide)
    | split

theorem State.makeReadyOp_only {N : Nat} {σ s : State} (j : Nat) (src : Src) (hσ : Only N σ s)
    (hN : 0x1004000000000000000000000000000000000000400000000000000000001000 ||| N = N) : Only N σ (State.makeReadyOp s j src) := hσ.step (State.makeReadyOp_within s j src) hN

theorem State.cancelPending_within (s : State) (j : Nat) :
    Only 0x1000000000000000000000000000000000000000020000000000000000000000 s (State.cancelPending s j) := by
  unfold State.cancelPending
  repeat' first
    | with_reducible exact Only.refl _ _
    | with_reducible refine Only.ite (fun _ => ?_) (fun _ => ?_)
    | with_reducible refine Only.foldl ?_ (fun _ _ => ?_)
    | with_reducible refine State.setPending_only _ _ ?_ (by decide)
    | split

theorem State.cancelPending_only {N : Nat} {σ s : State} (j : Nat) (hσ : Only N σ s)
    (hN : 0x1000000000000000000000000000000000000000020000000000000000000000 ||| N = N) : Only N σ (State.cancelPending s j) := hσ.step (State.cancelPending_within s j) hN

theorem State.cancelOp_within (s : State) (j : Nat) (src : Src) :
    Only 0x1004000000000000000000000000000000000000620000000000000000001000 s (State.cancelOp s j src) := by
  unfold State.cancelOp
  repeat' first
    | with_reducible exact Only.refl _ _
    | with_reducible refine Only.ite (fun _ => ?_) (fun _ => ?_)
    | with_reducible refine Only.foldl ?_ (fun _ _ => ?_)
    | with_reducible refine State.cancelPending_only _ ?_ (by decide)
    | with_reducible refine State.unready_only _ ?_ (by decide)
    | with_reducible refine Only.onObj ?_ (fun _ => ?_) (by decide)
    | with_reducible refine State.set_only _ _ _ _ ?_ (by decide)

theorem State.cancelOp_only {N : Nat} {σ s : State} (j : Nat) (src : Src) (hσ : Only N σ s)
    (hN : 0x1004000000000000000000000000000000000000620000000000000000001000 ||| N = N) : Only N σ (State.cancelOp s j src) := hσ.step (State.cancelOp_within s j src) hN

theorem State.slotResetOp_within (s : State) (j : Nat) (src : Src) :
    Only 0x1004000000000000000000000000000000000000620000000000000000001000 s (State.slotResetOp s j src) := by
  unfold State.slotResetOp
  repeat' first
    | with_reducible exact Only.refl _ _
    | with_reducible refine Only.ite (fun _ => ?_) (fun _ => ?_)
    | with_reducible refine Only.foldl ?_ (fun _ _ => ?_)
    | with_reducible refine State.cancelPending_only _ ?_ (by decide)
    | with_reducible refine State.unready_only _ ?_ (by decide)
    | with_reducible refine Only.onObj ?_ (fun _ => ?_) (by decide)
    | with_reducible refine State.set_only _ _ _ _ ?_ (by decide)

theorem State.slotResetOp_only {N : Nat} {σ s : State} (j : Nat) (src : Src) (hσ : Only N σ s)
    (hN : 0x1004000000000000000000000000000000000000620000000000000000001000 ||| N = N) : Only N σ (State.slotResetOp s j src) := hσ.step (State.slotResetOp_within s j src) hN

theorem State.clrFlagsOp_within (s : State) (j : Nat) (mask : Nat) (src : Src) :
    Only 0x4000000000000000000000000000000000000400000000000000000001000 s (State.clrFlagsOp s j mask src) := by
  unfold State.clrFlagsOp
  repeat' first
    | with_reducible exact Only.refl _ _
    | with_reducible refine Only.ite (fun _ => ?_) (fun _ => ?_)
    | with_reducible refine Only.foldl ?_ (fun _ _ => ?_)
    | with_reducible refine Only.onObj ?_ (fun _ => ?_) (by decide)
    | with_reducible refine State.set_only _ _ _ _ ?_ (by decide)

theorem State.clrFlagsOp_only {N : Nat} {σ s : State} (j : Nat) (mask : Nat) (src : Src) (hσ : Only N σ s)
    (hN : 0x4000000000000000000000000000000000000400000000000000000001000 ||| N = N) : Only N σ (State.clrFlagsOp s j mask src) := hσ.step (State.clrFlagsOp_within s j mask src) hN

theorem State.setFlowX_within (s : State) (f : Nat) (x : FlowX) :
    Only 0x1000000000000000000000000000000000000000000000000000000000000000 s (State.setFlowX s f x) := by
  unfold State.setFlowX
  repeat' first
    | with_reducible exact Only.refl _ _
    | with_reducible refine Only.ite (fun _ => ?_) (fun _ => ?_)
    | with_reducible refine Only.foldl ?_ (fun _ _ => ?_)
    | fail_if_no_progress with_reducible refine Only.fields ?_ rfl rfl

theorem State.setFlowX_only {N : Nat} {σ s : State} (f : Nat) (x : FlowX) (hσ : Only N σ s)
    (hN : 0x1000000000000000000000000000000000000000000000000000000000000000 ||| N = N) : Only N σ (State.setFlowX s f x) := hσ.step (State.setFlowX_within s f x) hN

theorem State.wakeWorker_within (s : State) (f : Nat) (src : Src) :
    Only 0x1004000000000000000000000000000000000000400000000000000000001000 s (State.wakeWorker s f src) := by
  unfold State.wakeWorker
  repeat' first
    | with_reducible exact Only.refl _ _
    | with_reducible refine Only.ite (fun _ => ?_) (fun _ => ?_)
    | with_reducible refine Only.foldl ?_ (fun _ _ => ?_)
    | with_reducible refine State.setFlags_only _ _ _ ?_ (by decide)
    | split

theorem State.wakeWorker_only {N : Nat} {σ s : State} (f : Nat) (src : Src) (hσ : Only N σ s)
    (hN : 0x1004000000000000000000000000000000000000400000000000000000001000 ||| N = N) : Only N σ (State.wakeWorker s f src) := hσ.step (State.wakeWorker_within s f src) hN

theorem State.submitItem_within (s : State) (f : Nat) (handle : Nat) (src : Src) :
    Only 0x1004000000000000000000000000000000000000400000000000000000001000 s (State.submitItem s f handle src) := by
  unfold State.submitItem
  repeat' first
    | with_reducible exact Only.refl _ _
    | with_reducible refine Only.ite (fun _ => ?_) (fun _ => ?_)
    | with_reducible refine Only.foldl ?_ (fun _ _ => ?_)
    | with_reducible refine State.wakeWorker_only _ _ ?_ (by decide)
    | with_reducible refine State.setFlowX_only _ _ ?_ (by decide)

theorem State.submitItem_only {N : Nat} {σ s : State} (f : Nat) (handle : Nat) (src : Src) (hσ : Only N σ s)
    (hN : 0x1004000000000000000000000000000000000000400000000000000000001000 ||| N = N) : Only N σ (State.submitItem s f handle src) := hσ.step (State.submitItem_within s f handle src) hN

theorem State.refuseFlow_within (s : State) (f : Nat) :
    Only 0x4000000000000000000000000000000000000100000000000000000001000 s (State.refuseFlow s f) := by
  unfold State.refuseFlow
  repeat' first
    | with_reducible exact Only.refl _ _
    | with_reducible refine Only.ite (fun _ => ?_) (fun _ => ?_)
    | with_reducible refine Only.foldl ?_ (fun _ _ => ?_)
    | with_reducible refine State.count_only _ _ _ _ _ ?_ (by decide)

theorem State.refuseFlow_only {N : Nat} {σ s : State} (f : Nat) (hσ : Only N σ s)
    (hN : 0x4000000000000000000000000000000000000100000000000000000001000 ||| N = N) : Only N σ (State.refuseFlow s f) := hσ.step (State.refuseFlow_within s f) hN

theorem State.submitOp_within (s : State) (f : Nat) (handle : Nat) (src : Src) :
    Only 0x1004000000000000000000000000000000000000500000000000000000001000 s (State.submitOp s f handle src) := by
  unfold State.submitOp
  repeat' first
    | with_reducible exact Only.refl _ _
    | with_reducible refine Only.ite (fun _ => ?_) (fun _ => ?_)
    | with_reducible refine Only.foldl ?_ (fun _ _ => ?_)
    | with_reducible refine State.refuseFlow_only _ ?_ (by decide)
    | with_reducible refine State.submitItem_only _ _ _ ?_ (by decide)
    | with_reducible refine State.decideEvent_only _ _ _ _ ?_ (by decide)
    | with_reducible refine State.decideEvent_only_eq (by assumption) ?_ (by decide)
    | with_reducible refine State.superseded_only ?_ (by decide)
    | split

theorem State.submitOp_only {N : Nat} {σ s : State} (f : Nat) (handle : Nat) (src : Src) (hσ : Only N σ s)
    (hN : 0x1004000000000000000000000000000000000000500000000000000000001000 ||| N = N) : Only N σ (State.submitOp s f handle src) := hσ.step (State.submitOp_within s f handle src) hN

theorem State.flowSend_within (s : State) (f : Nat) (rec : List Word) :
    Only 0xc44000000000000000000000000000000000000000000000200000000145000 s (s.flowSend f rec).2 ∧ ∀ t, (s.flowSend f rec).1 = some t → Only 0xc44000000000000000000000000000000000000000000000200000000145000 s t := by
  unfold State.flowSend
  split
  · exact ⟨.refl .., fun t h => by cases h; exact .refl ..⟩
  · split
    · dsimp only
      generalize (if s.get F.ringCfgType (s.get F.dispFlowCfgRing 0 f) = 5 then 5 else 2) = ty
      have ht := State.namedRing_only 7 f (s.get F.dispFlowCfgRing 0 f) ty false (Only.refl 0xc44000000000000000000000000000000000000000000000200000000145000 s) (by decide)
      split
      · exact ⟨ht, fun u h => by cases h; exact State.pushEntry_only _ _ ht (by decide)⟩
      · exact ⟨ht, fun u h => by cases h⟩
    · dsimp only
      split
      · exact ⟨.refl .., fun t h => by cases h; exact .refl ..⟩
      · split
        · exact ⟨.refl .., fun t h => by cases h; exact State.unicast_only _ _ _ _ _ _ (.refl ..) (by decide)⟩
        · exact ⟨.refl .., fun t h => by cases h⟩

theorem State.flowSend_sent {N : Nat} {σ s t u : State} {f : Nat} {rec : List Word} (heq : s.flowSend f rec = (some t, u))
    (hσ : Only N σ s) (hN : 0xc44000000000000000000000000000000000000000000000200000000145000 ||| N = N) : Only N σ t :=
  hσ.step ((State.flowSend_within s f rec).2 t (by rw [heq])) hN

theorem State.flowSend_kept {N : Nat} {σ s u : State} {o : Option State} {f : Nat} {rec : List Word}
    (heq : s.flowSend f rec = (o, u)) (hσ : Only N σ s) (hN : 0xc44000000000000000000000000000000000000000000000200000000145000 ||| N = N) : Only N σ u :=
  hσ.step (Only.snd heq (State.flowSend_within s f rec).1) hN

theorem State.flowDrain_within (s : State) (f : Nat) (y0 : List Item) :
    Only 0x1c44000000000000000000000000000000000000100000000200000000145000 s (State.flowDrain s f y0) := by
  induction y0 generalizing s f with
  | nil =>
    unfold State.flowDrain
    repeat' first
      | with_reducible exact Only.refl _ _
      | with_reducible refine Only.ite (fun _ => ?_) (fun _ => ?_)
      | with_reducible refine Only.foldl ?_ (fun _ _ => ?_)
      | with_reducible refine State.flowSend_sent (by assumption) ?_ (by decide)
      | with_reducible refine State.flowSend_kept (by assumption) ?_ (by decide)
      | with_reducible refine State.setFlowX_only _ _ ?_ (by decide)
      | with_reducible refine State.set_only _ _ _ _ ?_ (by decide)

  | cons a l ih =>
    unfold State.flowDrain
    repeat' first
      | with_reducible exact Only.refl _ _
      | with_reducible refine Only.ite (fun _ => ?_) (fun _ => ?_)
      | with_reducible refine Only.foldl ?_ (fun _ _ => ?_)
      | with_reducible refine State.flowSend_sent (by assumption) ?_ (by decide)
      | with_reducible refine State.flowSend_kept (by assumption) ?_ (by decide)
      | with_reducible refine State.setFlowX_only _ _ ?_ (by decide)
      | with_reducible refine State.set_only _ _ _ _ ?_ (by decide)
      | exact ih ..
      | refine Only.step ?_ (ih ..) (by decide)
      | split


theorem State.flowDrain_only {N : Nat} {σ s : State} (f : Nat) (y0 : List Item) (hσ : Only N σ s)
    (hN : 0x1c44000000000000000000000000000000000000100000000200000000145000 ||| N = N) : Only N σ (State.flowDrain s f y0) := hσ.step (State.flowDrain_within s f y0) hN

theorem State.releaseOp_within (s : State) (f : Nat) (slot : Nat) (out : Option (List Word)) :
    Only 0x1c44000000000000000000000000000000000000100000000200000000145000 s (State.releaseOp s f slot out) := by
  unfold State.releaseOp
  repeat' first
    | with_reducible exact Only.refl _ _
    | with_reducible refine Only.ite (fun _ => ?_) (fun _ => ?_)
    | with_reducible refine Only.foldl ?_ (fun _ _ => ?_)
    | with_reducible refine State.flowDrain_only _ _ ?_ (by decide)
    | with_reducible refine State.refuseFlow_only _ ?_ (by decide)

theorem State.releaseOp_only {N : Nat} {σ s : State} (f : Nat) (slot : Nat) (out : Option (List Word)) (hσ : Only N σ s)
    (hN : 0x1c44000000000000000000000000000000000000100000000200000000145000 ||| N = N) : Only N σ (State.releaseOp s f slot out) := hσ.step (State.releaseOp_within s f slot out) hN

theorem State.opDone_within (s : State) (c : Nat) (e : CoreEntry) (v : Nat) :
    Only 0x1000000000000000000000000000000000000000000000000000000000000000 s (State.opDone s c e v) := by
  unfold State.opDone
  repeat' first
    | with_reducible exact Only.refl _ _
    | with_reducible refine Only.ite (fun _ => ?_) (fun _ => ?_)
    | with_reducible refine Only.foldl ?_ (fun _ _ => ?_)
    | with_reducible refine State.setCoreX_only _ _ ?_ (by decide)

theorem State.opDone_only {N : Nat} {σ s : State} (c : Nat) (e : CoreEntry) (v : Nat) (hσ : Only N σ s)
    (hN : 0x1000000000000000000000000000000000000000000000000000000000000000 ||| N = N) : Only N σ (State.opDone s c e v) := hσ.step (State.opDone_within s c e v) hN

theorem State.queueOp_within (s : State) (c : Nat) (e : CoreEntry) :
    Only 0x1000000000000000000000000000000000000000000000000000000000000000 s (State.queueOp s c e) := by
  unfold State.queueOp
  repeat' first
    | with_reducible exact Only.refl _ _
    | with_reducible refine Only.ite (fun _ => ?_) (fun _ => ?_)
    | with_reducible refine Only.foldl ?_ (fun _ _ => ?_)
    | with_reducible refine State.setCoreX_only _ _ ?_ (by decide)

theorem State.queueOp_only {N : Nat} {σ s : State} (c : Nat) (e : CoreEntry) (hσ : Only N σ s)
    (hN : 0x1000000000000000000000000000000000000000000000000000000000000000 ||| N = N) : Only N σ (State.queueOp s c e) := hσ.step (State.queueOp_within s c e) hN

theorem State.sendmailOp_only {N : Nat} {s0 s t : State} {c block : Nat} {e : CoreEntry}
    (h : s.sendmailOp c e block = some t) (g : Only N s0 s) (hN : 0x1404000000000000000000000000000000000082400000000200000000001000 ||| N = N) : Only N s0 t := by
  unfold State.sendmailOp at h
  extract_lets l chip m t' at h
  split at h
  · cases h
    exact State.opDone_only _ _ _ g (sub_of (by decide) hN)
  · split at h
    · split at h
      · cases h
        exact State.opDone_only _ _ _ (State.inboxPut_only _ g (sub_of (by decide) hN)) (sub_of (by decide) hN)
      · cases h
        exact ((Only.refl 0x1404000000000000000000000000000000000082400000000200000000001000 s).step (State.setCoreX_only _ _ (.refl ..) (by decide)) (Nat.or_self _)).fields rfl rfl |> g.step <| hN
    · split at h
      · cases h
        exact State.opDone_only _ _ _ (State.count_only _ _ _ _ _ g (sub_of (by decide) hN)) (sub_of (by decide) hN)
      · split at h
        · cases h
          exact State.opDone_only _ _ _ (State.unicast_only _ _ _ _ _ _ g (sub_of (by decide) hN)) (sub_of (by decide) hN)
        · cases h

theorem State.sampleOp_only {N : Nat} {s0 s t : State} {c : Nat} {e : CoreEntry}
    (h : s.sampleOp c e = some t) (g : Only N s0 s) (hN : 0x1404000000000000000000000000000000000082720000000200000000001000 ||| N = N) : Only N s0 t := by
  unfold State.sampleOp at h
  split at h
  · cases h; exact State.opDone_only _ _ _ (State.makeReadyOp_only _ _ g (sub_of (by decide) hN)) (sub_of (by decide) hN)
  · cases h; exact State.opDone_only _ _ _ (State.cancelOp_only _ _ g (sub_of (by decide) hN)) (sub_of (by decide) hN)
  · cases h; exact State.opDone_only _ _ _ (State.setFlags_only _ _ _ g (sub_of (by decide) hN)) (sub_of (by decide) hN)
  · cases h; exact State.opDone_only _ _ _ (State.clrFlagsOp_only _ _ _ g (sub_of (by decide) hN)) (sub_of (by decide) hN)
  · cases h; exact State.opDone_only _ _ _ (State.slotResetOp_only _ _ g (sub_of (by decide) hN)) (sub_of (by decide) hN)
  · split at h
    · cases h
    · cases h; exact State.opDone_only _ _ _ (State.submitOp_only _ _ _ g (sub_of (by decide) hN)) (sub_of (by decide) hN)
  · exact State.sendmailOp_only h g (sub_of (by decide) hN)
  · cases h; exact State.setCoreX_only _ _ g (sub_of (by decide) hN)

theorem State.opSampled_within (s : State) (c : Nat) :
    Only 0x1000000000000000000000000000000000000000000000000000000000000000 s (State.opSampled s c) := by
  unfold State.opSampled
  repeat' first
    | with_reducible exact Only.refl _ _
    | with_reducible refine Only.ite (fun _ => ?_) (fun _ => ?_)
    | with_reducible refine Only.foldl ?_ (fun _ _ => ?_)
    | with_reducible refine State.setCoreX_only _ _ ?_ (by decide)

theorem State.opSampled_only {N : Nat} {σ s : State} (c : Nat) (hσ : Only N σ s)
    (hN : 0x1000000000000000000000000000000000000000000000000000000000000000 ||| N = N) : Only N σ (State.opSampled s c) := hσ.step (State.opSampled_within s c) hN

theorem State.sampleNext_within (s : State) (c : Nat) :
    Only 0x1404000000000000000000000000000000000082720000000200000000001000 s (State.sampleNext s c) := by
  unfold State.sampleNext
  repeat' first
    | with_reducible exact Only.refl _ _
    | with_reducible refine Only.ite (fun _ => ?_) (fun _ => ?_)
    | with_reducible refine Only.foldl ?_ (fun _ _ => ?_)
    | with_reducible refine State.opSampled_only _ ?_ (by decide)
    | with_reducible refine State.sampleOp_only (by assumption) ?_ (by decide)
    | with_reducible refine State.queueOp_only _ _ ?_ (by decide)
    | with_reducible refine State.setCoreX_only _ _ ?_ (by decide)
    | split
    | extract_lets

theorem State.sampleNext_only {N : Nat} {σ s : State} (c : Nat) (hσ : Only N σ s)
    (hN : 0x1404000000000000000000000000000000000082720000000200000000001000 ||| N = N) : Only N σ (State.sampleNext s c) := hσ.step (State.sampleNext_within s c) hN

theorem State.sampleCores_within (s : State) :
    Only 0x1404000000000000000000000000000000000082720000000200000000001000 s (State.sampleCores s) := by
  unfold State.sampleCores
  repeat' first
    | with_reducible exact Only.refl _ _
    | with_reducible refine Only.ite (fun _ => ?_) (fun _ => ?_)
    | with_reducible refine Only.foldl ?_ (fun _ _ => ?_)
    | with_reducible refine State.sampleNext_only _ ?_ (by decide)
    | with_reducible refine State.setCoreX_only _ _ ?_ (by decide)

theorem State.sampleCores_only {N : Nat} {σ s : State}  (hσ : Only N σ s)
    (hN : 0x1404000000000000000000000000000000000082720000000200000000001000 ||| N = N) : Only N σ (State.sampleCores s) := hσ.step (State.sampleCores_within s) hN

theorem State.coreIssues_within (s : State) (c : Nat) (op : CoreOp) :
    Only 0x1404000000000000000000000000000000000082720000000200000000001000 s (State.coreIssues s c op) := by
  unfold State.coreIssues
  repeat' first
    | with_reducible exact Only.refl _ _
    | with_reducible refine Only.ite (fun _ => ?_) (fun _ => ?_)
    | with_reducible refine Only.foldl ?_ (fun _ _ => ?_)
    | with_reducible refine State.opSampled_only _ ?_ (by decide)
    | with_reducible refine State.sampleOp_only (by assumption) ?_ (by decide)
    | with_reducible refine State.queueOp_only _ _ ?_ (by decide)
    | split

theorem State.coreIssues_only {N : Nat} {σ s : State} (c : Nat) (op : CoreOp) (hσ : Only N σ s)
    (hN : 0x1404000000000000000000000000000000000082720000000200000000001000 ||| N = N) : Only N σ (State.coreIssues s c op) := hσ.step (State.coreIssues_within s c op) hN

theorem State.waitThread_within (s : State) (j : Nat) :
    Only 0x1000000000000000000000000000000000000000400000000000000000000000 s (State.waitThread s j) := by
  unfold State.waitThread
  repeat' first
    | with_reducible exact Only.refl _ _
    | with_reducible refine Only.ite (fun _ => ?_) (fun _ => ?_)
    | with_reducible refine Only.foldl ?_ (fun _ _ => ?_)
    | fail_if_no_progress with_reducible refine Only.fields ?_ rfl rfl
    | with_reducible refine State.makeReady_only _ _ ?_ (by decide)
    | with_reducible refine State.set_only _ _ _ _ ?_ (by decide)

theorem State.waitThread_only {N : Nat} {σ s : State} (j : Nat) (hσ : Only N σ s)
    (hN : 0x1000000000000000000000000000000000000000400000000000000000000000 ||| N = N) : Only N σ (State.waitThread s j) := hσ.step (State.waitThread_within s j) hN

theorem State.leaveThread_only {N : Nat} {σ s : State} (c j : Nat) (o : CoreOp) (hσ : Only N σ s) (hN : 0x1000000000000000000000000000000000000000400000000000000000000000 ||| N = N) :
    Only N σ (s.leaveThread c j o) := by
  unfold State.leaveThread
  split
  · exact State.waitThread_only _ hσ (sub_of (by decide) hN)
  · exact State.makeReady_only _ _ hσ (sub_of (by decide) hN)
  · exact State.makeReady_only _ _ hσ (sub_of (by decide) hN)

theorem State.takeOp_within (s : State) (c : Nat) (f : Nat) :
    Only 0x1004000000000000000000000000000000000000400000000000000000001000 s (State.takeOp s c f).2 := by
  unfold State.takeOp
  repeat' first
    | with_reducible exact Only.refl _ _
    | with_reducible refine Only.ite (fun _ => ?_) (fun _ => ?_)
    | with_reducible refine Only.foldl ?_ (fun _ _ => ?_)
    | with_reducible refine State.wakeWorker_only _ _ ?_ (by decide)
    | with_reducible refine State.setFlowX_only _ _ ?_ (by decide)
    | split
    | extract_lets

theorem State.takeOp_only {N : Nat} {σ s : State} (c : Nat) (f : Nat) (hσ : Only N σ s)
    (hN : 0x1004000000000000000000000000000000000000400000000000000000001000 ||| N = N) : Only N σ (State.takeOp s c f).2 := hσ.step (State.takeOp_within s c f) hN

theorem State.takeOp_only_eq {N : Nat} {σ s t : State} {c : Nat} {f : Nat} {v : Nat} (heq : State.takeOp s c f = (v, t)) (hσ : Only N σ s)
    (hN : 0x1004000000000000000000000000000000000000400000000000000000001000 ||| N = N) : Only N σ t := hσ.step (Only.snd heq (State.takeOp_within s c f)) hN

theorem State.takeFlagsOp_within (s : State) (c : Nat) :
    Only 0x400000000000000000000000 s (State.takeFlagsOp s c).2 := by
  unfold State.takeFlagsOp
  repeat' first
    | with_reducible exact Only.refl _ _
    | with_reducible refine Only.ite (fun _ => ?_) (fun _ => ?_)
    | with_reducible refine Only.foldl ?_ (fun _ _ => ?_)
    | with_reducible refine State.set_only _ _ _ _ ?_ (by decide)
    | split

theorem State.takeFlagsOp_only {N : Nat} {σ s : State} (c : Nat) (hσ : Only N σ s)
    (hN : 0x400000000000000000000000 ||| N = N) : Only N σ (State.takeFlagsOp s c).2 := hσ.step (State.takeFlagsOp_within s c) hN

theorem State.takeFlagsOp_only_eq {N : Nat} {σ s t : State} {c : Nat} {v : Nat} (heq : State.takeFlagsOp s c = (v, t)) (hσ : Only N σ s)
    (hN : 0x400000000000000000000000 ||| N = N) : Only N σ t := hσ.step (Only.snd heq (State.takeFlagsOp_within s c)) hN

theorem State.ownOp_within (s : State) (c : Nat) (e : CoreEntry) :
    Only 0x1c44000000000000000000000000000000000000700000000200000000145000 s (State.ownOp s c e) := by
  unfold State.ownOp
  repeat' first
    | with_reducible exact Only.refl _ _
    | with_reducible refine Only.ite (fun _ => ?_) (fun _ => ?_)
    | with_reducible refine Only.foldl ?_ (fun _ _ => ?_)
    | with_reducible refine State.takeFlagsOp_only _ ?_ (by decide)
    | with_reducible refine State.takeFlagsOp_only_eq (by assumption) ?_ (by decide)
    | with_reducible refine State.takeOp_only _ _ ?_ (by decide)
    | with_reducible refine State.takeOp_only_eq (by assumption) ?_ (by decide)
    | with_reducible refine State.leaveThread_only _ _ _ ?_ (by decide)
    | with_reducible refine State.opDone_only _ _ _ ?_ (by decide)
    | with_reducible refine State.releaseOp_only _ _ _ ?_ (by decide)
    | with_reducible refine State.set_only _ _ _ _ ?_ (by decide)
    | split

theorem State.ownOp_only {N : Nat} {σ s : State} (c : Nat) (e : CoreEntry) (hσ : Only N σ s)
    (hN : 0x1c44000000000000000000000000000000000000700000000200000000145000 ||| N = N) : Only N σ (State.ownOp s c e) := hσ.step (State.ownOp_within s c e) hN

theorem State.ownActs_within (s : State) :
    Only 0x1c44000000000000000000000000000000000000f20000000200000000145000 s (State.ownActs s) := by
  unfold State.ownActs
  repeat' first
    | with_reducible exact Only.refl _ _
    | with_reducible refine Only.ite (fun _ => ?_) (fun _ => ?_)
    | with_reducible refine Only.foldl ?_ (fun _ _ => ?_)
    | with_reducible refine State.ownOp_only _ _ ?_ (by decide)
    | with_reducible refine State.opDone_only _ _ _ ?_ (by decide)
    | with_reducible refine State.switchTo_only _ _ _ ?_ (by decide)
    | with_reducible refine State.switchTo_only_eq (by assumption) ?_ (by decide)
    | with_reducible refine State.setCoreX_only _ _ ?_ (by decide)

theorem State.ownActs_only {N : Nat} {σ s : State}  (hσ : Only N σ s)
    (hN : 0x1c44000000000000000000000000000000000000f20000000200000000145000 ||| N = N) : Only N σ (State.ownActs s) := hσ.step (State.ownActs_within s) hN

theorem OnlyOut.dispatch {N : Nat} {σ s : State} {src : Src} {op : CoreOp} {f : State → State} (hσ : Only N σ s)
    (hf : ∀ t, Only N t (f t)) (hN : 0x1404000000000000000000000000000000000082720000000200000000001000 ||| N = N) : OnlyOut N σ (s.dispatch src op f) := by
  unfold State.dispatch
  refine OnlyOut.next ?_
  split
  · exact State.coreIssues_only _ _ hσ hN
  · exact hσ.step (hf _) (Nat.or_self N)

theorem execMakeready_within (j : Nat) (src : Src) (s : State) :
    OnlyOut 0x1404000000000000000000000000000000000082720000000200000000001000 s (execMakeready j src s) := by
  unfold execMakeready
  repeat' first
    | with_reducible exact Only.refl _ _
    | with_reducible refine Only.ite (fun _ => ?_) (fun _ => ?_)
    | with_reducible refine Only.foldl ?_ (fun _ _ => ?_)
    | with_reducible refine OnlyOut.next ?_
    | with_reducible refine OnlyOut.ite (fun _ => ?_) (fun _ => ?_)
    | with_reducible refine OnlyOut.dispatch ?_ (fun _ => ?_) (by decide)
    | with_reducible refine State.makeReadyOp_only _ _ ?_ (by decide)

theorem execMakeready_only {N : Nat} {σ s : State} (j : Nat) (src : Src) (hσ : Only N σ s)
    (hN : 0x1404000000000000000000000000000000000082720000000200000000001000 ||| N = N) : OnlyOut N σ (execMakeready j src s) := hσ.outcome (execMakeready_within j src s) hN

theorem execCancel_within (j : Nat) (src : Src) (s : State) :
    OnlyOut 0x1404000000000000000000000000000000000082720000000200000000001000 s (execCancel j src s) := by
  unfold execCancel
  repeat' first
    | with_reducible exact Only.refl _ _
    | with_reducible refine Only.ite (fun _ => ?_) (fun _ => ?_)
    | with_reducible refine Only.foldl ?_ (fun _ _ => ?_)
    | with_reducible refine OnlyOut.next ?_
    | with_reducible refine OnlyOut.ite (fun _ => ?_) (fun _ => ?_)
    | with_reducible refine OnlyOut.dispatch ?_ (fun _ => ?_) (by decide)
    | with_reducible refine State.cancelOp_only _ _ ?_ (by decide)

theorem execCancel_only {N : Nat} {σ s : State} (j : Nat) (src : Src) (hσ : Only N σ s)
    (hN : 0x1404000000000000000000000000000000000082720000000200000000001000 ||| N = N) : OnlyOut N σ (execCancel j src s) := hσ.outcome (execCancel_within j src s) hN

theorem execSetflags_within (j : Nat) (flags : Nat) (src : Src) (s : State) :
    OnlyOut 0x1404000000000000000000000000000000000082720000000200000000001000 s (execSetflags j flags src s) := by
  unfold execSetflags
  repeat' first
    | with_reducible exact Only.refl _ _
    | with_reducible refine Only.ite (fun _ => ?_) (fun _ => ?_)
    | with_reducible refine Only.foldl ?_ (fun _ _ => ?_)
    | with_reducible refine OnlyOut.next ?_
    | with_reducible refine OnlyOut.ite (fun _ => ?_) (fun _ => ?_)
    | with_reducible refine OnlyOut.dispatch ?_ (fun _ => ?_) (by decide)
    | with_reducible refine State.setFlags_only _ _ _ ?_ (by decide)

theorem execSetflags_only {N : Nat} {σ s : State} (j : Nat) (flags : Nat) (src : Src) (hσ : Only N σ s)
    (hN : 0x1404000000000000000000000000000000000082720000000200000000001000 ||| N = N) : OnlyOut N σ (execSetflags j flags src s) := hσ.outcome (execSetflags_within j flags src s) hN

theorem execClrflags_within (j : Nat) (flags : Nat) (src : Src) (s : State) :
    OnlyOut 0x1404000000000000000000000000000000000082720000000200000000001000 s (execClrflags j flags src s) := by
  unfold execClrflags
  repeat' first
    | with_reducible exact Only.refl _ _
    | with_reducible refine Only.ite (fun _ => ?_) (fun _ => ?_)
    | with_reducible refine Only.foldl ?_ (fun _ _ => ?_)
    | with_reducible refine OnlyOut.next ?_
    | with_reducible refine OnlyOut.ite (fun _ => ?_) (fun _ => ?_)
    | with_reducible refine OnlyOut.dispatch ?_ (fun _ => ?_) (by decide)
    | with_reducible refine State.clrFlagsOp_only _ _ _ ?_ (by decide)

theorem execClrflags_only {N : Nat} {σ s : State} (j : Nat) (flags : Nat) (src : Src) (hσ : Only N σ s)
    (hN : 0x1404000000000000000000000000000000000082720000000200000000001000 ||| N = N) : OnlyOut N σ (execClrflags j flags src s) := hσ.outcome (execClrflags_within j flags src s) hN

theorem execSlotReset_within (j : Nat) (src : Src) (s : State) :
    OnlyOut 0x1404000000000000000000000000000000000082720000000200000000001000 s (execSlotReset j src s) := by
  unfold execSlotReset
  repeat' first
    | with_reducible exact Only.refl _ _
    | with_reducible refine Only.ite (fun _ => ?_) (fun _ => ?_)
    | with_reducible refine Only.foldl ?_ (fun _ _ => ?_)
    | with_reducible refine OnlyOut.next ?_
    | with_reducible refine OnlyOut.ite (fun _ => ?_) (fun _ => ?_)
    | with_reducible refine OnlyOut.dispatch ?_ (fun _ => ?_) (by decide)
    | with_reducible refine State.slotResetOp_only _ _ ?_ (by decide)

theorem execSlotReset_only {N : Nat} {σ s : State} (j : Nat) (src : Src) (hσ : Only N σ s)
    (hN : 0x1404000000000000000000000000000000000082720000000200000000001000 ||| N = N) : OnlyOut N σ (execSlotReset j src s) := hσ.outcome (execSlotReset_within j src s) hN

theorem execSetwait_within (c : Nat) (mask : Nat) (s : State) :
    OnlyOut 0x1404000000000000000000000000000000000082720000000200000000001000 s (execSetwait c mask s) := by
  unfold execSetwait
  repeat' first
    | with_reducible exact Only.refl _ _
    | with_reducible refine Only.ite (fun _ => ?_) (fun _ => ?_)
    | with_reducible refine Only.foldl ?_ (fun _ _ => ?_)
    | with_reducible refine OnlyOut.next ?_
    | with_reducible refine OnlyOut.ite (fun _ => ?_) (fun _ => ?_)
    | with_reducible refine State.coreIssues_only _ _ ?_ (by decide)

theorem execSetwait_only {N : Nat} {σ s : State} (c : Nat) (mask : Nat) (hσ : Only N σ s)
    (hN : 0x1404000000000000000000000000000000000082720000000200000000001000 ||| N = N) : OnlyOut N σ (execSetwait c mask s) := hσ.outcome (execSetwait_within c mask s) hN

theorem execWaitOp_within (c : Nat) (s : State) :
    OnlyOut 0x1404000000000000000000000000000000000082720000000200000000001000 s (execWaitOp c s) := by
  unfold execWaitOp
  repeat' first
    | with_reducible exact Only.refl _ _
    | with_reducible refine Only.ite (fun _ => ?_) (fun _ => ?_)
    | with_reducible refine Only.foldl ?_ (fun _ _ => ?_)
    | with_reducible refine OnlyOut.next ?_
    | with_reducible refine OnlyOut.ite (fun _ => ?_) (fun _ => ?_)
    | with_reducible refine State.coreIssues_only _ _ ?_ (by decide)

theorem execWaitOp_only {N : Nat} {σ s : State} (c : Nat) (hσ : Only N σ s)
    (hN : 0x1404000000000000000000000000000000000082720000000200000000001000 ||| N = N) : OnlyOut N σ (execWaitOp c s) := hσ.outcome (execWaitOp_within c s) hN

theorem execYield_within (c : Nat) (s : State) :
    OnlyOut 0x1404000000000000000000000000000000000082720000000200000000001000 s (execYield c s) := by
  unfold execYield
  repeat' first
    | with_reducible exact Only.refl _ _
    | with_reducible refine Only.ite (fun _ => ?_) (fun _ => ?_)
    | with_reducible refine Only.foldl ?_ (fun _ _ => ?_)
    | with_reducible refine OnlyOut.next ?_
    | with_reducible refine OnlyOut.ite (fun _ => ?_) (fun _ => ?_)
    | with_reducible refine State.coreIssues_only _ _ ?_ (by decide)

theorem execYield_only {N : Nat} {σ s : State} (c : Nat) (hσ : Only N σ s)
    (hN : 0x1404000000000000000000000000000000000082720000000200000000001000 ||| N = N) : OnlyOut N σ (execYield c s) := hσ.outcome (execYield_within c s) hN

theorem execSwitch_within (c : Nat) (s : State) :
    OnlyOut 0x1404000000000000000000000000000000000082720000000200000000001000 s (execSwitch c s) := by
  unfold execSwitch
  repeat' first
    | with_reducible exact Only.refl _ _
    | with_reducible refine Only.ite (fun _ => ?_) (fun _ => ?_)
    | with_reducible refine Only.foldl ?_ (fun _ _ => ?_)
    | with_reducible refine OnlyOut.next ?_
    | with_reducible refine OnlyOut.ite (fun _ => ?_) (fun _ => ?_)
    | with_reducible refine State.coreIssues_only _ _ ?_ (by decide)

theorem execSwitch_only {N : Nat} {σ s : State} (c : Nat) (hσ : Only N σ s)
    (hN : 0x1404000000000000000000000000000000000082720000000200000000001000 ||| N = N) : OnlyOut N σ (execSwitch c s) := hσ.outcome (execSwitch_within c s) hN

theorem execTakeflags_within (c : Nat) (s : State) :
    OnlyOut 0x1404000000000000000000000000000000000082720000000200000000001000 s (execTakeflags c s) := by
  unfold execTakeflags
  repeat' first
    | with_reducible exact Only.refl _ _
    | with_reducible refine Only.ite (fun _ => ?_) (fun _ => ?_)
    | with_reducible refine Only.foldl ?_ (fun _ _ => ?_)
    | with_reducible refine OnlyOut.next ?_
    | with_reducible refine OnlyOut.ite (fun _ => ?_) (fun _ => ?_)
    | with_reducible refine State.coreIssues_only _ _ ?_ (by decide)

theorem execTakeflags_only {N : Nat} {σ s : State} (c : Nat) (hσ : Only N σ s)
    (hN : 0x1404000000000000000000000000000000000082720000000200000000001000 ||| N = N) : OnlyOut N σ (execTakeflags c s) := hσ.outcome (execTakeflags_within c s) hN

theorem execSubmit_within (fl : Nat) (handle : Nat) (src : Src) (s : State) :
    OnlyOut 0x1404000000000000000000000000000000000082720000000200000000001000 s (execSubmit fl handle src s) := by
  unfold execSubmit
  repeat' first
    | with_reducible exact Only.refl _ _
    | with_reducible refine Only.ite (fun _ => ?_) (fun _ => ?_)
    | with_reducible refine Only.foldl ?_ (fun _ _ => ?_)
    | with_reducible refine OnlyOut.next ?_
    | with_reducible refine OnlyOut.ite (fun _ => ?_) (fun _ => ?_)
    | with_reducible refine OnlyOut.dispatch ?_ (fun _ => ?_) (by decide)
    | with_reducible refine State.submitOp_only _ _ _ ?_ (by decide)

theorem execSubmit_only {N : Nat} {σ s : State} (fl : Nat) (handle : Nat) (src : Src) (hσ : Only N σ s)
    (hN : 0x1404000000000000000000000000000000000082720000000200000000001000 ||| N = N) : OnlyOut N σ (execSubmit fl handle src s) := hσ.outcome (execSubmit_within fl handle src s) hN

theorem execTake_within (c : Nat) (fl : Nat) (s : State) :
    OnlyOut 0x1404000000000000000000000000000000000082720000000200000000001000 s (execTake c fl s) := by
  unfold execTake
  repeat' first
    | with_reducible exact Only.refl _ _
    | with_reducible refine Only.ite (fun _ => ?_) (fun _ => ?_)
    | with_reducible refine Only.foldl ?_ (fun _ _ => ?_)
    | with_reducible refine OnlyOut.next ?_
    | with_reducible refine OnlyOut.ite (fun _ => ?_) (fun _ => ?_)
    | with_reducible refine State.coreIssues_only _ _ ?_ (by decide)

theorem execTake_only {N : Nat} {σ s : State} (c : Nat) (fl : Nat) (hσ : Only N σ s)
    (hN : 0x1404000000000000000000000000000000000082720000000200000000001000 ||| N = N) : OnlyOut N σ (execTake c fl s) := hσ.outcome (execTake_within c fl s) hN

theorem execRelease_within (c : Nat) (fl : Nat) (slot : Nat) (record : Nat) (discard : Bool) (s : State) :
    OnlyOut 0x1404000000000000000000000000000000000082720000000200000000001000 s (execRelease c fl slot record discard s) := by
  unfold execRelease
  repeat' first
    | with_reducible exact Only.refl _ _
    | with_reducible refine Only.ite (fun _ => ?_) (fun _ => ?_)
    | with_reducible refine Only.foldl ?_ (fun _ _ => ?_)
    | with_reducible refine OnlyOut.next ?_
    | with_reducible refine OnlyOut.ite (fun _ => ?_) (fun _ => ?_)
    | with_reducible refine State.coreIssues_only _ _ ?_ (by decide)

theorem execRelease_only {N : Nat} {σ s : State} (c : Nat) (fl : Nat) (slot : Nat) (record : Nat) (discard : Bool) (hσ : Only N σ s)
    (hN : 0x1404000000000000000000000000000000000082720000000200000000001000 ||| N = N) : OnlyOut N σ (execRelease c fl slot record discard s) := hσ.outcome (execRelease_within c fl slot record discard s) hN

theorem execSendmail_within (c : Nat) (block : Nat) (s : State) :
    OnlyOut 0x1404000000000000000000000000000000000082720000000200000000001000 s (execSendmail c block s) := by
  unfold execSendmail
  repeat' first
    | with_reducible exact Only.refl _ _
    | with_reducible refine Only.ite (fun _ => ?_) (fun _ => ?_)
    | with_reducible refine Only.foldl ?_ (fun _ _ => ?_)
    | with_reducible refine OnlyOut.next ?_
    | with_reducible refine OnlyOut.ite (fun _ => ?_) (fun _ => ?_)
    | with_reducible refine State.coreIssues_only _ _ ?_ (by decide)

theorem execSendmail_only {N : Nat} {σ s : State} (c : Nat) (block : Nat) (hσ : Only N σ s)
    (hN : 0x1404000000000000000000000000000000000082720000000200000000001000 ||| N = N) : OnlyOut N σ (execSendmail c block s) := hσ.outcome (execSendmail_within c block s) hN

theorem execWaitTimeout_within (j : Nat) (s : State) :
    OnlyOut 0x1004000000000000000000000000000000000000400000000000000000001000 s (execWaitTimeout j s) := by
  unfold execWaitTimeout
  repeat' first
    | with_reducible exact Only.refl _ _
    | with_reducible refine Only.ite (fun _ => ?_) (fun _ => ?_)
    | with_reducible refine Only.foldl ?_ (fun _ _ => ?_)
    | with_reducible refine OnlyOut.next ?_
    | with_reducible refine OnlyOut.ite (fun _ => ?_) (fun _ => ?_)
    | with_reducible refine State.makeReady_only _ _ ?_ (by decide)
    | with_reducible refine Only.onObj ?_ (fun _ => ?_) (by decide)
    | with_reducible refine State.setBit_only _ _ _ _ ?_ (by decide)

theorem execWaitTimeout_only {N : Nat} {σ s : State} (j : Nat) (hσ : Only N σ s)
    (hN : 0x1004000000000000000000000000000000000000400000000000000000001000 ||| N = N) : OnlyOut N σ (execWaitTimeout j s) := hσ.outcome (execWaitTimeout_within j s) hN

theorem execSliceEnd_within (c : Nat) (s : State) :
    OnlyOut 0x1000000000000000000000000000000000000000020000000000000000000000 s (execSliceEnd c s) := by
  unfold execSliceEnd
  repeat' first
    | with_reducible exact Only.refl _ _
    | with_reducible refine Only.ite (fun _ => ?_) (fun _ => ?_)
    | with_reducible refine Only.foldl ?_ (fun _ _ => ?_)
    | with_reducible refine OnlyOut.next ?_
    | with_reducible refine OnlyOut.ite (fun _ => ?_) (fun _ => ?_)
    | with_reducible refine State.refreshCore_only _ ?_ (by decide)

theorem execSliceEnd_only {N : Nat} {σ s : State} (c : Nat) (hσ : Only N σ s)
    (hN : 0x1000000000000000000000000000000000000000020000000000000000000000 ||| N = N) : OnlyOut N σ (execSliceEnd c s) := hσ.outcome (execSliceEnd_within c s) hN

theorem State.storeThrCfg_within (s : State) (j : Nat) (v : Word) :
    Only 0x200000000000000000000000 s (State.storeThrCfg s j v) := by
  unfold State.storeThrCfg
  repeat' first
    | with_reducible exact Only.refl _ _
    | with_reducible refine Only.ite (fun _ => ?_) (fun _ => ?_)
    | with_reducible refine Only.foldl ?_ (fun _ _ => ?_)
    | with_reducible refine State.set_only _ _ _ _ ?_ (by decide)

theorem State.storeThrCfg_only {N : Nat} {σ s : State} (j : Nat) (v : Word) (hσ : Only N σ s)
    (hN : 0x200000000000000000000000 ||| N = N) : Only N σ (State.storeThrCfg s j v) := hσ.step (State.storeThrCfg_within s j v) hN

theorem State.thrCfgOp_within (s : State) (j : Nat) (v : Word) :
    Only 0x1000000000000000000000000000000000000000200000000000000000000000 s (State.thrCfgOp s j v) := by
  unfold State.thrCfgOp
  repeat' first
    | with_reducible exact Only.refl _ _
    | with_reducible refine Only.ite (fun _ => ?_) (fun _ => ?_)
    | with_reducible refine Only.foldl ?_ (fun _ _ => ?_)
    | with_reducible refine State.storeThrCfg_only _ _ ?_ (by decide)
    | with_reducible refine State.unready_only _ ?_ (by decide)
    | with_reducible refine State.setReadyList_only _ _ ?_ (by decide)

theorem State.thrCfgOp_only {N : Nat} {σ s : State} (j : Nat) (v : Word) (hσ : Only N σ s)
    (hN : 0x1000000000000000000000000000000000000000200000000000000000000000 ||| N = N) : Only N σ (State.thrCfgOp s j v) := hσ.step (State.thrCfgOp_within s j v) hN

theorem execThrCfgWrite_within (j : Nat) (value : Word) (s : State) :
    OnlyOut 0x1000000000000000000000000000000000000000200000000000000000000000 s (execThrCfgWrite j value s) := by
  unfold execThrCfgWrite
  repeat' first
    | with_reducible exact Only.refl _ _
    | with_reducible refine Only.ite (fun _ => ?_) (fun _ => ?_)
    | with_reducible refine Only.foldl ?_ (fun _ _ => ?_)
    | with_reducible refine OnlyOut.next ?_
    | with_reducible refine OnlyOut.ite (fun _ => ?_) (fun _ => ?_)
    | with_reducible refine State.thrCfgOp_only _ _ ?_ (by decide)

theorem execThrCfgWrite_only {N : Nat} {σ s : State} (j : Nat) (value : Word) (hσ : Only N σ s)
    (hN : 0x1000000000000000000000000000000000000000200000000000000000000000 ||| N = N) : OnlyOut N σ (execThrCfgWrite j value s) := hσ.outcome (execThrCfgWrite_within j value s) hN

theorem execFlowOutput_within (fl : Nat) (s : State) :
    OnlyOut 0x1c44000000000000000000000000000000000000100000000200000000145000 s (execFlowOutput fl s) := by
  unfold execFlowOutput
  repeat' first
    | with_reducible exact Only.refl _ _
    | with_reducible refine Only.ite (fun _ => ?_) (fun _ => ?_)
    | with_reducible refine Only.foldl ?_ (fun _ _ => ?_)
    | with_reducible refine OnlyOut.next ?_
    | with_reducible refine OnlyOut.ite (fun _ => ?_) (fun _ => ?_)
    | with_reducible refine State.flowDrain_only _ _ ?_ (by decide)

theorem execFlowOutput_only {N : Nat} {σ s : State} (fl : Nat) (hσ : Only N σ s)
    (hN : 0x1c44000000000000000000000000000000000000100000000200000000145000 ||| N = N) : OnlyOut N σ (execFlowOutput fl s) := hσ.outcome (execFlowOutput_within fl s) hN

theorem State.storeFlowCfg_within (s : State) (f : Nat) (v : Word) :
    Only 0x800000000000000000000000000000000000000080000000000000000000000 s (State.storeFlowCfg s f v) := by
  unfold State.storeFlowCfg
  repeat' first
    | with_reducible exact Only.refl _ _
    | with_reducible refine Only.ite (fun _ => ?_) (fun _ => ?_)
    | with_reducible refine Only.foldl ?_ (fun _ _ => ?_)
    | with_reducible refine State.rearm_only _ _ ?_ (by decide)
    | with_reducible refine State.set_only _ _ _ _ ?_ (by decide)

theorem State.storeFlowCfg_only {N : Nat} {σ s : State} (f : Nat) (v : Word) (hσ : Only N σ s)
    (hN : 0x800000000000000000000000000000000000000080000000000000000000000 ||| N = N) : Only N σ (State.storeFlowCfg s f v) := hσ.step (State.storeFlowCfg_within s f v) hN

theorem execFlowEnable_within (fl : Nat) (value : Word) (s : State) :
    OnlyOut 0x800000000000000000000000000000000000000080000000000000000000000 s (execFlowEnable fl value s) := by
  unfold execFlowEnable
  repeat' first
    | with_reducible exact Only.refl _ _
    | with_reducible refine Only.ite (fun _ => ?_) (fun _ => ?_)
    | with_reducible refine Only.foldl ?_ (fun _ _ => ?_)
    | with_reducible refine OnlyOut.next ?_
    | with_reducible refine OnlyOut.ite (fun _ => ?_) (fun _ => ?_)
    | with_reducible refine State.storeFlowCfg_only _ _ ?_ (by decide)
    | with_reducible refine State.set_only _ _ _ _ ?_ (by decide)

theorem execFlowEnable_only {N : Nat} {σ s : State} (fl : Nat) (value : Word) (hσ : Only N σ s)
    (hN : 0x800000000000000000000000000000000000000080000000000000000000000 ||| N = N) : OnlyOut N σ (execFlowEnable fl value s) := hσ.outcome (execFlowEnable_within fl value s) hN

theorem State.flowDisableOp_within (s : State) (f : Nat) (src : Src) :
    Only 0x4000000000000000000000000000000000000080000000000000000001000 s (State.flowDisableOp s f src) := by
  unfold State.flowDisableOp
  repeat' first
    | with_reducible exact Only.refl _ _
    | with_reducible refine Only.ite (fun _ => ?_) (fun _ => ?_)
    | with_reducible refine Only.foldl ?_ (fun _ _ => ?_)
    | with_reducible refine Only.onObj ?_ (fun _ => ?_) (by decide)
    | with_reducible refine State.set_only _ _ _ _ ?_ (by decide)

theorem State.flowDisableOp_only {N : Nat} {σ s : State} (f : Nat) (src : Src) (hσ : Only N σ s)
    (hN : 0x4000000000000000000000000000000000000080000000000000000001000 ||| N = N) : Only N σ (State.flowDisableOp s f src) := hσ.step (State.flowDisableOp_within s f src) hN

theorem execFlowDisable_within (fl : Nat) (src : Src) (s : State) :
    OnlyOut 0x804000000000000000000000000000000000000080000000000000000001000 s (execFlowDisable fl src s) := by
  unfold execFlowDisable
  repeat' first
    | with_reducible exact Only.refl _ _
    | with_reducible refine Only.ite (fun _ => ?_) (fun _ => ?_)
    | with_reducible refine Only.foldl ?_ (fun _ _ => ?_)
    | with_reducible refine OnlyOut.next ?_
    | with_reducible refine OnlyOut.ite (fun _ => ?_) (fun _ => ?_)
    | with_reducible refine State.flowDisableOp_only _ _ ?_ (by decide)
    | with_reducible refine State.rearm_only _ _ ?_ (by decide)

theorem execFlowDisable_only {N : Nat} {σ s : State} (fl : Nat) (src : Src) (hσ : Only N σ s)
    (hN : 0x804000000000000000000000000000000000000080000000000000000001000 ||| N = N) : OnlyOut N σ (execFlowDisable fl src s) := hσ.outcome (execFlowDisable_within fl src s) hN

theorem State.dropStalled_within (s : State) (f : Nat) (c : Nat) :
    Only 0x1000000000000000000000000000000000000000000000000000000000000000 s (State.dropStalled s f c) := by
  unfold State.dropStalled
  repeat' first
    | with_reducible exact Only.refl _ _
    | with_reducible refine Only.ite (fun _ => ?_) (fun _ => ?_)
    | with_reducible refine Only.foldl ?_ (fun _ _ => ?_)
    | with_reducible refine State.opSampled_only _ ?_ (by decide)
    | with_reducible refine State.opDone_only _ _ _ ?_ (by decide)
    | with_reducible refine State.setCoreX_only _ _ ?_ (by decide)
    | split
    | extract_lets

theorem State.dropStalled_only {N : Nat} {σ s : State} (f : Nat) (c : Nat) (hσ : Only N σ s)
    (hN : 0x1000000000000000000000000000000000000000000000000000000000000000 ||| N = N) : Only N σ (State.dropStalled s f c) := hσ.step (State.dropStalled_within s f c) hN

theorem State.flowResetOp_within (s : State) (f : Nat) (src : Src) :
    Only 0x1004000000000000000000000000000000000000100000000000000000001000 s (State.flowResetOp s f src) := by
  unfold State.flowResetOp
  repeat' first
    | with_reducible exact Only.refl _ _
    | with_reducible refine Only.ite (fun _ => ?_) (fun _ => ?_)
    | with_reducible refine Only.foldl ?_ (fun _ _ => ?_)
    | with_reducible refine State.dropStalled_only _ _ ?_ (by decide)
    | with_reducible refine State.setFlowX_only _ _ ?_ (by decide)
    | with_reducible refine Only.onObj ?_ (fun _ => ?_) (by decide)
    | with_reducible refine State.set_only _ _ _ _ ?_ (by decide)

theorem State.flowResetOp_only {N : Nat} {σ s : State} (f : Nat) (src : Src) (hσ : Only N σ s)
    (hN : 0x1004000000000000000000000000000000000000100000000000000000001000 ||| N = N) : Only N σ (State.flowResetOp s f src) := hσ.step (State.flowResetOp_within s f src) hN

theorem execFlowReset_within (fl : Nat) (src : Src) (s : State) :
    OnlyOut 0x1804000000000000000000000000000000000000100000000000000000001000 s (execFlowReset fl src s) := by
  unfold execFlowReset
  repeat' first
    | with_reducible exact Only.refl _ _
    | with_reducible refine Only.ite (fun _ => ?_) (fun _ => ?_)
    | with_reducible refine Only.foldl ?_ (fun _ _ => ?_)
    | with_reducible refine OnlyOut.next ?_
    | with_reducible refine OnlyOut.ite (fun _ => ?_) (fun _ => ?_)
    | with_reducible refine State.flowResetOp_only _ _ ?_ (by decide)
    | with_reducible refine State.rearm_only _ _ ?_ (by decide)

theorem execFlowReset_only {N : Nat} {σ s : State} (fl : Nat) (src : Src) (hσ : Only N σ s)
    (hN : 0x1804000000000000000000000000000000000000100000000000000000001000 ||| N = N) : OnlyOut N σ (execFlowReset fl src s) := hσ.outcome (execFlowReset_within fl src s) hN

theorem execFlowStatClear_within (fl : Nat) (s : State) :
    OnlyOut 0x4000000000000000000000000000000000000100000000000000000001000 s (execFlowStatClear fl s) := by
  unfold execFlowStatClear
  repeat' first
    | with_reducible exact Only.refl _ _
    | with_reducible refine Only.ite (fun _ => ?_) (fun _ => ?_)
    | with_reducible refine Only.foldl ?_ (fun _ _ => ?_)
    | with_reducible refine OnlyOut.next ?_
    | with_reducible refine OnlyOut.ite (fun _ => ?_) (fun _ => ?_)
    | with_reducible refine State.set_only _ _ _ _ ?_ (by decide)
    | with_reducible refine State.clear_only _ _ _ ?_ (by decide)

theorem execFlowStatClear_only {N : Nat} {σ s : State} (fl : Nat) (hσ : Only N σ s)
    (hN : 0x4000000000000000000000000000000000000100000000000000000001000 ||| N = N) : OnlyOut N σ (execFlowStatClear fl s) := hσ.outcome (execFlowStatClear_within fl s) hN

theorem execThrWaitClear_within (j : Nat) (s : State) :
    OnlyOut 0x4000000000000000000000000000000000000800000000000000000001000 s (execThrWaitClear j s) := by
  unfold execThrWaitClear
  repeat' first
    | with_reducible exact Only.refl _ _
    | with_reducible refine Only.ite (fun _ => ?_) (fun _ => ?_)
    | with_reducible refine Only.foldl ?_ (fun _ _ => ?_)
    | with_reducible refine OnlyOut.next ?_
    | with_reducible refine OnlyOut.ite (fun _ => ?_) (fun _ => ?_)
    | with_reducible refine State.set_only _ _ _ _ ?_ (by decide)
    | with_reducible refine State.clear_only _ _ _ ?_ (by decide)

theorem execThrWaitClear_only {N : Nat} {σ s : State} (j : Nat) (hσ : Only N σ s)
    (hN : 0x4000000000000000000000000000000000000800000000000000000001000 ||| N = N) : OnlyOut N σ (execThrWaitClear j s) := hσ.outcome (execThrWaitClear_within j s) hN

theorem execMailNorouteClear_within (s : State) :
    OnlyOut 0x4000000000000000000000000000000000002000000000000000000001000 s (execMailNorouteClear s) := by
  unfold execMailNorouteClear
  repeat' first
    | with_reducible exact Only.refl _ _
    | with_reducible refine Only.ite (fun _ => ?_) (fun _ => ?_)
    | with_reducible refine Only.foldl ?_ (fun _ _ => ?_)
    | with_reducible refine OnlyOut.next ?_
    | with_reducible refine OnlyOut.ite (fun _ => ?_) (fun _ => ?_)
    | with_reducible refine State.set_only _ _ _ _ ?_ (by decide)
    | with_reducible refine State.clear_only _ _ _ ?_ (by decide)

theorem execMailNorouteClear_only {N : Nat} {σ s : State}  (hσ : Only N σ s)
    (hN : 0x4000000000000000000000000000000000002000000000000000000001000 ||| N = N) : OnlyOut N σ (execMailNorouteClear s) := hσ.outcome (execMailNorouteClear_within s) hN

theorem State.mailWritten_within (s : State) (y0 : MailFrom) :
    Only 0x1c44000000000000000000000000000000000000000000000000000000145000 s (State.mailWritten s y0) := by
  cases y0 <;> unfold State.mailWritten
  repeat' first
    | with_reducible exact Only.refl _ _
    | with_reducible refine Only.ite (fun _ => ?_) (fun _ => ?_)
    | with_reducible refine Only.foldl ?_ (fun _ _ => ?_)
    | with_reducible refine State.opDone_only _ _ _ ?_ (by decide)
    | with_reducible refine State.freeBuffer_only _ _ ?_ (by decide)
    | with_reducible refine State.setCoreX_only _ _ ?_ (by decide)
    | with_reducible refine State.completeSame_only _ _ ?_ (by decide)
    | split

theorem State.mailWritten_only {N : Nat} {σ s : State} (y0 : MailFrom) (hσ : Only N σ s)
    (hN : 0x1c44000000000000000000000000000000000000000000000000000000145000 ||| N = N) : Only N σ (State.mailWritten s y0) := hσ.step (State.mailWritten_within s y0) hN

theorem execInboxWrite_within (s : State) :
    OnlyOut 0x1c44000000000000000000000000000000000080400000000000000000145000 s (execInboxWrite s) := by
  unfold execInboxWrite
  repeat' first
    | with_reducible exact Only.refl _ _
    | with_reducible refine Only.ite (fun _ => ?_) (fun _ => ?_)
    | with_reducible refine Only.foldl ?_ (fun _ _ => ?_)
    | fail_if_no_progress with_reducible refine Only.fields ?_ rfl rfl
    | with_reducible refine OnlyOut.next ?_
    | with_reducible refine OnlyOut.ite (fun _ => ?_) (fun _ => ?_)
    | with_reducible refine State.mailWritten_only _ ?_ (by decide)
    | with_reducible refine State.inboxPut_only _ ?_ (by decide)
    | split

theorem execInboxWrite_only {N : Nat} {σ s : State}  (hσ : Only N σ s)
    (hN : 0x1c44000000000000000000000000000000000080400000000000000000145000 ||| N = N) : OnlyOut N σ (execInboxWrite s) := hσ.outcome (execInboxWrite_within s) hN

theorem execLoadWindow_within (s : State) :
    OnlyOut 0x1000000000000000000000000000000000000000020000000000000000000000 s (execLoadWindow s) := by
  unfold execLoadWindow
  repeat' first
    | with_reducible exact Only.refl _ _
    | with_reducible refine Only.ite (fun _ => ?_) (fun _ => ?_)
    | with_reducible refine Only.foldl ?_ (fun _ _ => ?_)
    | fail_if_no_progress with_reducible refine Only.fields ?_ rfl rfl
    | with_reducible refine OnlyOut.next ?_
    | with_reducible refine OnlyOut.ite (fun _ => ?_) (fun _ => ?_)
    | with_reducible refine State.setCoreX_only _ _ ?_ (by decide)
    | with_reducible refine State.set_only _ _ _ _ ?_ (by decide)

theorem execLoadWindow_only {N : Nat} {σ s : State}  (hσ : Only N σ s)
    (hN : 0x1000000000000000000000000000000000000000020000000000000000000000 ||| N = N) : OnlyOut N σ (execLoadWindow s) := hσ.outcome (execLoadWindow_within s) hN

theorem State.coreStop_within (s : State) (c : Nat) :
    Only 0x1000000000000000000000000000000000000002420000000000000000000000 s (State.coreStop s c) := by
  unfold State.coreStop
  repeat' first
    | with_reducible exact Only.refl _ _
    | with_reducible refine Only.ite (fun _ => ?_) (fun _ => ?_)
    | with_reducible refine Only.foldl ?_ (fun _ _ => ?_)
    | with_reducible refine State.coreIdle_only _ ?_ (by decide)
    | with_reducible refine State.setCoreX_only _ _ ?_ (by decide)
    | with_reducible refine State.set_only _ _ _ _ ?_ (by decide)
    | split

theorem State.coreStop_only {N : Nat} {σ s : State} (c : Nat) (hσ : Only N σ s)
    (hN : 0x1000000000000000000000000000000000000002420000000000000000000000 ||| N = N) : Only N σ (State.coreStop s c) := hσ.step (State.coreStop_within s c) hN

theorem State.coreStart_within (s : State) (c : Nat) :
    Only 0x1000000000000000000000000000000000000002000000000000000000000000 s (State.coreStart s c) := by
  unfold State.coreStart
  repeat' first
    | with_reducible exact Only.refl _ _
    | with_reducible refine Only.ite (fun _ => ?_) (fun _ => ?_)
    | with_reducible refine Only.foldl ?_ (fun _ _ => ?_)
    | with_reducible refine State.setCoreX_only _ _ ?_ (by decide)
    | with_reducible refine State.set_only _ _ _ _ ?_ (by decide)

theorem State.coreStart_only {N : Nat} {σ s : State} (c : Nat) (hσ : Only N σ s)
    (hN : 0x1000000000000000000000000000000000000002000000000000000000000000 ||| N = N) : Only N σ (State.coreStart s c) := hσ.step (State.coreStart_within s c) hN

theorem State.coreRunOp_within (s : State) (mask : Nat) :
    Only 0x1000000000000000000000000000000000000003420000000000000000000000 s (State.coreRunOp s mask) := by
  unfold State.coreRunOp
  repeat' first
    | with_reducible exact Only.refl _ _
    | with_reducible refine Only.ite (fun _ => ?_) (fun _ => ?_)
    | with_reducible refine Only.foldl ?_ (fun _ _ => ?_)
    | with_reducible refine State.coreStart_only _ ?_ (by decide)
    | with_reducible refine State.coreStop_only _ ?_ (by decide)
    | with_reducible refine State.set_only _ _ _ _ ?_ (by decide)

theorem State.coreRunOp_only {N : Nat} {σ s : State} (mask : Nat) (hσ : Only N σ s)
    (hN : 0x1000000000000000000000000000000000000003420000000000000000000000 ||| N = N) : Only N σ (State.coreRunOp s mask) := hσ.step (State.coreRunOp_within s mask) hN

theorem execCoreRun_within (mask : Nat) (s : State) :
    OnlyOut 0x1000000000000000000000000000000000000003420000000000000000000000 s (execCoreRun mask s) := by
  unfold execCoreRun
  repeat' first
    | with_reducible exact Only.refl _ _
    | with_reducible refine Only.ite (fun _ => ?_) (fun _ => ?_)
    | with_reducible refine Only.foldl ?_ (fun _ _ => ?_)
    | with_reducible refine OnlyOut.next ?_
    | with_reducible refine OnlyOut.ite (fun _ => ?_) (fun _ => ?_)
    | with_reducible refine State.coreRunOp_only _ ?_ (by decide)

theorem execCoreRun_only {N : Nat} {σ s : State} (mask : Nat) (hσ : Only N σ s)
    (hN : 0x1000000000000000000000000000000000000003420000000000000000000000 ||| N = N) : OnlyOut N σ (execCoreRun mask s) := hσ.outcome (execCoreRun_within mask s) hN

theorem State.firmwareGo_within (s : State) (length : Nat) :
    Only 0x40000000000000000000000000000000000008000000000000000000000000 s (State.firmwareGo s length) := by
  unfold State.firmwareGo
  repeat' first
    | with_reducible exact Only.refl _ _
    | with_reducible refine Only.ite (fun _ => ?_) (fun _ => ?_)
    | with_reducible refine Only.foldl ?_ (fun _ _ => ?_)
    | with_reducible refine State.emit_only _ ?_ (by decide)
    | with_reducible refine State.set_only _ _ _ _ ?_ (by decide)

theorem State.firmwareGo_only {N : Nat} {σ s : State} (length : Nat) (hσ : Only N σ s)
    (hN : 0x40000000000000000000000000000000000008000000000000000000000000 ||| N = N) : Only N σ (State.firmwareGo s length) := hσ.step (State.firmwareGo_within s length) hN

theorem execFirmwareLoad_within (length : Nat) (s : State) :
    OnlyOut 0x40000000000000000000000000000000000008000000000000000000000000 s (execFirmwareLoad length s) := by
  unfold execFirmwareLoad
  repeat' first
    | with_reducible exact Only.refl _ _
    | with_reducible refine Only.ite (fun _ => ?_) (fun _ => ?_)
    | with_reducible refine Only.foldl ?_ (fun _ _ => ?_)
    | with_reducible refine OnlyOut.next ?_
    | with_reducible refine OnlyOut.ite (fun _ => ?_) (fun _ => ?_)
    | with_reducible refine State.firmwareGo_only _ ?_ (by decide)

theorem execFirmwareLoad_only {N : Nat} {σ s : State} (length : Nat) (hσ : Only N σ s)
    (hN : 0x40000000000000000000000000000000000008000000000000000000000000 ||| N = N) : OnlyOut N σ (execFirmwareLoad length s) := hσ.outcome (execFirmwareLoad_within length s) hN

theorem State.zeroMemory_within (s : State) (a : Nat) :
    Only 0x1000000000000000000000000000000000000000000000000000000000000000 s (State.zeroMemory s a) := by
  unfold State.zeroMemory
  repeat' first
    | with_reducible exact Only.refl _ _
    | with_reducible refine Only.ite (fun _ => ?_) (fun _ => ?_)
    | with_reducible refine Only.foldl ?_ (fun _ _ => ?_)
    | fail_if_no_progress with_reducible refine Only.fields ?_ rfl rfl
    | split

theorem State.zeroMemory_only {N : Nat} {σ s : State} (a : Nat) (hσ : Only N σ s)
    (hN : 0x1000000000000000000000000000000000000000000000000000000000000000 ||| N = N) : Only N σ (State.zeroMemory s a) := hσ.step (State.zeroMemory_within s a) hN

theorem execLoadDone_within (image : List Nat) (readOk : Bool) (key : List Nat) (signature : List Nat) (s : State) :
    OnlyOut 0x1844000000000000000000000000000000000008000000000000000000145000 s (execLoadDone image readOk key signature s) := by
  unfold execLoadDone
  repeat' first
    | with_reducible exact Only.refl _ _
    | with_reducible refine Only.ite (fun _ => ?_) (fun _ => ?_)
    | with_reducible refine Only.foldl ?_ (fun _ _ => ?_)
    | with_reducible refine OnlyOut.next ?_
    | with_reducible refine OnlyOut.ite (fun _ => ?_) (fun _ => ?_)
    | with_reducible refine State.zeroMemory_only _ ?_ (by decide)
    | with_reducible refine State.putSram_only _ _ ?_ (by decide)
    | with_reducible refine State.setCoreX_only _ _ ?_ (by decide)
    | with_reducible refine State.post_only _ _ _ ?_ (by decide)
    | with_reducible refine State.set_only _ _ _ _ ?_ (by decide)

theorem execLoadDone_only {N : Nat} {σ s : State} (image : List Nat) (readOk : Bool) (key : List Nat) (signature : List Nat) (hσ : Only N σ s)
    (hN : 0x1844000000000000000000000000000000000008000000000000000000145000 ||| N = N) : OnlyOut N σ (execLoadDone image readOk key signature s) := hσ.outcome (execLoadDone_within image readOk key signature s) hN

end Sys2Proof.Machine
end

