-- ==== Sys2Proof/Laws/Frame/OpsRas.lean ====
section
/-!
SUPPORT. OpsRas.lean: what each operation of Machine/OpsRas.lean can change (see Only).
-/
namespace Sys2Proof.Machine
set_option Elab.async false

theorem State.dropChan_within (s : State) (c : Nat) (which : VecInfo → Bool) :
    Only 0x10004000000000000000000000000000200000000000000000000000000001000 s (State.dropChan s c which) := by
  unfold State.dropChan
  repeat' first
    | with_reducible exact Only.refl _ _
    | with_reducible refine Only.ite (fun _ => ?_) (fun _ => ?_)
    | with_reducible refine Only.foldl ?_ (fun _ _ => ?_)
    | with_reducible refine State.abandonWindow_only _ ?_ (by decide)
    | with_reducible refine State.setChan_only _ _ ?_ (by decide)
    | split

theorem State.dropChan_only {N : Nat} {σ s : State} (c : Nat) (which : VecInfo → Bool) (hσ : Only N σ s)
    (hN : 0x10004000000000000000000000000000200000000000000000000000000001000 ||| N = N) : Only N σ (State.dropChan s c which) := hσ.step (State.dropChan_within s c which) hN

theorem State.dropPends_within (s : State) (q : Nat) :
    Only 0x844000000000010000000000000000000000000000000000000000000145000 s (State.dropPends s q) := by
  unfold State.dropPends
  repeat' first
    | with_reducible exact Only.refl _ _
    | with_reducible refine Only.ite (fun _ => ?_) (fun _ => ?_)
    | with_reducible refine Only.foldl ?_ (fun _ _ => ?_)
    | with_reducible refine State.partDone?_only _ _ _ ?_ (by decide)
    | with_reducible refine State.commitsDone_only _ _ ?_ (by decide)
    | with_reducible refine State.set_only _ _ _ _ ?_ (by decide)

theorem State.dropPends_only {N : Nat} {σ s : State} (q : Nat) (hσ : Only N σ s)
    (hN : 0x844000000000010000000000000000000000000000000000000000000145000 ||| N = N) : Only N σ (State.dropPends s q) := hσ.step (State.dropPends_within s q) hN

theorem State.halt_within (s : State) (q : Nat) (reason : Nat) :
    Only 0x2d54844004000800010001000000000000200000000000000000000000000145000 s (State.halt s q reason) := by
  unfold State.halt
  repeat' first
    | with_reducible exact Only.refl _ _
    | with_reducible refine Only.ite (fun _ => ?_) (fun _ => ?_)
    | with_reducible refine Only.foldl ?_ (fun _ _ => ?_)
    | with_reducible refine State.dropPends_only _ ?_ (by decide)
    | with_reducible refine State.dropChan_only _ _ ?_ (by decide)
    | with_reducible refine State.stopWindows_only _ _ ?_ (by decide)
    | with_reducible refine State.stopSites_only _ ?_ (by decide)
    | with_reducible refine State.dropPath_only _ ?_ (by decide)
    | with_reducible refine State.setLogX_only _ _ ?_ (by decide)
    | with_reducible refine State.dclkHalt_only _ ?_ (by decide)
    | with_reducible refine State.parkChan_only _ _ ?_ (by decide)
    | with_reducible refine State.setSeqState_only _ _ ?_ (by decide)
    | with_reducible refine State.setSeqX_only _ _ ?_ (by decide)
    | with_reducible refine State.post_only _ _ _ ?_ (by decide)
    | with_reducible refine State.set_only _ _ _ _ ?_ (by decide)

theorem State.halt_only {N : Nat} {σ s : State} (q : Nat) (reason : Nat) (hσ : Only N σ s)
    (hN : 0x2d54844004000800010001000000000000200000000000000000000000000145000 ||| N = N) : Only N σ (State.halt s q reason) := hσ.step (State.halt_within s q reason) hN

theorem State.seqReset_within (s : State) (q : Nat) (src : Src) :
    Only 0x22d54844004000800010001000000000000200000000000000000000000000145000 s (State.seqReset s q src) := by
  unfold State.seqReset
  repeat' first
    | with_reducible exact Only.refl _ _
    | with_reducible refine Only.ite (fun _ => ?_) (fun _ => ?_)
    | with_reducible refine Only.foldl ?_ (fun _ _ => ?_)
    | fail_if_no_progress with_reducible refine Only.fields ?_ rfl rfl
    | with_reducible refine State.halt_only _ _ ?_ (by decide)
    | with_reducible refine Only.onObj ?_ (fun _ => ?_) (by decide)
    | with_reducible refine State.decideEvent_only _ _ _ _ ?_ (by decide)
    | with_reducible refine State.decideEvent_only_eq (by assumption) ?_ (by decide)
    | with_reducible refine State.set_only _ _ _ _ ?_ (by decide)

theorem State.seqReset_only {N : Nat} {σ s : State} (q : Nat) (src : Src) (hσ : Only N σ s)
    (hN : 0x22d54844004000800010001000000000000200000000000000000000000000145000 ||| N = N) : Only N σ (State.seqReset s q src) := hσ.step (State.seqReset_within s q src) hN

theorem State.seqResetDone_within (s : State) (q : Nat) :
    Only 0x20804000000000000000001000000000000000000000000000000000000000000000 s (State.seqResetDone s q) := by
  unfold State.seqResetDone
  repeat' first
    | with_reducible exact Only.refl _ _
    | with_reducible refine Only.ite (fun _ => ?_) (fun _ => ?_)
    | with_reducible refine Only.foldl ?_ (fun _ _ => ?_)
    | fail_if_no_progress with_reducible refine Only.fields ?_ rfl rfl
    | with_reducible refine State.dropPath_only _ ?_ (by decide)
    | with_reducible refine State.set_only _ _ _ _ ?_ (by decide)

theorem State.seqResetDone_only {N : Nat} {σ s : State} (q : Nat) (hσ : Only N σ s)
    (hN : 0x20804000000000000000001000000000000000000000000000000000000000000000 ||| N = N) : Only N σ (State.seqResetDone s q) := hσ.step (State.seqResetDone_within s q) hN

theorem State.seqResetsEnd_within (s : State) :
    Only 0x20804000000000000000001000000000000000000000000000000000000000000000 s (State.seqResetsEnd s) := by
  unfold State.seqResetsEnd
  repeat' first
    | with_reducible exact Only.refl _ _
    | with_reducible refine Only.ite (fun _ => ?_) (fun _ => ?_)
    | with_reducible refine Only.foldl ?_ (fun _ _ => ?_)
    | with_reducible refine State.seqResetDone_only _ ?_ (by decide)

theorem State.seqResetsEnd_only {N : Nat} {σ s : State}  (hσ : Only N σ s)
    (hN : 0x20804000000000000000001000000000000000000000000000000000000000000000 ||| N = N) : Only N σ (State.seqResetsEnd s) := hσ.step (State.seqResetsEnd_within s) hN

theorem State.failSite_within (s : State) (k : Nat) :
    Only 0x404004004000000800000000000000000000000000000000000000000000001000 s (State.failSite s k) := by
  unfold State.failSite
  repeat' first
    | with_reducible exact Only.refl _ _
    | with_reducible refine Only.ite (fun _ => ?_) (fun _ => ?_)
    | with_reducible refine Only.foldl ?_ (fun _ _ => ?_)
    | with_reducible refine State.modSiteRun_only _ _ ?_ (by decide)
    | with_reducible refine State.setSeqX_only _ _ ?_ (by decide)
    | with_reducible refine State.set_only _ _ _ _ ?_ (by decide)
    | with_reducible refine State.hwSetBit_only _ _ _ _ ?_ (by decide)

theorem State.failSite_only {N : Nat} {σ s : State} (k : Nat) (hσ : Only N σ s)
    (hN : 0x404004004000000800000000000000000000000000000000000000000000001000 ||| N = N) : Only N σ (State.failSite s k) := hσ.step (State.failSite_within s k) hN

theorem State.failBay_within (s : State) (b : Nat) :
    Only 0x20404044004000000800000000000000000000000000000000000000000000001000 s (State.failBay s b) := by
  unfold State.failBay
  repeat' first
    | with_reducible exact Only.refl _ _
    | with_reducible refine Only.ite (fun _ => ?_) (fun _ => ?_)
    | with_reducible refine Only.foldl ?_ (fun _ _ => ?_)
    | fail_if_no_progress with_reducible refine Only.fields ?_ rfl rfl
    | with_reducible refine State.failSite_only _ ?_ (by decide)
    | split
    | extract_lets

theorem State.failBay_only {N : Nat} {σ s : State} (b : Nat) (hσ : Only N σ s)
    (hN : 0x20404044004000000800000000000000000000000000000000000000000000001000 ||| N = N) : Only N σ (State.failBay s b) := hσ.step (State.failBay_within s b) hN

theorem State.quietBay_within (s : State) (b : Nat) :
    Only 0x5404400000024c000000000000000000200000000000000000000000000001000 s (State.quietBay s b) := by
  unfold State.quietBay
  repeat' first
    | with_reducible exact Only.refl _ _
    | with_reducible refine Only.ite (fun _ => ?_) (fun _ => ?_)
    | with_reducible refine Only.foldl ?_ (fun _ _ => ?_)
    | with_reducible refine State.dropChan_only _ _ ?_ (by decide)
    | with_reducible refine State.denLow_only _ ?_ (by decide)
    | with_reducible refine State.compared_only _ ?_ (by decide)
    | with_reducible refine State.setChan_only _ _ ?_ (by decide)

theorem State.quietBay_only {N : Nat} {σ s : State} (b : Nat) (hσ : Only N σ s)
    (hN : 0x5404400000024c000000000000000000200000000000000000000000000001000 ||| N = N) : Only N σ (State.quietBay s b) := hσ.step (State.quietBay_within s b) hN

theorem State.contain_within (s : State) (b : Nat) :
    Only 0x2045484400400024c800000000000000000200040000000000000000000000145000 s (State.contain s b) := by
  unfold State.contain
  repeat' first
    | with_reducible exact Only.refl _ _
    | with_reducible refine Only.ite (fun _ => ?_) (fun _ => ?_)
    | with_reducible refine Only.foldl ?_ (fun _ _ => ?_)
    | fail_if_no_progress with_reducible refine Only.fields ?_ rfl rfl
    | with_reducible refine State.quietBay_only _ ?_ (by decide)
    | with_reducible refine State.failBay_only _ ?_ (by decide)
    | with_reducible refine State.post_only _ _ _ ?_ (by decide)
    | with_reducible refine Only.onObj ?_ (fun _ => ?_) (by decide)
    | with_reducible refine State.hwSetBit_only _ _ _ _ ?_ (by decide)

theorem State.contain_only {N : Nat} {σ s : State} (b : Nat) (hσ : Only N σ s)
    (hN : 0x2045484400400024c800000000000000000200040000000000000000000000145000 ||| N = N) : Only N σ (State.contain s b) := hσ.step (State.contain_within s b) hN

/-- The set of the registers of the bays. -/
abbrev bayRegs : Nat := 0x3ffffffffffffff000000000000000000000000000000

theorem not_bay (n : RegName) (h : bayRegs.testBit n.ctorIdx = false) :
    (decide (0x40000 ≤ n.desc.base) && decide (n.desc.base < 0x80000)) = false := by
  revert h
  cases n <;> decide

theorem Assoc.find_filter {K V : Type} [DecidableEq K] (k : K) (p : K × V → Bool) (l : List (K × V))
    (h : ∀ v, p (k, v) = true) : Assoc.find k (l.filter p) = Assoc.find k l := by
  induction l with
  | nil => rfl
  | cons e l ih =>
    obtain ⟨a, v⟩ := e
    by_cases ha : a = k
    · subst ha
      simp [h v, Assoc.find]
    · by_cases hp : p (a, v) = true <;> simp [hp, Assoc.find, ha, ih]

/-- The registers of a bay are dropped, and its units change. -/
theorem Only.resetRegs {N : Nat} {s t : State} (h : Only N s t) (b : Nat) {v_adcs : List (Nat × AdcX)}
    {v_acqs : List (Nat × AcqX)} {v_fes : List (Nat × FeX)} {v_tims : List (Nat × TimX)} {v_dclks : List (Nat × DclkX)}
    {v_cal : CalX} {v_ras : RasX} (hN : 0x3f1000000000000000000003ffffffffffffff000000000000000000000000000000 ||| N = N) :
    Only N s { t with regs := t.regs.filter fun e => !e.1.ofBay b, adcs := v_adcs, acqs := v_acqs, fes := v_fes,
                      tims := v_tims, dclks := v_dclks, cal := v_cal, ras := v_ras } where
  canon c := ⟨Assoc.Wf_filter _ (h.canon c).1, (h.canon c).2⟩
  reg k hk := by
    rw [← h.reg k hk]
    have ha : bayRegs ||| N = N := sub_of (b := 0x3f1000000000000000000003ffffffffffffff000000000000000000000000000000) (by rfl) hN
    have hb := not_bay k.name (bit_of_sub ha hk)
    unfold State.rd Assoc.rd
    rw [Assoc.find_filter k _ t.regs (fun v => by simp only [RegKey.ofBay, hb, Bool.false_and, Bool.not_false])]
  pending hk := h.pending hk
  ticks hk := h.ticks hk
  events hk := h.events hk
  startOfTick hk := h.startOfTick hk
  halvesHost hk := h.halvesHost hk
  halvesCore hk := h.halvesCore hk
  out hk := h.out hk
  free hk := h.free hk
  mem hk := h.mem hk
  time hk := h.time hk
  olu hk := h.olu hk
  host hk := h.host hk
  disp hk := h.disp hk
  gfPrev hk := h.gfPrev hk
  seqs hk := h.seqs hk
  bars hk := h.bars hk
  chans hk := h.chans hk
  stores hk := h.stores hk
  logs hk := h.logs hk
  logTurn hk := h.logTurn hk
  dram hk := h.dram hk
  site hk := h.site hk
  page hk := h.page hk
  clk hk := h.clk hk
  adcs hk := absurd (bit_of_sub hN hk) (by decide)
  acqs hk := absurd (bit_of_sub hN hk) (by decide)
  fes hk := absurd (bit_of_sub hN hk) (by decide)
  tims hk := absurd (bit_of_sub hN hk) (by decide)
  dclks hk := absurd (bit_of_sub hN hk) (by decide)
  cal hk := absurd (bit_of_sub hN hk) (by decide)
  ras hk := absurd (bit_of_sub hN hk) (by decide)

theorem State.bayReset_within (s : State) (b : Nat) (src : Src) (byHw : Bool) :
    Only 0x3f55484400400024c8000003ffffffffffffff041200000000000000000000145000 s (State.bayReset s b src byHw) := by
  unfold State.bayReset
  repeat' first
    | with_reducible exact Only.refl _ _
    | with_reducible refine Only.ite (fun _ => ?_) (fun _ => ?_)
    | with_reducible refine Only.foldl ?_ (fun _ _ => ?_)
    | with_reducible refine Only.resetRegs ?_ _ (by decide)
    | fail_if_no_progress with_reducible refine Only.fields ?_ rfl rfl
    | with_reducible refine State.quietBay_only _ ?_ (by decide)
    | with_reducible refine State.failBay_only _ ?_ (by decide)
    | with_reducible refine State.calAbort_only _ _ ?_ (by decide)
    | with_reducible refine Only.onObj ?_ (fun _ => ?_) (by decide)
    | with_reducible refine State.putMask_only _ _ _ _ _ ?_ (by decide)
    | with_reducible refine State.supersede_only _ ?_ (by decide)

theorem State.bayReset_only {N : Nat} {σ s : State} (b : Nat) (src : Src) (byHw : Bool) (hσ : Only N σ s)
    (hN : 0x3f55484400400024c8000003ffffffffffffff041200000000000000000000145000 ||| N = N) : Only N σ (State.bayReset s b src byHw) := hσ.step (State.bayReset_within s b src byHw) hN

theorem State.sliceTest_within (s : State) (b : Nat) (n : Nat) :
    Only 0x20000000000000000000000000000000000 s (State.sliceTest s b n) := by
  unfold State.sliceTest
  repeat' first
    | with_reducible exact Only.refl _ _
    | with_reducible refine Only.ite (fun _ => ?_) (fun _ => ?_)
    | with_reducible refine Only.foldl ?_ (fun _ _ => ?_)
    | with_reducible refine State.setBit_only _ _ _ _ ?_ (by decide)

theorem State.sliceTest_only {N : Nat} {σ s : State} (b : Nat) (n : Nat) (hσ : Only N σ s)
    (hN : 0x20000000000000000000000000000000000 ||| N = N) : Only N σ (State.sliceTest s b n) := hσ.step (State.sliceTest_within s b n) hN

theorem State.autoResets_within (s : State) :
    Only 0x3f55484400400024c8000003ffffffffffffff041200000000000000000000145000 s (State.autoResets s) := by
  unfold State.autoResets
  repeat' first
    | with_reducible exact Only.refl _ _
    | with_reducible refine Only.ite (fun _ => ?_) (fun _ => ?_)
    | with_reducible refine Only.foldl ?_ (fun _ _ => ?_)
    | fail_if_no_progress with_reducible refine Only.fields ?_ rfl rfl
    | with_reducible refine State.bayReset_only _ _ _ ?_ (by decide)

theorem State.autoResets_only {N : Nat} {σ s : State}  (hσ : Only N σ s)
    (hN : 0x3f55484400400024c8000003ffffffffffffff041200000000000000000000145000 ||| N = N) : Only N σ (State.autoResets s) := hσ.step (State.autoResets_within s) hN

theorem State.interrupted_within (s : State) :
    Only 0x10000080000000000000000000000000000000040000000000000000000000000000 s (State.interrupted s) := by
  unfold State.interrupted
  repeat' first
    | with_reducible exact Only.refl _ _
    | with_reducible refine Only.ite (fun _ => ?_) (fun _ => ?_)
    | with_reducible refine Only.foldl ?_ (fun _ _ => ?_)
    | fail_if_no_progress with_reducible refine Only.fields ?_ rfl rfl
    | with_reducible refine State.useFree_only  ?_ (by decide)
    | with_reducible refine State.set_only _ _ _ _ ?_ (by decide)
    | split
    | extract_lets

theorem State.interrupted_only {N : Nat} {σ s : State}  (hσ : Only N σ s)
    (hN : 0x10000080000000000000000000000000000000040000000000000000000000000000 ||| N = N) : Only N σ (State.interrupted s) := hσ.step (State.interrupted_within s) hN

theorem State.allDenLow_within (s : State) :
    Only 0x10040000000000000000000000000000000000000000000000000000000000000 s (State.allDenLow s) := by
  unfold State.allDenLow
  repeat' first
    | with_reducible exact Only.refl _ _
    | with_reducible refine Only.ite (fun _ => ?_) (fun _ => ?_)
    | with_reducible refine Only.foldl ?_ (fun _ _ => ?_)
    | with_reducible refine State.denLow_only _ ?_ (by decide)

theorem State.allDenLow_only {N : Nat} {σ s : State}  (hσ : Only N σ s)
    (hN : 0x10040000000000000000000000000000000000000000000000000000000000000 ||| N = N) : Only N σ (State.allDenLow s) := hσ.step (State.allDenLow_within s) hN

theorem State.lanesIdle_within (s : State) :
    Only 0x40000000000000000000000000000000000000000000000000000000000000 s (State.lanesIdle s) := by
  unfold State.lanesIdle
  repeat' first
    | with_reducible exact Only.refl _ _
    | with_reducible refine Only.ite (fun _ => ?_) (fun _ => ?_)
    | with_reducible refine Only.foldl ?_ (fun _ _ => ?_)
    | with_reducible refine State.emit_only _ ?_ (by decide)

theorem State.lanesIdle_only {N : Nat} {σ s : State}  (hσ : Only N σ s)
    (hN : 0x40000000000000000000000000000000000000000000000000000000000000 ||| N = N) : Only N σ (State.lanesIdle s) := hσ.step (State.lanesIdle_within s) hN

theorem State.keepFields_only {N : Nat} {σ t : State} (s : State) (l : List Fld) (hσ : Only N σ t)
    (hN : allRegs ||| N = N) : Only N σ (State.keepFields s t l) :=
  hσ.foldl fun _ f => State.set_only _ _ _ _ (.refl ..) (anyReg (f.key 0 0) hN)

/-- The set of everything but the queue. -/
abbrev allButQueue : Nat := 0x7ffffffe01ffffffffffffffffffffffffffffffffffffffffffffffffffffffffff

theorem name_in_full (n : RegName) : allButQueue.testBit n.ctorIdx = true := by cases n <;> decide

theorem Only.full {s t : State} (hc : Canon t) (hp : t.pending = s.pending) : Only allButQueue s t where
  canon _ := hc
  reg k hk := absurd hk (by rw [name_in_full]; decide)
  pending _ := hp
  ticks hk := absurd hk (by decide)
  events hk := absurd hk (by decide)
  startOfTick hk := absurd hk (by decide)
  halvesHost hk := absurd hk (by decide)
  halvesCore hk := absurd hk (by decide)
  out hk := absurd hk (by decide)
  free hk := absurd hk (by decide)
  mem hk := absurd hk (by decide)
  time hk := absurd hk (by decide)
  olu hk := absurd hk (by decide)
  host hk := absurd hk (by decide)
  disp hk := absurd hk (by decide)
  gfPrev hk := absurd hk (by decide)
  seqs hk := absurd hk (by decide)
  bars hk := absurd hk (by decide)
  chans hk := absurd hk (by decide)
  stores hk := absurd hk (by decide)
  logs hk := absurd hk (by decide)
  logTurn hk := absurd hk (by decide)
  dclks hk := absurd hk (by decide)
  dram hk := absurd hk (by decide)
  site hk := absurd hk (by decide)
  page hk := absurd hk (by decide)
  fes hk := absurd hk (by decide)
  adcs hk := absurd hk (by decide)
  acqs hk := absurd hk (by decide)
  tims hk := absurd hk (by decide)
  cal hk := absurd hk (by decide)
  ras hk := absurd hk (by decide)
  clk hk := absurd hk (by decide)

theorem State.deviceReset_within (s0 : State) (code : Nat) : Only 0x7ffffffe01ffffffffffffffffffffffffffffffffffffffffffffffffffffffffff s0 (s0.deviceReset code) := by
  have h1 : Only 0x7ffffffe01ffffffffffffffffffffffffffffffffffffffffffffffffffffffffff s0 s0.interrupted.allDenLow.lanesIdle :=
    State.lanesIdle_only (State.allDenLow_only (State.interrupted_only (.refl ..) (by decide)) (by decide)) (by decide)
  unfold State.deviceReset
  generalize s0.interrupted.allDenLow.lanesIdle = s at h1
  extract_lets _ _ _ base clocks link
  have h2 : Only 0x7ffffffe01ffffffffffffffffffffffffffffffffffffffffffffffffffffffffff base ((s.keepFields base (F.rasStatusDebugLocked :: F.rasStatusFaultRail :: (clocks ++ link))).set
      F.rasStatusLastReset 0 0 code) :=
    State.set_only _ _ _ _ (State.keepFields_only _ _ (.refl ..) (by decide)) (by decide)
  exact Only.full (h2.canon ⟨Assoc.Wf_nil .., Assoc.Wf_nil ..⟩) ((h2.pending (by decide)).trans (h1.pending (by decide)))

theorem State.deviceReset_only {N : Nat} {σ s0 : State} (code : Nat) (hσ : Only N σ s0)
    (hN : 0x7ffffffe01ffffffffffffffffffffffffffffffffffffffffffffffffffffffffff ||| N = N) : Only N σ (s0.deviceReset code) := hσ.step (State.deviceReset_within s0 code) hN

theorem State.requestReset_within (s : State) (code : Nat) :
    Only 0x7ffffffe01ffffffffffffffffffffffffffffffffffffffffffffffffffffffffff s (State.requestReset s code) := by
  unfold State.requestReset
  repeat' first
    | with_reducible exact Only.refl _ _
    | with_reducible refine Only.ite (fun _ => ?_) (fun _ => ?_)
    | with_reducible refine Only.foldl ?_ (fun _ _ => ?_)
    | with_reducible refine State.deviceReset_only _ ?_ (by decide)
    | with_reducible refine State.superseded_only ?_ (by decide)

theorem State.requestReset_only {N : Nat} {σ s : State} (code : Nat) (hσ : Only N σ s)
    (hN : 0x7ffffffe01ffffffffffffffffffffffffffffffffffffffffffffffffffffffffff ||| N = N) : Only N σ (State.requestReset s code) := hσ.step (State.requestReset_within s code) hN

theorem State.holdReset_within (s : State) (code : Nat) :
    Only 0x7ffffffe01ffffffffffffffffffffffffffffffffffffffffffffffffffffffffff s (State.holdReset s code) := by
  unfold State.holdReset
  repeat' first
    | with_reducible exact Only.refl _ _
    | with_reducible refine Only.ite (fun _ => ?_) (fun _ => ?_)
    | with_reducible refine Only.foldl ?_ (fun _ _ => ?_)
    | fail_if_no_progress with_reducible refine Only.fields ?_ rfl rfl
    | with_reducible refine State.deviceReset_only _ ?_ (by decide)
    | with_reducible refine State.emit_only _ ?_ (by decide)

theorem State.holdReset_only {N : Nat} {σ s : State} (code : Nat) (hσ : Only N σ s)
    (hN : 0x7ffffffe01ffffffffffffffffffffffffffffffffffffffffffffffffffffffffff ||| N = N) : Only N σ (State.holdReset s code) := hσ.step (State.holdReset_within s code) hN

theorem State.reading_within (s : State) (i : Nat) (v : Int) :
    Only 0x800000000000000000000000000000 s (State.reading s i v) := by
  unfold State.reading
  repeat' first
    | with_reducible exact Only.refl _ _
    | with_reducible refine Only.ite (fun _ => ?_) (fun _ => ?_)
    | with_reducible refine Only.foldl ?_ (fun _ _ => ?_)
    | with_reducible refine State.set_only _ _ _ _ ?_ (by decide)

theorem State.reading_only {N : Nat} {σ s : State} (i : Nat) (v : Int) (hσ : Only N σ s)
    (hN : 0x800000000000000000000000000000 ||| N = N) : Only N σ (State.reading s i v) := hσ.step (State.reading_within s i v) hN

theorem State.judgeWarn_within (s : State) (i : Nat) (m : Int) :
    Only 0x844000000000000000000000000000000400000000000000000000000145000 s (State.judgeWarn s i m) := by
  unfold State.judgeWarn
  repeat' first
    | with_reducible exact Only.refl _ _
    | with_reducible refine Only.ite (fun _ => ?_) (fun _ => ?_)
    | with_reducible refine Only.foldl ?_ (fun _ _ => ?_)
    | with_reducible refine State.post_only _ _ _ ?_ (by decide)
    | with_reducible refine State.set_only _ _ _ _ ?_ (by decide)
    | with_reducible refine State.hwSet_only _ _ _ ?_ (by decide)

theorem State.judgeWarn_only {N : Nat} {σ s : State} (i : Nat) (m : Int) (hσ : Only N σ s)
    (hN : 0x844000000000000000000000000000000400000000000000000000000145000 ||| N = N) : Only N σ (State.judgeWarn s i m) := hσ.step (State.judgeWarn_within s i m) hN

theorem State.judgeHot_within (s : State) (i : Nat) (m : Int) :
    Only 0x2d74844004001a4c030007000000000000200400000000000000000000000145000 s (State.judgeHot s i m) := by
  unfold State.judgeHot
  repeat' first
    | with_reducible exact Only.refl _ _
    | with_reducible refine Only.ite (fun _ => ?_) (fun _ => ?_)
    | with_reducible refine Only.foldl ?_ (fun _ _ => ?_)
    | with_reducible refine State.requestStop_only _ _ _ _ ?_ (by decide)
    | with_reducible refine State.post_only _ _ _ ?_ (by decide)
    | with_reducible refine State.set_only _ _ _ _ ?_ (by decide)
    | with_reducible refine State.hwSet_only _ _ _ ?_ (by decide)

theorem State.judgeHot_only {N : Nat} {σ s : State} (i : Nat) (m : Int) (hσ : Only N σ s)
    (hN : 0x2d74844004001a4c030007000000000000200400000000000000000000000145000 ||| N = N) : Only N σ (State.judgeHot s i m) := hσ.step (State.judgeHot_within s i m) hN

theorem State.trip_within (s : State) :
    Only 0x7ffffffe01ffffffffffffffffffffffffffffffffffffffffffffffffffffffffff s (State.trip s) := by
  unfold State.trip
  repeat' first
    | with_reducible exact Only.refl _ _
    | with_reducible refine Only.ite (fun _ => ?_) (fun _ => ?_)
    | with_reducible refine Only.foldl ?_ (fun _ _ => ?_)
    | with_reducible refine State.holdReset_only _ ?_ (by decide)
    | with_reducible refine State.allDenLow_only  ?_ (by decide)
    | with_reducible refine State.halt_only _ _ ?_ (by decide)

theorem State.trip_only {N : Nat} {σ s : State}  (hσ : Only N σ s)
    (hN : 0x7ffffffe01ffffffffffffffffffffffffffffffffffffffffffffffffffffffffff ||| N = N) : Only N σ (State.trip s) := hσ.step (State.trip_within s) hN

theorem State.temperatures_within (s : State) (l : List Int) :
    Only 0x7ffffffe01ffffffffffffffffffffffffffffffffffffffffffffffffffffffffff s (State.temperatures s l) := by
  unfold State.temperatures
  repeat' first
    | with_reducible exact Only.refl _ _
    | with_reducible refine Only.ite (fun _ => ?_) (fun _ => ?_)
    | with_reducible refine Only.foldl ?_ (fun _ _ => ?_)
    | with_reducible refine State.trip_only  ?_ (by decide)
    | with_reducible refine State.judgeHot_only _ _ ?_ (by decide)
    | with_reducible refine State.judgeWarn_only _ _ ?_ (by decide)
    | with_reducible refine State.reading_only _ _ ?_ (by decide)
    | with_reducible refine State.set_only _ _ _ _ ?_ (by decide)

theorem State.temperatures_only {N : Nat} {σ s : State} (l : List Int) (hσ : Only N σ s)
    (hN : 0x7ffffffe01ffffffffffffffffffffffffffffffffffffffffffffffffffffffffff ||| N = N) : Only N σ (State.temperatures s l) := hσ.step (State.temperatures_within s l) hN

end Sys2Proof.Machine
end

