-- ==== Sys2Proof/Laws/Frame/Rv32.lean ====
section
/-!
SUPPORT. Rv32.lean: what each operation of Machine/Rv32.lean can change (see Only).
-/
namespace Sys2Proof.Machine
set_option Elab.async false

end Sys2Proof.Machine
end

