-- ==== Sys2Proof/Laws/Frame/RvCore.lean ====
section
/-!
SUPPORT. RvCore.lean: what each operation of Machine/RvCore.lean can change (see Only).
-/
namespace Sys2Proof.Machine
set_option Elab.async false

theorem State.setCpu_within (s : State) (c : Nat) (u : CpuX) :
    Only 0x1000000000000000000000000000000000000000000000000000000000000000 s (State.setCpu s c u) := by
  unfold State.setCpu
  repeat' first
    | with_reducible exact Only.refl _ _
    | with_reducible refine Only.ite (fun _ => ?_) (fun _ => ?_)
    | with_reducible refine Only.foldl ?_ (fun _ _ => ?_)
    | with_reducible refine State.setCoreX_only _ _ ?_ (by decide)

theorem State.setCpu_only {N : Nat} {σ s : State} (c : Nat) (u : CpuX) (hσ : Only N σ s)
    (hN : 0x1000000000000000000000000000000000000000000000000000000000000000 ||| N = N) : Only N σ (State.setCpu s c u) := hσ.step (State.setCpu_within s c u) hN

theorem State.memStall_within (s : State) (c : Nat) (answers : Nat) :
    Only 0x1080000000000000000000000000000000000000000000000000000000000000 s (State.memStall s c answers) := by
  unfold State.memStall
  repeat' first
    | with_reducible exact Only.refl _ _
    | with_reducible refine Only.ite (fun _ => ?_) (fun _ => ?_)
    | with_reducible refine Only.foldl ?_ (fun _ _ => ?_)
    | with_reducible refine State.setCpu_only _ _ ?_ (by decide)
    | with_reducible refine State.useFree_only  ?_ (by decide)

theorem State.memStall_only {N : Nat} {σ s : State} (c : Nat) (answers : Nat) (hσ : Only N σ s)
    (hN : 0x1080000000000000000000000000000000000000000000000000000000000000 ||| N = N) : Only N σ (State.memStall s c answers) := hσ.step (State.memStall_within s c answers) hN

theorem State.rvRead_within (s : State) (c : Nat) (a : Nat) (n : Nat) (k : RvKind) :
    Only 0x2018c4000000000000000000000000000000000000000030002000000000145000 s (State.rvRead s c a n k).2 := by
  unfold State.rvRead
  repeat' first
    | with_reducible exact Only.refl _ _
    | with_reducible refine Only.ite (fun _ => ?_) (fun _ => ?_)
    | with_reducible refine Only.foldl ?_ (fun _ _ => ?_)
    | with_reducible refine State.memStall_only _ _ ?_ (by decide)
    | with_reducible refine State.dramRead_only _ _ ?_ (by decide)
    | with_reducible refine State.dramRead_only_eq (by assumption) ?_ (by decide)
    | split

theorem State.rvRead_only {N : Nat} {σ s : State} (c : Nat) (a : Nat) (n : Nat) (k : RvKind) (hσ : Only N σ s)
    (hN : 0x2018c4000000000000000000000000000000000000000030002000000000145000 ||| N = N) : Only N σ (State.rvRead s c a n k).2 := hσ.step (State.rvRead_within s c a n k) hN

theorem State.rvRead_only_eq {N : Nat} {σ s t : State} {c : Nat} {a : Nat} {n : Nat} {k : RvKind} {r0 : Option Nat} (heq : State.rvRead s c a n k = (r0, t)) (hσ : Only N σ s)
    (hN : 0x2018c4000000000000000000000000000000000000000030002000000000145000 ||| N = N) : Only N σ t := hσ.step (Only.snd heq (State.rvRead_within s c a n k)) hN

theorem State.rvWrite_within (s : State) (c a n v : Nat) :
    Only 0x2019c4000000000000000000000000000000000000000000002000000000145000 s (s.rvWrite c a n v).2 ∧ ∀ t, (s.rvWrite c a n v).1 = some t → Only 0x2019c4000000000000000000000000000000000000000000002000000000145000 s t := by
  unfold State.rvWrite
  split
  · exact ⟨.refl .., fun t h => by
      cases h; exact State.memStall_only _ _ (State.storeSram_only _ _ _ (.refl 0x2019c4000000000000000000000000000000000000000000002000000000145000 s) (by decide)) (by decide)⟩
  · split
    · split
      · exact ⟨.refl .., fun t h => by
          cases h; exact State.memStall_only _ _ (State.dramWrite_only _ _ (.refl 0x2019c4000000000000000000000000000000000000000000002000000000145000 s) (by decide)) (by decide)⟩
      · exact ⟨State.outOfRange_only (.refl 0x2019c4000000000000000000000000000000000000000000002000000000145000 s) (by decide), fun t h => by cases h⟩
    · exact ⟨.refl .., fun t h => by cases h⟩
  · exact ⟨.refl .., fun t h => by cases h⟩

theorem State.rvWrite_done {N : Nat} {σ s t u : State} {c a n v : Nat} (heq : s.rvWrite c a n v = (some t, u))
    (hσ : Only N σ s) (hN : 0x2019c4000000000000000000000000000000000000000000002000000000145000 ||| N = N) : Only N σ t :=
  hσ.step ((State.rvWrite_within s c a n v).2 t (by rw [heq])) hN

theorem State.rvWrite_kept {N : Nat} {σ s u : State} {o : Option State} {c a n v : Nat}
    (heq : s.rvWrite c a n v = (o, u)) (hσ : Only N σ s) (hN : 0x2019c4000000000000000000000000000000000000000000002000000000145000 ||| N = N) : Only N σ u :=
  hσ.step (Only.snd heq (State.rvWrite_within s c a n v).1) hN

theorem State.csrPut_within (s : State) (c : Nat) (n : Nat) (v : W32) :
    Only 0x1000000000000000000000000000000000000000000000000000000000000000 s (State.csrPut s c n v) := by
  unfold State.csrPut
  repeat' first
    | with_reducible exact Only.refl _ _
    | with_reducible refine Only.ite (fun _ => ?_) (fun _ => ?_)
    | with_reducible refine Only.foldl ?_ (fun _ _ => ?_)
    | with_reducible refine State.setCpu_only _ _ ?_ (by decide)
    | with_reducible refine State.setCoreX_only _ _ ?_ (by decide)
    | split

theorem State.csrPut_only {N : Nat} {σ s : State} (c : Nat) (n : Nat) (v : W32) (hσ : Only N σ s)
    (hN : 0x1000000000000000000000000000000000000000000000000000000000000000 ||| N = N) : Only N σ (State.csrPut s c n v) := hσ.step (State.csrPut_within s c n v) hN

theorem State.csrSeen_within (s : State) (c : Nat) (n : Nat) :
    Only 0x1000000000000000000000000000000000000000000000000000000000000000 s (State.csrSeen s c n) := by
  unfold State.csrSeen
  repeat' first
    | with_reducible exact Only.refl _ _
    | with_reducible refine Only.ite (fun _ => ?_) (fun _ => ?_)
    | with_reducible refine Only.foldl ?_ (fun _ _ => ?_)
    | with_reducible refine State.setCpu_only _ _ ?_ (by decide)

theorem State.csrSeen_only {N : Nat} {σ s : State} (c : Nat) (n : Nat) (hσ : Only N σ s)
    (hN : 0x1000000000000000000000000000000000000000000000000000000000000000 ||| N = N) : Only N σ (State.csrSeen s c n) := hσ.step (State.csrSeen_within s c n) hN

theorem State.aliasFault_within (s : State) (c : Nat) (a : Nat) (k : RvKind) :
    Only 0x21020000000000000000000000000000000000000000000000000000000000000 s (State.aliasFault s c a k) := by
  unfold State.aliasFault
  repeat' first
    | with_reducible exact Only.refl _ _
    | with_reducible refine Only.ite (fun _ => ?_) (fun _ => ?_)
    | with_reducible refine Only.foldl ?_ (fun _ _ => ?_)
    | fail_if_no_progress with_reducible refine Only.fields ?_ rfl rfl
    | with_reducible refine State.setCoreX_only _ _ ?_ (by decide)

theorem State.aliasFault_only {N : Nat} {σ s : State} (c : Nat) (a : Nat) (k : RvKind) (hσ : Only N σ s)
    (hN : 0x21020000000000000000000000000000000000000000000000000000000000000 ||| N = N) : Only N σ (State.aliasFault s c a k) := hσ.step (State.aliasFault_within s c a k) hN

theorem State.illegal_within (s : State) (i : Nat) :
    Only 0x0 s (State.illegal s i).1 := by
  unfold State.illegal
  repeat' first
    | with_reducible exact Only.refl _ _

theorem State.illegal_only {N : Nat} {σ s : State} (i : Nat) (hσ : Only N σ s)
    (hN : 0x0 ||| N = N) : Only N σ (State.illegal s i).1 := hσ.step (State.illegal_within s i) hN

theorem State.illegal_only_eq {N : Nat} {σ s t : State} {i : Nat} {r0 : Option (Nat × Nat)} (heq : State.illegal s i = (t, r0)) (hσ : Only N σ s)
    (hN : 0x0 ||| N = N) : Only N σ t := hσ.step (Only.fst heq (State.illegal_within s i)) hN

theorem State.rvGo_within (s : State) (c : Nat) (rd : Nat) (v : W32) (next : W32) :
    Only 0x1000000000000000000000000000000000000000000000000000000000000000 s (State.rvGo s c rd v next).1 := by
  unfold State.rvGo
  repeat' first
    | with_reducible exact Only.refl _ _
    | with_reducible refine Only.ite (fun _ => ?_) (fun _ => ?_)
    | with_reducible refine Only.foldl ?_ (fun _ _ => ?_)
    | with_reducible refine State.setCpu_only _ _ ?_ (by decide)

theorem State.rvGo_only {N : Nat} {σ s : State} (c : Nat) (rd : Nat) (v : W32) (next : W32) (hσ : Only N σ s)
    (hN : 0x1000000000000000000000000000000000000000000000000000000000000000 ||| N = N) : Only N σ (State.rvGo s c rd v next).1 := hσ.step (State.rvGo_within s c rd v next) hN

theorem State.rvGo_only_eq {N : Nat} {σ s t : State} {c : Nat} {rd : Nat} {v : W32} {next : W32} {r0 : Option (Nat × Nat)} (heq : State.rvGo s c rd v next = (t, r0)) (hσ : Only N σ s)
    (hN : 0x1000000000000000000000000000000000000000000000000000000000000000 ||| N = N) : Only N σ t := hσ.step (Only.fst heq (State.rvGo_within s c rd v next)) hN

theorem State.rvLoad_within (s : State) (c : Nat) (rd : Nat) (a : Nat) (f3 : Nat) (next : W32) :
    Only 0x2218e4000000000000000000000000000000000000000030002000000000145000 s (State.rvLoad s c rd a f3 next).1 := by
  unfold State.rvLoad
  repeat' first
    | with_reducible exact Only.refl _ _
    | with_reducible refine Only.ite (fun _ => ?_) (fun _ => ?_)
    | with_reducible refine Only.foldl ?_ (fun _ _ => ?_)
    | with_reducible refine State.rvGo_only _ _ _ _ ?_ (by decide)
    | with_reducible refine State.rvGo_only_eq (by assumption) ?_ (by decide)
    | with_reducible refine State.aliasFault_only _ _ _ ?_ (by decide)
    | with_reducible refine State.rvRead_only _ _ _ _ ?_ (by decide)
    | with_reducible refine State.rvRead_only_eq (by assumption) ?_ (by decide)
    | with_reducible refine State.setCpu_only _ _ ?_ (by decide)
    | with_reducible refine State.queueOp_only _ _ ?_ (by decide)
    | split
    | extract_lets

theorem State.rvLoad_only {N : Nat} {σ s : State} (c : Nat) (rd : Nat) (a : Nat) (f3 : Nat) (next : W32) (hσ : Only N σ s)
    (hN : 0x2218e4000000000000000000000000000000000000000030002000000000145000 ||| N = N) : Only N σ (State.rvLoad s c rd a f3 next).1 := hσ.step (State.rvLoad_within s c rd a f3 next) hN

theorem State.rvLoad_only_eq {N : Nat} {σ s t : State} {c : Nat} {rd : Nat} {a : Nat} {f3 : Nat} {next : W32} {r0 : Option (Nat × Nat)} (heq : State.rvLoad s c rd a f3 next = (t, r0)) (hσ : Only N σ s)
    (hN : 0x2218e4000000000000000000000000000000000000000030002000000000145000 ||| N = N) : Only N σ t := hσ.step (Only.fst heq (State.rvLoad_within s c rd a f3 next)) hN

theorem State.rvStore_within (s : State) (c : Nat) (a : Nat) (n : Nat) (v : W32) (next : W32) :
    Only 0x2219e4000000000000000000000000000000000000000000002000000000145000 s (State.rvStore s c a n v next).1 := by
  unfold State.rvStore
  repeat' first
    | with_reducible exact Only.refl _ _
    | with_reducible refine Only.ite (fun _ => ?_) (fun _ => ?_)
    | with_reducible refine Only.foldl ?_ (fun _ _ => ?_)
    | with_reducible refine State.aliasFault_only _ _ _ ?_ (by decide)
    | with_reducible refine State.rvWrite_done (by assumption) ?_ (by decide)
    | with_reducible refine State.rvWrite_kept (by assumption) ?_ (by decide)
    | with_reducible refine State.setCpu_only _ _ ?_ (by decide)
    | with_reducible refine State.queueOp_only _ _ ?_ (by decide)
    | with_reducible refine State.setCoreX_only _ _ ?_ (by decide)
    | split

theorem State.rvStore_only {N : Nat} {σ s : State} (c : Nat) (a : Nat) (n : Nat) (v : W32) (next : W32) (hσ : Only N σ s)
    (hN : 0x2219e4000000000000000000000000000000000000000000002000000000145000 ||| N = N) : Only N σ (State.rvStore s c a n v next).1 := hσ.step (State.rvStore_within s c a n v next) hN

theorem State.rvStore_only_eq {N : Nat} {σ s t : State} {c : Nat} {a : Nat} {n : Nat} {v : W32} {next : W32} {r0 : Option (Nat × Nat)} (heq : State.rvStore s c a n v next = (t, r0)) (hσ : Only N σ s)
    (hN : 0x2219e4000000000000000000000000000000000000000000002000000000145000 ||| N = N) : Only N σ t := hσ.step (Only.fst heq (State.rvStore_within s c a n v next)) hN

theorem State.rvLr_within (s : State) (c : Nat) (rd : Nat) (a : Nat) (next : W32) :
    Only 0x210a0000000000000000000000000000000000000000000000000000000000000 s (State.rvLr s c rd a next).1 := by
  unfold State.rvLr
  repeat' first
    | with_reducible exact Only.refl _ _
    | with_reducible refine Only.ite (fun _ => ?_) (fun _ => ?_)
    | with_reducible refine Only.foldl ?_ (fun _ _ => ?_)
    | with_reducible refine State.rvGo_only _ _ _ _ ?_ (by decide)
    | with_reducible refine State.rvGo_only_eq (by assumption) ?_ (by decide)
    | with_reducible refine State.aliasFault_only _ _ _ ?_ (by decide)
    | with_reducible refine State.memStall_only _ _ ?_ (by decide)
    | with_reducible refine State.setCpu_only _ _ ?_ (by decide)
    | split

theorem State.rvLr_only {N : Nat} {σ s : State} (c : Nat) (rd : Nat) (a : Nat) (next : W32) (hσ : Only N σ s)
    (hN : 0x210a0000000000000000000000000000000000000000000000000000000000000 ||| N = N) : Only N σ (State.rvLr s c rd a next).1 := hσ.step (State.rvLr_within s c rd a next) hN

theorem State.rvLr_only_eq {N : Nat} {σ s t : State} {c : Nat} {rd : Nat} {a : Nat} {next : W32} {r0 : Option (Nat × Nat)} (heq : State.rvLr s c rd a next = (t, r0)) (hσ : Only N σ s)
    (hN : 0x210a0000000000000000000000000000000000000000000000000000000000000 ||| N = N) : Only N σ t := hσ.step (Only.fst heq (State.rvLr_within s c rd a next)) hN

theorem State.rvSc_within (s : State) (c : Nat) (rd : Nat) (a : Nat) (v : W32) (next : W32) :
    Only 0x210a0000000000000000000000000000000000000000000000000000000000000 s (State.rvSc s c rd a v next).1 := by
  unfold State.rvSc
  repeat' first
    | with_reducible exact Only.refl _ _
    | with_reducible refine Only.ite (fun _ => ?_) (fun _ => ?_)
    | with_reducible refine Only.foldl ?_ (fun _ _ => ?_)
    | with_reducible refine State.rvGo_only _ _ _ _ ?_ (by decide)
    | with_reducible refine State.rvGo_only_eq (by assumption) ?_ (by decide)
    | with_reducible refine State.aliasFault_only _ _ _ ?_ (by decide)
    | with_reducible refine State.memStall_only _ _ ?_ (by decide)
    | with_reducible refine State.setCpu_only _ _ ?_ (by decide)
    | with_reducible refine State.storeSram_only _ _ _ ?_ (by decide)
    | split

theorem State.rvSc_only {N : Nat} {σ s : State} (c : Nat) (rd : Nat) (a : Nat) (v : W32) (next : W32) (hσ : Only N σ s)
    (hN : 0x210a0000000000000000000000000000000000000000000000000000000000000 ||| N = N) : Only N σ (State.rvSc s c rd a v next).1 := hσ.step (State.rvSc_within s c rd a v next) hN

theorem State.rvSc_only_eq {N : Nat} {σ s t : State} {c : Nat} {rd : Nat} {a : Nat} {v : W32} {next : W32} {r0 : Option (Nat × Nat)} (heq : State.rvSc s c rd a v next = (t, r0)) (hσ : Only N σ s)
    (hN : 0x210a0000000000000000000000000000000000000000000000000000000000000 ||| N = N) : Only N σ t := hσ.step (Only.fst heq (State.rvSc_within s c rd a v next)) hN

theorem State.rvAmo_within (s : State) (c : Nat) (i : Nat) (rd : Nat) (a : Nat) (v : W32) (next : W32) :
    Only 0x210a0000000000000000000000000000000000000000000000000000000000000 s (State.rvAmo s c i rd a v next).1 := by
  unfold State.rvAmo
  repeat' first
    | with_reducible exact Only.refl _ _
    | with_reducible refine Only.ite (fun _ => ?_) (fun _ => ?_)
    | with_reducible refine Only.foldl ?_ (fun _ _ => ?_)
    | with_reducible refine State.rvGo_only _ _ _ _ ?_ (by decide)
    | with_reducible refine State.rvGo_only_eq (by assumption) ?_ (by decide)
    | with_reducible refine State.illegal_only _ ?_ (by decide)
    | with_reducible refine State.illegal_only_eq (by assumption) ?_ (by decide)
    | with_reducible refine State.aliasFault_only _ _ _ ?_ (by decide)
    | with_reducible refine State.memStall_only _ _ ?_ (by decide)
    | with_reducible refine State.storeSram_only _ _ _ ?_ (by decide)
    | split
    | extract_lets

theorem State.rvAmo_only {N : Nat} {σ s : State} (c : Nat) (i : Nat) (rd : Nat) (a : Nat) (v : W32) (next : W32) (hσ : Only N σ s)
    (hN : 0x210a0000000000000000000000000000000000000000000000000000000000000 ||| N = N) : Only N σ (State.rvAmo s c i rd a v next).1 := hσ.step (State.rvAmo_within s c i rd a v next) hN

theorem State.rvAmo_only_eq {N : Nat} {σ s t : State} {c : Nat} {i : Nat} {rd : Nat} {a : Nat} {v : W32} {next : W32} {r0 : Option (Nat × Nat)} (heq : State.rvAmo s c i rd a v next = (t, r0)) (hσ : Only N σ s)
    (hN : 0x210a0000000000000000000000000000000000000000000000000000000000000 ||| N = N) : Only N σ t := hσ.step (Only.fst heq (State.rvAmo_within s c i rd a v next)) hN

theorem State.rvCsr_within (s : State) (c : Nat) (i : Nat) (word : Nat) (next : W32) :
    Only 0x1000000000000000000000000000000000000000000000000000000000000000 s (State.rvCsr s c i word next).1 := by
  unfold State.rvCsr
  repeat' first
    | with_reducible exact Only.refl _ _
    | with_reducible refine Only.ite (fun _ => ?_) (fun _ => ?_)
    | with_reducible refine Only.foldl ?_ (fun _ _ => ?_)
    | with_reducible refine State.rvGo_only _ _ _ _ ?_ (by decide)
    | with_reducible refine State.rvGo_only_eq (by assumption) ?_ (by decide)
    | with_reducible refine State.illegal_only _ ?_ (by decide)
    | with_reducible refine State.illegal_only_eq (by assumption) ?_ (by decide)
    | with_reducible refine State.csrSeen_only _ _ ?_ (by decide)
    | with_reducible refine State.csrPut_only _ _ _ ?_ (by decide)
    | split
    | extract_lets

theorem State.rvCsr_only {N : Nat} {σ s : State} (c : Nat) (i : Nat) (word : Nat) (next : W32) (hσ : Only N σ s)
    (hN : 0x1000000000000000000000000000000000000000000000000000000000000000 ||| N = N) : Only N σ (State.rvCsr s c i word next).1 := hσ.step (State.rvCsr_within s c i word next) hN

theorem State.rvCsr_only_eq {N : Nat} {σ s t : State} {c : Nat} {i : Nat} {word : Nat} {next : W32} {r0 : Option (Nat × Nat)} (heq : State.rvCsr s c i word next = (t, r0)) (hσ : Only N σ s)
    (hN : 0x1000000000000000000000000000000000000000000000000000000000000000 ||| N = N) : Only N σ t := hσ.step (Only.fst heq (State.rvCsr_within s c i word next)) hN

theorem State.rvSystem_within (s : State) (c : Nat) (i : Nat) (word : Nat) (next : W32) :
    Only 0x1000000000000000000000000000000000000000000000000000000000000000 s (State.rvSystem s c i word next).1 := by
  unfold State.rvSystem
  repeat' first
    | with_reducible exact Only.refl _ _
    | with_reducible refine Only.ite (fun _ => ?_) (fun _ => ?_)
    | with_reducible refine Only.foldl ?_ (fun _ _ => ?_)
    | with_reducible refine State.illegal_only _ ?_ (by decide)
    | with_reducible refine State.illegal_only_eq (by assumption) ?_ (by decide)
    | with_reducible refine State.setCpu_only _ _ ?_ (by decide)
    | split
    | extract_lets

theorem State.rvSystem_only {N : Nat} {σ s : State} (c : Nat) (i : Nat) (word : Nat) (next : W32) (hσ : Only N σ s)
    (hN : 0x1000000000000000000000000000000000000000000000000000000000000000 ||| N = N) : Only N σ (State.rvSystem s c i word next).1 := hσ.step (State.rvSystem_within s c i word next) hN

theorem State.rvSystem_only_eq {N : Nat} {σ s t : State} {c : Nat} {i : Nat} {word : Nat} {next : W32} {r0 : Option (Nat × Nat)} (heq : State.rvSystem s c i word next = (t, r0)) (hσ : Only N σ s)
    (hN : 0x1000000000000000000000000000000000000000000000000000000000000000 ||| N = N) : Only N σ t := hσ.step (Only.fst heq (State.rvSystem_within s c i word next)) hN

theorem State.rvMemory_within (s : State) (c : Nat) (i : Nat) (word : Nat) (next : W32) :
    Only 0x2219e4000000000000000000000000000000000000000030002000000000145000 s (State.rvMemory s c i word next).1 := by
  unfold State.rvMemory
  repeat' first
    | with_reducible exact Only.refl _ _
    | with_reducible refine Only.ite (fun _ => ?_) (fun _ => ?_)
    | with_reducible refine Only.foldl ?_ (fun _ _ => ?_)
    | with_reducible refine State.rvAmo_only _ _ _ _ _ _ ?_ (by decide)
    | with_reducible refine State.rvAmo_only_eq (by assumption) ?_ (by decide)
    | with_reducible refine State.rvSc_only _ _ _ _ _ ?_ (by decide)
    | with_reducible refine State.rvSc_only_eq (by assumption) ?_ (by decide)
    | with_reducible refine State.rvLr_only _ _ _ _ ?_ (by decide)
    | with_reducible refine State.rvLr_only_eq (by assumption) ?_ (by decide)
    | with_reducible refine State.rvStore_only _ _ _ _ _ ?_ (by decide)
    | with_reducible refine State.rvStore_only_eq (by assumption) ?_ (by decide)
    | with_reducible refine State.rvLoad_only _ _ _ _ _ ?_ (by decide)
    | with_reducible refine State.rvLoad_only_eq (by assumption) ?_ (by decide)
    | with_reducible refine State.illegal_only _ ?_ (by decide)
    | with_reducible refine State.illegal_only_eq (by assumption) ?_ (by decide)
    | split
    | extract_lets

theorem State.rvMemory_only {N : Nat} {σ s : State} (c : Nat) (i : Nat) (word : Nat) (next : W32) (hσ : Only N σ s)
    (hN : 0x2219e4000000000000000000000000000000000000000030002000000000145000 ||| N = N) : Only N σ (State.rvMemory s c i word next).1 := hσ.step (State.rvMemory_within s c i word next) hN

theorem State.rvMemory_only_eq {N : Nat} {σ s t : State} {c : Nat} {i : Nat} {word : Nat} {next : W32} {r0 : Option (Nat × Nat)} (heq : State.rvMemory s c i word next = (t, r0)) (hσ : Only N σ s)
    (hN : 0x2219e4000000000000000000000000000000000000000030002000000000145000 ||| N = N) : Only N σ t := hσ.step (Only.fst heq (State.rvMemory_within s c i word next)) hN

theorem State.rvJump_within (s : State) (c : Nat) (i : Nat) (word : Nat) (next : W32) :
    Only 0x1000000000000000000000000000000000000000000000000000000000000000 s (State.rvJump s c i word next).1 := by
  unfold State.rvJump
  repeat' first
    | with_reducible exact Only.refl _ _
    | with_reducible refine Only.ite (fun _ => ?_) (fun _ => ?_)
    | with_reducible refine Only.foldl ?_ (fun _ _ => ?_)
    | with_reducible refine State.rvGo_only _ _ _ _ ?_ (by decide)
    | with_reducible refine State.rvGo_only_eq (by assumption) ?_ (by decide)
    | with_reducible refine State.illegal_only _ ?_ (by decide)
    | with_reducible refine State.illegal_only_eq (by assumption) ?_ (by decide)
    | with_reducible refine State.setCpu_only _ _ ?_ (by decide)
    | split
    | extract_lets

theorem State.rvJump_only {N : Nat} {σ s : State} (c : Nat) (i : Nat) (word : Nat) (next : W32) (hσ : Only N σ s)
    (hN : 0x1000000000000000000000000000000000000000000000000000000000000000 ||| N = N) : Only N σ (State.rvJump s c i word next).1 := hσ.step (State.rvJump_within s c i word next) hN

theorem State.rvJump_only_eq {N : Nat} {σ s t : State} {c : Nat} {i : Nat} {word : Nat} {next : W32} {r0 : Option (Nat × Nat)} (heq : State.rvJump s c i word next = (t, r0)) (hσ : Only N σ s)
    (hN : 0x1000000000000000000000000000000000000000000000000000000000000000 ||| N = N) : Only N σ t := hσ.step (Only.fst heq (State.rvJump_within s c i word next)) hN

theorem State.rvExec_within (s : State) (c : Nat) (i : Nat) (word : Nat) (next : W32) :
    Only 0x2219e4000000000000000000000000000000000000000030002000000000145000 s (State.rvExec s c i word next).1 := by
  unfold State.rvExec
  repeat' first
    | with_reducible exact Only.refl _ _
    | with_reducible refine Only.ite (fun _ => ?_) (fun _ => ?_)
    | with_reducible refine Only.foldl ?_ (fun _ _ => ?_)
    | with_reducible refine State.rvJump_only _ _ _ _ ?_ (by decide)
    | with_reducible refine State.rvJump_only_eq (by assumption) ?_ (by decide)
    | with_reducible refine State.rvMemory_only _ _ _ _ ?_ (by decide)
    | with_reducible refine State.rvMemory_only_eq (by assumption) ?_ (by decide)
    | with_reducible refine State.rvSystem_only _ _ _ _ ?_ (by decide)
    | with_reducible refine State.rvSystem_only_eq (by assumption) ?_ (by decide)
    | with_reducible refine State.rvCsr_only _ _ _ _ ?_ (by decide)
    | with_reducible refine State.rvCsr_only_eq (by assumption) ?_ (by decide)
    | with_reducible refine State.rvGo_only _ _ _ _ ?_ (by decide)
    | with_reducible refine State.rvGo_only_eq (by assumption) ?_ (by decide)
    | with_reducible refine State.illegal_only _ ?_ (by decide)
    | with_reducible refine State.illegal_only_eq (by assumption) ?_ (by decide)
    | with_reducible refine State.setCpu_only _ _ ?_ (by decide)
    | split
    | extract_lets

theorem State.rvExec_only {N : Nat} {σ s : State} (c : Nat) (i : Nat) (word : Nat) (next : W32) (hσ : Only N σ s)
    (hN : 0x2219e4000000000000000000000000000000000000000030002000000000145000 ||| N = N) : Only N σ (State.rvExec s c i word next).1 := hσ.step (State.rvExec_within s c i word next) hN

theorem State.rvExec_only_eq {N : Nat} {σ s t : State} {c : Nat} {i : Nat} {word : Nat} {next : W32} {r0 : Option (Nat × Nat)} (heq : State.rvExec s c i word next = (t, r0)) (hσ : Only N σ s)
    (hN : 0x2219e4000000000000000000000000000000000000000030002000000000145000 ||| N = N) : Only N σ t := hσ.step (Only.fst heq (State.rvExec_within s c i word next)) hN

theorem State.rvFetch_within (s : State) (c : Nat) (a : Nat) :
    Only 0x2018c4000000000000000000000000000000000000000030002000000000145000 s (State.rvFetch s c a).2 := by
  unfold State.rvFetch
  repeat' first
    | with_reducible exact Only.refl _ _
    | with_reducible refine Only.ite (fun _ => ?_) (fun _ => ?_)
    | with_reducible refine Only.foldl ?_ (fun _ _ => ?_)
    | with_reducible refine State.rvRead_only _ _ _ _ ?_ (by decide)
    | with_reducible refine State.rvRead_only_eq (by assumption) ?_ (by decide)
    | split
    | extract_lets

theorem State.rvFetch_only {N : Nat} {σ s : State} (c : Nat) (a : Nat) (hσ : Only N σ s)
    (hN : 0x2018c4000000000000000000000000000000000000000030002000000000145000 ||| N = N) : Only N σ (State.rvFetch s c a).2 := hσ.step (State.rvFetch_within s c a) hN

theorem State.rvFetch_only_eq {N : Nat} {σ s t : State} {c : Nat} {a : Nat} {r0 : Option Nat} (heq : State.rvFetch s c a = (r0, t)) (hσ : Only N σ s)
    (hN : 0x2018c4000000000000000000000000000000000000000030002000000000145000 ||| N = N) : Only N σ t := hσ.step (Only.snd heq (State.rvFetch_within s c a)) hN

theorem State.rvEnd_only {N : Nat} {σ : State} (c : Nat) (pc : W32) (i : Nat) {r : RvStep} (h : Only N σ r.1)
    (hN : 0x1000000000000000000000000000000000000000000000000000000000000000 ||| N = N) : Only N σ (State.rvEnd c pc i r) := by
  unfold State.rvEnd
  split
  · exact State.setCpu_only _ _ h hN
  · exact .ite (fun _ => h) (fun _ => State.setCpu_only _ _ h hN)

theorem State.rvStep_within (s : State) (c : Nat) :
    Only 0x2219e4000000000000000000000000000000000000000030002000000000145000 s (State.rvStep s c) := by
  unfold State.rvStep
  repeat' first
    | with_reducible exact Only.refl _ _
    | with_reducible refine Only.ite (fun _ => ?_) (fun _ => ?_)
    | with_reducible refine Only.foldl ?_ (fun _ _ => ?_)
    | with_reducible refine State.rvEnd_only _ _ _ ?_ (by decide)
    | with_reducible refine State.rvFetch_only _ _ ?_ (by decide)
    | with_reducible refine State.rvFetch_only_eq (by assumption) ?_ (by decide)
    | with_reducible refine State.rvExec_only _ _ _ _ ?_ (by decide)
    | with_reducible refine State.rvExec_only_eq (by assumption) ?_ (by decide)
    | with_reducible refine State.illegal_only _ ?_ (by decide)
    | with_reducible refine State.illegal_only_eq (by assumption) ?_ (by decide)
    | with_reducible refine State.setCpu_only _ _ ?_ (by decide)
    | split
    | extract_lets

theorem State.rvStep_only {N : Nat} {σ s : State} (c : Nat) (hσ : Only N σ s)
    (hN : 0x2219e4000000000000000000000000000000000000000030002000000000145000 ||| N = N) : Only N σ (State.rvStep s c) := hσ.step (State.rvStep_within s c) hN

theorem State.coreClock_within (s : State) (c : Nat) :
    Only 0x2219e4000000000000000000000000000000000000000030002000000000145000 s (State.coreClock s c) := by
  unfold State.coreClock
  repeat' first
    | with_reducible exact Only.refl _ _
    | with_reducible refine Only.ite (fun _ => ?_) (fun _ => ?_)
    | with_reducible refine Only.foldl ?_ (fun _ _ => ?_)
    | with_reducible refine State.rvStep_only _ ?_ (by decide)
    | with_reducible refine State.setCpu_only _ _ ?_ (by decide)
    | split

theorem State.coreClock_only {N : Nat} {σ s : State} (c : Nat) (hσ : Only N σ s)
    (hN : 0x2219e4000000000000000000000000000000000000000030002000000000145000 ||| N = N) : Only N σ (State.coreClock s c) := hσ.step (State.coreClock_within s c) hN

theorem State.coresClock_within (s : State) :
    Only 0x2219e4000000000000000000000000000000000000000030002000000000145000 s (State.coresClock s) := by
  unfold State.coresClock
  repeat' first
    | with_reducible exact Only.refl _ _
    | with_reducible refine Only.ite (fun _ => ?_) (fun _ => ?_)
    | with_reducible refine Only.foldl ?_ (fun _ _ => ?_)
    | with_reducible refine State.coreClock_only _ ?_ (by decide)

theorem State.coresClock_only {N : Nat} {σ s : State}  (hσ : Only N σ s)
    (hN : 0x2219e4000000000000000000000000000000000000000030002000000000145000 ||| N = N) : Only N σ (State.coresClock s) := hσ.step (State.coresClock_within s) hN

theorem State.coreClocks_within (s : State) :
    Only 0x2219e4000000000000000000000000000000000000000030002000000000145000 s (State.coreClocks s) := by
  unfold State.coreClocks
  repeat' first
    | with_reducible exact Only.refl _ _
    | with_reducible refine Only.ite (fun _ => ?_) (fun _ => ?_)
    | with_reducible refine Only.foldl ?_ (fun _ _ => ?_)
    | with_reducible refine State.coresClock_only  ?_ (by decide)

theorem State.coreClocks_only {N : Nat} {σ s : State}  (hσ : Only N σ s)
    (hN : 0x2219e4000000000000000000000000000000000000000030002000000000145000 ||| N = N) : Only N σ (State.coreClocks s) := hσ.step (State.coreClocks_within s) hN

end Sys2Proof.Machine
end

