-- ==== Sys2Proof/Laws/Frame/OpsTick.lean ====
section
/-!
SUPPORT. OpsTick.lean: what each operation of Machine/OpsTick.lean can change (see Only).
-/
namespace Sys2Proof.Machine
set_option Elab.async false

theorem State.stallNow_within (s : State) (q : Nat) :
    Only 0x2d74844004011a4c030007000000000000200000000000000000000000000145000 s (State.stallNow s q) := by
  unfold State.stallNow
  repeat' first
    | with_reducible exact Only.refl _ _
    | with_reducible refine Only.ite (fun _ => ?_) (fun _ => ?_)
    | with_reducible refine Only.foldl ?_ (fun _ _ => ?_)
    | with_reducible refine State.enterStall_only _ ?_ (by decide)
    | with_reducible refine State.set_only _ _ _ _ ?_ (by decide)

theorem State.stallNow_only {N : Nat} {σ s : State} (q : Nat) (hσ : Only N σ s)
    (hN : 0x2d74844004011a4c030007000000000000200000000000000000000000000145000 ||| N = N) : Only N σ (State.stallNow s q) := hσ.step (State.stallNow_within s q) hN

theorem State.failFlag_within (s : State) (q : Nat) (i : Nat) (bound : Nat) :
    Only 0x4404000000000000000000000000000000000000000000000001000000001000 s (State.failFlag s q i bound) := by
  unfold State.failFlag
  repeat' first
    | with_reducible exact Only.refl _ _
    | with_reducible refine Only.ite (fun _ => ?_) (fun _ => ?_)
    | with_reducible refine Only.foldl ?_ (fun _ _ => ?_)
    | with_reducible refine State.setSeqX_only _ _ ?_ (by decide)
    | with_reducible refine State.gfOp_only _ _ _ _ ?_ (by decide)

theorem State.failFlag_only {N : Nat} {σ s : State} (q : Nat) (i : Nat) (bound : Nat) (hσ : Only N σ s)
    (hN : 0x4404000000000000000000000000000000000000000000000001000000001000 ||| N = N) : Only N σ (State.failFlag s q i bound) := hσ.step (State.failFlag_within s q i bound) hN

theorem State.seqAct_within (s : State) (q : Nat) (y0 : SeqAct) :
    Only 0xff7cd44004011a4c030007002401c00060200000000000000002001000000145000 s (State.seqAct s q y0) := by
  cases y0 <;> unfold State.seqAct
  repeat' first
    | with_reducible exact Only.refl _ _
    | with_reducible refine Only.ite (fun _ => ?_) (fun _ => ?_)
    | with_reducible refine Only.foldl ?_ (fun _ _ => ?_)
    | with_reducible refine OnlyOut.next ?_
    | with_reducible refine OnlyOut.ite (fun _ => ?_) (fun _ => ?_)
    | with_reducible refine State.failFlag_only _ _ _ ?_ (by decide)
    | with_reducible refine State.stallNow_only _ ?_ (by decide)
    | with_reducible refine State.timArm_only _ _ ?_ (by decide)
    | with_reducible refine State.feRequest_only _ _ _ ?_ (by decide)
    | with_reducible refine State.arrive_only _ _ ?_ (by decide)
    | with_reducible refine State.measureEdge_only _ _ _ _ ?_ (by decide)
    | with_reducible refine State.urgentRequest_only _ _ _ ?_ (by decide)
    | with_reducible refine State.acqTrigger_only _ _ _ ?_ (by decide)
    | with_reducible refine State.gfOp_only _ _ _ _ ?_ (by decide)
    | with_reducible refine State.hwSet_only _ _ _ ?_ (by decide)

theorem State.seqAct_only {N : Nat} {σ s : State} (q : Nat) (y0 : SeqAct) (hσ : Only N σ s)
    (hN : 0xff7cd44004011a4c030007002401c00060200000000000000002001000000145000 ||| N = N) : Only N σ (State.seqAct s q y0) := hσ.step (State.seqAct_within s q y0) hN

theorem State.seqActs_within (s : State) (late : Bool) (q : Nat) :
    Only 0xff7cd44004011a4c030007002401c00060200000000000000002001000000145000 s (State.seqActs s late q) := by
  unfold State.seqActs
  repeat' first
    | with_reducible exact Only.refl _ _
    | with_reducible refine Only.ite (fun _ => ?_) (fun _ => ?_)
    | with_reducible refine Only.foldl ?_ (fun _ _ => ?_)
    | with_reducible refine State.seqAct_only _ _ ?_ (by decide)
    | with_reducible refine State.setSeqX_only _ _ ?_ (by decide)

theorem State.seqActs_only {N : Nat} {σ s : State} (late : Bool) (q : Nat) (hσ : Only N σ s)
    (hN : 0xff7cd44004011a4c030007002401c00060200000000000000002001000000145000 ||| N = N) : Only N σ (State.seqActs s late q) := hσ.step (State.seqActs_within s late q) hN

theorem State.bayTick_within (s : State) (b : Nat) :
    Only 0x6000004000000000000000000001000060000000000000000000000000000001000 s (State.bayTick s b) := by
  unfold State.bayTick
  repeat' first
    | with_reducible exact Only.refl _ _
    | with_reducible refine Only.ite (fun _ => ?_) (fun _ => ?_)
    | with_reducible refine Only.foldl ?_ (fun _ _ => ?_)
    | with_reducible refine State.timeWindow_only _ ?_ (by decide)
    | with_reducible refine State.freeTags_only _ _ ?_ (by decide)
    | with_reducible refine State.acqDue_only _ ?_ (by decide)

theorem State.bayTick_only {N : Nat} {σ s : State} (b : Nat) (hσ : Only N σ s)
    (hN : 0x6000004000000000000000000001000060000000000000000000000000000001000 ||| N = N) : Only N σ (State.bayTick s b) := hσ.step (State.bayTick_within s b) hN

theorem State.lateActs_within (s0 : State) :
    Only 0xff7df44004011a4c030007002401c00060204000000f20080002201218000d45000 s0 (State.lateActs s0) := by
  unfold State.lateActs
  repeat' first
    | with_reducible exact Only.refl _ _
    | with_reducible refine Only.ite (fun _ => ?_) (fun _ => ?_)
    | with_reducible refine Only.foldl ?_ (fun _ _ => ?_)
    | with_reducible refine State.bayTick_only _ ?_ (by decide)
    | with_reducible refine State.seqActs_only _ _ ?_ (by decide)
    | with_reducible refine State.ownActs_only  ?_ (by decide)
    | with_reducible refine State.issueAll_only _ ?_ (by decide)
    | with_reducible refine State.gfChanged_only  ?_ (by decide)
    | with_reducible refine State.timeActs_only  ?_ (by decide)
    | with_reducible refine State.linkReports_only  ?_ (by decide)
    | with_reducible refine State.hwSet_only _ _ _ ?_ (by decide)

theorem State.lateActs_only {N : Nat} {σ s0 : State}  (hσ : Only N σ s0)
    (hN : 0xff7df44004011a4c030007002401c00060204000000f20080002201218000d45000 ||| N = N) : Only N σ (State.lateActs s0) := hσ.step (State.lateActs_within s0) hN

theorem State.endTick_within (s : State) :
    Only 0x4ff7ff4c004011a4c030007002401c00060204000000f20080002201218000d45000 s (State.endTick s) := by
  unfold State.endTick
  repeat' first
    | with_reducible exact Only.refl _ _
    | with_reducible refine Only.ite (fun _ => ?_) (fun _ => ?_)
    | with_reducible refine Only.foldl ?_ (fun _ _ => ?_)
    | fail_if_no_progress with_reducible refine Only.fields ?_ rfl rfl
    | with_reducible refine State.lateActs_only  ?_ (by decide)
    | with_reducible refine State.sendFlags_only  ?_ (by decide)
    | with_reducible refine State.endRings_only  ?_ (by decide)

theorem State.endTick_only {N : Nat} {σ s : State}  (hσ : Only N σ s)
    (hN : 0x4ff7ff4c004011a4c030007002401c00060204000000f20080002201218000d45000 ||| N = N) : Only N σ (State.endTick s) := hσ.step (State.endTick_within s) hN

theorem State.ppsEnds_within (s : State) :
    Only 0x240000000000000000000000000000000000000000000000000000000000000 s (State.ppsEnds s) := by
  unfold State.ppsEnds
  repeat' first
    | with_reducible exact Only.refl _ _
    | with_reducible refine Only.ite (fun _ => ?_) (fun _ => ?_)
    | with_reducible refine Only.foldl ?_ (fun _ _ => ?_)
    | with_reducible refine State.ppsLow_only  ?_ (by decide)
    | split

theorem State.ppsEnds_only {N : Nat} {σ s : State}  (hσ : Only N σ s)
    (hN : 0x240000000000000000000000000000000000000000000000000000000000000 ||| N = N) : Only N σ (State.ppsEnds s) := hσ.step (State.ppsEnds_within s) hN

theorem State.slewEnds_within (s : State) :
    Only 0x800000 s (State.slewEnds s) := by
  unfold State.slewEnds
  repeat' first
    | with_reducible exact Only.refl _ _
    | with_reducible refine Only.ite (fun _ => ?_) (fun _ => ?_)
    | with_reducible refine Only.foldl ?_ (fun _ _ => ?_)
    | with_reducible refine State.set_only _ _ _ _ ?_ (by decide)

theorem State.slewEnds_only {N : Nat} {σ s : State}  (hσ : Only N σ s)
    (hN : 0x800000 ||| N = N) : Only N σ (State.slewEnds s) := hσ.step (State.slewEnds_within s) hN

theorem State.later_within (s : State) (n : Nat) :
    Only 0x202000000000000000000000000000000000000000000000000000000000000 s (State.later s n) := by
  unfold State.later
  repeat' first
    | with_reducible exact Only.refl _ _
    | with_reducible refine Only.ite (fun _ => ?_) (fun _ => ?_)
    | with_reducible refine Only.foldl ?_ (fun _ _ => ?_)
    | fail_if_no_progress with_reducible refine Only.fields ?_ rfl rfl

theorem State.later_only {N : Nat} {σ s : State} (n : Nat) (hσ : Only N σ s)
    (hN : 0x202000000000000000000000000000000000000000000000000000000000000 ||| N = N) : Only N σ (State.later s n) := hσ.step (State.later_within s n) hN

theorem State.passCt_within (s : State) (n : Nat) :
    Only 0x200e46000000000000000000000000000000000000000030002240000000945000 s (State.passCt s n) := by
  unfold State.passCt
  repeat' first
    | with_reducible exact Only.refl _ _
    | with_reducible refine Only.ite (fun _ => ?_) (fun _ => ?_)
    | with_reducible refine Only.foldl ?_ (fun _ _ => ?_)
    | with_reducible refine State.later_only _ ?_ (by decide)
    | with_reducible refine State.slewEnds_only  ?_ (by decide)
    | with_reducible refine State.ppsEnds_only  ?_ (by decide)
    | with_reducible refine State.transmitAll_only _ ?_ (by decide)

theorem State.passCt_only {N : Nat} {σ s : State} (n : Nat) (hσ : Only N σ s)
    (hN : 0x200e46000000000000000000000000000000000000000030002240000000945000 ||| N = N) : Only N σ (State.passCt s n) := hσ.step (State.passCt_within s n) hN

theorem State.advanceClocks_within (s : State) :
    Only 0x200e46000000000000000000000000000000000000000030002240000000945400 s (State.advanceClocks s) := by
  unfold State.advanceClocks
  repeat' first
    | with_reducible exact Only.refl _ _
    | with_reducible refine Only.ite (fun _ => ?_) (fun _ => ?_)
    | with_reducible refine Only.foldl ?_ (fun _ _ => ?_)
    | with_reducible refine State.passCt_only _ ?_ (by decide)
    | with_reducible refine State.set_only _ _ _ _ ?_ (by decide)

theorem State.advanceClocks_only {N : Nat} {σ s : State}  (hσ : Only N σ s)
    (hN : 0x200e46000000000000000000000000000000000000000030002240000000945400 ||| N = N) : Only N σ (State.advanceClocks s) := hσ.step (State.advanceClocks_within s) hN

theorem State.tickCounts_within (s : State) :
    Only 0x1000000010000000000000000000000000000000000000000000000000000000 s (State.tickCounts s) := by
  unfold State.tickCounts
  repeat' first
    | with_reducible exact Only.refl _ _
    | with_reducible refine Only.ite (fun _ => ?_) (fun _ => ?_)
    | with_reducible refine Only.foldl ?_ (fun _ _ => ?_)
    | with_reducible refine State.setCoreX_only _ _ ?_ (by decide)
    | with_reducible refine State.set_only _ _ _ _ ?_ (by decide)

theorem State.tickCounts_only {N : Nat} {σ s : State}  (hσ : Only N σ s)
    (hN : 0x1000000010000000000000000000000000000000000000000000000000000000 ||| N = N) : Only N σ (State.tickCounts s) := hσ.step (State.tickCounts_within s) hN

theorem State.tick_within (s : State) :
    Only 0x7ff7ffee004011a4c8300073ffffffffffffff041282f200b080a241218000d45400 s (State.tick s) := by
  unfold State.tick
  repeat' first
    | with_reducible exact Only.refl _ _
    | with_reducible refine Only.ite (fun _ => ?_) (fun _ => ?_)
    | with_reducible refine Only.foldl ?_ (fun _ _ => ?_)
    | fail_if_no_progress with_reducible refine Only.fields ?_ rfl rfl
    | with_reducible refine State.tickCounts_only  ?_ (by decide)
    | with_reducible refine State.advanceClocks_only  ?_ (by decide)
    | with_reducible refine State.endTick_only  ?_ (by decide)
    | with_reducible refine State.seqActs_only _ _ ?_ (by decide)
    | with_reducible refine State.coreClocks_only  ?_ (by decide)
    | with_reducible refine State.autoResets_only  ?_ (by decide)
    | with_reducible refine State.seqResetsEnd_only  ?_ (by decide)
    | with_reducible refine State.sampleCores_only  ?_ (by decide)
    | with_reducible refine State.refreshCores_only  ?_ (by decide)
    | with_reducible refine State.issueAll_only _ ?_ (by decide)
    | with_reducible refine State.dueChanges_only  ?_ (by decide)
    | with_reducible refine State.updatePanic_only  ?_ (by decide)
    | with_reducible refine State.dclkEdges_only  ?_ (by decide)

theorem State.tick_only {N : Nat} {σ s : State}  (hσ : Only N σ s)
    (hN : 0x7ff7ffee004011a4c8300073ffffffffffffff041282f200b080a241218000d45400 ||| N = N) : Only N σ (State.tick s) := hσ.step (State.tick_within s) hN

end Sys2Proof.Machine
end

