-- ==== Sys2Proof/Laws/Frame/Time.lean ====
section
/-!
SUPPORT. Time.lean: what each operation of Machine/Time.lean can change (see Only).
-/
namespace Sys2Proof.Machine
set_option Elab.async false

theorem execSampleOffset_within (d : Nat) (theta : Int) (s : State) :
    OnlyOut 0x204000000000000000000000000000000000000000000000000200000001000 s (execSampleOffset d theta s) := by
  unfold execSampleOffset
  repeat' first
    | with_reducible exact Only.refl _ _
    | with_reducible refine Only.ite (fun _ => ?_) (fun _ => ?_)
    | with_reducible refine Only.foldl ?_ (fun _ _ => ?_)
    | with_reducible refine OnlyOut.next ?_
    | with_reducible refine OnlyOut.ite (fun _ => ?_) (fun _ => ?_)
    | with_reducible refine State.submitSample_only _ _ ?_ (by decide)

theorem execSampleOffset_only {N : Nat} {σ s : State} (d : Nat) (theta : Int) (hσ : Only N σ s)
    (hN : 0x204000000000000000000000000000000000000000000000000200000001000 ||| N = N) : OnlyOut N σ (execSampleOffset d theta s) := hσ.outcome (execSampleOffset_within d theta s) hN

theorem execDomainStep_within (d : Nat) (ns : Int) (s : State) :
    OnlyOut 0x200000000000000000000000000000000000000000000000000000000000000 s (execDomainStep d ns s) := by
  unfold execDomainStep
  repeat' first
    | with_reducible exact Only.refl _ _
    | with_reducible refine Only.ite (fun _ => ?_) (fun _ => ?_)
    | with_reducible refine Only.foldl ?_ (fun _ _ => ?_)
    | with_reducible refine OnlyOut.next ?_
    | with_reducible refine OnlyOut.ite (fun _ => ?_) (fun _ => ?_)
    | with_reducible refine State.ask_only _ ?_ (by decide)

theorem execDomainStep_only {N : Nat} {σ s : State} (d : Nat) (ns : Int) (hσ : Only N σ s)
    (hN : 0x200000000000000000000000000000000000000000000000000000000000000 ||| N = N) : OnlyOut N σ (execDomainStep d ns s) := hσ.outcome (execDomainStep_within d ns s) hN

theorem execIntClear_within (d : Nat) (s : State) :
    OnlyOut 0x200000000000000000000000000000000000000000000000000000000000000 s (execIntClear d s) := by
  unfold execIntClear
  repeat' first
    | with_reducible exact Only.refl _ _
    | with_reducible refine Only.ite (fun _ => ?_) (fun _ => ?_)
    | with_reducible refine Only.foldl ?_ (fun _ _ => ?_)
    | with_reducible refine OnlyOut.next ?_
    | with_reducible refine OnlyOut.ite (fun _ => ?_) (fun _ => ?_)
    | with_reducible refine State.ask_only _ ?_ (by decide)

theorem execIntClear_only {N : Nat} {σ s : State} (d : Nat) (hσ : Only N σ s)
    (hN : 0x200000000000000000000000000000000000000000000000000000000000000 ||| N = N) : OnlyOut N σ (execIntClear d s) := hσ.outcome (execIntClear_within d s) hN

theorem execDomainSwitch_within (d : Nat) (s : State) :
    OnlyOut 0x200000000000000000000000000000000000000000000000000000000000000 s (execDomainSwitch d s) := by
  unfold execDomainSwitch
  repeat' first
    | with_reducible exact Only.refl _ _
    | with_reducible refine Only.ite (fun _ => ?_) (fun _ => ?_)
    | with_reducible refine Only.foldl ?_ (fun _ _ => ?_)
    | with_reducible refine OnlyOut.next ?_
    | with_reducible refine OnlyOut.ite (fun _ => ?_) (fun _ => ?_)
    | with_reducible refine State.ask_only _ ?_ (by decide)

theorem execDomainSwitch_only {N : Nat} {σ s : State} (d : Nat) (hσ : Only N σ s)
    (hN : 0x200000000000000000000000000000000000000000000000000000000000000 ||| N = N) : OnlyOut N σ (execDomainSwitch d s) := hσ.outcome (execDomainSwitch_within d s) hN

theorem execSlewComplete_within (s : State) :
    OnlyOut 0x800000 s (execSlewComplete s) := by
  unfold execSlewComplete
  repeat' first
    | with_reducible exact Only.refl _ _
    | with_reducible refine Only.ite (fun _ => ?_) (fun _ => ?_)
    | with_reducible refine Only.foldl ?_ (fun _ _ => ?_)
    | with_reducible refine OnlyOut.next ?_
    | with_reducible refine OnlyOut.ite (fun _ => ?_) (fun _ => ?_)
    | with_reducible refine State.set_only _ _ _ _ ?_ (by decide)

theorem execSlewComplete_only {N : Nat} {σ s : State}  (hσ : Only N σ s)
    (hN : 0x800000 ||| N = N) : OnlyOut N σ (execSlewComplete s) := hσ.outcome (execSlewComplete_within s) hN

theorem execServoHoldover_within (d : Nat) (s : State) :
    OnlyOut 0xe44000000000000000000000000000000000000000000000200218000d45000 s (execServoHoldover d s) := by
  unfold execServoHoldover
  repeat' first
    | with_reducible exact Only.refl _ _
    | with_reducible refine Only.ite (fun _ => ?_) (fun _ => ?_)
    | with_reducible refine Only.foldl ?_ (fun _ _ => ?_)
    | with_reducible refine OnlyOut.next ?_
    | with_reducible refine OnlyOut.ite (fun _ => ?_) (fun _ => ?_)
    | with_reducible refine State.enterHoldover_only _ ?_ (by decide)

theorem execServoHoldover_only {N : Nat} {σ s : State} (d : Nat) (hσ : Only N σ s)
    (hN : 0xe44000000000000000000000000000000000000000000000200218000d45000 ||| N = N) : OnlyOut N σ (execServoHoldover d s) := hσ.outcome (execServoHoldover_within d s) hN

theorem execRejectCountClear_within (d : Nat) (s : State) :
    OnlyOut 0x4000000000000000000000000000000000000000000000000200000001000 s (execRejectCountClear d s) := by
  unfold execRejectCountClear
  repeat' first
    | with_reducible exact Only.refl _ _
    | with_reducible refine Only.ite (fun _ => ?_) (fun _ => ?_)
    | with_reducible refine Only.foldl ?_ (fun _ _ => ?_)
    | with_reducible refine OnlyOut.next ?_
    | with_reducible refine OnlyOut.ite (fun _ => ?_) (fun _ => ?_)
    | with_reducible refine State.set_only _ _ _ _ ?_ (by decide)
    | with_reducible refine State.clear_only _ _ _ ?_ (by decide)

theorem execRejectCountClear_only {N : Nat} {σ s : State} (d : Nat) (hσ : Only N σ s)
    (hN : 0x4000000000000000000000000000000000000000000000000200000001000 ||| N = N) : OnlyOut N σ (execRejectCountClear d s) := hσ.outcome (execRejectCountClear_within d s) hN

theorem State.latch_within (s : State) (i : Nat) (source : Nat) :
    Only 0x300000000 s (State.latch s i source) := by
  unfold State.latch
  repeat' first
    | with_reducible exact Only.refl _ _
    | with_reducible refine Only.ite (fun _ => ?_) (fun _ => ?_)
    | with_reducible refine Only.foldl ?_ (fun _ _ => ?_)
    | with_reducible refine OnlyOut.next ?_
    | with_reducible refine OnlyOut.ite (fun _ => ?_) (fun _ => ?_)
    | with_reducible refine State.set_only _ _ _ _ ?_ (by decide)
    | with_reducible refine State.setBit_only _ _ _ _ ?_ (by decide)

theorem State.latch_only {N : Nat} {σ s : State} (i : Nat) (source : Nat) (hσ : Only N σ s)
    (hN : 0x300000000 ||| N = N) : Only N σ (State.latch s i source) := hσ.step (State.latch_within s i source) hN

theorem execLatch_within (i : Nat) (source : Nat) (s : State) :
    OnlyOut 0x300000000 s (execLatch i source s) := by
  unfold execLatch
  repeat' first
    | with_reducible exact Only.refl _ _
    | with_reducible refine Only.ite (fun _ => ?_) (fun _ => ?_)
    | with_reducible refine Only.foldl ?_ (fun _ _ => ?_)
    | with_reducible refine OnlyOut.next ?_
    | with_reducible refine OnlyOut.ite (fun _ => ?_) (fun _ => ?_)
    | with_reducible refine State.latch_only _ _ ?_ (by decide)

theorem execLatch_only {N : Nat} {σ s : State} (i : Nat) (source : Nat) (hσ : Only N σ s)
    (hN : 0x300000000 ||| N = N) : OnlyOut N σ (execLatch i source s) := hσ.outcome (execLatch_within i source s) hN

theorem execCheckMessageSend_within (s : State) :
    OnlyOut 0x404000000000000000000000000000000000000000000000200000000001000 s (execCheckMessageSend s) := by
  unfold execCheckMessageSend
  repeat' first
    | with_reducible exact Only.refl _ _
    | with_reducible refine Only.ite (fun _ => ?_) (fun _ => ?_)
    | with_reducible refine Only.foldl ?_ (fun _ _ => ?_)
    | with_reducible refine OnlyOut.next ?_
    | with_reducible refine OnlyOut.ite (fun _ => ?_) (fun _ => ?_)
    | with_reducible refine State.originate_only _ _ _ ?_ (by decide)

theorem execCheckMessageSend_only {N : Nat} {σ s : State}  (hσ : Only N σ s)
    (hN : 0x404000000000000000000000000000000000000000000000200000000001000 ||| N = N) : OnlyOut N σ (execCheckMessageSend s) := hσ.outcome (execCheckMessageSend_within s) hN

theorem execLockstepLost_within (s : State) :
    OnlyOut 0x204000000000000000000000000000000000000000000000000200000801000 s (execLockstepLost s) := by
  unfold execLockstepLost
  repeat' first
    | with_reducible exact Only.refl _ _
    | with_reducible refine Only.ite (fun _ => ?_) (fun _ => ?_)
    | with_reducible refine Only.foldl ?_ (fun _ _ => ?_)
    | with_reducible refine OnlyOut.next ?_
    | with_reducible refine OnlyOut.ite (fun _ => ?_) (fun _ => ?_)
    | with_reducible refine State.loseLockstep_only  ?_ (by decide)

theorem execLockstepLost_only {N : Nat} {σ s : State}  (hσ : Only N σ s)
    (hN : 0x204000000000000000000000000000000000000000000000000200000801000 ||| N = N) : OnlyOut N σ (execLockstepLost s) := hσ.outcome (execLockstepLost_within s) hN

theorem execTimeportRx_within (frame : List Nat) (fcsOk : Bool) (ct : Nat) (s : State) :
    OnlyOut 0xe44000000000000000000000000000000000000000000000200218000d45000 s (execTimeportRx frame fcsOk ct s) := by
  unfold execTimeportRx
  repeat' first
    | with_reducible exact Only.refl _ _
    | with_reducible refine Only.ite (fun _ => ?_) (fun _ => ?_)
    | with_reducible refine Only.foldl ?_ (fun _ _ => ?_)
    | with_reducible refine OnlyOut.next ?_
    | with_reducible refine OnlyOut.ite (fun _ => ?_) (fun _ => ?_)
    | with_reducible refine State.timeActs_only  ?_ (by decide)
    | with_reducible refine State.beginRx_only (by assumption) ?_ (by decide)
    | with_reducible refine State.complete_only _ _ _ _ _ ?_ (by decide)
    | with_reducible refine State.namedRing_only _ _ _ _ _ ?_ (by decide)
    | with_reducible refine State.namedRing_only_eq (by assumption) ?_ (by decide)
    | with_reducible refine State.hostWrite_only _ ?_ (by decide)
    | with_reducible refine State.count_only _ _ _ _ _ ?_ (by decide)
    | split

theorem execTimeportRx_only {N : Nat} {σ s : State} (frame : List Nat) (fcsOk : Bool) (ct : Nat) (hσ : Only N σ s)
    (hN : 0xe44000000000000000000000000000000000000000000000200218000d45000 ||| N = N) : OnlyOut N σ (execTimeportRx frame fcsOk ct s) := hσ.outcome (execTimeportRx_within frame fcsOk ct s) hN

theorem execTimetxComplete_within (ago : Nat) (s : State) :
    OnlyOut 0xa44000000000000000000000000000000000000000000000000000000145000 s (execTimetxComplete ago s) := by
  unfold execTimetxComplete
  repeat' first
    | with_reducible exact Only.refl _ _
    | with_reducible refine Only.ite (fun _ => ?_) (fun _ => ?_)
    | with_reducible refine Only.foldl ?_ (fun _ _ => ?_)
    | fail_if_no_progress with_reducible refine Only.fields ?_ rfl rfl
    | with_reducible refine OnlyOut.next ?_
    | with_reducible refine OnlyOut.ite (fun _ => ?_) (fun _ => ?_)
    | with_reducible refine State.complete_only _ _ _ _ _ ?_ (by decide)
    | split

theorem execTimetxComplete_only {N : Nat} {σ s : State} (ago : Nat) (hσ : Only N σ s)
    (hN : 0xa44000000000000000000000000000000000000000000000000000000145000 ||| N = N) : OnlyOut N σ (execTimetxComplete ago s) := hσ.outcome (execTimetxComplete_within ago s) hN

theorem execPpsOut_within (s : State) :
    OnlyOut 0x644000000000000000000000000000000000000000000000200218000c01000 s (execPpsOut s) := by
  unfold execPpsOut
  repeat' first
    | with_reducible exact Only.refl _ _
    | with_reducible refine Only.ite (fun _ => ?_) (fun _ => ?_)
    | with_reducible refine Only.foldl ?_ (fun _ _ => ?_)
    | fail_if_no_progress with_reducible refine Only.fields ?_ rfl rfl
    | with_reducible refine OnlyOut.next ?_
    | with_reducible refine OnlyOut.ite (fun _ => ?_) (fun _ => ?_)
    | with_reducible refine State.timeActs_only  ?_ (by decide)
    | with_reducible refine State.emit_only _ ?_ (by decide)
    | split

theorem execPpsOut_only {N : Nat} {σ s : State}  (hσ : Only N σ s)
    (hN : 0x644000000000000000000000000000000000000000000000200218000c01000 ||| N = N) : OnlyOut N σ (execPpsOut s) := hσ.outcome (execPpsOut_within s) hN

theorem execPpsIn_within (ct : Nat) (s : State) :
    OnlyOut 0xe440000000000000000000000000000000000000000000002002180c0d45000 s (execPpsIn ct s) := by
  unfold execPpsIn
  repeat' first
    | with_reducible exact Only.refl _ _
    | with_reducible refine Only.ite (fun _ => ?_) (fun _ => ?_)
    | with_reducible refine Only.foldl ?_ (fun _ _ => ?_)
    | fail_if_no_progress with_reducible refine Only.fields ?_ rfl rfl
    | with_reducible refine OnlyOut.next ?_
    | with_reducible refine OnlyOut.ite (fun _ => ?_) (fun _ => ?_)
    | with_reducible refine State.timeActs_only  ?_ (by decide)
    | with_reducible refine State.post_only _ _ _ ?_ (by decide)
    | with_reducible refine State.set_only _ _ _ _ ?_ (by decide)
    | with_reducible refine State.setBit_only _ _ _ _ ?_ (by decide)
    | with_reducible refine State.count_only _ _ _ _ _ ?_ (by decide)

theorem execPpsIn_only {N : Nat} {σ s : State} (ct : Nat) (hσ : Only N σ s)
    (hN : 0xe440000000000000000000000000000000000000000000002002180c0d45000 ||| N = N) : OnlyOut N σ (execPpsIn ct s) := hσ.outcome (execPpsIn_within ct s) hN

theorem execTimePortLink_within (up : Bool) (s : State) :
    OnlyOut 0x4000000 s (execTimePortLink up s) := by
  unfold execTimePortLink
  repeat' first
    | with_reducible exact Only.refl _ _
    | with_reducible refine Only.ite (fun _ => ?_) (fun _ => ?_)
    | with_reducible refine Only.foldl ?_ (fun _ _ => ?_)
    | with_reducible refine OnlyOut.next ?_
    | with_reducible refine OnlyOut.ite (fun _ => ?_) (fun _ => ?_)
    | with_reducible refine State.setBit_only _ _ _ _ ?_ (by decide)

theorem execTimePortLink_only {N : Nat} {σ s : State} (up : Bool) (hσ : Only N σ s)
    (hN : 0x4000000 ||| N = N) : OnlyOut N σ (execTimePortLink up s) := hσ.outcome (execTimePortLink_within up s) hN

end Sys2Proof.Machine
end

