-- ==== Sys2Proof/Laws/Frame/Clock.lean ====
section
/-!
SUPPORT. Clock.lean: what each operation of Machine/Clock.lean can change (see Only).
-/
namespace Sys2Proof.Machine
set_option Elab.async false

theorem State.assignBay_within (s : State) (v : Word) (src : Src) (b : Nat) :
    Only 0x4000000000000000000000000000000000000000000000000000000001006 s (State.assignBay s v src b) := by
  unfold State.assignBay
  repeat' first
    | with_reducible exact Only.refl _ _
    | with_reducible refine Only.ite (fun _ => ?_) (fun _ => ?_)
    | with_reducible refine Only.foldl ?_ (fun _ _ => ?_)
    | with_reducible refine Only.onObj ?_ (fun _ => ?_) (by decide)
    | with_reducible refine State.hwSetBit_only _ _ _ _ ?_ (by decide)
    | with_reducible refine State.wr_only _ _ ?_ (by (dsimp only; decide))

theorem State.assignBay_only {N : Nat} {σ s : State} (v : Word) (src : Src) (b : Nat) (hσ : Only N σ s)
    (hN : 0x4000000000000000000000000000000000000000000000000000000001006 ||| N = N) : Only N σ (State.assignBay s v src b) := hσ.step (State.assignBay_within s v src b) hN

theorem State.baymapCommit_within (s : State) (v : Word) (src : Src) :
    Only 0x4000000000000000000000000000000000000000000000000000000001006 s (State.baymapCommit s v src) := by
  unfold State.baymapCommit
  repeat' first
    | with_reducible exact Only.refl _ _
    | with_reducible refine Only.ite (fun _ => ?_) (fun _ => ?_)
    | with_reducible refine Only.foldl ?_ (fun _ _ => ?_)
    | with_reducible refine State.assignBay_only _ _ _ ?_ (by decide)

theorem State.baymapCommit_only {N : Nat} {σ s : State} (v : Word) (src : Src) (hσ : Only N σ s)
    (hN : 0x4000000000000000000000000000000000000000000000000000000001006 ||| N = N) : Only N σ (State.baymapCommit s v src) := hσ.step (State.baymapCommit_within s v src) hN

theorem execBaymapCommit_within (value : Word) (src : Src) (s : State) :
    OnlyOut 0x4000000000000000000000000000000000000000000000000000000001006 s (execBaymapCommit value src s) := by
  unfold execBaymapCommit
  repeat' first
    | with_reducible exact Only.refl _ _
    | with_reducible refine Only.ite (fun _ => ?_) (fun _ => ?_)
    | with_reducible refine Only.foldl ?_ (fun _ _ => ?_)
    | with_reducible refine OnlyOut.next ?_
    | with_reducible refine OnlyOut.ite (fun _ => ?_) (fun _ => ?_)
    | with_reducible refine State.baymapCommit_only _ _ ?_ (by decide)

theorem execBaymapCommit_only {N : Nat} {σ s : State} (value : Word) (src : Src) (hσ : Only N σ s)
    (hN : 0x4000000000000000000000000000000000000000000000000000000001006 ||| N = N) : OnlyOut N σ (execBaymapCommit value src s) := hσ.outcome (execBaymapCommit_within value src s) hN

theorem execRootLock_within (s : State) :
    OnlyOut 0x40000000000000000000000000000000000000000000000000000000000000000040 s (execRootLock s) := by
  unfold execRootLock
  repeat' first
    | with_reducible exact Only.refl _ _
    | with_reducible refine Only.ite (fun _ => ?_) (fun _ => ?_)
    | with_reducible refine Only.foldl ?_ (fun _ _ => ?_)
    | fail_if_no_progress with_reducible refine Only.fields ?_ rfl rfl
    | with_reducible refine OnlyOut.next ?_
    | with_reducible refine OnlyOut.ite (fun _ => ?_) (fun _ => ?_)
    | with_reducible refine State.set_only _ _ _ _ ?_ (by decide)

theorem execRootLock_only {N : Nat} {σ s : State}  (hσ : Only N σ s)
    (hN : 0x40000000000000000000000000000000000000000000000000000000000000000040 ||| N = N) : OnlyOut N σ (execRootLock s) := hσ.outcome (execRootLock_within s) hN

theorem State.refStops_within (s : State) (ct : Nat) :
    Only 0x40000000000000000000000000000000000000000000000000000000000000000040 s (State.refStops s ct) := by
  unfold State.refStops
  repeat' first
    | with_reducible exact Only.refl _ _
    | with_reducible refine Only.ite (fun _ => ?_) (fun _ => ?_)
    | with_reducible refine Only.foldl ?_ (fun _ _ => ?_)
    | fail_if_no_progress with_reducible refine Only.fields ?_ rfl rfl
    | with_reducible refine State.set_only _ _ _ _ ?_ (by decide)

theorem State.refStops_only {N : Nat} {σ s : State} (ct : Nat) (hσ : Only N σ s)
    (hN : 0x40000000000000000000000000000000000000000000000000000000000000000040 ||| N = N) : Only N σ (State.refStops s ct) := hσ.step (State.refStops_within s ct) hN

theorem State.refReturns_within (s : State) (ct : Nat) :
    Only 0x400000040000000000000000000000000000000000000000000000000000000010c0 s (State.refReturns s ct) := by
  unfold State.refReturns
  repeat' first
    | with_reducible exact Only.refl _ _
    | with_reducible refine Only.ite (fun _ => ?_) (fun _ => ?_)
    | with_reducible refine Only.foldl ?_ (fun _ _ => ?_)
    | fail_if_no_progress with_reducible refine Only.fields ?_ rfl rfl
    | with_reducible refine State.set_only _ _ _ _ ?_ (by decide)
    | with_reducible refine State.count_only _ _ _ _ _ ?_ (by decide)

theorem State.refReturns_only {N : Nat} {σ s : State} (ct : Nat) (hσ : Only N σ s)
    (hN : 0x400000040000000000000000000000000000000000000000000000000000000010c0 ||| N = N) : Only N σ (State.refReturns s ct) := hσ.step (State.refReturns_within s ct) hN

theorem execRefclkDropout_within (edge : RefEdge) (s : State) :
    OnlyOut 0x400000040000000000000000000000000000000000000000000000000000000010c0 s (execRefclkDropout edge s) := by
  unfold execRefclkDropout
  repeat' first
    | with_reducible exact Only.refl _ _
    | with_reducible refine Only.ite (fun _ => ?_) (fun _ => ?_)
    | with_reducible refine Only.foldl ?_ (fun _ _ => ?_)
    | with_reducible refine OnlyOut.next ?_
    | with_reducible refine OnlyOut.ite (fun _ => ?_) (fun _ => ?_)
    | with_reducible refine State.refReturns_only _ ?_ (by decide)
    | with_reducible refine State.refStops_only _ ?_ (by decide)

theorem execRefclkDropout_only {N : Nat} {σ s : State} (edge : RefEdge) (hσ : Only N σ s)
    (hN : 0x400000040000000000000000000000000000000000000000000000000000000010c0 ||| N = N) : OnlyOut N σ (execRefclkDropout edge s) := hσ.outcome (execRefclkDropout_within edge s) hN

theorem State.servosHold_within (s : State) :
    Only 0x604000000000000000000000000000000000000000000000200218000c01000 s (State.servosHold s) := by
  unfold State.servosHold
  repeat' first
    | with_reducible exact Only.refl _ _
    | with_reducible refine Only.ite (fun _ => ?_) (fun _ => ?_)
    | with_reducible refine Only.foldl ?_ (fun _ _ => ?_)
    | with_reducible refine State.loseLockstep_only  ?_ (by decide)
    | with_reducible refine State.servoHold_only _ ?_ (by decide)

theorem State.servosHold_only {N : Nat} {σ s : State}  (hσ : Only N σ s)
    (hN : 0x604000000000000000000000000000000000000000000000200218000c01000 ||| N = N) : Only N σ (State.servosHold s) := hσ.step (State.servosHold_within s) hN

theorem State.stopAllRefLost_within (s : State) :
    Only 0x2d74844004001a4c030007000000000000200000000000000000000000000145000 s (State.stopAllRefLost s) := by
  unfold State.stopAllRefLost
  repeat' first
    | with_reducible exact Only.refl _ _
    | with_reducible refine Only.ite (fun _ => ?_) (fun _ => ?_)
    | with_reducible refine Only.foldl ?_ (fun _ _ => ?_)
    | with_reducible refine State.requestStop_only _ _ _ _ ?_ (by decide)

theorem State.stopAllRefLost_only {N : Nat} {σ s : State}  (hσ : Only N σ s)
    (hN : 0x2d74844004001a4c030007000000000000200000000000000000000000000145000 ||| N = N) : Only N σ (State.stopAllRefLost s) := hσ.step (State.stopAllRefLost_within s) hN

theorem execRefLost_within (s : State) :
    OnlyOut 0x5ad74e44004001a4c030007300000000000200001200000000000200218000d450c0 s (execRefLost s) := by
  unfold execRefLost
  repeat' first
    | with_reducible exact Only.refl _ _
    | with_reducible refine Only.ite (fun _ => ?_) (fun _ => ?_)
    | with_reducible refine Only.foldl ?_ (fun _ _ => ?_)
    | fail_if_no_progress with_reducible refine Only.fields ?_ rfl rfl
    | with_reducible refine OnlyOut.next ?_
    | with_reducible refine OnlyOut.ite (fun _ => ?_) (fun _ => ?_)
    | with_reducible refine State.stopAllRefLost_only  ?_ (by decide)
    | with_reducible refine State.servosHold_only  ?_ (by decide)
    | with_reducible refine State.calRefLost_only  ?_ (by decide)
    | with_reducible refine State.timRefLost_only  ?_ (by decide)
    | with_reducible refine State.ppsLow_only  ?_ (by decide)
    | with_reducible refine State.post_only _ _ _ ?_ (by decide)
    | with_reducible refine State.set_only _ _ _ _ ?_ (by decide)
    | with_reducible refine State.hwSet_only _ _ _ ?_ (by decide)
    | with_reducible refine State.count_only _ _ _ _ _ ?_ (by decide)

theorem execRefLost_only {N : Nat} {σ s : State}  (hσ : Only N σ s)
    (hN : 0x5ad74e44004001a4c030007300000000000200001200000000000200218000d450c0 ||| N = N) : OnlyOut N σ (execRefLost s) := hσ.outcome (execRefLost_within s) hN

theorem execRefRestored_within (ct : Nat) (s : State) :
    OnlyOut 0x40000844000000000000000000000000000000000000000000000000000000145040 s (execRefRestored ct s) := by
  unfold execRefRestored
  repeat' first
    | with_reducible exact Only.refl _ _
    | with_reducible refine Only.ite (fun _ => ?_) (fun _ => ?_)
    | with_reducible refine Only.foldl ?_ (fun _ _ => ?_)
    | fail_if_no_progress with_reducible refine Only.fields ?_ rfl rfl
    | with_reducible refine OnlyOut.next ?_
    | with_reducible refine OnlyOut.ite (fun _ => ?_) (fun _ => ?_)
    | with_reducible refine State.post_only _ _ _ ?_ (by decide)
    | with_reducible refine State.set_only _ _ _ _ ?_ (by decide)
    | split

theorem execRefRestored_only {N : Nat} {σ s : State} (ct : Nat) (hσ : Only N σ s)
    (hN : 0x40000844000000000000000000000000000000000000000000000000000000145040 ||| N = N) : OnlyOut N σ (execRefRestored ct s) := hσ.outcome (execRefRestored_within ct s) hN

theorem execRefmonClear_within (s : State) :
    OnlyOut 0x4000000000000000000000000000000000000000000000000000000001080 s (execRefmonClear s) := by
  unfold execRefmonClear
  repeat' first
    | with_reducible exact Only.refl _ _
    | with_reducible refine Only.ite (fun _ => ?_) (fun _ => ?_)
    | with_reducible refine Only.foldl ?_ (fun _ _ => ?_)
    | with_reducible refine OnlyOut.next ?_
    | with_reducible refine OnlyOut.ite (fun _ => ?_) (fun _ => ?_)
    | with_reducible refine State.set_only _ _ _ _ ?_ (by decide)
    | with_reducible refine State.clear_only _ _ _ ?_ (by decide)

theorem execRefmonClear_only {N : Nat} {σ s : State}  (hσ : Only N σ s)
    (hN : 0x4000000000000000000000000000000000000000000000000000000001080 ||| N = N) : OnlyOut N σ (execRefmonClear s) := hσ.outcome (execRefmonClear_within s) hN

theorem execPrecStatsClear_within (s : State) :
    OnlyOut 0x4000000000000000000000000000000000000000000000000000000001000 s (execPrecStatsClear s) := by
  unfold execPrecStatsClear
  repeat' first
    | with_reducible exact Only.refl _ _
    | with_reducible refine Only.ite (fun _ => ?_) (fun _ => ?_)
    | with_reducible refine Only.foldl ?_ (fun _ _ => ?_)
    | with_reducible refine OnlyOut.next ?_
    | with_reducible refine OnlyOut.ite (fun _ => ?_) (fun _ => ?_)
    | with_reducible refine State.set_only _ _ _ _ ?_ (by decide)
    | with_reducible refine State.clear_only _ _ _ ?_ (by decide)

theorem execPrecStatsClear_only {N : Nat} {σ s : State}  (hσ : Only N σ s)
    (hN : 0x4000000000000000000000000000000000000000000000000000000001000 ||| N = N) : OnlyOut N σ (execPrecStatsClear s) := hσ.outcome (execPrecStatsClear_within s) hN

theorem State.alignArm_within (s : State) (src : Src) :
    Only 0x40000004000000000000000000000000000000000000000000000000000000001840 s (State.alignArm s src) := by
  unfold State.alignArm
  repeat' first
    | with_reducible exact Only.refl _ _
    | with_reducible refine Only.ite (fun _ => ?_) (fun _ => ?_)
    | with_reducible refine Only.foldl ?_ (fun _ _ => ?_)
    | fail_if_no_progress with_reducible refine Only.fields ?_ rfl rfl
    | with_reducible refine Only.onObj ?_ (fun _ => ?_) (by decide)
    | with_reducible refine State.set_only _ _ _ _ ?_ (by decide)
    | with_reducible refine State.hwSet_only _ _ _ ?_ (by decide)

theorem State.alignArm_only {N : Nat} {σ s : State} (src : Src) (hσ : Only N σ s)
    (hN : 0x40000004000000000000000000000000000000000000000000000000000000001840 ||| N = N) : Only N σ (State.alignArm s src) := hσ.step (State.alignArm_within s src) hN

theorem State.alignDisarm_within (s : State) (src : Src) :
    Only 0x40000004000000000000000000000000000000000000000000000000000000001040 s (State.alignDisarm s src) := by
  unfold State.alignDisarm
  repeat' first
    | with_reducible exact Only.refl _ _
    | with_reducible refine Only.ite (fun _ => ?_) (fun _ => ?_)
    | with_reducible refine Only.foldl ?_ (fun _ _ => ?_)
    | fail_if_no_progress with_reducible refine Only.fields ?_ rfl rfl
    | with_reducible refine Only.onObj ?_ (fun _ => ?_) (by decide)
    | with_reducible refine State.set_only _ _ _ _ ?_ (by decide)

theorem State.alignDisarm_only {N : Nat} {σ s : State} (src : Src) (hσ : Only N σ s)
    (hN : 0x40000004000000000000000000000000000000000000000000000000000000001040 ||| N = N) : Only N σ (State.alignDisarm s src) := hσ.step (State.alignDisarm_within s src) hN

theorem execAlignArm_within (verify : Bool) (syncDrive : Bool) (src : Src) (s : State) :
    OnlyOut 0x40000004000000000000000000000000000000000000000000000000000000001940 s (execAlignArm verify syncDrive src s) := by
  unfold execAlignArm
  repeat' first
    | with_reducible exact Only.refl _ _
    | with_reducible refine Only.ite (fun _ => ?_) (fun _ => ?_)
    | with_reducible refine Only.foldl ?_ (fun _ _ => ?_)
    | with_reducible refine OnlyOut.next ?_
    | with_reducible refine OnlyOut.ite (fun _ => ?_) (fun _ => ?_)
    | with_reducible refine State.alignArm_only _ ?_ (by decide)
    | with_reducible refine State.setBit_only _ _ _ _ ?_ (by decide)

theorem execAlignArm_only {N : Nat} {σ s : State} (verify : Bool) (syncDrive : Bool) (src : Src) (hσ : Only N σ s)
    (hN : 0x40000004000000000000000000000000000000000000000000000000000000001940 ||| N = N) : OnlyOut N σ (execAlignArm verify syncDrive src s) := hσ.outcome (execAlignArm_within verify syncDrive src s) hN

theorem execAlignDisarm_within (src : Src) (s : State) :
    OnlyOut 0x40000004000000000000000000000000000000000000000000000000000000001040 s (execAlignDisarm src s) := by
  unfold execAlignDisarm
  repeat' first
    | with_reducible exact Only.refl _ _
    | with_reducible refine Only.ite (fun _ => ?_) (fun _ => ?_)
    | with_reducible refine Only.foldl ?_ (fun _ _ => ?_)
    | with_reducible refine OnlyOut.next ?_
    | with_reducible refine OnlyOut.ite (fun _ => ?_) (fun _ => ?_)
    | with_reducible refine State.alignDisarm_only _ ?_ (by decide)

theorem execAlignDisarm_only {N : Nat} {σ s : State} (src : Src) (hσ : Only N σ s)
    (hN : 0x40000004000000000000000000000000000000000000000000000000000000001040 ||| N = N) : OnlyOut N σ (execAlignDisarm src s) := hσ.outcome (execAlignDisarm_within src s) hN

theorem execSyncDrive_within (s : State) :
    OnlyOut 0x40000040000000000000000000000000000000000000000000000000000000000000 s (execSyncDrive s) := by
  unfold execSyncDrive
  repeat' first
    | with_reducible exact Only.refl _ _
    | with_reducible refine Only.ite (fun _ => ?_) (fun _ => ?_)
    | with_reducible refine Only.foldl ?_ (fun _ _ => ?_)
    | fail_if_no_progress with_reducible refine Only.fields ?_ rfl rfl
    | with_reducible refine OnlyOut.next ?_
    | with_reducible refine OnlyOut.ite (fun _ => ?_) (fun _ => ?_)
    | with_reducible refine State.emit_only _ ?_ (by decide)
    | split

theorem execSyncDrive_only {N : Nat} {σ s : State}  (hσ : Only N σ s)
    (hN : 0x40000040000000000000000000000000000000000000000000000000000000000000 ||| N = N) : OnlyOut N σ (execSyncDrive s) := hσ.outcome (execSyncDrive_within s) hN

theorem execSyncCapture_within (s : State) :
    OnlyOut 0x40000004000000000000000000000000000000000000000000000000000000001040 s (execSyncCapture s) := by
  unfold execSyncCapture
  repeat' first
    | with_reducible exact Only.refl _ _
    | with_reducible refine Only.ite (fun _ => ?_) (fun _ => ?_)
    | with_reducible refine Only.foldl ?_ (fun _ _ => ?_)
    | fail_if_no_progress with_reducible refine Only.fields ?_ rfl rfl
    | with_reducible refine OnlyOut.next ?_
    | with_reducible refine OnlyOut.ite (fun _ => ?_) (fun _ => ?_)
    | with_reducible refine State.discardAt_only _ _ ?_ (by decide)
    | with_reducible refine Only.onObj ?_ (fun _ => ?_) (by decide)
    | with_reducible refine State.set_only _ _ _ _ ?_ (by decide)
    | split

theorem execSyncCapture_only {N : Nat} {σ s : State}  (hσ : Only N σ s)
    (hN : 0x40000004000000000000000000000000000000000000000000000000000000001040 ||| N = N) : OnlyOut N σ (execSyncCapture s) := hσ.outcome (execSyncCapture_within s) hN

theorem State.cutTick_within (s : State) (n : Nat) :
    Only 0x4ff7ff4e004011a4c030007002401c00060204000000f200b0002241218000d45000 s (State.cutTick s n) := by
  unfold State.cutTick
  repeat' first
    | with_reducible exact Only.refl _ _
    | with_reducible refine Only.ite (fun _ => ?_) (fun _ => ?_)
    | with_reducible refine Only.foldl ?_ (fun _ _ => ?_)
    | with_reducible refine State.passCt_only _ ?_ (by decide)
    | with_reducible refine State.endTick_only  ?_ (by decide)

theorem State.cutTick_only {N : Nat} {σ s : State} (n : Nat) (hσ : Only N σ s)
    (hN : 0x4ff7ff4e004011a4c030007002401c00060204000000f200b0002241218000d45000 ||| N = N) : Only N σ (State.cutTick s n) := hσ.step (State.cutTick_within s n) hN

theorem execAlignmentEdge_within (ct : Nat) (s : State) :
    OnlyOut 0x4ff7ff4e004011a4c030007002401c00060204000000f200b0002241218000d45c40 s (execAlignmentEdge ct s) := by
  unfold execAlignmentEdge
  repeat' first
    | with_reducible exact Only.refl _ _
    | with_reducible refine Only.ite (fun _ => ?_) (fun _ => ?_)
    | with_reducible refine Only.foldl ?_ (fun _ _ => ?_)
    | fail_if_no_progress with_reducible refine Only.fields ?_ rfl rfl
    | with_reducible refine OnlyOut.next ?_
    | with_reducible refine OnlyOut.ite (fun _ => ?_) (fun _ => ?_)
    | with_reducible refine State.cutTick_only _ ?_ (by decide)
    | with_reducible refine State.adcRephase_only  ?_ (by decide)
    | with_reducible refine State.set_only _ _ _ _ ?_ (by decide)

theorem execAlignmentEdge_only {N : Nat} {σ s : State} (ct : Nat) (hσ : Only N σ s)
    (hN : 0x4ff7ff4e004011a4c030007002401c00060204000000f200b0002241218000d45c40 ||| N = N) : OnlyOut N σ (execAlignmentEdge ct s) := hσ.outcome (execAlignmentEdge_within ct s) hN

theorem State.gpioRoute_within (s : State) (pin : Nat) (rose : Bool) (fell : Bool) :
    Only 0x1004000000000000000000000000000000000000400000000000000000001000 s (State.gpioRoute s pin rose fell) := by
  unfold State.gpioRoute
  repeat' first
    | with_reducible exact Only.refl _ _
    | with_reducible refine Only.ite (fun _ => ?_) (fun _ => ?_)
    | with_reducible refine Only.foldl ?_ (fun _ _ => ?_)
    | with_reducible refine State.setFlags_only _ _ _ ?_ (by decide)

theorem State.gpioRoute_only {N : Nat} {σ s : State} (pin : Nat) (rose : Bool) (fell : Bool) (hσ : Only N σ s)
    (hN : 0x1004000000000000000000000000000000000000400000000000000000001000 ||| N = N) : Only N σ (State.gpioRoute s pin rose fell) := hσ.step (State.gpioRoute_within s pin rose fell) hN

theorem State.gpioTrigger_within (s : State) (pin : Nat) (edge : Bool) :
    Only 0x6200944000000000000000000001c00060000000000000000002000000000145000 s (State.gpioTrigger s pin edge) := by
  unfold State.gpioTrigger
  repeat' first
    | with_reducible exact Only.refl _ _
    | with_reducible refine Only.ite (fun _ => ?_) (fun _ => ?_)
    | with_reducible refine Only.foldl ?_ (fun _ _ => ?_)
    | with_reducible refine State.seqTrigger_only _ _ ?_ (by decide)

theorem State.gpioTrigger_only {N : Nat} {σ s : State} (pin : Nat) (edge : Bool) (hσ : Only N σ s)
    (hN : 0x6200944000000000000000000001c00060000000000000000002000000000145000 ||| N = N) : Only N σ (State.gpioTrigger s pin edge) := hσ.step (State.gpioTrigger_within s pin edge) hN

theorem execGpioEdge_within (pin : Nat) (level : Bool) (rose : Bool) (fell : Bool) (s : State) :
    OnlyOut 0x6201944000000000000000000001c00060000000000400000002000000000145020 s (execGpioEdge pin level rose fell s) := by
  unfold execGpioEdge
  repeat' first
    | with_reducible exact Only.refl _ _
    | with_reducible refine Only.ite (fun _ => ?_) (fun _ => ?_)
    | with_reducible refine Only.foldl ?_ (fun _ _ => ?_)
    | with_reducible refine OnlyOut.next ?_
    | with_reducible refine OnlyOut.ite (fun _ => ?_) (fun _ => ?_)
    | with_reducible refine State.gpioTrigger_only _ _ ?_ (by decide)
    | with_reducible refine State.gpioRoute_only _ _ _ ?_ (by decide)
    | with_reducible refine State.putMask_only _ _ _ _ _ ?_ (by decide)

theorem execGpioEdge_only {N : Nat} {σ s : State} (pin : Nat) (level : Bool) (rose : Bool) (fell : Bool) (hσ : Only N σ s)
    (hN : 0x6201944000000000000000000001c00060000000000400000002000000000145020 ||| N = N) : OnlyOut N σ (execGpioEdge pin level rose fell s) := hσ.outcome (execGpioEdge_within pin level rose fell s) hN

end Sys2Proof.Machine
end

