-- ==== Sys2Proof/Laws/Frame/Dram.lean ====
section
/-!
SUPPORT. Dram.lean: what each operation of Machine/Dram.lean can change (see Only).
-/
namespace Sys2Proof.Machine
set_option Elab.async false

theorem execDramEnable_within (s : State) :
    OnlyOut 0x2800000000000000 s (execDramEnable s) := by
  unfold execDramEnable
  repeat' first
    | with_reducible exact Only.refl _ _
    | with_reducible refine Only.ite (fun _ => ?_) (fun _ => ?_)
    | with_reducible refine Only.foldl ?_ (fun _ _ => ?_)
    | with_reducible refine OnlyOut.next ?_
    | with_reducible refine OnlyOut.ite (fun _ => ?_) (fun _ => ?_)
    | with_reducible refine State.set_only _ _ _ _ ?_ (by decide)

theorem execDramEnable_only {N : Nat} {σ s : State}  (hσ : Only N σ s)
    (hN : 0x2800000000000000 ||| N = N) : OnlyOut N σ (execDramEnable s) := hσ.outcome (execDramEnable_within s) hN

theorem State.dramState_within (s : State) :
    Only 0x2000000000000000 s (State.dramState s) := by
  unfold State.dramState
  repeat' first
    | with_reducible exact Only.refl _ _
    | with_reducible refine Only.ite (fun _ => ?_) (fun _ => ?_)
    | with_reducible refine Only.foldl ?_ (fun _ _ => ?_)
    | with_reducible refine State.set_only _ _ _ _ ?_ (by decide)

theorem State.dramState_only {N : Nat} {σ s : State}  (hσ : Only N σ s)
    (hN : 0x2000000000000000 ||| N = N) : Only N σ (State.dramState s) := hσ.step (State.dramState_within s) hN

theorem execDramInitDone_within (s : State) :
    OnlyOut 0x200000000000000000000000000000000000000000000000042000000000000000 s (execDramInitDone s) := by
  unfold execDramInitDone
  repeat' first
    | with_reducible exact Only.refl _ _
    | with_reducible refine Only.ite (fun _ => ?_) (fun _ => ?_)
    | with_reducible refine Only.foldl ?_ (fun _ _ => ?_)
    | fail_if_no_progress with_reducible refine Only.fields ?_ rfl rfl
    | with_reducible refine OnlyOut.next ?_
    | with_reducible refine OnlyOut.ite (fun _ => ?_) (fun _ => ?_)
    | with_reducible refine State.set_only _ _ _ _ ?_ (by decide)

theorem execDramInitDone_only {N : Nat} {σ s : State}  (hσ : Only N σ s)
    (hN : 0x200000000000000000000000000000000000000000000000042000000000000000 ||| N = N) : OnlyOut N σ (execDramInitDone s) := hσ.outcome (execDramInitDone_within s) hN

theorem State.returnPages_within (s : State) :
    Only 0x800000000000000000000000000000000000000000000000000000000000000000 s (State.returnPages s) := by
  unfold State.returnPages
  repeat' first
    | with_reducible exact Only.refl _ _
    | with_reducible refine Only.ite (fun _ => ?_) (fun _ => ?_)
    | with_reducible refine Only.foldl ?_ (fun _ _ => ?_)
    | with_reducible refine State.selfRequest_only _ ?_ (by decide)
    | with_reducible refine State.setEntry_only _ _ ?_ (by decide)

theorem State.returnPages_only {N : Nat} {σ s : State}  (hσ : Only N σ s)
    (hN : 0x800000000000000000000000000000000000000000000000000000000000000000 ||| N = N) : Only N σ (State.returnPages s) := hσ.step (State.returnPages_within s) hN

theorem State.dramDisable_within (s : State) :
    Only 0xa0414400000000000000000000000000000000000000000080a800000000001000 s (State.dramDisable s) := by
  unfold State.dramDisable
  repeat' first
    | with_reducible exact Only.refl _ _
    | with_reducible refine Only.ite (fun _ => ?_) (fun _ => ?_)
    | with_reducible refine Only.foldl ?_ (fun _ _ => ?_)
    | with_reducible refine Only.noCells ?_ _ (by decide)
    | fail_if_no_progress with_reducible refine Only.fields ?_ rfl rfl
    | with_reducible refine State.returnPages_only  ?_ (by decide)
    | with_reducible refine State.updatePanic_only  ?_ (by decide)
    | with_reducible refine State.setSeqX_only _ _ ?_ (by decide)
    | with_reducible refine State.emit_only _ ?_ (by decide)
    | with_reducible refine State.set_only _ _ _ _ ?_ (by decide)

theorem State.dramDisable_only {N : Nat} {σ s : State}  (hσ : Only N σ s)
    (hN : 0xa0414400000000000000000000000000000000000000000080a800000000001000 ||| N = N) : Only N σ (State.dramDisable s) := hσ.step (State.dramDisable_within s) hN

theorem execDramDisable_within (s : State) :
    OnlyOut 0xa0414400000000000000000000000000000000000000000080a800000000001000 s (execDramDisable s) := by
  unfold execDramDisable
  repeat' first
    | with_reducible exact Only.refl _ _
    | with_reducible refine Only.ite (fun _ => ?_) (fun _ => ?_)
    | with_reducible refine Only.foldl ?_ (fun _ _ => ?_)
    | with_reducible refine OnlyOut.next ?_
    | with_reducible refine OnlyOut.ite (fun _ => ?_) (fun _ => ?_)
    | with_reducible refine State.dramDisable_only  ?_ (by decide)
    | with_reducible refine State.hwSet_only _ _ _ ?_ (by decide)

theorem execDramDisable_only {N : Nat} {σ s : State}  (hσ : Only N σ s)
    (hN : 0xa0414400000000000000000000000000000000000000000080a800000000001000 ||| N = N) : OnlyOut N σ (execDramDisable s) := hσ.outcome (execDramDisable_within s) hN

theorem State.writeTrain_within (s : State) (m : Nat) (v : Bool) :
    Only 0x4000000000000000000000000000000000000000000042000000000001000 s (State.writeTrain s m v) := by
  unfold State.writeTrain
  repeat' first
    | with_reducible exact Only.refl _ _
    | with_reducible refine Only.ite (fun _ => ?_) (fun _ => ?_)
    | with_reducible refine Only.foldl ?_ (fun _ _ => ?_)
    | with_reducible refine State.dramState_only  ?_ (by decide)
    | with_reducible refine State.setBit_only _ _ _ _ ?_ (by decide)
    | with_reducible refine State.hwSet_only _ _ _ ?_ (by decide)

theorem State.writeTrain_only {N : Nat} {σ s : State} (m : Nat) (v : Bool) (hσ : Only N σ s)
    (hN : 0x4000000000000000000000000000000000000000000042000000000001000 ||| N = N) : Only N σ (State.writeTrain s m v) := hσ.step (State.writeTrain_within s m v) hN

theorem execTrain_within (m : Nat) (v : Bool) (s : State) :
    OnlyOut 0x4000000000000000000000000000000000000000000042000000000001000 s (execTrain m v s) := by
  unfold execTrain
  repeat' first
    | with_reducible exact Only.refl _ _
    | with_reducible refine Only.ite (fun _ => ?_) (fun _ => ?_)
    | with_reducible refine Only.foldl ?_ (fun _ _ => ?_)
    | with_reducible refine OnlyOut.next ?_
    | with_reducible refine OnlyOut.ite (fun _ => ?_) (fun _ => ?_)
    | with_reducible refine State.writeTrain_only _ _ ?_ (by decide)

theorem execTrain_only {N : Nat} {σ s : State} (m : Nat) (v : Bool) (hσ : Only N σ s)
    (hN : 0x4000000000000000000000000000000000000000000042000000000001000 ||| N = N) : OnlyOut N σ (execTrain m v s) := hσ.outcome (execTrain_within m v s) hN

theorem State.apply_within (s : State) (m : Nat) :
    Only 0x200000000000000000000000000000000000000000000000800000000000000000 s (State.apply s m) := by
  unfold State.apply
  repeat' first
    | with_reducible exact Only.refl _ _
    | with_reducible refine Only.ite (fun _ => ?_) (fun _ => ?_)
    | with_reducible refine Only.foldl ?_ (fun _ _ => ?_)
    | fail_if_no_progress with_reducible refine Only.fields ?_ rfl rfl
    | with_reducible refine State.transferDelays_only _ ?_ (by decide)
    | with_reducible refine State.set_only _ _ _ _ ?_ (by decide)

theorem State.apply_only {N : Nat} {σ s : State} (m : Nat) (hσ : Only N σ s)
    (hN : 0x200000000000000000000000000000000000000000000000800000000000000000 ||| N = N) : Only N σ (State.apply s m) := hσ.step (State.apply_within s m) hN

theorem execApply_within (m : Nat) (s : State) :
    OnlyOut 0x200000000000000000000000000000000000000000000000800000000000000000 s (execApply m s) := by
  unfold execApply
  repeat' first
    | with_reducible exact Only.refl _ _
    | with_reducible refine Only.ite (fun _ => ?_) (fun _ => ?_)
    | with_reducible refine Only.foldl ?_ (fun _ _ => ?_)
    | with_reducible refine OnlyOut.next ?_
    | with_reducible refine OnlyOut.ite (fun _ => ?_) (fun _ => ?_)
    | with_reducible refine State.apply_only _ ?_ (by decide)

theorem execApply_only {N : Nat} {σ s : State} (m : Nat) (hσ : Only N σ s)
    (hN : 0x200000000000000000000000000000000000000000000000800000000000000000 ||| N = N) : OnlyOut N σ (execApply m s) := hσ.outcome (execApply_within m s) hN

theorem State.trainDone_within (s : State) (m : Nat) (refused : Bool) :
    Only 0x8000000000000000000 s (State.trainDone s m refused) := by
  unfold State.trainDone
  repeat' first
    | with_reducible exact Only.refl _ _
    | with_reducible refine Only.ite (fun _ => ?_) (fun _ => ?_)
    | with_reducible refine Only.foldl ?_ (fun _ _ => ?_)
    | with_reducible refine State.set_only _ _ _ _ ?_ (by decide)
    | with_reducible refine State.setBit_only _ _ _ _ ?_ (by decide)

theorem State.trainDone_only {N : Nat} {σ s : State} (m : Nat) (refused : Bool) (hσ : Only N σ s)
    (hN : 0x8000000000000000000 ||| N = N) : Only N σ (State.trainDone s m refused) := hσ.step (State.trainDone_within s m refused) hN

theorem State.mrw_within (s : State) (m : Nat) :
    Only 0x200000000000000000000000000000000000000000000008000000000000000000 s (State.mrw s m) := by
  unfold State.mrw
  repeat' first
    | with_reducible exact Only.refl _ _
    | with_reducible refine Only.ite (fun _ => ?_) (fun _ => ?_)
    | with_reducible refine Only.foldl ?_ (fun _ _ => ?_)
    | fail_if_no_progress with_reducible refine Only.fields ?_ rfl rfl
    | with_reducible refine State.trainDone_only _ _ ?_ (by decide)

theorem State.mrw_only {N : Nat} {σ s : State} (m : Nat) (hσ : Only N σ s)
    (hN : 0x200000000000000000000000000000000000000000000008000000000000000000 ||| N = N) : Only N σ (State.mrw s m) := hσ.step (State.mrw_within s m) hN

theorem execMrw_within (m : Nat) (s : State) :
    OnlyOut 0x200000000000000000000000000000000000000000000008000000000000000000 s (execMrw m s) := by
  unfold execMrw
  repeat' first
    | with_reducible exact Only.refl _ _
    | with_reducible refine Only.ite (fun _ => ?_) (fun _ => ?_)
    | with_reducible refine Only.foldl ?_ (fun _ _ => ?_)
    | with_reducible refine OnlyOut.next ?_
    | with_reducible refine OnlyOut.ite (fun _ => ?_) (fun _ => ?_)
    | with_reducible refine State.mrw_only _ ?_ (by decide)

theorem execMrw_only {N : Nat} {σ s : State} (m : Nat) (hσ : Only N σ s)
    (hN : 0x200000000000000000000000000000000000000000000008000000000000000000 ||| N = N) : OnlyOut N σ (execMrw m s) := hσ.outcome (execMrw_within m s) hN

theorem execMrr_within (m : Nat) (data : Nat) (s : State) :
    OnlyOut 0x8000000000000000000 s (execMrr m data s) := by
  unfold execMrr
  repeat' first
    | with_reducible exact Only.refl _ _
    | with_reducible refine Only.ite (fun _ => ?_) (fun _ => ?_)
    | with_reducible refine Only.foldl ?_ (fun _ _ => ?_)
    | with_reducible refine OnlyOut.next ?_
    | with_reducible refine OnlyOut.ite (fun _ => ?_) (fun _ => ?_)
    | with_reducible refine State.trainDone_only _ _ ?_ (by decide)
    | with_reducible refine State.set_only _ _ _ _ ?_ (by decide)

theorem execMrr_only {N : Nat} {σ s : State} (m : Nat) (data : Nat) (hσ : Only N σ s)
    (hN : 0x8000000000000000000 ||| N = N) : OnlyOut N σ (execMrr m data s) := hσ.outcome (execMrr_within m data s) hN

theorem State.readCmp_within (s : State) (m : Nat) (failbits : Nat) :
    Only 0x200844000000000000000000000000000000000000000008002000000000145000 s (State.readCmp s m failbits) := by
  unfold State.readCmp
  repeat' first
    | with_reducible exact Only.refl _ _
    | with_reducible refine Only.ite (fun _ => ?_) (fun _ => ?_)
    | with_reducible refine Only.foldl ?_ (fun _ _ => ?_)
    | with_reducible refine State.trainDone_only _ _ ?_ (by decide)
    | with_reducible refine State.portRequest_only  ?_ (by decide)
    | with_reducible refine State.set_only _ _ _ _ ?_ (by decide)

theorem State.readCmp_only {N : Nat} {σ s : State} (m : Nat) (failbits : Nat) (hσ : Only N σ s)
    (hN : 0x200844000000000000000000000000000000000000000008002000000000145000 ||| N = N) : Only N σ (State.readCmp s m failbits) := hσ.step (State.readCmp_within s m failbits) hN

theorem execReadCmp_within (m : Nat) (failbits : Nat) (s : State) :
    OnlyOut 0x200844000000000000000000000000000000000000000008002000000000145000 s (execReadCmp m failbits s) := by
  unfold execReadCmp
  repeat' first
    | with_reducible exact Only.refl _ _
    | with_reducible refine Only.ite (fun _ => ?_) (fun _ => ?_)
    | with_reducible refine Only.foldl ?_ (fun _ _ => ?_)
    | with_reducible refine OnlyOut.next ?_
    | with_reducible refine OnlyOut.ite (fun _ => ?_) (fun _ => ?_)
    | with_reducible refine State.readCmp_only _ _ ?_ (by decide)

theorem execReadCmp_only {N : Nat} {σ s : State} (m : Nat) (failbits : Nat) (hσ : Only N σ s)
    (hN : 0x200844000000000000000000000000000000000000000008002000000000145000 ||| N = N) : OnlyOut N σ (execReadCmp m failbits s) := hσ.outcome (execReadCmp_within m failbits s) hN

theorem State.writeReadCmp_within (s : State) (m : Nat) (failbits : Nat) :
    Only 0x200944000000000000000000000000000000000000000008002000000000145000 s (State.writeReadCmp s m failbits) := by
  unfold State.writeReadCmp
  repeat' first
    | with_reducible exact Only.refl _ _
    | with_reducible refine Only.ite (fun _ => ?_) (fun _ => ?_)
    | with_reducible refine Only.foldl ?_ (fun _ _ => ?_)
    | with_reducible refine State.trainDone_only _ _ ?_ (by decide)
    | with_reducible refine State.dramWrite_only _ _ ?_ (by decide)
    | with_reducible refine State.outOfRange_only  ?_ (by decide)
    | with_reducible refine State.putBytes_only _ _ ?_ (by decide)
    | with_reducible refine State.set_only _ _ _ _ ?_ (by decide)

theorem State.writeReadCmp_only {N : Nat} {σ s : State} (m : Nat) (failbits : Nat) (hσ : Only N σ s)
    (hN : 0x200944000000000000000000000000000000000000000008002000000000145000 ||| N = N) : Only N σ (State.writeReadCmp s m failbits) := hσ.step (State.writeReadCmp_within s m failbits) hN

theorem execWriteReadCmp_within (m : Nat) (failbits : Nat) (s : State) :
    OnlyOut 0x200944000000000000000000000000000000000000000008002000000000145000 s (execWriteReadCmp m failbits s) := by
  unfold execWriteReadCmp
  repeat' first
    | with_reducible exact Only.refl _ _
    | with_reducible refine Only.ite (fun _ => ?_) (fun _ => ?_)
    | with_reducible refine Only.foldl ?_ (fun _ _ => ?_)
    | with_reducible refine OnlyOut.next ?_
    | with_reducible refine OnlyOut.ite (fun _ => ?_) (fun _ => ?_)
    | with_reducible refine State.writeReadCmp_only _ _ ?_ (by decide)

theorem execWriteReadCmp_only {N : Nat} {σ s : State} (m : Nat) (failbits : Nat) (hσ : Only N σ s)
    (hN : 0x200944000000000000000000000000000000000000000008002000000000145000 ||| N = N) : OnlyOut N σ (execWriteReadCmp m failbits s) := hσ.outcome (execWriteReadCmp_within m failbits s) hN

theorem execWlevel_within (m : Nat) (bits : Nat) (s : State) :
    OnlyOut 0x8000000000000000000 s (execWlevel m bits s) := by
  unfold execWlevel
  repeat' first
    | with_reducible exact Only.refl _ _
    | with_reducible refine Only.ite (fun _ => ?_) (fun _ => ?_)
    | with_reducible refine Only.foldl ?_ (fun _ _ => ?_)
    | with_reducible refine OnlyOut.next ?_
    | with_reducible refine OnlyOut.ite (fun _ => ?_) (fun _ => ?_)
    | with_reducible refine State.trainDone_only _ _ ?_ (by decide)
    | with_reducible refine State.set_only _ _ _ _ ?_ (by decide)

theorem execWlevel_only {N : Nat} {σ s : State} (m : Nat) (bits : Nat) (hσ : Only N σ s)
    (hN : 0x8000000000000000000 ||| N = N) : OnlyOut N σ (execWlevel m bits s) := hσ.outcome (execWlevel_within m bits s) hN

theorem State.refresh_within (s0 : State) (m : Nat) (r : Nat) :
    Only 0x200000000000000000000000000000000000000000000000800000000000000000 s0 (State.refresh s0 m r) := by
  unfold State.refresh
  repeat' first
    | with_reducible exact Only.refl _ _
    | with_reducible refine Only.ite (fun _ => ?_) (fun _ => ?_)
    | with_reducible refine Only.foldl ?_ (fun _ _ => ?_)
    | fail_if_no_progress with_reducible refine Only.fields ?_ rfl rfl
    | with_reducible refine State.refreshRank_only _ _ ?_ (by decide)

theorem State.refresh_only {N : Nat} {σ s0 : State} (m : Nat) (r : Nat) (hσ : Only N σ s0)
    (hN : 0x200000000000000000000000000000000000000000000000800000000000000000 ||| N = N) : Only N σ (State.refresh s0 m r) := hσ.step (State.refresh_within s0 m r) hN

theorem execRefresh_within (m : Nat) (r : Nat) (s : State) :
    OnlyOut 0x200000000000000000000000000000000000000000000000800000000000000000 s (execRefresh m r s) := by
  unfold execRefresh
  repeat' first
    | with_reducible exact Only.refl _ _
    | with_reducible refine Only.ite (fun _ => ?_) (fun _ => ?_)
    | with_reducible refine Only.foldl ?_ (fun _ _ => ?_)
    | with_reducible refine OnlyOut.next ?_
    | with_reducible refine OnlyOut.ite (fun _ => ?_) (fun _ => ?_)
    | with_reducible refine State.refresh_only _ _ ?_ (by decide)

theorem execRefresh_only {N : Nat} {σ s : State} (m : Nat) (r : Nat) (hσ : Only N σ s)
    (hN : 0x200000000000000000000000000000000000000000000000800000000000000000 ||| N = N) : OnlyOut N σ (execRefresh m r s) := hσ.outcome (execRefresh_within m r s) hN

theorem execMr4Poll_within (fast : List Nat) (s : State) :
    OnlyOut 0x200000000000000000000000000000000000000000000000000000000000000000 s (execMr4Poll fast s) := by
  unfold execMr4Poll
  repeat' first
    | with_reducible exact Only.refl _ _
    | with_reducible refine Only.ite (fun _ => ?_) (fun _ => ?_)
    | with_reducible refine Only.foldl ?_ (fun _ _ => ?_)
    | fail_if_no_progress with_reducible refine Only.fields ?_ rfl rfl
    | with_reducible refine OnlyOut.next ?_

theorem execMr4Poll_only {N : Nat} {σ s : State} (fast : List Nat) (hσ : Only N σ s)
    (hN : 0x200000000000000000000000000000000000000000000000000000000000000000 ||| N = N) : OnlyOut N σ (execMr4Poll fast s) := hσ.outcome (execMr4Poll_within fast s) hN

theorem State.recordCe_within (s : State) (w : Nat) :
    Only 0x4000000000000000000000000000000000000000030000000000000001000 s (State.recordCe s w) := by
  unfold State.recordCe
  repeat' first
    | with_reducible exact Only.refl _ _
    | with_reducible refine Only.ite (fun _ => ?_) (fun _ => ?_)
    | with_reducible refine Only.foldl ?_ (fun _ _ => ?_)
    | with_reducible refine State.set_only _ _ _ _ ?_ (by decide)
    | with_reducible refine State.count_only _ _ _ _ _ ?_ (by decide)

theorem State.recordCe_only {N : Nat} {σ s : State} (w : Nat) (hσ : Only N σ s)
    (hN : 0x4000000000000000000000000000000000000000030000000000000001000 ||| N = N) : Only N σ (State.recordCe s w) := hσ.step (State.recordCe_within s w) hN

theorem State.scrub_within (s0 : State) (err : Nat) :
    Only 0x200844000000000000000000000000000000000000000030000000000000145000 s0 (State.scrub s0 err) := by
  unfold State.scrub
  repeat' first
    | with_reducible exact Only.refl _ _
    | with_reducible refine Only.ite (fun _ => ?_) (fun _ => ?_)
    | with_reducible refine Only.foldl ?_ (fun _ _ => ?_)
    | fail_if_no_progress with_reducible refine Only.fields ?_ rfl rfl
    | with_reducible refine State.recordCe_only _ ?_ (by decide)
    | with_reducible refine State.recordUe_only _ _ ?_ (by decide)

theorem State.scrub_only {N : Nat} {σ s0 : State} (err : Nat) (hσ : Only N σ s0)
    (hN : 0x200844000000000000000000000000000000000000000030000000000000145000 ||| N = N) : Only N σ (State.scrub s0 err) := hσ.step (State.scrub_within s0 err) hN

theorem execPatrolScrub_within (corrected : Bool) (uncorrectable : Bool) (s : State) :
    OnlyOut 0x200844000000000000000000000000000000000000000030000000000000145000 s (execPatrolScrub corrected uncorrectable s) := by
  unfold execPatrolScrub
  repeat' first
    | with_reducible exact Only.refl _ _
    | with_reducible refine Only.ite (fun _ => ?_) (fun _ => ?_)
    | with_reducible refine Only.foldl ?_ (fun _ _ => ?_)
    | with_reducible refine OnlyOut.next ?_
    | with_reducible refine OnlyOut.ite (fun _ => ?_) (fun _ => ?_)
    | with_reducible refine State.scrub_only _ ?_ (by decide)

theorem execPatrolScrub_only {N : Nat} {σ s : State} (corrected : Bool) (uncorrectable : Bool) (hσ : Only N σ s)
    (hN : 0x200844000000000000000000000000000000000000000030000000000000145000 ||| N = N) : OnlyOut N σ (execPatrolScrub corrected uncorrectable s) := hσ.outcome (execPatrolScrub_within corrected uncorrectable s) hN

theorem State.srEnter_within (s : State) :
    Only 0x200004000000000000000000000000000000000000000000012000000000001000 s (State.srEnter s) := by
  unfold State.srEnter
  repeat' first
    | with_reducible exact Only.refl _ _
    | with_reducible refine Only.ite (fun _ => ?_) (fun _ => ?_)
    | with_reducible refine Only.foldl ?_ (fun _ _ => ?_)
    | fail_if_no_progress with_reducible refine Only.fields ?_ rfl rfl
    | with_reducible refine State.set_only _ _ _ _ ?_ (by decide)
    | with_reducible refine State.count_only _ _ _ _ _ ?_ (by decide)

theorem State.srEnter_only {N : Nat} {σ s : State}  (hσ : Only N σ s)
    (hN : 0x200004000000000000000000000000000000000000000000012000000000001000 ||| N = N) : Only N σ (State.srEnter s) := hσ.step (State.srEnter_within s) hN

theorem execSrEnter_within (s : State) :
    OnlyOut 0x200004000000000000000000000000000000000000000000012000000000001000 s (execSrEnter s) := by
  unfold execSrEnter
  repeat' first
    | with_reducible exact Only.refl _ _
    | with_reducible refine Only.ite (fun _ => ?_) (fun _ => ?_)
    | with_reducible refine Only.foldl ?_ (fun _ _ => ?_)
    | with_reducible refine OnlyOut.next ?_
    | with_reducible refine OnlyOut.ite (fun _ => ?_) (fun _ => ?_)
    | with_reducible refine State.srEnter_only  ?_ (by decide)
    | with_reducible refine State.hwSet_only _ _ _ ?_ (by decide)

theorem execSrEnter_only {N : Nat} {σ s : State}  (hσ : Only N σ s)
    (hN : 0x200004000000000000000000000000000000000000000000012000000000001000 ||| N = N) : OnlyOut N σ (execSrEnter s) := hσ.outcome (execSrEnter_within s) hN

theorem execAutoSelfRefresh_within (s : State) :
    OnlyOut 0x200004000000000000000000000000000000000000000000012000000000001000 s (execAutoSelfRefresh s) := by
  unfold execAutoSelfRefresh
  repeat' first
    | with_reducible exact Only.refl _ _
    | with_reducible refine Only.ite (fun _ => ?_) (fun _ => ?_)
    | with_reducible refine Only.foldl ?_ (fun _ _ => ?_)
    | with_reducible refine OnlyOut.next ?_
    | with_reducible refine OnlyOut.ite (fun _ => ?_) (fun _ => ?_)
    | with_reducible refine State.srEnter_only  ?_ (by decide)

theorem execAutoSelfRefresh_only {N : Nat} {σ s : State}  (hσ : Only N σ s)
    (hN : 0x200004000000000000000000000000000000000000000000012000000000001000 ||| N = N) : OnlyOut N σ (execAutoSelfRefresh s) := hσ.outcome (execAutoSelfRefresh_within s) hN

theorem execSrExit_within (s : State) :
    OnlyOut 0x844000000000000000000000000000000000000000000002000000000145000 s (execSrExit s) := by
  unfold execSrExit
  repeat' first
    | with_reducible exact Only.refl _ _
    | with_reducible refine Only.ite (fun _ => ?_) (fun _ => ?_)
    | with_reducible refine Only.foldl ?_ (fun _ _ => ?_)
    | with_reducible refine OnlyOut.next ?_
    | with_reducible refine OnlyOut.ite (fun _ => ?_) (fun _ => ?_)
    | with_reducible refine State.srExit_only _ ?_ (by decide)

theorem execSrExit_only {N : Nat} {σ s : State}  (hσ : Only N σ s)
    (hN : 0x844000000000000000000000000000000000000000000002000000000145000 ||| N = N) : OnlyOut N σ (execSrExit s) := hσ.outcome (execSrExit_within s) hN

theorem execOutOfRangeClear_within (s : State) :
    OnlyOut 0x4000000000000000000000000000000000000000000002000000000001000 s (execOutOfRangeClear s) := by
  unfold execOutOfRangeClear
  repeat' first
    | with_reducible exact Only.refl _ _
    | with_reducible refine Only.ite (fun _ => ?_) (fun _ => ?_)
    | with_reducible refine Only.foldl ?_ (fun _ _ => ?_)
    | with_reducible refine OnlyOut.next ?_
    | with_reducible refine OnlyOut.ite (fun _ => ?_) (fun _ => ?_)
    | with_reducible refine State.set_only _ _ _ _ ?_ (by decide)
    | with_reducible refine State.clear_only _ _ _ ?_ (by decide)

theorem execOutOfRangeClear_only {N : Nat} {σ s : State}  (hσ : Only N σ s)
    (hN : 0x4000000000000000000000000000000000000000000002000000000001000 ||| N = N) : OnlyOut N σ (execOutOfRangeClear s) := hσ.outcome (execOutOfRangeClear_within s) hN

theorem execPanicClear_within (s : State) :
    OnlyOut 0x4000000000000000000000000000000000000000000008000000000001000 s (execPanicClear s) := by
  unfold execPanicClear
  repeat' first
    | with_reducible exact Only.refl _ _
    | with_reducible refine Only.ite (fun _ => ?_) (fun _ => ?_)
    | with_reducible refine Only.foldl ?_ (fun _ _ => ?_)
    | with_reducible refine OnlyOut.next ?_
    | with_reducible refine OnlyOut.ite (fun _ => ?_) (fun _ => ?_)
    | with_reducible refine State.set_only _ _ _ _ ?_ (by decide)
    | with_reducible refine State.clear_only _ _ _ ?_ (by decide)

theorem execPanicClear_only {N : Nat} {σ s : State}  (hσ : Only N σ s)
    (hN : 0x4000000000000000000000000000000000000000000008000000000001000 ||| N = N) : OnlyOut N σ (execPanicClear s) := hσ.outcome (execPanicClear_within s) hN

theorem execSrClear_within (s : State) :
    OnlyOut 0x4000000000000000000000000000000000000000000010000000000001000 s (execSrClear s) := by
  unfold execSrClear
  repeat' first
    | with_reducible exact Only.refl _ _
    | with_reducible refine Only.ite (fun _ => ?_) (fun _ => ?_)
    | with_reducible refine Only.foldl ?_ (fun _ _ => ?_)
    | with_reducible refine OnlyOut.next ?_
    | with_reducible refine OnlyOut.ite (fun _ => ?_) (fun _ => ?_)
    | with_reducible refine State.set_only _ _ _ _ ?_ (by decide)
    | with_reducible refine State.clear_only _ _ _ ?_ (by decide)

theorem execSrClear_only {N : Nat} {σ s : State}  (hσ : Only N σ s)
    (hN : 0x4000000000000000000000000000000000000000000010000000000001000 ||| N = N) : OnlyOut N σ (execSrClear s) := hσ.outcome (execSrClear_within s) hN

theorem execEccStatClear_within (m : Nat) (s : State) :
    OnlyOut 0x4000000000000000000000000000000000000000030000000000000001000 s (execEccStatClear m s) := by
  unfold execEccStatClear
  repeat' first
    | with_reducible exact Only.refl _ _
    | with_reducible refine Only.ite (fun _ => ?_) (fun _ => ?_)
    | with_reducible refine Only.foldl ?_ (fun _ _ => ?_)
    | with_reducible refine OnlyOut.next ?_
    | with_reducible refine OnlyOut.ite (fun _ => ?_) (fun _ => ?_)
    | with_reducible refine State.set_only _ _ _ _ ?_ (by decide)
    | with_reducible refine State.clear_only _ _ _ ?_ (by decide)
    | with_reducible refine State.wr_only _ _ ?_ (by (dsimp only; decide))

theorem execEccStatClear_only {N : Nat} {σ s : State} (m : Nat) (hσ : Only N σ s)
    (hN : 0x4000000000000000000000000000000000000000030000000000000001000 ||| N = N) : OnlyOut N σ (execEccStatClear m s) := hσ.outcome (execEccStatClear_within m s) hN

end Sys2Proof.Machine
end

