-- ==== Sys2Proof/Laws/Frame/Fe.lean ====
section
/-!
SUPPORT. Fe.lean: what each operation of Machine/Fe.lean can change (see Only).
-/
namespace Sys2Proof.Machine
set_option Elab.async false

theorem execFeStart_within (b : Nat) (list : Nat) (s : State) :
    OnlyOut 0x1000004000000000000000002000000000000000000000000000000000000001000 s (execFeStart b list s) := by
  unfold execFeStart
  repeat' first
    | with_reducible exact Only.refl _ _
    | with_reducible refine Only.ite (fun _ => ?_) (fun _ => ?_)
    | with_reducible refine Only.foldl ?_ (fun _ _ => ?_)
    | with_reducible refine OnlyOut.next ?_
    | with_reducible refine OnlyOut.ite (fun _ => ?_) (fun _ => ?_)
    | with_reducible refine State.feRequest_only _ _ _ ?_ (by decide)

theorem execFeStart_only {N : Nat} {σ s : State} (b : Nat) (list : Nat) (hσ : Only N σ s)
    (hN : 0x1000004000000000000000002000000000000000000000000000000000000001000 ||| N = N) : OnlyOut N σ (execFeStart b list s) := hσ.outcome (execFeStart_within b list s) hN

theorem execFeAbort_within (b : Nat) (s : State) :
    OnlyOut 0x1000000000000000000000002000000000000000000000000000000000000000000 s (execFeAbort b s) := by
  unfold execFeAbort
  repeat' first
    | with_reducible exact Only.refl _ _
    | with_reducible refine Only.ite (fun _ => ?_) (fun _ => ?_)
    | with_reducible refine Only.foldl ?_ (fun _ _ => ?_)
    | with_reducible refine OnlyOut.next ?_
    | with_reducible refine OnlyOut.ite (fun _ => ?_) (fun _ => ?_)
    | with_reducible refine State.feAbort_only _ ?_ (by decide)

theorem execFeAbort_only {N : Nat} {σ s : State} (b : Nat) (hσ : Only N σ s)
    (hN : 0x1000000000000000000000002000000000000000000000000000000000000000000 ||| N = N) : OnlyOut N σ (execFeAbort b s) := hσ.outcome (execFeAbort_within b s) hN

theorem execFeWrite_within (b : Nat) (miso : Nat) (s : State) :
    OnlyOut 0x1000040000000000000000012000000000000000000000000000000000000000000 s (execFeWrite b miso s) := by
  unfold execFeWrite
  repeat' first
    | with_reducible exact Only.refl _ _
    | with_reducible refine Only.ite (fun _ => ?_) (fun _ => ?_)
    | with_reducible refine Only.foldl ?_ (fun _ _ => ?_)
    | with_reducible refine OnlyOut.next ?_
    | with_reducible refine OnlyOut.ite (fun _ => ?_) (fun _ => ?_)
    | with_reducible refine State.feNext_only _ _ ?_ (by decide)
    | with_reducible refine State.setFe_only _ _ ?_ (by decide)
    | with_reducible refine State.emit_only _ ?_ (by decide)
    | with_reducible refine State.set_only _ _ _ _ ?_ (by decide)

theorem execFeWrite_only {N : Nat} {σ s : State} (b : Nat) (miso : Nat) (hσ : Only N σ s)
    (hN : 0x1000040000000000000000012000000000000000000000000000000000000000000 ||| N = N) : OnlyOut N σ (execFeWrite b miso s) := hσ.outcome (execFeWrite_within b miso s) hN

theorem execFeDelay_within (b : Nat) (s : State) :
    OnlyOut 0x1000000000000000000000000000000000000000000000000000000000000000000 s (execFeDelay b s) := by
  unfold execFeDelay
  repeat' first
    | with_reducible exact Only.refl _ _
    | with_reducible refine Only.ite (fun _ => ?_) (fun _ => ?_)
    | with_reducible refine Only.foldl ?_ (fun _ _ => ?_)
    | with_reducible refine OnlyOut.next ?_
    | with_reducible refine OnlyOut.ite (fun _ => ?_) (fun _ => ?_)
    | with_reducible refine State.setFe_only _ _ ?_ (by decide)

theorem execFeDelay_only {N : Nat} {σ s : State} (b : Nat) (hσ : Only N σ s)
    (hN : 0x1000000000000000000000000000000000000000000000000000000000000000000 ||| N = N) : OnlyOut N σ (execFeDelay b s) := hσ.outcome (execFeDelay_within b s) hN

theorem execFeDelayExpiry_within (b : Nat) (s : State) :
    OnlyOut 0x1000000000000000000000002000000000000000000000000000000000000000000 s (execFeDelayExpiry b s) := by
  unfold execFeDelayExpiry
  repeat' first
    | with_reducible exact Only.refl _ _
    | with_reducible refine Only.ite (fun _ => ?_) (fun _ => ?_)
    | with_reducible refine Only.foldl ?_ (fun _ _ => ?_)
    | with_reducible refine OnlyOut.next ?_
    | with_reducible refine OnlyOut.ite (fun _ => ?_) (fun _ => ?_)
    | with_reducible refine State.feNext_only _ _ ?_ (by decide)
    | split
    | extract_lets

theorem execFeDelayExpiry_only {N : Nat} {σ s : State} (b : Nat) (hσ : Only N σ s)
    (hN : 0x1000000000000000000000002000000000000000000000000000000000000000000 ||| N = N) : OnlyOut N σ (execFeDelayExpiry b s) := hσ.outcome (execFeDelayExpiry_within b s) hN

theorem execWaitalert_within (b : Nat) (s : State) :
    OnlyOut 0x1000000000000000000000002000000000000000000000000000000000000000000 s (execWaitalert b s) := by
  unfold execWaitalert
  repeat' first
    | with_reducible exact Only.refl _ _
    | with_reducible refine Only.ite (fun _ => ?_) (fun _ => ?_)
    | with_reducible refine Only.foldl ?_ (fun _ _ => ?_)
    | with_reducible refine OnlyOut.next ?_
    | with_reducible refine OnlyOut.ite (fun _ => ?_) (fun _ => ?_)
    | with_reducible refine State.feNext_only _ _ ?_ (by decide)
    | with_reducible refine State.setFe_only _ _ ?_ (by decide)

theorem execWaitalert_only {N : Nat} {σ s : State} (b : Nat) (hσ : Only N σ s)
    (hN : 0x1000000000000000000000002000000000000000000000000000000000000000000 ||| N = N) : OnlyOut N σ (execWaitalert b s) := hσ.outcome (execWaitalert_within b s) hN

theorem execFeTimeout_within (b : Nat) (s : State) :
    OnlyOut 0x1000844000000000000000002000000000000000000000000000000000000145000 s (execFeTimeout b s) := by
  unfold execFeTimeout
  repeat' first
    | with_reducible exact Only.refl _ _
    | with_reducible refine Only.ite (fun _ => ?_) (fun _ => ?_)
    | with_reducible refine Only.foldl ?_ (fun _ _ => ?_)
    | with_reducible refine OnlyOut.next ?_
    | with_reducible refine OnlyOut.ite (fun _ => ?_) (fun _ => ?_)
    | with_reducible refine State.feEnd_only _ ?_ (by decide)
    | with_reducible refine State.post_only _ _ _ ?_ (by decide)
    | with_reducible refine State.hwSet_only _ _ _ ?_ (by decide)
    | split
    | extract_lets

theorem execFeTimeout_only {N : Nat} {σ s : State} (b : Nat) (hσ : Only N σ s)
    (hN : 0x1000844000000000000000002000000000000000000000000000000000000145000 ||| N = N) : OnlyOut N σ (execFeTimeout b s) := hσ.outcome (execFeTimeout_within b s) hN

theorem execFeListEnd_within (b : Nat) (s : State) :
    OnlyOut 0x1000000000000000000000002000000000000000000000000000000000000000000 s (execFeListEnd b s) := by
  unfold execFeListEnd
  repeat' first
    | with_reducible exact Only.refl _ _
    | with_reducible refine Only.ite (fun _ => ?_) (fun _ => ?_)
    | with_reducible refine Only.foldl ?_ (fun _ _ => ?_)
    | with_reducible refine OnlyOut.next ?_
    | with_reducible refine OnlyOut.ite (fun _ => ?_) (fun _ => ?_)
    | with_reducible refine State.feEnd_only _ ?_ (by decide)

theorem execFeListEnd_only {N : Nat} {σ s : State} (b : Nat) (hσ : Only N σ s)
    (hN : 0x1000000000000000000000002000000000000000000000000000000000000000000 ||| N = N) : OnlyOut N σ (execFeListEnd b s) := hσ.outcome (execFeListEnd_within b s) hN

theorem execFeAlert_within (b : Nat) (low : Bool) (fell : Bool) (s : State) :
    OnlyOut 0x1001844000000000000000002000000000000000000400000000000000000145000 s (execFeAlert b low fell s) := by
  unfold execFeAlert
  repeat' first
    | with_reducible exact Only.refl _ _
    | with_reducible refine Only.ite (fun _ => ?_) (fun _ => ?_)
    | with_reducible refine Only.foldl ?_ (fun _ _ => ?_)
    | with_reducible refine OnlyOut.next ?_
    | with_reducible refine OnlyOut.ite (fun _ => ?_) (fun _ => ?_)
    | with_reducible refine State.feNext_only _ _ ?_ (by decide)
    | with_reducible refine State.setFlags_only _ _ _ ?_ (by decide)
    | with_reducible refine State.post_only _ _ _ ?_ (by decide)
    | with_reducible refine State.setBit_only _ _ _ _ ?_ (by decide)
    | with_reducible refine State.hwSet_only _ _ _ ?_ (by decide)

theorem execFeAlert_only {N : Nat} {σ s : State} (b : Nat) (low : Bool) (fell : Bool) (hσ : Only N σ s)
    (hN : 0x1001844000000000000000002000000000000000000400000000000000000145000 ||| N = N) : OnlyOut N σ (execFeAlert b low fell s) := hσ.outcome (execFeAlert_within b low fell s) hN

theorem State.feAutoinc_within (s : State) (b : Nat) :
    Only 0x4000000000000000000000000000000000000000000 s (State.feAutoinc s b) := by
  unfold State.feAutoinc
  repeat' first
    | with_reducible exact Only.refl _ _
    | with_reducible refine Only.ite (fun _ => ?_) (fun _ => ?_)
    | with_reducible refine Only.foldl ?_ (fun _ _ => ?_)
    | with_reducible refine State.set_only _ _ _ _ ?_ (by decide)

theorem State.feAutoinc_only {N : Nat} {σ s : State} (b : Nat) (hσ : Only N σ s)
    (hN : 0x4000000000000000000000000000000000000000000 ||| N = N) : Only N σ (State.feAutoinc s b) := hσ.step (State.feAutoinc_within s b) hN

theorem execFeLdataWrite_within (b : Nat) (data : Word) (s : State) :
    OnlyOut 0x1000004000000000000000006000000000000000000000000000000000000001000 s (execFeLdataWrite b data s) := by
  unfold execFeLdataWrite
  repeat' first
    | with_reducible exact Only.refl _ _
    | with_reducible refine Only.ite (fun _ => ?_) (fun _ => ?_)
    | with_reducible refine Only.foldl ?_ (fun _ _ => ?_)
    | with_reducible refine OnlyOut.next ?_
    | with_reducible refine OnlyOut.ite (fun _ => ?_) (fun _ => ?_)
    | with_reducible refine State.feAutoinc_only _ ?_ (by decide)
    | with_reducible refine State.fePut_only _ _ ?_ (by decide)
    | with_reducible refine State.hwSet_only _ _ _ ?_ (by decide)

theorem execFeLdataWrite_only {N : Nat} {σ s : State} (b : Nat) (data : Word) (hσ : Only N σ s)
    (hN : 0x1000004000000000000000006000000000000000000000000000000000000001000 ||| N = N) : OnlyOut N σ (execFeLdataWrite b data s) := hσ.outcome (execFeLdataWrite_within b data s) hN

theorem execFeStatClear_within (b : Nat) (s : State) :
    OnlyOut 0x4000000000000000002000000000000000000000000000000000000001000 s (execFeStatClear b s) := by
  unfold execFeStatClear
  repeat' first
    | with_reducible exact Only.refl _ _
    | with_reducible refine Only.ite (fun _ => ?_) (fun _ => ?_)
    | with_reducible refine Only.foldl ?_ (fun _ _ => ?_)
    | with_reducible refine OnlyOut.next ?_
    | with_reducible refine OnlyOut.ite (fun _ => ?_) (fun _ => ?_)
    | with_reducible refine State.set_only _ _ _ _ ?_ (by decide)
    | with_reducible refine State.clear_only _ _ _ ?_ (by decide)

theorem execFeStatClear_only {N : Nat} {σ s : State} (b : Nat) (hσ : Only N σ s)
    (hN : 0x4000000000000000002000000000000000000000000000000000000001000 ||| N = N) : OnlyOut N σ (execFeStatClear b s) := hσ.outcome (execFeStatClear_within b s) hN

end Sys2Proof.Machine
end

