-- ==== Sys2Proof/Laws/Frame/Link.lean ====
section
/-!
SUPPORT. Link.lean: what each operation of Machine/Link.lean can change (see Only).
-/
namespace Sys2Proof.Machine
set_option Elab.async false

theorem State.oluEnableOp_within (s : State) (p : Nat) :
    Only 0x400000000000000000000000000000000000000000000000180000000000000 s (State.oluEnableOp s p) := by
  unfold State.oluEnableOp
  repeat' first
    | with_reducible exact Only.refl _ _
    | with_reducible refine Only.ite (fun _ => ?_) (fun _ => ?_)
    | with_reducible refine Only.foldl ?_ (fun _ _ => ?_)
    | with_reducible refine State.setPortX_only _ _ ?_ (by decide)
    | with_reducible refine State.set_only _ _ _ _ ?_ (by decide)

theorem State.oluEnableOp_only {N : Nat} {σ s : State} (p : Nat) (hσ : Only N σ s)
    (hN : 0x400000000000000000000000000000000000000000000000180000000000000 ||| N = N) : Only N σ (State.oluEnableOp s p) := hσ.step (State.oluEnableOp_within s p) hN

theorem execOluEnable_within (p : Nat) (s : State) :
    OnlyOut 0x400000000000000000000000000000000000000000000000180000000000000 s (execOluEnable p s) := by
  unfold execOluEnable
  repeat' first
    | with_reducible exact Only.refl _ _
    | with_reducible refine Only.ite (fun _ => ?_) (fun _ => ?_)
    | with_reducible refine Only.foldl ?_ (fun _ _ => ?_)
    | with_reducible refine OnlyOut.next ?_
    | with_reducible refine OnlyOut.ite (fun _ => ?_) (fun _ => ?_)
    | with_reducible refine State.oluEnableOp_only _ ?_ (by decide)

theorem execOluEnable_only {N : Nat} {σ s : State} (p : Nat) (hσ : Only N σ s)
    (hN : 0x400000000000000000000000000000000000000000000000180000000000000 ||| N = N) : OnlyOut N σ (execOluEnable p s) := hσ.outcome (execOluEnable_within p s) hN

theorem State.oluDisableOp_within (s : State) (p : Nat) :
    Only 0xc440000000000000000000000000000000000000000000003c0000000145000 s (State.oluDisableOp s p) := by
  unfold State.oluDisableOp
  repeat' first
    | with_reducible exact Only.refl _ _
    | with_reducible refine Only.ite (fun _ => ?_) (fun _ => ?_)
    | with_reducible refine Only.foldl ?_ (fun _ _ => ?_)
    | with_reducible refine State.dropBuffers_only _ _ ?_ (by decide)
    | with_reducible refine State.bulkAbort_only _ ?_ (by decide)
    | with_reducible refine State.setPortX_only _ _ ?_ (by decide)
    | with_reducible refine State.emit_only _ ?_ (by decide)
    | with_reducible refine State.set_only _ _ _ _ ?_ (by decide)

theorem State.oluDisableOp_only {N : Nat} {σ s : State} (p : Nat) (hσ : Only N σ s)
    (hN : 0xc440000000000000000000000000000000000000000000003c0000000145000 ||| N = N) : Only N σ (State.oluDisableOp s p) := hσ.step (State.oluDisableOp_within s p) hN

theorem execOluDisable_within (p : Nat) (s : State) :
    OnlyOut 0xc440000000000000000000000000000000000000000000003c0000000145000 s (execOluDisable p s) := by
  unfold execOluDisable
  repeat' first
    | with_reducible exact Only.refl _ _
    | with_reducible refine Only.ite (fun _ => ?_) (fun _ => ?_)
    | with_reducible refine Only.foldl ?_ (fun _ _ => ?_)
    | with_reducible refine OnlyOut.next ?_
    | with_reducible refine OnlyOut.ite (fun _ => ?_) (fun _ => ?_)
    | with_reducible refine State.oluDisableOp_only _ ?_ (by decide)

theorem execOluDisable_only {N : Nat} {σ s : State} (p : Nat) (hσ : Only N σ s)
    (hN : 0xc440000000000000000000000000000000000000000000003c0000000145000 ||| N = N) : OnlyOut N σ (execOluDisable p s) := hσ.outcome (execOluDisable_within p s) hN

theorem execRetrain_within (p : Nat) (s : State) :
    OnlyOut 0x404000000000000000000000000000000000000000000000300000000001000 s (execRetrain p s) := by
  unfold execRetrain
  repeat' first
    | with_reducible exact Only.refl _ _
    | with_reducible refine Only.ite (fun _ => ?_) (fun _ => ?_)
    | with_reducible refine Only.foldl ?_ (fun _ _ => ?_)
    | with_reducible refine OnlyOut.next ?_
    | with_reducible refine OnlyOut.ite (fun _ => ?_) (fun _ => ?_)
    | with_reducible refine State.linkDown_only _ ?_ (by decide)

theorem execRetrain_only {N : Nat} {σ s : State} (p : Nat) (hσ : Only N σ s)
    (hN : 0x404000000000000000000000000000000000000000000000300000000001000 ||| N = N) : OnlyOut N σ (execRetrain p s) := hσ.outcome (execRetrain_within p s) hN

theorem execTrainingAttempt_within (p : Nat) (s : State) :
    OnlyOut 0x400000000000000000000000000000000000000000000000100000000000000 s (execTrainingAttempt p s) := by
  unfold execTrainingAttempt
  repeat' first
    | with_reducible exact Only.refl _ _
    | with_reducible refine Only.ite (fun _ => ?_) (fun _ => ?_)
    | with_reducible refine Only.foldl ?_ (fun _ _ => ?_)
    | with_reducible refine OnlyOut.next ?_
    | with_reducible refine OnlyOut.ite (fun _ => ?_) (fun _ => ?_)
    | with_reducible refine State.setPortX_only _ _ ?_ (by decide)
    | with_reducible refine State.set_only _ _ _ _ ?_ (by decide)

theorem execTrainingAttempt_only {N : Nat} {σ s : State} (p : Nat) (hσ : Only N σ s)
    (hN : 0x400000000000000000000000000000000000000000000000100000000000000 ||| N = N) : OnlyOut N σ (execTrainingAttempt p s) := hσ.outcome (execTrainingAttempt_within p s) hN

theorem State.lostLink_within (s : State) (p : Nat) :
    Only 0xc44000000000000000000000000000000000000000000000240000000145000 s (State.lostLink s p) := by
  unfold State.lostLink
  repeat' first
    | with_reducible exact Only.refl _ _
    | with_reducible refine Only.ite (fun _ => ?_) (fun _ => ?_)
    | with_reducible refine Only.foldl ?_ (fun _ _ => ?_)
    | with_reducible refine State.dropBuffers_only _ _ ?_ (by decide)
    | with_reducible refine State.bulkAbort_only _ ?_ (by decide)
    | with_reducible refine State.setPortX_only _ _ ?_ (by decide)

theorem State.lostLink_only {N : Nat} {σ s : State} (p : Nat) (hσ : Only N σ s)
    (hN : 0xc44000000000000000000000000000000000000000000000240000000145000 ||| N = N) : Only N σ (State.lostLink s p) := hσ.step (State.lostLink_within s p) hN

theorem State.trainingFail_within (s : State) (p : Nat) :
    Only 0xc44000000000000000000000000000000000000000000000340000000145000 s (State.trainingFail s p) := by
  unfold State.trainingFail
  repeat' first
    | with_reducible exact Only.refl _ _
    | with_reducible refine Only.ite (fun _ => ?_) (fun _ => ?_)
    | with_reducible refine Only.foldl ?_ (fun _ _ => ?_)
    | with_reducible refine State.lostLink_only _ ?_ (by decide)
    | with_reducible refine State.setPortX_only _ _ ?_ (by decide)
    | with_reducible refine State.post_only _ _ _ ?_ (by decide)
    | with_reducible refine State.set_only _ _ _ _ ?_ (by decide)

theorem State.trainingFail_only {N : Nat} {σ s : State} (p : Nat) (hσ : Only N σ s)
    (hN : 0xc44000000000000000000000000000000000000000000000340000000145000 ||| N = N) : Only N σ (State.trainingFail s p) := hσ.step (State.trainingFail_within s p) hN

theorem execTrainingFail_within (p : Nat) (s : State) :
    OnlyOut 0xc44000000000000000000000000000000000000000000000340000000145000 s (execTrainingFail p s) := by
  unfold execTrainingFail
  repeat' first
    | with_reducible exact Only.refl _ _
    | with_reducible refine Only.ite (fun _ => ?_) (fun _ => ?_)
    | with_reducible refine Only.foldl ?_ (fun _ _ => ?_)
    | with_reducible refine OnlyOut.next ?_
    | with_reducible refine OnlyOut.ite (fun _ => ?_) (fun _ => ?_)
    | with_reducible refine State.trainingFail_only _ ?_ (by decide)

theorem execTrainingFail_only {N : Nat} {σ s : State} (p : Nat) (hσ : Only N σ s)
    (hN : 0xc44000000000000000000000000000000000000000000000340000000145000 ||| N = N) : OnlyOut N σ (execTrainingFail p s) := hσ.outcome (execTrainingFail_within p s) hN

theorem State.adapt_within (s : State) (p : Nat) :
    Only 0x480000000000000000000000000000000000000000000000000000000000000 s (State.adapt s p) := by
  unfold State.adapt
  repeat' first
    | with_reducible exact Only.refl _ _
    | with_reducible refine Only.ite (fun _ => ?_) (fun _ => ?_)
    | with_reducible refine Only.foldl ?_ (fun _ _ => ?_)
    | fail_if_no_progress with_reducible refine Only.fields ?_ rfl rfl
    | with_reducible refine State.setPortX_only _ _ ?_ (by decide)

theorem State.adapt_only {N : Nat} {σ s : State} (p : Nat) (hσ : Only N σ s)
    (hN : 0x480000000000000000000000000000000000000000000000000000000000000 ||| N = N) : Only N σ (State.adapt s p) := hσ.step (State.adapt_within s p) hN

theorem State.adaptTx_within (s : State) (p : Nat) :
    Only 0x480000000000000000000000000000000000000000000000000000000000000 s (State.adaptTx s p) := by
  unfold State.adaptTx
  repeat' first
    | with_reducible exact Only.refl _ _
    | with_reducible refine Only.ite (fun _ => ?_) (fun _ => ?_)
    | with_reducible refine Only.foldl ?_ (fun _ _ => ?_)
    | fail_if_no_progress with_reducible refine Only.fields ?_ rfl rfl
    | with_reducible refine State.setPortX_only _ _ ?_ (by decide)

theorem State.adaptTx_only {N : Nat} {σ s : State} (p : Nat) (hσ : Only N σ s)
    (hN : 0x480000000000000000000000000000000000000000000000000000000000000 ||| N = N) : Only N σ (State.adaptTx s p) := hσ.step (State.adaptTx_within s p) hN

theorem execTrainingStateExit_within (e : PortExit) (s : State) :
    OnlyOut 0xcc4000000000000000000000000000000000000000000000340000000145000 s (execTrainingStateExit e s) := by
  unfold execTrainingStateExit
  repeat' first
    | with_reducible exact Only.refl _ _
    | with_reducible refine Only.ite (fun _ => ?_) (fun _ => ?_)
    | with_reducible refine Only.foldl ?_ (fun _ _ => ?_)
    | with_reducible refine OnlyOut.next ?_
    | with_reducible refine OnlyOut.ite (fun _ => ?_) (fun _ => ?_)
    | with_reducible refine State.adaptTx_only _ ?_ (by decide)
    | with_reducible refine State.adapt_only _ ?_ (by decide)
    | with_reducible refine State.trainingFail_only _ ?_ (by decide)
    | with_reducible refine State.setPortX_only _ _ ?_ (by decide)
    | with_reducible refine State.set_only _ _ _ _ ?_ (by decide)

theorem execTrainingStateExit_only {N : Nat} {σ s : State} (e : PortExit) (hσ : Only N σ s)
    (hN : 0xcc4000000000000000000000000000000000000000000000340000000145000 ||| N = N) : OnlyOut N σ (execTrainingStateExit e s) := hσ.outcome (execTrainingStateExit_within e s) hN

theorem State.linkUp_within (s : State) (p : Nat) (partner : Nat) (hop : Nat) :
    Only 0xcc4000000000000000000000000000000008000000000000340000000145000 s (State.linkUp s p partner hop) := by
  unfold State.linkUp
  repeat' first
    | with_reducible exact Only.refl _ _
    | with_reducible refine Only.ite (fun _ => ?_) (fun _ => ?_)
    | with_reducible refine Only.foldl ?_ (fun _ _ => ?_)
    | fail_if_no_progress with_reducible refine Only.fields ?_ rfl rfl
    | with_reducible refine State.lostLink_only _ ?_ (by decide)
    | with_reducible refine State.report_only _ _ _ ?_ (by decide)
    | with_reducible refine State.setPortX_only _ _ ?_ (by decide)
    | with_reducible refine State.set_only _ _ _ _ ?_ (by decide)

theorem State.linkUp_only {N : Nat} {σ s : State} (p : Nat) (partner : Nat) (hop : Nat) (hσ : Only N σ s)
    (hN : 0xcc4000000000000000000000000000000008000000000000340000000145000 ||| N = N) : Only N σ (State.linkUp s p partner hop) := hσ.step (State.linkUp_within s p partner hop) hN

theorem execLinkUp_within (p : Nat) (partner : Nat) (echoes : List (Nat × Nat)) (s : State) :
    OnlyOut 0xcc4000000000000000000000000000000008000000000000340000000145000 s (execLinkUp p partner echoes s) := by
  unfold execLinkUp
  repeat' first
    | with_reducible exact Only.refl _ _
    | with_reducible refine Only.ite (fun _ => ?_) (fun _ => ?_)
    | with_reducible refine Only.foldl ?_ (fun _ _ => ?_)
    | with_reducible refine OnlyOut.next ?_
    | with_reducible refine OnlyOut.ite (fun _ => ?_) (fun _ => ?_)
    | with_reducible refine State.linkUp_only _ _ _ ?_ (by decide)
    | with_reducible refine State.trainingFail_only _ ?_ (by decide)
    | with_reducible refine State.lostLink_only _ ?_ (by decide)
    | with_reducible refine State.post_only _ _ _ ?_ (by decide)
    | with_reducible refine State.set_only _ _ _ _ ?_ (by decide)

theorem execLinkUp_only {N : Nat} {σ s : State} (p : Nat) (partner : Nat) (echoes : List (Nat × Nat)) (hσ : Only N σ s)
    (hN : 0xcc4000000000000000000000000000000008000000000000340000000145000 ||| N = N) : OnlyOut N σ (execLinkUp p partner echoes s) := hσ.outcome (execLinkUp_within p partner echoes s) hN

theorem execLinkDown_within (e : PortLoss) (s : State) :
    OnlyOut 0x404000000000000000000000000000000000000000000000300000000001000 s (execLinkDown e s) := by
  unfold execLinkDown
  repeat' first
    | with_reducible exact Only.refl _ _
    | with_reducible refine Only.ite (fun _ => ?_) (fun _ => ?_)
    | with_reducible refine Only.foldl ?_ (fun _ _ => ?_)
    | with_reducible refine OnlyOut.next ?_
    | with_reducible refine OnlyOut.ite (fun _ => ?_) (fun _ => ?_)
    | with_reducible refine State.linkDown_only _ ?_ (by decide)

theorem execLinkDown_only {N : Nat} {σ s : State} (e : PortLoss) (hσ : Only N σ s)
    (hN : 0x404000000000000000000000000000000000000000000000300000000001000 ||| N = N) : OnlyOut N σ (execLinkDown e s) := hσ.outcome (execLinkDown_within e s) hN

theorem execRetryTimeout_within (p : Nat) (s : State) :
    OnlyOut 0x404000000000000000000000000000000000000000000000300000000001000 s (execRetryTimeout p s) := by
  unfold execRetryTimeout
  repeat' first
    | with_reducible exact Only.refl _ _
    | with_reducible refine Only.ite (fun _ => ?_) (fun _ => ?_)
    | with_reducible refine Only.foldl ?_ (fun _ _ => ?_)
    | with_reducible refine OnlyOut.next ?_
    | with_reducible refine OnlyOut.ite (fun _ => ?_) (fun _ => ?_)
    | with_reducible refine State.resend_only _ ?_ (by decide)

theorem execRetryTimeout_only {N : Nat} {σ s : State} (p : Nat) (hσ : Only N σ s)
    (hN : 0x404000000000000000000000000000000000000000000000300000000001000 ||| N = N) : OnlyOut N σ (execRetryTimeout p s) := hσ.outcome (execRetryTimeout_within p s) hN

theorem execAckLinkFrame_within (p : Nat) (s : State) :
    OnlyOut 0x400000000000000000000000000000000000000000000000000000000000000 s (execAckLinkFrame p s) := by
  unfold execAckLinkFrame
  repeat' first
    | with_reducible exact Only.refl _ _
    | with_reducible refine Only.ite (fun _ => ?_) (fun _ => ?_)
    | with_reducible refine Only.foldl ?_ (fun _ _ => ?_)
    | with_reducible refine OnlyOut.next ?_
    | with_reducible refine OnlyOut.ite (fun _ => ?_) (fun _ => ?_)
    | with_reducible refine State.setPortX_only _ _ ?_ (by decide)

theorem execAckLinkFrame_only {N : Nat} {σ s : State} (p : Nat) (hσ : Only N σ s)
    (hN : 0x400000000000000000000000000000000000000000000000000000000000000 ||| N = N) : OnlyOut N σ (execAckLinkFrame p s) := hσ.outcome (execAckLinkFrame_within p s) hN

theorem execCrcErr_within (b : PortBytes) (s : State) :
    OnlyOut 0x404000000000000000000000000000000000000000000000200000000001000 s (execCrcErr b s) := by
  unfold execCrcErr
  repeat' first
    | with_reducible exact Only.refl _ _
    | with_reducible refine Only.ite (fun _ => ?_) (fun _ => ?_)
    | with_reducible refine Only.foldl ?_ (fun _ _ => ?_)
    | with_reducible refine OnlyOut.next ?_
    | with_reducible refine OnlyOut.ite (fun _ => ?_) (fun _ => ?_)
    | with_reducible refine State.badFrame_only _ ?_ (by decide)

theorem execCrcErr_only {N : Nat} {σ s : State} (b : PortBytes) (hσ : Only N σ s)
    (hN : 0x404000000000000000000000000000000000000000000000200000000001000 ||| N = N) : OnlyOut N σ (execCrcErr b s) := hσ.outcome (execCrcErr_within b s) hN

theorem execMarkerGroup_within (p : Nat) (parityOk : Bool) (timing : GroupTiming) (s : State) :
    OnlyOut 0x484000000000000000000000000000000000000000000000300000000001000 s (execMarkerGroup p parityOk timing s) := by
  unfold execMarkerGroup
  repeat' first
    | with_reducible exact Only.refl _ _
    | with_reducible refine Only.ite (fun _ => ?_) (fun _ => ?_)
    | with_reducible refine Only.foldl ?_ (fun _ _ => ?_)
    | with_reducible refine OnlyOut.next ?_
    | with_reducible refine OnlyOut.ite (fun _ => ?_) (fun _ => ?_)
    | with_reducible refine State.adapt_only _ ?_ (by decide)
    | with_reducible refine State.linkDown_only _ ?_ (by decide)
    | with_reducible refine State.setPortX_only _ _ ?_ (by decide)
    | with_reducible refine State.count_only _ _ _ _ _ ?_ (by decide)

theorem execMarkerGroup_only {N : Nat} {σ s : State} (p : Nat) (parityOk : Bool) (timing : GroupTiming) (hσ : Only N σ s)
    (hN : 0x484000000000000000000000000000000000000000000000300000000001000 ||| N = N) : OnlyOut N σ (execMarkerGroup p parityOk timing s) := hσ.outcome (execMarkerGroup_within p parityOk timing s) hN

theorem execSleepBlock_within (p : Nat) (s : State) :
    OnlyOut 0x100000000000000 s (execSleepBlock p s) := by
  unfold execSleepBlock
  repeat' first
    | with_reducible exact Only.refl _ _
    | with_reducible refine Only.ite (fun _ => ?_) (fun _ => ?_)
    | with_reducible refine Only.foldl ?_ (fun _ _ => ?_)
    | with_reducible refine OnlyOut.next ?_
    | with_reducible refine OnlyOut.ite (fun _ => ?_) (fun _ => ?_)
    | with_reducible refine State.set_only _ _ _ _ ?_ (by decide)

theorem execSleepBlock_only {N : Nat} {σ s : State} (p : Nat) (hσ : Only N σ s)
    (hN : 0x100000000000000 ||| N = N) : OnlyOut N σ (execSleepBlock p s) := hσ.outcome (execSleepBlock_within p s) hN

theorem execPartnerWake_within (p : Nat) (s : State) :
    OnlyOut 0x100000000000000 s (execPartnerWake p s) := by
  unfold execPartnerWake
  repeat' first
    | with_reducible exact Only.refl _ _
    | with_reducible refine Only.ite (fun _ => ?_) (fun _ => ?_)
    | with_reducible refine Only.foldl ?_ (fun _ _ => ?_)
    | with_reducible refine OnlyOut.next ?_
    | with_reducible refine OnlyOut.ite (fun _ => ?_) (fun _ => ?_)
    | with_reducible refine State.set_only _ _ _ _ ?_ (by decide)

theorem execPartnerWake_only {N : Nat} {σ s : State} (p : Nat) (hσ : Only N σ s)
    (hN : 0x100000000000000 ||| N = N) : OnlyOut N σ (execPartnerWake p s) := hσ.outcome (execPartnerWake_within p s) hN

theorem State.sendEtcheck_within (s : State) (p : Nat) :
    Only 0x404000000000000000000000000000000000000000000000200000000001000 s (State.sendEtcheck s p) := by
  unfold State.sendEtcheck
  repeat' first
    | with_reducible exact Only.refl _ _
    | with_reducible refine Only.ite (fun _ => ?_) (fun _ => ?_)
    | with_reducible refine Only.foldl ?_ (fun _ _ => ?_)
    | with_reducible refine State.enqueue_only _ _ _ ?_ (by decide)

theorem State.sendEtcheck_only {N : Nat} {σ s : State} (p : Nat) (hσ : Only N σ s)
    (hN : 0x404000000000000000000000000000000000000000000000200000000001000 ||| N = N) : Only N σ (State.sendEtcheck s p) := hσ.step (State.sendEtcheck_within s p) hN

theorem execDirectionSleep_within (p : Nat) (s : State) :
    OnlyOut 0x440000000000000000000000000000000000000000000000100000000000000 s (execDirectionSleep p s) := by
  unfold execDirectionSleep
  repeat' first
    | with_reducible exact Only.refl _ _
    | with_reducible refine Only.ite (fun _ => ?_) (fun _ => ?_)
    | with_reducible refine Only.foldl ?_ (fun _ _ => ?_)
    | with_reducible refine OnlyOut.next ?_
    | with_reducible refine OnlyOut.ite (fun _ => ?_) (fun _ => ?_)
    | with_reducible refine State.endSlot_only _ ?_ (by decide)
    | with_reducible refine State.sendControl_only _ _ ?_ (by decide)
    | with_reducible refine State.emit_only _ ?_ (by decide)
    | with_reducible refine State.set_only _ _ _ _ ?_ (by decide)

theorem execDirectionSleep_only {N : Nat} {σ s : State} (p : Nat) (hσ : Only N σ s)
    (hN : 0x440000000000000000000000000000000000000000000000100000000000000 ||| N = N) : OnlyOut N σ (execDirectionSleep p s) := hσ.outcome (execDirectionSleep_within p s) hN

theorem execDirectionWake_within (p : Nat) (s : State) :
    OnlyOut 0x444000000000000000000000000000000000000000000000300000000001000 s (execDirectionWake p s) := by
  unfold execDirectionWake
  repeat' first
    | with_reducible exact Only.refl _ _
    | with_reducible refine Only.ite (fun _ => ?_) (fun _ => ?_)
    | with_reducible refine Only.foldl ?_ (fun _ _ => ?_)
    | with_reducible refine OnlyOut.next ?_
    | with_reducible refine OnlyOut.ite (fun _ => ?_) (fun _ => ?_)
    | with_reducible refine State.sendEtcheck_only _ ?_ (by decide)
    | with_reducible refine State.emit_only _ ?_ (by decide)
    | with_reducible refine State.set_only _ _ _ _ ?_ (by decide)

theorem execDirectionWake_only {N : Nat} {σ s : State} (p : Nat) (hσ : Only N σ s)
    (hN : 0x444000000000000000000000000000000000000000000000300000000001000 ||| N = N) : OnlyOut N σ (execDirectionWake p s) := hσ.outcome (execDirectionWake_within p s) hN

theorem execOluErrStatClear_within (p : Nat) (s : State) :
    OnlyOut 0x4000000000000000000000000000000000000000000000200000000001000 s (execOluErrStatClear p s) := by
  unfold execOluErrStatClear
  repeat' first
    | with_reducible exact Only.refl _ _
    | with_reducible refine Only.ite (fun _ => ?_) (fun _ => ?_)
    | with_reducible refine Only.foldl ?_ (fun _ _ => ?_)
    | with_reducible refine OnlyOut.next ?_
    | with_reducible refine OnlyOut.ite (fun _ => ?_) (fun _ => ?_)
    | with_reducible refine State.set_only _ _ _ _ ?_ (by decide)
    | with_reducible refine State.clear_only _ _ _ ?_ (by decide)

theorem execOluErrStatClear_only {N : Nat} {σ s : State} (p : Nat) (hσ : Only N σ s)
    (hN : 0x4000000000000000000000000000000000000000000000200000000001000 ||| N = N) : OnlyOut N σ (execOluErrStatClear p s) := hσ.outcome (execOluErrStatClear_within p s) hN

theorem execLinkFrame_within (p : Nat) (raw : List Nat) (s : State) :
    OnlyOut 0xc44000000000000000000000000000000000000000000000300000000145000 s (execLinkFrame p raw s) := by
  unfold execLinkFrame
  repeat' first
    | with_reducible exact Only.refl _ _
    | with_reducible refine Only.ite (fun _ => ?_) (fun _ => ?_)
    | with_reducible refine Only.foldl ?_ (fun _ _ => ?_)
    | with_reducible refine OnlyOut.next ?_
    | with_reducible refine OnlyOut.ite (fun _ => ?_) (fun _ => ?_)
    | with_reducible refine State.rxFrame_only _ _ ?_ (by decide)

theorem execLinkFrame_only {N : Nat} {σ s : State} (p : Nat) (raw : List Nat) (hσ : Only N σ s)
    (hN : 0xc44000000000000000000000000000000000000000000000300000000145000 ||| N = N) : OnlyOut N σ (execLinkFrame p raw s) := hσ.outcome (execLinkFrame_within p raw s) hN

theorem State.flagEntryOp_within (s : State) (p : Nat) (e : Nat) :
    Only 0x8404000000000001000000000000000000000000000000000001000000001000 s (State.flagEntryOp s p e) := by
  unfold State.flagEntryOp
  repeat' first
    | with_reducible exact Only.refl _ _
    | with_reducible refine Only.ite (fun _ => ?_) (fun _ => ?_)
    | with_reducible refine Only.foldl ?_ (fun _ _ => ?_)
    | with_reducible refine State.remoteArrive_only _ _ ?_ (by decide)
    | with_reducible refine State.gfResetOp_only _ _ ?_ (by decide)
    | with_reducible refine State.gfOp_only _ _ _ _ ?_ (by decide)

theorem State.flagEntryOp_only {N : Nat} {σ s : State} (p : Nat) (e : Nat) (hσ : Only N σ s)
    (hN : 0x8404000000000001000000000000000000000000000000000001000000001000 ||| N = N) : Only N σ (State.flagEntryOp s p e) := hσ.step (State.flagEntryOp_within s p e) hN

theorem execFlagMsg_within (p : Nat) (raw : List Nat) (s : State) :
    OnlyOut 0x8c44000000000001000000000000000000000000000000000301000000145000 s (execFlagMsg p raw s) := by
  unfold execFlagMsg
  repeat' first
    | with_reducible exact Only.refl _ _
    | with_reducible refine Only.ite (fun _ => ?_) (fun _ => ?_)
    | with_reducible refine Only.foldl ?_ (fun _ _ => ?_)
    | with_reducible refine OnlyOut.next ?_
    | with_reducible refine OnlyOut.ite (fun _ => ?_) (fun _ => ?_)
    | with_reducible refine State.flagEntryOp_only _ _ ?_ (by decide)
    | with_reducible refine State.rxFrame_only _ _ ?_ (by decide)
    | with_reducible refine State.rxFrame_only_eq (by assumption) ?_ (by decide)
    | with_reducible refine State.forwardBcast_only _ _ ?_ (by decide)
    | split

theorem execFlagMsg_only {N : Nat} {σ s : State} (p : Nat) (raw : List Nat) (hσ : Only N σ s)
    (hN : 0x8c44000000000001000000000000000000000000000000000301000000145000 ||| N = N) : OnlyOut N σ (execFlagMsg p raw s) := hσ.outcome (execFlagMsg_within p raw s) hN

theorem execRaiseMsg_within (p : Nat) (raw : List Nat) (s : State) :
    OnlyOut 0xc44000000000000000000000000000000000000000000000300001800945000 s (execRaiseMsg p raw s) := by
  unfold execRaiseMsg
  repeat' first
    | with_reducible exact Only.refl _ _
    | with_reducible refine Only.ite (fun _ => ?_) (fun _ => ?_)
    | with_reducible refine Only.foldl ?_ (fun _ _ => ?_)
    | with_reducible refine OnlyOut.next ?_
    | with_reducible refine OnlyOut.ite (fun _ => ?_) (fun _ => ?_)
    | with_reducible refine State.cancelRaise_only _ _ _ ?_ (by decide)
    | with_reducible refine State.cancelRaise_only_eq (by assumption) ?_ (by decide)
    | with_reducible refine State.schedule_only _ _ ?_ (by decide)
    | with_reducible refine State.schedule_only_eq (by assumption) ?_ (by decide)
    | with_reducible refine State.freeBuffer_only _ _ ?_ (by decide)
    | with_reducible refine State.rxFrame_only _ _ ?_ (by decide)
    | with_reducible refine State.rxFrame_only_eq (by assumption) ?_ (by decide)
    | with_reducible refine State.forwardBcast_only _ _ ?_ (by decide)
    | with_reducible refine State.post_only _ _ _ ?_ (by decide)
    | split

theorem execRaiseMsg_only {N : Nat} {σ s : State} (p : Nat) (raw : List Nat) (hσ : Only N σ s)
    (hN : 0xc44000000000000000000000000000000000000000000000300001800945000 ||| N = N) : OnlyOut N σ (execRaiseMsg p raw s) := hσ.outcome (execRaiseMsg_within p raw s) hN

theorem execMailMsg_within (p : Nat) (raw : List Nat) (s : State) :
    OnlyOut 0x1c44000000000000000000000000000000000080400000000300000000145000 s (execMailMsg p raw s) := by
  unfold execMailMsg
  repeat' first
    | with_reducible exact Only.refl _ _
    | with_reducible refine Only.ite (fun _ => ?_) (fun _ => ?_)
    | with_reducible refine Only.foldl ?_ (fun _ _ => ?_)
    | fail_if_no_progress with_reducible refine Only.fields ?_ rfl rfl
    | with_reducible refine OnlyOut.next ?_
    | with_reducible refine OnlyOut.ite (fun _ => ?_) (fun _ => ?_)
    | with_reducible refine State.freeBuffer_only _ _ ?_ (by decide)
    | with_reducible refine State.rxFrame_only _ _ ?_ (by decide)
    | with_reducible refine State.rxFrame_only_eq (by assumption) ?_ (by decide)
    | with_reducible refine State.inboxPut_only _ ?_ (by decide)
    | split

theorem execMailMsg_only {N : Nat} {σ s : State} (p : Nat) (raw : List Nat) (hσ : Only N σ s)
    (hN : 0x1c44000000000000000000000000000000000080400000000300000000145000 ||| N = N) : OnlyOut N σ (execMailMsg p raw s) := hσ.outcome (execMailMsg_within p raw s) hN

theorem execForwarding_within (p : Nat) (raw : List Nat) (s : State) :
    OnlyOut 0xc44000000000000000000000000000000000000000000000300000000145000 s (execForwarding p raw s) := by
  unfold execForwarding
  repeat' first
    | with_reducible exact Only.refl _ _
    | with_reducible refine Only.ite (fun _ => ?_) (fun _ => ?_)
    | with_reducible refine Only.foldl ?_ (fun _ _ => ?_)
    | with_reducible refine OnlyOut.next ?_
    | with_reducible refine OnlyOut.ite (fun _ => ?_) (fun _ => ?_)
    | with_reducible refine State.freeBuffer_only _ _ ?_ (by decide)
    | with_reducible refine State.rxFrame_only _ _ ?_ (by decide)
    | with_reducible refine State.rxFrame_only_eq (by assumption) ?_ (by decide)
    | with_reducible refine State.enqueue_only _ _ _ ?_ (by decide)
    | with_reducible refine State.discardFrames_only _ _ ?_ (by decide)
    | split
    | extract_lets

theorem execForwarding_only {N : Nat} {σ s : State} (p : Nat) (raw : List Nat) (hσ : Only N σ s)
    (hN : 0xc44000000000000000000000000000000000000000000000300000000145000 ||| N = N) : OnlyOut N σ (execForwarding p raw s) := hσ.outcome (execForwarding_within p raw s) hN

theorem execBulkStart_within (p : Nat) (raw : List Nat) (s : State) :
    OnlyOut 0xc44000000000000000000000000000000000000000000000300000000145000 s (execBulkStart p raw s) := by
  unfold execBulkStart
  repeat' first
    | with_reducible exact Only.refl _ _
    | with_reducible refine Only.ite (fun _ => ?_) (fun _ => ?_)
    | with_reducible refine Only.foldl ?_ (fun _ _ => ?_)
    | fail_if_no_progress with_reducible refine Only.fields ?_ rfl rfl
    | with_reducible refine OnlyOut.next ?_
    | with_reducible refine OnlyOut.ite (fun _ => ?_) (fun _ => ?_)
    | with_reducible refine State.bulkReply_only _ _ _ _ ?_ (by decide)
    | with_reducible refine State.freeBuffer_only _ _ ?_ (by decide)
    | with_reducible refine State.rxFrame_only _ _ ?_ (by decide)
    | with_reducible refine State.rxFrame_only_eq (by assumption) ?_ (by decide)
    | split

theorem execBulkStart_only {N : Nat} {σ s : State} (p : Nat) (raw : List Nat) (hσ : Only N σ s)
    (hN : 0xc44000000000000000000000000000000000000000000000300000000145000 ||| N = N) : OnlyOut N σ (execBulkStart p raw s) := hσ.outcome (execBulkStart_within p raw s) hN

theorem execBulkData_within (p : Nat) (raw : List Nat) (s : State) :
    OnlyOut 0x200d44000000000000000000000000000000000000000000002300000000145000 s (execBulkData p raw s) := by
  unfold execBulkData
  repeat' first
    | with_reducible exact Only.refl _ _
    | with_reducible refine Only.ite (fun _ => ?_) (fun _ => ?_)
    | with_reducible refine Only.foldl ?_ (fun _ _ => ?_)
    | fail_if_no_progress with_reducible refine Only.fields ?_ rfl rfl
    | with_reducible refine OnlyOut.next ?_
    | with_reducible refine OnlyOut.ite (fun _ => ?_) (fun _ => ?_)
    | with_reducible refine State.dramWrite_only _ _ ?_ (by decide)
    | with_reducible refine State.bulkReply_only _ _ _ _ ?_ (by decide)
    | with_reducible refine State.freeBuffer_only _ _ ?_ (by decide)
    | with_reducible refine State.rxFrame_only _ _ ?_ (by decide)
    | with_reducible refine State.rxFrame_only_eq (by assumption) ?_ (by decide)
    | split
    | extract_lets

theorem execBulkData_only {N : Nat} {σ s : State} (p : Nat) (raw : List Nat) (hσ : Only N σ s)
    (hN : 0x200d44000000000000000000000000000000000000000000002300000000145000 ||| N = N) : OnlyOut N σ (execBulkData p raw s) := hσ.outcome (execBulkData_within p raw s) hN

theorem execBulkDone_within (p : Nat) (raw : List Nat) (s : State) :
    OnlyOut 0xc44000000000000000000000000000000000000000000000340000000145000 s (execBulkDone p raw s) := by
  unfold execBulkDone
  repeat' first
    | with_reducible exact Only.refl _ _
    | with_reducible refine Only.ite (fun _ => ?_) (fun _ => ?_)
    | with_reducible refine Only.foldl ?_ (fun _ _ => ?_)
    | fail_if_no_progress with_reducible refine Only.fields ?_ rfl rfl
    | with_reducible refine OnlyOut.next ?_
    | with_reducible refine OnlyOut.ite (fun _ => ?_) (fun _ => ?_)
    | with_reducible refine State.bulkEnd_only _ _ ?_ (by decide)
    | with_reducible refine State.freeBuffer_only _ _ ?_ (by decide)
    | with_reducible refine State.rxFrame_only _ _ ?_ (by decide)
    | with_reducible refine State.rxFrame_only_eq (by assumption) ?_ (by decide)
    | split

theorem execBulkDone_only {N : Nat} {σ s : State} (p : Nat) (raw : List Nat) (hσ : Only N σ s)
    (hN : 0xc44000000000000000000000000000000000000000000000340000000145000 ||| N = N) : OnlyOut N σ (execBulkDone p raw s) := hσ.outcome (execBulkDone_within p raw s) hN

theorem execEtcheck_within (p : Nat) (raw : List Nat) (partnerAligned : Bool) (s : State) :
    OnlyOut 0xc44000000000000000000000000000000000000000000000700000000145000 s (execEtcheck p raw partnerAligned s) := by
  unfold execEtcheck
  repeat' first
    | with_reducible exact Only.refl _ _
    | with_reducible refine Only.ite (fun _ => ?_) (fun _ => ?_)
    | with_reducible refine Only.foldl ?_ (fun _ _ => ?_)
    | with_reducible refine OnlyOut.next ?_
    | with_reducible refine OnlyOut.ite (fun _ => ?_) (fun _ => ?_)
    | with_reducible refine State.rxFrame_only _ _ ?_ (by decide)
    | with_reducible refine State.rxFrame_only_eq (by assumption) ?_ (by decide)
    | with_reducible refine State.post_only _ _ _ ?_ (by decide)
    | with_reducible refine State.set_only _ _ _ _ ?_ (by decide)
    | with_reducible refine State.hwSet_only _ _ _ ?_ (by decide)
    | split

theorem execEtcheck_only {N : Nat} {σ s : State} (p : Nat) (raw : List Nat) (partnerAligned : Bool) (hσ : Only N σ s)
    (hN : 0xc44000000000000000000000000000000000000000000000700000000145000 ||| N = N) : OnlyOut N σ (execEtcheck p raw partnerAligned s) := hσ.outcome (execEtcheck_within p raw partnerAligned s) hN

theorem execEtcheckSend_within (p : Nat) (s : State) :
    OnlyOut 0x404000000000000000000000000000000000000000000000200000000001000 s (execEtcheckSend p s) := by
  unfold execEtcheckSend
  repeat' first
    | with_reducible exact Only.refl _ _
    | with_reducible refine Only.ite (fun _ => ?_) (fun _ => ?_)
    | with_reducible refine Only.foldl ?_ (fun _ _ => ?_)
    | with_reducible refine OnlyOut.next ?_
    | with_reducible refine OnlyOut.ite (fun _ => ?_) (fun _ => ?_)
    | with_reducible refine State.sendEtcheck_only _ ?_ (by decide)

theorem execEtcheckSend_only {N : Nat} {σ s : State} (p : Nat) (hσ : Only N σ s)
    (hN : 0x404000000000000000000000000000000000000000000000200000000001000 ||| N = N) : OnlyOut N σ (execEtcheckSend p s) := hσ.outcome (execEtcheckSend_within p s) hN

theorem execChangeMsg_within (p : Nat) (raw : List Nat) (s : State) :
    OnlyOut 0xe44000000000000000000000000000000000000000000000300218000d45000 s (execChangeMsg p raw s) := by
  unfold execChangeMsg
  repeat' first
    | with_reducible exact Only.refl _ _
    | with_reducible refine Only.ite (fun _ => ?_) (fun _ => ?_)
    | with_reducible refine Only.foldl ?_ (fun _ _ => ?_)
    | fail_if_no_progress with_reducible refine Only.fields ?_ rfl rfl
    | with_reducible refine OnlyOut.next ?_
    | with_reducible refine OnlyOut.ite (fun _ => ?_) (fun _ => ?_)
    | with_reducible refine State.loseLockstep_only  ?_ (by decide)
    | with_reducible refine State.applyChange_only _ _ ?_ (by decide)
    | with_reducible refine State.rxFrame_only _ _ ?_ (by decide)
    | with_reducible refine State.rxFrame_only_eq (by assumption) ?_ (by decide)
    | with_reducible refine State.forwardBcast_only _ _ ?_ (by decide)
    | split

theorem execChangeMsg_only {N : Nat} {σ s : State} (p : Nat) (raw : List Nat) (hσ : Only N σ s)
    (hN : 0xe44000000000000000000000000000000000000000000000300218000d45000 ||| N = N) : OnlyOut N σ (execChangeMsg p raw s) := hσ.outcome (execChangeMsg_within p raw s) hN

theorem execCheckMsg_within (p : Nat) (raw : List Nat) (s : State) :
    OnlyOut 0xe44000000000000000000000000000000000000000000000300218000d45000 s (execCheckMsg p raw s) := by
  unfold execCheckMsg
  repeat' first
    | with_reducible exact Only.refl _ _
    | with_reducible refine Only.ite (fun _ => ?_) (fun _ => ?_)
    | with_reducible refine Only.foldl ?_ (fun _ _ => ?_)
    | fail_if_no_progress with_reducible refine Only.fields ?_ rfl rfl
    | with_reducible refine OnlyOut.next ?_
    | with_reducible refine OnlyOut.ite (fun _ => ?_) (fun _ => ?_)
    | with_reducible refine State.takeCheck_only  ?_ (by decide)
    | with_reducible refine State.rxFrame_only _ _ ?_ (by decide)
    | with_reducible refine State.rxFrame_only_eq (by assumption) ?_ (by decide)
    | with_reducible refine State.forwardBcast_only _ _ ?_ (by decide)
    | split

theorem execCheckMsg_only {N : Nat} {σ s : State} (p : Nat) (raw : List Nat) (hσ : Only N σ s)
    (hN : 0xe44000000000000000000000000000000000000000000000300218000d45000 ||| N = N) : OnlyOut N σ (execCheckMsg p raw s) := hσ.outcome (execCheckMsg_within p raw s) hN

theorem execGfSet_within (i : Nat) (src : Src) (s : State) :
    OnlyOut 0x404000000000000000000000000000000000000000000000001000000001000 s (execGfSet i src s) := by
  unfold execGfSet
  repeat' first
    | with_reducible exact Only.refl _ _
    | with_reducible refine Only.ite (fun _ => ?_) (fun _ => ?_)
    | with_reducible refine Only.foldl ?_ (fun _ _ => ?_)
    | with_reducible refine OnlyOut.next ?_
    | with_reducible refine OnlyOut.ite (fun _ => ?_) (fun _ => ?_)
    | with_reducible refine State.gfOp_only _ _ _ _ ?_ (by decide)

theorem execGfSet_only {N : Nat} {σ s : State} (i : Nat) (src : Src) (hσ : Only N σ s)
    (hN : 0x404000000000000000000000000000000000000000000000001000000001000 ||| N = N) : OnlyOut N σ (execGfSet i src s) := hσ.outcome (execGfSet_within i src s) hN

theorem execGfClear_within (i : Nat) (src : Src) (s : State) :
    OnlyOut 0x404000000000000000000000000000000000000000000000001000000001000 s (execGfClear i src s) := by
  unfold execGfClear
  repeat' first
    | with_reducible exact Only.refl _ _
    | with_reducible refine Only.ite (fun _ => ?_) (fun _ => ?_)
    | with_reducible refine Only.foldl ?_ (fun _ _ => ?_)
    | with_reducible refine OnlyOut.next ?_
    | with_reducible refine OnlyOut.ite (fun _ => ?_) (fun _ => ?_)
    | with_reducible refine State.gfOp_only _ _ _ _ ?_ (by decide)

theorem execGfClear_only {N : Nat} {σ s : State} (i : Nat) (src : Src) (hσ : Only N σ s)
    (hN : 0x404000000000000000000000000000000000000000000000001000000001000 ||| N = N) : OnlyOut N σ (execGfClear i src s) := hσ.outcome (execGfClear_within i src s) hN

theorem execGfReset_within (src : Src) (s : State) :
    OnlyOut 0x404000000000000000000000000000000000000000000000001000000000000 s (execGfReset src s) := by
  unfold execGfReset
  repeat' first
    | with_reducible exact Only.refl _ _
    | with_reducible refine Only.ite (fun _ => ?_) (fun _ => ?_)
    | with_reducible refine Only.foldl ?_ (fun _ _ => ?_)
    | with_reducible refine OnlyOut.next ?_
    | with_reducible refine OnlyOut.ite (fun _ => ?_) (fun _ => ?_)
    | with_reducible refine State.gfResetOp_only _ _ ?_ (by decide)

theorem execGfReset_only {N : Nat} {σ s : State} (src : Src) (hσ : Only N σ s)
    (hN : 0x404000000000000000000000000000000000000000000000001000000000000 ||| N = N) : OnlyOut N σ (execGfReset src s) := hσ.outcome (execGfReset_within src s) hN

theorem State.bulkGo_within (s : State) (i : Nat) (length : Nat) :
    Only 0xc44000000000000000000000000000000000000000000000240000000145000 s (State.bulkGo s i length) := by
  unfold State.bulkGo
  repeat' first
    | with_reducible exact Only.refl _ _
    | with_reducible refine Only.ite (fun _ => ?_) (fun _ => ?_)
    | with_reducible refine Only.foldl ?_ (fun _ _ => ?_)
    | fail_if_no_progress with_reducible refine Only.fields ?_ rfl rfl
    | with_reducible refine State.bulkEnd_only _ _ ?_ (by decide)
    | with_reducible refine State.unicast_only _ _ _ _ _ _ ?_ (by decide)
    | with_reducible refine State.set_only _ _ _ _ ?_ (by decide)
    | split

theorem State.bulkGo_only {N : Nat} {σ s : State} (i : Nat) (length : Nat) (hσ : Only N σ s)
    (hN : 0xc44000000000000000000000000000000000000000000000240000000145000 ||| N = N) : Only N σ (State.bulkGo s i length) := hσ.step (State.bulkGo_within s i length) hN

theorem execBulkGo_within (i : Nat) (length : Nat) (s : State) :
    OnlyOut 0xc44000000000000000000000000000000000000000000000240000000145000 s (execBulkGo i length s) := by
  unfold execBulkGo
  repeat' first
    | with_reducible exact Only.refl _ _
    | with_reducible refine Only.ite (fun _ => ?_) (fun _ => ?_)
    | with_reducible refine Only.foldl ?_ (fun _ _ => ?_)
    | with_reducible refine OnlyOut.next ?_
    | with_reducible refine OnlyOut.ite (fun _ => ?_) (fun _ => ?_)
    | with_reducible refine State.bulkGo_only _ _ ?_ (by decide)

theorem execBulkGo_only {N : Nat} {σ s : State} (i : Nat) (length : Nat) (hσ : Only N σ s)
    (hN : 0xc44000000000000000000000000000000000000000000000240000000145000 ||| N = N) : OnlyOut N σ (execBulkGo i length s) := hσ.outcome (execBulkGo_within i length s) hN

end Sys2Proof.Machine
end

