-- ==== Sys2Proof/Laws/Frame/Paging.lean ====
section
/-!
SUPPORT. Paging.lean: what each operation of Machine/Paging.lean can change (see Only).
-/
namespace Sys2Proof.Machine
set_option Elab.async false

theorem State.rebuild_within (s : State) :
    Only 0x800844000000000000000000000000000000000000000080000000000000145000 s (State.rebuild s) := by
  unfold State.rebuild
  repeat' first
    | with_reducible exact Only.refl _ _
    | with_reducible refine Only.ite (fun _ => ?_) (fun _ => ?_)
    | with_reducible refine Only.foldl ?_ (fun _ _ => ?_)
    | fail_if_no_progress with_reducible refine Only.fields ?_ rfl rfl
    | with_reducible refine State.completePush_only _ _ _ ?_ (by decide)
    | with_reducible refine State.set_only _ _ _ _ ?_ (by decide)

theorem State.rebuild_only {N : Nat} {σ s : State}  (hσ : Only N σ s)
    (hN : 0x800844000000000000000000000000000000000000000080000000000000145000 ||| N = N) : Only N σ (State.rebuild s) := hσ.step (State.rebuild_within s) hN

theorem execRebuild_within (s : State) :
    OnlyOut 0x800844000000000000000000000000000000000000000080000000000000145000 s (execRebuild s) := by
  unfold execRebuild
  repeat' first
    | with_reducible exact Only.refl _ _
    | with_reducible refine Only.ite (fun _ => ?_) (fun _ => ?_)
    | with_reducible refine Only.foldl ?_ (fun _ _ => ?_)
    | with_reducible refine OnlyOut.next ?_
    | with_reducible refine OnlyOut.ite (fun _ => ?_) (fun _ => ?_)
    | with_reducible refine State.rebuild_only  ?_ (by decide)
    | with_reducible refine State.hwSet_only _ _ _ ?_ (by decide)

theorem execRebuild_only {N : Nat} {σ s : State}  (hσ : Only N σ s)
    (hN : 0x800844000000000000000000000000000000000000000080000000000000145000 ||| N = N) : OnlyOut N σ (execRebuild s) := hσ.outcome (execRebuild_within s) hN

theorem execRebuildDone_within (s : State) :
    OnlyOut 0x80000000000000000000 s (execRebuildDone s) := by
  unfold execRebuildDone
  repeat' first
    | with_reducible exact Only.refl _ _
    | with_reducible refine Only.ite (fun _ => ?_) (fun _ => ?_)
    | with_reducible refine Only.foldl ?_ (fun _ _ => ?_)
    | with_reducible refine OnlyOut.next ?_
    | with_reducible refine OnlyOut.ite (fun _ => ?_) (fun _ => ?_)
    | with_reducible refine State.set_only _ _ _ _ ?_ (by decide)

theorem execRebuildDone_only {N : Nat} {σ s : State}  (hσ : Only N σ s)
    (hN : 0x80000000000000000000 ||| N = N) : OnlyOut N σ (execRebuildDone s) := hσ.outcome (execRebuildDone_within s) hN

theorem State.winRead_within (s : State) (g : Nat) :
    Only 0x400000000000000000000 s (State.winRead s g) := by
  unfold State.winRead
  repeat' first
    | with_reducible exact Only.refl _ _
    | with_reducible refine Only.ite (fun _ => ?_) (fun _ => ?_)
    | with_reducible refine Only.foldl ?_ (fun _ _ => ?_)
    | with_reducible refine State.wr_only _ _ ?_ (by (dsimp only; decide))

theorem State.winRead_only {N : Nat} {σ s : State} (g : Nat) (hσ : Only N σ s)
    (hN : 0x400000000000000000000 ||| N = N) : Only N σ (State.winRead s g) := hσ.step (State.winRead_within s g) hN

theorem execWinRead_within (page : Nat) (s : State) :
    OnlyOut 0x400000000000000000000 s (execWinRead page s) := by
  unfold execWinRead
  repeat' first
    | with_reducible exact Only.refl _ _
    | with_reducible refine Only.ite (fun _ => ?_) (fun _ => ?_)
    | with_reducible refine Only.foldl ?_ (fun _ _ => ?_)
    | with_reducible refine OnlyOut.next ?_
    | with_reducible refine OnlyOut.ite (fun _ => ?_) (fun _ => ?_)
    | with_reducible refine State.winRead_only _ ?_ (by decide)

theorem execWinRead_only {N : Nat} {σ s : State} (page : Nat) (hσ : Only N σ s)
    (hN : 0x400000000000000000000 ||| N = N) : OnlyOut N σ (execWinRead page s) := hσ.outcome (execWinRead_within page s) hN

theorem State.winWrite_within (s : State) (g : Nat) :
    Only 0x804844000000000000000000000000000000000000000200000000000000145000 s (State.winWrite s g) := by
  unfold State.winWrite
  repeat' first
    | with_reducible exact Only.refl _ _
    | with_reducible refine Only.ite (fun _ => ?_) (fun _ => ?_)
    | with_reducible refine Only.foldl ?_ (fun _ _ => ?_)
    | with_reducible refine State.windowWrite_only _ _ _ ?_ (by decide)

theorem State.winWrite_only {N : Nat} {σ s : State} (g : Nat) (hσ : Only N σ s)
    (hN : 0x804844000000000000000000000000000000000000000200000000000000145000 ||| N = N) : Only N σ (State.winWrite s g) := hσ.step (State.winWrite_within s g) hN

theorem execWinWrite_within (page : Nat) (s : State) :
    OnlyOut 0x804844000000000000000000000000000000000000000200000000000000145000 s (execWinWrite page s) := by
  unfold execWinWrite
  repeat' first
    | with_reducible exact Only.refl _ _
    | with_reducible refine Only.ite (fun _ => ?_) (fun _ => ?_)
    | with_reducible refine Only.foldl ?_ (fun _ _ => ?_)
    | with_reducible refine OnlyOut.next ?_
    | with_reducible refine OnlyOut.ite (fun _ => ?_) (fun _ => ?_)
    | with_reducible refine State.winWrite_only _ ?_ (by decide)

theorem execWinWrite_only {N : Nat} {σ s : State} (page : Nat) (hσ : Only N σ s)
    (hN : 0x804844000000000000000000000000000000000000000200000000000000145000 ||| N = N) : OnlyOut N σ (execWinWrite page s) := hσ.outcome (execWinWrite_within page s) hN

theorem execLoadStart_within (s : State) :
    OnlyOut 0x800044000000000000000000000000000000000000000880000000000000001000 s (execLoadStart s) := by
  unfold execLoadStart
  repeat' first
    | with_reducible exact Only.refl _ _
    | with_reducible refine Only.ite (fun _ => ?_) (fun _ => ?_)
    | with_reducible refine Only.foldl ?_ (fun _ _ => ?_)
    | with_reducible refine OnlyOut.next ?_
    | with_reducible refine OnlyOut.ite (fun _ => ?_) (fun _ => ?_)
    | with_reducible refine State.startLoad_only _ ?_ (by decide)
    | split

theorem execLoadStart_only {N : Nat} {σ s : State}  (hσ : Only N σ s)
    (hN : 0x800044000000000000000000000000000000000000000880000000000000001000 ||| N = N) : OnlyOut N σ (execLoadStart s) := hσ.outcome (execLoadStart_within s) hN

theorem execLoadComplete_within (page : Nat) (data : List Nat) (s : State) :
    OnlyOut 0xa00944000000000000000000000000000000000000001800002000000000145000 s (execLoadComplete page data s) := by
  unfold execLoadComplete
  repeat' first
    | with_reducible exact Only.refl _ _
    | with_reducible refine Only.ite (fun _ => ?_) (fun _ => ?_)
    | with_reducible refine Only.foldl ?_ (fun _ _ => ?_)
    | with_reducible refine OnlyOut.next ?_
    | with_reducible refine OnlyOut.ite (fun _ => ?_) (fun _ => ?_)
    | with_reducible refine State.loadFailed_only _ _ ?_ (by decide)
    | with_reducible refine State.loaded_only _ _ ?_ (by decide)

theorem execLoadComplete_only {N : Nat} {σ s : State} (page : Nat) (data : List Nat) (hσ : Only N σ s)
    (hN : 0xa00944000000000000000000000000000000000000001800002000000000145000 ||| N = N) : OnlyOut N σ (execLoadComplete page data s) := hσ.outcome (execLoadComplete_within page data s) hN

theorem execLoadErr_within (page : Nat) (cause : Nat) (s : State) :
    OnlyOut 0x800844000000000000000000000000000000000000001000000000000000145000 s (execLoadErr page cause s) := by
  unfold execLoadErr
  repeat' first
    | with_reducible exact Only.refl _ _
    | with_reducible refine Only.ite (fun _ => ?_) (fun _ => ?_)
    | with_reducible refine Only.foldl ?_ (fun _ _ => ?_)
    | with_reducible refine OnlyOut.next ?_
    | with_reducible refine OnlyOut.ite (fun _ => ?_) (fun _ => ?_)
    | with_reducible refine State.loadFailed_only _ _ ?_ (by decide)

theorem execLoadErr_only {N : Nat} {σ s : State} (page : Nat) (cause : Nat) (hσ : Only N σ s)
    (hN : 0x800844000000000000000000000000000000000000001000000000000000145000 ||| N = N) : OnlyOut N σ (execLoadErr page cause s) := hσ.outcome (execLoadErr_within page cause s) hN

theorem execLookahead_within (q : Nat) (arrived : List Nat) (s : State) :
    OnlyOut 0x804000000000000000000000000000000000000000000000000000000000000000 s (execLookahead q arrived s) := by
  unfold execLookahead
  repeat' first
    | with_reducible exact Only.refl _ _
    | with_reducible refine Only.ite (fun _ => ?_) (fun _ => ?_)
    | with_reducible refine Only.foldl ?_ (fun _ _ => ?_)
    | with_reducible refine OnlyOut.next ?_
    | with_reducible refine OnlyOut.ite (fun _ => ?_) (fun _ => ?_)
    | with_reducible refine State.lookStep_only _ _ ?_ (by decide)

theorem execLookahead_only {N : Nat} {σ s : State} (q : Nat) (arrived : List Nat) (hσ : Only N σ s)
    (hN : 0x804000000000000000000000000000000000000000000000000000000000000000 ||| N = N) : OnlyOut N σ (execLookahead q arrived s) := hσ.outcome (execLookahead_within q arrived s) hN

theorem execPrefetchFill_within (q : Nat) (s : State) :
    OnlyOut 0xa0484400002000000000000000000000000000000000003080a000000000145000 s (execPrefetchFill q s) := by
  unfold execPrefetchFill
  repeat' first
    | with_reducible exact Only.refl _ _
    | with_reducible refine Only.ite (fun _ => ?_) (fun _ => ?_)
    | with_reducible refine Only.foldl ?_ (fun _ _ => ?_)
    | with_reducible refine OnlyOut.next ?_
    | with_reducible refine OnlyOut.ite (fun _ => ?_) (fun _ => ?_)
    | with_reducible refine State.updatePanic_only  ?_ (by decide)
    | with_reducible refine State.fillStep_only _ ?_ (by decide)

theorem execPrefetchFill_only {N : Nat} {σ s : State} (q : Nat) (hσ : Only N σ s)
    (hN : 0xa0484400002000000000000000000000000000000000003080a000000000145000 ||| N = N) : OnlyOut N σ (execPrefetchFill q s) := hσ.outcome (execPrefetchFill_within q s) hN

theorem State.stallResume_within (s : State) (q : Nat) (ct : Nat) :
    Only 0x4000000000000000000000000000000000000000000000000000000000000000 s (State.stallResume s q ct) := by
  unfold State.stallResume
  repeat' first
    | with_reducible exact Only.refl _ _
    | with_reducible refine Only.ite (fun _ => ?_) (fun _ => ?_)
    | with_reducible refine Only.foldl ?_ (fun _ _ => ?_)
    | with_reducible refine State.setSeqX_only _ _ ?_ (by decide)

theorem State.stallResume_only {N : Nat} {σ s : State} (q : Nat) (ct : Nat) (hσ : Only N σ s)
    (hN : 0x4000000000000000000000000000000000000000000000000000000000000000 ||| N = N) : Only N σ (State.stallResume s q ct) := hσ.step (State.stallResume_within s q ct) hN

theorem execStallResume_within (q : Nat) (ct : Nat) (s : State) :
    OnlyOut 0x4000000000000000000000000000000000000000000000000000000000000000 s (execStallResume q ct s) := by
  unfold execStallResume
  repeat' first
    | with_reducible exact Only.refl _ _
    | with_reducible refine Only.ite (fun _ => ?_) (fun _ => ?_)
    | with_reducible refine Only.foldl ?_ (fun _ _ => ?_)
    | with_reducible refine OnlyOut.next ?_
    | with_reducible refine OnlyOut.ite (fun _ => ?_) (fun _ => ?_)
    | with_reducible refine State.stallResume_only _ _ ?_ (by decide)

theorem execStallResume_only {N : Nat} {σ s : State} (q : Nat) (ct : Nat) (hσ : Only N σ s)
    (hN : 0x4000000000000000000000000000000000000000000000000000000000000000 ||| N = N) : OnlyOut N σ (execStallResume q ct s) := hσ.outcome (execStallResume_within q ct s) hN

theorem execStallLimit_within (q : Nat) (s : State) :
    OnlyOut 0x2d74844004001a4c030007000000000000200000000000000000000000000145000 s (execStallLimit q s) := by
  unfold execStallLimit
  repeat' first
    | with_reducible exact Only.refl _ _
    | with_reducible refine Only.ite (fun _ => ?_) (fun _ => ?_)
    | with_reducible refine Only.foldl ?_ (fun _ _ => ?_)
    | with_reducible refine OnlyOut.next ?_
    | with_reducible refine OnlyOut.ite (fun _ => ?_) (fun _ => ?_)
    | with_reducible refine State.requestStop_only _ _ _ _ ?_ (by decide)

theorem execStallLimit_only {N : Nat} {σ s : State} (q : Nat) (hσ : Only N σ s)
    (hN : 0x2d74844004001a4c030007000000000000200000000000000000000000000145000 ||| N = N) : OnlyOut N σ (execStallLimit q s) := hσ.outcome (execStallLimit_within q s) hN

theorem execUnderrunClear_within (q : Nat) (s : State) :
    OnlyOut 0x4000000800000000000000000000000000000000000000000000000001000 s (execUnderrunClear q s) := by
  unfold execUnderrunClear
  repeat' first
    | with_reducible exact Only.refl _ _
    | with_reducible refine Only.ite (fun _ => ?_) (fun _ => ?_)
    | with_reducible refine Only.foldl ?_ (fun _ _ => ?_)
    | with_reducible refine OnlyOut.next ?_
    | with_reducible refine OnlyOut.ite (fun _ => ?_) (fun _ => ?_)
    | with_reducible refine State.set_only _ _ _ _ ?_ (by decide)
    | with_reducible refine State.clear_only _ _ _ ?_ (by decide)

theorem execUnderrunClear_only {N : Nat} {σ s : State} (q : Nat) (hσ : Only N σ s)
    (hN : 0x4000000800000000000000000000000000000000000000000000000001000 ||| N = N) : OnlyOut N σ (execUnderrunClear q s) := hσ.outcome (execUnderrunClear_within q s) hN

theorem execStallTimeClear_within (q : Nat) (s : State) :
    OnlyOut 0x4000010000000000000000000000000000000000000000000000000001000 s (execStallTimeClear q s) := by
  unfold execStallTimeClear
  repeat' first
    | with_reducible exact Only.refl _ _
    | with_reducible refine Only.ite (fun _ => ?_) (fun _ => ?_)
    | with_reducible refine Only.foldl ?_ (fun _ _ => ?_)
    | with_reducible refine OnlyOut.next ?_
    | with_reducible refine OnlyOut.ite (fun _ => ?_) (fun _ => ?_)
    | with_reducible refine State.clear_only _ _ _ ?_ (by decide)

theorem execStallTimeClear_only {N : Nat} {σ s : State} (q : Nat) (hσ : Only N σ s)
    (hN : 0x4000010000000000000000000000000000000000000000000000000001000 ||| N = N) : OnlyOut N σ (execStallTimeClear q s) := hσ.outcome (execStallTimeClear_within q s) hN

theorem execLcacheStatClear_within (q : Nat) (s : State) :
    OnlyOut 0x4000020000000000000000000000000000000000000000000000000001000 s (execLcacheStatClear q s) := by
  unfold execLcacheStatClear
  repeat' first
    | with_reducible exact Only.refl _ _
    | with_reducible refine Only.ite (fun _ => ?_) (fun _ => ?_)
    | with_reducible refine Only.foldl ?_ (fun _ _ => ?_)
    | with_reducible refine OnlyOut.next ?_
    | with_reducible refine OnlyOut.ite (fun _ => ?_) (fun _ => ?_)
    | with_reducible refine State.set_only _ _ _ _ ?_ (by decide)
    | with_reducible refine State.clear_only _ _ _ ?_ (by decide)

theorem execLcacheStatClear_only {N : Nat} {σ s : State} (q : Nat) (hσ : Only N σ s)
    (hN : 0x4000020000000000000000000000000000000000000000000000000001000 ||| N = N) : OnlyOut N σ (execLcacheStatClear q s) := hσ.outcome (execLcacheStatClear_within q s) hN

theorem execLoadStatClear_within (s : State) :
    OnlyOut 0x4000000000000000000000000000000000000000800000000000000001000 s (execLoadStatClear s) := by
  unfold execLoadStatClear
  repeat' first
    | with_reducible exact Only.refl _ _
    | with_reducible refine Only.ite (fun _ => ?_) (fun _ => ?_)
    | with_reducible refine Only.foldl ?_ (fun _ _ => ?_)
    | with_reducible refine OnlyOut.next ?_
    | with_reducible refine OnlyOut.ite (fun _ => ?_) (fun _ => ?_)
    | with_reducible refine State.set_only _ _ _ _ ?_ (by decide)
    | with_reducible refine State.clear_only _ _ _ ?_ (by decide)

theorem execLoadStatClear_only {N : Nat} {σ s : State}  (hσ : Only N σ s)
    (hN : 0x4000000000000000000000000000000000000000800000000000000001000 ||| N = N) : OnlyOut N σ (execLoadStatClear s) := hσ.outcome (execLoadStatClear_within s) hN

theorem execPgtErrStatClear_within (s : State) :
    OnlyOut 0x4000000000000000000000000000000000000001000000000000000001000 s (execPgtErrStatClear s) := by
  unfold execPgtErrStatClear
  repeat' first
    | with_reducible exact Only.refl _ _
    | with_reducible refine Only.ite (fun _ => ?_) (fun _ => ?_)
    | with_reducible refine Only.foldl ?_ (fun _ _ => ?_)
    | with_reducible refine OnlyOut.next ?_
    | with_reducible refine OnlyOut.ite (fun _ => ?_) (fun _ => ?_)
    | with_reducible refine State.set_only _ _ _ _ ?_ (by decide)
    | with_reducible refine State.clear_only _ _ _ ?_ (by decide)

theorem execPgtErrStatClear_only {N : Nat} {σ s : State}  (hσ : Only N σ s)
    (hN : 0x4000000000000000000000000000000000000001000000000000000001000 ||| N = N) : OnlyOut N σ (execPgtErrStatClear s) := hσ.outcome (execPgtErrStatClear_within s) hN

end Sys2Proof.Machine
end

