-- ==== Sys2Proof/Laws/Frame/OpsView.lean ====
section
/-!
SUPPORT. OpsView.lean: what each operation of Machine/OpsView.lean can change (see Only).
-/
namespace Sys2Proof.Machine
set_option Elab.async false

end Sys2Proof.Machine
end

