-- ==== Sys2Proof/Laws/Frame/Ras.lean ====
section
/-!
SUPPORT. Ras.lean: what each operation of Machine/Ras.lean can change (see Only).
-/
namespace Sys2Proof.Machine
set_option Elab.async false

theorem execSeqReset_within (q : Nat) (src : Src) (s : State) :
    OnlyOut 0x22d54844004000800010001000000000000200000000000000000000000000145000 s (execSeqReset q src s) := by
  unfold execSeqReset
  repeat' first
    | with_reducible exact Only.refl _ _
    | with_reducible refine Only.ite (fun _ => ?_) (fun _ => ?_)
    | with_reducible refine Only.foldl ?_ (fun _ _ => ?_)
    | with_reducible refine OnlyOut.next ?_
    | with_reducible refine OnlyOut.ite (fun _ => ?_) (fun _ => ?_)
    | with_reducible refine State.seqReset_only _ _ ?_ (by decide)

theorem execSeqReset_only {N : Nat} {σ s : State} (q : Nat) (src : Src) (hσ : Only N σ s)
    (hN : 0x22d54844004000800010001000000000000200000000000000000000000000145000 ||| N = N) : OnlyOut N σ (execSeqReset q src s) := hσ.outcome (execSeqReset_within q src s) hN

theorem execSeqResetDone_within (q : Nat) (s : State) :
    OnlyOut 0x20804000000000000000001000000000000000000000000000000000000000000000 s (execSeqResetDone q s) := by
  unfold execSeqResetDone
  repeat' first
    | with_reducible exact Only.refl _ _
    | with_reducible refine Only.ite (fun _ => ?_) (fun _ => ?_)
    | with_reducible refine Only.foldl ?_ (fun _ _ => ?_)
    | with_reducible refine OnlyOut.next ?_
    | with_reducible refine OnlyOut.ite (fun _ => ?_) (fun _ => ?_)
    | with_reducible refine State.seqResetDone_only _ ?_ (by decide)

theorem execSeqResetDone_only {N : Nat} {σ s : State} (q : Nat) (hσ : Only N σ s)
    (hN : 0x20804000000000000000001000000000000000000000000000000000000000000000 ||| N = N) : OnlyOut N σ (execSeqResetDone q s) := hσ.outcome (execSeqResetDone_within q s) hN

theorem execBayReset_within (b : Nat) (src : Src) (s : State) :
    OnlyOut 0x3f55484400400024c8000003ffffffffffffff041200000000000000000000145000 s (execBayReset b src s) := by
  unfold execBayReset
  repeat' first
    | with_reducible exact Only.refl _ _
    | with_reducible refine Only.ite (fun _ => ?_) (fun _ => ?_)
    | with_reducible refine Only.foldl ?_ (fun _ _ => ?_)
    | with_reducible refine OnlyOut.next ?_
    | with_reducible refine OnlyOut.ite (fun _ => ?_) (fun _ => ?_)
    | with_reducible refine State.bayReset_only _ _ _ ?_ (by decide)

theorem execBayReset_only {N : Nat} {σ s : State} (b : Nat) (src : Src) (hσ : Only N σ s)
    (hN : 0x3f55484400400024c8000003ffffffffffffff041200000000000000000000145000 ||| N = N) : OnlyOut N σ (execBayReset b src s) := hσ.outcome (execBayReset_within b src s) hN

theorem execBayResetDone_within (b : Nat) (slices : Nat) (failed : List Nat) (s : State) :
    OnlyOut 0x100008440000000000000003e0000000020402041600000000000000000000145000 s (execBayResetDone b slices failed s) := by
  unfold execBayResetDone
  repeat' first
    | with_reducible exact Only.refl _ _
    | with_reducible refine Only.ite (fun _ => ?_) (fun _ => ?_)
    | with_reducible refine Only.foldl ?_ (fun _ _ => ?_)
    | with_reducible refine OnlyOut.next ?_
    | with_reducible refine OnlyOut.ite (fun _ => ?_) (fun _ => ?_)
    | with_reducible refine State.sliceTest_only _ _ ?_ (by decide)
    | with_reducible refine State.loadCal_only _ _ ?_ (by decide)
    | with_reducible refine State.post_only _ _ _ ?_ (by decide)
    | with_reducible refine State.putMask_only _ _ _ _ _ ?_ (by decide)

theorem execBayResetDone_only {N : Nat} {σ s : State} (b : Nat) (slices : Nat) (failed : List Nat) (hσ : Only N σ s)
    (hN : 0x100008440000000000000003e0000000020402041600000000000000000000145000 ||| N = N) : OnlyOut N σ (execBayResetDone b slices failed s) := hσ.outcome (execBayResetDone_within b slices failed s) hN

theorem execWarm_within (key : Nat) (s : State) :
    OnlyOut 0x7ffffffe01ffffffffffffffffffffffffffffffffffffffffffffffffffffffffff s (execWarm key s) := by
  unfold execWarm
  repeat' first
    | with_reducible exact Only.refl _ _
    | with_reducible refine Only.ite (fun _ => ?_) (fun _ => ?_)
    | with_reducible refine Only.foldl ?_ (fun _ _ => ?_)
    | with_reducible refine OnlyOut.next ?_
    | with_reducible refine OnlyOut.ite (fun _ => ?_) (fun _ => ?_)
    | with_reducible refine State.requestReset_only _ ?_ (by decide)

theorem execWarm_only {N : Nat} {σ s : State} (key : Nat) (hσ : Only N σ s)
    (hN : 0x7ffffffe01ffffffffffffffffffffffffffffffffffffffffffffffffffffffffff ||| N = N) : OnlyOut N σ (execWarm key s) := hσ.outcome (execWarm_within key s) hN

theorem execFunctionLevelReset_within (s : State) :
    OnlyOut 0x7ffffffe01ffffffffffffffffffffffffffffffffffffffffffffffffffffffffff s (execFunctionLevelReset s) := by
  unfold execFunctionLevelReset
  repeat' first
    | with_reducible exact Only.refl _ _
    | with_reducible refine Only.ite (fun _ => ?_) (fun _ => ?_)
    | with_reducible refine Only.foldl ?_ (fun _ _ => ?_)
    | with_reducible refine OnlyOut.next ?_
    | with_reducible refine OnlyOut.ite (fun _ => ?_) (fun _ => ?_)
    | with_reducible refine State.requestReset_only _ ?_ (by decide)

theorem execFunctionLevelReset_only {N : Nat} {σ s : State}  (hσ : Only N σ s)
    (hN : 0x7ffffffe01ffffffffffffffffffffffffffffffffffffffffffffffffffffffffff ||| N = N) : OnlyOut N σ (execFunctionLevelReset s) := hσ.outcome (execFunctionLevelReset_within s) hN

theorem execD3hotToD0_within (s : State) :
    OnlyOut 0x7ffffffe01ffffffffffffffffffffffffffffffffffffffffffffffffffffffffff s (execD3hotToD0 s) := by
  unfold execD3hotToD0
  repeat' first
    | with_reducible exact Only.refl _ _
    | with_reducible refine Only.ite (fun _ => ?_) (fun _ => ?_)
    | with_reducible refine Only.foldl ?_ (fun _ _ => ?_)
    | with_reducible refine OnlyOut.next ?_
    | with_reducible refine OnlyOut.ite (fun _ => ?_) (fun _ => ?_)
    | with_reducible refine State.requestReset_only _ ?_ (by decide)

theorem execD3hotToD0_only {N : Nat} {σ s : State}  (hσ : Only N σ s)
    (hN : 0x7ffffffe01ffffffffffffffffffffffffffffffffffffffffffffffffffffffffff ||| N = N) : OnlyOut N σ (execD3hotToD0 s) := hσ.outcome (execD3hotToD0_within s) hN

theorem execPerst_within (s : State) :
    OnlyOut 0x7ffffffe01ffffffffffffffffffffffffffffffffffffffffffffffffffffffffff s (execPerst s) := by
  unfold execPerst
  repeat' first
    | with_reducible exact Only.refl _ _
    | with_reducible refine Only.ite (fun _ => ?_) (fun _ => ?_)
    | with_reducible refine Only.foldl ?_ (fun _ _ => ?_)
    | with_reducible refine OnlyOut.next ?_
    | with_reducible refine OnlyOut.ite (fun _ => ?_) (fun _ => ?_)
    | with_reducible refine State.requestReset_only _ ?_ (by decide)

theorem execPerst_only {N : Nat} {σ s : State}  (hσ : Only N σ s)
    (hN : 0x7ffffffe01ffffffffffffffffffffffffffffffffffffffffffffffffffffffffff ||| N = N) : OnlyOut N σ (execPerst s) := hσ.outcome (execPerst_within s) hN

theorem execPowerOn_within (s : State) :
    OnlyOut 0x7ffffffe01ffffffffffffffffffffffffffffffffffffffffffffffffffffffffff s (execPowerOn s) := by
  unfold execPowerOn
  repeat' first
    | with_reducible exact Only.refl _ _
    | with_reducible refine Only.ite (fun _ => ?_) (fun _ => ?_)
    | with_reducible refine Only.foldl ?_ (fun _ _ => ?_)
    | with_reducible refine OnlyOut.next ?_
    | with_reducible refine OnlyOut.ite (fun _ => ?_) (fun _ => ?_)
    | with_reducible refine State.deviceReset_only _ ?_ (by decide)

theorem execPowerOn_only {N : Nat} {σ s : State}  (hσ : Only N σ s)
    (hN : 0x7ffffffe01ffffffffffffffffffffffffffffffffffffffffffffffffffffffffff ||| N = N) : OnlyOut N σ (execPowerOn s) := hσ.outcome (execPowerOn_within s) hN

theorem execHostReady_within (slices : List Nat) (failed : List Nat) (s : State) :
    OnlyOut 0x300008440000000000000003e0000000020402041600000000000000000000145000 s (execHostReady slices failed s) := by
  unfold execHostReady
  repeat' first
    | with_reducible exact Only.refl _ _
    | with_reducible refine Only.ite (fun _ => ?_) (fun _ => ?_)
    | with_reducible refine Only.foldl ?_ (fun _ _ => ?_)
    | fail_if_no_progress with_reducible refine Only.fields ?_ rfl rfl
    | with_reducible refine OnlyOut.next ?_
    | with_reducible refine OnlyOut.ite (fun _ => ?_) (fun _ => ?_)
    | with_reducible refine State.sliceTest_only _ _ ?_ (by decide)
    | with_reducible refine State.loadCal_only _ _ ?_ (by decide)
    | with_reducible refine State.showStore_only  ?_ (by decide)
    | with_reducible refine State.set_only _ _ _ _ ?_ (by decide)

theorem execHostReady_only {N : Nat} {σ s : State} (slices : List Nat) (failed : List Nat) (hσ : Only N σ s)
    (hN : 0x300008440000000000000003e0000000020402041600000000000000000000145000 ||| N = N) : OnlyOut N σ (execHostReady slices failed s) := hσ.outcome (execHostReady_within slices failed s) hN

theorem execRailFault_within (rail : Nat) (s : State) :
    OnlyOut 0x7ffffffe01ffffffffffffffffffffffffffffffffffffffffffffffffffffffffff s (execRailFault rail s) := by
  unfold execRailFault
  repeat' first
    | with_reducible exact Only.refl _ _
    | with_reducible refine Only.ite (fun _ => ?_) (fun _ => ?_)
    | with_reducible refine Only.foldl ?_ (fun _ _ => ?_)
    | with_reducible refine OnlyOut.next ?_
    | with_reducible refine OnlyOut.ite (fun _ => ?_) (fun _ => ?_)
    | with_reducible refine State.holdReset_only _ ?_ (by decide)
    | with_reducible refine State.parkLevels_only _ _ ?_ (by decide)
    | with_reducible refine State.set_only _ _ _ _ ?_ (by decide)

theorem execRailFault_only {N : Nat} {σ s : State} (rail : Nat) (hσ : Only N σ s)
    (hN : 0x7ffffffe01ffffffffffffffffffffffffffffffffffffffffffffffffffffffffff ||| N = N) : OnlyOut N σ (execRailFault rail s) := hσ.outcome (execRailFault_within rail s) hN

theorem State.ueOutcome_within (s : State) (unit : Nat) (index : Nat) (memory : Nat) (address : Nat) :
    Only 0x22d55844004000a4c810001000000000000200040003720000000000000000145000 s (State.ueOutcome s unit index memory address) := by
  unfold State.ueOutcome
  repeat' first
    | with_reducible exact Only.refl _ _
    | with_reducible refine Only.ite (fun _ => ?_) (fun _ => ?_)
    | with_reducible refine Only.foldl ?_ (fun _ _ => ?_)
    | fail_if_no_progress with_reducible refine Only.fields ?_ rfl rfl
    | with_reducible refine OnlyOut.next ?_
    | with_reducible refine OnlyOut.ite (fun _ => ?_) (fun _ => ?_)
    | with_reducible refine State.contain_only _ ?_ (by decide)
    | with_reducible refine State.seqReset_only _ _ ?_ (by decide)
    | with_reducible refine State.coreStop_only _ ?_ (by decide)
    | with_reducible refine State.flowResetOp_only _ _ ?_ (by decide)
    | with_reducible refine State.slotResetOp_only _ _ ?_ (by decide)
    | with_reducible refine State.endLoad_only _ _ ?_ (by decide)
    | with_reducible refine State.dropLines_only _ ?_ (by decide)
    | with_reducible refine State.setEntry_only _ _ ?_ (by decide)
    | with_reducible refine State.setCoreX_only _ _ ?_ (by decide)
    | with_reducible refine State.post_only _ _ _ ?_ (by decide)
    | with_reducible refine State.set_only _ _ _ _ ?_ (by decide)

theorem State.ueOutcome_only {N : Nat} {σ s : State} (unit : Nat) (index : Nat) (memory : Nat) (address : Nat) (hσ : Only N σ s)
    (hN : 0x22d55844004000a4c810001000000000000200040003720000000000000000145000 ||| N = N) : Only N σ (State.ueOutcome s unit index memory address) := hσ.step (State.ueOutcome_within s unit index memory address) hN

theorem execRasUe_within (unit : Nat) (index : Nat) (memory : Nat) (address : Nat) (s : State) :
    OnlyOut 0x22d55844004000a4c8100010000000000002001c0003720000000000000000145000 s (execRasUe unit index memory address s) := by
  unfold execRasUe
  repeat' first
    | with_reducible exact Only.refl _ _
    | with_reducible refine Only.ite (fun _ => ?_) (fun _ => ?_)
    | with_reducible refine Only.foldl ?_ (fun _ _ => ?_)
    | with_reducible refine OnlyOut.next ?_
    | with_reducible refine OnlyOut.ite (fun _ => ?_) (fun _ => ?_)
    | with_reducible refine State.ueOutcome_only _ _ _ _ ?_ (by decide)
    | with_reducible refine State.post_only _ _ _ ?_ (by decide)
    | with_reducible refine State.set_only _ _ _ _ ?_ (by decide)
    | with_reducible refine State.setBit_only _ _ _ _ ?_ (by decide)
    | with_reducible refine State.count_only _ _ _ _ _ ?_ (by decide)

theorem execRasUe_only {N : Nat} {σ s : State} (unit : Nat) (index : Nat) (memory : Nat) (address : Nat) (hσ : Only N σ s)
    (hN : 0x22d55844004000a4c8100010000000000002001c0003720000000000000000145000 ||| N = N) : OnlyOut N σ (execRasUe unit index memory address s) := hσ.outcome (execRasUe_within unit index memory address s) hN

theorem execRasErrStatClear_within (s : State) :
    OnlyOut 0x4000000000000000000000000000000180000000000000000000000001000 s (execRasErrStatClear s) := by
  unfold execRasErrStatClear
  repeat' first
    | with_reducible exact Only.refl _ _
    | with_reducible refine Only.ite (fun _ => ?_) (fun _ => ?_)
    | with_reducible refine Only.foldl ?_ (fun _ _ => ?_)
    | with_reducible refine OnlyOut.next ?_
    | with_reducible refine OnlyOut.ite (fun _ => ?_) (fun _ => ?_)
    | with_reducible refine State.set_only _ _ _ _ ?_ (by decide)
    | with_reducible refine State.clear_only _ _ _ ?_ (by decide)

theorem execRasErrStatClear_only {N : Nat} {σ s : State}  (hσ : Only N σ s)
    (hN : 0x4000000000000000000000000000000180000000000000000000000001000 ||| N = N) : OnlyOut N σ (execRasErrStatClear s) := hσ.outcome (execRasErrStatClear_within s) hN

theorem execTempUpdate_within (readings : List Int) (s : State) :
    OnlyOut 0x7ffffffe01ffffffffffffffffffffffffffffffffffffffffffffffffffffffffff s (execTempUpdate readings s) := by
  unfold execTempUpdate
  repeat' first
    | with_reducible exact Only.refl _ _
    | with_reducible refine Only.ite (fun _ => ?_) (fun _ => ?_)
    | with_reducible refine Only.foldl ?_ (fun _ _ => ?_)
    | fail_if_no_progress with_reducible refine Only.fields ?_ rfl rfl
    | with_reducible refine OnlyOut.next ?_
    | with_reducible refine OnlyOut.ite (fun _ => ?_) (fun _ => ?_)
    | with_reducible refine State.temperatures_only _ ?_ (by decide)

theorem execTempUpdate_only {N : Nat} {σ s : State} (readings : List Int) (hσ : Only N σ s)
    (hN : 0x7ffffffe01ffffffffffffffffffffffffffffffffffffffffffffffffffffffffff ||| N = N) : OnlyOut N σ (execTempUpdate readings s) := hσ.outcome (execTempUpdate_within readings s) hN

theorem execPeakClear_within (i : Nat) (s : State) :
    OnlyOut 0x4000000000000000000000000000000800000000000000000000000001000 s (execPeakClear i s) := by
  unfold execPeakClear
  repeat' first
    | with_reducible exact Only.refl _ _
    | with_reducible refine Only.ite (fun _ => ?_) (fun _ => ?_)
    | with_reducible refine Only.foldl ?_ (fun _ _ => ?_)
    | with_reducible refine OnlyOut.next ?_
    | with_reducible refine OnlyOut.ite (fun _ => ?_) (fun _ => ?_)
    | with_reducible refine State.set_only _ _ _ _ ?_ (by decide)
    | with_reducible refine State.clear_only _ _ _ ?_ (by decide)

theorem execPeakClear_only {N : Nat} {σ s : State} (i : Nat) (hσ : Only N σ s)
    (hN : 0x4000000000000000000000000000000800000000000000000000000001000 ||| N = N) : OnlyOut N σ (execPeakClear i s) := hσ.outcome (execPeakClear_within i s) hN

end Sys2Proof.Machine
end

