-- ==== Sys2Proof/Laws/Frame/Seq.lean ====
section
/-!
SUPPORT. Seq.lean: what each operation of Machine/Seq.lean can change (see Only).
-/
namespace Sys2Proof.Machine
set_option Elab.async false

theorem execSeqStart_within (q : Nat) (src : Src) (s : State) :
    OnlyOut 0x2057484400c000000810409000000000000000000000000000002000000000145000 s (execSeqStart q src s) := by
  unfold execSeqStart
  repeat' first
    | with_reducible exact Only.refl _ _
    | with_reducible refine Only.ite (fun _ => ?_) (fun _ => ?_)
    | with_reducible refine Only.foldl ?_ (fun _ _ => ?_)
    | with_reducible refine OnlyOut.next ?_
    | with_reducible refine OnlyOut.ite (fun _ => ?_) (fun _ => ?_)
    | with_reducible refine State.start_only _ _ ?_ (by decide)

theorem execSeqStart_only {N : Nat} {σ s : State} (q : Nat) (src : Src) (hσ : Only N σ s)
    (hN : 0x2057484400c000000810409000000000000000000000000000002000000000145000 ||| N = N) : OnlyOut N σ (execSeqStart q src s) := hσ.outcome (execSeqStart_within q src s) hN

theorem execSeqResume_within (q : Nat) (src : Src) (s : State) :
    OnlyOut 0x814004000000000000001000000000000000000000000000000000000000001000 s (execSeqResume q src s) := by
  unfold execSeqResume
  repeat' first
    | with_reducible exact Only.refl _ _
    | with_reducible refine Only.ite (fun _ => ?_) (fun _ => ?_)
    | with_reducible refine Only.foldl ?_ (fun _ _ => ?_)
    | with_reducible refine OnlyOut.next ?_
    | with_reducible refine OnlyOut.ite (fun _ => ?_) (fun _ => ?_)
    | with_reducible refine State.resume_only _ _ ?_ (by decide)

theorem execSeqResume_only {N : Nat} {σ s : State} (q : Nat) (src : Src) (hσ : Only N σ s)
    (hN : 0x814004000000000000001000000000000000000000000000000000000000001000 ||| N = N) : OnlyOut N σ (execSeqResume q src s) := hσ.outcome (execSeqResume_within q src s) hN

theorem execPauseRequest_within (q : Nat) (src : Src) (s : State) :
    OnlyOut 0x2d74844004001a4c030007000000000000200000000000000000000000000145000 s (execPauseRequest q src s) := by
  unfold execPauseRequest
  repeat' first
    | with_reducible exact Only.refl _ _
    | with_reducible refine Only.ite (fun _ => ?_) (fun _ => ?_)
    | with_reducible refine Only.foldl ?_ (fun _ _ => ?_)
    | with_reducible refine OnlyOut.next ?_
    | with_reducible refine OnlyOut.ite (fun _ => ?_) (fun _ => ?_)
    | with_reducible refine State.requestStop_only _ _ _ _ ?_ (by decide)

theorem execPauseRequest_only {N : Nat} {σ s : State} (q : Nat) (src : Src) (hσ : Only N σ s)
    (hN : 0x2d74844004001a4c030007000000000000200000000000000000000000000145000 ||| N = N) : OnlyOut N σ (execPauseRequest q src s) := hσ.outcome (execPauseRequest_within q src s) hN

theorem execAbort_within (q : Nat) (src : Src) (s : State) :
    OnlyOut 0x2d74844004001a4c030007000000000000200000000000000000000000000145000 s (execAbort q src s) := by
  unfold execAbort
  repeat' first
    | with_reducible exact Only.refl _ _
    | with_reducible refine Only.ite (fun _ => ?_) (fun _ => ?_)
    | with_reducible refine Only.foldl ?_ (fun _ _ => ?_)
    | with_reducible refine OnlyOut.next ?_
    | with_reducible refine OnlyOut.ite (fun _ => ?_) (fun _ => ?_)
    | with_reducible refine State.requestStop_only _ _ _ _ ?_ (by decide)

theorem execAbort_only {N : Nat} {σ s : State} (q : Nat) (src : Src) (hσ : Only N σ s)
    (hN : 0x2d74844004001a4c030007000000000000200000000000000000000000000145000 ||| N = N) : OnlyOut N σ (execAbort q src s) := hσ.outcome (execAbort_within q src s) hN

theorem State.faultClear_within (s : State) (q : Nat) (src : Src) :
    Only 0x4000000000000001000000000000000000000000000000000000000001000 s (State.faultClear s q src) := by
  unfold State.faultClear
  repeat' first
    | with_reducible exact Only.refl _ _
    | with_reducible refine Only.ite (fun _ => ?_) (fun _ => ?_)
    | with_reducible refine Only.foldl ?_ (fun _ _ => ?_)
    | with_reducible refine Only.onObj ?_ (fun _ => ?_) (by decide)
    | with_reducible refine State.set_only _ _ _ _ ?_ (by decide)

theorem State.faultClear_only {N : Nat} {σ s : State} (q : Nat) (src : Src) (hσ : Only N σ s)
    (hN : 0x4000000000000001000000000000000000000000000000000000000001000 ||| N = N) : Only N σ (State.faultClear s q src) := hσ.step (State.faultClear_within s q src) hN

theorem execFaultClear_within (q : Nat) (src : Src) (s : State) :
    OnlyOut 0x4000000000000001000000000000000000000000000000000000000001000 s (execFaultClear q src s) := by
  unfold execFaultClear
  repeat' first
    | with_reducible exact Only.refl _ _
    | with_reducible refine Only.ite (fun _ => ?_) (fun _ => ?_)
    | with_reducible refine Only.foldl ?_ (fun _ _ => ?_)
    | with_reducible refine OnlyOut.next ?_
    | with_reducible refine OnlyOut.ite (fun _ => ?_) (fun _ => ?_)
    | with_reducible refine State.faultClear_only _ _ ?_ (by decide)

theorem execFaultClear_only {N : Nat} {σ s : State} (q : Nat) (src : Src) (hσ : Only N σ s)
    (hN : 0x4000000000000001000000000000000000000000000000000000000001000 ||| N = N) : OnlyOut N σ (execFaultClear q src s) := hσ.outcome (execFaultClear_within q src s) hN

theorem execNopRec_within (q : Nat) (s : State) :
    OnlyOut 0x2d74844004023a4c03001f000000000000200000000000000000000000000145000 s (execNopRec q s) := by
  unfold execNopRec
  repeat' first
    | with_reducible exact Only.refl _ _
    | with_reducible refine Only.ite (fun _ => ?_) (fun _ => ?_)
    | with_reducible refine Only.foldl ?_ (fun _ _ => ?_)
    | with_reducible refine OnlyOut.next ?_
    | with_reducible refine OnlyOut.ite (fun _ => ?_) (fun _ => ?_)
    | with_reducible refine noEffect_only _ _ _ ?_ (by decide)
    | with_reducible refine State.record_only _ _ _ (fun _ _ _ _ => ?_) ?_ (by decide)

theorem execNopRec_only {N : Nat} {σ s : State} (q : Nat) (hσ : Only N σ s)
    (hN : 0x2d74844004023a4c03001f000000000000200000000000000000000000000145000 ||| N = N) : OnlyOut N σ (execNopRec q s) := hσ.outcome (execNopRec_within q s) hN

theorem loopEffect_within (q : Nat) (y0 : Nat) (y1 : Nat) (y2 : Nat) (y3 : State) :
    Only 0x4000000000000000000000000000000000000000000000000000000000000000 y3 (loopEffect q y0 y1 y2 y3) := by
  unfold loopEffect
  repeat' first
    | with_reducible exact Only.refl _ _
    | with_reducible refine Only.ite (fun _ => ?_) (fun _ => ?_)
    | with_reducible refine Only.foldl ?_ (fun _ _ => ?_)
    | with_reducible refine State.setLevels_only _ _ ?_ (by decide)

theorem loopEffect_only {N : Nat} {σ y3 : State} (q : Nat) (y0 : Nat) (y1 : Nat) (y2 : Nat) (hσ : Only N σ y3)
    (hN : 0x4000000000000000000000000000000000000000000000000000000000000000 ||| N = N) : Only N σ (loopEffect q y0 y1 y2 y3) := hσ.step (loopEffect_within q y0 y1 y2 y3) hN

theorem execLoopRec_within (q : Nat) (s : State) :
    OnlyOut 0x2d74844004023a4c03001f000000000000200000000000000000000000000145000 s (execLoopRec q s) := by
  unfold execLoopRec
  repeat' first
    | with_reducible exact Only.refl _ _
    | with_reducible refine Only.ite (fun _ => ?_) (fun _ => ?_)
    | with_reducible refine Only.foldl ?_ (fun _ _ => ?_)
    | with_reducible refine OnlyOut.next ?_
    | with_reducible refine OnlyOut.ite (fun _ => ?_) (fun _ => ?_)
    | with_reducible refine loopEffect_only _ _ _ _ ?_ (by decide)
    | with_reducible refine State.record_only _ _ _ (fun _ _ _ _ => ?_) ?_ (by decide)

theorem execLoopRec_only {N : Nat} {σ s : State} (q : Nat) (hσ : Only N σ s)
    (hN : 0x2d74844004023a4c03001f000000000000200000000000000000000000000145000 ||| N = N) : OnlyOut N σ (execLoopRec q s) := hσ.outcome (execLoopRec_within q s) hN

theorem State.matchTimeout_within (s : State) (q : Nat) (l : Level) (rest : List Level) :
    Only 0x2d74844004001a4c030407000000000000200000000000000000000000000145000 s (State.matchTimeout s q l rest) := by
  unfold State.matchTimeout
  repeat' first
    | with_reducible exact Only.refl _ _
    | with_reducible refine Only.ite (fun _ => ?_) (fun _ => ?_)
    | with_reducible refine Only.foldl ?_ (fun _ _ => ?_)
    | with_reducible refine State.setLf_only _ _ _ ?_ (by decide)
    | with_reducible refine State.setLevels_only _ _ ?_ (by decide)
    | with_reducible refine State.beginStop_only _ _ _ _ ?_ (by decide)
    | with_reducible refine State.judgeLate_only _ ?_ (by decide)
    | with_reducible refine State.defer_only _ _ _ ?_ (by decide)
    | with_reducible refine State.setSeqX_only _ _ ?_ (by decide)
    | split

theorem State.matchTimeout_only {N : Nat} {σ s : State} (q : Nat) (l : Level) (rest : List Level) (hσ : Only N σ s)
    (hN : 0x2d74844004001a4c030407000000000000200000000000000000000000000145000 ||| N = N) : Only N σ (State.matchTimeout s q l rest) := hσ.step (State.matchTimeout_within s q l rest) hN

theorem State.endMatch_within (s : State) (q : Nat) (c : Nat) (l : Level) (rest : List Level) :
    Only 0x2d74844004001a4c030407000000000000200000000000000000000000000145000 s (State.endMatch s q c l rest) := by
  unfold State.endMatch
  repeat' first
    | with_reducible exact Only.refl _ _
    | with_reducible refine Only.ite (fun _ => ?_) (fun _ => ?_)
    | with_reducible refine Only.foldl ?_ (fun _ _ => ?_)
    | with_reducible refine State.matchTimeout_only _ _ _ ?_ (by decide)
    | with_reducible refine State.goTo_only _ _ ?_ (by decide)
    | with_reducible refine State.setLevels_only _ _ ?_ (by decide)
    | with_reducible refine State.setSeqX_only _ _ ?_ (by decide)
    | split

theorem State.endMatch_only {N : Nat} {σ s : State} (q : Nat) (c : Nat) (l : Level) (rest : List Level) (hσ : Only N σ s)
    (hN : 0x2d74844004001a4c030407000000000000200000000000000000000000000145000 ||| N = N) : Only N σ (State.endMatch s q c l rest) := hσ.step (State.endMatch_within s q c l rest) hN

theorem endLoopEffect_within (q : Nat) (y0 : Nat) (y1 : Nat) (y2 : Nat) (y3 : State) :
    Only 0x2d74844004001a4c030407000000000000200000000000000000000000000145000 y3 (endLoopEffect q y0 y1 y2 y3) := by
  unfold endLoopEffect
  repeat' first
    | with_reducible exact Only.refl _ _
    | with_reducible refine Only.ite (fun _ => ?_) (fun _ => ?_)
    | with_reducible refine Only.foldl ?_ (fun _ _ => ?_)
    | with_reducible refine State.endMatch_only _ _ _ _ ?_ (by decide)
    | with_reducible refine State.goTo_only _ _ ?_ (by decide)
    | with_reducible refine State.setLevels_only _ _ ?_ (by decide)
    | split

theorem endLoopEffect_only {N : Nat} {σ y3 : State} (q : Nat) (y0 : Nat) (y1 : Nat) (y2 : Nat) (hσ : Only N σ y3)
    (hN : 0x2d74844004001a4c030407000000000000200000000000000000000000000145000 ||| N = N) : Only N σ (endLoopEffect q y0 y1 y2 y3) := hσ.step (endLoopEffect_within q y0 y1 y2 y3) hN

theorem execEndloop_within (q : Nat) (s : State) :
    OnlyOut 0x2d74844004023a4c03041f000000000000200000000000000000000000000145000 s (execEndloop q s) := by
  unfold execEndloop
  repeat' first
    | with_reducible exact Only.refl _ _
    | with_reducible refine Only.ite (fun _ => ?_) (fun _ => ?_)
    | with_reducible refine Only.foldl ?_ (fun _ _ => ?_)
    | with_reducible refine OnlyOut.next ?_
    | with_reducible refine OnlyOut.ite (fun _ => ?_) (fun _ => ?_)
    | with_reducible refine endLoopEffect_only _ _ _ _ ?_ (by decide)
    | with_reducible refine State.record_only _ _ _ (fun _ _ _ _ => ?_) ?_ (by decide)

theorem execEndloop_only {N : Nat} {σ s : State} (q : Nat) (hσ : Only N σ s)
    (hN : 0x2d74844004023a4c03041f000000000000200000000000000000000000000145000 ||| N = N) : OnlyOut N σ (execEndloop q s) := hσ.outcome (execEndloop_within q s) hN

theorem repeatEffect_within (q : Nat) (y0 : Nat) (y1 : Nat) (y2 : Nat) (y3 : State) :
    Only 0x4000000000000000000000000000000000000000000000000000000000000000 y3 (repeatEffect q y0 y1 y2 y3) := by
  unfold repeatEffect
  repeat' first
    | with_reducible exact Only.refl _ _
    | with_reducible refine Only.ite (fun _ => ?_) (fun _ => ?_)
    | with_reducible refine Only.foldl ?_ (fun _ _ => ?_)
    | with_reducible refine State.setSeqX_only _ _ ?_ (by decide)

theorem repeatEffect_only {N : Nat} {σ y3 : State} (q : Nat) (y0 : Nat) (y1 : Nat) (y2 : Nat) (hσ : Only N σ y3)
    (hN : 0x4000000000000000000000000000000000000000000000000000000000000000 ||| N = N) : Only N σ (repeatEffect q y0 y1 y2 y3) := hσ.step (repeatEffect_within q y0 y1 y2 y3) hN

theorem execRepeatRec_within (q : Nat) (s : State) :
    OnlyOut 0x2d74844004023a4c03001f000000000000200000000000000000000000000145000 s (execRepeatRec q s) := by
  unfold execRepeatRec
  repeat' first
    | with_reducible exact Only.refl _ _
    | with_reducible refine Only.ite (fun _ => ?_) (fun _ => ?_)
    | with_reducible refine Only.foldl ?_ (fun _ _ => ?_)
    | with_reducible refine OnlyOut.next ?_
    | with_reducible refine OnlyOut.ite (fun _ => ?_) (fun _ => ?_)
    | with_reducible refine repeatEffect_only _ _ _ _ ?_ (by decide)
    | with_reducible refine State.record_only _ _ _ (fun _ _ _ _ => ?_) ?_ (by decide)

theorem execRepeatRec_only {N : Nat} {σ s : State} (q : Nat) (hσ : Only N σ s)
    (hN : 0x2d74844004023a4c03001f000000000000200000000000000000000000000145000 ||| N = N) : OnlyOut N σ (execRepeatRec q s) := hσ.outcome (execRepeatRec_within q s) hN

theorem callEffect_within (q : Nat) (y0 : Nat) (y1 : Nat) (y2 : Nat) (y3 : State) :
    Only 0x4000000000000000000000000000000000000000000000000000000000000000 y3 (callEffect q y0 y1 y2 y3) := by
  unfold callEffect
  repeat' first
    | with_reducible exact Only.refl _ _
    | with_reducible refine Only.ite (fun _ => ?_) (fun _ => ?_)
    | with_reducible refine Only.foldl ?_ (fun _ _ => ?_)
    | with_reducible refine State.setSeqX_only _ _ ?_ (by decide)

theorem callEffect_only {N : Nat} {σ y3 : State} (q : Nat) (y0 : Nat) (y1 : Nat) (y2 : Nat) (hσ : Only N σ y3)
    (hN : 0x4000000000000000000000000000000000000000000000000000000000000000 ||| N = N) : Only N σ (callEffect q y0 y1 y2 y3) := hσ.step (callEffect_within q y0 y1 y2 y3) hN

theorem execCallRec_within (q : Nat) (s : State) :
    OnlyOut 0x2d74844004023a4c03001f000000000000200000000000000000000000000145000 s (execCallRec q s) := by
  unfold execCallRec
  repeat' first
    | with_reducible exact Only.refl _ _
    | with_reducible refine Only.ite (fun _ => ?_) (fun _ => ?_)
    | with_reducible refine Only.foldl ?_ (fun _ _ => ?_)
    | with_reducible refine OnlyOut.next ?_
    | with_reducible refine OnlyOut.ite (fun _ => ?_) (fun _ => ?_)
    | with_reducible refine callEffect_only _ _ _ _ ?_ (by decide)
    | with_reducible refine State.record_only _ _ _ (fun _ _ _ _ => ?_) ?_ (by decide)

theorem execCallRec_only {N : Nat} {σ s : State} (q : Nat) (hσ : Only N σ s)
    (hN : 0x2d74844004023a4c03001f000000000000200000000000000000000000000145000 ||| N = N) : OnlyOut N σ (execCallRec q s) := hσ.outcome (execCallRec_within q s) hN

theorem retEffect_within (q : Nat) (y0 : Nat) (y1 : Nat) (y2 : Nat) (y3 : State) :
    Only 0x4000000000000000000000000000000000000000000000000000000000000000 y3 (retEffect q y0 y1 y2 y3) := by
  unfold retEffect
  repeat' first
    | with_reducible exact Only.refl _ _
    | with_reducible refine Only.ite (fun _ => ?_) (fun _ => ?_)
    | with_reducible refine Only.foldl ?_ (fun _ _ => ?_)
    | with_reducible refine State.setSeqX_only _ _ ?_ (by decide)
    | split
    | extract_lets

theorem retEffect_only {N : Nat} {σ y3 : State} (q : Nat) (y0 : Nat) (y1 : Nat) (y2 : Nat) (hσ : Only N σ y3)
    (hN : 0x4000000000000000000000000000000000000000000000000000000000000000 ||| N = N) : Only N σ (retEffect q y0 y1 y2 y3) := hσ.step (retEffect_within q y0 y1 y2 y3) hN

theorem execRet_within (q : Nat) (s : State) :
    OnlyOut 0x2d74844004023a4c03001f000000000000200000000000000000000000000145000 s (execRet q s) := by
  unfold execRet
  repeat' first
    | with_reducible exact Only.refl _ _
    | with_reducible refine Only.ite (fun _ => ?_) (fun _ => ?_)
    | with_reducible refine Only.foldl ?_ (fun _ _ => ?_)
    | with_reducible refine OnlyOut.next ?_
    | with_reducible refine OnlyOut.ite (fun _ => ?_) (fun _ => ?_)
    | with_reducible refine retEffect_only _ _ _ _ ?_ (by decide)
    | with_reducible refine State.record_only _ _ _ (fun _ _ _ _ => ?_) ?_ (by decide)

theorem execRet_only {N : Nat} {σ s : State} (q : Nat) (hσ : Only N σ s)
    (hN : 0x2d74844004023a4c03001f000000000000200000000000000000000000000145000 ||| N = N) : OnlyOut N σ (execRet q s) := hσ.outcome (execRet_within q s) hN

theorem execJump_within (q : Nat) (s : State) :
    OnlyOut 0x2d74844004023a4c03001f000000000000200000000000000000000000000145000 s (execJump q s) := by
  unfold execJump
  repeat' first
    | with_reducible exact Only.refl _ _
    | with_reducible refine Only.ite (fun _ => ?_) (fun _ => ?_)
    | with_reducible refine Only.foldl ?_ (fun _ _ => ?_)
    | with_reducible refine OnlyOut.next ?_
    | with_reducible refine OnlyOut.ite (fun _ => ?_) (fun _ => ?_)
    | with_reducible refine State.jump_only _ _ ?_ (by decide)
    | with_reducible refine State.record_only _ _ _ (fun _ _ _ _ => ?_) ?_ (by decide)

theorem execJump_only {N : Nat} {σ s : State} (q : Nat) (hσ : Only N σ s)
    (hN : 0x2d74844004023a4c03001f000000000000200000000000000000000000000145000 ||| N = N) : OnlyOut N σ (execJump q s) := hσ.outcome (execJump_within q s) hN

theorem jumpIfEffect_within (q : Nat) (y0 : Nat) (y1 : Nat) (y2 : Nat) (y3 : State) :
    Only 0x4000000000000000000000000000000000000000000000000000000000000000 y3 (jumpIfEffect q y0 y1 y2 y3) := by
  unfold jumpIfEffect
  repeat' first
    | with_reducible exact Only.refl _ _
    | with_reducible refine Only.ite (fun _ => ?_) (fun _ => ?_)
    | with_reducible refine Only.foldl ?_ (fun _ _ => ?_)
    | with_reducible refine State.jump_only _ _ ?_ (by decide)

theorem jumpIfEffect_only {N : Nat} {σ y3 : State} (q : Nat) (y0 : Nat) (y1 : Nat) (y2 : Nat) (hσ : Only N σ y3)
    (hN : 0x4000000000000000000000000000000000000000000000000000000000000000 ||| N = N) : Only N σ (jumpIfEffect q y0 y1 y2 y3) := hσ.step (jumpIfEffect_within q y0 y1 y2 y3) hN

theorem execJumpif_within (q : Nat) (s : State) :
    OnlyOut 0x2d74844004023a4c03001f000000000000200000000000000000000000000145000 s (execJumpif q s) := by
  unfold execJumpif
  repeat' first
    | with_reducible exact Only.refl _ _
    | with_reducible refine Only.ite (fun _ => ?_) (fun _ => ?_)
    | with_reducible refine Only.foldl ?_ (fun _ _ => ?_)
    | with_reducible refine OnlyOut.next ?_
    | with_reducible refine OnlyOut.ite (fun _ => ?_) (fun _ => ?_)
    | with_reducible refine jumpIfEffect_only _ _ _ _ ?_ (by decide)
    | with_reducible refine State.record_only _ _ _ (fun _ _ _ _ => ?_) ?_ (by decide)

theorem execJumpif_only {N : Nat} {σ s : State} (q : Nat) (hσ : Only N σ s)
    (hN : 0x2d74844004023a4c03001f000000000000200000000000000000000000000145000 ||| N = N) : OnlyOut N σ (execJumpif q s) := hσ.outcome (execJumpif_within q s) hN

theorem matchEffect_within (q : Nat) (y0 : Nat) (y1 : Nat) (y2 : Nat) (y3 : State) :
    Only 0x4000000000000000000000000000000000000000000000000000000000000000 y3 (matchEffect q y0 y1 y2 y3) := by
  unfold matchEffect
  repeat' first
    | with_reducible exact Only.refl _ _
    | with_reducible refine Only.ite (fun _ => ?_) (fun _ => ?_)
    | with_reducible refine Only.foldl ?_ (fun _ _ => ?_)
    | with_reducible refine State.setSeqX_only _ _ ?_ (by decide)

theorem matchEffect_only {N : Nat} {σ y3 : State} (q : Nat) (y0 : Nat) (y1 : Nat) (y2 : Nat) (hσ : Only N σ y3)
    (hN : 0x4000000000000000000000000000000000000000000000000000000000000000 ||| N = N) : Only N σ (matchEffect q y0 y1 y2 y3) := hσ.step (matchEffect_within q y0 y1 y2 y3) hN

theorem execMatchRec_within (q : Nat) (s : State) :
    OnlyOut 0x2d74844004023a4c03001f000000000000200000000000000000000000000145000 s (execMatchRec q s) := by
  unfold execMatchRec
  repeat' first
    | with_reducible exact Only.refl _ _
    | with_reducible refine Only.ite (fun _ => ?_) (fun _ => ?_)
    | with_reducible refine Only.foldl ?_ (fun _ _ => ?_)
    | with_reducible refine OnlyOut.next ?_
    | with_reducible refine OnlyOut.ite (fun _ => ?_) (fun _ => ?_)
    | with_reducible refine matchEffect_only _ _ _ _ ?_ (by decide)
    | with_reducible refine State.record_only _ _ _ (fun _ _ _ _ => ?_) ?_ (by decide)

theorem execMatchRec_only {N : Nat} {σ s : State} (q : Nat) (hσ : Only N σ s)
    (hN : 0x2d74844004023a4c03001f000000000000200000000000000000000000000145000 ||| N = N) : OnlyOut N σ (execMatchRec q s) := hσ.outcome (execMatchRec_within q s) hN

theorem State.modRuns_within (s : State) (q : Nat) (f : SiteRun → SiteRun) :
    Only 0x400000000000000000000000000000000000000000000000000000000000000000 s (State.modRuns s q f) := by
  unfold State.modRuns
  repeat' first
    | with_reducible exact Only.refl _ _
    | with_reducible refine Only.ite (fun _ => ?_) (fun _ => ?_)
    | with_reducible refine Only.foldl ?_ (fun _ _ => ?_)
    | fail_if_no_progress with_reducible refine Only.fields ?_ rfl rfl

theorem State.modRuns_only {N : Nat} {σ s : State} (q : Nat) (f : SiteRun → SiteRun) (hσ : Only N σ s)
    (hN : 0x400000000000000000000000000000000000000000000000000000000000000000 ||| N = N) : Only N σ (State.modRuns s q f) := hσ.step (State.modRuns_within s q f) hN

theorem State.forceFail_within (s : State) (q : Nat) :
    Only 0x404000000000000000000000000000000000000000000000000000000000000000 s (State.forceFail s q) := by
  unfold State.forceFail
  repeat' first
    | with_reducible exact Only.refl _ _
    | with_reducible refine Only.ite (fun _ => ?_) (fun _ => ?_)
    | with_reducible refine Only.foldl ?_ (fun _ _ => ?_)
    | with_reducible refine State.modRuns_only _ _ ?_ (by decide)
    | with_reducible refine State.setSeqX_only _ _ ?_ (by decide)

theorem State.forceFail_only {N : Nat} {σ s : State} (q : Nat) (hσ : Only N σ s)
    (hN : 0x404000000000000000000000000000000000000000000000000000000000000000 ||| N = N) : Only N σ (State.forceFail s q) := hσ.step (State.forceFail_within s q) hN

theorem State.clearAcc_within (s : State) (q : Nat) (n : Nat) :
    Only 0x404000000000000000000000000000000000000000000000000000000000000000 s (State.clearAcc s q n) := by
  unfold State.clearAcc
  repeat' first
    | with_reducible exact Only.refl _ _
    | with_reducible refine Only.ite (fun _ => ?_) (fun _ => ?_)
    | with_reducible refine Only.foldl ?_ (fun _ _ => ?_)
    | with_reducible refine State.modRuns_only _ _ ?_ (by decide)
    | with_reducible refine State.setSeqX_only _ _ ?_ (by decide)

theorem State.clearAcc_only {N : Nat} {σ s : State} (q : Nat) (n : Nat) (hσ : Only N σ s)
    (hN : 0x404000000000000000000000000000000000000000000000000000000000000000 ||| N = N) : Only N σ (State.clearAcc s q n) := hσ.step (State.clearAcc_within s q n) hN

theorem flagSetEffect_within (q : Nat) (y0 : Nat) (y1 : Nat) (y2 : Nat) (y3 : State) :
    Only 0x404000000000000000400000000000000000000000000000000000000000000000 y3 (flagSetEffect q y0 y1 y2 y3) := by
  unfold flagSetEffect
  repeat' first
    | with_reducible exact Only.refl _ _
    | with_reducible refine Only.ite (fun _ => ?_) (fun _ => ?_)
    | with_reducible refine Only.foldl ?_ (fun _ _ => ?_)
    | with_reducible refine State.forceFail_only _ ?_ (by decide)
    | with_reducible refine State.setLf_only _ _ _ ?_ (by decide)
    | with_reducible refine State.defer_only _ _ _ ?_ (by decide)

theorem flagSetEffect_only {N : Nat} {σ y3 : State} (q : Nat) (y0 : Nat) (y1 : Nat) (y2 : Nat) (hσ : Only N σ y3)
    (hN : 0x404000000000000000400000000000000000000000000000000000000000000000 ||| N = N) : Only N σ (flagSetEffect q y0 y1 y2 y3) := hσ.step (flagSetEffect_within q y0 y1 y2 y3) hN

theorem execFlagset_within (q : Nat) (s : State) :
    OnlyOut 0x2d74844004023a4c03041f000000000000200000000000000000000000000145000 s (execFlagset q s) := by
  unfold execFlagset
  repeat' first
    | with_reducible exact Only.refl _ _
    | with_reducible refine Only.ite (fun _ => ?_) (fun _ => ?_)
    | with_reducible refine Only.foldl ?_ (fun _ _ => ?_)
    | with_reducible refine OnlyOut.next ?_
    | with_reducible refine OnlyOut.ite (fun _ => ?_) (fun _ => ?_)
    | with_reducible refine flagSetEffect_only _ _ _ _ ?_ (by decide)
    | with_reducible refine State.record_only _ _ _ (fun _ _ _ _ => ?_) ?_ (by decide)

theorem execFlagset_only {N : Nat} {σ s : State} (q : Nat) (hσ : Only N σ s)
    (hN : 0x2d74844004023a4c03041f000000000000200000000000000000000000000145000 ||| N = N) : OnlyOut N σ (execFlagset q s) := hσ.outcome (execFlagset_within q s) hN

theorem flagClrEffect_within (q : Nat) (y0 : Nat) (y1 : Nat) (y2 : Nat) (y3 : State) :
    Only 0x404000000000000000400000000000000000000000000000000000000000000000 y3 (flagClrEffect q y0 y1 y2 y3) := by
  unfold flagClrEffect
  repeat' first
    | with_reducible exact Only.refl _ _
    | with_reducible refine Only.ite (fun _ => ?_) (fun _ => ?_)
    | with_reducible refine Only.foldl ?_ (fun _ _ => ?_)
    | with_reducible refine State.clearAcc_only _ _ ?_ (by decide)
    | with_reducible refine State.setLf_only _ _ _ ?_ (by decide)
    | with_reducible refine State.defer_only _ _ _ ?_ (by decide)

theorem flagClrEffect_only {N : Nat} {σ y3 : State} (q : Nat) (y0 : Nat) (y1 : Nat) (y2 : Nat) (hσ : Only N σ y3)
    (hN : 0x404000000000000000400000000000000000000000000000000000000000000000 ||| N = N) : Only N σ (flagClrEffect q y0 y1 y2 y3) := hσ.step (flagClrEffect_within q y0 y1 y2 y3) hN

theorem execFlagclr_within (q : Nat) (s : State) :
    OnlyOut 0x2d74844004023a4c03041f000000000000200000000000000000000000000145000 s (execFlagclr q s) := by
  unfold execFlagclr
  repeat' first
    | with_reducible exact Only.refl _ _
    | with_reducible refine Only.ite (fun _ => ?_) (fun _ => ?_)
    | with_reducible refine Only.foldl ?_ (fun _ _ => ?_)
    | with_reducible refine OnlyOut.next ?_
    | with_reducible refine OnlyOut.ite (fun _ => ?_) (fun _ => ?_)
    | with_reducible refine flagClrEffect_only _ _ _ _ ?_ (by decide)
    | with_reducible refine State.record_only _ _ _ (fun _ _ _ _ => ?_) ?_ (by decide)

theorem execFlagclr_only {N : Nat} {σ s : State} (q : Nat) (hσ : Only N σ s)
    (hN : 0x2d74844004023a4c03041f000000000000200000000000000000000000000145000 ||| N = N) : OnlyOut N σ (execFlagclr q s) := hσ.outcome (execFlagclr_within q s) hN

theorem State.holding_within (s : State) (q : Nat) (h : Hold) :
    Only 0x4000000000000000001000000000000000000000000000000000000000000000 s (State.holding s q h) := by
  unfold State.holding
  repeat' first
    | with_reducible exact Only.refl _ _
    | with_reducible refine Only.ite (fun _ => ?_) (fun _ => ?_)
    | with_reducible refine Only.foldl ?_ (fun _ _ => ?_)
    | with_reducible refine State.setSeqX_only _ _ ?_ (by decide)
    | with_reducible refine State.set_only _ _ _ _ ?_ (by decide)

theorem State.holding_only {N : Nat} {σ s : State} (q : Nat) (h : Hold) (hσ : Only N σ s)
    (hN : 0x4000000000000000001000000000000000000000000000000000000000000000 ||| N = N) : Only N σ (State.holding s q h) := hσ.step (State.holding_within s q h) hN

theorem waitRaiseEffect_within (q : Nat) (y0 : Nat) (y1 : Nat) (y2 : Nat) (y3 : State) :
    Only 0x4000000000000000001000000000000000000000000000000000000000000000 y3 (waitRaiseEffect q y0 y1 y2 y3) := by
  unfold waitRaiseEffect
  repeat' first
    | with_reducible exact Only.refl _ _
    | with_reducible refine Only.ite (fun _ => ?_) (fun _ => ?_)
    | with_reducible refine Only.foldl ?_ (fun _ _ => ?_)
    | with_reducible refine State.holding_only _ _ ?_ (by decide)

theorem waitRaiseEffect_only {N : Nat} {σ y3 : State} (q : Nat) (y0 : Nat) (y1 : Nat) (y2 : Nat) (hσ : Only N σ y3)
    (hN : 0x4000000000000000001000000000000000000000000000000000000000000000 ||| N = N) : Only N σ (waitRaiseEffect q y0 y1 y2 y3) := hσ.step (waitRaiseEffect_within q y0 y1 y2 y3) hN

theorem execWaitraise_within (q : Nat) (s : State) :
    OnlyOut 0x2d74844004023a4c03001f000000000000200000000000000000000000000145000 s (execWaitraise q s) := by
  unfold execWaitraise
  repeat' first
    | with_reducible exact Only.refl _ _
    | with_reducible refine Only.ite (fun _ => ?_) (fun _ => ?_)
    | with_reducible refine Only.foldl ?_ (fun _ _ => ?_)
    | with_reducible refine OnlyOut.next ?_
    | with_reducible refine OnlyOut.ite (fun _ => ?_) (fun _ => ?_)
    | with_reducible refine waitRaiseEffect_only _ _ _ _ ?_ (by decide)
    | with_reducible refine State.record_only _ _ _ (fun _ _ _ _ => ?_) ?_ (by decide)

theorem execWaitraise_only {N : Nat} {σ s : State} (q : Nat) (hσ : Only N σ s)
    (hN : 0x2d74844004023a4c03001f000000000000200000000000000000000000000145000 ||| N = N) : OnlyOut N σ (execWaitraise q s) := hσ.outcome (execWaitraise_within q s) hN

theorem barrierEffect_within (q : Nat) (y0 : Nat) (y1 : Nat) (y2 : Nat) (y3 : State) :
    Only 0x4000000000000000001000000000000000000000000000000000000000000000 y3 (barrierEffect q y0 y1 y2 y3) := by
  unfold barrierEffect
  repeat' first
    | with_reducible exact Only.refl _ _
    | with_reducible refine Only.ite (fun _ => ?_) (fun _ => ?_)
    | with_reducible refine Only.foldl ?_ (fun _ _ => ?_)
    | with_reducible refine State.holding_only _ _ ?_ (by decide)
    | with_reducible refine State.defer_only _ _ _ ?_ (by decide)
    | split

theorem barrierEffect_only {N : Nat} {σ y3 : State} (q : Nat) (y0 : Nat) (y1 : Nat) (y2 : Nat) (hσ : Only N σ y3)
    (hN : 0x4000000000000000001000000000000000000000000000000000000000000000 ||| N = N) : Only N σ (barrierEffect q y0 y1 y2 y3) := hσ.step (barrierEffect_within q y0 y1 y2 y3) hN

theorem execBarrier_within (q : Nat) (s : State) :
    OnlyOut 0x2d74844004023a4c03001f000000000000200000000000000000000000000145000 s (execBarrier q s) := by
  unfold execBarrier
  repeat' first
    | with_reducible exact Only.refl _ _
    | with_reducible refine Only.ite (fun _ => ?_) (fun _ => ?_)
    | with_reducible refine Only.foldl ?_ (fun _ _ => ?_)
    | with_reducible refine OnlyOut.next ?_
    | with_reducible refine OnlyOut.ite (fun _ => ?_) (fun _ => ?_)
    | with_reducible refine barrierEffect_only _ _ _ _ ?_ (by decide)
    | with_reducible refine State.record_only _ _ _ (fun _ _ _ _ => ?_) ?_ (by decide)

theorem execBarrier_only {N : Nat} {σ s : State} (q : Nat) (hσ : Only N σ s)
    (hN : 0x2d74844004023a4c03001f000000000000200000000000000000000000000145000 ||| N = N) : OnlyOut N σ (execBarrier q s) := hσ.outcome (execBarrier_within q s) hN

theorem triggerEffect_within (q : Nat) (y0 : Nat) (y1 : Nat) (y2 : Nat) (y3 : State) :
    Only 0x4000000000000000000000000000000000000000000000000000000000000000 y3 (triggerEffect q y0 y1 y2 y3) := by
  unfold triggerEffect
  repeat' first
    | with_reducible exact Only.refl _ _
    | with_reducible refine Only.ite (fun _ => ?_) (fun _ => ?_)
    | with_reducible refine Only.foldl ?_ (fun _ _ => ?_)
    | with_reducible refine State.defer_only _ _ _ ?_ (by decide)

theorem triggerEffect_only {N : Nat} {σ y3 : State} (q : Nat) (y0 : Nat) (y1 : Nat) (y2 : Nat) (hσ : Only N σ y3)
    (hN : 0x4000000000000000000000000000000000000000000000000000000000000000 ||| N = N) : Only N σ (triggerEffect q y0 y1 y2 y3) := hσ.step (triggerEffect_within q y0 y1 y2 y3) hN

theorem execTrigger_within (q : Nat) (s : State) :
    OnlyOut 0x2d74844004023a4c03001f000000000000200000000000000000000000000145000 s (execTrigger q s) := by
  unfold execTrigger
  repeat' first
    | with_reducible exact Only.refl _ _
    | with_reducible refine Only.ite (fun _ => ?_) (fun _ => ?_)
    | with_reducible refine Only.foldl ?_ (fun _ _ => ?_)
    | with_reducible refine OnlyOut.next ?_
    | with_reducible refine OnlyOut.ite (fun _ => ?_) (fun _ => ?_)
    | with_reducible refine triggerEffect_only _ _ _ _ ?_ (by decide)
    | with_reducible refine State.record_only _ _ _ (fun _ _ _ _ => ?_) ?_ (by decide)

theorem execTrigger_only {N : Nat} {σ s : State} (q : Nat) (hσ : Only N σ s)
    (hN : 0x2d74844004023a4c03001f000000000000200000000000000000000000000145000 ||| N = N) : OnlyOut N σ (execTrigger q s) := hσ.outcome (execTrigger_within q s) hN

theorem measureEffect_within (q : Nat) (y0 : Nat) (y1 : Nat) (y2 : Nat) (y3 : State) :
    Only 0x4000000000000000000000000000000000000000000000000000000000000000 y3 (measureEffect q y0 y1 y2 y3) := by
  unfold measureEffect
  repeat' first
    | with_reducible exact Only.refl _ _
    | with_reducible refine Only.ite (fun _ => ?_) (fun _ => ?_)
    | with_reducible refine Only.foldl ?_ (fun _ _ => ?_)
    | with_reducible refine OnlyOut.next ?_
    | with_reducible refine OnlyOut.ite (fun _ => ?_) (fun _ => ?_)
    | with_reducible refine State.defer_only _ _ _ ?_ (by decide)

theorem measureEffect_only {N : Nat} {σ y3 : State} (q : Nat) (y0 : Nat) (y1 : Nat) (y2 : Nat) (hσ : Only N σ y3)
    (hN : 0x4000000000000000000000000000000000000000000000000000000000000000 ||| N = N) : Only N σ (measureEffect q y0 y1 y2 y3) := hσ.step (measureEffect_within q y0 y1 y2 y3) hN

theorem execMeasure_within (q : Nat) (s : State) :
    OnlyOut 0x2d74844004023a4c03001f000000000000200000000000000000000000000145000 s (execMeasure q s) := by
  unfold execMeasure
  repeat' first
    | with_reducible exact Only.refl _ _
    | with_reducible refine Only.ite (fun _ => ?_) (fun _ => ?_)
    | with_reducible refine Only.foldl ?_ (fun _ _ => ?_)
    | with_reducible refine OnlyOut.next ?_
    | with_reducible refine OnlyOut.ite (fun _ => ?_) (fun _ => ?_)
    | with_reducible refine measureEffect_only _ _ _ _ ?_ (by decide)
    | with_reducible refine State.record_only _ _ _ (fun _ _ _ _ => ?_) ?_ (by decide)

theorem execMeasure_only {N : Nat} {σ s : State} (q : Nat) (hσ : Only N σ s)
    (hN : 0x2d74844004023a4c03001f000000000000200000000000000000000000000145000 ||| N = N) : OnlyOut N σ (execMeasure q s) := hσ.outcome (execMeasure_within q s) hN

theorem timArmEffect_within (q : Nat) (y0 : Nat) (y1 : Nat) (y2 : Nat) (y3 : State) :
    Only 0x4000000000000000000000000000000000000000000000000000000000000000 y3 (timArmEffect q y0 y1 y2 y3) := by
  unfold timArmEffect
  repeat' first
    | with_reducible exact Only.refl _ _
    | with_reducible refine Only.ite (fun _ => ?_) (fun _ => ?_)
    | with_reducible refine Only.foldl ?_ (fun _ _ => ?_)
    | with_reducible refine State.defer_only _ _ _ ?_ (by decide)

theorem timArmEffect_only {N : Nat} {σ y3 : State} (q : Nat) (y0 : Nat) (y1 : Nat) (y2 : Nat) (hσ : Only N σ y3)
    (hN : 0x4000000000000000000000000000000000000000000000000000000000000000 ||| N = N) : Only N σ (timArmEffect q y0 y1 y2 y3) := hσ.step (timArmEffect_within q y0 y1 y2 y3) hN

theorem execTimarm_within (q : Nat) (s : State) :
    OnlyOut 0x2d74844004023a4c03001f000000000000200000000000000000000000000145000 s (execTimarm q s) := by
  unfold execTimarm
  repeat' first
    | with_reducible exact Only.refl _ _
    | with_reducible refine Only.ite (fun _ => ?_) (fun _ => ?_)
    | with_reducible refine Only.foldl ?_ (fun _ _ => ?_)
    | with_reducible refine OnlyOut.next ?_
    | with_reducible refine OnlyOut.ite (fun _ => ?_) (fun _ => ?_)
    | with_reducible refine timArmEffect_only _ _ _ _ ?_ (by decide)
    | with_reducible refine State.record_only _ _ _ (fun _ _ _ _ => ?_) ?_ (by decide)

theorem execTimarm_only {N : Nat} {σ s : State} (q : Nat) (hσ : Only N σ s)
    (hN : 0x2d74844004023a4c03001f000000000000200000000000000000000000000145000 ||| N = N) : OnlyOut N σ (execTimarm q s) := hσ.outcome (execTimarm_within q s) hN

theorem feApplyEffect_within (q : Nat) (y0 : Nat) (y1 : Nat) (y2 : Nat) (y3 : State) :
    Only 0x4000000000000000000000000000000000000000000000000000000000000000 y3 (feApplyEffect q y0 y1 y2 y3) := by
  unfold feApplyEffect
  repeat' first
    | with_reducible exact Only.refl _ _
    | with_reducible refine Only.ite (fun _ => ?_) (fun _ => ?_)
    | with_reducible refine Only.foldl ?_ (fun _ _ => ?_)
    | with_reducible refine State.defer_only _ _ _ ?_ (by decide)

theorem feApplyEffect_only {N : Nat} {σ y3 : State} (q : Nat) (y0 : Nat) (y1 : Nat) (y2 : Nat) (hσ : Only N σ y3)
    (hN : 0x4000000000000000000000000000000000000000000000000000000000000000 ||| N = N) : Only N σ (feApplyEffect q y0 y1 y2 y3) := hσ.step (feApplyEffect_within q y0 y1 y2 y3) hN

theorem execFeapply_within (q : Nat) (s : State) :
    OnlyOut 0x2d74844004023a4c03001f000000000000200000000000000000000000000145000 s (execFeapply q s) := by
  unfold execFeapply
  repeat' first
    | with_reducible exact Only.refl _ _
    | with_reducible refine Only.ite (fun _ => ?_) (fun _ => ?_)
    | with_reducible refine Only.foldl ?_ (fun _ _ => ?_)
    | with_reducible refine OnlyOut.next ?_
    | with_reducible refine OnlyOut.ite (fun _ => ?_) (fun _ => ?_)
    | with_reducible refine feApplyEffect_only _ _ _ _ ?_ (by decide)
    | with_reducible refine State.record_only _ _ _ (fun _ _ _ _ => ?_) ?_ (by decide)

theorem execFeapply_only {N : Nat} {σ s : State} (q : Nat) (hσ : Only N σ s)
    (hN : 0x2d74844004023a4c03001f000000000000200000000000000000000000000145000 ||| N = N) : OnlyOut N σ (execFeapply q s) := hσ.outcome (execFeapply_within q s) hN

theorem pageHintEffect_within (q : Nat) (y0 : Nat) (y1 : Nat) (y2 : Nat) (y3 : State) :
    Only 0x800000000000000000000000000000000000000000000000000000000000000000 y3 (pageHintEffect q y0 y1 y2 y3) := by
  unfold pageHintEffect
  repeat' first
    | with_reducible exact Only.refl _ _
    | with_reducible refine Only.ite (fun _ => ?_) (fun _ => ?_)
    | with_reducible refine Only.foldl ?_ (fun _ _ => ?_)
    | with_reducible refine State.request_only _ ?_ (by decide)

theorem pageHintEffect_only {N : Nat} {σ y3 : State} (q : Nat) (y0 : Nat) (y1 : Nat) (y2 : Nat) (hσ : Only N σ y3)
    (hN : 0x800000000000000000000000000000000000000000000000000000000000000000 ||| N = N) : Only N σ (pageHintEffect q y0 y1 y2 y3) := hσ.step (pageHintEffect_within q y0 y1 y2 y3) hN

theorem execPagehint_within (q : Nat) (s : State) :
    OnlyOut 0x2d74844004023a4c03001f000000000000200000000000000000000000000145000 s (execPagehint q s) := by
  unfold execPagehint
  repeat' first
    | with_reducible exact Only.refl _ _
    | with_reducible refine Only.ite (fun _ => ?_) (fun _ => ?_)
    | with_reducible refine Only.foldl ?_ (fun _ _ => ?_)
    | with_reducible refine OnlyOut.next ?_
    | with_reducible refine OnlyOut.ite (fun _ => ?_) (fun _ => ?_)
    | with_reducible refine pageHintEffect_only _ _ _ _ ?_ (by decide)
    | with_reducible refine State.record_only _ _ _ (fun _ _ _ _ => ?_) ?_ (by decide)

theorem execPagehint_only {N : Nat} {σ s : State} (q : Nat) (hσ : Only N σ s)
    (hN : 0x2d74844004023a4c03001f000000000000200000000000000000000000000145000 ||| N = N) : OnlyOut N σ (execPagehint q s) := hσ.outcome (execPagehint_within q s) hN

theorem stopIfFailEffect_within (q : Nat) (y0 : Nat) (y1 : Nat) (y2 : Nat) (y3 : State) :
    Only 0x2d74844004001a4c030007000000000000200000000000000000000000000145000 y3 (stopIfFailEffect q y0 y1 y2 y3) := by
  unfold stopIfFailEffect
  repeat' first
    | with_reducible exact Only.refl _ _
    | with_reducible refine Only.ite (fun _ => ?_) (fun _ => ?_)
    | with_reducible refine Only.foldl ?_ (fun _ _ => ?_)
    | with_reducible refine State.beginStop_only _ _ _ _ ?_ (by decide)

theorem stopIfFailEffect_only {N : Nat} {σ y3 : State} (q : Nat) (y0 : Nat) (y1 : Nat) (y2 : Nat) (hσ : Only N σ y3)
    (hN : 0x2d74844004001a4c030007000000000000200000000000000000000000000145000 ||| N = N) : Only N σ (stopIfFailEffect q y0 y1 y2 y3) := hσ.step (stopIfFailEffect_within q y0 y1 y2 y3) hN

theorem execStopiffail_within (q : Nat) (s : State) :
    OnlyOut 0x2d74844004023a4c03001f000000000000200000000000000000000000000145000 s (execStopiffail q s) := by
  unfold execStopiffail
  repeat' first
    | with_reducible exact Only.refl _ _
    | with_reducible refine Only.ite (fun _ => ?_) (fun _ => ?_)
    | with_reducible refine Only.foldl ?_ (fun _ _ => ?_)
    | with_reducible refine OnlyOut.next ?_
    | with_reducible refine OnlyOut.ite (fun _ => ?_) (fun _ => ?_)
    | with_reducible refine stopIfFailEffect_only _ _ _ _ ?_ (by decide)
    | with_reducible refine State.record_only _ _ _ (fun _ _ _ _ => ?_) ?_ (by decide)

theorem execStopiffail_only {N : Nat} {σ s : State} (q : Nat) (hσ : Only N σ s)
    (hN : 0x2d74844004023a4c03001f000000000000200000000000000000000000000145000 ||| N = N) : OnlyOut N σ (execStopiffail q s) := hσ.outcome (execStopiffail_within q s) hN

theorem execHalt_within (q : Nat) (s : State) :
    OnlyOut 0x2d74844004023a4c03001f000000000000200000000000000000000000000145000 s (execHalt q s) := by
  unfold execHalt
  repeat' first
    | with_reducible exact Only.refl _ _
    | with_reducible refine Only.ite (fun _ => ?_) (fun _ => ?_)
    | with_reducible refine Only.foldl ?_ (fun _ _ => ?_)
    | with_reducible refine OnlyOut.next ?_
    | with_reducible refine OnlyOut.ite (fun _ => ?_) (fun _ => ?_)
    | with_reducible refine State.record_only _ _ _ (fun _ _ _ _ => ?_) ?_ (by decide)
    | with_reducible refine State.beginStop_only _ _ _ _ ?_ (by decide)

theorem execHalt_only {N : Nat} {σ s : State} (q : Nat) (hσ : Only N σ s)
    (hN : 0x2d74844004023a4c03001f000000000000200000000000000000000000000145000 ||| N = N) : OnlyOut N σ (execHalt q s) := hσ.outcome (execHalt_within q s) hN

theorem execEndRec_within (q : Nat) (s : State) :
    OnlyOut 0x2d74844004023a4c03001f000000000000200000000000000000000000000145000 s (execEndRec q s) := by
  unfold execEndRec
  repeat' first
    | with_reducible exact Only.refl _ _
    | with_reducible refine Only.ite (fun _ => ?_) (fun _ => ?_)
    | with_reducible refine Only.foldl ?_ (fun _ _ => ?_)
    | with_reducible refine OnlyOut.next ?_
    | with_reducible refine OnlyOut.ite (fun _ => ?_) (fun _ => ?_)
    | with_reducible refine State.record_only _ _ _ (fun _ _ _ _ => ?_) ?_ (by decide)
    | with_reducible refine State.beginStop_only _ _ _ _ ?_ (by decide)

theorem execEndRec_only {N : Nat} {σ s : State} (q : Nat) (hσ : Only N σ s)
    (hN : 0x2d74844004023a4c03001f000000000000200000000000000000000000000145000 ||| N = N) : OnlyOut N σ (execEndRec q s) := hσ.outcome (execEndRec_within q s) hN

theorem execPegWatchdog_within (q : Nat) (s : State) :
    OnlyOut 0x4000000000000000000000000000000000000000000000000000000000000000 s (execPegWatchdog q s) := by
  unfold execPegWatchdog
  repeat' first
    | with_reducible exact Only.refl _ _
    | with_reducible refine Only.ite (fun _ => ?_) (fun _ => ?_)
    | with_reducible refine Only.foldl ?_ (fun _ _ => ?_)
    | with_reducible refine OnlyOut.next ?_
    | with_reducible refine OnlyOut.ite (fun _ => ?_) (fun _ => ?_)
    | with_reducible refine State.setSeqX_only _ _ ?_ (by decide)
    | split
    | extract_lets

theorem execPegWatchdog_only {N : Nat} {σ s : State} (q : Nat) (hσ : Only N σ s)
    (hN : 0x4000000000000000000000000000000000000000000000000000000000000000 ||| N = N) : OnlyOut N σ (execPegWatchdog q s) := hσ.outcome (execPegWatchdog_within q s) hN

theorem execHoldTimeout_within (q : Nat) (s : State) :
    OnlyOut 0x4004000000000000401000000000000000000000000000000000000000001000 s (execHoldTimeout q s) := by
  unfold execHoldTimeout
  repeat' first
    | with_reducible exact Only.refl _ _
    | with_reducible refine Only.ite (fun _ => ?_) (fun _ => ?_)
    | with_reducible refine Only.foldl ?_ (fun _ _ => ?_)
    | with_reducible refine OnlyOut.next ?_
    | with_reducible refine OnlyOut.ite (fun _ => ?_) (fun _ => ?_)
    | with_reducible refine State.setLf_only _ _ _ ?_ (by decide)
    | with_reducible refine State.setSeqX_only _ _ ?_ (by decide)
    | with_reducible refine State.hwSet_only _ _ _ ?_ (by decide)
    | split
    | extract_lets

theorem execHoldTimeout_only {N : Nat} {σ s : State} (q : Nat) (hσ : Only N σ s)
    (hN : 0x4004000000000000401000000000000000000000000000000000000000001000 ||| N = N) : OnlyOut N σ (execHoldTimeout q s) := hσ.outcome (execHoldTimeout_within q s) hN

theorem execBarrierRelease_within (q : Nat) (i : Nat) (s : State) :
    OnlyOut 0xc000000000000001000000000000000000000000000000000000000000000000 s (execBarrierRelease q i s) := by
  unfold execBarrierRelease
  repeat' first
    | with_reducible exact Only.refl _ _
    | with_reducible refine Only.ite (fun _ => ?_) (fun _ => ?_)
    | with_reducible refine Only.foldl ?_ (fun _ _ => ?_)
    | with_reducible refine OnlyOut.next ?_
    | with_reducible refine OnlyOut.ite (fun _ => ?_) (fun _ => ?_)
    | with_reducible refine State.barrierRelease_only _ _ ?_ (by decide)

theorem execBarrierRelease_only {N : Nat} {σ s : State} (q : Nat) (i : Nat) (hσ : Only N σ s)
    (hN : 0xc000000000000001000000000000000000000000000000000000000000000000 ||| N = N) : OnlyOut N σ (execBarrierRelease q i s) := hσ.outcome (execBarrierRelease_within q i s) hN

theorem execPark_within (q : Nat) (s : State) :
    OnlyOut 0x2d74844004001a4c030007000000000000200000000000000000000000000145000 s (execPark q s) := by
  unfold execPark
  repeat' first
    | with_reducible exact Only.refl _ _
    | with_reducible refine Only.ite (fun _ => ?_) (fun _ => ?_)
    | with_reducible refine Only.foldl ?_ (fun _ _ => ?_)
    | with_reducible refine OnlyOut.next ?_
    | with_reducible refine OnlyOut.ite (fun _ => ?_) (fun _ => ?_)
    | with_reducible refine State.tryPark_only _ ?_ (by decide)

theorem execPark_only {N : Nat} {σ s : State} (q : Nat) (hσ : Only N σ s)
    (hN : 0x2d74844004001a4c030007000000000000200000000000000000000000000145000 ||| N = N) : OnlyOut N σ (execPark q s) := hσ.outcome (execPark_within q s) hN

theorem State.launchAll_within (s : State) (mask : Nat) :
    Only 0x20d7484400c000000810409000000000000000000000000000002000000000145000 s (State.launchAll s mask).2 := by
  unfold State.launchAll
  repeat' first
    | with_reducible exact Only.refl _ _
    | with_reducible refine Only.ite (fun _ => ?_) (fun _ => ?_)
    | with_reducible refine Only.foldl ?_ (fun _ _ => ?_)
    | with_reducible refine Only.foldlSnd ?_ (fun _ _ => ?_)
    | with_reducible refine State.launch_only _ ?_ (by decide)
    | with_reducible refine State.launch_only_eq (by assumption) ?_ (by decide)
    | split

theorem State.launchAll_only {N : Nat} {σ s : State} (mask : Nat) (hσ : Only N σ s)
    (hN : 0x20d7484400c000000810409000000000000000000000000000002000000000145000 ||| N = N) : Only N σ (State.launchAll s mask).2 := hσ.step (State.launchAll_within s mask) hN

theorem State.launchAll_only_eq {N : Nat} {σ s t : State} {mask : Nat} {r0 : Nat} (heq : State.launchAll s mask = (r0, t)) (hσ : Only N σ s)
    (hN : 0x20d7484400c000000810409000000000000000000000000000002000000000145000 ||| N = N) : Only N σ t := hσ.step (Only.snd heq (State.launchAll_within s mask)) hN

theorem execRaiseFire_within (e : Nat) (s : State) :
    OnlyOut 0x20d7484400c000000810409000000000000000000000000000002000001000945000 s (execRaiseFire e s) := by
  unfold execRaiseFire
  repeat' first
    | with_reducible exact Only.refl _ _
    | with_reducible refine Only.ite (fun _ => ?_) (fun _ => ?_)
    | with_reducible refine Only.foldl ?_ (fun _ _ => ?_)
    | with_reducible refine OnlyOut.next ?_
    | with_reducible refine OnlyOut.ite (fun _ => ?_) (fun _ => ?_)
    | with_reducible refine State.launchAll_only _ ?_ (by decide)
    | with_reducible refine State.launchAll_only_eq (by assumption) ?_ (by decide)
    | with_reducible refine State.updatePending_only  ?_ (by decide)
    | with_reducible refine State.post_only _ _ _ ?_ (by decide)
    | with_reducible refine State.discardAt_only _ _ ?_ (by decide)
    | with_reducible refine Only.onObj ?_ (fun _ => ?_) (by decide)
    | with_reducible refine State.set_only _ _ _ _ ?_ (by decide)

theorem execRaiseFire_only {N : Nat} {σ s : State} (e : Nat) (hσ : Only N σ s)
    (hN : 0x20d7484400c000000810409000000000000000000000000000002000001000945000 ||| N = N) : OnlyOut N σ (execRaiseFire e s) := hσ.outcome (execRaiseFire_within e s) hN

end Sys2Proof.Machine
end

