-- ==== Sys2Proof/Laws/Frame/Site.lean ====
section
/-!
SUPPORT. Site.lean: what each operation of Machine/Site.lean can change (see Only).
-/
namespace Sys2Proof.Machine
set_option Elab.async false

theorem execSiteCommit_within (s : State) :
    OnlyOut 0x400004000e00000000000000000000000000000000000000000000000000001000 s (execSiteCommit s) := by
  unfold execSiteCommit
  repeat' first
    | with_reducible exact Only.refl _ _
    | with_reducible refine Only.ite (fun _ => ?_) (fun _ => ?_)
    | with_reducible refine Only.foldl ?_ (fun _ _ => ?_)
    | with_reducible refine OnlyOut.next ?_
    | with_reducible refine OnlyOut.ite (fun _ => ?_) (fun _ => ?_)
    | with_reducible refine State.siteCommit_only  ?_ (by decide)

theorem execSiteCommit_only {N : Nat} {σ s : State}  (hσ : Only N σ s)
    (hN : 0x400004000e00000000000000000000000000000000000000000000000000001000 ||| N = N) : OnlyOut N σ (execSiteCommit s) := hσ.outcome (execSiteCommit_within s) hN

theorem execRetire_within (k : Nat) (s : State) :
    OnlyOut 0x410000006000000000000000000000000000000000000000000000000000000000 s (execRetire k s) := by
  unfold execRetire
  repeat' first
    | with_reducible exact Only.refl _ _
    | with_reducible refine Only.ite (fun _ => ?_) (fun _ => ?_)
    | with_reducible refine Only.foldl ?_ (fun _ _ => ?_)
    | with_reducible refine OnlyOut.next ?_
    | with_reducible refine OnlyOut.ite (fun _ => ?_) (fun _ => ?_)
    | with_reducible refine State.retire_only _ ?_ (by decide)
    | with_reducible refine State.set_only _ _ _ _ ?_ (by decide)

theorem execRetire_only {N : Nat} {σ s : State} (k : Nat) (hσ : Only N σ s)
    (hN : 0x410000006000000000000000000000000000000000000000000000000000000000 ||| N = N) : OnlyOut N σ (execRetire k s) := hσ.outcome (execRetire_within k s) hN

theorem execSiteEnd_within (k : Nat) (s : State) :
    OnlyOut 0x401844008000000000000000000000000000000000400000000000000000145000 s (execSiteEnd k s) := by
  unfold execSiteEnd
  repeat' first
    | with_reducible exact Only.refl _ _
    | with_reducible refine Only.ite (fun _ => ?_) (fun _ => ?_)
    | with_reducible refine Only.foldl ?_ (fun _ _ => ?_)
    | with_reducible refine OnlyOut.next ?_
    | with_reducible refine OnlyOut.ite (fun _ => ?_) (fun _ => ?_)
    | with_reducible refine State.siteEnd_only _ _ ?_ (by decide)
    | split

theorem execSiteEnd_only {N : Nat} {σ s : State} (k : Nat) (hσ : Only N σ s)
    (hN : 0x401844008000000000000000000000000000000000400000000000000000145000 ||| N = N) : OnlyOut N σ (execSiteEnd k s) := hσ.outcome (execSiteEnd_within k s) hN

end Sys2Proof.Machine
end

