-- ==== Sys2Proof/Laws/Frame/Tim.lean ====
section
/-!
SUPPORT. Tim.lean: what each operation of Machine/Tim.lean can change (see Only).
-/
namespace Sys2Proof.Machine
set_option Elab.async false

theorem execTimArm_within (m : Nat) (src : Src) (s : State) :
    OnlyOut 0x8000004000000000000000000400000000000000000000000000000000000001000 s (execTimArm m src s) := by
  unfold execTimArm
  repeat' first
    | with_reducible exact Only.refl _ _
    | with_reducible refine Only.ite (fun _ => ?_) (fun _ => ?_)
    | with_reducible refine Only.foldl ?_ (fun _ _ => ?_)
    | with_reducible refine OnlyOut.next ?_
    | with_reducible refine OnlyOut.ite (fun _ => ?_) (fun _ => ?_)
    | with_reducible refine State.timArm_only _ _ ?_ (by decide)

theorem execTimArm_only {N : Nat} {σ s : State} (m : Nat) (src : Src) (hσ : Only N σ s)
    (hN : 0x8000004000000000000000000400000000000000000000000000000000000001000 ||| N = N) : OnlyOut N σ (execTimArm m src s) := hσ.outcome (execTimArm_within m src s) hN

theorem execTimDisarm_within (m : Nat) (src : Src) (s : State) :
    OnlyOut 0xc2019c4000000000000000000700c00000000000000400000002000000000145000 s (execTimDisarm m src s) := by
  unfold execTimDisarm
  repeat' first
    | with_reducible exact Only.refl _ _
    | with_reducible refine Only.ite (fun _ => ?_) (fun _ => ?_)
    | with_reducible refine Only.foldl ?_ (fun _ _ => ?_)
    | with_reducible refine OnlyOut.next ?_
    | with_reducible refine OnlyOut.ite (fun _ => ?_) (fun _ => ?_)
    | with_reducible refine State.timSettle_only _ _ ?_ (by decide)
    | with_reducible refine State.endSeries_only _ ?_ (by decide)
    | with_reducible refine State.timIdle_only _ ?_ (by decide)
    | with_reducible refine Only.onObj ?_ (fun _ => ?_) (by decide)

theorem execTimDisarm_only {N : Nat} {σ s : State} (m : Nat) (src : Src) (hσ : Only N σ s)
    (hN : 0xc2019c4000000000000000000700c00000000000000400000002000000000145000 ||| N = N) : OnlyOut N σ (execTimDisarm m src s) := hσ.outcome (execTimDisarm_within m src s) hN

theorem execTimResultClear_within (m : Nat) (src : Src) (s : State) :
    OnlyOut 0x4000000000000000000700000000000000000000000000000000000001000 s (execTimResultClear m src s) := by
  unfold execTimResultClear
  repeat' first
    | with_reducible exact Only.refl _ _
    | with_reducible refine Only.ite (fun _ => ?_) (fun _ => ?_)
    | with_reducible refine Only.foldl ?_ (fun _ _ => ?_)
    | with_reducible refine OnlyOut.next ?_
    | with_reducible refine OnlyOut.ite (fun _ => ?_) (fun _ => ?_)
    | with_reducible refine State.timSet_only _ _ _ ?_ (by decide)
    | with_reducible refine Only.onObj ?_ (fun _ => ?_) (by decide)

theorem execTimResultClear_only {N : Nat} {σ s : State} (m : Nat) (src : Src) (hσ : Only N σ s)
    (hN : 0x4000000000000000000700000000000000000000000000000000000001000 ||| N = N) : OnlyOut N σ (execTimResultClear m src s) := hσ.outcome (execTimResultClear_within m src s) hN

theorem execTimEdge_within (m : Nat) (src : Nat) (rising : Bool) (p : Int) (s : State) :
    OnlyOut 0x8004004000000000000000000600000000000000000000000000000000000001000 s (execTimEdge m src rising p s) := by
  unfold execTimEdge
  repeat' first
    | with_reducible exact Only.refl _ _
    | with_reducible refine Only.ite (fun _ => ?_) (fun _ => ?_)
    | with_reducible refine Only.foldl ?_ (fun _ _ => ?_)
    | with_reducible refine OnlyOut.next ?_
    | with_reducible refine OnlyOut.ite (fun _ => ?_) (fun _ => ?_)
    | with_reducible refine State.timCross_only _ _ _ _ ?_ (by decide)
    | with_reducible refine State.armsDue_only _ ?_ (by decide)

theorem execTimEdge_only {N : Nat} {σ s : State} (m : Nat) (src : Nat) (rising : Bool) (p : Int) (hσ : Only N σ s)
    (hN : 0x8004004000000000000000000600000000000000000000000000000000000001000 ||| N = N) : OnlyOut N σ (execTimEdge m src rising p s) := hσ.outcome (execTimEdge_within m src rising p s) hN

theorem execTimComplete_within (m : Nat) (s : State) :
    OnlyOut 0x80018c4000000000000000000700000000000000000400000000000000000145000 s (execTimComplete m s) := by
  unfold execTimComplete
  repeat' first
    | with_reducible exact Only.refl _ _
    | with_reducible refine Only.ite (fun _ => ?_) (fun _ => ?_)
    | with_reducible refine Only.foldl ?_ (fun _ _ => ?_)
    | with_reducible refine OnlyOut.next ?_
    | with_reducible refine OnlyOut.ite (fun _ => ?_) (fun _ => ?_)
    | with_reducible refine State.timSettle_only _ _ ?_ (by decide)
    | with_reducible refine State.timIdle_only _ ?_ (by decide)
    | with_reducible refine State.timDone_only _ _ _ ?_ (by decide)
    | with_reducible refine State.timValues_only _ ?_ (by decide)
    | with_reducible refine State.timValues_only_eq (by assumption) ?_ (by decide)
    | with_reducible refine State.discardAt_only _ _ ?_ (by decide)
    | with_reducible refine State.decideEvent_only _ _ _ _ ?_ (by decide)
    | with_reducible refine State.decideEvent_only_eq (by assumption) ?_ (by decide)
    | with_reducible refine State.superseded_only ?_ (by decide)
    | split
    | extract_lets

theorem execTimComplete_only {N : Nat} {σ s : State} (m : Nat) (hσ : Only N σ s)
    (hN : 0x80018c4000000000000000000700000000000000000400000000000000000145000 ||| N = N) : OnlyOut N σ (execTimComplete m s) := hσ.outcome (execTimComplete_within m s) hN

theorem State.timeoutAux_within (s : State) (m : Nat) :
    Only 0x80000000000000000000000000000000000000000000000000000000000000 s (State.timeoutAux s m).2 := by
  unfold State.timeoutAux
  repeat' first
    | with_reducible exact Only.refl _ _
    | with_reducible refine Only.ite (fun _ => ?_) (fun _ => ?_)
    | with_reducible refine Only.foldl ?_ (fun _ _ => ?_)
    | with_reducible refine State.useFree_only  ?_ (by decide)
    | split

theorem State.timeoutAux_only {N : Nat} {σ s : State} (m : Nat) (hσ : Only N σ s)
    (hN : 0x80000000000000000000000000000000000000000000000000000000000000 ||| N = N) : Only N σ (State.timeoutAux s m).2 := hσ.step (State.timeoutAux_within s m) hN

theorem State.timeoutAux_only_eq {N : Nat} {σ s t : State} {m : Nat} {r0 : Nat} (heq : State.timeoutAux s m = (r0, t)) (hσ : Only N σ s)
    (hN : 0x80000000000000000000000000000000000000000000000000000000000000 ||| N = N) : Only N σ t := hσ.step (Only.snd heq (State.timeoutAux_within s m)) hN

theorem execTimTimeout_within (m : Nat) (s : State) :
    OnlyOut 0xc2019c4000000000000000000700c00000000000000400000002000000000145000 s (execTimTimeout m s) := by
  unfold execTimTimeout
  repeat' first
    | with_reducible exact Only.refl _ _
    | with_reducible refine Only.ite (fun _ => ?_) (fun _ => ?_)
    | with_reducible refine Only.foldl ?_ (fun _ _ => ?_)
    | with_reducible refine OnlyOut.next ?_
    | with_reducible refine OnlyOut.ite (fun _ => ?_) (fun _ => ?_)
    | with_reducible refine State.timeoutAux_only _ ?_ (by decide)
    | with_reducible refine State.timeoutAux_only_eq (by assumption) ?_ (by decide)
    | with_reducible refine State.timSettle_only _ _ ?_ (by decide)
    | with_reducible refine State.endSeries_only _ ?_ (by decide)
    | with_reducible refine State.timIdle_only _ ?_ (by decide)
    | with_reducible refine State.timDone_only _ _ _ ?_ (by decide)
    | with_reducible refine State.timSet_only _ _ _ ?_ (by decide)
    | with_reducible refine State.decideEvent_only _ _ _ _ ?_ (by decide)
    | with_reducible refine State.decideEvent_only_eq (by assumption) ?_ (by decide)
    | with_reducible refine State.superseded_only ?_ (by decide)
    | split

theorem execTimTimeout_only {N : Nat} {σ s : State} (m : Nat) (hσ : Only N σ s)
    (hN : 0xc2019c4000000000000000000700c00000000000000400000002000000000145000 ||| N = N) : OnlyOut N σ (execTimTimeout m s) := hσ.outcome (execTimTimeout_within m s) hN

theorem execSeriesEntry_within (m : Nat) (s : State) :
    OnlyOut 0xc200944000000000000000000600c00000000000000000000002000000000145000 s (execSeriesEntry m s) := by
  unfold execSeriesEntry
  repeat' first
    | with_reducible exact Only.refl _ _
    | with_reducible refine Only.ite (fun _ => ?_) (fun _ => ?_)
    | with_reducible refine Only.foldl ?_ (fun _ _ => ?_)
    | with_reducible refine OnlyOut.next ?_
    | with_reducible refine OnlyOut.ite (fun _ => ?_) (fun _ => ?_)
    | with_reducible refine State.timSettle_only _ _ ?_ (by decide)
    | with_reducible refine State.seriesEntry_only _ ?_ (by decide)

theorem execSeriesEntry_only {N : Nat} {σ s : State} (m : Nat) (hσ : Only N σ s)
    (hN : 0xc200944000000000000000000600c00000000000000000000002000000000145000 ||| N = N) : OnlyOut N σ (execSeriesEntry m s) := hσ.outcome (execSeriesEntry_within m s) hN

theorem execTimStatClear_within (m : Nat) (s : State) :
    OnlyOut 0x4000000000000000000400000000000000000000000000000000000001000 s (execTimStatClear m s) := by
  unfold execTimStatClear
  repeat' first
    | with_reducible exact Only.refl _ _
    | with_reducible refine Only.ite (fun _ => ?_) (fun _ => ?_)
    | with_reducible refine Only.foldl ?_ (fun _ _ => ?_)
    | with_reducible refine OnlyOut.next ?_
    | with_reducible refine OnlyOut.ite (fun _ => ?_) (fun _ => ?_)
    | with_reducible refine State.timSet_only _ _ _ ?_ (by decide)
    | with_reducible refine State.clear_only _ _ _ ?_ (by decide)

theorem execTimStatClear_only {N : Nat} {σ s : State} (m : Nat) (hσ : Only N σ s)
    (hN : 0x4000000000000000000400000000000000000000000000000000000001000 ||| N = N) : OnlyOut N σ (execTimStatClear m s) := hσ.outcome (execTimStatClear_within m s) hN

end Sys2Proof.Machine
end

