-- ==== Sys2Proof/Laws/Frame/Timing.lean ====
section
/-!
SUPPORT. Timing.lean: what each operation of Machine/Timing.lean can change (see Only).
-/
namespace Sys2Proof.Machine
set_option Elab.async false

theorem execTableCommit_within (q : Nat) (src : Src) (s : State) :
    OnlyOut 0x10034844000000000030000300000000000000001200000000000000000000145000 s (execTableCommit q src s) := by
  unfold execTableCommit
  repeat' first
    | with_reducible exact Only.refl _ _
    | with_reducible refine Only.ite (fun _ => ?_) (fun _ => ?_)
    | with_reducible refine Only.foldl ?_ (fun _ _ => ?_)
    | with_reducible refine OnlyOut.next ?_
    | with_reducible refine OnlyOut.ite (fun _ => ?_) (fun _ => ?_)
    | with_reducible refine State.calWatch_only  ?_ (by decide)
    | with_reducible refine State.tableCommit_only _ _ _ ?_ (by decide)

theorem execTableCommit_only {N : Nat} {σ s : State} (q : Nat) (src : Src) (hσ : Only N σ s)
    (hN : 0x10034844000000000030000300000000000000001200000000000000000000145000 ||| N = N) : OnlyOut N σ (execTableCommit q src s) := hσ.outcome (execTableCommit_within q src s) hN

theorem State.dclkStart_within (s : State) (b : Nat) (g : Nat) :
    Only 0x100000000000000000000000000000000000000000000000000000000000000000 s (State.dclkStart s b g) := by
  unfold State.dclkStart
  repeat' first
    | with_reducible exact Only.refl _ _
    | with_reducible refine Only.ite (fun _ => ?_) (fun _ => ?_)
    | with_reducible refine Only.foldl ?_ (fun _ _ => ?_)
    | with_reducible refine State.setDclk_only _ _ _ ?_ (by decide)
    | split
    | extract_lets

theorem State.dclkStart_only {N : Nat} {σ s : State} (b : Nat) (g : Nat) (hσ : Only N σ s)
    (hN : 0x100000000000000000000000000000000000000000000000000000000000000000 ||| N = N) : Only N σ (State.dclkStart s b g) := hσ.step (State.dclkStart_within s b g) hN

theorem execDclkStart_within (b : Nat) (g : Nat) (src : Src) (s : State) :
    OnlyOut 0x100004000000000000000000000000000000000000000000000000000000001000 s (execDclkStart b g src s) := by
  unfold execDclkStart
  repeat' first
    | with_reducible exact Only.refl _ _
    | with_reducible refine Only.ite (fun _ => ?_) (fun _ => ?_)
    | with_reducible refine Only.foldl ?_ (fun _ _ => ?_)
    | with_reducible refine OnlyOut.next ?_
    | with_reducible refine OnlyOut.ite (fun _ => ?_) (fun _ => ?_)
    | with_reducible refine State.dclkStart_only _ _ ?_ (by decide)
    | with_reducible refine Only.onObj ?_ (fun _ => ?_) (by decide)

theorem execDclkStart_only {N : Nat} {σ s : State} (b : Nat) (g : Nat) (src : Src) (hσ : Only N σ s)
    (hN : 0x100004000000000000000000000000000000000000000000000000000000001000 ||| N = N) : OnlyOut N σ (execDclkStart b g src s) := hσ.outcome (execDclkStart_within b g src s) hN

theorem execDclkDisable_within (b : Nat) (g : Nat) (src : Src) (s : State) :
    OnlyOut 0x100004000000000000000000000000000000000000000000000000000000001000 s (execDclkDisable b g src s) := by
  unfold execDclkDisable
  repeat' first
    | with_reducible exact Only.refl _ _
    | with_reducible refine Only.ite (fun _ => ?_) (fun _ => ?_)
    | with_reducible refine Only.foldl ?_ (fun _ _ => ?_)
    | with_reducible refine OnlyOut.next ?_
    | with_reducible refine OnlyOut.ite (fun _ => ?_) (fun _ => ?_)
    | with_reducible refine State.setDclk_only _ _ _ ?_ (by decide)
    | with_reducible refine Only.onObj ?_ (fun _ => ?_) (by decide)

theorem execDclkDisable_only {N : Nat} {σ s : State} (b : Nat) (g : Nat) (src : Src) (hσ : Only N σ s)
    (hN : 0x100004000000000000000000000000000000000000000000000000000000001000 ||| N = N) : OnlyOut N σ (execDclkDisable b g src s) := hσ.outcome (execDclkDisable_within b g src s) hN

theorem State.dclkCommit_within (s : State) (b : Nat) (g : Nat) :
    Only 0x100000000000000000000000000000000000000000000000000000000000000000 s (State.dclkCommit s b g) := by
  unfold State.dclkCommit
  repeat' first
    | with_reducible exact Only.refl _ _
    | with_reducible refine Only.ite (fun _ => ?_) (fun _ => ?_)
    | with_reducible refine Only.foldl ?_ (fun _ _ => ?_)
    | with_reducible refine State.setDclk_only _ _ _ ?_ (by decide)

theorem State.dclkCommit_only {N : Nat} {σ s : State} (b : Nat) (g : Nat) (hσ : Only N σ s)
    (hN : 0x100000000000000000000000000000000000000000000000000000000000000000 ||| N = N) : Only N σ (State.dclkCommit s b g) := hσ.step (State.dclkCommit_within s b g) hN

theorem execFrequencyCommit_within (b : Nat) (g : Nat) (src : Src) (s : State) :
    OnlyOut 0x100004000000000000000000000000000000000000000000000000000000001000 s (execFrequencyCommit b g src s) := by
  unfold execFrequencyCommit
  repeat' first
    | with_reducible exact Only.refl _ _
    | with_reducible refine Only.ite (fun _ => ?_) (fun _ => ?_)
    | with_reducible refine Only.foldl ?_ (fun _ _ => ?_)
    | with_reducible refine OnlyOut.next ?_
    | with_reducible refine OnlyOut.ite (fun _ => ?_) (fun _ => ?_)
    | with_reducible refine State.dclkCommit_only _ _ ?_ (by decide)
    | with_reducible refine Only.onObj ?_ (fun _ => ?_) (by decide)

theorem execFrequencyCommit_only {N : Nat} {σ s : State} (b : Nat) (g : Nat) (src : Src) (hσ : Only N σ s)
    (hN : 0x100004000000000000000000000000000000000000000000000000000000001000 ||| N = N) : OnlyOut N σ (execFrequencyCommit b g src s) := hσ.outcome (execFrequencyCommit_within b g src s) hN

theorem State.driveEvent_within (s : State) (c : Nat) (e : Ev) (rest : List Ev) :
    Only 0x10044000000000000000000000000000004000000000000000000000000001000 s (State.driveEvent s c e rest) := by
  unfold State.driveEvent
  repeat' first
    | with_reducible exact Only.refl _ _
    | with_reducible refine Only.ite (fun _ => ?_) (fun _ => ?_)
    | with_reducible refine Only.foldl ?_ (fun _ _ => ?_)
    | with_reducible refine State.applyDrive_only _ _ ?_ (by decide)
    | with_reducible refine State.count_only _ _ _ _ _ ?_ (by decide)

theorem State.driveEvent_only {N : Nat} {σ s : State} (c : Nat) (e : Ev) (rest : List Ev) (hσ : Only N σ s)
    (hN : 0x10044000000000000000000000000000004000000000000000000000000001000 ||| N = N) : Only N σ (State.driveEvent s c e rest) := hσ.step (State.driveEvent_within s c e rest) hN

theorem execEdgeApply_within (c : Nat) (high : List (Nat × Bool)) (low : List (Nat × Bool)) (s : State) :
    OnlyOut 0x5404400000024c000000000000000000204000000000000000000000000001000 s (execEdgeApply c high low s) := by
  unfold execEdgeApply
  repeat' first
    | with_reducible exact Only.refl _ _
    | with_reducible refine Only.ite (fun _ => ?_) (fun _ => ?_)
    | with_reducible refine Only.foldl ?_ (fun _ _ => ?_)
    | with_reducible refine OnlyOut.next ?_
    | with_reducible refine OnlyOut.ite (fun _ => ?_) (fun _ => ?_)
    | with_reducible refine State.driveEvent_only _ _ _ ?_ (by decide)
    | with_reducible refine State.compared_only _ ?_ (by decide)
    | with_reducible refine State.applyCompare_only _ _ _ _ ?_ (by decide)
    | with_reducible refine State.setChan_only _ _ ?_ (by decide)
    | split

theorem execEdgeApply_only {N : Nat} {σ s : State} (c : Nat) (high : List (Nat × Bool)) (low : List (Nat × Bool)) (hσ : Only N σ s)
    (hN : 0x5404400000024c000000000000000000204000000000000000000000000001000 ||| N = N) : OnlyOut N σ (execEdgeApply c high low s) := hσ.outcome (execEdgeApply_within c high low s) hN

theorem execEdgeStatClear_within (b : Nat) (i : Nat) (s : State) :
    OnlyOut 0x4000000000000000000000000000004000000000000000000000000001000 s (execEdgeStatClear b i s) := by
  unfold execEdgeStatClear
  repeat' first
    | with_reducible exact Only.refl _ _
    | with_reducible refine Only.ite (fun _ => ?_) (fun _ => ?_)
    | with_reducible refine Only.foldl ?_ (fun _ _ => ?_)
    | with_reducible refine OnlyOut.next ?_
    | with_reducible refine OnlyOut.ite (fun _ => ?_) (fun _ => ?_)
    | with_reducible refine State.set_only _ _ _ _ ?_ (by decide)
    | with_reducible refine State.clear_only _ _ _ ?_ (by decide)

theorem execEdgeStatClear_only {N : Nat} {σ s : State} (b : Nat) (i : Nat) (hσ : Only N σ s)
    (hN : 0x4000000000000000000000000000004000000000000000000000000001000 ||| N = N) : OnlyOut N σ (execEdgeStatClear b i s) := hσ.outcome (execEdgeStatClear_within b i s) hN

end Sys2Proof.Machine
end

