-- ==== Sys2Proof/Laws/Frame/OpsWrite.lean ====
section
/-!
SUPPORT. OpsWrite.lean: what each operation of Machine/OpsWrite.lean can change (see Only).
-/
namespace Sys2Proof.Machine
set_option Elab.async false

theorem Only.doing {N : Nat} {σ s : State} {f : State → Host.Outcome State Fault Refusal} (hσ : Only N σ s)
    (hf : ∀ t, OnlyOut N t (f t)) : Only N σ (s.doing f) := by
  unfold State.doing
  split
  · next heq => exact hσ.step (hf s _ heq) (Nat.or_self N)
  · exact hσ

theorem Only.act {N : Nat} {σ s : State} {d : Word} {n : Nat} {f : State → State} (hσ : Only N σ s)
    (hf : ∀ t, Only N t (f t)) : Only N σ (s.act d n f) := by
  unfold State.act
  split
  · exact hσ.step (hf s) (Nat.or_self N)
  · exact hσ

theorem Only.actDo {N : Nat} {σ s : State} {d : Word} {n : Nat} {f : State → Host.Outcome State Fault Refusal}
    (hσ : Only N σ s) (hf : ∀ t, OnlyOut N t (f t)) : Only N σ (s.actDo d n f) :=
  hσ.act fun _ => (Only.refl _ _).doing hf

theorem State.w1cBit_only {N : Nat} {σ s : State} (k : RegKey) (n : Nat) (hσ : Only N σ s) (hN : 0x7ffffffe01ffffffffffffffffffffffffffffffffffffffffffffffffffffffffff ||| N = N) :
    Only N σ (s.w1cBit k n) :=
  State.clearing_only _ _ hσ (State.wr_only _ _ hσ (anyReg _ (sub_of (by decide) hN))) (sub_of (by decide) hN)

theorem State.w1c_within (s : State) (k : RegKey) (d : Word) :
    Only 0x7ffffffe01ffffffffffffffffffffffffffffffffffffffffffffffffffffffffff s (State.w1c s k d) := by
  unfold State.w1c
  repeat' first
    | with_reducible exact Only.refl _ _
    | with_reducible refine Only.ite (fun _ => ?_) (fun _ => ?_)
    | with_reducible refine Only.foldl ?_ (fun _ _ => ?_)
    | with_reducible refine State.w1cBit_only _ _ ?_ (by decide)

theorem State.w1c_only {N : Nat} {σ s : State} (k : RegKey) (d : Word) (hσ : Only N σ s)
    (hN : 0x7ffffffe01ffffffffffffffffffffffffffffffffffffffffffffffffffffffffff ||| N = N) : Only N σ (State.w1c s k d) := hσ.step (State.w1c_within s k d) hN

theorem State.plainWrite_within (s : State) (k : RegKey) (host : Bool) (d : Word) :
    Only 0x7ffffffe01ffffffffffffffffffffffffffffffffffffffffffffffffffffffffff s (State.plainWrite s k host d) := by
  unfold State.plainWrite
  repeat' first
    | with_reducible exact Only.refl _ _
    | with_reducible refine Only.ite (fun _ => ?_) (fun _ => ?_)
    | with_reducible refine Only.foldl ?_ (fun _ _ => ?_)
    | with_reducible refine State.w1c_only _ _ ?_ (by decide)
    | with_reducible refine State.storeRw_only _ _ _ ?_ (by exact anyReg _ (by decide))

theorem State.plainWrite_only {N : Nat} {σ s : State} (k : RegKey) (host : Bool) (d : Word) (hσ : Only N σ s)
    (hN : 0x7ffffffe01ffffffffffffffffffffffffffffffffffffffffffffffffffffffffff ||| N = N) : Only N σ (State.plainWrite s k host d) := hσ.step (State.plainWrite_within s k host d) hN

theorem State.keep_within (s : State) (old : State) (f : Fld) (i : Nat) (j : Nat) :
    Only 0x7ffffffe01ffffffffffffffffffffffffffffffffffffffffffffffffffffffffff s (State.keep s old f i j) := by
  unfold State.keep
  repeat' first
    | with_reducible exact Only.refl _ _
    | with_reducible refine Only.ite (fun _ => ?_) (fun _ => ?_)
    | with_reducible refine Only.foldl ?_ (fun _ _ => ?_)
    | with_reducible refine State.set_only _ _ _ _ ?_ (by first | decide | exact anyFld _ (by decide))

theorem State.keep_only {N : Nat} {σ s : State} (old : State) (f : Fld) (i : Nat) (j : Nat) (hσ : Only N σ s)
    (hN : 0x7ffffffe01ffffffffffffffffffffffffffffffffffffffffffffffffffffffffff ||| N = N) : Only N σ (State.keep s old f i j) := hσ.step (State.keep_within s old f i j) hN

theorem State.timeCtrlWrite_within (s : State) (k : RegKey) (host : Bool) (d : Word) :
    Only 0x7ffffffe01ffffffffffffffffffffffffffffffffffffffffffffffffffffffffff s (State.timeCtrlWrite s k host d) := by
  unfold State.timeCtrlWrite
  repeat' first
    | with_reducible exact Only.refl _ _
    | with_reducible refine Only.ite (fun _ => ?_) (fun _ => ?_)
    | with_reducible refine Only.foldl ?_ (fun _ _ => ?_)
    | fail_if_no_progress with_reducible refine Only.fields ?_ rfl rfl
    | with_reducible refine State.keep_only _ _ _ _ ?_ (by decide)
    | with_reducible refine State.plainWrite_only _ _ _ ?_ (by decide)
    | with_reducible refine State.ask_only _ ?_ (by decide)
    | with_reducible refine State.changeAt_only _ _ ?_ (by decide)
    | with_reducible refine State.set_only _ _ _ _ ?_ (by decide)

theorem State.timeCtrlWrite_only {N : Nat} {σ s : State} (k : RegKey) (host : Bool) (d : Word) (hσ : Only N σ s)
    (hN : 0x7ffffffe01ffffffffffffffffffffffffffffffffffffffffffffffffffffffffff ||| N = N) : Only N σ (State.timeCtrlWrite s k host d) := hσ.step (State.timeCtrlWrite_within s k host d) hN

theorem State.domCtrlWrite_within (s : State) (k : RegKey) (host : Bool) (d : Word) :
    Only 0x7ffffffe01ffffffffffffffffffffffffffffffffffffffffffffffffffffffffff s (State.domCtrlWrite s k host d) := by
  unfold State.domCtrlWrite
  repeat' first
    | with_reducible exact Only.refl _ _
    | with_reducible refine Only.ite (fun _ => ?_) (fun _ => ?_)
    | with_reducible refine Only.foldl ?_ (fun _ _ => ?_)
    | with_reducible refine OnlyOut.next ?_
    | with_reducible refine OnlyOut.ite (fun _ => ?_) (fun _ => ?_)
    | with_reducible refine State.plainWrite_only _ _ _ ?_ (by decide)
    | with_reducible refine Only.act ?_ (fun _ => ?_)
    | with_reducible refine State.ask_only _ ?_ (by decide)
    | with_reducible refine State.servoHold_only _ ?_ (by decide)
    | with_reducible refine State.setServo_only _ _ ?_ (by decide)
    | with_reducible refine State.set_only _ _ _ _ ?_ (by decide)

theorem State.domCtrlWrite_only {N : Nat} {σ s : State} (k : RegKey) (host : Bool) (d : Word) (hσ : Only N σ s)
    (hN : 0x7ffffffe01ffffffffffffffffffffffffffffffffffffffffffffffffffffffffff ||| N = N) : Only N σ (State.domCtrlWrite s k host d) := hσ.step (State.domCtrlWrite_within s k host d) hN

theorem State.domWrite_within (s : State) (k : RegKey) (host : Bool) (d : Word) :
    Only 0x7ffffffe01ffffffffffffffffffffffffffffffffffffffffffffffffffffffffff s (State.domWrite s k host d) := by
  unfold State.domWrite
  repeat' first
    | with_reducible exact Only.refl _ _
    | with_reducible refine Only.ite (fun _ => ?_) (fun _ => ?_)
    | with_reducible refine Only.foldl ?_ (fun _ _ => ?_)
    | with_reducible refine OnlyOut.next ?_
    | with_reducible refine OnlyOut.ite (fun _ => ?_) (fun _ => ?_)
    | with_reducible refine State.domCtrlWrite_only _ _ _ ?_ (by decide)
    | with_reducible refine State.plainWrite_only _ _ _ ?_ (by decide)
    | with_reducible refine State.w1c_only _ _ ?_ (by decide)
    | with_reducible refine Only.actDo ?_ (fun _ => ?_)
    | with_reducible refine execRejectCountClear_only _ ?_ (by decide)
    | with_reducible refine State.submitSample_only _ _ ?_ (by decide)
    | with_reducible refine State.ask_only _ ?_ (by decide)
    | split

theorem State.domWrite_only {N : Nat} {σ s : State} (k : RegKey) (host : Bool) (d : Word) (hσ : Only N σ s)
    (hN : 0x7ffffffe01ffffffffffffffffffffffffffffffffffffffffffffffffffffffffff ||| N = N) : Only N σ (State.domWrite s k host d) := hσ.step (State.domWrite_within s k host d) hN

theorem State.portCfgWrite_within (s : State) (k : RegKey) (host : Bool) (d : Word) :
    Only 0x7ffffffe01ffffffffffffffffffffffffffffffffffffffffffffffffffffffffff s (State.portCfgWrite s k host d) := by
  unfold State.portCfgWrite
  repeat' first
    | with_reducible exact Only.refl _ _
    | with_reducible refine Only.ite (fun _ => ?_) (fun _ => ?_)
    | with_reducible refine Only.foldl ?_ (fun _ _ => ?_)
    | with_reducible refine State.plainWrite_only _ _ _ ?_ (by decide)
    | with_reducible refine State.rearm_only _ _ ?_ (by decide)
    | with_reducible refine State.set_only _ _ _ _ ?_ (by decide)

theorem State.portCfgWrite_only {N : Nat} {σ s : State} (k : RegKey) (host : Bool) (d : Word) (hσ : Only N σ s)
    (hN : 0x7ffffffe01ffffffffffffffffffffffffffffffffffffffffffffffffffffffffff ||| N = N) : Only N σ (State.portCfgWrite s k host d) := hσ.step (State.portCfgWrite_within s k host d) hN

theorem State.olupCtrlWrite_within (s : State) (k : RegKey) (host : Bool) (d : Word) :
    Only 0x7ffffffe01ffffffffffffffffffffffffffffffffffffffffffffffffffffffffff s (State.olupCtrlWrite s k host d) := by
  unfold State.olupCtrlWrite
  repeat' first
    | with_reducible exact Only.refl _ _
    | with_reducible refine Only.ite (fun _ => ?_) (fun _ => ?_)
    | with_reducible refine Only.foldl ?_ (fun _ _ => ?_)
    | with_reducible refine OnlyOut.next ?_
    | with_reducible refine OnlyOut.ite (fun _ => ?_) (fun _ => ?_)
    | with_reducible refine State.keep_only _ _ _ _ ?_ (by decide)
    | with_reducible refine State.plainWrite_only _ _ _ ?_ (by decide)
    | with_reducible refine Only.actDo ?_ (fun _ => ?_)
    | with_reducible refine execRetrain_only _ ?_ (by decide)
    | with_reducible refine State.oluDisableOp_only _ ?_ (by decide)
    | with_reducible refine State.oluEnableOp_only _ ?_ (by decide)

theorem State.olupCtrlWrite_only {N : Nat} {σ s : State} (k : RegKey) (host : Bool) (d : Word) (hσ : Only N σ s)
    (hN : 0x7ffffffe01ffffffffffffffffffffffffffffffffffffffffffffffffffffffffff ||| N = N) : Only N σ (State.olupCtrlWrite s k host d) := hσ.step (State.olupCtrlWrite_within s k host d) hN

theorem State.gfOpWrite_within (s : State) (src : Src) (d : Word) :
    Only 0x7ffffffe01ffffffffffffffffffffffffffffffffffffffffffffffffffffffffff s (State.gfOpWrite s src d) := by
  unfold State.gfOpWrite
  repeat' first
    | with_reducible exact Only.refl _ _
    | with_reducible refine Only.ite (fun _ => ?_) (fun _ => ?_)
    | with_reducible refine Only.foldl ?_ (fun _ _ => ?_)
    | with_reducible refine OnlyOut.next ?_
    | with_reducible refine OnlyOut.ite (fun _ => ?_) (fun _ => ?_)
    | with_reducible refine Only.act ?_ (fun _ => ?_)
    | with_reducible refine State.gfResetOp_only _ _ ?_ (by decide)
    | with_reducible refine State.gfOp_only _ _ _ _ ?_ (by decide)

theorem State.gfOpWrite_only {N : Nat} {σ s : State} (src : Src) (d : Word) (hσ : Only N σ s)
    (hN : 0x7ffffffe01ffffffffffffffffffffffffffffffffffffffffffffffffffffffffff ||| N = N) : Only N σ (State.gfOpWrite s src d) := hσ.step (State.gfOpWrite_within s src d) hN

theorem State.bulkCtrlWrite_within (s : State) (k : RegKey) (host : Bool) (d : Word) :
    Only 0x7ffffffe01ffffffffffffffffffffffffffffffffffffffffffffffffffffffffff s (State.bulkCtrlWrite s k host d) := by
  unfold State.bulkCtrlWrite
  repeat' first
    | with_reducible exact Only.refl _ _
    | with_reducible refine Only.ite (fun _ => ?_) (fun _ => ?_)
    | with_reducible refine Only.foldl ?_ (fun _ _ => ?_)
    | with_reducible refine OnlyOut.next ?_
    | with_reducible refine OnlyOut.ite (fun _ => ?_) (fun _ => ?_)
    | with_reducible refine State.plainWrite_only _ _ _ ?_ (by decide)
    | with_reducible refine Only.act ?_ (fun _ => ?_)
    | with_reducible refine State.bulkGo_only _ _ ?_ (by decide)

theorem State.bulkCtrlWrite_only {N : Nat} {σ s : State} (k : RegKey) (host : Bool) (d : Word) (hσ : Only N σ s)
    (hN : 0x7ffffffe01ffffffffffffffffffffffffffffffffffffffffffffffffffffffffff ||| N = N) : Only N σ (State.bulkCtrlWrite s k host d) := hσ.step (State.bulkCtrlWrite_within s k host d) hN

theorem State.ringSetup_within (s : State) (k : RegKey) (host : Bool) (d : Word) :
    Only 0x7ffffffe01ffffffffffffffffffffffffffffffffffffffffffffffffffffffffff s (State.ringSetup s k host d) := by
  unfold State.ringSetup
  repeat' first
    | with_reducible exact Only.refl _ _
    | with_reducible refine Only.ite (fun _ => ?_) (fun _ => ?_)
    | with_reducible refine Only.foldl ?_ (fun _ _ => ?_)
    | with_reducible refine State.plainWrite_only _ _ _ ?_ (by decide)
    | with_reducible refine State.rearmRing_only _ ?_ (by decide)
    | with_reducible refine State.rearm_only _ _ ?_ (by decide)

theorem State.ringSetup_only {N : Nat} {σ s : State} (k : RegKey) (host : Bool) (d : Word) (hσ : Only N σ s)
    (hN : 0x7ffffffe01ffffffffffffffffffffffffffffffffffffffffffffffffffffffffff ||| N = N) : Only N σ (State.ringSetup s k host d) := hσ.step (State.ringSetup_within s k host d) hN

theorem State.ringCtrlWrite_within (s : State) (q : Nat) (src : Src) (d : Word) :
    Only 0x7ffffffe01ffffffffffffffffffffffffffffffffffffffffffffffffffffffffff s (State.ringCtrlWrite s q src d) := by
  unfold State.ringCtrlWrite
  repeat' first
    | with_reducible exact Only.refl _ _
    | with_reducible refine Only.ite (fun _ => ?_) (fun _ => ?_)
    | with_reducible refine Only.foldl ?_ (fun _ _ => ?_)
    | with_reducible refine OnlyOut.next ?_
    | with_reducible refine OnlyOut.ite (fun _ => ?_) (fun _ => ?_)
    | with_reducible refine Only.actDo ?_ (fun _ => ?_)
    | with_reducible refine execRingReset_only _ _ ?_ (by decide)
    | with_reducible refine execRingDisable_only _ _ ?_ (by decide)
    | with_reducible refine execRingEnable_only _ _ ?_ (by decide)

theorem State.ringCtrlWrite_only {N : Nat} {σ s : State} (q : Nat) (src : Src) (d : Word) (hσ : Only N σ s)
    (hN : 0x7ffffffe01ffffffffffffffffffffffffffffffffffffffffffffffffffffffffff ||| N = N) : Only N σ (State.ringCtrlWrite s q src d) := hσ.step (State.ringCtrlWrite_within s q src d) hN

theorem State.drmCtrlWrite_within (s : State) (k : RegKey) (host : Bool) (d : Word) :
    Only 0x7ffffffe01ffffffffffffffffffffffffffffffffffffffffffffffffffffffffff s (State.drmCtrlWrite s k host d) := by
  unfold State.drmCtrlWrite
  repeat' first
    | with_reducible exact Only.refl _ _
    | with_reducible refine Only.ite (fun _ => ?_) (fun _ => ?_)
    | with_reducible refine Only.foldl ?_ (fun _ _ => ?_)
    | with_reducible refine OnlyOut.next ?_
    | with_reducible refine OnlyOut.ite (fun _ => ?_) (fun _ => ?_)
    | with_reducible refine State.keep_only _ _ _ _ ?_ (by decide)
    | with_reducible refine State.plainWrite_only _ _ _ ?_ (by decide)
    | with_reducible refine Only.actDo ?_ (fun _ => ?_)
    | with_reducible refine Only.doing ?_ (fun _ => ?_)
    | with_reducible refine execSrExit_only  ?_ (by decide)
    | with_reducible refine execSrEnter_only  ?_ (by decide)
    | with_reducible refine execDramDisable_only  ?_ (by decide)
    | with_reducible refine execDramEnable_only  ?_ (by decide)

theorem State.drmCtrlWrite_only {N : Nat} {σ s : State} (k : RegKey) (host : Bool) (d : Word) (hσ : Only N σ s)
    (hN : 0x7ffffffe01ffffffffffffffffffffffffffffffffffffffffffffffffffffffffff ||| N = N) : Only N σ (State.drmCtrlWrite s k host d) := hσ.step (State.drmCtrlWrite_within s k host d) hN

theorem State.panicWrite_within (s : State) (k : RegKey) (host : Bool) (d : Word) :
    Only 0x7ffffffe01ffffffffffffffffffffffffffffffffffffffffffffffffffffffffff s (State.panicWrite s k host d) := by
  unfold State.panicWrite
  repeat' first
    | with_reducible exact Only.refl _ _
    | with_reducible refine Only.ite (fun _ => ?_) (fun _ => ?_)
    | with_reducible refine Only.foldl ?_ (fun _ _ => ?_)
    | with_reducible refine OnlyOut.next ?_
    | with_reducible refine OnlyOut.ite (fun _ => ?_) (fun _ => ?_)
    | with_reducible refine State.plainWrite_only _ _ _ ?_ (by decide)
    | with_reducible refine Only.actDo ?_ (fun _ => ?_)
    | with_reducible refine execPanicClear_only  ?_ (by decide)
    | with_reducible refine State.updatePanic_only  ?_ (by decide)
    | with_reducible refine State.set_only _ _ _ _ ?_ (by decide)

theorem State.panicWrite_only {N : Nat} {σ s : State} (k : RegKey) (host : Bool) (d : Word) (hσ : Only N σ s)
    (hN : 0x7ffffffe01ffffffffffffffffffffffffffffffffffffffffffffffffffffffffff ||| N = N) : Only N σ (State.panicWrite s k host d) := hσ.step (State.panicWrite_within s k host d) hN

theorem State.mchCtrlWrite_within (s : State) (k : RegKey) (host : Bool) (d : Word) :
    Only 0x7ffffffe01ffffffffffffffffffffffffffffffffffffffffffffffffffffffffff s (State.mchCtrlWrite s k host d) := by
  unfold State.mchCtrlWrite
  repeat' first
    | with_reducible exact Only.refl _ _
    | with_reducible refine Only.ite (fun _ => ?_) (fun _ => ?_)
    | with_reducible refine Only.foldl ?_ (fun _ _ => ?_)
    | with_reducible refine State.keep_only _ _ _ _ ?_ (by decide)
    | with_reducible refine State.plainWrite_only _ _ _ ?_ (by decide)
    | with_reducible refine State.writeTrain_only _ _ ?_ (by decide)

theorem State.mchCtrlWrite_only {N : Nat} {σ s : State} (k : RegKey) (host : Bool) (d : Word) (hσ : Only N σ s)
    (hN : 0x7ffffffe01ffffffffffffffffffffffffffffffffffffffffffffffffffffffffff ||| N = N) : Only N σ (State.mchCtrlWrite s k host d) := hσ.step (State.mchCtrlWrite_within s k host d) hN

theorem State.shadowWrite_within (s : State) (m : Nat) (v : Nat) :
    Only 0x7ffffffe01ffffffffffffffffffffffffffffffffffffffffffffffffffffffffff s (State.shadowWrite s m v) := by
  unfold State.shadowWrite
  repeat' first
    | with_reducible exact Only.refl _ _
    | with_reducible refine Only.ite (fun _ => ?_) (fun _ => ?_)
    | with_reducible refine Only.foldl ?_ (fun _ _ => ?_)
    | fail_if_no_progress with_reducible refine Only.fields ?_ rfl rfl

theorem State.shadowWrite_only {N : Nat} {σ s : State} (m : Nat) (v : Nat) (hσ : Only N σ s)
    (hN : 0x7ffffffe01ffffffffffffffffffffffffffffffffffffffffffffffffffffffffff ||| N = N) : Only N σ (State.shadowWrite s m v) := hσ.step (State.shadowWrite_within s m v) hN

theorem State.trainGo_within (s : State) (m : Nat) :
    Only 0x7ffffffe01ffffffffffffffffffffffffffffffffffffffffffffffffffffffffff s (State.trainGo s m) := by
  unfold State.trainGo
  repeat' first
    | with_reducible exact Only.refl _ _
    | with_reducible refine Only.ite (fun _ => ?_) (fun _ => ?_)
    | with_reducible refine Only.foldl ?_ (fun _ _ => ?_)
    | with_reducible refine State.mrw_only _ ?_ (by decide)
    | with_reducible refine State.trainDone_only _ _ ?_ (by decide)
    | with_reducible refine State.set_only _ _ _ _ ?_ (by decide)

theorem State.trainGo_only {N : Nat} {σ s : State} (m : Nat) (hσ : Only N σ s)
    (hN : 0x7ffffffe01ffffffffffffffffffffffffffffffffffffffffffffffffffffffffff ||| N = N) : Only N σ (State.trainGo s m) := hσ.step (State.trainGo_within s m) hN

theorem State.framesWrite_within (s : State) (d : Word) :
    Only 0x7ffffffe01ffffffffffffffffffffffffffffffffffffffffffffffffffffffffff s (State.framesWrite s d) := by
  unfold State.framesWrite
  repeat' first
    | with_reducible exact Only.refl _ _
    | with_reducible refine Only.ite (fun _ => ?_) (fun _ => ?_)
    | with_reducible refine Only.foldl ?_ (fun _ _ => ?_)
    | with_reducible refine State.set_only _ _ _ _ ?_ (by decide)

theorem State.framesWrite_only {N : Nat} {σ s : State} (d : Word) (hσ : Only N σ s)
    (hN : 0x7ffffffe01ffffffffffffffffffffffffffffffffffffffffffffffffffffffffff ||| N = N) : Only N σ (State.framesWrite s d) := hσ.step (State.framesWrite_within s d) hN

theorem State.winCmdWrite_within (s : State) (k : RegKey) (host : Bool) (d : Word) :
    Only 0x7ffffffe01ffffffffffffffffffffffffffffffffffffffffffffffffffffffffff s (State.winCmdWrite s k host d) := by
  unfold State.winCmdWrite
  repeat' first
    | with_reducible exact Only.refl _ _
    | with_reducible refine Only.ite (fun _ => ?_) (fun _ => ?_)
    | with_reducible refine Only.foldl ?_ (fun _ _ => ?_)
    | with_reducible refine OnlyOut.next ?_
    | with_reducible refine OnlyOut.ite (fun _ => ?_) (fun _ => ?_)
    | with_reducible refine State.plainWrite_only _ _ _ ?_ (by decide)
    | with_reducible refine Only.act ?_ (fun _ => ?_)
    | with_reducible refine State.winWrite_only _ ?_ (by decide)
    | with_reducible refine State.winRead_only _ ?_ (by decide)

theorem State.winCmdWrite_only {N : Nat} {σ s : State} (k : RegKey) (host : Bool) (d : Word) (hσ : Only N σ s)
    (hN : 0x7ffffffe01ffffffffffffffffffffffffffffffffffffffffffffffffffffffffff ||| N = N) : Only N σ (State.winCmdWrite s k host d) := hσ.step (State.winCmdWrite_within s k host d) hN

theorem State.dispOpWrite_within (s : State) (src : Src) (d : Word) :
    Only 0x7ffffffe01ffffffffffffffffffffffffffffffffffffffffffffffffffffffffff s (State.dispOpWrite s src d) := by
  unfold State.dispOpWrite
  repeat' first
    | with_reducible exact Only.refl _ _
    | with_reducible refine Only.ite (fun _ => ?_) (fun _ => ?_)
    | with_reducible refine Only.foldl ?_ (fun _ _ => ?_)
    | with_reducible refine State.submitOp_only _ _ _ ?_ (by decide)
    | with_reducible refine State.clrFlagsOp_only _ _ _ ?_ (by decide)
    | with_reducible refine State.slotResetOp_only _ _ ?_ (by decide)
    | with_reducible refine State.cancelOp_only _ _ ?_ (by decide)
    | with_reducible refine State.makeReadyOp_only _ _ ?_ (by decide)
    | with_reducible refine State.setFlags_only _ _ _ ?_ (by decide)

theorem State.dispOpWrite_only {N : Nat} {σ s : State} (src : Src) (d : Word) (hσ : Only N σ s)
    (hN : 0x7ffffffe01ffffffffffffffffffffffffffffffffffffffffffffffffffffffffff ||| N = N) : Only N σ (State.dispOpWrite s src d) := hσ.step (State.dispOpWrite_within s src d) hN

theorem State.flowCfgWrite_within (s : State) (f : Nat) (src : Src) (d : Word) :
    Only 0x7ffffffe01ffffffffffffffffffffffffffffffffffffffffffffffffffffffffff s (State.flowCfgWrite s f src d) := by
  unfold State.flowCfgWrite
  repeat' first
    | with_reducible exact Only.refl _ _
    | with_reducible refine Only.ite (fun _ => ?_) (fun _ => ?_)
    | with_reducible refine Only.foldl ?_ (fun _ _ => ?_)
    | with_reducible refine OnlyOut.next ?_
    | with_reducible refine OnlyOut.ite (fun _ => ?_) (fun _ => ?_)
    | with_reducible refine Only.act ?_ (fun _ => ?_)
    | with_reducible refine State.flowResetOp_only _ _ ?_ (by decide)
    | with_reducible refine State.flowDisableOp_only _ _ ?_ (by decide)
    | with_reducible refine State.storeFlowCfg_only _ _ ?_ (by decide)
    | with_reducible refine State.set_only _ _ _ _ ?_ (by decide)

theorem State.flowCfgWrite_only {N : Nat} {σ s : State} (f : Nat) (src : Src) (d : Word) (hσ : Only N σ s)
    (hN : 0x7ffffffe01ffffffffffffffffffffffffffffffffffffffffffffffffffffffffff ||| N = N) : Only N σ (State.flowCfgWrite s f src d) := hσ.step (State.flowCfgWrite_within s f src d) hN

theorem State.mailboxWrite_within (s : State) (k : RegKey) (host : Bool) (d : Word) :
    Only 0x7ffffffe01ffffffffffffffffffffffffffffffffffffffffffffffffffffffffff s (State.mailboxWrite s k host d) := by
  unfold State.mailboxWrite
  repeat' first
    | with_reducible exact Only.refl _ _
    | with_reducible refine Only.ite (fun _ => ?_) (fun _ => ?_)
    | with_reducible refine Only.foldl ?_ (fun _ _ => ?_)
    | with_reducible refine State.plainWrite_only _ _ _ ?_ (by decide)
    | with_reducible refine State.set_only _ _ _ _ ?_ (by decide)

theorem State.mailboxWrite_only {N : Nat} {σ s : State} (k : RegKey) (host : Bool) (d : Word) (hσ : Only N σ s)
    (hN : 0x7ffffffe01ffffffffffffffffffffffffffffffffffffffffffffffffffffffffff ||| N = N) : Only N σ (State.mailboxWrite s k host d) := hσ.step (State.mailboxWrite_within s k host d) hN

theorem State.seqCtrlWrite_within (s : State) (k : RegKey) (host : Bool) (src : Src) (d : Word) :
    Only 0x7ffffffe01ffffffffffffffffffffffffffffffffffffffffffffffffffffffffff s (State.seqCtrlWrite s k host src d) := by
  unfold State.seqCtrlWrite
  repeat' first
    | with_reducible exact Only.refl _ _
    | with_reducible refine Only.ite (fun _ => ?_) (fun _ => ?_)
    | with_reducible refine Only.foldl ?_ (fun _ _ => ?_)
    | with_reducible refine OnlyOut.next ?_
    | with_reducible refine OnlyOut.ite (fun _ => ?_) (fun _ => ?_)
    | with_reducible refine State.plainWrite_only _ _ _ ?_ (by decide)
    | with_reducible refine Only.actDo ?_ (fun _ => ?_)
    | with_reducible refine Only.act ?_ (fun _ => ?_)
    | with_reducible refine State.faultClear_only _ _ ?_ (by decide)
    | with_reducible refine execAbort_only _ _ ?_ (by decide)
    | with_reducible refine execPauseRequest_only _ _ ?_ (by decide)
    | with_reducible refine execSeqResume_only _ _ ?_ (by decide)
    | with_reducible refine execSeqStart_only _ _ ?_ (by decide)
    | with_reducible refine State.calWatch_only  ?_ (by decide)

theorem State.seqCtrlWrite_only {N : Nat} {σ s : State} (k : RegKey) (host : Bool) (src : Src) (d : Word) (hσ : Only N σ s)
    (hN : 0x7ffffffe01ffffffffffffffffffffffffffffffffffffffffffffffffffffffffff ||| N = N) : Only N σ (State.seqCtrlWrite s k host src d) := hσ.step (State.seqCtrlWrite_within s k host src d) hN

theorem State.lflagsWrite_within (s : State) (k : RegKey) (host : Bool) (d : Word) :
    Only 0x7ffffffe01ffffffffffffffffffffffffffffffffffffffffffffffffffffffffff s (State.lflagsWrite s k host d) := by
  unfold State.lflagsWrite
  repeat' first
    | with_reducible exact Only.refl _ _
    | with_reducible refine Only.ite (fun _ => ?_) (fun _ => ?_)
    | with_reducible refine Only.foldl ?_ (fun _ _ => ?_)
    | with_reducible refine State.keep_only _ _ _ _ ?_ (by decide)
    | with_reducible refine State.plainWrite_only _ _ _ ?_ (by decide)

theorem State.lflagsWrite_only {N : Nat} {σ s : State} (k : RegKey) (host : Bool) (d : Word) (hσ : Only N σ s)
    (hN : 0x7ffffffe01ffffffffffffffffffffffffffffffffffffffffffffffffffffffffff ||| N = N) : Only N σ (State.lflagsWrite s k host d) := hσ.step (State.lflagsWrite_within s k host d) hN

theorem State.tsCtrlWrite_within (s : State) (k : RegKey) (host : Bool) (src : Src) (d : Word) :
    Only 0x7ffffffe01ffffffffffffffffffffffffffffffffffffffffffffffffffffffffff s (State.tsCtrlWrite s k host src d) := by
  unfold State.tsCtrlWrite
  repeat' first
    | with_reducible exact Only.refl _ _
    | with_reducible refine Only.ite (fun _ => ?_) (fun _ => ?_)
    | with_reducible refine Only.foldl ?_ (fun _ _ => ?_)
    | with_reducible refine OnlyOut.next ?_
    | with_reducible refine OnlyOut.ite (fun _ => ?_) (fun _ => ?_)
    | with_reducible refine State.plainWrite_only _ _ _ ?_ (by decide)
    | with_reducible refine Only.actDo ?_ (fun _ => ?_)
    | with_reducible refine execTableCommit_only _ _ ?_ (by decide)

theorem State.tsCtrlWrite_only {N : Nat} {σ s : State} (k : RegKey) (host : Bool) (src : Src) (d : Word) (hσ : Only N σ s)
    (hN : 0x7ffffffe01ffffffffffffffffffffffffffffffffffffffffffffffffffffffffff ||| N = N) : Only N σ (State.tsCtrlWrite s k host src d) := hσ.step (State.tsCtrlWrite_within s k host src d) hN

theorem State.rdWrite_within (s : State) (mirror : Bool) (f : Fld) (b : Nat) (size : Nat) (d : Word) :
    Only 0x7ffffffe01ffffffffffffffffffffffffffffffffffffffffffffffffffffffffff s (State.rdWrite s mirror f b size d) := by
  unfold State.rdWrite
  repeat' first
    | with_reducible exact Only.refl _ _
    | with_reducible refine Only.ite (fun _ => ?_) (fun _ => ?_)
    | with_reducible refine Only.foldl ?_ (fun _ _ => ?_)
    | with_reducible refine State.set_only _ _ _ _ ?_ (by first | decide | exact anyFld _ (by decide))

theorem State.rdWrite_only {N : Nat} {σ s : State} (mirror : Bool) (f : Fld) (b : Nat) (size : Nat) (d : Word) (hσ : Only N σ s)
    (hN : 0x7ffffffe01ffffffffffffffffffffffffffffffffffffffffffffffffffffffffff ||| N = N) : Only N σ (State.rdWrite s mirror f b size d) := hσ.step (State.rdWrite_within s mirror f b size d) hN

theorem State.siteCtrlWrite_within (s : State) (k : RegKey) (host : Bool) (d : Word) :
    Only 0x7ffffffe01ffffffffffffffffffffffffffffffffffffffffffffffffffffffffff s (State.siteCtrlWrite s k host d) := by
  unfold State.siteCtrlWrite
  repeat' first
    | with_reducible exact Only.refl _ _
    | with_reducible refine Only.ite (fun _ => ?_) (fun _ => ?_)
    | with_reducible refine Only.foldl ?_ (fun _ _ => ?_)
    | with_reducible refine OnlyOut.next ?_
    | with_reducible refine OnlyOut.ite (fun _ => ?_) (fun _ => ?_)
    | with_reducible refine State.plainWrite_only _ _ _ ?_ (by decide)
    | with_reducible refine Only.act ?_ (fun _ => ?_)
    | with_reducible refine State.retire_only _ ?_ (by decide)

theorem State.siteCtrlWrite_only {N : Nat} {σ s : State} (k : RegKey) (host : Bool) (d : Word) (hσ : Only N σ s)
    (hN : 0x7ffffffe01ffffffffffffffffffffffffffffffffffffffffffffffffffffffffff ||| N = N) : Only N σ (State.siteCtrlWrite s k host d) := hσ.step (State.siteCtrlWrite_within s k host d) hN

theorem State.parkWrite_within (s : State) (k : RegKey) (host : Bool) (d : Word) :
    Only 0x7ffffffe01ffffffffffffffffffffffffffffffffffffffffffffffffffffffffff s (State.parkWrite s k host d) := by
  unfold State.parkWrite
  repeat' first
    | with_reducible exact Only.refl _ _
    | with_reducible refine Only.ite (fun _ => ?_) (fun _ => ?_)
    | with_reducible refine Only.foldl ?_ (fun _ _ => ?_)
    | with_reducible refine State.plainWrite_only _ _ _ ?_ (by decide)
    | with_reducible refine State.parkLevels_only _ _ ?_ (by decide)

theorem State.parkWrite_only {N : Nat} {σ s : State} (k : RegKey) (host : Bool) (d : Word) (hσ : Only N σ s)
    (hN : 0x7ffffffe01ffffffffffffffffffffffffffffffffffffffffffffffffffffffffff ||| N = N) : Only N σ (State.parkWrite s k host d) := hσ.step (State.parkWrite_within s k host d) hN

theorem State.calValueWrite_within (s : State) (k : RegKey) (host : Bool) (d : Word) :
    Only 0x7ffffffe01ffffffffffffffffffffffffffffffffffffffffffffffffffffffffff s (State.calValueWrite s k host d) := by
  unfold State.calValueWrite
  repeat' first
    | with_reducible exact Only.refl _ _
    | with_reducible refine Only.ite (fun _ => ?_) (fun _ => ?_)
    | with_reducible refine Only.foldl ?_ (fun _ _ => ?_)
    | with_reducible refine State.plainWrite_only _ _ _ ?_ (by decide)

theorem State.calValueWrite_only {N : Nat} {σ s : State} (k : RegKey) (host : Bool) (d : Word) (hσ : Only N σ s)
    (hN : 0x7ffffffe01ffffffffffffffffffffffffffffffffffffffffffffffffffffffffff ||| N = N) : Only N σ (State.calValueWrite s k host d) := hσ.step (State.calValueWrite_within s k host d) hN

theorem State.calBayWrite_within (s : State) (k : RegKey) (host : Bool) (d : Word) :
    Only 0x7ffffffe01ffffffffffffffffffffffffffffffffffffffffffffffffffffffffff s (State.calBayWrite s k host d) := by
  unfold State.calBayWrite
  repeat' first
    | with_reducible exact Only.refl _ _
    | with_reducible refine Only.ite (fun _ => ?_) (fun _ => ?_)
    | with_reducible refine Only.foldl ?_ (fun _ _ => ?_)
    | with_reducible refine State.calValueWrite_only _ _ _ ?_ (by decide)

theorem State.calBayWrite_only {N : Nat} {σ s : State} (k : RegKey) (host : Bool) (d : Word) (hσ : Only N σ s)
    (hN : 0x7ffffffe01ffffffffffffffffffffffffffffffffffffffffffffffffffffffffff ||| N = N) : Only N σ (State.calBayWrite s k host d) := hσ.step (State.calBayWrite_within s k host d) hN

theorem State.dclkCtrlWrite_within (s : State) (k : RegKey) (host : Bool) (src : Src) (d : Word) :
    Only 0x7ffffffe01ffffffffffffffffffffffffffffffffffffffffffffffffffffffffff s (State.dclkCtrlWrite s k host src d) := by
  unfold State.dclkCtrlWrite
  repeat' first
    | with_reducible exact Only.refl _ _
    | with_reducible refine Only.ite (fun _ => ?_) (fun _ => ?_)
    | with_reducible refine Only.foldl ?_ (fun _ _ => ?_)
    | with_reducible refine OnlyOut.next ?_
    | with_reducible refine OnlyOut.ite (fun _ => ?_) (fun _ => ?_)
    | with_reducible refine State.plainWrite_only _ _ _ ?_ (by decide)
    | with_reducible refine Only.actDo ?_ (fun _ => ?_)
    | with_reducible refine execFrequencyCommit_only _ _ _ ?_ (by decide)
    | with_reducible refine execDclkDisable_only _ _ _ ?_ (by decide)
    | with_reducible refine execDclkStart_only _ _ _ ?_ (by decide)

theorem State.dclkCtrlWrite_only {N : Nat} {σ s : State} (k : RegKey) (host : Bool) (src : Src) (d : Word) (hσ : Only N σ s)
    (hN : 0x7ffffffe01ffffffffffffffffffffffffffffffffffffffffffffffffffffffffff ||| N = N) : Only N σ (State.dclkCtrlWrite s k host src d) := hσ.step (State.dclkCtrlWrite_within s k host src d) hN

theorem State.adcFiltWrite_within (s : State) (k : RegKey) (host : Bool) (d : Word) :
    Only 0x7ffffffe01ffffffffffffffffffffffffffffffffffffffffffffffffffffffffff s (State.adcFiltWrite s k host d) := by
  unfold State.adcFiltWrite
  repeat' first
    | with_reducible exact Only.refl _ _
    | with_reducible refine Only.ite (fun _ => ?_) (fun _ => ?_)
    | with_reducible refine Only.foldl ?_ (fun _ _ => ?_)
    | with_reducible refine State.plainWrite_only _ _ _ ?_ (by decide)
    | with_reducible refine State.set_only _ _ _ _ ?_ (by decide)

theorem State.adcFiltWrite_only {N : Nat} {σ s : State} (k : RegKey) (host : Bool) (d : Word) (hσ : Only N σ s)
    (hN : 0x7ffffffe01ffffffffffffffffffffffffffffffffffffffffffffffffffffffffff ||| N = N) : Only N σ (State.adcFiltWrite s k host d) := hσ.step (State.adcFiltWrite_within s k host d) hN

theorem State.adcCtrlWrite_within (s : State) (b : Nat) (src : Src) (d : Word) :
    Only 0x7ffffffe01ffffffffffffffffffffffffffffffffffffffffffffffffffffffffff s (State.adcCtrlWrite s b src d) := by
  unfold State.adcCtrlWrite
  repeat' first
    | with_reducible exact Only.refl _ _
    | with_reducible refine Only.ite (fun _ => ?_) (fun _ => ?_)
    | with_reducible refine Only.foldl ?_ (fun _ _ => ?_)
    | with_reducible refine OnlyOut.next ?_
    | with_reducible refine OnlyOut.ite (fun _ => ?_) (fun _ => ?_)
    | with_reducible refine Only.actDo ?_ (fun _ => ?_)
    | with_reducible refine Only.act ?_ (fun _ => ?_)
    | with_reducible refine execSequenceCommit_only _ _ ?_ (by decide)
    | with_reducible refine execAccClear_only _ _ ?_ (by decide)
    | with_reducible refine execAdcStop_only _ _ ?_ (by decide)
    | with_reducible refine State.bankRequest_only _ _ ?_ (by decide)
    | with_reducible refine State.urgentCancel_only _ _ ?_ (by decide)
    | with_reducible refine State.urgentRequest_only _ _ _ ?_ (by decide)
    | with_reducible refine State.seqTrigger_only _ _ ?_ (by decide)

theorem State.adcCtrlWrite_only {N : Nat} {σ s : State} (b : Nat) (src : Src) (d : Word) (hσ : Only N σ s)
    (hN : 0x7ffffffe01ffffffffffffffffffffffffffffffffffffffffffffffffffffffffff ||| N = N) : Only N σ (State.adcCtrlWrite s b src d) := hσ.step (State.adcCtrlWrite_within s b src d) hN

theorem State.acqCtrlWrite_within (s : State) (b : Nat) (src : Src) (d : Word) :
    Only 0x7ffffffe01ffffffffffffffffffffffffffffffffffffffffffffffffffffffffff s (State.acqCtrlWrite s b src d) := by
  unfold State.acqCtrlWrite
  repeat' first
    | with_reducible exact Only.refl _ _
    | with_reducible refine Only.ite (fun _ => ?_) (fun _ => ?_)
    | with_reducible refine Only.foldl ?_ (fun _ _ => ?_)
    | with_reducible refine OnlyOut.next ?_
    | with_reducible refine OnlyOut.ite (fun _ => ?_) (fun _ => ?_)
    | with_reducible refine Only.actDo ?_ (fun _ => ?_)
    | with_reducible refine execForce_only _ _ ?_ (by decide)
    | with_reducible refine execAcqStop_only _ _ ?_ (by decide)
    | with_reducible refine execRearm_only _ _ ?_ (by decide)

theorem State.acqCtrlWrite_only {N : Nat} {σ s : State} (b : Nat) (src : Src) (d : Word) (hσ : Only N σ s)
    (hN : 0x7ffffffe01ffffffffffffffffffffffffffffffffffffffffffffffffffffffffff ||| N = N) : Only N σ (State.acqCtrlWrite s b src d) := hσ.step (State.acqCtrlWrite_within s b src d) hN

theorem State.acqLevelWrite_within (s : State) (k : RegKey) (host : Bool) (d : Word) :
    Only 0x7ffffffe01ffffffffffffffffffffffffffffffffffffffffffffffffffffffffff s (State.acqLevelWrite s k host d) := by
  unfold State.acqLevelWrite
  repeat' first
    | with_reducible exact Only.refl _ _
    | with_reducible refine Only.ite (fun _ => ?_) (fun _ => ?_)
    | with_reducible refine Only.foldl ?_ (fun _ _ => ?_)
    | with_reducible refine State.plainWrite_only _ _ _ ?_ (by decide)
    | with_reducible refine State.set_only _ _ _ _ ?_ (by decide)

theorem State.acqLevelWrite_only {N : Nat} {σ s : State} (k : RegKey) (host : Bool) (d : Word) (hσ : Only N σ s)
    (hN : 0x7ffffffe01ffffffffffffffffffffffffffffffffffffffffffffffffffffffffff ||| N = N) : Only N σ (State.acqLevelWrite s k host d) := hσ.step (State.acqLevelWrite_within s k host d) hN

theorem State.timCtrlWrite_within (s : State) (m : Nat) (src : Src) (d : Word) :
    Only 0x7ffffffe01ffffffffffffffffffffffffffffffffffffffffffffffffffffffffff s (State.timCtrlWrite s m src d) := by
  unfold State.timCtrlWrite
  repeat' first
    | with_reducible exact Only.refl _ _
    | with_reducible refine Only.ite (fun _ => ?_) (fun _ => ?_)
    | with_reducible refine Only.foldl ?_ (fun _ _ => ?_)
    | with_reducible refine OnlyOut.next ?_
    | with_reducible refine OnlyOut.ite (fun _ => ?_) (fun _ => ?_)
    | with_reducible refine Only.actDo ?_ (fun _ => ?_)
    | with_reducible refine execTimResultClear_only _ _ ?_ (by decide)
    | with_reducible refine execTimDisarm_only _ _ ?_ (by decide)
    | with_reducible refine execTimArm_only _ _ ?_ (by decide)

theorem State.timCtrlWrite_only {N : Nat} {σ s : State} (m : Nat) (src : Src) (d : Word) (hσ : Only N σ s)
    (hN : 0x7ffffffe01ffffffffffffffffffffffffffffffffffffffffffffffffffffffffff ||| N = N) : Only N σ (State.timCtrlWrite s m src d) := hσ.step (State.timCtrlWrite_within s m src d) hN

theorem State.feCtrlWrite_within (s : State) (b : Nat) (d : Word) :
    Only 0x7ffffffe01ffffffffffffffffffffffffffffffffffffffffffffffffffffffffff s (State.feCtrlWrite s b d) := by
  unfold State.feCtrlWrite
  repeat' first
    | with_reducible exact Only.refl _ _
    | with_reducible refine Only.ite (fun _ => ?_) (fun _ => ?_)
    | with_reducible refine Only.foldl ?_ (fun _ _ => ?_)
    | with_reducible refine OnlyOut.next ?_
    | with_reducible refine OnlyOut.ite (fun _ => ?_) (fun _ => ?_)
    | with_reducible refine Only.act ?_ (fun _ => ?_)
    | with_reducible refine State.feAbort_only _ ?_ (by decide)
    | with_reducible refine State.feRequest_only _ _ _ ?_ (by decide)

theorem State.feCtrlWrite_only {N : Nat} {σ s : State} (b : Nat) (d : Word) (hσ : Only N σ s)
    (hN : 0x7ffffffe01ffffffffffffffffffffffffffffffffffffffffffffffffffffffffff ||| N = N) : Only N σ (State.feCtrlWrite s b d) := hσ.step (State.feCtrlWrite_within s b d) hN

theorem State.calCtrlWrite_within (s : State) (k : RegKey) (host : Bool) (src : Src) (d : Word) :
    Only 0x7ffffffe01ffffffffffffffffffffffffffffffffffffffffffffffffffffffffff s (State.calCtrlWrite s k host src d) := by
  unfold State.calCtrlWrite
  repeat' first
    | with_reducible exact Only.refl _ _
    | with_reducible refine Only.ite (fun _ => ?_) (fun _ => ?_)
    | with_reducible refine Only.foldl ?_ (fun _ _ => ?_)
    | with_reducible refine OnlyOut.next ?_
    | with_reducible refine OnlyOut.ite (fun _ => ?_) (fun _ => ?_)
    | with_reducible refine State.plainWrite_only _ _ _ ?_ (by decide)
    | with_reducible refine Only.actDo ?_ (fun _ => ?_)
    | with_reducible refine Only.act ?_ (fun _ => ?_)
    | with_reducible refine execStoreCommit_only  ?_ (by decide)
    | with_reducible refine execCalAbort_only _ _ ?_ (by decide)
    | with_reducible refine State.calStart_only _ _ _ _ _ ?_ (by decide)

theorem State.calCtrlWrite_only {N : Nat} {σ s : State} (k : RegKey) (host : Bool) (src : Src) (d : Word) (hσ : Only N σ s)
    (hN : 0x7ffffffe01ffffffffffffffffffffffffffffffffffffffffffffffffffffffffff ||| N = N) : Only N σ (State.calCtrlWrite s k host src d) := hσ.step (State.calCtrlWrite_within s k host src d) hN

theorem State.refpathWrite_within (s : State) (k : RegKey) (host : Bool) (d : Word) :
    Only 0x7ffffffe01ffffffffffffffffffffffffffffffffffffffffffffffffffffffffff s (State.refpathWrite s k host d) := by
  unfold State.refpathWrite
  repeat' first
    | with_reducible exact Only.refl _ _
    | with_reducible refine Only.ite (fun _ => ?_) (fun _ => ?_)
    | with_reducible refine Only.foldl ?_ (fun _ _ => ?_)
    | with_reducible refine State.plainWrite_only _ _ _ ?_ (by decide)
    | with_reducible refine State.set_only _ _ _ _ ?_ (by decide)

theorem State.refpathWrite_only {N : Nat} {σ s : State} (k : RegKey) (host : Bool) (d : Word) (hσ : Only N σ s)
    (hN : 0x7ffffffe01ffffffffffffffffffffffffffffffffffffffffffffffffffffffffff ||| N = N) : Only N σ (State.refpathWrite s k host d) := hσ.step (State.refpathWrite_within s k host d) hN

theorem State.trimWrite_within (s : State) (k : RegKey) (host : Bool) (d : Word) :
    Only 0x7ffffffe01ffffffffffffffffffffffffffffffffffffffffffffffffffffffffff s (State.trimWrite s k host d) := by
  unfold State.trimWrite
  repeat' first
    | with_reducible exact Only.refl _ _
    | with_reducible refine Only.ite (fun _ => ?_) (fun _ => ?_)
    | with_reducible refine Only.foldl ?_ (fun _ _ => ?_)
    | with_reducible refine State.plainWrite_only _ _ _ ?_ (by decide)

theorem State.trimWrite_only {N : Nat} {σ s : State} (k : RegKey) (host : Bool) (d : Word) (hσ : Only N σ s)
    (hN : 0x7ffffffe01ffffffffffffffffffffffffffffffffffffffffffffffffffffffffff ||| N = N) : Only N σ (State.trimWrite s k host d) := hσ.step (State.trimWrite_within s k host d) hN

theorem State.resetWrite_within (s : State) (src : Src) (d : Word) :
    Only 0x7ffffffe01ffffffffffffffffffffffffffffffffffffffffffffffffffffffffff s (State.resetWrite s src d) := by
  unfold State.resetWrite
  repeat' first
    | with_reducible exact Only.refl _ _
    | with_reducible refine Only.ite (fun _ => ?_) (fun _ => ?_)
    | with_reducible refine Only.foldl ?_ (fun _ _ => ?_)
    | with_reducible refine State.requestReset_only _ ?_ (by decide)
    | with_reducible refine State.bayReset_only _ _ _ ?_ (by decide)
    | with_reducible refine State.seqReset_only _ _ ?_ (by decide)

theorem State.resetWrite_only {N : Nat} {σ s : State} (src : Src) (d : Word) (hσ : Only N σ s)
    (hN : 0x7ffffffe01ffffffffffffffffffffffffffffffffffffffffffffffffffffffffff ||| N = N) : Only N σ (State.resetWrite s src d) := hσ.step (State.resetWrite_within s src d) hN

theorem State.bayWrite_within (s : State) (k : RegKey) (host : Bool) (src : Src) (d : Word) :
    Only 0x7ffffffe01ffffffffffffffffffffffffffffffffffffffffffffffffffffffffff s (State.bayWrite s k host src d) := by
  unfold State.bayWrite
  repeat' first
    | with_reducible exact Only.refl _ _
    | with_reducible refine Only.ite (fun _ => ?_) (fun _ => ?_)
    | with_reducible refine Only.foldl ?_ (fun _ _ => ?_)
    | with_reducible refine OnlyOut.next ?_
    | with_reducible refine OnlyOut.ite (fun _ => ?_) (fun _ => ?_)
    | with_reducible refine State.feCtrlWrite_only _ _ ?_ (by decide)
    | with_reducible refine State.timCtrlWrite_only _ _ _ ?_ (by decide)
    | with_reducible refine State.acqLevelWrite_only _ _ _ ?_ (by decide)
    | with_reducible refine State.acqCtrlWrite_only _ _ _ ?_ (by decide)
    | with_reducible refine State.adcCtrlWrite_only _ _ _ ?_ (by decide)
    | with_reducible refine State.adcFiltWrite_only _ _ _ ?_ (by decide)
    | with_reducible refine State.dclkCtrlWrite_only _ _ _ _ ?_ (by decide)
    | with_reducible refine State.calBayWrite_only _ _ _ ?_ (by decide)
    | with_reducible refine State.calValueWrite_only _ _ _ ?_ (by decide)
    | with_reducible refine State.parkWrite_only _ _ _ ?_ (by decide)
    | with_reducible refine State.rdWrite_only _ _ _ _ _ ?_ (by decide)
    | with_reducible refine State.plainWrite_only _ _ _ ?_ (by decide)
    | with_reducible refine State.w1c_only _ _ ?_ (by decide)
    | with_reducible refine Only.actDo ?_ (fun _ => ?_)
    | with_reducible refine Only.act ?_ (fun _ => ?_)
    | with_reducible refine Only.doing ?_ (fun _ => ?_)
    | with_reducible refine execTimStatClear_only _ ?_ (by decide)
    | with_reducible refine execEdgeStatClear_only _ _ ?_ (by decide)
    | with_reducible refine execFeStatClear_only _ ?_ (by decide)
    | with_reducible refine execFeLdataWrite_only _ _ ?_ (by decide)
    | with_reducible refine execCmpStatClear_only _ ?_ (by decide)
    | with_reducible refine State.failCountClear_only _ ?_ (by decide)
    | with_reducible refine State.failSnap_only _ ?_ (by decide)
    | with_reducible refine execAdcCountsClear_only _ ?_ (by decide)
    | with_reducible refine execCoefWrite_only _ _ ?_ (by decide)
    | with_reducible refine State.acqRingWrite_only _ _ _ ?_ (by decide)
    | with_reducible refine execAcqCountsClear_only _ _ ?_ (by decide)
    | with_reducible refine State.keepDeskew_only _ ?_ (by decide)
    | split

theorem State.bayWrite_only {N : Nat} {σ s : State} (k : RegKey) (host : Bool) (src : Src) (d : Word) (hσ : Only N σ s)
    (hN : 0x7ffffffe01ffffffffffffffffffffffffffffffffffffffffffffffffffffffffff ||| N = N) : Only N σ (State.bayWrite s k host src d) := hσ.step (State.bayWrite_within s k host src d) hN

theorem State.seqWrite_within (s : State) (k : RegKey) (host : Bool) (src : Src) (d : Word) :
    Only 0x7ffffffe01ffffffffffffffffffffffffffffffffffffffffffffffffffffffffff s (State.seqWrite s k host src d) := by
  unfold State.seqWrite
  repeat' first
    | with_reducible exact Only.refl _ _
    | with_reducible refine Only.ite (fun _ => ?_) (fun _ => ?_)
    | with_reducible refine Only.foldl ?_ (fun _ _ => ?_)
    | with_reducible refine OnlyOut.next ?_
    | with_reducible refine OnlyOut.ite (fun _ => ?_) (fun _ => ?_)
    | with_reducible refine State.rdWrite_only _ _ _ _ _ ?_ (by decide)
    | with_reducible refine State.tsCtrlWrite_only _ _ _ _ ?_ (by decide)
    | with_reducible refine State.lflagsWrite_only _ _ _ ?_ (by decide)
    | with_reducible refine State.seqCtrlWrite_only _ _ _ _ ?_ (by decide)
    | with_reducible refine State.plainWrite_only _ _ _ ?_ (by decide)
    | with_reducible refine State.w1c_only _ _ ?_ (by decide)
    | with_reducible refine Only.actDo ?_ (fun _ => ?_)
    | with_reducible refine execLcacheStatClear_only _ ?_ (by decide)
    | with_reducible refine execStallTimeClear_only _ ?_ (by decide)
    | with_reducible refine execUnderrunClear_only _ ?_ (by decide)
    | with_reducible refine execCapStatClear_only _ ?_ (by decide)
    | with_reducible refine State.capCfgWrite_only _ _ _ ?_ (by decide)
    | with_reducible refine execLogStatClear_only _ ?_ (by decide)
    | with_reducible refine State.logCfgWrite_only _ _ _ ?_ (by decide)
    | with_reducible refine State.tellFull_only _ ?_ (by decide)
    | with_reducible refine State.stageWave_only _ _ _ _ _ ?_ (by decide)
    | with_reducible refine State.stageEdge_only _ _ _ _ _ ?_ (by decide)
    | with_reducible refine State.stagePeriod_only _ _ _ ?_ (by decide)
    | split

theorem State.seqWrite_only {N : Nat} {σ s : State} (k : RegKey) (host : Bool) (src : Src) (d : Word) (hσ : Only N σ s)
    (hN : 0x7ffffffe01ffffffffffffffffffffffffffffffffffffffffffffffffffffffffff ||| N = N) : Only N σ (State.seqWrite s k host src d) := hσ.step (State.seqWrite_within s k host src d) hN

theorem State.linkWrite_within (s : State) (k : RegKey) (host : Bool) (src : Src) (d : Word) :
    Only 0x7ffffffe01ffffffffffffffffffffffffffffffffffffffffffffffffffffffffff s (State.linkWrite s k host src d) := by
  unfold State.linkWrite
  repeat' first
    | with_reducible exact Only.refl _ _
    | with_reducible refine Only.ite (fun _ => ?_) (fun _ => ?_)
    | with_reducible refine Only.foldl ?_ (fun _ _ => ?_)
    | with_reducible refine OnlyOut.next ?_
    | with_reducible refine OnlyOut.ite (fun _ => ?_) (fun _ => ?_)
    | with_reducible refine State.ringCtrlWrite_only _ _ _ ?_ (by decide)
    | with_reducible refine State.ringSetup_only _ _ _ ?_ (by decide)
    | with_reducible refine State.bulkCtrlWrite_only _ _ _ ?_ (by decide)
    | with_reducible refine State.gfOpWrite_only _ _ ?_ (by decide)
    | with_reducible refine State.olupCtrlWrite_only _ _ _ ?_ (by decide)
    | with_reducible refine State.portCfgWrite_only _ _ _ ?_ (by decide)
    | with_reducible refine State.domWrite_only _ _ _ ?_ (by decide)
    | with_reducible refine State.timeCtrlWrite_only _ _ _ ?_ (by decide)
    | with_reducible refine State.plainWrite_only _ _ _ ?_ (by decide)
    | with_reducible refine State.w1c_only _ _ ?_ (by decide)
    | with_reducible refine Only.actDo ?_ (fun _ => ?_)
    | with_reducible refine Only.act ?_ (fun _ => ?_)
    | with_reducible refine execOluErrStatClear_only _ ?_ (by decide)
    | with_reducible refine State.alignDisarm_only _ ?_ (by decide)
    | with_reducible refine State.alignArm_only _ ?_ (by decide)
    | with_reducible refine execPrecStatsClear_only  ?_ (by decide)
    | with_reducible refine execRefmonClear_only  ?_ (by decide)
    | with_reducible refine State.baymapCommit_only _ _ ?_ (by decide)
    | with_reducible refine State.latch_only _ _ ?_ (by decide)
    | with_reducible refine execEventStatClear_only  ?_ (by decide)
    | with_reducible refine execRingStatusClear_only _ ?_ (by decide)
    | split

theorem State.linkWrite_only {N : Nat} {σ s : State} (k : RegKey) (host : Bool) (src : Src) (d : Word) (hσ : Only N σ s)
    (hN : 0x7ffffffe01ffffffffffffffffffffffffffffffffffffffffffffffffffffffffff ||| N = N) : Only N σ (State.linkWrite s k host src d) := hσ.step (State.linkWrite_within s k host src d) hN

theorem State.blockWrite_within (s : State) (k : RegKey) (host : Bool) (src : Src) (d : Word) :
    Only 0x7ffffffe01ffffffffffffffffffffffffffffffffffffffffffffffffffffffffff s (State.blockWrite s k host src d) := by
  unfold State.blockWrite
  repeat' first
    | with_reducible exact Only.refl _ _
    | with_reducible refine Only.ite (fun _ => ?_) (fun _ => ?_)
    | with_reducible refine Only.foldl ?_ (fun _ _ => ?_)
    | with_reducible refine OnlyOut.next ?_
    | with_reducible refine OnlyOut.ite (fun _ => ?_) (fun _ => ?_)
    | with_reducible refine State.resetWrite_only _ _ ?_ (by decide)
    | with_reducible refine State.trimWrite_only _ _ _ ?_ (by decide)
    | with_reducible refine State.refpathWrite_only _ _ _ ?_ (by decide)
    | with_reducible refine State.calCtrlWrite_only _ _ _ _ ?_ (by decide)
    | with_reducible refine State.siteCtrlWrite_only _ _ _ ?_ (by decide)
    | with_reducible refine State.mailboxWrite_only _ _ _ ?_ (by decide)
    | with_reducible refine State.flowCfgWrite_only _ _ _ ?_ (by decide)
    | with_reducible refine State.dispOpWrite_only _ _ ?_ (by decide)
    | with_reducible refine State.winCmdWrite_only _ _ _ ?_ (by decide)
    | with_reducible refine State.framesWrite_only _ ?_ (by decide)
    | with_reducible refine State.trainGo_only _ ?_ (by decide)
    | with_reducible refine State.shadowWrite_only _ _ ?_ (by decide)
    | with_reducible refine State.mchCtrlWrite_only _ _ _ ?_ (by decide)
    | with_reducible refine State.panicWrite_only _ _ _ ?_ (by decide)
    | with_reducible refine State.drmCtrlWrite_only _ _ _ ?_ (by decide)
    | with_reducible refine State.plainWrite_only _ _ _ ?_ (by decide)
    | with_reducible refine State.w1c_only _ _ ?_ (by decide)
    | with_reducible refine Only.actDo ?_ (fun _ => ?_)
    | with_reducible refine Only.act ?_ (fun _ => ?_)
    | with_reducible refine execSiteCommit_only  ?_ (by decide)
    | with_reducible refine execPeakClear_only _ ?_ (by decide)
    | with_reducible refine execRasErrStatClear_only  ?_ (by decide)
    | with_reducible refine execPgtErrStatClear_only  ?_ (by decide)
    | with_reducible refine execLoadStatClear_only  ?_ (by decide)
    | with_reducible refine execRebuild_only  ?_ (by decide)
    | with_reducible refine execEccStatClear_only _ ?_ (by decide)
    | with_reducible refine execSrClear_only  ?_ (by decide)
    | with_reducible refine execOutOfRangeClear_only  ?_ (by decide)
    | with_reducible refine State.apply_only _ ?_ (by decide)
    | with_reducible refine State.firmwareGo_only _ ?_ (by decide)
    | with_reducible refine State.coreRunOp_only _ ?_ (by decide)
    | with_reducible refine execMailNorouteClear_only  ?_ (by decide)
    | with_reducible refine execThrWaitClear_only _ ?_ (by decide)
    | with_reducible refine execFlowStatClear_only _ ?_ (by decide)
    | with_reducible refine State.thrCfgOp_only _ _ ?_ (by decide)
    | with_reducible refine State.stageSite_only _ _ ?_ (by decide)
    | with_reducible refine State.set_only _ _ _ _ ?_ (by first | decide | exact anyFld _ (by decide))
    | split

theorem State.blockWrite_only {N : Nat} {σ s : State} (k : RegKey) (host : Bool) (src : Src) (d : Word) (hσ : Only N σ s)
    (hN : 0x7ffffffe01ffffffffffffffffffffffffffffffffffffffffffffffffffffffffff ||| N = N) : Only N σ (State.blockWrite s k host src d) := hσ.step (State.blockWrite_within s k host src d) hN

theorem State.regWrite_within (s : State) (k : RegKey) (host : Bool) (src : Src) (d : Word) :
    Only 0x7ffffffe01ffffffffffffffffffffffffffffffffffffffffffffffffffffffffff s (State.regWrite s k host src d) := by
  unfold State.regWrite
  repeat' first
    | with_reducible exact Only.refl _ _
    | with_reducible refine Only.ite (fun _ => ?_) (fun _ => ?_)
    | with_reducible refine Only.foldl ?_ (fun _ _ => ?_)
    | with_reducible refine State.blockWrite_only _ _ _ _ ?_ (by decide)
    | with_reducible refine State.linkWrite_only _ _ _ _ ?_ (by decide)
    | with_reducible refine State.seqWrite_only _ _ _ _ ?_ (by decide)
    | with_reducible refine State.bayWrite_only _ _ _ _ ?_ (by decide)

theorem State.regWrite_only {N : Nat} {σ s : State} (k : RegKey) (host : Bool) (src : Src) (d : Word) (hσ : Only N σ s)
    (hN : 0x7ffffffe01ffffffffffffffffffffffffffffffffffffffffffffffffffffffffff ||| N = N) : Only N σ (State.regWrite s k host src d) := hσ.step (State.regWrite_within s k host src d) hN

end Sys2Proof.Machine
end

