-- ==== Sys2Proof/Laws/Frame/Registers.lean ====
section
/-!
SUPPORT. Registers.lean: what each operation of Machine/Registers.lean can change (see Only).
-/
namespace Sys2Proof.Machine
set_option Elab.async false

theorem State.setHalves_within (s : State) (r : Requester) (h : Halves) :
    Only 0x30000000000000000000000000000000000000000000000000000000000000 s (State.setHalves s r h) := by
  unfold State.setHalves
  repeat' first
    | with_reducible exact Only.refl _ _
    | with_reducible refine Only.ite (fun _ => ?_) (fun _ => ?_)
    | with_reducible refine Only.foldl ?_ (fun _ _ => ?_)
    | fail_if_no_progress with_reducible refine Only.fields ?_ rfl rfl
    | split

theorem State.setHalves_only {N : Nat} {σ s : State} (r : Requester) (h : Halves) (hσ : Only N σ s)
    (hN : 0x30000000000000000000000000000000000000000000000000000000000000 ||| N = N) : Only N σ (State.setHalves s r h) := hσ.step (State.setHalves_within s r h) hN

theorem State.msixPut_within (s : State) (n : Nat) (x : Nat) :
    Only 0x840000000000000000000000000000000000000000000000000000000000000 s (State.msixPut s n x) := by
  unfold State.msixPut
  repeat' first
    | with_reducible exact Only.refl _ _
    | with_reducible refine Only.ite (fun _ => ?_) (fun _ => ?_)
    | with_reducible refine Only.foldl ?_ (fun _ _ => ?_)
    | fail_if_no_progress with_reducible refine Only.fields ?_ rfl rfl
    | with_reducible refine State.msixUnmask_only _ ?_ (by decide)

theorem State.msixPut_only {N : Nat} {σ s : State} (n : Nat) (x : Nat) (hσ : Only N σ s)
    (hN : 0x840000000000000000000000000000000000000000000000000000000000000 ||| N = N) : Only N σ (State.msixPut s n x) := hσ.step (State.msixPut_within s n x) hN

theorem State.msixAccess_within (s : State) (off : Nat) (bytes : Nat) (d : Word) :
    Only 0x840000000000000000000000000000000000000000000000000000000000000 s (State.msixAccess s off bytes d) := by
  unfold State.msixAccess
  repeat' first
    | with_reducible exact Only.refl _ _
    | with_reducible refine Only.ite (fun _ => ?_) (fun _ => ?_)
    | with_reducible refine Only.foldl ?_ (fun _ _ => ?_)
    | with_reducible refine State.msixPut_only _ _ ?_ (by decide)

theorem State.msixAccess_only {N : Nat} {σ s : State} (off : Nat) (bytes : Nat) (d : Word) (hσ : Only N σ s)
    (hN : 0x840000000000000000000000000000000000000000000000000000000000000 ||| N = N) : Only N σ (State.msixAccess s off bytes d) := hσ.step (State.msixAccess_within s off bytes d) hN

theorem State.readAt_within (s : State) (off : Nat) :
    Only 0xff7dfc4004011a4c030007002401c00060204000000f20080002201218000d45000 s (State.readAt s off).2 := by
  unfold State.readAt
  repeat' first
    | with_reducible exact Only.refl _ _
    | with_reducible refine Only.ite (fun _ => ?_) (fun _ => ?_)
    | with_reducible refine Only.foldl ?_ (fun _ _ => ?_)
    | with_reducible refine State.lateActs_only  ?_ (by decide)
    | with_reducible refine State.useFree_only  ?_ (by decide)
    | split

theorem State.readAt_only {N : Nat} {σ s : State} (off : Nat) (hσ : Only N σ s)
    (hN : 0xff7dfc4004011a4c030007002401c00060204000000f20080002201218000d45000 ||| N = N) : Only N σ (State.readAt s off).2 := hσ.step (State.readAt_within s off) hN

theorem State.readAt_only_eq {N : Nat} {σ s t : State} {off : Nat} {r0 : Word} (heq : State.readAt s off = (r0, t)) (hσ : Only N σ s)
    (hN : 0xff7dfc4004011a4c030007002401c00060204000000f20080002201218000d45000 ||| N = N) : Only N σ t := hσ.step (Only.snd heq (State.readAt_within s off)) hN

theorem State.advance_within (s : State) (off : Nat) :
    Only 0x4000010000000000000000000000000000000000000 s (State.advance s off) := by
  unfold State.advance
  repeat' first
    | with_reducible exact Only.refl _ _
    | with_reducible refine Only.ite (fun _ => ?_) (fun _ => ?_)
    | with_reducible refine Only.foldl ?_ (fun _ _ => ?_)
    | with_reducible refine State.feAutoinc_only _ ?_ (by decide)
    | with_reducible refine State.coefAutoinc_only _ ?_ (by decide)
    | split

theorem State.advance_only {N : Nat} {σ s : State} (off : Nat) (hσ : Only N σ s)
    (hN : 0x4000010000000000000000000000000000000000000 ||| N = N) : Only N σ (State.advance s off) := hσ.step (State.advance_within s off) hN

theorem State.writeAt_within (s : State) (r : Requester) (off : Nat) (d : Word) :
    Only 0x7ffffffe01ffffffffffffffffffffffffffffffffffffffffffffffffffffffffff s (State.writeAt s r off d) := by
  unfold State.writeAt
  repeat' first
    | with_reducible exact Only.refl _ _
    | with_reducible refine Only.ite (fun _ => ?_) (fun _ => ?_)
    | with_reducible refine Only.foldl ?_ (fun _ _ => ?_)
    | with_reducible refine State.regWrite_only _ _ _ _ ?_ (by decide)
    | with_reducible refine State.supersede_only _ ?_ (by decide)
    | split

theorem State.writeAt_only {N : Nat} {σ s : State} (r : Requester) (off : Nat) (d : Word) (hσ : Only N σ s)
    (hN : 0x7ffffffe01ffffffffffffffffffffffffffffffffffffffffffffffffffffffffff ||| N = N) : Only N σ (State.writeAt s r off d) := hσ.step (State.writeAt_within s r off d) hN

theorem State.writeAccess_within (s : State) (r : Requester) (off : Nat) (bytes : Nat) (d : Word) :
    Only 0x7ffffffe01ffffffffffffffffffffffffffffffffffffffffffffffffffffffffff s (State.writeAccess s r off bytes d) := by
  unfold State.writeAccess
  repeat' first
    | with_reducible exact Only.refl _ _
    | with_reducible refine Only.ite (fun _ => ?_) (fun _ => ?_)
    | with_reducible refine Only.foldl ?_ (fun _ _ => ?_)
    | with_reducible refine State.writeAt_only _ _ _ ?_ (by decide)
    | with_reducible refine State.msixAccess_only _ _ _ ?_ (by decide)
    | with_reducible refine State.setHalves_only _ _ ?_ (by decide)
    | split

theorem State.writeAccess_only {N : Nat} {σ s : State} (r : Requester) (off : Nat) (bytes : Nat) (d : Word) (hσ : Only N σ s)
    (hN : 0x7ffffffe01ffffffffffffffffffffffffffffffffffffffffffffffffffffffffff ||| N = N) : Only N σ (State.writeAccess s r off bytes d) := hσ.step (State.writeAccess_within s r off bytes d) hN

theorem State.bar2Write_within (s : State) (off : Nat) (bytes : Nat) (d : Word) :
    Only 0x844000000000000000000000000000000000000000000000000000000145000 s (State.bar2Write s off bytes d) := by
  unfold State.bar2Write
  repeat' first
    | with_reducible exact Only.refl _ _
    | with_reducible refine Only.ite (fun _ => ?_) (fun _ => ?_)
    | with_reducible refine Only.foldl ?_ (fun _ _ => ?_)
    | with_reducible refine State.doorbell_only _ _ ?_ (by decide)

theorem State.bar2Write_only {N : Nat} {σ s : State} (off : Nat) (bytes : Nat) (d : Word) (hσ : Only N σ s)
    (hN : 0x844000000000000000000000000000000000000000000000000000000145000 ||| N = N) : Only N σ (State.bar2Write s off bytes d) := hσ.step (State.bar2Write_within s off bytes d) hN

theorem State.configWrite_within (s : State) (off : Nat) (bytes : Nat) (d : Word) :
    Only 0x7ffffffe01ffffffffffffffffffffffffffffffffffffffffffffffffffffffffff s (State.configWrite s off bytes d) := by
  unfold State.configWrite
  repeat' first
    | with_reducible exact Only.refl _ _
    | with_reducible refine Only.ite (fun _ => ?_) (fun _ => ?_)
    | with_reducible refine Only.foldl ?_ (fun _ _ => ?_)
    | with_reducible refine State.requestReset_only _ ?_ (by decide)
    | with_reducible refine State.msixUnmaskAll_only  ?_ (by decide)
    | with_reducible refine State.configStore_only _ _ _ ?_ (by decide)
    | with_reducible refine State.configStore_only_eq (by assumption) ?_ (by decide)
    | with_reducible refine State.emit_only _ ?_ (by decide)

theorem State.configWrite_only {N : Nat} {σ s : State} (off : Nat) (bytes : Nat) (d : Word) (hσ : Only N σ s)
    (hN : 0x7ffffffe01ffffffffffffffffffffffffffffffffffffffffffffffffffffffffff ||| N = N) : Only N σ (State.configWrite s off bytes d) := hσ.step (State.configWrite_within s off bytes d) hN

theorem execRegisterWrite_within (req : Requester) (off : Nat) (bytes : Nat) (data : Word) (s : State) :
    OnlyOut 0x7ffffffe01ffffffffffffffffffffffffffffffffffffffffffffffffffffffffff s (execRegisterWrite req off bytes data s) := by
  unfold execRegisterWrite
  repeat' first
    | with_reducible exact Only.refl _ _
    | with_reducible refine Only.ite (fun _ => ?_) (fun _ => ?_)
    | with_reducible refine Only.foldl ?_ (fun _ _ => ?_)
    | with_reducible refine OnlyOut.next ?_
    | with_reducible refine OnlyOut.ite (fun _ => ?_) (fun _ => ?_)
    | with_reducible refine State.configWrite_only _ _ _ ?_ (by decide)
    | with_reducible refine State.bar2Write_only _ _ _ ?_ (by decide)
    | with_reducible refine State.writeAccess_only _ _ _ _ ?_ (by decide)
    | split

theorem execRegisterWrite_only {N : Nat} {σ s : State} (req : Requester) (off : Nat) (bytes : Nat) (data : Word) (hσ : Only N σ s)
    (hN : 0x7ffffffe01ffffffffffffffffffffffffffffffffffffffffffffffffffffffffff ||| N = N) : OnlyOut N σ (execRegisterWrite req off bytes data s) := hσ.outcome (execRegisterWrite_within req off bytes data s) hN

theorem State.readAccess_within (s : State) (r : Requester) (off : Nat) (bytes : Nat) :
    Only 0xff7dfc4004011a4c030007006401c10060204000000f20080002201218000d45000 s (State.readAccess s r off bytes).2.2 := by
  unfold State.readAccess
  repeat' first
    | with_reducible exact Only.refl _ _
    | with_reducible refine Only.ite (fun _ => ?_) (fun _ => ?_)
    | with_reducible refine Only.foldl ?_ (fun _ _ => ?_)
    | with_reducible refine State.advance_only _ ?_ (by decide)
    | with_reducible refine State.readAt_only _ ?_ (by decide)
    | with_reducible refine State.readAt_only_eq (by assumption) ?_ (by decide)
    | split

theorem State.readAccess_only {N : Nat} {σ s : State} (r : Requester) (off : Nat) (bytes : Nat) (hσ : Only N σ s)
    (hN : 0xff7dfc4004011a4c030007006401c10060204000000f20080002201218000d45000 ||| N = N) : Only N σ (State.readAccess s r off bytes).2.2 := hσ.step (State.readAccess_within s r off bytes) hN

theorem State.readAccess_only_eq {N : Nat} {σ s t : State} {r : Requester} {off : Nat} {bytes : Nat} {r0 : Word} {w : Option (Nat × Nat)} (heq : State.readAccess s r off bytes = (r0, w, t)) (hσ : Only N σ s)
    (hN : 0xff7dfc4004011a4c030007006401c10060204000000f20080002201218000d45000 ||| N = N) : Only N σ t := hσ.step (Only.third heq (State.readAccess_within s r off bytes)) hN

theorem State.readBy_within (s : State) (r : Requester) (off : Nat) (bytes : Nat) :
    Only 0xff7dff4004011a4c030007006401c10060204000000f20080002201218000d45000 s (State.readBy s r off bytes) := by
  unfold State.readBy
  repeat' first
    | with_reducible exact Only.refl _ _
    | with_reducible refine Only.ite (fun _ => ?_) (fun _ => ?_)
    | with_reducible refine Only.foldl ?_ (fun _ _ => ?_)
    | with_reducible refine State.readAccess_only _ _ _ ?_ (by decide)
    | with_reducible refine State.readAccess_only_eq (by assumption) ?_ (by decide)
    | with_reducible refine State.setHalves_only _ _ ?_ (by decide)

theorem State.readBy_only {N : Nat} {σ s : State} (r : Requester) (off : Nat) (bytes : Nat) (hσ : Only N σ s)
    (hN : 0xff7dff4004011a4c030007006401c10060204000000f20080002201218000d45000 ||| N = N) : Only N σ (State.readBy s r off bytes) := hσ.step (State.readBy_within s r off bytes) hN

theorem execRegisterRead_within (req : Requester) (off : Nat) (bytes : Nat) (s : State) :
    OnlyOut 0xff7dff4004011a4c030007006401c10060204000000f20080002201218000d45000 s (execRegisterRead req off bytes s) := by
  unfold execRegisterRead
  repeat' first
    | with_reducible exact Only.refl _ _
    | with_reducible refine Only.ite (fun _ => ?_) (fun _ => ?_)
    | with_reducible refine Only.foldl ?_ (fun _ _ => ?_)
    | with_reducible refine OnlyOut.next ?_
    | with_reducible refine OnlyOut.ite (fun _ => ?_) (fun _ => ?_)
    | with_reducible refine State.readBy_only _ _ _ ?_ (by decide)
    | with_reducible refine State.setHalves_only _ _ ?_ (by decide)
    | with_reducible refine State.configRead_only _ _ ?_ (by decide)
    | split

theorem execRegisterRead_only {N : Nat} {σ s : State} (req : Requester) (off : Nat) (bytes : Nat) (hσ : Only N σ s)
    (hN : 0xff7dff4004011a4c030007006401c10060204000000f20080002201218000d45000 ||| N = N) : OnlyOut N σ (execRegisterRead req off bytes s) := hσ.outcome (execRegisterRead_within req off bytes s) hN

theorem State.answerLoad_within (s : State) (c : Nat) :
    Only 0xff7dff4004011a4c030007006401c10060204000000f20080002201218000d45000 s (State.answerLoad s c) := by
  unfold State.answerLoad
  repeat' first
    | with_reducible exact Only.refl _ _
    | with_reducible refine Only.ite (fun _ => ?_) (fun _ => ?_)
    | with_reducible refine Only.foldl ?_ (fun _ _ => ?_)
    | with_reducible refine State.readBy_only _ _ _ ?_ (by decide)
    | with_reducible refine State.setCpu_only _ _ ?_ (by decide)
    | split

theorem State.answerLoad_only {N : Nat} {σ s : State} (c : Nat) (hσ : Only N σ s)
    (hN : 0xff7dff4004011a4c030007006401c10060204000000f20080002201218000d45000 ||| N = N) : Only N σ (State.answerLoad s c) := hσ.step (State.answerLoad_within s c) hN

theorem State.takeStores_within (s : State) : Only 0x21001000000000000000000000000000000000000000000000000000000000000 s s.takeStores := by
  unfold State.takeStores
  extract_lets l
  refine .ite (fun _ => .refl ..) (fun _ => Only.queue _ ?_ (by decide))
  exact (Only.refl ..).foldl fun t c => State.setCoreX_only _ _ (.refl ..) (by decide)

theorem State.takeStores_only {N : Nat} {σ s : State} (hσ : Only N σ s) (hN : 0x21001000000000000000000000000000000000000000000000000000000000000 ||| N = N) : Only N σ s.takeStores :=
  hσ.step (State.takeStores_within s) hN

theorem State.idle_within (s : State) :
    Only 0x7ff7ffff004011a4c8300073ffffffffffffff041282f200b080a241218000d45400 s (State.idle s) := by
  unfold State.idle
  repeat' first
    | with_reducible exact Only.refl _ _
    | with_reducible refine Only.ite (fun _ => ?_) (fun _ => ?_)
    | with_reducible refine Only.foldl ?_ (fun _ _ => ?_)
    | with_reducible refine State.takeStores_only  ?_ (by decide)
    | with_reducible refine State.answerLoad_only _ ?_ (by decide)
    | with_reducible refine State.tick_only  ?_ (by decide)

theorem State.idle_only {N : Nat} {σ s : State}  (hσ : Only N σ s)
    (hN : 0x7ff7ffff004011a4c8300073ffffffffffffff041282f200b080a241218000d45400 ||| N = N) : Only N σ (State.idle s) := hσ.step (State.idle_within s) hN

theorem execW1cClear_within (off : Nat) (bits : Word) (s : State) :
    OnlyOut 0x7ffffffe01ffffffffffffffffffffffffffffffffffffffffffffffffffffffffff s (execW1cClear off bits s) := by
  unfold execW1cClear
  repeat' first
    | with_reducible exact Only.refl _ _
    | with_reducible refine Only.ite (fun _ => ?_) (fun _ => ?_)
    | with_reducible refine Only.foldl ?_ (fun _ _ => ?_)
    | with_reducible refine OnlyOut.next ?_
    | with_reducible refine OnlyOut.ite (fun _ => ?_) (fun _ => ?_)
    | with_reducible refine State.w1c_only _ _ ?_ (by decide)
    | with_reducible refine State.supersede_only _ ?_ (by decide)
    | split

theorem execW1cClear_only {N : Nat} {σ s : State} (off : Nat) (bits : Word) (hσ : Only N σ s)
    (hN : 0x7ffffffe01ffffffffffffffffffffffffffffffffffffffffffffffffffffffffff ||| N = N) : OnlyOut N σ (execW1cClear off bits s) := hσ.outcome (execW1cClear_within off bits s) hN

end Sys2Proof.Machine
end

