-- ==== Sys2Proof/Laws/State.lean ====
section
/-!
SUPPORT. State.lean: what each update of the state leaves in each field, and what reading a field of a register back gives.
-/
namespace Sys2Proof.Machine
set_option Elab.async false

/-! ### Bits of a word (R9) -/

theorem withBits_toNat (v : Word) (lo w x : Nat) (h : lo + w ≤ 64) :
    (withBits v lo w x).toNat = v.toNat / 2 ^ (lo + w) * 2 ^ (lo + w) + x % 2 ^ w * 2 ^ lo + v.toNat % 2 ^ lo := by
  unfold withBits
  rw [BitVec.toNat_ofNat, Nat.mod_eq_of_lt]
  have hv := v.isLt
  obtain ⟨d, hd⟩ : ∃ d, 64 = lo + w + d := ⟨64 - (lo + w), by omega⟩
  have h1 : v.toNat / 2 ^ (lo + w) < 2 ^ d := by
    rw [Nat.div_lt_iff_lt_mul (Nat.two_pow_pos _), ← Nat.pow_add, Nat.add_comm d, ← hd]; exact hv
  have h2 : x % 2 ^ w < 2 ^ w := Nat.mod_lt _ (Nat.two_pow_pos _)
  have h3 : v.toNat % 2 ^ lo < 2 ^ lo := Nat.mod_lt _ (Nat.two_pow_pos _)
  have h4 : (v.toNat / 2 ^ (lo + w) + 1) * 2 ^ (lo + w) ≤ 2 ^ d * 2 ^ (lo + w) := Nat.mul_le_mul_right _ h1
  have h5 : (x % 2 ^ w + 1) * 2 ^ lo ≤ 2 ^ w * 2 ^ lo := Nat.mul_le_mul_right _ h2
  rw [← Nat.pow_add, Nat.add_comm d, ← hd, Nat.add_mul, Nat.one_mul] at h4
  rw [← Nat.pow_add, Nat.add_comm w, Nat.add_mul, Nat.one_mul] at h5
  omega

theorem withBits_testBit (v : Word) (lo w x n : Nat) (h : lo + w ≤ 64) :
    (withBits v lo w x).toNat.testBit n = if lo ≤ n ∧ n < lo + w then x.testBit (n - lo) else v.toNat.testBit n := by
  rw [withBits_toNat v lo w x h]
  have hlow : v.toNat % 2 ^ lo < 2 ^ lo := Nat.mod_lt _ (Nat.two_pow_pos _)
  have e : v.toNat / 2 ^ (lo + w) * 2 ^ (lo + w) + x % 2 ^ w * 2 ^ lo + v.toNat % 2 ^ lo
      = 2 ^ lo * (2 ^ w * (v.toNat / 2 ^ (lo + w)) + x % 2 ^ w) + v.toNat % 2 ^ lo := by
    generalize v.toNat / 2 ^ (lo + w) = A
    rw [Nat.pow_add, Nat.mul_add, Nat.mul_left_comm, Nat.mul_comm (x % _), Nat.mul_comm A]
  rw [e, Nat.testBit_two_pow_mul_add _ hlow, Nat.testBit_mod_two_pow]
  by_cases h1 : n < lo
  · simp [h1, Nat.not_le.2 h1]
  · rw [if_neg h1, Nat.testBit_two_pow_mul_add _ (Nat.mod_lt _ (Nat.two_pow_pos _)), Nat.testBit_mod_two_pow]
    by_cases h2 : n - lo < w
    · rw [if_pos h2, if_pos ⟨by omega, by omega⟩]; simp [h2]
    · rw [if_neg h2, if_neg (by omega), Nat.testBit_div_two_pow]
      congr 1; omega

theorem bitsOf_testBit (v : Word) (lo w n : Nat) : (bitsOf v lo w).testBit n = (decide (n < w) && v.toNat.testBit (n + lo)) := by
  unfold bitsOf
  rw [Nat.testBit_mod_two_pow, Nat.testBit_div_two_pow]

/-- The bits written are read back. -/
theorem bitsOf_withBits (v : Word) (lo w x : Nat) (h : lo + w ≤ 64) : bitsOf (withBits v lo w x) lo w = x % 2 ^ w := by
  apply Nat.eq_of_testBit_eq
  intro n
  rw [bitsOf_testBit, withBits_testBit _ _ _ _ _ h, Nat.testBit_mod_two_pow]
  by_cases hn : n < w
  · simp [hn, Nat.add_comm n lo]
  · simp [hn]

/-- Bits beside the written ones are as before. -/
theorem bitsOf_withBits_ne (v : Word) (lo w x lo' w' : Nat) (h : lo + w ≤ 64) (d : lo + w ≤ lo' ∨ lo' + w' ≤ lo) :
    bitsOf (withBits v lo w x) lo' w' = bitsOf v lo' w' := by
  apply Nat.eq_of_testBit_eq
  intro n
  rw [bitsOf_testBit, bitsOf_testBit, withBits_testBit _ _ _ _ _ h]
  by_cases hn : n < w'
  · rw [if_neg (by omega)]
  · simp [hn]

theorem bitsOf_lt (v : Word) (lo w : Nat) : bitsOf v lo w < 2 ^ w := Nat.mod_lt _ (Nat.two_pow_pos w)

/-- Bit `n` of a mask after bit `m` has been written. -/
theorem testBit_putBit (x m n : Nat) (b : Bool) : testBit (putBit x m b) n = if n = m then b else testBit x n := by
  have key : ∀ y n, testBit y n = y.testBit n := fun y n => by
    simp only [testBit, Nat.testBit_eq_decide_div_mod_eq]
  have hlt : x % 2 ^ m < 2 ^ m := Nat.mod_lt _ (Nat.two_pow_pos _)
  have hx : x = 2 ^ m * (2 * (x / 2 ^ m / 2) + x / 2 ^ m % 2) + x % 2 ^ m := by
    rw [Nat.div_add_mod (x / 2 ^ m) 2, Nat.div_add_mod]
  have hp : putBit x m b = 2 ^ m * (2 * (x / 2 ^ m / 2) + b.toNat) + x % 2 ^ m := by
    unfold putBit
    generalize hA : x / 2 ^ m / 2 = A at hx
    generalize hB : x / 2 ^ m % 2 = B at hx
    generalize x % 2 ^ m = C at hx
    rw [Nat.mul_add] at hx ⊢
    rw [Nat.mul_comm B, Nat.mul_comm b.toNat]
    omega
  rw [key, key, hp]
  rw [Nat.testBit_two_pow_mul_add _ hlt]
  have hr : x.testBit n = if n < m then (x % 2 ^ m).testBit n else (2 * (x / 2 ^ m / 2) + x / 2 ^ m % 2).testBit (n - m) := by
    rw [← Nat.testBit_two_pow_mul_add _ hlt, ← hx]
  rw [hr]
  by_cases h1 : n < m
  · rw [if_pos h1, if_pos h1, if_neg (by omega)]
  · rw [if_neg h1, if_neg h1]
    by_cases h2 : n = m
    · subst h2; simp only [Nat.sub_self, if_true]; cases b <;> simp [Nat.testBit_zero]
    · rw [if_neg h2]
      obtain ⟨d, hd⟩ : ∃ d, n - m = d + 1 := ⟨n - m - 1, by omega⟩
      rw [hd, Nat.testBit_succ, Nat.testBit_succ]
      have hb : b.toNat < 2 := by cases b <;> decide
      congr 1; omega

/-! ### Fields of registers -/

/-- A register other than the written one is as before. -/
theorem State.rd_wr_ne (s : State) {k k' : RegKey} (v : Word) (h : k' ≠ k) : (s.wr k v).rd k' = s.rd k' := by
  rw [State.rd_wr, if_neg h]

@[simp] theorem State.rd_wr_self (s : State) (k : RegKey) (v : Word) : (s.wr k v).rd k = v := by rw [State.rd_wr, if_pos rfl]

theorem State.rd_set_ne (s : State) (f : Fld) (i j v : Nat) {k : RegKey} (h : k ≠ f.key i j) : (s.set f i j v).rd k = s.rd k :=
  s.rd_wr_ne _ h

/-- A field reads back what was stored in it, modulo 2^width. -/
theorem State.get_set (s : State) (f : Fld) (i j v : Nat) (h : f.lo + f.width ≤ 64) :
    (s.set f i j v).get f i j = v % 2 ^ f.width := by
  unfold State.get State.set
  rw [State.rd_wr_self, bitsOf_withBits _ _ _ _ h]

/-- Another field is as before. -/
theorem State.get_set_ne (s : State) (f g : Fld) (i j v i' j' : Nat) (h : f.lo + f.width ≤ 64)
    (d : f.reg ≠ g.reg ∨ i ≠ i' ∨ j ≠ j' ∨ f.lo + f.width ≤ g.lo ∨ g.lo + g.width ≤ f.lo) :
    (s.set f i j v).get g i' j' = s.get g i' j' := by
  unfold State.get State.set
  rw [State.rd_wr]
  by_cases hk : g.key i' j' = f.key i j
  · rw [if_pos hk, hk]
    have hr : g.reg = f.reg := congrArg RegKey.name hk
    have hi : i' = i := congrArg RegKey.inst hk
    have hj : j' = j := congrArg RegKey.elem hk
    exact bitsOf_withBits_ne _ _ _ _ _ _ h (by simp_all)
  · rw [if_neg hk]

theorem State.get_setBit (s : State) (f : Fld) (i j : Nat) (b : Bool) (h : f.lo + f.width ≤ 64) (hw : 0 < f.width) :
    (s.setBit f i j b).get f i j = b.toNat := by
  unfold State.setBit
  rw [State.get_set _ _ _ _ _ h]
  apply Nat.mod_eq_of_lt
  have : (2 : Nat) ^ 1 ≤ 2 ^ f.width := Nat.pow_le_pow_right (by decide) hw
  cases b <;> simp <;> omega

theorem State.get_setBit_ne (s : State) (f g : Fld) (i j : Nat) (b : Bool) (i' j' : Nat) (h : f.lo + f.width ≤ 64)
    (d : f.reg ≠ g.reg ∨ i ≠ i' ∨ j ≠ j' ∨ f.lo + f.width ≤ g.lo ∨ g.lo + g.width ≤ f.lo) :
    (s.setBit f i j b).get g i' j' = s.get g i' j' := s.get_set_ne f g i j _ i' j' h d

theorem State.bit_setBit (s : State) (f : Fld) (i j : Nat) (b : Bool) (h : f.lo + f.width ≤ 64) (hw : 0 < f.width) :
    (s.setBit f i j b).bit f i j = b := by
  unfold State.bit
  rw [State.get_setBit _ _ _ _ _ h hw]
  cases b <;> rfl

theorem State.get_lt (s : State) (f : Fld) (i j : Nat) : s.get f i j < 2 ^ f.width := bitsOf_lt ..

/-- A field of a register that is not in the set of an operation is as before. -/
theorem Only.get {N : Nat} {s t : State} (h : Only N s t) (f : Fld) (i j : Nat) (hf : N.testBit f.reg.ctorIdx = false) :
    t.get f i j = s.get f i j := congrArg (bitsOf · f.lo f.width) (h.reg (f.key i j) hf)

theorem Only.bit {N : Nat} {s t : State} (h : Only N s t) (f : Fld) (i j : Nat) (hf : N.testBit f.reg.ctorIdx = false) :
    t.bit f i j = s.bit f i j := congrArg (fun n => decide (n = 1)) (h.get f i j hf)

/-- A hardware event sets a W1C bit in which no clear was sampled in the same tick (R13). -/
theorem State.get_hwSet (s : State) (f : Fld) (i j : Nat) (hc : s.clearedNow (f.key i j) f.lo = false)
    (h : f.lo + f.width ≤ 64) (hw : 0 < f.width) : (s.hwSet f i j).get f i j = 1 := by
  unfold State.hwSet
  rw [if_neg (by simp [hc])]
  show (s.setBit f i j true).get f i j = 1
  rw [State.get_setBit _ _ _ _ _ h hw]; rfl

/-- A count that is not at its end and not cleared in the same tick grows (R19). -/
theorem State.get_count (s : State) (f sat : Fld) (i j n : Nat) (hc : s.clearedNow (f.key i j) f.lo = false)
    (hn : s.get f i j + n < 2 ^ f.width) (h : f.lo + f.width ≤ 64) : (s.count f sat i j n).get f i j = s.get f i j + n := by
  unfold State.count
  rw [if_neg (by simp [hc])]
  show (s.addCount f sat i j n).get f i j = _
  unfold State.addCount
  rw [if_pos hn, State.get_set _ _ _ _ _ h, Nat.mod_eq_of_lt hn]

/-- Counting discarded events leaves every register but CLK.PREC_STATS as it is. -/
theorem State.get_supersede (s : State) (n : Nat) (f : Fld) (i j : Nat) (hf : f.reg ≠ .clkPrecStats) :
    (s.supersede n).get f i j = s.get f i j := by
  unfold State.supersede
  split
  · rfl
  · unfold State.addCount
    split
    · exact State.get_set_ne _ _ _ _ _ _ _ _ (by decide) (.inl (Ne.symm hf))
    · exact (State.get_setBit_ne _ _ _ _ _ _ _ _ (by decide) (.inl (Ne.symm hf))).trans
        (State.get_set_ne _ _ _ _ _ _ _ _ (by decide) (.inl (Ne.symm hf)))

/-- A clear that no reset of its block discards leaves the field zero (R13). -/
theorem State.get_clear (s : State) (f : Fld) (i j : Nat) (hf : f.reg ≠ .clkPrecStats) (h : f.lo + f.width ≤ 64)
    (hc : (s.inReset (.field (f.key i j) f.lo) || (s.waiting (.field (f.key i j) f.lo)).any (fun w => decide (w.cls = 1))) = false) :
    (s.clear f i j).get f i j = 0 := by
  unfold State.clear State.clearing
  rw [if_neg (by simp [hc]), State.get_supersede _ _ _ _ _ hf]
  show (s.set f i j 0).get f i j = 0
  rw [State.get_set _ _ _ _ _ h, Nat.zero_mod]

/-! ### Indexed units -/

theorem unitAt_putUnit {V : Type} [DecidableEq V] (d : V) (l : List (Nat × V)) (n m : Nat) (v : V) :
    unitAt d (putUnit d l n v) m = if m = n then v else unitAt d l m := Assoc.rd_wr ..

@[simp] theorem State.seqX_setSeqX (s : State) (q : Nat) (x : SeqX) (q' : Nat) :
    (s.setSeqX q x).seqX q' = if q' = q then x else s.seqX q' := unitAt_putUnit ..

@[simp] theorem State.chan_setChan (s : State) (c : Nat) (x : ChanX) (c' : Nat) :
    (s.setChan c x).chan c' = if c' = c then x else s.chan c' := unitAt_putUnit ..

@[simp] theorem State.logX_setLogX (s : State) (q : Nat) (x : LogX) (q' : Nat) :
    (s.setLogX q x).logX q' = if q' = q then x else s.logX q' := unitAt_putUnit ..

@[simp] theorem State.store_setStore (s : State) (q : Nat) (x : TsStore) (q' : Nat) :
    (s.setStore q x).store q' = if q' = q then x else s.store q' := unitAt_putUnit ..

@[simp] theorem State.ringX_setRingX (s : State) (q : Nat) (x : RingX) (q' : Nat) :
    (s.setRingX q x).ringX q' = if q' = q then x else s.ringX q' := unitAt_putUnit ..

@[simp] theorem State.portX_setPortX (s : State) (p : Nat) (x : PortX) (p' : Nat) :
    (s.setPortX p x).portX p' = if p' = p then x else s.portX p' := unitAt_putUnit ..

@[simp] theorem State.coreX_setCoreX (s : State) (c : Nat) (x : CoreX) (c' : Nat) :
    (s.setCoreX c x).coreX c' = if c' = c then x else s.coreX c' := unitAt_putUnit ..

@[simp] theorem State.flowX_setFlowX (s : State) (f : Nat) (x : FlowX) (f' : Nat) :
    (s.setFlowX f x).flowX f' = if f' = f then x else s.flowX f' := unitAt_putUnit ..

@[simp] theorem State.entry_setEntry (s : State) (g : Nat) (e : PgEntry) (g' : Nat) :
    (s.setEntry g e).entry g' = if g' = g then e else s.entry g' := unitAt_putUnit ..

@[simp] theorem State.adc_setAdc (s : State) (b : Nat) (x : AdcX) (b' : Nat) :
    (s.setAdc b x).adc b' = if b' = b then x else s.adc b' := unitAt_putUnit ..

@[simp] theorem State.acq_setAcq (s : State) (b : Nat) (x : AcqX) (b' : Nat) :
    (s.setAcq b x).acq b' = if b' = b then x else s.acq b' := unitAt_putUnit ..

@[simp] theorem State.tim_setTim (s : State) (m : Nat) (x : TimX) (m' : Nat) :
    (s.setTim m x).tim m' = if m' = m then x else s.tim m' := unitAt_putUnit ..

@[simp] theorem State.fe_setFe (s : State) (b : Nat) (x : FeX) (b' : Nat) :
    (s.setFe b x).fe b' = if b' = b then x else s.fe b' := unitAt_putUnit ..

@[simp] theorem State.dclk_setDclk (s : State) (b g : Nat) (x : DclkX) :
    (s.setDclk b g x).dclk b g = x := by
  show unitAt {} (putUnit {} s.dclks (2 * b + g) x) (2 * b + g) = x
  rw [unitAt_putUnit, if_pos rfl]

/-- One byte of local DRAM after a byte has been written. -/
@[simp] theorem State.memByte_putByte (s : State) (a : Nat) (b : Byte) (a' : Nat) :
    (s.putByte a b).memByte a' = if a' = a then b else s.memByte a' := Assoc.rd_wr ..

/-! ### One lemma for each field and each update -/

section
variable (s : State)

@[simp] theorem State.wr_pending (k : RegKey) (v : Word) : (s.wr k v).pending = s.pending := rfl
@[simp] theorem State.wr_ticks (k : RegKey) (v : Word) : (s.wr k v).ticks = s.ticks := rfl
@[simp] theorem State.wr_events (k : RegKey) (v : Word) : (s.wr k v).events = s.events := rfl
@[simp] theorem State.wr_startOfTick (k : RegKey) (v : Word) : (s.wr k v).startOfTick = s.startOfTick := rfl
@[simp] theorem State.wr_halvesHost (k : RegKey) (v : Word) : (s.wr k v).halvesHost = s.halvesHost := rfl
@[simp] theorem State.wr_halvesCore (k : RegKey) (v : Word) : (s.wr k v).halvesCore = s.halvesCore := rfl
@[simp] theorem State.wr_out (k : RegKey) (v : Word) : (s.wr k v).out = s.out := rfl
@[simp] theorem State.wr_free (k : RegKey) (v : Word) : (s.wr k v).free = s.free := rfl
@[simp] theorem State.wr_mem (k : RegKey) (v : Word) : (s.wr k v).mem = s.mem := rfl
@[simp] theorem State.wr_time (k : RegKey) (v : Word) : (s.wr k v).time = s.time := rfl
@[simp] theorem State.wr_olu (k : RegKey) (v : Word) : (s.wr k v).olu = s.olu := rfl
@[simp] theorem State.wr_host (k : RegKey) (v : Word) : (s.wr k v).host = s.host := rfl
@[simp] theorem State.wr_disp (k : RegKey) (v : Word) : (s.wr k v).disp = s.disp := rfl
@[simp] theorem State.wr_gfPrev (k : RegKey) (v : Word) : (s.wr k v).gfPrev = s.gfPrev := rfl
@[simp] theorem State.wr_seqs (k : RegKey) (v : Word) : (s.wr k v).seqs = s.seqs := rfl
@[simp] theorem State.wr_bars (k : RegKey) (v : Word) : (s.wr k v).bars = s.bars := rfl
@[simp] theorem State.wr_chans (k : RegKey) (v : Word) : (s.wr k v).chans = s.chans := rfl
@[simp] theorem State.wr_stores (k : RegKey) (v : Word) : (s.wr k v).stores = s.stores := rfl
@[simp] theorem State.wr_logs (k : RegKey) (v : Word) : (s.wr k v).logs = s.logs := rfl
@[simp] theorem State.wr_logTurn (k : RegKey) (v : Word) : (s.wr k v).logTurn = s.logTurn := rfl
@[simp] theorem State.wr_dclks (k : RegKey) (v : Word) : (s.wr k v).dclks = s.dclks := rfl
@[simp] theorem State.wr_dram (k : RegKey) (v : Word) : (s.wr k v).dram = s.dram := rfl
@[simp] theorem State.wr_site (k : RegKey) (v : Word) : (s.wr k v).site = s.site := rfl
@[simp] theorem State.wr_page (k : RegKey) (v : Word) : (s.wr k v).page = s.page := rfl
@[simp] theorem State.wr_fes (k : RegKey) (v : Word) : (s.wr k v).fes = s.fes := rfl
@[simp] theorem State.wr_adcs (k : RegKey) (v : Word) : (s.wr k v).adcs = s.adcs := rfl
@[simp] theorem State.wr_acqs (k : RegKey) (v : Word) : (s.wr k v).acqs = s.acqs := rfl
@[simp] theorem State.wr_tims (k : RegKey) (v : Word) : (s.wr k v).tims = s.tims := rfl
@[simp] theorem State.wr_cal (k : RegKey) (v : Word) : (s.wr k v).cal = s.cal := rfl
@[simp] theorem State.wr_ras (k : RegKey) (v : Word) : (s.wr k v).ras = s.ras := rfl
@[simp] theorem State.wr_clk (k : RegKey) (v : Word) : (s.wr k v).clk = s.clk := rfl
@[simp] theorem State.wr_memByte (k : RegKey) (v : Word) (x : Nat) : (s.wr k v).memByte x = s.memByte x := rfl

@[simp] theorem State.set_pending (f : Fld) (i j v : Nat) : (s.set f i j v).pending = s.pending := rfl
@[simp] theorem State.set_ticks (f : Fld) (i j v : Nat) : (s.set f i j v).ticks = s.ticks := rfl
@[simp] theorem State.set_events (f : Fld) (i j v : Nat) : (s.set f i j v).events = s.events := rfl
@[simp] theorem State.set_startOfTick (f : Fld) (i j v : Nat) : (s.set f i j v).startOfTick = s.startOfTick := rfl
@[simp] theorem State.set_halvesHost (f : Fld) (i j v : Nat) : (s.set f i j v).halvesHost = s.halvesHost := rfl
@[simp] theorem State.set_halvesCore (f : Fld) (i j v : Nat) : (s.set f i j v).halvesCore = s.halvesCore := rfl
@[simp] theorem State.set_out (f : Fld) (i j v : Nat) : (s.set f i j v).out = s.out := rfl
@[simp] theorem State.set_free (f : Fld) (i j v : Nat) : (s.set f i j v).free = s.free := rfl
@[simp] theorem State.set_mem (f : Fld) (i j v : Nat) : (s.set f i j v).mem = s.mem := rfl
@[simp] theorem State.set_time (f : Fld) (i j v : Nat) : (s.set f i j v).time = s.time := rfl
@[simp] theorem State.set_olu (f : Fld) (i j v : Nat) : (s.set f i j v).olu = s.olu := rfl
@[simp] theorem State.set_host (f : Fld) (i j v : Nat) : (s.set f i j v).host = s.host := rfl
@[simp] theorem State.set_disp (f : Fld) (i j v : Nat) : (s.set f i j v).disp = s.disp := rfl
@[simp] theorem State.set_gfPrev (f : Fld) (i j v : Nat) : (s.set f i j v).gfPrev = s.gfPrev := rfl
@[simp] theorem State.set_seqs (f : Fld) (i j v : Nat) : (s.set f i j v).seqs = s.seqs := rfl
@[simp] theorem State.set_bars (f : Fld) (i j v : Nat) : (s.set f i j v).bars = s.bars := rfl
@[simp] theorem State.set_chans (f : Fld) (i j v : Nat) : (s.set f i j v).chans = s.chans := rfl
@[simp] theorem State.set_stores (f : Fld) (i j v : Nat) : (s.set f i j v).stores = s.stores := rfl
@[simp] theorem State.set_logs (f : Fld) (i j v : Nat) : (s.set f i j v).logs = s.logs := rfl
@[simp] theorem State.set_logTurn (f : Fld) (i j v : Nat) : (s.set f i j v).logTurn = s.logTurn := rfl
@[simp] theorem State.set_dclks (f : Fld) (i j v : Nat) : (s.set f i j v).dclks = s.dclks := rfl
@[simp] theorem State.set_dram (f : Fld) (i j v : Nat) : (s.set f i j v).dram = s.dram := rfl
@[simp] theorem State.set_site (f : Fld) (i j v : Nat) : (s.set f i j v).site = s.site := rfl
@[simp] theorem State.set_page (f : Fld) (i j v : Nat) : (s.set f i j v).page = s.page := rfl
@[simp] theorem State.set_fes (f : Fld) (i j v : Nat) : (s.set f i j v).fes = s.fes := rfl
@[simp] theorem State.set_adcs (f : Fld) (i j v : Nat) : (s.set f i j v).adcs = s.adcs := rfl
@[simp] theorem State.set_acqs (f : Fld) (i j v : Nat) : (s.set f i j v).acqs = s.acqs := rfl
@[simp] theorem State.set_tims (f : Fld) (i j v : Nat) : (s.set f i j v).tims = s.tims := rfl
@[simp] theorem State.set_cal (f : Fld) (i j v : Nat) : (s.set f i j v).cal = s.cal := rfl
@[simp] theorem State.set_ras (f : Fld) (i j v : Nat) : (s.set f i j v).ras = s.ras := rfl
@[simp] theorem State.set_clk (f : Fld) (i j v : Nat) : (s.set f i j v).clk = s.clk := rfl
@[simp] theorem State.set_memByte (f : Fld) (i j v : Nat) (x : Nat) : (s.set f i j v).memByte x = s.memByte x := rfl

@[simp] theorem State.setBit_pending (f : Fld) (i j : Nat) (b : Bool) : (s.setBit f i j b).pending = s.pending := rfl
@[simp] theorem State.setBit_ticks (f : Fld) (i j : Nat) (b : Bool) : (s.setBit f i j b).ticks = s.ticks := rfl
@[simp] theorem State.setBit_events (f : Fld) (i j : Nat) (b : Bool) : (s.setBit f i j b).events = s.events := rfl
@[simp] theorem State.setBit_startOfTick (f : Fld) (i j : Nat) (b : Bool) : (s.setBit f i j b).startOfTick = s.startOfTick := rfl
@[simp] theorem State.setBit_halvesHost (f : Fld) (i j : Nat) (b : Bool) : (s.setBit f i j b).halvesHost = s.halvesHost := rfl
@[simp] theorem State.setBit_halvesCore (f : Fld) (i j : Nat) (b : Bool) : (s.setBit f i j b).halvesCore = s.halvesCore := rfl
@[simp] theorem State.setBit_out (f : Fld) (i j : Nat) (b : Bool) : (s.setBit f i j b).out = s.out := rfl
@[simp] theorem State.setBit_free (f : Fld) (i j : Nat) (b : Bool) : (s.setBit f i j b).free = s.free := rfl
@[simp] theorem State.setBit_mem (f : Fld) (i j : Nat) (b : Bool) : (s.setBit f i j b).mem = s.mem := rfl
@[simp] theorem State.setBit_time (f : Fld) (i j : Nat) (b : Bool) : (s.setBit f i j b).time = s.time := rfl
@[simp] theorem State.setBit_olu (f : Fld) (i j : Nat) (b : Bool) : (s.setBit f i j b).olu = s.olu := rfl
@[simp] theorem State.setBit_host (f : Fld) (i j : Nat) (b : Bool) : (s.setBit f i j b).host = s.host := rfl
@[simp] theorem State.setBit_disp (f : Fld) (i j : Nat) (b : Bool) : (s.setBit f i j b).disp = s.disp := rfl
@[simp] theorem State.setBit_gfPrev (f : Fld) (i j : Nat) (b : Bool) : (s.setBit f i j b).gfPrev = s.gfPrev := rfl
@[simp] theorem State.setBit_seqs (f : Fld) (i j : Nat) (b : Bool) : (s.setBit f i j b).seqs = s.seqs := rfl
@[simp] theorem State.setBit_bars (f : Fld) (i j : Nat) (b : Bool) : (s.setBit f i j b).bars = s.bars := rfl
@[simp] theorem State.setBit_chans (f : Fld) (i j : Nat) (b : Bool) : (s.setBit f i j b).chans = s.chans := rfl
@[simp] theorem State.setBit_stores (f : Fld) (i j : Nat) (b : Bool) : (s.setBit f i j b).stores = s.stores := rfl
@[simp] theorem State.setBit_logs (f : Fld) (i j : Nat) (b : Bool) : (s.setBit f i j b).logs = s.logs := rfl
@[simp] theorem State.setBit_logTurn (f : Fld) (i j : Nat) (b : Bool) : (s.setBit f i j b).logTurn = s.logTurn := rfl
@[simp] theorem State.setBit_dclks (f : Fld) (i j : Nat) (b : Bool) : (s.setBit f i j b).dclks = s.dclks := rfl
@[simp] theorem State.setBit_dram (f : Fld) (i j : Nat) (b : Bool) : (s.setBit f i j b).dram = s.dram := rfl
@[simp] theorem State.setBit_site (f : Fld) (i j : Nat) (b : Bool) : (s.setBit f i j b).site = s.site := rfl
@[simp] theorem State.setBit_page (f : Fld) (i j : Nat) (b : Bool) : (s.setBit f i j b).page = s.page := rfl
@[simp] theorem State.setBit_fes (f : Fld) (i j : Nat) (b : Bool) : (s.setBit f i j b).fes = s.fes := rfl
@[simp] theorem State.setBit_adcs (f : Fld) (i j : Nat) (b : Bool) : (s.setBit f i j b).adcs = s.adcs := rfl
@[simp] theorem State.setBit_acqs (f : Fld) (i j : Nat) (b : Bool) : (s.setBit f i j b).acqs = s.acqs := rfl
@[simp] theorem State.setBit_tims (f : Fld) (i j : Nat) (b : Bool) : (s.setBit f i j b).tims = s.tims := rfl
@[simp] theorem State.setBit_cal (f : Fld) (i j : Nat) (b : Bool) : (s.setBit f i j b).cal = s.cal := rfl
@[simp] theorem State.setBit_ras (f : Fld) (i j : Nat) (b : Bool) : (s.setBit f i j b).ras = s.ras := rfl
@[simp] theorem State.setBit_clk (f : Fld) (i j : Nat) (b : Bool) : (s.setBit f i j b).clk = s.clk := rfl
@[simp] theorem State.setBit_memByte (f : Fld) (i j : Nat) (b : Bool) (x : Nat) : (s.setBit f i j b).memByte x = s.memByte x := rfl

@[simp] theorem State.note_pending (e : TickEvent) : (s.note e).pending = s.pending := rfl
@[simp] theorem State.note_regs (e : TickEvent) : (s.note e).regs = s.regs := rfl
@[simp] theorem State.note_ticks (e : TickEvent) : (s.note e).ticks = s.ticks := rfl
@[simp] theorem State.note_startOfTick (e : TickEvent) : (s.note e).startOfTick = s.startOfTick := rfl
@[simp] theorem State.note_halvesHost (e : TickEvent) : (s.note e).halvesHost = s.halvesHost := rfl
@[simp] theorem State.note_halvesCore (e : TickEvent) : (s.note e).halvesCore = s.halvesCore := rfl
@[simp] theorem State.note_out (e : TickEvent) : (s.note e).out = s.out := rfl
@[simp] theorem State.note_free (e : TickEvent) : (s.note e).free = s.free := rfl
@[simp] theorem State.note_mem (e : TickEvent) : (s.note e).mem = s.mem := rfl
@[simp] theorem State.note_time (e : TickEvent) : (s.note e).time = s.time := rfl
@[simp] theorem State.note_olu (e : TickEvent) : (s.note e).olu = s.olu := rfl
@[simp] theorem State.note_host (e : TickEvent) : (s.note e).host = s.host := rfl
@[simp] theorem State.note_disp (e : TickEvent) : (s.note e).disp = s.disp := rfl
@[simp] theorem State.note_gfPrev (e : TickEvent) : (s.note e).gfPrev = s.gfPrev := rfl
@[simp] theorem State.note_seqs (e : TickEvent) : (s.note e).seqs = s.seqs := rfl
@[simp] theorem State.note_bars (e : TickEvent) : (s.note e).bars = s.bars := rfl
@[simp] theorem State.note_chans (e : TickEvent) : (s.note e).chans = s.chans := rfl
@[simp] theorem State.note_stores (e : TickEvent) : (s.note e).stores = s.stores := rfl
@[simp] theorem State.note_logs (e : TickEvent) : (s.note e).logs = s.logs := rfl
@[simp] theorem State.note_logTurn (e : TickEvent) : (s.note e).logTurn = s.logTurn := rfl
@[simp] theorem State.note_dclks (e : TickEvent) : (s.note e).dclks = s.dclks := rfl
@[simp] theorem State.note_dram (e : TickEvent) : (s.note e).dram = s.dram := rfl
@[simp] theorem State.note_site (e : TickEvent) : (s.note e).site = s.site := rfl
@[simp] theorem State.note_page (e : TickEvent) : (s.note e).page = s.page := rfl
@[simp] theorem State.note_fes (e : TickEvent) : (s.note e).fes = s.fes := rfl
@[simp] theorem State.note_adcs (e : TickEvent) : (s.note e).adcs = s.adcs := rfl
@[simp] theorem State.note_acqs (e : TickEvent) : (s.note e).acqs = s.acqs := rfl
@[simp] theorem State.note_tims (e : TickEvent) : (s.note e).tims = s.tims := rfl
@[simp] theorem State.note_cal (e : TickEvent) : (s.note e).cal = s.cal := rfl
@[simp] theorem State.note_ras (e : TickEvent) : (s.note e).ras = s.ras := rfl
@[simp] theorem State.note_clk (e : TickEvent) : (s.note e).clk = s.clk := rfl
@[simp] theorem State.note_rd (e : TickEvent) (k : RegKey) : (s.note e).rd k = s.rd k := rfl
@[simp] theorem State.note_get (e : TickEvent) (g : Fld) (m n : Nat) : (s.note e).get g m n = s.get g m n := rfl
@[simp] theorem State.note_memByte (e : TickEvent) (x : Nat) : (s.note e).memByte x = s.memByte x := rfl

@[simp] theorem State.emit_pending (o : Output) : (s.emit o).pending = s.pending := rfl
@[simp] theorem State.emit_regs (o : Output) : (s.emit o).regs = s.regs := rfl
@[simp] theorem State.emit_ticks (o : Output) : (s.emit o).ticks = s.ticks := rfl
@[simp] theorem State.emit_events (o : Output) : (s.emit o).events = s.events := rfl
@[simp] theorem State.emit_startOfTick (o : Output) : (s.emit o).startOfTick = s.startOfTick := rfl
@[simp] theorem State.emit_halvesHost (o : Output) : (s.emit o).halvesHost = s.halvesHost := rfl
@[simp] theorem State.emit_halvesCore (o : Output) : (s.emit o).halvesCore = s.halvesCore := rfl
@[simp] theorem State.emit_free (o : Output) : (s.emit o).free = s.free := rfl
@[simp] theorem State.emit_mem (o : Output) : (s.emit o).mem = s.mem := rfl
@[simp] theorem State.emit_time (o : Output) : (s.emit o).time = s.time := rfl
@[simp] theorem State.emit_olu (o : Output) : (s.emit o).olu = s.olu := rfl
@[simp] theorem State.emit_host (o : Output) : (s.emit o).host = s.host := rfl
@[simp] theorem State.emit_disp (o : Output) : (s.emit o).disp = s.disp := rfl
@[simp] theorem State.emit_gfPrev (o : Output) : (s.emit o).gfPrev = s.gfPrev := rfl
@[simp] theorem State.emit_seqs (o : Output) : (s.emit o).seqs = s.seqs := rfl
@[simp] theorem State.emit_bars (o : Output) : (s.emit o).bars = s.bars := rfl
@[simp] theorem State.emit_chans (o : Output) : (s.emit o).chans = s.chans := rfl
@[simp] theorem State.emit_stores (o : Output) : (s.emit o).stores = s.stores := rfl
@[simp] theorem State.emit_logs (o : Output) : (s.emit o).logs = s.logs := rfl
@[simp] theorem State.emit_logTurn (o : Output) : (s.emit o).logTurn = s.logTurn := rfl
@[simp] theorem State.emit_dclks (o : Output) : (s.emit o).dclks = s.dclks := rfl
@[simp] theorem State.emit_dram (o : Output) : (s.emit o).dram = s.dram := rfl
@[simp] theorem State.emit_site (o : Output) : (s.emit o).site = s.site := rfl
@[simp] theorem State.emit_page (o : Output) : (s.emit o).page = s.page := rfl
@[simp] theorem State.emit_fes (o : Output) : (s.emit o).fes = s.fes := rfl
@[simp] theorem State.emit_adcs (o : Output) : (s.emit o).adcs = s.adcs := rfl
@[simp] theorem State.emit_acqs (o : Output) : (s.emit o).acqs = s.acqs := rfl
@[simp] theorem State.emit_tims (o : Output) : (s.emit o).tims = s.tims := rfl
@[simp] theorem State.emit_cal (o : Output) : (s.emit o).cal = s.cal := rfl
@[simp] theorem State.emit_ras (o : Output) : (s.emit o).ras = s.ras := rfl
@[simp] theorem State.emit_clk (o : Output) : (s.emit o).clk = s.clk := rfl
@[simp] theorem State.emit_rd (o : Output) (k : RegKey) : (s.emit o).rd k = s.rd k := rfl
@[simp] theorem State.emit_get (o : Output) (g : Fld) (m n : Nat) : (s.emit o).get g m n = s.get g m n := rfl
@[simp] theorem State.emit_memByte (o : Output) (x : Nat) : (s.emit o).memByte x = s.memByte x := rfl

@[simp] theorem State.useFree_pending : (s.useFree).pending = s.pending := rfl
@[simp] theorem State.useFree_regs : (s.useFree).regs = s.regs := rfl
@[simp] theorem State.useFree_ticks : (s.useFree).ticks = s.ticks := rfl
@[simp] theorem State.useFree_events : (s.useFree).events = s.events := rfl
@[simp] theorem State.useFree_startOfTick : (s.useFree).startOfTick = s.startOfTick := rfl
@[simp] theorem State.useFree_halvesHost : (s.useFree).halvesHost = s.halvesHost := rfl
@[simp] theorem State.useFree_halvesCore : (s.useFree).halvesCore = s.halvesCore := rfl
@[simp] theorem State.useFree_out : (s.useFree).out = s.out := rfl
@[simp] theorem State.useFree_mem : (s.useFree).mem = s.mem := rfl
@[simp] theorem State.useFree_time : (s.useFree).time = s.time := rfl
@[simp] theorem State.useFree_olu : (s.useFree).olu = s.olu := rfl
@[simp] theorem State.useFree_host : (s.useFree).host = s.host := rfl
@[simp] theorem State.useFree_disp : (s.useFree).disp = s.disp := rfl
@[simp] theorem State.useFree_gfPrev : (s.useFree).gfPrev = s.gfPrev := rfl
@[simp] theorem State.useFree_seqs : (s.useFree).seqs = s.seqs := rfl
@[simp] theorem State.useFree_bars : (s.useFree).bars = s.bars := rfl
@[simp] theorem State.useFree_chans : (s.useFree).chans = s.chans := rfl
@[simp] theorem State.useFree_stores : (s.useFree).stores = s.stores := rfl
@[simp] theorem State.useFree_logs : (s.useFree).logs = s.logs := rfl
@[simp] theorem State.useFree_logTurn : (s.useFree).logTurn = s.logTurn := rfl
@[simp] theorem State.useFree_dclks : (s.useFree).dclks = s.dclks := rfl
@[simp] theorem State.useFree_dram : (s.useFree).dram = s.dram := rfl
@[simp] theorem State.useFree_site : (s.useFree).site = s.site := rfl
@[simp] theorem State.useFree_page : (s.useFree).page = s.page := rfl
@[simp] theorem State.useFree_fes : (s.useFree).fes = s.fes := rfl
@[simp] theorem State.useFree_adcs : (s.useFree).adcs = s.adcs := rfl
@[simp] theorem State.useFree_acqs : (s.useFree).acqs = s.acqs := rfl
@[simp] theorem State.useFree_tims : (s.useFree).tims = s.tims := rfl
@[simp] theorem State.useFree_cal : (s.useFree).cal = s.cal := rfl
@[simp] theorem State.useFree_ras : (s.useFree).ras = s.ras := rfl
@[simp] theorem State.useFree_clk : (s.useFree).clk = s.clk := rfl
@[simp] theorem State.useFree_rd (k : RegKey) : (s.useFree).rd k = s.rd k := rfl
@[simp] theorem State.useFree_get (g : Fld) (m n : Nat) : (s.useFree).get g m n = s.get g m n := rfl
@[simp] theorem State.useFree_memByte (x : Nat) : (s.useFree).memByte x = s.memByte x := rfl

@[simp] theorem State.putByte_pending (a : Nat) (b : Byte) : (s.putByte a b).pending = s.pending := rfl
@[simp] theorem State.putByte_regs (a : Nat) (b : Byte) : (s.putByte a b).regs = s.regs := rfl
@[simp] theorem State.putByte_ticks (a : Nat) (b : Byte) : (s.putByte a b).ticks = s.ticks := rfl
@[simp] theorem State.putByte_events (a : Nat) (b : Byte) : (s.putByte a b).events = s.events := rfl
@[simp] theorem State.putByte_startOfTick (a : Nat) (b : Byte) : (s.putByte a b).startOfTick = s.startOfTick := rfl
@[simp] theorem State.putByte_halvesHost (a : Nat) (b : Byte) : (s.putByte a b).halvesHost = s.halvesHost := rfl
@[simp] theorem State.putByte_halvesCore (a : Nat) (b : Byte) : (s.putByte a b).halvesCore = s.halvesCore := rfl
@[simp] theorem State.putByte_out (a : Nat) (b : Byte) : (s.putByte a b).out = s.out := rfl
@[simp] theorem State.putByte_free (a : Nat) (b : Byte) : (s.putByte a b).free = s.free := rfl
@[simp] theorem State.putByte_time (a : Nat) (b : Byte) : (s.putByte a b).time = s.time := rfl
@[simp] theorem State.putByte_olu (a : Nat) (b : Byte) : (s.putByte a b).olu = s.olu := rfl
@[simp] theorem State.putByte_host (a : Nat) (b : Byte) : (s.putByte a b).host = s.host := rfl
@[simp] theorem State.putByte_disp (a : Nat) (b : Byte) : (s.putByte a b).disp = s.disp := rfl
@[simp] theorem State.putByte_gfPrev (a : Nat) (b : Byte) : (s.putByte a b).gfPrev = s.gfPrev := rfl
@[simp] theorem State.putByte_seqs (a : Nat) (b : Byte) : (s.putByte a b).seqs = s.seqs := rfl
@[simp] theorem State.putByte_bars (a : Nat) (b : Byte) : (s.putByte a b).bars = s.bars := rfl
@[simp] theorem State.putByte_chans (a : Nat) (b : Byte) : (s.putByte a b).chans = s.chans := rfl
@[simp] theorem State.putByte_stores (a : Nat) (b : Byte) : (s.putByte a b).stores = s.stores := rfl
@[simp] theorem State.putByte_logs (a : Nat) (b : Byte) : (s.putByte a b).logs = s.logs := rfl
@[simp] theorem State.putByte_logTurn (a : Nat) (b : Byte) : (s.putByte a b).logTurn = s.logTurn := rfl
@[simp] theorem State.putByte_dclks (a : Nat) (b : Byte) : (s.putByte a b).dclks = s.dclks := rfl
@[simp] theorem State.putByte_dram (a : Nat) (b : Byte) : (s.putByte a b).dram = s.dram := rfl
@[simp] theorem State.putByte_site (a : Nat) (b : Byte) : (s.putByte a b).site = s.site := rfl
@[simp] theorem State.putByte_page (a : Nat) (b : Byte) : (s.putByte a b).page = s.page := rfl
@[simp] theorem State.putByte_fes (a : Nat) (b : Byte) : (s.putByte a b).fes = s.fes := rfl
@[simp] theorem State.putByte_adcs (a : Nat) (b : Byte) : (s.putByte a b).adcs = s.adcs := rfl
@[simp] theorem State.putByte_acqs (a : Nat) (b : Byte) : (s.putByte a b).acqs = s.acqs := rfl
@[simp] theorem State.putByte_tims (a : Nat) (b : Byte) : (s.putByte a b).tims = s.tims := rfl
@[simp] theorem State.putByte_cal (a : Nat) (b : Byte) : (s.putByte a b).cal = s.cal := rfl
@[simp] theorem State.putByte_ras (a : Nat) (b : Byte) : (s.putByte a b).ras = s.ras := rfl
@[simp] theorem State.putByte_clk (a : Nat) (b : Byte) : (s.putByte a b).clk = s.clk := rfl
@[simp] theorem State.putByte_rd (a : Nat) (b : Byte) (k : RegKey) : (s.putByte a b).rd k = s.rd k := rfl
@[simp] theorem State.putByte_get (a : Nat) (b : Byte) (g : Fld) (m n : Nat) : (s.putByte a b).get g m n = s.get g m n := rfl

@[simp] theorem State.addCount_pending (f sat : Fld) (i j n : Nat) : (s.addCount f sat i j n).pending = s.pending := by unfold State.addCount; split <;> rfl
@[simp] theorem State.addCount_ticks (f sat : Fld) (i j n : Nat) : (s.addCount f sat i j n).ticks = s.ticks := by unfold State.addCount; split <;> rfl
@[simp] theorem State.addCount_events (f sat : Fld) (i j n : Nat) : (s.addCount f sat i j n).events = s.events := by unfold State.addCount; split <;> rfl
@[simp] theorem State.addCount_startOfTick (f sat : Fld) (i j n : Nat) : (s.addCount f sat i j n).startOfTick = s.startOfTick := by unfold State.addCount; split <;> rfl
@[simp] theorem State.addCount_halvesHost (f sat : Fld) (i j n : Nat) : (s.addCount f sat i j n).halvesHost = s.halvesHost := by unfold State.addCount; split <;> rfl
@[simp] theorem State.addCount_halvesCore (f sat : Fld) (i j n : Nat) : (s.addCount f sat i j n).halvesCore = s.halvesCore := by unfold State.addCount; split <;> rfl
@[simp] theorem State.addCount_out (f sat : Fld) (i j n : Nat) : (s.addCount f sat i j n).out = s.out := by unfold State.addCount; split <;> rfl
@[simp] theorem State.addCount_free (f sat : Fld) (i j n : Nat) : (s.addCount f sat i j n).free = s.free := by unfold State.addCount; split <;> rfl
@[simp] theorem State.addCount_mem (f sat : Fld) (i j n : Nat) : (s.addCount f sat i j n).mem = s.mem := by unfold State.addCount; split <;> rfl
@[simp] theorem State.addCount_time (f sat : Fld) (i j n : Nat) : (s.addCount f sat i j n).time = s.time := by unfold State.addCount; split <;> rfl
@[simp] theorem State.addCount_olu (f sat : Fld) (i j n : Nat) : (s.addCount f sat i j n).olu = s.olu := by unfold State.addCount; split <;> rfl
@[simp] theorem State.addCount_host (f sat : Fld) (i j n : Nat) : (s.addCount f sat i j n).host = s.host := by unfold State.addCount; split <;> rfl
@[simp] theorem State.addCount_disp (f sat : Fld) (i j n : Nat) : (s.addCount f sat i j n).disp = s.disp := by unfold State.addCount; split <;> rfl
@[simp] theorem State.addCount_gfPrev (f sat : Fld) (i j n : Nat) : (s.addCount f sat i j n).gfPrev = s.gfPrev := by unfold State.addCount; split <;> rfl
@[simp] theorem State.addCount_seqs (f sat : Fld) (i j n : Nat) : (s.addCount f sat i j n).seqs = s.seqs := by unfold State.addCount; split <;> rfl
@[simp] theorem State.addCount_bars (f sat : Fld) (i j n : Nat) : (s.addCount f sat i j n).bars = s.bars := by unfold State.addCount; split <;> rfl
@[simp] theorem State.addCount_chans (f sat : Fld) (i j n : Nat) : (s.addCount f sat i j n).chans = s.chans := by unfold State.addCount; split <;> rfl
@[simp] theorem State.addCount_stores (f sat : Fld) (i j n : Nat) : (s.addCount f sat i j n).stores = s.stores := by unfold State.addCount; split <;> rfl
@[simp] theorem State.addCount_logs (f sat : Fld) (i j n : Nat) : (s.addCount f sat i j n).logs = s.logs := by unfold State.addCount; split <;> rfl
@[simp] theorem State.addCount_logTurn (f sat : Fld) (i j n : Nat) : (s.addCount f sat i j n).logTurn = s.logTurn := by unfold State.addCount; split <;> rfl
@[simp] theorem State.addCount_dclks (f sat : Fld) (i j n : Nat) : (s.addCount f sat i j n).dclks = s.dclks := by unfold State.addCount; split <;> rfl
@[simp] theorem State.addCount_dram (f sat : Fld) (i j n : Nat) : (s.addCount f sat i j n).dram = s.dram := by unfold State.addCount; split <;> rfl
@[simp] theorem State.addCount_site (f sat : Fld) (i j n : Nat) : (s.addCount f sat i j n).site = s.site := by unfold State.addCount; split <;> rfl
@[simp] theorem State.addCount_page (f sat : Fld) (i j n : Nat) : (s.addCount f sat i j n).page = s.page := by unfold State.addCount; split <;> rfl
@[simp] theorem State.addCount_fes (f sat : Fld) (i j n : Nat) : (s.addCount f sat i j n).fes = s.fes := by unfold State.addCount; split <;> rfl
@[simp] theorem State.addCount_adcs (f sat : Fld) (i j n : Nat) : (s.addCount f sat i j n).adcs = s.adcs := by unfold State.addCount; split <;> rfl
@[simp] theorem State.addCount_acqs (f sat : Fld) (i j n : Nat) : (s.addCount f sat i j n).acqs = s.acqs := by unfold State.addCount; split <;> rfl
@[simp] theorem State.addCount_tims (f sat : Fld) (i j n : Nat) : (s.addCount f sat i j n).tims = s.tims := by unfold State.addCount; split <;> rfl
@[simp] theorem State.addCount_cal (f sat : Fld) (i j n : Nat) : (s.addCount f sat i j n).cal = s.cal := by unfold State.addCount; split <;> rfl
@[simp] theorem State.addCount_ras (f sat : Fld) (i j n : Nat) : (s.addCount f sat i j n).ras = s.ras := by unfold State.addCount; split <;> rfl
@[simp] theorem State.addCount_clk (f sat : Fld) (i j n : Nat) : (s.addCount f sat i j n).clk = s.clk := by unfold State.addCount; split <;> rfl

@[simp] theorem State.supersede_pending (n : Nat) : (s.supersede n).pending = s.pending := by unfold State.supersede; split <;> simp
@[simp] theorem State.supersede_ticks (n : Nat) : (s.supersede n).ticks = s.ticks := by unfold State.supersede; split <;> simp
@[simp] theorem State.supersede_events (n : Nat) : (s.supersede n).events = s.events := by unfold State.supersede; split <;> simp
@[simp] theorem State.supersede_startOfTick (n : Nat) : (s.supersede n).startOfTick = s.startOfTick := by unfold State.supersede; split <;> simp
@[simp] theorem State.supersede_halvesHost (n : Nat) : (s.supersede n).halvesHost = s.halvesHost := by unfold State.supersede; split <;> simp
@[simp] theorem State.supersede_halvesCore (n : Nat) : (s.supersede n).halvesCore = s.halvesCore := by unfold State.supersede; split <;> simp
@[simp] theorem State.supersede_out (n : Nat) : (s.supersede n).out = s.out := by unfold State.supersede; split <;> simp
@[simp] theorem State.supersede_free (n : Nat) : (s.supersede n).free = s.free := by unfold State.supersede; split <;> simp
@[simp] theorem State.supersede_mem (n : Nat) : (s.supersede n).mem = s.mem := by unfold State.supersede; split <;> simp
@[simp] theorem State.supersede_time (n : Nat) : (s.supersede n).time = s.time := by unfold State.supersede; split <;> simp
@[simp] theorem State.supersede_olu (n : Nat) : (s.supersede n).olu = s.olu := by unfold State.supersede; split <;> simp
@[simp] theorem State.supersede_host (n : Nat) : (s.supersede n).host = s.host := by unfold State.supersede; split <;> simp
@[simp] theorem State.supersede_disp (n : Nat) : (s.supersede n).disp = s.disp := by unfold State.supersede; split <;> simp
@[simp] theorem State.supersede_gfPrev (n : Nat) : (s.supersede n).gfPrev = s.gfPrev := by unfold State.supersede; split <;> simp
@[simp] theorem State.supersede_seqs (n : Nat) : (s.supersede n).seqs = s.seqs := by unfold State.supersede; split <;> simp
@[simp] theorem State.supersede_bars (n : Nat) : (s.supersede n).bars = s.bars := by unfold State.supersede; split <;> simp
@[simp] theorem State.supersede_chans (n : Nat) : (s.supersede n).chans = s.chans := by unfold State.supersede; split <;> simp
@[simp] theorem State.supersede_stores (n : Nat) : (s.supersede n).stores = s.stores := by unfold State.supersede; split <;> simp
@[simp] theorem State.supersede_logs (n : Nat) : (s.supersede n).logs = s.logs := by unfold State.supersede; split <;> simp
@[simp] theorem State.supersede_logTurn (n : Nat) : (s.supersede n).logTurn = s.logTurn := by unfold State.supersede; split <;> simp
@[simp] theorem State.supersede_dclks (n : Nat) : (s.supersede n).dclks = s.dclks := by unfold State.supersede; split <;> simp
@[simp] theorem State.supersede_dram (n : Nat) : (s.supersede n).dram = s.dram := by unfold State.supersede; split <;> simp
@[simp] theorem State.supersede_site (n : Nat) : (s.supersede n).site = s.site := by unfold State.supersede; split <;> simp
@[simp] theorem State.supersede_page (n : Nat) : (s.supersede n).page = s.page := by unfold State.supersede; split <;> simp
@[simp] theorem State.supersede_fes (n : Nat) : (s.supersede n).fes = s.fes := by unfold State.supersede; split <;> simp
@[simp] theorem State.supersede_adcs (n : Nat) : (s.supersede n).adcs = s.adcs := by unfold State.supersede; split <;> simp
@[simp] theorem State.supersede_acqs (n : Nat) : (s.supersede n).acqs = s.acqs := by unfold State.supersede; split <;> simp
@[simp] theorem State.supersede_tims (n : Nat) : (s.supersede n).tims = s.tims := by unfold State.supersede; split <;> simp
@[simp] theorem State.supersede_cal (n : Nat) : (s.supersede n).cal = s.cal := by unfold State.supersede; split <;> simp
@[simp] theorem State.supersede_ras (n : Nat) : (s.supersede n).ras = s.ras := by unfold State.supersede; split <;> simp
@[simp] theorem State.supersede_clk (n : Nat) : (s.supersede n).clk = s.clk := by unfold State.supersede; split <;> simp

@[simp] theorem State.superseded_pending : (s.superseded).pending = s.pending := by unfold State.superseded; simp
@[simp] theorem State.superseded_ticks : (s.superseded).ticks = s.ticks := by unfold State.superseded; simp
@[simp] theorem State.superseded_events : (s.superseded).events = s.events := by unfold State.superseded; simp
@[simp] theorem State.superseded_startOfTick : (s.superseded).startOfTick = s.startOfTick := by unfold State.superseded; simp
@[simp] theorem State.superseded_halvesHost : (s.superseded).halvesHost = s.halvesHost := by unfold State.superseded; simp
@[simp] theorem State.superseded_halvesCore : (s.superseded).halvesCore = s.halvesCore := by unfold State.superseded; simp
@[simp] theorem State.superseded_out : (s.superseded).out = s.out := by unfold State.superseded; simp
@[simp] theorem State.superseded_free : (s.superseded).free = s.free := by unfold State.superseded; simp
@[simp] theorem State.superseded_mem : (s.superseded).mem = s.mem := by unfold State.superseded; simp
@[simp] theorem State.superseded_time : (s.superseded).time = s.time := by unfold State.superseded; simp
@[simp] theorem State.superseded_olu : (s.superseded).olu = s.olu := by unfold State.superseded; simp
@[simp] theorem State.superseded_host : (s.superseded).host = s.host := by unfold State.superseded; simp
@[simp] theorem State.superseded_disp : (s.superseded).disp = s.disp := by unfold State.superseded; simp
@[simp] theorem State.superseded_gfPrev : (s.superseded).gfPrev = s.gfPrev := by unfold State.superseded; simp
@[simp] theorem State.superseded_seqs : (s.superseded).seqs = s.seqs := by unfold State.superseded; simp
@[simp] theorem State.superseded_bars : (s.superseded).bars = s.bars := by unfold State.superseded; simp
@[simp] theorem State.superseded_chans : (s.superseded).chans = s.chans := by unfold State.superseded; simp
@[simp] theorem State.superseded_stores : (s.superseded).stores = s.stores := by unfold State.superseded; simp
@[simp] theorem State.superseded_logs : (s.superseded).logs = s.logs := by unfold State.superseded; simp
@[simp] theorem State.superseded_logTurn : (s.superseded).logTurn = s.logTurn := by unfold State.superseded; simp
@[simp] theorem State.superseded_dclks : (s.superseded).dclks = s.dclks := by unfold State.superseded; simp
@[simp] theorem State.superseded_dram : (s.superseded).dram = s.dram := by unfold State.superseded; simp
@[simp] theorem State.superseded_site : (s.superseded).site = s.site := by unfold State.superseded; simp
@[simp] theorem State.superseded_page : (s.superseded).page = s.page := by unfold State.superseded; simp
@[simp] theorem State.superseded_fes : (s.superseded).fes = s.fes := by unfold State.superseded; simp
@[simp] theorem State.superseded_adcs : (s.superseded).adcs = s.adcs := by unfold State.superseded; simp
@[simp] theorem State.superseded_acqs : (s.superseded).acqs = s.acqs := by unfold State.superseded; simp
@[simp] theorem State.superseded_tims : (s.superseded).tims = s.tims := by unfold State.superseded; simp
@[simp] theorem State.superseded_cal : (s.superseded).cal = s.cal := by unfold State.superseded; simp
@[simp] theorem State.superseded_ras : (s.superseded).ras = s.ras := by unfold State.superseded; simp
@[simp] theorem State.superseded_clk : (s.superseded).clk = s.clk := by unfold State.superseded; simp

@[simp] theorem State.hwSet_pending (f : Fld) (i j : Nat) : (s.hwSet f i j).pending = s.pending := by unfold State.hwSet; split <;> simp
@[simp] theorem State.hwSet_ticks (f : Fld) (i j : Nat) : (s.hwSet f i j).ticks = s.ticks := by unfold State.hwSet; split <;> simp
@[simp] theorem State.hwSet_startOfTick (f : Fld) (i j : Nat) : (s.hwSet f i j).startOfTick = s.startOfTick := by unfold State.hwSet; split <;> simp
@[simp] theorem State.hwSet_halvesHost (f : Fld) (i j : Nat) : (s.hwSet f i j).halvesHost = s.halvesHost := by unfold State.hwSet; split <;> simp
@[simp] theorem State.hwSet_halvesCore (f : Fld) (i j : Nat) : (s.hwSet f i j).halvesCore = s.halvesCore := by unfold State.hwSet; split <;> simp
@[simp] theorem State.hwSet_out (f : Fld) (i j : Nat) : (s.hwSet f i j).out = s.out := by unfold State.hwSet; split <;> simp
@[simp] theorem State.hwSet_free (f : Fld) (i j : Nat) : (s.hwSet f i j).free = s.free := by unfold State.hwSet; split <;> simp
@[simp] theorem State.hwSet_mem (f : Fld) (i j : Nat) : (s.hwSet f i j).mem = s.mem := by unfold State.hwSet; split <;> simp
@[simp] theorem State.hwSet_time (f : Fld) (i j : Nat) : (s.hwSet f i j).time = s.time := by unfold State.hwSet; split <;> simp
@[simp] theorem State.hwSet_olu (f : Fld) (i j : Nat) : (s.hwSet f i j).olu = s.olu := by unfold State.hwSet; split <;> simp
@[simp] theorem State.hwSet_host (f : Fld) (i j : Nat) : (s.hwSet f i j).host = s.host := by unfold State.hwSet; split <;> simp
@[simp] theorem State.hwSet_disp (f : Fld) (i j : Nat) : (s.hwSet f i j).disp = s.disp := by unfold State.hwSet; split <;> simp
@[simp] theorem State.hwSet_gfPrev (f : Fld) (i j : Nat) : (s.hwSet f i j).gfPrev = s.gfPrev := by unfold State.hwSet; split <;> simp
@[simp] theorem State.hwSet_seqs (f : Fld) (i j : Nat) : (s.hwSet f i j).seqs = s.seqs := by unfold State.hwSet; split <;> simp
@[simp] theorem State.hwSet_bars (f : Fld) (i j : Nat) : (s.hwSet f i j).bars = s.bars := by unfold State.hwSet; split <;> simp
@[simp] theorem State.hwSet_chans (f : Fld) (i j : Nat) : (s.hwSet f i j).chans = s.chans := by unfold State.hwSet; split <;> simp
@[simp] theorem State.hwSet_stores (f : Fld) (i j : Nat) : (s.hwSet f i j).stores = s.stores := by unfold State.hwSet; split <;> simp
@[simp] theorem State.hwSet_logs (f : Fld) (i j : Nat) : (s.hwSet f i j).logs = s.logs := by unfold State.hwSet; split <;> simp
@[simp] theorem State.hwSet_logTurn (f : Fld) (i j : Nat) : (s.hwSet f i j).logTurn = s.logTurn := by unfold State.hwSet; split <;> simp
@[simp] theorem State.hwSet_dclks (f : Fld) (i j : Nat) : (s.hwSet f i j).dclks = s.dclks := by unfold State.hwSet; split <;> simp
@[simp] theorem State.hwSet_dram (f : Fld) (i j : Nat) : (s.hwSet f i j).dram = s.dram := by unfold State.hwSet; split <;> simp
@[simp] theorem State.hwSet_site (f : Fld) (i j : Nat) : (s.hwSet f i j).site = s.site := by unfold State.hwSet; split <;> simp
@[simp] theorem State.hwSet_page (f : Fld) (i j : Nat) : (s.hwSet f i j).page = s.page := by unfold State.hwSet; split <;> simp
@[simp] theorem State.hwSet_fes (f : Fld) (i j : Nat) : (s.hwSet f i j).fes = s.fes := by unfold State.hwSet; split <;> simp
@[simp] theorem State.hwSet_adcs (f : Fld) (i j : Nat) : (s.hwSet f i j).adcs = s.adcs := by unfold State.hwSet; split <;> simp
@[simp] theorem State.hwSet_acqs (f : Fld) (i j : Nat) : (s.hwSet f i j).acqs = s.acqs := by unfold State.hwSet; split <;> simp
@[simp] theorem State.hwSet_tims (f : Fld) (i j : Nat) : (s.hwSet f i j).tims = s.tims := by unfold State.hwSet; split <;> simp
@[simp] theorem State.hwSet_cal (f : Fld) (i j : Nat) : (s.hwSet f i j).cal = s.cal := by unfold State.hwSet; split <;> simp
@[simp] theorem State.hwSet_ras (f : Fld) (i j : Nat) : (s.hwSet f i j).ras = s.ras := by unfold State.hwSet; split <;> simp
@[simp] theorem State.hwSet_clk (f : Fld) (i j : Nat) : (s.hwSet f i j).clk = s.clk := by unfold State.hwSet; split <;> simp

@[simp] theorem State.count_pending (f sat : Fld) (i j n : Nat) : (s.count f sat i j n).pending = s.pending := by unfold State.count; split <;> simp
@[simp] theorem State.count_ticks (f sat : Fld) (i j n : Nat) : (s.count f sat i j n).ticks = s.ticks := by unfold State.count; split <;> simp
@[simp] theorem State.count_startOfTick (f sat : Fld) (i j n : Nat) : (s.count f sat i j n).startOfTick = s.startOfTick := by unfold State.count; split <;> simp
@[simp] theorem State.count_halvesHost (f sat : Fld) (i j n : Nat) : (s.count f sat i j n).halvesHost = s.halvesHost := by unfold State.count; split <;> simp
@[simp] theorem State.count_halvesCore (f sat : Fld) (i j n : Nat) : (s.count f sat i j n).halvesCore = s.halvesCore := by unfold State.count; split <;> simp
@[simp] theorem State.count_out (f sat : Fld) (i j n : Nat) : (s.count f sat i j n).out = s.out := by unfold State.count; split <;> simp
@[simp] theorem State.count_free (f sat : Fld) (i j n : Nat) : (s.count f sat i j n).free = s.free := by unfold State.count; split <;> simp
@[simp] theorem State.count_mem (f sat : Fld) (i j n : Nat) : (s.count f sat i j n).mem = s.mem := by unfold State.count; split <;> simp
@[simp] theorem State.count_time (f sat : Fld) (i j n : Nat) : (s.count f sat i j n).time = s.time := by unfold State.count; split <;> simp
@[simp] theorem State.count_olu (f sat : Fld) (i j n : Nat) : (s.count f sat i j n).olu = s.olu := by unfold State.count; split <;> simp
@[simp] theorem State.count_host (f sat : Fld) (i j n : Nat) : (s.count f sat i j n).host = s.host := by unfold State.count; split <;> simp
@[simp] theorem State.count_disp (f sat : Fld) (i j n : Nat) : (s.count f sat i j n).disp = s.disp := by unfold State.count; split <;> simp
@[simp] theorem State.count_gfPrev (f sat : Fld) (i j n : Nat) : (s.count f sat i j n).gfPrev = s.gfPrev := by unfold State.count; split <;> simp
@[simp] theorem State.count_seqs (f sat : Fld) (i j n : Nat) : (s.count f sat i j n).seqs = s.seqs := by unfold State.count; split <;> simp
@[simp] theorem State.count_bars (f sat : Fld) (i j n : Nat) : (s.count f sat i j n).bars = s.bars := by unfold State.count; split <;> simp
@[simp] theorem State.count_chans (f sat : Fld) (i j n : Nat) : (s.count f sat i j n).chans = s.chans := by unfold State.count; split <;> simp
@[simp] theorem State.count_stores (f sat : Fld) (i j n : Nat) : (s.count f sat i j n).stores = s.stores := by unfold State.count; split <;> simp
@[simp] theorem State.count_logs (f sat : Fld) (i j n : Nat) : (s.count f sat i j n).logs = s.logs := by unfold State.count; split <;> simp
@[simp] theorem State.count_logTurn (f sat : Fld) (i j n : Nat) : (s.count f sat i j n).logTurn = s.logTurn := by unfold State.count; split <;> simp
@[simp] theorem State.count_dclks (f sat : Fld) (i j n : Nat) : (s.count f sat i j n).dclks = s.dclks := by unfold State.count; split <;> simp
@[simp] theorem State.count_dram (f sat : Fld) (i j n : Nat) : (s.count f sat i j n).dram = s.dram := by unfold State.count; split <;> simp
@[simp] theorem State.count_site (f sat : Fld) (i j n : Nat) : (s.count f sat i j n).site = s.site := by unfold State.count; split <;> simp
@[simp] theorem State.count_page (f sat : Fld) (i j n : Nat) : (s.count f sat i j n).page = s.page := by unfold State.count; split <;> simp
@[simp] theorem State.count_fes (f sat : Fld) (i j n : Nat) : (s.count f sat i j n).fes = s.fes := by unfold State.count; split <;> simp
@[simp] theorem State.count_adcs (f sat : Fld) (i j n : Nat) : (s.count f sat i j n).adcs = s.adcs := by unfold State.count; split <;> simp
@[simp] theorem State.count_acqs (f sat : Fld) (i j n : Nat) : (s.count f sat i j n).acqs = s.acqs := by unfold State.count; split <;> simp
@[simp] theorem State.count_tims (f sat : Fld) (i j n : Nat) : (s.count f sat i j n).tims = s.tims := by unfold State.count; split <;> simp
@[simp] theorem State.count_cal (f sat : Fld) (i j n : Nat) : (s.count f sat i j n).cal = s.cal := by unfold State.count; split <;> simp
@[simp] theorem State.count_ras (f sat : Fld) (i j n : Nat) : (s.count f sat i j n).ras = s.ras := by unfold State.count; split <;> simp
@[simp] theorem State.count_clk (f sat : Fld) (i j n : Nat) : (s.count f sat i j n).clk = s.clk := by unfold State.count; split <;> simp

@[simp] theorem State.clear_pending (f : Fld) (i j : Nat) : (s.clear f i j).pending = s.pending := by unfold State.clear State.clearing; split <;> simp
@[simp] theorem State.clear_ticks (f : Fld) (i j : Nat) : (s.clear f i j).ticks = s.ticks := by unfold State.clear State.clearing; split <;> simp
@[simp] theorem State.clear_startOfTick (f : Fld) (i j : Nat) : (s.clear f i j).startOfTick = s.startOfTick := by unfold State.clear State.clearing; split <;> simp
@[simp] theorem State.clear_halvesHost (f : Fld) (i j : Nat) : (s.clear f i j).halvesHost = s.halvesHost := by unfold State.clear State.clearing; split <;> simp
@[simp] theorem State.clear_halvesCore (f : Fld) (i j : Nat) : (s.clear f i j).halvesCore = s.halvesCore := by unfold State.clear State.clearing; split <;> simp
@[simp] theorem State.clear_out (f : Fld) (i j : Nat) : (s.clear f i j).out = s.out := by unfold State.clear State.clearing; split <;> simp
@[simp] theorem State.clear_free (f : Fld) (i j : Nat) : (s.clear f i j).free = s.free := by unfold State.clear State.clearing; split <;> simp
@[simp] theorem State.clear_mem (f : Fld) (i j : Nat) : (s.clear f i j).mem = s.mem := by unfold State.clear State.clearing; split <;> simp
@[simp] theorem State.clear_time (f : Fld) (i j : Nat) : (s.clear f i j).time = s.time := by unfold State.clear State.clearing; split <;> simp
@[simp] theorem State.clear_olu (f : Fld) (i j : Nat) : (s.clear f i j).olu = s.olu := by unfold State.clear State.clearing; split <;> simp
@[simp] theorem State.clear_host (f : Fld) (i j : Nat) : (s.clear f i j).host = s.host := by unfold State.clear State.clearing; split <;> simp
@[simp] theorem State.clear_disp (f : Fld) (i j : Nat) : (s.clear f i j).disp = s.disp := by unfold State.clear State.clearing; split <;> simp
@[simp] theorem State.clear_gfPrev (f : Fld) (i j : Nat) : (s.clear f i j).gfPrev = s.gfPrev := by unfold State.clear State.clearing; split <;> simp
@[simp] theorem State.clear_seqs (f : Fld) (i j : Nat) : (s.clear f i j).seqs = s.seqs := by unfold State.clear State.clearing; split <;> simp
@[simp] theorem State.clear_bars (f : Fld) (i j : Nat) : (s.clear f i j).bars = s.bars := by unfold State.clear State.clearing; split <;> simp
@[simp] theorem State.clear_chans (f : Fld) (i j : Nat) : (s.clear f i j).chans = s.chans := by unfold State.clear State.clearing; split <;> simp
@[simp] theorem State.clear_stores (f : Fld) (i j : Nat) : (s.clear f i j).stores = s.stores := by unfold State.clear State.clearing; split <;> simp
@[simp] theorem State.clear_logs (f : Fld) (i j : Nat) : (s.clear f i j).logs = s.logs := by unfold State.clear State.clearing; split <;> simp
@[simp] theorem State.clear_logTurn (f : Fld) (i j : Nat) : (s.clear f i j).logTurn = s.logTurn := by unfold State.clear State.clearing; split <;> simp
@[simp] theorem State.clear_dclks (f : Fld) (i j : Nat) : (s.clear f i j).dclks = s.dclks := by unfold State.clear State.clearing; split <;> simp
@[simp] theorem State.clear_dram (f : Fld) (i j : Nat) : (s.clear f i j).dram = s.dram := by unfold State.clear State.clearing; split <;> simp
@[simp] theorem State.clear_site (f : Fld) (i j : Nat) : (s.clear f i j).site = s.site := by unfold State.clear State.clearing; split <;> simp
@[simp] theorem State.clear_page (f : Fld) (i j : Nat) : (s.clear f i j).page = s.page := by unfold State.clear State.clearing; split <;> simp
@[simp] theorem State.clear_fes (f : Fld) (i j : Nat) : (s.clear f i j).fes = s.fes := by unfold State.clear State.clearing; split <;> simp
@[simp] theorem State.clear_adcs (f : Fld) (i j : Nat) : (s.clear f i j).adcs = s.adcs := by unfold State.clear State.clearing; split <;> simp
@[simp] theorem State.clear_acqs (f : Fld) (i j : Nat) : (s.clear f i j).acqs = s.acqs := by unfold State.clear State.clearing; split <;> simp
@[simp] theorem State.clear_tims (f : Fld) (i j : Nat) : (s.clear f i j).tims = s.tims := by unfold State.clear State.clearing; split <;> simp
@[simp] theorem State.clear_cal (f : Fld) (i j : Nat) : (s.clear f i j).cal = s.cal := by unfold State.clear State.clearing; split <;> simp
@[simp] theorem State.clear_ras (f : Fld) (i j : Nat) : (s.clear f i j).ras = s.ras := by unfold State.clear State.clearing; split <;> simp
@[simp] theorem State.clear_clk (f : Fld) (i j : Nat) : (s.clear f i j).clk = s.clk := by unfold State.clear State.clearing; split <;> simp

end

end Sys2Proof.Machine
end

