-- ==== Sys2Proof/WellFormed.lean ====
section
/-!
DEFINITION. WellFormed.lean: the operands that a command can have: every instance, element and identifier lies in the range the
spec gives it (R2, R8, R11, R57, R278). `exec` does not ask; an ill-formed command names no unit of the block (log entry 7).
-/
namespace Sys2Proof

/-- A source names a unit of the block: SEQ, Oluel port, core, ring (64: BAR0), GPIO or front-end alert (R57, R364). -/
def srcWf : Src → Bool
  | .hw => true
  | .raising => true
  | .seq s => decide (s < 4)
  | .oluel p => decide (p < 4)
  | .core c => decide (c < 4)
  | .host q => decide (q < 65)
  | .pin i => decide (i < 40)

/-- A requester is the host or one of the four cores (R11). -/
def reqWf : Requester → Bool
  | .host => true
  | .core c => decide (c < 4)
  | .bar2 => true
  | .config => true

/-- `n` bytes. -/
def bytesWf (n : Nat) (l : List Nat) : Bool := decide (l.length = n) && l.all fun x => decide (x < 256)

/-- A lane of an Oluel port, and blocks of 66 bits by sync header and first byte. -/
def lossWf : LinkLoss → Bool
  | .blocks lane window => decide (lane < 4) && window.all fun b => decide (b.1 < 4) && decide (b.2 < 256)
  | .signal lane => decide (lane < 4)
  | .alignment => true

/-- The command is well-formed. -/
def Instr.wellFormed (c : Instr) : Bool :=
  match c with
  | .registerWrite req off bytes _ => reqWf req && decide (off < 1048576) && decide (bytes ≤ 8)
  | .w1cClear off _ => decide (off < 1048576 ∧ off % 8 = 0)
  | .baymapCommit _ src => srcWf src
  | .refclkDropout edge => decide (edge.ct < 8)
  | .refLost => true
  | .refRestored ct => decide (ct < 8)
  | .rootLock => true
  | .refmonClear => true
  | .alignArm _ _ src => srcWf src
  | .alignDisarm src => srcWf src
  | .syncDrive => true
  | .syncCapture => true
  | .alignmentEdge ct => decide (ct < 8)
  | .precStatsClear => true
  | .gpioEdge pin _ _ _ => decide (pin < 32)
  | .seqStart q src => decide (q < 4) && srcWf src
  | .seqResume q src => decide (q < 4) && srcWf src
  | .pauseRequest q src => decide (q < 4) && srcWf src
  | .abort q src => decide (q < 4) && srcWf src
  | .faultClear q src => decide (q < 4) && srcWf src
  | .nopRec q => decide (q < 4)
  | .loopRec q => decide (q < 4)
  | .endloop q => decide (q < 4)
  | .repeatRec q => decide (q < 4)
  | .callRec q => decide (q < 4)
  | .ret q => decide (q < 4)
  | .jump q => decide (q < 4)
  | .jumpif q => decide (q < 4)
  | .matchRec q => decide (q < 4)
  | .flagset q => decide (q < 4)
  | .flagclr q => decide (q < 4)
  | .waitraise q => decide (q < 4)
  | .barrier q => decide (q < 4)
  | .trigger q => decide (q < 4)
  | .measure q => decide (q < 4)
  | .timarm q => decide (q < 4)
  | .feapply q => decide (q < 4)
  | .pagehint q => decide (q < 4)
  | .stopiffail q => decide (q < 4)
  | .halt q => decide (q < 4)
  | .endRec q => decide (q < 4)
  | .edgeApply c _ _ => decide (c < 128)
  | .compareResult c => decide (c < 128)
  | .pegWatchdog q => decide (q < 4)
  | .holdTimeout q => decide (q < 4)
  | .barrierRelease q i => decide (q < 4) && decide (i < 8)
  | .park q => decide (q < 4)
  | .tableCommit q src => decide (q < 4) && srcWf src
  | .dclkStart b g src => decide (b < 8) && decide (g < 2) && srcWf src
  | .dclkDisable b g src => decide (b < 8) && decide (g < 2) && srcWf src
  | .frequencyCommit b g src => decide (b < 8) && decide (g < 2) && srcWf src
  | .edgeStatClear b i => decide (b < 8) && decide (i < 16)
  | .failSnap b => decide (b < 8)
  | .failCountClear b => decide (b < 8)
  | .cmpStatClear b => decide (b < 8)
  | .logWrite => true
  | .mirror which i => decide (which < 3 ∧ i < 8)
  | .logCfgWrite q _ => decide (q < 4)
  | .logStatClear q => decide (q < 4)
  | .captureBlockWrite q => decide (q < 4)
  | .capCfgWrite q _ => decide (q < 4)
  | .capStatClear q => decide (q < 4)
  | .rebuild => true
  | .rebuildDone => true
  | .winRead page => decide (page < 32768)
  | .winWrite page => decide (page < 32768)
  | .loadStart => true
  | .loadComplete page data => decide (page < 32768) && decide (data.length ≤ 67108864) && data.all fun x => decide (x < 256)
  | .lookahead q _ => decide (q < 4)
  | .prefetchFill q => decide (q < 4)
  | .stallResume q ct => decide (q < 4) && decide (ct < 8)
  | .stallLimit q => decide (q < 4)
  | .underrunClear q => decide (q < 4)
  | .stallTimeClear q => decide (q < 4)
  | .lcacheStatClear q => decide (q < 4)
  | .loadStatClear => true
  | .pgtErrStatClear => true
  | .siteCommit => true
  | .retire k => decide (k < 32)
  | .siteEnd k => decide (k < 32)
  | .sampleOffset d _ => decide (d < 2)
  | .domainStep d _ => decide (d < 2)
  | .intClear d => decide (d < 2)
  | .domainSwitch d => decide (d < 2)
  | .servoHoldover d => decide (d < 2)
  | .rejectCountClear d => decide (d < 2)
  | .latch i source => decide (i < 8) && decide (source < 3)
  | .checkMessageSend => true
  | .lockstepLost => true
  | .timeportRx frame _ ct => (frame.all fun x => decide (x < 256)) && decide (ct < 8)
  | .ppsOut => true
  | .ppsIn ct => decide (ct < 8)
  | .raiseFire e => decide (e < 16)
  | .oluEnable p => decide (p < 4)
  | .oluDisable p => decide (p < 4)
  | .retrain p => decide (p < 4)
  | .trainingAttempt p => decide (p < 4)
  | .trainingFail p => decide (p < 4)
  | .linkUp p partner echoes => decide (p < 4) && decide (partner < 64) && decide (echoes.length = 16)
  | .linkDown e => decide (e.port < 4) && lossWf e.loss
  | .linkFrame p _ => decide (p < 4)
  | .retryTimeout p => decide (p < 4)
  | .flagMsg p _ => decide (p < 4)
  | .raiseMsg p _ => decide (p < 4)
  | .mailMsg p _ => decide (p < 4)
  | .bulkStart p _ => decide (p < 4)
  | .bulkData p _ => decide (p < 4)
  | .bulkDone p _ => decide (p < 4)
  | .etcheck p _ _ => decide (p < 4)
  | .etcheckSend p => decide (p < 4)
  | .changeMsg p _ => decide (p < 4)
  | .checkMsg p _ => decide (p < 4)
  | .directionSleep p => decide (p < 4)
  | .directionWake p => decide (p < 4)
  | .gfSet i src => decide (i < 64) && srcWf src
  | .gfClear i src => decide (i < 64) && srcWf src
  | .gfReset src => srcWf src
  | .bulkGo i _ => decide (i < 4)
  | .oluErrStatClear p => decide (p < 4)
  | .doorbell q _ => decide (q < 64)
  | .ringEnable q src => decide (q < 64) && srcWf src
  | .ringDisable q src => decide (q < 64) && srcWf src
  | .ringReset q src => decide (q < 64) && srcWf src
  | .descriptorRead q _ _ _ _ => decide (q < 64)
  | .dmaError q fail => decide (q < 64) && decide (fail.kind ≤ 3)
  | .ringInterrupt q => decide (q < 64)
  | .completionRecord q => decide (q < 64)
  | .cmdNop q => decide (q < 64)
  | .cmdTableLoad q => decide (q < 64)
  | .tableLoadData q _ _ => decide (q < 64)
  | .cmdCommitAtPeg q => decide (q < 64)
  | .cmdPageMap q => decide (q < 64)
  | .cmdStreamPage q => decide (q < 64)
  | .cmdRaise q => decide (q < 64)
  | .cmdAbort q => decide (q < 64)
  | .cmdSiteSet q => decide (q < 64)
  | .cmdCalRun q => decide (q < 64)
  | .cmdCountersRead q => decide (q < 64)
  | .fuseArm q => decide (q < 64)
  | .fuseConfirm q => decide (q < 64)
  | .fuseLocked => true
  | .cmdBarrier q => decide (q < 64)
  | .cmdMail q => decide (q < 64)
  | .unsupportedOpcode q => decide (q < 64)
  | .streamDescriptor q => decide (q < 64)
  | .timetxDescriptor b => decide (b.ring < 64) && b.data.all fun x => decide (x < 256)
  | .timerxDescriptor q => decide (q < 64)
  | .mailDescriptor q => decide (q < 64)
  | .eventStatClear => true
  | .ringStatusClear q => decide (q < 64)
  | .coreRun mask => decide (mask < 16)
  | .firmwareLoad _ => true
  | .loadDone image _ key signature => (image.all fun x => decide (x < 256)) && (key.all fun x => decide (x < 256)) && (signature.all fun x => decide (x < 256))
  | .makeready j src => decide (j < 1024) && srcWf src
  | .cancel j src => decide (j < 1024) && srcWf src
  | .setflags j flags src => decide (j < 1024) && decide (flags < 4294967296) && srcWf src
  | .clrflags j flags src => decide (j < 1024) && decide (flags < 4294967296) && srcWf src
  | .slotReset j src => decide (j < 1024) && srcWf src
  | .setwait c mask => decide (c < 4) && decide (mask < 4294967296)
  | .waitOp c => decide (c < 4)
  | .yield c => decide (c < 4)
  | .switch c => decide (c < 4)
  | .takeflags c => decide (c < 4)
  | .submit fl handle src => decide (fl < 16) && decide (handle < 4294967296) && srcWf src
  | .take c fl => decide (c < 4) && decide (fl < 16)
  | .release c fl slot record _ => decide (c < 4) && decide (fl < 16) && decide (slot < 512) && decide (record < 65536)
  | .sendmail c block => decide (c < 4) && decide (block < 32768)
  | .waitTimeout j => decide (j < 1024)
  | .sliceEnd c => decide (c < 4)
  | .thrCfgWrite j _ => decide (j < 1024)
  | .flowOutput fl => decide (fl < 16)
  | .flowEnable fl _ => decide (fl < 16)
  | .flowDisable fl src => decide (fl < 16) && srcWf src
  | .flowReset fl src => decide (fl < 16) && srcWf src
  | .flowStatClear fl => decide (fl < 16)
  | .thrWaitClear j => decide (j < 1024)
  | .mailNorouteClear => true
  | .inboxWrite => true
  | .loadWindow => true
  | .adcOutput b _ _ => decide (b < 8)
  | .sequenceTrigger b src => decide (b < 8) && srcWf src
  | .adcStop b src => decide (b < 8) && srcWf src
  | .accClear b src => decide (b < 8) && srcWf src
  | .sequenceCommit b src => decide (b < 8) && srcWf src
  | .urgentRequest b e src => decide (b < 8) && decide (e < 16) && srcWf src
  | .urgentCancel b src => decide (b < 8) && srcWf src
  | .bankRequest b bank => decide (b < 8) && decide (bank < 2)
  | .coefWrite b _ => decide (b < 8)
  | .refReady b => decide (b < 8)
  | .sliceRotation b _ => decide (b < 8)
  | .adcWindow b => decide (b < 8)
  | .adcCountsClear b => decide (b < 8)
  | .rearm b src => decide (b < 8) && srcWf src
  | .acqStop b src => decide (b < 8) && srcWf src
  | .force b src => decide (b < 8) && srcWf src
  | .autoTrigger b => decide (b < 8)
  | .holdoffEnd b => decide (b < 8)
  | .acqCountsClear b src => decide (b < 8) && srcWf src
  | .acqRingWrite b _ => decide (b < 8)
  | .timArm m src => decide (m < 32) && srcWf src
  | .timDisarm m src => decide (m < 32) && srcWf src
  | .timResultClear m src => decide (m < 32) && srcWf src
  | .timEdge m _ _ _ => decide (m < 32)
  | .timComplete m => decide (m < 32)
  | .timTimeout m => decide (m < 32)
  | .seriesEntry m => decide (m < 32)
  | .timStatClear m => decide (m < 32)
  | .dramEnable => true
  | .dramInitDone => true
  | .dramDisable => true
  | .train m _ => decide (m < 2)
  | .apply m => decide (m < 2)
  | .mrw m => decide (m < 2)
  | .mrr m data => decide (m < 2) && decide (data < 256)
  | .readCmp m _ => decide (m < 2)
  | .writeReadCmp m _ => decide (m < 2)
  | .wlevel m _ => decide (m < 2)
  | .refresh m r => decide (m < 2) && decide (r < 2)
  | .mr4Poll _ => true
  | .patrolScrub _ _ => true
  | .srEnter => true
  | .autoSelfRefresh => true
  | .srExit => true
  | .outOfRangeClear => true
  | .panicClear => true
  | .srClear => true
  | .eccStatClear m => decide (m < 2)
  | .timOffset b _ => decide (b < 8)
  | .fineLinearity b _ => decide (b < 8)
  | .driveDeskew b _ _ => decide (b < 8)
  | .roundTrip b _ => decide (b < 8)
  | .roundTripTimeout b => decide (b < 8)
  | .compareDeskew b _ _ _ => decide (b < 8)
  | .adc b _ _ => decide (b < 8)
  | .dclkDuty b _ _ => decide (b < 8)
  | .bayFull b => decide (b < 8)
  | .timeTrim => true
  | .calDone b => decide (b < 8)
  | .calAbort mask src => decide (mask < 256) && srcWf src
  | .storeCommit => true
  | .calStore _ => true
  | .driftUpdate => true
  | .eyeMeasure p _ => decide (p < 4)
  | .seqReset q src => decide (q < 4) && srcWf src
  | .seqResetDone q => decide (q < 4)
  | .bayReset b src => decide (b < 8) && srcWf src
  | .bayResetDone b _ _ => decide (b < 8)
  | .warm key => decide (key < 65536)
  | .functionLevelReset => true
  | .d3hotToD0 => true
  | .perst => true
  | .powerOn => true
  | .hostReady slices _ => decide (slices.length ≤ 8)
  | .railFault rail => decide (rail < 7)
  | .rasUe unit _ _ _ => decide (unit < 8)
  | .rasErrStatClear => true
  | .tempUpdate readings => decide (readings.length = 16)
  | .peakClear i => decide (i < 16)
  | .feStart b list => decide (b < 8) && decide (list < 64)
  | .feAbort b => decide (b < 8)
  | .feWrite b miso => decide (b < 8) && decide (miso < 281474976710656)
  | .feDelay b => decide (b < 8)
  | .feDelayExpiry b => decide (b < 8)
  | .waitalert b => decide (b < 8)
  | .feTimeout b => decide (b < 8)
  | .feListEnd b => decide (b < 8)
  | .feAlert b _ _ => decide (b < 8)
  | .feLdataWrite b _ => decide (b < 8)
  | .feStatClear b => decide (b < 8)
  | .registerRead req off bytes => reqWf req && decide (off < 1048576) && decide (bytes ≤ 8)
  | .crcErr b => decide (b.port < 4) && bytesWf 64 b.raw
  | .forwarding p _ => decide (p < 4)
  | .ackLinkFrame p => decide (p < 4)
  | .markerGroup p _ _ => decide (p < 4)
  | .trainingStateExit e => decide (e.port < 4 ∧ e.inverted < 16)
  | .sleepBlock p => decide (p < 4)
  | .partnerWake p => decide (p < 4)
  | .pinEvent b chan kind => decide (b < 8) && decide (chan < 16) && decide (kind = 1 ∨ kind = 2)
  | .loadErr page cause => decide (page < 32768) && decide (2 ≤ cause ∧ cause ≤ 4)
  | .timetxComplete _ => true
  | .timePortLink _ => true
  | .pcieLink _ _ _ => true
  | .slewComplete => true

end Sys2Proof
end

