-- ==== Sys2Proof/Tests/Slice0.lean ====
section
/-!
SUPPORT. Slice0.lean: the model's own tests. A witness shows a state and operands that meet the hypotheses of a clause of a
statement together, and what the command then leaves; the expected values are worked out from the rules of the spec.
-/
namespace Sys2Proof.Tests

open Sys2Proof.Machine

section
set_option Elab.async false

/-- The reset state with the device host-ready and Bus Master Enable set, and CORE.STATUS written `w` (its reset value holds a constant
of the device, log entry 4). -/
def based (w : Word) : State :=
  let t := ({ regs := [(⟨.coreStatus, 0, 0⟩, w)] } : State).set F.rasStatusHostReady 0 0 1
  { t with host := { t.host with pcie := { t.host.pcie with command := 4 } } }

/-- The state of most tests: no core runs. -/
def base : State := based 0

/-- The base state, or `s`, with fields of registers set, before the present tick and in it: field, instance, element, value. -/
def st (l : List (Fld × Nat × Nat × Nat)) (s : State := base) : State :=
  let t := l.foldl (fun t e => t.set e.1 e.2.1 e.2.2.1 e.2.2.2) s
  { t with startOfTick := t.regs }

/-- The state meets `h`, the command answers a next state, and the two states meet `e`. -/
def meets (s : State) (c : Instr) (h : State → Bool) (e : State → State → Bool) : Bool :=
  h s && (match exec c s with
    | .next t => e s t
    | _ => false)

/-- `p` holds of every number below `n`. -/
def each (n : Nat) (p : Nat → Bool) : Bool := (List.range n).all p

/-! ### The queue, clears, clock and pins -/

theorem test_front : (step { st [] with pending := [.rootLock] }) = exec .rootLock (st []) := rfl

theorem test_tick : meets (st [(F.clkStatusRootLock, 0, 0, 1), (F.clkEtcountCount, 0, 0, 2 ^ 64 - 1)]) .syncDrive
    (fun s => s.pending = [] ∧ s.bit F.clkStatusRootLock = true)
    (fun s _ => s.tick.get F.clkEtcountCount = 0 ∧ s.tick.ticks = 1) = true := by decide +kernel

theorem test_canon : Canon (State.reset.set F.clkStatusRootLock 0 0 1) ∧ Canon State.reset := by decide +kernel

theorem test_clear : meets (st [(F.pgtLoadStatLoads, 0, 0, 7), (F.pgtLoadStatLoadsSaturated, 0, 0, 1)]) .loadStatClear
    (fun _ => clearedCounts .loadStatClear ≠ [])
    (fun _ t => t.get F.pgtLoadStatLoads = 0 ∧ t.get F.pgtLoadStatLoadsSaturated = 0) = true := by decide +kernel

theorem test_failCountClear : meets (st [(F.bayFailCountCount, 7, 15, 9), (F.bayFailCountCount, 6, 15, 9)]) (.failCountClear 7)
    (fun _ => clearedCounts (.failCountClear 7) ≠ [])
    (fun _ t => t.get F.bayFailCountCount 7 15 = 0 ∧ t.get F.bayFailCountCount 6 15 = 9) = true := by decide +kernel

theorem test_dropout : meets (st [(F.clkStatusHoldover, 0, 0, 1), (F.clkRefmonDropoutCount, 0, 0, 65535)] { base with ticks := 600, clk := { refLast := some 7 } }) (.refclkDropout ⟨true, 7⟩)
    (fun s => s.bit F.clkStatusRefLost = false ∧ s.bit F.clkStatusHoldover = true ∧ Unclear s F.clkRefmonDropoutCount 0 0
      ∧ s.nowCt + 7 ≤ s.clk.refLast.getD (s.nowCt + 7) + 4800)
    (fun _ t => t.get F.clkStatusHoldover = 0 ∧ t.get F.clkRefmonDropoutCount = 65535) = true := by decide +kernel

theorem test_dropoutBegins : meets (st []) (.refclkDropout ⟨false, 7⟩) (fun s => s.bit F.clkStatusRefLost = false)
    (fun _ t => t.get F.clkStatusHoldover = 1) = true := by decide +kernel

theorem test_refLost : meets (st [(F.clkStatusTickAligned, 0, 0, 1)]) .refLost
    (fun s => s.bit F.clkStatusRefLost = false ∧ Unclear s F.clkRefmonLostCount 0 0)
    (fun _ t => t.get F.clkStatusRefLost = 1 ∧ t.get F.clkStatusTickAligned = 0 ∧ t.get F.clkRefmonLostCount = 1) = true := by decide +kernel

theorem test_refRestored : meets (st [(F.clkStatusRefLost, 0, 0, 1), (F.clkStatusHoldover, 0, 0, 1)] { base with ticks := 15000, clk := { refBack := some 1 } })
    (.refRestored 1) (fun s => s.bit F.clkStatusRefLost = true ∧ s.clk.refBack = some 1 ∧ 1 + 120000 ≤ s.nowCt + 1) (fun _ t => t.rd ⟨.clkStatus, 0, 0⟩ = 0) = true := by decide +kernel

theorem test_alignArm : meets (st []) (.alignArm false true (.host 64))
    (fun s => s.get F.clkStatusAlignState ≠ 1 ∧ s.get F.clkStatusAlignState ≠ 2 ∧ Alone s .align ∧ s.alignFree = true)
    (fun _ t => t.get F.clkStatusAlignState = 1 ∧ t.bit F.clkAlignSyncDrive = true) = true := by decide +kernel

theorem test_alignVerify : meets (st [(F.seqStatusState, 0, 0, 1)]) (.alignArm true false (.host 64))
    (fun s => s.get F.clkStatusAlignState ≠ 1 ∧ s.get F.clkStatusAlignState ≠ 2 ∧ Alone s .align ∧ s.alignFree = false)
    (fun _ t => t.get F.clkStatusAlignState = 1 ∧ t.bit F.clkAlignMode = true) = true := by decide +kernel

theorem test_alignRefused : meets (st [(F.seqStatusState, 3, 0, 1)]) (.alignArm false false (.host 64))
    (fun s => s.get F.clkStatusAlignState ≠ 1 ∧ s.get F.clkStatusAlignState ≠ 2 ∧ Alone s .align ∧ s.alignFree = false
      ∧ Unclear s F.clkStatusAlignRefused 0 0)
    (fun _ t => t.get F.clkStatusAlignRefused = 1 ∧ t.get F.clkStatusAlignState = 0) = true := by decide +kernel

theorem test_alignDisarm : meets (st [(F.clkStatusAlignState, 0, 0, 2)]) (.alignDisarm (.host 64))
    (fun s => s.get F.clkStatusAlignState = 2 ∧ Alone s .align) (fun _ t => t.get F.clkStatusAlignState = 0) = true := by decide +kernel

theorem test_sync : meets (st [(F.clkAlignSyncDrive, 0, 0, 1)] { base with ticks := 157, clk := { driveDue := some 7 } }) .syncDrive
    (fun s => s.clk.driveDue = some 7 ∧ 7 + 150 ≤ s.ticks ∧ s.bit F.clkAlignSyncDrive = true) (fun _ t => t.out = [.syncPulse] ∧ t.clk.driveDue = none) = true := by decide +kernel

theorem test_syncCapture : meets (st [(F.clkStatusAlignState, 0, 0, 1)]) .syncCapture
    (fun s => (s.refEdge).isSome ∧ s.get F.clkStatusAlignState = 1 ∧ Alone s .align)
    (fun s t => t.get F.clkStatusAlignState = 2 ∧ s.refEdge = some t.clk.capture) = true := by decide +kernel

theorem test_alignmentEdge : meets (st [(F.clkStatusAlignState, 0, 0, 2), (F.clkAlignLoadValue, 0, 0, 1000)]
      { base with ticks := 7, clk := { capture := 15 } }) (.alignmentEdge 7)
    (fun s => s.get F.clkStatusAlignState = 2 ∧ s.clk.capture + 48 ≤ s.nowCt + 7 ∧ s.bit F.clkAlignMode = false)
    (fun _ t => t.get F.clkEtcountCount = 1000 ∧ t.get F.clkStatusTickAligned = 1) = true := by decide +kernel

theorem test_alignmentVerify : meets (st [(F.clkStatusAlignState, 0, 0, 2), (F.clkAlignMode, 0, 0, 1), (F.clkEtcountCount, 0, 0, 77)]
      { base with ticks := 7, clk := { capture := 15 } }) (.alignmentEdge 7)
    (fun s => s.get F.clkStatusAlignState = 2 ∧ s.clk.capture + 48 ≤ s.nowCt + 7 ∧ s.bit F.clkAlignMode = true)
    (fun _ t => t.get F.clkAlignResultEtcountLow = 77 ∧ t.get F.clkAlignResultPhase = 7) = true := by decide +kernel

theorem test_armDisarm : meets (st []) (.alignDisarm (.host 64)) (fun s => Alone s .align)
    (fun _ t => meets t (.alignArm false false (.host 64)) (fun _ => true) fun _ u => u.get F.clkStatusAlignState = 0) = true := by
  decide +kernel

theorem test_gpioEdge : meets (st [(F.dispGpioRouteEn, 0, 31, 1), (F.dispGpioRouteThread, 0, 31, 1023), (F.dispGpioRouteFlag, 0, 31, 31)])
    (.gpioEdge 31 true true false)
    (fun s => s.bit F.dispGpioRouteEn 0 31 = true ∧ edgeSelected (s.get F.dispGpioRouteEdge 0 31) true false = true
      ∧ s.decider (.thread 1023) = none ∧ Alone s (.threadFlag 1023 31))
    (fun _ t => t.get F.globalGpioInLevel = 2 ^ 31 ∧ t.get F.dispThrStateFlags 0 1023 = 2 ^ 31) = true := by decide +kernel

theorem test_baymap : meets (st []) (.baymapCommit 0x80C000 (.host 64))
    (fun s => each 4 (fun q => decide (s.seqBefore q = 0)) && each 8 fun b => decide (s.bayBusy b = false ∧ Alone s (.bay b)))
    (fun _ t => t.get F.globalBaymapSeqsel = 0xC000 ∧ t.bayOf 7 = some 3) = true := by decide +kernel

theorem test_baymapRefused : meets (st [(F.globalBaymapAssigned, 0, 0, 128), (F.seqStatusState, 0, 0, 1)]) (.baymapCommit 0 (.host 64))
    (fun s => s.bayOf 7 = some 0 ∧ s.seqBefore 0 ≠ 0 ∧ bayField 0 7 ≠ bayField (s.rd ⟨.globalBaymap, 0, 0⟩) 7 ∧ Alone s (.bay 7)
      ∧ s.clearedNow (F.globalBaymapStatusRefused.key 0 0) (F.globalBaymapStatusRefused.lo + 7) = false)
    (fun _ t => t.bayOf 7 = some 0 ∧ t.get F.globalBaymapStatusRefused = 128) = true := by decide +kernel

/-! ### Sequencers -/

/-- The base state with registers set and SEQ[q] as `x`. -/
def sq (q : Nat) (x : SeqX) (l : List (Fld × Nat × Nat × Nat)) : State := { st l with seqs := [(q, x)] }

theorem test_start : meets (st [(F.seqEntryAddress, 3, 0, 2 ^ 38 - 1), (F.seqLaunchDelayDelay, 3, 0, 65535), (F.seqLflagsLfInit, 3, 0, 5)])
    (.seqStart 3 (.host 64)) (fun s => Alone s (.seq 3) ∧ s.startRefusal 3 = 0) (fun _ _ => true) = true := by decide +kernel

theorem test_startRefused : meets (st [(F.seqStatusFault, 0, 0, 1)]) (.seqStart 0 (.host 64))
    (fun s => Alone s (.seq 0) ∧ s.startRefusal 0 ≠ 0) (fun s t => s = t) = true := by decide +kernel

theorem test_resume : meets (sq 0 { hold := some { raise := true } } [(F.seqStatusState, 0, 0, 4)]) (.seqResume 0 (.host 64))
    (fun s => Alone s (.seq 0) ∧ s.seqState 0 = 4) (fun s t => t.seqState 0 = 2 ∧ (t.seqX 0).nextAt = s.launchAt 0) = true := by
  decide +kernel

theorem test_pause : meets (st [(F.seqStatusState, 1, 0, 2)]) (.pauseRequest 1 (.host 64))
    (fun s => Alone s (.seq 1) ∧ s.seqState 1 = 2) (fun _ t => (t.seqX 1).pend = [⟨3, 0, none⟩] ∧ t.seqState 1 = 2) = true := by
  decide +kernel

theorem test_abort : meets (st [(F.seqStatusState, 1, 0, 1)]) (.abort 1 (.host 64))
    (fun s => Alone s (.seq 1) ∧ s.seqState 1 = 1) (fun _ t => (t.seqX 1).pend = [⟨4, 0, none⟩]) = true := by decide +kernel

theorem test_abortPaused : meets (st [(F.seqStatusState, 1, 0, 4)]) (.abort 1 (.host 64))
    (fun s => Alone s (.seq 1) ∧ s.seqState 1 = 4 ∧ (s.seqX 1).ending = none)
    (fun _ t => t.seqState 1 = 0 ∧ t.get F.seqStatusStopReason 1 = 4) = true := by decide +kernel

theorem test_faultClear : meets (st [(F.seqStatusFault, 2, 0, 4)]) (.faultClear 2 (.host 64)) (fun s => Alone s (.seq 2))
    (fun _ t => t.get F.seqStatusFault 2 = 0) = true := by decide +kernel

theorem test_pegWatchdog : meets { sq 0 { watch := some 0, pend := [⟨4, 0, none⟩] } [] with ticks := 2 ^ 32 } (.pegWatchdog 0)
    (fun s => (s.seqX 0).watch = some 0 ∧ 0 + s.get F.seqPegWatchdogLimit 0 ≤ s.ticks ∧ (s.seqX 0).pend ≠ []
      ∧ (s.seqX 0).ending = none) (fun s t => (t.seqX 0).forced = some ((0 + s.get F.seqPegWatchdogLimit 0) * 8192)) = true := by decide +kernel

theorem test_holdTimeout : meets { sq 0 { hold := some { raise := true, timeout := 9, toFlag := some 15 } } [] with ticks := 9 }
    (.holdTimeout 0) (fun s => (s.seqX 0).hold = some { raise := true, timeout := 9, toFlag := some 15 } ∧ tickAt 0 + 9 ≤ s.ticks ∧ s.releasedNow 0 = false
      ∧ Unclear s F.seqStatusHoldTimeout 0 0)
    (fun _ t => t.get F.seqLflagsLf 0 = 2 ^ 15 ∧ ((t.seqX 0).hold.bind fun h => h.release) = some 9) = true := by decide +kernel

theorem test_barrierRelease : meets { sq 0 { hold := some { raise := false, bar := 7 } } [(F.seqBarrierGen, 0, 7, 15),
    (F.seqBarrierLocal, 0, 7, 2)] with bars := [(7, { own := 1, loc := [(1, 1)] })] } (.barrierRelease 0 7)
    (fun s => s.barrierMet 0 7)
    (fun _ t => t.get F.seqBarrierGen 0 7 = 0 ∧ (t.bar 0 7).own = 0 ∧ ((t.seqX 0).hold.bind fun h => h.release) = some 0) = true := by
  decide +kernel

theorem test_park : meets { sq 0 { ending := some ⟨1, false, 8192, none⟩ } [(F.seqStatusState, 0, 0, 1)] with ticks := 1 } (.park 0)
    (fun s => (s.seqX 0).ending = some ⟨1, false, 8192, none⟩ ∧ 8192 ≤ s.nowFu ∧ (s.seqX 0).pend = [] ∧ s.site.runs = []
      ∧ each 128 fun c => decide ((s.chan c).queue = [] ∧ (s.chan c).parkAt = none))
    (fun _ t => t.seqState 0 = 0 ∧ t.get F.seqStatusStopReason 0 = 1) = true := by decide +kernel

theorem test_raiseFire : meets (st [(F.timeRaiseNsScheduled, 0, 15, 1), (F.timeRaiseNsSeqmask, 0, 15, 8)]) (.raiseFire 15)
    (fun s => s.bit F.timeRaiseNsScheduled 0 15 = true ∧ s.raiseInstant 15 ≤ s.station ∧ Alone s (.raise 15)
      ∧ s.get F.timeRaiseNsSeqmask 0 15 = 2 ^ 3 ∧ Alone s (.seq 3) ∧ s.startRefusal 3 = 0 ∧ (s.seqX 3).ending = none) (fun _ _ => true) = true := by decide +kernel

/-! ### Records -/

/-- The words, the start and the state of issue of the next record of SEQ[q], where it is decoded now. -/
def decodes (s : State) (q op : Nat) : Option (List Nat × Nat × State) :=
  match (s.setSeqX q { (s.seqX q) with hold := none }).takeRecord q (s.seqX q).pc (s.recWords q) with
  | some (words, u) =>
    let r := u.beforeRecord q (fun v => v.startOf q (vcwTset (words.getD 0 0)))
    let c := r.2.startOf q (vcwTset (words.getD 0 0))
    if s.canDecode q = true ∧ (s.seqX q).rep = 0 ∧ (s.seqX q).hold = none ∧ crosses (s.seqX q).pc (s.recWords q) = false
        ∧ words ≠ [] ∧ vcwOp (words.getD 0 0) = op ∧ r.1 = false ∧ r.2.recordFault q (words.getD 0 0) c = none then
      some (words, c, r.2)
    else none
  | none => none

/-- Where `decodes` answers, `DecodesNow` holds. -/
theorem decodes_now {s t : State} {q op c : Nat} {words : List Nat} (h : decodes s q op = some (words, c, t)) :
    DecodesNow s q op words c t := by
  unfold decodes at h
  split at h
  · rename_i w u e
    dsimp only at h
    split at h
    · rename_i g
      obtain ⟨g1, g2, g3, g4, g5, g6, g7, g8⟩ := g
      simp only [Option.some.injEq, Prod.mk.injEq] at h
      obtain ⟨rfl, rfl, rfl⟩ := h
      exact ⟨g1, g2, g3, g4, g5, g6, u, e, Prod.ext g7 rfl, rfl, g8⟩
    · cases h
  · cases h

/-- SEQ[0] RUNNING as `x`, its next record the word `w`, launched at 65,536 fu. -/
def rs (x : SeqX) (w : Nat) (l : List (Fld × Nat × Nat × Nat)) : State :=
  sq 0 { x with nextAt := 65536, fill := { buf := [(x.pc, w :: List.replicate 8 0)] } } ((F.seqStatusState, 0, 0, 1) :: l)

/-- The record of opcode `op` is decoded now and completes, and the states of its issue and after it meet `e`. -/
def issues (s : State) (c : Instr) (op : Nat) (e : State → State → Bool) : Bool :=
  match decodes s 0 op with
  | some (words, k, t) => meets s c (fun _ => true) fun _ r => e (issued t 0 (s.seqX 0).pc k words) r
  | none => false

theorem test_nopRec : issues (rs {} 0 []) (.nopRec 0) 0x00 (fun v r => r = v ∧ r.get F.seqCycleCount 0 = 1
    ∧ r.get F.seqPositionPc 0 = 0 ∧ (r.seqX 0).pc = 9) = true := by decide +kernel

theorem test_loopRec : issues (rs {} (2 ^ 58 + 5) []) (.loopRec 0) 0x01
    (fun _ r => (r.seqX 0).levels = [{ body := 9, rem := 4 }]) = true := by decide +kernel

theorem test_endloop : issues (rs { levels := [{ body := 4, rem := 1 }] } (2 * 2 ^ 58) []) (.endloop 0) 0x02
    (fun v r => (v.seqX 0).levels = [{ body := 4, rem := 1 }] ∧ (r.seqX 0).levels = [{ body := 4, iter := 1 }]
      ∧ (r.seqX 0).pc = 4) = true := by decide +kernel

theorem test_endloopLast : issues (rs { levels := [{ body := 4 }] } (2 * 2 ^ 58) []) (.endloop 0) 0x02
    (fun v r => (v.seqX 0).levels = [{ body := 4 }] ∧ (r.seqX 0).levels = [] ∧ (r.seqX 0).pc = 9) = true := by decide +kernel

theorem test_repeatRec : issues (rs {} (3 * 2 ^ 58 + 0) []) (.repeatRec 0) 0x03 (fun _ r => (r.seqX 0).rep = 0) = true := by
  decide +kernel

theorem test_repeatNext : meets (sq 0 { rep := 2, cur := [3 * 2 ^ 58 + 3], nextAt := 65536 } [(F.seqStatusState, 0, 0, 1)])
    (.repeatRec 0) (fun s => s.canDecode 0 = true ∧ (s.seqX 0).rep = 1 + 1 ∧ vcwOp ((s.seqX 0).cur.getD 0 0) = 0x03
      ∧ (s.beforeRecord 0 (fun v => v.startOf 0 (vcwTset ((s.seqX 0).cur.getD 0 0)))).1 = false)
    (fun _ r => (r.seqX 0).rep = 1) = true := by decide +kernel

theorem test_callRec : issues (rs {} (4 * 2 ^ 58 + 2 ^ 38 - 1) []) (.callRec 0) 0x04
    (fun _ r => (r.seqX 0).pc = 2 ^ 38 - 1 ∧ (r.seqX 0).stack = [(9, 0)]) = true := by decide +kernel

theorem test_ret : issues (rs { stack := [(77, 0)] } (5 * 2 ^ 58) []) (.ret 0) 0x05
    (fun v r => (v.seqX 0).stack = [(77, 0)] ∧ (r.seqX 0).pc = 77 ∧ (r.seqX 0).stack = []) = true := by decide +kernel

theorem test_jump : issues (rs { levels := [{ body := 4 }] } (6 * 2 ^ 58 + 2 ^ 38 + 50) []) (.jump 0) 0x06
    (fun _ r => (r.seqX 0).pc = 50 ∧ (r.seqX 0).levels = []) = true := by decide +kernel

theorem test_jumpif : issues (rs {} (7 * 2 ^ 58 + 0x10 * 2 ^ 41 + 50) [(F.seqLflagsLf, 0, 0, 1)]) (.jumpif 0) 0x07
    (fun v r => v.condHolds 0 0x10 65536 = true ∧ (r.seqX 0).pc = 50) = true := by decide +kernel

theorem test_jumpifNot : issues (rs {} (7 * 2 ^ 58 + 0x10 * 2 ^ 41 + 50) []) (.jumpif 0) 0x07
    (fun v r => v.condHolds 0 0x10 65536 = false ∧ r = v) = true := by decide +kernel

theorem test_matchRec : issues (rs {} (8 * 2 ^ 58 + 6) []) (.matchRec 0) 0x08
    (fun _ r => (r.seqX 0).newPass = true ∧ (r.seqX 0).levels.map (fun l => (l.isMatch, l.rem, l.body)) = [(true, 5, 9)]) = true := by
  decide +kernel

theorem test_flagset : issues (rs {} (9 * 2 ^ 58 + 63) []) (.flagset 0) 0x09 (fun _ r => r.get F.seqLflagsLf 0 = 2 ^ 15) = true := by
  decide +kernel

theorem test_flagsetGlobal : issues (rs {} (9 * 2 ^ 58 + 64 + 63) []) (.flagset 0) 0x09
    (fun _ r => (r.seqX 0).due = [(65536, .gf 63 true)]) = true := by decide +kernel

theorem test_flagclr : issues (rs {} (0x0A * 2 ^ 58) [(F.seqLflagsLf, 0, 0, 3)]) (.flagclr 0) 0x0A
    (fun _ r => r.get F.seqLflagsLf 0 = 2) = true := by decide +kernel

theorem test_flagclrFail : issues (rs { acc := [(9, 0)] } (0x0A * 2 ^ 58 + 128) []) (.flagclr 0) 0x0A
    (fun _ r => (r.seqX 0).acc = []) = true := by decide +kernel

theorem test_waitraise : issues (rs {} (0x0B * 2 ^ 58) []) (.waitraise 0) 0x0B
    (fun _ r => r.seqState 0 = 2 ∧ (r.seqX 0).peg = true) = true := by decide +kernel

theorem test_barrier : issues (rs {} (0x0C * 2 ^ 58 + 7 * 2 ^ 37) []) (.barrier 0) 0x0C
    (fun _ r => r.seqState 0 = 2 ∧ (r.seqX 0).due = [(65536, .arrive 7)]) = true := by decide +kernel

theorem test_trigger : issues (rs {} (0x0D * 2 ^ 58 + 255) [(F.globalBaymapAssigned, 0, 0, 128)]) (.trigger 0) 0x0D
    (fun _ r => (r.seqX 0).due = [(65536, .trigger 7 65536)]) = true := by decide +kernel

theorem test_measure : issues (rs {} (0x0E * 2 ^ 58 + 256 + 1) [(F.globalBaymapAssigned, 0, 0, 1)]) (.measure 0) 0x0E
    (fun _ r => (r.seqX 0).due = [(65536, .window 0 1 65536)]) = true := by decide +kernel

theorem test_measureUrgent : issues (rs {} (0x0E * 2 ^ 58 + 15 * 1024 + 768 + 1) [(F.globalBaymapAssigned, 0, 0, 1)]) (.measure 0) 0x0E
    (fun _ r => (r.seqX 0).due = [(65536, .urgent 0 15)]) = true := by decide +kernel

theorem test_timarm : issues (rs {} (0x0F * 2 ^ 58 + 2 ^ 31) [(F.globalBaymapAssigned, 0, 0, 128)]) (.timarm 0) 0x0F
    (fun _ r => (r.seqX 0).due = [(65536, .timArm 31)]) = true := by decide +kernel

theorem test_feapply : issues (rs {} (0x10 * 2 ^ 58 + 63 * 256 + 1) [(F.globalBaymapAssigned, 0, 0, 1)]) (.feapply 0) 0x10
    (fun _ r => (r.seqX 0).due = [(65536, .feStart 0 63)]) = true := by decide +kernel

theorem test_pagehint : issues (rs {} (0x11 * 2 ^ 58) []) (.pagehint 0) 0x11 (fun _ r => (r.seqX 0).pc = 9) = true := by decide +kernel

theorem test_stopiffail : issues (rs {} (0x12 * 2 ^ 58 + 0x10 * 2 ^ 41) [(F.seqLflagsLf, 0, 0, 1)]) (.stopiffail 0) 0x12
    (fun v r => v.nowFu < (v.seqX 0).lastEnd ∧ (r.seqX 0).ending = some ⟨5, false, (v.seqX 0).lastEnd, none⟩) = true := by
  decide +kernel

theorem test_halt : issues (rs {} (0x13 * 2 ^ 58) []) (.halt 0) 0x13
    (fun v r => v.nowFu < (v.seqX 0).lastEnd ∧ (r.seqX 0).ending = some ⟨2, true, (v.seqX 0).lastEnd, none⟩) = true := by decide +kernel

theorem test_endRec : issues (rs {} (0x14 * 2 ^ 58) []) (.endRec 0) 0x14
    (fun v r => v.nowFu < (v.seqX 0).lastEnd ∧ (r.seqX 0).ending = some ⟨1, false, (v.seqX 0).lastEnd, none⟩) = true := by decide +kernel


/-- A peg point that serves a commit: PENDING stays 1 until the instant of the peg point (R116, R124). -/
theorem test_pegCommit : issues (rs { peg := true, lastEnd := 65536, commits := [(0, none)] } 0 [(F.seqTsCtrlPending, 0, 0, 1)])
    (.nopRec 0) 0x00 (fun _ r => r.get F.seqTsCtrlPending 0 = 1 ∧ (r.seqX 0).commits = []
      ∧ (r.seqX 0).pegs = [(65536, [none])]) = true := by decide +kernel

/-- At the instant of the peg point the commit is done (R124). -/
theorem test_pegCommitApplies : ((sq 0 { pegs := [(0, [none])] } [(F.seqTsCtrlPending, 0, 0, 1)]).issueTo 0 1 1
    |>.get F.seqTsCtrlPending 0) = 0 := by decide +kernel

theorem test_matchTimeout : ((sq 0 { due := [(0, .matchTimeout)] } []).seqActs false 0 |>.get F.seqStatusMatchTimeout) = 1 := by
  decide +kernel
/-! ### Timing, compares, log and capture -/

theorem test_tableCommit : meets (st [(F.seqStatusState, 0, 0, 4)]) (.tableCommit 0 (.host 64))
    (fun s => Alone s (.store 0) ∧ CommitsAtOnce s 0 ∧ (s.seqX 0).ending = none ∧ (s.seqX 0).commits = [] ∧ (s.seqX 0).pegs = []
      ∧ testBit (s.get F.seqTsDirtyDirty 0) 63 = false) (fun s t => t.get F.seqTsCtrlPending 0 = 0 ∧ t.tset 0 63 = s.tset 0 63) = true := by
  decide +kernel

theorem test_tableCommitDirty : meets (st [(F.seqTsDirtyDirty, 0, 0, 2 ^ 63)]) (.tableCommit 0 (.host 64))
    (fun s => Alone s (.store 0) ∧ CommitsAtOnce s 0 ∧ (s.seqX 0).ending = none ∧ (s.seqX 0).commits = [] ∧ (s.seqX 0).pegs = []
      ∧ testBit (s.get F.seqTsDirtyDirty 0) 63 = true) (fun _ _ => true) = true := by decide +kernel

theorem test_tableCommitWaits : meets (st [(F.seqStatusState, 0, 0, 2), (F.seqTsDirtyDirty, 0, 0, 1)]) (.tableCommit 0 (.host 64))
    (fun s => Alone s (.store 0) ∧ ¬CommitsAtOnce s 0) (fun _ t => t.get F.seqTsCtrlPending 0 = 1 ∧ t.get F.seqTsDirtyDirty 0 = 1) = true := by
  decide +kernel

theorem test_dclkStart : meets (st []) (.dclkStart 7 1 (.host 64))
    (fun s => Alone s (.dclk 7 1) ∧ (s.dclk 7 1).locked = false ∧ (s.dclk 7 1).start = none ∧ (s.dclk 7 1).stopAt = none)
    (fun _ t => (t.dclk 7 1).start = some (8192 * 131072)) = true := by decide +kernel

theorem test_dclkDisable : meets { st [] with dclks := [(0, { start := some 0, runPeriod := 805306368 })], ticks := 5 } (.dclkDisable 0 0 (.host 64))
    (fun s => Alone s (.dclk 0 0) ∧ (s.dclk 0 0).start = some 0 ∧ (s.dclk 0 0).stopAt = none)
    (fun s t => (t.dclk 0 0).stopAt = some ((s.dclk 0 0).nextFall 0 s.now17)) = true := by decide +kernel

theorem test_frequencyCommitRuns : meets { st [(F.bayDclkPeriodPeriod, 0, 0, 134217728)] with dclks := [(0, { start := some 0 })], ticks := 5 }
    (.frequencyCommit 0 0 (.host 64)) (fun s => Alone s (.dclk 0 0) ∧ (s.dclk 0 0).start = some 0 ∧ (s.dclk 0 0).stopAt = none)
    (fun s t => (t.dclk 0 0).period = 134217728 ∧ (t.dclk 0 0).stopAt = some ((s.dclk 0 0).nextFall 0 s.now17)
      ∧ (t.dclk 0 0).next.isSome) = true := by decide +kernel

theorem test_frequencyCommit : meets (st [(F.bayDclkPeriodPeriod, 0, 1, 134217728), (F.bayDclkCtrlMode, 0, 1, 1)])
    (.frequencyCommit 0 1 (.host 64)) (fun s => Alone s (.dclk 0 1))
    (fun _ t => (t.dclk 0 1).period = 134217728 ∧ (t.dclk 0 1).locked = true) = true := by decide +kernel

/-- A vector of SEQ[0]. -/
def vec : VecInfo := ⟨0, 1, 5, 77, 0, 0, 0, false, false, none⟩

/-- A queued event of a code at a time. -/
def ev (time code : Nat) : Ev := ⟨time, 0, code, 0, true, 0, 0, 0, 0, 0, vec⟩

theorem test_edgeDrive : meets { st [] with chans := [(127, { queue := [ev 8064 2, ev 8192 1] })], ticks := 1 } (.edgeApply 127 [] [])
    (fun s => (s.chan 127).queue = [ev 8064 2, ev 8192 1] ∧ 8064 + 128 ≤ s.nowFu ∧ kerfHit (ev 8064 2) [ev 8192 1] = false)
    (fun _ t => (t.chan 127).drv = true ∧ (t.chan 127).den = true ∧ (t.chan 127).queue.length = 1) = true := by decide +kernel

theorem test_edgeCollision : meets { st [] with chans := [(127, { queue := [ev 100 2, ev 227 1] })], ticks := 1 } (.edgeApply 127 [] [])
    (fun s => (s.chan 127).queue = [ev 100 2, ev 227 1] ∧ 100 + 128 ≤ s.nowFu ∧ kerfHit (ev 100 2) [ev 227 1] = true
      ∧ Unclear s F.bayEdgeStatEdgeCollision 7 15)
    (fun _ t => (t.chan 127).drv = false ∧ t.get F.bayEdgeStatEdgeCollision 7 15 = 1) = true := by decide +kernel

theorem test_edgeStrobe : meets { st [] with chans := [(0, { queue := [ev 100 5] })], ticks := 1 } (.edgeApply 0 [(100, false)] [(100, false)])
    (fun s => (s.chan 0).queue = [ev 100 5] ∧ 100 + 128 ≤ s.nowFu)
    (fun _ t => (t.chan 0).queue = [] ∧ (t.chan 0).flight.map (fun f => (f.at_, f.fail)) = [(100, true)]) = true := by decide +kernel

theorem test_edgeWindow : meets { st [] with chans := [(0, { queue := [ev 100 8] })], ticks := 1 } (.edgeApply 0 [(100, true)] [])
    (fun s => (s.chan 0).queue = [ev 100 8] ∧ 100 + 128 ≤ s.nowFu ∧ (s.chan 0).win = none)
    (fun _ t => (t.chan 0).win.isSome ∧ (t.chan 0).flight = []) = true := by decide +kernel

theorem test_edgeWindowEnd : meets { st [] with chans := [(0, { queue := [ev 100 11], win := some ⟨ev 50 8, false, false⟩ })], ticks := 1 }
    (.edgeApply 0 [(70, true)] []) (fun s => (s.chan 0).queue = [ev 100 11] ∧ 100 + 128 ≤ s.nowFu ∧ (s.chan 0).win = some ⟨ev 50 8, false, false⟩)
    (fun _ t => (t.chan 0).win = none ∧ (t.chan 0).flight.map (fun f => (f.window, f.fail)) = [(true, true)]) = true := by decide +kernel

/-- A failing outcome. -/
def failing : Flight := ⟨vec, 0, 3, false, true, true, true, 1, 0, 0, 0⟩

theorem test_compareResult : meets { sq 0 { run := 1 } [(F.bayFailCountCount, 7, 15, 4294967295)] with chans := [(127, { flight := [failing] })], ticks := 100 }
    (.compareResult 127) (fun s => (s.chan 127).flight = [failing] ∧ failing.done < s.nowFu + 8192
      ∧ Unclear s F.bayFailCountCount 7 15 ∧ (s.seqX 0).run = failing.vec.run
      ∧ s.clearedNow (F.seqSiteFailSite.key 0 0) 32 = false)
    (fun _ t => (t.chan 127).flight = [] ∧ t.get F.bayFailCountCount 7 15 = 4294967295 ∧ t.get F.seqSiteFailSeq 0 = 1) = true := by
  decide +kernel

theorem test_comparePass : meets { st [] with chans := [(0, { flight := [{ failing with fail := false }] })], ticks := 100 } (.compareResult 0)
    (fun s => (s.chan 0).flight = [{ failing with fail := false }] ∧ failing.done < s.nowFu + 8192)
    (fun _ t => (t.chan 0).flight = [] ∧ t.get F.bayFailCountCount 0 0 = 0) = true := by decide +kernel

theorem test_failSnap : meets (st [(F.bayFailCountCount, 7, 15, 3), (F.clkEtcountCount, 0, 0, 2 ^ 48 + 9)]) (.failSnap 7) (fun _ => true)
    (fun _ t => t.get F.bayFailShadowCount 7 15 = 3 ∧ t.get F.bayFailSnapEtcountLow 7 = 9) = true := by decide +kernel

theorem test_logWrite : meets { st [(F.drmInfoState, 0, 0, 3), (F.drmInfoFrames, 0, 0, 16), (F.seqLogCfgSize, 2, 0, 8), (F.seqLogPtrWr, 2, 0, 255), (F.seqLogPtrRd, 2, 0, 1)]
      with logs := [(2, { queue := [[1, 2, 3, 4]] })] } .logWrite
    (fun s => s.logNext = some 2 ∧ (s.logX 2).queue = [[1, 2, 3, 4]] ∧ (s.logX 2).doomed = 0 ∧ (s.logX 2).summaries = []
      ∧ s.inDram (255 * 32) 32 = true)
    (fun _ t => t.get F.seqLogPtrWr 2 = 0 ∧ t.memBytes (255 * 32) 9 = [1, 0, 0, 0, 0, 0, 0, 0, 2] ∧ t.logTurn = 2) = true := by
  decide +kernel

theorem test_mirrorLog : meets { st [(F.seqLogCfgEnable, 3, 0, 1), (F.seqLogCfgMirrorEn, 3, 0, 1), (F.seqLogCfgMirrorRing, 3, 0, 63),
      (F.seqLogPtrWr, 3, 0, 1), (F.seqLogCfgSize, 3, 0, 8), (F.ringCfgType, 63, 0, 3), (F.ringCfgSize, 63, 0, 6), (F.ringStatusState, 63, 0, 1)]
      with logs := [(3, { mirror := [[1, 2, 3, 4]] })] }
    (.mirror 0 3) (fun s => (s.logX 3).mirror = [[1, 2, 3, 4]] ∧ s.ringEnabled 63 = true ∧ s.ringRoom 63 = true ∧ s.busMaster = true)
    (fun s t => t.get F.seqLogPtrRd 3 = 1 ∧ t.get F.ringIndexProd 63 = 1 ∧ t.out = [.hostWrite (s.ringAddr 63 0) [1, 2, 3, 4]]) = true := by
  decide +kernel

theorem test_mirrorCapture : meets { st [(F.seqCapCfgEnable, 3, 0, 1), (F.seqCapCfgMirrorEn, 3, 0, 1), (F.seqCapCfgMirrorRing, 3, 0, 63),
      (F.seqCapPtrWr, 3, 0, 1), (F.seqCapCfgSize, 3, 0, 8), (F.ringCfgType, 63, 0, 4), (F.ringCfgSize, 63, 0, 6), (F.ringStatusState, 63, 0, 1)]
      with logs := [(3, { capMirror := [7] })] }
    (.mirror 1 3) (fun s => (s.logX 3).capMirror = [7] ∧ s.ringEnabled 63 = true ∧ s.ringRoom 63 = true ∧ s.busMaster = true)
    (fun s t => t.get F.seqCapPtrRd 3 = 1 ∧ t.out = [.hostWrite (s.ringAddr 63 0) [7]]) = true := by decide +kernel

theorem test_mirrorAcq : meets { st [(F.bayAcqRingEnable, 7, 0, 1), (F.bayAcqRingMirrorEn, 7, 0, 1), (F.bayAcqRingMirrorRing, 7, 0, 63),
      (F.bayAcqPtrWr, 7, 0, 1), (F.bayAcqRingSize, 7, 0, 8), (F.ringCfgType, 63, 0, 5), (F.ringCfgSize, 63, 0, 6), (F.ringStatusState, 63, 0, 1)]
      with acqs := [(7, { mirror := [[1, 2]] })] }
    (.mirror 2 7) (fun s => (s.acq 7).mirror = [[1, 2]] ∧ s.ringEnabled 63 = true ∧ s.ringRoom 63 = true ∧ s.busMaster = true)
    (fun s t => t.get F.bayAcqPtrRd 7 = 1 ∧ t.out = [.hostWrite (s.ringAddr 63 0) [1, 2]]) = true := by decide +kernel

/-- A written-to LOG_CFG and CAP_CFG with ENABLE 1: the second write changes nothing (R175, R179). -/
theorem test_cfgHeld : (meets (st [(F.seqLogCfgEnable, 0, 0, 1)]) (.logCfgWrite 0 0x10001)
      (fun s => s.bit F.seqLogCfgEnable 0 = true ∧ s.before F.seqLogCfgEnable 0 = 1)
      (fun s t => t.rd ⟨.seqLogCfg, 0, 0⟩ = s.rd ⟨.seqLogCfg, 0, 0⟩)
    && meets (st [(F.seqCapCfgEnable, 0, 0, 1)]) (.capCfgWrite 0 0x10001)
      (fun s => s.bit F.seqCapCfgEnable 0 = true ∧ s.before F.seqCapCfgEnable 0 = 1)
      (fun s t => t.rd ⟨.seqCapCfg, 0, 0⟩ = s.rd ⟨.seqCapCfg, 0, 0⟩)) = true := by decide +kernel

/-- With ENABLE 0 throughout, a write stores the register (R175, R179). -/
theorem test_cfgStored : (meets (st []) (.logCfgWrite 0 0x10000)
      (fun s => s.bit F.seqLogCfgEnable 0 = false ∧ s.before F.seqLogCfgEnable 0 = 0 ∧ s.clk.was.log.contains 0 = false)
      (fun _ t => t.get F.seqLogCfgBasePage 0 = 1)
    && meets (st []) (.capCfgWrite 0 0x10000)
      (fun s => s.bit F.seqCapCfgEnable 0 = false ∧ s.before F.seqCapCfgEnable 0 = 0 ∧ s.clk.was.cap.contains 0 = false)
      (fun _ t => t.get F.seqCapCfgBasePage 0 = 1)) = true := by decide +kernel

theorem test_logCfg : meets (st [(F.seqLogPtrWr, 0, 0, 5)]) (.logCfgWrite 0 0x10001)
    (fun s => s.bit F.seqLogCfgEnable 0 = false ∧ s.before F.seqLogCfgEnable 0 = 0 ∧ s.clk.was.log.contains 0 = false)
    (fun _ t => t.get F.seqLogPtrWr 0 = 0 ∧ t.get F.seqLogCfgBasePage 0 = 1) = true := by decide +kernel

theorem test_logCfgOff : meets { st [(F.seqLogCfgEnable, 0, 0, 1)] with logs := [(0, { queue := [[1, 2, 3, 4]] })] } (.logCfgWrite 0 0)
    (fun s => s.bit F.seqLogCfgEnable 0 = true) (fun _ t => (t.logX 0).doomed = 1) = true := by decide +kernel

theorem test_capCfg : meets (st [(F.seqCapPtrWr, 0, 0, 5)]) (.capCfgWrite 0 0x10001)
    (fun s => s.bit F.seqCapCfgEnable 0 = false ∧ s.before F.seqCapCfgEnable 0 = 0 ∧ s.clk.was.cap.contains 0 = false) (fun _ t => t.get F.seqCapPtrWr 0 = 0) = true := by
  decide +kernel

/-- A capture block of one state word. -/
def blk : CapBlk := ⟨5, 0, 0, 1, 1, false, 5, 0, 1, [7], 0⟩

theorem test_capCfgOff : meets { st [(F.seqCapCfgEnable, 0, 0, 1)] with logs := [(0, { capClosed := [blk] })] } (.capCfgWrite 0 0)
    (fun s => s.bit F.seqCapCfgEnable 0 = true) (fun _ t => (t.logX 0).capDoomed = 1 ∧ (t.logX 0).capOpen = none) = true := by
  decide +kernel

theorem test_captureBlock : meets { st [(F.drmInfoState, 0, 0, 3), (F.drmInfoFrames, 0, 0, 16), (F.seqCapCfgSize, 1, 0, 8)] with logs := [(1, { capClosed := [blk] })] }
    (.captureBlockWrite 1) (fun s => (s.logX 1).capOpen = none ∧ (s.logX 1).capRest = [] ∧ (s.logX 1).capClosed = [blk] ∧ (s.logX 1).capDoomed = 0
      ∧ s.dramReady = true ∧ blk.words.length + 2 ≤ s.capFree 1)
    (fun _ t => t.get F.seqCapPtrWr 1 = 3 ∧ t.memBytes 16 1 = [7]) = true := by decide +kernel

/-! ### The pattern space -/

/-- The base state with registers set and a page-table entry. -/
def pg (g : Nat) (e : PgEntry) (l : List (Fld × Nat × Nat × Nat)) : State := { st l with page := { table := [(g, e)] } }

theorem test_rebuild : meets (pg 3 { state := 1, host := 9 } []) .rebuild (fun s => s.allStopped = true ∧ s.page.loads = [])
    (fun _ t => t.page.table = [] ∧ t.get F.pgtStatusRebuildBusy = 1) = true := by decide +kernel

theorem test_rebuildRefused : meets (st [(F.seqStatusState, 2, 0, 4)]) .rebuild
    (fun s => s.allStopped = false ∧ Unclear s F.pgtStatusRebuildRefused 0 0)
    (fun _ t => t.get F.pgtStatusRebuildRefused = 1) = true := by decide +kernel

theorem test_rebuildDone : meets (st [(F.pgtStatusRebuildBusy, 0, 0, 1)]) .rebuildDone (fun _ => true)
    (fun _ t => t.get F.pgtStatusRebuildBusy = 0) = true := by decide +kernel

theorem test_winRead : meets (pg 32767 { state := 1, host := 9, crc := 5 } []) (.winRead 32767)
    (fun s => s.bit F.pgtStatusRebuildBusy = false)
    (fun _ t => t.rd ⟨.pgtWinData, 0, 0⟩ = 0x500000001 ∧ t.rd ⟨.pgtWinData, 0, 1⟩ = 0x9000) = true := by decide +kernel

theorem test_winWrite : meets ((pg 4 {} []).wr ⟨.pgtWinData, 0, 0⟩ 0x700000009 |>.wr ⟨.pgtWinData, 0, 1⟩ 0x3000) (.winWrite 32767)
    (fun s => s.bit F.pgtStatusRebuildBusy = false ∧ (s.entry 32767).state = 0 ∧ (s.entry 32767).resident = false)
    (fun _ t => (t.entry 32767).state = 1 ∧ (t.entry 32767).host = 3 ∧ (t.entry 32767).crc = 7 ∧ (t.entry 32767).pin = true) = true := by
  decide +kernel

theorem test_winFlags : meets ((pg 4 { state := 3, host := 3, crc := 7 } []).wr ⟨.pgtWinData, 0, 0⟩ 0x700000009 |>.wr ⟨.pgtWinData, 0, 1⟩ 0x3000)
    (.winWrite 4) (fun s => s.bit F.pgtStatusRebuildBusy = false ∧ (s.entry 4).sameContent 0x700000009 0x3000 = true ∧ (s.entry 4).state ≠ 0)
    (fun _ t => t.get F.pgtWinCmdFlagsOnly = 1 ∧ (t.entry 4).state = 4) = true := by decide +kernel

theorem test_winRefused : meets ((pg 4 { state := 2, host := 3, crc := 7 } []).wr ⟨.pgtWinData, 0, 0⟩ 0x800000001 |>.wr ⟨.pgtWinData, 0, 1⟩ 0x3000)
    (.winWrite 4) (fun s => s.bit F.pgtStatusRebuildBusy = false ∧ (s.entry 4).state = 2
      ∧ (s.entry 4).sameContent 0x800000001 0x3000 = false ∧ Unclear s F.pgtWinCmdRefused 0 0)
    (fun s t => t.get F.pgtWinCmdRefused = 1 ∧ t.page = s.page) = true := by decide +kernel

theorem test_loadStart : meets { pg 4 { state := 1, host := 3 } [(F.drmInfoState, 0, 0, 3), (F.pgtFramesFirst, 0, 0, 2), (F.pgtFramesCount, 0, 0, 1)]
      with page := { table := [(4, { state := 1, host := 3 })], reqs := [{ page := 4, level := 1, want := .demand }] } } .loadStart
    (fun s => s.dramReady = true ∧ s.page.loads.length < s.get F.pgtCtrlMaxInflight ∧ s.nextRequest = some { page := 4, level := 1, want := .demand }
      ∧ s.freeFrames = [2])
    (fun _ t => (t.entry 4).state = 2 ∧ (t.entry 4).frame = 2 ∧ t.out = pageReadsOf { host := 3 }) = true := by decide +kernel

/-- Page 4 LOADING, with the check word `n`. -/
def ld (n : Nat) : State :=
  { st [(F.drmInfoState, 0, 0, 3)] with page := { table := [(4, { state := 2, crc := n })], loads := [⟨4, 1, false, false⟩] } }

theorem test_loadCompletes (n : Nat) : (ld n).loading 4 = true ∧ (ld n).dramReady = true ∧ ((ld n).entry 4).crc = n :=
  ⟨rfl, show (st [(F.drmInfoState, 0, 0, 3)]).dramReady = true by decide +kernel, rfl⟩

/-- A load of an empty page can complete: its entry holds the check word of the data. -/
theorem test_loadComplete : ∃ s : State, s.loading 4 = true ∧ s.dramReady = true ∧ checkWord [] = (s.entry 4).crc :=
  ⟨ld (checkWord []), (test_loadCompletes _).1, (test_loadCompletes _).2.1, (test_loadCompletes _).2.2.symm⟩

theorem test_loadErr : meets { st [] with page := { table := [(4, { state := 2, host := 3 })], loads := [⟨4, 1, false, false⟩] } } (.loadErr 4 2)
    (fun s => s.loading 4 = true ∧ s.page.loads.find? (fun y => decide (y.page = 4)) = some ⟨4, 1, false, false⟩
      ∧ Unclear s F.pgtErrStatLoadErr 0 0)
    (fun _ t => t.get F.pgtErrStatLoadErr = 1 ∧ t.out = pageReadsOf { host := 3 }) = true := by decide +kernel

theorem test_loadErrAgain : meets { st [] with page := { table := [(4, { state := 2, host := 3 })], loads := [⟨4, 1, true, false⟩] } } (.loadErr 4 2)
    (fun s => s.loading 4 = true ∧ s.page.loads.find? (fun y => decide (y.page = 4)) = some ⟨4, 1, true, false⟩
      ∧ Unclear s F.pgtErrStatLoadErr 0 0)
    (fun _ t => (t.entry 4).bad = true ∧ (t.entry 4).state = 1 ∧ t.page.loads = []) = true := by decide +kernel

theorem test_lookahead : meets { sq 0 { look := { addr := some 5 } } [(F.seqStatusState, 0, 0, 1)] with page := { table := [(1, { state := 1 })] } }
    (.lookahead 0 []) (fun s => s.seqState 0 ≠ 0 ∧ (s.seqX 0).look.path.length < s.get F.pgtLookaheadDepth 0 0
      ∧ (s.entry 0).flowTab = false ∧ (s.entry 1).state = 1 ∧ (s.entry 1).bad = false ∧ (s.entry 1).pclass ≠ 2
      ∧ 1 ∉ (s.seqX 0).look.path ∧ 1 ≠ pageOf (s.get F.seqPositionPc 0))
    (fun _ t => (t.seqX 0).look.path = [1] ∧ t.page.reqs.length = 1) = true := by decide +kernel

theorem test_fillCache : meets { sq 0 { fill := { pc := some 0, cache := [(0, List.replicate 32 7)] } } [(F.seqStatusState, 0, 0, 1)]
      with page := { table := [(0, { state := 3 })] } } (.prefetchFill 0)
    (fun s => s.seqState 0 ≠ 0 ∧ bufBytes 9 (s.seqX 0).fill.buf + 9 * 8 ≤ 262144 ∧ s.recWords 0 = 9 ∧ crosses 0 9 = false
      ∧ s.pageFault 0 9 = none ∧ (s.seqX 0).fill.cached 0 9 = some (List.replicate 9 7))
    (fun _ t => (t.seqX 0).fill.buf = [(0, List.replicate 9 7)]) = true := by decide +kernel

theorem test_fillPage : meets { sq 0 { fill := { pc := some 0 } } [(F.seqStatusState, 0, 0, 1), (F.drmInfoState, 0, 0, 3), (F.drmInfoFrames, 0, 0, 16)]
      with page := { table := [(0, { state := 3 })] }, mem := [(8, 5)] } (.prefetchFill 0)
    (fun s => s.seqState 0 ≠ 0 ∧ s.recWords 0 = 9 ∧ s.pageFault 0 9 = none ∧ (s.seqX 0).fill.cached 0 9 = none
      ∧ (s.entry 0).resident = true ∧ s.dramReady = true ∧ s.inDram (s.dramAddr 0) 72 = true ∧ s.dram.poison = [])
    (fun _ t => (t.seqX 0).fill.buf = [(0, [0, 5, 0, 0, 0, 0, 0, 0, 0])]) = true := by decide +kernel

theorem test_pagehintRequests : issues { rs {} (0x11 * 2 ^ 58 + 7) [] with page := { table := [(7, { state := 1 })] } } (.pagehint 0) 0x11
    (fun v r => (v.entry 7).state = 1 ∧ (v.entry 7).bad = false ∧ (v.entry 7).pclass ≠ 2 ∧ r.page.reqs.map (·.page) = [7]) = true := by
  decide +kernel

theorem test_stallResume : meets (sq 0 { under := true, nextAt := 100, fill := { cache := [(0, List.replicate 32 7)] } } [(F.seqStatusState, 0, 0, 3)])
    (.stallResume 0 5) (fun s => (s.seqX 0).under = true ∧ (s.seqX 0).resumed = false ∧ (s.seqX 0).ending = none
      ∧ s.fillReady 0 (s.seqX 0).pc (s.recWords 0) = true)
    (fun s t => (t.seqX 0).nextAt = (5 + s.get F.seqResumeDelayDelay 0) * 1024 ∧ (t.seqX 0).resumed = true) = true := by decide +kernel

theorem test_stallLimit : meets { sq 0 { under := true } [(F.seqStatusState, 0, 0, 3), (F.seqStallCtrlLimit, 0, 0, 5)] with ticks := 5 }
    (.stallLimit 0) (fun s => s.seqState 0 = 3 ∧ s.get F.seqStallCtrlLimit 0 ≠ 0 ∧ (s.seqX 0).stallAt + s.get F.seqStallCtrlLimit 0 ≤ s.ticks
      ∧ Alone s (.seq 0) ∧ (s.seqX 0).ending = none ∧ (s.seqX 0).pend = [])
    (fun _ t => t.seqState 0 = 0 ∧ t.get F.seqStatusStopReason 0 = 9) = true := by decide +kernel

theorem test_stallTimeClear : meets (st [(F.seqStallTimeEt, 3, 0, 8)]) (.stallTimeClear 3) (fun _ => true)
    (fun _ t => t.get F.seqStallTimeEt 3 = 0) = true := by decide +kernel

/-! ### Sites and station time -/

theorem test_siteCommit : meets { st [(F.siteDirtyDirty, 0, 0, 2 ^ 31)] with site := { staging := [(31, { seq := 3 })] } } .siteCommit
    (fun s => (List.range 32).filter (testBit (s.get F.siteDirtyDirty)) = [31] ∧ s.siteFree 31 = true ∧ s.duplicates [31] = false
      ∧ s.tooFew [31] = false)
    (fun _ t => t.get F.siteStatusResult = 1 ∧ t.get F.siteDirtyDirty = 0 ∧ (t.siteMap 31).seq = 3) = true := by decide +kernel

theorem test_retire : meets (st []) (.retire 31) (fun _ => true)
    (fun _ t => t.get F.sitekStatusState 31 = 3 ∧ t.get F.sitekCtrlRetire 31 = 1) = true := by decide +kernel

theorem test_siteEnd : meets { st [] with site := { runs := [{ site := 31, run := 1, epoch := 257, stopCycle := some 9 }] } } (.siteEnd 31)
    (fun s => s.endedRun 31 = some ({ site := 31, run := 1, epoch := 257, stopCycle := some 9 }, 9))
    (fun _ t => t.get F.sitekResultStopCycle 31 = 9 ∧ t.get F.sitekResultEpochLow 31 = 1 ∧ t.site.runs = []) = true := by decide +kernel

theorem test_sampleDisabled : meets (st [(F.domStatusRejectCount, 1, 0, 65535)]) (.sampleOffset 1 5)
    (fun s => s.isFollower = false ∧ s.bit F.domCtrlEnable 1 = false ∧ Unclear s F.domStatusRejectCount 1 0)
    (fun _ t => t.get F.domStatusRejectCount 1 = 65535) = true := by decide +kernel

theorem test_sample : meets (st [(F.domCtrlEnable, 1, 0, 1), (F.domCtrlStepNs, 1, 0, 10), (F.domGainIlimit, 1, 0, 1)]) (.sampleOffset 1 655360)
    (fun s => s.isFollower = false ∧ s.isLeader = false ∧ s.bit F.domCtrlEnable 1 = true ∧ s.bit F.clkStatusRefLost = false
      ∧ s.gated 1 (s.get F.domSampleDelayDelay 1) = false ∧ (655360 : Int).natAbs ≤ s.get F.domCtrlStepNs 1 * 65536
      ∧ s.time.asks = [])
    (fun s t => (t.timeActs.servo 1).integ = s.get F.domGainIlimit 1 * 65536) = true := by decide +kernel

theorem test_intClear : meets { st [] with time := { servo0 := { integ := 7 } } } (.intClear 0) (fun s => s.isFollower = false ∧ s.time.asks = [])
    (fun _ t => (t.timeActs.servo 0).integ = 0) = true := by decide +kernel

theorem test_rejectClear : meets (st [(F.domStatusRejectCount, 0, 0, 3)]) (.rejectCountClear 0) (fun s => s.isFollower = false
      ∧ ClearActs s (F.domStatusRejectCount.key 0 0) F.domStatusRejectCount.lo) (fun _ t => t.get F.domStatusRejectCount 0 = 0) = true := by decide +kernel

theorem test_servoHoldover : meets { st [(F.domStatusState, 0, 0, 2)] with ticks := 2 ^ 40 } (.servoHoldover 0)
    (fun s => s.get F.domStatusState 0 = 2 ∧ s.get F.domLockHoldEt 0 ≤ s.ticks - (s.servo 0).lastAccept ∧ s.isLeader = false ∧ s.inLockstep = false)
    (fun _ t => t.get F.domStatusState 0 = 3) = true := by decide +kernel

theorem test_domainStep : meets (st [(F.timeRaiseNsScheduled, 0, 5, 1)]) (.domainStep 0 (-10000))
    (fun s => s.isFollower = false ∧ s.isLeader = false ∧ Unclear s F.domStatusStepped 0 0
      ∧ ¬(s.lastSelect = 0 ∧ ((10000 : Int) < -10000 ∨ (-10000 : Int) < -10000) ∧ s.anyScheduled = true) ∧ s.time.asks = [])
    (fun s t => (t.timeActs.clocksAt (changeTick s)).dom 0 = (s.clocksAt (changeTick s)).dom 0 - 10000 * 4294967296 ∧ t.timeActs.get F.domStatusStepped 0 = 1) = true := by decide +kernel

theorem test_domainStepRefused : meets (st [(F.timeRaiseNsScheduled, 0, 5, 1)]) (.domainStep 0 10001)
    (fun s => s.isFollower = false ∧ s.lastSelect = 0 ∧ s.anyScheduled = true ∧ Unclear s F.domStatusStepRefused 0 0
      ∧ s.time.asks = [])
    (fun s t => t.timeActs.time = s.time ∧ t.timeActs.get F.domStatusStepRefused 0 = 1) = true := by decide +kernel

theorem test_domainSwitch : meets { st [] with time := { timeline := [(0, { dom0 := 77, dom1 := 5 })] } } (.domainSwitch 1)
    (fun s => s.isFollower = false ∧ s.isLeader = false ∧ s.lastSelect ≠ 1 ∧ s.time.asks = [])
    (fun s t => t.timeActs.get F.timeStatusSelected = 1 ∧ (t.timeActs.clocksAt (changeTick s)).sel = 1
      ∧ (t.timeActs.clocksAt (changeTick s)).station = (s.clocksAt (changeTick s)).station) = true := by decide +kernel

theorem test_slew : meets (st [(F.timeStatusSlewing, 0, 0, 1)]) .slewComplete (fun s => s.newClocks.delta = 0)
    (fun s t => t.time = s.time ∧ t.get F.timeStatusSlewing = 0) = true := by decide +kernel

theorem test_latch : meets { st [] with time := { timeline := [(0, { dom1 := 3 * secondUnits + 5 * 4294967296 })] } } (.latch 1 2)
    (fun _ => true)
    (fun _ t => t.get F.timeSnapSecSeconds 0 1 = 3 ∧ t.get F.timeSnapNsNanoseconds 0 1 = 5 ∧ t.get F.timeSnapSecSource 0 1 = 2) = true := by
  decide +kernel

theorem test_ppsOut : meets { st [(F.timePpsCfgOutEn, 0, 0, 1), (F.timePpsCfgWidth, 0, 0, 100)]
      with time := { timeline := [(0, { dom0 := secondUnits - 1 })] } } .ppsOut
    (fun s => (s.timeActs.ppsEdge 0).isSome ∧ s.bit F.timePpsCfgOutEn = true ∧ s.bit F.clkStatusRefLost = false)
    (fun _ t => t.out.length = 1 ∧ t.time.ppsFalls.isSome) = true := by decide +kernel

theorem test_ppsIn : meets { st [(F.timePpsCfgInEn, 0, 0, 1)] with time := { ct := 600000000, timeline := [(0, { dom0 := secondUnits })], lastPps := some 3 } } (.ppsIn 3)
    (fun s => s.bit F.timePpsCfgInEn = true ∧ s.get F.timePpsCfgInSource = 0 ∧ 3 + 600000000 ≤ s.time.ct + 3
      ∧ Unclear s F.timePpsInNsEdges 0 0 ∧ s.get F.timePpsInNsEdges + 1 < 2 ^ F.timePpsInNsEdges.width)
    (fun _ t => t.get F.timePpsInSecSeconds = 1 ∧ t.get F.timePpsInNsEdges = 1) = true := by decide +kernel

/-- A frame to the PTP multicast address, of type PTP. -/
def ptp : List Nat := [1, 0x1B, 0x19, 0, 0, 0, 2, 2, 2, 2, 2, 2, 0x88, 0xF7, 0]

theorem test_timeportRx : meets { st [(F.timePortCfgEnable, 0, 0, 1), (F.timePortCfgRxRing, 0, 0, 63), (F.ringCfgType, 63, 0, 8), (F.ringStatusState, 63, 0, 1)]
      with host := { base.host with rings := [(63, { ready := [⟨0, 0, 4096, 0, 0⟩], running := [⟨⟨0, 0, 4096, 0, 0⟩, none⟩] })] } } (.timeportRx ptp true 5)
    (fun s => s.bit F.timePortCfgEnable = true ∧ s.get F.timePortCfgRxRing = 63 ∧ s.get F.ringCfgType 63 = 8 ∧ s.ringEnabled 63 = true
      ∧ s.frameWanted ptp = true ∧ isPause ptp = false ∧ ptp.length ≤ 1518 ∧ s.busMaster = true ∧ (s.ringX 63).ready = [⟨0, 0, 4096, 0, 0⟩])
    (fun _ t => (t.ringX 63).ready = [] ∧ .hostBytes 4096 ptp ∈ t.out) = true := by decide +kernel

theorem test_timeportBadFcs : meets (st [(F.timePortCfgEnable, 0, 0, 1), (F.timePortCfgRxRing, 0, 0, 63), (F.ringCfgType, 63, 0, 8)])
    (.timeportRx ptp false 5) (fun s => s.bit F.timePortCfgEnable = true ∧ s.get F.timePortCfgRxRing = 63 ∧ s.get F.ringCfgType 63 = 8
      ∧ Unclear s F.ringStatusDropped 63 0 ∧ s.get F.ringStatusDropped 63 + 1 < 2 ^ F.ringStatusDropped.width)
    (fun _ t => t.get F.ringStatusDropped 63 = 1) = true := by decide +kernel

theorem test_timetxComplete : meets { st [] with time := { txQueue := [⟨⟨0, 0, 0⟩, 4096, 60, true⟩] } } (.timetxComplete 3)
    (fun s => s.time.txQueue = [⟨⟨0, 0, 0⟩, 4096, 60, true⟩]) (fun _ t => t.time.txQueue = []) = true := by decide +kernel

theorem test_timePortLink : meets (st [(F.timePortCfgEnable, 0, 0, 1)]) (.timePortLink true) (fun s => s.bit F.timePortCfgEnable = true)
    (fun _ t => t.bit F.timePortCfgLink = true) = true := by decide +kernel

theorem test_checkMessageSend : meets (st [(F.timeCtrlLockstep, 0, 0, 1), (F.oluBcastOrig, 0, 0, 8), (F.olupStatusState, 3, 0, 1)]) .checkMessageSend
    (fun s => s.isLeader = true ∧ s.get F.oluBcastOrig = 2 ^ 3 ∧ s.linkActive 3 = false ∧ s.get F.olupStatusState 3 ≠ 0
      ∧ s.get F.olupStatusState 3 ≠ 7) (fun _ t => (t.portX 3).queue.map (fun x => (x.1.cls, x.1.sub, x.1.bcast)) = [(5, 2, true), (5, 3, true)]) = true := by
  decide +kernel

theorem test_lockstepLost : meets { st [(F.timeCtrlLockstep, 0, 0, 2), (F.timeStatusLockstepOk, 0, 0, 1)] with ticks := 2097152 } .lockstepLost
    (fun s => s.isFollower = true ∧ 2097152 ≤ s.ticks - s.time.lastCheck ∧ s.bit F.timeStatusLockstepOk = true
      ∧ Unclear s F.timeStatusLockstepLost 0 0)
    (fun _ t => t.get F.timeStatusLockstepLost = 1 ∧ t.get F.domStatusState 1 = 3) = true := by decide +kernel

/-! ### Oluel links -/

/-- The base state with registers set and port `p` ACTIVE as `x`. -/
def lk (p : Nat) (x : PortX) (l : List (Fld × Nat × Nat × Nat)) : State :=
  { st ((F.olupStatusState, p, 0, 5) :: l) with olu := { ports := [(p, x)] } }

theorem test_oluEnable : meets { st [] with ticks := 7 } (.oluEnable 3) (fun s => s.bit F.olupCtrlEnable 3 = false)
    (fun _ t => t.get F.olupStatusState 3 = 1 ∧ (t.portX 3).attemptStart = 7) = true := by decide +kernel

theorem test_oluDisable : meets (lk 3 { txSeq := 5 } [(F.olupCtrlEnable, 3, 0, 1)]) (.oluDisable 3) (fun _ => true)
    (fun _ t => t.get F.olupStatusState 3 = 0 ∧ (t.portX 3).txSeq = 0) = true := by decide +kernel

theorem test_retrain : meets (lk 3 { retry := [({ cls := 1 }, none)] } []) (.retrain 3) (fun s => s.linkActive 3 = true)
    (fun _ t => t.get F.olupStatusState 3 = 1 ∧ (t.portX 3).retry.length = 1) = true := by decide +kernel

theorem test_trainingAttempt : meets { st [(F.olupStatusState, 0, 0, 6)] with olu := { ports := [(0, { waitUntil := 9 })] }, ticks := 9 }
    (.trainingAttempt 0) (fun s => s.get F.olupStatusState 0 = 6 ∧ (s.portX 0).waitUntil ≤ s.ticks)
    (fun _ t => t.get F.olupStatusState 0 = 1) = true := by decide +kernel

theorem test_trainingFail : meets (st [(F.olupStatusState, 0, 0, 4), (F.olupStatusAttempts, 0, 0, 6)]) (.trainingFail 0)
    (fun s => s.training 0 = true ∧ s.get F.olupStatusAttempts 0 < 7)
    (fun _ t => t.get F.olupStatusState 0 = 6 ∧ (t.portX 0).waitUntil = 64 * 150000 ∧ t.get F.olupStatusLinkAbsent 0 = 0) = true := by
  decide +kernel

theorem test_trainingFailLast : meets (st [(F.olupStatusState, 0, 0, 1), (F.olupStatusAttempts, 0, 0, 7)]) (.trainingFail 0)
    (fun s => s.training 0 = true ∧ s.get F.olupStatusAttempts 0 = 7)
    (fun _ t => t.get F.olupStatusAttempts 0 = 8 ∧ t.get F.olupStatusLinkAbsent 0 = 1) = true := by decide +kernel

theorem test_trainingStateExit : meets (st [(F.olupStatusState, 0, 0, 1)]) (.trainingStateExit ⟨0, 5⟩)
    (fun s => 1 ≤ s.get F.olupStatusState 0 ∧ s.get F.olupStatusState 0 ≤ 3 ∧ s.inTime 0 = true)
    (fun _ t => t.get F.olupStatusState 0 = 2 ∧ (t.portX 0).inverted = 5) = true := by decide +kernel

theorem test_trainingAlignExit : meets { st [(F.olupStatusState, 0, 0, 3)] with olu := { ports := [(0, { aligned := true })] } } (.trainingStateExit ⟨0, 0⟩)
    (fun s => s.get F.olupStatusState 0 = 3 ∧ s.inTime 0 = true ∧ (s.portX 0).aligned = true)
    (fun _ t => t.get F.olupStatusState 0 = 4) = true := by decide +kernel

theorem test_trainingTooLate : meets { st [(F.olupStatusState, 0, 0, 1)] with ticks := 2 ^ 40 } (.trainingStateExit ⟨0, 0⟩)
    (fun s => 1 ≤ s.get F.olupStatusState 0 ∧ s.get F.olupStatusState 0 ≤ 3 ∧ s.inTime 0 = false)
    (fun _ t => t.get F.olupStatusState 0 = 6) = true := by decide +kernel

theorem test_linkUp : meets { st [(F.olupStatusState, 1, 0, 4)] with olu := { ports := [(1, { bufferPartner := some 63, retry := [({ cls := 1 }, none)] })] } }
    (.linkUp 1 63 [(600, 200), (500, 200)])
    (fun s => s.get F.olupStatusState 1 = 4 ∧ 63 ≠ s.get F.oluChipId ∧ s.inTime 1 = true ∧ (s.portX 1).bufferPartner = some 63)
    (fun _ t => (t.portX 1).again = 1) = true := by decide +kernel

theorem test_linkUpOther : meets { st [(F.olupStatusState, 1, 0, 4)] with olu := { ports := [(1, { bufferPartner := some 62, txSeq := 9, retry := [({ cls := 1 }, none)] })] } }
    (.linkUp 1 63 []) (fun s => s.get F.olupStatusState 1 = 4 ∧ 63 ≠ s.get F.oluChipId ∧ s.inTime 1 = true ∧ (s.portX 1).bufferPartner ≠ some 63)
    (fun _ t => (t.portX 1).retry = [] ∧ (t.portX 1).txSeq = 0) = true := by decide +kernel

theorem test_linkConflict : meets (st [(F.olupStatusState, 1, 0, 4)]) (.linkUp 1 0 [])
    (fun s => s.get F.olupStatusState 1 = 4 ∧ 0 = s.get F.oluChipId ∧ s.inTime 1 = true)
    (fun _ t => t.get F.olupStatusState 1 = 7) = true := by decide +kernel

theorem test_linkDown : meets (lk 3 {} []) (.linkDown ⟨3, .signal 0⟩) (fun s => s.linkActive 3 = true ∧ s.loses 3 (.signal 0) = true
      ∧ Unclear s F.olupErrStatRetrains 3 0
      ∧ Unclear s F.olupStatusLinkDownSeen 3 0 ∧ s.get F.olupErrStatRetrains 3 + 1 < 2 ^ F.olupErrStatRetrains.width)
    (fun _ t => t.get F.olupStatusState 3 = 1 ∧ t.get F.olupErrStatRetrains 3 = 1) = true := by decide +kernel

/-- A frame with a payload of `l`, padded to 52 bytes. -/
def pad (f : Frame) (l : List Nat) : Frame := { f with payload := l ++ List.replicate (52 - l.length) 0 }

/-- The frame is accepted in sequence on port 3. -/
def taken (s : State) (f : Frame) : Bool := (s.rxFrame 3 (frameBytes f)).1 == some f

theorem test_linkFrame : meets (lk 3 {} []) (.linkFrame 3 (frameBytes (pad { cls := 0, creditClass := 3, credits := 255 } [])))
    (fun s => s.linkActive 3 = true ∧ frameOf (frameBytes (pad { cls := 0, creditClass := 3, credits := 255 } []))
      = some (pad { cls := 0, creditClass := 3, credits := 255 } [])) (fun _ t => (t.portX 3).creditMail = 64) = true := by decide +kernel

theorem test_retryTimeout : meets { lk 3 { retry := [({ cls := 1 }, none)], resends := 15 } [] with ticks := 300 } (.retryTimeout 3)
    (fun s => s.linkActive 3 = true ∧ (s.portX 3).retry ≠ [] ∧ 300 ≤ s.ticks - (s.portX 3).ackTick ∧ (s.portX 3).resends < 16)
    (fun _ t => (t.portX 3).again = 1 ∧ (t.portX 3).resends = 16) = true := by decide +kernel

theorem test_retryExhausted : meets { lk 3 { retry := [({ cls := 1 }, none)], resends := 16 } [] with ticks := 300 } (.retryTimeout 3)
    (fun s => s.linkActive 3 = true ∧ (s.portX 3).retry ≠ [] ∧ 300 ≤ s.ticks - (s.portX 3).ackTick ∧ 16 ≤ (s.portX 3).resends)
    (fun _ t => t.get F.olupStatusState 3 = 1 ∧ (t.portX 3).retry.length = 1) = true := by decide +kernel

theorem test_ackLinkFrame : meets (lk 3 { ackOwed := some 5 } []) (.ackLinkFrame 3)
    (fun s => s.linkActive 3 = true ∧ (s.portX 3).ackOwed ≠ none) (fun _ t => (t.portX 3).linkOwed = true) = true := by decide +kernel

theorem test_crcErr : meets (lk 3 {} []) (.crcErr ⟨3, List.replicate 64 1⟩) (fun s => s.linkActive 3 = true
      ∧ frameOf (List.replicate 64 1) = none ∧ Unclear s F.olupErrStatCrcErr 3 0 ∧ (s.portX 3).nakSent = false)
    (fun _ t => t.get F.olupErrStatCrcErr 3 = 1 ∧ (t.portX 3).nakOwed = true) = true := by decide +kernel

/-- CRC-32C of the nine digits "123456789" is 0xE3069283, a published check value. -/
theorem test_crc32C : crc32 polyC [0x31, 0x32, 0x33, 0x34, 0x35, 0x36, 0x37, 0x38, 0x39] = 0xE3069283 := by decide +kernel

theorem test_markerGroup : meets (lk 3 {} []) (.markerGroup 3 false ⟨17, 0⟩) (fun s => s.linkActive 3 = true ∧ Unclear s F.olupErrStatBipErr 3 0
      ∧ s.get F.olupErrStatBipErr 3 + 1 < 2 ^ F.olupErrStatBipErr.width)
    (fun _ t => t.get F.olupErrStatBipErr 3 = 1 ∧ t.get F.olupStatusState 3 = 1) = true := by decide +kernel

theorem test_sleepBlock : meets (lk 3 {} []) (.sleepBlock 3) (fun s => s.linkActive 3 = true)
    (fun _ t => t.get F.olupStatusRxAsleep 3 = 1) = true := by decide +kernel

theorem test_partnerWake : meets (lk 3 {} [(F.olupStatusRxAsleep, 3, 0, 1)]) (.partnerWake 3) (fun s => s.linkActive 3 = true)
    (fun _ t => t.get F.olupStatusRxAsleep 3 = 0) = true := by decide +kernel

theorem test_directionSleep : meets { lk 3 {} [(F.olupCtrlSleepEn, 3, 0, 1)] with ticks := 2 ^ 40 } (.directionSleep 3)
    (fun s => s.linkActive 3 = true ∧ s.bit F.olupCtrlSleepEn 3 = true ∧ s.bit F.olupStatusTxAsleep 3 = false
      ∧ (s.portX 3).wantsSlot = false ∧ s.bulkNext 3 = none ∧ s.get F.olupCtrlSleepIdle 3 ≤ s.ticks - (s.portX 3).lastSent)
    (fun _ t => t.get F.olupStatusTxAsleep 3 = 1 ∧ .oluIdle 3 ∈ t.out) = true := by decide +kernel

theorem test_directionWake : meets (lk 3 { linkOwed := true } [(F.olupStatusTxAsleep, 3, 0, 1)]) (.directionWake 3)
    (fun s => s.linkActive 3 = true ∧ s.bit F.olupStatusTxAsleep 3 = true ∧ (s.portX 3).wantsSlot = true)
    (fun _ t => t.get F.olupStatusTxAsleep 3 = 0 ∧ t.out = [.oluWake 3]) = true := by decide +kernel

theorem test_etcheckSend : meets (lk 3 {} [(F.clkEtcountCount, 0, 0, 258)]) (.etcheckSend 3)
    (fun s => s.linkActive 3 = true ∧ s.bit F.olupStatusTxAsleep 3 = false)
    (fun _ t => (t.portX 3).queue.map (fun x => (x.1.cls, x.1.sub)) = [(5, 0)]
      ∧ ((t.nextFrame 3).1.map fun f => (f.cls, f.seq, f.payload.drop 8)) = some (5, 0, [2, 1, 0, 0, 0, 0, 0, 0])) = true := by
  decide +kernel

/-- An owed NAK takes the next slot; a frame to be resent is the next one (R280). -/
theorem test_nextFrame : ((lk 3 { nakOwed := true, rxExpect := 0 } []).nextFrame 3).1.map (fun f => (f.cls, f.nak, f.ackSeq)) = some (0, true, 4095)
    ∧ ((lk 3 { again := 1, retry := [({ cls := 1, seq := 7 }, none)] } []).nextFrame 3).1.map (fun f => (f.cls, f.seq)) = some (1, 7) := by
  decide +kernel

theorem test_flagMsg : meets (lk 3 {} []) (.flagMsg 3 (frameBytes (pad { cls := 1 } [1, 0, 0, 0, 252, 0, 0, 0])))
    (fun s => taken s (pad { cls := 1 } [1, 0, 0, 0, 252, 0, 0, 0])
      ∧ flagEntries (pad { cls := 1 } [1, 0, 0, 0, 252, 0, 0, 0]) = [flagEntry 0 63] ∧ Alone s (.gf 63))
    (fun _ t => t.get F.oluGflagsGf = 2 ^ 63) = true := by decide +kernel

/-- A RAISE frame of chip 5: entry 15, tag 9, one second, SEQMASK 8 for chip 0. -/
def raiseFrame : Frame := pad { cls := 2, src := 5 } [0, 15, 9, 0, 1, 0, 0, 0, 0, 0, 0, 0, 0, 0, 0, 0, 8, 0, 0, 0, 0, 0, 0, 0]

theorem test_raiseMsg : meets (lk 3 {} []) (.raiseMsg 3 (frameBytes raiseFrame))
    (fun s => taken s raiseFrame ∧ ((s.rxFrame 3 (frameBytes raiseFrame)).2.raiseOf raiseFrame).mask = 8 ∧ Alone s (.raise 15)
      ∧ 5 ≠ s.get F.oluChipId ∧ field raiseFrame.payload 0 1 ≠ 1
      ∧ (s.rxFrame 3 (frameBytes raiseFrame)).2.station < instant 1 0 0 ∧ s.bit F.timeRaiseNsScheduled 0 15 = false)
    (fun _ t => t.get F.timeRaiseNsScheduled 0 15 = 1 ∧ t.get F.timeRaiseSecTag 0 15 = 9 ∧ t.get F.timeRaiseNsSeqmask 0 15 = 8) = true := by
  decide +kernel

/-- A MAIL frame of four bytes. -/
def mailFrame : Frame := pad { cls := 3 } [0, 0, 4, 0, 1, 2, 3, 4]

theorem test_mailMsg : meets (lk 3 {} []) (.mailMsg 3 (frameBytes mailFrame))
    (fun s => taken s mailFrame ∧ 0 = s.get F.oluChipId ∧ s.inboxRoom = true ∧ s.disp.heldMail = [])
    (fun _ t => t.get F.coreMailIdxProd = 1) = true := by decide +kernel

theorem test_mailHeld : meets (lk 3 {} [(F.coreMailIdxCons, 0, 0, 1)]) (.mailMsg 3 (frameBytes mailFrame))
    (fun s => taken s mailFrame ∧ 0 = s.get F.oluChipId ∧ s.inboxRoom = false) (fun _ t => t.disp.heldMail.length = 1) = true := by
  decide +kernel

/-- An ETCHECK of boundary 300. -/
def etFrame : Frame := pad { cls := 5 } [0, 0, 0, 0, 0, 0, 0, 0, 44, 1, 0, 0, 0, 0, 0, 0]

theorem test_etcheck : meets (lk 3 {} [(F.clkStatusTickAligned, 0, 0, 1), (F.clkEtcountCount, 0, 0, 300)])
    (.etcheck 3 (frameBytes etFrame) true) (fun s => taken s etFrame ∧ s.bit F.clkStatusTickAligned = true)
    (fun _ t => t.get F.olupTickchkValid 3 = 1 ∧ t.get F.olupTickchkEtDiff 3 = 0) = true := by decide +kernel

/-- A change of the addend of domain 1 to 5 at boundary 9. -/
def change : Frame :=
  pad { cls := 5, sub := 1 } [0, 0, 1, 0, 0, 0, 0, 0, 9, 0, 0, 0, 0, 0, 0, 0, 5, 0, 0, 0, 0, 0, 0, 0, 0, 0, 0, 0]

theorem test_changeMsg : meets (lk 3 {} [(F.clkEtcountCount, 0, 0, 9), (F.timeCtrlLockstep, 0, 0, 2), (F.timeStatusLockstepOk, 0, 0, 1)])
    (.changeMsg 3 (frameBytes change)) (fun s => taken s change ∧ s.isFollower = true ∧ s.time.joining = false
      ∧ s.bit F.timeStatusLockstepOk = true ∧ field change.payload 8 8 = s.get F.clkEtcountCount ∧ changeOf change = .addend 1 5)
    (fun _ t => t.get F.domAddendAddend 1 = 5) = true := by decide +kernel

theorem test_changeWaits : meets (lk 3 {} [(F.clkEtcountCount, 0, 0, 8), (F.timeCtrlLockstep, 0, 0, 2), (F.timeStatusLockstepOk, 0, 0, 1)])
    (.changeMsg 3 (frameBytes change)) (fun s => taken s change ∧ s.isFollower = true ∧ s.time.joining = false
      ∧ s.bit F.timeStatusLockstepOk = true ∧ s.get F.clkEtcountCount < field change.payload 8 8)
    (fun _ t => t.time.pendingChanges = [(9, .addend 1 5)]) = true := by decide +kernel

/-- The second half of a check message, of boundary 9: addends 5 and 6. -/
def checkB : Frame :=
  pad { cls := 5, sub := 3 } [0, 0, 0, 0, 0, 0, 0, 0, 9, 0, 0, 0, 0, 0, 0, 0, 5, 0, 0, 0, 6, 0, 0, 0, 0, 0, 0, 0, 0, 0, 0, 0, 0, 0, 0, 0, 0, 0, 0, 0]

theorem test_checkMsg : meets { lk 3 {} [(F.clkStatusTickAligned, 0, 0, 1), (F.timeCtrlLockstep, 0, 0, 2), (F.clkEtcountCount, 0, 0, 9)]
      with time := { joining := true, checkA := some (9, 0, 0) } } (.checkMsg 3 (frameBytes checkB))
    (fun s => taken s checkB ∧ s.isFollower = true ∧ s.time.joining = true ∧ s.bit F.clkStatusTickAligned = true
      ∧ s.time.checkA = some (field checkB.payload 8 8, 0, 0) ∧ s.time.pendingChanges = [])
    (fun _ t => t.get F.timeStatusLockstepOk = 1 ∧ t.get F.domAddendAddend 1 = 6) = true := by decide +kernel

theorem test_forwarding : meets (lk 3 {} [(F.oluRouteRoute, 0, 0, 4 * 2 ^ 20)]) (.forwarding 3 (frameBytes (pad { cls := 3, dst := 5, ttl := 2 } [])))
    (fun s => taken s (pad { cls := 3, dst := 5, ttl := 2 } []) ∧ 5 ≠ s.get F.oluChipId ∧ s.route 5 = some 0)
    (fun _ t => (t.portX 0).queue = [(pad { cls := 3, dst := 5, ttl := 1 } [], none)]) = true := by decide +kernel

theorem test_gfSet : meets (st []) (.gfSet 63 (.host 64)) (fun s => Alone s (.gf 63)) (fun _ t => t.get F.oluGflagsGf = 2 ^ 63) = true := by
  decide +kernel

theorem test_gfClear : meets (st [(F.oluGflagsGf, 0, 0, 3)]) (.gfClear 0 (.host 64)) (fun s => Alone s (.gf 0)) (fun _ t => t.get F.oluGflagsGf = 2) = true := by
  decide +kernel

theorem test_gfReset : meets (st [(F.oluGflagsGf, 0, 0, 3)]) (.gfReset (.host 64)) (fun _ => true)
    (fun _ t => t.get F.oluGflagsGf = 0 ∧ flagEntry 2 0 ∈ t.olu.flagOut) = true := by decide +kernel

theorem test_bulkGo : meets (st [(F.drmInfoState, 0, 0, 3), (F.oluBulkDstChip, 0, 3, 5), (F.oluRouteRoute, 0, 0, 4 * 2 ^ 20)])
    (.bulkGo 3 15) (fun s => s.bit F.oluBulkCtrlBusy 0 3 = false ∧ s.dramReady = true ∧ s.route 5 = some 0)
    (fun _ t => t.get F.oluBulkCtrlBusy 0 3 = 1 ∧ t.get F.oluBulkCtrlLength 0 3 = 16 ∧ t.olu.bulkTx.length = 1) = true := by decide +kernel

/-- The START of a transfer of 64 bytes with tag 2. -/
def bstart : Frame := pad { cls := 4, sub := 0, src := 5 } [2, 0, 0, 0, 0, 0, 0, 0, 0, 0, 0, 0, 64, 0, 0, 0]

theorem test_bulkStart : meets (lk 3 {} [(F.drmInfoState, 0, 0, 3), (F.oluBulkWinPages, 0, 0, 1)]) (.bulkStart 3 (frameBytes bstart))
    (fun s => taken s bstart ∧ 0 = s.get F.oluChipId ∧ s.dramReady = true
      ∧ s.inBulkWin (field bstart.payload 4 5) (field bstart.payload 12 4) = true)
    (fun _ t => t.olu.bulkRx = [⟨5, 2, 3, 0, 64, 0⟩]) = true := by decide +kernel

/-- Its second DATA frame: the last 16 bytes. -/
def bdata : Frame := pad { cls := 4, sub := 1, src := 5 } [2, 1, 0, 0, 9, 8, 7, 6, 5, 4, 3, 2, 1, 0, 0, 0, 0, 0, 0, 1]

theorem test_bulkData : meets { lk 3 {} [(F.drmInfoState, 0, 0, 3), (F.drmInfoFrames, 0, 0, 16)]
      with olu := { ports := [(3, {})], bulkRx := [⟨5, 2, 3, 0, 64, 1⟩] } } (.bulkData 3 (frameBytes bdata))
    (fun s => taken s bdata ∧ 0 = s.get F.oluChipId
      ∧ s.olu.bulkRx.find? (fun b => decide (b.chip = 5) && decide (b.tag = field bdata.payload 0 1 % 4) && decide (b.next = field bdata.payload 1 3))
        = some ⟨5, 2, 3, 0, 64, 1⟩ ∧ s.inDram 48 16 = true)
    (fun _ t => t.memBytes 48 3 = [9, 8, 7] ∧ t.memByte 63 = 1 ∧ t.memByte 64 = 0) = true := by decide +kernel

theorem test_bulkDone : meets (lk 3 {} [(F.oluBulkCtrlBusy, 0, 3, 1)]) (.bulkDone 3 (frameBytes (pad { cls := 4, sub := 2 } [3, 1, 0, 0])))
    (fun s => taken s (pad { cls := 4, sub := 2 } [3, 1, 0, 0]) ∧ 0 = s.get F.oluChipId ∧ s.bit F.oluBulkCtrlBusy 0 3 = true
      ∧ Unclear s F.oluBulkCtrlDone 0 3)
    (fun _ t => t.get F.oluBulkCtrlBusy 0 3 = 0 ∧ t.get F.oluBulkCtrlStatus 0 3 = 1 ∧ t.get F.oluBulkCtrlDone 0 3 = 1) = true := by decide +kernel
/-! ### Host rings and commands -/

/-- RING[q] ENABLED, of 64 entries and of type `ty`, as `x`. -/
def rg (q ty : Nat) (x : RingX) (l : List (Fld × Nat × Nat × Nat)) : State :=
  { st ([(F.ringStatusState, q, 0, 1), (F.ringCfgType, q, 0, ty), (F.ringCfgSize, q, 0, 6)] ++ l) with host := { base.host with rings := [(q, x)] } }

/-- RING[63], a COMMAND ring, with a fetched descriptor of words `w0` to `w3`. -/
def cmd (w0 w1 w2 w3 : Word) (l : List (Fld × Nat × Nat × Nat)) : State :=
  rg 63 0 { fetched := [⟨0, w0, w1, w2, w3⟩], readIdx := 1 } ((F.ringIndexProd, 63, 0, 1) :: l)

/-- The statuses of the descriptors written back. -/
def statuses (t : State) : List Nat :=
  t.out.filterMap fun o => match o with
    | .hostWrite _ [w, _, _, _] => some (bitsOf w 16 8)
    | _ => none

/-- The command begins on its descriptor, and what it leaves has the statuses `l`. -/
def runs (s : State) (c : Instr) (op : Nat) (l : List Nat) (e : State → Bool) : Bool :=
  meets s c (fun s => (s.beginCommand 63 op).isSome && s.host.rings.all fun x => x.2.barrier.isNone) fun _ t => statuses t = l && e t

theorem test_doorbell : meets (rg 63 0 {} [(F.ringIndexProd, 63, 0, 5), (F.ringIndexCons, 63, 0, 5)]) (.doorbell 63 4)
    (fun s => Alone s (.ring 63) ∧ 4 < s.ringSize 63 ∧ s.startProd 63 = 5 ∧ s.startCons 63 = 5 ∧ (5 + 64 - 5) % 64 + (4 + 64 - 5) % 64 ≤ 63)
    (fun _ t => t.get F.ringIndexProd 63 = 4) = true := by decide +kernel

theorem test_doorbellOverrun : meets (rg 63 0 {} [(F.ringIndexProd, 63, 0, 10), (F.ringIndexCons, 63, 0, 5)]) (.doorbell 63 5)
    (fun s => Alone s (.ring 63) ∧ s.startProd 63 = 10 ∧ s.startCons 63 = 5 ∧ 63 < (10 + 64 - 5) % 64 + (5 + 64 - 10) % 64 ∧ Unclear s F.ringStatusDbOverrun 63 0)
    (fun _ t => t.get F.ringStatusDbOverrun 63 = 1 ∧ t.get F.ringIndexProd 63 = 10) = true := by decide +kernel

theorem test_doorbellConsumer : meets (rg 0 1 {} [(F.ringIndexProd, 0, 0, 5)]) (.doorbell 0 5)
    (fun s => Alone s (.ring 0) ∧ hostProduced 1 = false ∧ s.startProd 0 = 5 ∧ s.startCons 0 = 0
      ∧ (5 + 64 - s.get F.ringIndexCons 0) % 64 ≤ (5 + 64 - s.get F.ringIndexCons 0) % 64)
    (fun _ t => t.get F.ringIndexCons 0 = 5 ∧ t.get F.ringIndexProd 0 = 5) = true := by decide +kernel

theorem test_doorbellTooFar : meets (rg 0 1 {} [(F.ringIndexProd, 0, 0, 5)]) (.doorbell 0 6)
    (fun s => Alone s (.ring 0) ∧ s.startProd 0 = 5 ∧ s.startCons 0 = 0 ∧ Unclear s F.ringStatusDbOverrun 0 0
      ∧ (5 + 64 - 0) % 64 < (6 + 64 - s.get F.ringIndexCons 0) % 64)
    (fun _ t => t.get F.ringIndexCons 0 = 0 ∧ t.get F.ringStatusDbOverrun 0 = 1) = true := by decide +kernel

theorem test_doorbellClamped : meets (rg 0 0 {} []) (.doorbell 0 64)
    (fun s => Alone s (.ring 0) ∧ s.ringSize 0 ≤ 64 ∧ Unclear s F.ringStatusDbClamped 0 0)
    (fun _ t => t.get F.ringStatusDbClamped 0 = 1) = true := by decide +kernel

theorem test_doorbellIgnored : meets (st []) (.doorbell 0 1) (fun s => Alone s (.ring 0) ∧ s.get F.ringStatusState 0 ≠ 1) (fun s t => t = s) = true := by
  decide +kernel

theorem test_ringEnable : meets (st [(F.ringIndexProd, 63, 0, 5)]) (.ringEnable 63 (.host 64))
    (fun s => Alone s (.ring 63) ∧ s.get F.ringStatusState 63 = 0 ∧ s.ras.doneDue = false)
    (fun _ t => t.get F.ringStatusState 63 = 1 ∧ t.get F.ringIndexProd 63 = 0) = true := by decide +kernel

theorem test_ringDisable : meets (rg 0 1 {} []) (.ringDisable 0 (.host 64)) (fun s => Alone s (.ring 0) ∧ s.get F.ringStatusState 0 = 1 ∧ hostProduced 1 = false)
    (fun _ t => t.get F.ringStatusState 0 = 0) = true := by decide +kernel

theorem test_ringDrain : meets (rg 0 0 { running := [⟨⟨0, 0, 0, 0, 0⟩, none⟩], fetched := [⟨1, 0, 0, 0, 0⟩] } []) (.ringDisable 0 (.host 64))
    (fun s => Alone s (.ring 0) ∧ s.get F.ringStatusState 0 = 1 ∧ hostProduced 0 = true ∧ (s.ringX 0).barrier = none)
    (fun _ t => t.get F.ringStatusState 0 = 2 ∧ (t.ringX 0).fetched = [] ∧ (t.ringX 0).running.length = 1) = true := by decide +kernel

theorem test_ringReset : meets (rg 0 0 { fetched := [⟨1, 0, 0, 0, 0⟩], gen := 3 } []) (.ringReset 0 (.host 64))
    (fun s => Alone s (.ring 0) ∧ s.host.rings.all fun x => x.2.barrier.isNone)
    (fun _ t => t.get F.ringStatusState 0 = 0 ∧ (t.ringX 0).fetched = [] ∧ (t.ringX 0).ending = true
      ∧ ((t.ringTick 0).ringX 0).gen = 4) = true := by decide +kernel

theorem test_descriptorRead : meets (rg 63 0 { readIdx := 63 } []) (.descriptorRead 63 1 2 3 4)
    (fun s => s.get F.ringStatusState 63 = 1 ∧ hostProduced (s.get F.ringCfgType 63) = true ∧ (s.ringX 63).readIdx ≠ s.get F.ringIndexProd 63)
    (fun _ t => (t.ringX 63).fetched = [⟨63, 1, 2, 3, 4⟩] ∧ (t.ringX 63).readIdx = 0) = true := by decide +kernel

theorem test_dmaError : meets (rg 63 0 { fetched := [⟨0, 0, 0, 0, 0⟩] } []) (.dmaError 63 ⟨1, .timeout⟩)
    (fun s => s.get F.ringStatusState 63 = 1 ∧ Unclear s F.ringStatusDmaErr 63 0)
    (fun _ t => t.get F.ringStatusDmaErr 63 = 1 ∧ t.get F.ringStatusState 63 = 0 ∧ (t.ringX 63).fetched = []) = true := by decide +kernel

theorem test_dmaWriteError : meets { rg 63 1 { fetched := [⟨0, 0, 0, 0, 0⟩] } [] with host := { rings := [(63, { fetched := [⟨0, 0, 0, 0, 0⟩] })] } }
    (.dmaError 63 ⟨2, .unsupported⟩)
    (fun s => s.get F.ringStatusState 63 = 1 ∧ s.busMaster = false ∧ Unclear s F.ringStatusDmaErr 63 0)
    (fun _ t => t.get F.ringStatusDmaErr 63 = 1 ∧ t.get F.ringStatusState 63 = 0 ∧ (t.ringX 63).fetched = []) = true := by decide +kernel

/-- RING[5] whose interrupt is due, its vector 63 masked (`m` = 1) or not, MSI-X enabled. -/
def irq (m : Nat) : State :=
  let t := rg 5 0 {} [(F.ringCfgIrqEn, 5, 0, 1), (F.ringCfgVector, 5, 0, 63), (F.ringIdxwbEn, 5, 0, 1), (F.ringIdxwbAddress, 5, 0, 512)]
  { t with host := { t.host with
    rings := [(5, { irqAsked := true, wrote := true, unsignalled := 2 })], msixTable := [(63, (77, 3, m))]
    pcie := { t.host.pcie with msixCtl := 2 } } }

theorem test_ringInterrupt : meets (irq 0) (.ringInterrupt 5)
    (fun s => s.interruptDue 5 = true ∧ (s.ringX 5).wrote = true ∧ s.bit F.ringIdxwbEn 5 = true ∧ s.busMaster = true)
    (fun _ t => (t.ringX 5).irqNow = true ∧ (t.ringX 5).unsignalled = 0
      ∧ (t.ringTick 5).out = [.hostWrite 4096 [0], .msix 63 77 3]) = true := by decide +kernel

theorem test_ringInterruptMasked : meets (irq 1) (.ringInterrupt 5) (fun s => s.interruptDue 5 = true)
    (fun _ t => (t.ringTick 5).host.msixPending = [63] ∧ (t.ringTick 5).out = [.hostWrite 4096 [0]]) = true := by decide +kernel

theorem test_completionRecord : meets { rg 4 1 {} [(F.ringCfgPair, 63, 0, 4)] with host := { base.host with rings := [(63, { recWait := some ⟨0, 0, 9, 0, 0⟩ })] } }
    (.completionRecord 63) (fun s => (s.ringX 63).recWait = some ⟨0, 0, 9, 0, 0⟩ ∧ s.get F.ringCfgPair 63 = 4 ∧ s.get F.ringCfgType 4 = 1
      ∧ s.get F.ringStatusState 4 = 1 ∧ s.ringRoom 4 = true ∧ s.busMaster = true ∧ s.completedBefore 63 = [])
    (fun _ t => (t.ringX 63).recWait = none ∧ t.get F.ringIndexProd 4 = 1 ∧ t.out.length = 1) = true := by decide +kernel

theorem test_pcieLink : meets (st []) (.pcieLink 4 16 true) (fun _ => true) (fun _ t => t.get F.hifLinkSpeed = 4 ∧ t.bit F.hifLinkDlUp = true) = true := by
  decide +kernel

theorem test_cmdNop : runs (cmd 0 1 2 3 []) (.cmdNop 63) 0 [0] (fun t => t.get F.ringIndexCons 63 = 1) = true := by decide +kernel

theorem test_unsupported : runs (cmd 0xFF 1 2 3 []) (.unsupportedOpcode 63) 0xFF [1]
    (fun t => t.out = [.hostWrite 0 [0x10100FF, 1, 2, 3]]) = true := by decide +kernel

theorem test_loadUnknown : runs (cmd 1 8 7 3 []) (.cmdTableLoad 63) 1 [1] (fun _ => true) = true := by decide +kernel

theorem test_cmdTableLoad : runs (cmd 1 4096 (4 + 15 * 65536 + 9 * 2 ^ 32) 0 []) (.cmdTableLoad 63) 1 []
    (fun t => t.out = [.hostRead 4096 8] ∧ (t.ringX 63).running.length = 1) = true := by decide +kernel

/-- RING[63] with the command of words `w0` to `w3` running. -/
def rn (w0 w1 w2 w3 : Word) : State := rg 63 0 { running := [⟨⟨0, w0, w1, w2, w3⟩, none⟩], readIdx := 1 } [(F.ringIndexProd, 63, 0, 1)]

theorem test_tableLoadData : meets (rn 1 4096 (4 + 15 * 65536 + 2 ^ 32) 0) (.tableLoadData 63 [7] true)
    (fun s => (s.runningCommand 63 1).isSome ∧ tableFields (4 + 15 * 65536 + 2 ^ 32) = (4, 0, 15, 1))
    (fun _ t => statuses t = [0] ∧ t.rd ⟨.seqMask, 0, 15⟩ = 7) = true := by decide +kernel

theorem test_tableLoadFails : meets (rn 1 4096 (4 + 15 * 65536 + 2 ^ 32) 0) (.tableLoadData 63 [] false) (fun s => (s.runningCommand 63 1).isSome)
    (fun _ t => statuses t = [0x14]) = true := by decide +kernel

theorem test_cmdBarrier : runs (cmd 0x0B 3 0 0 []) (.cmdBarrier 63) 0x0B [0] (fun _ => true) = true := by decide +kernel

theorem test_cmdBarrierWaits : runs (cmd 0x0B 1 0 0 [(F.ringStatusState, 0, 0, 1), (F.ringCfgSize, 0, 0, 6), (F.ringIndexProd, 0, 0, 2)]) (.cmdBarrier 63)
    0x0B [] (fun t => (t.ringX 63).barrier = some [(0, 2)]) = true := by decide +kernel

theorem test_cmdCommitAtPeg : runs (cmd 2 3 0 0 []) (.cmdCommitAtPeg 63) 2 [0] (fun t => t.get F.seqTsCtrlPending 3 = 0) = true := by decide +kernel

theorem test_cmdCommitWaits : runs (cmd 2 3 0 0 [(F.seqStatusState, 3, 0, 1)]) (.cmdCommitAtPeg 63) 2 []
    (fun t => t.get F.seqTsCtrlPending 3 = 1 ∧ (t.seqX 3).commits = [(0, some ⟨63, 0, 0⟩)]) = true := by decide +kernel

theorem test_cmdAbortNone : runs (cmd 6 0 0 0 []) (.cmdAbort 63) 6 [0] (fun _ => true) = true := by decide +kernel

theorem test_cmdAbortStopped : runs (cmd 6 8 0 0 []) (.cmdAbort 63) 6 [0] (fun _ => true) = true := by decide +kernel

theorem test_cmdAbort : runs (cmd 6 8 0 0 [(F.seqStatusState, 3, 0, 1)]) (.cmdAbort 63) 6 []
    (fun t => (t.seqX 3).pend = [⟨4, 0, some ⟨63, 0, 0⟩⟩] ∧ t.host.parts = [(⟨63, 0, 0⟩, [(3, none)])]) = true := by decide +kernel

theorem test_cmdPageMap : runs (cmd 3 32767 0x500000009 0x3000 []) (.cmdPageMap 63) 3 [0] (fun t => (t.entry 32767).crc = 5) = true := by decide +kernel

theorem test_cmdPageMapBusy : runs { cmd 3 4 0x500000009 0x3000 [] with page := { table := [(4, { state := 2 })] } } (.cmdPageMap 63) 3 [8]
    (fun t => (t.entry 4).crc = 0) = true := by decide +kernel

theorem test_cmdStreamPage : runs (cmd 4 4 0x500000009 0x3000 []) (.cmdStreamPage 63) 4 []
    (fun t => (t.entry 4).state = 1 ∧ (t.entry 4).host = 3 ∧ t.page.pushes = [(4, ⟨63, 0, 0⟩, false)] ∧ t.page.reqs.any fun x => x.page = 4) = true := by decide +kernel

theorem test_cmdStreamLoading : runs { cmd 4 4 0x500000009 0x3000 [] with page := { table := [(4, { state := 2 })] } } (.cmdStreamPage 63) 4 [8]
    (fun t => t.page.pushes = []) = true := by decide +kernel

theorem test_streamDescriptor : meets (rg 63 6 { fetched := [⟨0, 4, 4, 0x500000009, 0x3000⟩], readIdx := 1 } [(F.ringIndexProd, 63, 0, 1)])
    (.streamDescriptor 63) (fun s => (s.begin 63 6).isSome ∧ s.bit F.pgtStatusRebuildBusy = false ∧ (s.entry 4).resident = false)
    (fun _ t => t.page.pushes = [(4, ⟨63, 0, 0⟩, false)]) = true := by decide +kernel

theorem test_cmdRaise : runs (cmd 5 (9 * 2 ^ 48 + 1) (15 * 2 ^ 50 + 8 * 2 ^ 46) 0 []) (.cmdRaise 63) 5 [0]
    (fun t => t.get F.timeRaiseNsScheduled 0 15 = 1 ∧ t.get F.timeRaiseSecTag 0 15 = 9 ∧ t.get F.timeRaiseNsSeqmask 0 15 = 8) = true := by decide +kernel

theorem test_cmdRaisePast : runs (cmd 5 0 (15 * 2 ^ 50 + 8 * 2 ^ 46) 0 []) (.cmdRaise 63) 5 [0x0A] (fun t => t.get F.timeRaiseNsScheduled 0 15 = 0) = true := by
  decide +kernel

theorem test_cmdRaiseCancel : runs (cmd 5 (9 * 2 ^ 48) (15 * 2 ^ 50 + 2 ^ 54) 0 [(F.timeRaiseNsScheduled, 0, 15, 1), (F.timeRaiseSecTag, 0, 15, 9)])
    (.cmdRaise 63) 5 [0] (fun t => t.get F.timeRaiseNsScheduled 0 15 = 0) = true := by decide +kernel

theorem test_cmdRaiseNone : runs (cmd 5 (9 * 2 ^ 48) (15 * 2 ^ 50 + 2 ^ 54) 0 []) (.cmdRaise 63) 5 [0x0C] (fun _ => true) = true := by decide +kernel

theorem test_cmdSiteSet : runs (cmd 7 0 0 0 []) (.cmdSiteSet 63) 7 [0] (fun t => t.get F.siteStatusResult = 1) = true := by decide +kernel

theorem test_cmdCountersRead : runs (cmd 9 (128 + 256) 4096 0 [(F.bayFailCountCount, 7, 15, 3)]) (.cmdCountersRead 63) 9 [0]
    (fun t => t.get F.bayFailCountCount 7 15 = 0 ∧ t.out.length = 2) = true := by decide +kernel

theorem test_fuseArm : runs { cmd 0x0A (0x4C4B * 65536) 0 0 [] with ticks := 9 } (.fuseArm 63) 0x0A [0] (fun t => t.host.fuseArm = some 9) = true := by
  decide +kernel

theorem test_fuseArmWrong : runs (cmd 0x0A 0 0 0 []) (.fuseArm 63) 0x0A [0x12] (fun t => t.host.fuseArm = none) = true := by decide +kernel

theorem test_fuseArmLocked : runs (cmd 0x0A (0x4C4B * 65536) 0 0 [(F.rasStatusDebugLocked, 0, 0, 1)]) (.fuseArm 63) 0x0A [0x13] (fun _ => true) = true := by
  decide +kernel

theorem test_fuseConfirm : meets { cmd 0x0A (0x4C4B * 65536 + 1) 0 0 []
      with host := { base.host with rings := [(63, { fetched := [⟨0, 0x0A, 0x4C4B * 65536 + 1, 0, 0⟩], readIdx := 1 })], fuseArm := some 9 }, ticks := 150009 } (.fuseConfirm 63)
    (fun s => (s.beginCommand 63 0x0A).isSome ∧ s.bit F.rasStatusDebugLocked = false ∧ s.host.fuseArm = some 9 ∧ s.ticks ≤ 9 + 150000)
    (fun _ t => t.host.fuseBlow = [⟨63, 0, 0⟩]) = true := by decide +kernel

theorem test_fuseConfirmRefused : runs (cmd 0x0A (0x4C4B * 65536 + 1) 0 0 []) (.fuseConfirm 63) 0x0A [0x12] (fun t => t.host.fuseBlow = []) = true := by
  decide +kernel

theorem test_fuseConfirmLocked : runs (cmd 0x0A (0x4C4B * 65536 + 1) 0 0 [(F.rasStatusDebugLocked, 0, 0, 1)]) (.fuseConfirm 63) 0x0A [0x13] (fun _ => true) = true := by
  decide +kernel

theorem test_fuseLocked : meets { st [] with host := { base.host with fuseBlow := [⟨0, 0, 0⟩] } } .fuseLocked (fun s => s.host.fuseBlow ≠ [])
    (fun _ t => t.host.fuseBlow = [] ∧ t.get F.rasStatusDebugLocked = 1) = true := by decide +kernel

theorem test_cmdMail : runs (cmd 0x0C (31 * 2 ^ 24) 2 3 []) (.cmdMail 63) 0x0C [0] (fun t => t.get F.coreMailIdxProd = 1) = true := by decide +kernel

theorem test_cmdMailNoRoute : runs (cmd 0x0C (2 ^ 22 + 5 * 2 ^ 16) 2 3 []) (.cmdMail 63) 0x0C [0x0D] (fun t => t.get F.coreMailIdxProd = 0) = true := by
  decide +kernel

theorem test_mailDescriptor : meets (rg 63 9 { fetched := [⟨0, 0, 2 ^ 24, 0, 0⟩], readIdx := 1 } [(F.ringIndexProd, 63, 0, 1)]) (.mailDescriptor 63)
    (fun s => (s.begin 63 9).isSome ∧ s.inboxRoom = true ∧ s.disp.heldMail = []) (fun _ t => statuses t = [0]) = true := by decide +kernel

theorem test_timetx : meets (rg 63 7 { fetched := [⟨0, 0, 4096, 60, 0⟩], readIdx := 1 }
      [(F.ringIndexProd, 63, 0, 1), (F.timePortCfgEnable, 0, 0, 1), (F.timePortCfgTxRing, 0, 0, 63)]) (.timetxDescriptor ⟨63, List.replicate 60 258⟩)
    (fun s => s.bit F.timePortCfgEnable = true ∧ s.get F.timePortCfgTxRing = 63 ∧ (s.begin 63 7).isSome)
    (fun s t => t.out = [.hostRead 4096 60, .timeFrame (s.wireFrame (List.replicate 60 2))] ∧ t.time.txQueue.length = 1) = true := by decide +kernel

/-- A frame of 60 octets needs no padding: its FCS follows, CRC-32 of IEEE 802.3 (R322). The CRC-32 of "123456789" is
0xCBF43926, a published check value. -/
theorem test_wireFrame : (st []).wireFrame (List.replicate 60 7) = List.replicate 60 7 ++ bytesOf (crc32 polyE (List.replicate 60 7)) 4
    ∧ crc32 polyE [0x31, 0x32, 0x33, 0x34, 0x35, 0x36, 0x37, 0x38, 0x39] = 0xCBF43926 := by decide +kernel

theorem test_timerx : meets (rg 63 8 { fetched := [⟨0, 0, 4096, 0, 0⟩] } []) (.timerxDescriptor 63)
    (fun s => (s.ringX 63).fetched = [⟨0, 0, 4096, 0, 0⟩] ∧ s.get F.ringStatusState 63 = 1 ∧ s.get F.ringCfgType 63 = 8)
    (fun _ t => (t.ringX 63).ready = [⟨0, 0, 4096, 0, 0⟩] ∧ (t.ringX 63).fetched = []) = true := by decide +kernel

/-! ### Cores and the dispatcher -/

/-- The base state with CORE.STATUS written `w`: cores that run, registers set. -/
def cores (w : Word) (d : DispX) (l : List (Fld × Nat × Nat × Nat)) : State :=
  { st l (based w) with disp := d }

/-- Core 3 running thread 1,023, RUNNING there. -/
def running (l : List (Fld × Nat × Nat × Nat)) : State :=
  cores 8 { cores := [(3, { thread := some 1023 })] } ([(F.dispThrStateState, 0, 1023, 2), (F.dispThrStateCore, 0, 1023, 3)] ++ l)

theorem test_makeready : meets (cores 0 { ready := [(0, [5])] } [(F.dispThrStateState, 0, 1023, 3), (F.dispThrCfgPrio, 0, 1023, 0)]) (.makeready 1023 (.host 64))
    (fun s => Alone s (.thread 1023) ∧ s.get F.dispThrStateState 0 1023 = 3 ∧ s.get F.dispThrCfgPrio 0 1023 = 0)
    (fun _ t => t.get F.dispThrStateState 0 1023 = 1 ∧ t.readyList 0 = [5, 1023] ∧ t.get F.dispThrStateForced 0 1023 = 1) = true := by decide +kernel

theorem test_cancel : meets (cores 0 { ready := [(0, [5, 6])] } [(F.dispThrStateState, 0, 5, 1), (F.dispThrStateFlags, 0, 5, 9)]) (.cancel 5 (.host 64))
    (fun s => Alone s (.thread 5) ∧ s.get F.dispThrStateState 0 5 ≠ 0)
    (fun _ t => t.get F.dispThrStateState 0 5 = 0 ∧ t.readyList 0 = [6] ∧ t.get F.dispThrStateFlags 0 5 = 9) = true := by decide +kernel

theorem test_slotReset : meets (cores 0 { ready := [(0, [5, 6])] } [(F.dispThrStateState, 0, 5, 1), (F.dispThrStateFlags, 0, 5, 9), (F.dispThrStateLost, 0, 5, 1)])
    (.slotReset 5 (.host 64)) (fun s => Alone s (.thread 5))
    (fun _ t => t.rd ⟨.dispThrState, 0, 5⟩ = 0 ∧ t.readyList 0 = [6]) = true := by decide +kernel

theorem test_setflags : meets (st [(F.dispThrStateState, 0, 5, 3), (F.dispThrCfgWaitmask, 0, 5, 2 ^ 31)]) (.setflags 5 (2 ^ 31) (.host 64))
    (fun s => s.events = [] ∧ s.bit F.dispThrCfgWaitAll 0 5 = false)
    (fun _ t => t.get F.dispThrStateFlags 0 5 = 2 ^ 31 ∧ t.get F.dispThrStateState 0 5 = 1) = true := by decide +kernel

theorem test_clrflags : meets (st [(F.dispThrStateFlags, 0, 5, 2 ^ 31 + 1)]) (.clrflags 5 (2 ^ 31) (.host 64)) (fun s => s.events = [])
    (fun _ t => t.get F.dispThrStateFlags 0 5 = 1) = true := by decide +kernel

/-- No operation of a core is under way, and what the next one needs holds. -/
def clear3 (s : State) : Bool :=
  !(s.coreX 3).sampled && (s.coreX 3).queue.isEmpty && each 4 fun k => (s.coreX k).now.isNone

theorem test_setwait : meets (running []) (.setwait 3 (2 ^ 32 + 7)) (fun s => clear3 s = true ∧ s.runningOn 3 = some 1023)
    (fun _ t => t.ownActs.get F.dispThrCfgWaitmask 0 1023 = 7) = true := by decide +kernel

theorem test_takeflags : meets (running [(F.dispThrStateFlags, 0, 1023, 6), (F.dispThrCfgWaitmask, 0, 1023, 3)]) (.takeflags 3)
    (fun s => clear3 s = true ∧ s.runningOn 3 = some 1023) (fun _ t => (t.ownActs.coreX 3).result = 2 ∧ t.ownActs.get F.dispThrStateFlags 0 1023 = 4) = true := by decide +kernel

theorem test_queued : meets (cores 8 { cores := [(3, { thread := some 1023, sampled := true })] }
      [(F.dispThrStateState, 0, 1023, 2), (F.dispThrStateCore, 0, 1023, 3)]) (.setwait 3 7)
    (fun s => (s.coreX 3).sampled = true ∧ (s.coreX 3).queue.length < 16)
    (fun _ t => (t.coreX 3).queue.length = 1 ∧ t.get F.dispThrCfgWaitmask 0 1023 = 0) = true := by decide +kernel

theorem test_waitTimeout : meets { cores 0 { deadline := [(5, 9)] } [(F.dispThrStateState, 0, 5, 3)] with ticks := 9 } (.waitTimeout 5)
    (fun s => Alone s (.thread 5) ∧ s.get F.dispThrStateState 0 5 = 3 ∧ unitAt 0 s.disp.deadline 5 ≠ 0 ∧ unitAt 0 s.disp.deadline 5 ≤ s.ticks)
    (fun _ t => t.get F.dispThrStateState 0 5 = 1 ∧ t.get F.dispThrStateTimedout 0 5 = 1) = true := by decide +kernel

theorem test_thrCfg : meets (cores 0 { ready := [(0, [5, 6]), (63, [7])] } [(F.dispThrStateState, 0, 5, 1), (F.dispThrCfgPrio, 0, 5, 0)]) (.thrCfgWrite 5 63)
    (fun s => s.get F.dispThrStateState 0 5 = 1 ∧ s.get F.dispThrCfgPrio 0 5 ≠ 63)
    (fun _ t => t.readyList 63 = [7, 5] ∧ t.readyList 0 = [6] ∧ t.get F.dispThrCfgAffinity 0 5 = 15) = true := by decide +kernel

theorem test_yield : meets (cores 8 { ready := [(0, [5])], cores := [(3, { thread := some 1023 })] }
      [(F.dispThrStateState, 0, 1023, 2), (F.dispThrStateCore, 0, 1023, 3), (F.dispThrStateState, 0, 5, 1),
      (F.dispThrCfgPrio, 0, 1023, 0)]) (.yield 3)
    (fun s => clear3 s = true ∧ s.runningOn 3 = some 1023)
    (fun _ t => (t.ownActs.coreX 3).thread = some 5 ∧ t.ownActs.get F.dispThrStateState 0 1023 = 1 ∧ t.ownActs.readyList 0 = [1023]) = true := by decide +kernel

theorem test_switch : meets (running []) (.switch 3) (fun s => clear3 s = true ∧ s.runningOn 3 = some 1023)
    (fun _ t => (t.ownActs.coreX 3).thread = some 1023 ∧ t.ownActs.get F.dispThrStateState 0 1023 = 2) = true := by decide +kernel

theorem test_wait : meets { running [(F.dispThrCfgTimeout, 0, 1023, 2)] with ticks := 100 } (.waitOp 3)
    (fun s => clear3 s = true ∧ s.runningOn 3 = some 1023 ∧ s.satisfied 1023 = false ∧ s.disp.ready = [])
    (fun _ t => t.ownActs.get F.dispThrStateState 0 1023 = 3 ∧ unitAt 0 t.ownActs.disp.deadline 1023 = 612
      ∧ (t.ownActs.coreX 3).thread = none ∧ t.ownActs.get F.dispCoreStatIdle 0 3 = 1) = true := by decide +kernel

theorem test_waitSatisfied : meets (running [(F.dispThrStateFlags, 0, 1023, 6), (F.dispThrCfgWaitmask, 0, 1023, 2)]) (.waitOp 3)
    (fun s => clear3 s = true ∧ s.runningOn 3 = some 1023 ∧ s.satisfied 1023 = true)
    (fun _ t => t.ownActs.get F.dispThrStateState 0 1023 = 2 ∧ (t.ownActs.coreX 3).thread = some 1023) = true := by decide +kernel

theorem test_sliceEnd : meets (cores 8 { ready := [(0, [5])] } [(F.dispThrStateState, 0, 5, 1), (F.dispThrCfgAffinity, 0, 5, 8)]) (.sliceEnd 3)
    (fun s => s.coreRuns 3 = true ∧ s.bit F.dispCoreStatPending 0 3 = false ∧ s.migrationDue 3 = false ∧ (s.targetOf [] 3).isSome = true)
    (fun _ t => t.get F.dispCoreStatPending 0 3 = 1) = true := by decide +kernel

theorem test_migration : meets (running [(F.dispThrCfgAffinity, 0, 1023, 1)]) (.sliceEnd 3)
    (fun s => s.coreRuns 3 = true ∧ s.bit F.dispCoreStatPending 0 3 = false ∧ s.migrationDue 3 = true)
    (fun _ t => t.get F.dispCoreStatPending 0 3 = 1 ∧ (t.coreX 3).reason = 3) = true := by decide +kernel

/-- Flow 15 enabled, with items. -/
def flow (items : List Item) (l : List (Fld × Nat × Nat × Nat)) : State :=
  cores 0 { flows := [(15, { nextSeq := 600, items := items })] } ((F.dispFlowCfgEnable, 0, 15, 1) :: l)

theorem test_take : meets (flow [⟨511, 3, true, none⟩, ⟨512, 4194303, false, none⟩, ⟨513, 1, false, none⟩] []) (.take 3 15) (fun s => clear3 s)
    (fun _ t => (t.ownActs.coreX 3).result = 2 ^ 31 + 4194303 ∧ (t.ownActs.flowX 15).items.map (·.taken) = [true, true, false]) = true := by decide +kernel

theorem test_takeNone : meets (flow [⟨511, 3, true, none⟩] []) (.take 3 15) (fun s => clear3 s) (fun s t => (t.ownActs.coreX 3).result = 0 ∧ t.ownActs.flowX 15 = s.flowX 15) = true := by
  decide +kernel

theorem test_submit : meets (flow [] []) (.submit 15 (2 ^ 22 + 5) (.core 0))
    (fun s => Alone s (.flow 15) ∧ s.bit F.dispFlowCfgEnable 0 15 = true ∧ (s.flowX 15).items.length < 512)
    (fun _ t => (t.flowX 15).items = [⟨600, 5, false, none⟩] ∧ (t.flowX 15).nextSeq = 601) = true := by decide +kernel

theorem test_submitRefused : meets (st []) (.submit 15 5 (.host 0))
    (fun s => Alone s (.flow 15) ∧ s.bit F.dispFlowCfgEnable 0 15 = false ∧ Unclear s F.dispFlowStatRefused 0 15)
    (fun _ t => t.get F.dispFlowStatRefused 0 15 = 1) = true := by decide +kernel

theorem test_release : meets (flow [⟨513, 3, true, none⟩, ⟨514, 3, true, none⟩] []) (.release 3 15 1 0 true)
    (fun s => clear3 s = true ∧ s.get F.dispFlowCfgDest 0 15 = 0) (fun _ t => (t.ownActs.flowX 15).items.map (·.seq) = [514]) = true := by decide +kernel

theorem test_releaseRefused : meets (flow [⟨513, 3, false, none⟩] []) (.release 3 15 1 0 true)
    (fun s => clear3 s = true ∧ Unclear s F.dispFlowStatRefused 0 15) (fun _ t => t.ownActs.get F.dispFlowStatRefused 0 15 = 1 ∧ (t.ownActs.flowX 15).items.length = 1) = true := by
  decide +kernel

theorem test_flowOutput : meets (flow [⟨513, 3, true, some (some [1, 2, 3, 4])⟩] [(F.dispFlowCfgDest, 0, 15, 1), (F.dispFlowCfgRing, 0, 15, 63),
      (F.ringCfgType, 63, 0, 2), (F.ringStatusState, 63, 0, 1), (F.ringCfgSize, 63, 0, 6)]) (.flowOutput 15)
    (fun s => s.get F.dispFlowCfgDest 0 15 = 1 ∧ s.get F.dispFlowCfgRing 0 15 = 63 ∧ s.get F.ringCfgType 63 = 2 ∧ s.ringRoom 63 = true ∧ s.busMaster = true)
    (fun _ t => (t.flowX 15).items = [] ∧ t.out = [.hostWrite 0 [1, 2, 3, 4]]) = true := by decide +kernel

theorem test_flowEnable : meets (st []) (.flowEnable 15 (BitVec.ofNat 64 (127 * 2 ^ 41 + 63 * 16 + 4))) (fun s => s.before F.dispFlowCfgEnable 0 15 = 0 ∧ s.clk.was.flow.contains 15 = false)
    (fun _ t => t.get F.dispFlowCfgWorkerCount 0 15 = 64 ∧ t.get F.dispFlowCfgRing 0 15 = 63 ∧ t.get F.dispFlowCfgDest 0 15 = 1) = true := by decide +kernel

theorem test_flowReenable : meets (flow [] [(F.dispFlowCfgDest, 0, 15, 2)]) (.flowEnable 15 4) (fun s => s.before F.dispFlowCfgEnable 0 15 = 1)
    (fun _ t => t.get F.dispFlowCfgDest 0 15 = 2) = true := by decide +kernel

theorem test_flowDisable : meets (flow [⟨513, 3, true, none⟩] []) (.flowDisable 15 (.host 64)) (fun s => Alone s (.flow 15))
    (fun s t => t.get F.dispFlowCfgEnable 0 15 = 0 ∧ t.flowX 15 = s.flowX 15) = true := by decide +kernel

theorem test_flowReset : meets (flow [⟨513, 3, true, none⟩] []) (.flowReset 15 (.host 64)) (fun s => Alone s (.flow 15))
    (fun _ t => (t.flowX 15).items = [] ∧ (t.flowX 15).nextSeq = 0) = true := by decide +kernel

theorem test_coreRun : meets (running []) (.coreRun 7) (fun s => s.coreRuns 3 = true ∧ testBit 7 3 = false ∧ s.runningOn 3 = some 1023
      ∧ s.coreRuns 0 = false ∧ testBit 7 0 = true)
    (fun _ _ => true) = true := by decide +kernel

theorem test_firmwareLoad : meets (st [(F.coreLoadAddrAddress, 0, 0, 1024)]) (.firmwareLoad 515)
    (fun s => s.get F.coreStatusRunning = 0 ∧ s.get F.coreLoadCtrlStatus ≠ 1)
    (fun _ t => t.get F.coreLoadCtrlLength = 512 ∧ t.out = [.hostRead 4096 512]) = true := by decide +kernel

theorem test_firmwareRefused : meets (running []) (.firmwareLoad 512) (fun s => s.get F.coreStatusRunning ≠ 0)
    (fun _ t => t.get F.coreLoadCtrlStatus = 6 ∧ t.out = []) = true := by decide +kernel

theorem test_loadDone : meets (st [(F.coreLoadCtrlStatus, 0, 0, 1)]) (.loadDone [] false [] [])
    (fun s => s.get F.coreLoadCtrlStatus = 1) (fun _ t => t.get F.coreLoadCtrlStatus = 5) = true := by decide +kernel

theorem test_sendmail : meets (st []) (.sendmail 3 511) (fun s => clear3 s = true ∧ s.badSram (sramBase + 64 * 511) 64 = false
      ∧ field (s.sramBytes (sramBase + 64 * 511) 64) 3 1 % 64 = s.get F.oluChipId
      ∧ s.inboxRoom = true ∧ s.disp.heldMail = []) (fun _ t => t.get F.coreMailIdxProd = 1) = true := by decide +kernel

theorem test_sendmailHeld : meets (st [(F.coreMailIdxCons, 0, 0, 1)]) (.sendmail 3 0)
    (fun s => clear3 s = true ∧ s.badSram sramBase 64 = false ∧ field (s.sramBytes sramBase 64) 3 1 % 64 = s.get F.oluChipId ∧ s.inboxRoom = false)
    (fun _ t => t.disp.heldMail.map (·.data.length) = [48]) = true := by decide +kernel

theorem test_sendmailNoRoute : meets (cores 0 { sram := [(sramBase + 3, 5)] } []) (.sendmail 3 0)
    (fun s => clear3 s = true ∧ s.badSram sramBase 64 = false ∧ field (s.sramBytes sramBase 64) 3 1 % 64 = 5 ∧ 5 ≠ s.get F.oluChipId
      ∧ s.route 5 = none ∧ Unclear s F.coreStatusMailNoroute 0 0)
    (fun _ _ => true) = true := by decide +kernel

theorem test_inboxWrite : meets (cores 0 { heldMail := [⟨0, 0, 4, 0, [], .core 0⟩] } []) .inboxWrite
    (fun s => s.disp.heldMail = [⟨0, 0, 4, 0, [], .core 0⟩] ∧ s.inboxRoom = true)
    (fun _ t => t.disp.heldMail = [] ∧ t.get F.coreMailIdxProd = 1) = true := by decide +kernel

theorem test_loadWindow : meets { cores 0 { cores := [(3, { busy := 77 })] } [] with ticks := 2 ^ 40 } .loadWindow
    (fun s => s.get F.dispCtrlWindow ≤ s.ticks - s.disp.windowStart)
    (fun _ t => t.get F.dispCoreStatBusy 0 3 = 77 ∧ (t.coreX 3).busy = 0) = true := by decide +kernel


/-- Words of RISC-V instructions, from the encodings of the manual: `add x1, x2, x3`, `beq x1, x2, 8`. -/
theorem test_rvAdd : let s := cores 8 { cores := [(3, { cpu := { x := [(2, 5), (3, 7)] } })] } []
    (((s.rvExec 3 0x003100B3 0x003100B3 4).1.cpu 3).rx 1 = 12 ∧ (s.rvExec 3 0x003100B3 0x003100B3 4).2 = none) := by decide +kernel

theorem test_rvBeq : let s := cores 8 { cores := [(3, { cpu := { pc := 16 } })] } []
    ((s.rvExec 3 0x00208463 0x00208463 20).1.cpu 3).pc = 24 := by decide +kernel

/-- A store-conditional where the reservation is held stores and answers 0; where it is not, it answers 1 and stores nothing. -/
theorem test_rvSc : let s := cores 8 { cores := [(3, { cpu := { pc := 8, reserved := some (sramBase / 4) } }), (0, { cpu := { reserved := some (sramBase / 4) } })] } []
    ((s.rvSc 3 1 sramBase 7 4).1.sramBytes sramBase 4 = [7, 0, 0, 0] ∧ ((s.rvSc 3 1 sramBase 7 4).1.cpu 0).reserved = none
      ∧ ((s.rvSc 3 1 (sramBase + 4) 7 4).1.cpu 3).rx 1 = 1) := by decide +kernel

/-! ### Converters -/

/-- The base state at tick `k` with registers set and the converter of bay 7 as `x`. -/
def adcAt (k : Nat) (x : AdcX) (l : List (Fld × Nat × Nat × Nat)) : State :=
  { st l with ticks := k, adcs := [(7, x)] }

/-- Settings in force: fields of bay 7's staged registers. -/
def inForce (l : List (Fld × Nat × Nat × Nat)) : List (RegKey × Word) := (st l).stagedAdc 7

theorem test_sequenceTrigger : meets (adcAt 9 {} []) (.sequenceTrigger 7 (.seq 3))
    (fun s => s.calibrating 7 = false ∧ Alone s (.adcSeq 7) ∧ (s.adc 7).run = false ∧ (s.adc 7).urgent = none)
    (fun _ t => (t.adc 7).run = true ∧ t.get F.bayAdcStatState 7 = 1) = true := by decide +kernel

theorem test_triggerOverrun : meets (adcAt 9 { run := true, act := inForce [(F.bayAdcCfgRestart, 7, 0, 0)] } [(F.bayAdcCountsTrigOverrun, 7, 0, 1022)])
    (.sequenceTrigger 7 .hw)
    (fun s => s.calibrating 7 = false ∧ Alone s (.adcSeq 7) ∧ (s.adc 7).run = true ∧ (s.adc 7).get F.bayAdcCfgRestart 7 = 0
      ∧ Unclear s F.bayAdcCountsTrigOverrun 7 0)
    (fun s t => t.adc 7 = s.adc 7 ∧ t.get F.bayAdcCountsTrigOverrun 7 = 1023) = true := by decide +kernel

theorem test_adcStop : meets (adcAt 9 { run := true, visit := some ⟨3, 0, 0⟩ } [(F.bayAdcStatState, 7, 0, 1)]) (.adcStop 7 .hw)
    (fun s => Alone s (.adcSeq 7) ∧ (s.adc 7).urgent = none)
    (fun _ t => (t.adc 7).run = false ∧ (t.adc 7).visit = none ∧ t.get F.bayAdcStatState 7 = 0) = true := by decide +kernel

theorem test_urgentRequest : meets (adcAt 9 { run := true, visit := some ⟨3, 0, 0⟩ } []) (.urgentRequest 7 15 .hw)
    (fun s => s.calibrating 7 = false ∧ Alone s (.adcUrgent 7) ∧ (s.adc 7).urgent = none)
    (fun _ t => (t.adc 7).urgent = some 9 ∧ t.get F.bayAdcStatState 7 = 2 ∧ t.get F.bayAdcStatEntry 7 = 15) = true := by decide +kernel

theorem test_urgentBusy : meets (adcAt 9 { urgent := some 8 } []) (.urgentRequest 7 15 .hw)
    (fun s => s.calibrating 7 = false ∧ (s.adc 7).urgent = some 8 ∧ 8 < s.ticks ∧ Unclear s F.bayAdcCountsUrgentBusy 7 0)
    (fun s t => t.adc 7 = s.adc 7 ∧ t.get F.bayAdcCountsUrgentBusy 7 = 1) = true := by decide +kernel

theorem test_urgentCancel : meets (adcAt 9 { run := true, seqEntry := 3, urgent := some 8, visit := some ⟨15, 0, 0⟩ } []) (.urgentCancel 7 .hw)
    (fun s => Alone s (.adcUrgent 7) ∧ (s.adc 7).urgent = some 8)
    (fun _ t => (t.adc 7).urgent = none ∧ (t.adc 7).visit.map (·.entry) = some 3 ∧ t.get F.bayAdcStatState 7 = 1) = true := by decide +kernel

theorem test_urgentCancelIdle : meets (adcAt 9 { urgent := some 8, visit := some ⟨15, 0, 0⟩ } []) (.urgentCancel 7 .hw)
    (fun s => Alone s (.adcUrgent 7) ∧ (s.adc 7).urgent = some 8)
    (fun _ t => (t.adc 7).visit = none ∧ t.get F.bayAdcStatState 7 = 0) = true := by decide +kernel

theorem test_sequenceCommit : meets (adcAt 9 {} [(F.bayAdcEntGain, 7, 15, 3)]) (.sequenceCommit 7 .hw) (fun s => Alone s (.adcSeq 7))
    (fun _ t => (t.adc 7).get F.bayAdcEntGain 7 15 = 3) = true := by decide +kernel

theorem test_coefWrite : meets (adcAt 9 {} [(F.bayAdcCoefSelBank, 7, 0, 1), (F.bayAdcCoefSelIndex, 7, 0, 1023), (F.bayAdcCoefSelAutoinc, 7, 0, 1)])
    (.coefWrite 7 262143)
    (fun s => s.get F.bayAdcCoefSelBank 7 = 1 ∧ s.get F.bayAdcCoefSelIndex 7 = 1023 ∧ 1 ≠ s.get F.bayAdcStatBank 7 ∧ (s.adc 7).fade = none)
    (fun _ t => t.get F.bayAdcCoefSelIndex 7 = 0) = true := by decide +kernel

theorem test_coefRefused : meets (adcAt 9 {} []) (.coefWrite 7 5) (fun s => 0 = s.get F.bayAdcStatBank 7 ∧ Unclear s F.bayAdcStatCoefRefused 7 0)
    (fun s t => t.adc 7 = s.adc 7 ∧ t.get F.bayAdcStatCoefRefused 7 = 1) = true := by decide +kernel

theorem test_bankRequest : meets (adcAt 9 {} []) (.bankRequest 7 1) (fun s => (s.adc 7).fade = none)
    (fun _ t => (t.adc 7).bankWant = some 1) = true := by decide +kernel

theorem test_bankHeld : meets (adcAt 9 { fade := some (3, 64, 1) } []) (.bankRequest 7 0) (fun s => (s.adc 7).fade.isSome = true)
    (fun _ t => (t.adc 7).held = some 0 ∧ t.get F.bayAdcStatSwapHeld 7 = 1) = true := by decide +kernel

theorem test_refReady : meets (adcAt 9 {} [(F.bayAdcStatRefReady, 7, 0, 0)]) (.refReady 7) (fun s => s.get F.bayAdcStatRefReady 7 = 0)
    (fun _ t => t.get F.bayAdcStatRefReady 7 = 1) = true := by decide +kernel

theorem test_sliceRotation : meets (adcAt 9 { act := inForce [(F.bayAdcCfgBgcalEn, 7, 0, 1)] } []) (.sliceRotation 7 true)
    (fun s => (s.adc 7).get F.bayAdcCfgBgcalEn 7 = 1 ∧ s.get F.bayAdcStatDegraded 7 = 0)
    (fun _ t => t.get F.bayAdcStatSpareUsed 7 = 1 ∧ t.get F.bayAdcStatDegraded 7 = 0) = true := by decide +kernel

theorem test_sliceSecond : meets (adcAt 9 { act := inForce [(F.bayAdcCfgBgcalEn, 7, 0, 1)] } [(F.bayAdcStatSpareUsed, 7, 0, 1)]) (.sliceRotation 7 true)
    (fun s => (s.adc 7).get F.bayAdcCfgBgcalEn 7 = 1 ∧ s.get F.bayAdcStatDegraded 7 = 0)
    (fun _ t => t.get F.bayAdcStatDegraded 7 = 1) = true := by decide +kernel

theorem test_accClear : meets (adcAt 9 { accs := [(3, { sum := 7 })] } []) (.accClear 7 .hw) (fun s => Alone s (.adcSeq 7))
    (fun _ t => (t.adc 7).accs = []) = true := by decide +kernel

/-- A visit of entry 0 with one tag, all of whose output is due. -/
def outAt (count : Nat) (l : List (Fld × Nat × Nat × Nat)) : State :=
  adcAt 100000 { act := inForce [(F.bayAdcCfgLen, 7, 0, 2), (F.bayAdcEntCount, 7, 0, count)], run := true, visit := some ⟨0, 0, 0⟩, tags := [(2 ^ 41, 5)] } ((F.bayAdcStatRefReady, 7, 0, 1) :: l)

theorem test_adcOutput : meets (outAt 0 [(F.bayAdcWinOpen, 7, 0, 1)]) (.adcOutput 7 [] 8388607)
    (fun s => s.get F.bayAdcStatDegraded 7 = 0
      ∧ (s.adc 7).edges = [] ∧ (s.adc 7).fade = none ∧ (s.adc 7).bankWant = none ∧ (s.adc 7).urgent = none
      ∧ (match (s.adc 7).nextOutput 7 0 with
        | some (_, _, i, d) => decide (d ≤ s.ticks * tickUnits) && !s.suppressed 7 ⟨0, 0, 0⟩ i
        | none => false) = true)
    (fun _ _ => true) = true := by decide +kernel

theorem test_adcOutputNext : meets (outAt 1 []) (.adcOutput 7 [] 5)
    (fun s => (s.adc 7).get F.bayAdcEntCount 7 0 ≠ 0 ∧ (s.adc 7).get F.bayAdcEntCount 7 0 ≤ 1 ∧ 0 + 1 < (s.adc 7).get F.bayAdcCfgLen 7)
    (fun _ _ => true) = true := by decide +kernel

/-- The code of a sample is corrected with OFFSET and GAIN, here 0 and 1 (R454). -/
theorem test_adcCode : meets (adcAt 9 { visit := some ⟨3, 0, 0⟩ } []) (.adcOutput 7 [] (-5))
    (fun s => (s.adc 7).visit = some ⟨3, 0, 0⟩ ∧ s.get F.bayAdcStatDegraded 7 = 0 ∧ (s.adc 7).tags = [])
    (fun s t => (t.adc 7).codeAt = some ((s.adc 7).nextCode ⟨3, 0, 0⟩) ∧ (t.adc 7).codes.head? = some (-5 * 2 ^ 21)) = true := by decide +kernel

theorem test_windowClose : meets (adcAt 9 { edges := [(5, 1, some 77)], accs := [(15, { sum := -3, cnt := 2, least := -2, most := -1 })] }
      [(F.bayAdcWinOpen, 7, 0, 1), (F.bayAdcWinWindowSeq, 7, 0, 65535)]) (.adcWindow 7)
    (fun s => (s.adc 7).tags = [] ∧ (s.adc 7).edges = [(5, 1, some 77)] ∧ 5 ≤ s.ticks * tickUnits ∧ s.get F.bayAdcWinOpen 7 = 1)
    (fun _ t => t.get F.bayAdcWinOpen 7 = 0 ∧ t.get F.bayAdcWinWindowSeq 7 = 0 ∧ t.get F.bayAdcWinCloseCycle 7 = 77
      ∧ t.get F.bayAdcResSumSum 7 15 = 2 ^ 48 - 3 ∧ t.get F.bayAdcResCntCount 7 15 = 2 ∧ t.get F.bayAdcResSumValid 7 0 = 1) = true := by
  decide +kernel

theorem test_windowOpen : meets (adcAt 9 { edges := [(5, 0, some 77)] } []) (.adcWindow 7)
    (fun s => (s.adc 7).tags = [] ∧ (s.adc 7).edges = [(5, 0, some 77)] ∧ 5 ≤ s.ticks * tickUnits ∧ s.get F.bayAdcWinOpen 7 = 0)
    (fun _ t => t.get F.bayAdcWinOpen 7 = 1 ∧ (t.adc 7).opened = 77) = true := by decide +kernel

/-! ### Acquisition -/

/-- The base state at tick `k`, the acquisition engine of bay 7 in state `n` as `x`, registers set. -/
def acqAt (k n : Nat) (x : AcqX) (l : List (Fld × Nat × Nat × Nat)) : State :=
  { st ((F.bayAcqStatState, 7, 0, n) :: l) with ticks := k, acqs := [(7, x)] }

/-- Settings in force: fields of bay 7's acquisition registers. -/
def acqForce (l : List (Fld × Nat × Nat × Nat)) : List (RegKey × Word) := (st l).regs

theorem test_rearm : meets (acqAt 9 3 { cap := some { num := 1, post := 5 }, act := [] } [(F.bayAcqStatRshift, 7, 0, 3), (F.bayAcqTimeHoldoff, 7, 0, 77)])
    (.rearm 7 .hw) (fun s => Alone s (.acq 7))
    (fun _ t => t.acqState 7 = 1 ∧ (t.acq 7).cap = none ∧ t.get F.bayAcqStatRshift 7 = 0 ∧ (t.acq 7).get F.bayAcqTimeHoldoff 7 = 77) = true := by
  decide +kernel

theorem test_acqStop : meets (acqAt 9 2 {} []) (.acqStop 7 .hw) (fun s => Alone s (.acq 7) ∧ s.acqState 7 ≠ 0)
    (fun _ t => t.acqState 7 = 0) = true := by decide +kernel

theorem test_forceIdle : meets (acqAt 9 0 {} []) (.force 7 .hw) (fun s => Alone s (.acq 7) ∧ s.acqState 7 = 0) (fun s t => t = s) = true := by
  decide +kernel

theorem test_forceMissed : meets (acqAt 9 4 {} [(F.bayAcqCountsTrigMissed, 7, 0, 65534)]) (.force 7 .hw)
    (fun s => Alone s (.acq 7) ∧ s.acqState 7 = 4 ∧ Unclear s F.bayAcqCountsTrigMissed 7 0)
    (fun _ t => t.get F.bayAcqCountsTrigMissed 7 = 65535) = true := by decide +kernel

theorem test_force : meets (acqAt 9 3 { evs := [(0, 1, 1)] } []) (.force 7 .hw)
    (fun s => Alone s (.acq 7) ∧ 1 ≤ s.acqState 7 ∧ s.acqState 7 ≤ 3 ∧ ∀ e ∈ (s.acq 7).evs, e.1 ≠ 4)
    (fun s t => (t.acq 7).evs = [(0, 1, 1), (4, 9 * tickUnits, s.stamp)]) = true := by decide +kernel

theorem test_autoTrigger : meets (acqAt 9 2 { act := acqForce [(F.bayAcqCfgMode, 7, 0, 2), (F.bayAcqTimeAutoEt, 7, 0, 5)], since := 4 } []) (.autoTrigger 7)
    (fun s => Alone s (.acq 7) ∧ (s.acq 7).get F.bayAcqCfgMode 7 = 2 ∧ s.acqState 7 = 2 ∧ (s.acq 7).forced = false
      ∧ (s.acq 7).since + (s.acq 7).get F.bayAcqTimeAutoEt 7 ≤ s.ticks)
    (fun _ t => (t.acq 7).forced = true ∧ (t.acq 7).evs.length = 1) = true := by decide +kernel

theorem test_holdoffEnd : meets (acqAt 9 4 { act := acqForce [(F.bayAcqTimeHoldoff, 7, 0, 5)], since := 4 } []) (.holdoffEnd 7)
    (fun s => s.acqState 7 = 4 ∧ (s.acq 7).since + (s.acq 7).get F.bayAcqTimeHoldoff 7 ≤ s.ticks)
    (fun _ t => t.acqState 7 = 1 ∧ (t.acq 7).since = 9) = true := by decide +kernel

theorem test_pinEvent : meets (acqAt 9 1 { act := acqForce [(F.bayAcqCondType, 7, 3, 7), (F.bayAcqCondPinKind, 7, 3, 2), (F.bayAcqCondChan, 7, 3, 15)] } [])
    (.pinEvent 7 15 2)
    (fun s => Alone s (.acq 7) ∧ (s.acq 7).get F.bayAcqCondType 7 3 = 7 ∧ (s.acq 7).get F.bayAcqCondPinKind 7 3 = 2
      ∧ (s.acq 7).get F.bayAcqCondChan 7 3 = 15 ∧ 1 ≤ s.acqState 7 ∧ s.acqState 7 ≤ 3)
    (fun _ t => (t.acq 7).evs.map (·.1) = [3]) = true := by decide +kernel

theorem test_acqCountsClear : meets (acqAt 9 1 {} [(F.bayAcqCountsDropped, 7, 0, 5), (F.bayAcqCountsMissedSaturated, 7, 0, 1)]) (.acqCountsClear 7 .hw)
    (fun s => Alone s (.acq 7) ∧ ClearActs s (F.bayAcqCountsTrigMissed.key 7 0) F.bayAcqCountsTrigMissed.lo
      ∧ ClearActs s (F.bayAcqCountsDropped.key 7 0) F.bayAcqCountsDropped.lo) (fun _ t => t.get F.bayAcqCountsDropped 7 = 0 ∧ t.get F.bayAcqCountsMissedSaturated 7 = 0) = true := by
  decide +kernel

theorem test_acqRingWrite : meets (acqAt 9 0 {} [(F.bayAcqPtrWr, 7, 0, 5)]) (.acqRingWrite 7 (BitVec.ofNat 64 (2 ^ 40 + 31 * 2 + 1)))
    (fun s => s.get F.bayAcqRingEnable 7 = 0 ∧ s.before F.bayAcqRingEnable 7 = 0)
    (fun _ t => t.get F.bayAcqRingEnable 7 = 1 ∧ t.get F.bayAcqRingSize 7 = 28 ∧ t.get F.bayAcqRingBasePage 7 = 2 ^ 24
      ∧ t.get F.bayAcqPtrWr 7 = 0) = true := by decide +kernel

theorem test_acqRingWriteEnabled : meets (acqAt 9 0 {} [(F.bayAcqRingEnable, 7, 0, 1), (F.bayAcqPtrWr, 7, 0, 5)]) (.acqRingWrite 7 62)
    (fun s => s.get F.bayAcqRingEnable 7 = 1 ∧ s.before F.bayAcqRingEnable 7 = 1)
    (fun s t => t.get F.bayAcqRingEnable 7 = 0 ∧ t.get F.bayAcqRingSize 7 = s.get F.bayAcqRingSize 7 ∧ t.get F.bayAcqPtrWr 7 = 5) = true := by
  decide +kernel

/-! ### Time-interval units -/

/-- The base state at tick `k`, TIM[3] of bay 7 in state `n` as `x`, registers set. -/
def timAt (k n : Nat) (x : TimX) (l : List (Fld × Nat × Nat × Nat)) : State :=
  { st ((F.bayTimStatState, 7, 3, n) :: l) with ticks := k, tims := [(31, x)] }

theorem test_timArm : meets (timAt 9 0 {} [(F.bayTimCfgMode, 7, 3, 5), (F.bayTimStatDone, 7, 3, 1)]) (.timArm 31 .hw)
    (fun s => testBit (s.get F.calStatusBusy) (31 / 4) = false ∧ Alone s (.tim 31))
    (fun _ t => t.timState 31 = 2 ∧ t.timGet F.bayTimStatDone 31 = 0 ∧ (t.tim 31).get F.bayTimCfgMode 31 = 5 ∧ (t.tim 31).armTick = 9) = true := by
  decide +kernel

theorem test_timArmBusy : meets (timAt 9 0 {} [(F.calStatusBusy, 0, 0, 2 ^ 7), (F.bayTimStatBusyDiscard, 7, 3, 65535)]) (.timArm 31 .hw)
    (fun s => testBit (s.get F.calStatusBusy) (31 / 4) = true ∧ Unclear s F.bayTimStatBusyDiscard (31 / 4) (31 % 4))
    (fun s t => t.tim 31 = s.tim 31 ∧ t.timGet F.bayTimStatBusyDiscard 31 = 65535) = true := by decide +kernel

theorem test_timDisarm : meets (timAt 9 1 {} []) (.timDisarm 31 .hw) (fun s => Alone s (.tim 31) ∧ s.timState 31 = 1)
    (fun _ t => t.timState 31 = 0 ∧ t.timGet F.bayTimStatDone 31 = 0) = true := by decide +kernel

theorem test_timDisarmSeries : meets (timAt 9 2 { written := 7 } []) (.timDisarm 31 .hw) (fun s => Alone s (.tim 31) ∧ s.timState 31 = 2)
    (fun _ t => t.timState 31 = 0 ∧ t.timGet F.bayTimStatDone 31 = 1) = true := by decide +kernel

theorem test_timResultClear : meets (timAt 9 0 {} [(F.bayTimResultResult, 7, 3, 5), (F.bayTimStatDone, 7, 3, 1)]) (.timResultClear 31 .hw)
    (fun s => Alone s (.tim 31)) (fun _ t => t.timGet F.bayTimResultResult 31 = 0 ∧ t.timGet F.bayTimStatDone 31 = 0) = true := by decide +kernel

theorem test_timTimeout : meets (timAt 9 1 { act := acqForce [(F.bayTimTimeTimeout, 7, 3, 5)], armTick := 4, first := some 3 } []) (.timTimeout 31)
    (fun s => (s.tim 31).get F.bayTimTimeTimeout 31 ≠ 0 ∧ (s.tim 31).armTick + (s.tim 31).get F.bayTimTimeTimeout 31 ≤ s.ticks
      ∧ s.timState 31 = 1 ∧ (s.tim 31).get F.bayTimCfgMode 31 ≠ 4 ∧ Alone s (.tim 31))
    (fun _ t => t.timState 31 = 0 ∧ t.timGet F.bayTimStatTimedout 31 = 1 ∧ t.timGet F.bayTimResultResult 31 = 0) = true := by decide +kernel

/-- INTERVAL from a rising edge of source 0 to a rising edge of source 5, the first of each. -/
def interval : List (RegKey × Word) :=
  acqForce [(F.bayTimCfgMode, 7, 3, 0), (F.bayTimCfgStartSrc, 7, 3, 0), (F.bayTimCfgStopSrc, 7, 3, 5), (F.bayTimCfgStartEdge, 7, 3, 0),
    (F.bayTimCfgStopEdge, 7, 3, 0), (F.bayTimCfgNstart, 7, 3, 1), (F.bayTimCfgNstop, 7, 3, 1)]

theorem test_timEdgeHeld : meets (timAt 9 1 { act := interval } []) (.timEdge 31 0 true 70000)
    (fun s => s.timState 31 ≠ 0 ∧ (s.tim 31).held = [] ∧ each 4 fun q => (s.seqX q).due.isEmpty)
    (fun _ t => (t.tim 31).held = [(0, true, 70000)]) = true := by decide +kernel

theorem test_timEdgeNarrow : meets (timAt 9 1 { act := interval, held := [(0, true, 70000)] } []) (.timEdge 31 0 false 70255)
    (fun s => s.timState 31 ≠ 0 ∧ (s.tim 31).held = [(0, true, 70000)]) (fun _ t => (t.tim 31).held = [] ∧ (t.tim 31).first = none) = true := by
  decide +kernel

theorem test_timEdgeStart : meets (timAt 9 1 { act := interval, held := [(0, true, 70000)] } []) (.timEdge 31 0 false 70256)
    (fun s => s.timState 31 = 1 ∧ (s.tim 31).get F.bayTimCfgMode 31 = 0 ∧ (s.tim 31).get F.bayTimCfgStartSrc 31 = 0
      ∧ (s.tim 31).get F.bayTimCfgStopSrc 31 ≠ 0 ∧ s.position 31 0 false 70000 = 70000 ∧ (s.tim 31).due = none ∧ (s.tim 31).final = none
      ∧ outside (s.tim 31).lastStart ((s.tim 31).get F.bayTimTimeHoldoffStart 31) 70000 = true
      ∧ qualifies ((s.tim 31).get F.bayTimCfgStartEdge 31) true = true ∧ (s.tim 31).starts + 1 = (s.tim 31).get F.bayTimCfgNstart 31)
    (fun _ t => (t.tim 31).first = some 70000 ∧ (t.tim 31).starts = 1 ∧ (t.tim 31).due = none
      ∧ (t.tim 31).held = [(0, false, 70256)]) = true := by decide +kernel

theorem test_timEdgeStop : meets (timAt 9 1 { act := interval, armTick := 8, first := some 70001, held := [(5, true, 70000)] } []) (.timEdge 31 5 false 70256)
    (fun s => (s.tim 31).get F.bayTimCfgStartSrc 31 ≠ 5 ∧ (s.tim 31).get F.bayTimCfgStopSrc 31 = 5 ∧ s.position 31 5 true 70000 = 70000
      ∧ outside (s.tim 31).lastStop ((s.tim 31).get F.bayTimTimeHoldoffStop 31) 70000 = true ∧ (s.tim 31).final = none
      ∧ qualifies ((s.tim 31).get F.bayTimCfgStopEdge 31) true = true ∧ (s.tim 31).stops + 1 = (s.tim 31).get F.bayTimCfgNstop 31)
    (fun _ t => (t.tim 31).final = some 70000 ∧ (t.tim 31).due = some 20) = true := by decide +kernel

theorem test_timComplete : meets (timAt 9 1 { act := interval, first := some 70003, final := some 70000, due := some 9 } []) (.timComplete 31)
    (fun s => s.timState 31 = 1 ∧ Alone s (.tim 31) ∧ (s.tim 31).get F.bayTimCfgMode 31 = 0)
    (fun _ t => t.timState 31 = 0 ∧ t.timGet F.bayTimResultResult 31 = 2 ^ 64 - 3 * 65536 ∧ t.timGet F.bayTimStatOrder 31 = 1
      ∧ t.timGet F.bayTimAuxAux 31 = 70003) = true := by decide +kernel

theorem test_timCoincident : meets (timAt 9 1 { act := interval, first := some 70002, final := some 70000, due := some 9 } []) (.timComplete 31)
    (fun s => s.timState 31 = 1 ∧ Alone s (.tim 31) ∧ (s.tim 31).get F.bayTimCfgMode 31 = 0)
    (fun _ t => t.timGet F.bayTimResultResult 31 = 0 ∧ t.timGet F.bayTimStatCoincident 31 = 1) = true := by decide +kernel

theorem test_timCount : meets (timAt 9 1 { act := acqForce [(F.bayTimCfgMode, 7, 3, 4)], starts := 2 ^ 32, due := some 9 } []) (.timComplete 31)
    (fun s => s.timState 31 = 1 ∧ Alone s (.tim 31) ∧ (s.tim 31).get F.bayTimCfgMode 31 = 4)
    (fun _ t => t.timGet F.bayTimResultResult 31 = 4294967295 ∧ t.timGet F.bayTimStatDone 31 = 1) = true := by decide +kernel

/-- The ring of bay 7 enabled with room, local DRAM READY. -/
def ring7 : List (Fld × Nat × Nat × Nat) :=
  [(F.bayAcqRingEnable, 7, 0, 1), (F.bayAcqRingSize, 7, 0, 10), (F.bayAcqRingBasePage, 7, 0, 1), (F.bayAcqPtrWr, 7, 0, 1023),
    (F.bayAcqPtrRd, 7, 0, 5), (F.drmInfoState, 0, 0, 3), (F.drmInfoFrames, 0, 0, 256)]

theorem test_seriesEntry : meets (timAt 9 2 { queue := [⟨false, true, 5, false⟩, ⟨true, false, 6, false⟩, ⟨false, true, 7, false⟩] } ring7) (.seriesEntry 31)
    (fun s => s.timState 31 = 2 ∧ 3 ≤ (s.tim 31).queue.length ∧ (s.tim 31).lostNew = 0 ∧ s.bit F.bayAcqRingEnable (31 / 4) = true
      ∧ s.dramReady = true ∧ (s.get F.bayAcqPtrWr (31 / 4) + 1) % 2 ^ s.get F.bayAcqRingSize (31 / 4) ≠ s.get F.bayAcqPtrRd (31 / 4))
    (fun s t => (t.tim 31).queue = [] ∧ (t.tim 31).written = 3 ∧ t.get F.bayAcqPtrWr 7 = 0 ∧ t.memByte (4096 + 1023 * 32 + 8) = 22
      ∧ t.memByte 4095 = s.memByte 4095 ∧ ringOwner (.seriesEntry 31) = some 7) = true := by decide +kernel

theorem test_seriesEntryDisabled : meets (timAt 9 2 { queue := [⟨false, true, 5, false⟩, ⟨true, false, 6, false⟩, ⟨false, true, 7, false⟩] } []) (.seriesEntry 31)
    (fun s => ringOwner (.seriesEntry 31) = some 7 ∧ s.bit F.bayAcqRingEnable 7 = false) (fun s t => t.mem = s.mem) = true := by decide +kernel

/-! ### Local DRAM -/

/-- The base state with registers set, the controller in state `n` with 256 frames, and `d`. -/
def dram (n : Nat) (d : DramX) (l : List (Fld × Nat × Nat × Nat)) : State :=
  { st ((F.drmInfoState, 0, 0, n) :: (F.drmInfoFrames, 0, 0, 256) :: (F.drmCtrlEnable, 0, 0, 1) :: (F.mchCtrlTrain, 0, 0, 0) :: (F.mchCtrlTrain, 1, 0, 0) :: l) with dram := d }

theorem test_dramEnable : meets (st []) .dramEnable (fun s => s.get F.drmCtrlEnable = 0)
    (fun _ t => t.get F.drmCtrlEnable = 1 ∧ t.get F.drmInfoState = 1) = true := by decide +kernel

theorem test_dramInitDone : meets (dram 1 {} [(F.drmOrgDual, 0, 0, 1)]) .dramInitDone (fun s => s.get F.drmInfoState = 1)
    (fun _ t => t.get F.drmInfoState = 2 ∧ t.get F.mchCtrlTrain 0 = 1 ∧ t.get F.mchCtrlTrain 1 = 1) = true := by decide +kernel

theorem test_dramDisable : meets { dram 3 { poison := [5] } [] with page := { table := [(3, { state := 3, frame := 9 })] } } .dramDisable
    (fun s => s.get F.drmCtrlEnable = 1 ∧ s.disableOk = true)
    (fun _ t => t.get F.drmInfoState = 0 ∧ (t.entry 3).resident = false ∧ (t.entry 3).state = 1 ∧ t.dram.poison = []) = true := by decide +kernel

theorem test_dramDisableRefused : meets (dram 3 {} [(F.seqLogCfgEnable, 3, 0, 1)]) .dramDisable
    (fun s => s.get F.drmCtrlEnable = 1 ∧ s.disableOk = false ∧ Unclear s F.drmInfoDisableRefused 0 0)
    (fun _ t => t.get F.drmInfoDisableRefused = 1 ∧ t.get F.drmCtrlEnable = 1) = true := by decide +kernel

theorem test_trainRefused : meets (dram 3 {} [(F.seqStatusState, 3, 0, 4)]) (.train 1 true)
    (fun s => s.allStopped = false ∧ Unclear s F.mchCtrlTrainRefused 1 0)
    (fun _ t => t.get F.mchCtrlTrainRefused 1 = 1 ∧ t.get F.mchCtrlTrain 1 = 0) = true := by decide +kernel

theorem test_train : meets (dram 3 {} [(F.drmOrgDual, 0, 0, 1)]) (.train 1 true)
    (fun s => s.allStopped = true ∧ s.get F.drmInfoState = 3 ∧ 1 ∈ s.mchs) (fun _ t => t.get F.drmInfoState = 2) = true := by decide +kernel

theorem test_trainEnd : meets (dram 2 {} [(F.mchCtrlTrain, 1, 0, 1), (F.drmOrgDual, 0, 0, 1), (F.drmOrgDensity, 0, 0, 1)]) (.train 1 false)
    (fun s => s.get F.drmInfoState = 2 ∧ ∀ k ∈ s.mchs, k ≠ 1 → s.get F.mchCtrlTrain k = 0)
    (fun _ t => t.get F.drmInfoState = 3 ∧ t.get F.drmInfoFrames = 768) = true := by decide +kernel

theorem test_apply : meets (dram 2 { shadow := [(512, 70), (5, 9)] } [(F.mchCtrlTrain, 1, 0, 1)]) (.apply 1) (fun s => s.inTraining 1 = true ∧ (s.dram.shadow.map (·.1)).Nodup)
    (fun _ t => t.get F.mchDlyApplyPending 1 = 0 ∧ unitAt 64 t.dram.active 512 = 70 ∧ unitAt 64 t.dram.active 5 = 64) = true := by decide +kernel

theorem test_applyLater : meets (dram 3 {} []) (.apply 1) (fun s => s.inTraining 1 = false) (fun _ t => t.get F.mchDlyApplyPending 1 = 1) = true := by
  decide +kernel

theorem test_refresh : meets { dram 3 { waitRanks := [(0, [1])] } [(F.drmOrgRanks, 0, 0, 1), (F.mchDlyApplyPending, 0, 0, 1)] with ticks := 2 ^ 20 } (.refresh 0 1)
    (fun s => s.refreshes 0 1 = true ∧ s.refreshDue 0 1 = true ∧ s.bit F.drmPanicPanic = false ∧ s.get F.mchDlyApplyPending 0 = 1 ∧ unitAt [] s.dram.waitRanks 0 = [1])
    (fun _ t => t.get F.mchDlyApplyPending 0 = 0) = true := by decide +kernel

theorem test_refreshPostponed : meets { dram 3 {} [(F.drmPanicPanic, 0, 0, 1), (F.mchCtrlPostMax, 0, 0, 1)] with ticks := 2 ^ 20 } (.refresh 0 0)
    (fun s => s.refreshes 0 0 = true ∧ s.refreshDue 0 0 = true ∧ s.bit F.drmPanicPanic = true ∧ unitAt 0 s.dram.postponed 0 < s.get F.mchCtrlPostMax 0)
    (fun _ t => unitAt 0 t.dram.postponed 0 = 1) = true := by decide +kernel

/-- MCH[1] in training mode, registers set. -/
def training (l : List (Fld × Nat × Nat × Nat)) : State := dram 2 {} ((F.mchCtrlTrain, 1, 0, 1) :: l)

theorem test_mrw : meets (training [(F.mchTrainCmdMrAddr, 1, 0, 255), (F.mchTrainCmdMrData, 1, 0, 7)]) (.mrw 1) (fun s => s.inTraining 1 = true)
    (fun s t => t.get F.mchTrainResDone 1 = 1 ∧ t.get F.mchTrainResRefused 1 = 0 ∧ unitAt 0 t.dram.modeRegs (s.modeKey 1) = 7) = true := by decide +kernel

theorem test_mrr : meets (training []) (.mrr 1 256) (fun s => s.inTraining 1 = true)
    (fun _ t => t.get F.mchTrainResDone 1 = 1 ∧ t.get F.mchTrainResMrData 1 = 0) = true := by decide +kernel

theorem test_mrrRefused : meets (dram 3 {} []) (.mrr 1 255) (fun s => s.inTraining 1 = false)
    (fun _ t => t.get F.mchTrainResDone 1 = 1 ∧ t.get F.mchTrainResRefused 1 = 1) = true := by decide +kernel

theorem test_wlevel : meets (training []) (.wlevel 1 (2 ^ 40 - 1)) (fun s => s.inTraining 1 = true)
    (fun _ t => t.get F.mchTrainResFailbits 1 = 2 ^ 40 - 1) = true := by decide +kernel

theorem test_readCmp : meets (dram 3 {} []) (.readCmp 1 5) (fun s => s.canCompare 1 = true)
    (fun _ t => t.get F.mchTrainResDone 1 = 1 ∧ t.get F.mchTrainResFailbits 1 = 5) = true := by decide +kernel

theorem test_writeReadCmp : meets (training [(F.mchTrainAddrAddress, 1, 0, 16 * 16 * 67108864 - 1), (F.mchTrainPatPattern, 1, 0, 0x0000000F00000001)])
    (.writeReadCmp 1 0) (fun s => s.get F.mchTrainAddrAddress 1 / 64 * 64 + 64 ≤ s.installedFrames * 67108864)
    (fun s t => t.memByte (16 * 16 * 67108864 - 64) = 1 ∧ t.memByte (16 * 16 * 67108864 - 60) = 0xF0
      ∧ t.memByte (16 * 16 * 67108864 - 65) = s.memByte 0) = true := by decide +kernel

/-- A READY controller that scrubs. -/
def scrubbing (d : DramX) (l : List (Fld × Nat × Nat × Nat)) : State := dram 3 d ((F.drmScrubEn, 0, 0, 1) :: l)

theorem test_scrub : meets (scrubbing { scrubAt := 3 } [(F.mchEccStatCeCount, 0, 0, 5)]) (.patrolScrub true false)
    (fun s => 0 = s.mchOf (8 * 3) ∧ s.bit F.drmScrubEn = true ∧ s.dramReady = true ∧ s.get F.drmInfoSrState = 0 ∧ 8 * 3 < s.dramEnd
      ∧ Unclear s F.mchEccStatCeCount 0 0 ∧ Unclear s F.mchEccStatUeCount 0 0 ∧ 3 ∉ s.dram.poison ∧ s.get F.mchEccAddrUe 0 = 0
      ∧ s.get F.mchEccStatCeCount 0 + 1 < 2 ^ 32)
    (fun _ t => t.dram.scrubAt = 4 ∧ t.get F.mchEccAddrAddress 0 = 24 ∧ t.get F.mchEccStatCeCount 0 = 6) = true := by decide +kernel

theorem test_scrubUe : meets (scrubbing { scrubAt := 3 } [(F.mchEccStatUeCount, 0, 0, 65535)]) (.patrolScrub false true)
    (fun s => Unclear s F.mchEccStatCeCount 0 0 ∧ Unclear s F.mchEccStatUeCount 0 0)
    (fun _ t => t.dram.poison = [3] ∧ t.get F.mchEccAddrUe 0 = 1 ∧ t.get F.mchEccStatUeCount 0 = 65535) = true := by decide +kernel

/-- Beyond the last word of local DRAM the scrub goes on at the first (R431). -/
theorem test_scrubWraps : meets (scrubbing { scrubAt := 2 ^ 40 } []) (.patrolScrub false false) (fun s => ¬8 * s.dram.scrubAt < s.dramEnd ∧ 0 ∉ s.dram.poison)
    (fun s t => t = { s with dram := { s.dram with scrubAt := 1 } }) = true := by decide +kernel

theorem test_mr4Poll : meets { dram 3 {} [(F.drmOrgRanks, 0, 0, 0), (F.drmOrgDual, 0, 0, 0)] with ticks := 4800000 } (.mr4Poll [0, 1, 2])
    (fun s => s.dram.polled + 4800000 ≤ s.ticks ∧ 2 ≤ s.get F.drmInfoState) (fun _ t => t.dram.polled = 4800000 ∧ t.dram.fast = [0]) = true := by decide +kernel

theorem test_srEnter : meets (dram 3 {} [(F.drmSrEntries, 0, 0, 7)]) .srEnter
    (fun s => s.srOk = true ∧ s.get F.drmInfoSrState = 0 ∧ Unclear s F.drmSrEntries 0 0)
    (fun _ t => t.get F.drmInfoSrState = 2 ∧ t.get F.drmSrEntries = 8) = true := by decide +kernel

theorem test_autoSelfRefresh : meets { dram 3 { lastReq := 4 } [(F.drmCtrlAutoSr, 0, 0, 1), (F.drmSrIdleEt, 0, 0, 5)] with ticks := 9 } .autoSelfRefresh
    (fun s => s.srOk = true ∧ s.get F.drmInfoSrState = 0 ∧ Unclear s F.drmSrEntries 0 0 ∧ s.bit F.drmCtrlAutoSr = true
      ∧ s.dram.lastReq + s.get F.drmSrIdleEt ≤ s.ticks)
    (fun _ t => t.get F.drmInfoSrState = 2 ∧ t.dram.srSince = 9) = true := by decide +kernel

theorem test_srRefused : meets (dram 3 {} [(F.seqStatusState, 1, 0, 4)]) .srEnter (fun s => s.srOk = false ∧ Unclear s F.drmSrRefused 0 0)
    (fun _ t => t.get F.drmSrRefused = 1 ∧ t.get F.drmInfoSrState = 0) = true := by decide +kernel

theorem test_srExit : meets (dram 3 {} [(F.drmInfoSrState, 0, 0, 2)]) .srExit (fun s => s.get F.drmInfoSrState ≠ 0)
    (fun _ t => t.get F.drmInfoSrState = 0) = true := by decide +kernel

/-! ### Calibration -/

/-- A run of PROC `p` in procedure `k`. -/
def run (p k : Nat) : CalRun := { proc := p, step := k, batch := 0, seq := none, mode := 0, tset := none, period := 8192 }

/-- The base state with registers set and bay 7 BUSY with the run `r`. -/
def calm (r : CalRun) (l : List (Fld × Nat × Nat × Nat) := []) : State :=
  { st ((F.calStatusBusy, 0, 0, 128) :: l) with cal := { runs := [(7, r)] } }

/-- The command completes procedure `p` of bay 7, and the run then holds the values `l`. -/
def gathers (p : Nat) (c : Instr) (l : List (RegKey × Nat × Nat × Nat)) (s : State := calm (run p p)) : Bool :=
  meets s c (fun s => match s.calRun 7 with
    | some r => decide (r.step = p ∧ r.proc = p ∧ p ≠ 0x0F ∧ r.ready = false ∧ r.done.contains p = false)
    | none => false) fun _ t => match t.calRun 7 with
    | some r => decide (r.ready = true ∧ p ∈ r.done ∧ ∀ e ∈ l, e ∈ r.held)
    | none => false

theorem test_timOffset : gathers 1 (.timOffset 7 [(1, 2), (-40000, 40000), (0, 0), (-1, 3)])
    [heldFld F.bayTimOfsStart 7 1 0x8000, heldFld F.bayTimOfsStop 7 1 0x7FFF, heldFld F.bayTimOfsStart 7 3 0xFFFF] = true := by decide +kernel

theorem test_fineLinearity : gathers 2 (.fineLinearity 7 (List.replicate 127 0 ++ [9])) [heldFld F.bayFdlinPoints 7 127 9] = true := by decide +kernel

theorem test_driveDeskew : gathers 3 (.driveDeskew 7 (List.replicate 15 (0, 0) ++ [(5000, -5000)]) [])
    [heldFld F.bayDeskewDrv 7 15 0, heldFld F.bayDeskewDen 7 15 8191, heldFld F.bayDeskewDrv 7 0 4096] = true := by decide +kernel

theorem test_roundTrip : gathers 4 (.roundTrip 7 (4095 * 1024)) [heldFld F.bayCalBayRtd 7 0 4095, heldFld F.bayCalBayRtdFrac 7 0 0] = true := by decide +kernel

theorem test_compareDeskew : gathers 5 (.compareDeskew 7 (List.replicate 16 (96, 4106)) [] [])
    [heldFld F.bayDeskewCmph 7 15 4010, heldFld F.bayDeskewCmpl 7 15 0] (calm (run 5 5) [(F.bayCalBayRtdFrac, 7, 0, 10)]) = true := by decide +kernel

theorem test_adc : gathers 6 (.adc 7 (List.replicate 47 (0, 0) ++ [(-1, 5)]) []) [heldFld F.bayAdcCalOffset 7 47 0xFFFF, heldFld F.bayAdcCalGain 7 47 5] = true := by
  decide +kernel

theorem test_dclkDuty : gathers 7 (.dclkDuty 7 (-129) 127) [heldFld F.bayCalBayDutyA 7 0 0x80, heldFld F.bayCalBayDutyB 7 0 0x7F] = true := by decide +kernel

/-- What a command that meets a run of bay 7 may rely on. -/
def calmly (s : State) : Bool := (s.calRun 7).isSome && decide (Alone s (.bay 7) ∧ s.clearedNow (F.calStatusAborted.key 0 0) (F.calStatusAborted.lo + 7) = false)

theorem test_roundTripTimeout : meets (calm (run 15 4)) (.roundTripTimeout 7) calmly
    (fun _ t => t.calRun 7 = none ∧ t.get F.calBayStatCause 0 7 = 5 ∧ testBit (t.get F.calStatusAborted) 7 = true ∧ t.get F.calStatusBusy = 0) = true := by
  decide +kernel

theorem test_roundTripBeyond : meets (calm (run 4 4)) (.roundTrip 7 (4095 * 1024 + 1)) calmly
    (fun _ t => t.calRun 7 = none ∧ t.get F.calBayStatCause 0 7 = 5) = true := by decide +kernel

theorem test_calAbort : meets (calm (run 4 4)) (.calAbort 128 (.host 64)) calmly
    (fun _ t => t.calRun 7 = none ∧ t.get F.calBayStatCause 0 7 = 1 ∧ t.get F.calStatusBusy = 0) = true := by decide +kernel

theorem test_bayFull : meets (calm { run 15 3 with done := [1, 2, 3] }) (.bayFull 7) calmly
    (fun _ t => t.calRun 7 = some { run 15 4 with done := [1, 2, 3] }) = true := by decide +kernel

theorem test_bayFullEnd : meets (calm { run 15 7 with done := [7] }) (.bayFull 7) calmly
    (fun _ t => t.calRun 7 = some { run 15 7 with done := [7], ready := true }) = true := by decide +kernel

theorem test_calDone : meets (calm { run 7 7 with done := [7], ready := true, held := [heldFld F.bayCalBayDutyA 7 0 0x80, heldFld F.bayCalBayDutyB 7 0 0x7F] })
    (.calDone 7) calmly
    (fun _ t => t.calRun 7 = none ∧ t.get F.calStatusBusy = 0 ∧ t.get F.bayCalBayDutyA 7 = 0x80 ∧ t.get F.bayCalBayDutyB 7 = 0x7F
      ∧ run 7 7 = { run 7 7 with refDefault := none }) = true := by
  decide +kernel

theorem test_calRunTrim : runs (cmd 0x08 0x1000 0 0 [(F.domStatusState, 0, 0, 2), (F.domAddendAddend, 0, 0, 5), (F.domNominalNominal, 0, 0, 7)])
    (.cmdCalRun 63) 0x08 [0] (fun t => t.busMaster = true ∧ t.get F.calTimeTrimCapture = 2 ^ 32 - 2) = true := by decide +kernel

theorem test_calRunTrimLost : meets (cmd 0x08 0x1000 0 0 [(F.clkStatusRefLost, 0, 0, 1)]) (.cmdCalRun 63)
    (fun s => (s.beginCommand 63 0x08).isSome = true ∧ s.busMaster = true ∧ s.bit F.clkStatusRefLost = true) (fun _ t => statuses t = [7]) = true := by
  decide +kernel

theorem test_calRunUnknown : runs (cmd 0x08 0x0801 0 0 []) (.cmdCalRun 63) 0x08 [1] (fun _ => !calKnown 8) = true := by decide +kernel

theorem test_calRunRefused : meets (cmd 0x08 0x0780 0 0 [(F.clkStatusRefLost, 0, 0, 1)]) (.cmdCalRun 63)
    (fun s => (s.beginCommand 63 0x08).isSome = true ∧ calKnown 7 = true ∧ Alone s (.bay 7) ∧ s.calRun 7 = none ∧ s.calRefusal [7] ≠ 0)
    (fun _ t => statuses t = [7]) = true := by decide +kernel

theorem test_calRunAccepted : meets (cmd 0x08 0x0780 0 0 []) (.cmdCalRun 63)
    (fun s => (s.beginCommand 63 0x08).isSome = true ∧ calKnown 7 = true ∧ Alone s (.bay 7) ∧ s.calRun 7 = none ∧ s.calRefusal [7] = 0)
    (fun _ t => (t.calRun 7).map (·.proc) = some 7 ∧ testBit (t.get F.calStatusBusy) 7 = true ∧ t.get F.calBayStatProc 0 7 = 7) = true := by
  decide +kernel

theorem test_timeTrim : meets (st [(F.timeStatusSelected, 0, 0, 1), (F.domStatusState, 1, 0, 2), (F.domAddendAddend, 1, 0, 9), (F.domNominalNominal, 1, 0, 7)])
    .timeTrim (fun s => s.bit F.clkStatusRefLost = false ∧ s.get F.domStatusState (s.get F.timeStatusSelected) = 2) (fun _ t => t.get F.calTimeTrimCapture = 2) = true := by decide +kernel

theorem test_driftUpdate : meets { st [(F.thermTempTemp, 0, 7, 400)] with ticks := 1500000 } .driftUpdate
    (fun s => s.cal.driftAt + 1500000 ≤ s.ticks) (fun s t => t.cal.driftAt = s.ticks ∧ each 8 fun b => decide (t.get F.calBayStatDrift 0 b = unsigned 12 (s.drift b)
      ∧ t.get F.calBayStatTempWarn 0 b = if 20 < (s.drift b).natAbs then 1 else 0)) = true := by decide +kernel

theorem test_eyeMeasure : meets { st [(F.olupStatusState, 3, 0, 3)] with ticks := 9 } (.eyeMeasure 3 0xFFFFFFFF) (fun s => s.get F.olupStatusState 3 = 3)
    (fun _ t => t.get F.calOluEyeEye 0 3 = 0xFFFFFFFF ∧ t.get F.calOluEyeValid 0 3 = 1 ∧ (t.portX 3).eyeAt = 9) = true := by decide +kernel

theorem test_eyeMeasureActive : meets { st [(F.olupStatusState, 3, 0, 5), (F.olupStatusRxAsleep, 3, 0, 0)] with ticks := 150000009, olu := { ports := [(3, { eyeAt := 9 })] } }
    (.eyeMeasure 3 5) (fun s => s.linkActive 3 = true ∧ s.bit F.olupStatusRxAsleep 3 = false ∧ (s.portX 3).eyeAt + 150000000 ≤ s.ticks)
    (fun _ t => t.get F.calOluEyeEye 0 3 = 5 ∧ (t.portX 3).eyeAt = 150000009) = true := by decide +kernel

theorem test_storeCommit : meets { st [] with cal := { bankA := .image (2 ^ 32 - 1) 0 [] } } .storeCommit (fun s => s.cal.job = none)
    (fun _ t => t.get F.calStatusStoreState = 1 ∧ t.cal.job.map (·.gen) = some 0) = true := by decide +kernel

/-- A store job that makes generation 6. -/
def job : StoreJob := { gen := 6, stamp := 9, recs := [], batches := [] }

theorem test_storeWait : meets { st [] with cal := { job := some job } } .storeCommit (fun s => s.cal.job.isSome = true)
    (fun _ t => t.get F.calStatusStoreState = 2 ∧ t.cal.wait.isSome = true) = true := by decide +kernel

theorem test_calStore : meets { st [] with cal := { job := some job, bankA := .image 5 0 [] } } (.calStore true)
    (fun s => s.cal.wait = none ∧ s.cal.bank.gen?.getD 0 < 2 ^ 32 ∧ job.gen = (s.cal.bank.gen?.getD 0 + 1) % 2 ^ 32)
    (fun _ t => t.cal.job = none ∧ t.cal.bank = .image 6 9 [] ∧ t.get F.calStatusGeneration = 6 ∧ t.get F.calStatusActiveBank = 1) = true := by
  decide +kernel

theorem test_calStoreFail : meets { st [] with cal := { job := some job, bankA := .image 5 0 [] } } (.calStore false)
    (fun s => s.cal.wait = none ∧ Unclear s F.calStatusStoreFail 0 0)
    (fun s t => t.get F.calStatusStoreFail = 1 ∧ t.cal.bank = .image 5 0 [] ∧ t.cal.active = s.cal.active) = true := by decide +kernel

/-! ### Reliability, resets and temperatures -/

theorem test_seqReset : meets { st [(F.seqStatusState, 3, 0, 1)] with seqs := [(3, { acc := [(0, 5)] })] } (.seqReset 3 .hw) (fun s => Alone s (.seq 3))
    (fun _ t => t.seqState 3 = 0 ∧ t.get F.seqStatusStopReason 3 = 11 ∧ t.get F.seqStatusResetting 3 = 1 ∧ (t.seqX 3).acc = []
      ∧ unitAt 0 t.ras.resets 3 = 1500) = true := by decide +kernel

theorem test_seqResetDone : meets (st [(F.seqStatusResetting, 3, 0, 1)]) (.seqResetDone 3) (fun s => s.get F.seqStatusResetting 3 = 1)
    (fun _ t => t.get F.seqStatusResetting 3 = 0) = true := by decide +kernel

theorem test_bayReset : meets { st [] with adcs := [(7, { run := true })] } (.bayReset 7 (.host 64)) (fun s => Alone s (.bay 7))
    (fun _ t => t.adc 7 = {} ∧ t.acq 7 = {} ∧ t.fe 7 = {} ∧ t.calRun 7 = none) = true := by decide +kernel

theorem test_bayResetDone : meets { st [(F.rasStatusBayResetting, 0, 0, 128)] with cal := { bankA := .empty } } (.bayResetDone 7 2 [])
    (fun s => testBit (s.get F.rasStatusBayResetting) 7 = true)
    (fun _ t => t.get F.rasStatusBayResetting = 0 ∧ t.get F.bayAdcStatSpareUsed 7 = 1 ∧ t.get F.bayAdcStatDegraded 7 = 1) = true := by decide +kernel

/-- A ready device. -/
def ready (l : List (Fld × Nat × Nat × Nat)) : State := st ((F.rasStatusHostReady, 0, 0, 1) :: l)

/-- A reset leaves its code, an empty memory and no sequencer's record. -/
def wiped (c : Instr) (code : Nat) : Bool :=
  meets { ready [] with mem := [(5, 9)], seqs := [(0, {})] } c
    (fun s => s.get F.rasStatusHostReady = 1 ∧ s.ras.halted = false ∧ s.host.fuseBlow = [] ∧ s.cal.job = none)
    (fun _ t => t.mem = [] ∧ t.seqs = [] ∧ t.host.rings = [] ∧ t.get F.rasStatusHostReady = 0 ∧ t.get F.rasStatusLastReset = code)

theorem test_warm : wiped (.warm 0x5752) 2 = true := by decide +kernel

theorem test_functionLevelReset : wiped .functionLevelReset 3 = true := by decide +kernel

theorem test_d3hotToD0 : wiped .d3hotToD0 4 = true := by decide +kernel

theorem test_perst : wiped .perst 1 = true := by decide +kernel

theorem test_powerOn : wiped .powerOn 0 = true := by decide +kernel

theorem test_warmWithoutKey : meets (ready []) (.warm 0x5753) (fun _ => 0x5753 ≠ 0x5752) (fun s t => t = s) = true := by decide +kernel

theorem test_hostReady : meets { st [(F.rasStatusHostReady, 0, 0, 0)] with cal := { bankA := .empty } } (.hostReady [] [])
    (fun s => s.get F.rasStatusHostReady = 0 ∧ s.ras.halted = false) (fun _ t => t.get F.rasStatusHostReady = 1 ∧ t.ras.doneDue = true) = true := by
  decide +kernel

theorem test_railFault : meets (ready []) (.railFault 3) (fun s => s.ras.halted = false)
    (fun _ t => t.ras.halted = true ∧ t.get F.rasStatusFaultRail = 3 ∧ Output.thermtrip ∈ t.out) = true := by decide +kernel

theorem test_rasCe : meets (st [(F.rasErrStatCeCount, 0, 0, 7)]) (.rasUe 0 1 2 3)
    (fun s => Unclear s F.rasErrStatCeCount 0 0 ∧ s.get F.rasErrStatCeCount + 1 < 2 ^ 32) (fun _ t => t.get F.rasErrStatCeCount = 8) = true := by
  decide +kernel

theorem test_rasUe : meets (st [(F.rasErrStatUeCount, 0, 0, 65535)]) (.rasUe 7 1 2 3) (fun s => Unclear s F.rasErrStatUeCount 0 0)
    (fun _ t => t.get F.rasErrStatUeCount = 65535 ∧ t.get F.rasErrLogUnit = 7 ∧ t.get F.rasErrLogIndex = 1 ∧ t.get F.rasErrLogMemory = 2
      ∧ t.get F.rasErrLogAddress = 3 ∧ t.get F.rasErrLogValid = 1) = true := by decide +kernel

theorem test_rasUeSram : meets (st []) (.rasUe 7 0 0 5) (fun _ => true) (fun _ t => sramBase / 4 + 5 ∈ t.disp.badWords) = true := by
  decide +kernel

theorem test_tempUpdate : meets { st [] with ticks := 1500 } (.tempUpdate (List.replicate 15 400 ++ [-5000]))
    (fun s => s.ras.halted = false ∧ s.ras.sensedAt + 1500 ≤ s.ticks)
    (fun _ t => t.get F.thermTempTemp 0 15 = 2048 ∧ t.get F.thermTempTemp 0 0 = 400 ∧ t.ras.halted = false) = true := by decide +kernel

theorem test_tempTrip : meets { st [] with ticks := 1500 } (.tempUpdate (List.replicate 15 499 ++ [500]))
    (fun s => s.ras.halted = false ∧ s.ras.sensedAt + 1500 ≤ s.ticks)
    (fun _ t => t.ras.halted = true ∧ Output.thermtrip ∈ t.out) = true := by decide +kernel

theorem test_peakClear : meets (st [(F.thermTempTemp, 0, 15, 100), (F.thermTempPeak, 0, 15, 300)]) (.peakClear 15) (fun _ => true)
    (fun _ t => t.get F.thermTempPeak 0 15 = 100 ∧ t.get F.thermTempTemp 0 15 = 100) = true := by decide +kernel

/-! ### Front-end masters -/

/-- The base state at tick `k`, registers set, the master of bay 7 as `x`. -/
def fe (k : Nat) (x : FeX) (l : List (Fld × Nat × Nat × Nat)) : State := { st l with ticks := k, fes := [(7, x)] }

/-- List 63 of bay 7 runs. -/
def lists (k : Nat) (x : FeX) (l : List (Fld × Nat × Nat × Nat)) : State :=
  fe k x ((F.bayFeStatRunning, 7, 0, 1) :: (F.bayFeStatList, 7, 0, 63) :: l)

theorem test_feStart : meets (fe 9 {} []) (.feStart 7 63) (fun s => testBit (s.get F.calStatusBusy) 7 = false ∧ s.feRuns 7 = false)
    (fun _ t => t.feRuns 7 = true ∧ t.get F.bayFeStatList 7 = 63 ∧ (t.fe 7).at_ = 20) = true := by decide +kernel

theorem test_feStartQueued : meets (lists 9 {} []) (.feStart 7 5)
    (fun s => testBit (s.get F.calStatusBusy) 7 = false ∧ s.feRuns 7 = true ∧ s.bit F.bayFeStatQueued 7 = false)
    (fun _ t => t.bit F.bayFeStatQueued 7 = true ∧ t.get F.bayFeStatQueuedList 7 = 5) = true := by decide +kernel

theorem test_feStartOverrun : meets (lists 9 {} [(F.bayFeStatQueued, 7, 0, 1)]) (.feStart 7 5)
    (fun s => testBit (s.get F.calStatusBusy) 7 = false ∧ s.feRuns 7 = true ∧ s.bit F.bayFeStatQueued 7 = true ∧ Unclear s F.bayFeStatOverrun 7 0)
    (fun s t => t.get F.bayFeStatOverrun 7 = 1 ∧ t.fe 7 = s.fe 7) = true := by decide +kernel

theorem test_feStartCalibrating : meets (fe 9 {} [(F.calStatusBusy, 0, 0, 128), (F.bayFeStatOverrun, 7, 0, 65535)]) (.feStart 7 5)
    (fun s => testBit (s.get F.calStatusBusy) 7 = true ∧ Unclear s F.bayFeStatOverrun 7 0)
    (fun _ t => t.get F.bayFeStatOverrun 7 = 65535 ∧ t.feRuns 7 = false) = true := by decide +kernel

theorem test_feAbort : meets (lists 9 { begun := true } [(F.bayFeStatQueued, 7, 0, 1)]) (.feAbort 7) (fun s => s.feRuns 7 = true ∧ (s.fe 7).begun = true)
    (fun _ t => t.bit F.bayFeStatQueued 7 = false ∧ (t.fe 7).abort = true ∧ t.feRuns 7 = true) = true := by decide +kernel

theorem test_feAbortNow : meets (lists 9 { word := 31 } []) (.feAbort 7)
    (fun s => s.feRuns 7 = true ∧ (s.fe 7).begun = false ∧ (s.fe 7).word < 32 ∧ feOp (s.feWord 7) ≠ 1) (fun _ t => t.feRuns 7 = false) = true := by
  decide +kernel

theorem test_feLdataWrite : meets (fe 9 {} [(F.bayFeLselList, 7, 0, 63), (F.bayFeLselWord, 7, 0, 31)]) (.feLdataWrite 7 0x103F000000000000)
    (fun s => s.feListBusy 7 63 = false ∧ 63 = s.get F.bayFeLselList 7 ∧ 31 = s.get F.bayFeLselWord 7)
    (fun _ t => unitAt 0 (t.fe 7).lists 2047 = 0x1030000000000000) = true := by decide +kernel

theorem test_feLdataBusy : meets (lists 9 {} [(F.bayFeLselList, 7, 0, 63)]) (.feLdataWrite 7 5)
    (fun s => s.feListBusy 7 63 = true ∧ Unclear s F.bayFeStatListBusy 7 0)
    (fun s t => t.get F.bayFeStatListBusy 7 = 1 ∧ t.fe 7 = s.fe 7) = true := by decide +kernel

/-- The word 31 of list 63 that is `w`. -/
def word31 (w : Nat) : FeX := { lists := [(2047, w)], word := 31, at_ := 2 }

theorem test_feWrite : meets (lists 1000 (word31 0x1A30ABCDEF012345) [(F.bayFeCfgDiv, 7, 0, 2)]) (.feWrite 7 (2 ^ 48 + 7))
    (fun s => s.feDue 7 1 = true ∧ s.feWriteEnd 7 (s.feWord 7) < 2 * s.ticks + 2 ∧ (s.fe 7).abort = false ∧ testBit (s.feWord 7) 57 = true
      ∧ feBits (s.feWord 7) ≤ 48)
    (fun _ t => (t.fe 7).word = 32 ∧ t.get F.bayFeRxData 7 0 = 7 ∧ t.get F.bayFeRxValid 7 0 = 1 ∧ t.out.length = 1) = true := by decide +kernel

theorem test_feDelay : meets (lists 1 (word31 0x2000000000000005) []) (.feDelay 7) (fun s => s.feDue 7 2 = true)
    (fun _ t => (t.fe 7).begun = true ∧ (t.fe 7).wait = some 6) = true := by decide +kernel

theorem test_feDelayExpiry : meets (lists 6 { word31 0x2000000000000005 with begun := true, wait := some 6 } []) (.feDelayExpiry 7)
    (fun s => s.feRuns 7 = true ∧ (s.fe 7).begun = true ∧ (s.fe 7).abort = false ∧ feOp (s.feWord 7) = 2)
    (fun _ t => (t.fe 7).word = 32 ∧ (t.fe 7).at_ = 12) = true := by decide +kernel

theorem test_feTimeout : meets (lists 6 { word31 0x3000000000000005 with begun := true, wait := some 6 } []) (.feTimeout 7)
    (fun s => s.feRuns 7 = true ∧ feOp (s.feWord 7) = 3 ∧ s.bit F.bayFeStatQueued 7 = false ∧ Unclear s F.bayFeStatTimeout 7 0)
    (fun _ t => t.get F.bayFeStatTimeout 7 = 1 ∧ t.feRuns 7 = false) = true := by decide +kernel

theorem test_waitalert : meets (lists 1 (word31 0x3000000000000005) [(F.bayFeStatAlert, 7, 0, 1)]) (.waitalert 7)
    (fun s => s.feDue 7 3 = true ∧ (s.fe 7).at_ ≤ 2 * s.ticks ∧ (s.fe 7).abort = false ∧ s.bit F.bayFeStatAlert 7 = true)
    (fun _ t => (t.fe 7).word = 32) = true := by decide +kernel

theorem test_waitalertWaits : meets (lists 1 (word31 0x3000000000000000) []) (.waitalert 7)
    (fun s => s.feDue 7 3 = true ∧ (s.fe 7).at_ ≤ 2 * s.ticks ∧ s.bit F.bayFeStatAlert 7 = false)
    (fun _ t => (t.fe 7).begun = true ∧ (t.fe 7).wait = none) = true := by decide +kernel

theorem test_feListEnd : meets (lists 9 { word := 32 } []) (.feListEnd 7) (fun s => s.feRuns 7 = true ∧ 32 ≤ (s.fe 7).word ∧ s.bit F.bayFeStatQueued 7 = false)
    (fun _ t => t.feRuns 7 = false) = true := by decide +kernel

theorem test_feListEndQueued : meets (lists 9 { at_ := 2 } [(F.bayFeStatQueued, 7, 0, 1), (F.bayFeStatQueuedList, 7, 0, 62)]) (.feListEnd 7)
    (fun s => s.feDue 7 0 = true ∧ s.bit F.bayFeStatQueued 7 = true)
    (fun _ t => t.feRuns 7 = true ∧ t.get F.bayFeStatList 7 = 62 ∧ t.bit F.bayFeStatQueued 7 = false) = true := by decide +kernel

theorem test_feAlert : meets (fe 9 {} []) (.feAlert 7 false true) (fun s => s.feRuns 7 = false ∧ Unclear s F.bayFeStatAlertSeen 7 0)
    (fun _ t => t.bit F.bayFeStatAlert 7 = false ∧ t.get F.bayFeStatAlertSeen 7 = 1) = true := by decide +kernel

/-! ### Registers -/

/-- The BAR0 offset of a register. -/
def offOf (k : RegKey) : Nat := k.name.desc.base + k.inst * k.name.desc.istride + k.elem * k.name.desc.estride

/-- A device that is ready, registers set. -/
def regs (l : List (Fld × Nat × Nat × Nat)) : State := st ((F.rasStatusHostReady, 0, 0, 1) :: l)

/-- BAY_ACQ_CFG of bay 7, and its offset. -/
def acqCfg : RegKey := ⟨.bayAcqCfg, 7, 0⟩

theorem test_registerWrite : meets (regs []) (.registerWrite .host (offOf acqCfg) 8 (BitVec.ofNat 64 (2 ^ 64 - 1)))
    (fun s => s.hostReady = true ∧ inMsix (offOf acqCfg) = false ∧ offOf acqCfg % 8 = 0 ∧ regAt (offOf acqCfg) = some acqCfg ∧ s.inBayReset acqCfg = false
      ∧ acqCfg.name ∈ plainRegs)
    (fun s t => acqCfg.name.desc.fields.all (fun f => bitsOf (t.rd acqCfg) f.lo f.width ==
      (if f.access = .ro then bitsOf (s.rd acqCfg) f.lo f.width else f.clamp.apply f.width (2 ^ f.width - 1)))
      && decide (t.rd ⟨.bayAcqCfg, 6, 0⟩ = s.rd ⟨.bayAcqCfg, 6, 0⟩ ∧ t.mem = s.mem ∧ t.out = [])) = true := by decide +kernel

theorem test_registerWriteNotReady : meets (st [(F.rasStatusHostReady, 0, 0, 0)]) (.registerWrite (.core 3) (offOf acqCfg) 8 5)
    (fun s => s.hostReady = false ∧ OnBar0 (.core 3) ∧ inMsix (offOf acqCfg) = false ∧ offOf acqCfg % 8 = 0)
    (fun s t => t.regs = s.regs ∧ (t.halvesOf (.core 3)).held = none) = true := by decide +kernel

theorem test_registerWriteNowhere : meets (regs []) (.registerWrite .host 0x3FFF8 8 5) (fun _ => regAt 0x3FFF8 = none ∧ inMsix 0x3FFF8 = false)
    (fun s t => t = s) = true := by decide +kernel

theorem test_registerWriteBayReset : meets (regs [(F.rasStatusBayResetting, 0, 0, 128)]) (.registerWrite .host (offOf acqCfg) 8 5)
    (fun s => regAt (offOf acqCfg) = some acqCfg ∧ s.inBayReset acqCfg = true)
    (fun s t => t.rd acqCfg = s.rd acqCfg ∧ t.get F.clkPrecStatsSupersededCount = (writeEvents .host (offOf acqCfg) 5).length) = true := by decide +kernel

theorem test_registerRead : meets (regs [(F.bayAcqCfgMode, 7, 0, 2)]) (.registerRead .host (offOf acqCfg) 8)
    (fun s => inTest (offOf acqCfg) = false ∧ s.hostReady = true ∧ regAt (offOf acqCfg) = some acqCfg ∧ s.inBayReset acqCfg = false)
    (fun s t => t.halvesHost.lastRead = s.view acqCfg ∧ bitsOf t.halvesHost.lastRead 0 2 = 2) = true := by decide +kernel

theorem test_registerReadNotReady : meets (st [(F.rasStatusHostReady, 0, 0, 0), (F.bayAcqCfgMode, 7, 0, 2)]) (.registerRead .host (offOf acqCfg) 8)
    (fun s => s.hostReady = false) (fun _ t => t.halvesHost.lastRead = 0) = true := by decide +kernel

theorem test_readHalves : meets (regs [(F.bayAcqTimeHoldoff, 7, 0, 9)]) (.registerRead (.core 3) 0x3FFF8 4) (fun s => s.hostReady = true ∧ aligned 0x3FFF8 4 = true)
    (fun s t => t.halvesHost = s.halvesHost ∧ (t.halvesOf (.core 3)).lastRead = 0) = true := by decide +kernel

/-- A lower half read, a change in between, and the upper half as it was. -/
theorem test_capturedHalf : meets { regs [] with halvesCore := [(3, { captured := some (offOf acqCfg, 77) })] } (.registerRead (.core 3) (offOf acqCfg + 4) 4)
    (fun s => s.hostReady = true ∧ offOf acqCfg % 8 = 0) (fun _ t => (t.halvesOf (.core 3)).lastRead = 77) = true := by decide +kernel

theorem test_heldHalf : meets { regs [] with halvesHost := { held := some (offOf ⟨.bayTimTime, 7, 3⟩, 9) } }
    (.registerWrite .host (offOf ⟨.bayTimTime, 7, 3⟩ + 4) 4 5) (fun s => s.hostReady = true)
    (fun _ t => t.rd ⟨.bayTimTime, 7, 3⟩ = 0x500000009 ∧ t.halvesHost.held = none) = true := by decide +kernel

theorem test_unaligned : meets (regs []) (.registerRead .host 6 4) (fun _ => aligned 6 4 = false)
    (fun _ t => t.halvesHost.lastRead = 0) = true := by decide +kernel

theorem test_coreRefpath : meets (regs []) (.registerWrite (.core 1) (offOf ⟨.calRefpath, 0, 0⟩ + 4) 4 5)
    (fun _ => regAt (offOf ⟨.calRefpath, 0, 0⟩) = some ⟨.calRefpath, 0, 0⟩) (fun s t => t.regs = s.regs) = true := by decide +kernel

theorem test_configRetry : meets (st [(F.rasStatusHostReady, 0, 0, 0)]) (.registerRead .config 0 4) (fun s => s.hostReady = false)
    (fun s t => t = s.emit .configRetry) = true := by decide +kernel

theorem test_bar2Read : meets (regs []) (.registerRead .bar2 4096 4) (fun _ => true) (fun s t => t.halvesHost.lastRead = 0 ∧ t.regs = s.regs) = true := by
  decide +kernel

theorem test_bar2Nowhere : meets (regs []) (.registerWrite .bar2 8 4 5) (fun s => s.hostReady = true ∧ 8 % 4096 ≠ 0) (fun s t => t = s) = true := by
  decide +kernel

/-- BAY_FE_STAT of bay 7. -/
def feStat : RegKey := ⟨.bayFeStat, 7, 0⟩

theorem test_w1cClear : meets (regs [(F.bayFeStatTimeout, 7, 0, 1), (F.bayFeStatListBusy, 7, 0, 1), (F.bayFeStatRunning, 7, 0, 1)])
    (.w1cClear (offOf feStat) (BitVec.ofNat 64 (2 ^ F.bayFeStatTimeout.lo + 2 ^ F.bayFeStatRunning.lo)))
    (fun s => regAt (offOf feStat) = some feStat ∧ s.hostReady = true ∧ s.inBayReset feStat = false
      ∧ ClearActs s feStat F.bayFeStatTimeout.lo ∧ w1cAt feStat.name.desc.fields F.bayFeStatTimeout.lo = true ∧ w1cAt feStat.name.desc.fields F.bayFeStatRunning.lo = false)
    (fun _ t => t.get F.bayFeStatTimeout 7 = 0 ∧ t.get F.bayFeStatListBusy 7 = 1 ∧ t.get F.bayFeStatRunning 7 = 1
      ∧ t.clearedNow feStat F.bayFeStatTimeout.lo = true) = true := by decide +kernel

theorem test_w1cNotReady : meets (st [(F.bayFeStatTimeout, 7, 0, 1), (F.rasStatusHostReady, 0, 0, 0)]) (.w1cClear (offOf feStat) 255)
    (fun s => s.hostReady = false) (fun s t => t = s) = true := by decide +kernel

theorem test_w1cBayReset : meets (regs [(F.bayFeStatTimeout, 7, 0, 1), (F.rasStatusBayResetting, 0, 0, 128)])
    (.w1cClear (offOf feStat) (BitVec.ofNat 64 (2 ^ F.bayFeStatTimeout.lo))) (fun s => s.hostReady = true ∧ s.inBayReset feStat = true)
    (fun s t => t.rd feStat = s.rd feStat ∧ t.get F.clkPrecStatsSupersededCount = 1) = true := by decide +kernel

/-! ### Frames -/

theorem test_footprint : meets { regs [] with fes := [(7, { begun := true })] } (.feAlert 7 true false)
    (fun _ => footprint (.feAlert 7 true false) = some ([.bayFeStat], [.fes, .cal]) ∨ (footprint (.feAlert 7 true false)).isSome = true)
    (fun s t => t.rd ⟨.bayFeStat, 6, 0⟩ = s.rd ⟨.bayFeStat, 6, 0⟩ ∧ t.rd ⟨.seqStatus, 0, 0⟩ = s.rd ⟨.seqStatus, 0, 0⟩ ∧ t.mem = s.mem
      ∧ bayCommand (.feAlert 7 true false) = some 7) = true := by decide +kernel

theorem test_sequencerCommand : meets (st [(F.seqStallTimeEt, 2, 0, 7), (F.seqStallTimeEt, 3, 0, 8)]) (.stallTimeClear 2)
    (fun _ => sequencerCommand (.stallTimeClear 2) = some 2) (fun _ t => t.get F.seqStallTimeEt 2 = 0 ∧ t.get F.seqStallTimeEt 3 = 8) = true := by
  decide +kernel

/-- R481: the balls of every rail, counted over the array of R478 to R480. -/
theorem test_railBalls : [Rail.vddaPe, .vddaPll, .vddqMem, .vddIo].map
    (fun r => ((List.range 20).map fun k => ((List.range 24).filter fun c => ball (k + 15) (c + 13) = .rail r).length).sum) =
    [0, 6, 0, 12] := by decide

/-- R479, the example: CH[37] and CH[100]. -/
theorem test_ballOfExample : ballName 5 29 = "E29" ∧ ball 5 29 = .pe 0 37 false ∧ ball 5 30 = .pe 0 37 true ∧
    ballRowName 44 = "BF" ∧ ball 44 27 = .pe 3 100 false ∧ ball 44 28 = .pe 3 100 true := by decide

/-! ### Well-formed commands -/

/-- None of the commands is well-formed. -/
def ill (l : List Instr) : Bool := l.all fun c => !c.wellFormed

/-- Every command is well-formed. -/
def well (l : List Instr) : Bool := l.all fun c => c.wellFormed

theorem test_ill0 : ill [
    .registerWrite (.core 4) 0 8 0, .registerWrite .host 1048576 8 0, .registerWrite .host 0 9 0,
    .w1cClear 1048576 0, .w1cClear 4 0, .baymapCommit 0 (.oluel 4), .refclkDropout ⟨false, 8⟩, .refRestored 8,
    .alignArm false false (.core 4), .alignDisarm (.host 65), .alignmentEdge 8, .gpioEdge 32 false false false,
    .seqStart 4 .hw, .seqStart 0 (.pin 40), .seqResume 4 .hw, .seqResume 0 (.seq 4), .pauseRequest 4 .hw,
    .pauseRequest 0 (.oluel 4), .abort 4 .hw, .abort 0 (.core 4), .faultClear 4 .hw, .faultClear 0 (.host 65),
    .nopRec 4, .loopRec 4, .endloop 4, .repeatRec 4, .callRec 4, .ret 4, .jump 4, .jumpif 4, .matchRec 4, .flagset 4,
    .flagclr 4, .waitraise 4, .barrier 4, .trigger 4, .measure 4, .timarm 4, .feapply 4, .pagehint 4, .stopiffail 4,
    .halt 4, .endRec 4, .edgeApply 128 [] [], .compareResult 128, .pegWatchdog 4, .holdTimeout 4,
    .barrierRelease 4 0, .barrierRelease 0 8, .park 4, .tableCommit 4 .hw, .tableCommit 0 (.pin 40),
    .dclkStart 8 0 .hw, .dclkStart 0 2 .hw, .dclkStart 0 0 (.seq 4), .dclkDisable 8 0 .hw, .dclkDisable 0 2 .hw,
    .dclkDisable 0 0 (.oluel 4), .frequencyCommit 8 0 .hw, .frequencyCommit 0 2 .hw] = true := by decide +kernel

theorem test_ill1 : ill [
    .frequencyCommit 0 0 (.core 4), .edgeStatClear 8 0, .edgeStatClear 0 16, .failSnap 8, .failCountClear 8,
    .cmpStatClear 8, .mirror 3 0, .mirror 0 8, .logCfgWrite 4 0, .logStatClear 4, .captureBlockWrite 4,
    .capCfgWrite 4 0, .capStatClear 4, .winRead 32768, .winWrite 32768, .loadComplete 32768 [],
    .loadComplete 0 [256], .lookahead 4 [], .prefetchFill 4, .stallResume 4 0, .stallResume 0 8, .stallLimit 4,
    .underrunClear 4, .stallTimeClear 4, .lcacheStatClear 4, .retire 32, .siteEnd 32, .sampleOffset 2 0,
    .domainStep 2 0, .intClear 2, .domainSwitch 2, .servoHoldover 2, .rejectCountClear 2, .latch 8 0, .latch 0 3,
    .timeportRx [256] false 0, .timeportRx [] false 8, .ppsIn 8, .raiseFire 16, .oluEnable 4, .oluDisable 4,
    .retrain 4, .trainingAttempt 4, .trainingFail 4, .linkUp 4 0 (List.replicate 16 (0, 0)),
    .linkUp 0 64 (List.replicate 16 (0, 0)), .linkUp 0 0 [], .linkDown ⟨4, .alignment⟩, .linkDown ⟨0, .signal 4⟩,
    .linkDown ⟨0, .blocks 4 []⟩, .linkDown ⟨0, .blocks 0 [(4, 0)]⟩, .linkDown ⟨0, .blocks 0 [(0, 256)]⟩,
    .linkFrame 4 [], .retryTimeout 4, .flagMsg 4 [], .raiseMsg 4 [], .mailMsg 4 [], .bulkStart 4 [], .bulkData 4 [],
    .bulkDone 4 []] = true := by decide +kernel

theorem test_ill2 : ill [
    .etcheck 4 [] false, .etcheckSend 4, .changeMsg 4 [], .checkMsg 4 [], .directionSleep 4, .directionWake 4,
    .gfSet 64 .hw, .gfSet 0 (.host 65), .gfClear 64 .hw, .gfClear 0 (.pin 40), .gfReset (.seq 4), .bulkGo 4 0,
    .oluErrStatClear 4, .doorbell 64 0, .ringEnable 64 .hw, .ringEnable 0 (.oluel 4), .ringDisable 64 .hw,
    .ringDisable 0 (.core 4), .ringReset 64 .hw, .ringReset 0 (.host 65), .descriptorRead 64 0 0 0 0,
    .dmaError 64 ⟨1, .timeout⟩, .dmaError 0 ⟨4, .timeout⟩, .ringInterrupt 64, .completionRecord 64, .cmdNop 64,
    .cmdTableLoad 64, .tableLoadData 64 [] false, .cmdCommitAtPeg 64, .cmdPageMap 64, .cmdStreamPage 64,
    .cmdRaise 64, .cmdAbort 64, .cmdSiteSet 64, .cmdCalRun 64, .cmdCountersRead 64, .fuseArm 64, .fuseConfirm 64,
    .cmdBarrier 64, .cmdMail 64, .unsupportedOpcode 64, .streamDescriptor 64, .timetxDescriptor ⟨64, []⟩,
    .timetxDescriptor ⟨0, [256]⟩, .timerxDescriptor 64, .mailDescriptor 64, .ringStatusClear 64, .coreRun 16,
    .loadDone [256] false [] [], .loadDone [] false [256] [], .loadDone [] false [] [256], .makeready 1024 .hw,
    .makeready 0 (.pin 40), .cancel 1024 .hw, .cancel 0 (.seq 4), .setflags 1024 0 .hw, .setflags 0 4294967296 .hw,
    .setflags 0 0 (.oluel 4), .clrflags 1024 0 .hw, .clrflags 0 4294967296 .hw] = true := by decide +kernel

theorem test_ill3 : ill [
    .clrflags 0 0 (.core 4), .slotReset 1024 .hw, .slotReset 0 (.host 65), .setwait 4 0, .setwait 0 4294967296,
    .waitOp 4, .yield 4, .switch 4, .takeflags 4, .submit 16 0 .hw, .submit 0 4294967296 .hw, .submit 0 0 (.pin 40),
    .take 4 0, .take 0 16, .release 4 0 0 0 false, .release 0 16 0 0 false, .release 0 0 512 0 false,
    .release 0 0 0 65536 false, .sendmail 4 0, .sendmail 0 32768, .waitTimeout 1024, .sliceEnd 4,
    .thrCfgWrite 1024 0, .flowOutput 16, .flowEnable 16 0, .flowDisable 16 .hw, .flowDisable 0 (.seq 4),
    .flowReset 16 .hw, .flowReset 0 (.oluel 4), .flowStatClear 16, .thrWaitClear 1024, .adcOutput 8 [] 0,
    .sequenceTrigger 8 .hw, .sequenceTrigger 0 (.core 4), .adcStop 8 .hw, .adcStop 0 (.host 65), .accClear 8 .hw,
    .accClear 0 (.pin 40), .sequenceCommit 8 .hw, .sequenceCommit 0 (.seq 4), .urgentRequest 8 0 .hw,
    .urgentRequest 0 16 .hw, .urgentRequest 0 0 (.oluel 4), .urgentCancel 8 .hw, .urgentCancel 0 (.core 4),
    .bankRequest 8 0, .bankRequest 0 2, .coefWrite 8 0, .refReady 8, .sliceRotation 8 false, .adcWindow 8,
    .adcCountsClear 8, .rearm 8 .hw, .rearm 0 (.host 65), .acqStop 8 .hw, .acqStop 0 (.pin 40), .force 8 .hw,
    .force 0 (.seq 4), .autoTrigger 8, .holdoffEnd 8] = true := by decide +kernel

theorem test_ill4 : ill [
    .acqCountsClear 8 .hw, .acqCountsClear 0 (.oluel 4), .acqRingWrite 8 0, .timArm 32 .hw, .timArm 0 (.core 4),
    .timDisarm 32 .hw, .timDisarm 0 (.host 65), .timResultClear 32 .hw, .timResultClear 0 (.pin 40),
    .timEdge 32 0 false 0, .timComplete 32, .timTimeout 32, .seriesEntry 32, .timStatClear 32, .train 2 false,
    .apply 2, .mrw 2, .mrr 2 0, .mrr 0 256, .readCmp 2 0, .writeReadCmp 2 0, .wlevel 2 0, .refresh 2 0, .refresh 0 2,
    .eccStatClear 2, .timOffset 8 [], .fineLinearity 8 [], .driveDeskew 8 [] [], .roundTrip 8 0, .roundTripTimeout 8,
    .compareDeskew 8 [] [] [], .adc 8 [] [], .dclkDuty 8 0 0, .bayFull 8, .calDone 8, .calAbort 256 .hw,
    .calAbort 0 (.seq 4), .eyeMeasure 4 0, .seqReset 4 .hw, .seqReset 0 (.oluel 4), .seqResetDone 4, .bayReset 8 .hw,
    .bayReset 0 (.core 4), .bayResetDone 8 0 [], .warm 65536, .hostReady [0, 0, 0, 0, 0, 0, 0, 0, 0] [],
    .railFault 7, .rasUe 8 0 0 0, .tempUpdate (List.replicate 15 0), .peakClear 16, .feStart 8 0, .feStart 0 64,
    .feAbort 8, .feWrite 8 0, .feWrite 0 281474976710656, .feDelay 8, .feDelayExpiry 8, .waitalert 8, .feTimeout 8,
    .feListEnd 8] = true := by decide +kernel

theorem test_ill5 : ill [
    .feAlert 8 false false, .feLdataWrite 8 0, .feStatClear 8, .registerRead (.core 4) 0 8,
    .registerRead .host 1048576 8, .registerRead .host 0 9, .crcErr ⟨4, List.replicate 64 0⟩,
    .crcErr ⟨0, List.replicate 63 0⟩, .crcErr ⟨0, List.replicate 64 256⟩, .forwarding 4 [], .ackLinkFrame 4,
    .markerGroup 4 false ⟨0, 0⟩, .trainingStateExit ⟨4, 0⟩, .trainingStateExit ⟨0, 16⟩, .sleepBlock 4,
    .partnerWake 4, .pinEvent 8 0 1, .pinEvent 0 16 1, .pinEvent 0 0 0, .pinEvent 0 0 3, .loadErr 32768 2,
    .loadErr 0 1, .loadErr 0 5] = true := by decide +kernel

theorem test_well0 : well [
    .registerWrite .host 0 8 0, .w1cClear 0 0, .baymapCommit 0 .hw, .refclkDropout ⟨false, 0⟩, .refLost,
    .refRestored 0, .rootLock, .refmonClear, .alignArm false false .hw, .alignDisarm .hw, .syncDrive, .syncCapture,
    .alignmentEdge 0, .precStatsClear, .gpioEdge 0 false false false, .seqStart 0 .hw, .seqResume 0 .hw,
    .pauseRequest 0 .hw, .abort 0 .hw, .faultClear 0 .hw, .nopRec 0, .loopRec 0, .endloop 0, .repeatRec 0,
    .callRec 0, .ret 0, .jump 0, .jumpif 0, .matchRec 0, .flagset 0, .flagclr 0, .waitraise 0, .barrier 0,
    .trigger 0, .measure 0, .timarm 0, .feapply 0, .pagehint 0, .stopiffail 0, .halt 0, .endRec 0,
    .edgeApply 0 [] [], .compareResult 0, .pegWatchdog 0, .holdTimeout 0, .barrierRelease 0 0, .park 0,
    .tableCommit 0 .hw, .dclkStart 0 0 .hw, .dclkDisable 0 0 .hw, .frequencyCommit 0 0 .hw, .edgeStatClear 0 0,
    .failSnap 0, .failCountClear 0, .cmpStatClear 0, .logWrite, .mirror 0 0, .logCfgWrite 0 0, .logStatClear 0,
    .captureBlockWrite 0, .capCfgWrite 0 0, .capStatClear 0, .rebuild, .rebuildDone, .winRead 0, .winWrite 0,
    .loadStart, .loadComplete 0 [], .lookahead 0 [], .prefetchFill 0, .stallResume 0 0, .stallLimit 0,
    .underrunClear 0, .stallTimeClear 0, .lcacheStatClear 0] = true := by decide +kernel

theorem test_well1 : well [
    .loadStatClear, .pgtErrStatClear, .siteCommit, .retire 0, .siteEnd 0, .sampleOffset 0 0, .domainStep 0 0,
    .intClear 0, .domainSwitch 0, .servoHoldover 0, .rejectCountClear 0, .latch 0 0, .checkMessageSend,
    .lockstepLost, .timeportRx [] false 0, .ppsOut, .ppsIn 0, .raiseFire 0, .oluEnable 0, .oluDisable 0, .retrain 0,
    .trainingAttempt 0, .trainingFail 0, .linkUp 0 0 (List.replicate 16 (0, 0)), .linkDown ⟨0, .alignment⟩,
    .linkFrame 0 [], .retryTimeout 0, .flagMsg 0 [], .raiseMsg 0 [], .mailMsg 0 [], .bulkStart 0 [], .bulkData 0 [],
    .bulkDone 0 [], .etcheck 0 [] false, .etcheckSend 0, .changeMsg 0 [], .checkMsg 0 [], .directionSleep 0,
    .directionWake 0, .gfSet 0 .hw, .gfClear 0 .hw, .gfReset .hw, .bulkGo 0 0, .oluErrStatClear 0, .doorbell 0 0,
    .ringEnable 0 .hw, .ringDisable 0 .hw, .ringReset 0 .hw, .descriptorRead 0 0 0 0 0, .dmaError 0 ⟨1, .timeout⟩,
    .ringInterrupt 0, .completionRecord 0, .cmdNop 0, .cmdTableLoad 0, .tableLoadData 0 [] false, .cmdCommitAtPeg 0,
    .cmdPageMap 0, .cmdStreamPage 0, .cmdRaise 0, .cmdAbort 0, .cmdSiteSet 0, .cmdCalRun 0, .cmdCountersRead 0,
    .fuseArm 0, .fuseConfirm 0, .fuseLocked, .cmdBarrier 0, .cmdMail 0, .unsupportedOpcode 0, .streamDescriptor 0,
    .timetxDescriptor ⟨0, []⟩, .timerxDescriptor 0, .mailDescriptor 0, .eventStatClear, .ringStatusClear 0] = true := by decide +kernel

theorem test_well2 : well [
    .coreRun 0, .firmwareLoad 0, .loadDone [] false [] [], .makeready 0 .hw, .cancel 0 .hw, .setflags 0 0 .hw,
    .clrflags 0 0 .hw, .slotReset 0 .hw, .setwait 0 0, .waitOp 0, .yield 0, .switch 0, .takeflags 0, .submit 0 0 .hw,
    .take 0 0, .release 0 0 0 0 false, .sendmail 0 0, .waitTimeout 0, .sliceEnd 0, .thrCfgWrite 0 0, .flowOutput 0,
    .flowEnable 0 0, .flowDisable 0 .hw, .flowReset 0 .hw, .flowStatClear 0, .thrWaitClear 0, .mailNorouteClear,
    .inboxWrite, .loadWindow, .adcOutput 0 [] 0, .sequenceTrigger 0 .hw, .adcStop 0 .hw, .accClear 0 .hw,
    .sequenceCommit 0 .hw, .urgentRequest 0 0 .hw, .urgentCancel 0 .hw, .bankRequest 0 0, .coefWrite 0 0,
    .refReady 0, .sliceRotation 0 false, .adcWindow 0, .adcCountsClear 0, .rearm 0 .hw, .acqStop 0 .hw, .force 0 .hw,
    .autoTrigger 0, .holdoffEnd 0, .acqCountsClear 0 .hw, .acqRingWrite 0 0, .timArm 0 .hw, .timDisarm 0 .hw,
    .timResultClear 0 .hw, .timEdge 0 0 false 0, .timComplete 0, .timTimeout 0, .seriesEntry 0, .timStatClear 0,
    .dramEnable, .dramInitDone, .dramDisable, .train 0 false, .apply 0, .mrw 0, .mrr 0 0, .readCmp 0 0,
    .writeReadCmp 0 0, .wlevel 0 0, .refresh 0 0, .mr4Poll [], .patrolScrub false false, .srEnter, .autoSelfRefresh,
    .srExit, .outOfRangeClear, .panicClear] = true := by decide +kernel

theorem test_well3 : well [
    .srClear, .eccStatClear 0, .timOffset 0 [], .fineLinearity 0 [], .driveDeskew 0 [] [], .roundTrip 0 0,
    .roundTripTimeout 0, .compareDeskew 0 [] [] [], .adc 0 [] [], .dclkDuty 0 0 0, .bayFull 0, .timeTrim, .calDone 0,
    .calAbort 0 .hw, .storeCommit, .calStore false, .driftUpdate, .eyeMeasure 0 0, .seqReset 0 .hw, .seqResetDone 0,
    .bayReset 0 .hw, .bayResetDone 0 0 [], .warm 0, .functionLevelReset, .d3hotToD0, .perst, .powerOn,
    .hostReady [] [], .railFault 0, .rasUe 0 0 0 0, .rasErrStatClear, .tempUpdate (List.replicate 16 0),
    .peakClear 0, .feStart 0 0, .feAbort 0, .feWrite 0 0, .feDelay 0, .feDelayExpiry 0, .waitalert 0, .feTimeout 0,
    .feListEnd 0, .feAlert 0 false false, .feLdataWrite 0 0, .feStatClear 0, .registerRead .host 0 8,
    .crcErr ⟨0, List.replicate 64 0⟩, .forwarding 0 [], .ackLinkFrame 0, .markerGroup 0 false ⟨0, 0⟩,
    .trainingStateExit ⟨0, 0⟩, .sleepBlock 0, .partnerWake 0, .pinEvent 0 0 1, .loadErr 0 2, .timetxComplete 0,
    .timePortLink false, .pcieLink 0 0 false, .slewComplete] = true := by decide +kernel

/-- No row of the opcode table gives bits: no word spells a command. -/
theorem test_decode : decodeTableWord 64 5 = none ∧ (State.reset.withFetchWord 64 5) = State.reset := ⟨rfl, rfl⟩

end

end Sys2Proof.Tests
end

