-- ==== Sys2Proof/Proofs/HalfAccesses.lean ====
section
/-!
PROOFS. HalfAccesses.lean: register accesses of 32 and of 64 bits (R10, R11): what a requester's halves hold, what each access of
BAR0 does, what a write of a register without further effects leaves in its fields, and from these `Obligations.HalfAccesses`.
-/
namespace Sys2Proof.Machine

/-! ### Sparse tables: writing one key twice -/

theorem Assoc.drop_put {K V : Type} [DecidableEq K] (lt : K → K → Bool) (k : K) (v : V) (l : List (K × V)) :
    Assoc.drop k (Assoc.put lt k v l) = Assoc.drop k l := by
  induction l with
  | nil => simp [Assoc.put, Assoc.drop]
  | cons e l ih =>
    by_cases he : e.1 = k
    · simp [Assoc.put, Assoc.drop, he]
    · cases hlt : lt k e.1 <;> simp [Assoc.put, Assoc.drop, he, hlt, ih]

theorem Assoc.put_put {K V : Type} [DecidableEq K] (lt : K → K → Bool) (k : K) (v w : V) (l : List (K × V)) :
    Assoc.put lt k w (Assoc.put lt k v l) = Assoc.put lt k w l := by
  induction l with
  | nil => simp [Assoc.put]
  | cons e l ih =>
    by_cases he : e.1 = k
    · simp [Assoc.put, he]
    · cases hlt : lt k e.1 <;> simp [Assoc.put, he, hlt, ih]

/-- A unit stored over one that is not the default replaces it, whatever form the table has. -/
theorem putUnit_putUnit {V : Type} [DecidableEq V] {d v : V} (l : List (Nat × V)) (n : Nat) (w : V) (hv : v ≠ d) :
    putUnit d (putUnit d l n v) n w = putUnit d l n w := by
  simp only [putUnit, Assoc.wr, if_neg hv, Assoc.drop_put, Assoc.put_put]

/-! ### A requester's halves (R11) -/

@[simp] theorem State.halvesOf_setHalves (s : State) (r : Requester) (h : Halves) : (s.setHalves r h).halvesOf r = h := by
  cases r with
  | core c => exact (unitAt_putUnit ..).trans (if_pos rfl)
  | host | bar2 | config => rfl

@[simp] theorem State.setHalves_hostReady (s : State) (r : Requester) (h : Halves) : (s.setHalves r h).hostReady = s.hostReady := by
  cases r <;> rfl

@[simp] theorem State.setHalves_rd (s : State) (r : Requester) (h : Halves) (k : RegKey) : (s.setHalves r h).rd k = s.rd k := by
  cases r <;> rfl

@[simp] theorem State.setHalves_inBayReset (s : State) (r : Requester) (h : Halves) (k : RegKey) :
    (s.setHalves r h).inBayReset k = s.inBayReset k := by
  cases r <;> rfl

/-- Halves stored over others that hold something replace them. -/
theorem State.setHalves_setHalves (s : State) (r : Requester) {h : Halves} (h' : Halves) (hne : h ≠ {}) :
    (s.setHalves r h).setHalves r h' = s.setHalves r h' := by
  cases r with
  | core c => simp only [State.setHalves, putUnit_putUnit _ _ _ hne]
  | host | bar2 | config => rfl

/-! ### Sizes and offsets -/

/-- An access that is not aligned, or a core's that is not of 32 bits, counts as one of another size (R10, R11). -/
theorem aligned_accessSize {r : Requester} {off bytes : Nat}
    (h : aligned off bytes = false ∨ (fromHost r = false ∧ bytes ≠ 4)) : aligned off (accessSize r bytes) = false := by
  by_cases hr : fromHost r = true ∨ bytes = 4
  · rw [accessSize, if_pos hr]
    exact h.resolve_right fun ⟨hc, hb⟩ => hr.elim (by simp [hc]) hb
  · rw [accessSize, if_neg hr]
    rfl

@[simp] theorem accessSize_word (r : Requester) : accessSize r 4 = 4 := if_pos (.inr rfl)

@[simp] theorem accessSize_host (bytes : Nat) : accessSize .host bytes = bytes := if_pos (.inl rfl)

/-- An access that is not aligned is none of a whole register, of a lower half and of an upper half. -/
theorem not_aligned_cases {off n : Nat} (ha : aligned off n = false) :
    ¬ (n = 8 ∧ off % 8 = 0) ∧ ¬ (n = 4 ∧ off % 8 = 0) ∧ ¬ (n = 4 ∧ off % 8 = 4) := by
  simp only [aligned, Bool.or_eq_false_iff, Bool.and_eq_false_iff, beq_eq_false_iff_ne] at ha
  omega

/-- The MSI-X range begins and ends at register offsets: the two halves of a register lie in it or beside it together. -/
theorem inMsix_upper {off : Nat} (h8 : off % 8 = 0) : inMsix (off + 4) = inMsix off := by
  unfold inMsix
  congr 1 <;> exact decide_eq_decide.2 (by omega)

/-! ### Accesses of BAR0, by their size -/

theorem exec_registerWrite {r : Requester} (hr : OnBar0 r) (off bytes : Nat) (d : Word) (s : State) :
    exec (.registerWrite r off bytes d) s = .next (s.writeAccess r off (accessSize r bytes) d) := by
  cases r with
  | host => rw [accessSize_host]; rfl
  | core c => rfl
  | bar2 => exact absurd rfl hr.1
  | config => exact absurd rfl hr.2

theorem exec_registerRead {r : Requester} (hr : OnBar0 r) (off bytes : Nat) (s : State) :
    exec (.registerRead r off bytes) s = .next (s.readBy r off bytes) := by
  cases r with
  | host | core c => rfl
  | bar2 => exact absurd rfl hr.1
  | config => exact absurd rfl hr.2

section
variable {s : State} {off : Nat}

theorem State.writeAccess_whole (hs : s.hostReady = true) (hm : inMsix off = false) (h8 : off % 8 = 0) (r : Requester) (d : Word) :
    s.writeAccess r off 8 d = (s.setHalves r { (s.halvesOf r) with held := none }).writeAt r off d := by
  simp [State.writeAccess, hs, hm, h8]

theorem State.writeAccess_lower (hs : s.hostReady = true) (hm : inMsix off = false) (h8 : off % 8 = 0) (r : Requester) (d : Word) :
    s.writeAccess r off 4 d = s.setHalves r { (s.halvesOf r) with held := some (off, bitsOf d 0 32) } := by
  simp [State.writeAccess, hs, hm, h8]

/-- The upper half after its lower half: one write of both (R11). -/
theorem State.writeAccess_upper (hs : s.hostReady = true) (hm : inMsix off = false) (h8 : off % 8 = 0) (r : Requester) (d : Word)
    {l : Nat} (hl : (s.halvesOf r).held = some (off, l)) :
    s.writeAccess r (off + 4) 4 d = (s.setHalves r { (s.halvesOf r) with held := none }).writeAt r off
      (BitVec.ofNat 64 (l + bitsOf d 0 32 * 2 ^ 32)) := by
  have h4 : (off + 4) % 8 = 4 := by omega
  simp [State.writeAccess, hs, inMsix_upper h8, hm, h4, hl]

/-- A write of another size or alignment drops the half that is held, and does nothing else (R10). -/
theorem State.writeAccess_unaligned {n : Nat} (ha : aligned off n = false) (r : Requester) (d : Word) :
    s.writeAccess r off n d = s.setHalves r { (s.halvesOf r) with held := none } := by
  obtain ⟨h8, hlo, hhi⟩ := not_aligned_cases ha
  simp [State.writeAccess, State.msixAccess, ha, h8, hlo, hhi]

/-- What a register that is not in reset reads as (R507). -/
theorem State.readAt_register {k : RegKey} (hk : regAt off = some k) (hb : s.inBayReset k = false) (ht : inTest off = false) :
    s.readAt off = (s.lateActs.view k, s) := by
  simp [State.readAt, ht, hk, hb]

theorem State.readAccess_whole (hs : s.hostReady = true) (hm : inMsix off = false) (h8 : off % 8 = 0) (r : Requester) :
    s.readAccess r off 8 = ((s.readAt off).1, none, (s.readAt off).2.advance off) := by
  simp [State.readAccess, hs, hm, h8]

theorem State.readAccess_lower (hs : s.hostReady = true) (hm : inMsix off = false) (h8 : off % 8 = 0) (r : Requester) :
    s.readAccess r off 4 = (BitVec.ofNat 64 (bitsOf (s.readAt off).1 0 32), some (off, bitsOf (s.readAt off).1 32 32),
      (s.readAt off).2.advance off) := by
  simp [State.readAccess, hs, hm, h8]

/-- The upper half after a read of its lower half: the half that was captured (R11). -/
theorem State.readAccess_upper (hs : s.hostReady = true) (hm : inMsix off = false) (h8 : off % 8 = 0) (r : Requester)
    {u : Nat} (hu : (s.halvesOf r).captured = some (off, u)) : s.readAccess r (off + 4) 4 = (BitVec.ofNat 64 u, none, s) := by
  have h4 : (off + 4) % 8 = 4 := by omega
  simp [State.readAccess, hs, inMsix_upper h8, hm, h4, hu]

/-- A read of another size or alignment returns zero and captures nothing (R10). -/
theorem State.readAccess_unaligned {n : Nat} (ha : aligned off n = false) (r : Requester) : s.readAccess r off n = (0, none, s) := by
  obtain ⟨h8, hlo, hhi⟩ := not_aligned_cases ha
  simp [State.readAccess, ha, h8, hlo, hhi]

end

/-- What a read returns is kept as its requester's last read (R507). -/
theorem State.readBy_lastRead (s : State) (r : Requester) (off bytes : Nat) :
    ((s.readBy r off bytes).halvesOf r).lastRead = (s.readAccess r off (accessSize r bytes)).1 :=
  congrArg Halves.lastRead (State.halvesOf_setHalves ..)

/-- What a read captures is kept for its requester's next read (R11). -/
theorem State.readBy_captured (s : State) (r : Requester) (off bytes : Nat) :
    ((s.readBy r off bytes).halvesOf r).captured = (s.readAccess r off (accessSize r bytes)).2.1 :=
  congrArg Halves.captured (State.halvesOf_setHalves ..)

/-! ### What a write leaves in the fields of a register (R12, R16, R17) -/

theorem mapNibbles_lt {f : Nat → Nat} (hf : ∀ x < 16, f x < 16) (n v : Nat) : mapNibbles f n v < 2 ^ (4 * n) := by
  induction n generalizing v with
  | zero => simp [mapNibbles]
  | succ n ih =>
    have hd := hf (v % 16) (by omega)
    have hr := ih (v / 16)
    rw [mapNibbles, Nat.mul_succ, Nat.pow_add]
    omega

/-- Every value that the clamp stores lies in a field of `w` bits, as the values written to it do. -/
def Clamp.fits (w : Nat) : Clamp → Bool
  | .any => true
  | .range lo _ => decide (lo < 2 ^ w)
  | .srange _ _ => true
  | .above _ fallback => decide (fallback < 2 ^ w)
  | .align _ => true
  | .rangeAlign lo _ _ => decide (lo < 2 ^ w)
  | .zeroTo d => decide (d < 2 ^ w)
  | .nibbles => decide (24 ≤ w)
  | .routes => decide (64 ≤ w)

theorem Clamp.apply_lt {c : Clamp} {w v : Nat} (hc : c.fits w = true) (hv : v < 2 ^ w) : c.apply w v < 2 ^ w := by
  cases c with
  | any => exact hv
  | range lo hi =>
    have hlo : lo < 2 ^ w := of_decide_eq_true hc
    simp only [Clamp.apply]; omega
  | srange lo hi =>
    have hp : (0 : Int) < 2 ^ w := by positivity
    simp only [Clamp.apply, unsigned]
    have := Int.emod_lt_of_pos (max (-(lo : Int)) (min (signed w v) hi)) hp
    zify
    rw [Int.toNat_of_nonneg (Int.emod_nonneg _ hp.ne')]
    exact this
  | above m fallback =>
    have hf : fallback < 2 ^ w := of_decide_eq_true hc
    simp only [Clamp.apply]; split <;> assumption
  | align n => exact (Nat.div_mul_le_self ..).trans_lt hv
  | rangeAlign lo hi n =>
    have hlo : lo < 2 ^ w := of_decide_eq_true hc
    exact (Nat.div_mul_le_self ..).trans_lt (by omega)
  | zeroTo d =>
    have hd : d < 2 ^ w := of_decide_eq_true hc
    simp only [Clamp.apply]; split <;> assumption
  | nibbles =>
    have hw : 4 * 6 ≤ w := of_decide_eq_true hc
    have hn := mapNibbles_lt (f := fun e => if 11 < e then 0 else e) (fun x hx => by split <;> omega) 6 v
    exact hn.trans_le (Nat.pow_le_pow_right (by decide) hw)
  | routes =>
    have hw : 4 * 16 ≤ w := of_decide_eq_true hc
    have hn := mapNibbles_lt (f := fun e => e % 8) (fun x _ => by omega) 16 v
    exact hn.trans_le (Nat.pow_le_pow_right (by decide) hw)

/-- The field is read-only or holds what is written to it, lies in its word, and its clamp keeps its width. -/
def FieldDesc.plain (f : FieldDesc) : Bool :=
  (decide (f.access = .ro) || decide (f.access = .rw)) && decide (f.lo + f.width ≤ 64) && f.clamp.fits f.width

/-- Two fields share no bit. -/
abbrev FieldDesc.Apart (f g : FieldDesc) : Prop := f.lo + f.width ≤ g.lo ∨ g.lo + g.width ≤ f.lo

theorem FieldDesc.plain_iff (f : FieldDesc) :
    f.plain = true ↔ (f.access = .ro ∨ f.access = .rw) ∧ f.lo + f.width ≤ 64 ∧ f.clamp.fits f.width = true := by
  simp [FieldDesc.plain, and_assoc]

/-- What a plain field holds after a write of its word. -/
theorem FieldDesc.bitsOf_store {f : FieldDesc} (hf : f.plain = true) (host : Bool) (d v : Word) :
    bitsOf (f.store host d v) f.lo f.width =
      if f.access = .ro then bitsOf v f.lo f.width else f.clamp.apply f.width (bitsOf d f.lo f.width) := by
  obtain ⟨ha | ha, hw, hc⟩ := f.plain_iff.1 hf
  · simp [FieldDesc.store, ha]
  · simp [FieldDesc.store, ha, bitsOf_withBits _ _ _ _ hw, Nat.mod_eq_of_lt (Clamp.apply_lt hc (bitsOf_lt ..))]

/-- The store of one field leaves every other field as it is. -/
theorem FieldDesc.bitsOf_store_apart {f g : FieldDesc} (hf : f.plain = true) (hfg : f.Apart g) (host : Bool) (d v : Word) :
    bitsOf (f.store host d v) g.lo g.width = bitsOf v g.lo g.width := by
  obtain ⟨ha | ha, hw, _⟩ := f.plain_iff.1 hf
  · simp [FieldDesc.store, ha]
  · simp [FieldDesc.store, ha, bitsOf_withBits_ne _ _ _ _ _ _ hw hfg]

theorem bitsOf_storeFields_apart {fs : List FieldDesc} {g : FieldDesc} (hp : ∀ f ∈ fs, f.plain = true) (ha : ∀ f ∈ fs, f.Apart g)
    (host : Bool) (d v : Word) : bitsOf (storeFields host d fs v) g.lo g.width = bitsOf v g.lo g.width := by
  induction fs generalizing v with
  | nil => rfl
  | cons f fs ih =>
    rw [List.forall_mem_cons] at hp ha
    exact (ih hp.2 ha.2 _).trans (FieldDesc.bitsOf_store_apart hp.1 ha.1 host d v)

/-- Each of several plain fields that share no bit holds after a write what the write gives it. -/
theorem bitsOf_storeFields {fs : List FieldDesc} (hp : ∀ f ∈ fs, f.plain = true) (ha : fs.Pairwise FieldDesc.Apart)
    (host : Bool) (d v : Word) : ∀ f ∈ fs, bitsOf (storeFields host d fs v) f.lo f.width =
      if f.access = .ro then bitsOf v f.lo f.width else f.clamp.apply f.width (bitsOf d f.lo f.width) := by
  induction fs generalizing v with
  | nil => simp
  | cons g fs ih =>
    rw [List.forall_mem_cons] at hp
    obtain ⟨hg, hfs⟩ := List.pairwise_cons.1 ha
    refine List.forall_mem_cons.2 ⟨?_, fun f hf => ?_⟩
    · exact (bitsOf_storeFields_apart hp.2 (fun f hf => (hg f hf).symm) ..).trans (FieldDesc.bitsOf_store hp.1 host d v)
    · rw [← FieldDesc.bitsOf_store_apart hp.1 (hg f hf) host d v]
      exact ih hp.2 hfs _ f hf

/-! ### The registers without further effects -/

theorem plainRegs_fields : ∀ n ∈ plainRegs, (∀ f ∈ n.desc.fields, f.plain = true) ∧ n.desc.fields.Pairwise FieldDesc.Apart := by
  decide

/-- No arm of the write's dispatch names a register of `plainRegs`. -/
theorem State.regWrite_plain {k : RegKey} (hk : k.name ∈ plainRegs) (s : State) (host : Bool) (src : Src) (d : Word) :
    s.regWrite k host src d = s.plainWrite k host d := by
  obtain ⟨n, i, j⟩ := k
  change n ∈ plainRegs at hk
  fin_cases hk <;> rfl

theorem State.w1c_of_plain {k : RegKey} (hp : ∀ f ∈ k.name.desc.fields, f.plain = true) (s : State) (d : Word) : s.w1c k d = s := by
  have hn : ∀ n, w1cAt k.name.desc.fields n = false := fun n => by
    refine List.any_eq_false.2 fun f hf => ?_
    obtain ⟨ha | ha, _⟩ := f.plain_iff.1 (hp f hf) <;> simp [ha]
  simp [State.w1c, hn]

/-- A write of a register of `plainRegs` leaves in its fields what was written, clamped (R12, R16, R17). -/
theorem State.regWrite_holdsFields {k : RegKey} (hk : k.name ∈ plainRegs) (s : State) (host : Bool) (src : Src) (d : Word) :
    HoldsFields s (s.regWrite k host src d) k d := by
  obtain ⟨hp, ha⟩ := plainRegs_fields _ hk
  rw [State.regWrite_plain hk, State.plainWrite, State.w1c_of_plain hp]
  intro f hf
  rw [State.storeRw, State.rd_wr_self]
  exact bitsOf_storeFields hp ha host d _ f hf

/-- A 64-bit write of host software to a register that is not in reset writes the register (R10, R59). -/
theorem State.writeAt_host {off : Nat} {k : RegKey} {s : State} (hk : regAt off = some k) (hb : s.inBayReset k = false) (d : Word) :
    s.writeAt .host off d = s.regWrite k true (.host 64) d := by
  simp [State.writeAt, hk, hb, fromHost, requesterSrc]

/-! ### The statement's parts -/

theorem onBar0_host : OnBar0 .host := ⟨Requester.noConfusion, Requester.noConfusion⟩

section
variable {off : Nat} {s : State} (h8 : off % 8 = 0) (hm : inMsix off = false) (hs : s.hostReady = true)
include h8 hm hs

theorem wholeRead_returns_view {k : RegKey} (hk : regAt off = some k) (hb : s.inBayReset k = false) (ht : inTest off = false) :
    Completes (.registerRead .host off 8) s fun t => t.halvesHost.lastRead = s.lateActs.view k := by
  refine ⟨_, exec_registerRead onBar0_host .., (s.readBy_lastRead .host off 8).trans ?_⟩
  rw [accessSize_host, State.readAccess_whole hs hm h8, State.readAt_register hk hb ht]

theorem wholeWrite_holdsFields {k : RegKey} (hk : regAt off = some k) (hb : s.inBayReset k = false) (hp : k.name ∈ plainRegs)
    (d : Word) : Completes (.registerWrite .host off 8 d) s fun t => HoldsFields s t k d := by
  refine ⟨_, exec_registerWrite onBar0_host .., ?_⟩
  rw [accessSize_host, State.writeAccess_whole hs hm h8, State.writeAt_host hk (by simpa using hb)]
  have h := State.regWrite_holdsFields hp (s.setHalves .host { (s.halvesOf .host) with held := none }) true (.host 64) d
  simpa only [HoldsFields, State.setHalves_rd] using h

/-- A lower half read captures the upper half, which the next read of the requester at the upper half returns (R11). -/
theorem lowerRead_captures {k : RegKey} (hk : regAt off = some k) (hb : s.inBayReset k = false) (ht : inTest off = false)
    {r : Requester} (hr : OnBar0 r) : Completes (.registerRead r off 4) s fun t =>
      (t.halvesOf r).lastRead = BitVec.ofNat 64 (bitsOf (s.lateActs.view k) 0 32)
      ∧ ∀ v : State, v.halvesOf r = t.halvesOf r → v.hostReady = true →
        Completes (.registerRead r (off + 4) 4) v fun w =>
          (w.halvesOf r).lastRead = BitVec.ofNat 64 (bitsOf (s.lateActs.view k) 32 32) := by
  have hlower := State.readAccess_lower hs hm h8 r
  rw [State.readAt_register hk hb ht] at hlower
  refine ⟨_, exec_registerRead hr .., ?_, fun v hv hvs => ⟨_, exec_registerRead hr .., ?_⟩⟩
  · rw [State.readBy_lastRead, accessSize_word, hlower]
  · have hcap : (v.halvesOf r).captured = some (off, bitsOf (s.lateActs.view k) 32 32) := by
      rw [hv, State.readBy_captured, accessSize_word, hlower]
    refine (v.readBy_lastRead r (off + 4) 4).trans ?_
    rw [accessSize_word, State.readAccess_upper hvs hm h8 r hcap]

/-- A lower half written is held, and with the next upper half acts as one 64-bit write (R11). -/
theorem lowerWrite_held {r : Requester} (hr : OnBar0 r) (lo : Word) :
    Completes (.registerWrite r off 4 lo) s fun t => (∃ h, t = s.setHalves r h)
      ∧ ∀ hi d : Word, d = BitVec.ofNat 64 (bitsOf lo 0 32 + bitsOf hi 0 32 * 2 ^ 32) →
        (r = .host → exec (.registerWrite .host (off + 4) 4 hi) t = exec (.registerWrite .host off 8 d) s)
        ∧ exec (.registerWrite r (off + 4) 4 hi) t
          = .next ((s.setHalves r { (s.halvesOf r) with held := none }).writeAt r off d) := by
  refine ⟨_, exec_registerWrite hr .., ?_⟩
  rw [accessSize_word, State.writeAccess_lower hs hm h8]
  refine ⟨⟨_, rfl⟩, ?_⟩
  rintro hi d rfl
  have hupper : exec (.registerWrite r (off + 4) 4 hi)
        (s.setHalves r { (s.halvesOf r) with held := some (off, bitsOf lo 0 32) })
      = .next ((s.setHalves r { (s.halvesOf r) with held := none }).writeAt r off
          (BitVec.ofNat 64 (bitsOf lo 0 32 + bitsOf hi 0 32 * 2 ^ 32))) := by
    rw [exec_registerWrite hr, accessSize_word,
      State.writeAccess_upper (by simpa using hs) hm h8 r hi (congrArg Halves.held (State.halvesOf_setHalves ..)),
      State.setHalves_setHalves _ _ _ (by simp), State.halvesOf_setHalves]
  refine ⟨?_, hupper⟩
  rintro rfl
  rw [hupper, exec_registerWrite onBar0_host, accessSize_host, State.writeAccess_whole hs hm h8]

end

theorem unalignedWrite_drops_held {r : Requester} (hr : OnBar0 r) {off bytes : Nat} (d : Word) (s : State)
    (ha : aligned off (accessSize r bytes) = false) :
    Completes (.registerWrite r off bytes d) s fun t => ∃ h, t = s.setHalves r h ∧ h.held = none :=
  ⟨_, exec_registerWrite hr .., _, State.writeAccess_unaligned ha r d, rfl⟩

theorem unalignedRead_returns_zero {r : Requester} (hr : OnBar0 r) {off bytes : Nat} (s : State)
    (ha : aligned off (accessSize r bytes) = false) :
    Completes (.registerRead r off bytes) s fun t =>
      ∃ h, t = s.setHalves r h ∧ h.captured = none ∧ (t.halvesOf r).lastRead = 0 := by
  refine ⟨_, exec_registerRead hr .., ?_⟩
  rw [State.readBy, State.readAccess_unaligned ha]
  exact ⟨_, rfl, rfl, by rw [State.halvesOf_setHalves]⟩

/-- Settles O55: each access, by its size and alignment, is one case of `State.writeAccess` or `State.readAccess`. -/
theorem halfAccesses : Obligations.HalfAccesses := by
  unfold Obligations.HalfAccesses
  refine ⟨fun off s h8 hm hs => ⟨fun k hk hb => ⟨?_, ?_, ?_⟩, fun r lo hr => lowerWrite_held h8 hm hs hr lo⟩,
    fun r off bytes d s hr ha => ?_⟩
  · exact wholeRead_returns_view h8 hm hs hk hb
  · exact wholeWrite_holdsFields h8 hm hs hk hb
  · exact fun ht r hr => lowerRead_captures h8 hm hs hk hb ht hr
  · exact ⟨unalignedWrite_drops_held hr d s (aligned_accessSize ha), unalignedRead_returns_zero hr s (aligned_accessSize ha)⟩

end Sys2Proof.Machine
end

