-- ==== Sys2Proof/Proofs/AlignPrecedence.lean ====
section
/-!
PROOFS. AlignPrecedence.lean: an event on its object against the event that has decided it (R56, R57), and from that
`Obligations.ArmAndDisarmLeaveDisarmed` (R51): of the two events on CLK.ALIGN the disarm has class 2 and the arm class 4.
-/
namespace Sys2Proof.Machine

/-! ### The event that has decided an object -/

@[simp] theorem State.decider_note_self (s : State) (e : TickEvent) : (s.note e).decider e.obj = some e := by
  simp [State.decider, State.note]

theorem State.decider_note_ne (s : State) {e : TickEvent} {o : Obj} (h : e.obj ≠ o) : (s.note e).decider o = s.decider o := by
  unfold State.decider State.note
  rw [List.find?_cons_of_neg (by simpa using h), List.find?_filter]
  congr 1
  funext x
  by_cases hx : x.obj = o
  · simp [hx, h.symm]
  · simp [hx]

/-- Where the events of the tick are as before, so is what decides each object. -/
theorem State.decider_congr {s t : State} (h : t.events = s.events) (o : Obj) : t.decider o = s.decider o :=
  congrArg (List.find? _) h

@[simp] theorem State.decider_set (s : State) (f : Fld) (i j v : Nat) (o : Obj) : (s.set f i j v).decider o = s.decider o := rfl

@[simp] theorem State.decider_clk (s : State) (c : ClkX) (o : Obj) : { s with clk := c }.decider o = s.decider o := rfl

theorem State.decider_superseded (s : State) (o : Obj) : s.superseded.decider o = s.decider o :=
  State.decider_congr ((State.superseded_only (Only.refl _ s) (Nat.or_self _)).events (by decide)) o

/-- The set of a bit by hardware is an event on that bit, and on no unit. -/
theorem State.decider_hwSet (s : State) (f : Fld) (i j : Nat) {o : Obj} (h : Obj.field (f.key i j) f.lo ≠ o) :
    (s.hwSet f i j).decider o = s.decider o := by
  unfold State.hwSet
  split
  · exact s.decider_superseded o
  · exact State.decider_note_ne _ h

/-! ### What becomes of an event (R56, R57) -/

/-- An event on an object that stands alone is recorded and acts. -/
theorem State.onObj_alone {s : State} {o : Obj} (h : Alone s o) (cls rank eff : Nat) (f : State → State) :
    s.onObj o cls rank eff f = f (s.note ⟨o, cls, rank, eff⟩) := by
  obtain ⟨hd, hw, hr⟩ := h
  simp [State.onObj, State.decideEvent, State.judge, hd, hw, hr]

/-- An event on an object that an event of a higher class has decided is discarded and counted (R56, R58). -/
theorem State.onObj_of_higher {s : State} {o : Obj} {d : TickEvent} (hd : s.decider o = some d) {cls : Nat} (hc : d.cls < cls)
    (rank eff : Nat) (f : State → State) : s.onObj o cls rank eff f = s.superseded := by
  have hj : s.judge o cls rank eff = (.superseded, 0) := by
    simp [State.judge, hd, hc]
  simp [State.onObj, State.decideEvent, hj]

/-- An event for whose object no other waits, and which nothing of its class or a higher one has decided, acts (R56). -/
theorem State.onObj_acts {s : State} {o : Obj} {cls : Nat} (hr : s.inReset o = false) (hw : s.waiting o = [])
    (hd : ∀ d, s.decider o = some d → cls < d.cls) (rank eff : Nat) (f : State → State) :
    ∃ t, s.onObj o cls rank eff f = f t := by
  cases hs : s.decider o with
  | none => exact ⟨_, State.onObj_alone ⟨hs, hw, hr⟩ cls rank eff f⟩
  | some d =>
    have hc := hd d hs
    have hj : s.judge o cls rank eff = (.acts, 1) := by
      simp [State.judge, hr, hw, hs, hc, Nat.not_lt_of_gt hc]
    exact ⟨(s.note ⟨o, cls, rank, eff⟩).superseded, by simp only [State.onObj, State.decideEvent, hj]⟩

/-- What waits for an object follows from the queue, the sequencers' actions and the tick. -/
theorem Only.waiting {N : Nat} {s t : State} (h : Only N s t) (o : Obj) (hp : N.testBit 240 = false) (ht : N.testBit 241 = false)
    (hq : N.testBit 254 = false) : t.waiting o = s.waiting o := by
  unfold State.waiting
  rw [h.pending hp, h.ticks ht, h.seqs hq]

theorem Only.inReset_align {N : Nat} {s t : State} (h : Only N s t)
    (hf : N.testBit F.rasStatusHostReady.reg.ctorIdx = false) : t.inReset .align = s.inReset .align :=
  congrArg (fun b => !b || false) (h.bit F.rasStatusHostReady 0 0 hf)

/-! ### Arms and disarms of CLK.ALIGN -/

/-- No operation is armed, and none has captured. -/
abbrev AlignDisarmed (s : State) : Prop := s.get F.clkStatusAlignState ≠ 1 ∧ s.get F.clkStatusAlignState ≠ 2

/-- An arm that acts, accepted or refused, decides CLK.ALIGN in class 4; while an operation is armed it is no event. -/
theorem State.alignArm_decider {s : State} (h : Alone s .align) (src : Src) {d : TickEvent}
    (hd : (s.alignArm src).decider .align = some d) : d.cls = 4 := by
  unfold State.alignArm at hd
  split at hd
  · obtain ⟨hnone, -, -⟩ := h
    simp [hnone] at hd
  · have hn : (s.note ⟨.align, 4, srcRank src, 1⟩).decider .align = some d := by
      rw [State.onObj_alone h] at hd
      split at hd
      · rwa [State.decider_set, State.decider_set, State.decider_clk] at hd
      · rwa [State.decider_hwSet _ _ _ _ Obj.noConfusion] at hd
    cases (State.decider_note_self s _).symm.trans hn
    rfl

/-- An arm that follows an event of a higher class in its tick leaves the operation as it is (R56). -/
theorem State.alignArm_of_higher {s : State} {d : TickEvent} (hd : s.decider .align = some d) (hc : d.cls < 4) (src : Src) :
    (s.alignArm src).get F.clkStatusAlignState = s.get F.clkStatusAlignState := by
  unfold State.alignArm
  split
  · rfl
  · rw [State.onObj_of_higher hd hc]
    exact State.get_supersede _ _ _ _ _ (by decide)

/-- A disarm that acts leaves no operation armed, in whatever state it acts. -/
theorem State.alignDisarm_disarms {s : State} (hr : s.inReset .align = false) (hw : s.waiting .align = [])
    (hd : ∀ d, s.decider .align = some d → 2 < d.cls) (src : Src) : AlignDisarmed (s.alignDisarm src) := by
  unfold State.alignDisarm
  obtain ⟨t, ht⟩ := State.onObj_acts hr hw hd (srcRank src) 0 _
  rw [ht]
  split
  · simp [AlignDisarmed, State.get_set]
  · next hn => exact not_or.1 hn

/-- A disarm on its own decides CLK.ALIGN in class 2. -/
theorem State.alignDisarm_decider {s : State} (h : Alone s .align) (src : Src) :
    (s.alignDisarm src).decider .align = some ⟨.align, 2, srcRank src, 0⟩ := by
  unfold State.alignDisarm
  rw [State.onObj_alone h]
  split
  · rw [State.decider_set, State.decider_clk, State.decider_note_self s ⟨.align, 2, srcRank src, 0⟩]
  · exact State.decider_note_self s _

/-- The state in which ALIGN_ARM arms: MODE and SYNC_DRIVE are stored, and no event is sampled yet. -/
def State.alignSetup (s : State) (verify drive : Bool) : State :=
  (s.setBit F.clkAlignMode 0 0 verify).setBit F.clkAlignSyncDrive 0 0 drive

theorem exec_alignArm (verify drive : Bool) (src : Src) (s : State) :
    exec (.alignArm verify drive src) s = .next ((s.alignSetup verify drive).alignArm src) := rfl

theorem exec_alignDisarm (src : Src) (s : State) : exec (.alignDisarm src) s = .next (s.alignDisarm src) := rfl

theorem State.alignSetup_within (s : State) (verify drive : Bool) : Only F.clkAlignMode.mask s (s.alignSetup verify drive) :=
  State.setBit_only _ _ _ _ (State.setBit_only _ _ _ _ (Only.refl _ _) (by decide)) (by decide)

theorem State.alignSetup_decider (s : State) (verify drive : Bool) (o : Obj) :
    (s.alignSetup verify drive).decider o = s.decider o :=
  State.decider_congr ((s.alignSetup_within verify drive).events (by decide)) o

theorem State.alignSetup_alone {s : State} (h : Alone s .align) (verify drive : Bool) :
    Alone (s.alignSetup verify drive) .align := by
  obtain ⟨hd, hw, hr⟩ := h
  have hs := s.alignSetup_within verify drive
  exact ⟨(s.alignSetup_decider verify drive _).trans hd, (hs.waiting _ (by decide) (by decide) (by decide)).trans hw,
    (hs.inReset_align (by decide)).trans hr⟩

/-- A disarm after an arm: class 2 over class 4, so it acts (R51, R56). -/
theorem disarm_after_arm {s : State} (h : Alone s .align) (src src2 : Src) :
    AlignDisarmed ((s.alignArm src).alignDisarm src2) := by
  have ⟨_, hw, hr⟩ := h
  have ha := s.alignArm_within src
  refine State.alignDisarm_disarms ((ha.inReset_align (by decide)).trans hr)
    ((ha.waiting _ (by decide) (by decide) (by decide)).trans hw) (fun d hd => ?_) src2
  rw [State.alignArm_decider h src hd]
  decide

/-- An arm after a disarm: class 4 under class 2, so it is discarded (R51, R56). -/
theorem arm_after_disarm {s : State} (h : Alone s .align) (verify drive : Bool) (src src2 : Src) :
    AlignDisarmed (((s.alignDisarm src2).alignSetup verify drive).alignArm src) := by
  have ⟨hnone, hw, hr⟩ := h
  have hd : ((s.alignDisarm src2).alignSetup verify drive).decider .align = some ⟨.align, 2, srcRank src2, 0⟩ :=
    (State.alignSetup_decider ..).trans (State.alignDisarm_decider h src2)
  have hdis : AlignDisarmed (s.alignDisarm src2) := State.alignDisarm_disarms hr hw (by simp [hnone]) src2
  rwa [AlignDisarmed, State.alignArm_of_higher hd (show 2 < 4 by decide), (State.alignSetup_within ..).get _ _ _ (by decide)]

/-- Settles O9: presented second, the disarm acts over the arm; presented first, it discards the arm. -/
theorem armAndDisarmLeaveDisarmed : Obligations.ArmAndDisarmLeaveDisarmed := by
  unfold Obligations.ArmAndDisarmLeaveDisarmed
  intro verify drive src src2 s h
  exact ⟨⟨_, exec_alignArm .., _, exec_alignDisarm .., disarm_after_arm (State.alignSetup_alone h verify drive) src src2⟩,
    ⟨_, exec_alignDisarm .., _, exec_alignArm .., arm_after_disarm h verify drive src src2⟩⟩

end Sys2Proof.Machine
end

