-- ==== Sys2Proof/Proofs/FlowTakes.lean ====
section
/-!
PROOFS. FlowTakes.lean: an own-thread operation of a core that stands alone in its tick (R347, R349), what a wake leaves of the ordered
flows (R351), what a TAKE answers and takes (R352), and from these `Obligations.TakesReturnTheOldestItem`.
-/
namespace Sys2Proof.Machine

/-! ### The ordered flows under the dispatcher's other operations -/

/-- What the flows hold is part of the dispatcher's own state. -/
theorem State.flowX_congr {s t : State} (h : t.disp.flows = s.disp.flows) (f : Nat) : t.flowX f = s.flowX f :=
  congrArg (unitAt ({} : FlowX) · f) h

@[simp] theorem State.flowX_opDone (s : State) (c : Nat) (e : CoreEntry) (v f : Nat) : (s.opDone c e v).flowX f = s.flowX f := rfl

@[simp] theorem State.makeReady_flows (s : State) (j : Nat) (head : Bool) : (s.makeReady j head).disp.flows = s.disp.flows := rfl

/-- An event leaves the flows as they are where its effect does. -/
theorem State.onObj_flows {f : State → State} (hf : ∀ t, (f t).disp.flows = t.disp.flows) (s : State) (o : Obj) (cls rank eff : Nat) :
    (s.onObj o cls rank eff f).disp.flows = s.disp.flows := by
  have hd := (s.decideEvent_within o cls rank eff).disp (by decide)
  unfold State.onObj
  split
  · next h => rw [h] at hd; rw [hf, hd]
  · next h => rw [h] at hd; rw [hd]

theorem State.wakeByFlags_flows (s : State) (j rank : Nat) : (s.wakeByFlags j rank).disp.flows = s.disp.flows := by
  unfold State.wakeByFlags
  split
  · split
    · exact State.onObj_flows (fun t => t.makeReady_flows j false) ..
    · split <;> rfl
  · rfl

theorem State.setFlags_flows (s : State) (j mask : Nat) (src : Src) : (s.setFlags j mask src).disp.flows = s.disp.flows := by
  have hset := Only.foldl (l := bitsBelow 32 mask) (Only.refl _ s) fun t i => t.setFlag_within j (srcRank src) i
  exact (State.wakeByFlags_flows ..).trans (congrArg DispX.flows (hset.disp (by decide)))

/-- A flow that wakes a worker keeps its items (R351). -/
@[simp] theorem State.flowX_wakeWorker (s : State) (f : Nat) (src : Src) (f' : Nat) : (s.wakeWorker f src).flowX f' = s.flowX f' := by
  unfold State.wakeWorker
  split
  · exact State.flowX_congr (State.setFlags_flows ..) f'
  · rfl

/-! ### What a TAKE answers and takes (R352) -/

/-- The items not yet taken, behind a run of taken ones. -/
theorem FlowX.queued_of_split {x : FlowX} {i : Item} {old new : List Item} (hx : x.items = old ++ i :: new)
    (hold : ∀ k ∈ old, k.taken = true) (hi : i.taken = false) : x.queued = i :: new.filter fun k => !k.taken := by
  have hnone : old.filter (fun k => !k.taken) = [] := List.filter_eq_nil_iff.2 fun k hk => by simp [hold k hk]
  simp [FlowX.queued, hx, hnone, hi]

theorem FlowX.queued_of_taken {x : FlowX} (h : ∀ k ∈ x.items, k.taken = true) : x.queued = [] :=
  List.filter_eq_nil_iff.2 fun k hk => by simp [h k hk]

/-- Marking by sequence number marks one item, where no other has its number. -/
theorem mark_taken_of_split {i : Item} {old new : List Item} (hne : ∀ k ∈ old ++ new, k.seq ≠ i.seq) :
    ((old ++ i :: new).map fun k => if k.seq = i.seq then { k with taken := true } else k)
      = old ++ { i with taken := true } :: new := by
  have hkeep : ∀ l : List Item, (∀ k ∈ l, k.seq ≠ i.seq) →
      (l.map fun k => if k.seq = i.seq then { k with taken := true } else k) = l :=
    fun l hl => (List.map_congr_left fun k hk => if_neg (hl k hk)).trans (List.map_id' l)
  rw [List.map_append, List.map_cons, if_pos rfl, hkeep old fun k hk => hne k (List.mem_append_left _ hk),
    hkeep new fun k hk => hne k (List.mem_append_right _ hk)]

/-- TAKE of a flow with nothing queued. -/
theorem State.takeOp_of_empty {s : State} {f : Nat} (h : (s.flowX f).queued = []) (c : Nat) : s.takeOp c f = (0, s) := by
  simp only [State.takeOp, h]

/-- TAKE of a flow with a queued item answers it, whether or not others stay queued. -/
theorem State.takeOp_result {s : State} {f : Nat} {i : Item} {rest : List Item} (h : (s.flowX f).queued = i :: rest) (c : Nat) :
    (s.takeOp c f).1 = 2 ^ 31 + i.seq % 512 * 2 ^ 22 + i.handle := by
  simp only [State.takeOp, h]

/-- TAKE of a flow with a queued item marks that item, whether or not the flow then wakes a worker. -/
theorem State.takeOp_items {s : State} {f : Nat} {i : Item} {rest : List Item} (h : (s.flowX f).queued = i :: rest) (c : Nat) :
    ((s.takeOp c f).2.flowX f).items
      = (s.flowX f).items.map fun k => if k.seq = i.seq then { k with taken := true } else k := by
  simp only [State.takeOp, h]
  split <;> simp

/-! ### An own-thread operation on its own in its tick (R347, R349) -/

/-- The operations sampled in a tick, where core `c` alone has one. -/
theorem State.sampled_single {s : State} {c : Nat} {e : CoreEntry} (hc : c < 4) (hself : (s.coreX c).now = some e)
    (hother : ∀ k, k ≠ c → (s.coreX k).now = none) :
    ((List.range 4).filterMap fun k => ((s.coreX k).now).map fun e => (k, e)) = [(c, e)] := by
  have hnow : ∀ k, (s.coreX k).now = if k = c then some e else none := fun k => by
    by_cases hk : k = c
    · rw [if_pos hk, hk, hself]
    · rw [if_neg hk, hother k hk]
  simp only [hnow]
  interval_cases c <;> rfl

/-- What a tick's own-thread operations do, where there is one and it is no switch: it alone acts (R349). -/
theorem State.ownActs_single {s : State} {c : Nat} {e : CoreEntry} (hc : c < 4) (hself : (s.coreX c).now = some e)
    (hother : ∀ k, k ≠ c → (s.coreX k).now = none) (he : e.op.isSwitch = false) :
    s.ownActs = (s.setCoreX c { s.coreX c with now := none }).ownOp c e := by
  simp [State.ownActs, State.sampled_single hc hself hother, he]

/-- The state in which core `c` has had `e` sampled for the own-thread operations of the tick. -/
def State.ownSampled (s : State) (c : Nat) (e : CoreEntry) : State := (s.setCoreX c { s.coreX c with now := some e }).opSampled c

theorem State.ownSampled_now (s : State) (c : Nat) (e : CoreEntry) (k : Nat) :
    ((s.ownSampled c e).coreX k).now = if k = c then some e else (s.coreX k).now := by
  by_cases hk : k = c <;> simp [State.ownSampled, State.opSampled, hk]

/-- An operation that finds its core's queue empty, and none of that core sampled in the tick, is sampled at once (R347). -/
theorem State.coreIssues_samples {s t : State} {c : Nat} {op : CoreOp} (h : Reaches s (.core c))
    (hs : s.sampleOp c { op := op } = some t) : s.coreIssues c op = t.opSampled c := by
  have hready : (s.coreX c).sampled = false ∧ (s.coreX c).queue = [] := h c rfl
  simp only [State.coreIssues, if_pos hready, hs]

theorem exec_take {s : State} {c : Nat} (h : Reaches s (.core c)) (f : Nat) :
    exec (.take c f) s = .next (s.ownSampled c { op := .take f }) :=
  congrArg Host.Outcome.next (State.coreIssues_samples (op := .take f) h rfl)

/-- A load's answer is the result of its core. -/
theorem State.opDone_result (s : State) (c : Nat) {e : CoreEntry} (he : e.op.isLoad = true) (v : Nat) :
    ((s.opDone c e v).coreX c).result = v := by
  simp [State.opDone, he]

/-- The state in which a TAKE that stands alone in its tick acts: the operation sampled from core `c` has left it. -/
def State.takeState (s : State) (c f : Nat) : State :=
  let t := s.ownSampled c { op := .take f }
  t.setCoreX c { t.coreX c with now := none }

@[simp] theorem State.flowX_takeState (s : State) (c f g : Nat) : (s.takeState c f).flowX g = s.flowX g := rfl

/-- A sampled TAKE acts with the own-thread operations of its tick (R349). -/
theorem State.ownActs_take {s : State} {c : Nat} (h : Samples s c) (f : Nat) :
    (s.ownSampled c { op := .take f }).ownActs
      = ((s.takeState c f).takeOp c f).2.opDone c { op := .take f } ((s.takeState c f).takeOp c f).1 := by
  obtain ⟨hc, -, hnone⟩ := h
  exact State.ownActs_single hc ((s.ownSampled_now c _ c).trans (if_pos rfl))
    (fun k hk => ((s.ownSampled_now c _ k).trans (if_neg hk)).trans (hnone k)) rfl

theorem State.ownActs_take_result {s : State} {c : Nat} (h : Samples s c) (f : Nat) :
    ((s.ownSampled c { op := .take f }).ownActs.coreX c).result = ((s.takeState c f).takeOp c f).1 := by
  rw [State.ownActs_take h]
  exact State.opDone_result _ c rfl _

theorem State.ownActs_take_flowX {s : State} {c : Nat} (h : Samples s c) (f : Nat) :
    (s.ownSampled c { op := .take f }).ownActs.flowX f = ((s.takeState c f).takeOp c f).2.flowX f := by
  rw [State.ownActs_take h, State.flowX_opDone]

/-- Settles O40: what the TAKE answers and marks follows from the items that are queued when it acts. -/
theorem takesReturnTheOldestItem : Obligations.TakesReturnTheOldestItem := by
  unfold Obligations.TakesReturnTheOldestItem
  intro c f s hs
  have ⟨_, hreach, _⟩ := hs
  constructor
  · intro i old new hitems hold hi hne
    have hq : ((s.takeState c f).flowX f).queued = i :: new.filter fun k => !k.taken := FlowX.queued_of_split hitems hold hi
    refine ⟨_, exec_take hreach f, ?_, ?_⟩
    · rw [State.ownActs_take_result hs, State.takeOp_result hq]
    · rw [State.ownActs_take_flowX hs, State.takeOp_items hq, State.flowX_takeState, hitems, mark_taken_of_split hne]
  · intro htaken
    have hq : ((s.takeState c f).flowX f).queued = [] := FlowX.queued_of_taken htaken
    refine ⟨_, exec_take hreach f, ?_, ?_⟩
    · rw [State.ownActs_take_result hs, State.takeOp_of_empty hq]
    · rw [State.ownActs_take_flowX hs, State.takeOp_of_empty hq, State.flowX_takeState]

end Sys2Proof.Machine
end

