-- ==== Sys2Proof/Proofs/PeBands.lean ====
section
/-!
PROOFS. PeBands.lean: the balls of a PE band by their distance from the package edge (R478, R479): the supply rows, the place of a
pair slot, and from these `Obligations.PeBandBalls`. A ball is brought to its band once; what the band carries is then shown for both.
-/
namespace Sys2Proof.Machine

/-! ### From the array to the bands -/

theorem ball_top {d : Nat} (hd : d ≤ 14) (col : Nat) : ball d col = peBall true d col := if_pos hd

/-- Distance `d` in the bottom band is the row of index `49 - d`. -/
theorem ball_bottom {d : Nat} (hpos : 0 < d) (hd : d ≤ 14) (col : Nat) : ball (49 - d) col = peBall false d col := by
  have hbelow : ¬ 49 - d ≤ 14 := by omega
  have hband : 35 ≤ 49 - d := by omega
  have hback : 49 - (49 - d) = d := by omega
  rw [ball, if_neg hbelow, if_pos hband, hback]

/-- Bays 0 to 3 have the top band and bays 4 to 7 the bottom band. -/
theorem ball_of_bay (b col : Nat) {d : Nat} (hpos : 0 < d) (hd : d ≤ 14) :
    ball (if b < 4 then d else 49 - d) col = peBall (decide (b < 4)) d col := by
  by_cases hb : b < 4
  · simp only [hb, if_true, decide_true, ball_top hd]
  · simp only [hb, if_false, decide_false, ball_bottom hpos hd]

/-! ### The supply rows of a band -/

theorem peBall_of_no_signalRow {d : Nat} (hd : signalRow d = none) (top : Bool) (col : Nat) :
    peBall top d col = if d = 8 ∧ col % 2 = 1 then .rail .vddaPe else .rail .vss := by
  simp only [peBall, hd]

theorem peBall_vss {d : Nat} (hd : d = 4 ∨ d = 12) (top : Bool) (col : Nat) : peBall top d col = .rail .vss := by
  have hrow : signalRow d = none := if_pos (by omega)
  rw [peBall_of_no_signalRow hrow, if_neg (by omega)]

/-- Column `x + 1` of the row at distance 8 is odd where `x` is even. -/
theorem peBall_eight (top : Bool) (x : Nat) : peBall top 8 (x + 1) = .rail (if x % 2 = 0 then .vddaPe else .vss) := by
  rw [peBall_of_no_signalRow rfl]
  by_cases hx : x % 2 = 0
  · rw [if_pos hx, if_pos ⟨rfl, by omega⟩]
  · rw [if_neg hx, if_neg (by omega)]

theorem peBandSupplies : PeBandSupplies := by
  constructor
  · intro d hmem x _
    have hd : d = 4 ∨ d = 12 := by simpa using hmem
    rw [ball_top (by omega), ball_bottom (by omega) (by omega)]
    exact ⟨peBall_vss hd _ _, peBall_vss hd _ _⟩
  · intro x _
    rw [ball_top (by omega), show 41 = 49 - 8 from rfl, ball_bottom (by omega) (by omega)]
    exact ⟨peBall_eight _ x, peBall_eight _ x⟩

/-! ### The pair slots of a band -/

/-- The distances of the signal rows, in the order of R479. -/
def signalDistance (s : Nat) : Nat := [1, 2, 3, 5, 6, 7, 9, 10, 11, 13, 14].getD s 0

theorem signalRow_signalDistance : ∀ s < 11, signalRow (signalDistance s) = some s := by decide

theorem signalDistance_bounds : ∀ s < 11, 0 < signalDistance s ∧ signalDistance s ≤ 14 := by decide

/-- In a signal row, the ball at place `2j` or `2j + 1` of the twelve columns of the `m`-th bay of a band belongs to slot `j` of the row. -/
theorem peBall_of_signalRow {d s j : Nat} (hd : signalRow d = some s) (hj : j < 6) (top : Bool) (m : Nat) (neg : Bool) :
    peBall top d (12 * m + 2 * j + 1 + neg.toNat) = peSlot (m + if top then 0 else 4) (6 * s + j) neg := by
  have hneg : neg.toNat ≤ 1 := Bool.toNat_le neg
  have hplace : 12 * m + 2 * j + 1 + neg.toNat - 1 = 12 * m + (2 * j + neg.toNat) := by omega
  have hbay : (12 * m + (2 * j + neg.toNat)) / 12 = m := by omega
  have hcol : (12 * m + (2 * j + neg.toNat)) % 12 = 2 * j + neg.toNat := by omega
  have hslot : (2 * j + neg.toNat) / 2 = j := by omega
  have hside : decide ((2 * j + neg.toNat) % 2 = 1) = neg := by cases neg <;> simp [Nat.add_mod]
  simp only [peBall, hd, hplace, hbay, hcol, hslot, hside]

/-- A bay is the `b mod 4`-th of its band. -/
theorem bay_of_band {b : Nat} (hb : b < 8) : (b % 4 + if decide (b < 4) then 0 else 4) = b := by
  simp only [decide_eq_true_eq]
  split <;> omega

theorem peBandSlots : PeBandSlots := by
  intro b hb s hs j hj neg
  have ⟨hpos, hle⟩ := signalDistance_bounds s hs
  calc ball (if b < 4 then signalDistance s else 49 - signalDistance s) (12 * (b % 4) + 2 * j + 1 + neg.toNat)
      = peBall (decide (b < 4)) (signalDistance s) (12 * (b % 4) + 2 * j + 1 + neg.toNat) := ball_of_bay b _ hpos hle
    _ = peSlot (b % 4 + if decide (b < 4) then 0 else 4) (6 * s + j) neg :=
        peBall_of_signalRow (signalRow_signalDistance s hs) hj _ _ _
    _ = peSlot b (6 * s + j) neg := by rw [bay_of_band hb]

/-- Settles O60: the supply rows and the pair slots of both bands. -/
theorem peBandBalls : Obligations.PeBandBalls := ⟨peBandSupplies, peBandSlots⟩

end Sys2Proof.Machine
end

