-- ==== Sys2Proof/Proofs/Commands.lean ====
section
/-!
PROOFS. Commands.lean: what holds of every command and of every step: each command answers a next state that differs from the
state it was given in its footprint alone, and the canonical form is kept. From these O1 to O6 and O57.
-/
namespace Sys2Proof.Machine

/-! ### Sets of registers and of parts of the state -/

/-- The set of the registers with these names. -/
def namesMask (l : List RegName) : Nat := l.foldr (fun n m => 2 ^ n.ctorIdx ||| m) 0

/-- The set of these parts of the state. -/
def partsMask (l : List StatePart) : Nat := l.foldr (fun p m => 2 ^ 241 * 2 ^ p.ctorIdx ||| m) 0

/-- The set of all parts of the state but the queue. -/
def allParts : Nat := 2 ^ 241 * (2 ^ 30 - 1)

/-- What a command can change: its footprint, and where that lists nothing, everything but the queue. -/
def commandMask (c : Instr) : Nat :=
  match footprint c with
  | some (names, parts) => namesMask names ||| partsMask parts
  | none => allRegs ||| allParts

theorem testBit_namesMask (l : List RegName) (n : Nat) : (namesMask l).testBit n = l.any fun r => decide (r.ctorIdx = n) := by
  induction l with
  | nil => exact Nat.zero_testBit n
  | cons r l ih =>
    show (2 ^ r.ctorIdx ||| namesMask l).testBit n = _
    rw [Nat.testBit_or, Nat.testBit_two_pow, ih, List.any_cons]

theorem testBit_partsMask (l : List StatePart) (n : Nat) :
    (partsMask l).testBit n = l.any fun p => decide (241 + p.ctorIdx = n) := by
  induction l with
  | nil => exact Nat.zero_testBit n
  | cons p l ih =>
    show (2 ^ 241 * 2 ^ p.ctorIdx ||| partsMask l).testBit n = _
    rw [← Nat.pow_add, Nat.testBit_or, Nat.testBit_two_pow, ih, List.any_cons]

theorem RegName.ctorIdx_lt (n : RegName) : n.ctorIdx < 240 := by cases n <;> decide

/-- A register whose name is not listed is not in the footprint's set. -/
theorem footprint_name {names : List RegName} {n : RegName} (h : n ∉ names) (parts : List StatePart) :
    (namesMask names ||| partsMask parts).testBit n.ctorIdx = false := by
  rw [Nat.testBit_or, testBit_namesMask, testBit_partsMask, Bool.or_eq_false_iff]
  constructor <;> rw [List.any_eq_false] <;> intro x hx he
  · exact h (RegName.eq_of_idx (of_decide_eq_true he) ▸ hx)
  · have hn := n.ctorIdx_lt
    have := of_decide_eq_true he
    omega

theorem StatePart.eq_of_idx {p q : StatePart} (h : p.ctorIdx = q.ctorIdx) : p = q := by
  rw [← StatePart.ofNat_ctorIdx p, ← StatePart.ofNat_ctorIdx q, h]

/-- A part that is not listed is not in the footprint's set. -/
theorem footprint_part {parts : List StatePart} {p : StatePart} (h : p ∉ parts) (names : List RegName) :
    (namesMask names ||| partsMask parts).testBit (241 + p.ctorIdx) = false := by
  rw [Nat.testBit_or, testBit_namesMask, testBit_partsMask, Bool.or_eq_false_iff]
  constructor <;> rw [List.any_eq_false] <;> intro x hx he
  · have hx := x.ctorIdx_lt
    have := of_decide_eq_true he
    omega
  · exact h (StatePart.eq_of_idx (Nat.add_left_cancel (of_decide_eq_true he)) ▸ hx)

/-- The queue is in no footprint's set. -/
theorem footprint_queue (names : List RegName) (parts : List StatePart) :
    (namesMask names ||| partsMask parts).testBit 240 = false := by
  rw [Nat.testBit_or, testBit_namesMask, testBit_partsMask, Bool.or_eq_false_iff]
  constructor <;> rw [List.any_eq_false] <;> intro x _ he
  · have hx := x.ctorIdx_lt
    have := of_decide_eq_true he
    omega
  · have := of_decide_eq_true he
    omega

theorem Only.part {N : Nat} {s t : State} (h : Only N s t) (p : StatePart) (hp : N.testBit (241 + p.ctorIdx) = false) : p.Same s t :=
  match p with
  | .ticks => h.ticks hp
  | .events => h.events hp
  | .startOfTick => h.startOfTick hp
  | .halvesHost => h.halvesHost hp
  | .halvesCore => h.halvesCore hp
  | .out => h.out hp
  | .free => h.free hp
  | .mem => h.mem hp
  | .time => h.time hp
  | .olu => h.olu hp
  | .host => h.host hp
  | .disp => h.disp hp
  | .gfPrev => h.gfPrev hp
  | .seqs => h.seqs hp
  | .bars => h.bars hp
  | .chans => h.chans hp
  | .stores => h.stores hp
  | .logs => h.logs hp
  | .logTurn => h.logTurn hp
  | .dclks => h.dclks hp
  | .dram => h.dram hp
  | .site => h.site hp
  | .page => h.page hp
  | .fes => h.fes hp
  | .adcs => h.adcs hp
  | .acqs => h.acqs hp
  | .tims => h.tims hp
  | .cal => h.cal hp
  | .ras => h.ras hp
  | .clk => h.clk hp

/-! ### Every command -/

theorem OnlyOut.mono {M N : Nat} {s : State} {o : Host.Outcome State Fault Refusal} (h : OnlyOut M s o) (hs : M ||| N = N) :
    OnlyOut N s o := (Only.refl N s).outcome h hs

theorem OnlyOut.inFootprint {M : Nat} {c : Instr} {names : List RegName} {parts : List StatePart} {s : State}
    {o : Host.Outcome State Fault Refusal} (h : OnlyOut M s o) (hf : footprint c = some (names, parts))
    (hs : M ||| (namesMask names ||| partsMask parts) = namesMask names ||| partsMask parts) : OnlyOut (commandMask c) s o :=
  h.mono (by simpa only [commandMask, hf] using hs)

theorem OnlyOut.inAll {M : Nat} {c : Instr} {s : State} {o : Host.Outcome State Fault Refusal} (h : OnlyOut M s o)
    (hf : footprint c = none) (hs : M ||| (allRegs ||| allParts) = allRegs ||| allParts) : OnlyOut (commandMask c) s o :=
  h.mono (by simpa only [commandMask, hf] using hs)

/-- A command changes its footprint alone. -/
theorem exec_within (c : Instr) (s : State) : OnlyOut (commandMask c) s (exec c s) := by
  cases c with
  | registerWrite _ _ _ _ => exact .inAll (execRegisterWrite_within _ _ _ _ _) rfl (by decide)
  | w1cClear _ _ => exact .inAll (execW1cClear_within _ _ _) rfl (by decide)
  | baymapCommit _ _ => exact .inFootprint (execBaymapCommit_within _ _ _) rfl (by decide)
  | refclkDropout _ => exact .inFootprint (execRefclkDropout_within _ _) rfl (by decide)
  | refLost => exact .inFootprint (execRefLost_within _) rfl (by decide)
  | refRestored _ => exact .inFootprint (execRefRestored_within _ _) rfl (by decide)
  | rootLock => exact .inFootprint (execRootLock_within _) rfl (by decide)
  | refmonClear => exact .inFootprint (execRefmonClear_within _) rfl (by decide)
  | alignArm _ _ _ => exact .inFootprint (execAlignArm_within _ _ _ _) rfl (by decide)
  | alignDisarm _ => exact .inFootprint (execAlignDisarm_within _ _) rfl (by decide)
  | syncDrive => exact .inFootprint (execSyncDrive_within _) rfl (by decide)
  | syncCapture => exact .inFootprint (execSyncCapture_within _) rfl (by decide)
  | alignmentEdge _ => exact .inFootprint (execAlignmentEdge_within _ _) rfl (by decide)
  | precStatsClear => exact .inFootprint (execPrecStatsClear_within _) rfl (by decide)
  | gpioEdge _ _ _ _ => exact .inFootprint (execGpioEdge_within _ _ _ _ _) rfl (by decide)
  | seqStart _ _ => exact .inFootprint (execSeqStart_within _ _ _) rfl (by decide)
  | seqResume _ _ => exact .inFootprint (execSeqResume_within _ _ _) rfl (by decide)
  | pauseRequest _ _ => exact .inFootprint (execPauseRequest_within _ _ _) rfl (by decide)
  | abort _ _ => exact .inFootprint (execAbort_within _ _ _) rfl (by decide)
  | faultClear _ _ => exact .inFootprint (execFaultClear_within _ _ _) rfl (by decide)
  | nopRec _ => exact .inFootprint (execNopRec_within _ _) rfl (by decide)
  | loopRec _ => exact .inFootprint (execLoopRec_within _ _) rfl (by decide)
  | endloop _ => exact .inFootprint (execEndloop_within _ _) rfl (by decide)
  | repeatRec _ => exact .inFootprint (execRepeatRec_within _ _) rfl (by decide)
  | callRec _ => exact .inFootprint (execCallRec_within _ _) rfl (by decide)
  | ret _ => exact .inFootprint (execRet_within _ _) rfl (by decide)
  | jump _ => exact .inFootprint (execJump_within _ _) rfl (by decide)
  | jumpif _ => exact .inFootprint (execJumpif_within _ _) rfl (by decide)
  | matchRec _ => exact .inFootprint (execMatchRec_within _ _) rfl (by decide)
  | flagset _ => exact .inFootprint (execFlagset_within _ _) rfl (by decide)
  | flagclr _ => exact .inFootprint (execFlagclr_within _ _) rfl (by decide)
  | waitraise _ => exact .inFootprint (execWaitraise_within _ _) rfl (by decide)
  | barrier _ => exact .inFootprint (execBarrier_within _ _) rfl (by decide)
  | trigger _ => exact .inFootprint (execTrigger_within _ _) rfl (by decide)
  | measure _ => exact .inFootprint (execMeasure_within _ _) rfl (by decide)
  | timarm _ => exact .inFootprint (execTimarm_within _ _) rfl (by decide)
  | feapply _ => exact .inFootprint (execFeapply_within _ _) rfl (by decide)
  | pagehint _ => exact .inFootprint (execPagehint_within _ _) rfl (by decide)
  | stopiffail _ => exact .inFootprint (execStopiffail_within _ _) rfl (by decide)
  | halt _ => exact .inFootprint (execHalt_within _ _) rfl (by decide)
  | endRec _ => exact .inFootprint (execEndRec_within _ _) rfl (by decide)
  | edgeApply _ _ _ => exact .inFootprint (execEdgeApply_within _ _ _ _) rfl (by decide)
  | compareResult _ => exact .inFootprint (execCompareResult_within _ _) rfl (by decide)
  | pegWatchdog _ => exact .inFootprint (execPegWatchdog_within _ _) rfl (by decide)
  | holdTimeout _ => exact .inFootprint (execHoldTimeout_within _ _) rfl (by decide)
  | barrierRelease _ _ => exact .inFootprint (execBarrierRelease_within _ _ _) rfl (by decide)
  | park _ => exact .inFootprint (execPark_within _ _) rfl (by decide)
  | tableCommit _ _ => exact .inFootprint (execTableCommit_within _ _ _) rfl (by decide)
  | dclkStart _ _ _ => exact .inFootprint (execDclkStart_within _ _ _ _) rfl (by decide)
  | dclkDisable _ _ _ => exact .inFootprint (execDclkDisable_within _ _ _ _) rfl (by decide)
  | frequencyCommit _ _ _ => exact .inFootprint (execFrequencyCommit_within _ _ _ _) rfl (by decide)
  | edgeStatClear _ _ => exact .inFootprint (execEdgeStatClear_within _ _ _) rfl (by decide)
  | failSnap _ => exact .inFootprint (execFailSnap_within _ _) rfl (by decide)
  | failCountClear _ => exact .inFootprint (execFailCountClear_within _ _) rfl (by decide)
  | cmpStatClear _ => exact .inFootprint (execCmpStatClear_within _ _) rfl (by decide)
  | logWrite => exact .inFootprint (execLogWrite_within _) rfl (by decide)
  | mirror _ _ => exact .inFootprint (execMirror_within _ _ _) rfl (by decide)
  | logCfgWrite _ _ => exact .inFootprint (execLogCfgWrite_within _ _ _) rfl (by decide)
  | logStatClear _ => exact .inFootprint (execLogStatClear_within _ _) rfl (by decide)
  | captureBlockWrite _ => exact .inFootprint (execCaptureBlockWrite_within _ _) rfl (by decide)
  | capCfgWrite _ _ => exact .inFootprint (execCapCfgWrite_within _ _ _) rfl (by decide)
  | capStatClear _ => exact .inFootprint (execCapStatClear_within _ _) rfl (by decide)
  | rebuild => exact .inFootprint (execRebuild_within _) rfl (by decide)
  | rebuildDone => exact .inFootprint (execRebuildDone_within _) rfl (by decide)
  | winRead _ => exact .inFootprint (execWinRead_within _ _) rfl (by decide)
  | winWrite _ => exact .inFootprint (execWinWrite_within _ _) rfl (by decide)
  | loadStart => exact .inFootprint (execLoadStart_within _) rfl (by decide)
  | loadComplete _ _ => exact .inFootprint (execLoadComplete_within _ _ _) rfl (by decide)
  | lookahead _ _ => exact .inFootprint (execLookahead_within _ _ _) rfl (by decide)
  | prefetchFill _ => exact .inFootprint (execPrefetchFill_within _ _) rfl (by decide)
  | stallResume _ _ => exact .inFootprint (execStallResume_within _ _ _) rfl (by decide)
  | stallLimit _ => exact .inFootprint (execStallLimit_within _ _) rfl (by decide)
  | underrunClear _ => exact .inFootprint (execUnderrunClear_within _ _) rfl (by decide)
  | stallTimeClear _ => exact .inFootprint (execStallTimeClear_within _ _) rfl (by decide)
  | lcacheStatClear _ => exact .inFootprint (execLcacheStatClear_within _ _) rfl (by decide)
  | loadStatClear => exact .inFootprint (execLoadStatClear_within _) rfl (by decide)
  | pgtErrStatClear => exact .inFootprint (execPgtErrStatClear_within _) rfl (by decide)
  | siteCommit => exact .inFootprint (execSiteCommit_within _) rfl (by decide)
  | retire _ => exact .inFootprint (execRetire_within _ _) rfl (by decide)
  | siteEnd _ => exact .inFootprint (execSiteEnd_within _ _) rfl (by decide)
  | sampleOffset _ _ => exact .inFootprint (execSampleOffset_within _ _ _) rfl (by decide)
  | domainStep _ _ => exact .inFootprint (execDomainStep_within _ _ _) rfl (by decide)
  | intClear _ => exact .inFootprint (execIntClear_within _ _) rfl (by decide)
  | domainSwitch _ => exact .inFootprint (execDomainSwitch_within _ _) rfl (by decide)
  | servoHoldover _ => exact .inFootprint (execServoHoldover_within _ _) rfl (by decide)
  | rejectCountClear _ => exact .inFootprint (execRejectCountClear_within _ _) rfl (by decide)
  | latch _ _ => exact .inFootprint (execLatch_within _ _ _) rfl (by decide)
  | checkMessageSend => exact .inFootprint (execCheckMessageSend_within _) rfl (by decide)
  | lockstepLost => exact .inFootprint (execLockstepLost_within _) rfl (by decide)
  | timeportRx _ _ _ => exact .inFootprint (execTimeportRx_within _ _ _ _) rfl (by decide)
  | ppsOut => exact .inFootprint (execPpsOut_within _) rfl (by decide)
  | ppsIn _ => exact .inFootprint (execPpsIn_within _ _) rfl (by decide)
  | raiseFire _ => exact .inFootprint (execRaiseFire_within _ _) rfl (by decide)
  | oluEnable _ => exact .inFootprint (execOluEnable_within _ _) rfl (by decide)
  | oluDisable _ => exact .inFootprint (execOluDisable_within _ _) rfl (by decide)
  | retrain _ => exact .inFootprint (execRetrain_within _ _) rfl (by decide)
  | trainingAttempt _ => exact .inFootprint (execTrainingAttempt_within _ _) rfl (by decide)
  | trainingFail _ => exact .inFootprint (execTrainingFail_within _ _) rfl (by decide)
  | linkUp _ _ _ => exact .inFootprint (execLinkUp_within _ _ _ _) rfl (by decide)
  | linkDown _ => exact .inFootprint (execLinkDown_within _ _) rfl (by decide)
  | linkFrame _ _ => exact .inFootprint (execLinkFrame_within _ _ _) rfl (by decide)
  | retryTimeout _ => exact .inFootprint (execRetryTimeout_within _ _) rfl (by decide)
  | flagMsg _ _ => exact .inFootprint (execFlagMsg_within _ _ _) rfl (by decide)
  | raiseMsg _ _ => exact .inFootprint (execRaiseMsg_within _ _ _) rfl (by decide)
  | mailMsg _ _ => exact .inFootprint (execMailMsg_within _ _ _) rfl (by decide)
  | bulkStart _ _ => exact .inFootprint (execBulkStart_within _ _ _) rfl (by decide)
  | bulkData _ _ => exact .inFootprint (execBulkData_within _ _ _) rfl (by decide)
  | bulkDone _ _ => exact .inFootprint (execBulkDone_within _ _ _) rfl (by decide)
  | etcheck _ _ _ => exact .inFootprint (execEtcheck_within _ _ _ _) rfl (by decide)
  | etcheckSend _ => exact .inFootprint (execEtcheckSend_within _ _) rfl (by decide)
  | changeMsg _ _ => exact .inFootprint (execChangeMsg_within _ _ _) rfl (by decide)
  | checkMsg _ _ => exact .inFootprint (execCheckMsg_within _ _ _) rfl (by decide)
  | directionSleep _ => exact .inFootprint (execDirectionSleep_within _ _) rfl (by decide)
  | directionWake _ => exact .inFootprint (execDirectionWake_within _ _) rfl (by decide)
  | gfSet _ _ => exact .inFootprint (execGfSet_within _ _ _) rfl (by decide)
  | gfClear _ _ => exact .inFootprint (execGfClear_within _ _ _) rfl (by decide)
  | gfReset _ => exact .inFootprint (execGfReset_within _ _) rfl (by decide)
  | bulkGo _ _ => exact .inFootprint (execBulkGo_within _ _ _) rfl (by decide)
  | oluErrStatClear _ => exact .inFootprint (execOluErrStatClear_within _ _) rfl (by decide)
  | doorbell _ _ => exact .inFootprint (execDoorbell_within _ _ _) rfl (by decide)
  | ringEnable _ _ => exact .inFootprint (execRingEnable_within _ _ _) rfl (by decide)
  | ringDisable _ _ => exact .inFootprint (execRingDisable_within _ _ _) rfl (by decide)
  | ringReset _ _ => exact .inFootprint (execRingReset_within _ _ _) rfl (by decide)
  | descriptorRead _ _ _ _ _ => exact .inFootprint (execDescriptorRead_within _ _ _ _ _ _) rfl (by decide)
  | dmaError _ _ => exact .inFootprint (execDmaError_within _ _ _) rfl (by decide)
  | ringInterrupt _ => exact .inFootprint (execRingInterrupt_within _ _) rfl (by decide)
  | completionRecord _ => exact .inFootprint (execCompletionRecord_within _ _) rfl (by decide)
  | cmdNop _ => exact .inFootprint (execCmdNop_within _ _) rfl (by decide)
  | cmdTableLoad _ => exact .inFootprint (execCmdTableLoad_within _ _) rfl (by decide)
  | tableLoadData _ _ _ => exact .inFootprint (execTableLoadData_within _ _ _ _) rfl (by decide)
  | cmdCommitAtPeg _ => exact .inFootprint (execCmdCommitAtPeg_within _ _) rfl (by decide)
  | cmdPageMap _ => exact .inFootprint (execCmdPageMap_within _ _) rfl (by decide)
  | cmdStreamPage _ => exact .inFootprint (execCmdStreamPage_within _ _) rfl (by decide)
  | cmdRaise _ => exact .inFootprint (execCmdRaise_within _ _) rfl (by decide)
  | cmdAbort _ => exact .inFootprint (execCmdAbort_within _ _) rfl (by decide)
  | cmdSiteSet _ => exact .inFootprint (execCmdSiteSet_within _ _) rfl (by decide)
  | cmdCalRun _ => exact .inFootprint (execCmdCalRun_within _ _) rfl (by decide)
  | cmdCountersRead _ => exact .inFootprint (execCmdCountersRead_within _ _) rfl (by decide)
  | fuseArm _ => exact .inFootprint (execFuseArm_within _ _) rfl (by decide)
  | fuseConfirm _ => exact .inFootprint (execFuseConfirm_within _ _) rfl (by decide)
  | fuseLocked => exact .inFootprint (execFuseLocked_within _) rfl (by decide)
  | cmdBarrier _ => exact .inFootprint (execCmdBarrier_within _ _) rfl (by decide)
  | cmdMail _ => exact .inFootprint (execCmdMail_within _ _) rfl (by decide)
  | unsupportedOpcode _ => exact .inFootprint (execUnsupportedOpcode_within _ _) rfl (by decide)
  | streamDescriptor _ => exact .inFootprint (execStreamDescriptor_within _ _) rfl (by decide)
  | timetxDescriptor _ => exact .inFootprint (execTimetxDescriptor_within _ _) rfl (by decide)
  | timerxDescriptor _ => exact .inFootprint (execTimerxDescriptor_within _ _) rfl (by decide)
  | mailDescriptor _ => exact .inFootprint (execMailDescriptor_within _ _) rfl (by decide)
  | eventStatClear => exact .inFootprint (execEventStatClear_within _) rfl (by decide)
  | ringStatusClear _ => exact .inFootprint (execRingStatusClear_within _ _) rfl (by decide)
  | coreRun _ => exact .inFootprint (execCoreRun_within _ _) rfl (by decide)
  | firmwareLoad _ => exact .inFootprint (execFirmwareLoad_within _ _) rfl (by decide)
  | loadDone _ _ _ _ => exact .inFootprint (execLoadDone_within _ _ _ _ _) rfl (by decide)
  | makeready _ _ => exact .inFootprint (execMakeready_within _ _ _) rfl (by decide)
  | cancel _ _ => exact .inFootprint (execCancel_within _ _ _) rfl (by decide)
  | setflags _ _ _ => exact .inFootprint (execSetflags_within _ _ _ _) rfl (by decide)
  | clrflags _ _ _ => exact .inFootprint (execClrflags_within _ _ _ _) rfl (by decide)
  | slotReset _ _ => exact .inFootprint (execSlotReset_within _ _ _) rfl (by decide)
  | setwait _ _ => exact .inFootprint (execSetwait_within _ _ _) rfl (by decide)
  | waitOp _ => exact .inFootprint (execWaitOp_within _ _) rfl (by decide)
  | yield _ => exact .inFootprint (execYield_within _ _) rfl (by decide)
  | switch _ => exact .inFootprint (execSwitch_within _ _) rfl (by decide)
  | takeflags _ => exact .inFootprint (execTakeflags_within _ _) rfl (by decide)
  | submit _ _ _ => exact .inFootprint (execSubmit_within _ _ _ _) rfl (by decide)
  | take _ _ => exact .inFootprint (execTake_within _ _ _) rfl (by decide)
  | release _ _ _ _ _ => exact .inFootprint (execRelease_within _ _ _ _ _ _) rfl (by decide)
  | sendmail _ _ => exact .inFootprint (execSendmail_within _ _ _) rfl (by decide)
  | waitTimeout _ => exact .inFootprint (execWaitTimeout_within _ _) rfl (by decide)
  | sliceEnd _ => exact .inFootprint (execSliceEnd_within _ _) rfl (by decide)
  | thrCfgWrite _ _ => exact .inFootprint (execThrCfgWrite_within _ _ _) rfl (by decide)
  | flowOutput _ => exact .inFootprint (execFlowOutput_within _ _) rfl (by decide)
  | flowEnable _ _ => exact .inFootprint (execFlowEnable_within _ _ _) rfl (by decide)
  | flowDisable _ _ => exact .inFootprint (execFlowDisable_within _ _ _) rfl (by decide)
  | flowReset _ _ => exact .inFootprint (execFlowReset_within _ _ _) rfl (by decide)
  | flowStatClear _ => exact .inFootprint (execFlowStatClear_within _ _) rfl (by decide)
  | thrWaitClear _ => exact .inFootprint (execThrWaitClear_within _ _) rfl (by decide)
  | mailNorouteClear => exact .inFootprint (execMailNorouteClear_within _) rfl (by decide)
  | inboxWrite => exact .inFootprint (execInboxWrite_within _) rfl (by decide)
  | loadWindow => exact .inFootprint (execLoadWindow_within _) rfl (by decide)
  | adcOutput _ _ _ => exact .inFootprint (execAdcOutput_within _ _ _ _) rfl (by decide)
  | sequenceTrigger _ _ => exact .inFootprint (execSequenceTrigger_within _ _ _) rfl (by decide)
  | adcStop _ _ => exact .inFootprint (execAdcStop_within _ _ _) rfl (by decide)
  | accClear _ _ => exact .inFootprint (execAccClear_within _ _ _) rfl (by decide)
  | sequenceCommit _ _ => exact .inFootprint (execSequenceCommit_within _ _ _) rfl (by decide)
  | urgentRequest _ _ _ => exact .inFootprint (execUrgentRequest_within _ _ _ _) rfl (by decide)
  | urgentCancel _ _ => exact .inFootprint (execUrgentCancel_within _ _ _) rfl (by decide)
  | bankRequest _ _ => exact .inFootprint (execBankRequest_within _ _ _) rfl (by decide)
  | coefWrite _ _ => exact .inFootprint (execCoefWrite_within _ _ _) rfl (by decide)
  | refReady _ => exact .inFootprint (execRefReady_within _ _) rfl (by decide)
  | sliceRotation _ _ => exact .inFootprint (execSliceRotation_within _ _ _) rfl (by decide)
  | adcWindow _ => exact .inFootprint (execAdcWindow_within _ _) rfl (by decide)
  | adcCountsClear _ => exact .inFootprint (execAdcCountsClear_within _ _) rfl (by decide)
  | rearm _ _ => exact .inFootprint (execRearm_within _ _ _) rfl (by decide)
  | acqStop _ _ => exact .inFootprint (execAcqStop_within _ _ _) rfl (by decide)
  | force _ _ => exact .inFootprint (execForce_within _ _ _) rfl (by decide)
  | autoTrigger _ => exact .inFootprint (execAutoTrigger_within _ _) rfl (by decide)
  | holdoffEnd _ => exact .inFootprint (execHoldoffEnd_within _ _) rfl (by decide)
  | acqCountsClear _ _ => exact .inFootprint (execAcqCountsClear_within _ _ _) rfl (by decide)
  | acqRingWrite _ _ => exact .inFootprint (execAcqRingWrite_within _ _ _) rfl (by decide)
  | timArm _ _ => exact .inFootprint (execTimArm_within _ _ _) rfl (by decide)
  | timDisarm _ _ => exact .inFootprint (execTimDisarm_within _ _ _) rfl (by decide)
  | timResultClear _ _ => exact .inFootprint (execTimResultClear_within _ _ _) rfl (by decide)
  | timEdge _ _ _ _ => exact .inFootprint (execTimEdge_within _ _ _ _ _) rfl (by decide)
  | timComplete _ => exact .inFootprint (execTimComplete_within _ _) rfl (by decide)
  | timTimeout _ => exact .inFootprint (execTimTimeout_within _ _) rfl (by decide)
  | seriesEntry _ => exact .inFootprint (execSeriesEntry_within _ _) rfl (by decide)
  | timStatClear _ => exact .inFootprint (execTimStatClear_within _ _) rfl (by decide)
  | dramEnable => exact .inFootprint (execDramEnable_within _) rfl (by decide)
  | dramInitDone => exact .inFootprint (execDramInitDone_within _) rfl (by decide)
  | dramDisable => exact .inFootprint (execDramDisable_within _) rfl (by decide)
  | train _ _ => exact .inFootprint (execTrain_within _ _ _) rfl (by decide)
  | apply _ => exact .inFootprint (execApply_within _ _) rfl (by decide)
  | mrw _ => exact .inFootprint (execMrw_within _ _) rfl (by decide)
  | mrr _ _ => exact .inFootprint (execMrr_within _ _ _) rfl (by decide)
  | readCmp _ _ => exact .inFootprint (execReadCmp_within _ _ _) rfl (by decide)
  | writeReadCmp _ _ => exact .inFootprint (execWriteReadCmp_within _ _ _) rfl (by decide)
  | wlevel _ _ => exact .inFootprint (execWlevel_within _ _ _) rfl (by decide)
  | refresh _ _ => exact .inFootprint (execRefresh_within _ _ _) rfl (by decide)
  | mr4Poll _ => exact .inFootprint (execMr4Poll_within _ _) rfl (by decide)
  | patrolScrub _ _ => exact .inFootprint (execPatrolScrub_within _ _ _) rfl (by decide)
  | srEnter => exact .inFootprint (execSrEnter_within _) rfl (by decide)
  | autoSelfRefresh => exact .inFootprint (execAutoSelfRefresh_within _) rfl (by decide)
  | srExit => exact .inFootprint (execSrExit_within _) rfl (by decide)
  | outOfRangeClear => exact .inFootprint (execOutOfRangeClear_within _) rfl (by decide)
  | panicClear => exact .inFootprint (execPanicClear_within _) rfl (by decide)
  | srClear => exact .inFootprint (execSrClear_within _) rfl (by decide)
  | eccStatClear _ => exact .inFootprint (execEccStatClear_within _ _) rfl (by decide)
  | timOffset _ _ => exact .inFootprint (execTimOffset_within _ _ _) rfl (by decide)
  | fineLinearity _ _ => exact .inFootprint (execFineLinearity_within _ _ _) rfl (by decide)
  | driveDeskew _ _ _ => exact .inFootprint (execDriveDeskew_within _ _ _ _) rfl (by decide)
  | roundTrip _ _ => exact .inFootprint (execRoundTrip_within _ _ _) rfl (by decide)
  | roundTripTimeout _ => exact .inFootprint (execRoundTripTimeout_within _ _) rfl (by decide)
  | compareDeskew _ _ _ _ => exact .inFootprint (execCompareDeskew_within _ _ _ _ _) rfl (by decide)
  | adc _ _ _ => exact .inFootprint (execAdc_within _ _ _ _) rfl (by decide)
  | dclkDuty _ _ _ => exact .inFootprint (execDclkDuty_within _ _ _ _) rfl (by decide)
  | bayFull _ => exact .inFootprint (execBayFull_within _ _) rfl (by decide)
  | timeTrim => exact .inFootprint (execTimeTrim_within _) rfl (by decide)
  | calDone _ => exact .inAll (execCalDone_within _ _) rfl (by decide)
  | calAbort _ _ => exact .inFootprint (execCalAbort_within _ _ _) rfl (by decide)
  | storeCommit => exact .inFootprint (execStoreCommit_within _) rfl (by decide)
  | calStore _ => exact .inFootprint (execCalStore_within _ _) rfl (by decide)
  | driftUpdate => exact .inFootprint (execDriftUpdate_within _) rfl (by decide)
  | eyeMeasure _ _ => exact .inFootprint (execEyeMeasure_within _ _ _) rfl (by decide)
  | seqReset _ _ => exact .inFootprint (execSeqReset_within _ _ _) rfl (by decide)
  | seqResetDone _ => exact .inFootprint (execSeqResetDone_within _ _) rfl (by decide)
  | bayReset _ _ => exact .inFootprint (execBayReset_within _ _ _) rfl (by decide)
  | bayResetDone _ _ _ => exact .inFootprint (execBayResetDone_within _ _ _ _) rfl (by decide)
  | warm _ => exact .inAll (execWarm_within _ _) rfl (by decide)
  | functionLevelReset => exact .inAll (execFunctionLevelReset_within _) rfl (by decide)
  | d3hotToD0 => exact .inAll (execD3hotToD0_within _) rfl (by decide)
  | perst => exact .inAll (execPerst_within _) rfl (by decide)
  | powerOn => exact .inAll (execPowerOn_within _) rfl (by decide)
  | hostReady _ _ => exact .inFootprint (execHostReady_within _ _ _) rfl (by decide)
  | railFault _ => exact .inAll (execRailFault_within _ _) rfl (by decide)
  | rasUe _ _ _ _ => exact .inFootprint (execRasUe_within _ _ _ _ _) rfl (by decide)
  | rasErrStatClear => exact .inFootprint (execRasErrStatClear_within _) rfl (by decide)
  | tempUpdate _ => exact .inAll (execTempUpdate_within _ _) rfl (by decide)
  | peakClear _ => exact .inFootprint (execPeakClear_within _ _) rfl (by decide)
  | feStart _ _ => exact .inFootprint (execFeStart_within _ _ _) rfl (by decide)
  | feAbort _ => exact .inFootprint (execFeAbort_within _ _) rfl (by decide)
  | feWrite _ _ => exact .inFootprint (execFeWrite_within _ _ _) rfl (by decide)
  | feDelay _ => exact .inFootprint (execFeDelay_within _ _) rfl (by decide)
  | feDelayExpiry _ => exact .inFootprint (execFeDelayExpiry_within _ _) rfl (by decide)
  | waitalert _ => exact .inFootprint (execWaitalert_within _ _) rfl (by decide)
  | feTimeout _ => exact .inFootprint (execFeTimeout_within _ _) rfl (by decide)
  | feListEnd _ => exact .inFootprint (execFeListEnd_within _ _) rfl (by decide)
  | feAlert _ _ _ => exact .inFootprint (execFeAlert_within _ _ _ _) rfl (by decide)
  | feLdataWrite _ _ => exact .inFootprint (execFeLdataWrite_within _ _ _) rfl (by decide)
  | feStatClear _ => exact .inFootprint (execFeStatClear_within _ _) rfl (by decide)
  | registerRead _ _ _ => exact .inFootprint (execRegisterRead_within _ _ _ _) rfl (by decide)
  | crcErr _ => exact .inFootprint (execCrcErr_within _ _) rfl (by decide)
  | forwarding _ _ => exact .inFootprint (execForwarding_within _ _ _) rfl (by decide)
  | ackLinkFrame _ => exact .inFootprint (execAckLinkFrame_within _ _) rfl (by decide)
  | markerGroup _ _ _ => exact .inFootprint (execMarkerGroup_within _ _ _ _) rfl (by decide)
  | trainingStateExit _ => exact .inFootprint (execTrainingStateExit_within _ _) rfl (by decide)
  | sleepBlock _ => exact .inFootprint (execSleepBlock_within _ _) rfl (by decide)
  | partnerWake _ => exact .inFootprint (execPartnerWake_within _ _) rfl (by decide)
  | pinEvent _ _ _ => exact .inFootprint (execPinEvent_within _ _ _ _) rfl (by decide)
  | loadErr _ _ => exact .inFootprint (execLoadErr_within _ _ _) rfl (by decide)
  | timetxComplete _ => exact .inFootprint (execTimetxComplete_within _ _) rfl (by decide)
  | timePortLink _ => exact .inFootprint (execTimePortLink_within _ _) rfl (by decide)
  | pcieLink _ _ _ => exact .inFootprint (execPcieLink_within _ _ _ _) rfl (by decide)
  | slewComplete => exact .inFootprint (execSlewComplete_within _) rfl (by decide)

theorem commandMask_queue (c : Instr) : (commandMask c).testBit 240 = false := by
  unfold commandMask
  split
  · exact footprint_queue ..
  · decide

theorem Continues.next (t : State) : Continues (.next t) := ⟨t, rfl⟩

theorem State.command_continues (s : State) (q op : Nat) (f : Desc → Token → State → State) : Continues (s.command q op f) := by
  unfold State.command
  split <;> exact .next _

theorem State.fuseCommand_continues (s : State) (q step : Nat) (f : Desc → Token → State → State) :
    Continues (s.fuseCommand q step f) := by
  unfold State.fuseCommand
  split
  · exact .next _
  · split
    · exact State.command_continues ..
    · exact .next _

theorem State.descriptor_continues (s : State) (q ty : Nat) (f : Desc → Token → State → State) :
    Continues (s.descriptor q ty f) := by
  unfold State.descriptor
  split <;> exact .next _

/-- A command answers a next state: in most at once, in the others in each branch of its meaning. -/
theorem exec_continues (c : Instr) (s : State) : Continues (exec c s) := by
  cases c
  case baymapCommit | refclkDropout | rootLock | refmonClear | alignArm | alignDisarm | precStatsClear | gpioEdge | seqStart |
    seqResume | pauseRequest | abort | faultClear | nopRec | loopRec | endloop | repeatRec | callRec | ret | jump | jumpif |
    matchRec | flagset | flagclr | waitraise | barrier | trigger | measure | timarm | feapply | pagehint | stopiffail | halt |
    endRec | barrierRelease | park | tableCommit | dclkStart | dclkDisable | frequencyCommit | edgeStatClear | failSnap |
    failCountClear | cmpStatClear | mirror | logCfgWrite | logStatClear | captureBlockWrite | capCfgWrite | capStatClear | rebuild
    | rebuildDone | winRead | winWrite | loadStart | loadComplete | lookahead | prefetchFill | stallResume | stallLimit |
    underrunClear | stallTimeClear | lcacheStatClear | loadStatClear | pgtErrStatClear | siteCommit | retire | siteEnd |
    sampleOffset | domainStep | intClear | domainSwitch | rejectCountClear | latch | lockstepLost | oluEnable | oluDisable |
    retrain | trainingFail | linkUp | linkDown | linkFrame | retryTimeout | etcheckSend | gfSet | gfClear | gfReset | bulkGo |
    oluErrStatClear | doorbell | ringEnable | ringDisable | ringReset | ringInterrupt | completionRecord | eventStatClear |
    ringStatusClear | coreRun | firmwareLoad | makeready | cancel | setflags | clrflags | slotReset | setwait | waitOp | yield |
    switch | takeflags | submit | take | release | sendmail | sliceEnd | thrCfgWrite | flowOutput | flowEnable | flowDisable |
    flowReset | flowStatClear | thrWaitClear | mailNorouteClear | sequenceTrigger | adcStop | accClear | sequenceCommit |
    urgentRequest | urgentCancel | bankRequest | coefWrite | adcCountsClear | rearm | acqStop | force | holdoffEnd |
    acqCountsClear | acqRingWrite | timArm | timDisarm | timResultClear | timEdge | seriesEntry | timStatClear | dramEnable |
    dramInitDone | dramDisable | train | apply | mrw | mrr | readCmp | writeReadCmp | wlevel | refresh | mr4Poll | patrolScrub |
    srEnter | autoSelfRefresh | srExit | outOfRangeClear | panicClear | srClear | eccStatClear | timOffset | fineLinearity |
    driveDeskew | roundTrip | roundTripTimeout | compareDeskew | adc | dclkDuty | bayFull | timeTrim | calAbort | storeCommit |
    calStore | driftUpdate | seqReset | seqResetDone | bayReset | warm | functionLevelReset | d3hotToD0 | perst | powerOn |
    rasErrStatClear | tempUpdate | peakClear | feStart | feAbort | feListEnd | feAlert | feLdataWrite | feStatClear | crcErr |
    ackLinkFrame | trainingStateExit | sleepBlock | partnerWake | pinEvent | loadErr | timePortLink | pcieLink | slewComplete =>
    exact .next _
  case cmdNop | cmdTableLoad | cmdCommitAtPeg | cmdPageMap | cmdStreamPage | cmdRaise | cmdAbort | cmdSiteSet | cmdCalRun |
    cmdCountersRead | cmdBarrier | cmdMail => exact State.command_continues ..
  case fuseArm | fuseConfirm => exact State.fuseCommand_continues ..
  case streamDescriptor | mailDescriptor => exact State.descriptor_continues ..
  all_goals simp only [exec, execRegisterWrite, execW1cClear, execRefLost, execRefRestored, execSyncDrive, execSyncCapture,
    execAlignmentEdge, execEdgeApply, execCompareResult, execPegWatchdog, execHoldTimeout, execLogWrite, execServoHoldover,
    execCheckMessageSend, execTimeportRx, execPpsOut, execPpsIn, execRaiseFire, execTrainingAttempt, execFlagMsg, execRaiseMsg,
    execMailMsg, execBulkStart, execBulkData, execBulkDone, execEtcheck, execChangeMsg, execCheckMsg, execDirectionSleep,
    execDirectionWake, execDescriptorRead, execDmaError, execTableLoadData, execFuseLocked, execTimetxDescriptor,
    execTimerxDescriptor, execLoadDone, execWaitTimeout, execInboxWrite, execLoadWindow, execAdcOutput, execRefReady,
    execSliceRotation, execAdcWindow, execAutoTrigger, execTimComplete, execTimTimeout, execCalDone, execEyeMeasure,
    execBayResetDone, execHostReady, execRailFault, execRasUe, execFeWrite, execFeDelay, execFeDelayExpiry, execWaitalert,
    execFeTimeout, execRegisterRead, execForwarding, execMarkerGroup, execTimetxComplete, execUnsupportedOpcode]
  all_goals repeat' first | exact .next _ | exact State.command_continues .. | exact State.descriptor_continues .. | split

/-! ### The obligations -/

/-- Settles O1: the step is defined by the front of the queue. -/
theorem frontCommandIsPerformed : Obligations.FrontCommandIsPerformed := by
  intro s c rest h
  simp only [step, h]

/-- Settles O3: no footprint holds the queue. -/
theorem everyCommandContinues : Obligations.EveryCommandContinues := by
  intro c s
  obtain ⟨t, ht⟩ := exec_continues c s
  exact ⟨t, ht, (exec_within c s t ht).pending (commandMask_queue c)⟩

/-- A step leaves the register file and local DRAM in the form that `Only` keeps. -/
theorem step_canon {s t : State} (hs : Canon s) (h : step s = .next t) : Canon t := by
  unfold step at h
  split at h
  · exact Host.Outcome.next.inj h ▸ (State.idle_within s).canon hs
  · next c rest _ => exact (exec_within c { s with pending := rest } t h).canon hs

/-- Settles O4: every command and the event tick are built of operations that keep the canonical form. -/
theorem stepKeepsCanonicalForm : Obligations.StepKeepsCanonicalForm := fun _ _ => step_canon

/-- Settles O5: nothing is listed at reset. -/
theorem resetIsCanonical : Obligations.ResetIsCanonical := ⟨Assoc.Wf_nil .., Assoc.Wf_nil ..⟩

/-- Settles O57: what a command can change is its footprint. -/
theorem commandsChangeTheirFootprint : Obligations.CommandsChangeTheirFootprint := by
  intro c names parts s t hf ht
  have h := exec_within c s t ht
  simp only [commandMask, hf] at h
  refine ⟨fun k hk => h.reg k (footprint_name hk parts), h.pending (footprint_queue ..),
    fun p hp => h.part p (footprint_part hp names), fun hm a => ?_⟩
  have hmem : t.mem = s.mem := h.mem (footprint_part hm names)
  simp only [State.memByte, hmem]

/-! ### An event tick on an empty queue -/

/-- The loads of the cores are answered before the tick. -/
def State.answered (s : State) : State := (List.range 4).foldl (fun (t : State) c => t.answerLoad c) s

theorem State.answered_within (s : State) :
    Only 0xff7dff4004011a4c030007006401c10060204000000f20080002201218000d45000 s s.answered :=
  (Only.refl ..).foldl fun t c => t.answerLoad_within c

/-- Ticks and ETCOUNT are as before. -/
def SameCount (s t : State) : Prop := t.ticks = s.ticks ∧ t.get F.clkEtcountCount = s.get F.clkEtcountCount

theorem Only.sameCount {N : Nat} {s t : State} (h : Only N s t) (ht : N.testBit 241 = false)
    (he : N.testBit RegName.clkEtcount.ctorIdx = false) : SameCount s t := ⟨h.ticks ht, h.get F.clkEtcountCount 0 0 he⟩

/-- The core ticks of an event tick are one tick. -/
theorem State.passCt_count (s : State) (n : Nat) :
    (s.passCt n).ticks = s.ticks + 1 ∧ (s.passCt n).get F.clkEtcountCount = s.get F.clkEtcountCount := by
  have h1 : SameCount s (s.transmitAll n) := (State.transmitAll_within s n).sameCount (by decide) (by decide)
  have h2 : SameCount ((s.transmitAll n).later n) (s.passCt n) :=
    Only.sameCount (N := 0x240000000000000000000000000000000000000000000000000000000800000)
      (State.slewEnds_only (State.ppsEnds_only (.refl ..) (by decide)) (by decide)) (by decide) (by decide)
  exact ⟨h2.1.trans (congrArg (· + 1) h1.1), h2.2.trans h1.2⟩

theorem State.advanceClocks_eq (s : State) :
    s.advanceClocks = (s.passCt 8).set F.clkEtcountCount 0 0 ((s.passCt 8).get F.clkEtcountCount + 1) := rfl

theorem State.advanceClocks_ticks (s : State) : s.advanceClocks.ticks = s.ticks + 1 := by
  rw [State.advanceClocks_eq, State.set_ticks, s.passCt_count 8 |>.1]

theorem State.advanceClocks_etcount (s : State) :
    s.advanceClocks.get F.clkEtcountCount = (s.get F.clkEtcountCount + 1) % 2 ^ F.clkEtcountCount.width := by
  rw [State.advanceClocks_eq, State.get_set _ _ _ _ _ (by decide), s.passCt_count 8 |>.2]

/-- While the root PLL is locked a tick adds one to the ticks and to ETCOUNT: the clocks advance, and nothing else counts. -/
theorem State.tick_counts (s : State) (h : s.bit F.clkStatusRootLock = true) :
    s.tick.ticks = s.ticks + 1 ∧ s.tick.get F.clkEtcountCount = (s.get F.clkEtcountCount + 1) % 2 ^ F.clkEtcountCount.width := by
  let t := s.endTick.coreClocks.dclkEdges
  let N : Nat := 0x7ff7ffec004011a4c8300073ffffffffffffff041282f200b080a241218000d45000
  have h1 : SameCount s t :=
    Only.sameCount (N := N) (State.dclkEdges_only (State.coreClocks_only (State.endTick_only (.refl ..) (by decide)) (by decide))
      (by decide)) (by decide) (by decide)
  have h2 : SameCount t.advanceClocks s.tick := by
    rw [State.tick, if_pos h]
    refine Only.sameCount (N := N) ?_ (by decide) (by decide)
    refine State.sampleCores_only (State.refreshCores_only (State.updatePanic_only (State.seqResetsEnd_only (State.autoResets_only
      (Only.foldl ?_ fun u q => State.seqActs_only _ _ (.refl ..) (by decide)) (by decide)) (by decide)) (by decide)) (by decide)) (by decide)
    exact State.issueAll_only _ (State.tickCounts_only (State.dueChanges_only (.refl ..) (by decide)) (by decide)) (by decide)
  exact ⟨by rw [h2.1, t.advanceClocks_ticks, h1.1], by rw [h2.2, t.advanceClocks_etcount, h1.2]⟩

/-- While it is not locked, none passes. -/
theorem State.tick_unlocked (s : State) (h : s.bit F.clkStatusRootLock = false) :
    s.tick.ticks = s.ticks ∧ s.tick.get F.clkEtcountCount = s.get F.clkEtcountCount := by
  simp only [State.tick, h]
  exact ⟨rfl, rfl⟩

/-- The commands that wait after a tick on an empty queue are stores of the cores. -/
theorem State.takeStores_pending {s : State} (h : s.pending = []) :
    ∀ c ∈ s.takeStores.pending, ∃ core off bytes data, c = .registerWrite (.core core) off bytes data := by
  intro c hc
  have hl : c ∈ (List.range 4).flatMap fun c => (s.coreX c).stores.map fun w =>
      Instr.registerWrite (.core c) w.1 w.2.1 (BitVec.ofNat 64 w.2.2) := by
    unfold State.takeStores at hc
    extract_lets l at hc
    split at hc
    · exact absurd (h ▸ hc) List.not_mem_nil
    · exact (List.mem_append.1 hc).resolve_left (h ▸ List.not_mem_nil)
  obtain ⟨core, _, hm⟩ := List.mem_flatMap.1 hl
  obtain ⟨w, _, rfl⟩ := List.mem_map.1 hm
  exact ⟨core, _, _, _, rfl⟩

/-- Settles O2: the tick is that of the state in which the loads are answered; then the stores wait. -/
theorem emptyQueueIsATick : Obligations.EmptyQueueIsATick := by
  intro s hs
  have ha := s.answered_within
  have hc : SameCount s s.answered := ha.sameCount (by decide) (by decide)
  have hl : s.answered.bit F.clkStatusRootLock = s.bit F.clkStatusRootLock := ha.bit _ _ _ (by decide)
  have hstores : SameCount s.answered.tick s.idle := (State.takeStores_within _).sameCount (by decide) (by decide)
  refine ⟨s.idle, by simp only [step, hs], fun h => ?_, fun h => ?_, State.takeStores_pending ?_⟩
  · obtain ⟨ht, he⟩ := s.answered.tick_counts (hl.trans h)
    exact ⟨by rw [hstores.1, ht, hc.1], by rw [hstores.2, he, hc.2]⟩
  · obtain ⟨ht, he⟩ := s.answered.tick_unlocked (hl.trans h)
    exact ⟨by rw [hstores.1, ht, hc.1], by rw [hstores.2, he, hc.2]⟩
  · exact ((State.tick_within _).pending (by decide)).trans ((ha.pending (by decide)).trans hs)

theorem resetWord_desc {k : RegKey} (h : k.name ≠ .coreKeyhash) : resetWord k = BitVec.ofNat 64 k.name.desc.reset := by
  unfold resetWord
  split
  · contradiction
  · rfl

/-- A field of a register that has its reset value. -/
theorem State.reset_get (f : Fld) (i j : Nat) (h : f.reg ≠ .coreKeyhash) :
    State.reset.get f i j = f.reg.desc.reset % 2 ^ 64 / 2 ^ f.lo % 2 ^ f.width := by
  show bitsOf (resetWord (f.key i j)) f.lo f.width = _
  rw [resetWord_desc h, bitsOf, BitVec.toNat_ofNat]
  rfl

/-- The lower half of a word whose other parts lie above it. -/
theorem State.reset_get_low (f : Fld) (i j n g p : Nat) (h : f.reg ≠ .coreKeyhash) (hlo : f.lo = 0) (hw : f.width = 16)
    (hn : n < 2 ^ 16) (hr : f.reg.desc.reset = n + (1 + g % 2) * 65536 + (p % 256) * 16777216) : State.reset.get f i j = n := by
  rw [State.reset_get f i j h, hlo, hw, hr]
  omega

/-- Settles O6: the reset values of the register map. -/
theorem resetValues : Obligations.ResetValues := by
  refine ⟨State.reset_get_low _ _ _ _ _ _ (by decide) rfl rfl (by decide) rfl, fun q _ => ⟨?_, ?_⟩, ?_, ?_, ?_, ?_, fun d _ => ⟨?_, ?_⟩, fun q _ => ?_⟩
  all_goals exact State.reset_get _ _ _ (by decide)

end Sys2Proof.Machine
end

