-- ==== Sys2Proof/Proofs/Clears.lean ====
section
/-!
PROOFS. Clears.lean: counts, sticky bits and their clears (R12, R13, R19, R62): what an increment, a set by hardware and a clear
leave in their own field, in the fields beside it and in every other register; from these O7 and O56.
-/
namespace Sys2Proof.Machine

/-! ### Registers where the register file is as before -/

theorem State.rd_of_regs {s t : State} (h : t.regs = s.regs) (k : RegKey) : t.rd k = s.rd k := by unfold State.rd; rw [h]

theorem State.get_of_regs {s t : State} (h : t.regs = s.regs) (f : Fld) (i j : Nat) : t.get f i j = s.get f i j := by
  unfold State.get
  rw [State.rd_of_regs h]

@[simp] theorem State.rd_note (s : State) (e : TickEvent) (k : RegKey) : (s.note e).rd k = s.rd k := State.rd_of_regs rfl k

@[simp] theorem State.get_note (s : State) (e : TickEvent) (f : Fld) (i j : Nat) : (s.note e).get f i j = s.get f i j :=
  State.get_of_regs rfl f i j

/-! ### Events that are discarded -/

theorem State.supersede_within (s : State) (n : Nat) : Only precMask s (s.supersede n) := State.supersede_only n (.refl ..) (by decide)

theorem RegName.testBit_two_pow_ne {n m : RegName} (h : n ≠ m) : (2 ^ m.ctorIdx).testBit n.ctorIdx = false := by
  rw [Nat.testBit_two_pow]
  exact decide_eq_false fun he => h (RegName.eq_of_idx he.symm)

/-- Counting discarded events leaves every register but CLK.PREC_STATS as it is. -/
theorem State.rd_supersede (s : State) (n : Nat) {k : RegKey} (h : k.name ≠ .clkPrecStats) : (s.supersede n).rd k = s.rd k :=
  (s.supersede_within n).reg k (RegName.testBit_two_pow_ne h)

theorem State.rd_superseded (s : State) {k : RegKey} (h : k.name ≠ .clkPrecStats) : s.superseded.rd k = s.rd k := s.rd_supersede 1 h

theorem State.decider_supersede (s : State) (n : Nat) (o : Obj) : (s.supersede n).decider o = s.decider o :=
  State.decider_congr ((s.supersede_within n).events (by decide)) o

/-! ### What decides whether a clear acts -/

theorem Only.inReset_field {N : Nat} {s t : State} (h : Only N s t) (hN : N.testBit RegName.rasStatus.ctorIdx = false) (k : RegKey)
    (lo : Nat) : t.inReset (.field k lo) = s.inReset (.field k lo) := by
  simp only [State.inReset, State.hostReady, State.bayResetting, h.bit F.rasStatusHostReady 0 0 hN,
    h.get F.rasStatusBayResetting 0 0 hN]

/-- A clear acts after an operation that changes neither the queue nor what is in reset as it would have acted before. -/
theorem Only.clearActs {N : Nat} {s t : State} (h : Only N s t) (hN : N.testBit RegName.rasStatus.ctorIdx = false)
    (hp : N.testBit 240 = false) (ht : N.testBit 241 = false) (hq : N.testBit 254 = false) (k : RegKey) (lo : Nat) :
    ClearActs t k lo ↔ ClearActs s k lo := by
  unfold ClearActs
  rw [h.inReset_field hN, h.waiting _ hp ht hq]

/-- A count or bit in which a clear has been sampled in this tick. -/
abbrev Sampled (s : State) (k : RegKey) (lo : Nat) : Prop := ∃ e, s.decider (.field k lo) = some e ∧ e.cls ≤ 3

theorem Sampled.clearedNow {s : State} {k : RegKey} {lo : Nat} (h : Sampled s k lo) : s.clearedNow k lo = true := by
  obtain ⟨e, he, hc⟩ := h
  simp [State.clearedNow, he, hc]

theorem Sampled.of_events {s t : State} {k : RegKey} {lo : Nat} (h : Sampled s k lo) (he : t.events = s.events) :
    Sampled t k lo := by
  unfold Sampled
  rwa [State.decider_congr he]

theorem Sampled.note {s : State} {k : RegKey} {lo : Nat} (h : Sampled s k lo) {e : TickEvent} (he : e.obj ≠ .field k lo) :
    Sampled (s.note e) k lo := by
  unfold Sampled
  rwa [State.decider_note_ne _ he]

/-- An increment of a count that a clear has sampled in this tick is lost (R62). -/
theorem State.get_count_sampled {s : State} {f sat : Fld} {i j : Nat} (h : Sampled s (f.key i j) f.lo) (n : Nat)
    (hf : f.reg = .clkPrecStats → f = F.clkPrecStatsSupersededCount ∧ i = 0 ∧ j = 0) :
    (s.count f sat i j n).get f i j = s.get f i j := by
  unfold State.count
  rw [if_pos h.clearedNow]
  by_cases hr : f.reg = .clkPrecStats
  · obtain ⟨rfl, rfl, rfl⟩ := hf hr
    rw [State.superseded, State.supersede, if_pos (.inr h.clearedNow)]
  · exact State.get_supersede _ _ _ _ _ hr

/-! ### One clear -/

/-- A clear that acts is recorded on its field, and what it discards is counted. -/
theorem State.clearing_acts {s : State} {k : RegKey} {lo : Nat} (h : ClearActs s k lo) (t : State) :
    s.clearing t k lo = (t.note ⟨.field k lo, 3, 0, 0⟩).supersede (s.lostToClear k lo) := by
  unfold State.clearing
  exact if_neg (by rw [h]; exact Bool.noConfusion)

/-- A clear that a reset discards is counted, and nothing else. -/
theorem State.clearing_discarded {s : State} {k : RegKey} {lo : Nat} (h : ¬ClearActs s k lo) (t : State) :
    s.clearing t k lo = s.superseded := by
  unfold State.clearing
  exact if_pos (Bool.eq_true_of_not_eq_false h)

theorem State.sampled_clearing {s : State} {k : RegKey} {lo : Nat} (h : ClearActs s k lo) (t : State) :
    Sampled (s.clearing t k lo) k lo := by
  rw [State.clearing_acts h]
  refine ⟨⟨.field k lo, 3, 0, 0⟩, ?_, Nat.le_refl 3⟩
  rw [State.decider_supersede]
  exact State.decider_note_self t _

/-- A clear of one field is sampled on no other. -/
theorem State.sampled_clearing_ne {s t : State} {k k' : RegKey} {lo lo' : Nat} (h : Sampled s k' lo') (ht : t.events = s.events)
    (hne : Obj.field k lo ≠ .field k' lo') : Sampled (s.clearing t k lo) k' lo' := by
  by_cases ha : ClearActs s k lo
  · rw [State.clearing_acts ha]
    exact ((h.of_events ht).note hne).of_events ((State.supersede_within _ _).events (by decide))
  · rw [State.clearing_discarded ha]
    exact h.of_events ((State.supersede_within _ _).events (by decide))

/-- A register that `t` leaves as it is reads so after the clear. -/
theorem State.rd_clearing {s t : State} {k k' : RegKey} {lo : Nat} (ht : t.rd k' = s.rd k') (hp : k'.name ≠ .clkPrecStats) :
    (s.clearing t k lo).rd k' = s.rd k' := by
  by_cases ha : ClearActs s k lo
  · rw [State.clearing_acts ha, State.rd_supersede _ _ hp]
    exact ht
  · rw [State.clearing_discarded ha, State.rd_superseded _ hp]

/-- Two fields of a register have no bit in common. -/
abbrev Fld.Apart (f g : Fld) : Prop := f.lo + f.width ≤ g.lo ∨ g.lo + g.width ≤ f.lo

/-- A field beside the cleared one is as before. -/
theorem State.get_clear_ne (s : State) (f g : Fld) (i j i' j' : Nat) (hg : g.reg ≠ .clkPrecStats) (h : f.lo + f.width ≤ 64)
    (d : f.reg ≠ g.reg ∨ i ≠ i' ∨ j ≠ j' ∨ f.Apart g) : (s.clear f i j).get g i' j' = s.get g i' j' := by
  unfold State.clear
  by_cases ha : ClearActs s (f.key i j) f.lo
  · rw [State.clearing_acts ha, State.get_supersede _ _ _ _ _ hg]
    exact s.get_set_ne f g i j 0 i' j' h d
  · rw [State.clearing_discarded ha]
    exact State.get_supersede _ _ _ _ _ hg

theorem State.rd_clear_ne (s : State) (f : Fld) (i j : Nat) {k : RegKey} (h : k ≠ f.key i j) (hp : k.name ≠ .clkPrecStats) :
    (s.clear f i j).rd k = s.rd k := State.rd_clearing (s.rd_set_ne f i j 0 h) hp

theorem State.clear_within (s : State) (f : Fld) (i j : Nat) : Only (f.mask ||| evMask) s (s.clear f i j) :=
  State.clear_only f i j (.refl ..) (Nat.or_self _)

/-! ### CLEAR commands: several counts, each with the bit that says it is saturated -/

/-- A count, or the bit that says it is saturated. -/
structure Place where
  fld : Fld
  i : Nat
  j : Nat
deriving DecidableEq

/-- The register of a place. -/
abbrev Place.key (p : Place) : RegKey := p.fld.key p.i p.j

/-- Two places have no bit in common. -/
abbrev Place.Apart (p q : Place) : Prop := p.fld.reg ≠ q.fld.reg ∨ p.i ≠ q.i ∨ p.j ≠ q.j ∨ p.fld.Apart q.fld

/-- A place that fields of registers can have: within 64 bits, of width 1 at least, and not in CLK.PREC_STATS. -/
abbrev Place.Plain (p : Place) : Prop := p.fld.lo + p.fld.width ≤ 64 ∧ 0 < p.fld.width ∧ p.fld.reg ≠ .clkPrecStats
  ∧ p.fld.reg ≠ .rasStatus

/-- One part of what a CLEAR command does to a place: a clear of a count, or the zeroing of a bit. -/
def State.wipe1 (s : State) (e : Bool × Place) : State :=
  if e.1 then s.clear e.2.fld e.2.i e.2.j else s.set e.2.fld e.2.i e.2.j 0

/-- What a CLEAR command does: places are cleared or zeroed one after another. -/
def State.wipe (s : State) (l : List (Bool × Place)) : State := l.foldl State.wipe1 s

theorem Place.Apart.symm {p q : Place} (h : p.Apart q) : q.Apart p := by
  rcases h with h | h | h | h
  · exact .inl h.symm
  · exact .inr (.inl h.symm)
  · exact .inr (.inr (.inl h.symm))
  · exact .inr (.inr (.inr h.symm))

/-- The events on places that have no bit in common are events on different objects. -/
theorem Place.Apart.obj_ne {p q : Place} (h : p.Apart q) (hp : p.Plain) (hq : q.Plain) :
    Obj.field p.key p.fld.lo ≠ .field q.key q.fld.lo := by
  intro he
  injection he with hk hlo
  injection hk with hr hi hj
  obtain ⟨-, hwp, -⟩ := hp
  obtain ⟨-, hwq, -⟩ := hq
  rcases h with h | h | h | h | h
  · exact h hr
  · exact h hi
  · exact h hj
  · omega
  · omega

theorem State.get_wipe1_ne (s : State) {e : Bool × Place} {p : Place} (he : e.2.Plain) (hp : p.Plain) (hd : e.2.Apart p) :
    (s.wipe1 e).get p.fld p.i p.j = s.get p.fld p.i p.j := by
  unfold State.wipe1
  split
  · exact s.get_clear_ne _ _ _ _ _ _ hp.2.2.1 he.1 hd
  · exact s.get_set_ne _ _ _ _ _ _ _ he.1 hd

theorem State.get_wipe1_self (s : State) {e : Bool × Place} (he : e.2.Plain) (ha : ClearActs s e.2.key e.2.fld.lo) :
    (s.wipe1 e).get e.2.fld e.2.i e.2.j = 0 := by
  unfold State.wipe1
  split
  · exact s.get_clear _ _ _ he.2.2.1 he.1 ha
  · exact (s.get_set _ _ _ _ he.1).trans (Nat.zero_mod _)

theorem Sampled.wipe1 {s : State} {e : Bool × Place} {p : Place} (h : Sampled s p.key p.fld.lo) (he : e.2.Plain) (hp : p.Plain)
    (hd : e.2.Apart p) : Sampled (s.wipe1 e) p.key p.fld.lo := by
  unfold State.wipe1
  split
  · exact State.sampled_clearing_ne h rfl (hd.obj_ne he hp)
  · exact h.of_events rfl

theorem State.wipe1_within (s : State) (e : Bool × Place) : Only (e.2.fld.mask ||| evMask) s (s.wipe1 e) := by
  unfold State.wipe1
  split
  · exact s.clear_within ..
  · exact State.set_only _ _ _ _ (.refl ..) (sub_left ..)

theorem State.rd_wipe1 (s : State) {e : Bool × Place} {k : RegKey} (h : k ≠ e.2.key) (hp : k.name ≠ .clkPrecStats) :
    (s.wipe1 e).rd k = s.rd k := by
  unfold State.wipe1
  split
  · exact s.rd_clear_ne _ _ _ h hp
  · exact s.rd_set_ne _ _ _ _ h

theorem State.clearActs_wipe1 {s : State} {e : Bool × Place} (he : e.2.Plain) (k : RegKey) (lo : Nat) :
    ClearActs (s.wipe1 e) k lo ↔ ClearActs s k lo := by
  have hN : ∀ n, n = 240 ∨ n = 241 ∨ n = 254 → (e.2.fld.mask ||| evMask).testBit n = false := by
    intro n hn
    have := e.2.fld.reg.ctorIdx_lt
    rw [Nat.testBit_or, Nat.testBit_two_pow, decide_eq_false (by omega)]
    rcases hn with rfl | rfl | rfl <;> decide
  refine (s.wipe1_within e).clearActs ?_ (hN _ (.inl rfl)) (hN _ (.inr (.inl rfl))) (hN _ (.inr (.inr rfl))) k lo
  rw [Nat.testBit_or, RegName.testBit_two_pow_ne he.2.2.2.symm]
  decide

theorem State.wipe_cons (s : State) (e : Bool × Place) (l : List (Bool × Place)) : s.wipe (e :: l) = (s.wipe1 e).wipe l := rfl

/-- What stands at a place when others are wiped. -/
theorem State.wipe_ne {s : State} {l : List (Bool × Place)} {p : Place} (hp : p.Plain) (hl : ∀ e ∈ l, e.2.Plain ∧ e.2.Apart p) :
    (s.wipe l).get p.fld p.i p.j = s.get p.fld p.i p.j
    ∧ (Sampled s p.key p.fld.lo → Sampled (s.wipe l) p.key p.fld.lo) := by
  induction l generalizing s with
  | nil => exact ⟨rfl, id⟩
  | cons e l ih =>
    obtain ⟨he, hd⟩ := hl e List.mem_cons_self
    obtain ⟨hget, hsam⟩ := @ih (s.wipe1 e) fun r hr => hl r (List.mem_cons_of_mem _ hr)
    exact ⟨hget.trans (s.get_wipe1_ne he hp hd), fun h => hsam (h.wipe1 he hp hd)⟩

/-- Places that have no bit in common are wiped: each reads zero, and the clear of each count has been sampled. -/
theorem State.wipe_zero {s : State} {l : List (Bool × Place)} (hl : ∀ e ∈ l, e.2.Plain) (hd : l.Pairwise fun e f => e.2.Apart f.2)
    (ha : ∀ e ∈ l, e.1 = true → ClearActs s e.2.key e.2.fld.lo) :
    ∀ e ∈ l, (s.wipe l).get e.2.fld e.2.i e.2.j = 0 ∧ (e.1 = true → Sampled (s.wipe l) e.2.key e.2.fld.lo) := by
  induction l generalizing s with
  | nil => simp
  | cons q l ih =>
    rw [List.pairwise_cons] at hd
    have hq := hl q List.mem_cons_self
    intro e he
    rw [State.wipe_cons]
    rcases List.mem_cons.1 he with rfl | he
    · obtain ⟨hget, hsam⟩ := State.wipe_ne (s := s.wipe1 e) hq fun r hr => ⟨hl r (List.mem_cons_of_mem _ hr), (hd.1 r hr).symm⟩
      rw [hget]
      cases hb : e.1 with
      | true =>
        have hact := ha e List.mem_cons_self hb
        exact ⟨s.get_wipe1_self hq hact, fun _ => hsam (by rw [State.wipe1, if_pos hb]; exact State.sampled_clearing hact _)⟩
      | false =>
        refine ⟨?_, fun h => Bool.noConfusion h⟩
        rw [State.wipe1, hb]
        exact (s.get_set _ _ _ _ hq.1).trans (Nat.zero_mod _)
    · exact ih (fun r hr => hl r (List.mem_cons_of_mem _ hr)) hd.2
        (fun r hr hb => (State.clearActs_wipe1 hq ..).2 (ha r (List.mem_cons_of_mem _ hr) hb)) e he

theorem State.rd_wipe {s : State} {l : List (Bool × Place)} {k : RegKey} (h : ∀ e ∈ l, k ≠ e.2.key) (hp : k.name ≠ .clkPrecStats) :
    (s.wipe l).rd k = s.rd k := by
  induction l generalizing s with
  | nil => rfl
  | cons q l ih =>
    exact (ih fun p hm => h p (List.mem_cons_of_mem _ hm)).trans (s.rd_wipe1 (h q List.mem_cons_self) hp)

/-! ### The CLEAR commands -/

/-- Counts cleared, and bits zeroed, of one register. -/
def wipes (counts bits : List Fld) (i j : Nat) : List (Bool × Place) :=
  counts.map (fun f => (true, ⟨f, i, j⟩)) ++ bits.map fun f => (false, ⟨f, i, j⟩)

/-- What a CLEAR command wipes; CLK.PREC_STATS, whose count counts what the clear itself discards, stands apart. -/
def wiped : Instr → List (Bool × Place)
  | .refmonClear => wipes [F.clkRefmonDropoutCount, F.clkRefmonLostCount] [F.clkRefmonDropoutSaturated, F.clkRefmonLostSaturated] 0 0
  | .edgeStatClear b i => wipes [F.bayEdgeStatEdgeCollision, F.bayEdgeStatQueueOverflow]
      [F.bayEdgeStatCollisionSaturated, F.bayEdgeStatOverflowSaturated] b i
  | .cmpStatClear b => wipes [F.bayCmpStatWindowReopen, F.bayCmpStatWindowOrphan]
      [F.bayCmpStatReopenSaturated, F.bayCmpStatOrphanSaturated] b 0
  | .logStatClear q => wipes [F.seqLogStatCoalescedCount] [F.seqLogStatSaturated] q 0
  | .capStatClear q => wipes [F.seqCapStatLostCount] [F.seqCapStatSaturated] q 0
  | .underrunClear q => wipes [F.seqUnderrunCount] [F.seqUnderrunSaturated] q 0
  | .lcacheStatClear q => wipes [F.seqLcacheStatHits] [F.seqLcacheStatSaturated] q 0
  | .loadStatClear => wipes [F.pgtLoadStatLoads, F.pgtLoadStatEvictions] [F.pgtLoadStatLoadsSaturated, F.pgtLoadStatEvictSaturated] 0 0
  | .pgtErrStatClear => wipes [F.pgtErrStatCrcFail, F.pgtErrStatLoadErr] [F.pgtErrStatCrcSaturated, F.pgtErrStatErrSaturated] 0 0
  | .oluErrStatClear p => wipes
      [F.olupErrStatCrcErr, F.olupErrStatRetrains, F.olupErrStatDiscarded, F.olupErrStatBipErr]
      [F.olupErrStatCrcSaturated, F.olupErrStatRetrainSaturated, F.olupErrStatDiscardSaturated, F.olupErrStatBipSaturated] p 0
  | .eventStatClear => wipes [F.hifEventStatUnrouted] [F.hifEventStatSaturated] 0 0
  | .ringStatusClear q => wipes [F.ringStatusDropped] [F.ringStatusSaturated] q 0
  | .flowStatClear f => wipes [F.dispFlowStatRefused] [F.dispFlowStatSaturated] 0 f
  | .thrWaitClear j => wipes [F.dispThrWaitMax] [F.dispThrWaitMaxSaturated] 0 j
  | .mailNorouteClear => wipes [F.coreStatusMailNoroute] [F.coreStatusSaturated] 0 0
  | .outOfRangeClear => wipes [F.drmInfoOutOfRange] [F.drmInfoSaturated] 0 0
  | .panicClear => wipes [F.drmPanicCount] [F.drmPanicSaturated] 0 0
  | .srClear => wipes [F.drmSrEntries] [F.drmSrSaturated] 0 0
  | .eccStatClear m => wipes [F.mchEccStatCeCount, F.mchEccStatUeCount]
      [F.mchEccStatCeSaturated, F.mchEccStatUeSaturated, ⟨.mchEccAddr, 0, 64⟩] m 0
  | .rasErrStatClear => wipes [F.rasErrStatCeCount, F.rasErrStatUeCount]
      [F.rasErrStatCeSaturated, F.rasErrStatUeSaturated, F.rasErrLogValid] 0 0
  | .feStatClear b => wipes [F.bayFeStatOverrun] [F.bayFeStatSaturated] b 0
  | .adcCountsClear b => wipes [F.bayAdcCountsTrigOverrun, F.bayAdcCountsUrgentBusy, F.bayAdcCountsBusyDiscard,
      F.bayAdcCountsSkipped, F.bayAdcCountsClip, F.bayAdcCountsOverrange] [F.bayAdcCountsSaturated] b 0
  | .timStatClear m => wipes [F.bayTimStatLost, F.bayTimStatBusyDiscard] [F.bayTimStatCountSaturated] (m / 4) (m % 4)
  | .failCountClear b => (List.range 16).flatMap fun i => wipes [F.bayFailCountCount] [F.bayFailCountSaturated] b i
  | _ => []

/-- Zeroing all 64 bits of a register stores 0 in it. -/
theorem State.set_all (s : State) (n : RegName) (i j : Nat) : s.set ⟨n, 0, 64⟩ i j 0 = s.wr ⟨n, i, j⟩ 0 := by
  have h : withBits (s.rd ⟨n, i, j⟩) 0 64 0 = 0 := by
    apply BitVec.eq_of_toNat_eq
    rw [withBits_toNat _ _ _ _ (by decide), Nat.div_eq_of_lt (s.rd ⟨n, i, j⟩).isLt]
    simp [Nat.mod_one]
  exact congrArg (s.wr ⟨n, i, j⟩) h

theorem exec_eccStatClear (m : Nat) (s : State) : exec (.eccStatClear m) s = .next (((((s.clear F.mchEccStatCeCount m 0).clear
    F.mchEccStatUeCount m 0).set F.mchEccStatCeSaturated m 0 0).set F.mchEccStatUeSaturated m 0 0).wr ⟨.mchEccAddr, m, 0⟩ 0) := rfl

theorem State.wipe_ecc (m : Nat) (s : State) : s.wipe (wiped (.eccStatClear m)) = ((((s.clear F.mchEccStatCeCount m 0).clear
    F.mchEccStatUeCount m 0).set F.mchEccStatCeSaturated m 0 0).set F.mchEccStatUeSaturated m 0 0).set ⟨.mchEccAddr, 0, 64⟩ m 0 0 := rfl

/-- A CLEAR command wipes its places. -/
theorem exec_clear {c : Instr} (h : clearedCounts c ≠ []) (hp : c ≠ .precStatsClear) (s : State) : exec c s = .next (s.wipe (wiped c)) := by
  cases c
  case precStatsClear => exact absurd rfl hp
  case eccStatClear m => rw [exec_eccStatClear, State.wipe_ecc, State.set_all]
  case failCountClear b =>
    show Host.Outcome.next (s.failCountClear b) = _
    rw [State.wipe, wiped, List.foldl_flatMap]
    rfl
  case refmonClear | edgeStatClear | cmpStatClear | logStatClear | capStatClear | underrunClear | lcacheStatClear |
    loadStatClear | pgtErrStatClear | oluErrStatClear | eventStatClear | ringStatusClear | flowStatClear | thrWaitClear |
    mailNorouteClear | adcCountsClear | timStatClear | outOfRangeClear | panicClear | srClear | rasErrStatClear | feStatClear => rfl
  all_goals exact absurd rfl h

/-- Fields of one instance and element that can be wiped together: none shares a bit with another. -/
def Fld.wipable (l : List Fld) : Bool :=
  (l.all fun f => decide (f.lo + f.width ≤ 64 ∧ 0 < f.width ∧ f.reg ≠ .clkPrecStats ∧ f.reg ≠ .rasStatus))
  && decide (l.Pairwise fun f g => f.reg ≠ g.reg ∨ f.Apart g)

/-- Wiped places: each can be wiped, and no two share a bit. -/
abbrev Wipable (l : List (Bool × Place)) : Prop := (∀ e ∈ l, e.2.Plain) ∧ l.Pairwise fun e f => e.2.Apart f.2

theorem wipes_wipable {counts bits : List Fld} (h : Fld.wipable (counts ++ bits) = true) (i j : Nat) : Wipable (wipes counts bits i j) := by
  obtain ⟨hp, hd⟩ := Bool.and_eq_true_iff.1 h
  have hmap : (wipes counts bits i j).map (fun e => e.2.fld) = counts ++ bits := by simp [wipes, Function.comp_def]
  have hij : ∀ e ∈ wipes counts bits i j, e.2.i = i ∧ e.2.j = j := by
    intro e he
    simp only [wipes, List.mem_append, List.mem_map] at he
    rcases he with ⟨f, -, rfl⟩ | ⟨f, -, rfl⟩ <;> exact ⟨rfl, rfl⟩
  constructor
  · intro e he
    exact of_decide_eq_true (List.all_eq_true.1 hp e.2.fld (hmap ▸ List.mem_map_of_mem he))
  · have := of_decide_eq_true hd
    rw [← hmap, List.pairwise_map] at this
    exact this.imp fun ha => ha.elim .inl fun h => .inr (.inr (.inr h))

theorem failCounts_wipable (b : Nat) (l : List Nat) (h : l.Nodup) :
    Wipable (l.flatMap fun i => wipes [F.bayFailCountCount] [F.bayFailCountSaturated] b i) := by
  have hone := fun i => wipes_wipable (counts := [F.bayFailCountCount]) (bits := [F.bayFailCountSaturated]) rfl b i
  constructor
  · intro e he
    obtain ⟨i, -, hi⟩ := List.mem_flatMap.1 he
    exact (hone i).1 e hi
  · refine List.pairwise_flatMap.2 ⟨fun i _ => (hone i).2, h.imp fun hij e he f hf => .inr (.inr (.inl ?_))⟩
    simp only [wipes, List.map_cons, List.map_nil, List.cons_append, List.nil_append, List.mem_cons, List.not_mem_nil,
      or_false] at he hf
    rcases he with rfl | rfl <;> rcases hf with rfl | rfl <;> exact hij

theorem wiped_wipable (c : Instr) : Wipable (wiped c) := by
  unfold wiped
  split
  case h_24 => exact failCounts_wipable _ _ List.nodup_range
  case h_25 => exact ⟨nofun, .nil⟩
  all_goals exact wipes_wipable (by decide) _ _

/-- The counts of a CLEAR command and the bits that say they are saturated are what it wipes. -/
theorem mem_wiped {c : Instr} (hp : c ≠ .precStatsClear) {e : Fld × Fld × Nat × Nat} (he : e ∈ clearedCounts c) :
    (true, ⟨e.1, e.2.2.1, e.2.2.2⟩) ∈ wiped c ∧ (false, ⟨e.2.1, e.2.2.1, e.2.2.2⟩) ∈ wiped c := by
  unfold clearedCounts at he
  split at he
  case h_2 => exact absurd rfl hp
  case h_25 =>
    obtain ⟨i, hi, rfl⟩ := List.mem_map.1 he
    exact ⟨List.mem_flatMap.2 ⟨i, hi, by simp [wipes]⟩, List.mem_flatMap.2 ⟨i, hi, by simp [wipes]⟩⟩
  case h_26 => exact absurd he List.not_mem_nil
  all_goals
    simp only [List.mem_cons, List.not_mem_nil, or_false] at he
    rcases he with rfl | rfl | rfl | rfl | rfl | rfl <;> simp [wiped, wipes]

/-- The clears are of counts, and what is wiped lies in their registers or in the address that the command clears too. -/
theorem place_of_wiped {c : Instr} {x : Bool × Place} (hx : x ∈ wiped c) :
    (x.1 = true → ∃ e ∈ clearedCounts c, x.2 = ⟨e.1, e.2.2.1, e.2.2.2⟩)
    ∧ ((∃ e ∈ clearedCounts c, x.2.key = e.1.key e.2.2.1 e.2.2.2) ∨ clearedAddress c = some x.2.key) := by
  unfold wiped at hx
  split at hx
  case h_24 b =>
    obtain ⟨i, hi, hx⟩ := List.mem_flatMap.1 hx
    have hmem : (F.bayFailCountCount, F.bayFailCountSaturated, b, i) ∈ clearedCounts (.failCountClear b) :=
      List.mem_map.2 ⟨i, hi, rfl⟩
    simp only [wipes, List.map_cons, List.map_nil, List.cons_append, List.nil_append, List.mem_cons, List.not_mem_nil,
      or_false] at hx
    rcases hx with rfl | rfl
    · exact ⟨fun _ => ⟨_, hmem, rfl⟩, .inl ⟨_, hmem, rfl⟩⟩
    · exact ⟨Bool.noConfusion, .inl ⟨_, hmem, rfl⟩⟩
  all_goals
    simp only [wipes, List.map_cons, List.map_nil, List.cons_append, List.nil_append, List.mem_cons, List.not_mem_nil,
      or_false] at hx
  all_goals rcases hx with rfl | rfl | rfl | rfl | rfl | rfl | rfl | rfl <;> simp [clearedCounts, clearedAddress, Fld.key]

/-- Once a clear of its count is sampled, CLK.PREC_STATS counts nothing in the tick. -/
theorem State.supersede_sampled {s : State} (h : Sampled s (F.clkPrecStatsSupersededCount.key 0 0) F.clkPrecStatsSupersededCount.lo)
    (n : Nat) : s.supersede n = s := by
  unfold State.supersede
  exact if_pos (.inr h.clearedNow)

theorem State.sampled_note (s : State) (k : RegKey) (lo rank eff : Nat) : Sampled (s.note ⟨.field k lo, 3, rank, eff⟩) k lo :=
  ⟨_, State.decider_note_self .., Nat.le_refl 3⟩

theorem State.get_clear_precStats {s : State}
    (h : ClearActs s (F.clkPrecStatsSupersededCount.key 0 0) F.clkPrecStatsSupersededCount.lo) :
    (s.clear F.clkPrecStatsSupersededCount 0 0).get F.clkPrecStatsSupersededCount = 0 := by
  rw [State.clear, State.clearing_acts h, State.supersede_sampled (State.sampled_note ..), State.get_note,
    State.get_set _ _ _ _ _ (by decide), Nat.zero_mod]

/-- PREC_STATS.CLEAR zeroes the count of discarded events, of which none is counted in its tick. -/
theorem precStatsClear_zero {s t : State} (h : ClearActs s (F.clkPrecStatsSupersededCount.key 0 0) F.clkPrecStatsSupersededCount.lo)
    (ht : t = (s.clear F.clkPrecStatsSupersededCount 0 0).set F.clkPrecStatsSaturated 0 0 0) :
    t.get F.clkPrecStatsSupersededCount = 0 ∧ t.get F.clkPrecStatsSaturated = 0
    ∧ Sampled t (F.clkPrecStatsSupersededCount.key 0 0) F.clkPrecStatsSupersededCount.lo := by
  have hs : Sampled (s.clear F.clkPrecStatsSupersededCount 0 0) (F.clkPrecStatsSupersededCount.key 0 0)
      F.clkPrecStatsSupersededCount.lo := State.sampled_clearing h _
  rw [ht, State.get_set_ne _ _ _ _ _ _ _ _ (by decide) (by decide), State.get_set _ _ _ _ _ (by decide), Nat.zero_mod]
  exact ⟨State.get_clear_precStats h, rfl, hs.of_events (State.set_events ..)⟩

/-- The count of a CLEAR command is in CLK.PREC_STATS for the clear of that register alone. -/
theorem reg_of_counts {c : Instr} (hp : c ≠ .precStatsClear) {e : Fld × Fld × Nat × Nat} (he : e ∈ clearedCounts c) :
    e.1.reg ≠ .clkPrecStats := ((wiped_wipable c).1 _ (mem_wiped hp he).1).2.2.1

theorem clearsZeroTheirCounts : ClearsZeroTheirCounts := by
  intro c s hne hact
  by_cases hp : c = .precStatsClear
  · subst hp
    obtain ⟨hc, hb, hs⟩ := precStatsClear_zero (hact _ List.mem_cons_self) rfl
    refine ⟨_, rfl, fun e he => ?_⟩
    cases List.mem_singleton.1 he
    exact ⟨hc, hb, fun n => (State.get_count_sampled hs n fun _ => ⟨rfl, rfl, rfl⟩).trans hc⟩
  · refine ⟨_, exec_clear hne hp s, fun e he => ?_⟩
    have hw := State.wipe_zero (s := s) (wiped_wipable c).1 (wiped_wipable c).2 fun x hx hb => by
      obtain ⟨e, he, h⟩ := (place_of_wiped hx).1 hb
      rw [h]
      exact hact e he
    obtain ⟨hc, hb⟩ := mem_wiped hp he
    obtain ⟨hz, hs⟩ := hw _ hc
    exact ⟨hz, (hw _ hb).1, fun n => (State.get_count_sampled (hs rfl) n fun h => absurd h (reg_of_counts hp he)).trans hz⟩

/-- Two states that differ in registers and events alone. -/
theorem Only.eq_of_regs {N : Nat} {s t : State} (h : Only N s t)
    (hN : ∀ n, 240 ≤ n → n ≠ 242 → N.testBit n = false) : t = { s with regs := t.regs, events := t.events } := by
  obtain ⟨_, _, pending, ticks, _, startOfTick, halvesHost, halvesCore, out, free, mem, time, olu, host, disp, gfPrev, seqs, bars, chans,
    stores, logs, logTurn, dclks, dram, site, page, fes, adcs, acqs, tims, cal, ras, clk⟩ := h
  have hb := fun n (hn : 240 ≤ n ∧ n ≠ 242) => hN n hn.1 hn.2
  cases t
  cases s
  simp only [State.mk.injEq, true_and]
  exact ⟨pending (hb _ (by decide)), ticks (hb _ (by decide)), startOfTick (hb _ (by decide)), halvesHost (hb _ (by decide)),
    halvesCore (hb _ (by decide)), out (hb _ (by decide)), free (hb _ (by decide)), mem (hb _ (by decide)), time (hb _ (by decide)),
    olu (hb _ (by decide)), host (hb _ (by decide)), disp (hb _ (by decide)), gfPrev (hb _ (by decide)), seqs (hb _ (by decide)),
    bars (hb _ (by decide)), chans (hb _ (by decide)), stores (hb _ (by decide)), logs (hb _ (by decide)), logTurn (hb _ (by decide)),
    dclks (hb _ (by decide)), dram (hb _ (by decide)), site (hb _ (by decide)), page (hb _ (by decide)), fes (hb _ (by decide)),
    adcs (hb _ (by decide)), acqs (hb _ (by decide)), tims (hb _ (by decide)), cal (hb _ (by decide)), ras (hb _ (by decide)),
    clk (hb _ (by decide))⟩

/-- A CLEAR command's footprint lists no part of the state but the events of the tick. -/
theorem footprint_clear {c : Instr} (h : clearedCounts c ≠ []) : ∃ names, footprint c = some (names, [.events]) := by
  cases c
  case refmonClear | precStatsClear | edgeStatClear | failCountClear | cmpStatClear | logStatClear | capStatClear | underrunClear |
    lcacheStatClear | loadStatClear | pgtErrStatClear | oluErrStatClear | eventStatClear | ringStatusClear | flowStatClear |
    thrWaitClear | mailNorouteClear | adcCountsClear | timStatClear | outOfRangeClear | panicClear | srClear | eccStatClear |
    rasErrStatClear | feStatClear => exact ⟨_, rfl⟩
  all_goals exact absurd rfl h

theorem clearsTouchNothingElse : ClearsTouchNothingElse := by
  intro c s t hne ht
  obtain ⟨names, hf⟩ := footprint_clear hne
  have hw := exec_within c s t ht
  have hm : t.mem = s.mem := hw.part .mem (by simpa only [commandMask, hf] using footprint_part (by decide) names)
  refine ⟨fun k hk hadr hprec => ?_, fun a => by simp only [State.memByte, hm], hw.eq_of_regs fun n hn h242 => ?_⟩
  · by_cases hp : c = .precStatsClear
    · subst hp
      exact hw.reg k (footprint_name (names := [.clkPrecStats]) (by simpa using hprec) [.events])
    · cases (exec_clear hne hp s).symm.trans ht
      refine State.rd_wipe (fun x hx he => ?_) hprec
      rcases (place_of_wiped hx).2 with ⟨e, hm, hx⟩ | hx
      · exact hk e hm (he.trans hx)
      · exact hadr (he ▸ hx)
  · simp only [commandMask, hf]
    rw [Nat.testBit_or, testBit_namesMask, testBit_partsMask, Bool.or_eq_false_iff]
    constructor <;> rw [List.any_eq_false] <;> intro x hx he
    · have := x.ctorIdx_lt
      have := of_decide_eq_true he
      omega
    · cases List.mem_singleton.1 hx
      exact h242 (of_decide_eq_true he).symm

/-- Settles O7: a CLEAR command wipes the places of its counts. -/
theorem clears : Obligations.Clears := ⟨clearsZeroTheirCounts, clearsTouchNothingElse⟩

/-! ### W1C writes (R12, R13) -/

theorem testBit_nat (y n : Nat) : testBit y n = y.testBit n := by
  simp only [testBit, Nat.testBit_eq_decide_div_mod_eq]

/-- Bit `n` of a word is cleared. -/
theorem testBit_withBits_zero (v : Word) {n : Nat} (h : n < 64) (m : Nat) :
    testBit (withBits v n 1 0).toNat m = (testBit v.toNat m && !decide (m = n)) := by
  rw [testBit_nat, testBit_nat, withBits_testBit v n 1 0 m (by omega)]
  by_cases hm : m = n
  · rw [if_pos (by omega), Nat.zero_testBit, decide_eq_true hm, Bool.not_true, Bool.and_false]
  · rw [if_neg (by omega), decide_eq_false hm, Bool.not_false, Bool.and_true]

/-- No bit of RAS.STATUS that says what is in reset is W1C. -/
theorem ras_w1c : ∀ n, w1cAt RegName.rasStatus.desc.fields n = true → 8 ≤ n ∧ n < 16 := by
  intro n h
  simp [w1cAt, RegName.desc] at h
  omega

theorem precStats_w1c (n : Nat) : w1cAt RegName.clkPrecStats.desc.fields n = false := by
  simp [w1cAt, RegName.desc]

/-- A register with a W1C bit is not CLK.PREC_STATS. -/
theorem name_of_w1c {k : RegKey} {n : Nat} (h : w1cAt k.name.desc.fields n = true) : k.name ≠ .clkPrecStats := fun he =>
  Bool.noConfusion ((precStats_w1c n).symm.trans (he ▸ h))

/-- The register with bit `n` cleared: what a W1C write of the bit leaves where it acts. -/
def State.clearBit (s : State) (k : RegKey) (n : Nat) : State := s.wr k (withBits (s.rd k) n 1 0)

theorem State.clearBit_inReset (s : State) {k : RegKey} {n : Nat} (h : w1cAt k.name.desc.fields n = true) (k' : RegKey) (lo : Nat) :
    (s.clearBit k n).inReset (.field k' lo) = s.inReset (.field k' lo) := by
  have hget : ∀ f : Fld, f.reg = .rasStatus → f.lo + f.width ≤ 8 ∨ 16 ≤ f.lo → (s.clearBit k n).get f = s.get f := by
    intro f hf hlo
    unfold State.get State.clearBit
    rw [State.rd_wr]
    split
    · next hk =>
      have hk' : k.name = .rasStatus := (congrArg RegKey.name hk).symm.trans hf
      obtain ⟨h8, h16⟩ := ras_w1c n (hk' ▸ h)
      rw [hk, bitsOf_withBits_ne _ _ _ _ _ _ (by omega) (by omega)]
    · rfl
  simp only [State.inReset, State.hostReady, State.bayResetting, State.bit, hget F.rasStatusHostReady rfl (by decide),
    hget F.rasStatusBayResetting rfl (by decide)]

theorem State.w1cBit_eq (s : State) (k : RegKey) (n : Nat) : s.w1cBit k n = s.clearing (s.clearBit k n) k n := rfl

theorem State.clearActs_w1cBit {s : State} {k : RegKey} {n : Nat} (h : w1cAt k.name.desc.fields n = true) (k' : RegKey) (lo : Nat) :
    ClearActs (s.w1cBit k n) k' lo ↔ ClearActs s k' lo := by
  have hsup : ∀ (t : State) (m : Nat), ClearActs (t.supersede m) k' lo ↔ ClearActs t k' lo := fun t m =>
    (t.supersede_within m).clearActs (by decide) (by decide) (by decide) (by decide) k' lo
  rw [State.w1cBit_eq]
  by_cases ha : ClearActs s k n
  · rw [State.clearing_acts ha, hsup]
    have hw : ((s.clearBit k n).note ⟨.field k n, 3, 0, 0⟩).waiting (.field k' lo) = s.waiting (.field k' lo) := rfl
    have hr : ((s.clearBit k n).note ⟨.field k n, 3, 0, 0⟩).inReset (.field k' lo) = s.inReset (.field k' lo) :=
      s.clearBit_inReset h k' lo
    unfold ClearActs
    rw [hw, hr]
  · rw [State.clearing_discarded ha]
    exact hsup s 1

/-- One W1C bit is written: it reads 0 where the clear acts, and every other bit of the register is as it was. -/
theorem State.testBit_w1cBit {s : State} {k : RegKey} {n : Nat} (h : w1cAt k.name.desc.fields n = true) (hn : n < 64) (m : Nat) :
    testBit ((s.w1cBit k n).rd k).toNat m = (testBit (s.rd k).toNat m && !(decide (m = n) && decide (ClearActs s k n))) := by
  rw [State.w1cBit_eq]
  by_cases ha : ClearActs s k n
  · rw [State.clearing_acts ha, State.rd_supersede _ _ (name_of_w1c h), State.rd_note, State.clearBit, State.rd_wr_self,
      testBit_withBits_zero _ hn, decide_eq_true ha, Bool.and_true]
  · rw [State.clearing_discarded ha, State.rd_superseded _ (name_of_w1c h), decide_eq_false ha, Bool.and_false, Bool.not_false,
      Bool.and_true]

theorem State.rd_w1cBit (s : State) {k j : RegKey} (n : Nat) (hj : j ≠ k) (hp : j.name ≠ .clkPrecStats) :
    (s.w1cBit k n).rd j = s.rd j := State.rd_clearing (s.rd_wr_ne _ hj) hp

theorem State.sampled_w1cBit {s : State} {k : RegKey} {n m : Nat} (h : Sampled s k m ∨ m = n ∧ ClearActs s k n) :
    Sampled (s.w1cBit k n) k m := by
  by_cases hm : m = n ∧ ClearActs s k n
  · obtain ⟨rfl, ha⟩ := hm
    exact State.sampled_clearing ha _
  · have hs := h.resolve_right hm
    rw [State.w1cBit_eq]
    by_cases ha : ClearActs s k n
    · exact State.sampled_clearing_ne hs rfl fun he => hm ⟨by injection he with _ h; exact h.symm, ha⟩
    · rw [State.clearing_discarded ha]
      exact hs.of_events ((State.supersede_within s 1).events (by decide))

/-- W1C bits of a register are written one after another. -/
def State.w1cBits (s : State) (k : RegKey) (l : List Nat) : State := l.foldl (fun t n => t.w1cBit k n) s

theorem State.testBit_w1cBits {s : State} {k : RegKey} {l : List Nat} (hl : ∀ n ∈ l, n < 64 ∧ w1cAt k.name.desc.fields n = true)
    (m : Nat) : testBit ((s.w1cBits k l).rd k).toNat m = (testBit (s.rd k).toNat m && !(decide (m ∈ l) && decide (ClearActs s k m))) := by
  induction l generalizing s with
  | nil => simp [State.w1cBits]
  | cons n l ih =>
    obtain ⟨hn, hw⟩ := hl n List.mem_cons_self
    have htail := @ih (s.w1cBit k n) fun r hr => hl r (List.mem_cons_of_mem _ hr)
    simp only [State.clearActs_w1cBit hw] at htail
    show testBit (((s.w1cBit k n).w1cBits k l).rd k).toNat m = _
    rw [htail, State.testBit_w1cBit hw hn]
    by_cases hm : m = n
    · subst hm
      cases testBit (s.rd k).toNat m <;> cases decide (ClearActs s k m) <;> simp
    · simp [hm]

theorem State.sampled_w1cBits {s : State} {k : RegKey} {l : List Nat} (hl : ∀ n ∈ l, w1cAt k.name.desc.fields n = true) {m : Nat}
    (h : Sampled s k m ∨ m ∈ l ∧ ClearActs s k m) : Sampled (s.w1cBits k l) k m := by
  induction l generalizing s with
  | nil => exact h.resolve_right fun hm => absurd hm.1 List.not_mem_nil
  | cons n l ih =>
    have hw := hl n List.mem_cons_self
    refine ih (fun r hr => hl r (List.mem_cons_of_mem _ hr)) ?_
    rcases h with h | ⟨hm, ha⟩
    · exact .inl (State.sampled_w1cBit (.inl h))
    · rcases List.mem_cons.1 hm with rfl | hm
      · exact .inl (State.sampled_w1cBit (.inr ⟨rfl, ha⟩))
      · exact .inr ⟨hm, (State.clearActs_w1cBit hw ..).2 ha⟩

theorem State.rd_w1cBits {s : State} {k j : RegKey} (l : List Nat) (hj : j ≠ k) (hp : j.name ≠ .clkPrecStats) :
    (s.w1cBits k l).rd j = s.rd j := by
  induction l generalizing s with
  | nil => rfl
  | cons n l ih => exact ih.trans (s.rd_w1cBit n hj hp)

/-- W1C writes change registers and the events of the tick alone. -/
theorem State.w1cBits_within (s : State) (k : RegKey) (l : List Nat) : Only (allRegs ||| 2 ^ 242) s (s.w1cBits k l) :=
  (Only.refl ..).foldl fun t _ =>
    State.clearing_only _ _ (.refl ..) (State.wr_only _ _ (.refl ..) (anyReg _ (by decide))) (by decide)

/-- The W1C bits of a register that a written word names. -/
def w1cNamed (k : RegKey) (bits : Word) : List Nat :=
  (List.range 64).filter fun n => testBit bits.toNat n && w1cAt k.name.desc.fields n

theorem mem_w1cNamed {k : RegKey} {bits : Word} {n : Nat} :
    n ∈ w1cNamed k bits ↔ n < 64 ∧ testBit bits.toNat n = true ∧ w1cAt k.name.desc.fields n = true := by
  simp [w1cNamed]

theorem State.w1c_eq (s : State) (k : RegKey) (bits : Word) : s.w1c k bits = s.w1cBits k (w1cNamed k bits) := rfl

/-- Settles O56: the bits named are cleared one after another, each as its own event. -/
theorem w1cClears : Obligations.W1cClears := by
  intro off bits s
  refine ⟨fun k hk hh hb => ?_, fun h => ?_, fun k hk hh hb => ?_⟩
  · have hmem : ∀ n ∈ w1cNamed k bits, n < 64 ∧ w1cAt k.name.desc.fields n = true := fun n hn =>
      ⟨(mem_w1cNamed.1 hn).1, (mem_w1cNamed.1 hn).2.2⟩
    have hframe := s.w1cBits_within k (w1cNamed k bits)
    have hmemory : (s.w1c k bits).mem = s.mem := hframe.mem (by decide)
    refine ⟨s.w1c k bits, by simp [exec, execW1cClear, hk, hh, hb], fun n hn ha => ?_, fun n hn h => ?_, fun n hn ht hw ha => ?_,
      fun j hj hp => State.rd_w1cBits _ hj hp, fun a => by simp only [State.memByte, hmemory], hframe.out (by decide)⟩
    · rw [State.w1c_eq, State.testBit_w1cBits hmem, decide_eq_true ha, Bool.and_true]
      cases hb : testBit bits.toNat n <;> cases hw : w1cAt k.name.desc.fields n <;> simp [mem_w1cNamed, hn, hb, hw]
    · rw [State.w1c_eq, State.testBit_w1cBits hmem]
      have hnot : ¬(n ∈ w1cNamed k bits ∧ ClearActs s k n) := by
        rintro ⟨hm, ha⟩
        obtain ⟨-, ht, hw⟩ := mem_w1cNamed.1 hm
        rcases h with h | h | h
        · exact Bool.noConfusion (h.symm.trans ht)
        · exact Bool.noConfusion (h.symm.trans hw)
        · exact h ha
      rw [← Bool.decide_and, decide_eq_false hnot, Bool.not_false, Bool.and_true]
    · exact (State.sampled_w1cBits (fun r hr => (hmem r hr).2) (.inr ⟨mem_w1cNamed.2 ⟨hn, ht, hw⟩, ha⟩)).clearedNow
  · refine ⟨s, ?_, rfl⟩
    rcases h with h | h
    · simp [exec, execW1cClear, h]
    · cases hk : regAt off <;> simp [exec, execW1cClear, hk, h]
  · exact ⟨_, by simp [exec, execW1cClear, hk, hh, hb], rfl⟩

end Sys2Proof.Machine
end

