-- ==== Sys2Proof/Proofs/Baymap.lean ====
section
/-!
PROOFS. Baymap.lean: increments and sets that no clear takes away, what an event on an object leaves, and GLOBAL.BAYMAP (R26, R27); from
these O8.
-/
namespace Sys2Proof.Machine

/-! ### Increments and sets in which no clear is sampled (R13, R19) -/

theorem Fld.width_pow_pos (f : Fld) : 0 < 2 ^ f.width := Nat.two_pow_pos _

/-- A count grows up to its end (R19). -/
theorem State.get_addCount (s : State) (f sat : Fld) (i j n : Nat) (h : f.lo + f.width ≤ 64)
    (hs : sat.lo + sat.width ≤ 64) (d : sat.reg ≠ f.reg ∨ sat.Apart f) :
    (s.addCount f sat i j n).get f i j = min (2 ^ f.width - 1) (s.get f i j + n) := by
  have hpos := f.width_pow_pos
  unfold State.addCount
  split
  · next hlt => rw [State.get_set _ _ _ _ _ h, Nat.mod_eq_of_lt hlt, Nat.min_eq_right (by omega)]
  · rw [State.get_setBit_ne _ _ _ _ _ _ _ _ hs (d.elim .inl fun h => .inr (.inr (.inr h))), State.get_set _ _ _ _ _ h,
      Nat.mod_eq_of_lt (by omega), Nat.min_eq_left (by omega)]

theorem State.count_unclear {s : State} {f : Fld} {i j : Nat} (hc : Unclear s f i j) (sat : Fld) (n : Nat) :
    s.count f sat i j n
      = (s.addCount f sat i j n).note ⟨.field (f.key i j) f.lo, 6, 0, s.lostToClear (f.key i j) f.lo + 1⟩ := by
  unfold State.count
  exact if_neg (by rw [hc]; exact Bool.noConfusion)

/-- A count in which no clear is sampled grows up to its end (R19). -/
theorem State.get_count_min (s : State) {f sat : Fld} {i j : Nat} (n : Nat) (hc : Unclear s f i j) (h : f.lo + f.width ≤ 64)
    (hs : sat.lo + sat.width ≤ 64) (d : sat.reg ≠ f.reg ∨ sat.Apart f) :
    (s.count f sat i j n).get f i j = min (2 ^ f.width - 1) (s.get f i j + n) := by
  rw [State.count_unclear hc, State.get_note, State.get_addCount _ _ _ _ _ _ h hs d]

theorem State.hwSet_unclear {s : State} {f : Fld} {i j : Nat} (hc : Unclear s f i j) :
    s.hwSet f i j = (s.setBit f i j true).note ⟨.field (f.key i j) f.lo, 4, 0, 1⟩ := by
  unfold State.hwSet
  exact if_neg (by rw [hc]; exact Bool.noConfusion)

/-- A field beside the bit that hardware sets is as before. -/
theorem State.get_hwSet_ne (s : State) (f g : Fld) (i j i' j' : Nat) (hg : g.reg ≠ .clkPrecStats) (h : f.lo + f.width ≤ 64)
    (d : f.reg ≠ g.reg ∨ i ≠ i' ∨ j ≠ j' ∨ f.Apart g) : (s.hwSet f i j).get g i' j' = s.get g i' j' := by
  unfold State.hwSet
  split
  · exact State.get_supersede _ _ _ _ _ hg
  · rw [State.get_note]
    exact s.get_setBit_ne f g i j true i' j' h d

/-- A field beside a count, and beside the bit that says it is saturated, is as before. -/
theorem State.get_count_ne (s : State) (f sat g : Fld) (i j n i' j' : Nat) (hg : g.reg ≠ .clkPrecStats) (h : f.lo + f.width ≤ 64)
    (hs : sat.lo + sat.width ≤ 64) (d : f.reg ≠ g.reg ∨ i ≠ i' ∨ j ≠ j' ∨ f.Apart g)
    (ds : sat.reg ≠ g.reg ∨ i ≠ i' ∨ j ≠ j' ∨ sat.Apart g) : (s.count f sat i j n).get g i' j' = s.get g i' j' := by
  unfold State.count
  split
  · exact State.get_supersede _ _ _ _ _ hg
  · rw [State.get_note]
    unfold State.addCount
    split
    · exact s.get_set_ne f g i j _ i' j' h d
    · exact (State.get_setBit_ne _ _ _ _ _ _ _ _ hs ds).trans (s.get_set_ne f g i j _ i' j' h d)

/-- No clear of a field is sampled after an operation that changes neither the queue nor what is in reset nor the field's events. -/
theorem Only.clearedNow {N : Nat} {s t : State} (h : Only N s t) (hN : N.testBit RegName.rasStatus.ctorIdx = false)
    (hp : N.testBit 240 = false) (ht : N.testBit 241 = false) (hq : N.testBit 254 = false) {k : RegKey} {lo : Nat}
    (hd : t.decider (.field k lo) = s.decider (.field k lo)) : t.clearedNow k lo = s.clearedNow k lo := by
  unfold State.clearedNow
  rw [h.inReset_field hN, h.waiting _ hp ht hq, hd]

theorem Only.unclear {N : Nat} {s t : State} (h : Only N s t) {f : Fld} {i j : Nat} (hu : Unclear s f i j)
    (hN : N.testBit RegName.rasStatus.ctorIdx = false) (hp : N.testBit 240 = false) (ht : N.testBit 241 = false)
    (hq : N.testBit 254 = false) (hd : t.decider (.field (f.key i j) f.lo) = s.decider (.field (f.key i j) f.lo)) :
    Unclear t f i j := (h.clearedNow hN hp ht hq hd).trans hu

/-! ### What stands alone in its tick -/

/-- Whether an object is in reset follows from the registers that name what is in reset. -/
theorem Only.inReset {N : Nat} {s t : State} (h : Only N s t) (hr : N.testBit RegName.rasStatus.ctorIdx = false)
    (hq : N.testBit RegName.seqStatus.ctorIdx = false) (o : Obj) : t.inReset o = s.inReset o := by
  simp only [State.inReset, State.hostReady, State.bayResetting, h.bit F.rasStatusHostReady 0 0 hr,
    h.get F.rasStatusBayResetting 0 0 hr, fun n => h.bit F.seqStatusResetting n 0 hq]

theorem Only.alone {N : Nat} {s t : State} (h : Only N s t) {o : Obj} (ha : Alone s o) (hd : t.decider o = s.decider o)
    (hr : N.testBit RegName.rasStatus.ctorIdx = false) (hq : N.testBit RegName.seqStatus.ctorIdx = false)
    (hp : N.testBit 240 = false) (ht : N.testBit 241 = false) (hs : N.testBit 254 = false) : Alone t o := by
  obtain ⟨hn, hw, hi⟩ := ha
  exact ⟨hd.trans hn, (h.waiting o hp ht hs).trans hw, (h.inReset hr hq o).trans hi⟩

/-- As `Only.alone`, of an operation that records no event. -/
theorem Only.alone_of_quiet {N : Nat} {s t : State} (h : Only N s t) {o : Obj} (ha : Alone s o) (he : N.testBit 242 = false)
    (hr : N.testBit RegName.rasStatus.ctorIdx = false) (hq : N.testBit RegName.seqStatus.ctorIdx = false)
    (hp : N.testBit 240 = false) (ht : N.testBit 241 = false) (hs : N.testBit 254 = false) : Alone t o :=
  h.alone ha (State.decider_congr (h.events he) o) hr hq hp ht hs

/-! ### What an event on an object leaves (R56 to R58) -/

/-- An event acts, on the state in which it is recorded, or it merges with another, or it is discarded and counted. -/
theorem State.onObj_cases (s : State) (o : Obj) (cls rank eff : Nat) (f : State → State) :
    s.onObj o cls rank eff f = f (s.note ⟨o, cls, rank, eff⟩) ∨ s.onObj o cls rank eff f = f (s.note ⟨o, cls, rank, eff⟩).superseded
    ∨ s.onObj o cls rank eff f = s ∨ s.onObj o cls rank eff f = s.superseded := by
  unfold State.onObj State.decideEvent
  rcases s.judge o cls rank eff with ⟨_ | _ | _, _ | _⟩
  · exact .inl rfl
  · exact .inr (.inl rfl)
  · exact .inr (.inr (.inl rfl))
  · exact .inr (.inr (.inl rfl))
  · exact .inr (.inr (.inr rfl))
  · exact .inr (.inr (.inr rfl))

/-- An event decides no other object, where its effect decides none. -/
theorem State.decider_onObj_ne {s : State} {o o' : Obj} (h : o ≠ o') {cls rank eff : Nat} {f : State → State}
    (hf : ∀ t : State, (f t).decider o' = t.decider o') : (s.onObj o cls rank eff f).decider o' = s.decider o' := by
  rcases s.onObj_cases o cls rank eff f with e | e | e | e <;> rw [e]
  · exact (hf _).trans (State.decider_note_ne _ h)
  · exact (hf _).trans ((State.decider_superseded ..).trans (State.decider_note_ne _ h))
  · exact State.decider_superseded ..

/-- A register other than CLK.PREC_STATS is as before an event where its effect leaves it so. -/
theorem State.rd_onObj {s : State} {o : Obj} {cls rank eff : Nat} {f : State → State} {k : RegKey} (hk : k.name ≠ .clkPrecStats)
    (hf : ∀ t : State, (f t).rd k = t.rd k) : (s.onObj o cls rank eff f).rd k = s.rd k := by
  rcases s.onObj_cases o cls rank eff f with e | e | e | e <;> rw [e]
  · exact (hf _).trans (State.rd_note ..)
  · exact (hf _).trans ((State.rd_superseded _ hk).trans (State.rd_note ..))
  · exact State.rd_superseded _ hk

/-! ### GLOBAL.BAYMAP (R26) -/

theorem bayField_eq (v : Word) {b : Nat} (hb : b < 8) : bayField v b = (bitsOf v (2 * b) 2, decide (bitsOf v (16 + b) 1 = 1)) := by
  have hsel : v.toNat / 2 ^ 0 % 2 ^ 16 / 4 ^ b % 4 = v.toNat / 2 ^ (2 * b) % 2 ^ 2 := by
    interval_cases b <;> omega
  have hset : v.toNat / 2 ^ 16 % 2 ^ 8 / 2 ^ b % 2 = v.toNat / 2 ^ (16 + b) % 2 ^ 1 := by
    interval_cases b <;> omega
  exact Prod.ext hsel (decide_eq_decide.2 (Eq.congr_left hset))

/-- The bits of one bay are replaced. -/
def withBay (w v : Word) (b : Nat) : Word := withBits (withBits w (2 * b) 2 (bayField v b).1) (16 + b) 1 (bayField v b).2.toNat

theorem bayField_withBay (w v : Word) {b c : Nat} (hb : b < 8) (hc : c < 8) :
    bayField (withBay w v b) c = if c = b then bayField v b else bayField w c := by
  have h1 : (2 * b) + 2 ≤ 64 := by omega
  have h2 : (16 + b) + 1 ≤ 64 := by omega
  rw [bayField_eq _ hc, withBay, bitsOf_withBits_ne _ (16 + b) 1 _ (2 * c) 2 h2 (by omega)]
  split
  · next h =>
    subst h
    rw [bitsOf_withBits _ _ _ _ h1, bitsOf_withBits _ _ _ _ h2]
    have hlt : (bayField v c).1 < 2 ^ 2 := Nat.mod_lt _ (by decide)
    rw [Nat.mod_eq_of_lt hlt]
    cases h : (bayField v c).2 <;> exact Prod.ext rfl h.symm
  · next h =>
    rw [bitsOf_withBits_ne _ _ _ _ _ _ h1 (by omega), bitsOf_withBits_ne _ _ _ _ _ _ h2 (by omega),
      bitsOf_withBits_ne _ _ _ _ _ _ h1 (by omega), ← bayField_eq _ hc]

/-- Words with the same bits of every bay have the same fields. -/
theorem bitsOf_of_bayField {w v : Word} (h : ∀ b < 8, bayField w b = bayField v b) :
    bitsOf w 0 16 = bitsOf v 0 16 ∧ bitsOf w 16 8 = bitsOf v 16 8 := by
  have hsel : ∀ b < 8, bitsOf w (2 * b) 2 = bitsOf v (2 * b) 2 := fun b hb => by
    have := h b hb
    rw [bayField_eq _ hb, bayField_eq _ hb] at this
    exact congrArg Prod.fst this
  have hset : ∀ b < 8, bitsOf w (16 + b) 1 = bitsOf v (16 + b) 1 := fun b hb => by
    have := h b hb
    rw [bayField_eq _ hb, bayField_eq _ hb] at this
    have hd := decide_eq_decide.1 (congrArg Prod.snd this)
    have := bitsOf_lt w (16 + b) 1
    have := bitsOf_lt v (16 + b) 1
    omega
  have bit : ∀ {lo wd : Nat}, bitsOf w lo wd = bitsOf v lo wd → ∀ n, lo ≤ n → n < lo + wd → w.toNat.testBit n = v.toNat.testBit n := by
    intro lo wd he n h1 h2
    have := congrArg (fun x => x.testBit (n - lo)) he
    simpa [bitsOf_testBit, show n - lo < wd by omega, show n - lo + lo = n by omega] using this
  constructor
  · refine Nat.eq_of_testBit_eq fun n => ?_
    rw [bitsOf_testBit, bitsOf_testBit]
    by_cases hn : n < 16
    · rw [bit (hsel (n / 2) (by omega)) (n + 0) (by omega) (by omega)]
    · simp [hn]
  · refine Nat.eq_of_testBit_eq fun n => ?_
    rw [bitsOf_testBit, bitsOf_testBit]
    by_cases hn : n < 8
    · rw [bit (hset n hn) (n + 16) (by omega) (by omega)]
    · simp [hn]

theorem State.assignBay_quiet (s : State) (v : Word) (src : Src) (b : Nat) : (s.assignBay v src b).startOfTick = s.startOfTick :=
  (s.assignBay_within v src b).startOfTick (by decide)

theorem State.before_of_startOfTick {s t : State} (h : t.startOfTick = s.startOfTick) (f : Fld) (i j : Nat) :
    t.before f i j = s.before f i j := by
  unfold State.before State.atStart
  rw [h]

theorem State.seqBefore_of_startOfTick {s t : State} (h : t.startOfTick = s.startOfTick) (q : Nat) : t.seqBefore q = s.seqBefore q :=
  State.before_of_startOfTick h ..

theorem State.bayBusyBefore_of_startOfTick {s t : State} (h : t.startOfTick = s.startOfTick) (b : Nat) :
    t.bayBusyBefore b = s.bayBusyBefore b := by
  unfold State.bayBusyBefore
  rw [State.before_of_startOfTick h, State.before_of_startOfTick h]

/-- GLOBAL.BAYMAP. -/
abbrev State.baymap (s : State) : Word := s.rd ⟨.globalBaymap, 0, 0⟩

/-- The effect of a BAYMAP commit on one bay. -/
def State.takeBay (s : State) (v old : Word) (b : Nat) : State :=
  if s.namesRunning old b ∨ s.namesRunning v b ∨ s.bayBusyBefore b then s.hwSetBit F.globalBaymapStatusRefused 0 0 b
  else s.wr ⟨.globalBaymap, 0, 0⟩ (withBay s.baymap v b)

theorem State.assignBay_eq (s : State) (v : Word) (src : Src) (b : Nat) : s.assignBay v src b
    = if bayField v b = bayField s.baymap b then s
      else if testBit (s.before F.rasStatusBayResetting) b then s.hwSetBit F.globalBaymapStatusRefused 0 0 b
      else s.onObj (.bay b) 4 (srcRank src) (1 + v.toNat % 2 ^ 24) fun t => t.takeBay v s.baymap b := rfl

/-- The bit of BAYMAP_STATUS.REFUSED for bay `b`. -/
abbrev refusedBit (b : Nat) : Obj := .field (F.globalBaymapStatusRefused.key 0 0) (F.globalBaymapStatusRefused.lo + b)

theorem State.decider_hwSetBit (s : State) (f : Fld) (i j n : Nat) {o : Obj} (h : Obj.field (f.key i j) (f.lo + n) ≠ o) :
    (s.hwSetBit f i j n).decider o = s.decider o := by
  unfold State.hwSetBit
  split
  · exact s.decider_superseded o
  · exact State.decider_note_ne _ h

/-- What decides the other objects is as before. -/
theorem State.assignBay_decider (s : State) (v : Word) (src : Src) {b : Nat} {o : Obj} (ho : .bay b ≠ o) (hf : refusedBit b ≠ o) :
    (s.assignBay v src b).decider o = s.decider o := by
  rw [State.assignBay_eq]
  split
  · rfl
  · split
    · exact State.decider_hwSetBit _ _ _ _ _ hf
    · refine State.decider_onObj_ne ho fun t => ?_
      unfold State.takeBay
      split
      · exact State.decider_hwSetBit _ _ _ _ _ hf
      · rfl

/-- A register other than the two of the map, and than the count of events, is as before. -/
theorem State.rd_hwSetBit_ne (s : State) (f : Fld) (i j n : Nat) {k : RegKey} (h : f.reg ≠ k.name) (hk : k.name ≠ .clkPrecStats) :
    (s.hwSetBit f i j n).rd k = s.rd k := by
  unfold State.hwSetBit
  split
  · exact State.rd_superseded _ hk
  · exact (State.rd_note ..).trans (State.rd_wr_ne _ _ fun e => h (congrArg RegKey.name e).symm)

/-- The bit of a word that hardware sets, in which no clear is sampled, reads 1. -/
theorem State.testBit_hwSetBit (s : State) (f : Fld) (i j n m : Nat) (h : f.lo + f.width ≤ 64) (hm : m < f.width)
    (hc : m = n → s.clearedNow (f.key i j) (f.lo + n) = false) (hf : f.reg ≠ .clkPrecStats) :
    testBit ((s.hwSetBit f i j n).get f i j) m = if m = n then true else testBit (s.get f i j) m := by
  unfold State.hwSetBit
  split
  · next hcl =>
    rw [State.superseded, State.get_supersede _ _ _ _ _ hf]
    split
    · next e => exact absurd hcl (by rw [hc e]; exact Bool.noConfusion)
    · rfl
  · rw [State.get_note, State.get_set _ _ _ _ _ h, testBit_nat, Nat.testBit_mod_two_pow, decide_eq_true hm, Bool.true_and, ← testBit_nat,
      testBit_putBit]

/-- The effect of a commit on one bay leaves the bits of the others. -/
theorem State.takeBay_field (s : State) (v old : Word) {b c : Nat} (hb : b < 8) (hc : c < 8) (hne : c ≠ b) :
    bayField (s.takeBay v old b).baymap c = bayField s.baymap c := by
  unfold State.takeBay
  split
  · exact congrArg (bayField · c) (State.rd_hwSetBit_ne _ _ _ _ _ (by decide) (by decide))
  · rw [State.baymap, State.rd_wr_self, bayField_withBay _ _ hb hc, if_neg hne]

/-- The bits of another bay are as before. -/
theorem State.assignBay_field (s : State) (v : Word) (src : Src) {b c : Nat} (hb : b < 8) (hc : c < 8) (hne : c ≠ b) :
    bayField (s.assignBay v src b).baymap c = bayField s.baymap c := by
  rw [State.assignBay_eq]
  split
  · rfl
  · split
    · exact congrArg (bayField · c) (State.rd_hwSetBit_ne _ _ _ _ _ (by decide) (by decide))
    · have hn (t : State) (e : TickEvent) : bayField (t.note e).baymap c = bayField t.baymap c := congrArg (bayField · c) (State.rd_note ..)
      have hs (t : State) : bayField t.superseded.baymap c = bayField t.baymap c :=
        congrArg (bayField · c) (State.rd_superseded _ (by decide))
      rcases s.onObj_cases (.bay b) 4 (srcRank src) (1 + v.toNat % 2 ^ 24) fun t => t.takeBay v s.baymap b with e | e | e | e <;> rw [e]
      · exact (State.takeBay_field _ _ _ hb hc hne).trans (hn ..)
      · exact (State.takeBay_field _ _ _ hb hc hne).trans ((hs _).trans (hn ..))
      · exact hs _

/-- The bits of REFUSED for the other bays are as before. -/
theorem State.testBit_refused_hwSetBit_ne (s : State) {b c : Nat} (hc : c < 8) (hne : c ≠ b) :
    testBit ((s.hwSetBit F.globalBaymapStatusRefused 0 0 b).get F.globalBaymapStatusRefused) c
      = testBit (s.get F.globalBaymapStatusRefused) c := by
  rw [State.testBit_hwSetBit s _ 0 0 b c (by decide) hc (fun e => absurd e hne) (by decide), if_neg hne]

theorem State.assignBay_refused (s : State) (v : Word) (src : Src) {b c : Nat} (hc : c < 8) (hne : c ≠ b) :
    testBit ((s.assignBay v src b).get F.globalBaymapStatusRefused) c = testBit (s.get F.globalBaymapStatusRefused) c := by
  rw [State.assignBay_eq]
  split
  · rfl
  · split
    · exact s.testBit_refused_hwSetBit_ne hc hne
    · have hn (t : State) (e : TickEvent) : (t.note e).get F.globalBaymapStatusRefused = t.get F.globalBaymapStatusRefused :=
        State.get_note ..
      have hs (t : State) : t.superseded.get F.globalBaymapStatusRefused = t.get F.globalBaymapStatusRefused :=
        State.get_supersede _ _ _ _ _ (by decide)
      have ht (t : State) : testBit ((t.takeBay v s.baymap b).get F.globalBaymapStatusRefused) c
          = testBit (t.get F.globalBaymapStatusRefused) c := by
        unfold State.takeBay
        split
        · exact t.testBit_refused_hwSetBit_ne hc hne
        · rw [State.get, State.rd_wr_ne _ _ fun e => RegName.noConfusion (congrArg RegKey.name e)]; rfl
      rcases s.onObj_cases (.bay b) 4 (srcRank src) (1 + v.toNat % 2 ^ 24) fun t => t.takeBay v s.baymap b with e | e | e | e <;> rw [e]
      · rw [ht, hn]
      · rw [ht, hs, hn]
      · rw [hs]

/-! ### A commit, bay by bay -/

/-- The first `k` bays of a BAYMAP commit. -/
def State.assignBays (s : State) (v : Word) (src : Src) (k : Nat) : State :=
  (List.range k).foldl (fun (t : State) b => t.assignBay v src b) s

theorem State.assignBays_succ (s : State) (v : Word) (src : Src) (k : Nat) :
    s.assignBays v src (k + 1) = (s.assignBays v src k).assignBay v src k := by
  rw [State.assignBays, List.range_succ, List.foldl_append]
  rfl

/-- What the bays before `k` leave of those from `k` on. -/
structure BaysLeft (s t : State) (k : Nat) : Prop where
  only : Only 0x4000000000000000000000000000000000000000000000000000000001006 s t
  field : ∀ c, k ≤ c → c < 8 → bayField t.baymap c = bayField s.baymap c
  refused : ∀ c, k ≤ c → c < 8 → testBit (t.get F.globalBaymapStatusRefused) c = testBit (s.get F.globalBaymapStatusRefused) c
  decider : ∀ c, k ≤ c → t.decider (.bay c) = s.decider (.bay c) ∧ t.decider (refusedBit c) = s.decider (refusedBit c)

theorem State.assignBays_left (s : State) (v : Word) (src : Src) (k : Nat) (hk : k ≤ 8) : BaysLeft s (s.assignBays v src k) k := by
  induction k with
  | zero => exact ⟨Only.refl _ _, fun _ _ _ => rfl, fun _ _ _ => rfl, fun _ _ => ⟨rfl, rfl⟩⟩
  | succ k ih =>
    obtain ⟨ho, hf, hr, hd⟩ := ih (by omega)
    rw [State.assignBays_succ]
    refine ⟨ho.step (State.assignBay_within ..) (by decide), fun c hc h8 => ?_, fun c hc h8 => ?_, fun c hc => ⟨?_, ?_⟩⟩
    · rw [State.assignBay_field _ _ _ (by omega) h8 (by omega), hf c (by omega) h8]
    · rw [State.assignBay_refused _ _ _ h8 (by omega), hr c (by omega) h8]
    · rw [State.assignBay_decider _ _ _ (by simp; omega) (by simp), (hd c (by omega)).1]
    · rw [State.assignBay_decider _ _ _ (by simp) (by simp; omega), (hd c (by omega)).2]

theorem BaysLeft.alone {s t : State} {k : Nat} (h : BaysLeft s t k) {c : Nat} (hc : k ≤ c) (ha : Alone s (.bay c)) :
    Alone t (.bay c) :=
  h.only.alone ha (h.decider c hc).1 (by decide) (by decide) (by decide) (by decide) (by decide)

theorem State.namesRunning_of_stopped {s : State} {v : Word} {b : Nat} (h : ∀ q < 4, s.seqBefore q = 0) : s.namesRunning v b = false := by
  unfold State.namesRunning
  rw [h _ (Nat.mod_lt _ (by decide)), decide_eq_false (fun e => e rfl), Bool.and_false]

theorem State.namesRunning_of_startOfTick {s t : State} (h : t.startOfTick = s.startOfTick) (v : Word) (b : Nat) :
    t.namesRunning v b = s.namesRunning v b := by
  unfold State.namesRunning
  rw [State.seqBefore_of_startOfTick h]

theorem State.namesRunning_note (s : State) (e : TickEvent) (v : Word) (b : Nat) : (s.note e).namesRunning v b = s.namesRunning v b :=
  State.namesRunning_of_startOfTick (s.note_startOfTick e) v b

theorem State.bayBusyBefore_note (s : State) (e : TickEvent) (b : Nat) : (s.note e).bayBusyBefore b = s.bayBusyBefore b :=
  State.bayBusyBefore_of_startOfTick (s.note_startOfTick e) b

/-- A bay whose sequencers do not run, and which is free, takes its new bits, and no refusal is reported. -/
theorem State.assignBay_takes {s : State} {v : Word} {src : Src} {b : Nat} (hb : b < 8) (hq : ∀ q < 4, s.seqBefore q = 0)
    (hbusy : s.bayBusyBefore b = false) (ha : Alone s (.bay b)) :
    bayField (s.assignBay v src b).baymap b = bayField v b
    ∧ (s.assignBay v src b).get F.globalBaymapStatusRefused = s.get F.globalBaymapStatusRefused := by
  have hreset : testBit (s.before F.rasStatusBayResetting) b = false := (Bool.or_eq_false_iff.1 hbusy).2
  rw [State.assignBay_eq]
  split
  · next h => exact ⟨h.symm, rfl⟩
  · rw [hreset, if_neg Bool.false_ne_true, State.onObj_alone ha, State.takeBay, if_neg]
    · constructor
      · rw [State.baymap, State.rd_wr_self, bayField_withBay _ _ hb hb, if_pos rfl]
      · rw [State.get, State.rd_wr_ne _ _ fun e => RegName.noConfusion (congrArg RegKey.name e), State.rd_note]
        rfl
    · simp only [State.namesRunning_note, State.bayBusyBefore_note, State.namesRunning_of_stopped hq, hbusy]
      exact of_decide_eq_false rfl

/-- A bay of a sequencer that runs keeps its bits, and its refusal is reported. -/
theorem State.assignBay_refuses {s : State} {v : Word} {src : Src} {b : Nat} (hb : b < 8) (hold : s.namesRunning s.baymap b = true)
    (hne : bayField v b ≠ bayField s.baymap b) (ha : Alone s (.bay b))
    (hc : s.clearedNow (F.globalBaymapStatusRefused.key 0 0) (F.globalBaymapStatusRefused.lo + b) = false) :
    bayField (s.assignBay v src b).baymap b = bayField s.baymap b
    ∧ testBit ((s.assignBay v src b).get F.globalBaymapStatusRefused) b = true := by
  have key (t : State) (hm : t.baymap = s.baymap)
      (hct : t.clearedNow (F.globalBaymapStatusRefused.key 0 0) (F.globalBaymapStatusRefused.lo + b) = false) :
      bayField (t.hwSetBit F.globalBaymapStatusRefused 0 0 b).baymap b = bayField s.baymap b
      ∧ testBit ((t.hwSetBit F.globalBaymapStatusRefused 0 0 b).get F.globalBaymapStatusRefused) b = true := by
    constructor
    · rw [State.baymap, State.rd_hwSetBit_ne _ _ _ _ _ (by decide) (by decide)]
      exact congrArg (bayField · b) hm
    · rw [State.testBit_hwSetBit _ _ _ _ _ _ (by decide) hb (fun _ => hct) (by decide), if_pos rfl]
  rw [State.assignBay_eq, if_neg hne]
  split
  · exact key s rfl hc
  · rw [State.onObj_alone ha, State.takeBay, if_pos (Or.inl ((s.namesRunning_note ..).trans hold))]
    refine key _ (State.rd_note ..) ?_
    rw [← hc]
    exact ((State.note_only _ (Only.refl (2 ^ 242) s) (by decide)).clearedNow (by decide) (by decide) (by decide) (by decide) (State.decider_note_ne _ (by simp)))

theorem State.bayOf_eq (s : State) (b : Nat) :
    s.bayOf b = if (bayField s.baymap b).2 then some (bayField s.baymap b).1 else none := rfl

theorem State.namesRunning_of_bayOf {s : State} {b q : Nat} (h : s.bayOf b = some q) (hq : s.seqBefore q ≠ 0) :
    s.namesRunning s.baymap b = true := by
  rw [State.bayOf_eq] at h
  split at h
  · next ha =>
    have he : (bayField s.baymap b).1 = q := Option.some.inj h
    have hr : s.seqBefore (bayField s.baymap b).1 ≠ 0 := he ▸ hq
    exact Bool.and_eq_true_iff.2 ⟨ha, decide_eq_true hr⟩
  · exact absurd h (by simp)

/-- The bays of a commit in which nothing runs take their new bits one after another. -/
theorem State.assignBays_take {s : State} {v : Word} {src : Src} (hq : ∀ q < 4, s.seqBefore q = 0)
    (hb : ∀ b < 8, s.bayBusyBefore b = false ∧ Alone s (.bay b)) (k : Nat) (hk : k ≤ 8) :
    (∀ c < k, bayField (s.assignBays v src k).baymap c = bayField v c)
    ∧ (s.assignBays v src k).get F.globalBaymapStatusRefused = s.get F.globalBaymapStatusRefused := by
  induction k with
  | zero => exact ⟨fun _ h => absurd h (by omega), rfl⟩
  | succ k ih =>
    obtain ⟨hf, hr⟩ := ih (by omega)
    have hl := s.assignBays_left v src k (by omega)
    have hst := hl.only.startOfTick (by decide)
    obtain ⟨hbusy, ha⟩ := hb k (by omega)
    obtain ⟨htake, href⟩ := State.assignBay_takes (v := v) (src := src) (by omega : k < 8)
      (fun q h => (State.seqBefore_of_startOfTick hst q).trans (hq q h))
      ((State.bayBusyBefore_of_startOfTick hst k).trans hbusy) (hl.alone (Nat.le_refl k) ha)
    rw [State.assignBays_succ]
    refine ⟨fun c hc => ?_, href.trans hr⟩
    rcases Nat.lt_succ_iff_lt_or_eq.1 hc with h | h
    · rw [State.assignBay_field _ _ _ (by omega) (by omega) (by omega), hf c h]
    · rw [h, htake]

theorem baymapCommitAssigns : BaymapCommitAssigns := by
  intro v src s hq hb
  obtain ⟨hf, hr⟩ := State.assignBays_take (src := src) hq hb 8 (Nat.le_refl 8) (v := v)
  obtain ⟨hsel, hset⟩ := bitsOf_of_bayField hf
  exact ⟨s.assignBays v src 8, rfl, hsel, hset, hr⟩

/-- What a commit has decided of a bay stays through the bays that follow. -/
theorem State.assignBays_keep (s : State) (v : Word) (src : Src) {b : Nat} (k : Nat) (hk : b + 1 + k ≤ 8) :
    bayField (s.assignBays v src (b + 1 + k)).baymap b = bayField (s.assignBays v src (b + 1)).baymap b
    ∧ testBit ((s.assignBays v src (b + 1 + k)).get F.globalBaymapStatusRefused) b
      = testBit ((s.assignBays v src (b + 1)).get F.globalBaymapStatusRefused) b := by
  induction k with
  | zero => exact ⟨rfl, rfl⟩
  | succ k ih =>
    obtain ⟨hf, hr⟩ := ih (by omega)
    rw [← Nat.add_assoc, State.assignBays_succ, State.assignBay_field _ _ _ (by omega) (by omega) (by omega),
      State.assignBay_refused _ _ _ (by omega) (by omega)]
    exact ⟨hf, hr⟩

theorem baymapCommitRefusesRunningBays : BaymapCommitRefusesRunningBays := by
  intro v src s b q hb8 hbay hrun hne ha hc
  have hl := s.assignBays_left v src b (by omega)
  have hst := hl.only.startOfTick (by decide)
  have hfield := hl.field b (Nat.le_refl b) hb8
  have hbay' : (s.assignBays v src b).bayOf b = some q := by rw [State.bayOf_eq, hfield, ← State.bayOf_eq, hbay]
  obtain ⟨hkeep, href⟩ := State.assignBay_refuses (v := v) (src := src) hb8
    (State.namesRunning_of_bayOf hbay' (by rw [State.seqBefore_of_startOfTick hst]; exact hrun)) (by rw [hfield]; exact hne)
    (hl.alone (Nat.le_refl b) ha)
    (by rw [← hc]; exact hl.only.clearedNow (by decide) (by decide) (by decide) (by decide) (hl.decider b (Nat.le_refl b)).2)
  obtain ⟨hf, hr⟩ := s.assignBays_keep v src (b := b) (7 - b) (by omega)
  rw [show b + 1 + (7 - b) = 8 by omega, s.assignBays_succ v src b] at hf hr
  refine ⟨s.assignBays v src 8, rfl, ?_, hr.trans href⟩
  rw [State.bayOf_eq, hf, hkeep, hfield, ← State.bayOf_eq, hbay]

/-- Settles O8: a BAYMAP commit goes bay by bay, and no bay's part reaches the bits of another. -/
theorem baymapCommit : Obligations.BaymapCommit := ⟨baymapCommitAssigns, baymapCommitRefusesRunningBays⟩

end Sys2Proof.Machine
end

