-- ==== Sys2Proof/Proofs/Reads.lean ====
section
/-!
PROOFS. Reads.lean: what a field reads after each update of the state, in the form that `simp (disch := decide)` uses: the side
conditions are closed facts about the fields, so that an operation that is a chain of updates is read off in one step. None of these
lemmas is proved by `rfl` alone: the kernel then checks a rewriting step by step and does not compare two states field by field.
-/
namespace Sys2Proof.Machine

/-! ### Fields after an update of the registers -/

@[simp] theorem State.get_set_self (s : State) (f : Fld) (i j v : Nat) (h : f.lo + f.width ≤ 64) :
    (s.set f i j v).get f i j = v % 2 ^ f.width := s.get_set f i j v h

@[simp] theorem State.get_set_reg (s : State) (f g : Fld) (i j v i' j' : Nat) (h : f.lo + f.width ≤ 64) (d : f.reg ≠ g.reg) :
    (s.set f i j v).get g i' j' = s.get g i' j' := s.get_set_ne f g i j v i' j' h (.inl d)

@[simp] theorem State.get_set_apart (s : State) (f g : Fld) (i j v i' j' : Nat) (h : f.lo + f.width ≤ 64) (d : f.Apart g) :
    (s.set f i j v).get g i' j' = s.get g i' j' := s.get_set_ne f g i j v i' j' h (.inr (.inr (.inr d)))

@[simp] theorem State.get_setBit_self (s : State) (f : Fld) (i j : Nat) (b : Bool) (h : f.lo + f.width ≤ 64) (hw : 0 < f.width) :
    (s.setBit f i j b).get f i j = b.toNat := s.get_setBit f i j b h hw

@[simp] theorem State.get_setBit_reg (s : State) (f g : Fld) (i j : Nat) (b : Bool) (i' j' : Nat) (h : f.lo + f.width ≤ 64)
    (d : f.reg ≠ g.reg) : (s.setBit f i j b).get g i' j' = s.get g i' j' := s.get_setBit_ne f g i j b i' j' h (.inl d)

@[simp] theorem State.get_setBit_apart (s : State) (f g : Fld) (i j : Nat) (b : Bool) (i' j' : Nat) (h : f.lo + f.width ≤ 64)
    (d : f.Apart g) : (s.setBit f i j b).get g i' j' = s.get g i' j' := s.get_setBit_ne f g i j b i' j' h (.inr (.inr (.inr d)))

@[simp] theorem State.get_superseded (s : State) (g : Fld) (i j : Nat) (hg : g.reg ≠ .clkPrecStats) :
    s.superseded.get g i j = s.get g i j := s.get_supersede 1 g i j hg

@[simp] theorem State.get_supersede_reg (s : State) (n : Nat) (g : Fld) (i j : Nat) (hg : g.reg ≠ .clkPrecStats) :
    (s.supersede n).get g i j = s.get g i j := s.get_supersede n g i j hg

@[simp] theorem State.get_hwSet_reg (s : State) (f g : Fld) (i j i' j' : Nat) (hg : g.reg ≠ .clkPrecStats) (h : f.lo + f.width ≤ 64)
    (d : f.reg ≠ g.reg) : (s.hwSet f i j).get g i' j' = s.get g i' j' := s.get_hwSet_ne f g i j i' j' hg h (.inl d)

@[simp] theorem State.get_hwSet_apart (s : State) (f g : Fld) (i j i' j' : Nat) (hg : g.reg ≠ .clkPrecStats) (h : f.lo + f.width ≤ 64)
    (d : f.Apart g) : (s.hwSet f i j).get g i' j' = s.get g i' j' := s.get_hwSet_ne f g i j i' j' hg h (.inr (.inr (.inr d)))

@[simp] theorem State.get_count_reg (s : State) (f sat g : Fld) (i j n i' j' : Nat) (hg : g.reg ≠ .clkPrecStats)
    (h : f.lo + f.width ≤ 64) (hs : sat.lo + sat.width ≤ 64) (d : f.reg ≠ g.reg) (ds : sat.reg ≠ g.reg) :
    (s.count f sat i j n).get g i' j' = s.get g i' j' := s.get_count_ne f sat g i j n i' j' hg h hs (.inl d) (.inl ds)

@[simp] theorem State.get_count_apart (s : State) (f sat g : Fld) (i j n i' j' : Nat) (hg : g.reg ≠ .clkPrecStats)
    (h : f.lo + f.width ≤ 64) (hs : sat.lo + sat.width ≤ 64) (d : f.Apart g) (ds : sat.Apart g) :
    (s.count f sat i j n).get g i' j' = s.get g i' j' :=
  s.get_count_ne f sat g i j n i' j' hg h hs (.inr (.inr (.inr d))) (.inr (.inr (.inr ds)))

@[simp] theorem State.get_emit (s : State) (o : Output) (f : Fld) (i j : Nat) : (s.emit o).get f i j = s.get f i j :=
  State.get_of_regs rfl ..

/-! ### Fields of a state of which other parts are replaced -/

/-- A field of a register file. -/
def fieldIn (regs : List (RegKey × Word)) (f : Fld) (i j : Nat) : Nat := bitsOf (Assoc.rd resetWord regs (f.key i j)) f.lo f.width

@[simp] theorem fieldIn_regs (s : State) (f : Fld) (i j : Nat) : fieldIn s.regs f i j = s.get f i j := by
  unfold fieldIn State.get State.rd
  rfl

@[simp] theorem State.get_mk (p1 r p2 p3 p4 p5 p6 p7 p8 p9 p10 p11 p12 p13 p14 p15 p16 p17 p18 p19 p20 p21 p22 p23 p24 p25 p26 p27 p28
    p29 p30 p31 f i j) : (State.mk p1 r p2 p3 p4 p5 p6 p7 p8 p9 p10 p11 p12 p13 p14 p15 p16 p17 p18 p19 p20 p21 p22 p23 p24 p25 p26
    p27 p28 p29 p30 p31).get f i j = fieldIn r f i j := by
  unfold fieldIn State.get State.rd
  rfl

/-! ### Fields after an update of a unit -/

section
variable (s : State) (f : Fld) (i j : Nat)

@[simp] theorem State.get_setSeqX (q : Nat) (x : SeqX) : (s.setSeqX q x).get f i j = s.get f i j := State.get_of_regs rfl ..
@[simp] theorem State.get_setChan (c : Nat) (x : ChanX) : (s.setChan c x).get f i j = s.get f i j := State.get_of_regs rfl ..
@[simp] theorem State.get_setLogX (q : Nat) (x : LogX) : (s.setLogX q x).get f i j = s.get f i j := State.get_of_regs rfl ..
@[simp] theorem State.get_setStore (q : Nat) (x : TsStore) : (s.setStore q x).get f i j = s.get f i j := State.get_of_regs rfl ..
@[simp] theorem State.get_setRingX (q : Nat) (x : RingX) : (s.setRingX q x).get f i j = s.get f i j := State.get_of_regs rfl ..
@[simp] theorem State.get_setPortX (p : Nat) (x : PortX) : (s.setPortX p x).get f i j = s.get f i j := State.get_of_regs rfl ..
@[simp] theorem State.get_setCoreX (c : Nat) (x : CoreX) : (s.setCoreX c x).get f i j = s.get f i j := State.get_of_regs rfl ..
@[simp] theorem State.get_setFlowX (n : Nat) (x : FlowX) : (s.setFlowX n x).get f i j = s.get f i j := State.get_of_regs rfl ..
@[simp] theorem State.get_setEntry (g : Nat) (x : PgEntry) : (s.setEntry g x).get f i j = s.get f i j := State.get_of_regs rfl ..
@[simp] theorem State.get_setAdc (b : Nat) (x : AdcX) : (s.setAdc b x).get f i j = s.get f i j := State.get_of_regs rfl ..
@[simp] theorem State.get_setAcq (b : Nat) (x : AcqX) : (s.setAcq b x).get f i j = s.get f i j := State.get_of_regs rfl ..
@[simp] theorem State.get_setTim (m : Nat) (x : TimX) : (s.setTim m x).get f i j = s.get f i j := State.get_of_regs rfl ..
@[simp] theorem State.get_setFe (b : Nat) (x : FeX) : (s.setFe b x).get f i j = s.get f i j := State.get_of_regs rfl ..
@[simp] theorem State.get_setDclk (b g : Nat) (x : DclkX) : (s.setDclk b g x).get f i j = s.get f i j := State.get_of_regs rfl ..
@[simp] theorem State.get_putByte (a : Nat) (b : Byte) : (s.putByte a b).get f i j = s.get f i j := State.get_of_regs rfl ..

end

end Sys2Proof.Machine
end

