-- ==== Sys2Proof/Proofs/ClockAndPins.lean ====
section
/-!
PROOFS. ClockAndPins.lean: the reference monitor (R38 to R44), tick alignment (R45 to R51) and the GPIO edges (R54, R345); from these O10.
-/
namespace Sys2Proof.Machine

theorem Completes.intro {c : Instr} {s t : State} {P : State → Prop} (h : exec c s = .next t) (hp : P t) : Completes c s P := ⟨t, h, hp⟩

/-! ### The reference monitor (R38 to R44) -/

theorem execRefclkDropout_stops {s : State} (h : s.bit F.clkStatusRefLost = false) (ct : Nat) :
    exec (.refclkDropout ⟨false, ct⟩) s
      = .next ({ s with clk := { s.clk with refLast := some (s.nowCt + ct), refBack := none } }.set F.clkStatusHoldover 0 0 1) := by
  show Host.Outcome.next (State.refStops s ct) = _
  rw [State.refStops, if_neg (by rw [h]; exact Bool.false_ne_true)]

theorem execRefclkDropout_ends {s : State} {ct : Nat} (h : s.bit F.clkStatusRefLost = false) (hh : s.bit F.clkStatusHoldover = true)
    (hb : s.nowCt + ct ≤ s.clk.refLast.getD (s.nowCt + ct) + 4800) :
    exec (.refclkDropout ⟨true, ct⟩) s
      = .next ((s.set F.clkStatusHoldover 0 0 0).count F.clkRefmonDropoutCount F.clkRefmonDropoutSaturated 0 0 1) := by
  show Host.Outcome.next (State.refReturns s ct) = _
  rw [State.refReturns, if_neg (by rw [h]; exact Bool.false_ne_true), if_pos ⟨hh, hb⟩]

/-- What a loss of the reference reaches beside the monitor's own registers. -/
def State.lossReaches (s : State) : State :=
  ((s.post 0x0101 0 0).stopAllRefLost).timRefLost.calRefLost.servosHold.ppsLow

theorem State.lossReaches_within (s : State) : Only 0x1ad74e44004001a4c030007300000000000200001200000000000200218000d45000 s s.lossReaches :=
  ((((((Only.refl _ s).step (State.post_within ..) (by decide)).step (State.stopAllRefLost_within _) (by decide)).step
    (State.timRefLost_within _) (by decide)).step (State.calRefLost_within _) (by decide)).step (State.servosHold_within _)
    (by decide)).step (State.ppsLow_within _) (by decide)

/-- The monitor's registers with the loss of the reference. -/
def State.lossSets (s : State) : State :=
  ((((({ s with clk := { s.clk with refLast := some (s.clk.refLast.getD (s.nowCt - 4800)), refBack := none } }.set
    F.clkStatusRefLost 0 0 1).set F.clkStatusHoldover 0 0 1).hwSet F.clkStatusRefLostSeen 0 0).set F.clkStatusTickAligned 0 0 0))

theorem execRefLost_eq {s : State} (h : s.bit F.clkStatusRefLost = false) :
    exec .refLost s = .next (s.lossSets.count F.clkRefmonLostCount F.clkRefmonLostSaturated 0 0 1).lossReaches := by
  show (if _ then _ else _) = _
  rw [if_neg (by rw [h]; exact Bool.false_ne_true)]
  rfl

theorem State.lossSets_within (s : State) :
    Only 0x40000004000000000000000000000000000000000000000000000000000000001040 s s.lossSets :=
  State.set_only _ _ _ _ (State.hwSet_only _ _ _ (State.set_only _ _ _ _ (State.set_only _ _ _ _
    ((Only.refl _ s).fields rfl rfl) (by decide)) (by decide)) (by decide)) (by decide)

theorem State.lossSets_unclear {s : State} (h : Unclear s F.clkRefmonLostCount 0 0) : Unclear s.lossSets F.clkRefmonLostCount 0 0 :=
  s.lossSets_within.unclear h (by decide) (by decide) (by decide) (by decide) (State.decider_hwSet _ _ _ _ (by decide))

theorem referenceMonitor_lost (s : State) (hl : s.bit F.clkStatusRefLost = false) (hu : Unclear s F.clkRefmonLostCount 0 0) :
    Completes .refLost s fun t => t.get F.clkStatusRefLost = 1 ∧ t.get F.clkStatusHoldover = 1
      ∧ t.get F.clkStatusTickAligned = 0 ∧ t.get F.clkRefmonLostCount = min 65535 (s.get F.clkRefmonLostCount + 1) := by
  have hw := State.lossReaches_within (s.lossSets.count F.clkRefmonLostCount F.clkRefmonLostSaturated 0 0 1)
  refine Completes.intro (execRefLost_eq hl) ?_
  rw [hw.get F.clkStatusRefLost 0 0 (by decide), hw.get F.clkStatusHoldover 0 0 (by decide),
    hw.get F.clkStatusTickAligned 0 0 (by decide), hw.get F.clkRefmonLostCount 0 0 (by decide),
    State.get_count_min _ _ (State.lossSets_unclear hu) (by decide) (by decide) (.inr (by decide))]
  simp (disch := decide) [State.lossSets]

theorem referenceMonitor : ReferenceMonitor := by
  refine ⟨fun s => .intro rfl ?_, fun s h ct => .intro (execRefclkDropout_stops h ct) ⟨?_, ?_⟩,
    fun ct s h hh hu hb => .intro (execRefclkDropout_ends h hh hb) ⟨?_, ?_⟩, referenceMonitor_lost, fun back ct s h hb ht => ?_⟩
  · simp (disch := decide)
  · simp (disch := decide)
  · simp (disch := decide)
  · simp (disch := decide)
  · have ho : Only 0x1040 s (s.set F.clkStatusHoldover 0 0 0) := State.set_only _ _ _ _ (Only.refl _ s) (by decide)
    exact (State.get_count_min _ _ (ho.unclear hu (by decide) (by decide) (by decide) (by decide) rfl) (by decide) (by decide)
      (.inr (by decide))).trans (by simp (disch := decide))
  · have hx : exec (.refRestored ct) s = .next ((({ s with clk := { s.clk with refLast := none, refBack := none } }.set
        F.clkStatusRefLost 0 0 0).set F.clkStatusHoldover 0 0 0).post 0x0102 0 (min 4294967295 (s.lossUs back))) := by
      simp only [exec, execRefRestored, hb]
      rw [if_pos ⟨h, ht⟩]
    refine .intro hx ?_
    rw [(State.post_within ..).get F.clkStatusRefLost 0 0 (by decide), (State.post_within ..).get F.clkStatusHoldover 0 0 (by decide)]
    simp (disch := decide)

/-! ### Tick alignment (R45 to R51) -/

/-- Whether an arm in align mode is free to act follows from STATUS of the sequencers and of the raisings, and from CAL. -/
theorem Only.alignFree {N : Nat} {s t : State} (h : Only N s t) (hq : N.testBit RegName.seqStatus.ctorIdx = false)
    (hc : N.testBit RegName.calStatus.ctorIdx = false) (ht : N.testBit RegName.timeRaiseNs.ctorIdx = false) :
    t.alignFree = s.alignFree := by
  simp only [State.alignFree, State.allStopped, State.anyScheduled, h.get F.calStatusBusy 0 0 hc,
    fun e => h.bit F.timeRaiseNsScheduled 0 e ht, fun q => h.get F.seqStatusState q 0 hq]

theorem State.alignSetup_bits (s : State) (verify drive : Bool) :
    (s.alignSetup verify drive).bit F.clkAlignMode = verify ∧ (s.alignSetup verify drive).bit F.clkAlignSyncDrive = drive := by
  simp (disch := decide) [State.alignSetup, State.bit]

/-- An arm with no operation armed. -/
theorem State.alignArm_alone {s : State} (h : Alone s .align) (h1 : s.get F.clkStatusAlignState ≠ 1)
    (h2 : s.get F.clkStatusAlignState ≠ 2) (src : Src) : s.alignArm src
      = if s.bit F.clkAlignMode ∨ s.alignFree then
          ({ s.note ⟨.align, 4, srcRank src, 1⟩ with clk := { s.clk with driveDue := some s.ticks } }.set F.clkStatusAlignState 0 0 1).set
            F.clkAlignResultValid 0 0 0
        else (s.note ⟨.align, 4, srcRank src, 1⟩).hwSet F.clkStatusAlignRefused 0 0 := by
  rw [State.alignArm, if_neg (not_or.2 ⟨h1, h2⟩), State.onObj_alone h]
  rfl

theorem tickAlignment_arms (verify drive : Bool) (src : Src) (s : State) (h1 : s.get F.clkStatusAlignState ≠ 1)
    (h2 : s.get F.clkStatusAlignState ≠ 2) (ha : Alone s .align) (hv : verify = true ∨ s.alignFree = true) :
    Completes (.alignArm verify drive src) s fun t => t.get F.clkStatusAlignState = 1 ∧ t.get F.clkAlignResultValid = 0
      ∧ t.bit F.clkAlignMode = verify ∧ t.bit F.clkAlignSyncDrive = drive := by
  have hs := s.alignSetup_within verify drive
  obtain ⟨hm, hd⟩ := s.alignSetup_bits verify drive
  refine .intro (exec_alignArm ..) ?_
  rw [State.alignArm_alone (State.alignSetup_alone ha verify drive) (by rwa [hs.get _ _ _ (by decide)])
    (by rwa [hs.get _ _ _ (by decide)]), if_pos (by rwa [hm, hs.alignFree (by decide) (by decide) (by decide)])]
  simp (disch := decide) only [State.bit, State.get_set_self, State.get_set_reg, State.get_mk, fieldIn_regs,
    State.get_note] at hm hd ⊢
  exact ⟨rfl, rfl, hm, hd⟩

theorem tickAlignment_refused (drive : Bool) (src : Src) (s : State) (h1 : s.get F.clkStatusAlignState ≠ 1)
    (h2 : s.get F.clkStatusAlignState ≠ 2) (ha : Alone s .align) (hf : s.alignFree = false) (hu : Unclear s F.clkStatusAlignRefused 0 0) :
    Completes (.alignArm false drive src) s fun t => t.get F.clkStatusAlignRefused = 1
      ∧ t.get F.clkStatusAlignState = s.get F.clkStatusAlignState := by
  have hs := s.alignSetup_within false drive
  obtain ⟨hm, -⟩ := s.alignSetup_bits false drive
  refine .intro (exec_alignArm ..) ?_
  rw [State.alignArm_alone (State.alignSetup_alone ha false drive) (by rwa [hs.get _ _ _ (by decide)])
    (by rwa [hs.get _ _ _ (by decide)]), if_neg (by rw [hm, hs.alignFree (by decide) (by decide) (by decide), hf]; decide)]
  have hn : Only (F.clkAlignMode.mask ||| 2 ^ 242) s ((s.alignSetup false drive).note ⟨.align, 4, srcRank src, 1⟩) :=
    State.note_only _ (hs.mono (by decide)) (by decide)
  constructor
  · refine State.get_hwSet _ _ _ _ (hn.unclear hu (by decide) (by decide) (by decide) (by decide) ?_) (by decide) (by decide)
    exact (State.decider_note_ne _ Obj.noConfusion).trans (State.alignSetup_decider ..)
  · rw [State.get_hwSet_apart _ _ _ _ _ _ _ (by decide) (by decide) (by decide), hn.get _ _ _ (by decide)]

theorem tickAlignment_disarms (src : Src) (s : State) (h : s.get F.clkStatusAlignState = 1 ∨ s.get F.clkStatusAlignState = 2)
    (ha : Alone s .align) : Completes (.alignDisarm src) s fun t => t.get F.clkStatusAlignState = 0 := by
  refine .intro (exec_alignDisarm ..) ?_
  rw [State.alignDisarm, State.onObj_alone ha, if_pos (by simpa using h)]
  simp (disch := decide)

theorem tickAlignment_drives (k : Nat) (s : State) (hk : s.clk.driveDue = some k) (ht : k + 150 ≤ s.ticks)
    (hd : s.bit F.clkAlignSyncDrive = true) :
    Completes .syncDrive s fun t => t.out = s.out ++ [.syncPulse] ∧ t.clk.driveDue = none := by
  have hx : exec .syncDrive s = .next ({ s with clk := { s.clk with driveDue := none } }.emit .syncPulse) := by
    simp only [exec, execSyncDrive, hk]
    rw [if_pos ⟨ht, hd⟩]
  exact .intro hx ⟨rfl, rfl⟩

theorem tickAlignment_captures (c : Nat) (s : State) (hc : s.refEdge = some c) (h1 : s.get F.clkStatusAlignState = 1)
    (ha : Alone s .align) : Completes .syncCapture s fun t => t.get F.clkStatusAlignState = 2 ∧ t.clk.capture = c := by
  have hx : exec .syncCapture s = .next ({ s.note ⟨.align, 5, srcRank .hw, 1⟩ with clk := { s.clk with capture := c } }.set
      F.clkStatusAlignState 0 0 2) := by
    simp only [exec, execSyncCapture, hc]
    rw [if_pos h1, State.onObj_alone ha]
    rfl
  exact .intro hx ⟨by simp (disch := decide), rfl⟩

theorem tickAlignment_aligns (ct : Nat) (s : State) (h2 : s.get F.clkStatusAlignState = 2) (hct : s.clk.capture + 48 ≤ s.nowCt + ct)
    (hm : s.bit F.clkAlignMode = false) :
    Completes (.alignmentEdge ct) s fun t => t.get F.clkStatusAlignState = 3 ∧ t.get F.clkStatusTickAligned = 1
      ∧ t.get F.clkEtcountCount = s.get F.clkAlignLoadValue := by
  refine .intro ((if_pos ⟨h2, hct⟩).trans (if_neg (by rw [hm]; exact Bool.false_ne_true))) ?_
  simp (disch := decide) [(State.adcRephase_within _).get, (State.cutTick_within ..).get]
  exact State.get_lt s F.clkAlignLoadValue 0 0

theorem tickAlignment_verifies (ct : Nat) (s : State) (h2 : s.get F.clkStatusAlignState = 2) (hct : s.clk.capture + 48 ≤ s.nowCt + ct)
    (hm : s.bit F.clkAlignMode = true) :
    Completes (.alignmentEdge ct) s fun t => t.get F.clkStatusAlignState = 3 ∧ t.get F.clkAlignResultValid = 1
      ∧ t.get F.clkAlignResultEtcountLow = s.get F.clkEtcountCount % 2 ^ 48 ∧ t.get F.clkAlignResultPhase = s.clk.capture % 8
      ∧ t.get F.clkEtcountCount = s.get F.clkEtcountCount := by
  refine .intro ((if_pos ⟨h2, hct⟩).trans (if_pos hm)) ?_
  simp (disch := decide)
  omega

theorem tickAlignment : TickAlignment :=
  ⟨tickAlignment_arms, tickAlignment_refused, tickAlignment_disarms, tickAlignment_drives, tickAlignment_captures,
    tickAlignment_aligns, tickAlignment_verifies⟩

/-! ### GPIO edges (R54, R345) -/

theorem execGpioEdge_eq (pin : Nat) (level rose fell : Bool) (s : State) : exec (.gpioEdge pin level rose fell) s
    = .next (((s.putMask F.globalGpioInLevel 0 0 pin level).gpioRoute pin rose fell).gpioTrigger pin (rose || fell)) := rfl

theorem bitsBelow_two_pow (i : Nat) (h : i < 32) : bitsBelow 32 (2 ^ i) = [i] := by
  interval_cases i <;> rfl

/-- A flag of a thread that nothing else decides is set. -/
theorem State.setFlag_alone {s : State} {j i : Nat} (rank : Nat) (hd : s.decider (.thread j) = none) (ha : Alone s (.threadFlag j i)) :
    s.setFlag j rank i = (s.note ⟨.threadFlag j i, 4, rank, 1⟩).set F.dispThrStateFlags 0 j
      (putBit (s.get F.dispThrStateFlags 0 j) i true) := by
  rw [State.setFlag, hd]
  show State.onObj .. = _
  rw [State.onObj_alone ha, State.get_note]

theorem State.makeReady_flags (s : State) (j : Nat) (head : Bool) (j' : Nat) :
    (s.makeReady j head).get F.dispThrStateFlags 0 j' = s.get F.dispThrStateFlags 0 j' := by
  simp (disch := decide) [State.makeReady, (State.unready_within ..).get, (State.setReadyList_within ..).get]

/-- A wake by flags leaves the flags as they are. -/
theorem State.wakeByFlags_flags (s : State) (j rank j' : Nat) :
    (s.wakeByFlags j rank).get F.dispThrStateFlags 0 j' = s.get F.dispThrStateFlags 0 j' := by
  unfold State.wakeByFlags
  split
  · split
    · rcases s.onObj_cases (.thread j) 4 rank effReady fun t => t.makeReady j false with e | e | e | e <;> rw [e]
      · simp [State.makeReady_flags]
      · simp (disch := decide) [State.makeReady_flags]
      · simp (disch := decide)
    · split
      · simp (disch := decide)
      · rfl
  · rfl

/-- Of the flags, a bit that a GPIO edge sets reads 1. -/
theorem State.setFlags_one {s : State} {j i : Nat} (src : Src) (hi : i < 32) (hd : s.decider (.thread j) = none)
    (ha : Alone s (.threadFlag j i)) : testBit ((s.setFlags j (2 ^ i) src).get F.dispThrStateFlags 0 j) i = true := by
  have hone : s.setFlags j (2 ^ i) src = (s.setFlag j (srcRank src) i).wakeByFlags j (srcRank src) := by
    rw [State.setFlags, bitsBelow_two_pow i hi]
    rfl
  rw [hone, State.wakeByFlags_flags, State.setFlag_alone _ hd ha, State.get_set _ _ _ _ _ (by decide), testBit_nat,
    Nat.testBit_mod_two_pow, ← testBit_nat, testBit_putBit, if_pos rfl]
  simp [hi]

/-- The level that an edge leaves. -/
theorem State.gpioIn_after (s : State) (pin : Nat) (level rose fell : Bool) (p : Nat) (hp : p < 32) :
    testBit ((((s.putMask F.globalGpioInLevel 0 0 pin level).gpioRoute pin rose fell).gpioTrigger pin (rose || fell)).get
      F.globalGpioInLevel) p = if p = pin then level else testBit (s.get F.globalGpioInLevel) p := by
  rw [(State.gpioTrigger_within ..).get _ _ _ (by decide), (State.gpioRoute_within ..).get _ _ _ (by decide), State.putMask,
    State.get_set _ _ _ _ _ (by decide), testBit_nat, Nat.testBit_mod_two_pow, ← testBit_nat, testBit_putBit]
  simp [hp]

theorem gpioEdges : GpioEdges := by
  intro pin level rose fell s hp
  refine .intro (execGpioEdge_eq ..) ⟨?_, fun p hp' hne => ?_, fun he hs j i hj hi hd ha => ?_⟩
  · rw [State.gpioIn_after _ _ _ _ _ _ hp, if_pos rfl]
  · rw [State.gpioIn_after _ _ _ _ _ _ hp', if_neg hne]
  · have hw : Only F.globalGpioInLevel.mask s (s.putMask F.globalGpioInLevel 0 0 pin level) :=
      State.set_only _ _ _ _ (Only.refl _ _) (by decide)
    rw [(State.gpioTrigger_within ..).get _ _ _ (by decide), State.gpioRoute, hw.bit F.dispGpioRouteEn 0 pin (by decide),
      hw.get F.dispGpioRouteEdge 0 pin (by decide), hw.get F.dispGpioRouteThread 0 pin (by decide),
      hw.get F.dispGpioRouteFlag 0 pin (by decide), if_pos ⟨he, hs⟩, ← hj, ← hi]
    exact State.setFlags_one _ (by rw [hi]; exact s.get_lt F.dispGpioRouteFlag 0 pin)
      ((State.decider_congr (hw.events (by decide)) _).trans hd)
      (hw.alone_of_quiet ha (by decide) (by decide) (by decide) (by decide) (by decide) (by decide))

/-- Settles O10: the monitor's counts, the states of an alignment and the edges of the pins are read off the operations' updates. -/
theorem clockAndPins : Obligations.ClockAndPins := ⟨referenceMonitor, tickAlignment, gpioEdges⟩

end Sys2Proof.Machine
end

