-- ==== Sys2Proof/Proofs/SequencerControl.lean ====
section
/-!
PROOFS. SequencerControl.lean: what starts, resumes, stops and FAULT_CLEAR do to a sequencer (R70 to R74, R111 to R119), what ends by
itself (R103, R118) and the raisings that fire (R262); from these O11, O12 and O13.
-/
namespace Sys2Proof.Machine

/-! ### An event on an object that stands alone -/

theorem State.judge_alone {s : State} {o : Obj} (h : Alone s o) (cls rank eff : Nat) : s.judge o cls rank eff = (.acts, 0) := by
  obtain ⟨hd, hw, hr⟩ := h
  simp [State.judge, hd, hw, hr]

theorem State.decideEvent_alone {s : State} {o : Obj} (h : Alone s o) (cls rank eff : Nat) :
    s.decideEvent o cls rank eff = (.acts, s.note ⟨o, cls, rank, eff⟩) := by
  unfold State.decideEvent
  rw [State.judge_alone h]
  rfl

/-! ### What waits for an object that no action of a sequencer reaches (R105 to R109) -/

/-- No action of a sequencer is an event on the object. -/
def NoAct (o : Obj) : Prop := ∀ q a e, SeqAct.event q a = some e → e.on o = false

theorem noAct_field (k : RegKey) (lo : Nat) : NoAct (.field k lo) := by
  intro q a e h
  cases a <;> simp only [SeqAct.event, Option.some.injEq, reduceCtorEq] at h <;> subst h <;> simp only [TickEvent.on, reduceCtorEq] <;>
    split <;> simp

theorem noAct_seq (q : Nat) : NoAct (.seq q) := by
  intro q a e h
  cases a <;> simp only [SeqAct.event, Option.some.injEq, reduceCtorEq] at h <;> subst h <;> simp [TickEvent.on, Obj.block]

/-- What waits for such an object waits in the queue. -/
theorem State.waiting_eq (s : State) {o : Obj} (ho : NoAct o) : s.waiting o = (s.pending.flatMap Instr.events).filter fun e => e.on o := by
  have hs : (s.seqs.flatMap fun e =>
      e.2.due.filterMap fun a => if a.1 ≤ s.ticks * 8192 then SeqAct.event e.1 a.2 else none).filter (fun e => e.on o) = [] := by
    refine List.filter_eq_nil_iff.2 fun w hw => ?_
    obtain ⟨e, -, hw⟩ := List.mem_flatMap.1 hw
    obtain ⟨a, -, hw⟩ := List.mem_filterMap.1 hw
    split at hw
    · rw [ho _ _ _ hw]
      exact Bool.false_ne_true
    · exact absurd hw (by simp)
  rw [State.waiting, List.filter_append, hs, List.append_nil]

theorem Only.waiting_quiet {N : Nat} {s t : State} (h : Only N s t) {o : Obj} (ho : NoAct o) (hp : N.testBit 240 = false) :
    t.waiting o = s.waiting o := by
  rw [State.waiting_eq _ ho, State.waiting_eq _ ho, h.pending hp]

/-- No clear of a field is sampled after an operation that changes neither the queue nor what is in reset nor the field's events. -/
theorem Only.unclear_field {N : Nat} {s t : State} (h : Only N s t) {f : Fld} {i j : Nat} (hu : Unclear s f i j)
    (hN : N.testBit RegName.rasStatus.ctorIdx = false) (hp : N.testBit 240 = false)
    (hd : t.decider (.field (f.key i j) f.lo) = s.decider (.field (f.key i j) f.lo)) : Unclear t f i j := by
  refine Eq.trans ?_ hu
  unfold State.clearedNow
  rw [h.inReset_field hN, h.waiting_quiet (noAct_field _ _) hp, hd]

/-! ### Fields of a state that one of two updates leaves -/

theorem State.get_ite (p : Prop) [Decidable p] (s t : State) (f : Fld) (i j : Nat) :
    (if p then s else t).get f i j = if p then s.get f i j else t.get f i j := apply_ite (fun u : State => u.get f i j) ..

/-! ### Starts (R70, R71) -/

theorem State.start_refused {s : State} {q : Nat} (h : Alone s (.seq q)) (src : Src) (hr : s.startRefusal q ≠ 0) :
    s.start q src = (s.startRefusal q, s) := by
  simp only [State.start, State.judge_alone h]
  rw [if_pos hr]

theorem State.start_accepted {s : State} {q : Nat} (h : Alone s (.seq q)) (src : Src) (hr : s.startRefusal q = 0) :
    s.start q src = (0, (s.note ⟨.seq q, 5, srcRank src, 1⟩).startRun q) := by
  simp only [State.start, State.judge_alone h, State.decideEvent_alone h]
  rw [if_neg (by rw [hr]; decide)]

/-- The registers of a sequencer that starts. -/
theorem State.startRun_registers (s : State) (q : Nat) :
    (s.startRun q).seqState q = 1 ∧ (s.startRun q).get F.seqLflagsLf q = s.get F.seqLflagsLfInit q
    ∧ (s.startRun q).get F.seqCycleCount q = 0 ∧ (s.startRun q).get F.seqStatusStopReason q = 0
    ∧ (s.startRun q).get F.seqSiteFailSite q = 0 ∧ (s.startRun q).get F.seqSiteFailSeq q = 0 := by
  have hlf := s.get_lt F.seqLflagsLfInit q 0
  simp (disch := decide) [State.startRun, State.seqState, State.setSeqState, State.clearRun,
    (State.srExit_within _ _).get, (State.dclkLaunch_within _ _ _).get, (State.unpark_within _ _).get,
      (State.startSites_within _ _ _).get, (State.clampAll_within _ _).get]
  exact hlf

/-- The run of a sequencer that starts. -/
theorem State.startRun_seqX (s : State) (q : Nat) :
    ((s.startRun q).seqX q).pc = s.get F.seqEntryAddress q ∧ ((s.startRun q).seqX q).nextAt = s.launchAt q
    ∧ ((s.startRun q).seqX q).run = (s.seqX q).run + 1 ∧ ((s.startRun q).seqX q).levels = []
    ∧ ((s.startRun q).seqX q).stack = [] := by
  simp (disch := decide) [State.startRun, State.seqX, State.setSeqX, unitAt_putUnit, State.setSeqState, State.launchAt, State.nowFu,
    (State.srExit_within _ _).seqs, (State.dclkLaunch_within _ _ _).seqs, (State.unpark_within _ _).seqs]

theorem exec_seqStart (q : Nat) (src : Src) (s : State) : exec (.seqStart q src) s = .next (s.start q src).2 := rfl

/-- Settles O11: a start that stands alone in its tick acts exactly where nothing refuses it. -/
theorem startRunsTheSequencer : Obligations.StartRunsTheSequencer := by
  intro q src s h
  refine ⟨fun hr => .intro ((exec_seqStart ..).trans (by rw [State.start_refused h src hr])) rfl,
    fun hr => .intro ((exec_seqStart ..).trans (by rw [State.start_accepted h src hr])) ?_⟩
  obtain ⟨hs, hl, hc, hr, hf, hff⟩ := State.startRun_registers (s.note ⟨.seq q, 5, srcRank src, 1⟩) q
  obtain ⟨hpc, hn, hrun, hlev, hst⟩ := State.startRun_seqX (s.note ⟨.seq q, 5, srcRank src, 1⟩) q
  exact ⟨hs, hpc.trans (State.get_note ..), hn.trans (by simp [State.launchAt, State.nowFu]), hrun, hlev, hst,
    hl.trans (State.get_note ..),
    hc, hr, hf, hff⟩

/-! ### The other control actions (R72, R74, R117) -/

/-- A sequencer that is steered to a record keeps all but its fill engine and its lookahead. -/
theorem State.resteer_seqX (s : State) (q a : Nat) : ((s.resteer q a).seqX q).nextAt = (s.seqX q).nextAt
    ∧ ((s.resteer q a).seqX q).pc = (s.seqX q).pc := by
  simp [State.resteer, State.seqX, State.setSeqX, unitAt_putUnit]

theorem State.resumeRun_run (s : State) (q : Nat) : (s.resumeRun q).seqState q = (if (s.seqX q).hold.isSome then 2 else 1)
    ∧ ((s.resumeRun q).seqX q).nextAt = s.launchAt q ∧ ((s.resumeRun q).seqX q).pc = (s.seqX q).pc := by
  refine ⟨?_, (State.resteer_seqX _ _ _).1.trans ?_, (State.resteer_seqX _ _ _).2.trans ?_⟩
  · cases h : (s.seqX q).hold.isSome <;> simp (disch := decide) [State.resumeRun, h, State.seqState, State.setSeqState,
    (State.resteer_within _ _ _).get, (State.unpark_within _ _).get]
  · simp (disch := decide) [State.seqX, State.setSeqX, unitAt_putUnit, State.setSeqState, (State.unpark_within _ _).seqs]
  · simp (disch := decide) [State.seqX, State.setSeqX, unitAt_putUnit, State.setSeqState, (State.unpark_within _ _).seqs]

theorem State.resume_accepted {s : State} {q : Nat} (h : Alone s (.seq q)) (src : Src) (h4 : s.seqState q = 4) :
    s.resume q src = (0, (s.note ⟨.seq q, 5, srcRank src, 2⟩).resumeRun q) := by
  simp only [State.resume, State.judge_alone h, State.decideEvent_alone h]
  rw [if_neg (not_not_intro h4)]

/-- A stop action of a sequencer that runs, or holds, waits for its next peg point. -/
theorem State.requestStop_waits {s : State} {q : Nat} (h : Alone s (.seq q)) (hs : s.seqState q = 1 ∨ s.seqState q = 2)
    (reason : Nat) (src : Src) (tok : Option Token) :
    ∃ x, (x : SeqX).pend = (s.seqX q).pend ++ [⟨reason, s.ticks, tok⟩]
      ∧ ∃ e, s.requestStop q reason src tok = (s.note e).setSeqX q x := by
  have h0 : ¬(s.seqState q = 0) := by omega
  have h3 : ¬(s.seqState q = 3) := by omega
  have h4 : ¬(s.seqState q = 4) := by omega
  have hn (e : TickEvent) : (s.note e).seqState q = s.seqState q := State.get_note ..
  simp only [State.requestStop, State.decideEvent_alone h, hn, if_neg h0, if_neg h3, if_neg h4]
  by_cases hen : (s.seqX q).ending.isSome
  · exact ⟨_, rfl, ⟨.seq q, 2, srcRank src, _⟩, if_pos hen⟩
  · exact ⟨_, rfl, ⟨.seq q, 2, srcRank src, _⟩, if_neg hen⟩

/-- An abort of a PAUSED sequencer ends its run at the present boundary. -/
theorem State.requestStop_paused {s : State} {q : Nat} (h : Alone s (.seq q)) (h4 : s.seqState q = 4) (he : (s.seqX q).ending = none)
    (src : Src) : ∃ e, s.requestStop q 4 src none
      = ((s.note e).setSeqX q { (s.seqX q) with pend := [⟨4, s.ticks, none⟩] }).finishStop q ⟨4, false, s.nowFu, none⟩ := by
  have hn (e : TickEvent) : (s.note e).seqState q = s.seqState q := State.get_note ..
  have hx (e : TickEvent) : (s.note e).seqX q = s.seqX q := rfl
  refine ⟨⟨.seq q, 2, srcRank src, 1⟩, ?_⟩
  simp only [State.requestStop, State.decideEvent_alone h, hn, hx, h4, he]
  simp [State.nowFu]

/-- What ends a run, of which no action but pauses waits where it is to be PAUSED: STATE and STOP_REASON. -/
theorem State.finishStop_registers (s : State) (q : Nat) (e : Ending) (hp : e.paused = true → ((s.applyCommits q).seqX q).pend = []) :
    (s.finishStop q e).seqState q = (if e.paused then 4 else 0) ∧ (s.finishStop q e).get F.seqStatusStopReason q = e.reason % 16 := by
  obtain ⟨reason, paused, at0, fault⟩ := e
  unfold State.finishStop
  cases paused with
  | false =>
    rcases fault with _ | ⟨code, detail, a, c⟩ <;> simp (disch := decide) [State.seqState, State.setSeqState, State.get_ite,
      (State.post_within _ _ _ _).get, (State.flushLog_within _ _).get, (State.endPends_within _ _ _ _ _).get,
        (State.stopWindows_within _ _ _).get, (State.dropPath_within _ _).get, (State.dclkHalt_within _ _).get,
        (State.stopSites_within _ _).get]
  | true =>
    simp only [hp rfl]
    rcases fault with _ | ⟨code, detail, a, c⟩ <;> simp (disch := decide) [mostFinal, State.seqState, State.setSeqState, State.get_ite,
      (State.post_within _ _ _ _).get, (State.flushLog_within _ _).get, (State.endPends_within _ _ _ _ _).get,
        (State.resteer_within _ _ _).get]

/-- Settles O12: each action that stands alone in its tick acts, and what it does is read off its updates. -/
theorem sequencerControl : Obligations.SequencerControl := by
  refine ⟨fun q src s h h4 => ?_, fun q src s h hs => ?_, fun q src s h hs => ?_, fun q src s h h4 he => ?_, fun q src s h => ?_⟩
  · refine .intro (congrArg (fun r : Nat × State => Host.Outcome.next r.2) (State.resume_accepted h src h4)) ?_
    obtain ⟨hs, hn, hp⟩ := State.resumeRun_run (s.note ⟨.seq q, 5, srcRank src, 2⟩) q
    exact ⟨hs, hn.trans (by simp [State.launchAt, State.nowFu]), hp⟩
  · obtain ⟨x, hx, e, he⟩ := State.requestStop_waits h hs 3 src none
    refine .intro (congrArg Host.Outcome.next he) ⟨by simp [State.seqState], by simp [hx]⟩
  · obtain ⟨x, hx, e, he⟩ := State.requestStop_waits h hs 4 src none
    refine .intro (congrArg Host.Outcome.next he) ⟨by simp [State.seqState], by simp [hx]⟩
  · obtain ⟨e, hx⟩ := State.requestStop_paused h h4 he src
    obtain ⟨hs, hr⟩ := State.finishStop_registers ((s.note e).setSeqX q { (s.seqX q) with pend := [⟨4, s.ticks, none⟩] }) q
      ⟨4, false, s.nowFu, none⟩ (fun h => absurd h Bool.false_ne_true)
    exact .intro (congrArg Host.Outcome.next hx) ⟨hs, hr⟩
  · refine .intro (congrArg Host.Outcome.next (State.onObj_alone h ..)) ?_
    simp (disch := decide) [State.seqState]

/-! ### What ends by itself (R103, R112, R118) -/

theorem sequencerTimers_watchdog (q t0 : Nat) (s : State) (hw : (s.seqX q).watch = some t0)
    (hl : t0 + s.get F.seqPegWatchdogLimit q ≤ s.ticks) (hp : (s.seqX q).pend ≠ []) (he : (s.seqX q).ending = none) :
    Completes (.pegWatchdog q) s fun t => (t.seqX q).forced = some ((t0 + s.get F.seqPegWatchdogLimit q) * 8192) := by
  have hx : exec (.pegWatchdog q) s
      = .next (s.setSeqX q { (s.seqX q) with forced := some ((t0 + s.get F.seqPegWatchdogLimit q) * 8192) }) := by
    simp only [exec, execPegWatchdog, hw]
    rw [if_pos ⟨hl, hp, by rw [he]; rfl⟩]
  exact .intro hx (by simp)

/-- A local flag that is set reads 1. -/
theorem State.testBit_setLf (s : State) (q i : Nat) (hi : i < 16) : testBit ((s.setLf q i true).get F.seqLflagsLf q) i = true := by
  rw [State.setLf, State.get_set _ _ _ _ _ (by decide), Nat.min_eq_left (by omega), testBit_nat, Nat.testBit_mod_two_pow,
    ← testBit_nat,
    testBit_putBit, if_pos rfl]
  simp [hi]

/-- A hold whose TIMEOUT has passed, up to its flag. -/
def State.holdEnds (s : State) (q : Nat) (h : Hold) : State :=
  (s.setSeqX q { (s.seqX q) with hold := some { h with release := some s.ticks } }).hwSet F.seqStatusHoldTimeout q 0

theorem State.holdEnds_seqX (s : State) (q : Nat) (h : Hold) :
    ((s.holdEnds q h).seqX q).hold = some { h with release := some s.ticks } := by
  simp [State.holdEnds, State.seqX, State.setSeqX, unitAt_putUnit]

theorem State.seqX_of_seqs {s t : State} (h : t.seqs = s.seqs) (q : Nat) : t.seqX q = s.seqX q := by
  unfold State.seqX
  rw [h]

theorem sequencerTimers_hold (q : Nat) (h : Hold) (s : State) (hh : (s.seqX q).hold = some h) (h0 : h.timeout ≠ 0)
    (hl : tickAt h.since + h.timeout ≤ s.ticks) (hr : h.release = none) (hs : h.start = none)
    (hrel : h.raise = false ∨ s.releasedNow q = false) (hu : Unclear s F.seqStatusHoldTimeout q 0) :
    Completes (.holdTimeout q) s fun t => (t.seqX q).hold = some { h with release := some s.ticks }
      ∧ t.get F.seqStatusHoldTimeout q = 1
      ∧ ∀ i < 16, h.toFlag = some i → testBit (t.get F.seqLflagsLf q) i = true := by
  have hx : exec (.holdTimeout q) s = .next (match h.toFlag with
      | some i => (s.holdEnds q h).setLf q i true
      | none => s.holdEnds q h) := by
    simp only [exec, execHoldTimeout, hh]
    rw [if_pos ⟨h0, hl, by rw [hr]; rfl, by rw [hs]; rfl, hrel⟩]
    rfl
  have hset : (s.holdEnds q h).get F.seqStatusHoldTimeout q = 1 := by
    exact State.get_hwSet _ _ _ _ ((State.setSeqX_within ..).unclear_field hu (by decide) (by decide) rfl) (by decide) (by decide)
  refine .intro hx ?_
  split
  · next i hi =>
    refine ⟨(congrArg SeqX.hold (State.seqX_of_seqs (State.set_seqs ..) q)).trans (s.holdEnds_seqX q h), ?_, fun j hj he => ?_⟩
    · rw [State.setLf, State.get_set_reg _ _ _ _ _ _ _ _ (by decide) (by decide), hset]
    · rw [hi] at he
      obtain rfl := Option.some.inj he
      exact State.testBit_setLf _ _ _ hj
  · next hn => exact ⟨s.holdEnds_seqX q h, hset, fun i _ hi => by rw [hn] at hi; exact absurd hi (by simp)⟩

/-- A barrier that releases, up to the hold in it. -/
def State.barrierUsed (s : State) (q i : Nat) : State :=
  let b := s.bar q i
  let gen := s.get F.seqBarrierGen q i
  let loc := (List.range 4).foldl (fun l n =>
    if n ≠ q ∧ testBit (s.get F.seqBarrierLocal q i) n then putUnit 0 l n (unitAt 0 l n - 1) else l) b.loc
  ((s.setBar q i { own := b.own - 1, loc := loc, rem := putUnit 0 b.rem gen 0 }).set F.seqBarrierGen q i ((gen + 1) % 16)).showArrived q i

theorem State.barrierRelease_eq (s : State) (q i : Nat) : s.barrierRelease q i
    = match ((s.barrierUsed q i).seqX q).hold with
      | some h =>
        if h.raise = false ∧ h.bar = i ∧ h.release.isNone then
          (s.barrierUsed q i).setSeqX q { ((s.barrierUsed q i).seqX q) with hold := some { h with release := some (s.barrierUsed q i).ticks } }
        else s.barrierUsed q i
      | none => s.barrierUsed q i := rfl

theorem State.barrierUsed_seqX (s : State) (q i : Nat) : (s.barrierUsed q i).seqX q = s.seqX q := by
  simp -implicitDefEqProofs (disch := decide) [State.barrierUsed, State.seqX, State.setBar, (State.showArrived_within _ _ _).seqs]

theorem State.barrierUsed_ticks (s : State) (q i : Nat) : (s.barrierUsed q i).ticks = s.ticks := by
  simp -implicitDefEqProofs (disch := decide) [State.barrierUsed, State.setBar, (State.showArrived_within _ _ _).ticks]

theorem State.barrierUsed_gen (s : State) (q i : Nat) :
    (s.barrierUsed q i).get F.seqBarrierGen q i = (s.get F.seqBarrierGen q i + 1) % 16 := by
  simp (disch := decide) [State.barrierUsed, State.showArrived]

theorem State.barrierUsed_own (s : State) (q i : Nat) : ((s.barrierUsed q i).bar q i).own = (s.bar q i).own - 1 := by
  simp (disch := decide) [State.barrierUsed, State.bar, State.setBar, unitAt_putUnit, (State.showArrived_within _ _ _).bars]

theorem State.bar_setSeqX (s : State) (q : Nat) (x : SeqX) (n i : Nat) : (s.setSeqX q x).bar n i = s.bar n i := by
  unfold State.bar State.setSeqX
  rfl

theorem sequencerTimers_barrier (q i : Nat) (s : State) (hm : s.barrierMet q i = true) :
    Completes (.barrierRelease q i) s fun t => t.get F.seqBarrierGen q i = (s.get F.seqBarrierGen q i + 1) % 16
      ∧ (t.bar q i).own = (s.bar q i).own - 1
      ∧ ∀ h, (s.seqX q).hold = some h → h.raise = false → h.bar = i → h.release = none →
          (t.seqX q).hold = some { h with release := some s.ticks } := by
  refine .intro (congrArg Host.Outcome.next (if_pos hm)) ?_
  rw [State.barrierRelease_eq]
  refine ⟨?_, ?_, fun h hh hraise hbar hrel => ?_⟩
  · split
    · split
      · exact (State.get_setSeqX ..).trans (s.barrierUsed_gen q i)
      · exact s.barrierUsed_gen q i
    · exact s.barrierUsed_gen q i
  · split
    · split
      · rw [State.bar_setSeqX, s.barrierUsed_own q i]
      · exact s.barrierUsed_own q i
    · exact s.barrierUsed_own q i
  · simp [State.barrierUsed_seqX, State.barrierUsed_ticks, hh, hraise, hbar, hrel]

/-! ### The park boundary of a run that ends (R112) -/

/-- A channel that has nothing to drive and whose park instant, where it has one, has come. -/
def ParksNow (s : State) (c : Nat) : Prop :=
  (s.chan c).queue = [] ∧ ∀ p, (s.chan c).parkAt = some p → (s.chan c).parkInstant p ≤ s.nowFu

theorem State.chan_of_chans {s t : State} (h : t.chans = s.chans) (c : Nat) : t.chan c = s.chan c := by
  unfold State.chan
  rw [h]

theorem State.driveTo_chan (s : State) (c : Nat) (drv den : Bool) (t1 t2 c' : Nat) :
    (s.driveTo c drv den t1 t2).chan c' = if c' = c then { (s.chan c) with drv := drv, den := den } else s.chan c' := by
  have hu : (s.driveTo c drv den t1 t2).chans = (s.setChan c { (s.chan c) with drv := drv, den := den }).chans := by
    unfold State.driveTo
    simp only []
    split <;> split <;> rfl
  rw [State.chan_of_chans hu, State.chan_setChan]

/-- The park levels leave a channel's queue and park instant, and the other channels. -/
theorem State.parkLevels_chan (s : State) (c t c' : Nat) : ∃ drv den, (s.parkLevels c t).chan c'
    = if c' = c then { (s.chan c) with drv := drv, den := den } else s.chan c' := by
  unfold State.parkLevels
  simp only []
  split
  · exact ⟨_, _, State.driveTo_chan ..⟩
  · split
    · exact ⟨_, _, State.driveTo_chan ..⟩
    · split
      · exact ⟨_, _, State.driveTo_chan ..⟩
      · refine ⟨(s.chan c).drv, (s.chan c).den, ?_⟩
        split
        · next h => rw [h]
        · rfl

theorem State.abandonWindow_chan (s : State) (c c' : Nat) : ∃ win, (s.abandonWindow c).chan c'
    = if c' = c then { (s.chan c) with win := win } else s.chan c' := by
  unfold State.abandonWindow
  simp only []
  split
  · next h =>
    refine ⟨(s.chan c).win, ?_⟩
    split
    · next hc => rw [hc]
    · rfl
  · exact ⟨none, (State.chan_of_chans (State.count_chans ..) c').trans (State.chan_setChan ..)⟩

/-- A channel that parks has no park instant and keeps its queue; the others are as before. -/
theorem State.parkChan_chan (s : State) (c t c' : Nat) :
    ((s.parkChan c t).chan c').queue = (s.chan c').queue ∧ (c' = c → ((s.parkChan c t).chan c').parkAt = none)
    ∧ (c' ≠ c → (s.parkChan c t).chan c' = s.chan c') := by
  obtain ⟨drv, den, hp⟩ := (s.abandonWindow c).parkLevels_chan c t c'
  obtain ⟨drv2, den2, hq⟩ := (s.abandonWindow c).parkLevels_chan c t c
  obtain ⟨win, ha⟩ := s.abandonWindow_chan c c'
  unfold State.parkChan
  simp only [State.chan_setChan]
  by_cases h : c' = c
  · subst h
    simp only [if_true] at hp ha
    simp [hp, ha]
  · simp only [if_neg h] at hp ha
    simp [h, hp, ha]

theorem State.parkChan_nowFu (s : State) (c t : Nat) : (s.parkChan c t).nowFu = s.nowFu := by
  simp only [State.nowFu, (State.parkChan_within ..).ticks (by decide)]

/-- One channel of `parkDue`. -/
def State.parkOne (s : State) (c : Nat) : State :=
  match (s.chan c).parkAt with
  | some t => if (s.chan c).parkInstant t ≤ s.nowFu ∧ (s.chan c).queue = [] then s.parkChan c ((s.chan c).parkInstant t) else s
  | none => s

theorem State.parkDue_eq (s : State) (cs : List Nat) : s.parkDue cs = cs.foldl State.parkOne s := rfl

theorem State.parkOne_parks {s : State} {c : Nat} (h : ParksNow s c) : ((s.parkOne c).chan c).parkAt = none := by
  obtain ⟨hq, hp⟩ := h
  unfold State.parkOne
  split
  · next t ht =>
    rw [if_pos ⟨hp t ht, hq⟩]
    exact (State.parkChan_chan ..).2.1 rfl
  · next hn => exact hn

theorem State.parkOne_keeps (s : State) (c c' : Nat) : (s.parkOne c).nowFu = s.nowFu
    ∧ ((s.parkOne c).chan c' = s.chan c' ∨ ((s.parkOne c).chan c').queue = (s.chan c').queue ∧ ((s.parkOne c).chan c').parkAt = none) := by
  unfold State.parkOne
  split
  · next t ht =>
    split
    · refine ⟨State.parkChan_nowFu .., ?_⟩
      obtain ⟨hq, hs, hne⟩ := s.parkChan_chan c ((s.chan c).parkInstant t) c'
      by_cases h : c' = c
      · exact .inr ⟨hq, hs h⟩
      · exact .inl (hne h)
    · exact ⟨rfl, .inl rfl⟩
  · exact ⟨rfl, .inl rfl⟩

theorem State.parkOne_parksNow {s : State} {c c' : Nat} (h : ParksNow s c') : ParksNow (s.parkOne c) c' := by
  obtain ⟨hn, he | ⟨hq, hp⟩⟩ := s.parkOne_keeps c c'
  · unfold ParksNow
    rw [hn, he]
    exact h
  · exact ⟨hq.trans h.1, fun p h => absurd (hp.symm.trans h) (by simp)⟩

/-- The channels of a list that park now all park. -/
theorem State.parkDue_parks (s : State) (cs : List Nat) (h : ∀ c ∈ cs, ParksNow s c) (c : Nat)
    (hc : c ∈ cs ∨ (s.chan c).parkAt = none) : ((s.parkDue cs).chan c).parkAt = none := by
  rw [State.parkDue_eq]
  induction cs generalizing s with
  | nil => exact hc.resolve_left (by simp)
  | cons d cs ih =>
    refine ih (s.parkOne d) (fun c' h' => State.parkOne_parksNow (h c' (List.mem_cons_of_mem _ h'))) ?_
    by_cases hd : c = d
    · exact .inr (by rw [hd]; exact State.parkOne_parks (h d List.mem_cons_self))
    · rcases hc with hc | hc
      · exact .inl (List.mem_of_ne_of_mem hd hc)
      · refine .inr ?_
        obtain ⟨-, he | ⟨-, hp⟩⟩ := s.parkOne_keeps d c
        · rw [he, hc]
        · exact hp

/-- With no run of a site open nothing is settled. -/
theorem State.settleSites_closed {s : State} (h : ∀ r ∈ s.site.runs, r.stopCycle ≠ none) (q c n endAt : Nat) :
    s.settleSites q c n endAt = s := by
  have one (k : Nat) : s.settleSite q c n endAt k = s := by
    unfold State.settleSite
    split
    · next r hr =>
      rw [if_neg]
      rintro ⟨hn, -⟩
      exact h r (List.mem_of_find?_eq_some hr) (Option.isNone_iff_eq_none.1 hn)
    · rfl
  unfold State.settleSites
  induction s.sitesOf q with
  | nil => rfl
  | cons k ks ih => rw [List.foldl_cons, one, ih]

/-- The channels of a sequencer's sites are channels of the device. -/
theorem State.siteChannels_lt (s : State) (q : Nat) :
    ∀ c ∈ ((s.sitesOf q).flatMap fun k => ((s.siteMap k).mapped 128).map (·.2)).eraseDups, c < 128 := by
  intro c hc
  obtain ⟨k, -, hk⟩ := List.mem_flatMap.1 (List.mem_eraseDups.1 hc)
  obtain ⟨e, he, rfl⟩ := List.mem_map.1 hk
  obtain ⟨p, -, hp⟩ := List.mem_filterMap.1 he
  obtain ⟨d, hd, rfl⟩ := Option.map_eq_some_iff.1 hp
  unfold SiteMap.chan at hd
  split at hd
  · exact Option.some.inj hd ▸ Nat.mod_lt _ (by decide)
  · exact absurd hd (by simp)

/-- Table commits that are applied leave the actions that wait. -/
theorem State.applyCommits_pend (s : State) (q : Nat) : ((s.applyCommits q).seqX q).pend = (s.seqX q).pend := by
  unfold State.applyCommits
  simp only []
  split
  · rfl
  · rw [State.seqX_of_seqs ((State.commitNow_within ..).seqs (by decide)), State.seqX_setSeqX, if_pos rfl]

/-- The channels that park with a sequencer. -/
def State.siteChannels (s : State) (q : Nat) : List Nat :=
  ((s.sitesOf q).flatMap fun k => ((s.siteMap k).mapped 128).map (·.2)).eraseDups

theorem State.tryPark_eq (s : State) (q : Nat) (h : ∀ c n endAt, s.settleSites q c n endAt = s) : s.tryPark q
    = match (s.seqX q).ending with
      | some e =>
        if e.endAt ≤ (s.parkDue (s.siteChannels q)).nowFu
            ∧ ((s.siteChannels q).all fun c => ((s.parkDue (s.siteChannels q)).chan c).parkAt.isNone) then
          (s.parkDue (s.siteChannels q)).finishStop q e
        else s.parkDue (s.siteChannels q)
      | none => s.parkDue (s.siteChannels q) := by
  unfold State.tryPark
  simp only [h, ite_self]
  rfl

theorem sequencerTimers_park (q : Nat) (e : Ending) (s : State) (he : (s.seqX q).ending = some e) (hend : e.endAt ≤ s.nowFu)
    (hp : (s.seqX q).pend = []) (hr : ∀ r ∈ s.site.runs, r.stopCycle ≠ none) (hc : ∀ c < 128, ParksNow s c) :
    Completes (.park q) s fun t => t.seqState q = (if e.paused then 4 else 0) ∧ t.get F.seqStatusStopReason q = e.reason % 16 := by
  have hw := State.parkDue_within s (s.siteChannels q)
  have hnow : (s.parkDue (s.siteChannels q)).nowFu = s.nowFu := by
    unfold State.nowFu
    rw [hw.ticks (by decide)]
  have hall : ∀ c ∈ s.siteChannels q, ((s.parkDue (s.siteChannels q)).chan c).parkAt = none := fun c h =>
    s.parkDue_parks _ (fun d hd => hc d (s.siteChannels_lt q d hd)) c (.inl h)
  have hx : exec (.park q) s = .next ((s.parkDue (s.siteChannels q)).finishStop q e) := by
    show Host.Outcome.next (s.tryPark q) = _
    rw [State.tryPark_eq s q fun c n endAt => State.settleSites_closed hr q c n endAt, he]
    simp only []
    exact congrArg Host.Outcome.next (if_pos ⟨by rw [hnow]; exact hend,
      List.all_eq_true.2 fun c h => Option.isNone_iff_eq_none.2 (hall c h)⟩)
  refine .intro hx (State.finishStop_registers _ _ _ fun _ => ?_)
  rw [State.applyCommits_pend, State.seqX_of_seqs (hw.seqs (by decide)), hp]

theorem sequencerTimers : SequencerTimers :=
  ⟨sequencerTimers_watchdog, sequencerTimers_hold, sequencerTimers_barrier, sequencerTimers_park⟩

/-! ### Raisings that fire (R262) -/

/-- Whether a start is refused follows from registers. -/
theorem Only.startRefusal {N : Nat} {s t : State} (h : Only N s t) (h1 : N.testBit RegName.seqStatus.ctorIdx = false)
    (h2 : N.testBit RegName.globalBaymap.ctorIdx = false) (h3 : N.testBit RegName.calStatus.ctorIdx = false)
    (h4 : N.testBit RegName.rasStatus.ctorIdx = false) (h5 : N.testBit RegName.clkStatus.ctorIdx = false) (q : Nat) :
    t.startRefusal q = s.startRefusal q := by
  have hb : t.bayBusy = s.bayBusy := by
    funext b
    simp only [State.bayBusy, State.bayResetting, h.get F.calStatusBusy 0 0 h3, h.get F.rasStatusBayResetting 0 0 h4]
  have ho : t.bayOf = s.bayOf := by
    funext b
    simp only [State.bayOf, h.get F.globalBaymapAssigned 0 0 h2, h.get F.globalBaymapSeqsel 0 0 h2]
  unfold State.startRefusal State.baysOf State.seqState
  rw [hb, ho, h.get F.seqStatusState q 0 h1, h.get F.seqStatusFault q 0 h1, h.bit F.clkStatusRefLost 0 0 h5]

/-- A raising launches a sequencer that is STOPPED, and that nothing refuses, with a start. -/
theorem State.launch_starts {s : State} {q : Nat} (h : Alone s (.seq q)) (hb : s.seqBefore q = 0) (hr : s.startRefusal q = 0)
    (he : (s.seqX q).ending = none) : s.launch q = (0, (s.note ⟨.seq q, 5, srcRank .raising, 1⟩).startRun q) := by
  have h0 : s.seqState q = 0 := by
    by_contra h0
    rw [State.startRefusal, if_pos h0] at hr
    exact absurd hr (by decide)
  simp only [State.launch, hb, he, h0, State.judge_alone h, State.start_accepted h .raising hr]
  rfl

/-- What a raising does to the sequencers it names, one after another. -/
theorem State.launchAll_state (s : State) (mask : Nat) :
    (s.launchAll mask).2 = (List.range 4).foldl (fun (t : State) q => if testBit mask q then (t.launch q).2 else t) s := by
  unfold State.launchAll
  generalize (0 : Nat) = n
  induction List.range 4 generalizing s n with
  | nil => rfl
  | cons q l ih =>
    rw [List.foldl_cons, List.foldl_cons]
    split
    · exact ih ..
    · exact ih ..

/-- A raising of one sequencer launches that one. -/
theorem State.launchAll_one (s : State) {q : Nat} (hq : q < 4) : (s.launchAll (2 ^ q)).2 = (s.launch q).2 := by
  rw [State.launchAll_state]
  interval_cases q <;> simp [List.range_succ, testBit]

/-- The state in which a raising launches. -/
def State.raiseFreed (s : State) (e : Nat) : State :=
  ((s.note ⟨.raise e, 5, srcRank .hw, 1⟩).set F.timeRaiseNsScheduled 0 e 0).updatePending

theorem execRaiseFire_alone {s : State} {e : Nat} (hs : s.bit F.timeRaiseNsScheduled 0 e = true) (hi : s.raiseInstant e ≤ s.station)
    (ha : Alone s (.raise e)) : exec (.raiseFire e) s
      = .next (((s.raiseFreed e).launchAll (s.get F.timeRaiseNsSeqmask 0 e)).2.post 0x0603 e
        (s.get F.timeRaiseSecTag 0 e + ((s.raiseFreed e).launchAll (s.get F.timeRaiseNsSeqmask 0 e)).1 * 2 ^ 32)) := by
  refine (if_pos ⟨hs, hi⟩).trans ?_
  rw [State.onObj_alone ha, State.get_note, State.get_note]
  rfl

theorem State.raiseFreed_within (s : State) (e : Nat) : Only 0x4000000000000000000000000000000000000000000000000001000800000 s (s.raiseFreed e) :=
  (State.updatePending_only (State.set_only _ _ _ _ (State.note_only _ (Only.refl _ s) (by decide)) (by decide)) (by decide))

theorem State.raiseFreed_alone {s : State} {q : Nat} (e : Nat) (h : Alone s (.seq q)) : Alone (s.raiseFreed e) (.seq q) := by
  have ho := s.raiseFreed_within e
  obtain ⟨hd, hw, hr⟩ := h
  refine ⟨?_, (ho.waiting_quiet (noAct_seq q) (by decide)).trans hw, (ho.inReset (by decide) (by decide) _).trans hr⟩
  have hn : Only 0x1000800000 (s.note ⟨.raise e, 5, srcRank .hw, 1⟩) (s.raiseFreed e) :=
    State.updatePending_only (State.set_only _ _ _ _ (Only.refl _ _) (by decide)) (by decide)
  exact (State.decider_congr (hn.events (by decide)) _).trans ((State.decider_note_ne _ Obj.noConfusion).trans hd)

theorem raiseFires_free (e : Nat) (s : State) (hs : s.bit F.timeRaiseNsScheduled 0 e = true) (hi : s.raiseInstant e ≤ s.station)
    (ha : Alone s (.raise e)) : Completes (.raiseFire e) s fun t => t.get F.timeRaiseNsScheduled 0 e = 0 := by
  refine .intro (execRaiseFire_alone hs hi ha) ?_
  rw [(State.post_within ..).get _ _ _ (by decide), (State.launchAll_within ..).get _ _ _ (by decide)]
  simp -implicitDefEqProofs (disch := decide) [State.raiseFreed, (State.updatePending_within _).get]

theorem raiseFires_launch (e q : Nat) (s : State) (hs : s.bit F.timeRaiseNsScheduled 0 e = true) (hi : s.raiseInstant e ≤ s.station)
    (ha : Alone s (.raise e)) (hq : q < 4) (hm : s.get F.timeRaiseNsSeqmask 0 e = 2 ^ q) (hqa : Alone s (.seq q)) (hb : s.seqBefore q = 0)
    (hr : s.startRefusal q = 0) (he : (s.seqX q).ending = none) :
    Completes (.raiseFire e) s fun t => t.seqState q = 1 ∧ (t.seqX q).nextAt = s.launchAt q := by
  have ho := s.raiseFreed_within e
  have hrun := State.launch_starts (State.raiseFreed_alone e hqa)
    ((State.seqBefore_of_startOfTick (ho.startOfTick (by decide)) q).trans hb)
    ((ho.startRefusal (by decide) (by decide) (by decide) (by decide) (by decide) q).trans hr)
    (by rw [State.seqX_of_seqs (ho.seqs (by decide)), he])
  refine .intro (execRaiseFire_alone hs hi ha) ?_
  rw [State.seqX_of_seqs ((State.post_within ..).seqs (by decide)), State.seqState, (State.post_within ..).get _ _ _ (by decide), hm,
    State.launchAll_one _ hq, hrun]
  refine ⟨(State.startRun_registers _ q).1, (State.startRun_seqX _ q).2.1.trans ?_⟩
  unfold State.launchAt State.nowFu
  rw [State.get_note, State.note_ticks, ho.get F.seqLaunchDelayDelay q 0 (by decide), ho.ticks (by decide)]

/-- Settles O13: the hold's and the run's ends act on what they find, and a raising reaches its sequencer with a start. -/
theorem timersAndRaisings : Obligations.TimersAndRaisings := ⟨sequencerTimers, raiseFires_free, raiseFires_launch⟩

end Sys2Proof.Machine
end

