-- ==== Sys2Proof/Proofs/Records.lean ====
section
/-!
PROOFS. Records.lean: what a record that is decoded now does: its issue (R65 to R69, R131),
  and on top of that the effect of its opcode on
levels, stack, flags, holds and bays (R75 to R111); from these O14 to O17.
-/
namespace Sys2Proof.Machine

/-! ### A record that is decoded now -/

/-- A record's effect comes on top of its issue. -/
theorem State.go_eq (s : State) (q a : Nat) (words : List Nat) (c : Nat) (later : Bool) (eff : Effect) :
    s.go q a words c later eff = eff a (words.getD 0 0) c (s.go q a words c later noEffect) := rfl

/-- A record taken from the buffers is issued, and takes its effect. -/
theorem State.decodeAt_eq {u t : State} {q a op c : Nat} {words : List Nat} (eff : Effect) (hw : words ≠ []) (hop : vcwOp (words.getD 0 0) = op)
   (hbefore :  u.beforeRecord q (fun v => v.startOf q (vcwTset (words.getD 0 0))) = (false, t))
   (hc : c = t.startOf q (vcwTset (words.getD 0 0)))
   (hf : t.recordFault q (words.getD 0 0) c = none) : u.decodeAt q a op words eff = eff a (words.getD 0 0) c (issued t q a c words) := by
  unfold State.decodeAt
  dsimp only
  rw [hbefore]
  subst hc
  dsimp only
  rw [if_neg hw, hf]
  dsimp only
  rw [if_pos hop, State.go_eq]
  rfl
/-- With no hold in force the next record is the one at the present address. -/
theorem State.decodeNext_eq {s u : State} {q op : Nat} {words : List Nat} (eff : Effect) (hhold : (s.seqX q).hold = none)
    (hcross : crosses (s.seqX q).pc (s.recWords q) = false) (hop : vcwOp (words.getD 0 0) = op)
    (htake : (s.setSeqX q { (s.seqX q) with hold := none }).takeRecord q (s.seqX q).pc (s.recWords q) = some (words, u)) :
    s.decodeNext q op eff = u.decodeAt q (s.seqX q).pc op words eff := by
  unfold State.decodeNext
  dsimp only
  rw [hhold, hcross, if_neg (by decide)]
  dsimp only
  simp only [Option.getD_none, Option.isSome_none, Bool.false_eq_true, if_false]
  dsimp only at htake
  rw [htake]
  dsimp only
  rw [if_neg]
  rintro ⟨-, h, -⟩
  exact h hop

/-- What is decoded now is issued, and takes its effect. -/
theorem DecodesNow.record {s t : State} {q op c : Nat} {words : List Nat} (h : DecodesNow s q op words c t) (eff : Effect) :
    s.record q op eff = eff (s.seqX q).pc (words.getD 0 0) c (issued t q (s.seqX q).pc c words) := by
  obtain ⟨hdec, hrep, hhold, hcross, hw, hop, u, htake, hbefore, hc, hfault⟩ := h
  rw [← State.decodeAt_eq eff hw hop hbefore hc hfault, ← State.decodeNext_eq eff hhold hcross hop htake]
  unfold State.record
  dsimp only
  rw [hdec, hrep, hhold, if_neg (by decide), if_neg (by decide)]

/-! ### The issue of a record (R66, R69, R131) -/

theorem State.tsetAt_of {s t : State} {q : Nat} (hp : (t.seqX q).pegs = (s.seqX q).pegs) (hs : t.stores = s.stores)
    (hd : t.get F.seqTsDirtyDirty q = s.get F.seqTsDirtyDirty q) (hm : t.get F.seqCtrlMode q = s.get F.seqCtrlMode q) (n at_ : Nat) :
    t.tsetAt q n at_ = s.tsetAt q n at_ := by
  unfold State.tsetAt State.tset State.store
  rw [hp, hs, hd, hm]

/-- What a record issues from is as before once the pass and the stops of sites are seen to. -/
theorem State.openPass_seqX (s : State) (q : Nat) : ((s.openPass q).seqX q).pegs = (s.seqX q).pegs
    ∧ ((s.openPass q).seqX q).levels = (s.seqX q).levels ∧ ((s.openPass q).seqX q).stack = (s.seqX q).stack
    ∧ ((s.openPass q).seqX q).rep = (s.seqX q).rep ∧ ((s.openPass q).seqX q).hold = (s.seqX q).hold := by
  unfold State.openPass
  dsimp only
  split
  · simp
  · exact ⟨rfl, rfl, rfl, rfl, rfl⟩

theorem State.issue_seqX (s : State) (q a w : Nat) (words : List Nat) (c : Nat) (later : Bool) :
    ((s.issue q a w words c later).seqX q).period = some (s.tsetAt q (vcwTset w) c).period
    ∧ ((s.issue q a w words c later).seqX q).lastEnd = c + vectors (s.get F.seqCtrlMode q) * (s.tsetAt q (vcwTset w) c).period
    ∧ ((s.issue q a w words c later).seqX q).levels = (s.seqX q).levels
    ∧ ((s.issue q a w words c later).seqX q).stack = (s.seqX q).stack
    ∧ ((s.issue q a w words c later).seqX q).rep = (s.seqX q).rep
    ∧ ((s.issue q a w words c later).seqX q).hold = (s.seqX q).hold := by
  simp [State.issue, State.seqX, State.setSeqX, unitAt_putUnit]

theorem State.issue_registers (s : State) (q a w : Nat) (words : List Nat) (c : Nat) (later : Bool) :
    (s.issue q a w words c later).get F.seqPositionPc q = a % 2 ^ F.seqPositionPc.width
    ∧ (s.issue q a w words c later).get F.seqCycleCount q
      = (s.get F.seqCycleCount q + vectors (s.get F.seqCtrlMode q)) % 2 ^ F.seqCycleCount.width := by
  simp (disch := decide) [State.issue, State.cycle]

/-- The page that a record reaches leaves the run as it is. -/
theorem State.reachPage_seqX (s : State) (q a : Nat) : ((s.reachPage q a).seqX q).pc = (s.seqX q).pc
    ∧ ((s.reachPage q a).seqX q).levels = (s.seqX q).levels ∧ ((s.reachPage q a).seqX q).stack = (s.seqX q).stack
    ∧ ((s.reachPage q a).seqX q).period = (s.seqX q).period ∧ ((s.reachPage q a).seqX q).lastEnd = (s.seqX q).lastEnd
    ∧ ((s.reachPage q a).seqX q).rep = (s.seqX q).rep ∧ ((s.reachPage q a).seqX q).hold = (s.seqX q).hold := by
  unfold State.reachPage
  dsimp only
  split <;> simp

/-- The state in which the record is issued: sites are stopped, and a pass begins. -/
def readyState (t : State) (q c : Nat) : State := (t.gfStops q c).openPass q

theorem readyState_within (t : State) (q c : Nat) : Only 0x404000004000000000000000000000000000000000000000000000000000000000 t (readyState t q c) :=
  ((State.gfStops_within t q c).mono (by decide)).step (State.openPass_within _ q) (by decide)

theorem readyState_seqX (t : State) (q c : Nat) : ((readyState t q c).seqX q).pegs = (t.seqX q).pegs
    ∧ ((readyState t q c).seqX q).levels = (t.seqX q).levels ∧ ((readyState t q c).seqX q).stack = (t.seqX q).stack
    ∧ ((readyState t q c).seqX q).rep = (t.seqX q).rep ∧ ((readyState t q c).seqX q).hold = (t.seqX q).hold := by
  have h := (t.gfStops q c).openPass_seqX q
  rwa [State.seqX_of_seqs (s := t) (t := t.gfStops q c) ((State.gfStops_within ..).seqs (by decide))] at h

theorem readyState_tsetAt (t : State) (q c n at_ : Nat) : (readyState t q c).tsetAt q n at_ = t.tsetAt q n at_ :=
  have h := readyState_within t q c
  State.tsetAt_of (readyState_seqX t q c).1 (h.stores (by decide)) (h.get _ _ _ (by decide)) (h.get _ _ _ (by decide)) n at_

/-- The record issued, before the page that it reaches. -/
def issuedAt (t : State) (q a c : Nat) (words : List Nat) : State :=
  let u := (readyState t q c).issue q a (words.getD 0 0) words c false
  (u.setSeqX q { (u.seqX q) with pc := a + words.length }).set F.seqStatusState q 0 1

theorem issued_eq (t : State) (q a c : Nat) (words : List Nat) : issued t q a c words = (issuedAt t q a c words).reachPage q a := by
  unfold issued State.go issuedAt readyState noEffect
  rfl

theorem issuedAt_within (t : State) (q a c : Nat) (words : List Nat) : Only 0x404000004000800000019000000000000000000000000000000000000000000000 t (issuedAt t q a c words) := by
  unfold issuedAt
  exact State.set_only _ _ _ _ ((((readyState_within t q c).mono (by decide)).step (State.issue_within ..) (by decide)).step
    (State.setSeqX_within ..) (by decide)) (by decide)

theorem issuedAt_seqX (t : State) (q a c : Nat) (words : List Nat) : (issuedAt t q a c words).seqX q
    = { ((readyState t q c).issue q a (words.getD 0 0) words c false).seqX q with pc := a + words.length } := by
  unfold issuedAt
  dsimp only
  rw [State.seqX_of_seqs (State.set_seqs ..), State.seqX_setSeqX, if_pos rfl]

/-- Settles O14: the issue writes its fields, and the effect that follows it is none. -/
theorem recordIsIssued : Obligations.RecordIsIssued := by
  intro q a c words t v hv
  obtain ⟨hpc, hlev, hst, hper, hend, -, -⟩ := (issuedAt t q a c words).reachPage_seqX q a
  obtain ⟨iper, iend, ilev, ist, -, -⟩ := (readyState t q c).issue_seqX q a (words.getD 0 0) words c false
  obtain ⟨ipos, icyc⟩ := (readyState t q c).issue_registers q a (words.getD 0 0) words c false
  obtain ⟨-, rlev, rst, -, -⟩ := readyState_seqX t q c
  have hr := readyState_within t q c
  have hw := (issuedAt t q a c words).reachPage_within q a
  have hx := issuedAt_seqX t q a c words
  rw [readyState_tsetAt] at iper iend
  rw [hr.get _ _ _ (by decide)] at iend
  rw [hr.get F.seqCycleCount _ _ (by decide), hr.get F.seqCtrlMode _ _ (by decide)] at icyc
  rw [hv, issued_eq, State.seqState, hw.get _ _ _ (by decide), hw.get F.seqPositionPc _ _ (by decide),
    hw.get F.seqCycleCount _ _ (by decide),
    hpc, hlev, hst, hper, hend, hx]
  refine ⟨?_, ?_, ?_, rfl, ilev.trans rlev, ist.trans rst, iper, iend⟩
  · simp (disch := decide) [issuedAt]
  · rw [← ipos]
    simp (disch := decide) [issuedAt]
  · rw [← icyc]
    simp (disch := decide) [issuedAt]

/-! ### What the decode leaves of the run -/

/-- The count of executions, the hold and the size of the records of a sequencer are as before. -/
structure SameHold (q : Nat) (s t : State) : Prop where
  rep : (t.seqX q).rep = (s.seqX q).rep
  hold : (t.seqX q).hold = (s.seqX q).hold
  recWords : t.recWords q = s.recWords q

theorem SameHold.refl (q : Nat) (s : State) : SameHold q s s := ⟨rfl, rfl, rfl⟩

theorem SameHold.trans {q : Nat} {s t u : State} (h : SameHold q s t) (g : SameHold q t u) : SameHold q s u :=
  ⟨g.rep.trans h.rep, g.hold.trans h.hold, g.recWords.trans h.recWords⟩

theorem Only.recWords {N : Nat} {s t : State} (h : Only N s t) (hN : N.testBit RegName.seqCtrl.ctorIdx = false) (q : Nat) :
    t.recWords q = s.recWords q := by
  unfold State.recWords
  rw [h.get F.seqCtrlMode q 0 hN, h.get F.seqCtrlWidth q 0 hN]

theorem Only.sameHold {N : Nat} {s t : State} (h : Only N s t) (hN : N.testBit RegName.seqCtrl.ctorIdx = false)
    (hs : N.testBit 254 = false) (q : Nat) : SameHold q s t :=
  ⟨by rw [State.seqX_of_seqs (h.seqs hs)], by rw [State.seqX_of_seqs (h.seqs hs)], h.recWords hN q⟩

theorem sameHold_setSeqX (s : State) (q : Nat) (x : SeqX) (hr : x.rep = (s.seqX q).rep) (hh : x.hold = (s.seqX q).hold) :
    SameHold q s (s.setSeqX q x) := by
  refine ⟨?_, ?_, (State.setSeqX_within s q x).recWords (by decide) q⟩
  · rw [State.seqX_setSeqX, if_pos rfl, hr]
  · rw [State.seqX_setSeqX, if_pos rfl, hh]

theorem State.resteer_sameHold (s : State) (q a : Nat) : SameHold q s (s.resteer q a) := by
  refine ⟨?_, ?_, (State.resteer_within s q a).recWords (by decide) q⟩
  · simp [State.resteer, State.seqX, State.setSeqX, unitAt_putUnit]
  · simp [State.resteer, State.seqX, State.setSeqX, unitAt_putUnit]

theorem State.pegCommit_sameHold (s : State) (q : Nat) (toks : List (Option Token)) : SameHold q s (s.pegCommit q toks) := by
  unfold State.pegCommit
  dsimp only
  split
  · exact .refl q s
  · split
    · exact (State.commitNow_within ..).sameHold (by decide) (by decide) q
    · exact sameHold_setSeqX _ _ _ rfl rfl

theorem State.takeRecord_sameHold {s u : State} {q a n : Nat} {words : List Nat} (h : s.takeRecord q a n = some (words, u)) :
    SameHold q s u := by
  have other {x : SeqX} (h : State.takeRecord.other s q a n x = some (words, u)) : SameHold q s u := by
    unfold State.takeRecord.other at h
    split at h
    · obtain ⟨-, rfl⟩ := Prod.mk.inj (Option.some.inj h)
      exact (s.resteer_sameHold q a).trans (sameHold_setSeqX _ _ _ rfl rfl)
    · split at h
      · obtain ⟨-, rfl⟩ := Prod.mk.inj (Option.some.inj h)
        refine SameHold.trans ?_ (sameHold_setSeqX _ _ _ rfl rfl)
        refine SameHold.trans ?_ ((State.count_only _ _ _ _ _ (Only.refl _ _) (by decide)).sameHold (N := 0x4000020000000000000000000000000000000000000000000000000001000) (by decide) (by decide) q)
        split
        · exact .refl q s
        · exact s.resteer_sameHold q a
      · exact absurd h (by simp)
  unfold State.takeRecord at h
  dsimp only at h
  split at h
  · split at h
    · obtain ⟨-, rfl⟩ := Prod.mk.inj (Option.some.inj h)
      exact sameHold_setSeqX _ _ _ rfl rfl
    · exact other h
  · exact other h

/-- What a peg point applies before the next record. -/
def State.pegApplied (s : State) (q dec : Nat) : State :=
  if (s.seqX q).peg then
    (s.setSeqX q { (s.seqX q) with commits := (s.seqX q).commits.filter fun e => decide (dec < e.1 * 8192) }).pegCommit q
      (((s.seqX q).commits.filter fun e => decide (e.1 * 8192 ≤ dec)).map (·.2))
  else s

/-- What comes before a record that is decoded: the commits of the peg point. -/
theorem State.beforeRecord_goes {s t : State} {q : Nat} {start : State → Nat} (h : s.beforeRecord q start = (false, t)) :
    t = s.pegApplied q (start s - 65536) := by
  unfold State.beforeRecord at h
  dsimp only at h
  rw [← State.pegApplied.eq_1] at h
  split at h
  · exact absurd (congrArg Prod.fst h) (by simp)
  · split at h
    · exact absurd (congrArg Prod.fst h) (by simp)
    · split at h
      · exact absurd (congrArg Prod.fst h) (by simp)
      · exact (congrArg Prod.snd h).symm

theorem State.beforeRecord_sameHold {s t : State} {q : Nat} {start : State → Nat} (h : s.beforeRecord q start = (false, t)) :
    SameHold q s t := by
  rw [State.beforeRecord_goes h, State.pegApplied]
  split
  · refine SameHold.trans ?_ (State.pegCommit_sameHold ..)
    exact sameHold_setSeqX _ _ _ rfl rfl
  · exact .refl q s

/-- The hold and the count of executions in progress are those with which the record was decoded. -/
theorem issued_sameHold (t : State) (q a c : Nat) (words : List Nat) : SameHold q t (issued t q a c words) := by
  obtain ⟨-, -, -, -, -, hrep, hhold⟩ := (issuedAt t q a c words).reachPage_seqX q a
  obtain ⟨-, -, -, -, irep, ihold⟩ := (readyState t q c).issue_seqX q a (words.getD 0 0) words c false
  obtain ⟨-, -, -, rrep, rhold⟩ := readyState_seqX t q c
  have hx := issuedAt_seqX t q a c words
  have h1 := (issuedAt_within t q a c words).step (State.reachPage_within _ q a) (by decide)
  rw [← issued_eq] at h1
  refine ⟨?_, ?_, h1.recWords (by decide) q⟩
  · rw [issued_eq, hrep, hx]
    exact irep.trans rrep
  · rw [issued_eq, hhold, hx]
    exact ihold.trans rhold

/-- A record that is decoded now is issued with no hold, and with no execution to come. -/
theorem DecodesNow.issued_hold {s t : State} {q op c : Nat} {words : List Nat} (h : DecodesNow s q op words c t) (a : Nat) :
    ((issued t q a c words).seqX q).rep = 0 ∧ ((issued t q a c words).seqX q).hold = none
    ∧ (issued t q a c words).recWords q = s.recWords q := by
  obtain ⟨-, hrep, hhold, -, -, -, u, htake, hbefore, -, -⟩ := h
  obtain ⟨h1, h2, h3⟩ := ((sameHold_setSeqX s q { (s.seqX q) with hold := none } rfl hhold.symm).trans
    (State.takeRecord_sameHold htake)).trans ((State.beforeRecord_sameHold hbefore).trans (issued_sameHold t q a c words))
  exact ⟨h1.trans hrep, h2.trans hhold, h3⟩

/-! ### Flow (R68, R75 to R83) -/

theorem State.setLevels_seqX (s : State) (q : Nat) (l : List Level) : ((s.setLevels q l).seqX q).levels = l
    ∧ ((s.setLevels q l).seqX q).pc = (s.seqX q).pc := by
  simp [State.setLevels, State.seqX, State.setSeqX, unitAt_putUnit]

theorem State.goTo_seqX (s : State) (q a : Nat) : ((s.goTo q a).seqX q).pc = a
    ∧ ((s.goTo q a).seqX q).levels = (s.seqX q).levels := by
  simp [State.goTo, State.seqX, State.setSeqX, unitAt_putUnit]

theorem State.jump_seqX (s : State) (q w : Nat) : ((s.jump q w).seqX q).pc = vcwTarget w
    ∧ ((s.jump q w).seqX q).levels = (s.seqX q).levels.drop (vcwPop w) := by
  unfold State.jump
  rw [(State.goTo_seqX ..).1, (State.goTo_seqX ..).2, (State.setLevels_seqX ..).1]
  exact ⟨rfl, rfl⟩

theorem issued_pc (t : State) (q a c : Nat) (words : List Nat) : ((issued t q a c words).seqX q).pc = a + words.length :=
  (recordIsIssued q a c words t _ rfl).2.2.2.1

theorem DecodesNow.completes {s t : State} {q op c : Nat} {words : List Nat} {i : Instr} {eff : Effect} {P : State → Prop}
    (h : DecodesNow s q op words c t) (hx : exec i s = .next (s.record q op eff))
    (hp : P (eff (s.seqX q).pc (words.getD 0 0) c (issued t q (s.seqX q).pc c words))) : Completes i s P :=
  .intro (hx.trans (congrArg Host.Outcome.next (DecodesNow.record h eff))) hp

section
variable (q : Nat) (s : State)

theorem exec_nopRec : exec (.nopRec q) s = .next (s.record q 0x00 noEffect) := rfl
theorem exec_loopRec : exec (.loopRec q) s = .next (s.record q 0x01 (loopEffect q)) := rfl
theorem exec_endloop : exec (.endloop q) s = .next (s.record q 0x02 (endLoopEffect q)) := rfl
theorem exec_repeatRec : exec (.repeatRec q) s = .next (s.record q 0x03 (repeatEffect q)) := rfl
theorem exec_callRec : exec (.callRec q) s = .next (s.record q 0x04 (callEffect q)) := rfl
theorem exec_ret : exec (.ret q) s = .next (s.record q 0x05 (retEffect q)) := rfl
theorem exec_jump : exec (.jump q) s = .next (s.record q 0x06 (fun _ w _ t => t.jump q w)) := rfl
theorem exec_jumpif : exec (.jumpif q) s = .next (s.record q 0x07 (jumpIfEffect q)) := rfl
theorem exec_matchRec : exec (.matchRec q) s = .next (s.record q 0x08 (matchEffect q)) := rfl
theorem exec_flagset : exec (.flagset q) s = .next (s.record q 0x09 (flagSetEffect q)) := rfl
theorem exec_flagclr : exec (.flagclr q) s = .next (s.record q 0x0A (flagClrEffect q)) := rfl
theorem exec_waitraise : exec (.waitraise q) s = .next (s.record q 0x0B (waitRaiseEffect q)) := rfl
theorem exec_barrier : exec (.barrier q) s = .next (s.record q 0x0C (barrierEffect q)) := rfl
theorem exec_trigger : exec (.trigger q) s = .next (s.record q 0x0D (triggerEffect q)) := rfl
theorem exec_measure : exec (.measure q) s = .next (s.record q 0x0E (measureEffect q)) := rfl
theorem exec_timarm : exec (.timarm q) s = .next (s.record q 0x0F (timArmEffect q)) := rfl
theorem exec_feapply : exec (.feapply q) s = .next (s.record q 0x10 (feApplyEffect q)) := rfl
theorem exec_stopiffail : exec (.stopiffail q) s = .next (s.record q 0x12 (stopIfFailEffect q)) := rfl
theorem exec_halt : exec (.halt q) s = .next (s.record q 0x13 (fun _ _ _ t => t.beginStop q 2 true none)) := rfl
theorem exec_endRec : exec (.endRec q) s = .next (s.record q 0x14 (fun _ _ _ t => t.beginStop q 1 false none)) := rfl

end

/-- An execution of a REPEAT in progress leaves one fewer to come. -/
theorem record_repeats {s t : State} {q n : Nat} (hc : s.canDecode q = true) (hr : (s.seqX q).rep = n + 1)
    (hop : vcwOp ((s.seqX q).cur.getD 0 0) = 0x03)
    (hb : s.beforeRecord q (fun v => v.startOf q (vcwTset ((s.seqX q).cur.getD 0 0))) = (false, t)) :
    ((s.record q 0x03 (repeatEffect q)).seqX q).rep = n := by
  have hx : s.record q 0x03 (repeatEffect q) = repeatEffect q (s.get F.seqPositionPc q) ((s.seqX q).cur.getD 0 0)
      (t.startOf q (vcwTset ((s.seqX q).cur.getD 0 0)))
      (issued t q (s.get F.seqPositionPc q) (t.startOf q (vcwTset ((s.seqX q).cur.getD 0 0))) (s.seqX q).cur) := by
    unfold State.record
    dsimp only
    rw [hc, if_neg (by decide), hr, if_pos (by omega)]
    unfold State.again
    dsimp only
    rw [hop, if_neg (by decide), hb]
    dsimp only
    rw [State.go_eq]
    rfl
  have hrep := ((State.beforeRecord_sameHold hb).trans (issued_sameHold t q (s.get F.seqPositionPc q)
    (t.startOf q (vcwTset ((s.seqX q).cur.getD 0 0))) (s.seqX q).cur)).rep.trans hr
  rw [hx]
  unfold repeatEffect
  dsimp only
  rw [State.seqX_setSeqX, if_pos rfl, hrep, if_neg (by omega)]
  rfl

/-- Settles O15: each record's effect comes on top of its issue, which leaves levels, stack and hold as the decode found them. -/
theorem flowRecords : Obligations.FlowRecords := by
  intro q c words s t v a w ha hw hv
  subst ha hw hv
  refine ⟨fun h => DecodesNow.completes h (exec_nopRec q s) ?_, fun h => DecodesNow.completes h (exec_loopRec q s) ?_,
    fun l rest hl hm h => DecodesNow.completes h (exec_endloop q s) ⟨fun h0 => ?_, fun n hn => ?_⟩,
    fun h => DecodesNow.completes h (exec_repeatRec q s) ?_, fun n hc hr hop hb => ?_,
    fun h => DecodesNow.completes h (exec_callRec q s) ?_, fun b d rest hs h => DecodesNow.completes h (exec_ret q s) ?_,
    fun h => DecodesNow.completes h (exec_jump q s) (State.jump_seqX ..), fun h => DecodesNow.completes h (exec_jumpif q s) ?_⟩
  · rw [noEffect]
  · rw [loopEffect, (State.setLevels_seqX ..).1, (DecodesNow.issued_hold h _).2.2]
  · unfold endLoopEffect
    rw [hl]
    dsimp only
    rw [hm, h0]
    exact ⟨(State.setLevels_seqX ..).1, (State.setLevels_seqX ..).2.trans (issued_pc ..)⟩
  · unfold endLoopEffect
    rw [hl]
    dsimp only
    rw [hm, hn]
    exact ⟨(State.goTo_seqX ..).2.trans (State.setLevels_seqX ..).1, (State.goTo_seqX ..).1⟩
  · unfold repeatEffect
    dsimp only
    rw [State.seqX_setSeqX, if_pos rfl, if_pos (DecodesNow.issued_hold h _).1]
  · exact .intro (exec_repeatRec q s) (record_repeats hc hr hop hb)
  · unfold callEffect
    dsimp only
    rw [State.seqX_setSeqX, if_pos rfl, (DecodesNow.issued_hold h _).2.2]
    exact ⟨rfl, rfl⟩
  · unfold retEffect
    dsimp only
    rw [hs, State.seqX_setSeqX, if_pos rfl]
    exact ⟨rfl, rfl⟩
  · unfold jumpIfEffect
    split
    · exact State.jump_seqX ..
    · rfl

/-! ### Match blocks, flags and holds (R86, R89, R92, R97 to R103) -/

theorem find_setAcc_self (k : Nat) (l : List (Nat × Nat)) : (setAcc k 0 l).find? (fun e => decide (e.1 = k)) = some (k, 0) := by
  unfold setAcc
  split
  · next e he =>
    have hk : e.1 = k := by simpa using List.find?_some he
    split
    · simp
    · next h0 => rw [he, ← hk, show e = (e.1, 0) from Prod.ext rfl (by omega)]
  · simp

theorem find_setAcc_ne {k k' : Nat} (h : k' ≠ k) (v : Nat) (l : List (Nat × Nat)) :
    (setAcc k v l).find? (fun e => decide (e.1 = k')) = l.find? (fun e => decide (e.1 = k')) := by
  unfold setAcc
  split
  · split
    · rw [List.find?_cons_of_neg (by simpa using Ne.symm h), List.find?_filter]
      congr 1
      funext e
      by_cases he : e.1 = k'
      · simp [he, h]
      · simp [he]
    · rfl
  · rw [List.find?_cons_of_neg (by simpa using Ne.symm h)]

/-- A forced fail sets the sequencer's own accumulator for every record (R86). -/
theorem State.forceFail_acc (s : State) (q : Nat) :
    ((s.forceFail q).seqX q).acc.find? (fun e => decide (e.1 = 32)) = some (32, 0) := by
  have hx : ((s.forceFail q).seqX q).acc = (s.sitesOf q).foldl (fun l k => setAcc k 0 l) (setAcc 32 0 (s.seqX q).acc) := by
    simp [State.forceFail, State.modRuns, State.seqX, State.setSeqX, unitAt_putUnit]
  have hlt : ∀ k ∈ s.sitesOf q, k ≠ 32 := by
    intro k hk
    have := List.mem_range.1 (List.mem_filter.1 hk).1
    omega
  rw [hx, ← find_setAcc_self 32 (s.seqX q).acc]
  generalize setAcc 32 0 (s.seqX q).acc = l
  generalize s.sitesOf q = sites at hlt
  induction sites generalizing l with
  | nil => rfl
  | cons k ks ih =>
    rw [List.foldl_cons, ih _ (fun k' h => hlt k' (List.mem_cons_of_mem _ h)), find_setAcc_ne (hlt k List.mem_cons_self).symm]

theorem State.defer_due (s : State) (q c : Nat) (l : List SeqAct) :
    ((s.defer q c l).seqX q).due = (s.seqX q).due ++ l.map fun a => (c, a) := by
  simp [State.defer]

theorem State.defer_hold (s : State) (q c : Nat) (l : List SeqAct) : ((s.defer q c l).seqX q).peg = (s.seqX q).peg
    ∧ ((s.defer q c l).seqX q).hold = (s.seqX q).hold := by
  simp [State.defer]

theorem State.testBit_setLf_min (s : State) (q n : Nat) (b : Bool) :
    testBit ((s.setLf q n b).get F.seqLflagsLf q) (min n 15) = b := by
  rw [State.setLf, State.get_set _ _ _ _ _ (by decide), testBit_nat, Nat.testBit_mod_two_pow, ← testBit_nat, testBit_putBit,
    if_pos rfl]
  have : min n 15 < F.seqLflagsLf.width := Nat.lt_of_le_of_lt (Nat.min_le_right ..) (by decide)
  simp [this]

theorem State.clearAcc_acc (s : State) (q n : Nat) : ((s.clearAcc q n).seqX q).acc = [] := by
  simp [State.clearAcc, State.modRuns, State.seqX, State.setSeqX, unitAt_putUnit]

/-- The level that MATCH opens. -/
theorem matchEffect_opens (q a w c : Nat) (s : State) :
    (∃ l, ((matchEffect q a w c s).seqX q).levels = l :: (s.seqX q).levels ∧ l.isMatch = true ∧ l.body = a + s.recWords q
      ∧ l.rem = vcwCount w - 1 ∧ l.cond = vcwCond w ∧ l.blk = (s.seqX q).nextBlk)
    ∧ ((matchEffect q a w c s).seqX q).newPass = true := by
  unfold matchEffect
  dsimp only
  rw [State.seqX_setSeqX, if_pos rfl]
  exact ⟨⟨_, rfl, rfl, rfl, rfl, rfl, rfl⟩, rfl⟩

theorem matchAndFlagRecords : MatchAndFlagRecords := by
  intro q c words s t v a w ha hw hv
  subst ha hw hv
  refine ⟨fun h => DecodesNow.completes h (exec_matchRec q s) ?_,
    fun h => DecodesNow.completes h (exec_flagset q s) ⟨fun h0 => ?_, fun h1 => ?_, fun h2 => ?_⟩,
    fun h => DecodesNow.completes h (exec_flagclr q s) ⟨fun h0 => ?_, fun h1 => ?_, fun h2 => ?_⟩⟩
  · rw [← (DecodesNow.issued_hold h (s.seqX q).pc).2.2]
    exact matchEffect_opens ..
  · unfold flagSetEffect
    dsimp only
    rw [if_pos h0]
    exact State.testBit_setLf_min ..
  · unfold flagSetEffect
    dsimp only
    rw [if_neg (by omega), if_pos h1]
    exact State.defer_due ..
  · unfold flagSetEffect
    dsimp only
    rw [if_neg (by omega), if_neg (by omega), if_pos h2]
    exact State.forceFail_acc ..
  · unfold flagClrEffect
    dsimp only
    rw [if_pos h0]
    exact State.testBit_setLf_min ..
  · unfold flagClrEffect
    dsimp only
    rw [if_neg (by omega), if_pos h1]
    exact State.defer_due ..
  · unfold flagClrEffect
    dsimp only
    rw [if_neg (by omega), if_neg (by omega), if_pos h2]
    exact State.clearAcc_acc ..

/-- A hold repetition: HOLDING, with its end a peg point. -/
theorem State.holding_holds (s : State) (q : Nat) (h : Hold) : (s.holding q h).seqState q = 2 ∧ ((s.holding q h).seqX q).peg = true
    ∧ ((s.holding q h).seqX q).hold = some h ∧ ((s.holding q h).seqX q).due = (s.seqX q).due := by
  refine ⟨by simp (disch := decide) [State.holding, State.seqState], ?_⟩
  unfold State.holding
  rw [State.seqX_of_seqs (State.set_seqs ..), State.seqX_setSeqX, if_pos rfl]
  exact ⟨rfl, rfl, rfl⟩

theorem holdRecords : HoldRecords := by
  intro q c words s t v a w ha hw hv
  subst ha hw hv
  refine ⟨fun h => DecodesNow.completes h (exec_waitraise q s) ?_, fun h => DecodesNow.completes h (exec_barrier q s) ?_⟩
  · unfold waitRaiseEffect
    rw [(DecodesNow.issued_hold h _).2.1]
    obtain ⟨h1, h2, h3, -⟩ := State.holding_holds (issued t q (s.seqX q).pc c words) q (openHold true (words.getD 0 0) c)
    exact ⟨h1, h2, h3⟩
  · unfold barrierEffect
    rw [(DecodesNow.issued_hold h _).2.1]
    obtain ⟨h1, h2, h3, h4⟩ := State.holding_holds (issued t q (s.seqX q).pc c words) q (openHold false (words.getD 0 0) c)
    dsimp only
    refine ⟨?_, ?_, ?_, (State.defer_due ..).trans (by rw [h4]; rfl)⟩
    · rw [State.seqState, (State.defer_within ..).get _ _ _ (by decide)]
      exact h1
    · exact (State.defer_hold ..).1.trans h2
    · exact (State.defer_hold ..).2.trans h3

/-- Settles O16: the effects of MATCH, of the flags and of the holds come on top of the issue, which finds no hold in force. -/
theorem matchFlagAndHoldRecords : Obligations.MatchFlagAndHoldRecords := ⟨matchAndFlagRecords, holdRecords⟩

/-! ### Records that act on bays, and the last records (R105 to R112) -/

theorem bayRecords : BayRecords := by
  intro q c words s t v a w ha hw hv
  subst ha hw hv
  refine ⟨fun h => DecodesNow.completes h (exec_trigger q s) ?_, fun h3 h => DecodesNow.completes h (exec_measure q s) ?_,
    fun h3 h => DecodesNow.completes h (exec_measure q s) ?_,
      fun h => DecodesNow.completes h (exec_timarm q s) fun m hm hbit hbay => ?_,
    fun h => DecodesNow.completes h (exec_feapply q s) ?_⟩
  · exact (State.defer_due ..).trans (by rw [List.map_map]; rfl)
  · refine (State.defer_due ..).trans ?_
    rw [List.map_map]
    refine congrArg _ (List.map_congr_left fun b _ => ?_)
    rw [Function.comp_apply, if_neg h3]
  · refine (State.defer_due ..).trans ?_
    rw [List.map_map]
    refine congrArg _ (List.map_congr_left fun b _ => ?_)
    rw [Function.comp_apply, if_pos h3]
  · rw [timArmEffect, State.defer_due]
    refine List.mem_append_right _ (List.mem_map_of_mem (f := fun a => (c, a)) (List.mem_map_of_mem ?_))
    exact List.mem_filter.2 ⟨List.mem_filter.2 ⟨List.mem_range.2 hm, hbit⟩, decide_eq_true hbay⟩
  · exact (State.defer_due ..).trans (by rw [List.map_map]; rfl)

/-- What `tryPark` parks. -/
def State.parked (s : State) (q : Nat) : State :=
  let u := if (s.seqX q).plan = [] then s.settleSites q (s.seqX q).nextAt (s.cycle q) (s.seqX q).issued.1 else s
  u.parkDue ((u.sitesOf q).flatMap fun k => ((u.siteMap k).mapped 128).map (·.2)).eraseDups

theorem State.parked_within (s : State) (q : Nat) : Only 0x410044000000000000000000000000000200000000000000000000000000001000 s (s.parked q) := by
  unfold State.parked
  dsimp only
  refine Only.step ?_ (State.parkDue_within ..) (by decide)
  exact Only.ite (fun _ => (State.settleSites_within ..).mono (by decide)) fun _ => Only.refl ..

/-- A run that ends after the present boundary has not ended yet. -/
theorem State.tryPark_later {s : State} {q : Nat} {e : Ending} (h : (s.seqX q).ending = some e) (hend : s.nowFu < e.endAt) :
    s.tryPark q = s.parked q := by
  have hnow : (s.parked q).nowFu = s.nowFu := by
    unfold State.nowFu
    rw [(s.parked_within q).ticks (by decide)]
  unfold State.tryPark
  dsimp only
  rw [h]
  have hne : ¬e.endAt ≤ (s.parked q).nowFu := by rw [hnow]; exact Nat.not_le_of_lt hend
  exact if_neg fun hn => hne hn.1

/-- The channels of a run that ends are to park. -/
def State.parkSet (s : State) (cs : List Nat) (e : Nat) : State :=
  cs.foldl (fun u c => if (u.chan c).parked ∨ (u.chan c).parkAt.isSome then u else u.setPark c e) s

theorem State.parkSet_within (s : State) (cs : List Nat) (e : Nat) : Only 0x10000000000000000000000000000000000000000000000000000000000000000 s (s.parkSet cs e) :=
  Only.foldl (Only.refl _ s) fun _ _ => Only.ite (fun _ => Only.refl ..) fun _ => State.setPark_within ..

/-- What ends with the cycle issued, after the present boundary, is to end there. -/
theorem State.beginStop_ending {s : State} {q : Nat} (reason : Nat) (paused : Bool) (fault : Option (Nat × Nat × Nat × Nat))
    (hend : s.nowFu < (s.seqX q).lastEnd) :
    ((s.beginStop q reason paused fault).seqX q).ending = some ⟨reason, paused, (s.seqX q).lastEnd, fault⟩ := by
  have hstop : s.stopEnd q = (s.seqX q).lastEnd := if_neg (by omega)
  have ho := s.parkSet_within (s.channelsOf q) (s.seqX q).lastEnd
  have hx : s.beginStop q reason paused fault
      = (((s.parkSet (s.channelsOf q) (s.seqX q).lastEnd)).setSeqX q { ((s.parkSet (s.channelsOf q) (s.seqX q).lastEnd).seqX q) with
        ending := some ⟨reason, paused, (s.seqX q).lastEnd, fault⟩ }).tryPark q := by
    unfold State.beginStop
    rw [hstop]
    rfl
  rw [hx, State.tryPark_later (e := ⟨reason, paused, (s.seqX q).lastEnd, fault⟩)
    (by rw [State.seqX_setSeqX, if_pos rfl]) (by
      unfold State.nowFu
      rw [(State.setSeqX_within ..).ticks (by decide), ho.ticks (by decide)]
      exact hend)]
  rw [State.seqX_of_seqs ((State.parked_within ..).seqs (by decide)), State.seqX_setSeqX, if_pos rfl]

theorem lastRecords : LastRecords := by
  intro q c words s t v a w ha hw hv hend
  subst ha hw hv
  refine ⟨fun h => DecodesNow.completes h (exec_stopiffail q s) ?_, fun h => DecodesNow.completes h (exec_halt q s) ?_,
    fun h => DecodesNow.completes h (exec_endRec q s) ?_⟩
  · unfold stopIfFailEffect
    split
    · exact State.beginStop_ending _ _ _ hend
    · rfl
  · exact State.beginStop_ending _ _ _ hend
  · exact State.beginStop_ending _ _ _ hend

/-- Settles O17: what acts on bays waits for its boundary, and what ends a run ends with the cycle issued. -/
theorem bayAndLastRecords : Obligations.BayAndLastRecords := ⟨bayRecords, lastRecords⟩

end Sys2Proof.Machine
end

