-- ==== Sys2Proof/Proofs/TimingStore.lean ====
section
/-!
PROOFS. TimingStore.lean: table commits of the timing store (R123 to R125) and the DUT clock generators (R143 to R145); from these O18.
-/
namespace Sys2Proof.Machine

/-! ### The transfer of dirty sets (R123, R125) -/

theorem State.store_of_stores {s t : State} (h : t.stores = s.stores) (q : Nat) : t.store q = s.store q := by
  unfold State.store
  rw [h]

theorem State.transfer_store (s : State) (q n : Nat) : (s.transfer q n).store q = { (s.store q) with
    staging := putUnit {} (s.store q).staging n ((unitAt {} (s.store q).staging n).clamp (s.get F.seqCtrlMode q))
    active := putUnit {} (s.store q).active n ((unitAt {} (s.store q).staging n).clamp (s.get F.seqCtrlMode q)) } := by
  unfold State.transfer
  dsimp only
  split
  · rw [State.store_setStore, if_pos rfl]
  · rw [State.store_of_stores (State.hwSet_stores ..), State.store_setStore, if_pos rfl]

/-- The transfers of a list of sets, each once: the sets of the list take what was staged for them, clamped; the others are as before. -/
theorem State.transfers_tset (s : State) (q : Nat) (l : List Nat) (hl : l.Nodup) (n : Nat) :
    (l.foldl (fun (u : State) t => u.transfer q t) s).tset q n
      = if n ∈ l then (unitAt {} (s.store q).staging n).clamp (s.get F.seqCtrlMode q) else s.tset q n := by
  induction l generalizing s with
  | nil => simp
  | cons t l ih =>
    obtain ⟨ht, hl⟩ := List.nodup_cons.1 hl
    rw [List.foldl_cons, ih (s.transfer q t) hl, (State.transfer_within ..).get _ _ _ (by decide)]
    by_cases hnl : n ∈ l
    · have hne : n ≠ t := fun h => ht (h ▸ hnl)
      rw [if_pos hnl, if_pos (List.mem_cons_of_mem _ hnl), State.transfer_store, unitAt_putUnit, if_neg hne]
    · rw [if_neg hnl, State.tset, State.transfer_store, unitAt_putUnit]
      by_cases hnt : n = t
      · rw [if_pos hnt, if_pos (hnt ▸ List.mem_cons_self), hnt]
      · rw [if_neg hnt, if_neg (by simp [hnt, hnl]), State.tset]

/-- A table commit that is applied. -/
theorem State.applyCommit_tset (s : State) (q n : Nat) (hn : n < 64) : (s.applyCommit q).tset q n
    = if testBit (s.get F.seqTsDirtyDirty q) n then (unitAt {} (s.store q).staging n).clamp (s.get F.seqCtrlMode q)
      else s.tset q n := by
  have hl : ((List.range 64).filter (testBit (s.get F.seqTsDirtyDirty q))).Nodup := List.nodup_range.filter _
  have hm : (n ∈ (List.range 64).filter (testBit (s.get F.seqTsDirtyDirty q))) = (testBit (s.get F.seqTsDirtyDirty q) n = true) := by
    simp [hn]
  unfold State.applyCommit
  rw [State.tset, State.store_of_stores (State.set_stores ..), ← State.tset, State.transfers_tset _ _ _ hl]
  simp only [hm]

theorem State.tset_of_stores {s t : State} (h : t.stores = s.stores) (q n : Nat) : t.tset q n = s.tset q n := by
  unfold State.tset
  rw [State.store_of_stores h]

/-! ### Table commits (R117, R123, R124) -/

theorem exec_tableCommit (q : Nat) (src : Src) (s : State) : exec (.tableCommit q src) s = .next (s.tableCommit q src none).calWatch := rfl

/-- A table commit that is sampled, before it is applied. -/
def State.commitSampled (s : State) (q : Nat) (src : Src) : State :=
  ((s.note ⟨.store q, 4, srcRank src, 1⟩).setSeqX q { (s.seqX q) with commits := (s.seqX q).commits ++ [(s.ticks, none)] }).set
    F.seqTsCtrlPending q 0 1

theorem State.tableCommit_alone {s : State} {q : Nat} (h : Alone s (.store q)) (src : Src) : s.tableCommit q src none
    = if CommitsAtOnce s q ∧ (s.seqX q).ending.isNone then (s.commitSampled q src).applyCommits q else s.commitSampled q src := by
  unfold State.tableCommit
  rw [State.decideEvent_alone h]
  dsimp only
  simp only [State.seqState, State.get_note]
  rfl

theorem State.commitSampled_within (s : State) (q : Nat) (src : Src) : Only 0x4004000000000010000000000000000000000000000000000000000000000000 s (s.commitSampled q src) :=
  State.set_only _ _ _ _ (((State.note_only _ (Only.refl _ s) (by decide))).step (State.setSeqX_within ..) (by decide)) (by decide)

theorem State.commitSampled_seqX (s : State) (q : Nat) (src : Src) : (s.commitSampled q src).seqX q
    = { (s.seqX q) with commits := (s.seqX q).commits ++ [(s.ticks, none)] } := by
  unfold State.commitSampled
  rw [State.seqX_of_seqs (State.set_seqs ..), State.seqX_setSeqX, if_pos rfl]

/-- A commit that is applied at once, where no other waits. -/
theorem State.applyCommits_now {s : State} {q : Nat} (hc : (s.seqX q).commits ≠ []) (hp : (s.seqX q).pegs = []) : s.applyCommits q
    = (((s.setSeqX q { (s.seqX q) with commits := [] }).applyCommit q).set F.seqTsCtrlPending q 0 0).commitsDone 0
        ((s.seqX q).commits.map (·.2)) := by
  unfold State.applyCommits
  dsimp only
  rw [if_neg hc]
  unfold State.commitNow
  dsimp only
  rw [State.seqX_setSeqX, if_pos rfl, if_pos ⟨rfl, hp⟩]

theorem tableCommit : TableCommit := by
  intro q src s h
  have hw := s.commitSampled_within q src
  have hx := s.commitSampled_seqX q src
  refine ⟨fun hat hend hcom hpeg => .intro (exec_tableCommit q src s) ?_, fun hnot => .intro (exec_tableCommit q src s) ?_⟩
  · rw [State.tableCommit_alone h, if_pos ⟨hat, by rw [hend]; rfl⟩, State.applyCommits_now (by rw [hx]; simp) (by rw [hx]; exact hpeg)]
    have hu : Only 0x4004000000000010000000000000000000000000000000000000000000000000 s ((s.commitSampled q src).setSeqX q { ((s.commitSampled q src).seqX q) with commits := [] }) :=
      hw.step (State.setSeqX_within ..) (by decide)
    generalize (s.commitSampled q src).setSeqX q { ((s.commitSampled q src).seqX q) with commits := [] } = u at hu ⊢
    have htset (n : Nat) (hn : n < 64) : ((((u.applyCommit q).set F.seqTsCtrlPending q 0 0).commitsDone 0
        (((s.commitSampled q src).seqX q).commits.map (·.2))).calWatch).tset q n
        = if testBit (s.get F.seqTsDirtyDirty q) n then (unitAt {} (s.store q).staging n).clamp (s.get F.seqCtrlMode q)
          else s.tset q n := by
      rw [State.tset_of_stores ((State.calWatch_within _).stores (by decide)),
        State.tset_of_stores ((State.commitsDone_within ..).stores (by decide)),
        State.tset_of_stores (State.set_stores ..), State.applyCommit_tset _ _ _ hn, State.store_of_stores (hu.stores (by decide)),
        State.tset_of_stores (hu.stores (by decide)), hu.get F.seqTsDirtyDirty _ _ (by decide), hu.get F.seqCtrlMode _ _ (by decide)]
    refine ⟨?_, ?_, fun n hn hd => (htset n hn).trans (if_pos hd), fun n hn hd => (htset n hn).trans (if_neg (by rw [hd]; decide))⟩
    · simp (disch := decide) [State.applyCommit, (State.calWatch_within _).get, (State.commitsDone_within _ _ _).get]
    · simp (disch := decide) [(State.calWatch_within _).get, (State.commitsDone_within _ _ _).get]
  · rw [State.tableCommit_alone h, if_neg (fun hc => hnot hc.1), (State.calWatch_within _).get _ _ _ (by decide),
      (State.calWatch_within _).get _ _ _ (by decide), State.store_of_stores ((State.calWatch_within _).stores (by decide)),
      State.store_of_stores (hw.stores (by decide)), hw.get F.seqTsDirtyDirty _ _ (by decide)]
    exact ⟨by simp (disch := decide) [State.commitSampled], rfl, rfl⟩

/-! ### DUT clock generators (R143 to R145) -/

theorem DclkX.settle_of_runs {x : DclkX} (h : x.stopAt = none) (t : Nat) : x.settle t = x := by
  unfold DclkX.settle
  rw [h]

theorem DclkX.halt_of_runs {x : DclkX} {st : Nat} (hs : x.start = some st) (h : x.stopAt = none) (t : Nat) :
    x.halt t = { x with stopAt := some (x.nextFall st t), next := none } := by
  unfold DclkX.halt
  rw [DclkX.settle_of_runs h]
  dsimp only
  rw [hs]

theorem State.dclk_note (s : State) (e : TickEvent) (b g : Nat) : (s.note e).dclk b g = s.dclk b g := by
  unfold State.dclk
  rw [State.note_dclks]

theorem State.now17_note (s : State) (e : TickEvent) : (s.note e).now17 = s.now17 := by
  unfold State.now17 State.nowFu
  rw [State.note_ticks]

theorem dutClocks_start (b g : Nat) (src : Src) (s : State) (h : Alone s (.dclk b g)) (hl : (s.dclk b g).locked = false)
    (hst : (s.dclk b g).start = none) (hstop : (s.dclk b g).stopAt = none) :
    Completes (.dclkStart b g src) s fun t => (t.dclk b g).start = some ((s.ticks + 1) * 8192 * 131072) ∧ (t.dclk b g).stopAt = none := by
  have hx : exec (.dclkStart b g src) s = .next ((s.note ⟨.dclk b g, 5, srcRank src, 1⟩).dclkStart b g) := by
    refine congrArg Host.Outcome.next ?_
    rw [hl, if_neg (by decide), State.onObj_alone h]
  refine .intro hx ?_
  unfold State.dclkStart
  dsimp only
  rw [State.dclk_note, DclkX.settle_of_runs hstop, hst, hstop]
  dsimp only
  rw [State.dclk_setDclk]
  exact ⟨rfl, rfl⟩

theorem dutClocks_disable (b g st : Nat) (src : Src) (s : State) (h : Alone s (.dclk b g)) (hst : (s.dclk b g).start = some st)
    (hstop : (s.dclk b g).stopAt = none) : Completes (.dclkDisable b g src) s fun t =>
      (t.dclk b g).stopAt = some ((s.dclk b g).nextFall st s.now17) ∧ (t.dclk b g).next = none := by
  refine .intro (congrArg Host.Outcome.next (State.onObj_alone h ..)) ?_
  rw [State.dclk_setDclk, State.dclk_note, State.now17_note, DclkX.halt_of_runs hst hstop]
  exact ⟨rfl, rfl⟩

theorem dutClocks_commit (b g : Nat) (src : Src) (s : State) (h : Alone s (.dclk b g)) :
    Completes (.frequencyCommit b g src) s fun t => (t.dclk b g).period = s.get F.bayDclkPeriodPeriod b g
      ∧ (t.dclk b g).locked = s.bit F.bayDclkCtrlMode b g ∧ (t.dclk b g).seqsel = s.get F.bayDclkCtrlSeqsel b g
      ∧ (t.dclk b g).offset = s.get F.bayDclkCtrlOffset b g ∧ (t.dclk b g).trim = s.getS F.bayDclkCtrlDutyTrim b g
      ∧ ∀ st f, (s.dclk b g).start = some st → (s.dclk b g).stopAt = none → f = (s.dclk b g).nextFall st s.now17 →
          (t.dclk b g).stopAt = some f
          ∧ (t.dclk b g).next = if s.bit F.bayDclkCtrlMode b g then none else some ((f / 1073741824 + 1) * 1073741824) := by
  refine .intro (congrArg Host.Outcome.next (State.onObj_alone h ..)) ?_
  unfold State.dclkCommit
  dsimp only
  rw [State.dclk_setDclk, State.dclk_note, State.now17_note]
  simp only [State.bit, State.getS, State.get_note]
  refine ⟨trivial, trivial, trivial, trivial, trivial, fun st f hst hstop hf => ?_⟩
  rw [DclkX.halt_of_runs hst hstop, ← hf]
  exact ⟨rfl, rfl⟩

/-- Settles O18: a commit transfers each dirty set once, and a generator's run follows from what it finds of the last. -/
theorem timingStoreAndDutClocks : Obligations.TimingStoreAndDutClocks :=
  ⟨tableCommit, dutClocks_start, dutClocks_disable, dutClocks_commit⟩

end Sys2Proof.Machine
end

