-- ==== Sys2Proof/Proofs/Compares.lean ====
section
/-!
PROOFS. Compares.lean: the queued events of a channel (R128, R137, R138, R152 to R157), the delivery of outcomes (R153, R161, R164) and
the snapshot of the fail counters (R163); from these O19 and O20.
-/
namespace Sys2Proof.Machine

/-! ### Queued events -/

/-- The state in which the first queued event of a channel takes effect. -/
def State.dequeued (s : State) (c : Nat) (rest : List Ev) : State := s.setChan c { (s.chan c) with queue := rest }

theorem State.dequeued_chan (s : State) (c : Nat) (rest : List Ev) : (s.dequeued c rest).chan c = { (s.chan c) with queue := rest } := by
  rw [State.dequeued, State.chan_setChan, if_pos rfl]

theorem execEdgeApply_drive {s : State} {c : Nat} {e : Ev} {rest : List Ev} {high low : List (Nat × Bool)}
    (hq : (s.chan c).queue = e :: rest) (ht : e.time + 128 ≤ s.nowFu) (hd : isDrive e.code = true) :
    exec (.edgeApply c high low) s = .next ((s.dequeued c rest).driveEvent c e rest) := by
  show execEdgeApply c high low s = _
  unfold execEdgeApply
  rw [hq]
  dsimp only
  rw [if_pos ht, if_pos hd]
  rfl

theorem execEdgeApply_compare {s : State} {c : Nat} {e : Ev} {rest : List Ev} {high low : List (Nat × Bool)}
    (hq : (s.chan c).queue = e :: rest) (ht : e.time + 128 ≤ s.nowFu) (hd : 4 ≤ e.code) :
    exec (.edgeApply c high low) s = .next (((s.dequeued c rest).applyCompare c e high low).compared e.vec.seq) := by
  have hn : isDrive e.code = false := decide_eq_false (by omega)
  show execEdgeApply c high low s = _
  unfold execEdgeApply
  rw [hq]
  dsimp only
  rw [if_pos ht, if_neg (by rw [hn]; decide)]
  rfl

theorem State.fly_chan (s : State) (c : Nat) (f : Flight) :
    (s.fly c f).chan c = { (s.chan c) with flight := (s.chan c).flight ++ [f] } := by
  rw [State.fly, State.chan_setChan, if_pos rfl]

/-- What a comparison leaves of the channels, once it has gone to the log. -/
theorem State.compared_chan (s : State) (q c : Nat) : (s.compared q).chan c = s.chan c :=
  State.chan_of_chans ((State.compared_within ..).chans (by decide)) c

theorem State.applyCompare_strobe {s : State} {c : Nat} {e : Ev} {high low : List Sample} (h : e.code ≤ 7) :
    s.applyCompare c e high low = s.strobe c e (firstValue high) (firstValue low) := if_pos h

theorem State.applyDrive_chan (s : State) (c : Nat) (e : Ev) : ((s.applyDrive c e).chan c)
    = { (s.chan c) with drv := if e.code = 3 then (s.chan c).drv else decide (e.code = 2), den := decide (e.code ≠ 3) } := by
  unfold State.applyDrive
  dsimp only
  split
  · next h => rw [State.driveTo_chan, if_pos rfl]; simp [h]
  · next h => rw [State.driveTo_chan, if_pos rfl]; simp [h]

theorem State.closeWindow_chan (s : State) (c : Nat) (w : Win) (e : Ev) (high low : List Sample) : (s.closeWindow c w e high low).chan c
    = { (s.chan c) with win := none, flight := (s.chan c).flight ++ [
      { vec := e.vec, slot := e.slot, site := e.site, window := true, compares := true, active := e.active,
        fail := (windowOutcome w e high low).1, expected := expectedCode w.ev.code, actual := (windowOutcome w e high low).2,
        at_ := e.time, rtd := e.rtd }] } := by
  unfold State.closeWindow
  dsimp only
  rw [State.fly_chan, State.chan_setChan, if_pos rfl]

theorem edgesActOnChannels_suppressed {c : Nat} {high low : List (Nat × Bool)} {e : Ev} {rest : List Ev} {s : State}
    (hq : (s.chan c).queue = e :: rest) (ht : e.time + 128 ≤ s.nowFu) (hd : isDrive e.code = true) (hk : kerfHit e rest = true)
    (hu : Unclear s F.bayEdgeStatEdgeCollision (c / 16) (c % 16)) :
    Completes (.edgeApply c high low) s fun t => (t.chan c).queue = rest ∧ (t.chan c).drv = (s.chan c).drv
      ∧ (t.chan c).den = (s.chan c).den
      ∧ (s.get F.bayEdgeStatEdgeCollision (c / 16) (c % 16) + 1 < 2 ^ F.bayEdgeStatEdgeCollision.width →
          t.get F.bayEdgeStatEdgeCollision (c / 16) (c % 16) = s.get F.bayEdgeStatEdgeCollision (c / 16) (c % 16) + 1) := by
  have hc := s.dequeued_chan c rest
  have ho : Only 0x10000000000000000000000000000000000000000000000000000000000000000 s (s.dequeued c rest) := State.setChan_within ..
  refine .intro (execEdgeApply_drive hq ht hd) ?_
  rw [State.driveEvent, if_pos hk, State.chan_of_chans (State.count_chans ..), hc]
  refine ⟨rfl, rfl, rfl, fun hlt => ?_⟩
  rw [State.get_count_min _ _ (ho.unclear_field hu (by decide) (by decide) (State.decider_congr (ho.events (by decide)) _)) (by decide)
    (by decide) (.inr (by decide)), ho.get _ _ _ (by decide), Nat.min_eq_right (by omega)]

/-- Settles O19: what the first queued event of a channel does is read off the channel it leaves. -/
theorem edgesActOnChannels : Obligations.EdgesActOnChannels := by
  intro c high low e rest s hq ht
  have hc := s.dequeued_chan c rest
  refine ⟨fun hd hk => .intro (execEdgeApply_drive hq ht hd) ?_, fun hd hk hu => edgesActOnChannels_suppressed hq ht hd hk hu,
    fun h4 h7 => .intro (execEdgeApply_compare hq ht h4) ?_, fun h8 h10 hw => .intro (execEdgeApply_compare hq ht (by omega)) ?_,
    fun w h11 hw => .intro (execEdgeApply_compare hq ht (by omega)) ?_⟩
  · rw [State.driveEvent, if_neg (by rw [hk]; decide), State.applyDrive_chan, hc]
    exact ⟨rfl, rfl, fun h => by simp [h], fun h => by simp [h], fun h => by simp [h]⟩
  · rw [State.compared_chan, State.applyCompare, if_pos h7, State.strobe, State.fly_chan, State.chan_of_chans (State.emit_chans ..),
    hc]
    exact ⟨rfl, _, rfl, rfl, rfl, rfl, rfl⟩
  · rw [State.compared_chan, State.applyCompare, if_neg (by omega), if_neg (by omega), hc, hw]
    dsimp only
    rw [State.chan_setChan, if_pos rfl, hc]
    exact ⟨rfl, rfl, rfl⟩
  · rw [State.compared_chan, State.applyCompare, if_neg (by omega), if_pos h11, hc, hw]
    dsimp only
    rw [State.closeWindow_chan, hc]
    exact ⟨rfl, rfl, _, rfl, rfl, rfl, rfl, rfl, rfl⟩

/-! ### Delivery of outcomes (R153, R161, R164) -/

/-- An outcome on its way to its record: passes and capture have it. -/
def State.outcomeHeld (s : State) (c : Nat) (f : Flight) : State :=
  let t := (s.capture c f).passOutcome f
  if f.active && f.compares && !f.vec.quiet then t.group c f else t

theorem State.deliver_eq (s : State) (c : Nat) (f : Flight) : s.deliver c f
    = (if (f.active && f.compares && !f.vec.quiet) ∧ f.fail then (s.outcomeHeld c f).failEffects c f else s.outcomeHeld c f).compared
        f.vec.seq := rfl

theorem State.outcomeHeld_within (s : State) (c : Nat) (f : Flight) : Only 0x44000000000000000000000000000000000000000000000000000000000000000 s (s.outcomeHeld c f) := by
  unfold State.outcomeHeld
  dsimp only
  have h : Only 0x44000000000000000000000000000000000000000000000000000000000000000 s ((s.capture c f).passOutcome f) := ((State.capture_within ..).mono (by decide)).step (State.passOutcome_within ..) (by decide)
  exact Only.ite (fun _ => h.step (State.group_within ..) (by decide)) fun _ => h

theorem execCompareResult_done {s : State} {c : Nat} {f : Flight} {rest : List Flight} (hf : (s.chan c).flight = f :: rest)
    (hd : f.done < s.nowFu + 8192) :
    exec (.compareResult c) s = .next ((s.setChan c { (s.chan c) with flight := rest }).deliver c f) := by
  show execCompareResult c s = _
  unfold execCompareResult
  rw [hf]
  dsimp only
  rw [if_pos hd]

theorem State.passOutcome_run (s : State) (f : Flight) (q : Nat) : ((s.passOutcome f).seqX q).run = (s.seqX q).run := by
  unfold State.passOutcome
  split
  · rfl
  · split
    · rfl
    · unfold State.modPass
      dsimp only
      rw [State.seqX_setSeqX]
      split
      · next h => rw [h]
      · rfl

theorem State.outcomeHeld_run (s : State) (c : Nat) (f : Flight) (q : Nat) : ((s.outcomeHeld c f).seqX q).run = (s.seqX q).run := by
  have h : (((s.capture c f).passOutcome f).seqX q).run = (s.seqX q).run := by
    rw [State.passOutcome_run, State.seqX_of_seqs ((State.capture_within ..).seqs (by decide))]
  unfold State.outcomeHeld
  dsimp only
  split
  · rw [State.seqX_of_seqs ((State.group_within ..).seqs (by decide)), h]
  · exact h

/-- The fail count, once a fail has had its effects. -/
theorem State.failEffects_count {s : State} {c : Nat} {f : Flight} (hu : Unclear s F.bayFailCountCount (c / 16) (c % 16)) :
    (s.failEffects c f).get F.bayFailCountCount (c / 16) (c % 16)
      = min 4294967295 (s.get F.bayFailCountCount (c / 16) (c % 16) + 1) := by
  have hc : (s.count F.bayFailCountCount F.bayFailCountSaturated (c / 16) (c % 16) 1).get F.bayFailCountCount (c / 16) (c % 16)
      = min 4294967295 (s.get F.bayFailCountCount (c / 16) (c % 16) + 1) :=
    State.get_count_min _ _ hu (by decide) (by decide) (.inr (by decide))
  unfold State.failEffects
  dsimp only
  split
  · rw [(State.runFails_within ..).get _ _ _ (by decide), (State.acqFail_within ..).get _ _ _ (by decide), hc]
  · rw [(State.siteStopOnFail_within ..).get _ _ _ (by decide), (State.failGf_within ..).get _ _ _ (by decide), State.get_ite]
    simp (disch := decide) only [State.get_setSeqX, ite_self, (State.siteFail_within _ _ _ _ _).get, (State.runFails_within _ _).get,
      (State.acqFail_within _ _ _).get, hc]

theorem State.siteFail_seq {s : State} {q : Nat} (hu : Unclear s F.seqSiteFailSeq q 0) (site : Nat) (v : VecInfo) :
    (s.siteFail q 32 site v).get F.seqSiteFailSeq q = 1 := by
  have hc : s.clearedNow (F.seqSiteFailSite.key q 0) 32 = false := hu
  unfold State.siteFail
  dsimp only
  rw [if_pos rfl, hc, if_pos rfl]
  split
  · next h => exact of_decide_eq_true (h.resolve_right Bool.false_ne_true)
  · simp (disch := decide)

/-- What a fail reaches before it is judged whether its run is the present one. -/
def State.failCounted (s : State) (c : Nat) (f : Flight) : State :=
  ((s.count F.bayFailCountCount F.bayFailCountSaturated (c / 16) (c % 16) 1).acqFail c (tickAt (f.done + 2048))).runFails f

theorem State.failCounted_within (s : State) (c : Nat) (f : Flight) : Only 0x4400004000000000000000000000000000040000000000000000000000000001000 s (s.failCounted c f) :=
  ((State.count_only _ _ _ _ _ (Only.refl _ s) (by decide)).step (State.acqFail_within ..) (by decide)).step
    (State.runFails_within ..) (by decide)

theorem State.failCounted_decider (s : State) (c : Nat) (f : Flight) {k : RegKey} {lo : Nat} (hk : k.name ≠ .bayFailCount) :
    (s.failCounted c f).decider (.field k lo) = s.decider (.field k lo) := by
  have hc : (s.count F.bayFailCountCount F.bayFailCountSaturated (c / 16) (c % 16) 1).decider (.field k lo) = s.decider (.field k lo) := by
    unfold State.count
    split
    · exact State.decider_superseded ..
    · rw [State.decider_note_ne _ (fun h => hk (congrArg RegKey.name (Obj.field.inj h).1).symm)]
      exact State.decider_congr ((State.addCount_only _ _ _ _ _ (Only.refl 0x40000000000000000000000000000000 s) (by decide)).events (by decide)) _
  refine (State.decider_congr ?_ _).trans hc
  unfold State.failCounted
  rw [(State.runFails_within ..).events (by decide), (State.acqFail_within ..).events (by decide)]

/-- SITE_FAIL.SEQ, once a fail of the sequencer's own run has had its effects. -/
theorem State.failEffects_siteFail {s : State} {c : Nat} {f : Flight} (hrun : (s.seqX f.vec.seq).run = f.vec.run)
    (hu : Unclear s F.seqSiteFailSeq f.vec.seq 0) : (s.failEffects c f).get F.seqSiteFailSeq f.vec.seq = 1 := by
  have hw := s.failCounted_within c f
  have hu2 := (hw.unclear_field hu (by decide) (by decide) (State.failCounted_decider _ _ _
    (show RegName.seqSiteFail ≠ RegName.bayFailCount by decide)))
  have hs := (s.failCounted c f).siteFail_within f.vec.seq f.site f.site f.vec
  have hu3 := hs.unclear_field hu2 (by decide) (by decide) (State.decider_congr (hs.events (by decide)) _)
  have hset := State.siteFail_seq hu3 f.site f.vec
  have hr : ((s.failCounted c f).seqX f.vec.seq).run = f.vec.run := by rw [State.seqX_of_seqs (hw.seqs (by decide)), hrun]
  unfold State.failEffects
  dsimp only
  rw [← State.failCounted.eq_1, if_neg (not_not_intro hr), (State.siteStopOnFail_within ..).get _ _ _ (by decide),
    (State.failGf_within ..).get _ _ _ (by decide), State.get_ite, State.get_setSeqX, hset, ite_self]

theorem outcomesAreDelivered : OutcomesAreDelivered := by
  intro c f rest s hf hd
  have hch : Only (2 ^ 256) s (s.setChan c { (s.chan c) with flight := rest }) := State.setChan_within ..
  have hh := (hch.mono (by decide)).step ((s.setChan c { (s.chan c) with flight := rest }).outcomeHeld_within c f) (N := 0x54000000000000000000000000000000000000000000000000000000000000000) (by decide)
  have hrun : (((s.setChan c { (s.chan c) with flight := rest }).outcomeHeld c f).seqX f.vec.seq).run = (s.seqX f.vec.seq).run := by
    rw [State.outcomeHeld_run, State.seqX_of_seqs (hch.seqs (by decide))]
  have hdec (o : Obj) := State.decider_congr (hh.events (by decide)) o
  have hchan : (((s.setChan c { (s.chan c) with flight := rest }).outcomeHeld c f).chan c).flight = rest := by
    rw [State.chan_of_chans ((State.outcomeHeld_within ..).chans (by decide)), State.chan_setChan, if_pos rfl]
  refine .intro (execCompareResult_done hf hd) ?_
  rw [State.deliver_eq]
  generalize (s.setChan c { (s.chan c) with flight := rest }).outcomeHeld c f = u at hh hrun hdec hchan ⊢
  refine ⟨?_, fun ha hc hq hfail => ⟨fun hu => ?_, fun hr hu => ?_⟩, fun hfail => ?_⟩
  · rw [State.compared_chan]
    split
    · rw [State.chan_of_chans ((State.failEffects_within ..).chans (by decide)), hchan]
    · exact hchan
  · rw [(State.compared_within ..).get _ _ _ (by decide), if_pos (by simp [ha, hc, hq, hfail]),
      State.failEffects_count (hh.unclear_field hu (by decide) (by decide) (hdec _)), hh.get _ _ _ (by decide)]
  · rw [(State.compared_within ..).get _ _ _ (by decide), if_pos (by simp [ha, hc, hq, hfail]),
      State.failEffects_siteFail (hrun.trans hr) (hh.unclear_field hu (by decide) (by decide) (hdec _))]
  · rw [(State.compared_within ..).get _ _ _ (by decide), if_neg (by simp [hfail]), hh.get _ _ _ (by decide)]

/-! ### The snapshot of the fail counters (R163) -/

theorem State.rd_foldl_wr_apart {ι : Type} (l : List ι) (k : ι → RegKey) (v : ι → Word) (s : State) {k' : RegKey} (h : ∀ i ∈ l,
  k' ≠ k i) :
    (l.foldl (fun (u : State) i => u.wr (k i) (v i)) s).rd k' = s.rd k' := by
  induction l generalizing s with
  | nil => rfl
  | cons i l ih =>
    rw [List.foldl_cons, ih _ fun j hj => h j (List.mem_cons_of_mem _ hj), State.rd_wr_ne _ _ (h i List.mem_cons_self)]

theorem State.rd_foldl_wr {ι : Type} {l : List ι} {k : ι → RegKey} (hk : Function.Injective k) (v : ι → Word) (s : State) {i : ι}
    (hi : i ∈ l) (hl : l.Nodup) : (l.foldl (fun (u : State) j => u.wr (k j) (v j)) s).rd (k i) = v i := by
  induction l generalizing s with
  | nil => cases hi
  | cons a l ih =>
    obtain ⟨ha, hl⟩ := List.nodup_cons.1 hl
    rw [List.foldl_cons]
    rcases List.mem_cons.1 hi with rfl | hi
    · rw [State.rd_foldl_wr_apart _ _ _ _ fun j hj he => ha ((hk he : i = j) ▸ hj), State.rd_wr_self]
    · exact ih _ hi hl

theorem failShadow_injective (b : Nat) : Function.Injective fun i => (⟨.bayFailShadow, b, i⟩ : RegKey) :=
  fun _ _ h => (RegKey.mk.inj h).2.2

theorem failSnapshot : FailSnapshot := by
  intro b s
  have hshadow (i : Nat) (hi : i < 16) := State.rd_foldl_wr (failShadow_injective b) (fun i => s.atStart ⟨.bayFailCount, b, i⟩) s
    (List.mem_range.2 hi) List.nodup_range
  have hcount : ((List.range 16).foldl (fun (u : State) i =>
      u.wr ⟨.bayFailShadow, b, i⟩ (s.atStart ⟨.bayFailCount, b, i⟩)) s).get F.clkEtcountCount = s.get F.clkEtcountCount :=
    congrArg (fun w => bitsOf w F.clkEtcountCount.lo F.clkEtcountCount.width)
      (State.rd_foldl_wr_apart _ _ _ _ fun i _ h => absurd (RegKey.mk.inj h).1 (by decide))
  refine .intro rfl ?_
  unfold State.failSnap
  generalize (List.range 16).foldl _ s = u at hshadow hcount ⊢
  refine ⟨fun i hi => ?_, ?_, ?_⟩
  · have hk {f : Fld} (h : RegName.bayFailShadow ≠ f.reg) : (⟨.bayFailShadow, b, i⟩ : RegKey) ≠ f.key b 0 :=
      fun he => h (congrArg RegKey.name he)
    rw [State.rd_set_ne _ _ _ _ _ (hk (by decide)), State.rd_set_ne _ _ _ _ _ (hk (by decide)), hshadow i hi]
  · simp (disch := decide)
  · simp (disch := decide) [hcount]

/-- Settles O20: the outcome in flight first leaves its channel, and its effects on the counters and flags come behind. -/
theorem outcomesAndSnapshots : Obligations.OutcomesAndSnapshots := ⟨outcomesAreDelivered, failSnapshot⟩

end Sys2Proof.Machine
end

