-- ==== Sys2Proof/Proofs/Rings.lean ====
section
/-!
PROOFS. Rings.lean: what the records, write-backs and event records of other rings leave of a ring (R305 to R314); the doorbells
(R302, R303); the commands that end where they begin.
-/
namespace Sys2Proof.Machine
set_option Elab.async false

/-! ### What rings leave of one another -/

/-- The step from `s` to `t` leaves RING[q]'s CONS and doorbell bits as they are and takes nothing back that was sent; where the
function is a bus master it stays one, and RING[q] executes what it did. -/
structure RingKept (q : Nat) (s t : State) : Prop where
  cons : t.get F.ringIndexCons q = s.get F.ringIndexCons q
  overrun : t.get F.ringStatusDbOverrun q = s.get F.ringStatusDbOverrun q
  clamped : t.get F.ringStatusDbClamped q = s.get F.ringStatusDbClamped q
  out : s.out ⊆ t.out
  master : t.busMaster = s.busMaster
  runs : s.busMaster = true → (t.ringX q).running = (s.ringX q).running
  gen : s.busMaster = true → (t.ringX q).gen = (s.ringX q).gen

theorem Assoc.find_map {K V W : Type} [DecidableEq K] (f : V → W) (l : List (K × V)) (k : K) :
    Assoc.find k (l.map fun e => (e.1, f e.2)) = (Assoc.find k l).map f := by
  induction l with
  | nil => rfl
  | cons e l ih =>
    by_cases h : e.1 = k
    · simp [Assoc.find, h]
    · simp [Assoc.find, h, ih]

theorem State.ringX_mapBarriers (s : State) (f : List (Nat × Nat) → List (Nat × Nat)) (q : Nat) :
    (s.mapBarriers f).ringX q = { (s.ringX q) with barrier := (s.ringX q).barrier.map f } := by
  have h := Assoc.find_map (fun x : RingX => { x with barrier := x.barrier.map f }) s.host.rings q
  show Assoc.rd (fun _ => ({} : RingX)) (s.host.rings.map fun e => (e.1, { e.2 with barrier := e.2.barrier.map f })) q = _
  unfold State.ringX unitAt Assoc.rd
  rw [h]
  cases Assoc.find q s.host.rings
  · rfl
  · rfl

theorem State.busMaster_of_host {s t : State} (h : t.host = s.host) : t.busMaster = s.busMaster :=
  congrArg (fun x : HostX => testBit x.pcie.command 2) h

namespace RingKept
variable {q : Nat} {s t u : State}

theorem refl (q : Nat) (s : State) : RingKept q s s := ⟨rfl, rfl, rfl, fun _ h => h, rfl, fun _ => rfl, fun _ => rfl⟩

theorem trans (h : RingKept q s t) (g : RingKept q t u) : RingKept q s u :=
  ⟨g.cons.trans h.cons, g.overrun.trans h.overrun, g.clamped.trans h.clamped, fun _ ho => g.out (h.out ho),
    g.master.trans h.master, fun hb => (g.runs (h.master.trans hb)).trans (h.runs hb),
    fun hb => (g.gen (h.master.trans hb)).trans (h.gen hb)⟩

/-- A step that leaves the outputs and the host's part as they are. -/
theorem of_fields (hc : t.get F.ringIndexCons q = s.get F.ringIndexCons q)
    (ho : t.get F.ringStatusDbOverrun q = s.get F.ringStatusDbOverrun q) (hl : t.get F.ringStatusDbClamped q = s.get F.ringStatusDbClamped q)
    (hout : t.out = s.out) (hh : t.host = s.host) : RingKept q s t :=
  ⟨hc, ho, hl, hout ▸ fun _ ho => ho, State.busMaster_of_host hh,
    fun _ => congrArg (fun x : HostX => (unitAt ({} : RingX) x.rings q).running) hh,
    fun _ => congrArg (fun x : HostX => (unitAt ({} : RingX) x.rings q).gen) hh⟩

theorem of_only {N : Nat} (h : Only N s t) (hi : N.testBit RegName.ringIndex.ctorIdx = false)
    (hs : N.testBit RegName.ringStatus.ctorIdx = false) (hout : t.out = s.out) (hh : t.host = s.host) : RingKept q s t :=
  of_fields (h.get _ _ _ hi) (h.get _ _ _ hs) (h.get _ _ _ hs) hout hh

theorem emit (q : Nat) (s : State) (o : Output) : RingKept q s (s.emit o) :=
  ⟨s.get_emit .., s.get_emit .., s.get_emit .., fun _ h => List.mem_append_left _ h, rfl, fun _ => rfl, fun _ => rfl⟩

/-- Another ring's part, or the ring's own with the same descriptors, is stored. -/
theorem setRingX (s : State) (p : Nat) (x : RingX) (hx : q = p → x.running = (s.ringX q).running)
    (hg : q = p → x.gen = (s.ringX q).gen) : RingKept q s (s.setRingX p x) :=
  ⟨State.get_of_regs rfl .., State.get_of_regs rfl .., State.get_of_regs rfl .., fun _ h => h, rfl, fun _ => by
    rw [State.ringX_setRingX]
    split
    · exact hx ‹_›
    · rfl, fun _ => by
    rw [State.ringX_setRingX]
    split
    · exact hg ‹_›
    · rfl⟩

theorem foldl {α : Type} (l : List α) (f : State → α → State) (h : ∀ t a, RingKept q t (f t a)) (s : State) :
    RingKept q s (l.foldl f s) := by
  induction l generalizing s with
  | nil => exact refl q s
  | cons a l ih => exact (h s a).trans (ih _)

theorem wroteEntry (q : Nat) (s : State) (p : Nat) (irq : Bool) : RingKept q s (s.wroteEntry p irq) :=
  setRingX s p _ (fun h => h ▸ rfl) fun h => h ▸ rfl

/-- The mark of a type mismatch in the host's part touches no ring. -/
theorem reported (q : Nat) (s : State) (l : List (Nat × Nat × Nat)) :
    RingKept q s { s with host := { s.host with typeReported := l } } :=
  ⟨State.get_of_regs rfl .., State.get_of_regs rfl .., State.get_of_regs rfl .., fun _ h => h, rfl, fun _ => rfl, fun _ => rfl⟩

theorem mapBarriers (q : Nat) (s : State) (f : List (Nat × Nat) → List (Nat × Nat)) : RingKept q s (s.mapBarriers f) :=
  ⟨State.get_of_regs rfl .., State.get_of_regs rfl .., State.get_of_regs rfl .., fun _ h => h, rfl, fun _ => by
    rw [State.ringX_mapBarriers], fun _ => by rw [State.ringX_mapBarriers]⟩

theorem recordFail (q : Nat) (s : State) (p : Nat) (hb : s.busMaster = false) : RingKept q s (s.recordFail p) := by
  have hreg : (s.recordFail p).regs = ((s.hwSet F.ringStatusDmaErr p 0).set F.ringStatusState p 0 0).regs := rfl
  have hout : (s.recordFail p).out = (s.hwSet F.ringStatusDmaErr p 0).out := rfl
  have hcmd : (s.recordFail p).host.pcie = (s.hwSet F.ringStatusDmaErr p 0).host.pcie := rfl
  refine ⟨?_, ?_, ?_, ?_, ?_, fun h => absurd (h.symm.trans hb) Bool.noConfusion,
    fun h => absurd (h.symm.trans hb) Bool.noConfusion⟩
  · rw [State.get_of_regs hreg]; simp (disch := decide)
  · rw [State.get_of_regs hreg]; simp (disch := decide)
  · rw [State.get_of_regs hreg]; simp (disch := decide)
  · rw [hout, State.hwSet_out]; exact fun _ h => h
  · unfold State.busMaster
    rw [hcmd, State.hwSet_host]

theorem prodSet (q : Nat) (s : State) (p v : Nat) : RingKept q s (s.set F.ringIndexProd p 0 v) :=
  of_fields (by simp (disch := decide)) (by simp (disch := decide)) (by simp (disch := decide)) rfl rfl

theorem pushEntry (q : Nat) (s : State) (p : Nat) (ws : List Word) : RingKept q s (s.pushEntry p ws) := by
  unfold State.pushEntry
  dsimp only
  split
  · exact ((emit q s _).trans (prodSet ..)).trans (wroteEntry q _ p false)
  · exact recordFail q s p (Bool.eq_false_iff.2 ‹_›)

theorem reportLost (q : Nat) (s : State) (p : Nat) : RingKept q s (s.reportLost p) := by
  unfold State.reportLost
  dsimp only
  split
  · exact refl q s
  · exact (setRingX s p _ (fun h => h ▸ rfl) (fun h => h ▸ rfl)).trans (pushEntry ..)

theorem pushRecord (q : Nat) (s : State) (p : Nat) (ws : List Word) : RingKept q s (s.pushRecord p ws) := by
  unfold State.pushRecord
  dsimp only
  refine (reportLost q s p).trans ?_
  generalize s.reportLost p = t
  split
  · exact pushEntry ..
  · refine RingKept.trans (of_fields ?_ ?_ ?_ ?_ ?_) (setRingX _ p _ (fun h => h ▸ rfl) (fun h => h ▸ rfl))
    all_goals simp (disch := decide)

theorem post (q : Nat) (s : State) (code src detail : Nat) : RingKept q s (s.post code src detail) := by
  unfold State.post
  split
  · refine of_fields ?_ ?_ ?_ ?_ ?_
    all_goals simp (disch := decide)
  · exact foldl _ _ (fun t p => pushRecord q t p _) s

theorem namedRing (q : Nat) (s : State) (kind idx p ty : Nat) (self : Bool) : RingKept q s (s.namedRing kind idx p ty self).2 := by
  unfold State.namedRing
  split
  · exact refl q s
  · split
    · exact refl q s
    · exact (reported q s _).trans (post ..)

theorem drained (q : Nat) (s : State) (p : Nat) : RingKept q s (s.drained p) := by
  unfold State.drained
  split
  · refine of_fields ?_ ?_ ?_ rfl rfl
    all_goals simp (disch := decide)
  · exact refl q s

theorem writeOwnRecord (q : Nat) (s : State) (p : Nat) : RingKept q s (s.writeOwnRecord p) := by
  unfold State.writeOwnRecord
  split
  · exact refl q s
  · dsimp only
    split
    · next t h =>
      have ht : RingKept q s t := by simpa only [h] using namedRing q s 1 p (s.get F.ringCfgPair p) 1 (decide (s.get F.ringCfgPair p = p))
      split
      · exact ht.trans ((pushEntry ..).trans ((setRingX _ p _ (fun h => h ▸ rfl) (fun h => h ▸ rfl)).trans (drained ..)))
      · exact ht
    · next t h =>
      simpa only [h] using namedRing q s 1 p (s.get F.ringCfgPair p) 1 (decide (s.get F.ringCfgPair p = p))

theorem writeCompletion (q : Nat) (s : State) (p : Nat) : RingKept q s (s.writeCompletion p) :=
  (foldl _ _ (fun t r => writeOwnRecord q t r) s).trans (writeOwnRecord ..)

end RingKept

/-! ### Write-backs -/

/-- The completion record of a COMMAND ring's run waits; another ring has none (R314). -/
def State.awaitRecord (s : State) (q : Nat) (ty : Nat) (r : Run) (st : Nat) : State :=
  if ty = 0 then
    let v := s.setRingX q { (s.ringX q) with recWait := some ⟨bitsOf r.d.w0 0 8, st, bitsOf r.d.w0 32 32, r.d.idx, s.stamp⟩ }
    { v with host := { v.host with recOrder := (v.host.recOrder.filter fun p => decide (p ≠ q)) ++ [q] } }
  else s

theorem State.flushRuns_nil (s : State) (q : Nat) : s.flushRuns q [] = s.setRingX q { (s.ringX q) with running := [] } := rfl

theorem State.flushRuns_wait (s : State) (q : Nat) (r : Run) (rs : List Run) (h : r.done = none) :
    s.flushRuns q (r :: rs) = s.setRingX q { (s.ringX q) with running := r :: rs } := by
  simp [State.flushRuns, h]

theorem State.flushRuns_done (s : State) (q : Nat) (r : Run) (rs : List Run) (st : Nat) (w1 w2 w3 : Word) (h : r.done = some (st, w1,
  w2, w3)) :
    s.flushRuns q (r :: rs) = ((s.writeBack q r.d st w1 w2 w3).awaitRecord q (s.get F.ringCfgType q) r st).flushRuns q rs := by
  simp only [State.flushRuns, h]
  rfl

theorem RingKept.awaitRecord (q : Nat) (s : State) (p ty : Nat) (r : Run) (st : Nat) : RingKept q s (s.awaitRecord p ty r st) := by
  unfold State.awaitRecord
  split
  · refine (RingKept.setRingX s p _ (fun h => ?_) fun h => ?_).trans ⟨State.get_of_regs rfl .., State.get_of_regs rfl ..,
    State.get_of_regs rfl ..,
      fun _ h => h, rfl, fun _ => rfl, fun _ => rfl⟩
    · rw [h]
    · rw [h]
  · exact .refl q s

/-- A ring's part with nothing left of what it executes is stored: CONS and the outputs stand. -/
theorem State.flushRuns_nil_cons (s : State) (q : Nat) : (s.flushRuns q []).get F.ringIndexCons q = s.get F.ringIndexCons q :=
  State.get_of_regs rfl ..

theorem State.writeBack_cons (s : State) (q : Nat) (d : Desc) (st : Nat) (w1 w2 w3 : Word) :
    (s.writeBack q d st w1 w2 w3).get F.ringIndexCons q = (d.idx + 1) % s.ringSize q % 2 ^ F.ringIndexCons.width := by
  unfold State.writeBack
  dsimp only
  rw [(RingKept.mapBarriers q _ _).cons, (RingKept.wroteEntry q _ q _).cons, State.get_set_self _ _ _ _ _ (by decide)]

theorem State.writeBack_out (s : State) (q : Nat) (d : Desc) (st : Nat) (w1 w2 w3 : Word) :
    Output.hostWrite (s.ringAddr q d.idx) [withBits (withBits d.w0 16 8 st) 24 1 1, w1, w2,
      w3] ∈ (s.writeBack q d st w1 w2 w3).out := by
  unfold State.writeBack
  refine ((RingKept.wroteEntry q _ q _).trans (.mapBarriers ..)).out ?_
  rw [State.set_out]
  exact List.mem_append_right _ List.mem_cons_self

theorem State.writeBack_master (s : State) (q : Nat) (d : Desc) (st : Nat) (w1 w2 w3 : Word) :
    (s.writeBack q d st w1 w2 w3).busMaster = s.busMaster := by
  unfold State.writeBack
  dsimp only
  generalize Output.hostWrite _ _ = o
  generalize _ % s.ringSize q = v
  have h : ((s.emit o).set F.ringIndexCons q 0 v).busMaster = s.busMaster :=
    (State.busMaster_of_host (State.set_host ..)).trans (RingKept.emit q s o).master
  exact ((RingKept.wroteEntry q _ q _).trans (.mapBarriers ..)).master.trans h

theorem RingKept.consSet {q p : Nat} (s : State) (hp : p ≠ q) (v : Nat) : RingKept q s (s.set F.ringIndexCons p 0 v) :=
  of_fields (State.get_set_ne s F.ringIndexCons F.ringIndexCons p 0 v q 0 (by decide) (.inr (.inl hp)))
    (by simp (disch := decide)) (by simp (disch := decide)) (State.set_out ..) (State.set_host ..)

theorem RingKept.writeBack {q p : Nat} (s : State) (hp : p ≠ q) (d : Desc) (st : Nat) (w1 w2 w3 : Word) :
    RingKept q s (s.writeBack p d st w1 w2 w3) := by
  unfold State.writeBack
  dsimp only
  generalize Output.hostWrite _ _ = o
  generalize _ % s.ringSize p = v
  have h := (RingKept.emit q s o).trans (.consSet _ hp v)
  generalize (s.emit o).set F.ringIndexCons p 0 v = t at h ⊢
  exact (h.trans (.wroteEntry q t p _)).trans (.mapBarriers q _ _)

theorem RingKept.flushRuns {q p : Nat} (hp : p ≠ q) (l : List Run) (s : State) : RingKept q s (s.flushRuns p l) := by
  induction l generalizing s with
  | nil => exact .setRingX s p _ (fun h => absurd h.symm hp) fun h => absurd h.symm hp
  | cons r rs ih =>
    rcases hr : r.done with _ | ⟨st, w1, w2, w3⟩
    · rw [State.flushRuns_wait _ _ _ _ hr]
      exact .setRingX s p _ (fun h => absurd h.symm hp) fun h => absurd h.symm hp
    · rw [State.flushRuns_done _ _ _ _ _ _ _ _ hr]
      exact ((RingKept.writeBack s hp ..).trans (.awaitRecord ..)).trans (ih _)

/-- The end of a run on another ring, or on a ring that executes nothing. -/
theorem RingKept.endRun {q : Nat} (s : State) (hb : s.busMaster = true) (p i st : Nat) (w1 w2 w3 : Word)
    (hp : p = q → (s.ringX q).running = []) : RingKept q s (s.endRun p i st w1 w2 w3) := by
  unfold State.endRun
  rw [if_pos hb]
  refine RingKept.trans ?_ ((RingKept.writeCompletion ..).trans (.drained ..))
  by_cases h : p = q
  · rw [h, hp h]
    exact .setRingX s q _ (fun _ => (hp h).symm) fun _ => rfl
  · exact .flushRuns h _ s

theorem RingKept.releaseBarriers {q : Nat} {s : State} (hb : s.busMaster = true) (hr : (s.ringX q).running = []) :
    RingKept q s s.releaseBarriers := by
  have hfold (l : List (Nat × Desc)) (t : State) (ht : t.busMaster = true) (hn : (t.ringX q).running = []) :
      RingKept q t (l.foldl (fun t e =>
        (t.setRingX e.1 { (t.ringX e.1) with barrier := none }).endRun e.1 e.2.idx 0 e.2.w1 e.2.w2 e.2.w3) t) := by
    induction l generalizing t with
    | nil => exact .refl q t
    | cons e l ih =>
      have h1 : RingKept q t (t.setRingX e.1 { (t.ringX e.1) with barrier := none }) := .setRingX t e.1 _ (fun h => h ▸ rfl) fun h => h ▸ rfl
      have h2 := h1.trans (.endRun _ (h1.master.trans ht) e.1 e.2.idx 0 e.2.w1 e.2.w2 e.2.w3 fun _ => (h1.runs ht).trans hn)
      exact h2.trans (ih _ (h2.master.trans ht) ((h2.runs ht).trans hn))
  exact hfold _ s hb hr

/-- What a descriptor that is written back leaves is kept by what leaves its ring alone. -/
theorem WrittenBack.kept {s t u : State} {q : Nat} {d : Desc} {st : Nat} {w1 w2 w3 : Word} (h : WrittenBack s t q d st w1 w2 w3)
    (hb : t.busMaster = true) (hk : RingKept q t u) : WrittenBack s u q d st w1 w2 w3 :=
  ⟨hk.out h.1, (hk.runs hb).trans h.2.1, hk.cons.trans h.2.2⟩

theorem State.endRun_writtenBack {s : State} {q : Nat} {d : Desc} (hb : s.busMaster = true) (hrun : (s.ringX q).running = [⟨d, none⟩])
    (st : Nat) (w1 w2 w3 : Word) : WrittenBack s (s.endRun q d.idx st w1 w2 w3) q d st w1 w2 w3
      ∧ (s.endRun q d.idx st w1 w2 w3).busMaster = true := by
  have hd : markDone d.idx st w1 w2 w3 [⟨d, none⟩] = [⟨d, some (st, w1, w2, w3)⟩] := by simp [markDone]
  unfold State.endRun
  rw [if_pos hb, hrun, hd, State.flushRuns_done _ _ _ _ _ _ _ _ rfl]
  have hw := RingKept.awaitRecord q (s.writeBack q d st w1 w2 w3) q (s.get F.ringCfgType q) ⟨d, some (st, w1, w2, w3)⟩ st
  have hm : ((s.writeBack q d st w1 w2 w3).awaitRecord q (s.get F.ringCfgType q) ⟨d, some (st, w1, w2, w3)⟩ st).busMaster = true :=
    hw.master.trans ((s.writeBack_master ..).trans hb)
  have hcons := hw.cons.trans (s.writeBack_cons q d st w1 w2 w3)
  have hout := hw.out (s.writeBack_out q d st w1 w2 w3)
  generalize (s.writeBack q d st w1 w2 w3).awaitRecord _ _ _ _ = v at hm hcons hout ⊢
  have hv : WrittenBack s (v.flushRuns q []) q d st w1 w2 w3 :=
    ⟨hout, by rw [State.flushRuns_nil, State.ringX_setRingX, if_pos rfl], (v.flushRuns_nil_cons q).trans hcons⟩
  have hk := (RingKept.writeCompletion q (v.flushRuns q []) q).trans (.drained q _ q)
  exact ⟨WrittenBack.kept hv hm hk, hk.master.trans hm⟩

/-- A descriptor that is all its ring executes is written back where it completes (R310, R311). -/
theorem State.complete_writtenBack {s : State} {q g : Nat} {d : Desc} (hb : s.busMaster = true)
    (hrun : (s.ringX q).running = [⟨d, none⟩]) (hg : (s.ringX q).gen = g) (st : Nat) (w1 w2 w3 : Word) :
    WrittenBack s (s.complete ⟨q, g, d.idx⟩ st w1 w2 w3) q d st w1 w2 w3 := by
  unfold State.complete
  rw [if_pos hg]
  have h := State.endRun_writtenBack hb hrun st w1 w2 w3
  exact WrittenBack.kept h.1 h.2 (.releaseBarriers h.2 h.1.2.1)

theorem State.runDesc_running {s : State} {q g : Nat} {d : Desc} (hrun : (s.ringX q).running = [⟨d,
  none⟩]) (hg : (s.ringX q).gen = g) :
    s.runDesc ⟨q, g, d.idx⟩ = some d := by
  simp [State.runDesc, hg, hrun]

theorem State.completeSame_writtenBack {s : State} {q g : Nat} {d : Desc} (hb : s.busMaster = true)
    (hrun : (s.ringX q).running = [⟨d, none⟩]) (hg : (s.ringX q).gen = g) (st : Nat) :
    WrittenBack s (s.completeSame ⟨q, g, d.idx⟩ st) q d st d.w1 d.w2 d.w3 := by
  unfold State.completeSame
  rw [State.runDesc_running hrun hg]
  exact State.complete_writtenBack hb hrun hg st d.w1 d.w2 d.w3

/-! ### Descriptors that begin -/

/-- What a descriptor's begin says of the ring and of the state in which it executes (R313). -/
structure Begins (s : State) (q : Nat) (d : Desc) (tok : Token) (t : State) : Prop where
  token : tok = ⟨q, (s.ringX q).gen, d.idx⟩
  fetched : ∃ ds, (s.ringX q).fetched = d :: ds ∧ t = s.setRingX q { (s.ringX q) with
    fetched := ds, running := (s.ringX q).running ++ [⟨d, none⟩] }

theorem State.begins {s : State} {q ty : Nat} {d : Desc} {tok : Token} {t : State} (h : s.begin q ty = some (d, tok, t)) :
    Begins s q d tok t ∧ s.get F.ringStatusState q = 1 ∧ s.get F.ringCfgType q = ty ∧ (ty = 0 → (s.ringX q).running = []
      ∧ (s.ringX q).recWait = none) := by
  unfold State.begin at h
  dsimp only at h
  split at h
  · cases h
  · next d' ds hf =>
    split at h
    · next hc =>
      obtain ⟨he, hty, hr⟩ := hc
      cases h
      exact ⟨⟨rfl, ds, hf, rfl⟩, of_decide_eq_true he, hty, fun h0 => ((hr.resolve_left (absurd h0)).imp_right And.left)⟩
    · cases h

theorem State.beginCommand_begins {s : State} {q op : Nat} {d : Desc} {tok : Token} {t : State}
    (h : s.beginCommand q op = some (d, tok, t)) : Begins s q d tok t ∧ s.get F.ringStatusState q = 1 ∧ s.get F.ringCfgType q = 0
      ∧ (s.ringX q).running = [] ∧ (s.ringX q).recWait = none ∧ bitsOf d.w0 0 8 = op := by
  unfold State.beginCommand at h
  split at h
  · cases h
  · next d' ds hf =>
    split at h
    · next ho =>
      obtain ⟨hb, he, hty, hr⟩ := State.begins h
      obtain ⟨ds', hf', -⟩ := hb.fetched
      obtain rfl : d' = d := (List.cons.inj (hf.symm.trans hf')).1
      exact ⟨hb, he, hty, (hr rfl).1, (hr rfl).2, ho⟩
    · cases h

namespace Begins
variable {s t : State} {q : Nat} {d : Desc} {tok : Token}

theorem only (h : Begins s q d tok t) : Only (2 ^ 251) s t := by
  obtain ⟨-, ds, -, rfl⟩ := h
  exact State.setRingX_within ..

theorem running (h : Begins s q d tok t) (hr : (s.ringX q).running = []) : (t.ringX q).running = [⟨d, none⟩] := by
  obtain ⟨-, ds, -, rfl⟩ := h
  rw [State.ringX_setRingX, if_pos rfl, hr]
  rfl

theorem gen (h : Begins s q d tok t) : (t.ringX q).gen = (s.ringX q).gen := by
  obtain ⟨-, ds, -, rfl⟩ := h
  rw [State.ringX_setRingX, if_pos rfl]

theorem master (h : Begins s q d tok t) : t.busMaster = s.busMaster := by
  obtain ⟨-, ds, -, rfl⟩ := h
  rfl

end Begins

end Sys2Proof.Machine
end

