-- ==== Sys2Proof/Proofs/Commands.lean ====
section
/-!
PROOFS. Commands.lean: doorbells (R302, R303), and the commands that end where they begin: unknown opcodes, NOP, TABLE_LOAD and
BARRIER (R313 to R320); from these O32, O34 and O35.
-/
namespace Sys2Proof.Machine
set_option Elab.async false

/-! ### Beginning a command -/

theorem State.command_begins {s : State} {q op : Nat} {d : Desc} {tok : Token} {t : State} (h : s.beginCommand q op = some (d, tok, t))
    (f : Desc → Token → State → State) : s.command q op f = .next (f d tok t) := by
  unfold State.command
  rw [h]

/-- Where the addresses of the ring are the same, so is the write-back. -/
theorem WrittenBack.of_regs {N : Nat} {s t r : State} {q : Nat} {d : Desc} {st : Nat} {w1 w2 w3 : Word} (h : Only N s t)
    (hb : N.testBit RegName.ringBase.ctorIdx = false) (hc : N.testBit RegName.ringCfg.ctorIdx = false)
    (hw : WrittenBack t r q d st w1 w2 w3) : WrittenBack s r q d st w1 w2 w3 := by
  have hsize : t.ringSize q = s.ringSize q := congrArg (2 ^ ·) (h.get F.ringCfgSize q 0 hc)
  have haddr : t.ringAddr q d.idx = s.ringAddr q d.idx := by
    unfold State.ringAddr State.ringEntry
    rw [h.get F.ringBaseAddress q 0 hb, h.get F.ringCfgType q 0 hc]
  unfold WrittenBack at hw ⊢
  rwa [hsize, haddr] at hw

/-- A command that completes with its own words in the tick in which it begins. -/
theorem Begins.completeSame {s t : State} {q : Nat} {d : Desc} {tok : Token} (h : Begins s q d tok t) (hr : (s.ringX q).running = [])
    (hb : s.busMaster = true) (st : Nat) : WrittenBack s (t.completeSame tok st) q d st d.w1 d.w2 d.w3 := by
  rw [h.token]
  exact WrittenBack.of_regs h.only (by decide) (by decide) (State.completeSame_writtenBack (h.master.trans hb) (h.running hr) h.gen st)

/-- A command that completes in the tick in which it begins. -/
theorem Begins.complete {s t : State} {q : Nat} {d : Desc} {tok : Token} (h : Begins s q d tok t) (hr : (s.ringX q).running = [])
    (hb : s.busMaster = true) (st : Nat) (w1 w2 w3 : Word) : WrittenBack s (t.complete tok st w1 w2 w3) q d st w1 w2 w3 := by
  rw [h.token]
  exact WrittenBack.of_regs h.only (by decide) (by decide) (State.complete_writtenBack (h.master.trans hb) (h.running hr) h.gen st w1 w2 w3)

/-! ### Unknown opcodes (R315) -/

theorem execUnsupportedOpcode_begins {s : State} {q op : Nat} {d : Desc} {tok : Token} {t : State}
    (h : s.beginCommand q op = some (d, tok, t)) (ho : 0x0D ≤ op) : exec (.unsupportedOpcode q) s = .next (t.completeSame tok 1) := by
  obtain ⟨hb, -, -, -, -, rfl⟩ := State.beginCommand_begins h
  obtain ⟨ds, hf, -⟩ := hb.fetched
  show execUnsupportedOpcode q s = _
  unfold execUnsupportedOpcode
  rw [hf]
  dsimp only
  rw [if_neg (Nat.not_lt.2 ho), State.command_begins h]

/-- Settles O34: the descriptor begins alone on its ring and completes in the same tick with its own words. -/
theorem unknownOpcodes : Obligations.UnknownOpcodes := by
  intro q op d tok s t h ho hm
  obtain ⟨hb, -, -, hr, -⟩ := State.beginCommand_begins h
  exact .intro (execUnsupportedOpcode_begins h ho) (hb.completeSame hr hm 1)

/-! ### Doorbells (R302, R303) -/

theorem RingKept.askDescriptors (q : Nat) (s : State) (p i n : Nat) : RingKept q s (s.askDescriptors p i n) := by
  induction n generalizing s i with
  | zero => exact .refl q s
  | succ n ih => exact (RingKept.emit q s _).trans (ih _ _)

theorem State.askDescriptors_get (s : State) (p i n : Nat) (f : Fld) (a b : Nat) :
    (s.askDescriptors p i n).get f a b = s.get f a b := by
  induction n generalizing s i with
  | zero => rfl
  | succ n ih => exact (ih _ _).trans (s.get_emit ..)

theorem State.doorbell_alone {s : State} {q v : Nat} (ha : Alone s (.ring q)) :
    s.doorbell q v = if s.ringEnabled q = false then s
      else
        let t := s.note ⟨.ring q, 5, srcRank (.host q), 1⟩
        if t.ringSize q - 1 < v % 65536 then (t.hwSet F.ringStatusDbClamped q 0).ringDoorbell q (t.ringSize q - 1)
        else t.ringDoorbell q (v % 65536) := by
  unfold State.doorbell
  rw [State.judge_alone ha, State.decideEvent_alone ha]

/-- What a doorbell finds on a ring: its size, PROD and CONS, and the indices at the start of the tick. -/
structure RingIndices (t : State) (q n p c : Nat) : Prop where
  size : t.ringSize q = n
  prod : t.get F.ringIndexProd q = p
  cons : t.get F.ringIndexCons q = c
  startProd : t.startProd q = p
  startCons : t.startCons q = c

theorem State.reportLost_nothing {s : State} {q : Nat} (h : (s.ringX q).lost = 0) : s.reportLost q = s := by
  unfold State.reportLost
  dsimp only
  rw [if_pos (.inl h)]

theorem RingIndices.note {s : State} {q n p c : Nat} (h : RingIndices s q n p c) (e : TickEvent) : RingIndices (s.note e) q n p c := by
  obtain ⟨hn, hp, hc, hsp, hsc⟩ := h
  unfold State.startProd at hsp
  unfold State.startCons at hsc
  unfold State.ringSize at hn
  refine ⟨?_, (State.note_get ..).trans hp, (State.note_get ..).trans hc, ?_, ?_⟩
  · unfold State.ringSize
    rw [State.note_get, hn]
  · unfold State.startProd
    rw [State.before_of_startOfTick (State.note_startOfTick ..), hsp]
  · unfold State.startCons
    rw [State.before_of_startOfTick (State.note_startOfTick ..), hsc]

section
variable {t : State} {q n p c : Nat} (h : RingIndices t q n p c) (i : Nat)
include h

theorem RingIndices.announce (hp : hostProduced (t.get F.ringCfgType q) = true) (hfit : (p + n - c) % n + (i + n - p) % n ≤ n - 1) :
    ∃ k m, t.ringDoorbell q i = (t.set F.ringIndexProd q 0 i).askDescriptors q k m := by
  unfold State.ringDoorbell
  dsimp only
  rw [if_pos hp, h.size, h.startProd, h.cons, if_neg (Nat.not_lt.2 hfit)]
  exact ⟨_, _, rfl⟩

theorem RingIndices.announce_overrun (hp : hostProduced (t.get F.ringCfgType q) = true)
    (hfit : n - 1 < (p + n - c) % n + (i + n - p) % n) : t.ringDoorbell q i = t.dbOverrun q i := by
  unfold State.ringDoorbell
  dsimp only
  rw [if_pos hp, h.size, h.startProd, h.cons, if_pos hfit]

theorem RingIndices.consume (hp : hostProduced (t.get F.ringCfgType q) = false) (hfit : (i + n - c) % n ≤ (p + n - c) % n) :
    t.ringDoorbell q i = (t.set F.ringIndexCons q 0 i).reportLost q := by
  unfold State.ringDoorbell
  dsimp only
  rw [if_neg (by rw [hp]; exact Bool.false_ne_true), h.size, h.startCons, h.prod, if_neg (Nat.not_lt.2 hfit)]

theorem RingIndices.consume_overrun (hp : hostProduced (t.get F.ringCfgType q) = false) (hfit : (p + n - c) % n < (i + n - c) % n) :
    t.ringDoorbell q i = t.dbOverrun q i := by
  unfold State.ringDoorbell
  dsimp only
  rw [if_neg (by rw [hp]; exact Bool.false_ne_true), h.size, h.startCons, h.prod, if_pos hfit]

end

theorem State.dbOverrun_bit {t : State} {q i : Nat} (hu : Unclear t F.ringStatusDbOverrun q 0) :
    (t.dbOverrun q i).get F.ringStatusDbOverrun q = 1 := by
  unfold State.dbOverrun
  rw [(RingKept.post q _ _ _ _).overrun, State.get_hwSet _ _ _ _ hu (by decide) (by decide)]

theorem State.dbOverrun_cons (t : State) (q i : Nat) : (t.dbOverrun q i).get F.ringIndexCons q = t.get F.ringIndexCons q := by
  unfold State.dbOverrun
  rw [(RingKept.post q _ _ _ _).cons]
  simp (disch := decide)

theorem RingKept.clamped_dbOverrun (t : State) (q i : Nat) :
    (t.dbOverrun q i).get F.ringStatusDbClamped q = t.get F.ringStatusDbClamped q := by
  unfold State.dbOverrun
  rw [(RingKept.post q _ _ _ _).clamped]
  simp (disch := decide)

/-- A clamped doorbell leaves the bit that says so. -/
theorem State.ringDoorbell_clamped (t : State) (q i : Nat) :
    (t.ringDoorbell q i).get F.ringStatusDbClamped q = t.get F.ringStatusDbClamped q := by
  unfold State.ringDoorbell
  dsimp only
  split <;> split
  · exact RingKept.clamped_dbOverrun ..
  · rw [(RingKept.askDescriptors q _ q _ _).clamped]
    simp (disch := decide)
  · exact RingKept.clamped_dbOverrun ..
  · rw [(RingKept.reportLost q _ q).clamped]
    simp (disch := decide)

/-! #### Records of other rings leave PROD -/

theorem State.pushEntry_prod {s : State} {q p : Nat} (hp : p ≠ q) (ws : List Word) :
    (s.pushEntry p ws).get F.ringIndexProd q = s.get F.ringIndexProd q := by
  unfold State.pushEntry
  dsimp only
  split
  · exact (State.get_of_regs rfl ..).trans (State.get_set_ne (s.emit _) F.ringIndexProd F.ringIndexProd p 0 _ q 0 (by decide) (.inr (.inl hp)))
  · have hreg : (s.recordFail p).regs = ((s.hwSet F.ringStatusDmaErr p 0).set F.ringStatusState p 0 0).regs := rfl
    rw [State.get_of_regs hreg]
    simp (disch := decide)

theorem State.pushRecord_prod {s : State} {q p : Nat} (hp : p ≠ q) (ws : List Word) :
    (s.pushRecord p ws).get F.ringIndexProd q = s.get F.ringIndexProd q := by
  have hl : (s.reportLost p).get F.ringIndexProd q = s.get F.ringIndexProd q := by
    unfold State.reportLost
    dsimp only
    split
    · rfl
    · exact (State.pushEntry_prod hp _).trans (State.get_of_regs rfl ..)
  unfold State.pushRecord
  dsimp only
  split
  · exact (State.pushEntry_prod hp _).trans hl
  · refine (State.get_of_regs rfl ..).trans ?_
    simp (disch := decide) [hl]

/-- An event record changes no PROD but that of EVENT rings. -/
theorem State.post_prod {s : State} {q : Nat} (hq : s.get F.ringCfgType q ≠ 2) (code src detail : Nat) :
    (s.post code src detail).get F.ringIndexProd q = s.get F.ringIndexProd q := by
  have hfold (l : List Nat) (t : State) (ws : List Word) (hl : ∀ p ∈ l, p ≠ q) :
      (l.foldl (fun t p => t.pushRecord p ws) t).get F.ringIndexProd q = t.get F.ringIndexProd q := by
    induction l generalizing t with
    | nil => rfl
    | cons p l ih =>
      exact (ih _ fun x hx => hl x (List.mem_cons_of_mem _ hx)).trans (State.pushRecord_prod (hl p List.mem_cons_self) ws)
  unfold State.post
  split
  · simp (disch := decide)
  · refine hfold _ s _ fun p hp he => hq ?_
    obtain ⟨-, hp⟩ := List.mem_filter.1 hp
    simp only [Bool.and_eq_true, beq_iff_eq] at hp
    exact he ▸ hp.1.2

/-- Settles O32: alone in its tick, a doorbell acts on the indices at the tick's start, which are those of the ring as it is. -/
theorem doorbells : Obligations.Doorbells := by
  intro q i n p c v s ha hi hn hp hc hsp hsc
  have hnote : RingIndices (s.note ⟨.ring q, 5, srcRank (.host q), 1⟩) q n p c :=
    .note ⟨hn.symm, hp.symm, hc.symm, hsp, hsc⟩ _
  have hunclear {f : Fld} (hf : f.reg ≠ .clkPrecStats) (hu : Unclear s f q 0) : Unclear (s.note ⟨.ring q, 5, srcRank (.host q),
    1⟩) f q 0 :=
    (State.note_only _ (Only.refl (2 ^ 242) s) (by decide)).unclear hu (by decide) (by decide) (by decide) (by decide)
      (State.decider_note_ne _ (by simp))
  have hty := State.note_get s ⟨.ring q, 5, srcRank (.host q), 1⟩ F.ringCfgType q 0
  have hlost : ((s.note ⟨.ring q, 5, srcRank (.host q), 1⟩).ringX q).lost = (s.ringX q).lost := by
    unfold State.ringX
    rw [State.note_host]
  have hdb := State.doorbell_alone (v := v.toNat) ha
  generalize s.note ⟨.ring q, 5, srcRank (.host q), 1⟩ = t at hnote hunclear hty hlost hdb
  dsimp only at hdb
  rw [← hi, hnote.size] at hdb
  have hex : exec (.doorbell q v) s = .next (s.doorbell q v.toNat) := rfl
  have hi16 : i < 2 ^ 16 := by omega
  have hpos : 0 < n := by
    rw [hn]
    exact Nat.two_pow_pos _
  have hon (he : s.get F.ringStatusState q = 1) (hlt : i < n) : s.doorbell q v.toNat = t.ringDoorbell q i := by
    rw [hdb, if_neg (by simp [State.ringEnabled, he]), if_neg (by omega)]
  refine ⟨fun he => .intro hex ?_, fun he hlt hh hfit => .intro hex ?_, fun he hlt hh hfit => .intro hex ?_,
    fun he hlt hh hfit hu => .intro hex ?_, fun he hlt hh hfit hu => .intro hex ?_, fun he hge hu => .intro hex ?_⟩
  · rw [hdb, if_pos (by simp [State.ringEnabled, he])]
  · obtain ⟨k, m, hk⟩ := hnote.announce i (hty ▸ hh) hfit
    rw [hon he hlt, hk, State.askDescriptors_get, State.askDescriptors_get, State.get_set_self _ _ _ _ _ (by decide),
      State.get_set_apart _ _ _ _ _ _ _ _ (by decide) (by decide), hnote.cons]
    exact ⟨Nat.mod_eq_of_lt hi16, rfl⟩
  · rw [hon he hlt, hnote.consume i (hty ▸ hh) hfit, (RingKept.reportLost q _ q).cons, State.get_set_self _ _ _ _ _ (by decide)]
    refine ⟨Nat.mod_eq_of_lt hi16, fun hl => ?_⟩
    rw [State.reportLost_nothing (by
      unfold State.ringX at hl hlost ⊢
      rw [State.set_host, hlost, hl]), State.get_set_apart _ _ _ _ _ _ _ _ (by decide) (by decide), hnote.prod]
  · rw [hon he hlt, hnote.consume_overrun i (hty ▸ hh) hfit]
    exact ⟨State.dbOverrun_bit (hunclear (by decide) hu), (State.dbOverrun_cons ..).trans hnote.cons⟩
  · rw [hon he hlt, hnote.announce_overrun i (hty ▸ hh) hfit]
    refine ⟨State.dbOverrun_bit (hunclear (by decide) hu), ?_⟩
    unfold State.dbOverrun
    rw [State.post_prod (by
      simp (disch := decide) only [State.get_hwSet_reg, hty]
      exact fun h2 => by simp [h2, hostProduced] at hh)]
    simp (disch := decide) [hnote.prod]
  · rw [hdb, if_neg (by simp [State.ringEnabled, he]), if_pos (by omega), State.ringDoorbell_clamped,
      State.get_hwSet _ _ _ _ (hunclear (by decide) hu) (by decide) (by decide)]

/-! ### Barriers (R320) -/

theorem Assoc.filterMap_put {K V W : Type} [DecidableEq K] (lt : K → K → Bool) (k : K) (v : V) (g : K × V → Option W) {l : List (K × V)}
    (h : ∀ e ∈ l, g e = none) : (Assoc.put lt k v l).filterMap g = (g (k, v)).toList := by
  have hnone {m : List (K × V)} (hm : ∀ e ∈ m, g e = none) : m.filterMap g = [] := List.filterMap_eq_nil_iff.2 hm
  induction l with
  | nil => cases hg : g (k, v) <;> simp [Assoc.put, hg]
  | cons e l ih =>
    obtain ⟨he, hl⟩ := List.forall_mem_cons.1 h
    unfold Assoc.put
    split
    · cases hg : g (k, v) <;> simp [hg, hnone hl]
    · split
      · cases hg : g (k, v) <;> simp [hg, he, hnone hl]
      · rw [List.filterMap_cons_none he, ih hl]

theorem NoBarrier.ringX {s : State} (h : NoBarrier s) (q : Nat) : (s.ringX q).barrier = none := by
  have hfind (l : List (Nat × RingX)) (hl : ∀ e ∈ l, e.2.barrier = none) : (Assoc.rd (fun _ => ({} : RingX)) l q).barrier = none := by
    induction l with
    | nil => rfl
    | cons e l ih =>
      obtain ⟨he, hl⟩ := List.forall_mem_cons.1 hl
      by_cases hq : e.1 = q
      · simp [Assoc.rd, Assoc.find, hq, he]
      · simpa [Assoc.rd, Assoc.find, hq] using ih hl
  exact hfind _ h

theorem NoBarrier.of_host {s t : State} (h : NoBarrier s) (hh : t.host.rings = s.host.rings) : NoBarrier t := by
  unfold NoBarrier
  rwa [hh]

theorem NoBarrier.setRingX {s : State} (h : NoBarrier s) (q : Nat) {x : RingX} (hx : x.barrier = none) : NoBarrier (s.setRingX q x) := by
  intro e he
  by_contra hb
  have hg : ((s.setRingX q x).host.rings.filterMap fun e => e.2.barrier) ≠ [] := fun hn =>
    hb (List.filterMap_eq_nil_iff.1 hn e he)
  refine hg ?_
  show (Assoc.wr natLt (fun _ => ({} : RingX)) s.host.rings q x).filterMap _ = []
  unfold Assoc.wr
  split
  · exact List.filterMap_eq_nil_iff.2 fun e he => h e (Assoc.mem_drop _ _ _ he)
  · rw [Assoc.filterMap_put _ _ _ _ h]
    simp [hx]

theorem NoBarrier.mapBarriers {s : State} (h : NoBarrier s) (f : List (Nat × Nat) → List (Nat × Nat)) : NoBarrier (s.mapBarriers f) := by
  intro e he
  obtain ⟨a, ha, rfl⟩ := List.mem_map.1 he
  simp [h a ha]

theorem NoBarrier.freeBarriers {s : State} (h : NoBarrier s) : s.freeBarriers = [] :=
  List.filterMap_eq_nil_iff.2 fun e he => by simp [h e he]

theorem NoBarrier.releaseBarriers {s : State} (h : NoBarrier s) : s.releaseBarriers = s := by
  unfold State.releaseBarriers
  rw [NoBarrier.freeBarriers h]
  rfl

/-- With no other ring at a barrier, the one that reaches its barrier is the only one that can be free. -/
theorem State.freeBarriers_one {s : State} (h : NoBarrier s) (q : Nat) {x : RingX} {l : List (Nat × Nat)} {r : Run} {rs : List Run}
    (hx : x.barrier = some l) (hr : x.running = r :: rs) :
    (s.setRingX q x).freeBarriers = if l.all (fun x => x.2 == 0) then [(q, r.d)] else [] := by
  have hne : x ≠ {} := fun he => by simp [he] at hx
  show (Assoc.wr natLt (fun _ => ({} : RingX)) s.host.rings q x).filterMap _ = _
  unfold Assoc.wr
  rw [if_neg hne, Assoc.filterMap_put _ _ _ _ fun e he => by simp [h e he]]
  simp only [hx, hr]
  split <;> rfl

theorem mem_bitsBelow {n m k : Nat} : k ∈ bitsBelow n m ↔ k < n ∧ testBit m k = true := by
  simp [bitsBelow]

/-- The write-backs that a barrier waits for, by ring. -/
def State.owed (s : State) (q mask : Nat) : List (Nat × Nat) := (bitsBelow 64 mask).map fun r => (r, s.barrierCount q r)

theorem State.setRingX_endRun {u : State} {q : Nat} {d : Desc} {x : RingX} (hm : u.busMaster = true) (hx : x.running = [⟨d, none⟩]) :
    WrittenBack u ((u.setRingX q x).endRun q d.idx 0 d.w1 d.w2 d.w3) q d 0 d.w1 d.w2 d.w3 := by
  have hm' : (u.setRingX q x).busMaster = true := hm
  have hr : ((u.setRingX q x).ringX q).running = [⟨d, none⟩] := by rw [State.ringX_setRingX, if_pos rfl, hx]
  exact WrittenBack.of_regs (State.setRingX_within u q x) (by decide) (by decide) (State.endRun_writtenBack hm' hr 0 d.w1 d.w2 d.w3).1

section
variable {s t : State} {q : Nat} {d : Desc} {tok : Token} (h : Begins s q d tok t) (hr : (s.ringX q).running = []) (hn : NoBarrier s)
include h hr hn

omit hr in
theorem Begins.noBarrier : NoBarrier t := by
  obtain ⟨-, ds, -, rfl⟩ := h
  exact NoBarrier.setRingX hn q (NoBarrier.ringX hn q)

theorem Begins.hold (mask : Nat) : ∃ u : State,
  Only (2 ^ 251) s u ∧ NoBarrier u ∧ u.busMaster = s.busMaster ∧ (u.ringX q).running = [⟨d, none⟩]
    ∧ t.holdBarrier q mask = (u.setRingX q { (u.ringX q) with barrier := some (t.owed q mask) }).releaseBarriers := by
  have hk : RingKept q t (t.capBarriers q 0) := RingKept.mapBarriers q t _
  refine ⟨t.capBarriers q 0, h.only.step (State.capBarriers_within ..) (by decide), NoBarrier.mapBarriers (h.noBarrier hn) _,
    hk.master.trans h.master, ?_, rfl⟩
  unfold State.capBarriers
  rw [State.ringX_mapBarriers]
  exact h.running hr

/-- A barrier whose rings owe nothing completes where it begins. -/
theorem Begins.barrier_free (hb : s.busMaster = true) (mask : Nat) (hz : ∀ k < 64, testBit mask k = true → t.barrierCount q k = 0) :
    WrittenBack s (t.holdBarrier q mask) q d 0 d.w1 d.w2 d.w3 := by
  obtain ⟨u, ho, hu, hm, hrun, he⟩ := h.hold hr hn mask
  have hall : (t.owed q mask).all (fun x => x.2 == 0) = true := by
    rw [State.owed, List.all_map, List.all_eq_true]
    intro k hk
    obtain ⟨hk, hb⟩ := mem_bitsBelow.1 hk
    exact beq_iff_eq.2 (hz k hk hb)
  rw [he, State.releaseBarriers, State.freeBarriers_one hu q (x := { (u.ringX q) with barrier := some (t.owed q mask) }) rfl hrun,
    if_pos hall, List.foldl_cons, List.foldl_nil]
  have hv (x : RingX) (hx : x.running = [⟨d, none⟩]) : WrittenBack s (((u.setRingX q x).setRingX q { ((u.setRingX q x).ringX q) with
      barrier := none }).endRun q d.idx 0 d.w1 d.w2 d.w3) q d 0 d.w1 d.w2 d.w3 :=
    WrittenBack.of_regs (ho.step (State.setRingX_within ..) (by decide)) (by decide) (by decide)
      (State.setRingX_endRun (hm.trans hb) (by rw [State.ringX_setRingX, if_pos rfl]; exact hx))
  exact hv _ hrun

/-- A barrier that is owed a write-back waits for it. -/
theorem Begins.barrier_waits (mask k : Nat) (hk : k < 64) (hm : testBit mask k = true) (hz : t.barrierCount q k ≠ 0) :
    ((t.holdBarrier q mask).ringX q).running = [⟨d, none⟩]
      ∧ ((t.holdBarrier q mask).ringX q).barrier = some (t.owed q mask) := by
  obtain ⟨u, ho, hu, -, hrun, he⟩ := h.hold hr hn mask
  have hall : (t.owed q mask).all (fun x => x.2 == 0) = false := by
    rw [State.owed, List.all_map, List.all_eq_false]
    exact ⟨k, mem_bitsBelow.2 ⟨hk, hm⟩, by simpa using hz⟩
  rw [he, State.releaseBarriers, State.freeBarriers_one hu q (x := { (u.ringX q) with barrier := some (t.owed q mask) }) rfl hrun,
    if_neg (by simp [hall]), List.foldl_nil, State.ringX_setRingX,
    if_pos rfl]
  exact ⟨hrun, rfl⟩

end

/-! ### The commands (R316, R317, R320) -/

theorem execCmdTableLoad_known {s : State} {q tbl unit first n : Nat} {d : Desc} {tok : Token} {t : State}
    (h : s.beginCommand q 0x01 = some (d, tok, t)) (hf : tableFields d.w2 = (tbl, unit, first, n)) (hk : (tableShape tbl).1 ≠ 0) :
    exec (.cmdTableLoad q) s = .next (t.emit (.hostRead (hostAddr d.w1).toNat (n * (tableShape tbl).2 * 8))) := by
  show execCmdTableLoad q s = _
  unfold execCmdTableLoad
  rw [State.command_begins h]
  dsimp only
  rw [hf]
  dsimp only
  rw [if_neg hk]

theorem execCmdTableLoad_unknown {s : State} {q : Nat} {d : Desc} {tok : Token} {t : State}
    (h : s.beginCommand q 0x01 = some (d, tok, t)) (hk : (tableShape (bitsOf d.w2 0 8)).1 = 0) :
    exec (.cmdTableLoad q) s = .next (t.complete tok 1 (hostAddr d.w1) d.w2 d.w3) := by
  show execCmdTableLoad q s = _
  unfold execCmdTableLoad
  rw [State.command_begins h]
  dsimp only [tableFields]
  rw [if_pos hk]

theorem plainCommands : PlainCommands := by
  intro q op d tok s t h hm
  obtain ⟨hb, -, -, hr, -⟩ := State.beginCommand_begins h
  refine ⟨?_, ?_, ?_, ?_⟩
  · rintro rfl
    exact .intro (State.command_begins h _) (hb.completeSame hr hm 0)
  · rintro rfl hk
    exact .intro (execCmdTableLoad_unknown h hk) (hb.complete hr hm 1 _ _ _)
  · rintro tbl unit first n rfl hf hk
    refine .intro (execCmdTableLoad_known h hf hk) ⟨hb.running hr, ?_⟩
    exact congrArg (· ++ [_]) (hb.only.out (by decide))
  · rintro rfl hn
    refine .intro (State.command_begins h _) ⟨hb.barrier_free hr hn hm _, fun k hk hbit hz => ?_⟩
    obtain ⟨hrun, hbar⟩ := hb.barrier_waits hr hn d.w1.toNat k hk hbit hz
    exact ⟨hrun, _, hbar, List.mem_map.2 ⟨k, mem_bitsBelow.2 ⟨hk, hbit⟩, rfl⟩⟩

/-! ### The data of a TABLE_LOAD (R317) -/

theorem withBits_whole (v w : Word) : withBits v 0 64 (bitsOf w 0 64) = w := by
  apply BitVec.eq_of_toNat_eq
  have h : bitsOf w 0 64 = w.toNat := by
    unfold bitsOf
    rw [Nat.pow_zero, Nat.div_one, Nat.mod_eq_of_lt w.isLt]
  rw [withBits_toNat _ _ _ _ (by decide), h]
  have hw := w.isLt
  have hv := v.isLt
  simp only [Nat.zero_add, Nat.pow_zero, Nat.mod_one, Nat.mul_one, Nat.add_zero, Nat.div_eq_of_lt hv, Nat.zero_mul]
  exact Nat.mod_eq_of_lt hw

/-- An entry of the mask table is stored whole. -/
theorem State.rd_storeMask (s : State) (unit item : Nat) (w : Word) (k : RegKey) :
    (s.storeRw ⟨.seqMask, unit, item⟩ false w).rd k = if k = ⟨.seqMask, unit, item⟩ then w else s.rd k := by
  have hf : storeFields false w RegName.seqMask.desc.fields (s.rd ⟨.seqMask, unit, item⟩) = w := by
    show withBits (s.rd ⟨.seqMask, unit, item⟩) 0 64 (bitsOf w 0 64) = w
    exact withBits_whole ..
  unfold State.storeRw
  rw [State.rd_wr, hf]

theorem State.loadItem_mask (s : State) (unit item w : Nat) :
    s.loadItem 4 unit item [w] = s.storeRw ⟨.seqMask, unit, item⟩ false (BitVec.ofNat 64 w) := rfl

/-- The items of the mask table, from item `item` on, hold their words, and no other register is changed. -/
theorem State.loadItems_mask (s : State) (unit item n : Nat) (words : List Nat) (hn : n ≤ words.length) :
    (∀ i < n, (s.loadItems 4 unit 1 item n words).rd ⟨.seqMask, unit, item + i⟩ = BitVec.ofNat 64 (words.getD i 0))
      ∧ ∀ j < item, (s.loadItems 4 unit 1 item n words).rd ⟨.seqMask, unit, j⟩ = s.rd ⟨.seqMask, unit, j⟩ := by
  induction n generalizing s item words with
  | zero => exact ⟨fun i hi => absurd hi (Nat.not_lt_zero i), fun _ _ => rfl⟩
  | succ n ih =>
    obtain ⟨w, ws, rfl⟩ : ∃ w ws, words = w :: ws := List.exists_cons_of_length_pos (by omega)
    obtain ⟨hin, hout⟩ := ih (s.storeRw ⟨.seqMask, unit, item⟩ false (BitVec.ofNat 64 w)) (item + 1) ws (by simpa using hn)
    have he : s.loadItems 4 unit 1 item (n + 1) (w :: ws)
        = (s.storeRw ⟨.seqMask, unit, item⟩ false (BitVec.ofNat 64 w)).loadItems 4 unit 1 (item + 1) n ws := by
      rw [State.loadItems, if_neg (by simp), List.take_succ_cons, List.take_zero, State.loadItem_mask]
      rfl
    rw [he]
    refine ⟨fun i hi => ?_, fun j hj => ?_⟩
    · rcases i with _ | i
      · refine (hout item (Nat.lt_succ_self _)).trans ?_
        rw [State.rd_storeMask, if_pos rfl]
        rfl
      · rw [show item + (i + 1) = item + 1 + i by omega, hin i (by omega)]
        rfl
    · rw [hout j (by omega), State.rd_storeMask, if_neg fun h => absurd (RegKey.mk.inj h).2.2 (by omega)]

theorem State.runningCommand_token {s : State} {q op : Nat} {d : Desc} {tok : Token} (h : s.runningCommand q op = some (d, tok)) :
    tok = ⟨q, (s.ringX q).gen, d.idx⟩ := by
  unfold State.runningCommand at h
  split at h
  · split at h
    · cases h
      rfl
    · cases h
  · cases h

section
variable {s : State} {q tbl unit first n : Nat} {words : List Word} {ok : Bool} {d : Desc} {tok : Token}
  (h : s.runningCommand q 0x01 = some (d, tok)) (hf : tableFields d.w2 = (tbl, unit, first, n))
include h hf

theorem execTableLoadData_ok (hok : ok = true) (hl : words.length = n * (tableShape tbl).2) : exec (.tableLoadData q words ok) s
    = .next ((s.loadItems tbl unit (tableShape tbl).2 first n (words.map BitVec.toNat)).complete tok 0 (hostAddr d.w1) (tableWord d.w2) d.w3) := by
  show execTableLoadData q words ok s = _
  unfold execTableLoadData
  rw [h]
  dsimp only
  rw [hf]
  dsimp only
  rw [if_pos ⟨hok, hl.ge⟩]

theorem execTableLoadData_failed (hok : ok = false) : exec (.tableLoadData q words ok) s
    = .next (((s.loadItems tbl unit (tableShape tbl).2 first n (words.map BitVec.toNat)).post 0x0803 q 3).complete tok 0x14 (hostAddr d.w1)
      (tableWord d.w2) d.w3) := by
  show execTableLoadData q words ok s = _
  unfold execTableLoadData
  rw [h]
  dsimp only
  rw [hf]
  dsimp only
  rw [if_neg (by simp [hok])]

end

theorem tableLoadData : TableLoadData := by
  intro q tbl unit first n words ok d tok s h hrun hn hm hf hk
  have htok := State.runningCommand_token h
  have hload := State.loadItems_within s tbl unit (tableShape tbl).2 first n (words.map BitVec.toNat)
  have hkeep : RingKept q s (s.loadItems tbl unit (tableShape tbl).2 first n (words.map BitVec.toNat)) :=
    .of_only hload (by decide) (by decide) (hload.out (by decide)) (hload.host (by decide))
  refine ⟨fun hok hl => .intro (execTableLoadData_ok h hf hok hl) ⟨?_, ?_⟩, fun hok => .intro (execTableLoadData_failed h hf hok) ?_⟩
  · rw [htok]
    exact WrittenBack.of_regs hload (by decide) (by decide)
      (State.complete_writtenBack (hkeep.master.trans hm) ((hkeep.runs hm).trans hrun) (hkeep.gen hm) ..)
  · rintro rfl i hi
    have hper : (tableShape 4).2 = 1 := by decide
    rw [hper] at hl ⊢
    rw [(State.complete_within ..).reg _ (show Nat.testBit _ RegName.seqMask.ctorIdx = false by decide),
      (State.loadItems_mask s unit first n _ (by simp [hl])).1 i hi]
    have := List.getD_map (n := i) (l := words) (d := (0 : Word)) BitVec.toNat
    rw [show (0 : Nat) = (0 : Word).toNat from rfl, this, BitVec.ofNat_toNat, BitVec.setWidth_eq]
  · have hp := hkeep.trans (RingKept.post q _ 0x0803 q 3)
    rw [htok]
    have ho := Only.step (N := 0x1420844000400000420000000000000000000000000000000000000000000145000) (hload.mono (by decide))
      (State.post_within _ 0x0803 q 3) (by decide)
    exact WrittenBack.of_regs ho (by decide) (by decide)
      (State.complete_writtenBack (hp.master.trans hm) ((hp.runs hm).trans hrun) (hp.gen hm) ..)

/-- Settles O35: commands that begin alone on their ring, and the data that a TABLE_LOAD waits for. -/
theorem plainAndTableCommands : Obligations.PlainAndTableCommands := ⟨plainCommands, tableLoadData⟩

end Sys2Proof.Machine
end

