-- ==== Sys2Proof/Proofs/Pages.lean ====
section
/-!
PROOFS. Pages.lean: the page table and its writes (R188 to R192, R216); from these O23.
-/
namespace Sys2Proof.Machine
set_option Elab.async false

/-! ### What leaves the page table as it is -/

theorem State.request_table (s : State) (r : PgReq) : (s.request r).page.table = s.page.table := by
  unfold State.request
  split <;> rfl

theorem State.selfRequest_table (s : State) (g : Nat) : (s.selfRequest g).page.table = s.page.table := by
  unfold State.selfRequest
  dsimp only
  split <;> split <;> simp only [State.request_table]

theorem State.completePush_page (s : State) (tok : Token) (g st : Nat) : (s.completePush tok g st).page = s.page :=
  (State.completePush_within ..).page (by decide)

theorem foldl_page {α : Type} (l : List α) (f : State → α → State) (h : ∀ t a, (f t a).page = t.page) (s : State) :
    (l.foldl f s).page = s.page := by
  induction l generalizing s with
  | nil => rfl
  | cons a l ih => exact (ih _).trans (h s a)

theorem State.dropPushes_table (s : State) (g : Nat) : (s.dropPushes g).page.table = s.page.table := by
  unfold State.dropPushes
  dsimp only
  rw [foldl_page _ _ fun t p => State.completePush_page ..]

theorem State.entry_of_table {s t : State} (h : t.page.table = s.page.table) (g : Nat) : t.entry g = s.entry g :=
  congrArg (fun l => unitAt ({} : PgEntry) l g) h

/-! ### Writes of an entry (R190) -/

/-- The entry that a full write stores. -/
def PgEntry.mapped (w0 w1 : Nat) : PgEntry :=
  { ({} : PgEntry).withFields w0 with state := if w0 % 8 = 0 then 0 else 1, crc := w0 / 2 ^ 32 % 2 ^ 32, host := w1 / 2 ^ 12 % 2 ^ 52 }

/-- The entry that a write of its flags leaves. -/
def PgEntry.flagged (e : PgEntry) (w0 : Nat) : PgEntry :=
  if e.resident then { e.withFields w0 with state := if testBit w0 3 then 4 else 3 } else e.withFields w0

theorem State.entry_flagsWrite (s : State) (g w0 h : Nat) :
    (s.flagsWrite g w0).entry h = if h = g then (s.entry g).flagged w0 else s.entry h := by
  unfold State.flagsWrite
  dsimp only
  rw [State.entry_of_table (State.selfRequest_table ..), State.entry_setEntry]
  rfl

section
variable {s : State} {g : Nat} (hb : s.bit F.pgtStatusRebuildBusy = false)
include hb

theorem State.fullWrite_maps (h2 : (s.entry g).state ≠ 2) (hh : (s.entry g).resident = false ∨ s.held g = false) (w0 w1 : Nat) :
    (s.fullWrite g w0 w1).1 = .full ∧ ∀ h, (s.fullWrite g w0 w1).2.entry h = if h = g then PgEntry.mapped w0 w1 else s.entry h := by
  have hc : ¬(s.bit F.pgtStatusRebuildBusy = true ∨ (s.entry g).state = 2 ∨ (s.entry g).resident = true ∧ s.held g = true) := by
    rcases hh with hh | hh <;> simp [hb, h2, hh]
  unfold State.fullWrite
  dsimp only
  rw [if_neg hc]
  refine ⟨rfl, fun h => ?_⟩
  rw [State.entry_of_table ((State.selfRequest_table ..).trans (State.dropPushes_table ..))]
  show ((s.dropLines g).setEntry g (PgEntry.mapped w0 w1)).entry h = _
  rw [State.entry_setEntry, State.entry_of_table (congrArg PageX.table ((State.dropLines_within s g).page (by decide)))]

theorem State.writeEntry_flags {w0 w1 : Nat} (hw : w0 % 8 ≠ 0) (hs : (s.entry g).sameContent w0 w1 = true) (h0 : (s.entry g).state ≠ 0) :
    s.writeEntry g w0 w1 = (.flagsOnly, s.flagsWrite g w0) := by
  unfold State.writeEntry
  dsimp only
  rw [if_neg (by simp [hb]), if_pos ⟨hw, hs, h0⟩]

theorem State.writeEntry_full {w0 w1 : Nat} (h : ¬(w0 % 8 ≠ 0 ∧ (s.entry g).sameContent w0 w1 = true ∧ (s.entry g).state ≠ 0)) :
    s.writeEntry g w0 w1 = s.fullWrite g w0 w1 := by
  unfold State.writeEntry
  dsimp only
  rw [if_neg (by simp [hb]), if_neg h]

omit hb in
theorem State.fullWrite_loading (h2 : (s.entry g).state = 2) (w0 w1 : Nat) : s.fullWrite g w0 w1 = (.refused, s) := by
  unfold State.fullWrite
  dsimp only
  rw [if_pos (.inr (.inl h2))]

end

theorem State.windowWrite_flags {s t : State} {g w0 w1 : Nat} (h : s.writeEntry g w0 w1 = (.flagsOnly, t)) :
    s.windowWrite g w0 w1 = (.flagsOnly, t.set F.pgtWinCmdFlagsOnly 0 0 1) := by
  unfold State.windowWrite
  rw [h]

theorem State.windowWrite_full {s t : State} {g w0 w1 : Nat} (h : s.writeEntry g w0 w1 = (.full, t)) :
    s.windowWrite g w0 w1 = (.full, t.set F.pgtWinCmdFlagsOnly 0 0 0) := by
  unfold State.windowWrite
  rw [h]

theorem State.windowWrite_refused {s t : State} {g w0 w1 : Nat} (h : s.writeEntry g w0 w1 = (.refused, t)) :
    s.windowWrite g w0 w1 = (.refused, t.hwSet F.pgtWinCmdRefused 0 0) := by
  unfold State.windowWrite
  rw [h]

theorem State.entry_of_page {s t : State} (h : t.page = s.page) (g : Nat) : t.entry g = s.entry g :=
  State.entry_of_table (congrArg PageX.table h) g

/-! ### The commands of the page table -/

theorem rebuildEmpties (s : State) (h : s.allStopped = true) (hl : s.page.loads = []) :
    Completes .rebuild s fun t => t.page.table = [] ∧ t.page.reqs = [] ∧ t.get F.pgtStatusRebuildBusy = 1 := by
  refine .intro (t := s.rebuild) (congrArg _ (if_pos ⟨h, hl⟩)) ?_
  unfold State.rebuild
  dsimp only
  rw [State.set_page, foldl_page _ _ fun t p => State.completePush_page ..]
  exact ⟨rfl, rfl, State.get_set_self _ _ _ _ _ (by decide)⟩

theorem rebuildRefused (s : State) (h : s.allStopped = false ∨ s.page.loads ≠ []) (hu : Unclear s F.pgtStatusRebuildRefused 0 0) :
    Completes .rebuild s fun t => t.page = s.page ∧ t.get F.pgtStatusRebuildRefused = 1 := by
  refine .intro (t := s.hwSet F.pgtStatusRebuildRefused 0 0) (congrArg _ (if_neg ?_))
    ⟨State.hwSet_page .., State.get_hwSet _ _ _ _ hu (by decide) (by decide)⟩
  rintro ⟨h1, h2⟩
  exact h.elim (fun h => by simp [h] at h1) fun h => h h2

theorem winReadShows (g : Nat) (s : State) (hb : s.bit F.pgtStatusRebuildBusy = false) :
    Completes (.winRead g) s fun t => t.rd ⟨.pgtWinData, 0, 0⟩ = BitVec.ofNat 64 (s.entryWords g).1
      ∧ t.rd ⟨.pgtWinData, 0, 1⟩ = BitVec.ofNat 64 (s.entryWords g).2 := by
  refine .intro (t := s.winRead g) rfl ?_
  unfold State.winRead
  rw [if_neg (by simp [hb]), State.rd_wr_ne _ _ (by simp), State.rd_wr_self, State.rd_wr_self]
  exact ⟨rfl, rfl⟩

/-- Settles O23: a window write is judged by the entry as it stands, and stores it before pushes and requests are dropped or made. -/
theorem pageTable : Obligations.PageTable := by
  refine ⟨rebuildEmpties, rebuildRefused, fun s => .intro rfl (State.get_set_self _ _ _ _ _ (by decide)), winReadShows, ?_⟩
  rintro g w0 w1 s rfl rfl hb
  have hx : exec (.winWrite g) s = .next (s.winWrite g) := rfl
  unfold State.winWrite at hx
  generalize (s.rd ⟨.pgtWinData, 0, 0⟩).toNat = w0 at hx ⊢
  generalize (s.rd ⟨.pgtWinData, 0, 1⟩).toNat = w1 at hx ⊢
  refine ⟨fun hw hc h2 hh => .intro hx ?_, fun hw hs h0 => .intro hx ?_, fun h2 hs hu => .intro hx ?_⟩
  · obtain ⟨hfull, hent⟩ := State.fullWrite_maps hb h2 hh w0 w1
    have hwe := State.writeEntry_full hb (w0 := w0) (w1 := w1) (g := g) fun h => by
      obtain ⟨-, h1, h0⟩ := h
      rcases hc with hc | hc
      · simp [hc] at h1
      · exact h0 hc
    rcases hf : s.fullWrite g w0 w1 with ⟨r, t⟩
    rw [hf] at hfull hent hwe
    dsimp only at hfull hent
    subst hfull
    rw [State.windowWrite_full hwe]
    have he (h : Nat) := State.entry_of_page (State.set_page t F.pgtWinCmdFlagsOnly 0 0 0) h
    refine ⟨State.get_set_self _ _ _ _ _ (by decide), ?_⟩
    simp only [he, hent, if_pos, PgEntry.mapped, if_neg hw]
    exact ⟨trivial, trivial, trivial, rfl, fun h hne => if_neg hne⟩
  · rw [State.windowWrite_flags (State.writeEntry_flags hb hw hs h0)]
    have he (h : Nat) := State.entry_of_page (State.set_page (s.flagsWrite g w0) F.pgtWinCmdFlagsOnly 0 0 1) h
    refine ⟨State.get_set_self _ _ _ _ _ (by decide), ?_⟩
    simp only [he, State.entry_flagsWrite, if_pos]
    unfold PgEntry.flagged
    split
    · next hr => exact ⟨rfl, rfl, rfl, rfl, rfl, fun _ => rfl⟩
    · next hr => exact ⟨rfl, rfl, rfl, rfl, rfl, fun h => absurd h hr⟩
  · have hwe := (State.writeEntry_full hb (w0 := w0) (w1 := w1) (g := g) fun h => by simp [hs] at h).trans (State.fullWrite_loading h2 ..)
    rw [State.windowWrite_refused hwe]
    exact ⟨State.get_hwSet _ _ _ _ hu (by decide) (by decide), State.hwSet_page ..⟩

end Sys2Proof.Machine
end

