-- ==== Sys2Proof/Proofs/Sites.lean ====
section
/-!
PROOFS. Sites.lean: the commit of the site maps, retirement, and the end of a site's run (R220, R229, R231); from these O26.
-/
namespace Sys2Proof.Machine
set_option Elab.async false

/-! ### The commit of the site maps (R220) -/

/-- A site's staged map is put in force, and the site is dirty no more. -/
def State.activate (s : State) (k : Nat) : State :=
  ({ s with site := { s.site with active := putUnit {} s.site.active k (unitAt {} s.site.staging k) } }).set
    F.siteDirtyDirty 0 0 (putBit (s.get F.siteDirtyDirty) k false)

/-- Site `k` is put in force from the staged maps, and its bit is cleared. -/
theorem State.activate_reads (s : State) (k : Nat) : (s.activate k).site.staging = s.site.staging
    ∧ (∀ j, (s.activate k).siteMap j = if j = k then unitAt {} s.site.staging k else s.siteMap j)
    ∧ ∀ n < 32, testBit ((s.activate k).get F.siteDirtyDirty) n = if n = k then false else testBit (s.get F.siteDirtyDirty) n := by
  unfold State.activate
  refine ⟨by rw [State.set_site], fun j => ?_, fun n hn => ?_⟩
  · unfold State.siteMap
    rw [State.set_site, unitAt_putUnit]
  · rw [State.get_set_self _ _ _ _ _ (by decide), testBit_nat, Nat.testBit_mod_two_pow, ← testBit_nat, testBit_putBit]
    simp [hn]

theorem State.activate_all (l : List Nat) (s : State) :
    (∀ j, ((l.foldl (fun u k => u.activate k) s).siteMap j) = if j ∈ l then unitAt {} s.site.staging j else s.siteMap j)
    ∧ ∀ n < 32, testBit ((l.foldl (fun u k => u.activate k) s).get F.siteDirtyDirty) n
        = if n ∈ l then false else testBit (s.get F.siteDirtyDirty) n := by
  induction l generalizing s with
  | nil => exact ⟨fun j => by simp, fun n _ => by simp⟩
  | cons k l ih =>
    obtain ⟨hstage, hmap, hbit⟩ := s.activate_reads k
    obtain ⟨ihmap, ihbit⟩ := ih (s.activate k)
    refine ⟨fun j => ?_, fun n hn => ?_⟩
    · rw [List.foldl_cons, ihmap, hstage, hmap]
      by_cases hj : j = k <;> simp [hj]
    · rw [List.foldl_cons, ihbit n hn, hbit n hn]
      by_cases hj : n = k <;> simp [hj]

/-- Every dirty site is free: all staged maps are put in force. -/
theorem State.siteCommit_accepts {s : State} {d : List Nat} (hd : d = (List.range 32).filter (testBit (s.get F.siteDirtyDirty)))
    (hfree : ∀ k ∈ d, s.siteFree k = true) (hdup : s.duplicates d = false) (hfew : s.tooFew d = false) :
    ∃ v, v = d.foldl (fun u k => u.activate k) s ∧ ∃ w, (w = v ∨ w = v.set F.siteEpochEpoch 0 0 (v.get F.siteEpochEpoch + 1))
      ∧ s.siteCommit = (1, w.set F.siteStatusResult 0 0 1) := by
  have hacc : d.filter s.siteFree = d := List.filter_eq_self.2 hfree
  have href : (d.filter fun k => !s.siteFree k) = [] := List.filter_eq_nil_iff.2 fun k hk => by simp [hfree k hk]
  unfold State.siteCommit
  dsimp only
  rw [← hd, hacc, href, List.foldl_nil, if_neg (by simp [hdup]), if_neg (by simp [hfew]), if_pos rfl]
  refine ⟨_, rfl, _, ?_, rfl⟩
  split
  · exact .inr rfl
  · exact .inl rfl

theorem siteCommitTakes (d : List Nat) (s : State) (hd : d = (List.range 32).filter (testBit (s.get F.siteDirtyDirty)))
    (hfree : ∀ k ∈ d, s.siteFree k = true) (hdup : s.duplicates d = false) (hfew : s.tooFew d = false) :
    Completes .siteCommit s fun t => t.get F.siteStatusResult = 1 ∧ t.get F.siteDirtyDirty = 0
      ∧ (∀ k ∈ d, t.siteMap k = unitAt {} s.site.staging k) ∧ (∀ k < 32, k ∉ d → t.siteMap k = s.siteMap k) := by
  obtain ⟨v, hv, w, hw, hc⟩ := State.siteCommit_accepts hd hfree hdup hfew
  obtain ⟨hmap, hbit⟩ := State.activate_all d s
  rw [← hv] at hmap hbit
  have hx : exec .siteCommit s = .next s.siteCommit.2 := rfl
  rw [hc] at hx
  have hsite : (w.set F.siteStatusResult 0 0 1).site = v.site := by
    rw [State.set_site]
    rcases hw with rfl | rfl
    · rfl
    · rw [State.set_site]
  have hdirty : (w.set F.siteStatusResult 0 0 1).get F.siteDirtyDirty = v.get F.siteDirtyDirty := by
    rcases hw with rfl | rfl <;> simp (disch := decide)
  have hm (k : Nat) : (w.set F.siteStatusResult 0 0 1).siteMap k = v.siteMap k := by
    unfold State.siteMap
    rw [hsite]
  refine .intro hx ⟨State.get_set_self _ _ _ _ _ (by decide), ?_, fun k hk => ?_, fun k _ hk => ?_⟩
  · rw [hdirty]
    refine Nat.eq_of_testBit_eq fun n => ?_
    rw [Nat.zero_testBit]
    by_cases hn : n < 32
    · rw [← testBit_nat, hbit n hn]
      split
      · rfl
      · next h => simpa [hd, hn] using h
    · exact Nat.testBit_lt_two_pow (lt_of_lt_of_le (State.get_lt v F.siteDirtyDirty 0 0) (Nat.pow_le_pow_right (by decide) (Nat.le_of_not_lt hn)))
  · rw [hm, hmap, if_pos hk]
  · rw [hm, hmap, if_neg hk]

/-! ### Retirement and the end of a run (R229, R231) -/

theorem retireSets (k : Nat) (s : State) :
    Completes (.retire k) s fun t => t.get F.sitekStatusState k = 3 ∧ t.get F.sitekCtrlRetire k = 1 := by
  refine .intro (t := (s.set F.sitekCtrlRetire k 0 1).retire k) rfl ?_
  unfold State.retire State.modSiteRun
  dsimp only
  constructor
  · rw [State.get_ite, State.get_ite]
    simp (disch := decide) [(State.settleSite_within _ _ _ _ _ _).get]
  · rw [State.get_ite, State.get_ite]
    simp (disch := decide) [(State.settleSite_within _ _ _ _ _ _).get]

theorem State.endedRun_site {s : State} {k n : Nat} {r : SiteRun} (h : s.endedRun k = some (r, n)) : r.site = k := by
  obtain ⟨x, -, hx⟩ := List.exists_of_findSome?_eq_some h
  split at hx
  · split at hx
    · next hc =>
      cases hx
      exact hc.1
    · cases hx
  · cases hx

/-- The word of a site's RESULT. -/
theorem resultWord_fields (n e : Nat) (b : Bool) :
    bitsOf (BitVec.ofNat 64 (n % 2 ^ 48 + e % 256 * 2 ^ 48 + b.toNat * 2 ^ 56 + 2 ^ 57)) 57 1 = 1
    ∧ bitsOf (BitVec.ofNat 64 (n % 2 ^ 48 + e % 256 * 2 ^ 48 + b.toNat * 2 ^ 56 + 2 ^ 57)) 0 48 = n % 2 ^ 48
    ∧ bitsOf (BitVec.ofNat 64 (n % 2 ^ 48 + e % 256 * 2 ^ 48 + b.toNat * 2 ^ 56 + 2 ^ 57)) 48 8 = e % 256
    ∧ bitsOf (BitVec.ofNat 64 (n % 2 ^ 48 + e % 256 * 2 ^ 48 + b.toNat * 2 ^ 56 + 2 ^ 57)) 56 1 = b.toNat := by
  unfold bitsOf
  have hb : b.toNat < 2 := b.toNat_lt
  rw [BitVec.toNat_ofNat]
  generalize b.toNat = x at hb ⊢
  omega

theorem siteEndWrites (k n : Nat) (r : SiteRun) (s : State) (h : s.endedRun k = some (r, n)) (hold : r.old = false) :
    Completes (.siteEnd k) s fun t => t.get F.sitekResultValid k = 1 ∧ t.get F.sitekResultStopCycle k = n % 2 ^ 48
      ∧ t.get F.sitekResultEpochLow k = r.epoch % 256
      ∧ t.get F.sitekResultFailed k = r.failed.toNat ∧ r ∉ t.site.runs := by
  have hx : exec (.siteEnd k) s = .next (s.siteEnd r n) := by
    show execSiteEnd k s = _
    unfold execSiteEnd
    rw [h]
  refine .intro hx ?_
  obtain ⟨hv, hc, he, hf⟩ := resultWord_fields n r.epoch r.failed
  unfold State.siteEnd
  dsimp only
  rw [State.endedRun_site h, hold, if_neg Bool.false_ne_true]
  generalize hw : n % 2 ^ 48 + r.epoch % 256 * 2 ^ 48 + r.failed.toNat * 2 ^ 56 + 2 ^ 57 = w at hv hc he hf ⊢
  generalize hu : State.wr _ _ (BitVec.ofNat 64 w) = u
  have hrd : u.rd ⟨.sitekResult, k, 0⟩ = BitVec.ofNat 64 w := by rw [← hu, State.rd_wr_self]
  have hruns : r ∉ u.site.runs := by
    rw [← hu, State.wr_site]
    simp
  have hget (f : Fld) (hreg : f.reg = .sitekResult) : u.get f k = bitsOf (BitVec.ofNat 64 w) f.lo f.width := by
    unfold State.get Fld.key
    rw [hreg, hrd]
  have ho : Only 0x1844000000000000000000000000000000000000400000000000000000145000 u ((if u.bit F.sitekCtrlResultEn k then
      u.setFlags (u.get F.sitekCtrlResultThread k) (2 ^ u.get F.sitekCtrlResultFlag k) .hw else u).post 0x0301 k w) :=
    (Only.ite (fun _ => State.setFlags_only _ _ _ (Only.refl _ _) (by decide)) fun _ => .refl _ _).step (State.post_within ..) (by decide)
  rw [ho.get _ _ _ (by decide), ho.get _ _ _ (by decide), ho.get _ _ _ (by decide), ho.get _ _ _ (by decide), ho.site (by decide),
    hget _ rfl, hget _ rfl, hget _ rfl, hget _ rfl]
  exact ⟨hv, hc, he, hf, hruns⟩

/-- Settles O26: an accepted commit puts the staged maps in force one by one; an ended run's RESULT is written before what it raises. -/
theorem sites : Obligations.Sites := ⟨siteCommitTakes, retireSets, siteEndWrites⟩

end Sys2Proof.Machine
end

