-- ==== Sys2Proof/Proofs/Acquisition.lean ====
section
/-!
PROOFS. Acquisition.lean: the acquisition engine's states, triggers and ring register (R384 to R394); from these O44.
-/
namespace Sys2Proof.Machine
set_option Elab.async false

/-! ### Parts of a unit and of a register -/

theorem State.acq_of_acqs {s t : State} (h : t.acqs = s.acqs) (b : Nat) : t.acq b = s.acq b :=
  congrArg (fun l => unitAt ({} : AcqX) l b) h

/-- Keys stored one after another, each with a value of its own. -/
theorem Assoc.rd_foldl_wr {K V : Type} [DecidableEq K] [DecidableEq V] (lt : K → K → Bool) (d : K → V) (v : K → V) (l : List K)
    (m : List (K × V)) (k : K) :
    Assoc.rd d (l.foldl (fun m k => Assoc.wr lt d m k (v k)) m) k = if k ∈ l then v k else Assoc.rd d m k := by
  induction l generalizing m with
  | nil => simp
  | cons a l ih =>
    rw [List.foldl_cons, ih, Assoc.rd_wr]
    by_cases h : k = a <;> simp [h]

/-- What a field of a register holds after the register is written (R16, R17). -/
theorem State.get_storeRw (s : State) (f : Fld) (i j : Nat) (host : Bool) (v : Word) {d : FieldDesc} (hd : d ∈ f.reg.desc.fields)
    (hp : ∀ e ∈ f.reg.desc.fields, e.plain = true) (ha : f.reg.desc.fields.Pairwise FieldDesc.Apart) (hlo : d.lo = f.lo)
    (hw : d.width = f.width) (hrw : d.access ≠ .ro) :
    (s.storeRw (f.key i j) host v).get f i j = d.clamp.apply f.width (bitsOf v f.lo f.width) := by
  have h := bitsOf_storeFields hp ha host v (s.rd (f.key i j)) d hd
  rw [if_neg hrw, hlo, hw] at h
  unfold State.get State.storeRw
  rw [State.rd_wr_self]
  exact h

/-- A command that is an event on one object, alone on it, has its effect. -/
theorem Completes.alone {c : Instr} {s : State} {P : State → Prop} {o : Obj} {cls rank eff : Nat} {f : State → State} (ha : Alone s o)
    (hx : exec c s = .next (s.onObj o cls rank eff f)) (hp : P (f (s.note ⟨o, cls, rank, eff⟩))) : Completes c s P :=
  .intro (hx.trans (congrArg _ (State.onObj_alone ha ..))) hp

/-! ### The end of a capture and the states (R384, R385, R392) -/

theorem State.endCapture_cap (s : State) (b how : Nat) : ((s.endCapture b how).acq b).cap = none := by
  unfold State.endCapture
  split
  · assumption
  · dsimp only
    rw [State.acq_of_acqs ((State.post_within ..).acqs (by decide)), State.acq_setAcq, if_pos rfl]

theorem State.acqDrop_acq (s : State) (b : Nat) :
    (s.acqDrop b).acq b = { (s.acq b) with rec_ := none, pre := [], prev := none, gapNext := false, armed := 0, evs := [] } := by
  unfold State.acqDrop
  rw [State.acq_of_acqs (State.set_acqs ..), State.acq_setAcq, if_pos rfl]

theorem State.acqFill_acq (s : State) (b : Nat) : (s.acqFill b).acq b
    = { ((s.acqDrop b).acq b) with since := (s.acqDrop b).ticks, forced := false } := by
  unfold State.acqFill
  dsimp only
  rw [State.acq_of_acqs (State.set_acqs ..), State.acq_setAcq, if_pos rfl]

theorem State.acqFill_state (s : State) (b : Nat) : (s.acqFill b).acqState b = 1 := by
  unfold State.acqFill State.acqState
  exact State.get_set_self _ _ _ _ _ (by decide)

theorem acqStaged_name {b : Nat} {k : RegKey} (h : k ∈ acqStaged b) :
    k.name = .bayAcqCfg ∨ k.name = .bayAcqTime ∨ k.name = .bayAcqCond ∨ k.name = .bayAcqLevel := by
  simp only [acqStaged, List.mem_append, List.mem_cons, List.mem_map] at h
  rcases h with ((rfl | rfl | h) | ⟨i, -, rfl⟩) | ⟨i, -, rfl⟩ <;> first | simp | cases h

theorem State.acqInForce_endCapture (s : State) (b how : Nat) {k : RegKey} (hk : k ∈ acqStaged b) :
    (s.endCapture b how).acqInForce k = s.acqInForce k := by
  have h := State.endCapture_within s b how
  have hrd : (s.endCapture b how).rd k = s.rd k := by
    refine h.reg k ?_
    rcases acqStaged_name hk with h | h | h | h <;> rw [h] <;> decide
  unfold State.acqInForce
  dsimp only
  rw [hrd, h.get _ _ _ (by decide)]

theorem State.acqRearm_acq (s : State) (b : Nat) : ((s.acqRearm b).acq b).cap = none ∧ ((s.acqRearm b).acq b).pre = []
    ∧ ((s.acqRearm b).acq b).act = (acqStaged b).foldl (fun l k => Assoc.wr RegKey.before resetWord l k ((s.endCapture b 2).acqInForce k)) [] := by
  unfold State.acqRearm
  dsimp only
  rw [State.acq_of_acqs (State.set_acqs ..), State.acq_of_acqs (State.set_acqs ..), State.acqFill_acq, State.acqDrop_acq,
    State.acq_setAcq,
    if_pos rfl]
  exact ⟨State.endCapture_cap .., rfl, rfl⟩

theorem rearmFills (b : Nat) (src : Src) (s : State) (ha : Alone s (.acq b)) :
    Completes (.rearm b src) s fun t => t.acqState b = 1 ∧ (t.acq b).cap = none ∧ (t.acq b).pre = []
      ∧ t.get F.bayAcqStatRshift b = 0 ∧ t.get F.bayAcqStatRateReduced b = 0
      ∧ ∀ k ∈ acqStaged b, Assoc.rd resetWord (t.acq b).act k = s.acqInForce k := by
  refine Completes.alone ha rfl ?_
  have hforce (k : RegKey) : (s.note ⟨.acq b, 4, srcRank src, 2⟩).acqInForce k = s.acqInForce k := rfl
  generalize s.note _ = u at hforce ⊢
  obtain ⟨hcap, hpre, hact⟩ := State.acqRearm_acq u b
  refine ⟨?_, hcap, hpre, ?_, ?_, fun k hk => ?_⟩
  · unfold State.acqRearm State.acqState
    simp (disch := decide)
    exact State.acqFill_state ..
  · unfold State.acqRearm
    simp (disch := decide)
  · unfold State.acqRearm
    simp (disch := decide)
  · rw [hact, Assoc.rd_foldl_wr, if_pos hk, State.acqInForce_endCapture _ _ _ hk, hforce]

/-- An idle engine holds nothing. -/
theorem State.acqIdle_reads (s : State) (b how : Nat) :
    (s.acqIdle b how).acqState b = 0 ∧ ((s.acqIdle b how).acq b).cap = none ∧ ((s.acqIdle b how).acq b).rec_ = none := by
  unfold State.acqIdle
  refine ⟨State.get_set_self _ _ _ _ _ (by decide), ?_, ?_⟩
  · rw [State.acq_of_acqs (State.set_acqs ..), State.acqDrop_acq]
    exact State.endCapture_cap ..
  · rw [State.acq_of_acqs (State.set_acqs ..), State.acqDrop_acq]

theorem acqStopIdles (b : Nat) (src : Src) (s : State) (ha : Alone s (.acq b)) (hs : s.acqState b ≠ 0) :
    Completes (.acqStop b src) s fun t => t.acqState b = 0 ∧ (t.acq b).cap = none ∧ (t.acq b).rec_ = none := by
  refine Completes.alone ha rfl ?_
  have hn : (s.note ⟨.acq b, 2, srcRank src, 3⟩).acqState b ≠ 0 := by
    unfold State.acqState at hs ⊢
    rwa [State.note_get]
  rw [if_neg hn]
  exact State.acqIdle_reads ..

theorem holdoffEndFills (b : Nat) (s : State) (h4 : s.acqState b = 4)
    (ht : (s.acq b).since + (s.acq b).get F.bayAcqTimeHoldoff b ≤ s.ticks) :
    Completes (.holdoffEnd b) s fun t => t.acqState b = 1 ∧ (t.acq b).pre = [] ∧ (t.acq b).since = s.ticks
      ∧ t.get F.bayAcqStatRshift b = s.get F.bayAcqStatRshift b := by
  refine .intro (t := s.acqFill b) (congrArg _ (if_pos ⟨h4, ht⟩)) ⟨State.acqFill_state .., ?_, ?_, ?_⟩
  · rw [State.acqFill_acq, State.acqDrop_acq]
  · rw [State.acqFill_acq]
    exact (State.acqDrop_within s b).ticks (by decide)
  · unfold State.acqFill State.acqDrop
    simp (disch := decide)

/-! ### Triggers (R388, R389, R392) -/

/-- A trigger of condition `i` that is sampled: appended, unless the same one has been. -/
def State.sampleEv (s : State) (b i ref : Nat) : State :=
  if (s.acq b).evs.any (fun e => decide (e.1 = i ∧ e.2.1 = ref)) then s
  else s.setAcq b { (s.acq b) with evs := (s.acq b).evs ++ [(i, ref, s.stamp)] }

/-- A trigger reaches the engine: nothing else has decided it, or triggers alone. -/
structure Triggered (s : State) (b : Nat) : Prop where
  decided : s.decider (.acq b) = none ∨ ∃ r, s.decider (.acq b) = some ⟨.acq b, 5, r, 1⟩
  waiting : s.waiting (.acq b) = []
  inReset : s.inReset (.acq b) = false
  low : 1 ≤ s.acqState b
  high : s.acqState b ≤ 3

theorem State.sampleEv_has (s : State) (b i ref : Nat) : ∃ e ∈ ((s.sampleEv b i ref).acq b).evs, e.1 = i := by
  unfold State.sampleEv
  split
  · next h =>
    obtain ⟨e, he, hi⟩ := List.any_eq_true.1 h
    exact ⟨e, he, (of_decide_eq_true hi).1⟩
  · rw [State.acq_setAcq, if_pos rfl]
    exact ⟨_, List.mem_append_right _ List.mem_cons_self, rfl⟩

theorem State.sampleEv_keeps (s : State) (b i ref : Nat) {e : Nat × Nat × Nat} (he : e ∈ (s.acq b).evs) :
    e ∈ ((s.sampleEv b i ref).acq b).evs := by
  unfold State.sampleEv
  split
  · exact he
  · rw [State.acq_setAcq, if_pos rfl]
    exact List.mem_append_left _ he

theorem State.sampleEv_only (s : State) (b i ref : Nat) : Only (0x4000000000000000000000000000000000000000000000000000000000000000000) s (s.sampleEv b i ref) := by
  unfold State.sampleEv
  exact .ite (fun _ => .refl ..) fun _ => (State.setAcq_within ..).mono (by decide)

theorem Only.triggered {N : Nat} {s t : State} {b : Nat} (h : Only N s t) (ht : Triggered s b)
    (hd : t.decider (.acq b) = none ∨ ∃ r, t.decider (.acq b) = some ⟨.acq b, 5, r, 1⟩)
    (hr : N.testBit RegName.rasStatus.ctorIdx = false) (hq : N.testBit RegName.seqStatus.ctorIdx = false)
    (ha : N.testBit RegName.bayAcqStat.ctorIdx = false)
    (hp : N.testBit 240 = false) (hk : N.testBit 241 = false) (hs : N.testBit 254 = false) : Triggered t b := by
  obtain ⟨-, hw, hi, hl, hh⟩ := ht
  have hstate : t.acqState b = s.acqState b := h.get _ _ _ ha
  exact ⟨hd, (h.waiting _ hp hk hs).trans hw, (h.inReset hr hq _).trans hi, hstate ▸ hl, hstate ▸ hh⟩

/-- The state in which a trigger is sampled: its event is noted, unless another trigger's has been. -/
theorem Triggered.acqEvent {s : State} {b : Nat} (h : Triggered s b) (i ref : Nat) (src : Src) :
    ∃ t, s.acqEvent b i ref src = t.sampleEv b i ref ∧ Triggered t b ∧ t.acqs = s.acqs
      ∧ (t = s ∨ t = s.note ⟨.acq b, 5, srcRank src, 1⟩) := by
  have hon : ∃ t, s.onAcq b src = (fun f => f t) ∧ Triggered t b ∧ t.acqs = s.acqs
      ∧ (t = s ∨ t = s.note ⟨.acq b, 5, srcRank src, 1⟩) := by
    rcases h.decided with hd | ⟨r, hd⟩
    · refine ⟨s.note ⟨.acq b, 5, srcRank src, 1⟩, ?_, ?_, State.note_acqs .., .inr rfl⟩
      · funext f
        unfold State.onAcq
        rw [State.decideEvent_alone ⟨hd, h.waiting, h.inReset⟩]
      · exact (State.note_only _ (Only.refl (2 ^ 242) s) (by decide)).triggered h (.inr ⟨_, State.decider_note_self ..⟩) (by decide)
          (by decide) (by decide) (by decide) (by decide) (by decide)
    · refine ⟨s, ?_, h, rfl, .inl rfl⟩
      funext f
      unfold State.onAcq State.decideEvent State.judge
      rw [h.inReset, h.waiting, hd]
      rfl
  obtain ⟨t, ht, htr, hacq, hor⟩ := hon
  refine ⟨t, ?_, htr, hacq, hor⟩
  have h0 : s.acqState b ≠ 0 := Nat.ne_of_gt h.low
  have h4 : t.acqState b ≠ 4 := Nat.ne_of_lt (Nat.lt_succ_of_le htr.high)
  unfold State.acqEvent
  rw [if_neg h0, ht]
  dsimp only
  rw [if_neg h4]
  rfl

theorem Triggered.sampled {s : State} {b : Nat} (h : Triggered s b) (i ref : Nat) : Triggered (s.sampleEv b i ref) b := by
  have ho := s.sampleEv_only b i ref
  refine ho.triggered h ?_ (by decide) (by decide) (by decide) (by decide) (by decide) (by decide)
  rw [State.decider_congr (ho.events (by decide))]
  exact h.decided

theorem Alone.triggered {s : State} {b : Nat} (h : Alone s (.acq b)) (hl : 1 ≤ s.acqState b) (hh : s.acqState b ≤ 3) : Triggered s b :=
  ⟨.inl h.1, h.2.1, h.2.2, hl, hh⟩

/-- Of several triggers of one tick, each is sampled. -/
theorem Triggered.foldl {l : List Nat} {s : State} {b : Nat} (h : Triggered s b) (ref : State → Nat) {i : Nat}
    (hi : i ∈ l ∨ ∃ e ∈ (s.acq b).evs, e.1 = i) :
    ∃ e ∈ ((l.foldl (fun (t : State) j => t.acqEvent b j (ref t) .hw) s).acq b).evs, e.1 = i := by
  induction l generalizing s with
  | nil => exact hi.resolve_left List.not_mem_nil
  | cons j l ih =>
    obtain ⟨t, ht, htr, hacq, -⟩ := h.acqEvent j (ref s) .hw
    rw [List.foldl_cons, ht]
    refine ih (htr.sampled _ _) ?_
    rcases hi with hi | ⟨e, he, hei⟩
    · rcases List.mem_cons.1 hi with rfl | hi
      · exact .inr (State.sampleEv_has ..)
      · exact .inl hi
    · exact .inr ⟨e, State.sampleEv_keeps _ _ _ _ (by rwa [State.acq_of_acqs hacq]), hei⟩

theorem State.clocks_of_time {s t : State} (h : t.time = s.time) : t.clocks = s.clocks := by
  unfold State.clocks State.clocksAt
  rw [h]

/-- The stamp of the present tick depends on station time and on the holdover states alone. -/
theorem Only.stamp {N : Nat} {s t : State} (h : Only N s t) (ht : t.time = s.time) (hd : N.testBit RegName.domStatus.ctorIdx = false)
    (hc : N.testBit RegName.clkStatus.ctorIdx = false) : t.stamp = s.stamp := by
  have hh (d : Nat) : t.holdover d = s.holdover d := by
    unfold State.holdover
    rw [h.get _ _ _ hd, h.bit _ _ _ hc]
  unfold State.stamp State.stampOf State.station
  rw [State.clocks_of_time ht, hh]

theorem forceActs (b : Nat) (src : Src) (s : State) (ha : Alone s (.acq b)) :
    (s.acqState b = 0 → Completes (.force b src) s fun t => t = s)
    ∧ (s.acqState b = 4 → Unclear s F.bayAcqCountsTrigMissed b 0 → Completes (.force b src) s fun t =>
        t.get F.bayAcqCountsTrigMissed b = min 65535 (s.get F.bayAcqCountsTrigMissed b + 1))
    ∧ (1 ≤ s.acqState b → s.acqState b ≤ 3 → (∀ e ∈ (s.acq b).evs, e.1 ≠ 4) → Completes (.force b src) s fun t =>
        (t.acq b).evs = (s.acq b).evs ++ [(4, s.ticks * tickUnits, s.stamp)]) := by
  have hx : exec (.force b src) s = .next (s.acqEvent b 4 (s.ticks * tickUnits) src) := rfl
  refine ⟨fun h0 => .intro hx ?_, fun h4 hu => .intro hx ?_, fun hl hh hne => .intro hx ?_⟩
  · obtain ⟨hd, hw, -⟩ := ha
    unfold State.acqEvent State.discardAt
    rw [if_pos h0, hd, hw]
    rfl
  · unfold State.acqEvent State.onAcq
    rw [if_neg (by omega), State.decideEvent_alone ha]
    dsimp only
    have ho := State.note_only ⟨.acq b, 5, srcRank src, 1⟩ (Only.refl (2 ^ 242) s) (by decide)
    have hn : (s.note ⟨.acq b, 5, srcRank src, 1⟩).acqState b = 4 := (State.note_get ..).trans h4
    rw [if_pos hn]
    unfold State.trigMissed
    rw [State.get_count_min _ _ (ho.unclear hu (by decide) (by decide) (by decide) (by decide)
      (State.decider_note_ne _ (by simp))) (by decide) (by decide) (.inr (by decide)), State.note_get]
    rfl
  · obtain ⟨t, ht, -, hacq, hor⟩ := (Alone.triggered ha hl hh).acqEvent 4 (s.ticks * tickUnits) src
    have hstamp : t.stamp = s.stamp := by
      rcases hor with rfl | rfl
      · rfl
      · exact (State.note_only _ (Only.refl (2 ^ 242) s) (by decide)).stamp (State.note_time ..) (by decide) (by decide)
    have hx : (t.acq b).evs = (s.acq b).evs := by rw [State.acq_of_acqs hacq]
    rw [ht]
    unfold State.sampleEv
    rw [if_neg, State.acq_setAcq, if_pos rfl, hx, hstamp]
    rw [hx, List.any_eq_true]
    rintro ⟨e, he, hi⟩
    exact hne e he (of_decide_eq_true hi).1

theorem autoTriggerSamples (b : Nat) (s : State) (ha : Alone s (.acq b)) (hm : (s.acq b).get F.bayAcqCfgMode b = 2)
    (hs : s.acqState b = 1 ∨ s.acqState b = 2) (hf : (s.acq b).forced = false)
    (ht : (s.acq b).since + (s.acq b).get F.bayAcqTimeAutoEt b ≤ s.ticks) :
    Completes (.autoTrigger b) s fun t => (t.acq b).forced = true ∧ ∃ e ∈ (t.acq b).evs, e.1 = 4 := by
  have hx : exec (.autoTrigger b) s = .next ((s.setAcq b { (s.acq b) with forced := true }).acqEvent b 4 (s.ticks * tickUnits) .hw) :=
    if_pos ⟨hm, hs, hf, ht⟩
  refine .intro hx ?_
  have ho : Only (0x4000000000000000000000000000000000000000000000000000000000000000000) s (s.setAcq b { (s.acq b) with forced := true }) := (State.setAcq_within ..).mono (by decide)
  have htr : Triggered (s.setAcq b { (s.acq b) with forced := true }) b :=
    ho.triggered (Alone.triggered ha (by omega) (by omega)) (.inl ((State.decider_congr (ho.events (by decide)) _).trans ha.1)) (by decide) (by decide)
      (by decide) (by decide) (by decide) (by decide)
  have hforced : ((s.setAcq b { (s.acq b) with forced := true }).acq b).forced = true := by
    rw [State.acq_setAcq, if_pos rfl]
  obtain ⟨t, he, -, hacq, -⟩ := htr.acqEvent 4 (s.ticks * tickUnits) .hw
  rw [← State.acq_of_acqs hacq] at hforced
  rw [he]
  refine ⟨?_, State.sampleEv_has ..⟩
  unfold State.sampleEv
  split
  · exact hforced
  · rw [State.acq_setAcq, if_pos rfl]
    exact hforced

theorem pinEventSamples (b chan kind i : Nat) (s : State) (ha : Alone s (.acq b)) (hi : i < 4) (hk : kind ≠ 0)
    (hty : (s.acq b).get F.bayAcqCondType b i = 7) (hpk : (s.acq b).get F.bayAcqCondPinKind b i = kind)
    (hch : (s.acq b).get F.bayAcqCondChan b i = chan) (hl : 1 ≤ s.acqState b) (hh : s.acqState b ≤ 3) :
    Completes (.pinEvent b chan kind) s fun t => ∃ e ∈ (t.acq b).evs, e.1 = i := by
  refine .intro rfl (Triggered.foldl (Alone.triggered ha hl hh) (fun t => t.ticks * tickUnits) (.inl ?_))
  rw [List.mem_filter, State.acqConds, List.mem_filter]
  simp [hi, hk, hty, hpk, hch]

/-! ### The counts and the ring register (R392, R394) -/

theorem acqCountsCleared (b : Nat) (src : Src) (s : State) (ha : Alone s (.acq b))
    (hm : ClearActs s (F.bayAcqCountsTrigMissed.key b 0) F.bayAcqCountsTrigMissed.lo)
    (hd : ClearActs s (F.bayAcqCountsDropped.key b 0) F.bayAcqCountsDropped.lo) :
    Completes (.acqCountsClear b src) s fun t => t.get F.bayAcqCountsTrigMissed b = 0 ∧ t.get F.bayAcqCountsDropped b = 0
      ∧ t.get F.bayAcqCountsMissedSaturated b = 0 ∧ t.get F.bayAcqCountsDroppedSaturated b = 0 := by
  refine Completes.alone ha rfl ?_
  have hn := State.note_only ⟨.acq b, 3, srcRank src, 3⟩ (Only.refl (2 ^ 242) s) (by decide)
  have hm' := (hn.clearActs (by decide) (by decide) (by decide) (by decide) _ _).2 hm
  have hd' := (hn.clearActs (by decide) (by decide) (by decide) (by decide) _ _).2 hd
  generalize s.note _ = t at hm' hd'
  have hc := State.clear_within t F.bayAcqCountsTrigMissed b 0
  have hd2 := (hc.clearActs (by decide) (by decide) (by decide) (by decide) _ _).2 hd'
  have h1 := State.get_clear t F.bayAcqCountsTrigMissed b 0 (by decide) (by decide) hm'
  have h2 := State.get_clear _ F.bayAcqCountsDropped b 0 (by decide) (by decide) hd2
  have h3 := State.get_clear_ne (t.clear F.bayAcqCountsTrigMissed b 0) F.bayAcqCountsDropped F.bayAcqCountsTrigMissed b 0 b 0 (by decide)
    (by decide) (.inr (.inr (.inr (by decide))))
  simp (disch := decide) [h2, h3, h1]

theorem acqRing_plain : (∀ e ∈ RegName.bayAcqRing.desc.fields, e.plain = true)
    ∧ RegName.bayAcqRing.desc.fields.Pairwise FieldDesc.Apart := by decide

/-- What a write of ACQ_RING leaves in the register. -/
def State.ringWritten (s : State) (b : Nat) (v : Word) : State :=
  if s.before F.bayAcqRingEnable b = 1 then
    (s.setBit F.bayAcqRingEnable b 0 (testBit v.toNat 0)).set F.bayAcqRingHighMark b 0 (max 1 (bitsOf v 41 4))
  else s.storeRw ⟨.bayAcqRing, b, 0⟩ true v

theorem State.ringWritten_enable (s : State) (b : Nat) (v : Word) : (s.ringWritten b v).get F.bayAcqRingEnable b = bitsOf v 0 1 := by
  obtain ⟨hp, ha⟩ := acqRing_plain
  unfold State.ringWritten
  split
  · rw [State.get_set_apart _ _ _ _ _ _ _ _ (by decide) (by decide), State.get_setBit_self _ _ _ _ _ (by decide) (by decide)]
    have h2 := Nat.mod_lt v.toNat (show 0 < 2 by decide)
    unfold bitsOf testBit
    rw [Nat.pow_zero, Nat.div_one]
    by_cases h : v.toNat % 2 = 1
    · simp [h]
    · have h0 : v.toNat % 2 = 0 := by omega
      simp [h0]
  · exact State.get_storeRw s F.bayAcqRingEnable b 0 true v (d := ⟨0, 1, .rw, .any⟩) (.head _) hp ha rfl rfl (by decide)

/-- Where ENABLE was 0 at the start of the tick the register is stored, else BASE_PAGE and SIZE are as they were. -/
theorem State.ringWritten_fields (s : State) (b : Nat) (v : Word) :
    (s.before F.bayAcqRingEnable b = 0 → (s.ringWritten b v).get F.bayAcqRingBasePage b = bitsOf v 16 25
      ∧ (s.ringWritten b v).get F.bayAcqRingSize b = max 10 (min (bitsOf v 1 5) 28))
    ∧ (s.before F.bayAcqRingEnable b = 1 → (s.ringWritten b v).get F.bayAcqRingBasePage b = s.get F.bayAcqRingBasePage b
      ∧ (s.ringWritten b v).get F.bayAcqRingSize b = s.get F.bayAcqRingSize b) := by
  obtain ⟨hp, ha⟩ := acqRing_plain
  unfold State.ringWritten
  refine ⟨fun h => ?_, fun h => ?_⟩
  · rw [if_neg (by simp [h])]
    exact ⟨State.get_storeRw s F.bayAcqRingBasePage b 0 true v (d := ⟨16, 25, .rw,
      .any⟩) (.tail _ (.tail _ (.tail _ (.tail _ (.head _))))) hp ha rfl rfl
      (by decide), State.get_storeRw s F.bayAcqRingSize b 0 true v (d := ⟨1, 5, .rw,
        .range 10 28⟩) (.tail _ (.head _)) hp ha rfl rfl (by decide)⟩
  · rw [if_pos h]
    constructor <;> simp (disch := decide)

theorem State.ringWritten_ptr (s : State) (b : Nat) (v : Word) : (s.ringWritten b v).rd ⟨.bayAcqPtr, b, 0⟩ = s.rd ⟨.bayAcqPtr, b,
  0⟩ := by
  unfold State.ringWritten State.setBit State.storeRw
  split
  · rw [State.rd_set_ne _ _ _ _ _ (by simp [Fld.key]), State.rd_set_ne _ _ _ _ _ (by simp [Fld.key])]
  · rw [State.rd_wr_ne _ _ (by simp)]

theorem ringWriteActs (b : Nat) (v : Word) (s : State) : Completes (.acqRingWrite b v) s fun t => t.get F.bayAcqRingEnable b = bitsOf v 0 1
    ∧ (s.before F.bayAcqRingEnable b = 0 → t.get F.bayAcqRingBasePage b = bitsOf v 16 25
      ∧ t.get F.bayAcqRingSize b = max 10 (min (bitsOf v 1 5) 28))
    ∧ (s.before F.bayAcqRingEnable b = 1 → t.get F.bayAcqRingBasePage b = s.get F.bayAcqRingBasePage b
      ∧ t.get F.bayAcqRingSize b = s.get F.bayAcqRingSize b)
    ∧ t.rd ⟨.bayAcqPtr, b, 0⟩ = if s.get F.bayAcqRingEnable b = 0 ∧ bitsOf v 0 1 = 1 then 0 else s.rd ⟨.bayAcqPtr, b, 0⟩ := by
  have hrearm : Only (2 ^ 251) s (s.rearm 4 b) := (State.rearm_within ..).mono (by decide)
  have hbefore : (s.rearm 4 b).before F.bayAcqRingEnable b = s.before F.bayAcqRingEnable b :=
    State.before_of_startOfTick (hrearm.startOfTick (by decide)) ..
  have hx : exec (.acqRingWrite b v) s = .next (if testBit v.toNat 0 = true ∧ s.bit F.bayAcqRingEnable b = false then
      (((s.rearm 4 b).ringWritten b v).setAcq b { (((s.rearm 4 b).ringWritten b v).acq b) with mirror := [] }).wr ⟨.bayAcqPtr, b, 0⟩ 0
    else (s.rearm 4 b).ringWritten b v) := rfl
  refine .intro hx ?_
  have hen := (s.rearm 4 b).ringWritten_enable b v
  obtain ⟨hstore, hkeep⟩ := (s.rearm 4 b).ringWritten_fields b v
  have hptr := (s.rearm 4 b).ringWritten_ptr b v
  rw [hbefore] at hstore hkeep
  rw [hrearm.get _ _ _ (by decide), hrearm.get _ _ _ (by decide)] at hkeep
  rw [hrearm.reg _ (show Nat.testBit _ RegName.bayAcqPtr.ctorIdx = false by decide)] at hptr
  generalize (s.rearm 4 b).ringWritten b v = u at hen hstore hkeep hptr ⊢
  have hbit : (testBit v.toNat 0 = true ∧ s.bit F.bayAcqRingEnable b = false) ↔ (s.get F.bayAcqRingEnable b = 0 ∧ bitsOf v 0 1 = 1) := by
    have hlt := s.get_lt F.bayAcqRingEnable b 0
    have h2 : s.get F.bayAcqRingEnable b < 2 := hlt
    unfold State.bit testBit bitsOf
    simp
    omega
  have hw : Only (0x4000000000000000000000000000000000000000000000000000000000000000000 ||| 2 ^ RegName.bayAcqPtr.ctorIdx) u
      ((u.setAcq b { (u.acq b) with mirror := [] }).wr ⟨.bayAcqPtr, b, 0⟩ 0) :=
    State.wr_only _ _ ((State.setAcq_within ..).mono (by decide)) (by dsimp only; decide)
  split
  · next h =>
    rw [hw.get _ _ _ (by decide), hw.get _ _ _ (by decide), hw.get _ _ _ (by decide), State.rd_wr_self, if_pos (hbit.1 h)]
    exact ⟨hen, hstore, hkeep, rfl⟩
  · next h =>
    rw [if_neg (fun h' => h (hbit.2 h'))]
    exact ⟨hen, hstore, hkeep, hptr⟩

/-- Settles O44: each control and trigger is alone on its engine, so it acts at once; a pin event may satisfy several conditions. -/
theorem acquisitionEngine : Obligations.AcquisitionEngine :=
  ⟨rearmFills, acqStopIdles, forceActs, autoTriggerSamples, holdoffEndFills, pinEventSamples, acqCountsCleared, ringWriteActs⟩

end Sys2Proof.Machine
end

