-- ==== Sys2Proof/Proofs/Converter.lean ====
section
/-!
PROOFS. Converter.lean: visits, settings, banks and slices of a bay's converter (R359 to R378); from these O42.
-/
namespace Sys2Proof.Machine
set_option Elab.async false

/-! ### The converter and its visits -/

theorem State.adc_of_adcs {s t : State} (h : t.adcs = s.adcs) (b : Nat) : t.adc b = s.adc b :=
  congrArg (fun l => unitAt ({} : AdcX) l b) h

/-- Where the next sample lies depends on the ticks and CLK.ETCOUNT alone. -/
theorem Only.nextSample {N : Nat} {s t : State} (h : Only N s t) (ht : N.testBit 241 = false)
    (hc : N.testBit RegName.clkEtcount.ctorIdx = false) (v : Nat) : t.nextSample v = s.nextSample v := by
  unfold State.nextSample
  rw [h.ticks ht, h.get _ _ _ hc]

theorem State.showVisit_state (s : State) (b : Nat) : (s.showVisit b).get F.bayAdcStatState b
    = if (s.adc b).urgent.isSome then 2 else if (s.adc b).run then 1 else 0 := by
  have hlt : (if (s.adc b).urgent.isSome then 2 else if (s.adc b).run then 1 else 0) % 2 ^ 2
      = if (s.adc b).urgent.isSome then 2 else if (s.adc b).run then 1 else 0 := by
    split <;> [rfl; split <;> rfl]
  unfold State.showVisit
  dsimp only
  split
  · simpa (disch := decide) using hlt
  · exact (State.get_set_self _ _ _ _ _ (by decide)).trans hlt

theorem State.showVisit_settling (s : State) (b : Nat) : (s.showVisit b).get F.bayAdcStatSettling b = s.get F.bayAdcStatSettling b := by
  unfold State.showVisit
  dsimp only
  split <;> simp (disch := decide)

theorem State.showVisit_entry (s : State) (b : Nat) {v : Visit} (hv : (s.adc b).visit = some v) :
    (s.showVisit b).get F.bayAdcStatEntry b = v.entry % 16 := by
  unfold State.showVisit
  dsimp only
  rw [hv]
  exact State.get_set_self _ _ _ _ _ (by decide)

/-- The converter at the start of a visit, before the status shows it: its history apart, only the visit has changed. -/
theorem State.beginVisit_shown (s : State) (b e v : Nat) : ∃ (t : State) (l : List (Nat × Nat)) (c : List Int) (a : Option Nat),
  s.beginVisit b e v = t.showVisit b
    ∧ t.get F.bayAdcStatSettling b = 1 ∧ t.adc b = { s.adc b with
        visit := some { entry := e, change := s.nextSample v }, inputs := l, codes := c, codeAt := a } := by
  have hu : Only 0x4200944000000000000000000001c00000000000000000000002000000000145000 s (if (s.adc b).visit.isSome then s.acqShort b else s) :=
    .ite (fun _ => State.acqShort_within ..) fun _ => .refl ..
  unfold State.beginVisit
  dsimp only
  generalize (if (s.adc b).visit.isSome then s.acqShort b else s) = u at hu ⊢
  have hf : Only 0x2000000000000000000000000000000000000000000000000000000000000000000 u (u.freshCodes b) := State.freshCodes_within ..
  have hadc : ∃ c a l, (u.freshCodes b).adc b = { u.adc b with codes := c, codeAt := a, inputs := l } := by
    unfold State.freshCodes
    split
    · exact ⟨_, _, _, rfl⟩
    · rw [State.adc_setAdc, if_pos rfl]
      exact ⟨_, _, _, rfl⟩
  obtain ⟨c, a, l, hadc⟩ := hadc
  refine ⟨_, ?l, c, a, rfl, State.get_set_self _ _ _ _ _ (by decide), ?adc⟩
  case' adc =>
    rw [State.adc_of_adcs (State.set_adcs ..)]
    unfold State.noteInput
    dsimp only
    rw [State.adc_setAdc, if_pos rfl, State.adc_setAdc, if_pos rfl, hadc, State.adc_of_adcs (hu.adcs (by decide)),
      hf.nextSample (by decide) (by decide), hu.nextSample (by decide) (by decide)]

theorem State.showVisit_adc (s : State) (b c : Nat) : (s.showVisit b).adc c = s.adc c :=
  State.adc_of_adcs ((State.showVisit_within ..).adcs (by decide)) c

/-- What a visit that begins leaves in the converter and its status (R363, R366). -/
structure Visits (s t : State) (b e v : Nat) : Prop where
  visit : (t.adc b).visit = some { entry := e, change := s.nextSample v }
  run : (t.adc b).run = (s.adc b).run
  urgent : (t.adc b).urgent = (s.adc b).urgent
  seqEntry : (t.adc b).seqEntry = (s.adc b).seqEntry
  tags : (t.adc b).tags = (s.adc b).tags
  act : (t.adc b).act = (s.adc b).act
  state : t.get F.bayAdcStatState b = if (s.adc b).urgent.isSome then 2 else if (s.adc b).run then 1 else 0
  settling : t.get F.bayAdcStatSettling b = 1
  entry : t.get F.bayAdcStatEntry b = e % 16

theorem State.beginVisit_visits (s : State) (b e v : Nat) : Visits s (s.beginVisit b e v) b e v := by
  obtain ⟨t, l, c, a, ht, hset, hadc⟩ := s.beginVisit_shown b e v
  rw [ht]
  have hst := t.showVisit_state b
  have hen := t.showVisit_entry b (congrArg AdcX.visit hadc)
  rw [hadc] at hst
  refine ⟨?_, ?_, ?_, ?_, ?_, ?_, hst, (t.showVisit_settling b).trans hset, hen⟩ <;> rw [State.showVisit_adc, hadc]

theorem State.restartTags_adc (s : State) (b v : Nat) :
    (s.restartTags b v).adc b = { s.adc b with tags := [], nextTag := some (s.nextSample v) } := by
  unfold State.restartTags
  rw [State.adc_setAdc, if_pos rfl]

theorem State.adcIdle_reads (s : State) (b : Nat) : (((s.adcIdle b).adc b) = { s.adc b with visit := none, tags := [], nextTag := none })
    ∧ (s.adcIdle b).get F.bayAdcStatState b = if (s.adc b).urgent.isSome then 2 else if (s.adc b).run then 1 else 0 := by
  have hu : Only 0x4200944000000000000000000001c00000000000000000000002000000000145000 s (if (s.adc b).visit.isSome then s.acqShort b else s) :=
    .ite (fun _ => State.acqShort_within ..) fun _ => .refl ..
  unfold State.adcIdle
  dsimp only
  generalize (if (s.adc b).visit.isSome then s.acqShort b else s) = u at hu ⊢
  have ha : u.adc b = s.adc b := State.adc_of_adcs (hu.adcs (by decide)) b
  rw [State.showVisit_adc, State.showVisit_state, State.adc_of_adcs (State.set_adcs ..), State.adc_setAdc, if_pos rfl, ha]
  exact ⟨rfl, rfl⟩

/-! ### Triggers, stops and urgent visits (R364 to R366) -/

theorem State.startSequence_idle {s : State} {b : Nat} (h : (s.adc b).urgent = none) (v : Nat) :
    s.startSequence b v = ((s.setAdc b { s.adc b with run := true, seqEntry := 0 }).restartTags b v).beginVisit b 0 v :=
  if_neg (by rw [h]; exact Bool.noConfusion)

theorem State.adcStop_idle {s : State} {b : Nat} (h : (s.adc b).urgent = none) :
    s.adcStop b = (s.setAdc b { s.adc b with run := false }).adcIdle b := if_neg (by rw [h]; exact Bool.noConfusion)

theorem sequenceTriggerStarts (b : Nat) (src : Src) (s : State) (hc : s.calibrating b = false) (ha : Alone s (.adcSeq b))
    (hr : (s.adc b).run = false) (hu : (s.adc b).urgent = none) :
    Completes (.sequenceTrigger b src) s fun t => (t.adc b).run = true ∧ (t.adc b).seqEntry = 0 ∧ (t.adc b).tags = []
      ∧ (t.adc b).visit = some { entry := 0, change := s.nextSample (s.ticks * tickUnits) }
      ∧ t.get F.bayAdcStatState b = 1 ∧ t.get F.bayAdcStatSettling b = 1 := by
  refine Completes.alone ha (congrArg _ (if_neg (by rw [hc]; exact Bool.noConfusion))) ?_
  generalize hw : s.note _ = w
  have hadc : w.adc b = s.adc b := hw ▸ rfl
  have hns (v : Nat) : w.nextSample v = s.nextSample v := hw ▸ rfl
  have htk : w.ticks = s.ticks := hw ▸ rfl
  dsimp only
  rw [hadc, if_pos (.inl hr), htk]
  rw [State.startSequence_idle (by rw [hadc, hu]), hadc]
  generalize hg : w.setAdc b { s.adc b with run := true, seqEntry := 0 } = g
  have hgadc : g.adc b = { s.adc b with run := true, seqEntry := 0 } := by rw [← hg, State.adc_setAdc, if_pos rfl]
  have hgs (v : Nat) : (g.restartTags b v).nextSample v = s.nextSample v := by
    rw [(State.restartTags_within g b v).nextSample (by decide) (by decide), ← hg,
      (State.setAdc_within ..).nextSample (by decide) (by decide),
      hns]
  obtain ⟨hvis, hrun, hurg, hse, htg, -, hst, hset,
    -⟩ := (g.restartTags b (s.ticks * tickUnits)).beginVisit_visits b 0 (s.ticks * tickUnits)
  rw [State.restartTags_adc, hgadc] at hrun hurg hse htg hst
  dsimp only at hst
  rw [hu] at hst
  rw [hgs] at hvis
  exact ⟨hrun, hse, htg, hvis, hst, hset⟩

theorem sequenceTriggerCounts (b : Nat) (src : Src) (s : State) (hc : s.calibrating b = false) (ha : Alone s (.adcSeq b))
    (hr : (s.adc b).run = true) (hre : (s.adc b).get F.bayAdcCfgRestart b = 0) (hu : Unclear s F.bayAdcCountsTrigOverrun b 0) :
    Completes (.sequenceTrigger b src) s fun t => t.adc b = s.adc b
      ∧ t.get F.bayAdcCountsTrigOverrun b = min 1023 (s.get F.bayAdcCountsTrigOverrun b + 1) := by
  refine Completes.alone ha (congrArg _ (if_neg (by rw [hc]; exact Bool.noConfusion))) ?_
  have hn : Unclear (s.note ⟨.adcSeq b, 5, srcRank src, 1⟩) F.bayAdcCountsTrigOverrun b 0 :=
    (State.note_only _ (Only.refl (2 ^ 242) s) (by decide)).unclear_field hu (by decide) (by decide)
      (State.decider_note_ne _ (by simp))
  have hadc : (s.note ⟨.adcSeq b, 5, srcRank src, 1⟩).adc b = s.adc b := rfl
  have hget := State.get_note s ⟨.adcSeq b, 5, srcRank src, 1⟩ F.bayAdcCountsTrigOverrun b 0
  generalize s.note _ = w at hn hadc hget ⊢
  dsimp only
  rw [hadc, hr, hre, if_neg (by simp)]
  refine ⟨(State.adc_of_adcs (State.count_adcs ..) b).trans hadc, ?_⟩
  rw [State.get_count_min _ _ hn (by decide) (by decide) (by decide), hget]
  rfl

theorem adcStopIdles (b : Nat) (src : Src) (s : State) (ha : Alone s (.adcSeq b)) (hu : (s.adc b).urgent = none) :
    Completes (.adcStop b src) s fun t => (t.adc b).run = false ∧ (t.adc b).visit = none ∧ t.get F.bayAdcStatState b = 0 := by
  refine Completes.alone ha rfl ?_
  have hadc : (s.note ⟨.adcSeq b, 2, srcRank src, 3⟩).adc b = s.adc b := rfl
  generalize s.note _ = w at hadc ⊢
  rw [State.adcStop_idle (by rw [hadc, hu]), hadc]
  generalize hg : w.setAdc b { s.adc b with run := false } = g
  have hgadc : g.adc b = { s.adc b with run := false } := by rw [← hg, State.adc_setAdc, if_pos rfl]
  obtain ⟨hi, hst⟩ := g.adcIdle_reads b
  rw [hgadc] at hi hst
  dsimp only at hst
  rw [hu] at hst
  exact ⟨congrArg AdcX.run hi, congrArg AdcX.visit hi, hst⟩

theorem urgentRequestVisits (b e : Nat) (src : Src) (s : State) (hc : s.calibrating b = false) (ha : Alone s (.adcUrgent b))
    (hu : (s.adc b).urgent = none) :
    Completes (.urgentRequest b e src) s fun t => (t.adc b).urgent = some s.ticks ∧ (t.adc b).run = (s.adc b).run
      ∧ (t.adc b).visit.map (·.entry) = some e ∧ t.get F.bayAdcStatState b = 2 ∧ t.get F.bayAdcStatEntry b = e % 16 := by
  refine Completes.alone ha ((congrArg _ (if_neg (by rw [hc]; exact Bool.noConfusion))).trans
    (congrArg _ (if_neg (by rw [hu]; exact Bool.noConfusion)))) ?_
  have hadc : (s.note ⟨.adcUrgent b, 5, srcRank src, e + 1⟩).adc b = s.adc b := rfl
  have htk : (s.note ⟨.adcUrgent b, 5, srcRank src, e + 1⟩).ticks = s.ticks := rfl
  generalize s.note _ = w at hadc htk ⊢
  dsimp only
  rw [hadc, htk]
  have hg : ∃ g : State, (g.adc b).urgent = some s.ticks ∧ (g.adc b).run = (s.adc b).run ∧
      (if (s.adc b).visit.isSome = true then w.setAdc b { s.adc b with urgent := some s.ticks, urgentAcc := {} }
        else (w.setAdc b { s.adc b with urgent := some s.ticks, urgentAcc := {} }).restartTags b (s.ticks * tickUnits)) = g := by
    refine ⟨_, ?_, ?_, rfl⟩ <;> split <;> simp [State.restartTags]
  obtain ⟨g, hgu, hgr, hg⟩ := hg
  rw [hg]
  obtain ⟨hvis, hrun, hurg, -, -, -, hst, -, hen⟩ := g.beginVisit_visits b e (s.ticks * tickUnits)
  rw [hgu] at hurg hst
  exact ⟨hurg, hrun.trans hgr, congrArg (Option.map (·.entry)) hvis, hst, hen⟩

theorem urgentRequestCounts (b e k : Nat) (src : Src) (s : State) (hc : s.calibrating b = false) (hk : (s.adc b).urgent = some k)
    (hlt : k < s.ticks) (hu : Unclear s F.bayAdcCountsUrgentBusy b 0) :
    Completes (.urgentRequest b e src) s fun t => t.adc b = s.adc b
      ∧ t.get F.bayAdcCountsUrgentBusy b = min 1023 (s.get F.bayAdcCountsUrgentBusy b + 1) := by
  have hx : s.urgentRequest b e src = s.count F.bayAdcCountsUrgentBusy F.bayAdcCountsSaturated b 0 1 := by
    unfold State.urgentRequest
    dsimp only
    rw [hc, hk, if_neg (by exact Bool.noConfusion), if_pos (by exact decide_eq_true hlt)]
  refine .intro (congrArg Host.Outcome.next hx) ⟨?_, ?_⟩
  · exact State.adc_of_adcs (State.count_adcs ..) b
  · exact State.get_count_min _ _ hu (by decide) (by decide) (by decide)

theorem State.endUrgent_resumes {s : State} {b : Nat} (h : (s.adc b).run = true) (v : Nat) : s.endUrgent b v
    = ((s.setAdc b { s.adc b with urgent := none, urgentAcc := {} }).restartTags b v).beginVisit b (s.adc b).seqEntry v := if_pos h

theorem State.endUrgent_idles {s : State} {b : Nat} (h : (s.adc b).run = false) (v : Nat) :
    s.endUrgent b v = (s.setAdc b { s.adc b with urgent := none, urgentAcc := {} }).adcIdle b := if_neg (by rw [h]; exact Bool.noConfusion)

theorem urgentCancelEnds (b k : Nat) (src : Src) (s : State) (ha : Alone s (.adcUrgent b)) (hk : (s.adc b).urgent = some k) :
    Completes (.urgentCancel b src) s fun t => (t.adc b).urgent = none
      ∧ ((s.adc b).run = true → (t.adc b).visit.map (·.entry) = some (s.adc b).seqEntry ∧ t.get F.bayAdcStatState b = 1)
      ∧ ((s.adc b).run = false → (t.adc b).visit = none ∧ t.get F.bayAdcStatState b = 0) := by
  refine Completes.alone ha rfl ?_
  have hadc : (s.note ⟨.adcUrgent b, 2, srcRank src, 2⟩).adc b = s.adc b := rfl
  generalize s.note _ = w at hadc ⊢
  rw [hadc, if_pos (by rw [hk]; rfl)]
  cases hr : (s.adc b).run with
  | true =>
    rw [State.endUrgent_resumes (by rw [hadc, hr]), hadc]
    generalize hg : w.setAdc b { s.adc b with urgent := none, urgentAcc := {} } = g
    have hgadc : g.adc b = { s.adc b with urgent := none, urgentAcc := {} } := by rw [← hg, State.adc_setAdc, if_pos rfl]
    obtain ⟨hvis, -, hurg, -, -, -, hst, -, -⟩ := (g.restartTags b (w.ticks * tickUnits)).beginVisit_visits b (s.adc b).seqEntry
      (w.ticks * tickUnits)
    rw [State.restartTags_adc, hgadc] at hurg hst
    dsimp only at hst
    rw [hr] at hst
    exact ⟨hurg, fun _ => ⟨congrArg (Option.map (·.entry)) hvis, hst⟩, fun h => Bool.noConfusion h⟩
  | false =>
    rw [State.endUrgent_idles (by rw [hadc, hr]), hadc]
    generalize hg : w.setAdc b { s.adc b with urgent := none, urgentAcc := {} } = g
    have hgadc : g.adc b = { s.adc b with urgent := none, urgentAcc := {} } := by rw [← hg, State.adc_setAdc, if_pos rfl]
    obtain ⟨hi, hst⟩ := g.adcIdle_reads b
    rw [hgadc] at hi hst
    dsimp only at hst
    rw [hr] at hst
    exact ⟨congrArg AdcX.urgent hi, fun h => Bool.noConfusion h, fun _ => ⟨congrArg AdcX.visit hi, hst⟩⟩

/-! ### Settings, banks and slices (R359, R361, R373 to R378) -/

theorem State.adcCommit_act (s : State) (b : Nat) : ((s.adcCommit b).adc b).act = s.stagedAdc b := by
  have hset (t : State) (x : AdcX) : ((t.setAdc b x).adc b).act = x.act := by rw [State.adc_setAdc, if_pos rfl]
  have hchange (t : State) (v : Nat) : ((t.adcChange b v).adc b).act = (t.adc b).act := by
    unfold State.adcChange
    dsimp only
    split
    · rw [State.adc_of_adcs (State.set_adcs ..)]
      unfold State.noteInput
      rw [hset, State.adc_setAdc, if_pos rfl]
    · rfl
  unfold State.adcCommit
  extract_lets x y v t1 t2 mode src t3 e src' t4
  have h1 : (t1.adc b).act = s.stagedAdc b := hset _ _
  have h2 : (t2.adc b).act = s.stagedAdc b := by
    unfold t2
    split
    · exact (congrArg AdcX.act (State.adc_of_adcs (by rw [State.set_adcs, State.set_adcs]) b)).trans h1
    · exact h1
  have h3 : (t3.adc b).act = s.stagedAdc b := by
    unfold t3
    split
    · exact h2
    · exact (hset _ _).trans h2
  have h4 : (t4.adc b).act = s.stagedAdc b := (hset _ _).trans h3
  clear_value t4 y x
  split
  · exact h4
  · extract_lets e'
    split
    · exact h4
    · split
      · exact (hchange _ _).trans h4
      · exact (State.beginVisit_visits ..).act.trans h4

theorem sequenceCommitTakes (b : Nat) (src : Src) (s : State) (ha : Alone s (.adcSeq b)) :
    Completes (.sequenceCommit b src) s fun t => ∀ k ∈ adcStaged b, Assoc.rd resetWord (t.adc b).act k = s.rd k := by
  refine Completes.alone ha rfl fun k hk => ?_
  have hrd : (s.note ⟨.adcSeq b, 4, srcRank src, 1⟩).rd k = s.rd k := rfl
  generalize s.note _ = w at hrd ⊢
  dsimp only
  have hact : Assoc.rd resetWord ((w.adcCommit b).adc b).act k = s.rd k := by
    rw [State.adcCommit_act]
    unfold State.stagedAdc
    rw [Assoc.rd_foldl_wr, if_pos hk, hrd]
  split
  · exact hact
  · rw [State.adc_of_adcs ((State.calRefSel_within ..).adcs (by decide))]
    exact hact

/-- Where a coefficient's address advances, it goes on by one. -/
theorem State.coefAutoinc_index (s : State) (b : Nat) : (s.coefAutoinc b).get F.bayAdcCoefSelIndex b
    = if s.bit F.bayAdcCoefSelAutoinc b then (s.get F.bayAdcCoefSelIndex b + 1) % 1024 else s.get F.bayAdcCoefSelIndex b := by
  unfold State.coefAutoinc
  split
  · rw [State.get_set_self _ _ _ _ _ (by decide)]
    exact Nat.mod_eq_of_lt (Nat.mod_lt _ (by decide))
  · rfl

theorem coefWriteActs (b k i : Nat) (data : Word) (s : State) (hk : k = s.get F.bayAdcCoefSelBank b)
    (hi : i = s.get F.bayAdcCoefSelIndex b) :
    (k ≠ s.get F.bayAdcStatBank b → (s.adc b).fade = none →
      Completes (.coefWrite b data) s fun t => t.coef b k i = bitsOf data 0 18
        ∧ ∀ j, j ≠ k * 1024 + i → t.coef b 0 j = s.coef b 0 j)
    ∧ (k = s.get F.bayAdcStatBank b ∨ (s.adc b).fade.isSome = true → Unclear s F.bayAdcStatCoefRefused b 0 →
      Completes (.coefWrite b data) s fun t => t.adc b = s.adc b ∧ t.get F.bayAdcStatCoefRefused b = 1)
    ∧ Completes (.coefWrite b data) s fun t => t.get F.bayAdcCoefSelIndex b
        = if s.bit F.bayAdcCoefSelAutoinc b then (i + 1) % 1024 else i := by
  subst hk hi
  have hadc (t : State) : (t.coefAutoinc b).adc b = t.adc b := State.adc_of_adcs ((State.coefAutoinc_within ..).adcs (by decide)) b
  refine ⟨fun hb hf => .intro rfl ?_, fun h hu => .intro rfl ?_, .intro rfl ?_⟩
  · have hn : ¬(s.get F.bayAdcCoefSelBank b = s.get F.bayAdcStatBank b ∨ (s.adc b).fade.isSome = true) := by simp [hb, hf]
    rw [if_neg hn]
    unfold State.coef
    rw [hadc, State.adc_setAdc, if_pos rfl]
    refine ⟨by rw [Assoc.rd_wr, if_pos rfl], fun j hj => ?_⟩
    rw [Assoc.rd_wr, if_neg (by omega)]
  · rw [if_pos h, hadc]
    refine ⟨State.adc_of_adcs (State.hwSet_adcs ..) b, ?_⟩
    rw [(State.coefAutoinc_within ..).get _ _ _ (by decide)]
    exact State.get_hwSet _ _ _ _ hu (by decide) (by decide)
  · rw [State.coefAutoinc_index]
    have hw : Only 0 s s := .refl ..
    split <;> simp (disch := decide) [State.bit]

theorem bankRequestWaits (b bank : Nat) (s : State) : Completes (.bankRequest b bank) s fun t =>
    ((s.adc b).fade = none → (t.adc b).bankWant = some (bank % 2))
    ∧ ((s.adc b).fade.isSome = true → (t.adc b).held = some (bank % 2) ∧ t.get F.bayAdcStatSwapHeld b = 1) := by
  refine .intro rfl ⟨fun h => ?_, fun h => ?_⟩ <;> unfold State.bankRequest <;> dsimp only
  · rw [h, if_neg (by exact Bool.noConfusion), State.adc_setAdc, if_pos rfl]
  · rw [if_pos h, State.adc_of_adcs (State.set_adcs ..), State.adc_setAdc, if_pos rfl]
    exact ⟨rfl, State.get_set_self _ _ _ _ _ (by decide)⟩

theorem refReadySets (b : Nat) (s : State) (h : s.get F.bayAdcStatRefReady b = 0) :
    Completes (.refReady b) s fun t => t.get F.bayAdcStatRefReady b = 1 := by
  refine .intro (if_neg (by simp [State.bit, h])) ?_
  unfold State.adcChange State.noteInput
  dsimp only
  split <;> simp (disch := decide)

theorem sliceRotationFails (b : Nat) (s : State) (hen : (s.adc b).get F.bayAdcCfgBgcalEn b = 1) (hd : s.get F.bayAdcStatDegraded b = 0) :
    Completes (.sliceRotation b true) s fun t => if s.bit F.bayAdcStatSpareUsed b then t.get F.bayAdcStatDegraded b = 1
      else t.get F.bayAdcStatSpareUsed b = 1 ∧ t.get F.bayAdcStatDegraded b = 0 := by
  have hn : ¬((s.adc b).get F.bayAdcCfgBgcalEn b = 0 ∨ s.bit F.bayAdcStatDegraded b = true ∨ (true = false)) := by
    simp [State.bit, hen, hd]
  have hx : exec (.sliceRotation b true) s = _ := if_neg hn
  cases hs : s.bit F.bayAdcStatSpareUsed b with
  | true =>
    rw [if_pos hs] at hx
    refine .intro hx ?_
    simp (disch := decide) [(State.post_within _ _ _ _).get]
  | false =>
    rw [if_neg (by rw [hs]; exact Bool.noConfusion)] at hx
    refine .intro hx ?_
    simp (disch := decide) [(State.post_within _ _ _ _).get, hd]

theorem accClearEmpties (b : Nat) (src : Src) (s : State) (ha : Alone s (.adcSeq b)) :
    Completes (.accClear b src) s fun t => (t.adc b).accs = [] :=
  Completes.alone ha rfl (by rw [State.adc_setAdc, if_pos rfl])

/-- Settles O42. -/
theorem converterControl : Obligations.ConverterControl :=
  ⟨⟨sequenceTriggerStarts, sequenceTriggerCounts, adcStopIdles, urgentRequestVisits, urgentRequestCounts, urgentCancelEnds⟩,
    sequenceCommitTakes, coefWriteActs, bankRequestWaits, refReadySets, sliceRotationFails, accClearEmpties⟩

end Sys2Proof.Machine
end

