-- ==== Sys2Proof/Proofs/FrontEndLists.lean ====
section
/-!
PROOFS. FrontEndLists.lean: the front-end masters' lists and their words (R109, R487 to R491); from these O53.
-/
namespace Sys2Proof.Machine
set_option Elab.async false

/-! ### How a list begins and ends -/

theorem State.fe_of_fes {s t : State} (h : t.fes = s.fes) (b : Nat) : t.fe b = s.fe b :=
  congrArg (fun l => unitAt ({} : FeX) l b) h

theorem State.feBegin_fe (s : State) (b l k : Nat) : (s.feBegin b l k).fe b
    = { s.fe b with word := 0, at_ := 2 * k, held := none, begun := false, wait := none, abort := false } := by
  unfold State.feBegin
  rw [State.fe_setFe, if_pos rfl]

theorem State.feBegin_runs (s : State) (b l k : Nat) : (s.feBegin b l k).feRuns b = true ∧ (s.feBegin b l k).get F.bayFeStatList b = l % 64
    ∧ (s.feBegin b l k).get F.bayFeStatQueued b = s.get F.bayFeStatQueued b := by
  unfold State.feBegin State.feRuns State.bit
  simp (disch := decide)

theorem State.fePut_get (s : State) (b : Nat) (ws : List (Nat × Nat)) (f : Fld) (i j : Nat) : (s.fePut b ws).get f i j = s.get f i j :=
  State.get_setFe ..

/-- A list that ends with nothing queued leaves the master idle. -/
theorem State.feEnd_idle {s : State} {b : Nat} (h : s.bit F.bayFeStatQueued b = false) : (s.feEnd b).feRuns b = false
    ∧ (s.feEnd b).get F.bayFeStatQueued b = s.get F.bayFeStatQueued b
    ∧ (s.feEnd b).get F.bayFeStatTimeout b = s.get F.bayFeStatTimeout b := by
  unfold State.bit at h
  unfold State.feEnd State.feRuns State.bit
  dsimp only
  rw [if_neg (by simpa (disch := decide) [State.fePut_get] using h)]
  simp (disch := decide) [State.fePut_get]

/-- A list that ends with another queued hands the master to it. -/
theorem State.feEnd_queued {s : State} {b : Nat} (h : s.bit F.bayFeStatQueued b = true) : (s.feEnd b).feRuns b = true
    ∧ (s.feEnd b).get F.bayFeStatList b = s.get F.bayFeStatQueuedList b ∧ (s.feEnd b).bit F.bayFeStatQueued b = false
    ∧ ((s.feEnd b).fe b).word = 0 := by
  unfold State.bit at h
  have hl : s.get F.bayFeStatQueuedList b % 64 = s.get F.bayFeStatQueuedList b := Nat.mod_eq_of_lt (State.get_lt ..)
  unfold State.feEnd
  extract_lets src d t
  have htq : t.get F.bayFeStatQueued b = s.get F.bayFeStatQueued b := by
    unfold t
    simp (disch := decide) [State.fePut_get]
  have htl : t.get F.bayFeStatQueuedList b = s.get F.bayFeStatQueuedList b := by
    unfold t
    simp (disch := decide) [State.fePut_get]
  clear_value t
  rw [if_pos (by rw [State.bit, htq]; exact h), htl]
  obtain ⟨hr, hlist, hq⟩ := (t.set F.bayFeStatQueued b 0 0).feBegin_runs b (s.get F.bayFeStatQueuedList b) (t.ticks + 1)
  refine ⟨hr, hlist.trans hl, ?_, by rw [State.feBegin_fe]⟩
  rw [State.bit, hq, State.get_set_self _ _ _ _ _ (by decide)]
  rfl

theorem State.feNext_goesOn {s : State} {b : Nat} (h : (s.fe b).abort = false) (k : Nat) :
    (s.feNext b k).fe b = { s.fe b with word := (s.fe b).word + 1, at_ := k, begun := false, wait := none } := by
  unfold State.feNext
  dsimp only
  rw [h, if_neg (by exact Bool.noConfusion), State.fe_setFe, if_pos rfl]

/-! ### Lists -/

theorem feStartActs (b l : Nat) (s : State) (hc : testBit (s.get F.calStatusBusy) b = false) :
    (s.feRuns b = false → Completes (.feStart b l) s fun t => t.feRuns b = true ∧ t.get F.bayFeStatList b = l % 64
      ∧ (t.fe b).word = 0 ∧ (t.fe b).at_ = 2 * (s.ticks + 1) ∧ (t.fe b).lists = (s.fe b).lists)
    ∧ (s.feRuns b = true → s.bit F.bayFeStatQueued b = false → Completes (.feStart b l) s fun t =>
        t.bit F.bayFeStatQueued b = true ∧ t.get F.bayFeStatQueuedList b = l % 64 ∧ t.fe b = s.fe b)
    ∧ (s.feRuns b = true → s.bit F.bayFeStatQueued b = true → Unclear s F.bayFeStatOverrun b 0 → Completes (.feStart b l) s fun t =>
        t.get F.bayFeStatOverrun b = min 65535 (s.get F.bayFeStatOverrun b + 1) ∧ t.fe b = s.fe b) := by
  have hx : exec (.feStart b l) s = .next (if s.feRuns b = false then s.feBegin b l (s.ticks + 1)
      else if s.bit F.bayFeStatQueued b then s.feOverrun b
      else (s.set F.bayFeStatQueued b 0 1).set F.bayFeStatQueuedList b 0 l) := congrArg Host.Outcome.next (if_neg (by simp [hc]))
  refine ⟨fun hr => ?_, fun hr hq => ?_, fun hr hq hu => ?_⟩
  · rw [if_pos hr] at hx
    obtain ⟨hruns, hlist, -⟩ := s.feBegin_runs b l (s.ticks + 1)
    refine .intro hx ⟨hruns, hlist, ?_, ?_, ?_⟩ <;> rw [State.feBegin_fe]
  · rw [if_neg (by simp [hr]), if_neg (by simp [hq])] at hx
    refine .intro hx ⟨?_, ?_, State.fe_of_fes (by rw [State.set_fes, State.set_fes]) b⟩
    · simp (disch := decide) [State.bit]
    · simp (disch := decide)
  · rw [if_neg (by simp [hr]), if_pos hq] at hx
    exact .intro hx ⟨State.get_count_min _ _ hu (by decide) (by decide) (by decide), State.fe_of_fes (State.count_fes ..) b⟩

theorem feStartCounts (b l : Nat) (s : State) (hc : testBit (s.get F.calStatusBusy) b = true) (hu : Unclear s F.bayFeStatOverrun b 0) :
    Completes (.feStart b l) s fun t => t.get F.bayFeStatOverrun b = min 65535 (s.get F.bayFeStatOverrun b + 1) ∧ t.fe b = s.fe b :=
  .intro (t := s.feOverrun b) (congrArg Host.Outcome.next (if_pos ⟨hc, rfl⟩))
    ⟨State.get_count_min _ _ hu (by decide) (by decide) (by decide), State.fe_of_fes (State.count_fes ..) b⟩

theorem feAbortEnds (b : Nat) (s : State) (hr : s.feRuns b = true) :
    ((s.fe b).begun = true → Completes (.feAbort b) s fun t => t.bit F.bayFeStatQueued b = false ∧ (t.fe b).abort = true
      ∧ t.feRuns b = true)
    ∧ ((s.fe b).begun = false → (s.fe b).word < 32 → feOp (s.feWord b) ≠ 1 → Completes (.feAbort b) s fun t =>
        t.bit F.bayFeStatQueued b = false ∧ t.feRuns b = false) := by
  have hfe : (s.set F.bayFeStatQueued b 0 0).fe b = s.fe b := State.fe_of_fes (State.set_fes ..) b
  have hq : (s.set F.bayFeStatQueued b 0 0).bit F.bayFeStatQueued b = false := by simp (disch := decide) [State.bit]
  have hruns : (s.set F.bayFeStatQueued b 0 0).feRuns b = true := by
    unfold State.feRuns State.bit at hr ⊢
    simpa (disch := decide) using hr
  have hword : (s.set F.bayFeStatQueued b 0 0).feWord b = s.feWord b := by
    unfold State.feWord
    simp (disch := decide) [hfe]
  refine ⟨fun hb => .intro rfl ?_, fun hb hw hop => .intro rfl ?_⟩ <;> unfold State.feAbort <;> dsimp only <;>
    rw [hfe, hruns, hword, if_neg (by exact Bool.noConfusion), hb]
  · rw [if_pos (by rfl)]
    refine ⟨?_, ?_, ?_⟩
    · exact (congrArg (fun n => decide (n = 1)) (State.get_setFe ..)).trans hq
    · rw [State.fe_setFe, if_pos rfl]
    · exact (congrArg (fun n => decide (n = 1)) (State.get_setFe ..)).trans hruns
  · rw [if_neg (by simp [hop])]
    obtain ⟨hidle, hkeep, -⟩ := State.feEnd_idle hq
    exact ⟨(congrArg (fun n => decide (n = 1)) hkeep).trans hq, hidle⟩

theorem feLdataWriteStores (b l w : Nat) (data : Word) (s : State) (hl : l = s.get F.bayFeLselList b) (hw : w = s.get F.bayFeLselWord b) :
    (s.feListBusy b l = false → Completes (.feLdataWrite b data) s fun t =>
      unitAt 0 (t.fe b).lists (32 * l + w) = feStore data.toNat
        ∧ ∀ k, k ≠ 32 * l + w → unitAt 0 (t.fe b).lists k = unitAt 0 (s.fe b).lists k)
    ∧ (s.feListBusy b l = true → Unclear s F.bayFeStatListBusy b 0 → Completes (.feLdataWrite b data) s fun t =>
      t.get F.bayFeStatListBusy b = 1 ∧ t.fe b = s.fe b) := by
  subst hl hw
  have hfe (t : State) : (t.feAutoinc b).fe b = t.fe b := State.fe_of_fes ((State.feAutoinc_within ..).fes (by decide)) b
  refine ⟨fun hb => .intro rfl ?_, fun hb hu => .intro rfl ?_⟩
  · rw [hfe, if_neg (by rw [hb]; exact Bool.noConfusion)]
    unfold State.fePut
    rw [State.fe_setFe, if_pos rfl]
    refine ⟨by rw [List.foldl_cons, List.foldl_nil, unitAt_putUnit, if_pos rfl], fun k hk => ?_⟩
    rw [List.foldl_cons, List.foldl_nil, unitAt_putUnit, if_neg hk]
  · rw [hfe, if_pos hb]
    refine ⟨?_, State.fe_of_fes (State.hwSet_fes ..) b⟩
    rw [(State.feAutoinc_within ..).get _ _ _ (by decide)]
    exact State.get_hwSet _ _ _ _ hu (by decide) (by decide)

/-! ### Words of a running list -/

theorem feDelayBegins (b : Nat) (s : State) (h : s.feDue b 2 = true) :
    Completes (.feDelay b) s fun t => (t.fe b).begun = true
      ∧ (t.fe b).wait = some (((s.fe b).at_ + 1) / 2 + s.feWord b % 2 ^ 32) ∧ (t.fe b).word = (s.fe b).word := by
  refine .intro (if_pos h) ?_
  rw [State.fe_setFe, if_pos rfl]
  exact ⟨rfl, rfl, rfl⟩

theorem feWriteSends (b miso w : Nat) (s : State) (hw : w = s.feWord b) (hd : s.feDue b 1 = true)
    (he : s.feWriteEnd b w < 2 * s.ticks + 2) (hab : (s.fe b).abort = false) :
    Completes (.feWrite b miso) s fun t => (t.fe b).word = (s.fe b).word + 1 ∧ (t.fe b).at_ = s.feWriteEnd b w
      ∧ t.out = s.out ++ [.spi b (w / 2 ^ 59 % 2)
          (if w / 2 ^ 59 % 2 = 0 then s.get F.bayFeCfgModeA b else s.get F.bayFeCfgModeB b) (s.feDiv b) (feBits w)
          (w % 2 ^ 48 % 2 ^ feBits w) (s.feEdge b w)]
      ∧ (testBit w 57 = true → feBits w ≤ 48 → t.get F.bayFeRxData b (w / 2 ^ 54 % 8) = miso % 2 ^ feBits w
          ∧ t.get F.bayFeRxValid b (w / 2 ^ 54 % 8) = 1) := by
  refine .intro (if_pos ⟨hd, hw ▸ he⟩) ?_
  rw [← hw]
  generalize ho : Output.spi _ _ _ _ _ _ _ = o
  generalize hu : (if testBit w 57 = true then ((s.emit o).set F.bayFeRxData b (w / 2 ^ 54 % 8) (miso % 2 ^ feBits w)).set
    F.bayFeRxValid b (w / 2 ^ 54 % 8) 1 else s.emit o) = u
  have hufe : u.fe b = s.fe b := by
    subst hu
    refine State.fe_of_fes ?_ b
    split
    · rw [State.set_fes, State.set_fes]
      rfl
    · rfl
  have huout : u.out = s.out ++ [o] := by
    subst hu
    split
    · rw [State.set_out, State.set_out]
      rfl
    · rfl
  have hurx : testBit w 57 = true → feBits w ≤ 48 → u.get F.bayFeRxData b (w / 2 ^ 54 % 8) = miso % 2 ^ feBits w
      ∧ u.get F.bayFeRxValid b (w / 2 ^ 54 % 8) = 1 := by
    intro h57 hbits
    have hlt : miso % 2 ^ feBits w % 2 ^ 48 = miso % 2 ^ feBits w :=
      Nat.mod_eq_of_lt ((Nat.mod_lt _ (Nat.two_pow_pos _)).trans_le (Nat.pow_le_pow_right (by decide) hbits))
    subst hu
    rw [if_pos h57]
    simpa (disch := decide) using hlt
  have hnext (x : FeX) (hxa : x.abort = (u.fe b).abort) (hxw : x.word = (u.fe b).word) :
      (((u.setFe b x).feNext b (s.feWriteEnd b w)).fe b).word = (s.fe b).word + 1
      ∧ (((u.setFe b x).feNext b (s.feWriteEnd b w)).fe b).at_ = s.feWriteEnd b w
      ∧ ((u.setFe b x).feNext b (s.feWriteEnd b w)).out = s.out ++ [o]
      ∧ (testBit w 57 = true → feBits w ≤ 48 →
        ((u.setFe b x).feNext b (s.feWriteEnd b w)).get F.bayFeRxData b (w / 2 ^ 54 % 8) = miso % 2 ^ feBits w
        ∧ ((u.setFe b x).feNext b (s.feWriteEnd b w)).get F.bayFeRxValid b (w / 2 ^ 54 % 8) = 1) := by
    have hx : ((u.setFe b x).fe b) = x := by rw [State.fe_setFe, if_pos rfl]
    have hn := State.feNext_within (u.setFe b x) b (s.feWriteEnd b w)
    rw [State.feNext_goesOn (by rw [hx, hxa, hufe, hab]), hx, hn.out (by decide), hn.get _ _ _ (by decide), hn.get _ _ _ (by decide),
      State.get_setFe, State.get_setFe, hxw, hufe]
    exact ⟨rfl, rfl, huout, hurx⟩
  split
  · exact hnext _ rfl rfl
  · exact hnext _ rfl rfl

theorem feWaitEnds (b k : Nat) (s : State) (hk : (s.fe b).wait = some k) (hr : s.feRuns b = true) (hb : (s.fe b).begun = true)
    (hab : (s.fe b).abort = false) (hle : k ≤ s.ticks) :
    (feOp (s.feWord b) = 2 → Completes (.feDelayExpiry b) s fun t => (t.fe b).word = (s.fe b).word + 1 ∧ (t.fe b).at_ = 2 * k
      ∧ (t.fe b).begun = false)
    ∧ (feOp (s.feWord b) = 3 → s.bit F.bayFeStatQueued b = false → Unclear s F.bayFeStatTimeout b 0 →
        Completes (.feTimeout b) s fun t => t.get F.bayFeStatTimeout b = 1 ∧ t.feRuns b = false) := by
  refine ⟨fun hop => ?_, fun hop hq hu => ?_⟩
  · have hx : exec (.feDelayExpiry b) s = .next (s.feNext b (2 * k)) := by
      show execFeDelayExpiry b s = _
      unfold execFeDelayExpiry
      dsimp only
      rw [hk]
      exact if_pos ⟨hr, hb, hop, hle⟩
    refine .intro hx ?_
    rw [State.feNext_goesOn hab]
    exact ⟨rfl, rfl, rfl⟩
  · have hx : exec (.feTimeout b) s
        = .next (((s.hwSet F.bayFeStatTimeout b 0).post 0x0F02 b (s.get F.bayFeStatList b + (s.fe b).word * 256)).feEnd b) := by
      show execFeTimeout b s = _
      unfold execFeTimeout
      dsimp only
      rw [hk]
      exact if_pos ⟨hr, hb, hop, hle⟩
    refine .intro hx ?_
    have hp := State.post_within (s.hwSet F.bayFeStatTimeout b 0) 0x0F02 b (s.get F.bayFeStatList b + (s.fe b).word * 256)
    generalize State.post _ _ _ _ = u at hp ⊢
    have huq : u.bit F.bayFeStatQueued b = false := by
      rw [hp.bit _ _ _ (by decide), State.bit, State.get_hwSet_apart _ _ _ _ _ _ _ (by decide) (by decide) (by decide)]
      exact hq
    obtain ⟨hidle, -, ht⟩ := State.feEnd_idle huq
    refine ⟨?_, hidle⟩
    rw [ht, hp.get _ _ _ (by decide)]
    exact State.get_hwSet _ _ _ _ hu (by decide) (by decide)

theorem waitalertActs (b : Nat) (s : State) (hd : s.feDue b 3 = true) (hat : (s.fe b).at_ ≤ 2 * s.ticks) (hab : (s.fe b).abort = false) :
    (s.bit F.bayFeStatAlert b = true → Completes (.waitalert b) s fun t => (t.fe b).word = (s.fe b).word + 1)
    ∧ (s.bit F.bayFeStatAlert b = false → Completes (.waitalert b) s fun t => (t.fe b).begun = true
        ∧ (t.fe b).wait = if s.feWord b % 2 ^ 32 = 0 then none else some (((s.fe b).at_ + 1) / 2 + s.feWord b % 2 ^ 32)) := by
  have hx : exec (.waitalert b) s = _ := if_pos ⟨hd, hat⟩
  refine ⟨fun ha => .intro (hx.trans (if_pos ha)) ?_, fun ha => .intro (hx.trans (if_neg (by simp [ha]))) ?_⟩
  · rw [State.feNext_goesOn hab]
  · rw [State.fe_setFe, if_pos rfl]
    exact ⟨rfl, rfl⟩

theorem feListEndActs (b : Nat) (s : State) (h : s.feDue b 0 = true ∨ (s.feRuns b = true ∧ 32 ≤ (s.fe b).word)) :
    (s.bit F.bayFeStatQueued b = false → Completes (.feListEnd b) s fun t => t.feRuns b = false)
    ∧ (s.bit F.bayFeStatQueued b = true → Completes (.feListEnd b) s fun t => t.feRuns b = true
        ∧ t.get F.bayFeStatList b = s.get F.bayFeStatQueuedList b ∧ t.bit F.bayFeStatQueued b = false ∧ (t.fe b).word = 0) := by
  have hr : s.feRuns b = true := by
    rcases h with h | h
    · unfold State.feDue at h
      simp only [Bool.and_eq_true] at h
      exact h.1.1.1.1
    · exact h.1
  have hx : exec (.feListEnd b) s = .next (s.feEnd b) := congrArg _ (if_pos ⟨hr, h.imp_right And.right⟩)
  refine ⟨fun hq => .intro hx ?_, fun hq => .intro hx ?_⟩
  · obtain ⟨hidle, -⟩ := State.feEnd_idle hq
    exact hidle
  · exact State.feEnd_queued hq

/-- What an alert's fall sends: a record and a flag, where they are enabled (R491). -/
def State.feAlertSends (v : State) (b : Nat) : State :=
  let w := if v.bit F.bayFeCfgAlertEvent b then v.post 0x0F01 b 0 else v
  if w.bit F.bayFeCfgAlertFlagEn b then w.setFlags (w.get F.bayFeCfgAlertThread b) (2 ^ w.get F.bayFeCfgAlertFlag b) (.pin (32 + b)) else w

theorem State.feAlertSends_within (v : State) (b : Nat) :
    Only 0x1844000000000000000000000000000000000000400000000000000000145000 v (v.feAlertSends b) := by
  unfold State.feAlertSends
  extract_lets w
  have hw : Only 0x1844000000000000000000000000000000000000400000000000000000145000 v w :=
    .ite (fun _ => (State.post_within ..).mono (by decide)) fun _ => .refl ..
  exact .ite (fun _ => hw.step (State.setFlags_within ..) (by decide)) fun _ => hw

theorem feAlertShows (b : Nat) (low fell : Bool) (s : State) (hr : s.feRuns b = false) :
    Completes (.feAlert b low fell) s fun t => t.bit F.bayFeStatAlert b = low
      ∧ (fell = true → Unclear s F.bayFeStatAlertSeen b 0 → t.get F.bayFeStatAlertSeen b = 1) := by
  have hx : exec (.feAlert b low fell) s = .next
      (let u := if fell then ((s.setBit F.bayFeStatAlert b 0 low).hwSet F.bayFeStatAlertSeen b 0).feAlertSends b
        else s.setBit F.bayFeStatAlert b 0 low
      if low ∧ u.feRuns b ∧ (u.fe b).begun ∧ feOp (u.feWord b) = 3 then u.feNext b (2 * u.ticks) else u) := rfl
  have hlow : (s.setBit F.bayFeStatAlert b 0 low).bit F.bayFeStatAlert b = low := State.bit_setBit _ _ _ _ _ (by decide) (by decide)
  have hset : Only (2 ^ RegName.bayFeStat.ctorIdx) s (s.setBit F.bayFeStatAlert b 0 low) := State.set_only _ _ _ _ (.refl ..) (by decide)
  have hruns : (s.setBit F.bayFeStatAlert b 0 low).feRuns b = false := by
    unfold State.feRuns State.bit at hr ⊢
    simpa (disch := decide) [State.setBit] using hr
  have hclear : Unclear s F.bayFeStatAlertSeen b 0 → Unclear (s.setBit F.bayFeStatAlert b 0 low) F.bayFeStatAlertSeen b 0 := fun hu =>
    hset.unclear_field hu (by decide) (by decide) (State.decider_congr (hset.events (by decide)) _)
  generalize State.setBit _ _ _ _ low = t at hx hlow hruns hclear
  have ho := (t.hwSet F.bayFeStatAlertSeen b 0).feAlertSends_within b
  have hu : (if fell then (t.hwSet F.bayFeStatAlertSeen b 0).feAlertSends b else t).feRuns b = false := by
    cases fell
    · exact hruns
    · refine (ho.bit _ _ _ (by decide)).trans ?_
      rw [State.bit, State.get_hwSet_apart _ _ _ _ _ _ _ (by decide) (by decide) (by decide)]
      exact hruns
  refine .intro (hx.trans (congrArg _ (if_neg fun h => ?_))) ⟨?_, ?_⟩
  · exact Bool.noConfusion (hu.symm.trans h.2.1)
  · cases fell
    · exact hlow
    · refine (ho.bit _ _ _ (by decide)).trans ?_
      rw [State.bit, State.get_hwSet_apart _ _ _ _ _ _ _ (by decide) (by decide) (by decide)]
      exact hlow
  · rintro rfl hc
    exact (ho.get _ _ _ (by decide)).trans (State.get_hwSet _ _ _ _ (hclear hc) (by decide) (by decide))

/-- Settles O53. -/
theorem frontEnd : Obligations.FrontEnd :=
  ⟨⟨feStartActs, feStartCounts, feAbortEnds, feLdataWriteStores⟩,
    feWriteSends, feDelayBegins, feWaitEnds, waitalertActs, feListEndActs, feAlertShows⟩

end Sys2Proof.Machine
end

