-- ==== Sys2Proof/Proofs/DeviceReset.lean ====
section
/-!
PROOFS. DeviceReset.lean: what a reset of the device leaves, rail faults,
  memory errors and temperatures (R456 to R474); from these O52.
-/
namespace Sys2Proof.Machine
set_option Elab.async false

/-! ### The fields that a reset keeps -/

theorem State.get_keepFields_apart (s t : State) (l : List Fld) (g : Fld) (i j : Nat)
    (h : ∀ f ∈ l, f.lo + f.width ≤ 64 ∧ (f.reg ≠ g.reg ∨ f.Apart g)) : (s.keepFields t l).get g i j = t.get g i j := by
  unfold State.keepFields
  induction l generalizing t with
  | nil => rfl
  | cons a l ih =>
    obtain ⟨hlo, hap⟩ := h a List.mem_cons_self
    rw [List.foldl_cons, ih _ fun f hf => h f (List.mem_cons_of_mem _ hf)]
    exact State.get_set_ne t a g 0 0 (s.get a) i j hlo (hap.imp_right fun h => .inr (.inr h))

theorem State.get_keepFields_mem (s t : State) (l : List Fld) (g : Fld) (hg : g ∈ l) (hlo : g.lo + g.width ≤ 64)
    (h : ∀ f ∈ l, f = g ∨ f.lo + f.width ≤ 64 ∧ (f.reg ≠ g.reg ∨ f.Apart g)) : (s.keepFields t l).get g = s.get g := by
  unfold State.keepFields
  induction l generalizing t with
  | nil => exact absurd hg List.not_mem_nil
  | cons a l ih =>
    rw [List.foldl_cons]
    by_cases hl : g ∈ l
    · exact ih _ hl fun f hf => h f (List.mem_cons_of_mem _ hf)
    · have ha : a = g := ((List.mem_cons.1 hg).resolve_right hl).symm
      refine (State.get_keepFields_apart s _ l g 0 0 fun f hf => (h f (List.mem_cons_of_mem _ hf)).resolve_left ?_).trans ?_
      · rintro rfl
        exact hl hf
      · rw [ha, State.get_set_self _ _ _ _ _ hlo]
        exact Nat.mod_eq_of_lt (State.get_lt ..)

/-- The fields that a reset of the device keeps. -/
def keptFields (code : Nat) : List Fld :=
  F.rasStatusDebugLocked :: F.rasStatusFaultRail ::
    ((if reach code = 3 then [] else [F.clkStatusRootLock, F.clkStatusHoldover, F.clkStatusRefLost])
      ++ if reach code = 1 then [F.hifLinkSpeed, F.hifLinkWidth, F.hifLinkDlUp] else [])

/-- Whatever a reset's reach, what holds of these eight holds of each field that it keeps. -/
theorem keptFields_all {p : Fld → Prop} {code : Nat} (hp : ∀ g ∈ [F.rasStatusDebugLocked, F.rasStatusFaultRail,
    F.clkStatusRootLock, F.clkStatusHoldover, F.clkStatusRefLost, F.hifLinkSpeed, F.hifLinkWidth, F.hifLinkDlUp], p g) :
    ∀ f ∈ keptFields code, p f := by
  intro f h
  refine hp f ?_
  unfold keptFields at h
  split at h <;> split at h <;> simp only [List.mem_cons, List.mem_append, List.not_mem_nil, List.nil_append, or_false] at h ⊢ <;>
    tauto

/-! ### The state after a reset of the device (R464) -/

/-- Everything at its reset value but what no register holds and a reset keeps. -/
def State.resetBase (u : State) (code : Nat) : State :=
  { State.reset with
    pending := u.pending, ticks := u.ticks, out := u.out, free := u.free, events := u.events
    clk := if reach code = 3 then {} else { refLast := u.clk.refLast, refBack := u.clk.refBack, refAt := u.clk.refAt }
    cal := { ({} : CalX) with bankA := u.cal.bankA, bankB := u.cal.bankB }
    host := { pcie := if code = 2 then u.host.pcie else if reach code = 1 then u.host.pcie.functionReset else {} } }

theorem State.deviceReset_eq (s : State) (code : Nat) : s.deviceReset code
    = (s.interrupted.allDenLow.lanesIdle.keepFields (s.interrupted.allDenLow.lanesIdle.resetBase code) (keptFields code)).set
      F.rasStatusLastReset 0 0 code := rfl

/-- What a reset of the device leaves, from the state `u` in which its interrupted writes have ended. -/
structure Restarted (u t : State) (code : Nat) : Prop where
  lastReset : t.get F.rasStatusLastReset = code % 8
  debugLocked : t.get F.rasStatusDebugLocked = u.get F.rasStatusDebugLocked
  faultRail : t.get F.rasStatusFaultRail = u.get F.rasStatusFaultRail
  hostReady : t.get F.rasStatusHostReady = 0
  stopped : ∀ q, t.seqState q = 0
  rootLock : reach code = 3 → t.get F.clkStatusRootLock = 0
  mem : t.mem = []
  seqs : t.seqs = []
  rings : t.host.rings = []
  ras : t.ras = {}
  out : t.out = u.out
  pending : t.pending = u.pending
  bankA : t.cal.bankA = u.cal.bankA
  bankB : t.cal.bankB = u.cal.bankB

theorem State.deviceReset_restarts (s : State) (code : Nat) :
    Restarted s.interrupted.allDenLow.lanesIdle (s.deviceReset code) code := by
  rw [State.deviceReset_eq]
  generalize s.interrupted.allDenLow.lanesIdle = u
  have hkeep : Only allRegs (u.resetBase code) ((u.keepFields (u.resetBase code) (keptFields code)).set F.rasStatusLastReset 0 0 code) :=
    State.set_only _ _ _ _ (State.keepFields_only _ _ (.refl ..) (by decide)) (by decide)
  have hapart (g : Fld) (hr : g.reg ≠ .rasStatus ∨ F.rasStatusLastReset.Apart g)
      (hg : ∀ f ∈ keptFields code, f.lo + f.width ≤ 64 ∧ (f.reg ≠ g.reg ∨ f.Apart g)) (hk : g.reg ≠ .coreKeyhash) (i j : Nat) :
      ((u.keepFields (u.resetBase code) (keptFields code)).set F.rasStatusLastReset 0 0 code).get g i j
        = g.reg.desc.reset % 2 ^ 64 / 2 ^ g.lo % 2 ^ g.width := by
    rw [State.get_set_ne _ F.rasStatusLastReset g 0 0 code i j (by decide) ((Or.imp_left Ne.symm hr).imp_right fun h => .inr (.inr h)),
      State.get_keepFields_apart _ _ _ _ _ _ hg, ← State.reset_get g i j hk]
    exact State.get_of_regs rfl g i j
  have hmem (g : Fld) (hr : F.rasStatusLastReset.Apart g) (hg : g ∈ keptFields code) (hlo : g.lo + g.width ≤ 64)
      (h : ∀ f ∈ keptFields code, f = g ∨ f.lo + f.width ≤ 64 ∧ (f.reg ≠ g.reg ∨ f.Apart g)) :
      ((u.keepFields (u.resetBase code) (keptFields code)).set F.rasStatusLastReset 0 0 code).get g = u.get g := by
    rw [State.get_set_ne _ F.rasStatusLastReset g 0 0 code 0 0 (by decide) (.inr (.inr (.inr hr)))]
    exact State.get_keepFields_mem _ _ _ _ hg hlo h
  refine ⟨State.get_set_self _ _ _ _ _ (by decide), ?_, ?_, ?_, fun q => ?_, fun hr => ?_, hkeep.mem (by decide),
    hkeep.seqs (by decide),
    congrArg HostX.rings (hkeep.host (by decide)), hkeep.ras (by decide), hkeep.out (by decide), hkeep.pending (by decide),
    (congrArg CalX.bankA (hkeep.cal (by decide))).trans rfl, (congrArg CalX.bankB (hkeep.cal (by decide))).trans rfl⟩
  · exact hmem _ (by decide) (.head _) (by decide) (keptFields_all (by decide))
  · exact hmem _ (by decide) (.tail _ (.head _)) (by decide) (keptFields_all (by decide))
  · exact hapart F.rasStatusHostReady (.inr (by decide)) (keptFields_all (by decide)) (by decide) 0 0
  · exact hapart F.seqStatusState (.inl (by decide)) (keptFields_all (by decide)) (by decide) q 0
  · refine hapart F.clkStatusRootLock (.inl (by decide)) (fun f hf => ?_) (by decide) 0 0
    unfold keptFields at hf
    rw [if_pos hr, if_neg (by omega)] at hf
    revert f
    decide

/-- What holds of a state and is kept by each step of a fold holds at its end. -/
theorem foldl_keeps {α : Type} {P : State → Prop} {f : State → α → State} (h : ∀ t a, P t → P (f t a)) :
    ∀ (l : List α) {s : State}, P s → P (l.foldl f s)
  | [], _, hs => hs
  | a :: l, s, hs => foldl_keeps h l (h s a hs)

theorem State.driveTo_sends {o : Output} (s : State) (c : Nat) (drv den : Bool) (t1 t2 : Nat) (h : o ∈ s.out) :
    o ∈ (s.driveTo c drv den t1 t2).out := by
  have hemit (t : State) (e : Output) (ht : o ∈ t.out) : o ∈ (t.emit e).out := List.mem_append_left _ ht
  have hset (x : ChanX) : o ∈ (s.setChan c x).out := h
  unfold State.driveTo
  extract_lets x t u
  have hu : o ∈ u.out := by
    unfold u
    split
    · exact hset _
    · exact hemit _ _ (hset _)
  split
  · exact hu
  · exact hemit _ _ hu

/-- A reset of the device takes back nothing that has been sent. -/
theorem State.deviceReset_sends {o : Output} (s : State) (code : Nat) (h : o ∈ s.out) : o ∈ (s.deviceReset code).out := by
  rw [(s.deviceReset_restarts code).out]
  have hi : o ∈ s.interrupted.out := by rwa [(State.interrupted_within s).out (by decide)]
  have hd : o ∈ s.interrupted.allDenLow.out :=
    foldl_keeps (P := fun t => o ∈ t.out) (fun t _ ht => foldl_keeps (P := fun t => o ∈ t.out) (fun _ _ => State.driveTo_sends _ _ _ _ _ _) _ ht) _ hi
  refine foldl_keeps (P := fun t => o ∈ t.out) (fun t p ht => ?_) _ hd
  split
  · exact ht
  · exact List.mem_append_left _ ht

/-- The writes that a reset interrupts leave every field but the debug lock. -/
theorem State.interrupted_get (s : State) {f : Fld} (h : F.rasStatusDebugLocked.reg ≠ f.reg ∨ F.rasStatusDebugLocked.Apart f) :
    s.interrupted.get f = s.get f := by
  have hfree (t : State) : t.useFree.get f = t.get f := State.get_of_regs rfl ..
  have hcal (t : State) (x : CalX) : State.get { t with cal := x } f = t.get f := State.get_of_regs rfl ..
  unfold State.interrupted
  extract_lets t
  have ht : t.get f = s.get f := by
    unfold t
    split
    · rfl
    · rw [hfree]
      split
      · exact State.get_set_ne _ _ _ _ _ _ _ _ (by decide) (h.imp_right fun h => .inr (.inr h))
      · rfl
  clear_value t
  split
  · exact ht
  · rw [hfree]
    split
    · rw [hcal, ht]
    · exact ht

/-- A device that holds itself in reset (R467, R471). -/
theorem State.holdReset_holds (s : State) (code : Nat) : (s.holdReset code).ras.halted = true ∧ Output.thermtrip ∈ (s.holdReset code).out
    ∧ (s.holdReset code).get F.rasStatusLastReset = code % 8 ∧ (s.holdReset code).get F.rasStatusHostReady = 0
    ∧ (s.holdReset code).get F.rasStatusFaultRail = s.get F.rasStatusFaultRail := by
  have hsent : Output.thermtrip ∈ ((s.emit .thermtrip).deviceReset code).out :=
    State.deviceReset_sends _ _ (List.mem_append_right _ (List.mem_singleton_self _))
  have hr := (s.emit .thermtrip).deviceReset_restarts code
  have hrail : (s.emit .thermtrip).interrupted.allDenLow.lanesIdle.get F.rasStatusFaultRail = s.get F.rasStatusFaultRail := by
    rw [(State.lanesIdle_within _).get _ _ _ (by decide), (State.allDenLow_within _).get _ _ _ (by decide),
      State.interrupted_get _ (by decide)]
    rfl
  unfold State.holdReset
  extract_lets t
  have hg (f : Fld) : State.get { t with ras := { t.ras with halted := true } } f = t.get f := State.get_of_regs rfl ..
  rw [hg, hg, hg]
  exact ⟨rfl, hsent, hr.lastReset, hr.hostReady, hr.faultRail.trans hrail⟩

theorem railFaultHolds (rail : Nat) (s : State) (h : s.ras.halted = false) :
    Completes (.railFault rail) s fun t => t.ras.halted = true ∧ t.get F.rasStatusLastReset = 5
      ∧ t.get F.rasStatusFaultRail = rail % 2 ^ F.rasStatusFaultRail.width ∧ t.get F.rasStatusHostReady = 0
      ∧ Output.thermtrip ∈ t.out := by
  refine .intro (if_neg (by rw [h]; exact Bool.noConfusion)) ?_
  dsimp only
  generalize List.foldl _ s _ = u
  obtain ⟨hh, ho, hl, hr, hf⟩ := (u.set F.rasStatusFaultRail 0 0 rail).holdReset_holds 5
  exact ⟨hh, hl, hf.trans (State.get_set_self _ _ _ _ _ (by decide)), hr, ho⟩

/-! ### Memory errors (R456) -/

theorem correctedErrorCounts (i mem a : Nat) (s : State) (hu : Unclear s F.rasErrStatCeCount 0 0)
    (h : s.get F.rasErrStatCeCount + 1 < 2 ^ 32) :
    Completes (.rasUe 0 i mem a) s fun t => t.get F.rasErrStatCeCount = s.get F.rasErrStatCeCount + 1 := by
  have hx : exec (.rasUe 0 i mem a) s = .next (s.count F.rasErrStatCeCount F.rasErrStatCeSaturated 0 0 1) := by
    show execRasUe 0 i mem a s = _
    unfold execRasUe
    rw [if_pos rfl]
  refine .intro hx ?_
  rw [State.get_count_min _ _ hu (by decide) (by decide) (by decide)]
  exact Nat.min_eq_right (Nat.le_pred_of_lt h)

/-- The log of an uncorrectable error, and its record. -/
def State.ueLogged (s : State) (unit i mem a : Nat) : State :=
  (((((s.count F.rasErrStatUeCount F.rasErrStatUeSaturated 0 0 1).set F.rasErrLogUnit 0 0 unit).set F.rasErrLogIndex 0 0 i).set
    F.rasErrLogMemory 0 0 mem).set F.rasErrLogAddress 0 0 a).setBit F.rasErrLogValid 0 0 true

theorem exec_rasUe {unit : Nat} (h : unit ≠ 0) (i mem a : Nat) (s : State) : exec (.rasUe unit i mem a) s
    = .next (((s.ueLogged unit i mem a).post 0x0901 i ((s.ueLogged unit i mem a).rd ⟨.rasErrLog, 0,
      0⟩).toNat).ueOutcome unit i mem a) :=
  if_neg h

theorem uncorrectableErrorIsLogged (unit i mem a : Nat) (s : State) (h : unit ≠ 0) (hu : Unclear s F.rasErrStatUeCount 0 0) :
    Completes (.rasUe unit i mem a) s fun t => t.get F.rasErrStatUeCount = min 65535 (s.get F.rasErrStatUeCount + 1)
      ∧ t.get F.rasErrLogUnit = unit % 2 ^ F.rasErrLogUnit.width ∧ t.get F.rasErrLogIndex = i % 2 ^ F.rasErrLogIndex.width
      ∧ t.get F.rasErrLogMemory = mem % 2 ^ F.rasErrLogMemory.width
      ∧ t.get F.rasErrLogAddress = a % 2 ^ F.rasErrLogAddress.width ∧ t.get F.rasErrLogValid = 1 := by
  refine .intro (exec_rasUe h ..) ?_
  have hp := (s.ueLogged unit i mem a).post_within 0x0901 i ((s.ueLogged unit i mem a).rd ⟨.rasErrLog, 0, 0⟩).toNat
  have ho := ((hp.mono (N := 0x22d55844004000a4c810001000000000000200040003720000000000000000145000) (by decide)).step (State.ueOutcome_within _ unit i mem a) (by decide))
  generalize State.ueOutcome _ _ _ _ _ = t at ho ⊢
  rw [ho.get _ _ _ (by decide), ho.get _ _ _ (by decide), ho.get _ _ _ (by decide), ho.get _ _ _ (by decide), ho.get _ _ _ (by decide),
    ho.get _ _ _ (by decide)]
  unfold State.ueLogged
  refine ⟨?_, ?_⟩
  · simp (disch := decide) [State.setBit]
    exact State.get_count_min _ _ hu (by decide) (by decide) (by decide)
  · simp (disch := decide) [State.setBit]

theorem sramErrorStays (i mem a : Nat) (s : State) :
    Completes (.rasUe 7 i mem a) s fun t => sramBase / 4 + a % 2 ^ 19 ∈ t.disp.badWords :=
  .intro (exec_rasUe (by decide) ..) List.mem_cons_self

/-! ### Temperatures (R469 to R471, R474) -/

theorem peakClearTakes (i : Nat) (s : State) : Completes (.peakClear i) s fun t =>
    t.get F.thermTempPeak 0 i = s.get F.thermTempTemp 0 i ∧ t.get F.thermTempTemp 0 i = s.get F.thermTempTemp 0 i := by
  refine .intro rfl ⟨?_, ?_⟩
  · rw [State.get_set_self _ _ _ _ _ (by decide)]
    exact Nat.mod_eq_of_lt (State.get_lt ..)
  · rw [State.get_set_ne _ _ _ _ _ _ _ _ (by decide) (.inr (.inr (.inr (by decide)))),
      State.get_clear_ne _ _ _ _ _ _ _ (by decide) (by decide) (.inr (.inr (.inr (by decide))))]

theorem unsigned_lt (w : Nat) (x : Int) : unsigned w x < 2 ^ w := by
  have hpos : (0 : Int) < 2 ^ w := by positivity
  rw [unsigned, ← Nat.cast_lt (α := Int), Int.toNat_of_nonneg (Int.emod_nonneg x hpos.ne')]
  exact_mod_cast Int.emod_lt_of_pos x hpos

theorem signed_unsigned12 {x : Int} (hl : -2048 ≤ x) (hh : x ≤ 2047) : signed 12 (unsigned 12 x) = x := by
  unfold signed unsigned
  norm_num
  omega

/-- A reading that the sensor's register can hold. -/
def tempOf (l : List Int) (i : Nat) : Int := clampInt (-2048) 2047 (l.getD i 0)

theorem tempOf_range (l : List Int) (i : Nat) : -2048 ≤ tempOf l i ∧ tempOf l i ≤ 2047 := by
  unfold tempOf clampInt
  omega

theorem State.reading_temp (s : State) (i j : Nat) (v : Int) : (s.reading i v).get F.thermTempTemp 0 j
    = if j = i then unsigned 12 (clampInt (-2048) 2047 v) else s.get F.thermTempTemp 0 j := by
  have hset : (s.set F.thermTempTemp 0 i (unsigned 12 (clampInt (-2048) 2047 v))).get F.thermTempTemp 0 j
      = if j = i then unsigned 12 (clampInt (-2048) 2047 v) else s.get F.thermTempTemp 0 j := by
    split
    · next h => rw [h, State.get_set_self _ _ _ _ _ (by decide)]; exact Nat.mod_eq_of_lt (unsigned_lt ..)
    · next h => exact State.get_set_ne _ _ _ _ _ _ _ _ (by decide) (.inr (.inr (.inl (Ne.symm h))))
  unfold State.reading
  dsimp only
  split
  · rw [State.get_set_ne _ _ _ _ _ _ _ _ (by decide) (.inr (.inr (.inr (by decide)))), hset]
  · exact hset

theorem State.readings_temp (s : State) (l : List Int) (n i : Nat) :
    ((List.range n).foldl (fun (u : State) i => u.reading i (l.getD i 0)) s).get F.thermTempTemp 0 i
      = if i < n then unsigned 12 (tempOf l i) else s.get F.thermTempTemp 0 i := by
  induction n with
  | zero => rfl
  | succ n ih =>
    rw [List.range_succ, List.foldl_append, List.foldl_cons, List.foldl_nil, State.reading_temp, ih]
    by_cases hi : i = n
    · rw [if_pos hi, if_pos (by omega), hi]
      rfl
    · rw [if_neg hi]
      by_cases hlt : i < n
      · rw [if_pos hlt, if_pos (by omega)]
      · rw [if_neg hlt, if_neg (by omega)]

/-- The largest value met in a fold is at least each, and below any bound of all. -/
theorem foldl_largest (f : Nat → Int) (l : List Nat) (m : Nat × Int) :
    (∀ i ∈ l, f i ≤ (l.foldl (fun (m : Nat × Int) i => if m.2 < f i then (i, f i) else m) m).2)
    ∧ m.2 ≤ (l.foldl (fun (m : Nat × Int) i => if m.2 < f i then (i, f i) else m) m).2
    ∧ ∀ b, m.2 < b → (∀ i ∈ l, f i < b) → (l.foldl (fun (m : Nat × Int) i => if m.2 < f i then (i, f i) else m) m).2 < b := by
  induction l generalizing m with
  | nil => exact ⟨fun i hi => absurd hi List.not_mem_nil, le_refl _, fun b h _ => h⟩
  | cons a l ih =>
    rw [List.foldl_cons]
    obtain ⟨hall, hm, hb⟩ := ih (if m.2 < f a then (a, f a) else m)
    have hstep : m.2 ≤ (if m.2 < f a then (a, f a) else m).2 ∧ f a ≤ (if m.2 < f a then (a, f a) else m).2
        ∧ ∀ b, m.2 < b → f a < b → (if m.2 < f a then (a, f a) else m).2 < b := by
      split <;> refine ⟨?_, ?_, fun b _ _ => ?_⟩ <;> omega
    obtain ⟨h1, h2, h3⟩ := hstep
    refine ⟨fun i hi => ?_, h1.trans hm, fun b hmb h => ?_⟩
    · rcases List.mem_cons.1 hi with rfl | hi
      · exact h2.trans hm
      · exact hall i hi
    · exact hb b (h3 b hmb (h a List.mem_cons_self)) fun i hi => h i (List.mem_cons_of_mem _ hi)

theorem tempUpdateActs (l : List Int) (s : State) (h : s.ras.halted = false) (ht : s.ras.sensedAt + 1500 ≤ s.ticks) :
    ((∀ i < 16, l.getD i 0 < 500) → Completes (.tempUpdate l) s fun t =>
      (∀ i < 16, t.get F.thermTempTemp 0 i = unsigned 12 (clampInt (-2048) 2047 (l.getD i 0))) ∧ t.ras.halted = false)
    ∧ ((∃ i < 16, 500 ≤ l.getD i 0) → Completes (.tempUpdate l) s fun t => t.ras.halted = true ∧ Output.thermtrip ∈ t.out) := by
  have hx : exec (.tempUpdate l) s = .next (({ s with ras := { s.ras with sensedAt := s.ticks } }).temperatures l) :=
    congrArg Host.Outcome.next (if_neg (by rw [h]; simp; omega))
  have hr : ({ s with ras := { s.ras with sensedAt := s.ticks } } : State).ras.halted = false := h
  generalize ({ s with ras := { s.ras with sensedAt := s.ticks } } : State) = u at hx hr
  generalize hw : (List.range 16).foldl (fun (u : State) i => u.reading i (l.getD i 0)) u = w
  have hwr : w.ras.halted = false := by
    rw [← hw]
    exact foldl_keeps (P := fun t => t.ras.halted = false) (fun t i ht => by rwa [(State.reading_within ..).ras (by decide)]) _ hr
  have hget (i : Nat) (hi : i < 16) : w.get F.thermTempTemp 0 i = unsigned 12 (tempOf l i) := by
    rw [← hw, State.readings_temp, if_pos hi]
  have hsig (i : Nat) (hi : i < 16) : w.getS F.thermTempTemp 0 i = tempOf l i := by
    rw [State.getS, hget i hi]
    exact signed_unsigned12 (tempOf_range l i).1 (tempOf_range l i).2
  have hval : u.temperatures l = if 500 ≤ w.hottest.2 then (w.set F.thermStatusMaxTemp 0 0 (unsigned 12 w.hottest.2)).trip
      else ((w.set F.thermStatusMaxTemp 0 0 (unsigned 12 w.hottest.2)).judgeWarn w.hottest.1 w.hottest.2).judgeHot w.hottest.1
        w.hottest.2 := by
    rw [← hw]
    rfl
  obtain ⟨hall, -, hbound⟩ := foldl_largest (fun i => w.getS F.thermTempTemp 0 i) (List.range 16) (0, w.getS F.thermTempTemp 0 0)
  rw [hval] at hx
  refine ⟨fun hlow => ?_, fun ⟨i, hi, hhot⟩ => ?_⟩
  · have hlt (i : Nat) (hi : i < 16) : w.getS F.thermTempTemp 0 i < 500 := by
      rw [hsig i hi]
      have := hlow i hi
      unfold tempOf clampInt
      omega
    have hm : w.hottest.2 < 500 := hbound 500 (hlt 0 (by decide)) fun i hi => hlt i (List.mem_range.1 hi)
    rw [if_neg (by omega)] at hx
    have h1 : Only 0x2d74844004001a4c030007000000000000200400000000000000000000000145000 w (((w.set F.thermStatusMaxTemp 0 0 (unsigned 12 w.hottest.2)).judgeWarn w.hottest.1 w.hottest.2).judgeHot
        w.hottest.1 w.hottest.2) :=
      ((State.set_only _ _ _ _ (.refl ..) (by decide)).step (State.judgeWarn_within ..) (by decide)).step (State.judgeHot_within ..) (by decide)
    refine .intro hx ⟨fun i hi => ?_, ?_⟩
    · rw [h1.get _ _ _ (by decide)]
      exact hget i hi
    · rw [h1.ras (by decide)]
      exact hwr
  · have hm : 500 ≤ w.hottest.2 := by
      refine le_trans ?_ (hall i (List.mem_range.2 hi))
      rw [hsig i hi]
      unfold tempOf clampInt
      omega
    rw [if_pos hm] at hx
    obtain ⟨hh, ho, -⟩ := State.holdReset_holds ((List.range 4).foldl (fun (u : State) q => if u.seqState q = 0 then u else u.halt q 7)
      (w.set F.thermStatusMaxTemp 0 0 (unsigned 12 w.hottest.2)).allDenLow) 0
    exact .intro hx ⟨hh, ho⟩

/-- Settles O52. -/
theorem faultsAndTemperatures : Obligations.FaultsAndTemperatures :=
  ⟨railFaultHolds, correctedErrorCounts, uncorrectableErrorIsLogged, sramErrorStays, tempUpdateActs, peakClearTakes⟩

end Sys2Proof.Machine
end

