-- ==== Sys2Proof/Proofs/Resets.lean ====
section
/-!
PROOFS. Resets.lean: resets of sequencers, bays and the device, and their ends (R449, R460 to R465); from these O51.
-/
namespace Sys2Proof.Machine
set_option Elab.async false

/-! ### Sequencer resets (R461) -/

theorem State.halt_reads (s : State) (q reason : Nat) : (s.halt q reason).seqState q = 0
    ∧ (s.halt q reason).get F.seqStatusStopReason q = reason % 16 ∧ (s.halt q reason).get F.seqStatusFault q = 0
    ∧ ∃ r n, (s.halt q reason).seqX q = { run := r, nextBlk := n } := by
  unfold State.halt
  extract_lets t1 chans t2 t3 ran t4 t5 t6 l t7
  clear_value t4
  have h5 : t5.get F.seqStatusState q = 0 ∧ t5.get F.seqStatusStopReason q = reason % 16 ∧ t5.get F.seqStatusFault q = 0 := by
    unfold t5 State.setSeqState
    simp (disch := decide)
  clear_value t5
  have hx : t6.seqX q = { run := (t5.seqX q).run, nextBlk := (t5.seqX q).nextBlk } := by
    unfold t6
    rw [State.seqX_setSeqX, if_pos rfl]
  have h7 : Only 0x844844000000000000000000000000000000000000000000000000000000145000 t5 t7 :=
    (((State.dropPath_within ..).mono (by decide)).step (State.setSeqX_within ..) (by decide)).step (State.setLogX_within ..) (by decide)
  have hx7 : t7.seqX q = t6.seqX q := State.seqX_of_seqs ((State.setLogX_within ..).seqs (by decide)) q
  clear_value t7 t6
  obtain ⟨h1, h2, h3⟩ := h5
  have hend (u : State) (hu : Only 0x844844000000000000000000000000000000000000000000000000000000145000 t5 u) (hux : u.seqX q = t6.seqX q) : u.seqState q = 0
      ∧ u.get F.seqStatusStopReason q = reason % 16 ∧ u.get F.seqStatusFault q = 0 ∧ ∃ r n, u.seqX q = { run := r, nextBlk := n } :=
    ⟨(hu.get _ _ _ (by decide)).trans h1, (hu.get _ _ _ (by decide)).trans h2, (hu.get _ _ _ (by decide)).trans h3, _, _, hux.trans hx⟩
  split
  · exact hend _ (h7.step (State.post_within ..) (by decide))
      ((State.seqX_of_seqs ((State.post_within ..).seqs (by decide)) q).trans hx7)
  · exact hend _ h7 hx7

theorem seqResetStops (q : Nat) (src : Src) (s : State) (ha : Alone s (.seq q)) :
    Completes (.seqReset q src) s fun t => t.seqState q = 0 ∧ t.get F.seqStatusStopReason q = 11 ∧ t.get F.seqStatusFault q = 0
      ∧ t.get F.seqStatusResetting q = 1 ∧ (t.seqX q).levels = [] ∧ (t.seqX q).stack = [] ∧ (t.seqX q).acc = []
      ∧ unitAt 0 t.ras.resets q = s.ticks + 1500 := by
  refine Completes.alone ha rfl ?_
  have htk : (s.note ⟨.seq q, 1, srcRank src, 0⟩).ticks = s.ticks := rfl
  generalize s.note _ = w at htk ⊢
  have hd : (w.decideEvent (.store q) 1 (srcRank src) 0).2.ticks = s.ticks := ((State.decideEvent_within ..).ticks (by decide)).trans htk
  generalize (w.decideEvent (.store q) 1 (srcRank src) 0).2 = v at hd ⊢
  obtain ⟨h1, h2, h3, r, n, h4⟩ := v.halt_reads q 11
  have hticks : (v.halt q 11).ticks = s.ticks := ((State.halt_within ..).ticks (by decide)).trans hd
  generalize v.halt q 11 = u at h1 h2 h3 h4 hticks ⊢
  have hg (x : State) (y : RasX) (f : Fld) (i j : Nat) : State.get { x with ras := y } f i j = x.get f i j := State.get_of_regs rfl f i j
  unfold State.seqState at h1 ⊢
  rw [hg, hg, hg, hg]
  have hs (x : State) (y : RasX) : State.seqX { x with ras := y } q = x.seqX q := State.seqX_of_seqs rfl q
  rw [hs, State.seqX_of_seqs (State.set_seqs ..) q, h4]
  refine ⟨?_, ?_, ?_, ?_, rfl, rfl, rfl, ?_⟩
  · simpa (disch := decide) using h1
  · simpa (disch := decide) using h2
  · simpa (disch := decide) using h3
  · simp (disch := decide)
  · dsimp only
    rw [unitAt_putUnit, if_pos rfl, State.set_ticks, hticks]

theorem seqResetDoneEnds (q : Nat) (s : State) (h : s.get F.seqStatusResetting q = 1) :
    Completes (.seqResetDone q) s fun t => t.get F.seqStatusResetting q = 0 ∧ t.seqState q = s.seqState q := by
  have hx : exec (.seqResetDone q) s = .next (({ s with ras := { s.ras with resets := putUnit 0 s.ras.resets q 0 } }.dropPath q).set
      F.seqStatusResetting q 0 0) := congrArg Host.Outcome.next (if_pos (by rw [State.bit, h]; rfl))
  refine .intro hx ⟨State.get_set_self _ _ _ _ _ (by decide), ?_⟩
  unfold State.seqState
  rw [State.get_set_ne _ _ _ _ _ _ _ _ (by decide) (.inr (.inr (.inr (by decide)))), (State.dropPath_within ..).get _ _ _ (by decide)]
  exact State.get_of_regs rfl ..

/-! ### Bay resets (R449, R462) -/

theorem Assoc.find_filter_none {K V : Type} [DecidableEq K] (k : K) (p : K × V → Bool) (l : List (K × V)) (h : ∀ v, p (k, v) = false) :
    Assoc.find k (l.filter p) = none := by
  induction l with
  | nil => rfl
  | cons e l ih =>
    rw [List.filter_cons]
    split
    · next he =>
      have hk : e.1 ≠ k := by
        rintro rfl
        exact Bool.noConfusion ((h e.2).symm.trans he)
      rw [Assoc.find, if_neg hk, ih]
    · exact ih

theorem State.calRun_of_runs {s t : State} (h : t.cal.runs = s.cal.runs) (b : Nat) : t.calRun b = s.calRun b :=
  congrArg (Assoc.find b) h

/-- The commands that a batch completes leave the runs. -/
theorem State.endBatches_runs (s : State) : s.endBatches.cal.runs = s.cal.runs := by
  have hend (t : State) (k : CalBatch) : (t.endBatch k).cal.runs = t.cal.runs := by
    unfold State.endBatch
    split
    · extract_lets st
      refine foldl_keeps (P := fun u => u.cal.runs = t.cal.runs) (fun u tok hu => ?_) _ rfl
      split
      · rwa [(State.complete_within ..).cal (by decide)]
      · exact hu
    · rfl
  exact foldl_keeps (P := fun t => t.cal.runs = s.cal.runs) (fun t k ht => (hend t k).trans ht) _ rfl

theorem State.calOver_runs {s : State} {b : Nat} {r : CalRun} (h : s.calRun b = some r) (st : Nat) (park : Bool) :
    (s.calOver b st park).cal.runs = s.cal.runs.filter fun e => decide (e.1 ≠ b) := by
  unfold State.calOver
  rw [h]
  extract_lets src t0 t2 t3
  have h2 : t2.cal.runs = s.cal.runs.filter fun e => decide (e.1 ≠ b) := by
    unfold t2
    rw [(State.setStale_within ..).cal (by decide)]
    rfl
  clear_value t2
  have h3 : t3.cal.runs = s.cal.runs.filter fun e => decide (e.1 ≠ b) := by
    unfold t3
    split
    · refine foldl_keeps (P := fun u => u.cal.runs = s.cal.runs.filter fun e => decide (e.1 ≠ b)) (fun u c hu => ?_) _ h2
      rwa [(State.parkLevels_within ..).cal (by decide)]
    · exact h2
  exact h3

/-- After an abort the bay has no run. -/
theorem State.calAbort_calRun (s : State) (b cause : Nat) : (s.calAbort b cause).calRun b = none := by
  unfold State.calAbort
  split
  · assumption
  · next r h =>
    extract_lets t1 t2
    have ht2 : t2.cal.runs = s.cal.runs.filter fun e => decide (e.1 ≠ b) := by
      unfold t2 t1
      rw [State.set_cal, (State.hwSetBit_only F.calStatusAborted 0 0 b (.refl 0x4000000000000000000000000000000000200000000000000000000001000 _) (by decide)).cal (by decide)]
      exact State.calOver_runs h ..
    unfold State.calRun
    rw [State.endBatches_runs]
    refine (congrArg (Assoc.find b) (Eq.trans ?_ ht2)).trans (Assoc.find_filter_none _ _ _ fun v => by simp)
    split
    · rfl
    · rw [(State.post_within ..).cal (by decide)]

/-- A bit of a mask after one has been written. -/
theorem State.testBit_putMask (s : State) (f : Fld) (i j n m : Nat) (v : Bool) (h : f.lo + f.width ≤ 64) (hm : m < f.width) :
    testBit ((s.putMask f i j n v).get f i j) m = if m = n then v else testBit (s.get f i j) m := by
  unfold State.putMask
  rw [State.get_set_self _ _ _ _ _ h, testBit_nat, Nat.testBit_mod_two_pow, decide_eq_true hm, Bool.true_and, ← testBit_nat,
    testBit_putBit]

/-- The registers and units of a bay at their reset values. -/
def State.bayCleared (t : State) (b : Nat) (byHw : Bool) : State := { t with
  regs := t.regs.filter fun e => !e.1.ofBay b
  adcs := putUnit {} t.adcs b {}
  acqs := putUnit {} t.acqs b {}
  fes := putUnit {} t.fes b {}
  tims := (List.range 4).foldl (fun l i => putUnit {} l (4 * b + i) {}) t.tims
  dclks := putUnit {} (putUnit {} t.dclks (2 * b) {}) (2 * b + 1) {}
  cal := { t.cal with
    info := (chansOf b).foldl (fun l c => putUnit {} l c {}) t.cal.info
    bayTemp := putUnit 0 t.cal.bayTemp b 0 }
  ras := { t.ras with byAuto := (t.ras.byAuto.filter fun c => decide (c ≠ b)) ++ (if byHw then [b] else []) } }

section
variable (t : State) (b : Nat) (byHw : Bool)

theorem State.bayCleared_adc : (t.bayCleared b byHw).adc b = {} := (unitAt_putUnit ({} : AdcX) t.adcs b b {}).trans (if_pos rfl)
theorem State.bayCleared_acq : (t.bayCleared b byHw).acq b = {} := (unitAt_putUnit ({} : AcqX) t.acqs b b {}).trans (if_pos rfl)
theorem State.bayCleared_fe : (t.bayCleared b byHw).fe b = {} := (unitAt_putUnit ({} : FeX) t.fes b b {}).trans (if_pos rfl)

theorem State.bayCleared_runs : (t.bayCleared b byHw).cal.runs = t.cal.runs := by
  unfold State.bayCleared
  dsimp only

theorem State.bayCleared_rd {k : RegKey} (h : k.ofBay b = true) : (t.bayCleared b byHw).rd k = resetWord k := by
  unfold State.rd Assoc.rd State.bayCleared
  dsimp only
  rw [Assoc.find_filter_none _ _ _ fun v => by simp [h]]

end

theorem State.bayReset_clears {s : State} {b : Nat} (ha : Alone s (.bay b)) (src : Src) (byHw : Bool) :
    ∃ v : State, s.bayReset b src byHw = (v.bayCleared b byHw).putMask F.rasStatusBayResetting 0 0 b true ∧ v.calRun b = none := by
  unfold State.bayReset
  rw [State.onObj_alone ha]
  extract_lets t running t'
  refine ⟨if running then t'.failBay b else t', rfl, ?_⟩
  have hruns (u : State) (hu : u.cal = (t.calAbort b 6).cal) : u.calRun b = none := by
    unfold State.calRun
    rw [hu]
    exact State.calAbort_calRun ..
  have hq : t'.cal = (t.calAbort b 6).cal := (State.quietBay_within ..).cal (by decide)
  split
  · exact hruns _ (((State.failBay_within ..).cal (by decide)).trans hq)
  · exact hruns _ hq

theorem rasStatus_ofBay (b : Nat) : (F.rasStatusBayResetting.key 0 0).ofBay b = false := by
  have h : decide (0x40000 ≤ (F.rasStatusBayResetting.key 0 0).name.desc.base) = false := by decide
  unfold RegKey.ofBay
  rw [h, Bool.false_and, Bool.false_and]

theorem bayResetClears (b : Nat) (src : Src) (s : State) (hb : b < 8) (ha : Alone s (.bay b)) :
    Completes (.bayReset b src) s fun t => testBit (t.get F.rasStatusBayResetting) b = true
      ∧ (∀ k : RegKey, k.ofBay b = true → t.rd k = resetWord k) ∧ t.adc b = {} ∧ t.acq b = {} ∧ t.fe b = {} ∧ t.calRun b = none := by
  obtain ⟨v, hv, hrun⟩ := State.bayReset_clears ha src false
  refine .intro (congrArg Host.Outcome.next hv) ⟨?_, fun k hk => ?_, ?_, ?_, ?_, ?_⟩
  · exact (State.testBit_putMask _ _ _ _ _ _ _ (by decide) hb).trans (if_pos rfl)
  · have hne : k ≠ F.rasStatusBayResetting.key 0 0 := by
      rintro rfl
      exact absurd hk (by rw [rasStatus_ofBay]; exact Bool.noConfusion)
    unfold State.putMask State.set
    rw [State.rd_wr, if_neg hne, State.bayCleared_rd _ _ _ hk]
  · exact (State.adc_of_adcs (State.set_adcs ..) b).trans (State.bayCleared_adc ..)
  · exact (State.acq_of_acqs (State.set_acqs ..) b).trans (State.bayCleared_acq ..)
  · exact (State.fe_of_fes (State.set_fes ..) b).trans (State.bayCleared_fe ..)
  · exact (State.calRun_of_runs ((congrArg CalX.runs (State.set_cal ..)).trans (State.bayCleared_runs ..)) b).trans hrun

theorem bayResetDoneEnds (b n : Nat) (failed : List Nat) (s : State) (hb : b < 8)
    (hr : testBit (s.get F.rasStatusBayResetting) b = true) :
    Completes (.bayResetDone b n failed) s fun t => testBit (t.get F.rasStatusBayResetting) b = false
      ∧ t.get F.bayAdcStatSpareUsed b = (if 1 ≤ n then 1 else 0) ∧ t.get F.bayAdcStatDegraded b = (if 2 ≤ n then 1 else 0) := by
  refine .intro (if_pos hr) ?_
  have hcal := State.loadCal_within (s.putMask F.rasStatusBayResetting 0 0 b false) failed b
  have hbit : testBit ((s.putMask F.rasStatusBayResetting 0 0 b false).get F.rasStatusBayResetting) b = false :=
    (State.testBit_putMask _ _ _ _ _ _ _ (by decide) hb).trans (if_pos rfl)
  rw [← hcal.get _ _ _ (by decide)] at hbit
  generalize State.loadCal _ _ _ = u at hbit ⊢
  have hp := (u.sliceTest b n).post_within 0x0903 b (if (u.sliceTest b n).ras.byAuto.contains b then 2 else 1)
  rw [hp.get _ _ _ (by decide), hp.get _ _ _ (by decide), hp.get _ _ _ (by decide)]
  refine ⟨?_, ?_, ?_⟩
  · rw [(State.sliceTest_within ..).get _ _ _ (by decide)]
    exact hbit
  · unfold State.sliceTest State.setBit
    simp (disch := decide)
    split <;> simp [*]
  · unfold State.sliceTest State.setBit
    simp (disch := decide)
    split <;> simp [*]

/-! ### Resets of the device (R460, R463 to R465) -/

/-- With no fuse being blown and no commit in progress a reset interrupts nothing. -/
theorem State.interrupted_idle {s : State} (hf : s.host.fuseBlow = []) (hj : s.cal.job = none) : s.interrupted = s := by
  unfold State.interrupted
  rw [if_pos hf]
  dsimp only
  rw [hj]

theorem State.deviceReset_wasReset {s : State} (hf : s.host.fuseBlow = []) (hj : s.cal.job = none) {code : Nat} (hc : code < 8) :
    WasReset s (s.deviceReset code) code
    ∧ (s.deviceReset code).get F.rasStatusDebugLocked = s.get F.rasStatusDebugLocked
    ∧ (s.deviceReset code).cal.bankA = s.cal.bankA ∧ (s.deviceReset code).cal.bankB = s.cal.bankB
    ∧ (reach code = 3 → (s.deviceReset code).get F.clkStatusRootLock = 0) := by
  obtain ⟨hl, hd, -, hh, hs, hroot, hm, hq, hr, hras, -, hp, hA, hB⟩ := s.deviceReset_restarts code
  have hu : Only 0x10040000000000000000000000000000000000000000000000000000000000000 s s.interrupted.allDenLow.lanesIdle := by
    rw [State.interrupted_idle hf hj]
    exact ((State.allDenLow_within s).mono (by decide)).step (State.lanesIdle_within _) (by decide)
  refine ⟨⟨hl.trans (Nat.mod_eq_of_lt hc), hh, fun q _ => hs q, hm, hr, hq, by rw [hras], hp.trans (hu.pending (by decide))⟩,
    hd.trans (hu.get _ _ _ (by decide)), hA.trans (congrArg CalX.bankA (hu.cal (by decide))),
    hB.trans (congrArg CalX.bankB (hu.cal (by decide))), hroot⟩

theorem resetsOfReadyDevice (c : Instr) (code : Nat) (s : State) (hready : s.get F.rasStatusHostReady = 1) (hh : s.ras.halted = false)
    (hf : s.host.fuseBlow = []) (hj : s.cal.job = none)
    (hc : (c = .warm 0x5752 ∧ code = 2) ∨ (c = .functionLevelReset ∧ code = 3) ∨ (c = .d3hotToD0 ∧ code = 4) ∨ (c = .perst ∧ code = 1)) :
    Completes c s fun t => WasReset s t code ∧ t.get F.rasStatusDebugLocked = s.get F.rasStatusDebugLocked
      ∧ t.cal.bankA = s.cal.bankA ∧ t.cal.bankB = s.cal.bankB := by
  have hreq (n : Nat) : s.requestReset n = s.deviceReset n :=
    if_neg (by simp [hh, State.bit, hready])
  have hx : exec c s = .next (s.requestReset code) ∧ code < 8 := by
    rcases hc with ⟨rfl, rfl⟩ | ⟨rfl, rfl⟩ | ⟨rfl, rfl⟩ | ⟨rfl, rfl⟩ <;> exact ⟨rfl, by decide⟩
  obtain ⟨hw, hd, hA, hB, -⟩ := State.deviceReset_wasReset hf hj hx.2
  exact .intro (hx.1.trans (congrArg _ (hreq code))) ⟨hw, hd, hA, hB⟩

theorem powerOnResets (s : State) (hh : s.ras.halted = false) (hf : s.host.fuseBlow = []) (hj : s.cal.job = none) :
    Completes .powerOn s fun t => WasReset s t 0 ∧ t.get F.clkStatusRootLock = 0
      ∧ t.get F.rasStatusDebugLocked = s.get F.rasStatusDebugLocked ∧ t.cal.bankA = s.cal.bankA ∧ t.cal.bankB = s.cal.bankB := by
  have hx : exec .powerOn s = .next (s.deviceReset 0) := congrArg (fun n => Host.Outcome.next (s.deviceReset n)) (if_neg (by simp [hh]))
  obtain ⟨hw, hd, hA, hB, hroot⟩ := State.deviceReset_wasReset hf hj (code := 0) (by decide)
  exact .intro hx ⟨hw, hroot (by decide), hd, hA, hB⟩

theorem hostReadySets (slices failed : List Nat) (s : State) (hr : s.get F.rasStatusHostReady = 0) (hh : s.ras.halted = false) :
    Completes (.hostReady slices failed) s fun t => t.get F.rasStatusHostReady = 1 ∧ t.ras.doneDue = true := by
  refine .intro (if_neg (by simp [State.bit, hr, hh])) ?_
  dsimp only
  generalize List.foldl _ _ _ = u
  exact ⟨(State.get_of_regs rfl ..).trans (State.get_set_self u _ _ _ _ (by decide)), rfl⟩

/-- Settles O51. -/
theorem resets : Obligations.Resets :=
  ⟨⟨seqResetStops, seqResetDoneEnds, bayResetClears, bayResetDoneEnds⟩,
    resetsOfReadyDevice, fun _ _ h => .intro (congrArg Host.Outcome.next (if_neg h)) rfl, powerOnResets, hostReadySets⟩

end Sys2Proof.Machine
end

