-- ==== Sys2Proof/Proofs/LocalDram.lean ====
section
/-!
PROOFS. LocalDram.lean: the states, training, refresh, scrub and self-refresh of the DRAM controller (R416 to R434); from these O47
and O48.
-/
namespace Sys2Proof.Machine
set_option Elab.async false

/-! ### Bytes, units and pages -/

theorem State.memByte_putBytes (s : State) (a x : Nat) (l : List Nat) : (s.putBytes a l).memByte x
    = if a ≤ x ∧ x < a + l.length then BitVec.ofNat 8 (l.getD (x - a) 0) else s.memByte x := by
  induction l generalizing s a with
  | nil => rw [if_neg (by simp)]; rfl
  | cons b l ih =>
    rw [State.putBytes, ih, State.memByte_putByte, List.length_cons]
    by_cases hx : x = a
    · subst hx
      rw [if_neg (by omega), if_pos rfl, if_pos (by omega), Nat.sub_self]
      rfl
    · by_cases hin : a + 1 ≤ x ∧ x < a + 1 + l.length
      · rw [if_pos hin, if_pos (by omega), show x - a = (x - (a + 1)) + 1 by omega, List.getD_cons_succ]
      · rw [if_neg hin, if_neg hx, if_neg (by omega)]

/-- A unit that is not the store's default is stored as it is. -/
theorem unitAt_putUnit_stored {V : Type} [DecidableEq V] {d v : V} (h : v ≠ d) (e : V) (l : List (Nat × V)) (n : Nat) :
    unitAt e (putUnit d l n v) n = v := by
  unfold unitAt putUnit Assoc.rd Assoc.wr
  rw [if_neg h, Assoc.find_put, if_pos rfl]

theorem Assoc.mem_of_find {K V : Type} [DecidableEq K] {k : K} {v : V} {l : List (K × V)} (h : Assoc.find k l = some v) : (k,
  v) ∈ l := by
  induction l with
  | nil => cases h
  | cons e l ih =>
    rw [Assoc.find] at h
    split at h
    · next he =>
      cases h
      exact he ▸ List.mem_cons_self
    · exact List.mem_cons_of_mem _ (ih h)

/-! ### States of the controller (R416, R417) -/

theorem dramEnableStarts (s : State) (h : s.get F.drmCtrlEnable = 0) :
    Completes .dramEnable s fun t => t.get F.drmCtrlEnable = 1 ∧ t.get F.drmInfoState = 1 := by
  refine .intro (congrArg Host.Outcome.next (if_neg (by simp [State.bit, h]))) ?_
  simp (disch := decide)

/-- The channels in a list are in training. -/
theorem State.trainAll_get (l : List Nat) (s : State) (k : Nat) : (l.foldl (fun (t : State) m => t.set F.mchCtrlTrain m 0 1) s).get
    F.mchCtrlTrain k = if k ∈ l then 1 else s.get F.mchCtrlTrain k := by
  induction l generalizing s with
  | nil => rfl
  | cons a l ih =>
    rw [List.foldl_cons, ih]
    by_cases hk : k ∈ l
    · rw [if_pos hk, if_pos (List.mem_cons_of_mem _ hk)]
    · rw [if_neg hk]
      by_cases ha : k = a
      · rw [ha, if_pos List.mem_cons_self, State.get_set_self _ _ _ _ _ (by decide)]
        rfl
      · rw [if_neg (by simp [ha, hk]), State.get_set_ne _ _ _ _ _ _ _ _ (by decide) (.inr (.inl (Ne.symm ha)))]

theorem State.trainAll_only (l : List Nat) (s : State) :
    Only (2 ^ RegName.mchCtrl.ctorIdx) s (l.foldl (fun (t : State) m => t.set F.mchCtrlTrain m 0 1) s) :=
  foldl_keeps (P := fun t => Only (2 ^ RegName.mchCtrl.ctorIdx) s t) (fun _ _ ht => State.set_only _ _ _ _ ht (by decide)) l (.refl ..)

theorem dramInitDoneTrains (s : State) (h : s.get F.drmInfoState = 1) :
    Completes .dramInitDone s fun t => t.get F.drmInfoState = 2 ∧ ∀ m ∈ s.mchs, t.get F.mchCtrlTrain m = 1 := by
  refine .intro (congrArg Host.Outcome.next (if_pos h)) ⟨?_, fun m hm => ?_⟩
  · rw [(State.trainAll_only ..).get _ _ _ (by decide)]
    exact State.get_set_self _ _ _ _ _ (by decide)
  · rw [State.trainAll_get, if_pos hm]

/-- A page that is returned to host memory. -/
def State.returnPage (t : State) (g : Nat) : State := (t.setEntry g { (t.entry g) with state := 1, frame := 0 }).selfRequest g

theorem State.returnPage_entry (t : State) (g k : Nat) :
    (t.returnPage g).entry k = if k = g then { (t.entry g) with state := 1, frame := 0 } else t.entry k := by
  unfold State.returnPage
  rw [State.entry_of_table (State.selfRequest_table ..), State.entry_setEntry]

theorem State.returnPages_entry (l : List Nat) (s : State) (k : Nat) (h : (s.entry k).resident = true → k ∈ l) :
    ((l.foldl State.returnPage s).entry k).resident = false := by
  induction l generalizing s with
  | nil => exact Bool.eq_false_iff.2 fun hr => List.not_mem_nil (h hr)
  | cons a l ih =>
    rw [List.foldl_cons]
    refine ih _ fun hr => ?_
    rw [State.returnPage_entry] at hr
    split at hr
    · exact Bool.noConfusion hr
    · next hne => exact (List.mem_cons.1 (h hr)).resolve_left hne

/-- No page is resident once every resident one has been returned. -/
theorem State.returnPages_resident (s : State) (k : Nat) : (s.returnPages.entry k).resident = false := by
  refine State.returnPages_entry _ s k fun hr => ?_
  unfold State.entry unitAt Assoc.rd at hr
  split at hr
  · next e he => exact List.mem_map.2 ⟨(k, e), List.mem_filter.2 ⟨Assoc.mem_of_find he, hr⟩, rfl⟩
  · exact Bool.noConfusion hr

theorem dramDisableLoses (s : State) (h : s.get F.drmCtrlEnable = 1) (hok : s.disableOk = true) :
    Completes .dramDisable s fun t => t.get F.drmCtrlEnable = 0 ∧ t.get F.drmInfoState = 0 ∧ t.get F.drmInfoFrames = 0
      ∧ t.mem = [] ∧ ∀ g, (t.entry g).resident = false := by
  have hx : exec .dramDisable s = .next s.dramDisable := congrArg Host.Outcome.next
    ((if_neg (by simp [State.bit, h])).trans (if_pos hok))
  refine .intro hx ?_
  unfold State.dramDisable
  extract_lets p d t u v
  have htmem : t.mem = [] := rfl
  have htpage : t.page = s.returnPages.page := rfl
  clear_value t
  have hu : Only (2 ^ 254) t u := by
    unfold u
    refine foldl_keeps (P := fun w => Only (2 ^ 254) t w) (fun w q hw => ?_) _ (.refl ..)
    exact hw.step (State.setSeqX_within ..) (by decide)
  clear_value u
  have hv : v.get F.drmCtrlEnable = 0 ∧ v.get F.drmInfoState = 0 ∧ v.get F.drmInfoFrames = 0 := by
    unfold v
    simp (disch := decide)
  have hvu : Only 0x4000000000000000000000000000000000000000000000002800000000000000 t v :=
    State.set_only _ _ _ _ (State.set_only _ _ _ _ (State.set_only _ _ _ _ (State.set_only _ _ _ _ (hu.mono (by decide)) (by decide))
      (by decide)) (by decide)) (by decide)
  clear_value v
  have ho : Only 0x200044000000000000000000000000000000000000000000808000000000001000 v (((v.set F.mchDlyApplyPending 0 0 0).set F.mchDlyApplyPending 1 0 0).updatePanic.emit .memReset) :=
    ((State.set_only _ _ _ _ (State.set_only _ _ _ _ (.refl ..) (by decide)) (by decide)).step (State.updatePanic_within _) (by decide)).step
      (State.emit_within ..) (by decide)
  obtain ⟨h1, h2, h3⟩ := hv
  refine ⟨(ho.get _ _ _ (by decide)).trans h1, (ho.get _ _ _ (by decide)).trans h2, (ho.get _ _ _ (by decide)).trans h3,
    (ho.mem (by decide)).trans ((hvu.mem (by decide)).trans htmem), fun g => ?_⟩
  rw [State.entry_of_page ((ho.page (by decide)).trans ((hvu.page (by decide)).trans htpage))]
  exact s.returnPages_resident g

theorem dramDisableRefused (s : State) (h : s.get F.drmCtrlEnable = 1) (hok : s.disableOk = false)
    (hu : Unclear s F.drmInfoDisableRefused 0 0) :
    Completes .dramDisable s fun t => t.get F.drmInfoDisableRefused = 1 ∧ t.get F.drmCtrlEnable = 1 ∧ t.mem = s.mem := by
  have hx : exec .dramDisable s = .next (s.hwSet F.drmInfoDisableRefused 0 0) := congrArg Host.Outcome.next
    ((if_neg (by simp [State.bit, h])).trans (if_neg (by rw [hok]; exact Bool.noConfusion)))
  refine .intro hx ⟨State.get_hwSet _ _ _ _ hu (by decide) (by decide), ?_, State.hwSet_mem ..⟩
  simpa (disch := decide) using h

theorem trainRefused (m : Nat) (s : State) (h : s.allStopped = false) (hu : Unclear s F.mchCtrlTrainRefused m 0) :
    Completes (.train m true) s fun t => t.get F.mchCtrlTrainRefused m = 1 ∧ t.get F.mchCtrlTrain m = s.get F.mchCtrlTrain m := by
  have hx : exec (.train m true) s = .next (s.hwSet F.mchCtrlTrainRefused m 0) := congrArg Host.Outcome.next (if_pos ⟨rfl, h⟩)
  refine .intro hx ⟨State.get_hwSet _ _ _ _ hu (by decide) (by decide), ?_⟩
  simp (disch := decide)

theorem State.mchs_of_get {s t : State} (h : t.get F.drmOrgDual = s.get F.drmOrgDual) : t.mchs = s.mchs := by
  unfold State.mchs
  rw [h]

theorem trainEnters (m : Nat) (s : State) (h : s.allStopped = true) (h3 : s.get F.drmInfoState = 3) (hm : m ∈ s.mchs) :
    Completes (.train m true) s fun t => t.get F.mchCtrlTrain m = 1 ∧ t.get F.drmInfoState = 2 := by
  have hx : exec (.train m true) s = .next ((s.setBit F.mchCtrlTrain m 0 true).dramState) :=
    congrArg Host.Outcome.next (if_neg (by rw [h]; simp))
  refine .intro hx ?_
  have hset : (s.setBit F.mchCtrlTrain m 0 true).get F.mchCtrlTrain m = 1 := State.get_set_self _ _ _ _ _ (by decide)
  have hst : (s.setBit F.mchCtrlTrain m 0 true).get F.drmInfoState = 3 := by simpa (disch := decide) [State.setBit] using h3
  have hmchs : (s.setBit F.mchCtrlTrain m 0 true).mchs = s.mchs := State.mchs_of_get (by simp (disch := decide) [State.setBit])
  generalize State.setBit _ _ _ _ _ = t at hset hst hmchs ⊢
  have hany : t.anyTraining = true := List.any_eq_true.2 ⟨m, hmchs ▸ hm, decide_eq_true hset⟩
  unfold State.dramState
  rw [if_pos (.inr hst), if_pos hany]
  simpa (disch := decide) using hset

theorem trainEnds (m : Nat) (s : State) (h2 : s.get F.drmInfoState = 2) (hk : ∀ k ∈ s.mchs, k ≠ m → s.get F.mchCtrlTrain k = 0) :
    Completes (.train m false) s fun t => t.get F.mchCtrlTrain m = 0 ∧ t.get F.drmInfoState = 3
      ∧ t.get F.drmInfoFrames = s.installedFrames % 2 ^ F.drmInfoFrames.width := by
  have hx : exec (.train m false) s = .next ((s.setBit F.mchCtrlTrain m 0 false).dramState) :=
    congrArg Host.Outcome.next (if_neg (by simp))
  refine .intro hx ?_
  have hset : (s.setBit F.mchCtrlTrain m 0 false).get F.mchCtrlTrain m = 0 := State.get_set_self _ _ _ _ _ (by decide)
  have hne (k : Nat) (hkm : k ≠ m) : (s.setBit F.mchCtrlTrain m 0 false).get F.mchCtrlTrain k = s.get F.mchCtrlTrain k :=
    State.get_set_ne _ _ _ _ _ _ _ _ (by decide) (.inr (.inl (Ne.symm hkm)))
  have hst : (s.setBit F.mchCtrlTrain m 0 false).get F.drmInfoState = 2 := by simpa (disch := decide) [State.setBit] using h2
  have hmchs : (s.setBit F.mchCtrlTrain m 0 false).mchs = s.mchs := State.mchs_of_get (by simp (disch := decide) [State.setBit])
  have hframes : (s.setBit F.mchCtrlTrain m 0 false).installedFrames = s.installedFrames := by
    unfold State.installedFrames
    simp (disch := decide) [State.setBit]
  generalize State.setBit _ _ _ _ _ = t at hset hst hne hmchs hframes ⊢
  have hany : ¬t.anyTraining = true := by
    intro h
    obtain ⟨k, hkm, h1⟩ := List.any_eq_true.1 h
    have h1 : t.get F.mchCtrlTrain k = 1 := of_decide_eq_true h1
    by_cases hk' : k = m
    · rw [hk', hset] at h1
      exact absurd h1 (by decide)
    · rw [hne k hk', hk k (hmchs ▸ hkm) hk'] at h1
      exact absurd h1 (by decide)
  unfold State.dramState
  rw [if_pos (.inl hst), if_neg hany, hframes]
  refine ⟨?_, ?_, ?_⟩
  · simpa (disch := decide) using hset
  · simp (disch := decide)
  · exact State.get_set_self _ _ _ _ _ (by decide)

/-! ### Delays and refresh (R419, R427, R429) -/

/-- Units stored one after another, each under a key of its own. -/
theorem unitAt_foldl_putUnit {V : Type} [DecidableEq V] (d : V) (l a : List (Nat × V)) (hn : (l.map (·.1)).Nodup) (k : Nat) :
    unitAt d (l.foldl (fun a e => putUnit d a e.1 e.2) a) k = if k ∈ l.map (·.1) then unitAt d l k else unitAt d a k := by
  induction l generalizing a with
  | nil => rfl
  | cons e l ih =>
    obtain ⟨he, hl⟩ := List.nodup_cons.1 hn
    rw [List.foldl_cons, ih _ hl, List.map_cons]
    have hcons : unitAt d (e :: l) k = if e.1 = k then e.2 else unitAt d l k := by
      unfold unitAt Assoc.rd
      rw [Assoc.find]
      by_cases he : e.1 = k
      · rw [if_pos he, if_pos he]
      · rw [if_neg he, if_neg he]
    rw [hcons, unitAt_putUnit]
    by_cases hk : k = e.1
    · rw [hk, if_neg he, if_pos rfl, if_pos List.mem_cons_self, if_pos rfl]
    · rw [if_neg hk, if_neg (Ne.symm hk)]
      simp only [List.mem_cons, hk, false_or]

theorem unitAt_of_notMem {V : Type} (d : V) {l : List (Nat × V)} {k : Nat} (h : k ∉ l.map (·.1)) : unitAt d l k = d := by
  unfold unitAt Assoc.rd
  split
  · next v hv => exact absurd (List.mem_map.2 ⟨(k, v), Assoc.mem_of_find hv, rfl⟩) h
  · rfl

theorem unitAt_filter {V : Type} (d : V) (p : Nat → Bool) (l : List (Nat × V)) (k : Nat) :
    unitAt d (l.filter fun e => p e.1) k = if p k then unitAt d l k else d := by
  unfold unitAt Assoc.rd
  cases hp : p k with
  | true => rw [Assoc.find_filter k _ l fun _ => hp, if_pos rfl]
  | false => rw [Assoc.find_filter_none k _ l fun _ => hp]; rfl

/-- What a transfer of a channel's delays leaves (R419). -/
theorem State.transferDelays_reads (s : State) (m : Nat) (hn : (s.dram.shadow.map (·.1)).Nodup) :
    (s.transferDelays m).get F.mchDlyApplyPending m = 0 ∧ ∀ k, unitAt 64 (s.transferDelays m).dram.active k
      = if delayChannel k = m then unitAt 64 s.dram.shadow k else unitAt 64 s.dram.active k := by
  refine ⟨State.get_set_self _ _ _ _ _ (by decide), fun k => ?_⟩
  have hact : (s.transferDelays m).dram.active = (s.dram.shadow.filter fun e => decide (delayChannel e.1 = m)).foldl
      (fun l e => putUnit 64 l e.1 e.2) (s.dram.active.filter fun e => decide (delayChannel e.1 ≠ m)) := rfl
  rw [hact, unitAt_foldl_putUnit _ _ _ (hn.sublist (List.filter_sublist.map _)),
    unitAt_filter 64 (fun n => decide (delayChannel n = m)),
    unitAt_filter 64 fun n => decide (delayChannel n ≠ m)]
  by_cases hk : delayChannel k = m
  · simp only [hk, decide_true, if_true, ne_eq, not_true, decide_false, Bool.false_eq_true, if_false]
    split
    · rfl
    · next h =>
      refine (unitAt_of_notMem 64 fun hmem => h ?_).symm
      obtain ⟨e, he, rfl⟩ := List.mem_map.1 hmem
      exact List.mem_map.2 ⟨e, List.mem_filter.2 ⟨he, decide_eq_true hk⟩, rfl⟩
  · have hnot : k ∉ (s.dram.shadow.filter fun e => decide (delayChannel e.1 = m)).map (·.1) := by
      intro hmem
      obtain ⟨e, he, rfl⟩ := List.mem_map.1 hmem
      exact hk (of_decide_eq_true (List.mem_filter.1 he).2)
    rw [if_neg hnot, if_neg hk, if_pos (decide_eq_true hk)]

theorem applyTransfers (m : Nat) (s : State) :
    (s.inTraining m = true → (s.dram.shadow.map (·.1)).Nodup → Completes (.apply m) s fun t => t.get F.mchDlyApplyPending m = 0
      ∧ ∀ k, unitAt 64 t.dram.active k = if delayChannel k = m then unitAt 64 s.dram.shadow k else unitAt 64 s.dram.active k)
    ∧ (s.inTraining m = false → Completes (.apply m) s fun t => t.get F.mchDlyApplyPending m = 1 ∧ t.dram.active = s.dram.active) := by
  refine ⟨fun ht hn => .intro (congrArg Host.Outcome.next (if_pos ht)) (s.transferDelays_reads m hn),
    fun ht => .intro (congrArg Host.Outcome.next (if_neg (by rw [ht]; exact Bool.noConfusion))) ⟨?_, ?_⟩⟩
  · exact State.get_set_self _ _ _ _ _ (by decide)
  · rw [State.set_dram]

/-- A refresh of a rank that is due, and not postponed. -/
def State.rankRefreshed (s : State) (m r : Nat) : State :=
  { s with dram := { s.dram with refreshed := putUnit 0 s.dram.refreshed (2 * m + r) s.ticks } }

theorem State.refresh_due {s : State} {m r : Nat} (h : s.refreshes m r = true) (hd : s.refreshDue m r = true) : s.refresh m r
    = if s.bit F.drmPanicPanic ∧ unitAt 0 s.dram.postponed (2 * m + r) < s.get F.mchCtrlPostMax m then
        { s.rankRefreshed m r with dram := { (s.rankRefreshed m r).dram with
          postponed := putUnit 0 s.dram.postponed (2 * m + r) (unitAt 0 s.dram.postponed (2 * m + r) + 1) } }
      else (s.rankRefreshed m r).refreshRank m r := by
  have h' : (s.rankRefreshed m r).refreshes m r = true := h
  unfold State.refresh
  extract_lets d x n
  rw [if_neg, if_neg (by rw [hd]; exact Bool.noConfusion)]
  · rfl
  · rw [show x.refreshes m r = true from h']
    exact Bool.noConfusion

theorem refreshActs (m r : Nat) (s : State) (h : s.refreshes m r = true) (hd : s.refreshDue m r = true) :
    (s.bit F.drmPanicPanic = true → unitAt 0 s.dram.postponed (2 * m + r) < s.get F.mchCtrlPostMax m →
      Completes (.refresh m r) s fun t => unitAt 0 t.dram.postponed (2 * m + r) = unitAt 0 s.dram.postponed (2 * m + r) + 1)
    ∧ (s.bit F.drmPanicPanic = false → s.get F.mchDlyApplyPending m = 1 → unitAt [] s.dram.waitRanks m = [r] →
        (s.dram.shadow.map (·.1)).Nodup →
      Completes (.refresh m r) s fun t => t.get F.mchDlyApplyPending m = 0
        ∧ ∀ k, unitAt 64 t.dram.active k = if delayChannel k = m then unitAt 64 s.dram.shadow k else unitAt 64 s.dram.active k) := by
  have hx : exec (.refresh m r) s = .next (s.refresh m r) := rfl
  rw [State.refresh_due h hd] at hx
  refine ⟨fun hp hn => .intro (hx.trans (congrArg _ (if_pos ⟨hp, hn⟩))) (by dsimp only; rw [unitAt_putUnit, if_pos rfl]),
    fun hp hpend hw hnd => ?_⟩
  rw [if_neg (by rw [hp]; simp)] at hx
  have hpend' : (s.rankRefreshed m r).bit F.mchDlyApplyPending m = true := decide_eq_true hpend
  have hrank : (s.rankRefreshed m r).refreshRank m r = (s.rankRefreshed m r).transferDelays m := by
    unfold State.refreshRank
    rw [if_pos hpend']
    exact if_pos (by rw [show unitAt [] (s.rankRefreshed m r).dram.waitRanks m = [r] from hw]; simp)
  rw [hrank] at hx
  exact .intro hx ((s.rankRefreshed m r).transferDelays_reads m hnd)

theorem refreshIsIssued (m r : Nat) (s : State) (h : s.refreshes m r = true) (hd : s.refreshDue m r = true)
    (hp : s.bit F.drmPanicPanic = false) :
    Completes (.refresh m r) s fun t => unitAt 0 t.dram.refreshed (2 * m + r) = s.ticks ∧ t.dram.postponed = s.dram.postponed := by
  have hx : exec (.refresh m r) s = .next (s.refresh m r) := rfl
  rw [State.refresh_due h hd, if_neg (by rw [hp]; simp)] at hx
  have hrank (t : State) : (t.refreshRank m r).dram.refreshed = t.dram.refreshed ∧ (t.refreshRank m r).dram.postponed = t.dram.postponed := by
    unfold State.refreshRank
    split
    · extract_lets l
      split <;> exact ⟨rfl, rfl⟩
    · exact ⟨rfl, rfl⟩
  refine .intro hx ?_
  rw [(hrank _).1, (hrank _).2]
  refine ⟨?_, rfl⟩
  unfold State.rankRefreshed
  dsimp only
  rw [unitAt_putUnit, if_pos rfl]

/-! ### Training operations (R418, R420) -/

section
variable (m x : Nat) (s : State)

theorem State.trainDone_reads (v : Bool) : (s.trainDone m v).get F.mchTrainResDone m = 1
    ∧ (s.trainDone m v).get F.mchTrainResRefused m = v.toNat ∧ (s.trainDone m v).get F.mchTrainResFailbits m = s.get F.mchTrainResFailbits m
    ∧ (s.trainDone m v).get F.mchTrainResMrData m = s.get F.mchTrainResMrData m := by
  unfold State.trainDone State.setBit
  cases v <;> simp (disch := decide)

theorem mrwWrites (h : s.inTraining m = true) : Completes (.mrw m) s fun t => t.get F.mchTrainResDone m = 1
    ∧ t.get F.mchTrainResRefused m = 0 ∧ unitAt 0 t.dram.modeRegs (s.modeKey m) = s.get F.mchTrainCmdMrData m := by
  refine .intro (congrArg Host.Outcome.next (if_pos h)) ?_
  obtain ⟨hd, hr, -⟩ := State.trainDone_reads m { s with dram := { s.dram with
    modeRegs := putUnit 256 s.dram.modeRegs (s.modeKey m) (s.get F.mchTrainCmdMrData m) } } false
  refine ⟨hd, hr, ?_⟩
  rw [(State.trainDone_within ..).dram (by decide)]
  exact unitAt_putUnit_stored (d := 256) (Nat.ne_of_lt (State.get_lt s F.mchTrainCmdMrData m 0)) ..

theorem mrrReads (h : s.inTraining m = true) : Completes (.mrr m x) s fun t => t.get F.mchTrainResDone m = 1
    ∧ t.get F.mchTrainResRefused m = 0 ∧ t.get F.mchTrainResMrData m
      = (if unitAt 256 s.dram.modeRegs (s.modeKey m) = 256 then x else unitAt 256 s.dram.modeRegs (s.modeKey m)) % 2 ^ 8 := by
  refine .intro (congrArg Host.Outcome.next (if_pos h)) ?_
  obtain ⟨hd, hr, -, hm⟩ := State.trainDone_reads m (s.set F.mchTrainResMrData m 0 (if unitAt 256 s.dram.modeRegs (s.modeKey m) = 256
    then x else unitAt 256 s.dram.modeRegs (s.modeKey m))) false
  exact ⟨hd, hr, hm.trans (State.get_set_self _ _ _ _ _ (by decide))⟩

/-- What a compare and a levelling leave: DONE and their fail bits. -/
theorem State.failbits_done : ((s.set F.mchTrainResFailbits m 0 x).trainDone m false).get F.mchTrainResDone m = 1
    ∧ ((s.set F.mchTrainResFailbits m 0 x).trainDone m false).get F.mchTrainResRefused m = 0
    ∧ ((s.set F.mchTrainResFailbits m 0 x).trainDone m false).get F.mchTrainResFailbits m = x % 2 ^ 40 := by
  obtain ⟨hd, hr, hf, -⟩ := State.trainDone_reads m (s.set F.mchTrainResFailbits m 0 x) false
  exact ⟨hd, hr, hf.trans (State.get_set_self _ _ _ _ _ (by decide))⟩

theorem wlevelReports (h : s.inTraining m = true) : Completes (.wlevel m x) s fun t => t.get F.mchTrainResDone m = 1
    ∧ t.get F.mchTrainResRefused m = 0 ∧ t.get F.mchTrainResFailbits m = x % 2 ^ 40 :=
  .intro (congrArg Host.Outcome.next (if_pos h)) (s.failbits_done m x)

theorem trainBurst_length (pat : Nat) : (trainBurst pat).length = 64 := rfl

theorem writeReadCmpStores (h : s.inTraining m = true)
    (hin : s.get F.mchTrainAddrAddress m / 64 * 64 + 64 ≤ s.installedFrames * 67108864) :
    Completes (.writeReadCmp m x) s fun t =>
      (∀ i < 64, t.memByte (s.get F.mchTrainAddrAddress m / 64 * 64 + i)
        = BitVec.ofNat 8 ((trainBurst (s.get F.mchTrainPatPattern m)).getD i 0))
      ∧ ∀ a, a < s.get F.mchTrainAddrAddress m / 64 * 64 ∨ s.get F.mchTrainAddrAddress m / 64 * 64 + 64 ≤ a →
          t.memByte a = s.memByte a := by
  have hc : s.canCompare m = true := by rw [State.canCompare, h, Bool.true_or]
  have hx : exec (.writeReadCmp m x) s = .next (((s.putBytes (s.get F.mchTrainAddrAddress m / 64 * 64)
      (trainBurst (s.get F.mchTrainPatPattern m))).set F.mchTrainResFailbits m 0 x).trainDone m false) := by
    refine congrArg Host.Outcome.next ((if_pos hc).trans ?_)
    dsimp only
    rw [if_pos h, if_pos hin]
  have hmem (t : State) (a : Nat) : ((t.set F.mchTrainResFailbits m 0 x).trainDone m false).memByte a = t.memByte a := by
    unfold State.memByte
    rw [(State.trainDone_within ..).mem (by decide), State.set_mem]
  refine .intro hx ⟨fun i hi => ?_, fun a ha => ?_⟩
  · rw [hmem, State.memByte_putBytes, trainBurst_length, if_pos (by omega), Nat.add_sub_cancel_left]
  · rw [hmem, State.memByte_putBytes, trainBurst_length, if_neg (by omega)]

theorem trainingOnly (h : s.inTraining m = false) (c : Instr) (hc : c = .mrw m ∨ c = .mrr m x ∨ c = .wlevel m x) :
    Completes c s fun t => t.get F.mchTrainResDone m = 1 ∧ t.get F.mchTrainResRefused m = 1 := by
  have hn : ¬s.inTraining m = true := by rw [h]; exact Bool.noConfusion
  have hx : exec c s = .next (s.trainDone m true) := by
    rcases hc with rfl | rfl | rfl <;> exact congrArg Host.Outcome.next (if_neg hn)
  obtain ⟨hd, hr, -⟩ := s.trainDone_reads m true
  exact .intro hx ⟨hd, hr⟩

theorem comparesReport (h : s.canCompare m = true) (c : Instr) (hc : c = .readCmp m x ∨ c = .writeReadCmp m x) :
    Completes c s fun t => t.get F.mchTrainResDone m = 1 ∧ t.get F.mchTrainResRefused m = 0
      ∧ t.get F.mchTrainResFailbits m = x % 2 ^ 40 := by
  have hx : ∃ t : State, exec c s = .next ((t.set F.mchTrainResFailbits m 0 x).trainDone m false) := by
    rcases hc with rfl | rfl <;> exact ⟨_, congrArg Host.Outcome.next (if_pos h)⟩
  obtain ⟨t, hx⟩ := hx
  exact .intro hx (t.failbits_done m x)

end

/-! ### Scrub (R430 to R432) -/

section
variable {s : State} {w m : Nat} (hw : w = if 8 * s.dram.scrubAt < s.dramEnd then s.dram.scrubAt else 0)
  (hen : s.bit F.drmScrubEn = true) (hr : s.dramReady = true) (hsr : s.get F.drmInfoSrState = 0)

/-- The scrub has gone on to the word behind `w`. -/
def State.scrubbed (s : State) (w : Nat) : State := { s with dram := { s.dram with scrubAt := w + 1 } }

include hw hen hr hsr in
theorem State.scrub_reads (err : Nat) : s.scrub err = if err = 2 ∨ w ∈ s.dram.poison then
      ({ s.scrubbed w with dram := { (s.scrubbed w).dram with
        poison := if w ∈ s.dram.poison then s.dram.poison else w :: s.dram.poison } }).recordUe w 2
    else if err = 1 then (s.scrubbed w).recordCe w else s.scrubbed w := by
  subst hw
  have hen' (x : DramX) : State.bit { s with dram := x } F.drmScrubEn = true := hen
  have hr' (x : DramX) : State.dramReady { s with dram := x } = true := hr
  have hsr' (x : DramX) : State.get { s with dram := x } F.drmInfoSrState = 0 := hsr
  unfold State.scrub
  exact if_neg (by rw [hen', hr', hsr']; simp)

include hw hen hr hsr in
theorem scrubGoesOn (hn : w ∉ s.dram.poison) :
    Completes (.patrolScrub false false) s fun t => t = { s with dram := { s.dram with scrubAt := w + 1 } } := by
  have hx : exec (.patrolScrub false false) s = .next (s.scrub 0) := rfl
  rw [State.scrub_reads hw hen hr hsr, if_neg (by simp [hn]), if_neg (by decide)] at hx
  exact .intro hx rfl

variable (hm : m = s.mchOf (8 * w))

/-- What is recorded of a corrected word (R430, R432). -/
theorem State.recordCe_reads (t : State) (w : Nat) {m : Nat} (hm : t.mchOf (8 * w) = m) (hue : t.get F.mchEccAddrUe m = 0)
    (hu : Unclear t F.mchEccStatCeCount m 0) :
    (t.recordCe w).get F.mchEccAddrAddress m = 8 * w % 2 ^ 40 ∧ (t.recordCe w).get F.mchEccAddrValid m = 1
    ∧ (t.recordCe w).get F.mchEccAddrUe m = 0
    ∧ (t.recordCe w).get F.mchEccStatCeCount m = min (2 ^ 32 - 1) (t.get F.mchEccStatCeCount m + 1)
    ∧ (t.recordCe w).dram = t.dram := by
  have hcount := State.get_count_min t (sat := F.mchEccStatCeSaturated) 1 hu (by decide) (by decide) (by decide)
  have hue' : (t.count F.mchEccStatCeCount F.mchEccStatCeSaturated m 0 1).get F.mchEccAddrUe m = 0 := by simpa (disch := decide) using hue
  have hd : (t.count F.mchEccStatCeCount F.mchEccStatCeSaturated m 0 1).dram = t.dram := State.count_dram ..
  unfold State.recordCe
  rw [hm]
  dsimp only
  generalize t.count F.mchEccStatCeCount F.mchEccStatCeSaturated m 0 1 = u at hcount hue' hd ⊢
  rw [if_neg (by rw [State.bit, State.bit, hue']; simp)]
  refine ⟨?_, ?_, ?_, ?_, ?_⟩
  · simp (disch := decide)
  · simp (disch := decide)
  · simp (disch := decide)
  · simpa (disch := decide) using hcount
  · rw [State.set_dram, State.set_dram, State.set_dram, State.set_dram, hd]

/-- What is recorded of an uncorrectable word that the scrub finds (R431, R432). -/
theorem State.recordUe_reads (t : State) (w : Nat) {m : Nat} (hm : t.mchOf (8 * w) = m) (hu : Unclear t F.mchEccStatUeCount m 0) :
    (t.recordUe w 2).get F.mchEccAddrAddress m = 8 * w % 2 ^ 40 ∧ (t.recordUe w 2).get F.mchEccAddrUe m = 1
    ∧ (t.recordUe w 2).get F.mchEccAddrScrub m = 1 ∧ (t.recordUe w 2).get F.mchEccAddrValid m = 1
    ∧ (t.recordUe w 2).get F.mchEccStatUeCount m = min 65535 (t.get F.mchEccStatUeCount m + 1) ∧ (t.recordUe w 2).dram = t.dram := by
  have hcount := State.get_count_min t (sat := F.mchEccStatUeSaturated) 1 hu (by decide) (by decide) (by decide)
  have hd : (t.recordUe w 2).dram = t.dram := (State.recordUe_within ..).dram (by decide)
  refine ⟨?_, ?_, ?_, ?_, ?_,
    hd⟩ <;> unfold State.recordUe <;> rw [hm] <;> dsimp only <;> rw [(State.post_within ..).get _ _ _ (by decide)]
  · simp (disch := decide)
  · simp (disch := decide)
  · simp (disch := decide)
  · simp (disch := decide)
  · simpa (disch := decide) using hcount

include hw hen hr hsr hm in
theorem scrubCorrects (hcl : Unclear s F.mchEccStatCeCount m 0) (hn : w ∉ s.dram.poison) (hue : s.get F.mchEccAddrUe m = 0) :
    Completes (.patrolScrub true false) s fun t => t.dram.scrubAt = w + 1
      ∧ t.get F.mchEccAddrAddress m = 8 * w % 2 ^ 40 ∧ t.get F.mchEccAddrValid m = 1 ∧ t.get F.mchEccAddrUe m = 0
      ∧ (s.get F.mchEccStatCeCount m + 1 < 2 ^ 32 → t.get F.mchEccStatCeCount m = s.get F.mchEccStatCeCount m + 1) := by
  have hx : exec (.patrolScrub true false) s = .next (s.scrub 1) := rfl
  rw [State.scrub_reads hw hen hr hsr, if_neg (by simp [hn]), if_pos rfl] at hx
  have hm' : (s.scrubbed w).mchOf (8 * w) = m := hm.symm
  obtain ⟨ha, hv, hu, hc, hd⟩ := State.recordCe_reads (s.scrubbed w) w hm' hue hcl
  refine .intro hx ⟨congrArg DramX.scrubAt hd, ha, hv, hu, fun hlt => hc.trans ?_⟩
  exact Nat.min_eq_right (Nat.le_pred_of_lt hlt)

include hw hen hr hsr hm in
theorem scrubPoisons (hcl : Unclear s F.mchEccStatUeCount m 0) (corrected : Bool) :
    Completes (.patrolScrub corrected true) s fun t => t.dram.scrubAt = w + 1 ∧ w ∈ t.dram.poison
      ∧ t.get F.mchEccAddrAddress m = 8 * w % 2 ^ 40 ∧ t.get F.mchEccAddrUe m = 1 ∧ t.get F.mchEccAddrScrub m = 1
      ∧ t.get F.mchEccAddrValid m = 1 ∧ t.get F.mchEccStatUeCount m = min 65535 (s.get F.mchEccStatUeCount m + 1) := by
  have hx : exec (.patrolScrub corrected true) s = .next (s.scrub 2) := rfl
  rw [State.scrub_reads hw hen hr hsr, if_pos (.inl rfl)] at hx
  generalize hu : ({ s.scrubbed w with dram := { (s.scrubbed w).dram with
    poison := if w ∈ s.dram.poison then s.dram.poison else w :: s.dram.poison } } : State) = u at hx
  have hm' : u.mchOf (8 * w) = m := by rw [← hu, hm]; rfl
  have hcl' : Unclear u F.mchEccStatUeCount m 0 := by rw [← hu]; exact hcl
  have hcount : u.get F.mchEccStatUeCount m = s.get F.mchEccStatUeCount m := by rw [← hu]; rfl
  have hat : u.dram.scrubAt = w + 1 := by rw [← hu]; rfl
  have hpo : w ∈ u.dram.poison := by
    rw [← hu]
    dsimp only
    split
    · assumption
    · exact List.mem_cons_self
  obtain ⟨ha, he, hs, hv, hc, hd⟩ := u.recordUe_reads w hm' hcl'
  refine .intro hx ⟨by rw [hd, hat], by rw [hd]; exact hpo, ha, he, hs, hv, by rw [hc, hcount]⟩

end

/-! ### Refresh rate and self-refresh (R428, R433, R434) -/

theorem mr4PollNames (fast : List Nat) (s : State) (hp : s.dram.polled + 4800000 ≤ s.ticks) (h2 : 2 ≤ s.get F.drmInfoState) :
    Completes (.mr4Poll fast) s fun t => t.dram.polled = s.ticks ∧ ∀ k,
      k ∈ t.dram.fast ↔ k ∈ fast ∧ s.refreshes (k / 2) (k % 2) = true :=
  .intro (congrArg Host.Outcome.next (if_pos ⟨hp, h2⟩)) ⟨rfl, fun _ => List.mem_filter⟩

theorem State.srEnter_reads (s : State) : s.srEnter.get F.drmInfoSrState = 2 ∧ s.srEnter.dram.srSince = s.ticks := by
  unfold State.srEnter
  refine ⟨?_, ?_⟩
  · simp (disch := decide)
  · rw [State.count_dram, State.set_dram]

theorem srEnterEnters (s : State) (h : s.srOk = true) (h0 : s.get F.drmInfoSrState = 0) :
    Completes .srEnter s fun t => t.get F.drmInfoSrState = 2 ∧ (Unclear s F.drmSrEntries 0 0 →
      t.get F.drmSrEntries = min 65535 (s.get F.drmSrEntries + 1)) := by
  have hx : exec .srEnter s = .next s.srEnter := congrArg Host.Outcome.next ((if_neg (by rw [h]; exact Bool.noConfusion)).trans (if_pos h0))
  refine .intro hx ⟨s.srEnter_reads.1, fun hu => ?_⟩
  have hset := State.set_only (N := 2 ^ RegName.drmInfo.ctorIdx) F.drmInfoSrState 0 0 2
    (.refl _ { s with dram := { s.dram with srSince := s.ticks } }) (by decide)
  have hu' : Unclear { s with dram := { s.dram with srSince := s.ticks } } F.drmSrEntries 0 0 := hu
  unfold State.srEnter
  rw [State.get_count_min _ _ (hset.unclear_field hu' (by decide) (by decide) (State.decider_congr (hset.events (by decide)) _)) (by decide)
    (by decide) (by decide), hset.get _ _ _ (by decide)]
  rfl

theorem autoSelfRefreshEnters (s : State) (h : s.srOk = true) (h0 : s.get F.drmInfoSrState = 0) (ha : s.bit F.drmCtrlAutoSr = true)
    (hi : s.dram.lastReq + s.get F.drmSrIdleEt ≤ s.ticks) :
    Completes .autoSelfRefresh s fun t => t.get F.drmInfoSrState = 2 ∧ t.dram.srSince = s.ticks :=
  .intro (congrArg Host.Outcome.next (if_pos ⟨ha, h, h0, hi⟩)) s.srEnter_reads

theorem srEnterRefused (s : State) (h : s.srOk = false) (hu : Unclear s F.drmSrRefused 0 0) :
    Completes .srEnter s fun t => t.get F.drmSrRefused = 1 ∧ t.get F.drmInfoSrState = s.get F.drmInfoSrState := by
  refine .intro (congrArg Host.Outcome.next (if_pos h)) ⟨State.get_hwSet _ _ _ _ hu (by decide) (by decide), ?_⟩
  simp (disch := decide)

theorem srExitLeaves (s : State) (h : s.get F.drmInfoSrState ≠ 0) : Completes .srExit s fun t => t.get F.drmInfoSrState = 0 := by
  refine .intro (congrArg Host.Outcome.next (if_neg h)) ?_
  rw [(State.post_within ..).get _ _ _ (by decide)]
  exact State.get_set_self _ _ _ _ _ (by decide)

/-! ### The obligations -/

/-- Settles O47. -/
theorem dramTraining : Obligations.DramTraining := by
  refine ⟨fun m x s => ⟨fun h => ⟨mrwWrites m s h, mrrReads m x s h, wlevelReports m x s h, writeReadCmpStores m x s h⟩,
    trainingOnly m x s, comparesReport m x s⟩, dramEnableStarts, dramInitDoneTrains, fun s h hok => ?_, trainEnters,
    fun m s => (applyTransfers m s).2, refreshIsIssued, fun s hen hr hsr hlt hn => ?_, fun fast s hp h2 => ?_, fun s h h0 => ?_,
    fun s h h0 ha hi => ?_, fun s h => srExitLeaves s (by rw [h]; decide)⟩
  · obtain ⟨t, ht, h1, h2, -, h4, -⟩ := dramDisableLoses s h hok
    exact ⟨t, ht, h1, h2, h4⟩
  · obtain ⟨t, ht, rfl⟩ := scrubGoesOn rfl hen hr hsr (by rwa [if_pos hlt])
    exact ⟨_, ht, congrArg (· + 1) (if_pos hlt), rfl⟩
  · obtain ⟨t, ht, h1, -⟩ := mr4PollNames fast s hp h2
    exact ⟨t, ht, h1⟩
  · obtain ⟨t, ht, h1, -⟩ := srEnterEnters s h h0
    exact ⟨t, ht, h1⟩
  · obtain ⟨t, ht, h1, -⟩ := autoSelfRefreshEnters s h h0 ha hi
    exact ⟨t, ht, h1⟩

/-- Settles O48. -/
theorem dramStatesAndUpkeep : Obligations.DramStatesAndUpkeep := by
  refine ⟨⟨dramEnableStarts, dramInitDoneTrains, dramDisableLoses, dramDisableRefused, trainRefused, trainEnters, trainEnds,
    applyTransfers,
    refreshActs⟩, fun w m s hw hm hen hr hsr hce hue => ⟨scrubGoesOn hw hen hr hsr, scrubCorrects hw hen hr hsr hm hce,
    scrubPoisons hw hen hr hsr hm hue⟩, mr4PollNames, fun s h h0 hu => ⟨?_, autoSelfRefreshEnters s h h0⟩, srEnterRefused,
      srExitLeaves⟩
  obtain ⟨t, ht, h1, h2⟩ := srEnterEnters s h h0
  exact ⟨t, ht, h1, h2 hu⟩

end Sys2Proof.Machine
end

