-- ==== Sys2Proof/Proofs/Calibration.lean ====
section
/-!
PROOFS. Calibration.lean: the data of calibration procedures and the ends of runs (R437 to R442); from these O49.
-/
namespace Sys2Proof.Machine
set_option Elab.async false

/-! ### Runs -/

theorem State.calRun_of_cal {s t : State} (h : t.cal = s.cal) (b : Nat) : t.calRun b = s.calRun b :=
  State.calRun_of_runs (congrArg CalX.runs h) b

theorem State.calRun_modRun (s : State) (b : Nat) (f : CalRun → CalRun) : (s.modRun b f).calRun b = (s.calRun b).map f := by
  have key (l : List (Nat × CalRun)) : Assoc.find b (l.map fun e => if e.1 = b then (b, f e.2) else e) = (Assoc.find b l).map f := by
    induction l with
    | nil => rfl
    | cons e l ih =>
      rw [List.map_cons, Assoc.find, Assoc.find]
      by_cases h : e.1 = b
      · rw [if_pos h, if_pos rfl, if_pos h]
        rfl
      · rw [if_neg h, if_neg h, if_neg h, ih]
  exact key s.cal.runs

/-- Data that a run gathers are held, and the procedure is done (R437). -/
theorem State.calData_calRun {s : State} {b p : Nat} {r : CalRun} (h : s.calRun b = some r) (hs : r.step = p) (hr : r.ready = false)
    (hd : r.done.contains p = false) (f : CalRun → CalRun) :
    (s.calData b p f).calRun b = some { f r with done := r.done ++ [p], ready := decide (r.proc ≠ 0x0F) } := by
  unfold State.calData
  rw [h]
  dsimp only
  rw [if_pos ⟨hs, hr, hd⟩]
  generalize ht' : s.modRun b _ = t
  have ht : t.calRun b = some { f r with done := r.done ++ [p], ready := decide (r.proc ≠ 0x0F) } := by
    rw [← ht', State.calRun_modRun, h]
    rfl
  split
  · exact (State.calRun_of_cal ((State.feRequest_within ..).cal (by decide)) b).trans ht
  · exact ht

/-- A command that gives a run its data, which then holds the values that `f` adds. -/
theorem Gathers.completes {s : State} {b p : Nat} {r : CalRun} {c : Instr} {f : CalRun → CalRun} {l : List (RegKey × Nat × Nat × Nat)}
    (h : Gathers s b p r) (hx : exec c s = .next (s.calData b p f)) (hl : ∀ e ∈ l, e ∈ (f r).held) :
    Completes c s fun t => Gathered t b p l := by
  obtain ⟨hrun, hstep, hproc, hp, hready, hdone⟩ := h
  exact .intro hx ⟨_, State.calData_calRun hrun hstep hready hdone f, decide_eq_true (hproc ▸ hp),
    List.mem_append_right _ (List.mem_singleton_self _), hl⟩

/-! ### The data of a procedure (R437, R442) -/

/-- What a step of a fold adds, and each step keeps, is there at its end. -/
theorem foldl_adds {α β : Type} {P : β → Prop} {f : β → α → β} {i : α} (hadd : ∀ x, P (f x i)) (hkeep : ∀ x j, P x → P (f x j)) :
    ∀ (l : List α) (x : β), i ∈ l ∨ P x → P (l.foldl f x)
  | [], _, h => h.resolve_left List.not_mem_nil
  | j :: l, x, h => by
    refine foldl_adds hadd hkeep l (f x j) ?_
    rcases h with h | h
    · rcases List.mem_cons.1 h with rfl | h
      · exact .inr (hadd x)
      · exact .inl h
    · exact .inr (hkeep x j h)

/-- One channel's deskews join the values held. -/
theorem State.holdDeskews_held (s : State) (b : Nat) (fa fb : Fld) (extra : Int) (raw : List (Int × Int)) (r : CalRun) {i : Nat}
    {x : Int × Int} (hx : raw[i]? = some x) : ∀ e ∈ [heldFld fa b i (s.deskewFor b x.1 extra).1,
      heldFld fb b i (s.deskewFor b x.2 extra).1],
      e ∈ (s.holdDeskews b fa fb extra raw r).held := by
  intro e he
  obtain ⟨hi, -⟩ := List.getElem?_eq_some_iff.1 hx
  refine foldl_adds (P := fun y : CalRun => e ∈ y.held) (i := i) (fun y => ?_) (fun y j hy => ?_) _ _ (.inl (List.mem_range.2 hi))
  · rw [hx]
    exact List.mem_append_right _ he
  · split
    · exact hy
    · exact List.mem_append_left _ hy

theorem calibrationData : CalibrationData := by
  intro b r s
  refine ⟨fun o h => Gathers.completes h rfl fun _ he => List.mem_append_right _ he,
    fun im h => Gathers.completes h rfl fun _ he => List.mem_append_right _ he, fun raw res i x h hx hi => ?_, fun m h hm => ?_,
    fun raw res eyes i x h hx hi => ?_,
      fun v res h => Gathers.completes h rfl fun _ he => List.mem_append_left _ (List.mem_append_right _ he),
    fun x y h => Gathers.completes h rfl fun _ he => List.mem_append_right _ he⟩
  · have hx' : (raw.take 16)[i]? = some x := by rw [List.getElem?_take_of_lt hi, hx]
    exact Gathers.completes h rfl fun _ he => List.mem_append_left _ (s.holdDeskews_held _ _ _ _ _ _ hx' _ he)
  · exact Gathers.completes h (congrArg Host.Outcome.next (if_neg (Nat.not_lt.2 hm))) fun _ he => List.mem_append_right _ he
  · have hx' : (raw.take 16)[i]? = some x := by rw [List.getElem?_take_of_lt hi, hx]
    exact Gathers.completes h rfl fun _ he => List.mem_append_left _ (List.mem_append_left _ (s.holdDeskews_held _ _ _ _ _ _ hx' _ he))

/-! ### The ends of runs (R440, R441) -/

theorem bitsBelow_eight {b : Nat} (h : b < 8) : bitsBelow 8 (2 ^ b) = [b] := by
  revert b
  decide

theorem State.get_hwSetBit_apart (s : State) (f g : Fld) (i j n i' j' : Nat) (hg : g.reg ≠ .clkPrecStats) (h : f.lo + f.width ≤ 64)
    (d : f.reg ≠ g.reg ∨ f.Apart g) : (s.hwSetBit f i j n).get g i' j' = s.get g i' j' := by
  unfold State.hwSetBit
  split
  · exact State.get_supersede _ _ _ _ _ hg
  · rw [State.get_note]
    exact State.get_set_ne _ _ _ _ _ _ _ _ h (d.imp_right fun h => .inr (.inr h))

/-- What the end of a run leaves: the bay is BUSY no more. -/
theorem State.calOver_busy {s : State} {b : Nat} {r : CalRun} (h : s.calRun b = some r) (hb : b < 8) (st : Nat) (park : Bool) :
    testBit ((s.calOver b st park).get F.calStatusBusy) b = false := by
  unfold State.calOver
  rw [h]
  extract_lets src t1 t2 t3
  have h2 : testBit (t2.get F.calStatusBusy) b = false := by
    unfold t2
    rw [(State.setStale_within ..).get _ _ _ (by decide), State.get_set_ne _ _ _ _ _ _ _ _ (by decide) (.inl (by decide)),
      State.testBit_putMask _ _ _ _ _ _ _ (by decide) hb, if_pos rfl]
  clear_value t2
  have h3 : testBit (t3.get F.calStatusBusy) b = false := by
    unfold t3
    split
    · refine foldl_keeps (P := fun u => testBit (u.get F.calStatusBusy) b = false) (fun u c hu => ?_) _ h2
      rwa [(State.parkLevels_within ..).get _ _ _ (by decide)]
    · exact h2
  clear_value t3
  exact (congrArg (testBit · b) (State.get_of_regs rfl ..)).trans h3

/-- What an abort leaves (R441). -/
theorem State.calAbort_reads {s : State} {b cause : Nat} {r : CalRun} (h : s.calRun b = some r) (hb : b < 8) (hcause : cause < 8)
    (hc : s.clearedNow (F.calStatusAborted.key 0 0) (F.calStatusAborted.lo + b) = false) :
    (s.calAbort b cause).get F.calBayStatCause 0 b = cause ∧ testBit ((s.calAbort b cause).get F.calStatusAborted) b = true
    ∧ testBit ((s.calAbort b cause).get F.calStatusBusy) b = false := by
  have hov := s.calOver_within b 0x11 (decide (cause ≠ 6))
  have hbusy := State.calOver_busy h hb 0x11 (decide (cause ≠ 6))
  have hc' : (s.calOver b 0x11 (decide (cause ≠ 6))).clearedNow (F.calStatusAborted.key 0 0) (F.calStatusAborted.lo + b) = false :=
    (hov.clearedNow (by decide) (by decide) (by decide) (by decide) (State.decider_congr (hov.events (by decide)) _)).trans hc
  unfold State.calAbort
  rw [h]
  dsimp only
  generalize s.calOver b 0x11 (decide (cause ≠ 6)) = u at hbusy hc' ⊢
  generalize ht : (u.hwSetBit F.calStatusAborted 0 0 b).set F.calBayStatCause 0 b cause = t
  have h1 : testBit (t.get F.calStatusAborted) b = true := by
    rw [← ht, State.get_set_ne _ _ _ _ _ _ _ _ (by decide) (.inl (by decide)),
      State.testBit_hwSetBit _ _ _ _ _ _ (by decide) hb (fun _ => hc') (by decide), if_pos rfl]
  have h2 : testBit (t.get F.calStatusBusy) b = false := by
    rw [← ht, State.get_set_ne _ _ _ _ _ _ _ _ (by decide) (.inl (by decide)),
      State.get_hwSetBit_apart _ _ _ _ _ _ _ _ (by decide) (by decide) (.inr (by decide)), hbusy]
  have h3 : t.get F.calBayStatCause 0 b = cause := by
    rw [← ht, State.get_set_self _ _ _ _ _ (by decide)]
    exact Nat.mod_eq_of_lt hcause
  have hend (v : State) (hv : Only 0x10000844000000000000000000000000000000000000000000000000000000145000 t v) : v.get F.calBayStatCause 0 b = cause ∧ testBit (v.get F.calStatusAborted) b = true
      ∧ testBit (v.get F.calStatusBusy) b = false := by
    rw [hv.get _ _ _ (by decide), hv.get _ _ _ (by decide), hv.get _ _ _ (by decide)]
    exact ⟨h3, h1, h2⟩
  split
  · exact hend _ ((State.endBatches_within _).mono (by decide))
  · exact hend _ (((State.post_within ..).mono (by decide)).step (State.endBatches_within _) (by decide))

/-- The figures that a run of procedure 7 alone changes: the values it holds and the bay's temperature (R440). -/
def State.dutyApplied (s : State) (b : Nat) (r : CalRun) : State :=
  { s.applyHeld r.held with cal := { (s.applyHeld r.held).cal with
    bayTemp := putUnit 0 (s.applyHeld r.held).cal.bayTemp b (4 * (s.applyHeld r.held).getS F.thermTempTemp 0 (8 + b)) } }

theorem State.calUpdate_duty {s : State} {b : Nat} {r : CalRun} (h : s.calRun b = some r) (hd : r.done = [7]) (href : r.refDefault = none) :
    s.calUpdate b = (let t := ((s.dutyApplied b r).calOver b 0 true).post 0x0A01 b r.proc
      if t.cal.batches.any (fun k => decide (k.id = r.batch) && k.store) then
        (t.modBatch r.batch fun k => { k with commits := k.commits + 1 }).storeRequest [r.batch]
      else t).endBatches := by
  have hno (n : Nat) (hn : n ≠ 7) : ([7] : List Nat).contains n = false := by simpa using hn
  have h7 : ([7] : List Nat).contains 7 = true := rfl
  unfold State.calUpdate
  simp only [h, hd, href, h7, hno 1 (by decide), hno 2 (by decide), hno 3 (by decide), hno 4 (by decide), hno 5 (by decide),
    hno 6 (by decide), Bool.or_false, Bool.false_or, Bool.and_false, Bool.false_and, Bool.false_eq_true, if_false, if_true]
  rfl

/-- A request for a store commit leaves the runs. -/
theorem State.storeRequest_runs (s : State) (ids : List Nat) : (s.storeRequest ids).cal.runs = s.cal.runs := by
  unfold State.storeRequest State.beginCommit
  split <;> dsimp only <;> rw [State.set_cal]

theorem State.storeRequest_get (s : State) (ids : List Nat) {f : Fld} (h : F.calStatusStoreState.reg ≠ f.reg ∨ F.calStatusStoreState.Apart f) :
    (s.storeRequest ids).get f = s.get f := by
  have hset (t : State) (v : Nat) : (t.set F.calStatusStoreState 0 0 v).get f = t.get f :=
    State.get_set_ne _ _ _ _ _ _ _ _ (by decide) (h.imp_right fun h => .inr (.inr h))
  unfold State.storeRequest State.beginCommit
  split
  · rw [hset]
    exact State.get_of_regs rfl ..
  · rw [hset]
    exact State.get_of_regs rfl ..

section
variable {b : Nat} {r : CalRun} {s : State} (hb : b < 8) (h : s.calRun b = some r)
include hb h

theorem roundTripLostEnds (hc : s.clearedNow (F.calStatusAborted.key 0 0) (F.calStatusAborted.lo + b) = false) (c : Instr) (m : Nat)
    (hi : c = .roundTripTimeout b ∨ (c = .roundTrip b m ∧ 4095 * 1024 < m)) (hs : r.step = 4) (hr : r.ready = false)
    (hd : r.done.contains 4 = false) :
    Completes c s fun t => t.calRun b = none ∧ t.get F.calBayStatCause 0 b = 5 ∧ testBit (t.get F.calStatusAborted) b = true
      ∧ testBit (t.get F.calStatusBusy) b = false := by
  have hx : exec c s = .next (s.roundTripLost b) := by
    rcases hi with rfl | ⟨rfl, hm⟩
    · rfl
    · exact congrArg Host.Outcome.next (if_pos hm)
  refine .intro hx ?_
  obtain ⟨h1, h2, h3⟩ := State.calAbort_reads h hb (cause := 5) (by decide) hc
  have h0 := s.calAbort_calRun b 5
  unfold State.roundTripLost
  rw [h]
  dsimp only
  rw [if_pos ⟨hs, hr, hd⟩]
  generalize s.calAbort b 5 = t at h0 h1 h2 h3 ⊢
  split
  · have ho := t.feRequest_within b (t.get F.calBayCfgFePost 0 b) true
    rw [State.calRun_of_cal (ho.cal (by decide)), ho.get _ _ _ (by decide), ho.get _ _ _ (by decide), ho.get _ _ _ (by decide)]
    exact ⟨h0, h1, h2, h3⟩
  · exact ⟨h0, h1, h2, h3⟩

theorem calAbortEnds (ha : Alone s (.bay b)) (hc : s.clearedNow (F.calStatusAborted.key 0 0) (F.calStatusAborted.lo + b) = false)
    (src : Src) : Completes (.calAbort (2 ^ b) src) s fun t => t.calRun b = none ∧ t.get F.calBayStatCause 0 b = 1
      ∧ testBit (t.get F.calStatusAborted) b = true ∧ testBit (t.get F.calStatusBusy) b = false := by
  have hx : exec (.calAbort (2 ^ b) src) s = .next (s.onObj (.bay b) 2 (srcRank src) 1 fun u => u.calAbort b 1) := by
    show execCalAbort (2 ^ b) src s = _
    unfold execCalAbort
    rw [bitsBelow_eight hb]
    rfl
  rw [State.onObj_alone ha] at hx
  have hn := State.note_only ⟨.bay b, 2, srcRank src, 1⟩ (Only.refl (2 ^ 242) s) (by decide)
  have hcn := (hn.clearedNow (by decide) (by decide) (by decide) (by decide)
    (State.decider_note_ne s (e := ⟨.bay b, 2, srcRank src, 1⟩) (by simp))).trans hc
  obtain ⟨h1, h2, h3⟩ := State.calAbort_reads (r := r) ((State.calRun_of_cal (hn.cal (by decide)) b).trans h) hb (cause := 1) (by decide) hcn
  exact .intro hx ⟨State.calAbort_calRun .., h1, h2, h3⟩

omit hb in
theorem bayFullGoesOn (hp : r.proc = 0x0F) (hd : r.done.contains r.step = true) (hr : r.ready = false) :
    Completes (.bayFull b) s fun t => ∃ x, t.calRun b = some x
      ∧ (if r.step = 7 then x = { r with ready := true } else x = { r with step := r.step + 1 }) := by
  have hx : exec (.bayFull b) s = .next (if r.step = 7 then s.modRun b fun r => { r with ready := true }
      else (s.modRun b fun r => { r with step := r.step + 1 }).calBegin b (r.step + 1)) := by
    show Host.Outcome.next (s.calNext b) = _
    unfold State.calNext
    rw [h]
    dsimp only
    rw [if_pos ⟨hp, hd, hr⟩]
  refine .intro hx ?_
  by_cases h7 : r.step = 7
  · rw [if_pos h7, State.calRun_modRun, h]
    exact ⟨_, rfl, by rw [if_pos h7]⟩
  · rw [if_neg h7, State.calRun_of_cal ((State.calBegin_within ..).cal (by decide)), State.calRun_modRun, h]
    exact ⟨_, rfl, by rw [if_neg h7]⟩

theorem calDoneWrites (ha : Alone s (.bay b)) (x y : Nat) (hr : r.ready = true) (hd : r.done = [7])
    (href : r.refDefault = none) (hheld : r.held = [heldFld F.bayCalBayDutyA b 0 x, heldFld F.bayCalBayDutyB b 0 y]) :
    Completes (.calDone b) s fun t => t.calRun b = none ∧ testBit (t.get F.calStatusBusy) b = false
      ∧ t.get F.bayCalBayDutyA b = x % 2 ^ 8 ∧ t.get F.bayCalBayDutyB b = y % 2 ^ 8 := by
  have hx : exec (.calDone b) s = .next ((s.note ⟨.bay b, 6, 0, 1⟩).calUpdate b) := by
    show execCalDone b s = _
    unfold execCalDone
    rw [h]
    dsimp only
    rw [if_pos hr, State.onObj_alone ha]
  refine .intro hx ?_
  have hrun : (s.note ⟨.bay b, 6, 0, 1⟩).calRun b = some r := h
  generalize s.note _ = u at hrun ⊢
  rw [State.calUpdate_duty hrun hd href]
  have hdutyA : (u.dutyApplied b r).get F.bayCalBayDutyA b = x % 2 ^ 8 ∧ (u.dutyApplied b r).get F.bayCalBayDutyB b = y % 2 ^ 8 := by
    have hset : u.applyHeld r.held = (u.set F.bayCalBayDutyA b 0 x).set F.bayCalBayDutyB b 0 y := by
      rw [hheld]
      rfl
    have hreg (f : Fld) : (u.dutyApplied b r).get f b = (u.applyHeld r.held).get f b := State.get_of_regs rfl ..
    rw [hreg, hreg, hset]
    simp (disch := decide)
  have hrun' : (u.dutyApplied b r).calRun b = some r := by
    have hset : u.applyHeld r.held = (u.set F.bayCalBayDutyA b 0 x).set F.bayCalBayDutyB b 0 y := by
      rw [hheld]
      rfl
    refine (State.calRun_of_runs (t := u.dutyApplied b r) (s := u) ?_ b).trans hrun
    show (u.applyHeld r.held).cal.runs = u.cal.runs
    rw [hset, State.set_cal, State.set_cal]
  generalize u.dutyApplied b r = v at hdutyA hrun' ⊢
  have hbusy := State.calOver_busy hrun' hb 0 true
  have hruns : (v.calOver b 0 true).calRun b = none :=
    (congrArg (Assoc.find b) (State.calOver_runs hrun' 0 true)).trans (Assoc.find_filter_none _ _ _ fun _ => by simp)
  have hov := v.calOver_within b 0 true
  rw [← hov.get _ _ _ (by decide), ← hov.get _ _ _ (by decide)] at hdutyA
  generalize v.calOver b 0 true = w at hbusy hruns hdutyA ⊢
  have hpost := w.post_within 0x0A01 b r.proc
  rw [← hpost.get _ _ _ (by decide)] at hbusy
  rw [← hpost.get _ _ _ (by decide), ← hpost.get _ _ _ (by decide)] at hdutyA
  rw [← State.calRun_of_cal (hpost.cal (by decide))] at hruns
  generalize w.post 0x0A01 b r.proc = z at hbusy hruns hdutyA ⊢
  dsimp only
  have hend (t : State) (hr : t.cal.runs = z.cal.runs) (hbt : testBit (t.get F.calStatusBusy) b = false)
      (hA : t.get F.bayCalBayDutyA b = x % 2 ^ 8) (hB : t.get F.bayCalBayDutyB b = y % 2 ^ 8) :
      t.endBatches.calRun b = none ∧ testBit (t.endBatches.get F.calStatusBusy) b = false
      ∧ t.endBatches.get F.bayCalBayDutyA b = x % 2 ^ 8 ∧ t.endBatches.get F.bayCalBayDutyB b = y % 2 ^ 8 := by
    have ho := t.endBatches_within
    rw [ho.get _ _ _ (by decide), ho.get _ _ _ (by decide), ho.get _ _ _ (by decide)]
    exact ⟨(State.calRun_of_runs (t.endBatches_runs.trans hr) b).trans hruns, hbt, hA, hB⟩
  split
  · have hm : (z.modBatch r.batch fun k => { k with commits := k.commits + 1 }).cal.runs = z.cal.runs := rfl
    have hg (f : Fld) (i j : Nat) : (z.modBatch r.batch fun k => { k with commits := k.commits + 1 }).get f i j = z.get f i j :=
      State.get_of_regs rfl ..
    generalize z.modBatch _ _ = m at hm hg ⊢
    have hs := m.storeRequest_within [r.batch]
    refine hend _ ((m.storeRequest_runs _).trans hm) ?_ ?_ ?_
    · rw [State.storeRequest_get _ _ (by decide), hg]
      exact hbusy
    · rw [hs.get _ _ _ (by decide), hg]
      exact hdutyA.1
    · rw [hs.get _ _ _ (by decide), hg]
      exact hdutyA.2
  · exact hend z rfl hbusy hdutyA.1 hdutyA.2

end

/-- Settles O49. -/
theorem calibrationProcedures : Obligations.CalibrationProcedures :=
  ⟨calibrationData, fun _ _ _ hb h ha hc => ⟨roundTripLostEnds hb h hc, calAbortEnds hb h ha hc, bayFullGoesOn h,
    fun x y hr _ => calDoneWrites hb h ha x y hr⟩⟩

end Sys2Proof.Machine
end

