-- ==== Sys2Proof/Proofs/CalibrationStore.lean ====
section
/-!
PROOFS. CalibrationStore.lean: calibration starts, TIME_TRIM, drift, eyes and the calibration store (R438 to R453); from these O50.
-/
namespace Sys2Proof.Machine
set_option Elab.async false

/-! ### Commands that complete after the state has gone on -/

section
variable {N : Nat} {s t u : State} {q : Nat} {d : Desc} {tok : Token} (h : Begins s q d tok t) (hr : (s.ringX q).running = [])
  (hb : s.busMaster = true) (hk : RingKept q t u) (ho : Only N t u) (hB : N.testBit RegName.ringBase.ctorIdx = false)
  (hC : N.testBit RegName.ringCfg.ctorIdx = false) (st : Nat)
include h hr hb hk ho hB hC

/-- A command that completes from a state in which its ring is as it was when it began. -/
theorem Begins.complete_kept (w1 w2 w3 : Word) : WrittenBack s (u.complete tok st w1 w2 w3) q d st w1 w2 w3 := by
  have hbt : t.busMaster = true := h.master.trans hb
  rw [h.token]
  exact WrittenBack.of_regs h.only (by decide) (by decide) (WrittenBack.of_regs ho hB hC
    (State.complete_writtenBack (hk.master.trans hbt) ((hk.runs hbt).trans (h.running hr)) ((hk.gen hbt).trans h.gen) st w1 w2 w3))

theorem Begins.completeSame_kept : WrittenBack s (u.completeSame tok st) q d st d.w1 d.w2 d.w3 := by
  have hbt : t.busMaster = true := h.master.trans hb
  rw [h.token]
  exact WrittenBack.of_regs h.only (by decide) (by decide) (WrittenBack.of_regs ho hB hC
    (State.completeSame_writtenBack (hk.master.trans hbt) ((hk.runs hbt).trans (h.running hr)) ((hk.gen hbt).trans h.gen) st))

end

/-! ### TIME_TRIM (R41, R445) -/

/-- The difference of ADDEND and NOMINAL of the selected domain. -/
def State.trim (s : State) : Int :=
  (s.get F.domAddendAddend (s.get F.timeStatusSelected) : Int) - s.get F.domNominalNominal (s.get F.timeStatusSelected)

theorem State.timeTrim_locked {s : State} (h : s.get F.domStatusState (s.get F.timeStatusSelected) = 2) :
    s.timeTrim = (0, (s.set F.calTimeTrimCapture 0 0 (unsigned 32 s.trim)).post 0x0A01 0 0x10) := if_pos h

theorem State.timeTrim_capture {s : State} (h : s.get F.domStatusState (s.get F.timeStatusSelected) = 2) :
    s.timeTrim.2.get F.calTimeTrimCapture = unsigned 32 s.trim := by
  rw [State.timeTrim_locked h, (State.post_within ..).get _ _ _ (by decide), State.get_set_self _ _ _ _ _ (by decide)]
  exact Nat.mod_eq_of_lt (unsigned_lt ..)

theorem RingKept.setTrim (q : Nat) (s : State) (v : Nat) : RingKept q s (s.set F.calTimeTrimCapture 0 0 v) :=
  .of_only (State.set_only F.calTimeTrimCapture 0 0 v (.refl F.calTimeTrimCapture.mask s) (by decide)) (by decide) (by decide) (State.set_out ..) (State.set_host ..)

theorem timeTrimCaptures (s : State) (hr : s.bit F.clkStatusRefLost = false)
    (h : s.get F.domStatusState (s.get F.timeStatusSelected) = 2) :
    Completes .timeTrim s fun t => t.get F.calTimeTrimCapture
      = unsigned 32 ((s.get F.domAddendAddend (s.get F.timeStatusSelected) : Int) - s.get F.domNominalNominal (s.get F.timeStatusSelected)) :=
  .intro (congrArg Host.Outcome.next (if_neg (by rw [hr]; exact Bool.noConfusion))) (State.timeTrim_capture h)

/-! ### Starts of calibration (R316, R438) -/

theorem Only.bayOf {N : Nat} {s t : State} (h : Only N s t) (hm : N.testBit RegName.globalBaymap.ctorIdx = false) (b : Nat) :
    t.bayOf b = s.bayOf b := by
  unfold State.bayOf
  rw [h.get _ _ _ hm, h.get _ _ _ hm]

/-- Whether a start is refused does not depend on the rings. -/
theorem Only.calRefusal {s t : State} (h : Only (2 ^ 251) s t) (bays : List Nat) : t.calRefusal bays = s.calRefusal bays := by
  have hbay (b : Nat) : t.bayOf b = s.bayOf b := h.bayOf (by decide) b
  have hseq (q : Nat) : t.seqBefore q = s.seqBefore q := State.before_of_startOfTick (h.startOfTick (by decide)) ..
  have hbusy : t.bayBusy = s.bayBusy := by
    funext b
    unfold State.bayBusy State.bayResetting
    rw [h.get _ _ _ (by decide), h.get _ _ _ (by decide)]
  unfold State.calRefusal
  simp only [hbay, hseq, hbusy, h.bit F.clkStatusRefLost 0 0 (by decide)]

section
variable {s : State} {b p : Nat} (hp : calKnown p = true) (hb : b < 8) (ha : Alone s (.bay b))

theorem calKnown_ne (hp : calKnown p = true) : p ≠ 0x10 := by
  rintro rfl
  exact Bool.noConfusion hp

/-- A start on bays joins those that have not ended (R440). -/
def State.startBatch (s : State) (store : Bool) (tok : Option Token) (bays : List Nat) : State :=
  { s with cal := { s.cal with
    nextBatch := s.cal.nextBatch + 1
    batches := s.cal.batches ++ [{ id := s.cal.nextBatch, toks := tok.toList, store := store, bays := bays.map fun b => (b, none) }] } }

include hp hb ha in
/-- A start on one bay that is alone in its tick is refused, or runs. -/
theorem State.calStart_alone (store : Bool) (src : Src) (tok : Option Token) : ∃ eff, s.calStart (2 ^ b) p store src tok
      = if s.calRefusal [b] ≠ 0 then (some (s.calRefusal [b]), s)
        else (none, ((((s.startBatch store tok [b]).decideEvent (.bay b) 5 (srcRank src) eff).2).startRunOn b p s.cal.nextBatch).endBatches) := by
  have hj (eff : Nat) : (s.judge (.bay b) 5 (srcRank src) eff).1 = .acts := by rw [State.judge_alone ha]
  refine ⟨1 + p + 32 * store.toNat + 64 * 2 ^ b, ?_⟩
  unfold State.calStart
  rw [if_neg (calKnown_ne hp), if_neg (by rw [hp]; exact Bool.noConfusion), bitsBelow_eight hb]
  extract_lets bays eff vs id k t1 t2
  have hvs : vs = [.acts] := by
    unfold vs bays
    rw [List.map_cons, List.map_nil, hj]
  rw [hvs, if_neg (by decide), if_neg (by simp)]
  rfl

theorem Assoc.find_append_none {K V : Type} [DecidableEq K] {k : K} {l : List (K × V)} (h : Assoc.find k l = none) (v : V) :
    Assoc.find k (l ++ [(k, v)]) = some v := by
  induction l with
  | nil => rw [List.nil_append, Assoc.find, if_pos rfl]
  | cons e l ih =>
    rw [Assoc.find] at h
    split at h
    · cases h
    · next he => rw [List.cons_append, Assoc.find, if_neg he, ih h]

/-- What an accepted run leaves: it runs its procedure, and the bay is BUSY (R438, R439). -/
theorem State.startRunOn_reads {s : State} {b : Nat} (h : s.calRun b = none) (hb : b < 8) (p id : Nat) :
    ((s.startRunOn b p id).calRun b).map (·.proc) = some p ∧ testBit ((s.startRunOn b p id).get F.calStatusBusy) b = true
    ∧ (s.startRunOn b p id).get F.calBayStatProc 0 b = p % 32 := by
  unfold State.startRunOn
  extract_lets q ts per r src t1 t2 t3
  have h1 : (t1.calRun b).map (·.proc) = some p := by
    have hruns : t1.cal.runs = s.cal.runs ++ [(b, r)] := by
      unfold t1
      rw [(State.putMask_only F.calStatusBusy 0 0 b true (.refl (2 ^ RegName.calStatus.ctorIdx) _) (by decide)).cal (by decide)]
    unfold State.calRun at h ⊢
    rw [hruns, Assoc.find_append_none h]
    rfl
  have h1b : testBit (t1.get F.calStatusBusy) b = true := (State.testBit_putMask _ _ _ _ _ _ _ (by decide) hb).trans (if_pos rfl)
  have h2 : Only 0x10040000000000000000300000000000000000000000000000000000000000000 (t1.set F.calBayStatProc 0 b p) t2 :=
    ((State.denLow_within ..).mono (by decide)).step (State.setStale_within ..) (by decide)
  have h3 : Only 0x100000000000000000000000000000000000000000000000000000000000000000 t2 t3 := by
    unfold t3
    refine .ite (fun _ => ?_) fun _ => .refl ..
    exact foldl_keeps (P := fun u => Only 0x100000000000000000000000000000000000000000000000000000000000000000 t2 u) (fun u g hu => hu.step (State.setDclk_within ..) (by decide)) _ (.refl ..)
  have h4 : Only 0xf310944000000000000000302401c04820000000000000000002000000000145000 t3 ((((t3.adcCalibrate b).acqIdle b 3).timCalibrate b).calBegin b r.step) :=
    ((((State.adcCalibrate_within ..).mono (by decide)).step (State.acqIdle_within ..) (by decide)).step (State.timCalibrate_within ..)
      (by decide)).step (State.calBegin_within ..) (by decide)
  clear_value t1
  have h5 := ((h2.mono (N := 0xf310944000000000000000302401c04820000000000000000002000000000145000) (by decide)).step h3 (by decide)).step h4 (by decide)
  generalize (((t3.adcCalibrate b).acqIdle b 3).timCalibrate b).calBegin b r.step = u at h5 ⊢
  rw [h5.get _ _ _ (by decide), h5.get _ _ _ (by decide), State.calRun_of_cal ((h5.cal (by decide)).trans (State.set_cal ..))]
  refine ⟨h1, ?_, State.get_set_self _ _ _ _ _ (by decide)⟩
  rwa [State.get_set_ne _ _ _ _ _ _ _ _ (by decide) (.inl (by decide))]

theorem cmdCalRunStarts {s t : State} {q b p : Nat} {d : Desc} {tok : Token} (h : s.beginCommand q 0x08 = some (d, tok, t))
    (hp : p = bitsOf d.w1 8 8) (hbm : s.busMaster = true) (hk : calKnown p = true) (hb : b < 8) (hmask : bitsOf d.w1 0 8 = 2 ^ b)
    (ha : Alone s (.bay b)) (hrun : s.calRun b = none) :
    (s.calRefusal [b] ≠ 0 → Completes (.cmdCalRun q) s fun u => WrittenBack s u q d (s.calRefusal [b]) d.w1 d.w2 d.w3)
    ∧ (s.calRefusal [b] = 0 → Completes (.cmdCalRun q) s fun u => (u.calRun b).map (·.proc) = some p
        ∧ testBit (u.get F.calStatusBusy) b = true ∧ u.get F.calBayStatProc 0 b = p % 2 ^ F.calBayStatProc.width) := by
  obtain ⟨hbg, -, -, hr, -, -⟩ := State.beginCommand_begins h
  have hat : Alone t (.bay b) := hbg.only.alone_of_quiet ha (by decide) (by decide) (by decide) (by decide) (by decide) (by decide)
  obtain ⟨eff, hst⟩ := State.calStart_alone hk hb hat (decide (bitsOf d.w1 16 1 = 1)) (.host q) (some tok)
  have hx := State.command_begins h fun d tok t =>
    let p := bitsOf d.w1 8 8
    match t.calStart (bitsOf d.w1 0 8) p (decide (bitsOf d.w1 16 1 = 1)) (.host q) (some tok) with
    | (some st, u) => if p = 0x10 then u.complete tok st d.w1 0 0 else u.completeSame tok st
    | (none, u) => u
  dsimp only at hx
  rw [← hp, hmask, hst, hbg.only.calRefusal] at hx
  refine ⟨fun hn => ?_, fun hz => ?_⟩
  · rw [if_pos hn] at hx
    dsimp only at hx
    rw [if_neg (calKnown_ne hk)] at hx
    exact .intro hx (hbg.completeSame hr hbm _)
  · rw [if_neg (not_not.2 hz)] at hx
    refine .intro hx ?_
    dsimp only
    have hq : (t.startBatch (decide (bitsOf d.w1 16 1 = 1)) (some tok) [b]).calRun b = none :=
      (State.calRun_of_cal (hbg.only.cal (by decide)) b).trans hrun
    have hd := (t.startBatch (decide (bitsOf d.w1 16 1 = 1)) (some tok) [b]).decideEvent_within (.bay b) 5 (srcRank (.host q)) eff
    obtain ⟨h1, h2, h3⟩ := State.startRunOn_reads (((State.calRun_of_cal (hd.cal (by decide)) b).trans hq)) hb p t.cal.nextBatch
    have ho := State.endBatches_within (State.startRunOn ((t.startBatch (decide (bitsOf d.w1 16 1 = 1)) (some tok) [b]).decideEvent (.bay b) 5
      (srcRank (.host q)) eff).2 b p t.cal.nextBatch)
    rw [ho.get _ _ _ (by decide), ho.get _ _ _ (by decide), State.calRun_of_runs (State.endBatches_runs _)]
    exact ⟨h1, h2, h3⟩

end

/-! ### Drift and eyes (R451, R453) -/

theorem State.updateDrift_reads (s : State) (b k : Nat) : (s.updateDrift b).get F.calBayStatDrift 0 k
      = (if k = b then unsigned 12 (s.drift b) else s.get F.calBayStatDrift 0 k)
    ∧ (s.updateDrift b).get F.calBayStatTempWarn 0 k
      = if k = b then (if 20 < (s.drift b).natAbs then 1 else 0) else s.get F.calBayStatTempWarn 0 k := by
  unfold State.updateDrift
  extract_lets d warn t
  have hreads : t.get F.calBayStatDrift 0 k = (if k = b then unsigned 12 d else s.get F.calBayStatDrift 0 k)
      ∧ t.get F.calBayStatTempWarn 0 k = if k = b then (if 20 < d.natAbs then 1 else 0) else s.get F.calBayStatTempWarn 0 k := by
    unfold t
    by_cases hk : k = b
    · subst hk
      rw [if_pos rfl, if_pos rfl]
      refine ⟨?_, ?_⟩
      · rw [State.get_setBit_ne _ _ _ _ _ _ _ _ (by decide) (.inr (.inr (.inr (by decide)))), State.get_set_self _ _ _ _ _ (by decide)]
        exact Nat.mod_eq_of_lt (unsigned_lt ..)
      · refine (State.get_set_self _ _ _ _ _ (by decide)).trans ?_
        unfold warn
        split <;> simp [*]
    · rw [if_neg hk, if_neg hk, State.get_setBit_ne _ _ _ _ _ _ _ _ (by decide) (.inr (.inr (.inl (Ne.symm hk)))),
        State.get_setBit_ne _ _ _ _ _ _ _ _ (by decide) (.inr (.inr (.inl (Ne.symm hk)))),
        State.get_set_ne _ _ _ _ _ _ _ _ (by decide) (.inr (.inr (.inl (Ne.symm hk)))),
        State.get_set_ne _ _ _ _ _ _ _ _ (by decide) (.inr (.inr (.inl (Ne.symm hk))))]
      exact ⟨rfl, rfl⟩
  clear_value t
  split
  · rw [(State.post_within ..).get _ _ _ (by decide), (State.post_within ..).get _ _ _ (by decide)]
    exact hreads
  · exact hreads

/-- DRIFT depends on no other bay's. -/
theorem State.updateDrift_drift (s : State) (b k : Nat) : (s.updateDrift b).drift k = s.drift k := by
  have h := s.updateDrift_within b
  unfold State.drift State.bayUncal State.getS
  rw [h.get _ _ _ (by decide), h.get _ _ _ (by decide), h.cal (by decide)]

theorem State.updateDrifts (s : State) (n k : Nat) : ((List.range n).foldl State.updateDrift s).drift k = s.drift k
    ∧ (k < n → ((List.range n).foldl State.updateDrift s).get F.calBayStatDrift 0 k = unsigned 12 (s.drift k)
      ∧ ((List.range n).foldl State.updateDrift s).get F.calBayStatTempWarn 0 k = if 20 < (s.drift k).natAbs then 1 else 0) := by
  induction n generalizing k with
  | zero => exact ⟨rfl, fun h => absurd h (Nat.not_lt_zero _)⟩
  | succ n ih =>
    rw [List.range_succ, List.foldl_append, List.foldl_cons, List.foldl_nil]
    refine ⟨(State.updateDrift_drift ..).trans (ih k).1, fun hk => ?_⟩
    rw [(State.updateDrift_reads ..).1, (State.updateDrift_reads ..).2]
    by_cases hn : k = n
    · rw [if_pos hn, if_pos hn, (ih n).1, hn]
      exact ⟨rfl, rfl⟩
    · rw [if_neg hn, if_neg hn]
      exact (ih k).2 (by omega)

theorem driftUpdateReads (s : State) (h : s.cal.driftAt + 1500000 ≤ s.ticks) :
    Completes .driftUpdate s fun t => t.cal.driftAt = s.ticks ∧ ∀ b < 8, t.get F.calBayStatDrift 0 b = unsigned 12 (s.drift b)
      ∧ t.get F.calBayStatTempWarn 0 b = if 20 < (s.drift b).natAbs then 1 else 0 := by
  refine .intro (congrArg Host.Outcome.next (if_pos h)) ⟨?_, fun b hb => ?_⟩
  · have ho := foldl_keeps (P := fun u => u.cal = { s.cal with driftAt := s.ticks }) (f := State.updateDrift)
      (fun u b hu => ((u.updateDrift_within b).cal (by decide)).trans hu) (List.range 8)
      (s := { s with cal := { s.cal with driftAt := s.ticks } }) rfl
    exact congrArg CalX.driftAt ho
  · have hd : State.drift { s with cal := { s.cal with driftAt := s.ticks } } b = s.drift b := rfl
    rw [← hd]
    exact (State.updateDrifts _ 8 b).2 hb

theorem eyeMeasureStores (p : Nat) (eyes : BitVec 32) (s : State) (h : s.get F.olupStatusState p = 3
    ∨ (s.linkActive p = true ∧ s.bit F.olupStatusRxAsleep p = false ∧ (s.portX p).eyeAt + 150000000 ≤ s.ticks)) :
    Completes (.eyeMeasure p eyes) s fun t => t.get F.calOluEyeEye 0 p = eyes.toNat ∧ t.get F.calOluEyeValid 0 p = 1
      ∧ (t.portX p).eyeAt = s.ticks := by
  refine .intro (if_pos h) ⟨?_, ?_, ?_⟩
  · rw [State.get_setPortX, State.get_set_ne _ _ _ _ _ _ _ _ (by decide) (.inr (.inr (.inr (by decide)))),
    State.get_set_self _ _ _ _ _ (by decide)]
    exact Nat.mod_eq_of_lt eyes.isLt
  · rw [State.get_setPortX]
    exact State.get_set_self _ _ _ _ _ (by decide)
  · rw [State.portX_setPortX, if_pos rfl]

/-! ### The store (R446, R450) -/

theorem storeCommitBegins (s : State) (h : s.cal.job = none) :
    Completes .storeCommit s fun t => t.get F.calStatusStoreState = 1
      ∧ t.cal.job.map (·.gen) = some ((s.cal.bank.gen?.getD 0 + 1) % 2 ^ 32) := by
  have hx : exec .storeCommit s = .next (s.beginCommit []) := by
    show Host.Outcome.next (s.storeRequest []) = _
    unfold State.storeRequest
    rw [h]
  refine .intro hx ⟨State.get_set_self _ _ _ _ _ (by decide), ?_⟩
  unfold State.beginCommit
  rw [State.set_cal]
  rfl

theorem storeCommitWaits (s : State) (h : s.cal.job.isSome = true) :
    Completes .storeCommit s fun t => t.get F.calStatusStoreState = 2 ∧ t.cal.job = s.cal.job ∧ t.cal.wait.isSome = true := by
  obtain ⟨j, hj⟩ := Option.isSome_iff_exists.1 h
  have hx : exec .storeCommit s = .next (({ s with cal := { s.cal with wait := some (s.cal.wait.getD [] ++ []) } }).set
      F.calStatusStoreState 0 0 2) := by
    show Host.Outcome.next (s.storeRequest []) = _
    unfold State.storeRequest
    rw [hj]
  refine .intro hx ⟨State.get_set_self _ _ _ _ _ (by decide), ?_, ?_⟩ <;> rw [State.set_cal]
  rfl

/-- The calibration state with the starts that have not ended replaced. -/
def CalX.withBatches (x : CalX) (l : List CalBatch) : CalX := { x with batches := l }

/-- Two states of the calibration with the same two banks. -/
def CalX.SameBanks (x y : CalX) : Prop := x.bankA = y.bankA ∧ x.bankB = y.bankB

theorem CalX.SameBanks.reads {x y : CalX} (h : x.SameBanks y) : x.active = y.active ∧ x.bank = y.bank := by
  obtain ⟨hA, hB⟩ := h
  unfold CalX.bank CalX.active
  rw [hA, hB]
  exact ⟨rfl, rfl⟩

theorem CalX.reads_of_withBatches {x y : CalX} (h : x.withBatches [] = y.withBatches []) : x.job = y.job ∧ x.SameBanks y :=
  ⟨(congrArg CalX.job h :), (congrArg CalX.bankA h :), (congrArg CalX.bankB h :)⟩

/-- Starts that end leave all of the calibration but themselves. -/
theorem State.endBatches_cal (s : State) : s.endBatches.cal.withBatches [] = s.cal.withBatches [] := by
  have hend (t : State) (k : CalBatch) : (t.endBatch k).cal.withBatches [] = t.cal.withBatches [] := by
    unfold State.endBatch
    split
    · extract_lets st
      refine foldl_keeps (P := fun u => u.cal.withBatches [] = t.cal.withBatches []) (fun u tok hu => ?_) _ rfl
      split
      · rwa [(State.complete_within ..).cal (by decide)]
      · exact hu
    · rfl
  exact foldl_keeps (P := fun t => t.cal.withBatches [] = s.cal.withBatches []) (fun t k ht => (hend t k).trans ht) _ rfl

/-- Which of two banks with these generations is the active one (R446). -/
def newerBank : Option Nat → Option Nat → Option Nat
  | none, none => none
  | some _, none => some 0
  | none, some _ => some 1
  | some a, some b => if (b + 2 ^ 32 - a) % 2 ^ 32 = 0 ∨ 2 ^ 31 ≤ (b + 2 ^ 32 - a) % 2 ^ 32 then some 0 else some 1

theorem CalX.active_eq (x : CalX) : x.active = newerBank x.bankA.gen? x.bankB.gen? := by
  unfold CalX.active newerBank
  rfl

theorem newerBank_cases (a b : Option Nat) : newerBank a b = none ∧ a = none ∧ b = none
    ∨ newerBank a b = some 0 ∧ a.isSome ∨ newerBank a b = some 1 ∧ b.isSome := by
  unfold newerBank
  split
  · exact .inl ⟨rfl, rfl, rfl⟩
  · exact .inr (.inl ⟨rfl, rfl⟩)
  · exact .inr (.inr ⟨rfl, rfl⟩)
  · split
    · exact .inr (.inl ⟨rfl, rfl⟩)
    · exact .inr (.inr ⟨rfl, rfl⟩)

/-- The generation after that of a bank makes the other one the active bank. -/
theorem newerBank_next {g : Nat} (h : g < 2 ^ 32) : newerBank (some g) (some ((g + 1) % 2 ^ 32)) = some 1
    ∧ newerBank (some ((g + 1) % 2 ^ 32)) (some g) = some 0 :=
  ⟨if_neg (by omega), if_pos (by omega)⟩

/-- The bank that a commit writes becomes the active one. -/
theorem CalX.putOther_bank (x : CalX) {g : Nat} (hg : x.bank.gen?.getD 0 < 2 ^ 32) (hj : g = (x.bank.gen?.getD 0 + 1) % 2 ^ 32)
    (st : Nat) (l : List Nat) : (x.putOther (.image g st l)).bank = .image g st l := by
  unfold CalX.bank at hg hj
  unfold CalX.putOther CalX.bank
  rcases newerBank_cases x.bankA.gen? x.bankB.gen? with ⟨hn, -, hb⟩ | ⟨hn, ha⟩ | ⟨hn, hb⟩ <;>
    rw [← CalX.active_eq] at hn <;> rw [hn] at hg hj ⊢
  · rw [if_neg (by simp), CalX.active_eq, hb]
    rfl
  · obtain ⟨a, ha⟩ := Option.isSome_iff_exists.1 ha
    change x.bankA.gen?.getD 0 < 2 ^ 32 at hg
    change g = (x.bankA.gen?.getD 0 + 1) % 2 ^ 32 at hj
    rw [ha] at hg hj
    have hnext : newerBank x.bankA.gen? (Bank.image g st l).gen? = some 1 := by
      rw [ha, hj]
      exact (newerBank_next hg).1
    rw [if_pos rfl, CalX.active_eq, hnext]
    rfl
  · obtain ⟨b, hb⟩ := Option.isSome_iff_exists.1 hb
    change x.bankB.gen?.getD 0 < 2 ^ 32 at hg
    change g = (x.bankB.gen?.getD 0 + 1) % 2 ^ 32 at hj
    rw [hb] at hg hj
    have hnext : newerBank (Bank.image g st l).gen? x.bankB.gen? = some 0 := by
      rw [hb, hj]
      exact (newerBank_next hg).2
    rw [if_neg (by simp), CalX.active_eq, hnext]
    rfl

/-- A commit whose read-back differs leaves the active bank as it was. -/
theorem CalX.putOther_left (x : CalX) (k : Bank) (h : k.gen? = (if x.active = some 0 then x.bankB else x.bankA).gen?) :
    (x.putOther k).active = x.active ∧ (x.putOther k).bank = x.bank := by
  have ha : (x.putOther k).active = x.active := by
    unfold CalX.putOther
    split at h
    · next hz =>
      rw [if_pos hz, CalX.active_eq, CalX.active_eq]
      exact congrArg (newerBank x.bankA.gen?) h
    · next hz =>
      rw [if_neg hz, CalX.active_eq, CalX.active_eq]
      exact congrArg (newerBank · x.bankB.gen?) h
  refine ⟨ha, ?_⟩
  unfold CalX.bank
  rw [ha]
  unfold CalX.putOther
  split
  · next hz => rw [if_pos hz]
  · next n hz hn => rw [if_neg (by rw [hn]; exact fun he => hz (Option.some.inj he))]
  · rfl

/-- The bank that a commit leaves behind: its snapshot, or, where the read-back differs, what the bank held with the records that
were written (R450). -/
def State.committed (s : State) (j : StoreJob) (ok : Bool) : Bank :=
  if ok then .image j.gen j.stamp j.recs
  else match (if s.cal.active = some 0 then s.cal.bankB else s.cal.bankA) with
    | .empty => .empty
    | .shipped => .image 1 0 j.recs
    | .image g st _ => .image g st j.recs

theorem State.committed_gen (s : State) (j : StoreJob) :
    (s.committed j false).gen? = (if s.cal.active = some 0 then s.cal.bankB else s.cal.bankA).gen? := by
  unfold State.committed
  rw [if_neg Bool.noConfusion]
  cases (if s.cal.active = some 0 then s.cal.bankB else s.cal.bankA) <;> rfl

theorem State.showStore_generation (s : State) : s.showStore.get F.calStatusGeneration = s.cal.bank.gen?.getD 0 % 2 ^ 32 :=
  State.get_set_self _ _ _ _ _ (by decide)

/-- The state in which a commit has ended, before what waited for it goes on. -/
def State.storeDone (s : State) (j : StoreJob) (ok : Bool) : State :=
  let t := { s with cal := { s.cal.putOther (s.committed j ok) with job := none, wait := none } }
  let t := (if ok then t else t.hwSet F.calStatusStoreFail 0 0).showStore.set F.calStatusStoreState 0 0 0
  t.post 0x0A03 0 ((if ok then 1 else 2) + t.get F.calStatusGeneration * 2 ^ 32)

/-- A start on several bays whose commit has ended. -/
def CalBatch.committed (k : CalBatch) (ok : Bool) : CalBatch := { k with commits := k.commits - 1, out := max k.out (if ok then 1 else 2) }

theorem State.endCommit_eq {s : State} {j : StoreJob} (hj : s.cal.job = some j) (hw : s.cal.wait = none) (ok : Bool) :
    s.endCommit ok = (j.batches.foldl (fun u i => u.modBatch i fun k => k.committed ok) (s.storeDone j ok)).endBatches := by
  unfold State.endCommit State.storeDone State.committed
  rw [hj]
  simp only [hw]
  rfl

theorem State.storeDone_reads (s : State) (j : StoreJob) (ok : Bool) :
    (s.storeDone j ok).cal.job = none ∧ (s.storeDone j ok).cal.SameBanks (s.cal.putOther (s.committed j ok))
    ∧ (s.storeDone j ok).get F.calStatusStoreState = 0
    ∧ (s.storeDone j ok).get F.calStatusGeneration = (s.cal.putOther (s.committed j ok)).bank.gen?.getD 0 % 2 ^ 32
    ∧ (ok = false → Unclear s F.calStatusStoreFail 0 0 → (s.storeDone j ok).get F.calStatusStoreFail = 1) := by
  unfold State.storeDone
  extract_lets src t u
  have hu : u.cal = t.cal := by
    refine (State.set_cal ..).trans ((State.showStore_within _).cal (by decide) |>.trans ?_)
    split
    · rfl
    · exact (State.hwSet_only F.calStatusStoreFail 0 0 (.refl (F.calStatusStoreFail.mask ||| evMask) t) (by decide)).cal (by decide)
  have hfail (hok : ok = false) (hc : Unclear s F.calStatusStoreFail 0 0) : u.get F.calStatusStoreFail = 1 := by
    refine (State.get_set_ne _ _ _ _ _ _ _ _ (by decide) (.inr (.inr (.inr (by decide))))).trans ?_
    unfold State.showStore
    rw [State.get_set_ne _ _ _ _ _ _ _ _ (by decide) (.inr (.inr (.inr (by decide)))),
      State.get_setBit_ne _ _ _ _ _ _ _ _ (by decide) (.inr (.inr (.inr (by decide)))),
      State.get_set_ne _ _ _ _ _ _ _ _ (by decide) (.inr (.inr (.inr (by decide))))]
    rw [hok, if_neg Bool.noConfusion]
    have ht : Only 0x10000000000000000000000000000000000000000000000000000000000000000000 s t := Only.fields (.refl _ s) rfl rfl
    exact State.get_hwSet _ _ _ _ (ht.unclear hc (by decide) (by decide) (by decide) (by decide) (State.decider_congr (ht.events (by decide)) _)) (by decide) (by decide)
  have hgen : u.get F.calStatusGeneration = t.cal.bank.gen?.getD 0 % 2 ^ 32 := by
    refine (State.get_set_ne _ _ _ _ _ _ _ _ (by decide) (.inr (.inr (.inr (by decide))))).trans ((State.showStore_generation _).trans ?_)
    split
    · rfl
    · rw [(State.hwSet_only F.calStatusStoreFail 0 0 (.refl (F.calStatusStoreFail.mask ||| evMask) t) (by decide)).cal (by decide)]
  have hstate : u.get F.calStatusStoreState = 0 := State.get_set_self _ _ _ _ _ (by decide)
  clear_value u
  rw [(State.post_within ..).cal (by decide), (State.post_within ..).get _ _ _ (by decide),
    (State.post_within ..).get _ _ _ (by decide),
    (State.post_within ..).get _ _ _ (by decide), hu]
  exact ⟨rfl, ⟨rfl, rfl⟩, hstate, hgen, hfail⟩

/-- What the end of a commit that none waits behind leaves (R450). -/
theorem State.endCommit_reads {s : State} {j : StoreJob} (hj : s.cal.job = some j) (hw : s.cal.wait = none) (ok : Bool) :
    (s.endCommit ok).cal.job = none ∧ (s.endCommit ok).cal.SameBanks (s.cal.putOther (s.committed j ok))
    ∧ (s.endCommit ok).get F.calStatusStoreState = 0
    ∧ (s.endCommit ok).get F.calStatusGeneration = (s.cal.putOther (s.committed j ok)).bank.gen?.getD 0 % 2 ^ 32
    ∧ (ok = false → Unclear s F.calStatusStoreFail 0 0 → (s.endCommit ok).get F.calStatusStoreFail = 1) := by
  rw [State.endCommit_eq hj hw]
  have hb (u : State) (i : Nat) : (u.modBatch i fun k => k.committed ok).cal.withBatches [] = u.cal.withBatches [] := rfl
  have hf : Only 0x10000000000000000000000000000000000000000000000000000000000000000000 (s.storeDone j ok) (j.batches.foldl (fun u i => u.modBatch i fun k => k.committed ok) (s.storeDone j ok)) :=
    foldl_keeps (fun u i hu => hu.step (State.modBatch_within ..) (by decide)) _ (.refl ..)
  have hc : (j.batches.foldl (fun u i => u.modBatch i fun k => k.committed ok) (s.storeDone j ok)).cal.withBatches []
      = (s.storeDone j ok).cal.withBatches [] :=
    foldl_keeps (P := fun u => u.cal.withBatches [] = (s.storeDone j ok).cal.withBatches []) (fun u i hu => (hb u i).trans hu) _ rfl
  generalize j.batches.foldl (fun u i => u.modBatch i fun k => k.committed ok) (s.storeDone j ok) = t at hf hc ⊢
  have ho := (hf.mono (N := 0x10000844000000000000000000000000000000000000000000000000000000145000) (by decide)).step t.endBatches_within (by decide)
  obtain ⟨h0, h1, h2, h3, h4⟩ := s.storeDone_reads j ok
  obtain ⟨hjob, hA, hB⟩ := CalX.reads_of_withBatches ((State.endBatches_cal t).trans hc)
  refine ⟨hjob.trans h0, ⟨hA.trans h1.1, hB.trans h1.2⟩, ?_, ?_, ?_⟩
  · rwa [ho.get _ _ _ (by decide)]
  · rwa [ho.get _ _ _ (by decide)]
  · rwa [ho.get _ _ _ (by decide)]

theorem calStoreEnds {j : StoreJob} {s : State} (hj : s.cal.job = some j) (hw : s.cal.wait = none) (hg : s.cal.bank.gen?.getD 0 < 2 ^ 32)
    (hn : j.gen = (s.cal.bank.gen?.getD 0 + 1) % 2 ^ 32) :
    Completes (.calStore true) s fun t => t.get F.calStatusStoreState = 0 ∧ t.cal.job = none
      ∧ t.cal.bank = .image j.gen j.stamp j.recs ∧ t.get F.calStatusGeneration = j.gen := by
  obtain ⟨hjob, hcal, hstate, hgen, -⟩ := State.endCommit_reads hj hw true
  have hbank : (s.cal.putOther (s.committed j true)).bank = .image j.gen j.stamp j.recs := by
    rw [State.committed, if_pos rfl]
    exact s.cal.putOther_bank hg hn _ _
  have hlt : j.gen < 2 ^ 32 := by
    rw [hn]
    exact Nat.mod_lt _ (Nat.two_pow_pos 32)
  rw [hbank, show (Bank.image j.gen j.stamp j.recs).gen?.getD 0 = j.gen from rfl] at hgen
  exact .intro (t := s.endCommit true) rfl ⟨hstate, hjob, hcal.reads.2.trans hbank, hgen.trans (Nat.mod_eq_of_lt hlt)⟩

theorem calStoreFails {j : StoreJob} {s : State} (hj : s.cal.job = some j) (hw : s.cal.wait = none) (hu : Unclear s F.calStatusStoreFail 0 0) :
    Completes (.calStore false) s fun t => t.get F.calStatusStoreFail = 1 ∧ t.cal.job = none
      ∧ t.cal.active = s.cal.active ∧ t.cal.bank = s.cal.bank := by
  obtain ⟨hjob, hcal, -, -, hfail⟩ := State.endCommit_reads hj hw false
  obtain ⟨ha, hb⟩ := s.cal.putOther_left (s.committed j false) (s.committed_gen j)
  exact .intro (t := s.endCommit false) rfl ⟨hfail rfl hu, hjob, hcal.reads.1.trans ha, hcal.reads.2.trans hb⟩

/-! ### O50 -/

section
variable {s t : State} {q : Nat} {d : Desc} {tok : Token} (h : s.beginCommand q 0x08 = some (d, tok, t))
include h

/-- CAL_RUN where its start ends at once. -/
theorem cmdCalRun_ends {u : State} {st : Nat} (hst : t.calStart (bitsOf d.w1 0 8) (bitsOf d.w1 8 8) (decide (bitsOf d.w1 16 1 = 1))
    (.host q) (some tok) = (some st, u)) : exec (.cmdCalRun q) s
      = .next (if bitsOf d.w1 8 8 = 0x10 then u.complete tok st d.w1 0 0 else u.completeSame tok st) := by
  have hx := State.command_begins h fun d tok t =>
    let p := bitsOf d.w1 8 8
    match t.calStart (bitsOf d.w1 0 8) p (decide (bitsOf d.w1 16 1 = 1)) (.host q) (some tok) with
    | (some st, u) => if p = 0x10 then u.complete tok st d.w1 0 0 else u.completeSame tok st
    | (none, u) => u
  dsimp only at hx
  rw [hst] at hx
  exact hx

/-- TIME_TRIM while REF_LOST is set (R41). -/
theorem cmdCalRunTrimRefused (hp : bitsOf d.w1 8 8 = 0x10) (hbm : s.busMaster = true) (hl : s.bit F.clkStatusRefLost = true) :
    Completes (.cmdCalRun q) s fun u => WrittenBack s u q d 7 d.w1 0 0 := by
  obtain ⟨hbg, -, -, hr, -, -⟩ := State.beginCommand_begins h
  refine .intro (cmdCalRun_ends h (u := t) (st := 7) ?_) ?_
  · unfold State.calStart
    rw [if_pos hp, hbg.only.bit F.clkStatusRefLost _ _ (by decide), if_pos hl]
  · rw [if_pos hp]
    exact hbg.complete hr hbm _ _ _ _

/-- TIME_TRIM with the selected domain LOCKED (R445). -/
theorem cmdCalRunTrims (hp : bitsOf d.w1 8 8 = 0x10) (hbm : s.busMaster = true) (hl : s.bit F.clkStatusRefLost = false)
    (hs : s.get F.domStatusState (s.get F.timeStatusSelected) = 2) :
    Completes (.cmdCalRun q) s fun u => WrittenBack s u q d 0 d.w1 0 0 ∧ u.get F.calTimeTrimCapture = unsigned 32 s.trim := by
  obtain ⟨hbg, -, -, hr, -, -⟩ := State.beginCommand_begins h
  have hsel : t.get F.timeStatusSelected = s.get F.timeStatusSelected := hbg.only.get _ _ _ (by decide)
  have htrim : t.trim = s.trim := by
    unfold State.trim
    rw [hsel, hbg.only.get _ _ _ (by decide), hbg.only.get _ _ _ (by decide)]
  have hlocked : t.get F.domStatusState (t.get F.timeStatusSelected) = 2 := by rwa [hsel, hbg.only.get _ _ _ (by decide)]
  have hst : t.calStart (bitsOf d.w1 0 8) (bitsOf d.w1 8 8) (decide (bitsOf d.w1 16 1 = 1)) (.host q) (some tok) = (some 0,
    t.timeTrim.2) := by
    unfold State.calStart
    rw [if_pos hp, hbg.only.bit F.clkStatusRefLost _ _ (by decide), if_neg (by rw [hl]; exact Bool.noConfusion),
      State.timeTrim_locked hlocked]
  have hcap : t.timeTrim.2.get F.calTimeTrimCapture = unsigned 32 s.trim := htrim ▸ State.timeTrim_capture hlocked
  have hk : RingKept q t t.timeTrim.2 := by
    rw [State.timeTrim_locked hlocked]
    exact (RingKept.setTrim q t _).trans (.post ..)
  have ho := t.timeTrim_within
  generalize t.timeTrim.2 = u at hst hcap hk ho
  refine .intro (cmdCalRun_ends h hst) ?_
  rw [if_pos hp]
  exact ⟨hbg.complete_kept hr hbm hk ho (by decide) (by decide) _ _ _ _, ((State.complete_within ..).get _ _ _ (by decide)).trans hcap⟩

theorem cmdCalRunUnknown (hp : bitsOf d.w1 8 8 ≠ 0x10) (hk : calKnown (bitsOf d.w1 8 8) = false) (hbm : s.busMaster = true) :
    Completes (.cmdCalRun q) s fun u => WrittenBack s u q d 1 d.w1 d.w2 d.w3 := by
  obtain ⟨hbg, -, -, hr, -, -⟩ := State.beginCommand_begins h
  refine .intro (cmdCalRun_ends h (u := t) (st := 1) ?_) ?_
  · unfold State.calStart
    rw [if_neg hp, if_pos hk]
  · rw [if_neg hp]
    exact hbg.completeSame hr hbm _

end

/-- Settles O50: each start reads as the frame of its refusal or its run gives, and each end of a store commit as its banks give. -/
theorem calibrationStartsAndStore : Obligations.CalibrationStartsAndStore := by
  refine ⟨⟨fun q b p d tok s t h hp hbm => ?_, timeTrimCaptures, driftUpdateReads, eyeMeasureStores⟩,
    storeCommitBegins, storeCommitWaits, fun _ _ => calStoreEnds, fun _ _ => calStoreFails⟩
  exact ⟨fun hz hl => cmdCalRunTrimRefused h (hp.symm.trans hz) hbm hl, fun hz hl hs => cmdCalRunTrims h (hp.symm.trans hz) hbm hl hs,
    fun hn hk => cmdCalRunUnknown h (hp ▸ hn) (hp ▸ hk) hbm, fun hk hb hm ha hr => cmdCalRunStarts h hp hbm hk hb hm ha hr⟩

end Sys2Proof.Machine
end

