-- ==== Sys2Proof/Proofs/HostKept.lean ====
section
/-!
PROOFS. HostKept.lean: what write-backs, records and completions leave of the host's part beside the rings they concern (R305 to R320):
the fuse, and that no ring waits at a barrier.
-/
namespace Sys2Proof.Machine
set_option Elab.async false

/-- The step from `s` to `t` leaves the fuse's arm and its accepted confirms as they are, and brings no ring to a barrier. -/
structure HostKept (s t : State) : Prop where
  fuseArm : t.host.fuseArm = s.host.fuseArm
  fuseBlow : t.host.fuseBlow = s.host.fuseBlow
  noBarrier : NoBarrier s → NoBarrier t

namespace HostKept
variable {s t u : State}

theorem refl (s : State) : HostKept s s := ⟨rfl, rfl, id⟩

theorem trans (h : HostKept s t) (g : HostKept t u) : HostKept s u :=
  ⟨g.fuseArm.trans h.fuseArm, g.fuseBlow.trans h.fuseBlow, fun hn => g.noBarrier (h.noBarrier hn)⟩

theorem of_host (h : t.host = s.host) : HostKept s t :=
  ⟨congrArg HostX.fuseArm h, congrArg HostX.fuseBlow h, fun hn => NoBarrier.of_host hn (congrArg HostX.rings h)⟩

theorem foldl {α : Type} (l : List α) (f : State → α → State) (h : ∀ t a,
  HostKept t (f t a)) (s : State) : HostKept s (l.foldl f s) := by
  induction l generalizing s with
  | nil => exact refl s
  | cons a l ih => exact (h s a).trans (ih _)

theorem setRingX (s : State) (p : Nat) (x : RingX) (hx : x.barrier = (s.ringX p).barrier ∨ x.barrier = none) : HostKept s (s.setRingX p x) :=
  ⟨rfl, rfl, fun hn => NoBarrier.setRingX hn p (hx.elim (fun h => h.trans (NoBarrier.ringX hn p)) id)⟩

theorem mapBarriers (s : State) (f : List (Nat × Nat) → List (Nat × Nat)) : HostKept s (s.mapBarriers f) :=
  ⟨rfl, rfl, fun hn => NoBarrier.mapBarriers hn f⟩

theorem wroteEntry (s : State) (p : Nat) (irq : Bool) : HostKept s (s.wroteEntry p irq) := setRingX s p _ (.inl rfl)

theorem cutRing (s : State) (p : Nat) : HostKept s (s.cutRing p) :=
  (of_host (State.set_host ..)).trans ((setRingX (s.set F.ringStatusState p 0 0) p { gen := (s.ringX p).gen + 1 } (.inr rfl)).trans (mapBarriers ..))

theorem recordFail (s : State) (p : Nat) : HostKept s (s.recordFail p) :=
  have h := (of_host (State.hwSet_host ..)).trans (cutRing (s.hwSet F.ringStatusDmaErr p 0) p)
  ⟨h.fuseArm, h.fuseBlow, h.noBarrier⟩

theorem pushEntry (s : State) (p : Nat) (ws : List Word) : HostKept s (s.pushEntry p ws) := by
  unfold State.pushEntry
  split
  · refine .trans (of_host ?_) (wroteEntry ..)
    exact (State.set_host ..).trans (State.emit_host ..)
  · exact recordFail s p

theorem reportLost (s : State) (p : Nat) : HostKept s (s.reportLost p) := by
  unfold State.reportLost
  dsimp only
  split
  · exact refl s
  · refine .trans (setRingX s p _ ?_) (pushEntry ..)
    exact .inl rfl

theorem pushRecord (s : State) (p : Nat) (ws : List Word) : HostKept s (s.pushRecord p ws) := by
  unfold State.pushRecord
  dsimp only
  refine (reportLost s p).trans ?_
  split
  · exact pushEntry ..
  · refine (of_host (State.count_host ..)).trans (setRingX _ p _ ?_)
    exact .inl rfl

theorem post (s : State) (code src detail : Nat) : HostKept s (s.post code src detail) := by
  unfold State.post
  split
  · exact of_host (State.count_host ..)
  · exact foldl _ _ (fun t p => pushRecord t p _) s

theorem namedRing (s : State) (kind idx p ty : Nat) (self : Bool) : HostKept s (s.namedRing kind idx p ty self).2 := by
  unfold State.namedRing
  split
  · exact refl s
  · split
    · exact refl s
    · refine .trans ?_ (post ..)
      exact ⟨rfl, rfl, id⟩

theorem drained (s : State) (p : Nat) : HostKept s (s.drained p) := by
  unfold State.drained
  split
  · exact of_host (State.set_host ..)
  · exact refl s

theorem writeOwnRecord (s : State) (p : Nat) : HostKept s (s.writeOwnRecord p) := by
  unfold State.writeOwnRecord
  split
  · exact refl s
  · dsimp only
    have hn := namedRing s 1 p (s.get F.ringCfgPair p) 1 (decide (s.get F.ringCfgPair p = p))
    split
    · next t h =>
      rw [h] at hn
      split
      · refine hn.trans ((pushEntry ..).trans (.trans (setRingX _ p _ ?_) (drained ..)))
        exact .inl rfl
      · exact hn
    · next t h =>
      rwa [h] at hn

theorem writeCompletion (s : State) (p : Nat) : HostKept s (s.writeCompletion p) :=
  (foldl _ _ (fun t r => writeOwnRecord t r) s).trans (writeOwnRecord ..)

theorem awaitRecord (s : State) (p ty : Nat) (r : Run) (st : Nat) : HostKept s (s.awaitRecord p ty r st) := by
  unfold State.awaitRecord
  split
  · have h := setRingX s p { (s.ringX p) with recWait := some ⟨bitsOf r.d.w0 0 8, st, bitsOf r.d.w0 32 32, r.d.idx, s.stamp⟩ } (.inl rfl)
    exact ⟨h.fuseArm, h.fuseBlow, h.noBarrier⟩
  · exact refl s

theorem writeBack (s : State) (p : Nat) (d : Desc) (st : Nat) (w1 w2 w3 : Word) : HostKept s (s.writeBack p d st w1 w2 w3) := by
  unfold State.writeBack
  refine .trans (.trans (of_host ?_) (wroteEntry ..)) (mapBarriers ..)
  exact (State.set_host ..).trans (State.emit_host ..)

theorem flushRuns (p : Nat) (l : List Run) (s : State) : HostKept s (s.flushRuns p l) := by
  induction l generalizing s with
  | nil => exact setRingX s p _ (.inl rfl)
  | cons r rs ih =>
    rcases hr : r.done with _ | ⟨st, w1, w2, w3⟩
    · rw [State.flushRuns_wait _ _ _ _ hr]
      exact setRingX s p _ (.inl rfl)
    · rw [State.flushRuns_done _ _ _ _ _ _ _ _ hr]
      exact ((writeBack s p ..).trans (awaitRecord ..)).trans (ih _)

theorem endRun (s : State) (p i st : Nat) (w1 w2 w3 : Word) : HostKept s (s.endRun p i st w1 w2 w3) := by
  unfold State.endRun
  split
  · exact (flushRuns ..).trans ((writeCompletion ..).trans (drained ..))
  · exact recordFail s p

theorem releaseBarriers (s : State) : HostKept s s.releaseBarriers := by
  unfold State.releaseBarriers
  refine foldl _ _ (fun t e => ?_) s
  refine .trans (setRingX t e.1 _ ?_) (endRun ..)
  exact .inr rfl

theorem complete (s : State) (tok : Token) (st : Nat) (w1 w2 w3 : Word) : HostKept s (s.complete tok st w1 w2 w3) := by
  unfold State.complete
  split
  · exact (endRun ..).trans (releaseBarriers _)
  · exact refl s

theorem completeSame (s : State) (tok : Token) (st : Nat) : HostKept s (s.completeSame tok st) := by
  unfold State.completeSame
  split
  · exact complete ..
  · exact refl s

end HostKept

/-! ### Completions of other descriptors -/

namespace RingKept
variable {q : Nat} {s : State}

/-- A completion leaves a ring that executes nothing as it is. -/
theorem complete_idle (hb : s.busMaster = true) (hr : (s.ringX q).running = []) (tok : Token) (st : Nat) (w1 w2 w3 : Word) :
    RingKept q s (s.complete tok st w1 w2 w3) := by
  unfold State.complete
  split
  · have h := RingKept.endRun s hb tok.ring tok.idx st w1 w2 w3 fun _ => hr
    exact h.trans (.releaseBarriers (h.master.trans hb) ((h.runs hb).trans hr))
  · exact .refl q s

/-- With no ring at a barrier, a completion leaves every other ring as it is. -/
theorem complete_other (hb : s.busMaster = true) (hn : NoBarrier s) {tok : Token} (ht : tok.ring ≠ q) (st : Nat) (w1 w2 w3 : Word) :
    RingKept q s (s.complete tok st w1 w2 w3) := by
  unfold State.complete
  split
  · rw [NoBarrier.releaseBarriers ((HostKept.endRun ..).noBarrier hn)]
    exact .endRun s hb tok.ring tok.idx st w1 w2 w3 fun h => absurd h ht
  · exact .refl q s

end RingKept

/-- RING[q] executes nothing and the function is a bus master: what completions keep of it. -/
structure RingIdle (q : Nat) (s t : State) : Prop where
  kept : RingKept q s t
  master : t.busMaster = true
  idle : (t.ringX q).running = []

namespace RingIdle
variable {q : Nat} {s t u : State}

theorem refl (hb : s.busMaster = true) (hr : (s.ringX q).running = []) : RingIdle q s s := ⟨.refl q s, hb, hr⟩

theorem step (h : RingIdle q s t) (hk : RingKept q t u) : RingIdle q s u :=
  ⟨h.kept.trans hk, hk.master.trans h.master, (hk.runs h.master).trans h.idle⟩

theorem complete (h : RingIdle q s t) (tok : Token) (st : Nat) (w1 w2 w3 : Word) : RingIdle q s (t.complete tok st w1 w2 w3) :=
  h.step (.complete_idle h.master h.idle ..)

theorem completeSame (h : RingIdle q s t) (tok : Token) (st : Nat) : RingIdle q s (t.completeSame tok st) := by
  unfold State.completeSame
  split
  · exact h.complete ..
  · exact h

end RingIdle

end Sys2Proof.Machine
end

