-- ==== Sys2Proof/Proofs/QueueCommands.lean ====
section
/-!
PROOFS. QueueCommands.lean: COMMIT_AT_PEG, ABORT, PAGE_MAP and the pushes of pages (R115, R117, R190, R205, R316); from these O36.
-/
namespace Sys2Proof.Machine
set_option Elab.async false

/-! ### What an abort of a calibration run leaves of a ring -/

theorem RingKept.driveTo (q : Nat) (s : State) (c : Nat) (drv den : Bool) (atDrv atDen : Nat) : RingKept q s (s.driveTo c drv den atDrv atDen) := by
  unfold State.driveTo
  extract_lets x t u
  have ht : RingKept q s t := .of_only (State.setChan_within ..) (by decide) (by decide) rfl rfl
  have hu : RingKept q t u := by
    unfold u
    split
    · exact .refl q t
    · exact .emit ..
  split
  · exact ht.trans hu
  · exact (ht.trans hu).trans (.emit ..)

theorem RingKept.parkLevels (q : Nat) (s : State) (c t : Nat) : RingKept q s (s.parkLevels c t) := by
  unfold State.parkLevels
  extract_lets x st ta tb
  split
  · exact .driveTo ..
  · split
    · exact .driveTo ..
    · split
      · exact .driveTo ..
      · exact .refl q s

theorem RingKept.setStale (q : Nat) (s : State) (b : Nat) (v : Bool) : RingKept q s (s.setStale b v) :=
  .of_only (State.setStale_within s b v) (by decide) (by decide) ((State.setStale_within s b v).out (by decide)) ((State.setStale_within s b v).host (by decide))

theorem RingKept.busyOver (q : Nat) (s : State) (b : Nat) :
    RingKept q s ((s.putMask F.calStatusBusy 0 0 b false).set F.calBayStatProc 0 b 0) :=
  .of_only (State.set_only F.calBayStatProc 0 b 0 (State.putMask_only F.calStatusBusy 0 0 b false
    (.refl (F.calStatusBusy.mask ||| F.calBayStatProc.mask) s) (by decide)) (by decide)) (by decide) (by decide) rfl rfl

theorem RingKept.calOver (q : Nat) (s : State) (b st : Nat) (park : Bool) : RingKept q s (s.calOver b st park) := by
  unfold State.calOver
  split
  · exact .refl q s
  · extract_lets src t1 t2 t3
    have h1 : RingKept q s t1 := .of_only (Only.fields (.refl 0x10000000000000000000000000000000000000000000000000000000000000000000 s) rfl rfl) (by decide) (by decide) rfl rfl
    have h2 : RingKept q t1 t2 := (RingKept.busyOver q t1 b).trans (.setStale ..)
    have h3 : RingKept q t2 t3 := by
      unfold t3
      split
      · exact .foldl _ _ (fun u c => .parkLevels ..) _
      · exact .refl q t2
    exact ((h1.trans h2).trans h3).trans (.of_only (State.modBatch_within ..) (by decide) (by decide) rfl rfl)

theorem RingKept.aborted (q : Nat) (s : State) (b : Nat) : RingKept q s (s.hwSetBit F.calStatusAborted 0 0 b) :=
  have h := State.hwSetBit_only F.calStatusAborted 0 0 b (.refl (F.calStatusAborted.mask ||| evMask) s) (by decide)
  .of_only h (by decide) (by decide) (h.out (by decide)) (h.host (by decide))

theorem RingKept.causeSet (q : Nat) (s : State) (b cause : Nat) : RingKept q s (s.set F.calBayStatCause 0 b cause) :=
  .of_only (State.set_only F.calBayStatCause 0 b cause (.refl F.calBayStatCause.mask s) (by decide)) (by decide) (by decide) rfl rfl

namespace RingIdle
variable {q : Nat} {s t : State}

theorem endBatch (h : RingIdle q s t) (k : CalBatch) : RingIdle q s (t.endBatch k) := by
  unfold State.endBatch
  split
  · refine foldl_keeps (P := RingIdle q s) (fun u tok hu => ?_) _ (h.step (.of_only (Only.fields (.refl 0x10000000000000000000000000000000000000000000000000000000000000000000 t) rfl rfl) (by decide) (by decide) rfl rfl))
    split
    · exact hu.complete ..
    · exact hu
  · exact h

theorem endBatches (h : RingIdle q s t) : RingIdle q s t.endBatches :=
  foldl_keeps (P := RingIdle q s) (fun _ k hu => hu.endBatch k) _ h

theorem calAbort (h : RingIdle q s t) (b cause : Nat) : RingIdle q s (t.calAbort b cause) := by
  unfold State.calAbort
  split
  · exact h
  · next r _ =>
    extract_lets t1 t2
    have h1 : RingIdle q s t1 := (h.step (.calOver ..)).step (.aborted ..)
    have h2 : RingIdle q s t2 := h1.step (.causeSet ..)
    split
    · exact h2.endBatches
    · exact (h2.step (.post ..)).endBatches

theorem calWatch (h : RingIdle q s t) : RingIdle q s t.calWatch :=
  foldl_keeps (P := RingIdle q s) (fun _ e hu => hu.calAbort e.1 3) _ h

end RingIdle

/-- A completion leaves the function a bus master where no ring waits at a barrier. -/
theorem State.completeSame_master {s : State} (hb : s.busMaster = true) (hn : NoBarrier s) (tok : Token) (st : Nat) :
    (s.completeSame tok st).busMaster = true := by
  unfold State.completeSame
  split
  · exact (RingKept.complete_other (q := tok.ring + 1) hb hn (by simp) ..).master.trans hb
  · exact hb

/-! ### COMMIT_AT_PEG (R117, R123) -/

/-- A table commit with its descriptor that is sampled, before it is applied. -/
def State.commitAsked (s : State) (q : Nat) (src : Src) (tok : Option Token) : State :=
  ((s.note ⟨.store q, 4, srcRank src, 1⟩).setSeqX q { (s.seqX q) with commits := (s.seqX q).commits ++ [(s.ticks, tok)] }).set
    F.seqTsCtrlPending q 0 1

theorem State.tableCommit_asked {s : State} {q : Nat} (h : Alone s (.store q)) (src : Src) (tok : Option Token) : s.tableCommit q src tok
    = if CommitsAtOnce s q ∧ (s.seqX q).ending.isNone then (s.commitAsked q src tok).applyCommits q else s.commitAsked q src tok := by
  unfold State.tableCommit
  rw [State.decideEvent_alone h]
  dsimp only
  simp only [State.seqState, State.get_note]
  rfl

theorem State.commitAsked_within (s : State) (q : Nat) (src : Src) (tok : Option Token) :
    Only 0x4004000000000010000000000000000000000000000000000000000000000000 s (s.commitAsked q src tok) :=
  State.set_only _ _ _ _ (((State.note_only _ (Only.refl _ s) (by decide))).step (State.setSeqX_within ..) (by decide)) (by decide)

theorem State.commitAsked_seqX (s : State) (q : Nat) (src : Src) (tok : Option Token) : (s.commitAsked q src tok).seqX q
    = { (s.seqX q) with commits := (s.seqX q).commits ++ [(s.ticks, tok)] } := by
  unfold State.commitAsked
  rw [State.seqX_of_seqs (State.set_seqs ..), State.seqX_setSeqX, if_pos rfl]

/-- The state in which a table commit that is applied at once completes its descriptor. -/
def State.commitApplied (s : State) (q : Nat) (src : Src) (tok : Option Token) : State :=
  (((s.commitAsked q src tok).setSeqX q { ((s.commitAsked q src tok).seqX q) with commits := [] }).applyCommit q).set F.seqTsCtrlPending q 0 0

theorem State.commitApplied_within (s : State) (q : Nat) (src : Src) (tok : Option Token) :
    Only 0x24004000000000030000000000000000000000000000000000000000000001000 s (s.commitApplied q src tok) :=
  State.set_only F.seqTsCtrlPending q 0 0 ((((s.commitAsked_within q src tok).mono (by decide)).step (State.setSeqX_within ..) (by decide)).step
    (State.applyCommit_within ..) (by decide)) (by decide)

theorem State.commitApplied_reads (s : State) (q : Nat) (src : Src) (tok : Option Token) :
    (s.commitApplied q src tok).get F.seqTsDirtyDirty q = 0 ∧ (s.commitApplied q src tok).get F.seqTsCtrlPending q = 0 := by
  refine ⟨?_, State.get_set_self _ _ _ _ _ (by decide)⟩
  simp (disch := decide) [State.commitApplied, State.applyCommit]

theorem State.applyCommits_alone {s : State} {q : Nat} (src : Src) (tok : Token) (hc : (s.seqX q).commits = []) (hp : (s.seqX q).pegs = []) :
    (s.commitAsked q src (some tok)).applyCommits q = (s.commitApplied q src (some tok)).completeSame tok 0 := by
  have hx := s.commitAsked_seqX q src (some tok)
  rw [State.applyCommits_now (by rw [hx]; simp) (by rw [hx]; exact hp)]
  unfold State.commitApplied
  rw [hx, hc]
  rfl

theorem Begins.commitsAtOnce {s t : State} {q : Nat} {d : Desc} {tok : Token} (h : Begins s q d tok t) (k : Nat) :
    CommitsAtOnce t k ↔ CommitsAtOnce s k := by
  have hst : t.seqState k = s.seqState k := h.only.get _ _ _ (by decide)
  have hbf : t.seqBefore k = s.seqBefore k := State.before_of_startOfTick (h.only.startOfTick (by decide)) ..
  unfold CommitsAtOnce
  rw [hst, hbf]

section
variable {s t : State} {q k : Nat} {d : Desc} {tok : Token} (h : s.beginCommand q 0x02 = some (d, tok, t)) (hk : k = bitsOf d.w1 0 2)
  (ha : Alone s (.store k))
include h hk ha

theorem execCmdCommitAtPeg_begins : exec (.cmdCommitAtPeg q) s = .next (if CommitsAtOnce t k ∧ (t.seqX k).ending.isNone
    then (t.commitAsked k (.host q) (some tok)).applyCommits k else t.commitAsked k (.host q) (some tok)).calWatch := by
  obtain ⟨hb, -⟩ := State.beginCommand_begins h
  have hat : Alone t (.store k) := hb.only.alone_of_quiet ha (by decide) (by decide) (by decide) (by decide) (by decide) (by decide)
  have hx := State.command_begins h fun d tok t => (t.tableCommit (bitsOf d.w1 0 2) (.host q) (some tok)).calWatch
  rwa [← hk, State.tableCommit_asked hat] at hx

theorem commitAtPegApplies (hn : NoBarrier s) (hm : s.busMaster = true) (hat : CommitsAtOnce s k) (he : (s.seqX k).ending = none)
    (hc : (s.seqX k).commits = []) (hp : (s.seqX k).pegs = []) : Completes (.cmdCommitAtPeg q) s fun r =>
      WrittenBack s r q d 0 d.w1 d.w2 d.w3 ∧ r.get F.seqTsDirtyDirty k = 0 ∧ r.get F.seqTsCtrlPending k = 0 := by
  have hx := execCmdCommitAtPeg_begins h hk ha
  obtain ⟨hb, -, -, hr, -, -⟩ := State.beginCommand_begins h
  have hseq : t.seqX k = s.seqX k := State.seqX_of_seqs (hb.only.seqs (by decide)) k
  rw [if_pos ⟨(hb.commitsAtOnce k).2 hat, by rw [hseq, he]; rfl⟩, State.applyCommits_alone _ _ (by rw [hseq, hc]) (by rw [hseq,
    hp])] at hx
  have ho := t.commitApplied_within k (.host q) (some tok)
  have hread := t.commitApplied_reads k (.host q) (some tok)
  generalize t.commitApplied k (.host q) (some tok) = u at hx ho hread
  have hku : RingKept q t u := .of_only ho (by decide) (by decide) (ho.out (by decide)) (ho.host (by decide))
  have hw := hb.completeSame_kept hr hm hku ho (by decide) (by decide) 0
  have hmu : (u.completeSame tok 0).busMaster = true :=
    State.completeSame_master (hku.master.trans (hb.master.trans hm)) ((HostKept.of_host (ho.host (by decide))).noBarrier (hb.noBarrier hn)) ..
  refine .intro hx ⟨WrittenBack.kept hw hmu ((RingIdle.refl hmu hw.2.1).calWatch).kept, ?_, ?_⟩
  · rw [(State.calWatch_within _).get _ _ _ (by decide), (State.completeSame_within ..).get _ _ _ (by decide)]
    exact hread.1
  · rw [(State.calWatch_within _).get _ _ _ (by decide), (State.completeSame_within ..).get _ _ _ (by decide)]
    exact hread.2

theorem commitAtPegWaits (hat : ¬CommitsAtOnce s k) : Completes (.cmdCommitAtPeg q) s fun r => r.get F.seqTsCtrlPending k = 1
    ∧ (r.seqX k).commits = (s.seqX k).commits ++ [(s.ticks, some tok)] := by
  have hx := execCmdCommitAtPeg_begins h hk ha
  obtain ⟨hb, -, -, hr, -, -⟩ := State.beginCommand_begins h
  rw [if_neg fun hc => hat ((hb.commitsAtOnce k).1 hc.1)] at hx
  refine .intro hx ⟨?_, ?_⟩
  · rw [(State.calWatch_within _).get _ _ _ (by decide)]
    exact State.get_set_self _ _ _ _ _ (by decide)
  · rw [State.seqX_of_seqs ((State.calWatch_within _).seqs (by decide)), State.commitAsked_seqX,
      State.seqX_of_seqs (hb.only.seqs (by decide)), hb.only.ticks (by decide)]

end

/-! ### ABORT (R115, R316) -/

theorem State.runDesc_begins {s t : State} {q : Nat} {d : Desc} {tok : Token} (hb : Begins s q d tok t) (hr : (s.ringX q).running = [])
    {u : State} (hu : RingKept q t u) (hm : s.busMaster = true) : u.runDesc tok = some d := by
  have hbt := hb.master.trans hm
  rw [hb.token]
  exact State.runDesc_running ((hu.runs hbt).trans (hb.running hr)) ((hu.gen hbt).trans hb.gen)

/-- What an ABORT command does with the sequencers that it names. -/
def State.abortEach (s : State) (q : Nat) (tok : Token) (l : List Nat) : State :=
  l.foldl (fun v k => v.requestStop k 4 (.host q) (some tok))
    { s with host := { s.host with parts := s.host.parts ++ [(tok, l.map fun k => (k, none))] } }

theorem RingKept.setParts (q : Nat) (s : State) (l : List (Token × List (Nat × Option Nat))) :
    RingKept q s { s with host := { s.host with parts := l } } :=
  ⟨State.get_of_regs rfl .., State.get_of_regs rfl .., State.get_of_regs rfl .., fun _ h => h, rfl, fun _ => rfl, fun _ => rfl⟩

/-- The one sequencer of an ABORT has its outcome: the command completes. -/
theorem State.partDone_one {s : State} {tok : Token} {k st : Nat} {l : List (Token × List (Nat × Option Nat))} {d : Desc}
    (hp : s.host.parts = l ++ [(tok, [(k, none)])]) (hl : ∀ p ∈ l, p.1 ≠ tok) (hd : s.runDesc tok = some d) :
    s.partDone tok k st = ({ s with host := { s.host with parts := s.host.parts.filter fun p => decide (p.1 ≠ tok) } }).complete tok
      (abortStatus [(k, some st)]) d.w1 (BitVec.ofNat 64 (abortWord [(k, some st)])) d.w3 := by
  have hfind : s.host.parts.find? (fun p => decide (p.1 = tok)) = some (tok, [(k, none)]) := by
    rw [hp, List.find?_append, List.find?_eq_none.2 fun p hm => by simpa using hl p hm]
    simp
  have hd' : State.runDesc { s with host := { s.host with parts := s.host.parts.filter fun p => decide (p.1 ≠ tok) } } tok = some d := hd
  unfold State.partDone
  rw [hfind]
  dsimp only
  rw [List.map_cons, List.map_nil, if_pos rfl, if_pos (c := ([(k, some st)].all fun e => e.2.isSome) = true) rfl, hd']

section
variable {s t : State} {q : Nat} {d : Desc} {tok : Token} (h : s.beginCommand q 0x06 = some (d, tok, t))
include h

theorem execCmdAbort_none (hm : s.busMaster = true) (hz : bitsOf d.w1 0 4 = 0) :
    Completes (.cmdAbort q) s fun r => WrittenBack s r q d 0 d.w1 0 d.w3 := by
  obtain ⟨hb, -, -, hr, -, -⟩ := State.beginCommand_begins h
  have hx := State.command_begins h fun d tok t =>
    if bitsBelow 4 (bitsOf d.w1 0 4) = [] then t.complete tok 0 d.w1 0 d.w3 else t.abortEach q tok (bitsBelow 4 (bitsOf d.w1 0 4))
  rw [hz, if_pos (by decide)] at hx
  exact .intro hx (hb.complete hr hm ..)

theorem execCmdAbort_one {k : Nat} (hk : k < 4) (hm : bitsOf d.w1 0 4 = 2 ^ k) :
    exec (.cmdAbort q) s = .next (t.abortEach q tok [k]) := by
  have hx := State.command_begins h fun d tok t =>
    if bitsBelow 4 (bitsOf d.w1 0 4) = [] then t.complete tok 0 d.w1 0 d.w3 else t.abortEach q tok (bitsBelow 4 (bitsOf d.w1 0 4))
  have hl : bitsBelow 4 (2 ^ k) = [k] := by
    interval_cases k <;> decide
  rw [hm, hl, if_neg (List.cons_ne_nil _ _)] at hx
  exact hx

end

/-- The state in which an ABORT of one sequencer finds that sequencer. -/
def State.abortAsked (s : State) (k : Nat) (tok : Token) : State :=
  { s with host := { s.host with parts := s.host.parts ++ [(tok, [(k, none)])] } }

theorem State.abortAsked_only (s : State) (k : Nat) (tok : Token) : Only (2 ^ 251) s (s.abortAsked k tok) := Only.fields (.refl _ s) rfl rfl

theorem State.requestStop_stopped {s : State} {q : Nat} (h : Alone s (.seq q)) (h0 : s.seqState q = 0) (he : (s.seqX q).ending = none)
    (src : Src) (tok : Option Token) : ∃ e, s.requestStop q 4 src tok = (s.note e).partDone? tok q 0 := by
  refine ⟨⟨.seq q, 2, srcRank src, 1⟩, ?_⟩
  have hn (e : TickEvent) : (s.note e).seqState q = s.seqState q := s.note_get ..
  have hx (e : TickEvent) : (s.note e).seqX q = s.seqX q := State.seqX_of_seqs (State.note_seqs ..) q
  simp only [State.requestStop, State.decideEvent_alone h, hn, hx, h0, he]
  rfl

section
variable {s t : State} {q k : Nat} {d : Desc} {tok : Token} (h : s.beginCommand q 0x06 = some (d, tok, t)) (hk : k < 4)
  (hm : bitsOf d.w1 0 4 = 2 ^ k) (ha : Alone s (.seq k)) (he : (s.seqX k).ending = none)
include h hk hm ha he

theorem cmdAbortStopped (hb : s.busMaster = true) (hp : ∀ p ∈ s.host.parts, p.1 ≠ tok) (hst : s.seqState k = 0) :
    Completes (.cmdAbort q) s fun r => WrittenBack s r q d 0 d.w1 0 d.w3 := by
  obtain ⟨hbg, -, -, hr, -, -⟩ := State.beginCommand_begins h
  have hx := execCmdAbort_one h hk hm
  have hparts : t.host.parts = s.host.parts := by
    obtain ⟨-, ds, -, rfl⟩ := hbg
    rfl
  have hk1 := RingKept.setParts q t (t.host.parts ++ [(tok, [(k, none)])])
  have ho1 := t.abortAsked_only k tok
  have hp1 : (t.abortAsked k tok).host.parts = s.host.parts ++ [(tok, [(k, none)])] := congrArg (· ++ _) hparts
  unfold State.abortEach at hx
  rw [List.foldl_cons, List.foldl_nil, List.map_cons, List.map_nil] at hx
  change exec (.cmdAbort q) s = .next ((t.abortAsked k tok).requestStop k 4 (.host q) (some tok)) at hx
  change RingKept q t (t.abortAsked k tok) at hk1
  generalize t.abortAsked k tok = u1 at hx hk1 ho1 hp1
  have hsu : Only (2 ^ 251) s u1 := hbg.only.step ho1 (by decide)
  obtain ⟨e, he1⟩ := State.requestStop_stopped (hsu.alone_of_quiet ha (by decide) (by decide) (by decide) (by decide) (by decide) (by decide))
    ((hsu.get F.seqStatusState _ _ (by decide)).trans hst) (by rw [State.seqX_of_seqs (hsu.seqs (by decide)), he]) (.host q) (some tok)
  rw [he1] at hx
  have hku : RingKept q t (u1.note e) :=
    hk1.trans (.of_only (State.note_only e (.refl (2 ^ 242) u1) (by decide)) (by decide) (by decide) (State.note_out ..) (State.note_host ..))
  have hou : Only (2 ^ 242 ||| 2 ^ 251) t (u1.note e) := State.note_only e (ho1.mono (by decide)) (by decide)
  have hpu : (u1.note e).host.parts = _ := (congrArg HostX.parts (State.note_host ..)).trans hp1
  generalize u1.note e = u at hx hku hou hpu
  rw [show u.partDone? (some tok) k 0 = u.partDone tok k 0 from rfl,
    State.partDone_one hpu hp (State.runDesc_begins hbg hr hku hb)] at hx
  have hkv := RingKept.setParts q u (u.host.parts.filter fun p => decide (p.1 ≠ tok))
  have hov : Only (2 ^ 242 ||| 2 ^ 251) t { u with host := { u.host with parts := u.host.parts.filter fun p => decide (p.1 ≠ tok) } } :=
    Only.fields hou rfl rfl
  generalize ({ u with host := { u.host with parts := u.host.parts.filter fun p => decide (p.1 ≠ tok) } } : State) = v at hx hkv hov
  have hword : abortWord [(k, some 0)] = 0 := by
    unfold abortWord
    simp
  have hstat : abortStatus [(k, some 0)] = 0 := rfl
  rw [hword, hstat] at hx
  exact .intro hx (hbg.complete_kept hr hb (hku.trans hkv) hov (by decide) (by decide) ..)

omit he in
theorem cmdAbortRunning (hst : s.seqState k = 1) : Completes (.cmdAbort q) s fun r => r.seqState k = 1
    ∧ (r.seqX k).pend = (s.seqX k).pend ++ [⟨4, s.ticks, some tok⟩] ∧ r.host.parts = s.host.parts ++ [(tok, [(k, none)])] := by
  obtain ⟨hbg, -, -, hr, -, -⟩ := State.beginCommand_begins h
  have hx := execCmdAbort_one h hk hm
  have hparts : t.host.parts = s.host.parts := by
    obtain ⟨-, ds, -, rfl⟩ := hbg
    rfl
  have ho1 := t.abortAsked_only k tok
  have hp1 : (t.abortAsked k tok).host.parts = s.host.parts ++ [(tok, [(k, none)])] := congrArg (· ++ _) hparts
  unfold State.abortEach at hx
  rw [List.foldl_cons, List.foldl_nil, List.map_cons, List.map_nil] at hx
  change exec (.cmdAbort q) s = .next ((t.abortAsked k tok).requestStop k 4 (.host q) (some tok)) at hx
  generalize t.abortAsked k tok = u at hx ho1 hp1
  have hsu : Only (2 ^ 251) s u := hbg.only.step ho1 (by decide)
  have hsq : u.seqX k = s.seqX k := State.seqX_of_seqs (hsu.seqs (by decide)) k
  have hsu1 : u.seqState k = 1 := (hsu.get F.seqStatusState _ _ (by decide)).trans hst
  obtain ⟨x, hx1, e, he1⟩ := State.requestStop_waits (hsu.alone_of_quiet ha (by decide) (by decide) (by decide) (by decide) (by decide) (by decide))
    (.inl hsu1) 4 (.host q) (some tok)
  rw [he1] at hx
  refine .intro hx ⟨?_, ?_, ?_⟩
  · exact ((State.setSeqX_within ..).get F.seqStatusState _ _ (by decide)).trans ((State.note_get ..).trans hsu1)
  · rw [State.seqX_setSeqX, if_pos rfl, hx1, hsq, hsu.ticks (by decide)]
  · rw [(State.setSeqX_within ..).host (by decide), State.note_host, hp1]

end

theorem sequencerCommands : SequencerCommands := by
  intro q k d tok s t hn hm
  refine ⟨fun h hk ha => ⟨fun hat he hc hp => commitAtPegApplies h hk ha hn hm hat he hc hp, fun hat => commitAtPegWaits h hk ha hat⟩,
    fun h => ⟨fun hz => execCmdAbort_none h hm hz, fun hk hmask ha he hp => ⟨fun hst => cmdAbortStopped h hk hmask ha he hm hp hst,
      fun hst => cmdAbortRunning h hk hmask ha hst⟩⟩⟩

/-! ### PAGE_MAP (R190) -/

section
variable {q : Nat} {s : State}

/-- Pushes on other rings that are dropped. -/
theorem RingKept.completePushes (g : Nat) {l : List (Nat × Token × Bool)} (hl : ∀ p ∈ l,
  p.2.1.ring ≠ q) {s : State} (hb : s.busMaster = true)
    (hn : NoBarrier s) : RingKept q s (l.foldl (fun t p => t.completePush p.2.1 g 8) s) := by
  induction l generalizing s with
  | nil => exact .refl q s
  | cons p l ih =>
    obtain ⟨hp, hl⟩ := List.forall_mem_cons.1 hl
    rw [List.foldl_cons]
    have hstep : RingKept q s (s.completePush p.2.1 g 8) ∧ HostKept s (s.completePush p.2.1 g 8) := by
      unfold State.completePush
      split
      · exact ⟨.complete_other hb hn hp .., .complete ..⟩
      · exact ⟨.refl q s, .refl s⟩
    exact hstep.1.trans (ih hl (hstep.1.master.trans hb) (hstep.2.noBarrier hn))

theorem RingKept.selfRequest (s : State) (g : Nat) : RingKept q s (s.selfRequest g) :=
  have h := s.selfRequest_within g
  .of_only h (by decide) (by decide) (h.out (by decide)) (h.host (by decide))

theorem RingKept.flagsWrite (s : State) (g w0 : Nat) : RingKept q s (s.flagsWrite g w0) :=
  have h := s.flagsWrite_within g w0
  .of_only h (by decide) (by decide) (h.out (by decide)) (h.host (by decide))

theorem RingKept.winCmdSet (s : State) (v : Nat) : RingKept q s (s.set F.pgtWinCmdFlagsOnly 0 0 v) :=
  .of_only (State.set_only F.pgtWinCmdFlagsOnly 0 0 v (.refl F.pgtWinCmdFlagsOnly.mask s) (by decide)) (by decide) (by decide) (State.set_out ..) (State.set_host ..)

theorem RingKept.winCmdRefused (s : State) : RingKept q s (s.hwSet F.pgtWinCmdRefused 0 0) :=
  have h := State.hwSet_only F.pgtWinCmdRefused 0 0 (.refl (F.pgtWinCmdRefused.mask ||| evMask) s) (by decide)
  .of_only h (by decide) (by decide) (h.out (by decide)) (h.host (by decide))

variable (hb : s.busMaster = true) (hn : NoBarrier s) (hp : ∀ p ∈ s.page.pushes, p.2.1.ring ≠ q)
include hb hn hp

theorem RingKept.dropPushes (g : Nat) : RingKept q s (s.dropPushes g) := by
  unfold State.dropPushes
  dsimp only
  have hk : RingKept q s { s with page := { s.page with pushes := s.page.pushes.filter fun p => !(decide (p.1 = g) && !p.2.2) } } :=
    .of_only (Only.fields (.refl 0x800000000000000000000000000000000000000000000000000000000000000000 s) rfl rfl) (by decide) (by decide) rfl rfl
  exact hk.trans (.completePushes g (fun p hm => hp p (List.mem_filter.1 hm).1) hb hn)

theorem RingKept.fullWrite (g w0 w1 : Nat) : RingKept q s (s.fullWrite g w0 w1).2 := by
  unfold State.fullWrite
  extract_lets e n t src u
  split
  · exact .refl q s
  · have ht : Only 0x804000000000000000000000000000000000000000000000000000000000000000 s t := ((State.dropLines_within s g).mono (by decide)).step (State.setEntry_within ..) (by decide)
    have hu : Only 0x804000000000000000000000000000000000000000000000000000000000000000 s u := Only.fields ht rfl rfl
    have hpu : u.page.pushes = s.page.pushes := (congrArg PageX.pushes ((State.dropLines_within s g).page (by decide)) :)
    have hk : RingKept q s u := .of_only hu (by decide) (by decide) (hu.out (by decide)) (hu.host (by decide))
    clear_value u
    dsimp only
    exact hk.trans ((RingKept.dropPushes (hk.master.trans hb) ((HostKept.of_host (hu.host (by decide))).noBarrier hn) (hpu ▸ hp) g).trans (.selfRequest ..))

theorem RingKept.writeEntry (g w0 w1 : Nat) : RingKept q s (s.writeEntry g w0 w1).2 := by
  unfold State.writeEntry
  dsimp only
  split
  · exact .refl q s
  · split
    · exact .flagsWrite ..
    · exact .fullWrite hb hn hp ..

theorem RingKept.windowWrite (g w0 w1 : Nat) : RingKept q s (s.windowWrite g w0 w1).2 := by
  have h := RingKept.writeEntry hb hn hp g w0 w1
  unfold State.windowWrite
  split
  · next t he => exact (he ▸ h).trans (.winCmdSet ..)
  · next t he => exact (he ▸ h).trans (.winCmdSet ..)
  · next t he => exact (he ▸ h).trans (.winCmdRefused ..)

end

theorem State.fullWrite_refused {s t : State} {g w0 w1 : Nat} (h : s.fullWrite g w0 w1 = (.refused, t)) : t = s := by
  unfold State.fullWrite at h
  dsimp only at h
  split at h
  · exact (Prod.mk.inj h).2.symm
  · exact PgWrite.noConfusion (Prod.mk.inj h).1

theorem State.writeEntry_refused {s t : State} {g w0 w1 : Nat} (h : s.writeEntry g w0 w1 = (.refused, t)) : t = s := by
  unfold State.writeEntry at h
  dsimp only at h
  split at h
  · exact (Prod.mk.inj h).2.symm
  · split at h
    · exact PgWrite.noConfusion (Prod.mk.inj h).1
    · exact State.fullWrite_refused h

/-- What WIN_CMD shows of a window write, and what the write answers. -/
theorem State.windowWrite_reads (s : State) (g w0 w1 : Nat) : (s.windowWrite g w0 w1).1 = (s.writeEntry g w0 w1).1
    ∧ ((s.writeEntry g w0 w1).1 = .flagsOnly → (s.windowWrite g w0 w1).2.get F.pgtWinCmdFlagsOnly = 1)
    ∧ ((s.writeEntry g w0 w1).1 = .full → (s.windowWrite g w0 w1).2.get F.pgtWinCmdFlagsOnly = 0)
    ∧ ((s.writeEntry g w0 w1).1 = .refused → Unclear s F.pgtWinCmdRefused 0 0 → (s.windowWrite g w0 w1).2.get F.pgtWinCmdRefused = 1) := by
  rcases hw : s.writeEntry g w0 w1 with ⟨r, t⟩
  cases r with
  | flagsOnly =>
    rw [State.windowWrite_flags hw]
    exact ⟨rfl, fun _ => State.get_set_self _ _ _ _ _ (by decide), fun h => PgWrite.noConfusion h, fun h => PgWrite.noConfusion h⟩
  | full =>
    rw [State.windowWrite_full hw]
    exact ⟨rfl, fun h => PgWrite.noConfusion h, fun _ => State.get_set_self _ _ _ _ _ (by decide), fun h => PgWrite.noConfusion h⟩
  | refused =>
    rw [State.windowWrite_refused hw, State.writeEntry_refused hw]
    exact ⟨rfl, fun h => PgWrite.noConfusion h, fun h => PgWrite.noConfusion h,
      fun _ hu => State.get_hwSet _ _ _ _ hu (by decide) (by decide)⟩

/-- The words of an entry follow from the page table and the sequencers. -/
theorem Only.entryWords {N : Nat} {s t : State} (h : Only N s t) (hp : N.testBit 263 = false) (hq : N.testBit 254 = false)
    (hs : N.testBit RegName.seqStatus.ctorIdx = false) (hc : N.testBit RegName.seqPosition.ctorIdx = false) (g : Nat) :
    t.entryWords g = s.entryWords g := by
  have hx (k : Nat) : t.seqX k = s.seqX k := State.seqX_of_seqs (h.seqs hq) k
  have hst (k : Nat) : t.seqState k = s.seqState k := h.get _ _ _ hs
  have hcur (k : Nat) : t.currentPage k = s.currentPage k := by
    unfold State.currentPage
    rw [hx, h.get _ _ _ hc]
  have hheld : t.held g = s.held g := by
    unfold State.held State.inUse State.inTierB
    simp only [hx, hst, hcur]
  unfold State.entryWords
  rw [State.entry_of_page (h.page hp), hheld]

theorem cmdPageMapWrites {s t : State} {q g : Nat} {d : Desc} {tok : Token} (h : s.beginCommand q 0x03 = some (d, tok,
  t)) (hn : NoBarrier s)
    (hm : s.busMaster = true) (hg : g = bitsOf d.w1 0 15) (hp : ∀ p ∈ s.page.pushes, p.2.1.ring ≠ q) :
    Completes (.cmdPageMap q) s fun r => WrittenBack s r q d
        (if (t.writeEntry g d.w2.toNat d.w3.toNat).1 = .refused then 8 else 0) d.w1
        (BitVec.ofNat 64 (r.entryWords g).1) (BitVec.ofNat 64 (r.entryWords g).2)
        ∧ ((t.writeEntry g d.w2.toNat d.w3.toNat).1 = .flagsOnly → r.get F.pgtWinCmdFlagsOnly = 1)
        ∧ ((t.writeEntry g d.w2.toNat d.w3.toNat).1 = .full → r.get F.pgtWinCmdFlagsOnly = 0)
        ∧ ((t.writeEntry g d.w2.toNat d.w3.toNat).1 = .refused → Unclear s F.pgtWinCmdRefused 0 0 →
            r.get F.pgtWinCmdRefused = 1) := by
  obtain ⟨hbg, -, -, hr, -, -⟩ := State.beginCommand_begins h
  have hx := State.command_begins h fun d tok t =>
    match t.windowWrite (bitsOf d.w1 0 15) d.w2.toNat d.w3.toNat with
    | (r, u) =>
      let w := u.entryWords (bitsOf d.w1 0 15)
      u.complete tok (if r = .refused then 8 else 0) d.w1 (BitVec.ofNat 64 w.1) (BitVec.ofNat 64 w.2)
  have hpt : t.page.pushes = s.page.pushes := congrArg PageX.pushes (hbg.only.page (by decide))
  have hk := RingKept.windowWrite (hbg.master.trans hm) (hbg.noBarrier hn) (hpt ▸ hp) g d.w2.toNat d.w3.toNat
  have ho := t.windowWrite_within g d.w2.toNat d.w3.toNat
  have hun (hu : Unclear s F.pgtWinCmdRefused 0 0) : Unclear t F.pgtWinCmdRefused 0 0 :=
    hbg.only.unclear hu (by decide) (by decide) (by decide) (by decide) (State.decider_congr (hbg.only.events (by decide)) _)
  obtain ⟨h1, h2, h3, h4⟩ := t.windowWrite_reads g d.w2.toNat d.w3.toNat
  dsimp only at hx
  rw [← hg] at hx
  rw [← h1] at h2 h3 h4 ⊢
  generalize t.windowWrite g d.w2.toNat d.w3.toNat = p at hx hk ho h2 h3 h4 ⊢
  obtain ⟨r, u⟩ := p
  dsimp only at hx hk ho h2 h3 h4 ⊢
  have hc (st : Nat) (w1 w2 w3 : Word) := State.complete_within u tok st w1 w2 w3
  refine .intro hx ⟨?_, ?_, ?_, ?_⟩
  · rw [(hc ..).entryWords (by decide) (by decide) (by decide) (by decide)]
    exact hbg.complete_kept hr hm hk ho (by decide) (by decide) ..
  · exact fun he => ((hc ..).get _ _ _ (by decide)).trans (h2 he)
  · exact fun he => ((hc ..).get _ _ _ (by decide)).trans (h3 he)
  · exact fun he hu => ((hc ..).get _ _ _ (by decide)).trans (h4 he (hun hu))

/-! ### Pushes of pages (R205) -/

theorem State.request_asks {s : State} {r : PgReq} (h : r.valid (s.entry r.page) = true) : ∃ x ∈ (s.request r).page.reqs,
  x.page = r.page := by
  unfold State.request
  rw [if_neg (by rw [h]; exact Bool.noConfusion)]
  extract_lets l is l'
  dsimp only
  unfold l'
  split
  · next hany =>
    obtain ⟨x, hx, hi⟩ := List.any_eq_true.1 hany
    refine ⟨_, List.mem_map.2 ⟨x, hx, rfl⟩, ?_⟩
    have hp := (of_decide_eq_true hi).1
    split
    · exact hp
    · exact hp
  · exact ⟨r, List.mem_append_right _ (List.mem_singleton.2 rfl), rfl⟩

theorem State.request_pushes (s : State) (r : PgReq) : (s.request r).page.pushes = s.page.pushes := by
  unfold State.request
  split <;> rfl

section
variable {s : State} {g : Nat} (tok : Token) (w0 w1 : Nat)

theorem State.pushPage_loading (h : (s.entry g).state = 2) : s.pushPage tok g w0 w1 = s.completePush tok g 8 := by
  unfold State.pushPage
  rw [if_neg (by simp [PgEntry.resident, h]), State.fullWrite_loading h]

theorem State.pushPage_maps (hb : s.bit F.pgtStatusRebuildBusy = false) (h2 : (s.entry g).state ≠ 2) (hr : (s.entry g).resident = false) :
    ((s.pushPage tok g w0 w1).entry g).state = 1 ∧ ((s.pushPage tok g w0 w1).entry g).host = w1 / 2 ^ 12 % 2 ^ 52
      ∧ ((s.pushPage tok g w0 w1).entry g).crc = w0 / 2 ^ 32 % 2 ^ 32 ∧ (g, tok, false) ∈ (s.pushPage tok g w0 w1).page.pushes
      ∧ ∃ x ∈ (s.pushPage tok g w0 w1).page.reqs, x.page = g := by
  obtain ⟨hfull, hent⟩ := State.fullWrite_maps hb h2 (.inl hr) (w0 / 8 * 8 + 1) w1
  have hpush : s.pushPage tok g w0 w1 = (({ (s.fullWrite g (w0 / 8 * 8 + 1) w1).2 with page := { (s.fullWrite g (w0 / 8 * 8 + 1) w1).2.page with
      pushes := (s.fullWrite g (w0 / 8 * 8 + 1) w1).2.page.pushes ++ [(g, tok,
        false)] } }) : State).request { page := g, level := 4, want := .push } := by
    unfold State.pushPage
    rw [if_neg (by simp [hr])]
    rcases hf : s.fullWrite g (w0 / 8 * 8 + 1) w1 with ⟨r, t⟩
    rw [hf] at hfull
    dsimp only at hfull
    rw [hfull]
  rw [hpush]
  have he := (hent g).trans (if_pos rfl)
  generalize (s.fullWrite g (w0 / 8 * 8 + 1) w1).2 = t at he ⊢
  have het : State.entry { t with page := { t.page with pushes := t.page.pushes ++ [(g, tok, false)] } } g = t.entry g := rfl
  generalize hu : ({ t with page := { t.page with pushes := t.page.pushes ++ [(g, tok, false)] } } : State) = u at het ⊢
  rw [State.entry_of_table (State.request_table ..), het, he, State.request_pushes]
  refine ⟨if_neg (by omega), rfl, ?_, ?_, State.request_asks ?_⟩
  · show (w0 / 8 * 8 + 1) / 2 ^ 32 % 2 ^ 32 = w0 / 2 ^ 32 % 2 ^ 32
    omega
  · rw [← hu]
    exact List.mem_append_right _ (List.mem_singleton.2 rfl)
  · have hst : (PgEntry.mapped (w0 / 8 * 8 + 1) w1).state = 1 := if_neg (by omega)
    rw [het, he]
    unfold PgReq.valid
    rw [hst]
    rfl

end

/-- A descriptor that pushes a page, on a COMMAND ring or on a STREAM ring. -/
theorem pushBegins {s t : State} {q : Nat} {d : Desc} {tok : Token} {c : Instr} (h : (c = Instr.cmdStreamPage q ∧ s.beginCommand q 0x04 = some (d, tok, t))
    ∨ (c = Instr.streamDescriptor q ∧ s.begin q 6 = some (d, tok, t))) :
    Begins s q d tok t ∧ exec c s = .next (t.pushPage tok (bitsOf d.w1 0 15) d.w2.toNat d.w3.toNat) := by
  rcases h with ⟨rfl, h⟩ | ⟨rfl, h⟩
  · exact ⟨(State.beginCommand_begins h).1,
    State.command_begins h fun d tok t => t.pushPage tok (bitsOf d.w1 0 15) d.w2.toNat d.w3.toNat⟩
  · refine ⟨(State.begins h).1, ?_⟩
    show s.descriptor q 6 (fun d tok t => t.pushPage tok (bitsOf d.w1 0 15) d.w2.toNat d.w3.toNat) = _
    unfold State.descriptor
    rw [h]

theorem pageCommands : PageCommands := by
  intro q g d tok s t hn hm hg hr
  refine ⟨fun h hp => cmdPageMapWrites h hn hm hg hp, fun c hc => ?_⟩
  obtain ⟨hb, hx⟩ := pushBegins hc
  rw [← hg] at hx
  have hent : t.entry g = s.entry g := State.entry_of_page (hb.only.page (by decide)) g
  refine ⟨fun hbusy h2 hres => .intro hx ?_, fun h2 => .intro hx ?_⟩
  · exact State.pushPage_maps _ _ _ ((hb.only.bit _ _ _ (by decide)).trans hbusy) (hent ▸ h2) (hent ▸ hres)
  · rw [State.pushPage_loading _ _ _ (hent ▸ h2)]
    refine ⟨(State.completePush_page ..).trans (hb.only.page (by decide)), ?_⟩
    unfold State.completePush
    rw [State.runDesc_begins hb hr (.refl q t) hm, hb.only.entryWords (by decide) (by decide) (by decide) (by decide)]
    exact hb.complete hr hm ..

/-- Settles O36: each command acts on the state in which it begins; what it completes on other rings leaves its own ring. -/
theorem sequencerAndPageCommands : Obligations.SequencerAndPageCommands := ⟨sequencerCommands, pageCommands⟩

end Sys2Proof.Machine
end

