-- ==== Sys2Proof/Proofs/RaiseAndCounters.lean ====
section
/-!
PROOFS. RaiseAndCounters.lean: RAISE, SITE_SET and COUNTERS_READ (R163, R220, R260, R261, R318), FUSE_LOCK (R319), mail and the
descriptors of the time port (R322, R355); from these O37 and O38.
-/
namespace Sys2Proof.Machine
set_option Elab.async false

theorem Completes.mono {c : Instr} {s : State} {P Q : State → Prop} (h : Completes c s P) (hpq : ∀ t,
  P t → Q t) : Completes c s Q := by
  obtain ⟨t, ht, hp⟩ := h
  exact ⟨t, ht, hpq t hp⟩

/-! ### RAISE (R260, R261) -/

/-- A command that completes after a step that touches no ring. -/
theorem Begins.complete_only {N : Nat} {s t u : State} {q : Nat} {d : Desc} {tok : Token} (h : Begins s q d tok t) (hr : (s.ringX q).running = [])
    (hb : s.busMaster = true) (ho : Only N t u) (hB : N.testBit RegName.ringBase.ctorIdx = false) (hC : N.testBit RegName.ringCfg.ctorIdx = false)
    (hI : N.testBit RegName.ringIndex.ctorIdx = false) (hS : N.testBit RegName.ringStatus.ctorIdx = false) (hO : N.testBit 246 = false)
    (hH : N.testBit 251 = false) (st : Nat) (w1 w2 w3 : Word) : WrittenBack s (u.complete tok st w1 w2 w3) q d st w1 w2 w3 :=
  h.complete_kept hr hb (.of_only ho hI hS (ho.out hO) (ho.host hH)) ho hB hC st w1 w2 w3

theorem State.updatePending_get (s : State) (f : Fld) (i j : Nat) (h : f.reg ≠ .timeStatus) : s.updatePending.get f i j = s.get f i j :=
  State.get_setBit_ne _ _ _ _ _ _ _ _ (by decide) (.inl (Ne.symm h))

/-- What an entry of the raise table holds once a raising is scheduled in it. -/
theorem State.putRaise_reads (s : State) (r : RaiseOp) (hsec : r.sec < 2 ^ 48) (htag : r.tag < 2 ^ 16) (hns : r.ns < 2 ^ 30) (hmask : r.mask < 2 ^ 4)
    (horg : r.origin < 2 ^ F.timeRaiseNsOrigin.width) :
    (s.putRaise r).get F.timeRaiseNsScheduled 0 r.entry = 1 ∧ (s.putRaise r).get F.timeRaiseSecTag 0 r.entry = r.tag
      ∧ (s.putRaise r).get F.timeRaiseSecSeconds 0 r.entry = r.sec ∧ (s.putRaise r).get F.timeRaiseNsNanoseconds 0 r.entry = r.ns
      ∧ (s.putRaise r).get F.timeRaiseNsSeqmask 0 r.entry = r.mask ∧ (s.putRaise r).get F.timeRaiseNsOrigin 0 r.entry = r.origin := by
  unfold State.putRaise
  simp (disch := decide) [State.updatePending_get]
  exact ⟨htag, hsec, hns, hmask, horg⟩

theorem State.station_of_time {s t : State} (h : t.time = s.time) : t.station = s.station := by
  unfold State.station State.clocks State.clocksAt
  rw [h]

section
variable {s : State} {x : RaiseOp} (src : Src)

theorem State.schedule_late (h : instant x.sec x.ns x.frac ≤ s.station) : s.schedule x src = (0x0A, s) := if_pos h

theorem State.schedule_free (ha : Alone s (.raise x.entry)) (h : s.station < instant x.sec x.ns x.frac)
    (hf : s.bit F.timeRaiseNsScheduled 0 x.entry = false) :
    s.schedule x src = (0, (s.note ⟨.raise x.entry, 4, srcRank src, x.effect⟩).putRaise x) := by
  unfold State.schedule
  rw [if_neg (by omega), if_neg (by simp [hf]), State.decideEvent_alone ha]

theorem State.cancelRaise_scheduled {e tag : Nat} (ha : Alone s (.raise e)) (hs : s.bit F.timeRaiseNsScheduled 0 e = true)
    (ht : s.get F.timeRaiseSecTag 0 e = tag) : s.cancelRaise e tag src
      = (0, ((s.note ⟨.raise e, 2, srcRank src, 2⟩).set F.timeRaiseNsScheduled 0 e 0).updatePending) := by
  unfold State.cancelRaise
  rw [if_pos ⟨hs, ht⟩, State.decideEvent_alone ha]

theorem State.cancelRaise_free {e : Nat} (tag : Nat) (ha : Alone s (.raise e)) (hs : s.bit F.timeRaiseNsScheduled 0 e = false) :
    s.cancelRaise e tag src = (0x0C, s) := by
  unfold State.cancelRaise
  rw [if_neg (by simp [hs]), ha.1]

end

/-- What a RAISE command answers before its entry is originated. -/
def State.raiseAnswer (s : State) (q : Nat) (d : Desc) : Nat × State :=
  if decide (bitsOf d.w2 54 1 = 1) then s.cancelRaise (s.raiseCommand d).entry (s.raiseCommand d).tag (.host q) else s.schedule (s.raiseCommand d) (.host q)

theorem State.raiseAnswer_within (s : State) (q : Nat) (d : Desc) : Only 0x4000000000000000000000000000000000000000000000000001800801000 s (s.raiseAnswer q d).2 := by
  unfold State.raiseAnswer
  split
  · exact (State.cancelRaise_within ..).mono (by decide)
  · exact (State.schedule_within ..).mono (by decide)

section
variable {s t : State} {q : Nat} {d : Desc} {tok : Token} (h : s.beginCommand q 0x05 = some (d, tok, t)) (hb : s.busMaster = true)
include h

/-- A RAISE completes with its answer; broadcasting it changes neither the raise table nor a ring. -/
theorem cmdRaise_answers {st : Nat} {u : State} (ha : t.raiseAnswer q d = (st, u)) :
    ∃ v, Only 0x404000000000000000000000000000000000000000000000200000000001000 u v ∧ exec (.cmdRaise q) s = .next (v.complete tok st d.w1 (raiseWord d.w2) d.w3) := by
  have hx := State.command_begins h fun d tok t =>
    match t.raiseAnswer q d with
    | (st, u) => (if st = 0 ∧ bitsOf d.w2 55 1 = 1 then u.originate 2 0 (u.raisePayload (decide (bitsOf d.w2 54 1 = 1)) (t.raiseCommand d)) else u).complete
      tok st d.w1 (raiseWord d.w2) d.w3
  rw [ha] at hx
  refine ⟨_, ?_, hx⟩
  exact .ite (fun _ => State.originate_within ..) fun _ => .refl ..

include hb
/-- What a RAISE leaves: its write-back, and the raise table of its answer. -/
theorem cmdRaise_completes {st : Nat} {u : State} (ha : t.raiseAnswer q d = (st, u)) {P : State → Prop}
    (hP : ∀ v : State, (∀ f i j, f.reg = .timeRaiseSec ∨ f.reg = .timeRaiseNs → v.get f i j = u.get f i j) → P v) :
    Completes (.cmdRaise q) s fun r => WrittenBack s r q d st d.w1 (raiseWord d.w2) d.w3 ∧ P r := by
  obtain ⟨hbg, -, -, hr, -, -⟩ := State.beginCommand_begins h
  obtain ⟨v, hv, hx⟩ := cmdRaise_answers h ha
  have hu : Only 0x404000000000000000000000000000000000000000000000200001800801000 t u := by
    have := t.raiseAnswer_within q d
    rw [ha] at this
    exact this.mono (by decide)
  have hk := hu.step hv (by decide)
  refine .intro hx ⟨hbg.complete_only hr hb hk (by decide) (by decide) (by decide) (by decide) (by decide) (by decide) ..,
    hP _ fun f i j hf => ?_⟩
  have hc (k : RegName) (hk : k = .timeRaiseSec ∨ k = .timeRaiseNs) : Nat.testBit 0x404000000000000000000000000000000000000000000000200000000001000 k.ctorIdx = false
      ∧ Nat.testBit 0x844000000000000000000000000000000000000000000000000000000145000 k.ctorIdx = false := by
    rcases hk with rfl | rfl <;> decide
  exact ((State.complete_within ..).get _ _ _ (hc _ hf).2).trans (hv.get _ _ _ (hc _ hf).1)

end

theorem raiseCommand : RaiseCommand := by
  intro q d tok x s t h hx ha hb
  obtain ⟨hbg, -, -, hr, -, -⟩ := State.beginCommand_begins h
  have hat : Alone t (.raise x.entry) := hbg.only.alone_of_quiet ha (by decide) (by decide) (by decide) (by decide) (by decide) (by decide)
  have hrc : t.raiseCommand d = x := by
    rw [hx]
    unfold State.raiseCommand
    rw [hbg.only.get _ _ _ (by decide)]
  have hstat : t.station = s.station := State.station_of_time (hbg.only.time (by decide))
  have hsch : t.bit F.timeRaiseNsScheduled 0 x.entry = s.bit F.timeRaiseNsScheduled 0 x.entry := hbg.only.bit _ _ _ (by decide)
  have hput (hz : bitsOf d.w2 54 1 = 0) : t.raiseAnswer q d = t.schedule x (.host q) := by
    rw [State.raiseAnswer, if_neg (by simp [hz]), hrc]
  have hcan (hz : bitsOf d.w2 54 1 = 1) : t.raiseAnswer q d = t.cancelRaise x.entry x.tag (.host q) := by
    rw [State.raiseAnswer, if_pos (by simp [hz]), hrc]
  refine ⟨fun hz hl hf => ?_, fun hz hl => ?_, fun hz hs htag => ?_, fun hz hs => ?_⟩
  · refine cmdRaise_completes h hb ((hput hz).trans (State.schedule_free _ hat (hstat ▸ hl) (hsch.trans hf))) fun v hv => ?_
    have hreads := (t.note ⟨.raise x.entry, 4, srcRank (.host q), x.effect⟩).putRaise_reads x (hx ▸ bitsOf_lt ..) (hx ▸ bitsOf_lt ..)
      (hx ▸ bitsOf_lt ..) (hx ▸ bitsOf_lt ..) (hx ▸ bitsOf_lt ..)
    rw [hv _ _ _ (.inr rfl), hv _ _ _ (.inl rfl), hv _ _ _ (.inl rfl), hv _ _ _ (.inr rfl), hv _ _ _ (.inr rfl), hv _ _ _ (.inr rfl)]
    obtain ⟨h1, h2, h3, h4, h5, h6⟩ := hreads
    exact ⟨h1, h2, h3, h4, h5, h6.trans (by rw [hx]; rfl)⟩
  · exact Completes.mono (cmdRaise_completes (P := fun _ => True) h hb ((hput hz).trans (State.schedule_late _ (hstat ▸ hl))) fun _ _ => trivial) fun _ h => h.1
  · refine cmdRaise_completes h hb ((hcan hz).trans (State.cancelRaise_scheduled _ hat (hsch.trans hs)
      ((hbg.only.get _ _ _ (by decide)).trans htag))) fun v hv => ?_
    rw [hv _ _ _ (.inr rfl), State.updatePending_get _ _ _ _ (by decide)]
    exact State.get_set_self _ _ _ _ _ (by decide)
  · exact Completes.mono (cmdRaise_completes (P := fun _ => True) h hb ((hcan hz).trans (State.cancelRaise_free _ _ hat (hsch.trans hs))) fun _ _ => trivial)
      fun _ h => h.1

/-! ### SITE_SET and COUNTERS_READ (R163, R220, R318) -/

theorem cmdSiteSetCommits {s t : State} {q : Nat} {d : Desc} {tok : Token} (h : s.beginCommand q 0x07 = some (d, tok,
  t)) (hb : s.busMaster = true) :
    Completes (.cmdSiteSet q) s fun r => r.site = t.siteCommit.2.site ∧ WrittenBack s r q d (siteStatus t.siteCommit.1) d.w1
      (BitVec.ofNat 64 (r.get F.siteStatusRefused + r.get F.siteEpochEpoch * 2 ^ 32)) d.w3 := by
  obtain ⟨hbg, -, -, hr, -, -⟩ := State.beginCommand_begins h
  have hx := State.command_begins h fun d tok t => match t.siteCommit with
    | (r, u) => u.complete tok (siteStatus r) d.w1 (BitVec.ofNat 64 (u.get F.siteStatusRefused + u.get F.siteEpochEpoch * 2 ^ 32)) d.w3
  have ho := t.siteCommit_within
  generalize t.siteCommit = p at hx ho ⊢
  obtain ⟨r, u⟩ := p
  dsimp only at hx ho ⊢
  refine .intro hx ⟨(State.complete_within ..).site (by decide), ?_⟩
  rw [(State.complete_within ..).get _ _ _ (by decide), (State.complete_within ..).get _ _ _ (by decide)]
  exact hbg.complete_only hr hb ho (by decide) (by decide) (by decide) (by decide) (by decide) (by decide) ..

/-- A completion takes nothing back that was sent. -/
theorem Begins.complete_out {s t u : State} {q : Nat} {d : Desc} {tok : Token} (h : Begins s q d tok t) (hr : (s.ringX q).running = [])
    (hb : s.busMaster = true) (hk : RingKept q t u) (st : Nat) (w1 w2 w3 : Word) : u.out ⊆ (u.complete tok st w1 w2 w3).out := by
  have hbt := h.master.trans hb
  have hbu := hk.master.trans hbt
  have hw := State.endRun_writtenBack hbu ((hk.runs hbt).trans (h.running hr)) st w1 w2 w3
  rw [h.token]
  unfold State.complete
  rw [if_pos ((hk.gen hbt).trans h.gen)]
  exact fun o ho => (RingKept.releaseBarriers hw.2 hw.1.2.1).out
    ((RingKept.endRun (q := q + 1) u hbu q d.idx st w1 w2 w3 fun he => absurd he (by simp)).out ho)

theorem State.failSnap_shadow (s : State) (b i : Nat) (hi : i < 16) :
    (s.failSnap b).rd ⟨.bayFailShadow, b, i⟩ = s.atStart ⟨.bayFailCount, b, i⟩ := by
  obtain ⟨t, hx, hs, -⟩ := failSnapshot b s
  cases hx
  exact hs i hi

theorem State.failCountClear_zero {s : State} {b : Nat} (h : ∀ i < 16,
  ClearActs s (F.bayFailCountCount.key b i) F.bayFailCountCount.lo)
    (i : Nat) (hi : i < 16) : (s.failCountClear b).get F.bayFailCountCount b i = 0 := by
  obtain ⟨t, hx, ht⟩ := clearsZeroTheirCounts (.failCountClear b) s (by simp [clearedCounts]) fun e he => by
    obtain ⟨i, hi, rfl⟩ := List.mem_map.1 he
    exact h i (List.mem_range.1 hi)
  cases hx
  exact (ht (F.bayFailCountCount, F.bayFailCountSaturated, b, i) (List.mem_map.2 ⟨i, List.mem_range.2 hi, rfl⟩)).1

/-- What COUNTERS_READ finds of a bay. -/
theorem State.snapBay_reads {s : State} {b : Nat} (hr : s.inReset (.bay b) = false) (clear : Bool) :
    (∀ i < 16, (s.snapBay clear b).rd ⟨.bayFailShadow, b, i⟩ = s.atStart ⟨.bayFailCount, b, i⟩)
    ∧ (clear = true → (∀ i < 16, ClearActs s (F.bayFailCountCount.key b i) F.bayFailCountCount.lo) →
      ∀ i < 16, (s.snapBay clear b).get F.bayFailCountCount b i = 0)
    ∧ (clear = false → ∀ i < 16, (s.snapBay clear b).get F.bayFailCountCount b i = s.get F.bayFailCountCount b i) := by
  unfold State.snapBay
  rw [if_neg (by simp [hr])]
  have hs := s.failSnap_within b
  cases clear with
  | true =>
    rw [if_pos rfl]
    refine ⟨fun i hi => ?_,
      fun _ hc => State.failCountClear_zero fun i hi => (hs.clearActs (by decide) (by decide) (by decide) (by decide) _ _).2 (hc i hi),
      fun h => Bool.noConfusion h⟩
    rw [(State.failCountClear_within ..).reg _ (show Nat.testBit _ RegName.bayFailShadow.ctorIdx = false by decide),
      State.failSnap_shadow _ _ _ hi]
  | false =>
    rw [if_neg Bool.noConfusion]
    exact ⟨fun i hi => s.failSnap_shadow b i hi, fun h => Bool.noConfusion h, fun _ i hi => hs.get _ _ _ (by decide)⟩

theorem cmdCountersRead {s t : State} {q b : Nat} {d : Desc} {tok : Token} (hb : s.busMaster = true) (hb8 : b < 8)
    (h : s.beginCommand q 0x09 = some (d, tok, t)) (hmask : bitsOf d.w1 0 8 = 2 ^ b) (hres : s.inReset (.bay b) = false) :
    Completes (.cmdCountersRead q) s fun r => WrittenBack s r q d 0 d.w1 (hostAddr d.w2) d.w3
      ∧ (∃ ws, Output.hostWrite (hostAddr d.w2).toNat ws ∈ r.out ∧ ws.length = 17
          ∧ ∀ i < 16, ws.getD (i + 1) 0 = s.atStart ⟨.bayFailCount, b, i⟩)
      ∧ (bitsOf d.w1 8 1 = 1 → (∀ i < 16, ClearActs s (F.bayFailCountCount.key b i) F.bayFailCountCount.lo) →
          ∀ i < 16, r.get F.bayFailCountCount b i = 0)
      ∧ (bitsOf d.w1 8 1 = 0 → ∀ i < 16, r.get F.bayFailCountCount b i = s.get F.bayFailCountCount b i) := by
  obtain ⟨hbg, -, -, hr, -, -⟩ := State.beginCommand_begins h
  have hx := State.command_begins h fun d tok t =>
    let l := bitsBelow 8 (bitsOf d.w1 0 8)
    let u := l.foldl (fun (v : State) b => v.snapBay (decide (bitsOf d.w1 8 1 = 1)) b) t
    (u.hostWrite (.hostWrite (hostAddr d.w2).toNat (l.flatMap u.counterWords))).complete tok 0 d.w1 (hostAddr d.w2) d.w3
  dsimp only at hx
  rw [hmask, bitsBelow_eight hb8, List.foldl_cons, List.foldl_nil, List.flatMap_cons, List.flatMap_nil, List.append_nil] at hx
  have hat (k : RegKey) : t.atStart k = s.atStart k := by
    unfold State.atStart
    rw [hbg.only.startOfTick (by decide)]
  obtain ⟨h1, h2, h3⟩ := State.snapBay_reads (s := t) (b := b) ((hbg.only.inReset (by decide) (by decide) _).trans hres) (decide (bitsOf d.w1 8 1 = 1))
  have ho := t.snapBay_within (decide (bitsOf d.w1 8 1 = 1)) b
  generalize t.snapBay (decide (bitsOf d.w1 8 1 = 1)) b = u at hx h1 h2 h3 ho
  have hku : RingKept q t u := .of_only ho (by decide) (by decide) (ho.out (by decide)) (ho.host (by decide))
  have hmu : u.busMaster = true := hku.master.trans (hbg.master.trans hb)
  rw [State.hostWrite, if_pos hmu] at hx
  have hkv := RingKept.emit q u (.hostWrite (hostAddr d.w2).toNat (u.counterWords b))
  have hov := Only.step (N := 0x440000000000000000000000000001c0000000000000000000000000001000) (ho.mono (by decide)) (State.emit_only (.hostWrite (hostAddr d.w2).toNat (u.counterWords b)) (.refl (2 ^ 246) u) (by decide)) (by decide)
  have hgv (f : Fld) (i j : Nat) := u.get_emit (.hostWrite (hostAddr d.w2).toNat (u.counterWords b)) f i j
  have hmem : Output.hostWrite (hostAddr d.w2).toNat (u.counterWords b) ∈ (u.emit (.hostWrite (hostAddr d.w2).toNat (u.counterWords b))).out :=
    List.mem_append_right _ (List.mem_singleton.2 rfl)
  have hwords : (u.counterWords b).length = 17 ∧ ∀ i < 16, (u.counterWords b).getD (i + 1) 0 = s.atStart ⟨.bayFailCount, b, i⟩ := by
    unfold State.counterWords
    refine ⟨by simp, fun i hi => ?_⟩
    rw [List.getD_cons_succ, List.getD_eq_getElem _ _ (by simpa using hi), List.getElem_map, List.getElem_range, h1 i hi, hat]
  generalize u.counterWords b = ws at *
  generalize u.emit (.hostWrite (hostAddr d.w2).toNat ws) = v at *
  have hcount (i : Nat) : (v.complete tok 0 d.w1 (hostAddr d.w2) d.w3).get F.bayFailCountCount b i = u.get F.bayFailCountCount b i :=
    ((State.complete_within ..).get _ _ _ (by decide)).trans (hgv ..)
  refine .intro hx ⟨hbg.complete_kept hr hb (hku.trans hkv) hov (by decide) (by decide) .., ⟨ws,
    hbg.complete_out hr hb (hku.trans hkv) _ _ _ _ hmem, hwords⟩,
    fun hc hact i hi => ?_, fun hc i hi => ?_⟩
  · rw [hcount]
    exact h2 (decide_eq_true hc) (fun i hi => (hbg.only.clearActs (by decide) (by decide) (by decide) (by decide) _ _).2 (hact i hi)) i hi
  · rw [hcount, h3 (decide_eq_false (by omega)) i hi, hbg.only.get _ _ _ (by decide)]

theorem siteAndCounterCommands : SiteAndCounterCommands := fun _ _ _ _ _ hb =>
  ⟨fun h => cmdSiteSetCommits h hb, fun _ hb8 h hmask hres => cmdCountersRead hb hb8 h hmask hres⟩

/-- Settles O37: each answer is written back to the ring that asked, which the raise table, the sites and the counters do not touch. -/
theorem raiseSiteAndCounterCommands : Obligations.RaiseSiteAndCounterCommands := ⟨raiseCommand, siteAndCounterCommands⟩

/-! ### FUSE_LOCK (R319) -/

theorem RingKept.fuse (q : Nat) (s : State) (v : Option Nat) : RingKept q s { s with host := { s.host with fuseArm := v } } :=
  ⟨State.get_of_regs rfl .., State.get_of_regs rfl .., State.get_of_regs rfl .., fun _ h => h, rfl, fun _ => rfl, fun _ => rfl⟩

section
variable {s t : State} {q : Nat} {d : Desc} {tok : Token} (h : s.beginCommand q 0x0A = some (d, tok, t)) (hb : s.busMaster = true)
include h

theorem fuseCommand_begins {step : Nat} (hd : bitsOf d.w1 0 1 = step) (f : Desc → Token → State → State) :
    s.fuseCommand q step f = .next (f d tok t) := by
  obtain ⟨hbg, -⟩ := State.beginCommand_begins h
  obtain ⟨ds, hf, -⟩ := hbg.fetched
  unfold State.fuseCommand
  rw [hf]
  dsimp only
  rw [if_pos hd, State.command_begins h]

omit h in
theorem Begins.fuse (hbg : Begins s q d tok t) : t.host.fuseArm = s.host.fuseArm ∧ t.host.fuseBlow = s.host.fuseBlow := by
  obtain ⟨-, ds, -, rfl⟩ := hbg
  exact ⟨rfl, rfl⟩

theorem execFuseArm_begins (hd : bitsOf d.w1 0 1 = 0) : exec (.fuseArm q) s = .next (if s.bit F.rasStatusDebugLocked then t.completeSame tok 0x13
    else if fuseCode d then ({ t with host := { t.host with fuseArm := some t.ticks } }).completeSame tok 0
    else t.completeSame tok 0x12) := by
  obtain ⟨hbg, -⟩ := State.beginCommand_begins h
  have hx := fuseCommand_begins h hd fun d tok t => if t.bit F.rasStatusDebugLocked then t.completeSame tok 0x13
    else if fuseCode d then ({ t with host := { t.host with fuseArm := some t.ticks } }).completeSame tok 0
    else t.completeSame tok 0x12
  rwa [hbg.only.bit F.rasStatusDebugLocked _ _ (by decide)] at hx

theorem execFuseConfirm_begins (hd : bitsOf d.w1 0 1 = 1) : exec (.fuseConfirm q) s = .next (if s.bit F.rasStatusDebugLocked then t.completeSame tok 0x13
    else if fuseCode d ∧ s.fuseLive then { t with host := { t.host with fuseBlow := t.host.fuseBlow ++ [tok] } }
    else t.completeSame tok 0x12) := by
  obtain ⟨hbg, -⟩ := State.beginCommand_begins h
  have hx := fuseCommand_begins h hd fun d tok t => if t.bit F.rasStatusDebugLocked then t.completeSame tok 0x13
    else if fuseCode d ∧ t.fuseLive then { t with host := { t.host with fuseBlow := t.host.fuseBlow ++ [tok] } }
    else t.completeSame tok 0x12
  have hlive : t.fuseLive = s.fuseLive := by
    unfold State.fuseLive
    rw [(Begins.fuse hbg).1, hbg.only.ticks (by decide)]
  rw [hbg.only.bit F.rasStatusDebugLocked _ _ (by decide), hlive] at hx
  exact hx

include hb

theorem fuseArmSteps (hd : bitsOf d.w1 0 1 = 0) :
    (s.bit F.rasStatusDebugLocked = true → Completes (.fuseArm q) s fun r => WrittenBack s r q d 0x13 d.w1 d.w2 d.w3)
    ∧ (s.bit F.rasStatusDebugLocked = false → bitsOf d.w1 16 16 = 0x4C4B → Completes (.fuseArm q) s fun r =>
        WrittenBack s r q d 0 d.w1 d.w2 d.w3 ∧ r.host.fuseArm = some s.ticks)
    ∧ (s.bit F.rasStatusDebugLocked = false → bitsOf d.w1 16 16 ≠ 0x4C4B → Completes (.fuseArm q) s fun r =>
        WrittenBack s r q d 0x12 d.w1 d.w2 d.w3 ∧ r.host.fuseArm = s.host.fuseArm) := by
  obtain ⟨hbg, -, -, hr, -, -⟩ := State.beginCommand_begins h
  have hx := execFuseArm_begins h hd
  refine ⟨fun hl => ?_, fun hl hc => ?_, fun hl hc => ?_⟩
  · rw [if_pos hl] at hx
    exact .intro hx (hbg.completeSame hr hb _)
  · rw [if_neg (by simp [hl]), if_pos (show fuseCode d = true from decide_eq_true hc)] at hx
    have hku : RingKept q t { t with host := { t.host with fuseArm := some t.ticks } } := .fuse ..
    have hou : Only (2 ^ 251) t { t with host := { t.host with fuseArm := some t.ticks } } := Only.fields (.refl _ t) rfl rfl
    refine .intro hx ⟨hbg.completeSame_kept hr hb hku hou (by decide) (by decide) _, ?_⟩
    exact (HostKept.completeSame ..).fuseArm.trans (congrArg some (hbg.only.ticks (by decide)))
  · rw [if_neg (by simp [hl]), if_neg (by simp [fuseCode, hc])] at hx
    exact .intro hx ⟨hbg.completeSame hr hb _, (HostKept.completeSame ..).fuseArm.trans (Begins.fuse hbg).1⟩

theorem fuseConfirmSteps (hd : bitsOf d.w1 0 1 = 1) :
    (s.bit F.rasStatusDebugLocked = true → Completes (.fuseConfirm q) s fun r => WrittenBack s r q d 0x13 d.w1 d.w2 d.w3)
    ∧ (∀ k, s.bit F.rasStatusDebugLocked = false → bitsOf d.w1 16 16 = 0x4C4B → s.host.fuseArm = some k → k < s.ticks →
        s.ticks ≤ k + 150000 → Completes (.fuseConfirm q) s fun r => r.host.fuseBlow = s.host.fuseBlow ++ [tok])
    ∧ (s.bit F.rasStatusDebugLocked = false →
        (∀ k, s.host.fuseArm = some k → s.ticks ≤ k ∨ k + 150000 < s.ticks) ∨ bitsOf d.w1 16 16 ≠ 0x4C4B →
        Completes (.fuseConfirm q) s fun r => WrittenBack s r q d 0x12 d.w1 d.w2 d.w3 ∧ r.host.fuseBlow = s.host.fuseBlow) := by
  obtain ⟨hbg, -, -, hr, -, -⟩ := State.beginCommand_begins h
  have hx := execFuseConfirm_begins h hd
  refine ⟨fun hl => ?_, fun k hl hc hk hlt hle => ?_, fun hl hc => ?_⟩
  · rw [if_pos hl] at hx
    exact .intro hx (hbg.completeSame hr hb _)
  · have hlive : s.fuseLive = true := by
      unfold State.fuseLive
      rw [hk]
      simp [hlt, hle]
    rw [if_neg (by simp [hl]), if_pos ⟨show fuseCode d = true from decide_eq_true hc, hlive⟩] at hx
    exact .intro hx (congrArg (· ++ [tok]) (Begins.fuse hbg).2)
  · have hno : ¬(fuseCode d = true ∧ s.fuseLive = true) := by
      rintro ⟨h1, h2⟩
      rcases hc with hc | hc
      · unfold State.fuseLive at h2
        split at h2
        · next k hk =>
          rcases hc k hk with hc | hc <;> simp at h2 <;> omega
        · cases h2
      · exact hc (of_decide_eq_true h1)
    rw [if_neg (by simp [hl]), if_neg hno] at hx
    exact .intro hx ⟨hbg.completeSame hr hb _, (HostKept.completeSame ..).fuseBlow.trans (Begins.fuse hbg).2⟩

end

theorem fuseLockedSets (s : State) (h : s.host.fuseBlow ≠ []) :
    Completes .fuseLocked s fun r => r.host.fuseBlow = [] ∧ r.get F.rasStatusDebugLocked = 1 := by
  obtain ⟨a, l, hl⟩ := List.exists_cons_of_ne_nil h
  have hx : exec .fuseLocked s = .next ((((a :: l).foldl (fun (u : State) tok => u.completeSame tok 0)
      (({ s with host := { s.host with fuseBlow := [] } }).set F.rasStatusDebugLocked 0 0 1))).post 0x0906 0 0) := by
    show execFuseLocked s = _
    unfold execFuseLocked
    rw [hl]
  have hh : ((({ s with host := { s.host with fuseBlow := [] } }) : State).set F.rasStatusDebugLocked 0 0 1).host.fuseBlow = [] :=
    congrArg HostX.fuseBlow (State.set_host ..)
  have hbit : ((({ s with host := { s.host with fuseBlow := [] } }) : State).set F.rasStatusDebugLocked 0 0 1).get F.rasStatusDebugLocked = 1 :=
    State.get_set_self _ _ _ _ _ (by decide)
  generalize (({ s with host := { s.host with fuseBlow := [] } }) : State).set F.rasStatusDebugLocked 0 0 1 = t at hx hh hbit
  have hk := HostKept.foldl (a :: l) (fun u tok => u.completeSame tok 0) (fun u tok => .completeSame u tok 0) t
  have ho := foldl_keeps (P := fun u => Only 0x844000000000000000000000000000000000000000000000000000000145000 t u) (f := fun u tok => u.completeSame tok 0)
    (fun u tok hu => hu.step (State.completeSame_within ..) (by decide)) (a :: l) (.refl _ t)
  refine .intro hx ⟨(HostKept.post ..).fuseBlow.trans (hk.fuseBlow.trans hh), ?_⟩
  rw [(State.post_within ..).get _ _ _ (by decide), ho.get _ _ _ (by decide)]
  exact hbit

/-! ### Mail and the time port (R322, R355) -/

/-- A mail descriptor that begins, with its LENGTH at most 16. -/
def State.mailBegun (t : State) (q : Nat) (d : Desc) : State :=
  t.setRingX q { (t.ringX q) with running := (t.ringX q).running.map fun (x : Run) =>
    if x.d.idx = d.idx ∧ x.done = none then { x with d := mailDesc d } else x }

theorem mailBegins {s t : State} {q : Nat} {c : Instr} {d : Desc} {tok : Token}
    (h : (c = .cmdMail q ∧ s.beginCommand q 0x0C = some (d, tok, t)) ∨ (c = .mailDescriptor q ∧ s.begin q 9 = some (d, tok, t))) :
    Begins s q d tok t ∧ exec c s = .next ((t.mailBegun q d).hostMail (mailDesc d) tok) := by
  rcases h with ⟨rfl, h⟩ | ⟨rfl, h⟩
  · exact ⟨(State.beginCommand_begins h).1, State.command_begins h fun d tok t => t.beginMail q d tok⟩
  · refine ⟨(State.begins h).1, ?_⟩
    show s.descriptor q 9 (fun d tok t => t.beginMail q d tok) = _
    unfold State.descriptor
    rw [h]
    rfl

theorem mailDesc_words (d : Desc) : (mailDesc d).idx = d.idx ∧ (mailDesc d).w0 = d.w0 ∧ (mailDesc d).w2 = d.w2 ∧ (mailDesc d).w3 = d.w3
    ∧ (mailDesc d).w1 = withBits d.w1 24 5 (min 16 (bitsOf d.w1 24 5)) := by
  unfold mailDesc
  exact ⟨rfl, rfl, rfl, rfl, rfl⟩

section
variable {s t : State} {q : Nat} {d : Desc} {tok : Token} (h : Begins s q d tok t) (hr : (s.ringX q).running = []) (hb : s.busMaster = true)
include h hr

theorem Begins.mailBegun_running : ((t.mailBegun q d).ringX q).running = [⟨mailDesc d, none⟩] := by
  unfold State.mailBegun
  rw [State.ringX_setRingX, if_pos rfl, h.running hr, List.map_cons, List.map_nil, if_pos ⟨rfl, rfl⟩]

omit hr in
theorem Begins.mailBegun_only : Only (2 ^ 251) s (t.mailBegun q d) := h.only.step (State.setRingX_within ..) (by decide)

include hb in
/-- Mail that completes after a step that touches no ring. -/
theorem Begins.completeMail {N : Nat} {u : State} (ho : Only N (t.mailBegun q d) u) (hB : N.testBit RegName.ringBase.ctorIdx = false)
    (hC : N.testBit RegName.ringCfg.ctorIdx = false) (hI : N.testBit RegName.ringIndex.ctorIdx = false)
    (hS : N.testBit RegName.ringStatus.ctorIdx = false) (hO : N.testBit 246 = false) (hH : N.testBit 251 = false) (st : Nat) :
    WrittenBack s (u.completeSame tok st) q d st (withBits d.w1 24 5 (min 16 (bitsOf d.w1 24 5))) d.w2 d.w3 := by
  have hk : RingKept q (t.mailBegun q d) u := .of_only ho hI hS (ho.out hO) (ho.host hH)
  have hm : (t.mailBegun q d).busMaster = true := h.master.trans hb
  have hg : ((t.mailBegun q d).ringX q).gen = (s.ringX q).gen := by
    unfold State.mailBegun
    rw [State.ringX_setRingX, if_pos rfl]
    exact h.gen
  have hw := State.completeSame_writtenBack (d := mailDesc d) (hk.master.trans hm) ((hk.runs hm).trans (h.mailBegun_running hr)) ((hk.gen hm).trans hg) st
  have hwb := WrittenBack.of_regs h.mailBegun_only (by decide) (by decide) (WrittenBack.of_regs ho hB hC hw)
  obtain ⟨hidx, hw0, hw2, hw3, hw1⟩ := mailDesc_words d
  unfold WrittenBack at hwb ⊢
  rw [hidx, hw0, hw1, hw2, hw3] at hwb
  rw [h.token]
  exact hwb

end

theorem State.inboxPut_prod (s : State) (m : Mail) : (s.inboxPut m).get F.coreMailIdxProd
    = (s.get F.coreMailIdxProd + 1) % s.get F.coreMailboxEntries % 2 ^ F.coreMailIdxProd.width := by
  unfold State.inboxPut
  rw [(State.setFlags_within ..).get _ _ _ (by decide), State.get_set_self _ _ _ _ _ (by decide)]

theorem mailDescriptors (q : Nat) (c : Instr) (d : Desc) (tok : Token) (s t : State) (hr : (s.ringX q).running = []) (hb : s.busMaster = true)
    (h : (c = .cmdMail q ∧ s.beginCommand q 0x0C = some (d, tok, t)) ∨ (c = .mailDescriptor q ∧ s.begin q 9 = some (d, tok, t))) :
    (bitsOf d.w1 22 1 = 0 → s.inboxRoom = true → s.disp.heldMail = [] →
      Completes c s fun r => WrittenBack s r q d 0 (withBits d.w1 24 5 (min 16 (bitsOf d.w1 24 5))) d.w2 d.w3
        ∧ r.get F.coreMailIdxProd = (s.get F.coreMailIdxProd + 1) % s.get F.coreMailboxEntries % 2 ^ F.coreMailIdxProd.width)
    ∧ (bitsOf d.w1 22 1 = 1 → s.route (bitsOf d.w1 16 6) = none →
      Completes c s fun r => WrittenBack s r q d 0x0D (withBits d.w1 24 5 (min 16 (bitsOf d.w1 24 5))) d.w2 d.w3) := by
  obtain ⟨hbg, hx⟩ := mailBegins h
  have ho := hbg.mailBegun_only
  have hdst : bitsOf (mailDesc d).w1 22 1 = bitsOf d.w1 22 1 := bitsOf_withBits_ne _ _ _ _ _ _ (by decide) (by decide)
  have hchip : bitsOf (mailDesc d).w1 16 6 = bitsOf d.w1 16 6 := bitsOf_withBits_ne _ _ _ _ _ _ (by decide) (by decide)
  have hfin {N : Nat} {u : State} := hbg.completeMail hr hb (N := N) (u := u)
  generalize t.mailBegun q d = u at hx ho hfin
  unfold State.hostMail at hx
  rw [hdst, hchip] at hx
  refine ⟨fun hz hroom hheld => ?_, fun hz hroute => ?_⟩
  · have hroomu : u.inboxRoom = true := by
      unfold State.inboxRoom
      rw [ho.get _ _ _ (by decide), ho.get _ _ _ (by decide), ho.get _ _ _ (by decide)]
      exact hroom
    rw [if_pos hz, if_pos ⟨hroomu, by rw [ho.disp (by decide), hheld]⟩] at hx
    refine .intro hx ⟨hfin (State.inboxPut_within ..) (by decide) (by decide) (by decide) (by decide) (by decide) (by decide) 0, ?_⟩
    rw [(State.completeSame_within ..).get _ _ _ (by decide), State.inboxPut_prod, ho.get _ _ _ (by decide), ho.get _ _ _ (by decide)]
  · have hru : u.route (bitsOf d.w1 16 6) = none := by
      unfold State.route at hroute ⊢
      rwa [ho.get _ _ _ (by decide)]
    rw [if_neg (by omega), hru] at hx
    exact .intro hx (hfin (.refl 0 u) (by decide) (by decide) (by decide) (by decide) (by decide) (by decide) 0x0D)

/-- The state in which a TIMETX descriptor has sent its frame. -/
def State.timeFrameSent (t : State) (tok : Token) (d : Desc) (data : List Nat) : State :=
  let len := max 14 (min 1518 (bitsOf d.w2 0 11))
  let x : TxFrame := { tok := tok, buf := d.w1.toNat, len := len, stamp := decide (bitsOf d.w2 16 1 = 1) }
  let f := (data.take len).map fun n => n % 256
  { ((({ t with time := { t.time with txQueue := t.time.txQueue ++ [x] } }).emit (.hostRead d.w1.toNat len)).emit
    (.timeFrame (t.wireFrame f))) with free := t.free + (60 - f.length) }

theorem State.timeFrameSent_sends (t : State) (tok : Token) (d : Desc) (data : List Nat) :
    (t.timeFrameSent tok d data).out = t.out ++ [.hostRead d.w1.toNat (max 14 (min 1518 (bitsOf d.w2 0 11))),
      .timeFrame (t.wireFrame ((data.take (max 14 (min 1518 (bitsOf d.w2 0 11)))).map fun n => n % 256))]
    ∧ (t.timeFrameSent tok d data).time.txQueue = t.time.txQueue
      ++ [⟨tok, d.w1.toNat, max 14 (min 1518 (bitsOf d.w2 0 11)), decide (bitsOf d.w2 16 1 = 1)⟩] := by
  unfold State.timeFrameSent
  generalize max 14 (min 1518 (bitsOf d.w2 0 11)) = len
  exact ⟨List.append_assoc .., rfl⟩

theorem timetxSends (q len : Nat) (data : List Nat) (d : Desc) (tok : Token) (s t : State) (he : s.bit F.timePortCfgEnable = true)
    (hq : s.get F.timePortCfgTxRing = q) (h : s.begin q 7 = some (d, tok, t)) (hl : len = max 14 (min 1518 (bitsOf d.w2 0 11))) :
    Completes (.timetxDescriptor ⟨q, data⟩) s fun r =>
      r.out = s.out ++ [.hostRead d.w1.toNat len, .timeFrame (s.wireFrame ((data.take len).map fun n => n % 256))]
      ∧ ∃ x, r.time.txQueue = s.time.txQueue ++ [x] ∧ x.tok = tok := by
  obtain ⟨hbg, hst, hty, -⟩ := State.begins h
  have hn : s.namedRing 5 0 (s.get F.timePortCfgTxRing) 7 false = (true, s) := by
    rw [hq]
    unfold State.namedRing
    rw [if_pos ⟨hty, rfl⟩]
    exact congrArg (·, s) (decide_eq_true hst)
  have hx : exec (.timetxDescriptor ⟨q, data⟩) s = .next (t.timeFrameSent tok d data) := by
    show execTimetxDescriptor ⟨q, data⟩ s = _
    unfold execTimetxDescriptor
    dsimp only
    rw [if_neg (by simp [he]), hn]
    dsimp only
    rw [if_pos ⟨rfl, hq⟩]
    unfold State.descriptor
    rw [h]
    rfl
  have hwire (l : List Nat) : t.wireFrame l = s.wireFrame l := by
    unfold State.wireFrame
    rw [hbg.only.free (by decide)]
  have hout : t.out = s.out := hbg.only.out (by decide)
  have htq : t.time.txQueue = s.time.txQueue := congrArg TimeX.txQueue (hbg.only.time (by decide))
  obtain ⟨h1, h2⟩ := t.timeFrameSent_sends tok d data
  rw [← hl, hout, hwire] at h1
  rw [htq] at h2
  exact .intro hx ⟨h1, _, h2, rfl⟩

theorem timerxSupplies (q : Nat) (d : Desc) (rest : List Desc) (s : State) (hf : (s.ringX q).fetched = d :: rest)
    (hst : s.get F.ringStatusState q = 1) (hty : s.get F.ringCfgType q = 8) :
    Completes (.timerxDescriptor q) s fun r => (r.ringX q).ready = (s.ringX q).ready ++ [d] ∧ (r.ringX q).fetched = rest := by
  have hx : exec (.timerxDescriptor q) s = .next (s.setRingX q { (s.ringX q) with fetched := rest, ready := (s.ringX q).ready ++ [d] }) := by
    show execTimerxDescriptor q s = _
    unfold execTimerxDescriptor
    dsimp only
    rw [hf]
    dsimp only
    rw [if_pos ⟨decide_eq_true hst, hty⟩]
  refine .intro hx ?_
  rw [State.ringX_setRingX, if_pos rfl]
  exact ⟨rfl, rfl⟩

/-- Settles O38: a fuse step, a mail and a time-port descriptor each act on the ring as it stands once the descriptor has begun. -/
theorem fuseMailAndTimeCommands : Obligations.FuseMailAndTimeCommands :=
  ⟨⟨fun _ _ _ _ _ h hb => ⟨fun hd => fuseArmSteps h hb hd, fun hd => fuseConfirmSteps h hb hd⟩, fuseLockedSets⟩,
    mailDescriptors, timetxSends, timerxSupplies⟩

end Sys2Proof.Machine
end

