-- ==== Sys2Proof/Proofs/FlagsAndBulk.lean ====
section
/-!
PROOFS. FlagsAndBulk.lean: the global flags of this device (R284) and BULK transfers (R288); from these O31.
-/
namespace Sys2Proof.Machine
set_option Elab.async false

/-! ### Global flags (R284) -/

theorem State.mem_broadcastOp (s : State) (e : Nat) : e ∈ (s.broadcastOp e).olu.flagOut := by
  unfold State.broadcastOp
  split
  · assumption
  · exact List.mem_append_right _ (List.mem_singleton.2 rfl)

/-- A set or a clear of a global flag that is alone in its tick. -/
theorem State.gfOp_alone {s : State} {i : Nat} (ha : Alone s (.gf i)) (set : Bool) (src : Src) :
    (∀ n < 64, testBit ((s.gfOp i set src true).get F.oluGflagsGf) n = if n = i then set else testBit (s.get F.oluGflagsGf) n)
      ∧ flagEntry (if set then 0 else 1) i ∈ (s.gfOp i set src true).olu.flagOut := by
  have ho := s.broadcastOp_within (flagEntry (if set then 0 else 1) i)
  have hm := s.mem_broadcastOp (flagEntry (if set then 0 else 1) i)
  have hx : s.gfOp i set src true = (s.broadcastOp (flagEntry (if set then 0 else 1) i)).onObj (.gf i) (if set then 4 else 3) (srcRank src) 1
    fun u => u.set F.oluGflagsGf 0 0 (putBit (u.get F.oluGflagsGf) i set) := rfl
  rw [hx]
  generalize s.broadcastOp (flagEntry (if set then 0 else 1) i) = t at ho hm
  rw [State.onObj_alone (ho.alone_of_quiet ha (by decide) (by decide) (by decide) (by decide) (by decide) (by decide))]
  refine ⟨fun n hn => ?_, ?_⟩
  · rw [State.get_set_self _ _ _ _ _ (by decide), State.note_get, ho.get _ _ _ (by decide)]
    have hw : F.oluGflagsGf.width = 64 := rfl
    rw [hw, ← testBit_putBit, testBit_nat, testBit_nat, Nat.testBit_mod_two_pow]
    simp [hn]
  · rw [State.set_olu, State.note_olu]
    exact hm

theorem globalFlags : GlobalFlags := by
  refine ⟨fun i src s _ ha => .intro rfl (State.gfOp_alone ha true src),
    fun i src s _ ha => .intro rfl (State.gfOp_alone ha false src),
    fun src s => .intro (t := s.gfResetOp src true) rfl ?_⟩
  have hk (l : List Nat) (t : State) : Only (2 ^ 242) t (l.foldl (fun u i => u.note ⟨.gf i, 1, srcRank src, 1⟩) t) :=
    foldl_keeps (P := Only (2 ^ 242) t) (fun u i hu => State.note_only _ hu (by decide)) l (.refl _ t)
  have hm := s.mem_broadcastOp (flagEntry 2 0)
  unfold State.gfResetOp
  rw [if_pos rfl]
  generalize s.broadcastOp (flagEntry 2 0) = t at hm ⊢
  dsimp only
  rw [(hk _ _).get _ _ _ (by decide), (hk _ _).olu (by decide), State.set_olu]
  exact ⟨State.get_set_self _ _ _ _ _ (by decide), hm⟩

/-! ### BULK transfers (R288) -/

theorem State.enqueue_bulkTx (s : State) (p : Nat) (f : Frame) (tok : Option Token) : (s.enqueue p f tok).olu.bulkTx = s.olu.bulkTx := by
  unfold State.enqueue
  split
  · unfold State.discardFrames
    rw [State.count_olu]
  · rfl

/-- A transfer that its START opens. -/
theorem State.bulkOpened (u : State) (b : BulkTx) (p chip : Nat) (start : List Nat) :
    (∀ f i j, f.reg = .oluBulkCtrl →
      (State.unicast { u with olu := { u.olu with bulkTx := u.olu.bulkTx ++ [b] } } p chip 4 0 start none).get f i j = u.get f i j)
    ∧ b ∈ (State.unicast { u with olu := { u.olu with bulkTx := u.olu.bulkTx ++ [b] } } p chip 4 0 start none).olu.bulkTx := by
  have ho : Only (2 ^ 250) u { u with olu := { u.olu with bulkTx := u.olu.bulkTx ++ [b] } } := Only.fields (.refl _ u) rfl rfl
  have hb : b ∈ ({ u with olu := { u.olu with bulkTx := u.olu.bulkTx ++ [b] } } : State).olu.bulkTx :=
    List.mem_append_right _ (List.mem_singleton.2 rfl)
  generalize ({ u with olu := { u.olu with bulkTx := u.olu.bulkTx ++ [b] } } : State) = v at ho hb
  have hv := (ho.mono (by decide)).step (State.unicast_within v p chip 4 0 start none) (N := 0x404000000000000000000000000000000000000000000000200000000001000) (by decide)
  refine ⟨fun f i j hf => hv.get _ _ _ (by rw [hf]; decide), ?_⟩
  unfold State.unicast
  rwa [State.enqueue_bulkTx]

/-- The state in which GO has opened a transfer of `l` bytes through port `p`. -/
def State.bulkStarted (s : State) (i l p : Nat) : State :=
  let t := s.set F.oluBulkCtrlLength 0 i l
  let chip := t.get F.oluBulkDstChip 0 i
  let u := (t.set F.oluBulkCtrlBusy 0 i 1).set F.oluBulkCtrlStatus 0 i 0
  let start := i :: 0 :: 0 :: 0 :: (bytesOf (u.get F.oluBulkDstAddress 0 i) 8 ++ bytesOf l 4)
  let b : BulkTx := { chan := i, chip := chip, port := p, src := u.get F.oluBulkSrcAddress 0 i, len := l }
  ({ u with olu := { u.olu with bulkTx := u.olu.bulkTx ++ [b] } }).unicast p chip 4 0 start none

theorem State.bulkGo_routed {s : State} {i p : Nat} (len : Nat) (hbusy : s.bit F.oluBulkCtrlBusy 0 i = false) (hd : s.dramReady = true)
    (hr : s.route (s.get F.oluBulkDstChip 0 i) = some p) : s.bulkGo i len = s.bulkStarted i (min 16777216 (max 16 len) / 16 * 16) p := by
  have ht (l : Nat) : Only 18014398509481984 s (s.set F.oluBulkCtrlLength 0 i l) := State.set_only _ _ _ _ (.refl _ s) (by decide)
  have hdt (l : Nat) : (s.set F.oluBulkCtrlLength 0 i l).dramReady = true := by
    unfold State.dramReady
    rw [(ht l).get _ _ _ (by decide)]
    exact hd
  have hrt (l : Nat) : (s.set F.oluBulkCtrlLength 0 i l).route ((s.set F.oluBulkCtrlLength 0 i l).get F.oluBulkDstChip 0 i) = some p := by
    unfold State.route
    rw [(ht l).get _ _ _ (by decide), (ht l).get _ _ _ (by decide)]
    exact hr
  unfold State.bulkGo
  rw [if_neg (by simp [hbusy])]
  generalize min 16777216 (max 16 len) / 16 * 16 = l
  refine (if_neg (by rw [hdt]; exact Bool.noConfusion)).trans ?_
  rw [hrt l]
  unfold State.bulkStarted
  rfl

theorem State.bulkStarted_reads (s : State) (i p : Nat) {l : Nat} (hl : l < 2 ^ 25) :
    (s.bulkStarted i l p).get F.oluBulkCtrlBusy 0 i = 1 ∧ (s.bulkStarted i l p).get F.oluBulkCtrlLength 0 i = l
      ∧ ∃ b ∈ (s.bulkStarted i l p).olu.bulkTx,
        b.chan = i ∧ b.port = p ∧ b.len = l ∧ b.src = s.get F.oluBulkSrcAddress 0 i ∧ b.next = some 0 := by
  unfold State.bulkStarted
  extract_lets t chip u start b
  have hlen : t.get F.oluBulkCtrlLength 0 i = l := (State.get_set_self _ _ _ _ _ (by decide)).trans (Nat.mod_eq_of_lt hl)
  have hu : Only 18014398509481984 s u :=
    State.set_only _ _ _ _ (State.set_only _ _ _ _ (State.set_only _ _ _ _ (.refl _ s) (by decide)) (by decide)) (by decide)
  have hbu : u.get F.oluBulkCtrlBusy 0 i = 1 :=
    (State.get_set_apart _ _ _ _ _ _ _ _ (by decide) (by decide)).trans (State.get_set_self _ _ _ _ _ (by decide))
  have hlu : u.get F.oluBulkCtrlLength 0 i = l := by
    unfold u
    rw [State.get_set_apart _ _ _ _ _ _ _ _ (by decide) (by decide), State.get_set_apart _ _ _ _ _ _ _ _ (by decide) (by decide), hlen]
  obtain ⟨hget, hmem⟩ := u.bulkOpened b p chip start
  exact ⟨(hget _ _ _ rfl).trans hbu, (hget _ _ _ rfl).trans hlu, b, hmem, rfl, rfl, rfl, hu.get _ _ _ (by decide), rfl⟩

theorem bulkGoStarts (i len n p : Nat) (s : State) (hbusy : s.bit F.oluBulkCtrlBusy 0 i = false) (hd : s.dramReady = true)
    (hn : n = min 16777216 (max 16 len) / 16 * 16) (hr : s.route (s.get F.oluBulkDstChip 0 i) = some p) :
    Completes (.bulkGo i len) s fun t => t.get F.oluBulkCtrlBusy 0 i = 1 ∧ t.get F.oluBulkCtrlLength 0 i = n
      ∧ ∃ b ∈ t.olu.bulkTx, b.chan = i ∧ b.port = p ∧ b.len = n ∧ b.src = s.get F.oluBulkSrcAddress 0 i ∧ b.next = some 0 :=
  .intro (congrArg Host.Outcome.next ((State.bulkGo_routed len hbusy hd hr).trans (hn ▸ rfl))) (s.bulkStarted_reads i p (by omega))

theorem State.bulkEnd_reads {s : State} {i st : Nat} (hst : st < 2 ^ 3) (hu : Unclear s F.oluBulkCtrlDone 0 i) :
    (s.bulkEnd i st).get F.oluBulkCtrlBusy 0 i = 0 ∧ (s.bulkEnd i st).get F.oluBulkCtrlStatus 0 i = st
      ∧ (s.bulkEnd i st).get F.oluBulkCtrlDone 0 i = 1 := by
  unfold State.bulkEnd
  extract_lets t src u
  have ht : Only (2 ^ 250) s t := foldl_keeps (P := Only (2 ^ 250) s) (fun u b hu => hu.step (State.setPortX_within ..) (by decide)) _ (.refl _ s)
  have h0 : Only (2 ^ 250) s u := Only.fields ht rfl rfl
  clear_value u
  have hv : Only 0x400000000000000000000000000000000000000000000000040000000000000 s ((u.set F.oluBulkCtrlBusy 0 i 0).set F.oluBulkCtrlStatus 0 i st) :=
    State.set_only _ _ _ _ (State.set_only _ _ _ _ (h0.mono (by decide)) (by decide)) (by decide)
  have hbusy : ((u.set F.oluBulkCtrlBusy 0 i 0).set F.oluBulkCtrlStatus 0 i st).get F.oluBulkCtrlBusy 0 i = 0 :=
    (State.get_set_apart _ _ _ _ _ _ _ _ (by decide) (by decide)).trans (State.get_set_self _ _ _ _ _ (by decide))
  have hstat : ((u.set F.oluBulkCtrlBusy 0 i 0).set F.oluBulkCtrlStatus 0 i st).get F.oluBulkCtrlStatus 0 i = st :=
    (State.get_set_self _ _ _ _ _ (by decide)).trans (Nat.mod_eq_of_lt hst)
  generalize (u.set F.oluBulkCtrlBusy 0 i 0).set F.oluBulkCtrlStatus 0 i st = v at hv hbusy hstat
  have huv : Unclear v F.oluBulkCtrlDone 0 i := hv.unclear hu (by decide) (by decide) (by decide) (by decide) (State.decider_congr (hv.events (by decide)) _)
  rw [(State.post_within ..).get _ _ _ (by decide), (State.post_within ..).get _ _ _ (by decide),
    (State.post_within ..).get _ _ _ (by decide)]
  exact ⟨(State.get_hwSet_apart _ _ _ _ _ _ _ (by decide) (by decide) (by decide)).trans hbusy,
    (State.get_hwSet_apart _ _ _ _ _ _ _ (by decide) (by decide) (by decide)).trans hstat,
      State.get_hwSet _ _ _ _ huv (by decide) (by decide)⟩

/-- A request of local DRAM leaves the size of local DRAM as it is. -/
theorem State.portRequest_frames (s : State) : s.portRequest.get F.drmInfoFrames = s.get F.drmInfoFrames := by
  unfold State.portRequest State.srExit
  dsimp only
  split
  · exact State.get_of_regs rfl ..
  · refine (State.get_of_regs rfl ..).trans (((State.post_within ..).get _ _ _ (by decide)).trans ?_)
    exact State.get_set_apart _ _ _ _ _ _ _ _ (by decide) (by decide)

theorem State.memByte_of_mem {s t : State} (h : t.mem = s.mem) (x : Nat) : t.memByte x = s.memByte x := by
  unfold State.memByte
  rw [h]

/-- A write that lies in local DRAM stores its bytes, and no others. -/
theorem State.memByte_dramWrite {s : State} {a n : Nat} {l : List Nat} (h : s.inDram a n = true) (hn : n = l.length) (x : Nat) :
    (s.dramWrite a l).memByte x = if a ≤ x ∧ x < a + n then BitVec.ofNat 8 (l.getD (x - a) 0) else s.memByte x := by
  have hm := (s.portRequest_within).mem (by decide)
  have hf : s.portRequest.inDram a l.length = true := by
    unfold State.inDram State.dramEnd at h ⊢
    rw [State.portRequest_frames, ← hn]
    exact h
  unfold State.dramWrite
  dsimp only
  rw [if_pos hf, hn]
  refine Eq.trans ?_ ((State.memByte_putBytes ..).trans (by rw [State.memByte_of_mem hm]))
  exact State.memByte_of_mem rfl x

section
variable {p : Nat} {raw : List Nat} {f : Frame} {s t : State} (h : s.rxFrame p raw = (some f,
  t)) (hc : f.cls = 4) (hd : f.dst = t.get F.oluChipId)
include h hc hd

theorem bulkStartOpens (hs : f.sub = 0) (hr : t.dramReady = true) (hw : t.inBulkWin (field f.payload 4 5) (field f.payload 12 4) = true) :
    Completes (.bulkStart p raw) s fun u =>
      (⟨f.src, field f.payload 0 1 % 4, p, field f.payload 4 5, field f.payload 12 4, 0⟩ : BulkRx) ∈ u.olu.bulkRx := by
  have ho := t.freeBuffer_within p 4
  have hr' : (t.freeBuffer p 4).dramReady = true := by
    unfold State.dramReady at hr ⊢
    rwa [ho.get _ _ _ (by decide)]
  have hw' : (t.freeBuffer p 4).inBulkWin (field f.payload 4 5) (field f.payload 12 4) = true := by
    unfold State.inBulkWin at hw ⊢
    rwa [ho.get _ _ _ (by decide), ho.get _ _ _ (by decide)]
  have hx : exec (.bulkStart p raw) s = execBulkStart p raw s := rfl
  unfold execBulkStart at hx
  rw [h] at hx
  dsimp only at hx
  rw [if_pos ⟨hc, hs, hd⟩, if_pos ⟨hr', hw'⟩] at hx
  exact .intro hx (List.mem_append_right _ (List.mem_singleton.2 rfl))

theorem bulkDoneEnds {i st : Nat} (hs : f.sub = 2) (hi : i = field f.payload 0 1 % 4) (hst : st = field f.payload 1 1 % 8) (hn : st ≠ 3)
    (hb : t.bit F.oluBulkCtrlBusy 0 i = true) (hu : Unclear t F.oluBulkCtrlDone 0 i) :
    Completes (.bulkDone p raw) s fun u => u.get F.oluBulkCtrlBusy 0 i = 0 ∧ u.get F.oluBulkCtrlStatus 0 i = st
      ∧ u.get F.oluBulkCtrlDone 0 i = 1 := by
  have ho := t.freeBuffer_within p 4
  have hx : exec (.bulkDone p raw) s = execBulkDone p raw s := rfl
  unfold execBulkDone at hx
  rw [h] at hx
  dsimp only at hx
  rw [if_pos ⟨hc, hs, hd⟩, ← hi, ← hst, if_neg (fun hh => hn hh.1), ho.bit _ _ _ (by decide), if_pos hb] at hx
  have hlt : st < 2 ^ 3 := hst ▸ Nat.mod_lt _ (by decide)
  have huf : Unclear (t.freeBuffer p 4) F.oluBulkCtrlDone 0 i :=
    ho.unclear hu (by decide) (by decide) (by decide) (by decide) (State.decider_congr (ho.events (by decide)) _)
  generalize t.freeBuffer p 4 = v at hx huf
  exact .intro hx (State.bulkEnd_reads hlt huf)

theorem bulkDataStores {a n : Nat} {b : BulkRx} (hs : f.sub = 1)
    (hb : t.olu.bulkRx.find? (fun b => decide (b.chip = f.src) && decide (b.tag = field f.payload 0 1 % 4)
        && decide (b.next = field f.payload 1 3)) = some b)
    (ha : a = b.base + 48 * b.next) (hn : n = ((f.payload.drop 4).take (min 48 (b.len - 48 * b.next))).length) (hin : t.inDram a n = true) :
    Completes (.bulkData p raw) s fun u => (∀ i < n, u.memByte (a + i) = BitVec.ofNat 8 ((f.payload.drop 4).getD i 0))
        ∧ (∀ x, x < a ∨ a + n ≤ x → u.memByte x = s.memByte x) := by
  have ho := t.freeBuffer_within p 4
  have hnext : b.next = field f.payload 1 3 := by
    have := List.find?_some hb
    simp only [Bool.and_eq_true, decide_eq_true_eq] at this
    exact this.2
  have hx : exec (.bulkData p raw) s = execBulkData p raw s := rfl
  unfold execBulkData at hx
  rw [h] at hx
  dsimp only at hx
  have hrx : (t.freeBuffer p 4).olu.bulkRx = t.olu.bulkRx := rfl
  rw [if_pos ⟨hc, hs, hd⟩, hrx, hb] at hx
  dsimp only at hx
  rw [← hnext, ← ha] at hx
  have hin' : (t.freeBuffer p 4).inDram a n = true := by
    unfold State.inDram State.dramEnd at hin ⊢
    rwa [ho.get _ _ _ (by decide)]
  have hmem := State.memByte_dramWrite hin' hn
  have hs0 : (t.freeBuffer p 4).mem = s.mem := (ho.mem (by decide)).trans ((congrArg Prod.snd h ▸ (s.rxFrame_within p raw).mem (by decide) :))
  generalize (t.freeBuffer p 4).dramWrite a ((f.payload.drop 4).take (min 48 (b.len - 48 * b.next))) = v at hx hmem
  have hread : (∀ i < n, v.memByte (a + i) = BitVec.ofNat 8 ((f.payload.drop 4).getD i 0)) ∧ (∀ x,
    x < a ∨ a + n ≤ x → v.memByte x = s.memByte x) := by
    refine ⟨fun i hi => ?_, fun x hx => ?_⟩
    · rw [hmem, if_pos ⟨by omega, by omega⟩, Nat.add_sub_cancel_left]
      have hl : i < min 48 (b.len - 48 * b.next) := by
        rw [List.length_take] at hn
        omega
      rw [List.getD_eq_getElem?_getD, List.getD_eq_getElem?_getD, List.getElem?_take_of_lt hl]
    · rw [hmem, if_neg (by omega), State.memByte_of_mem hs0]
  have hend {u : State} (hu : u.mem = v.mem) : (∀ i < n, u.memByte (a + i) = BitVec.ofNat 8 ((f.payload.drop 4).getD i 0))
      ∧ (∀ x, x < a ∨ a + n ≤ x → u.memByte x = s.memByte x) :=
    ⟨fun i hi => (State.memByte_of_mem hu _).trans (hread.1 i hi), fun x hx => (State.memByte_of_mem hu _).trans (hread.2 x hx)⟩
  split at hx
  · exact .intro hx (hend ((State.bulkReply_within ..).mem (by decide)))
  · exact .intro hx (hend rfl)

end

theorem bulkTransfers : BulkTransfers :=
  ⟨bulkGoStarts, fun _ _ _ _ _ h hc hs hd hr hw => bulkStartOpens h hc hd hs hr hw,
    fun _ _ _ _ _ _ _ _ h hc hs hd hb ha hn hin => bulkDataStores h hc hd hs hb ha hn hin,
    fun _ _ _ _ _ _ _ h hc hs hd hi hst hn hb hu => bulkDoneEnds h hc hd hs hi hst hn hb hu⟩

/-- Settles O31: each operation on a flag is kept with the FLAG frames of its tick, and each BULK frame acts on its own transfer. -/
theorem flagsAndBulk : Obligations.FlagsAndBulk := ⟨globalFlags, bulkTransfers⟩

end Sys2Proof.Machine
end

