-- ==== Sys2Proof/Proofs/LogAndCapture.lean ====
section
/-!
PROOFS. LogAndCapture.lean: the fail log and capture of a sequencer, their configuration and writers (R170 to R179), and the mirrors of
their entries in host memory; from these O22 and O21.
-/
namespace Sys2Proof.Machine
set_option Elab.async false

/-! ### LOG_CFG and CAP_CFG (R175, R179) -/

/-- What a write of LOG_CFG or CAP_CFG leaves in the register: while its ENABLE or its queue holds it, ENABLE alone is written. -/
def State.cfgWritten (s : State) (n : RegName) (q : Nat) (whole : Prop) [Decidable whole] (v : Word) : State :=
  if whole then s.storeRw ⟨n, q, 0⟩ true v else s.setBit ⟨n, 0, 1⟩ q 0 (testBit v.toNat 0)

theorem bit_zero (v : Word) : bitsOf v 0 1 = (testBit v.toNat 0).toNat := by
  have h2 := Nat.mod_lt v.toNat (show 0 < 2 by decide)
  unfold bitsOf testBit
  rw [Nat.pow_zero, Nat.div_one]
  by_cases h : v.toNat % 2 = 1
  · simp [h]
  · have h0 : v.toNat % 2 = 0 := by omega
    simp [h0]

/-- Bits that are written as they are leave the word as it is. -/
theorem withBits_bitsOf (w : Word) (lo n : Nat) (h : lo + n ≤ 64) : withBits w lo n (bitsOf w lo n) = w := by
  apply BitVec.eq_of_getLsbD_eq
  intro i hi
  rw [BitVec.getLsbD, BitVec.getLsbD, withBits_testBit _ _ _ _ _ h, bitsOf_testBit]
  split
  · next hin => rw [Nat.sub_add_cancel hin.1, decide_eq_true (by omega), Bool.true_and]
  · rfl

theorem cfg_plain {n : RegName} (hn : n = .seqLogCfg ∨ n = .seqCapCfg) :
    n.desc.fields = [⟨0, 1, .rw, .any⟩, ⟨1, 5, .rw, .range 10 28⟩, ⟨6, 1, .rw, .any⟩, ⟨8, 6, .rw, .any⟩, ⟨16, 25, .rw, .any⟩]
    ∧ (∀ e ∈ n.desc.fields, e.plain = true) ∧ n.desc.fields.Pairwise FieldDesc.Apart := by
  rcases hn with rfl | rfl <;> exact ⟨rfl, by decide, by decide⟩

section
variable {n : RegName} (hn : n = .seqLogCfg ∨ n = .seqCapCfg) (s : State) (q : Nat) (whole : Prop) [Decidable whole] (v : Word)
include hn

theorem State.cfgWritten_enable : (s.cfgWritten n q whole v).bit ⟨n, 0, 1⟩ q = testBit v.toNat 0 := by
  obtain ⟨hf, hp, ha⟩ := cfg_plain hn
  have hget : (s.cfgWritten n q whole v).get ⟨n, 0, 1⟩ q = (testBit v.toNat 0).toNat := by
    unfold State.cfgWritten
    split
    · rw [← bit_zero]
      exact State.get_storeRw s ⟨n, 0, 1⟩ q 0 true v (d := ⟨0, 1, .rw, .any⟩) (by rw [hf]; exact .head _) hp ha rfl rfl (by decide)
    · exact State.get_setBit_self _ _ _ _ _ (by show 0 + 1 ≤ 64; decide) (by show 0 < 1; decide)
  unfold State.bit
  rw [hget]
  cases testBit v.toNat 0 <;> rfl

theorem State.cfgWritten_base (h : whole) : (s.cfgWritten n q whole v).get ⟨n, 16, 25⟩ q = bitsOf v 16 25 := by
  obtain ⟨hf, hp, ha⟩ := cfg_plain hn
  unfold State.cfgWritten
  rw [if_pos h]
  exact State.get_storeRw s ⟨n, 16, 25⟩ q 0 true v (d := ⟨16, 25, .rw,
    .any⟩) (by rw [hf]; exact .tail _ (.tail _ (.tail _ (.tail _ (.head _))))) hp ha
    rfl rfl (by decide)

omit hn in
/-- Setting an ENABLE that is set changes nothing in the register. -/
theorem State.cfgWritten_same (h : ¬whole) (hs : s.bit ⟨n, 0, 1⟩ q = true) (hv : testBit v.toNat 0 = true) :
    (s.cfgWritten n q whole v).rd ⟨n, q, 0⟩ = s.rd ⟨n, q, 0⟩ := by
  unfold State.cfgWritten
  rw [if_neg h, hv]
  have h1 : bitsOf (s.rd ⟨n, q, 0⟩) 0 1 = 1 := of_decide_eq_true hs
  show (s.wr ⟨n, q, 0⟩ (withBits (s.rd ⟨n, q, 0⟩) 0 1 1)).rd ⟨n, q, 0⟩ = _
  rw [State.rd_wr_self]
  have := withBits_bitsOf (s.rd ⟨n, q, 0⟩) 0 1 (by decide)
  rwa [h1] at this

omit hn in
theorem State.cfgWritten_logs : (s.cfgWritten n q whole v).logs = s.logs := by
  unfold State.cfgWritten
  split <;> rfl

end

theorem sortBy_length {A : Type} (key : A → Nat) (l : List A) : (sortBy key l).length = l.length := by
  have hins : ∀ (e : A) (l : List A), (insertBy key e l).length = l.length + 1 := by
    intro e l
    induction l with
    | nil => rfl
    | cons x l ih =>
      unfold insertBy
      split
      · rw [List.length_cons, ih, List.length_cons]
      · rfl
  have hfold : ∀ (l acc : List A), (l.foldl (fun acc e => insertBy key e acc) acc).length = acc.length + l.length := by
    intro l
    induction l with
    | nil => exact fun acc => rfl
    | cons x l ih => intro acc; rw [List.foldl_cons, ih, hins, List.length_cons]; omega
  exact (hfold l []).trans (Nat.zero_add _)

theorem State.logX_of_logs {s t : State} (h : t.logs = s.logs) (q : Nat) : t.logX q = s.logX q := by
  unfold State.logX
  rw [h]

section
variable (q : Nat) (v : Word) (s : State)

/-- The whole of LOG_CFG may be written: before the tick ENABLE was 0 and the queue empty (R175). -/
abbrev State.LogCfgOpen : Prop := s.before F.seqLogCfgEnable q = 0 ∧ s.clk.was.log.contains q = false

/-- The whole of CAP_CFG may be written (R179). -/
abbrev State.CapCfgOpen : Prop := s.before F.seqCapCfgEnable q = 0 ∧ s.clk.was.cap.contains q = false

/-- LOG_CFG as it is written, the ring it names counting as new. -/
def State.logCfgStored : State := (s.rearm 2 q).cfgWritten .seqLogCfg q (s.LogCfgOpen q) v

/-- CAP_CFG as it is written, the ring it names counting as new. -/
def State.capCfgStored : State := (s.rearm 3 q).cfgWritten .seqCapCfg q (s.CapCfgOpen q) v

theorem State.logCfgStored_enable : (s.logCfgStored q v).bit F.seqLogCfgEnable q = testBit v.toNat 0 :=
  State.cfgWritten_enable (.inl rfl) ..

theorem State.capCfgStored_enable : (s.capCfgStored q v).bit F.seqCapCfgEnable q = testBit v.toNat 0 :=
  State.cfgWritten_enable (.inr rfl) ..

theorem State.logCfgStored_logX : (s.logCfgStored q v).logX q = s.logX q :=
  (State.logX_of_logs (State.cfgWritten_logs ..) q).trans (State.logX_of_logs rfl q)

theorem State.capCfgStored_logX : (s.capCfgStored q v).logX q = s.logX q :=
  (State.logX_of_logs (State.cfgWritten_logs ..) q).trans (State.logX_of_logs rfl q)

theorem logCfgWrite_performed : exec (.logCfgWrite q v) s = .next (
    if testBit v.toNat 0 = true ∧ s.bit F.seqLogCfgEnable q = false then
      (((s.logCfgStored q v).set F.seqLogPtrWr q 0 0).set F.seqLogPtrRd q 0 0).setLogX q
        { ((s.logCfgStored q v).logX q) with fullPosted := false, mirror := [] }
    else if testBit v.toNat 0 = false ∧ s.bit F.seqLogCfgEnable q = true then (s.logCfgStored q v).doomLog q
    else s.logCfgStored q v) := rfl

theorem capCfgWrite_performed : exec (.capCfgWrite q v) s = .next (
    if testBit v.toNat 0 = true ∧ s.bit F.seqCapCfgEnable q = false then
      (((s.capCfgStored q v).set F.seqCapPtrWr q 0 0).set F.seqCapPtrRd q 0 0).setLogX q
        { ((s.capCfgStored q v).logX q) with capMirror := [] }
    else if testBit v.toNat 0 = false ∧ s.bit F.seqCapCfgEnable q = true then
      let u := (s.capCfgStored q v).closeBlock q
      u.setLogX q { (u.logX q) with capDoomed := (u.logX q).capClosed.length, capRest := [] }
    else s.capCfgStored q v) := rfl

variable {q v s}

/-- Setting ENABLE where it was 0: the ring's indices read 0, and the register is as it is written. -/
theorem logCfgWrite_enables (hs : s.bit F.seqLogCfgEnable q = false) (hv : testBit v.toNat 0 = true) :
    Completes (.logCfgWrite q v) s fun t => t.bit F.seqLogCfgEnable q = true ∧ t.get F.seqLogPtrWr q = 0
      ∧ t.get F.seqLogPtrRd q = 0 ∧ t.get F.seqLogCfgBasePage q = (s.logCfgStored q v).get F.seqLogCfgBasePage q
      ∧ (t.logX q).queue = (s.logX q).queue := by
  refine .intro ((logCfgWrite_performed q v s).trans (congrArg _ (if_pos ⟨hv, hs⟩))) ?_
  have he := (State.logCfgStored_enable q v s).trans hv
  have hx := congrArg LogX.queue (State.logCfgStored_logX q v s)
  generalize s.logCfgStored q v = t at he hx ⊢
  have ho : Only 0x40000000000020000000000000000000000000000000000000000000000000000 t (((t.set F.seqLogPtrWr q 0 0).set F.seqLogPtrRd q 0 0).setLogX q { (t.logX q) with fullPosted := false, mirror := [] }) :=
    State.setLogX_only _ _ (State.set_only _ _ _ _ (State.set_only _ _ _ _ (.refl _ t) (by decide)) (by decide)) (by decide)
  refine ⟨(ho.bit _ _ _ (by decide)).trans he, ?_, ?_, ho.get _ _ _ (by decide), ?_⟩
  · exact (State.get_of_regs rfl ..).trans (by simp (disch := decide))
  · exact (State.get_of_regs rfl ..).trans (by simp (disch := decide))
  · rw [State.logX_setLogX, if_pos rfl]
    exact hx

theorem capCfgWrite_enables (hs : s.bit F.seqCapCfgEnable q = false) (hv : testBit v.toNat 0 = true) :
    Completes (.capCfgWrite q v) s fun t => t.bit F.seqCapCfgEnable q = true ∧ t.get F.seqCapPtrWr q = 0
      ∧ t.get F.seqCapPtrRd q = 0 ∧ t.get F.seqCapCfgBasePage q = (s.capCfgStored q v).get F.seqCapCfgBasePage q := by
  refine .intro ((capCfgWrite_performed q v s).trans (congrArg _ (if_pos ⟨hv, hs⟩))) ?_
  have he := (State.capCfgStored_enable q v s).trans hv
  generalize s.capCfgStored q v = t at he ⊢
  have ho : Only 0x40000000000100000000000000000000000000000000000000000000000000000 t (((t.set F.seqCapPtrWr q 0 0).set F.seqCapPtrRd q 0 0).setLogX q { (t.logX q) with capMirror := [] }) :=
    State.setLogX_only _ _ (State.set_only _ _ _ _ (State.set_only _ _ _ _ (.refl _ t) (by decide)) (by decide)) (by decide)
  refine ⟨(ho.bit _ _ _ (by decide)).trans he, ?_, ?_, ho.get _ _ _ (by decide)⟩
  · exact (State.get_of_regs rfl ..).trans (by simp (disch := decide))
  · exact (State.get_of_regs rfl ..).trans (by simp (disch := decide))

theorem State.doomLog_reads (t : State) (q : Nat) : ((t.doomLog q).logX q).summaries = []
    ∧ (∃ l, ((t.doomLog q).logX q).queue = (t.logX q).queue ++ l ∧ l.length = (t.logX q).summaries.length)
    ∧ ((t.doomLog q).logX q).doomed = ((t.doomLog q).logX q).queue.length := by
  unfold State.doomLog
  rw [State.logX_setLogX, if_pos rfl]
  exact ⟨rfl, ⟨_, rfl, by rw [List.length_map, sortBy_length]⟩, rfl⟩

/-- Clearing ENABLE closes the open summaries behind what is queued, and condemns all of it. -/
theorem logCfgWrite_disables (hs : s.bit F.seqLogCfgEnable q = true) (hv : testBit v.toNat 0 = false) :
    Completes (.logCfgWrite q v) s fun t => t.bit F.seqLogCfgEnable q = false ∧ (t.logX q).summaries = []
      ∧ (∃ l, (t.logX q).queue = (s.logX q).queue ++ l ∧ l.length = (s.logX q).summaries.length)
      ∧ (t.logX q).doomed = (t.logX q).queue.length := by
  refine .intro ((logCfgWrite_performed q v s).trans (congrArg _ ((if_neg (by simp [hv])).trans (if_pos ⟨hv, hs⟩)))) ?_
  have h := State.doomLog_reads (s.logCfgStored q v) q
  rw [State.logCfgStored_logX] at h
  exact ⟨(((State.logCfgStored q v s).doomLog_within q).bit _ _ _ (by decide)).trans ((State.logCfgStored_enable q v s).trans hv), h⟩

/-- The open block closes behind the blocks that are closed. -/
theorem State.closeBlock_reads (t : State) (q : Nat) : ((t.closeBlock q).logX q).capOpen = none
    ∧ ((t.closeBlock q).logX q).capClosed = (t.logX q).capClosed ++ (t.logX q).capOpen.toList := by
  unfold State.closeBlock
  dsimp only
  split
  · next b hb => rw [State.logX_setLogX, if_pos rfl]; exact ⟨rfl, by rw [hb]; rfl⟩
  · next hb => exact ⟨hb, by rw [hb]; exact (List.append_nil _).symm⟩

theorem capCfgWrite_disables (hs : s.bit F.seqCapCfgEnable q = true) (hv : testBit v.toNat 0 = false) :
    Completes (.capCfgWrite q v) s fun t => t.bit F.seqCapCfgEnable q = false ∧ (t.logX q).capOpen = none
      ∧ (t.logX q).capClosed = (s.logX q).capClosed ++ (s.logX q).capOpen.toList
      ∧ (t.logX q).capDoomed = (t.logX q).capClosed.length := by
  refine .intro ((capCfgWrite_performed q v s).trans (congrArg _ ((if_neg (by simp [hv])).trans (if_pos ⟨hv, hs⟩)))) ?_
  have h := State.closeBlock_reads (s.capCfgStored q v) q
  rw [State.capCfgStored_logX] at h
  have ho := ((State.capCfgStored q v s).closeBlock_within q).bit F.seqCapCfgEnable q 0 (by decide)
  dsimp only
  rw [State.logX_setLogX, if_pos rfl]
  exact ⟨((State.setLogX_within ..).bit _ _ _ (by decide)).trans (ho.trans ((State.capCfgStored_enable q v s).trans hv)), h.1, h.2,
    rfl⟩

/-- A write that leaves ENABLE as it is leaves the log as it is. -/
theorem logCfgWrite_stores (h : s.bit F.seqLogCfgEnable q = testBit v.toNat 0) :
    exec (.logCfgWrite q v) s = .next (s.logCfgStored q v) := by
  refine (logCfgWrite_performed q v s).trans (congrArg _ ((if_neg ?_).trans (if_neg ?_))) <;> rw [h] <;> simp

theorem capCfgWrite_stores (h : s.bit F.seqCapCfgEnable q = testBit v.toNat 0) :
    exec (.capCfgWrite q v) s = .next (s.capCfgStored q v) := by
  refine (capCfgWrite_performed q v s).trans (congrArg _ ((if_neg ?_).trans (if_neg ?_))) <;> rw [h] <;> simp

end

theorem logEnable : LogEnable := by
  refine ⟨fun q v s hs hb hw hv => ?_, fun q v s hs hv => logCfgWrite_disables hs hv, fun q v s hs hb hv => ?_,
    fun q v s hs hb hw hv => ?_⟩
  · refine (logCfgWrite_enables hs hv).mono fun t ⟨he, hwr, hrd, hbase, hq⟩ => ⟨he, hwr, hrd, hbase.trans ?_, hq⟩
    exact State.cfgWritten_base (.inl rfl) _ q _ v ⟨hb, hw⟩
  · refine .intro (logCfgWrite_stores (hs.trans hv.symm)) ⟨?_, State.logCfgStored_logX q v s⟩
    exact State.cfgWritten_same (s.rearm 2 q) q _ v (fun h => absurd (hb.symm.trans h.1) (by decide)) hs hv
  · refine .intro (logCfgWrite_stores (hs.trans hv.symm)) ⟨(State.logCfgStored_enable q v s).trans hv, ?_,
    State.logCfgStored_logX q v s⟩
    exact State.cfgWritten_base (.inl rfl) _ q _ v ⟨hb, hw⟩

theorem captureEnable : CaptureEnable := by
  refine ⟨fun q v s hs hb hw hv => ?_, fun q v s hs hv => capCfgWrite_disables hs hv, fun q v s hs hb hv => ?_,
    fun q v s hs hb hw hv => ?_⟩
  · refine (capCfgWrite_enables hs hv).mono fun t ⟨he, hwr, hrd, hbase⟩ => ⟨he, hwr, hrd, hbase.trans ?_⟩
    exact State.cfgWritten_base (.inr rfl) _ q _ v ⟨hb, hw⟩
  · refine .intro (capCfgWrite_stores (hs.trans hv.symm)) ⟨?_, State.capCfgStored_logX q v s⟩
    exact State.cfgWritten_same (s.rearm 3 q) q _ v (fun h => absurd (hb.symm.trans h.1) (by decide)) hs hv
  · refine .intro (capCfgWrite_stores (hs.trans hv.symm)) ⟨(State.capCfgStored_enable q v s).trans hv, ?_,
    State.capCfgStored_logX q v s⟩
    exact State.cfgWritten_base (.inr rfl) _ q _ v ⟨hb, hw⟩

/-! ### The capture writer (R177) -/

/-- Bytes that are read one by one. -/
theorem State.memBytes_eq {s : State} {l : List Nat} {a : Nat} (h : ∀ i < l.length, (s.memByte (a + i)).toNat = l.getD i 0) :
    s.memBytes a l.length = l := by
  induction l generalizing a with
  | nil => rfl
  | cons b l ih =>
    rw [List.length_cons, State.memBytes, ih]
    · exact congrArg (· :: l) (h 0 (by simp))
    · intro i hi
      have := h (i + 1) (by simpa using hi)
      rwa [show a + (i + 1) = a + 1 + i by omega, List.getD_cons_succ] at this

theorem bytesOf_length (v n : Nat) : (bytesOf v n).length = n := by
  induction n generalizing v with
  | zero => rfl
  | succ n ih => rw [bytesOf, List.length_cons, ih]

theorem bytesOf_lt (v n : Nat) : ∀ b ∈ bytesOf v n, b < 256 := by
  induction n generalizing v with
  | zero => simp [bytesOf]
  | succ n ih =>
    rw [bytesOf, List.forall_mem_cons]
    exact ⟨Nat.mod_lt _ (by decide), ih _⟩

theorem wordBytes_length (ws : List Word) : (wordBytes ws).length = 8 * ws.length := by
  induction ws with
  | nil => rfl
  | cons w ws ih => rw [wordBytes, List.length_append, bytesOf_length, ih, List.length_cons]; omega

theorem wordBytes_lt (ws : List Word) : ∀ b ∈ wordBytes ws, b < 256 := by
  induction ws with
  | nil => simp [wordBytes]
  | cons w ws ih =>
    rw [wordBytes]
    intro b hb
    exact (List.mem_append.1 hb).elim (bytesOf_lt _ _ b) (ih b)

/-- Where the bytes of `l` are written, they are read back. -/
theorem State.memBytes_of_written {s : State} {l : List Nat} {a : Nat} (hl : ∀ b ∈ l, b < 256)
    (h : ∀ i < l.length, s.memByte (a + i) = BitVec.ofNat 8 (l.getD i 0)) : s.memBytes a l.length = l := by
  refine State.memBytes_eq fun i hi => ?_
  rw [h i hi, BitVec.toNat_ofNat]
  refine Nat.mod_eq_of_lt (hl _ ?_)
  rw [List.getD_eq_getElem _ _ hi]
  exact List.getElem_mem hi

/-- WR of the capture ring of SEQ[q] moves past word `w`, which its mirror takes. -/
def State.capPast (t : State) (q w v : Nat) : State :=
  let u := t.set F.seqCapPtrWr q 0 v
  if u.bit F.seqCapCfgMirrorEn q then u.setLogX q { u.logX q with capMirror := (u.logX q).capMirror ++ [w] } else u

/-- One word in the capture ring of SEQ[q]. -/
def State.capWord (s : State) (q w : Nat) : State :=
  (s.dramWrite (s.get F.seqCapCfgBasePage q * 4096 + s.get F.seqCapPtrWr q * 8) (bytesOf w 8)).capPast q w
    ((s.get F.seqCapPtrWr q + 1) % 2 ^ s.get F.seqCapCfgSize q)

theorem State.writeCap_cons (s : State) (q w : Nat) (ws : List Nat) : s.writeCap q (w :: ws) = (s.capWord q w).writeCap q ws := rfl

theorem State.capWord_within (s : State) (q w : Nat) : Only 0x240944000000100000000000000000000000000000000000002000000000145000 s (s.capWord q w) := s.writeCap_within q [w]

theorem State.two_pow_size (s : State) (f : Fld) (hf : f.width = 5) (q x : Nat) : x % 2 ^ s.get f q < 2 ^ 32 := by
  have h5 : s.get f q < 2 ^ 5 := hf ▸ s.get_lt f q 0
  exact (Nat.mod_lt _ (Nat.two_pow_pos _)).trans_le (Nat.pow_le_pow_right (by decide) (by omega))

/-- Only the words to mirror of a sequencer's log and capture may change. -/
def LogX.SameButMirror (x y : LogX) : Prop := ∃ m, y = { x with capMirror := m }

section
variable (t : State) (q w v : Nat)

theorem State.capPast_within : Only 0x40000000000100000000000000000000000000000000000000000000000000000 t (t.capPast q w v) := by
  unfold State.capPast
  dsimp only
  exact .ite (fun _ => State.setLogX_only _ _ (State.set_only _ _ _ _ (.refl _ t) (by decide)) (by decide)) (fun _ => State.set_only _ _ _ _ (.refl _ t) (by decide))

theorem State.capPast_wr (hv : v < 2 ^ 32) : (t.capPast q w v).get F.seqCapPtrWr q = v := by
  have hset : (t.set F.seqCapPtrWr q 0 v).get F.seqCapPtrWr q = v := (State.get_set_self _ _ _ _ _ (by decide)).trans (Nat.mod_eq_of_lt hv)
  unfold State.capPast
  dsimp only
  split
  · exact ((State.setLogX_within ..).get _ _ _ (by decide)).trans hset
  · exact hset

theorem State.capPast_logX : (t.logX q).SameButMirror ((t.capPast q w v).logX q) := by
  have hset := State.logX_of_logs (t.set_logs F.seqCapPtrWr q 0 v) q
  unfold State.capPast
  dsimp only
  split
  · rw [State.logX_setLogX, if_pos rfl, hset]
    exact ⟨_, rfl⟩
  · rw [hset]
    exact ⟨_, rfl⟩

end

section
variable (s : State) (q w : Nat)

theorem State.capWord_wr : (s.capWord q w).get F.seqCapPtrWr q = (s.get F.seqCapPtrWr q + 1) % 2 ^ s.get F.seqCapCfgSize q :=
  State.capPast_wr _ q w _ (s.two_pow_size F.seqCapCfgSize rfl ..)

theorem State.capWord_logX : (s.logX q).SameButMirror ((s.capWord q w).logX q) := by
  rw [← State.logX_of_logs ((s.dramWrite_within _ _).logs (by decide)) q]
  exact State.capPast_logX ..

/-- A word in the capture ring is stored at WR, and nothing else of local DRAM changes. -/
theorem State.capWord_mem {a : Nat} (ha : a = s.get F.seqCapCfgBasePage q * 4096 + s.get F.seqCapPtrWr q * 8) (h : s.inDram a 8 = true) (x : Nat) :
    (s.capWord q w).memByte x = if a ≤ x ∧ x < a + 8 then BitVec.ofNat 8 ((bytesOf w 8).getD (x - a) 0) else s.memByte x := by
  unfold State.capWord
  rw [← ha]
  exact (State.memByte_of_mem ((State.capPast_within ..).mem (by decide)) x).trans (State.memByte_dramWrite h (bytesOf_length w 8).symm x)

omit s q w in
theorem State.putBytes_regs (s : State) (a : Nat) (l : List Nat) : (s.putBytes a l).regs = s.regs := by
  induction l generalizing s a with
  | nil => rfl
  | cons b l ih => exact (ih ..).trans rfl

omit q w in
/-- A write to local DRAM leaves its size as it is. -/
theorem State.dramWrite_frames (a : Nat) (l : List Nat) : (s.dramWrite a l).get F.drmInfoFrames = s.get F.drmInfoFrames := by
  unfold State.dramWrite
  dsimp only
  split
  · exact (State.get_of_regs (s := s.portRequest) (State.putBytes_regs ..) ..).trans s.portRequest_frames
  · refine Eq.trans ?_ s.portRequest_frames
    exact State.get_count_apart _ _ _ _ _ _ _ _ _ (by decide) (by decide) (by decide) (by decide) (by decide)

theorem State.capWord_dramEnd : (s.capWord q w).dramEnd = s.dramEnd :=
  congrArg (· * 67108864) (((State.capPast_within ..).get F.drmInfoFrames 0 0 (by decide)).trans (s.dramWrite_frames _ _))

end

section
variable (q : Nat) (ws : List Nat)

theorem State.writeCap_logX (s : State) : (s.logX q).SameButMirror ((s.writeCap q ws).logX q) := by
  induction ws generalizing s with
  | nil => exact ⟨_, rfl⟩
  | cons w ws ih =>
    obtain ⟨m, hm⟩ := s.capWord_logX q w
    obtain ⟨m', hm'⟩ := ih (s.capWord q w)
    exact ⟨m', by rw [State.writeCap_cons, hm', hm]⟩

/-- WR is past the words that are written. -/
theorem State.writeCap_wr (s : State) (w : Nat) : (s.writeCap q (w :: ws)).get F.seqCapPtrWr q
    = (s.get F.seqCapPtrWr q + (ws.length + 1)) % 2 ^ s.get F.seqCapCfgSize q := by
  induction ws generalizing s w with
  | nil => exact s.capWord_wr q w
  | cons v ws ih =>
    rw [State.writeCap_cons, ih, s.capWord_wr, (s.capWord_within q w).get _ _ _ (by decide), Nat.mod_add_mod, List.length_cons]
    congr 1
    omega

/-- The word after the first goes to the next address of the ring. -/
theorem capAddr_capWord (s : State) (q w i : Nat) : capAddr (s.capWord q w) q i = capAddr s q (i + 1) := by
  unfold capAddr
  rw [s.capWord_wr, (s.capWord_within q w).get _ _ _ (by decide), (s.capWord_within q w).get _ _ _ (by decide), Nat.mod_add_mod,
    Nat.add_right_comm, Nat.add_assoc]

/-- Fewer words than the ring has lie apart from its first. -/
theorem capAddr_apart {s : State} {q i : Nat} (hwr : s.get F.seqCapPtrWr q < 2 ^ s.get F.seqCapCfgSize q) (hi : 0 < i)
    (hn : i < 2 ^ s.get F.seqCapCfgSize q) : capAddr s q i + 8 ≤ capAddr s q 0 ∨ capAddr s q 0 + 8 ≤ capAddr s q i := by
  unfold capAddr
  generalize s.get F.seqCapPtrWr q = r, 2 ^ s.get F.seqCapCfgSize q = n at hwr hn ⊢
  rw [Nat.mod_eq_of_lt (show r + 0 < n from hwr)]
  rcases Nat.lt_or_ge (r + i) n with h | h
  · rw [Nat.mod_eq_of_lt h]; omega
  · rw [Nat.mod_eq_sub_mod h, Nat.mod_eq_of_lt (by omega)]; omega

theorem capAddr_zero {s : State} {q : Nat} (hwr : s.get F.seqCapPtrWr q < 2 ^ s.get F.seqCapCfgSize q) :
    capAddr s q 0 = s.get F.seqCapCfgBasePage q * 4096 + s.get F.seqCapPtrWr q * 8 := by
  unfold capAddr
  rw [Nat.add_zero, Nat.mod_eq_of_lt hwr]

/-- Words that fit in the ring are stored from WR on, modulo its size, and nothing else of local DRAM changes. -/
theorem State.writeCap_mem (s : State) (hwr : s.get F.seqCapPtrWr q < 2 ^ s.get F.seqCapCfgSize q)
    (hn : ws.length < 2 ^ s.get F.seqCapCfgSize q) (hin : ∀ i, s.inDram (capAddr s q i) 8 = true) :
    (∀ i < ws.length, ∀ k < 8, (s.writeCap q ws).memByte (capAddr s q i + k) = BitVec.ofNat 8 ((bytesOf (ws.getD i 0) 8).getD k 0))
    ∧ ∀ x, (∀ i < ws.length, x < capAddr s q i ∨ capAddr s q i + 8 ≤ x) → (s.writeCap q ws).memByte x = s.memByte x := by
  induction ws generalizing s with
  | nil => exact ⟨fun i hi => absurd hi (Nat.not_lt_zero i), fun x _ => rfl⟩
  | cons w ws ih =>
    have hmem := s.capWord_mem q w (capAddr_zero hwr) (hin 0)
    have hsize := (s.capWord_within q w).get F.seqCapCfgSize q 0 (by decide)
    have haddr := capAddr_capWord s q w
    obtain ⟨hwords, hframe⟩ := ih (s.capWord q w) (by rw [s.capWord_wr, hsize]; exact Nat.mod_lt _ (Nat.two_pow_pos _))
      (by rw [hsize]; exact Nat.lt_of_succ_lt hn) (fun i => by
        rw [haddr, State.inDram, s.capWord_dramEnd]
        exact hin (i + 1))
    simp only [haddr] at hwords hframe
    rw [State.writeCap_cons]
    refine ⟨fun i hi k hk => ?_, fun x hx => ?_⟩
    · cases i with
      | zero =>
        rw [hframe _ fun j hj => ?_, hmem, if_pos (by omega), Nat.add_sub_cancel_left]
        · rfl
        · have := capAddr_apart (i := j + 1) hwr (Nat.succ_pos j) (show j + 1 < _ from Nat.lt_of_le_of_lt hj (Nat.lt_of_succ_lt hn))
          omega
      | succ i => exact hwords i (Nat.lt_of_succ_lt_succ hi) k hk
    · rw [hframe x fun j hj => hx (j + 1) (Nat.succ_lt_succ hj), hmem, if_neg]
      have := hx 0 (Nat.succ_pos _)
      omega

end

theorem CapBlk.all_length (b : CapBlk) (q : Nat) : (b.all q).length = b.words.length + 2 := rfl

section
variable {q : Nat} {s : State} (ho : (s.logX q).capOpen = none) (hr : (s.logX q).capRest = [])
include ho hr

/-- With no open block, the capture writer looks at what is closed. -/
theorem captureBlockWrite_empty (hc : (s.logX q).capClosed = []) : Completes (.captureBlockWrite q) s fun t => t = s := by
  refine .intro (t := s) ?_ rfl
  show Host.Outcome.next (s.captureBlockWrite q) = _
  have ht : s.capTimeout q = s := by unfold State.capTimeout; rw [ho]
  unfold State.captureBlockWrite
  rw [ht]
  dsimp only
  rw [hr, hc]

/-- A closed block that the ring has room for is written whole. -/
theorem captureBlockWrite_whole {b : CapBlk} {rest : List CapBlk} (hc : (s.logX q).capClosed = b :: rest) (hd : (s.logX q).capDoomed = 0)
    (hdr : s.dramReady = true) (hf : b.words.length + 2 ≤ s.capFree q) :
    exec (.captureBlockWrite q) s = .next ((s.setLogX q { s.logX q with capClosed := rest }).writeCap q (b.all q)) := by
  show Host.Outcome.next (s.captureBlockWrite q) = _
  have ht : s.capTimeout q = s := by unfold State.capTimeout; rw [ho]
  unfold State.captureBlockWrite
  rw [ht]
  dsimp only
  rw [hr, hc]
  dsimp only
  rw [if_neg (by omega), if_pos ⟨hdr, hf⟩]

/-- The block leaves the closed blocks, and WR is past it. -/
theorem captureBlockWrite_advances {b : CapBlk} {rest : List CapBlk} (hc : (s.logX q).capClosed = b :: rest) (hd : (s.logX q).capDoomed = 0)
    (hdr : s.dramReady = true) (hf : b.words.length + 2 ≤ s.capFree q) :
    Completes (.captureBlockWrite q) s fun t => (t.logX q).capClosed = rest
      ∧ t.get F.seqCapPtrWr q = (s.get F.seqCapPtrWr q + (b.words.length + 2)) % 2 ^ s.get F.seqCapCfgSize q := by
  refine .intro (captureBlockWrite_whole ho hr hc hd hdr hf) ⟨?_, ?_⟩
  · obtain ⟨m, hm⟩ := State.writeCap_logX q (b.all q) (s.setLogX q { s.logX q with capClosed := rest })
    rw [hm, State.logX_setLogX, if_pos rfl]
  · refine (State.writeCap_wr q _ _ _).trans ?_
    rw [(State.setLogX_within ..).get _ _ _ (by decide), (State.setLogX_within ..).get _ _ _ (by decide)]
    rfl

end

theorem captureWriterWritesOneBlock : CaptureWriterWritesOneBlock := by
  refine ⟨fun q b rest s ho hr hc hd hdr hf hwr hin => ?_, fun q s => captureBlockWrite_empty⟩
  have hx := captureBlockWrite_whole ho hr hc hd hdr hf
  obtain ⟨t, ht, hclosed, hptr⟩ := captureBlockWrite_advances ho hr hc hd hdr hf
  rw [hx] at ht
  injection ht with ht
  subst ht
  have hset := State.setLogX_within s q { s.logX q with capClosed := rest }
  have haddr (i : Nat) : capAddr (s.setLogX q { s.logX q with capClosed := rest }) q i = capAddr s q i := rfl
  have hlen : (b.all q).length < 2 ^ s.get F.seqCapCfgSize q := by
    rw [b.all_length]
    have := Nat.two_pow_pos (s.get F.seqCapCfgSize q)
    unfold State.capFree at hf
    dsimp only at hf
    omega
  obtain ⟨hwords, hframe⟩ := State.writeCap_mem q (b.all q) (s.setLogX q { s.logX q with capClosed := rest }) hwr hlen hin
  simp only [haddr] at hwords hframe
  refine .intro hx ⟨hclosed, hptr, fun i hi => ?_, hframe⟩
  have hb := State.memBytes_of_written (bytesOf_lt ((b.all q).getD i 0) 8) (fun k hk => hwords i hi k (by rwa [bytesOf_length] at hk))
  rwa [bytesOf_length] at hb

/-- Settles O22: the register as it is written, and the block word by word from WR on. -/
theorem logAndCaptureSetup : Obligations.LogAndCaptureSetup := ⟨⟨logEnable, captureEnable⟩, captureWriterWritesOneBlock⟩

/-! ### The log writer (R170, R173) -/

/-- WR of the log ring of SEQ[q] moves past a record, which its mirror takes, and the ring may be full. -/
def State.logPast (t : State) (q : Nat) (ws : List Word) (v : Nat) : State :=
  let u := t.set F.seqLogPtrWr q 0 v
  (if u.bit F.seqLogCfgMirrorEn q then u.setLogX q { u.logX q with mirror := (u.logX q).mirror ++ [ws] } else u).tellFull q

theorem State.writeLog_eq (s : State) (q : Nat) (ws : List Word) : s.writeLog q ws
    = (s.dramWrite (s.get F.seqLogCfgBasePage q * 4096 + s.get F.seqLogPtrWr q * 32) (wordBytes ws)).logPast q ws
      ((s.get F.seqLogPtrWr q + 1) % 2 ^ s.get F.seqLogCfgSize q) := rfl

/-- Only what a log tells its mirror and the host of the sequencer's log and capture may change. -/
def LogX.SameButTold (x y : LogX) : Prop := ∃ m f, y = { x with mirror := m, fullPosted := f }

section
variable (t : State) (q : Nat) (ws : List Word) (v : Nat)

theorem State.tellFull_logX : (t.logX q).SameButTold ((t.tellFull q).logX q) := by
  unfold State.tellFull
  split
  · rw [State.logX_of_logs ((State.post_within ..).logs (by decide)), State.logX_setLogX, if_pos rfl]
    exact ⟨_, _, rfl⟩
  · exact ⟨_, _, rfl⟩

theorem State.logPast_within : Only 0x40844000000020000000000000000000000000000000000000000000000145000 t (t.logPast q ws v) := by
  have hset : Only 0x40844000000020000000000000000000000000000000000000000000000145000 t (t.set F.seqLogPtrWr q 0 v) := State.set_only _ _ _ _ (.refl _ t) (by decide)
  unfold State.logPast
  dsimp only
  refine .step ?_ (State.tellFull_within ..) (by decide)
  exact .ite (fun _ => State.setLogX_only _ _ hset (by decide)) (fun _ => hset)

theorem State.logPast_wr (hv : v < 2 ^ 32) : (t.logPast q ws v).get F.seqLogPtrWr q = v := by
  have hset : (t.set F.seqLogPtrWr q 0 v).get F.seqLogPtrWr q = v := (State.get_set_self _ _ _ _ _ (by decide)).trans (Nat.mod_eq_of_lt hv)
  unfold State.logPast
  refine ((State.tellFull_within ..).get _ _ _ (by decide)).trans ?_
  split
  · exact ((State.setLogX_within ..).get _ _ _ (by decide)).trans hset
  · exact hset

theorem State.logPast_logX : (t.logX q).SameButTold ((t.logPast q ws v).logX q) := by
  have hset := State.logX_of_logs (t.set_logs F.seqLogPtrWr q 0 v) q
  unfold State.logPast
  generalize t.set F.seqLogPtrWr q 0 v = u at hset ⊢
  dsimp only
  obtain ⟨m, f, hf⟩ := State.tellFull_logX (if u.bit F.seqLogCfgMirrorEn q then u.setLogX q { u.logX q with mirror := (u.logX q).mirror ++ [ws] } else u) q
  rw [hf, ← hset]
  refine ⟨m, f, ?_⟩
  split
  · rw [State.logX_setLogX, if_pos rfl]
  · rfl

end

theorem State.writeLog_logX (s : State) (q : Nat) (ws : List Word) : (s.logX q).SameButTold ((s.writeLog q ws).logX q) := by
  rw [State.writeLog_eq, ← State.logX_of_logs ((s.dramWrite_within _ _).logs (by decide)) q]
  exact State.logPast_logX ..

theorem State.writeLog_wr (s : State) (q : Nat) (ws : List Word) :
    (s.writeLog q ws).get F.seqLogPtrWr q = (s.get F.seqLogPtrWr q + 1) % 2 ^ s.get F.seqLogCfgSize q :=
  State.logPast_wr _ q ws _ (s.two_pow_size F.seqLogCfgSize rfl ..)

/-- A record in the log ring is stored at WR, and nothing else of local DRAM changes. -/
theorem State.writeLog_mem {s : State} {q a : Nat} {ws : List Word} (hw : ws.length = 4)
    (ha : a = s.get F.seqLogCfgBasePage q * 4096 + s.get F.seqLogPtrWr q * 32) (h : s.inDram a 32 = true) (x : Nat) :
    (s.writeLog q ws).memByte x = if a ≤ x ∧ x < a + 32 then BitVec.ofNat 8 ((wordBytes ws).getD (x - a) 0) else s.memByte x := by
  rw [State.writeLog_eq, ← ha]
  exact (State.memByte_of_mem ((State.logPast_within ..).mem (by decide)) x).trans
    (State.memByte_dramWrite h (by rw [wordBytes_length, hw]) x)

/-- The log of SEQ[q] without the head of its queue. -/
def State.logUnqueued (s : State) (q : Nat) (rest : List (List Word)) : State :=
  s.setLogX q { s.logX q with queue := rest, doomed := (s.logX q).doomed - 1 }

/-- With nothing condemned and no summary open, the head of the queue is written and no more. -/
theorem State.serveLog_writes {s : State} {q : Nat} {w : List Word} {rest : List (List Word)} (hq : (s.logX q).queue = w :: rest)
    (hd : (s.logX q).doomed = 0) (hs : (s.logX q).summaries = []) : s.serveLog q = (s.logUnqueued q rest).writeLog q w := by
  have hu : (((s.logUnqueued q rest).writeLog q w).logX q).summaries = [] := by
    obtain ⟨m, f, hf⟩ := (s.logUnqueued q rest).writeLog_logX q w
    rw [hf, State.logUnqueued, State.logX_setLogX, if_pos rfl]
    exact hs
  unfold State.serveLog
  dsimp only
  rw [hq]
  dsimp only
  rw [if_neg (c := 0 < (s.logX q).doomed) (by omega)]
  exact if_neg fun h => h.2 hu

/-- The queue's head is in the ring, at WR, and WR is past it. -/
theorem State.serveLog_reads {s : State} {q a : Nat} {w : List Word} {rest : List (List Word)} (hq : (s.logX q).queue = w :: rest)
    (hd : (s.logX q).doomed = 0) (hs : (s.logX q).summaries = []) (hw : w.length = 4)
    (ha : a = s.get F.seqLogCfgBasePage q * 4096 + s.get F.seqLogPtrWr q * 32) (hin : s.inDram a 32 = true) :
    (s.serveLog q).memBytes a 32 = wordBytes w ∧ ((s.serveLog q).logX q).queue = rest
      ∧ (s.serveLog q).get F.seqLogPtrWr q = (s.get F.seqLogPtrWr q + 1) % 2 ^ s.get F.seqLogCfgSize q
      ∧ (s.serveLog q).logTurn = s.logTurn ∧ ∀ x, x < a ∨ a + 32 ≤ x → (s.serveLog q).memByte x = s.memByte x := by
  rw [State.serveLog_writes hq hd hs]
  have ho : Only 0x40000000000000000000000000000000000000000000000000000000000000000 s (s.logUnqueued q rest) := State.setLogX_within ..
  have hx : ((s.logUnqueued q rest).logX q).queue = rest := by rw [State.logUnqueued, State.logX_setLogX, if_pos rfl]
  have hm := State.memByte_of_mem (ho.mem (by decide))
  have hptr := ho.get F.seqLogPtrWr q 0 (by decide)
  have hsize := ho.get F.seqLogCfgSize q 0 (by decide)
  rw [← ho.get _ _ _ (by decide), ← hptr] at ha
  have hin' : (s.logUnqueued q rest).inDram a 32 = true := by
    unfold State.inDram State.dramEnd
    rwa [ho.get _ _ _ (by decide)]
  have hturn := ho.logTurn (by decide)
  generalize s.logUnqueued q rest = t at ha hx hm hptr hsize hin' hturn ⊢
  have hmem := State.writeLog_mem hw ha hin'
  have hl : (wordBytes w).length = 32 := by rw [wordBytes_length, hw]
  refine ⟨?_, ?_, ?_, ((t.writeLog_within q w).logTurn (by decide)).trans hturn,
    fun x h => (hmem x).trans ((if_neg (by omega)).trans (hm x))⟩
  · have := State.memBytes_of_written (wordBytes_lt w) fun i hi => (hmem (a + i)).trans
      ((if_pos (by omega)).trans (by rw [Nat.add_sub_cancel_left]))
    rwa [hl] at this
  · obtain ⟨m, f, hf⟩ := t.writeLog_logX q w
    rw [hf]
    exact hx
  · rw [t.writeLog_wr, hptr, hsize]

theorem logWriterWritesOneRecord : LogWriterWritesOneRecord := by
  intro q a w rest s hn hq hd hs hw ha hin
  have hx : exec .logWrite s = .next ({ s with logTurn := q }.serveLog q) := by
    show execLogWrite s = _
    unfold execLogWrite
    rw [hn]
  exact .intro hx (State.serveLog_reads (s := { s with logTurn := q }) hq hd hs hw ha hin)

/-! ### The mirrors (R33, R174, R179, R394) -/

/-- A ring of the right type that is ENABLED, has room, and may be written takes an entry. -/
theorem State.mirrorCopy_pushes {s : State} {r ty : Nat} (kind sq : Nat) (ws : List Word) (ht : s.get F.ringCfgType r = ty)
    (he : s.ringEnabled r = true) (hr : s.ringRoom r = true) : s.mirrorCopy kind sq r ty ws = (true, s.pushEntry r ws) := by
  unfold State.mirrorCopy State.namedRing
  rw [if_pos ⟨ht, rfl⟩, he]
  exact if_pos hr

/-- The entry goes to PROD, and PROD advances. -/
theorem State.pushEntry_reads {s : State} {r : Nat} (ws : List Word) (hb : s.busMaster = true) :
    (s.pushEntry r ws).out = s.out ++ [.hostWrite (s.ringAddr r (s.get F.ringIndexProd r)) ws]
    ∧ (s.pushEntry r ws).get F.ringIndexProd r = (s.get F.ringIndexProd r + 1) % s.ringSize r % 65536 := by
  unfold State.pushEntry
  rw [if_pos hb]
  exact ⟨((State.wroteEntry_within ..).out (by decide)).trans (State.set_out ..),
    ((State.wroteEntry_within ..).get _ _ _ (by decide)).trans
    (State.get_set_self _ _ _ _ _ (by decide))⟩

theorem mirrorsCopyOneEntry : MirrorsCopyOneEntry := by
  refine ⟨fun q r ws rest s he hm hx hr ht hen hroom hb => ?_, fun q r w rest s he hm hx hr ht hen hroom hb => ?_,
    fun b r ws rest s he hm hx hr ht hen hroom hb => ?_⟩
  · have hc := State.mirrorCopy_pushes 2 q ws ht hen hroom
    obtain ⟨hout, hprod⟩ := State.pushEntry_reads (r := r) ws hb
    generalize s.pushEntry r ws = t at hc hout hprod
    refine .intro (t := (t.setLogX q { t.logX q with mirror := rest }).set F.seqLogPtrRd q 0
      ((s.get F.seqLogPtrRd q + 1) % 2 ^ s.get F.seqLogCfgSize q)) ?_ ⟨?_, ?_, ?_, ?_⟩
    · show Host.Outcome.next (s.mirrorLog q) = _
      unfold State.mirrorLog
      rw [he, hm, hx, ← hr, Bool.and_true]
      dsimp only
      rw [hc]
    · exact (State.get_set_self _ _ _ _ _ (by decide)).trans (Nat.mod_eq_of_lt (s.two_pow_size F.seqLogCfgSize rfl ..))
    · rw [State.logX_of_logs (State.set_logs ..), State.logX_setLogX, if_pos rfl]
    · exact (State.set_out ..).trans (((State.setLogX_within ..).out (by decide)).trans hout)
    · exact (State.get_set_ne _ _ _ _ _ _ _ _ (by decide) (.inl (by decide))).trans (((State.setLogX_within ..).get _ _ _ (by decide)).trans hprod)
  · have hc := State.mirrorCopy_pushes 3 q [BitVec.ofNat 64 w] ht hen hroom
    obtain ⟨hout, hprod⟩ := State.pushEntry_reads (r := r) [BitVec.ofNat 64 w] hb
    generalize s.pushEntry r [BitVec.ofNat 64 w] = t at hc hout hprod
    refine .intro (t := (t.setLogX q { t.logX q with capMirror := rest }).set F.seqCapPtrRd q 0
      ((s.get F.seqCapPtrRd q + 1) % 2 ^ s.get F.seqCapCfgSize q)) ?_ ⟨?_, ?_, ?_, ?_⟩
    · show Host.Outcome.next (s.mirrorCap q) = _
      unfold State.mirrorCap
      rw [he, hm, hx, ← hr, Bool.and_true]
      dsimp only
      rw [hc]
    · exact (State.get_set_self _ _ _ _ _ (by decide)).trans (Nat.mod_eq_of_lt (s.two_pow_size F.seqCapCfgSize rfl ..))
    · rw [State.logX_of_logs (State.set_logs ..), State.logX_setLogX, if_pos rfl]
    · exact (State.set_out ..).trans (((State.setLogX_within ..).out (by decide)).trans hout)
    · exact (State.get_set_ne _ _ _ _ _ _ _ _ (by decide) (.inl (by decide))).trans (((State.setLogX_within ..).get _ _ _ (by decide)).trans hprod)
  · have hc := State.mirrorCopy_pushes 4 b (ws.map (BitVec.ofNat 64)) ht hen hroom
    obtain ⟨hout, hprod⟩ := State.pushEntry_reads (r := r) (ws.map (BitVec.ofNat 64)) hb
    generalize s.pushEntry r (ws.map (BitVec.ofNat 64)) = t at hc hout hprod
    refine .intro (t := (t.setAcq b { t.acq b with mirror := rest }).set F.bayAcqPtrRd b 0
      ((s.get F.bayAcqPtrRd b + 1) % 2 ^ s.get F.bayAcqRingSize b)) ?_ ⟨?_, ?_, ?_, ?_⟩
    · show Host.Outcome.next (s.mirrorAcq b) = _
      unfold State.mirrorAcq
      rw [he, hm, hx, ← hr, Bool.and_true]
      dsimp only
      rw [hc]
    · exact (State.get_set_self _ _ _ _ _ (by decide)).trans (Nat.mod_eq_of_lt (s.two_pow_size F.bayAcqRingSize rfl ..))
    · rw [State.acq_of_acqs (State.set_acqs ..), State.acq_setAcq, if_pos rfl]
    · exact (State.set_out ..).trans (((State.setAcq_within ..).out (by decide)).trans hout)
    · exact (State.get_set_ne _ _ _ _ _ _ _ _ (by decide) (.inl (by decide))).trans (((State.setAcq_within ..).get _ _ _ (by decide)).trans hprod)

theorem logAndCaptureCommandsAct : LogAndCaptureCommandsAct :=
  ⟨fun _ _ _ hs _ _ hv => (logCfgWrite_enables hs hv).mono fun _ ⟨he, hw, hr, _, _⟩ => ⟨he, hw, hr⟩,
    fun _ _ _ hs _ _ hv => (capCfgWrite_enables hs hv).mono fun _ ⟨he, hw, hr, _⟩ => ⟨he, hw, hr⟩,
    fun _ _ _ _ ho hr hc hd hdr hf => captureBlockWrite_advances ho hr hc hd hdr hf⟩

/-- Settles O21: the log writer's one record, one entry of each mirror, and the commands of O22. -/
theorem logWriterAndMirrors : Obligations.LogWriterAndMirrors := ⟨logWriterWritesOneRecord, mirrorsCopyOneEntry,
  logAndCaptureCommandsAct⟩

end Sys2Proof.Machine
end

