-- ==== Sys2Proof/Proofs/PageLoads.lean ====
section
/-!
PROOFS. PageLoads.lean: the loads of pages (R193 to R195); from these O24.
-/
namespace Sys2Proof.Machine
set_option Elab.async false

/-! ### The start of a load (R193, R194) -/

theorem State.readPage_out (s : State) (g : Nat) : (s.readPage g).out = s.out ++ pageReadsOf (s.entry g) := by
  unfold State.readPage pageReadsOf
  dsimp only
  split
  · exact List.append_assoc ..
  · rfl

theorem State.readPage_page (s : State) (g : Nat) : (s.readPage g).page = s.page := (State.readPage_within ..).page (by decide)

/-- The load of the page of request `r` into frame `f`, as it is recorded. -/
def State.loadRecorded (s : State) (r : PgReq) (f : Nat) : State :=
  let u := s.setEntry r.page { s.entry r.page with state := 2, frame := f }
  { u with page := { u.page with
    reqs := u.page.reqs.filter fun x => decide (x.page ≠ r.page)
    loads := u.page.loads ++ [({ page := r.page, level := r.level } : PgLoad)]
    pushes := u.page.pushes.map fun (p : Nat × Token × Bool) => if p.1 = r.page then (p.1, p.2.1, true) else p
    turn := if r.by_ < 4 then r.by_ else u.page.turn } }

theorem State.loadRecorded_entry (s : State) (r : PgReq) (f : Nat) :
    (s.loadRecorded r f).entry r.page = { s.entry r.page with state := 2, frame := f } :=
  (State.entry_of_table (s := s.setEntry r.page { s.entry r.page with state := 2, frame := f }) rfl _).trans
    ((State.entry_setEntry ..).trans (if_pos rfl))

theorem loadStartReads {r : PgReq} {f : Nat} {fs : List Nat} {s : State} (hr : s.dramReady = true)
    (hl : s.page.loads.length < s.get F.pgtCtrlMaxInflight) (hn : s.nextRequest = some r) (hf : s.freeFrames = f :: fs) :
    Completes .loadStart s fun t => (t.entry r.page).state = 2 ∧ (t.entry r.page).frame = f
      ∧ t.page.loads = s.page.loads ++ [{ page := r.page, level := r.level }]
      ∧ t.out = s.out ++ pageReadsOf (s.entry r.page) := by
  have hslot : s.loadSlot = true := by
    unfold State.loadSlot
    rw [hr, decide_eq_true hl]
    rfl
  refine .intro (t := (s.loadRecorded r f).readPage r.page) ?_ ?_
  · show execLoadStart s = _
    unfold execLoadStart
    rw [if_pos hslot, hn]
    dsimp only
    unfold State.startLoad State.takeFrame
    rw [hf]
    rfl
  · have he := (State.entry_of_page (State.readPage_page (s.loadRecorded r f) r.page) r.page).trans (s.loadRecorded_entry r f)
    have hout := (s.loadRecorded r f).readPage_out r.page
    rw [s.loadRecorded_entry] at hout
    exact ⟨congrArg PgEntry.state he, congrArg PgEntry.frame he, congrArg PageX.loads (State.readPage_page ..), hout⟩

/-! ### The end of a load (R189, R195) -/

/-- The pushes that wait for the page touch the page table in nothing; its load is gone. -/
theorem State.endLoad_page (s : State) (g st : Nat) : (s.endLoad g st).page = { s.page with
    loads := s.page.loads.filter fun x => decide (x.page ≠ g), pushes := s.page.pushes.filter fun p => decide (p.1 ≠ g) } := by
  unfold State.endLoad
  dsimp only
  rw [foldl_page _ _ fun t p => State.completePush_page ..]

theorem State.endLoad_gone (s : State) (g st : Nat) : ∀ x ∈ (s.endLoad g st).page.loads, x.page ≠ g := by
  rw [State.endLoad_page]
  intro x hx
  exact of_decide_eq_true (List.mem_filter.1 hx).2

/-- Nothing is stored under a key that a filter drops. -/
theorem Assoc.find_filter_dropped {K V : Type} [DecidableEq K] (k : K) (p : K × V → Bool) (l : List (K × V))
    (h : ∀ v, p (k, v) = false) : Assoc.find k (l.filter p) = none := by
  induction l with
  | nil => rfl
  | cons e l ih =>
    obtain ⟨a, v⟩ := e
    by_cases ha : a = k
    · subst ha
      rwa [List.filter_cons_of_neg (by rw [h v]; decide)]
    · by_cases hp : p (a, v) = true <;> simp [hp, Assoc.find, ha, ih]

/-- Local DRAM whose bytes from `a` up to `b` are forgotten. -/
theorem State.memByte_of_forgotten {s t : State} {a b : Nat} (h : t.mem = s.mem.filter fun e => decide (e.1 < a) || decide (b ≤ e.1)) (x : Nat) :
    t.memByte x = if a ≤ x ∧ x < b then 0 else s.memByte x := by
  unfold State.memByte Assoc.rd
  rw [h]
  by_cases hx : a ≤ x ∧ x < b
  · rw [if_pos hx, Assoc.find_filter_dropped (h := fun v => by simp; omega)]
    rfl
  · rw [if_neg hx, Assoc.find_filter (h := fun v => by simp; omega)]

/-- The frame holds the data followed by zeros, and nothing else of local DRAM changes. -/
theorem State.fillFrame_mem (s : State) (f : Nat) (data : List Nat) (x : Nat) : (s.fillFrame f data).memByte x
    = if f * 67108864 ≤ x ∧ x < (f + 1) * 67108864 then BitVec.ofNat 8 (data.getD (x - f * 67108864) 0) else s.memByte x := by
  unfold State.fillFrame
  dsimp only
  rw [State.memByte_putBytes, State.memByte_of_mem ((State.portRequest_within _).mem (by decide)), List.length_take,
    State.memByte_of_forgotten (s := s) rfl]
  by_cases hx : f * 67108864 ≤ x ∧ x < (f + 1) * 67108864
  · rw [if_pos hx, if_pos hx]
    split
    · next hin => rw [List.getD_eq_getElem?_getD, List.getElem?_take_of_lt (by omega), List.getD_eq_getElem?_getD]
    · next hout => rw [List.getD_eq_getElem?_getD, List.getElem?_eq_none (by omega)]; rfl
  · rw [if_neg hx, if_neg hx, if_neg (by omega)]

theorem loadCompletes {g : Nat} {data : List Nat} {s : State} (hl : s.loading g = true) (hr : s.dramReady = true)
    (hc : checkWord data = (s.entry g).crc) :
    Completes (.loadComplete g data) s fun t => (t.entry g).state = (if (s.entry g).pin then 4 else 3)
      ∧ (∀ x ∈ t.page.loads, x.page ≠ g)
      ∧ (∀ i < 67108864, t.memByte ((s.entry g).frame * 67108864 + i) = BitVec.ofNat 8 (data.getD i 0))
      ∧ (∀ a, a < (s.entry g).frame * 67108864 ∨ ((s.entry g).frame + 1) * 67108864 ≤ a → t.memByte a = s.memByte a) := by
  have hx : exec (.loadComplete g data) s = .next (s.loaded g data) := by
    show Host.Outcome.next (if s.loading g = true ∧ s.dramReady = true then (if checkWord data = (s.entry g).crc then s.loaded g data else s.loadFailed g 1) else s) = _
    rw [if_pos ⟨hl, hr⟩, if_pos hc]
  refine .intro hx ?_
  unfold State.loaded
  dsimp only
  have hmem := s.fillFrame_mem (s.entry g).frame data
  have hent := State.entry_setEntry (s.fillFrame (s.entry g).frame data) g { s.entry g with state := if (s.entry g).pin then 4 else 3 } g
  generalize s.fillFrame (s.entry g).frame data = t at hmem hent ⊢
  have hset := t.setEntry_within g { s.entry g with state := if (s.entry g).pin then 4 else 3 }
  generalize t.setEntry g { s.entry g with state := if (s.entry g).pin then 4 else 3 } = u at hent hset ⊢
  have hcount : Only 0x4000000000000000000000000000000000000000800000000000000001000 u (u.count F.pgtLoadStatLoads F.pgtLoadStatLoadsSaturated 0 0 1) := State.count_only _ _ _ _ _ (.refl _ u) (by decide)
  generalize u.count F.pgtLoadStatLoads F.pgtLoadStatLoadsSaturated 0 0 1 = v at hcount ⊢
  have hm (x : Nat) : (v.endLoad g 0).memByte x = t.memByte x :=
    State.memByte_of_mem (((State.endLoad_within ..).mem (by decide)).trans ((hcount.mem (by decide)).trans (hset.mem (by decide)))) x
  refine ⟨?_, v.endLoad_gone g 0, fun i hi => ?_, fun a ha => ?_⟩
  · rw [State.entry_of_table (s := v) (by rw [State.endLoad_page]), State.entry_of_page (hcount.page (by decide)), hent, if_pos rfl]
  · rw [hm, hmem, if_pos (by omega), Nat.add_sub_cancel_left]
  · rw [hm, hmem, if_neg (by omega)]

/-! ### A failed attempt (R195) -/

section
variable {g cause : Nat} {x : PgLoad} {s : State} (hl : s.loading g = true)
  (hf : s.page.loads.find? (fun y => decide (y.page = g)) = some x) (hu : Unclear s F.pgtErrStatLoadErr 0 0)
include hl hf hu

/-- The failure is counted; the first is read again, the second makes the page BAD in host memory. -/
theorem loadErrCounts : Completes (.loadErr g cause) s fun t =>
    t.get F.pgtErrStatLoadErr = min 65535 (s.get F.pgtErrStatLoadErr + 1)
    ∧ (x.again = false → (t.entry g).state = 2 ∧ t.out = s.out ++ pageReadsOf (s.entry g))
    ∧ (x.again = true → (t.entry g).state = 1 ∧ (t.entry g).bad = true ∧ ∀ y ∈ t.page.loads, y.page ≠ g) := by
  have hx : exec (.loadErr g cause) s = .next (s.loadFailed g (max 2 (min cause 4))) :=
    congrArg Host.Outcome.next (if_pos hl)
  refine .intro hx ?_
  have hget := State.get_count_min s (sat := F.pgtErrStatErrSaturated) 1 hu (by decide) (by decide) (by decide)
  have hcount : Only 0x4000000000000000000000000000000000000001000000000000000001000 s (s.count F.pgtErrStatLoadErr F.pgtErrStatErrSaturated 0 0 1) := State.count_only _ _ _ _ _ (.refl _ s) (by decide)
  have hp := hcount.page (by decide)
  have ho := hcount.out (by decide)
  unfold State.loadFailed
  dsimp only
  rw [if_neg (by omega)]
  generalize s.count F.pgtErrStatLoadErr F.pgtErrStatErrSaturated 0 0 1 = t at hget hp ho ⊢
  have h2 : (t.entry g).state = 2 := by
    rw [State.entry_of_page hp]
    exact of_decide_eq_true (Bool.and_eq_true_iff.1 hl).2
  rw [show t.page.loads.find? (fun y => decide (y.page = g)) = some x by rw [hp]; exact hf]
  dsimp only
  split
  · next ha =>
    have hpost := t.post_within 0x0501 g (max 2 (min cause 4))
    have hset := (t.post 0x0501 g (max 2 (min cause 4))).setEntry_within g { t.entry g with state := 1, bad := true }
    have hent := State.entry_setEntry (t.post 0x0501 g (max 2 (min cause 4))) g { t.entry g with state := 1, bad := true } g
    rw [if_pos rfl] at hent
    generalize (t.post 0x0501 g (max 2 (min cause 4))).setEntry g _ = v at hset hent ⊢
    have he := State.entry_of_table (t := v.endLoad g 9) (s := v) (by rw [State.endLoad_page]) g
    refine ⟨?_, fun h => absurd ha (by rw [h]; decide), fun _ => ⟨?_, ?_, v.endLoad_gone g 9⟩⟩
    · exact ((State.endLoad_within ..).get _ _ _ (by decide)).trans ((hset.get _ _ _ (by decide)).trans ((hpost.get _ _ _ (by decide)).trans hget))
    · rw [he, hent]
    · rw [he, hent]
  · next ha =>
    refine ⟨?_, fun _ => ⟨?_, ?_⟩, fun h => absurd h ha⟩
    · exact ((State.readPage_within ..).get _ _ _ (by decide)).trans ((State.get_of_regs rfl ..).trans hget)
    · rw [State.entry_of_page (State.readPage_page ..)]
      exact h2
    · rw [State.readPage_out, ← ho, ← State.entry_of_page hp]
      rfl

end

/-- Settles O24: the start of a load, its end, and a failed attempt. -/
theorem pageLoads : Obligations.PageLoads :=
  ⟨fun _ _ _ _ => loadStartReads, fun _ _ _ => loadCompletes, fun _ _ _ _ => loadErrCounts⟩

end Sys2Proof.Machine
end

