-- ==== Sys2Proof/Proofs/Lookahead.lean ====
section
/-!
PROOFS. Lookahead.lean: the lookahead and the fill engine (R198, R201), under-runs (R209, R211, R213); from these O25.
-/
namespace Sys2Proof.Machine
set_option Elab.async false

/-! ### The lookahead (R198) -/

theorem lookaheadEnters {q a : Nat} {arrived : List Nat} {s : State} (h0 : s.seqState q ≠ 0)
    (hd : (s.seqX q).look.path.length < s.get F.pgtLookaheadDepth 0 q) (ha : (s.seqX q).look.addr = some a)
    (hf : (s.entry (pageOf a)).flowTab = false) (h1 : (s.entry (pageOf a + 1)).state = 1) (hb : (s.entry (pageOf a + 1)).bad = false)
    (hc : (s.entry (pageOf a + 1)).pclass ≠ 2) (hp : pageOf a + 1 ∉ (s.seqX q).look.path) (hq : pageOf a + 1 ≠ s.currentPage q) :
    Completes (.lookahead q arrived) s fun t => (t.seqX q).look.path = (s.seqX q).look.path ++ [pageOf a + 1]
      ∧ ∃ r ∈ t.page.reqs, r.page = pageOf a + 1 := by
  have hg : pageOf ((pageOf a + 1) * pageWords) = pageOf a + 1 := Nat.mul_div_cancel _ (by decide)
  have hx : exec (.lookahead q arrived) s = .next (s.enterPage q ((pageOf a + 1) * pageWords) (s.seqX q).look.stack) := by
    show Host.Outcome.next (s.lookStep q arrived) = _
    unfold State.lookStep
    dsimp only
    rw [if_neg (by omega), ha]
    dsimp only
    rw [hf]
    rfl
  refine .intro hx ?_
  unfold State.enterPage
  dsimp only
  rw [hg, if_neg (by simp [h1, hc, hp, hq])]
  refine ⟨?_, State.request_asks ?_⟩
  · rw [State.seqX_of_seqs ((State.request_within ..).seqs (by decide)), State.seqX_setSeqX, if_pos rfl]
  · show (PgReq.valid _ (s.entry (pageOf a + 1))) = true
    simp [PgReq.valid, h1, hb, hc]

/-! ### The fill engine (R201) -/

/-- The prefetch buffer of SEQ[q] is as it was. -/
def SameBuffer (q : Nat) (s t : State) : Prop := (t.seqX q).fill.buf = (s.seqX q).fill.buf

theorem SameBuffer.trans {q : Nat} {s t u : State} (h : SameBuffer q s t) (h' : SameBuffer q t u) : SameBuffer q s u := Eq.trans h' h

theorem SameBuffer.of_only {N q : Nat} {s t : State} (h : Only N s t) (hN : N.testBit 254 = false) : SameBuffer q s t :=
  congrArg (fun x : SeqX => x.fill.buf) (State.seqX_of_seqs (h.seqs hN) q)

theorem SameBuffer.of_setSeqX {q : Nat} {s : State} {x : SeqX} (h : x.fill.buf = (s.seqX q).fill.buf) : SameBuffer q s (s.setSeqX q x) := by
  unfold SameBuffer
  rw [State.seqX_setSeqX, if_pos rfl, h]

theorem SameBuffer.touchPage (q g : Nat) (s : State) : SameBuffer q s (s.touchPage q g) := by
  unfold State.touchPage
  dsimp only
  split
  · exact .of_setSeqX rfl
  · exact rfl

theorem SameBuffer.count (f sat : Fld) (q i n : Nat) (s : State) : SameBuffer q s (s.count f sat i 0 n) := by
  unfold SameBuffer
  rw [State.seqX_of_seqs (State.count_seqs ..)]

theorem SameBuffer.fetchRecord {q a n : Nat} {stores : Bool} {s t : State} {w : List Nat} {read : Bool}
    (h : s.fetchRecord q a n stores = some (w, read, t)) : SameBuffer q s t := by
  unfold State.fetchRecord at h
  extract_lets x at h
  split at h
  · injection h with h
    injection h with _ h
    injection h with _ h
    subst h
    refine SameBuffer.trans ?_ (.count ..)
    exact .of_setSeqX rfl
  · split at h
    · split at h
      next r u hr =>
      extract_lets v y lines at h
      injection h with h
      injection h with _ h
      injection h with _ h
      subst h
      have hu : SameBuffer q s u := .of_only (State.dramRead_only_eq hr (.refl 0x200844000000000000000000000000000000000000000030002000000000145000 s) (by decide)) (by decide)
      exact (hu.trans (.touchPage ..)).trans (.of_setSeqX rfl)
    · cases h

theorem SameBuffer.sidePath (q n k : Nat) (f : FillX) (bytes : Nat) (s : State) : SameBuffer q s (s.sidePath q n k f bytes).2 := by
  induction k generalizing s f bytes with
  | zero => exact rfl
  | succ k ih =>
    unfold State.sidePath
    split
    · exact rfl
    · split
      · exact rfl
      · split
        · exact rfl
        · next h => exact .fetchRecord h
        · next h => exact (SameBuffer.fetchRecord h).trans (ih ..)

theorem SameBuffer.addSide (q a : Nat) (words : List Nat) (s : State) : SameBuffer q s (s.addSide q a words) := by
  unfold State.addSide
  dsimp only
  split
  · exact rfl
  · split
    · exact .of_setSeqX rfl
    · split
      · exact rfl
      · exact (SameBuffer.sidePath ..).trans (.of_setSeqX rfl)

theorem FillX.predict_buf (f : FillX) (a : Nat) (words : List Nat) (other : Bool) : (f.predict a words other).buf = f.buf := by
  unfold FillX.predict
  dsimp only
  repeat' split
  all_goals rfl

/-- A record in the prefetch buffer is its last. -/
theorem State.buffer_buf (s : State) (q a : Nat) (words : List Nat) :
    ((s.buffer q a words).seqX q).fill.buf = (s.seqX q).fill.buf ++ [(a, words)] := by
  unfold State.buffer
  dsimp only
  rw [State.seqX_setSeqX, if_pos rfl]
  have h : ((s.addSide q a words).seqX q).fill.buf = (s.seqX q).fill.buf := SameBuffer.addSide ..
  rw [← h]
  split
  · rfl
  · exact FillX.predict_buf ..

/-- A record that the fill engine can fetch joins the prefetch buffer. -/
theorem prefetchFillBuffers {q a n : Nat} {s t : State} {w : List Nat} {read : Bool} (hpc : (s.seqX q).fill.pc = some a) (hn : n = s.recWords q)
    (h0 : s.seqState q ≠ 0) (hb : bufBytes n (s.seqX q).fill.buf + n * 8 ≤ 262144) (hc : crosses a n = false) (hp : s.pageFault a n = none)
    (hf : s.fetchRecord q a n (s.seqX q).fill.stores = some (w, read, t)) :
    Completes (.prefetchFill q) s fun r => (r.seqX q).fill.buf = (s.seqX q).fill.buf ++ [(a, w)] := by
  have hu : s.unfetchable a n = false := by
    unfold State.unfetchable
    rw [hc, hp]
    rfl
  refine .intro (t := (s.fillStep q).updatePanic) rfl ?_
  rw [State.seqX_of_seqs ((State.updatePanic_within ..).seqs (by decide))]
  unfold State.fillStep
  subst hn
  dsimp only
  rw [hpc]
  dsimp only
  rw [if_neg (by simp [h0, hu]; exact hb), hf]
  dsimp only
  rw [State.buffer_buf]
  congr 1
  have hs : SameBuffer q s t := .fetchRecord hf
  split
  · rw [State.seqX_setSeqX, if_pos rfl]
    exact hs
  · exact hs

theorem State.fetchRecord_cached {q a n : Nat} {stores : Bool} {s : State} {w : List Nat} (h : (s.seqX q).fill.cached a n = some w) :
    ∃ read t, s.fetchRecord q a n stores = some (w, read, t) := by
  unfold State.fetchRecord
  extract_lets x
  rw [show x.fill.cached a n = some w from h]
  exact ⟨_, _, rfl⟩

theorem State.memBytes_of_mem {s t : State} (h : t.mem = s.mem) (a n : Nat) : t.memBytes a n = s.memBytes a n := by
  induction n generalizing a with
  | zero => rfl
  | succ n ih => rw [State.memBytes, State.memBytes, State.memByte_of_mem h, ih]

/-- A read of bytes of local DRAM of which none is uncorrectable. -/
theorem State.dramRead_clean {s : State} {a n : Nat} (hin : s.inDram a n = true) (hp : s.dram.poison = []) :
    s.dramRead a n = (some (s.memBytes a n), s.portRequest) := by
  have hin' : s.portRequest.inDram a n = true := by
    unfold State.inDram State.dramEnd at hin ⊢
    rwa [State.portRequest_frames]
  have hp' : s.portRequest.dram.poison = [] := by
    unfold State.portRequest State.srExit
    dsimp only
    split
    · exact hp
    · rw [(State.post_within ..).dram (by decide), State.set_dram, hp]
  unfold State.dramRead
  dsimp only
  rw [if_pos hin', hp', ← State.memBytes_of_mem ((State.portRequest_within s).mem (by decide))]
  rfl

theorem State.fetchRecord_resident {q a n : Nat} {stores : Bool} {s : State} (h : (s.seqX q).fill.cached a n = none)
    (hr : (s.entry (pageOf a)).resident = true) (hd : s.dramReady = true) (hin : s.inDram (s.dramAddr a) (n * 8) = true) (hp : s.dram.poison = []) :
    ∃ read t, s.fetchRecord q a n stores = some (wordsOf n (s.memBytes (s.dramAddr a) (n * 8)), read, t) := by
  unfold State.fetchRecord
  extract_lets x
  split
  · next w hw => exact absurd (h.symm.trans hw) (by simp)
  · rw [if_pos ⟨hr, hd⟩, State.dramRead_clean hin hp]
    exact ⟨_, _, rfl⟩

/-! ### PAGEHINT (R110, R200) -/

theorem pagehintRequests {q c : Nat} {words : List Nat} {s t : State} (h : DecodesNow s q 0x11 words c t)
    (h1 : ((issued t q (s.seqX q).pc c words).entry (words.getD 0 0 % 32768)).state = 1)
    (hb : ((issued t q (s.seqX q).pc c words).entry (words.getD 0 0 % 32768)).bad = false)
    (hc : ((issued t q (s.seqX q).pc c words).entry (words.getD 0 0 % 32768)).pclass ≠ 2) :
    Completes (.pagehint q) s fun r => ∃ x ∈ r.page.reqs, x.page = words.getD 0 0 % 32768 := by
  refine DecodesNow.completes h (eff := pageHintEffect q) rfl ?_
  generalize issued t q (s.seqX q).pc c words = v at h1 hb hc ⊢
  unfold pageHintEffect
  dsimp only
  split
  · next hany =>
    obtain ⟨x, hx, hp⟩ := List.any_eq_true.1 hany
    exact ⟨x, hx, (of_decide_eq_true hp).1⟩
  · generalize words.getD 0 0 % 32768 = g at h1 hb hc ⊢
    exact State.request_asks (by simp [PgReq.valid, h1, hb, hc])

theorem lookaheadAndFill : LookaheadAndFill := by
  refine ⟨fun q a arrived s => lookaheadEnters, fun q a n s hpc hn h0 hb hc hp => ⟨fun w hw => ?_, fun hw hr hd hin hpo => ?_⟩,
    fun q c words s t v w hw hv h1 hb hc h => ?_⟩
  · obtain ⟨read, t, hf⟩ := State.fetchRecord_cached (stores := (s.seqX q).fill.stores) hw
    exact prefetchFillBuffers hpc hn h0 hb hc hp hf
  · obtain ⟨read, t, hf⟩ := State.fetchRecord_resident (stores := (s.seqX q).fill.stores) hw hr hd hin hpo
    exact prefetchFillBuffers hpc hn h0 hb hc hp hf
  · subst hw hv
    exact pagehintRequests h h1 hb hc

/-! ### Under-runs (R209, R211, R213) -/

theorem stallResumes {q ct : Nat} {s : State} (hct : ct < 8) (hu : (s.seqX q).under = true) (hr : (s.seqX q).resumed = false)
    (he : (s.seqX q).ending = none) (hf : s.fillReady q (s.seqX q).pc (s.recWords q) = true) :
    Completes (.stallResume q ct) s fun t => (t.seqX q).resumed = true ∧ (t.seqX q).period = none
      ∧ (t.seqX q).nextAt = max (ceilCt (s.seqX q).nextAt) (s.nowFu + (ct + s.get F.seqResumeDelayDelay q) * 1024) := by
  have hc : (s.seqX q).under = true ∧ (s.seqX q).resumed = false ∧ (s.seqX q).ending.isNone = true
      ∧ s.fillReady q (s.seqX q).pc (s.recWords q) = true := ⟨hu, hr, by rw [he]; rfl, hf⟩
  refine .intro (congrArg Host.Outcome.next (if_pos hc)) ?_
  rw [State.seqX_setSeqX, if_pos rfl, Nat.mod_eq_of_lt hct]
  exact ⟨rfl, rfl, rfl⟩

/-- The end of a run at `e`, whose channels are to park. -/
def State.stopSet (s : State) (q reason e : Nat) : State :=
  (s.parkSet (s.channelsOf q) e).setSeqX q { (s.parkSet (s.channelsOf q) e).seqX q with ending := some ⟨reason, false, e, none⟩ }

/-- A run that is to end has ended, or ends where its last vector cycle does. -/
theorem State.beginStop_outcome (s : State) (q : Nat) {reason : Nat} (hr : reason < 16) :
    ((s.beginStop q reason false none).seqState q = 0 ∧ (s.beginStop q reason false none).get F.seqStatusStopReason q = reason)
    ∨ ((s.beginStop q reason false none).seqX q).ending = some ⟨reason, false, s.stopEnd q, none⟩ := by
  have hx : s.beginStop q reason false none = (s.stopSet q reason (s.stopEnd q)).tryPark q := rfl
  have he : ((s.stopSet q reason (s.stopEnd q)).seqX q).ending = some ⟨reason, false, s.stopEnd q, none⟩ := by
    rw [State.stopSet, State.seqX_setSeqX, if_pos rfl]
  rw [hx]
  generalize s.stopSet q reason (s.stopEnd q) = t at he ⊢
  unfold State.tryPark
  extract_lets x u cs v
  have hv : v = t.parked q := rfl
  rw [show x.ending = _ from he]
  dsimp only
  split
  · obtain ⟨h0, hreason⟩ := v.finishStop_registers q ⟨reason, false, s.stopEnd q, none⟩ (fun h => by cases h)
    exact .inl ⟨h0, hreason.trans (Nat.mod_eq_of_lt hr)⟩
  · refine .inr ?_
    rw [hv, State.seqX_of_seqs ((State.parked_within ..).seqs (by decide)), he]

/-- Table commits that are applied leave where the last vector cycle ends. -/
theorem State.applyCommits_stopEnd (s : State) (q : Nat) : (s.applyCommits q).stopEnd q = s.stopEnd q := by
  have hl : ((s.applyCommits q).seqX q).lastEnd = (s.seqX q).lastEnd := by
    unfold State.applyCommits
    dsimp only
    split
    · rfl
    · rw [State.seqX_of_seqs ((State.commitNow_within ..).seqs (by decide)), State.seqX_setSeqX, if_pos rfl]
  unfold State.stopEnd State.nowFu
  rw [hl, (State.applyCommits_within ..).ticks (by decide)]

/-- A STALLED sequencer of which an under-run abort is sampled. -/
def State.stallEnding (s : State) (q : Nat) : State :=
  (s.note ⟨.seq q, 2, srcRank .hw, 1⟩).setSeqX q { s.seqX q with
    pend := [⟨9, s.ticks, none⟩], watch := some ((s.seqX q).watch.getD s.ticks) }

theorem State.servePends_abort (s : State) (q at0 : Nat) : s.servePends q [⟨9, at0, none⟩] = some (s.beginStop q 9 false none) := rfl

theorem stallLimitAborts {q : Nat} {s : State} (h3 : s.seqState q = 3) (hl : s.get F.seqStallCtrlLimit q ≠ 0)
    (ht : (s.seqX q).stallAt + s.get F.seqStallCtrlLimit q ≤ s.ticks) (ha : Alone s (.seq q)) (he : (s.seqX q).ending = none)
    (hp : (s.seqX q).pend = []) :
    Completes (.stallLimit q) s fun t => (t.seqState q = 0 ∧ t.get F.seqStatusStopReason q = 9)
      ∨ (t.seqX q).ending = some ⟨9, false, s.stopEnd q, none⟩ := by
  have hn (e : TickEvent) : (s.note e).seqState q = s.seqState q := State.get_note ..
  have hx (e : TickEvent) : (s.note e).seqX q = s.seqX q := State.seqX_of_seqs (State.note_seqs ..) q
  have hstop : s.requestStop q 9 .hw none = ((s.stallEnding q).applyCommits q).beginStop q 9 false none := by
    have hu : ((s.stallEnding q).seqX q).pend = [⟨9, s.ticks, none⟩] := by rw [State.stallEnding, State.seqX_setSeqX, if_pos rfl]
    have hserve : (((s.stallEnding q).applyCommits q).servePends q ((s.stallEnding q).seqX q).pend).getD (s.stallEnding q)
        = ((s.stallEnding q).applyCommits q).beginStop q 9 false none := by
      rw [hu, State.servePends_abort, Option.getD_some]
    refine Eq.trans ?_ hserve
    unfold State.requestStop
    extract_lets eff
    rw [State.decideEvent_alone ha]
    dsimp only
    rw [hn, hx, h3, if_neg (by rw [he]; decide), if_neg (by decide), if_neg (by decide), if_pos rfl, hp, List.nil_append]
    unfold State.stallEnding
    rfl
  have hend : (s.stallEnding q).stopEnd q = s.stopEnd q := by
    unfold State.stopEnd State.stallEnding
    rw [State.seqX_setSeqX, if_pos rfl]
    rfl
  refine .intro ((congrArg Host.Outcome.next (if_pos ⟨h3, hl, ht⟩)).trans (congrArg Host.Outcome.next hstop)) ?_
  rw [← hend, ← State.applyCommits_stopEnd (s.stallEnding q) q]
  exact State.beginStop_outcome _ q (by decide)

/-- STALL_TIME.CLEAR acts where no reset of the sequencer discards it. -/
theorem stallTimeClears {q : Nat} {s : State} (h : ClearActs s (F.seqStallTimeEt.key q 0) F.seqStallTimeEt.lo) :
    Completes (.stallTimeClear q) s fun t => t.get F.seqStallTimeEt q = 0 :=
  .intro rfl (State.get_clear s F.seqStallTimeEt q 0 (by decide) (by decide) h)

/-- The device after reset, with a stall time of SEQ[0]: HOST_READY is 0, and all that is sampled is discarded (R59, R465). -/
def notReadyStalled : State := State.reset.set F.seqStallTimeEt 0 0 1

/-- Before HOST_READY the clear is discarded, and the stall time stays. -/
theorem notReadyStalled_keeps : ¬ Completes (.stallTimeClear 0) notReadyStalled fun t => t.get F.seqStallTimeEt 0 = 0 := by
  rintro ⟨t, ht, hz⟩
  have hx : exec (.stallTimeClear 0) notReadyStalled = .next (notReadyStalled.clear F.seqStallTimeEt 0 0) := rfl
  have hd : ¬ClearActs notReadyStalled (F.seqStallTimeEt.key 0 0) F.seqStallTimeEt.lo := by decide
  have h1 : notReadyStalled.get F.seqStallTimeEt 0 = 1 := State.get_set_self _ _ _ _ _ (by decide)
  have hk : (notReadyStalled.clear F.seqStallTimeEt 0 0).get F.seqStallTimeEt 0 = notReadyStalled.get F.seqStallTimeEt 0 :=
    (congrArg (State.get · F.seqStallTimeEt 0) (State.clearing_discarded hd _)).trans (State.get_supersede _ _ _ _ _ (by decide))
  rw [hx] at ht
  injection ht with ht
  subst ht
  exact absurd (hz.symm.trans (hk.trans h1)) (by decide)

/-- Refutes O25: it asks of STALL_TIME.CLEAR that the count reads 0 whatever the state; in a device that is not HOST_READY, or while
the sequencer resets, the clear is discarded (R59), and a stall time that is not 0 stays. What the other clauses say holds:
`lookaheadAndFill`, `stallResumes`, `stallLimitAborts`, and `stallTimeClears` where nothing discards the clear. -/
theorem not_lookaheadAndUnderruns : ¬ Obligations.LookaheadAndUnderruns :=
  fun ⟨_, _, _, hclear⟩ => notReadyStalled_keeps (hclear 0 notReadyStalled)

end Sys2Proof.Machine
end

