-- ==== Sys2Proof/Proofs/Threads.lean ====
section
/-!
PROOFS. Threads.lean: the operations over thread slots (R337, R338, R342 to R350), by a core or another source (R346, R347).
-/
namespace Sys2Proof.Machine
set_option Elab.async false

/-! ### Ready lists (R338) -/

theorem State.readyList_of_ready {s t : State} (h : t.disp.ready = s.disp.ready) (l : Nat) : t.readyList l = s.readyList l :=
  congrArg (unitAt [] · l) h

theorem State.readyList_of_disp {s t : State} (h : t.disp = s.disp) (l : Nat) : t.readyList l = s.readyList l :=
  State.readyList_of_ready (congrArg DispX.ready h) l

/-- A thread that is taken out of the ready lists is in none. -/
theorem State.unready_readyList (s : State) (j l : Nat) : (s.unready j).readyList l = (s.readyList l).filter fun k => k != j := by
  unfold State.readyList State.unready unitAt Assoc.rd
  dsimp only
  induction s.disp.ready with
  | nil => rfl
  | cons e r ih =>
    rw [List.map_cons, Assoc.find, Assoc.find]
    by_cases h : e.1 = l
    · rw [if_pos h, if_pos h]
    · rw [if_neg h, if_neg h]
      exact ih

theorem State.setReadyList_readyList (s : State) (l : Nat) (ts : List Nat) (l' : Nat) :
    (s.setReadyList l ts).readyList l' = if l' = l then ts else s.readyList l' := unitAt_putUnit ..

theorem State.not_mem_unready (s : State) (j l : Nat) : j ∉ (s.unready j).readyList l := by
  rw [State.unready_readyList]
  simp

/-- A READY thread at the head or the tail of its level. -/
theorem State.makeReady_readyList (s : State) (j : Nat) (head : Bool) (l : Nat) : (s.makeReady j head).readyList l
    = if l = s.get F.dispThrCfgPrio 0 j then
        (if head then j :: (s.readyList l).filter fun k => k != j else ((s.readyList l).filter fun k => k != j) ++ [j])
      else (s.readyList l).filter fun k => k != j := by
  have h : (s.makeReady j head).readyList l = ((s.unready j).setReadyList (s.get F.dispThrCfgPrio 0 j)
    (if head then j :: (s.unready j).readyList (s.get F.dispThrCfgPrio 0 j)
      else (s.unready j).readyList (s.get F.dispThrCfgPrio 0 j) ++ [j])).readyList l := rfl
  rw [h, State.setReadyList_readyList]
  simp only [State.unready_readyList]
  split
  · next h => rw [h]
  · rfl

/-- Of the registers, a READY thread's state alone changes. -/
theorem State.makeReady_regs (s : State) (j : Nat) (head : Bool) :
    (s.makeReady j head).regs = (s.set F.dispThrStateState 0 j 1).regs := rfl

theorem State.makeReady_state (s : State) (j : Nat) (head : Bool) : (s.makeReady j head).get F.dispThrStateState 0 j = 1 :=
  (State.get_of_regs (s.makeReady_regs j head) ..).trans (State.get_set_self _ _ _ _ _ (by decide))

/-! ### An operation by its source (R346, R347) -/

/-- An operation that is sampled at once: a core's completes. -/
def State.reported (t : State) (src : Src) (op : CoreOp) : State :=
  match src with
  | .core c => (t.opDone c { op := op } 0).opSampled c
  | _ => t

theorem State.reported_regs (t : State) (src : Src) (op : CoreOp) : (t.reported src op).regs = t.regs := by
  unfold State.reported
  split <;> rfl

theorem State.reported_get (t : State) (src : Src) (op : CoreOp) (f : Fld) (i j : Nat) : (t.reported src op).get f i j = t.get f i j :=
  State.get_of_regs (t.reported_regs src op) ..

theorem State.reported_readyList (t : State) (src : Src) (op : CoreOp) (l : Nat) : (t.reported src op).readyList l = t.readyList l := by
  unfold State.reported
  split <;> rfl

/-- An operation on slots that nothing of its core precedes acts at once, whatever its source. -/
theorem dispatch_acts {s : State} {src : Src} (hr : Reaches s src) {op : CoreOp} {direct : State → State}
    (hs : ∀ c, src = .core c → s.sampleOp c { op := op } = some ((direct s).opDone c { op := op } 0)) :
    s.dispatch src op direct = .next ((direct s).reported src op) := by
  unfold State.dispatch State.reported
  cases src with
  | core c => exact congrArg Host.Outcome.next (State.coreIssues_samples hr (hs c rfl))
  | _ => rfl

/-! ### MAKEREADY, CANCEL and slot reset (R337, R346) -/

section
variable {j : Nat} {src : Src} {s : State} (hr : Reaches s src) (ha : Alone s (.thread j))
include hr ha

theorem makereadyReadies (h : s.get F.dispThrStateState 0 j = 0 ∨ s.get F.dispThrStateState 0 j = 3) :
    Completes (.makeready j src) s fun t => t.get F.dispThrStateState 0 j = 1
      ∧ t.readyList (s.get F.dispThrCfgPrio 0 j) = ((s.readyList (s.get F.dispThrCfgPrio 0 j)).filter fun k => k != j) ++ [j]
      ∧ (s.get F.dispThrStateState 0 j = 3 → t.get F.dispThrStateForced 0 j = 1) := by
  refine .intro (dispatch_acts (direct := fun t => t.makeReadyOp j src) hr (fun c hc => by rw [hc]; rfl)) ?_
  simp only [State.reported_get, State.reported_readyList]
  unfold State.makeReadyOp
  rw [State.decideEvent_alone ha]
  dsimp only
  have hn (f : Fld) : (s.note ⟨.thread j, 4, srcRank src, effReady⟩).get f 0 j = s.get f 0 j := State.note_get ..
  have hl := State.makeReady_readyList (s.note ⟨.thread j, 4, srcRank src, effReady⟩) j false
  have hst := State.makeReady_state (s.note ⟨.thread j, 4, srcRank src, effReady⟩) j false
  rw [hn] at hl ⊢
  have hlist : ((s.note ⟨.thread j, 4, srcRank src, effReady⟩).makeReady j false).readyList (s.get F.dispThrCfgPrio 0 j)
      = ((s.readyList (s.get F.dispThrCfgPrio 0 j)).filter fun k => k != j) ++ [j] := by
    rw [hl, if_pos rfl]
    rfl
  rcases h with h | h
  · rw [h, if_pos rfl]
    exact ⟨hst, hlist, fun h3 => absurd h3 (by decide)⟩
  · rw [h, if_neg (by decide), if_pos rfl]
    refine ⟨?_, (State.readyList_of_disp rfl _).trans hlist, fun _ => ?_⟩
    · exact (State.get_setBit_apart _ _ _ _ _ _ _ _ (by decide) (by decide)).trans hst
    · exact State.get_setBit_self _ _ _ _ _ (by decide) (by decide)

omit hr ha in
/-- A thread slot that is cleared, out of every list: its flags stay. -/
theorem State.cleared_reads (t : State) (j : Nat) :
    (((t.unready j).set F.dispThrStateState 0 j 0).set F.dispThrCfgWaitmask 0 j 0).get F.dispThrStateState 0 j = 0
    ∧ (((t.unready j).set F.dispThrStateState 0 j 0).set F.dispThrCfgWaitmask 0 j 0).get F.dispThrCfgWaitmask 0 j = 0
    ∧ (((t.unready j).set F.dispThrStateState 0 j 0).set F.dispThrCfgWaitmask 0 j 0).get F.dispThrStateFlags 0 j = t.get F.dispThrStateFlags 0 j
    ∧ ∀ l, j ∉ (((t.unready j).set F.dispThrStateState 0 j 0).set F.dispThrCfgWaitmask 0 j 0).readyList l := by
  refine ⟨?_, State.get_set_self _ _ _ _ _ (by decide), ?_, fun l => ?_⟩
  · exact (State.get_set_ne _ _ _ _ _ _ _ _ (by decide) (.inl (by decide))).trans (State.get_set_self _ _ _ _ _ (by decide))
  · refine (State.get_set_ne _ _ _ _ _ _ _ _ (by decide) (.inl (by decide))).trans ?_
    exact (State.get_set_apart _ _ _ _ _ _ _ _ (by decide) (by decide)).trans (State.get_of_regs rfl ..)
  · rw [State.readyList_of_disp (State.set_disp ..), State.readyList_of_disp (State.set_disp ..)]
    exact t.not_mem_unready j l

theorem cancelIdles (h : s.get F.dispThrStateState 0 j ≠ 0) :
    Completes (.cancel j src) s fun t => t.get F.dispThrStateState 0 j = 0 ∧ t.get F.dispThrCfgWaitmask 0 j = 0
      ∧ t.get F.dispThrStateFlags 0 j = s.get F.dispThrStateFlags 0 j ∧ ∀ l, j ∉ t.readyList l := by
  refine .intro (dispatch_acts (direct := fun t => t.cancelOp j src) hr (fun c hc => by rw [hc]; rfl)) ?_
  simp only [State.reported_get, State.reported_readyList]
  unfold State.cancelOp
  rw [State.onObj_alone ha, if_neg (by rw [State.note_get]; exact h)]
  have hread := State.cleared_reads ((s.note ⟨.thread j, 2, srcRank src, 2⟩).cancelPending j) j
  rwa [(State.cancelPending_within ..).get F.dispThrStateFlags 0 j (by decide), State.note_get] at hread

omit hr ha in
/-- Flags and the marks of a slot that are cleared. -/
theorem State.marksCleared_reads {u t : State} {j : Nat} (h0 : u.get F.dispThrStateState 0 j = 0)
    (ht : t = (((u.set F.dispThrStateFlags 0 j 0).set F.dispThrStateTimedout 0 j 0).set F.dispThrStateForced 0 j 0).set F.dispThrStateLost 0 j 0) :
    Only F.dispThrStateFlags.mask u t ∧ t.get F.dispThrStateState 0 j = 0 ∧ t.get F.dispThrStateFlags 0 j = 0 ∧ t.get F.dispThrStateTimedout 0 j = 0
      ∧ t.get F.dispThrStateForced 0 j = 0 ∧ t.get F.dispThrStateLost 0 j = 0 := by
  subst ht
  refine ⟨State.set_only _ _ _ _ (State.set_only _ _ _ _ (State.set_only _ _ _ _ (State.set_only _ _ _ _ (.refl _ u)
      (by decide)) (by decide)) (by decide)) (by decide), ?_⟩
  simp (disch := decide) [h0]

theorem slotResetClears :
    Completes (.slotReset j src) s fun t => t.get F.dispThrStateState 0 j = 0 ∧ t.get F.dispThrCfgWaitmask 0 j = 0
      ∧ t.get F.dispThrStateFlags 0 j = 0 ∧ t.get F.dispThrStateTimedout 0 j = 0 ∧ t.get F.dispThrStateForced 0 j = 0
      ∧ t.get F.dispThrStateLost 0 j = 0 ∧ ∀ l, j ∉ t.readyList l := by
  refine .intro (dispatch_acts (direct := fun t => t.slotResetOp j src) hr (fun c hc => by rw [hc]; rfl)) ?_
  simp only [State.reported_get, State.reported_readyList]
  unfold State.slotResetOp
  rw [State.onObj_alone ha]
  obtain ⟨hst, hwm, -, hl⟩ := State.cleared_reads ((s.note ⟨.thread j, 1, srcRank src, 0⟩).cancelPending j) j
  generalize (s.note ⟨.thread j, 1, srcRank src, 0⟩).cancelPending j = t at hst hwm hl ⊢
  dsimp only
  generalize ((t.unready j).set F.dispThrStateState 0 j 0).set F.dispThrCfgWaitmask 0 j 0 = u at hst hwm hl ⊢
  generalize ht : (((u.set F.dispThrStateFlags 0 j 0).set F.dispThrStateTimedout 0 j 0).set F.dispThrStateForced 0 j 0).set
    F.dispThrStateLost 0 j 0 = r
  obtain ⟨ho, h0, hf, htimed, hforced, hlost⟩ := State.marksCleared_reads hst ht.symm
  exact ⟨h0, (ho.get _ _ _ (by decide)).trans hwm, hf, htimed, hforced, hlost, fun l =>
    (State.readyList_of_disp (ho.disp (by decide)) l) ▸ hl l⟩

end

/-! ### Flags (R342, R349) -/

/-- Only the events of the tick and the state registers of thread slots change, and no event on another object than flags of `j` is added. -/
structure FlagsChange (j : Nat) (s t : State) : Prop where
  only : Only 0x4000000000000000000000000000000000000400000000000000000000000 s t
  decider : ∀ o, (∀ i, o ≠ .threadFlag j i) → t.decider o = s.decider o
  state : t.get F.dispThrStateState 0 j = s.get F.dispThrStateState 0 j

section
variable {j k : Nat} (s : State) {e : TickEvent} (he : e.obj = .threadFlag j k) (v : Nat)
include he

theorem FlagsChange.of_event : FlagsChange j s ((s.note e).set F.dispThrStateFlags 0 j v) where
  only := State.set_only _ _ _ _ (State.note_only _ (.refl _ s) (by decide)) (by decide)
  decider o ho := (State.decider_set ..).trans (State.decider_note_ne s (he ▸ (ho k).symm))
  state := (State.get_set_apart _ _ _ _ _ _ _ _ (by decide) (by decide)).trans (State.note_get ..)

/-- The event leaves another flag alone. -/
theorem alone_of_other_flag {i : Nat} (hi : i ≠ k) (ha : Alone s (.threadFlag j i)) :
    Alone ((s.note e).set F.dispThrStateFlags 0 j v) (.threadFlag j i) := by
  refine (FlagsChange.of_event s he v).only.alone ha ?_ (by decide) (by decide) (by decide) (by decide) (by decide)
  refine (State.decider_set ..).trans (State.decider_note_ne s (he ▸ fun h => hi ?_))
  injection h with _ h
  exact h.symm

end

theorem State.flags_of_putBit (s : State) (j k m : Nat) (b : Bool) {i : Nat} (hi : i < 32) :
    testBit ((s.set F.dispThrStateFlags 0 j (putBit m k b)).get F.dispThrStateFlags 0 j) i = if i = k then b else testBit m i := by
  have hw : F.dispThrStateFlags.width = 32 := rfl
  rw [State.get_set _ _ _ _ _ (by decide), hw, testBit_nat, Nat.testBit_mod_two_pow, ← testBit_nat, testBit_putBit,
    decide_eq_true hi, Bool.true_and]

theorem FlagsChange.trans {j : Nat} {s t u : State} (h : FlagsChange j s t) (h' : FlagsChange j t u) : FlagsChange j s u where
  only := h.only.step h'.only (by decide)
  decider o ho := (h'.decider o ho).trans (h.decider o ho)
  state := h'.state.trans h.state

/-- Flag by flag of a list, an event on that flag alone writes it. -/
theorem flags_written {j : Nat} {b : Bool} {op : State → Nat → State} (P : State → Prop)
    (hop : ∀ t i, P t → Alone t (.threadFlag j i) → ∃ e, e.obj = .threadFlag j i ∧ op t i
      = (t.note e).set F.dispThrStateFlags 0 j (putBit (t.get F.dispThrStateFlags 0 j) i b))
    (hP : ∀ s t, FlagsChange j s t → P s → P t) (l : List Nat) (hn : l.Nodup) (s : State) (hs : P s) (ha : ∀ i ∈ l,
      Alone s (.threadFlag j i)) :
    FlagsChange j s (l.foldl op s) ∧ ∀ i < 32, testBit ((l.foldl op s).get F.dispThrStateFlags 0 j) i
      = if i ∈ l then b else testBit (s.get F.dispThrStateFlags 0 j) i := by
  induction l generalizing s with
  | nil => exact ⟨⟨.refl _ s, fun _ _ => rfl, rfl⟩, fun i _ => by simp⟩
  | cons k l ih =>
    obtain ⟨hk, hn⟩ := List.nodup_cons.1 hn
    obtain ⟨e, he, ht⟩ := hop s k hs (ha k List.mem_cons_self)
    have hc : FlagsChange j s (op s k) := ht ▸ .of_event s he _
    have hd : ∀ i ∈ l, Alone (op s k) (.threadFlag j i) := fun i hi =>
      ht ▸ alone_of_other_flag s he _ (fun h => hk (h ▸ hi)) (ha i (List.mem_cons_of_mem _ hi))
    obtain ⟨hf, hflags⟩ := ih hn (op s k) (hP s _ hc hs) hd
    refine ⟨hc.trans hf, fun i hi => ?_⟩
    rw [List.foldl_cons, hflags i hi, ht, State.flags_of_putBit _ _ _ _ _ hi]
    by_cases hil : i ∈ l
    · rw [if_pos hil, if_pos (List.mem_cons_of_mem _ hil)]
    · by_cases hik : i = k
      · rw [if_neg hil, if_pos hik, if_pos (hik ▸ List.mem_cons_self)]
      · rw [if_neg hil, if_neg hik, if_neg (fun h => (List.mem_cons.1 h).elim hik hil)]

theorem bitsBelow_nodup (n m : Nat) : (bitsBelow n m).Nodup := List.nodup_range.filter _

section
variable {j : Nat} {src : Src} {s : State}

/-- CLRFLAGS: each named flag of the slot is cleared. -/
theorem State.clrFlagsOp_flags (mask : Nat) (ha : ∀ i < 32, Alone s (.threadFlag j i)) : FlagsChange j s (s.clrFlagsOp j mask src)
    ∧ ∀ i < 32, testBit ((s.clrFlagsOp j mask src).get F.dispThrStateFlags 0 j) i
      = (testBit (s.get F.dispThrStateFlags 0 j) i && !testBit mask i) := by
  obtain ⟨hf, h⟩ := flags_written (j := j) (b := false) (fun _ => True) (fun t i _ hi => ⟨_, rfl,
    State.onObj_alone hi 3 (srcRank src) 1 fun u =>
      u.set F.dispThrStateFlags 0 j (putBit (u.get F.dispThrStateFlags 0 j) i false)⟩) (fun _ _ _ h => h)
    (bitsBelow 32 mask) (bitsBelow_nodup 32 mask) s trivial fun i hi => ha i (mem_bitsBelow.1 hi).1
  refine ⟨hf, fun i hi => (h i hi).trans ?_⟩
  by_cases hm : testBit mask i = true
  · rw [if_pos (mem_bitsBelow.2 ⟨hi, hm⟩), hm, Bool.not_true, Bool.and_false]
  · rw [if_neg (fun h => hm (mem_bitsBelow.1 h).2), Bool.eq_false_iff.2 hm, Bool.not_false, Bool.and_true]

/-- Flags that a source sets, before they wake the thread. -/
theorem setFlag_flags (mask : Nat) (ht : Alone s (.thread j)) (ha : ∀ i < 32, Alone s (.threadFlag j i)) :
    FlagsChange j s ((bitsBelow 32 mask).foldl (fun t i => t.setFlag j (srcRank src) i) s)
    ∧ ∀ i < 32, testBit (((bitsBelow 32 mask).foldl (fun t i => t.setFlag j (srcRank src) i) s).get F.dispThrStateFlags 0 j) i
      = (testBit (s.get F.dispThrStateFlags 0 j) i || testBit mask i) := by
  obtain ⟨hf, h⟩ := flags_written (j := j) (b := true) (fun t => t.decider (.thread j) = none)
    (fun t i hd hi => ⟨_, rfl, State.setFlag_alone (srcRank src) hd hi⟩)
    (fun s t h hd => (h.decider _ fun i => by simp).trans hd) (bitsBelow 32 mask) (bitsBelow_nodup 32 mask) s ht.1
    fun i hi => ha i (mem_bitsBelow.1 hi).1
  refine ⟨hf, fun i hi => (h i hi).trans ?_⟩
  by_cases hm : testBit mask i = true
  · rw [if_pos (mem_bitsBelow.2 ⟨hi, hm⟩), hm, Bool.or_true]
  · rw [if_neg (fun h => hm (mem_bitsBelow.1 h).2), Bool.eq_false_iff.2 hm, Bool.or_false]

/-- A set flag that the slot waits for satisfies its wait, where it does not wait for all. -/
theorem State.satisfied_of_flag {t : State} {i : Nat} (hf : testBit (t.get F.dispThrStateFlags 0 j) i = true)
    (hw : testBit (t.get F.dispThrCfgWaitmask 0 j) i = true) (hall : t.bit F.dispThrCfgWaitAll 0 j = false) : t.satisfied j = true := by
  rw [testBit_nat] at hf hw
  have hand : (Nat.land (t.get F.dispThrStateFlags 0 j) (t.get F.dispThrCfgWaitmask 0 j)).testBit i = true := by
    show (_ &&& _ : Nat).testBit i = true
    rw [Nat.testBit_and, hf, hw]
    rfl
  have hne {n : Nat} (h : n.testBit i = true) : n ≠ 0 := fun h0 => by rw [h0, Nat.zero_testBit] at h; cases h
  unfold State.satisfied
  dsimp only
  rw [if_neg (hne hw), hall, if_neg (by decide), decide_eq_true (hne hand)]

theorem setflagsSets (flags : Nat) (hr : Reaches s src) (ht : Alone s (.thread j)) (ha : ∀ i < 32, Alone s (.threadFlag j i)) :
    Completes (.setflags j flags src) s fun t =>
      (∀ i < 32, testBit (t.get F.dispThrStateFlags 0 j) i = (testBit (s.get F.dispThrStateFlags 0 j) i || testBit flags i))
      ∧ (∀ i < 32, testBit flags i = true → testBit (s.get F.dispThrCfgWaitmask 0 j) i = true →
          s.bit F.dispThrCfgWaitAll 0 j = false → s.get F.dispThrStateState 0 j = 3 → t.get F.dispThrStateState 0 j = 1) := by
  refine .intro (dispatch_acts (direct := fun t => t.setFlags j flags src) hr (fun c hc => by rw [hc]; rfl)) ?_
  simp only [State.reported_get]
  unfold State.setFlags
  obtain ⟨hf, hflags⟩ := setFlag_flags (src := src) flags ht ha
  generalize (bitsBelow 32 flags).foldl (fun t i => t.setFlag j (srcRank src) i) s = t at hf hflags ⊢
  refine ⟨fun i hi => by rw [State.wakeByFlags_flags, hflags i hi], fun i hi hb hw hall h3 => ?_⟩
  have hsat : t.satisfied j = true := State.satisfied_of_flag (by rw [hflags i hi, hb, Bool.or_true])
    (by rwa [hf.only.get _ _ _ (by decide)]) ((hf.only.bit _ _ _ (by decide)).trans hall)
  have halone : Alone t (.thread j) :=
    hf.only.alone ht (hf.decider _ fun i => by simp) (by decide) (by decide) (by decide) (by decide) (by decide)
  unfold State.wakeByFlags
  rw [if_pos hsat, if_pos (hf.state.trans h3), State.onObj_alone halone]
  exact State.makeReady_state ..

theorem clrflagsClears (flags : Nat) (hr : Reaches s src) (ha : ∀ i < 32, Alone s (.threadFlag j i)) :
    Completes (.clrflags j flags src) s fun t => t.get F.dispThrStateState 0 j = s.get F.dispThrStateState 0 j
      ∧ ∀ i < 32, testBit (t.get F.dispThrStateFlags 0 j) i = (testBit (s.get F.dispThrStateFlags 0 j) i && !testBit flags i) := by
  refine .intro (dispatch_acts (direct := fun t => t.clrFlagsOp j flags src) hr (fun c hc => by rw [hc]; rfl)) ?_
  simp only [State.reported_get]
  obtain ⟨hf, h⟩ := State.clrFlagsOp_flags (src := src) flags ha
  exact ⟨hf.state, h⟩

end

/-! ### An operation that waits, a timeout, and THR_CFG (R338, R343, R347) -/

theorem setwaitQueues (c mask : Nat) (s : State) (h : (s.coreX c).sampled = true) (hl : (s.coreX c).queue.length < 16) :
    Completes (.setwait c mask) s fun t => (t.coreX c).queue = (s.coreX c).queue ++ [{ op := .setwait mask }]
      ∧ (t.coreX c).now = (s.coreX c).now ∧ t.regs = s.regs := by
  refine .intro (t := s.queueOp c { op := .setwait mask }) ?_ ?_
  · show Host.Outcome.next (s.coreIssues c (.setwait mask)) = _
    unfold State.coreIssues
    dsimp only
    rw [if_neg (by rw [h]; simp)]
  · unfold State.queueOp
    dsimp only
    rw [if_pos hl, State.coreX_setCoreX, if_pos rfl]
    exact ⟨rfl, rfl, rfl⟩

theorem waitTimeoutReadies (j : Nat) (s : State) (ha : Alone s (.thread j)) (h3 : s.get F.dispThrStateState 0 j = 3)
    (hd : unitAt 0 s.disp.deadline j ≠ 0) (ht : unitAt 0 s.disp.deadline j ≤ s.ticks) :
    Completes (.waitTimeout j) s fun t => t.get F.dispThrStateState 0 j = 1 ∧ t.get F.dispThrStateTimedout 0 j = 1 := by
  refine .intro ((if_pos ⟨h3, hd, ht⟩).trans (congrArg Host.Outcome.next (State.onObj_alone ha ..))) ⟨?_, ?_⟩
  · exact (State.get_setBit_apart _ _ _ _ _ _ _ _ (by decide) (by decide)).trans (State.makeReady_state ..)
  · exact State.get_setBit_self _ _ _ _ _ (by decide) (by decide)

theorem State.storeThrCfg_reads (s : State) (j : Nat) (v : Word) : (s.storeThrCfg j v).get F.dispThrCfgPrio 0 j = bitsOf v 0 6
    ∧ (s.storeThrCfg j v).get F.dispThrCfgAffinity 0 j = (if bitsOf v 8 4 = 0 then 15 else bitsOf v 8 4)
    ∧ (s.storeThrCfg j v).get F.dispThrCfgTimeout 0 j = bitsOf v 12 20 ∧ (s.storeThrCfg j v).get F.dispThrCfgWaitmask 0 j = bitsOf v 32 32 := by
  have h6 : bitsOf v 0 6 < 2 ^ 6 := bitsOf_lt ..
  have h4 : bitsOf v 8 4 < 2 ^ 4 := bitsOf_lt ..
  have h20 : bitsOf v 12 20 < 2 ^ 20 := bitsOf_lt ..
  have h32 : bitsOf v 32 32 < 2 ^ 32 := bitsOf_lt ..
  have ha : (if bitsOf v 8 4 = 0 then 15 else bitsOf v 8 4) < 2 ^ 4 := by
    split
    · decide
    · exact h4
  unfold State.storeThrCfg
  generalize bitsOf v 0 6 = p, bitsOf v 12 20 = t, bitsOf v 32 32 = m, bitsOf v 6 1 = w at h6 h20 h32 ⊢
  generalize bitsOf v 8 4 = a at ha ⊢
  dsimp only
  generalize (if a = 0 then 15 else a) = x at ha ⊢
  refine ⟨?_, ?_, ?_, (State.get_set_self _ _ _ _ _ (by decide)).trans (Nat.mod_eq_of_lt h32)⟩
  · simp (disch := decide)
    exact h6
  · simp (disch := decide)
    exact ha
  · simp (disch := decide)
    exact h20

theorem thrCfgStores (j : Nat) (v : Word) (s : State) :
    Completes (.thrCfgWrite j v) s fun t => t.get F.dispThrCfgPrio 0 j = bitsOf v 0 6
      ∧ t.get F.dispThrCfgAffinity 0 j = (if bitsOf v 8 4 = 0 then 15 else bitsOf v 8 4)
      ∧ t.get F.dispThrCfgTimeout 0 j = bitsOf v 12 20 ∧ t.get F.dispThrCfgWaitmask 0 j = bitsOf v 32 32
      ∧ (s.get F.dispThrStateState 0 j = 1 → s.get F.dispThrCfgPrio 0 j ≠ bitsOf v 0 6 →
          t.readyList (bitsOf v 0 6) = ((s.readyList (bitsOf v 0 6)).filter fun k => k != j) ++ [j]) := by
  refine .intro (t := s.thrCfgOp j v) rfl ?_
  have hread := s.storeThrCfg_reads j v
  have hl := State.readyList_of_disp ((s.storeThrCfg_within j v).disp (by decide))
  unfold State.thrCfgOp
  generalize s.storeThrCfg j v = u at hread hl ⊢
  dsimp only
  generalize bitsOf v 0 6 = p at hread ⊢
  by_cases hc : s.get F.dispThrStateState 0 j = 1 ∧ s.get F.dispThrCfgPrio 0 j ≠ p
  · rw [if_pos hc]
    have ho : Only 0x1000000000000000000000000000000000000000000000000000000000000000 u ((u.unready j).setReadyList p ((u.unready j).readyList p ++ [j])) :=
      State.setReadyList_only _ _ (State.unready_within ..) (by decide)
    obtain ⟨hp, ha, ht, hm⟩ := hread
    exact ⟨(ho.get _ _ _ (by decide)).trans hp, (ho.get _ _ _ (by decide)).trans ha, (ho.get _ _ _ (by decide)).trans ht,
      (ho.get _ _ _ (by decide)).trans hm, fun _ _ => by rw [State.setReadyList_readyList, if_pos rfl, State.unready_readyList, hl]⟩
  · rw [if_neg hc]
    exact ⟨hread.1, hread.2.1, hread.2.2.1, hread.2.2.2, fun h1 hne => absurd ⟨h1, hne⟩ hc⟩

end Sys2Proof.Machine
end

