-- ==== Sys2Proof/Proofs/Switches.lean ====
section
/-!
PROOFS. Switches.lean: the own-thread operations of a core and its switches (R337, R339, R340, R346, R349, R350); from these and
Threads.lean O39.
-/
namespace Sys2Proof.Machine
set_option Elab.async false

/-! ### What the choice of R339 rests on -/

/-- The choice of threads sees the same in both states: registers, time, ready lists, and what each core runs since when. -/
structure SameChoice (s t : State) : Prop where
  regs : t.regs = s.regs
  ticks : t.ticks = s.ticks
  ready : t.disp.ready = s.disp.ready
  thread : ∀ k, (t.coreX k).thread = (s.coreX k).thread
  slice : ∀ k, (t.coreX k).sliceStart = (s.coreX k).sliceStart

namespace SameChoice

variable {s t : State} (h : SameChoice s t)
include h

theorem get (f : Fld) (i j : Nat) : t.get f i j = s.get f i j := State.get_of_regs h.regs ..

theorem readyList (l : Nat) : t.readyList l = s.readyList l := State.readyList_of_ready h.ready l

theorem runningOn (c : Nat) : t.runningOn c = s.runningOn c := by
  unfold State.runningOn
  simp only [h.thread, h.get]

theorem sliceEnded (c : Nat) : t.sliceEnded c = s.sliceEnded c := by
  unfold State.sliceEnded
  rw [h.slice, h.get, h.ticks]

theorem excluded (c : Nat) : t.excluded c = s.excluded c := by
  unfold State.excluded
  simp only [h.runningOn, h.get]

theorem satisfied (j : Nat) : t.satisfied j = s.satisfied j := by
  unfold State.satisfied State.bit
  simp only [h.get]

theorem preemptCore (lvl : Nat) (cs : List Nat) : t.preemptCore lvl cs = s.preemptCore lvl cs := by
  induction cs with
  | nil => rfl
  | cons c cs ih =>
    unfold State.preemptCore
    simp only [ih, h.runningOn, h.get]

theorem bestCore (idle claimed : List Nat) (lvl k : Nat) : t.bestCore idle claimed lvl k = s.bestCore idle claimed lvl k := by
  unfold State.bestCore State.coreRuns
  simp only [h.preemptCore, h.runningOn, h.get, h.sliceEnded]

theorem targetOf (idle : List Nat) (c : Nat) : t.targetOf idle c = s.targetOf idle c := by
  unfold State.targetOf State.targets
  simp only [h.readyList, h.bestCore]

theorem set (f : Fld) (i j v : Nat) : SameChoice (s.set f i j v) (t.set f i j v) where
  regs := by
    show (t.wr _ _).regs = (s.wr _ _).regs
    unfold State.wr
    have hr : t.rd (f.key i j) = s.rd (f.key i j) := State.rd_of_regs h.regs _
    rw [h.regs, hr]
  ticks := h.ticks
  ready := h.ready
  thread := h.thread
  slice := h.slice

theorem makeReady (j : Nat) (head : Bool) : SameChoice (s.makeReady j head) (t.makeReady j head) where
  regs := (h.set F.dispThrStateState 0 j 1).regs
  ticks := h.ticks
  ready := by
    have hl : (t.unready j).readyList (t.get F.dispThrCfgPrio 0 j) = (s.unready j).readyList (s.get F.dispThrCfgPrio 0 j) := by
      rw [State.unready_readyList, State.unready_readyList, h.readyList, h.get]
    show putUnit [] (t.disp.ready.map _) (t.get F.dispThrCfgPrio 0 j) _ = putUnit [] (s.disp.ready.map _) (s.get F.dispThrCfgPrio 0 j) _
    rw [h.ready, hl, h.get]
  thread := h.thread
  slice := h.slice

end SameChoice

theorem SameChoice.trans {s t u : State} (h : SameChoice s t) (h' : SameChoice t u) : SameChoice s u :=
  ⟨h'.regs.trans h.regs, h'.ticks.trans h.ticks, h'.ready.trans h.ready, fun k => (h'.thread k).trans (h.thread k),
    fun k => (h'.slice k).trans (h.slice k)⟩

/-- What a core holds beside its thread and its slice plays no part in the choice. -/
theorem SameChoice.of_setCoreX {s : State} {c : Nat} {x : CoreX} (ht : x.thread = (s.coreX c).thread)
    (hs : x.sliceStart = (s.coreX c).sliceStart) : SameChoice s (s.setCoreX c x) where
  regs := rfl
  ticks := rfl
  ready := rfl
  thread k := by rw [State.coreX_setCoreX]; split <;> [(next h => rw [h, ht]); rfl]
  slice k := by rw [State.coreX_setCoreX]; split <;> [(next h => rw [h, hs]); rfl]

/-! ### An own-thread operation that stands alone (R347, R349) -/

/-- The state in which an own-thread operation that stands alone in its tick acts: it has left its core. -/
def State.ownState (s : State) (c : Nat) (e : CoreEntry) : State :=
  (s.ownSampled c e).setCoreX c { (s.ownSampled c e).coreX c with now := none }

theorem State.ownSampled_choice (s : State) (c : Nat) (e : CoreEntry) : SameChoice s (s.ownSampled c e) := by
  unfold State.ownSampled State.opSampled
  refine SameChoice.trans ?_ (.of_setCoreX ?_ ?_)
  · exact .of_setCoreX rfl rfl
  · rfl
  · rfl

theorem State.ownState_choice (s : State) (c : Nat) (e : CoreEntry) : SameChoice s (s.ownState c e) := by
  have h := s.ownSampled_choice c e
  unfold State.ownState
  generalize s.ownSampled c e = t at h ⊢
  exact h.trans (.of_setCoreX rfl rfl)

/-- The operations that are sampled for their own thread. -/
def CoreOp.own : CoreOp → Bool
  | .setwait _ => true
  | .takeflags => true
  | .take _ => true
  | .release _ _ _ _ => true
  | op => op.isSwitch

/-- Such an operation is sampled, and acts at the end of its tick. -/
theorem coreIssues_own {s : State} {c : Nat} {op : CoreOp} (h : Samples s c) (ho : op.own = true) :
    s.coreIssues c op = s.ownSampled c { op := op } := by
  refine State.coreIssues_samples h.2.1 ?_
  cases op with
  | setwait _ | takeflags | take _ | release _ _ _ _ | wait | yield | switch => rfl
  | _ => cases ho

theorem State.opDone_get (s : State) (c : Nat) (e : CoreEntry) (v : Nat) (f : Fld) (i j : Nat) : (s.opDone c e v).get f i j = s.get f i j :=
  State.get_of_regs (t := s.opDone c e v) (s := s) rfl ..

section
variable {s : State} {c : Nat} (h : Samples s c)
include h

theorem ownActs_acts {op : CoreOp} (he : op.isSwitch = false) :
    (s.ownSampled c { op := op }).ownActs = (s.ownState c { op := op }).ownOp c { op := op } := by
  obtain ⟨hc, -, hnone⟩ := h
  exact State.ownActs_single hc ((s.ownSampled_now c _ c).trans (if_pos rfl))
    (fun k hk => ((s.ownSampled_now c _ k).trans (if_neg hk)).trans (hnone k)) he

theorem setwaitWrites {j : Nat} (mask : Nat) (hj : s.runningOn c = some j) :
    Completes (.setwait c mask) s fun t => t.ownActs.get F.dispThrCfgWaitmask 0 j = mask % 2 ^ 32 := by
  refine .intro (congrArg Host.Outcome.next (coreIssues_own h rfl)) ?_
  rw [ownActs_acts h rfl]
  have hr := (s.ownState_choice c { op := .setwait mask }).runningOn c
  generalize s.ownState c { op := .setwait mask } = t at hr ⊢
  unfold State.ownOp
  dsimp only
  rw [hr, hj]
  exact (State.opDone_get ..).trans (State.get_set_self _ _ _ _ _ (by decide))

theorem takeflagsTakes {j : Nat} (hj : s.runningOn c = some j) :
    Completes (.takeflags c) s fun t =>
      (t.ownActs.coreX c).result = Nat.land (s.get F.dispThrStateFlags 0 j) (s.get F.dispThrCfgWaitmask 0 j)
      ∧ t.ownActs.get F.dispThrStateFlags 0 j = s.get F.dispThrStateFlags 0 j - (t.ownActs.coreX c).result := by
  refine .intro (congrArg Host.Outcome.next (coreIssues_own h rfl)) ?_
  rw [ownActs_acts h rfl]
  have hsame := s.ownState_choice c { op := .takeflags }
  have hr := hsame.runningOn c
  have hf := hsame.get F.dispThrStateFlags 0 j
  have hm := hsame.get F.dispThrCfgWaitmask 0 j
  generalize s.ownState c { op := .takeflags } = t at hr hf hm ⊢
  have htake : t.takeFlagsOp c = (Nat.land (s.get F.dispThrStateFlags 0 j) (s.get F.dispThrCfgWaitmask 0 j),
      t.set F.dispThrStateFlags 0 j (s.get F.dispThrStateFlags 0 j - Nat.land (s.get F.dispThrStateFlags 0 j) (s.get F.dispThrCfgWaitmask 0 j))) := by
    unfold State.takeFlagsOp
    rw [hr, hj]
    dsimp only
    rw [hf, hm]
  unfold State.ownOp
  dsimp only
  rw [htake, State.opDone_result _ c rfl]
  refine ⟨rfl, (State.opDone_get ..).trans ((State.get_set_self _ _ _ _ _ (by decide)).trans (Nat.mod_eq_of_lt ?_))⟩
  exact Nat.lt_of_le_of_lt (Nat.sub_le ..) (s.get_lt ..)

/-! ### Switches (R339, R340, R346) -/

/-- What a switch does at the end of its tick: its thread returns or waits, and the core takes the target of the choice. -/
theorem ownActs_switches {op : CoreOp} (he : op.isSwitch = true) {j : Nat} (hj : s.runningOn c = some j) :
    (s.ownSampled c { op := op }).ownActs =
      let v := (s.ownState c { op := op }).leaveThread c j op
      (v.switchTo c (some j) (v.targetOf [c] c)).2.opDone c { op := op } (v.switchTo c (some j) (v.targetOf [c] c)).1 := by
  obtain ⟨hc, -, hnone⟩ := h
  have hl := State.sampled_single hc ((s.ownSampled_now c { op := op } c).trans (if_pos rfl))
    fun k hk => ((s.ownSampled_now c _ k).trans (if_neg hk)).trans (hnone k)
  have hown : (s.ownState c { op := op }).ownOp c { op := op } = (s.ownState c { op := op }).leaveThread c j op := by
    have hr := ((s.ownState_choice c { op := op }).runningOn c).trans hj
    generalize s.ownState c { op := op } = t at hr ⊢
    unfold State.ownOp
    cases op with
    | wait | yield | switch => dsimp only; rw [hr]
    | _ => cases he
  have hrun := ((s.ownSampled_choice c { op := op }).runningOn c).trans hj
  unfold State.ownActs
  dsimp only
  rw [hl, if_neg (by simp)]
  simp only [List.map_cons, List.map_nil, List.foldl_cons, List.foldl_nil, List.filter_cons, List.filter_nil, he, if_true, hrun]
  rw [← hown, show List.find? (fun x => x.1 == c) [(c, some j)] = some (c, some j) by simp]
  unfold State.ownState
  generalize State.ownOp _ c { op := op } = v
  rfl

end

theorem State.coreX_of_disp {s t : State} (h : t.disp = s.disp) (c : Nat) : t.coreX c = s.coreX c := by
  unfold State.coreX
  rw [h]

theorem State.setCoreX_readyList (s : State) (c : Nat) (x : CoreX) (l : Nat) : (s.setCoreX c x).readyList l = s.readyList l :=
  State.readyList_of_ready (t := s.setCoreX c x) (s := s) rfl l

section
variable (t : State) (c k : Nat)

/-- Core `c` runs what `x` says, and is not idle. -/
theorem State.coreRunning_reads (x : CoreX) : let u := ((t.setCoreX c x).set F.dispCoreStatIdle 0 c 0).set F.dispCoreStatThread 0 c k
    u.get F.dispThrStateState 0 k = t.get F.dispThrStateState 0 k ∧ u.get F.dispThrStateCore 0 k = t.get F.dispThrStateCore 0 k
    ∧ u.coreX c = x ∧ u.get F.dispCoreStatIdle 0 c = 0
    ∧ u.get F.dispCoreStatPending 0 c = t.get F.dispCoreStatPending 0 c ∧ ∀ l, u.readyList l = t.readyList l := by
  refine ⟨?_, ?_, ?_, ?_, ?_, fun l => ?_⟩
  · simp (disch := decide)
  · simp (disch := decide)
  · rw [State.coreX_of_disp (State.set_disp ..), State.coreX_of_disp (State.set_disp ..), State.coreX_setCoreX, if_pos rfl]
  · simp (disch := decide)
  · simp (disch := decide)
  · rw [State.readyList_of_disp (State.set_disp ..), State.readyList_of_disp (State.set_disp ..), State.setCoreX_readyList]

/-- The slot of a thread that runs on core `c`. -/
theorem State.slotRunning_reads {c : Nat} (hc : c < 4) : let u := (t.set F.dispThrStateState 0 k 2).set F.dispThrStateCore 0 k c
    u.get F.dispThrStateState 0 k = 2 ∧ u.get F.dispThrStateCore 0 k = c
    ∧ u.get F.dispCoreStatPending 0 c = t.get F.dispCoreStatPending 0 c ∧ ∀ l, u.readyList l = t.readyList l := by
  refine ⟨?_, (State.get_set_self _ _ _ _ _ (by decide)).trans (Nat.mod_eq_of_lt hc), ?_, fun l => ?_⟩
  · exact (State.get_set_apart _ _ _ _ _ _ _ _ (by decide) (by decide)).trans (State.get_set_self _ _ _ _ _ (by decide))
  · simp (disch := decide)
  · rw [State.readyList_of_disp (State.set_disp ..), State.readyList_of_disp (State.set_disp ..)]

end

/-- The thread that core `c` takes. -/
theorem State.coreTakes_reads (v : State) {c : Nat} (hc : c < 4) (k : Nat) : (v.coreTakes c k).get F.dispThrStateState 0 k = 2
    ∧ (v.coreTakes c k).get F.dispThrStateCore 0 k = c ∧ ((v.coreTakes c k).coreX c).thread = some k
    ∧ (v.coreTakes c k).get F.dispCoreStatIdle 0 c = 0
    ∧ (v.coreTakes c k).get F.dispCoreStatPending 0 c = v.get F.dispCoreStatPending 0 c ∧ ∀ l, k ∉ (v.coreTakes c k).readyList l := by
  unfold State.coreTakes
  have hp := ((v.waitSample k).unready_within k).get F.dispCoreStatPending 0 c (by decide)
  rw [(v.waitSample_within k).get F.dispCoreStatPending 0 c (by decide)] at hp
  have hl := State.not_mem_unready (v.waitSample k) k
  generalize (v.waitSample k).unready k = u at hl hp ⊢
  rw [← hp]
  obtain ⟨h2, hcore, hpend, hlist⟩ := State.slotRunning_reads u k hc
  generalize (u.set F.dispThrStateState 0 k 2).set F.dispThrStateCore 0 k c = t at h2 hcore hpend hlist ⊢
  dsimp only
  obtain ⟨h2', hcore', hx, hi, hpend', hlist'⟩ := t.coreRunning_reads c k { t.coreX c with thread := some k, sliceStart := t.ticks }
  exact ⟨h2'.trans h2, hcore'.trans hcore, congrArg CoreX.thread hx, hi, hpend'.trans hpend, fun l => by
    rw [hlist', hlist]
    exact hl l⟩

/-- The core that has no target is idle. -/
theorem State.coreIdle_reads (v : State) (c : Nat) : ((v.coreIdle c).coreX c).thread = none
    ∧ (v.coreIdle c).get F.dispCoreStatIdle 0 c = 1 ∧ (v.coreIdle c).get F.dispCoreStatPending 0 c = v.get F.dispCoreStatPending 0 c := by
  unfold State.coreIdle
  refine ⟨?_, ?_, ?_⟩
  · rw [State.coreX_of_disp (State.set_disp ..), State.coreX_of_disp (State.set_disp ..), State.coreX_setCoreX, if_pos rfl]
  · simp (disch := decide)
  · simp (disch := decide)

theorem State.opDone_thread (s : State) (c : Nat) (e : CoreEntry) (v : Nat) : ((s.opDone c e v).coreX c).thread = (s.coreX c).thread := by
  unfold State.opDone
  dsimp only
  rw [State.coreX_setCoreX, if_pos rfl]

theorem State.opDone_readyList (s : State) (c : Nat) (e : CoreEntry) (v l : Nat) : (s.opDone c e v).readyList l = s.readyList l :=
  State.readyList_of_ready rfl l

/-- A core that switches takes the target of the choice, and its operation returns the result word. -/
theorem switched_of_choice {u v : State} {c j : Nat} {e : CoreEntry} (hc : c < 4) (he : e.op.isLoad = true) (h : SameChoice u v) :
    Switched u ((v.switchTo c (some j) (v.targetOf [c] c)).2.opDone c e (v.switchTo c (some j) (v.targetOf [c] c)).1) c j := by
  unfold Switched
  rw [← h.targetOf]
  simp only [State.opDone_get, State.opDone_thread, State.opDone_readyList, State.opDone_result _ c he]
  unfold State.switchTo
  have hp : (v.set F.dispCoreStatPending 0 c 0).get F.dispCoreStatPending 0 c = 0 := State.get_set_self _ _ _ _ _ (by decide)
  cases v.targetOf [c] c with
  | none =>
    dsimp only
    obtain ⟨hth, hi, hpend⟩ := (v.set F.dispCoreStatPending 0 c 0).coreIdle_reads c
    exact ⟨hpend.trans hp, fun k hk => absurd hk (by simp), fun _ => ⟨hth, hi, rfl⟩⟩
  | some k =>
    dsimp only
    obtain ⟨h2, hcore, hth, hi, hpend, hl⟩ := (v.set F.dispCoreStatPending 0 c 0).coreTakes_reads hc k
    refine ⟨hpend.trans hp, fun k' hk => ?_, fun hk => absurd hk (by simp)⟩
    injection hk with hk
    subst hk
    refine ⟨h2, hcore, hth, hi, ?_, hl⟩
    by_cases hj : k = j
    · rw [if_pos (by rw [hj]), if_pos hj]
    · rw [if_neg (fun hs => hj (by injection hs with hs; exact hs.symm)), if_neg hj]

section
variable {s : State} {c j : Nat} (h : Samples s c) (hj : s.runningOn c = some j)
include h hj

theorem yieldSwitches : Completes (.yield c) s fun t => Switched (s.makeReady j false) t.ownActs c j := by
  refine .intro (congrArg Host.Outcome.next (coreIssues_own h rfl)) ?_
  rw [ownActs_switches h rfl hj]
  exact switched_of_choice h.1 rfl ((s.ownState_choice c _).makeReady j false)

theorem switchSwitches :
    Completes (.switch c) s fun t => Switched (s.makeReady j (!(s.sliceEnded c || s.excluded c))) t.ownActs c j := by
  refine .intro (congrArg Host.Outcome.next (coreIssues_own h rfl)) ?_
  rw [ownActs_switches h rfl hj]
  have hs := s.ownState_choice c { op := .switch }
  have hm := hs.makeReady j (!(s.sliceEnded c || s.excluded c))
  rw [← hs.sliceEnded, ← hs.excluded] at hm ⊢
  exact switched_of_choice h.1 rfl hm

omit h hj in
/-- A wait is satisfied whatever the marks of the last one. -/
theorem State.satisfied_marks (t : State) (j : Nat) :
    ((t.set F.dispThrStateTimedout 0 j 0).set F.dispThrStateForced 0 j 0).satisfied j = t.satisfied j := by
  unfold State.satisfied State.bit
  simp (disch := decide)

theorem waitSwitches (hsat : s.satisfied j = true) :
    Completes (.waitOp c) s fun t =>
      Switched (((s.set F.dispThrStateTimedout 0 j 0).set F.dispThrStateForced 0 j 0).makeReady j true) t.ownActs c j := by
  refine .intro (congrArg Host.Outcome.next (coreIssues_own h rfl)) ?_
  rw [ownActs_switches h rfl hj]
  have hs := s.ownState_choice c { op := .wait }
  have hv : (s.ownState c { op := .wait }).leaveThread c j .wait = (((s.ownState c { op := .wait }).set F.dispThrStateTimedout 0 j 0).set
      F.dispThrStateForced 0 j 0).makeReady j true :=
    if_pos ((State.satisfied_marks ..).trans ((hs.satisfied j).trans hsat))
  rw [hv]
  exact switched_of_choice h.1 rfl (((hs.set ..).set ..).makeReady j true)

omit h hj in
/-- The targets of the choice are READY. -/
theorem State.targetOf_mem {t : State} {idle : List Nat} {c k : Nat} (h : t.targetOf idle c = some k) : ∃ l, k ∈ t.readyList l := by
  have hall : ∀ e ∈ t.targets idle, ∃ l, e.2 ∈ t.readyList l := by
    unfold State.targets
    refine List.foldlRecOn (motive := fun (acc : List (Nat × Nat)) => ∀ e ∈ acc, ∃ l,
      e.2 ∈ t.readyList l) _ _ (fun e he => by cases he) ?_
    intro acc hacc lvl _
    refine List.foldlRecOn (motive := fun (acc : List (Nat × Nat)) => ∀ e ∈ acc, ∃ l, e.2 ∈ t.readyList l) _ _ hacc ?_
    intro acc hacc k hk
    split
    · intro e he
      rcases List.mem_append.1 he with he | he
      · exact hacc e he
      · exact ⟨lvl, (List.mem_singleton.1 he) ▸ hk⟩
    · exact hacc
  obtain ⟨e, he, rfl⟩ := Option.map_eq_some_iff.1 h
  exact hall e (List.mem_of_find?_eq_some he)

omit h hj in
/-- A thread that a core takes leaves every deadline as it is. -/
theorem State.coreTakes_deadline (t : State) (c k : Nat) : (t.coreTakes c k).disp.deadline = t.disp.deadline := by
  unfold State.coreTakes
  rw [State.set_disp, State.set_disp]
  have hx (u : State) (x : CoreX) : (u.setCoreX c x).disp.deadline = u.disp.deadline := rfl
  have hu (u : State) : (u.unready k).disp.deadline = u.disp.deadline := rfl
  rw [hx, State.set_disp, State.set_disp, hu]
  exact congrArg DispX.deadline ((t.waitSample_within k).disp (by decide))


omit h hj in
/-- What a switch leaves of a thread that is in no ready list. -/
theorem State.switchTo_other (v : State) (c j : Nat) (own tg : Option Nat) (hk : tg ≠ some j) :
    (v.switchTo c own tg).2.get F.dispThrStateState 0 j = v.get F.dispThrStateState 0 j
    ∧ (v.switchTo c own tg).2.get F.dispThrStateTimedout 0 j = v.get F.dispThrStateTimedout 0 j
    ∧ (v.switchTo c own tg).2.get F.dispThrStateForced 0 j = v.get F.dispThrStateForced 0 j
    ∧ (v.switchTo c own tg).2.disp.deadline = v.disp.deadline := by
  unfold State.switchTo
  have hset : Only 0x20000000000000000000000 v (v.set F.dispCoreStatPending 0 c 0) := State.set_only _ _ _ _ (.refl _ v) (by decide)
  rw [← hset.get F.dispThrStateState 0 j (by decide), ← hset.get F.dispThrStateTimedout 0 j (by decide),
    ← hset.get F.dispThrStateForced 0 j (by decide), ← hset.disp (by decide)]
  generalize v.set F.dispCoreStatPending 0 c 0 = t
  cases tg with
  | none =>
    dsimp only
    have hi := t.coreIdle_within c
    exact ⟨hi.get _ _ _ (by decide), hi.get _ _ _ (by decide), hi.get _ _ _ (by decide), by
      unfold State.coreIdle
      rw [State.set_disp, State.set_disp]
      rfl⟩
  | some k =>
    dsimp only
    have hkj : k ≠ j := fun h => hk (by rw [h])
    have hget (f : Fld) (hf : f.reg = .dispThrState) : (t.coreTakes c k).get f 0 j = t.get f 0 j := by
      have h1 : RegName.dispCoreStat ≠ f.reg := by rw [hf]; decide
      unfold State.coreTakes
      dsimp only
      rw [State.get_set_ne _ _ _ _ _ _ _ _ (by decide) (.inl h1), State.get_set_ne _ _ _ _ _ _ _ _ (by decide) (.inl h1),
        State.get_setCoreX,
        State.get_set_ne _ _ _ _ _ _ _ _ (by decide) (.inr (.inr (.inl hkj))),
          State.get_set_ne _ _ _ _ _ _ _ _ (by decide) (.inr (.inr (.inl hkj))),
        ((t.waitSample k).unready_within k).get _ _ _ (by rw [hf]; decide), (t.waitSample_within k).get _ _ _ (by rw [hf]; decide)]
    refine ⟨hget _ rfl, hget _ rfl, hget _ rfl, ?_⟩
    exact t.coreTakes_deadline c k

omit h hj in
/-- A thread whose wait is not satisfied is WAITING, with its deadline. -/
theorem State.waitThread_waits (t : State) (j : Nat) (hsat : t.satisfied j = false) : (t.waitThread j).get F.dispThrStateState 0 j = 3
    ∧ (t.waitThread j).get F.dispThrStateTimedout 0 j = 0 ∧ (t.waitThread j).get F.dispThrStateForced 0 j = 0
    ∧ (∀ l, (t.waitThread j).readyList l = t.readyList l) ∧ unitAt 0 (t.waitThread j).disp.deadline j
      = (if t.get F.dispThrCfgTimeout 0 j = 0 then 0 else t.ticks + t.get F.dispThrCfgTimeout 0 j * 256) := by
  have hs := (State.satisfied_marks t j).trans hsat
  have hmarks : ((t.set F.dispThrStateTimedout 0 j 0).set F.dispThrStateForced 0 j 0).get F.dispThrStateTimedout 0 j = 0
      ∧ ((t.set F.dispThrStateTimedout 0 j 0).set F.dispThrStateForced 0 j 0).get F.dispThrStateForced 0 j = 0 := by
    simp (disch := decide)
  have ho : Only 0x400000000000000000000000 t ((t.set F.dispThrStateTimedout 0 j 0).set F.dispThrStateForced 0 j 0) :=
    State.set_only _ _ _ _ (State.set_only _ _ _ _ (.refl _ t) (by decide)) (by decide)
  unfold State.waitThread
  rw [← ho.get F.dispThrCfgTimeout 0 j (by decide), ← ho.ticks (by decide)]
  have hl := State.readyList_of_disp (ho.disp (by decide))
  generalize (t.set F.dispThrStateTimedout 0 j 0).set F.dispThrStateForced 0 j 0 = u at hs hmarks hl ⊢
  dsimp only
  rw [hs, if_neg (by decide)]
  have h3 : (u.set F.dispThrStateState 0 j 3).get F.dispThrStateState 0 j = 3 := State.get_set_self _ _ _ _ _ (by decide)
  have ht : (u.set F.dispThrStateState 0 j 3).get F.dispThrStateTimedout 0 j = 0 :=
    (State.get_set_apart _ _ _ _ _ _ _ _ (by decide) (by decide)).trans hmarks.1
  have hf : (u.set F.dispThrStateState 0 j 3).get F.dispThrStateForced 0 j = 0 :=
    (State.get_set_apart _ _ _ _ _ _ _ _ (by decide) (by decide)).trans hmarks.2
  refine ⟨h3, ht, hf, fun l => ?_, ?_⟩
  · rw [← hl]
    exact State.readyList_of_ready rfl l
  · dsimp only
    rw [unitAt_putUnit, if_pos rfl, State.set_ticks]

theorem waitWaits (hsat : s.satisfied j = false) (hl : ∀ l, j ∉ s.readyList l) :
    Completes (.waitOp c) s fun r => ∃ t, t = r.ownActs ∧ t.get F.dispThrStateState 0 j = 3
      ∧ t.get F.dispThrStateTimedout 0 j = 0 ∧ t.get F.dispThrStateForced 0 j = 0 ∧ t.get F.dispCoreStatPending 0 c = 0
      ∧ unitAt 0 t.disp.deadline j
        = (if s.get F.dispThrCfgTimeout 0 j = 0 then 0 else s.ticks + s.get F.dispThrCfgTimeout 0 j * 256) := by
  refine .intro (congrArg Host.Outcome.next (coreIssues_own h rfl)) ⟨_, rfl, ?_⟩
  rw [ownActs_switches h rfl hj]
  have hs := s.ownState_choice c { op := .wait }
  obtain ⟨h3, ht, hf, hready, hdead⟩ := (s.ownState c { op := .wait }).waitThread_waits j ((hs.satisfied j).trans hsat)
  have hv : (s.ownState c { op := .wait }).leaveThread c j .wait = (s.ownState c { op := .wait }).waitThread j := rfl
  rw [hs.get, hs.ticks] at hdead
  rw [hv]
  have hlist (l : Nat) : j ∉ ((s.ownState c { op := .wait }).waitThread j).readyList l := by
    rw [hready, hs.readyList]
    exact hl l
  generalize (s.ownState c { op := .wait }).waitThread j = v at h3 ht hf hdead hlist ⊢
  dsimp only
  have htg : v.targetOf [c] c ≠ some j := fun htg => by
    obtain ⟨l, hm⟩ := State.targetOf_mem htg
    exact hlist l hm
  have hpend := (switched_of_choice (u := v) (v := v) (j := j) (e := { op := .wait }) h.1 rfl ⟨rfl, rfl, rfl, fun _ => rfl,
    fun _ => rfl⟩).1
  obtain ⟨h3', ht', hf', hdead'⟩ := v.switchTo_other c j (some j) _ htg
  rw [State.opDone_get] at hpend
  rw [State.opDone_get, State.opDone_get, State.opDone_get, State.opDone_get]
  refine ⟨h3'.trans h3, ht'.trans ht, hf'.trans hf, hpend, ?_⟩
  rw [← hdead, ← hdead']
  rfl

end

/-! ### The pending switch of a core (R340, R350) -/

theorem sliceEndPends (c : Nat) (s : State) (hr : s.coreRuns c = true) (hp : s.bit F.dispCoreStatPending 0 c = false) :
    (s.migrationDue c = true → Completes (.sliceEnd c) s fun t => t.get F.dispCoreStatPending 0 c = 1 ∧ (t.coreX c).reason = 3)
    ∧ (s.migrationDue c = false → (s.targetOf [] c).isSome = true →
        Completes (.sliceEnd c) s fun t => t.get F.dispCoreStatPending 0 c = 1) := by
  have hx : exec (.sliceEnd c) s = .next (if s.migrationDue c then s.setPending c 3
      else match s.targetOf [] c with
        | some _ => s.setPending c (if (s.runningOn c).isSome ∧ s.sliceEnded c then 2 else 0)
        | none => s) := congrArg Host.Outcome.next (if_neg (by simp [hr, hp]))
  have hset (r : Nat) : (s.setPending c r).get F.dispCoreStatPending 0 c = 1 := State.get_set_self _ _ _ _ _ (by decide)
  refine ⟨fun hm => ?_, fun hm ht => ?_⟩
  · rw [hm, if_pos rfl] at hx
    refine .intro hx ⟨hset 3, ?_⟩
    unfold State.setPending
    rw [State.coreX_of_disp (State.set_disp ..), State.coreX_setCoreX, if_pos rfl]
  · obtain ⟨k, hk⟩ := Option.isSome_iff_exists.1 ht
    rw [hm, if_neg (by decide), hk] at hx
    exact .intro hx (hset _)

theorem threads : Threads :=
  ⟨fun _ _ _ => makereadyReadies, fun _ _ _ => cancelIdles, fun _ _ _ => slotResetClears, fun _ flags _ _ => setflagsSets flags,
    fun _ flags _ _ => clrflagsClears flags, fun _ _ mask _ h => setwaitWrites h mask, fun _ _ _ h => takeflagsTakes h, setwaitQueues,
    waitTimeoutReadies, thrCfgStores⟩

theorem switches : Switches :=
  ⟨fun _ _ _ => yieldSwitches, fun _ _ _ => switchSwitches, fun _ _ _ => waitSwitches, fun _ _ _ => waitWaits, sliceEndPends⟩

/-- Settles O39: the operations over slots, and those of a core's own thread at the end of their tick. -/
theorem threadsAndSwitches : Obligations.ThreadsAndSwitches := ⟨threads, switches⟩

end Sys2Proof.Machine
end


section
/-!
PROOFS. Flows.lean: the items of the ordered flows, submitted, released and sent on (R348, R351 to R354), and the setting up of a flow.
-/
namespace Sys2Proof.Machine
set_option Elab.async false

/-! ### What a flow holds after an operation on it -/

theorem State.flowX_of_disp {s t : State} (h : t.disp = s.disp) (f : Nat) : t.flowX f = s.flowX f :=
  State.flowX_congr (congrArg DispX.flows h) f

theorem State.flowX_set (s : State) (g : Fld) (i j v f : Nat) : (s.set g i j v).flowX f = s.flowX f := State.flowX_of_disp (State.set_disp ..) f

/-- The outcome of an operation is given to its source; no flow is concerned. -/
theorem State.reported_flowX (t : State) (src : Src) (op : CoreOp) (f : Nat) : (t.reported src op).flowX f = t.flowX f := by
  unfold State.reported
  split <;> rfl

/-- An own-thread operation that waits for the end of its tick is held by its core. -/
theorem State.ownState_only (s : State) (c : Nat) (e : CoreEntry) : Only 0x1000000000000000000000000000000000000000000000000000000000000000 s (s.ownState c e) :=
  State.setCoreX_only _ _ (State.setCoreX_only _ _ (State.setCoreX_only _ _ (.refl _ s) (by decide)) (by decide)) (by decide)

/-! ### SUBMIT (R348, R351) -/

theorem State.submitItem_flowX (s : State) (f handle : Nat) (src : Src) : (s.submitItem f handle src).flowX f
    = { nextSeq := ((s.flowX f).nextSeq + 1) % 2 ^ 32
        items := (s.flowX f).items ++ [{ seq := (s.flowX f).nextSeq, handle := handle % 2 ^ 22 }] } := by
  unfold State.submitItem
  rw [State.flowX_wakeWorker, State.flowX_setFlowX, if_pos rfl]

theorem submitAppends (f handle : Nat) (src : Src) (s : State) (hr : Reaches s src) (ha : Alone s (.flow f))
    (he : s.bit F.dispFlowCfgEnable 0 f = true) (hl : (s.flowX f).items.length < 512) :
    Completes (.submit f handle src) s fun t => (t.flowX f).nextSeq = ((s.flowX f).nextSeq + 1) % 2 ^ 32
      ∧ ∃ i, (t.flowX f).items = (s.flowX f).items ++ [i] ∧ i.handle = handle % 2 ^ 22 ∧ i.seq = (s.flowX f).nextSeq
          ∧ i.taken = false := by
  have hop : s.submitOp f handle src = (s.note ⟨.flow f, 4, srcRank src, 1⟩).submitItem f handle src := by
    unfold State.submitOp
    rw [State.decideEvent_alone ha]
    have hen : (s.note ⟨.flow f, 4, srcRank src, 1⟩).bit F.dispFlowCfgEnable 0 f = true := he
    have hlen : ¬ 512 ≤ ((s.note ⟨.flow f, 4, srcRank src, 1⟩).flowX f).items.length := Nat.not_le.2 hl
    dsimp only
    rw [if_neg (by rw [hen]; decide), if_neg hlen]
  refine .intro (dispatch_acts (direct := fun t => t.submitOp f handle src) hr fun c hc => ?_) ?_
  · exact if_neg (fun h => absurd h.2 (Nat.not_le.2 hl)) |>.trans (by rw [hc])
  · rw [State.reported_flowX, hop, State.submitItem_flowX]
    exact ⟨rfl, _, rfl, rfl, rfl, rfl⟩

theorem submitRefused (f handle n : Nat) (s : State) (ha : Alone s (.flow f))
    (h : s.bit F.dispFlowCfgEnable 0 f = false ∨ 512 ≤ (s.flowX f).items.length) (hu : Unclear s F.dispFlowStatRefused 0 f) :
    Completes (.submit f handle (.host n)) s fun t => t.flowX f = s.flowX f
      ∧ t.get F.dispFlowStatRefused 0 f = min 65535 (s.get F.dispFlowStatRefused 0 f + 1) := by
  let e : TickEvent := ⟨.flow f, 4, srcRank (.host n), 1⟩
  have hop : s.submitOp f handle (.host n) = (s.note e).refuseFlow f := by
    unfold State.submitOp
    rw [State.decideEvent_alone ha]
    dsimp only
    have hen : (s.note e).bit F.dispFlowCfgEnable 0 f = s.bit F.dispFlowCfgEnable 0 f := rfl
    have hlen : (s.note e).flowX f = s.flowX f := rfl
    split
    · rfl
    · next hne => exact (if_pos (c := 512 ≤ ((s.note e).flowX f).items.length) (h.resolve_left hne)).trans (if_pos rfl)
  refine .intro (congrArg Host.Outcome.next hop) ⟨?_, ?_⟩
  · exact (State.flowX_of_disp (((s.note e).refuseFlow_within f).disp (by decide)) f)
  · have hu' : Unclear (s.note e) F.dispFlowStatRefused 0 f :=
      Only.unclear (N := 2 ^ 242) (State.note_only e (.refl _ s) (by decide)) hu (by decide) (by decide) (by decide) (by decide)
        (State.decider_note_ne s (by simp [e]))
    exact State.get_count_min _ 1 hu' (by decide) (by decide) (.inr (by decide))

/-! ### RELEASE (R353) -/

/-- The drain of a flow stops at an item that is not released. -/
theorem State.flowDrain_stops (s : State) (f : Nat) {rest : List Item} (hrest : ∀ k ∈ rest, k.released = none) :
    s.flowDrain f rest = (s.setFlowX f { (s.flowX f) with items := rest }).set F.dispFlowStatStalled 0 f 0 := by
  cases rest with
  | nil => rfl
  | cons k ks =>
    unfold State.flowDrain
    rw [hrest k List.mem_cons_self]

theorem State.flowDrain_stopped (s : State) (f : Nat) {rest : List Item} (hrest : ∀ k ∈ rest, k.released = none) :
    ((s.flowDrain f rest).flowX f).items = rest ∧ (s.flowDrain f rest).get F.dispFlowStatStalled 0 f = 0 := by
  rw [State.flowDrain_stops s f hrest]
  refine ⟨?_, State.get_set_self _ _ _ _ _ (by decide)⟩
  rw [State.flowX_set, State.flowX_setFlowX, if_pos rfl]

/-- A flow with no destination discards the record that its head releases. -/
theorem State.flowDrain_discards (s : State) (f : Nat) (i : Item) {out : Option (List Word)} {rest : List Item} (hi : i.released = some out)
    (hd : s.get F.dispFlowCfgDest 0 f = 0) : s.flowDrain f (i :: rest) = s.flowDrain f rest := by
  rw [State.flowDrain, hi]
  cases out with
  | none => rfl
  | some rec => simp only [State.flowSend, if_pos hd]

/-- Marking the released item by its slot marks the head alone, where no other item is in its slot. -/
theorem mark_released {i : Item} {rest : List Item} (ht : i.taken = true) (hn : i.released = none) (out : Option (List Word))
    (hrest : ∀ k ∈ rest, k.seq % 512 ≠ i.seq % 512) :
    ((i :: rest).map fun k => if k.seq % 512 = i.seq % 512 ∧ k.taken ∧ k.released = none then { k with released := some out } else k)
      = { i with released := some out } :: rest := by
  rw [List.map_cons, if_pos ⟨rfl, ht, hn⟩]
  exact congrArg _ ((List.map_congr_left fun k hk => if_neg fun h => hrest k hk h.1).trans (List.map_id' rest))

section
variable {s : State} {c : Nat} (h : Samples s c)
include h

theorem releaseLeaves (f : Nat) (i : Item) (rest : List Item) (record : Nat) (discard : Bool) (hx : (s.flowX f).items = i :: rest)
    (ht : i.taken = true) (hn : i.released = none) (hd : s.get F.dispFlowCfgDest 0 f = 0)
    (hrest : ∀ k ∈ rest, k.released = none ∧ k.seq % 512 ≠ i.seq % 512) :
    Completes (.release c f (i.seq % 512) record discard) s fun t => (t.ownActs.flowX f).items = rest
      ∧ t.ownActs.get F.dispFlowStatStalled 0 f = 0 := by
  refine .intro (congrArg Host.Outcome.next (coreIssues_own h rfl)) ?_
  rw [ownActs_acts h rfl]
  have hv : ((s.ownState c { op := .release f (i.seq % 512) record discard }).flowX f).items = i :: rest := hx
  have hvd : (s.ownState c { op := .release f (i.seq % 512) record discard }).get F.dispFlowCfgDest 0 f = 0 :=
    ((s.ownState_choice c _).get ..).trans hd
  generalize s.ownState c { op := .release f (i.seq % 512) record discard } = v at hv hvd ⊢
  have hany : (i :: rest).any (fun k => decide (k.seq % 512 = i.seq % 512) && k.taken && k.released.isNone) = true :=
    List.any_eq_true.2 ⟨i, List.mem_cons_self, by simp [ht, hn]⟩
  have hop (out : Option (List Word)) : v.releaseOp f (i.seq % 512) out = v.flowDrain f rest := by
    unfold State.releaseOp
    dsimp only
    rw [hv, if_pos hany, mark_released ht hn out fun k hk => (hrest k hk).2]
    exact State.flowDrain_discards v f _ rfl hvd
  unfold State.ownOp
  dsimp only
  rw [hop, State.flowX_opDone, State.opDone_get]
  exact State.flowDrain_stopped v f fun k hk => (hrest k hk).1

theorem releaseRefused (f slot record : Nat) (discard : Bool) (hu : Unclear s F.dispFlowStatRefused 0 f)
    (hi : ∀ i ∈ (s.flowX f).items, i.seq % 512 = slot → i.taken = false ∨ i.released ≠ none) :
    Completes (.release c f slot record discard) s fun t => t.ownActs.flowX f = s.flowX f
      ∧ t.ownActs.get F.dispFlowStatRefused 0 f = min 65535 (s.get F.dispFlowStatRefused 0 f + 1) := by
  refine .intro (congrArg Host.Outcome.next (coreIssues_own h rfl)) ?_
  rw [ownActs_acts h rfl]
  have hx : (s.ownState c { op := .release f slot record discard }).flowX f = s.flowX f := rfl
  have hget := (s.ownState_choice c { op := .release f slot record discard }).get F.dispFlowStatRefused 0 f
  have hv : Unclear (s.ownState c { op := .release f slot record discard }) F.dispFlowStatRefused 0 f :=
    (s.ownState_only c _).unclear hu (by decide) (by decide) (by decide) (by decide)
      (State.decider_congr ((s.ownState_only c _).events (by decide)) _)
  generalize s.ownState c { op := .release f slot record discard } = v at hx hget hv ⊢
  have hany : ¬ (v.flowX f).items.any (fun k => decide (k.seq % 512 = slot) && k.taken && k.released.isNone) = true := by
    rw [hx, List.any_eq_true]
    rintro ⟨k, hk, hk'⟩
    have := hi k hk
    simp only [Bool.and_eq_true, decide_eq_true_eq, Option.isNone_iff_eq_none] at hk'
    obtain ⟨⟨hs, ht⟩, hn⟩ := hk'
    rcases this hs with h0 | h0
    · rw [ht] at h0; cases h0
    · exact h0 hn
  have hop (out : Option (List Word)) : v.releaseOp f slot out = v.refuseFlow f := if_neg hany
  unfold State.ownOp
  dsimp only
  rw [hop, State.flowX_opDone, State.opDone_get, ← hx, ← hget]
  exact ⟨State.flowX_of_disp ((v.refuseFlow_within f).disp (by decide)) f,
    State.get_count_min _ 1 hv (by decide) (by decide) (.inr (by decide))⟩

end

/-! ### The output of a flow (R353) -/

theorem flowSends (f q : Nat) (i : Item) (rest : List Item) (rec : List Word) (s : State) (hx : (s.flowX f).items = i :: rest)
    (hi : i.released = some (some rec)) (hrest : ∀ k ∈ rest, k.released = none) (hd : s.get F.dispFlowCfgDest 0 f = 1)
    (hq : q = s.get F.dispFlowCfgRing 0 f) (ht : s.get F.ringCfgType q = 2 ∨ s.get F.ringCfgType q = 5)
    (hs : s.get F.ringStatusState q = 1) (hroom : s.ringRoom q = true) (hb : s.busMaster = true) :
    Completes (.flowOutput f) s fun t => (t.flowX f).items = rest
      ∧ t.out = s.out ++ [.hostWrite (s.ringAddr q (s.get F.ringIndexProd q)) rec] := by
  have htype : s.get F.ringCfgType q = if s.get F.ringCfgType q = 5 then 5 else 2 := by
    split
    · next h => exact h
    · next h => exact ht.resolve_right h
  have hring : s.namedRing 7 f q (if s.get F.ringCfgType q = 5 then 5 else 2) false = (true, s) := by
    unfold State.namedRing
    rw [if_pos ⟨htype, rfl⟩]
    exact congrArg (·, s) (decide_eq_true hs)
  have hsend : s.flowSend f rec = (some (s.pushEntry q rec), s) := by
    unfold State.flowSend
    rw [if_neg (by rw [hd]; decide), if_pos hd, ← hq]
    dsimp only
    rw [hring]
    exact if_pos ⟨rfl, hroom⟩
  have hdrain : s.flowDrain f (s.flowX f).items = (s.pushEntry q rec).flowDrain f rest := by
    rw [hx, State.flowDrain, hi]
    dsimp only
    rw [hsend]
  refine .intro (congrArg Host.Outcome.next hdrain) ?_
  have hout := (State.pushEntry_reads rec hb (r := q)).1
  generalize s.pushEntry q rec = v at hout
  refine ⟨(State.flowDrain_stopped v f hrest).1, ?_⟩
  rw [State.flowDrain_stops v f hrest, State.set_out]
  exact hout

/-! ### Enable, disable and reset of a flow (R307, R349, R351, R354, R506) -/

/-- The settings that a write of FLOW_CFG always stores. -/
theorem State.flowWorkers_reads (u : State) (f : Nat) {a b w : Nat} (ha : a < 2 ^ 10) (hb : b < 2 ^ 7) (hw : w < 2 ^ 5) :
    let t := (((u.set F.dispFlowCfgWorkerFirst 0 f a).set F.dispFlowCfgWorkerCount 0 f b).set F.dispFlowCfgWakeFlag 0 f w).set F.dispFlowCfgEnable 0 f 1
    t.get F.dispFlowCfgEnable 0 f = 1 ∧ t.get F.dispFlowCfgWorkerFirst 0 f = a ∧ t.get F.dispFlowCfgWorkerCount 0 f = b
      ∧ t.get F.dispFlowCfgWakeFlag 0 f = w ∧ t.get F.dispFlowCfgRing 0 f = u.get F.dispFlowCfgRing 0 f
      ∧ t.get F.dispFlowCfgDest 0 f = u.get F.dispFlowCfgDest 0 f := by
  refine ⟨State.get_set_self _ _ _ _ _ (by decide), ?_, ?_, ?_, ?_, ?_⟩ <;> simp (disch := decide)
  · exact ha
  · exact hb
  · exact hw

/-- The destination that a write of FLOW_CFG stores where the flow is free. -/
theorem State.flowPlace_reads (u : State) (f d r c m g : Nat) (hd : d < 2 ^ 2) (hr : r < 2 ^ 6) :
    let t := ((((u.set F.dispFlowCfgDest 0 f d).set F.dispFlowCfgRing 0 f r).set F.dispFlowCfgChip 0 f c).set F.dispFlowCfgMailThread 0 f m).set
      F.dispFlowCfgMailFlag 0 f g
    t.get F.dispFlowCfgRing 0 f = r ∧ t.get F.dispFlowCfgDest 0 f = d := by
  refine ⟨?_, ?_⟩ <;> simp (disch := decide)
  · exact hr
  · exact hd

theorem flowEnables (f : Nat) (v : Word) (s : State) : Completes (.flowEnable f v) s fun t => t.get F.dispFlowCfgEnable 0 f = 1
      ∧ t.get F.dispFlowCfgWorkerFirst 0 f = bitsOf v 31 10 ∧ t.get F.dispFlowCfgWorkerCount 0 f = min 64 (bitsOf v 41 7)
      ∧ t.get F.dispFlowCfgWakeFlag 0 f = bitsOf v 48 5
      ∧ (s.before F.dispFlowCfgEnable 0 f = 0 → s.clk.was.flow.contains f = false → t.get F.dispFlowCfgRing 0 f = bitsOf v 4 6
          ∧ t.get F.dispFlowCfgDest 0 f = if bitsOf v 2 2 = 3 then 0 else bitsOf v 2 2)
      ∧ (s.before F.dispFlowCfgEnable 0 f = 1 → t.get F.dispFlowCfgDest 0 f = s.get F.dispFlowCfgDest 0 f) := by
  have hr := s.rearm_within 7 f
  have hbef : (s.rearm 7 f).before F.dispFlowCfgEnable 0 f = s.before F.dispFlowCfgEnable 0 f := by
    unfold State.rearm
    rfl
  have hclk := congrArg (fun k : ClkX => k.was.flow.contains f) (hr.clk (by decide))
  have hdest := hr.get F.dispFlowCfgDest 0 f (by decide)
  have h2 : (if bitsOf v 2 2 = 3 then 0 else bitsOf v 2 2) < 2 ^ 2 := by
    split
    · decide
    · exact bitsOf_lt ..
  have hworkers (u : State) := u.flowWorkers_reads f (bitsOf_lt v 31 10) (Nat.lt_of_le_of_lt (Nat.min_le_left 64 (bitsOf v 41 7)) (by decide))
    (bitsOf_lt v 48 5)
  have hplace (u : State) := u.flowPlace_reads f _ _ (bitsOf v 10 6) (bitsOf v 16 10) (bitsOf v 26 5) h2 (bitsOf_lt v 4 6)
  refine .intro rfl ?_
  unfold State.storeFlowCfg
  dsimp only at hclk ⊢
  rw [hbef, hclk]
  generalize s.rearm 7 f = u at hdest ⊢
  split
  · next hfree =>
    obtain ⟨he, hf, hc, hw, hring, hd⟩ := hworkers _
    obtain ⟨hring', hd'⟩ := hplace u
    refine ⟨he, hf, hc, hw, fun _ _ => ⟨hring.trans hring', hd.trans hd'⟩, fun h1 => ?_⟩
    rw [h1] at hfree
    exact absurd hfree (by simp)
  · next hfree =>
    obtain ⟨he, hf, hc, hw, hring, hd⟩ := hworkers u
    refine ⟨he, hf, hc, hw, fun h0 hn => absurd ?_ hfree, fun _ => hd.trans hdest⟩
    rw [h0, hn]
    rfl

theorem flowDisables (f : Nat) (src : Src) (s : State) (ha : Alone s (.flow f)) :
    Completes (.flowDisable f src) s fun t => t.get F.dispFlowCfgEnable 0 f = 0 ∧ t.flowX f = s.flowX f := by
  have hr := s.rearm_within 7 f
  have hop := State.onObj_alone (hr.alone_of_quiet ha (by decide) (by decide) (by decide) (by decide) (by decide) (by decide)) 2 (srcRank src) 0
    fun t => t.set F.dispFlowCfgEnable 0 f 0
  refine .intro (congrArg Host.Outcome.next hop) ⟨State.get_set_self _ _ _ _ _ (by decide), ?_⟩
  rw [State.flowX_set]
  exact State.flowX_of_disp (hr.disp (by decide)) f

/-- A stalled SUBMIT that completes with no item leaves what the flows hold. -/
theorem State.dropStalled_flowX (s : State) (f c f' : Nat) : (s.dropStalled f c).flowX f' = s.flowX f' := by
  unfold State.dropStalled
  dsimp only
  split
  · split
    · split <;> rfl
    · rfl
  · rfl

theorem flowResets (f : Nat) (src : Src) (s : State) (ha : Alone s (.flow f)) :
    Completes (.flowReset f src) s fun t => (t.flowX f).items = [] ∧ (t.flowX f).nextSeq = 0 ∧ t.get F.dispFlowStatStalled 0 f = 0 := by
  have hr := s.rearm_within 7 f
  have hop := State.onObj_alone (hr.alone_of_quiet ha (by decide) (by decide) (by decide) (by decide) (by decide) (by decide)) 1 (srcRank src) 0
    fun t => (List.range 4).foldl (fun (u : State) c => u.dropStalled f c) ((t.setFlowX f {}).set F.dispFlowStatStalled 0 f 0)
  refine .intro (congrArg Host.Outcome.next hop) ?_
  generalize (s.rearm 7 f).note ⟨.flow f, 1, srcRank src, 0⟩ = t
  have hdrop := Only.foldl (l := List.range 4) (Only.refl _ ((t.setFlowX f {}).set F.dispFlowStatStalled 0 f 0)) fun u c => u.dropStalled_within f c
  have hx : ((List.range 4).foldl (fun (u : State) c => u.dropStalled f c) ((t.setFlowX f {}).set F.dispFlowStatStalled 0 f 0)).flowX f = {} := by
    refine foldl_keeps (P := fun u => u.flowX f = {}) (fun u c hu => (u.dropStalled_flowX f c f).trans hu) _ ?_
    rw [State.flowX_set, State.flowX_setFlowX, if_pos rfl]
  rw [hx]
  exact ⟨rfl, rfl, (hdrop.get _ _ _ (by decide)).trans (State.get_set_self _ _ _ _ _ (by decide))⟩

theorem flows : Flows :=
  ⟨submitAppends, submitRefused, fun _ f i rest record discard _ h => releaseLeaves h f i rest record discard,
    fun _ f slot record discard _ h => releaseRefused h f slot record discard, flowSends, flowEnables, flowDisables, flowResets⟩

end Sys2Proof.Machine
end


section
/-!
PROOFS. CoresAndMail.lean: starts and stops of the control cores, firmware loads, mail and load windows (R333 to R335, R355 to R357).
-/
namespace Sys2Proof.Machine
set_option Elab.async false

/-! ### A write of CORE.CTRL.RUN (R335) -/

/-- What the write does to one core. -/
def State.runCore (mask : Nat) (t : State) (c : Nat) : State :=
  if testBit mask c = t.coreRuns c then t else if testBit mask c then t.coreStart c else t.coreStop c

/-- Core `c` is as it was. -/
structure CoreKept (c : Nat) (s t : State) : Prop where
  runs : t.coreRuns c = s.coreRuns c
  core : t.coreX c = s.coreX c
  running : t.runningOn c = s.runningOn c

/-- Core `c` runs where the mask says so; a thread that it ran has been stopped with it, and a core that starts is at its entry. -/
structure CoreRan (mask c : Nat) (s t : State) : Prop where
  runs : t.coreRuns c = testBit mask c
  stopped : ∀ j, s.coreRuns c = true → testBit mask c = false → s.runningOn c = some j →
    t.get F.dispThrStateState 0 j = 0 ∧ t.get F.dispThrStateLost 0 j = 1 ∧ (t.coreX c).thread = none
  started : s.coreRuns c = false → testBit mask c = true → t.cpu c = { pc := BitVec.ofNat 32 (s.coreX c).entry }

theorem CoreKept.trans {c : Nat} {s t u : State} (h : CoreKept c s t) (h' : CoreKept c t u) : CoreKept c s u :=
  ⟨h'.runs.trans h.runs, h'.core.trans h.core, h'.running.trans h.running⟩

theorem CoreRan.of_kept {mask c : Nat} {s t u : State} (h : CoreKept c s t) (h' : CoreRan mask c t u) : CoreRan mask c s u :=
  ⟨h'.runs, fun j hr hm hj => h'.stopped j (h.runs.trans hr) hm (h.running.trans hj),
    fun hr hm => h.core ▸ h'.started (h.runs.trans hr) hm⟩

/-- The bit of the running mask of another core is as it was, and that of the core is what is written. -/
theorem State.coreRuns_set (s : State) (c : Nat) {d : Nat} (hd : d < 4) (b : Bool) :
    (s.set F.coreStatusRunning 0 0 (putBit (s.get F.coreStatusRunning) c b)).coreRuns d = if d = c then b else s.coreRuns d := by
  have hw : F.coreStatusRunning.width = 4 := rfl
  unfold State.coreRuns
  rw [State.get_set_self _ _ _ _ _ (by decide), hw, testBit_nat, Nat.testBit_mod_two_pow, ← testBit_nat, testBit_putBit,
    decide_eq_true hd,
    Bool.true_and]

/-- Core `c` as it goes into reset, its thread apart. -/
def State.coreDown (t : State) (c : Nat) : State :=
  let u := ((t.set F.coreStatusRunning 0 0 (putBit (t.get F.coreStatusRunning) c false)).coreIdle c).set F.dispCoreStatPending 0 c 0
  u.setCoreX c { (u.coreX c) with queue := [], now := none, mail := none, stores := [], errInfo := 0, cpu := {} }

theorem State.coreDown_reads (t : State) (c : Nat) :
    (∀ d < 4, (t.coreDown c).coreRuns d = if d = c then false else t.coreRuns d)
    ∧ (∀ d, d ≠ c → (t.coreDown c).coreX d = t.coreX d) ∧ ((t.coreDown c).coreX c).thread = none
    ∧ ∀ f j, f.reg = .dispThrState → (t.coreDown c).get f 0 j = t.get f 0 j := by
  have hruns := fun d hd => t.coreRuns_set c (d := d) hd false
  have hx : (t.set F.coreStatusRunning 0 0 (putBit (t.get F.coreStatusRunning) c false)).disp = t.disp := State.set_disp ..
  have ho : Only F.coreStatusRunning.mask t (t.set F.coreStatusRunning 0 0 (putBit (t.get F.coreStatusRunning) c false)) :=
    State.set_only _ _ _ _ (.refl _ t) (by decide)
  unfold State.coreDown
  dsimp only
  generalize t.set F.coreStatusRunning 0 0 (putBit (t.get F.coreStatusRunning) c false) = v at hruns hx ho ⊢
  have hi := v.coreIdle_within c
  have hxi : ∀ d, d ≠ c → (v.coreIdle c).coreX d = v.coreX d := fun d hd => by
    unfold State.coreIdle
    rw [State.coreX_of_disp (State.set_disp ..), State.coreX_of_disp (State.set_disp ..), State.coreX_setCoreX, if_neg hd]
  have hthr := (v.coreIdle_reads c).1
  generalize v.coreIdle c = w at hi hxi hthr ⊢
  have hp : Only F.dispCoreStatPending.mask w (w.set F.dispCoreStatPending 0 c 0) := State.set_only _ _ _ _ (.refl _ w) (by decide)
  have hpd : (w.set F.dispCoreStatPending 0 c 0).disp = w.disp := State.set_disp ..
  generalize w.set F.dispCoreStatPending 0 c 0 = y at hp hpd ⊢
  refine ⟨fun d hd => ?_, fun d hd => ?_, ?_, fun f j hf => ?_⟩
  · rw [← hruns d hd]
    unfold State.coreRuns
    rw [State.get_setCoreX, hp.get _ _ _ (by decide), hi.get _ _ _ (by decide)]
  · rw [State.coreX_setCoreX, if_neg hd, State.coreX_of_disp hpd, hxi d hd, State.coreX_of_disp hx]
  · rw [State.coreX_setCoreX, if_pos rfl]
    dsimp only
    rw [State.coreX_of_disp hpd, hthr]
  · rw [State.get_setCoreX, hp.get _ _ _ (by rw [hf]; decide), hi.get _ _ _ (by rw [hf]; decide), ho.get _ _ _ (by rw [hf]; decide)]

theorem State.coreStop_eq (s : State) (c : Nat) : s.coreStop c = State.coreDown (match s.runningOn c with
    | some j => (s.set F.dispThrStateState 0 j 0).set F.dispThrStateLost 0 j 1
    | none => s) c := rfl

theorem State.coreStop_reads (s : State) (c : Nat) :
    (∀ d < 4, (s.coreStop c).coreRuns d = if d = c then false else s.coreRuns d)
    ∧ (∀ d, d ≠ c → (s.coreStop c).coreX d = s.coreX d) ∧ ((s.coreStop c).coreX c).thread = none
    ∧ (∀ j f, f.reg = .dispThrState → s.runningOn c ≠ some j → (s.coreStop c).get f 0 j = s.get f 0 j)
    ∧ (∀ j, s.runningOn c = some j → (s.coreStop c).get F.dispThrStateState 0 j = 0 ∧ (s.coreStop c).get F.dispThrStateLost 0 j = 1) := by
  rw [State.coreStop_eq]
  cases hr : s.runningOn c with
  | none =>
    obtain ⟨hruns, hcore, hthr, hget⟩ := s.coreDown_reads c
    exact ⟨hruns, hcore, hthr, fun j f hf _ => hget f j hf, fun j hj => by cases hj⟩
  | some k =>
    dsimp only
    have hd : ((s.set F.dispThrStateState 0 k 0).set F.dispThrStateLost 0 k 1).disp = s.disp := (State.set_disp ..).trans (State.set_disp ..)
    have hruns' : ((s.set F.dispThrStateState 0 k 0).set F.dispThrStateLost 0 k 1).get F.coreStatusRunning = s.get F.coreStatusRunning := by
      simp (disch := decide)
    have hst : ((s.set F.dispThrStateState 0 k 0).set F.dispThrStateLost 0 k 1).get F.dispThrStateState 0 k = 0 := by simp (disch := decide)
    have hlost : ((s.set F.dispThrStateState 0 k 0).set F.dispThrStateLost 0 k 1).get F.dispThrStateLost 0 k = 1 :=
      State.get_set_self _ _ _ _ _ (by decide)
    have hother (j : Nat) (f : Fld) (hj : k ≠ j) : ((s.set F.dispThrStateState 0 k 0).set F.dispThrStateLost 0 k 1).get f 0 j = s.get f 0 j := by
      rw [State.get_set_ne _ _ _ _ _ _ _ _ (by decide) (.inr (.inr (.inl hj))),
        State.get_set_ne _ _ _ _ _ _ _ _ (by decide) (.inr (.inr (.inl hj)))]
    generalize (s.set F.dispThrStateState 0 k 0).set F.dispThrStateLost 0 k 1 = t at hd hruns' hst hlost hother ⊢
    obtain ⟨hruns, hcore, hthr, hget⟩ := t.coreDown_reads c
    refine ⟨fun d hd4 => (hruns d hd4).trans (by unfold State.coreRuns; rw [hruns']),
      fun d hne => (hcore d hne).trans (State.coreX_of_disp hd d), hthr,
      fun j f hf hj => (hget f j hf).trans (hother j f fun h => hj (by rw [h])), fun j hj => ?_⟩
    cases hj
    exact ⟨(hget _ _ rfl).trans hst, (hget _ _ rfl).trans hlost⟩

theorem State.coreStart_reads (s : State) (c : Nat) :
    (∀ d < 4, (s.coreStart c).coreRuns d = if d = c then true else s.coreRuns d)
    ∧ (∀ d, d ≠ c → (s.coreStart c).coreX d = s.coreX d)
    ∧ (s.coreStart c).cpu c = { pc := BitVec.ofNat 32 (s.coreX c).entry }
    ∧ ∀ j f, f.reg = .dispThrState → (s.coreStart c).get f 0 j = s.get f 0 j := by
  unfold State.coreStart
  dsimp only
  have hx (d : Nat) := State.coreX_setCoreX s c { (s.coreX c) with cpu := { pc := BitVec.ofNat 32 (s.coreX c).entry } } d
  have hget (f : Fld) (i j : Nat) := State.get_setCoreX s f i j c { (s.coreX c) with cpu := { pc := BitVec.ofNat 32 (s.coreX c).entry } }
  generalize s.setCoreX c { (s.coreX c) with cpu := { pc := BitVec.ofNat 32 (s.coreX c).entry } } = t at hx hget ⊢
  rw [← hget]
  have hruns := fun d hd => t.coreRuns_set c (d := d) hd true
  have ho : Only F.coreStatusRunning.mask t (t.set F.coreStatusRunning 0 0 (putBit (t.get F.coreStatusRunning) c true)) :=
    State.set_only _ _ _ _ (.refl _ t) (by decide)
  have hd : (t.set F.coreStatusRunning 0 0 (putBit (t.get F.coreStatusRunning) c true)).disp = t.disp := State.set_disp ..
  generalize t.set F.coreStatusRunning 0 0 (putBit (t.get F.coreStatusRunning) c true) = u at hruns ho hd ⊢
  refine ⟨fun d hd4 => (hruns d hd4).trans (by unfold State.coreRuns; rw [hget]), fun d hne => ?_, ?_, fun j f hf => ?_⟩
  · rw [State.coreX_of_disp hd, hx, if_neg hne]
  · unfold State.cpu
    rw [State.coreX_of_disp hd, hx, if_pos rfl]
  · rw [ho.get _ _ _ (by rw [hf]; decide), hget]

theorem State.runningOn_iff (s : State) (c j : Nat) : s.runningOn c = some j
    ↔ (s.coreX c).thread = some j ∧ s.get F.dispThrStateState 0 j = 2 ∧ s.get F.dispThrStateCore 0 j = c := by
  unfold State.runningOn
  cases (s.coreX c).thread with
  | none => simp
  | some k =>
    dsimp only
    split
    · next h =>
      refine ⟨fun hk => ?_, fun hk => hk.1⟩
      cases hk
      exact ⟨rfl, h⟩
    · next h =>
      refine ⟨fun hk => absurd hk (by simp), fun hk => ?_⟩
      obtain ⟨hk, hr⟩ := hk
      cases hk
      exact absurd hr h

/-! ### One core of the write, and the others -/

section
variable {mask c : Nat} (t : State)

/-- The write does to core `c` what the mask says. -/
theorem State.runCore_ran (hc : c < 4) : CoreRan mask c t (t.runCore mask c) := by
  unfold State.runCore
  obtain ⟨hruns, -, hcpu, -⟩ := t.coreStart_reads c
  obtain ⟨hstop, -, hthr, -, hst⟩ := t.coreStop_reads c
  split
  · next h => exact ⟨h.symm, fun j hr hm _ => absurd (hr.symm.trans (h.symm.trans hm)) (by decide),
      fun hr hm => absurd (hr.symm.trans (h.symm.trans hm)) (by decide)⟩
  · split
    · next hm =>
      exact ⟨(hruns c hc).trans ((if_pos rfl).trans hm.symm), fun j _ hf _ => absurd (hm.symm.trans hf) (by decide), fun _ _ => hcpu⟩
    · next hm =>
      refine ⟨(hstop c hc).trans ((if_pos rfl).trans (Bool.eq_false_iff.2 hm).symm), fun j _ _ hj => ?_, fun _ hm' => absurd hm' hm⟩
      exact ⟨(hst j hj).1, (hst j hj).2, hthr⟩

/-- The write to core `c` leaves the others. -/
theorem State.runCore_keeps {d : Nat} (hd : d < 4) (hne : d ≠ c) : CoreKept d t (t.runCore mask c) := by
  unfold State.runCore
  split
  · exact ⟨rfl, rfl, rfl⟩
  · split
    · obtain ⟨hruns, hcore, -, hget⟩ := t.coreStart_reads c
      refine ⟨(hruns d hd).trans (if_neg hne), hcore d hne, ?_⟩
      unfold State.runningOn
      simp only [hcore d hne, fun j => hget j F.dispThrStateState rfl, fun j => hget j F.dispThrStateCore rfl]
    · obtain ⟨hruns, hcore, -, hget, hst⟩ := t.coreStop_reads c
      refine ⟨(hruns d hd).trans (if_neg hne), hcore d hne, Option.ext fun j => ?_⟩
      rw [State.runningOn_iff, State.runningOn_iff, hcore d hne]
      by_cases hj : t.runningOn c = some j
      · have hcj := ((t.runningOn_iff c j).1 hj).2.2
        rw [(hst j hj).1, hcj]
        exact ⟨fun h => absurd h.2.1 (by decide), fun h => absurd h.2.2 hne.symm⟩
      · rw [hget j _ rfl hj, hget j _ rfl hj]

/-- A thread that has lost its core stays so. -/
theorem State.runCore_lost {j : Nat} (hs : t.get F.dispThrStateState 0 j = 0) (hl : t.get F.dispThrStateLost 0 j = 1) :
    (t.runCore mask c).get F.dispThrStateState 0 j = 0 ∧ (t.runCore mask c).get F.dispThrStateLost 0 j = 1 := by
  unfold State.runCore
  split
  · exact ⟨hs, hl⟩
  · split
    · obtain ⟨-, -, -, hget⟩ := t.coreStart_reads c
      exact ⟨(hget j _ rfl).trans hs, (hget j _ rfl).trans hl⟩
    · obtain ⟨-, -, -, hget, hst⟩ := t.coreStop_reads c
      by_cases hj : t.runningOn c = some j
      · exact hst j hj
      · exact ⟨(hget j _ rfl hj).trans hs, (hget j _ rfl hj).trans hl⟩

end

/-- The cores one after the other: each has been dealt with, and the others are as they were. -/
theorem coresRan (mask : Nat) : ∀ (l : List Nat) (s : State), (∀ c ∈ l, c < 4) → l.Nodup →
    (∀ d < 4, d ∉ l → CoreKept d s (l.foldl (State.runCore mask) s)) ∧ (∀ c ∈ l, CoreRan mask c s (l.foldl (State.runCore mask) s))
    ∧ ∀ j, s.get F.dispThrStateState 0 j = 0 → s.get F.dispThrStateLost 0 j = 1 →
      (l.foldl (State.runCore mask) s).get F.dispThrStateState 0 j = 0 ∧ (l.foldl (State.runCore mask) s).get F.dispThrStateLost 0 j = 1
  | [], s, _, _ => ⟨fun _ _ _ => ⟨rfl, rfl, rfl⟩, fun _ h => absurd h List.not_mem_nil, fun _ hs hl => ⟨hs, hl⟩⟩
  | a :: l, s, hl, hn => by
    have ha : a < 4 := hl a List.mem_cons_self
    obtain ⟨hnot, hn'⟩ := List.nodup_cons.1 hn
    obtain ⟨hkept, hran, hlost⟩ := coresRan mask l (s.runCore mask a) (fun c hc => hl c (List.mem_cons_of_mem _ hc)) hn'
    refine ⟨fun d hd hdl => ?_, fun c hc => ?_, fun j hs hlo => ?_⟩
    · obtain ⟨hda, hdl'⟩ := not_or.1 (List.mem_cons.not.1 hdl)
      exact (State.runCore_keeps s hd hda).trans (hkept d hd hdl')
    · rcases List.mem_cons.1 hc with rfl | hc'
      · have hk := hkept c ha hnot
        obtain ⟨hruns, hstop, hstart⟩ := State.runCore_ran (mask := mask) s ha
        refine ⟨hk.runs.trans hruns, fun j hr hm hj => ?_, fun hr hm => ?_⟩
        · obtain ⟨h1, h2, h3⟩ := hstop j hr hm hj
          exact ⟨(hlost j h1 h2).1, (hlost j h1 h2).2, hk.core ▸ h3⟩
        · exact (congrArg CoreX.cpu hk.core).trans (hstart hr hm)
      · exact (hran c hc').of_kept (State.runCore_keeps s (hl c hc) fun h : c = a => hnot (h ▸ hc'))
    · obtain ⟨h1, h2⟩ := State.runCore_lost (mask := mask) s hs hlo
      exact hlost j h1 h2

theorem coreRuns (mask : Nat) (s : State) : Completes (.coreRun mask) s fun t => ∀ c < 4, CoreRan mask c s t := by
  refine .intro rfl fun c hc => ?_
  have hall := (coresRan mask (List.range 4) (s.set F.coreCtrlRun 0 0 mask) (fun c hc => List.mem_range.1 hc) List.nodup_range).2.1 c
    (List.mem_range.2 hc)
  have ho : Only F.coreCtrlRun.mask s (s.set F.coreCtrlRun 0 0 mask) := State.set_only _ _ _ _ (.refl _ s) (by decide)
  have hd : (s.set F.coreCtrlRun 0 0 mask).disp = s.disp := State.set_disp ..
  refine CoreRan.of_kept ⟨?_, State.coreX_of_disp hd c, ?_⟩ hall
  · unfold State.coreRuns
    rw [ho.get _ _ _ (by decide)]
  · unfold State.runningOn
    simp only [State.coreX_of_disp hd c, ho.get F.dispThrStateState _ _ (by decide), ho.get F.dispThrStateCore _ _ (by decide)]

/-! ### Firmware loads (R333, R334) -/

theorem loadGoes (length n : Nat) (s : State) (hn : n = min 4194304 (max 512 length) / 4 * 4) (hr : s.get F.coreStatusRunning = 0)
    (hs : s.get F.coreLoadCtrlStatus ≠ 1) :
    Completes (.firmwareLoad length) s fun t => t.get F.coreLoadCtrlStatus = 1 ∧ t.get F.coreLoadCtrlLength = n
      ∧ t.out = s.out ++ [.hostRead (s.get F.coreLoadAddrAddress * 4) n] := by
  have hlt : n < 2 ^ F.coreLoadCtrlLength.width := by
    have : n ≤ 4194304 := by omega
    exact Nat.lt_of_le_of_lt this (by decide)
  have hgo : s.firmwareGo length = ((s.set F.coreLoadCtrlLength 0 0 n).set F.coreLoadCtrlStatus 0 0 1).emit
      (.hostRead ((s.set F.coreLoadCtrlLength 0 0 n).get F.coreLoadAddrAddress * 4) ((s.set F.coreLoadCtrlLength 0 0 n).get F.coreLoadCtrlLength)) := by
    rw [hn]
    exact if_neg fun h => h.elim (fun h => h hr) hs
  refine .intro (congrArg Host.Outcome.next hgo) ⟨?_, ?_, ?_⟩
  · rw [(State.emit_within ..).get _ _ _ (by decide)]
    exact State.get_set_self _ _ _ _ _ (by decide)
  · rw [(State.emit_within ..).get _ _ _ (by decide), State.get_set_apart _ _ _ _ _ _ _ _ (by decide) (by decide),
      State.get_set_self _ _ _ _ _ (by decide), Nat.mod_eq_of_lt hlt]
  · rw [State.get_set_ne _ _ _ _ _ _ _ _ (by decide) (.inl (by decide)), State.get_set_self _ _ _ _ _ (by decide),
    Nat.mod_eq_of_lt hlt]
    unfold State.emit
    rw [State.set_out, State.set_out]

theorem loadRefused (length : Nat) (s : State) (h : s.get F.coreStatusRunning ≠ 0 ∨ s.get F.coreLoadCtrlStatus = 1) :
    Completes (.firmwareLoad length) s fun t => t.get F.coreLoadCtrlStatus = 6 ∧ t.out = s.out :=
  .intro (congrArg Host.Outcome.next (if_pos h)) ⟨State.get_set_self _ _ _ _ _ (by decide),
    (State.set_out ..).trans (State.set_out ..)⟩

theorem State.zeroMemory_get (s : State) (a : Nat) (f : Fld) (i j : Nat) : (s.zeroMemory a).get f i j = s.get f i j := by
  unfold State.zeroMemory
  split <;> rfl

/-- The entries that an image gives the cores. -/
theorem entries_taken (image : List Nat) (s : State) (c : Nat) (hc : c < 4) :
    (((List.range 4).foldl (fun (t : State) c => t.setCoreX c { (t.coreX c) with entry := field image (16 + 4 * c) 4 }) s).coreX c).entry
      = field image (16 + 4 * c) 4 := by
  have h : List.range 4 = [0, 1, 2, 3] := rfl
  rw [h]
  simp only [List.foldl_cons, List.foldl_nil]
  interval_cases c <;> simp [State.coreX_setCoreX]

theorem loadEnds (image body key signature : List Nat) (readOk : Bool) (s : State) (hi : image = body ++ key ++ signature)
    (h : s.get F.coreLoadCtrlStatus = 1) : Completes (.loadDone body readOk key signature) s fun t =>
      t.get F.coreLoadCtrlStatus = s.loadStatus image readOk
      ∧ (s.loadStatus image readOk = 2 → ∀ c < 4, (t.coreX c).entry = field image (16 + 4 * c) 4) := by
  have hlt : s.loadStatus image readOk < 2 ^ F.coreLoadCtrlStatus.width := by
    unfold State.loadStatus
    repeat' split
    all_goals decide
  refine .intro ((congrArg (execLoadDone body readOk key signature) rfl).trans (if_pos h)) ?_
  rw [← hi]
  generalize s.loadStatus image readOk = st at hlt ⊢
  refine ⟨?_, fun hst c hc => ?_⟩
  · rw [(State.post_within ..).get _ _ _ (by decide)]
    exact (State.get_set_self _ _ _ _ _ (by decide)).trans (Nat.mod_eq_of_lt hlt)
  · rw [if_pos hst, State.coreX_of_disp ((State.post_within ..).disp (by decide)), State.coreX_of_disp (State.set_disp ..)]
    exact entries_taken image _ c hc

/-! ### Mail (R355, R356) -/

theorem sendmailActs {c block : Nat} {s t : State} (hr : Reaches s (.core c)) (hop : s.sendmailOp c { op := .sendmail block } block = some t) :
    exec (.sendmail c block) s = .next (t.opSampled c) :=
  congrArg Host.Outcome.next (State.coreIssues_samples (op := .sendmail block) hr hop)

theorem State.opSampled_get (s : State) (c : Nat) (f : Fld) (i j : Nat) : (s.opSampled c).get f i j = s.get f i j := State.get_setCoreX ..

section
variable (c block : Nat) (l : List Nat) (s : State) (hr : Reaches s (.core c)) (hbad : s.badSram (sramBase + 64 * block) 64 = false)
  (hl : l = s.sramBytes (sramBase + 64 * block) 64)
include hr hbad hl

theorem mailHere (hchip : field l 3 1 % 64 = s.get F.oluChipId) :
    (s.inboxRoom = true → s.disp.heldMail = [] → Completes (.sendmail c block) s fun t => t.get F.coreMailIdxProd
        = (s.get F.coreMailIdxProd + 1) % s.get F.coreMailboxEntries % 2 ^ F.coreMailIdxProd.width)
    ∧ (s.inboxRoom = false → Completes (.sendmail c block) s fun t => t.get F.coreMailIdxProd = s.get F.coreMailIdxProd
        ∧ ∃ m, t.disp.heldMail = s.disp.heldMail ++ [m] ∧ m.data = l.drop 16) := by
  have hop {t : State} (h : (if s.inboxRoom ∧ s.disp.heldMail = [] then some ((s.inboxPut (s.blockMail c l)).opDone c { op := .sendmail block } 0)
      else
        let t := s.setCoreX c { (s.coreX c) with mail := some { op := .sendmail block } }
        some { t with disp := { t.disp with heldMail := t.disp.heldMail ++ [s.blockMail c l] } }) = some t) :
      exec (.sendmail c block) s = .next (t.opSampled c) := by
    refine sendmailActs hr (Eq.trans ?_ h)
    unfold State.sendmailOp
    rw [hbad, ← hl]
    exact (if_neg (by decide)).trans (if_pos hchip)
  refine ⟨fun hroom hheld => .intro (hop (if_pos ⟨hroom, hheld⟩)) ?_, fun hroom => .intro (hop (if_neg fun h => ?_)) ⟨?_, ?_⟩⟩
  · rw [State.opSampled_get, State.opDone_get]
    exact State.inboxPut_prod ..
  · rw [hroom] at h
    exact absurd h.1 (by decide)
  · rw [State.opSampled_get]
    exact State.get_of_regs rfl ..
  · exact ⟨s.blockMail c l, rfl, rfl⟩

theorem mailNowhere (hchip : field l 3 1 % 64 ≠ s.get F.oluChipId) (hroute : s.route (field l 3 1 % 64) = none)
    (hu : Unclear s F.coreStatusMailNoroute 0 0) :
    Completes (.sendmail c block) s fun t => t.get F.coreStatusMailNoroute = min 65535 (s.get F.coreStatusMailNoroute + 1) := by
  refine .intro (sendmailActs hr ?_ (t := (s.count F.coreStatusMailNoroute F.coreStatusSaturated 0 0 1).opDone c { op := .sendmail block } 0)) ?_
  · unfold State.sendmailOp
    rw [hbad, ← hl]
    refine (if_neg (by decide)).trans ((if_neg hchip).trans ?_)
    rw [hroute]
  · rw [State.opSampled_get, State.opDone_get]
    exact State.get_count_min _ 1 hu (by decide) (by decide) (.inr (by decide))

end

/-- An event leaves a part of the dispatcher's own state as it is where its effect does. -/
theorem State.onObj_disp {β : Type} (g : DispX → β) {f : State → State} (hf : ∀ t,
  g (f t).disp = g t.disp) (s : State) (o : Obj) (cls rank eff : Nat) :
    g (s.onObj o cls rank eff f).disp = g s.disp := by
  have hd := (s.decideEvent_within o cls rank eff).disp (by decide)
  unfold State.onObj
  split
  · next h => rw [h] at hd; rw [hf, hd]
  · next h => rw [h] at hd; rw [hd]

/-- Flags that are set leave the held mail. -/
theorem State.setFlags_heldMail (s : State) (j mask : Nat) (src : Src) : (s.setFlags j mask src).disp.heldMail = s.disp.heldMail := by
  have hset := Only.foldl (l := bitsBelow 32 mask) (Only.refl _ s) fun t i => t.setFlag_within j (srcRank src) i
  have hwake (t : State) : (t.wakeByFlags j (srcRank src)).disp.heldMail = t.disp.heldMail := by
    unfold State.wakeByFlags
    split
    · split
      · exact State.onObj_disp DispX.heldMail (f := fun t => t.makeReady j false) (fun t => rfl) ..
      · split <;> rfl
    · rfl
  exact (hwake _).trans (congrArg DispX.heldMail (hset.disp (by decide)))

theorem State.storeSram_heldMail (s : State) (by_ : Option Nat) (a : Nat) (bytes : List Nat) :
    (s.storeSram by_ a bytes).disp.heldMail = s.disp.heldMail := by
  have hput : ∀ (bs : List Nat) (t : State) (a : Nat), (t.putSramBytes a bs).disp.heldMail = t.disp.heldMail := fun bs => by
    induction bs with
    | nil => exact fun _ _ => rfl
    | cons b bs ih => exact fun t a => ih _ _
  unfold State.storeSram
  refine foldl_keeps (P := fun u => u.disp.heldMail = s.disp.heldMail) (fun u c hu => Eq.trans ?_ hu) _ (hput bytes s a)
  unfold State.unreserve
  dsimp only
  split
  · split <;> rfl
  · rfl

theorem State.inboxPut_heldMail (s : State) (m : Mail) : (s.inboxPut m).disp.heldMail = s.disp.heldMail := by
  unfold State.inboxPut
  dsimp only
  rw [State.setFlags_heldMail, State.set_disp]
  exact State.storeSram_heldMail ..

theorem State.mailWritten_heldMail (s : State) (m : MailFrom) : (s.mailWritten m).disp.heldMail = s.disp.heldMail := by
  unfold State.mailWritten
  split
  · exact congrArg DispX.heldMail ((State.freeBuffer_within ..).disp (by decide))
  · exact congrArg DispX.heldMail ((State.completeSame_within ..).disp (by decide))
  · split <;> rfl

theorem heldMailWritten (m : Mail) (ms : List Mail) (s : State) (h : s.disp.heldMail = m :: ms) (hroom : s.inboxRoom = true) :
    Completes .inboxWrite s fun t => t.disp.heldMail = ms ∧ t.get F.coreMailIdxProd
      = (s.get F.coreMailIdxProd + 1) % s.get F.coreMailboxEntries % 2 ^ F.coreMailIdxProd.width := by
  have hx : exec .inboxWrite s = .next (({ s with disp := { s.disp with heldMail := ms } }.inboxPut m).mailWritten m.source) := by
    show execInboxWrite s = _
    unfold execInboxWrite
    rw [h]
    exact if_pos hroom
  refine .intro hx ⟨?_, ?_⟩
  · rw [State.mailWritten_heldMail, State.inboxPut_heldMail]
  · rw [(State.mailWritten_within ..).get _ _ _ (by decide), State.inboxPut_prod]
    rfl

/-! ### The load window (R357) -/

/-- A core's busy count goes into its register, and starts anew. -/
def State.recordBusy (t : State) (c : Nat) : State :=
  ((t.set F.dispCoreStatBusy 0 c (t.coreX c).busy).set F.dispCoreStatValid 0 c 1).setCoreX c { (t.coreX c) with busy := 0 }

theorem State.recordBusy_reads (t : State) (c : Nat) : ((t.recordBusy c).coreX c).busy = 0 ∧ (t.recordBusy c).get F.dispCoreStatValid 0 c = 1
    ∧ (t.recordBusy c).get F.dispCoreStatBusy 0 c = (t.coreX c).busy % 2 ^ 32
    ∧ ∀ d, d ≠ c → (t.recordBusy c).coreX d = t.coreX d ∧ ∀ f, (t.recordBusy c).get f 0 d = t.get f 0 d := by
  unfold State.recordBusy
  refine ⟨?_, ?_, ?_, fun d hd => ⟨?_, fun f => ?_⟩⟩
  · rw [State.coreX_setCoreX, if_pos rfl]
  · rw [State.get_setCoreX]
    exact State.get_set_self _ _ _ _ _ (by decide)
  · rw [State.get_setCoreX, State.get_set_apart _ _ _ _ _ _ _ _ (by decide) (by decide)]
    exact State.get_set_self _ _ _ _ _ (by decide)
  · rw [State.coreX_setCoreX, if_neg hd, State.coreX_of_disp ((State.set_disp ..).trans (State.set_disp ..))]
  · rw [State.get_setCoreX, State.get_set_ne _ _ _ _ _ _ _ _ (by decide) (.inr (.inr (.inl hd.symm))),
      State.get_set_ne _ _ _ _ _ _ _ _ (by decide) (.inr (.inr (.inl hd.symm)))]

theorem busyRecorded : ∀ (l : List Nat) (s : State), l.Nodup →
    (∀ c ∈ l, ((l.foldl State.recordBusy s).coreX c).busy = 0 ∧ (l.foldl State.recordBusy s).get F.dispCoreStatValid 0 c = 1
      ∧ (l.foldl State.recordBusy s).get F.dispCoreStatBusy 0 c = (s.coreX c).busy % 2 ^ 32)
    ∧ ∀ d, d ∉ l → (l.foldl State.recordBusy s).coreX d = s.coreX d ∧ ∀ f, (l.foldl State.recordBusy s).get f 0 d = s.get f 0 d
  | [], _, _ => ⟨fun _ h => absurd h List.not_mem_nil, fun _ _ => ⟨rfl, fun _ => rfl⟩⟩
  | a :: l, s, hn => by
    obtain ⟨hnot, hn'⟩ := List.nodup_cons.1 hn
    obtain ⟨hin, hout⟩ := busyRecorded l (s.recordBusy a) hn'
    obtain ⟨h0, hv, hb, hother⟩ := s.recordBusy_reads a
    refine ⟨fun c hc => ?_, fun d hd => ?_⟩
    · rcases List.mem_cons.1 hc with rfl | hc'
      · obtain ⟨hx, hg⟩ := hout c hnot
        exact ⟨(congrArg CoreX.busy hx).trans h0, (hg _).trans hv, (hg _).trans hb⟩
      · obtain ⟨h1, h2, h3⟩ := hin c hc'
        refine ⟨h1, h2, h3.trans ?_⟩
        rw [(hother c fun h : c = a => hnot (h ▸ hc')).1]
    · obtain ⟨hda, hdl⟩ := not_or.1 (List.mem_cons.not.1 hd)
      exact ⟨(hout d hdl).1.trans (hother d hda).1, fun f => ((hout d hdl).2 f).trans ((hother d hda).2 f)⟩

/-- The registers are no part of the dispatcher's own state. -/
theorem State.withDisp_get (t : State) (d : DispX) (f : Fld) (i j : Nat) : ({ t with disp := d } : State).get f i j = t.get f i j :=
  State.get_of_regs rfl ..

/-- What the end of a load window does. -/
theorem loadWindow_acts {s : State} (h : s.get F.dispCtrlWindow ≤ s.ticks - s.disp.windowStart) :
    exec .loadWindow s = .next { (List.range 4).foldl State.recordBusy s with
      disp := { ((List.range 4).foldl State.recordBusy s).disp with windowStart := ((List.range 4).foldl State.recordBusy s).ticks } } := if_pos h

theorem State.recordBusy_ticks (t : State) (c : Nat) : (t.recordBusy c).ticks = t.ticks := by
  unfold State.recordBusy
  rw [(State.setCoreX_within ..).ticks (by decide), State.set_ticks, State.set_ticks]

/-- What a state holds of its cores and registers once the window's start has moved. -/
theorem State.windowStart_reads (t : State) (w c : Nat) : let u : State := { t with disp := { t.disp with windowStart := w } }
    u.disp.windowStart = w ∧ u.coreX c = t.coreX c ∧ ∀ f i j, u.get f i j = t.get f i j := by
  refine ⟨rfl, ?_, fun f i j => State.withDisp_get ..⟩
  unfold State.coreX
  rfl

theorem windowRecords (s : State) (h : s.get F.dispCtrlWindow ≤ s.ticks - s.disp.windowStart) :
    Completes .loadWindow s fun t => t.disp.windowStart = s.ticks ∧ ∀ c < 4, (t.coreX c).busy = 0
      ∧ t.get F.dispCoreStatValid 0 c = 1 ∧ t.get F.dispCoreStatBusy 0 c = (s.coreX c).busy % 2 ^ 32 := by
  have hall := (busyRecorded (List.range 4) s List.nodup_range).1
  have hticks : ((List.range 4).foldl State.recordBusy s).ticks = s.ticks :=
    foldl_keeps (P := fun u => u.ticks = s.ticks) (fun u c hu => (u.recordBusy_ticks c).trans hu) _ rfl
  have hx := loadWindow_acts h
  generalize (List.range 4).foldl State.recordBusy s = t at hall hticks hx
  obtain ⟨hw, -, -⟩ := t.windowStart_reads t.ticks 0
  refine .intro hx ⟨hw.trans hticks, fun c hc => ?_⟩
  obtain ⟨h0, hv, hb⟩ := hall c (List.mem_range.2 hc)
  obtain ⟨-, hcore, hget⟩ := t.windowStart_reads t.ticks c
  rw [hcore, hget, hget]
  exact ⟨h0, hv, hb⟩

theorem coresAndMail : CoresAndMail := by
  refine ⟨fun mask s => (coreRuns mask s).mono fun t ht => ⟨fun c hc => (ht c hc).runs,
    fun c hc j hr hm hj => (ht c hc).stopped j hr hm hj⟩,
    fun mask c s hc hr hm => (coreRuns mask s).mono fun t ht => (ht c hc).started hr hm, loadGoes, loadRefused, loadEnds, mailHere,
      mailNowhere,
    heldMailWritten, windowRecords⟩

end Sys2Proof.Machine
end


section
/-!
PROOFS. Instructions.lean: instructions of a control core (R326, R328, R341), and with Flows.lean and CoresAndMail.lean O41.
-/
namespace Sys2Proof.Machine
set_option Elab.async false

/-! ### Registers of a core -/

theorem CpuX.rx_wx (u : CpuX) {rd r : Nat} (hd : rd < 32) (hr : r < 32) (v : W32) :
    (u.wx rd v).rx r = if r = rd ∧ r ≠ 0 then v else u.rx r := by
  unfold CpuX.rx CpuX.wx
  rw [if_pos hr, if_pos hr]
  by_cases h0 : rd = 0
  · rw [if_pos h0, if_neg fun h => h.2 (h.1.trans h0)]
  · rw [if_neg h0, if_pos hd]
    refine (unitAt_putUnit ..).trans ?_
    by_cases h : r = rd
    · rw [if_pos h, if_pos ⟨h, fun hz => h0 (h ▸ hz)⟩]
    · rw [if_neg h, if_neg fun hh => h hh.1]

theorem State.cpu_setCpu (s : State) (c : Nat) (u : CpuX) (d : Nat) : (s.setCpu c u).cpu d = if d = c then u else s.cpu d := by
  unfold State.cpu State.setCpu
  rw [State.coreX_setCoreX]
  split <;> rfl

theorem rdOf_lt (i : Nat) : rdOf i < 32 := Nat.mod_lt _ (by decide)

theorem addWrites (c i word : Nat) (next : W32) (s t : State) (u : CpuX) (hu : u = s.cpu c) (ho : i % 128 = 0x33) (h3 : f3Of i = 0)
    (h7 : f7Of i = 0) (h : s.rvExec c i word next = (t, none)) :
    (t.cpu c).pc = next ∧ ∀ r < 32, (t.cpu c).rx r = if r = rdOf i ∧ r ≠ 0 then u.rx (rs1Of i) + u.rx (rs2Of i) else u.rx r := by
  have hres : regResult (s.cpu c) i = some (u.rx (rs1Of i) + u.rx (rs2Of i)) := by
    unfold regResult aluOp
    simp [ho, h3, h7, hu]
  have hx : s.rvExec c i word next = s.rvGo c (rdOf i) (u.rx (rs1Of i) + u.rx (rs2Of i)) next := by
    unfold State.rvExec
    simp [ho, hres]
  rw [hx] at h
  obtain rfl := (Prod.mk.inj h).1
  rw [State.cpu_setCpu, if_pos rfl]
  exact ⟨rfl, fun r hr => hu ▸ CpuX.rx_wx _ (rdOf_lt i) hr _⟩

theorem beqBranches (c i word : Nat) (next : W32) (s : State) (u : CpuX) (hu : u = s.cpu c) (ho : i % 128 = 0x63) (h3 : f3Of i = 0) :
    s.rvExec c i word next = (s.setCpu c { u with pc := if u.rx (rs1Of i) = u.rx (rs2Of i) then u.pc + immB i else next }, none) := by
  unfold State.rvExec State.rvJump branchTaken
  simp [ho, h3, hu]

/-! ### Traps (R341) -/

/-- The mode that a trap saves is above what it keeps of the status. -/
theorem savedMode (m n : Nat) : (m &&& 0xFFFFE777 ||| n) / 2 ^ 11 % 2 ^ 2 = n / 2 ^ 11 % 2 ^ 2 := by
  refine Nat.eq_of_testBit_eq fun i => ?_
  rw [Nat.testBit_mod_two_pow, Nat.testBit_mod_two_pow, Nat.testBit_div_two_pow, Nat.testBit_div_two_pow, Nat.testBit_or,
    Nat.testBit_and]
  by_cases hi : i < 2
  · have hz : Nat.testBit 0xFFFFE777 (11 + i) = false := by
      have : i = 0 ∨ i = 1 := by omega
      rcases this with rfl | rfl <;> decide
    rw [Nat.add_comm i 11, hz]
    simp
  · simp [hi]

theorem trapReturns (u : CpuX) (pc tval : W32) (cause : Nat) : (u.trap pc cause tval false).mepc = pc
    ∧ (u.trap pc cause tval false).mcause = BitVec.ofNat 32 cause ∧ (u.trap pc cause tval false).user = false
    ∧ (u.trap pc cause tval false).pc = u.mtvec &&& 0xFFFFFFFC
    ∧ (u.trap pc cause tval false).mret.pc = pc ∧ (u.trap pc cause tval false).mret.user = u.user := by
  refine ⟨rfl, ?_, rfl, ?_, rfl, ?_⟩
  · show BitVec.ofNat 32 (cause + false.toNat * 2 ^ 31) = _
    simp
  · unfold CpuX.trap
    simp
  · show decide (ib ((u.mstatus &&& 0xFFFFE777) ||| BitVec.ofNat 32 (ib u.mstatus.toNat 3 1 * 2 ^ 7 + (if u.user then 0 else 0x1800))).toNat 11 2 = 0)
      = u.user
    have hb : ib u.mstatus.toNat 3 1 < 2 := Nat.mod_lt _ (by decide)
    generalize ib u.mstatus.toNat 3 1 = b at hb
    unfold ib
    rw [BitVec.toNat_or, BitVec.toNat_and, BitVec.toNat_ofNat]
    have hm := savedMode u.mstatus.toNat ((b * 2 ^ 7 + if u.user = true then 0 else 6144) % 2 ^ 32)
    refine (congrArg (fun n => decide (n = 0)) hm).trans ?_
    have : b = 0 ∨ b = 1 := by omega
    rcases this with rfl | rfl <;> cases u.user <;> rfl

/-! ### Load-reserved and store-conditional (R328) -/

theorem State.unreserve_reads (s : State) (a n c : Nat) : (∀ d, d ≠ c → (s.unreserve a n c).coreX d = s.coreX d)
    ∧ (∀ w, outsideWords a n w = false → ((s.unreserve a n c).cpu c).reserved ≠ some w)
    ∧ (∀ d w, (s.cpu d).reserved ≠ some w → ((s.unreserve a n c).cpu d).reserved ≠ some w)
    ∧ (s.unreserve a n c).disp.sram = s.disp.sram := by
  unfold State.unreserve
  dsimp only
  cases hr : (s.coreX c).cpu.reserved with
  | none => exact ⟨fun _ _ => rfl, fun w _ h => (by rw [show (s.cpu c).reserved = none from hr] at h; cases h), fun _ _ h => h, rfl⟩
  | some v =>
    dsimp only
    split
    · next ho => exact ⟨fun _ _ => rfl, fun w hw h => by
        obtain rfl : v = w := Option.some.inj (hr.symm.trans h)
        exact absurd (ho.symm.trans hw) (by decide), fun _ _ h => h, rfl⟩
    · refine ⟨fun d hd => (State.coreX_setCoreX ..).trans (if_neg hd), fun w _ h => ?_, fun d w h h' => ?_, rfl⟩
      · unfold State.cpu at h
        rw [State.coreX_setCoreX, if_pos rfl] at h
        cases h
      · unfold State.cpu at h' h
        rw [State.coreX_setCoreX] at h'
        split at h'
        · cases h'
        · exact h h'

theorem unreserved (a n : Nat) : ∀ (l : List Nat) (s : State),
    let t := l.foldl (fun (v : State) c => v.unreserve a n c) s
    (∀ d, d ∉ l → t.coreX d = s.coreX d) ∧ (∀ c ∈ l, ∀ w, outsideWords a n w = false → (t.cpu c).reserved ≠ some w)
    ∧ (∀ d w, (s.cpu d).reserved ≠ some w → (t.cpu d).reserved ≠ some w) ∧ t.disp.sram = s.disp.sram
  | [], _ => ⟨fun _ _ => rfl, fun _ h => absurd h List.not_mem_nil, fun _ _ h => h, rfl⟩
  | k :: l, s => by
    obtain ⟨hne, hk, hd, hm⟩ := s.unreserve_reads a n k
    obtain ⟨hne', hin', hd', hm'⟩ := unreserved a n l (s.unreserve a n k)
    refine ⟨fun d h => ?_, fun c hc w hw => ?_, fun d w h => hd' d w (hd d w h), hm'.trans hm⟩
    · obtain ⟨h1, h2⟩ := not_or.1 (List.mem_cons.not.1 h)
      exact (hne' d h2).trans (hne d h1)
    · rcases List.mem_cons.1 hc with rfl | hc'
      · exact hd' c w (hk w hw)
      · exact hin' c hc' w hw

theorem State.sramByte_putSramBytes (l : List Nat) (s : State) (a x : Nat) : Assoc.rd memDefault (s.putSramBytes a l).disp.sram x
    = if a ≤ x ∧ x < a + l.length then BitVec.ofNat 8 (l.getD (x - a) 0) else Assoc.rd memDefault s.disp.sram x := by
  induction l generalizing s a with
  | nil => rw [if_neg (by simp)]; rfl
  | cons b l ih =>
    rw [State.putSramBytes, ih, List.length_cons]
    dsimp only
    rw [Assoc.rd_wr]
    by_cases hx : x = a
    · subst hx
      rw [if_neg (by omega), if_pos rfl, if_pos (by omega), Nat.sub_self]
      rfl
    · by_cases hin : a + 1 ≤ x ∧ x < a + 1 + l.length
      · rw [if_pos hin, if_pos (by omega), show x - a = (x - (a + 1)) + 1 by omega, List.getD_cons_succ]
      · rw [if_neg hin, if_neg hx, if_neg (by omega)]

theorem State.putSramBytes_coreX (l : List Nat) (s : State) (a c : Nat) : (s.putSramBytes a l).coreX c = s.coreX c := by
  induction l generalizing s a with
  | nil => rfl
  | cons b l ih =>
    rw [State.putSramBytes, ih]
    rfl

theorem State.sramBytes_of_sram {s t : State} (h : t.disp.sram = s.disp.sram) (a n : Nat) : t.sramBytes a n = s.sramBytes a n := by
  induction n generalizing a with
  | zero => rfl
  | succ n ih => rw [State.sramBytes, State.sramBytes, h, ih]

theorem State.sramBytes_eq {s : State} {l : List Nat} {a : Nat}
    (h : ∀ i < l.length, (Assoc.rd memDefault s.disp.sram (a + i)).toNat = l.getD i 0) : s.sramBytes a l.length = l := by
  induction l generalizing a with
  | nil => rfl
  | cons b l ih =>
    rw [List.length_cons, State.sramBytes]
    refine List.cons_eq_cons.2 ⟨h 0 (by simp), ih fun i hi => ?_⟩
    have := h (i + 1) (by simpa using hi)
    rwa [show a + (i + 1) = a + 1 + i by omega, List.getD_cons_succ] at this

/-- Bytes that are put are there. -/
theorem State.sramBytes_putSramBytes (s : State) (a v n : Nat) : (s.putSramBytes a (bytesOf v n)).sramBytes a n = bytesOf v n := by
  have h := State.sramBytes_eq (s := s.putSramBytes a (bytesOf v n)) (l := bytesOf v n) (a := a) fun i hi => by
    rw [State.sramByte_putSramBytes, if_pos (by omega), Nat.add_sub_cancel_left, BitVec.toNat_ofNat]
    refine Nat.mod_eq_of_lt (bytesOf_lt v n _ ?_)
    rw [List.getD_eq_getElem _ _ hi]
    exact List.getElem_mem hi
  rwa [bytesOf_length] at h

/-- A core's store reads back, leaves the core, and ends what other cores have reserved of it. -/
theorem State.storeSram_reads (s : State) (c a v : Nat) : (s.storeSram (some c) a (bytesOf v 4)).sramBytes a 4 = bytesOf v 4
    ∧ (s.storeSram (some c) a (bytesOf v 4)).cpu c = s.cpu c
    ∧ ∀ k < 4, k ≠ c → ∀ w, outsideWords a 4 w = false → ((s.storeSram (some c) a (bytesOf v 4)).cpu k).reserved ≠ some w := by
  have hput := s.sramBytes_putSramBytes a v 4
  have hcore := State.putSramBytes_coreX (bytesOf v 4) s a c
  unfold State.storeSram
  dsimp only
  rw [bytesOf_length]
  generalize s.putSramBytes a (bytesOf v 4) = t at hput hcore ⊢
  obtain ⟨hout, hin, -, hsram⟩ := unreserved a 4 ((List.range 4).filter fun k => decide (some c ≠ some k))
    { t with disp := { t.disp with badWords := t.disp.badWords.filter (outsideWords a 4) } }
  refine ⟨(State.sramBytes_of_sram hsram a 4).trans ((State.sramBytes_of_sram (s := t) rfl a 4).trans hput), ?_,
    fun k hk hne => hin k ?_⟩
  · exact (congrArg CoreX.cpu (hout c (by simp))).trans (congrArg CoreX.cpu hcore)
  · simp [hk, Ne.symm hne]

/-- The wait for the answer leaves what a core has reserved, and memory. -/
theorem State.memStall_reads (s : State) (c w : Nat) : ((s.memStall c w).cpu c).reserved = (s.cpu c).reserved
    ∧ (s.memStall c w).disp.sram = s.disp.sram := by
  unfold State.memStall
  split
  · exact ⟨rfl, rfl⟩
  · refine ⟨?_, rfl⟩
    have h (u : CpuX) : ((s.setCpu c u).useFree).cpu c = u := (s.cpu_setCpu c u c).trans (if_pos rfl)
    dsimp only
    rw [h]

theorem State.rvGo_reads (s : State) (c rd : Nat) (v next : W32) : (s.rvGo c rd v next).2 = none
    ∧ ((s.rvGo c rd v next).1.cpu c).reserved = (s.cpu c).reserved ∧ (∀ k, k ≠ c → (s.rvGo c rd v next).1.cpu k = s.cpu k)
    ∧ (s.rvGo c rd v next).1.disp.sram = s.disp.sram := by
  have h (k : Nat) := s.cpu_setCpu c { (s.cpu c).wx rd v with pc := next } k
  refine ⟨rfl, ?_, fun k hk => (h k).trans (if_neg hk), rfl⟩
  refine (congrArg CpuX.reserved ((h c).trans (if_pos rfl))).trans ?_
  unfold CpuX.wx
  dsimp only
  split
  · rfl
  · split <;> rfl

theorem scStores (c rd a al w : Nat) (v next : W32) (s : State) (h : s.rvAtomic c a .amo = .ok (al, w)) :
    ((s.cpu c).reserved = some (al / 4) → al % 4 = 0 →
      (s.rvSc c rd a v next).2 = none ∧ (s.rvSc c rd a v next).1.sramBytes al 4 = bytesOf v.toNat 4
      ∧ ((s.rvSc c rd a v next).1.cpu c).reserved = none
      ∧ ∀ k < 4, k ≠ c → ((s.rvSc c rd a v next).1.cpu k).reserved ≠ some (al / 4))
    ∧ ((s.cpu c).reserved ≠ some (al / 4) →
      (s.rvSc c rd a v next).2 = none ∧ (s.rvSc c rd a v next).1.disp.sram = s.disp.sram
      ∧ ((s.rvSc c rd a v next).1.cpu c).reserved = none) := by
  obtain ⟨hres, hsram⟩ := (s.setCpu c { (s.cpu c) with reserved := none }).memStall_reads c w
  have hnone : ((s.setCpu c { (s.cpu c) with reserved := none }).cpu c).reserved = none := by
    rw [State.cpu_setCpu, if_pos rfl]
  have hkeep : (s.setCpu c { (s.cpu c) with reserved := none }).disp.sram = s.disp.sram := rfl
  have hsc : s.rvSc c rd a v next = (if (s.cpu c).reserved = some (al / 4)
      then ((s.setCpu c { (s.cpu c) with reserved := none }).memStall c w).storeSram (some c) al (bytesOf v.toNat 4)
      else (s.setCpu c { (s.cpu c) with reserved := none }).memStall c w).rvGo c rd (if (s.cpu c).reserved = some (al / 4) then 0 else 1) next := by
    unfold State.rvSc
    rw [h]
    by_cases hh : (s.cpu c).reserved = some (al / 4) <;> simp [hh]
  rw [hnone] at hres
  rw [hkeep] at hsram
  generalize (s.setCpu c { (s.cpu c) with reserved := none }).memStall c w = t at hres hsram hsc
  refine ⟨fun hh hal => ?_, fun hh => ?_⟩
  · rw [if_pos hh] at hsc
    rw [hsc]
    obtain ⟨hst, hcpu, hother⟩ := t.storeSram_reads c al v.toNat
    generalize t.storeSram (some c) al (bytesOf v.toNat 4) = u at hst hcpu hother ⊢
    obtain ⟨hok, hr, hk, hm⟩ := u.rvGo_reads c rd (if (s.cpu c).reserved = some (al / 4) then 0 else 1) next
    refine ⟨hok, (State.sramBytes_of_sram hm al 4).trans hst, hr.trans (by rw [hcpu, hres]), fun k hk4 hne => ?_⟩
    rw [hk k hne]
    refine hother k hk4 hne _ ?_
    unfold outsideWords
    simp
    omega
  · rw [if_neg hh] at hsc
    rw [hsc]
    obtain ⟨hok, hr, -, hm⟩ := t.rvGo_reads c rd (if (s.cpu c).reserved = some (al / 4) then 0 else 1) next
    exact ⟨hok, hm.trans hsram, hr.trans hres⟩

theorem coresExecute : CoresExecute := ⟨addWrites, beqBranches, trapReturns, scStores⟩

/-- Settles O41: the flows, then the cores, their firmware and their mail, and the instructions that a core executes. -/
theorem flowsCoresAndMail : Obligations.FlowsCoresAndMail := ⟨flows, coresAndMail, coresExecute⟩

end Sys2Proof.Machine
end


section
/-!
PROOFS. Intervals.lean: arms, edges, results and series of the time-interval units (R399 to R408, R410); from these O45.
-/
namespace Sys2Proof.Machine
set_option Elab.async false

/-! ### What a unit holds and reads -/

theorem State.tim_of_tims {s t : State} (h : t.tims = s.tims) (m : Nat) : t.tim m = s.tim m := congrArg (unitAt ({} : TimX) · m) h

theorem State.timGet_set_self (s : State) (f : Fld) (m v : Nat) (h : f.lo + f.width ≤ 64) : (s.timSet f m v).timGet f m = v % 2 ^ f.width :=
  State.get_set_self _ _ _ _ _ h

theorem State.timGet_set_apart (s : State) (f g : Fld) (m v : Nat) (h : f.lo + f.width ≤ 64) (d : f.reg ≠ g.reg ∨ f.Apart g) :
    (s.timSet f m v).timGet g m = s.timGet g m := State.get_set_ne _ _ _ _ _ _ _ _ h (d.imp_right fun d => .inr (.inr d))

theorem State.tim_timSet (s : State) (f : Fld) (m v k : Nat) : (s.timSet f m v).tim k = s.tim k := State.tim_of_tims (State.set_tims ..) k

theorem State.timGet_setTim (s : State) (f : Fld) (m k : Nat) (x : TimX) : (s.setTim k x).timGet f m = s.timGet f m := State.get_setTim ..

theorem State.timGet_only {N : Nat} {s t : State} (h : Only N s t) (f : Fld) (m : Nat) (hN : N.testBit f.reg.ctorIdx = false) :
    t.timGet f m = s.timGet f m := h.get f _ _ hN

/-! ### A completed measurement (R407, R409) -/

/-- The registers that a completed measurement writes whatever else it does. -/
def State.timWritten (s : State) (m result aux : Nat) : State :=
  ((((s.timSet F.bayTimResultResult m result).timSet F.bayTimAuxAux m aux).timSet F.bayTimStatDone m 1).timSet F.bayTimStatState m 0).timSet
    F.bayTimStatStale m 0

/-- What completes marks what is invalid, and tells who asked to be told. -/
def State.timTold (t : State) (m result : Nat) : State :=
  let t := if (t.tim m).bad ∨ t.bit F.clkStatusRefLost then t.timSet F.bayTimStatInvalid m 1 else t
  let t := t.setTim m { (t.tim m) with due := none }
  let stat := bitsOf (t.rd ⟨.bayTimStat, m / 4, m % 4⟩) 0 16
  let t := if t.timGet F.bayTimNotifyEventEn m = 1 then t.post 0x0C01 m (stat + result % 2 ^ 64 * 2 ^ 32) else t
  if t.timGet F.bayTimNotifyFlagEn m = 1 then
    t.setFlags (t.timGet F.bayTimNotifyThread m) (2 ^ t.timGet F.bayTimNotifyFlag m) .hw
  else t

theorem State.timTold_get (t : State) (m result : Nat) (f : Fld) (hi : F.bayTimStatInvalid.reg ≠ f.reg ∨ F.bayTimStatInvalid.Apart f)
    (hN : (0x1844000000000000000000000000000000000000400000000000000000145000).testBit f.reg.ctorIdx = false) : (t.timTold m result).timGet f m = t.timGet f m := by
  have h1 : (if (t.tim m).bad ∨ t.bit F.clkStatusRefLost then t.timSet F.bayTimStatInvalid m 1 else t).timGet f m = t.timGet f m := by
    split
    · exact State.timGet_set_apart _ _ _ _ _ (by decide) hi
    · rfl
  unfold State.timTold
  dsimp only
  generalize (if (t.tim m).bad ∨ t.bit F.clkStatusRefLost then t.timSet F.bayTimStatInvalid m 1 else t) = u at h1 ⊢
  rw [← h1, ← u.timGet_setTim f m m { (u.tim m) with due := none }]
  generalize u.setTim m { (u.tim m) with due := none } = v
  refine State.timGet_only (N := 0x1844000000000000000000000000000000000000400000000000000000145000) ?_ f m hN
  have hp : Only 0x1844000000000000000000000000000000000000400000000000000000145000 v (if v.timGet F.bayTimNotifyEventEn m = 1 then
      v.post 0x0C01 m (bitsOf (v.rd ⟨.bayTimStat, m / 4, m % 4⟩) 0 16 + result % 2 ^ 64 * 2 ^ 32) else v) :=
    .ite (fun _ => State.post_only _ _ _ (.refl _ v) (by decide)) (fun _ => .refl _ v)
  exact .ite (fun _ => State.setFlags_only _ _ _ hp (by decide)) (fun _ => hp)

theorem State.timDone_eq (s : State) (m result aux : Nat) : s.timDone m result aux = (s.timWritten m result aux).timTold m result := rfl

theorem State.timDone_reads (s : State) (m r a : Nat) : (s.timDone m r a).timState m = 0 ∧ (s.timDone m r a).timGet F.bayTimStatDone m = 1
    ∧ (s.timDone m r a).timGet F.bayTimResultResult m = r % 2 ^ 64 ∧ (s.timDone m r a).timGet F.bayTimAuxAux m = a % 2 ^ 64
    ∧ (s.timDone m r a).timGet F.bayTimStatOrder m = s.timGet F.bayTimStatOrder m
    ∧ (s.timDone m r a).timGet F.bayTimStatCoincident m = s.timGet F.bayTimStatCoincident m
    ∧ (s.timDone m r a).timGet F.bayTimStatTimedout m = s.timGet F.bayTimStatTimedout m := by
  rw [State.timDone_eq]
  have hw : (s.timWritten m r a).timState m = 0 ∧ (s.timWritten m r a).timGet F.bayTimStatDone m = 1
      ∧ (s.timWritten m r a).timGet F.bayTimResultResult m = r % 2 ^ 64 ∧ (s.timWritten m r a).timGet F.bayTimAuxAux m = a % 2 ^ 64
      ∧ (s.timWritten m r a).timGet F.bayTimStatOrder m = s.timGet F.bayTimStatOrder m
      ∧ (s.timWritten m r a).timGet F.bayTimStatCoincident m = s.timGet F.bayTimStatCoincident m
      ∧ (s.timWritten m r a).timGet F.bayTimStatTimedout m = s.timGet F.bayTimStatTimedout m := by
    unfold State.timWritten State.timState State.timGet State.timSet
    refine ⟨?_, ?_, ?_, ?_, ?_, ?_, ?_⟩ <;> simp (disch := decide)
  obtain ⟨h1, h2, h3, h4, h5, h6, h7⟩ := hw
  have hk (f : Fld) (hi) (hN) := State.timTold_get (s.timWritten m r a) m r f hi hN
  exact ⟨(hk _ (.inr (by decide)) (by decide)).trans h1, (hk _ (.inr (by decide)) (by decide)).trans h2,
    (hk _ (.inl (by decide)) (by decide)).trans h3, (hk _ (.inl (by decide)) (by decide)).trans h4,
    (hk _ (.inr (by decide)) (by decide)).trans h5, (hk _ (.inr (by decide)) (by decide)).trans h6,
    (hk _ (.inr (by decide)) (by decide)).trans h7⟩

/-! ### Arms and ends (R405, R407, R410) -/

/-- What is copied from the registers reads as they do. -/
theorem Assoc.rd_copied (g : RegKey → Word) (keys : List RegKey) (l : List (RegKey × Word)) (k : RegKey) :
    Assoc.rd resetWord (keys.foldl (fun l k => Assoc.wr RegKey.before resetWord l k (g k)) l) k
      = if k ∈ keys then g k else Assoc.rd resetWord l k := by
  induction keys generalizing l with
  | nil => simp
  | cons a keys ih =>
    rw [List.foldl_cons, ih, Assoc.rd_wr]
    by_cases hk : k ∈ keys
    · rw [if_pos hk, if_pos (List.mem_cons_of_mem _ hk)]
    · rw [if_neg hk]
      by_cases ha : k = a
      · rw [if_pos ha, if_pos (ha ▸ List.mem_cons_self), ha]
      · rw [if_neg ha, if_neg fun h => (List.mem_cons.1 h).elim ha hk]

/-- What an arm takes of the staged configuration. -/
def State.timTaken (s : State) (m : Nat) : List (RegKey × Word) :=
  (([⟨.bayTimCfg, m / 4, m % 4⟩, ⟨.bayTimCount, m / 4, m % 4⟩, ⟨.bayTimTime, m / 4, m % 4⟩, ⟨.bayTimOfs, m / 4, m % 4⟩] : List RegKey)
    ++ (List.range 16).map fun i => (⟨.bayDeskew, m / 4,
      i⟩ : RegKey)).foldl (fun l k => Assoc.wr RegKey.before resetWord l k (s.rd k)) []

/-- The unit with what an arm takes. -/
def State.timFresh (s : State) (m : Nat) : TimX :=
  { act := s.timTaken m, armTick := s.ticks, base := s.get F.clkEtcountCount, bad := s.bit F.clkStatusRefLost, lostNew := (s.tim m).lostNew }

/-- The unit as its arm leaves it. -/
def State.timArmed (s : State) (m : Nat) : TimX :=
  let x := s.timFresh m
  if x.get F.bayTimCfgMode m = 4 then { x with due := some (s.ticks + x.get F.bayTimCountGate m) } else x

theorem State.timTaken_get (s : State) (m : Nat) (x : TimX) (hx : x.act = s.timTaken m) (f : Fld)
    (hf : f.reg = .bayTimCfg ∨ f.reg = .bayTimCount ∨ f.reg = .bayTimTime) : x.get f m = s.timGet f m := by
  unfold TimX.get State.timTaken at *
  rw [hx, Assoc.rd_copied, if_pos]
  · rfl
  · unfold Fld.key
    rcases hf with hf | hf | hf <;> rw [hf] <;> simp

theorem State.timArmed_reads (s : State) (m : Nat) : (s.timArmed m).armTick = s.ticks ∧ (s.timArmed m).starts = 0
    ∧ (s.timArmed m).first = none ∧ (s.timArmed m).act = s.timTaken m := by
  unfold State.timArmed
  dsimp only
  split <;> exact ⟨rfl, rfl, rfl, rfl⟩

/-- An arm acts with the unit as it leaves it, and its status bits at 0. -/
theorem State.timBegin_reads (s : State) (m : Nat) : (s.timBegin m).tim m = s.timArmed m
    ∧ (s.timBegin m).timState m = (if s.timGet F.bayTimCfgMode m = 5 then 2 else 1)
    ∧ (s.timBegin m).timGet F.bayTimStatDone m = 0 ∧ (s.timBegin m).timGet F.bayTimStatTimedout m = 0 := by
  have hmode : (s.timFresh m).get F.bayTimCfgMode m = s.timGet F.bayTimCfgMode m := s.timTaken_get m _ rfl _ (.inl rfl)
  have hx : s.timBegin m = (timFlags.foldl (fun (t : State) f => t.timSet f m 0) (s.setTim m (s.timArmed m))).timSet F.bayTimStatState m
      (if s.timGet F.bayTimCfgMode m = 5 then 2 else 1) := by
    rw [← hmode]
    rfl
  rw [hx]
  have htim := State.tim_setTim s m (s.timArmed m) m
  rw [if_pos rfl] at htim
  generalize s.setTim m (s.timArmed m) = t at htim ⊢
  have hmod : (if s.timGet F.bayTimCfgMode m = 5 then 2 else 1) < 2 ^ F.bayTimStatState.width := by split <;> decide
  refine ⟨?_, (State.timGet_set_self _ _ _ _ (by decide)).trans (Nat.mod_eq_of_lt hmod), ?_, ?_⟩
  · rw [State.tim_timSet]
    exact foldl_keeps (P := fun u => u.tim m = s.timArmed m) (fun u f hu => (u.tim_timSet f m 0 m).trans hu) timFlags htim
  · rw [State.timGet_set_apart _ _ _ _ _ (by decide) (.inr (by decide))]
    unfold timFlags State.timGet State.timSet
    simp (disch := decide)
  · rw [State.timGet_set_apart _ _ _ _ _ (by decide) (.inr (by decide))]
    unfold timFlags State.timGet State.timSet
    simp (disch := decide)

theorem timArms (m : Nat) (src : Src) (s : State) (hc : testBit (s.get F.calStatusBusy) (m / 4) = false) (ha : Alone s (.tim m)) :
    Completes (.timArm m src) s fun t => t.timState m = (if s.timGet F.bayTimCfgMode m = 5 then 2 else 1)
      ∧ t.timGet F.bayTimStatDone m = 0 ∧ t.timGet F.bayTimStatTimedout m = 0 ∧ (t.tim m).armTick = s.ticks
      ∧ (t.tim m).get F.bayTimCfgMode m = s.timGet F.bayTimCfgMode m ∧ (t.tim m).get F.bayTimCountN m = s.timGet F.bayTimCountN m
      ∧ (t.tim m).get F.bayTimTimeTimeout m = s.timGet F.bayTimTimeTimeout m ∧ (t.tim m).starts = 0 ∧ (t.tim m).first = none := by
  let e : TickEvent := ⟨.tim m, 4, srcRank src, 1⟩
  have hop : s.timArm m src = (s.note e).timBegin m :=
    (if_neg (by rw [hc]; decide)).trans (State.onObj_alone ha ..)
  obtain ⟨htim, hst, hd, ht⟩ := (s.note e).timBegin_reads m
  obtain ⟨htick, hstarts, hfirst, hact⟩ := (s.note e).timArmed_reads m
  have hget (f : Fld) (hf) := (s.note e).timTaken_get m _ (hact) f hf
  refine .intro (congrArg Host.Outcome.next hop) ⟨hst, hd, ht, ?_, ?_, ?_, ?_, ?_, ?_⟩ <;> rw [htim]
  · exact htick
  · exact hget _ (.inl rfl)
  · exact hget _ (.inr (.inl rfl))
  · exact hget _ (.inr (.inr rfl))
  · exact hstarts
  · exact hfirst

theorem timArmBusy (m : Nat) (src : Src) (s : State) (hc : testBit (s.get F.calStatusBusy) (m / 4) = true)
    (hu : Unclear s F.bayTimStatBusyDiscard (m / 4) (m % 4)) :
    Completes (.timArm m src) s fun t => t.tim m = s.tim m
      ∧ t.timGet F.bayTimStatBusyDiscard m = min 65535 (s.timGet F.bayTimStatBusyDiscard m + 1) := by
  refine .intro (congrArg Host.Outcome.next (if_pos hc)) ⟨?_, State.get_count_min _ 1 hu (by decide) (by decide) (.inr (by decide))⟩
  exact State.tim_of_tims ((State.timCount_only _ _ _ (.refl _ s) (by decide) : Only (0x4000000000000000000400000000000000000000000000000000000001000) s _).tims (by decide)) m

theorem timDisarms (m : Nat) (src : Src) (s : State) (ha : Alone s (.tim m)) :
    (s.timState m = 1 → Completes (.timDisarm m src) s fun t => t.timState m = 0
      ∧ t.timGet F.bayTimStatDone m = s.timGet F.bayTimStatDone m ∧ t.timGet F.bayTimResultResult m = s.timGet F.bayTimResultResult m)
    ∧ (s.timState m = 2 → Completes (.timDisarm m src) s fun t => t.timState m = 0 ∧ t.timGet F.bayTimStatDone m = 1) := by
  have hop := State.onObj_alone ha 2 (srcRank src) 0 fun t =>
    if t.timState m = 2 then (t.timSettle m (t.timNow m)).endSeries m else if t.timState m = 1 then t.timIdle m else t
  have hst : (s.note ⟨.tim m, 2, srcRank src, 0⟩).timState m = s.timState m := rfl
  refine ⟨fun h => .intro (congrArg Host.Outcome.next (hop.trans ((if_neg ?_).trans (if_pos (hst.trans h))))) ⟨?_, ?_, ?_⟩,
    fun h => .intro (congrArg Host.Outcome.next (hop.trans (if_pos (hst.trans h)))) ?_⟩
  · rw [hst, h]
    decide
  · exact State.timGet_set_self _ _ _ _ (by decide)
  · exact (State.timGet_set_apart _ _ _ _ _ (by decide) (.inr (by decide))).trans (State.timGet_setTim ..)
  · exact (State.timGet_set_apart _ _ _ _ _ (by decide) (.inl (by decide))).trans (State.timGet_setTim ..)
  · unfold State.endSeries
    obtain ⟨hs, hd, -⟩ := State.timDone_reads _ m _ _
    exact ⟨hs, hd⟩

theorem timClears (m : Nat) (src : Src) (s : State) (ha : Alone s (.tim m)) :
    Completes (.timResultClear m src) s fun t => t.timGet F.bayTimResultResult m = 0 ∧ t.timGet F.bayTimAuxAux m = 0
      ∧ t.timGet F.bayTimStatDone m = 0 ∧ t.timState m = s.timState m := by
  refine .intro (congrArg Host.Outcome.next (State.onObj_alone ha ..)) ⟨?_, ?_, State.timGet_set_self _ _ _ _ (by decide), ?_⟩
  · rw [State.timGet_set_apart _ _ _ _ _ (by decide) (.inl (by decide)),
    State.timGet_set_apart _ _ _ _ _ (by decide) (.inl (by decide)),
      State.timGet_set_self _ _ _ _ (by decide)]
    rfl
  · rw [State.timGet_set_apart _ _ _ _ _ (by decide) (.inl (by decide)), State.timGet_set_self _ _ _ _ (by decide)]
    rfl
  · unfold State.timState
    rw [State.timGet_set_apart _ _ _ _ _ (by decide) (.inr (by decide)),
      State.timGet_set_apart _ _ _ _ _ (by decide) (.inl (by decide)),
      State.timGet_set_apart _ _ _ _ _ (by decide) (.inl (by decide))]
    rfl

/-! ### What an edge leaves of a measurement (R399 to R403) -/

/-- The arm of the unit, its state, and what decides it, are as they were. -/
structure ArmKept (m : Nat) (s t : State) : Prop where
  act : (t.tim m).act = (s.tim m).act
  tick : (t.tim m).armTick = (s.tim m).armTick
  state : t.timState m = s.timState m
  decider : t.decider (.tim m) = s.decider (.tim m)

theorem ArmKept.refl (m : Nat) (s : State) : ArmKept m s s := ⟨rfl, rfl, rfl, rfl⟩

theorem ArmKept.trans {m : Nat} {s t u : State} (h : ArmKept m s t) (h' : ArmKept m t u) : ArmKept m s u :=
  ⟨h'.act.trans h.act, h'.tick.trans h.tick, h'.state.trans h.state, h'.decider.trans h.decider⟩

theorem ArmKept.setTim {m : Nat} {s : State} {x : TimX} (ha : x.act = (s.tim m).act) (ht : x.armTick = (s.tim m).armTick) :
    ArmKept m s (s.setTim m x) where
  act := by rw [State.tim_setTim, if_pos rfl, ha]
  tick := by rw [State.tim_setTim, if_pos rfl, ht]
  state := State.timGet_setTim ..
  decider := State.decider_congr rfl _

/-- An increment is an event on its count, and on no unit. -/
theorem State.decider_count (s : State) (f sat : Fld) (i j n : Nat) {o : Obj} (h : Obj.field (f.key i j) f.lo ≠ o) :
    (s.count f sat i j n).decider o = s.decider o := by
  unfold State.count
  split
  · exact s.decider_superseded o
  · refine (State.decider_note_ne _ h).trans ?_
    unfold State.addCount
    split <;> rfl

theorem State.timLost_kept (s : State) (m n : Nat) : ArmKept m s (s.timLost m n) := by
  have h := ArmKept.setTim (m := m) (s := s) (x := { (s.tim m) with lost := (s.tim m).lost + n, lostNew := min 4294967295 ((s.tim m).lostNew + n) })
    rfl rfl
  unfold State.timLost
  dsimp only
  generalize s.setTim m { (s.tim m) with lost := (s.tim m).lost + n, lostNew := min 4294967295 ((s.tim m).lostNew + n) } = t at h ⊢
  refine h.trans ⟨?_, ?_, ?_, ?_⟩
  · exact congrArg TimX.act (State.tim_of_tims (((State.timCount_only _ _ _ (.refl _ _) (by decide) : Only (0x4000000000000000000400000000000000000000000000000000000001000) _ _).tims (by decide)).trans (State.set_tims ..)) m)
  · exact congrArg TimX.armTick (State.tim_of_tims (((State.timCount_only _ _ _ (.refl _ _) (by decide) : Only (0x4000000000000000000400000000000000000000000000000000000001000) _ _).tims (by decide)).trans (State.set_tims ..)) m)
  · exact (State.get_count_apart _ _ _ _ _ _ _ _ _ (by decide) (by decide) (by decide) (by decide) (by decide)).trans
      (State.timGet_set_apart _ _ _ _ _ (by decide) (.inl (by decide)))
  · exact (State.decider_count _ _ _ _ _ _ Obj.noConfusion).trans (State.decider_set ..)

theorem State.addStamp_kept (s : State) (m : Nat) (st : Stamp) : ArmKept m s (s.addStamp m st) := by
  unfold State.addStamp
  dsimp only
  split
  · exact s.timLost_kept m 1
  · exact .setTim rfl rfl

theorem TimX.start_kept (x : TimX) (m : Nat) (rising : Bool) (p : Nat) :
    (x.start m rising p).act = x.act ∧ (x.start m rising p).armTick = x.armTick := by
  unfold TimX.start TimX.completeAt
  dsimp only
  repeat' split
  all_goals exact ⟨rfl, rfl⟩

theorem TimX.stopEdge_kept (x : TimX) (m p : Nat) (counts : Bool) :
    (x.stopEdge m p counts).act = x.act ∧ (x.stopEdge m p counts).armTick = x.armTick := by
  unfold TimX.stopEdge TimX.completeAt
  dsimp only
  repeat' split
  all_goals exact ⟨rfl, rfl⟩

theorem ArmKept.ite {m : Nat} {p : Prop} [Decidable p] {s t u : State} (h : p → ArmKept m s t) (h' : ¬p → ArmKept m s u) :
    ArmKept m s (if p then t else u) := by
  split
  · next hp => exact h hp
  · next hp => exact h' hp

theorem State.timEdge_kept (s : State) (m src : Nat) (rising : Bool) (p : Int) : ArmKept m s (s.timEdge m src rising p) := by
  unfold State.timEdge
  extract_lets x mode both same p0 p1 h0 isStart isStop counts bad t u y z v
  refine .ite (fun _ => .refl m s) (fun _ => ?_)
  have ht : ArmKept m s t := .ite (fun _ => .setTim (x.start_kept m rising _).1 (x.start_kept m rising _).2) (fun _ => .refl m s)
  have hu : ArmKept m s u := .ite (fun _ => ht.trans (t.addStamp_kept m _)) (fun _ => ht)
  have hy := (u.tim m).stopEdge_kept m p1.toNat counts
  have hz : z.act = (u.tim m).act ∧ z.armTick = (u.tim m).armTick := by
    show (if same = true then _ else _ : TimX).act = _ ∧ (if same = true then _ else _ : TimX).armTick = _
    split <;> exact hy
  have hv : ArmKept m s v := hu.trans (.setTim hz.1 hz.2)
  exact .ite (fun _ => .ite (fun _ => hv.trans (v.addStamp_kept m _)) (fun _ => hv)) (fun _ => hu)

theorem State.timSettle_kept (s : State) (m : Nat) (now : Int) : ArmKept m s (s.timSettle m now) := by
  unfold State.timSettle
  refine foldl_keeps (P := ArmKept m s) (fun t e ht => ht.trans (t.timEdge_kept m _ _ _)) _ (.setTim rfl rfl)

theorem timTimesOut (m : Nat) (s : State) (hn : (s.tim m).get F.bayTimTimeTimeout m ≠ 0)
    (hk : (s.tim m).armTick + (s.tim m).get F.bayTimTimeTimeout m ≤ s.ticks) (hst : s.timState m = 1)
    (hm : (s.tim m).get F.bayTimCfgMode m ≠ 4) (ha : Alone s (.tim m)) :
    Completes (.timTimeout m) s fun t => t.timState m = 0 ∧ t.timGet F.bayTimStatDone m = 1 ∧ t.timGet F.bayTimStatTimedout m = 1
      ∧ t.timGet F.bayTimResultResult m = 0 := by
  obtain ⟨hact, htick, hstate, hdec⟩ := s.timSettle_kept m (s.timNow m)
  have hw := s.timSettle_within m (s.timNow m)
  have hal := hw.alone ha hdec (by decide) (by decide) (by decide) (by decide) (by decide)
  have hticks := hw.ticks (by decide)
  have hget (f : Fld) : ((s.timSettle m (s.timNow m)).tim m).get f m = (s.tim m).get f m := by
    unfold TimX.get
    rw [hact]
  rw [← hget] at hn hk hm
  rw [← htick, ← hticks] at hk
  rw [← hstate] at hst
  have hx : exec (.timTimeout m) s = (let u := s.timSettle m (s.timNow m); .next (((((u.note ⟨.tim m, 6, 0, 3⟩).timeoutAux m).2.timSet
      F.bayTimStatTimedout m 1).timDone m 0 ((u.note ⟨.tim m, 6, 0, 3⟩).timeoutAux m).1))) := by
    show execTimTimeout m s = _
    unfold execTimTimeout
    generalize s.timSettle m (s.timNow m) = u at hn hk hm hst hal ⊢
    have h2 : (u.note ⟨.tim m, 6, 0, 3⟩).timState m ≠ 2 := by
      rw [show (u.note ⟨.tim m, 6, 0, 3⟩).timState m = 1 from hst]
      decide
    dsimp only
    rw [if_pos ⟨hn, hk, by rw [hst]; decide, hm⟩, State.decideEvent_alone hal]
    exact if_neg h2
  refine .intro hx ?_
  obtain ⟨h0, h1, hr, -, -, -, ht⟩ := State.timDone_reads ((((s.timSettle m (s.timNow m)).note ⟨.tim m, 6, 0,
    3⟩).timeoutAux m).2.timSet
      F.bayTimStatTimedout m 1) m 0 (((s.timSettle m (s.timNow m)).note ⟨.tim m, 6, 0, 3⟩).timeoutAux m).1
  exact ⟨h0, h1, ht.trans (State.timGet_set_self _ _ _ _ (by decide)), hr⟩

theorem intervalArms : IntervalArms := ⟨timArms, timArmBusy, timDisarms, timClears, timTimesOut⟩

/-! ### Edges that wait, and edges that are accepted (R399 to R403) -/

theorem TimX.with_held {x : TimX} {l : List (Nat × Bool × Int)} (h : x.held = l) : { x with held := l } = x := by
  cases h
  rfl

/-- With no crossing that has persisted, none is detected. -/
theorem State.timSettle_none (s : State) (m : Nat) (now : Int) (h : ∀ e ∈ (s.tim m).held, now < e.2.2 + 256) :
    s.timSettle m now = s.setTim m (s.tim m) := by
  have h1 : ((s.tim m).held.filter fun e => decide (e.2.2 + 256 ≤ now)) = [] :=
    List.filter_eq_nil_iff.2 fun e he hd => absurd (of_decide_eq_true hd) (Int.not_le.2 (h e he))
  have h2 : ((s.tim m).held.filter fun e => decide (now < e.2.2 + 256)) = (s.tim m).held :=
    List.filter_eq_self.2 fun e he => decide_eq_true (h e he)
  unfold State.timSettle
  dsimp only
  rw [h1, h2]
  rfl

/-- Where no record's arm is due, none acts. -/
theorem State.armsDue_none (s : State) (m : Nat) (h : ∀ q < 4, ∀ e ∈ (s.seqX q).due, e.2 ≠ .timArm m) : s.armsDue m = s := by
  have hno (q : Nat) (hq : q < 4) : ¬ ((s.seqX q).due.any fun e => decide (tickAt e.1 ≤ s.ticks ∧ e.2 = .timArm m)) = true := by
    rw [List.any_eq_true]
    rintro ⟨e, he, hd⟩
    exact h q hq e he (of_decide_eq_true hd).2
  have hall : ∀ l : List Nat, (∀ q ∈ l, q < 4) → l.foldl (fun (t : State) q =>
      let x := t.seqX q
      if x.due.any fun e => decide (tickAt e.1 ≤ t.ticks ∧ e.2 = .timArm m) then
        (t.setSeqX q { x with due := x.due.filter fun e => decide (¬(tickAt e.1 ≤ t.ticks ∧ e.2 = .timArm m)) }).timArm m (.seq q)
      else t) s = s := by
    intro l hl
    induction l with
    | nil => rfl
    | cons q l ih =>
      rw [List.foldl_cons]
      dsimp only
      rw [if_neg (hno q (hl q List.mem_cons_self))]
      exact ih fun k hk => hl k (List.mem_cons_of_mem _ hk)
  exact hall (List.range 4) fun q hq => List.mem_range.1 hq

section
variable {m : Nat} {s : State} (hd : ∀ q < 4, ∀ e ∈ (s.seqX q).due, e.2 ≠ .timArm m)
include hd

theorem exec_timEdge (src : Nat) (rising : Bool) (p : Int) : exec (.timEdge m src rising p) s = .next (s.timCross m src rising p) := by
  show Host.Outcome.next ((s.armsDue m).timCross m src rising p) = _
  rw [s.armsDue_none m hd]

theorem edgeHeld (src : Nat) (rising : Bool) (p : Int) (hs : s.timState m ≠ 0) :
    ((s.tim m).held = [] → Completes (.timEdge m src rising p) s fun t => t.tim m = { s.tim m with held := [(src, rising, p)] })
    ∧ (∀ r₀ p₀, (s.tim m).held = [(src, r₀, p₀)] → p < p₀ + 256 →
        Completes (.timEdge m src rising p) s fun t => t.tim m = { s.tim m with held := [] }) := by
  have hst : ¬ (s.setTim m (s.tim m)).timState m = 0 := by
    unfold State.timState at hs ⊢
    rwa [State.timGet_setTim]
  have htim : (s.setTim m (s.tim m)).tim m = s.tim m := (s.tim_setTim m _ m).trans (if_pos rfl)
  refine ⟨fun h => .intro (exec_timEdge hd src rising p) ?_, fun r₀ p₀ h hlt => .intro (exec_timEdge hd src rising p) ?_⟩
  · unfold State.timCross
    rw [s.timSettle_none m p (by rw [h]; simp)]
    dsimp only
    rw [if_neg hst, htim, h, if_neg (by simp), State.tim_setTim, if_pos rfl]
    rfl
  · unfold State.timCross
    rw [s.timSettle_none m p (by rw [h]; simpa using hlt)]
    dsimp only
    rw [if_neg hst, htim, h, if_pos (by simp), State.tim_setTim, if_pos rfl]
    simp

/-- A crossing that has persisted is detected, and the next one is held. -/
theorem edgePersisted {src src' : Nat} {rising r' : Bool} {p p' : Int} (hs : s.timState m ≠ 0) (hh : (s.tim m).held = [(src, rising,
  p)])
    (hp : p + 256 ≤ p') {y : TimX} (hy : y.held = [])
    (he : (s.setTim m { s.tim m with held := [] }).timEdge m src rising p = (s.setTim m { s.tim m with held := [] }).setTim m y) :
    Completes (.timEdge m src' r' p') s fun t => t.tim m = { y with held := [(src', r', p')] } := by
  refine .intro (exec_timEdge hd src' r' p') ?_
  have hset : s.timSettle m p' = (s.setTim m { s.tim m with held := [] }).setTim m y := by
    unfold State.timSettle
    dsimp only
    have h1 : ([(src, rising, p)].filter fun e => decide (e.2.2 + 256 ≤ p')) = [(src, rising, p)] := by simp [hp]
    have h2 : ([(src, rising, p)].filter fun e => decide (p' < e.2.2 + 256)) = [] := by simp [Int.not_lt.2 hp]
    rw [hh, h1, h2]
    exact he
  have hst : ¬ ((s.setTim m { s.tim m with held := [] }).setTim m y).timState m = 0 := by
    unfold State.timState at hs ⊢
    rwa [State.timGet_setTim, State.timGet_setTim]
  unfold State.timCross
  rw [hset]
  dsimp only
  rw [if_neg hst, State.tim_setTim, if_pos rfl, hy, if_neg (by simp), State.tim_setTim, if_pos rfl]
  rfl

end

section
variable {u : State} {y : TimX} {m src a : Nat} {rising : Bool} {p : Int} (hy : u.tim m = y) (hst : u.timState m ≠ 0)
  (hm : y.get F.bayTimCfgMode m = 0) (hne : y.get F.bayTimCfgStartSrc m ≠ y.get F.bayTimCfgStopSrc m)
include hy hst hm hne

theorem State.timEdge_start (hs : y.get F.bayTimCfgStartSrc m = src) (hp : u.position m src false p = a)
    (ho : outside y.lastStart (y.get F.bayTimTimeHoldoffStart m) a = true) (hq : qualifies (y.get F.bayTimCfgStartEdge m) rising = true) :
    u.timEdge m src rising p = u.setTim m (y.start m rising a) := by
  have hstop : y.get F.bayTimCfgStopSrc m ≠ src := fun h => hne (hs.trans h.symm)
  unfold State.timEdge
  simp [hy, hst, hm, hs, hstop, hp, ho, hq]

theorem State.timEdge_stop (hs : y.get F.bayTimCfgStopSrc m = src) (hp : u.position m src true p = a)
    (ho : outside y.lastStop (y.get F.bayTimTimeHoldoffStop m) a = true) (hq : qualifies (y.get F.bayTimCfgStopEdge m) rising = true)
    (hf : y.first.isSome = true) :
    u.timEdge m src rising p = u.setTim m { y.stopEdge m a true with lastStop := some a } := by
  have hstart : y.get F.bayTimCfgStartSrc m ≠ src := fun h => hne (h.trans hs.symm)
  unfold State.timEdge
  simp [hy, hst, hm, hs, hstart, hp, ho, hq, hf]

end

/-- The start edge that an INTERVAL measurement uses. -/
theorem TimX.start_used {y : TimX} {m a : Nat} (rising : Bool) (hm : y.get F.bayTimCfgMode m = 0) (hdue : y.due = none)
    (hn : y.starts + 1 = y.get F.bayTimCfgNstart m) (hf : y.final = none) :
    y.start m rising a = { y with lastStart := some a, starts := y.starts + 1, first := some a } := by
  have h1 : ¬ (y.due.isSome = true ∧ y.get F.bayTimCfgMode m ≠ 4) := fun h => absurd h.1 (by rw [hdue]; decide)
  unfold TimX.start
  dsimp only
  rw [if_neg h1, if_pos hm, if_pos hn, hf]

/-- The stop edge that an INTERVAL measurement uses: with it, it has its last edge. -/
theorem TimX.stop_used {y : TimX} {m a b : Nat} (hm : y.get F.bayTimCfgMode m = 0) (hdue : y.due = none)
    (hn : y.stops + 1 = y.get F.bayTimCfgNstop m) (hf : y.final = none) (hb : y.first = some b) :
    y.stopEdge m a true = { y with
      stops := y.stops + 1, final := some a, due := some (y.armTick + (max a b + 24576 + 8191) / 8192) } := by
  have h1 : y.get F.bayTimCfgMode m = 0 ∧ true = true ∧ y.final.isNone = true ∧ y.due.isNone = true := ⟨hm, rfl, by rw [hf]; rfl,
    by rw [hdue]; rfl⟩
  unfold TimX.stopEdge
  dsimp only
  rw [if_pos h1, if_pos hn, hb]
  rfl

theorem edgesUsed (m src src' a : Nat) (rising r' : Bool) (p p' : Int) (x : TimX) (s : State) (hx : x = s.tim m) (hst : s.timState m = 1)
    (hd : ∀ q < 4, ∀ e ∈ (s.seqX q).due, e.2 ≠ .timArm m) (hm : x.get F.bayTimCfgMode m = 0)
    (hne : x.get F.bayTimCfgStartSrc m ≠ x.get F.bayTimCfgStopSrc m) (hdue : x.due = none) (hh : x.held = [(src, rising, p)])
    (hp : p + 256 ≤ p') :
    (x.get F.bayTimCfgStartSrc m = src → s.position m src false p = a →
      outside x.lastStart (x.get F.bayTimTimeHoldoffStart m) a = true →
      qualifies (x.get F.bayTimCfgStartEdge m) rising = true → x.starts + 1 = x.get F.bayTimCfgNstart m → x.final = none →
      Completes (.timEdge m src' r' p') s fun t => (t.tim m).first = some a ∧ (t.tim m).starts = x.starts + 1
        ∧ (t.tim m).lastStart = some a ∧ (t.tim m).due = none ∧ (t.tim m).held = [(src', r', p')])
    ∧ (∀ b, x.get F.bayTimCfgStopSrc m = src → s.position m src true p = a →
      outside x.lastStop (x.get F.bayTimTimeHoldoffStop m) a = true →
      qualifies (x.get F.bayTimCfgStopEdge m) rising = true → x.stops + 1 = x.get F.bayTimCfgNstop m → x.final = none →
      x.first = some b →
      Completes (.timEdge m src' r' p') s fun t => (t.tim m).final = some a
        ∧ (t.tim m).due = some (x.armTick + (max a b + 24576 + 8191) / 8192)) := by
  have htim : (s.setTim m { x with held := [] }).tim m = { x with held := [] } := (s.tim_setTim m _ m).trans (if_pos rfl)
  have hst0 : s.timState m ≠ 0 := by rw [hst]; decide
  have hst' : (s.setTim m { x with held := [] }).timState m ≠ 0 := by
    unfold State.timState at hst0 ⊢
    rwa [State.timGet_setTim]
  have hpos (stop : Bool) : (s.setTim m { x with held := [] }).position m src stop p = s.position m src stop p := by
    unfold State.position
    rw [htim, ← hx]
    rfl
  have hheld : (s.tim m).held = [(src, rising, p)] := hx ▸ hh
  refine ⟨fun hsrc hpa ho hq hn hf => ?_, fun b hsrc hpa ho hq hn hf hb => ?_⟩
  · have he := State.timEdge_start htim hst' hm hne hsrc ((hpos false).trans hpa) ho hq
    rw [TimX.start_used (y := { x with held := [] }) rising hm hdue hn hf] at he
    subst hx
    exact (edgePersisted hd hst0 hheld hp rfl he).mono fun t ht => by
      rw [ht]
      exact ⟨rfl, rfl, rfl, hdue, rfl⟩
  · have he := State.timEdge_stop htim hst' hm hne hsrc ((hpos true).trans hpa) ho hq (by rw [hb]; rfl)
    rw [TimX.stop_used (y := { x with held := [] }) hm hdue hn hf hb] at he
    subst hx
    exact (edgePersisted hd hst0 hheld hp rfl he).mono fun t ht => by
      rw [ht]
      exact ⟨rfl, rfl⟩

/-! ### Completion (R402, R404, R407) -/

/-- A measurement whose boundary has come completes with its values. -/
theorem exec_timComplete {m k : Nat} {s : State} (hk : (s.tim m).due = some k) (hle : k ≤ s.ticks) (hst : s.timState m = 1)
    (hh : (s.tim m).held = []) (ha : Alone s (.tim m)) :
    ∃ u : State, u.tim m = s.tim m ∧ u.regs = s.regs
      ∧ exec (.timComplete m) s = .next ((u.timValues m).2.timDone m (u.timValues m).1.1 (u.timValues m).1.2) := by
  have hset := s.timSettle_none m (s.timNow m) (by rw [hh]; simp)
  have htim : (s.setTim m (s.tim m)).tim m = s.tim m := (s.tim_setTim m _ m).trans (if_pos rfl)
  have hal := (s.setTim_within m (s.tim m)).alone_of_quiet ha (by decide) (by decide) (by decide) (by decide) (by decide) (by decide)
  have hst' : (s.setTim m (s.tim m)).timState m = 1 := (State.timGet_setTim ..).trans hst
  have hregs : (s.setTim m (s.tim m)).regs = s.regs := rfl
  have hticks : (s.setTim m (s.tim m)).ticks = s.ticks := rfl
  refine ⟨(s.setTim m (s.tim m)).note ⟨.tim m, 6, 0, 3⟩, htim, rfl, ?_⟩
  show execTimComplete m s = _
  unfold execTimComplete
  rw [hset]
  generalize s.setTim m (s.tim m) = v at htim hal hst' hregs hticks ⊢
  dsimp only
  rw [htim, hk]
  dsimp only
  rw [if_pos ⟨hst', hticks.symm ▸ hle⟩, State.decideEvent_alone hal]

theorem boundResult_within {v : Int} (h : v.natAbs < 2 ^ 63) : boundResult v = (unsigned 64 v, false) := by
  unfold boundResult
  have h1 : max (-(2 ^ 63 : Int)) (min (2 ^ 63 - 1) v) = v := by omega
  have h2 : ¬ ((2 : Int) ^ 63 < v) := by omega
  have h3 : ¬ (v < -(2 : Int) ^ 63) := by omega
  rw [h1, decide_eq_false h2, decide_eq_false h3]
  rfl

/-- What an INTERVAL measurement completes with. -/
theorem State.timValues_interval {u : State} {m a z : Nat} (hm : (u.tim m).get F.bayTimCfgMode m = 0) (ha : (u.tim m).first = some a)
    (hz : (u.tim m).final = some z) :
    (2 < ((z : Int) - a).natAbs → ((z : Int) - a).natAbs < 2 ^ 47 → u.timValues m
      = ((unsigned 64 (((z : Int) - a) * 65536), a), if (z : Int) - a < 0 then u.timSet F.bayTimStatOrder m 1 else u))
    ∧ (((z : Int) - a).natAbs ≤ 2 → u.timValues m
      = ((0, a), (if (z : Int) - a < 0 then u.timSet F.bayTimStatOrder m 1 else u).timSet F.bayTimStatCoincident m 1)) := by
  unfold State.timValues
  dsimp only
  rw [if_pos hm, ha, hz]
  dsimp only [Option.getD_some]
  refine ⟨fun h2 hlt => ?_, fun h2 => if_pos h2⟩
  rw [if_neg (Nat.not_le.2 h2)]
  have hb : boundResult (((z : Int) - a) * 65536) = (unsigned 64 (((z : Int) - a) * 65536), false) := boundResult_within (by omega)
  simp only [hb]
  rfl

theorem intervalCompletes (m k a z : Nat) (s : State) (hk : (s.tim m).due = some k) (hle : k ≤ s.ticks) (hst : s.timState m = 1)
    (hh : (s.tim m).held = []) (hal : Alone s (.tim m)) (hm : (s.tim m).get F.bayTimCfgMode m = 0) (ha : (s.tim m).first = some a)
    (hz : (s.tim m).final = some z) :
    (2 < ((z : Int) - a).natAbs → ((z : Int) - a).natAbs < 2 ^ 47 → Completes (.timComplete m) s fun t =>
      t.timState m = 0 ∧ t.timGet F.bayTimStatDone m = 1 ∧ t.timGet F.bayTimAuxAux m = a % 2 ^ 64
        ∧ t.timGet F.bayTimResultResult m = unsigned 64 (((z : Int) - a) * 65536)
        ∧ (z < a → t.timGet F.bayTimStatOrder m = 1))
    ∧ (((z : Int) - a).natAbs ≤ 2 → Completes (.timComplete m) s fun t =>
      t.timState m = 0 ∧ t.timGet F.bayTimStatDone m = 1 ∧ t.timGet F.bayTimResultResult m = 0
        ∧ t.timGet F.bayTimStatCoincident m = 1) := by
  obtain ⟨u, htim, -, hx⟩ := exec_timComplete hk hle hst hh hal
  obtain ⟨hfar, hnear⟩ := State.timValues_interval (u := u) (m := m) (by rw [htim]; exact hm) (by rw [htim]; exact ha) (by rw [htim]; exact hz)
  refine ⟨fun h2 hlt => ?_, fun h2 => ?_⟩
  · rw [hfar h2 hlt] at hx
    obtain ⟨h0, h1, hr, haux, ho, -, -⟩ := State.timDone_reads (if (z : Int) - a < 0 then u.timSet F.bayTimStatOrder m 1 else u) m
      (unsigned 64 (((z : Int) - a) * 65536)) a
    refine .intro hx ⟨h0, h1, haux, hr.trans (Nat.mod_eq_of_lt (unsigned_lt ..)), fun hlt => ho.trans ?_⟩
    rw [if_pos (by omega)]
    exact State.timGet_set_self _ _ _ _ (by decide)
  · rw [hnear h2] at hx
    obtain ⟨h0, h1, hr, -, -, hc, -⟩ := State.timDone_reads
      ((if (z : Int) - a < 0 then u.timSet F.bayTimStatOrder m 1 else u).timSet F.bayTimStatCoincident m 1) m 0 a
    exact .intro hx ⟨h0, h1, hr, hc.trans (State.timGet_set_self _ _ _ _ (by decide))⟩

theorem countCompletes (m k : Nat) (s : State) (hk : (s.tim m).due = some k) (hle : k ≤ s.ticks) (hst : s.timState m = 1)
    (hh : (s.tim m).held = []) (hal : Alone s (.tim m)) (hm : (s.tim m).get F.bayTimCfgMode m = 4) :
    Completes (.timComplete m) s fun t => t.timState m = 0 ∧ t.timGet F.bayTimStatDone m = 1
      ∧ t.timGet F.bayTimResultResult m = min 4294967295 (s.tim m).starts := by
  obtain ⟨u, htim, -, hx⟩ := exec_timComplete hk hle hst hh hal
  have hv : (u.timValues m).1.1 = min 4294967295 (s.tim m).starts := by
    unfold State.timValues
    simp [htim, hm]
  rw [hv] at hx
  obtain ⟨h0, h1, hr, -⟩ := State.timDone_reads (u.timValues m).2 m (min 4294967295 (s.tim m).starts) (u.timValues m).1.2
  refine .intro hx ⟨h0, h1, hr.trans (Nat.mod_eq_of_lt ?_)⟩
  exact Nat.lt_of_le_of_lt (Nat.min_le_left ..) (by decide)

/-! ### Entries of a series (R408) -/

/-- An entry that finds its ring enabled and with room is written at WR, which advances. -/
theorem State.ringPut_writes {s : State} {b : Nat} (ws : List Nat) (he : s.bit F.bayAcqRingEnable b = true) (hd : s.dramReady = true)
    (hroom : (s.get F.bayAcqPtrWr b + 1) % 2 ^ s.get F.bayAcqRingSize b ≠ s.get F.bayAcqPtrRd b) :
    ∃ u, s.ringPut b ws = (.written, u) ∧ u.tims = s.tims
      ∧ u.get F.bayAcqPtrWr b = (s.get F.bayAcqPtrWr b + 1) % 2 ^ s.get F.bayAcqRingSize b := by
  refine ⟨(s.ringPut b ws).2, ?_⟩
  unfold State.ringPut
  dsimp only
  rw [if_neg (by rw [he]; decide), if_neg fun h => h.elim hroom fun h => by rw [hd] at h; cases h]
  refine ⟨rfl, ?_, ?_⟩
  · rw [(State.acqRate_within ..).tims (by decide), State.set_tims]
    refine Eq.trans ?_ ((State.dramWrite_within s (s.get F.bayAcqRingBasePage b * 4096 + s.get F.bayAcqPtrWr b * 32)
      (ws.flatMap fun w => bytesOf w 8)).tims (by decide))
    split <;> rfl
  · rw [(State.acqRate_within ..).get _ _ _ (by decide)]
    exact (State.get_set_self _ _ _ _ _ (by decide)).trans (Nat.mod_eq_of_lt (s.two_pow_size F.bayAcqRingSize rfl ..))

theorem seriesWrites (m : Nat) (s : State) (hst : s.timState m = 2) (hh : (s.tim m).held = []) (hq : 3 ≤ (s.tim m).queue.length)
    (hl : (s.tim m).lostNew = 0) (he : s.bit F.bayAcqRingEnable (m / 4) = true) (hd : s.dramReady = true)
    (hroom : (s.get F.bayAcqPtrWr (m / 4) + 1) % 2 ^ s.get F.bayAcqRingSize (m / 4) ≠ s.get F.bayAcqPtrRd (m / 4)) :
    Completes (.seriesEntry m) s fun t => (t.tim m).queue = (s.tim m).queue.drop 3 ∧ (t.tim m).written = (s.tim m).written + 3
      ∧ t.get F.bayAcqPtrWr (m / 4) = (s.get F.bayAcqPtrWr (m / 4) + 1) % 2 ^ s.get F.bayAcqRingSize (m / 4) := by
  have hset := s.timSettle_none m (s.timNow m) (by rw [hh]; simp)
  have htim : (s.setTim m (s.tim m)).tim m = s.tim m := (s.tim_setTim m _ m).trans (if_pos rfl)
  have hst' : (s.setTim m (s.tim m)).timState m = 2 := (State.timGet_setTim ..).trans hst
  have hget (f : Fld) := State.get_setTim s f (m / 4) 0 m (s.tim m)
  have hd' : (s.setTim m (s.tim m)).dramReady = true := hd
  have he' : (s.setTim m (s.tim m)).bit F.bayAcqRingEnable (m / 4) = true := he
  have hne : ((s.tim m).queue.take 3).length = 3 := List.length_take_of_le hq
  rw [← hget, ← hget, ← hget] at hroom
  rw [← hget, ← hget]
  have hx : exec (.seriesEntry m) s = .next ((s.setTim m (s.tim m)).seriesEntry m) := by
    show execSeriesEntry m s = _
    unfold execSeriesEntry
    rw [hset]
    generalize s.setTim m (s.tim m) = v at htim hst'
    dsimp only
    rw [htim, if_pos ⟨hst', .inl hq⟩]
  generalize s.setTim m (s.tim m) = v at htim hroom hd' he' hx ⊢
  have hloss : v.lossEntry m = v := if_pos (by rw [htim]; exact hl)
  have hentry : ∃ (u : State) (since : Nat), v.seriesEntry m = u.setTim m { s.tim m with
      queue := (s.tim m).queue.drop 3, since := since, written := (s.tim m).written + 3 }
      ∧ u.get F.bayAcqPtrWr (m / 4) = (v.get F.bayAcqPtrWr (m / 4) + 1) % 2 ^ v.get F.bayAcqRingSize (m / 4) := by
    unfold State.seriesEntry
    rw [htim, if_neg (fun h => by rw [h] at hne; cases hne), hloss]
    dsimp only
    rw [htim, hne]
    obtain ⟨u, hu, -, hptr⟩ := State.ringPut_writes (b := m / 4) (((s.tim m).base % 2 ^ 40 + m * 2 ^ 40 + 3 * 2 ^ 45
      + (((s.tim m).queue.take 3).any (·.bad)).toNat * 2 ^ 47 + 0x8 * 2 ^ 60)
      :: (((s.tim m).queue.take 3).map Stamp.word ++ [0, 0, 0]).take 3) he' hd' hroom
    rw [hu]
    exact ⟨u, _, rfl, hptr⟩
  obtain ⟨u, since, hu, hptr⟩ := hentry
  refine .intro hx ?_
  rw [hu, State.tim_setTim, if_pos rfl, State.get_setTim]
  exact ⟨rfl, rfl, hptr⟩

theorem intervalResults : IntervalResults :=
  ⟨fun _ src rising p _ hd hs => edgeHeld hd src rising p hs, edgesUsed, intervalCompletes, countCompletes, seriesWrites⟩

/-- Settles O45: arms and ends, then edges, results and series. -/
theorem intervalUnits : Obligations.IntervalUnits := ⟨intervalArms, intervalResults⟩

end Sys2Proof.Machine
end


section
/-!
PROOFS. RingFrame.lean: what the units of a bay store in local DRAM lies in the slots of the bay's acquisition ring (R175, R394); O46.
-/
namespace Sys2Proof.Machine
set_option Elab.async false

/-! ### Within the ring of a bay -/

/-- The parts of the state by which a ring is found and filled: memory, and the ring's registers. -/
abbrev ringParts : Nat := 0x100000000000000000000000600000000000000000000000000000000000000

/-- The byte at `a` lies in no slot of the ring of bay `b`: the one at WR and those below 2^SIZE. -/
def OutsideRing (b : Nat) (s : State) (a : Nat) : Prop :=
  ∀ k, k = s.get F.bayAcqPtrWr b ∨ k < 2 ^ s.get F.bayAcqRingSize b →
    a < s.get F.bayAcqRingBasePage b * 4096 + k * 32 ∨ s.get F.bayAcqRingBasePage b * 4096 + k * 32 + 32 ≤ a

/-- From `s` to `t` memory has changed within the ring of bay `b` alone, and not at all where the ring is disabled; the ring is where it
was, and its WR is the old one or one of its slots. -/
structure RingFrame (b : Nat) (s t : State) : Prop where
  ring : ∀ f : Fld, f.reg = .bayAcqRing → t.get f b = s.get f b
  ptr : t.get F.bayAcqPtrWr b = s.get F.bayAcqPtrWr b ∨ t.get F.bayAcqPtrWr b < 2 ^ s.get F.bayAcqRingSize b
  off : s.bit F.bayAcqRingEnable b = false → SameMemory s t
  mem : ∀ a, OutsideRing b s a → t.memByte a = s.memByte a

namespace RingFrame
variable {b : Nat} {s t u : State}

theorem refl (b : Nat) (s : State) : RingFrame b s s := ⟨fun _ _ => rfl, .inl rfl, fun _ _ => rfl, fun _ _ => rfl⟩

theorem outside (h : RingFrame b s t) {a : Nat} (ha : OutsideRing b s a) : OutsideRing b t a := by
  intro k hk
  rw [h.ring F.bayAcqRingBasePage rfl]
  rw [h.ring F.bayAcqRingSize rfl] at hk
  refine ha k ?_
  rcases hk with hk | hk
  · rcases h.ptr with hp | hp
    · exact .inl (hk.trans hp)
    · exact .inr (hk ▸ hp)
  · exact .inr hk

theorem trans (h : RingFrame b s t) (h' : RingFrame b t u) : RingFrame b s u where
  ring f hf := (h'.ring f hf).trans (h.ring f hf)
  ptr := by
    have hsize := h.ring F.bayAcqRingSize rfl
    have hp := h'.ptr
    rw [hsize] at hp
    rcases hp with hp | hp
    · rw [hp]
      exact h.ptr
    · exact .inr hp
  off he a := by
    have he' : t.bit F.bayAcqRingEnable b = false := by
      unfold State.bit at he ⊢
      rwa [h.ring _ rfl]
    exact (h'.off he' a).trans (h.off he a)
  mem a ha := (h'.mem a (h.outside ha)).trans (h.mem a ha)

/-- What changes neither memory nor the ring's registers. -/
theorem of_quiet {N : Nat} (h : Only N s t) (hN : N &&& ringParts = 0) : RingFrame b s t := by
  have hbit (i : Nat) (hi : ringParts.testBit i = true) : N.testBit i = false := by
    have := congrArg (Nat.testBit · i) hN
    simpa [Nat.testBit_and, hi] using this
  have hm := h.mem (hbit 248 (by decide))
  exact ⟨fun f hf => h.get f b 0 (hbit _ (by rw [hf]; decide)), .inl (h.get _ _ _ (hbit _ (by decide))),
    fun _ a => State.memByte_of_mem hm a,
    fun a _ => State.memByte_of_mem hm a⟩

theorem quiet {N : Nat} (h : RingFrame b s t) (h' : Only N t u) (hN : N &&& ringParts = 0) : RingFrame b s u := h.trans (of_quiet h' hN)

theorem set (h : RingFrame b s t) (f : Fld) (i j v : Nat) (hf : f.mask &&& ringParts = 0) : RingFrame b s (t.set f i j v) :=
  h.quiet (State.set_only f i j v (.refl _ t) (Nat.or_self _)) hf

theorem setAcq (h : RingFrame b s t) (k : Nat) (x : AcqX) : RingFrame b s (t.setAcq k x) := h.quiet (t.setAcq_within k x) (by decide)

theorem setAdc (h : RingFrame b s t) (k : Nat) (x : AdcX) : RingFrame b s (t.setAdc k x) := h.quiet (t.setAdc_within k x) (by decide)

theorem setTim (h : RingFrame b s t) (k : Nat) (x : TimX) : RingFrame b s (t.setTim k x) := h.quiet (t.setTim_within k x) (by decide)

theorem post (h : RingFrame b s t) (code src detail : Nat) : RingFrame b s (t.post code src detail) :=
  h.quiet (t.post_within code src detail) (by decide)

theorem count (h : RingFrame b s t) (f sat : Fld) (i j n : Nat) (hf : (f.mask ||| sat.mask ||| evMask) &&& ringParts = 0) :
    RingFrame b s (t.count f sat i j n) :=
  h.quiet (State.count_only f sat i j n (.refl _ t) (Nat.or_self _)) hf

theorem ite {p : Prop} [Decidable p] (h : p → RingFrame b s t) (h' : ¬p → RingFrame b s u) : RingFrame b s (if p then t else u) := by
  split
  · next hp => exact h hp
  · next hp => exact h' hp

theorem foldl {α : Type} {f : State → α → State} (l : List α) (h : RingFrame b s t) (hf : ∀ u a, RingFrame b u (f u a)) :
    RingFrame b s (l.foldl f t) :=
  foldl_keeps (P := RingFrame b s) (fun u a hu => hu.trans (hf u a)) l h

theorem onObj (h : RingFrame b s t) (o : Obj) (cls rank eff : Nat) (f : State → State) (hf : ∀ u, RingFrame b u (f u)) :
    RingFrame b s (t.onObj o cls rank eff f) := by
  have hd : RingFrame b s (t.decideEvent o cls rank eff).2 := h.quiet (t.decideEvent_within o cls rank eff) (by decide)
  unfold State.onObj
  split
  · next heq => rw [heq] at hd; exact hd.trans (hf _)
  · next heq => rw [heq] at hd; exact hd

end RingFrame

/-! ### Entries of the ring (R394) -/

theorem bytesOf_words_length (ws : List Nat) : (ws.flatMap fun w => bytesOf w 8).length = 8 * ws.length := by
  induction ws with
  | nil => rfl
  | cons w ws ih =>
    rw [List.flatMap_cons, List.length_append, ih, bytesOf_length, List.length_cons]
    omega

/-- A write leaves the bytes outside it, whether or not it lies in local DRAM. -/
theorem State.memByte_dramWrite_outside (s : State) {a x : Nat} {l : List Nat} (hx : x < a ∨ a + l.length ≤ x) :
    (s.dramWrite a l).memByte x = s.memByte x := by
  by_cases h : s.inDram a l.length = true
  · rw [State.memByte_dramWrite h rfl, if_neg (by omega)]
  · refine State.memByte_of_mem ?_ x
    have hm := (s.portRequest_within).mem (by decide)
    have hf : ¬ s.portRequest.inDram a l.length = true := by
      unfold State.inDram State.dramEnd at h ⊢
      rwa [State.portRequest_frames]
    unfold State.dramWrite
    dsimp only
    rw [if_neg hf]
    exact ((State.outOfRange_within _).mem (by decide)).trans hm

/-- A write of at most a slot's bytes at the slot of WR lies in the ring. -/
theorem State.ringPut_ring (s : State) (b : Nat) (ws : List Nat) (hw : ws.length ≤ 4) : RingFrame b s (s.ringPut b ws).2 := by
  unfold State.ringPut
  dsimp only
  split
  · exact .refl b s
  next he =>
  split
  · exact .refl b s
  dsimp only
  refine RingFrame.quiet ?_ (State.acqRate_within ..) (by decide)
  have hlen := bytesOf_words_length ws
  have hd := s.dramWrite_within (s.get F.bayAcqRingBasePage b * 4096 + s.get F.bayAcqPtrWr b * 32) (ws.flatMap fun w => bytesOf w 8)
  have hmem (x : Nat) := s.memByte_dramWrite_outside (a := s.get F.bayAcqRingBasePage b * 4096 + s.get F.bayAcqPtrWr b * 32) (x := x)
    (l := ws.flatMap fun w => bytesOf w 8)
  generalize s.dramWrite (s.get F.bayAcqRingBasePage b * 4096 + s.get F.bayAcqPtrWr b * 32) (ws.flatMap fun w => bytesOf w 8) = t at hd hmem ⊢
  have hq : Only 0x4000000000000000000000000000000000000000000000000000000000000000000 t (if t.bit F.bayAcqRingMirrorEn b then t.setAcq b { t.acq b with mirror := (t.acq b).mirror ++ [ws] } else t) :=
    .ite (fun _ => t.setAcq_within b _) fun _ => .refl _ t
  generalize (if t.bit F.bayAcqRingMirrorEn b then t.setAcq b { t.acq b with mirror := (t.acq b).mirror ++ [ws] } else t) = u at hq ⊢
  have hm : u.mem = t.mem := hq.mem (by decide)
  refine ⟨fun f hf => ?_, .inr ?_, fun hoff => absurd hoff he, fun a ha => ?_⟩
  · rw [State.get_set_ne _ _ _ _ _ _ _ _ (by decide) (.inl (by rw [hf]; decide)), hq.get _ _ _ (by rw [hf]; decide),
      hd.get _ _ _ (by rw [hf]; decide)]
  · rw [State.get_set_self _ _ _ _ _ (by decide)]
    exact (Nat.mod_le _ _).trans_lt (Nat.mod_lt _ (Nat.two_pow_pos _))
  · rw [State.memByte_of_mem (State.set_mem ..), State.memByte_of_mem hm]
    refine hmem a ?_
    have := ha _ (.inl rfl)
    omega

theorem State.acqWrite_ring (s : State) (b : Nat) (ws : List Nat) (hw : ws.length ≤ 4) : RingFrame b s (s.acqWrite b ws).2 := by
  have h := s.ringPut_ring b ws hw
  unfold State.acqWrite
  split
  · next heq =>
    rw [heq] at h
    exact h.count _ _ _ _ _ (by decide)
  · exact h

theorem State.capEntry_ring (s : State) (b : Nat) (data : Bool) (ws : List Nat) (hw : ws.length ≤ 4) : RingFrame b s (s.capEntry b data ws) :=
  (s.acqWrite_ring b ws hw).setAcq b _

theorem fourWords_length (n : Nat) : (fourWords n).length ≤ 4 := by simp [fourWords]

theorem State.capData_ring (s : State) (b : Nat) (r : AcqRec) (trigger : Bool) (index : Int) : RingFrame b s (s.capData b r trigger index) :=
  s.capEntry_ring b true _ (fourWords_length _)

/-! ### The acquisition engine (R383 to R392) -/

section
variable (s : State) (b : Nat)

theorem State.endCapture_ring (how : Nat) : RingFrame b s (s.endCapture b how) := by
  unfold State.endCapture
  split
  · exact .refl b s
  · exact ((s.capEntry_ring b false _ (fourWords_length _)).setAcq b _).post _ _ _

theorem State.acqRearm_ring : RingFrame b s (s.acqRearm b) :=
  ((((s.endCapture_ring b 2).setAcq b _).quiet (State.acqFill_within _ b) (by decide)).set _ _ _ _ (by decide)).set _ _ _ _ (by decide)

theorem State.acqIdle_ring (how : Nat) : RingFrame b s (s.acqIdle b how) :=
  ((s.endCapture_ring b how).quiet (State.acqDrop_within _ b) (by decide)).set _ _ _ _ (by decide)

theorem State.capDone_ring : RingFrame b s (s.capDone b) := by
  have h := s.endCapture_ring b 0
  unfold State.capDone
  dsimp only
  refine .ite (fun _ => (h.quiet (State.acqDrop_within _ b) (by decide)).set _ _ _ _ (by decide)) fun _ => ?_
  refine .set (.setAcq (.quiet (.ite (fun _ => h) fun _ => ?_) (State.acqDrop_within _ b) (by decide)) _ _) _ _ _ _ (by decide)
  exact h.quiet (State.trigMissed_within _ b _) (by decide)

theorem State.capBegin_ring (met : List Nat) (r : AcqRec) : RingFrame b s (s.capBegin b met r) := by
  unfold State.capBegin
  extract_lets x cause stamp num n t1 t2 t3 t4 t5 y t6
  have h2 : RingFrame b s t2 := ((RingFrame.refl b s).setAcq b _).trans (t1.capEntry_ring b false _ (fourWords_length _))
  have h3 : RingFrame b s t3 := .ite (fun _ => h2.set _ _ _ _ (by decide)) fun _ => h2
  have h4 : RingFrame b s t4 := h3.foldl _ fun u i => by
    split
    · exact u.capData_ring b _ false _
    · exact .refl b u
  have h5 : RingFrame b s t5 := ((h4.trans (t4.capData_ring b r true 0)).set _ _ _ _ (by decide)).set _ _ _ _ (by decide)
  have h6 : RingFrame b s t6 := h5.setAcq b _
  exact .ite (fun _ => h6.trans (t6.capDone_ring b)) fun _ => h6

/-- A record that closes once the conditions it meets are decided. -/
theorem State.acqClosed_ring (r : AcqRec) : RingFrame b s (s.acqClosed b r) := by
  unfold State.acqClosed
  extract_lets x st keep k pre
  split
  next lv arms _ =>
  split
  next lv' v heq =>
  have hv : RingFrame b s v := by
    split at heq
    · cases heq; exact .refl b s
    · have hd := (RingFrame.refl b s).quiet (s.decideEvent_within (.acq b) 5 0 1) (by decide)
      split at heq
      · next hde => rw [hde] at hd; cases heq; exact hd
      · next hde => rw [hde] at hd; cases heq; exact hd
  extract_lets met t u1 n u2 y u3 u4 z u5 u6
  have ht : RingFrame b s t := hv.setAcq b _
  have hkeep (u : State) : RingFrame b u (keep u) := (RingFrame.refl b u).setAcq b _
  have h1 : RingFrame b s u1 := .ite (fun _ => ht) fun _ => ht.quiet (t.trigMissed_within b _) (by decide)
  have h2 : RingFrame b s u2 := (h1.trans (hkeep u1)).trans ((keep u1).capData_ring b r false n)
  have h3 : RingFrame b s u3 := h2.setAcq b _
  have h4 : RingFrame b s u4 := ht.trans (t.capBegin_ring b met r)
  have h6 : RingFrame b s u6 := ((ht.trans (hkeep t)).setAcq b _).set _ _ _ _ (by decide)
  exact .ite (fun _ => .ite (fun _ => h3.trans (u3.capDone_ring b)) fun _ => h3) fun _ =>
    .ite (fun _ => .ite (fun _ => h4.trans (hkeep u4)) fun _ => h4) fun _ => .ite (fun _ => h6.set _ _ _ _ (by decide)) fun _ => h6

theorem State.acqShort_ring : RingFrame b s (s.acqShort b) := by
  unfold State.acqShort
  dsimp only
  split
  · exact .refl b s
  · exact (s.acqClosed_ring b _).setAcq b _

theorem State.acqTake_ring (e tag cyc : Nat) (v : Int) : RingFrame b s (s.acqTake b e tag cyc v) := by
  unfold State.acqTake
  extract_lets x sh r now add r' t
  have ht : RingFrame b s t := (RingFrame.refl b s).setAcq b _
  exact .ite (fun _ => .refl b s) fun _ => .ite (fun _ => ht.trans (t.acqClosed_ring b _)) fun _ => ht

/-! ### The converter (R363 to R366, R378) -/

/-- The short record of a visit that ends. -/
theorem State.visitEnds_ring : RingFrame b s (if (s.adc b).visit.isSome then s.acqShort b else s) :=
  .ite (fun _ => s.acqShort_ring b) fun _ => .refl b s

theorem State.beginVisit_ring (e v : Nat) : RingFrame b s (s.beginVisit b e v) := by
  have h := ((s.visitEnds_ring b).quiet (State.freshCodes_within _ b) (by decide)).setAdc b
  exact (((h _).quiet (State.noteInput_within ..) (by decide)).set _ _ _ _ (by decide)).quiet (State.showVisit_within _ b) (by decide)

theorem State.adcIdle_ring : RingFrame b s (s.adcIdle b) :=
  (((s.visitEnds_ring b).setAdc b _).set _ _ _ _ (by decide)).quiet (State.showVisit_within _ b) (by decide)

theorem State.startSequence_ring (v : Nat) : RingFrame b s (s.startSequence b v) := by
  have h (x : AdcX) := (RingFrame.refl b s).setAdc b x
  exact .ite (fun _ => (h _).quiet (State.showVisit_within _ b) (by decide)) fun _ =>
    ((h _).quiet (State.restartTags_within _ b v) (by decide)).trans (State.beginVisit_ring _ b 0 v)

theorem State.seqTrigger_ring (src : Src) : RingFrame b s (s.seqTrigger b src) := by
  refine .ite (fun _ => (RingFrame.refl b s).quiet (s.adcBusy_within b) (by decide)) fun _ => (RingFrame.refl b s).onObj _ _ _ _ _ fun t => ?_
  exact .ite (fun _ => t.startSequence_ring b _) fun _ => (RingFrame.refl b t).count _ _ _ _ _ (by decide)

theorem State.adcStop_ring : RingFrame b s (s.adcStop b) := by
  have h := (RingFrame.refl b s).setAdc b { (s.adc b) with run := false }
  exact .ite (fun _ => h.quiet (State.showVisit_within _ b) (by decide)) fun _ => h.trans (State.adcIdle_ring _ b)

theorem State.endUrgent_ring (v : Nat) : RingFrame b s (s.endUrgent b v) := by
  have h := (RingFrame.refl b s).setAdc b { (s.adc b) with urgent := none, urgentAcc := {} }
  exact .ite (fun _ => (h.quiet (State.restartTags_within _ b v) (by decide)).trans (State.beginVisit_ring _ b _ v)) fun _ =>
    h.trans (State.adcIdle_ring _ b)

theorem State.urgentRequest_ring (e : Nat) (src : Src) : RingFrame b s (s.urgentRequest b e src) := by
  unfold State.urgentRequest
  extract_lets x running
  refine .ite (fun _ => (RingFrame.refl b s).quiet (s.adcBusy_within b) (by decide)) fun _ =>
    .ite (fun _ => (RingFrame.refl b s).count _ _ _ _ _ (by decide)) fun _ => (RingFrame.refl b s).onObj _ _ _ _ _ fun t => ?_
  have h := (RingFrame.refl b t).setAdc b { (t.adc b) with urgent := some t.ticks, urgentAcc := {} }
  exact RingFrame.trans (.ite (fun _ => h) fun _ => h.quiet (State.restartTags_within _ b _) (by decide)) (State.beginVisit_ring _ b e _)

theorem State.urgentCancel_ring (src : Src) : RingFrame b s (s.urgentCancel b src) :=
  (RingFrame.refl b s).onObj _ _ _ _ _ fun t => .ite (fun _ => t.endUrgent_ring b _) fun _ => .refl b t

theorem State.adcCommit_ring : RingFrame b s (s.adcCommit b) := by
  unfold State.adcCommit
  extract_lets x y v t1 t2 mode z t3 e z' t4
  have h1 : RingFrame b s t1 := (RingFrame.refl b s).setAdc b y
  have h2 : RingFrame b s t2 := .ite (fun _ => (h1.set _ _ _ _ (by decide)).set _ _ _ _ (by decide)) fun _ => h1
  have h3 : RingFrame b s t3 := .ite (fun _ => h2) fun _ => h2.setAdc b _
  have h4 : RingFrame b s t4 := h3.setAdc b _
  split
  · exact h4
  · exact .ite (fun _ => h4) fun _ => .ite (fun _ => h4.quiet (t4.adcChange_within b v) (by decide)) fun _ => h4.trans (t4.beginVisit_ring b _ v)

/-! ### Outputs (R362, R363, R366, R371) -/

theorem State.urgentDone_ring (e d : Nat) : RingFrame b s (s.urgentDone b e d) := by
  unfold State.urgentDone
  extract_lets a m t1 t2 t3
  have h1 : RingFrame b s t1 := (((RingFrame.refl b s).set _ _ _ _ (by decide)).set _ _ _ _ (by decide)).set _ _ _ _ (by decide)
  have h2 : RingFrame b s t2 := (h1.set _ _ _ _ (by decide)).quiet (State.hwSet_only F.bayAdcUrgentResDone _ _ (.refl _ _) (Nat.or_self _)) (by decide)
  have h3 : RingFrame b s t3 := (h2.set _ _ _ _ (by decide)).set _ _ _ _ (by decide)
  exact (h3.post _ _ _).trans (State.endUrgent_ring _ b d)

theorem State.nextEntry_ring (d : Nat) : RingFrame b s (s.nextEntry b d) :=
  .ite (fun _ => ((RingFrame.refl b s).setAdc b _).trans (State.beginVisit_ring _ b _ d)) fun _ =>
    .ite (fun _ => ((RingFrame.refl b s).setAdc b _).trans (State.beginVisit_ring _ b _ d)) fun _ =>
      ((RingFrame.refl b s).setAdc b _).trans (State.adcIdle_ring _ b)

theorem State.countOutput_ring (d : Nat) (w : Visit) (v : Int) : RingFrame b s (s.countOutput b d w v) := by
  unfold State.countOutput
  extract_lets x n c t
  have h : RingFrame b s t := (RingFrame.refl b s).setAdc b _
  exact .ite (fun _ => .ite (fun _ => h.trans (t.urgentDone_ring b _ d)) fun _ => h) fun _ =>
    .ite (fun _ => h.trans (t.nextEntry_ring b d)) fun _ => h

theorem State.deliverOutput_ring (tag cyc d : Nat) (w : Visit) (value : Int) : RingFrame b s (s.deliverOutput b tag cyc d w value) := by
  unfold State.deliverOutput
  extract_lets v t1 t2 z t3
  have h1 : RingFrame b s t1 := .ite (fun _ => .refl b s) fun _ => (RingFrame.refl b s).count _ _ _ _ _ (by decide)
  have h2 : RingFrame b s t2 := h1.set _ _ _ _ (by decide)
  have h3 : RingFrame b s t3 := .ite (fun _ => h2.setAdc b _) fun _ => h2
  exact (h3.trans (t3.acqTake_ring b _ tag cyc v)).trans (State.countOutput_ring _ b d w v)

theorem State.nextDelivery_ring : RingFrame b s (s.nextDelivery b) := by
  have h := (RingFrame.refl b s).quiet (s.dropSuppressed_within b (s.adc b).tags.length) (by decide)
  unfold State.nextDelivery
  generalize s.dropSuppressed b (s.adc b).tags.length = t at h
  dsimp only
  split
  · exact h
  · split
    · next tag cyc i d _ =>
      have hp := (h.quiet (t.popTag_within b tag cyc) (by decide)).quiet ((t.popTag b tag cyc).bankStep_within b d) (by decide)
      refine .ite (fun _ => h) fun _ => ?_
      split
      · next heq => rw [heq] at hp; exact hp
      · next heq =>
        rw [heq] at hp
        exact (hp.quiet (State.useFree_within _) (by decide)).trans (State.deliverOutput_ring _ b tag cyc d _ _)
    · exact h

end

/-! ### Series of an interval unit (R405, R407, R408) -/

section
variable (s : State) (m : Nat)

theorem State.lossEntry_ring : RingFrame (m / 4) s (s.lossEntry m) := by
  have h := s.ringPut_ring (m / 4) [m * 2 ^ 40 + 0x9 * 2 ^ 60, (s.tim m).lostNew, 0, 0] (Nat.le_refl 4)
  unfold State.lossEntry
  dsimp only
  refine .ite (fun _ => .refl _ s) fun _ => ?_
  split
  · next heq => rw [heq] at h; exact h
  · next heq => rw [heq] at h; exact (h.setTim m _).post _ _ _

theorem State.seriesEntry_ring : RingFrame (m / 4) s (s.seriesEntry m) := by
  unfold State.seriesEntry
  extract_lets l t x w0 ws y
  have h := (s.lossEntry_ring m).trans (t.ringPut_ring (m / 4) (w0 :: ws) (by
    rw [List.length_cons]
    exact Nat.succ_le_succ (List.length_take_le _ _)))
  refine .ite (fun _ => .refl _ s) fun _ => ?_
  split
  · next heq => rw [heq] at h; exact h.setTim m _
  · next heq => rw [heq] at h; exact (h.setTim m _).quiet (State.timLost_within _ m _) (by decide)
  · next heq => rw [heq] at h; exact h.setTim m _

theorem State.flushSeries_ring (n : Nat) : RingFrame (m / 4) s (s.flushSeries m n) := by
  induction n generalizing s with
  | zero => exact .refl _ s
  | succ n ih => exact .ite (fun _ => .refl _ s) fun _ => (s.seriesEntry_ring m).trans (ih _)

theorem State.endSeries_ring : RingFrame (m / 4) s (s.endSeries m) :=
  ((s.flushSeries_ring m 22).quiet (State.timValues_within _ m) (by decide)).quiet (State.timDone_within _ m _ _) (by decide)

end

/-! ### The commands -/

theorem timTimeout_ring (m : Nat) (s : State) : ∃ t, exec (.timTimeout m) s = .next t ∧ RingFrame (m / 4) s t := by
  have h := (RingFrame.refl (m / 4) s).quiet (s.timSettle_within m (s.timNow m)) (by decide)
  show ∃ t, execTimTimeout m s = .next t ∧ _
  unfold execTimTimeout
  generalize s.timSettle m (s.timNow m) = u at h
  have hd := h.quiet (u.decideEvent_within (.tim m) 6 0 3) (by decide)
  dsimp only
  split
  · split
    · next heq => rw [heq] at hd; exact ⟨_, rfl, hd.quiet (State.timIdle_within _ m) (by decide)⟩
    · next heq =>
      rw [heq] at hd
      split
      · exact ⟨_, rfl, hd.trans (State.endSeries_ring _ m)⟩
      · exact ⟨_, rfl, ((hd.quiet (State.timeoutAux_within _ m) (by decide)).set _ _ _ _ (by decide)).quiet
          (State.timDone_within _ m _ _) (by decide)⟩
  · exact ⟨_, rfl, h⟩

/-- The commands of the units of a bay that may store in its ring. -/
theorem ringOwner_frame {c : Instr} {b : Nat} (s : State) (h : ringOwner c = some b) : ∃ t, exec c s = .next t ∧ RingFrame b s t := by
  have hr := RingFrame.refl b s
  cases c with
  | adcOutput b' codes code =>
    cases h
    show ∃ t, execAdcOutput b codes code s = .next t ∧ _
    unfold execAdcOutput
    split
    · exact ⟨s, rfl, hr⟩
    · split
      · exact ⟨s, rfl, hr⟩
      · exact ⟨_, rfl, ((hr.quiet (s.takeCodes_within b _ _) (by decide)).trans (State.nextDelivery_ring _ b)).quiet (State.trimCodes_within _ b)
          (by decide)⟩
  | sequenceTrigger b' src => cases h; exact ⟨_, rfl, s.seqTrigger_ring b src⟩
  | adcStop b' src => cases h; exact ⟨_, rfl, hr.onObj _ _ _ _ _ fun t => t.adcStop_ring b⟩
  | sequenceCommit b' src =>
    cases h
    refine ⟨_, rfl, hr.onObj _ _ _ _ _ fun t => ?_⟩
    have hc := t.adcCommit_ring b
    exact .ite (fun _ => hc) fun _ => hc.quiet (State.calRefSel_within _ b) (by decide)
  | urgentRequest b' e src => cases h; exact ⟨_, rfl, s.urgentRequest_ring b e src⟩
  | urgentCancel b' src => cases h; exact ⟨_, rfl, s.urgentCancel_ring b src⟩
  | rearm b' src => cases h; exact ⟨_, rfl, hr.onObj _ _ _ _ _ fun t => t.acqRearm_ring b⟩
  | acqStop b' src => cases h; exact ⟨_, rfl, hr.onObj _ _ _ _ _ fun t => .ite (fun _ => .refl b t) fun _ => t.acqIdle_ring b 1⟩
  | seriesEntry m =>
    cases h
    have hs := hr.quiet (s.timSettle_within m (s.timNow m)) (by decide)
    exact ⟨_, rfl, .ite (fun _ => hs.trans (State.seriesEntry_ring _ m)) fun _ => hs⟩
  | timDisarm m src =>
    cases h
    refine ⟨_, rfl, hr.onObj _ _ _ _ _ fun t => ?_⟩
    have ht := RingFrame.refl (m / 4) t
    exact .ite (fun _ => (ht.quiet (t.timSettle_within m (t.timNow m)) (by decide)).trans (State.endSeries_ring _ m)) fun _ =>
      .ite (fun _ => ht.quiet (t.timIdle_within m) (by decide)) fun _ => ht
  | timTimeout m => cases h; exact timTimeout_ring m s
  | _ => cases h

/-- Settles O46: what each of these commands stores goes through the bay's ring. -/
theorem acquisitionRingFrame : Obligations.AcquisitionRingFrame := by
  intro c b s t hc ht
  obtain ⟨u, hu, hf⟩ := ringOwner_frame s hc
  cases hu.symm.trans ht
  exact ⟨hf.off, hf.mem⟩

end Sys2Proof.Machine
end


section
/-!
PROOFS. Outputs.lean: outputs of a converter and the edges of its window (R362, R363, R370, R371, R373, R375, R377); from these O43.
-/
namespace Sys2Proof.Machine
set_option Elab.async false

/-! ### Codes that are taken in and forgotten (R362, R371) -/

/-- Codes that are taken in change nothing else of the converter. -/
theorem State.takeCodes_adc (b : Nat) (w : Visit) : ∀ (cs : List Int) (s : State), ∃ l a,
    (s.takeCodes b w cs).adc b = { s.adc b with codes := l, codeAt := a }
  | [], s => ⟨_, _, rfl⟩
  | c :: cs, s => by
    obtain ⟨l, a, h⟩ := State.takeCodes_adc b w cs (let t := s.setAdc b { s.adc b with
      codes := s.correctCode b ((s.adc b).inputAt ((s.adc b).nextCode w)) c :: (s.adc b).codes, codeAt := some ((s.adc b).nextCode w) }
      if c ≤ -32768 ∨ 32767 ≤ c then t.count F.bayAdcCountsOverrange F.bayAdcCountsSaturated b 0 1 else t)
    refine ⟨l, a, h.trans ?_⟩
    have hc (t : State) : (if c ≤ -32768 ∨ 32767 ≤ c then t.count F.bayAdcCountsOverrange F.bayAdcCountsSaturated b 0 1 else t).adc b = t.adc b := by
      split
      · exact State.adc_of_adcs ((State.count_only _ _ _ _ _ (.refl _ t) (Nat.or_self _)).adcs (by decide)) b
      · rfl
    rw [hc, State.adc_setAdc, if_pos rfl]

/-- What is forgotten of the codes and inputs leaves the rest of the converter. -/
theorem State.trimCodes_adc (s : State) (b : Nat) : ∃ l i, (s.trimCodes b).adc b = { s.adc b with codes := l, inputs := i } := by
  unfold State.trimCodes
  dsimp only
  split
  · exact ⟨_, _, (State.adc_setAdc ..).trans (if_pos rfl)⟩
  · exact ⟨_, _, rfl⟩

/-- With no tag there is no output, and no edge acts. -/
theorem State.nextDelivery_none {s : State} {b : Nat} (h : (s.adc b).tags = []) : s.nextDelivery b = s := by
  have h0 : s.dropSuppressed b ([] : List (Nat × Nat)).length = s := rfl
  unfold State.nextDelivery
  rw [h, h0]
  dsimp only
  split
  · rfl
  · next w _ =>
    have hn : (s.adc b).nextOutput b w.entry = none := by
      unfold AdcX.nextOutput
      rw [h]
    rw [hn]

theorem codeTaken (b : Nat) (code : Int) (w : Visit) (s : State) (hv : (s.adc b).visit = some w) (hd : s.get F.bayAdcStatDegraded b = 0)
    (ht : (s.adc b).tags = []) :
    Completes (.adcOutput b [] code) s fun t => (t.adc b).codeAt = some ((s.adc b).nextCode w)
      ∧ (t.adc b).codes.head? = some (s.correctCode b ((s.adc b).inputAt ((s.adc b).nextCode w)) code) := by
  obtain ⟨t, htake, hadc⟩ : ∃ t, s.takeCodes b w [code] = t ∧ t.adc b = { s.adc b with
      codes := s.correctCode b ((s.adc b).inputAt ((s.adc b).nextCode w)) code :: (s.adc b).codes,
        codeAt := some ((s.adc b).nextCode w) } := by
    refine ⟨_, rfl, ?_⟩
    unfold State.takeCodes
    dsimp only
    refine Eq.trans ?_ ((s.adc_setAdc b _ b).trans (if_pos rfl))
    unfold State.takeCodes
    split
    · exact State.adc_of_adcs ((State.count_only _ _ _ _ _ (.refl _ _) (Nat.or_self _)).adcs (by decide)) b
    · rfl
  have htags : (t.adc b).tags = [] := by rw [hadc]; exact ht
  have hx : exec (.adcOutput b [] code) s = .next (t.trimCodes b) := by
    show execAdcOutput b [] code s = _
    unfold execAdcOutput
    rw [hv]
    dsimp only
    rw [if_neg (by unfold State.bit; rw [hd]; decide), List.nil_append, htake, State.nextDelivery_none htags]
  refine .intro hx ?_
  generalize (s.adc b).nextCode w = u at hadc ⊢
  generalize s.correctCode b ((s.adc b).inputAt u) code = c at hadc ⊢
  unfold State.trimCodes
  rw [hadc]
  dsimp only
  rw [State.adc_setAdc, if_pos rfl]
  exact ⟨rfl, by simp⟩

/-! ### An output that is due (R363, R370, R371, R375) -/

/-- The registers and the rest of the converter, once a visit goes on to the next entry, or the sequence ends. -/
theorem State.nextEntry_accs (s : State) (b d : Nat) : ((s.nextEntry b d).adc b).accs = (s.adc b).accs := by
  have hbegin (t : State) (e : Nat) : ((t.beginVisit b e d).adc b).accs = (t.adc b).accs := by
    obtain ⟨u, l, c, a, hu, -, hadc⟩ := t.beginVisit_shown b e d
    rw [hu, State.showVisit_adc, hadc]
  unfold State.nextEntry
  dsimp only
  split
  · rw [hbegin, State.adc_setAdc, if_pos rfl]
  · split
    · rw [hbegin, State.adc_setAdc, if_pos rfl]
    · rw [(State.adcIdle_reads _ b).1, State.adc_setAdc, if_pos rfl]

/-- An output that counts in a visit of the sequence (R363). -/
theorem State.countOutput_reads {s : State} {b : Nat} (d : Nat) (w : Visit) (v : Int) (hu : (s.adc b).urgent = none) :
    ((s.countOutput b d w v).adc b).accs = (s.adc b).accs
    ∧ ((s.adc b).get F.bayAdcEntCount b w.entry = 0 → ((s.countOutput b d w v).adc b).tags = (s.adc b).tags
        ∧ ((s.countOutput b d w v).adc b).visit = some { w with got := w.got + 1 }
        ∧ (s.countOutput b d w v).get F.bayAdcStatSettling b = s.get F.bayAdcStatSettling b)
    ∧ ((s.adc b).get F.bayAdcEntCount b w.entry ≠ 0 → (s.adc b).get F.bayAdcEntCount b w.entry ≤ w.got + 1 →
        (s.adc b).seqEntry + 1 < (s.adc b).get F.bayAdcCfgLen b →
        ((s.countOutput b d w v).adc b).visit.map (·.entry) = some ((s.adc b).seqEntry + 1)
        ∧ ((s.countOutput b d w v).adc b).seqEntry = (s.adc b).seqEntry + 1) := by
  have hno : ¬ (s.adc b).urgent.isSome = true := by rw [hu]; decide
  have hx : s.countOutput b d w v = (let t := s.setAdc b { s.adc b with visit := some { w with got := w.got + 1 }, urgentAcc := (s.adc b).urgentAcc }
      if (s.adc b).get F.bayAdcEntCount b w.entry ≠ 0 ∧ (s.adc b).get F.bayAdcEntCount b w.entry ≤ w.got + 1 then t.nextEntry b d else t) := by
    unfold State.countOutput
    dsimp only
    rw [if_neg hno, if_neg hno]
  have hadc := (s.adc_setAdc b { s.adc b with visit := some { w with got := w.got + 1 }, urgentAcc := (s.adc b).urgentAcc } b).trans (if_pos rfl)
  have hset := State.get_setAdc s F.bayAdcStatSettling b 0 b { s.adc b with visit := some { w with got := w.got + 1 }, urgentAcc := (s.adc b).urgentAcc }
  rw [hx]
  dsimp only
  generalize s.setAdc b { s.adc b with visit := some { w with got := w.got + 1 }, urgentAcc := (s.adc b).urgentAcc } = t at hadc hset ⊢
  refine ⟨?_, fun h0 => ?_, fun h0 hle hlen => ?_⟩
  · split
    · rw [State.nextEntry_accs, hadc]
    · rw [hadc]
  · rw [if_neg fun h => h.1 h0, hadc, hset]
    exact ⟨rfl, rfl, rfl⟩
  · rw [if_pos ⟨h0, hle⟩]
    have hlen' : (t.adc b).seqEntry + 1 < (t.adc b).get F.bayAdcCfgLen b := by rw [hadc]; exact hlen
    have hn : t.nextEntry b d = (t.setAdc b { t.adc b with seqEntry := (t.adc b).seqEntry + 1 }).beginVisit b ((t.adc b).seqEntry + 1) d :=
      if_pos hlen'
    obtain ⟨hvis, -, -, hseq,
      -⟩ := (t.setAdc b { t.adc b with seqEntry := (t.adc b).seqEntry + 1 }).beginVisit_visits b ((t.adc b).seqEntry + 1) d
    rw [hn, hvis, hseq, State.adc_setAdc, if_pos rfl, hadc]
    exact ⟨rfl, rfl⟩

theorem State.acc_of_accs {s t : State} {b : Nat} (h : (t.adc b).accs = (s.adc b).accs) (e : Nat) : t.acc b e = s.acc b e :=
  congrArg (fun l => unitAt ({} : Acc) l e) h

/-- An output delivered while the sequence has the converter. -/
theorem State.deliverOutput_reads {s : State} {b : Nat} (tag cyc d : Nat) (w : Visit) (value : Int) (hu : (s.adc b).urgent = none) :
    let t := s.deliverOutput b tag cyc d w value
    (s.bit F.bayAdcWinOpen b = true → t.acc b w.entry = (s.acc b w.entry).add (clipValue value))
    ∧ (s.bit F.bayAdcWinOpen b = false → (t.adc b).accs = (s.adc b).accs)
    ∧ ((s.adc b).get F.bayAdcEntCount b w.entry = 0 → (t.adc b).tags = (s.adc b).tags
        ∧ (t.adc b).visit = some { w with got := w.got + 1 } ∧ t.get F.bayAdcStatSettling b = 0)
    ∧ ((s.adc b).get F.bayAdcEntCount b w.entry ≠ 0 → (s.adc b).get F.bayAdcEntCount b w.entry ≤ w.got + 1 →
        (s.adc b).seqEntry + 1 < (s.adc b).get F.bayAdcCfgLen b →
        (t.adc b).visit.map (·.entry) = some ((s.adc b).seqEntry + 1) ∧ (t.adc b).seqEntry = (s.adc b).seqEntry + 1) := by
  obtain ⟨y, hy, hacc, hshut, hset, hrest⟩ : ∃ y : State, s.deliverOutput b tag cyc d w value
      = (y.acqTake b w.entry tag cyc (clipValue value)).countOutput b d w (clipValue value)
      ∧ (s.bit F.bayAdcWinOpen b = true → y.acc b w.entry = (s.acc b w.entry).add (clipValue value))
      ∧ (s.bit F.bayAdcWinOpen b = false → (y.adc b).accs = (s.adc b).accs)
      ∧ y.get F.bayAdcStatSettling b = 0 ∧ ∃ l, y.adc b = { s.adc b with accs := l } := by
    refine ⟨_, rfl, ?_⟩
    have hc : ∃ t, (if clipValue value = value then s else s.count F.bayAdcCountsClip F.bayAdcCountsSaturated b 0 1) = t
        ∧ t.adc b = s.adc b ∧ t.get F.bayAdcWinOpen b = s.get F.bayAdcWinOpen b := by
      refine ⟨_, rfl, ?_⟩
      split
      · exact ⟨rfl, rfl⟩
      · have ho : Only (F.bayAdcCountsClip.mask ||| F.bayAdcCountsSaturated.mask ||| evMask) s
            (s.count F.bayAdcCountsClip F.bayAdcCountsSaturated b 0 1) := State.count_only _ _ _ _ _ (.refl _ s) (Nat.or_self _)
        exact ⟨State.adc_of_adcs (ho.adcs (by decide)) b, ho.get _ _ _ (by decide)⟩
    obtain ⟨t, ht, hadc, hopen⟩ := hc
    rw [ht]
    have hs : (t.set F.bayAdcStatSettling b 0 0).adc b = s.adc b := (State.adc_of_adcs (State.set_adcs ..) b).trans hadc
    have hw : (t.set F.bayAdcStatSettling b 0 0).bit F.bayAdcWinOpen b = s.bit F.bayAdcWinOpen b := by
      unfold State.bit
      rw [State.get_set_ne _ _ _ _ _ _ _ _ (by decide) (.inl (by decide)), hopen]
    have h0 : (t.set F.bayAdcStatSettling b 0 0).get F.bayAdcStatSettling b = 0 := State.get_set_self _ _ _ _ _ (by decide)
    generalize t.set F.bayAdcStatSettling b 0 0 = u at hs hw h0 ⊢
    have hacc : u.acc b w.entry = s.acc b w.entry := State.acc_of_accs (congrArg AdcX.accs hs) _
    rw [hw, hs, hacc]
    split
    · next ho =>
      refine ⟨fun _ => ?_, fun h => absurd (ho.symm.trans h) (by decide), (State.get_setAdc ..).trans h0, _,
        (State.adc_setAdc ..).trans (if_pos rfl)⟩
      unfold State.acc
      rw [State.adc_setAdc, if_pos rfl]
      exact (unitAt_putUnit ..).trans (if_pos rfl)
    · next ho => exact ⟨fun h => absurd h ho, fun _ => congrArg AdcX.accs hs, h0, _, hs⟩
  obtain ⟨l, hl⟩ := hrest
  dsimp only
  rw [hy]
  have htake := y.acqTake_within b w.entry tag cyc (clipValue value)
  have hadc := State.adc_of_adcs (htake.adcs (by decide)) b
  have hst := htake.get F.bayAdcStatSettling b 0 (by decide)
  generalize y.acqTake b w.entry tag cyc (clipValue value) = z at hadc hst ⊢
  obtain ⟨haccs, hzero, hnext⟩ := State.countOutput_reads (s := z) (b := b) d w (clipValue value) (by rw [hadc, hl]; exact hu)
  generalize z.countOutput b d w (clipValue value) = r at haccs hzero hnext ⊢
  rw [hadc] at haccs hzero hnext
  rw [hst, hset] at hzero
  refine ⟨fun ho => ?_, fun ho => haccs.trans (hshut ho), fun h0 => ?_, fun h0 hle hlen => ?_⟩
  · exact (State.acc_of_accs haccs _).trans (hacc ho)
  · rw [hl] at hzero
    exact hzero h0
  · rw [hl] at hnext
    exact hnext h0 hle hlen

/-- The next output, where it is due and nothing else acts with it. -/
theorem State.nextDelivery_due {t : State} {b : Nat} {w : Visit} {tag cyc i d : Nat} (hv : (t.adc b).visit = some w)
    (hn : (t.adc b).nextOutput b w.entry = some (tag, cyc, i, d)) (hd : d ≤ t.ticks * tickUnits) (hs : t.suppressed b w i = false)
    (he : (t.adc b).edges = []) (hf : (t.adc b).fade = none) (hb : (t.adc b).bankWant = none) :
    ∃ u : State, t.nextDelivery b = u.deliverOutput b tag cyc d w (t.chainValue b i)
      ∧ u.adc b = { t.adc b with edges := [], tags := (t.adc b).tags.drop 1 } ∧ ∀ f j, u.get f b j = t.get f b j := by
  have hdrop (n : Nat) : t.dropSuppressed b n = t := by
    cases n with
    | zero => rfl
    | succ n =>
      unfold State.dropSuppressed
      dsimp only
      rw [hv]
      dsimp only
      rw [hn]
      exact if_neg fun h => by rw [hs] at h; exact absurd h.2 (by decide)
  obtain ⟨p, hp, hadc, hget⟩ : ∃ p, t.popTag b tag cyc = p ∧ p.adc b = { t.adc b with edges := [], tags := (t.adc b).tags.drop 1 }
      ∧ ∀ f j, p.get f b j = t.get f b j := by
    refine ⟨_, rfl, ?_, fun f j => ?_⟩ <;> unfold State.popTag <;> rw [he, State.edgesTo]
    · rw [State.adc_setAdc, if_pos rfl, State.adc_setAdc, if_pos rfl]
    · rw [State.get_setAdc, State.get_setAdc]
  have hbank : p.bankStep b d = (false, p) := by
    have hpf : (p.adc b).fade = none := by rw [hadc]; exact hf
    have hpb : (p.adc b).bankWant = none := by rw [hadc]; exact hb
    unfold State.bankStep
    dsimp only
    rw [hpf, hpb]
  refine ⟨p.useFree, ?_, hadc, fun f j => hget f j⟩
  unfold State.nextDelivery
  rw [hdrop]
  dsimp only
  rw [hv]
  dsimp only
  rw [hn]
  dsimp only
  rw [if_neg (by rw [hs]; exact fun h => h.elim (Nat.not_lt.2 hd) (by decide)), hp, hbank]

theorem outputDelivered (b tag cyc i d : Nat) (codes : List Int) (code v : Int) (w : Visit) (s : State) (hv : (s.adc b).visit = some w)
    (hdeg : s.get F.bayAdcStatDegraded b = 0) (hn : (s.adc b).nextOutput b w.entry = some (tag, cyc, i, d))
    (hd : d ≤ s.ticks * tickUnits) (hs : s.suppressed b w i = false) (he : (s.adc b).edges = []) (hf : (s.adc b).fade = none)
    (hb : (s.adc b).bankWant = none) (hu : (s.adc b).urgent = none)
    (hval : v = clipValue ((s.takeCodes b w (codes ++ [code])).chainValue b i)) :
    Completes (.adcOutput b codes code) s fun t =>
      (s.bit F.bayAdcWinOpen b = true → t.acc b w.entry = (s.acc b w.entry).add v)
      ∧ (s.bit F.bayAdcWinOpen b = false → (t.adc b).accs = (s.adc b).accs)
      ∧ ((s.adc b).get F.bayAdcEntCount b w.entry = 0 → (t.adc b).tags = (s.adc b).tags.drop 1
          ∧ (t.adc b).visit = some { w with got := w.got + 1 } ∧ t.get F.bayAdcStatSettling b = 0)
      ∧ ((s.adc b).get F.bayAdcEntCount b w.entry ≠ 0 → (s.adc b).get F.bayAdcEntCount b w.entry ≤ w.got + 1 →
          (s.adc b).seqEntry + 1 < (s.adc b).get F.bayAdcCfgLen b →
          (t.adc b).visit.map (·.entry) = some ((s.adc b).seqEntry + 1) ∧ (t.adc b).seqEntry = (s.adc b).seqEntry + 1) := by
  obtain ⟨l, a, hadc⟩ := State.takeCodes_adc b w (codes ++ [code]) s
  have ho := s.takeCodes_within b w (codes ++ [code])
  have hx : exec (.adcOutput b codes code) s = .next (((s.takeCodes b w (codes ++ [code])).nextDelivery b).trimCodes b) := by
    show execAdcOutput b codes code s = _
    unfold execAdcOutput
    rw [hv]
    exact if_neg (by unfold State.bit; rw [hdeg]; decide)
  generalize s.takeCodes b w (codes ++ [code]) = t at hadc ho hval hx
  have hopen : t.bit F.bayAdcWinOpen b = s.bit F.bayAdcWinOpen b := ho.bit F.bayAdcWinOpen b 0 (by decide)
  have hsup : t.suppressed b w i = false := by
    refine Eq.trans ?_ hs
    unfold State.suppressed State.bit
    rw [hadc, ho.get F.bayAdcStatRefReady b 0 (by decide)]
    rfl
  obtain ⟨u, hdel, huadc, huget⟩ := State.nextDelivery_due (t := t) (b := b) (w := w) (tag := tag) (cyc := cyc) (i := i) (d := d)
    (by rw [hadc]; exact hv) (by rw [hadc]; exact hn) (by rw [ho.ticks (by decide)]; exact hd) hsup (by rw [hadc]; exact he)
    (by rw [hadc]; exact hf) (by rw [hadc]; exact hb)
  have huu : (u.adc b).urgent = none := by
    rw [huadc, hadc]
    exact hu
  obtain ⟨hacc, hshut, hzero, hnext⟩ := State.deliverOutput_reads tag cyc d w (t.chainValue b i) huu
  have huopen : u.bit F.bayAdcWinOpen b = s.bit F.bayAdcWinOpen b := Eq.trans (by unfold State.bit; rw [huget]) hopen
  rw [hdel] at hx
  rw [← hval] at hacc
  generalize u.deliverOutput b tag cyc d w (t.chainValue b i) = r at hx hacc hshut hzero hnext
  obtain ⟨lc, li, htrim⟩ := r.trimCodes_adc b
  have hset := (r.trimCodes_within b).get F.bayAdcStatSettling b 0 (by decide)
  rw [huopen] at hacc hshut
  rw [huadc, hadc] at hshut hzero hnext
  have hsacc : u.acc b w.entry = s.acc b w.entry := State.acc_of_accs (by rw [huadc, hadc]) _
  refine .intro hx ⟨fun h => ?_, fun h => ?_, fun h => ?_, fun h0 hle hlen => ?_⟩
  · rw [← hsacc, ← hacc h]
    exact State.acc_of_accs (by rw [htrim]) _
  · rw [htrim]
    exact hshut h
  · obtain ⟨h1, h2, h3⟩ := hzero h
    rw [hset, htrim]
    exact ⟨h1, h2, h3⟩
  · rw [htrim]
    exact hnext h0 hle hlen

/-! ### The edges of a window (R377) -/

theorem State.writeResult_reads (s : State) (b e : Nat) : let t := s.writeResult b e
    t.get F.bayAdcResSumValid b e = 1 ∧ t.get F.bayAdcResSumStale b e = 0
    ∧ t.get F.bayAdcResSumSum b e = unsigned 48 (s.acc b e).sum ∧ t.get F.bayAdcResCntCount b e = (s.acc b e).cnt % 2 ^ 32
    ∧ t.get F.bayAdcResMinmaxMin b e = unsigned 24 (s.acc b e).least ∧ t.get F.bayAdcResMinmaxMax b e = unsigned 24 (s.acc b e).most := by
  have h48 := unsigned_lt 48 (s.acc b e).sum
  have h24 := unsigned_lt 24 (s.acc b e).least
  have h24' := unsigned_lt 24 (s.acc b e).most
  unfold State.writeResult
  dsimp only
  generalize unsigned 48 (s.acc b e).sum = x at h48 ⊢
  generalize unsigned 24 (s.acc b e).least = y at h24 ⊢
  generalize unsigned 24 (s.acc b e).most = z at h24' ⊢
  refine ⟨?_, ?_, ?_, ?_, ?_, ?_⟩ <;> simp (disch := decide)
  · exact h48
  · exact h24
  · exact h24'

/-- What writing the result of an entry leaves: the converter, and every other entry's results. -/
theorem State.writeResult_other (s : State) (b e : Nat) : (s.writeResult b e).adc b = s.adc b
    ∧ ∀ f k, k ≠ e → (s.writeResult b e).get f b k = s.get f b k := by
  refine ⟨State.adc_of_adcs ((s.writeResult_within b e).adcs (by decide)) b, fun f k hk => ?_⟩
  unfold State.writeResult State.setBit
  dsimp only
  repeat rw [State.get_set_ne _ _ _ _ _ _ _ _ (by decide) (.inr (.inr (.inl hk.symm)))]

/-- In `t` the results of the entries of `l` are written from the accumulators of `s`, and those of no other entry. -/
structure ResultsWritten (b : Nat) (l : List Nat) (s t : State) : Prop where
  adc : t.adc b = s.adc b
  other : ∀ f k, k ∉ l → t.get f b k = s.get f b k
  results : ∀ e ∈ l, t.get F.bayAdcResSumValid b e = 1 ∧ t.get F.bayAdcResSumStale b e = 0
    ∧ t.get F.bayAdcResSumSum b e = unsigned 48 (s.acc b e).sum ∧ t.get F.bayAdcResCntCount b e = (s.acc b e).cnt % 2 ^ 32
    ∧ t.get F.bayAdcResMinmaxMin b e = unsigned 24 (s.acc b e).least ∧ t.get F.bayAdcResMinmaxMax b e = unsigned 24 (s.acc b e).most

theorem resultsWritten (b : Nat) (l : List Nat) (s : State) (hn : l.Nodup) :
    ResultsWritten b l s (l.foldl (fun (u : State) e => u.writeResult b e) s) := by
  induction l generalizing s with
  | nil => exact ⟨rfl, fun _ _ _ => rfl, fun _ h => absurd h List.not_mem_nil⟩
  | cons a l ih =>
    obtain ⟨hnot, hn'⟩ := List.nodup_cons.1 hn
    rw [List.foldl_cons]
    obtain ⟨hadc, hout, hin⟩ := ih (s.writeResult b a) hn'
    obtain ⟨hadc', hother⟩ := s.writeResult_other b a
    have hself := s.writeResult_reads b a
    generalize s.writeResult b a = v at hadc hout hin hadc' hother hself ⊢
    have hacc (e : Nat) : v.acc b e = s.acc b e := State.acc_of_accs (by rw [hadc']) e
    refine ⟨hadc.trans hadc', fun f k hk => ?_, fun e he => ?_⟩
    · obtain ⟨hka, hkl⟩ := not_or.1 (List.mem_cons.not.1 hk)
      exact (hout f k hkl).trans (hother f k hka)
    · rcases List.mem_cons.1 he with rfl | he'
      · obtain ⟨h1, h2, h3, h4, h5, h6⟩ := hself
        exact ⟨(hout _ e hnot).trans h1, (hout _ e hnot).trans h2, (hout _ e hnot).trans h3, (hout _ e hnot).trans h4,
          (hout _ e hnot).trans h5,
          (hout _ e hnot).trans h6⟩
      · rw [← hacc]
        exact hin e he'

/-- What a window that closes tells. -/
def State.windowTold (t : State) (b n cyc : Nat) : State :=
  let t := if t.bit F.bayAdcAccCfgResultEvent b then t.post 0x0B01 b (n + cyc % 2 ^ 64 * 2 ^ 32) else t
  if t.bit F.bayAdcAccCfgResultFlagEn b then
    t.setFlags (t.get F.bayAdcAccCfgResultThread b) (2 ^ t.get F.bayAdcAccCfgResultFlag b) .hw
  else t

theorem State.windowTold_only (t : State) (b n cyc : Nat) : Only 0x1844000000000000000000000000000000000000400000000000000000145000 t (t.windowTold b n cyc) := by
  have hp : Only 0x1844000000000000000000000000000000000000400000000000000000145000 t (if t.bit F.bayAdcAccCfgResultEvent b then t.post 0x0B01 b (n + cyc % 2 ^ 64 * 2 ^ 32) else t) :=
    .ite (fun _ => State.post_only _ _ _ (.refl _ t) (by decide)) fun _ => .refl _ t
  exact .ite (fun _ => State.setFlags_only _ _ _ hp (by decide)) fun _ => hp

/-- The registers and accumulators of a window that closes, its results apart. -/
def State.windowShut (t : State) (b n cyc : Nat) : State :=
  let t := (t.setAdc b { (t.adc b) with accs := [] }).set F.bayAdcWinWindowSeq b 0 n
  let t := (t.set F.bayAdcWinOpenCycle b 0 (t.adc b).opened).set F.bayAdcWinCloseCycle b 0 cyc
  t.set F.bayAdcWinOpen b 0 0

theorem State.windowShut_reads (t : State) (b n cyc : Nat) (hn : n < 65536) : (t.windowShut b n cyc).get F.bayAdcWinOpen b = 0
    ∧ (t.windowShut b n cyc).adc b = { t.adc b with accs := [] } ∧ (t.windowShut b n cyc).get F.bayAdcWinWindowSeq b = n
    ∧ (t.windowShut b n cyc).get F.bayAdcWinCloseCycle b = cyc % 2 ^ 64
    ∧ ∀ f e, f.reg = .bayAdcResSum ∨ f.reg = .bayAdcResCnt ∨ f.reg = .bayAdcResMinmax → (t.windowShut b n cyc).get f b e = t.get f b e := by
  unfold State.windowShut
  refine ⟨State.get_set_self _ _ _ _ _ (by decide), ?_, ?_, ?_, fun f e hf => ?_⟩
  · rw [State.adc_of_adcs (State.set_adcs ..), State.adc_of_adcs (State.set_adcs ..), State.adc_of_adcs (State.set_adcs ..),
      State.adc_of_adcs (State.set_adcs ..), State.adc_setAdc, if_pos rfl]
  · simp (disch := decide)
    exact hn
  · simp (disch := decide)
  · have hreg (g : RegName) (hg : g = .bayAdcWin ∨ g = .bayAdcWinOpen ∨ g = .bayAdcWinClose) : g ≠ f.reg := by
      rcases hg with rfl | rfl | rfl <;> rcases hf with hf | hf | hf <;> rw [hf] <;> decide
    dsimp only
    rw [State.get_set_ne _ _ _ _ _ _ _ _ (by decide) (.inl (hreg _ (.inl rfl))),
      State.get_set_ne _ _ _ _ _ _ _ _ (by decide) (.inl (hreg _ (.inr (.inr rfl)))),
      State.get_set_ne _ _ _ _ _ _ _ _ (by decide) (.inl (hreg _ (.inr (.inl rfl)))),
        State.get_set_ne _ _ _ _ _ _ _ _ (by decide) (.inl (hreg _ (.inl rfl))),
      State.get_setAdc]

theorem State.closeAdcWindow_eq (s : State) (b cyc : Nat) : s.closeAdcWindow b cyc
    = let t := (List.range 16).foldl (fun (u : State) e => u.writeResult b e) s
      let n := (t.get F.bayAdcWinWindowSeq b + 1) % 65536
      (t.windowShut b n cyc).windowTold b n cyc := rfl

/-- A window without tags acts on the edge that stands alone in it, where its instant has come. -/
theorem exec_adcWindow {b v a et : Nat} {s : State} (ht : (s.adc b).tags = []) (he : (s.adc b).edges = [(v, a, some et)])
    (hv : v ≤ s.ticks * tickUnits) : exec (.adcWindow b) s
      = .next ((s.windowEdge b a et).setAdc b { (s.windowEdge b a et).adc b with edges := [] }) := by
  have h0 : s.dropSuppressed b ([] : List (Nat × Nat)).length = s := rfl
  show execAdcWindow b s = _
  unfold execAdcWindow
  rw [ht, h0]
  dsimp only
  rw [ht, he]
  dsimp only
  rw [State.ownEdges, if_pos hv, State.ownEdges]

/-- What a window that closes leaves: its results, its registers and empty accumulators. -/
structure WindowClosed (b et : Nat) (s t : State) : Prop where
  shut : t.get F.bayAdcWinOpen b = 0
  accs : (t.adc b).accs = []
  seq : t.get F.bayAdcWinWindowSeq b = (s.get F.bayAdcWinWindowSeq b + 1) % 65536
  cycle : t.get F.bayAdcWinCloseCycle b = et % 2 ^ 64
  results : ∀ e < 16, t.get F.bayAdcResSumValid b e = 1 ∧ t.get F.bayAdcResSumStale b e = 0
    ∧ t.get F.bayAdcResSumSum b e = unsigned 48 (s.acc b e).sum ∧ t.get F.bayAdcResCntCount b e = (s.acc b e).cnt % 2 ^ 32
    ∧ t.get F.bayAdcResMinmaxMin b e = unsigned 24 (s.acc b e).least ∧ t.get F.bayAdcResMinmaxMax b e = unsigned 24 (s.acc b e).most

theorem WindowClosed.of_shut {b et n : Nat} {s t : State} (hw : ResultsWritten b (List.range 16) s t) (hn : n = (s.get F.bayAdcWinWindowSeq b + 1) % 65536) :
    WindowClosed b et s ((t.windowShut b n et).windowTold b n et) := by
  obtain ⟨h0, hshut, hseq, hclose, hkeep⟩ := t.windowShut_reads b n et (hn ▸ Nat.mod_lt _ (by decide))
  generalize t.windowShut b n et = u at h0 hshut hseq hclose hkeep ⊢
  have ho := u.windowTold_only b n et
  generalize u.windowTold b n et = w at ho ⊢
  refine ⟨(ho.get _ _ _ (by decide)).trans h0, ?_, (ho.get _ _ _ (by decide)).trans (hseq.trans hn),
    (ho.get _ _ _ (by decide)).trans hclose,
    fun e he => ?_⟩
  · rw [State.adc_of_adcs (ho.adcs (by decide)) b, hshut]
  · rw [ho.get _ _ _ (by decide), ho.get _ _ _ (by decide), ho.get _ _ _ (by decide), ho.get _ _ _ (by decide),
    ho.get _ _ _ (by decide),
      ho.get _ _ _ (by decide), hkeep _ _ (.inl rfl), hkeep _ _ (.inl rfl), hkeep _ _ (.inl rfl), hkeep _ _ (.inr (.inl rfl)),
      hkeep _ _ (.inr (.inr rfl)), hkeep _ _ (.inr (.inr rfl))]
    exact hw.results e (List.mem_range.2 he)

theorem State.closeAdcWindow_closed (s : State) (b et : Nat) : WindowClosed b et s (s.closeAdcWindow b et) := by
  have hseq : ((List.range 16).foldl (fun (u : State) e => u.writeResult b e) s).get F.bayAdcWinWindowSeq b = s.get F.bayAdcWinWindowSeq b :=
    (Only.foldl (l := List.range 16) (Only.refl _ s) fun u e => u.writeResult_within b e).get _ _ _ (by decide)
  rw [State.closeAdcWindow_eq]
  exact .of_shut (resultsWritten b (List.range 16) s List.nodup_range) (by rw [hseq])

/-- The edges of a converter are no part of what a window that closes leaves. -/
theorem WindowClosed.edges {b et : Nat} {s t : State} (h : WindowClosed b et s t) :
    WindowClosed b et s (t.setAdc b { t.adc b with edges := [] }) where
  shut := (State.get_setAdc ..).trans h.shut
  accs := by rw [State.adc_setAdc, if_pos rfl, h.accs]
  seq := (State.get_setAdc ..).trans h.seq
  cycle := (State.get_setAdc ..).trans h.cycle
  results e he := by
    rw [State.get_setAdc, State.get_setAdc, State.get_setAdc, State.get_setAdc, State.get_setAdc, State.get_setAdc]
    exact h.results e he

theorem windowCloses (b v et : Nat) (s : State) (ht : (s.adc b).tags = []) (he : (s.adc b).edges = [(v, 1, some et)])
    (hv : v ≤ s.ticks * tickUnits) (ho : s.get F.bayAdcWinOpen b = 1) :
    Completes (.adcWindow b) s fun t => WindowClosed b et s t := by
  have hopen : s.bit F.bayAdcWinOpen b = true := decide_eq_true ho
  have hedge : s.windowEdge b 1 et = s.closeAdcWindow b et := by
    unfold State.windowEdge
    dsimp only
    rw [if_neg (by decide), if_pos rfl, if_pos hopen]
  refine .intro (exec_adcWindow ht he hv) ?_
  rw [hedge]
  exact (s.closeAdcWindow_closed b et).edges

theorem windowOpens (b v et : Nat) (s : State) (ht : (s.adc b).tags = []) (he : (s.adc b).edges = [(v, 0, some et)])
    (hv : v ≤ s.ticks * tickUnits) (ho : s.get F.bayAdcWinOpen b = 0) :
    Completes (.adcWindow b) s fun t => t.get F.bayAdcWinOpen b = 1 ∧ (t.adc b).accs = [] ∧ (t.adc b).opened = et := by
  have hedge : s.windowEdge b 0 et = s.openAdcWindow b et := by
    unfold State.windowEdge State.bit
    dsimp only
    rw [if_pos rfl, ho]
    rfl
  refine .intro (exec_adcWindow ht he hv) ?_
  rw [hedge, State.get_setAdc, State.adc_setAdc, if_pos rfl]
  unfold State.openAdcWindow
  dsimp only
  rw [State.adc_of_adcs (State.set_adcs ..), State.adc_setAdc, if_pos rfl]
  exact ⟨State.get_set_self _ _ _ _ _ (by decide), rfl, rfl⟩

/-- Settles O43: codes taken in, the output that is due, and the edges of the window. -/
theorem outputsAndWindows : Obligations.OutputsAndWindows := 
  ⟨codeTaken, outputDelivered, fun b v et s ht he hv ho => (windowCloses b v et s ht he hv ho).mono fun _ h =>
    ⟨h.shut, h.accs, h.seq, h.cycle, h.results⟩, windowOpens⟩

end Sys2Proof.Machine
end


section
/-!
PROOFS. Servo.lean: changes of the timebase, the servo of a domain and lockstep (R239 to R242, R246, R249 to R251); from these O28.
-/
namespace Sys2Proof.Machine
set_option Elab.async false

variable {s t : State}

/-! ### Changes of the timebase leave the servos (R246) -/

@[simp] theorem State.servo_setServo (s : State) (d : Nat) (v : Servo) : (s.setServo d v).servo d = v := by
  unfold State.servo State.setServo
  split <;> rfl

@[simp] theorem State.asks_setServo (s : State) (d : Nat) (v : Servo) : (s.setServo d v).time.asks = s.time.asks := by
  unfold State.setServo
  split <;> rfl

@[simp] theorem State.regs_setServo (s : State) (d : Nat) (v : Servo) : (s.setServo d v).regs = s.regs := by
  unfold State.setServo
  split <;> rfl

@[simp] theorem State.pendingChanges_setServo (s : State) (d : Nat) (v : Servo) :
    (s.setServo d v).time.pendingChanges = s.time.pendingChanges := by
  unfold State.setServo
  split <;> rfl

@[simp] theorem State.get_time (s : State) (x : TimeX) (f : Fld) (i j : Nat) : { s with time := x }.get f i j = s.get f i j := rfl

theorem State.servo_of_time (h : t.time = s.time) (d : Nat) : t.servo d = s.servo d := by
  unfold State.servo
  rw [h]

@[simp] theorem State.servo_set (s : State) (f : Fld) (i j v d : Nat) : (s.set f i j v).servo d = s.servo d :=
  State.servo_of_time (s.set_time ..) d

theorem State.servo_hwSet (s : State) (f : Fld) (i j d : Nat) : (s.hwSet f i j).servo d = s.servo d :=
  State.servo_of_time (s.hwSet_time ..) d

theorem State.servo_changeAt (s : State) (u : Nat) (f : Clocks → Clocks) (d : Nat) : (s.changeAt u f).servo d = s.servo d := by
  unfold State.changeAt State.setBit
  rw [State.servo_set]
  rfl

/-- A change of an addend that this device makes for itself: the servos are as before and ADDEND is the new one (R246). -/
theorem State.makeChange_addend (h : s.isLeader = false) (d a n : Nat) :
    (s.makeChange (.addend d a)).servo n = s.servo n ∧ (s.makeChange (.addend d a)).get F.domAddendAddend d = a % 2 ^ 32 := by
  unfold State.makeChange
  rw [if_neg (by rw [h]; exact Bool.noConfusion)]
  exact ⟨(State.servo_set ..).trans (State.servo_changeAt ..), State.get_set _ F.domAddendAddend d 0 a (by decide)⟩

/-- The new addend of a servo: the servos are as before (R240, R242). -/
theorem State.newAddend_reads (h : s.isLeader = false) (d : Nat) (a : Int × Bool) :
    (s.newAddend d a).servo d = s.servo d ∧ (s.newAddend d a).get F.domAddendAddend d = a.1.toNat % 2 ^ 32
    ∧ (s.newAddend d a).get F.domStatusState d = s.get F.domStatusState d := by
  obtain ⟨hs, ha⟩ := State.makeChange_addend h d a.1.toNat d
  have hst : (s.makeChange (.addend d a.1.toNat)).get F.domStatusState d = s.get F.domStatusState d := by
    unfold State.makeChange
    rw [if_neg (by rw [h]; exact Bool.noConfusion)]
    exact (State.get_set_reg _ F.domAddendAddend F.domStatusState d 0 _ d 0 (by decide) (by decide)).trans
      ((s.changeAt_within _ _).get _ _ _ (by decide))
  unfold State.newAddend
  split
  · refine ⟨(State.servo_hwSet ..).trans hs, ?_, ?_⟩
    · exact (State.get_hwSet_ne _ F.domStatusClamped F.domAddendAddend _ _ _ _ (by decide) (by decide) (.inl (by decide))).trans ha
    · exact (State.get_hwSet_ne _ F.domStatusClamped F.domStatusState _ _ _ _ (by decide) (by decide)
        (.inr (.inr (.inr (by decide))))).trans hst
  · exact ⟨hs, ha, hst⟩

theorem State.newAddend_leader (h : s.isLeader = false) (d : Nat) (a : Int × Bool) : (s.newAddend d a).isLeader = false := by
  have hm : (s.makeChange (.addend d a.1.toNat)).get F.timeCtrlLockstep = s.get F.timeCtrlLockstep := by
    unfold State.makeChange
    rw [if_neg (by rw [h]; exact Bool.noConfusion)]
    exact (State.get_set_reg _ F.domAddendAddend F.timeCtrlLockstep d 0 _ 0 0 (by decide) (by decide)).trans
      ((s.changeAt_within _ _).get _ _ _ (by decide))
  refine (congrArg (fun n => decide (n = 1)) ?_ : _ = s.isLeader).trans h
  unfold State.newAddend
  split
  · exact (State.get_hwSet_ne _ F.domStatusClamped F.timeCtrlLockstep _ _ _ _ (by decide) (by decide) (.inl (by decide))).trans hm
  · exact hm

/-! ### Samples (R239 to R241) -/

/-- A sample of a disabled domain is rejected and counted. -/
theorem sampleOffsetRejected (d : Nat) (theta : Int) (hf : s.isFollower = false) (he : s.bit F.domCtrlEnable d = false)
    (hu : Unclear s F.domStatusRejectCount d 0) :
    Completes (.sampleOffset d theta) s fun t => t.get F.domStatusRejectCount d = min 65535 (s.get F.domStatusRejectCount d + 1)
      ∧ t.get F.domAddendAddend d = s.get F.domAddendAddend d ∧ (t.servo d).integ = (s.servo d).integ
      ∧ t.time.asks = s.time.asks := by
  have hx (v : Servo) := s.setServo_within d v
  have ht (u : State) := State.count_only F.domStatusRejectCount F.domStatusSaturated d 0 1 (.refl _ u) (Nat.or_self _)
  have hw : exec (.sampleOffset d theta) s = .next ((s.setServo d { s.servo d with delays := (s.get F.domSampleDelayDelay d :: (s.servo d).delays).take 16 }).count
      F.domStatusRejectCount F.domStatusSaturated d 0 1) := by
    show Host.Outcome.next (s.submitSample d theta) = _
    unfold State.submitSample
    rw [if_neg (by rw [hf]; exact Bool.noConfusion)]
    exact congrArg Host.Outcome.next (if_pos (.inl he))
  refine .intro hw ⟨?_, ?_, ?_, ?_⟩
  · rw [State.get_count_min _ 1 ((hx _).unclear hu (by decide) (by decide) (by decide) (by decide) (State.decider_congr ((hx _).events (by decide)) _))
      (by decide) (by decide) (.inr (by decide)), (hx _).get _ _ _ (by decide)]
    rfl
  · exact ((ht _).get _ _ _ (by decide)).trans ((hx _).get _ _ _ (by decide))
  · rw [State.servo_of_time ((ht _).time (by decide)), State.servo_setServo]
  · rw [(ht _).time (by decide), State.asks_setServo]

/-- What alone has reached the timebase in its tick is all that acts at the tick's end. -/
theorem State.forget_ask (h : s.time.asks = []) (a : TimeAsk) :
    { (s.ask a) with time := { (s.ask a).time with asks := [] } } = s := by
  show { s with time := { s.time with asks := [] } } = s
  rw [← h]

theorem State.timeActs_sample (h : s.time.asks = []) (d : Nat) (theta : Int) : (s.ask (.sample d theta)).timeActs = s.acceptSample d theta := by
  have ha : (s.ask (.sample d theta)).time.asks = [.sample d theta] := congrArg (· ++ [_]) h
  unfold State.timeActs
  rw [ha, State.forget_ask h]
  rfl

theorem State.timeActs_clearI (h : s.time.asks = []) (d : Nat) : (s.ask (.clearI d)).timeActs = s.intClear d := by
  have ha : (s.ask (.clearI d)).time.asks = [.clearI d] := congrArg (· ++ [_]) h
  unfold State.timeActs
  rw [ha, State.forget_ask h]
  rfl

/-- The gains are those that the registers and the changes that wait give. -/
theorem State.gains_congr {N : Nat} (h : Only N s t) (hp : t.time.pendingChanges = s.time.pendingChanges) (d : Nat)
    (hN : N.testBit RegName.domGain.ctorIdx = false) : t.gains d = s.gains d := by
  unfold State.gains
  rw [hp, h.get F.domGainKp d 0 hN, h.get F.domGainKi d 0 hN, h.get F.domGainIlimit d 0 hN]

theorem State.addendFor_congr {N : Nat} (h : Only N s t) (d : Nat) (c : Int) (hN : N.testBit RegName.domNominal.ctorIdx = false)
    (ht : N.testBit RegName.calTimeTrim.ctorIdx = false) : t.addendFor d c = s.addendFor d c := by
  have hn : t.nominal d = s.nominal d := by
    unfold State.nominal State.getS
    rw [h.get F.domNominalNominal d 0 hN, h.get F.calTimeTrimTrim 0 0 ht]
  unfold State.addendFor State.addendBounds
  rw [hn]

theorem State.correction_congr (h : t.gains = s.gains) (d : Nat) (theta i : Int) : t.correction d theta i = s.correction d theta i := by
  unfold State.correction
  rw [h]

theorem State.countSample_pending (s : State) (d : Nat) (theta : Int) :
    (s.countSample d theta).time.pendingChanges = s.time.pendingChanges := by
  unfold State.countSample
  dsimp only
  rw [State.set_time, State.pendingChanges_setServo]

theorem Only.isLeader {N : Nat} (h : Only N s t) (hN : N.testBit RegName.timeCtrl.ctorIdx = false) : t.isLeader = s.isLeader := by
  unfold State.isLeader
  rw [h.get F.timeCtrlLockstep 0 0 hN]

/-- A sample within the step threshold moves the integrator, and ADDEND follows (R240). -/
theorem State.acceptSample_reads (d : Nat) (theta : Int) (hl : s.isLeader = false) (hs : theta.natAbs ≤ s.get F.domCtrlStepNs d * 65536) :
    ((s.acceptSample d theta).servo d).integ = clampInt (-((s.gains d).2.2 * 65536)) ((s.gains d).2.2 * 65536) ((s.servo d).integ + theta)
    ∧ (s.acceptSample d theta).get F.domAddendAddend d = (s.addendFor d (s.correction d theta
      (clampInt (-((s.gains d).2.2 * 65536)) ((s.gains d).2.2 * 65536) ((s.servo d).integ + theta)))).1.toNat % 2 ^ 32 := by
  have hc := s.countSample_within d theta
  have hg : (s.countSample d theta).gains = s.gains := funext fun n => State.gains_congr hc (s.countSample_pending d theta) n (by decide)
  unfold State.acceptSample
  rw [if_neg (fun h => absurd h.1 (Nat.not_lt.2 hs))]
  dsimp only
  have hlead (v : Servo) : ((s.countSample d theta).setServo d v).isLeader = false :=
    (((s.countSample d theta).setServo_within d v).isLeader (by decide)).trans ((hc.isLeader (by decide)).trans hl)
  have hn (v : Servo) (a : Int × Bool) := State.newAddend_reads (hlead v) d a
  refine ⟨?_, ?_⟩
  · rw [(hn _ _).1, State.servo_setServo]
  · rw [(hn _ _).2.1, State.addendFor_congr hc d _ (by decide) (by decide), State.correction_congr hg]

/-- An accepted sample acts at the end of its tick (R240). -/
theorem sampleOffsetActs (d : Nat) (theta i lim : Int) (hf : s.isFollower = false) (hl : s.isLeader = false)
    (he : s.bit F.domCtrlEnable d = true) (hr : s.bit F.clkStatusRefLost = false)
    (hg : s.gated d (s.get F.domSampleDelayDelay d) = false) (ha : s.time.asks = []) (hs : theta.natAbs ≤ s.get F.domCtrlStepNs d * 65536)
    (hlim : lim = (s.gains d).2.2 * 65536) (hi : i = clampInt (-lim) lim ((s.servo d).integ + theta)) :
    Completes (.sampleOffset d theta) s fun t => (t.timeActs.servo d).integ = i
      ∧ t.timeActs.get F.domAddendAddend d = (s.addendFor d (s.correction d theta i)).1.toNat % 2 ^ 32 := by
  subst hlim hi
  have hw : exec (.sampleOffset d theta) s = .next ((s.setServo d { s.servo d with
      delays := (s.get F.domSampleDelayDelay d :: (s.servo d).delays).take 16 }).ask (.sample d theta)) := by
    show Host.Outcome.next (s.submitSample d theta) = _
    unfold State.submitSample
    rw [if_neg (by rw [hf]; exact Bool.noConfusion)]
    exact congrArg Host.Outcome.next (if_neg (by rw [he, hr, hg]; decide))
  refine .intro hw ?_
  have ho := s.setServo_within d { s.servo d with delays := (s.get F.domSampleDelayDelay d :: (s.servo d).delays).take 16 }
  have hgain := fun n => State.gains_congr ho (State.pendingChanges_setServo ..) n (by decide)
  rw [State.timeActs_sample ((State.asks_setServo ..).trans ha)]
  obtain ⟨h1, h2⟩ := State.acceptSample_reads d theta
    ((ho.isLeader (by decide)).trans hl) (by rwa [ho.get F.domCtrlStepNs d 0 (by decide)])
  rw [hgain, State.servo_setServo] at h1 h2
  refine ⟨h1, h2.trans ?_⟩
  rw [State.addendFor_congr ho d _ (by decide) (by decide), State.correction_congr (funext hgain)]

/-- INT_CLEAR zeroes the integrator at the end of its tick (R240). -/
theorem intClearZeroes (d : Nat) (hf : s.isFollower = false) (ha : s.time.asks = []) :
    Completes (.intClear d) s fun t => (t.timeActs.servo d).integ = 0 ∧ t.timeActs.get F.domAddendAddend d = s.get F.domAddendAddend d := by
  refine .intro (t := s.ask (.clearI d)) ?_ ?_
  · exact congrArg Host.Outcome.next (if_neg (by rw [hf]; exact Bool.noConfusion))
  · rw [State.timeActs_clearI ha]
    refine ⟨?_, (s.intClear_within d).get _ _ _ (by decide)⟩
    unfold State.intClear
    rw [State.servo_setServo]

/-- CLEAR of the count of rejected samples (R239). -/
theorem rejectCountClearZeroes (d : Nat) (hf : s.isFollower = false)
    (hc : ClearActs s (F.domStatusRejectCount.key d 0) F.domStatusRejectCount.lo) :
    Completes (.rejectCountClear d) s fun t => t.get F.domStatusRejectCount d = 0 ∧ t.get F.domStatusSaturated d = 0 := by
  refine .intro (t := (s.clear F.domStatusRejectCount d 0).set F.domStatusSaturated d 0 0) ?_ ⟨?_, ?_⟩
  · exact congrArg Host.Outcome.next (if_neg (by rw [hf]; exact Bool.noConfusion))
  · rw [State.get_set_apart _ F.domStatusSaturated F.domStatusRejectCount _ _ _ _ _ (by decide) (by decide)]
    exact State.get_clear s F.domStatusRejectCount d 0 (by decide) (by decide) hc
  · exact State.get_set _ F.domStatusSaturated d 0 0 (by decide)

/-! ### HOLDOVER (R242, R244) -/

/-- A selection that this device makes for itself: states of domains and addends are as before (R243). -/
theorem State.requestSelect_reads (h : s.isLeader = false) (o d : Nat) : (s.requestSelect o).get F.domStatusState d = s.get F.domStatusState d
    ∧ (s.requestSelect o).get F.domAddendAddend d = s.get F.domAddendAddend d := by
  have hl : (s.set F.timeCtrlSelect 0 0 o).isLeader = false :=
    (congrArg (fun n => decide (n = 1)) (State.get_set_apart _ F.timeCtrlSelect F.timeCtrlLockstep _ _ _ _ _ (by decide) (by decide))).trans h
  have hs := State.set_only F.timeCtrlSelect 0 0 o (.refl _ s) (Nat.or_self _)
  unfold State.requestSelect
  dsimp only
  split
  · exact ⟨hs.get _ _ _ (by decide), hs.get _ _ _ (by decide)⟩
  · have hc (u : State) (f : Clocks → Clocks) (n : Nat) := State.set_only F.timeStatusSelected 0 0 o
      ((u.changeAt_within n f).mono (by decide : _ ||| 0x200000000000000000000000000000000000000000000000000000000800000 = 0x200000000000000000000000000000000000000000000000000000000800000)) (by decide)
    unfold State.makeChange
    rw [if_neg (by rw [hl]; exact Bool.noConfusion)]
    exact ⟨((hc _ _ _).get _ _ _ (by decide)).trans (hs.get _ _ _ (by decide)),
      ((hc _ _ _).get _ _ _ (by decide)).trans (hs.get _ _ _ (by decide))⟩

theorem State.holdoverAddend_set (s : State) (d n : Nat) : (s.set F.domStatusState d 0 n).holdoverAddend d = s.holdoverAddend d := by
  have ho := State.set_only F.domStatusState d 0 n (.refl _ s) (Nat.or_self _)
  have hg := State.gains_congr ho (congrArg TimeX.pendingChanges (s.set_time ..)) d (by decide)
  unfold State.holdoverAddend State.correction
  rw [State.addendFor_congr ho d _ (by decide) (by decide), hg, State.servo_set]

/-- A domain in HOLDOVER goes on with the addend of its integrator (R242). -/
theorem State.servoHold_reads (hl : s.isLeader = false) (hi : s.inLockstep = false) (d : Nat) :
    (s.servoHold d).get F.domStatusState d = 3 ∧ (s.servoHold d).get F.domAddendAddend d = (s.holdoverAddend d).1.toNat % 2 ^ 32
    ∧ (s.servoHold d).isLeader = false := by
  have ho := State.set_only F.domStatusState d 0 3 (.refl _ s) (Nat.or_self _)
  have hlead : (s.set F.domStatusState d 0 3).isLeader = false := (ho.isLeader (by decide)).trans hl
  obtain ⟨-, h2, h3⟩ := State.newAddend_reads hlead d (s.holdoverAddend d)
  unfold State.servoHold
  dsimp only
  rw [if_neg (by rw [hi]; exact Bool.noConfusion), State.holdoverAddend_set]
  refine ⟨h3.trans (State.get_set _ F.domStatusState d 0 3 (by decide)), h2, State.newAddend_leader hlead d _⟩

/-- What a switch of the selection adds: a bit and an event. -/
theorem State.switched_reads (s : State) (o d : Nat) :
    ((s.hwSet F.timeStatusSwitched 0 0).post 0x0601 o 0).get F.domStatusState d = s.get F.domStatusState d
    ∧ ((s.hwSet F.timeStatusSwitched 0 0).post 0x0601 o 0).get F.domAddendAddend d = s.get F.domAddendAddend d := by
  have hp := (s.hwSet F.timeStatusSwitched 0 0).post_within 0x0601 o 0
  have hw := State.hwSet_only F.timeStatusSwitched 0 0 (.refl _ s) (Nat.or_self _)
  exact ⟨(hp.get _ _ _ (by decide)).trans (hw.get _ _ _ (by decide)), (hp.get _ _ _ (by decide)).trans (hw.get _ _ _ (by decide))⟩

/-- A domain without an accepted sample for HOLD_ET ticks goes on in HOLDOVER (R242). -/
theorem servoHoldoverEnters (d : Nat) (hst : s.get F.domStatusState d = 1 ∨ s.get F.domStatusState d = 2)
    (ht : s.get F.domLockHoldEt d ≤ s.ticks - (s.servo d).lastAccept) (hl : s.isLeader = false) (hi : s.inLockstep = false) :
    Completes (.servoHoldover d) s fun t => t.get F.domStatusState d = 3
      ∧ t.get F.domAddendAddend d = (s.holdoverAddend d).1.toNat % 2 ^ 32 := by
  obtain ⟨h1, h2, h3⟩ := State.servoHold_reads hl hi d
  refine .intro (t := s.enterHoldover d) (if_pos ⟨hst, ht⟩) ?_
  unfold State.enterHoldover
  dsimp only
  split
  · obtain ⟨h4, h5⟩ := State.requestSelect_reads h3 (1 - d) d
    obtain ⟨h6, h7⟩ := ((s.servoHold d).requestSelect (1 - d)).switched_reads (1 - d) d
    exact ⟨h6.trans (h4.trans h1), h7.trans (h5.trans h2)⟩
  · exact ⟨h1, h2⟩

/-! ### Lockstep (R249, R251) -/

theorem bitsBelow_pow {p : Nat} (h : p < 4) : bitsBelow 4 (2 ^ p) = [p] := by
  match p, h with
  | 0, _ => rfl
  | 1, _ => rfl
  | 2, _ => rfl
  | 3, _ => rfl

/-- The frame of a broadcast that this chip originates. -/
def State.ownBroadcast (s : State) (cls sub : Nat) (l : List Nat) : Frame :=
  { cls := cls, sub := sub, bcast := true, src := s.get F.oluChipId, ttl := s.get F.oluBcastTtl, payload := l }

/-- A broadcast of a chip that originates on one port which is up waits there (R289). -/
theorem State.originate_one {p : Nat} (hp : p < 4) (hb : s.get F.oluBcastOrig = 2 ^ p) (h0 : s.get F.olupStatusState p ≠ 0)
    (h7 : s.get F.olupStatusState p ≠ 7) (cls sub : Nat) (l : List Nat) :
    s.originate cls sub l = s.setPortX p { s.portX p with queue := (s.portX p).queue ++ [(s.ownBroadcast cls sub l, none)] } := by
  unfold State.originate State.enqueueMask
  rw [hb, bitsBelow_pow hp]
  exact if_neg fun h => h.2.elim h0 h7

/-- A leader sends its check message (R249). -/
theorem checkMessageGoesOut {p : Nat} (hp : p < 4) (hl : s.isLeader = true) (hb : s.get F.oluBcastOrig = 2 ^ p)
    (h0 : s.get F.olupStatusState p ≠ 0) (h7 : s.get F.olupStatusState p ≠ 7) :
    Completes .checkMessageSend s fun t => ∃ a b, (t.portX p).queue = (s.portX p).queue ++ [(a, none), (b, none)]
      ∧ a.cls = 5 ∧ a.sub = 2 ∧ b.cls = 5 ∧ b.sub = 3 ∧ a.bcast = true ∧ b.bcast = true
      ∧ a.payload = List.replicate 8 0 ++ bytesOf (s.get F.clkEtcountCount) 8 ++ domainBytes s.clocks.dom0 ++ domainBytes s.clocks.dom1
      ∧ b.payload = List.replicate 8 0 ++ bytesOf (s.get F.clkEtcountCount) 8 ++ bytesOf s.clocks.add0 4 ++ bytesOf s.clocks.add1 4
        ++ bytesOf (unsigned 96 s.clocks.delta) 12 ++ [s.clocks.sel] := by
  refine .intro (if_pos hl) ?_
  rw [State.originate_one hp hb h0 h7, State.originate_one hp (by exact hb) (by exact h0) (by exact h7)]
  refine ⟨s.ownBroadcast 5 2 _, s.ownBroadcast 5 3 _, ?_, rfl, rfl, rfl, rfl, rfl, rfl, rfl, rfl⟩
  rw [State.portX_setPortX, if_pos rfl, State.portX_setPortX, if_pos rfl]
  exact List.append_assoc _ [_] [_]

/-- The domains of a follower that has lost lockstep (R251). -/
def State.holdDomains (s : State) : State := (s.set F.domStatusState 0 0 3).set F.domStatusState 1 0 3

theorem State.holdDomains_reads (hk : s.get F.timeStatusLockstepOk = 0) (hl : s.get F.timeStatusLockstepLost = 1)
    (x : TimeX) : { s.holdDomains with time := x }.get F.timeStatusLockstepOk = 0
      ∧ { s.holdDomains with time := x }.get F.timeStatusLockstepLost = 1 ∧ { s.holdDomains with time := x }.get F.domStatusState 0 = 3
      ∧ { s.holdDomains with time := x }.get F.domStatusState 1 = 3 := by
  have ho : Only F.domStatusState.mask s s.holdDomains := by
    unfold State.holdDomains
    exact State.set_only _ _ _ _ (State.set_only _ _ _ _ (.refl _ s) (Nat.or_self _)) (Nat.or_self _)
  refine ⟨?_, ?_, ?_, ?_⟩ <;> rw [State.get_time]
  · rw [ho.get F.timeStatusLockstepOk 0 0 (by decide), hk]
  · rw [ho.get F.timeStatusLockstepLost 0 0 (by decide), hl]
  · unfold State.holdDomains
    rw [State.get_set_ne _ F.domStatusState F.domStatusState _ _ _ _ _ (by decide) (.inr (.inl (by decide))),
      State.get_set _ _ _ _ _ (by decide)]
    rfl
  · unfold State.holdDomains
    rw [State.get_set _ _ _ _ _ (by decide)]
    rfl

/-- A follower without a check message for 2^21 ticks loses lockstep and goes on in HOLDOVER (R251). -/
theorem lockstepLostGoesOn (hf : s.isFollower = true) (ht : 2097152 ≤ s.ticks - s.time.lastCheck)
    (hk : s.bit F.timeStatusLockstepOk = true) (hu : Unclear s F.timeStatusLockstepLost 0 0) :
    Completes .lockstepLost s fun t => t.get F.timeStatusLockstepOk = 0 ∧ t.get F.timeStatusLockstepLost = 1
      ∧ t.get F.domStatusState 0 = 3 ∧ t.get F.domStatusState 1 = 3 ∧ t.time.pendingChanges = [] := by
  have hw : exec .lockstepLost s = .next s.loseLockstep := congrArg Host.Outcome.next (if_pos ⟨hf, ht⟩)
  refine .intro hw ?_
  have hx := State.set_only F.timeStatusLockstepOk 0 0 0 (.refl _ s) (Nat.or_self _)
  have hv : Unclear (s.setBit F.timeStatusLockstepOk 0 0 false) F.timeStatusLockstepLost 0 0 :=
    hx.unclear hu (by decide) (by decide) (by decide) (by decide) rfl
  have hl := State.get_hwSet _ _ _ _ hv (by decide) (by decide)
  have hk : ((s.setBit F.timeStatusLockstepOk 0 0 false).hwSet F.timeStatusLockstepLost 0 0).get F.timeStatusLockstepOk = 0 := by
    rw [State.get_hwSet_ne _ F.timeStatusLockstepLost F.timeStatusLockstepOk _ _ _ _ (by decide) (by decide) (.inr (.inr (.inr (by decide)))),
      State.get_setBit _ _ _ _ _ (by decide) (by decide)]
    rfl
  unfold State.loseLockstep
  rw [if_pos ‹_›]
  obtain ⟨h1, h2, h3, h4⟩ := State.holdDomains_reads hk hl _
  exact ⟨h1, h2, h3, h4, rfl⟩

/-! ### Station time: O28 -/

theorem domainServo : DomainServo :=
  ⟨fun d theta _ hf he hu => sampleOffsetRejected d theta hf he hu,
   fun d theta i lim _ hf hl he hr hg ha hs hlim hi => sampleOffsetActs d theta i lim hf hl he hr hg ha hs hlim hi,
   fun d _ hf ha => intClearZeroes d hf ha, fun d _ hf hc => rejectCountClearZeroes d hf hc,
   fun d _ hst ht hl hi => servoHoldoverEnters d hst ht hl hi⟩

/-- Settles O28: what reaches the timebase alone in its tick is what acts at the end of it. -/
theorem servoAndLockstep : Obligations.ServoAndLockstep :=
  ⟨domainServo, fun _ _ hp hl hb h0 h7 => checkMessageGoesOut hp hl hb h0 h7, fun _ hf ht hk hu => lockstepLostGoesOn hf ht hk hu⟩

end Sys2Proof.Machine
end


section
/-!
PROOFS. TimeChanges.lean: steps, switches and the slew of the timebase (R243, R245 to R247).
-/
namespace Sys2Proof.Machine
set_option Elab.async false

variable {s : State}

/-! ### The clocks after a change (R236, R243, R245) -/

theorem slewBy_zero (d : Int) : slewBy d 0 = d := by
  unfold slewBy
  split <;> omega

/-- From the core tick of a change on, the clocks are those that it leaves. -/
theorem State.clocksAt_changeAt (s : State) (u n : Nat) (f : Clocks → Clocks) (h : max u s.timeFront ≤ n) :
    (s.changeAt u f).clocksAt n = (f (s.clocksAt (max u s.timeFront))).pass (n - max u s.timeFront) := by
  have ht : (s.changeAt u f).time.timeline = (max u s.timeFront, f (s.clocksAt (max u s.timeFront)))
      :: timelineFrom (max u s.timeFront - 16777216) (s.time.timeline.filter fun e => decide (e.1 < max u s.timeFront)) := by
    unfold State.changeAt State.setBit
    rw [State.set_time]
  unfold State.clocksAt
  rw [ht, List.find?_cons_of_pos (by exact decide_eq_true h)]
  rfl

theorem State.clocksAt_of_time {s t : State} (h : t.time = s.time) (n : Nat) : t.clocksAt n = s.clocksAt n := by
  unfold State.clocksAt
  rw [h]

theorem changeTick_of_time {s t : State} (h : t.time = s.time) : changeTick t = changeTick s := by
  unfold changeTick State.timeFront
  rw [h]

/-- A step moves its domain and leaves the other (R245). -/
theorem Clocks.pass_step {d : Nat} (hd : d < 2) (c : Clocks) (ns : Int) (k : Nat) :
    ((c.change (.step d ns)).pass k).dom d = (c.pass k).dom d + ns * 4294967296
    ∧ ((c.change (.step d ns)).pass k).dom (1 - d) = (c.pass k).dom (1 - d) := by
  match d, hd with
  | 0, _ => exact ⟨Int.add_right_comm .., rfl⟩
  | 1, _ => exact ⟨Int.add_right_comm .., rfl⟩

theorem Clocks.pass_zero (c : Clocks) : c.pass 0 = c := by
  unfold Clocks.pass
  rw [Int.natCast_zero, Int.zero_mul, Int.zero_mul, Int.add_zero, Int.add_zero, Nat.zero_mul, slewBy_zero]

/-- A switch takes the other domain and leaves station time where it was (R243). -/
theorem Clocks.change_select (c : Clocks) (d : Nat) :
    (c.change (.select d)).sel = d ∧ (c.change (.select d)).station = c.station := by
  refine ⟨rfl, ?_⟩
  show c.dom d + (c.station - c.dom d) = c.station
  omega

/-! ### What reaches the timebase alone in its tick (R246, R247) -/

theorem State.timeActs_step (h : s.time.asks = []) (d : Nat) (ns : Int) : (s.ask (.step d ns)).timeActs = (s.requestStep d ns).2 := by
  have ha : (s.ask (.step d ns)).time.asks = [.step d ns] := congrArg (· ++ [_]) h
  unfold State.timeActs
  rw [ha, State.forget_ask h]
  rfl

theorem State.timeActs_select (h : s.time.asks = []) (d : Nat) : (s.ask (.select d)).timeActs = s.requestSelect d := by
  have ha : (s.ask (.select d)).time.asks = [.select d] := congrArg (· ++ [_]) h
  unfold State.timeActs
  rw [ha, State.forget_ask h]
  rfl

/-- A step that nothing refuses moves its domain's clock (R245). -/
theorem domainStepMoves {d n : Nat} (ns : Int) (hd : d < 2) (hf : s.isFollower = false) (hl : s.isLeader = false)
    (hu : Unclear s F.domStatusStepped d 0) (hr : ¬(s.lastSelect = d ∧ (10000 < ns ∨ ns < -10000) ∧ s.anyScheduled = true))
    (ha : s.time.asks = []) (hn : changeTick s ≤ n) :
    Completes (.domainStep d ns) s fun t => t.timeActs.get F.domStatusStepped d = 1
      ∧ (t.timeActs.clocksAt n).dom d = ((s.clocksAt (changeTick s)).pass (n - changeTick s)).dom d + ns * 4294967296
      ∧ (t.timeActs.clocksAt n).dom (1 - d) = ((s.clocksAt (changeTick s)).pass (n - changeTick s)).dom (1 - d) := by
  refine .intro (t := s.ask (.step d ns)) (congrArg Host.Outcome.next (if_neg (by rw [hf]; exact Bool.noConfusion))) ?_
  have hx : (s.requestStep d ns).2
      = (s.changeAt (s.time.ct + 1) fun k => k.change (.step d ns)).hwSet F.domStatusStepped d 0 := by
    unfold State.requestStep
    rw [if_neg hr]
    show s.makeChange (.step d ns) = _
    unfold State.makeChange
    rw [if_neg (by rw [hl]; exact Bool.noConfusion)]
    rfl
  have hc := s.changeAt_within (s.time.ct + 1) fun k => k.change (.step d ns)
  rw [State.timeActs_step ha, hx]
  refine ⟨?_, ?_⟩
  · exact State.get_hwSet _ _ _ _ (hc.unclear hu (by decide) (by decide) (by decide) (by decide)
      (State.decider_congr (hc.events (by decide)) _)) (by decide) (by decide)
  · rw [State.clocksAt_of_time (State.hwSet_time ..), State.clocksAt_changeAt s _ n _ hn]
    exact Clocks.pass_step hd _ ns _

/-- A step over 10 µs of the selected domain is refused while a raising is scheduled (R247). -/
theorem domainStepRefused {d : Nat} (ns : Int) (hf : s.isFollower = false) (hs : s.lastSelect = d) (hw : 10000 < ns ∨ ns < -10000)
    (hr : s.anyScheduled = true) (hu : Unclear s F.domStatusStepRefused d 0) (ha : s.time.asks = []) :
    Completes (.domainStep d ns) s fun t => t.timeActs.time = s.time ∧ t.timeActs.get F.domStatusStepRefused d = 1 := by
  refine .intro (t := s.ask (.step d ns)) (congrArg Host.Outcome.next (if_neg (by rw [hf]; exact Bool.noConfusion))) ?_
  have hx : (s.requestStep d ns).2 = s.hwSet F.domStatusStepRefused d 0 := by
    unfold State.requestStep
    rw [if_pos ⟨hs, hw, hr⟩]
  rw [State.timeActs_step ha, hx]
  exact ⟨State.hwSet_time .., State.get_hwSet _ _ _ _ hu (by decide) (by decide)⟩

/-- A switch selects the other domain, and station time goes on (R243). -/
theorem domainSwitchSelects {d : Nat} (hd : d < 2) (hf : s.isFollower = false) (hl : s.isLeader = false) (hs : s.lastSelect ≠ d)
    (ha : s.time.asks = []) :
    Completes (.domainSwitch d) s fun t => t.timeActs.get F.timeStatusSelected = d ∧ t.timeActs.get F.timeCtrlSelect = d
      ∧ (t.timeActs.clocksAt (changeTick s)).sel = d
      ∧ (t.timeActs.clocksAt (changeTick s)).station = (s.clocksAt (changeTick s)).station := by
  have hx : exec (.domainSwitch d) s = .next (s.ask (.select d)) := by
    show Host.Outcome.next (if s.isFollower then s else s.ask (.select (d % 2))) = _
    rw [if_neg (by rw [hf]; exact Bool.noConfusion), Nat.mod_eq_of_lt hd]
  refine .intro hx ?_
  have ho := State.set_only F.timeCtrlSelect 0 0 d (.refl _ s) (Nat.or_self _)
  have hlead : (s.set F.timeCtrlSelect 0 0 d).isLeader = false := by
    unfold State.isLeader at hl ⊢
    rw [State.get_set_apart _ F.timeCtrlSelect F.timeCtrlLockstep _ _ _ _ _ (by decide) (by decide)]
    exact hl
  have hlast : (s.set F.timeCtrlSelect 0 0 d).lastSelect = s.lastSelect := by
    unfold State.lastSelect
    rw [State.set_time, ho.get F.timeStatusSelected 0 0 (by decide)]
  have hreq : s.requestSelect d = ((s.set F.timeCtrlSelect 0 0 d).changeAt (s.time.ct + 1) fun k => k.change (.select d)).set
      F.timeStatusSelected 0 0 d := by
    unfold State.requestSelect
    dsimp only
    rw [if_neg (by rwa [hlast])]
    unfold State.makeChange
    rw [if_neg (by rw [hlead]; exact Bool.noConfusion), State.set_time]
    rfl
  have hm : d % 2 ^ 1 = d := Nat.mod_eq_of_lt hd
  have hfront : max (s.time.ct + 1) (s.set F.timeCtrlSelect 0 0 d).timeFront = changeTick s := by
    unfold changeTick State.timeFront
    rw [State.set_time]
  rw [State.timeActs_select ha, hreq]
  refine ⟨?_, ?_, ?_⟩
  · exact (State.get_set _ _ _ _ _ (by decide)).trans hm
  · rw [State.get_set_reg _ F.timeStatusSelected F.timeCtrlSelect _ _ _ _ _ (by decide) (by decide),
      (State.changeAt_within ..).get _ _ _ (by decide), State.get_set _ _ _ _ _ (by decide)]
    exact hm
  · rw [State.clocksAt_of_time (State.set_time ..), State.clocksAt_changeAt _ _ _ _ (Nat.le_of_eq hfront), hfront, Nat.sub_self,
      Clocks.pass_zero, State.clocksAt_of_time (State.set_time ..)]
    exact Clocks.change_select _ d

/-- With Δ = 0 the slew has ended (R243). -/
theorem slewCompleteEnds (h : s.newClocks.delta = 0) :
    Completes .slewComplete s fun t => t.get F.timeStatusSlewing = 0 ∧ t.time = s.time :=
  .intro (t := s.set F.timeStatusSlewing 0 0 0) (congrArg Host.Outcome.next (if_pos h)) ⟨State.get_set _ _ _ _ _ (by decide),
    s.set_time ..⟩

theorem stepsAndSwitches : StepsAndSwitches :=
  ⟨fun _ _ ns _ hd hf hl hu hr ha hn => domainStepMoves ns hd hf hl hu hr ha hn,
   fun _ ns _ hf hs hw hr hu ha => domainStepRefused ns hf hs hw hr hu ha,
   fun _ _ hd hf hl hs ha => domainSwitchSelects hd hf hl hs ha, fun _ h => slewCompleteEnds h⟩

end Sys2Proof.Machine
end


section
/-!
PROOFS. Stamps.lean: what the supplied buffers of a ring are after other work of the host's part, and time in and out (R252 to R258,
  R322);
from these O27.
-/
namespace Sys2Proof.Machine
set_option Elab.async false

/-! ### The supplied buffers of a ring (R322) -/

/-- While the function is a bus master, the step from `s` to `t` leaves the supplied buffers of RING[q], and what has been sent. -/
structure ReadyKept (q : Nat) (s t : State) : Prop where
  kept : s.busMaster = true → t.busMaster = true ∧ s.out ⊆ t.out ∧ (t.ringX q).ready = (s.ringX q).ready

namespace ReadyKept
variable {q : Nat} {s t u : State}

theorem refl (q : Nat) (s : State) : ReadyKept q s s := ⟨fun h => ⟨h, fun _ ho => ho, rfl⟩⟩

theorem trans (h : ReadyKept q s t) (g : ReadyKept q t u) : ReadyKept q s u := by
  refine ⟨fun hb => ?_⟩
  obtain ⟨hm, ho, hr⟩ := h.kept hb
  obtain ⟨hm', ho', hr'⟩ := g.kept hm
  exact ⟨hm', fun _ hx => ho' (ho hx), hr'.trans hr⟩

/-- A step that leaves the outputs and the host's part as they are. -/
theorem of_host (ho : t.out = s.out) (hh : t.host = s.host) : ReadyKept q s t :=
  ⟨fun hb => ⟨(State.busMaster_of_host hh).trans hb, ho ▸ fun _ hx => hx,
    congrArg (fun x : HostX => (unitAt ({} : RingX) x.rings q).ready) hh⟩⟩

theorem set (s : State) (f : Fld) (i j v : Nat) : ReadyKept q s (s.set f i j v) := of_host (s.set_out ..) (s.set_host ..)

theorem count (s : State) (f sat : Fld) (i j n : Nat) : ReadyKept q s (s.count f sat i j n) := of_host (s.count_out ..) (s.count_host ..)

theorem emit (s : State) (o : Output) : ReadyKept q s (s.emit o) :=
  ⟨fun hb => ⟨hb, fun _ h => List.mem_append_left _ h, rfl⟩⟩

/-- A ring's part with the same supplied buffers is stored. -/
theorem setRingX (s : State) (p : Nat) (x : RingX) (hx : x.ready = (s.ringX p).ready) : ReadyKept q s (s.setRingX p x) := by
  refine ⟨fun hb => ⟨hb, fun _ h => h, ?_⟩⟩
  rw [State.ringX_setRingX]
  split
  · next h => rw [h, hx]
  · rfl

theorem mapBarriers (s : State) (f : List (Nat × Nat) → List (Nat × Nat)) : ReadyKept q s (s.mapBarriers f) :=
  ⟨fun hb => ⟨hb, fun _ h => h, by rw [State.ringX_mapBarriers]⟩⟩

theorem foldl {α : Type} (l : List α) (f : State → α → State) (h : ∀ t a,
  ReadyKept q t (f t a)) (s : State) : ReadyKept q s (l.foldl f s) := by
  induction l generalizing s with
  | nil => exact refl q s
  | cons a l ih => exact (h s a).trans (ih _)

theorem wroteEntry (s : State) (p : Nat) (irq : Bool) : ReadyKept q s (s.wroteEntry p irq) := setRingX s p _ (by rfl)

theorem pushEntry (s : State) (p : Nat) (ws : List Word) : ReadyKept q s (s.pushEntry p ws) := by
  refine ⟨fun hb => ?_⟩
  unfold State.pushEntry
  rw [if_pos hb]
  exact ((emit s _).trans ((set ..).trans (wroteEntry ..))).kept hb

theorem reportLost (s : State) (p : Nat) : ReadyKept q s (s.reportLost p) := by
  unfold State.reportLost
  dsimp only
  split
  · exact refl q s
  · exact (setRingX s p _ (by rfl)).trans (pushEntry ..)

theorem pushRecord (s : State) (p : Nat) (ws : List Word) : ReadyKept q s (s.pushRecord p ws) := by
  unfold State.pushRecord
  dsimp only
  refine (reportLost s p).trans ?_
  split
  · exact pushEntry ..
  · exact (count ..).trans (setRingX _ p _ (by rfl))

theorem post (s : State) (code src detail : Nat) : ReadyKept q s (s.post code src detail) := by
  unfold State.post
  split
  · exact count ..
  · exact foldl _ _ (fun t p => pushRecord t p _) s

/-- The mark of a type mismatch in the host's part touches no ring. -/
theorem reported (s : State) (l : List (Nat × Nat × Nat)) : ReadyKept q s { s with host := { s.host with typeReported := l } } :=
  ⟨fun hb => ⟨hb, fun _ h => h, rfl⟩⟩

theorem namedRing (s : State) (kind idx p ty : Nat) (self : Bool) : ReadyKept q s (s.namedRing kind idx p ty self).2 := by
  unfold State.namedRing
  split
  · exact refl q s
  · split
    · exact refl q s
    · exact (reported s _).trans (post ..)

theorem drained (s : State) (p : Nat) : ReadyKept q s (s.drained p) := by
  unfold State.drained
  split
  · exact set ..
  · exact refl q s

theorem writeOwnRecord (s : State) (p : Nat) : ReadyKept q s (s.writeOwnRecord p) := by
  unfold State.writeOwnRecord
  split
  · exact refl q s
  · dsimp only
    have hn := namedRing (q := q) s 1 p (s.get F.ringCfgPair p) 1 (decide (s.get F.ringCfgPair p = p))
    split
    · next t h =>
      rw [h] at hn
      split
      · exact hn.trans ((pushEntry ..).trans ((setRingX _ p _ (by rfl)).trans (drained ..)))
      · exact hn
    · next t h => rwa [h] at hn

theorem writeCompletion (s : State) (p : Nat) : ReadyKept q s (s.writeCompletion p) :=
  (foldl _ _ (fun t r => writeOwnRecord t r) s).trans (writeOwnRecord ..)

theorem awaitRecord (s : State) (p ty : Nat) (r : Run) (st : Nat) : ReadyKept q s (s.awaitRecord p ty r st) := by
  unfold State.awaitRecord
  split
  · refine .trans (setRingX s p _ ?_) ⟨fun hb => ⟨hb, fun _ h => h, rfl⟩⟩
    rfl
  · exact refl q s

theorem writeBack (s : State) (p : Nat) (d : Desc) (st : Nat) (w1 w2 w3 : Word) : ReadyKept q s (s.writeBack p d st w1 w2 w3) := by
  unfold State.writeBack
  exact (emit ..).trans ((set ..).trans ((wroteEntry ..).trans (mapBarriers ..)))

theorem flushRuns (p : Nat) (l : List Run) (s : State) : ReadyKept q s (s.flushRuns p l) := by
  induction l generalizing s with
  | nil => exact setRingX s p _ (by rfl)
  | cons r rs ih =>
    rcases hr : r.done with _ | ⟨st, w1, w2, w3⟩
    · rw [State.flushRuns_wait _ _ _ _ hr]
      exact setRingX s p _ (by rfl)
    · rw [State.flushRuns_done _ _ _ _ _ _ _ _ hr]
      exact ((writeBack s p ..).trans (awaitRecord ..)).trans (ih _)

theorem endRun (s : State) (p i st : Nat) (w1 w2 w3 : Word) : ReadyKept q s (s.endRun p i st w1 w2 w3) := by
  refine ⟨fun hb => ?_⟩
  unfold State.endRun
  rw [if_pos hb]
  exact ((flushRuns ..).trans ((writeCompletion ..).trans (drained ..))).kept hb

theorem releaseBarriers (s : State) : ReadyKept q s s.releaseBarriers := by
  unfold State.releaseBarriers
  refine foldl _ _ (fun t e => ?_) s
  exact (setRingX t e.1 { (t.ringX e.1) with barrier := none } rfl).trans (endRun ..)

theorem complete (s : State) (tok : Token) (st : Nat) (w1 w2 w3 : Word) : ReadyKept q s (s.complete tok st w1 w2 w3) := by
  unfold State.complete
  split
  · exact (endRun ..).trans (releaseBarriers _)
  · exact refl q s

end ReadyKept

/-! ### LATCH and PPS (R256 to R258) -/

variable {s : State}

/-- LATCH stores the time of its source (R256). -/
theorem latchStores {src : Nat} (i : Nat) (h : src ≤ 2) :
    Completes (.latch i src) s fun t => t.get F.timeSnapSecSeconds 0 i = timeSec (s.clocks.source src) % 2 ^ F.timeSnapSecSeconds.width
      ∧ t.get F.timeSnapNsNanoseconds 0 i = timeNs (s.clocks.source src) % 2 ^ F.timeSnapNsNanoseconds.width
      ∧ t.get F.timeSnapNsFraction 0 i = timeFrac (s.clocks.source src) % 2 ^ F.timeSnapNsFraction.width
      ∧ t.get F.timeSnapNsValid 0 i = 1 ∧ t.get F.timeSnapSecSource 0 i = src := by
  refine .intro (t := s.latch i src) rfl ?_
  have hsrc : (if 2 < src then 0 else src) = src := if_neg (Nat.not_lt.2 h)
  unfold State.latch
  dsimp only
  rw [hsrc]
  refine ⟨?_, ?_, ?_, State.get_set _ _ _ _ _ (by decide), ?_⟩
  all_goals simp (disch := decide)
  omega

/-- PPS_OUT rises where the time of its source passes a whole second (R257). -/
theorem ppsOutRises {e : Nat} (he : s.timeActs.ppsEdge (s.get F.timePpsCfgOutSource) = some e) (ho : s.bit F.timePpsCfgOutEn = true)
    (hr : s.bit F.clkStatusRefLost = false) :
    Completes .ppsOut s fun t => t.out = s.out ++ [.pps e (s.get F.timePpsCfgOutLat)]
      ∧ t.time.ppsFalls = some (s.time.ct + e / 1024 + 1200 * s.get F.timePpsCfgWidth) := by
  have hx : exec .ppsOut s = .next ({ s with time := { s.time with
      ppsFalls := some (s.time.ct + e / 1024 + 1200 * s.get F.timePpsCfgWidth) } }.emit (.pps e (s.get F.timePpsCfgOutLat))) := by
    show execPpsOut s = _
    unfold execPpsOut
    rw [he]
    exact if_pos ⟨ho, hr⟩
  exact .intro hx ⟨rfl, rfl⟩

/-- The stamp of an accepted PPS_IN edge is stored (R258). -/
def State.ppsStamped (s : State) (u : Int) (hold : Bool) : State :=
  ((((s.set F.timePpsInSecSeconds 0 0 (timeSec u)).set F.timePpsInNsNanoseconds 0 0 (timeNs u)).set F.timePpsInNsFraction 0 0
    (timeFrac u)).setBit F.timePpsInNsHoldover 0 0 hold).set F.timePpsInNsValid 0 0 1

theorem State.ppsStamped_reads (s : State) (u : Int) (hold : Bool) :
    (s.ppsStamped u hold).get F.timePpsInSecSeconds = timeSec u % 2 ^ F.timePpsInSecSeconds.width
    ∧ (s.ppsStamped u hold).get F.timePpsInNsNanoseconds = timeNs u % 2 ^ F.timePpsInNsNanoseconds.width
    ∧ (s.ppsStamped u hold).get F.timePpsInNsValid = 1 ∧ (s.ppsStamped u hold).get F.timePpsInNsEdges = s.get F.timePpsInNsEdges := by
  unfold State.ppsStamped
  refine ⟨?_, ?_, State.get_set _ _ _ _ _ (by decide), ?_⟩
  all_goals simp (disch := decide)

theorem State.ppsStamped_only (s : State) (u : Int) (hold : Bool) : Only 0xc0000000 s (s.ppsStamped u hold) :=
  State.set_only _ _ _ _ (State.set_only _ _ _ _ (State.set_only _ _ _ _ (State.set_only _ _ _ _ (State.set_only _ _ _ _ (.refl _ s)
    (by decide)) (by decide)) (by decide)) (by decide)) (by decide)

/-- An accepted PPS_IN edge is stamped and counted (R258). -/
theorem ppsInStamps {ct src : Nat} {u : Int} (he : s.bit F.timePpsCfgInEn = true) (hsrc : src = s.get F.timePpsCfgInSource)
    (hu : u = (s.timeActs.clocksIn ct).source src) (hl : ∀ l, s.time.lastPps = some l → l + 600000000 ≤ s.time.ct + ct)
    (hc : Unclear s F.timePpsInNsEdges 0 0) (hn : s.get F.timePpsInNsEdges + 1 < 2 ^ F.timePpsInNsEdges.width) :
    Completes (.ppsIn ct) s fun t => t.get F.timePpsInSecSeconds = timeSec u % 2 ^ F.timePpsInSecSeconds.width
      ∧ t.get F.timePpsInNsNanoseconds = timeNs u % 2 ^ F.timePpsInNsNanoseconds.width
      ∧ t.get F.timePpsInNsValid = 1 ∧ t.get F.timePpsInNsEdges = s.get F.timePpsInNsEdges + 1
      ∧ t.time.lastPps = some (s.time.ct + ct) := by
  subst hsrc hu
  have hearly : ¬(s.bit F.timePpsCfgInEn = false ∨ (match s.time.lastPps with
      | some l => decide (s.time.ct + ct < l + 600000000)
      | none => false) = true) := by
    rw [he]
    rcases hp : s.time.lastPps with _ | l
    · simp
    · simpa using hl l hp
  have hv := s.ppsStamped_only ((s.timeActs.clocksIn ct).source (s.get F.timePpsCfgInSource))
    (s.holdover ((s.timeActs.clocksIn ct).sourceDom (s.get F.timePpsCfgInSource)))
  obtain ⟨h1, h2, h3, h4⟩ := s.ppsStamped_reads ((s.timeActs.clocksIn ct).source (s.get F.timePpsCfgInSource))
    (s.holdover ((s.timeActs.clocksIn ct).sourceDom (s.get F.timePpsCfgInSource)))
  have huv := hv.unclear hc (by decide) (by decide) (by decide) (by decide) (State.decider_congr (hv.events (by decide)) _)
  have hx : exec (.ppsIn ct) s = .next (({ (s.ppsStamped ((s.timeActs.clocksIn ct).source (s.get F.timePpsCfgInSource))
      (s.holdover ((s.timeActs.clocksIn ct).sourceDom (s.get F.timePpsCfgInSource)))).count F.timePpsInNsEdges F.timePpsInNsSaturated 0 0 1
      with time := { ((s.ppsStamped ((s.timeActs.clocksIn ct).source (s.get F.timePpsCfgInSource))
      (s.holdover ((s.timeActs.clocksIn ct).sourceDom (s.get F.timePpsCfgInSource)))).count F.timePpsInNsEdges F.timePpsInNsSaturated
        0 0 1).time with lastPps := some (s.time.ct + ct) } }).post 0x0602 0 (s.stampOf
        ((s.timeActs.clocksIn ct).source (s.get F.timePpsCfgInSource)) ((s.timeActs.clocksIn ct).sourceDom (s.get F.timePpsCfgInSource)))) :=
    if_neg hearly
  generalize s.ppsStamped _ _ = v at hv h1 h2 h3 h4 huv hx
  refine .intro hx ?_
  have hp (w : State) (n : Nat) := w.post_within 0x0602 0 n
  have hcount (f : Fld) (d : F.timePpsInNsEdges.reg ≠ f.reg ∨ F.timePpsInNsEdges.Apart f) (ds : F.timePpsInNsSaturated.reg ≠ f.reg ∨ F.timePpsInNsSaturated.Apart f)
      (hg : f.reg ≠ .clkPrecStats) : (v.count F.timePpsInNsEdges F.timePpsInNsSaturated 0 0 1).get f = v.get f :=
    State.get_count_ne _ _ _ _ _ _ _ _ _ hg (by decide) (by decide) (d.elim .inl fun h => .inr (.inr (.inr h)))
      (ds.elim .inl fun h => .inr (.inr (.inr h)))
  refine ⟨?_, ?_, ?_, ?_, ?_⟩
  · rw [(hp _ _).get _ _ _ (by decide), State.get_time, hcount _ (by decide) (by decide) (by decide), h1]
  · rw [(hp _ _).get _ _ _ (by decide), State.get_time, hcount _ (by decide) (by decide) (by decide), h2]
  · rw [(hp _ _).get _ _ _ (by decide), State.get_time, hcount _ (by decide) (by decide) (by decide), h3]
  · rw [(hp _ _).get _ _ _ (by decide), State.get_time, State.get_count _ _ _ _ _ _ huv (by rw [h4]; exact hn) (by decide), h4]
  · rw [(hp _ _).time (by decide)]

/-! ### The time port (R252 to R254, R322) -/

theorem State.namedRing_right {kind i q ty : Nat} (h : s.get F.ringCfgType q = ty) :
    s.namedRing kind i q ty false = (s.ringEnabled q, s) := if_pos ⟨h, rfl⟩

/-- A wanted frame goes to the oldest supplied buffer (R252, R322). -/
theorem timeportRxStores {frame : List Nat} {q : Nat} {d : Desc} {ds : List Desc} (ct : Nat) (he : s.bit F.timePortCfgEnable = true)
    (hq : q = s.get F.timePortCfgRxRing) (ht : s.get F.ringCfgType q = 8) (hr : s.ringEnabled q = true) (hw : s.frameWanted frame = true)
    (hp : isPause frame = false) (hl : frame.length ≤ 1518) (hb : s.busMaster = true) (hd : (s.ringX q).ready = d :: ds) :
    Completes (.timeportRx frame true ct) s fun t => .hostBytes (d.w1.toNat / 64 * 64) frame ∈ t.out ∧ (t.ringX q).ready = ds := by
  subst hq
  obtain ⟨u, tok, hu, hbu, hru⟩ : ∃ u tok, s.beginRx (s.get F.timePortCfgRxRing) = some (d, tok, u) ∧ u.busMaster = true
      ∧ (u.ringX (s.get F.timePortCfgRxRing)).ready = ds := by
    unfold State.beginRx
    dsimp only
    rw [hd]
    refine ⟨_, _, if_pos ⟨hr, ht⟩, hb, ?_⟩
    rw [State.ringX_setRingX, if_pos rfl]
  have hx : ∃ n, exec (.timeportRx frame true ct) s
      = .next ((u.emit (.hostBytes (d.w1.toNat / 64 * 64) frame)).complete tok 0 (recWord n 0) (recWord n 1) 0) := by
    show ∃ n, execTimeportRx frame true ct s = _
    unfold execTimeportRx
    dsimp only
    rw [if_neg (by rw [he]; exact Bool.noConfusion), State.namedRing_right ht]
    dsimp only
    rw [if_neg Bool.noConfusion, if_neg (by rw [hw, hp]; simpa using hl), if_neg (by rw [hr]; exact Bool.noConfusion), hu]
    dsimp only
    unfold State.hostWrite
    rw [if_pos hbu]
    exact ⟨_, rfl⟩
  obtain ⟨n, hx⟩ := hx
  refine .intro hx ?_
  obtain ⟨-, ho, hk⟩ := ReadyKept.complete (q := s.get F.timePortCfgRxRing) (u.emit (.hostBytes (d.w1.toNat / 64 * 64) frame)) tok 0
    (recWord n 0) (recWord n 1) 0
    |>.kept hbu
  exact ⟨ho (List.mem_append_right _ List.mem_cons_self), hk.trans hru⟩

/-- A frame with a bad FCS is dropped and counted (R252). -/
theorem timeportRxDrops {q : Nat} (frame : List Nat) (ct : Nat) (he : s.bit F.timePortCfgEnable = true)
    (hq : q = s.get F.timePortCfgRxRing) (ht : s.get F.ringCfgType q = 8) (hu : Unclear s F.ringStatusDropped q 0)
    (hn : s.get F.ringStatusDropped q + 1 < 2 ^ F.ringStatusDropped.width) :
    Completes (.timeportRx frame false ct) s fun t => t.get F.ringStatusDropped q = s.get F.ringStatusDropped q + 1
      ∧ (t.ringX q).ready = (s.ringX q).ready := by
  subst hq
  refine .intro (t := s.count F.ringStatusDropped F.ringStatusSaturated (s.get F.timePortCfgRxRing) 0 1) ?_
    ⟨State.get_count _ _ _ _ _ _ hu hn (by decide), ?_⟩
  · show execTimeportRx frame false ct s = _
    unfold execTimeportRx
    dsimp only
    rw [if_neg (by rw [he]; exact Bool.noConfusion), State.namedRing_right ht]
    rfl
  · exact congrArg (fun x : HostX => (unitAt ({} : RingX) x.rings (s.get F.timePortCfgRxRing)).ready) (s.count_host ..)

/-- The oldest frame handed to the time port leaves the queue (R254). -/
theorem timetxCompleteLeaves (ago : Nat) {x : TxFrame} {xs : List TxFrame} (h : s.time.txQueue = x :: xs) :
    Completes (.timetxComplete ago) s fun t => t.time.txQueue = xs := by
  have hx : ∃ n, exec (.timetxComplete ago) s
      = .next ({ s with time := { s.time with txQueue := xs } }.complete x.tok 0 (recWord n 0) (recWord n 1) 0) := by
    show ∃ n, execTimetxComplete ago s = _
    unfold execTimetxComplete
    rw [h]
    exact ⟨_, rfl⟩
  obtain ⟨n, hx⟩ := hx
  refine .intro hx ?_
  rw [(State.complete_within ..).time (by decide)]

/-- An enabled port shows its link (R252). -/
theorem timePortLinkShown (up : Bool) (h : s.bit F.timePortCfgEnable = true) :
    Completes (.timePortLink up) s fun t => t.bit F.timePortCfgLink = up := by
  refine .intro (t := s.setBit F.timePortCfgLink 0 0 up) ?_ (State.bit_setBit _ _ _ _ _ (by decide) (by decide))
  show Host.Outcome.next (s.setBit F.timePortCfgLink 0 0 (up && s.bit F.timePortCfgEnable)) = _
  rw [h, Bool.and_true]

theorem timeInAndOut : TimeInAndOut :=
  ⟨fun i _ _ h => latchStores i h, fun _ _ he ho hr => ppsOutRises he ho hr,
   fun _ _ _ _ he hs hu hl hc hn => ppsInStamps he hs hu hl hc hn,
   fun _ ct _ _ _ _ he hq ht hr hw hp hl hb hd => timeportRxStores ct he hq ht hr hw hp hl hb hd,
   fun frame ct _ _ he hq ht hu hn => timeportRxDrops frame ct he hq ht hu hn,
   fun ago _ _ _ h => timetxCompleteLeaves ago h, fun up _ h => timePortLinkShown up h⟩

/-- Settles O27: what reaches the timebase alone acts at the end of its tick, and a completion leaves the other buffers of its ring. -/
theorem timeStepsAndStamps : Obligations.TimeStepsAndStamps := ⟨stepsAndSwitches, timeInAndOut⟩

end Sys2Proof.Machine
end
